-- ==== Sys2Proof/Word.lean ====
section
/-! DEFINITION. The word types of the DM2560 (R4, R5, R35) and their plainest arithmetic. -/

namespace Sys2Proof

/-- A sweep number: sweeps counted modulo 2^32 (R33). -/
abbrev SN := BitVec 32

/-- The native 20-bit word (R35). -/
abbrev Word20 := BitVec 20

/-- The 160 payload bits of one grain in one sweep: w0 in bits [159:140], w7 in bits [19:0] (R35). -/
abbrev Grain := BitVec 160

/-- A 32-bit register, descriptor-list or record word. -/
abbrev W32 := BitVec 32

end Sys2Proof
end

