-- ==== Sys2Proof/Syntax.lean ====
section
/-! DEFINITION. The commands of the DM2560: one constructor per row of spec/opcode_table.json, with the operands the
rules give it. Facts of the outside world (what was received, measured, fetched or sensed) are operands. -/

namespace Sys2Proof

/-- The grains of one port in one sweep: every position carries `fill` but those listed. -/
structure Page where
  fill : Grain := 0
  ovr : List (Nat × Grain) := []
deriving DecidableEq, Repr

/-- A sweep-start marker as it arrives on an input of a Loam plane (Table 1-4, R19). -/
structure MarkIn where
  plane : Fin 8
  input : Fin 132
  word : BitVec 40
deriving DecidableEq, Repr

/-- An ECC error found in a connection memory entry since the last tick (R32): memory 0 ingress, 1 center,
2 egress, 3 selector; `page` is the connection-memory page; `key` the entry. -/
structure CmEcc where
  mem : Fin 4
  page : Bool
  key : Nat
  dbl : Bool
deriving DecidableEq, Repr

/-- One plane's sweep as measured (R188, R208, R210): its slack in 0.8 ns units, the CYC that listed beats arrived with, and
the egress buffer entries whose beats came after the read tick; egress port and center slot of each. -/
structure PlaneIn where
  plane : Fin 8
  slack : BitVec 12
  cyc : List (Nat × Nat × BitVec 4) := []
  late : List (Nat × Nat) := []
deriving DecidableEq, Repr

/-- What a client's lanes received during a sweep: the bits of a single lane without RS-FEC; or what IEEE 802.3's RS-FEC,
transcoding and PCS-lane reordering give, block by block and still scrambled, with `none` for a block position spent on
alignment markers (R142 steps 1 to 3). -/
inductive CliRx where
  | line (bits : List Bool)
  | pcs (blocks : List (Option (BitVec 66)))
deriving DecidableEq, Repr

/-- One client's sweep, by its first lane, with the RS-FEC codewords corrected and uncorrectable (R164). -/
structure CliIn where
  lane : Fin 128
  rx : CliRx
  fecCorr : Nat := 0
  fecUnc : Nat := 0
deriving DecidableEq, Repr

/-- One FlexE group's sweep (R151): each PHY's descrambled blocks in increasing PHY number, overhead removed, from calendar
slot `first` on, with the RS-FEC codewords corrected and uncorrectable. -/
structure FlxIn where
  grp : Fin 128
  first : Fin 20
  phys : List (List (BitVec 66))
  fecCorr : Nat := 0
  fecUnc : Nat := 0
deriving DecidableEq, Repr

/-- What a receiver's loops show while it is ADAPTED (R94, R101): the SNR estimate and the equalizer values tracked. -/
structure TrackIn where
  lane : Fin 128
  snr : BitVec 12
  ctle : BitVec 5
  dfe : BitVec 8
  ffe : List (BitVec 8)
deriving DecidableEq, Repr

/-- One decoded GLF sweep (R55, R80): the overhead words by position with whether their codeword was correctable, the
grain words, and the decoder's counts. -/
structure RxSweep where
  oh : List (Word20 × Bool)
  grains : Page := {}
  fecCorr : Nat := 0
  fecUnc : Nat := 0
  fecSym : Nat := 0
deriving DecidableEq, Repr

/-- A sweep of a GLF lane at one alignment: as the receiver decodes it, or the levels at the slicer, which the lane port
and the framer decode, with the level before the first (R91, R54 to R59). -/
inductive RxIn where
  | words (r : RxSweep)
  | line (prev : Fin 4) (x : List (Fin 4))
deriving DecidableEq, Repr

/-- An access that a master of the bus matrix makes: core address (Table 15-2), bytes of one beat, 64-bit beats, whether it
stores, and whether it is an AMOADD.D or AMOSWAP.D, or another atomic. -/
structure MtxReq where
  m : Fin 4
  addr : W32
  bytes : Nat := 8
  beats : Nat := 1
  store : Bool := false
  amo : Bool := false
  other : Bool := false
deriving DecidableEq, Repr

/-- One cycle of the bus matrix: the accesses that masters make, the cores that execute a FENCE, and the slaves that answer a
master's oldest transaction. -/
structure MtxIn where
  issue : List MtxReq := []
  fence : List (Fin 2) := []
  answer : List (Fin 6 × Fin 4) := []
deriving DecidableEq, Repr

/-- What the outside gives one sweep tick. -/
structure TickIn where
  planes : List PlaneIn := []
  /-- Markers that differ from the one the ingress clusters attached; every other input brings that one. -/
  marks : List MarkIn := []
  ecc : List CmEcc := []
  fineEcc : List (Bool × BitVec 16) := []
  parity : List (Fin 128) := []
  clients : List CliIn := []
  flexe : List FlxIn := []
  /-- Levels that the receivers of lanes under test took in, with the level before the first (R103). -/
  prbs : List (Fin 128 × Fin 4 × List (Fin 4)) := []
  track : List TrackIn := []
  /-- What the twin-link receivers took in, by lane and alignment (R299). -/
  twl : List (Fin 4 × Nat × RxIn) := []
  /-- The cycles of the bus matrix in the sweep that ends (R388, R389). -/
  mtx : List MtxIn := []
  /-- The holds that the release point of an aligned client leaves its lanes, by first lane, in ns; negative: the lane
  arrives after it (R174). -/
  skew : List (Fin 128 × List Int) := []
deriving DecidableEq, Repr

/-- A received FlexE overhead frame of one PHY of a group (R151, R152, R157): the PHY's lane, group number, PHY number and
PHY map, the calendar in use, CR, CA and the group's two calendars (client ID by group slot, the PHYs' slots in turn), and
the ns from the tick. -/
structure FlxOh where
  lane : Fin 128
  group : BitVec 20
  phy : BitVec 8
  map : List (BitVec 8)
  inUse : Bool
  cr : Bool
  ca : Bool
  calA : List (BitVec 16)
  calB : List (BitVec 16)
  ns : Nat := 0
deriving DecidableEq, Repr

/-- A write of one connection-memory entry, as mirrored to the standby (R243): memory 0 ingress, 1 center, 2 egress,
4 fine; 3 stands for the state of plane `key` (R215). -/
structure EntryWr where
  mem : Fin 5
  key : Nat
  val : BitVec 32
deriving DecidableEq, Repr

/-- A PAIR record (Table 12-4). -/
structure PairRec where
  unit : Bool
  rev : BitVec 8
  svn : BitVec 16
  policy : BitVec 32
  nonce : BitVec 64
deriving DecidableEq, Repr

/-- A DECISION record (Table 12-4). -/
structure DecisionRec where
  pgid : BitVec 17
  sel : Fin 16
  x : SN
  top : BitVec 4
  holdOff : List (Nat × SN)
  wtr : Option SN
deriving DecidableEq, Repr

/-- A Loess allocation as a STATE record carries it: owner, budget, margin, grain-sixteenths and blocks per lane (R178). -/
structure BudgetRec where
  owner : Nat
  d16 : Nat
  m : Nat
  six : List (Nat × Nat)
  blk : List (Nat × Nat)
deriving DecidableEq, Repr

/-- A chunk of the resync snapshot (R322). -/
inductive StateChunk where
  | budgets (l : List BudgetRec)
  | entries (w : List EntryWr)
  | selector (w : List (Nat × BitVec 3))
  | descriptor (raw : BitVec 512) (lists : List (List W32))
  | group (d : DecisionRec)
  | last
deriving DecidableEq, Repr

/-- An answer to a Translation Request (R356 to R359): the ring whose access waits for it (none: a prefetch), whether the
request was issued before an invalidation, the range's size exponent, the translated base, the R, W and U bits, and the
cache entry that pseudo-LRU replaces, if it replaces one. -/
structure TransCpl where
  ring : Option (Fin 41)
  stale : Bool := false
  addr : BitVec 64
  size : Fin 19
  base : BitVec 64
  r : Bool
  w : Bool
  u : Bool
  evict : Option Nat := none
deriving DecidableEq, Repr

/-- One DMA cycle at the host port (R354, R368 to R370): the rings with a burst ready, whether a translation or page request
is, whether the transaction layer accepts the burst, its bytes, and whether it is a write. -/
structure GrantIn where
  ready : BitVec 41
  ats : Bool
  accept : Bool
  bytes : Nat
  write : Bool
deriving DecidableEq, Repr

/-- What port C does to a word of the scratchpad in one bank period (Table 15-5). -/
inductive PortCOp where
  | read | write (data : BitVec 64) (mask : BitVec 8) | add (v : BitVec 64) | swap (v : BitVec 64)
deriving DecidableEq, Repr

/-- Port C touches `word` in the bank period in which port D presents its access to it (R382). -/
structure PortC where
  word : Nat
  op : PortCOp
deriving DecidableEq, Repr

/-- How a DMA read ended badly (R362). -/
inductive ReadEnd where
  | ur | ca | timeout
deriving DecidableEq, Repr

/-- Which master issues a register access (R388, R513). -/
inductive Master where
  | host | core | debug
deriving DecidableEq, Repr

/-- The source of a verified image (R392). -/
inductive ImgSrc where
  | flashA | flashB | pushed
deriving DecidableEq, Repr

/-- What a command names and the block finds for itself: the operand has no content, and the meaning reads the state
(DESIGN CHOICE, log entry 185). -/
abbrev Seen := Unit

/-- Line levels that a lane's receiver takes, the last level before them, and the lane (R91, R103). -/
structure LineIn where
  lane : Fin 128
  prev : Fin 4
  x : List (Fin 4)
deriving DecidableEq, Repr

/-- A slip of a lane's line loopback: 64 bits are dropped, or repeated (R106). -/
structure SlipIn where
  lane : Fin 128
  drop : Bool
deriving DecidableEq, Repr

/-- Arrivals of the members of an alignment in two consecutive measurements (R171). -/
structure Arrivals where
  prev : List Nat
  now : List Nat
deriving DecidableEq, Repr

/-- What a write or an AtomicOp meets at the scratchpad: port C's accesses and the words in error (R382, R384). -/
structure BankIn where
  pc : List PortC
  ecc : List (Nat × Bool)
deriving DecidableEq, Repr

/-- The commands: one constructor per row of the opcode table, those with operands first. -/
inductive Instr where
  | sweepTick (t : TickIn)
  | decisionApply (pgid : BitVec 17)
  | planeSlackRetire (p : Fin 8)
  | beatErrorTrigger (p : Fin 8)
  | restoreCheckEnd (p : Fin 8) (ok : Bool)
  | doorbell (off : BitVec 18) (bytes : Nat) (val : W32)
  | descriptorFetch (ring : Fin 16) (raw : BitVec 512)
  | descriptorDispatch (ring : Fin 16)
  | completionWrite (ring : Fin 16)
  | lockTimeout (ring : Fin 16)
  | overflowSummary (ring : Fin 41)
  | indexWriteBack (ring : Fin 41)
  | msiXMessage (ring : Fin 41) (timeUp : Bool)
  | ringEnable (ring : Fin 41) (en : Bool)
  | ringReset (ring : Fin 41)
  | ringResetDone (ring : Fin 41)
  | connect (ring : Fin 16)
  | disconnect (ring : Fin 16)
  | move (ring : Fin 16)
  | batchOpen (ring : Fin 16)
  | batchCommit (ring : Fin 16)
  | batchAbort (ring : Fin 16)
  | pgCreate (ring : Fin 16) (list : List W32) (ns : Nat)
  | pgDelete (ring : Fin 16) (ns : Nat)
  | lockoutOfProtection (ring : Fin 16) (ns : Nat)
  | forcedSwitch (ring : Fin 16) (ns : Nat)
  | manualSwitch (ring : Fin 16) (ns : Nat)
  | clear (ring : Fin 16) (ns : Nat)
  | timedCommandEntry (pgid : BitVec 17) (ns : Nat)
  | tribDefine (ring : Fin 16) (w p slots : List W32) (ns : Nat)
  | tribRelease (ring : Fin 16) (ns : Nat)
  | fineOpen (ring : Fin 16)
  | fineClose (ring : Fin 16)
  | pmConfig (ring : Fin 16)
  | pmDump (ring : Fin 16)
  | pmAlign (ring : Fin 16)
  | defectConfig (ring : Fin 16)
  | mdcRoute (ring : Fin 16)
  | planeRetire (ring : Fin 16)
  | planeRestore (ring : Fin 16)
  | twinRoleSwap (ring : Fin 16)
  | twinResync (ring : Fin 16)
  | twinResyncMode1 (ring : Fin 16)
  | fwStage (ring : Fin 16) (img : List (BitVec 8))
  | fwStageActivate (ring : Fin 16) (img : List (BitVec 8))
  | fwActivate (ring : Fin 16)
  | nop (ring : Fin 16)
  | holdOffExpiry (pgid : BitVec 17) (sig : Fin 16) (ns : Nat)
  | wtrExpiry (pgid : BitVec 17) (ns : Nat)
  | pscMessage (lane : Fin 128) (msg : Option (BitVec 80)) (ns : Nat)
  | dpscLoss (pgid : BitVec 17) (ns : Nat)
  | dpscFop (pgid : BitVec 17)
  | bridgeHoldExpiry (pgid : BitVec 17)
  | ptbTrigger (cyc : Fin 64) (w0 w1 : BitVec 16) (ms : Nat) (ns : Nat)
  | ptbStale (k : Fin 4096) (ns : Nat)
  | ptbTblWrite (k : Fin 4096) (val : W32) (ns : Nat)
  | txEn (lane : Fin 128) (en : Bool)
  | rxEn (lane : Fin 128) (en : Bool) (ns : Nat)
  | staggerGrant (recent : Nat)
  | quadPllLock (q : Fin 33)
  | rampComplete (lane : Fin 128)
  | txShort (lane : Fin 128)
  | retryWaitExpiry (lane : Fin 128)
  | retryCntReset (lane : Fin 128)
  | quadPllUnlock (q : Fin 32) (ns : Nat)
  | quadPllRelock (q : Fin 32)
  | sigDetFall (lane : Fin 128) (ns : Nat)
  | sigDetRise (lane : Fin 128) (ns : Nat)
  | cdrLockLoss (lane : Fin 128) (ns : Nat)
  | cdrLockGain (lane : Fin 128) (ns : Nat)
  | adaptationComplete (lane : Fin 128) (snr : BitVec 12) (ctle : BitVec 5) (dfe : BitVec 8) (ffe : List (BitVec 8)) (ns : Nat)
  | laneAdaptSlow (lane : Fin 128)
  | rxReacquire (lane : Fin 128) (ns : Nat)
  | prbsSync (l : LineIn)
  | prbsSyncLoss (l : LineIn)
  | lnePrbsErrRead (lane : Fin 128) (dbg : Bool)
  | lbSlip (l : SlipIn)
  | lneTxFirWrite (lane : Fin 128) (val : W32)
  | lneRxEqWrite (lane : Fin 128) (reg : Fin 34) (val : W32)
  | rawMatch (lane : Fin 128) (off : Nat) (r : RxIn)
  | candidateCheck (lane : Fin 128) (off : Nat) (r : RxIn) (sn : Seen) (ns : Nat)
  | receivedSweep (lane : Fin 128) (r : RxIn) (ns : Nat)
  | degIntervalEnd (lane : Fin 128) (ns : Nat)
  | tribPeriodEnd (tid : BitVec 19) (copy : Fin 4) (jw skew : Seen) (ns : Nat)
  | fineMfLock (tid : BitVec 19) (copy : Fin 4) (pos : Seen)
  | fineMfLoss (tid : BitVec 19) (copy : Fin 4)
  | clientMapOvf (tid : BitVec 19)
  | clientDefectChange (lane : Fin 128) (code : Fin 8) (on : Bool) (ns : Nat)
  | fmHeader (tid : BitVec 19) (pos h0 h1 payload : Seen)
  | flexeOverheadFrame (grp : Fin 128) (o : FlxOh)
  | calendarSwitch (grp : Fin 128)
  | calendarSwitchTimeout (grp : Fin 128)
  | cpriSlip (tid : BitVec 19) (discard : Bool)
  | bufSlip (tid : BitVec 19)
  | rjSlip (tid : BitVec 19)
  | rjWindowEnd (lane : Fin 128) (count : Seen)
  | loessAligned (tid : BitVec 19) (copy : Fin 2) (client : Bool) (arr : Arrivals)
  | loessPairAligned (pgid : BitVec 17) (offsets diff : Seen)
  | loessPairLost (pgid : BitVec 17) (content : Seen)
  | blockReturn (owner : Nat)
  | twnCfgEn (en : Bool)
  | startUpClaim (quietMs : Nat) (alive : Bool)
  | twinLinkUp (delay : BitVec 12)
  | twinLinkDown (cause : Fin 3) (inframe : Seen)
  | pair (p : PairRec)
  | pairAuth (resp : BitVec 128) (mateActive : Bool) (mateSn : SN)
  | sweep (sn : SN) (delay : BitVec 12) (offset : BitVec 16)
  | sig (sn : SN) (valid : BitVec 128) (sigs : List W32)
  | entry (seq : Nat) (w : List EntryWr)
  | commit (seq : Nat) (target : SN)
  | ack (commitSeq configSeq : Nat)
  | decision (d : DecisionRec)
  | pscSel (lane : Fin 128) (a b : BitVec 30)
  | config (seq : Nat) (raw : BitVec 512) (lists : List (List W32))
  | state (c : StateChunk)
  | mateDeath (failPin : Bool) (ns : Nat)
  | translationCompletion (c : TransCpl)
  | prgResponse (page : BitVec 64) (code : Fin 3)
  | priTimeout (page : BitVec 64)
  | priEnable (on : Bool)
  | invalidateRequest (addr : BitVec 64) (size : Nat)
  | readRetry (ring : Fin 41)
  | arbGrant (g : GrantIn)
  | backoffExpiry (r : Fin 8)
  | busMasterEnable (on : Bool)
  | freeze (on : Bool)
  | imageVerified (src : ImgSrc) (img : List (BitVec 8))
  | coreWdt (c : Fin 2)
  | wdtKick (c : Fin 2)
  | debugHalt (c : Fin 2) (on : Bool)
  | bar2Read (off : BitVec 22) (bytes : Nat) (pc : List PortC) (ecc : List (Nat × Bool))
  | bar2Write (off : BitVec 22) (data : List (Option (BitVec 8))) (b : BankIn)
  | fetchadd (off : BitVec 22) (val : BitVec 64) (b : BankIn)
  | swap (off : BitVec 22) (val : BitVec 64) (b : BankIn)
  | xoOk (counts : List Nat)
  | apllLock (a : Fin 3)
  | candidateWindow (slot : Fin 8) (ofs : BitVec 24)
  | candidateWtr (slot : Fin 8)
  | ppsIn (ns : Nat)
  | clockStop (m : Fin 8)
  | offFreq (m : Fin 8) (count : W32)
  | rescueRelease (sys per : Bool) (sysRun perRun : Bool)
  | clkSelWrite (sys per : Bool)
  | muxSwitchComplete (per : Bool)
  | frequencyCountDone (count : W32) (tmo : Bool)
  | pmSecLost (n : Nat)
  | pmRecordWrite (pmd : Fin 2)
  | omissionRecord (pmd : Fin 2)
  | mspBurst (port : Fin 16) (rxd : Word20)
  | mcxRecordClose (chan : BitVec 8) (timeUp : Bool)
  | mctFetch (raw : BitVec 512)
  | pmnPerfSelWrite (n : Fin 32) (val : W32)
  | sessionClose (slot : Fin 16)
  | lockoutExpiry (cls : Fin 5)
  | sessOpen (pec : Bool) (pwd : List (BitVec 8))
  | sessClose (pec : Bool)
  | read (pec : Bool) (addr : W32) (count : Nat)
  | write (pec : Bool) (addr : W32) (val : W32) (ns : Nat)
  | jtagChallenge (resp : BitVec 256)
  | pgInRise (r : Fin 6)
  | pgInLow (r : Fin 6)
  | railFault (r : Fin 6) (soon : Bool)
  | stbyReq (ns : Nat)
  | lpPropose (t : SN)
  | lpAgree (agree : Bool)
  | avsLoop (procs : List (BitVec 12))
  | pmbusTelemetry (rails : List (Option (BitVec 16) × Option (BitVec 16) × Option (BitVec 8)))
  | sensorRead (temps volts procs : List (BitVec 12))
  | thermDlyExpiry (ns : Nat)
  | registerWrite (m : Master) (addr : BitVec 26) (data : List (W32 × BitVec 4)) (ns : Nat)
  | registerRead (m : Master) (addr : BitVec 26) (dws : Nat)
  | completionTimeout (ring : Fin 41) (e : ReadEnd)
  | noActivity (slot : Fin 8) (edge : Bool)
  | atsEnable (on : Bool)
  | flip
  | pageRelease
  | commitComplete
  | commitReady
  | evacuationMove
  | planeRetired
  | eventRecord
  | functionLevelReset
  | hotReset
  | pcieConventionalReset
  | batchTimeout
  | rollbackDone
  | tilthResume
  | commitAckDeadline
  | heartbeatLoss
  | yield
  | pairingRetry
  | divergenceNotice
  | resyncStart
  | resyncEnd
  | couplingNotice
  | configAckTimeout
  | promotion
  | holdTmoExpiry
  | roleSwapTick
  | roleSwapLatchClear
  | lockstepEntry
  | resyncTimeout
  | autoResyncRetry
  | invalidateCompletion
  | arbWindow
  | dlDown
  | linkUp
  | modeRecoveryEnd
  | drained
  | memoryCleared
  | ctlBootGo
  | fwReady
  | fwReadyTimeout
  | xoFail
  | xoLoss
  | referenceSelection
  | dpllLock
  | holdoverHistoryValid
  | timHoExpired
  | timPstepGo
  | phaseStep
  | ppsOut
  | frequencyCountStart
  | pmSecond
  | legacyPageUpdate
  | pmAligned
  | pmSnapshot
  | perfSnap
  | perfClear
  | grainTag
  | sessionOpen
  | challenge
  | sessionResp
  | responseTimeout
  | deviceId
  | status
  | smbusSessionTimeout
  | secFuseGo
  | secFuseDone
  | secSvnRaised
  | vaoApplied
  | powerOnResetEnd
  | railDlyExpiry
  | pgTmoExpiry
  | lpReplyTimeout
  | entryTick
  | entryCoreReset
  | standbyReached
  | offMinExpiry
  | wakeN
  | smbusWake
  | twAliveWake
  | wakeTimer
  | autoRestart
  | avsStepDone
  | thermNExternal
  | thermHoldExpiry
  | glbSetupLock
  | vaoLoss
  | responseFailureCleared
  | smbClkLowTimeout
  | smbusLockoutExpiry
  | flashSearch
deriving DecidableEq, Repr

end Sys2Proof
end

