-- ==== Sys2Proof/Config.lean ====
section
/-! DEFINITION. What an implementation fixes and what the manual leaves open: constants with no body, so that no
proof can see a value. The `free…` families are applied to the model's own counter `Dev.free`. -/

namespace Sys2Proof

/-- Free payload of a grain whose content the manual leaves undefined (R210 late beats, R344). -/
opaque Config.freeGrain : Nat → Grain
/-- Free 32-bit word: a register field written where R14 defines no write, and every choice the manual leaves the device. -/
opaque Config.freeWord : Nat → BitVec 32
/-- The random number generator's nonces (R303, R457, R467): nothing is known of them. -/
opaque Config.nonce : Nat → BitVec 64
/-- Session close tokens (R455): the manual gives no way to compute them. -/
opaque Config.token : Nat → BitVec 32
/-- The levels of the SSPRQ pattern, by symbol (Table 4-2): IEEE 802.3 gives them, the manual does not. -/
opaque Config.ssprq : Nat → Fin 4
/-- Block positions from one alignment-marker group to the next, and those the group takes, of a client PHY by personality and
lanes: IEEE 802.3 gives them, the manual does not (R142, R158). -/
opaque Config.amGap : Nat → Nat → Nat
opaque Config.amLen : Nat → Nat → Nat
/-- The CRC-16 of a FlexE overhead frame over its fields: the FlexE agreement gives it, the manual does not (R153). -/
opaque Config.flexeCrc : List Nat → BitVec 16
/-- The payload words of a twin-link record from its items: the manual lists what a record holds, not how (Table 12-4). -/
opaque Config.recordPayload : Nat → List Nat → List Word20
/-- GLB_ID.REV_LTR, 'as built' (R518). -/
opaque Config.revLtr : BitVec 4
/-- GLB_ID.REV_DIG, 'as built' (R518). -/
opaque Config.revDig : BitVec 4

end Sys2Proof
end

