-- ==== Sys2Proof/Machine/Store.lean ====
section
/-! DEFINITION. Sparse stores: lists of key and value pairs with keys strictly rising and no entry equal to what an
unlisted key reads as, so that equal stores are equal data. -/

namespace Sys2Proof.Machine

/-- A sparse store. -/
abbrev Tbl (α : Type) := List (Nat × α)

/-- The value of key `q`; an unlisted key reads as `d`. -/
def tget {α : Type} (d : α) : Tbl α → Nat → α
  | [], _ => d
  | (k, v) :: r, q => if k = q then v else tget d r q

/-- The entry of key `q`, if listed. -/
def tfind {α : Type} : Tbl α → Nat → Option α
  | [], _ => none
  | (k, v) :: r, q => if k = q then some v else tfind r q

/-- Removes key `q`. -/
def tdel {α : Type} : Tbl α → Nat → Tbl α
  | [], _ => []
  | (k, v) :: r, q => if k = q then tdel r q else (k, v) :: tdel r q

/-- Sets key `q` to `v`, keeping the keys strictly rising. -/
def tins {α : Type} : Tbl α → Nat → α → Tbl α
  | [], q, v => [(q, v)]
  | (k, w) :: r, q, v =>
    if q < k then (q, v) :: (k, w) :: r else if q = k then (q, v) :: r else (k, w) :: tins r q v

/-- Sets key `q` to `v` in the canonical form of default `d`. -/
def tput {α : Type} [DecidableEq α] (d : α) (m : Tbl α) (q : Nat) (v : α) : Tbl α :=
  if v = d then tdel m q else tins m q v

/-- Updates key `q` by `f`. -/
def tmod {α : Type} [DecidableEq α] (d : α) (m : Tbl α) (q : Nat) (f : α → α) : Tbl α :=
  tput d m q (f (tget d m q))

/-- Keys strictly rising from above `b` on, and no entry equal to the default. -/
def twfFrom {α : Type} [DecidableEq α] (d : α) : Option Nat → Tbl α → Bool
  | _, [] => true
  | b, (k, v) :: r => (match b with | none => true | some n => decide (n < k)) && decide (v ≠ d) && twfFrom d (some k) r

/-- The canonical form of a store. -/
def twf {α : Type} [DecidableEq α] (d : α) (m : Tbl α) : Bool := twfFrom d none m

end Sys2Proof.Machine
end

