-- ==== Sys2Proof/Machine/RegMap.lean ====
section
/-! DEFINITION. The set-up register map (chapter 21 and the register tables of every chapter): one `Fld` per named
register field, with its address, bits, access code and reset value, and the list `allFlds` of them all. -/

namespace Sys2Proof.Machine

/-- The access codes of Table 0-3 (R9). -/
inductive Acc where
  | rw | ro | wo | w1c | rcl | rwl
deriving DecidableEq, Repr

/-- One field of a register, or of an array of like registers: index `i` (below `count`) lies in the 32-bit word at
`base + (i / n2) * s1 + (i % n2) * s2`, in bits `[lo + wd - 1 : lo]`. -/
structure Fld where
  base : Nat
  s1 : Nat := 0
  n2 : Nat := 1
  s2 : Nat := 0
  count : Nat := 1
  lo : Nat
  wd : Nat
  acc : Acc
  /-- Reset value, where `rsts` and `rstIdx` do not give it. -/
  rst : Nat := 0
  /-- Reset values by `i % n2`, where they differ. -/
  rsts : List Nat := []
  /-- The reset value is the index itself (FRM_LANE_CFG.BWD_SRC). -/
  rstIdx : Bool := false
  /-- The field is written (or read) by a command of its own, not by REGISTER_WRITE. -/
  own : Bool := false
  /-- A chapter states that the field may also be written while traffic runs (R14). -/
  svc : Bool := false
  /-- The field keeps its value through standby (AO, R499). -/
  ao : Bool := false
deriving DecidableEq, Repr

/-- The BAR0 address of the word that holds index `i` of the field. -/
def Fld.addr (f : Fld) (i : Nat) : Nat := f.base + (i / f.n2) * f.s1 + (i % f.n2) * f.s2

/-- The reset value of index `i` of the field. -/
def Fld.rstAt (f : Fld) (i : Nat) : Nat :=
  if f.rstIdx then i else (f.rsts[i % f.n2]?).getD f.rst

/-- LNE_CFG_PERS: Personality, Table 4-1 (R108, chapter 04). -/
def F.LNE_CFG_PERS : Fld := { base := 0x400000, s1 := 0x1000, n2 := 1, s2 := 0, count := 128, lo := 0, wd := 4, acc := .rw, svc := true }
/-- LNE_CFG_TX_POL: Invert transmit polarity (R108, chapter 04). -/
def F.LNE_CFG_TX_POL : Fld := { base := 0x400000, s1 := 0x1000, n2 := 1, s2 := 0, count := 128, lo := 4, wd := 1, acc := .rw, svc := true }
/-- LNE_CFG_RX_POL: Invert receive polarity (R108, chapter 04). -/
def F.LNE_CFG_RX_POL : Fld := { base := 0x400000, s1 := 0x1000, n2 := 1, s2 := 0, count := 128, lo := 5, wd := 1, acc := .rw, svc := true }
/-- LNE_CFG_TX_PRECODE: Transmit 1/(1+D) precoding (R108, chapter 04). -/
def F.LNE_CFG_TX_PRECODE : Fld := { base := 0x400000, s1 := 0x1000, n2 := 1, s2 := 0, count := 128, lo := 6, wd := 1, acc := .rw, svc := true }
/-- LNE_CFG_RX_PRECODE: Receive precoding removal (R108, chapter 04). -/
def F.LNE_CFG_RX_PRECODE : Fld := { base := 0x400000, s1 := 0x1000, n2 := 1, s2 := 0, count := 128, lo := 7, wd := 1, acc := .rw, svc := true }
/-- LNE_CFG_ADAPT_MODE: R94 (R108, chapter 04). -/
def F.LNE_CFG_ADAPT_MODE : Fld := { base := 0x400000, s1 := 0x1000, n2 := 1, s2 := 0, count := 128, lo := 8, wd := 2, acc := .rw, svc := true }
/-- LNE_CFG_LOS_TH: LOS threshold, 5 mV per step, differential peak-to-peak; reset 60 mV (R108, chapter 04). -/
def F.LNE_CFG_LOS_TH : Fld := { base := 0x400000, s1 := 0x1000, n2 := 1, s2 := 0, count := 128, lo := 10, wd := 6, acc := .rw, rst := 0xc, svc := true }
/-- LNE_CTL_TX_EN: Enable transmitter (R108, chapter 04). -/
def F.LNE_CTL_TX_EN : Fld := { base := 0x400004, s1 := 0x1000, n2 := 1, s2 := 0, count := 128, lo := 0, wd := 1, acc := .rw, own := true, svc := true }
/-- LNE_CTL_RX_EN: Enable receiver (R108, chapter 04). -/
def F.LNE_CTL_RX_EN : Fld := { base := 0x400004, s1 := 0x1000, n2 := 1, s2 := 0, count := 128, lo := 1, wd := 1, acc := .rw, own := true, svc := true }
/-- LNE_CTL_LB_MODE: R105 (R108, chapter 04). -/
def F.LNE_CTL_LB_MODE : Fld := { base := 0x400004, s1 := 0x1000, n2 := 1, s2 := 0, count := 128, lo := 2, wd := 2, acc := .rw, svc := true }
/-- LNE_CTL_PRBS_GEN_EN: Generator replaces transmit stream (R108, chapter 04). -/
def F.LNE_CTL_PRBS_GEN_EN : Fld := { base := 0x400004, s1 := 0x1000, n2 := 1, s2 := 0, count := 128, lo := 4, wd := 1, acc := .rw, svc := true }
/-- LNE_CTL_PRBS_CHK_EN: Checker enabled (R108, chapter 04). -/
def F.LNE_CTL_PRBS_CHK_EN : Fld := { base := 0x400004, s1 := 0x1000, n2 := 1, s2 := 0, count := 128, lo := 5, wd := 1, acc := .rw, svc := true }
/-- LNE_CTL_PRBS_PAT: Table 4-2 (R108, chapter 04). -/
def F.LNE_CTL_PRBS_PAT : Fld := { base := 0x400004, s1 := 0x1000, n2 := 1, s2 := 0, count := 128, lo := 6, wd := 4, acc := .rw, svc := true }
/-- LNE_CTL_PRBS_INV: Invert pattern (R108, chapter 04). -/
def F.LNE_CTL_PRBS_INV : Fld := { base := 0x400004, s1 := 0x1000, n2 := 1, s2 := 0, count := 128, lo := 10, wd := 1, acc := .rw, svc := true }
/-- LNE_STATUS_TX_STATE: 0 OFF, 1 WAIT_QUAD, 2 RAMP, 3 ON, 4 RETRY_WAIT, 5 SHORT_OFF, 6 SQUELCH, 7 reserved (R108, chapter 04). -/
def F.LNE_STATUS_TX_STATE : Fld := { base := 0x400008, s1 := 0x1000, n2 := 1, s2 := 0, count := 128, lo := 0, wd := 3, acc := .ro, svc := true }
/-- LNE_STATUS_SIG_DET: Amplitude detector output (R101) (R108, chapter 04). -/
def F.LNE_STATUS_SIG_DET : Fld := { base := 0x400008, s1 := 0x1000, n2 := 1, s2 := 0, count := 128, lo := 3, wd := 1, acc := .ro, svc := true }
/-- LNE_STATUS_RX_STATE: 0 OFF, 1 WAIT_QUAD, 2 ACQUIRE, 3 ADAPTED (R108, chapter 04). -/
def F.LNE_STATUS_RX_STATE : Fld := { base := 0x400008, s1 := 0x1000, n2 := 1, s2 := 0, count := 128, lo := 4, wd := 2, acc := .ro, svc := true }
/-- LNE_STATUS_LOS: R101 (R108, chapter 04). -/
def F.LNE_STATUS_LOS : Fld := { base := 0x400008, s1 := 0x1000, n2 := 1, s2 := 0, count := 128, lo := 6, wd := 1, acc := .ro, rst := 0x1, svc := true }
/-- LNE_STATUS_CDR_LOCK: R101 (R108, chapter 04). -/
def F.LNE_STATUS_CDR_LOCK : Fld := { base := 0x400008, s1 := 0x1000, n2 := 1, s2 := 0, count := 128, lo := 7, wd := 1, acc := .ro, svc := true }
/-- LNE_STATUS_PRBS_SYNC: R103 (R108, chapter 04). -/
def F.LNE_STATUS_PRBS_SYNC : Fld := { base := 0x400008, s1 := 0x1000, n2 := 1, s2 := 0, count := 128, lo := 8, wd := 1, acc := .ro, svc := true }
/-- LNE_STATUS_RETRY_CNT: R99, R100 (R108, chapter 04). -/
def F.LNE_STATUS_RETRY_CNT : Fld := { base := 0x400008, s1 := 0x1000, n2 := 1, s2 := 0, count := 128, lo := 9, wd := 2, acc := .ro, svc := true }
/-- LNE_STATUS_CFG_ERR: R87, R88, R102, R136 (R108, chapter 04). -/
def F.LNE_STATUS_CFG_ERR : Fld := { base := 0x400008, s1 := 0x1000, n2 := 1, s2 := 0, count := 128, lo := 12, wd := 1, acc := .w1c, svc := true }
/-- LNE_STATUS_FIR_REJ: R92 (R108, chapter 04). -/
def F.LNE_STATUS_FIR_REJ : Fld := { base := 0x400008, s1 := 0x1000, n2 := 1, s2 := 0, count := 128, lo := 13, wd := 1, acc := .w1c, svc := true }
/-- LNE_STATUS_LB_SLIP: R106 (R108, chapter 04). -/
def F.LNE_STATUS_LB_SLIP : Fld := { base := 0x400008, s1 := 0x1000, n2 := 1, s2 := 0, count := 128, lo := 14, wd := 1, acc := .w1c, svc := true }
/-- LNE_STATUS_SNR: Receive SNR, 0.1 dB per step (R108, chapter 04). -/
def F.LNE_STATUS_SNR : Fld := { base := 0x400008, s1 := 0x1000, n2 := 1, s2 := 0, count := 128, lo := 16, wd := 12, acc := .ro, svc := true }
/-- LNE_PRBS_ERR_ERR: Bit errors, saturating; a read copies and clears the bit count (R103) (R108, chapter 04). -/
def F.LNE_PRBS_ERR_ERR : Fld := { base := 0x40000c, s1 := 0x1000, n2 := 1, s2 := 0, count := 128, lo := 0, wd := 32, acc := .rcl, own := true, svc := true }
/-- LNE_PRBS_BITS_LO: Compared bits [31:0] and [63:32] as of the last read of ERR (R108, chapter 04). -/
def F.LNE_PRBS_BITS_LO : Fld := { base := 0x400020, s1 := 0x1000, n2 := 1, s2 := 0, count := 128, lo := 0, wd := 32, acc := .ro, svc := true }
/-- LNE_PRBS_BITS_HI: Compared bits [31:0] and [63:32] as of the last read of ERR (R108, chapter 04). -/
def F.LNE_PRBS_BITS_HI : Fld := { base := 0x400024, s1 := 0x1000, n2 := 1, s2 := 0, count := 128, lo := 0, wd := 32, acc := .ro, svc := true }
/-- LNE_TX_FIR_PRE3: Signed, two's complement, 1/64 swing (R108, chapter 04). -/
def F.LNE_TX_FIR_PRE3 : Fld := { base := 0x400010, s1 := 0x1000, n2 := 1, s2 := 0, count := 128, lo := 0, wd := 6, acc := .rw, own := true, svc := true }
/-- LNE_TX_FIR_PRE2: Signed (R108, chapter 04). -/
def F.LNE_TX_FIR_PRE2 : Fld := { base := 0x400010, s1 := 0x1000, n2 := 1, s2 := 0, count := 128, lo := 6, wd := 6, acc := .rw, own := true, svc := true }
/-- LNE_TX_FIR_PRE1: Signed; reset −8 (R108, chapter 04). -/
def F.LNE_TX_FIR_PRE1 : Fld := { base := 0x400010, s1 := 0x1000, n2 := 1, s2 := 0, count := 128, lo := 12, wd := 6, acc := .rw, rst := 0x38, own := true, svc := true }
/-- LNE_TX_FIR_POST1: Signed (R108, chapter 04). -/
def F.LNE_TX_FIR_POST1 : Fld := { base := 0x400010, s1 := 0x1000, n2 := 1, s2 := 0, count := 128, lo := 18, wd := 6, acc := .rw, own := true, svc := true }
/-- LNE_TX_FIR_MAIN: Unsigned, 0 to 64; reset 56 (R108, chapter 04). -/
def F.LNE_TX_FIR_MAIN : Fld := { base := 0x400010, s1 := 0x1000, n2 := 1, s2 := 0, count := 128, lo := 24, wd := 7, acc := .rw, rst := 0x38, own := true, svc := true }
/-- LNE_TX_CFG_SWING: Differential peak-to-peak swing, 600 mV + 40 mV × SWING; reset 1000 mV (R108, chapter 04). -/
def F.LNE_TX_CFG_SWING : Fld := { base := 0x400014, s1 := 0x1000, n2 := 1, s2 := 0, count := 128, lo := 0, wd := 4, acc := .rw, rst := 0xa, svc := true }
/-- LNE_QUAD_CFG_GROUP: Divider group: 0b00 A, 0b01 B, 0b10 C, 0b11 D (R87) (R108, chapter 04). -/
def F.LNE_QUAD_CFG_GROUP : Fld := { base := 0x600000, s1 := 0x1000, n2 := 1, s2 := 0, count := 32, lo := 0, wd := 2, acc := .rw, svc := true }
/-- LNE_QUAD_STATUS_PWR: 0b00 off, 0b01 QUEUED, 0b10 PLL locking, 0b11 up (R108, chapter 04). -/
def F.LNE_QUAD_STATUS_PWR : Fld := { base := 0x600004, s1 := 0x1000, n2 := 1, s2 := 0, count := 32, lo := 0, wd := 2, acc := .ro, svc := true }
/-- LNE_QUAD_STATUS_PLL_LOCK: Quad PLL locked (R108, chapter 04). -/
def F.LNE_QUAD_STATUS_PLL_LOCK : Fld := { base := 0x600004, s1 := 0x1000, n2 := 1, s2 := 0, count := 32, lo := 2, wd := 1, acc := .ro, svc := true }
/-- LNE_QUAD_STATUS_UNLOCK_CNT: PLL lock losses, saturating at 255 (R98) (R108, chapter 04). -/
def F.LNE_QUAD_STATUS_UNLOCK_CNT : Fld := { base := 0x600004, s1 := 0x1000, n2 := 1, s2 := 0, count := 32, lo := 8, wd := 8, acc := .rcl, svc := true }
/-- LNE_RX_CTLE_PEAK: CTLE peaking, 0.5 dB per step, 0 dB to 15.5 dB (R109, chapter 04). -/
def F.LNE_RX_CTLE_PEAK : Fld := { base := 0x400040, s1 := 0x1000, n2 := 1, s2 := 0, count := 128, lo := 0, wd := 5, acc := .rw, own := true, svc := true }
/-- LNE_RX_DFE_TAP1: DFE tap 1, signed, two's complement, in 1/64 of the slicer level (R109, chapter 04). -/
def F.LNE_RX_DFE_TAP1 : Fld := { base := 0x400044, s1 := 0x1000, n2 := 1, s2 := 0, count := 128, lo := 0, wd := 8, acc := .rw, own := true, svc := true }
/-- LNE_RX_FFE_TAP: FFE tap t, t = 0 to 31, signed, two's complement, in 1/64 units (R109, chapter 04). -/
def F.LNE_RX_FFE_TAP : Fld := { base := 0x400080, s1 := 0x1000, n2 := 32, s2 := 4, count := 4096, lo := 0, wd := 8, acc := .rw, rsts := [0, 0, 0, 0, 0, 0, 0, 0, 64, 0, 0, 0, 0, 0, 0, 0, 0, 0, 0, 0, 0, 0, 0, 0, 0, 0, 0, 0, 0, 0, 0, 0], own := true, svc := true }
/-- FRM_RX_CFG_PLESIO: 1: lane is plesiochronous (R82); writable only while RX_EN = 0; a write while RX_EN = 1 leaves it unchanged and sets LNE_STATUS.CFG_ERR (R136) (R135, chapter 05). -/
def F.FRM_RX_CFG_PLESIO : Fld := { base := 0x800100, s1 := 0x1000, n2 := 1, s2 := 0, count := 128, lo := 0, wd := 1, acc := .rw, svc := true }
/-- FRM_RX_CFG_TIM_ACT: 1: dTIM has class SF (R135, chapter 05). -/
def F.FRM_RX_CFG_TIM_ACT : Fld := { base := 0x800100, s1 := 0x1000, n2 := 1, s2 := 0, count := 128, lo := 1, wd := 1, acc := .rw, svc := true }
/-- FRM_RX_CFG_TIM_CMP: Comparisons: bit 2 bytes 0 to 15, bit 3 bytes 16 to 31, bit 4 bytes 32 to 63, bit 5 LANE_ID (R135, chapter 05). -/
def F.FRM_RX_CFG_TIM_CMP : Fld := { base := 0x800100, s1 := 0x1000, n2 := 1, s2 := 0, count := 128, lo := 2, wd := 4, acc := .rw, svc := true }
/-- FRM_RX_CFG_EXP_LANE_ID: Expected LANE_ID (R135, chapter 05). -/
def F.FRM_RX_CFG_EXP_LANE_ID : Fld := { base := 0x800100, s1 := 0x1000, n2 := 1, s2 := 0, count := 128, lo := 6, wd := 12, acc := .rw, svc := true }
/-- FRM_RX_DEG_DEG_IVL: Interval 2^DEG_IVL sweeps; values below 8 act as 8, above 20 as 20 (R135, chapter 05). -/
def F.FRM_RX_DEG_DEG_IVL : Fld := { base := 0x800104, s1 := 0x1000, n2 := 1, s2 := 0, count := 128, lo := 0, wd := 5, acc := .rw, rst := 0xa, svc := true }
/-- FRM_RX_DEG_DEG_THR: Bad interval if BIP-8 errors exceed this value (R135, chapter 05). -/
def F.FRM_RX_DEG_DEG_THR : Fld := { base := 0x800104, s1 := 0x1000, n2 := 1, s2 := 0, count := 128, lo := 8, wd := 16, acc := .rw, rst := 0x28, svc := true }
/-- FRM_RX_DEG_DEG_M: Consecutive intervals, 1 to 10; 0 acts as 1, above 10 as 10 (R135, chapter 05). -/
def F.FRM_RX_DEG_DEG_M : Fld := { base := 0x800104, s1 := 0x1000, n2 := 1, s2 := 0, count := 128, lo := 24, wd := 4, acc := .rw, rst := 0x3, svc := true }
/-- FRM_RX_STATUS_FSTATE: 0b00 HUNT, 0b01 PRESYNC, 0b10 IN_FRAME, 0b11 reserved (R135, chapter 05). -/
def F.FRM_RX_STATUS_FSTATE : Fld := { base := 0x800108, s1 := 0x1000, n2 := 1, s2 := 0, count := 128, lo := 0, wd := 2, acc := .ro }
/-- FRM_RX_STATUS_SN_LOCK: 1: SN_LOCKED (R135, chapter 05). -/
def F.FRM_RX_STATUS_SN_LOCK : Fld := { base := 0x800108, s1 := 0x1000, n2 := 1, s2 := 0, count := 128, lo := 2, wd := 1, acc := .ro }
/-- FRM_RX_STATUS_DEF: Declared, unsuppressed defects; bit 4 + rank − 1 for ranks 1 to 10 of Table 5-2 (R135, chapter 05). -/
def F.FRM_RX_STATUS_DEF : Fld := { base := 0x800108, s1 := 0x1000, n2 := 1, s2 := 0, count := 128, lo := 4, wd := 10, acc := .ro }
/-- FRM_RX_STATUS_COND: Lane condition: 0b00 none, 0b01 SD, 0b10 SF (R135, chapter 05). -/
def F.FRM_RX_STATUS_COND : Fld := { base := 0x800108, s1 := 0x1000, n2 := 1, s2 := 0, count := 128, lo := 14, wd := 2, acc := .ro, rst := 0x2 }
/-- FRM_RX_STATUS_ACC_PERS: Accepted PERS (R135, chapter 05). -/
def F.FRM_RX_STATUS_ACC_PERS : Fld := { base := 0x800108, s1 := 0x1000, n2 := 1, s2 := 0, count := 128, lo := 16, wd := 4, acc := .ro }
/-- FRM_RX_STATUS_ACC_LANE_ID: Accepted LANE_ID (R135, chapter 05). -/
def F.FRM_RX_STATUS_ACC_LANE_ID : Fld := { base := 0x800108, s1 := 0x1000, n2 := 1, s2 := 0, count := 128, lo := 20, wd := 12, acc := .ro }
/-- FRM_RX_SN_SN: Lane SN (R116) (R135, chapter 05). -/
def F.FRM_RX_SN_SN : Fld := { base := 0x80010c, s1 := 0x1000, n2 := 1, s2 := 0, count := 128, lo := 0, wd := 32, acc := .ro }
/-- FRM_EXP_TTI: Expected trace byte b, b = 0 to 63 (R135, chapter 05). -/
def F.FRM_EXP_TTI : Fld := { base := 0x800200, s1 := 0x1000, n2 := 16, s2 := 4, count := 2048, lo := 0, wd := 32, acc := .rw, svc := true }
/-- FRM_RX_TTI: Accepted trace byte b (R135, chapter 05). -/
def F.FRM_RX_TTI : Fld := { base := 0x800240, s1 := 0x1000, n2 := 16, s2 := 4, count := 2048, lo := 0, wd := 32, acc := .ro }
/-- MAP_LANE_CFG_MODE: Table 6-1 (R137) (R165, chapter 06). -/
def F.MAP_LANE_CFG_MODE : Fld := { base := 0xc00000, s1 := 0x1000, n2 := 1, s2 := 0, count := 128, lo := 0, wd := 3, acc := .rw }
/-- MAP_LANE_CFG_WIDTH: Lanes per client: 0b00 1, 0b01 2, 0b10 4, 0b11 8 (R138) (R165, chapter 06). -/
def F.MAP_LANE_CFG_WIDTH : Fld := { base := 0xc00000, s1 := 0x1000, n2 := 1, s2 := 0, count := 128, lo := 3, wd := 2, acc := .rw }
/-- MAP_LANE_CFG_RSFEC: 25GbE: 1 enables Clause 108 RS-FEC; must be 0 in other modes (R165, chapter 06). -/
def F.MAP_LANE_CFG_RSFEC : Fld := { base := 0xc00000, s1 := 0x1000, n2 := 1, s2 := 0, count := 128, lo := 5, wd := 1, acc := .rw }
/-- MAP_LANE_CFG_FM_ERR_DROP: R148 (R165, chapter 06). -/
def F.MAP_LANE_CFG_FM_ERR_DROP : Fld := { base := 0xc00000, s1 := 0x1000, n2 := 1, s2 := 0, count := 128, lo := 6, wd := 1, acc := .rw, svc := true }
/-- MAP_LANE_CFG_FM_MAXLEN: Maximum frame length in bytes, reset 9600; values below 64 act as 64 (R148) (R165, chapter 06). -/
def F.MAP_LANE_CFG_FM_MAXLEN : Fld := { base := 0xc00000, s1 := 0x1000, n2 := 1, s2 := 0, count := 128, lo := 8, wd := 14, acc := .rw, rst := 0x2580 }
/-- MAP_LANE_CFG_FAIL_ACT: Table 6-3; 0b10 and 0b11 act as 0b00 (R165, chapter 06). -/
def F.MAP_LANE_CFG_FAIL_ACT : Fld := { base := 0xc00000, s1 := 0x1000, n2 := 1, s2 := 0, count := 128, lo := 22, wd := 2, acc := .rw, svc := true }
/-- MAP_LANE_FLX_GRP: FlexE group index of this PHY; writable while both directions are disabled (R165, chapter 06). -/
def F.MAP_LANE_FLX_GRP : Fld := { base := 0xc00004, s1 := 0x1000, n2 := 1, s2 := 0, count := 128, lo := 0, wd := 7, acc := .rw }
/-- MAP_LANE_FLX_PHY_NUM: FlexE PHY number, 1 to 254; writable while both directions are disabled (R165, chapter 06). -/
def F.MAP_LANE_FLX_PHY_NUM : Fld := { base := 0xc00004, s1 := 0x1000, n2 := 1, s2 := 0, count := 128, lo := 7, wd := 8, acc := .rw, rst := 0x1 }
/-- MAP_LANE_STATUS_BLK_LOCK: Block lock (R165, chapter 06). -/
def F.MAP_LANE_STATUS_BLK_LOCK : Fld := { base := 0xc00008, s1 := 0x1000, n2 := 1, s2 := 0, count := 128, lo := 0, wd := 1, acc := .ro }
/-- MAP_LANE_STATUS_AM_LOCK: Alignment marker lock and deskew (R165, chapter 06). -/
def F.MAP_LANE_STATUS_AM_LOCK : Fld := { base := 0xc00008, s1 := 0x1000, n2 := 1, s2 := 0, count := 128, lo := 1, wd := 1, acc := .ro }
/-- MAP_LANE_STATUS_HI_BER: hi_ber asserted (R165, chapter 06). -/
def F.MAP_LANE_STATUS_HI_BER : Fld := { base := 0xc00008, s1 := 0x1000, n2 := 1, s2 := 0, count := 128, lo := 2, wd := 1, acc := .ro }
/-- MAP_LANE_STATUS_FLX_OH_LOCK: FlexE overhead frame locked (R165, chapter 06). -/
def F.MAP_LANE_STATUS_FLX_OH_LOCK : Fld := { base := 0xc00008, s1 := 0x1000, n2 := 1, s2 := 0, count := 128, lo := 3, wd := 1, acc := .ro }
/-- MAP_LANE_STATUS_FLX_MF_LOCK: FlexE overhead multiframe locked (R165, chapter 06). -/
def F.MAP_LANE_STATUS_FLX_MF_LOCK : Fld := { base := 0xc00008, s1 := 0x1000, n2 := 1, s2 := 0, count := 128, lo := 4, wd := 1, acc := .ro }
/-- MAP_LANE_STATUS_CFG_ERR: R137, R138, R148 (R165, chapter 06). -/
def F.MAP_LANE_STATUS_CFG_ERR : Fld := { base := 0xc00008, s1 := 0x1000, n2 := 1, s2 := 0, count := 128, lo := 8, wd := 1, acc := .w1c, svc := true }
/-- MAP_RJ_STATUS_OFFSET: Lane sweeps minus 262,144 in the last window, two's complement (R162) (R165, chapter 06). -/
def F.MAP_RJ_STATUS_OFFSET : Fld := { base := 0xc0000c, s1 := 0x1000, n2 := 1, s2 := 0, count := 128, lo := 0, wd := 16, acc := .ro }
/-- MAP_RJ_STATUS_FREQ_ERR: R162 (R165, chapter 06). -/
def F.MAP_RJ_STATUS_FREQ_ERR : Fld := { base := 0xc0000c, s1 := 0x1000, n2 := 1, s2 := 0, count := 128, lo := 16, wd := 1, acc := .ro }
/-- MAP_FLX_GRP_CFG_GRP_NUM: FlexE group number (R165, chapter 06). -/
def F.MAP_FLX_GRP_CFG_GRP_NUM : Fld := { base := 0xe00000, s1 := 0x100, n2 := 1, s2 := 0, count := 128, lo := 0, wd := 20, acc := .rwl, rst := 0x1 }
/-- MAP_FLX_GRP_CFG_EN: Group enabled (R165, chapter 06). -/
def F.MAP_FLX_GRP_CFG_EN : Fld := { base := 0xe00000, s1 := 0x100, n2 := 1, s2 := 0, count := 128, lo := 20, wd := 1, acc := .rwl }
/-- MAP_FLX_GRP_CFG_CA_WAIT: R154 (R165, chapter 06). -/
def F.MAP_FLX_GRP_CFG_CA_WAIT : Fld := { base := 0xe00000, s1 := 0x100, n2 := 1, s2 := 0, count := 128, lo := 21, wd := 1, acc := .rw, rst := 0x1, svc := true }
/-- MAP_FLX_GRP_STATUS_TX_CAL: Transmit calendar in use: 0 A, 1 B (R165, chapter 06). -/
def F.MAP_FLX_GRP_STATUS_TX_CAL : Fld := { base := 0xe00004, s1 := 0x100, n2 := 1, s2 := 0, count := 128, lo := 0, wd := 1, acc := .ro }
/-- MAP_FLX_GRP_STATUS_RX_CAL: Received calendar in use (R165, chapter 06). -/
def F.MAP_FLX_GRP_STATUS_RX_CAL : Fld := { base := 0xe00004, s1 := 0x100, n2 := 1, s2 := 0, count := 128, lo := 1, wd := 1, acc := .ro }
/-- MAP_FLX_GRP_STATUS_SWITCHING: Transmit calendar switch in progress (R165, chapter 06). -/
def F.MAP_FLX_GRP_STATUS_SWITCHING : Fld := { base := 0xe00004, s1 := 0x100, n2 := 1, s2 := 0, count := 128, lo := 2, wd := 1, acc := .ro }
/-- MAP_LOESS_QSTAT_FREE_BLK: Free blocks of the quadrant, 0 to 1228 (R180, chapter 07). -/
def F.MAP_LOESS_QSTAT_FREE_BLK : Fld := { base := 0xf00000, s1 := 0x10, n2 := 1, s2 := 0, count := 4, lo := 0, wd := 13, acc := .ro, rst := 0x4cc, svc := true }
/-- MAP_LOESS_QSTAT_MIN_FREE: Lowest FREE_BLK since the last read; a read reloads it with the current FREE_BLK (R11) (R180, chapter 07). -/
def F.MAP_LOESS_QSTAT_MIN_FREE : Fld := { base := 0xf00000, s1 := 0x10, n2 := 1, s2 := 0, count := 4, lo := 16, wd := 13, acc := .rcl, rst := 0x4cc, svc := true }
/-- MAP_LOESS_QCFG_LOW_TH: LOESS_LOW threshold in blocks; 0 disables the event (R180, chapter 07). -/
def F.MAP_LOESS_QCFG_LOW_TH : Fld := { base := 0xf00004, s1 := 0x10, n2 := 1, s2 := 0, count := 4, lo := 0, wd := 13, acc := .rw, svc := true }
/-- GLB_PLANE_CFG_WARN_TH: Warning threshold, 0.8 ns units; reset 24 ns (R209) (R218, chapter 08). -/
def F.GLB_PLANE_CFG_WARN_TH : Fld := { base := 0x1000, lo := 0, wd := 8, acc := .rw, rst := 0x1e, svc := true }
/-- GLB_PLANE_CFG_RETIRE_TH: Retire threshold, 0.8 ns units; reset 8 ns (R210) (R218, chapter 08). -/
def F.GLB_PLANE_CFG_RETIRE_TH : Fld := { base := 0x1000, lo := 8, wd := 8, acc := .rw, rst := 0xa, svc := true }
/-- GLB_PLANE_CFG_AUTO_RETIRE: 1: a trigger of R210 or R216 starts retirement (R218, chapter 08). -/
def F.GLB_PLANE_CFG_AUTO_RETIRE : Fld := { base := 0x1000, lo := 16, wd := 1, acc := .rw, rst := 0x1, svc := true }
/-- GLB_PLANE_STATUS_STATE: 0b00 IN_SERVICE, 0b01 EVACUATING, 0b10 RETIRED, 0b11 RESTORING (R218, chapter 08). -/
def F.GLB_PLANE_STATUS_STATE : Fld := { base := 0x1010, s1 := 0x0, n2 := 8, s2 := 4, count := 8, lo := 0, wd := 2, acc := .ro }
/-- GLB_PLANE_STATUS_SLACK: Slack of the last sweep (R208); 0x7FF while RETIRED or before the first measurement (R218, chapter 08). -/
def F.GLB_PLANE_STATUS_SLACK : Fld := { base := 0x1010, s1 := 0x0, n2 := 8, s2 := 4, count := 8, lo := 8, wd := 12, acc := .ro, rst := 0x7ff }
/-- GLB_PLANE_SLKMIN_MIN: Lowest slack since the last read; a read reloads 0x7FF (R11) (R218, chapter 08). -/
def F.GLB_PLANE_SLKMIN_MIN : Fld := { base := 0x1030, s1 := 0x0, n2 := 8, s2 := 4, count := 8, lo := 0, wd := 12, acc := .rcl, rst := 0x7ff }
/-- GLB_PLANE_BEATERR_COUNT: Beats with a CYC mismatch (R216), saturating at 0xFFFF_FFFF (R218, chapter 08). -/
def F.GLB_PLANE_BEATERR_COUNT : Fld := { base := 0x1050, s1 := 0x0, n2 := 8, s2 := 4, count := 8, lo := 0, wd := 32, acc := .rcl }
/-- GLB_TILTH_CFG_BATCH_TMO: Batch timeout in ms (R236); 0: no timeout (R245, chapter 09). -/
def F.GLB_TILTH_CFG_BATCH_TMO : Fld := { base := 0x1100, lo := 0, wd := 16, acc := .rw, svc := true }
/-- GLB_TILTH_CFG_BCAST_EN: 1: rule 1 of R225 applies (R245, chapter 09). -/
def F.GLB_TILTH_CFG_BCAST_EN : Fld := { base := 0x1100, lo := 16, wd := 1, acc := .rw, rst := 0x1, svc := true }
/-- GLB_TILTH_STATUS_STATE: 0 IDLE, 1 STAGING, 2 READY (commit prepared, target in GLB_TILTH_TARGET), 3 ROLLBACK, 4 EVACUATING, 5 to 7 reserved (R245, chapter 09). -/
def F.GLB_TILTH_STATUS_STATE : Fld := { base := 0x1104, lo := 0, wd := 3, acc := .ro }
/-- GLB_TILTH_STATUS_BATCH_OPEN: A batch is open (R245, chapter 09). -/
def F.GLB_TILTH_STATUS_BATCH_OPEN : Fld := { base := 0x1104, lo := 3, wd := 1, acc := .ro }
/-- GLB_TILTH_STATUS_BATCH_RING: CMD ring of the open batch; valid while BATCH_OPEN = 1 (R245, chapter 09). -/
def F.GLB_TILTH_STATUS_BATCH_RING : Fld := { base := 0x1104, lo := 4, wd := 4, acc := .ro }
/-- GLB_TILTH_TARGET_SN: Target of the prepared commit; valid while STATE = 2 (R245, chapter 09). -/
def F.GLB_TILTH_TARGET_SN : Fld := { base := 0x1108, lo := 0, wd := 32, acc := .ro }
/-- GLB_TILTH_COMMITS: Commits made, saturating at 0xFFFF_FFFF (R245, chapter 09). -/
def F.GLB_TILTH_COMMITS : Fld := { base := 0x110c, lo := 0, wd := 32, acc := .rcl }
/-- GLB_TILTH_CHAINS: Chains of R226 committed, saturating at 0xFFFF_FFFF (R245, chapter 09). -/
def F.GLB_TILTH_CHAINS : Fld := { base := 0x1110, lo := 0, wd := 32, acc := .rcl }
/-- GLB_TILTH_OCC_U_IN: Used ingress-side slots of the port, 0 to 4096 (R224) (R245, chapter 09). -/
def F.GLB_TILTH_OCC_U_IN : Fld := { base := 0x1200, s1 := 0x0, n2 := 132, s2 := 4, count := 132, lo := 0, wd := 13, acc := .ro }
/-- GLB_TILTH_OCC_U_OUT: Used egress-side slots of the port, 0 to 4096 (R245, chapter 09). -/
def F.GLB_TILTH_OCC_U_OUT : Fld := { base := 0x1200, s1 := 0x0, n2 := 132, s2 := 4, count := 132, lo := 16, wd := 13, acc := .ro }
/-- GLB_PROT_CFG_PSC_TMO: dPSC_LOSS time in ms; reset 100 ms; values below 10 act as 10 (R273, chapter 10). -/
def F.GLB_PROT_CFG_PSC_TMO : Fld := { base := 0x1800, lo := 0, wd := 10, acc := .rw, rst := 0x64, svc := true }
/-- GLB_PROT_CFG_FOP_TMO: dPSC_FOP time in ms; reset 50 ms; values below 10 act as 10 (R273, chapter 10). -/
def F.GLB_PROT_CFG_FOP_TMO : Fld := { base := 0x1800, lo := 10, wd := 10, acc := .rw, rst := 0x32, svc := true }
/-- GLB_PROT_CFG_BRIDGE_HOLD: 1:N bridge hold in units of 10 µs, 0 to 40.95 ms; reset 100 µs (R273, chapter 10). -/
def F.GLB_PROT_CFG_BRIDGE_HOLD : Fld := { base := 0x1800, lo := 20, wd := 12, acc := .rw, rst := 0xa, svc := true }
/-- GLB_PROT_STATUS_GROUPS: Groups in existence, 0 to 131,072 (R273, chapter 10). -/
def F.GLB_PROT_STATUS_GROUPS : Fld := { base := 0x1804, lo := 0, wd := 18, acc := .ro }
/-- GLB_PROT_SWCNT_SWITCHES: Changes of selected signal applied in all groups, saturating at 0xFFFF_FFFF (R273, chapter 10). -/
def F.GLB_PROT_SWCNT_SWITCHES : Fld := { base := 0x1808, lo := 0, wd := 32, acc := .rcl }
/-- FRM_PSC_STATUS_CRC_ERR: Messages discarded for CRC, saturating at 0xFFFF (R273, chapter 10). -/
def F.FRM_PSC_STATUS_CRC_ERR : Fld := { base := 0x800120, s1 := 0x1000, n2 := 1, s2 := 0, count := 128, lo := 0, wd := 16, acc := .rcl }
/-- FRM_PSC_STATUS_UNKNOWN: Messages and entries discarded under R268 other than for CRC, saturating at 0xFFFF (R273, chapter 10). -/
def F.FRM_PSC_STATUS_UNKNOWN : Fld := { base := 0x800120, s1 := 0x1000, n2 := 1, s2 := 0, count := 128, lo := 16, wd := 16, acc := .rcl }
/-- FRM_PSC_QUEUE_DEPTH: Entries queued for transmission, 0 to 16,384 (R273, chapter 10). -/
def F.FRM_PSC_QUEUE_DEPTH : Fld := { base := 0x800124, s1 := 0x1000, n2 := 1, s2 := 0, count := 128, lo := 0, wd := 15, acc := .ro }
/-- FRM_PSC_QUEUE_MAX: Highest DEPTH since the last read; a read reloads the current DEPTH (R11) (R273, chapter 10). -/
def F.FRM_PSC_QUEUE_MAX : Fld := { base := 0x800124, s1 := 0x1000, n2 := 1, s2 := 0, count := 128, lo := 16, wd := 15, acc := .rcl }
/-- PTB_TBL_PGID: Group whose signal input this entry feeds (R281, chapter 11). -/
def F.PTB_TBL_PGID : Fld := { base := 0x2001000, s1 := 0x0, n2 := 4096, s2 := 4, count := 4096, lo := 0, wd := 17, acc := .rwl, own := true }
/-- PTB_TBL_SIG: Signal number in that group, 0 to 15 (R250) (R281, chapter 11). -/
def F.PTB_TBL_SIG : Fld := { base := 0x2001000, s1 := 0x0, n2 := 4096, s2 := 4, count := 4096, lo := 17, wd := 4, acc := .rwl, own := true }
/-- PTB_TBL_EN: 1: triggers on this entry may be accepted (R281, chapter 11). -/
def F.PTB_TBL_EN : Fld := { base := 0x2001000, s1 := 0x0, n2 := 4096, s2 := 4, count := 4096, lo := 21, wd := 1, acc := .rwl, own := true }
/-- PTB_TBL_SD_EN: 1: SD codes are accepted; 0: refused (R281, chapter 11). -/
def F.PTB_TBL_SD_EN : Fld := { base := 0x2001000, s1 := 0x0, n2 := 4096, s2 := 4, count := 4096, lo := 22, wd := 1, acc := .rwl, own := true }
/-- PTB_TBL_REFRESH: 0: COND is held until changed by a trigger; 1 to 15: COND lapses after REFRESH × 10 ms (R283) (R281, chapter 11). -/
def F.PTB_TBL_REFRESH : Fld := { base := 0x2001000, s1 := 0x0, n2 := 4096, s2 := 4, count := 4096, lo := 23, wd := 4, acc := .rwl, own := true }
/-- PTB_TBL_COND: Condition held: 0b00 none, 0b01 SD, 0b10 SF (R281, chapter 11). -/
def F.PTB_TBL_COND : Fld := { base := 0x2001000, s1 := 0x0, n2 := 4096, s2 := 4, count := 4096, lo := 28, wd := 2, acc := .ro }
/-- PTB_CFG_CLK_SEL: 0b00 50 MHz, 0b01 25 MHz, 0b10 12.5 MHz; 0b11 acts as 0b10 (R289, chapter 11). -/
def F.PTB_CFG_CLK_SEL : Fld := { base := 0x2000000, lo := 0, wd := 2, acc := .rwl, rst := 0x1 }
/-- PTB_CFG_FRAME_LEN: 0b00 8, 0b01 16, 0b10 32, 0b11 64 cycles (R289, chapter 11). -/
def F.PTB_CFG_FRAME_LEN : Fld := { base := 0x2000000, lo := 2, wd := 2, acc := .rwl, rst := 0x1 }
/-- PTB_CFG_P0_EN: Port PTB0 enabled (R289, chapter 11). -/
def F.PTB_CFG_P0_EN : Fld := { base := 0x2000000, lo := 4, wd := 1, acc := .rw, svc := true }
/-- PTB_CFG_P1_EN: Port PTB1 enabled (R289, chapter 11). -/
def F.PTB_CFG_P1_EN : Fld := { base := 0x2000000, lo := 5, wd := 1, acc := .rw, svc := true }
/-- PTB_PORT_ACC: Triggers accepted, saturating at 0xFFFF_FFFF (R289, chapter 11). -/
def F.PTB_PORT_ACC : Fld := { base := 0x2000100, s1 := 0x0, n2 := 2, s2 := 16, count := 2, lo := 0, wd := 32, acc := .rcl }
/-- PTB_PORT_REF: Triggers refused, saturating (R289, chapter 11). -/
def F.PTB_PORT_REF : Fld := { base := 0x2000104, s1 := 0x0, n2 := 2, s2 := 16, count := 2, lo := 0, wd := 32, acc := .rcl }
/-- PTB_PORT_ERR: Words answered ERROR, saturating; the first on this port in each 1 ms window raises PTB_ERR with the cycle number (R546) (R289, chapter 11). -/
def F.PTB_PORT_ERR : Fld := { base := 0x2000108, s1 := 0x0, n2 := 2, s2 := 16, count := 2, lo := 0, wd := 32, acc := .rcl }
/-- TWN_CFG_EN: Twin operation enabled (R324, chapter 12). -/
def F.TWN_CFG_EN : Fld := { base := 0x1c00000, lo := 0, wd := 1, acc := .rwl, own := true }
/-- TWN_CFG_UNIT: Unit number (R297) (R324, chapter 12). -/
def F.TWN_CFG_UNIT : Fld := { base := 0x1c00000, lo := 1, wd := 1, acc := .rwl }
/-- TWN_CFG_AUTO_RESYNC: R322 (R324, chapter 12). -/
def F.TWN_CFG_AUTO_RESYNC : Fld := { base := 0x1c00000, lo := 2, wd := 1, acc := .rw, rst := 0x1, svc := true }
/-- TWN_CFG_FAIL_MASK: Failure causes (R298) (R324, chapter 12). -/
def F.TWN_CFG_FAIL_MASK : Fld := { base := 0x1c00000, lo := 3, wd := 3, acc := .rw, rst := 0x7, svc := true }
/-- TWN_CFG_HOLD_TMO: Promotion hold timeout in ms; 0: none (R317) (R324, chapter 12). -/
def F.TWN_CFG_HOLD_TMO : Fld := { base := 0x1c00000, lo := 16, wd := 16, acc := .rw, svc := true }
/-- TWN_CFG2_RESYNC_TMO: Resync timeout in ms; reset 1000 ms; 0: no timeout (R322) (R324, chapter 12). -/
def F.TWN_CFG2_RESYNC_TMO : Fld := { base := 0x1c00004, lo := 0, wd := 16, acc := .rw, rst := 0x3e8, svc := true }
/-- TWN_STATUS_ROLE: 0 DISABLED, 1 UNPAIRED, 2 STANDBY, 3 ACTIVE, 4 FAILED, 5 to 7 reserved (R324, chapter 12). -/
def F.TWN_STATUS_ROLE : Fld := { base := 0x1c00008, lo := 0, wd := 3, acc := .ro }
/-- TWN_STATUS_COUPLING: Standby's coupling state: 0b00 no standby, 0b01 DIVERGED, 0b10 RESYNC, 0b11 LOCKSTEP (R324, chapter 12). -/
def F.TWN_STATUS_COUPLING : Fld := { base := 0x1c00008, lo := 3, wd := 2, acc := .ro }
/-- TWN_STATUS_LINK: Twin link up (R302) (R324, chapter 12). -/
def F.TWN_STATUS_LINK : Fld := { base := 0x1c00008, lo := 5, wd := 1, acc := .ro }
/-- TWN_STATUS_MATE_ALIVE: TW_ALIVE_IN edge within the last 3 sweeps (R324, chapter 12). -/
def F.TWN_STATUS_MATE_ALIVE : Fld := { base := 0x1c00008, lo := 6, wd := 1, acc := .ro }
/-- TWN_STATUS_MATE_ACTIVE: Level of TW_ACTIVE_IN (R324, chapter 12). -/
def F.TWN_STATUS_MATE_ACTIVE : Fld := { base := 0x1c00008, lo := 7, wd := 1, acc := .ro }
/-- TWN_STATUS_MATE_FAIL: Level of TW_FAIL_IN (R324, chapter 12). -/
def F.TWN_STATUS_MATE_FAIL : Fld := { base := 0x1c00008, lo := 8, wd := 1, acc := .ro }
/-- TWN_STATUS_LAST_CAUSE: Last role change: 0 none, 1 claim, 2 TW_FAIL_IN, 3 missing heartbeat, 4 yield, 5 role swap, 6 failure, 7 pairing (R324, chapter 12). -/
def F.TWN_STATUS_LAST_CAUSE : Fld := { base := 0x1c00008, lo := 9, wd := 3, acc := .ro }
/-- TWN_LINK_STATUS_INFRAME: Bit q: twin-link lane q in frame (R324, chapter 12). -/
def F.TWN_LINK_STATUS_INFRAME : Fld := { base := 0x1c0000c, lo := 0, wd := 4, acc := .ro }
/-- TWN_LINK_STATUS_DELAY: One-way record delay in ns (R324, chapter 12). -/
def F.TWN_LINK_STATUS_DELAY : Fld := { base := 0x1c0000c, lo := 4, wd := 12, acc := .ro }
/-- TWN_LINK_ERR: Records discarded (R300), saturating at 0xFFFF_FFFF (R324, chapter 12). -/
def F.TWN_LINK_ERR : Fld := { base := 0x1c00010, lo := 0, wd := 32, acc := .rcl }
/-- TWN_ALIGN_OFFSET: Own tick minus mate's tick in ns, two's complement (R306) (R324, chapter 12). -/
def F.TWN_ALIGN_OFFSET : Fld := { base := 0x1c00014, lo := 0, wd := 16, acc := .ro }
/-- TWN_SIG_MISCNT: Mismatching lane-sweeps (R311), saturating at 0xFFFF_FFFF (R324, chapter 12). -/
def F.TWN_SIG_MISCNT : Fld := { base := 0x1c00018, lo := 0, wd := 32, acc := .rcl }
/-- TWN_SIG_FAIL: Bit b: failing flag of L(32w + b), w = 0 to 3 (R324, chapter 12). -/
def F.TWN_SIG_FAIL : Fld := { base := 0x1c00020, s1 := 0x0, n2 := 4, s2 := 4, count := 4, lo := 0, wd := 32, acc := .ro }
/-- TWN_HOLD: Bit b: promotion hold on L(32w + b), w = 0 to 3 (R317) (R324, chapter 12). -/
def F.TWN_HOLD : Fld := { base := 0x1c00030, s1 := 0x0, n2 := 4, s2 := 4, count := 4, lo := 0, wd := 32, acc := .ro }
/-- HIF_RING_BASE_LO: Base address [31:0]; bits [11:0] must be 0 (R332, chapter 13). -/
def F.HIF_RING_BASE_LO : Fld := { base := 0x1001000, s1 := 0x40, n2 := 1, s2 := 0, count := 64, lo := 0, wd := 32, acc := .rw, svc := true }
/-- HIF_RING_BASE_HI: Base address [63:32] (R332, chapter 13). -/
def F.HIF_RING_BASE_HI : Fld := { base := 0x1001004, s1 := 0x40, n2 := 1, s2 := 0, count := 64, lo := 0, wd := 32, acc := .rw, svc := true }
/-- HIF_RING_CFG_LOG2_SIZE: 6 to 16; other values act as 6 (R332, chapter 13). -/
def F.HIF_RING_CFG_LOG2_SIZE : Fld := { base := 0x1001008, s1 := 0x40, n2 := 1, s2 := 0, count := 64, lo := 0, wd := 5, acc := .rw, rst := 0x6, svc := true }
/-- HIF_RING_CFG_EN: Ring enabled (R332, chapter 13). -/
def F.HIF_RING_CFG_EN : Fld := { base := 0x1001008, s1 := 0x40, n2 := 1, s2 := 0, count := 64, lo := 5, wd := 1, acc := .rw, own := true, svc := true }
/-- HIF_RING_CFG_VEC: MSI-X vector of a device-produced ring (R332, chapter 13). -/
def F.HIF_RING_CFG_VEC : Fld := { base := 0x1001008, s1 := 0x40, n2 := 1, s2 := 0, count := 64, lo := 6, wd := 6, acc := .rw, svc := true }
/-- HIF_RING_CFG_MOD_CNT: Records per interrupt (R349); 0 acts as 1 (R332, chapter 13). -/
def F.HIF_RING_CFG_MOD_CNT : Fld := { base := 0x1001008, s1 := 0x40, n2 := 1, s2 := 0, count := 64, lo := 12, wd := 8, acc := .rw, svc := true }
/-- HIF_RING_CFG_MOD_TIME: Moderation time in µs; 0: no time limit (R332, chapter 13). -/
def F.HIF_RING_CFG_MOD_TIME : Fld := { base := 0x1001008, s1 := 0x40, n2 := 1, s2 := 0, count := 64, lo := 20, wd := 12, acc := .rw, svc := true }
/-- HIF_RING_WB_LO: Write-back address [31:0] (R330); bits [1:0] must be 0 (R332, chapter 13). -/
def F.HIF_RING_WB_LO : Fld := { base := 0x100100c, s1 := 0x40, n2 := 1, s2 := 0, count := 64, lo := 0, wd := 32, acc := .rw, svc := true }
/-- HIF_RING_WB_HI: Write-back address [63:32] (R332, chapter 13). -/
def F.HIF_RING_WB_HI : Fld := { base := 0x1001010, s1 := 0x40, n2 := 1, s2 := 0, count := 64, lo := 0, wd := 32, acc := .rw, svc := true }
/-- HIF_RING_CTL_RESET: 1: reset the ring (R352) (R332, chapter 13). -/
def F.HIF_RING_CTL_RESET : Fld := { base := 0x1001014, s1 := 0x40, n2 := 1, s2 := 0, count := 64, lo := 0, wd := 1, acc := .wo, own := true, svc := true }
/-- HIF_RING_STATUS_STATE: 0 DISABLED, 1 ACTIVE, 2 PAUSED (page request outstanding), 3 FAULTED, 4 RESETTING, 5 to 7 reserved (R332, chapter 13). -/
def F.HIF_RING_STATUS_STATE : Fld := { base := 0x1001018, s1 := 0x40, n2 := 1, s2 := 0, count := 64, lo := 0, wd := 3, acc := .ro, svc := true }
/-- HIF_RING_STATUS_SESS: Bound session slot, 0 to 14; 0xF unbound (R332, chapter 13). -/
def F.HIF_RING_STATUS_SESS : Fld := { base := 0x1001018, s1 := 0x40, n2 := 1, s2 := 0, count := 64, lo := 4, wd := 4, acc := .ro, rst := 0xf, svc := true }
/-- HIF_RING_PIDX: P as the DM2560 holds it (R332, chapter 13). -/
def F.HIF_RING_PIDX : Fld := { base := 0x100101c, s1 := 0x40, n2 := 1, s2 := 0, count := 64, lo := 0, wd := 32, acc := .ro, svc := true }
/-- HIF_RING_CIDX: C as the DM2560 holds it (R332, chapter 13). -/
def F.HIF_RING_CIDX : Fld := { base := 0x1001020, s1 := 0x40, n2 := 1, s2 := 0, count := 64, lo := 0, wd := 32, acc := .ro, svc := true }
/-- HIF_RING_FAULT_LO: Faulting address [31:0] of the last FAULTED entry (R332, chapter 13). -/
def F.HIF_RING_FAULT_LO : Fld := { base := 0x1001024, s1 := 0x40, n2 := 1, s2 := 0, count := 64, lo := 0, wd := 32, acc := .ro, svc := true }
/-- HIF_RING_FAULT_HI: Faulting address [63:32] (R332, chapter 13). -/
def F.HIF_RING_FAULT_HI : Fld := { base := 0x1001028, s1 := 0x40, n2 := 1, s2 := 0, count := 64, lo := 0, wd := 32, acc := .ro, svc := true }
/-- HIF_CFG_ERR_VEC: Vector for host-interface errors (R350) (R332, chapter 13). -/
def F.HIF_CFG_ERR_VEC : Fld := { base := 0x1000000, lo := 0, wd := 6, acc := .rw, svc := true }
/-- HIF_CFG_NMI_VEC: Vector for non-maskable events (R350) (R332, chapter 13). -/
def F.HIF_CFG_NMI_VEC : Fld := { base := 0x1000000, lo := 6, wd := 6, acc := .rw, rst := 0x3f, svc := true }
/-- HIF_DB_UNBOUND: Doorbells ignored under R329, saturating (R332, chapter 13). -/
def F.HIF_DB_UNBOUND : Fld := { base := 0x1000004, lo := 0, wd := 32, acc := .rcl, svc := true }
/-- HIF_DB_ERR: Doorbells ignored under R328, saturating (R332, chapter 13). -/
def F.HIF_DB_ERR : Fld := { base := 0x1000008, lo := 0, wd := 32, acc := .rcl, svc := true }
/-- HIF_STATUS_CFG_ERR: R332 (R332, chapter 13). -/
def F.HIF_STATUS_CFG_ERR : Fld := { base := 0x100000c, lo := 0, wd := 1, acc := .w1c, svc := true }
/-- HIF_EVT_ROUTE: Bits [2c+1:2c]: EVT ring of event class c, c = 0 to 15 (R342) (R332, chapter 13). -/
def F.HIF_EVT_ROUTE : Fld := { base := 0x1000010, lo := 0, wd := 32, acc := .rw, svc := true }
/-- HIF_ATS_CFG_PREFETCH: 1: next-page prefetch of R358 (R375, chapter 14). -/
def F.HIF_ATS_CFG_PREFETCH : Fld := { base := 0x1000100, lo := 0, wd := 1, acc := .rw, rst := 0x1, svc := true }
/-- HIF_ATS_CFG_PRI_TMO: Page request timeout in ms; reset 100 ms; 0: no timeout (R375, chapter 14). -/
def F.HIF_ATS_CFG_PRI_TMO : Fld := { base := 0x1000100, lo := 8, wd := 16, acc := .rw, rst := 0x64, svc := true }
/-- HIF_ATS_STATUS_VALID: Valid cache entries, 0 to 1024 (R375, chapter 14). -/
def F.HIF_ATS_STATUS_VALID : Fld := { base := 0x1000104, lo := 0, wd := 11, acc := .ro, svc := true }
/-- HIF_ATS_STATUS_PRG_OUT: Page requests outstanding, 0 to 512 (R375, chapter 14). -/
def F.HIF_ATS_STATUS_PRG_OUT : Fld := { base := 0x1000104, lo := 16, wd := 10, acc := .ro, svc := true }
/-- HIF_ATS_MISS: Cache misses, prefetches excluded, saturating at 0xFFFF_FFFF (R375, chapter 14). -/
def F.HIF_ATS_MISS : Fld := { base := 0x1000108, lo := 0, wd := 32, acc := .rcl, svc := true }
/-- HIF_ATS_INVAL: Invalidate Completions sent, saturating (R375, chapter 14). -/
def F.HIF_ATS_INVAL : Fld := { base := 0x100010c, lo := 0, wd := 32, acc := .rcl, svc := true }
/-- HIF_PRI_FAIL: Accesses failed under R363, saturating (R375, chapter 14). -/
def F.HIF_PRI_FAIL : Fld := { base := 0x1000110, lo := 0, wd := 32, acc := .rcl, svc := true }
/-- ARB_CFG_WINDOW: Window in DMA cycles, reset 1024 (2.048 µs); values below 64 act as 64 (R375, chapter 14). -/
def F.ARB_CFG_WINDOW : Fld := { base := 0x1400000, lo := 0, wd := 16, acc := .rw, rst := 0x400, svc := true }
/-- ARB_CTL_FREEZE: 1: freeze the host port (R374) (R375, chapter 14). -/
def F.ARB_CTL_FREEZE : Fld := { base := 0x1400004, lo := 0, wd := 1, acc := .rw, own := true, svc := true }
/-- ARB_STATUS_MODE: 0 registered, 1 combinational (R370) (R375, chapter 14). -/
def F.ARB_STATUS_MODE : Fld := { base := 0x1400008, lo := 0, wd := 1, acc := .ro, rst := 0x1, svc := true }
/-- ARB_STATUS_MODE_CAUSE: 0b00 in service, 0b01 start-up, 0b10 test, 0b11 recovery (R371) (R375, chapter 14). -/
def F.ARB_STATUS_MODE_CAUSE : Fld := { base := 0x1400008, lo := 1, wd := 2, acc := .ro, rst := 0x1, svc := true }
/-- ARB_STATUS_FROZEN: Grants stopped by FREEZE or by R372 (R375, chapter 14). -/
def F.ARB_STATUS_FROZEN : Fld := { base := 0x1400008, lo := 3, wd := 1, acc := .ro, svc := true }
/-- ARB_STATUS_DRAINED: Frozen and drained (R374) (R375, chapter 14). -/
def F.ARB_STATUS_DRAINED : Fld := { base := 0x1400008, lo := 4, wd := 1, acc := .ro, svc := true }
/-- ARB_STATUS_BACKOFF: Bit 8 + r: requester r in backoff (R375, chapter 14). -/
def F.ARB_STATUS_BACKOFF : Fld := { base := 0x1400008, lo := 8, wd := 8, acc := .ro, svc := true }
/-- ARB_NULL: Null grants (R369), saturating at 0xFFFF_FFFF (R375, chapter 14). -/
def F.ARB_NULL : Fld := { base := 0x140000c, lo := 0, wd := 32, acc := .rcl, svc := true }
/-- ARB_IDLE: Cycles idle with every requesting requester in backoff, saturating (R375, chapter 14). -/
def F.ARB_IDLE : Fld := { base := 0x1400010, lo := 0, wd := 32, acc := .rcl, svc := true }
/-- ARB_WEIGHT_W: Weight of requester r; 0 acts as 1 (R375, chapter 14). -/
def F.ARB_WEIGHT_W : Fld := { base := 0x1400020, s1 := 0x0, n2 := 8, s2 := 4, count := 8, lo := 0, wd := 8, acc := .rw, rsts := [64, 32, 32, 16, 8, 16, 4, 8], svc := true }
/-- ARB_RET_RET: Returned grants of requester r, saturating at 0xFFFF (R375, chapter 14). -/
def F.ARB_RET_RET : Fld := { base := 0x1400040, s1 := 0x0, n2 := 8, s2 := 4, count := 8, lo := 0, wd := 16, acc := .rcl, svc := true }
/-- CTL_CORE_STATUS_C0_STATE: 0 RESET, 1 BOOT_ROM, 2 RUN, 3 HALTED, 4 RESTART, 5 FAILED, 6 and 7 reserved (R400, chapter 15). -/
def F.CTL_CORE_STATUS_C0_STATE : Fld := { base := 0x1800000, lo := 0, wd := 3, acc := .ro }
/-- CTL_CORE_STATUS_C1_STATE: As C0_STATE (R400, chapter 15). -/
def F.CTL_CORE_STATUS_C1_STATE : Fld := { base := 0x1800000, lo := 3, wd := 3, acc := .ro }
/-- CTL_CORE_STATUS_FW_READY: R392 (R400, chapter 15). -/
def F.CTL_CORE_STATUS_FW_READY : Fld := { base := 0x1800000, lo := 6, wd := 1, acc := .ro }
/-- CTL_CORE_STATUS_FW_SRC: Running image: 0b00 none, 0b01 flash A, 0b10 flash B, 0b11 pushed or staged (R400, chapter 15). -/
def F.CTL_CORE_STATUS_FW_SRC : Fld := { base := 0x1800000, lo := 7, wd := 2, acc := .ro }
/-- CTL_CORE_STATUS_SVN: Security version of the running image (R400, chapter 15). -/
def F.CTL_CORE_STATUS_SVN : Fld := { base := 0x1800000, lo := 16, wd := 16, acc := .ro }
/-- CTL_WDT_CFG_TMO: Watchdog period in ms, reset 500 ms; 0 disables both watchdogs (R400, chapter 15). -/
def F.CTL_WDT_CFG_TMO : Fld := { base := 0x1800004, lo := 0, wd := 16, acc := .rw, rst := 0x1f4 }
/-- CTL_WDT_CFG_KICK0: 1: restart core 0's watchdog (R400, chapter 15). -/
def F.CTL_WDT_CFG_KICK0 : Fld := { base := 0x1800004, lo := 16, wd := 1, acc := .wo, own := true }
/-- CTL_WDT_CFG_KICK1: 1: restart core 1's watchdog (R400, chapter 15). -/
def F.CTL_WDT_CFG_KICK1 : Fld := { base := 0x1800004, lo := 17, wd := 1, acc := .wo, own := true }
/-- CTL_BOOT_GO: 1: verify the pushed image (R392); ignored unless STAGE = 0x1 (R400, chapter 15). -/
def F.CTL_BOOT_GO : Fld := { base := 0x1800008, lo := 0, wd := 1, acc := .wo, own := true, svc := true }
/-- CTL_BOOT_STAGE: 0x0 flash search, 0x1 waiting for push, 0x2 verifying, 0x3 copying, 0x4 done (R400, chapter 15). -/
def F.CTL_BOOT_STAGE : Fld := { base := 0x1800008, lo := 1, wd := 3, acc := .ro, svc := true }
/-- CTL_BOOT_LEN: Pushed image length in bytes, at most 0x10_0000 (R400, chapter 15). -/
def F.CTL_BOOT_LEN : Fld := { base := 0x180000c, lo := 0, wd := 21, acc := .rw }
/-- CTL_SP_STAT_CORR: Corrected single-bit errors, saturating at 0xFFFF_FFFF (R400, chapter 15). -/
def F.CTL_SP_STAT_CORR : Fld := { base := 0x1800010, lo := 0, wd := 32, acc := .rcl }
/-- CTL_SP_STAT_UNCORR: Double-bit errors, saturating (R400, chapter 15). -/
def F.CTL_SP_STAT_UNCORR : Fld := { base := 0x1800014, lo := 0, wd := 32, acc := .rcl }
/-- CTL_SP_STAT_BUSY: BUSY responses to port D, saturating (R400, chapter 15). -/
def F.CTL_SP_STAT_BUSY : Fld := { base := 0x1800018, lo := 0, wd := 32, acc := .rcl }
/-- CTL_SP_STAT_DENY: BAR2 writes discarded under R379, saturating (R400, chapter 15). -/
def F.CTL_SP_STAT_DENY : Fld := { base := 0x180001c, lo := 0, wd := 32, acc := .rcl }
/-- CTL_MTX_PRIO_PRIO: Bits [2m+1:2m]: priority 0 to 3 of master Mm at slave Ss; reset 1 for M0 and M1, 3 for M2, 2 for M3 (R400, chapter 15). -/
def F.CTL_MTX_PRIO_PRIO : Fld := { base := 0x1800020, s1 := 0x0, n2 := 6, s2 := 4, count := 6, lo := 0, wd := 8, acc := .rwl, rst := 0xb5 }
/-- DBG_CTL_HALT0: 1: halt core 0 (R398) (R400, chapter 15). -/
def F.DBG_CTL_HALT0 : Fld := { base := 0x3000000, lo := 0, wd := 1, acc := .rw, own := true, svc := true }
/-- DBG_CTL_HALT1: 1: halt core 1 (R400, chapter 15). -/
def F.DBG_CTL_HALT1 : Fld := { base := 0x3000000, lo := 1, wd := 1, acc := .rw, own := true, svc := true }
/-- DBG_CTL_WDT_HALT: 1: watchdogs pause while their core is halted (R396) (R400, chapter 15). -/
def F.DBG_CTL_WDT_HALT : Fld := { base := 0x3000000, lo := 2, wd := 1, acc := .rw, svc := true }
/-- DBG_CTL_ARB_TEST: 1: host-port arbiter combinational (R371) (R400, chapter 15). -/
def F.DBG_CTL_ARB_TEST : Fld := { base := 0x3000000, lo := 3, wd := 1, acc := .rw, svc := true }
/-- DBG_STATUS_HALTED: Bit c: core c is halted (R400, chapter 15). -/
def F.DBG_STATUS_HALTED : Fld := { base := 0x3000004, lo := 0, wd := 2, acc := .ro, svc := true }
/-- CLK_SEL_SYS: System group: 0 FIO, 1 APLL1 (R428, chapter 16). -/
def F.CLK_SEL_SYS : Fld := { base := 0x100000, lo := 0, wd := 1, acc := .rw, own := true, svc := true }
/-- CLK_SEL_PER: Peripheral group: 0 FIO, 1 APLL1 (R428, chapter 16). -/
def F.CLK_SEL_PER : Fld := { base := 0x100000, lo := 1, wd := 1, acc := .rw, own := true, svc := true }
/-- CLK_DIV_CORE: 0b00 1.0 GHz, 0b01 500 MHz, 0b10 250 MHz; 0b11 acts as 0b10 (R428, chapter 16). -/
def F.CLK_DIV_CORE : Fld := { base := 0x100004, lo := 0, wd := 2, acc := .rw }
/-- CLK_DIV_MTX: 0 500 MHz, 1 250 MHz (R428, chapter 16). -/
def F.CLK_DIV_MTX : Fld := { base := 0x100004, lo := 2, wd := 1, acc := .rw }
/-- CLK_DIV_DMA: 0 500 MHz, 1 250 MHz (R428, chapter 16). -/
def F.CLK_DIV_DMA : Fld := { base := 0x100004, lo := 3, wd := 1, acc := .rw }
/-- CLK_STATUS_XO_OK: R402 (R428, chapter 16). -/
def F.CLK_STATUS_XO_OK : Fld := { base := 0x100008, lo := 0, wd := 1, acc := .ro, svc := true }
/-- CLK_STATUS_XO_FAIL: R402 (R428, chapter 16). -/
def F.CLK_STATUS_XO_FAIL : Fld := { base := 0x100008, lo := 1, wd := 1, acc := .ro, svc := true }
/-- CLK_STATUS_APLL_LOCK: Bit 2 + a: APLLa locked (R428, chapter 16). -/
def F.CLK_STATUS_APLL_LOCK : Fld := { base := 0x100008, lo := 2, wd := 3, acc := .ro, svc := true }
/-- CLK_STATUS_SYS_CUR: Source now driving the system group (R428, chapter 16). -/
def F.CLK_STATUS_SYS_CUR : Fld := { base := 0x100008, lo := 5, wd := 1, acc := .ro, svc := true }
/-- CLK_STATUS_PER_CUR: Source now driving the peripheral group (R428, chapter 16). -/
def F.CLK_STATUS_PER_CUR : Fld := { base := 0x100008, lo := 6, wd := 1, acc := .ro, svc := true }
/-- CLK_STATUS_SYS_RESCUE: R423 (R428, chapter 16). -/
def F.CLK_STATUS_SYS_RESCUE : Fld := { base := 0x100008, lo := 7, wd := 1, acc := .w1c, own := true, svc := true }
/-- CLK_STATUS_PER_RESCUE: R423 (R428, chapter 16). -/
def F.CLK_STATUS_PER_RESCUE : Fld := { base := 0x100008, lo := 8, wd := 1, acc := .w1c, own := true, svc := true }
/-- CLK_STATUS_XO_LOSS: R403 (R428, chapter 16). -/
def F.CLK_STATUS_XO_LOSS : Fld := { base := 0x100008, lo := 9, wd := 1, acc := .ro, svc := true }
/-- CLK_STATUS_CFG_ERR: R417, R424, R425 (R428, chapter 16). -/
def F.CLK_STATUS_CFG_ERR : Fld := { base := 0x100008, lo := 10, wd := 1, acc := .w1c, svc := true }
/-- CLK_MON_FAIL_OFF_FREQ: Bit m: OFF_FREQ of monitor m (Table 16-7) (R428, chapter 16). -/
def F.CLK_MON_FAIL_OFF_FREQ : Fld := { base := 0x10000c, lo := 0, wd := 8, acc := .w1c, svc := true }
/-- CLK_FCNT_CTL_SRC: 0 FIO, 1 XO, 2 cluster, 3 plane, 4 APLL1 1.0 GHz, 5 APLL1 500 MHz, 6 APLL2, 7 PCIe application, 8 system group (core 0), 9 peripheral group, 10 to 13 REFIN0 to REFIN3, 14 recovered clock of LANE ÷ 64, 15 always-on RC; 16 to 31 set CFG_ERR (R428, chapter 16). -/
def F.CLK_FCNT_CTL_SRC : Fld := { base := 0x100010, lo := 0, wd := 5, acc := .rw, svc := true }
/-- CLK_FCNT_CTL_REF: 0 FIO, 1 XO (R428, chapter 16). -/
def F.CLK_FCNT_CTL_REF : Fld := { base := 0x100010, lo := 5, wd := 1, acc := .rw, svc := true }
/-- CLK_FCNT_CTL_GATE: 2^GATE reference cycles; below 10 acts as 10, above 24 as 24 (R428, chapter 16). -/
def F.CLK_FCNT_CTL_GATE : Fld := { base := 0x100010, lo := 6, wd := 5, acc := .rw, rst := 0x10, svc := true }
/-- CLK_FCNT_CTL_LANE: Lane for SRC 14 (R428, chapter 16). -/
def F.CLK_FCNT_CTL_LANE : Fld := { base := 0x100010, lo := 11, wd := 7, acc := .rw, svc := true }
/-- CLK_FCNT_CTL_START: R424 (R428, chapter 16). -/
def F.CLK_FCNT_CTL_START : Fld := { base := 0x100010, lo := 18, wd := 1, acc := .wo, own := true, svc := true }
/-- CLK_FCNT_RESULT_COUNT: Source cycles counted, saturating (R428, chapter 16). -/
def F.CLK_FCNT_RESULT_COUNT : Fld := { base := 0x100014, lo := 0, wd := 32, acc := .ro, svc := true }
/-- CLK_FCNT_STATUS_DONE: Count complete (R428, chapter 16). -/
def F.CLK_FCNT_STATUS_DONE : Fld := { base := 0x100018, lo := 0, wd := 1, acc := .ro, svc := true }
/-- CLK_FCNT_STATUS_TMO: Reference timed out (R428, chapter 16). -/
def F.CLK_FCNT_STATUS_TMO : Fld := { base := 0x100018, lo := 1, wd := 1, acc := .ro, svc := true }
/-- CLK_FCNT_STATUS_BUSY: Count running (R428, chapter 16). -/
def F.CLK_FCNT_STATUS_BUSY : Fld := { base := 0x100018, lo := 2, wd := 1, acc := .ro, svc := true }
/-- TIM_CFG_OPTION: 0 option 1, 1 option 2 (R428, chapter 16). -/
def F.TIM_CFG_OPTION : Fld := { base := 0x200000, lo := 0, wd := 1, acc := .rwl }
/-- TIM_CFG_QL_EN: R408 (R428, chapter 16). -/
def F.TIM_CFG_QL_EN : Fld := { base := 0x200000, lo := 1, wd := 1, acc := .rw, rst := 0x1, svc := true }
/-- TIM_CFG_REVERT: R408 (R428, chapter 16). -/
def F.TIM_CFG_REVERT : Fld := { base := 0x200000, lo := 2, wd := 1, acc := .rw, svc := true }
/-- TIM_CFG_BW: 0b00 0.1 Hz, 0b01 1 Hz, 0b10 3 Hz, 0b11 10 Hz (R428, chapter 16). -/
def F.TIM_CFG_BW : Fld := { base := 0x200000, lo := 3, wd := 2, acc := .rw, rst := 0x1, svc := true }
/-- TIM_CFG_DNU_BACK: R415 (R428, chapter 16). -/
def F.TIM_CFG_DNU_BACK : Fld := { base := 0x200000, lo := 5, wd := 1, acc := .rw, rst := 0x1, svc := true }
/-- TIM_CFG_OWN_QL: Own QL; the host writes 0xA for option 2 (R428, chapter 16). -/
def F.TIM_CFG_OWN_QL : Fld := { base := 0x200000, lo := 6, wd := 4, acc := .rw, rst := 0xb, svc := true }
/-- TIM_CFG_MODE: 0b00 automatic, 0b01 FREERUN, 0b10 HOLDOVER; 0b11 acts as 0b00 (R428, chapter 16). -/
def F.TIM_CFG_MODE : Fld := { base := 0x200000, lo := 10, wd := 2, acc := .rw, svc := true }
/-- TIM_CFG_FORCE: Forced slot 0 to 7; 8 to 15 none (R428, chapter 16). -/
def F.TIM_CFG_FORCE : Fld := { base := 0x200000, lo := 12, wd := 4, acc := .rw, rst := 0xf, svc := true }
/-- TIM_CFG_HO_AVG: History time in s, reset 60 s; 0 acts as 1 (R428, chapter 16). -/
def F.TIM_CFG_HO_AVG : Fld := { base := 0x200000, lo := 16, wd := 10, acc := .rw, rst := 0x3c, svc := true }
/-- TIM_HO_SPEC: Holdover specification time in s (R414) (R428, chapter 16). -/
def F.TIM_HO_SPEC : Fld := { base := 0x200004, lo := 0, wd := 16, acc := .rw, svc := true }
/-- TIM_STATUS_STATE: 0b00 FREERUN, 0b01 ACQUIRE, 0b10 LOCKED, 0b11 HOLDOVER (R428, chapter 16). -/
def F.TIM_STATUS_STATE : Fld := { base := 0x200008, lo := 0, wd := 2, acc := .ro, svc := true }
/-- TIM_STATUS_SEL: Selected slot; 0x8 the active's sweep; 0xF none (R428, chapter 16). -/
def F.TIM_STATUS_SEL : Fld := { base := 0x200008, lo := 2, wd := 4, acc := .ro, rst := 0xf, svc := true }
/-- TIM_STATUS_QL_OUT: Transmitted QL (R415) (R428, chapter 16). -/
def F.TIM_STATUS_QL_OUT : Fld := { base := 0x200008, lo := 6, wd := 4, acc := .ro, rst := 0xf, svc := true }
/-- TIM_STATUS_HO_VALID: R413 (R428, chapter 16). -/
def F.TIM_STATUS_HO_VALID : Fld := { base := 0x200008, lo := 10, wd := 1, acc := .ro, svc := true }
/-- TIM_STATUS_HO_SPEC_RUN: Specification timer running (R428, chapter 16). -/
def F.TIM_STATUS_HO_SPEC_RUN : Fld := { base := 0x200008, lo := 11, wd := 1, acc := .ro, svc := true }
/-- TIM_FOFS: DPLL frequency minus XO nominal, 0.01 ppb units, two's complement (R428, chapter 16). -/
def F.TIM_FOFS : Fld := { base := 0x20000c, lo := 0, wd := 32, acc := .ro, svc := true }
/-- TIM_PSTEP_SIZE: ps, two's complement, ±819,200 (R416) (R428, chapter 16). -/
def F.TIM_PSTEP_SIZE : Fld := { base := 0x200010, lo := 0, wd := 21, acc := .rw, svc := true }
/-- TIM_PSTEP_IVL: Sweeps between steps; 0 acts as 1 (R428, chapter 16). -/
def F.TIM_PSTEP_IVL : Fld := { base := 0x200010, lo := 21, wd := 8, acc := .rw, rst := 0x10, svc := true }
/-- TIM_PSTEP_GO: Start the series (R417) (R428, chapter 16). -/
def F.TIM_PSTEP_GO : Fld := { base := 0x200010, lo := 29, wd := 1, acc := .wo, own := true, svc := true }
/-- TIM_PSTEP_SN: Start sweep (R428, chapter 16). -/
def F.TIM_PSTEP_SN : Fld := { base := 0x200014, lo := 0, wd := 32, acc := .rw, svc := true }
/-- TIM_PSTEP_STATUS_REMAIN: ps still to apply (R428, chapter 16). -/
def F.TIM_PSTEP_STATUS_REMAIN : Fld := { base := 0x200018, lo := 0, wd := 21, acc := .ro, svc := true }
/-- TIM_PSTEP_STATUS_BUSY: Series running (R428, chapter 16). -/
def F.TIM_PSTEP_STATUS_BUSY : Fld := { base := 0x200018, lo := 21, wd := 1, acc := .ro, svc := true }
/-- TIM_PSTEP_STATUS_LATE: R417 (R428, chapter 16). -/
def F.TIM_PSTEP_STATUS_LATE : Fld := { base := 0x200018, lo := 22, wd := 1, acc := .w1c, svc := true }
/-- TIM_PPS_TS_SN: SN of the last PPS_IN edge (R428, chapter 16). -/
def F.TIM_PPS_TS_SN : Fld := { base := 0x200020, lo := 0, wd := 32, acc := .ro, svc := true }
/-- TIM_PPS_TS_OFS: Offset from the tick in ns (R428, chapter 16). -/
def F.TIM_PPS_TS_OFS : Fld := { base := 0x200024, lo := 0, wd := 11, acc := .ro, svc := true }
/-- TIM_OUT_SYNC_EN: R418 (R428, chapter 16). -/
def F.TIM_OUT_SYNC_EN : Fld := { base := 0x200028, lo := 0, wd := 1, acc := .rw, rst := 0x1, svc := true }
/-- TIM_PPS_OUT_OFS: ns, 0 to 999,999,999 (R428, chapter 16). -/
def F.TIM_PPS_OUT_OFS : Fld := { base := 0x20002c, lo := 0, wd := 30, acc := .rw, svc := true }
/-- TIM_PPS_OUT_EN: PPS_OUT enabled (R428, chapter 16). -/
def F.TIM_PPS_OUT_EN : Fld := { base := 0x20002c, lo := 30, wd := 1, acc := .rw, svc := true }
/-- TIM_CFG2_DISQ_PPM: ppm; above 50 acts as 50 (R428, chapter 16). -/
def F.TIM_CFG2_DISQ_PPM : Fld := { base := 0x200030, lo := 0, wd := 8, acc := .rw, rst := 0xc, svc := true }
/-- TIM_CFG2_REQ_PPM: ppm; above DISQ_PPM acts as DISQ_PPM (R428, chapter 16). -/
def F.TIM_CFG2_REQ_PPM : Fld := { base := 0x200030, lo := 8, wd := 8, acc := .rw, rst := 0xa, svc := true }
/-- TIM_CLKOUT_FSEL: 0 off, 1 8 kHz, 2 10 MHz, 3 25 MHz, 4 50 MHz, 5 100 MHz, 6 125 MHz, 7 156.25 MHz, 8 312.5 MHz, 9 610.3515625 kHz; 10 to 15 off, set CFG_ERR (R428, chapter 16). -/
def F.TIM_CLKOUT_FSEL : Fld := { base := 0x200040, s1 := 0x0, n2 := 4, s2 := 4, count := 4, lo := 0, wd := 4, acc := .rw, svc := true }
/-- TIM_CLKOUT_SQ: R420 (R428, chapter 16). -/
def F.TIM_CLKOUT_SQ : Fld := { base := 0x200040, s1 := 0x0, n2 := 4, s2 := 4, count := 4, lo := 4, wd := 1, acc := .rw, rst := 0x1, svc := true }
/-- TIM_CAND_SRC: 0x00 to 0x7F lane; 0x80 to 0x83 REFIN0 to REFIN3; others none (R428, chapter 16). -/
def F.TIM_CAND_SRC : Fld := { base := 0x200100, s1 := 0x0, n2 := 8, s2 := 16, count := 8, lo := 0, wd := 8, acc := .rw, rst := 0xff, svc := true }
/-- TIM_CAND_EN: Slot enabled (R428, chapter 16). -/
def F.TIM_CAND_EN : Fld := { base := 0x200100, s1 := 0x0, n2 := 8, s2 := 16, count := 8, lo := 8, wd := 1, acc := .rw, svc := true }
/-- TIM_CAND_PRIO: 0 highest (R428, chapter 16). -/
def F.TIM_CAND_PRIO : Fld := { base := 0x200100, s1 := 0x0, n2 := 8, s2 := 16, count := 8, lo := 9, wd := 4, acc := .rw, svc := true }
/-- TIM_CAND_QL_HOST_SEL: R405 (R428, chapter 16). -/
def F.TIM_CAND_QL_HOST_SEL : Fld := { base := 0x200100, s1 := 0x0, n2 := 8, s2 := 16, count := 8, lo := 13, wd := 1, acc := .rw, svc := true }
/-- TIM_CAND_QL_HOST: Host QL (R428, chapter 16). -/
def F.TIM_CAND_QL_HOST : Fld := { base := 0x200100, s1 := 0x0, n2 := 8, s2 := 16, count := 8, lo := 14, wd := 4, acc := .rw, rst := 0xf, svc := true }
/-- TIM_CAND_WTR: Wait-to-restore in s, reset 300 s (R428, chapter 16). -/
def F.TIM_CAND_WTR : Fld := { base := 0x200100, s1 := 0x0, n2 := 8, s2 := 16, count := 8, lo := 18, wd := 10, acc := .rw, rst := 0x12c, svc := true }
/-- TIM_CAND_FREQ_HZ: REFIN nominal frequency, integer Hz (R428, chapter 16). -/
def F.TIM_CAND_FREQ_HZ : Fld := { base := 0x200104, s1 := 0x0, n2 := 8, s2 := 16, count := 8, lo := 0, wd := 30, acc := .rw, svc := true }
/-- TIM_CAND_FREQ_FRAC: Fraction in 1/256 Hz (R428, chapter 16). -/
def F.TIM_CAND_FREQ_FRAC : Fld := { base := 0x200108, s1 := 0x0, n2 := 8, s2 := 16, count := 8, lo := 0, wd := 8, acc := .rw, svc := true }
/-- TIM_CAND_STATUS_QUAL: Qualified (R406) (R428, chapter 16). -/
def F.TIM_CAND_STATUS_QUAL : Fld := { base := 0x20010c, s1 := 0x0, n2 := 8, s2 := 16, count := 8, lo := 0, wd := 1, acc := .ro, svc := true }
/-- TIM_CAND_STATUS_WTR_RUN: Wait-to-restore running (R428, chapter 16). -/
def F.TIM_CAND_STATUS_WTR_RUN : Fld := { base := 0x20010c, s1 := 0x0, n2 := 8, s2 := 16, count := 8, lo := 1, wd := 1, acc := .ro, svc := true }
/-- TIM_CAND_STATUS_QL: QL in use (R405) (R428, chapter 16). -/
def F.TIM_CAND_STATUS_QL : Fld := { base := 0x20010c, s1 := 0x0, n2 := 8, s2 := 16, count := 8, lo := 2, wd := 4, acc := .ro, rst := 0xf, svc := true }
/-- TIM_CAND_STATUS_LT: Accepted LT (R428, chapter 16). -/
def F.TIM_CAND_STATUS_LT : Fld := { base := 0x20010c, s1 := 0x0, n2 := 8, s2 := 16, count := 8, lo := 6, wd := 1, acc := .ro, svc := true }
/-- TIM_CAND_STATUS_OFS: Offset of the last window, 10 ppb units, two's complement (R428, chapter 16). -/
def F.TIM_CAND_STATUS_OFS : Fld := { base := 0x20010c, s1 := 0x0, n2 := 8, s2 := 16, count := 8, lo := 8, wd := 24, acc := .ro, svc := true }
/-- PMN_STATUS_OBJECTS: Monitored objects, 0 to 4096 (R451, chapter 17). -/
def F.PMN_STATUS_OBJECTS : Fld := { base := 0x2400000, lo := 0, wd := 13, acc := .ro, svc := true }
/-- PMN_STATUS_ALIGNED: PM_ALIGN applied since reset (R451, chapter 17). -/
def F.PMN_STATUS_ALIGNED : Fld := { base := 0x2400000, lo := 13, wd := 1, acc := .ro, svc := true }
/-- PMN_TIME_SEC_OF_DAY: Current second of day (R451, chapter 17). -/
def F.PMN_TIME_SEC_OF_DAY : Fld := { base := 0x2400004, lo := 0, wd := 17, acc := .ro, svc := true }
/-- PMN_DAY_DAY: Day count (R451, chapter 17). -/
def F.PMN_DAY_DAY : Fld := { base := 0x2400008, lo := 0, wd := 17, acc := .ro, svc := true }
/-- PMN_TAG_CFG_GRATE: Grain tag interval 2^GRATE sweeps; above 20 acts as 20 (R451, chapter 17). -/
def F.PMN_TAG_CFG_GRATE : Fld := { base := 0x2400010, lo := 0, wd := 5, acc := .rw, rst := 0xa, svc := true }
/-- PMN_TAG_CFG_GEN: R447 (R451, chapter 17). -/
def F.PMN_TAG_CFG_GEN : Fld := { base := 0x2400010, lo := 5, wd := 1, acc := .rw, svc := true }
/-- PMN_TAG_CFG_DRATE: Descriptor tag interval 2^DRATE; above 20 acts as 20 (R451, chapter 17). -/
def F.PMN_TAG_CFG_DRATE : Fld := { base := 0x2400010, lo := 6, wd := 5, acc := .rw, rst := 0xa, svc := true }
/-- PMN_TAG_CFG_DEN: R448 (R451, chapter 17). -/
def F.PMN_TAG_CFG_DEN : Fld := { base := 0x2400010, lo := 11, wd := 1, acc := .rw, svc := true }
/-- PMN_PERF_CTL_SNAP: R446 (R451, chapter 17). -/
def F.PMN_PERF_CTL_SNAP : Fld := { base := 0x2400020, lo := 0, wd := 1, acc := .wo, own := true, svc := true }
/-- PMN_PERF_CTL_CLEAR: R446 (R451, chapter 17). -/
def F.PMN_PERF_CTL_CLEAR : Fld := { base := 0x2400020, lo := 1, wd := 1, acc := .wo, own := true, svc := true }
/-- PMN_PERF_STATUS_DONE: Snapshot taken (R451, chapter 17). -/
def F.PMN_PERF_STATUS_DONE : Fld := { base := 0x2400024, lo := 0, wd := 1, acc := .ro, svc := true }
/-- PMN_PERF_SNAP_SN: SN of the snapshot tick (R451, chapter 17). -/
def F.PMN_PERF_SNAP_SN : Fld := { base := 0x2400028, lo := 0, wd := 32, acc := .ro, svc := true }
/-- PMN_PERF_SEL_EVT: Table 17-10, n = 0 to 31 (R451, chapter 17). -/
def F.PMN_PERF_SEL_EVT : Fld := { base := 0x2400100, s1 := 0x0, n2 := 32, s2 := 4, count := 32, lo := 0, wd := 8, acc := .rw, own := true, svc := true }
/-- PMN_PERF_SEL_ARG: Argument (R451, chapter 17). -/
def F.PMN_PERF_SEL_ARG : Fld := { base := 0x2400100, s1 := 0x0, n2 := 32, s2 := 4, count := 32, lo := 8, wd := 8, acc := .rw, rst := 0xff, own := true, svc := true }
/-- PMN_PERF_CNT_LO: Snapshot count [31:0] (R451, chapter 17). -/
def F.PMN_PERF_CNT_LO : Fld := { base := 0x2400200, s1 := 0x0, n2 := 32, s2 := 8, count := 32, lo := 0, wd := 32, acc := .ro, svc := true }
/-- PMN_PERF_CNT_HI: Snapshot count [47:32] (R451, chapter 17). -/
def F.PMN_PERF_CNT_HI : Fld := { base := 0x2400204, s1 := 0x0, n2 := 32, s2 := 8, count := 32, lo := 0, wd := 16, acc := .ro, svc := true }
/-- PMN_PERF_CNT_OVF: Saturated at the snapshot (R451, chapter 17). -/
def F.PMN_PERF_CNT_OVF : Fld := { base := 0x2400204, s1 := 0x0, n2 := 32, s2 := 8, count := 32, lo := 31, wd := 1, acc := .ro, svc := true }
/-- PMN_MSP_CFG_DIV: Table 17-9, n = 0 to 15 (R451, chapter 17). -/
def F.PMN_MSP_CFG_DIV : Fld := { base := 0x2400400, s1 := 0x0, n2 := 16, s2 := 4, count := 16, lo := 0, wd := 2, acc := .rw, svc := true }
/-- PMN_MSP_STATUS_CHAN: Channel carried (R451, chapter 17). -/
def F.PMN_MSP_STATUS_CHAN : Fld := { base := 0x2400440, s1 := 0x0, n2 := 16, s2 := 4, count := 16, lo := 0, wd := 8, acc := .ro, svc := true }
/-- PMN_MSP_STATUS_RX_ROUTED: Receive direction routed to the port (R451, chapter 17). -/
def F.PMN_MSP_STATUS_RX_ROUTED : Fld := { base := 0x2400440, s1 := 0x0, n2 := 16, s2 := 4, count := 16, lo := 8, wd := 1, acc := .ro, svc := true }
/-- PMN_MSP_STATUS_TX_ROUTED: Transmit direction routed from the port (R451, chapter 17). -/
def F.PMN_MSP_STATUS_TX_ROUTED : Fld := { base := 0x2400440, s1 := 0x0, n2 := 16, s2 := 4, count := 16, lo := 9, wd := 1, acc := .ro, svc := true }
/-- PMN_MSP_STATUS_OVF: R443 (R451, chapter 17). -/
def F.PMN_MSP_STATUS_OVF : Fld := { base := 0x2400440, s1 := 0x0, n2 := 16, s2 := 4, count := 16, lo := 10, wd := 1, acc := .w1c, svc := true }
/-- PMN_CH_CNT_RX_WORDS: Channel c words received, saturating at 0xFFFF_FFFF (R451, chapter 17). -/
def F.PMN_CH_CNT_RX_WORDS : Fld := { base := 0x2404000, s1 := 0x0, n2 := 256, s2 := 32, count := 256, lo := 0, wd := 32, acc := .rcl, svc := true }
/-- PMN_CH_CNT_RX_ERR: Words received from uncorrectable codewords (R441) (R451, chapter 17). -/
def F.PMN_CH_CNT_RX_ERR : Fld := { base := 0x2404004, s1 := 0x0, n2 := 256, s2 := 32, count := 256, lo := 0, wd := 32, acc := .rcl, svc := true }
/-- PMN_CH_CNT_LOST: Received words lost (R443, R444) (R451, chapter 17). -/
def F.PMN_CH_CNT_LOST : Fld := { base := 0x2404008, s1 := 0x0, n2 := 256, s2 := 32, count := 256, lo := 0, wd := 32, acc := .rcl, svc := true }
/-- PMN_CH_CNT_TX_IDLE: Idle words sent for lack of a queued word (R451, chapter 17). -/
def F.PMN_CH_CNT_TX_IDLE : Fld := { base := 0x240400c, s1 := 0x0, n2 := 256, s2 := 32, count := 256, lo := 0, wd := 32, acc := .rcl, svc := true }
/-- PMN_CH_CNT_TX_DISC: Transmit words discarded: full queue, or MCT record for an unrouted channel (R347) (R451, chapter 17). -/
def F.PMN_CH_CNT_TX_DISC : Fld := { base := 0x2404010, s1 := 0x0, n2 := 256, s2 := 32, count := 256, lo := 0, wd := 32, acc := .rcl, svc := true }
/-- SEC_STATUS_LOCKED: SEC lock in force (R477, chapter 18). -/
def F.SEC_STATUS_LOCKED : Fld := { base := 0x2800000, lo := 0, wd := 1, acc := .ro, svc := true }
/-- SEC_STATUS_PUSH_DIS: CAL_POLICY.PUSH_DIS (R477, chapter 18). -/
def F.SEC_STATUS_PUSH_DIS : Fld := { base := 0x2800000, lo := 1, wd := 1, acc := .ro, svc := true }
/-- SEC_STATUS_DBG: LOCK.DBG in force (R477, chapter 18). -/
def F.SEC_STATUS_DBG : Fld := { base := 0x2800000, lo := 2, wd := 2, acc := .ro, svc := true }
/-- SEC_STATUS_SPARES: Blank spares, 0 to 64 (R477, chapter 18). -/
def F.SEC_STATUS_SPARES : Fld := { base := 0x2800000, lo := 4, wd := 7, acc := .ro, rst := 0x40, svc := true }
/-- SEC_STATUS_SVN_FLOOR: R473 (R477, chapter 18). -/
def F.SEC_STATUS_SVN_FLOOR : Fld := { base := 0x2800000, lo := 16, wd := 16, acc := .ro, svc := true }
/-- SEC_SESS_REQ_CLASS: Class code (Table 18-2) (R477, chapter 18). -/
def F.SEC_SESS_REQ_CLASS : Fld := { base := 0x2800004, lo := 0, wd := 3, acc := .rw, svc := true }
/-- SEC_SESS_REQ_FUSE: R469 (R477, chapter 18). -/
def F.SEC_SESS_REQ_FUSE : Fld := { base := 0x2800004, lo := 3, wd := 1, acc := .rw, svc := true }
/-- SEC_SESS_RINGS_LO: Ring mask [31:0], [63:32] (R477, chapter 18). -/
def F.SEC_SESS_RINGS_LO : Fld := { base := 0x2800008, lo := 0, wd := 32, acc := .rw, svc := true }
/-- SEC_SESS_RINGS_HI: Ring mask [31:0], [63:32] (R477, chapter 18). -/
def F.SEC_SESS_RINGS_HI : Fld := { base := 0x280000c, lo := 0, wd := 32, acc := .rw, svc := true }
/-- SEC_SESS_HNONCE_LO: N_H (R477, chapter 18). -/
def F.SEC_SESS_HNONCE_LO : Fld := { base := 0x2800010, lo := 0, wd := 32, acc := .rw, svc := true }
/-- SEC_SESS_HNONCE_HI: N_H (R477, chapter 18). -/
def F.SEC_SESS_HNONCE_HI : Fld := { base := 0x2800014, lo := 0, wd := 32, acc := .rw, svc := true }
/-- SEC_SESS_CTL_OPEN: R455 (R477, chapter 18). -/
def F.SEC_SESS_CTL_OPEN : Fld := { base := 0x2800018, lo := 0, wd := 1, acc := .wo, own := true, svc := true }
/-- SEC_SESS_CTL_RESP: R455 (R477, chapter 18). -/
def F.SEC_SESS_CTL_RESP : Fld := { base := 0x2800018, lo := 1, wd := 1, acc := .wo, own := true, svc := true }
/-- SEC_SESS_CTL_CLOSE: R460 (R477, chapter 18). -/
def F.SEC_SESS_CTL_CLOSE : Fld := { base := 0x2800018, lo := 2, wd := 1, acc := .wo, own := true, svc := true }
/-- SEC_SESS_CTL_SLOT: Slot to close (R477, chapter 18). -/
def F.SEC_SESS_CTL_SLOT : Fld := { base := 0x2800018, lo := 3, wd := 4, acc := .wo, own := true, svc := true }
/-- SEC_SESS_CLOSE_TOKEN: R460 (R477, chapter 18). -/
def F.SEC_SESS_CLOSE_TOKEN : Fld := { base := 0x280001c, lo := 0, wd := 32, acc := .rw, svc := true }
/-- SEC_SESS_DNONCE_LO: N_D (R477, chapter 18). -/
def F.SEC_SESS_DNONCE_LO : Fld := { base := 0x2800020, lo := 0, wd := 32, acc := .ro, svc := true }
/-- SEC_SESS_DNONCE_HI: N_D (R477, chapter 18). -/
def F.SEC_SESS_DNONCE_HI : Fld := { base := 0x2800024, lo := 0, wd := 32, acc := .ro, svc := true }
/-- SEC_SESS_STATUS_STATE: 0 IDLE, 1 WAIT_DEVICE, 2 CHALLENGE, 3 OPEN, 4 FAIL, 5 to 7 reserved (R477, chapter 18). -/
def F.SEC_SESS_STATUS_STATE : Fld := { base := 0x2800030, lo := 0, wd := 3, acc := .ro, svc := true }
/-- SEC_SESS_STATUS_SLOT: Slot of the exchange (R477, chapter 18). -/
def F.SEC_SESS_STATUS_SLOT : Fld := { base := 0x2800030, lo := 3, wd := 4, acc := .ro, rst := 0xf, svc := true }
/-- SEC_SESS_STATUS_FAIL: Table 18-3 (R477, chapter 18). -/
def F.SEC_SESS_STATUS_FAIL : Fld := { base := 0x2800030, lo := 7, wd := 4, acc := .ro, svc := true }
/-- SEC_SESS_STATUS_COLLIDE: R458 (R477, chapter 18). -/
def F.SEC_SESS_STATUS_COLLIDE : Fld := { base := 0x2800030, lo := 11, wd := 1, acc := .w1c, svc := true }
/-- SEC_SESS_STATUS_LOCKOUT: Lockout left for the requested class, in s (R477, chapter 18). -/
def F.SEC_SESS_STATUS_LOCKOUT : Fld := { base := 0x2800030, lo := 16, wd := 16, acc := .ro, svc := true }
/-- SEC_SESS_OPEN_TOKEN: Token of the last open (R477, chapter 18). -/
def F.SEC_SESS_OPEN_TOKEN : Fld := { base := 0x2800034, lo := 0, wd := 32, acc := .ro, svc := true }
/-- SEC_SESS_DPROOF: P_D word w, w = 0 to 7 (R477, chapter 18). -/
def F.SEC_SESS_DPROOF : Fld := { base := 0x2800040, s1 := 0x0, n2 := 8, s2 := 4, count := 8, lo := 0, wd := 32, acc := .ro, svc := true }
/-- SEC_SESS_RESP: P_H word w, w = 0 to 7 (R477, chapter 18). -/
def F.SEC_SESS_RESP : Fld := { base := 0x2800060, s1 := 0x0, n2 := 8, s2 := 4, count := 8, lo := 0, wd := 32, acc := .wo, svc := true }
/-- SEC_SESS_SLOT_OPEN: Slot s open, s = 0 to 14 (R477, chapter 18). -/
def F.SEC_SESS_SLOT_OPEN : Fld := { base := 0x2800080, s1 := 0x0, n2 := 15, s2 := 4, count := 15, lo := 0, wd := 1, acc := .ro, svc := true }
/-- SEC_SESS_SLOT_CLASS: Class code (R477, chapter 18). -/
def F.SEC_SESS_SLOT_CLASS : Fld := { base := 0x2800080, s1 := 0x0, n2 := 15, s2 := 4, count := 15, lo := 1, wd := 3, acc := .ro, svc := true }
/-- SEC_SESS_SLOT_FUSE: Opened with FUSE = 1 (R477, chapter 18). -/
def F.SEC_SESS_SLOT_FUSE : Fld := { base := 0x2800080, s1 := 0x0, n2 := 15, s2 := 4, count := 15, lo := 4, wd := 1, acc := .ro, svc := true }
/-- SEC_FUSE_IDX: Logical word to read or program (R477, chapter 18). -/
def F.SEC_FUSE_IDX : Fld := { base := 0x28000c0, lo := 0, wd := 8, acc := .rw, svc := true }
/-- SEC_FUSE_RD_DATA: Logical value (R465) (R477, chapter 18). -/
def F.SEC_FUSE_RD_DATA : Fld := { base := 0x28000c4, lo := 0, wd := 32, acc := .ro, svc := true }
/-- SEC_FUSE_RD_STAT_STATE: 0b00 blank, 0b01 valid, 0b10 failed (R477, chapter 18). -/
def F.SEC_FUSE_RD_STAT_STATE : Fld := { base := 0x28000c8, lo := 0, wd := 2, acc := .ro, svc := true }
/-- SEC_FUSE_RD_STAT_PHYS: Physical word in use (R477, chapter 18). -/
def F.SEC_FUSE_RD_STAT_PHYS : Fld := { base := 0x28000c8, lo := 2, wd := 9, acc := .ro, svc := true }
/-- SEC_FUSE_RD_STAT_SECRET: Secret word; DATA reads 0 (R477, chapter 18). -/
def F.SEC_FUSE_RD_STAT_SECRET : Fld := { base := 0x28000c8, lo := 11, wd := 1, acc := .ro, svc := true }
/-- SEC_FUSE_PROG_DATA: Data to program (R477, chapter 18). -/
def F.SEC_FUSE_PROG_DATA : Fld := { base := 0x28000cc, lo := 0, wd := 32, acc := .rw, svc := true }
/-- SEC_FUSE_CTL_GO: R469 (R477, chapter 18). -/
def F.SEC_FUSE_CTL_GO : Fld := { base := 0x28000d0, lo := 0, wd := 1, acc := .wo, own := true, svc := true }
/-- SEC_FUSE_STATUS_BUSY: Programming in progress (R477, chapter 18). -/
def F.SEC_FUSE_STATUS_BUSY : Fld := { base := 0x28000d4, lo := 0, wd := 1, acc := .ro, svc := true }
/-- SEC_FUSE_STATUS_ERR: Table 18-7 (R477, chapter 18). -/
def F.SEC_FUSE_STATUS_ERR : Fld := { base := 0x28000d4, lo := 1, wd := 3, acc := .ro, svc := true }
/-- SEC_SMB_CNT_PEC_ERR: SMBus commands with a failed PEC, saturating (R477, chapter 18). -/
def F.SEC_SMB_CNT_PEC_ERR : Fld := { base := 0x28000e0, lo := 0, wd := 16, acc := .rcl, svc := true }
/-- SEC_SMB_CNT_AUTH_FAIL: Failed SMBus opens and wrong close tokens, saturating (R477, chapter 18). -/
def F.SEC_SMB_CNT_AUTH_FAIL : Fld := { base := 0x28000e0, lo := 16, wd := 16, acc := .rcl, svc := true }
/-- PWR_CFG_AUTO_RESTART: AO; R484 (R499, chapter 19). -/
def F.PWR_CFG_AUTO_RESTART : Fld := { base := 0x2c00000, lo := 0, wd := 1, acc := .rw, svc := true, ao := true }
/-- PWR_CFG_THERM_DLY: AO; ms, reset 10 ms (R496) (R499, chapter 19). -/
def F.PWR_CFG_THERM_DLY : Fld := { base := 0x2c00000, lo := 1, wd := 8, acc := .rw, rst := 0xa, svc := true, ao := true }
/-- PWR_CFG_THERM_HOLD: AO; s, reset 10 s (R499, chapter 19). -/
def F.PWR_CFG_THERM_HOLD : Fld := { base := 0x2c00000, lo := 9, wd := 8, acc := .rw, rst := 0xa, svc := true, ao := true }
/-- PWR_CFG_OFF_MIN: AO; ms, reset 1 ms; 0 acts as 1 (R481) (R499, chapter 19). -/
def F.PWR_CFG_OFF_MIN : Fld := { base := 0x2c00000, lo := 17, wd := 8, acc := .rw, rst := 0x1, svc := true, ao := true }
/-- PWR_CTL_STBY_REQ: R485 (R499, chapter 19). -/
def F.PWR_CTL_STBY_REQ : Fld := { base := 0x2c00004, lo := 0, wd := 1, acc := .wo, own := true, svc := true }
/-- PWR_CTL_STBY_ALLOW: R486 (R499, chapter 19). -/
def F.PWR_CTL_STBY_ALLOW : Fld := { base := 0x2c00004, lo := 1, wd := 1, acc := .rw, svc := true }
/-- PWR_STATUS_STATE: 0b01 ACTIVE, 0b10 ENTRY, 0b11 DOWN (R499, chapter 19). -/
def F.PWR_STATUS_STATE : Fld := { base := 0x2c00008, lo := 0, wd := 2, acc := .ro, rst := 0x1, svc := true }
/-- PWR_STATUS_LAST_OFF: AO; 0 VAO applied, 1 request, 2 agreed request, 3 thermal, 4 rail fault, 5 power-good timeout (R499, chapter 19). -/
def F.PWR_STATUS_LAST_OFF : Fld := { base := 0x2c00008, lo := 2, wd := 3, acc := .ro, svc := true, ao := true }
/-- PWR_STATUS_RAIL_FAULT: AO; bit 5 + r: rail r faulted or timed out (R499, chapter 19). -/
def F.PWR_STATUS_RAIL_FAULT : Fld := { base := 0x2c00008, lo := 5, wd := 6, acc := .ro, svc := true, ao := true }
/-- PWR_STATUS_REFUSED: R485 (R499, chapter 19). -/
def F.PWR_STATUS_REFUSED : Fld := { base := 0x2c00008, lo := 11, wd := 1, acc := .w1c, svc := true }
/-- PWR_WAKE_CFG_WAKE_N_EN: AO; Table 19-3 (R499, chapter 19). -/
def F.PWR_WAKE_CFG_WAKE_N_EN : Fld := { base := 0x2c0000c, lo := 0, wd := 1, acc := .rw, rst := 0x1, svc := true, ao := true }
/-- PWR_WAKE_CFG_SMB_EN: AO (R499, chapter 19). -/
def F.PWR_WAKE_CFG_SMB_EN : Fld := { base := 0x2c0000c, lo := 1, wd := 1, acc := .rw, rst := 0x1, svc := true, ao := true }
/-- PWR_WAKE_CFG_TIMER_EN: AO (R499, chapter 19). -/
def F.PWR_WAKE_CFG_TIMER_EN : Fld := { base := 0x2c0000c, lo := 2, wd := 1, acc := .rw, svc := true, ao := true }
/-- PWR_WAKE_TMR: AO; s (R499, chapter 19). -/
def F.PWR_WAKE_TMR : Fld := { base := 0x2c00010, lo := 0, wd := 20, acc := .rw, svc := true, ao := true }
/-- PWR_WAKE_STATUS_SRC: AO; bit 0 WAKE_N, 1 SMBus, 2 TW_ALIVE_IN, 3 timer, 4 restart (R499, chapter 19). -/
def F.PWR_WAKE_STATUS_SRC : Fld := { base := 0x2c00014, lo := 0, wd := 5, acc := .ro, svc := true, ao := true }
/-- PWR_WAKE_STATUS_REPLAYED: AO; R487 (R499, chapter 19). -/
def F.PWR_WAKE_STATUS_REPLAYED : Fld := { base := 0x2c00014, lo := 5, wd := 1, acc := .ro, svc := true, ao := true }
/-- PWR_STAGGER_K: 1 to 8; 0 acts as 1, above 8 as 8 (R499, chapter 19). -/
def F.PWR_STAGGER_K : Fld := { base := 0x2c00018, lo := 0, wd := 4, acc := .rw, rst := 0x2, svc := true }
/-- PWR_SEQ_ORDER: AO; rail r, r = 0 to 5; values above 5 act as 5 (R499, chapter 19). -/
def F.PWR_SEQ_ORDER : Fld := { base := 0x2c00020, s1 := 0x0, n2 := 6, s2 := 8, count := 6, lo := 0, wd := 3, acc := .rw, rsts := [0, 1, 2, 3, 4, 5], svc := true, ao := true }
/-- PWR_SEQ_DLY: AO; ms (R499, chapter 19). -/
def F.PWR_SEQ_DLY : Fld := { base := 0x2c00020, s1 := 0x0, n2 := 6, s2 := 8, count := 6, lo := 3, wd := 8, acc := .rw, rst := 0x1, svc := true, ao := true }
/-- PWR_SEQ_PG_TMO: AO; ms, reset 10 ms; 0 acts as 1 (R499, chapter 19). -/
def F.PWR_SEQ_PG_TMO : Fld := { base := 0x2c00020, s1 := 0x0, n2 := 6, s2 := 8, count := 6, lo := 11, wd := 8, acc := .rw, rst := 0xa, svc := true, ao := true }
/-- PWR_SEQ_PMB_ADDR: AO; PMBus address of rail r (R499, chapter 19). -/
def F.PWR_SEQ_PMB_ADDR : Fld := { base := 0x2c00020, s1 := 0x0, n2 := 6, s2 := 8, count := 6, lo := 19, wd := 7, acc := .rw, rsts := [64, 65, 66, 67, 68, 69], svc := true, ao := true }
/-- PWR_AVS_CFG_EN: R491 (R499, chapter 19). -/
def F.PWR_AVS_CFG_EN : Fld := { base := 0x2c00050, lo := 0, wd := 1, acc := .rw, svc := true }
/-- PWR_AVS_CFG_VMIN: mV, reset 675 mV (R499, chapter 19). -/
def F.PWR_AVS_CFG_VMIN : Fld := { base := 0x2c00050, lo := 1, wd := 10, acc := .rw, rst := 0x2a3, svc := true }
/-- PWR_AVS_CFG_VMAX: mV, reset 800 mV (R499, chapter 19). -/
def F.PWR_AVS_CFG_VMAX : Fld := { base := 0x2c00050, lo := 11, wd := 10, acc := .rw, rst := 0x320, svc := true }
/-- PWR_AVS_CFG_MARGIN: ps, reset 40 ps (R499, chapter 19). -/
def F.PWR_AVS_CFG_MARGIN : Fld := { base := 0x2c00050, lo := 21, wd := 8, acc := .rw, rst := 0x28, svc := true }
/-- PWR_AVS_STATUS_VSET: VCORE set point in mV, reset 750 mV (R499, chapter 19). -/
def F.PWR_AVS_STATUS_VSET : Fld := { base := 0x2c00054, lo := 0, wd := 10, acc := .ro, rst := 0x2ee, svc := true }
/-- PWR_AVS_STATUS_STEP: Step in progress (R499, chapter 19). -/
def F.PWR_AVS_STATUS_STEP : Fld := { base := 0x2c00054, lo := 10, wd := 1, acc := .ro, svc := true }
/-- PWR_AVS_STATUS_AT_LIMIT: At VMIN or VMAX (R499, chapter 19). -/
def F.PWR_AVS_STATUS_AT_LIMIT : Fld := { base := 0x2c00054, lo := 11, wd := 1, acc := .ro, svc := true }
/-- PWR_TEMP_CFG_WARN: °C, reset 105 °C (R499, chapter 19). -/
def F.PWR_TEMP_CFG_WARN : Fld := { base := 0x2c00060, lo := 0, wd := 8, acc := .rw, rst := 0x69, svc := true }
/-- PWR_TEMP_CFG_SHUT: °C, reset 115 °C (R499, chapter 19). -/
def F.PWR_TEMP_CFG_SHUT : Fld := { base := 0x2c00060, lo := 8, wd := 8, acc := .rw, rst := 0x73, svc := true }
/-- PWR_TEMP_MAX_NOW: Highest current reading, 0.25 °C, two's complement (R499, chapter 19). -/
def F.PWR_TEMP_MAX_NOW : Fld := { base := 0x2c00064, lo := 0, wd := 12, acc := .ro, svc := true }
/-- PWR_TEMP_MAX_PEAK: Highest reading since the last read; a read reloads NOW (R11) (R499, chapter 19). -/
def F.PWR_TEMP_MAX_PEAK : Fld := { base := 0x2c00064, lo := 16, wd := 12, acc := .rcl, svc := true }
/-- PWR_SENS_TEMP: Sensor s, s = 0 to 15; 0.25 °C, two's complement (R499, chapter 19). -/
def F.PWR_SENS_TEMP : Fld := { base := 0x2c00080, s1 := 0x0, n2 := 16, s2 := 4, count := 16, lo := 0, wd := 12, acc := .ro, svc := true }
/-- PWR_SENS_VOLT: Monitor v, v = 0 to 11; mV (R499, chapter 19). -/
def F.PWR_SENS_VOLT : Fld := { base := 0x2c000c0, s1 := 0x0, n2 := 12, s2 := 4, count := 12, lo := 0, wd := 12, acc := .ro, svc := true }
/-- PWR_SENS_PROC: Process monitor p, p = 0 to 7; slack in ps (R499, chapter 19). -/
def F.PWR_SENS_PROC : Fld := { base := 0x2c000f0, s1 := 0x0, n2 := 8, s2 := 4, count := 8, lo := 0, wd := 12, acc := .ro, svc := true }
/-- PWR_TEL_VOUT: Rail r output in mV (R499, chapter 19). -/
def F.PWR_TEL_VOUT : Fld := { base := 0x2c00140, s1 := 0x0, n2 := 6, s2 := 8, count := 6, lo := 0, wd := 16, acc := .ro, svc := true }
/-- PWR_TEL_IOUT: Rail r current in 10 mA (R499, chapter 19). -/
def F.PWR_TEL_IOUT : Fld := { base := 0x2c00140, s1 := 0x0, n2 := 6, s2 := 8, count := 6, lo := 16, wd := 16, acc := .ro, svc := true }
/-- PWR_TEL_TEMP: Regulator temperature in °C, two's complement (R499, chapter 19). -/
def F.PWR_TEL_TEMP : Fld := { base := 0x2c00144, s1 := 0x0, n2 := 6, s2 := 8, count := 6, lo := 0, wd := 8, acc := .ro, svc := true }
/-- PWR_TEL_ERR: Failed PMBus transactions, saturating (R493) (R499, chapter 19). -/
def F.PWR_TEL_ERR : Fld := { base := 0x2c00144, s1 := 0x0, n2 := 6, s2 := 8, count := 6, lo := 8, wd := 16, acc := .rcl, svc := true }
/-- GLB_SETUP_LOCK_LOCK: Writing 1 sets the lock; once set, read-only until device reset (R13, R504) (R508, chapter 20). -/
def F.GLB_SETUP_LOCK_LOCK : Fld := { base := 0x4, lo := 0, wd := 1, acc := .rwl, own := true }
/-- GLB_START_STATUS_FUSE_DONE: Fuse resolution complete (Table 20-1) (R508, chapter 20). -/
def F.GLB_START_STATUS_FUSE_DONE : Fld := { base := 0x8, lo := 0, wd := 1, acc := .ro }
/-- GLB_START_STATUS_MEM_INIT: Memory clearing complete (R501) (R508, chapter 20). -/
def F.GLB_START_STATUS_MEM_INIT : Fld := { base := 0x8, lo := 1, wd := 1, acc := .ro }
/-- GLB_START_STATUS_FUSE_FAIL_CNT: Logical fuse words resolved as failed, 0 to 256 (R508, chapter 20). -/
def F.GLB_START_STATUS_FUSE_FAIL_CNT : Fld := { base := 0x8, lo := 8, wd := 9, acc := .ro }
/-- GLB_ID_PART: Part number (R518, chapter 21). -/
def F.GLB_ID_PART : Fld := { base := 0x0, lo := 0, wd := 16, acc := .ro, rst := 0x2560 }
/-- GLB_ID_REV_LTR: Silicon revision letter: 0x0 A, 0x1 B, and so on (R518, chapter 21). -/
def F.GLB_ID_REV_LTR : Fld := { base := 0x0, lo := 16, wd := 4, acc := .ro }
/-- GLB_ID_REV_DIG: Silicon revision digit (R518, chapter 21). -/
def F.GLB_ID_REV_DIG : Fld := { base := 0x0, lo := 20, wd := 4, acc := .ro }
/-- GLB_ID_FAMILY: Dravmosol family code (R518, chapter 21). -/
def F.GLB_ID_FAMILY : Fld := { base := 0x0, lo := 24, wd := 8, acc := .ro, rst := 0x44 }
/-- GLB_BAR0_ERR_WR_DISC: BAR0 and SMBus writes discarded under R510 or R511, saturating at 0xFFFF (R518, chapter 21). -/
def F.GLB_BAR0_ERR_WR_DISC : Fld := { base := 0xc, lo := 0, wd := 16, acc := .rcl }
/-- GLB_BAR0_ERR_RD_ABORT: BAR0 reads completed with Completer Abort (R511), saturating at 0xFFFF (R518, chapter 21). -/
def F.GLB_BAR0_ERR_RD_ABORT : Fld := { base := 0xc, lo := 16, wd := 16, acc := .rcl }
/-- GLB_DEV_ID_LO: DEV_ID [31:0], logical fuse word 0 (R518, chapter 21). -/
def F.GLB_DEV_ID_LO : Fld := { base := 0x10, lo := 0, wd := 32, acc := .ro }
/-- GLB_DEV_ID_HI: DEV_ID [63:32], logical fuse word 1 (R518, chapter 21). -/
def F.GLB_DEV_ID_HI : Fld := { base := 0x14, lo := 0, wd := 32, acc := .ro }
/-- FRM_LANE_CFG_LANE_ID: o2 LANE_ID sent (R64) (R519, chapter 21). -/
def F.FRM_LANE_CFG_LANE_ID : Fld := { base := 0x800000, s1 := 0x1000, n2 := 1, s2 := 0, count := 128, lo := 0, wd := 12, acc := .rw, svc := true }
/-- FRM_LANE_CFG_BWD_SRC: Receiver reported in o5 (R70); reset is the lane's own number (R519, chapter 21). -/
def F.FRM_LANE_CFG_BWD_SRC : Fld := { base := 0x800000, s1 := 0x1000, n2 := 1, s2 := 0, count := 128, lo := 12, wd := 7, acc := .rw, rstIdx := true, svc := true }
/-- FRM_LANE_CFG_MDCA_K: MDC-A sub-rate k of R77, for both directions of the lane; 0b111 acts as 6 (R519, chapter 21). -/
def F.FRM_LANE_CFG_MDCA_K : Fld := { base := 0x800000, s1 := 0x1000, n2 := 1, s2 := 0, count := 128, lo := 19, wd := 3, acc := .rw, svc := true }
/-- FRM_LANE_CFG_TEST: o2 TEST sent (R519, chapter 21). -/
def F.FRM_LANE_CFG_TEST : Fld := { base := 0x800000, s1 := 0x1000, n2 := 1, s2 := 0, count := 128, lo := 22, wd := 1, acc := .rw, svc := true }
/-- FRM_TX_TTI: Trace byte b sent in o6 (R72), b = 0 to 63; packed under R514 (R519, chapter 21). -/
def F.FRM_TX_TTI : Fld := { base := 0x800040, s1 := 0x1000, n2 := 16, s2 := 4, count := 2048, lo := 0, wd := 32, acc := .rw, svc := true }
/-- GLB_GPIO_DIR_OE: Bit i: 1 drives GPIO[i] as an output; 0 leaves it an input (R524, chapter 21). -/
def F.GLB_GPIO_DIR_OE : Fld := { base := 0x20, lo := 0, wd := 16, acc := .rw, svc := true }
/-- GLB_GPIO_OUT_VAL: Bit i: level driven on GPIO[i] while it is an output (R524, chapter 21). -/
def F.GLB_GPIO_OUT_VAL : Fld := { base := 0x24, lo := 0, wd := 16, acc := .rw, svc := true }
/-- GLB_GPIO_IN_VAL: Bit i: level at the ball GPIO[i] (R524, chapter 21). -/
def F.GLB_GPIO_IN_VAL : Fld := { base := 0x28, lo := 0, wd := 16, acc := .ro, svc := true }
/-- MSIX_ADDR_LO: MSI-X table ADDR_LO (R520, chapter 21). -/
def F.MSIX_ADDR_LO : Fld := { base := 0x1004000, s1 := 0x0, n2 := 64, s2 := 16, count := 64, lo := 0, wd := 32, acc := .rw, svc := true }
/-- MSIX_ADDR_HI: MSI-X table ADDR_HI (R520, chapter 21). -/
def F.MSIX_ADDR_HI : Fld := { base := 0x1004004, s1 := 0x0, n2 := 64, s2 := 16, count := 64, lo := 0, wd := 32, acc := .rw, svc := true }
/-- MSIX_DATA: MSI-X table DATA (R520, chapter 21). -/
def F.MSIX_DATA : Fld := { base := 0x1004008, s1 := 0x0, n2 := 64, s2 := 16, count := 64, lo := 0, wd := 32, acc := .rw, svc := true }
/-- MSIX_CTL: MSI-X table CTL (R520, chapter 21). -/
def F.MSIX_CTL : Fld := { base := 0x100400c, s1 := 0x0, n2 := 64, s2 := 16, count := 64, lo := 0, wd := 1, acc := .rw, rst := 0x1, svc := true }
/-- MSIX_PBA: MSI-X pending bits (R520, chapter 21). -/
def F.MSIX_PBA : Fld := { base := 0x1005000, s1 := 0x0, n2 := 2, s2 := 4, count := 2, lo := 0, wd := 32, acc := .ro, svc := true }
/-- LEG_SEQ: Legacy page SEQ (R439, chapter 17). -/
def F.LEG_SEQ : Fld := { base := 0x2402000, lo := 0, wd := 32, acc := .ro }
/-- LEG_SN: Legacy page SN (R439, chapter 17). -/
def F.LEG_SN : Fld := { base := 0x2402004, lo := 0, wd := 32, acc := .ro }
/-- LEG_SEC_OF_DAY: Legacy page SEC_OF_DAY (R439, chapter 17). -/
def F.LEG_SEC_OF_DAY : Fld := { base := 0x2402008, lo := 0, wd := 17, acc := .ro }
/-- LEG_DAY: Legacy page DAY (R439, chapter 17). -/
def F.LEG_DAY : Fld := { base := 0x240200c, lo := 0, wd := 17, acc := .ro }
/-- LEG_VALID: Legacy page VALID (R439, chapter 17). -/
def F.LEG_VALID : Fld := { base := 0x2402010, lo := 0, wd := 1, acc := .ro }
/-- LEG_SUSPECT: Legacy page SUSPECT (R439, chapter 17). -/
def F.LEG_SUSPECT : Fld := { base := 0x2402010, lo := 1, wd := 1, acc := .ro }
/-- LEGL_BIP_ERR: Legacy lane BIP_ERR (R439, chapter 17). -/
def F.LEGL_BIP_ERR : Fld := { base := 0x2402040, s1 := 0x0, n2 := 128, s2 := 32, count := 128, lo := 0, wd := 32, acc := .ro }
/-- LEGL_BEI: Legacy lane BEI (R439, chapter 17). -/
def F.LEGL_BEI : Fld := { base := 0x2402044, s1 := 0x0, n2 := 128, s2 := 32, count := 128, lo := 0, wd := 32, acc := .ro }
/-- LEGL_FEC_CORR: Legacy lane FEC_CORR (R439, chapter 17). -/
def F.LEGL_FEC_CORR : Fld := { base := 0x2402048, s1 := 0x0, n2 := 128, s2 := 32, count := 128, lo := 0, wd := 32, acc := .ro }
/-- LEGL_FEC_UNCORR: Legacy lane FEC_UNCORR (R439, chapter 17). -/
def F.LEGL_FEC_UNCORR : Fld := { base := 0x240204c, s1 := 0x0, n2 := 128, s2 := 32, count := 128, lo := 0, wd := 32, acc := .ro }
/-- LEGL_FLAGS: Legacy lane FLAGS (R439, chapter 17). -/
def F.LEGL_FLAGS : Fld := { base := 0x2402050, s1 := 0x0, n2 := 128, s2 := 32, count := 128, lo := 0, wd := 6, acc := .ro }
/-- LEGL_COND: Legacy lane COND (R439, chapter 17). -/
def F.LEGL_COND : Fld := { base := 0x2402050, s1 := 0x0, n2 := 128, s2 := 32, count := 128, lo := 6, wd := 2, acc := .ro }
/-- LEGL_DEF: Legacy lane DEF (R439, chapter 17). -/
def F.LEGL_DEF : Fld := { base := 0x2402054, s1 := 0x0, n2 := 128, s2 := 32, count := 128, lo := 0, wd := 10, acc := .ro }
/-- LEGL_SN_ERR: Legacy lane SN_ERR (R439, chapter 17). -/
def F.LEGL_SN_ERR : Fld := { base := 0x2402058, s1 := 0x0, n2 := 128, s2 := 32, count := 128, lo := 0, wd := 32, acc := .ro }

/-- The register fields, part 0. -/
def fldPart0 : List Fld :=
  [F.LNE_CFG_PERS,
   F.LNE_CFG_TX_POL,
   F.LNE_CFG_RX_POL,
   F.LNE_CFG_TX_PRECODE,
   F.LNE_CFG_RX_PRECODE,
   F.LNE_CFG_ADAPT_MODE,
   F.LNE_CFG_LOS_TH,
   F.LNE_CTL_TX_EN,
   F.LNE_CTL_RX_EN,
   F.LNE_CTL_LB_MODE,
   F.LNE_CTL_PRBS_GEN_EN,
   F.LNE_CTL_PRBS_CHK_EN,
   F.LNE_CTL_PRBS_PAT,
   F.LNE_CTL_PRBS_INV,
   F.LNE_STATUS_TX_STATE,
   F.LNE_STATUS_SIG_DET,
   F.LNE_STATUS_RX_STATE,
   F.LNE_STATUS_LOS,
   F.LNE_STATUS_CDR_LOCK,
   F.LNE_STATUS_PRBS_SYNC,
   F.LNE_STATUS_RETRY_CNT,
   F.LNE_STATUS_CFG_ERR,
   F.LNE_STATUS_FIR_REJ,
   F.LNE_STATUS_LB_SLIP,
   F.LNE_STATUS_SNR,
   F.LNE_PRBS_ERR_ERR,
   F.LNE_PRBS_BITS_LO,
   F.LNE_PRBS_BITS_HI,
   F.LNE_TX_FIR_PRE3,
   F.LNE_TX_FIR_PRE2,
   F.LNE_TX_FIR_PRE1,
   F.LNE_TX_FIR_POST1,
   F.LNE_TX_FIR_MAIN,
   F.LNE_TX_CFG_SWING,
   F.LNE_QUAD_CFG_GROUP,
   F.LNE_QUAD_STATUS_PWR,
   F.LNE_QUAD_STATUS_PLL_LOCK,
   F.LNE_QUAD_STATUS_UNLOCK_CNT,
   F.LNE_RX_CTLE_PEAK,
   F.LNE_RX_DFE_TAP1]

/-- The register fields, part 1. -/
def fldPart1 : List Fld :=
  [F.LNE_RX_FFE_TAP,
   F.FRM_RX_CFG_PLESIO,
   F.FRM_RX_CFG_TIM_ACT,
   F.FRM_RX_CFG_TIM_CMP,
   F.FRM_RX_CFG_EXP_LANE_ID,
   F.FRM_RX_DEG_DEG_IVL,
   F.FRM_RX_DEG_DEG_THR,
   F.FRM_RX_DEG_DEG_M,
   F.FRM_RX_STATUS_FSTATE,
   F.FRM_RX_STATUS_SN_LOCK,
   F.FRM_RX_STATUS_DEF,
   F.FRM_RX_STATUS_COND,
   F.FRM_RX_STATUS_ACC_PERS,
   F.FRM_RX_STATUS_ACC_LANE_ID,
   F.FRM_RX_SN_SN,
   F.FRM_EXP_TTI,
   F.FRM_RX_TTI,
   F.MAP_LANE_CFG_MODE,
   F.MAP_LANE_CFG_WIDTH,
   F.MAP_LANE_CFG_RSFEC,
   F.MAP_LANE_CFG_FM_ERR_DROP,
   F.MAP_LANE_CFG_FM_MAXLEN,
   F.MAP_LANE_CFG_FAIL_ACT,
   F.MAP_LANE_FLX_GRP,
   F.MAP_LANE_FLX_PHY_NUM,
   F.MAP_LANE_STATUS_BLK_LOCK,
   F.MAP_LANE_STATUS_AM_LOCK,
   F.MAP_LANE_STATUS_HI_BER,
   F.MAP_LANE_STATUS_FLX_OH_LOCK,
   F.MAP_LANE_STATUS_FLX_MF_LOCK,
   F.MAP_LANE_STATUS_CFG_ERR,
   F.MAP_RJ_STATUS_OFFSET,
   F.MAP_RJ_STATUS_FREQ_ERR,
   F.MAP_FLX_GRP_CFG_GRP_NUM,
   F.MAP_FLX_GRP_CFG_EN,
   F.MAP_FLX_GRP_CFG_CA_WAIT,
   F.MAP_FLX_GRP_STATUS_TX_CAL,
   F.MAP_FLX_GRP_STATUS_RX_CAL,
   F.MAP_FLX_GRP_STATUS_SWITCHING,
   F.MAP_LOESS_QSTAT_FREE_BLK]

/-- The register fields, part 2. -/
def fldPart2 : List Fld :=
  [F.MAP_LOESS_QSTAT_MIN_FREE,
   F.MAP_LOESS_QCFG_LOW_TH,
   F.GLB_PLANE_CFG_WARN_TH,
   F.GLB_PLANE_CFG_RETIRE_TH,
   F.GLB_PLANE_CFG_AUTO_RETIRE,
   F.GLB_PLANE_STATUS_STATE,
   F.GLB_PLANE_STATUS_SLACK,
   F.GLB_PLANE_SLKMIN_MIN,
   F.GLB_PLANE_BEATERR_COUNT,
   F.GLB_TILTH_CFG_BATCH_TMO,
   F.GLB_TILTH_CFG_BCAST_EN,
   F.GLB_TILTH_STATUS_STATE,
   F.GLB_TILTH_STATUS_BATCH_OPEN,
   F.GLB_TILTH_STATUS_BATCH_RING,
   F.GLB_TILTH_TARGET_SN,
   F.GLB_TILTH_COMMITS,
   F.GLB_TILTH_CHAINS,
   F.GLB_TILTH_OCC_U_IN,
   F.GLB_TILTH_OCC_U_OUT,
   F.GLB_PROT_CFG_PSC_TMO,
   F.GLB_PROT_CFG_FOP_TMO,
   F.GLB_PROT_CFG_BRIDGE_HOLD,
   F.GLB_PROT_STATUS_GROUPS,
   F.GLB_PROT_SWCNT_SWITCHES,
   F.FRM_PSC_STATUS_CRC_ERR,
   F.FRM_PSC_STATUS_UNKNOWN,
   F.FRM_PSC_QUEUE_DEPTH,
   F.FRM_PSC_QUEUE_MAX,
   F.PTB_TBL_PGID,
   F.PTB_TBL_SIG,
   F.PTB_TBL_EN,
   F.PTB_TBL_SD_EN,
   F.PTB_TBL_REFRESH,
   F.PTB_TBL_COND,
   F.PTB_CFG_CLK_SEL,
   F.PTB_CFG_FRAME_LEN,
   F.PTB_CFG_P0_EN,
   F.PTB_CFG_P1_EN,
   F.PTB_PORT_ACC,
   F.PTB_PORT_REF]

/-- The register fields, part 3. -/
def fldPart3 : List Fld :=
  [F.PTB_PORT_ERR,
   F.TWN_CFG_EN,
   F.TWN_CFG_UNIT,
   F.TWN_CFG_AUTO_RESYNC,
   F.TWN_CFG_FAIL_MASK,
   F.TWN_CFG_HOLD_TMO,
   F.TWN_CFG2_RESYNC_TMO,
   F.TWN_STATUS_ROLE,
   F.TWN_STATUS_COUPLING,
   F.TWN_STATUS_LINK,
   F.TWN_STATUS_MATE_ALIVE,
   F.TWN_STATUS_MATE_ACTIVE,
   F.TWN_STATUS_MATE_FAIL,
   F.TWN_STATUS_LAST_CAUSE,
   F.TWN_LINK_STATUS_INFRAME,
   F.TWN_LINK_STATUS_DELAY,
   F.TWN_LINK_ERR,
   F.TWN_ALIGN_OFFSET,
   F.TWN_SIG_MISCNT,
   F.TWN_SIG_FAIL,
   F.TWN_HOLD,
   F.HIF_RING_BASE_LO,
   F.HIF_RING_BASE_HI,
   F.HIF_RING_CFG_LOG2_SIZE,
   F.HIF_RING_CFG_EN,
   F.HIF_RING_CFG_VEC,
   F.HIF_RING_CFG_MOD_CNT,
   F.HIF_RING_CFG_MOD_TIME,
   F.HIF_RING_WB_LO,
   F.HIF_RING_WB_HI,
   F.HIF_RING_CTL_RESET,
   F.HIF_RING_STATUS_STATE,
   F.HIF_RING_STATUS_SESS,
   F.HIF_RING_PIDX,
   F.HIF_RING_CIDX,
   F.HIF_RING_FAULT_LO,
   F.HIF_RING_FAULT_HI,
   F.HIF_CFG_ERR_VEC,
   F.HIF_CFG_NMI_VEC,
   F.HIF_DB_UNBOUND]

/-- The register fields, part 4. -/
def fldPart4 : List Fld :=
  [F.HIF_DB_ERR,
   F.HIF_STATUS_CFG_ERR,
   F.HIF_EVT_ROUTE,
   F.HIF_ATS_CFG_PREFETCH,
   F.HIF_ATS_CFG_PRI_TMO,
   F.HIF_ATS_STATUS_VALID,
   F.HIF_ATS_STATUS_PRG_OUT,
   F.HIF_ATS_MISS,
   F.HIF_ATS_INVAL,
   F.HIF_PRI_FAIL,
   F.ARB_CFG_WINDOW,
   F.ARB_CTL_FREEZE,
   F.ARB_STATUS_MODE,
   F.ARB_STATUS_MODE_CAUSE,
   F.ARB_STATUS_FROZEN,
   F.ARB_STATUS_DRAINED,
   F.ARB_STATUS_BACKOFF,
   F.ARB_NULL,
   F.ARB_IDLE,
   F.ARB_WEIGHT_W,
   F.ARB_RET_RET,
   F.CTL_CORE_STATUS_C0_STATE,
   F.CTL_CORE_STATUS_C1_STATE,
   F.CTL_CORE_STATUS_FW_READY,
   F.CTL_CORE_STATUS_FW_SRC,
   F.CTL_CORE_STATUS_SVN,
   F.CTL_WDT_CFG_TMO,
   F.CTL_WDT_CFG_KICK0,
   F.CTL_WDT_CFG_KICK1,
   F.CTL_BOOT_GO,
   F.CTL_BOOT_STAGE,
   F.CTL_BOOT_LEN,
   F.CTL_SP_STAT_CORR,
   F.CTL_SP_STAT_UNCORR,
   F.CTL_SP_STAT_BUSY,
   F.CTL_SP_STAT_DENY,
   F.CTL_MTX_PRIO_PRIO,
   F.DBG_CTL_HALT0,
   F.DBG_CTL_HALT1,
   F.DBG_CTL_WDT_HALT]

/-- The register fields, part 5. -/
def fldPart5 : List Fld :=
  [F.DBG_CTL_ARB_TEST,
   F.DBG_STATUS_HALTED,
   F.CLK_SEL_SYS,
   F.CLK_SEL_PER,
   F.CLK_DIV_CORE,
   F.CLK_DIV_MTX,
   F.CLK_DIV_DMA,
   F.CLK_STATUS_XO_OK,
   F.CLK_STATUS_XO_FAIL,
   F.CLK_STATUS_APLL_LOCK,
   F.CLK_STATUS_SYS_CUR,
   F.CLK_STATUS_PER_CUR,
   F.CLK_STATUS_SYS_RESCUE,
   F.CLK_STATUS_PER_RESCUE,
   F.CLK_STATUS_XO_LOSS,
   F.CLK_STATUS_CFG_ERR,
   F.CLK_MON_FAIL_OFF_FREQ,
   F.CLK_FCNT_CTL_SRC,
   F.CLK_FCNT_CTL_REF,
   F.CLK_FCNT_CTL_GATE,
   F.CLK_FCNT_CTL_LANE,
   F.CLK_FCNT_CTL_START,
   F.CLK_FCNT_RESULT_COUNT,
   F.CLK_FCNT_STATUS_DONE,
   F.CLK_FCNT_STATUS_TMO,
   F.CLK_FCNT_STATUS_BUSY,
   F.TIM_CFG_OPTION,
   F.TIM_CFG_QL_EN,
   F.TIM_CFG_REVERT,
   F.TIM_CFG_BW,
   F.TIM_CFG_DNU_BACK,
   F.TIM_CFG_OWN_QL,
   F.TIM_CFG_MODE,
   F.TIM_CFG_FORCE,
   F.TIM_CFG_HO_AVG,
   F.TIM_HO_SPEC,
   F.TIM_STATUS_STATE,
   F.TIM_STATUS_SEL,
   F.TIM_STATUS_QL_OUT,
   F.TIM_STATUS_HO_VALID]

/-- The register fields, part 6. -/
def fldPart6 : List Fld :=
  [F.TIM_STATUS_HO_SPEC_RUN,
   F.TIM_FOFS,
   F.TIM_PSTEP_SIZE,
   F.TIM_PSTEP_IVL,
   F.TIM_PSTEP_GO,
   F.TIM_PSTEP_SN,
   F.TIM_PSTEP_STATUS_REMAIN,
   F.TIM_PSTEP_STATUS_BUSY,
   F.TIM_PSTEP_STATUS_LATE,
   F.TIM_PPS_TS_SN,
   F.TIM_PPS_TS_OFS,
   F.TIM_OUT_SYNC_EN,
   F.TIM_PPS_OUT_OFS,
   F.TIM_PPS_OUT_EN,
   F.TIM_CFG2_DISQ_PPM,
   F.TIM_CFG2_REQ_PPM,
   F.TIM_CLKOUT_FSEL,
   F.TIM_CLKOUT_SQ,
   F.TIM_CAND_SRC,
   F.TIM_CAND_EN,
   F.TIM_CAND_PRIO,
   F.TIM_CAND_QL_HOST_SEL,
   F.TIM_CAND_QL_HOST,
   F.TIM_CAND_WTR,
   F.TIM_CAND_FREQ_HZ,
   F.TIM_CAND_FREQ_FRAC,
   F.TIM_CAND_STATUS_QUAL,
   F.TIM_CAND_STATUS_WTR_RUN,
   F.TIM_CAND_STATUS_QL,
   F.TIM_CAND_STATUS_LT,
   F.TIM_CAND_STATUS_OFS,
   F.PMN_STATUS_OBJECTS,
   F.PMN_STATUS_ALIGNED,
   F.PMN_TIME_SEC_OF_DAY,
   F.PMN_DAY_DAY,
   F.PMN_TAG_CFG_GRATE,
   F.PMN_TAG_CFG_GEN,
   F.PMN_TAG_CFG_DRATE,
   F.PMN_TAG_CFG_DEN,
   F.PMN_PERF_CTL_SNAP]

/-- The register fields, part 7. -/
def fldPart7 : List Fld :=
  [F.PMN_PERF_CTL_CLEAR,
   F.PMN_PERF_STATUS_DONE,
   F.PMN_PERF_SNAP_SN,
   F.PMN_PERF_SEL_EVT,
   F.PMN_PERF_SEL_ARG,
   F.PMN_PERF_CNT_LO,
   F.PMN_PERF_CNT_HI,
   F.PMN_PERF_CNT_OVF,
   F.PMN_MSP_CFG_DIV,
   F.PMN_MSP_STATUS_CHAN,
   F.PMN_MSP_STATUS_RX_ROUTED,
   F.PMN_MSP_STATUS_TX_ROUTED,
   F.PMN_MSP_STATUS_OVF,
   F.PMN_CH_CNT_RX_WORDS,
   F.PMN_CH_CNT_RX_ERR,
   F.PMN_CH_CNT_LOST,
   F.PMN_CH_CNT_TX_IDLE,
   F.PMN_CH_CNT_TX_DISC,
   F.SEC_STATUS_LOCKED,
   F.SEC_STATUS_PUSH_DIS,
   F.SEC_STATUS_DBG,
   F.SEC_STATUS_SPARES,
   F.SEC_STATUS_SVN_FLOOR,
   F.SEC_SESS_REQ_CLASS,
   F.SEC_SESS_REQ_FUSE,
   F.SEC_SESS_RINGS_LO,
   F.SEC_SESS_RINGS_HI,
   F.SEC_SESS_HNONCE_LO,
   F.SEC_SESS_HNONCE_HI,
   F.SEC_SESS_CTL_OPEN,
   F.SEC_SESS_CTL_RESP,
   F.SEC_SESS_CTL_CLOSE,
   F.SEC_SESS_CTL_SLOT,
   F.SEC_SESS_CLOSE_TOKEN,
   F.SEC_SESS_DNONCE_LO,
   F.SEC_SESS_DNONCE_HI,
   F.SEC_SESS_STATUS_STATE,
   F.SEC_SESS_STATUS_SLOT,
   F.SEC_SESS_STATUS_FAIL,
   F.SEC_SESS_STATUS_COLLIDE]

/-- The register fields, part 8. -/
def fldPart8 : List Fld :=
  [F.SEC_SESS_STATUS_LOCKOUT,
   F.SEC_SESS_OPEN_TOKEN,
   F.SEC_SESS_DPROOF,
   F.SEC_SESS_RESP,
   F.SEC_SESS_SLOT_OPEN,
   F.SEC_SESS_SLOT_CLASS,
   F.SEC_SESS_SLOT_FUSE,
   F.SEC_FUSE_IDX,
   F.SEC_FUSE_RD_DATA,
   F.SEC_FUSE_RD_STAT_STATE,
   F.SEC_FUSE_RD_STAT_PHYS,
   F.SEC_FUSE_RD_STAT_SECRET,
   F.SEC_FUSE_PROG_DATA,
   F.SEC_FUSE_CTL_GO,
   F.SEC_FUSE_STATUS_BUSY,
   F.SEC_FUSE_STATUS_ERR,
   F.SEC_SMB_CNT_PEC_ERR,
   F.SEC_SMB_CNT_AUTH_FAIL,
   F.PWR_CFG_AUTO_RESTART,
   F.PWR_CFG_THERM_DLY,
   F.PWR_CFG_THERM_HOLD,
   F.PWR_CFG_OFF_MIN,
   F.PWR_CTL_STBY_REQ,
   F.PWR_CTL_STBY_ALLOW,
   F.PWR_STATUS_STATE,
   F.PWR_STATUS_LAST_OFF,
   F.PWR_STATUS_RAIL_FAULT,
   F.PWR_STATUS_REFUSED,
   F.PWR_WAKE_CFG_WAKE_N_EN,
   F.PWR_WAKE_CFG_SMB_EN,
   F.PWR_WAKE_CFG_TIMER_EN,
   F.PWR_WAKE_TMR,
   F.PWR_WAKE_STATUS_SRC,
   F.PWR_WAKE_STATUS_REPLAYED,
   F.PWR_STAGGER_K,
   F.PWR_SEQ_ORDER,
   F.PWR_SEQ_DLY,
   F.PWR_SEQ_PG_TMO,
   F.PWR_SEQ_PMB_ADDR,
   F.PWR_AVS_CFG_EN]

/-- The register fields, part 9. -/
def fldPart9 : List Fld :=
  [F.PWR_AVS_CFG_VMIN,
   F.PWR_AVS_CFG_VMAX,
   F.PWR_AVS_CFG_MARGIN,
   F.PWR_AVS_STATUS_VSET,
   F.PWR_AVS_STATUS_STEP,
   F.PWR_AVS_STATUS_AT_LIMIT,
   F.PWR_TEMP_CFG_WARN,
   F.PWR_TEMP_CFG_SHUT,
   F.PWR_TEMP_MAX_NOW,
   F.PWR_TEMP_MAX_PEAK,
   F.PWR_SENS_TEMP,
   F.PWR_SENS_VOLT,
   F.PWR_SENS_PROC,
   F.PWR_TEL_VOUT,
   F.PWR_TEL_IOUT,
   F.PWR_TEL_TEMP,
   F.PWR_TEL_ERR,
   F.GLB_SETUP_LOCK_LOCK,
   F.GLB_START_STATUS_FUSE_DONE,
   F.GLB_START_STATUS_MEM_INIT,
   F.GLB_START_STATUS_FUSE_FAIL_CNT,
   F.GLB_ID_PART,
   F.GLB_ID_REV_LTR,
   F.GLB_ID_REV_DIG,
   F.GLB_ID_FAMILY,
   F.GLB_BAR0_ERR_WR_DISC,
   F.GLB_BAR0_ERR_RD_ABORT,
   F.GLB_DEV_ID_LO,
   F.GLB_DEV_ID_HI,
   F.FRM_LANE_CFG_LANE_ID,
   F.FRM_LANE_CFG_BWD_SRC,
   F.FRM_LANE_CFG_MDCA_K,
   F.FRM_LANE_CFG_TEST,
   F.FRM_TX_TTI,
   F.GLB_GPIO_DIR_OE,
   F.GLB_GPIO_OUT_VAL,
   F.GLB_GPIO_IN_VAL,
   F.MSIX_ADDR_LO,
   F.MSIX_ADDR_HI,
   F.MSIX_DATA]

/-- The register fields, part 10. -/
def fldPart10 : List Fld :=
  [F.MSIX_CTL,
   F.MSIX_PBA,
   F.LEG_SEQ,
   F.LEG_SN,
   F.LEG_SEC_OF_DAY,
   F.LEG_DAY,
   F.LEG_VALID,
   F.LEG_SUSPECT,
   F.LEGL_BIP_ERR,
   F.LEGL_BEI,
   F.LEGL_FEC_CORR,
   F.LEGL_FEC_UNCORR,
   F.LEGL_FLAGS,
   F.LEGL_COND,
   F.LEGL_DEF,
   F.LEGL_SN_ERR]

/-- Every named register field of the spec. -/
def allFlds : List Fld :=
  fldPart0 ++ fldPart1 ++ fldPart2 ++ fldPart3 ++ fldPart4 ++ fldPart5 ++ fldPart6 ++ fldPart7 ++ fldPart8 ++ fldPart9 ++ fldPart10

/-- Fields whose reset value is not zero, part 0. -/
def rstPart0 : List Fld :=
  [F.LNE_CFG_LOS_TH,
   F.LNE_STATUS_LOS,
   F.LNE_TX_FIR_PRE1,
   F.LNE_TX_FIR_MAIN,
   F.LNE_TX_CFG_SWING,
   F.LNE_RX_FFE_TAP,
   F.FRM_RX_DEG_DEG_IVL,
   F.FRM_RX_DEG_DEG_THR,
   F.FRM_RX_DEG_DEG_M,
   F.FRM_RX_STATUS_COND,
   F.MAP_LANE_CFG_FM_MAXLEN,
   F.MAP_LANE_FLX_PHY_NUM,
   F.MAP_FLX_GRP_CFG_GRP_NUM,
   F.MAP_FLX_GRP_CFG_CA_WAIT,
   F.MAP_LOESS_QSTAT_FREE_BLK,
   F.MAP_LOESS_QSTAT_MIN_FREE,
   F.GLB_PLANE_CFG_WARN_TH,
   F.GLB_PLANE_CFG_RETIRE_TH,
   F.GLB_PLANE_CFG_AUTO_RETIRE,
   F.GLB_PLANE_STATUS_SLACK,
   F.GLB_PLANE_SLKMIN_MIN,
   F.GLB_TILTH_CFG_BCAST_EN,
   F.GLB_PROT_CFG_PSC_TMO,
   F.GLB_PROT_CFG_FOP_TMO,
   F.GLB_PROT_CFG_BRIDGE_HOLD,
   F.PTB_CFG_CLK_SEL,
   F.PTB_CFG_FRAME_LEN,
   F.TWN_CFG_AUTO_RESYNC,
   F.TWN_CFG_FAIL_MASK,
   F.TWN_CFG2_RESYNC_TMO]

/-- Fields whose reset value is not zero, part 1. -/
def rstPart1 : List Fld :=
  [F.HIF_RING_CFG_LOG2_SIZE,
   F.HIF_RING_STATUS_SESS,
   F.HIF_CFG_NMI_VEC,
   F.HIF_ATS_CFG_PREFETCH,
   F.HIF_ATS_CFG_PRI_TMO,
   F.ARB_CFG_WINDOW,
   F.ARB_STATUS_MODE,
   F.ARB_STATUS_MODE_CAUSE,
   F.ARB_WEIGHT_W,
   F.CTL_WDT_CFG_TMO,
   F.CTL_MTX_PRIO_PRIO,
   F.CLK_FCNT_CTL_GATE,
   F.TIM_CFG_QL_EN,
   F.TIM_CFG_BW,
   F.TIM_CFG_DNU_BACK,
   F.TIM_CFG_OWN_QL,
   F.TIM_CFG_FORCE,
   F.TIM_CFG_HO_AVG,
   F.TIM_STATUS_SEL,
   F.TIM_STATUS_QL_OUT,
   F.TIM_PSTEP_IVL,
   F.TIM_OUT_SYNC_EN,
   F.TIM_CFG2_DISQ_PPM,
   F.TIM_CFG2_REQ_PPM,
   F.TIM_CLKOUT_SQ,
   F.TIM_CAND_SRC,
   F.TIM_CAND_QL_HOST,
   F.TIM_CAND_WTR,
   F.TIM_CAND_STATUS_QL,
   F.PMN_TAG_CFG_GRATE]

/-- Fields whose reset value is not zero, part 2. -/
def rstPart2 : List Fld :=
  [F.PMN_TAG_CFG_DRATE,
   F.PMN_PERF_SEL_ARG,
   F.SEC_STATUS_SPARES,
   F.SEC_SESS_STATUS_SLOT,
   F.PWR_CFG_THERM_DLY,
   F.PWR_CFG_THERM_HOLD,
   F.PWR_CFG_OFF_MIN,
   F.PWR_STATUS_STATE,
   F.PWR_WAKE_CFG_WAKE_N_EN,
   F.PWR_WAKE_CFG_SMB_EN,
   F.PWR_STAGGER_K,
   F.PWR_SEQ_ORDER,
   F.PWR_SEQ_DLY,
   F.PWR_SEQ_PG_TMO,
   F.PWR_SEQ_PMB_ADDR,
   F.PWR_AVS_CFG_VMIN,
   F.PWR_AVS_CFG_VMAX,
   F.PWR_AVS_CFG_MARGIN,
   F.PWR_AVS_STATUS_VSET,
   F.PWR_TEMP_CFG_WARN,
   F.PWR_TEMP_CFG_SHUT,
   F.GLB_ID_PART,
   F.GLB_ID_FAMILY,
   F.FRM_LANE_CFG_BWD_SRC,
   F.MSIX_CTL]

/-- The fields whose reset value is not zero. -/
def rstFlds : List Fld :=
  rstPart0 ++ rstPart1 ++ rstPart2

end Sys2Proof.Machine
end

