-- ==== Sys2Proof/Machine/State.lean ====
section
/-! DEFINITION. The state of the DM2560 as plain data, the reasons a command can stop, and the state after reset.
Registers that BAR0 names live in `Dev.regs` (one home each); what BAR0 does not show has a typed field here. -/

namespace Sys2Proof.Machine

/-- Why a command stops with a fault. -/
inductive Fault where
  /-- Raised by BAR2_READ and BAR2_WRITE whose bytes reach beyond the 4 MiB window of BAR2: the manual gives the window no
  such address (Table 13-1). Safe: no state is claimed. -/
  | outsideWindow
deriving DecidableEq, Repr

/-- Why a command is refused. -/
inductive Refusal where
  /-- Raised by an arm of `exec` whose command has no meaning yet. Safe. -/
  | notModelled (mnemonic : String)
deriving DecidableEq, Repr

/-- The condition of a lane, of a tributary copy or of a signal input (R122, R131, R251). -/
inductive Cond where
  | none | sd | sf
deriving DecidableEq, Repr

/-- An event on its way to its ring (R341): type, the SN of its cause and the payload. -/
structure Ev where
  typ : Nat
  sn : SN
  /-- Raised by a standby (FLAGS [0]). -/
  sb : Bool := false
  p0 : Nat := 0
  p1 : Nat := 0
  p2 : Nat := 0
  p3 : Nat := 0
deriving DecidableEq, Repr

/-- The overhead that a FlexE PHY sends (R153): the client IDs are those of the PHY's own slots, and the management and
synchronization channels, all zero, are not listed. -/
structure FlxTx where
  group : Nat
  phy : Nat
  map : List Nat
  calA : List Nat
  calB : List Nat
  inUse : Bool
  cr : Bool
  ca : Bool
  crc : BitVec 16
deriving DecidableEq, Repr

/-- What a lane's serializer sends for a sweep (R89, R102, R105, R137, R153, R158): a GLF sweep by its overhead words, a test
pattern by the sweeps sent of it before, bits, a client's scrambled blocks with `none` for the places of alignment markers
(given to the client's first lane), a FlexE PHY's overhead and calendar slots, or Table 6-3's failure output throughout. -/
inductive LineOut where
  | glf (oh : List Word20)
  | pattern (pat : Nat) (inv : Bool) (at' : Nat)
  | bits (b : List Bool)
  | pcs (blocks : List (Option (BitVec 66)))
  | flexe (oh : FlxTx) (slots : List (BitVec 66))
  | fail (cpri : Bool)
deriving DecidableEq, Repr

/-- What leaves the device, in the order in which it leaves; `client` is what a demapper hands to its PCS. -/
inductive Out where
  /-- A record or index written to host memory: ring ID, index, the record's bits (little-endian bytes). -/
  | record (ring : Nat) (idx : Nat) (bits : BitVec 2048)
  | indexWb (ring : Nat) (c : W32)
  | msix (vec : Nat)
  | bar2 (data : List (BitVec 8)) (poisoned : Bool)
  | readData (data : List W32)
  | abort
  | unsupported
  /-- The pins of a PTB port in a bus cycle: whether PTBp_CLK runs, PTBp_FS and PTBp_ACK. -/
  | ptb (port : Nat) (clk fs : Bool) (ack : BitVec 2)
  /-- A record handed to the twin link; and a sweep of its four lanes: their overhead words, and the record stream up to
  the pads that fill it. -/
  | twin (typ : Nat) (words : List Nat)
  | twinSweep (oh : List (List Word20)) (stream : List Word20)
  | alive (level : Bool)
  | line (lane : Nat) (x : LineOut)
  | client (tid : Nat) (blocks : List (BitVec 66))
  | msp (port : Nat) (txd : Word20)
  | smbus (data : List (BitVec 8))
  | pageReq (addr : Nat) (w : Bool)
  | transReq (addr : Nat)
  | invalDone
  /-- A burst of a requester, for a ring (none for requester 7). -/
  | burst (r : Nat) (ring : Option Nat)
  /-- A pulse of SYNC_OUT (R418), and of PPS_OUT (R419). -/
  | sync
  | pps
  | jtag (n : BitVec 64)
  | avsWrite (mv : Nat)
deriving DecidableEq, Repr

/-- One page of the connection memories (Tables 8-1, 8-2, 8-3, 8-7). Keys: ingress `port*4096+slot`, center
`slot*132+output`, egress `port*2048+grain`, fine: the output fine slot. -/
structure CmPage where
  ing : Tbl (BitVec 12) := []
  cen : Tbl (BitVec 8) := []
  egr : Tbl (BitVec 25) := []
  fine : Tbl (BitVec 20) := []
deriving DecidableEq, Repr

/-- One 168-bit beat (R35, Table 8-4). -/
structure Beat where
  tag : BitVec 8 := 0
  pay : Grain := 0
deriving DecidableEq, Repr

/-- The selector array entry of one egress grain with the reasons of Table 8-6. -/
structure Sel where
  /-- SEL of Table 8-5. -/
  sel : Bool := false
  /-- A SEL change decided while the grain is held (R199). -/
  selPend : Option Bool := none
  /-- MI for the reason "protection request". -/
  pmi : Bool := false
  /-- HOLD and MI for the reason "uncorrectable egress or selector entry". -/
  ecc : Bool := false
  /-- MI for the reason "beat with CMERR = 1 in the selected slot". -/
  cmerr : Bool := false
  /-- HOLD for the reason "twin promotion with a failing signature compare". -/
  promo : Bool := false
  /-- The last reason of the hold has ended; the grain is read normally from the next sweep (R200). -/
  ending : Bool := false
  /-- The frozen slot and the buffer half it is frozen in (R200). -/
  frz : Option (Nat × Bool) := none
deriving DecidableEq, Repr

/-- What the switch core keeps of one plane beside its registers (R209, R210, R214, R216). -/
structure Plane where
  lowRun : Nat := 0
  beatRun : Nat := 0
  /-- The slack condition of R210 has raised its event in this run. -/
  slackUp : Bool := false
  beatUp : Bool := false
  warned : Bool := false
  okRun : Nat := 0
  restore : Nat := 0
  restoreBad : Bool := false
  markRun : Nat := 0
deriving DecidableEq, Repr

/-- The switch core (chapter 8). -/
structure Switch where
  cm0 : CmPage := {}
  cm1 : CmPage := {}
  /-- PAGE(SN), PAGE(SN − 1) and PAGE(SN − 2) (R18). -/
  page : Bool := false
  page1 : Bool := false
  page2 : Bool := false
  sel : Tbl Sel := []
  ing0 : Tbl Page := []
  ing1 : Tbl Page := []
  egb0 : Tbl Beat := []
  egb1 : Tbl Beat := []
  fin0 : Tbl Grain := []
  fin1 : Tbl Grain := []
  /-- The egress grains delivered in the last read sweep that are not all zero: key `port*2048+grain`. -/
  dlv : Tbl Grain := []
  /-- Uncorrectable connection-memory entries not yet rewritten: page, memory, key, whether it has been read. -/
  bad : List (Bool × Nat × Nat × Bool) := []
  /-- Fine entries with a parity error not yet read: page and output fine slot; and the output fine slots that stay at
  0xF_FFFF until a commit rewrites their entry (R204). -/
  fineBad : List (Bool × Nat) := []
  fineOut : List Nat := []
  /-- Single-bit errors corrected (R32). -/
  corr : Nat := 0
  /-- Lanes whose condition was SF when the sweep opened (Table 5-6). -/
  sf : List Nat := []
  /-- Lanes whose VALID bit is 0 for the sweep delivered last (R310). -/
  parBad : List Nat := []
  planes : Tbl Plane := []
  /-- A commit has taken effect: traffic runs (R14). -/
  traffic : Bool := false
  /-- A plane waits for the descriptor that retires or restores it: plane, ring, index. -/
  retireBy : List (Nat × Nat × Nat) := []
  restoreBy : List (Nat × Nat × Nat) := []
deriving DecidableEq, Repr

/-- A descriptor that Tilth has staged or carries in a commit (R227, R234). -/
structure Member where
  ring : Nat
  /-- `uid` and CMD_IDX of the descriptor. -/
  uid : Nat
  idx : Nat
  /-- Opcode of the descriptor. -/
  op : Nat
  raw : BitVec 512
  /-- Uses exchanged in chains for it. -/
  uses : Nat := 0
  chains : Nat := 0
  /-- The completion was already written when it was staged (batch members). -/
  done : Bool := false
  /-- Fine-tier request with readers: spare position, and whether its first commit is made (R223). -/
  stage2 : Option (Nat × Bool) := none
deriving DecidableEq, Repr

/-- The open batch (R233 to R236). -/
structure Batch where
  ring : Nat
  atomic : Bool
  /-- BATCH_TMO at BATCH_OPEN (R245). -/
  tmo : Nat := 0
  /-- Members left out after their completion: count and the first CMD_IDX (R240). -/
  left : Nat := 0
  leftIdx : Nat := 0
deriving DecidableEq, Repr

/-- A commit in preparation, or made and not yet complete (R229 to R232). -/
structure Commit where
  members : List Member
  timed : Bool
  tsn : SN
  /-- The commit carries moves of an evacuation (R239). -/
  evac : Bool := false
  /-- It commits an ATOMIC batch. -/
  atomic : Bool := false
  /-- Fixed at COMMIT_READY. -/
  target : Option SN := none
  late : Bool := false
  diverged : Bool := false
  acked : Bool := false
  seq : Nat := 0
  chains : Nat := 0
  uses : Nat := 0
  left : Nat := 0
  leftIdx : Nat := 0
deriving DecidableEq, Repr

/-- The Tilth engine (chapter 9). -/
structure Tilth where
  batch : Option Batch := none
  /-- Members of the open batch staged into the shadow, and what their chains did. -/
  staged : List Member := []
  chains : Nat := 0
  uses : Nat := 0
  /-- The commit in preparation. -/
  prep : Option Commit := none
  /-- The commit made last, until its completion is written. -/
  made : Option Commit := none
  /-- The shadow page has been released for writing (R20). -/
  released : Bool := true
  /-- Target of the last commit, for the release and completion conditions. -/
  lastT : SN := 0
  /-- Interrupted work, the last interrupted first: staged members of the open batch, or a prepared commit (R238); and the
  rollback of its entries is under way. -/
  held : List (List Member × Option Commit) := []
  undo : Bool := false
  /-- A PG_COMMAND on CMD0 to CMD3 has paused Tilth until it revalidates (R26, R238). -/
  paused : Bool := false
  /-- Rings whose batch Tilth has aborted (R236). -/
  aborted : List Nat := []
  /-- The plane under evacuation (R211). -/
  evac : Option Nat := none
  /-- A re-sourcing FINE_OPEN whose second commit is due (R223). -/
  second : Option Member := none
  /-- Sequence numbers of ENTRY and COMMIT records sent (R243). -/
  seqOut : Nat := 0
  /-- On the active: a plane state has changed and no commit has carried it. On the standby: plane states that the next
  commit brings (R215). -/
  planeDue : Bool := false
  planeIn : List (Nat × Nat) := []
  /-- On the standby: writes that wait for the release of the shadow page (R20), and whether it is cleared first (R322). -/
  late : List EntryWr := []
  fresh : Bool := false
deriving DecidableEq, Repr

/-- A pending decision (R258): signal, sweep and the REQ of the request that made it. -/
structure Decision where
  sig : Nat
  x : SN
  req : Nat
deriving DecidableEq, Repr

/-- A descriptor that completes when the group's decision has been applied: ring, `uid`, status, whether it is the held
command. -/
structure Wait where
  ring : Nat
  uid : Nat
  st : Nat
  held : Bool
deriving DecidableEq, Repr

/-- One signal input of a group (R251 to R253). -/
structure Input where
  cond : Cond := .none
  /-- What the defect source of Table 10-3 held last. -/
  src : Cond := .none
  /-- The request has been raised (hold-off over). -/
  up : Bool := false
  /-- SN at which the hold-off timer was started. -/
  timer : Option SN := none
  events : Nat := 0
deriving DecidableEq, Repr

/-- The state of an errorless pair (R176, R177). -/
inductive PairSt where
  | off | search | ambiguous | aligned
deriving DecidableEq, Repr

/-- What PG_CREATE gives a group (Table 10-2). -/
structure GroupCfg where
  typ : Nat
  errorless : Bool := false
  revert : Bool := false
  auto : Bool := true
  d16 : Nat := 0
  farPgid : Nat := 0
  holdOff : Nat := 0
  wtr : Nat := 0
  tx : Option Nat := none
  rx : Option Nat := none
  tid : Option Nat := none
  /-- Egress grains of the unit, by key. -/
  unit : List Nat := []
  /-- 1:N: protect lane, then working lanes. -/
  lanes : List Nat := []
deriving DecidableEq, Repr

/-- A sweep of one copy of an errorless pair that Loess holds (R176): its lane SN, the device sweep and the ns in it of its
arrival, its grains and whether it may be compared. -/
structure Held where
  s : SN
  n : SN
  ns : Nat
  gs : List Grain
  cmp : Bool := true
deriving DecidableEq, Repr

/-- One protection group (chapter 10). -/
structure Group where
  cfg : GroupCfg
  inputs : List Input := []
  /-- The selected signal r. -/
  r : Nat := 0
  /-- The applied MI of the unit. -/
  mi : Bool := false
  pend : Option Decision := none
  pendMi : Option (Bool × SN) := none
  /-- 1:N: the target last applied to the bridge, and the lane selector's pending change (R261). -/
  tgt : Nat := 0
  lsel : Option Decision := none
  /-- Held command: kind (1 LO, 2 FS, 3 MS) and signal. -/
  cmd : Option (Nat × Nat) := none
  wait : List Wait := []
  /-- Pending timed command: kind, signal, ring, `uid`, target, LATE (R262). -/
  timed : Option (Nat × Nat × Nat × Nat × SN × Bool) := none
  /-- WTR: signal and start SN. -/
  wtr : Option (Nat × SN) := none
  /-- REQ and signal of the local top request. -/
  lastReq : Nat := 0
  lastSig : Nat := 0
  /-- REQ, RSIG and BSIG last received. -/
  remote : Option (Nat × Nat × Nat) := none
  loss : Bool := false
  fop : Bool := false
  bridge : Nat := 0
  bridgeHold : Bool := false
  /-- The bridge falls with the next sweep (R261). -/
  bridgeDrop : Bool := false
  /-- The PSC entry's REQ, RSIG and BSIG (R267). -/
  ent : Nat × Nat × Nat := (0, 0, 0)
  pair : PairSt := .off
  /-- Differential delay in ns; positive: the working copy is held. -/
  pairDiff : Int := 0
  /-- The qualified offset k: working lane sweep s + k carries what protect lane sweep s does; and the sweeps of each
  copy that Loess holds, oldest first. -/
  pairOff : Int := 0
  heldW : List Held := []
  heldP : List Held := []
  /-- While it searches: equal compared sweeps in a row of each offset from −K up; in ALIGNED: differing ones in a row. -/
  pairRun : List Nat := []
  pairBad : Nat := 0
  cmdEvents : Nat := 0
  switches : Nat := 0
  /-- PG_DELETE waits for its sweep: ring, `uid`. -/
  del : Option (Nat × Nat) := none
deriving DecidableEq, Repr

/-- One lane's PSC transmit queue (R267). -/
structure PscTx where
  /-- Queued entries: PGID and the sweep in which it was first queued. -/
  q : List (Nat × SN) := []
  rot : Nat := 0
  /-- Entries chosen, here or by the active, for the next sweep (PSC_SEL). -/
  given : Option (BitVec 30 × BitVec 30) := none
  /-- The message of the current sweep. -/
  msg : BitVec 80 := 0
deriving DecidableEq, Repr

/-- The protection engine and the PTB (chapters 10 and 11). -/
structure Prot where
  groups : Tbl Group := []
  psc : Tbl PscTx := []
  /-- 1 ms window in which port p last raised PTB_ERR (R546). -/
  errWin : List (Option Nat) := [none, none]
  /-- Promotion holds the PTB clocks stopped (R288). -/
  stopped : Bool := false
  /-- The acknowledgement that each port drives (R275, R279). -/
  lastAck : List (BitVec 2) := [0, 0]
  /-- The frame counter: the next bus cycle; and the ports enabled in the frame (R275, R289). -/
  cyc : Nat := 0
  on : List Bool := [false, false]
deriving DecidableEq, Repr

/-- A PRBS checker (R103): the reference's last bits, newest first, the error-free run out of sync, and in sync the
bits compared and where the last errors lay. `bits` counts the bits compared since the last read. -/
structure Checker where
  hist : List Bool := []
  run : Nat := 0
  sync : Bool := false
  pos : Nat := 0
  errAt : List Nat := []
  bits : Nat := 0
deriving DecidableEq, Repr

/-- One lane port beside its registers (chapter 4). -/
structure Lane where
  /-- TX_STATE before a squelch (R98). -/
  sq : Nat := 0
  /-- The 10 ms of a retry ended while the PLL was unlocked (R98). -/
  retryDue : Bool := false
  /-- LANE_ADAPT_SLOW has been raised in this acquisition (R94). -/
  slow : Bool := false
  /-- SIG_DET has risen again and CDR_LOCK has not (R101). -/
  relock : Bool := false
  /-- The PRBS checker, and the sweeps that the generator has sent (R102, R103). -/
  chk : Checker := {}
  gen : Nat := 0
  /-- The elastic buffer of the line loopback (R105, R106). -/
  eb : List Bool := []
  /-- The adapted equalizer values in use: CTLE, DFE and FFE taps; none before the first adaptation (R109). -/
  adapted : Option (BitVec 5 × BitVec 8 × List (BitVec 8)) := none
  /-- Overhead words of the sweep being sent, and of the one before (R67, R105). -/
  oh : List Word20 := []
  ohLast : List Word20 := []
deriving DecidableEq, Repr

/-- One GLF framer and its acceptance filters (chapter 5). -/
structure Framer where
  cands : List (Nat × SN) := []
  /-- The alignment of Table 5-1, while IN_FRAME. -/
  align : Option Nat := none
  faw : Nat := 0
  snRun : Nat := 0
  snPrev : Option SN := none
  bipPrev : Option (BitVec 8) := none
  /-- Candidate value and run of (PERS, TEST, LANE_ID). -/
  o2 : Option (BitVec 20) := none
  o2Run : Nat := 0
  accepted : Bool := false
  accTest : Bool := false
  lt : Option Bool := none
  ltRun : Nat := 0
  /-- Received BDI and RDI, and the runs of R117 ranks 9 and 10. -/
  bdi : Bool := false
  rdi : Bool := false
  bdiRun : Nat := 0
  rdiRun : Nat := 0
  trace : List (BitVec 8) := []
  traceOk : Bool := false
  traceLast : List (BitVec 8) := []
  traceRun : Nat := 0
  traceAcc : Bool := false
  ql : BitVec 4 := 0xF
  qlRun : Nat := 0
  /-- The last arrivals, newest first: lane SN, the device sweep, and the ns in it (R171). -/
  arr : List (SN × SN × Nat) := []
  /-- The window of R162: the device sweep it started at, and the lane sweeps received since. -/
  rjFrom : Option SN := none
  rjCnt : Nat := 0
deriving DecidableEq, Repr

/-- The degrade detector and the backward counts of one receiver (R124, R70). -/
structure Degrade where
  started : Bool := false
  sum : Nat := 0
  bad : Nat := 0
  good : Nat := 0
  /-- BIP-8 results completed since this lane's last transmit snapshot on the receiver that it reports on (R70). -/
  bei : Nat := 0
  /-- DEG_IVL, DEG_THR and DEG_M in use since the last boundary (R136). -/
  ivl : Nat := 10
  thr : Nat := 40
  m : Nat := 3
deriving DecidableEq, Repr

/-- One tributary monitor or consumer (R126 to R131, R48, R52). Lists run tSKW, tLOMF, tLOJ, tMI, tUNEQ, tPTM. -/
structure Mon where
  set : List Nat := [0, 0, 0, 0, 0, 0]
  clr : List Nat := [0, 0, 0, 0, 0, 0]
  decl : List Bool := [false, false, false, false, false, false]
  ssf : Bool := false
  ssd : Bool := false
  /-- tSSF held at some moment of the period (R129 rule 3). -/
  ssfSeen : Bool := false
  last : Option (BitVec 12) := none
  /-- SET and CLR of the six defects in the current period; none listed: those of the profile. -/
  lim : List (Nat × Nat) := []
  cond : Cond := .none
  locked : Bool := false
  phase : Nat := 0
  /-- The JW position of the sweep received last; on a fine-slot tributary the words of the lead fine slot, newest first,
  with their lane SNs (R51, R52). -/
  jw : Word20 := 0xFFFFF
  hist : List (SN × Word20) := []
deriving DecidableEq, Repr

/-- What Loess fixes at acquisition (R171, R172): the hold H in ns, and the release point of lane sweep `s`, in tenths of
a ns from the tick of device sweep `n`. On a plesiochronous group `rel` counts from the arrival of the lead member's lane
sweep, and `s` is the next lane sweep to be released. -/
structure Align where
  h : Nat
  rel : Int
  s : SN
  n : SN
deriving DecidableEq, Repr

/-- What TRIB_DEFINE fixes (R42, Table 13-7). -/
structure TribCfg where
  ptype : BitVec 3
  profile : Nat
  fine : Bool
  role : Nat
  lane : Nat := 0
  grp : Nat := 0
  client : Nat := 0
  d16 : Nat := 0
  m : Nat := 0
  k : Nat := 0
  /-- Member unit codes, lead first. -/
  wl : List Nat
  pl : List Nat := []
  slots : List Nat := []
deriving DecidableEq, Repr

/-- The re-justifier of one received copy (R161): its buffer of data words, each with the MI and TYPE of its incoming
sweep, where `none` is a sweep of maintenance content; the JW bits last accepted. -/
structure Rj where
  buf : List (Option (BitVec 4 × Word20)) := []
  started : Bool := false
  last : Option (BitVec 12) := none
  /-- One sweep has been discarded or withheld: the next one is maintenance content. -/
  slip : Bool := false
deriving DecidableEq, Repr

/-- The mapper of a tributary (R141 to R148). -/
structure Mapper where
  /-- Block modes: bits not yet sent. ETH_FM: units not yet sent, the first perhaps in part. -/
  bits : List Bool := []
  units : List (List Word20) := []
  started : Bool := false
  /-- Remainder of the nominal client words (R145). -/
  acc : Nat := 0
  /-- An overflow has discarded blocks: the next sweep carries MI (R144). -/
  ovf : Bool := false
  /-- The client's PCS (R142): block lock (locked, headers tested, invalid ones), bits not yet cut into blocks, the
  descrambler's last 58 bits once it has any; and on ETH_FM the frame in progress and whether it is errored. -/
  lk : Bool × Nat × Nat := (false, 0, 0)
  rest : List Bool := []
  scr : Option (BitVec 58) := none
  cur : Option (List (BitVec 8) × Bool) := none
  /-- The last 31 bits of the test pattern sent, newest first (Table 2-3). -/
  prbs : List Bool := List.replicate 31 true
deriving DecidableEq, Repr

/-- The demapper of a tributary (R150, R158 to R160). -/
structure Demapper where
  last : Option (BitVec 12) := none
  bits : List Bool := []
  /-- Block lock: locked, sync headers tested and invalid ones among them. -/
  lock : Bool := false
  sh : Nat := 0
  shBad : Nat := 0
  blocks : List (BitVec 66) := []
  started : Bool := false
  acc : Nat := 0
  /-- The last block sent, and whether the failure output is being sent. -/
  prev : BitVec 66 := 0
  fail : Bool := false
  /-- ETH_FM delineation: 0 HUNT, 1 PRESYNC, 2 SYNC, and the words not yet tested. -/
  fm : Nat := 0
  words : List Word20 := []
  /-- Scrambler of the transmitting PCS, and of the CPRI failure output (Table 6-3). -/
  scr : BitVec 58 := BitVec.allOnes 58
  /-- Frames waiting to be sent, and the deficit idle count of the gaps. -/
  frames : List (List (BitVec 8)) := []
  dic : Nat := 0
  /-- Block positions sent, and on FlexE the blocks of this sweep. -/
  pos : Nat := 0
  out : List (BitVec 66) := []
deriving DecidableEq, Repr

/-- One defined tributary. -/
structure Trib where
  cfg : TribCfg
  w : Mon := {}
  p : Mon := {}
  c : Mon := {}
  /-- The consumer input of the protect copy: its re-justifier. -/
  cp : Mon := {}
  /-- Loess, per copy: the alignment, the raw condition of tSKW, and the member grains held: lane SN, member, content. -/
  alW : Option Align := none
  alP : Option Align := none
  skW : Bool := false
  skP : Bool := false
  loW : List (SN × Nat × Grain) := []
  loP : List (SN × Nat × Grain) := []
  rjW : Rj := {}
  rjP : Rj := {}
  map : Mapper := {}
  dem : Demapper := {}
  /-- FlexE: slot count differs from k. -/
  sizeBad : Bool := false
deriving DecidableEq, Repr

/-- A FlexE group's calendars (R151 to R154). -/
structure FlexE where
  /-- Transmit calendars: client ID by PHY number * 32 + slot. -/
  txA : Tbl (BitVec 16) := []
  txB : Tbl (BitVec 16) := []
  rxA : List (BitVec 16) := []
  rxB : List (BitVec 16) := []
  cr : Bool := false
  /-- CA returned in the transmitted overhead. -/
  caOut : Bool := false
  caIn : Bool := false
  /-- Switch in progress: ring, index, opcode, TID. -/
  sw : Option (Nat × Nat × Nat × Nat) := none
  /-- The inactive calendar before the switch in progress, and CA_WAIT as the switch began. -/
  old : Tbl (BitVec 16) := []
  caWait : Bool := true
  /-- Overhead frames in a row with the group number, and with the PHY number and map, that are configured (Table 6-5). -/
  gidOk : Nat := 3
  phyOk : Nat := 3
deriving DecidableEq, Repr

/-- One Loess allocation (R167): owner (TID, or 2^20 + PGID, or 2^21 + first client lane), grain-sixteenths per lane and
blocks per lane; `ended` once its release has been served, and the descriptor that waits for it (R168). -/
structure Alloc where
  owner : Nat
  six : List (Nat × Nat) := []
  blk : List (Nat × Nat) := []
  /-- Budget and margin of its TRIB_DEFINE (R170, R174). -/
  d16 : Nat := 0
  m : Nat := 0
  ended : Bool := false
  by' : Option (Nat × Nat) := none
  /-- The device sweep in which it ended. -/
  since : SN := 0
deriving DecidableEq, Repr

/-- Tributaries, clients and Loess (chapters 2, 5, 6, 7). -/
structure Clients where
  tribs : Tbl Trib := []
  flexe : Tbl FlexE := []
  loess : List Alloc := []
  /-- LOESS_LOW has been raised per quadrant and not re-armed (R179). -/
  low : List Bool := [false, false, false, false]
  /-- Client lanes aligned in Loess, by first lane, and those whose skew lies beyond the window (R174). -/
  lanesAl : Tbl Align := []
  lanesSk : List Nat := []
  /-- Released tributaries whose held words have not all left (R168): the device sweep of the release, TID, tributary. -/
  drain : List (SN × Nat × Trib) := []
  /-- Defect profiles: SET and CLR of the six defects, as 24-bit values SET + 4096 CLR (R130). -/
  profiles : Tbl (List Nat) := []
  /-- Declared client defects per lane, bit c − 0x21 for code c (R157). -/
  cdef : Tbl (BitVec 8) := []
  /-- Running 48-bit counters of Table 6-6 and the other PM sources, by kind, object and index. -/
  cnts : Tbl (BitVec 48) := []
deriving DecidableEq, Repr

/-- A descriptor the device holds, in submission order (R23, R337). -/
inductive QPhase where
  | fetched
  | dispatched
  | taken
  /-- Served: the completion's fields, and how many events had been raised by then (R337). -/
  | done (status detail : Nat) (sn : SN) (result : BitVec 64) (evs : Nat)
deriving DecidableEq, Repr

/-- One entry of a command ring's queue. -/
structure QEnt where
  /-- CMD_IDX. -/
  idx : Nat
  /-- The model's own name of the descriptor, new at every fetch. -/
  uid : Nat := 0
  raw : BitVec 512
  ph : QPhase := .fetched
  /-- The sweep of its dispatch (R238). -/
  at' : SN := 0
  tagged : Bool := false
deriving DecidableEq, Repr

/-- The folded records of one type (R345). -/
structure Fold where
  key : Nat
  count : Nat
  first : SN
  last : SN
  p0 : Nat
deriving DecidableEq, Repr

/-- One ring beside its registers (chapter 13). -/
structure Ring where
  q : List QEnt := []
  folds : List Fold := []
  seq : Nat := 0
  since : Nat := 0
  wbDue : Bool := false
  /-- The record that faulted, held while the ring is paused (Table 14-3). -/
  held : Option Ev := none
  /-- The fault lies on this completion ring itself: it cannot be written (R351). -/
  lost : Bool := false
deriving DecidableEq, Repr

/-- The host interface (chapter 13). -/
structure Hif where
  rings : Tbl Ring := []
  /-- Raised events waiting for EVENT_RECORD, oldest first. -/
  evq : List Ev := []
  /-- Events that EVENT_RECORD has taken from `evq`. -/
  evOut : Nat := 0
  /-- The next descriptor's `uid`. -/
  uid : Nat := 0
  fetches : Nat := 0
  nmi : Nat := 0
deriving DecidableEq, Repr

/-- One ATS cache entry (R357). -/
structure AtsEnt where
  base : Nat
  size : Nat
  trans : Nat
  r : Bool
  w : Bool
  u : Bool
deriving DecidableEq, Repr

/-- An outstanding page request (R360). -/
structure PageReq where
  page : Nat
  w : Bool
  rings : List (Fin 41)
  sent : Bool := true
deriving DecidableEq, Repr

/-- Address translation and the arbiter (chapter 14). -/
structure Dma where
  enable : Bool := false
  pri : Bool := false
  stopped : Bool := true
  rspFail : Bool := false
  cache : List AtsEnt := []
  reqs : List PageReq := []
  /-- Successful responses per ring since its access last got a usable translation (R361). -/
  succ : Tbl Nat := []
  /-- Rings whose read waits for its second attempt, and those whose second attempt is under way (R362). -/
  retry : List Nat := []
  second : List Nat := []
  inval : Nat := 0
  credit : Vector Int 8 := Vector.replicate 8 0
  backoff : Vector Nat 8 := Vector.replicate 8 0
  boLen : Vector Nat 8 := Vector.replicate 8 1
  last : Fin 8 := 7
  choice : Option (Fin 8) := none
  /-- Cycles after this one in which the port makes no grant (R369, R370), and the ring each requester served last (R354). -/
  occ : Nat := 0
  served : Vector Nat 8 := Vector.replicate 8 40
  link : Bool := true
  bme : Bool := true
  startup : Bool := true
  recovery : Bool := false
deriving DecidableEq, Repr

/-- A transaction outstanding in the bus matrix: its ID, its slave, the pieces of its burst that the slave has not granted
yet, and the cycles that it has waited for the next one (R388 to R390). -/
structure MtxTx where
  id : BitVec 5
  slave : Nat
  left : Nat := 1
  wait : Nat := 0
deriving DecidableEq, Repr

/-- The bus matrix (R388 to R390): the transactions outstanding, oldest first; the master each slave granted last; and the
cores that stand at a FENCE. -/
structure Mtx where
  out : List MtxTx := []
  last : List Nat := [3, 3, 3, 3, 3, 3]
  fence : List Nat := []
deriving DecidableEq, Repr

/-- The control complex (chapter 15). The scratchpad is `State.sp`. -/
structure Ctl where
  /-- Verified staged image: security version, and the state versions it accepts. -/
  staged : Option (Nat × Nat × Nat) := none
  /-- The activation in progress: ring, `uid` of its FW_STAGE, security version. -/
  act : Option (Nat × Nat × Nat) := none
  /-- The sweep in which it began; and image A failed verification in this boot (R392). -/
  actSn : SN := 0
  flashA : Bool := false
  /-- State version of the running firmware (R393). -/
  stateVer : Nat := 0
  /-- Watchdog periods in force, in ms (R396); 0 disables. -/
  wdt : List Nat := [500, 500]
  mtx : Mtx := {}
deriving DecidableEq, Repr

/-- One reference candidate (R404 to R406). -/
structure Cand where
  /-- No activity on a REFIN. -/
  act : Bool := false
  /-- The offset condition, and windows in a row at or below REQ_PPM. -/
  ofs : Bool := false
  okWin : Nat := 0
  /-- The wait-to-restore timer runs. -/
  wtr : Bool := false
  /-- Conditions held at the last evaluation, bit c − 1 for condition c of Table 16-2, and the last that cleared. -/
  cond : Nat := 0
  last : Nat := 0
deriving DecidableEq, Repr

/-- A phase step series (R416, R417). -/
structure PStep where
  remain : Int
  size : Int
  ivl : Nat
  next : SN
  late : Bool
deriving DecidableEq, Repr

/-- Timing and clocks (chapter 16). -/
structure Tim where
  cands : Tbl Cand := []
  ps : Option PStep := none
  /-- The slot that the device's own selection selects (0xF none), and the state that this leaves the DPLL in; a standby
  with its link up shows the active's sweep instead (R409). -/
  sel : Nat := 0xF
  st : Nat := 0
  /-- QL of the last selected candidate, and the specification timer has expired in this HOLDOVER. -/
  lastQl : Nat := 0xF
  hoDone : Bool := false
  /-- The sweep in which HOLDOVER was left with the timer running (R414). -/
  hoLeft : Option SN := none
  /-- The glitch-free multiplexers stand on APLL1 (R422). -/
  sysMux : Bool := false
  perMux : Bool := false
  /-- Clocks whose monitor has declared STOP (Table 16-7). -/
  stopped : BitVec 8 := 0
deriving DecidableEq, Repr

/-- One PM bin (R437): its counts by COUNT index, its number and whether it is suspect. -/
structure Bin where
  cnt : Tbl Nat := []
  idx : Nat := 0
  suspect : Bool := false
deriving DecidableEq, Repr

/-- Availability as R434 counts it, near end and far end. -/
structure Avail where
  uas : Bool := false
  run : Nat := 0
  farUas : Bool := false
  farRun : Nat := 0
deriving DecidableEq, Repr

/-- One monitored object (R432 to R437). -/
structure PmObj where
  sesTh : Nat := 0
  tcaIdx : Nat := 0
  tcaEn : Bool := false
  tcaTh : Nat := 0
  /-- The crossing of the open 15-minute bin has been raised. -/
  tcaUp : Bool := false
  av : Avail := {}
  /-- First SN of the second in which it was enabled, and what that second had counted before, by COUNT index. -/
  since : SN := 0
  skip : Tbl Nat := []
  c15 : Bin := {}
  p15 : Bin := {}
  c24 : Bin := {}
  p24 : Bin := {}
  sec : Bin := {}
deriving DecidableEq, Repr

/-- A completed second (R429, R437): first SN, SN after it, second of day and day, those of the second that follows, the
increments of the running counters, what was seen, and the lanes' conditions at its end. `cut`: it ends at a new anchor
that closes every bin, and whether the 15-minute and the 24-hour bin run their full length there. -/
structure Second where
  start : SN
  stop : SN
  tod : Nat
  day : Nat
  nextTod : Nat
  nextDay : Nat
  inc : Tbl Nat := []
  seen : Tbl Nat := []
  conds : List Nat := []
  cut : Option (Bool × Bool) := none
deriving DecidableEq, Repr

/-- A PM dump under way (R438, R346). -/
structure Dump where
  ring : Nat
  /-- `uid` of its descriptor. -/
  idx : Nat
  pmd : Nat
  bins : Nat
  next : Nat
  id : Nat
  written : Nat := 0
  /-- The sweep boundary of a new snapshot still to be taken. -/
  at' : Option SN := none
  /-- Records omitted, once the dump has met a full ring. -/
  omit' : Option Nat := none
deriving DecidableEq, Repr

/-- Performance monitoring (chapter 17). -/
structure Pm where
  /-- The accumulator of R429 with the open second's 9 added. -/
  acc : Nat := 9
  /-- First SN of the current second, and its length. -/
  secStart : SN := 0
  secLen : Nat := 610351
  /-- The running counters at the start of the current second. -/
  base : Tbl Nat := []
  objs : Tbl PmObj := []
  /-- Completed seconds not yet folded, oldest first. -/
  queue : List Second := []
  /-- A new anchor: its SN, SEC_OF_DAY, ring, `uid`, LATE. -/
  anchor : Option (SN × Nat × Nat × Nat × Bool) := none
  /-- The held snapshot: its SN and, per object and bin, KIND, OBJECT, BIN and the bin. -/
  snap : Option (SN × List (Nat × Nat × Nat × Bin)) := none
  dump : Option Dump := none
  /-- What has held in the current second, by `cntKey kind object 0`. Lanes: bit 0 SF, 1 SD, 2 dBDI, and DEF from bit 8
  up. Tributary copies: bit 0 SF, 3 tMI, 4 tSSF, 5 tSKW. Protection groups: bit 0 a signal other than 0 selected. -/
  seen : Tbl Nat := []
  /-- Availability of every lane as the legacy page shows it, and the page that core 1 is to write: first SN, second of
  day, day, SUSPECT, and the entries of the lanes (R439). -/
  leg : Tbl Avail := []
  page : Option (SN × Nat × Nat × Bool × List (List Nat)) := none
  perf : Tbl (BitVec 48) := []
  ovf : BitVec 32 := 0
  snapDue : Bool := false
  clearDue : Bool := false
  selDue : Tbl W32 := []
  lfsr : BitVec 32 := 0xFFFFFFFF
  /-- PMN_TAG_CFG as it applies in this sweep (R451), and the sweeps since the last grain was chosen (R447). -/
  tagCfg : W32 := 0x28A
  tagAge : Nat := 0
  /-- The tagged ingress grain of this sweep, and of the last one (R447). -/
  tagged : Option (Nat × Nat) := none
  tagged1 : Option (Nat × Nat) := none
  /-- The trace buffer: records not yet written to TRC (R449). -/
  trc : List Ev := []
  /-- MCX records that a frozen port holds (R374). -/
  mcx : List Nat := []
deriving DecidableEq, Repr

/-- One management data channel (R440 to R444). -/
structure Chan where
  rx : Nat := 31
  tx : Nat := 31
  /-- Routes taking effect at the next sweep. -/
  rxNext : Option Nat := none
  txNext : Option Nat := none
  txq : List Word20 := []
  /-- Received words waiting for their port or record: word, error flag and lane SN. -/
  rxq : List (Word20 × Bool × SN) := []
  loss : Nat := 0
  lossUp : Bool := false
deriving DecidableEq, Repr

/-- Security (chapter 18). -/
structure Sec where
  /-- Physical fuse words. -/
  fuses : Tbl (BitVec 64) := []
  /-- Logical words as resolved at the last reset: state (0 blank, 1 valid, 2 failed), value, physical word. -/
  logical : Tbl (Nat × W32 × Nat) := []
  /-- Close token per open slot. -/
  tokens : Tbl W32 := []
  /-- The exchange in progress, as copied at OPEN (R458), and its N_D. -/
  exCls : Fin 8 := 0
  exFuse : Bool := false
  exMask : BitVec 64 := 0
  exHn : BitVec 64 := 0
  exNd : BitVec 64 := 0
  /-- SEC_SESS_RESP as last written. -/
  resp : Tbl W32 := []
  /-- Consecutive failures, lockout length in s and lockout in force, per class (R459). -/
  fails : Vector Nat 8 := Vector.replicate 8 0
  lock : Vector Nat 8 := Vector.replicate 8 0
  locked : Vector Bool 8 := Vector.replicate 8 false
  /-- The fuse word being programmed: logical word, physical word, DATA; or a GO that ends in an error: word and ERR. -/
  prog : Option (Nat × Nat × W32) := none
  progBad : Option (Nat × Nat) := none
  /-- The SMBus target: session open, opens locked out, NO_SESSION, last open failed, failures in a row, lockout in s. -/
  smbOpen : Bool := false
  smbLock : Bool := false
  smbNo : Bool := false
  smbLast : Bool := false
  smbFails : Nat := 0
  smbLen : Nat := 0
  /-- The JTAG challenge has been met since reset (R467). -/
  dbgOpen : Bool := false
deriving DecidableEq, Repr

/-- The coupling of a twin (R296). -/
inductive Role where
  | disabled | unpaired | standby | active | failed
deriving DecidableEq, Repr

/-- The framer of one twin-link lane (R299, R110 to R115): FSTATE, candidates, alignment, and the lane SN with its lock. -/
structure TwLane where
  st : Nat := 0
  cands : List (Nat × SN) := []
  align : Option Nat := none
  faw : Nat := 0
  lock : Bool := false
  sn : SN := 0
  snRun : Nat := 0
  snPrev : Option SN := none
deriving DecidableEq, Repr

/-- Twin redundancy (chapter 12). -/
structure Twin where
  role : Role := .disabled
  latch : Bool := false
  failOut : Bool := false
  /-- The level of TW_ALIVE_OUT (R292). -/
  alive : Bool := false
  /-- The twin-link lanes are powered (R490), and their framers. -/
  on : Bool := false
  tl : List TwLane := [{}, {}, {}, {}]
  /-- Records waiting for the link, with their group of R301 (0 to 2); the words of the record that the last sweep cut off;
  the overhead of the four lanes and the record stream of that sweep (R67, R299, R300). -/
  txq : List (Nat × Nat × List Nat) := []
  txw : List Word20 := []
  txoh : List (List Word20) := []
  sent' : List Word20 := []
  /-- The words received of a record not yet complete, `none` for one of an uncorrectable codeword, and the records received
  that no command has taken up: TYPE and payload (R300). -/
  rxw : List (Option Word20) := []
  inbox : List (Nat × List Word20) := []
  /-- Sweeps in a row without a SWEEP record (R302), and the timestamp of the last one's arrival. -/
  noSweep : Nat := 0
  arrived : W32 := 0
  /-- This device has sent its PAIR record of the present attempt. -/
  sent : Bool := false
  paired : Bool := false
  ownNonce : BitVec 64 := 0
  /-- The PAIR record received in the present attempt. -/
  gotPair : Option PairRec := none
  /-- The active treats its standby as diverged (R244, R307). -/
  diverged : Bool := false
  /-- On the standby: the next sequence numbers expected of ENTRY and COMMIT, and of CONFIG; none: any. -/
  seqIn : Option Nat := none
  cfgIn : Option Nat := none
  /-- On the standby: highest COMMIT sequence armed and highest CONFIG sequence applied. -/
  commitSeq : Nat := 0
  configSeq : Nat := 0
  /-- On the standby: CONFIG records whose own Loess blocks have not all returned: sequence number and `uid` (R178). -/
  cfgWait : List (Nat × Nat) := []
  /-- On the standby: decisions about groups that no CONFIG record has brought yet. -/
  early : Tbl DecisionRec := []
  /-- On the active: the sequence number of the last CONFIG record. -/
  configOut : Nat := 0
  /-- Descriptors waiting for the standby's acknowledgement: sequence, ring, `uid`, status, RESULT. -/
  waits : List (Nat × Nat × Nat × Nat × BitVec 64) := []
  /-- Matching sweeps in a row per failing lane (R311). -/
  match' : Tbl Nat := []
  /-- A SIG record has come in this sweep. -/
  sigGot : Bool := true
  /-- On the standby: the last STATE record has come; the target of the commit after it; sweeps in a row since then
  with no mismatching lane (R322). -/
  snapLast : Bool := false
  resyncT : Option SN := none
  clean : Nat := 0
  /-- On the active: a resync runs, with the descriptors that wait for it; and its next commit is to come. -/
  resync : Option (List (Nat × Nat)) := none
  resyncLast : Bool := false
  /-- A role swap: ring, `uid`, T, LATE; and its tick of T has come (R321). -/
  swap : Option (Nat × Nat × SN × Bool) := none
  swapHalf : Bool := false
  /-- A promotion runs: LAST_CAUSE, and the lanes whose failing flag was set at d (R315, R317). -/
  promoting : Option (Nat × List Nat) := none
  /-- The GPIO outputs as promotion holds them (R316, R524): levels in [15:0], directions in [31:16]. -/
  gpio : Option W32 := none
  /-- HOLD_TMO as the last promotion found it, and RESYNC_TMO as the last resync did (R324). -/
  holdTmo : Nat := 0
  resyncTmo : Nat := 0
  /-- Promotion holds to end: E, lane mask, ring, `uid` (R323). -/
  unhold : List (SN × BitVec 128 × Nat × Nat) := []
deriving DecidableEq, Repr

/-- Where the device is in its power sequence (Table 19-2). -/
inductive PwrSt where
  | off | por | powerUp | active | entry | down | standby
deriving DecidableEq, Repr

/-- Power and health (chapter 19). -/
structure Pwr where
  st : PwrSt := .active
  /-- The core is out of reset. -/
  core : Bool := true
  en : BitVec 6 := 0x3F
  pg : BitVec 6 := 0x3F
  /-- ORDER value the sequencer works on, and whether it waits for DLY instead of power-good. -/
  ord : Nat := 0
  waitDly : Bool := false
  /-- The wake latch, armed at acceptance (R485, R487). -/
  latch : BitVec 5 := 0
  armed : Bool := false
  /-- The entry sweep T, whether the entry was agreed, and whether the tick of T has come. -/
  entryT : Option SN := none
  agreed : Bool := false
  ticked : Bool := false
  /-- The 100 µs after the tick of T have passed while an AVS step was in progress (R485, R492). -/
  resetDue : Bool := false
  /-- The heartbeat timer and the declaration of mate death are disarmed (R485, R489). -/
  hbOff : Bool := false
  /-- T of this device's LP_PROPOSE that has no answer yet (R486). -/
  propose : Option SN := none
  /-- OFF_MIN has passed since the last rail went off, and a wake waits for it (R481). -/
  offMin : Bool := true
  wakeDue : Bool := false
  /-- A request of R496 exists, and THERM_N is driven low; THERM_DLY runs; wakes are discarded. -/
  thermOut : Bool := false
  thermDue : Bool := false
  discard : Bool := false
  /-- A rail fault came within 1 s of an automatic restart: the next one is not made (R484). -/
  noRestart : Bool := false
  /-- Readings in a row at or above SHUT; PWR_TEMP_WARN is not yet re-armed; monitors outside their window. -/
  overRun : Nat := 0
  warned : Bool := false
  vmon : BitVec 12 := 0
deriving DecidableEq, Repr

/-- The device: everything but the queue, the device SN, the lock and the scratchpad. -/
structure Dev where
  /-- Everything that has left the device, oldest first. -/
  out : List Out := []
  /-- The model's own counter behind the free values. -/
  free : Nat := 0
  /-- BAR0 registers by address, addresses rising; an unlisted word holds its reset value. -/
  regs : Tbl W32 := []
  sw : Switch := {}
  tilth : Tilth := {}
  prot : Prot := {}
  lanes : Tbl Lane := []
  frm : Tbl Framer := []
  deg : Tbl Degrade := []
  /-- Stagger queue of quads; 32 is the twin link (R95, R490). -/
  stagger : List Nat := []
  /-- Overhead fields as the last snapshots took them: per lane TTI words and MDCA_K (R84). -/
  tti : Tbl (List W32) := []
  mdcaK : Tbl Nat := []
  cli : Clients := {}
  hif : Hif := {}
  dma : Dma := {}
  ctl : Ctl := {}
  tim : Tim := {}
  pm : Pm := {}
  chans : Tbl Chan := []
  sec : Sec := {}
  twin : Twin := {}
  pwr : Pwr := {}
deriving DecidableEq, Repr

/-- The scratchpad (R378 to R380): bytes not zero, and words with a double-bit error. -/
structure Scratch where
  mem : List Host.Cell := []
  bad : List Nat := []
deriving DecidableEq, Repr

/-- The state of the machine. -/
structure State where
  /-- Commands waiting, first in first out. -/
  pending : List Instr := []
  /-- The device SN (R33), and whether the first tick has come (R418). -/
  sn : SN := 0
  ticked : Bool := false
  /-- GLB_SETUP_LOCK.LOCK (R13, R508). -/
  lock : Bool := false
  sp : Scratch := {}
  dev : Dev := {}
deriving DecidableEq, Repr

/-- The machine right after reset: the core released on FIO, every register at its reset value, every memory cleared
or listing nothing, no command waiting. -/
def State.reset : State := {}

end Sys2Proof.Machine
end

