-- ==== Sys2Proof/Machine/Flags.lean ====
section
/-! DEFINITION. The check codes the manual computes: CRC-8 (R45), CRC-16 (R147), CRC-32 (R309), BIP-8 (R67), the
parities of Tables 8-7, 11-2 and 1-4, and the justification word (R43 to R49). -/

namespace Sys2Proof.Machine

/-- One step of a CRC of width `w`, most significant bit first. -/
def crcBit {w : Nat} (poly : BitVec w) (crc : BitVec w) (b : Bool) : BitVec w :=
  if crc.msb != b then (crc <<< 1) ^^^ poly else crc <<< 1

/-- A CRC over bits in the order given, without reflection or inversion. -/
def crcBits {w : Nat} (poly init : BitVec w) (bits : List Bool) : BitVec w :=
  bits.foldl (crcBit poly) init

/-- The bits of a word, most significant first. -/
def msbBits {w : Nat} (x : BitVec w) : List Bool := (List.range w).map fun i => x.getMsbD i

/-- CRC-8 of R45, also used for fuse words (R464). -/
def crc8 (bits : List Bool) : BitVec 8 := crcBits 0x07#8 0xFF#8 bits

/-- CRC-16 of R147. -/
def crc16 (bits : List Bool) : BitVec 16 := crcBits 0x1021#16 0xFFFF#16 bits

/-- CRC-32 of R309: the result is complemented. -/
def crc32 (bits : List Bool) : BitVec 32 := ~~~(crcBits 0x04C11DB7#32 0xFFFFFFFF#32 bits)

/-- The number of ones of a word. -/
def ones {w : Nat} (x : BitVec w) : Nat := ((msbBits x).filter id).length

/-- Odd parity over all bits (Table 11-2). -/
def oddParity {w : Nat} (x : BitVec w) : Bool := ones x % 2 == 1

/-- Even parity over all bits, the parity bit included (Table 8-7). -/
def evenParity {w : Nat} (x : BitVec w) : Bool := ones x % 2 == 0

/-- CHK of a justification word: over JW bits 19 to 8 and TID bits 7 to 0 (R45). -/
def jwChk (hi : BitVec 12) (tid : BitVec 19) : BitVec 8 :=
  crc8 (msbBits hi ++ msbBits (tid.extractLsb' 0 8))

/-- The justification word with FILL, MI and TYPE (R43). -/
def jwMake (fill : BitVec 8) (mi : Bool) (ty : BitVec 3) (tid : BitVec 19) : Word20 :=
  let hi : BitVec 12 := fill ++ BitVec.ofBool mi ++ ty
  hi ++ jwChk hi tid

/-- FILL of a JW. -/
def jwFill (w : Word20) : Nat := (w.extractLsb' 12 8).toNat
/-- MI of a JW. -/
def jwMi (w : Word20) : Bool := w.getLsbD 11
/-- TYPE of a JW. -/
def jwType (w : Word20) : BitVec 3 := w.extractLsb' 8 3

/-- The word is maintenance content in the JW position: MI = 1 and TYPE = 0b111 (R49). -/
def jwMaint (w : Word20) : Bool := jwMi w && jwType w == 7#3

/-- The JW is accepted (R48): not maintenance content, CHK matches and FILL is at most `maxFill`. -/
def jwOk (w : Word20) (tid : BitVec 19) (maxFill : Nat) : Bool :=
  !jwMaint w && w.extractLsb' 0 8 == jwChk (w.extractLsb' 8 12) tid && decide (jwFill w ≤ maxFill)

/-- Word `i` (0 to 7) of a grain (R35). -/
def gWord (g : Grain) (i : Nat) : Word20 := g.extractLsb' (140 - 20 * i) 20

/-- A grain from its eight words. -/
def gMake (ws : List Word20) : Grain :=
  (List.range 8).foldl (fun (g : Grain) i => (g <<< 20) ||| ((ws[i]?).getD 0).setWidth 160) 0

/-- Maintenance content of a whole grain: 0xF_FFFF in all 8 words (R49). -/
def gMaint : Grain := BitVec.allOnes 160

/-- The share of one 20-bit word in the eight BIP-8 columns (R67). -/
def bipWord (w : Word20) : BitVec 8 :=
  w.extractLsb' 0 8 ^^^ w.extractLsb' 8 8 ^^^ (w.extractLsb' 16 4).setWidth 8

/-- The share of a grain. -/
def bipGrain (g : Grain) : BitVec 8 := (List.range 8).foldl (fun a i => a ^^^ bipWord (gWord g i)) 0

/-- BIP-8 over the `n` grains of a lane and its overhead words other than o0 and o1 (R67). -/
def bip8 (n : Nat) (p : Page) (oh : List Word20) : BitVec 8 :=
  let listed := p.ovr.filter fun e => decide (e.1 < n)
  let fill := if (n - listed.length) % 2 = 1 then bipGrain p.fill else 0
  (oh.map bipWord ++ listed.map fun e => bipGrain e.2).foldl (· ^^^ ·) fill

/-- The content of position `g` of a page of grains. -/
def pageAt (p : Page) (g : Nat) : Grain := tget p.fill p.ovr g

end Sys2Proof.Machine
end

