-- ==== Sys2Proof/Machine/Ops.lean ====
section
/-! DEFINITION. The named operations over the state: how a meaning reaches the device, register fields, sweep-number
arithmetic (R7, R8), events, twin coupling and acceptable targets (R230). -/

namespace Sys2Proof.Machine

/-- What a meaning answers. -/
abbrev Res := Host.Outcome State Fault Refusal

/-- A command that acts on the device alone: queue, SN, lock and scratchpad stay. -/
def onDev (s : State) (f : Dev → Dev) : Res := .next { s with dev := f s.dev }

/-- A command of the core domain: it acts only while the core is out of reset (R479, R480). -/
def core (s : State) (f : Dev → Dev) : Res :=
  onDev s fun d => if d.pwr.core then f d else d

/-- The index of the element of `f` at address `a`, if there is one. -/
def Fld.idxAt (f : Fld) (a : Nat) : Option Nat :=
  if a < f.base then none else
  let o := a - f.base
  let j := if f.s1 = 0 then 0 else o / f.s1
  let r := if f.s1 = 0 then o else o % f.s1
  let k := if f.s2 = 0 then 0 else r / f.s2
  let i := j * f.n2 + k
  if k < f.n2 ∧ i < f.count ∧ f.addr i = a then some i else none

/-- `w` with bits `[lo + wd - 1 : lo]` set to `v`. -/
def putBits (w : W32) (lo wd v : Nat) : W32 :=
  (w &&& ~~~(BitVec.ofNat 32 (2 ^ wd - 1) <<< lo)) ||| (BitVec.ofNat 32 (v % 2 ^ wd) <<< lo)

/-- Bits `[lo + wd - 1 : lo]` of `w`. -/
def getBits (w : W32) (lo wd : Nat) : Nat := (w.toNat >>> lo) % 2 ^ wd

/-- The reset value of the BAR0 word at `a`: its fields at their reset values, all other bits zero (R6). -/
def rstWord (a : Nat) : W32 :=
  rstFlds.foldl (fun w f => match f.idxAt a with
    | some i => putBits w f.lo f.wd (f.rstAt i)
    | none => w) 0

/-- The register word at `a`. -/
def rdWord (d : Dev) (a : Nat) : W32 := (tfind d.regs a).getD (rstWord a)

/-- Stores a whole register word. -/
def wrWord (d : Dev) (a : Nat) (w : W32) : Dev := { d with regs := tins d.regs a w }

/-- Field `f` at index `i`. -/
def rd (d : Dev) (f : Fld) (i : Nat := 0) : Nat := getBits (rdWord d (f.addr i)) f.lo f.wd

/-- Field `f` at index `i` as a Boolean. -/
def rdB (d : Dev) (f : Fld) (i : Nat := 0) : Bool := rd d f i != 0

/-- Sets field `f` at index `i`. -/
def wr (d : Dev) (f : Fld) (i : Nat) (v : Nat) : Dev :=
  wrWord d (f.addr i) (putBits (rdWord d (f.addr i)) f.lo f.wd v)

/-- Sets a one-bit field. -/
def wrB (d : Dev) (f : Fld) (i : Nat) (b : Bool) : Dev := wr d f i b.toNat

/-- Adds to a counter field, saturating. -/
def sat (d : Dev) (f : Fld) (i : Nat) (n : Nat := 1) : Dev := wr d f i (min (rd d f i + n) (2 ^ f.wd - 1))

/-- Raises an event: it waits for EVENT_RECORD (R341). -/
def raise (d : Dev) (e : Ev) : Dev :=
  { d with hif := { d.hif with evq := d.hif.evq ++ [{ e with sb := d.twin.role == .standby }] } }

/-- Something leaves the device. -/
def emit (d : Dev) (o : Out) : Dev := { d with out := d.out ++ [o] }

/-- Advances the counter behind the free values. -/
def freed (d : Dev) : Dev := { d with free := d.free + 1 }

/-- Adds `n` occurrences of event `evt` with argument `arg` to every performance counter that selects it (R445): the
argument 0xFF counts every one where Table 17-10 says "all" (events 0x02 and 0x07 and the events without ARG). -/
def perf (d : Dev) (evt arg : Nat) (n : Nat := 1) : Dev :=
  (List.range 32).foldl (fun d i =>
    let a := rd d F.PMN_PERF_SEL_ARG i
    if rd d F.PMN_PERF_SEL_EVT i = evt ∧ n ≠ 0 ∧
        (a = arg ∨ ((evt = 2 ∨ evt = 7) ∧ a = 0xFF) ∨ evt ∈ [1, 3, 4, 5, 0xB, 0xC, 0xD, 0xE, 0x13]) then
      let v := (tget (0 : BitVec 48) d.pm.perf i).toNat + n
      { d with pm := { d.pm with perf := tput 0 d.pm.perf i (BitVec.ofNat 48 (min v (2 ^ 48 - 1))),
                                 ovf := if 2 ^ 48 - 1 ≤ v then d.pm.ovf ||| BitVec.ofNat 32 (2 ^ i) else d.pm.ovf } }
    else d) d

/-- Sends an MSI-X message on a vector, or sets its pending bit while the vector is masked or the port is frozen
(R349, R374). -/
def sendMsi (d : Dev) (vec : Nat) : Dev :=
  if rdB d F.MSIX_CTL vec || rdB d F.ARB_STATUS_FROZEN then
    wr d F.MSIX_PBA (vec / 32) (rd d F.MSIX_PBA (vec / 32) ||| 2 ^ (vec % 32))
  else perf (emit d (.msix vec)) 0xF vec

/-- A non-maskable event on HIF_CFG.NMI_VEC (R350). -/
def nmi (d : Dev) : Dev := sendMsi { d with hif := { d.hif with nmi := d.hif.nmi + 1 } } (rd d F.HIF_CFG_NMI_VEC)

/-- A message on HIF_CFG.ERR_VEC (R350). -/
def errMsg (d : Dev) : Dev := sendMsi d (rd d F.HIF_CFG_ERR_VEC)

/-- `t` lies in the future of `now` (R7). -/
def snFuture (t now : SN) : Bool := decide (1 ≤ (t - now).toNat ∧ (t - now).toNat < 2 ^ 31)

/-- `t` has been reached: it is `now` or in its past. -/
def snDue (t now : SN) : Bool := !snFuture t now

/-- Sweeps from `a` to `b`. -/
def snAge (a b : SN) : Nat := (b - a).toNat

/-- A twin is coupled (R230, R296): the standby is in RESYNC or LOCKSTEP, the link is up, and the active does not
treat it as diverged. -/
def coupled (d : Dev) : Bool :=
  (d.twin.role == .active || d.twin.role == .standby) && rdB d F.TWN_STATUS_LINK &&
    decide (2 ≤ rd d F.TWN_STATUS_COUPLING) && !d.twin.diverged

/-- The device acts as a standby: it is one, or its role swap has passed the tick of T (Table 12-3, R321). -/
def isStandby (d : Dev) : Bool := d.twin.role == .standby || d.twin.swapHalf

/-- Sweeps from now to the earliest acceptable SN (R230). -/
def lead (d : Dev) : Nat := if coupled d then 4 else 2

/-- The earliest acceptable SN, E (R230). -/
def earliest (d : Dev) (sn : SN) : SN := sn + BitVec.ofNat 32 (lead d)

/-- `t` is an acceptable target (R230). -/
def acceptable (d : Dev) (sn t : SN) : Bool :=
  decide (lead d ≤ (t - sn).toNat ∧ (t - sn).toNat < 2 ^ 31)

/-- The target a timed action gets, and whether the LATE rule applied (R231). -/
def fixTarget (d : Dev) (sn : SN) (timed : Bool) (t : SN) : SN × Bool :=
  if timed then (if acceptable d sn t then (t, false) else (earliest d sn, true)) else (earliest d sn, false)

/-- The sweep X at which a decision of an evaluation `ns` after the tick of `sn` applies: the first tick at least
150 ns, or 700 ns while coupled, after it (R259). -/
def applyAt (d : Dev) (sn : SN) (ns : Nat) : SN :=
  if 10 * (ns + (if coupled d then 700 else 150)) ≤ 16384 then sn + 1
  else if 10 * (ns + (if coupled d then 700 else 150)) ≤ 32768 then sn + 2 else sn + 3

/-- Sweeps of a hold-off of `ms` milliseconds: ceil(ms × 610.3515625) (R253). -/
def holdOffSweeps (ms : Nat) : Nat := (ms * 6103515625 + 9999999) / 10000000

/-- Sweeps of a wait-to-restore of `s` seconds: ceil(s × 610351.5625) (R256). -/
def wtrSweeps (s : Nat) : Nat := (s * 6103515625 + 9999) / 10000

/-- ceil(a / b). -/
def cdiv (a b : Nat) : Nat := (a + b - 1) / b

/-- The personality of a lane (LNE_CFG.PERS). -/
def persOf (d : Dev) (n : Nat) : Nat := rd d F.LNE_CFG_PERS n

/-- The personality is a GLF personality (Table 4-1). -/
def isGlf (p : Nat) : Bool := decide (1 ≤ p ∧ p ≤ 4)

/-- The personality is a client personality. -/
def isClient (p : Nat) : Bool := decide (5 ≤ p ∧ p ≤ 11)

/-- The personality's modulation is PAM4 (Table 4-1). -/
def isPam4 (p : Nat) : Bool := p == 1 || p == 2 || p == 3 || p == 5 || p == 6

/-- The divider group of a personality (Table 4-1), none for 0x0 and the reserved ones. -/
def persGroup (p : Nat) : Option Nat :=
  if 1 ≤ p ∧ p ≤ 6 then some 0 else if p = 7 ∨ p = 8 then some 1
  else if p = 9 ∨ p = 11 then some 2 else if p = 10 then some 3 else none

/-- Codewords, and so overhead words, per sweep of a GLF personality (R54). -/
def codewords (p : Nat) : Nat := if p = 1 then 64 else if p = 2 then 32 else if p = 3 then 16 else if p = 4 then 8 else 0

/-- Valid grain positions of a port (R36). -/
def positions (d : Dev) (port : Nat) : Nat :=
  if port < 128 then (if isGlf (persOf d port) then 32 * codewords (persOf d port) else 2048) else 2048

/-- The quad of a lane. -/
def quadOf (n : Nat) : Nat := n / 4

/-- Both directions of a lane are disabled. -/
def laneOff (d : Dev) (n : Nat) : Bool := !rdB d F.LNE_CTL_TX_EN n && !rdB d F.LNE_CTL_RX_EN n

/-- All eight directions of a quad are disabled. -/
def quadOff (d : Dev) (q : Nat) : Bool := (List.range 4).all fun j => laneOff d (4 * q + j)

/-- The condition of a lane (R122, FRM_RX_STATUS.COND). -/
def laneCond (d : Dev) (n : Nat) : Cond :=
  match rd d F.FRM_RX_STATUS_COND n with | 0 => .none | 1 => .sd | _ => .sf

/-- The code of a condition (Table 5-9, Table 11-5). -/
def Cond.code : Cond → Nat | .none => 0 | .sd => 1 | .sf => 2

/-- The more severe of two conditions (R252). -/
def Cond.worst (a b : Cond) : Cond := if a.code ≤ b.code then b else a

/-- Updates the entry of list position `i`. -/
def lmod {α : Type} (l : List α) (i : Nat) (f : α → α) : List α := l.mapIdx fun j x => if j = i then f x else x

/-- Sets list position `i`. -/
def lset {α : Type} (l : List α) (i : Nat) (x : α) : List α := lmod l i fun _ => x

/-- Adds to a running 48-bit counter, saturating (R164). Kinds are those of `cntKey`. -/
def cntKey (kind obj idx : Nat) : Nat := (kind * 4194304 + obj) * 64 + idx

/-- Adds `n` to the running counter (Table 6-6, R435). -/
def count (d : Dev) (kind obj idx : Nat) (n : Nat := 1) : Dev :=
  let k := cntKey kind obj idx
  let v := (tget (0 : BitVec 48) d.cli.cnts k).toNat + n
  { d with cli := { d.cli with cnts := tput 0 d.cli.cnts k (BitVec.ofNat 48 (min v (2 ^ 48 - 1))) } }

/-- Adds to what has been seen of an object in the current second. -/
def seenOr (d : Dev) (kind obj bits : Nat) : Dev :=
  if bits = 0 then d else { d with pm := { d.pm with seen := tmod 0 d.pm.seen (cntKey kind obj 0) (· ||| bits) } }

/-- The role's code (TWN_STATUS.ROLE). -/
def Role.code : Role → Nat | .disabled => 0 | .unpaired => 1 | .standby => 2 | .active => 3 | .failed => 4

/-- The device enters standby: it fetches no descriptor, and nothing that is open completes (R485). -/
def entering (d : Dev) : Bool := d.pwr.st == .entry

/-- The group of R301 in which a record is sent: SIG after the first, ENTRY, CONFIG and STATE last. -/
def twinGroup (typ : Nat) : Nat := if typ = 4 then 1 else if typ = 5 ∨ typ = 0xA ∨ typ = 0xB then 2 else 0

/-- Hands a record to the twin link. -/
def twinPut (d : Dev) (typ : Nat) (ws : List Nat) : Dev :=
  emit { d with twin := { d.twin with txq := d.twin.txq ++ [(twinGroup typ, typ, ws)] } } (.twin typ ws)

/-- Sends a twin-link record (Table 12-4). -/
def twinSend (d : Dev) (typ : Nat) (ws : List Nat) : Dev :=
  if rdB d F.TWN_STATUS_LINK then twinPut d typ ws else d

/-- The queue of mirrored descriptors, which no host reads. -/
def mirrorRing : Nat := 64

/-- The standby acknowledges what it has armed and applied (R243, R307); a CONFIG record counts as applied once its own
Loess blocks have returned (R178). -/
def sendAck (d : Dev) : Dev :=
  twinSend d 7 [d.twin.commitSeq, match d.twin.cfgWait with | w :: _ => w.1 - 1 | [] => d.twin.configSeq]

end Sys2Proof.Machine
end

