-- ==== Sys2Proof/Machine/Operands.lean ====
section
/-! DEFINITION. The operands of command descriptors (R333 to R335): the header, the body fields of Table 13-7, the
reserved bits, unit codes, the unit that serves each opcode (Table 1-6) and the bytes of records. -/

namespace Sys2Proof.Machine

/-- Bits `[lo + wd - 1 : lo]` counted from byte `off` of a descriptor. -/
def dF (raw : BitVec 512) (off lo wd : Nat) : Nat := (raw.toNat >>> (8 * off + lo)) % 2 ^ wd

/-- One bit of a descriptor. -/
def dB (raw : BitVec 512) (off lo : Nat) : Bool := raw.getLsbD (8 * off + lo)

/-- OPCODE, TIMED, FENCE, TARGET_SN and TAG of the header (Table 13-5). -/
def opOf (raw : BitVec 512) : Nat := dF raw 0 0 8
def timedOf (raw : BitVec 512) : Bool := dB raw 1 0
def fenceOf (raw : BitVec 512) : Bool := dB raw 1 1
def targetOf (raw : BitVec 512) : SN := raw.extractLsb' 32 32
/-- A descriptor with another target, and without its TIMED flag. -/
def putTarget (raw : BitVec 512) (x : SN) : BitVec 512 := (raw &&& ~~~((BitVec.allOnes 32).setWidth 512 <<< 32)) ||| (x.setWidth 512 <<< 32)
def untimed (raw : BitVec 512) : BitVec 512 := raw &&& ~~~((1 : BitVec 512) <<< 8)
def tagOf (raw : BitVec 512) : BitVec 64 := raw.extractLsb' 64 64

/-- The units that serve opcodes (Table 1-6). -/
inductive Server where
  | tilth | prot | disp | fw
deriving DecidableEq, Repr

/-- The serving unit of an opcode (Table 1-6). -/
def unitOf (op : Nat) : Server :=
  if (1 ≤ op ∧ op ≤ 6) ∨ op = 0x60 ∨ op = 0x61 then .tilth
  else if op = 0x12 then .prot else if op = 0x7F then .disp else .fw

/-- The opcodes of Table 13-8. -/
def opcodes : List Nat :=
  [1, 2, 3, 4, 5, 6, 0x10, 0x11, 0x12, 0x20, 0x21, 0x22, 0x23, 0x30, 0x31, 0x32, 0x40, 0x50, 0x60, 0x61, 0x70, 0x71, 0x7E, 0x7F]

/-- The named body fields of an opcode as (byte offset, low bit, width), Table 13-7. LANES replaces EGRESS in a 1:N
PG_CREATE (TYPE 0x2 of Table 10-1). -/
def bodyFields (raw : BitVec 512) : List (Nat × Nat × Nat) :=
  let op := opOf raw
  if op = 1 then [(16, 0, 20), (20, 0, 20), (24, 0, 20)]
  else if op = 2 then [(16, 0, 20)]
  else if op = 3 then [(16, 0, 20), (20, 0, 20), (24, 0, 1)]
  else if op = 4 then [(16, 0, 1)]
  else if op = 0x10 then [(16, 0, 29), (20, 0, 17), (24, 0, 24), (28, 0, 7), (28, 8, 7), (32, 0, 20), (52, 0, 15), (56, 0, 64)] ++
    (if dF raw 16 17 2 = 2 then [(36, 0, 128)] else [(36, 0, 20)])
  else if op = 0x11 then [(16, 0, 17)]
  else if op = 0x12 then [(16, 0, 17), (16, 20, 8)]
  else if op = 0x20 then [(16, 0, 29), (20, 0, 30), (24, 0, 23), (28, 0, 31), (32, 0, 64), (40, 0, 64), (48, 0, 64)]
  else if op = 0x21 then [(16, 0, 19)]
  else if op = 0x22 then [(16, 0, 20), (20, 0, 20)]
  else if op = 0x23 then [(16, 0, 20)]
  else if op = 0x30 then [(16, 0, 16), (20, 0, 32), (24, 0, 320)]
  else if op = 0x31 then [(16, 0, 2), (16, 8, 8), (20, 0, 32), (24, 0, 32)]
  else if op = 0x32 then [(16, 0, 32), (20, 0, 17)]
  else if op = 0x40 then [(16, 0, 4), (20, 0, 24), (24, 0, 24), (28, 0, 24), (32, 0, 24), (36, 0, 24), (40, 0, 24)]
  else if op = 0x50 then [(16, 0, 9), (20, 0, 5)]
  else if op = 0x60 ∨ op = 0x61 then [(16, 0, 3)]
  else if op = 0x71 then [(16, 0, 1), (20, 0, 128)]
  else if op = 0x7E then [(16, 0, 64), (24, 0, 32), (28, 0, 2)]
  else []

/-- The bits of a descriptor that its opcode names, the header's among them. -/
def namedMask (raw : BitVec 512) : Nat :=
  ((0, 0, 10) :: (4, 0, 96) :: bodyFields raw).foldl (fun m f => m ||| ((2 ^ f.2.2 - 1) <<< (8 * f.1 + f.2.1))) 0

/-- The byte offset of the first reserved field that is not zero (R333): rows of Table 13-5 for the header, the
32-bit word for the body. -/
def reservedAt (raw : BitVec 512) : Option Nat :=
  let bad := raw &&& ~~~BitVec.ofNat 512 (namedMask raw)
  (List.range 64).findSome? fun b =>
    if bad.extractLsb' (8 * b) 8 = 0 then none
    else if b < 2 then some b else if b < 4 then some 2 else some (4 * (b / 4))

/-- A problem of a descriptor: byte offset of the field and reason of Table 13-11. -/
abbrev Prob := Nat × Nat

/-- The first problem: the lowest offset, and at one offset the lowest reason. -/
def firstProb : List Prob → Option Prob
  | [] => none
  | p :: r => match firstProb r with
    | none => some p
    | some q => if p.1 < q.1 ∨ (p.1 = q.1 ∧ p.2 ≤ q.2) then some p else some q

/-- DETAIL of a BAD_DESC. -/
def probDetail (p : Prob) : Nat := p.1 + 256 * p.2

/-- `p` with reason `r` where `c` holds. -/
def probIf (c : Bool) (off r : Nat) : List Prob := if c then [(off, r)] else []

/-- The problem of reserved bits, if any. -/
def reservedProb (raw : BitVec 512) : List Prob := match reservedAt raw with | some o => [(o, 2)] | none => []

/-- Completion statuses (Table 13-11). -/
def stOk : Nat := 0
def stLate : Nat := 1
def stRearranged : Nat := 2
def stBlocked : Nat := 3
def stNoPool : Nat := 4
def stFault : Nat := 0x10
def stDenied : Nat := 0x11
def stBadDesc : Nat := 0x12
def stAborted : Nat := 0x13
def stLockTimeout : Nat := 0x14
def stDiverged : Nat := 0x15

/-- The value "none" of a unit code (Table 13-6). -/
def unitNone : Nat := 0xFFFFF

/-- A unit code names a grain: bit 19 clear and a port of the device; its code is `port * 2048 + grain`. -/
def isGrain (u : Nat) : Bool := decide (u < 132 * 2048)

/-- A unit code names a fine slot. -/
def isFine (u : Nat) : Bool := decide (0x80000 ≤ u ∧ u < 0x90000)

/-- The port and the grain of a grain's code, and the slot of a fine slot's. -/
def portOf (u : Nat) : Nat := u / 2048
def grainOf (u : Nat) : Nat := u % 2048
def fineOf (u : Nat) : Nat := u - 0x80000

/-- The unit lies in the range that R3 and R36 give it. -/
def unitInRange (d : Dev) (u : Nat) : Bool :=
  isFine u || (isGrain u && decide (grainOf u < positions d (portOf u)))

/-- Places 32-bit words, first at the lowest address, in a record. -/
def packWords (ws : List Nat) : Nat := ws.foldr (fun w acc => w % 2 ^ 32 + 2 ^ 32 * acc) 0

/-- Bits `v` at byte `off`. -/
def atByte (off v : Nat) : Nat := v <<< (8 * off)

/-- The phase bit of record `j` (R331). -/
def phaseBit (log2 j : Nat) : Nat := if (j >>> log2) % 2 = 0 then 1 else 0

end Sys2Proof.Machine
end

