-- ==== Sys2Proof/Machine/Queue.lean ====
section
/-! DEFINITION. Named operations over the rings (chapter 13) and over the host port's addresses (R356, R357): where a
ring stands, which descriptor a unit serves next, how records are laid out and written, traces and their folding. -/

namespace Sys2Proof.Machine

/-- The ring's state beside its registers. -/
def ringOf (d : Dev) (r : Nat) : Ring := tget {} d.hif.rings r

/-- Updates it. -/
def modRing (d : Dev) (r : Nat) (f : Ring → Ring) : Dev := { d with hif := { d.hif with rings := tmod {} d.hif.rings r f } }

/-- HIF_RING_STATUS.STATE: 0 DISABLED, 1 ACTIVE, 2 PAUSED, 3 FAULTED, 4 RESETTING. -/
def rState (d : Dev) (r : Nat) : Nat := rd d F.HIF_RING_STATUS_STATE r
def rSet (d : Dev) (r st : Nat) : Dev := wr d F.HIF_RING_STATUS_STATE r st

/-- The ring is bound to an open session (R329). -/
def bound (d : Dev) (r : Nat) : Bool := rd d F.HIF_RING_STATUS_SESS r != 0xF

/-- LOG2_SIZE: 6 to 16, other values act as 6 (Table 13-3). -/
def rLog2 (d : Dev) (r : Nat) : Nat :=
  let v := rd d F.HIF_RING_CFG_LOG2_SIZE r
  if 6 ≤ v ∧ v ≤ 16 then v else 6

/-- P and C, and how many records the ring holds (R327). -/
def rP (d : Dev) (r : Nat) : Nat := rd d F.HIF_RING_PIDX r
def rC (d : Dev) (r : Nat) : Nat := rd d F.HIF_RING_CIDX r
def rHeld (d : Dev) (r : Nat) : Nat := (rP d r + 2 ^ 32 - rC d r) % 2 ^ 32

/-- The producer may write a record (R327). -/
def rRoom (d : Dev) (r : Nat) : Bool := decide (rHeld d r < 2 ^ rLog2 d r)

/-- Bytes of a record (Table 13-2). -/
def recBytes (r : Nat) : Nat := if r < 16 then 64 else if r < 36 then 32 else if r < 38 then 256 else if r < 40 then 64 else 32

/-- Host-produced rings: CMD0 to CMD15 and MCT. -/
def hostRing (r : Nat) : Bool := decide (r < 16) || r == 38

/-- The ring that is reset and faults with `r`: CMDn and CPLn together (R351, R352). -/
def pairRings (r : Nat) : List Nat := if r < 16 then [r, r + 16] else if r < 32 then [r - 16, r] else [r]

/-- The address of record `j` of the ring (R326). -/
def recAddr (d : Dev) (r j : Nat) : Nat :=
  rd d F.HIF_RING_BASE_LO r + 2 ^ 32 * rd d F.HIF_RING_BASE_HI r + (j % 2 ^ rLog2 d r) * recBytes r

/-- The port is frozen (R372, R374). -/
def frozen (d : Dev) : Bool := rdB d F.ARB_STATUS_FROZEN

/-- The ATS cache entry that covers an address (R357). -/
def atsHit (d : Dev) (a : Nat) : Option AtsEnt := d.dma.cache.find? fun e => decide (e.base ≤ a ∧ a < e.base + 4096 * 2 ^ e.size)

/-- The DMA of an access may be issued: ATS is off, or the cache holds a usable translation (R356, R360). -/
def dmaOk (d : Dev) (a : Nat) (w : Bool) : Bool :=
  !d.dma.enable || (match atsHit d a with | some e => e.u || (if w then e.w else e.r) | none => false)

/-- A cache miss: it is counted and a Translation Request is sent (R357, Table 14-7). -/
def dmaMiss (d : Dev) (a : Nat) : Dev := emit (perf (sat d F.HIF_ATS_MISS 0) 0xC 0) (.transReq (a / 4096 * 4096))

/-- Next page prefetch of R358 after the ring's position moved to `j`. -/
def prefetch (d : Dev) (r j : Nat) : Dev :=
  let a := recAddr d r j
  let per := 4096 / recBytes r
  let nxt := recAddr d r (if 2 ^ rLog2 d r ≤ per then j else j + per) / 4096 * 4096
  if d.dma.enable && rdB d F.HIF_ATS_CFG_PREFETCH && decide (3072 ≤ a % 4096 ∧ a % 4096 < 3072 + recBytes r) &&
      (atsHit d nxt).isNone then emit d (.transReq nxt) else d

/-- Advances P of a device-produced ring, or C of a host-produced one. -/
def rAdv (d : Dev) (r : Nat) : Dev :=
  if hostRing r then
    let d := { d with dma := { d.dma with second := d.dma.second.filter (· != r) } }
    let d := wr d F.HIF_RING_CIDX r ((rC d r + 1) % 2 ^ 32)
    prefetch (modRing d r fun x => { x with wbDue := true }) r (rC d r)
  else
    let d := wr d F.HIF_RING_PIDX r ((rP d r + 1) % 2 ^ 32)
    prefetch (modRing d r fun x => { x with since := x.since + 1 }) r (rP d r)

/-- Writes a record of a device-produced ring with its phase bit in bit 0 of its last byte (R331). -/
def writeRec (d : Dev) (r : Nat) (bits : Nat) : Dev :=
  let j := rP d r
  let b := bits ||| atByte (recBytes r - 1) (phaseBit (rLog2 d r) j)
  rAdv (emit d (.record r j (BitVec.ofNat 2048 b))) r

/-- A record can be written to ring `r` now: ACTIVE (or a completion ring whose command ring has failed), a slot free,
the port not frozen, the page translated. -/
def canWrite (d : Dev) (r : Nat) : Bool :=
  (rState d r == 1 || (rState d r == 3 && decide (16 ≤ r ∧ r < 32) && !(ringOf d r).lost)) && rRoom d r && !frozen d && dmaOk d (recAddr d r (rP d r)) true

/-- The 32-byte layout of events and traces (Tables 13-12 and 17-11). -/
def evBits (e : Ev) (seq : Nat) : Nat :=
  packWords [e.typ % 2 ^ 16 + 2 ^ 16 * e.sb.toNat, e.sn.toNat, seq, e.p0, e.p1, e.p2, e.p3]

/-- Writes an event or trace record, counting SEQ. -/
def writeEv (d : Dev) (r : Nat) (e : Ev) : Dev :=
  let q := (ringOf d r).seq
  let d := writeRec d r (evBits e q)
  let d := modRing d r fun x => { x with seq := (q + 1) % 2 ^ 32 }
  if 32 ≤ r ∧ r < 36 then perf d 7 (r - 32) else d

/-- Folds a record into the summary of its type (R345). -/
def foldIn (e : Ev) : List Fold → List Fold
  | [] => [⟨e.typ, 1, e.sn, e.sn, e.p0⟩]
  | f :: r => if f.key = e.typ then { f with count := min (f.count + 1) 0xFFFFFFFF, last := e.sn, p0 := e.p0 } :: r
      else f :: foldIn e r

/-- Folds a record on ring `r`. -/
def foldEv (d : Dev) (r : Nat) (e : Ev) : Dev := perf (modRing d r fun x => { x with folds := foldIn e x.folds }) 8 r

/-- The OVERFLOW_SUMMARY record of a fold (R345). -/
def summaryEv (d : Dev) (f : Fold) : Ev :=
  { typ := 0xFF, sn := f.last, sb := d.twin.role == .standby, p0 := f.key, p1 := f.count, p2 := f.first.toNat, p3 := f.p0 }

/-- The EVT ring of an event (R342). -/
def evRing (d : Dev) (e : Ev) : Nat := 32 + (rd d F.HIF_EVT_ROUTE >>> (2 * (e.typ / 16 % 16))) % 4

/-- Writes the oldest staged trace records while TRC takes them (R449); `n` bounds the number. -/
def trcDrain : Nat → Dev → Dev
  | 0, d => d
  | n + 1, d => match d.pm.trc with
    | [] => d
    | e :: r => if canWrite d 40 && (ringOf d 40).folds.isEmpty then
        trcDrain n (writeEv { d with pm := { d.pm with trc := r } } 40 e) else d

/-- Produces a trace record: it is staged in the buffer of 8192 records and written as TRC takes it; with both full
it folds (R449); a frozen port holds 16 more for TRC (R374). P3 is the offset within the sweep, which nothing in the model measures: a free value. -/
def trace (d : Dev) (sn : SN) (src p0 p1 p2 : Nat) : Dev :=
  let e : Ev := { typ := src, sn := sn, p0 := p0, p1 := p1, p2 := p2, p3 := (Config.freeWord d.free).toNat % 1639 }
  let d := trcDrain 8192 (freed d)
  if d.pm.trc.length < 8192 + (if frozen d then 16 else 0) then trcDrain 8192 { d with pm := { d.pm with trc := d.pm.trc ++ [e] } } else foldEv d 40 e

/-- The first descriptor of a command ring that unit `u` has been handed and has not yet served; a held BATCH_OPEN
stops every descriptor behind it (R233). -/
def nextFor (u : Server) : List QEnt → Option QEnt
  | [] => none
  | e :: r => if e.ph = .dispatched ∧ unitOf (opOf e.raw) = u then some e
      else if e.ph = .dispatched ∧ opOf e.raw = 4 then none else nextFor u r

/-- Firmware serves opcode `op` now: it is ready, the core of Table 15-1 runs, and no activation holds the opcodes
(R392, R393, R396, R398). -/
def fwRuns (d : Dev) (op : Nat) : Bool :=
  rdB d F.CTL_CORE_STATUS_FW_READY && d.ctl.act.isNone &&
    (if 0x30 ≤ op ∧ op ≤ 0x32 then rd d F.CTL_CORE_STATUS_C1_STATE == 2 else rd d F.CTL_CORE_STATUS_C0_STATE == 2)

/-- The descriptor that the command with opcode `op` on ring `r` serves. -/
def servedBy (d : Dev) (r op : Nat) : Option QEnt :=
  if unitOf op = .fw && !fwRuns d op then none else
  match nextFor (unitOf op) (ringOf d r).q with
  | some e => if opOf e.raw = op then some e else none
  | none => none

/-- Sets the phase of a descriptor. -/
def setPh (d : Dev) (r uid : Nat) (p : QPhase) : Dev :=
  modRing d r fun x => { x with q := x.q.map fun e => if e.uid = uid then { e with ph := p } else e }

/-- A unit has taken the descriptor up; its completion comes later. -/
def take (d : Dev) (r uid : Nat) : Dev := setPh d r uid .taken

/-- The descriptor is served: its completion waits to be written in order (R23, R337). -/
def finish (d : Dev) (r uid st det : Nat) (sn : SN) (res : BitVec 64 := 0) : Dev :=
  setPh d r uid (.done st det sn res (d.hif.evOut + d.hif.evq.length))

/-- Completes with BAD_DESC. -/
def badDesc (d : Dev) (r uid : Nat) (sn : SN) (p : Prob) : Dev := finish d r uid stBadDesc (probDetail p) sn

/-- The completion record (Table 13-9). -/
def cplBits (e : QEnt) (st det : Nat) (sn : SN) (res : BitVec 64) : Nat :=
  packWords [opOf e.raw + 256 * (st % 256) + 65536 * (det % 65536), sn.toNat, (tagOf e.raw).toNat, (tagOf e.raw).toNat / 2 ^ 32,
    res.toNat, res.toNat / 2 ^ 32, e.idx]

/-- A DESC_ACT trace of a tagged descriptor (R448). -/
def traceAct (d : Dev) (sn : SN) (r uid : Nat) : Dev :=
  match (ringOf d r).q.find? (fun e => e.uid = uid) with
  | some e => if e.tagged then trace d sn 0x12 r e.idx (opOf e.raw) else d
  | none => d

end Sys2Proof.Machine
end

