-- ==== Sys2Proof/Machine/Place.lean ====
section
/-! DEFINITION. Slot choice, rearrangement by chains, and the staging of connections into the shadow page
(R219 to R228). A plan is a shadow page under change with the entries written into it, in order. -/

namespace Sys2Proof.Machine

/-- Entry defaults: ingress and egress EN = 0, center no source, fine EN = 0 (R501). -/
def ingD : BitVec 12 := 0
def cenD : BitVec 8 := 0xFF
def egrD : BitVec 25 := 0
def finD : BitVec 20 := 0

def ingAt (pg : CmPage) (i c : Nat) : BitVec 12 := tget ingD pg.ing (i * 4096 + c)
def cenAt (pg : CmPage) (c e : Nat) : BitVec 8 := tget cenD pg.cen (c * 132 + e)
/-- The egress entry of a grain, by its unit code. -/
def egrAt (pg : CmPage) (u : Nat) : BitVec 25 := tget egrD pg.egr u
def finAt (pg : CmPage) (f : Nat) : BitVec 20 := tget finD pg.fine f

/-- W_CS, P_CS and EN of an egress entry (Table 8-3), and the entry made of them. -/
def wCs (x : BitVec 25) : Nat := (x.extractLsb' 0 12).toNat
def pCs (x : BitVec 25) : Nat := (x.extractLsb' 12 12).toNat
def egrEn (x : BitVec 25) : Bool := x.getLsbD 24
def egrMk (w p : Nat) : BitVec 25 := BitVec.ofNat 25 (w % 4096 + 4096 * (p % 4096) + 2 ^ 24)

/-- An enabled ingress entry that reads grain `g` (Table 8-1). -/
def ingMk (g : Nat) : BitVec 12 := BitVec.ofNat 12 (g % 2048 + 2048)

/-- A fine connection entry with even parity in PAR (Table 8-7). -/
def finMk (src : Nat) : BitVec 20 :=
  let x : BitVec 19 := BitVec.ofNat 19 (src % 65536 + 65536)
  BitVec.ofBool (!evenParity x) ++ x

/-- One page of the connection memories, by its PAGE bit, and the active and the shadow page. -/
def cmOf (s : Switch) (pg : Bool) : CmPage := if pg then s.cm1 else s.cm0
def active (d : Dev) : CmPage := cmOf d.sw d.sw.page
def shadow (d : Dev) : CmPage := cmOf d.sw (!d.sw.page)
def setShadow (d : Dev) (p : CmPage) : Dev :=
  { d with sw := if d.sw.page then { d.sw with cm0 := p } else { d.sw with cm1 := p } }

/-- Writes one entry of a page. -/
def writeEnt (pg : CmPage) (w : EntryWr) : CmPage :=
  match w.mem with
  | 0 => { pg with ing := tput ingD pg.ing w.key (w.val.setWidth 12) }
  | 1 => { pg with cen := tput cenD pg.cen w.key (w.val.setWidth 8) }
  | 2 => { pg with egr := tput egrD pg.egr w.key (w.val.setWidth 25) }
  | 3 => pg
  | 4 => { pg with fine := tput finD pg.fine w.key (w.val.setWidth 20) }

/-- A shadow page under change, the entries written, the uses exchanged and the chains made. -/
structure Plan where
  pg : CmPage
  ws : List EntryWr := []
  uses : Nat := 0
  chains : Nat := 0
deriving DecidableEq, Repr

def Plan.put (p : Plan) (mem : Fin 5) (key val : Nat) : Plan :=
  let w : EntryWr := { mem := mem, key := key, val := BitVec.ofNat 32 val }
  { p with pg := writeEnt p.pg w, ws := p.ws ++ [w] }

def Plan.ing (p : Plan) (i c : Nat) (v : BitVec 12) : Plan := p.put 0 (i * 4096 + c) v.toNat
def Plan.cen (p : Plan) (c e : Nat) (v : Nat) : Plan := p.put 1 (c * 132 + e) v
def Plan.egr (p : Plan) (u : Nat) (v : BitVec 25) : Plan := p.put 2 u v.toNat
def Plan.fin (p : Plan) (f : Nat) (v : BitVec 20) : Plan := p.put 4 f v.toNat

/-- Slots of port `i` whose ingress entry is enabled, as a set of bits (R193). -/
def occIn (pg : CmPage) (i : Nat) : Nat :=
  pg.ing.foldl (fun m e => if e.1 / 4096 = i ∧ e.2.getLsbD 11 then m ||| 1 <<< (e.1 % 4096) else m) 0

/-- Slots named by an enabled egress entry of port `e`. -/
def occOut (pg : CmPage) (e : Nat) : Nat :=
  pg.egr.foldl (fun m x => if x.1 / 2048 = e ∧ egrEn x.2 then m ||| 1 <<< wCs x.2 ||| 1 <<< pCs x.2 else m) 0

/-- Slots of egress port `e` that a hold freezes (R200). -/
def frozenSlots (d : Dev) (e : Nat) : Nat :=
  d.sw.sel.foldl (fun m x => if x.1 / 2048 = e then (match x.2.frz with | some f => m ||| 1 <<< f.1 | none => m) else m) 0

/-- GLB_PLANE_STATUS.STATE: 0 IN_SERVICE, 1 EVACUATING, 2 RETIRED, 3 RESTORING. -/
def planeSt (d : Dev) (p : Nat) : Nat := rd d F.GLB_PLANE_STATUS_STATE p

/-- The slots of planes that are not IN_SERVICE (R224). -/
def planeMask (d : Dev) : Nat :=
  (List.range 8).foldl (fun m p => if planeSt d p = 0 then m
    else m ||| (List.range 512).foldl (fun m k => m ||| 1 <<< (8 * k + p)) 0) 0

/-- The occupancy vectors of R224 while the shadow stands as in the plan. -/
def busyIn (d : Dev) (p : Plan) (i : Nat) : Nat := occIn (active d) i ||| occIn p.pg i ||| planeMask d
def busyOut (d : Dev) (p : Plan) (e : Nat) : Nat := occOut (active d) e ||| occOut p.pg e ||| frozenSlots d e ||| planeMask d

/-- U_in and U_out (R193, R224): slots used by an active or staged entry, or frozen. -/
def bitCount (m : Nat) : Nat := ((List.range 4096).filter fun c => m.testBit c).length
def uIn (d : Dev) (i : Nat) : Nat :=
  bitCount (occIn (active d) i ||| (if d.tilth.released then occIn (shadow d) i else 0))
def uOut (d : Dev) (e : Nat) : Nat :=
  bitCount (occOut (active d) e ||| (if d.tilth.released then occOut (shadow d) e else 0) ||| frozenSlots d e)

/-- The selector entry of an egress grain, and the HOLD and MI of Table 8-5 (R201). -/
def selAt (d : Dev) (u : Nat) : Sel := tget {} d.sw.sel u
def modSel (d : Dev) (u : Nat) (f : Sel → Sel) : Dev := { d with sw := { d.sw with sel := tmod {} d.sw.sel u f } }
def Sel.hold (x : Sel) : Bool := x.ecc || x.promo || x.ending
def Sel.mi (x : Sel) : Bool := x.ecc || x.cmerr || x.pmi

/-- The egress grain of port `e` that names slot `c`, in unit code. -/
def readerOf (pg : CmPage) (e c : Nat) : Option Nat :=
  (pg.egr.find? fun x => x.1 / 2048 = e && egrEn x.2 && (wCs x.2 == c || pCs x.2 == c)).map (·.1)

/-- The outputs that slot `c` reaches from input `i`. -/
def outsOf (pg : CmPage) (c i : Nat) : List Nat := (List.range 132).filter fun e => (cenAt pg c e).toNat == i

/-- The use of slot `c` at egress port `e` as (slot, ingress port, egress port, egress grain), unless the chain is
abandoned there: center broadcast, a frozen slot or a held grain (R226). -/
def chainUse (d : Dev) (p : Plan) (c e u : Nat) : Option (Nat × Nat × Nat × Nat) :=
  let i := (cenAt p.pg c e).toNat
  if 132 ≤ i ∨ (outsOf p.pg c i).length ≠ 1 ∨ (frozenSlots d e).testBit c ∨ (selAt d u).hold then none
  else some (c, i, e, u)

/-- Follows the alternating chain from egress port `e` on slot `a` (R226). None: the chain is abandoned. -/
def chain (d : Dev) (p : Plan) (a b : Nat) : Nat → Nat → List (Nat × Nat × Nat × Nat) → Option (List (Nat × Nat × Nat × Nat))
  | 0, _, _ => none
  | n + 1, e, acc =>
    match readerOf p.pg e a with
    | none => if (busyOut d p e).testBit a then none else some acc
    | some u => match chainUse d p a e u with
      | none => none
      | some x =>
        let i := x.2.1
        if (ingAt p.pg i b).getLsbD 11 then
          match outsOf p.pg b i with
          | [e2] => match readerOf p.pg e2 b with
            | some u2 => match chainUse d p b e2 u2 with
              | some y => chain d p a b n e2 (y :: x :: acc)
              | none => none
            | none => none
          | _ => none
        else if (busyIn d p i).testBit b then none else some (x :: acc)

/-- `c` with `a` and `b` exchanged. -/
def swapSlot (a b c : Nat) : Nat := if c = a then b else if c = b then a else c

/-- Exchanges `a` and `b` on every use of a chain. -/
def exchange (p : Plan) (a b : Nat) (us : List (Nat × Nat × Nat × Nat)) : Plan :=
  let p0 := p.pg
  let p := us.foldl (fun p u => (p.ing u.2.1 u.1 ingD).cen u.1 u.2.2.1 0xFF) p
  us.foldl (fun p u =>
    let x := egrAt p0 u.2.2.2
    ((p.ing u.2.1 (swapSlot a b u.1) (ingAt p0 u.2.1 u.1)).cen (swapSlot a b u.1) u.2.2.1 u.2.1).egr u.2.2.2
      (egrMk (swapSlot a b (wCs x)) (swapSlot a b (pCs x))))
    { p with uses := p.uses + us.length, chains := p.chains + 1 }

/-- The slots clear in a set, from the lowest upward. -/
def freeSlots (m : Nat) : List Nat := (List.range 4096).filter fun c => !m.testBit c

/-- Puts the use of grain `g` of port `i` at egress port `e` on slot `c`. -/
def putUse (p : Plan) (i g e c : Nat) : Plan := (p.ing i c (ingMk g)).cen c e i

/-- Chooses a slot for a use from grain `g` of port `i` to port `e` and writes its ingress and center entries (R225,
R226): center broadcast, else the lowest slot free on both sides, else the first of at most 64 chains that is not
abandoned. -/
def place (d : Dev) (p : Plan) (i g e : Nat) : Option (Plan × Nat) :=
  let bi := busyIn d p i
  let bo := busyOut d p e
  let bc := if rdB d F.GLB_TILTH_CFG_BCAST_EN then
      (List.range 4096).find? fun c => ingAt p.pg i c == ingMk g && !bo.testBit c else none
  match bc with
  | some c => some (putUse p i g e c, c)
  | none => match (List.range 4096).find? fun c => !(bi ||| bo).testBit c with
    | some c => some (putUse p i g e c, c)
    | none =>
      let pairs := (((freeSlots bi).take 64).flatMap fun a => ((freeSlots bo).take 64).map fun b => (a, b)).take 64
      pairs.findSome? fun ab => (chain d p ab.1 ab.2 264 e []).map fun us =>
        (putUse (exchange p ab.1 ab.2 us) i g e ab.1, ab.1)

/-- Removes the use of slot `c` at egress port `e`; the ingress entry goes with the last output it reaches. -/
def dropUse (p : Plan) (c e : Nat) : Plan :=
  let i := (cenAt p.pg c e).toNat
  let p := p.cen c e 0xFF
  if 132 ≤ i ∨ (outsOf p.pg c i) ≠ [] then p else p.ing i c ingD

/-- What staging a descriptor answers: a plan, or a status and its DETAIL. -/
inductive Staged where
  | ok (p : Plan)
  | fail (st det : Nat)
deriving DecidableEq, Repr

/-- BLOCKED, DETAIL 1 (R197). -/
def noSlot : Staged := .fail stBlocked 1

/-- Stages the connection of egress grain `u` from `w` and, unless none, `pr`. -/
def planConnect (d : Dev) (p : Plan) (u w : Nat) (pr : Option Nat) : Staged :=
  match place d p (portOf w) (grainOf w) (portOf u) with
  | none => noSlot
  | some (p, c) =>
    let p := p.egr u (egrMk c c)
    match pr with
    | none => .ok p
    | some q => match place d p (portOf q) (grainOf q) (portOf u) with
      | none => noSlot
      | some (p, c2) => .ok (p.egr u (egrMk (wCs (egrAt p.pg u)) c2))

/-- Stages the removal of egress grain `u`. -/
def planDisconnect (p : Plan) (u : Nat) : Plan :=
  let x := egrAt p.pg u
  let p := dropUse p (wCs x) (portOf u)
  let p := if pCs x = wCs x then p else dropUse p (pCs x) (portOf u)
  p.egr u egrD

/-- Stages the replacement of the working (`which` false) or protect source of egress grain `u`; `src` none removes
the protect source (R221). -/
def planMove (d : Dev) (p : Plan) (u : Nat) (which : Bool) (src : Option Nat) : Staged :=
  let x := egrAt p.pg u
  let e := portOf u
  let two := wCs x != pCs x
  if which then
    let p := if two then (dropUse p (pCs x) e).egr u (egrMk (wCs x) (wCs x)) else p
    match src with
    | none => .ok p
    | some s => match place d p (portOf s) (grainOf s) e with
      | none => noSlot
      | some (p, c) => .ok (p.egr u (egrMk (wCs (egrAt p.pg u)) c))
  else
    let p := (dropUse p (wCs x) e).egr u (if two then egrMk (pCs x) (pCs x) else egrD)
    match src with
    | none => .ok p
    | some s => match place d p (portOf s) (grainOf s) e with
      | none => noSlot
      | some (p, c) => .ok (p.egr u (egrMk c (if two then pCs (egrAt p.pg u) else c)))

/-- The groups whose unit holds an egress grain. -/
def inGroup (d : Dev) (u : Nat) : Bool := d.prot.groups.any fun g => g.2.cfg.unit.contains u

/-- The lane is the protect lane of a 1:N group (R248). -/
def protectLane (d : Dev) (n : Nat) : Bool := d.prot.groups.any fun g => g.2.cfg.typ == 2 && g.2.cfg.lanes.head? == some n

/-- The grain is a member of a tributary received on GLF lanes (R82). -/
def tribMember (d : Dev) (u : Nat) : Bool :=
  d.cli.tribs.any fun t => t.2.cfg.role == 0 && (t.2.cfg.wl.contains u || t.2.cfg.pl.contains u)

/-- The grain lies on a plesiochronous lane and is no member of a tributary there (R82, R219). -/
def plesioBar (d : Dev) (u : Nat) : Bool :=
  isGrain u && decide (portOf u < 128) && rdB d F.FRM_RX_CFG_PLESIO (portOf u) && !tribMember d u

/-- The VL egress grain that input fine slot `f` lies in, in unit code (R37). -/
def vlOf (f : Nat) : Nat := 128 * 2048 + f / 8

/-- FINE_OPEN has opened the VL egress grain: the shadow carries its first-pass route. -/
def isOpened (p : CmPage) (u : Nat) : Bool := egrEn (egrAt p u)

/-- Problems of an EGRESS field at byte 16 (R219); `want` is whether the unit must be connected. -/
def egressProbs (d : Dev) (p : CmPage) (u : Nat) (want : Bool) : List Prob :=
  let barred := isGrain u && (decide (128 ≤ portOf u) || protectLane d (portOf u))
  let c := if isFine u then (finAt p (fineOf u)).getLsbD 16 else egrEn (egrAt p u)
  probIf (!unitInRange d u) 16 1 ++ probIf barred 16 7 ++
    probIf (unitInRange d u && !barred && c != want) 16 (if want then 5 else 4)

/-- Problems of an ingress unit named at byte `off` for egress unit `u`. -/
def sourceProbs (d : Dev) (p : CmPage) (u s off : Nat) : List Prob :=
  probIf (!unitInRange d s) off 1 ++ probIf (isFine s != isFine u) off 7 ++
  probIf (plesioBar d s || (isGrain s && protectLane d (portOf s))) off 7 ++
  probIf (isFine s && !isOpened p (vlOf (fineOf s))) off 5

/-- Stages one CONNECT, DISCONNECT or MOVE into a plan (R219 to R222). -/
def stageDesc (d : Dev) (p : Plan) (raw : BitVec 512) : Staged :=
  let u := dF raw 16 0 20
  let op := opOf raw
  if op = 1 then
    let w := dF raw 20 0 20
    let q := dF raw 24 0 20
    match firstProb (reservedProb raw ++ egressProbs d p.pg u false ++ sourceProbs d p.pg u w 20 ++
        (if q = unitNone then [] else if isFine u then [(24, 7)] else sourceProbs d p.pg u q 24)) with
    | some x => .fail stBadDesc (probDetail x)
    | none => if isFine u then .ok (p.fin (fineOf u) (finMk (fineOf w)))
        else planConnect d p u w (if q = unitNone then none else some q)
  else if op = 2 then
    match firstProb (reservedProb raw ++ egressProbs d p.pg u true) with
    | some x => .fail stBadDesc (probDetail x)
    | none => if isFine u then .ok (p.fin (fineOf u) finD)
        else if inGroup d u then .fail stDenied 3 else .ok (planDisconnect p u)
  else
    let n := dF raw 20 0 20
    let which := dB raw 24 0
    let x := egrAt p.pg u
    match firstProb (reservedProb raw ++ egressProbs d p.pg u true ++ probIf (isFine u && which) 24 7 ++
        (if n = unitNone then probIf (!which) 20 7 ++ probIf (which && isGrain u && wCs x == pCs x) 20 5
         else sourceProbs d p.pg u n 20)) with
    | some y => .fail stBadDesc (probDetail y)
    | none => if isFine u then .ok (p.fin (fineOf u) (finMk (fineOf n)))
        else if inGroup d u then .fail stDenied 3
        else planMove d p u which (if n = unitNone then none else some n)

end Sys2Proof.Machine
end

