-- ==== Sys2Proof/Machine/Tilth.lean ====
section
/-! DEFINITION. The Tilth engine (chapter 9) and plane retirement (R209 to R216): staging, commits, batches,
pre-emption and the fine tier's first pass. -/

namespace Sys2Proof.Machine

/-- Updates Tilth's own state. -/
def onTilth (d : Dev) (f : Tilth → Tilth) : Dev := { d with tilth := f d.tilth }

/-- GLB_TILTH_STATUS and GLB_TILTH_TARGET as Tables 9-5 and 9-6 state them. -/
def tilthStat (d : Dev) : Dev :=
  let t := d.tilth
  let st := if t.undo then 3 else if t.evac.isSome then 4
    else match t.prep with
      | some c => if c.target.isSome then 2 else 1
      | none => if t.batch.isSome then 1 else 0
  let d := wr d F.GLB_TILTH_STATUS_STATE 0 st
  let d := wrB d F.GLB_TILTH_STATUS_BATCH_OPEN 0 t.batch.isSome
  let d := match t.batch with | some b => wr d F.GLB_TILTH_STATUS_BATCH_RING 0 b.ring | none => d
  match t.prep.bind (·.target) with | some x => wr d F.GLB_TILTH_TARGET_SN 0 x.toNat | none => d

/-- The device solves: it is not a standby (R243). -/
def mirrors (d : Dev) : Bool := d.twin.role == .active && !d.twin.swapHalf && coupled d

/-- Sends an ENTRY record (R243). -/
def sendEntries (d : Dev) (ws : List EntryWr) : Dev :=
  if mirrors d then
    let d := onTilth d fun t => { t with seqOut := t.seqOut + 1 }
    twinSend d 5 (d.tilth.seqOut :: ws.flatMap fun w => [w.mem.val, w.key, w.val.toNat])
  else d

/-- Sends entries written into the shadow, rollbacks included, to the mate (R243). -/
def mirrorEntries (d : Dev) (ws : List EntryWr) : Dev := if ws.isEmpty then d else sendEntries d ws

/-- The entries in which a store differs from another. -/
def diffTbl {n : Nat} (mem : Fin 5) (dflt : BitVec n) (old new : Tbl (BitVec n)) : List EntryWr :=
  ((old.map (·.1)) ++ (new.map (·.1)).filter fun k => (tfind old k).isNone).filterMap fun k =>
    let v := tget dflt new k
    if tget dflt old k = v then none else some { mem := mem, key := k, val := v.setWidth 32 }

/-- The writes that turn page `a` into page `b`. -/
def diffPage (a b : CmPage) : List EntryWr :=
  diffTbl 0 ingD a.ing b.ing ++ diffTbl 1 cenD a.cen b.cen ++ diffTbl 2 egrD a.egr b.egr ++ diffTbl 4 finD a.fine b.fine

/-- Rewritten entries lose their errors (R32, R204). -/
def cleanEnts (d : Dev) (pg : Bool) (ws : List EntryWr) : Dev :=
  { d with
      sw := { d.sw with
      bad := d.sw.bad.filter fun b => !(b.1 == pg && ws.any fun w => w.mem.val == b.2.1 && w.key == b.2.2.1),
      fineBad := d.sw.fineBad.filter fun b => !(b.1 == pg && ws.any fun w => w.mem.val == 4 && w.key == b.2) } }

/-- Puts a plan into the shadow page. -/
def applyPlan (d : Dev) (p : Plan) : Dev :=
  mirrorEntries (cleanEnts (setShadow d p.pg) (!d.sw.page) p.ws) p.ws

/-- The shadow as a plan. -/
def plan0 (d : Dev) : Plan := { pg := shadow d }

/-- Restores the shadow from the active page. -/
def restore (d : Dev) : Dev := cleanEnts (setShadow d (active d)) (!d.sw.page) (diffPage (shadow d) (active d))

/-- Sends the rollback of the shadow (R243). The withdrawal of a commit whose COMMIT record has gone is sent even where no
entry differs, so that the standby disarms its flip (log entry 151). -/
def mirrorRollback (d : Dev) : Dev :=
  let ws := diffPage (shadow d) (active d)
  if d.tilth.prep.any (·.target.isSome) then sendEntries d ws else mirrorEntries d ws

/-- Rolls the shadow back at once. -/
def rollback (d : Dev) : Dev := restore (mirrorRollback d)

/-- The ring's Tilth descriptors are members of a batch: the open one, or one that Tilth has aborted. -/
def inBatch (d : Dev) (r : Nat) : Bool :=
  (match d.tilth.batch with | some b => b.ring == r | none => false) || d.tilth.aborted.contains r

/-- Opcodes that bring Tilth connections: its own and those that firmware passes on (R219). -/
def connOp (op : Nat) : Bool := decide (1 ≤ op ∧ op ≤ 3) || op == 0x22 || op == 0x23

/-- The connection descriptor that a ring presents next outside a batch: Tilth's own, or one that firmware can serve. -/
def connNext (d : Dev) (r : Nat) : Option QEnt :=
  if inBatch d r then none else
  match nextFor .tilth (ringOf d r).q with
  | some e => if connOp (opOf e.raw) then some e else none
  | none => (servedBy d r 0x22).or (servedBy d r 0x23)

/-- An urgent connection descriptor waits on CMD0 to CMD3 (R238). -/
def urgentWaits (d : Dev) : Bool := (List.range 4).any fun r => (connNext d r).isSome

/-- The urgent ring that is served first: by the sweep of dispatch, the lowest ring among those of one sweep (R238). -/
def urgentFirst (d : Dev) (sn : SN) : Option Nat :=
  ((List.range 4).foldl (fun (b : Option (Nat × Nat)) r => match connNext d r, b with
    | some e, some x => if x.2 < snAge e.at' sn then some (r, snAge e.at' sn) else b
    | some e, none => some (r, snAge e.at' sn)
    | none, _ => b) none).map (·.1)

/-- The prepared commit is an urgent descriptor's own, and it is to be made at once: a further one waits for it. DEDUCED (log
entry 149): R238 serves urgent descriptors in the order of dispatch, and rolls back prepared entries. -/
def urgentPrep (d : Dev) : Bool := match d.tilth.prep with
  | some c => !c.evac && !c.timed && !c.members.isEmpty && c.members.all fun m => decide (m.ring < 4) && connOp m.op
  | none => false

/-- Staged or prepared work is set aside; the rollback of its entries begins (R238 to R240). -/
def setAside (d : Dev) : Dev :=
  let t := d.tilth
  let mine : List (List Member × Option Commit) := match t.prep with
    | some c => if c.evac then [] else [([], some { c with target := none, late := false })]
    | none => if t.staged.isEmpty then [] else [(t.staged, none)]
  tilthStat (onTilth (mirrorRollback d) fun t => { t with
    held := mine ++ t.held, undo := true, staged := [], prep := none, chains := 0, uses := 0 })

/-- An urgent descriptor pre-empts Tilth (R238, R239). -/
def preempt (d : Dev) : Dev :=
  if (d.tilth.staged.isEmpty && d.tilth.prep.isNone) || urgentPrep d then d else setAside d

/-- The second commit of a re-sourcing FINE_OPEN is due, or will be when its first completes (R223). -/
def secondDue (t : Tilth) : Bool :=
  t.second.isSome || (match t.made with | some c => c.members.any fun m => (match m.stage2 with | some (_, false) => true | _ => false) | none => false)

/-- The shadow may be written now for ring `r` outside a batch: released, nothing prepared, no rollback to finish; an urgent
ring is first in its turn, and for other work nothing is before it (R20, R229, R233, R237, R238). -/
def mayStage (d : Dev) (r : Nat) (sn : SN) : Bool :=
  let t := d.tilth
  t.released && t.prep.isNone && !t.undo && t.staged.isEmpty &&
    (decide (r < 4) && decide ((urgentFirst d sn).getD r = r) ||
     t.batch.isNone && t.evac.isNone && t.held.isEmpty && !t.paused && !secondDue t && !urgentWaits d)

/-- A member of the open batch may be staged now. -/
def mayMember (d : Dev) : Bool :=
  let t := d.tilth
  t.released && t.prep.isNone && t.held.isEmpty && !t.undo && !t.paused && t.evac.isNone && !secondDue t && !urgentWaits d

/-- Ends the open batch without a commit; with `keep`, its ring's Tilth descriptors stay members until the closing one
(R234, R236). Only entries that the batch has staged are restored. -/
def endBatch (d : Dev) (keep : Bool) : Dev :=
  match d.tilth.batch with
  | none => d
  | some b =>
    let d := if d.tilth.staged.isEmpty then d else rollback d
    tilthStat (onTilth d fun t => { t with
      batch := none, staged := [], chains := 0, uses := 0,
      held := t.held.filter fun h => h.2.isSome, aborted := if keep then t.aborted ++ [b.ring] else t.aborted })

/-- Aborts the batch of ring `r` (R236); a ring reset (`keep` false) ends an aborted batch at once. -/
def abortBatchOf (d : Dev) (r : Nat) (keep : Bool) : Dev :=
  let d := match d.tilth.batch with | some b => if b.ring = r then endBatch d keep else d | none => d
  if keep then d else onTilth d fun t => { t with aborted := t.aborted.filter (· != r) }

/-- Serves a CONNECT, DISCONNECT or MOVE of ring `r` (R219 to R222, R232, R234). -/
def serveConn (op : Nat) (r : Nat) (sn : SN) (d : Dev) : Dev :=
  match servedBy d r op with
  | none => d
  | some e =>
    if d.tilth.aborted.contains r then finish d r e.uid stAborted 1 sn
    else
      let m : Member := { ring := r, uid := e.uid, idx := e.idx, op := op, raw := e.raw }
      match d.tilth.batch.filter (·.ring == r) with
      | some b =>
        if !mayMember d then d else
        match stageDesc d (plan0 d) e.raw with
        | .fail st det =>
          let d := finish d r e.uid st det sn
          if b.atomic then endBatch d true else d
        | .ok p =>
          let d := onTilth (applyPlan d p) fun t => { t with
            chains := t.chains + p.chains, uses := t.uses + p.uses,
            staged := t.staged ++ [{ m with uses := p.uses, chains := p.chains, done := true }] }
          tilthStat (finish d r e.uid (if p.chains = 0 then stOk else stRearranged) 0 sn (BitVec.ofNat 64 p.uses))
      | none =>
        if !mayStage d r sn then d else
        match stageDesc d (plan0 d) e.raw with
        | .fail st det => finish d r e.uid st det sn
        | .ok p =>
          let d := onTilth (applyPlan d p) fun t => { t with
            prep := some {
              members := [{ m with uses := p.uses, chains := p.chains }], timed := timedOf e.raw, tsn := targetOf e.raw,
              chains := p.chains, uses := p.uses } }
          tilthStat (take d r e.uid)

/-- Serves BATCH_OPEN (R233): held while another batch is open or a commit is prepared. -/
def serveBatchOpen (r : Nat) (sn : SN) (d : Dev) : Dev :=
  match servedBy d r 4 with
  | none => d
  | some e =>
    if d.tilth.aborted.contains r then finish d r e.uid stAborted 1 sn
    else match firstProb (reservedProb e.raw ++ probIf (d.tilth.batch.any (·.ring == r)) 0 7) with
      | some p => badDesc d r e.uid sn p
      | none =>
        if d.tilth.batch.isSome || d.tilth.prep.isSome || !d.tilth.held.isEmpty || d.tilth.evac.isSome then d
        else
          let d := onTilth d fun t => { t with
            chains := 0, uses := 0, staged := [],
            batch := some { ring := r, atomic := dB e.raw 16 0, tmo := rd d F.GLB_TILTH_CFG_BATCH_TMO } }
          tilthStat (finish d r e.uid stOk 0 sn)

/-- Serves BATCH_COMMIT (R235, R236). -/
def serveBatchCommit (r : Nat) (sn : SN) (d : Dev) : Dev :=
  match servedBy d r 5 with
  | none => d
  | some e =>
    if d.tilth.aborted.contains r then
      finish (onTilth d fun t => { t with aborted := t.aborted.filter (· != r) }) r e.uid stAborted 1 sn
    else match firstProb (reservedProb e.raw ++ probIf (!d.tilth.batch.any (·.ring == r)) 0 7) with
      | some p => badDesc d r e.uid sn p
      | none =>
        if !mayMember d then d
        else
          let b := d.tilth.batch.getD { ring := r, atomic := false }
          let d := onTilth d fun t => { t with
            batch := none, staged := [], chains := 0, uses := 0, prep := some {
              members := t.staged ++ [{ ring := r, uid := e.uid, idx := e.idx, op := 5, raw := e.raw }], timed := true,
              tsn := targetOf e.raw, chains := t.chains, uses := t.uses, left := b.left, leftIdx := b.leftIdx,
              atomic := b.atomic } }
          tilthStat (take d r e.uid)

/-- Serves BATCH_ABORT (R235, R236). -/
def serveBatchAbort (r : Nat) (sn : SN) (d : Dev) : Dev :=
  match servedBy d r 6 with
  | none => d
  | some e =>
    if d.tilth.aborted.contains r then
      finish (onTilth d fun t => { t with aborted := t.aborted.filter (· != r) }) r e.uid stAborted 1 sn
    else match firstProb (reservedProb e.raw ++ probIf (!d.tilth.batch.any (·.ring == r)) 0 7) with
      | some p => badDesc d r e.uid sn p
      | none => if d.tilth.undo then d else finish (endBatch d false) r e.uid stOk 0 sn

/-- A mirrored descriptor has been applied: while a twin is coupled the active sends it as a CONFIG record and
completes it once the acknowledgement has come (R307); `lists` are the words of the lists it names. -/
def finishM (d : Dev) (r uid : Nat) (raw : BitVec 512) (st det : Nat) (sn : SN) (res : BitVec 64 := 0) (lists : List Nat := []) : Dev :=
  if mirrors d then
    let n := d.twin.configOut + 1
    let d := { d with twin := { d.twin with configOut := n, waits := d.twin.waits ++ [(n, r, uid, st, res)] } }
    take (twinSend d 0xA (n :: (if opOf raw = 0x12 then untimed raw else raw).toNat :: lists)) r uid
  else finish d r uid st det sn res

/-- The enabled fine entries that read the VL position `u`, with the word each reads (R219). -/
def fineReaders (p : CmPage) (u : Nat) : List (Nat × Nat) :=
  p.fine.filterMap fun e =>
    let s := (e.2.extractLsb' 0 16).toNat
    if e.2.getLsbD 16 && vlOf s == u then some (e.1, s % 8) else none

/-- The VL positions not in use (R206). -/
def spares (d : Dev) : List Nat :=
  ((List.range 8192).map (128 * 2048 + ·)).filter fun u => !isOpened (shadow d) u && !isOpened (active d) u

/-- The spare VL position the device takes: R223 and Table 13-7 leave it the choice, so a free value picks it. -/
def spareVl (d : Dev) : Option Nat := (spares d)[(Config.freeWord d.free).toNat % (spares d).length]?

/-- Stages the second commit of a re-sourcing FINE_OPEN (R206, R223). -/
def planSecond (p : Plan) (old new : Nat) : Plan :=
  let p := (fineReaders p.pg old).foldl (fun p e => p.fin e.1 (finMk ((new - 128 * 2048) * 8 + e.2))) p
  if isOpened p.pg old then planDisconnect p old else p

/-- Prepares that second commit once the shadow may be written. -/
def trySecond (d : Dev) : Dev :=
  match d.tilth.second with
  | none => d
  | some m =>
    if d.tilth.released && d.tilth.prep.isNone && !d.tilth.undo && d.tilth.staged.isEmpty then
      let old := dF m.raw 20 0 20
      let new := (m.stage2.map (·.1)).getD old
      let d := applyPlan d (planSecond (plan0 d) old new)
      tilthStat (onTilth d fun t => { t with
        second := none, prep := some { members := [{ m with stage2 := some (new, true) }], timed := timedOf m.raw, tsn := targetOf m.raw } })
    else d

/-- What a FINE_OPEN asks of Tilth as the map stands (R223): the entries of its next commit, the spare position with whether
that commit is its last, and whether that commit is timed. `now` is what a commit set aside had: its second commit stays one
while the first one's position still stands. -/
def planFineOpen (d : Dev) (raw : BitVec 512) (now : Option (Nat × Bool)) : Staged × Option (Nat × Bool) × Bool :=
  let s := dF raw 16 0 20
  let v := dF raw 20 0 20
  let p := plan0 d
  let again := match now with | some (u, true) => v != unitNone && u != v && isOpened p.pg u | _ => false
  if again then (.ok (planSecond p v ((now.map (·.1)).getD v)), now, timedOf raw)
  else if v = unitNone then match spareVl d with
    | none => (.fail stBlocked 3, none, false)
    | some u => (planConnect d p u s none, some (u, true), timedOf raw)
  else if !isOpened p.pg v then (planConnect d p v s none, some (v, true), timedOf raw)
  else if (fineReaders p.pg v).isEmpty then (planMove d p v false (some s), some (v, true), timedOf raw)
  else match spareVl d with
    | none => (.fail stBlocked 3, none, false)
    | some u => (planConnect d p u s none, some (u, false), false)

/-- Serves FINE_OPEN (R223): a first-pass route, its replacement in one commit, or in two. -/
def serveFineOpen (r : Nat) (sn : SN) (d : Dev) : Dev :=
  match servedBy d r 0x22 with
  | none => d
  | some e =>
    let s := dF e.raw 16 0 20
    let v := dF e.raw 20 0 20
    match firstProb (reservedProb e.raw ++ probIf (!(isGrain s && decide (portOf s < 128) && unitInRange d s)) 16 1 ++
        probIf (isGrain s && decide (portOf s < 128) && (plesioBar d s || protectLane d (portOf s))) 16 7 ++
        probIf (v != unitNone && !(isGrain v && decide (128 ≤ portOf v))) 20 1) with
    | some p => badDesc d r e.uid sn p
    | none =>
      if !mayStage d r sn then d else
      match planFineOpen d e.raw none with
      | (.fail st det, _, _) => finish d r e.uid st det sn
      | (.ok p, m2, timed) =>
        let d := onTilth (applyPlan (freed d) p) fun t => { t with
          prep := some {
            members := [{ ring := r, uid := e.uid, idx := e.idx, op := 0x22, raw := e.raw, stage2 := m2, uses := p.uses, chains := p.chains }]
            timed := timed, tsn := targetOf e.raw, chains := p.chains, uses := p.uses } }
        tilthStat (take d r e.uid)

/-- Serves FINE_CLOSE (R219): the map is judged once the shadow may be written. -/
def serveFineClose (r : Nat) (sn : SN) (d : Dev) : Dev :=
  match servedBy d r 0x23 with
  | none => d
  | some e =>
    let v := dF e.raw 16 0 20
    let vl := isGrain v && decide (128 ≤ portOf v)
    match firstProb (reservedProb e.raw ++ probIf (!vl) 16 1) with
    | some p => badDesc d r e.uid sn p
    | none =>
      if !mayStage d r sn then d else
      match firstProb (probIf (!isOpened (shadow d) v) 16 5 ++ probIf (!(fineReaders (shadow d) v).isEmpty) 16 4) with
      | some p => badDesc d r e.uid sn p
      | none =>
        let d := onTilth (applyPlan d (planDisconnect (plan0 d) v)) fun t => { t with
          prep := some { members := [{ ring := r, uid := e.uid, idx := e.idx, op := 0x23, raw := e.raw }], timed := timedOf e.raw, tsn := targetOf e.raw } }
        tilthStat (take d r e.uid)

/-- COMMIT_READY (R229 to R231, R243): every entry is in the shadow and sent; the target is fixed. A resync that has
sent its last STATE record makes an empty commit (R322 step 3), and so does a plane whose state no other commit carries to the
standby (R215). -/
def commitReady (sn : SN) (d : Dev) : Dev :=
  if entering d then d else
  let d := if d.tilth.prep.isNone && (d.twin.resyncLast || (d.tilth.planeDue && mirrors d)) && d.tilth.released &&
      d.tilth.staged.isEmpty && !d.tilth.undo then
      onTilth d fun t => { t with prep := some { members := [], timed := false, tsn := 0 } } else d
  match d.tilth.prep with
  | none => d
  | some c =>
    if c.target.isSome || !d.tilth.released || d.tilth.paused || isStandby d then d else
    let x := fixTarget d sn c.timed c.tsn
    let d := onTilth d fun t => { t with
      seqOut := if mirrors d then t.seqOut + 1 else t.seqOut,
      prep := some { c with target := some x.1, late := x.2, acked := false, seq := if mirrors d then t.seqOut + 1 else 0 } }
    let d := if d.twin.resyncLast then { d with twin := { d.twin with resyncLast := false } } else d
    tilthStat (if mirrors d then twinSend d 6 [d.tilth.seqOut, x.1.toNat] else d)

/-- The active treats its standby as diverged (R244, R307): it counts no twin as coupled until a resync. -/
def divergeMate (d : Dev) : Dev :=
  wr { d with twin := { d.twin with diverged := true } } F.TWN_STATUS_COUPLING 0 1

/-- The status of a commit's member (R232). -/
def memberStatus (c : Commit) (m : Member) : Nat :=
  if c.diverged then stDiverged else if c.late then stLate else if m.chains ≠ 0 then stRearranged else stOk

/-- Completes the members of the commit made (R21, R223). From a completion with DIVERGED on no twin is coupled (R244). -/
def completeMade (d : Dev) : Dev :=
  match d.tilth.made with
  | none => d
  | some c =>
    let sn := c.target.getD 0
    let d := onTilth d fun t => { t with made := none }
    let d := if c.diverged then divergeMate d else d
    trySecond (c.members.foldl (fun d m =>
      if m.done then d
      else match m.stage2 with
        | some (_, false) => onTilth d fun t => { t with second := some m }
        | some (u, true) => finishM d m.ring m.uid m.raw (if c.diverged then stDiverged else if c.late then stLate else stOk) 0 sn (BitVec.ofNat 64 u)
        | none =>
          if m.op = 5 then finish d m.ring m.uid (if c.diverged then stDiverged else if c.late then stLate else stOk) 0 sn
              (BitVec.ofNat 64 (c.left + 2 ^ 32 * c.leftIdx))
          else if m.op = 0x23 then finishM d m.ring m.uid m.raw (if c.diverged then stDiverged else if c.late then stLate else stOk) 0 sn
          else finish d m.ring m.uid (memberStatus c m) 0 sn (BitVec.ofNat 64 m.uses)) d)

/-- The shadow of a standby that has been released takes the writes that came before (R20, R322). -/
def lateWrites (d : Dev) : Dev :=
  if !d.tilth.fresh ∧ d.tilth.late = [] then d else
  let ws := d.tilth.late
  let d := if d.tilth.fresh then setShadow d {} else d
  onTilth (cleanEnts (setShadow d (ws.foldl writeEnt (shadow d))) (!d.sw.page) ws) fun t => { t with late := [], fresh := false }

/-- PAGE_RELEASE (R20): from the start of T + 2 the old page may be written; Tilth brings it up to the active one. -/
def pageRelease (sn : SN) (d : Dev) : Dev :=
  if d.tilth.released || !decide (2 ≤ snAge d.tilth.lastT sn ∧ snAge d.tilth.lastT sn < 2 ^ 31) then d else
  trySecond (lateWrites (onTilth (restore d) fun t => { t with released := true }))

/-- What is kept of a plane. -/
def planeRec (d : Dev) (p : Nat) : Plane := tget {} d.sw.planes p
def modPlane (d : Dev) (p : Nat) (f : Plane → Plane) : Dev := { d with sw := { d.sw with planes := tmod {} d.sw.planes p f } }
/-- Sets the plane's state; the active sends it for its next commit to carry (R215). -/
def planeSet (d : Dev) (p st : Nat) : Dev :=
  let d := mirrorEntries (wr d F.GLB_PLANE_STATUS_STATE p st) [{ mem := 3, key := p, val := BitVec.ofNat 32 st }]
  if mirrors d then onTilth d fun t => { t with planeDue := true } else d

/-- The plane returns to IN_SERVICE; its triggers may arise again (R210). -/
def inService (d : Dev) (p : Nat) : Dev :=
  planeSet (modPlane d p fun x => { x with slackUp := false, beatUp := false, restore := 0, restoreBad := false }) p 0

/-- The plane is RETIRED; SLACK reads 0x7FF (Table 8-12). -/
def toRetired (d : Dev) (p : Nat) : Dev :=
  wr (planeSet (modPlane d p fun x => { x with restore := 0, restoreBad := false, lowRun := 0, beatRun := 0 }) p 2) F.GLB_PLANE_STATUS_SLACK p 0x7FF

/-- Puts plane states that a commit has brought in force (R215). -/
def planesIn (d : Dev) : Dev :=
  d.tilth.planeIn.foldl (fun d x => if x.2 = 2 then toRetired d x.1 else if x.2 = 0 then inService d x.1 else planeSet d x.1 x.2)
    (onTilth d fun t => { t with planeIn := [] })

/-- FLIP (R18, R228): the page bit inverts at the target, for every stage at once. -/
def flipNow (sn : SN) (d : Dev) : Dev :=
  match d.tilth.prep with
  | none => d
  | some c =>
    if c.target ≠ some sn then d else
    let d := planesIn (pageRelease sn (completeMade d))
    let d := { d with sw := { d.sw with page := !d.sw.page, traffic := true } }
    let d := onTilth d fun t => { t with made := some c, prep := none, released := false, lastT := sn, planeDue := false }
    let d := sat (sat d F.GLB_TILTH_COMMITS 0) F.GLB_TILTH_CHAINS 0 c.chains
    let d := perf (perf d 3 0) 4 0 c.uses
    tilthStat (c.members.foldl (fun d m => traceAct d sn m.ring m.uid) d)

/-- COMMIT_COMPLETE (R21): every egress cluster has read the target sweep on the new page. -/
def commitComplete (sn : SN) (d : Dev) : Dev :=
  if decide (2 ≤ snAge d.tilth.lastT sn ∧ snAge d.tilth.lastT sn < 2 ^ 31) then completeMade d else d

/-- Withdraws what ring `r` has staged and not committed (R352): a prepared commit is still carried out if its target
is posted and within 4 sweeps. -/
def withdrawRing (sn : SN) (d : Dev) (r : Nat) : Dev :=
  let d := abortBatchOf d r false
  let of (c : Commit) : Bool := c.members.any (·.ring == r)
  let d := onTilth d fun t => { t with
    second := t.second.filter (·.ring != r),
    held := t.held.filter fun h => !(h.1.any (·.ring == r) || h.2.any of) }
  match d.tilth.prep with
  | some c =>
    let soon := match c.target with | some t => decide ((t - sn).toNat ≤ 4) | none => false
    if of c && !soon then tilthStat (onTilth (rollback d) fun t => { t with prep := none }) else d
  | none => d

/-- COMMIT_ACK_DEADLINE (R244): no acknowledgement by the start of T − 1. -/
def ackDeadline (sn : SN) (d : Dev) : Dev :=
  match d.tilth.prep with
  | some c => if c.target = some (sn + 1) && !c.acked && mirrors d then
      onTilth d fun t => { t with prep := some { c with diverged := true } } else d
  | none => d

/-- ROLLBACK_DONE (R238): the shadow again equals the active page. -/
def rollbackDone (d : Dev) : Dev :=
  if d.tilth.undo && d.tilth.released then tilthStat (onTilth (restore d) fun t => { t with undo := false }) else d

/-- Restages one interrupted member (R240). -/
def restage (sn : SN) (x : Dev × List Member × Option Batch × Nat × Nat) (m : Member) :
    Dev × List Member × Option Batch × Nat × Nat :=
  let (d, ms, b, left, li) := x
  if m.op = 5 then (d, ms ++ [m], b, left, li)
  else if m.op = 0x22 ∨ m.op = 0x23 then
    let v := dF m.raw 16 0 20
    let x := if m.op = 0x22 then planFineOpen d m.raw m.stage2
      else if !isOpened (shadow d) v then (.fail stBadDesc (probDetail (16, 5)), none, false)
      else if !(fineReaders (shadow d) v).isEmpty then (.fail stBadDesc (probDetail (16, 4)), none, false)
      else (.ok (planDisconnect (plan0 d) v), none, timedOf m.raw)
    match x with
    | (.ok p, m2, _) => (applyPlan (freed d) p, ms ++ [{ m with uses := p.uses, chains := p.chains, stage2 := m2 }], b, left, li)
    | (.fail st det, _, _) => (finish d m.ring m.uid st det sn, ms, b, left, li)
  else match stageDesc d (plan0 d) m.raw with
    | .ok p => (applyPlan d p, ms ++ [{ m with uses := p.uses, chains := p.chains }], b, left, li)
    | .fail st det =>
      if m.done then (d, ms, b, left + 1, if left = 0 then m.idx else li)
      else (finish d m.ring m.uid (if st = stDenied then st else stBlocked) (if st = stDenied then det else if st = stBlocked then det else 1) sn, ms, b, left, li)

/-- An urgent PG_COMMAND has been dispatched and not yet served. -/
def pgWaits (d : Dev) : Bool := (List.range 4).any fun r => match nextFor .prot (ringOf d r).q with
  | some e => opOf e.raw == 0x12 | none => false

/-- A staged or prepared move no longer stands against the selector array and the plane states (R240): it uses a slot that a
hold freezes or of a plane that is not IN_SERVICE, it rewrites a held grain's egress entry by a chain, or its grain has joined
a protection group. -/
def movesStale (d : Dev) : Bool :=
  let ms := d.tilth.staged ++ (match d.tilth.prep with | some c => c.members | none => [])
  let evac := match d.tilth.prep with | some c => c.evac | none => false
  (ms.any fun m => (m.op == 2 || m.op == 3) && inGroup d (dF m.raw 16 0 20)) ||
  (diffTbl 2 egrD (active d).egr (shadow d).egr).any fun w =>
    let x : BitVec 25 := w.val.setWidth 25
    let was := egrAt (active d) w.key
    let off (c : Nat) : Bool := c != wCs was && c != pCs was && (frozenSlots d (portOf w.key) ||| planeMask d).testBit c
    egrEn x && (off (wCs x) || off (pCs x)) ||
      (selAt d w.key).hold && !evac && !(ms.any fun m => dF m.raw 16 0 20 == w.key || m.stage2.any (·.1 == w.key))

/-- TILTH_RESUME (R26, R238, R240): after a PG_COMMAND Tilth revalidates what stands, and sets it aside where a move fails;
after other urgent work, the work interrupted last is planned and staged again from the start. -/
def tilthResume (sn : SN) (d : Dev) : Dev :=
  let t := d.tilth
  if t.paused then
    if pgWaits d then d else
    let d := onTilth d fun t => { t with paused := false }
    if movesStale d then setAside d else d
  else match t.held with
  | [] => d
  | (st, pr) :: more =>
    if t.undo || !t.released || t.prep.isSome || !t.staged.isEmpty || t.evac.isSome || secondDue t || urgentWaits d then d else
    let d := onTilth d fun t => { t with held := more }
    let work := match pr with | some c => c.members | none => st
    let (d, ms, _, left, li) := work.foldl (restage sn) (d, [], d.tilth.batch, 0, 0)
    let sum (f : Member → Nat) := (ms.map f).foldl (· + ·) 0
    match pr with
    | some c =>
      if c.atomic && left ≠ 0 then
        tilthStat (ms.foldl (fun d m => if m.op = 5 then finish d m.ring m.uid stAborted 1 sn else d) (rollback d))
      else if ms.isEmpty then tilthStat (rollback d) else
      tilthStat (onTilth d fun t => { t with
        prep := some { c with
        members := ms, chains := sum (·.chains), uses := sum (·.uses),
        timed := if ms.any (fun m => match m.stage2 with | some (_, false) => true | _ => false) then false
          else if ms.any (fun m => m.op == 0x22) then ms.any fun m => timedOf m.raw else c.timed,
        left := c.left + left, leftIdx := if c.left = 0 then li else c.leftIdx } })
    | none =>
      let d := onTilth d fun t => { t with
        staged := ms, chains := sum (·.chains), uses := sum (·.uses),
        batch := t.batch.map fun b => { b with left := b.left + left, leftIdx := if b.left = 0 then li else b.leftIdx } }
      match d.tilth.batch with
      | some b => if b.atomic && left ≠ 0 then endBatch d true else tilthStat d
      | none => tilthStat d

/-- BATCH_TIMEOUT (R236). -/
def batchTimeout (d : Dev) : Dev :=
  match d.tilth.batch with | some b => if b.tmo = 0 then d else endBatch d true | none => d

/-! ### Planes -/

/-- Some plane other than `p` is out of service (R213). -/
def otherOut (d : Dev) (p : Nat) : Bool := (List.range 8).any fun q => q != p && planeSt d q != 0

/-- Completes the descriptors that wait for plane `p` in a list. -/
def finishAll (d : Dev) (l : List (Nat × Nat × Nat)) (p st det : Nat) (sn : SN) : Dev :=
  l.foldl (fun d e => if e.1 = p then finish d e.2.1 e.2.2 st det sn else d) d

/-- Starts an evacuation (R211, R239): urgent work. -/
def startEvac (d : Dev) (p : Nat) : Dev :=
  let d := planeSet d p 1
  preempt (tilthStat (onTilth d fun t => { t with evac := some p }))

/-- Serves PLANE_RETIRE (R211, R213, R214). Evacuation is urgent work, so it waits for no batch; on a batch's ring it is a
member (R233 to R236, R239). DEDUCED (log entry 150). -/
def servePlaneRetire (r : Nat) (sn : SN) (d : Dev) : Dev :=
  match servedBy d r 0x60 with
  | none => d
  | some e => match firstProb (reservedProb e.raw) with
    | some p => badDesc d r e.uid sn p
    | none =>
      if d.tilth.aborted.contains r then finish d r e.uid stAborted 1 sn else
      let p := dF e.raw 16 0 3
      match planeSt d p with
      | 0 => if otherOut d p then
            let d := finish d r e.uid stBlocked 2 sn
            if d.tilth.batch.any fun b => b.ring == r && b.atomic then endBatch d true else d
          else
            let d := take d r e.uid
            startEvac { d with sw := { d.sw with retireBy := d.sw.retireBy ++ [(p, r, e.uid)] } } p
      | 1 => take { d with sw := { d.sw with retireBy := d.sw.retireBy ++ [(p, r, e.uid)] } } r e.uid
      | 2 => finish d r e.uid stOk 0 sn
      | _ =>
        let d := finishAll d d.sw.restoreBy p stAborted 5 sn
        let d := toRetired { d with sw := { d.sw with restoreBy := d.sw.restoreBy.filter fun x => x.1 != p } } p
        finish d r e.uid stOk 0 sn

/-- Serves PLANE_RESTORE (R214): it waits for an open batch of another ring (R233). -/
def servePlaneRestore (r : Nat) (sn : SN) (d : Dev) : Dev :=
  match servedBy d r 0x61 with
  | none => d
  | some e => match firstProb (reservedProb e.raw) with
    | some p => badDesc d r e.uid sn p
    | none =>
      if d.tilth.aborted.contains r then finish d r e.uid stAborted 1 sn else
      if 4 ≤ r ∧ d.tilth.batch.any (fun b => b.ring != r) then d else
      let p := dF e.raw 16 0 3
      match planeSt d p with
      | 0 => finish d r e.uid stOk 0 sn
      | 1 =>
        let evacPrep := match d.tilth.prep with | some c => c.evac | none => false
        let d := if evacPrep then onTilth (rollback d) fun t => { t with prep := none } else d
        let d := finishAll d d.sw.retireBy p stAborted 5 sn
        let d := inService { d with sw := { d.sw with retireBy := d.sw.retireBy.filter fun x => x.1 != p } } p
        let d := tilthStat (onTilth d fun t => { t with evac := none })
        finish d r e.uid stOk 0 sn
      | 2 =>
        let d := modPlane (planeSet d p 3) p fun x => { x with restore := 0, restoreBad := false }
        take { d with sw := { d.sw with restoreBy := d.sw.restoreBy ++ [(p, r, e.uid)] } } r e.uid
      | _ => take { d with sw := { d.sw with restoreBy := d.sw.restoreBy ++ [(p, r, e.uid)] } } r e.uid

/-- The evacuation stops: the plane returns to IN_SERVICE with the event (R212). -/
def evacBlocked (sn : SN) (d : Dev) (p port side det : Nat) : Dev :=
  let d := finishAll d d.sw.retireBy p stBlocked det sn
  let d := inService { d with sw := { d.sw with retireBy := d.sw.retireBy.filter fun x => x.1 != p } } p
  let d := raise d { typ := 0x47, sn := sn, p0 := p, p1 := port, p2 := side }
  tilthStat (onTilth d fun t => { t with evac := none })

/-- The uses of plane `p` in the shadow as (egress grain, slot), those of held grains last (R239). -/
def evacUses (d : Dev) (p : Nat) : List (Nat × Nat) :=
  let us := (shadow d).egr.flatMap fun x =>
    if egrEn x.2 then (if wCs x.2 % 8 = p then [(x.1, wCs x.2)] else []) ++
      (if pCs x.2 % 8 = p ∧ pCs x.2 ≠ wCs x.2 then [(x.1, pCs x.2)] else []) else []
  (us.filter fun u => !(selAt d u.1).hold) ++ us.filter fun u => (selAt d u.1).hold

/-- EVACUATION_MOVE (R211, R212): one use moves to another plane, or the evacuation stops where the move would bring a port
side above 3584 used slots, or finds no slot. While moves of a commit not yet made hold slots that the commit will free, the
move waits for that commit (log entry 87). -/
def evacMove (sn : SN) (d : Dev) : Dev :=
  match d.tilth.evac with
  | none => d
  | some p =>
    let open' := match d.tilth.prep with | some c => c.evac && c.target.isNone | none => true
    if !d.tilth.released || !open' || d.tilth.undo || d.tilth.paused || !d.tilth.staged.isEmpty || urgentWaits d then d else
    match evacUses d p with
    | [] => d
    | (u, c) :: _ =>
      let pl := plan0 d
      let e := portOf u
      let i := (cenAt pl.pg c e).toNat
      let g := (ingAt pl.pg i c).toNat % 2048
      let x := egrAt pl.pg u
      let more := d.tilth.prep.isSome
      let other := if wCs x = pCs x then none else some (if wCs x = c then pCs x else wCs x)
      let pl1 := (dropUse pl c e).egr u (match other with | some o => egrMk o o | none => egrD)
      match place d pl1 i g e with
      | none =>
        if more then d
        else if 3584 < uIn d i then evacBlocked sn d p i 0 2
        else if 3584 < uOut d e then evacBlocked sn d p e 1 2
        else evacBlocked sn d p i 0 1
      | some (pl2, c2) =>
        let now := egrAt pl2.pg u
        let pl3 := pl2.egr u (match other with
          | none => egrMk c2 c2
          | some _ => if wCs x = c then egrMk c2 (pCs now) else egrMk (wCs now) c2)
        let overI := decide (3584 < bitCount (occIn (active d) i ||| occIn pl3.pg i))
        let overO := decide (3584 < bitCount (occOut (active d) e ||| occOut pl3.pg e ||| frozenSlots d e))
        if overI || overO then (if more then d else if overI then evacBlocked sn d p i 0 2 else evacBlocked sn d p e 1 2) else
        let old := d.tilth.prep.getD { members := [], timed := false, tsn := 0, evac := true }
        tilthStat (onTilth (applyPlan d pl3) fun t => { t with
          prep := some { old with chains := old.chains + pl3.chains, uses := old.uses + pl3.uses } })

/-- A page uses plane `p`. -/
def pageUses (pg : CmPage) (p : Nat) : Bool :=
  (pg.egr.any fun x => egrEn x.2 && (wCs x.2 % 8 == p || pCs x.2 % 8 == p)) ||
  (pg.ing.any fun x => x.2.getLsbD 11 && x.1 % 8 == p)

/-- PLANE_RETIRED (R211 step 3). -/
def planeRetired (sn : SN) (d : Dev) : Dev :=
  match d.tilth.evac with
  | none => d
  | some p =>
    if pageUses (active d) p || pageUses (shadow d) p then d else
    let d := toRetired (tilthStat (onTilth d fun t => { t with evac := none })) p
    let d := raise d { typ := 0x46, sn := sn, p0 := p }
    let d := finishAll d d.sw.retireBy p stOk 0 sn
    { d with sw := { d.sw with retireBy := d.sw.retireBy.filter fun x => x.1 != p } }

/-- RESTORE_CHECK_END (R214). -/
def restoreCheckEnd (p : Nat) (ok : Bool) (sn : SN) (d : Dev) : Dev :=
  if planeSt d p ≠ 3 then d else
  let x := planeRec d p
  let clear (d : Dev) : Dev := { d with sw := { d.sw with restoreBy := d.sw.restoreBy.filter fun x => x.1 != p } }
  if x.restoreBad || !ok then clear (finishAll (toRetired d p) d.sw.restoreBy p stBlocked 0 sn)
  else if 16 ≤ x.restore then clear (finishAll (inService d p) d.sw.restoreBy p stOk 0 sn)
  else d

/-- The 12-bit slack of a plane and whether it is negative (Table 8-12). -/
def slackOf (d : Dev) (p : Nat) : Nat := rd d F.GLB_PLANE_STATUS_SLACK p

/-- A trigger of R210 or R216 on plane `p` (R213, R215). -/
def trigger (sn : SN) (d : Dev) (p beat : Nat) : Dev :=
  let sl := slackOf d p
  let d := raise d { typ := 0x45, sn := sn, p0 := p, p1 := if 2048 ≤ sl then 2 ^ 32 - 4096 + sl else sl, p2 := beat }
  if isStandby d then d
  else if otherOut d p then raise d { typ := 0x47, sn := sn, p0 := p, p1 := 0xFFFFFFFF }
  else if rdB d F.GLB_PLANE_CFG_AUTO_RETIRE then startEvac d p else d

/-- PLANE_SLACK_RETIRE (R210). -/
def slackRetire (p : Nat) (sn : SN) (d : Dev) : Dev :=
  let x := planeRec d p
  if planeSt d p ≠ 0 || x.slackUp || !(decide (2 ≤ x.lowRun) || decide (2048 ≤ slackOf d p)) then d
  else trigger sn (modPlane d p fun x => { x with slackUp := true }) p 0

/-- BEAT_ERROR_TRIGGER (R216). -/
def beatTrigger (p : Nat) (sn : SN) (d : Dev) : Dev :=
  let x := planeRec d p
  if planeSt d p ≠ 0 || x.beatUp || !decide (2 ≤ x.beatRun) then d
  else trigger sn (modPlane d p fun x => { x with beatUp := true }) p 1

/-! ### The commands -/

/-- R20. -/
def execPageRelease (s : State) : Res := core s (pageRelease s.sn)
/-- R21. -/
def execCommitComplete (s : State) : Res := core s (commitComplete s.sn)
/-- R229 to R231. -/
def execCommitReady (s : State) : Res := core s (commitReady s.sn)
/-- R210. -/
def execPlaneSlackRetire (p : Fin 8) (s : State) : Res := core s (slackRetire p s.sn)
/-- R216. -/
def execBeatErrorTrigger (p : Fin 8) (s : State) : Res := core s (beatTrigger p s.sn)
/-- R211, R212. -/
def execEvacuationMove (s : State) : Res := core s (evacMove s.sn)
/-- R211. -/
def execPlaneRetired (s : State) : Res := core s (planeRetired s.sn)
/-- R214. -/
def execRestoreCheckEnd (p : Fin 8) (ok : Bool) (s : State) : Res := core s (restoreCheckEnd p ok s.sn)
/-- R220. -/
def execConnect (ring : Fin 16) (s : State) : Res := core s (serveConn 1 ring s.sn)
/-- R222. -/
def execDisconnect (ring : Fin 16) (s : State) : Res := core s (serveConn 2 ring s.sn)
/-- R221. -/
def execMove (ring : Fin 16) (s : State) : Res := core s (serveConn 3 ring s.sn)
/-- R233. -/
def execBatchOpen (ring : Fin 16) (s : State) : Res := core s (serveBatchOpen ring s.sn)
/-- R235. -/
def execBatchCommit (ring : Fin 16) (s : State) : Res := core s (serveBatchCommit ring s.sn)
/-- R235. -/
def execBatchAbort (ring : Fin 16) (s : State) : Res := core s (serveBatchAbort ring s.sn)
/-- R223. -/
def execFineOpen (ring : Fin 16) (s : State) : Res := core s (serveFineOpen ring s.sn)
/-- R219. -/
def execFineClose (ring : Fin 16) (s : State) : Res := core s (serveFineClose ring s.sn)
/-- R211, R213, R214. -/
def execPlaneRetire (ring : Fin 16) (s : State) : Res := core s (servePlaneRetire ring s.sn)
/-- R214. -/
def execPlaneRestore (ring : Fin 16) (s : State) : Res := core s (servePlaneRestore ring s.sn)
/-- R236. -/
def execBatchTimeout (s : State) : Res := core s batchTimeout
/-- R238. -/
def execRollbackDone (s : State) : Res := core s rollbackDone
/-- R240. -/
def execTilthResume (s : State) : Res := core s (tilthResume s.sn)
/-- R244. -/
def execCommitAckDeadline (s : State) : Res := core s (ackDeadline s.sn)

end Sys2Proof.Machine
end

