-- ==== Sys2Proof/Machine/Rings.lean ====
section
/-! DEFINITION. The host rings (chapter 13): doorbells, fetch and dispatch, completions, events, interrupts, ring
enable, reset and fault, sessions as rings see them, and the arbiter's mode (R371, R372). -/

namespace Sys2Proof.Machine

/-- A logical fuse word as resolved at the last reset; blank and failed words read as 0 (R465, R466). -/
def calWord (d : Dev) (i : Nat) : Nat :=
  match tget (0, 0, 0) d.sec.logical i with | (1, v, _) => v.toNat | _ => 0

/-- CAL_POLICY (Table 18-6). -/
def calPolicy (d : Dev) : Nat := calWord d 3

/-- Table 18-1: class codes 0 ADMIN, 1 OPER, 2 MONITOR, 3 MAINT, 4 FACTORY (Table 18-2). -/
def admits (d : Dev) (cls op : Nat) : Bool :=
  let cfg := calPolicy d % 4
  let cmd := calPolicy d / 4 % 4
  if cls = 0 ∨ cls = 4 then true
  else if op ∈ [1, 2, 3, 4, 5, 6, 0x20, 0x21, 0x22, 0x23, 0x50] then cls == 1
  else if op ∈ [0x10, 0x11, 0x40] then (cls == 1 && cfg.testBit 0) || (cls == 3 && cfg.testBit 1)
  else if op = 0x12 then (cls == 1 && cmd.testBit 0) || (cls == 3 && cmd.testBit 1)
  else if op ∈ [0x30, 0x32] then cls == 1 || cls == 3
  else if op ∈ [0x31, 0x7F] then true
  else cls == 3

/-- Opcodes that a standby refuses (Table 12-5). -/
def standbyDenies (op : Nat) : Bool := !(op ∈ [0x30, 0x31, 0x32, 0x7E, 0x7F])

/-- ARB_STATUS: FROZEN (R372, R374), MODE and MODE_CAUSE (R371). A change of mode discards a choice already made as a
null grant. -/
def arbStat (d : Dev) : Dev :=
  let m := d.dma
  let test := rdB d F.DBG_CTL_ARB_TEST
  let cause := if m.startup then 1 else if test then 2 else if m.recovery then 3 else 0
  let fr := rdB d F.ARB_CTL_FREEZE || !m.link || !m.bme
  let d := if rdB d F.ARB_STATUS_MODE != (cause != 0) && m.choice.isSome then
      perf (sat { d with dma := { d.dma with choice := none } } F.ARB_NULL 0) 0xB 0 else d
  let d := wrB (wr (wrB d F.ARB_STATUS_MODE 0 (cause != 0)) F.ARB_STATUS_MODE_CAUSE 0 cause) F.ARB_STATUS_FROZEN 0 fr
  if fr then d else wrB d F.ARB_STATUS_DRAINED 0 false

/-- DOORBELL (R328, R329, R371). -/
def doorbell (off bytes : Nat) (val : W32) (sn : SN) (d : Dev) : Dev :=
  let r := off / 4096
  if bytes ≠ 4 ∨ off % 4096 ≠ 0 ∨ 41 ≤ r then errMsg (sat d F.HIF_DB_ERR 0)
  else if !bound d r || rState d r == 0 || rState d r == 3 || rState d r == 4 then sat d F.HIF_DB_UNBOUND 0
  else
    let cur := if hostRing r then rP d r else rC d r
    let back := decide (2 ^ 31 ≤ (val.toNat + 2 ^ 32 - cur) % 2 ^ 32)
    let far := hostRing r && decide (2 ^ rLog2 d r < (val.toNat + 2 ^ 32 - rC d r) % 2 ^ 32)
    if back || far then
      errMsg (raise (sat d F.HIF_DB_ERR 0) { typ := 0xC1, sn := sn, p0 := r, p1 := val.toNat })
    else if hostRing r then
      arbStat { wr d F.HIF_RING_PIDX r val.toNat with dma := { d.dma with startup := false } }
    else
      let d := wr d F.HIF_RING_CIDX r val.toNat
      if r = 40 then trcDrain 8192 d else d

/-- Completions of a ring that are held back. -/
def doneHeld (d : Dev) (r : Nat) : Nat :=
  ((ringOf d r).q.filter fun e => match e.ph with | .done .. => true | _ => false).length

/-- DESCRIPTOR_FETCH (R337, R504, R460): descriptor C of the ring is fetched while its completion has room. -/
def fetchDesc (r : Nat) (raw : BitVec 512) (lock : Bool) (sn : SN) (d : Dev) : Dev :=
  let c := rC d r
  if !lock || entering d || rState d r != 1 || !bound d r || rHeld d r == 0 || frozen d || d.dma.retry.contains r ||
      !decide ((c + 2 ^ 32 - rC d (r + 16)) % 2 ^ 32 < 2 ^ rLog2 d (r + 16)) ||
      (rState d (r + 16) == 2 && decide (64 ≤ doneHeld d r)) then d
  else if !dmaOk d (recAddr d r c) false then dmaMiss d (recAddr d r c)
  else
    let n := d.hif.fetches + 1
    let tag := d.pm.tagCfg.getLsbD 11 && n % 2 ^ (min (d.pm.tagCfg.extractLsb' 6 5).toNat 20) == 0
    let d := modRing d r fun x => { x with q := x.q ++ [{ idx := c, uid := d.hif.uid, raw := raw, tagged := tag }] }
    let d := rAdv { d with hif := { d.hif with uid := d.hif.uid + 1, fetches := n } } r
    if tag then trace d sn 0x10 r c (opOf raw) else d

/-- The unit code of a DESC_DISPATCH trace (Table 17-11). -/
def serverCode : Server → Nat
  | .disp => 0
  | .tilth => 1
  | .prot => 2
  | .fw => 3

/-- DESCRIPTOR_DISPATCH (R22, R453, R271, R308, R238). -/
def dispatchDesc (r : Nat) (sn : SN) (d : Dev) : Dev :=
  if rState d r != 1 then d else
  match (ringOf d r).q.find? fun e => e.ph == .fetched with
  | none => d
  | some e =>
    if fenceOf e.raw && (ringOf d r).q.head? != some e then d else
    let op := opOf e.raw
    let slot := rd d F.HIF_RING_STATUS_SESS r
    if slot = 0xF then finish d r e.uid stDenied 1 sn
    else if !opcodes.contains op then finish d r e.uid stBadDesc (probDetail (0, 3)) sn
    else if !admits d (rd d F.SEC_SESS_SLOT_CLASS slot) op then finish d r e.uid stDenied 1 sn
    else if op = 0x10 && !dB e.raw 16 21 && calPolicy d / 16 % 2 = 1 then finish d r e.uid stDenied 1 sn
    else if isStandby d && standbyDenies op then finish d r e.uid stDenied 2 sn
    else
      let d := modRing d r fun x => { x with q := x.q.map fun y => if y.uid = e.uid then { y with ph := .dispatched, at' := sn } else y }
      let d := if e.tagged then trace d sn 0x11 r e.idx (serverCode (unitOf op)) else d
      if 4 ≤ r ∨ inBatch d r then d
      else if connOp op then preempt d
      else if op = 0x12 then onTilth d fun t => { t with paused := t.paused || !t.staged.isEmpty || t.prep.isSome }
      else d

/-- COMPLETION_WRITE (R336, R337): the oldest descriptor's completion, once the events it caused are recorded. -/
def writeCpl (r : Nat) (sn : SN) (d : Dev) : Dev :=
  if entering d then d else
  match (ringOf d r).q with
  | [] => d
  | e :: rest => match e.ph with
    | .done st det csn res evs =>
      let drop (d : Dev) : Dev := modRing d r fun x => { x with q := rest }
      if d.hif.evOut < evs then d
      else if (ringOf d (r + 16)).lost then drop d
      else if canWrite d (r + 16) then
        let d := writeRec (drop d) (r + 16) (cplBits e st det csn res)
        if e.tagged then trace d sn 0x13 r e.idx st else d
      else if (rState d (r + 16) == 1) && !frozen d && !dmaOk d (recAddr d (r + 16) (rP d (r + 16))) true then
        dmaMiss d (recAddr d (r + 16) (rP d (r + 16)))
      else d
    | _ => d

/-- LOCK_TIMEOUT (R23, R387); the timer of a descriptor that an activation holds does not run (R393). -/
def lockTimeout (r : Nat) (sn : SN) (d : Dev) : Dev :=
  match nextFor .fw (ringOf d r).q with
  | some e => if d.ctl.act.isSome && !snFuture d.ctl.actSn e.at' then d else finish d r e.uid stLockTimeout 0 sn
  | none => d

/-- EVENT_RECORD (R341, R342, R345, R374): the oldest event is written to the ring of its class, or folded. While the
port is frozen a ring holds 16 records and further ones fold. -/
def eventRecord (d : Dev) : Dev :=
  match d.hif.evq with
  | [] => d
  | e :: rest =>
    if frozen d then
      let extra := (d.hif.evq.zipIdx).find? fun x =>
        16 ≤ ((d.hif.evq.take x.2).filter fun y => evRing d y == evRing d x.1).length
      match extra with
      | some x => foldEv { d with hif := { d.hif with evq := d.hif.evq.eraseIdx x.2, evOut := d.hif.evOut + 1 } } (evRing d x.1) x.1
      | none => d
    else
      let r := evRing d e
      let d1 : Dev := { d with hif := { d.hif with evq := rest, evOut := d.hif.evOut + 1 } }
      if rState d r != 1 || !rRoom d r then foldEv d1 r e
      else if !(ringOf d r).folds.isEmpty then d
      else if dmaOk d (recAddr d r (rP d r)) true then writeEv d1 r e
      else dmaMiss d (recAddr d r (rP d r))

/-- OVERFLOW_SUMMARY (R345). -/
def overflowSummary (r : Nat) (d : Dev) : Dev :=
  match (ringOf d r).folds with
  | [] => d
  | f :: rest =>
    if !canWrite d r then d else
    let d := writeEv (modRing d r fun x => { x with folds := rest }) r (summaryEv d f)
    if r = 40 then trcDrain 8192 d else d

/-- INDEX_WRITE_BACK (R330). -/
def indexWb (r : Nat) (d : Dev) : Dev :=
  let a := rd d F.HIF_RING_WB_LO r + 2 ^ 32 * rd d F.HIF_RING_WB_HI r
  if !hostRing r || a = 0 || !(ringOf d r).wbDue || frozen d || rState d r != 1 then d
  else if !dmaOk d a true then dmaMiss d a
  else emit (modRing d r fun x => { x with wbDue := false }) (.indexWb r (BitVec.ofNat 32 (rC d r)))

/-- MSI_X_MESSAGE (R349). -/
def msixMessage (r : Nat) (timeUp : Bool) (d : Dev) : Dev :=
  let n := (ringOf d r).since
  let cnt := max 1 (rd d F.HIF_RING_CFG_MOD_CNT r)
  if hostRing r then d
  else if cnt ≤ n ∨ (timeUp ∧ rd d F.HIF_RING_CFG_MOD_TIME r ≠ 0 ∧ 1 ≤ n) then
    sendMsi (modRing d r fun x => { x with since := 0 }) (rd d F.HIF_RING_CFG_VEC r)
  else d

/-- What of a ring's queue goes on while it resets: descriptors that firmware or a unit already serves (R352). -/
def resetKeeps (e : QEnt) : Bool :=
  match e.ph with | .taken => true | .dispatched => unitOf (opOf e.raw) == .fw | _ => false

/-- A ring and its pair go to RESETTING (R352). -/
def ringReset (sn : SN) (d : Dev) (r : Nat) : Dev :=
  let d := (pairRings r).foldl (fun d q =>
    let d := modRing (rSet d q 4) q fun x => { x with folds := [], held := none, q := x.q.filter resetKeeps }
    { d with dma := { d.dma with reqs := d.dma.reqs.map fun x => { x with rings := x.rings.filter (·.val != q) },
                                 retry := d.dma.retry.filter (· != q), second := d.dma.second.filter (· != q) } }) d
  if r < 32 then withdrawRing sn d (r % 16) else d

/-- RING_ENABLE (R326, R327, R332). -/
def ringEnable (r : Nat) (en : Bool) (sn : SN) (d : Dev) : Dev :=
  if en then
    if r < 16 ∧ !rdB d F.HIF_RING_CFG_EN (r + 16) then wrB d F.HIF_STATUS_CFG_ERR 0 true
    else if rState d r ≠ 0 then d
    else
      let d := wrB d F.HIF_RING_CFG_EN r true
      let d := rSet (wr (wr d F.HIF_RING_PIDX r 0) F.HIF_RING_CIDX r 0) r 1
      let d := modRing d r fun _ => {}
      if r = 40 then trcDrain 8192 d else d
  else if rdB d F.HIF_RING_CFG_EN r then wrB (ringReset sn d r) F.HIF_RING_CFG_EN r false else d

/-- RING_RESET_DONE (R352). -/
def ringResetDone (r : Nat) (sn : SN) (d : Dev) : Dev :=
  if rState d r ≠ 4 then d else
  let d := wr (wr (rSet d r 0) F.HIF_RING_PIDX r 0) F.HIF_RING_CIDX r 0
  let d := modRing (wrB d F.HIF_RING_CFG_EN r false) r fun _ => {}
  raise d { typ := 0xC2, sn := sn, p0 := r }

/-- A session closes: its rings are unbound, and R236 applies to an open batch on one of them (R329, R460). -/
def closeSlot (d : Dev) (slot : Nat) : Dev :=
  let d := (List.range 41).foldl (fun d r =>
    if rd d F.HIF_RING_STATUS_SESS r = slot then abortBatchOf (wr d F.HIF_RING_STATUS_SESS r 0xF) r true else d) d
  let d := wr (wrB (wrB d F.SEC_SESS_SLOT_OPEN slot false) F.SEC_SESS_SLOT_FUSE slot false) F.SEC_SESS_SLOT_CLASS slot 0
  { d with sec := { d.sec with tokens := tdel d.sec.tokens slot } }

/-- Closes every session, with its event (R353, R460). -/
def closeAll (sn : SN) (d : Dev) : Dev :=
  (List.range 15).foldl (fun d n => if rdB d F.SEC_SESS_SLOT_OPEN n then raise (closeSlot d n) { typ := 0x81, sn := sn, p0 := n, p1 := 2 } else d) d

/-- A Function Level Reset (R353, R371, R373). -/
def flr (sn : SN) (d : Dev) : Dev :=
  let d := (List.range 41).foldl (fun d r => if rState d r = 0 ∨ rState d r = 4 then d else ringReset sn d r) (closeAll sn d)
  arbStat { d with dma := { d.dma with cache := [], reqs := [], succ := [], retry := [], second := [], startup := true } }

/-- A Hot Reset: an FLR, and configuration space at its reset values: Bus Master Enable, ATS Enable and PRI Enable
clear, Stopped set (R373). -/
def hotReset (sn : SN) (d : Dev) : Dev :=
  let d := flr sn d
  arbStat { d with dma := { d.dma with bme := false, recovery := true, enable := false, pri := false, stopped := true, rspFail := false } }

/-- A ring fails (R351, R363): it and its pair go to FAULTED with the event, the address and the code. -/
def ringFault (sn : SN) (d : Dev) (r addr code : Nat) : Dev :=
  let d := (pairRings r).foldl (fun d q =>
    wr (wr (rSet d q 3) F.HIF_RING_FAULT_LO q (addr % 2 ^ 32)) F.HIF_RING_FAULT_HI q (addr / 2 ^ 32 % 2 ^ 32)) d
  let d := raise (sat d F.HIF_PRI_FAIL 0) { typ := 0xC0, sn := sn, p0 := r, p1 := addr % 2 ^ 32, p2 := addr / 2 ^ 32 % 2 ^ 32, p3 := code }
  let d := if 16 ≤ r ∧ r < 32 then modRing d r fun x => { x with lost := true } else d
  let d := match (ringOf d r).held with
    | some e => foldEv (modRing d r fun x => { x with held := none }) r e
    | none => d
  let d := if r < 32 then
      let c := r % 16
      let d := abortBatchOf d c true
      (ringOf d c).q.foldl (fun d e => if e.ph = .fetched ∨ e.ph = .dispatched then finish d c e.uid stFault 0 sn else d) d
    else d
  let d := match d.pm.dump with
    | some m => if 36 + m.pmd = r then finish { d with pm := { d.pm with dump := none } } m.ring m.idx stFault 0 sn else d
    | none => d
  errMsg d

/-- Serves NOP (R22): the dispatcher completes it. -/
def serveNop (r : Nat) (sn : SN) (d : Dev) : Dev :=
  match servedBy d r 0x7F with
  | none => d
  | some e => match firstProb (reservedProb e.raw) with
    | some p => badDesc d r e.uid sn p
    | none => finish d r e.uid stOk 0 sn

/-! ### The commands -/

/-- R328. -/
def execDoorbell (off : BitVec 18) (bytes : Nat) (val : W32) (s : State) : Res :=
  core s (doorbell off.toNat bytes val s.sn)
/-- R337. -/
def execDescriptorFetch (ring : Fin 16) (raw : BitVec 512) (s : State) : Res := core s (fetchDesc ring raw s.lock s.sn)
/-- R22. -/
def execDescriptorDispatch (ring : Fin 16) (s : State) : Res := core s (dispatchDesc ring s.sn)
/-- R336. -/
def execCompletionWrite (ring : Fin 16) (s : State) : Res := core s (writeCpl ring s.sn)
/-- R387. -/
def execLockTimeout (ring : Fin 16) (s : State) : Res := core s (lockTimeout ring s.sn)
/-- R341. -/
def execEventRecord (s : State) : Res := core s eventRecord
/-- R345. -/
def execOverflowSummary (ring : Fin 41) (s : State) : Res := core s (overflowSummary ring)
/-- R330. -/
def execIndexWriteBack (ring : Fin 41) (s : State) : Res := core s (indexWb ring)
/-- R349. -/
def execMsiXMessage (ring : Fin 41) (timeUp : Bool) (s : State) : Res := core s (msixMessage ring timeUp)
/-- R327. -/
def execRingEnable (ring : Fin 41) (en : Bool) (s : State) : Res := core s (ringEnable ring en s.sn)
/-- R352. -/
def execRingReset (ring : Fin 41) (s : State) : Res := core s fun d => ringReset s.sn d ring
/-- R352. -/
def execRingResetDone (ring : Fin 41) (s : State) : Res := core s (ringResetDone ring s.sn)
/-- R353. -/
def execFunctionLevelReset (s : State) : Res := core s (flr s.sn)
/-- R373. -/
def execHotReset (s : State) : Res := core s (hotReset s.sn)
/-- R516. -/
def execPcieConventionalReset (s : State) : Res := core s (hotReset s.sn)
/-- R22. -/
def execNop (ring : Fin 16) (s : State) : Res := core s (serveNop ring s.sn)

end Sys2Proof.Machine
end

