-- ==== Sys2Proof/Machine/Prot.lean ====
section
/-! DEFINITION. The protection engine (chapter 10): signal inputs, requests, targets, decisions and their application,
commands and the protection signalling channel. -/

namespace Sys2Proof.Machine

/-- The group of a PGID. -/
def groupOf (d : Dev) (pgid : Nat) : Option Group := tfind d.prot.groups pgid
def setGroup (d : Dev) (pgid : Nat) (g : Group) : Dev := { d with prot := { d.prot with groups := tins d.prot.groups pgid g } }
/-- A deleted group leaves its place in the PSC queues (R267). -/
def delGroup (d : Dev) (pgid : Nat) : Dev :=
  { d with prot := { d.prot with groups := tdel d.prot.groups pgid,
                                 psc := d.prot.psc.map fun t => (t.1, { t.2 with q := t.2.q.filter (·.1 != pgid) }) } }

/-- N of a group (Table 10-1). -/
def Group.n (g : Group) : Nat := if g.cfg.typ = 2 then g.cfg.lanes.length - 1 else 1

/-- The lane whose grains and condition stand in for lane `n` (R261). -/
def subst (d : Dev) (n : Nat) : Nat :=
  match d.prot.groups.find? fun g => g.2.cfg.typ == 2 && g.2.r != 0 && g.2.cfg.lanes[g.2.r]? == some n with
  | some g => g.2.cfg.lanes.headD n
  | none => n

/-- The condition that consumers of lane `n` use (R261). -/
def effCond (d : Dev) (n : Nat) : Cond := laneCond d (subst d n)

/-- The lane condition of the ingress lane of a grain's source: none for the fine tier (Table 10-3). -/
def srcLaneCond (d : Dev) (u c : Nat) : Cond :=
  let i := (cenAt (active d) c (portOf u)).toNat
  if i < 128 then effCond d i else .none

/-- The defect source of signal input `k` (Table 10-3). -/
def defectSource (d : Dev) (g : Group) (k : Nat) : Cond :=
  if g.cfg.typ = 2 then (match g.cfg.lanes[k]? with | some n => laneCond d n | none => .none)
  else match g.cfg.tid with
    | some t => match tfind d.cli.tribs t with
      | some x => if k = 0 then x.p.cond else x.w.cond
      | none => .none
    | none => match g.cfg.unit with
      | u :: _ => srcLaneCond d u (if k = 0 then pCs (egrAt (active d) u) else wCs (egrAt (active d) u))
      | [] => .none

/-- A condition from its code (Table 11-5). -/
def condOf (n : Nat) : Cond := if n = 0 then .none else if n = 1 then .sd else .sf

/-- The most severe COND of the trigger table entries that name group `pgid` and signal `k` (R251). -/
def ptbWorst (d : Dev) (pgid k : Nat) : Cond :=
  d.regs.foldl (fun c e =>
    if 0x2001000 ≤ e.1 ∧ e.1 < 0x2005000 ∧ e.2.toNat % 2 ^ 17 = pgid ∧ e.2.toNat / 2 ^ 17 % 16 = k then
      c.worst (condOf (e.2.toNat / 2 ^ 28 % 4)) else c) .none

/-- This device decides for itself (R259): it is no coupled standby. -/
def decides (d : Dev) : Bool := !(isStandby d && coupled d)

/-- An input takes the most severe value of its sources (R252); hold-off starts or ends (R253). A device that does not decide
runs no timer: it keeps what the active's records have told it (R307). -/
def stepInput (d : Dev) (g : Group) (pgid : Nat) (sn : SN) (k : Nat) (i : Input) : Input :=
  let src := defectSource d g k
  let c := src.worst (ptbWorst d pgid k)
  let i := { i with src := src, cond := c, events := i.events + (if src = i.src then 0 else 1) }
  if c = .none then { i with up := false, timer := if decides d then none else i.timer }
  else if !decides d ∨ i.up ∨ i.timer.isSome then i
  else if holdOffSweeps g.cfg.holdOff = 0 then { i with up := true }
  else { i with timer := some sn }

/-- The lowest signal among `ks` whose input has raised `c`. -/
def raised (g : Group) (c : Cond) (ks : List Nat) : Option Nat :=
  ks.find? fun k => match g.inputs[k]? with | some i => i.up && i.cond == c | none => false

/-- The local request of highest priority but for WTR and NR, as REQ and signal (R254). -/
def topBase (g : Group) : Option (Nat × Nat) :=
  let ks := (List.range g.n).map (· + 1)
  let sig (req : Nat) (o : Option Nat) : Option (Nat × Nat) := if g.cfg.auto then o.map fun k => (req, k) else none
  let cmd (kind req : Nat) : Option (Nat × Nat) := match g.cmd with | some c => if c.1 = kind then some (req, c.2) else none | none => none
  (cmd 1 0xF).or ((cmd 2 0xE).or ((sig 0xD (raised g .sf [0])).or ((sig 0xB (raised g .sf ks)).or
    ((sig 9 (raised g .sd (0 :: ks))).or (cmd 3 7)))))

/-- The signal a group is going to select: its pending decision's, or the one applied. -/
def projSig (g : Group) : Nat := match g.pend with | some p => p.sig | none => if g.cfg.typ = 2 then g.tgt else g.r

/-- The local top request with WTR and NR (R256): the group's new WTR state and the request. -/
def localTop (g : Group) (sn : SN) : Option (Nat × SN) × Nat × Nat :=
  match topBase g with
  | some t => (none, t)
  | none =>
    let k := projSig g
    if !g.cfg.revert then (none, 0, k)
    else match g.wtr with
      | some w => (some w, 5, w.1)
      | none =>
        if (g.lastReq = 0xB ∨ g.lastReq = 9) ∧ k ≠ 0 ∧ g.lastSig = k ∧ g.cfg.wtr ≠ 0 then (some (k, sn), 5, k) else (none, 0, 0)

/-- A group with signalling (Table 10-1). -/
def Group.bidir (g : Group) : Bool := g.cfg.typ == 1 || g.cfg.typ == 2

/-- The target signal and the REQ that decides it (R257, Table 10-5). -/
def targetOfGroup (g : Group) (top : Nat × Nat) : Nat × Nat :=
  if !g.bidir then (top.2, top.1) else
  let rem : Nat × Nat := match g.remote with | some r => if g.loss then (0, 0) else (r.1, r.2.1) | none => (0, 0)
  if rem.1 < top.1 then (top.2, top.1)
  else if top.1 < rem.1 then (rem.2, rem.1)
  else if top.2 = rem.2 then (top.2, top.1)
  else if top.1 = 0 ∧ (top.2 = 0 ∨ rem.2 = 0) then (max top.2 rem.2, top.1)
  else (min top.2 rem.2, top.1)

/-- MI that a selected signal calls for (R260): the input of the signal that feeds the grain holds SF after hold-off. DEDUCED
(log entry 153): r = 1 feeds it from the protect path, whose input is signal 0 (R250, R264). -/
def wantMi (g : Group) (sig : Nat) : Bool :=
  g.cfg.typ != 2 && (match g.inputs[1 - sig]? with | some i => i.up && i.cond == .sf | none => false)

/-- The lane that carries a group's PSC, and the one that receives it. -/
def pscTxLane (g : Group) : Option Nat := if g.cfg.typ = 1 then g.cfg.tx else if g.cfg.typ = 2 then g.cfg.lanes.head? else none
def pscRxLane (g : Group) : Option Nat := if g.cfg.typ = 1 then g.cfg.rx else if g.cfg.typ = 2 then g.cfg.lanes.head? else none

/-- The fields of a group's PSC entry (Table 10-8). -/
def entOf (g : Group) : Nat × Nat × Nat := (g.lastReq, g.lastSig, if g.cfg.typ = 2 then g.bridge else g.r)

/-- Stores a group; a change of its PSC entry queues the entry (R267). -/
def putGroup (d : Dev) (pgid : Nat) (g : Group) (sn : SN) : Dev :=
  let e := entOf g
  let d := setGroup d pgid { g with ent := e }
  match pscTxLane g with
  | some n =>
    if e = g.ent ∨ 128 ≤ n then d else
    let t := tget {} d.prot.psc n
    if t.q.any (·.1 == pgid) then d else
    let d := { d with prot := { d.prot with psc := tput {} d.prot.psc n { t with q := t.q ++ [(pgid, sn)] } } }
    if rd d F.FRM_PSC_QUEUE_MAX n < t.q.length + 1 then wr d F.FRM_PSC_QUEUE_MAX n (t.q.length + 1) else d
  | none => d

/-- The DECISION record of a decision (Table 12-4). -/
def sendDecision (d : Dev) (pgid : Nat) (g : Group) (sig : Nat) (x : SN) (req : Nat) : Dev :=
  if mirrors d then
    twinSend d 8 ([pgid, sig, x.toNat, req] ++ (match g.wtr with | some w => [w.2.toNat] | none => []) ++
      g.inputs.filterMap fun i => i.timer.map (·.toNat))
  else d

/-- The lane selector takes a target `k ≠ 0`, applied or pending, once the received BSIG equals it (R261). -/
def laneSelect (g : Group) (x : SN) (req : Nat) : Group :=
  let k := projSig g
  if g.cfg.typ ≠ 2 ∨ k = 0 ∨ (g.r = k ∧ g.pend.isNone) ∨ g.lsel.any (·.sig == k) ∨ g.loss then g
  else match g.remote with
    | some r => if r.2.2 = k then { g with lsel := some ⟨k, x, req⟩ } else g
    | none => g

/-- The start SNs of the timers that run in a group (R307). -/
def groupTimers (g : Group) : List (Option SN) := g.wtr.map (·.2) :: g.inputs.map (·.timer)

/-- One evaluation of a group `ns` after the tick of `sn` (R252 to R261). -/
def evalGroup (sn : SN) (ns : Nat) (d : Dev) (pgid : Nat) : Dev :=
  match groupOf d pgid with
  | none => d
  | some g =>
    if g.del.isSome then d else
    let was := groupTimers g
    let g := { g with inputs := g.inputs.mapIdx fun k i => stepInput d g pgid sn k i }
    if !decides d then setGroup d pgid g else
    let lt := localTop g sn
    let g := { g with wtr := lt.1, lastReq := lt.2.1, lastSig := lt.2.2 }
    let tg := targetOfGroup g lt.2
    let x := applyAt d sn ns
    let repl := match g.pend with | some p => decide (p.req ≤ tg.2) | none => true
    let new := tg.1 ≠ projSig g && repl
    let g := if new then { g with pend := some ⟨tg.1, x, tg.2⟩, lsel := g.lsel.filter (·.sig == tg.1) } else g
    let mi := wantMi g (projSig g)
    let miNow := match g.pendMi with | some m => m.1 | none => g.mi
    let g := if mi ≠ miNow ∨ (new ∧ g.pendMi.isSome) then { g with pendMi := some (mi, x) } else g
    let h := laneSelect g x lt.2.1
    let d := putGroup d pgid h sn
    let when' := match h.pend with | some p => p.x | none => if mi ≠ miNow then x else sn
    let d := if new || mi ≠ miNow || groupTimers h != was then sendDecision d pgid h (projSig h) when' tg.2 else d
    if h.lsel != g.lsel then sendDecision d pgid h (projSig h) x tg.2 else d

/-- Evaluates every group: a condition somewhere has changed. -/
def evalAll (sn : SN) (ns : Nat) (d : Dev) : Dev := (d.prot.groups.map (·.1)).foldl (evalGroup sn ns) d

/-- The descriptor of a `uid` in a ring's queue. -/
def rawOf (d : Dev) (r uid : Nat) : BitVec 512 :=
  match (ringOf d r).q.find? (fun e => e.uid = uid) with | some e => e.raw | none => 0

/-- Sets SEL and MI of an egress grain by decision; SEL of a held grain waits (R199, R260). -/
def decideGrain (sel mi : Bool) (d : Dev) (u : Nat) : Dev :=
  modSel d u fun x => if x.hold then { x with selPend := some sel, pmi := mi } else { x with sel := sel, selPend := none, pmi := mi }

/-- The applied change of selected signal is recorded and counted (R272). -/
def protSwitch (d : Dev) (pgid old new req : Nat) (x : SN) (sn : SN) : Dev :=
  if old = new then d
  else sat (raise d { typ := 0x50, sn := sn, p0 := pgid, p1 := old + 16 * new + 256 * req, p2 := x.toNat }) F.GLB_PROT_SWCNT_SWITCHES 0

/-- Completes what waited for the group's decision (R249, R255). -/
def finishWaits (d : Dev) (g : Group) (x : SN) : Dev :=
  g.wait.foldl (fun d w => finishM (traceAct d x w.ring w.uid) w.ring w.uid (rawOf d w.ring w.uid) w.st 0 x (BitVec.ofNat 64 g.r)
    (if opOf (rawOf d w.ring w.uid) = 0x10 ∧ g.cfg.tid.isSome then g.cfg.unit else [])) d

/-- The descriptor that ends an allocation is done: it completes now, or once the allocation's blocks have returned
(R168). -/
def endAlloc (d : Dev) (owner r uid : Nat) (sn : SN) : Dev :=
  if d.cli.loess.any fun a => a.owner == owner && !a.ended then
    take { d with
      cli := { d.cli with
      loess := d.cli.loess.map fun a =>
      if a.owner = owner ∧ !a.ended then { a with ended := true, by' := some (r, uid), since := sn } else a } } r uid
  else finishM d r uid (rawOf d r uid) stOk 0 sn

/-- The owner code of a group's Loess allocation. -/
def pgOwner (pgid : Nat) : Nat := 2 ^ 20 + pgid

/-- The received BSIG agrees with the local target (1:N) or the selected signal (1+1), Table 10-10. -/
def bsigAgrees (g : Group) (bs : Nat) : Bool := if g.cfg.typ = 2 then g.tgt == 0 || bs == g.tgt else bs == g.r

/-- dPSC_FOP clears as soon as the values agree (R269). -/
def fopClears (g : Group) : Bool := g.fop && (match g.remote with | some r => bsigAgrees g r.2.2 | none => true)

/-- What is due for the group takes effect (R249, R259 to R262). -/
def decisionApply (pgid : Nat) (sn : SN) (d : Dev) : Dev :=
  match groupOf d pgid with
  | none => d
  | some g =>
    let due := match g.pend with | some p => snDue p.x sn | none => false
    let dueMi := match g.pendMi with | some m => snDue m.2 sn | none => false
    let dueL := match g.lsel with | some p => snDue p.x sn | none => false
    if !(due || dueMi || dueL) then d else
    let old := g.r
    let p := g.pend.getD ⟨projSig g, sn, 0⟩
    let req := if due then p.req else match g.lsel with | some l => l.req | none => 0
    let x := if due then p.x else match g.lsel with | some l => l.x | none => sn
    let mi := if dueMi then (match g.pendMi with | some m => m.1 | none => g.mi) else g.mi
    let g := { g with mi := mi, pendMi := if dueMi then none else g.pendMi }
    let g : Group := if !due then g
      else if g.cfg.typ = 2 then
        let g : Group := { g with pend := none, tgt := p.sig }
        if p.sig = 0 then { g with r := 0, lsel := none, bridgeHold := g.bridge != 0, bridgeDrop := false }
        else { g with bridge := p.sig, bridgeHold := false, bridgeDrop := false, lsel := g.lsel.filter (·.sig == p.sig) }
      else { g with pend := none, r := p.sig }
    let g : Group := match g.lsel with
      | some l => if snDue l.x sn then { g with r := l.sig, lsel := none } else g
      | none => g
    let chg := if g.cfg.typ = 2 ∨ old = g.r then 0 else (g.cfg.unit.filter fun u => !(selAt d u).hold).length
    let d := if g.cfg.typ = 2 then d else g.cfg.unit.foldl (decideGrain (g.r == 1) g.mi) d
    let d := perf d 5 0 chg
    let g := { g with switches := g.switches + (if old = g.r then 0 else 1) }
    let d := seenOr (protSwitch d pgid old g.r req x sn) 6 pgid (if g.r = 0 then 0 else 1)
    let d := if fopClears g then raise d { typ := 0x51, sn := sn, p0 := pgid, p1 := 1 } else d
    let g := { g with fop := g.fop && !fopClears g }
    if g.pend.isNone && g.lsel.isNone && (g.cfg.typ != 2 || g.r == g.tgt) then
      match g.del with
      | some w => endAlloc (delGroup (finishWaits d g x) pgid) (pgOwner pgid) w.1 w.2 x
      | none => evalGroup sn 100 (putGroup (finishWaits d g x) pgid { g with wait := [] } sn) pgid
    else evalGroup sn 100 (putGroup d pgid g sn) pgid

/-- HOLD_OFF_EXPIRY (R253). -/
def holdOffExpiry (pgid sig : Nat) (ns : Nat) (sn : SN) (d : Dev) : Dev :=
  match groupOf d pgid with
  | none => d
  | some g => match g.inputs[sig]? with
    | some i => match i.timer with
      | some t => if decides d && decide (holdOffSweeps g.cfg.holdOff ≤ snAge t sn) then
          evalGroup sn ns (setGroup d pgid { g with inputs := lset g.inputs sig { i with up := true, timer := none } }) pgid
        else d
      | none => d
    | none => d

/-- WTR_EXPIRY (R256). -/
def wtrExpiry (pgid : Nat) (ns : Nat) (sn : SN) (d : Dev) : Dev :=
  match groupOf d pgid with
  | none => d
  | some g => match g.wtr with
    | some w => if decides d && decide (wtrSweeps g.cfg.wtr ≤ snAge w.2 sn) then
        evalGroup sn ns (setGroup d pgid { g with wtr := none }) pgid else d
    | none => d

/-- The command is acceptable now (R255): FS unless LO is held, MS only under MS, WTR or NR. -/
def cmdOk (g : Group) (kind : Nat) : Bool :=
  match kind with
  | 2 => !(match g.cmd with | some c => c.1 == 1 | none => false)
  | 3 => decide (g.lastReq ≤ 7)
  | _ => true

/-- An accepted command enters the command input (R255): it replaces the held one, and is evaluated. -/
def enterCmd (d : Dev) (pgid kind sig ring uid : Nat) (late : Bool) (ns : Nat) (sn : SN) : Dev :=
  match groupOf d pgid with
  | none => d
  | some g =>
    let d := (g.wait.filter (·.held)).foldl (fun d w => finish d w.ring w.uid stAborted 2 sn) d
    let g := { g with wait := g.wait.filter (fun w => !w.held), cmdEvents := g.cmdEvents + 1 }
    let g := if kind = 0 then { g with cmd := none, wtr := none, lastReq := if g.lastReq = 5 then 0 else g.lastReq }
      else { g with cmd := some (kind, sig) }
    let d := evalGroup sn ns (setGroup d pgid g) pgid
    let st := if late then stLate else stOk
    match groupOf d pgid with
    | none => d
    | some h =>
      if h.pend ≠ g.pend then take (setGroup d pgid { h with wait := h.wait ++ [⟨ring, uid, st, kind != 0⟩] }) ring uid
      else finishM d ring uid (rawOf d ring uid) st 0 sn (BitVec.ofNat 64 h.r)

/-- The active mirrors a timed command with the sweep at which it enters (R262). DEDUCED (log entry 154): it does so in a
CONFIG record that no completion waits for; the one that does is sent when the command completes, as for one not timed. -/
def mirrorTimed (d : Dev) (raw : BitVec 512) (x : SN) : Dev :=
  if mirrors d then
    let n := d.twin.configOut + 1
    twinSend { d with twin := { d.twin with configOut := n } } 0xA [n, (putTarget raw x).toNat]
  else d

/-- Serves a PG_COMMAND of CMD `kind`: 0 CLEAR, 1 LO, 2 FS, 3 MS (R255, R262). -/
def servePgCmd (kind r : Nat) (ns : Nat) (sn : SN) (d : Dev) : Dev :=
  match servedBy d r 0x12 with
  | none => d
  | some e =>
    let c := dF e.raw 16 20 4
    let sig := dF e.raw 16 24 4
    let pgid := dF e.raw 16 0 17
    if c ≠ kind ∧ !(kind = 0 ∧ 4 ≤ c) then d else
    let n := match groupOf d pgid with | some g => g.n | none => 0
    let dead := match groupOf d pgid with | some g => g.del.isSome | none => true
    match firstProb (reservedProb e.raw ++ probIf (decide (4 ≤ c)) 16 1 ++ probIf dead 16 5 ++
        probIf (!dead && (c == 2 || c == 3) && !decide (1 ≤ sig ∧ sig ≤ n)) 16 1) with
    | some p => badDesc d r e.uid sn p
    | none => match groupOf d pgid with
      | none => d
      | some g =>
        if !cmdOk g kind then finish d r e.uid stBlocked 4 sn
        else if timedOf e.raw then
          let x := fixTarget d sn true (targetOf e.raw)
          let d := match g.timed with | some t => finish d t.2.2.1 t.2.2.2.1 stAborted 2 sn | none => d
          take (mirrorTimed (setGroup d pgid { g with timed := some (kind, sig, r, e.uid, x.1, x.2) }) e.raw x.1) r e.uid
        else enterCmd d pgid kind (if kind = 1 then 0 else sig) r e.uid false ns sn

/-- A request of higher priority than a command, local or remote, holds in the group (R262). -/
def outranked (g : Group) (kind : Nat) : Bool :=
  let rem := match g.remote with | some r => if g.bidir && !g.loss then r.1 else 0 | none => 0
  let mine := match kind with | 1 => 0xF | 2 => 0xE | 3 => 7 | _ => 0xF
  decide (mine < max g.lastReq rem)

/-- TIMED_COMMAND_ENTRY (R262). A coupled standby leaves the entry to the active, which mirrors what comes of it. -/
def timedEntry (pgid : Nat) (ns : Nat) (sn : SN) (d : Dev) : Dev :=
  match groupOf d pgid with
  | none => d
  | some g => match g.timed with
    | none => d
    | some (kind, sig, r, uid, x, late) =>
      if !snDue x sn then d else
      let d := setGroup d pgid { g with timed := none }
      if !decides d then d
      else if cmdOk g kind && !outranked g kind then enterCmd d pgid kind (if kind = 1 then 0 else sig) r uid late ns sn
      else finish d r uid stAborted 6 sn

/-- BRIDGE_HOLD_EXPIRY (R261). -/
def bridgeHoldExpiry (pgid : Nat) (d : Dev) : Dev :=
  match groupOf d pgid with
  | some g => if g.bridgeHold then setGroup d pgid { g with bridgeHold := false, bridgeDrop := true } else d
  | none => d

/-- Bridges whose hold has ended fall with the sweep that opens (R261). -/
def bridgesFall (sn : SN) (d : Dev) : Dev :=
  d.prot.groups.foldl (fun d x => if x.2.bridgeDrop then putGroup d x.1 { x.2 with bridge := 0, bridgeDrop := false } sn else d) d

/-! ### The protection signalling channel -/

/-- The bits of a PSC entry (Table 10-8). -/
def pscEntry (g : Group) (e : Nat × Nat × Nat) : BitVec 30 :=
  BitVec.ofNat 30 (2 ^ 29 + 2 ^ 12 * g.cfg.farPgid + 2 ^ 8 * (e.1 % 16) + 2 ^ 4 * (e.2.1 % 16) + e.2.2 % 16)

/-- A PSC message (Table 10-7). -/
def pscMake (a b : BitVec 30) : BitVec 80 :=
  let h : BitVec 64 := (1#4) ++ a ++ b
  h ++ crc16 (msbBits h)

/-- The fields that a group's entry carries in sweep `x`: a decision that applies there acts with it (Table 10-11). -/
def entAt (g : Group) (x : SN) : Nat × Nat × Nat :=
  match g.pend with
  | some p => if p.x = x then (g.ent.1, g.ent.2.1, if g.cfg.typ = 2 then (if p.sig = 0 then g.bridge else p.sig) else p.sig) else g.ent
  | none => g.ent

/-- The groups that a lane's PSC carries, in PGID order. -/
def pscGroups (d : Dev) (n : Nat) : List (Nat × Group) := d.prot.groups.filter fun g => pscTxLane g.2 == some n

/-- The two entries of sweep `x` on lane `n` and the queue after them (R267): queued entries of highest REQ and lowest
PGID first, then the refresh rotation. -/
def pscChoose (d : Dev) (n : Nat) (x : SN) : BitVec 30 × BitVec 30 × PscTx :=
  let t := tget {} d.prot.psc n
  let gs := pscGroups d n
  let el := gs.filter fun g => t.q.any fun q => q.1 == g.1
  let best (l : List (Nat × Group)) : Option (Nat × Group) := l.foldl (fun b g => match b with
    | none => some g
    | some h => if h.2.ent.1 < g.2.ent.1 then some g else b) none
  let a := best el
  let b := a.bind fun x => best (el.filter fun g => g.1 != x.1)
  let used := (a.toList ++ b.toList).map (·.1)
  let rot := (gs.filter fun g => decide (t.rot ≤ g.1)) ++ gs.filter fun g => decide (g.1 < t.rot)
  let fill := (rot.filter fun g => !used.contains g.1).take (2 - used.length)
  let ch := a.toList ++ b.toList ++ fill
  let bits (o : Option (Nat × Group)) : BitVec 30 := match o with | some g => pscEntry g.2 (entAt g.2 x) | none => 0
  (bits ch[0]?, bits ch[1]?, { t with
    q := t.q.filter fun q => !used.contains q.1,
    rot := match fill.getLast? with | some g => g.1 + 1 | none => t.rot })

/-- One entry of a received message (R268). -/
def pscEntryIn (lane ns : Nat) (sn : SN) (d : Dev) (e : BitVec 30) : Dev :=
  if !e.getLsbD 29 then d else
  let pgid := (e.extractLsb' 12 17).toNat
  let req := (e.extractLsb' 8 4).toNat
  let rs := (e.extractLsb' 4 4).toNat
  let bs := (e.extractLsb' 0 4).toNat
  let unknown := sat d F.FRM_PSC_STATUS_UNKNOWN lane
  match groupOf d pgid with
  | none => unknown
  | some g =>
    if pscRxLane g ≠ some lane ∨ !([0xF, 0xE, 0xD, 0xB, 9, 7, 5, 0].contains req) ∨ g.n < rs ∨ g.n < bs then unknown else
    let d := if g.loss then raise d { typ := 0x51, sn := sn, p0 := pgid, p1 := 0 } else d
    let agree := bsigAgrees g bs
    let d := if g.fop && agree then raise d { typ := 0x51, sn := sn, p0 := pgid, p1 := 1 } else d
    evalGroup sn ns (setGroup d pgid { g with remote := some (req, rs, bs), loss := false, fop := g.fop && !agree }) pgid

/-- PSC_MESSAGE (R268). An all-zero group is no message (R76). -/
def pscMessage (lane : Nat) (msg : Option (BitVec 80)) (ns : Nat) (sn : SN) (d : Dev) : Dev :=
  match msg with
  | none => d
  | some m =>
    if m = 0 then d else
    let d := perf d 0x12 lane
    let h : BitVec 64 := m.extractLsb' 16 64
    if crc16 (msbBits h) ≠ m.extractLsb' 0 16 then sat d F.FRM_PSC_STATUS_CRC_ERR lane
    else if m.extractLsb' 76 4 ≠ 1#4 then sat d F.FRM_PSC_STATUS_UNKNOWN lane
    else pscEntryIn lane ns sn (pscEntryIn lane ns sn d (m.extractLsb' 46 30)) (m.extractLsb' 16 30)

/-- DPSC_LOSS (R269). -/
def dpscLoss (pgid ns : Nat) (sn : SN) (d : Dev) : Dev :=
  match groupOf d pgid with
  | some g => if g.bidir && !g.loss then
      evalGroup sn ns (setGroup (raise d { typ := 0x51, sn := sn, p0 := pgid, p1 := 256 }) pgid { g with loss := true, lsel := none }) pgid
    else d
  | none => d

/-- DPSC_FOP (R269). -/
def dpscFop (pgid : Nat) (sn : SN) (d : Dev) : Dev :=
  match groupOf d pgid with
  | some g => match g.remote with
    | some r =>
      let differs := if g.cfg.typ = 2 then g.tgt != 0 && r.2.2 != g.tgt else r.2.2 != g.r
      if g.bidir && !g.fop && differs then setGroup (raise d { typ := 0x51, sn := sn, p0 := pgid, p1 := 257 }) pgid { g with fop := true } else d
    | none => d
  | none => d

/-! ### The commands -/

/-- R253. -/
def execHoldOffExpiry (pgid : BitVec 17) (sig : Fin 16) (ns : Nat) (s : State) : Res := core s (holdOffExpiry pgid.toNat sig ns s.sn)
/-- R256. -/
def execWtrExpiry (pgid : BitVec 17) (ns : Nat) (s : State) : Res := core s (wtrExpiry pgid.toNat ns s.sn)
/-- R255. -/
def execLockoutOfProtection (ring : Fin 16) (ns : Nat) (s : State) : Res := core s (servePgCmd 1 ring ns s.sn)
/-- R255. -/
def execForcedSwitch (ring : Fin 16) (ns : Nat) (s : State) : Res := core s (servePgCmd 2 ring ns s.sn)
/-- R255. -/
def execManualSwitch (ring : Fin 16) (ns : Nat) (s : State) : Res := core s (servePgCmd 3 ring ns s.sn)
/-- R255. -/
def execClear (ring : Fin 16) (ns : Nat) (s : State) : Res := core s (servePgCmd 0 ring ns s.sn)
/-- R262. -/
def execTimedCommandEntry (pgid : BitVec 17) (ns : Nat) (s : State) : Res := core s (timedEntry pgid.toNat ns s.sn)
/-- R268. -/
def execPscMessage (lane : Fin 128) (msg : Option (BitVec 80)) (ns : Nat) (s : State) : Res := core s (pscMessage lane msg ns s.sn)
/-- R269. -/
def execDpscLoss (pgid : BitVec 17) (ns : Nat) (s : State) : Res := core s (dpscLoss pgid.toNat ns s.sn)
/-- R269. -/
def execDpscFop (pgid : BitVec 17) (s : State) : Res := core s (dpscFop pgid.toNat s.sn)
/-- R261. -/
def execBridgeHoldExpiry (pgid : BitVec 17) (s : State) : Res := core s (bridgeHoldExpiry pgid.toNat)

end Sys2Proof.Machine
end

