-- ==== Sys2Proof/Machine/Ptb.lean ====
section
/-! DEFINITION. The Protection Trigger Bus (chapter 11). -/

namespace Sys2Proof.Machine

/-- Cycles per frame (Table 11-7). -/
def frameLen (d : Dev) : Nat := 8 * 2 ^ rd d F.PTB_CFG_FRAME_LEN

/-- CODE of a trigger word. -/
def ptbCode (w : BitVec 16) : Nat := (w.extractLsb' 13 3).toNat

/-- The trigger table entry that a word names in cycle `cyc` (R277). -/
def ptbIdx (cyc : Nat) (w : BitVec 16) : Nat := cyc * 64 + (w.extractLsb' 7 6).toNat

/-- The acknowledgement of a word (Table 11-3). -/
def ptbAck (d : Dev) (cyc : Nat) (w : BitVec 16) : BitVec 2 :=
  let c := ptbCode w
  let i := ptbIdx cyc w
  if c = 0 then 0
  else if !oddParity w || (w.extractLsb' 1 6).toNat != cyc || decide (4 ≤ c) then 3
  else if !rdB d F.PTB_TBL_EN i || (c == 2 && !rdB d F.PTB_TBL_SD_EN i) then 2
  else 1

/-- The condition code that an accepted CODE names: CLEAR 0, SD 1, SF 2. -/
def ptbCond (w : BitVec 16) : Nat := ptbCode w - 1

/-- COND of entry `i` becomes `c`: `n` events reach its input, whose group is answered, or a change of COND raises
PTB_NO_GROUP (R284 to R286). Two triggers for one entry may count an event without a change of COND (R285). -/
def ptbSet (sn : SN) (d : Dev) (i c n : Nat) : Dev × List Nat :=
  let same := rd d F.PTB_TBL_COND i == c
  if same && n == 0 then (d, []) else
  let d := wr d F.PTB_TBL_COND i c
  let pgid := rd d F.PTB_TBL_PGID i
  let sig := rd d F.PTB_TBL_SIG i
  let alone : Dev × List Nat := (if same then d else raise d { typ := 0x53, sn := sn, p0 := i, p1 := c }, [])
  match groupOf d pgid with
  | some g =>
    if g.n < sig then alone else
    (setGroup d pgid { g with inputs := lmod g.inputs sig fun x => { x with events := x.events + n } }, [pgid])
  | none => alone

/-- Triggers and ends of COND that fall in one cycle: every one changes its COND, and each group that they reach is then
evaluated once (R252, R285). -/
def ptbAll (sn : SN) (ns : Nat) (l : List (Nat × Nat × Nat)) (d : Dev) : Dev :=
  let x := l.foldl (fun x e =>
    let y := ptbSet sn x.1 e.1 e.2.1 e.2.2
    (y.1, x.2 ++ y.2)) (d, [])
  x.2.dedup.foldl (evalGroup sn ns) x.1

/-- One end of COND: an event where COND changes. -/
def ptbOne (sn : SN) (ns : Nat) (d : Dev) (i c : Nat) : Dev := ptbAll sn ns [(i, c, if rd d F.PTB_TBL_COND i = c then 0 else 1)] d

/-- A port is enabled in the present frame. -/
def ptbOn (d : Dev) (p : Nat) : Bool := d.prot.on.getD p false

/-- The pins of the ports in cycle `cyc` (Table 11-1, R275): a disabled port holds them low. -/
def ptbPins (cyc : Nat) (clk : Bool) (d : Dev) : Dev :=
  [0, 1].foldl (fun d p =>
    if ptbOn d p then emit d (.ptb p clk (cyc == 0) (d.prot.lastAck.getD p 0)) else emit d (.ptb p false false 0)) d

/-- A frame begins: P0_EN and P1_EN take effect (R289), and a port that is off drives no acknowledgement. -/
def ptbFrame (d : Dev) : Dev :=
  let on := [rdB d F.PTB_CFG_P0_EN, rdB d F.PTB_CFG_P1_EN]
  { d with prot := { d.prot with on := on, lastAck := d.prot.lastAck.zipIdx.map fun a => if on.getD a.2 false then a.1 else 0 } }

/-- The answer and the counters of one port for a word (R278, R546). -/
def ptbPort (sn : SN) (cyc ms p : Nat) (w : BitVec 16) (d : Dev) : Dev :=
  if !ptbOn d p then d else
  let a := ptbAck d cyc w
  let d := { d with prot := { d.prot with lastAck := lset d.prot.lastAck p a } }
  if a = 1 then perf (sat d F.PTB_PORT_ACC p) 6 p
  else if a = 2 then sat d F.PTB_PORT_REF p
  else if a = 3 then
    let d := sat d F.PTB_PORT_ERR p
    if d.prot.errWin[p]? = some (some ms) then d
    else raise { d with prot := { d.prot with errWin := lset d.prot.errWin p (some ms) } } { typ := 0x54, sn := sn, p0 := p, p1 := cyc }
  else d

/-- The changes of COND that the accepted words of a cycle bring; two for one entry take the more severe code (R285). -/
def ptbChanges (d : Dev) (cyc : Nat) (w0 w1 : BitVec 16) : List (Nat × Nat × Nat) :=
  let one (p : Nat) (w : BitVec 16) : List (Nat × Nat × Nat) :=
    if ptbOn d p && ptbAck d cyc w == 1 then
      [(ptbIdx cyc w, ptbCond w, if rd d F.PTB_TBL_COND (ptbIdx cyc w) = ptbCond w then 0 else 1)] else []
  match one 0 w0, one 1 w1 with
  | [x], [y] => if x.1 = y.1 then [(x.1, max x.2.1 y.2.1, x.2.2 + y.2.2)] else [x, y]
  | a, b => a ++ b

/-- PTB_TRIGGER (R275 to R285): the words of both ports in cycle `cyc`. The frame counter runs on through the cycles that no
command names, which are idle; a cycle before the next one belongs to the next frame (log entry 155). -/
def ptbTrigger (cyc : Nat) (w0 w1 : BitVec 16) (ms ns : Nat) (sn : SN) (d : Dev) : Dev :=
  if d.prot.stopped ∨ frameLen d ≤ cyc then d else
  let d := if d.prot.cyc = 0 ∨ cyc < d.prot.cyc then ptbFrame d else d
  let l := ptbChanges d cyc w0 w1
  let d := ptbPins cyc true (ptbPort sn cyc ms 1 w1 (ptbPort sn cyc ms 0 w0 d))
  ptbAll sn ns l { d with prot := { d.prot with cyc := (cyc + 1) % frameLen d } }

/-- Promotion stops the bus clocks low and holds the acknowledgements (R288); the next cycle is the same frame's. -/
def ptbStop (d : Dev) : Dev := ptbPins d.prot.cyc false { d with prot := { d.prot with stopped := true } }

/-- PTB_STALE (R283): the refresh timer of an entry with REFRESH ≠ 0 that holds SD or SF expires. -/
def ptbStale (i ns : Nat) (sn : SN) (d : Dev) : Dev :=
  if rd d F.PTB_TBL_REFRESH i = 0 ∨ rd d F.PTB_TBL_COND i = 0 then d
  else ptbOne sn ns (raise d { typ := 0x52, sn := sn, p0 := i }) i 0

/-- PTB_TBL_WRITE (R281, R282): ignored once the lock is set. -/
def ptbTblWrite (i : Nat) (val : W32) (ns : Nat) (lock : Bool) (sn : SN) (d : Dev) : Dev :=
  if lock then d else
  let d := ptbOne sn ns d i 0
  wrWord d (F.PTB_TBL_PGID.addr i) (val &&& 0x07FFFFFF)

/-- R279. -/
def execPtbTrigger (cyc : Fin 64) (w0 w1 : BitVec 16) (ms : Nat) (ns : Nat) (s : State) : Res := core s (ptbTrigger cyc w0 w1 ms ns s.sn)
/-- R283. -/
def execPtbStale (i : Fin 4096) (ns : Nat) (s : State) : Res := core s (ptbStale i ns s.sn)
/-- R282. -/
def execPtbTblWrite (i : Fin 4096) (val : W32) (ns : Nat) (s : State) : Res := core s (ptbTblWrite i val ns s.lock s.sn)

end Sys2Proof.Machine
end

