-- ==== Sys2Proof/Machine/Timing.lean ====
section
/-! DEFINITION. Timing and clocks (chapter 16): oscillator and APLLs, reference candidates and their selection, the DPLL,
phase steps, clock monitors, multiplexers, the frequency counter; and the failure of the role latch that some of them
cause (R294, R298). -/

namespace Sys2Proof.Machine

/-- A 24-bit two's complement value. -/
def signed (wd v : Nat) : Int := if v < 2 ^ (wd - 1) then (v : Int) else (v : Int) - (2 ^ wd : Nat)

/-- The two's complement of an integer in `wd` bits. -/
def unsigned (wd : Nat) (v : Int) : Nat := (v % (2 ^ wd : Nat)).toNat

/-! ### Candidates and selection -/

def candRec (d : Dev) (i : Nat) : Cand := tget {} d.tim.cands i
def modCand (d : Dev) (i : Nat) (f : Cand → Cand) : Dev := { d with tim := { d.tim with cands := tmod {} d.tim.cands i f } }

/-- The source of a slot: a lane, or 0x80 to 0x83 a REFIN (R404). -/
def candSrc (d : Dev) (i : Nat) : Nat := rd d F.TIM_CAND_SRC i
def candValid (d : Dev) (i : Nat) : Bool := decide (candSrc d i < 0x84)

/-- The slot takes the QL it receives (R405). -/
def candRx (d : Dev) (i : Nat) : Bool :=
  decide (candSrc d i < 128) && isGlf (persOf d (candSrc d i)) && !rdB d F.TIM_CAND_QL_HOST_SEL i

/-- The QL of a slot (R405). -/
def candQl (d : Dev) (i : Nat) : Nat :=
  if candRx d i then (tget {} d.frm (candSrc d i)).ql.toNat else rd d F.TIM_CAND_QL_HOST i

/-- The rank of a QL (Table 16-3). -/
def qlRank (d : Dev) (q : Nat) : Option Nat :=
  if rdB d F.TIM_CFG_OPTION then [1, 0, 7, 4, 0xD, 0xA, 0xC, 0xE].idxOf? q else [2, 4, 8, 0xB].idxOf? q

/-- The accepted LT of a slot's lane. -/
def candLt (d : Dev) (i : Nat) : Bool :=
  decide (candSrc d i < 128) && isGlf (persOf d (candSrc d i)) && (tget {} d.frm (candSrc d i)).lt == some true

/-- The conditions of Table 16-2 that hold for a slot, bit c − 1 for condition c. -/
def candConds (d : Dev) (i : Nat) : Nat :=
  let n := candSrc d i
  let x := candRec d i
  let lane := n < 128 ∧ (!rdB d F.LNE_CTL_RX_EN n || rdB d F.LNE_STATUS_LOS n || !rdB d F.LNE_STATUS_CDR_LOCK n || laneCond d n == .sf)
  (if lane then 1 else 0) + (if 128 ≤ n ∧ x.act then 2 else 0) + (if x.ofs then 4 else 0) +
    (if rdB d F.TIM_CFG_QL_EN ∧ (qlRank d (candQl d i)).isNone then 8 else 0) + (if candLt d i then 16 else 0)

/-- The number of the lowest condition in a set, 1 to 5. -/
def lowCond (m : Nat) : Nat := match (List.range 5).find? m.testBit with | some b => b + 1 | none => 0

/-- Evaluates a slot (R406): conditions, wait-to-restore (started only with `start`, and not where only "QL not usable"
cleared), QUAL, QL and their events. -/
def candStep (start : Bool) (sn : SN) (d : Dev) (i : Nat) : Dev :=
  let x := candRec d i
  let live := rdB d F.TIM_CAND_EN i && candValid d i
  let c := if live then candConds d i else 0
  let w := live && c == 0 && (x.wtr || (start && (x.cond &&& 0x17) != 0 && rd d F.TIM_CAND_WTR i != 0))
  let q := live && c == 0 && !w
  let was := rdB d F.TIM_CAND_STATUS_QUAL i
  let ql := if candValid d i then candQl d i else 0xF
  let qlWas := rd d F.TIM_CAND_STATUS_QL i
  let last := if c = 0 ∧ x.cond ≠ 0 then lowCond x.cond else x.last
  let d := modCand d i fun x => { x with cond := c, wtr := w, last := last }
  let d := wrB (wr (wrB (wrB d F.TIM_CAND_STATUS_QUAL i q) F.TIM_CAND_STATUS_WTR_RUN i w) F.TIM_CAND_STATUS_QL i ql) F.TIM_CAND_STATUS_LT i (candLt d i)
  let d := if ql ≠ qlWas ∧ live then raise d { typ := 0x73, sn := sn, p0 := i, p1 := ql } else d
  if was ∧ c ≠ 0 then raise d { typ := 0x72, sn := sn, p0 := i, p1 := 1 + 16 * lowCond c }
  else if !was ∧ q then raise d { typ := 0x72, sn := sn, p0 := i, p1 := 16 * last }
  else d

/-- Evaluates every slot. -/
def candEval (start : Bool) (sn : SN) (d : Dev) : Dev := (List.range 8).foldl (candStep start sn) d

/-- The slot is qualified. -/
def candQual (d : Dev) (i : Nat) : Bool := rdB d F.TIM_CAND_STATUS_QUAL i

/-- (rank, PRIO) of a slot as R408 compares them. -/
def candKey (d : Dev) (i : Nat) : Nat × Nat :=
  (if rdB d F.TIM_CFG_QL_EN then (qlRank d (rd d F.TIM_CAND_STATUS_QL i)).getD 99 else 0, rd d F.TIM_CAND_PRIO i)

/-- The best qualified candidate (R408). -/
def candBest (d : Dev) : Option Nat :=
  (List.range 8).foldl (fun b i => if !candQual d i then b else match b with
    | none => some i
    | some j => let x := candKey d i; let y := candKey d j
      if x.1 < y.1 ∨ (x.1 = y.1 ∧ x.2 < y.2) then some i else b) none

/-- The slot that selection selects, 0xF none (R408). -/
def candSelect (d : Dev) : Nat :=
  let f := rd d F.TIM_CFG_FORCE
  if f < 8 then (if candQual d f then f else 0xF)
  else match candBest d with
    | none => 0xF
    | some b =>
      let s := d.tim.sel
      if 8 ≤ s ∨ !candQual d s then b
      else
        let x := candKey d b; let y := candKey d s
        if x.1 < y.1 ∨ (rdB d F.TIM_CFG_REVERT ∧ x.1 = y.1 ∧ x.2 < y.2) then b else s

/-- The XO has been judged stable and is not lost. -/
def xoGood (d : Dev) : Bool := rdB d F.CLK_STATUS_XO_OK && !rdB d F.CLK_STATUS_XO_LOSS

/-- A standby whose twin link is up takes the active's sweep as its reference (R409). -/
def linked (d : Dev) : Bool := d.twin.role == .standby && rdB d F.TWN_STATUS_LINK

/-- The transmitted QL (Table 16-5); 0xF before the XO is judged stable. -/
def qlOut (d : Dev) : Nat :=
  if !xoGood d then 0xF
  else match d.tim.st with
    | 0 => rd d F.TIM_CFG_OWN_QL
    | 3 => if d.tim.hoDone then rd d F.TIM_CFG_OWN_QL else d.tim.lastQl
    | _ => rd d F.TIM_CAND_STATUS_QL d.tim.sel

/-- HOLD and FREERUN of o7 (Table 16-5): a standby on the active's sweep sends FREERUN = 0. -/
def o7Hold (d : Dev) : Bool := xoGood d && d.tim.st == 3
def o7Free (d : Dev) : Bool := !xoGood d || (d.tim.st == 0 && !linked d)

/-- The DPLL's own selection and state become `sel` and `st`: the specification timer starts at each entry to HOLDOVER and
resets when it is left (R411, R414). -/
def dpllOwn (sn : SN) (d : Dev) (sel st : Nat) : Dev :=
  let t := d.tim
  let enter := st = 3 ∧ t.st ≠ 3
  let spec := rd d F.TIM_HO_SPEC
  let run := if enter then decide (spec ≠ 0) else st == 3 && rdB d F.TIM_STATUS_HO_SPEC_RUN
  wrB { d with
    tim := { t with
    sel := sel, st := st,
    lastQl := if t.sel < 8 then rd d F.TIM_CAND_STATUS_QL t.sel else t.lastQl,
    hoDone := if enter then decide (spec = 0) else st == 3 && t.hoDone,
    hoLeft := if t.st = 3 ∧ st ≠ 3 ∧ rdB d F.TIM_STATUS_HO_SPEC_RUN then some sn else t.hoLeft } }
    F.TIM_STATUS_HO_SPEC_RUN 0 run

/-- TIM_STATUS shows the DPLL's own selection and state, with their events (Table 16-8). -/
def dpllShow (sn : SN) (d : Dev) : Dev :=
  let sel := d.tim.sel
  let st := d.tim.st
  let old := rd d F.TIM_STATUS_SEL
  let ost := rd d F.TIM_STATUS_STATE
  let d := wr (wr d F.TIM_STATUS_SEL 0 sel) F.TIM_STATUS_STATE 0 st
  let d := if old ≠ sel then raise d { typ := 0x70, sn := sn, p0 := old, p1 := sel, p2 := if sel < 8 then rd d F.TIM_CAND_STATUS_QL sel else 0xF } else d
  if ost ≠ st then raise d { typ := 0x71, sn := sn, p0 := ost, p1 := st, p2 := qlOut d } else d

/-- A change of the DPLL's own selection and state (R410, R411, R414); TIM_STATUS follows unless the active's sweep is the
reference. -/
def dpllMove (sn : SN) (d : Dev) (sel st : Nat) : Dev :=
  if linked d then dpllOwn sn d sel st else dpllShow sn (dpllOwn sn d sel st)

/-- REFERENCE_SELECTION (R408, R411). -/
def refSelect (sn : SN) (d : Dev) : Dev :=
  if !xoGood d then d else
  let ho := if rdB d F.TIM_STATUS_HO_VALID then 3 else 0
  match rd d F.TIM_CFG_MODE with
  | 1 => dpllMove sn d 0xF 0
  | 2 => dpllMove sn d 0xF ho
  | _ =>
    let s := candSelect d
    if s < 8 then dpllMove sn d s (if s = d.tim.sel ∧ (d.tim.st = 1 ∨ d.tim.st = 2) then d.tim.st else 1)
    else dpllMove sn d 0xF (if d.tim.st = 1 ∨ d.tim.st = 2 then ho else d.tim.st)

/-- The link of a standby comes up: the reference is the active's sweep (R409), unless the XO is lost (R403). -/
def dpllLink (sn : SN) (d : Dev) : Dev :=
  if !xoGood d then d else
  let old := rd d F.TIM_STATUS_SEL
  let ost := rd d F.TIM_STATUS_STATE
  let d := wr (wr d F.TIM_STATUS_SEL 0 8) F.TIM_STATUS_STATE 0 1
  let d := raise d { typ := 0x70, sn := sn, p0 := old, p1 := 8, p2 := qlOut d }
  if ost = 1 then d else raise d { typ := 0x71, sn := sn, p0 := ost, p1 := 1, p2 := qlOut d }

/-- A standby changes back to its own selection (R409, R410): the active's sweep is a reference lost (R411). -/
def dpllUnlink (sn : SN) (d : Dev) : Dev :=
  if rd d F.TIM_STATUS_SEL ≠ 8 then d else
  dpllShow sn (dpllOwn sn d d.tim.sel
    (if d.tim.sel < 8 then 1 else if rd d F.TIM_CFG_MODE = 1 then 0 else if d.tim.st = 3 ∨ rdB d F.TIM_STATUS_HO_VALID then 3 else 0))

/-- A device that is no standby any more makes no promotion (Table 12-3): the outputs that it held are released. -/
def endPromise (d : Dev) : Dev :=
  { d with twin := { d.twin with promoting := none, gpio := none }, prot := { d.prot with stopped := false } }

/-- The device enters FAILED (R294, R298, R547): the latch clears, TW_FAIL_OUT rises; a DISABLED device with a clear
latch takes no role action. -/
def roleFail (sn : SN) (d : Dev) : Dev :=
  if (d.twin.role == .disabled && !d.twin.latch) || d.twin.role == .failed then d
  else
    let d := wr { d with twin := { d.twin with role := .failed, latch := false, failOut := true } } F.TWN_STATUS_LAST_CAUSE 0 6
    dpllUnlink sn (wr (endPromise d) F.TWN_STATUS_COUPLING 0 0)

/-- A cause of TWN_CFG.FAIL_MASK (R298). -/
def failCause (sn : SN) (d : Dev) (bit : Nat) : Dev := if (rd d F.TWN_CFG_FAIL_MASK).testBit bit then roleFail sn d else d

/-- CLK_NMI with its cause (R423, Table 16-8). -/
def clkNmi (sn : SN) (d : Dev) (cause : Nat) : Dev :=
  failCause sn (nmi (raise d { typ := 0x77, sn := sn, p0 := cause })) 0

/-- CANDIDATE_WINDOW (R406): the offset of the window, in 10 ppb units, is judged. -/
def candWindow (i : Nat) (ofs : BitVec 24) (sn : SN) (d : Dev) : Dev :=
  if !candValid d i then d else
  let disq := min (rd d F.TIM_CFG2_DISQ_PPM) 50
  let req := min (rd d F.TIM_CFG2_REQ_PPM) disq
  let mag := ofs.toInt.natAbs
  let d := modCand (wr d F.TIM_CAND_STATUS_OFS i ofs.toNat) i fun x =>
    let ok := if mag ≤ 100 * req then x.okWin + 1 else 0
    if 100 * disq < mag then { x with ofs := true, okWin := 0 }
    else if x.ofs ∧ 3 ≤ ok then { x with ofs := false, okWin := 0 } else { x with okWin := if x.ofs then ok else 0 }
  candStep true sn d i

/-- CANDIDATE_WTR (R406). -/
def candWtrEnd (i : Nat) (sn : SN) (d : Dev) : Dev :=
  if (candRec d i).wtr then candStep false sn (modCand d i fun x => { x with wtr := false }) i else d

/-- NO_ACTIVITY (R406): a REFIN gives no edge for 4 nominal periods, or its next edge. -/
def noActivity (i : Nat) (edge : Bool) (sn : SN) (d : Dev) : Dev :=
  if candSrc d i < 128 ∨ !candValid d i then d
  else candStep true sn (modCand d i fun x => { x with act := !edge }) i

/-! ### Oscillator, DPLL and phase steps -/

/-- Two consecutive measurements agree (R402). -/
def xoAgree (a b : Nat) : Bool :=
  decide (6963 ≤ a ∧ a ≤ 9421 ∧ 6963 ≤ b ∧ b ≤ 9421 ∧ 1000 * (max a b - min a b) ≤ 5 * min a b)

/-- XO_OK (R402): `counts` are the measurements of 1024 XO cycles, oldest first; the XO has produced 65,536 cycles. -/
def xoOk (counts : List Nat) (d : Dev) : Dev :=
  match counts.reverse with
  | b :: a :: _ => if !rdB d F.CLK_STATUS_XO_OK && decide (64 ≤ counts.length) && xoAgree a b then
      wr (wrB d F.CLK_STATUS_XO_OK 0 true) F.TIM_STATUS_STATE 0 0 else d
  | _ => d

/-- APLL_LOCK (R402); with APLL0 the twin-link lanes post their request ahead of every lane's (R490). -/
def apllLock (a : Nat) (d : Dev) : Dev :=
  let l := rd d F.CLK_STATUS_APLL_LOCK
  if !rdB d F.CLK_STATUS_XO_OK || l.testBit a then d else
  let d := wr d F.CLK_STATUS_APLL_LOCK 0 (l ||| 2 ^ a)
  if a = 0 then { d with stagger := 32 :: d.stagger } else d

/-- XO_LOSS (R403). -/
def xoLoss (sn : SN) (d : Dev) : Dev :=
  if !xoGood d then d else
  clkNmi sn (dpllShow sn (dpllOwn sn (wrB d F.CLK_STATUS_XO_LOSS 0 true) 0xF 0)) 3

/-- Sweep ticks are produced (R402, R403, Table 16-7, R418). -/
def ticking (d : Dev) : Bool :=
  rdB d F.CLK_STATUS_XO_OK && (rd d F.CLK_STATUS_APLL_LOCK).testBit 0 && !d.tim.stopped.getLsbD 1 && !d.tim.stopped.getLsbD 2

/-- DPLL_LOCK (R411): the history is rebuilt from zero (R413). -/
def dpllLock (sn : SN) (d : Dev) : Dev :=
  if rd d F.TIM_STATUS_STATE ≠ 1 ∨ !xoGood d then d else
  let d := wrB (wr d F.TIM_STATUS_STATE 0 2) F.TIM_STATUS_HO_VALID 0 false
  let d := if linked d then d else { d with tim := { d.tim with st := 2 } }
  raise d { typ := 0x71, sn := sn, p0 := 1, p1 := 2, p2 := qlOut d }

/-- HOLDOVER_HISTORY_VALID (R413). -/
def hoValid (d : Dev) : Dev := if rd d F.TIM_STATUS_STATE = 2 then wrB d F.TIM_STATUS_HO_VALID 0 true else d

/-- TIM_HO_EXPIRED (R414). -/
def hoExpired (sn : SN) (d : Dev) : Dev :=
  if rdB d F.TIM_STATUS_HO_SPEC_RUN then
    raise (wrB { d with tim := { d.tim with hoDone := true } } F.TIM_STATUS_HO_SPEC_RUN 0 false) { typ := 0x74, sn := sn }
  else if d.tim.hoLeft = some sn then raise { d with tim := { d.tim with hoLeft := none } } { typ := 0x74, sn := sn }
  else d

/-- TIM_PSTEP_GO (R417). -/
def pstepGo (sn : SN) (d : Dev) : Dev :=
  if rdB d F.TIM_PSTEP_STATUS_BUSY then wrB d F.CLK_STATUS_CFG_ERR 0 true
  else
    let size := signed 21 (rd d F.TIM_PSTEP_SIZE)
    let t : SN := BitVec.ofNat 32 (rd d F.TIM_PSTEP_SN)
    let ok := decide (2 ≤ (t - sn).toNat ∧ (t - sn).toNat < 2 ^ 31)
    let d := if ok then d else wrB d F.TIM_PSTEP_STATUS_LATE 0 true
    let p : PStep := { remain := size, size := size, ivl := max 1 (rd d F.TIM_PSTEP_IVL), next := if ok then t else sn + 2, late := !ok }
    wrB (wr { d with tim := { d.tim with ps := some p } } F.TIM_PSTEP_STATUS_REMAIN 0 (unsigned 21 size)) F.TIM_PSTEP_STATUS_BUSY 0 true

/-- PHASE_STEP (R416): one step of at most 64 ps in its sweep. -/
def phaseStep (sn : SN) (d : Dev) : Dev :=
  match d.tim.ps with
  | none => d
  | some p =>
    if !snDue p.next sn then d else
    let r := p.remain - max (-64) (min 64 p.remain)
    let d := wr d F.TIM_PSTEP_STATUS_REMAIN 0 (unsigned 21 r)
    if r = 0 then
      raise (wrB { d with tim := { d.tim with ps := none } } F.TIM_PSTEP_STATUS_BUSY 0 false)
        { typ := 0x75, sn := sn, p0 := unsigned 32 p.size, p1 := p.late.toNat }
    else { d with tim := { d.tim with ps := some { p with remain := r, next := p.next + BitVec.ofNat 32 p.ivl } } }

/-- The sweep `x` carries a phase step (R75, R415). -/
def stepIn (d : Dev) (x : SN) : Bool := match d.tim.ps with | some p => p.next == x && p.remain != 0 | none => false

/-- CLKOUTn is low (R420). -/
def clkOutLow (d : Dev) (n : Nat) : Bool :=
  d.tim.stopped.getLsbD 5 || rd d F.TIM_CLKOUT_FSEL n == 0 || decide (10 ≤ rd d F.TIM_CLKOUT_FSEL n) ||
    (rdB d F.TIM_CLKOUT_SQ n && (rd d F.TIM_STATUS_STATE == 0 || (rd d F.TIM_STATUS_STATE == 3 && d.tim.hoDone) || rdB d F.CLK_STATUS_XO_LOSS))

/-! ### Monitors, multiplexers and the frequency counter -/

/-- A core restarts after its watchdog or a rescue (R396): its debug halt ends. -/
def coreRestart (d : Dev) (c : Nat) : Dev :=
  let st := if c = 0 then F.CTL_CORE_STATUS_C0_STATE else F.CTL_CORE_STATUS_C1_STATE
  let d := wrB d (if c = 0 then F.DBG_CTL_HALT0 else F.DBG_CTL_HALT1) 0 false
  let h := rd d F.DBG_STATUS_HALTED
  let d := wr d F.DBG_STATUS_HALTED 0 (if h.testBit c then h - 2 ^ c else h)
  if rd d st = 2 ∨ rd d st = 3 then wr d st 0 4 else d

/-- Every open PM bin is marked SUSPECT (R423, R437). -/
def binsSuspect (d : Dev) : Dev :=
  { d with
      pm := { d.pm with
      objs := d.pm.objs.map fun o =>
      (o.1, { o.2 with c15 := { o.2.c15 with suspect := true }, c24 := { o.2.c24 with suspect := true } }) } }

/-- CLOCK_STOP (R421, R423). -/
def clockStop (m : Nat) (sn : SN) (d : Dev) : Dev :=
  let mark (d : Dev) : Dev := { d with tim := { d.tim with stopped := d.tim.stopped ||| BitVec.ofNat 8 (2 ^ m) } }
  match m with
  | 0 => xoLoss sn d
  | 1 | 2 => clkNmi sn (mark d) 4
  | 6 => clkNmi sn (coreRestart (coreRestart (wrB (wrB d F.CLK_STATUS_SYS_RESCUE 0 true) F.CLK_STATUS_SYS_CUR 0 false) 0) 1) 1
  | 7 => clkNmi sn (binsSuspect (wrB (wrB d F.CLK_STATUS_PER_RESCUE 0 true) F.CLK_STATUS_PER_CUR 0 false)) 2
  | _ => raise (mark d) { typ := 0x78, sn := sn, p0 := m, p1 := 0 }

/-- OFF_FREQ (R421). -/
def offFreq (m : Nat) (count : W32) (sn : SN) (d : Dev) : Dev :=
  if !rdB d F.CLK_STATUS_XO_OK then d else
  raise (wr d F.CLK_MON_FAIL_OFF_FREQ 0 (rd d F.CLK_MON_FAIL_OFF_FREQ ||| 2 ^ m)) { typ := 0x78, sn := sn, p0 := m, p1 := count.toNat }

/-- RESCUE_RELEASE (R423): accepted for a group whose multiplexer output has run. -/
def rescueRelease (sys per sysRun perRun : Bool) (d : Dev) : Dev :=
  let d := if sys && sysRun && rdB d F.CLK_STATUS_SYS_RESCUE then
      wrB (wrB d F.CLK_STATUS_SYS_RESCUE 0 false) F.CLK_STATUS_SYS_CUR 0 d.tim.sysMux else d
  if per && perRun && rdB d F.CLK_STATUS_PER_RESCUE then
    wrB (wrB d F.CLK_STATUS_PER_RESCUE 0 false) F.CLK_STATUS_PER_CUR 0 d.tim.perMux else d

/-- APLL1's outputs run: a multiplexer with one of them stopped hangs (R422). -/
def apll1Runs (d : Dev) : Bool := rdB d F.CLK_STATUS_XO_OK && !d.tim.stopped.getLsbD 3 && !d.tim.stopped.getLsbD 4

/-- MUX_SWITCH_COMPLETE (R422). -/
def muxDone (per : Bool) (d : Dev) : Dev :=
  if !apll1Runs d then d
  else if per then
    let d : Dev := { d with tim := { d.tim with perMux := rdB d F.CLK_SEL_PER } }
    if rdB d F.CLK_STATUS_PER_RESCUE then d else wrB d F.CLK_STATUS_PER_CUR 0 d.tim.perMux
  else
    let d : Dev := { d with tim := { d.tim with sysMux := rdB d F.CLK_SEL_SYS } }
    if rdB d F.CLK_STATUS_SYS_RESCUE then d else wrB d F.CLK_STATUS_SYS_CUR 0 d.tim.sysMux

/-- FREQUENCY_COUNT_START (R424). -/
def fcntStart (d : Dev) : Dev :=
  if 16 ≤ rd d F.CLK_FCNT_CTL_SRC ∨ (rdB d F.CLK_FCNT_CTL_REF ∧ !rdB d F.CLK_STATUS_XO_OK) then wrB d F.CLK_STATUS_CFG_ERR 0 true
  else wrB (wrB (wrB d F.CLK_FCNT_STATUS_BUSY 0 true) F.CLK_FCNT_STATUS_DONE 0 false) F.CLK_FCNT_STATUS_TMO 0 false

/-- FREQUENCY_COUNT_DONE (R424). -/
def fcntDone (count : W32) (tmo : Bool) (d : Dev) : Dev :=
  if !rdB d F.CLK_FCNT_STATUS_BUSY then d else
  wr (wrB (wrB (wrB d F.CLK_FCNT_STATUS_BUSY 0 false) F.CLK_FCNT_STATUS_DONE 0 true) F.CLK_FCNT_STATUS_TMO 0 tmo)
    F.CLK_FCNT_RESULT_COUNT 0 count.toNat

/-! ### The commands -/

/-- R402. -/
def execXoOk (counts : List Nat) (s : State) : Res := core s (xoOk counts)
/-- R402. -/
def execXoFail (s : State) : Res := core s fun d => if rdB d F.CLK_STATUS_XO_OK then d else wrB d F.CLK_STATUS_XO_FAIL 0 true
/-- R402. -/
def execApllLock (a : Fin 3) (s : State) : Res := core s (apllLock a)
/-- R403. -/
def execXoLoss (s : State) : Res := core s (xoLoss s.sn)
/-- R406. -/
def execCandidateWindow (slot : Fin 8) (ofs : BitVec 24) (s : State) : Res := core s (candWindow slot ofs s.sn)
/-- R406. -/
def execCandidateWtr (slot : Fin 8) (s : State) : Res := core s (candWtrEnd slot s.sn)
/-- R406. -/
def execNoActivity (slot : Fin 8) (edge : Bool) (s : State) : Res := core s (noActivity slot edge s.sn)
/-- R408. -/
def execReferenceSelection (s : State) : Res := core s (refSelect s.sn)
/-- R411. -/
def execDpllLock (s : State) : Res := core s (dpllLock s.sn)
/-- R413. -/
def execHoldoverHistoryValid (s : State) : Res := core s hoValid
/-- R414. -/
def execTimHoExpired (s : State) : Res := core s (hoExpired s.sn)
/-- R417. -/
def execTimPstepGo (s : State) : Res := core s (pstepGo s.sn)
/-- R416. -/
def execPhaseStep (s : State) : Res := core s (phaseStep s.sn)
/-- R419. -/
def execPpsIn (ns : Nat) (s : State) : Res := core s fun d =>
  raise (wr (wr d F.TIM_PPS_TS_SN 0 s.sn.toNat) F.TIM_PPS_TS_OFS 0 ns) { typ := 0x76, sn := s.sn, p0 := s.sn.toNat, p1 := ns }
/-- R419. -/
def execPpsOut (s : State) : Res := core s fun d =>
  if rdB d F.TIM_PPS_OUT_EN && !d.tim.stopped.getLsbD 5 then emit d .pps else d
/-- R421. -/
def execClockStop (m : Fin 8) (s : State) : Res := core s (clockStop m s.sn)
/-- R421. -/
def execOffFreq (m : Fin 8) (count : W32) (s : State) : Res := core s (offFreq m count s.sn)
/-- R423. -/
def execRescueRelease (sys per : Bool) (sysRun perRun : Bool) (s : State) : Res := core s (rescueRelease sys per sysRun perRun)
/-- R422. -/
def execClkSelWrite (sys per : Bool) (s : State) : Res := core s fun d => wrB (wrB d F.CLK_SEL_SYS 0 sys) F.CLK_SEL_PER 0 per
/-- R422. -/
def execMuxSwitchComplete (per : Bool) (s : State) : Res := core s (muxDone per)
/-- R424. -/
def execFrequencyCountStart (s : State) : Res := core s fcntStart
/-- R424. -/
def execFrequencyCountDone (count : W32) (tmo : Bool) (s : State) : Res := core s (fcntDone count tmo)

end Sys2Proof.Machine
end

