-- ==== Sys2Proof/Machine/Defects.lean ====
section
/-! DEFINITION. The defect engine (R117 to R136, R157) and what follows a change of a lane's or a copy's condition. -/

namespace Sys2Proof.Machine

def frmOf (d : Dev) (n : Nat) : Framer := tget {} d.frm n
def modFrm (d : Dev) (n : Nat) (f : Framer → Framer) : Dev := { d with frm := tmod {} d.frm n f }
def degOf (d : Dev) (n : Nat) : Degrade := tget {} d.deg n
def modDeg (d : Dev) (n : Nat) (f : Degrade → Degrade) : Dev := { d with deg := tmod {} d.deg n f }

/-- The receiver of lane `n` reports no lane defect (R120). -/
def laneSilent (d : Dev) (n : Nat) : Bool := !rdB d F.LNE_CTL_RX_EN n || persOf d n == 0

/-- dLOS and dLOL as declared (ranks 1 and 2 of Table 5-2). -/
def dLos (d : Dev) (n : Nat) : Bool := !laneSilent d n && rdB d F.LNE_STATUS_LOS n
def dLol (d : Dev) (n : Nat) : Bool := !laneSilent d n && !rdB d F.LNE_STATUS_LOS n && !rdB d F.LNE_STATUS_CDR_LOCK n

/-- The accepted PERS is that of another rate, or reserved (rank 6). -/
def plm (d : Dev) (n : Nat) : Bool :=
  let a := rd d F.FRM_RX_STATUS_ACC_PERS n
  decide (10 ≤ a) || (decide (1 ≤ a ∧ a ≤ 8) && (a - 1) % 4 + 1 != persOf d n)

/-- The lanes of the client or FlexE group that lane `n` belongs to (R138, R151). -/
def clientLanes (d : Dev) (n : Nat) : List Nat :=
  if rd d F.MAP_LANE_CFG_MODE n = 3 then
    (List.range 128).filter fun m => rd d F.MAP_LANE_CFG_MODE m == 3 && persOf d m == 5 && rd d F.MAP_LANE_FLX_GRP m == rd d F.MAP_LANE_FLX_GRP n
  else
    let w := 2 ^ rd d F.MAP_LANE_CFG_WIDTH n
    (List.range w).map (n / w * w + ·)

/-- The first of them names the client. -/
def clientKey (d : Dev) (n : Nat) : Nat := (clientLanes d n).headD n

/-- The declared client defects of lane `n`'s client, bit c − 0x21. -/
def cdefOf (d : Dev) (n : Nat) : BitVec 8 := tget 0 d.cli.cdef (clientKey d n)

/-- The declared, unsuppressed lane defects as Table 5-2 orders them, bit rank − 1; `want` holds what the detectors of
ranks 7 to 10 call for, in the same bits. On a client personality the client defects take rank 3 (R121, R157). -/
def laneDefs (d : Dev) (n want : Nat) : Nat :=
  if laneSilent d n then 0 else
  let r1 := dLos d n
  let r2 := dLol d n
  if !isGlf (persOf d n) then
    r1.toNat + 2 * r2.toNat + (if !(r1 || r2) && isClient (persOf d n) && cdefOf d n != 0 then 4 else 0)
  else
  let r3 := !(r1 || r2) && rd d F.FRM_RX_STATUS_FSTATE n != 2
  let u3 := r1 || r2 || r3
  let r4 := !u3 && !rdB d F.FRM_RX_STATUS_SN_LOCK n
  let u4 := u3 || r4
  let f := frmOf d n
  let r5 := !u4 && f.accepted && (rd d F.FRM_RX_STATUS_ACC_PERS n == 0 || f.accTest)
  let u5 := u4 || r5
  let r6 := !u5 && f.accepted && plm d n
  let u6 := u5 || r6
  let r7 := !u6 && want.testBit 6
  let r8 := !u6 && !(r7 && rdB d F.FRM_RX_CFG_TIM_ACT n) && want.testBit 7
  let r9 := !u6 && want.testBit 8
  let r10 := !u6 && !r9 && want.testBit 9
  [r1, r2, r3, r4, r5, r6, r7, r8, r9, r10].reverse.foldl (fun a b => 2 * a + b.toNat) 0

/-! ### Client defects -/

/-- Client defects that suppress defect `c` among themselves (Table 6-5), as bits. -/
def cSuppress : List Nat := [0, 1, 3, 3, 8, 8, 8, 7]

/-- The defects of a set that none in the set suppresses. -/
def cEffective (x : BitVec 8) : BitVec 8 :=
  (List.range 8).foldl (fun a c => if x.getLsbD c && x.toNat &&& cSuppress.getD c 0 == 0 then a ||| BitVec.ofNat 8 (2 ^ c) else a) 0

/-- A DEFECT event (R134, Table 13-13). -/
def defEvent (sn : SN) (code : Nat) (on : Bool) (flags p1 lsn : Nat) (d : Dev) : Dev :=
  raise d { typ := 0x10, sn := sn, p0 := code + 256 * on.toNat + flags, p1 := p1, p2 := lsn }

/-- The first lane of a client whose receiver reports defects (R120). -/
def cdefLane (d : Dev) (key : Nat) : Option Nat := (clientLanes d key).find? fun m => !laneSilent d m

/-- Sets the declared defects of a client, reporting each change on a lane whose receiver reports defects (R120). -/
def setCdef (sn : SN) (d : Dev) (key : Nat) (x : BitVec 8) : Dev :=
  let old := tget 0 d.cli.cdef key
  let at' := cdefLane d key
  let d : Dev := { d with cli := { d.cli with cdef := tput 0 d.cli.cdef key x } }
  match at' with
  | none => d
  | some n => (List.range 8).foldl (fun d c => if x.getLsbD c = old.getLsbD c then d
      else defEvent sn (0x21 + c) (x.getLsbD c) 0 n (rd d F.FRM_RX_SN_SN n) d) d

/-- The client of lane `n` has defect `c` in its mode (column Modes of Table 6-5). -/
def cdefMode (d : Dev) (n c : Nat) : Bool :=
  let m := rd d F.MAP_LANE_CFG_MODE n
  match c with
  | 0 => (m == 1 && (persOf d n == 5 || (persOf d n == 7 && rdB d F.MAP_LANE_CFG_RSFEC n))) || m == 2 || m == 3
  | 1 | 2 => decide (1 ≤ m ∧ m ≤ 4)
  | 7 => m == 1 || m == 2
  | _ => m == 3

/-- dLOS or dLOL holds on every lane of the client whose receiver reports defects (R120, R157). -/
def clientDown (d : Dev) (n : Nat) : Bool := (clientLanes d n).all fun m => laneSilent d m || dLos d m || dLol d m

/-! ### Lanes -/

/-- The lane condition that a set of defects gives (R120 to R122, R157). -/
def condFrom (d : Dev) (n defs : Nat) : Cond :=
  if laneSilent d n || defs &&& (if isGlf (persOf d n) then 0x3F else 3) != 0 || (defs.testBit 6 && rdB d F.FRM_RX_CFG_TIM_ACT n) then .sf
  else if isClient (persOf d n) && (cdefOf d n).toNat &&& 0x7F != 0 then .sf
  else if defs.testBit 7 then .sd else .none

/-- Filters held in reset while suppressed (R119), for the defects now declared. -/
def resetFilters (d : Dev) (n defs : Nat) : Dev :=
  let hard := laneSilent d n || defs &&& 0xF != 0
  let soft := laneSilent d n || defs &&& 0x3F != 0
  let d := if hard then modFrm d n fun f => { f with o2 := none, o2Run := 0, accepted := false, accTest := false } else d
  let d := if soft then modFrm d n fun f =>
      { f with trace := [], traceOk := false, traceLast := [], traceRun := 0, traceAcc := false, bdiRun := 0, rdiRun := 0 } else d
  let d := if !soft && defs.testBit 8 then modFrm d n fun f => { f with rdiRun := 0 } else d
  if soft || (defs.testBit 6 && rdB d F.FRM_RX_CFG_TIM_ACT n) then
    modDeg d n fun g => { g with started := false, sum := 0, bad := 0, good := 0 } else d

/-- Evaluates the defects and the condition of one lane; `want` as for `laneDefs`. -/
def laneStep (sn : SN) (d : Dev) (n want : Nat) : Dev :=
  let old := rd d F.FRM_RX_STATUS_DEF n
  let new := laneDefs d n want
  let d := if laneSilent d n then d else
    (List.range (if isGlf (persOf d n) then 10 else 2)).foldl (fun d r => if old.testBit r = new.testBit r then d
      else defEvent sn (r + 1) (new.testBit r) 0 n (rd d F.FRM_RX_SN_SN n) d) d
  let d := resetFilters (wr d F.FRM_RX_STATUS_DEF n new) n new
  let c := condFrom d n new
  let bits := (if c = .sf then 1 else 0) + (if c = .sd then 2 else 0) + (if new.testBit 8 then 4 else 0) + 256 * new
  seenOr (wr d F.FRM_RX_STATUS_COND n c.code) 1 n bits

/-! ### Tributary copies -/

/-- The receive lane that carries a member (R126): the port of a grain, or the lane that feeds the VL grain of a fine
slot. -/
def memberLane (d : Dev) (u : Nat) : Option Nat :=
  if isFine u then
    let v := vlOf (fineOf u)
    if egrEn (egrAt (active d) v) then
      let i := (cenAt (active d) (wCs (egrAt (active d) v)) (portOf v)).toNat
      if i < 128 then some i else none
    else none
  else if isGrain u ∧ portOf u < 128 then some (portOf u) else none

/-- Member unit codes of copy `k`: 0 working, 1 protect, and the consumer inputs, 2 that of the working copy's re-justifier
or of a demapper, 3 that of the protect copy's re-justifier. -/
def Trib.members (t : Trib) (k : Nat) : List Nat := if k % 2 = 1 then t.cfg.pl else t.cfg.wl

/-- Member lanes of copy `k`. A demapper's input has no receive lane of its own. -/
def copyLanes (d : Dev) (t : Trib) (k : Nat) : List Nat :=
  if t.cfg.role ≠ 0 then [] else ((t.members k).filterMap (memberLane d)).dedup

/-- The copy is re-justified: its lanes are plesiochronous (R161). -/
def copyPlesio (d : Dev) (t : Trib) (k : Nat) : Bool := (copyLanes d t k).any fun n => rdB d F.FRM_RX_CFG_PLESIO n

/-- The monitor of copy `k`. -/
def Trib.mon (t : Trib) (k : Nat) : Mon := if k = 0 then t.w else if k = 1 then t.p else if k = 2 then t.c else t.cp
def Trib.setMon (t : Trib) (k : Nat) (m : Mon) : Trib :=
  if k = 0 then { t with w := m } else if k = 1 then { t with p := m } else if k = 2 then { t with c := m } else { t with cp := m }

/-- Copy `k` has a monitor: received copies; the demapper, and the re-justifier of a plesiochronous copy (R126, R161). -/
def Trib.has (d : Dev) (t : Trib) (k : Nat) : Bool :=
  match t.cfg.role with
  | 0 => k == 0 || (k == 1 && !t.cfg.pl.isEmpty) || (decide (2 ≤ k) && copyPlesio d t k)
  | 2 => k == 2
  | _ => false

def tribOf (d : Dev) (tid : Nat) : Option Trib := tfind d.cli.tribs tid
def setTrib (d : Dev) (tid : Nat) (t : Trib) : Dev := { d with cli := { d.cli with tribs := tins d.cli.tribs tid t } }

/-- Flags of a tributary DEFECT event for copy `k`, and the OBJECT of Table 17-1. -/
def copyFlags (k : Nat) : Nat := 512 + 1024 * (k % 2) + 2048 * (k / 2)
def copyObj (tid k : Nat) : Nat := tid + 2 ^ 19 * (k % 2) + 2 ^ 20 * (k / 2)

/-- The lane SN that a copy's events carry: that of the lead member's lane. DESIGN CHOICE (log entry 136): a consumer input
that has no receive lane, a demapper's, gives the device SN. -/
def copySn (d : Dev) (t : Trib) (k : Nat) (sn : SN) : Nat :=
  match (if t.cfg.role = 0 then (t.members k).head?.bind (memberLane d) else none) with
  | some n => rd d F.FRM_RX_SN_SN n
  | none => sn.toNat

/-- Defects that suppress defect `i` of tSKW, tLOMF, tLOJ, tMI, tUNEQ, tPTM (Table 5-4), tSSF aside. -/
def tSuppress : List (List Nat) := [[], [], [1], [1, 2], [1, 2, 3], [1, 2, 3, 4]]

/-- The condition of a copy (R131): defects declared and suppressed give none. -/
def monCond (m : Mon) : Cond :=
  if m.ssf || (!m.ssfSeen && (List.range 6).any fun i =>
      m.decl.getD i false && !(tSuppress.getD i []).any fun j => m.decl.getD j false) then .sf
  else if m.ssd then .sd else .none

/-- tSSF and tSSD of a copy follow its member lanes (R127, R128). -/
def monFollow (sn : SN) (tid k : Nat) (d : Dev) : Dev :=
  match tribOf d tid with
  | none => d
  | some t =>
    if !t.has d k then d else
    let cs := (copyLanes d t k).map (effCond d)
    let m := t.mon k
    let ssf := cs.contains .sf
    let ssd := !ssf && cs.contains .sd
    let m1 := { m with ssf := ssf, ssd := ssd, ssfSeen := m.ssfSeen || ssf }
    let d := setTrib d tid (t.setMon k { m1 with cond := monCond m1 })
    let d := if ssf = m.ssf then d else defEvent sn 0x11 ssf (copyFlags k) tid (copySn d t k sn) d
    if ssd = m.ssd then d else defEvent sn 0x12 ssd (copyFlags k) tid (copySn d t k sn) d

/-- Every copy follows its lanes. -/
def tribsFollow (sn : SN) (d : Dev) : Dev :=
  (d.cli.tribs.map (·.1)).foldl (fun d tid => [0, 1, 2, 3].foldl (fun d k => monFollow sn tid k d) d) d

/-- What follows a change of the lane that stands in for another, or of the members that a page names (R128, R261). -/
def followAll (sn : SN) (ns : Nat) (d : Dev) : Dev := evalAll sn ns (candEval true sn (tribsFollow sn d))

/-- Lane `n` is written as maintenance content while the condition it uses is SF (Table 5-6, R261). -/
def sfSet (d : Dev) (n : Nat) : Dev :=
  let l := d.sw.sf.filter (· != n)
  let plain := !isClient (persOf d n) && !(isGlf (persOf d n) && rdB d F.FRM_RX_CFG_PLESIO n)
  { d with sw := { d.sw with sf := if effCond d n = .sf ∧ plain then l.filter (· < n) ++ n :: l.filter (n < ·) else l } }

/-- DECISION_APPLY (R249, R259 to R262): what is due for the group takes effect. Where the lane that stands in for a working
lane changes, the ingress sweep, the copies and the groups that are fed from it follow (R128, R261). -/
def decisionDue (pgid : Nat) (sn : SN) (d : Dev) : Dev :=
  let r (d : Dev) : Option Nat := (groupOf d pgid).map (·.r)
  let e := decisionApply pgid sn d
  match groupOf d pgid with
  | some g => if g.cfg.typ = 2 ∧ r e ≠ r d then followAll sn 100 ((g.cfg.lanes.drop 1).foldl sfSet e) else e
  | none => e

/-- FLIP (R18, R228): what a group or a copy takes from the page that is now active follows (R128, Table 10-3). -/
def flipFollow (sn : SN) (d : Dev) : Dev :=
  let e := flipNow sn d
  if e.sw.page = d.sw.page then e else followAll sn 0 e

/-- R259. -/
def execDecisionApply (pgid : BitVec 17) (s : State) : Res := core s (decisionDue pgid.toNat s.sn)
/-- R18. -/
def execFlip (s : State) : Res := core s (flipFollow s.sn)

/-- Evaluates lane `n` after a change of its status or detectors: its defects, those of its client, the conditions, the
copies on it, the reference candidates and the protection groups. -/
def laneEval (sn : SN) (ns : Nat) (n want : Nat) (d : Dev) : Dev :=
  let d := laneStep sn d n want
  let d := if isClient (persOf d n) then
      let d := if clientDown d n && cdefOf d n != 0 then setCdef sn d (clientKey d n) 0 else d
      (clientLanes d n).foldl (fun d m => laneStep sn d m 0) d
    else d
  followAll sn ns d

/-- The detectors' outputs as they stand. -/
def wantNow (d : Dev) (n : Nat) : Nat := rd d F.FRM_RX_STATUS_DEF n

/-- The framer is held in HUNT (first row of Table 5-1); tracking stops and the lane SN holds (R115). -/
def framerHold (d : Dev) (n : Nat) : Dev :=
  if !isGlf (persOf d n) then d
  else if rdB d F.LNE_CTL_RX_EN n && !rdB d F.LNE_STATUS_LOS n && rdB d F.LNE_STATUS_CDR_LOCK n then d
  else
    let d := if rd d F.FRM_RX_STATUS_FSTATE n = 2 then count d 1 n 12 else d
    let d := wr (wrB d F.FRM_RX_STATUS_SN_LOCK n false) F.FRM_RX_STATUS_FSTATE n 0
    modFrm d n fun f => { f with cands := [], align := none, faw := 0, snRun := 0, snPrev := none, bipPrev := none }

/-- The status of lane `n` has changed: the framer, then the defects. -/
def laneChanged (sn : SN) (ns n : Nat) (d : Dev) : Dev :=
  let d := framerHold d n
  laneEval sn ns n (wantNow d n) d

/-- CLIENT_DEFECT_CHANGE (R157). -/
def clientDefect (n c : Nat) (on : Bool) (ns : Nat) (sn : SN) (d : Dev) : Dev :=
  if !isClient (persOf d n) || !cdefMode d n c || (cdefLane d n).isNone then d else
  let key := clientKey d n
  let old := tget 0 d.cli.cdef key
  let bit := BitVec.ofNat 8 (2 ^ c)
  if on && (clientDown d n || old.toNat &&& cSuppress.getD c 0 != 0) then d
  else
    let d := setCdef sn d key (if on then cEffective (old ||| bit) else old &&& ~~~bit)
    followAll sn ns ((clientLanes d n).foldl (fun d m => laneStep sn d m 0) d)

/-- R157. -/
def execClientDefectChange (lane : Fin 128) (code : Fin 8) (on : Bool) (ns : Nat) (s : State) : Res :=
  core s (clientDefect lane code on ns s.sn)

end Sys2Proof.Machine
end

