-- ==== Sys2Proof/Machine/Glf.lean ====
section
/-! DEFINITION. The codes of a lane (chapter 3 and R91, R102, R103): RS(544,514) with its decoder, scrambling, word order, the
sweep as bits and back, PAM4 levels, precoding, test patterns and their checker, and the words of a twin-link record. -/

namespace Sys2Proof.Machine

/-! ### RS(544,514) -/

/-- A 10-bit symbol. -/
abbrev Sym := BitVec 10

/-- Multiplication by x in GF(2^10) with x^10 + x^3 + 1 (R55). -/
def gfX (a : Sym) : Sym := if a.msb then (a <<< 1) ^^^ 0x009#10 else a <<< 1

/-- The product of two symbols. -/
def gfMul (a b : Sym) : Sym := (List.range 10).foldl (fun p i => if b.getMsbD i then gfX p ^^^ a else gfX p) 0

/-- The `n`-th power of a symbol, by squaring (`n` below 1024). -/
def gfPow (a : Sym) (n : Nat) : Sym :=
  ((List.range 10).foldl (fun (x : Sym × Sym) i => (if n.testBit i then gfMul x.1 x.2 else x.1, gfMul x.2 x.2)) (1, a)).1

/-- The inverse of a symbol that is not zero. -/
def gfInv (a : Sym) : Sym := gfPow a 1022

/-- α^n, α the root x of the field's polynomial. -/
def gfExp (n : Nat) : Sym := gfPow 2 (n % 1023)

/-- The generator polynomial of IEEE 802.3 Clause 91, the product of (x − α^j) for j = 0 to 29: coefficients of
x^29 to x^0. -/
def rsGen : List Sym :=
  ((List.range 30).foldl (fun (g : List Sym × Sym) _ =>
    (List.zipWith (fun a b => a ^^^ b) (g.1 ++ [0]) (0 :: g.1.map (gfMul g.2)), gfX g.2)) ([1#10], 1#10)).1.drop 1

/-- The parity symbols of a message, first message symbol first (R55). -/
def rsParity (msg : List Sym) : List Sym :=
  msg.foldl (fun r m =>
    let f := m ^^^ r.headD 0
    List.zipWith (fun a g => a ^^^ gfMul f g) (r.drop 1 ++ [0]) rsGen) (List.replicate 30 0)

/-- The value of a polynomial, highest coefficient first. -/
def polyAt (p : List Sym) (x : Sym) : Sym := p.foldl (fun a c => gfMul a x ^^^ c) 0

/-- The 30 syndromes of a received codeword. -/
def syndromes (rx : List Sym) : List Sym := (List.range 30).map fun j => polyAt rx (gfExp j)

/-- Symbol-wise sum of two polynomials, lowest coefficient first. -/
def polyAdd : List Sym → List Sym → List Sym
  | [], q => q
  | p, [] => p
  | a :: p, b :: q => (a ^^^ b) :: polyAdd p q

/-- The error locator, lowest coefficient first, and its length, after Berlekamp and Massey. -/
def errLocator (s : List Sym) : List Sym × Nat :=
  let r := (List.range s.length).foldl (fun (x : (List Sym × List Sym) × Nat × Nat × Sym) n =>
    let (c, b) := x.1
    let (l, m, y) := x.2
    let dl := (List.range (l + 1)).foldl (fun a i => a ^^^ gfMul (c.getD i 0) (s.getD (n - i) 0)) 0
    if dl = 0 then ((c, b), l, m + 1, y) else
    let c' := polyAdd c (List.replicate m 0 ++ b.map (gfMul (gfMul dl (gfInv y))))
    if 2 * l ≤ n then ((c', c), n + 1 - l, 1, dl) else ((c', b), l, m + 1, y)) (([1], [1]), 0, 1, 1)
  (r.1.1, r.2.1)

/-- Decodes a received codeword (R55): the corrected symbols and how many were in error, none with more than 15. -/
def rsDecode (rx : List Sym) : Option (List Sym × Nat) :=
  let s := syndromes rx
  if s.all (· == 0) then some (rx, 0) else
  let e := errLocator s
  let om := ((List.range 30).map fun i => (List.range (i + 1)).foldl (fun a k => a ^^^ gfMul (e.1.getD k 0) (s.getD (i - k) 0)) 0)
  let dlam := ((e.1.zipIdx).filter fun c => c.2 % 2 = 1).flatMap fun c => [c.1, 0]
  let fix := rx.zipIdx.map fun x =>
    let p := 543 - x.2
    let xi := gfExp (1023 - p)
    if polyAt e.1.reverse xi = 0 then
      (x.1 ^^^ gfMul (gfExp p) (gfMul (polyAt om.reverse xi) (gfInv (polyAt dlam.reverse xi))), 1) else (x.1, 0)
  let n := fix.foldl (fun a x => a + x.2) 0
  let out := fix.map (·.1)
  if e.2 ≤ 15 ∧ n = e.2 ∧ (syndromes out).all (· == 0) then some (out, n) else none

/-! ### Scrambling and the sweep -/

/-- The two symbols of a word (R56). -/
def wordSyms (w : Word20) : List Sym := [w.extractLsb' 10 10, w.extractLsb' 0 10]

/-- The word at position `p` of codeword `k` (R56, R58): the overhead word, or the grain word of index 256 k + p − 1. -/
def wordAt (gs : Nat) (oh : List Word20) (grain : Nat → Grain) (k p : Nat) : Word20 :=
  if p = 0 then (oh[k]?).getD 0 else
  let s := 256 * k + p - 1
  gWord (grain (s % gs)) (s / gs)

/-- One step of the scrambler x^58 + x^39 + 1 (R59): its output bit and the next state. DESIGN CHOICE (log entry 133): the
output is the feedback sum, which the step shifts in. -/
def scrStep (s : BitVec 58) : Bool × BitVec 58 :=
  let b := s.getLsbD 57 != s.getLsbD 38
  (b, (s <<< 1) ||| (BitVec.ofBool b).setWidth 58)

/-- Scrambles message bits from a state; with `skip` the generator advances but is not applied. -/
def scrBits (skip : Bool) : BitVec 58 → List Bool → List Bool × BitVec 58
  | s, [] => ([], s)
  | s, b :: r =>
    let x := scrStep s
    let y := scrBits skip x.2 r
    ((if skip then b else b != x.1) :: y.1, y.2)

/-- A value from its bits, first bit most significant. -/
def bitsNat (bs : List Bool) : Nat := bs.foldl (fun a b => 2 * a + b.toNat) 0

/-- A symbol from its bits. -/
def symOf (bs : List Bool) : Sym := BitVec.ofNat 10 (bitsNat bs)

/-- Cuts a list into `n` pieces of length `k`. -/
def pieces {α : Type} (k : Nat) : Nat → List α → List (List α)
  | 0, _ => []
  | n + 1, l => l.take k :: pieces k n (l.drop k)

/-- Words from a bit string, bit 19 of the first word first (R57, R141). -/
def bitsWords (n : Nat) (bs : List Bool) : List Word20 := (pieces 20 n bs).map fun b => BitVec.ofNat 20 (bitsNat b)

/-- The message bits of codeword `k`, scrambled or descrambled: all but o0 and o1 (R59). -/
def scrMsg (k : Nat) (s : BitVec 58) (bits : List Bool) : List Bool × BitVec 58 :=
  let o := scrBits (decide (k < 2)) s (bits.take 20)
  let m := scrBits false o.2 (bits.drop 20)
  (o.1 ++ m.1, m.2)

/-- The bits of codeword `k`: message scrambled but for o0 and o1, then the parity over it (R55, R57, R59). -/
def codeword (words : List Word20) (k : Nat) (s : BitVec 58) : List Bool × BitVec 58 :=
  let m := scrMsg k s (words.flatMap msbBits)
  (m.1 ++ (rsParity ((pieces 10 514 m.1).map symOf)).flatMap msbBits, m.2)

/-- The bits of a lane's sweep of `n` codewords, first bit first (R54). -/
def sweepBits (n : Nat) (oh : List Word20) (grain : Nat → Grain) : List Bool :=
  ((List.range n).foldl (fun (a : List Bool × BitVec 58) k =>
    let c := codeword ((List.range 257).map (wordAt (32 * n) oh grain k)) k a.2
    (a.1 ++ c.1, c.2)) ([], BitVec.allOnes 58)).1

/-- One received codeword (R55, R80): its words, symbols corrected or none where it is uncorrectable, and the scrambler's
next state. The words of an uncorrectable codeword are passed on uncorrected. -/
def unCodeword (k : Nat) (s : BitVec 58) (bits : List Bool) : List Word20 × Option Nat × BitVec 58 :=
  let syms := (pieces 10 544 bits).map symOf
  let r := rsDecode syms
  let good := match r with | some x => x.1 | none => syms
  let m := scrMsg k s ((good.take 514).flatMap msbBits)
  (bitsWords 257 m.1, r.map (·.2), m.2)

/-- The sweep of `n` codewords that a receiver decodes from its bits (R54 to R59, R80). -/
def decodeSweep (n : Nat) (bits : List Bool) : RxSweep :=
  let cs := ((pieces 5440 n bits).zipIdx.foldl (fun (a : List (List Word20 × Option Nat) × BitVec 58) c =>
    let x := unCodeword c.2 a.2 c.1
    (a.1 ++ [(x.1, x.2.1)], x.2.2)) ([], BitVec.allOnes 58)).1
  let ws := (cs.flatMap fun c => c.1.drop 1).toArray
  { oh := cs.map fun c => (c.1.headD 0, c.2.isSome)
    grains := { ovr := (List.range (32 * n)).map fun g => (g, gMake ((List.range 8).map fun i => (ws[i * (32 * n) + g]?).getD 0)) }
    fecCorr := (cs.filter fun c => c.2.getD 0 != 0).length
    fecUnc := (cs.filter fun c => c.2.isNone).length
    fecSym := cs.foldl (fun a c => a + c.2.getD 0) 0 }

/-! ### Levels -/

/-- PAM4 levels of a bit string (R91): two bits a symbol, Gray coded. -/
def pam4 : List Bool → List (Fin 4)
  | a :: b :: r => (if a then (if b then 2 else 3) else (if b then 1 else 0)) :: pam4 r
  | _ => []

/-- The bits of PAM4 levels. -/
def unPam4 (l : List (Fin 4)) : List Bool := l.flatMap fun x => [decide (2 ≤ x.val), x.val == 1 || x.val == 2]

/-- The 1/(1+D) mod 4 precoder (R91), and its removal: the sum of a level and the one before it. -/
def precode : Fin 4 → List (Fin 4) → List (Fin 4)
  | _, [] => []
  | p, x :: r => (x - p) :: precode (x - p) r
def unPrecode : Fin 4 → List (Fin 4) → List (Fin 4)
  | _, [] => []
  | p, x :: r => (x + p) :: unPrecode x r

/-- Inverts the polarity of a direction (R91). -/
def flipPol (inv : Bool) (l : List (Fin 4)) : List (Fin 4) := if inv then l.map fun x => 3 - x else l

/-- The levels of a bit string: PAM4 with or without precoding, or NRZ with the outer levels. -/
def toLevels (pam pre : Bool) (bits : List Bool) : List (Fin 4) :=
  if pam then (if pre then precode 0 (pam4 bits) else pam4 bits) else bits.map fun b => if b then 3 else 0

/-- The bits of received levels, precoding removed; `p` is the level received before them. -/
def ofLevels (pam pre : Bool) (p : Fin 4) (l : List (Fin 4)) : List Bool :=
  if pam then unPam4 (if pre then unPrecode p l else l) else l.map fun x => decide (2 ≤ x.val)

/-! ### Test patterns -/

/-- Taps of a pattern's generator (Table 4-2), as exponents. -/
def prbsTaps (pat : Nat) : List Nat :=
  match pat with
  | 0 => [7, 6] | 1 => [9, 5] | 2 => [13, 12, 2, 1] | 3 => [15, 14] | 4 => [23, 18] | 5 => [31, 28]
  | 6 => [13, 12, 2, 1] | 7 => [31, 28] | _ => []

/-- The next bit of a pattern after the bits `h`, newest first: the sum of the bits that its taps name. -/
def prbsNext (pat : Nat) (inv : Bool) (h : List Bool) : Bool :=
  inv != (prbsTaps pat).foldl (fun b t => b != (inv != (h[t - 1]?).getD false)) false

/-- `n` bits of a pattern after the bits `h`, newest first, and the bits then last sent. -/
def prbsRun (pat : Nat) (inv : Bool) : Nat → List Bool → List Bool × List Bool
  | 0, h => ([], h)
  | n + 1, h =>
    let b := prbsNext pat inv h
    let r := prbsRun pat inv n ((b :: h).take 31)
    (b :: r.1, r.2)

/-- A pattern's generator starts after ones (zeros where the pattern is inverted). -/
def prbsSeed (inv : Bool) : List Bool := List.replicate 31 (!inv)

/-- The levels of symbols `from'` to `from' + n − 1` that the generator sends (Table 4-2): SSPRQ is IEEE 802.3's own. -/
def patLevels (pam pre : Bool) (pat : Nat) (inv : Bool) (from' n : Nat) : List (Fin 4) :=
  if pat = 8 then (List.range n).map fun i => if inv then 3 - Config.ssprq (from' + i) else Config.ssprq (from' + i)
  else if pat = 9 then (List.range n).map fun i => if (decide ((from' + i) / 8 % 2 = 0) != inv) then 3 else 0
  else
    let k := if pam then 2 else 1
    toLevels pam pre ((prbsRun pat inv (k * (from' + n)) (prbsSeed inv)).1.drop (k * from'))

/-- One bit reaches the checker (R103): the checker and whether the bit is counted as an error. Out of sync the reference
follows the received bits, and 256 error-free bits in a row give sync; in sync it runs on its own, and 64 errors within
1024 bits end sync, with a new seed from the bits. -/
def chkBit (pat : Nat) (inv : Bool) (c : Checker) (b : Bool) : Checker × Bool :=
  let p := prbsNext pat inv c.hist
  if !c.sync then
    let seeded := (prbsTaps pat).all fun t => decide (t ≤ c.hist.length)
    let run := if seeded && p == b then c.run + 1 else 0
    ({ c with hist := (b :: c.hist).take 31, run := if run = 256 then 0 else run, sync := decide (run = 256), pos := 0, errAt := [] }, false)
  else
    let bad := p != b
    let at' := if bad then c.pos :: c.errAt.filter fun q => decide (c.pos < q + 1024) else c.errAt
    let lost := decide (64 ≤ at'.length)
    ({ c with hist := if lost then [b] else (p :: c.hist).take 31, sync := !lost, run := 0, pos := c.pos + 1,
              errAt := if lost then [] else at', bits := c.bits + 1 }, bad)

/-- Bits reach the checker: the checker and the errors counted. -/
def chkBits (pat : Nat) (inv : Bool) (c : Checker) (bs : List Bool) : Checker × Nat :=
  bs.foldl (fun x b =>
    let y := chkBit pat inv x.1 b
    (y.1, x.2 + y.2.toNat)) (c, 0)

/-! ### The twin link's records -/

/-- The words of a twin-link record (R300): header, payload, CRC. -/
def recordWords (typ : BitVec 6) (payload : List Word20) : List Word20 :=
  let h : Word20 := typ ++ BitVec.ofNat 14 payload.length
  h :: payload ++ [crc16 ((h :: payload).flatMap msbBits) ++ (0#4)]

end Sys2Proof.Machine
end

