-- ==== Sys2Proof/Machine/Lanes.lean ====
section
/-! DEFINITION. The lane ports (chapter 4): enabling through the stagger queue, soft start and short protection, receive
status, test patterns and equalization. -/

namespace Sys2Proof.Machine

def laneOf (d : Dev) (n : Nat) : Lane := tget {} d.lanes n
def modLane (d : Dev) (n : Nat) (f : Lane → Lane) : Dev := { d with lanes := tmod {} d.lanes n f }

/-- TX_STATE and RX_STATE of LNE_STATUS. -/
def txSt (d : Dev) (n : Nat) : Nat := rd d F.LNE_STATUS_TX_STATE n
def rxSt (d : Dev) (n : Nat) : Nat := rd d F.LNE_STATUS_RX_STATE n
def txSet (d : Dev) (n st : Nat) : Dev := wr d F.LNE_STATUS_TX_STATE n st
def rxSet (d : Dev) (n st : Nat) : Dev := wr d F.LNE_STATUS_RX_STATE n st

/-- The personality cannot be enabled: 0x0, reserved, or outside the quad's group (R88). -/
def persBad (d : Dev) (n : Nat) : Bool := persGroup (persOf d n) != some (rd d F.LNE_QUAD_CFG_GROUP (quadOf n))

/-- Modes that Table 6-1 allows for a personality (R137). -/
def modeOk (pers mode : Nat) : Bool :=
  match mode with
  | 0 => true
  | 1 => pers == 5 || pers == 7 || pers == 8
  | 2 => pers == 6
  | 3 => pers == 5
  | 4 => pers == 9 || pers == 10 || pers == 11
  | _ => false

/-- The widths that Table 6-1 allows for a lane's mode (R138). -/
def widthMax (d : Dev) (n : Nat) : Nat :=
  match rd d F.MAP_LANE_CFG_MODE n with | 1 => if persOf d n = 5 then 8 else 1 | 2 => 4 | _ => 1

/-- Lanes `n` and `m` agree in PERS, MODE and WIDTH (R138). -/
def lanesAgree (d : Dev) (n m : Nat) : Bool :=
  persOf d m == persOf d n && rd d F.MAP_LANE_CFG_MODE m == rd d F.MAP_LANE_CFG_MODE n && rd d F.MAP_LANE_CFG_WIDTH m == rd d F.MAP_LANE_CFG_WIDTH n

/-- The lane carries a client of its own lanes: a mode of Table 6-1 other than NONE and FLEXE. -/
def ownLanes (d : Dev) (n : Nat) : Bool := let m := rd d F.MAP_LANE_CFG_MODE n; m == 1 || m == 2 || m == 4

/-- The lanes whose client's group holds lane `n`: `n` itself, and its neighbours of the same eight whose WIDTH reaches it. -/
def reaching (d : Dev) (n : Nat) : List Nat :=
  (List.range 8).map (n / 8 * 8 + ·) |>.filter fun m => m == n || (ownLanes d m && (clientLanes d m).contains n)

/-- Every client whose group holds the lane has a width of Table 6-1, and its lanes agree (R138). -/
def widthOk (d : Dev) (n : Nat) : Bool :=
  (reaching d n).all fun m => decide (2 ^ rd d F.MAP_LANE_CFG_WIDTH m ≤ widthMax d m) && (clientLanes d m).all (lanesAgree d m)

/-- The mode of a lane carries a client (R137, R138). -/
def modeGood (d : Dev) (n : Nat) : Bool :=
  modeOk (persOf d n) (rd d F.MAP_LANE_CFG_MODE n) && (!ownLanes d n || widthOk d n)

/-- CFG_ERR of the mapper where the mode is wrong (R137), on every lane of the group where the width is (R138). -/
def checkMode (d : Dev) (n : Nat) : Dev :=
  if !isClient (persOf d n) || modeGood d n then d
  else if !modeOk (persOf d n) (rd d F.MAP_LANE_CFG_MODE n) then wrB d F.MAP_LANE_STATUS_CFG_ERR n true
  else ((reaching d n).flatMap (clientLanes d)).foldl (fun d m => wrB d F.MAP_LANE_STATUS_CFG_ERR m true) d

/-- Posts the quad's power request if the quad is unpowered (R95). -/
def postQuad (d : Dev) (q : Nat) : Dev :=
  if rd d F.LNE_QUAD_STATUS_PWR q = 0 then
    let d := wr d F.LNE_QUAD_STATUS_PWR q 1
    { d with stagger := d.stagger ++ [q] }
  else d

/-- A quad whose eight directions are all disabled powers down; its queued request is removed (R96). -/
def dropQuad (d : Dev) (q : Nat) : Dev :=
  if !quadOff d q then d else
  let d := wrB (wr d F.LNE_QUAD_STATUS_PWR q 0) F.LNE_QUAD_STATUS_PLL_LOCK q false
  { d with stagger := d.stagger.filter (· != q) }

/-- The quad is up and its PLL locked. -/
def quadUp (d : Dev) (q : Nat) : Bool := rd d F.LNE_QUAD_STATUS_PWR q == 3 && rdB d F.LNE_QUAD_STATUS_PLL_LOCK q

/-- TX_EN (R95, R96, R88, R100, R107). DESIGN CHOICE (log entry 135): in a powered quad whose PLL has lost lock the lane
waits in WAIT_QUAD for the relock. -/
def txEn (n : Nat) (en : Bool) (d : Dev) : Dev :=
  let q := quadOf n
  if en then
    if rdB d F.LNE_CTL_TX_EN n then d else
    let d := checkMode (wr (wrB d F.LNE_CTL_TX_EN n true) F.LNE_STATUS_RETRY_CNT n 0) n
    if persBad d n then wrB d F.LNE_STATUS_CFG_ERR n true
    else txSet (postQuad d q) n (if quadUp d q then 2 else 1)
  else
    let d := modLane (txSet (wrB d F.LNE_CTL_TX_EN n false) n 0) n fun x => { x with retryDue := false, sq := 0 }
    dropQuad d q

/-- A receiver reports no signal: LOS as in every state but ADAPTED (R101). -/
def rxClear (d : Dev) (n : Nat) : Dev :=
  let d := wrB (wrB (wrB (wrB d F.LNE_STATUS_SIG_DET n false) F.LNE_STATUS_LOS n true) F.LNE_STATUS_CDR_LOCK n false) F.LNE_STATUS_PRBS_SYNC n false
  modLane (wr d F.LNE_STATUS_SNR n 0) n fun x => { x with slow := false, relock := false }

/-- RX_EN (R95, R96, R88, R107, R120). -/
def rxEn (n : Nat) (en : Bool) (ns : Nat) (sn : SN) (d : Dev) : Dev :=
  let q := quadOf n
  if en then
    if rdB d F.LNE_CTL_RX_EN n then d else
    let d := checkMode (rxClear (wrB d F.LNE_CTL_RX_EN n true) n) n
    let d := if persBad d n then wrB d F.LNE_STATUS_CFG_ERR n true
      else rxSet (postQuad d q) n (if quadUp d q then 2 else 1)
    laneChanged sn ns n d
  else laneChanged sn ns n (dropQuad (rxSet (rxClear (wrB d F.LNE_CTL_RX_EN n false) n) n 0) q)

/-- STAGGER_GRANT (R95, R490): `recent` grants were issued in the preceding 50 µs. -/
def staggerGrant (recent : Nat) (d : Dev) : Dev :=
  match d.stagger with
  | [] => d
  | q :: r => if recent < max 1 (min 8 (rd d F.PWR_STAGGER_K)) then
      let d : Dev := { d with stagger := r }
      if q < 32 then wr d F.LNE_QUAD_STATUS_PWR q 2 else { d with twin := { d.twin with on := true } }
    else d

/-- A retry ramp starts and is counted (R99). -/
def retryRamp (d : Dev) (n : Nat) : Dev :=
  modLane (wr (txSet d n 2) F.LNE_STATUS_RETRY_CNT n (rd d F.LNE_STATUS_RETRY_CNT n + 1)) n fun x => { x with retryDue := false }

/-- The four lanes of a quad. -/
def quadLanes (q : Nat) : List Nat := (List.range 4).map (4 * q + ·)

/-- The waiting directions of lane `n` start (R97). -/
def startLane (d : Dev) (n : Nat) : Dev :=
  let d := if txSt d n = 1 then txSet d n 2 else d
  if rxSt d n = 1 then modLane (rxSet d n 2) n fun x => { x with slow := false } else d

/-- QUAD_PLL_LOCK (R97). -/
def quadLock (q : Nat) (d : Dev) : Dev :=
  if 32 ≤ q ∨ rd d F.LNE_QUAD_STATUS_PWR q ≠ 2 then d else
  (quadLanes q).foldl startLane (wrB (wr d F.LNE_QUAD_STATUS_PWR q 3) F.LNE_QUAD_STATUS_PLL_LOCK q true)

/-- TX_SHORT (R99). -/
def txShort (n : Nat) (sn : SN) (d : Dev) : Dev :=
  if txSt d n ≠ 2 ∧ txSt d n ≠ 3 then d else
  let c := rd d F.LNE_STATUS_RETRY_CNT n
  let d := raise d { typ := 3, sn := sn, p0 := n, p1 := c + 1 }
  if c < 3 then txSet d n 4 else raise (txSet d n 5) { typ := 4, sn := sn, p0 := n }

/-- RETRY_WAIT_EXPIRY (R99, R98). -/
def retryExpiry (n : Nat) (d : Dev) : Dev :=
  if txSt d n ≠ 4 then d
  else if quadUp d (quadOf n) then retryRamp d n else modLane d n fun x => { x with retryDue := true }

/-- QUAD_PLL_UNLOCK (R98). -/
def quadUnlock (q ns : Nat) (sn : SN) (d : Dev) : Dev :=
  if !quadUp d q then d else
  let d := raise (sat (wrB d F.LNE_QUAD_STATUS_PLL_LOCK q false) F.LNE_QUAD_STATUS_UNLOCK_CNT q) { typ := 2, sn := sn, p0 := q }
  let d := (quadLanes q).foldl (fun d n =>
    let d := if txSt d n = 2 ∨ txSt d n = 3 then
        let st := txSt d n
        txSet (modLane d n fun x => { x with sq := st }) n 6 else d
    wrB d F.LNE_STATUS_CDR_LOCK n false) d
  (quadLanes q).foldl (fun d n => laneChanged sn ns n d) d

/-- QUAD_PLL_RELOCK (R98). -/
def quadRelock (q : Nat) (d : Dev) : Dev :=
  if rd d F.LNE_QUAD_STATUS_PWR q ≠ 3 ∨ rdB d F.LNE_QUAD_STATUS_PLL_LOCK q then d else
  (quadLanes q).foldl (fun d n =>
    let x := laneOf d n
    let d := if txSt d n = 6 then modLane (txSet d n x.sq) n fun x => { x with sq := 0 } else d
    let d := if txSt d n = 4 ∧ x.retryDue then retryRamp d n else d
    startLane d n) (wrB d F.LNE_QUAD_STATUS_PLL_LOCK q true)

/-- SIG_DET_FALL and SIG_DET_RISE (R101). -/
def sigDet (n : Nat) (up : Bool) (ns : Nat) (sn : SN) (d : Dev) : Dev :=
  if rxSt d n < 2 then d else
  let d := wrB d F.LNE_STATUS_SIG_DET n up
  let d := if rxSt d n = 3 then wrB d F.LNE_STATUS_LOS n (!up) else d
  let cdr := rdB d F.LNE_STATUS_CDR_LOCK n
  laneChanged sn ns n (modLane d n fun x => { x with relock := up && !cdr && rxSt d n == 3 })

/-- CDR_LOCK_LOSS and CDR_LOCK_GAIN (R101). -/
def cdrLock (n : Nat) (up : Bool) (ns : Nat) (sn : SN) (d : Dev) : Dev :=
  if rxSt d n < 2 then d else
  let d := wrB d F.LNE_STATUS_CDR_LOCK n up
  laneChanged sn ns n (if up then modLane d n fun x => { x with relock := false } else d)

/-- ADAPT_MODE 0b10: the equalizer holds written values (R94). -/
def eqHeld (d : Dev) (n : Nat) : Bool := rd d F.LNE_CFG_ADAPT_MODE n == 2

/-- Adaptation may complete (R94, R109): a valid signal is there; with ADAPT_MODE 0b10 the loop has locked on the written
values. -/
def adaptReady (d : Dev) (n : Nat) : Bool := if eqHeld d n then rdB d F.LNE_STATUS_CDR_LOCK n else rdB d F.LNE_STATUS_SIG_DET n

/-- ADAPTATION_COMPLETE (R94, R109). -/
def adaptDone (n : Nat) (snr : BitVec 12) (ctle : BitVec 5) (dfe : BitVec 8) (ffe : List (BitVec 8)) (ns : Nat) (sn : SN) (d : Dev) : Dev :=
  if rxSt d n ≠ 2 || !adaptReady d n then d else
  let d := if eqHeld d n then d else modLane d n fun x => { x with adapted := some (ctle, dfe, ffe.take 32) }
  let d := wr (rxSet d n 3) F.LNE_STATUS_SNR n snr.toNat
  laneChanged sn ns n (wrB d F.LNE_STATUS_LOS n (!rdB d F.LNE_STATUS_SIG_DET n))

/-- The receiver tracks (R94, R101): ADAPT_MODE 0b00, or the reserved 0b11, in ADAPTED with a signal. -/
def tracks (d : Dev) (n : Nat) : Bool :=
  let m := rd d F.LNE_CFG_ADAPT_MODE n
  (m == 0 || m == 3) && rxSt d n == 3 && rdB d F.LNE_STATUS_SIG_DET n

/-- What the receiver's loops show at a tick: the SNR estimate while ADAPTED, and the values in use while it tracks
(R94, R101, R109). -/
def trackLane (d : Dev) (t : TrackIn) : Dev :=
  let n := t.lane.val
  if rxSt d n ≠ 3 then d else
  let d := wr d F.LNE_STATUS_SNR n t.snr.toNat
  if tracks d n then modLane d n fun x => { x with adapted := some (t.ctle, t.dfe, t.ffe.take 32) } else d

/-- LANE_ADAPT_SLOW (R94, R109): once per acquisition. -/
def adaptSlow (n : Nat) (sn : SN) (d : Dev) : Dev :=
  if rxSt d n ≠ 2 || eqHeld d n || (laneOf d n).slow then d
  else raise (modLane d n fun x => { x with slow := true }) { typ := 1, sn := sn, p0 := n }

/-- RX_REACQUIRE (R101). -/
def reacquire (n ns : Nat) (sn : SN) (d : Dev) : Dev :=
  if rxSt d n ≠ 3 || eqHeld d n || !(laneOf d n).relock then d else
  let d := modLane (wr (rxSet d n 2) F.LNE_STATUS_SNR n 0) n fun x => { x with relock := false, slow := false }
  laneChanged sn ns n (wrB d F.LNE_STATUS_LOS n true)

/-- The pattern is usable by the generator, or by the checker, on lane `n` (R102, Table 4-2). -/
def prbsOk (d : Dev) (n : Nat) (chk : Bool) : Bool :=
  let p := rd d F.LNE_CTL_PRBS_PAT n
  decide (p < (if chk then 8 else 10)) && (decide (p < 6) || p == 9 || isPam4 (persOf d n))

/-- The checker runs. -/
def chkRuns (d : Dev) (n : Nat) : Bool := rdB d F.LNE_CTL_PRBS_CHK_EN n && prbsOk d n true && rdB d F.LNE_CTL_RX_EN n

/-- The clearing of LNE_PRBS_ERR: the compared bits are copied out and both counts are cleared (R103). -/
def prbsClear (n : Nat) (d : Dev) : Dev :=
  let b := (laneOf d n).chk.bits
  let d := wr (wr (wr d F.LNE_PRBS_ERR_ERR n 0) F.LNE_PRBS_BITS_LO n b) F.LNE_PRBS_BITS_HI n (b / 2 ^ 32)
  modLane d n fun x => { x with chk := { x.chk with bits := 0 } }

/-- LNE_PRBS_ERR_READ (R103, R11, R12): an inspection read changes nothing. -/
def prbsRead (n : Nat) (dbg : Bool) (d : Dev) : Dev :=
  let d := emit d (.readData [BitVec.ofNat 32 (rd d F.LNE_PRBS_ERR_ERR n)])
  if dbg then d else prbsClear n d

/-! ### The transmit multiplexer and the serial lane (R91, R104 to R106) -/

/-- The driver sends: RAMP or ON (R98, R99). In SQUELCH it is held at its common-mode level, in every other state off. -/
def driverOn (d : Dev) (n : Nat) : Bool := txSt d n == 2 || txSt d n == 3

/-- The generator runs (R102). -/
def genRuns (d : Dev) (n : Nat) : Bool := rdB d F.LNE_CTL_PRBS_GEN_EN n && prbsOk d n false

/-- What the serializer of a lane takes: nothing, the line loopback, the generator, or the egress framer or demapper. -/
inductive TxSrc where
  | off | loop | gen | data
deriving DecidableEq, Repr

/-- The transmit multiplexer (R105): the line loopback before the generator, the generator before egress data. -/
def txSrc (d : Dev) (n : Nat) : TxSrc :=
  if !driverOn d n then .off else if rd d F.LNE_CTL_LB_MODE n = 2 then .loop else if genRuns d n then .gen else .data

/-- The lane whose egress grains lane `n` sends (R261). -/
def bridged (d : Dev) (n : Nat) : Nat :=
  match d.prot.groups.find? fun g => g.2.cfg.typ == 2 && g.2.bridge != 0 && g.2.cfg.lanes.head? == some n with
  | some g => (g.2.cfg.lanes[g.2.bridge]?).getD n
  | none => n

/-- The lane rate of a personality in 10 kbit/s (Table 4-1). -/
def laneRate (p : Nat) : Nat :=
  match p with
  | 1 => 21250000 | 2 => 10625000 | 3 => 5312500 | 4 => 2656250 | 5 => 10625000 | 6 => 21250000 | 7 => 2578125 | 8 => 1031250
  | 9 => 2433024 | 10 => 1013760 | 11 => 811008 | _ => 0

/-- Whole symbols that a lane has sent in `k` sweeps (R89). -/
def symsIn (d : Dev) (n k : Nat) : Nat :=
  laneRate (persOf d n) * 16384 * k / (1000000 * if isPam4 (persOf d n) then 2 else 1)

/-- The levels that lane `n` puts on its TX balls for what it sends (R91, R83): a GLF sweep carries the grains delivered
last. The line coding of the client PHYs that use RS-FEC, and of FlexE, is IEEE 802.3's and the FlexE agreement's own. -/
def lineLevels (d : Dev) (n : Nat) (x : LineOut) : List (Fin 4) :=
  let pam := isPam4 (persOf d n)
  let pre := rdB d F.LNE_CFG_TX_PRECODE n
  flipPol (rdB d F.LNE_CFG_TX_POL n) (match x with
    | .glf oh => toLevels pam pre (sweepBits (codewords (persOf d n)) oh fun g => tget 0 d.sw.dlv (bridged d n * 2048 + g))
    | .pattern pat inv k => patLevels pam pre pat inv (symsIn d n k) (symsIn d n (k + 1) - symsIn d n k)
    | .bits b => toLevels pam pre b
    | _ => [])

/-- The near-end serial loopback stands (R105). -/
def nearEnd (d : Dev) (n : Nat) : Bool :=
  rd d F.LNE_CTL_LB_MODE n == 1 && rdB d F.LNE_CTL_TX_EN n && rdB d F.LNE_CTL_RX_EN n

/-- What the transmitter of lane `n` sent in the sweep whose grains were delivered last. -/
def lastSent (d : Dev) (n : Nat) : List (Fin 4) :=
  match txSrc d n with
  | .gen => lineLevels d n (.pattern (rd d F.LNE_CTL_PRBS_PAT n) (rdB d F.LNE_CTL_PRBS_INV n) ((laneOf d n).gen - 1))
  | .data => if isGlf (persOf d n) then lineLevels d n (.glf (laneOf d n).ohLast) else []
  | _ => []

/-- The bits that the receiver of lane `n` takes from its slicer, polarity, precoding and Gray coding removed (R91, R103):
those of its balls, or of its own transmitter under the near-end loopback (R105). -/
def rxBits (d : Dev) (n : Nat) (prev : Fin 4) (x : List (Fin 4)) : List Bool :=
  let pol := rdB d F.LNE_CFG_RX_POL n
  let y : Fin 4 × List (Fin 4) := if nearEnd d n then (if rdB d F.LNE_CFG_TX_POL n then 3 else 0, lastSent d n) else (prev, x)
  ofLevels (isPam4 (persOf d n)) (rdB d F.LNE_CFG_RX_PRECODE n) (if pol then 3 - y.1 else y.1) (flipPol pol y.2)

/-- Levels reach the PRBS checker of a lane (R103). -/
def chkFeed (n : Nat) (prev : Fin 4) (x : List (Fin 4)) (d : Dev) : Dev :=
  if !chkRuns d n then d else
  let y := chkBits (rd d F.LNE_CTL_PRBS_PAT n) (rdB d F.LNE_CTL_PRBS_INV n)
    { (laneOf d n).chk with sync := rdB d F.LNE_STATUS_PRBS_SYNC n } (rxBits d n prev x)
  let d := modLane d n fun z => { z with chk := y.1 }
  wrB (if y.2 = 0 then d else sat d F.LNE_PRBS_ERR_ERR n y.2) F.LNE_STATUS_PRBS_SYNC n y.1.sync

/-- Words of the elastic buffer that the line loopback keeps: half of its 128, in bits. -/
def ebMid : Nat := 64 * 20

/-- The received bits pass the line loopback (R105): the transmitter sends what leaves the elastic buffer. -/
def loopBits (n : Nat) (bits : List Bool) (d : Dev) : Dev :=
  if rd d F.LNE_CTL_LB_MODE n ≠ 2 then d else
  let all := (laneOf d n).eb ++ bits
  let k := all.length - ebMid
  let d := modLane d n fun x => { x with eb := all.drop k }
  if txSrc d n = .loop then emit d (.line n (.bits (all.take k))) else d

/-- LB_SLIP (R106): the elastic buffer drops or repeats 64 bits. -/
def lbSlip (n : Nat) (drop : Bool) (d : Dev) : Dev :=
  if rd d F.LNE_CTL_LB_MODE n ≠ 2 then d else
  wrB (modLane d n fun x => { x with eb := if drop then x.eb.drop 64 else x.eb.take 64 ++ x.eb }) F.LNE_STATUS_LB_SLIP n true

/-- What lane `n` sends in the sweep that opens, where its framer or demapper would send `x` (R104, R105); the line
loopback sends as bits arrive. -/
def sendLine (n : Nat) (x : LineOut) (d : Dev) : Dev :=
  match txSrc d n with
  | .data => emit d (.line n x)
  | _ => d

/-- The generator sends a sweep of its pattern, or stands at its start. -/
def genTick (d : Dev) (n : Nat) : Dev :=
  if txSrc d n = .gen then
    let k := (laneOf d n).gen
    emit (modLane d n fun x => { x with gen := k + 1 })
      (.line n (.pattern (rd d F.LNE_CTL_PRBS_PAT n) (rdB d F.LNE_CTL_PRBS_INV n) k))
  else if (laneOf d n).gen = 0 then d else modLane d n fun x => { x with gen := 0 }

/-- The magnitude of a 6-bit tap. -/
def tapMag (v lo : Nat) : Nat := (signed 6 ((v >>> lo) % 64)).natAbs

/-- The sum of R92. -/
def firSum (v : Nat) : Nat := tapMag v 0 + tapMag v 6 + tapMag v 12 + tapMag v 18 + (v >>> 24) % 128

/-- LNE_TX_FIR_WRITE (R92). -/
def firWrite (n : Nat) (val : W32) (d : Dev) : Dev :=
  if 64 < firSum val.toNat then wrB d F.LNE_STATUS_FIR_REJ n true
  else wrWord d (F.LNE_TX_FIR_PRE3.addr n) (val &&& 0x7FFFFFFF)

/-- What a read of equalizer register `reg` of lane `n` returns (R109): the values last written with ADAPT_MODE 0b10, else
the adapted values, or the reset values before the first adaptation. -/
def eqView (d : Dev) (n reg : Nat) : Nat :=
  let f : Fld := if reg = 0 then F.LNE_RX_CTLE_PEAK else if reg = 1 then F.LNE_RX_DFE_TAP1 else F.LNE_RX_FFE_TAP
  let i := if reg < 2 then n else 32 * n + (reg - 2)
  if eqHeld d n then rd d f i
  else match (laneOf d n).adapted with
    | none => f.rstAt i
    | some (c, t, l) => if reg = 0 then c.toNat else if reg = 1 then t.toNat else match l[reg - 2]? with
      | some v => v.toNat
      | none => f.rstAt i

/-- LNE_RX_EQ_WRITE (R109): register 0 CTLE, 1 DFE, 2 + t FFE tap t. -/
def eqWrite (n reg : Nat) (val : W32) (d : Dev) : Dev :=
  if !eqHeld d n then wrB d F.LNE_STATUS_CFG_ERR n true
  else if reg = 0 then wr d F.LNE_RX_CTLE_PEAK n val.toNat
  else if reg = 1 then wr d F.LNE_RX_DFE_TAP1 n val.toNat
  else wr d F.LNE_RX_FFE_TAP (32 * n + (reg - 2)) val.toNat

/-! ### The commands -/

/-- R95. -/
def execTxEn (lane : Fin 128) (en : Bool) (s : State) : Res := core s (txEn lane en)
/-- R95. -/
def execRxEn (lane : Fin 128) (en : Bool) (ns : Nat) (s : State) : Res := core s (rxEn lane en ns s.sn)
/-- R95. -/
def execStaggerGrant (recent : Nat) (s : State) : Res := core s (staggerGrant recent)
/-- R97. -/
def execQuadPllLock (q : Fin 33) (s : State) : Res := core s (quadLock q)
/-- R99. -/
def execRampComplete (lane : Fin 128) (s : State) : Res := core s fun d => if txSt d lane = 2 then txSet d lane 3 else d
/-- R99. -/
def execTxShort (lane : Fin 128) (s : State) : Res := core s (txShort lane s.sn)
/-- R99. -/
def execRetryWaitExpiry (lane : Fin 128) (s : State) : Res := core s (retryExpiry lane)
/-- R100. -/
def execRetryCntReset (lane : Fin 128) (s : State) : Res := core s fun d => if txSt d lane = 3 then wr d F.LNE_STATUS_RETRY_CNT lane 0 else d
/-- R98. -/
def execQuadPllUnlock (q : Fin 32) (ns : Nat) (s : State) : Res := core s (quadUnlock q ns s.sn)
/-- R98. -/
def execQuadPllRelock (q : Fin 32) (s : State) : Res := core s (quadRelock q)
/-- R101. -/
def execSigDetFall (lane : Fin 128) (ns : Nat) (s : State) : Res := core s (sigDet lane false ns s.sn)
/-- R101. -/
def execSigDetRise (lane : Fin 128) (ns : Nat) (s : State) : Res := core s (sigDet lane true ns s.sn)
/-- R101. -/
def execCdrLockLoss (lane : Fin 128) (ns : Nat) (s : State) : Res := core s (cdrLock lane false ns s.sn)
/-- R101. -/
def execCdrLockGain (lane : Fin 128) (ns : Nat) (s : State) : Res := core s (cdrLock lane true ns s.sn)
/-- R94. -/
def execAdaptationComplete (lane : Fin 128) (snr : BitVec 12) (ctle : BitVec 5) (dfe : BitVec 8) (ffe : List (BitVec 8)) (ns : Nat) (s : State) : Res :=
  core s (adaptDone lane snr ctle dfe ffe ns s.sn)
/-- R94. -/
def execLaneAdaptSlow (lane : Fin 128) (s : State) : Res := core s (adaptSlow lane s.sn)
/-- R101. -/
def execRxReacquire (lane : Fin 128) (ns : Nat) (s : State) : Res := core s (reacquire lane ns s.sn)
/-- R103: the levels up to the bit that completes 256 error-free ones. -/
def execPrbsSync (l : LineIn) (s : State) : Res := core s (chkFeed l.lane l.prev l.x)
/-- R103: the levels up to the bit that completes 64 errors within 1024. -/
def execPrbsSyncLoss (l : LineIn) (s : State) : Res := core s (chkFeed l.lane l.prev l.x)
/-- R103. -/
def execLnePrbsErrRead (lane : Fin 128) (dbg : Bool) (s : State) : Res := core s (prbsRead lane dbg)
/-- R106. -/
def execLbSlip (l : SlipIn) (s : State) : Res := core s (lbSlip l.lane l.drop)
/-- R92. -/
def execLneTxFirWrite (lane : Fin 128) (val : W32) (s : State) : Res := core s (firWrite lane val)
/-- R109. -/
def execLneRxEqWrite (lane : Fin 128) (reg : Fin 34) (val : W32) (s : State) : Res := core s (eqWrite lane reg val)

end Sys2Proof.Machine
end

