-- ==== Sys2Proof/Machine/Channels.lean ====
section
/-! DEFINITION. The management data channels (R440 to R444, R347): routes, received words, serial ports and the rings MCX
and MCT. Channel c is MDC-A of lane c / 2 when c is even, MDC-B when it is odd. -/

namespace Sys2Proof.Machine

def chanOf (d : Dev) (c : Nat) : Chan := tget {} d.chans c
def modChan (d : Dev) (c : Nat) (f : Chan → Chan) : Dev := { d with chans := tmod {} d.chans c f }

/-- MDC-A sub-rate k of a lane in use (R77). -/
def mdcaK (d : Dev) (n : Nat) : Nat := min 6 (tget 0 d.mdcaK n)

/-- Words of MDC-B per sweep on a lane (Table 3-1). -/
def mdcbWords (d : Dev) (n : Nat) : Nat := match persOf d n with | 1 => 4 | 2 => 4 | 3 => 3 | _ => 0

/-- The channel is present at its lane's rate (Table 3-1). -/
def chanHere (d : Dev) (c : Nat) : Bool := mdcbWords d (c / 2) != 0

/-- The channel fits a port's burst rate (Table 17-9). -/
def chanFits (d : Dev) (c port : Nat) : Bool :=
  match rd d F.PMN_MSP_CFG_DIV port with
  | 0 => true
  | 3 => c % 2 == 0 && decide (1 ≤ mdcaK d (c / 2))
  | _ => c % 2 == 0

/-- The routes of a channel once the next sweep has opened. -/
def rxSoon (x : Chan) : Nat := x.rxNext.getD x.rx
def txSoon (x : Chan) : Nat := x.txNext.getD x.tx

/-- Another channel than `c` is routed to the port in direction `tx`. -/
def portTaken (d : Dev) (c port : Nat) (tx : Bool) : Bool :=
  d.chans.any fun e => e.1 != c && (if tx then txSoon e.2 else rxSoon e.2) == port

/-- Serves MDC_ROUTE (R440). -/
def serveMdcRoute (r : Nat) (sn : SN) (d : Dev) : Dev :=
  match servedBy d r 0x50 with
  | none => d
  | some e =>
    let c := dF e.raw 16 0 8
    let tx := dB e.raw 16 8
    let dest := dF e.raw 20 0 5
    match firstProb (reservedProb e.raw ++ probIf (decide (16 < dest ∧ dest ≠ 31)) 20 1 ++
        (if dest = 31 then [] else probIf (!chanHere d c) 16 7) ++
        (if dest < 16 then probIf (portTaken d c dest tx) 20 4 ++ probIf (portTaken d c dest (!tx) || !chanFits d c dest) 20 7 else [])) with
    | some p => badDesc d r e.uid sn p
    | none =>
      let d := modChan d c fun x => if tx then { x with txNext := some dest } else { x with rxNext := some dest }
      finishM d r e.uid e.raw stOk 0 (sn + 1)

/-- New routes replace the old ones, whose port or ring stops (R440); PMN_MSP_STATUS follows. -/
def applyRoutes (d : Dev) : Dev :=
  if d.chans.all fun e => e.2.rxNext.isNone && e.2.txNext.isNone then d else
  let d := (d.chans.map (·.1)).foldl (fun d c => modChan d c fun x =>
    let x := match x.rxNext with | some t => { x with rx := t, rxNext := none, rxq := [], lossUp := false } | none => x
    match x.txNext with | some t => { x with tx := t, txNext := none, txq := [] } | none => x) d
  (List.range 16).foldl (fun d p =>
    let rx := d.chans.find? fun e => e.2.rx == p
    let tx := d.chans.find? fun e => e.2.tx == p
    let c := match rx with | some e => e.1 | none => (match tx with | some e => e.1 | none => 0)
    wrB (wrB (wr d F.PMN_MSP_STATUS_CHAN p c) F.PMN_MSP_STATUS_RX_ROUTED p rx.isSome) F.PMN_MSP_STATUS_TX_ROUTED p tx.isSome) d

/-- A received word of channel `c` (R441, R444): counted and delivered, with its error flag, to its route. A port's
receive queue holds 16 words; a record's words wait for MCX_RECORD_CLOSE. -/
def mdcRx (lsn : SN) (c : Nat) (d : Dev) (w : Word20 × Bool) : Dev :=
  let d := sat d F.PMN_CH_CNT_RX_WORDS c
  let d := if w.2 then sat d F.PMN_CH_CNT_RX_ERR c else d
  let x := chanOf d c
  if x.rx < 16 then
    if x.rxq.length < 16 then modChan d c fun x => { x with rxq := x.rxq ++ [(w.1, w.2, lsn)] }
    else modChan (sat d F.PMN_CH_CNT_LOST c) c fun x => { x with lossUp := true }
  else if x.rx = 16 then modChan d c fun x => { x with rxq := x.rxq ++ [(w.1, w.2, lsn)] }
  else d

/-- The word that a slot of channel `c` transmits (R441). -/
def mdcTx (d : Dev) (c : Nat) : Word20 × Dev :=
  let x := chanOf d c
  if 16 < x.tx then (0, d) else
  match x.txq with
  | w :: q => (w, modChan d c fun x => { x with txq := q })
  | [] => (0, sat d F.PMN_CH_CNT_TX_IDLE c)

/-- A word for transmission reaches channel `c`'s queue of 16 words, or is discarded (R442). -/
def mdcPush (d : Dev) (c : Nat) (w : Word20) : Dev :=
  if (chanOf d c).txq.length < 16 then modChan d c fun x => { x with txq := x.txq ++ [w] }
  else sat d F.PMN_CH_CNT_TX_DISC c

/-- MSP_BURST (R442, R443): a burst of a port takes the next received word out and one word in. -/
def mspBurst (port : Nat) (rxd : Word20) (sn : SN) (d : Dev) : Dev :=
  if d.prot.stopped then d else
  let c := rd d F.PMN_MSP_STATUS_CHAN port
  let rx := rdB d F.PMN_MSP_STATUS_RX_ROUTED port
  let tx := rdB d F.PMN_MSP_STATUS_TX_ROUTED port
  let ovf (d : Dev) (dir : Nat) : Dev := wrB (raise d { typ := 0xA3, sn := sn, p0 := port, p1 := dir }) F.PMN_MSP_STATUS_OVF port true
  let back (d : Dev) : Dev :=
    if !tx then d else
    let full := !decide ((chanOf d c).txq.length < 16)
    let d := mdcPush d c rxd
    if full then ovf d 1 else d
  if rx then
    match (chanOf d c).rxq with
    | [] => d
    | w :: q =>
      let up := (chanOf d c).lossUp
      let d := modChan d c fun x => { x with rxq := q, lossUp := false }
      back (emit (if up then ovf d 0 else d) (.msp port w.1))
  else if tx then back (emit d (.msp port 0)) else d

/-- The bits of an MCX record (Table 13-15). -/
def mcxBits (c loss : Nat) (ws : List (Word20 × Bool × SN)) : Nat :=
  let lsn := match ws with | w :: _ => w.2.2.toNat | [] => 0
  let body := (List.range 12).map fun i => match ws[i]? with | some w => w.1.toNat + 2 ^ 20 * w.2.1.toNat | none => 0
  packWords ([c + 256 * ws.length + 4096 * (if loss = 0 then 0 else 1), lsn] ++ body ++ [loss])

/-- The records that the port held while it was frozen leave (R374). -/
def mcxDrain : Nat → Dev → Dev
  | 0, d => d
  | n + 1, d => match d.pm.mcx with
    | [] => d
    | b :: r => if canWrite d 39 then mcxDrain n (writeRec { d with pm := { d.pm with mcx := r } } 39 b) else d

/-- MCX_RECORD_CLOSE (R347, R444): 12 words, or 10 µs after the first. A full or PAUSED ring loses the words, and so does a
frozen port that holds 16 records (R374). -/
def mcxClose (c : Nat) (timeUp : Bool) (d : Dev) : Dev :=
  let d := mcxDrain 16 d
  let x := chanOf d c
  if x.rx ≠ 16 ∨ x.rxq = [] ∨ (x.rxq.length < 12 ∧ !timeUp) then d else
  if rState d 39 = 1 ∧ rRoom d 39 ∧ !frozen d ∧ !dmaOk d (recAddr d 39 (rP d 39)) true then dmaMiss d (recAddr d 39 (rP d 39)) else
  let ws := x.rxq.take 12
  let d := modChan d c fun x => { x with rxq := x.rxq.drop 12 }
  if canWrite d 39 then modChan (writeRec d 39 (mcxBits c x.loss ws)) c fun x => { x with loss := 0 }
  else if frozen d ∧ rState d 39 = 1 ∧ d.pm.mcx.length < 16 then
    modChan { d with pm := { d.pm with mcx := d.pm.mcx ++ [mcxBits c x.loss ws] } } c fun x => { x with loss := 0 }
  else modChan (sat d F.PMN_CH_CNT_LOST c ws.length) c fun x => { x with loss := min (x.loss + ws.length) 0xFFFFFFFF }

/-- MCT_FETCH (R347, R444): the record at C of MCT, once its words fit in the channel's queue. -/
def mctFetch (raw : BitVec 512) (lock : Bool) (d : Dev) : Dev :=
  let c := dF raw 0 0 8
  let n := min 12 (dF raw 0 8 4)
  if !lock || rState d 38 != 1 || !bound d 38 || rHeld d 38 == 0 || frozen d then d
  else if !dmaOk d (recAddr d 38 (rC d 38)) false then dmaMiss d (recAddr d 38 (rC d 38))
  else if (chanOf d c).tx ≠ 16 then rAdv (sat d F.PMN_CH_CNT_TX_DISC c n) 38
  else if 16 < (chanOf d c).txq.length + n then d
  else rAdv ((List.range n).foldl (fun d i => mdcPush d c (BitVec.ofNat 20 (dF raw (8 + 4 * i) 0 20))) d) 38

/-! ### The commands -/

/-- R440. -/
def execMdcRoute (ring : Fin 16) (s : State) : Res := core s (serveMdcRoute ring s.sn)
/-- R442. -/
def execMspBurst (port : Fin 16) (rxd : Word20) (s : State) : Res := core s (mspBurst port rxd s.sn)
/-- R347. -/
def execMcxRecordClose (chan : BitVec 8) (timeUp : Bool) (s : State) : Res := core s (mcxClose chan.toNat timeUp)
/-- R444. -/
def execMctFetch (raw : BitVec 512) (s : State) : Res := core s (mctFetch raw s.lock)

end Sys2Proof.Machine
end

