-- ==== Sys2Proof/Machine/Framing.lean ====
section
/-! DEFINITION. Framing and the tributary monitors (chapter 5): the received sweep, finding it, following the SN, its overhead
words, the copies of tributaries and errorless pairs that it brings, degrade intervals and tributary periods. -/

namespace Sys2Proof.Machine

/-- The framer of lane `n` runs (R110). -/
def framerRuns (d : Dev) (n : Nat) : Bool :=
  isGlf (persOf d n) && rdB d F.LNE_CTL_RX_EN n && !rdB d F.LNE_STATUS_LOS n && rdB d F.LNE_STATUS_CDR_LOCK n

def fState (d : Dev) (n : Nat) : Nat := rd d F.FRM_RX_STATUS_FSTATE n

/-- The sweep that the receiver of lane `n` decodes (R54 to R59, R80, R91): under the near-end loopback its own
transmitter's (R105). -/
def rxSweep (d : Dev) (n : Nat) (x : RxIn) : RxSweep :=
  let k := codewords (persOf d n)
  if nearEnd d n then decodeSweep k (rxBits d n 0 []) else
  match x with
  | .words r => r
  | .line prev l => decodeSweep k (rxBits d n prev l)

/-- The bits of that sweep before decoding. -/
def rxRaw (d : Dev) (n : Nat) (x : RxIn) : List Bool :=
  match x with
  | .words r => sweepBits (codewords (persOf d n)) (r.oh.map (·.1)) (pageAt r.grains)
  | .line prev l => rxBits d n prev l

/-- Overhead word `k` with whether it is valid (R80). -/
def ohAt (r : RxSweep) (k : Nat) : Word20 × Bool := (r.oh[k]?).getD (0, false)

/-- The checked FAW is good (R110). -/
def fawGood (r : RxSweep) : Bool := ohAt r 0 == (0xF3A58, true) && ohAt r 1 == (0x0C5A7, true)

/-- The SN of a sweep, if its SN pair is valid (R110). -/
def snPair (r : RxSweep) : Option SN :=
  if (ohAt r 3).2 && (ohAt r 4).2 then some ((ohAt r 3).1 ++ (ohAt r 4).1.extractLsb' 8 12) else none

/-- The raw match of R110: both halves of the FAW, 5440 bits apart, in the bits before decoding. -/
def fawRaw (d : Dev) (n : Nat) (x : RxIn) : Bool :=
  match x with
  | .words r => (ohAt r 0).1 == 0xF3A58 && (ohAt r 1).1 == 0x0C5A7
  | .line prev l =>
    let b := rxBits d n prev l
    b.take 20 == msbBits (0xF3A58 : Word20) && (b.drop 5440).take 20 == msbBits (0x0C5A7 : Word20)

/-- RAW_MATCH (R111, R112): a candidate is opened if fewer than four are held and the SN pair is valid. -/
def rawMatch (n off : Nat) (x : RxIn) (d : Dev) : Dev :=
  let c := (frmOf d n).cands
  if !framerRuns d n ∨ fState d n = 2 ∨ 4 ≤ c.length ∨ c.any (·.1 == off) ∨ !fawRaw d n x then d else
  match snPair (rxSweep d n x) with
  | none => d
  | some s => wr (modFrm d n fun f => { f with cands := c ++ [(off, s)] }) F.FRM_RX_STATUS_FSTATE n 1

/-- CANDIDATE_CHECK (R112): the candidate at `off` is confirmed or rejected one sweep after its raw match. -/
def candCheck (n off : Nat) (x : RxIn) (ns : Nat) (sn : SN) (d : Dev) : Dev :=
  match (frmOf d n).cands.find? (·.1 == off) with
  | none => d
  | some c =>
    if !framerRuns d n ∨ fState d n = 2 then d else
    let r := rxSweep d n x
    if fawGood r && snPair r == some (c.2 + 1) then
      let d := wr (wrB (wr d F.FRM_RX_STATUS_FSTATE n 2) F.FRM_RX_STATUS_SN_LOCK n true) F.FRM_RX_SN_SN n (c.2 + 1).toNat
      let d := modFrm d n fun f => { f with cands := [], align := some off, faw := 0, snRun := 0, snPrev := none, bipPrev := none }
      laneEval sn ns n (wantNow d n) d
    else
      let rest := (frmOf d n).cands.filter (·.1 != off)
      wr (modFrm d n fun f => { f with cands := rest }) F.FRM_RX_STATUS_FSTATE n (if rest = [] then 0 else 1)

/-! ### The overhead of a received sweep -/

/-- SN tracking (R115), after the lane SN has advanced. -/
def snTrack (n : Nat) (r : RxSweep) (d : Dev) : Dev :=
  let f := frmOf d n
  match rdB d F.FRM_RX_STATUS_SN_LOCK n, snPair r with
  | true, none => d
  | true, some s =>
    if s.toNat = rd d F.FRM_RX_SN_SN n then modFrm d n fun f => { f with snRun := 0 } else
    let d := count d 1 n 13
    if f.snRun + 1 < 3 then modFrm d n fun f => { f with snRun := f.snRun + 1 }
    else modFrm (wrB d F.FRM_RX_STATUS_SN_LOCK n false) n fun f => { f with snRun := 0, snPrev := some s }
  | false, none => modFrm d n fun f => { f with snPrev := none }
  | false, some s =>
    if f.snPrev = some (s - 1) then
      modFrm (wr (wrB d F.FRM_RX_STATUS_SN_LOCK n true) F.FRM_RX_SN_SN n s.toNat) n fun f => { f with snPrev := none, snRun := 0 }
    else modFrm d n fun f => { f with snPrev := some s }

/-- The BIP-8 check of the preceding sweep (R67, R68), made while o3 and o4 are valid (Table 3-6); the result goes to every
transmitter that reports on this receiver (R70). -/
def bipCheck (n : Nat) (r : RxSweep) (d : Dev) : Dev :=
  let k := codewords (persOf d n)
  let own := bip8 (32 * k) r.grains (((List.range k).drop 2).map fun i => (ohAt r i).1)
  let prev := (frmOf d n).bipPrev
  let d := modFrm d n fun f => { f with bipPrev := some own }
  match prev with
  | none => d
  | some b =>
    if (snPair r).isNone then d else
    let e := ones (b ^^^ (ohAt r 4).1.extractLsb' 0 8)
    let d := perf (count d 1 n 0 e) 0x11 n e
    let d := if (degOf d n).started then modDeg d n fun g => { g with sum := g.sum + e } else d
    (List.range 128).foldl (fun d m => if rd d F.FRM_LANE_CFG_BWD_SRC m = n ∧ e ≠ 0 then modDeg d m fun g => { g with bei := g.bei + e } else d) d

/-- FEC counts of the decoder (R435). -/
def fecCount (n : Nat) (r : RxSweep) (d : Dev) : Dev :=
  perf (count (count (count d 1 n 8 r.fecCorr) 1 n 9 r.fecUnc) 1 n 10 r.fecSym) 0x10 n r.fecCorr

/-- Acceptance of PERS, TEST and LANE_ID (R118). Answers whether the sweep brought an acceptance. -/
def o2Accept (n : Nat) (w : Word20) (d : Dev) : Dev × Bool :=
  let v := w &&& 0xFFFF2
  let f := frmOf d n
  let run := if f.o2 = some v then f.o2Run + 1 else 1
  let d := modFrm d n fun f => { f with o2 := some v, o2Run := min 3 run }
  if run < 3 then (d, false) else
  let d := wr (wr d F.FRM_RX_STATUS_ACC_PERS n (v.extractLsb' 4 4).toNat) F.FRM_RX_STATUS_ACC_LANE_ID n (v.extractLsb' 8 12).toNat
  (modFrm d n fun f => { f with accepted := true, accTest := v.getLsbD 1 }, decide (run = 3))

/-- Acceptance of LT, as of PERS (R405). -/
def ltAccept (n : Nat) (w : Word20) (d : Dev) : Dev :=
  modFrm d n fun f =>
    let b := (w.getLsbD 2).toNat
    let run := if f.ltRun % 2 = b then f.ltRun / 2 + 1 else 1
    if run < 3 then { f with ltRun := 2 * run + b } else { f with ltRun := 6 + b, lt := some (b == 1) }

/-- Acceptance of QL (R405): 5 equal valid words. -/
def qlAccept (n : Nat) (w : Word20) (d : Dev) : Dev :=
  modFrm d n fun f =>
    let v := w.toNat % 16
    let run := if f.qlRun % 16 = v then f.qlRun / 16 + 1 else 1
    if run < 5 then { f with qlRun := 16 * run + v } else { f with qlRun := 80 + v, ql := BitVec.ofNat 4 v }

/-- Byte `b` of a trace that a register file holds, four bytes a word (Table 5-11). -/
def ttiByte (d : Dev) (f : Fld) (n b : Nat) : Nat := rd d f (16 * n + b / 4) / 256 ^ (b % 4) % 256

/-- Puts a trace into FRM_RX_TTI. -/
def putTrace (n : Nat) (t : List (BitVec 8)) (d : Dev) : Dev :=
  (pieces 4 16 t).zipIdx.foldl (fun d x => wr d F.FRM_RX_TTI (16 * n + x.2) (x.1.foldr (fun b a => b.toNat + 256 * a) 0)) d

/-- The dTIM comparisons of R125 differ. -/
def timDiffers (d : Dev) (n : Nat) : Bool :=
  let c := rd d F.FRM_RX_CFG_TIM_CMP n
  let f := frmOf d n
  let part (lo hi : Nat) : Bool := f.traceAcc && (List.range 64).any fun b =>
    decide (lo ≤ b ∧ b < hi) && ttiByte d F.FRM_RX_TTI n b != ttiByte d F.FRM_EXP_TTI n b
  (c.testBit 0 && part 0 16) || (c.testBit 1 && part 16 32) || (c.testBit 2 && part 32 64) ||
    (c.testBit 3 && f.accepted && rd d F.FRM_RX_STATUS_ACC_LANE_ID n != rd d F.FRM_RX_CFG_EXP_LANE_ID n)

/-- The trace byte of a sweep (R125). Answers whether a trace has been accepted. -/
def traceByte (n : Nat) (w : Word20 × Bool) (d : Dev) : Dev × Bool :=
  let b := rd d F.FRM_RX_SN_SN n % 64
  let v : BitVec 8 := w.1.extractLsb' 12 8
  let f := frmOf d n
  let ok := w.2 && (b == 0 || (f.traceOk && f.trace.length == b))
  let t := if b = 0 then [v] else f.trace ++ [v]
  if b ≠ 63 then (modFrm d n fun f => { f with trace := if ok then t else [], traceOk := ok }, false)
  else if !ok then (modFrm d n fun f => { f with trace := [], traceOk := false, traceRun := 0, traceLast := [] }, false)
  else
    let run := if t = f.traceLast then min 3 (f.traceRun + 1) else 1
    let d := modFrm d n fun f => { f with trace := [], traceOk := false, traceLast := t, traceRun := run }
    if run < 3 then (d, false) else (modFrm (putTrace n t d) n fun f => { f with traceAcc := true }, true)

/-- A declared far-end defect after one more valid o5, and its run (R117). -/
def runStep (decl raw : Bool) (run : Nat) : Bool × Nat :=
  if raw = decl then (decl, 0) else if run + 1 < 3 then (decl, run + 1) else (raw, 0)

/-- Sets bit `b` of `m` to `v`. -/
def setBit (m b : Nat) (v : Bool) : Nat := if m.testBit b = v then m else if v then m + 2 ^ b else m - 2 ^ b

/-- o5 (R71, R80, R117): received BEI is counted, BDI and RDI are taken, and unless suppressed their runs advance.
Answers the detectors' outputs. -/
def o5Word (n : Nat) (w : Word20 × Bool) (soft : Bool) (want : Nat) (d : Dev) : Dev × Nat :=
  if !w.2 then (d, want) else
  let bei := (w.1.extractLsb' 16 4).toNat
  let d := count d 1 n 4 (if bei ≤ 8 then bei else 0)
  let bdi := w.1.getLsbD 15
  let rdi := w.1.getLsbD 14
  let d := modFrm d n fun f => { f with bdi := bdi, rdi := rdi }
  if soft then (d, want) else
  let f := frmOf d n
  let x := runStep (want.testBit 8) bdi f.bdiRun
  let y := if x.1 then (want.testBit 9, 0) else runStep (want.testBit 9) (rdi && !bdi) f.rdiRun
  (modFrm d n fun f => { f with bdiRun := x.2, rdiRun := y.2 }, setBit (setBit want 8 x.1) 9 y.1)

/-- The management channel words of a sweep (R77, R78, R441). -/
def mdcWords (n : Nat) (r : RxSweep) (d : Dev) : Dev :=
  let lsn : SN := BitVec.ofNat 32 (rd d F.FRM_RX_SN_SN n)
  let word (k : Nat) : Word20 × Bool := ((ohAt r k).1, !(ohAt r k).2)
  let d := if chanHere d (2 * n) && lsn.toNat % 2 ^ mdcaK d n == 0 then mdcRx lsn (2 * n) d (word 12) else d
  (List.range (mdcbWords d n)).foldl (fun d i => mdcRx lsn (2 * n + 1) d (word (13 + i))) d

/-! ### The grains of a received sweep -/

/-- Writes position `g` of a page. -/
def pagePut (p : Page) (g : Nat) (v : Grain) : Page := { p with ovr := tput p.fill p.ovr g v }

/-- A page in canonical form with the `n` positions of a lane. -/
def pageNorm (n : Nat) (p : Page) : Page :=
  p.ovr.reverse.foldl (fun q e => if e.1 < n then pagePut q e.1 e.2 else q) { fill := p.fill }

/-- The page of a port in the ingress half that sweep `sn` writes. -/
def ingPage (d : Dev) (sn : SN) (port : Nat) : Page := tget {} (if sn.getLsbD 0 then d.sw.ing1 else d.sw.ing0) port
def setIng (d : Dev) (sn : SN) (port : Nat) (p : Page) : Dev :=
  { d with sw := if sn.getLsbD 0 then { d.sw with ing1 := tput {} d.sw.ing1 port p } else { d.sw with ing0 := tput {} d.sw.ing0 port p } }

/-- Writes one ingress grain by its unit code. -/
def putIng (sn : SN) (d : Dev) (u : Nat) (g : Grain) : Dev := setIng d sn (portOf u) (pagePut (ingPage d sn (portOf u)) (grainOf u) g)

/-- The copy passes through Loess: its member grains lie on two or more lanes (R170). -/
def copyMulti (d : Dev) (t : Trib) (k : Nat) : Bool := !t.cfg.fine && decide (2 ≤ (copyLanes d t k).length)

def Trib.al (t : Trib) (k : Nat) : Option Align := if k % 2 = 1 then t.alP else t.alW
def Trib.setAl (t : Trib) (k : Nat) (a : Option Align) : Trib := if k % 2 = 1 then { t with alP := a } else { t with alW := a }
def Trib.lo (t : Trib) (k : Nat) : List (SN × Nat × Grain) := if k = 1 then t.loP else t.loW
def Trib.setLo (t : Trib) (k : Nat) (l : List (SN × Nat × Grain)) : Trib := if k = 1 then { t with loP := l } else { t with loW := l }
/-- Loess reports the copy's member skew beyond tolerance (R171, R172). -/
def Trib.skew (t : Trib) (k : Nat) : Bool := (t.al k).isNone || (if k % 2 = 1 then t.skP else t.skW)
def Trib.setSkew (t : Trib) (k : Nat) (b : Bool) : Trib := if k = 1 then { t with skP := b } else { t with skW := b }
def Trib.rj (t : Trib) (k : Nat) : Rj := if k = 1 then t.rjP else t.rjW
def Trib.setRj (t : Trib) (k : Nat) (x : Rj) : Trib := if k = 1 then { t with rjP := x } else { t with rjW := x }

/-- Words of a grain tributary's sweep in the order of R40: word j is word `w(j div n)` of member `j mod n`. -/
def tribWords (gs : List Grain) : List Word20 :=
  (List.range 8).flatMap fun i => gs.map fun g => gWord g i

/-- The grains that carry such words. -/
def tribGrains (n : Nat) (ws : List Word20) : List Grain :=
  (List.range n).map fun m => gMake ((List.range 8).map fun i => (ws[i * n + m]?).getD 0)

/-- The largest FILL of a grain tributary of n members, and of a fine-slot one (R46, R48, R51). -/
def TribCfg.maxFill (c : TribCfg) : Nat := (if c.fine then 16 else 8) * c.wl.length - 1

/-- What a consumer takes from a period's JW (R48, R49): none for maintenance content, else FILL, MI and TYPE, and the
JW bits last accepted. -/
def takeJw (c : TribCfg) (tid : Nat) (last : Option (BitVec 12)) (jw : Word20) : Option (BitVec 12) × Option (BitVec 12) :=
  if jwMaint jw then (none, last)
  else if jwOk jw (BitVec.ofNat 19 tid) c.maxFill then (some (jw.extractLsb' 8 12), some (jw.extractLsb' 8 12))
  else (last, last)

/-- FILL of accepted JW bits; MI and TYPE of them. -/
def hiFill (h : BitVec 12) : Nat := (h.extractLsb' 4 8).toNat
def hiTag (h : BitVec 12) : BitVec 4 := h.extractLsb' 0 4

/-- An incoming sweep enters the re-justifier (R161). -/
def rjIn (c : TribCfg) (tid : Nat) (sf : Bool) (gs : List Grain) (x : Rj) : Rj :=
  let ws := tribWords gs
  let j := takeJw c tid x.last (ws.headD 0)
  match (if sf then none else j.1) with
  | none => { x with buf := x.buf ++ [none], last := j.2 }
  | some h => { x with
      buf := x.buf ++ ((ws.drop 1).take (8 * gs.length - 1 - hiFill h)).map fun w => some (hiTag h, w),
      last := j.2 }

/-- Grains into the ingress page at the positions of a copy. -/
def putAll (sn : SN) (us : List Nat) (gs : List Grain) (d : Dev) : Dev := (us.zip gs).foldl (fun d x => putIng sn d x.1 x.2) d

/-- The ingress grain that a connected egress grain's working or protect slot reads, in unit code. -/
def srcGrain (d : Dev) (u c : Nat) : Nat :=
  let i := (cenAt (active d) c (portOf u)).toNat
  i * 2048 + (ingAt (active d) i c).toNat % 2048

/-- The grains of the working (0) or protect (1) copy of an errorless group (R175). -/
def pairMembers (d : Dev) (g : Group) (k : Nat) : List Nat :=
  match g.cfg.tid with
  | some tid => (match tribOf d tid with | some t => t.members k | none => [])
  | none => g.cfg.unit.map fun u => srcGrain d u (if k = 1 then pCs (egrAt (active d) u) else wCs (egrAt (active d) u))

/-- The errorless pair, if any, that takes the copy of these members (R176). -/
def pairFor (d : Dev) (us : List Nat) : Option (Nat × Nat) :=
  d.prot.groups.findSome? fun e =>
    if e.2.pair == .off then none
    else if pairMembers d e.2 0 = us then some (e.1, 0)
    else if pairMembers d e.2 1 = us then some (e.1, 1) else none

/-- Whole sweeps that the earlier copy may be held (R177). -/
def pairDepth (g : Group) : Nat := cdiv g.pairDiff.natAbs 16384

/-- K of R176. -/
def pairK (g : Group) : Nat := cdiv g.cfg.d16 16

/-- The time from the arrival of `a` to that of `b`, in tenths of a ns. -/
def heldGap (a b : Held) : Int := 16384 * (b.n - a.n).toInt + 10 * ((b.ns : Int) - a.ns)

/-- A group's held sweeps of copy `k`, and of both. -/
def Group.held (g : Group) (k : Nat) : List Held := if k = 0 then g.heldW else g.heldP
def Group.setHeld (g : Group) (k : Nat) (mine other : List Held) : Group :=
  if k = 0 then { g with heldW := mine, heldP := other } else { g with heldP := mine, heldW := other }

/-- The sweep may be compared (R176): no maintenance content, and no MI in a tributary's JW. -/
def pairCmp (g : Group) (gs : List Grain) : Bool :=
  !gs.contains gMaint && !(g.cfg.tid.isSome && jwMi (gWord (gs.headD 0) 0))

/-- A sweep of one copy of a pair that is not ALIGNED is compared with the held sweeps of the other, offset by offset, and
held in its turn (R176). -/
def pairSearch (g : Group) (k : Nat) (h : Held) : Group :=
  let w := pairK g
  let run := (List.range (2 * w + 1)).map fun i =>
    let off : SN := BitVec.ofNat 32 i - BitVec.ofNat 32 w
    let r := g.pairRun.getD i 0
    match (g.held (1 - k)).find? fun o => o.s == (if k = 0 then h.s - off else h.s + off) with
    | some o => if !(h.cmp && o.cmp) then r else if h.gs = o.gs then min 4 (r + 1) else 0
    | none => r
  let q := g.held k ++ [h]
  { g.setHeld k (q.drop (q.length - (2 * w + 2))) (g.held (1 - k)) with pairRun := run }

/-- A sweep of one copy of an ALIGNED pair (R177): it leaves with the other copy's corresponding sweep, and the two are
compared. While the other copy is at SF, the later copy leaves at once and the earlier one keeps its depth. -/
def pairPass (sn : SN) (pgid k : Nat) (h : Held) (d : Dev) (g : Group) : Dev :=
  let us := pairMembers d g k
  let vs := pairMembers d g (1 - k)
  let off : SN := BitVec.ofInt 32 g.pairOff
  let want : SN := if k = 0 then h.s - off else h.s + off
  let mine := g.held k
  let other := g.held (1 - k)
  let cond (l : List Nat) (c : Cond) : Bool := l.any fun u => effCond d (portOf u) == c
  match other.find? (·.s == want) with
  | some o =>
    let sd := cond us .sd || cond vs .sd
    let diff := if k = 0 then heldGap h o else heldGap o h
    let bad := if !(h.cmp && o.cmp) then g.pairBad else if h.gs = o.gs || sd then 0 else g.pairBad + 1
    let g := { g.setHeld k (mine.filter fun e => snFuture e.s h.s) (other.filter fun e => snFuture e.s want) with pairDiff := diff, pairBad := bad }
    putAll sn vs o.gs (putAll sn us h.gs (setGroup d pgid g))
  | none =>
    let q := mine ++ [h]
    let later := decide (0 < g.pairDiff) != (k == 0)
    if !cond vs .sf then setGroup d pgid (g.setHeld k (q.drop (q.length - 6)) other)
    else if later then putAll sn us h.gs (setGroup d pgid (g.setHeld k mine other))
    else if q.length ≤ pairDepth g then setGroup d pgid (g.setHeld k q other)
    else match q with
      | x :: r => putAll sn us x.gs (setGroup d pgid (g.setHeld k r other))
      | [] => d

/-- A sweep of one copy of an errorless pair, as it leaves Loess or arrives: lane SN `lsn`, in device sweep `sn`, `ns` after
its tick. Until ALIGNED its grains go on as they come. -/
def pairIn (sn : SN) (ns pgid k : Nat) (lsn : SN) (gs : List Grain) (d : Dev) : Dev :=
  match groupOf d pgid with
  | none => d
  | some g =>
    let h : Held := { s := lsn, n := sn, ns := ns, gs := gs, cmp := pairCmp g gs }
    if g.pair == .aligned then pairPass sn pgid k h d g
    else putAll sn (pairMembers d g k) gs (setGroup d pgid (pairSearch g k h))

/-- A monitor sees the JW position of a sweep (R51, R126). -/
def Mon.see (m : Mon) (fine : Bool) (lsn : SN) (jw : Word20) : Mon :=
  { m with jw := jw, hist := if fine then ((lsn, jw) :: m.hist).take 48 else [] }

/-- The monitor of copy `k`, and that of the re-justifier behind it, see a JW position. -/
def monSee (tid k : Nat) (lsn : SN) (jw : Word20) (d : Dev) : Dev :=
  match tribOf d tid with
  | none => d
  | some t =>
    let f := t.cfg.fine
    let t := t.setMon k ((t.mon k).see f lsn jw)
    setTrib d tid (if copyPlesio d t k then t.setMon (k + 2) ((t.mon (k + 2)).see f lsn jw) else t)

/-- A whole sweep of a copy leaves Loess, or arrives on its one lane: into the re-justifier, into the pair that aligns
it, or into the ingress page, where `placed` says that it stands already. -/
def copyOut (sn : SN) (ns : Nat) (lsn : SN) (tid k : Nat) (placed : Bool) (gs : List Grain) (d : Dev) : Dev :=
  match tribOf d tid with
  | none => d
  | some t =>
    let d := monSee tid k lsn (gWord (gs.headD gMaint) 0) d
    if copyPlesio d t k then
      let sf := (copyLanes d t k).any fun n => effCond d n == .sf
      match tribOf d tid with
      | some t => setTrib d tid (t.setRj k (rjIn t.cfg tid sf gs (t.rj k)))
      | none => d
    else match pairFor d (t.members k) with
      | some p => pairIn sn ns p.1 p.2 lsn gs d
      | none => if placed then d else putAll sn (t.members k) gs d

/-- Word `j` of a multiframe of a fine-slot tributary of `m` members (R51): its sweep, and the place of its slot in the
member list. -/
def mfPlace (m j : Nat) : Nat × Nat := (j / m, j % m)

/-- The word that a fine-slot copy's lead slot, the place of word 0 of each multiframe, takes from a sweep of lane `n`. -/
def leadWord (d : Dev) (n : Nat) (us : List Nat) (at' : Nat → Grain) : Option Word20 :=
  us[(mfPlace us.length 0).2]?.bind fun u =>
    let v := vlOf (fineOf u)
    let g := srcGrain d v (wCs (egrAt (active d) v))
    if memberLane d u = some n then some (gWord (at' g) (fineOf u % 8)) else none

/-- A received sweep of lane `n` brings its members of one copy to Loess, which holds them for the release (R171 to
R173), or a whole sweep of a copy that lies on this lane. -/
def copyIn (sn : SN) (ns n : Nat) (lsn : SN) (p : Page) (tid k : Nat) (d : Dev) : Dev :=
  match tribOf d tid with
  | none => d
  | some t =>
    if t.cfg.role ≠ 0 ∨ !(copyLanes d t k).contains n then d else
    let ms := t.members k
    let at' (u : Nat) : Grain := if effCond d n == .sf then gMaint else pageAt p (grainOf u)
    if t.cfg.fine then (match leadWord d n ms at' with | some w => monSee tid k lsn w d | none => d)
    else if !copyMulti d t k then copyOut sn ns lsn tid k true (ms.map at') d
    else
      let mine := ms.zipIdx.filterMap fun x => if portOf x.1 = n then some (lsn, x.2, at' x.1) else none
      setTrib d tid (t.setLo k (((t.lo k).filter fun e =>
        !decide (8 ≤ snAge e.1 lsn ∧ snAge e.1 lsn < 2 ^ 31) && !(e.1 == lsn && mine.any (·.2.1 == e.2.1))) ++ mine))

/-- The copies with a member on port `n` that pass through Loess. -/
def loessCopies (d : Dev) (n : Nat) : List (Trib × Nat) :=
  d.cli.tribs.flatMap fun e => [0, 1].filterMap fun k =>
    if e.2.cfg.role = 0 ∧ copyMulti d e.2 k ∧ (copyLanes d e.2 k).contains n then some (e.2, k) else none

/-- The copies of errorless pairs whose members all lie on port `n`: the pair, the copy, its members, and whether the pair
protects a single grain. -/
def pairHeld (d : Dev) (n : Nat) : List (Nat × Nat × List Nat × Bool) :=
  d.prot.groups.flatMap fun e => [0, 1].filterMap fun k =>
    if e.2.pair == .off then none else
    let us := pairMembers d e.2 k
    if us.all fun u => portOf u = n then some (e.1, k, us, e.2.cfg.tid.isNone) else none

/-- The grains received for port `n` go into the ingress page, but for members held in Loess, and but for plesiochronous
lanes, of which only tributaries are taken (R82, R133). -/
def grainsIn (sn : SN) (ns : Nat) (lsn : SN) (p : Page) (d : Dev) (n : Nat) : Dev :=
  let d := if rdB d F.FRM_RX_CFG_PLESIO n then d else
    let old := ingPage d sn n
    let held := (loessCopies d n).flatMap fun x => ((x.1.members x.2).filter fun u => portOf u = n).map fun u => (grainOf u, (x.1.al x.2).isSome)
    let q := held.foldl (fun q h => pagePut q h.1 (if h.2 then pageAt old h.1 else gMaint)) p
    let pairs := pairHeld d n
    let q := (pairs.flatMap fun x => x.2.2.1.map grainOf).foldl (fun q g => pagePut q g (pageAt old g)) q
    pairs.foldl (fun d x => if x.2.2.2 then pairIn sn ns x.1 x.2.1 lsn (x.2.2.1.map fun u =>
      if effCond d n == .sf then gMaint else pageAt p (grainOf u)) d else d) (setIng d sn n q)
  (d.cli.tribs.map (·.1)).foldl (fun d tid => [0, 1].foldl (fun d k => copyIn sn ns n lsn p tid k d) d) d

/-- The framer loses the frame (last row of Table 5-1, R115). -/
def outOfFrame (n : Nat) (d : Dev) : Dev :=
  let d := wr (wrB (count d 1 n 12) F.FRM_RX_STATUS_SN_LOCK n false) F.FRM_RX_STATUS_FSTATE n 0
  modFrm d n fun f => { f with cands := [], align := none, faw := 0, snRun := 0, snPrev := none, bipPrev := none }

/-- The arrival of a lane sweep is measured (R171), and counted on a plesiochronous lane (R162). -/
def arrive (sn : SN) (ns n : Nat) (d : Dev) : Dev :=
  let lsn : SN := BitVec.ofNat 32 (rd d F.FRM_RX_SN_SN n)
  let plesio := rdB d F.FRM_RX_CFG_PLESIO n
  modFrm d n fun f => { f with
    arr := ((lsn, sn, ns) :: f.arr).take 12
    rjFrom := if plesio then some (f.rjFrom.getD sn) else none
    rjCnt := if plesio then f.rjCnt + 1 else 0 }

/-- The overhead words of a sweep whose SN has been followed (R117, R118, R125, R405, R441): the detectors' outputs. -/
def ohWords (n : Nat) (r : RxSweep) (d : Dev) : Dev × Nat :=
  let hard := !rdB d F.FRM_RX_STATUS_SN_LOCK n
  let id := if (ohAt r 2).2 && !hard then
      let x := o2Accept n (ohAt r 2).1 d
      (ltAccept n (ohAt r 2).1 x.1, x.2) else (d, false)
  let d := id.1
  let soft := hard || laneDefs d n (wantNow d n) &&& 0x3F != 0
  let x := o5Word n (ohAt r 5) soft (wantNow d n) d
  let y := if soft then (x.1, false) else traceByte n (ohAt r 6) x.1
  let want := if !soft && (y.2 || id.2) then setBit x.2 6 (timDiffers y.1 n) else x.2
  let d := if (ohAt r 7).2 then qlAccept n (ohAt r 7).1 y.1 else y.1
  (mdcWords n r d, want)

/-- RECEIVED_SWEEP (R112 to R118, R125, R405, R441): a sweep at the alignment of a lane in frame. Its bits pass the line
loopback first, in every state of the framer (R105). -/
def receivedSweep (n : Nat) (i : RxIn) (ns : Nat) (sn : SN) (d : Dev) : Dev :=
  let d := if rd d F.LNE_CTL_LB_MODE n = 2 then loopBits n (rxRaw d n i) d else d
  if !framerRuns d n ∨ fState d n ≠ 2 then d else
  let r := rxSweep d n i
  let d := fecCount n r d
  let faw := (frmOf d n).faw
  if !fawGood r && decide (3 ≤ faw) then
    let d := outOfFrame n d
    laneEval sn ns n (wantNow d n) d
  else
    let d := modFrm d n fun f => { f with faw := if fawGood r then 0 else faw + 1 }
    let d := wr d F.FRM_RX_SN_SN n (rd d F.FRM_RX_SN_SN n + 1)
    let x := ohWords n r (arrive sn ns n (bipCheck n r (snTrack n r d)))
    let d := laneEval sn ns n x.2 x.1
    let lsn : SN := BitVec.ofNat 32 (rd d F.FRM_RX_SN_SN n)
    let p := pageNorm (positions d n) r.grains
    ((List.range 128).filter fun m => subst d m == n).foldl (grainsIn sn ns lsn p) d

/-- The effective DEG_IVL and DEG_M of the register (Table 5-8). -/
def degIvl (d : Dev) (n : Nat) : Nat := max 8 (min 20 (rd d F.FRM_RX_DEG_DEG_IVL n))
def degM (d : Dev) (n : Nat) : Nat := max 1 (min 10 (rd d F.FRM_RX_DEG_DEG_M n))

/-- DEG_INTERVAL_END (R124, R136): the sweep with the lane SN that now stands was the last of an interval. -/
def degEnd (n ns : Nat) (sn : SN) (d : Dev) : Dev :=
  let g := degOf d n
  let next := rd d F.FRM_RX_SN_SN n + 1
  let old := decide (next % 2 ^ g.ivl = 0)
  let new := decide (next % 2 ^ degIvl d n = 0)
  let defs := rd d F.FRM_RX_STATUS_DEF n
  if !framerRuns d n || fState d n != 2 || !(old || new) || defs &&& 0x3F != 0 ||
      (defs.testBit 6 && rdB d F.FRM_RX_CFG_TIM_ACT n) then d
  else
    let bad := decide (g.thr < g.sum)
    let judge := old && g.started
    let b := if judge then (if bad then g.bad + 1 else 0) else g.bad
    let o := if judge then (if bad then 0 else g.good + 1) else g.good
    let want := wantNow d n
    let want := if judge && !want.testBit 7 && decide (g.m ≤ b) then setBit want 7 true
      else if judge && want.testBit 7 && decide (g.m ≤ o) then setBit want 7 false else want
    let chg := new && degIvl d n != g.ivl
    let ivl := degIvl d n
    let thr := rd d F.FRM_RX_DEG_DEG_THR n
    let m := degM d n
    let d := modDeg d n fun g => { g with
      started := true, sum := 0, bad := if chg then 0 else b, good := if chg then 0 else o,
      ivl := if new then ivl else g.ivl, thr := if new then thr else g.thr, m := if new then m else g.m }
    laneEval sn ns n want d

/-! ### Tributary periods -/

/-- SET and CLR of defect `i` of a profile (R129, R130). -/
def profOf (d : Dev) (p i : Nat) : Nat × Nat :=
  match tfind d.cli.profiles p with
  | some l => (max 1 ((l[i]?).getD 0 % 4096), max 1 ((l[i]?).getD 0 / 4096 % 4096))
  | none => (3, 10)

/-- The values of every defect of a profile. -/
def profAll (d : Dev) (p : Nat) : List (Nat × Nat) := (List.range 6).map (profOf d p)

/-- SET and CLR that the current period of a monitor uses: those at its start (R129 rule 4). -/
def limOf (d : Dev) (t : Trib) (m : Mon) (i : Nat) : Nat × Nat := (m.lim[i]?).getD (profOf d t.cfg.profile i)

/-- One defect's counters and state after a period that counts (R129 rules 1 and 2). -/
def integrate (set clr s c : Nat) (decl raw : Bool) : Nat × Nat × Bool :=
  if !decl then
    if !raw then (0, c, false) else if set ≤ s + 1 then (s + 1, 0, true) else (s + 1, c, false)
  else
    if raw then (s, 0, true) else if clr ≤ c + 1 then (0, c + 1, false) else (s, c + 1, true)

/-- The word at position `p` of the multiframe that ended `b` multiframes ago: `hist` names words by lane SN. -/
def mfWord (hist : List (SN × Word20)) (p b : Nat) : Option Word20 :=
  ((hist.filter fun x => x.1.toNat % 16 == p)[b]?).map (·.2)

/-- The word passes CHK (R45). -/
def chkPasses (w : Word20) (tid : BitVec 19) : Bool := w.extractLsb' 0 8 == jwChk (w.extractLsb' 8 12) tid

/-- The positions that qualify in the last two multiframes (R52): CHK passes, and TYPE is the one fixed. -/
def mfQualify (t : Trib) (tid : Nat) (m : Mon) : List Nat :=
  (List.range 16).filter fun p => [0, 1].all fun b => match mfWord m.hist p b with
    | some w => chkPasses w (BitVec.ofNat 19 tid) && jwType w == t.cfg.ptype && !jwMaint w
    | none => false

/-- The JW position of the period that has ended (R51, R52): maintenance content while a member lane is at SF. -/
def periodJw (t : Trib) (m : Mon) : Word20 :=
  if m.ssf then 0xFFFFF else if t.cfg.fine then (mfWord m.hist m.phase 0).getD 0xFFFFF else m.jw

/-- The raw conditions of Table 5-4 in the order tSKW, tLOMF, tLOJ, tMI, tUNEQ, tPTM. -/
def rawDefects (t : Trib) (tid : Nat) (m : Mon) (jw : Word20) (skew : Bool) : List Bool :=
  let maint := jwMaint jw
  let lomf := t.cfg.fine && !m.locked
  let ok := !lomf && jwOk jw (BitVec.ofNat 19 tid) t.cfg.maxFill
  let lastMi := match m.last with | some h => h.getLsbD 3 | none => true
  let ty := jwType jw
  [skew, lomf, !ok && !maint, maint || lomf || (if ok then jwMi jw else lastMi), ok && ty == 0 && !jwMi jw,
    ok && ty != 0 && ty != 7 && ty != t.cfg.ptype]

/-- TRIB_PERIOD_END (R126 to R131, R545) of copy `k`: 0 working, 1 protect, 2 and 3 consumer inputs. DESIGN CHOICE (log
entry 134): no JW error is counted in a period out of multiframe lock. -/
def tribPeriodEnd (tid k : Nat) (ns : Nat) (sn : SN) (d : Dev) : Dev :=
  match tribOf d tid with
  | none => d
  | some t =>
    if !t.has d k then d else
    let m := t.mon k
    let lomf := t.cfg.fine && !m.locked
    let jw := periodJw t m
    let raws := rawDefects t tid m jw (copyMulti d t k && t.skew k)
    let ok := !lomf && jwOk jw (BitVec.ofNat 19 tid) t.cfg.maxFill && !jwMaint jw
    let res : List (Nat × Nat × Bool) := (List.range 6).map fun i =>
      let s := m.set.getD i 0
      let c := m.clr.getD i 0
      let dc := m.decl.getD i false
      if m.ssf || m.ssfSeen || ((tSuppress.getD i []).any fun j => m.decl.getD j false) || (decide (4 ≤ i) && !ok) then (s, c, dc)
      else integrate (limOf d t m i).1 (limOf d t m i).2 s c dc (raws.getD i false)
    let sets := res.map fun x => x.1
    let clrs := res.map fun x => x.2.1
    let decls := res.map fun x => x.2.2
    let m1 : Mon := { m with
                       set := sets, clr := clrs, decl := decls, ssfSeen := m.ssf,
                       last := if ok then some (jw.extractLsb' 8 12) else m.last, lim := profAll d t.cfg.profile }
    let m2 := { m1 with cond := monCond m1 }
    let d := setTrib d tid (t.setMon k m2)
    let obj := copyObj tid k
    let d := if !ok && !jwMaint jw && !lomf then count d 2 obj 0 else d
    let d := if ok && jwType jw != t.cfg.ptype then count d 2 obj 1 else d
    let d := (List.range 6).foldl (fun d i => if m2.decl.getD i false = m.decl.getD i false then d
      else defEvent sn (0x13 + i) (m2.decl.getD i false) (copyFlags k) tid (copySn d t k sn) d) d
    let d := seenOr d 2 obj ((if m2.cond = .sf ∨ m.cond = .sf then 1 else 0) + (if m2.decl.getD 3 false then 8 else 0) +
      (if m.ssf || m.ssfSeen then 16 else 0) + (if m2.decl.getD 0 false then 32 else 0))
    if m2.cond = m.cond then d else evalAll sn ns d

/-- FINE_MF_LOCK (R52): the monitor locks when exactly one position has qualified in two consecutive multiframes. -/
def fineLock (tid k : Nat) (d : Dev) : Dev :=
  match tribOf d tid with
  | none => d
  | some t =>
    let m := t.mon k
    if !t.cfg.fine || !t.has d k || m.locked then d else
    match mfQualify t tid m with
    | [p] => setTrib d tid (t.setMon k { m with locked := true, phase := p })
    | _ => d

/-- FINE_MF_LOSS (R52): in 3 consecutive multiframes the word at the locked position has failed CHK. -/
def fineLoss (tid k : Nat) (d : Dev) : Dev :=
  match tribOf d tid with
  | none => d
  | some t =>
    let m := t.mon k
    let fails := [0, 1, 2].all fun b => match mfWord m.hist m.phase b with
      | some w => !chkPasses w (BitVec.ofNat 19 tid)
      | none => false
    if t.cfg.fine && m.locked && fails then setTrib d tid (t.setMon k { m with locked := false }) else d

/-! ### The commands -/

/-- R111. -/
def execRawMatch (lane : Fin 128) (off : Nat) (r : RxIn) (s : State) : Res := core s (rawMatch lane off r)
/-- R112. -/
def execCandidateCheck (lane : Fin 128) (off : Nat) (r : RxIn) (_sn : Seen) (ns : Nat) (s : State) : Res := core s (candCheck lane off r ns s.sn)
/-- R112. -/
def execReceivedSweep (lane : Fin 128) (r : RxIn) (ns : Nat) (s : State) : Res := core s (receivedSweep lane r ns s.sn)
/-- R124. -/
def execDegIntervalEnd (lane : Fin 128) (ns : Nat) (s : State) : Res := core s (degEnd lane ns s.sn)
/-- R126. -/
def execTribPeriodEnd (tid : BitVec 19) (copy : Fin 4) (_jw _skew : Seen) (ns : Nat) (s : State) : Res := core s (tribPeriodEnd tid.toNat copy ns s.sn)
/-- R52. -/
def execFineMfLock (tid : BitVec 19) (copy : Fin 4) (_pos : Seen) (s : State) : Res := core s (fineLock tid.toNat copy)
/-- R52. -/
def execFineMfLoss (tid : BitVec 19) (copy : Fin 4) (s : State) : Res := core s (fineLoss tid.toNat copy)

end Sys2Proof.Machine
end

