-- ==== Sys2Proof/Machine/Loess.lean ====
section
/-! DEFINITION. The Loess deskew pool (chapter 7): block accounting, member, client and pair alignment; and the creation and
deletion of protection groups (R246 to R249), which may take storage from it. -/

namespace Sys2Proof.Machine

/-- Blocks that lane `n` holds (R167). -/
def laneBlocks (l : List Alloc) (n : Nat) : Nat :=
  let six := (l.flatMap (·.six)).foldl (fun a x => if x.1 = n then a + x.2 else a) 0
  let blk := (l.flatMap (·.blk)).foldl (fun a x => if x.1 = n then a + x.2 else a) 0
  cdiv six 2048 + blk

/-- Blocks in use in quadrant `q` (R166). -/
def quadBlocks (l : List Alloc) (q : Nat) : Nat :=
  ((l.flatMap fun a => (a.six ++ a.blk).map (·.1)).dedup.filter fun n => n / 32 = q).foldl (fun a n => a + laneBlocks l n) 0

/-- The registers and LOESS_LOW follow the pool in quadrant `q` (R179, R180). -/
def quadStat (sn : SN) (d : Dev) (q : Nat) : Dev :=
  let free := 1228 - quadBlocks d.cli.loess q
  let d := wr d F.MAP_LOESS_QSTAT_FREE_BLK q free
  let d := if free < rd d F.MAP_LOESS_QSTAT_MIN_FREE q then wr d F.MAP_LOESS_QSTAT_MIN_FREE q free else d
  let th := rd d F.MAP_LOESS_QCFG_LOW_TH q
  let low := decide (free < th)
  let was := (d.cli.low[q]?).getD false
  let d : Dev := { d with cli := { d.cli with low := lset d.cli.low q low } }
  if low && !was then raise d { typ := 0x33, sn := sn, p0 := q, p1 := free } else d

/-- The quadrants that an allocation touches. -/
def Alloc.quads (a : Alloc) : List Nat := [0, 1, 2, 3].filter fun q => (a.six ++ a.blk).any fun x => x.1 / 32 == q

/-- The lowest-numbered quadrant that cannot supply an allocation (R167). -/
def allocShort (d : Dev) (a : Alloc) : Option Nat := a.quads.find? fun q => decide (1228 < quadBlocks (d.cli.loess ++ [a]) q)

/-- Grants an allocation. -/
def allocPut (sn : SN) (a : Alloc) (d : Dev) : Dev :=
  a.quads.foldl (quadStat sn) { d with cli := { d.cli with loess := d.cli.loess ++ [a] } }

/-- BLOCK_RETURN (R168): once no word of the ended allocation is held, its blocks return, and the descriptor that ended it
completes. -/
def blockReturn (owner : Nat) (sn : SN) (d : Dev) : Dev :=
  match d.cli.loess.find? fun a => a.owner == owner && a.ended with
  | none => d
  | some a =>
    if d.cli.drain.any fun x => x.2.1 == owner then d else
    let d := a.quads.foldl (quadStat sn) { d with cli := { d.cli with loess := d.cli.loess.erase a } }
    match a.by' with
    | some w =>
      if w.1 = mirrorRing then
        let d := modRing d mirrorRing fun x => { x with q := x.q.filter fun e => e.uid != w.2 }
        sendAck { d with twin := { d.twin with cfgWait := d.twin.cfgWait.filter fun x => x.2 != w.2 } }
      else finishM d w.1 w.2 (rawOf d w.1 w.2) stOk 0 sn
    | none => d

/-! ### Acquisition (R171, R174) -/

/-- The exponent j of a lane's word time of 8·2^j/85 ns: 20 bits at 212.5 Gbit/s / 2^j. -/
def wordExp (d : Dev) (n : Nat) : Nat := match persOf d n with | 2 => 1 | 3 => 2 | 4 => 3 | 5 => 1 | _ => 0

/-- Words of a hold on lane `n`, given in tenths of a ns, rounded up (R171). -/
def holdWords (d : Dev) (n h : Nat) : Nat := cdiv (h * 85) (80 * 2 ^ wordExp d n)

/-- A hold, in tenths of a ns, is no lateness and within the budget as Loess applies it (R171, R172). -/
def holdFits (d : Dev) (d16 n : Nat) (h : Int) : Bool :=
  decide (0 ≤ h ∧ holdWords d n h.toNat * 80 * 2 ^ wordExp d n ≤ d16 * 1024 * 85)

/-- The lanes' arrivals relative to the earliest differ by 8 word times or less between two measurements (R171 step 2). -/
def measureOk (d : Dev) (prev cur : List (Nat × Int)) : Bool :=
  let low (l : List (Nat × Int)) : Int := (l.map (·.2)).foldl min ((l.map (·.2)).headD 0)
  decide (prev.length = cur.length) && (prev.zip cur).all fun x =>
    decide (((x.2.2 - low cur) - (x.1.2 - low prev)).natAbs * 85 ≤ 640 * 2 ^ wordExp d x.2.1)

/-- Steps 3 and 4 of R171 from the arrivals of the lanes, in tenths of a ns: the hold H of the earliest in ns, and the
release point. DESIGN CHOICE (log entry 137): H is given in whole ns, rounded down. -/
def acquire (d : Dev) (arr : List (Nat × Int)) (d16 m : Nat) : Option (Nat × Int) :=
  match arr with
  | [] => none
  | x :: r =>
    let lo := r.foldl (fun a e => if e.2 < a.2 then e else a) x
    let hi := r.foldl (fun a e => max a e.2) x.2
    let rel := hi + 100 * m
    if rel - lo.2 ≤ 1024 * d16 ∧ arr.all fun e => holdFits d d16 e.1 (rel - e.2) then
      some (holdWords d lo.1 (rel - lo.2).toNat * (8 * 2 ^ wordExp d lo.1) / 85, rel)
    else none

/-- The arrival of lane `n`'s sweep `s`, in tenths of a ns from the tick of device sweep `sn`. -/
def arrivalOf (d : Dev) (sn : SN) (n : Nat) (s : SN) : Option Int :=
  ((frmOf d (subst d n)).arr.find? (·.1 == s)).map fun x => 16384 * (x.2.1 - sn).toInt + 10 * x.2.2

/-- The arrivals of the lanes' sweep `s`, where every lane has brought it. -/
def arrivals (d : Dev) (sn : SN) (lanes : List Nat) (s : SN) : Option (List (Nat × Int)) :=
  lanes.mapM fun n => (arrivalOf d sn n s).map fun a => (n, a)

/-- The owner code of a client's allocation. -/
def clientOwner (n : Nat) : Nat := 2 ^ 21 + n

/-- The alignment that the measured sweeps of a copy's member lanes give it (R171), if it acquires. -/
def acquireCopy (d : Dev) (sn : SN) (t : Trib) (k : Nat) : Option Align :=
  let lanes := copyLanes d t k
  let first := (frmOf d (subst d (lanes.headD 0))).arr
  first.findSome? fun x => match arrivals d sn lanes x.1, arrivals d sn lanes (x.1 - 1) with
    | some cur, some prev =>
      if !measureOk d prev cur then none else
      (acquire d cur t.cfg.d16 t.cfg.m).map fun y =>
        let lead := (((t.members k).head?.bind (memberLane d)).bind fun n => arrivalOf d sn n x.1).getD 0
        if copyPlesio d t k then { h := y.1, rel := y.2 - lead, s := x.1 + 1, n := sn } else { h := y.1, rel := y.2, s := x.1, n := sn }
    | _, _ => none

/-- LOESS_ALIGNED (R171, R174, R179): of a copy, from the arrivals that its member lanes' framers have measured; of a client,
from two measurements of the arrivals of its lanes' markers or overhead frames, in ns. -/
def loessAligned (tid k : Nat) (client : Bool) (prev arr : List Nat) (sn : SN) (d : Dev) : Dev :=
  if client then
    match d.cli.loess.find? fun a => a.owner == clientOwner tid && !a.ended with
    | none => d
    | some a =>
      let lanes := a.blk.map (·.1)
      let at' (l : List Nat) : List (Nat × Int) := (lanes.zip l).map fun x => (x.1, 10 * (x.2 : Int))
      if (tfind d.cli.lanesAl tid).isSome || lanes.any (fun n => dLos d n || dLol d n) || arr.length != lanes.length ||
          !measureOk d (at' prev) (at' arr) then d else
      match acquire d (at' arr) a.d16 a.m with
      | none => d
      | some y => raise { d with cli := { d.cli with lanesAl := tins d.cli.lanesAl tid { h := y.1, rel := y.2, s := 0, n := sn } } }
          { typ := 0x30, sn := sn, p0 := tid, p1 := 1, p2 := y.1 }
  else
    match tribOf d tid with
    | none => d
    | some t =>
      if t.cfg.role ≠ 0 ∨ !copyMulti d t k ∨ (t.al k).isSome then d
      else if (copyLanes d t k).any fun n => effCond d n == .sf || !rdB d F.FRM_RX_STATUS_SN_LOCK (subst d n) then d
      else match acquireCopy d sn t k with
        | none => d
        | some a => raise (setTrib d tid (t.setAl k (some a))) { typ := 0x30, sn := sn, p0 := tid, p1 := 2 * k, p2 := a.h }

/-- The holds that the release point leaves the lanes of an aligned client (R172, R174): skew beyond the window declares
cLOAM, and its end clears it. -/
def clientSkew (sn : SN) (d : Dev) (x : Fin 128 × List Int) : Dev :=
  let n := x.1.val
  match d.cli.loess.find? fun a => a.owner == clientOwner n && !a.ended with
  | none => d
  | some a =>
    if (tfind d.cli.lanesAl n).isNone then d else
    let bad := ((a.blk.map (·.1)).zip x.2).any fun y => !holdFits d a.d16 y.1 (10 * y.2)
    let was := d.cli.lanesSk.contains n
    if bad = was then d else
    clientDefect n 0 bad 0 sn { d with cli := { d.cli with lanesSk := if bad then n :: d.cli.lanesSk else d.cli.lanesSk.erase n } }

/-! ### The release of aligned members (R171 to R173) -/

/-- The content and the tSKW verdict of member `i` of lane sweep `s`, released `r` tenths of a ns after the tick of `sn`: a
lane at SF gives maintenance content. -/
def memberAt (d : Dev) (sn : SN) (t : Trib) (k : Nat) (s : SN) (r : Int) (u i : Nat) : Grain × Bool :=
  if effCond d (portOf u) == .sf then (gMaint, false) else
  match (t.lo k).find? (fun e => e.1 == s && e.2.1 == i), arrivalOf d sn (portOf u) s with
  | some e, some a => (e.2.2, !holdFits d t.cfg.d16 (portOf u) (r - a))
  | _, _ => (gMaint, true)

/-- Lane sweep `s` of a copy is released: as maintenance content where a member is late, or held beyond the budget. -/
def releaseOne (sn : SN) (tid k : Nat) (s : SN) (r : Int) (d : Dev) : Dev :=
  match tribOf d tid with
  | none => d
  | some t =>
    let got := (t.members k).zipIdx.map fun x => memberAt d sn t k s r x.1 x.2
    let bad := got.any (·.2)
    let t := (t.setSkew k bad).setLo k ((t.lo k).filter fun e => snFuture e.1 s)
    copyOut sn (r.toNat / 10) s tid k false (got.map fun x => if bad then gMaint else x.1) (setTrib d tid t)

/-- The lane sweeps of an aligned copy that are released in device sweep `sn`, each with its time in tenths of a ns: one
on a synchronous group; those due after the lead member's arrivals on a plesiochronous one. -/
def dueSweeps (sn : SN) (d : Dev) (t : Trib) (k : Nat) (a : Align) : List (SN × Int) :=
  if !copyPlesio d t k then
    [(a.s + (sn - a.n) - BitVec.ofInt 32 (a.rel / 16384), a.rel % 16384)]
  else match (t.members k).head?.bind (memberLane d) with
    | none => []
    | some n => ((frmOf d (subst d n)).arr.reverse.filterMap fun x =>
        let r := 16384 * (x.2.1 - sn).toInt + 10 * (x.2.2 : Int) + a.rel
        if (x.1 == a.s || snFuture x.1 a.s) && decide (r < 16384) then some (x.1, r) else none)

/-- What Loess releases of one copy in device sweep `sn`: maintenance content until acquisition. -/
def releaseCopy (sn : SN) (d : Dev) (tid k : Nat) : Dev :=
  match tribOf d tid with
  | none => d
  | some t =>
    if t.cfg.role ≠ 0 ∨ !copyMulti d t k then d else
    match t.al k with
    | none => monSee tid k sn 0xFFFFF d
    | some a =>
      let due := dueSweeps sn d t k a
      let d := due.foldl (fun d x => releaseOne sn tid k x.1 x.2 d) d
      match due.getLast?, copyPlesio d t k, tribOf d tid with
      | some x, true, some t => setTrib d tid (t.setAl k (some { a with s := x.1 + 1 }))
      | _, _, _ => d

/-- The words that a released tributary left in Loess leave in their sweeps (R168). -/
def drainOne (sn : SN) (d : Dev) (t : Trib) (k : Nat) : Dev :=
  match t.al k with
  | none => d
  | some a =>
    let s := a.s + (sn - a.n) - BitVec.ofInt 32 (a.rel / 16384)
    (t.members k).zipIdx.foldl (fun d x => match (t.lo k).find? (fun e => e.1 == s && e.2.1 == x.2) with
      | some e => putIng sn d x.1 e.2.2
      | none => d) d

/-- The blocks of allocations that ended D16/16 sweeps ago return at the latest now (R168). -/
def returnAll (sn : SN) (d : Dev) : Dev :=
  (d.cli.loess.filter fun a => a.ended && decide (cdiv a.d16 16 ≤ snAge a.since sn)).foldl (fun d a => blockReturn a.owner sn d) d

/-- Everything that leaves Loess in device sweep `sn`. -/
def releaseAll (sn : SN) (d : Dev) : Dev :=
  let d := (d.cli.tribs.map (·.1)).foldl (fun d tid => releaseCopy sn (releaseCopy sn d tid 0) tid 1) d
  let d := d.cli.drain.foldl (fun d x => drainOne sn (drainOne sn d x.2.2 0) x.2.2 1) d
  returnAll sn { d with cli := { d.cli with drain := d.cli.drain.filter fun x => decide (snAge x.1 sn < cdiv x.2.2.cfg.d16 16) } }

/-! ### Errorless pairs (R176, R177) -/

/-- The differential delay at offset `off`, from the newest corresponding sweeps held, with those sweeps' lane SNs. -/
def pairGap (g : Group) (off : Int) : Option (Int × SN × SN) :=
  g.heldW.reverse.findSome? fun w => (g.heldP.find? fun p => p.s == w.s - BitVec.ofInt 32 off).map fun p => (heldGap w p, w.s, p.s)

/-- LOESS_PAIR_ALIGNED (R176, R177): exactly one offset has qualified, and its differential delay is within the budget; with
more than one the pair is AMBIGUOUS. -/
def pairAligned (pgid : Nat) (sn : SN) (d : Dev) : Dev :=
  match groupOf d pgid with
  | none => d
  | some g =>
    if g.pair = .off ∨ g.pair = .aligned then d else
    match g.pairRun.zipIdx.filter fun x => decide (4 ≤ x.1) with
    | [] => d
    | [x] =>
      let off : Int := (x.2 : Int) - pairK g
      (match pairGap g off with
      | none => d
      | some y =>
        if g.cfg.d16 * 1024 < y.1.natAbs then d else
        raise (setGroup d pgid { g with
            pair := .aligned, pairDiff := y.1, pairOff := off, pairRun := [], pairBad := 0
            heldW := g.heldW.filter fun e => snFuture e.s y.2.1
            heldP := g.heldP.filter fun e => snFuture e.s y.2.2 })
          { typ := 0x31, sn := sn, p0 := pgid, p1 := y.1.natAbs / 10, p2 := if 0 < y.1 then 0 else 1 })
    | _ => setGroup d pgid { g with pair := .ambiguous }

/-- LOESS_PAIR_LOST (R177): the differential delay exceeds the budget, or 16 compared sweeps in a row have differed. -/
def pairLost (pgid : Nat) (sn : SN) (d : Dev) : Dev :=
  match groupOf d pgid with
  | none => d
  | some g =>
    let content := decide (16 ≤ g.pairBad)
    if g.pair = .aligned ∧ (content ∨ g.cfg.d16 * 1024 < g.pairDiff.natAbs) then
      raise (setGroup d pgid { g with pair := .search, heldW := [], heldP := [], pairRun := [], pairBad := 0 })
        { typ := 0x32, sn := sn, p0 := pgid, p1 := content.toNat }
    else d

/-! ### Protection groups -/

/-- An ingress or egress entry is enabled on port `n`, in either page. -/
def portUsed (d : Dev) (n : Nat) : Bool :=
  let used (p : CmPage) := p.ing.any (fun e => e.1 / 4096 == n && e.2.getLsbD 11) || p.egr.any (fun e => e.1 / 2048 == n && egrEn e.2)
  used (active d) || used (shadow d)

/-- A lane that can carry PSC (R247, R248). -/
def pscLane (d : Dev) (n : Nat) : Bool := decide (1 ≤ persOf d n ∧ persOf d n ≤ 3)

/-- A lane of a 1:N group. -/
def inLaneGroup (d : Dev) (n : Nat) : Bool := d.prot.groups.any fun g => g.2.cfg.typ == 2 && g.2.cfg.lanes.contains n

/-- The lane bytes of a 1:N PG_CREATE, and how many of them are used. -/
def lnBytes (raw : BitVec 512) : List Nat := (List.range 16).map fun i => dF raw (36 + i) 0 8
def lnUsed (raw : BitVec 512) : List Nat :=
  match lnBytes raw with | p :: ws => p :: ws.takeWhile (· != 0xFF) | [] => []

/-- Problems of the lanes of a 1:N group (R246, R248). -/
def laneProbs (d : Dev) (raw : BitVec 512) : List Prob :=
  let ls := lnUsed raw
  let p := ls.headD 0
  probIf (ls.length == 1) 37 7 ++ probIf (decide (p < 128) && portUsed d p) 36 4 ++
  ls.zipIdx.flatMap (fun x =>
    probIf (decide (128 ≤ x.1)) (36 + x.2) 1 ++ probIf ((ls.take x.2).contains x.1 || inLaneGroup d x.1) (36 + x.2) 4 ++
    probIf (x.1 / 16 != p / 16 || !pscLane d x.1 || persOf d x.1 != persOf d p || rdB d F.FRM_RX_CFG_PLESIO x.1) (36 + x.2) 7) ++
  (((lnBytes raw).drop ls.length).zipIdx (36 + ls.length)).flatMap fun x => probIf (x.1 != 0xFF) x.2 7

/-- Problems of one egress grain of a 1+1 group named at byte `off` (R246, R247). -/
def grainProbs (d : Dev) (off u : Nat) : List Prob :=
  let bad := !(isGrain u && decide (portOf u < 128) && unitInRange d u)
  let x := egrAt (active d) u
  probIf bad off 1 ++ probIf (!bad && inGroup d u) off 4 ++ probIf (!bad && (!egrEn x || wCs x == pCs x)) off 5

/-- Working and protect source of an egress grain. -/
def srcPair (d : Dev) (u : Nat) : Nat × Nat :=
  (srcGrain d u (wCs (egrAt (active d) u)), srcGrain d u (pCs (egrAt (active d) u)))

/-- Problems of a tributary group's TID and list (R247). -/
def tribGroupProbs (d : Dev) (raw : BitVec 512) (us : List Nat) : List Prob :=
  match tribOf d (dF raw 32 0 19) with
  | none => [(32, 5)]
  | some t =>
    let n := dF raw 52 0 15
    if t.cfg.role ≠ 0 ∨ t.cfg.pl = [] then [(32, 5)]
    else if t.cfg.fine then [(32, 7)]
    else
      let ps := us.map (srcPair d)
      let ms := t.cfg.wl.zip t.cfg.pl
      probIf (decide (n = 0 ∨ 16384 < n)) 52 1 ++ probIf (n != t.cfg.wl.length) 52 7 ++
      us.flatMap (grainProbs d 56) ++ probIf (us.dedup.length != us.length) 56 4 ++
      probIf (!(ps.all ms.contains && ms.all ps.contains)) 56 7

/-- Serves PG_CREATE (R246 to R249, R175). -/
def servePgCreate (r : Nat) (list : List W32) (ns : Nat) (sn : SN) (d : Dev) : Dev :=
  match servedBy d r 0x10 with
  | none => d
  | some e =>
    let raw := e.raw
    let pgid := dF raw 16 0 17
    let typ := dF raw 16 17 2
    let el := dB raw 16 19
    let d16 := dF raw 16 22 7
    let tidV := dB raw 32 19
    let tx := dF raw 28 0 7
    let rx := dF raw 28 8 7
    let us := if tidV then (list.take (dF raw 52 0 15)).map (·.toNat) else [dF raw 36 0 20]
    let unit := if typ = 2 then [] else us
    let srcs := (unit.map (srcPair d)).flatMap fun p => [p.1, p.2]
    match firstProb (reservedProb raw ++ probIf (typ == 3 || (el && !decide (1 ≤ d16 ∧ d16 ≤ 64)) || (!el && d16 != 0)) 16 1 ++
        probIf (groupOf d pgid).isSome 16 4 ++
        probIf (el && (typ == 2 || srcs.any fun u => decide (128 ≤ portOf u) || rdB d F.FRM_RX_CFG_PLESIO (portOf u))) 16 7 ++
        probIf (decide (10000 < dF raw 24 0 14 ∨ 720 < dF raw 24 14 10)) 24 1 ++
        (if typ = 1 then probIf (!pscLane d tx || !pscLane d rx) 28 7 ++ probIf (decide (16384 ≤ (pscGroups d tx).length)) 28 6 else []) ++
        (if typ = 2 then laneProbs d raw else if typ = 3 then []
         else if tidV then tribGroupProbs d raw us else grainProbs d 36 (dF raw 36 0 20))) with
    | some p => badDesc d r e.uid sn p
    | none =>
      let alloc : Alloc := { owner := pgOwner pgid, six := srcs.map fun u => (portOf u, d16), d16 := d16 }
      match (if el then allocShort d alloc else none) with
      | some q => finish d r e.uid stNoPool q sn
      | none =>
        let d := if el then allocPut sn alloc d else d
        let cfg : GroupCfg := {
          typ := typ, errorless := el, revert := dB raw 16 20, auto := dB raw 16 21, d16 := d16, farPgid := dF raw 20 0 17,
          holdOff := dF raw 24 0 14, wtr := dF raw 24 14 10, tx := if typ = 1 then some tx else none,
          rx := if typ = 1 then some rx else none, tid := if typ ≠ 2 ∧ tidV then some (dF raw 32 0 19) else none,
          unit := unit, lanes := if typ = 2 then lnUsed raw else [] }
        let g : Group := { cfg := cfg, pair := if el then .search else .off }
        let ins := (List.range (g.n + 1)).map fun k => ({ src := defectSource d g k } : Input)
        let d := evalGroup sn ns (setGroup d pgid { g with inputs := ins }) pgid
        match groupOf d pgid with
        | none => d
        | some h =>
          if h.pend.isSome || h.pendMi.isSome then take (setGroup d pgid { h with wait := [⟨r, e.uid, stOk, false⟩] }) r e.uid
          else finishM d r e.uid raw stOk 0 sn (BitVec.ofNat 64 h.r) (list.map (·.toNat))

/-- Serves PG_DELETE (R249): the group's commands end, and signal 0, MI 0 and bridge 0 are decided. -/
def servePgDelete (r : Nat) (ns : Nat) (sn : SN) (d : Dev) : Dev :=
  match servedBy d r 0x11 with
  | none => d
  | some e =>
    let pgid := dF e.raw 16 0 17
    let g := groupOf d pgid
    let dead := match g with | some g => g.del.isSome | none => true
    match firstProb (reservedProb e.raw ++ probIf dead 16 5) with
    | some p => badDesc d r e.uid sn p
    | none => match g with
      | none => d
      | some g =>
        let x := applyAt d sn ns
        let d := g.wait.foldl (fun d w => finish d w.ring w.uid stAborted 4 sn) d
        let d := match g.timed with | some t => finish d t.2.2.1 t.2.2.2.1 stAborted 4 sn | none => d
        take (setGroup (sendDecision d pgid g 0 x 0) pgid { g with
          wait := [], timed := none, cmd := none, wtr := none, lsel := none, pend := some ⟨0, x, 0⟩, pendMi := some (false, x),
          del := some (r, e.uid) }) r e.uid

/-! ### The commands -/

/-- R168. -/
def execBlockReturn (owner : Nat) (s : State) : Res := core s (blockReturn owner s.sn)
/-- R171. -/
def execLoessAligned (tid : BitVec 19) (copy : Fin 2) (client : Bool) (arr : Arrivals) (s : State) : Res :=
  core s (loessAligned tid.toNat copy client arr.prev arr.now s.sn)
/-- R176. -/
def execLoessPairAligned (pgid : BitVec 17) (_offsets _diff : Seen) (s : State) : Res := core s (pairAligned pgid.toNat s.sn)
/-- R177. -/
def execLoessPairLost (pgid : BitVec 17) (_content : Seen) (s : State) : Res := core s (pairLost pgid.toNat s.sn)
/-- R246. -/
def execPgCreate (ring : Fin 16) (list : List W32) (ns : Nat) (s : State) : Res := core s (servePgCreate ring list ns s.sn)
/-- R249. -/
def execPgDelete (ring : Fin 16) (ns : Nat) (s : State) : Res := core s (servePgDelete ring ns s.sn)

end Sys2Proof.Machine
end

