-- ==== Sys2Proof/Machine/Pcs.lean ====
section
/-! DEFINITION. The client PCS (R140 to R142, R148, R158, R159): 66-bit blocks, block lock, scrambling, the frames of a block
stream and the blocks of a frame, and the frame-mapped units of ETH_FM. -/

namespace Sys2Proof.Machine

/-! ### Blocks -/

/-- The bits of a block (R141). A `BitVec 66` holds a block in its IEEE 802.3 transmission order, bit 65 first: the sync
header, then each byte least significant bit first. -/
def blockBits (b : BitVec 66) : List Bool := msbBits b

/-- The byte that eight bits as sent stand for. -/
def byteOf (b : BitVec 8) : BitVec 8 := b.reverse

/-- Byte `i` of a block's payload; of a control block, byte 0 is its type. -/
def blockByte (b : BitVec 66) (i : Nat) : BitVec 8 := byteOf (b.extractLsb' (56 - 8 * i) 8)

/-- A block from its sync header and its eight payload bytes. -/
def mkBlock (ctl : Bool) (bytes : List (BitVec 8)) : BitVec 66 :=
  (if ctl then 0b10#2 else 0b01#2) ++ (List.range 8).foldl (fun (a : BitVec 64) i => (a <<< 8) ||| (byteOf (bytes.getD i 0)).setWidth 64) 0

/-- The all-idle control block: sync 0b10, type 0x1E (bits 0111 1000 as sent), rest zero (R142). -/
def idleBlock : BitVec 66 := (0b10#2) ++ (0x78#8) ++ (0#56)

/-- The Local Fault ordered-set block of Table 6-3: type 0x4B, D1 = 0, D2 = 0, D3 = 0x01, each as sent. -/
def lfBlock : BitVec 66 := (0b10#2) ++ (0xD2#8) ++ (0x000080#24) ++ (0#32)

/-- The error control block: type 0x1E and eight error characters (R153). -/
def errBlock : BitVec 66 := (0b10#2) ++ (0x78#8) ++ (0b01111000111100011110001111000111100011110001111000111100#56)

/-- The block holds error characters only, or its sync header is invalid (Table 6-6). -/
def blockBad (b : BitVec 66) : Bool := b.getLsbD 65 == b.getLsbD 64 || b == errBlock

/-- Types of the terminate blocks, by the data bytes before the terminate character. -/
def termTypes : List (BitVec 8) := [0x87, 0x99, 0xAA, 0xB4, 0xCC, 0xD2, 0xE1, 0xFF]

/-- The data bytes of a terminate block; none for another block. -/
def termLen (b : BitVec 66) : Option Nat :=
  if b.extractLsb' 64 2 = 0b10#2 then termTypes.findIdx? (· == blockByte b 0) else none

/-- An all-idle or terminate block (R158). -/
def idleOrTerm (b : BitVec 66) : Bool := b == idleBlock || (termLen b).isSome

/-! ### Block lock and scrambling -/

/-- Locked, sync headers tested, invalid ones among them. -/
abbrev Lock := Bool × Nat × Nat

/-- The block lock of IEEE 802.3 Clause 49 (R141): 64 valid headers gain it, 16 invalid of 64 lose it. Answers the lock,
the blocks found in lock, newest first, and the bits left. -/
def blockScan : Nat → Lock → List Bool → List (BitVec 66) → Lock × List (BitVec 66) × List Bool
  | 0, l, bs, acc => (l, acc, bs)
  | n + 1, (lk, sh, bad), bs, acc =>
    let b := bs.take 66
    if b.length < 66 then ((lk, sh, bad), acc, bs) else
    let valid := b.headD false != (b.drop 1).headD false
    let acc' := if lk then BitVec.ofNat 66 (bitsNat b) :: acc else acc
    if !lk then
      if !valid then blockScan n (false, 0, 0) (bs.drop 1) acc
      else if sh = 63 then blockScan n (true, 0, 0) (bs.drop 66) acc
      else blockScan n (false, sh + 1, 0) (bs.drop 66) acc
    else
      let bad := bad + (if valid then 0 else 1)
      if bad = 16 then blockScan n (false, 0, 0) (bs.drop 1) acc
      else if sh = 63 then blockScan n (true, 0, 0) (bs.drop 66) acc'
      else blockScan n (true, sh + 1, bad) (bs.drop 66) acc'

/-- The x^58 + x^39 + 1 self-synchronizing scrambler over the 64 payload bits of a block, whose sync header stays: the
state holds the last 58 bits of the scrambled side, which `rx` says is the input. -/
def scr66 (rx : Bool) (s : BitVec 58) (b : BitVec 66) : BitVec 58 × BitVec 66 :=
  let r := (List.range 64).foldl (fun (x : BitVec 58 × BitVec 64) i =>
    let i' := b.getLsbD (63 - i)
    let o := i' != (x.1.getLsbD 57 != x.1.getLsbD 38)
    ((x.1 <<< 1) ||| (BitVec.ofBool (if rx then i' else o)).setWidth 58, (x.2 <<< 1) ||| (BitVec.ofBool o).setWidth 64)) (s, 0)
  (r.1, b.extractLsb' 64 2 ++ r.2)

/-- Descrambles a client's block positions and puts one all-idle block for each position spent on alignment markers (R142
steps 4 to 6). The first block only fills the descrambler. -/
def descramble : Option (BitVec 58) → List (Option (BitVec 66)) → List (BitVec 66) → Option (BitVec 58) × List (BitVec 66)
  | s, [], acc => (s, acc.reverse)
  | s, none :: r, acc => descramble s r (idleBlock :: acc)
  | none, some b :: r, acc => descramble (some (b.extractLsb' 0 58)) r acc
  | some s, some b :: r, acc =>
    let x := scr66 true s b
    descramble (some x.1) r (x.2 :: acc)

/-- A client's PCS takes what its lanes received in a sweep (R142): the blocks, in CPRI as received (R155). -/
def pcsIn (mode : Nat) (mp : Mapper) (x : CliRx) : Mapper × List (BitVec 66) :=
  let y : Mapper × List (Option (BitVec 66)) := match x with
    | .pcs l => (mp, l)
    | .line bits =>
      let bits := mp.rest ++ bits
      let s := blockScan bits.length mp.lk bits []
      ({ mp with lk := s.1, rest := s.2.2 }, s.2.1.reverse.map some)
  if mode = 4 then (y.1, y.2.filterMap id) else
  let z := descramble y.1.scr y.2 []
  ({ y.1 with scr := z.1 }, z.2)

/-- Places of alignment markers among `nb` block positions from `pos` on of a client on `w` lanes of a personality: PHYs
without RS-FEC have none (Table 6-2). -/
def markers (pers w : Nat) (fec : Bool) (pos nb : Nat) : List Bool :=
  if !(pers == 5 || pers == 6 || (pers == 7 && fec)) then List.replicate nb false
  else (List.range nb).map fun i => decide ((pos + i) % Config.amGap pers w < Config.amLen pers w)

/-- The transmitting PCS (R158): blocks scrambled in order into the positions that are no marker's, idles once they are
used up. -/
def pcsOut : List Bool → BitVec 58 → List (BitVec 66) → List (Option (BitVec 66)) × BitVec 58
  | [], s, _ => ([], s)
  | true :: r, s, bl => let x := pcsOut r s bl; (none :: x.1, x.2)
  | false :: r, s, bl =>
    let y := scr66 false s (bl.headD idleBlock)
    let x := pcsOut r y.1 (bl.drop 1)
    (some y.2 :: x.1, x.2)

/-! ### Idle insertion and deletion (R158) -/

/-- Deletes up to `k` all-idle blocks that follow an all-idle or terminate block and precede an all-idle block; counts
them. `p` is the block before. -/
def idleDel : Nat → BitVec 66 → List (BitVec 66) → List (BitVec 66) × Nat
  | _, _, [] => ([], 0)
  | _, _, [b] => ([b], 0)
  | k, p, b :: c :: r =>
    if k ≠ 0 ∧ b = idleBlock ∧ c = idleBlock ∧ idleOrTerm p then
      let x := idleDel (k - 1) p (c :: r)
      (x.1, x.2 + 1)
    else
      let x := idleDel k b (c :: r)
      (b :: x.1, x.2)

/-- Inserts up to `k` all-idle blocks, each directly after an all-idle or terminate block; counts them. -/
def idleIns : Nat → BitVec 66 → List (BitVec 66) → List (BitVec 66) × Nat
  | k, p, l =>
    if idleOrTerm p then (List.replicate k idleBlock ++ l, k) else
    match l with
    | [] => ([], 0)
    | b :: r =>
      let x := idleIns k b r
      (b :: x.1, x.2)

/-! ### Frames -/

/-- A received frame: its bytes from destination address to FCS, and whether it holds an error block or ends without a
terminate block. -/
abbrev Frame := List (BitVec 8) × Bool

/-- One block of a client's stream reaches the MAC (R148): the frame in progress, and a frame that ends with it. Preamble and
start-of-frame delimiter are removed; idles, among them LPI (Table 6-2), and ordered sets outside a frame carry nothing. -/
def macBlock (cur : Option Frame) (b : BitVec 66) : Option Frame × Option Frame :=
  let ctl := b.extractLsb' 64 2 == 0b10#2
  let data := b.extractLsb' 64 2 == 0b01#2
  match cur with
  | none => (if ctl && blockByte b 0 == 0x78 then some ([], false) else none, none)
  | some f =>
    if data then (some (f.1 ++ (List.range 8).map (blockByte b), f.2), none)
    else if blockBad b then (some (f.1, true), none)
    else match termLen b with
      | some n => (none, some (f.1 ++ (List.range n).map fun i => blockByte b (i + 1), f.2))
      | none => (if blockByte b 0 == 0x78 then some ([], false) else none, some (f.1, true))

/-- The frames that end in a run of blocks, oldest first. -/
def macBlocks (cur : Option Frame) (bl : List (BitVec 66)) : Option Frame × List Frame :=
  bl.foldl (fun x b =>
    let y := macBlock x.1 b
    (y.1, x.2 ++ y.2.toList)) (cur, [])

/-- The blocks of a frame (R159): start, six bytes 0x55 after the one that the start character takes, 0xD5, the bytes, and
the terminate block that ends it. -/
def frameBlocks (f : List (BitVec 8)) : List (BitVec 66) :=
  let k := f.length / 8
  mkBlock true (0x78 :: List.replicate 6 0x55 ++ [0xD5]) ::
    (pieces 8 k f).map (mkBlock false) ++ [mkBlock true (termTypes.getD (f.length % 8) 0 :: f.drop (8 * k))]

/-- The gap after a frame of `len` bytes, 12 bytes on average by IEEE 802.3's deficit idle count, of which the terminate
block holds `8 − len mod 8`: idle blocks that follow it, and the count. -/
def gapBlocks (dic len : Nat) : Nat × Nat :=
  let r := (len + 12) % 8
  let x : Nat × Nat := if r = 0 then (12, dic) else if dic + r ≤ 7 then (12 - r, dic + r) else (20 - r, dic + r - 8)
  ((x.1 - (8 - len % 8)) / 8, x.2)

/-! ### Frame-mapped units (R146, R147) -/

/-- LEN and ERR of H0, and the match of HCRC (Table 6-4, R147). -/
def h0Len (h : Word20) : Nat := (h.extractLsb' 6 14).toNat
def h0Err (h : Word20) : Bool := h.getLsbD 5
def hcrcOk (h0 h1 : Word20) : Bool := crc16 (msbBits h0) == h1.extractLsb' 4 16

/-- Payload words of a frame of `len` bytes (R146). -/
def payWords (len : Nat) : Nat := cdiv (8 * len) 20

/-- The bytes of a unit's payload; an errored frame leaves with its FCS inverted (R146, R159). -/
def frameBytes (len : Nat) (err : Bool) (ws : List Word20) : List (BitVec 8) :=
  (pieces 8 len (ws.flatMap msbBits)).zipIdx.map fun x =>
    let b := BitVec.ofNat 8 (bitsNat x.1)
    if err && decide (len ≤ x.2 + 4) then ~~~b else b

/-- A null header (R146). -/
def nullHeader : List Word20 := [0, crc16 (msbBits (0 : Word20)) ++ (0#4)]

/-- The unit of a frame (R146): each byte most significant bit first. -/
def frameUnit (bs : List (BitVec 8)) (err : Bool) : List Word20 :=
  let h0 : Word20 := BitVec.ofNat 14 bs.length ++ BitVec.ofBool err ++ (0#5)
  h0 :: (crc16 (msbBits h0) ++ (0#4)) :: bitsWords (payWords bs.length)
    (bs.flatMap msbBits ++ List.replicate (20 * payWords bs.length - 8 * bs.length) false)

/-- The FCS of a frame holds: the IEEE 802.3 residue over its bytes, each least significant bit first. -/
def fcsOk (bs : List (BitVec 8)) : Bool :=
  crcBits 0x04C11DB7#32 0xFFFFFFFF#32 (bs.flatMap fun b => (msbBits b).reverse) == 0xC704DD7B#32

end Sys2Proof.Machine
end

