-- ==== Sys2Proof/Machine/Clients.lean ====
section
/-! DEFINITION. Tributaries and clients (chapters 2 and 6): TRIB_DEFINE, TRIB_RELEASE, DEFECT_CONFIG, the FlexE calendars,
buffer slips, the re-justifier's windows and ETH_FM delineation. -/

namespace Sys2Proof.Machine

/-! ### Clients and their sizes -/

/-- The mode of a client tributary's lane. -/
def modeOf (d : Dev) (c : TribCfg) : Nat := rd d F.MAP_LANE_CFG_MODE c.lane

/-- The tributary's client is a FlexE client. -/
def isFlx (d : Dev) (c : TribCfg) : Bool := modeOf d c == 3

/-- W_client of R53, in words per sweep, as a fraction (Table 2-4, R149, R151, R155). -/
def wClient (d : Dev) (c : TribCfg) : Nat × Nat :=
  let w := 2 ^ rd d F.MAP_LANE_CFG_WIDTH c.lane
  match modeOf d c with
  | 1 => ((match persOf d c.lane with | 5 => 103125000 * w | 7 => 25781250 | _ => 10312500) * 8192, 100000000)
  | 2 =>
    let l := max 64 (rd d F.MAP_LANE_CFG_FM_MAXLEN c.lane)
    (200000 * w * 8192 * (8 * l + 56), 100000 * (8 * l + 160))
  | 3 => (4224 * c.k, 10)
  | _ => ((match persOf d c.lane with | 9 => 24330240 | 10 => 10137600 | _ => 8110080) * 8192, 100000000)

/-- The least number of members, grains or fine slots (R53): W_mf is 16 sweeps' client words. -/
def minMembers (fine : Bool) (w : Nat × Nat) : Nat :=
  if fine then cdiv (16 * w.1 * 10002 + 30000 * w.2) (160000 * w.2) else cdiv (w.1 * 10002 + 30000 * w.2) (80000 * w.2)

/-- Data words of a sweep at FILL 0, the half of a buffer of 2 sweeps: 8n − 1. -/
def TribCfg.cap (c : TribCfg) : Nat := 8 * c.wl.length - 1

/-- The lanes of FlexE group `g`, in increasing PHY number. -/
def flxLanes (d : Dev) (g : Nat) : List Nat :=
  let ls := (List.range 128).filter fun n => rd d F.MAP_LANE_CFG_MODE n == 3 && persOf d n == 5 && rd d F.MAP_LANE_FLX_GRP n == g
  (List.range 256).flatMap fun p => ls.filter fun n => rd d F.MAP_LANE_FLX_PHY_NUM n == p

def flxOf (d : Dev) (g : Nat) : FlexE := tget {} d.cli.flexe g
def modFlx (d : Dev) (g : Nat) (f : FlexE → FlexE) : Dev := { d with cli := { d.cli with flexe := tmod {} d.cli.flexe g f } }

/-- The active transmit calendar of a group. -/
def flxActive (d : Dev) (g : Nat) : Tbl (BitVec 16) := if rdB d F.MAP_FLX_GRP_STATUS_TX_CAL g then (flxOf d g).txB else (flxOf d g).txA

/-- The slots that the received calendar in use gives a client (R151). -/
def rxSlots (d : Dev) (g cl : Nat) : Nat :=
  ((if rdB d F.MAP_FLX_GRP_STATUS_RX_CAL g then (flxOf d g).rxB else (flxOf d g).rxA).filter fun x => x.toNat == cl).length

/-- Client sizes against the received calendar (R151). -/
def flxSize (sn : SN) (g : Nat) (d : Dev) : Dev :=
  (d.cli.tribs.map (·.1)).foldl (fun d tid => match tribOf d tid with
    | none => d
    | some t =>
      if t.cfg.role ≠ 1 ∨ !isFlx d t.cfg ∨ t.cfg.grp ≠ g then d else
      let n := rxSlots d g t.cfg.client
      let bad := n != t.cfg.k
      let d := setTrib d tid { t with sizeBad := bad }
      if bad && !t.sizeBad then
        count (raise d { typ := 0x22, sn := sn, p0 := g, p1 := t.cfg.client, p2 := n, p3 := t.cfg.k }) 4 g 6
      else d) d

/-- PHY numbers of a group (R153). -/
def flxPhys (d : Dev) (g : Nat) : List Nat := (flxLanes d g).map fun n => rd d F.MAP_LANE_FLX_PHY_NUM n

/-- A compared field of the overhead: a difference declares client defect `c`, three equal frames in a row clear it
(Table 6-5). Answers the run. -/
def flxJudge (sn : SN) (ns n c : Nat) (same : Bool) (run : Nat) (d : Dev) : Dev × Nat :=
  if !same then (clientDefect n c true ns sn d, 0)
  else if run + 1 < 3 then (d, run + 1) else (clientDefect n c false ns sn d, 3)

/-- FLEXE_OVERHEAD_FRAME (R151, R152, R157): a PHY's group number, PHY number and PHY map are compared, and the calendars,
the calendar in use, CR and CA are taken; CA is returned for CR. -/
def flexeFrame (g : Nat) (o : FlxOh) (sn : SN) (d : Dev) : Dev :=
  let n := o.lane.val
  if !rdB d F.MAP_FLX_GRP_CFG_EN g || !(flxLanes d g).contains n then d else
  let x := flxOf d g
  let a := flxJudge sn o.ns n 5 (o.group.toNat == rd d F.MAP_FLX_GRP_CFG_GRP_NUM g) x.gidOk d
  let b := flxJudge sn o.ns n 6 (o.phy.toNat == rd d F.MAP_LANE_FLX_PHY_NUM n && o.map.map (·.toNat) == flxPhys d g) x.phyOk a.1
  let d := modFlx b.1 g fun x => { x with
    rxA := o.calA, rxB := o.calB, caOut := o.cr, caIn := o.ca || (x.caIn && x.sw.isSome), gidOk := a.2, phyOk := b.2 }
  flxSize sn g (wrB d F.MAP_FLX_GRP_STATUS_RX_CAL g o.inUse)

/-! ### Removing a tributary -/

/-- An object of PM stops existing, or exists again (R433). -/
def pmGone (d : Dev) (kind obj : Nat) (gone : Bool) : Dev :=
  let k := cntKey kind obj 0
  match tfind d.pm.objs k with
  | none => d
  | some o =>
    let o := if gone then { o with c15 := { o.c15 with suspect := true }, c24 := { o.c24 with suspect := true } } else o
    { d with pm := { d.pm with objs := tins d.pm.objs k o } }

/-- The PM objects of a TID. -/
def pmGoneTid (d : Dev) (tid : Nat) (gone : Bool) : Dev :=
  [0, 1, 2, 3].foldl (fun d k => pmGone d 2 (copyObj tid k) gone) d

/-- Each declared, unsuppressed defect of a copy is reported as cleared (R129 rule 5). -/
def clearMon (sn : SN) (tid k : Nat) (t : Trib) (d : Dev) : Dev :=
  if !t.has d k then d else
  let m := t.mon k
  let ev (c : Nat) (d : Dev) : Dev := defEvent sn c false (copyFlags k) tid (copySn d t k sn) d
  let d := if m.ssf then ev 0x11 d else d
  let d := if m.ssd then ev 0x12 d else d
  if m.ssf then d else
  (List.range 6).foldl (fun d i =>
    if m.decl.getD i false && !((tSuppress.getD i []).any fun j => m.decl.getD j false) then ev (0x13 + i) d else d) d

/-- The tributary ceases to exist; words that Loess holds for it stay until they have left (R168). -/
def dropTrib (sn : SN) (tid : Nat) (d : Dev) : Dev :=
  match tribOf d tid with
  | none => d
  | some t =>
    let d := [0, 1, 2, 3].foldl (fun d k => clearMon sn tid k t d) d
    let rest := if t.loW.isEmpty && t.loP.isEmpty then [] else [(sn, tid, t)]
    pmGoneTid { d with cli := { d.cli with tribs := tdel d.cli.tribs tid, drain := d.cli.drain ++ rest } } tid true

/-! ### Calendar switches (R154) -/

/-- The switch of the transmit calendar takes place, and the descriptor completes. -/
def calDo (sn : SN) (g : Nat) (d : Dev) : Dev :=
  match (flxOf d g).sw with
  | none => d
  | some (r, uid, op, tid) =>
    let d := wrB d F.MAP_FLX_GRP_STATUS_TX_CAL g (!rdB d F.MAP_FLX_GRP_STATUS_TX_CAL g)
    let d := modFlx (wrB d F.MAP_FLX_GRP_STATUS_SWITCHING g false) g fun x => { x with cr := false, caIn := false, sw := none, old := [] }
    let d := count d 4 g 7
    let d := if op = 0x21 then dropTrib sn tid d else d
    finishM d r uid (rawOf d r uid) stOk 0 sn

/-- A switch begins: the change goes into the inactive calendar, and CR is set. -/
def calStart (sn : SN) (g : Nat) (f : Tbl (BitVec 16) → Tbl (BitVec 16)) (r uid op tid : Nat) (d : Dev) : Dev :=
  let onB := rdB d F.MAP_FLX_GRP_STATUS_TX_CAL g
  let new := f (flxActive d g)
  let d := modFlx d g fun x => if onB then { x with old := x.txA, txA := new } else { x with old := x.txB, txB := new }
  let wait := rdB d F.MAP_FLX_GRP_CFG_CA_WAIT g
  let d := modFlx d g fun x => { x with cr := true, caIn := false, caWait := wait, sw := some (r, uid, op, tid) }
  let d := take (wrB d F.MAP_FLX_GRP_STATUS_SWITCHING g true) r uid
  if wait then d else calDo sn g d

/-- CALENDAR_SWITCH (R154 step 3): CA_WAIT is taken as it stood when the switch began (R165). -/
def calSwitch (g : Nat) (sn : SN) (d : Dev) : Dev :=
  if (flxOf d g).caIn || !(flxOf d g).caWait then calDo sn g d else d

/-- CALENDAR_SWITCH_TIMEOUT (R154): CA has not come, and the switch is undone. -/
def calTimeout (g : Nat) (sn : SN) (d : Dev) : Dev :=
  match (flxOf d g).sw with
  | none => d
  | some (r, uid, op, tid) =>
    if (flxOf d g).caIn then d else
    let onB := rdB d F.MAP_FLX_GRP_STATUS_TX_CAL g
    let d := modFlx (wrB d F.MAP_FLX_GRP_STATUS_SWITCHING g false) g fun x =>
      { (if onB then { x with txA := x.old } else { x with txB := x.old }) with cr := false, sw := none, old := [] }
    let d := if op = 0x20 then dropTrib sn tid d else d
    finish d r uid stAborted 3 sn

/-! ### TRIB_DEFINE -/

/-- The configuration that a TRIB_DEFINE names. -/
def tribCfg (raw : BitVec 512) (w p slots : List W32) : TribCfg :=
  { ptype := BitVec.ofNat 3 (dF raw 16 19 3), profile := dF raw 16 22 4, fine := dB raw 16 26, role := dF raw 16 27 2,
    lane := dF raw 20 0 7, grp := dF raw 20 7 7, client := dF raw 20 14 16, d16 := dF raw 24 0 7, m := dF raw 24 7 8,
    k := dF raw 24 15 8, wl := (w.take (dF raw 28 0 15)).map (·.toNat), pl := (p.take (dF raw 28 16 15)).map (·.toNat),
    slots := (slots.take (dF raw 24 15 8)).map fun x => x.toNat }

/-- The lanes that carry a client. -/
def lanesOf (d : Dev) (c : TribCfg) : List Nat := if isFlx d c then flxLanes d c.grp else clientLanes d c.lane

/-- Another tributary of role `c.role` carries the same client (R139). -/
def clientTaken (d : Dev) (c : TribCfg) : Bool :=
  d.cli.tribs.any fun t => t.2.cfg.role == c.role && isFlx d t.2.cfg == isFlx d c &&
    (if isFlx d c then t.2.cfg.grp == c.grp && t.2.cfg.client == c.client else clientKey d t.2.cfg.lane == clientKey d c.lane)

/-- A member is already a member of another tributary on the same side (R544). -/
def memberTaken (d : Dev) (c : TribCfg) (u : Nat) : Bool :=
  d.cli.tribs.any fun t => (t.2.cfg.role == 2) == (c.role == 2) && (t.2.cfg.wl.contains u || t.2.cfg.pl.contains u)

/-- Problems of one member list, named at byte `off`; `other` is the other copy's list (R39, R544, R139, R170). DESIGN CHOICE
(log entry 138): a grain of a VL port as a member received on GLF lanes is refused with reason 1. -/
def listProbs (d : Dev) (c : TribCfg) (off : Nat) (us other : List Nat) : List Prob :=
  let ls := (us.filterMap (memberLane d)).dedup
  us.flatMap (fun u =>
    probIf (!unitInRange d u || (c.role == 0 && !c.fine && isGrain u && decide (128 ≤ portOf u))) off 1 ++
    probIf (isFine u != c.fine || (c.role != 0 && !((lanesOf d c).contains (portOf u))) || other.contains u) off 7 ++
    probIf (c.role == 0 && (match memberLane d u with | some n => !isGlf (persOf d n) | none => false)) off 7 ++
    probIf (memberTaken d c u) off 4) ++
  probIf (us.dedup.length != us.length) off 7 ++ probIf (decide (16 < ls.length)) off 6 ++
  probIf (c.fine && decide (1 < ls.length)) off 7

/-- Loess must align the tributary's member lanes, or its client's lanes (R170, R174). -/
def needsLoess (d : Dev) (c : TribCfg) : Bool :=
  match c.role with
  | 0 => let t : Trib := { cfg := c }; copyMulti d t 0 || copyMulti d t 1
  | 1 => decide (2 ≤ (lanesOf d c).length) && !(d.cli.loess.any fun a => a.owner == clientOwner ((lanesOf d c).headD c.lane) && !a.ended)
  | _ => false

/-- The allocation that a TRIB_DEFINE makes (Table 7-1). -/
def tribAlloc (d : Dev) (tid : Nat) (c : TribCfg) : Alloc :=
  if c.role = 0 then
    let t : Trib := { cfg := c }
    { owner := tid, d16 := c.d16, m := c.m,
      six := ([0, 1].filter (copyMulti d t)).flatMap fun k => (t.members k).map fun u => (portOf u, c.d16) }
  else
    { owner := clientOwner ((lanesOf d c).headD c.lane), d16 := c.d16, m := c.m,
      blk := (lanesOf d c).map fun n => (n, if persOf d n = 6 then cdiv (17 * c.d16) 16 else cdiv (85 * c.d16) 160) }

/-- Problems of a client's lanes, group and slots (R137, R139, R153). DESIGN CHOICE (log entry 139): too few members give
reason 7 at W_COUNT; and (log entry 140) PTYPE 0b111, which no mapper writes, gives reason 1. -/
def clientProbs (d : Dev) (raw : BitVec 512) (c : TribCfg) : List Prob :=
  let flx := isFlx d c
  let grpOk := rdB d F.MAP_FLX_GRP_CFG_EN c.grp && rd d F.MAP_LANE_FLX_GRP c.lane == c.grp
  let bad := !isClient (persOf d c.lane) || modeOf d c == 0 || !modeGood d c.lane || (if flx then !grpOk else clientKey d c.lane != c.lane)
  let egr := flx && c.role == 2
  probIf (c.ptype == 7) 16 1 ++ probIf bad 20 7 ++ probIf (flx && !decide (1 ≤ c.client ∧ c.client ≤ 0xFFFE)) 20 1 ++ probIf (clientTaken d c) 20 4 ++
  probIf (flx && c.k == 0) 24 1 ++ probIf (!bad && decide (c.wl.length < minMembers c.fine (wClient d c))) 28 7 ++
  probIf (!egr && dF raw 48 0 64 != 0) 48 7 ++
  (if !egr then [] else
    probIf (c.slots.dedup.length != c.slots.length || c.slots.length != c.k) 48 7 ++
    c.slots.flatMap fun x =>
      probIf (decide (2 ^ 13 ≤ x)) 48 2 ++ probIf (decide (20 ≤ x / 256 % 32)) 48 7 ++
      probIf (!((flxLanes d c.grp).any fun n => rd d F.MAP_LANE_FLX_PHY_NUM n == x % 256)) 48 7 ++
      probIf (tget 0 (flxActive d c.grp) (x % 256 * 32 + x / 256 % 32) != 0) 48 4)

/-- Problems of a TRIB_DEFINE (R39, R41, R139, R153, R170, R544). -/
def tribProbs (d : Dev) (raw : BitVec 512) (c : TribCfg) : List Prob :=
  let wn := dF raw 28 0 15
  let pn := dF raw 28 16 15
  probIf (c.role == 3) 16 1 ++ probIf (tribOf d (dF raw 16 0 19)).isSome 16 4 ++
  probIf (wn == 0) 28 1 ++ probIf (decide (16384 < wn) || (c.fine && decide (64 < wn))) 28 6 ++ probIf (pn != 0 && pn != wn) 28 7 ++
  (if c.role = 1 ∨ c.role = 2 then clientProbs d raw c else probIf (dF raw 48 0 64 != 0) 48 7) ++
  (if needsLoess d c then probIf (!decide (1 ≤ c.d16 ∧ c.d16 ≤ 64)) 24 1 ++ probIf (decide (1024 * c.d16 ≤ 100 * c.m)) 24 7 else []) ++
  listProbs d c 32 c.wl [] ++ listProbs d c 40 c.pl c.wl

/-- Serves TRIB_DEFINE. -/
def serveTribDefine (r : Nat) (w p slots : List W32) (ns : Nat) (sn : SN) (d : Dev) : Dev :=
  match servedBy d r 0x20 with
  | none => d
  | some e =>
    let raw := e.raw
    let tid := dF raw 16 0 19
    let c := tribCfg raw w p slots
    let egr := c.role == 2 && isFlx d c
    if egr && (flxOf d c.grp).sw.isSome then d else
    match firstProb (reservedProb raw ++ tribProbs d raw c) with
    | some x => badDesc d r e.uid sn x
    | none =>
      let need := needsLoess d c
      let a := tribAlloc d tid c
      match (if need then allocShort d a else none) with
      | some q => finish d r e.uid stNoPool q sn
      | none =>
        let d := if need then allocPut sn a d else d
        let mon : Mon := { lim := profAll d c.profile }
        let d := pmGoneTid (setTrib d tid { cfg := c, w := mon, p := mon, c := mon, cp := mon }) tid false
        let d := if c.role = 1 ∧ isFlx d c then flxSize sn c.grp d else d
        let d := evalAll sn ns ([0, 1, 2, 3].foldl (fun d k => monFollow sn tid k d) d)
        if egr then
          calStart sn c.grp (fun t => c.slots.foldl (fun t x => tput 0 t (x % 256 * 32 + x / 256 % 32) (BitVec.ofNat 16 c.client)) t) r e.uid 0x20 tid d
        else finishM d r e.uid raw stOk 0 sn 0 ((w ++ p ++ slots).map (·.toNat))

/-- Serves TRIB_RELEASE (R42, R143, R154, R168). -/
def serveTribRelease (r : Nat) (ns : Nat) (sn : SN) (d : Dev) : Dev :=
  match servedBy d r 0x21 with
  | none => d
  | some e =>
    let tid := dF e.raw 16 0 19
    match firstProb (reservedProb e.raw ++ probIf (tribOf d tid).isNone 16 5) with
    | some x => badDesc d r e.uid sn x
    | none => match tribOf d tid with
      | none => d
      | some t =>
        if d.prot.groups.any fun g => g.2.cfg.tid == some tid then finish d r e.uid stDenied 3 sn
        else if t.cfg.role = 2 ∧ isFlx d t.cfg then
          if (flxOf d t.cfg.grp).sw.isSome then d
          else calStart sn t.cfg.grp (fun x => t.cfg.slots.foldl (fun x s => tdel x (s % 256 * 32 + s / 256 % 32)) x) r e.uid 0x21 tid d
        else
          let key := (lanesOf d t.cfg).headD t.cfg.lane
          let d := evalAll sn ns (dropTrib sn tid d)
          if t.cfg.role = 0 then endAlloc d tid r e.uid sn
          else if t.cfg.role = 1 ∧ !(d.cli.tribs.any fun x => x.2.cfg.role == 1 && (lanesOf d x.2.cfg).headD x.2.cfg.lane == key) then
            endAlloc { d with cli := { d.cli with lanesAl := tdel d.cli.lanesAl key, lanesSk := d.cli.lanesSk.erase key } } (clientOwner key) r e.uid sn
          else finishM d r e.uid e.raw stOk 0 sn

/-- Serves DEFECT_CONFIG (R130). -/
def serveDefectConfig (r : Nat) (sn : SN) (d : Dev) : Dev :=
  match servedBy d r 0x40 with
  | none => d
  | some e => match firstProb (reservedProb e.raw) with
    | some x => badDesc d r e.uid sn x
    | none =>
      let v := (List.range 6).map fun i => dF e.raw (20 + 4 * i) 0 24
      finishM { d with cli := { d.cli with profiles := tins d.cli.profiles (dF e.raw 16 0 4) v } } r e.uid e.raw stOk 0 sn

/-! ### Buffers -/

/-- Words of a list of units. -/
def unitWords (us : List (List Word20)) : Nat := us.foldl (fun a u => a + u.length) 0

/-- Drops the newest whole units until at most `cap` words remain; the first, perhaps in part, stays. -/
def dropUnits (cap : Nat) : Nat → List (List Word20) → List (List Word20)
  | 0, us => us
  | n + 1, us => if unitWords us ≤ cap ∨ us.length ≤ 1 then us else dropUnits cap n us.dropLast

/-- CLIENT_MAP_OVF (R144): the mapper's buffer of 2 sweeps has reached its limit. DESIGN CHOICE (log entry 141): the newest
blocks or frames are discarded. -/
def mapOvf (tid : Nat) (sn : SN) (d : Dev) : Dev :=
  match tribOf d tid with
  | none => d
  | some t =>
    let cap := t.cfg.cap
    let fm := modeOf d t.cfg == 2
    let level := if fm then unitWords t.map.units else t.map.bits.length / 20
    if t.cfg.role ≠ 1 ∨ level < 2 * cap then d else
    let mp := if fm then { t.map with units := dropUnits cap t.map.units.length t.map.units }
      else { t.map with bits := t.map.bits.take (t.map.bits.length - 66 * cdiv (t.map.bits.length - 20 * cap) 66), ovf := true }
    raise (count (setTrib d tid { t with map := mp }) 2 tid 8) { typ := 0x20, sn := sn, p0 := tid }

/-- Bits of one sweep of client words. -/
def clientBits (d : Dev) (c : TribCfg) : Nat := 20 * (wClient d c).1 / (wClient d c).2

/-- CPRI_SLIP (R156): the buffer stands at 0 or at 2 sweeps of the client's words. -/
def cpriSlip (tid : Nat) (discard : Bool) (sn : SN) (d : Dev) : Dev :=
  match tribOf d tid with
  | none => d
  | some t =>
    let bits := t.dem.bits
    let full := clientBits d t.cfg
    if t.cfg.role ≠ 2 ∨ modeOf d t.cfg ≠ 4 ∨ !t.dem.started then d
    else if discard && decide (bits.length < 2 * full) || !discard && decide (66 ≤ bits.length) then d
    else
      let bits := if discard then bits.drop (66 * ((bits.length - full) / 66))
        else bits ++ (List.replicate (full / 66) (blockBits t.dem.prev)).flatten
      raise (count (setTrib d tid { t with dem := { t.dem with bits := bits } }) 5 t.cfg.lane 4)
        { typ := 0x23, sn := sn, p0 := t.cfg.lane, p1 := discard.toNat }

/-- Whole blocks of one sweep of client words: the target level of R158. -/
def targetBlocks (d : Dev) (c : TribCfg) : Nat := clientBits d c / 66

/-- The counter kind and object of a client's idle and slip counts (Table 17-4). -/
def idleKey (d : Dev) (c : TribCfg) : Nat × Nat × Nat := if isFlx d c then (4, c.grp, 8) else (3, clientKey d c.lane, 14)

/-- BUF_SLIP (R158): the level has reached 0 or 2 sweeps and returns to 1 sweep. DESIGN CHOICE (log entry 142): the oldest
blocks are discarded. -/
def bufSlip (tid : Nat) (d : Dev) : Dev :=
  match tribOf d tid with
  | none => d
  | some t =>
    let n := targetBlocks d t.cfg
    let l := t.dem.blocks.length
    if t.cfg.role ≠ 2 ∨ (modeOf d t.cfg ≠ 1 ∧ modeOf d t.cfg ≠ 3) ∨ !t.dem.started ∨ (0 < l ∧ l < 2 * n) then d else
    let b := if l = 0 then List.replicate n idleBlock else t.dem.blocks.drop (l - n)
    let k := idleKey d t.cfg
    count (setTrib d tid { t with dem := { t.dem with blocks := b } }) k.1 k.2.1 (k.2.2 + 2)

/-- The least data words of a re-justified sweep: FILL at its limit (R46). -/
def minData (c : TribCfg) : Nat := c.cap - min 255 c.cap

/-- RJ_SLIP (R161): a copy's buffer would overflow or underflow. -/
def rjSlip (tid : Nat) (sn : SN) (d : Dev) : Dev :=
  [0, 1].foldl (fun d k => match tribOf d tid with
    | none => d
    | some t =>
      let x := t.rj k
      let much := decide (2 * t.cfg.cap < x.buf.length)
      if t.cfg.role ≠ 0 ∨ !copyPlesio d t k ∨ x.slip ∨ !(much || (x.started && decide (x.buf.length < minData t.cfg))) then d else
      let x := { x with slip := true, buf := if much then x.buf.drop t.cfg.cap else x.buf }
      raise (count (setTrib d tid (t.setRj k x)) 2 (copyObj tid k) 10) { typ := 0x24, sn := sn, p0 := tid }) d

/-- RJ_WINDOW_END (R162): the lane sweeps counted in a window of 262,144 device sweeps, and the next window. A window that
has run longer is not judged. -/
def rjWindow (n : Nat) (sn : SN) (d : Dev) : Dev :=
  let f := frmOf d n
  match f.rjFrom with
  | none => d
  | some s =>
    if !rdB d F.FRM_RX_CFG_PLESIO n ∨ snAge s sn < 262144 then d else
    let d := modFrm d n fun f => { f with rjFrom := some sn, rjCnt := 0 }
    if snAge s sn ≠ 262144 then d else
    let diff : Int := (f.rjCnt : Int) - 262144
    let was := rdB d F.MAP_RJ_STATUS_FREQ_ERR n
    let d := wr d F.MAP_RJ_STATUS_OFFSET n (unsigned 16 diff)
    if 7 ≤ diff.natAbs then
      if was then d else raise (wrB d F.MAP_RJ_STATUS_FREQ_ERR n true) { typ := 0x25, sn := sn, p0 := n, p1 := unsigned 16 diff }
    else if diff.natAbs ≤ 5 then wrB d F.MAP_RJ_STATUS_FREQ_ERR n false else d

/-! ### ETH_FM delineation -/

/-- Words that the frames in a queue take. -/
def queueWords (fs : List (List (BitVec 8))) : Nat := fs.foldl (fun a f => a + payWords f.length) 0

/-- The demapper's input is SF (R160), by its monitor. -/
def demSf (t : Trib) : Bool := t.c.cond == .sf || t.dem.fail

/-- FM_HEADER (R150, R159): the demapper of an ETH_FM tributary tests the word pair at the front of the words delivered to it,
once the unit that it heads has come whole. -/
def fmHeader (tid : Nat) (sn : SN) (d : Dev) : Dev :=
  match tribOf d tid with
  | none => d
  | some t =>
    let x := t.dem
    match x.words with
    | h0 :: h1 :: r =>
      let len := h0Len h0
      let ok := hcrcOk h0 h1
      let key := clientKey d t.cfg.lane
      if t.cfg.role ≠ 2 ∨ modeOf d t.cfg ≠ 2 ∨ demSf t ∨ (ok ∧ r.length < payWords len) then d
      else if !ok then
        let d := if x.fm = 2 then raise (count d 3 key 12) { typ := 0x21, sn := sn, p0 := t.cfg.lane } else d
        setTrib d tid { t with dem := { x with fm := 0, words := h1 :: r } }
      else
        let y := { x with fm := if x.fm = 0 then 1 else 2, words := r.drop (payWords len) }
        if len = 0 then setTrib d tid { t with dem := y }
        else if x.fm = 0 then count (setTrib d tid { t with dem := y }) 3 key 12
        else if 2 * t.cfg.cap < queueWords x.frames + payWords len then count (setTrib d tid { t with dem := y }) 3 key 13
        else setTrib d tid { t with dem := { y with frames := x.frames ++ [frameBytes len (h0Err h0) (r.take (payWords len))] } }
    | _ => d

/-! ### The commands -/

/-- R39. -/
def execTribDefine (ring : Fin 16) (w p slots : List W32) (ns : Nat) (s : State) : Res := core s (serveTribDefine ring w p slots ns s.sn)
/-- R42. -/
def execTribRelease (ring : Fin 16) (ns : Nat) (s : State) : Res := core s (serveTribRelease ring ns s.sn)
/-- R130. -/
def execDefectConfig (ring : Fin 16) (s : State) : Res := core s (serveDefectConfig ring s.sn)
/-- R144. -/
def execClientMapOvf (tid : BitVec 19) (s : State) : Res := core s (mapOvf tid.toNat s.sn)
/-- R150. -/
def execFmHeader (tid : BitVec 19) (_pos _h0 _h1 _payload : Seen) (s : State) : Res := core s (fmHeader tid.toNat s.sn)
/-- R152. -/
def execFlexeOverheadFrame (grp : Fin 128) (o : FlxOh) (s : State) : Res := core s (flexeFrame grp o s.sn)
/-- R154. -/
def execCalendarSwitch (grp : Fin 128) (s : State) : Res := core s (calSwitch grp s.sn)
/-- R154. -/
def execCalendarSwitchTimeout (grp : Fin 128) (s : State) : Res := core s (calTimeout grp s.sn)
/-- R156. -/
def execCpriSlip (tid : BitVec 19) (discard : Bool) (s : State) : Res := core s (cpriSlip tid.toNat discard s.sn)
/-- R158. -/
def execBufSlip (tid : BitVec 19) (s : State) : Res := core s (bufSlip tid.toNat)
/-- R161. -/
def execRjSlip (tid : BitVec 19) (s : State) : Res := core s (rjSlip tid.toNat s.sn)
/-- R162. -/
def execRjWindowEnd (lane : Fin 128) (_count : Seen) (s : State) : Res := core s (rjWindow lane s.sn)

end Sys2Proof.Machine
end

