-- ==== Sys2Proof/Machine/Crypto.lean ====
section
/-! DEFINITION. The functions that pairing, sessions, the debug port and secure boot compute: SHA-256, SHA-384 and
HMAC-SHA-256 (R303, R455, R467, R472), and signed-image verification with ECDSA P-384 (R472). -/

namespace Sys2Proof.Machine

/-- The first 64 fraction bits of the cube roots of the first 80 primes, eight to a number, first in the highest bits: the round
constants of SHA-512, whose upper halves are those of SHA-256 (FIPS 180-4, which the manual names). -/
def cubeRoots : List Nat := [
  0x428a2f98d728ae227137449123ef65cdb5c0fbcfec4d3b2fe9b5dba58189dbbc3956c25bf348b53859f111f1b605d019923f82a4af194f9bab1c5ed5da6d8118,
  0xd807aa98a303024212835b0145706fbe243185be4ee4b28c550c7dc3d5ffb4e272be5d74f27b896f80deb1fe3b1696b19bdc06a725c71235c19bf174cf692694,
  0xe49b69c19ef14ad2efbe4786384f25e30fc19dc68b8cd5b5240ca1cc77ac9c652de92c6f592b02754a7484aa6ea6e4835cb0a9dcbd41fbd476f988da831153b5,
  0x983e5152ee66dfaba831c66d2db43210b00327c898fb213fbf597fc7beef0ee4c6e00bf33da88fc2d5a79147930aa72506ca6351e003826f142929670a0e6e70,
  0x27b70a8546d22ffc2e1b21385c26c9264d2c6dfc5ac42aed53380d139d95b3df650a73548baf63de766a0abb3c77b2a881c2c92e47edaee692722c851482353b,
  0xa2bfe8a14cf10364a81a664bbc423001c24b8b70d0f89791c76c51a30654be30d192e819d6ef5218d69906245565a910f40e35855771202a106aa07032bbd1b8,
  0x19a4c116b8d2d0c81e376c085141ab532748774cdf8eeb9934b0bcb5e19b48a8391c0cb3c5c95a634ed8aa4ae3418acb5b9cca4f7763e373682e6ff3d6b2b8a3,
  0x748f82ee5defb2fc78a5636f43172f6084c87814a1f0ab728cc702081a6439ec90befffa23631e28a4506cebde82bde9bef9a3f7b2c67915c67178f2e372532b,
  0xca273eceea26619cd186b8c721c0c207eada7dd6cde0eb1ef57d4f7fee6ed17806f067aa72176fba0a637dc5a2c898a6113f9804bef90dae1b710b35131c471b,
  0x28db77f523047d8432caab7b40c724933c9ebe0a15c9bebc431d67c49c100d4c4cc5d4becb3e42b6597f299cfc657e2a5fcb6fab3ad6faec6c44198c4a475817]

/-- Item `i` of the words of `w` bits that a number of `n` of them packs, first in the highest bits. -/
def packed (n w x i : Nat) : Nat := x >>> (w * (n - 1 - i)) % 2 ^ w

/-- Round constant `i`, to its first `w` bits. -/
def roundK (w i : Nat) : BitVec w := BitVec.ofNat w (packed 8 64 (cubeRoots.getD (i / 8) 0) (i % 8) >>> (64 - w))

/-- The parameters in which SHA-256 and SHA-512 differ. -/
structure ShaPar where
  w : Nat
  rounds : Nat
  /-- Rotations and shift of Σ0, Σ1, σ0 and σ1. -/
  s0 : Nat × Nat × Nat
  s1 : Nat × Nat × Nat
  t0 : Nat × Nat × Nat
  t1 : Nat × Nat × Nat

def sha256Par : ShaPar := ⟨32, 64, (2, 13, 22), (6, 11, 25), (7, 18, 3), (17, 19, 10)⟩
def sha512Par : ShaPar := ⟨64, 80, (28, 34, 39), (14, 18, 41), (1, 8, 7), (19, 61, 6)⟩

def rot3 {w : Nat} (r : Nat × Nat × Nat) (x : BitVec w) : BitVec w :=
  x.rotateRight r.1 ^^^ x.rotateRight r.2.1 ^^^ x.rotateRight r.2.2
def shr3 {w : Nat} (r : Nat × Nat × Nat) (x : BitVec w) : BitVec w :=
  x.rotateRight r.1 ^^^ x.rotateRight r.2.1 ^^^ (x >>> r.2.2)

/-- One word of the message schedule from the sixteen before it, latest first. -/
def shaNext (p : ShaPar) (l : List (BitVec p.w)) : BitVec p.w :=
  shr3 p.t1 (l.getD 1 0) + l.getD 6 0 + shr3 p.t0 (l.getD 14 0) + l.getD 15 0

/-- The message schedule, latest word first. -/
def shaSched (p : ShaPar) : Nat → List (BitVec p.w) → List (BitVec p.w)
  | 0, l => l
  | n + 1, l => shaSched p n (shaNext p l :: l)

/-- One round on the eight working words. -/
def shaRound (p : ShaPar) (v : List (BitVec p.w)) (kw : BitVec p.w × BitVec p.w) : List (BitVec p.w) :=
  match v with
  | [a, b, c, d, e, f, g, h] =>
    let t1 := h + rot3 p.s1 e + ((e &&& f) ^^^ (~~~e &&& g)) + kw.1 + kw.2
    let t2 := rot3 p.s0 a + ((a &&& b) ^^^ (a &&& c) ^^^ (b &&& c))
    [t1 + t2, a, b, c, d + t1, e, f, g]
  | v => v

/-- One block of sixteen words. -/
def shaBlock (p : ShaPar) (h blk : List (BitVec p.w)) : List (BitVec p.w) :=
  let ws := (shaSched p (p.rounds - 16) blk.reverse).reverse
  List.zipWith (· + ·) h ((ws.zipIdx.map fun x => (roundK p.w x.2, x.1)).foldl (shaRound p) h)

/-- Big-endian words of `n` bytes. -/
def beWord (w : Nat) (bs : List (BitVec 8)) : BitVec w := bs.foldl (fun x b => (x <<< 8) ||| b.setWidth w) 0

/-- The padded message as blocks of sixteen words. -/
def shaBlocks (p : ShaPar) (m : List (BitVec 8)) : List (List (BitVec p.w)) :=
  let bb := 16 * (p.w / 8)
  let lb := 2 * (p.w / 8)
  let n := (m.length + 1 + lb + bb - 1) / bb
  let pad := m ++ [0x80#8] ++ List.replicate (n * bb - m.length - 1 - lb) 0#8 ++
    (List.range lb).map fun i => BitVec.ofNat 8 ((8 * m.length) >>> (8 * (lb - 1 - i)))
  (pieces bb n pad).map fun b => (pieces (p.w / 8) 16 b).map (beWord p.w)

def beBytes {w : Nat} (x : BitVec w) : List (BitVec 8) :=
  (List.range (w / 8)).map fun i => x.extractLsb' (w - 8 - 8 * i) 8

def sha (p : ShaPar) (h0 : List (BitVec p.w)) (m : List (BitVec 8)) : List (BitVec 8) :=
  ((shaBlocks p m).foldl (shaBlock p) h0).flatMap beBytes

/-- The eight words of `w` bits that start a hash: the first fraction bits of the square roots of primes, packed. -/
def shaStart (w x : Nat) : List (BitVec w) := (List.range 8).map fun i => BitVec.ofNat w (packed 8 w x i)

/-- SHA-256. -/
def sha256 (m : List (BitVec 8)) : List (BitVec 8) :=
  sha sha256Par (shaStart 32 0x6a09e667bb67ae853c6ef372a54ff53a510e527f9b05688c1f83d9ab5be0cd19) m

/-- SHA-384. -/
def sha384 (m : List (BitVec 8)) : List (BitVec 8) :=
  (sha sha512Par (shaStart 64 0xcbbb9d5dc1059ed8629a292a367cd5079159015a3070dd17152fecd8f70e593967332667ffc00b318eb44a8768581511db0c2e0d64f98fa747b5481dbefa4fa4) m).take 48

/-- HMAC-SHA-256 with a key of at most 64 bytes. -/
def hmac (key m : List (BitVec 8)) : List (BitVec 8) :=
  let k := key ++ List.replicate (64 - key.length) 0#8
  sha256 (k.map (· ^^^ 0x5C#8) ++ sha256 (k.map (· ^^^ 0x36#8) ++ m))

/-- The field prime of the curve P-384 (FIPS 186; the manual names only the algorithm, log entry 16). -/
def p384p : Nat := 0xfffffffffffffffffffffffffffffffffffffffffffffffffffffffffffffffeffffffff0000000000000000ffffffff
/-- The order of its base point. -/
def p384n : Nat := 0xffffffffffffffffffffffffffffffffffffffffffffffffc7634d81f4372ddf581a0db248b0a77aecec196accc52973
/-- Its coefficient b; a is -3. -/
def p384b : Nat := 0xb3312fa7e23ee7e4988e056be3f82d19181d9c6efe8141120314088f5013875ac656398d8a2ed19d2a85c8edd3ec2aef
/-- Its base point. -/
def p384g : Nat × Nat :=
  (0xaa87ca22be8b05378eb1c71ef320ad746e1d3b628ba79b9859f741e082542a385502f25dbf55296c3a545e3872760ab7,
   0x3617de4a96262c6f5d9e98bf9292dc29f8f41dbd289a147ce9da3113b5f0b8c00a60b1ce1d7e819d7a431d7c90ea0e5f)

def fMul (a b : Nat) : Nat := a * b % p384p
def fSub (a b : Nat) : Nat := (a + (p384p - b)) % p384p

/-- `a ^ e` modulo `m`, over the low `n` bits of `e`. -/
def powMod (m a e : Nat) : Nat → Nat
  | 0 => 1 % m
  | n + 1 => let h := powMod m a (e / 2) n; let q := h * h % m; if e % 2 = 1 then q * a % m else q

/-- Doubling in Jacobian coordinates (X : Y : Z), x = X/Z², y = Y/Z³; Z = 0 is the point at infinity. -/
def ecDbl (q : Nat × Nat × Nat) : Nat × Nat × Nat :=
  let (x, y, z) := q
  let dl := fMul z z
  let g := fMul y y
  let bt := fMul x g
  let al := 3 * fMul (fSub x dl) ((x + dl) % p384p) % p384p
  let x3 := fSub (fMul al al) (8 * bt % p384p)
  (x3, fSub (fMul al (fSub (4 * bt % p384p) x3)) (8 * fMul g g % p384p), 2 * fMul y z % p384p)

/-- Addition of a point in affine coordinates. -/
def ecAdd (q : Nat × Nat × Nat) (a : Nat × Nat) : Nat × Nat × Nat :=
  let (x, y, z) := q
  if z = 0 then (a.1, a.2, 1) else
    let zz := fMul z z
    let h := fSub (fMul a.1 zz) x
    let r := fSub (fMul a.2 (fMul zz z)) y
    if h = 0 then (if r = 0 then ecDbl q else (1, 1, 0)) else
      let hh := fMul h h
      let hhh := fMul h hh
      let v := fMul x hh
      let x3 := fSub (fMul r r) ((hhh + 2 * v) % p384p)
      (x3, fSub (fMul r (fSub v x3)) (fMul y hhh), fMul z h)

/-- `k` times an affine point, over the `n` low bits of `k` from the highest. -/
def ecMul (a : Nat × Nat) (k : Nat) : Nat → Nat × Nat × Nat → Nat × Nat × Nat
  | 0, q => q
  | n + 1, q => let d := ecDbl q; ecMul a k n (if k.testBit n then ecAdd d a else d)

/-- The affine x of a point, and its y. -/
def ecAff (q : Nat × Nat × Nat) : Nat × Nat :=
  let i := powMod p384p q.2.2 (p384p - 2) 384
  let ii := fMul i i
  (fMul q.1 ii, fMul q.2.1 (fMul ii i))

/-- ECDSA P-384 verification (R472 step 3): public key x then y, signature r then s. -/
def ecdsaP384 (pub sig : BitVec 768) (hash : BitVec 384) : Bool :=
  let a := (pub.toNat / 2 ^ 384, pub.toNat % 2 ^ 384)
  let r := sig.toNat / 2 ^ 384
  let s := sig.toNat % 2 ^ 384
  let onCurve := decide (a.1 < p384p) && decide (a.2 < p384p) &&
    fMul a.2 a.2 == (fMul a.1 (fMul a.1 a.1) + (p384p - 3 * a.1 % p384p) + p384b) % p384p
  let w := powMod p384n s (p384n - 2) 384
  let u := ecMul p384g (hash.toNat * w % p384n) 384 (1, 1, 0)
  let v := ecMul a (r * w % p384n) 384 (1, 1, 0)
  let q := if v.2.2 = 0 then u else ecAdd u (ecAff v)
  onCurve && decide (0 < r) && decide (r < p384n) && decide (0 < s) && decide (s < p384n) && decide (q.2.2 ≠ 0) &&
    (ecAff q).1 % p384n == r

/-- Little-endian value of the bytes at `off`. -/
def leNat (bs : List (BitVec 8)) (off n : Nat) : Nat :=
  ((bs.drop off).take n).reverse.foldl (fun x b => 256 * x + b.toNat) 0

/-- SVN, STATE_MIN and STATE_MAX of an image (Table 18-8). -/
def imgSvn (img : List (BitVec 8)) : Nat := leNat img 6 2
def imgStates (img : List (BitVec 8)) : Nat × Nat := (leNat img 12 2, leNat img 14 2)

/-- R472: 0 verified, 1 step 1, 2 or 3 fails, 2 step 4 fails; `root` gives the usable, unrevoked root values. -/
def verifyImg (root : Nat → Option (List (BitVec 8))) (floor len : Nat) (img : List (BitVec 8)) : Nat :=
  let pub := (img.drop 48).take 96
  let ok1 := leNat img 0 4 == 0x4C504D44 && leNat img 4 2 == 1 && decide (leNat img 8 4 ≤ 0x100000) && leNat img 8 4 == len && img.length == len
  let ok2 := root (leNat img 16 1) == some (sha384 pub)
  let ok3 := ecdsaP384 (beWord 768 pub) (beWord 768 ((img.drop 144).take 96)) (beWord 384 (sha384 (img.take 144 ++ img.drop 336)))
  if !(ok1 && ok2 && ok3) then 1 else if imgSvn img < floor then 2 else 0

end Sys2Proof.Machine
end

