-- ==== Sys2Proof/Machine/Mapping.lean ====
section
/-! DEFINITION. What the mappers, the demappers and the re-justifier do at a sweep tick (chapter 6; R40 to R50). -/

namespace Sys2Proof.Machine

/-- The words of one sweep: JW, data, Silt (R43, R47). -/
def sweepWords (tid fill : Nat) (mi : Bool) (ty : BitVec 3) (data : List Word20) : List Word20 :=
  jwMake (BitVec.ofNat 8 fill) mi ty (BitVec.ofNat 19 tid) :: data ++ List.replicate fill 0xA5A5A#20

/-- Writes the words of a sweep at the member positions of a tributary's copy. -/
def putWords (sn : SN) (us : List Nat) (ws : List Word20) (d : Dev) : Dev := putAll sn us (tribGrains us.length ws) d

/-- Data words that keep a buffer of `level` words at its midpoint (R46). -/
def dataWords (c : TribCfg) (level : Nat) : Nat := max (minData c) (min c.cap (level - c.cap))

/-- Data words of a mapper's sweep: the client words accumulated during the sweep before, as far as the sweep takes them
(R46). -/
def mapWords (c : TribCfg) (level : Nat) : Nat := max (minData c) (min c.cap level)

/-- The next whole client words at the nominal rate, and the remainder (R145). -/
def nominal (d : Dev) (c : TribCfg) (acc : Nat) : Nat × Nat :=
  let w := wClient d c
  (max (minData c) (min c.cap ((acc + w.1) / w.2)), (acc + w.1) % w.2)

/-! ### Mappers -/

/-- Mapper replacement content (Table 6-3). -/
def replacement (mode n : Nat) : List Word20 :=
  if mode = 2 then (List.replicate n nullHeader).flatten.take n
  else
    let b := blockBits (if mode = 4 then idleBlock else lfBlock)
    bitsWords n ((List.replicate (n * 20 / 66 + 1) b).flatten)

/-- A received frame reaches the ETH_FM mapper (R148). -/
def fmFrame (lane : Nat) (x : Dev × List (List Word20)) (f : Frame) : Dev × List (List Word20) :=
  let d := x.1
  let key := clientKey d lane
  let maxl := max 64 (rd d F.MAP_LANE_CFG_FM_MAXLEN lane)
  if f.1.length < 64 then (count d 3 key 11, x.2)
  else
    let err := f.2 || decide (maxl < f.1.length) || !fcsOk f.1
    let bs := f.1.take maxl
    if err && rdB d F.MAP_LANE_CFG_FM_ERR_DROP lane then (count d 3 key 10, x.2)
    else (count (count d 3 key 6) 3 key 7 bs.length, x.2 ++ [frameUnit bs err])

/-- Takes `need` words from the queue of units, adding null headers when it is empty (R146). -/
def fmTake : Nat → Nat → List (List Word20) → List Word20 × List (List Word20)
  | 0, _, us => ([], us)
  | n + 1, need, us =>
    if need = 0 then ([], us) else
    let u := us.headD nullHeader
    let r := us.drop 1
    if u.length ≤ need then
      let x := fmTake n (need - u.length) r
      (u ++ x.1, x.2)
    else (u.take need, u.drop need :: r)

/-- Some lane of the client is at SF. -/
def clientSf (d : Dev) (c : TribCfg) : Bool := (lanesOf d c).isEmpty || (lanesOf d c).any fun n => laneCond d n == .sf

/-- The client's lanes are aligned in Loess, where they are several (R143). -/
def clientAl (d : Dev) (c : TribCfg) : Bool :=
  decide ((lanesOf d c).length < 2) || (tfind d.cli.lanesAl ((lanesOf d c).headD c.lane)).isSome

/-- A sweep with MI = 1 and replacement content (R144, R145). -/
def mapMi (sn : SN) (tid : Nat) (t : Trib) (mp : Mapper) (d : Dev) : Dev :=
  let c := t.cfg
  let x := nominal d c mp.acc
  let fill := if modeOf d c = 2 then 2 else c.cap - x.1
  let d := setTrib d tid { t with map := { mp with acc := x.2 } }
  putWords sn c.wl (sweepWords tid fill true c.ptype (replacement (modeOf d c) (c.cap - fill))) d

/-- The counter kind and object of a client's PCS counts, and the index of BLK_ERR (Table 17-4). -/
def pcsKey (d : Dev) (c : TribCfg) : Nat × Nat × Nat :=
  match modeOf d c with | 3 => (4, c.grp, 2) | 4 => (5, c.lane, 0) | _ => (3, clientKey d c.lane, 2)

/-- The blocks of a FlexE client in a group's sweep (R151): those of the slots that the received calendar in use gives it, in
calendar order, slot by slot and in each slot PHY by PHY. -/
def flxBlocks (d : Dev) (c : TribCfg) (x : FlxIn) : List (BitVec 66) :=
  let cal := (if rdB d F.MAP_FLX_GRP_STATUS_RX_CAL c.grp then (flxOf d c.grp).rxB else (flxOf d c.grp).rxA).toArray
  (List.range ((x.phys.map List.length).foldl max 0)).flatMap fun i =>
    x.phys.zipIdx.filterMap fun p =>
      if (cal[20 * p.2 + (x.first.val + i) % 20]?).getD 0 == BitVec.ofNat 16 c.client then p.1[i]? else none

/-- A client's sweep reaches its PCS (R142, R151): the mapper with the PCS moved on, and the blocks; RS-FEC codewords and
bad blocks are counted (R164). -/
def clientIn (t : TickIn) (d : Dev) (c : TribCfg) (mp : Mapper) : Dev × Mapper × List (BitVec 66) :=
  let key := pcsKey d c
  let fec (d : Dev) (corr unc : Nat) : Dev := if key.1 = 5 then d else count (count d key.1 key.2.1 0 corr) key.1 key.2.1 1 unc
  let done (d : Dev) (mp : Mapper) (bl : List (BitVec 66)) : Dev × Mapper × List (BitVec 66) :=
    (count d key.1 key.2.1 key.2.2 (bl.filter blockBad).length, mp, bl)
  if isFlx d c then match t.flexe.find? fun x => x.grp.val == c.grp with
    | none => (d, mp, [])
    | some x => done d mp (flxBlocks d c x)
  else match t.clients.find? fun x => x.lane.val == clientKey d c.lane with
    | none => (d, mp, [])
    | some x =>
      let y := pcsIn (modeOf d c) mp x.rx
      done (fec d x.fecCorr x.fecUnc) y.1 y.2

/-- `n` words of PRBS31 and the generator's next state (Table 2-3). -/
def testWords (n : Nat) (h : List Bool) : List Word20 × List Bool :=
  let x := prbsRun 5 false (20 * n) h
  (bitsWords n x.1, x.2)

/-- A sweep of a mapper with no client's stream: unequipped, PTYPE 0b000, with words of zeros (DESIGN CHOICE, log entry 143),
or the test pattern, PTYPE 0b110 (R44). -/
def mapTest (sn : SN) (tid : Nat) (t : Trib) (d : Dev) : Dev :=
  let c := t.cfg
  let x := nominal d c t.map.acc
  let w := if c.ptype = 6 then testWords x.1 t.map.prbs else (List.replicate x.1 0, t.map.prbs)
  putWords sn c.wl (sweepWords tid (c.cap - x.1) false c.ptype w.1) (setTrib d tid { t with map := { t.map with acc := x.2, prbs := w.2 } })

/-- The ingress tributary of a client is mapped into device sweep `sn` from what the client gave during the last sweep (R141
to R148, R151). -/
def mapTick (sn : SN) (inp : TickIn) (d : Dev) (tid : Nat) : Dev :=
  match tribOf d tid with
  | none => d
  | some t =>
    if t.cfg.role ≠ 1 then d else
    let c := t.cfg
    let mode := modeOf d c
    let x := clientIn inp d c t.map
    let d := x.1
    let mp := x.2.1
    let bl := x.2.2
    if c.ptype = 0 ∨ c.ptype = 6 then mapTest sn tid { t with map := mp } d
    else if clientSf d c || !clientAl d c then mapMi sn tid t { mp with bits := [], units := [], started := false, ovf := false, cur := none } d
    else if mode = 2 then
      let f := macBlocks mp.cur bl
      let q := f.2.foldl (fmFrame c.lane) (d, mp.units)
      let y := fmTake c.cap (c.cap - 2) q.2
      putWords sn c.wl (sweepWords tid 2 false c.ptype y.1)
        (setTrib q.1 tid { t with map := { mp with units := y.2, started := true, cur := f.1 } })
    else if t.sizeBad then mapMi sn tid t { mp with bits := [], started := false, ovf := false } d
    else
      let bits := mp.bits ++ bl.flatMap blockBits
      let level := bits.length / 20
      let mp := { mp with bits := bits }
      let n := mapWords c level
      if mp.ovf then mapMi sn tid t { mp with started := true, ovf := false } d
      else if level < n then mapMi sn tid t mp (if mp.started then count d 2 tid 9 else d)
      else
        putWords sn c.wl (sweepWords tid (c.cap - n) false c.ptype (bitsWords n bits))
          (setTrib d tid { t with map := { mp with started := true, bits := bits.drop (20 * n) } })

/-! ### The re-justifier -/

/-- One copy of a re-justified tributary is written into device sweep `sn` (R161, R162): maintenance content while its
consumer input is at SF (R132). -/
def rjTick (sn : SN) (d : Dev) (tid k : Nat) : Dev :=
  match tribOf d tid with
  | none => d
  | some t =>
    let ls := copyLanes d t k
    if t.cfg.role ≠ 0 ∨ !copyPlesio d t k then d else
    let c := t.cfg
    let us := t.members k
    let x := t.rj k
    let maint (x : Rj) : Dev := putAll sn us (us.map fun _ => gMaint) (setTrib d tid (t.setRj k x))
    let level := x.buf.length
    let run := (x.buf.takeWhile Option.isSome).filterMap id
    let n := min (dataWords c level) run.length
    if (t.mon (k + 2)).cond == .sf || ls.any fun n => effCond d n == .sf then maint { x with buf := [], started := false, slip := false }
    else if (ls.any fun n => rdB d F.MAP_RJ_STATUS_FREQ_ERR n) then maint { x with buf := x.buf.drop (level - c.cap), slip := false }
    else if x.slip then maint { x with slip := false }
    else if !(x.started || decide (c.cap ≤ level)) then maint x
    else if x.buf.head? = some none then maint { x with started := true, buf := x.buf.drop 1 }
    else if n < minData c then maint { x with started := true, buf := if n < level then x.buf.drop n else x.buf }
    else
      let tag := ((run.head?).map (·.1)).getD 0
      let ws := jwMake (BitVec.ofNat 8 (c.cap - n)) (tag.getLsbD 3) (tag.extractLsb' 0 3) (BitVec.ofNat 19 tid) ::
        (run.take n).map (·.2) ++ List.replicate (c.cap - n) 0xA5A5A#20
      putWords sn us ws (setTrib d tid (t.setRj k { x with started := true, buf := x.buf.drop n }))

/-! ### Demappers -/

/-- Whole blocks that leave in a sweep at the nominal rate, and the remainder. -/
def nominalBlocks (d : Dev) (c : TribCfg) (acc : Nat) : Nat × Nat :=
  if modeOf d c = 2 then (5120 * 2 ^ rd d F.MAP_LANE_CFG_WIDTH c.lane, acc) else
  let w := wClient d c
  ((acc + 20 * w.1) / (66 * w.2), (acc + 20 * w.1) % (66 * w.2))

/-- The places of alignment markers in the next `nb` block positions that a client's PCS sends. -/
def txMarks (d : Dev) (t : Trib) (nb : Nat) : List Bool :=
  let n := t.cfg.lane
  if modeOf d t.cfg = 3 ∨ modeOf d t.cfg = 4 then List.replicate nb false
  else markers (persOf d n) (2 ^ rd d F.MAP_LANE_CFG_WIDTH n) (rdB d F.MAP_LANE_CFG_RSFEC n) t.dem.pos nb

/-- A sweep of a client's blocks goes to its PCS (R155, R158): CPRI bits as they are; a single lane without RS-FEC scrambled,
as bits; else scrambled, with the places of alignment markers; on FlexE for the calendar. -/
def sendBlocks (tid : Nat) (t : Trib) (nb : Nat) (bl : List (BitVec 66)) (d : Dev) : Dev :=
  let n := t.cfg.lane
  let mode := modeOf d t.cfg
  let d := emit d (.client tid bl)
  if mode = 3 then setTrib d tid { t with dem := { t.dem with out := bl } }
  else if mode = 4 then sendLine n (.bits (bl.flatMap blockBits)) (setTrib d tid t)
  else
    let marks := txMarks d t nb
    let x := pcsOut marks t.dem.scr bl
    let d := setTrib d tid { t with dem := { t.dem with scr := x.2, pos := t.dem.pos + nb } }
    let plain := persOf d n == 8 || (persOf d n == 7 && !rdB d F.MAP_LANE_CFG_RSFEC n)
    sendLine n (if plain then .bits ((x.1.filterMap id).flatMap blockBits) else .pcs x.1) d

/-- The failure output of a demapper (Table 6-3, R160); with FAIL_ACT 0b01 the driver is held at its common-mode level. -/
def failOut (tid : Nat) (t : Trib) (last : Option (BitVec 12)) (d : Dev) : Dev :=
  let c := t.cfg
  let x := nominalBlocks d c t.dem.acc
  let dem := { t.dem with last := last, bits := [], lock := false, sh := 0, shBad := 0, blocks := [], started := false, acc := x.2,
                          fail := true, fm := 0, words := [], frames := [], dic := 0, out := [] }
  if rd d F.MAP_LANE_CFG_FAIL_ACT c.lane = 1 then setTrib d tid { t with dem := dem }
  else if modeOf d c = 4 then
    let r := pcsOut (List.replicate x.1 false) t.dem.scr []
    sendBlocks tid { t with dem := { dem with scr := r.2 } } x.1 (r.1.filterMap id) d
  else sendBlocks tid { t with dem := dem } x.1 (List.replicate ((txMarks d t x.1).count false) lfBlock) d

/-- Fills `need` block positions from the frames that wait (R159): blocks not yet sent, then frame after frame with the gap
that follows it, then idles. Frames are counted as they start. -/
def fmSend (key : Nat) : Nat → Nat → Demapper → Dev → Demapper × Dev
  | 0, _, x, d => (x, d)
  | fuel + 1, need, x, d =>
    if need ≤ x.blocks.length then (x, d) else
    match x.frames with
    | [] => (x, d)
    | f :: r =>
      let g := gapBlocks x.dic f.length
      fmSend key fuel need { x with frames := r, dic := g.2, blocks := x.blocks ++ frameBlocks f ++ List.replicate g.1 idleBlock }
        (count (count d 3 key 8) 3 key 9 f.length)

/-- The demapper of an egress tributary takes the sweep that the egress stage has delivered (R48, R49, R155 to R160). Data
words under TYPE 0b000 are ignored (Table 2-3). DESIGN CHOICE (log entry 144): while its buffer fills to the target level it
sends nothing. -/
def demapTick (d : Dev) (tid : Nat) : Dev :=
  match tribOf d tid with
  | none => d
  | some t =>
    if t.cfg.role ≠ 2 then d else
    let c := t.cfg
    let mode := modeOf d c
    let ws := tribWords (c.wl.map fun u => tget 0 d.sw.dlv u)
    let t := { t with c := t.c.see false 0 (ws.headD 0) }
    let j := takeJw c tid t.dem.last (ws.headD 0)
    let hi := j.1.getD 0
    if j.1.isNone || hi.getLsbD 3 || t.c.cond == .sf then failOut tid t j.2 d else
    let x := { t.dem with last := j.2, fail := false, out := [] }
    let words := if hiTag hi &&& 7 = 0 then [] else (ws.drop 1).take (c.cap - hiFill hi)
    let nb := nominalBlocks d c x.acc
    let marks := txMarks d t nb.1
    let take := marks.count false
    if mode = 2 then
      let y := fmSend (clientKey d c.lane) x.frames.length take { x with words := x.words ++ words } d
      let out := y.1.blocks.take take ++ List.replicate (take - y.1.blocks.length) idleBlock
      sendBlocks tid { t with dem := { y.1 with started := true, blocks := y.1.blocks.drop take } } nb.1 out y.2
    else if mode = 4 then
      let bits := x.bits ++ words.flatMap msbBits
      if !(x.started || decide (clientBits d c ≤ bits.length)) then setTrib d tid { t with dem := { x with bits := bits } } else
      let n := min nb.1 (bits.length / 66)
      let out := (pieces 66 n bits).map fun b => BitVec.ofNat 66 (bitsNat b)
      sendBlocks tid { t with dem := { x with bits := bits.drop (66 * n), started := true, acc := nb.2, prev := out.getLastD x.prev } } nb.1 out d
    else
      let bits := x.bits ++ words.flatMap msbBits
      let s := blockScan bits.length (x.lock, x.sh, x.shBad) bits []
      let bl := x.blocks ++ s.2.1.reverse
      let x := { x with bits := s.2.2, lock := s.1.1, sh := s.1.2.1, shBad := s.1.2.2 }
      let target := targetBlocks d c
      if !(x.started || decide (target ≤ bl.length)) then setTrib d tid { t with dem := { x with blocks := bl } } else
      let out := bl.take take ++ List.replicate (take - bl.length) idleBlock
      let prev := out.getLastD x.prev
      -- room for the markers just placed (R158)
      let rest := (idleDel (nb.1 - take) prev (bl.drop take)).1
      let level := rest.length
      let key := idleKey d c
      let r := if target + 32 < level then idleDel (level - target - 32) prev rest
        else if level + 32 < target then idleIns (target - level - 32) prev rest else (rest, 0)
      let d := if target + 32 < level then count d key.1 key.2.1 (key.2.2 + 1) r.2
        else if level + 32 < target then count d key.1 key.2.1 key.2.2 r.2 else d
      sendBlocks tid { t with dem := { x with blocks := r.1, started := true, acc := nb.2, prev := prev } } nb.1 out d

/-! ### FlexE and lanes without a client -/

/-- The calendar of a group as its transmit side visits it: calendar slots in order, and in each the PHYs in increasing PHY
number. PRESUMED (log entry 145): the FlexE agreement's round robin. -/
def calOrder (d : Dev) (g : Nat) : List Nat :=
  (List.range 20).flatMap fun s => (flxPhys d g).map fun p => p * 32 + s

/-- The overhead that a PHY of a group sends (R153), the calendar-in-use, CR and CA bits among it. -/
def flxTx (d : Dev) (g p : Nat) : FlxTx :=
  let x := flxOf d g
  let cal (t : Tbl (BitVec 16)) : List Nat := (List.range 20).map fun s => (tget 0 t (p * 32 + s)).toNat
  let o : FlxTx := { group := rd d F.MAP_FLX_GRP_CFG_GRP_NUM g, phy := p, map := flxPhys d g, calA := cal x.txA, calB := cal x.txB,
                     inUse := rdB d F.MAP_FLX_GRP_STATUS_TX_CAL g, cr := x.cr, ca := x.caOut, crc := 0 }
  { o with crc := Config.flexeCrc ([o.group, o.phy] ++ o.map ++ o.calA ++ o.calB ++ [o.inUse.toNat, o.cr.toNat, o.ca.toNat]) }

/-- One round of the calendar: the block of each slot in order, the queues' next blocks for assigned slots, an error control
block for the others. -/
def calRound (owner : List Nat) (q : Tbl (List (BitVec 66))) : Tbl (List (BitVec 66)) × List (BitVec 66) :=
  owner.foldl (fun x c =>
    if c = 0 then (x.1, x.2 ++ [errBlock]) else
    let l := tget [] x.1 c
    (tput [] x.1 c (l.drop 1), x.2 ++ [l.headD idleBlock])) (q, [])

/-- A group's transmit side sends a sweep (R153): 128 rounds of its calendar, and each PHY's overhead. -/
def flxSend (d : Dev) (g : Nat) : Dev :=
  let phys := flxPhys d g
  if !rdB d F.MAP_FLX_GRP_CFG_EN g || phys.isEmpty then d else
  let owner := (calOrder d g).map fun k => (tget 0 (flxActive d g) k).toNat
  let q : Tbl (List (BitVec 66)) := d.cli.tribs.foldl (fun q e =>
    if e.2.cfg.role = 2 ∧ isFlx d e.2.cfg ∧ e.2.cfg.grp = g then tput [] q e.2.cfg.client e.2.dem.out else q) []
  let slots := ((List.range 128).foldl (fun (x : Tbl (List (BitVec 66)) × List (List (BitVec 66))) _ =>
    let y := calRound owner x.1
    (y.1, y.2 :: x.2)) (q, [])).2.reverse.flatten.zipIdx
  (flxLanes d g).zipIdx.foldl (fun d n =>
    sendLine n.1 (.flexe (flxTx d g (rd d F.MAP_LANE_FLX_PHY_NUM n.1)) (slots.filterMap fun b => if b.2 % phys.length = n.2 then some b.1 else none)) d) d

/-- Every enabled group sends. -/
def flxAll (d : Dev) : Dev :=
  if (List.range 128).any fun n => rd d F.MAP_LANE_CFG_MODE n == 3 then (List.range 128).foldl flxSend d else d

/-- A client lane whose mode is wrong sends the failure output of its personality (R137). -/
def badModes (d : Dev) : Dev :=
  (List.range 128).foldl (fun d n =>
    if isClient (persOf d n) && driverOn d n && !modeGood d n then sendLine n (.fail (decide (9 ≤ persOf d n))) d else d) d

/-! ### The tick -/

/-- The ingress pages of device sweep `sn` are opened: client lanes carry nothing but tributaries (R36, R145), and
plesiochronous lanes only re-justified ones (R82); of a lane at SF, every position is maintenance content (R36). -/
def openPages (sn : SN) (d : Dev) : Dev :=
  (List.range 128).foldl (fun d n =>
    if isClient (persOf d n) || (isGlf (persOf d n) && rdB d F.FRM_RX_CFG_PLESIO n) then
      setIng d sn n { fill := if laneCond d n = .sf then gMaint else 0 }
    else d) d

/-- Everything that maps into device sweep `sn`. -/
def mapAll (sn : SN) (inp : TickIn) (d : Dev) : Dev :=
  let d := inp.flexe.foldl (fun d x => count (count d 4 x.grp.val 0 x.fecCorr) 4 x.grp.val 1 x.fecUnc) (openPages sn d)
  let tids := d.cli.tribs.map (·.1)
  tids.foldl (fun d tid => rjTick sn (rjTick sn (mapTick sn inp d tid) tid 0) tid 1) d

/-- Every demapper, the FlexE calendars, and the lanes without a client. -/
def demapAll (d : Dev) : Dev := badModes (flxAll ((d.cli.tribs.map (·.1)).foldl demapTick d))

end Sys2Proof.Machine
end

