-- ==== Sys2Proof/Machine/Matrix.lean ====
section
/-! DEFINITION. The bus matrix of the control complex (R377, R388 to R390): the core address map, transactions by ID, bursts in
pieces, arbitration per slave, responses in issue order per slave, FENCE. Masters: 0 and 1 the cores, 2 the debug access port,
3 the PCIe BAR0 completer. -/

namespace Sys2Proof.Machine

/-- Transaction ID: the master in [4:3], a tag in [2:0]. -/
def mtxId (m tag : Nat) : BitVec 5 := BitVec.ofNat 5 (8 * (m % 4) + tag % 8)
def mtxMaster (i : BitVec 5) : Nat := (i.extractLsb' 3 2).toNat

/-- Table 15-6: the BAR0 completer reaches the registers (slave 1) only. -/
def mtxPath (m s : Nat) : Bool := m != 3 || s == 1

/-- The slave of an access by the core address map (Table 15-2): none where it takes an access fault, and none for a core's
own memories, which it reaches without the matrix. Atomics are AMOADD.D and AMOSWAP.D in the scratchpad only (Table 15-4). -/
def mtxSlave (q : MtxReq) : Option Nat :=
  let a := q.addr.toNat
  let any := [1, 2, 4, 8].contains q.bytes
  let sp := decide (0x20000000 ≤ a ∧ a < 0x20400000)
  if q.other || (q.amo && !(sp && q.bytes == 8 && a % 8 == 0)) then none
  else if a < 0x10000 then if any && !q.store then some 3 else none
  else if 0x19000000 ≤ a ∧ a < 0x19060000 then if q.bytes = 8 then some 2 else none
  else if sp then if any then some 0 else none
  else if 0x40000000 ≤ a ∧ a < 0x44000000 then if q.bytes = 4 then some 1 else none
  else if 0x50000000 ≤ a ∧ a < 0x50040000 then if q.bytes = 8 then some 4 else none
  else if 0x60000000 ≤ a ∧ a < 0x60001000 then if q.bytes = 4 then some 5 else none
  else none

/-- The pieces of a burst: it is split at every 64-byte boundary, which is at most 8 beats; atomics and accesses to the
registers are single beats (R390). -/
def mtxPieces (q : MtxReq) (s : Nat) : Nat :=
  if q.amo || s == 1 || q.beats == 0 then 1 else (q.addr.toNat % 64 + 8 * q.beats + 63) / 64

/-- The transactions of a master. -/
def mtxOf (x : Mtx) (m : Nat) : List MtxTx := x.out.filter fun t => mtxMaster t.id == m

/-- A master issues a transaction, with its lowest free tag. It does not while it has 8 outstanding, nor a core at a FENCE;
an access without a slave or a path is answered with an error, and nothing is issued (R377, R388). -/
def mtxIssue (x : Mtx) (q : MtxReq) : Mtx :=
  match mtxSlave q with
  | none => x
  | some s =>
    if !mtxPath q.m s || x.fence.contains q.m.val then x else
    match (List.range 8).find? fun t => !(mtxOf x q.m).any (·.id == mtxId q.m t) with
    | some t => { x with out := x.out ++ [{ id := mtxId q.m t, slave := s, left := mtxPieces q s }] }
    | none => x

/-- The transaction with which a master requests slave `s`: its oldest there with a piece not granted. -/
def mtxReq (x : Mtx) (s m : Nat) : Option MtxTx := (mtxOf x m).find? fun t => t.slave == s && t.left != 0

/-- The priority of a request: that of CTL_MTX_PRIO, or the highest after 64 cycles of waiting. -/
def mtxPrio (d : Dev) (s m waited : Nat) : Nat := if 64 ≤ waited then 4 else rd d F.CTL_MTX_PRIO_PRIO s / 4 ^ m % 4

/-- The request that slave `s` grants: the highest priority, in rotation after the master it granted last. -/
def mtxGrant (d : Dev) (x : Mtx) (s : Nat) : Option MtxTx :=
  let order := (List.range 4).map fun i => ((x.last.getD s 3) + 1 + i) % 4
  (order.foldl (fun (b : Option (Nat × MtxTx)) m => match mtxReq x s m, b with
    | some t, some y => if y.1 < mtxPrio d s m t.wait then some (mtxPrio d s m t.wait, t) else b
    | some t, none => some (mtxPrio d s m t.wait, t)
    | none, _ => b) none).map (·.2)

/-- One arbitration of slave `s`: one piece is granted, and every other request there has waited one cycle more. -/
def mtxArb (d : Dev) (x : Mtx) (s : Nat) : Mtx :=
  match mtxGrant d x s with
  | none => x
  | some g => { x with
      last := lset x.last s (mtxMaster g.id)
      out := x.out.map fun t => if t.id = g.id then { t with left := t.left - 1, wait := 0 }
        else if mtxReq x s (mtxMaster t.id) == some t then { t with wait := t.wait + 1 } else t }

/-- Slave `s` answers master `m`: responses of one slave return in issue order (R389). -/
def mtxAnswer (x : Mtx) (s m : Nat) : Mtx :=
  match (mtxOf x m).find? fun t => t.slave == s with
  | some t => if t.left = 0 then { x with out := x.out.erase t } else x
  | none => x

/-- A core passes its FENCE once none of its transactions is outstanding. -/
def mtxFence (x : Mtx) : Mtx := { x with fence := x.fence.filter fun m => !(mtxOf x m).isEmpty }

/-- One matrix cycle. -/
def mtxCycle (d : Dev) (x : Mtx) (c : MtxIn) : Mtx :=
  let x := { x with fence := (x.fence ++ c.fence.map (·.val)).dedup }
  let x := c.issue.foldl mtxIssue (mtxFence x)
  let x := (List.range 6).foldl (mtxArb d) x
  mtxFence (c.answer.foldl (fun x a => mtxAnswer x a.1 a.2) x)

/-- The cycles of a sweep. -/
def mtxTick (t : TickIn) (d : Dev) : Dev := { d with ctl := { d.ctl with mtx := t.mtx.foldl (mtxCycle d) d.ctl.mtx } }

end Sys2Proof.Machine
end

