-- ==== Sys2Proof/Machine/TwinLink.lean ====
section
/-! DEFINITION. The lanes of the twin link (R292, R299 to R301): their framers, the record stream that they carry, and the
heartbeat. -/

namespace Sys2Proof.Machine

/-- Updates the twin unit's own state. -/
def onTwin (d : Dev) (f : Twin → Twin) : Dev := { d with twin := f d.twin }

/-- The sweep that a twin-link receiver decodes, with K = 16. -/
def twSweep (x : RxIn) : RxSweep :=
  match x with
  | .words r => r
  | .line prev l => decodeSweep 16 (ofLevels true false prev l)

/-- The raw match on a twin-link lane (R110). -/
def twRaw (x : RxIn) : Bool :=
  match x with
  | .words r => (ohAt r 0).1 == 0xF3A58 && (ohAt r 1).1 == 0x0C5A7
  | .line prev l =>
    let b := ofLevels true false prev l
    b.take 20 == msbBits (0xF3A58 : Word20) && (b.drop 5440).take 20 == msbBits (0x0C5A7 : Word20)

/-- SN tracking on a twin-link lane whose SN has advanced (R115). -/
def twTrack (r : RxSweep) (l : TwLane) : TwLane :=
  match l.lock, snPair r with
  | true, none => l
  | true, some s =>
    if s = l.sn then { l with snRun := 0 }
    else if l.snRun + 1 < 3 then { l with snRun := l.snRun + 1 }
    else { l with lock := false, snRun := 0, snPrev := some s }
  | false, none => { l with snPrev := none }
  | false, some s => if l.snPrev = some (s - 1) then { l with lock := true, sn := s, snPrev := none, snRun := 0 } else { l with snPrev := some s }

/-- The framer of a twin-link lane takes a sweep at alignment `off` (R110 to R115). -/
def twFrame (off : Nat) (x : RxIn) (l : TwLane) : TwLane :=
  let r := twSweep x
  if l.st = 2 then
    if l.align ≠ some off then l
    else if !fawGood r && decide (3 ≤ l.faw) then { sn := l.sn }
    else twTrack r { l with faw := if fawGood r then 0 else l.faw + 1, sn := l.sn + 1 }
  else match l.cands.find? (·.1 == off) with
    | some c =>
      if fawGood r && snPair r == some (c.2 + 1) then { st := 2, align := some off, lock := true, sn := c.2 + 1 }
      else
        let rest := l.cands.filter (·.1 != off)
        { l with st := if rest = [] then 0 else 1, cands := rest }
    | none => match snPair r with
      | some s => if twRaw x && decide (l.cands.length < 4) then { l with st := 1, cands := l.cands ++ [(off, s)] } else l
      | none => l

/-- The payload words of a sweep by codeword, `none` for those of an uncorrectable one (R56, R58, R300). -/
def twWords (r : RxSweep) : List (List (Option Word20)) :=
  (List.range 16).map fun k => (List.range 256).map fun p =>
    if (ohAt r k).2 then some (gWord (pageAt r.grains ((256 * k + p) % 512)) ((256 * k + p) / 512)) else none

/-- The record stream of a sweep: within each codeword the lanes in turn (R300). -/
def twStream (rs : List RxSweep) : List (Option Word20) :=
  let ls := rs.map twWords
  (List.range 16).flatMap fun k => ls.flatMap fun l => l.getD k []

/-- What the reader of the record stream holds: the records taken, those discarded, and the words that begin one not yet
complete. -/
structure TwRead where
  recs : List (Nat × List Word20) := []
  bad : Nat := 0
  rest : List (Option Word20) := []
deriving DecidableEq, Repr

/-- Reads records (R300): pads pass; a record with an unreadable word, a wrong CRC or a reserved TYPE is discarded and
counted. DESIGN CHOICE (log entry 152): an unreadable header is discarded with the unreadable words after it as one record,
and a header of TYPE 0x00 that is no pad as a record of that one word. -/
def readRecords : Nat → List (Option Word20) → TwRead → TwRead
  | 0, ws, x => { x with rest := ws }
  | _, [], x => x
  | n + 1, some h :: ws, x =>
    let typ := (h.extractLsb' 14 6).toNat
    let len := (h.extractLsb' 0 14).toNat
    if h = 0 then readRecords n ws x
    else if typ = 0 then readRecords n ws { x with bad := x.bad + 1 }
    else if ws.length < len + 1 then { x with rest := some h :: ws }
    else
      let body := (ws.take (len + 1)).filterMap id
      let pay := body.take len
      let ok := body.length == len + 1 && body.drop len == (recordWords (BitVec.ofNat 6 typ) pay).drop (len + 1) && decide (typ ≤ 0xC)
      readRecords n (ws.drop (len + 1)) (if ok then { x with recs := x.recs ++ [(typ, pay)] } else { x with bad := x.bad + 1 })
  | n + 1, none :: ws, x => readRecords n (ws.dropWhile Option.isNone) { x with bad := x.bad + 1 }

/-- The four lanes are in frame, and they agree on the SN with their tracking locked (R302). -/
def twInFrame (d : Dev) : Bool := d.twin.tl.all fun l => l.st == 2
def twAgree (d : Dev) : Bool := twInFrame d && d.twin.tl.all fun l => l.lock && some l.sn == d.twin.tl.head?.map (·.sn)

/-- TWN_LINK_STATUS.INFRAME of four framers. -/
def twBits (tl : List TwLane) : Nat := tl.zipIdx.foldl (fun m x => if x.1.st = 2 then m + 2 ^ x.2 else m) 0

/-- What the twin-link receivers took in (R299, R300). A sweep that a lane does not bring leaves a gap in the stream. -/
def twReceive (t : TickIn) (d : Dev) : Dev :=
  if !d.twin.on ∨ t.twl = [] then d else
  let d := onTwin d fun w => { w with tl := w.tl.mapIdx fun q l => (t.twl.filter (·.1.val == q)).foldl (fun l x => twFrame x.2.1 x.2.2 l) l }
  let d := wr d F.TWN_LINK_STATUS_INFRAME 0 (twBits d.twin.tl)
  let rs := d.twin.tl.zipIdx.filterMap fun x => (t.twl.find? fun y => y.1.val == x.2 && x.1.align == some y.2.1).map fun y => twSweep y.2.2
  let ws := if twAgree d ∧ rs.length = 4 then twStream rs else [none]
  let ws := if ws = [none] ∧ d.twin.rxw = [] then [] else d.twin.rxw ++ ws
  let x := readRecords ws.length ws {}
  let d := onTwin d fun w => { w with rxw := x.rest, inbox := w.inbox ++ x.recs }
  if x.bad = 0 then d else sat d F.TWN_LINK_ERR 0 x.bad

/-- A record command takes up the oldest record of its TYPE that the link has brought. -/
def takeRecord (typ : Nat) (d : Dev) : Dev :=
  onTwin d fun w => { w with inbox := match w.inbox.find? (·.1 == typ) with | some r => w.inbox.erase r | none => w.inbox }

/-! ### Sending -/

/-- The words of one record on the link. -/
def twRecord (x : Nat × Nat × List Nat) : List Word20 := recordWords (BitVec.ofNat 6 x.2.1) (Config.recordPayload x.2.1 x.2.2)

/-- The records waiting, in the order of R301. -/
def twOrder (q : List (Nat × Nat × List Nat)) : List (Nat × Nat × List Nat) :=
  q.filter (·.1 == 0) ++ q.filter (·.1 == 1) ++ q.filter (·.1 == 2)

/-- The place of word `p` of codeword `k` of lane `q` in the record stream, and the lane of a place. -/
def twPlace (k q p : Nat) : Nat := 1024 * k + 256 * q + p

/-- The share of a lane's payload in its BIP-8 (R67); pads have none. -/
def twBip (stream : List Word20) (oh : List Word20) (q : Nat) : BitVec 8 :=
  stream.zipIdx.foldl (fun a x => if x.2 / 256 % 4 = q then a ^^^ bipWord x.1 else a) ((oh.drop 2).foldl (fun a w => a ^^^ bipWord w) 0)

/-- The overhead words of twin-link lane `q` in sweep `sn` (R299). -/
def twOh (d : Dev) (sn : SN) (q : Nat) : List Word20 :=
  let s := sn.toNat
  let bip := twBip d.twin.sent' (d.twin.txoh.getD q []) q
  let head := [0xF3A58, 0x0C5A7, q + 4 * (rd d F.TWN_CFG_UNIT), s / 4096, s % 4096 * 256 + bip.toNat]
  (head ++ List.replicate 11 0).map (BitVec.ofNat 20)

/-- The bits of lane `q` of a twin-link sweep (R54 to R60): the stream's words, then pads. -/
def twLaneBits (oh : List (List Word20)) (stream : List Word20) (q : Nat) : List Bool :=
  sweepBits 16 (oh.getD q []) fun g => gMake ((List.range 8).map fun i =>
    (stream[twPlace ((512 * i + g) / 256) q ((512 * i + g) % 256)]?).getD 0)

/-- The sweep `sn` of the twin link (R299 to R301): what the last one cut off, then the records in their order. -/
def twTransmit (sn : SN) (d : Dev) : Dev :=
  if !d.twin.on then d else
  let ws := d.twin.txw ++ (twOrder d.twin.txq).flatMap twRecord
  let oh := (List.range 4).map (twOh d sn)
  emit (onTwin d fun w => { w with txq := [], txw := ws.drop 16384, sent' := ws.take 16384, txoh := oh }) (.twinSweep oh (ws.take 16384))

/-- The heartbeat (R292): TW_ALIVE_OUT toggles at each tick, but from the tick of the entry sweep on (R485 step 3; after a
thermal request too, R496). -/
def heartbeat (sn : SN) (d : Dev) : Dev :=
  let p := d.pwr
  if p.hbOff || (p.st == .entry && p.entryT.any (snDue · sn)) then d
  else emit (onTwin d fun w => { w with alive := !w.alive }) (.alive (!d.twin.alive))

end Sys2Proof.Machine
end

