-- ==== Sys2Proof/Machine/Sweep.lean ====
section
/-! DEFINITION. The device sweep tick (R33): what the stages of the switch core have done in the sweep that ends (chapter
8), and what the sweep that opens is given: overhead snapshots (R61), mapped clients, twin records. The sweep that ends
is `sn`; its ingress grains are read out in `sn + 1`; the readout of `sn - 1` and the egress read of `sn - 2` took place
in it (Table 8-10). -/

namespace Sys2Proof.Machine

/-! ### Beats and the buffers -/

/-- The tag of a beat (Table 8-4). -/
def beatTag (valid rtag fine cmerr : Bool) (slot : Nat) : BitVec 8 :=
  BitVec.ofNat 8 (valid.toNat + 2 * rtag.toNat + 4 * fine.toNat + 8 * cmerr.toNat + 16 * (slot / 8 % 16))

def Beat.valid (b : Beat) : Bool := b.tag.getLsbD 0
def Beat.rtag (b : Beat) : Bool := b.tag.getLsbD 1
def Beat.cmerr (b : Beat) : Bool := b.tag.getLsbD 3

/-- The readout cycle modulo 16 in which a center slot's beat is sent and written (R182, R188). -/
def cycOf (slot : Nat) : BitVec 4 := BitVec.ofNat 4 (slot / 8)

/-- The egress buffer half (R183) and the fine memory half (R203) of sweep parity `h`. -/
def egbOf (s : Switch) (h : Bool) : Tbl Beat := if h then s.egb1 else s.egb0
/-- The beat that slot `slot` of egress port `port` holds in half `h`: one not listed is idle, with its cycle's tag. -/
def egBeat (s : Switch) (h : Bool) (port slot : Nat) : Beat :=
  (tfind (egbOf s h) (port * 4096 + slot)).getD { tag := beatTag false false false false slot }
def finOf (s : Switch) (h : Bool) : Tbl Grain := if h then s.fin1 else s.fin0
def setEgb (d : Dev) (h : Bool) (b : Tbl Beat) : Dev := { d with sw := if h then { d.sw with egb1 := b } else { d.sw with egb0 := b } }
def setFin (d : Dev) (h : Bool) (b : Tbl Grain) : Dev := { d with sw := if h then { d.sw with fin1 := b } else { d.sw with fin0 := b } }

/-- Sweep parity: the half of a sweep. -/
def parity (sn : SN) : Bool := sn.getLsbD 0

/-- The word of output fine slot `f` assembled from half `h` under page `pg` (R203, R204). -/
def fineWord (d : Dev) (pg : CmPage) (h : Bool) (f : Nat) : Word20 :=
  let x := finAt pg f
  let s := (x.extractLsb' 0 16).toNat
  if d.sw.fineOut.contains f then 0xFFFFF#20 else if x.getLsbD 16 then gWord (tget 0 (finOf d.sw h) (s / 8)) (s % 8) else 0

/-- FINE_CM_ERR (R204): entries of the page now read whose parity fails are reported once, and their slots go to 0xF_FFFF. -/
def fineCheck (sn : SN) (page : Bool) (d : Dev) : Dev :=
  let odd := ((cmOf d.sw page).fine.filter fun e => !evenParity e.2).map (·.1)
  let new := (odd ++ (d.sw.fineBad.filter fun b => b.1 == page).map (·.2)).dedup.filter fun f => !d.sw.fineOut.contains f
  let d := { d with sw := { d.sw with fineBad := d.sw.fineBad.filter fun b => b.1 != page, fineOut := d.sw.fineOut ++ new } }
  new.foldl (fun d f => raise d { typ := 0x43, sn := sn, p0 := f }) d

/-- The ingress grain of sweep `src` at a port: from the sweep buffer, or from the fine stage, which assembles it from
the words of the sweep before (R203). -/
def ingGrain (d : Dev) (src : SN) (page : Bool) (port g : Nat) : Grain :=
  if port < 128 then pageAt (ingPage d src port) g
  else gMake ((List.range 8).map fun i => fineWord d (cmOf d.sw page) (!parity src) (((port - 128) * 2048 + g) * 8 + i))

/-! ### Memory errors (R32) -/

/-- CM_UNCORRECTABLE for an entry. -/
def cmEvent (sn : SN) (d : Dev) (mem key : Nat) : Dev :=
  let p := match mem with
    | 0 => (key / 4096, key % 4096)
    | 1 => (key / 132 % 8, key / 132 / 8 * 132 + key % 132)
    | _ => (key / 2048, key % 2048)
  raise d { typ := 0x41, sn := sn, p0 := mem, p1 := p.1, p2 := p.2 }

/-- New errors: single-bit ones are corrected and counted; double-bit ones wait for the read that finds them. -/
def eccIn (e : List CmEcc) (f : List (Bool × BitVec 16)) (d : Dev) : Dev :=
  let single := (e.filter fun x => !x.dbl).length
  let dbl := (e.filter fun x => x.dbl && x.mem.val != 3 && !(d.sw.bad.any fun b => b.1 == x.page && b.2.1 == x.mem.val && b.2.2.1 == x.key)).map
    fun x => (x.page, x.mem.val, x.key, false)
  let fine := (f.map fun x => (x.1, x.2.toNat)).filter fun x => !d.sw.fineBad.contains x
  { d with sw := { d.sw with corr := d.sw.corr + single, bad := d.sw.bad ++ dbl.dedup, fineBad := d.sw.fineBad ++ fine.dedup } }

/-- Ingress and center entries of the page that the readout reads: an error found for the first time is reported. -/
def readoutCheck (sn : SN) (page : Bool) (d : Dev) : Dev :=
  let hit (b : Bool × Nat × Nat × Bool) : Bool := b.1 == page && decide (b.2.1 < 2)
  let new := d.sw.bad.filter fun b => hit b && !b.2.2.2
  let d := { d with sw := { d.sw with bad := d.sw.bad.map fun b => if hit b then (b.1, b.2.1, b.2.2.1, true) else b } }
  new.foldl (fun d b => cmEvent sn d b.2.1 b.2.2.1) d

/-- An ingress (0) or center (1) entry of a page is uncorrectable. -/
def entryBad (d : Dev) (page : Bool) (mem key : Nat) : Bool := d.sw.bad.any fun b => b.1 == page && b.2.1 == mem && b.2.2.1 == key

/-- Egress grains whose egress or selector entry is found uncorrectable in this read. -/
def egressBad (t : List CmEcc) (page : Bool) (d : Dev) : List (Nat × Nat) :=
  ((d.sw.bad.filter fun b => b.1 == page && b.2.1 == 2).map fun b => (2, b.2.2.1)) ++
    (t.filter fun x => x.dbl && x.mem.val == 3).map fun x => (3, x.key)

/-! ### The readout -/

/-- A slot of an egress port is frozen in the half now written (R200). -/
def frozenIn (d : Dev) (h : Bool) (port slot : Nat) : Bool :=
  d.sw.sel.any fun x => x.1 / 2048 == port && !x.2.ending && x.2.frz == some (slot, h)

/-- The sweep-start marker (Table 1-4). -/
def marker (sn : SN) (page step : Bool) : BitVec 40 :=
  let low : BitVec 34 := BitVec.ofBool step ++ BitVec.ofBool page ++ sn
  (List.range 6).foldl (fun (m : BitVec 40) i =>
    if (List.range 6).foldl (fun b j => b != low.getLsbD (i + 6 * j)) false then m ||| BitVec.ofNat 40 (2 ^ (34 + i)) else m) (low.setWidth 40)

/-- CHK of a marker holds. -/
def markOk (w : BitVec 40) : Bool := marker (w.extractLsb' 0 32) (w.getLsbD 32) (w.getLsbD 33) == w

/-- An enabled input of a plane (R19): the fine stage's ports, and lanes whose receiver is enabled. DESIGN CHOICE (log entry
146): the spec does not say what enables an input. -/
def inputOn (d : Dev) (i : Nat) : Bool := decide (128 ≤ i) || rdB d F.LNE_CTL_RX_EN i

/-- What a plane makes of the markers that lead the grains of sweep `src` (R19): the marker that most enabled inputs carry,
and the inputs that disagree. -/
def markVote (d : Dev) (t : TickIn) (src : SN) (page : Bool) (p : Nat) : BitVec 40 × List Nat :=
  let own := marker src page (stepIn d src)
  let got := (t.marks.filter fun m => m.plane.val == p && inputOn d m.input.val).map fun m => (m.input.val, m.word)
  if got.isEmpty then (own, []) else
  let words := (List.range 132).filterMap fun i =>
    if inputOn d i then some (i, ((got.find? (·.1 == i)).map (·.2)).getD own) else none
  let votes (w : BitVec 40) : Nat := (words.filter fun x => x.2 == w).length
  let maj := (got.filter fun x => markOk x.2).foldl (fun a x => if votes a < votes x.2 then x.2 else a) own
  (maj, (words.filter fun x => x.2 != maj).map (·.1))

/-- The beat that center slot `slot` brings to output `out` in the readout of sweep `src` (R182, R186, R188), if it is not
idle; `vote` is what each plane makes of its markers. A free payload stands for content that the manual leaves undefined
(R210, R344). -/
def beatFor (d : Dev) (t : TickIn) (vote : List (BitVec 40 × List Nat)) (src : SN) (page : Bool) (slot out : Nat) : Option Beat × Bool :=
  let p := slot % 8
  let mk := vote.getD p (0, [])
  let cpage := mk.1.getLsbD 32
  if entryBad d cpage 1 (slot * 132 + out) then (some { tag := beatTag false false false true slot }, false) else
  let i := (cenAt (cmOf d.sw cpage) slot out).toNat
  if 132 ≤ i ∨ planeSt d p = 3 then (none, false)
  else if entryBad d page 0 (i * 4096 + slot) then (some { tag := beatTag false false false true slot }, false) else
  let x := ingAt (cmOf d.sw page) i slot
  if !x.getLsbD 11 then (none, false) else
  let g := x.toNat % 2048
  let undef := mk.2.contains i || t.planes.any fun q => q.plane.val == p && q.late.contains (out, slot)
  (some { tag := beatTag true (d.pm.tagged1 == some (i, g)) (decide (128 ≤ i)) false slot,
          pay := if undef then Config.freeGrain d.free else ingGrain d src page i g }, undef)

/-- The readout of sweep `src` under its page fills its egress buffer half (R182, R183): every slot is written but those
of a retired plane and frozen ones. -/
def readout (t : TickIn) (src : SN) (page : Bool) (d : Dev) : Dev :=
  let h := parity src
  let vote := (List.range 8).map (markVote d t src page)
  let keys := ((((cmOf d.sw page).cen ++ (cmOf d.sw (!page)).cen).map (·.1)) ++
    (d.sw.bad.filter fun b => b.2.1 == 1).map fun b => b.2.2.1).dedup
  let keep (port slot : Nat) : Bool := planeSt d (slot % 8) == 2 || frozenIn d h port slot
  let old := (egbOf d.sw h).filter fun e => keep (e.1 / 4096) (e.1 % 4096)
  let r := keys.foldl (fun (a : Dev × Tbl Beat) k =>
    let slot := k / 132
    let out := k % 132
    if keep out slot then a else
    match beatFor a.1 t vote src page slot out with
    | (some b, u) => (if u then freed a.1 else a.1, tput {} a.2 (out * 4096 + slot) b)
    | (none, _) => a) (d, old)
  setEgb r.1 h r.2

/-! ### The egress read -/

/-- What an egress grain reads. -/
structure Rd where
  g : Grain
  slot : Nat
  half : Bool
  mi : Bool
  cm : Bool
  noSrc : Bool
  rtag : Bool
deriving DecidableEq, Repr

/-- The read of one egress grain (R189, R198, R200 to R202). -/
def readOne (d : Dev) (pg : CmPage) (h vl : Bool) (u : Nat) : Rd :=
  let x := selAt d u
  let e := egrAt pg u
  let fr := if vl then none else x.frz
  let loc := fr.getD (if x.sel then pCs e else wCs e, h)
  let b := egBeat d.sw loc.2 (portOf u) loc.1
  let on := fr.isSome || egrEn e
  let cm := on && b.cmerr
  let mi := x.ecc || x.pmi || cm
  { g := if mi then gMaint else if on && b.valid then b.pay else 0, slot := loc.1, half := loc.2, mi := mi, cm := cm,
    noSrc := egrEn e && fr.isNone && !mi && !b.valid, rtag := on && b.valid && b.rtag }

/-- The grains that an egress read can find something for: connected ones and those with a selector entry. -/
def readUnits (d : Dev) (pg : CmPage) (vl : Bool) : List Nat :=
  ((pg.egr.map (·.1)) ++ d.sw.sel.map (·.1)).dedup.filter fun u => decide (128 ≤ portOf u) == vl

/-- After a read of grain `u`: the reason "beat with CMERR", the end of an ended hold, and a new hold, which freezes the
slot just read (R200, R201). -/
def afterRead (ecc vl : Bool) (r : Rd) (x : Sel) : Sel :=
  let x := { x with cmerr := r.cm, ecc := x.ecc || ecc }
  let x := if x.ending then { x with ending := false, frz := none, sel := x.selPend.getD x.sel, selPend := none } else x
  if (x.ecc || x.promo) && x.frz.isNone && !vl then { x with frz := some (r.slot, r.half) } else x

/-- One grain is read: its trace, its reasons, and what it delivers. -/
def readStep (sn : SN) (pg : CmPage) (h vl : Bool) (bad : List (Nat × Nat)) (a : Dev × Tbl Grain × List Nat) (u : Nat) :
    Dev × Tbl Grain × List Nat :=
  let d := a.1
  let ecc := bad.any fun b => b.2 == u
  let r := readOne d pg h vl u
  let g := if ecc && !r.mi then Config.freeGrain d.free else r.g
  let x := selAt d u
  let d := if ecc && !r.mi then freed d else d
  let d := if r.rtag then trace d sn 2 u (r.slot + 4096 * (r.slot % 8) + 2 ^ 15 * x.sel.toNat + 2 ^ 16 * x.hold.toNat + 2 ^ 17 * r.mi.toNat)
      (crc16 (msbBits g)).toNat else d
  (modSel d u (afterRead ecc vl r), tput 0 a.2.1 (if vl then u - 128 * 2048 else u) g, if r.noSrc then portOf u :: a.2.2 else a.2.2)

/-- A read of every egress grain of the lanes, or of the VL ports (R183, R203). Answers what is delivered. -/
def readAll (sn : SN) (t : TickIn) (page h vl : Bool) (d : Dev) : Dev × Tbl Grain :=
  let bad := (egressBad t.ecc page d).filter fun b => decide (128 ≤ portOf b.2) == vl
  let d := bad.foldl (fun d b => cmEvent sn d b.1 b.2) d
  let d := { d with sw := { d.sw with bad := d.sw.bad.filter fun b => !(b.1 == page && b.2.1 == 2 && bad.contains (2, b.2.2.1)) } }
  let pg := cmOf d.sw page
  let us := (readUnits d pg vl ++ bad.map (·.2)).dedup
  let r := us.foldl (readStep sn pg h vl bad) (d, [], [])
  let d := r.2.2.dedup.foldl (fun d p => raise d { typ := 0x42, sn := sn, p0 := p }) r.1
  (d, r.2.1)

/-! ### Planes -/

/-- The slack of a plane and what follows from it and from its beats and markers (R19, R188, R208, R209, R214, R216). A plane
that the command lists no measurement for measures what it measured last. -/
def planeTick (sn : SN) (t : TickIn) (page : Bool) (d : Dev) (p : Nat) : Dev :=
  let st := planeSt d p
  if st = 2 then d else
  let m := t.planes.find? fun q => q.plane.val == p
  let mk := markVote d t (sn - 1) page p
  let x := planeRec d p
  let d := if mk.2.isEmpty then d else
    raise d { typ := 0x40, sn := sn, p0 := p, p1 := (mk.1.extractLsb' 0 32).toNat, p2 := mk.2.length, p3 := mk.2.foldl min 131 }
  let markRun := if mk.2.isEmpty then 0 else x.markRun + 1
  let d := modPlane d p fun x => { x with markRun := markRun, restore := if st = 3 then x.restore + 1 else x.restore,
                                          restoreBad := x.restoreBad || (st == 3 && !mk.2.isEmpty) }
  let d := if markRun = 2 then failCause sn d 2 else d
  let sl12 := match m with | some q => q.slack.toNat | none => rd d F.GLB_PLANE_STATUS_SLACK p
  let errs := match m with | some q => (q.cyc.filter fun b => b.2.1 % 8 == p && b.2.2 != cycOf b.2.1).length | none => 0
  let sl := signed 12 sl12
  let d := wr d F.GLB_PLANE_STATUS_SLACK p sl12
  let d := if sl < signed 12 (rd d F.GLB_PLANE_SLKMIN_MIN p) then wr d F.GLB_PLANE_SLKMIN_MIN p sl12 else d
  let low := decide (sl < (rd d F.GLB_PLANE_CFG_RETIRE_TH : Int))
  let warn := decide (sl < (rd d F.GLB_PLANE_CFG_WARN_TH : Int))
  let d := if warn && !x.warned && decide (st < 2) then raise d { typ := 0x44, sn := sn, p0 := p, p1 := unsigned 32 sl } else d
  let d := if errs = 0 then d else
    perf (sat (raise d { typ := 0x48, sn := sn, p0 := p, p1 := errs }) F.GLB_PLANE_BEATERR_COUNT p errs) 0x14 p errs
  modPlane d p fun x =>
    let lowRun := if low then x.lowRun + 1 else 0
    let ok := if warn then 0 else x.okRun + 1
    { x with
      lowRun := lowRun, slackUp := x.slackUp && (decide (2 ≤ lowRun) || decide (sl < 0)),
      warned := (x.warned && decide (ok < 1024)) || (warn && decide (st < 2)), okRun := ok,
      beatRun := if errs = 0 then 0 else x.beatRun + 1, beatUp := x.beatUp && errs != 0,
      restoreBad := x.restoreBad || (st == 3 && low) }

/-! ### The sweep that ends -/

/-- Lanes at SF when the sweep opened are written as maintenance content (R133, Table 5-6). -/
def replaceSf (sn : SN) (d : Dev) : Dev := d.sw.sf.foldl (fun d n => setIng d sn n { fill := gMaint }) d

/-- Center slots of a page that carry an ingress grain. -/
def slotsOf (pg : CmPage) (port g : Nat) : Nat := (pg.ing.filter fun e => e.1 / 4096 == port && e.2 == ingMk g).length

/-- GRAIN_IN of a tagged grain (R447, R449). -/
def grainInTrace (sn src : SN) (page : Bool) (d : Dev) (pg : Nat × Nat) : Dev :=
  trace d sn 1 (pg.1 * 2048 + pg.2) (slotsOf (cmOf d.sw page) pg.1 pg.2) (crc16 (msbBits (ingGrain d src page pg.1 pg.2))).toNat

/-- The chosen grain is in its lane's rate and read into a center slot (R447). -/
def tagLive (d : Dev) (page : Bool) (x : Nat × Nat) : Bool := decide (x.2 < positions d x.1) && slotsOf (cmOf d.sw page) x.1 x.2 != 0

/-- Tags: a grain chosen in this sweep is traced when it is written; one of VL128 to VL131 when the fine stage presents
it; its beats carry RTAG in the next readout. -/
def tagTick (sn : SN) (d : Dev) : Dev :=
  let d := match d.pm.tagged1 with
    | some x => if 128 ≤ x.1 then grainInTrace sn (sn - 1) d.sw.page1 d x else d
    | none => d
  let t := d.pm.tagged.filter (tagLive d d.sw.page)
  match t with
  | some x => if x.1 < 128 then grainInTrace sn sn d.sw.page d x else d
  | none => d

/-- The grain tagged in the sweep that ends is the one whose beats the next readout tags. -/
def tagShift (d : Dev) : Dev :=
  { d with pm := { d.pm with tagged1 := d.pm.tagged.filter (tagLive d d.sw.page), tagged := none } }

/-- Ingress beats with VALID = 1 per lane (Table 17-10, event 0x02). -/
def countGrains (page : Bool) (d : Dev) : Dev :=
  (List.range 128).foldl (fun d n =>
    perf d 2 n (((cmOf d.sw page).ing.filter fun e => e.1 / 4096 == n && e.2.getLsbD 11).length)) d

/-- What the receivers of lanes under test took in (R103), and what the loops of adapted receivers track (R94). -/
def rxTick (t : TickIn) (d : Dev) : Dev :=
  let d := t.prbs.foldl (fun d x =>
    let n := x.1.val
    let d := chkFeed n x.2.1 x.2.2 d
    if rd d F.LNE_CTL_LB_MODE n = 2 then loopBits n (rxBits d n x.2.1 x.2.2) d else d) d
  t.track.foldl trackLane d

/-- TX_DP_PARITY (R310). -/
def parityTick (sn : SN) (l : List (Fin 128)) (d : Dev) : Dev :=
  l.dedup.foldl (fun d n => raise d { typ := 0x6A, sn := sn, p0 := n }) { d with sw := { d.sw with parBad := l.dedup.map (·.val) } }

/-! ### Egress signatures and promotion holds -/

/-- The signature of a lane over the grains delivered last (R309). -/
def laneSig (d : Dev) (n : Nat) : W32 := crc32 ((List.range 2048).flatMap fun g => msbBits (tget 0 d.sw.dlv (n * 2048 + g)))

/-- The failing flag of a lane. -/
def sigFlag (d : Dev) (n : Nat) : Bool := (rd d F.TWN_SIG_FAIL (n / 32)).testBit (n % 32)
def sigSet (d : Dev) (n : Nat) (b : Bool) : Dev :=
  let w := rd d F.TWN_SIG_FAIL (n / 32)
  if w.testBit (n % 32) = b then d else wr d F.TWN_SIG_FAIL (n / 32) (if b then w + 2 ^ (n % 32) else w - 2 ^ (n % 32))

/-- Sweeps in a row in which a failing lane has matched. -/
def sigRun (d : Dev) (n v : Nat) : Dev := { d with twin := { d.twin with match' := tput 0 d.twin.match' n v } }

/-- One lane's comparison of a read sweep (R311). -/
def sigLane (sn rsn : SN) (mis : Nat → Bool) (d : Dev) (n : Nat) : Dev :=
  if !rdB d F.LNE_CTL_TX_EN n then sigRun (sigSet d n false) n 0
  else if mis n then
    let e := sigRun (sat d F.TWN_SIG_MISCNT 0) n 0
    if sigFlag d n then e else raise (sigSet e n true) { typ := 0x67, sn := sn, p0 := n, p1 := rsn.toNat }
  else if !sigFlag d n then d
  else
    let k := tget 0 d.twin.match' n + 1
    if 16 ≤ k then sigRun (sigSet d n false) n 0 else sigRun d n k

/-- The comparison of read sweep `rsn` (R311), and the sweeps in a row with no mismatching lane that R322 counts. -/
def sigJudge (sn rsn : SN) (mis : Nat → Bool) (d : Dev) : Dev :=
  let any := (List.range 128).any fun n => rdB d F.LNE_CTL_TX_EN n && mis n
  let cnt := match d.twin.resyncT with | some t => snDue t rsn | none => false
  let d := (List.range 128).foldl (sigLane sn rsn mis) d
  { d with twin := { d.twin with sigGot := true, clean := if any || !cnt then 0 else d.twin.clean + 1 } }

/-- A standby compares while its link is up. -/
def compares (d : Dev) : Bool := d.twin.role == .standby && rdB d F.TWN_STATUS_LINK

/-- The SIG record of the sweep before `sn` has not come in sweep `sn`: it is lost (R311). -/
def sigLost (sn : SN) (d : Dev) : Dev :=
  let d := if compares d && !d.twin.sigGot then sigJudge sn (sn - 1) (fun _ => true) d else d
  { d with twin := { d.twin with sigGot := false } }

/-- The promotion hold of a grain ends (R200, R317). -/
def endPromo (x : Sel) : Sel := if x.promo then { x with promo := false, ending := x.ending || !x.ecc } else x

/-- Promotion holds on the lanes that `f` names end. -/
def endPromoOn (f : Nat → Bool) (d : Dev) : Dev :=
  { d with sw := { d.sw with sel := d.sw.sel.foldl (fun m e => if f (e.1 / 2048) then tput {} m e.1 (endPromo e.2) else m) d.sw.sel } }

/-- Holds that end at the sweep `sn + 1`, before the read of sweep `sn` is judged (R323). -/
def unholdNext (sn : SN) (d : Dev) : Dev :=
  d.twin.unhold.foldl (fun d x => if x.1 = sn + 1 then endPromoOn (fun n => x.2.1.getLsbD n) d else d) d

/-- A TWIN_RESYNC with MODE 1 completes after its sweep E (R323). -/
def unholdDone (sn : SN) (d : Dev) : Dev :=
  let d := d.twin.unhold.foldl (fun d x => if snDue x.1 sn then finish d x.2.2.1 x.2.2.2 stOk 0 x.1 else d) d
  { d with twin := { d.twin with unhold := d.twin.unhold.filter fun x => !snDue x.1 sn } }

/-- A commit ends every hold reason of the grains whose egress entry it changes with the last read of the old page, and gives
their selector entry the protection engine's state (R32, R200). -/
def holdsEnd (d : Dev) : Dev :=
  if d.sw.page2 = d.sw.page1 then d else
  let old := cmOf d.sw d.sw.page2
  let new := cmOf d.sw d.sw.page1
  { d with sw := { d.sw with sel := d.sw.sel.foldl (fun m e => if egrAt old e.1 = egrAt new e.1 then m else
      tput {} m e.1 { e.2 with ecc := false, promo := false, cmerr := false, ending := false, frz := none,
                               sel := e.2.selPend.getD e.2.sel, selPend := none }) d.sw.sel } }

/-- A commit rewrites the fine entries that it changes: their outputs leave 0xF_FFFF, and the old fine page is released for
writing at the start of sweep T + 1 (R204, R205). -/
def fineEnd (d : Dev) : Dev :=
  if d.sw.page1 = d.sw.page then d else
  let old := cmOf d.sw d.sw.page1
  let d := { d with sw := { d.sw with fineOut := d.sw.fineOut.filter fun f => finAt old f == finAt (active d) f } }
  setShadow d { shadow d with fine := (active d).fine }

/-- What took place in sweep `sn` (R16, R182, R183, R203). The lanes' read precedes the readout, so that a held grain still
reads its frozen slot in the sweep in which writes into it resume (R200). -/
def finishSweep (sn : SN) (t : TickIn) (d : Dev) : Dev :=
  let d := t.skew.foldl (clientSkew sn) (releaseAll sn d)
  let d := eccIn t.ecc t.fineEcc (replaceSf sn (unholdNext sn (sigLost sn d)))
  let p1 := d.sw.page1
  let d := tagTick sn (fineCheck sn p1 (readoutCheck sn p1 d))
  let r := readAll sn t d.sw.page2 (parity sn) false d
  let d := holdsEnd { r.1 with sw := { r.1.sw with dlv := r.2 } }
  let d := countGrains p1 (readout t (sn - 1) p1 d)
  let v := readAll sn t p1 (parity (sn - 1)) true d
  let d := setFin v.1 (parity (sn - 1)) v.2
  let d := mtxTick t (twReceive t d)
  let d := parityTick sn t.parity (rxTick t ((List.range 8).foldl (planeTick sn t p1) d))
  let d := fineEnd (perf (demapAll d) 1 0)
  tagShift <| unholdDone sn { d with sw := { d.sw with page2 := d.sw.page1, page1 := d.sw.page } }

/-! ### The overhead snapshot -/

/-- Trace bytes and MDC-A sub-rates are taken at sweeps with SN mod 64 = 0 (R84). -/
def takeBoundary (sn : SN) (d : Dev) : Dev :=
  if sn.toNat % 64 ≠ 0 then d else
  (List.range 128).foldl (fun d n =>
    { d with tti := tput [] d.tti n ((List.range 16).map fun i => BitVec.ofNat 32 (rd d F.FRM_TX_TTI (16 * n + i))),
             mdcaK := tput 0 d.mdcaK n (rd d F.FRM_LANE_CFG_MDCA_K n) }) d

/-- Lane `n` is the lane of the candidate selected (R521, Table 16-5). -/
def selLane (d : Dev) (n : Nat) : Bool := (d.tim.st == 1 || d.tim.st == 2) && decide (d.tim.sel < 8) && candSrc d d.tim.sel == n

/-- o2 (R64, R521). -/
def o2Of (d : Dev) (n : Nat) : Nat :=
  rd d F.FRM_LANE_CFG_LANE_ID n * 256 + persOf d n * 16 + 8 * (!(d.twin.role == .standby || d.twin.role == .failed)).toNat +
    4 * (selLane d n).toNat + 2 * rd d F.FRM_LANE_CFG_TEST n

/-- o5 (R70, R521). -/
def o5Of (d : Dev) (n : Nat) : Nat :=
  let c := laneCond d (rd d F.FRM_LANE_CFG_BWD_SRC n)
  min 8 (degOf d n).bei * 65536 + (c == .sf).toNat * 32768 + (c == .sd).toNat * 16384

/-- o6 (R72): the trace byte of the sweep. -/
def o6Of (sn : SN) (d : Dev) (n : Nat) : Nat :=
  let b := sn.toNat % 64
  getBits (((tget [] d.tti n)[b / 4]?).getD 0) (8 * (b % 4)) 8 * 4096

/-- o7 (R73, R415). -/
def o7Of (sn : SN) (d : Dev) (n : Nat) : Nat :=
  (o7Free d).toNat * 128 + (o7Hold d).toNat * 64 + (stepIn d sn).toNat * 32 +
    (if rdB d F.TIM_CFG_DNU_BACK && selLane d n then 0xF else qlOut d)

/-- The PSC message of a lane's sweep `sn` (R76, R266, R267). While a twin is coupled the active chooses one sweep ahead
and sends its choice; the standby transmits what the active chose. -/
def pscSnap (sn : SN) (d : Dev) (n : Nat) : Dev :=
  if pscGroups d n = [] then d else
  let set (d : Dev) (t : PscTx) : Dev := { d with prot := { d.prot with psc := tput {} d.prot.psc n t } }
  let t := tget {} d.prot.psc n
  let now : BitVec 30 × BitVec 30 × PscTx := match t.given with
    | some g => (g.1, g.2, { t with given := none })
    | none => pscChoose d n sn
  let d := set d { now.2.2 with msg := pscMake now.1 now.2.1 }
  if mirrors d then
    let x := pscChoose d n (sn + 1)
    twinSend (set d { x.2.2 with given := some (x.1, x.2.1) }) 9 [n, x.1.toNat, x.2.1.toNat]
  else d

/-- Word `i` (0 to 3) of the lane's PSC message. -/
def pscWord (d : Dev) (n i : Nat) : Nat :=
  if pscGroups d n = [] then 0 else ((tget {} d.prot.psc n).msg.extractLsb' (60 - 20 * i) 20).toNat

/-- BIP-8 of the sweep that ends (R67): its grains, and its overhead words other than o0 and o1. DESIGN CHOICE (log entry 147):
a lane's first sweep carries that of the words last sent, none since reset, with the grains last delivered. -/
def txBip (d : Dev) (n : Nat) : BitVec 8 :=
  let src := bridged d n
  d.sw.dlv.foldl (fun a e => if portOf e.1 = src ∧ grainOf e.1 < positions d n then a ^^^ bipGrain e.2 else a)
    (((laneOf d n).oh.drop 2).foldl (fun a w => a ^^^ bipWord w) 0)

/-- A lane that transmits GLF. -/
def txGlf (d : Dev) (n : Nat) : Bool := isGlf (persOf d n) && rdB d F.LNE_CTL_TX_EN n

/-- The overhead words of a lane's sweep `sn` (R60 to R79), and the device after the snapshot. -/
def snapLane (sn : SN) (d : Dev) (n : Nat) : Dev :=
  if !txGlf d n then d else
  let k := codewords (persOf d n)
  let d := pscSnap sn d n
  let bip := txBip d n
  let s := sn.toNat
  let head : List Word20 := [0xF3A58, 0x0C5A7].map (BitVec.ofNat 20)
  let mid : List Word20 := ([o2Of d n, s / 4096, s % 4096 * 256 + bip.toNat, o5Of d n, o6Of sn d n, o7Of sn d n] ++
    (List.range 4).map (pscWord d n)).map (BitVec.ofNat 20)
  let a : Word20 × Dev := if chanHere d (2 * n) && s % 2 ^ mdcaK d n == 0 then mdcTx d (2 * n) else (0, d)
  let b : List Word20 × Dev := (List.range (mdcbWords d n)).foldl (fun x _ =>
    let y := mdcTx x.2 (2 * n + 1)
    (x.1 ++ [y.1], y.2)) ([], a.2)
  let all := head ++ mid ++ a.1 :: b.1
  let ws := (List.range k).map fun i => (all[i]?).getD 0
  let d := modDeg b.2 n fun g => { g with bei := 0 }
  sendLine n (.glf ws) (modLane d n fun x => { x with oh := ws, ohLast := x.oh })

/-! ### The sweep that opens -/

/-- Lanes whose ingress grains the sweep replaces (Table 5-6). -/
def sfLanes (d : Dev) : List Nat :=
  (List.range 128).filter fun n => effCond d n == .sf && !isClient (persOf d n) && !(isGlf (persOf d n) && rdB d F.FRM_RX_CFG_PLESIO n)

/-- Performance counters at a tick (R445, R446): a snapshot, a clear, new selections; the tagging set-up of the sweep (R451). -/
def perfTick (sn : SN) (d : Dev) : Dev :=
  let d := if d.pm.snapDue then
      let d := (List.range 32).foldl (fun d i =>
        let v := (tget (0 : BitVec 48) d.pm.perf i).toNat
        wrB (wr (wr d F.PMN_PERF_CNT_LO i v) F.PMN_PERF_CNT_HI i (v / 2 ^ 32)) F.PMN_PERF_CNT_OVF i (d.pm.ovf.getLsbD i)) d
      wr (wrB { d with pm := { d.pm with snapDue := false } } F.PMN_PERF_STATUS_DONE 0 true) F.PMN_PERF_SNAP_SN 0 sn.toNat
    else d
  let d := if d.pm.clearDue then { d with pm := { d.pm with clearDue := false, perf := [], ovf := 0 } } else d
  let d := d.pm.selDue.foldl (fun d e =>
    let d := wr (wr d F.PMN_PERF_SEL_EVT e.1 (e.2.toNat % 256)) F.PMN_PERF_SEL_ARG e.1 (e.2.toNat / 256 % 256)
    { d with pm := { d.pm with perf := tdel d.pm.perf e.1, ovf := d.pm.ovf &&& ~~~BitVec.ofNat 32 (2 ^ e.1) } }) d
  { d with pm := { d.pm with selDue := [], tagCfg := rdWord d (F.PMN_TAG_CFG_GEN.addr 0), tagAge := d.pm.tagAge + 1 } }

/-- Twin records of the tick: SWEEP from both, with the timestamps of this tick and of the last SWEEP's arrival, and SIG of
the sweep `old` from the active (R306, R311). Nothing gives a timestamp a form, so this tick's is a free value. -/
def twinTick (sn : SN) (old : Option SN) (d : Dev) : Dev :=
  if !rdB d F.TWN_STATUS_LINK then d else
  let d := onTwin (twinSend (freed d) 3 [sn.toNat, (Config.freeWord d.free).toNat, d.twin.arrived.toNat]) fun w => { w with noSweep := w.noSweep + 1 }
  match old with
  | some s => if d.twin.role = .active ∧ !d.twin.swapHalf then
      twinSend d 4 (s.toNat :: ((List.range 128).map fun n => (!d.sw.parBad.contains n).toNat) ++ (List.range 128).map fun n => (laneSig d n).toNat)
    else d
  | none => d

/-- Sweep `sn` opens after `old`, with a pulse of SYNC_OUT (R418). -/
def openSweep (sn : SN) (old : Option SN) (t : TickIn) (d : Dev) : Dev :=
  let d := if rdB d F.TIM_OUT_SYNC_EN then emit d .sync else d
  let d := perfTick sn (mapAll sn t (applyRoutes (bridgesFall sn d)))
  let d := takeBoundary sn { d with sw := { d.sw with sf := sfLanes d } }
  heartbeat sn (twTransmit sn (twinTick sn old ((List.range 128).foldl genTick ((List.range 128).foldl (snapLane sn) d))))

/-- SWEEP_TICK (R33, R418): the first tick carries SN 0. -/
def execSweepTick (t : TickIn) (s : State) : Res :=
  if !s.dev.pwr.core || !ticking s.dev then .next s
  else if !s.ticked then .next { s with ticked := true, dev := openSweep s.sn none t { s.dev with pwr := { s.dev.pwr with hbOff := false } } }
  else .next { s with sn := s.sn + 1, dev := openSweep (s.sn + 1) (some s.sn) t (finishSweep s.sn t s.dev) }

/-- GRAIN_TAG (R447): once 2^GRATE sweeps have passed, the LFSR steps and chooses an ingress grain. -/
def grainTag (d : Dev) : Dev :=
  if !d.pm.tagCfg.getLsbD 5 || decide (d.pm.tagAge < 2 ^ min (d.pm.tagCfg.extractLsb' 0 5).toNat 20) then d else
  let l := d.pm.lfsr
  let b := l.getLsbD 31 ^^ l.getLsbD 21 ^^ l.getLsbD 1 ^^ l.getLsbD 0
  let l := (l <<< 1) ||| (BitVec.ofBool b).setWidth 32
  { d with pm := { d.pm with lfsr := l, tagAge := 0, tagged := some (l.toNat % 256 % 132, l.toNat / 256 % 2048) } }

/-- R447. -/
def execGrainTag (s : State) : Res := core s grainTag

end Sys2Proof.Machine
end

