-- ==== Sys2Proof/Machine/Control.lean ====
section
/-! DEFINITION. The control complex (chapter 15): the scratchpad as port D serves it beside port C, boot, firmware update, watchdogs and
the debug halt; with the fuse words that boot needs (R464, R465, R472, R473). A word of the scratchpad is named by its
byte address divided by 8. -/

namespace Sys2Proof.Machine

/-! ### Fuses -/

/-- A physical word is valid (R464). -/
def fuseValid (p : BitVec 64) : Bool := p.getLsbD 48 && crc8 (msbBits (p.extractLsb' 0 40)) == p.extractLsb' 40 8

def fuseAt (d : Dev) (p : Nat) : BitVec 64 := tget 0 d.sec.fuses p

/-- The spares that hold logical word `i`, lowest first. -/
def spareOf (d : Dev) (i : Nat) : Option Nat :=
  ((List.range 64).map (256 + ·)).find? fun p => fuseValid (fuseAt d p) && (fuseAt d p).toNat / 2 ^ 32 % 256 == i

/-- State (0 blank, 1 valid, 2 failed), value and physical word of logical word `i` (R465). -/
def fuseResolve (d : Dev) (i : Nat) : Nat × W32 × Nat :=
  let h := fuseAt d i
  if fuseValid h then (1, h.extractLsb' 0 32, i)
  else match spareOf d i with
    | some p => (1, (fuseAt d p).extractLsb' 0 32, p)
    | none => (if h = 0 then 0 else 2, 0, i)

/-- Every logical word is resolved at a reset (R465). -/
def resolveFuses (d : Dev) : Dev :=
  { d with
    sec := { d.sec with
    logical := (List.range 256).foldl (fun m i => tput (0, 0, 0) m i (match fuseResolve d i with
    | (0, _, _) => (0, 0, 0)
    | x => x)) [] } }

/-- The state of a resolved logical word. -/
def calState (d : Dev) (i : Nat) : Nat := (tget (0, 0, 0) d.sec.logical i).1

/-- Every word of a field is valid (R468). -/
def fieldOk (d : Dev) (lo n : Nat) : Bool := (List.range n).all fun k => calState d (lo + k) == 1

/-- The bytes of a field, byte 0 in bits [7:0] of its first word (R456). -/
def fieldBytes (d : Dev) (lo n : Nat) : List (BitVec 8) :=
  (List.range (4 * n)).map fun k => BitVec.ofNat 8 (calWord d (lo + k / 4) / 2 ^ (8 * (k % 4)))

/-- The value of root `i` if it is usable and not revoked (R468). -/
def rootOf (d : Dev) (i : Nat) : Option (List (BitVec 8)) :=
  if i < 3 ∧ fieldOk d (56 + 12 * i) 12 ∧ calState d (4 + i) ≠ 1 then some (fieldBytes d (56 + 12 * i) 12) else none

/-- The anti-rollback floor (R473). -/
def svnFloor (d : Dev) : Nat :=
  (List.range 64).foldl (fun m k => if calState d (160 + k) = 1 then max m (calWord d (160 + k) % 65536) else m) 0

/-! ### The scratchpad -/

/-- One byte, and a 64-bit word. -/
def spByte (p : Scratch) (a : Nat) : BitVec 8 := tget 0 p.mem a
def spWord (p : Scratch) (w : Nat) : BitVec 64 :=
  (List.range 8).foldl (fun x k => (x <<< 8) ||| (spByte p (8 * w + 7 - k)).setWidth 64) 0

/-- Writes one byte. -/
def spPut (p : Scratch) (a : Nat) (b : BitVec 8) : Scratch := { p with mem := tput 0 p.mem a b }

/-- Writes a word: it is stored with new check bits. -/
def spPutWord (p : Scratch) (w : Nat) (v : BitVec 64) : Scratch :=
  (List.range 8).foldl (fun p k => spPut p (8 * w + k) (v.extractLsb' (8 * k) 8)) { p with bad := p.bad.filter (· != w) }

/-- The host may write the byte address (Table 15-3). -/
def spOpen (d : Dev) (a : Nat) : Bool :=
  decide (0x8000 ≤ a ∧ a < 0x10000) || decide (0x300000 ≤ a) ||
    (decide (0x200000 ≤ a ∧ a < 0x300000) && rd d F.CTL_BOOT_STAGE == 1)

/-- Words that `n` bytes from `a` touch. -/
def spWords (a n : Nat) : List Nat := (List.range ((a + n + 7) / 8 - a / 8)).map (a / 8 + ·)

/-- Errors that an access finds in the words it reads (R380): single-bit ones are corrected and counted. -/
def spEcc (ecc : List (Nat × Bool)) (ws : List Nat) (s : State) : State :=
  let hit := ecc.filter fun e => ws.contains e.1
  { s with
    sp := { s.sp with bad := s.sp.bad ++ ((hit.filter fun e => e.2 && !s.sp.bad.contains e.1).map (·.1)).dedup },
    dev := sat s.dev F.CTL_SP_STAT_CORR 0 ((hit.filter fun e => !e.2).length) }

/-- SP_UNCORRECTABLE of a port (0: C, 1: D) for each failed word (R380). -/
def spFail (port : Nat) (sn : SN) (ws : List Nat) (d : Dev) : Dev :=
  ws.foldl (fun d w => raise (sat d F.CTL_SP_STAT_UNCORR 0) { typ := 0x90, sn := sn, p0 := 8 * w, p1 := port }) d

/-- Stores bytes of word `w`: all eight get new check bits; fewer are merged into the word, unless it has a double-bit error
(R380). -/
def spStore (port : Nat) (bs : List (Option (BitVec 8))) (s : State) (w : Nat) : State :=
  if bs.all Option.isSome then
    { s with sp := bs.zipIdx.foldl (fun p x => spPut p (8 * w + x.2) (x.1.getD 0)) { s.sp with bad := s.sp.bad.filter (· != w) } }
  else if s.sp.bad.contains w then { s with dev := spFail port s.sn [w] s.dev }
  else { s with sp := bs.zipIdx.foldl (fun p x => match x.1 with | some b => spPut p (8 * w + x.2) b | none => p) s.sp }

/-- An atomic operation on word `w` (R381): one with a double-bit error keeps its content, and the error is reported. -/
def spAtomic (port : Nat) (f : BitVec 64 → BitVec 64) (s : State) (w : Nat) : State :=
  if s.sp.bad.contains w then { s with dev := spFail port s.sn [w] s.dev }
  else { s with sp := spPutWord s.sp w (f (spWord s.sp w)) }

/-- An access of port C that takes effect (R380, R381). -/
def portC (s : State) (x : PortC) : State :=
  match x.op with
  | .read => if s.sp.bad.contains x.word then { s with dev := spFail 0 s.sn [x.word] s.dev } else s
  | .write v m => spStore 0 ((List.range 8).map fun k => if m.getLsbD k then some (v.extractLsb' (8 * k) 8) else none) s x.word
  | .add v => spAtomic 0 (· + v) s x.word
  | .swap v => spAtomic 0 (fun _ => v) s x.word

/-- A plain access of port C, which gives port D's access a BUSY response; an atomic makes it wait without one (R383). -/
def plainC (x : PortC) : Bool := match x.op with | .read | .write .. => true | _ => false

/-- Counts BUSY responses (R384). -/
def spBusy (n : Nat) (d : Dev) : Dev := perf (sat d F.CTL_SP_STAT_BUSY 0 n) 0xE 0 n

/-- BAR2_READ (R378, R380, R382 to R384): port C's access takes effect in each period, and the read is issued again after
each BUSY response. -/
def bar2Read (off bytes : Nat) (pc : List PortC) (ecc : List (Nat × Bool)) (s : State) : State :=
  let ws := spWords off bytes
  let xs := pc.filter fun x => ws.contains x.word
  let s := xs.foldl portC (spEcc ecc ws s)
  let bad := ws.filter s.sp.bad.contains
  let starved := ws.filter fun w => 1024 ≤ (xs.filter fun x => x.word == w && plainC x).length
  let d := starved.foldl (fun d w => raise d { typ := 0x91, sn := s.sn, p0 := 8 * w }) (spBusy (xs.filter plainC).length s.dev)
  { s with dev := emit (spFail 1 s.sn bad d) (.bar2 ((List.range bytes).map fun k => spByte s.sp (off + k)) (!bad.isEmpty)) }

/-- The bytes that a write of `data` at `off` puts into word `w`, and whether it reaches the word (Table 15-3). -/
def spBytes (off : Nat) (data : List (Option (BitVec 8))) (w : Nat) : List (Option (BitVec 8)) :=
  (List.range 8).map fun k => if 8 * w + k < off then none else (data[8 * w + k - off]?).getD none
def spStores (d : Dev) (off : Nat) (data : List (Option (BitVec 8))) (w : Nat) : Bool :=
  (spBytes off data w).any Option.isSome && spOpen d (8 * w)

/-- One word of a BAR2 write (R382 to R384): it waits for atomics of port C; a plain access there is answered BUSY, the write
is stored all the same, and a write of port C is lost. -/
def spWriteWord (off : Nat) (data : List (Option (BitVec 8))) (pc : List PortC) (s : State) (w : Nat) : State :=
  if !spStores s.dev off data w then s else
  let xs := pc.filter (·.word == w)
  let s := spStore 1 (spBytes off data w) ((xs.takeWhile fun x => !plainC x).foldl portC s) w
  if xs.any plainC then { s with dev := spBusy 1 s.dev } else s

/-- The words that a write merges, and so reads. -/
def spMerged (d : Dev) (off : Nat) (data : List (Option (BitVec 8))) : List Nat :=
  (spWords off data.length).filter fun w => spStores d off data w && !(spBytes off data w).all Option.isSome

/-- BAR2_WRITE (R379, R380): a write into a closed region is discarded and counted. -/
def bar2Write (off : Nat) (data : List (Option (BitVec 8))) (pc : List PortC) (ecc : List (Nat × Bool)) (s : State) : State :=
  let s := spEcc ecc (spMerged s.dev off data) s
  let deny := data.zipIdx.any fun x => x.1.isSome && !spOpen s.dev (off + x.2)
  (spWords off data.length).foldl (spWriteWord off data pc) { s with dev := if deny then sat s.dev F.CTL_SP_STAT_DENY 0 else s.dev }

/-- A 64-bit AtomicOp through BAR2 (R325, R381 to R383, Table 21-3): it waits without BUSY for port C, and the old value returns;
in a closed region the request is completed with Completer Abort and the word is unchanged. -/
def bar2Atomic (off : Nat) (f : BitVec 64 → BitVec 64) (pc : List PortC) (ecc : List (Nat × Bool)) (s : State) : State :=
  if off % 8 ≠ 0 then { s with dev := emit s.dev .unsupported }
  else if !spOpen s.dev off then { s with dev := emit (sat s.dev F.CTL_SP_STAT_DENY 0) .abort }
  else
    let w := off / 8
    let s := (pc.filter (·.word == w)).foldl portC (spEcc ecc [w] s)
    let t := spAtomic 1 f s w
    { t with dev := emit t.dev (.bar2 ((List.range 8).map fun k => spByte s.sp (off + k)) (s.sp.bad.contains w)) }

/-- Firmware semaphores that hold the owner code of a core that starts are released (R386). -/
def releaseSems (codes : List (BitVec 64)) (p : Scratch) : Scratch :=
  ((p.mem.filter fun c => decide (c.1 < 0x8000)).map (·.1 / 8)).dedup.foldl (fun p w =>
    if codes.contains (spWord p w) then spPutWord p w 0 else p) p

/-- The staging region's first `n` bytes. -/
def stagedBytes (p : Scratch) (n : Nat) : List (BitVec 8) := (List.range n).map fun k => spByte p (0x200000 + k)

/-- An image fetched into the staging region. -/
def stageImg (img : List (BitVec 8)) (p : Scratch) : Scratch :=
  img.zipIdx.foldl (fun p x => spPut p (0x200000 + x.2) x.1)
    { p with bad := p.bad.filter fun w => !(decide (0x40000 ≤ w) && decide (w < 0x40000 + cdiv img.length 8)) }

/-! ### Boot -/

def c0State (d : Dev) : Nat := rd d F.CTL_CORE_STATUS_C0_STATE
def c1State (d : Dev) : Nat := rd d F.CTL_CORE_STATUS_C1_STATE
/-- Sets the states of both cores. -/
def coresTo (d : Dev) (n : Nat) : Dev := wr (wr d F.CTL_CORE_STATUS_C0_STATE 0 n) F.CTL_CORE_STATUS_C1_STATE 0 n

/-- CAL_POLICY.PUSH_DIS. -/
def pushDis (d : Dev) : Bool := (calPolicy d).testBit 6

/-- The boot ROM runs: core 0 is in reset, in the ROM, or failed. -/
def inRom (d : Dev) : Bool := [0, 1, 5].contains (c0State d)

/-- A verified image starts (R392). -/
def startImg (src : Nat) (img : List (BitVec 8)) (d : Dev) : Dev :=
  let d := wr (wr (coresTo d 2) F.CTL_BOOT_STAGE 0 4) F.CTL_CORE_STATUS_FW_SRC 0 src
  wrB (wr d F.CTL_CORE_STATUS_SVN 0 (imgSvn img)) F.GLB_START_STATUS_FUSE_DONE 0 true

/-- IMAGE_VERIFIED (R392, R472, R475): image A first, and B once A has failed. A pushed image is what the staging region holds. -/
def imageVerified (src : ImgSrc) (img : List (BitVec 8)) (p : Scratch) (sn : SN) (d : Dev) : Dev :=
  let len := if src = .pushed then rd d F.CTL_BOOT_LEN else img.length
  let img := if src = .pushed then stagedBytes p (min len 0x100000) else img
  let stage := if src = .pushed then 2 else 0
  if !inRom d ∨ rd d F.CTL_BOOT_STAGE ≠ stage ∨ (src = .flashA ∧ d.ctl.flashA) ∨ (src = .flashB ∧ !d.ctl.flashA) then d
  else if verifyImg (rootOf d) (svnFloor d) len img = 0 then
    startImg (match src with | .flashA => 1 | .flashB => 2 | .pushed => 3) img d
  else if src = .pushed then raise (wr d F.CTL_BOOT_STAGE 0 1) { typ := 0x94, sn := sn, p0 := 1 }
  else if src = .flashA then { d with ctl := { d.ctl with flashA := true } }
  else d

/-- FLASH_SEARCH (R392, R475): no flash image was found; while PUSH_DIS = 1 the search begins again. -/
def flashSearch (d : Dev) : Dev :=
  if !inRom d ∨ rd d F.CTL_BOOT_STAGE ≠ 0 then d
  else if pushDis d then { d with ctl := { d.ctl with flashA := false } }
  else wrB (wr d F.CTL_BOOT_STAGE 0 1) F.GLB_START_STATUS_FUSE_DONE 0 true

/-- CTL_BOOT_GO (R392). -/
def bootGo (d : Dev) : Dev := if rd d F.CTL_BOOT_STAGE = 1 then wr d F.CTL_BOOT_STAGE 0 2 else d

/-! ### Firmware update, watchdogs, halt -/

/-- The FW_STAGE descriptor that a command with ACTION `act` serves. -/
def fwDesc (d : Dev) (r act : Nat) : Option QEnt := (servedBy d r 0x7E).filter fun e => dF e.raw 28 0 2 == act

/-- Activation starts (R393, Table 15-7): the cores restart, and opcodes of firmware are held. -/
def activate (r : Nat) (e : QEnt) (sn : SN) (d : Dev) : Dev :=
  match d.ctl.staged with
  | none => d
  | some x =>
    take (wrB (coresTo { d with ctl := { d.ctl with act := some (r, e.uid, x.1), actSn := sn } } 4) F.CTL_CORE_STATUS_FW_READY 0 false) r e.uid

/-- The running state version is not accepted (R393). -/
def verBad (d : Dev) (x : Nat × Nat × Nat) : Bool := !decide (x.2.1 ≤ d.ctl.stateVer ∧ d.ctl.stateVer ≤ x.2.2)

/-- Serves FW_STAGE with ACTION 0 or 1 (R393, R475): the image `img` is fetched and verified; an image that passes is
staged. -/
def serveStage (r act : Nat) (img : List (BitVec 8)) (s : State) : State :=
  let d := s.dev
  match fwDesc d r act with
  | none => s
  | some e =>
    let len := dF e.raw 24 0 32
    let v := verifyImg (rootOf d) (svnFloor d) len img
    match firstProb (reservedProb e.raw ++ probIf (decide (0x100000 < len)) 24 1 ++
        probIf (v == 1) 16 7 ++ probIf (v == 2) 16 6) with
    | some p => { s with dev := badDesc d r e.uid s.sn p }
    | none =>
      let x := (imgSvn img, imgStates img)
      let d := { d with ctl := { d.ctl with staged := some x } }
      let s := { s with sp := stageImg img s.sp }
      if act = 0 then { s with dev := finish d r e.uid stOk 0 s.sn (BitVec.ofNat 64 (imgSvn img)) }
      else if verBad d x then { s with dev := badDesc d r e.uid s.sn (16, 7) }
      else { s with dev := activate r e s.sn d }

/-- Serves FW_STAGE with ACTION 2 (R393). -/
def serveActivate (r : Nat) (sn : SN) (d : Dev) : Dev :=
  match fwDesc d r 2 with
  | none => d
  | some e =>
    match firstProb (reservedProb e.raw ++ probIf d.ctl.staged.isNone 28 5 ++ probIf ((d.ctl.staged.map (verBad d)).getD false) 16 7) with
    | some p => badDesc d r e.uid sn p
    | none => activate r e sn d

/-- FW_STAGE with ACTION 3 (Table 13-7: invalid). -/
def stageInvalid (r : Nat) (sn : SN) (d : Dev) : Dev :=
  match fwDesc d r 3 with
  | none => d
  | some e => match firstProb ((28, 1) :: reservedProb e.raw) with
    | some p => badDesc d r e.uid sn p
    | none => d

/-- FW_READY (R386, R392 to R394): firmware that has started serves. -/
def fwReady (s : State) : State :=
  let d := s.dev
  let c0 := c0State d
  let c1 := c1State d
  if !(c0 == 2 || c0 == 3 || c0 == 4) || !(c1 == 2 || c1 == 3 || c1 == 4) || (c0 != 4 && c1 != 4 && rdB d F.CTL_CORE_STATUS_FW_READY) then s else
  let first := !rdB d F.CTL_CORE_STATUS_FW_READY
  let codes := (if first || c0 == 4 then [1#64] else []) ++ (if first || c1 == 4 then [2#64] else [])
  let d := wr d F.CTL_CORE_STATUS_C0_STATE 0 (if c0 = 4 then 2 else c0)
  let d := wr d F.CTL_CORE_STATUS_C1_STATE 0 (if c1 = 4 then 2 else c1)
  let d := wrB d F.CTL_CORE_STATUS_FW_READY 0 true
  let d := match d.ctl.act with
    | none => d
    | some a =>
      let boot := c0 != 4
      let svn := if boot then rd d F.CTL_CORE_STATUS_SVN else a.2.2
      let d := wr (wr { d with ctl := { d.ctl with act := none } } F.CTL_CORE_STATUS_SVN 0 svn) F.CTL_CORE_STATUS_FW_SRC 0 3
      finish (raise d { typ := 0x93, sn := s.sn, p0 := svn }) a.1 a.2.1 stOk 0 s.sn (BitVec.ofNat 64 svn)
  { s with sp := releaseSems codes s.sp, dev := d }

/-- FW_READY_TIMEOUT (R394). -/
def fwTimeout (sn : SN) (d : Dev) : Dev :=
  if d.ctl.act.isNone ∨ c0State d ≠ 4 then d else
  let d := raise (coresTo d 5) { typ := 0x94, sn := sn, p0 := 2 }
  if pushDis d then d else wr d F.CTL_BOOT_STAGE 0 1

/-- CORE_WDT (R396). -/
def coreWdt (c : Nat) (sn : SN) (d : Dev) : Dev :=
  let st := if c = 0 then c0State d else c1State d
  if (d.ctl.wdt[c]?).getD 0 = 0 ∨ !(st == 2 || st == 3) ∨ (st = 3 ∧ rdB d F.DBG_CTL_WDT_HALT) then d
  else raise (coreRestart d c) { typ := 0x92, sn := sn, p0 := c }

/-- WDT_KICK (R396, R400). -/
def wdtKick (c : Nat) (d : Dev) : Dev := { d with ctl := { d.ctl with wdt := lset d.ctl.wdt c (rd d F.CTL_WDT_CFG_TMO) } }

/-- DEBUG_HALT (R398). -/
def debugHalt (c : Nat) (on : Bool) (d : Dev) : Dev :=
  let d := wrB d (if c = 0 then F.DBG_CTL_HALT0 else F.DBG_CTL_HALT1) 0 on
  let f := if c = 0 then F.CTL_CORE_STATUS_C0_STATE else F.CTL_CORE_STATUS_C1_STATE
  let st := rd d f
  if !(st == 2 || st == 3) then d else
  wr (wr d F.DBG_STATUS_HALTED 0 (setBit (rd d F.DBG_STATUS_HALTED) c on)) f 0 (if on then 3 else 2)

/-- MEMORY_CLEARED (R501): once after a core release. -/
def memCleared (s : State) : State :=
  let d := s.dev
  if rdB d F.GLB_START_STATUS_MEM_INIT then s else
  let d := { d with
    sw := { d.sw with cm0 := {}, cm1 := {}, sel := [], bad := [], fineBad := [], fineOut := [], ing0 := [], ing1 := [], egb0 := [], egb1 := [],
                      fin0 := [], fin1 := [], dlv := [] },
    cli := { d.cli with loess := [], low := [false, false, false, false] } }
  let d := [0, 1, 2, 3].foldl (fun d q => wr (wr d F.MAP_LOESS_QSTAT_FREE_BLK q 1228) F.MAP_LOESS_QSTAT_MIN_FREE q 1228) d
  { s with sp := {}, dev := wrB d F.GLB_START_STATUS_MEM_INIT 0 true }

/-! ### The commands -/

/-- A command of the core domain that also reaches the scratchpad. -/
def coreSt (s : State) (f : State → State) : Res := .next (if s.dev.pwr.core then f s else s)

/-- R501. -/
def execMemoryCleared (s : State) : Res := coreSt s memCleared
/-- R392. -/
def execImageVerified (src : ImgSrc) (img : List (BitVec 8)) (s : State) : Res := core s (imageVerified src img s.sp s.sn)
/-- R475. -/
def execFlashSearch (s : State) : Res := core s flashSearch
/-- R392. -/
def execCtlBootGo (s : State) : Res := core s bootGo
/-- R393. -/
def execFwReady (s : State) : Res := coreSt s fwReady
/-- R394. -/
def execFwReadyTimeout (s : State) : Res := core s (fwTimeout s.sn)
/-- R396. -/
def execCoreWdt (c : Fin 2) (s : State) : Res := core s (coreWdt c s.sn)
/-- R396. -/
def execWdtKick (c : Fin 2) (s : State) : Res := core s (wdtKick c)
/-- R398. -/
def execDebugHalt (c : Fin 2) (on : Bool) (s : State) : Res := core s (debugHalt c on)
/-- R384. An access that reaches beyond the window has no address there (Table 13-1). -/
def execBar2Read (off : BitVec 22) (bytes : Nat) (pc : List PortC) (ecc : List (Nat × Bool)) (s : State) : Res :=
  if 0x400000 < off.toNat + bytes then .fault .outsideWindow else coreSt s (bar2Read off.toNat bytes pc ecc)
/-- R379. -/
def execBar2Write (off : BitVec 22) (data : List (Option (BitVec 8))) (b : BankIn) (s : State) : Res :=
  if 0x400000 < off.toNat + data.length then .fault .outsideWindow else coreSt s (bar2Write off.toNat data b.pc b.ecc)
/-- R381. -/
def execFetchadd (off : BitVec 22) (val : BitVec 64) (b : BankIn) (s : State) : Res :=
  coreSt s (bar2Atomic off.toNat (· + val) b.pc b.ecc)
/-- R381. -/
def execSwap (off : BitVec 22) (val : BitVec 64) (b : BankIn) (s : State) : Res :=
  coreSt s (bar2Atomic off.toNat (fun _ => val) b.pc b.ecc)
/-- R393, ACTION 0, and ACTION 3, which is invalid. -/
def execFwStage (ring : Fin 16) (img : List (BitVec 8)) (s : State) : Res :=
  coreSt s fun s => if (fwDesc s.dev ring 3).isSome then { s with dev := stageInvalid ring s.sn s.dev } else serveStage ring 0 img s
/-- R393, ACTION 1. -/
def execFwStageActivate (ring : Fin 16) (img : List (BitVec 8)) (s : State) : Res := coreSt s (serveStage ring 1 img)
/-- R393, ACTION 2. -/
def execFwActivate (ring : Fin 16) (s : State) : Res := core s (serveActivate ring s.sn)

end Sys2Proof.Machine
end

