-- ==== Sys2Proof/Machine/Twin.lean ====
section
/-! DEFINITION. Twin redundancy (chapter 12): the role latch and the roles, pairing, the records of the twin link as both
sides use them, resync, mate death and promotion, and the role swap. -/

namespace Sys2Proof.Machine

/-- TWN_STATUS.COUPLING: 0 no standby, 1 DIVERGED, 2 RESYNC, 3 LOCKSTEP. -/
def coupling (d : Dev) : Nat := rd d F.TWN_STATUS_COUPLING
def setCoupling (d : Dev) (n : Nat) : Dev := wr d F.TWN_STATUS_COUPLING 0 n
def linkUp (d : Dev) : Bool := rdB d F.TWN_STATUS_LINK
def unitNo (d : Dev) : Bool := rdB d F.TWN_CFG_UNIT
def lastCause (d : Dev) (n : Nat) : Dev := wr d F.TWN_STATUS_LAST_CAUSE 0 n

/-- Sends a CONTROL record: 1 divergence notice, 2 RESYNC_START, 3 resync end, 4 coupling notice, 5 role swap,
6 LP_PROPOSE, 7 LP_AGREE, 8 a refusal (Table 12-4). -/
def control (d : Dev) (code : Nat) (ws : List Nat := []) : Dev := twinSend d 0xC (code :: ws)

/-! ### Coupling -/

/-- The standby enters DIVERGED and reports it (R296). -/
def toDiverged (sn : SN) (cause : Nat) (d : Dev) : Dev :=
  let d := onTwin (setCoupling d 1) fun t => { t with snapLast := false, resyncT := none, clean := 0, early := [], cfgWait := [] }
  control (raise d { typ := 0x65, sn := sn, p0 := cause }) 1

/-- A standby in RESYNC or LOCKSTEP leaves it for DIVERGED (R296). -/
def diverge (sn : SN) (cause : Nat) (d : Dev) : Dev :=
  if d.twin.role = .standby ∧ 2 ≤ coupling d then toDiverged sn cause d else d

/-- A resync of the active ends; the descriptors that wait for it complete (R322). -/
def endResync (sn : SN) (st : Nat) (d : Dev) : Dev :=
  match d.twin.resync with
  | none => d
  | some ws => onTwin (ws.foldl (fun d w => finish d w.1 w.2 st 0 sn) d) fun t => { t with resync := none, resyncLast := false }

/-- Fields of a group's definition and state, as a STATE record carries them. -/
def groupWords (pgid : Nat) (g : Group) : List Nat :=
  let c := g.cfg
  [pgid, c.typ, c.errorless.toNat, c.revert.toNat, c.auto.toNat, c.d16, c.farPgid, c.holdOff, c.wtr, c.tx.getD 0xFF,
    c.rx.getD 0xFF, c.tid.getD unitNone, c.unit.length] ++ c.unit ++ (c.lanes.length :: c.lanes) ++
    [g.r, g.mi.toNat, g.tgt, g.lastReq, g.bridge] ++ g.inputs.filterMap fun i => i.timer.map (·.toNat)

/-- Fields of a tributary's definition. -/
def tribDef (tid : Nat) (t : Trib) : List Nat :=
  let c := t.cfg
  [tid, c.ptype.toNat, c.profile, c.fine.toNat, c.role, c.lane, c.grp, c.client, c.d16, c.m, c.k, c.wl.length] ++ c.wl ++
    (c.pl.length :: c.pl) ++ c.slots

/-- The resync snapshot (R322 step 2): its STATE records in order, the last one closing it. -/
def snapshot (d : Dev) : List (List Nat) :=
  [0 :: (diffPage {} (active d)).flatMap fun w => [w.mem.val, w.key, w.val.toNat],
   1 :: d.sw.sel.flatMap fun x => [x.1, x.2.sel.toNat + 2 * x.2.hold.toNat + 4 * x.2.mi.toNat],
   2 :: d.cli.profiles.flatMap fun p => p.1 :: p.2] ++
  d.cli.tribs.map (fun t => 4 :: tribDef t.1 t.2) ++
  d.cli.flexe.map (fun f => 5 :: f.1 :: (f.2.txA ++ f.2.txB).flatMap fun x => [x.1, x.2.toNat]) ++
  [6 :: d.chans.flatMap fun c => [c.1, c.2.rx, c.2.tx]] ++
  d.prot.groups.map (fun g => 7 :: groupWords g.1 g.2) ++
  [3 :: (d.cli.loess.filter (!·.ended)).flatMap fun a => [a.owner, a.d16, a.m] ++ (a.six ++ a.blk).flatMap fun x => [x.1, x.2],
   9 :: (List.range 8).map (planeSt d), [8]]

/-- A commit whose target was fixed before the resync is made first: it has not been sent. -/
def resyncFree (d : Dev) : Bool := match d.tilth.prep with | some c => c.target.isNone | none => true

/-- The active starts a resync (R322 steps 1 to 3): what it has staged and not committed follows the snapshot. -/
def startResync (ws : List (Nat × Nat)) (d : Dev) : Dev :=
  let d := control (setCoupling (onTwin d fun t => { t with
    diverged := false, resync := some ws, resyncLast := true, resyncTmo := rd d F.TWN_CFG2_RESYNC_TMO }) 2) 2
  let d := (snapshot d).foldl (fun d w => twinSend d 0xB w) d
  if d.tilth.released then mirrorEntries d (diffPage (active d) (shadow d)) else d

/-- The active resyncs a DIVERGED standby by itself (R322). -/
def autoResync (d : Dev) : Dev :=
  if d.twin.role = .active ∧ !d.twin.swapHalf ∧ linkUp d ∧ coupling d = 1 ∧ d.twin.resync.isNone ∧
      rdB d F.TWN_CFG_AUTO_RESYNC ∧ resyncFree d then startResync [] d else d

/-- The active learns that its standby has diverged (R296, R307): a resync that runs fails, otherwise one may start. -/
def mateDiverged (sn : SN) (d : Dev) : Dev :=
  if d.twin.role ≠ .active ∨ coupling d = 0 then d
  else if d.twin.resync.isSome then divergeMate (endResync sn stDiverged d)
  else autoResync (divergeMate d)

/-! ### Roles -/

/-- The device becomes a standby (Table 12-3); with the link up it takes the active's sweep as its reference. -/
def becomeStandby (sn : SN) (cause : Nat) (d : Dev) : Dev :=
  let d := lastCause (onTwin d fun t => { t with role := .standby, latch := false, seqIn := none, cfgIn := none, sigGot := true }) cause
  if linkUp d then dpllLink sn d else d

/-- The device becomes active (Table 12-3). -/
def becomeActive (sn : SN) (cause : Nat) (d : Dev) : Dev :=
  dpllUnlink sn (lastCause (onTwin d fun t => { t with role := .active, latch := true }) cause)

/-- HEARTBEAT_LOSS (R293, R294). -/
def heartbeatLoss (sn : SN) (d : Dev) : Dev := if d.pwr.hbOff then d else roleFail sn d

/-- YIELD (R293, R296): TW_ACTIVE_IN has risen and stayed high through the filter. -/
def yieldNow (sn : SN) (d : Dev) : Dev :=
  if !d.twin.latch then d else
  let d := onTwin (wrB d F.TWN_STATUS_MATE_ACTIVE 0 true) fun t => { t with latch := false }
  if d.twin.role ≠ .active then d
  else if d.twin.swapHalf then setCoupling (becomeStandby sn 5 d) 3
  else toDiverged sn 5 (becomeStandby sn 4 (endResync sn stDiverged d))

/-- TWN_CFG_EN (R295, R547): ignored once the lock is set. -/
def twnEn (en lock : Bool) (sn : SN) (d : Dev) : Dev :=
  if lock || rdB d F.TWN_CFG_EN == en then d else
  let d := wrB d F.TWN_CFG_EN 0 en
  if en then
    if d.twin.role = .disabled then onTwin d fun t => { t with role := if t.latch then .active else .unpaired } else d
  else match d.twin.role with
    | .standby => setCoupling (onTwin (dpllUnlink sn (endPromise d)) fun t => { t with role := .disabled }) 0
    | .unpaired => onTwin d fun t => { t with role := .disabled }
    | .active => onTwin d fun t => { t with role := .disabled }
    | _ => d

/-- START_UP_CLAIM (R297): TW_ACTIVE_IN has been low for `quietMs` ms; `alive`: TW_ALIVE_IN had an edge in that time. -/
def claim (quietMs : Nat) (alive : Bool) (sn : SN) (d : Dev) : Dev :=
  let ok := if unitNo d then decide (20 ≤ quietMs) && !alive else decide (10 ≤ quietMs)
  if d.twin.role ≠ .unpaired ∨ !ok then d
  else
    let d := wrB (wrB d F.TWN_STATUS_MATE_ACTIVE 0 false) F.TWN_STATUS_MATE_ALIVE 0 alive
    raise (becomeActive sn 1 d) { typ := 0x60, sn := sn }

/-! ### The link and pairing -/

/-- The 8 bytes of a nonce, lowest first. -/
def leBytes (n : BitVec 64) : List (BitVec 8) := (List.range 8).map fun k => n.extractLsb' (8 * k) 8

/-- The PAIR_AUTH response of the twin with unit number `unit` (R303): 128 bits, first byte most significant. -/
def pairResp (d : Dev) (unit : Bool) (mate own : BitVec 64) : BitVec 128 :=
  beWord 128 ((hmac (fieldBytes d 48 8) (BitVec.ofNat 8 unit.toNat :: (leBytes mate ++ leBytes own))).take 16)

/-- Sends this device's PAIR record with a new nonce (R303). -/
def sendPair (d : Dev) : Dev :=
  let n := Config.nonce d.free
  let d := onTwin (freed d) fun t => { t with sent := true, ownNonce := n }
  twinPut d 1 [(unitNo d).toNat, Config.revLtr.toNat + 16 * Config.revDig.toNat, rd d F.CTL_CORE_STATUS_SVN, calPolicy d, n.toNat]

/-- The device takes part in pairing: twin operation is enabled, it has not failed, and the four lanes are in frame (R303). -/
def mayPair (d : Dev) : Bool := d.twin.role != .disabled && d.twin.role != .failed && !linkUp d && twInFrame d

/-- PAIR (R303): the mate's record starts the exchange or answers this device's; the response follows. -/
def pairRecIn (p : PairRec) (d : Dev) : Dev :=
  if !mayPair d then d else
  let d := if d.twin.sent then d else sendPair d
  let d := onTwin d fun t => { t with gotPair := some p }
  twinPut d 2 [(pairResp d (unitNo d) p.nonce d.twin.ownNonce).toNat]

/-- The condition of R303 that fails, as TWIN_PAIR_FAIL gives it; 0: pairing succeeds. -/
def pairProb (d : Dev) (p : PairRec) (resp : BitVec 128) (mateActive : Bool) : Nat :=
  if resp ≠ pairResp d p.unit d.twin.ownNonce p.nonce then 1
  else if p.unit = unitNo d then 2
  else if p.policy.toNat ≠ calPolicy d then 3
  else if d.twin.role ≠ .active ∧ !mateActive then 4 else 0

/-- PAIR_AUTH (R303, R304). `mateSn` is the SN that the active's next tick carries. -/
def pairAuth (resp : BitVec 128) (mateActive : Bool) (mateSn : SN) (s : State) : State :=
  let s := { s with dev := perf (takeRecord 2 s.dev) 0x13 0 }
  let d := s.dev
  match d.twin.gotPair with
  | none => s
  | some p =>
    if !mayPair d then s else
    let d := wrB d F.TWN_STATUS_MATE_ACTIVE 0 mateActive
    match pairProb d p resp mateActive with
    | 0 =>
      let d := wrB (wrB d F.TWN_STATUS_MATE_ALIVE 0 true) F.TWN_STATUS_MATE_FAIL 0 false
      let d := onTwin d fun t => { t with paired := true, sent := false, gotPair := none }
      if d.twin.role = .active ∧ !(mateActive && unitNo d) then
        { s with dev := raise (setCoupling (onTwin d fun t => { t with diverged := true }) 1) { typ := 0x61, sn := s.sn, p0 := p.unit.toNat } }
      else
        let enter := d.twin.role != .standby
        let d := becomeStandby s.sn 7 d
        { s with
          sn := if enter then (if s.ticked then mateSn - 1 else mateSn) else s.sn,
          dev := toDiverged s.sn 7 (raise d { typ := 0x61, sn := s.sn, p0 := p.unit.toNat }) }
    | c => { s with dev := raise (onTwin d fun t => { t with sent := false, gotPair := none }) { typ := 0x62, sn := s.sn, p0 := c } }

/-- PAIRING_RETRY (R303): 1 s after a failure pairing is tried again. -/
def pairRetry (d : Dev) : Dev := if mayPair d && !d.twin.paired && !d.twin.sent then sendPair d else d

/-- TWIN_LINK_UP (R302): pairing is complete, and the lanes are in frame and agree on their SN. -/
def linkRise (delay : BitVec 12) (sn : SN) (d : Dev) : Dev :=
  if !d.twin.paired || linkUp d || !twAgree d then d else
  let d := wr (wrB d F.TWN_STATUS_LINK 0 true) F.TWN_LINK_STATUS_DELAY 0 delay.toNat
  let d := raise (onTwin d fun t => { t with sigGot := true, noSweep := 0 }) { typ := 0x64, sn := sn, p0 := delay.toNat }
  if d.twin.role = .standby then dpllLink sn d else autoResync d

/-- The cause of R302 holds: a lane is out of frame, the lane SNs disagree, or two sweeps have brought no SWEEP record. -/
def linkBad (cause : Nat) (d : Dev) : Bool :=
  match cause with
  | 0 => !twInFrame d
  | 1 => twInFrame d && !twAgree d
  | _ => decide (2 ≤ d.twin.noSweep)

/-- TWIN_LINK_DOWN (R296, R302, R314). -/
def linkFall (cause : Nat) (sn : SN) (d : Dev) : Dev :=
  if !linkBad cause d then d else
  let was := linkUp d
  let d := onTwin d fun t => { t with paired := false, sent := false, gotPair := none, txq := [], txw := [] }
  if !was then d else
  let d := raise (wrB d F.TWN_STATUS_LINK 0 false) { typ := 0x63, sn := sn, p0 := cause, p1 := twBits d.twin.tl }
  match d.twin.role with
  | .standby => diverge sn 4 (dpllUnlink sn d)
  | .active => if coupling d = 0 then d else divergeMate (endResync sn stDiverged d)
  | _ => d

/-- SWEEP (R302, R306): the record delay and the offset of the ticks. The timestamp of its arrival, for which nothing gives a
form, is a free value. -/
def sweepIn (delay : BitVec 12) (offset : BitVec 16) (d : Dev) : Dev :=
  let d := onTwin (freed d) fun t => { t with noSweep := 0, arrived := Config.freeWord d.free }
  if linkUp d then wr (wr d F.TWN_LINK_STATUS_DELAY 0 delay.toNat) F.TWN_ALIGN_OFFSET 0 offset.toNat else d

/-- SIG (R311): the active's signatures of the read sweep before this one. -/
def sigIn (rsn : SN) (valid : BitVec 128) (sigs : List W32) (sn : SN) (d : Dev) : Dev :=
  if !compares d || rsn != sn - 1 || d.twin.sigGot then d
  else sigJudge sn rsn (fun n => !valid.getLsbD n || d.sw.parBad.contains n || sigs[n]? != some (laneSig d n)) d

/-! ### Mirrored records -/

/-- A standby that follows the active: it is in RESYNC or LOCKSTEP with its link up. -/
def follows (d : Dev) : Bool := d.twin.role == .standby && linkUp d && decide (2 ≤ coupling d)

/-- Mirrored entries enter the shadow once it is released (R20); entries of memory 3 set plane states at the next flip (R215,
R243). -/
def putEntries (ws : List EntryWr) (d : Dev) : Dev :=
  let ps := (ws.filter fun w => w.mem.val == 3 && decide (w.key < 8)).map fun w => (w.key, w.val.toNat % 4)
  let d := onTilth d fun t => { t with planeIn := t.planeIn ++ ps, late := t.late ++ ws }
  if d.tilth.released then lateWrites d else d

/-- A sequenced record comes in its turn. -/
def inTurn (next : Option Nat) (seq : Nat) : Bool := match next with | some n => n == seq | none => true

/-- ENTRY (R243). Between a COMMIT and its sweep the active sends entries only to withdraw that commit, so the flip is
disarmed (log entry 151). -/
def entryIn (seq : Nat) (ws : List EntryWr) (sn : SN) (d : Dev) : Dev :=
  if !follows d then d
  else if !inTurn d.twin.seqIn seq then diverge sn 2 d
  else
    let d := onTwin (pageRelease sn d) fun t => { t with seqIn := some (seq + 1) }
    let d := if d.tilth.prep.isSome then tilthStat (onTilth d fun t => { t with prep := none }) else d
    putEntries ws d

/-- COMMIT (R243, R244): the flip is armed, unless its sweep T − 1 has started. -/
def commitIn (seq : Nat) (t : SN) (sn : SN) (d : Dev) : Dev :=
  if !follows d then d
  else if !inTurn d.twin.seqIn seq then diverge sn 2 d
  else if !decide (2 ≤ (t - sn).toNat ∧ (t - sn).toNat < 2 ^ 31) then diverge sn 1 d
  else
    let d := onTwin d fun x => { x with
      seqIn := some (seq + 1), commitSeq := seq, clean := if x.snapLast then 0 else x.clean,
      resyncT := if x.snapLast then some t else x.resyncT, snapLast := false }
    let d := onTilth d fun x => { x with prep := some { members := [], timed := true, tsn := t, target := some t, acked := true, seq := seq } }
    sendAck (tilthStat d)

/-- ACK (R244, R307). -/
def ackIn (cs fs : Nat) (sn : SN) (d : Dev) : Dev :=
  if d.twin.role ≠ .active then d else
  let d := match d.tilth.prep with
    | some c => if c.target.isSome ∧ c.seq ≤ cs then onTilth d fun t => { t with prep := some { c with acked := true } } else d
    | none => d
  let ws := d.twin.waits
  (ws.filter fun w => decide (w.1 ≤ fs)).foldl (fun d w => finish d w.2.1 w.2.2.1 w.2.2.2.1 0 sn w.2.2.2.2)
    (onTwin d fun t => { t with waits := ws.filter fun w => decide (fs < w.1) })

/-- A mirrored decision enters the group (R259, R307): the timers take the start SNs that it carries, and an input with a
condition and no running timer has passed its hold-off. In a 1:N group a second record with the target names the sweep at
which the lane selector takes it (log entry 156). -/
def putDecision (x : DecisionRec) (sn : SN) (d : Dev) : Dev :=
  match groupOf d x.pgid.toNat with
  | none => onTwin d fun t => { t with early := tins t.early x.pgid.toNat x }
  | some g =>
    let ins := g.inputs.mapIdx fun k i =>
      let t := (x.holdOff.find? fun h => h.1 == k).map (·.2)
      { i with timer := t, up := t.isNone && i.cond != .none }
    let g := { g with inputs := ins, wtr := x.wtr.map fun t => (x.sel.val, t), lastReq := x.top.toNat, lastSig := x.sel.val }
    let k := x.sel.val
    let mi := wantMi g k
    let g := { g with pendMi := if mi = g.mi ∧ g.pendMi.isNone then none else some (mi, x.x) }
    let g := if k ≠ projSig g then { g with pend := some ⟨k, x.x, x.top.toNat⟩, lsel := none }
      else if g.cfg.typ = 2 ∧ k ≠ 0 ∧ g.r ≠ k ∧ snFuture x.x sn then { g with lsel := some ⟨k, x.x, x.top.toNat⟩ } else g
    setGroup d x.pgid.toNat g

/-- DECISION (R259). -/
def decisionIn (x : DecisionRec) (sn : SN) (d : Dev) : Dev := if follows d then putDecision x sn d else d

/-- PSC_SEL (R267): the entries that the active has chosen leave the standby's queue. -/
def pscSelIn (lane : Nat) (a b : BitVec 30) (d : Dev) : Dev :=
  if !follows d then d else
  let sent (e : BitVec 30) (pgid : Nat) : Bool := e.getLsbD 29 && (groupOf d pgid).any fun g => g.cfg.farPgid == (e.extractLsb' 12 17).toNat
  { d with prot := { d.prot with psc := tmod {} d.prot.psc lane fun t =>
    { t with given := some (a, b), q := t.q.filter fun q => !(sent a q.1 || sent b q.1) } } }

/-- A mirrored PG_COMMAND: the group's command input takes it, or it waits for its sweep (R262). -/
def cfgCommand (raw : BitVec 512) (d : Dev) : Dev × Bool :=
  let c := dF raw 16 20 4
  let sig := if c = 1 then 0 else dF raw 16 24 4
  match groupOf d (dF raw 16 0 17) with
  | none => (d, false)
  | some g =>
    (setGroup d (dF raw 16 0 17) (if timedOf raw then { g with timed := some (c, sig, mirrorRing, 0, targetOf raw, false) }
      else if c = 0 then { g with cmd := none, wtr := none, timed := none }
      else { g with cmd := some (c, sig), timed := none }), true)

/-- A mirrored PG_DELETE: its decision has come as a record of its own and applied at its sweep; what of it still stands
applies at once, since the active has completed the command. -/
def cfgDelete (pgid : Nat) (sn : SN) (d : Dev) : Dev × Bool :=
  match groupOf d pgid with
  | none => (d, false)
  | some g => (decisionDue pgid sn (setGroup d pgid { g with
      wait := [], timed := none, cmd := none, wtr := none, lsel := none, pend := some ⟨0, sn, 0⟩, pendMi := some (false, sn),
      del := some (mirrorRing, 0) }), true)

/-- Applies a mirrored descriptor (R307) as the unit that serves its opcode does; FINE_OPEN and FINE_CLOSE have come as
entries and commits. Answers whether it could be applied. -/
def applyCfg (raw : BitVec 512) (lists : List (List W32)) (sn : SN) (d : Dev) : Dev × Bool :=
  let op := opOf raw
  if op = 0x22 ∨ op = 0x23 then (d, true)
  else if op = 0x12 then cfgCommand raw d
  else if op = 0x11 then cfgDelete (dF raw 16 0 17) sn d
  else
    let uid := d.hif.uid
    let d := modRing { d with hif := { d.hif with uid := uid + 1 } } mirrorRing fun x =>
      { x with q := (x.q.filter fun e => e.ph == .taken) ++ [{ idx := 0, uid := uid, raw := raw, ph := .dispatched }] }
    let l (i : Nat) : List W32 := lists.getD i []
    let d := match op with
      | 0x10 => servePgCreate mirrorRing (l 0) 0 sn d
      | 0x20 => serveTribDefine mirrorRing (l 0) (l 1) (l 2) 0 sn d
      | 0x21 => serveTribRelease mirrorRing 0 sn d
      | 0x40 => serveDefectConfig mirrorRing sn d
      | 0x50 => serveMdcRoute mirrorRing sn d
      | _ => d
    let ok := match (ringOf d mirrorRing).q.find? fun e => e.uid == uid with
      | some e => (match e.ph with | .done st .. => st == stOk | .taken => true | _ => false)
      | none => false
    let d := match op, tfind d.twin.early (dF raw 16 0 17) with
      | 0x10, some x => onTwin (putDecision x sn d) fun t => { t with early := tdel t.early (dF raw 16 0 17) }
      | _, _ => d
    (modRing d mirrorRing fun x => { x with q := x.q.filter fun e => e.ph == .taken }, ok)

/-- CONFIG (R307). The release of an allocation counts as applied once its own blocks have returned (R178). -/
def configIn (seq : Nat) (raw : BitVec 512) (lists : List (List W32)) (sn : SN) (d : Dev) : Dev :=
  if !follows d then d
  else if !inTurn d.twin.cfgIn seq then diverge sn 2 d
  else
    let had := (ringOf d mirrorRing).q.map (·.uid)
    let x := applyCfg raw lists sn d
    let more := ((ringOf x.1 mirrorRing).q.filter fun e => !had.contains e.uid).map fun e => (seq, e.uid)
    if x.2 then sendAck (onTwin x.1 fun t => { t with cfgIn := some (seq + 1), configSeq := seq, cfgWait := t.cfgWait ++ more })
    else diverge sn 3 x.1

/-- The Loess allocations of the active's snapshot stand as it gives them (R178, R322). -/
def putBudgets (l : List BudgetRec) (sn : SN) (d : Dev) : Dev :=
  let keep := d.cli.loess.filter (·.ended)
  [0, 1, 2, 3].foldl (quadStat sn) { d with cli := { d.cli with
    loess := keep ++ l.map fun b => { owner := b.owner, six := b.six, blk := b.blk, d16 := b.d16, m := b.m } } }

/-- A selector entry of the snapshot (Table 8-5), with the reason of Table 8-6 that its HOLD and MI bits show. -/
def selOf (b : BitVec 3) : Sel :=
  { sel := b.getLsbD 0, ecc := b.getLsbD 1 && b.getLsbD 2, promo := b.getLsbD 1 && !b.getLsbD 2, pmi := b.getLsbD 2 && !b.getLsbD 1 }

/-- STATE (R322 step 2). -/
def stateIn (c : StateChunk) (sn : SN) (d : Dev) : Dev :=
  if !(follows d && coupling d == 2) then d else
  match c with
  | .budgets l => putBudgets l sn d
  | .entries ws => putEntries ws d
  | .selector ws => ws.foldl (fun d w => modSel d w.1 fun _ => selOf w.2) d
  | .descriptor raw lists => let x := applyCfg raw lists sn d; if x.2 then x.1 else diverge sn 3 x.1
  | .group x => putDecision x sn d
  | .last => onTwin d fun t => { t with snapLast := true }

/-- RESYNC_START on the standby (R322 step 1): what the snapshot brings replaces what the standby held; the shadow is cleared
once it is released (R20). -/
def resyncBegin (sn : SN) (d : Dev) : Dev :=
  if d.twin.role ≠ .standby ∨ !linkUp d then d else
  let d := onTwin (setCoupling d 2) fun t => { t with
    seqIn := none, cfgIn := none, early := [], cfgWait := [], snapLast := false, resyncT := none, clean := 0, diverged := false }
  let d := { d with tilth := { seqOut := d.tilth.seqOut, lastT := d.tilth.lastT, released := d.tilth.released, made := d.tilth.made, fresh := true } }
  let d := if d.tilth.released then lateWrites d else d
  let d := { d with
    sw := { d.sw with sel := [] }, prot := { d.prot with groups := [], psc := [] },
    cli := { d.cli with tribs := [], loess := [], lanesAl := [], lanesSk := [], drain := [], profiles := [],
                        flexe := d.cli.flexe.map fun f => (f.1, { f.2 with txA := [], txB := [], sw := none, old := [] }) },
    chans := d.chans.map fun c => (c.1, { c.2 with rxNext := some 31, txNext := some 31 }) }
  tilthStat ([0, 1, 2, 3].foldl (quadStat sn) d)

/-- RESYNC_END on the standby (R322). -/
def resyncStop (sn : SN) (d : Dev) : Dev := if d.twin.role = .standby ∧ coupling d = 2 then toDiverged sn 6 d else d

/-- LOCKSTEP_ENTRY (R322 step 4). -/
def lockstep (sn : SN) (d : Dev) : Dev :=
  if follows d && coupling d == 2 && decide (16 ≤ d.twin.clean) then control (raise (setCoupling d 3) { typ := 0x66, sn := sn }) 4 else d

/-- COUPLING_NOTICE on the active (R322 step 4). -/
def coupled' (sn : SN) (d : Dev) : Dev :=
  if d.twin.role = .active ∧ d.twin.resync.isSome ∧ coupling d = 2 then
    endResync sn stOk (raise (setCoupling d 3) { typ := 0x66, sn := sn }) else d

/-- RESYNC_TIMEOUT on the active (R322), by the time-out that the resync began with (R324). -/
def resyncTimeout (sn : SN) (d : Dev) : Dev :=
  if d.twin.role = .active ∧ d.twin.resync.isSome ∧ d.twin.resyncTmo ≠ 0 then
    divergeMate (endResync sn stDiverged (control d 3)) else d

/-- DIVERGENCE_NOTICE (R296, R307): on the standby it comes from the active that waited in vain for an acknowledgement. -/
def divergenceIn (sn : SN) (d : Dev) : Dev := if d.twin.role = .standby then diverge sn 3 d else mateDiverged sn d

/-- CONFIG_ACK_TIMEOUT (R307): the oldest waiting descriptor completes with DIVERGED. -/
def ackTimeout (sn : SN) (d : Dev) : Dev :=
  match d.twin.waits with
  | [] => d
  | w :: ws =>
    let d := finish (onTwin d fun t => { t with waits := ws }) w.2.1 w.2.2.1 stDiverged 0 sn w.2.2.2.2
    if d.twin.role = .active ∧ 2 ≤ coupling d then mateDiverged sn (control d 1) else d

/-! ### Mate death and promotion -/

/-- The lanes whose failing flag is set. -/
def failLanes (d : Dev) : List Nat := (List.range 128).filter (sigFlag d)

/-- MATE_DEATH (R298, R313, R315, R316, R318), with the pin that shows it and the time after the tick. -/
def mateDeath (failPin : Bool) (ns : Nat) (sn : SN) (d : Dev) : Dev :=
  let d := if failPin then wrB d F.TWN_STATUS_MATE_FAIL 0 true else wrB d F.TWN_STATUS_MATE_ALIVE 0 false
  match d.twin.role with
  | .standby =>
    if d.pwr.hbOff ∨ (d.pwr.st = .entry ∧ d.pwr.agreed) ∨ !ticking d ∨ d.twin.promoting.isSome then d else
    let cause := if failPin then 2 else 3
    let d := raise d { typ := 0x68, sn := sn, p0 := cause, p1 := sn.toNat }
    let d := onTwin (setCoupling d 0) fun t => { t with
      promoting := some (cause, failLanes d), gpio := some (BitVec.ofNat 32 (rd d F.GLB_GPIO_OUT_VAL + 65536 * rd d F.GLB_GPIO_DIR_OE)), early := [], snapLast := false, resyncT := none, clean := 0 }
    let d := onTilth (ptbStop d) fun t => { t with late := [], fresh := false, planeIn := [] }
    evalAll sn ns (if d.tilth.prep.isNone && d.tilth.released then rollback d else d)
  | .active =>
    if failPin then endResync sn stDiverged (setCoupling (raise d { typ := 0x69, sn := sn }) 0) else d
  | _ => d

/-- PROMOTION (R315 to R318). -/
def promotion (sn : SN) (d : Dev) : Dev :=
  match (if d.twin.role = .standby then d.twin.promoting else none) with
  | none => d
  | some (cause, ls) =>
    let d := becomeActive sn cause (onTwin d fun t => { t with promoting := none, gpio := none, holdTmo := rd d F.TWN_CFG_HOLD_TMO })
    let d := { d with prot := { d.prot with stopped := false } }
    let us := ((active d).egr.filter fun e => egrEn e.2 && ls.contains (portOf e.1)).map (·.1)
    us.foldl (fun d u => modSel d u fun x => { x with promo := true, ending := false }) d

/-- HOLD_TMO_EXPIRY (R317), by the timeout that the promotion found (R324). -/
def holdTmo (d : Dev) : Dev := if d.twin.holdTmo = 0 then d else endPromoOn (fun _ => true) d

/-! ### Role swap and TWIN_RESYNC -/

/-- Serves TWIN_ROLE_SWAP (R321). -/
def serveSwap (r : Nat) (sn : SN) (d : Dev) : Dev :=
  match servedBy d r 0x70 with
  | none => d
  | some e => match firstProb (reservedProb e.raw) with
    | some p => badDesc d r e.uid sn p
    | none =>
      if d.twin.role ≠ .active ∨ !linkUp d ∨ coupling d ≠ 3 ∨ !(failLanes d).isEmpty then finish d r e.uid stBlocked 5 sn
      else if d.tilth.prep.isSome ∨ d.tilth.batch.isSome ∨ d.twin.swap.isSome then d
      else
        let x := fixTarget d sn (timedOf e.raw) (targetOf e.raw)
        take (control (onTwin d fun t => { t with swap := some (r, e.uid, x.1, x.2) }) 5 [x.1.toNat]) r e.uid

/-- ROLE_SWAP_TICK (R321): the tick of T, at the old active and at its standby. -/
def swapTick (sn : SN) (d : Dev) : Dev :=
  match d.twin.role, d.twin.swap with
  | .active, some x => if snDue x.2.2.1 sn then onTwin d fun t => { t with swapHalf := true } else d
  | .standby, none => if follows d && coupling d == 3 then becomeActive sn 5 (onTwin d fun t => { t with diverged := false }) else d
  | _, _ => d

/-- ROLE_SWAP_LATCH_CLEAR (R321): the tick of T + 1 at the old active. -/
def swapDone (sn : SN) (d : Dev) : Dev :=
  match d.twin.swap with
  | none => d
  | some (r, uid, t, late) =>
    if !d.twin.swapHalf || !snDue (t + 1) sn then d else
    let d := if d.twin.role = .active then setCoupling (becomeStandby sn 5 d) 3 else d
    finish (onTwin d fun x => { x with swap := none, swapHalf := false }) r uid (if late then stLate else stOk) 0 t

/-- The TWIN_RESYNC descriptor that a command with MODE `mode` serves. -/
def resyncDesc (d : Dev) (r : Nat) (mode : Bool) : Option QEnt := (servedBy d r 0x71).filter fun e => dB e.raw 16 0 == mode

/-- Serves TWIN_RESYNC with MODE 0 (R322). -/
def serveResync (r : Nat) (sn : SN) (d : Dev) : Dev :=
  match resyncDesc d r false with
  | none => d
  | some e => match firstProb (reservedProb e.raw) with
    | some p => badDesc d r e.uid sn p
    | none =>
      if d.twin.role ≠ .active ∨ !linkUp d ∨ coupling d = 0 then finish d r e.uid stBlocked 5 sn
      else if coupling d = 3 then finish d r e.uid stOk 0 sn
      else match d.twin.resync with
        | some ws => take (onTwin d fun t => { t with resync := some (ws ++ [(r, e.uid)]) }) r e.uid
        | none => if resyncFree d then take (startResync [(r, e.uid)] d) r e.uid else d

/-- Serves TWIN_RESYNC with MODE 1 (R323). -/
def serveUnhold (r : Nat) (sn : SN) (d : Dev) : Dev :=
  match resyncDesc d r true with
  | none => d
  | some e => match firstProb (reservedProb e.raw) with
    | some p => badDesc d r e.uid sn p
    | none => take (onTwin d fun t => { t with
        unhold := t.unhold ++ [(earliest d sn, BitVec.ofNat 128 (dF e.raw 20 0 128), r, e.uid)] }) r e.uid

/-! ### The commands -/

/-- A record of a TYPE that has come over the twin link (R300; Table 17-10, event 0x13). -/
def fromMate (typ : Nat) (s : State) (f : Dev → Dev) : Res := core s fun d => f (perf (takeRecord typ d) 0x13 0)

/-- R293, R294: the always-on island acts whether or not the core is powered. -/
def execHeartbeatLoss (s : State) : Res := onDev s (heartbeatLoss s.sn)
/-- R293. -/
def execYield (s : State) : Res := onDev s (yieldNow s.sn)
/-- R547. -/
def execTwnCfgEn (en : Bool) (s : State) : Res := core s (twnEn en s.lock s.sn)
/-- R297. -/
def execStartUpClaim (quietMs : Nat) (alive : Bool) (s : State) : Res := core s (claim quietMs alive s.sn)
/-- R302. -/
def execTwinLinkUp (delay : BitVec 12) (s : State) : Res := core s (linkRise delay s.sn)
/-- R302. -/
def execTwinLinkDown (cause : Fin 3) (_inframe : Seen) (s : State) : Res := core s (linkFall cause s.sn)
/-- R303. -/
def execPair (p : PairRec) (s : State) : Res := fromMate 1 s (pairRecIn p)
/-- R303. -/
def execPairAuth (resp : BitVec 128) (mateActive : Bool) (mateSn : SN) (s : State) : Res := coreSt s (pairAuth resp mateActive mateSn)
/-- R303. -/
def execPairingRetry (s : State) : Res := core s pairRetry
/-- R306. -/
def execSweep (_sn : SN) (delay : BitVec 12) (offset : BitVec 16) (s : State) : Res := fromMate 3 s (sweepIn delay offset)
/-- R311. -/
def execSig (sn : SN) (valid : BitVec 128) (sigs : List W32) (s : State) : Res := fromMate 4 s (sigIn sn valid sigs s.sn)
/-- R243. -/
def execEntry (seq : Nat) (w : List EntryWr) (s : State) : Res := fromMate 5 s (entryIn seq w s.sn)
/-- R243. -/
def execCommit (seq : Nat) (target : SN) (s : State) : Res := fromMate 6 s (commitIn seq target s.sn)
/-- R244. -/
def execAck (commitSeq configSeq : Nat) (s : State) : Res := fromMate 7 s (ackIn commitSeq configSeq s.sn)
/-- R259. -/
def execDecision (x : DecisionRec) (s : State) : Res := fromMate 8 s (decisionIn x s.sn)
/-- R267. -/
def execPscSel (lane : Fin 128) (a b : BitVec 30) (s : State) : Res := fromMate 9 s (pscSelIn lane a b)
/-- R307. -/
def execConfig (seq : Nat) (raw : BitVec 512) (lists : List (List W32)) (s : State) : Res := fromMate 0xa s (configIn seq raw lists s.sn)
/-- R322. -/
def execState (c : StateChunk) (s : State) : Res := fromMate 0xb s (stateIn c s.sn)
/-- R296. -/
def execDivergenceNotice (s : State) : Res := fromMate 0xc s (divergenceIn s.sn)
/-- R322. -/
def execResyncStart (s : State) : Res := fromMate 0xc s (resyncBegin s.sn)
/-- R322. -/
def execResyncEnd (s : State) : Res := fromMate 0xc s (resyncStop s.sn)
/-- R322. -/
def execCouplingNotice (s : State) : Res := fromMate 0xc s (coupled' s.sn)
/-- R307. -/
def execConfigAckTimeout (s : State) : Res := core s (ackTimeout s.sn)
/-- R313. -/
def execMateDeath (failPin : Bool) (ns : Nat) (s : State) : Res := core s (mateDeath failPin ns s.sn)
/-- R315. -/
def execPromotion (s : State) : Res := core s (promotion s.sn)
/-- R317. -/
def execHoldTmoExpiry (s : State) : Res := core s holdTmo
/-- R321. -/
def execRoleSwapTick (s : State) : Res := core s (swapTick s.sn)
/-- R321. -/
def execRoleSwapLatchClear (s : State) : Res := core s (swapDone s.sn)
/-- R322. -/
def execLockstepEntry (s : State) : Res := core s (lockstep s.sn)
/-- R322. -/
def execResyncTimeout (s : State) : Res := core s (resyncTimeout s.sn)
/-- R322. -/
def execAutoResyncRetry (s : State) : Res := core s autoResync
/-- R321. -/
def execTwinRoleSwap (ring : Fin 16) (s : State) : Res := core s (serveSwap ring s.sn)
/-- R322. -/
def execTwinResync (ring : Fin 16) (s : State) : Res := core s (serveResync ring s.sn)
/-- R323. -/
def execTwinResyncMode1 (ring : Fin 16) (s : State) : Res := core s (serveUnhold ring s.sn)

end Sys2Proof.Machine
end

