-- ==== Sys2Proof/Machine/Dma.lean ====
section
/-! DEFINITION. Address translation and the host port's arbiter (chapter 14): the ATS cache, page requests and their
responses, read retries, grants, backoff, link loss and freezing. -/

namespace Sys2Proof.Machine

/-- Updates the state of translation and arbitration. -/
def onDma (d : Dev) (f : Dma → Dma) : Dev := { d with dma := f d.dma }

/-! ### Translation -/

/-- Requests a translation of the page of `a`. -/
def askTrans (d : Dev) (a : Nat) : Dev := emit d (.transReq (a / 4096 * 4096))

/-- The access of ring `r` to the page needs W: records of a device-produced ring, and the C write-back of a
host-produced one. -/
def needsW (d : Dev) (r page : Nat) : Bool :=
  let wb := rd d F.HIF_RING_WB_LO r + 2 ^ 32 * rd d F.HIF_RING_WB_HI r
  !hostRing r || (wb != 0 && wb / 4096 * 4096 == page)

/-- An entry that R357 pins: it covers the page of the current position of an enabled ring, or the next page. -/
def pinned (d : Dev) (e : AtsEnt) : Bool :=
  (List.range 41).any fun r =>
    let j := if hostRing r then rC d r else rP d r
    let covers (a : Nat) : Bool := decide (e.base ≤ a ∧ a < e.base + 4096 * 2 ^ e.size)
    rdB d F.HIF_RING_CFG_EN r && (covers (recAddr d r j) || covers (recAddr d r (j + 4096 / recBytes r)))

/-- The cache without the entry that a new one replaces: the one that pseudo-LRU chose, or, when all 1024 are taken and it
chose none, the last one that is not pinned (R357). -/
def evictFor (d : Dev) (choice : Option Nat) : List AtsEnt :=
  let es := d.dma.cache
  match choice with
  | some i => match es[i]? with
    | some e => if pinned d e then es else es.eraseIdx i
    | none => es
  | none => if es.length < 1024 then es else
    match es.reverse.find? fun e => !pinned d e with
    | some e => es.erase e
    | none => es

/-- The paused access of ring `r` goes on (R365, Table 14-3). -/
def resumeRing (d : Dev) (r : Nat) : Dev :=
  let d := if rState d r = 2 then rSet d r 1 else d
  let d := onDma d fun m => { m with succ := tdel m.succ r }
  match (ringOf d r).held with
  | some e => if canWrite d r then writeEv (modRing d r fun x => { x with held := none }) r e else d
  | none => d

/-- Requests in the order of their faults, at most 512 of them outstanding (R360). -/
def sendReqs (d : Dev) : Dev :=
  let free := 512 - (d.dma.reqs.filter (·.sent)).length
  let go := (d.dma.reqs.filter fun x => !x.sent).take free
  let d := go.foldl (fun d x => perf (emit d (.pageReq x.page x.w)) 0xD 0) d
  onDma d fun m => { m with reqs := m.reqs.map fun x => if go.contains x then { x with sent := true } else x }

/-- The access of ring `r` fails (R361, R363): no request waits for it any more. -/
def failAccess (sn : SN) (code page : Nat) (d : Dev) (r : Nat) : Dev :=
  let d := onDma d fun m => { m with
    reqs := (m.reqs.map fun x => { x with rings := x.rings.filter (·.val != r) }), succ := tdel m.succ r,
    retry := m.retry.filter (· != r), second := m.second.filter (· != r) }
  ringFault sn d r page code

/-- The ring pauses at its next burst boundary (R364); the event record that faulted is held (Table 14-3). -/
def pauseRing (d : Dev) (r : Nat) : Dev :=
  let d := if rState d r = 1 then rSet d r 2 else d
  if 32 ≤ r ∧ r < 36 then
    match d.hif.evq.zipIdx.find? fun x => evRing d x.1 == r with
    | some x => modRing { d with hif := { d.hif with evq := d.hif.evq.eraseIdx x.2, evOut := d.hif.evOut + 1 } } r fun y => { y with held := some x.1 }
    | none => d
  else d

/-- A translation fault of ring `r` on a page (R360, R361). -/
def transFault (sn : SN) (d : Dev) (r : Fin 41) (page : Nat) (w : Bool) : Dev :=
  if d.dma.rspFail then failAccess sn 0xF page d r
  else if !d.dma.pri then failAccess sn 0x101 page d r
  else if 3 ≤ tget 0 d.dma.succ r then failAccess sn 0x106 page d r
  else
    let d := if (ringOf d r).held.isSome then d else pauseRing d r
    if d.dma.reqs.any fun x => x.page == page && x.w == w then
      onDma d fun m => { m with
        reqs := m.reqs.map fun x =>
        if x.page = page ∧ x.w = w ∧ !x.rings.contains r then { x with rings := x.rings ++ [r] } else x }
    else sendReqs (onDma d fun m => { m with reqs := m.reqs ++ [{ page := page, w := w, rings := [r], sent := false }] })

/-- TRANSLATION_COMPLETION (R356, R358 to R361). -/
def transCpl (c : TransCpl) (sn : SN) (d : Dev) : Dev :=
  let page := c.addr.toNat / 4096 * 4096
  if !d.dma.enable then d
  else if c.stale then askTrans d page
  else
    let span := 4096 * 2 ^ c.size.val
    let e : AtsEnt := { base := page / span * span, size := c.size.val, trans := c.base.toNat, r := c.r, w := c.w, u := c.u }
    let d := if c.r || c.w || c.u then
        onDma d fun m => { m with cache := e :: (evictFor d c.evict).filter fun x => !(x.base == e.base && x.size == e.size) } else d
    match c.ring with
    | none => d
    | some r =>
      let w := needsW d r page
      if c.u || (if w then c.w else c.r) then resumeRing d r
      else if rState d r = 1 ∨ rState d r = 2 then transFault sn d r page w else d

/-- Takes the outstanding requests for a page out of the list. -/
def takeReqs (d : Dev) (page : Nat) : List PageReq × Dev :=
  (d.dma.reqs.filter fun x => x.sent && x.page == page,
    sendReqs (onDma d fun m => { m with reqs := m.reqs.filter fun x => !(x.sent && x.page == page) }))

/-- Fails every access that waits for one of the requests. -/
def failReqs (sn : SN) (code : Nat) (rs : List PageReq) (d : Dev) : Dev :=
  rs.foldl (fun d x => x.rings.foldl (fun d r => failAccess sn code x.page d r) d) d

/-- PRG_RESPONSE (R361): 0 Success, 1 Invalid Request, 2 Response Failure. -/
def prgResponse (page code : Nat) (sn : SN) (d : Dev) : Dev :=
  let page := page / 4096 * 4096
  let x := takeReqs d page
  match x.1 with
  | [] => d
  | rs =>
    if code = 0 then
      rs.foldl (fun d q => q.rings.foldl (fun d r =>
        askTrans (onDma d fun m => { m with succ := tput 0 m.succ r.val (tget 0 m.succ r.val + 1) }) page) d) x.2
    else if code = 1 then failReqs sn 1 rs x.2
    else failReqs sn 0xF d.dma.reqs (onDma d fun m => { m with reqs := [], rspFail := true })

/-- PRI_TIMEOUT (R361). -/
def priTimeout (page : Nat) (sn : SN) (d : Dev) : Dev :=
  if rd d F.HIF_ATS_CFG_PRI_TMO = 0 then d else
  let x := takeReqs d (page / 4096 * 4096)
  failReqs sn 0x100 x.1 x.2

/-- PRI_ENABLE (R361). -/
def priEnable (on : Bool) (sn : SN) (d : Dev) : Dev :=
  if on then onDma d fun m => { m with pri := true, stopped := false }
  else failReqs sn 0x105 d.dma.reqs (onDma d fun m => { m with pri := false, stopped := true, reqs := [] })

/-- INVALIDATE_REQUEST (R359): `size` bytes from `addr`. -/
def invalidate (addr size : Nat) (d : Dev) : Dev :=
  onDma d fun m => { m with
    inval := m.inval + 1,
    cache := m.cache.filter fun e => !decide (e.base < addr + size ∧ addr < e.base + 4096 * 2 ^ e.size) }

/-- INVALIDATE_COMPLETION (R359). -/
def invalidated (d : Dev) : Dev :=
  if d.dma.inval = 0 then d
  else emit (sat (onDma d fun m => { m with inval := m.inval - 1 }) F.HIF_ATS_INVAL 0) .invalDone

/-- COMPLETION_TIMEOUT (R362, R363): a DMA read of ring `r` ended badly. -/
def badRead (r : Nat) (e : ReadEnd) (sn : SN) (d : Dev) : Dev :=
  if rState d r ≠ 1 ∧ rState d r ≠ 2 then d
  else if d.dma.second.contains r then
    failAccess sn (match e with | .ur => 0x102 | .ca => 0x103 | .timeout => 0x104) (recAddr d r (rC d r)) d r
  else if d.dma.retry.contains r then d
  else onDma d fun m => { m with retry := m.retry ++ [r] }

/-- READ_RETRY (R362): 10 µs later the read is issued again after a new translation. -/
def readRetry (r : Nat) (d : Dev) : Dev :=
  if !d.dma.retry.contains r then d
  else
    let d := onDma d fun m => { m with retry := m.retry.filter (· != r), second := m.second ++ [r] }
    if d.dma.enable then askTrans d (recAddr d r (rC d r)) else d

/-- ATS_ENABLE (R356): while Enable is clear there is no cache and no page request, and what waited for one goes on
untranslated. -/
def atsEnable (on : Bool) (d : Dev) : Dev :=
  if on then onDma d fun m => { m with enable := true, cache := if m.enable then m.cache else [] }
  else
    let rs := (List.range 41).filter fun r => rState d r == 2
    rs.foldl resumeRing (onDma d fun m => { m with enable := false, cache := [], reqs := [], succ := [] })

/-! ### The arbiter -/

/-- Pending MSI-X messages of unmasked vectors leave once the port is not frozen (R349, R374). -/
def msiFlush (d : Dev) : Dev :=
  if frozen d then d else
  (List.range 64).foldl (fun d v =>
    let p := rd d F.MSIX_PBA (v / 32)
    if p.testBit (v % 32) && !rdB d F.MSIX_CTL v then sendMsi (wr d F.MSIX_PBA (v / 32) (p - 2 ^ (v % 32))) v else d) d

/-- The link, Bus Master Enable or FREEZE has changed (R371 to R374): an arbiter that unfreezes has every backoff cleared. -/
def arbChange (d : Dev) : Dev :=
  let was := frozen d
  let d := arbStat d
  if was && !frozen d then
    msiFlush (wr (onDma d fun m => { m with backoff := Vector.replicate 8 0 }) F.ARB_STATUS_BACKOFF 0 0)
  else d

/-- ARB_WINDOW (R367). -/
def arbWindow (d : Dev) : Dev :=
  onDma d fun m => { m with
    credit := m.credit.mapIdx fun r c => ((max 1 (rd d F.ARB_WEIGHT_W r) : Nat) : Int) + min c 0 }

/-- The requester that serves ring `r` (Table 14-1). -/
def requesterOf (r : Nat) : Nat :=
  if r < 4 then 0 else if r < 16 then 1 else if r < 32 then 2 else if r < 36 then 3 else if r < 38 then 4 else if r < 40 then 5 else 6

/-- The rings for which requester `q` requests: a burst is ready, and the ring is neither PAUSED nor FAULTED (R354). -/
def askRings (d : Dev) (g : GrantIn) (q : Nat) : List Nat :=
  (List.range 41).filter fun r => requesterOf r == q && g.ready.getLsbD r && rState d r != 2 && rState d r != 3

/-- Requester `q` requests (R354). -/
def asks (d : Dev) (g : GrantIn) (q : Nat) : Bool := if q = 7 then g.ats else !(askRings d g q).isEmpty

/-- The ring that requester `q` serves: round robin in ring-ID order, CPL0 to CPL3 before the others (R354). -/
def ringFor (d : Dev) (g : GrantIn) (q : Fin 8) : Option Nat :=
  let rs := askRings d g q
  let rs := if q = 2 ∧ rs.any (fun r => decide (r < 20)) then rs.filter fun r => decide (r < 20) else rs
  match rs.find? fun r => decide (d.dma.served[q] < r) with
  | some r => some r
  | none => rs.head?

/-- Requester `r` is eligible (R368). -/
def eligible (d : Dev) (g : GrantIn) (r : Fin 8) : Bool := asks d g r && d.dma.backoff[r] == 0 && !frozen d

/-- The requesters in rotation after the one last granted. -/
def rotation (d : Dev) : List (Fin 8) := (List.finRange 8).map fun k => d.dma.last + 1 + k

/-- The arbiter's choice (R368). -/
def arbChoose (d : Dev) (g : GrantIn) : Option (Fin 8) :=
  let es := (rotation d).filter (eligible d g)
  match es.find? fun (r : Fin 8) => decide (0 < d.dma.credit[r]) with
  | some r => some r
  | none => es.head?

/-- The bits of ARB_STATUS.BACKOFF. -/
def backoffBits (d : Dev) : Dev :=
  wr d F.ARB_STATUS_BACKOFF 0 ((List.finRange 8).foldl (fun a r => if d.dma.backoff[r] = 0 then a else a + 2 ^ r.val) 0)

/-- A grant applies (R369): a write takes the port for its cycles, any other burst for one. -/
def arbApply (g : GrantIn) (r : Fin 8) (d : Dev) : Dev :=
  if !eligible d g r then perf (sat d F.ARB_NULL 0) 0xB 0
  else if g.accept then
    perf (emit (onDma d fun m => { m with
      credit := m.credit.set r (m.credit[r] - (cdiv g.bytes 64 : Nat)), boLen := m.boLen.set r 1, last := r,
      occ := if g.write then cdiv g.bytes 64 - 1 else 0,
      served := match ringFor d g r with | some k => m.served.set r k | none => m.served }) (.burst r (ringFor d g r))) 9 r
  else
    perf (backoffBits (sat (onDma d fun m => { m with
      backoff := m.backoff.set r m.boLen[r], boLen := m.boLen.set r (min (2 * m.boLen[r]) 128) }) F.ARB_RET_RET r)) 0xA r

/-- A cycle in which every requester that has work is in backoff (R371, Table 14-11). -/
def arbIdle (d : Dev) (g : GrantIn) : Bool :=
  d.dma.occ == 0 && !frozen d && (List.finRange 8).any (fun r => asks d g r) &&
    (List.finRange 8).all fun r => !asks d g r || d.dma.backoff[r] != 0

/-- ARB_GRANT (R368 to R370): one DMA cycle. In registered mode the choice of the cycle before applies, and this cycle's
choice, made while the port will be free, is kept for the next; in combinational mode a grant bars the cycle after it. -/
def arbGrant (g : GrantIn) (d : Dev) : Dev :=
  let tick (d : Dev) : Dev := onDma d fun m => { m with occ := m.occ - 1 }
  let d := if arbIdle d g then sat d F.ARB_IDLE 0 else d
  if rdB d F.ARB_STATUS_MODE then
    match (if d.dma.occ = 0 then arbChoose d g else none) with
    | some r => onDma (arbApply g r d) fun m => { m with occ := max m.occ 1 }
    | none => tick d
  else
    let next := if frozen d then none else arbChoose d g
    let d := match d.dma.choice with | some r => arbApply g r d | none => tick d
    onDma d fun m => { m with choice := if m.occ = 0 then next else none }

/-- BACKOFF_EXPIRY (R369). -/
def backoffEnd (r : Fin 8) (d : Dev) : Dev := backoffBits (onDma d fun m => { m with backoff := m.backoff.set r 0 })

/-- DL_DOWN (R371, R372). -/
def dlDown (d : Dev) : Dev := arbChange (onDma d fun m => { m with link := false, recovery := true, retry := [], second := [] })

/-- LINK_UP (R372). -/
def hostLinkUp (d : Dev) : Dev := arbChange (onDma d fun m => { m with link := true })

/-- BUS_MASTER_ENABLE (R371, R372). -/
def busMaster (on : Bool) (d : Dev) : Dev := arbChange (onDma d fun m => { m with bme := on, recovery := m.recovery || !on })

/-- MODE_RECOVERY_END (R371). -/
def recoveryEnd (d : Dev) : Dev :=
  if d.dma.link && d.dma.bme && !rdB d F.ARB_CTL_FREEZE then arbStat (onDma d fun m => { m with recovery := false }) else d

/-- FREEZE (R374). -/
def freezePort (on : Bool) (d : Dev) : Dev := arbChange (wrB d F.ARB_CTL_FREEZE 0 on)

/-- DRAINED (R374). -/
def drained (d : Dev) : Dev := if frozen d then wrB d F.ARB_STATUS_DRAINED 0 true else d

/-! ### The commands -/

/-- R356. -/
def execTranslationCompletion (c : TransCpl) (s : State) : Res := core s (transCpl c s.sn)
/-- R361. -/
def execPrgResponse (page : BitVec 64) (code : Fin 3) (s : State) : Res := core s (prgResponse page.toNat code s.sn)
/-- R361. -/
def execPriTimeout (page : BitVec 64) (s : State) : Res := core s (priTimeout page.toNat s.sn)
/-- R361. -/
def execPriEnable (on : Bool) (s : State) : Res := core s (priEnable on s.sn)
/-- R359. -/
def execInvalidateRequest (addr : BitVec 64) (size : Nat) (s : State) : Res := core s (invalidate addr.toNat size)
/-- R359. -/
def execInvalidateCompletion (s : State) : Res := core s invalidated
/-- R362. -/
def execReadRetry (ring : Fin 41) (s : State) : Res := core s (readRetry ring)
/-- R362. -/
def execCompletionTimeout (ring : Fin 41) (e : ReadEnd) (s : State) : Res := core s (badRead ring e s.sn)
/-- R356. -/
def execAtsEnable (on : Bool) (s : State) : Res := core s (atsEnable on)
/-- R361. -/
def execResponseFailureCleared (s : State) : Res := core s fun d => onDma d fun m => { m with rspFail := false }
/-- R367. -/
def execArbWindow (s : State) : Res := core s arbWindow
/-- R369. -/
def execArbGrant (g : GrantIn) (s : State) : Res := core s (arbGrant g)
/-- R369. -/
def execBackoffExpiry (r : Fin 8) (s : State) : Res := core s (backoffEnd r)
/-- R372. -/
def execDlDown (s : State) : Res := core s dlDown
/-- R372. -/
def execLinkUp (s : State) : Res := core s hostLinkUp
/-- R372. -/
def execBusMasterEnable (on : Bool) (s : State) : Res := core s (busMaster on)
/-- R371. -/
def execModeRecoveryEnd (s : State) : Res := core s recoveryEnd
/-- R374. -/
def execFreeze (on : Bool) (s : State) : Res := core s (freezePort on)
/-- R374. -/
def execDrained (s : State) : Res := core s drained

end Sys2Proof.Machine
end

