-- ==== Sys2Proof/Machine/Monitor.lean ====
section
/-! DEFINITION. Performance monitoring (chapter 17): PM seconds and bins, objects, dumps, the legacy page and the
performance counters' commands. -/

namespace Sys2Proof.Machine

def onPm (d : Dev) (f : Pm → Pm) : Dev := { d with pm := f d.pm }

/-- Core 1 runs: it folds seconds and writes the legacy page (R437, R439). -/
def core1Runs (d : Dev) : Bool := rdB d F.CTL_CORE_STATUS_FW_READY && d.ctl.act.isNone && c1State d == 2

/-! ### Seconds -/

/-- Every running counter: those of Table 6-6 and of the lanes and copies, and those of the protection groups (R435). -/
def running (d : Dev) : Tbl Nat :=
  d.prot.groups.foldl (fun m g =>
    let m := g.2.inputs.zipIdx.foldl (fun m x => tput 0 m (cntKey 6 g.1 x.2) x.1.events) m
    tput 0 (tput 0 m (cntKey 6 g.1 16) g.2.cmdEvents) (cntKey 6 g.1 17) g.2.switches)
    (d.cli.cnts.map fun e => (e.1, e.2.toNat))

/-- The increments since the start of the current second. -/
def increments (d : Dev) : Tbl Nat :=
  (running d).foldl (fun m e => let b := tget 0 d.pm.base e.1; tput 0 m e.1 (if e.2 < b then e.2 else e.2 - b)) []

/-- What holds as a second begins: the lanes' conditions and defects, and the groups' selected signals. -/
def seenNow (d : Dev) : Tbl Nat :=
  let lanes := (List.range 128).foldl (fun m n =>
    let c := rd d F.FRM_RX_STATUS_COND n
    let f := rd d F.FRM_RX_STATUS_DEF n
    tput 0 m (cntKey 1 n 0) ((if c = 2 then 1 else 0) + (if c = 1 then 2 else 0) + (if f.testBit 8 then 4 else 0) + 256 * f)) []
  d.prot.groups.foldl (fun m g => tput 0 m (cntKey 6 g.1 0) (if g.2.r = 0 then 0 else 1)) lanes

/-- The lanes of a client object (Table 17-3). -/
def objLanes (d : Dev) (kind obj : Nat) : List Nat :=
  if kind = 1 ∨ kind = 5 then [obj] else if kind = 3 then clientLanes d obj else if kind = 4 then flxLanes d obj else []

/-- The object exists (R433). -/
def objExists (d : Dev) (kind obj : Nat) : Bool :=
  let mode (n : Nat) : Nat := rd d F.MAP_LANE_CFG_MODE n
  match kind with
  | 1 => isGlf (persOf d obj)
  | 2 => (match tribOf d (obj % 2 ^ 19) with
    | some t => t.has d ((obj / 2 ^ 19) % 4)
    | none => false)
  | 3 => isClient (persOf d obj) && (mode obj == 1 || mode obj == 2) && clientKey d obj == obj
  | 4 => rdB d F.MAP_FLX_GRP_CFG_EN obj
  | 5 => isClient (persOf d obj) && mode obj == 4
  | 6 => (groupOf d obj).isSome
  | _ => false

/-- Number of the 15-minute and of the 24-hour bin that holds a second (Table 17-5). -/
def idx15 (tod day : Nat) : Nat := tod / 900 + 128 * day
def idx24 (day : Nat) : Nat := 127 + 128 * day

/-! ### Classes of seconds (R434) -/

/-- Availability and its run after a second: it changes at the 10th second in a row. -/
def nextAvail (uas : Bool) (run : Nat) (ses : Bool) : Bool × Nat :=
  let k := if ses == uas then 0 else run + 1
  if 10 ≤ k then (!uas, 0) else (uas, k)

/-- ES, SES and UAS of a second from E, F, SES_TH and the availability that holds in it. -/
def classes (e : Nat) (f : Bool) (th : Nat) (uas : Bool) : Bool × Bool × Bool :=
  let ses := f || (th != 0 && decide (th ≤ e))
  (!uas && (decide (0 < e) || f), !uas && ses, uas)

/-- Whether a second is severely errored. -/
def sesOf (e : Nat) (f : Bool) (th : Nat) : Bool := f || (th != 0 && decide (th ≤ e))

/-- COUNT indices that take the running counters' increments as they are (Table 17-4), the index of ES, and that of E. -/
def plainIdx (kind : Nat) : List Nat :=
  match kind with
  | 1 => [0, 4, 8, 9, 10, 12, 13]
  | 2 => [0, 1, 8, 9, 10]
  | 3 => [0, 1, 2, 6, 7, 8, 9, 10, 11, 12, 13, 14, 15, 16]
  | 4 => [0, 1, 2, 6, 7, 8, 9, 10]
  | 5 => [0, 4]
  | _ => List.range 18
def esIdx (kind : Nat) : Nat := match kind with | 2 => 2 | 3 => 3 | 4 => 3 | _ => 1
def errIdx (kind : Nat) : Nat := match kind with | 3 => 2 | 4 => 2 | _ => 0

/-- Seen bits of an object in a second; a client's failure bit is that of its lanes (Table 17-3). -/
def seenBits (d : Dev) (x : Second) (kind obj : Nat) : Nat :=
  if 3 ≤ kind ∧ kind ≤ 5 then
    if (objLanes d kind obj).any fun n => (tget 0 x.seen (cntKey 1 n 0)).testBit 0 then 1 else 0
  else tget 0 x.seen (cntKey kind obj 0)

/-- Increment of COUNT index `i` in a second. -/
def incOf (x : Second) (o : PmObj) (kind obj i : Nat) : Nat :=
  tget 0 x.inc (cntKey kind obj i) - (if o.since = x.start then tget 0 o.skip i else 0)

/-- What a second adds to an object's bins by COUNT index, and its availability after it. -/
def secCounts (d : Dev) (x : Second) (o : PmObj) (kind obj : Nat) : List (Nat × Nat) × Avail :=
  let inc := incOf x o kind obj
  let plain := (plainIdx kind).map fun i => (i, inc i)
  let s := seenBits d x kind obj
  let bit (b i : Nat) : List (Nat × Nat) := if s.testBit b then [(i, 1)] else []
  if kind = 6 then (plain ++ bit 0 18, o.av)
  else
    let e := inc (errIdx kind)
    let f := s.testBit 0
    let near := nextAvail o.av.uas o.av.run (sesOf e f o.sesTh)
    let k := classes e f o.sesTh near.1
    let one (b : Bool) (i : Nat) : List (Nat × Nat) := if b then [(i, 1)] else []
    let cls := one k.1 (esIdx kind) ++ one k.2.1 (esIdx kind + 1) ++ one k.2.2 (esIdx kind + 2)
    let av : Avail := { o.av with uas := near.1, run := near.2 }
    if kind = 1 then
      let fe := inc 4
      let ff := s.testBit 2
      let far := nextAvail o.av.farUas o.av.farRun (sesOf fe ff o.sesTh)
      let fk := classes fe ff o.sesTh far.1
      (plain ++ cls ++ one fk.1 5 ++ one fk.2.1 6 ++ one fk.2.2 7 ++ bit 1 11, { av with farUas := far.1, farRun := far.2 })
    else (plain ++ cls ++ (if kind = 2 then bit 3 5 ++ bit 4 6 ++ bit 5 7 else []), av)

/-- Adds to a bin, each counter saturating (R435). -/
def binAdd (b : Bin) (l : List (Nat × Nat)) : Bin :=
  { b with cnt := l.foldl (fun m x => tput 0 m x.1 (min (tget 0 m x.1 + x.2) 0xFFFFFFFF)) b.cnt }

/-! ### Folding (R437) -/

/-- Bins close at the end of a second: on the boundaries of R430, or all of them at a new anchor (R431). -/
def closeBins (x : Second) (o : PmObj) : PmObj :=
  match x.cut with
  | some (f15, f24) => { o with
      p15 := { o.c15 with suspect := o.c15.suspect || !f15 }, c15 := { idx := idx15 x.nextTod x.nextDay }, tcaUp := false,
      p24 := { o.c24 with suspect := o.c24.suspect || !f24 }, c24 := { idx := idx24 x.nextDay, suspect := x.nextTod != 0 } }
  | none =>
    let o := if x.nextTod % 900 = 0 then { o with p15 := o.c15, c15 := { idx := idx15 x.nextTod x.nextDay }, tcaUp := false } else o
    if x.nextTod = 0 then { o with p24 := o.c24, c24 := { idx := idx24 x.nextDay } } else o

/-- The current bins are marked SUSPECT. -/
def suspectNow (o : PmObj) : PmObj :=
  { o with c15 := { o.c15 with suspect := true }, c24 := { o.c24 with suspect := true } }

/-- Folds one second into one object; `lost`: its counts are lost. -/
def foldObj (lost : Bool) (sn : SN) (x : Second) (d : Dev) (k : Nat) : Dev :=
  match tfind d.pm.objs k with
  | none => d
  | some o =>
    let kind := k / 64 / 4194304
    let obj := k / 64 % 4194304
    if snFuture o.since x.start then d else
    let set (d : Dev) (o : PmObj) : Dev := onPm d fun p => { p with objs := tins p.objs k o }
    if lost || !objExists d kind obj then set d (closeBins x (suspectNow o))
    else
      let c := secCounts d x o kind obj
      let o := { o with av := c.2, c15 := binAdd o.c15 c.1, c24 := binAdd o.c24 c.1, sec := binAdd { idx := x.tod } c.1 }
      let v := tget 0 o.c15.cnt o.tcaIdx
      let up := o.tcaEn && !o.tcaUp && decide (o.tcaTh ≤ v)
      let d := set d (closeBins x (if up then { o with tcaUp := true } else o))
      if up then raise d { typ := 0xA0, sn := sn, p0 := kind, p1 := obj, p2 := o.tcaIdx, p3 := v } else d

/-- The kind and object that count for lane `n` on the legacy page: the lane, or the client that it carries (R439). -/
def legacyKey (d : Dev) (n : Nat) : Nat × Nat :=
  if isGlf (persOf d n) then (1, n)
  else match rd d F.MAP_LANE_CFG_MODE n with
    | 3 => (4, rd d F.MAP_LANE_FLX_GRP n)
    | 4 => (5, n)
    | _ => (3, clientKey d n)

/-- The words of lane `n`'s entry (Table 17-7) for a second, and its availability after it. -/
def legacyLane (d : Dev) (x : Second) (n : Nat) : List Nat × Avail :=
  let k := legacyKey d n
  let th := match tfind d.pm.objs (cntKey k.1 k.2 0) with | some o => o.sesTh | none => 0
  let c := secCounts d x { sesTh := th, av := tget {} d.pm.leg n } k.1 k.2
  let v (i : Nat) : Nat := (c.1.foldl (fun a e => if e.1 = i then a + e.2 else a) 0) % 2 ^ 32
  let glf := k.1 == 1
  let s := tget 0 x.seen (cntKey 1 n 0)
  let es := esIdx k.1
  let fl := v es + 2 * v (es + 1) + 4 * v (es + 2) + (if glf then 8 * v 5 + 16 * v 6 + 32 * v 7 else 0)
  let fec := if glf then (v 8, v 9) else if k.1 = 5 then (0, 0) else (v 0, v 1)
  if !rdB d F.LNE_CTL_RX_EN n then ([0, 0, 0, 0, 0, 0, 0, 0], {})
  else ([if glf then v 0 else 0, if glf then v 4 else 0, fec.1, fec.2, fl + 64 * x.conds.getD n 0, s / 256 % 1024, if glf then v 13 else 0, 0], c.2)

/-- Folds one second: every object's bins, and the page that is to be written. -/
def foldSecond (lost : Bool) (sn : SN) (d : Dev) (x : Second) : Dev :=
  let ls := (List.range 128).map fun n => (n, if lost then ([0, 0, 0, 0, 0, 0, 0, 0], tget {} d.pm.leg n) else legacyLane d x n)
  let d := (d.pm.objs.map (·.1)).foldl (foldObj lost sn x) d
  onPm d fun p => { p with
    leg := ls.foldl (fun m e => tput {} m e.1 e.2.2) p.leg,
    page := some (x.start, x.tod, x.day, lost, ls.map fun e => e.2.1) }

/-- Core 1 folds the queue. -/
def foldQueue (sn : SN) (d : Dev) : Dev :=
  if core1Runs d then d.pm.queue.foldl (foldSecond false sn) (onPm d fun p => { p with queue := [] }) else d

/-- A second ends and the next begins at `at'` with second of day `tod` of day `day`. -/
def secondEnd (at' : SN) (tod day : Nat) (cut : Option (Bool × Bool)) (sn : SN) (d : Dev) : Dev :=
  let x : Second := {
    start := d.pm.secStart, stop := at', tod := rd d F.PMN_TIME_SEC_OF_DAY, day := rd d F.PMN_DAY_DAY, nextTod := tod, nextDay := day,
    inc := increments d, seen := d.pm.seen, conds := (List.range 128).map fun n => rd d F.FRM_RX_STATUS_COND n, cut := cut }
  let d := onPm d fun p => { p with queue := p.queue ++ [x], base := running d, seen := seenNow d, secStart := at' }
  foldQueue sn (wr (wr d F.PMN_TIME_SEC_OF_DAY 0 tod) F.PMN_DAY_DAY 0 day)

/-- The accumulator and the length of the next second (R429). -/
def nextLen (acc : Nat) : Nat × Nat := if 16 ≤ acc + 9 then (acc + 9 - 16, 610352) else (acc + 9, 610351)

/-- Second of day and day after those given (R430). -/
def nextTime (tod day : Nat) : Nat × Nat := if tod + 1 = 86400 then (0, (day + 1) % 2 ^ 17) else (tod + 1, day)

/-- The SN at which the current second ends. -/
def secStop (d : Dev) : SN := d.pm.secStart + BitVec.ofNat 32 d.pm.secLen

/-- PM_SECOND (R429, R430). -/
def pmSecond (sn : SN) (d : Dev) : Dev :=
  if !snDue (secStop d) sn then d else
  let t := nextTime (rd d F.PMN_TIME_SEC_OF_DAY) (rd d F.PMN_DAY_DAY)
  let n := nextLen d.pm.acc
  onPm (secondEnd (secStop d) t.1 t.2 none sn d) fun p => { p with acc := n.1, secLen := n.2 }

/-- PM_SEC_LOST (R437): at most `n` seconds that ended 16 seconds ago and are not folded are lost. -/
def pmSecLost (n : Nat) (sn : SN) (d : Dev) : Dev :=
  let old := (d.pm.queue.takeWhile fun x => decide (9765625 ≤ snAge x.stop sn)).take n
  match old with
  | [] => d
  | x :: _ =>
    let d := old.foldl (foldSecond true sn) (onPm d fun p => { p with queue := p.queue.drop old.length })
    raise d { typ := 0xA1, sn := sn, p0 := old.length, p1 := x.tod }

/-- LEGACY_PAGE_UPDATE (R439): core 1 writes the page of the second folded last; SEQ passes through an odd value. -/
def legacyPage (sn : SN) (d : Dev) : Dev :=
  if !core1Runs d then d else
  let d := foldQueue sn d
  match d.pm.page with
  | none => d
  | some (st, tod, day, lost, ls) =>
    let a := 0x2402000
    let seq := (rdWord d a + 2).toNat
    let d := [seq, st.toNat, tod, day, 1 + 2 * lost.toNat].zipIdx.foldl (fun d x => wrWord d (a + 4 * x.2) (BitVec.ofNat 32 x.1)) d
    let d := ls.zipIdx.foldl (fun d l => l.1.zipIdx.foldl (fun d x =>
      wrWord d (a + 0x40 + 0x20 * l.2 + 4 * x.2) (BitVec.ofNat 32 x.1)) d) d
    onPm d fun p => { p with page := none }

/-- PM_ALIGNED (R431): the anchor sweep has opened. -/
def pmAligned (sn : SN) (d : Dev) : Dev :=
  match d.pm.anchor with
  | none => d
  | some (a, tod, r, uid, late) =>
    if !snDue a sn then d else
    let cur := rd d F.PMN_TIME_SEC_OF_DAY
    let day := rd d F.PMN_DAY_DAY
    let atEnd := a == secStop d
    let nx := nextTime cur day
    let d :=
      if atEnd && nx.1 == tod then secondEnd a nx.1 nx.2 none sn d
      else if a = d.pm.secStart ∧ cur = tod then d
      else secondEnd a tod day (some (atEnd && nx.1 % 900 == 0, atEnd && nx.1 == 0)) sn d
    let d := onPm (wrB d F.PMN_STATUS_ALIGNED 0 true) fun p => { p with anchor := none, acc := 9, secLen := 610351, secStart := a }
    finish (raise d { typ := 0xA2, sn := sn, p0 := a.toNat, p1 := tod }) r uid (if late then stLate else stOk) 0 a

/-! ### Descriptors -/

/-- OBJECT lies in the range of its KIND (Table 17-1). -/
def objRange (kind obj : Nat) : Bool :=
  match kind with
  | 2 => decide (obj < 2 ^ 21)
  | 6 => decide (obj < 2 ^ 17)
  | _ => decide (obj < 128)

/-- Serves PM_CONFIG (R432, R433). -/
def servePmConfig (r : Nat) (sn : SN) (d : Dev) : Dev :=
  match servedBy d r 0x30 with
  | none => d
  | some e =>
    let kind := dF e.raw 16 0 16
    let obj := dF e.raw 20 0 32
    let k := cntKey kind obj 0
    let en := dB e.raw 24 0
    let old := tfind d.pm.objs k
    let good := decide (1 ≤ kind ∧ kind ≤ 6)
    match firstProb (reservedProb e.raw ++ probIf (!good) 16 1 ++ probIf (good && !objRange kind obj) 20 1 ++
        probIf (dF e.raw 24 1 31 != 0) 24 2 ++ probIf (decide (26 < dF e.raw 32 0 5)) 32 1 ++ probIf (dF e.raw 32 6 26 != 0) 32 2 ++
        ((List.range 6).flatMap fun i => probIf (dF e.raw (40 + 4 * i) 0 32 != 0) (40 + 4 * i) 2) ++
        probIf (en && old.isNone && decide (4096 ≤ d.pm.objs.length)) 24 6) with
    | some p => badDesc d r e.uid sn p
    | none =>
      let tod := rd d F.PMN_TIME_SEC_OF_DAY
      let day := rd d F.PMN_DAY_DAY
      let inc := increments d
      let fresh : PmObj := {
        since := d.pm.secStart, skip := (List.range 27).foldl (fun m i => tput 0 m i (tget 0 inc (cntKey kind obj i))) [],
        c15 := { idx := idx15 tod day, suspect := true }, c24 := { idx := idx24 day, suspect := true } }
      let o := { old.getD fresh with sesTh := dF e.raw 28 0 32, tcaIdx := dF e.raw 32 0 5, tcaEn := dB e.raw 32 5, tcaTh := dF e.raw 36 0 32 }
      finish (onPm d fun p => { p with objs := if en then tins p.objs k o else tdel p.objs k }) r e.uid stOk 0 sn

/-- Serves PM_DUMP (R438): one dump runs at a time. -/
def servePmDump (r : Nat) (sn : SN) (d : Dev) : Dev :=
  match servedBy d r 0x31 with
  | none => d
  | some e =>
    let new := dB e.raw 16 1
    if d.pm.dump.isSome then d else
    match firstProb (reservedProb e.raw ++ probIf (dF e.raw 16 13 3 != 0) 16 2 ++ probIf (!new && d.pm.snap.isNone) 16 7) with
    | some p => badDesc d r e.uid sn p
    | none => take (onPm d fun p => { p with
        dump := some {
          ring := r, idx := e.uid, pmd := dF e.raw 16 0 1, bins := dF e.raw 16 8 5, next := dF e.raw 20 0 32, id := dF e.raw 24 0 32,
          at' := if new then some (sn + 1) else none } }) r e.uid

/-- Serves PM_ALIGN (R431). -/
def servePmAlign (r : Nat) (sn : SN) (d : Dev) : Dev :=
  match servedBy d r 0x32 with
  | none => d
  | some e =>
    let tod := dF e.raw 20 0 17
    if d.pm.anchor.isSome then d else
    match firstProb (reservedProb e.raw ++ probIf (decide (86399 < tod) || tod % 900 != 0) 20 1) with
    | some p => badDesc d r e.uid sn p
    | none =>
      let x := fixTarget d sn true (BitVec.ofNat 32 (dF e.raw 16 0 32))
      take (onPm d fun p => { p with anchor := some (x.1, tod, r, e.uid, x.2) }) r e.uid

/-! ### Dumps (R438, R346) -/

/-- The bins of an object as a snapshot holds them: what the open second has counted so far is folded into the current ones. -/
def snapBins (inc : Tbl Nat) (start : SN) (k : Nat) (o : PmObj) : List (Nat × Nat × Nat × Bin) :=
  let kind := k / 64 / 4194304
  let obj := k / 64 % 4194304
  let now := (plainIdx kind).map fun i => (i, tget 0 inc (cntKey kind obj i) - (if o.since = start then tget 0 o.skip i else 0))
  [(kind, obj, 0, binAdd o.c15 now), (kind, obj, 1, o.p15), (kind, obj, 2, binAdd o.c24 now), (kind, obj, 3, o.p24), (kind, obj, 4, o.sec)]

/-- PM_SNAPSHOT (R438): a second that ends at this boundary ends first, and every second is folded. -/
def pmSnapshot (sn : SN) (d : Dev) : Dev :=
  match d.pm.dump with
  | none => d
  | some m => match m.at' with
    | none => d
    | some t =>
      if !snDue t sn ∨ snDue (secStop d) sn then d else
      let d := foldQueue sn d
      if !d.pm.queue.isEmpty then d else
      let inc := increments d
      onPm d fun p => { p with
        snap := some (sn, p.objs.flatMap fun o => snapBins inc p.secStart o.1 o.2), dump := some { m with at' := none } }

/-- The records of a dump in order. -/
def dumpRecs (d : Dev) (m : Dump) : List (Nat × Nat × Nat × Bin) :=
  match d.pm.snap with | some s => s.2.filter fun x => m.bins.testBit x.2.2.1 | none => []

/-- A PM record (Table 13-14). -/
def pmBits (kind obj id seq bin idx : Nat) (snap : SN) (last suspect : Bool) (cnt : Tbl Nat) : Nat :=
  packWords ([kind, obj, id, seq, bin + 256 * idx, snap.toNat, last.toNat + 2 * suspect.toNat, 0] ++
    (List.range 27).flatMap fun i => [tget 0 cnt i, 0])

/-- The dump ends with its counts (Table 13-10). -/
def dumpDone (sn : SN) (m : Dump) (omitted : Nat) (d : Dev) : Dev :=
  finish (onPm d fun p => { p with dump := none }) m.ring m.idx stOk 0 sn (BitVec.ofNat 64 (m.written + 2 ^ 32 * omitted))

/-- PM_RECORD_WRITE (R346). -/
def pmRecord (pmd : Nat) (sn : SN) (d : Dev) : Dev :=
  match d.pm.dump with
  | none => d
  | some m =>
    let r := 36 + pmd
    if m.pmd ≠ pmd ∨ m.at'.isSome ∨ m.omit'.isSome then d else
    let recs := dumpRecs d m
    match recs[m.next]?, d.pm.snap with
    | some (kind, obj, b, x), some s =>
      if canWrite d r then
        let last := m.next + 1 == recs.length
        let d := writeRec d r (pmBits kind obj m.id m.next b x.idx s.1 last x.suspect x.cnt)
        let m := { m with next := m.next + 1, written := m.written + 1 }
        if last then dumpDone sn m 0 d else onPm d fun p => { p with dump := some m }
      else if rState d r = 1 ∧ !rRoom d r then
        onPm d fun p => { p with dump := some { m with omit' := some (recs.length - m.next) } }
      else if rState d r = 1 ∧ !frozen d ∧ !dmaOk d (recAddr d r (rP d r)) true then dmaMiss d (recAddr d r (rP d r))
      else d
    | _, _ => dumpDone sn m 0 d

/-- OMISSION_RECORD (R346). -/
def omissionRecord (pmd : Nat) (sn : SN) (d : Dev) : Dev :=
  match d.pm.dump with
  | none => d
  | some m => match m.omit' with
    | none => d
    | some n =>
      if m.pmd ≠ pmd ∨ !canWrite d (36 + pmd) then d
      else
        let snap := match d.pm.snap with | some s => s.1 | none => 0
        dumpDone sn m n (writeRec d (36 + pmd) (pmBits 0xFFFF 0 m.id m.next 0 0 snap false false (tput 0 [] 0 n)))

/-! ### Performance counters (R445, R446) -/

/-- PERF_SNAP. -/
def perfSnap (d : Dev) : Dev := onPm (wrB d F.PMN_PERF_STATUS_DONE 0 false) fun p => { p with snapDue := true }

/-! ### The commands -/

/-- R432. -/
def execPmConfig (ring : Fin 16) (s : State) : Res := core s (servePmConfig ring s.sn)
/-- R438. -/
def execPmDump (ring : Fin 16) (s : State) : Res := core s (servePmDump ring s.sn)
/-- R431. -/
def execPmAlign (ring : Fin 16) (s : State) : Res := core s (servePmAlign ring s.sn)
/-- R429. -/
def execPmSecond (s : State) : Res := core s (pmSecond s.sn)
/-- R437. -/
def execPmSecLost (n : Nat) (s : State) : Res := core s (pmSecLost n s.sn)
/-- R439. -/
def execLegacyPageUpdate (s : State) : Res := core s (legacyPage s.sn)
/-- R431. -/
def execPmAligned (s : State) : Res := core s (pmAligned s.sn)
/-- R438. -/
def execPmSnapshot (s : State) : Res := core s (pmSnapshot s.sn)
/-- R346. -/
def execPmRecordWrite (pmd : Fin 2) (s : State) : Res := core s (pmRecord pmd s.sn)
/-- R346. -/
def execOmissionRecord (pmd : Fin 2) (s : State) : Res := core s (omissionRecord pmd s.sn)
/-- R446. -/
def execPerfSnap (s : State) : Res := core s perfSnap
/-- R446. -/
def execPerfClear (s : State) : Res := core s fun d => onPm d fun p => { p with clearDue := true }
/-- R445. -/
def execPmnPerfSelWrite (n : Fin 32) (val : W32) (s : State) : Res := core s fun d => onPm d fun p => { p with selDue := tins p.selDue n val }

end Sys2Proof.Machine
end

