-- ==== Sys2Proof/Machine/Registers.lean ====
section
/-! DEFINITION. BAR0 (chapters 0, 20 and 21): what a read of a word returns and clears, what a write stores, and the set-up
lock. Fields that a command of their own writes or reads keep their value here (R9). -/

namespace Sys2Proof.Machine

/-! ### Reads -/

/-- The SEC lock is in force (R471). -/
def secLocked (d : Dev) : Bool := calState d 2 == 1 && (calWord d 2).testBit 0

/-- LOCK.DBG in force (R467). -/
def dbgMode (d : Dev) : Nat := calWord d 2 / 2 % 4

/-- The debug access port is open (R467). -/
def dbgPortOpen (d : Dev) : Bool := !secLocked d || dbgMode d == 0 || (dbgMode d == 1 && d.sec.dbgOpen)

/-- A logical word is secret (Table 18-5). -/
def fuseSecret (i : Nat) : Bool := decide (8 ≤ i ∧ i < 56)

/-- Blank spares (R470). -/
def sparesLeft (d : Dev) : Nat := ((List.range 64).filter fun k => fuseAt d (256 + k) == 0).length

/-- Seconds left of a lockout of `len` seconds: no command brings the time that has passed, so the value is free within
the lockout. -/
def lockLeft (d : Dev) (len : Nat) : Nat := 1 + (Config.freeWord d.free).toNat % max 1 len

/-- The levels at the GPIO balls (R524): outputs as driven; the level at an input is the board's, a free value. -/
def gpioIn (d : Dev) : Nat :=
  let w : W32 := match d.twin.gpio with
    | some w => w
    | none => BitVec.ofNat 32 (rd d F.GLB_GPIO_OUT_VAL + 65536 * rd d F.GLB_GPIO_DIR_OE)
  let oe := w >>> 16
  ((w &&& oe) ||| (Config.freeWord d.free &&& ~~~oe)).toNat

/-- The PCS of lane `n` runs: a client personality with a mode, received with a signal and a locked clock. -/
def pcsRuns (d : Dev) (n : Nat) : Bool :=
  isClient (persOf d n) && rd d F.MAP_LANE_CFG_MODE n != 0 && !laneSilent d n && !dLos d n && !dLol d n

/-- The PSC queue of a lane. -/
def pscTx (d : Dev) (n : Nat) : PscTx := tget {} d.prot.psc n

/-- Lanes 32w to 32w + 31 under a promotion hold (R317). -/
def promoMask (d : Dev) (w : Nat) : Nat :=
  (d.sw.sel.filter fun e => e.2.promo && decide (e.1 / 65536 = w)).foldl (fun (m : Nat) e => m ||| 2 ^ (e.1 / 2048 % 32)) 0

/-- PWR_STATUS.STATE (Table 19-5). -/
def pwrCode : PwrSt → Nat
  | .entry => 2
  | .down => 3
  | _ => 1

/-- Status fields that show state held elsewhere: the field and its value by index. -/
def views (lock : Bool) (d : Dev) : List (Fld × (Nat → Nat)) :=
  [(F.GLB_SETUP_LOCK_LOCK, fun _ => lock.toNat),
   (F.GLB_ID_REV_LTR, fun _ => Config.revLtr.toNat),
   (F.GLB_ID_REV_DIG, fun _ => Config.revDig.toNat),
   (F.GLB_DEV_ID_LO, fun _ => calWord d 0),
   (F.GLB_DEV_ID_HI, fun _ => calWord d 1),
   (F.GLB_GPIO_IN_VAL, fun _ => gpioIn d),
   (F.LNE_RX_CTLE_PEAK, fun n => eqView d n 0),
   (F.LNE_RX_DFE_TAP1, fun n => eqView d n 1),
   (F.LNE_RX_FFE_TAP, fun i => eqView d (i / 32) (2 + i % 32)),
   (F.GLB_TILTH_OCC_U_IN, fun i => uIn d i),
   (F.GLB_TILTH_OCC_U_OUT, fun i => uOut d i),
   (F.GLB_PROT_STATUS_GROUPS, fun _ => d.prot.groups.length),
   (F.FRM_PSC_QUEUE_DEPTH, fun n => (tget ({} : PscTx) d.prot.psc n).q.length),
   (F.MAP_LANE_STATUS_BLK_LOCK, fun n => (pcsRuns d n && !(cdefOf d n).getLsbD 1).toNat),
   (F.MAP_LANE_STATUS_AM_LOCK, fun n => (pcsRuns d n && !(cdefOf d n).getLsbD 0).toNat),
   (F.MAP_LANE_STATUS_HI_BER, fun n => (pcsRuns d n && (cdefOf d n).getLsbD 2).toNat),
   (F.MAP_LANE_STATUS_FLX_OH_LOCK, fun n => (pcsRuns d n && rd d F.MAP_LANE_CFG_MODE n == 3 && !(cdefOf d n).getLsbD 3).toNat),
   (F.MAP_LANE_STATUS_FLX_MF_LOCK, fun n => (pcsRuns d n && rd d F.MAP_LANE_CFG_MODE n == 3 && !(cdefOf d n).getLsbD 4).toNat),
   (F.TWN_STATUS_ROLE, fun _ => d.twin.role.code),
   (F.TWN_HOLD, fun w => promoMask d w),
   (F.HIF_ATS_STATUS_VALID, fun _ => d.dma.cache.length),
   (F.HIF_ATS_STATUS_PRG_OUT, fun _ => (d.dma.reqs.filter (·.sent)).length),
   (F.TIM_STATUS_QL_OUT, fun _ => qlOut d),
   (F.TIM_FOFS, fun _ => if rd d F.TIM_STATUS_STATE = 0 then 0 else (Config.freeWord d.free).toNat),
   (F.PMN_STATUS_OBJECTS, fun _ => d.pm.objs.length),
   (F.SEC_STATUS_LOCKED, fun _ => (secLocked d).toNat),
   (F.SEC_STATUS_PUSH_DIS, fun _ => (pushDis d).toNat),
   (F.SEC_STATUS_DBG, fun _ => dbgMode d),
   (F.SEC_STATUS_SPARES, fun _ => sparesLeft d),
   (F.SEC_STATUS_SVN_FLOOR, fun _ => svnFloor d),
   (F.SEC_SESS_STATUS_LOCKOUT, fun _ =>
      let c := Fin.ofNat 8 (rd d F.SEC_SESS_REQ_CLASS)
      if d.sec.locked[c] then lockLeft d d.sec.lock[c] else 0),
   (F.SEC_FUSE_RD_DATA, fun _ => if fuseSecret (rd d F.SEC_FUSE_IDX) then 0 else calWord d (rd d F.SEC_FUSE_IDX)),
   (F.SEC_FUSE_RD_STAT_STATE, fun _ => calState d (rd d F.SEC_FUSE_IDX)),
   (F.SEC_FUSE_RD_STAT_PHYS, fun _ => (tget (0, 0, 0) d.sec.logical (rd d F.SEC_FUSE_IDX)).2.2),
   (F.SEC_FUSE_RD_STAT_SECRET, fun _ => (fuseSecret (rd d F.SEC_FUSE_IDX)).toNat),
   (F.PWR_STATUS_STATE, fun _ => pwrCode d.pwr.st)]

/-- The fields at a word address, each with its index. -/
def fldsAt (a : Nat) : List (Fld × Nat) := allFlds.filterMap fun f => (f.idxAt a).map fun i => (f, i)

/-- A table of the manual defines the word (R510). -/
def implemented (a : Nat) : Bool := !(fldsAt a).isEmpty

/-- What a read of the word at `a` returns (R9, R510): WO fields and unimplemented words read zero. -/
def readWord (lock : Bool) (d : Dev) (a : Nat) : W32 :=
  if !implemented a then 0 else
  let w := (fldsAt a).foldl (fun w p => if p.1.acc = .wo then putBits w p.1.lo p.1.wd 0 else w) (rdWord d a)
  (views lock d).foldl (fun w p => match p.1.idxAt a with
    | some i => putBits w p.1.lo p.1.wd (p.2 i)
    | none => w) w

/-- What an RCL field holds after a clearing read: zero, but for the fields that a read reloads (Tables 7-2, 8-13, 10-16,
19-5). -/
def reloadOf (d : Dev) (f : Fld) (i : Nat) : Nat :=
  if f = F.MAP_LOESS_QSTAT_MIN_FREE then rd d F.MAP_LOESS_QSTAT_FREE_BLK i
  else if f = F.GLB_PLANE_SLKMIN_MIN then 0x7FF
  else if f = F.FRM_PSC_QUEUE_MAX then (pscTx d i).q.length
  else if f = F.PWR_TEMP_MAX_PEAK then rd d F.PWR_TEMP_MAX_NOW
  else 0

/-- The clearing that a read of the word at `a` does (R9, R103). -/
def clearWord (d : Dev) (a : Nat) : Dev :=
  (fldsAt a).foldl (fun d p =>
    if p.1.acc ≠ .rcl then d
    else if p.1 = F.LNE_PRBS_ERR_ERR then prbsClear p.2 d
    else wr d p.1 p.2 (reloadOf d p.1 p.2)) d

/-- Reads `n` words from `a` in increasing order, collecting the data. -/
def readWords (lock insp : Bool) : Nat → Nat → Dev → List W32 × Dev
  | _, 0, d => ([], d)
  | a, n + 1, d =>
    let w := readWord lock d a
    let r := readWords lock insp (a + 4) n (if insp then d else clearWord d a)
    (w :: r.1, r.2)

/-- The master reaches BAR0 now (R467). -/
def masterOn (d : Dev) (m : Master) : Bool := m != .debug || dbgPortOpen d

/-- REGISTER_READ (R9, R12, R511). -/
def regRead (m : Master) (addr n : Nat) (lock : Bool) (d : Dev) : Dev :=
  let a := addr / 4 * 4
  if !masterOn d m then d
  else if m = .host ∧ (16 < n ∨ 64 < a % 64 + 4 * n) then emit (sat d F.GLB_BAR0_ERR_RD_ABORT 0) .abort
  else
    let r := readWords lock (m == .debug) a n d
    emit (freed r.2) (.readData r.1)

/-! ### Writes -/

/-- Fields that a direction of a lane must be disabled for (R88): the field, and whether transmit and receive matter. -/
def laneFields : List (Fld × Bool × Bool) :=
  [(F.LNE_CFG_PERS, true, true), (F.LNE_CFG_TX_POL, true, false), (F.LNE_CFG_TX_PRECODE, true, false),
   (F.LNE_CFG_RX_POL, false, true), (F.LNE_CFG_RX_PRECODE, false, true), (F.LNE_CFG_ADAPT_MODE, false, true)]

/-- Direction `tx` or `rx` of a lane is enabled. -/
def dirOn (d : Dev) (n : Nat) (tx rx : Bool) : Bool := (tx && rdB d F.LNE_CTL_TX_EN n) || (rx && rdB d F.LNE_CTL_RX_EN n)

/-- Ring fields that only a DISABLED ring takes (R332). -/
def ringFields : List Fld := [F.HIF_RING_BASE_LO, F.HIF_RING_BASE_HI, F.HIF_RING_WB_LO, F.HIF_RING_WB_HI, F.HIF_RING_CFG_LOG2_SIZE]

/-- A tributary is defined on the client lane, of either client role (R148). -/
def tribOnLane (d : Dev) (n : Nat) : Bool := d.cli.tribs.any fun t => t.2.cfg.role != 0 && (lanesOf d t.2.cfg).contains n

/-- A write of `v` to the field is ignored, with the effect it has instead (R87, R88, R136, R137, R148, R332, R425). A field
that shares its register with others is written where its value would change. -/
def writeBar (d : Dev) (f : Fld) (i v : Nat) : Option (Dev → Dev) :=
  if f = F.LNE_QUAD_CFG_GROUP then
    if quadOff d i then none else some fun d => [0, 1, 2, 3].foldl (fun d j => wrB d F.LNE_STATUS_CFG_ERR (4 * i + j) true) d
  else if ringFields.contains f then
    if rState d i = 0 ∨ (f = F.HIF_RING_CFG_LOG2_SIZE ∧ rd d f i = v) then none else some fun d => wrB d F.HIF_STATUS_CFG_ERR 0 true
  else if f = F.CLK_DIV_CORE ∨ f = F.CLK_DIV_MTX ∨ f = F.CLK_DIV_DMA then
    if !rdB d F.CLK_SEL_SYS && !rdB d F.CLK_STATUS_SYS_CUR then none else some fun d => wrB d F.CLK_STATUS_CFG_ERR 0 true
  else if rd d f i = v then none
  else match laneFields.find? fun x => x.1 == f with
    | some x => if dirOn d i x.2.1 x.2.2 then some fun d => wrB d F.LNE_STATUS_CFG_ERR i true else none
    | none =>
      if f = F.FRM_RX_CFG_PLESIO then
        if rdB d F.LNE_CTL_RX_EN i then some fun d => wrB d F.LNE_STATUS_CFG_ERR i true else none
      else if f = F.MAP_LANE_CFG_MODE ∨ f = F.MAP_LANE_CFG_WIDTH ∨ f = F.MAP_LANE_CFG_RSFEC then
        if laneOff d i then none else some fun d => wrB d F.MAP_LANE_STATUS_CFG_ERR i true
      else if f = F.MAP_LANE_CFG_FM_MAXLEN then
        if tribOnLane d i then some fun d => wrB d F.MAP_LANE_STATUS_CFG_ERR i true else none
      else none

/-- No write of the field's present kind is defined (R14, Table 6-8): traffic runs and no chapter admits the write, or a
MAP_LANE_FLX field is written while the lane is enabled. -/
def writeOpen (d : Dev) (f : Fld) (i v : Nat) : Bool :=
  rd d f i != v && ((d.sw.traffic && !f.svc) || ((f == F.MAP_LANE_FLX_GRP || f == F.MAP_LANE_FLX_PHY_NUM) && !laneOff d i))

/-- Stores a written value in one field, by its access code (R9). -/
def storeFld (lock : Bool) (d : Dev) (f : Fld) (i v : Nat) : Dev :=
  if f.own then d else
  match f.acc with
  | .ro => d
  | .rcl => d
  | .w1c => wr d f i (rd d f i &&& (2 ^ f.wd - 1 - v))
  | .wo => { d with sec := { d.sec with resp := tput 0 d.sec.resp i (BitVec.ofNat 32 v) } }
  | a =>
    if a = .rwl ∧ lock then d else
    match writeBar d f i v with
    | some g => g d
    | none => if writeOpen d f i v then freed (wr d f i (Config.freeWord d.free).toNat) else wr d f i v

/-- A test pattern that the lane cannot run has been selected (R102). -/
def prbsCfgErr (d : Dev) (n : Nat) : Bool :=
  let p := rd d F.LNE_CTL_PRBS_PAT n
  decide (10 ≤ p) || (decide (6 ≤ p ∧ p ≤ 8) && !isPam4 (persOf d n)) || (decide (8 ≤ p) && rdB d F.LNE_CTL_PRBS_CHK_EN n)

/-- What the write of a word sets in motion beside storing it; `o` is the device before the write. DESIGN CHOICE (log entry
148): PRBS_SYNC stays as it is when the checker or its pattern changes. -/
def afterWrite (a : Nat) (sn : SN) (ns : Nat) (o d : Dev) : Dev :=
  let chg (f : Fld) : Option Nat := match f.idxAt a with
    | some i => if rd o f i = rd d f i then none else some i
    | none => none
  let hit (f : Fld) (g : Nat → Dev → Dev) (d : Dev) : Dev := match f.idxAt a with
    | some i => g i d
    | none => d
  let on (f : Fld) (g : Nat → Dev → Dev) (d : Dev) : Dev := match chg f with
    | some i => g i d
    | none => d
  let d := hit F.LNE_CTL_PRBS_PAT (fun n d => if prbsCfgErr d n then wrB d F.LNE_STATUS_CFG_ERR n true else d) d
  let d := on F.FRM_RX_CFG_TIM_ACT (fun n d => laneEval sn ns n (wantNow d n) d) d
  let d := on F.FRM_LANE_CFG_BWD_SRC (fun n d => modDeg d n fun x => { x with bei := 0 }) d
  let d := on F.TIM_CAND_SRC (fun i d => modCand d i fun c => { c with act := false, ofs := false, okWin := 0 }) d
  let d := if (F.TIM_CFG_MODE.idxAt a).isSome || (F.TIM_CAND_SRC.idxAt a).isSome || (F.TIM_CAND_FREQ_HZ.idxAt a).isSome then
      candEval false sn d else d
  let d := hit F.TIM_CLKOUT_FSEL (fun n d => if 10 ≤ rd d F.TIM_CLKOUT_FSEL n then wrB d F.CLK_STATUS_CFG_ERR 0 true else d) d
  let d := on F.MSIX_CTL (fun _ d => msiFlush d) d
  let d := on F.DBG_CTL_ARB_TEST (fun _ d => arbChange d) d
  on F.TWN_CFG_AUTO_RESYNC (fun _ d => if rdB d F.TWN_CFG_AUTO_RESYNC then autoResync d else d) d

/-- Stores one word. -/
def writeWord (a : Nat) (v : W32) (ns : Nat) (lock : Bool) (sn : SN) (d : Dev) : Dev :=
  afterWrite a sn ns d ((fldsAt a).foldl (fun d p => storeFld lock d p.1 p.2 (getBits v p.1.lo p.1.wd)) d)

/-- The word lies in the MSI-X table or pending bit array (R520). -/
def msixWord (a : Nat) : Bool := decide (0x1004000 ≤ a ∧ a < 0x1004400) || decide (0x1005000 ≤ a ∧ a < 0x1005008)

/-- The bytes of `v` that are enabled, over those of `w`. -/
def mergeBytes (w v : W32) (be : BitVec 4) : W32 :=
  (List.range 4).foldl (fun x k => if be.getLsbD k then putBits x (8 * k) 8 (getBits v (8 * k) 8) else x) w

/-- A write of one word reaches the registers, or is discarded (R510). -/
def putWord (a : Nat) (v : W32) (ns : Nat) (lock : Bool) (sn : SN) (d : Dev) : Dev :=
  if implemented a then writeWord a v ns lock sn d else sat d F.GLB_BAR0_ERR_WR_DISC 0

/-- REGISTER_WRITE (R9, R510, R511, R520). A core or the debug access port writes whole words, one beat at a time. -/
def regWrite (m : Master) (addr : Nat) (data : List (W32 × BitVec 4)) (ns : Nat) (lock : Bool) (sn : SN) (d : Dev) : Dev :=
  let a := addr / 4 * 4
  if !masterOn d m then d
  else if m ≠ .host then data.zipIdx.foldl (fun d x => putWord (a + 4 * x.2) x.1.1 ns lock sn d) d
  else if decide (data.length ≤ 2) && data.zipIdx.all (fun x => msixWord (a + 4 * x.2)) then
    data.zipIdx.foldl (fun d x => writeWord (a + 4 * x.2) (mergeBytes (rdWord d (a + 4 * x.2)) x.1.1 x.1.2) ns lock sn d) d
  else match data with
    | [(v, be)] => if be = 15#4 then putWord a v ns lock sn d else sat d F.GLB_BAR0_ERR_WR_DISC 0
    | _ => sat d F.GLB_BAR0_ERR_WR_DISC 0

/-! ### The commands -/

/-- R504, R508: the lock is set and stays set. -/
def execGlbSetupLock (s : State) : Res := coreSt s fun s => { s with lock := true }
/-- R9, R511. -/
def execRegisterWrite (m : Master) (addr : BitVec 26) (data : List (W32 × BitVec 4)) (ns : Nat) (s : State) : Res :=
  core s (regWrite m addr.toNat data ns s.lock s.sn)
/-- R9, R511. -/
def execRegisterRead (m : Master) (addr : BitVec 26) (dws : Nat) (s : State) : Res := core s (regRead m addr.toNat dws s.lock)

end Sys2Proof.Machine
end

