-- ==== Sys2Proof/Machine/Power.lean ====
section
/-! DEFINITION. Power and health (chapter 19): the always-on island with its sequencer and wake latch, entry to standby,
AVS, telemetry, sensors and THERM_N; and device reset (R480, R516). -/

namespace Sys2Proof.Machine

/-- Updates the power unit's own state. -/
def onPwr (d : Dev) (f : Pwr → Pwr) : Dev := { d with pwr := f d.pwr }

/-! ### Device reset -/

/-- The AO fields of the PWR block (R499): every other bit at its reset value. -/
def aoRegs (rs : Tbl W32) : Tbl W32 :=
  (rs.filter fun e => decide (0x2C00000 ≤ e.1 ∧ e.1 < 0x3000000)).foldl (fun t e =>
    tput (rstWord e.1) t e.1 ((fldsAt e.1).foldl (fun w p =>
      if p.1.ao then putBits w p.1.lo p.1.wd (getBits e.2 p.1.lo p.1.wd) else w) (rstWord e.1))) []

/-- A physical word as programming leaves it: DATA, TAG, CHK and COMMIT (Table 18-5a). -/
def fuseWord (i : Nat) (data : W32) (commit : Bool) : BitVec 64 :=
  let lo : BitVec 40 := BitVec.ofNat 8 i ++ data
  (BitVec.ofNat 16 commit.toNat ++ (crc8 (msbBits lo) ++ lo) : BitVec 64)

/-- Caliche through a reset: a word that was being programmed is left without COMMIT (R470). -/
def keptFuses (d : Dev) : Tbl (BitVec 64) :=
  match d.sec.prog with
  | some (i, p, v) => tput 0 d.sec.fuses p (fuseWord i v false)
  | none => d.sec.fuses

/-- Everything outside the always-on island at its reset state, the core held in reset (R479, R480). -/
def resetDev (d : Dev) : Dev :=
  { out := d.out, free := d.free, regs := aoRegs d.regs, sec := { fuses := keptFuses d },
    twin := { role := d.twin.role, latch := d.twin.latch, failOut := d.twin.failOut, alive := d.twin.alive },
    pwr := { d.pwr with core := false } }

/-- Holds the core in reset. -/
def holdCore (s : State) : State := { pending := s.pending, dev := resetDev s.dev }

/-- The core is released on FIO: the fuses are resolved (R465, R481, R500). -/
def releaseCore (d : Dev) : Dev :=
  let d := resolveFuses (onPwr d fun p => { p with st := .active, core := true, ticked := false, entryT := none, propose := none })
  wrB (wr d F.GLB_START_STATUS_FUSE_FAIL_CNT 0 ((List.range 256).filter fun i => calState d i == 2).length) F.GLB_START_STATUS_FUSE_DONE 0 true

/-! ### The sequencer -/

/-- ORDER of a rail: values above 5 act as 5 (Table 19-5). -/
def railOrder (d : Dev) (r : Nat) : Nat := min 5 (rd d F.PWR_SEQ_ORDER r)

/-- The rails of an ORDER value, as bits. -/
def railGroup (d : Dev) (o : Nat) : BitVec 6 :=
  (List.range 6).foldl (fun m r => if railOrder d r = o then m ||| BitVec.ofNat 6 (2 ^ r) else m) 0

/-- The lowest ORDER value from `o` on that a rail has. -/
def nextOrder (d : Dev) (o : Nat) : Option Nat := ((List.range 6).map (o + ·)).find? fun x => decide (x < 6) && railGroup d x != 0

/-- Switches the rails of ORDER `o` on; with their power-goods up already, DLY runs. -/
def raiseRails (o : Nat) (d : Dev) : Dev :=
  let g := railGroup d o
  onPwr d fun p => { p with ord := o, en := p.en ||| g, waitDly := p.pg &&& g == g }

/-- POWER_UP begins (R481): from STANDBY this is a device reset, and the role latch is kept after an agreed entry only
(R293). -/
def startUp (s : State) : State :=
  let s := holdCore s
  let d := s.dev
  let d := { d with twin := { role := .disabled, latch := d.twin.latch && d.pwr.agreed, alive := d.twin.alive } }
  let d := onPwr d fun p => { p with
    st := .powerUp, en := 0, wakeDue := false, armed := false, agreed := false, latch := 0, ticked := false, resetDue := false, entryT := none, propose := none,
    thermOut := false, thermDue := false, discard := false, noRestart := false, overRun := 0, warned := false, vmon := 0 }
  { s with
    dev := match nextOrder d 0 with
    | some o => raiseRails o d
    | none => d }

/-- Rails are being lowered (R482). -/
def lowering (d : Dev) : Bool := d.pwr.st == .down || (d.pwr.st == .entry && !d.pwr.core)

/-- Switches off the rails of the highest ORDER that are still on; with none on, the sequence has ended. -/
def lowerRails (d : Dev) : Dev :=
  match ([5, 4, 3, 2, 1, 0] : List Nat).find? fun o => railGroup d o &&& d.pwr.en != 0 with
  | none => onPwr d fun p => { p with waitDly := true }
  | some o =>
    let g := railGroup d o
    onPwr d fun p => { p with ord := o, en := p.en &&& ~~~g, waitDly := p.pg &&& g == 0 }

/-- Sets bits of PWR_STATUS.RAIL_FAULT. -/
def railBits (d : Dev) (m : BitVec 6) : Dev := wr d F.PWR_STATUS_RAIL_FAULT 0 (rd d F.PWR_STATUS_RAIL_FAULT ||| m.toNat)

/-- PG_IN_RISE (R481). -/
def pgRise (r : Nat) (d : Dev) : Dev :=
  let d := onPwr d fun p => { p with pg := p.pg ||| BitVec.ofNat 6 (2 ^ r) }
  let g := railGroup d d.pwr.ord
  if d.pwr.st = .powerUp ∧ d.pwr.pg &&& g = g then onPwr d fun p => { p with waitDly := true } else d

/-- PG_IN_LOW (R482). -/
def pgLow (r : Nat) (d : Dev) : Dev :=
  if d.pwr.en.getLsbD r then d else
  let d := onPwr d fun p => { p with pg := p.pg &&& ~~~BitVec.ofNat 6 (2 ^ r) }
  if lowering d && d.pwr.pg &&& railGroup d d.pwr.ord == 0 then onPwr d fun p => { p with waitDly := true } else d

/-- RAIL_DLY_EXPIRY (R481, R482). -/
def railDly (d : Dev) : Dev :=
  if !d.pwr.waitDly then d
  else if d.pwr.st = .powerUp then
    match nextOrder d (d.pwr.ord + 1) with
    | some o => raiseRails o d
    | none => releaseCore d
  else if lowering d && d.pwr.en != 0 then lowerRails d
  else d

/-- The sequencer enters DOWN (R483, R484); a power-down sequence under way goes on. -/
def goDown (off : Nat) (d : Dev) : Dev :=
  let low := lowering d
  let d := wr (onPwr d fun p => { p with st := .down }) F.PWR_STATUS_LAST_OFF 0 off
  if low then d else lowerRails d

/-- PG_TMO_EXPIRY (R482, R483). -/
def pgTmo (d : Dev) : Dev :=
  if d.pwr.waitDly then d
  else
    let g := railGroup d d.pwr.ord
    if d.pwr.st = .powerUp then goDown 5 (railBits d (g &&& ~~~d.pwr.pg))
    else if lowering d then onPwr (railBits d (g &&& d.pwr.pg)) fun p => { p with waitDly := true }
    else d

/-- RAIL_FAULT (R484): the power-good of a rail that is meant to be on falls. -/
def railFault (r : Nat) (soon : Bool) (s : State) : State :=
  let d := s.dev
  if !(d.pwr.en.getLsbD r && d.pwr.pg.getLsbD r) then s else
  let quick := soon && (rd d F.PWR_WAKE_STATUS_SRC).testBit 4
  let d := railBits (onPwr d fun p => { p with pg := p.pg &&& ~~~BitVec.ofNat 6 (2 ^ r) }) (BitVec.ofNat 6 (2 ^ r))
  if d.pwr.st = .down then { s with dev := d }
  else
    let s := holdCore { s with dev := d }
    { s with dev := goDown 4 (onPwr s.dev fun p => { p with noRestart := quick }) }

/-! ### Standby and wake -/

/-- Records wake sources (Table 19-5). -/
def wakeSrc (d : Dev) (m : BitVec 5) : Dev := wr d F.PWR_WAKE_STATUS_SRC 0 (rd d F.PWR_WAKE_STATUS_SRC ||| m.toNat)

/-- A wake starts POWER_UP, no earlier than OFF_MIN after the last rail went off (R481). -/
def wakeUp (s : State) : State := if s.dev.pwr.offMin then startUp s else { s with dev := onPwr s.dev fun p => { p with wakeDue := true } }

/-- A wake source acts (R487, R488, R496): in STANDBY it wakes, during an entry it is latched. -/
def wake (b : Nat) (s : State) : State :=
  let m := BitVec.ofNat 5 (2 ^ b)
  let d := s.dev
  if d.pwr.discard then s
  else if d.pwr.st = .standby then wakeUp { s with dev := wakeSrc d m }
  else if d.pwr.armed && (d.pwr.st == .entry || d.pwr.st == .down) then { s with dev := onPwr d fun p => { p with latch := p.latch ||| m } }
  else s

/-- STANDBY_REACHED (R480, R487). -/
def standbyReached (s : State) : State :=
  let d := s.dev
  if !(lowering d && d.pwr.waitDly && d.pwr.en == 0) then s else
  let l := d.pwr.latch
  let replay := l != 0 && !d.pwr.discard
  let d := wrB (wr d F.PWR_WAKE_STATUS_SRC 0 0) F.PWR_WAKE_STATUS_REPLAYED 0 replay
  let d := onPwr d fun p => { p with st := .standby, armed := false, latch := 0, offMin := false, waitDly := false }
  if replay then wakeUp { s with dev := wakeSrc d l } else { s with dev := d }

/-- OFF_MIN_EXPIRY (R481). -/
def offMinEnd (s : State) : State :=
  if s.dev.pwr.st ≠ .standby then s else
  let s := { s with dev := onPwr s.dev fun p => { p with offMin := true } }
  if s.dev.pwr.wakeDue then startUp s else s

/-- A standby request or thermal request is accepted (R485, R490): `kind` 0 single, 1 agreed, 2 thermal. -/
def acceptEntry (t : SN) (kind : Nat) (sn : SN) (d : Dev) : Dev :=
  let d := wr d F.PWR_STATUS_LAST_OFF 0 (if kind = 0 then 1 else if kind = 1 then 2 else 3)
  let d := onPwr { d with stagger := [] } fun p => { p with
    st := .entry, armed := kind != 2, latch := 0, discard := kind == 2, entryT := some t, agreed := kind == 1, ticked := false,
    propose := none, waitDly := false }
  raise d { typ := 0xB0, sn := sn, p0 := t.toNat, p1 := if kind = 0 then 0 else kind }

/-- A request is refused (R485, Table 19-6). -/
def refuseEntry (why : Nat) (sn : SN) (d : Dev) : Dev :=
  raise (wrB (onPwr d fun p => { p with propose := none }) F.PWR_STATUS_REFUSED 0 true) { typ := 0xB1, sn := sn, p0 := why }

/-- The first sweep whose tick comes at least 10 µs after an instant `ns` after the tick of `sn` (R485). -/
def entrySweep (sn : SN) (ns : Nat) : SN := sn + BitVec.ofNat 32 (cdiv (10 * (10000 + ns)) 16384)

/-- STBY_REQ (R485, R486). -/
def stbyReq (ns : Nat) (sn : SN) (d : Dev) : Dev :=
  if d.pwr.st ≠ .active ∨ d.pwr.propose.isSome then d
  else if !rdB d F.TWN_CFG_EN then acceptEntry (entrySweep sn ns) 0 sn d
  else if !linkUp d then refuseEntry 1 sn d
  else
    let t := sn + 16#32
    control (onPwr d fun p => { p with propose := some t }) 6 [t.toNat]

/-- LP_PROPOSE (R486). -/
def lpPropose (t sn : SN) (d : Dev) : Dev :=
  if !linkUp d then d else
  match d.pwr.propose with
  | some u => acceptEntry (if snFuture t u then t else u) 1 sn d
  | none =>
    if d.pwr.st = .active ∧ rdB d F.PWR_CTL_STBY_ALLOW then control (acceptEntry t 1 sn d) 7
    else control d 8

/-- LP_AGREE, or the mate's refusal (R486). -/
def lpReply (agree : Bool) (sn : SN) (d : Dev) : Dev :=
  match d.pwr.propose with
  | some t => if agree then acceptEntry t 1 sn d else refuseEntry 2 sn d
  | none => d

/-- LP_REPLY_TIMEOUT (R486): 8 sweeps after the proposal. -/
def lpTimeout (sn : SN) (d : Dev) : Dev :=
  match d.pwr.propose with
  | some t => if snDue (t - 8#32) sn then refuseEntry 3 sn d else d
  | none => d

/-- ENTRY_TICK (R485 step 3): the heartbeat timer is disarmed, but after a thermal request, where the heartbeat is lost
(R496). -/
def entryTick (sn : SN) (d : Dev) : Dev :=
  match d.pwr.entryT with
  | none => d
  | some t =>
    if d.pwr.st ≠ .entry ∨ d.pwr.ticked ∨ !snDue t sn then d else
    let d := (List.range 128).foldl (fun d n => let d := txSet d n 0; if rxSt d n = 0 then d else rxSet d n 1) d
    let d := (List.range 32).foldl (fun d q => wrB (wr d F.LNE_QUAD_STATUS_PWR q 0) F.LNE_QUAD_STATUS_PLL_LOCK q false) d
    onPwr { d with stagger := [] } fun p => { p with
      ticked := true, hbOff := p.agreed || !p.discard }

/-- ENTRY_CORE_RESET (R485 step 4): it waits for an AVS step in progress. -/
def entryReset (s : State) : State :=
  let d := s.dev
  if !(d.pwr.st == .entry && d.pwr.ticked && d.pwr.core) then s
  else if rdB d F.PWR_AVS_STATUS_STEP then { s with dev := onPwr d fun p => { p with resetDue := true } }
  else
    let s := holdCore s
    { s with dev := lowerRails (onPwr s.dev fun p => { p with resetDue := false }) }

/-- AVS_STEP_DONE (R492): a core reset that waited for the step follows. -/
def avsDone (s : State) : State :=
  let s := { s with dev := wrB s.dev F.PWR_AVS_STATUS_STEP 0 false }
  if s.dev.pwr.resetDue then entryReset s else s

/-! ### AVS, telemetry and sensors -/

/-- AVS_LOOP (R491): one step of 5 mV by the lowest process slack. -/
def avsLoop (procs : List (BitVec 12)) (sn : SN) (d : Dev) : Dev :=
  if !rdB d F.PWR_AVS_CFG_EN || rdB d F.PWR_AVS_STATUS_STEP then d else
  match procs with
  | [] => d
  | x :: xs =>
    let low := xs.foldl (fun m y => min m y.toNat) x.toNat
    let v := rd d F.PWR_AVS_STATUS_VSET
    let m := rd d F.PWR_AVS_CFG_MARGIN
    let hi := rd d F.PWR_AVS_CFG_VMAX
    let lo := rd d F.PWR_AVS_CFG_VMIN
    let at' (lim : Bool) (k : Nat) (d : Dev) : Dev :=
      let was := rdB d F.PWR_AVS_STATUS_AT_LIMIT
      let d := wrB d F.PWR_AVS_STATUS_AT_LIMIT 0 lim
      if lim && !was then raise d { typ := 0xB5, sn := sn, p0 := k, p1 := low } else d
    let step (w : Nat) (d : Dev) : Dev := emit (wrB (wr d F.PWR_AVS_STATUS_VSET 0 w) F.PWR_AVS_STATUS_STEP 0 true) (.avsWrite w)
    if low < m then (if v + 5 ≤ hi then at' (decide (hi < v + 10)) 1 (step (v + 5) d) else at' true 1 d)
    else if m + 8 < low then (if lo + 5 ≤ v then at' (decide (v < lo + 10)) 0 (step (v - 5) d) else at' true 0 d)
    else d

/-- PMBUS_TELEMETRY (R493): READ_VOUT, READ_IOUT and READ_TEMPERATURE_1 of each rail; none: the transaction failed. -/
def pmbus (rails : List (Option (BitVec 16) × Option (BitVec 16) × Option (BitVec 8))) (sn : SN) (d : Dev) : Dev :=
  let bad (x : Option (BitVec 16) × Option (BitVec 16) × Option (BitVec 8)) : Nat :=
    x.1.isNone.toNat + x.2.1.isNone.toNat + x.2.2.isNone.toNat
  let put (f : Fld) (r : Nat) (v : Option Nat) (d : Dev) : Dev := match v with
    | some v => wr d f r v
    | none => d
  let d := (rails.take 6).zipIdx.foldl (fun d x =>
    let d := put F.PWR_TEL_VOUT x.2 (x.1.1.map BitVec.toNat) d
    let d := put F.PWR_TEL_IOUT x.2 (x.1.2.1.map BitVec.toNat) d
    let d := put F.PWR_TEL_TEMP x.2 (x.1.2.2.map BitVec.toNat) d
    sat d F.PWR_TEL_ERR x.2 (bad x.1)) d
  match (rails.take 6).zipIdx.find? fun x => bad x.1 != 0 with
  | some x => raise d { typ := 0xB6, sn := sn, p0 := x.2 }
  | none => d

/-- A monitor reading lies outside its window (Table 22-1): tenths of mV. -/
def vmonBad (d : Dev) (v mv : Nat) : Bool :=
  let w (lo hi : Nat) : Bool := decide (10 * mv < lo ∨ hi < 10 * mv)
  if v = 0 ∨ v = 10 then w 16700 19300
  else if v ≤ 4 then decide (100 * mv < 95 * rd d F.PWR_AVS_STATUS_VSET ∨ 105 * rd d F.PWR_AVS_STATUS_VSET < 100 * mv)
  else if v = 5 ∨ v = 6 ∨ v = 11 then w 7600 8400
  else if v = 7 ∨ v = 8 then w 7125 7875
  else w 11400 12600

/-- An over-temperature shutdown request (R496): `kind` 1 temperature, 2 external THERM_N. -/
def thermRequest (kind : Nat) (sn : SN) (d : Dev) : Dev :=
  if d.pwr.thermOut then d else
  let d := onPwr d fun p => { p with thermOut := true, thermDue := true }
  failCause sn (nmi (raise d { typ := 0xB2, sn := sn, p0 := kind, p1 := rd d F.PWR_TEMP_MAX_NOW })) 1

/-- The temperature part of a sensor reading (R494, R495): quarter degrees. -/
def tempRead (temps : List (BitVec 12)) (sn : SN) (d : Dev) : Dev :=
  match temps.zipIdx with
  | [] => d
  | x :: xs =>
    let top := xs.foldl (fun a b => if a.1.toInt < b.1.toInt then b else a) x
    let now := top.1.toInt
    let d := wr d F.PWR_TEMP_MAX_NOW 0 top.1.toNat
    let d := if signed 12 (rd d F.PWR_TEMP_MAX_PEAK) < now then wr d F.PWR_TEMP_MAX_PEAK 0 top.1.toNat else d
    let warn : Int := 4 * (rd d F.PWR_TEMP_CFG_WARN : Nat)
    let shut : Int := 4 * (rd d F.PWR_TEMP_CFG_SHUT : Nat)
    let d := if warn ≤ now ∧ !d.pwr.warned then
        raise (onPwr d fun p => { p with warned := true }) { typ := 0xB3, sn := sn, p0 := top.2, p1 := top.1.toNat }
      else if now ≤ warn - 20 then onPwr d fun p => { p with warned := false } else d
    let d := onPwr d fun p => { p with overRun := if shut ≤ now then min 2 (p.overRun + 1) else 0 }
    if 2 ≤ d.pwr.overRun then thermRequest 1 sn d else d

/-- SENSOR_READ (R494, R495). -/
def sensorRead (temps volts procs : List (BitVec 12)) (sn : SN) (d : Dev) : Dev :=
  let put (f : Fld) (n : Nat) (l : List (BitVec 12)) (d : Dev) : Dev :=
    (l.take n).zipIdx.foldl (fun d x => wr d f x.2 x.1.toNat) d
  let d := put F.PWR_SENS_PROC 8 procs (put F.PWR_SENS_VOLT 12 volts (put F.PWR_SENS_TEMP 16 temps d))
  let d := (volts.take 12).zipIdx.foldl (fun d x =>
    let b := vmonBad d x.2 x.1.toNat
    let was := d.pwr.vmon.getLsbD x.2
    let d := onPwr d fun p => { p with vmon := BitVec.ofNat 12 (setBit p.vmon.toNat x.2 b) }
    if b && !was then raise d { typ := 0xB4, sn := sn, p0 := x.2, p1 := x.1.toNat } else d) d
  tempRead (temps.take 16) sn d

/-- THERM_DLY_EXPIRY (R496 step 2). -/
def thermDly (ns : Nat) (sn : SN) (d : Dev) : Dev :=
  if !d.pwr.thermDue then d else
  let d := onPwr d fun p => { p with thermDue := false }
  if d.pwr.st = .active then acceptEntry (entrySweep sn ns) 2 sn d else d

/-- THERM_HOLD_EXPIRY (R496 steps 3 and 4). -/
def thermHold (d : Dev) : Dev :=
  if d.pwr.st = .standby then onPwr d fun p => { p with thermOut := false, discard := false } else d

/-! ### The commands -/

/-- R480: VAO is applied to a device in OFF. -/
def execVaoApplied (s : State) : Res :=
  .next (if s.dev.pwr.st = .off then { s with dev := onPwr s.dev fun p => { p with st := .por } } else s)
/-- R480. -/
def execPowerOnResetEnd (s : State) : Res := .next (if s.dev.pwr.st = .por then startUp s else s)
/-- R481. -/
def execPgInRise (r : Fin 6) (s : State) : Res := onDev s (pgRise r)
/-- R481, R482. -/
def execRailDlyExpiry (s : State) : Res := onDev s railDly
/-- R482, R483. -/
def execPgTmoExpiry (s : State) : Res := onDev s pgTmo
/-- R482. -/
def execPgInLow (r : Fin 6) (s : State) : Res := onDev s (pgLow r)
/-- R484. -/
def execRailFault (r : Fin 6) (soon : Bool) (s : State) : Res := .next (railFault r soon s)
/-- R485. -/
def execStbyReq (ns : Nat) (s : State) : Res := core s (stbyReq ns s.sn)
/-- R486. -/
def execLpPropose (t : SN) (s : State) : Res := fromMate 0xC s (lpPropose t s.sn)
/-- R486. -/
def execLpAgree (agree : Bool) (s : State) : Res := fromMate 0xC s (lpReply agree s.sn)
/-- R486. -/
def execLpReplyTimeout (s : State) : Res := core s (lpTimeout s.sn)
/-- R485. -/
def execEntryTick (s : State) : Res := core s (entryTick s.sn)
/-- R485. -/
def execEntryCoreReset (s : State) : Res := .next (entryReset s)
/-- R480, R487. -/
def execStandbyReached (s : State) : Res := .next (standbyReached s)
/-- R481. -/
def execOffMinExpiry (s : State) : Res := .next (offMinEnd s)
/-- Table 19-3. -/
def execWakeN (s : State) : Res := .next (if rdB s.dev F.PWR_WAKE_CFG_WAKE_N_EN then wake 0 s else s)
/-- Table 19-3. -/
def execSmbusWake (s : State) : Res := .next (if rdB s.dev F.PWR_WAKE_CFG_SMB_EN then wake 1 s else s)
/-- Table 19-3: after an agreed entry, from the tick of T on. -/
def execTwAliveWake (s : State) : Res := .next (if s.dev.pwr.agreed && s.dev.pwr.ticked then wake 2 s else s)
/-- Table 19-3. -/
def execWakeTimer (s : State) : Res :=
  .next (if s.dev.pwr.st == .standby && rdB s.dev F.PWR_WAKE_CFG_TIMER_EN && rd s.dev F.PWR_WAKE_TMR != 0 then wake 3 s else s)
/-- R484. -/
def execAutoRestart (s : State) : Res :=
  .next (if s.dev.pwr.st == .standby && rdB s.dev F.PWR_CFG_AUTO_RESTART && rd s.dev F.PWR_STATUS_LAST_OFF == 4 &&
    !s.dev.pwr.noRestart then wake 4 s else s)
/-- R491. -/
def execAvsLoop (procs : List (BitVec 12)) (s : State) : Res := core s (avsLoop procs s.sn)
/-- R492. -/
def execAvsStepDone (s : State) : Res := coreSt s avsDone
/-- R493. -/
def execPmbusTelemetry (rails : List (Option (BitVec 16) × Option (BitVec 16) × Option (BitVec 8))) (s : State) : Res :=
  core s (pmbus rails s.sn)
/-- R494. -/
def execSensorRead (temps volts procs : List (BitVec 12)) (s : State) : Res := core s (sensorRead temps volts procs s.sn)
/-- R495. -/
def execThermNExternal (s : State) : Res := core s (thermRequest 2 s.sn)
/-- R496. -/
def execThermDlyExpiry (ns : Nat) (s : State) : Res := core s (thermDly ns s.sn)
/-- R496. -/
def execThermHoldExpiry (s : State) : Res := onDev s thermHold
/-- R479, R480, R293: every latch and register of the always-on island is lost. -/
def execVaoLoss (s : State) : Res :=
  .next {
    pending := s.pending, dev := {
    out := s.dev.out, free := s.dev.free, sec := { fuses := keptFuses s.dev },
    pwr := { st := .off, core := false, en := 0, pg := 0 } } }

end Sys2Proof.Machine
end

