-- ==== Sys2Proof/Machine/Security.lean ====
section
/-! DEFINITION. Security and Caliche (chapter 18): the host session exchange, the SMBus target, fuse programming, the
anti-rollback floor and the JTAG challenge. -/

namespace Sys2Proof.Machine

/-- Updates the security unit's own state. -/
def onSec (d : Dev) (f : Sec → Sec) : Dev := { d with sec := f d.sec }

/-! ### Host sessions -/

/-- SEC_SESS_STATUS.STATE: 0 IDLE, 1 WAIT_DEVICE, 2 CHALLENGE, 3 OPEN, 4 FAIL. -/
def sessState (d : Dev) : Nat := rd d F.SEC_SESS_STATUS_STATE
def sessSlot (d : Dev) : Nat := rd d F.SEC_SESS_STATUS_SLOT

/-- Firmware on core 0 serves the exchange (R455). -/
def secRuns (d : Dev) : Bool := fwRuns d 0x7F

/-- First logical word of a class key (Table 18-5). -/
def keyWord (cls : Nat) : Nat := if cls = 4 then 8 else 16 + 8 * cls

/-- The class key, if it is usable (R468). -/
def classKey (d : Dev) (cls : Nat) : Option (List (BitVec 8)) :=
  if fieldOk d (keyWord cls) 8 then some (fieldBytes d (keyWord cls) 8) else none

/-- A mask with bits n and 16 + n acting as one (R457). -/
def pairMask (m : BitVec 64) : BitVec 64 :=
  let lo := (m ||| (m >>> 16)) &&& 0xFFFF#64
  m ||| lo ||| (lo <<< 16)

/-- A session proof (R456, Table 18-2): `tag` 0x44 or 0x48. -/
def proof (key : List (BitVec 8)) (tag : BitVec 8) (a b : BitVec 64) (cls slot : Nat) (mask : BitVec 64) : List (BitVec 8) :=
  hmac key (tag :: (leBytes a ++ leBytes b ++ [BitVec.ofNat 8 cls, BitVec.ofNat 8 slot] ++ leBytes mask))

/-- Bytes `4w` to `4w + 3` as a register word, byte 0 in bits [7:0]. -/
def leWord (bs : List (BitVec 8)) (w : Nat) : W32 := BitVec.ofNat 32 (leNat bs (4 * w) 4)

/-- SESSION_OPEN (R455, R458): an exchange in progress goes on. -/
def sessionOpen (d : Dev) : Dev :=
  if sessState d = 1 ∨ sessState d = 2 then wrB d F.SEC_SESS_STATUS_COLLIDE 0 true else
  let d := onSec d fun x => { x with
    exCls := Fin.ofNat 8 (rd d F.SEC_SESS_REQ_CLASS), exFuse := rdB d F.SEC_SESS_REQ_FUSE,
    exMask := BitVec.ofNat 64 (rd d F.SEC_SESS_RINGS_LO + 2 ^ 32 * rd d F.SEC_SESS_RINGS_HI),
    exHn := BitVec.ofNat 64 (rd d F.SEC_SESS_HNONCE_LO + 2 ^ 32 * rd d F.SEC_SESS_HNONCE_HI) }
  wr (wr (wr d F.SEC_SESS_STATUS_STATE 0 1) F.SEC_SESS_STATUS_SLOT 0 0xF) F.SEC_SESS_STATUS_FAIL 0 0

/-- Slots that are not open. -/
def freeSlotsOf (d : Dev) : List Nat := (List.range 15).filter fun n => !rdB d F.SEC_SESS_SLOT_OPEN n

/-- The reason for which the exchange fails before a challenge (Table 18-3), 0 none. -/
def sessReason (d : Dev) : Nat :=
  let x := d.sec
  let m := pairMask x.exMask
  if 5 ≤ x.exCls.val ∨ (x.exCls.val = 4 ∧ secLocked d) then 1
  else if (classKey d x.exCls).isNone then 2
  else if x.exMask.toNat / 2 ^ 41 ≠ 0 ∨ (List.range 41).any (fun r => m.getLsbD r && bound d r) then 3
  else if freeSlotsOf d = [] then 4
  else if x.locked[x.exCls] then 5
  else if (x.exFuse ∧ x.exCls.val ≠ 0 ∧ x.exCls.val ≠ 4) ∨ (m.getLsbD 38 ∧ x.exCls.val ≠ 0 ∧ x.exCls.val ≠ 1) then 6
  else 0

/-- The exchange fails (R457, R459): the fifth failure in a row with reason 7 or 8 and each further one lock the class
out. -/
def sessFail (reason : Nat) (sn : SN) (d : Dev) : Dev :=
  let c := d.sec.exCls
  let counts := (reason = 7 ∨ reason = 8)
  let n := d.sec.fails[c] + (if counts then 1 else 0)
  let lockNow := counts ∧ 5 ≤ n
  let len := if lockNow then (if d.sec.lock[c] = 0 then 60 else min 3600 (2 * d.sec.lock[c])) else d.sec.lock[c]
  let d := onSec d fun x => { x with
    fails := x.fails.set c n, lock := x.lock.set c len, locked := if lockNow then x.locked.set c true else x.locked }
  let d := wr (wr d F.SEC_SESS_STATUS_STATE 0 4) F.SEC_SESS_STATUS_FAIL 0 reason
  raise d { typ := 0x82, sn := sn, p0 := c, p1 := reason, p2 := n, p3 := if d.sec.locked[c] then len else 0 }

/-- CHALLENGE (R457). Which free slot the exchange gets is open: a free value. -/
def challenge (sn : SN) (d : Dev) : Dev :=
  if sessState d ≠ 1 ∨ !secRuns d then d
  else if sessReason d ≠ 0 then sessFail (sessReason d) sn d
  else
    let fs := freeSlotsOf d
    let slot := fs.getD ((Config.freeWord d.free).toNat % fs.length) 0
    let nd := Config.nonce d.free
    let x := d.sec
    let p := proof ((classKey d x.exCls).getD []) 0x44 x.exHn nd x.exCls slot x.exMask
    let d := freed (onSec d fun x => { x with exNd := nd })
    let d := wr (wr d F.SEC_SESS_DNONCE_LO 0 nd.toNat) F.SEC_SESS_DNONCE_HI 0 (nd.toNat / 2 ^ 32)
    let d := (List.range 8).foldl (fun d w => wr d F.SEC_SESS_DPROOF w (leWord p w).toNat) d
    wr (wr d F.SEC_SESS_STATUS_SLOT 0 slot) F.SEC_SESS_STATUS_STATE 0 2

/-- The session opens (R457, R460). -/
def sessGrant (sn : SN) (d : Dev) : Dev :=
  let slot := sessSlot d
  let x := d.sec
  let m := pairMask x.exMask
  let tok := Config.token d.free
  let d := (List.range 41).foldl (fun d r => if m.getLsbD r then wr d F.HIF_RING_STATUS_SESS r slot else d) d
  let d := freed (onSec d fun x => { x with
    tokens := tins x.tokens slot tok, fails := x.fails.set x.exCls 0, lock := x.lock.set x.exCls 0 })
  let d := wr (wrB (wrB d F.SEC_SESS_SLOT_OPEN slot true) F.SEC_SESS_SLOT_FUSE slot x.exFuse) F.SEC_SESS_SLOT_CLASS slot x.exCls
  let d := wr (wr d F.SEC_SESS_OPEN_TOKEN 0 tok.toNat) F.SEC_SESS_STATUS_STATE 0 3
  raise d { typ := 0x80, sn := sn, p0 := slot, p1 := x.exCls, p2 := m.toNat % 2 ^ 32, p3 := m.toNat / 2 ^ 32 }

/-- SESSION_RESP (R457). -/
def sessionResp (sn : SN) (d : Dev) : Dev :=
  if sessState d ≠ 2 ∨ !secRuns d then d else
  let x := d.sec
  let p := proof ((classKey d x.exCls).getD []) 0x48 x.exNd x.exHn x.exCls (sessSlot d) x.exMask
  if (List.range 8).all fun w => leWord p w == tget 0 x.resp w then sessGrant sn d else sessFail 7 sn d

/-- RESPONSE_TIMEOUT (Table 18-3). -/
def respTimeout (sn : SN) (d : Dev) : Dev := if sessState d = 2 then sessFail 8 sn d else d

/-- SESSION_CLOSE (R460): a wrong token is ignored and counted. -/
def sessionClose (slot : Nat) (sn : SN) (d : Dev) : Dev :=
  match tfind d.sec.tokens slot with
  | some t =>
    if rd d F.SEC_SESS_CLOSE_TOKEN = t.toNat then raise (closeSlot d slot) { typ := 0x81, sn := sn, p0 := slot, p1 := 1 }
    else sat d F.SEC_SMB_CNT_AUTH_FAIL 0
  | none => sat d F.SEC_SMB_CNT_AUTH_FAIL 0

/-! ### The SMBus target -/

/-- A command that needs a session (R461): a failed PEC is counted, and without a session STATUS shows NO_SESSION. -/
def smbSess (pec : Bool) (f : Dev → Dev) (d : Dev) : Dev :=
  if !pec then sat d F.SEC_SMB_CNT_PEC_ERR 0
  else if !d.sec.smbOpen then onSec d fun x => { x with smbNo := true }
  else f (onSec d fun x => { x with smbNo := false })

/-- DEVICE_ID (Table 18-4). -/
def smbDevId (d : Dev) : Dev :=
  emit (onSec d fun x => { x with smbNo := false }) (.smbus (fieldBytes d 0 2 ++ [Config.revDig ++ Config.revLtr,
    BitVec.ofNat 8 (svnFloor d), BitVec.ofNat 8 (svnFloor d / 256)]))

/-- STATUS (Table 18-4). -/
def smbStatus (d : Dev) : Dev :=
  let x := d.sec
  emit d (.smbus [BitVec.ofNat 8 (x.smbOpen.toNat + 2 * x.smbLock.toNat + 4 * x.smbNo.toNat + 8 * x.smbLast.toNat)])

/-- Salt and verifier of the current SMBus generation (R462). -/
def smbGen (d : Dev) : Option (List (BitVec 8) × List (BitVec 8)) :=
  (([3, 2, 1, 0] : List Nat).find? fun g => fieldOk d (96 + 16 * g) 12).map fun g =>
    (fieldBytes d (96 + 16 * g) 4, fieldBytes d (100 + 16 * g) 8)

/-- The password is right (R462). -/
def smbPass (d : Dev) (pwd : List (BitVec 8)) : Bool :=
  decide (8 ≤ pwd.length ∧ pwd.length ≤ 32) && (match smbGen d with
    | some g => sha256 (g.1 ++ pwd) == g.2
    | none => false)

/-- SESS_OPEN (R462): three failures in a row and each further one lock opens out. The manual names no reason code for an
SMBus failure: P1 of the event is a free value. -/
def smbOpenCmd (pec : Bool) (pwd : List (BitVec 8)) (sn : SN) (d : Dev) : Dev :=
  if !pec then sat d F.SEC_SMB_CNT_PEC_ERR 0 else
  let d := onSec d fun x => { x with smbNo := false }
  if !d.sec.smbLock && smbPass d pwd then
    onSec d fun x => { x with smbOpen := true, smbLast := false, smbFails := 0, smbLen := 0 }
  else
    let n := d.sec.smbFails + (if d.sec.smbLock then 0 else 1)
    let hit := !d.sec.smbLock && decide (3 ≤ n)
    let len := if hit then (if d.sec.smbLen = 0 then 10 else min 640 (2 * d.sec.smbLen)) else d.sec.smbLen
    let d := onSec (sat d F.SEC_SMB_CNT_AUTH_FAIL 0) fun x => { x with
      smbLast := true, smbFails := n, smbLock := x.smbLock || hit, smbLen := len }
    freed (raise d { typ := 0x82, sn := sn, p0 := 0xFF, p1 := (Config.freeWord d.free).toNat % 16, p2 := n,
                     p3 := if d.sec.smbLock then len else 0 })

/-- READ serves the word (R463). -/
def smbReads (a : Nat) : Bool :=
  decide (0x2C00000 ≤ a ∧ a < 0x3000000) || decide (0x2402000 ≤ a ∧ a < 0x2403040) ||
    a == F.TWN_STATUS_ROLE.base || a == F.CTL_CORE_STATUS_SVN.base || a == F.SEC_STATUS_LOCKED.base

/-- WRITE serves the word (R463, R499). -/
def smbWrites (a : Nat) : Bool :=
  a == F.PWR_CTL_STBY_REQ.base || a == F.PWR_WAKE_CFG_SMB_EN.base || a == F.PWR_WAKE_TMR.base || a == F.PWR_TEMP_CFG_WARN.base

/-- Bytes of a word, least significant first. -/
def wordBytes (w : W32) : List (BitVec 8) := (List.range 4).map fun k => w.extractLsb' (8 * k) 8

/-- Reads `n` words from `a` for READ: other words read as zero. -/
def smbRead (lock : Bool) : Nat → Nat → Dev → List W32 × Dev
  | _, 0, d => ([], d)
  | a, n + 1, d =>
    if smbReads a then
      let w := readWord lock d a
      let r := smbRead lock (a + 4) n (clearWord d a)
      (w :: r.1, r.2)
    else
      let r := smbRead lock (a + 4) n d
      (0 :: r.1, r.2)

/-- READ (R463). -/
def smbReadCmd (a n : Nat) (lock : Bool) (d : Dev) : Dev :=
  let r := smbRead lock (a / 4 * 4) n d
  emit (freed r.2) (.smbus (r.1.flatMap wordBytes))

/-- WRITE (R463, R499): STBY_REQ = 1 requests standby (R485). Another write is discarded, and counted where no table
defines the address (R510, Table 21-7). -/
def smbWriteCmd (addr : Nat) (v : W32) (ns : Nat) (lock : Bool) (sn : SN) (d : Dev) : Dev :=
  let a := addr / 4 * 4
  if !smbWrites a then (if implemented a then d else sat d F.GLB_BAR0_ERR_WR_DISC 0) else
  let d := writeWord a v ns lock sn d
  if a = F.PWR_CTL_STBY_REQ.base ∧ v.getLsbD 0 then stbyReq ns sn d else d

/-! ### Fuses -/

/-- The class may program logical word `i` (Table 18-5): 0 ADMIN, 4 FACTORY, which holds every right of ADMIN (R452). -/
def fuseAllowed (d : Dev) (cls i : Nat) : Bool :=
  let admin := decide (4 ≤ i ∧ i ≤ 6) || decide (96 ≤ i ∧ i < 224)
  let fac := i == 2 || i == 3 || decide (16 ≤ i ∧ i < 56)
  admin || (cls == 4 && fac && !secLocked d)

/-- Classes of open sessions that were opened with FUSE = 1. -/
def fuseSess (d : Dev) : List Nat :=
  ((List.range 15).filter fun n => rdB d F.SEC_SESS_SLOT_OPEN n && rdB d F.SEC_SESS_SLOT_FUSE n &&
    (rd d F.SEC_SESS_SLOT_CLASS n == 0 || rd d F.SEC_SESS_SLOT_CLASS n == 4)).map (rd d F.SEC_SESS_SLOT_CLASS)

/-- The physical word that programming logical word `i` takes (R469). -/
def fuseTarget (d : Dev) (i : Nat) : Option Nat :=
  if fuseAt d i = 0 then some i else ((List.range 64).map (256 + ·)).find? fun p => fuseAt d p == 0

/-- Some root other than `j` is usable and not revoked, in the fuses as they stand. -/
def otherRoot (d : Dev) (j : Nat) : Bool :=
  (List.range 3).any fun k => k != j && (rootOf d k).isSome && (fuseResolve d (4 + k)).1 != 1

/-- ERR of a GO (Table 18-7). -/
def fuseErr (d : Dev) (i : Nat) (v : W32) : Nat :=
  if fuseSess d = [] then 1
  else if !((fuseSess d).any fun c => fuseAllowed d c i) then 2
  else if (fuseResolve d i).1 = 1 ∨ calState d i = 1 then 3
  else if (fuseTarget d i).isNone then 4
  else if i = 2 ∧ v.getLsbD 0 ∧ (classKey d 0).isNone then 5
  else if 4 ≤ i ∧ i ≤ 6 ∧ !otherRoot d (i - 4) then 6
  else 0

/-- SEC_FUSE_GO (R469): ignored while BUSY. -/
def fuseGo (d : Dev) : Dev :=
  if rdB d F.SEC_FUSE_STATUS_BUSY then d else
  let i := rd d F.SEC_FUSE_IDX
  let v := BitVec.ofNat 32 (rd d F.SEC_FUSE_PROG_DATA)
  let e := fuseErr d i v
  wrB (onSec d fun x => if e = 0 then { x with prog := some (i, (fuseTarget d i).getD 0, v) } else { x with progBad := some (i, e) })
    F.SEC_FUSE_STATUS_BUSY 0 true

/-- SEC_FUSE_DONE (R469). A GO that ends in an error has no physical word: P1 is then a free value. -/
def fuseDone (sn : SN) (d : Dev) : Dev :=
  match d.sec.prog, d.sec.progBad with
  | some (i, p, v), _ =>
    let d := onSec d fun x => { x with fuses := tput 0 x.fuses p (fuseWord i v true), prog := none }
    raise (wr (wrB d F.SEC_FUSE_STATUS_BUSY 0 false) F.SEC_FUSE_STATUS_ERR 0 0) { typ := 0x83, sn := sn, p0 := i, p1 := p }
  | none, some (i, e) =>
    let d := onSec d fun x => { x with progBad := none }
    freed (raise (wr (wrB d F.SEC_FUSE_STATUS_BUSY 0 false) F.SEC_FUSE_STATUS_ERR 0 e)
      { typ := 0x83, sn := sn, p0 := i, p1 := (Config.freeWord d.free).toNat % 512, p2 := e })
  | none, none => d

/-- The floor that the fuses as they stand will give (R473). -/
def floorNow (d : Dev) : Nat :=
  (List.range 64).foldl (fun m k => match fuseResolve d (160 + k) with
    | (1, v, _) => max m (v.toNat % 65536)
    | _ => m) (svnFloor d)

/-- SEC_SVN_RAISED (R474): firmware raises the floor to the version it runs, or finds no blank SVN word. -/
def svnRaise (sn : SN) (d : Dev) : Dev :=
  let v := rd d F.CTL_CORE_STATUS_SVN
  if !(calPolicy d).testBit 5 || !secRuns d || decide (v ≤ floorNow d) || d.sec.prog.isSome then d else
  match (List.range 64).find? fun k => fuseAt d (160 + k) == 0 && (fuseResolve d (160 + k)).1 == 0 with
  | some k =>
    raise (onSec d fun x => { x with fuses := tput 0 x.fuses (160 + k) (fuseWord (160 + k) (BitVec.ofNat 32 v) true) })
      { typ := 0x84, sn := sn, p0 := v }
  | none => raise d { typ := 0x85, sn := sn, p0 := floorNow d }

/-- JTAG_CHALLENGE (R467): the port gives a nonce, and `resp` answers it, byte 0 in bits [7:0]. -/
def jtagChallenge (resp : BitVec 256) (d : Dev) : Dev :=
  if !secLocked d || dbgMode d != 1 then d else
  let n := Config.nonce d.free
  let ok := match classKey d 3 with
    | some k => hmac k (0x4A#8 :: leBytes n) == (List.range 32).map fun j => resp.extractLsb' (8 * j) 8
    | none => false
  onSec (freed (emit d (.jtag n))) fun x => { x with dbgOpen := x.dbgOpen || ok }

/-! ### The commands -/

/-- R455, R458. -/
def execSessionOpen (s : State) : Res := core s sessionOpen
/-- R457. -/
def execChallenge (s : State) : Res := core s (challenge s.sn)
/-- R457. -/
def execSessionResp (s : State) : Res := core s (sessionResp s.sn)
/-- Table 18-3. -/
def execResponseTimeout (s : State) : Res := core s (respTimeout s.sn)
/-- R460. -/
def execSessionClose (slot : Fin 16) (s : State) : Res := core s (sessionClose slot s.sn)
/-- R459. -/
def execLockoutExpiry (cls : Fin 5) (s : State) : Res := core s fun d => onSec d fun x => { x with locked := x.locked.set cls.val false }
/-- Table 18-4. -/
def execDeviceId (s : State) : Res := core s smbDevId
/-- Table 18-4. -/
def execStatus (s : State) : Res := core s smbStatus
/-- R462. -/
def execSessOpen (pec : Bool) (pwd : List (BitVec 8)) (s : State) : Res := core s (smbOpenCmd pec pwd s.sn)
/-- R462. -/
def execSessClose (pec : Bool) (s : State) : Res := core s (smbSess pec fun d => onSec d fun x => { x with smbOpen := false })
/-- R463. -/
def execRead (pec : Bool) (addr : W32) (count : Nat) (s : State) : Res := core s (smbSess pec (smbReadCmd addr.toNat count s.lock))
/-- R463. -/
def execWrite (pec : Bool) (addr : W32) (val : W32) (ns : Nat) (s : State) : Res :=
  core s (smbSess pec (smbWriteCmd addr.toNat val ns s.lock s.sn))
/-- R462. -/
def execSmbusSessionTimeout (s : State) : Res := core s fun d => onSec d fun x => { x with smbOpen := false }
/-- R462. -/
def execSmbusLockoutExpiry (s : State) : Res := core s fun d => onSec d fun x => { x with smbLock := false }
/-- R539: the bus is released and the transaction discarded; no transaction is in progress between commands. -/
def execSmbClkLowTimeout (s : State) : Res := .next s
/-- R469. -/
def execSecFuseGo (s : State) : Res := core s fuseGo
/-- R469. -/
def execSecFuseDone (s : State) : Res := core s (fuseDone s.sn)
/-- R474. -/
def execSecSvnRaised (s : State) : Res := core s (svnRaise s.sn)
/-- R467. -/
def execJtagChallenge (resp : BitVec 256) (s : State) : Res := core s (jtagChallenge resp)

end Sys2Proof.Machine
end

