-- ==== Sys2Proof/Machine/Dispatch.lean ====
section
/-! DEFINITION. The dispatch of a command to its meaning, one arm per row of spec/opcode_table.json. -/

namespace Sys2Proof.Machine

def exec (i : Instr) (s : State) : Host.Outcome State Fault Refusal :=
  match i with
  | .sweepTick t => Sys2Proof.Machine.execSweepTick t s
  | .flip => Sys2Proof.Machine.execFlip s
  | .pageRelease => Sys2Proof.Machine.execPageRelease s
  | .commitComplete => Sys2Proof.Machine.execCommitComplete s
  | .commitReady => Sys2Proof.Machine.execCommitReady s
  | .decisionApply pgid => Sys2Proof.Machine.execDecisionApply pgid s
  | .planeSlackRetire p => Sys2Proof.Machine.execPlaneSlackRetire p s
  | .beatErrorTrigger p => Sys2Proof.Machine.execBeatErrorTrigger p s
  | .evacuationMove => Sys2Proof.Machine.execEvacuationMove s
  | .planeRetired => Sys2Proof.Machine.execPlaneRetired s
  | .restoreCheckEnd p ok => Sys2Proof.Machine.execRestoreCheckEnd p ok s
  | .doorbell off bytes val => Sys2Proof.Machine.execDoorbell off bytes val s
  | .descriptorFetch ring raw => Sys2Proof.Machine.execDescriptorFetch ring raw s
  | .descriptorDispatch ring => Sys2Proof.Machine.execDescriptorDispatch ring s
  | .completionWrite ring => Sys2Proof.Machine.execCompletionWrite ring s
  | .lockTimeout ring => Sys2Proof.Machine.execLockTimeout ring s
  | .eventRecord => Sys2Proof.Machine.execEventRecord s
  | .overflowSummary ring => Sys2Proof.Machine.execOverflowSummary ring s
  | .indexWriteBack ring => Sys2Proof.Machine.execIndexWriteBack ring s
  | .msiXMessage ring timeUp => Sys2Proof.Machine.execMsiXMessage ring timeUp s
  | .ringEnable ring en => Sys2Proof.Machine.execRingEnable ring en s
  | .ringReset ring => Sys2Proof.Machine.execRingReset ring s
  | .ringResetDone ring => Sys2Proof.Machine.execRingResetDone ring s
  | .functionLevelReset => Sys2Proof.Machine.execFunctionLevelReset s
  | .hotReset => Sys2Proof.Machine.execHotReset s
  | .pcieConventionalReset => Sys2Proof.Machine.execPcieConventionalReset s
  | .connect ring => Sys2Proof.Machine.execConnect ring s
  | .disconnect ring => Sys2Proof.Machine.execDisconnect ring s
  | .move ring => Sys2Proof.Machine.execMove ring s
  | .batchOpen ring => Sys2Proof.Machine.execBatchOpen ring s
  | .batchCommit ring => Sys2Proof.Machine.execBatchCommit ring s
  | .batchAbort ring => Sys2Proof.Machine.execBatchAbort ring s
  | .pgCreate ring list ns => Sys2Proof.Machine.execPgCreate ring list ns s
  | .pgDelete ring ns => Sys2Proof.Machine.execPgDelete ring ns s
  | .lockoutOfProtection ring ns => Sys2Proof.Machine.execLockoutOfProtection ring ns s
  | .forcedSwitch ring ns => Sys2Proof.Machine.execForcedSwitch ring ns s
  | .manualSwitch ring ns => Sys2Proof.Machine.execManualSwitch ring ns s
  | .clear ring ns => Sys2Proof.Machine.execClear ring ns s
  | .timedCommandEntry pgid ns => Sys2Proof.Machine.execTimedCommandEntry pgid ns s
  | .tribDefine ring w p slots ns => Sys2Proof.Machine.execTribDefine ring w p slots ns s
  | .tribRelease ring ns => Sys2Proof.Machine.execTribRelease ring ns s
  | .fineOpen ring => Sys2Proof.Machine.execFineOpen ring s
  | .fineClose ring => Sys2Proof.Machine.execFineClose ring s
  | .pmConfig ring => Sys2Proof.Machine.execPmConfig ring s
  | .pmDump ring => Sys2Proof.Machine.execPmDump ring s
  | .pmAlign ring => Sys2Proof.Machine.execPmAlign ring s
  | .defectConfig ring => Sys2Proof.Machine.execDefectConfig ring s
  | .mdcRoute ring => Sys2Proof.Machine.execMdcRoute ring s
  | .planeRetire ring => Sys2Proof.Machine.execPlaneRetire ring s
  | .planeRestore ring => Sys2Proof.Machine.execPlaneRestore ring s
  | .twinRoleSwap ring => Sys2Proof.Machine.execTwinRoleSwap ring s
  | .twinResync ring => Sys2Proof.Machine.execTwinResync ring s
  | .twinResyncMode1 ring => Sys2Proof.Machine.execTwinResyncMode1 ring s
  | .fwStage ring img => Sys2Proof.Machine.execFwStage ring img s
  | .fwStageActivate ring img => Sys2Proof.Machine.execFwStageActivate ring img s
  | .fwActivate ring => Sys2Proof.Machine.execFwActivate ring s
  | .nop ring => Sys2Proof.Machine.execNop ring s
  | .batchTimeout => Sys2Proof.Machine.execBatchTimeout s
  | .rollbackDone => Sys2Proof.Machine.execRollbackDone s
  | .tilthResume => Sys2Proof.Machine.execTilthResume s
  | .commitAckDeadline => Sys2Proof.Machine.execCommitAckDeadline s
  | .holdOffExpiry pgid sig ns => Sys2Proof.Machine.execHoldOffExpiry pgid sig ns s
  | .wtrExpiry pgid ns => Sys2Proof.Machine.execWtrExpiry pgid ns s
  | .pscMessage lane msg ns => Sys2Proof.Machine.execPscMessage lane msg ns s
  | .dpscLoss pgid ns => Sys2Proof.Machine.execDpscLoss pgid ns s
  | .dpscFop pgid => Sys2Proof.Machine.execDpscFop pgid s
  | .bridgeHoldExpiry pgid => Sys2Proof.Machine.execBridgeHoldExpiry pgid s
  | .ptbTrigger cyc w0 w1 ms ns => Sys2Proof.Machine.execPtbTrigger cyc w0 w1 ms ns s
  | .ptbStale k ns => Sys2Proof.Machine.execPtbStale k ns s
  | .ptbTblWrite k val ns => Sys2Proof.Machine.execPtbTblWrite k val ns s
  | .txEn lane en => Sys2Proof.Machine.execTxEn lane en s
  | .rxEn lane en ns => Sys2Proof.Machine.execRxEn lane en ns s
  | .staggerGrant recent => Sys2Proof.Machine.execStaggerGrant recent s
  | .quadPllLock q => Sys2Proof.Machine.execQuadPllLock q s
  | .rampComplete lane => Sys2Proof.Machine.execRampComplete lane s
  | .txShort lane => Sys2Proof.Machine.execTxShort lane s
  | .retryWaitExpiry lane => Sys2Proof.Machine.execRetryWaitExpiry lane s
  | .retryCntReset lane => Sys2Proof.Machine.execRetryCntReset lane s
  | .quadPllUnlock q ns => Sys2Proof.Machine.execQuadPllUnlock q ns s
  | .quadPllRelock q => Sys2Proof.Machine.execQuadPllRelock q s
  | .sigDetFall lane ns => Sys2Proof.Machine.execSigDetFall lane ns s
  | .sigDetRise lane ns => Sys2Proof.Machine.execSigDetRise lane ns s
  | .cdrLockLoss lane ns => Sys2Proof.Machine.execCdrLockLoss lane ns s
  | .cdrLockGain lane ns => Sys2Proof.Machine.execCdrLockGain lane ns s
  | .adaptationComplete lane snr ctle dfe ffe ns => Sys2Proof.Machine.execAdaptationComplete lane snr ctle dfe ffe ns s
  | .laneAdaptSlow lane => Sys2Proof.Machine.execLaneAdaptSlow lane s
  | .rxReacquire lane ns => Sys2Proof.Machine.execRxReacquire lane ns s
  | .prbsSync l => Sys2Proof.Machine.execPrbsSync l s
  | .prbsSyncLoss l => Sys2Proof.Machine.execPrbsSyncLoss l s
  | .lnePrbsErrRead lane dbg => Sys2Proof.Machine.execLnePrbsErrRead lane dbg s
  | .lbSlip l => Sys2Proof.Machine.execLbSlip l s
  | .lneTxFirWrite lane val => Sys2Proof.Machine.execLneTxFirWrite lane val s
  | .lneRxEqWrite lane reg val => Sys2Proof.Machine.execLneRxEqWrite lane reg val s
  | .rawMatch lane off r => Sys2Proof.Machine.execRawMatch lane off r s
  | .candidateCheck lane off r sn ns => Sys2Proof.Machine.execCandidateCheck lane off r sn ns s
  | .receivedSweep lane r ns => Sys2Proof.Machine.execReceivedSweep lane r ns s
  | .degIntervalEnd lane ns => Sys2Proof.Machine.execDegIntervalEnd lane ns s
  | .tribPeriodEnd tid copy jw skew ns => Sys2Proof.Machine.execTribPeriodEnd tid copy jw skew ns s
  | .fineMfLock tid copy pos => Sys2Proof.Machine.execFineMfLock tid copy pos s
  | .fineMfLoss tid copy => Sys2Proof.Machine.execFineMfLoss tid copy s
  | .clientMapOvf tid => Sys2Proof.Machine.execClientMapOvf tid s
  | .clientDefectChange lane code on ns => Sys2Proof.Machine.execClientDefectChange lane code on ns s
  | .fmHeader tid pos h0 h1 payload => Sys2Proof.Machine.execFmHeader tid pos h0 h1 payload s
  | .flexeOverheadFrame grp o => Sys2Proof.Machine.execFlexeOverheadFrame grp o s
  | .calendarSwitch grp => Sys2Proof.Machine.execCalendarSwitch grp s
  | .calendarSwitchTimeout grp => Sys2Proof.Machine.execCalendarSwitchTimeout grp s
  | .cpriSlip tid discard => Sys2Proof.Machine.execCpriSlip tid discard s
  | .bufSlip tid => Sys2Proof.Machine.execBufSlip tid s
  | .rjSlip tid => Sys2Proof.Machine.execRjSlip tid s
  | .rjWindowEnd lane count => Sys2Proof.Machine.execRjWindowEnd lane count s
  | .loessAligned tid copy client arr => Sys2Proof.Machine.execLoessAligned tid copy client arr s
  | .loessPairAligned pgid offsets diff => Sys2Proof.Machine.execLoessPairAligned pgid offsets diff s
  | .loessPairLost pgid content => Sys2Proof.Machine.execLoessPairLost pgid content s
  | .blockReturn owner => Sys2Proof.Machine.execBlockReturn owner s
  | .heartbeatLoss => Sys2Proof.Machine.execHeartbeatLoss s
  | .yield => Sys2Proof.Machine.execYield s
  | .twnCfgEn en => Sys2Proof.Machine.execTwnCfgEn en s
  | .startUpClaim quietMs alive => Sys2Proof.Machine.execStartUpClaim quietMs alive s
  | .twinLinkUp delay => Sys2Proof.Machine.execTwinLinkUp delay s
  | .twinLinkDown cause inframe => Sys2Proof.Machine.execTwinLinkDown cause inframe s
  | .pair p => Sys2Proof.Machine.execPair p s
  | .pairAuth resp mateActive mateSn => Sys2Proof.Machine.execPairAuth resp mateActive mateSn s
  | .pairingRetry => Sys2Proof.Machine.execPairingRetry s
  | .sweep sn delay offset => Sys2Proof.Machine.execSweep sn delay offset s
  | .sig sn valid sigs => Sys2Proof.Machine.execSig sn valid sigs s
  | .entry seq w => Sys2Proof.Machine.execEntry seq w s
  | .commit seq target => Sys2Proof.Machine.execCommit seq target s
  | .ack commitSeq configSeq => Sys2Proof.Machine.execAck commitSeq configSeq s
  | .decision d => Sys2Proof.Machine.execDecision d s
  | .pscSel lane a b => Sys2Proof.Machine.execPscSel lane a b s
  | .config seq raw lists => Sys2Proof.Machine.execConfig seq raw lists s
  | .state c => Sys2Proof.Machine.execState c s
  | .divergenceNotice => Sys2Proof.Machine.execDivergenceNotice s
  | .resyncStart => Sys2Proof.Machine.execResyncStart s
  | .resyncEnd => Sys2Proof.Machine.execResyncEnd s
  | .couplingNotice => Sys2Proof.Machine.execCouplingNotice s
  | .configAckTimeout => Sys2Proof.Machine.execConfigAckTimeout s
  | .mateDeath failPin ns => Sys2Proof.Machine.execMateDeath failPin ns s
  | .promotion => Sys2Proof.Machine.execPromotion s
  | .holdTmoExpiry => Sys2Proof.Machine.execHoldTmoExpiry s
  | .roleSwapTick => Sys2Proof.Machine.execRoleSwapTick s
  | .roleSwapLatchClear => Sys2Proof.Machine.execRoleSwapLatchClear s
  | .lockstepEntry => Sys2Proof.Machine.execLockstepEntry s
  | .resyncTimeout => Sys2Proof.Machine.execResyncTimeout s
  | .autoResyncRetry => Sys2Proof.Machine.execAutoResyncRetry s
  | .translationCompletion c => Sys2Proof.Machine.execTranslationCompletion c s
  | .prgResponse page code => Sys2Proof.Machine.execPrgResponse page code s
  | .priTimeout page => Sys2Proof.Machine.execPriTimeout page s
  | .priEnable on => Sys2Proof.Machine.execPriEnable on s
  | .invalidateRequest addr size => Sys2Proof.Machine.execInvalidateRequest addr size s
  | .invalidateCompletion => Sys2Proof.Machine.execInvalidateCompletion s
  | .readRetry ring => Sys2Proof.Machine.execReadRetry ring s
  | .arbWindow => Sys2Proof.Machine.execArbWindow s
  | .arbGrant g => Sys2Proof.Machine.execArbGrant g s
  | .backoffExpiry r => Sys2Proof.Machine.execBackoffExpiry r s
  | .dlDown => Sys2Proof.Machine.execDlDown s
  | .linkUp => Sys2Proof.Machine.execLinkUp s
  | .busMasterEnable on => Sys2Proof.Machine.execBusMasterEnable on s
  | .modeRecoveryEnd => Sys2Proof.Machine.execModeRecoveryEnd s
  | .freeze on => Sys2Proof.Machine.execFreeze on s
  | .drained => Sys2Proof.Machine.execDrained s
  | .memoryCleared => Sys2Proof.Machine.execMemoryCleared s
  | .imageVerified src img => Sys2Proof.Machine.execImageVerified src img s
  | .ctlBootGo => Sys2Proof.Machine.execCtlBootGo s
  | .fwReady => Sys2Proof.Machine.execFwReady s
  | .fwReadyTimeout => Sys2Proof.Machine.execFwReadyTimeout s
  | .coreWdt c => Sys2Proof.Machine.execCoreWdt c s
  | .wdtKick c => Sys2Proof.Machine.execWdtKick c s
  | .debugHalt c on => Sys2Proof.Machine.execDebugHalt c on s
  | .bar2Read off bytes pc ecc => Sys2Proof.Machine.execBar2Read off bytes pc ecc s
  | .bar2Write off data b => Sys2Proof.Machine.execBar2Write off data b s
  | .fetchadd off val b => Sys2Proof.Machine.execFetchadd off val b s
  | .swap off val b => Sys2Proof.Machine.execSwap off val b s
  | .xoOk counts => Sys2Proof.Machine.execXoOk counts s
  | .xoFail => Sys2Proof.Machine.execXoFail s
  | .apllLock a => Sys2Proof.Machine.execApllLock a s
  | .xoLoss => Sys2Proof.Machine.execXoLoss s
  | .candidateWindow slot ofs => Sys2Proof.Machine.execCandidateWindow slot ofs s
  | .candidateWtr slot => Sys2Proof.Machine.execCandidateWtr slot s
  | .referenceSelection => Sys2Proof.Machine.execReferenceSelection s
  | .dpllLock => Sys2Proof.Machine.execDpllLock s
  | .holdoverHistoryValid => Sys2Proof.Machine.execHoldoverHistoryValid s
  | .timHoExpired => Sys2Proof.Machine.execTimHoExpired s
  | .timPstepGo => Sys2Proof.Machine.execTimPstepGo s
  | .phaseStep => Sys2Proof.Machine.execPhaseStep s
  | .ppsIn ns => Sys2Proof.Machine.execPpsIn ns s
  | .ppsOut => Sys2Proof.Machine.execPpsOut s
  | .clockStop m => Sys2Proof.Machine.execClockStop m s
  | .offFreq m count => Sys2Proof.Machine.execOffFreq m count s
  | .rescueRelease sys per sysRun perRun => Sys2Proof.Machine.execRescueRelease sys per sysRun perRun s
  | .clkSelWrite sys per => Sys2Proof.Machine.execClkSelWrite sys per s
  | .muxSwitchComplete per => Sys2Proof.Machine.execMuxSwitchComplete per s
  | .frequencyCountStart => Sys2Proof.Machine.execFrequencyCountStart s
  | .frequencyCountDone count tmo => Sys2Proof.Machine.execFrequencyCountDone count tmo s
  | .pmSecond => Sys2Proof.Machine.execPmSecond s
  | .pmSecLost n => Sys2Proof.Machine.execPmSecLost n s
  | .legacyPageUpdate => Sys2Proof.Machine.execLegacyPageUpdate s
  | .pmAligned => Sys2Proof.Machine.execPmAligned s
  | .pmSnapshot => Sys2Proof.Machine.execPmSnapshot s
  | .pmRecordWrite pmd => Sys2Proof.Machine.execPmRecordWrite pmd s
  | .omissionRecord pmd => Sys2Proof.Machine.execOmissionRecord pmd s
  | .mspBurst port rxd => Sys2Proof.Machine.execMspBurst port rxd s
  | .mcxRecordClose chan timeUp => Sys2Proof.Machine.execMcxRecordClose chan timeUp s
  | .mctFetch raw => Sys2Proof.Machine.execMctFetch raw s
  | .perfSnap => Sys2Proof.Machine.execPerfSnap s
  | .perfClear => Sys2Proof.Machine.execPerfClear s
  | .pmnPerfSelWrite n val => Sys2Proof.Machine.execPmnPerfSelWrite n val s
  | .grainTag => Sys2Proof.Machine.execGrainTag s
  | .sessionOpen => Sys2Proof.Machine.execSessionOpen s
  | .challenge => Sys2Proof.Machine.execChallenge s
  | .sessionResp => Sys2Proof.Machine.execSessionResp s
  | .responseTimeout => Sys2Proof.Machine.execResponseTimeout s
  | .sessionClose slot => Sys2Proof.Machine.execSessionClose slot s
  | .lockoutExpiry cls => Sys2Proof.Machine.execLockoutExpiry cls s
  | .deviceId => Sys2Proof.Machine.execDeviceId s
  | .status => Sys2Proof.Machine.execStatus s
  | .sessOpen pec pwd => Sys2Proof.Machine.execSessOpen pec pwd s
  | .sessClose pec => Sys2Proof.Machine.execSessClose pec s
  | .read pec addr count => Sys2Proof.Machine.execRead pec addr count s
  | .write pec addr val ns => Sys2Proof.Machine.execWrite pec addr val ns s
  | .smbusSessionTimeout => Sys2Proof.Machine.execSmbusSessionTimeout s
  | .secFuseGo => Sys2Proof.Machine.execSecFuseGo s
  | .secFuseDone => Sys2Proof.Machine.execSecFuseDone s
  | .secSvnRaised => Sys2Proof.Machine.execSecSvnRaised s
  | .jtagChallenge resp => Sys2Proof.Machine.execJtagChallenge resp s
  | .vaoApplied => Sys2Proof.Machine.execVaoApplied s
  | .powerOnResetEnd => Sys2Proof.Machine.execPowerOnResetEnd s
  | .pgInRise r => Sys2Proof.Machine.execPgInRise r s
  | .railDlyExpiry => Sys2Proof.Machine.execRailDlyExpiry s
  | .pgTmoExpiry => Sys2Proof.Machine.execPgTmoExpiry s
  | .pgInLow r => Sys2Proof.Machine.execPgInLow r s
  | .railFault r soon => Sys2Proof.Machine.execRailFault r soon s
  | .stbyReq ns => Sys2Proof.Machine.execStbyReq ns s
  | .lpPropose t => Sys2Proof.Machine.execLpPropose t s
  | .lpAgree agree => Sys2Proof.Machine.execLpAgree agree s
  | .lpReplyTimeout => Sys2Proof.Machine.execLpReplyTimeout s
  | .entryTick => Sys2Proof.Machine.execEntryTick s
  | .entryCoreReset => Sys2Proof.Machine.execEntryCoreReset s
  | .standbyReached => Sys2Proof.Machine.execStandbyReached s
  | .offMinExpiry => Sys2Proof.Machine.execOffMinExpiry s
  | .wakeN => Sys2Proof.Machine.execWakeN s
  | .smbusWake => Sys2Proof.Machine.execSmbusWake s
  | .twAliveWake => Sys2Proof.Machine.execTwAliveWake s
  | .wakeTimer => Sys2Proof.Machine.execWakeTimer s
  | .autoRestart => Sys2Proof.Machine.execAutoRestart s
  | .avsLoop procs => Sys2Proof.Machine.execAvsLoop procs s
  | .avsStepDone => Sys2Proof.Machine.execAvsStepDone s
  | .pmbusTelemetry rails => Sys2Proof.Machine.execPmbusTelemetry rails s
  | .sensorRead temps volts procs => Sys2Proof.Machine.execSensorRead temps volts procs s
  | .thermNExternal => Sys2Proof.Machine.execThermNExternal s
  | .thermDlyExpiry ns => Sys2Proof.Machine.execThermDlyExpiry ns s
  | .thermHoldExpiry => Sys2Proof.Machine.execThermHoldExpiry s
  | .glbSetupLock => Sys2Proof.Machine.execGlbSetupLock s
  | .registerWrite m addr data ns => Sys2Proof.Machine.execRegisterWrite m addr data ns s
  | .registerRead m addr dws => Sys2Proof.Machine.execRegisterRead m addr dws s
  | .completionTimeout ring e => Sys2Proof.Machine.execCompletionTimeout ring e s
  | .noActivity slot edge => Sys2Proof.Machine.execNoActivity slot edge s
  | .vaoLoss => Sys2Proof.Machine.execVaoLoss s
  | .atsEnable on => Sys2Proof.Machine.execAtsEnable on s
  | .responseFailureCleared => Sys2Proof.Machine.execResponseFailureCleared s
  | .smbClkLowTimeout => Sys2Proof.Machine.execSmbClkLowTimeout s
  | .smbusLockoutExpiry => Sys2Proof.Machine.execSmbusLockoutExpiry s
  | .flashSearch => Sys2Proof.Machine.execFlashSearch s

end Sys2Proof.Machine
end

