-- ==== Sys2Proof/Safety.lean ====
section
/-! DEFINITION. What counts as a safe step, and the frames: the terms in which the statements say what a command
changes and what it leaves as it was. -/

namespace Sys2Proof.Machine

/-- The scratchpad is in canonical form: addresses strictly rising, no byte listed that equals what an unlisted
address reads as, and no address outside the window. -/
def Memory.wf (m : List Host.Cell) : Bool := twf (0#8) m && m.all fun e => decide (e.1 < 2 ^ 22)

/-- The step goes on from `s`. -/
def State.Runs (s : State) : Prop := ∃ t, step s = .next t

/-- The parts of the device. -/
inductive Part where
  | out | free | regs | sw | tilth | prot | lanes | frm | deg | stagger | tti | mdcaK | cli | hif | dma | ctl | tim | pm
  | chans | sec | twin | pwr
deriving DecidableEq, Repr

/-- A part is the same in two devices. -/
def Part.same (p : Part) (a b : Dev) : Prop :=
  match p with
  | .out => b.out = a.out
  | .free => b.free = a.free
  | .regs => b.regs = a.regs
  | .sw => b.sw = a.sw
  | .tilth => b.tilth = a.tilth
  | .prot => b.prot = a.prot
  | .lanes => b.lanes = a.lanes
  | .frm => b.frm = a.frm
  | .deg => b.deg = a.deg
  | .stagger => b.stagger = a.stagger
  | .tti => b.tti = a.tti
  | .mdcaK => b.mdcaK = a.mdcaK
  | .cli => b.cli = a.cli
  | .hif => b.hif = a.hif
  | .dma => b.dma = a.dma
  | .ctl => b.ctl = a.ctl
  | .tim => b.tim = a.tim
  | .pm => b.pm = a.pm
  | .chans => b.chans = a.chans
  | .sec => b.sec = a.sec
  | .twin => b.twin = a.twin
  | .pwr => b.pwr = a.pwr

/-- `b` differs from `a` in the parts `ps` only. -/
def Only (ps : List Part) (a b : Dev) : Prop := ∀ p : Part, p ∉ ps → p.same a b

/-- The registers of `b` are those of `a` but for the words at the addresses `as`. -/
def OnlyRegs (as : List Nat) (a b : Dev) : Prop := ∀ x, x ∉ as → rdWord b x = rdWord a x

/-- `t` is `s` with another device: queue, device SN, first tick, set-up lock and scratchpad stay. -/
def DevOnly (s t : State) : Prop :=
  t.pending = s.pending ∧ t.sn = s.sn ∧ t.ticked = s.ticked ∧ t.lock = s.lock ∧ t.sp = s.sp

/-- The events raised on the way from `a` to `b`, in order; a standby marks its own (Table 13-12). -/
def Raised (a b : Dev) (es : List Ev) : Prop :=
  b.hif.evq = a.hif.evq ++ es.map fun e => { e with sb := a.twin.role == .standby }

/-- What left the device on the way from `a` to `b`, in order. -/
def Sent (a b : Dev) (os : List Out) : Prop := b.out = a.out ++ os

/-- The records handed to the twin link on the way from `a` to `b`, TYPE and fields, in order (R300). -/
def SentRec (a b : Dev) (rs : List (Nat × List Nat)) : Prop :=
  Sent a b (rs.map fun r => .twin r.1 r.2) ∧ b.twin.txq = a.twin.txq ++ rs.map fun r => (twinGroup r.1, r.1, r.2)

/-- `a` with the record queues of `b`. -/
def queuesOf (a b : Twin) : Twin := { a with txq := b.txq, inbox := b.inbox }

/-- Descriptor `uid` of ring `r` is served on the way from `a` to `b`, with the fields of its completion; no other
descriptor of any ring changes. -/
def Served (a b : Dev) (r uid st det : Nat) (sn : SN) (res : BitVec 64) : Prop :=
  (∃ n, (ringOf b r).q = (ringOf a r).q.map fun e => if e.uid = uid then { e with ph := .done st det sn res n } else e) ∧
  ∀ x, x ≠ r → (ringOf b x).q = (ringOf a x).q

/-- Descriptor `uid` of ring `r` is taken up, and completes later. -/
def Taken (a b : Dev) (r uid : Nat) : Prop :=
  ((ringOf b r).q = (ringOf a r).q.map fun e => if e.uid = uid then { e with ph := .taken } else e) ∧
  ∀ x, x ≠ r → (ringOf b x).q = (ringOf a x).q

/-- The commands that can reset the device: everything outside the always-on island loses its state (R479, R480). -/
def resetsDevice : Instr → Bool
  | .powerOnResetEnd | .railFault _ _ | .entryCoreReset | .standbyReached | .offMinExpiry | .wakeN | .smbusWake
  | .twAliveWake | .wakeTimer | .autoRestart | .vaoLoss => true
  | _ => false

/-- A saturating count. -/
def satAdd (w x n : Nat) : Nat := min (x + n) (2 ^ w - 1)

/-- A command takes `s` to a state that differs from it in the device's parts `ps` only. -/
def Acts (ps : List Part) (c : Instr) (s : State) (f : State → Prop) : Prop :=
  ∃ t, exec c s = .next t ∧ DevOnly s t ∧ Only ps s.dev t.dev ∧ f t

/-- The same, with the registers at the addresses `as` and the device's parts `ps` for all that may change. -/
def ActsR (as : List Nat) (ps : List Part) (c : Instr) (s : State) (f : State → Prop) : Prop :=
  Acts (.regs :: ps) c s fun t => OnlyRegs as s.dev t.dev ∧ f t

/-- GLB_TILTH_STATUS and GLB_TILTH_TARGET. -/
def tilthRegs : List Nat := [F.GLB_TILTH_STATUS_STATE.addr 0, F.GLB_TILTH_TARGET_SN.addr 0]

/-- HIF_RING_CFG, HIF_RING_STATUS and the indices of a ring. -/
def ringRegs (r : Nat) : List Nat :=
  [F.HIF_RING_CFG_EN.addr r, F.HIF_RING_STATUS_STATE.addr r, F.HIF_RING_PIDX.addr r, F.HIF_RING_CIDX.addr r]

/-- CTL_CORE_STATUS, CTL_BOOT, DBG_CTL, DBG_STATUS and GLB_START_STATUS. -/
def ctlRegs : List Nat :=
  [F.CTL_CORE_STATUS_C0_STATE.addr 0, F.CTL_BOOT_STAGE.addr 0, F.DBG_CTL_HALT0.addr 0, F.DBG_STATUS_HALTED.addr 0,
   F.GLB_START_STATUS_FUSE_DONE.addr 0]

/-- What an evaluation of defects, conditions, candidates and groups writes (R120, R136, R252, R406): FRM_RX_STATUS and
FRM_PSC_QUEUE of lanes, TIM_CAND_STATUS of slots; and the parts it touches. -/
def evalRegs : List Nat :=
  (List.range 128).map (fun m => F.FRM_RX_STATUS_DEF.addr m) ++ (List.range 128).map (fun m => F.FRM_PSC_QUEUE_MAX.addr m) ++
    (List.range 8).map fun i => F.TIM_CAND_STATUS_QUAL.addr i
def evalParts : List Part := [.lanes, .frm, .deg, .hif, .prot, .cli, .pm, .tim, .out, .twin]

/-- What a failing ring writes beside its own index and queue (R351, R363): the state and fault address of it and its
pair, HIF_PRI_FAIL, the pending bit of the error vector, and Tilth's status when its batch aborts. -/
def failRegs (d : Dev) (rs : List Nat) : List Nat :=
  (rs.flatMap pairRings).flatMap (fun q =>
    [F.HIF_RING_STATUS_STATE.addr q, F.HIF_RING_FAULT_LO.addr q, F.HIF_RING_FAULT_HI.addr q]) ++
  [F.HIF_PRI_FAIL.addr 0, F.MSIX_PBA.addr (rd d F.HIF_CFG_ERR_VEC / 32)] ++ tilthRegs
def failParts : List Part := [.dma, .hif, .tilth, .sw, .out, .pm, .twin]

/-- Ring `r` has failed on the way from `a` to `b` (R351, R363, Table 14-2): it and its pair are FAULTED with the address
of the access, and RING_FAULTED carries it and the code. -/
def RingFailed (a b : Dev) (sn : SN) (r addr code : Nat) : Prop :=
  (∀ q ∈ pairRings r, rState b q = 3 ∧ rd b F.HIF_RING_FAULT_LO q = addr % 2 ^ 32 ∧
    rd b F.HIF_RING_FAULT_HI q = addr / 2 ^ 32 % 2 ^ 32) ∧
  { typ := 0xC0, sn := sn, sb := a.twin.role == .standby, p0 := r, p1 := addr % 2 ^ 32, p2 := addr / 2 ^ 32 % 2 ^ 32,
    p3 := code : Ev } ∈ b.hif.evq

/-- The path of a use in a page: ingress entry, then center entry, on slot `c` (R187, R188). -/
def pathAt (pg : CmPage) (c w u : Nat) : Prop :=
  ingAt pg (portOf w) c = ingMk (grainOf w) ∧ (cenAt pg c (portOf u)).toNat = portOf w

end Sys2Proof.Machine
end

