-- ==== Sys2Proof/Certificates/Slice0/Obligations.lean ====
section
/-! DEFINITION. The statements: what the commands do, what they leave as it was, and what every step keeps. -/

open Sys2Proof Sys2Proof.Machine

/-! ### The block -/

/-- A step takes the command at the front of the queue and runs it with the queue's rest. -/
def Obligations.StepRunsFrontCommand : Prop :=
  ∀ (c : Instr) (rest : List Instr) (s : State),
    step { s with pending := c :: rest } = exec c { s with pending := rest }

/-- No command touches the queue behind it: a step removes the front command and nothing else. With no command waiting the
block idles (the model's choice, log entry 2). -/
def Obligations.StepConsumesOrIdles : Prop :=
  (∀ (c : Instr) (rest : List Instr) (s t : State),
     step { s with pending := c :: rest } = .next t → t.pending = rest) ∧
  (∀ s : State, s.pending = [] → step s = .next s)

/-- The one fault is the access outside BAR2's window, and no command is refused: every command of the table has its meaning
in every state. Where the manual leaves a reading open, the clauses take the model's, log entry 73. -/
def Obligations.OnlyWindowFaults : Prop :=
  ∀ (c : Instr) (s : State),
    (∃ t, exec c s = .next t) ∨
    (exec c s = .fault .outsideWindow ∧
      ((∃ off n pc ecc, c = .bar2Read off n pc ecc ∧ 2 ^ 22 < off.toNat + n) ∨
       (∃ off data b, c = .bar2Write off data b ∧ 2 ^ 22 < off.toNat + data.length)))

/-! ### Lane ports (chapter 4) -/

/-- R88, R95 to R100: a transmitter's life. Enabling a lane of a good personality posts the quad's power request if it is
unpowered and waits, or ramps at once on a running quad; a bad personality sets CFG_ERR and nothing starts; disabling
switches the driver off and powers the quad down with its last direction; a grant powers the quad, its PLL's lock starts
every waiting direction, the ramp's end switches on; a short starts the retry wait, the fourth one locks the lane out; the
wait's end ramps again; a PLL that unlocks squelches and one that relocks resumes. R97, R98: quad PLLs. Lock starts every
direction of the quad that waits; the unlock of a running quad counts, raises QUAD_PLL_UNLOCK, squelches its transmitters
and takes CDR lock from its receivers; the relock resumes each transmitter where it was, starts a retry ramp that fell due
and every direction that waits; the twin-link quad has no lanes. Where the manual leaves a reading open, the clauses take
the model's, log entry 135. -/
def Obligations.TransmittersAndPllsStart : Prop :=
  (∀ (s : State) (n : Fin 128), s.dev.pwr.core = true →
     let q := n.val / 4
     let st := F.LNE_STATUS_TX_STATE.addr n
     let ctl := F.LNE_CTL_TX_EN.addr n
     let qs := F.LNE_QUAD_STATUS_PWR.addr q
     let tx := rd s.dev F.LNE_STATUS_TX_STATE n
     let c := rd s.dev F.LNE_STATUS_RETRY_CNT n
     (rd s.dev F.LNE_CTL_TX_EN n = 0 → (isClient (persOf s.dev n) = true → modeGood s.dev n = true) →
       (persBad s.dev n = false → ActsR [ctl, st, qs] [.stagger] (.txEn n true) s fun t =>
         rd t.dev F.LNE_CTL_TX_EN n = 1 ∧ rd t.dev F.LNE_CTL_RX_EN n = rd s.dev F.LNE_CTL_RX_EN n ∧ rd t.dev F.LNE_STATUS_RETRY_CNT n = 0 ∧
         (rd s.dev F.LNE_QUAD_STATUS_PWR q = 0 → rd t.dev F.LNE_QUAD_STATUS_PWR q = 1 ∧ t.dev.stagger = s.dev.stagger ++ [q] ∧
           rd t.dev F.LNE_STATUS_TX_STATE n = 1) ∧
         (rd s.dev F.LNE_QUAD_STATUS_PWR q ≠ 0 → rdWord t.dev qs = rdWord s.dev qs ∧ t.dev.stagger = s.dev.stagger ∧
           rd t.dev F.LNE_STATUS_TX_STATE n = if quadUp s.dev q = true then 2 else 1)) ∧
       (persBad s.dev n = true → ActsR [ctl, st] [] (.txEn n true) s fun t =>
         rd t.dev F.LNE_CTL_TX_EN n = 1 ∧ rd t.dev F.LNE_STATUS_CFG_ERR n = 1 ∧ rd t.dev F.LNE_STATUS_TX_STATE n = tx)) ∧
     (let last : Prop := (∀ j : Fin 4, rd s.dev F.LNE_CTL_RX_EN (4 * q + j.val) = 0 ∧ (4 * q + j.val ≠ n.val → rd s.dev F.LNE_CTL_TX_EN (4 * q + j.val) = 0));
       ActsR [ctl, st, qs] [.stagger, .lanes] (.txEn n false) s fun t =>
         rd t.dev F.LNE_CTL_TX_EN n = 0 ∧ rd t.dev F.LNE_STATUS_TX_STATE n = 0 ∧
         (last → rd t.dev F.LNE_QUAD_STATUS_PWR q = 0 ∧ rd t.dev F.LNE_QUAD_STATUS_PLL_LOCK q = 0 ∧
           t.dev.stagger = s.dev.stagger.filter (· != q)) ∧
         (¬ last → rdWord t.dev qs = rdWord s.dev qs ∧ t.dev.stagger = s.dev.stagger)) ∧
     (∀ (recent : Nat) (p : Nat) (r : List Nat), s.dev.stagger = p :: r →
       (recent < max 1 (min 8 (rd s.dev F.PWR_STAGGER_K)) → ActsR [F.LNE_QUAD_STATUS_PWR.addr p] [.stagger, .twin] (.staggerGrant recent) s fun t =>
         t.dev.stagger = r ∧ (p < 32 → rd t.dev F.LNE_QUAD_STATUS_PWR p = 2 ∧ t.dev.twin = s.dev.twin) ∧
         (32 ≤ p → t.dev.regs = s.dev.regs ∧ t.dev.twin = { s.dev.twin with on := true })) ∧
       (max 1 (min 8 (rd s.dev F.PWR_STAGGER_K)) ≤ recent → exec (.staggerGrant recent) s = .next s)) ∧
     (tx = 2 → ActsR [st] [] (.rampComplete n) s fun t => rd t.dev F.LNE_STATUS_TX_STATE n = 3) ∧
     (tx = 2 ∨ tx = 3 →
       (c < 3 → ActsR [st] [.hif] (.txShort n) s fun t => rd t.dev F.LNE_STATUS_TX_STATE n = 4 ∧ rd t.dev F.LNE_STATUS_RETRY_CNT n = c ∧
         Raised s.dev t.dev [{ typ := 3, sn := s.sn, p0 := n.val, p1 := c + 1 }]) ∧
       (c = 3 → ActsR [st] [.hif] (.txShort n) s fun t => rd t.dev F.LNE_STATUS_TX_STATE n = 5 ∧
         Raised s.dev t.dev [{ typ := 3, sn := s.sn, p0 := n.val, p1 := 4 }, { typ := 4, sn := s.sn, p0 := n.val }])) ∧
     (tx = 4 → c < 3 →
       (quadUp s.dev q = true → ActsR [st] [.lanes] (.retryWaitExpiry n) s fun t =>
         rd t.dev F.LNE_STATUS_TX_STATE n = 2 ∧ rd t.dev F.LNE_STATUS_RETRY_CNT n = c + 1) ∧
       (quadUp s.dev q = false → Acts [.lanes] (.retryWaitExpiry n) s fun t => (laneOf t.dev n).retryDue = true)) ∧
     (tx = 3 → ActsR [st] [] (.retryCntReset n) s fun t => rd t.dev F.LNE_STATUS_RETRY_CNT n = 0 ∧ rd t.dev F.LNE_STATUS_TX_STATE n = 3)) ∧
  (∀ (s : State) (q : Fin 32), s.dev.pwr.core = true →
     let qs := F.LNE_QUAD_STATUS_PWR.addr q
     let sts := (List.range 4).map fun j => F.LNE_STATUS_TX_STATE.addr (4 * q.val + j)
     let tx (d : Dev) (j : Fin 4) := rd d F.LNE_STATUS_TX_STATE (4 * q.val + j.val)
     let rx (d : Dev) (j : Fin 4) := rd d F.LNE_STATUS_RX_STATE (4 * q.val + j.val)
     exec (.quadPllLock 32) s = .next s ∧
     (rd s.dev F.LNE_QUAD_STATUS_PWR q = 2 → ActsR (qs :: sts) [.lanes] (.quadPllLock ⟨q.val, by omega⟩) s fun t =>
       rd t.dev F.LNE_QUAD_STATUS_PWR q = 3 ∧ rd t.dev F.LNE_QUAD_STATUS_PLL_LOCK q = 1 ∧
       ∀ j : Fin 4, tx t.dev j = (if tx s.dev j = 1 then 2 else tx s.dev j) ∧ rx t.dev j = (if rx s.dev j = 1 then 2 else rx s.dev j)) ∧
     (∀ ns, quadUp s.dev q = true → ActsR (qs :: sts ++ evalRegs) evalParts (.quadPllUnlock q ns) s fun t =>
       rd t.dev F.LNE_QUAD_STATUS_PLL_LOCK q = 0 ∧ rd t.dev F.LNE_QUAD_STATUS_PWR q = 3 ∧
       rd t.dev F.LNE_QUAD_STATUS_UNLOCK_CNT q = satAdd 8 (rd s.dev F.LNE_QUAD_STATUS_UNLOCK_CNT q) 1 ∧
       (∃ es, Raised s.dev t.dev ({ typ := 2, sn := s.sn, p0 := q.val } :: es)) ∧
       ∀ j : Fin 4, tx t.dev j = (if tx s.dev j = 2 ∨ tx s.dev j = 3 then 6 else tx s.dev j) ∧
         rd t.dev F.LNE_STATUS_CDR_LOCK (4 * q.val + j.val) = 0) ∧
     (rd s.dev F.LNE_QUAD_STATUS_PWR q = 3 → rd s.dev F.LNE_QUAD_STATUS_PLL_LOCK q = 0 →
       ActsR (qs :: sts) [.lanes] (.quadPllRelock q) s fun t =>
         rd t.dev F.LNE_QUAD_STATUS_PLL_LOCK q = 1 ∧
         ∀ j : Fin 4, let x := laneOf s.dev (4 * q.val + j.val)
           (tx s.dev j = 6 → (x.sq = 2 ∨ x.sq = 3) → tx t.dev j = x.sq) ∧
           (tx s.dev j = 4 → tx t.dev j = if x.retryDue = true then 2 else 4) ∧
           (tx s.dev j = 1 → tx t.dev j = 2) ∧ (rx s.dev j = 1 → rx t.dev j = 2)))

/-- R94, R101, R109, R120: a receiver's life. Enabling it resets its status and posts the quad's request or acquires at
once; adaptation done puts it in ADAPTED with the SNR and LOS by the signal detector; a signal that falls in ADAPTED
declares LOS, one that rises ends it; CDR lock is shown; a lane that relocks after a loss acquires anew; every loss of
signal or clock puts the lane's condition at SF with dLOS or dLOL, and a GLF framer in HUNT. Nothing but the defects,
conditions, candidates and groups that follow changes. Where the manual leaves a reading open, the clauses take the model's,
log entry 172. -/
def Obligations.ReceiversFollowTheSignal : Prop :=
  ∀ (s : State) (n : Fin 128) (ns : Nat), s.dev.pwr.core = true →
    let q := n.val / 4
    let st := F.LNE_STATUS_RX_STATE.addr n
    let rx := rd s.dev F.LNE_STATUS_RX_STATE n
    let on := rd s.dev F.LNE_CTL_RX_EN n = 1 ∧ persOf s.dev n ≠ 0
    let moves (c : Instr) (more : List Nat) (mp : List Part) (f : State → Prop) : Prop :=
      ActsR (st :: more ++ evalRegs) (evalParts ++ mp) c s f
    let down (t : State) (rank : Nat) : Prop := rd t.dev F.FRM_RX_STATUS_DEF n = rank ∧ rd t.dev F.FRM_RX_STATUS_COND n = 2 ∧
      (isGlf (persOf s.dev n) = true → rd t.dev F.FRM_RX_STATUS_FSTATE n = 0 ∧ rd t.dev F.FRM_RX_STATUS_SN_LOCK n = 0)
    (rd s.dev F.LNE_CTL_RX_EN n = 0 → (isClient (persOf s.dev n) = true → modeGood s.dev n = true) → persBad s.dev n = false →
      moves (.rxEn n true ns) [F.LNE_CTL_RX_EN.addr n, F.LNE_QUAD_STATUS_PWR.addr q] [.stagger] fun t =>
        rd t.dev F.LNE_CTL_RX_EN n = 1 ∧ rd t.dev F.LNE_CTL_TX_EN n = rd s.dev F.LNE_CTL_TX_EN n ∧
        rd t.dev F.LNE_STATUS_LOS n = 1 ∧ rd t.dev F.LNE_STATUS_CDR_LOCK n = 0 ∧ rd t.dev F.LNE_STATUS_SNR n = 0 ∧ down t 1 ∧
        (rd s.dev F.LNE_QUAD_STATUS_PWR q = 0 → rd t.dev F.LNE_QUAD_STATUS_PWR q = 1 ∧ t.dev.stagger = s.dev.stagger ++ [q] ∧
          rd t.dev F.LNE_STATUS_RX_STATE n = 1) ∧
        (rd s.dev F.LNE_QUAD_STATUS_PWR q ≠ 0 → rd t.dev F.LNE_QUAD_STATUS_PWR q = rd s.dev F.LNE_QUAD_STATUS_PWR q ∧
          t.dev.stagger = s.dev.stagger ∧ rd t.dev F.LNE_STATUS_RX_STATE n = if quadUp s.dev q = true then 2 else 1)) ∧
    (moves (.rxEn n false ns) [F.LNE_CTL_RX_EN.addr n, F.LNE_QUAD_STATUS_PWR.addr q] [.stagger] fun t =>
      rd t.dev F.LNE_CTL_RX_EN n = 0 ∧ rd t.dev F.LNE_STATUS_RX_STATE n = 0 ∧ rd t.dev F.FRM_RX_STATUS_DEF n = 0 ∧
      rd t.dev F.FRM_RX_STATUS_COND n = 2) ∧
    (on → 2 ≤ rx →
      (moves (.sigDetFall n ns) [] [] fun t =>
        rd t.dev F.LNE_STATUS_SIG_DET n = 0 ∧ (rx = 3 → rd t.dev F.LNE_STATUS_LOS n = 1 ∧ down t 1) ∧
        (rx ≠ 3 → rd t.dev F.LNE_STATUS_LOS n = rd s.dev F.LNE_STATUS_LOS n) ∧ rd t.dev F.LNE_STATUS_RX_STATE n = rx) ∧
      (moves (.sigDetRise n ns) [] [] fun t =>
        rd t.dev F.LNE_STATUS_SIG_DET n = 1 ∧ (rx = 3 → rd t.dev F.LNE_STATUS_LOS n = 0 ∧
          (laneOf t.dev n).relock = (rd s.dev F.LNE_STATUS_CDR_LOCK n == 0)) ∧
        (rx ≠ 3 → rd t.dev F.LNE_STATUS_LOS n = rd s.dev F.LNE_STATUS_LOS n) ∧ rd t.dev F.LNE_STATUS_RX_STATE n = rx) ∧
      (moves (.cdrLockLoss n ns) [] [] fun t =>
        rd t.dev F.LNE_STATUS_CDR_LOCK n = 0 ∧ rd t.dev F.LNE_STATUS_RX_STATE n = rx ∧
        down t (if rd s.dev F.LNE_STATUS_LOS n = 1 then 1 else 2)) ∧
      (moves (.cdrLockGain n ns) [] [] fun t =>
        rd t.dev F.LNE_STATUS_CDR_LOCK n = 1 ∧ rd t.dev F.LNE_STATUS_RX_STATE n = rx ∧ (laneOf t.dev n).relock = false)) ∧
    (∀ (snr : BitVec 12) (ctle : BitVec 5) (dfe : BitVec 8) (ffe : List (BitVec 8)), rx = 2 →
      (rd s.dev F.LNE_CFG_ADAPT_MODE n ≠ 2 → rd s.dev F.LNE_STATUS_SIG_DET n = 1 → moves (.adaptationComplete n snr ctle dfe ffe ns) [] [] fun t =>
        rd t.dev F.LNE_STATUS_RX_STATE n = 3 ∧ rd t.dev F.LNE_STATUS_SNR n = snr.toNat ∧ rd t.dev F.LNE_STATUS_LOS n = 0 ∧
        eqView t.dev n 0 = ctle.toNat ∧ eqView t.dev n 1 = dfe.toNat ∧
        ∀ k < 32, ∀ v, ffe[k]? = some v → eqView t.dev n (2 + k) = v.toNat) ∧
      (rd s.dev F.LNE_CFG_ADAPT_MODE n = 2 → rd s.dev F.LNE_STATUS_CDR_LOCK n = 1 → moves (.adaptationComplete n snr ctle dfe ffe ns) [] [] fun t =>
        rd t.dev F.LNE_STATUS_RX_STATE n = 3 ∧ rd t.dev F.LNE_STATUS_SNR n = snr.toNat ∧ (∀ k < 34, eqView t.dev n k = eqView s.dev n k)) ∧
      (rd s.dev F.LNE_CFG_ADAPT_MODE n ≠ 2 ∧ rd s.dev F.LNE_STATUS_SIG_DET n = 0 ∨
          rd s.dev F.LNE_CFG_ADAPT_MODE n = 2 ∧ rd s.dev F.LNE_STATUS_CDR_LOCK n = 0 →
        exec (.adaptationComplete n snr ctle dfe ffe ns) s = .next s)) ∧
    (rx = 2 → rd s.dev F.LNE_CFG_ADAPT_MODE n ≠ 2 → (laneOf s.dev n).slow = false → Acts [.lanes, .hif] (.laneAdaptSlow n) s fun t =>
      (laneOf t.dev n).slow = true ∧ Raised s.dev t.dev [{ typ := 1, sn := s.sn, p0 := n.val }]) ∧
    (on → rx = 3 → rd s.dev F.LNE_CFG_ADAPT_MODE n ≠ 2 → (laneOf s.dev n).relock = true → moves (.rxReacquire n ns) [] [] fun t =>
      rd t.dev F.LNE_STATUS_RX_STATE n = 2 ∧ rd t.dev F.LNE_STATUS_LOS n = 1 ∧ rd t.dev F.LNE_STATUS_SNR n = 0 ∧ down t 1)

/-- R92, R102, R103, R106, R109: taps, equalizers and test patterns. A tap word whose magnitudes sum to 64 or less is stored
without bit 31, a larger one sets FIR_REJ and is discarded; an equalizer register is written with ADAPT_MODE 0b10 and sets
CFG_ERR otherwise; the running checker takes the bits of its receiver, shows PRBS_SYNC after 256 good bits in a row until 64
errors fall within 1024, and counts errors and compared bits in sync only; a clearing read of the error count answers it,
copies the compared bits out and clears both, while an inspection read changes no state; a slip of the far loopback drops or
repeats 64 bits and sets LB_SLIP. Where the manual leaves a reading open, the clauses take the model's, log entries 148, 173
and 176. -/
def Obligations.TapsAndTestPatterns : Prop :=
  ∀ (s : State) (n : Fin 128), s.dev.pwr.core = true →
    let st := F.LNE_STATUS_PRBS_SYNC.addr n
    (∀ v : W32,
      let tap (lo : Nat) : Nat := (v.extractLsb' lo 6).toInt.natAbs
      let sum := tap 0 + tap 6 + tap 12 + tap 18 + (v.extractLsb' 24 7).toNat
      (sum ≤ 64 → ActsR [F.LNE_TX_FIR_PRE3.addr n] [] (.lneTxFirWrite n v) s fun t =>
        rdWord t.dev (F.LNE_TX_FIR_PRE3.addr n) = v &&& 0x7FFFFFFF) ∧
      (64 < sum → ActsR [st] [] (.lneTxFirWrite n v) s fun t => rd t.dev F.LNE_STATUS_FIR_REJ n = 1)) ∧
    (∀ (reg : Fin 34) (v : W32),
      let f : Fld := if reg.val = 0 then F.LNE_RX_CTLE_PEAK else if reg.val = 1 then F.LNE_RX_DFE_TAP1 else F.LNE_RX_FFE_TAP
      let i := if reg.val < 2 then n.val else 32 * n.val + (reg.val - 2)
      (rd s.dev F.LNE_CFG_ADAPT_MODE n = 2 → ActsR [f.addr i] [] (.lneRxEqWrite n reg v) s fun t =>
        eqView t.dev n reg.val = v.toNat % 2 ^ f.wd) ∧
      (rd s.dev F.LNE_CFG_ADAPT_MODE n ≠ 2 → ActsR [st] [] (.lneRxEqWrite n reg v) s fun t =>
        rd t.dev F.LNE_STATUS_CFG_ERR n = 1 ∧ eqView t.dev n reg.val = eqView s.dev n reg.val)) ∧
    (∀ (prev : Fin 4) (x : List (Fin 4)), rd s.dev F.LNE_CTL_PRBS_CHK_EN n = 1 → rd s.dev F.LNE_CTL_RX_EN n = 1 →
      let p := rd s.dev F.LNE_CTL_PRBS_PAT n
      (p < 6 ∨ (p < 8 ∧ isPam4 (persOf s.dev n) = true)) →
      let inv := rdB s.dev F.LNE_CTL_PRBS_INV n
      let y := chkBits p inv { (laneOf s.dev n).chk with sync := rdB s.dev F.LNE_STATUS_PRBS_SYNC n } (rxBits s.dev n prev x)
      let feeds (c : Instr) : Prop := ActsR [st, F.LNE_PRBS_ERR_ERR.addr n] [.lanes] c s fun t =>
        rd t.dev F.LNE_STATUS_PRBS_SYNC n = y.1.sync.toNat ∧ rd t.dev F.LNE_PRBS_ERR_ERR n = satAdd 32 (rd s.dev F.LNE_PRBS_ERR_ERR n) y.2 ∧
        (laneOf t.dev n).chk = y.1 ∧ ∀ m, m ≠ n.val → laneOf t.dev m = laneOf s.dev m
      feeds (.prbsSync ⟨n, prev, x⟩) ∧ feeds (.prbsSyncLoss ⟨n, prev, x⟩) ∧
      ∀ (c : Checker) (b : Bool), let e := chkBit p inv c b
        let good : Prop := (prbsTaps p).all (fun t => decide (t ≤ c.hist.length)) = true ∧ prbsNext p inv c.hist = b
        (c.sync = false → e.2 = false ∧ e.1.bits = c.bits ∧ (e.1.sync = true ↔ good ∧ c.run = 255)) ∧
        (c.sync = true → e.1.bits = c.bits + 1 ∧ (e.2 = true ↔ prbsNext p inv c.hist ≠ b) ∧
          (e.1.sync = false → 64 ≤ (c.errAt.filter fun q => decide (c.pos < q + 1024)).length + 1 ∨ 64 ≤ c.errAt.length))) ∧
    (let err := rd s.dev F.LNE_PRBS_ERR_ERR n
     let bits := (laneOf s.dev n).chk.bits
     (ActsR [F.LNE_PRBS_ERR_ERR.addr n, F.LNE_PRBS_BITS_LO.addr n, F.LNE_PRBS_BITS_HI.addr n] [.lanes, .out] (.lnePrbsErrRead n false) s fun t =>
       Sent s.dev t.dev [.readData [BitVec.ofNat 32 err]] ∧ rd t.dev F.LNE_PRBS_ERR_ERR n = 0 ∧
       rd t.dev F.LNE_PRBS_BITS_LO n = bits % 2 ^ 32 ∧ rd t.dev F.LNE_PRBS_BITS_HI n = bits / 2 ^ 32 % 2 ^ 32 ∧
       (laneOf t.dev n).chk.bits = 0 ∧ ∀ m, m ≠ n.val → laneOf t.dev m = laneOf s.dev m) ∧
     (Acts [.out] (.lnePrbsErrRead n true) s fun t => Sent s.dev t.dev [.readData [BitVec.ofNat 32 err]])) ∧
    (∀ drop : Bool, rd s.dev F.LNE_CTL_LB_MODE n = 2 → ActsR [st] [.lanes] (.lbSlip ⟨n, drop⟩) s fun t =>
      let eb := (laneOf s.dev n).eb
      rd t.dev F.LNE_STATUS_LB_SLIP n = 1 ∧ (laneOf t.dev n).eb = if drop = true then eb.drop 64 else eb.take 64 ++ eb)

/-! ### Framing and tributary monitors (chapters 2, 3 and 5) -/

/-- R110 to R112: HUNT, PRESYNC and FRAME. A raw match of both halves of the FAW with a valid SN pair opens a candidate, at
most four of them; a candidate whose next sweep checks and carries the next SN puts the lane in frame at its alignment,
locks and loads the lane SN and ends dLOF and dLOSN; one that fails is dropped, and the framer returns to HUNT with the
last. R112, R115, R113: a received sweep in frame. The fourth bad FAW in a row takes the lane out of frame with dLOF and
lane condition SF, and the lane SN holds; otherwise the lane SN advances by one while it is locked, a good FAW clears the
run and a bad one adds to it, and the grains of a mesochronous lane go into the ingress half that the device sweep writes,
at the positions of every port that takes its grains from it. Where the manual leaves a reading open, the clauses take the
model's, log entries 172 and 174. -/
def Obligations.FramingAndReceivedSweeps : Prop :=
  (∀ (s : State) (n : Fin 128) (off : Nat) (r : RxIn), s.dev.pwr.core = true → framerRuns s.dev n = true →
     let st := F.FRM_RX_STATUS_FSTATE.addr n
     let cs := (frmOf s.dev n).cands
     let w := rxSweep s.dev n r
     (fawRaw s.dev n r = false ∨ snPair w = none ∨ rd s.dev F.FRM_RX_STATUS_FSTATE n = 2 ∨ 4 ≤ cs.length →
       exec (.rawMatch n off r) s = .next s) ∧
     (rd s.dev F.FRM_RX_STATUS_FSTATE n ≠ 2 →
       (∀ x, fawRaw s.dev n r = true → snPair w = some x → cs.length < 4 → (∀ c ∈ cs, c.1 ≠ off) →
         ActsR [st] [.frm] (.rawMatch n off r) s fun t =>
           rd t.dev F.FRM_RX_STATUS_FSTATE n = 1 ∧ frmOf t.dev n = { frmOf s.dev n with cands := cs ++ [(off, x)] } ∧
           ∀ m, m ≠ n.val → frmOf t.dev m = frmOf s.dev m) ∧
       (∀ x ns, cs.find? (fun c => c.1 == off) = some (off, x) →
         (ohAt w 0 = (0xF3A58, true) → ohAt w 1 = (0x0C5A7, true) → snPair w = some (x + 1) →
           ActsR (F.FRM_RX_SN_SN.addr n :: evalRegs) evalParts (.candidateCheck n off r () ns) s fun t =>
             rd t.dev F.FRM_RX_STATUS_FSTATE n = 2 ∧ rd t.dev F.FRM_RX_STATUS_SN_LOCK n = 1 ∧
             rd t.dev F.FRM_RX_SN_SN n = (x + 1).toNat ∧ (frmOf t.dev n).cands = [] ∧ (frmOf t.dev n).align = some off ∧
             rd t.dev F.FRM_RX_STATUS_DEF n % 16 = 0) ∧
         (fawGood w = false ∨ snPair w ≠ some (x + 1) → ActsR [st] [.frm] (.candidateCheck n off r () ns) s fun t =>
           frmOf t.dev n = { frmOf s.dev n with cands := cs.filter fun c => c.1 != off } ∧
           rd t.dev F.FRM_RX_STATUS_FSTATE n = (if (∀ c ∈ cs, c.1 = off) then 0 else 1) ∧
           ∀ m, m ≠ n.val → frmOf t.dev m = frmOf s.dev m)))) ∧
  (∀ (s : State) (n : Fin 128) (i : RxIn) (ns : Nat), s.dev.pwr.core = true → framerRuns s.dev n = true →
     rd s.dev F.FRM_RX_STATUS_FSTATE n = 2 →
     let r := rxSweep s.dev n i
     let run := (frmOf s.dev n).faw
     let sn := rd s.dev F.FRM_RX_SN_SN n
     (fawGood r = false → 3 ≤ run → ActsR evalRegs evalParts (.receivedSweep n i ns) s fun t =>
       rd t.dev F.FRM_RX_STATUS_FSTATE n = 0 ∧ rd t.dev F.FRM_RX_STATUS_SN_LOCK n = 0 ∧ rd t.dev F.FRM_RX_STATUS_DEF n = 4 ∧
       rd t.dev F.FRM_RX_STATUS_COND n = 2 ∧ (frmOf t.dev n).cands = [] ∧ (frmOf t.dev n).align = none) ∧
     (fawGood r = true ∨ run < 3 → rd s.dev F.FRM_RX_STATUS_SN_LOCK n = 1 →
       Acts (.regs :: .sw :: .chans :: evalParts) (.receivedSweep n i ns) s fun t =>
         rd t.dev F.FRM_RX_STATUS_FSTATE n = 2 ∧ rd t.dev F.FRM_RX_SN_SN n = (sn + 1) % 2 ^ 32 ∧
         (frmOf t.dev n).faw = (if fawGood r = true then 0 else run + 1) ∧
         (s.dev.cli.tribs = [] → s.dev.prot.groups = [] →
           ∀ m, ingPage t.dev s.sn m = (if m < 128 ∧ subst s.dev m = n.val ∧ rd s.dev F.FRM_RX_CFG_PLESIO m = 0
             then pageNorm (positions s.dev n) r.grains else ingPage s.dev s.sn m) ∧
             ingPage t.dev (s.sn + 1) m = ingPage s.dev (s.sn + 1) m)))

/-- R124, R126, R128 to R131, R52: detectors. At the boundary of an interval more BIP-8 errors than DEG_THR in DEG_M
intervals in a row declare dDEG and lane condition SD, and DEG_M intervals within it clear both; a tributary period whose JW
is good keeps every defect clear; one whose JW fails counts, and the third in a row declares tLOJ with the copy's condition
SF; a fine-slot monitor locks on the one position whose words pass CHK with the fixed TYPE in two multiframes, and loses it
when three in a row fail CHK. Where the manual leaves a reading open, the clauses take the model's, log entries 78, 82, 134,
136 and 181. -/
def Obligations.DetectorsIntegrate : Prop :=
  ∀ (s : State) (ns : Nat), s.dev.pwr.core = true →
    (∀ n : Fin 128, framerRuns s.dev n = true → rd s.dev F.FRM_RX_STATUS_FSTATE n = 2 →
      let g := degOf s.dev n
      let next := rd s.dev F.FRM_RX_SN_SN n + 1
      (next % 2 ^ g.ivl ≠ 0 → next % 2 ^ degIvl s.dev n ≠ 0 → exec (.degIntervalEnd n ns) s = .next s) ∧
      (next % 2 ^ g.ivl = 0 → g.started = true →
        (g.thr < g.sum → g.m ≤ g.bad + 1 → rd s.dev F.FRM_RX_STATUS_DEF n = 0 → laneDefs s.dev n 0 = 0 →
          ActsR evalRegs evalParts (.degIntervalEnd n ns) s fun t =>
            rd t.dev F.FRM_RX_STATUS_DEF n = 0x80 ∧ rd t.dev F.FRM_RX_STATUS_COND n = 1 ∧ (degOf t.dev n).sum = 0) ∧
        (g.sum ≤ g.thr → g.m ≤ g.good + 1 → rd s.dev F.FRM_RX_STATUS_DEF n = 0x80 → laneDefs s.dev n 0 = 0 →
          ActsR evalRegs evalParts (.degIntervalEnd n ns) s fun t =>
            rd t.dev F.FRM_RX_STATUS_DEF n = 0 ∧ rd t.dev F.FRM_RX_STATUS_COND n = 0 ∧ (degOf t.dev n).sum = 0))) ∧
    (∀ (tid : BitVec 19) (t0 : Trib) (h : BitVec 12) (x : Nat), tribOf s.dev tid.toNat = some t0 →
      t0.cfg.role = 0 → t0.cfg.fine = false → copyMulti s.dev t0 0 = false → t0.w.ssf = false → t0.w.ssfSeen = false →
      t0.w.decl = List.replicate 6 false → t0.w.lim = List.replicate 6 (3, 10) → t0.w.set = [0, 0, x, 0, 0, 0] → x ≤ 2 →
      t0.w.last = some h → h.getLsbD 3 = false → t0.w.ssd = false → t0.w.cond = .none →
      let jw := t0.w.jw
      let good := jwOk jw tid t0.cfg.maxFill = true
      (good → jwMi jw = false → jwType jw = t0.cfg.ptype → jwType jw ≠ 0 →
        Acts [.cli, .pm] (.tribPeriodEnd tid 0 () () ns) s fun t => ∃ t1, tribOf t.dev tid.toNat = some t1 ∧
          t1.cfg = t0.cfg ∧ t1.w.decl = List.replicate 6 false ∧ t1.w.set = List.replicate 6 0 ∧ t1.w.cond = .none ∧
          t1.w.last = some (jw.extractLsb' 8 12)) ∧
      (jwMaint jw = false → ¬ good →
        (x < 2 → Acts [.cli, .pm] (.tribPeriodEnd tid 0 () () ns) s fun t => ∃ t1, tribOf t.dev tid.toNat = some t1 ∧
          t1.cfg = t0.cfg ∧ t1.w.decl = List.replicate 6 false ∧ t1.w.set = [0, 0, x + 1, 0, 0, 0] ∧ t1.w.cond = .none ∧
          t1.w.last = some h) ∧
        (x = 2 → ActsR evalRegs [.cli, .pm, .hif, .prot, .out, .twin] (.tribPeriodEnd tid 0 () () ns) s fun t =>
          (∃ t1, tribOf t.dev tid.toNat = some t1 ∧ t1.cfg = t0.cfg ∧
            t1.w.decl = [false, false, true, false, false, false] ∧ t1.w.cond = .sf ∧ t1.w.last = some h) ∧
          Raised s.dev t.dev [{ typ := 0x10, sn := s.sn, p0 := 0x15 + 256 + 512, p1 := tid.toNat, p2 := copySn s.dev t0 0 s.sn }]))) ∧
    (∀ (tid : BitVec 19) (t0 : Trib) (p : Fin 16), tribOf s.dev tid.toNat = some t0 → t0.cfg.fine = true → t0.cfg.role = 0 →
      let at' (q : Fin 16) (b : Nat) (f : Word20 → Prop) : Prop := ∃ w, mfWord t0.w.hist q.val b = some w ∧ f w
      let ok (q : Fin 16) : Prop := ∀ b < 2, at' q b fun w => chkPasses w tid = true ∧ jwType w = t0.cfg.ptype ∧ jwMaint w = false
      (t0.w.locked = false →
        ((∀ q, ok q ↔ q = p) → Acts [.cli] (.fineMfLock tid 0 ()) s fun t =>
          tribOf t.dev tid.toNat = some { t0 with w := { t0.w with locked := true, phase := p.val } } ∧
          ∀ q, q ≠ tid.toNat → tribOf t.dev q = tribOf s.dev q) ∧
        ((∀ q, ¬ ok q) ∨ (∃ q, q ≠ p ∧ ok q ∧ ok p) → exec (.fineMfLock tid 0 ()) s = .next s)) ∧
      (t0.w.locked = true → t0.w.phase = p.val →
        ((∀ b < 3, at' p b fun w => chkPasses w tid = false) → Acts [.cli] (.fineMfLoss tid 0) s fun t =>
          tribOf t.dev tid.toNat = some { t0 with w := { t0.w with locked := false } } ∧
          ∀ q, q ≠ tid.toNat → tribOf t.dev q = tribOf s.dev q) ∧
        (∀ b < 3, (at' p b fun w => chkPasses w tid = true) → exec (.fineMfLoss tid 0) s = .next s)))

/-! ### Tributaries and clients (chapters 2, 6 and 7) -/

/-- R39, R42, R130, R168: a TRIB_DEFINE without a problem that needs no Loess storage defines its tributary and completes
OK; one that names a TID in use changes nothing and completes with BAD_DESC reason 4; TRIB_RELEASE removes the tributary, or
is DENIED while a group uses it; DEFECT_CONFIG sets the SET and CLR values of its profile. R121, R122, R157: a client defect
that the mode has, on a client whose lanes carry no defect, is declared with its event, takes rank 3 on every lane of the
client, and puts those lanes at SF unless it is cLF; its end clears both. Where the manual leaves a reading open, the
clauses take the model's, log entries 80, 86, 138, 139 and 140. -/
def Obligations.TributariesAndClientDefects : Prop :=
  (∀ (s : State) (r : Fin 16) (e : QEnt), s.dev.pwr.core = true → mirrors s.dev = false → reservedAt e.raw = none →
     let tid := dF e.raw 16 0 19
     let others (t : State) : Prop := ∀ q, q ≠ tid → tribOf t.dev q = tribOf s.dev q
     (∀ (w p slots : List W32) (ns : Nat), servedBy s.dev r 0x20 = some e →
       let c := tribCfg e.raw w p slots
       (firstProb (tribProbs s.dev e.raw c) = none → needsLoess s.dev c = false → c.role = 0 →
         ActsR evalRegs evalParts (.tribDefine r w p slots ns) s fun t =>
           others t ∧ (∃ t1, tribOf t.dev tid = some t1 ∧ t1.cfg = c ∧ t1.w.decl = List.replicate 6 false) ∧
           Served s.dev t.dev r e.uid 0 0 s.sn 0) ∧
       ((tribOf s.dev tid).isSome = true → c.role ≠ 3 → (c.ptype = 7 → c.role = 0) → ¬ (c.role = 2 ∧ isFlx s.dev c = true) →
         Acts [.hif] (.tribDefine r w p slots ns) s fun t => Served s.dev t.dev r e.uid 0x12 (16 + 256 * 4) s.sn 0)) ∧
     (∀ (ns : Nat), servedBy s.dev r 0x21 = some e →
       (∀ t0, tribOf s.dev tid = some t0 → t0.cfg.role = 0 →
         ((∀ g ∈ s.dev.prot.groups, g.2.cfg.tid ≠ some tid) → (∀ a ∈ s.dev.cli.loess, a.owner ≠ tid) →
           ActsR evalRegs evalParts (.tribRelease r ns) s fun t =>
             others t ∧ tribOf t.dev tid = none ∧ Served s.dev t.dev r e.uid 0 0 s.sn 0) ∧
         ((∃ g ∈ s.dev.prot.groups, g.2.cfg.tid = some tid) → Acts [.hif] (.tribRelease r ns) s fun t =>
           Served s.dev t.dev r e.uid 0x11 3 s.sn 0)) ∧
       (tribOf s.dev tid = none → Acts [.hif] (.tribRelease r ns) s fun t =>
         Served s.dev t.dev r e.uid 0x12 (16 + 256 * 5) s.sn 0)) ∧
     (servedBy s.dev r 0x40 = some e → Acts [.cli, .hif] (.defectConfig r) s fun t =>
       let p := dF e.raw 16 0 4
       (∀ i < 6, profOf t.dev p i = (max 1 (dF e.raw (20 + 4 * i) 0 12), max 1 (dF e.raw (20 + 4 * i) 12 12))) ∧
       (∀ q i, q ≠ p → profOf t.dev q i = profOf s.dev q i) ∧
       t.dev.cli = { s.dev.cli with profiles := t.dev.cli.profiles } ∧ Served s.dev t.dev r e.uid 0 0 s.sn 0)) ∧
  (∀ (s : State) (n : Fin 128) (c : Fin 8) (on' : Bool) (ns : Nat), s.dev.pwr.core = true → isClient (persOf s.dev n) = true →
     rd s.dev F.MAP_LANE_CFG_MODE n ≠ 3 →
     (∀ m ∈ clientLanes s.dev n, rd s.dev F.LNE_CTL_RX_EN m = 1 ∧ rd s.dev F.LNE_STATUS_LOS m = 0 ∧ rd s.dev F.LNE_STATUS_CDR_LOCK m = 1 ∧
       persOf s.dev m = persOf s.dev n ∧ clientKey s.dev m = clientKey s.dev n ∧ clientLanes s.dev m = clientLanes s.dev n) →
     (cdefMode s.dev n c = false → exec (.clientDefectChange n c on' ns) s = .next s) ∧
     (cdefMode s.dev n c = true →
     (cdefOf s.dev n = 0 → ActsR evalRegs evalParts (.clientDefectChange n c true ns) s fun t =>
       cdefOf t.dev n = BitVec.ofNat 8 (2 ^ c.val) ∧
       (∀ m ∈ clientLanes s.dev n, rd t.dev F.FRM_RX_STATUS_DEF m = 4 ∧ rd t.dev F.FRM_RX_STATUS_COND m = if c.val < 7 then 2 else 0) ∧
       ∃ es, Raised s.dev t.dev ({ typ := 0x10, sn := s.sn, p0 := 0x21 + c.val + 256, p1 := clientKey s.dev n,
                                   p2 := rd s.dev F.FRM_RX_SN_SN (clientKey s.dev n) } :: es)) ∧
     (cdefOf s.dev n = BitVec.ofNat 8 (2 ^ c.val) → ActsR evalRegs evalParts (.clientDefectChange n c false ns) s fun t =>
       cdefOf t.dev n = 0 ∧
       (∀ m ∈ clientLanes s.dev n, rd t.dev F.FRM_RX_STATUS_DEF m = 0 ∧ rd t.dev F.FRM_RX_STATUS_COND m = 0) ∧
       ∃ es, Raised s.dev t.dev ({ typ := 0x10, sn := s.sn, p0 := 0x21 + c.val, p1 := clientKey s.dev n,
                                   p2 := rd s.dev F.FRM_RX_SN_SN (clientKey s.dev n) } :: es))))

/-- R151, R152, R154: FlexE. A received overhead frame of a PHY of an enabled group is compared with the configured group,
PHY number and map, a difference declaring its client defect, gives the calendars, the calendar in use and CA, and marks
each of its ingress clients whose slot count differs; the switch of the transmit calendar changes calendars, clears CR,
counts and completes its descriptor OK; without CA it waits; a switch whose CA never came is undone and completes ABORTED.
Where the manual leaves a reading open, the clauses take the model's, log entries 125, 145 and 179. -/
def Obligations.FlexECalendars : Prop :=
  ∀ (s : State) (g : Fin 128), s.dev.pwr.core = true → mirrors s.dev = false →
    let st := F.MAP_FLX_GRP_STATUS_TX_CAL.addr g
    let x := flxOf s.dev g
    let others (t : State) : Prop := ∀ h, h ≠ g.val → flxOf t.dev h = flxOf s.dev h
    (∀ o : FlxOh,
      let n := o.lane.val
      let gid : Bool := o.group.toNat == rd s.dev F.MAP_FLX_GRP_CFG_GRP_NUM g
      let phy : Bool := o.phy.toNat == rd s.dev F.MAP_LANE_FLX_PHY_NUM n && o.map.map (·.toNat) == flxPhys s.dev g
      (rd s.dev F.MAP_FLX_GRP_CFG_EN g = 1 → n ∈ flxLanes s.dev g → ActsR (st :: evalRegs) evalParts (.flexeOverheadFrame g o) s fun t =>
        others t ∧ rdB t.dev F.MAP_FLX_GRP_STATUS_RX_CAL g = o.inUse ∧
        rd t.dev F.MAP_FLX_GRP_STATUS_TX_CAL g = rd s.dev F.MAP_FLX_GRP_STATUS_TX_CAL g ∧
        flxOf t.dev g = { x with rxA := o.calA, rxB := o.calB, caOut := o.cr, caIn := o.ca || (x.caIn && x.sw.isSome),
                                 gidOk := if gid = true then min 3 (x.gidOk + 1) else 0,
                                 phyOk := if phy = true then min 3 (x.phyOk + 1) else 0 } ∧
        (gid = false → (cdefLane s.dev (clientKey s.dev n)).isSome = true → (cdefLane s.dev n).isSome = true → clientDown s.dev n = false →
          (cdefOf s.dev n).getLsbD 3 = false → (cdefOf t.dev n).getLsbD 5 = true) ∧
        ∀ tid t0, tribOf s.dev tid = some t0 → ∃ t1, tribOf t.dev tid = some t1 ∧ t1.cfg = t0.cfg ∧
          t1.sizeBad = (if t0.cfg.role = 1 ∧ isFlx s.dev t0.cfg = true ∧ t0.cfg.grp = g.val then
            ((if o.inUse then o.calB else o.calA).filter fun y => y.toNat == t0.cfg.client).length != t0.cfg.k else t0.sizeBad)) ∧
      (rd s.dev F.MAP_FLX_GRP_CFG_EN g = 0 ∨ n ∉ flxLanes s.dev g → exec (.flexeOverheadFrame g o) s = .next s)) ∧
    (∀ r uid op tid, x.sw = some (r, uid, op, tid) → op = 0x20 ∨ op = 0x21 →
      (x.caIn = true → ActsR [st] [.cli, .hif, .pm] (.calendarSwitch g) s fun t =>
        others t ∧ rd t.dev F.MAP_FLX_GRP_STATUS_TX_CAL g = 1 - rd s.dev F.MAP_FLX_GRP_STATUS_TX_CAL g ∧
        rd t.dev F.MAP_FLX_GRP_STATUS_SWITCHING g = 0 ∧
        flxOf t.dev g = { x with cr := false, caIn := false, sw := none, old := [] } ∧ Served s.dev t.dev r uid 0 0 s.sn 0 ∧
        (∀ q, q ≠ tid → tribOf t.dev q = tribOf s.dev q) ∧
        tribOf t.dev tid = if op = 0x20 then tribOf s.dev tid else none) ∧
      (x.caIn = false → x.caWait = true → exec (.calendarSwitch g) s = .next s) ∧
      (x.caIn = false → ActsR [st] [.cli, .hif, .pm] (.calendarSwitchTimeout g) s fun t =>
        others t ∧ rd t.dev F.MAP_FLX_GRP_STATUS_TX_CAL g = rd s.dev F.MAP_FLX_GRP_STATUS_TX_CAL g ∧
        rd t.dev F.MAP_FLX_GRP_STATUS_SWITCHING g = 0 ∧
        flxOf t.dev g = (if rd s.dev F.MAP_FLX_GRP_STATUS_TX_CAL g = 1 then { x with txA := x.old, cr := false, sw := none, old := [] }
          else { x with txB := x.old, cr := false, sw := none, old := [] }) ∧ Served s.dev t.dev r uid 0x13 3 s.sn 0 ∧
        (∀ q, q ≠ tid → tribOf t.dev q = tribOf s.dev q) ∧
        tribOf t.dev tid = if op = 0x21 then tribOf s.dev tid else none))

/-- R144, R150, R156, R158, R161, R162: client buffers. A mapper's buffer at its limit loses whole blocks down to its
midpoint; the ETH_FM demapper tests the word pairs delivered to it and goes from HUNT to PRESYNC to SYNC on matching ones,
delivers frames from then on and falls back with FM_DELIN_LOSS; a CPRI demapper at 2 sweeps discards whole blocks, an ETH_BT
one at 0 or 2 sweeps returns to 1; a re-justifier that holds more than 2 sweeps discards one; a window of 262,144 device
sweeps whose lane sweeps differ by 7 or more declares FREQ_ERR once, one by 5 or less clears it. Where the manual leaves a
reading open, the clauses take the model's, log entries 36, 39, 141, 142, 144, 177 and 180. -/
def Obligations.ClientBuffersSlip : Prop :=
  ∀ (s : State) (tid : BitVec 19) (t0 : Trib), s.dev.pwr.core = true → tribOf s.dev tid.toNat = some t0 →
    let others (t : State) : Prop := ∀ q, q ≠ tid.toNat → tribOf t.dev q = tribOf s.dev q
    let cap := 8 * t0.cfg.wl.length - 1
    let mode := rd s.dev F.MAP_LANE_CFG_MODE t0.cfg.lane
    let becomes (t : State) (t1 : Trib) : Prop := others t ∧ tribOf t.dev tid.toNat = some t1
    (t0.cfg.role = 1 → mode ≠ 2 →
      let l := t0.map.bits.length
      (2 * cap ≤ l / 20 → Acts [.cli, .hif] (.clientMapOvf tid) s fun t =>
        (∃ k, l - 66 * k ≤ 20 * cap ∧ (20 * cap < l - 66 * k + 66) ∧
          becomes t { t0 with map := { t0.map with bits := t0.map.bits.take (l - 66 * k), ovf := true } }) ∧
        Raised s.dev t.dev [{ typ := 0x20, sn := s.sn, p0 := tid.toNat }]) ∧
      (l / 20 < 2 * cap → exec (.clientMapOvf tid) s = .next s)) ∧
    (∀ (h0 h1 : Word20) (r : List Word20), t0.cfg.role = 2 → mode = 2 → demSf t0 = false → t0.dem.words = h0 :: h1 :: r →
      let len := (h0.extractLsb' 6 14).toNat
      let pw := (8 * len + 19) / 20
      let ok := crc16 (msbBits h0) = h1.extractLsb' 4 16
      let x := t0.dem
      let c : Instr := .fmHeader tid () () () ()
      (ok → r.length < pw → exec c s = .next s) ∧
      (¬ ok → x.fm ≠ 2 → Acts [.cli] c s fun t => becomes t { t0 with dem := { x with fm := 0, words := h1 :: r } }) ∧
      (¬ ok → x.fm = 2 → Acts [.cli, .hif] c s fun t => becomes t { t0 with dem := { x with fm := 0, words := h1 :: r } } ∧
        Raised s.dev t.dev [{ typ := 0x21, sn := s.sn, p0 := t0.cfg.lane }]) ∧
      (ok → pw ≤ r.length → x.fm = 0 → Acts [.cli] c s fun t => becomes t { t0 with dem := { x with fm := 1, words := r.drop pw } }) ∧
      (ok → pw ≤ r.length → x.fm ≠ 0 → len ≠ 0 → queueWords x.frames + pw ≤ 2 * cap → Acts [.cli] c s fun t =>
        becomes t { t0 with dem := { x with fm := 2, words := r.drop pw, frames := x.frames ++ [frameBytes len (h0.getLsbD 5) (r.take pw)] } })) ∧
    (t0.cfg.role = 2 → mode = 4 → t0.dem.started = true →
      let l := t0.dem.bits.length
      let full := 20 * (wClient s.dev t0.cfg).1 / (wClient s.dev t0.cfg).2
      (2 * full ≤ l → Acts [.cli, .hif] (.cpriSlip tid true) s fun t =>
        becomes t { t0 with dem := { t0.dem with bits := t0.dem.bits.drop (66 * ((l - full) / 66)) } } ∧
        Raised s.dev t.dev [{ typ := 0x23, sn := s.sn, p0 := t0.cfg.lane, p1 := 1 }]) ∧
      (l < 66 → Acts [.cli, .hif] (.cpriSlip tid false) s fun t =>
        (∃ more, becomes t { t0 with dem := { t0.dem with bits := t0.dem.bits ++ more } } ∧ more.length = 66 * (full / 66)) ∧
        Raised s.dev t.dev [{ typ := 0x23, sn := s.sn, p0 := t0.cfg.lane, p1 := 0 }]) ∧
      (66 ≤ l → l < 2 * full → ∀ b : Bool, exec (.cpriSlip tid b) s = .next s)) ∧
    (t0.cfg.role = 2 → mode = 1 ∨ mode = 3 → t0.dem.started = true →
      let n := targetBlocks s.dev t0.cfg
      let bs := t0.dem.blocks
      (bs = [] → Acts [.cli] (.bufSlip tid) s fun t => becomes t { t0 with dem := { t0.dem with blocks := List.replicate n idleBlock } }) ∧
      (bs ≠ [] → 2 * n ≤ bs.length → Acts [.cli] (.bufSlip tid) s fun t =>
        becomes t { t0 with dem := { t0.dem with blocks := bs.drop (bs.length - n) } }) ∧
      (bs ≠ [] → bs.length < 2 * n → exec (.bufSlip tid) s = .next s)) ∧
    (t0.cfg.role = 0 → copyPlesio s.dev t0 0 = true → copyPlesio s.dev t0 1 = false → t0.rjW.slip = false → 2 * cap < t0.rjW.buf.length →
      Acts [.cli, .hif] (.rjSlip tid) s fun t =>
        becomes t { t0 with rjW := { t0.rjW with slip := true, buf := t0.rjW.buf.drop cap } } ∧
        Raised s.dev t.dev [{ typ := 0x24, sn := s.sn, p0 := tid.toNat }]) ∧
    (∀ (n : Fin 128) (from' : SN), rd s.dev F.FRM_RX_CFG_PLESIO n = 1 → (frmOf s.dev n).rjFrom = some from' →
      let diff : Int := ((frmOf s.dev n).rjCnt : Int) - 262144
      let anew (t : State) : Prop := frmOf t.dev n = { frmOf s.dev n with rjFrom := some s.sn, rjCnt := 0 } ∧
        ∀ m, m ≠ n.val → frmOf t.dev m = frmOf s.dev m
      (snAge from' s.sn < 262144 → exec (.rjWindowEnd n ()) s = .next s) ∧
      (snAge from' s.sn = 262144 →
      let st := [F.MAP_RJ_STATUS_OFFSET.addr n]
      (7 ≤ diff.natAbs → ActsR st [.hif, .frm] (.rjWindowEnd n ()) s fun t => anew t ∧
        rd t.dev F.MAP_RJ_STATUS_OFFSET n = (diff % 65536).toNat ∧ rd t.dev F.MAP_RJ_STATUS_FREQ_ERR n = 1 ∧
        Raised s.dev t.dev (if rd s.dev F.MAP_RJ_STATUS_FREQ_ERR n = 1 then [] else
          [{ typ := 0x25, sn := s.sn, p0 := n.val, p1 := (diff % 65536).toNat }])) ∧
      (diff.natAbs ≤ 5 → ActsR st [.frm] (.rjWindowEnd n ()) s fun t => anew t ∧
        rd t.dev F.MAP_RJ_STATUS_OFFSET n = (diff % 65536).toNat ∧ rd t.dev F.MAP_RJ_STATUS_FREQ_ERR n = 0) ∧
      (diff.natAbs = 6 → ActsR st [.frm] (.rjWindowEnd n ()) s fun t => anew t ∧
        rd t.dev F.MAP_RJ_STATUS_FREQ_ERR n = rd s.dev F.MAP_RJ_STATUS_FREQ_ERR n)))

/-! ### The switch core (chapter 8) -/

/-- R33, R418: the first tick of a core that is out of reset, while the timing unit ticks, carries SN 0; every later one
advances the device SN by exactly 1. A tick moves PAGE(SN) on to PAGE(SN - 1) and PAGE(SN - 2), and writes no entry of a
connection memory but those of the old fine page, which it releases in the sweep after a flip (R205); the queue, the set-up
lock and the scratchpad stay. R33: no command but SWEEP_TICK, PAIR_AUTH (a standby adopts the active's SN) and a reset of
the device changes the device SN or the mark of the first tick. Where the manual leaves a reading open, the clauses take the
model's, log entries 8, 9 and 51. -/
def Obligations.SnMovesOnlyWithTheTick : Prop :=
  (∀ (s : State) (x : TickIn), s.dev.pwr.core = true → ticking s.dev = true →
     ∃ t, exec (.sweepTick x) s = .next t ∧ t.pending = s.pending ∧ t.lock = s.lock ∧ t.sp = s.sp ∧ t.ticked = true ∧
       (s.ticked = false → t.sn = s.sn) ∧ (s.ticked = true → t.sn = s.sn + 1) ∧
       t.dev.sw.page = s.dev.sw.page ∧ active t.dev = active s.dev ∧
       shadow t.dev = (if s.ticked = true ∧ s.dev.sw.page1 ≠ s.dev.sw.page then { shadow s.dev with fine := (active s.dev).fine }
         else shadow s.dev) ∧
       (s.ticked = true → t.dev.sw.page1 = s.dev.sw.page ∧ t.dev.sw.page2 = s.dev.sw.page1)) ∧
  (∀ (c : Instr) (s t : State), exec c s = .next t → resetsDevice c = false →
     (∀ x, c ≠ .sweepTick x) → (∀ p a n, c ≠ .pairAuth p a n) → t.sn = s.sn ∧ t.ticked = s.ticked)

/-- R13, R508: GLB_SETUP_LOCK sets the lock and nothing else, and no command but a reset of the device clears it. -/
def Obligations.SetupLockHolds : Prop :=
  (∀ s : State, s.dev.pwr.core = true → exec .glbSetupLock s = .next { s with lock := true }) ∧
  ∀ (c : Instr) (s t : State), s.lock = true → exec c s = .next t → resetsDevice c = false → t.lock = true

/-- R198: what one egress grain of a lane delivers, in the order of precedence of R198: maintenance content while MI is set;
else, while HOLD is set, the beat of its frozen slot and half; else 0x0_0000 where the entry has EN = 0; else the beat of
W_CS or P_CS as SEL says, which is 0x0_0000 for an idle beat and maintenance content for one with CMERR = 1 (R189). R204:
the word of an output fine slot: 0x0_0000 where its entry has EN = 0, 0xF_FFFF where its parity has failed and no commit has
rewritten it, else word SRC mod 8 of fine-stage grain SRC div 8 in the half read. -/
def Obligations.EgressAndFineReadout : Prop :=
  (∀ (d : Dev) (pg : CmPage) (h : Bool) (u : Nat),
     let x := selAt d u
     let e := egrAt pg u
     let got (slot : Nat) (half : Bool) : Grain :=
       let b := egBeat d.sw half (portOf u) slot
       if b.cmerr = true then gMaint else if b.valid = true then b.pay else 0
     ((x.ecc = true ∨ x.pmi = true) → (readOne d pg h false u).g = gMaint) ∧
     (x.ecc = false → x.pmi = false →
       (∀ slot half, x.frz = some (slot, half) → (readOne d pg h false u).g = got slot half) ∧
       (x.frz = none → egrEn e = false → (readOne d pg h false u).g = 0) ∧
       (x.frz = none → egrEn e = true → (readOne d pg h false u).g = got (if x.sel = true then pCs e else wCs e) h))) ∧
  (∀ (d : Dev) (pg : CmPage) (h : Bool) (f : Nat),
     let x := finAt pg f
     (f ∈ d.sw.fineOut → fineWord d pg h f = 0xFFFFF) ∧
     (f ∉ d.sw.fineOut → x.getLsbD 16 = false → fineWord d pg h f = 0) ∧
     (f ∉ d.sw.fineOut → x.getLsbD 16 = true →
       fineWord d pg h f = gWord (tget 0 (finOf d.sw h) (x.toNat % 65536 / 8)) (x.toNat % 8)))

/-! ### The Tilth engine and the planes (chapters 8 and 9) -/

/-- R197, R227, R232, R234: a CONNECT, DISCONNECT or MOVE outside a batch whose staging succeeds puts its entries into the
shadow page and waits in a commit of its own; as a member of the open batch it joins what is staged and completes with OK or
REARRANGED; one that cannot be placed or is refused completes with its status and changes no entry. The active page never
changes here. R219, R220, R222, R225: what a staged connection reads. A CONNECT of a grain without protect source takes one
slot for both halves of its egress entry, with the ingress entry reading the source grain and the center entry naming the
source port on that slot: the lowest slot free on both sides, while BCAST_EN = 0 and there is one. A DISCONNECT leaves the
egress grain with no entry, and no other egress entry changes. A CONNECT of a fine slot writes its entry alone. -/
def Obligations.ConnectionsAreStaged : Prop :=
  (∀ (s : State) (r : Fin 16) (e : QEnt) (op : Nat) (c : Instr), s.dev.pwr.core = true →
     ((op = 1 ∧ c = .connect r) ∨ (op = 2 ∧ c = .disconnect r) ∨ (op = 3 ∧ c = .move r)) →
     servedBy s.dev r op = some e → s.dev.tilth.aborted.contains r.val = false →
     let m : Member := { ring := r, uid := e.uid, idx := e.idx, op := op, raw := e.raw }
     (s.dev.tilth.batch.any (·.ring == r.val) = false → mayStage s.dev r s.sn = true →
       (∀ p, stageDesc s.dev (plan0 s.dev) e.raw = .ok p → ActsR tilthRegs [.tilth, .sw, .hif, .out, .twin] c s fun t =>
         Taken s.dev t.dev r e.uid ∧ shadow t.dev = p.pg ∧ active t.dev = active s.dev ∧
         t.dev.tilth.prep = some {
           members := [{ m with uses := p.uses, chains := p.chains }], timed := timedOf e.raw, tsn := targetOf e.raw,
           chains := p.chains, uses := p.uses }) ∧
       (∀ st det, stageDesc s.dev (plan0 s.dev) e.raw = .fail st det → Acts [.hif] c s fun t =>
         Served s.dev t.dev r e.uid st det s.sn 0)) ∧
     (∀ b, s.dev.tilth.batch = some b → b.ring = r → mayMember s.dev = true →
       (∀ p, stageDesc s.dev (plan0 s.dev) e.raw = .ok p → ActsR tilthRegs [.tilth, .sw, .hif, .out, .twin] c s fun t =>
         Served s.dev t.dev r e.uid (if p.chains = 0 then 0 else 2) 0 s.sn (BitVec.ofNat 64 p.uses) ∧
         shadow t.dev = p.pg ∧ active t.dev = active s.dev ∧ t.dev.tilth.prep = none ∧
         t.dev.tilth.staged = s.dev.tilth.staged ++ [{ m with uses := p.uses, chains := p.chains, done := true }]) ∧
       (b.atomic = false → ∀ st det, stageDesc s.dev (plan0 s.dev) e.raw = .fail st det → Acts [.hif] c s fun t =>
         Served s.dev t.dev r e.uid st det s.sn 0))) ∧
  (∀ (d : Dev) (raw : BitVec 512) (p : Plan),
     let u := dF raw 16 0 20
     let w := dF raw 20 0 20
     stageDesc d (plan0 d) raw = .ok p →
     (opOf raw = 1 → isGrain u = true → dF raw 24 0 20 = unitNone →
       (∃ c < 4096, pathAt p.pg c w u ∧ egrAt p.pg u = egrMk c c ∧ planeSt d (c % 8) = 0) ∧
       (rd d F.GLB_TILTH_CFG_BCAST_EN = 0 → ∀ c < 4096,
         let busy (k : Nat) := (busyIn d (plan0 d) (portOf w)).testBit k || (busyOut d (plan0 d) (portOf u)).testBit k
         busy c = false → (∀ k < c, busy k = true) → egrAt p.pg u = egrMk c c ∧ p.chains = 0)) ∧
     (opOf raw = 1 → isFine u = true → p.pg = { shadow d with fine := tput finD (shadow d).fine (fineOf u) (finMk (fineOf w)) }) ∧
     (opOf raw = 2 → isGrain u = true → egrAt p.pg u = 0 ∧ p.chains = 0 ∧ ∀ v, v ≠ u → egrAt p.pg v = egrAt (shadow d) v) ∧
     (opOf raw = 2 → isFine u = true → finAt p.pg (fineOf u) = 0))

/-- R233, R235, R236: batches. BATCH_OPEN opens one on its ring; BATCH_COMMIT prepares a timed commit of every staged member
and itself; BATCH_ABORT and a timeout close it and, where it has staged anything, give the shadow back the active page's
entries, other prepared work standing; a closing descriptor of a batch that Tilth has aborted completes with ABORTED, DETAIL
1, and one without an open batch with BAD_DESC, offset 0, reason 7. -/
def Obligations.BatchesOpenCommitAbort : Prop :=
  ∀ (s : State) (r : Fin 16) (e : QEnt), s.dev.pwr.core = true →
    let ab := s.dev.tilth.aborted.contains r.val
    let clean := reservedAt e.raw = none
    let ended (t : State) : Prop := t.dev.tilth.batch = none ∧ t.dev.tilth.staged = [] ∧ active t.dev = active s.dev ∧
      t.dev.tilth.prep = s.dev.tilth.prep ∧ t.dev.tilth.held = s.dev.tilth.held.filter (·.2.isSome) ∧
      shadow t.dev = (if s.dev.tilth.staged.isEmpty = true then shadow s.dev else active s.dev)
    (servedBy s.dev r 4 = some e → ab = false → clean → s.dev.tilth.batch = none → s.dev.tilth.prep = none →
      s.dev.tilth.held = [] → s.dev.tilth.evac = none → ActsR tilthRegs [.tilth, .hif] (.batchOpen r) s fun t =>
        Served s.dev t.dev r e.uid 0 0 s.sn 0 ∧
        t.dev.tilth.batch = some { ring := r, atomic := dB e.raw 16 0, tmo := rd s.dev F.GLB_TILTH_CFG_BATCH_TMO } ∧
        t.dev.tilth.staged = [] ∧ rd t.dev F.GLB_TILTH_STATUS_BATCH_OPEN = 1 ∧ rd t.dev F.GLB_TILTH_STATUS_BATCH_RING = r) ∧
    (∀ b, s.dev.tilth.batch = some b → b.ring = r → ab = false → clean →
      (servedBy s.dev r 5 = some e → mayMember s.dev = true → ActsR tilthRegs [.tilth, .hif] (.batchCommit r) s fun t =>
        Taken s.dev t.dev r e.uid ∧ t.dev.tilth.batch = none ∧ t.dev.tilth.staged = [] ∧ ∃ c, t.dev.tilth.prep = some c ∧
          c.members = s.dev.tilth.staged ++ [{ ring := r, uid := e.uid, idx := e.idx, op := 5, raw := e.raw }] ∧
          c.timed = true ∧ c.tsn = targetOf e.raw ∧ c.target = none ∧ c.atomic = b.atomic) ∧
      (servedBy s.dev r 6 = some e →
        (s.dev.tilth.undo = false → ActsR tilthRegs [.tilth, .sw, .hif, .out, .twin] (.batchAbort r) s fun t =>
          Served s.dev t.dev r e.uid 0 0 s.sn 0 ∧ ended t) ∧
        (s.dev.tilth.undo = true → exec (.batchAbort r) s = .next s))) ∧
    (∀ b, s.dev.tilth.batch = some b →
      (b.tmo ≠ 0 → ActsR tilthRegs [.tilth, .sw, .out, .twin] .batchTimeout s fun t =>
        t.dev.tilth.aborted = s.dev.tilth.aborted ++ [b.ring] ∧ ended t) ∧
      (b.tmo = 0 → exec .batchTimeout s = .next s)) ∧
    (∀ op c, ((op = 5 ∧ c = .batchCommit r) ∨ (op = 6 ∧ c = .batchAbort r)) → servedBy s.dev r op = some e →
      (ab = true → Acts [.tilth, .hif] c s fun t => Served s.dev t.dev r e.uid 0x13 1 s.sn 0 ∧
        t.dev.tilth.aborted = s.dev.tilth.aborted.filter (· != r.val)) ∧
      (ab = false → clean → s.dev.tilth.batch = none → Acts [.hif] c s fun t =>
        Served s.dev t.dev r e.uid 0x12 (0 + 256 * 7) s.sn 0))

/-- R18, R20, R21, R229 to R232, R244: the life of a commit. It becomes ready with its own target where that is acceptable
and else with E (2 sweeps ahead, 4 with a twin), marked LATE where it was timed; at that sweep the page bit inverts and the
shadow becomes the active page; two sweeps after it the old page is released and brought up to the active one, and the
descriptor completes with DIVERGED, LATE, REARRANGED or OK, in this order. A commit without its acknowledgement one sweep
ahead is marked diverged, and from its completion on no twin is coupled. Where the manual leaves a reading open, the clauses
take the model's, log entry 151. -/
def Obligations.CommitFlipsAtItsTarget : Prop :=
  ∀ (s : State) (c : Commit), s.dev.pwr.core = true →
    let e := if coupled s.dev = true then 4 else 2
    let ok := e ≤ (c.tsn - s.sn).toNat ∧ (c.tsn - s.sn).toNat < 2 ^ 31
    (s.dev.tilth.prep = some c → c.target = none → s.dev.tilth.released = true → isStandby s.dev = false →
      entering s.dev = false → s.dev.twin.resyncLast = false → s.dev.tilth.paused = false →
      ActsR tilthRegs [.tilth, .out, .twin] .commitReady s fun t => ∃ c', t.dev.tilth.prep = some c' ∧ c'.members = c.members ∧
        (c.timed = true → ok → c'.target = some c.tsn ∧ c'.late = false) ∧
        (c.timed = true → ¬ ok → c'.target = some (s.sn + BitVec.ofNat 32 e) ∧ c'.late = true) ∧
        (c.timed = false → c'.target = some (s.sn + BitVec.ofNat 32 e) ∧ c'.late = false) ∧
        rd t.dev F.GLB_TILTH_STATUS_STATE = 2 ∧ (∀ x, c'.target = some x → rd t.dev F.GLB_TILTH_TARGET_SN = x.toNat)) ∧
    (s.dev.tilth.prep = some c → c.target = some s.sn → s.dev.tilth.made = none → s.dev.tilth.released = true →
      s.dev.tilth.planeIn = [] →
      ActsR (F.GLB_TILTH_COMMITS.addr 0 :: F.GLB_TILTH_CHAINS.addr 0 :: F.HIF_RING_PIDX.addr 40 :: tilthRegs ++ evalRegs)
        (.tilth :: .sw :: .free :: evalParts) .flip s fun t =>
        t.dev.sw.page = !s.dev.sw.page ∧ active t.dev = shadow s.dev ∧ shadow t.dev = active s.dev ∧
        t.dev.tilth = { s.dev.tilth with made := some c, prep := none, released := false, lastT := s.sn, planeDue := false } ∧
        rd t.dev F.GLB_TILTH_COMMITS = satAdd 32 (rd s.dev F.GLB_TILTH_COMMITS) 1 ∧
        rd t.dev F.GLB_TILTH_CHAINS = satAdd 32 (rd s.dev F.GLB_TILTH_CHAINS) c.chains ∧
        t.dev.sw.sel = s.dev.sw.sel) ∧
    (s.dev.tilth.released = false → s.dev.tilth.second = none → s.dev.tilth.fresh = false → s.dev.tilth.late = [] →
      (2 ≤ (s.sn - s.dev.tilth.lastT).toNat → (s.sn - s.dev.tilth.lastT).toNat < 2 ^ 31 → Acts [.tilth, .sw] .pageRelease s fun t =>
        t.dev.tilth = { s.dev.tilth with released := true } ∧ shadow t.dev = active s.dev ∧ active t.dev = active s.dev) ∧
      ((s.sn - s.dev.tilth.lastT).toNat < 2 → exec .pageRelease s = .next s)) ∧
    (∀ m x, s.dev.tilth.made = some c → s.dev.tilth.second = none → c.members = [m] → m.done = false → m.stage2 = none →
      (m.op = 1 ∨ m.op = 2 ∨ m.op = 3) → c.target = some x → 2 ≤ (s.sn - s.dev.tilth.lastT).toNat →
      (s.sn - s.dev.tilth.lastT).toNat < 2 ^ 31 →
      (c.diverged = false → Acts [.tilth, .hif] .commitComplete s fun t =>
        t.dev.tilth = { s.dev.tilth with made := none } ∧
        Served s.dev t.dev m.ring m.uid (if c.late = true then 1 else if m.chains ≠ 0 then 2 else 0) 0 x (BitVec.ofNat 64 m.uses)) ∧
      (c.diverged = true → ActsR [F.TWN_STATUS_COUPLING.addr 0] [.tilth, .hif, .twin] .commitComplete s fun t =>
        t.dev.tilth = { s.dev.tilth with made := none } ∧ t.dev.twin = { s.dev.twin with diverged := true } ∧
        coupled t.dev = false ∧ Served s.dev t.dev m.ring m.uid 0x15 0 x (BitVec.ofNat 64 m.uses))) ∧
    (s.dev.tilth.prep = some c → c.target = some (s.sn + 1) → mirrors s.dev = true →
      (c.acked = true → exec .commitAckDeadline s = .next s) ∧
      (c.acked = false → Acts [.tilth] .commitAckDeadline s fun t =>
        t.dev.tilth = { s.dev.tilth with prep := some { c with diverged := true } }))

/-- R206, R219, R223, R238, R240: interrupted work and the fine tier. A rollback gives the shadow back the active page;
after an urgent PG_COMMAND what is staged stands, or is set aside where a move no longer holds; set-aside work is staged
again from the start, and a member that no longer finds a place completes with BLOCKED or DENIED; FINE_OPEN without a
position takes a spare one (which one is free, log entry 119), one of a position not opened connects it, one of an opened
position without readers moves it, and one with readers opens a spare one first; FINE_CLOSE removes the route. Where the
manual leaves a reading open, the clauses take the model's, log entries 119 and 149. -/
def Obligations.InterruptedAndFineWorkIsStaged : Prop :=
  ∀ (s : State) (r : Fin 16) (e : QEnt), s.dev.pwr.core = true →
    (s.dev.tilth.undo = true → s.dev.tilth.released = true → ActsR tilthRegs [.tilth, .sw] .rollbackDone s fun t =>
        t.dev.tilth = { s.dev.tilth with undo := false } ∧ shadow t.dev = active s.dev ∧ active t.dev = active s.dev) ∧
    (s.dev.tilth.paused = true →
      (pgWaits s.dev = true → exec .tilthResume s = .next s) ∧
      (pgWaits s.dev = false → movesStale s.dev = false → Acts [.tilth] .tilthResume s fun t =>
        t.dev.tilth = { s.dev.tilth with paused := false }) ∧
      (∀ c, pgWaits s.dev = false → movesStale s.dev = true → s.dev.tilth.prep = some c → c.evac = false →
        ActsR tilthRegs [.tilth, .out, .twin] .tilthResume s fun t => t.dev.tilth.paused = false ∧ t.dev.tilth.undo = true ∧
          t.dev.tilth.prep = none ∧ t.dev.tilth.staged = [] ∧
          t.dev.tilth.held = ([], some { c with target := none, late := false }) :: s.dev.tilth.held)) ∧
    (∀ c m more, s.dev.tilth.held = ([], some c) :: more → c.members = [m] → (m.op = 1 ∨ m.op = 2 ∨ m.op = 3) → m.done = false →
      s.dev.tilth.paused = false → s.dev.tilth.undo = false → s.dev.tilth.released = true → s.dev.tilth.prep = none →
      s.dev.tilth.staged = [] → s.dev.tilth.evac = none → secondDue s.dev.tilth = false → urgentWaits s.dev = false →
      (∀ p, stageDesc s.dev (plan0 s.dev) m.raw = .ok p → ActsR tilthRegs [.tilth, .sw, .out, .twin] .tilthResume s fun t =>
        t.dev.tilth.held = more ∧ shadow t.dev = p.pg ∧ active t.dev = active s.dev ∧
        t.dev.tilth.prep.map (·.members) = some [{ m with uses := p.uses, chains := p.chains }]) ∧
      (∀ st det, stageDesc s.dev (plan0 s.dev) m.raw = .fail st det → ActsR tilthRegs [.tilth, .sw, .hif, .out, .twin] .tilthResume s fun t =>
        t.dev.tilth.held = more ∧ t.dev.tilth.prep = none ∧ shadow t.dev = active s.dev ∧ active t.dev = active s.dev ∧
        Served s.dev t.dev m.ring m.uid (if st = 0x11 then 0x11 else 3) (if st = 0x11 ∨ st = 3 then det else 1) s.sn 0)) ∧
    (let x := dF e.raw 16 0 20
     let v := dF e.raw 20 0 20
     servedBy s.dev r 0x22 = some e → reservedAt e.raw = none → mayStage s.dev r s.sn = true →
      isGrain x = true → portOf x < 128 → unitInRange s.dev x = true → plesioBar s.dev x = false →
      protectLane s.dev (portOf x) = false →
      (v = unitNone → ∀ u p, spareVl s.dev = some u → planConnect s.dev (plan0 s.dev) u x none = .ok p →
        ActsR tilthRegs [.tilth, .sw, .hif, .out, .free, .twin] (.fineOpen r) s fun t =>
          128 * 2048 ≤ u ∧ u < 132 * 2048 ∧ isOpened (shadow s.dev) u = false ∧ isOpened (active s.dev) u = false ∧
          Taken s.dev t.dev r e.uid ∧ shadow t.dev = p.pg ∧ active t.dev = active s.dev) ∧
      (v = unitNone → spareVl s.dev = none → Acts [.hif] (.fineOpen r) s fun t => Served s.dev t.dev r e.uid 3 3 s.sn 0) ∧
      (isGrain v = true → 128 ≤ portOf v →
        let stages (p : Plan) (u : Nat) (last : Bool) : Prop :=
          ActsR tilthRegs [.tilth, .sw, .hif, .out, .free, .twin] (.fineOpen r) s fun t =>
            Taken s.dev t.dev r e.uid ∧ shadow t.dev = p.pg ∧ active t.dev = active s.dev ∧
            ∃ c m, t.dev.tilth.prep = some c ∧ c.members = [m] ∧ m.stage2 = some (u, last)
        (isOpened (shadow s.dev) v = false → ∀ p, planConnect s.dev (plan0 s.dev) v x none = .ok p → stages p v true) ∧
        (isOpened (shadow s.dev) v = true → fineReaders (shadow s.dev) v = [] →
          ∀ p, planMove s.dev (plan0 s.dev) v false (some x) = .ok p → stages p v true) ∧
        (isOpened (shadow s.dev) v = true → fineReaders (shadow s.dev) v ≠ [] → ∀ u p, spareVl s.dev = some u →
          planConnect s.dev (plan0 s.dev) u x none = .ok p → stages p u false))) ∧
    (let v := dF e.raw 16 0 20
     servedBy s.dev r 0x23 = some e → reservedAt e.raw = none → isGrain v = true → 128 ≤ portOf v → mayStage s.dev r s.sn = true →
      (isOpened (shadow s.dev) v = false → Acts [.hif] (.fineClose r) s fun t => Served s.dev t.dev r e.uid 0x12 (16 + 256 * 5) s.sn 0) ∧
      (isOpened (shadow s.dev) v = true → fineReaders (shadow s.dev) v = [] → ActsR tilthRegs [.tilth, .sw, .hif, .out, .twin] (.fineClose r) s fun t =>
        Taken s.dev t.dev r e.uid ∧ isOpened (shadow t.dev) v = false ∧ active t.dev = active s.dev ∧
        ∀ u, u ≠ v → egrAt (shadow t.dev) u = egrAt (shadow s.dev) u) ∧
      (isOpened (shadow s.dev) v = true → fineReaders (shadow s.dev) v ≠ [] → Acts [.hif] (.fineClose r) s fun t => Served s.dev t.dev r e.uid 0x12 (16 + 256 * 4) s.sn 0))

/-- R210, R211, R213, R214, R216: planes. A retirement puts an IN_SERVICE plane into EVACUATING and begins the evacuation,
unless another plane is out of service; a trigger raises its event and, with AUTO_RETIRE, does the same; once no page uses
the plane it is RETIRED, its slack reads 0x7FF, and the descriptor completes; PLANE_RESTORE puts a RETIRED plane into
RESTORING, and its check returns it to IN_SERVICE after 16 good sweeps, else to RETIRED. R211, R212, R239: one move of an
evacuation. A use of the plane moves to a slot of another plane that is IN_SERVICE, with its path reading the same source,
in a commit of the evacuation; a move that would leave a port side above 3584 slots used in either page or frozen, or a use
that finds no slot, stops the evacuation with PLANE_RETIRE_BLOCKED and returns the plane to IN_SERVICE. Where the manual
leaves a reading open, the clauses take the model's, log entries 87, 95, 96, 121, 146 and 150. -/
def Obligations.PlanesRetireAndReturn : Prop :=
  (∀ (s : State) (r : Fin 16) (e : QEnt) (p : Fin 8), s.dev.pwr.core = true →
     let regs := F.GLB_PLANE_STATUS_STATE.addr p.val :: tilthRegs
     let starts (t : State) : Prop := planeSt t.dev p = 1 ∧ t.dev.tilth.evac = some p.val ∧ t.dev.tilth.prep.isNone = true
     (dF e.raw 16 0 3 = p.val → reservedAt e.raw = none → s.dev.tilth.aborted.contains r.val = false →
       (servedBy s.dev r 0x60 = some e →
         (planeSt s.dev p = 0 → otherOut s.dev p = false → urgentPrep s.dev = false →
           ActsR regs [.tilth, .sw, .hif, .out, .twin] (.planeRetire r) s fun t =>
             Taken s.dev t.dev r e.uid ∧ starts t ∧ t.dev.sw.retireBy = s.dev.sw.retireBy ++ [(p.val, r.val, e.uid)]) ∧
         (planeSt s.dev p = 0 → otherOut s.dev p = true →
           (s.dev.tilth.batch.any (fun b => b.ring == r.val && b.atomic) = false →
             Acts [.hif] (.planeRetire r) s fun t => Served s.dev t.dev r e.uid 3 2 s.sn 0) ∧
           (s.dev.tilth.batch.any (fun b => b.ring == r.val && b.atomic) = true →
             ActsR tilthRegs [.tilth, .sw, .hif, .out, .twin] (.planeRetire r) s fun t => Served s.dev t.dev r e.uid 3 2 s.sn 0 ∧
               t.dev.tilth.batch = none ∧ t.dev.tilth.staged = [] ∧ t.dev.tilth.aborted = s.dev.tilth.aborted ++ [r.val])) ∧
         (planeSt s.dev p = 2 → Acts [.hif] (.planeRetire r) s fun t => Served s.dev t.dev r e.uid 0 0 s.sn 0)) ∧
       (servedBy s.dev r 0x61 = some e → 4 ≤ r.val → s.dev.tilth.batch.any (fun b => b.ring != r.val) = true →
         exec (.planeRestore r) s = .next s) ∧
       (servedBy s.dev r 0x61 = some e → r.val < 4 ∨ s.dev.tilth.batch.any (fun b => b.ring != r.val) = false →
         (planeSt s.dev p = 0 → Acts [.hif] (.planeRestore r) s fun t => Served s.dev t.dev r e.uid 0 0 s.sn 0) ∧
         (planeSt s.dev p = 2 → ActsR regs [.tilth, .sw, .hif, .out, .twin] (.planeRestore r) s fun t =>
           Taken s.dev t.dev r e.uid ∧ planeSt t.dev p = 3))) ∧
     (∀ (c : Instr) (beat : Nat), planeSt s.dev p = 0 → isStandby s.dev = false →
       ((c = .planeSlackRetire p ∧ beat = 0 ∧ (planeRec s.dev p).slackUp = false ∧
           (2 ≤ (planeRec s.dev p).lowRun ∨ 2048 ≤ rd s.dev F.GLB_PLANE_STATUS_SLACK p)) ∨
         (c = .beatErrorTrigger p ∧ beat = 1 ∧ (planeRec s.dev p).beatUp = false ∧ 2 ≤ (planeRec s.dev p).beatRun)) →
       let sl := rd s.dev F.GLB_PLANE_STATUS_SLACK p
       let ev : Ev := { typ := 0x45, sn := s.sn, p0 := p, p1 := if 2048 ≤ sl then 2 ^ 32 - 4096 + sl else sl, p2 := beat }
       (otherOut s.dev p = true → Acts [.sw, .hif] c s fun t => planeSt t.dev p = 0 ∧
         Raised s.dev t.dev [ev, { typ := 0x47, sn := s.sn, p0 := p, p1 := 0xFFFFFFFF }]) ∧
       (otherOut s.dev p = false → rd s.dev F.GLB_PLANE_CFG_AUTO_RETIRE = 0 → Acts [.sw, .hif] c s fun t =>
         planeSt t.dev p = 0 ∧ Raised s.dev t.dev [ev]) ∧
       (otherOut s.dev p = false → rd s.dev F.GLB_PLANE_CFG_AUTO_RETIRE = 1 → urgentPrep s.dev = false →
         ActsR regs [.tilth, .sw, .hif, .out, .twin] c s fun t => starts t ∧ Raised s.dev t.dev [ev])) ∧
     (∀ r' uid, s.dev.tilth.evac = some p.val → pageUses (active s.dev) p = false → pageUses (shadow s.dev) p = false →
       s.dev.sw.retireBy = [(p.val, r', uid)] → ActsR regs [.tilth, .sw, .hif, .out, .twin] .planeRetired s fun t =>
         planeSt t.dev p = 2 ∧ rd t.dev F.GLB_PLANE_STATUS_SLACK p = 0x7FF ∧ t.dev.tilth.evac = none ∧
         t.dev.sw.retireBy = [] ∧ Served s.dev t.dev r' uid 0 0 s.sn 0 ∧
         Raised s.dev t.dev [{ typ := 0x46, sn := s.sn, p0 := p }]) ∧
     (∀ r' uid ok, planeSt s.dev p = 3 → s.dev.sw.restoreBy = [(p.val, r', uid)] →
       ((planeRec s.dev p).restoreBad = true ∨ ok = false → ActsR regs [.tilth, .sw, .hif, .out, .twin] (.restoreCheckEnd p ok) s fun t =>
         planeSt t.dev p = 2 ∧ t.dev.sw.restoreBy = [] ∧ Served s.dev t.dev r' uid 3 0 s.sn 0) ∧
       ((planeRec s.dev p).restoreBad = false → ok = true → 16 ≤ (planeRec s.dev p).restore →
         ActsR regs [.tilth, .sw, .hif, .out, .twin] (.restoreCheckEnd p ok) s fun t =>
           planeSt t.dev p = 0 ∧ t.dev.sw.restoreBy = [] ∧ Served s.dev t.dev r' uid 0 0 s.sn 0))) ∧
  (∀ (s : State) (p u c : Nat) (us : List (Nat × Nat)), s.dev.pwr.core = true → p < 8 → planeSt s.dev p = 1 →
     s.dev.tilth.evac = some p → s.dev.tilth.released = true → s.dev.tilth.prep = none → s.dev.tilth.undo = false →
     s.dev.tilth.paused = false → s.dev.tilth.staged = [] → urgentWaits s.dev = false → s.dev.sw.retireBy = [] →
     evacUses s.dev p = (u, c) :: us →
     let pg := shadow s.dev
     let e := portOf u
     let i := (cenAt pg c e).toNat
     let g := (ingAt pg i c).toNat % 2048
     let freed := (dropUse (plan0 s.dev) c e).egr u (if wCs (egrAt pg u) = pCs (egrAt pg u) then egrD
       else let o := if wCs (egrAt pg u) = c then pCs (egrAt pg u) else wCs (egrAt pg u); egrMk o o)
     let stops (port side : Nat) : Prop :=
       ActsR (F.GLB_PLANE_STATUS_STATE.addr p :: tilthRegs) [.tilth, .sw, .hif, .out, .twin] .evacuationMove s fun t =>
         planeSt t.dev p = 0 ∧ t.dev.tilth.evac = none ∧ shadow t.dev = pg ∧ active t.dev = active s.dev ∧
         Raised s.dev t.dev [{ typ := 0x47, sn := s.sn, p0 := p, p1 := port, p2 := side }]
     (place s.dev freed i g e = none → if 3584 < uOut s.dev e ∧ uIn s.dev i ≤ 3584 then stops e 1 else stops i 0) ∧
     (∀ q, place s.dev freed i g e = some q →
       stops i 0 ∨ stops e 1 ∨
       ActsR tilthRegs [.tilth, .sw, .out, .twin] .evacuationMove s fun t =>
         active t.dev = active s.dev ∧ (∃ k, t.dev.tilth.prep = some k ∧ k.evac = true) ∧
         bitCount (occIn (active s.dev) i ||| occIn (shadow t.dev) i) ≤ 3584 ∧
         bitCount (occOut (active s.dev) e ||| occOut (shadow t.dev) e ||| frozenSlots s.dev e) ≤ 3584 ∧
         ∃ c', c' < 4096 ∧ planeSt s.dev (c' % 8) = 0 ∧ c' % 8 ≠ p ∧ pathAt (shadow t.dev) c' (i * 2048 + g) u ∧
           egrEn (egrAt (shadow t.dev) u) = true ∧
           (if wCs (egrAt pg u) = c then wCs (egrAt (shadow t.dev) u) = c' else pCs (egrAt (shadow t.dev) u) = c')))

/-! ### Protection, its trigger bus and Loess (chapters 7, 10 and 11) -/

/-- R255, R257, R258, R262: an accepted command of a 1+1 unidirectional group becomes the held command (CLEAR leaves none)
and is evaluated: a target other than the selected signal is decided for the sweep of R259 and the descriptor waits for it,
any other completes at once with RESULT the selected signal. FS under LO and MS under a request above MS complete with
BLOCKED, DETAIL 4. A timed command waits; at its sweep it enters with LATE where that applied, and one no longer acceptable,
or under a request of higher priority, completes with ABORTED, DETAIL 6. Where the manual leaves a reading open, the clauses
take the model's, log entries 97 and 154. -/
def Obligations.ProtectionCommandsEnter : Prop :=
  ∀ (s : State) (r : Fin 16) (e : QEnt) (ns pgid kind : Nat) (g : Group) (c : Instr), s.dev.pwr.core = true →
    groupOf s.dev pgid = some g → g.cfg.typ = 0 → g.del = none → g.pend = none → g.wait = [] →
    (∀ i ∈ g.inputs, i.up = false) → g.cfg.holdOff ≠ 0 → g.cfg.revert = true → g.lastReq ≠ 0xB → g.lastReq ≠ 9 →
    decides s.dev = true → mirrors s.dev = false → kind < 4 →
    let sig := if kind ≤ 1 then 0 else 1
    let req := if kind = 1 then 0xF else if kind = 2 then 0xE else if kind = 3 then 7 else 0
    let enters (c : Instr) (st ring uid : Nat) : Prop := Acts [.prot, .hif] c s fun t =>
      (∀ q, q ≠ pgid → groupOf t.dev q = groupOf s.dev q) ∧
      ∃ g', groupOf t.dev pgid = some g' ∧ g'.cfg = g.cfg ∧ g'.r = g.r ∧ g'.timed = (if c = .timedCommandEntry (BitVec.ofNat 17 pgid) ns then none else g.timed) ∧
        g'.cmd = (if kind = 0 then none else some (kind, sig)) ∧ g'.lastReq = req ∧
        (sig ≠ g.r → g'.pend = some ⟨sig, applyAt s.dev s.sn ns, req⟩ ∧ Taken s.dev t.dev ring uid) ∧
        (sig = g.r → g'.pend = none ∧ Served s.dev t.dev ring uid st 0 s.sn (BitVec.ofNat 64 g.r))
    (((kind = 0 ∧ c = .clear r ns) ∨ (kind = 1 ∧ c = .lockoutOfProtection r ns) ∨ (kind = 2 ∧ c = .forcedSwitch r ns) ∨
        (kind = 3 ∧ c = .manualSwitch r ns)) →
      servedBy s.dev r 0x12 = some e → dF e.raw 16 20 4 = kind → dF e.raw 16 0 17 = pgid → reservedAt e.raw = none →
      (2 ≤ kind → dF e.raw 16 24 4 = 1) →
      (cmdOk g kind = true → timedOf e.raw = false → enters c 0 r e.uid) ∧
      (cmdOk g kind = true → timedOf e.raw = true → g.timed = none → Acts [.prot, .hif] c s fun t =>
        Taken s.dev t.dev r e.uid ∧ (∀ q, q ≠ pgid → groupOf t.dev q = groupOf s.dev q) ∧
        ∃ sg, groupOf t.dev pgid = some { g with
          timed := some (kind, sg, r.val, e.uid, if acceptable s.dev s.sn (targetOf e.raw) = true then targetOf e.raw else earliest s.dev s.sn,
            !acceptable s.dev s.sn (targetOf e.raw)) }) ∧
      ((kind = 2 ∧ (∃ x, g.cmd = some (1, x)) ∨ kind = 3 ∧ 7 < g.lastReq) → Acts [.hif] c s fun t =>
        Served s.dev t.dev r e.uid 3 4 s.sn 0)) ∧
    (∀ ring uid x late, pgid < 2 ^ 17 → g.timed = some (kind, sig, ring, uid, x, late) → snDue x s.sn = true →
      (cmdOk g kind = true → outranked g kind = false →
        enters (.timedCommandEntry (BitVec.ofNat 17 pgid) ns) (if late = true then 1 else 0) ring uid) ∧
      (cmdOk g kind = false ∨ outranked g kind = true → Acts [.prot, .hif] (.timedCommandEntry (BitVec.ofNat 17 pgid) ns) s fun t =>
        groupOf t.dev pgid = some { g with timed := none } ∧ Served s.dev t.dev ring uid 0x13 6 s.sn 0))

/-- R253, R256, R258 to R260, R272: decisions of a 1+1 group. At its sweep a decision sets SEL of every grain of the unit (a
held grain keeps it pending), selects its signal, raises PROT_SWITCH and counts it; hold-off over raises SF of the working
signal and decides for the protect signal; WTR over decides for signal 0. No other group and no other grain changes. Where
the manual leaves a reading open, the clauses take the model's, log entries 97 and 153. -/
def Obligations.DecisionsApply : Prop :=
  ∀ (s : State) (pgid : BitVec 17) (g : Group), s.dev.pwr.core = true → groupOf s.dev pgid.toNat = some g → g.cfg.typ = 0 →
    g.del = none → g.cfg.tid = none → decides s.dev = true → mirrors s.dev = false →
    let others (t : State) : Prop := ∀ q, q ≠ pgid.toNat → groupOf t.dev q = groupOf s.dev q
    (∀ p, g.pend = some p → snDue p.x s.sn = true → g.wait = [] → g.fop = false → g.lsel = none →
      ActsR [F.GLB_PROT_SWCNT_SWITCHES.addr 0] [.prot, .sw, .hif, .pm] (.decisionApply pgid) s fun t =>
        others t ∧ (∃ g', groupOf t.dev pgid.toNat = some g' ∧ g'.cfg = g.cfg ∧ g'.r = p.sig ∧
          g'.switches = g.switches + (if p.sig = g.r then 0 else 1)) ∧
        (∀ u ∈ g.cfg.unit, ((selAt s.dev u).hold = false → (selAt t.dev u).sel = (p.sig == 1) ∧ (selAt t.dev u).selPend = none) ∧
          ((selAt s.dev u).hold = true → (selAt t.dev u).sel = (selAt s.dev u).sel ∧ (selAt t.dev u).selPend = some (p.sig == 1))) ∧
        (∀ u, u ∉ g.cfg.unit → selAt t.dev u = selAt s.dev u) ∧
        t.dev.sw = { s.dev.sw with sel := t.dev.sw.sel } ∧
        (p.sig = g.r → t.dev.hif = s.dev.hif ∧ t.dev.regs = s.dev.regs) ∧
        (p.sig ≠ g.r → rd t.dev F.GLB_PROT_SWCNT_SWITCHES = satAdd 32 (rd s.dev F.GLB_PROT_SWCNT_SWITCHES) 1 ∧
          Raised s.dev t.dev [{ typ := 0x50, sn := s.sn, p0 := pgid.toNat, p1 := g.r + 16 * p.sig + 256 * p.req, p2 := p.x.toNat }])) ∧
    (∀ ns i0 i1 t0, g.inputs = [i0, i1] → i0.up = false → i1.timer = some t0 → i1.cond ≠ .none → g.cfg.holdOff ≠ 0 →
      holdOffSweeps g.cfg.holdOff ≤ (s.sn - t0).toNat → defectSource s.dev g 1 = .sf → g.cfg.auto = true → g.cmd = none →
      g.r = 0 → g.pend = none → Acts [.prot] (.holdOffExpiry pgid 1 ns) s fun t =>
        others t ∧ ∃ g', groupOf t.dev pgid.toNat = some g' ∧ g'.cfg = g.cfg ∧ g'.r = 0 ∧ g'.lastReq = 0xB ∧ g'.lastSig = 1 ∧
          g'.pend = some ⟨1, applyAt s.dev s.sn ns, 0xB⟩ ∧ ∃ i, g'.inputs[1]? = some i ∧ i.up = true ∧ i.timer = none ∧ i.cond = .sf) ∧
    (∀ ns w, g.wtr = some w → wtrSweeps g.cfg.wtr ≤ (s.sn - w.2).toNat → (∀ i ∈ g.inputs, i.up = false) → g.cfg.holdOff ≠ 0 →
      g.cmd = none → g.cfg.revert = true → g.lastReq = 5 → g.pend = none → g.r ≠ 0 → Acts [.prot] (.wtrExpiry pgid ns) s fun t =>
        others t ∧ ∃ g', groupOf t.dev pgid.toNat = some g' ∧ g'.cfg = g.cfg ∧ g'.r = g.r ∧ g'.wtr = none ∧ g'.lastReq = 0 ∧
          g'.pend = some ⟨0, applyAt s.dev s.sn ns, 0⟩)

/-- R261, R266 to R269: signalling. A valid message of one entry gives the group its remote request and BSIG, and ends
dPSC_LOSS; a message whose CRC fails or whose VER is not 1 counts and changes no group, and an invalid one does nothing;
dPSC_LOSS and dPSC_FOP are declared with their events; the bridge hold's end frees the bridge at the next sweep. Where the
manual leaves a reading open, the clauses take the model's, log entries 94 and 156. -/
def Obligations.SignallingChannel : Prop :=
  ∀ (s : State) (pgid : BitVec 17) (g : Group), s.dev.pwr.core = true → groupOf s.dev pgid.toNat = some g → g.del = none →
    mirrors s.dev = false →
    let queue (n : Nat) := [F.FRM_PSC_QUEUE_MAX.addr n]
    let others (t : State) : Prop := ∀ q, q ≠ pgid.toNat → groupOf t.dev q = groupOf s.dev q
    (∀ (lane : Fin 128) (m : BitVec 80) (ns tx : Nat), g.cfg.typ = 1 → g.cfg.tx = some tx →
      let h : BitVec 64 := m.extractLsb' 16 64
      let req := (m.extractLsb' 54 4).toNat
      let rs := (m.extractLsb' 50 4).toNat
      let bs := (m.extractLsb' 46 4).toNat
      exec (.pscMessage lane none ns) s = .next s ∧ exec (.pscMessage lane (some 0) ns) s = .next s ∧
      (m ≠ 0 → crc16 (msbBits h) ≠ m.extractLsb' 0 16 → ActsR [F.FRM_PSC_STATUS_CRC_ERR.addr lane] [.pm] (.pscMessage lane (some m) ns) s fun t =>
        rd t.dev F.FRM_PSC_STATUS_CRC_ERR lane = satAdd 16 (rd s.dev F.FRM_PSC_STATUS_CRC_ERR lane) 1) ∧
      (crc16 (msbBits h) = m.extractLsb' 0 16 → m.extractLsb' 76 4 ≠ 1#4 →
        ActsR [F.FRM_PSC_STATUS_UNKNOWN.addr lane] [.pm] (.pscMessage lane (some m) ns) s fun t =>
          rd t.dev F.FRM_PSC_STATUS_UNKNOWN lane = satAdd 16 (rd s.dev F.FRM_PSC_STATUS_UNKNOWN lane) 1) ∧
      (crc16 (msbBits h) = m.extractLsb' 0 16 → m.extractLsb' 76 4 = 1#4 → m.getLsbD 75 = true → m.extractLsb' 58 17 = pgid →
        m.getLsbD 45 = false → g.cfg.rx = some lane.val → req ∈ [0xF, 0xE, 0xD, 0xB, 9, 7, 5, 0] → rs ≤ 1 → bs ≤ 1 →
        g.loss = false → g.fop = false → ActsR (queue tx) [.prot, .pm] (.pscMessage lane (some m) ns) s fun t =>
          others t ∧ ∃ g', groupOf t.dev pgid.toNat = some g' ∧ g'.cfg = g.cfg ∧ g'.r = g.r ∧ g'.remote = some (req, rs, bs) ∧ g'.loss = false)) ∧
    (∀ ns tx, g.cfg.typ = 1 → g.cfg.tx = some tx → g.loss = false → ActsR (queue tx) [.prot, .hif] (.dpscLoss pgid ns) s fun t =>
      others t ∧ Raised s.dev t.dev [{ typ := 0x51, sn := s.sn, p0 := pgid.toNat, p1 := 256 }] ∧
      ∃ g', groupOf t.dev pgid.toNat = some g' ∧ g'.loss = true ∧ g'.cfg = g.cfg ∧ g'.r = g.r) ∧
    (∀ x, g.cfg.typ = 1 → g.fop = false → g.remote = some x → x.2.2 ≠ g.r → Acts [.prot, .hif] (.dpscFop pgid) s fun t =>
      others t ∧ groupOf t.dev pgid.toNat = some { g with fop := true } ∧
      Raised s.dev t.dev [{ typ := 0x51, sn := s.sn, p0 := pgid.toNat, p1 := 257 }]) ∧
    (g.bridgeHold = true → Acts [.prot] (.bridgeHoldExpiry pgid) s fun t =>
      others t ∧ groupOf t.dev pgid.toNat = some { g with bridgeHold := false, bridgeDrop := true })

/-- R274 to R285: the trigger bus. While the bus runs, each cycle drives the clock and, in cycle 0, the frame sync of the
enabled port and moves the frame counter on; its word is answered by Table 11-3 and counted, and an accepted one sets COND
of its entry; an entry whose refresh has lapsed has COND none, with its event; a write of an entry before the lock sets its
configuration fields and COND none. Where the manual leaves a reading open, the clauses take the model's, log entry 155. -/
def Obligations.TriggerBus : Prop :=
  ∀ (s : State), s.dev.pwr.core = true →
    (∀ (cyc : Fin 64) (w : BitVec 16) (ms ns : Nat), s.dev.prot.stopped = false → cyc.val < frameLen s.dev →
      s.dev.prot.lastAck.length = 2 →
      (if s.dev.prot.cyc = 0 ∨ cyc.val < s.dev.prot.cyc then rd s.dev F.PTB_CFG_P0_EN = 1 ∧ rd s.dev F.PTB_CFG_P1_EN = 0
        else s.dev.prot.on = [true, false]) →
      let pins (t : State) (a : BitVec 2) : Prop :=
        Sent s.dev t.dev [.ptb 0 true (cyc.val == 0) a, .ptb 1 false false 0] ∧ t.dev.prot.cyc = (cyc.val + 1) % frameLen s.dev
      let code := (w.extractLsb' 13 3).toNat
      let i := cyc.val * 64 + (w.extractLsb' 7 6).toNat
      let bad := oddParity w = false ∨ (w.extractLsb' 1 6).toNat ≠ cyc.val ∨ 4 ≤ code
      let ref := rd s.dev F.PTB_TBL_EN i = 0 ∨ (code = 2 ∧ rd s.dev F.PTB_TBL_SD_EN i = 0)
      let c : Instr := .ptbTrigger cyc w 0 ms ns
      (code = 0 → Acts [.out, .prot] c s fun t => pins t 0) ∧
      (code ≠ 0 → bad → ActsR [F.PTB_PORT_ERR.addr 0] [.out, .prot, .hif] c s fun t => pins t 3 ∧
        rd t.dev F.PTB_PORT_ERR = satAdd 32 (rd s.dev F.PTB_PORT_ERR) 1) ∧
      (code ≠ 0 → ¬ bad → ref → ActsR [F.PTB_PORT_REF.addr 0] [.out, .prot] c s fun t => pins t 2 ∧
        rd t.dev F.PTB_PORT_REF = satAdd 32 (rd s.dev F.PTB_PORT_REF) 1) ∧
      (code ≠ 0 → ¬ bad → ¬ ref → groupOf s.dev (rd s.dev F.PTB_TBL_PGID i) = none →
        ActsR [F.PTB_PORT_ACC.addr 0, F.PTB_TBL_COND.addr i] [.out, .prot, .hif, .pm] c s fun t =>
          pins t 1 ∧ rd t.dev F.PTB_PORT_ACC = satAdd 32 (rd s.dev F.PTB_PORT_ACC) 1 ∧
          rd t.dev F.PTB_TBL_COND i = code - 1 ∧
          Raised s.dev t.dev (if rd s.dev F.PTB_TBL_COND i = code - 1 then [] else [{ typ := 0x53, sn := s.sn, p0 := i, p1 := code - 1 }]))) ∧
    (∀ (i : Fin 4096) (ns : Nat), groupOf s.dev (rd s.dev F.PTB_TBL_PGID i) = none → rd s.dev F.PTB_TBL_COND i ≠ 0 →
      rd s.dev F.PTB_TBL_REFRESH i ≠ 0 → ActsR [F.PTB_TBL_COND.addr i] [.hif] (.ptbStale i ns) s fun t =>
        rd t.dev F.PTB_TBL_COND i = 0 ∧ rd t.dev F.PTB_TBL_PGID i = rd s.dev F.PTB_TBL_PGID i ∧ rd t.dev F.PTB_TBL_EN i = rd s.dev F.PTB_TBL_EN i ∧
        Raised s.dev t.dev [{ typ := 0x52, sn := s.sn, p0 := i }, { typ := 0x53, sn := s.sn, p0 := i, p1 := 0 }]) ∧
    (∀ (i : Fin 4096) (v : W32) (ns : Nat),
      (s.lock = true → exec (.ptbTblWrite i v ns) s = .next s) ∧
      (s.lock = false → rd s.dev F.PTB_TBL_COND i = 0 → ActsR [F.PTB_TBL_COND.addr i] [] (.ptbTblWrite i v ns) s fun t =>
        rdWord t.dev (F.PTB_TBL_PGID.addr i) = v &&& 0x07FFFFFF ∧ rd t.dev F.PTB_TBL_COND i = 0))

/-- R167, R168, R171, R176, R177, R246, R249, R252: groups and the pool. A 1+1 group of one grain that has a protect source
is created with signal 0 selected; PG_DELETE decides signal 0 and MI 0 for the sweep of R259 and ends what waits; blocks of
an ended allocation return once no word of it is held, and its descriptor completes; a copy or client aligns once, on two
measurements that agree and within its budget, with H; a pair aligns on the one offset that has qualified, within its
budget, and is lost with its event. Where the manual leaves a reading open, the clauses take the model's, log entries 137
and 182. -/
def Obligations.GroupsAndPool : Prop :=
  ∀ (s : State), s.dev.pwr.core = true → mirrors s.dev = false →
    (∀ (r : Fin 16) (e : QEnt) (list : List W32) (ns : Nat), servedBy s.dev r 0x10 = some e → reservedAt e.raw = none →
      let pgid := dF e.raw 16 0 17
      let u := dF e.raw 36 0 20
      dF e.raw 16 17 2 = 0 → dB e.raw 16 19 = false → dF e.raw 16 22 7 = 0 → dB e.raw 32 19 = false →
      dF e.raw 24 0 14 ≤ 10000 → dF e.raw 24 0 14 ≠ 0 → dF e.raw 24 14 10 ≤ 720 → decides s.dev = true →
      isGrain u = true → portOf u < 128 → unitInRange s.dev u = true → inGroup s.dev u = false →
      egrEn (egrAt (active s.dev) u) = true → wCs (egrAt (active s.dev) u) ≠ pCs (egrAt (active s.dev) u) →
      (groupOf s.dev pgid = none → Acts [.prot, .hif] (.pgCreate r list ns) s fun t =>
        (∀ q, q ≠ pgid → groupOf t.dev q = groupOf s.dev q) ∧ Served s.dev t.dev r e.uid 0 0 s.sn 0 ∧
        ∃ g, groupOf t.dev pgid = some g ∧ g.r = 0 ∧ g.cmd = none ∧ g.pend = none ∧ g.cfg.typ = 0 ∧ g.cfg.unit = [u] ∧
          g.cfg.revert = dB e.raw 16 20 ∧ g.cfg.auto = dB e.raw 16 21 ∧ g.cfg.holdOff = dF e.raw 24 0 14 ∧ g.cfg.wtr = dF e.raw 24 14 10) ∧
      ((groupOf s.dev pgid).isSome = true → Acts [.hif] (.pgCreate r list ns) s fun t =>
        Served s.dev t.dev r e.uid 0x12 (16 + 256 * 4) s.sn 0)) ∧
    (∀ (r : Fin 16) (e : QEnt) (ns : Nat) (g : Group), servedBy s.dev r 0x11 = some e → reservedAt e.raw = none →
      groupOf s.dev (dF e.raw 16 0 17) = some g → g.del = none → g.wait = [] → g.timed = none →
      Acts [.prot, .hif] (.pgDelete r ns) s fun t => Taken s.dev t.dev r e.uid ∧
        groupOf t.dev (dF e.raw 16 0 17) = some { g with
          wait := [], timed := none, cmd := none, wtr := none, lsel := none, pend := some ⟨0, applyAt s.dev s.sn ns, 0⟩,
          pendMi := some (false, applyAt s.dev s.sn ns), del := some (r.val, e.uid) }) ∧
    (∀ owner a w, s.dev.cli.loess.find? (fun a => a.owner == owner && a.ended) = some a → a.by' = some w →
      let regs := (List.range 4).map fun q => F.MAP_LOESS_QSTAT_FREE_BLK.addr q
      let back (t : State) : Prop := t.dev.cli.loess = s.dev.cli.loess.erase a ∧
        ∀ q ∈ a.quads, rd t.dev F.MAP_LOESS_QSTAT_FREE_BLK q = (1228 - quadBlocks t.dev.cli.loess q) % 2 ^ 13
      (s.dev.cli.drain.any (fun x => x.2.1 == owner) = true → exec (.blockReturn owner) s = .next s) ∧
      (s.dev.cli.drain.any (fun x => x.2.1 == owner) = false →
        (w.1 ≠ mirrorRing → ActsR regs [.cli, .hif] (.blockReturn owner) s fun t => back t ∧ Served s.dev t.dev w.1 w.2 0 0 s.sn 0) ∧
        (w.1 = mirrorRing → ActsR regs [.cli, .hif, .twin, .out] (.blockReturn owner) s fun t => back t ∧
          t.dev.twin.cfgWait = s.dev.twin.cfgWait.filter fun x => x.2 != w.2))) ∧
    (∀ (tid : BitVec 19) (k : Fin 2) (prev arr : List Nat),
      (∀ a, s.dev.cli.loess.find? (fun a => a.owner == clientOwner tid.toNat && !a.ended) = some a →
        let at' (l : List Nat) : List (Nat × Int) := ((a.blk.map (·.1)).zip l).map fun x => (x.1, 10 * (x.2 : Int))
        (∀ y, tfind s.dev.cli.lanesAl tid.toNat = none → (∀ x ∈ a.blk, dLos s.dev x.1 = false ∧ dLol s.dev x.1 = false) →
          arr.length = a.blk.length → measureOk s.dev (at' prev) (at' arr) = true →
          acquire s.dev (at' arr) a.d16 a.m = some y → Acts [.cli, .hif] (.loessAligned tid k true ⟨prev, arr⟩) s fun t =>
            tfind t.dev.cli.lanesAl tid.toNat = some { h := y.1, rel := y.2, s := 0, n := s.sn } ∧ t.dev.cli.loess = s.dev.cli.loess ∧
            Raised s.dev t.dev [{ typ := 0x30, sn := s.sn, p0 := tid.toNat, p1 := 1, p2 := y.1 }]) ∧
        (measureOk s.dev (at' prev) (at' arr) = false ∨ acquire s.dev (at' arr) a.d16 a.m = none →
          exec (.loessAligned tid k true ⟨prev, arr⟩) s = .next s)) ∧
      (∀ t0 a, tribOf s.dev tid.toNat = some t0 → t0.cfg.role = 0 → copyMulti s.dev t0 k = true → t0.al k = none →
        (∀ n ∈ copyLanes s.dev t0 k, effCond s.dev n ≠ .sf ∧ rd s.dev F.FRM_RX_STATUS_SN_LOCK (subst s.dev n) = 1) →
        acquireCopy s.dev s.sn t0 k = some a → Acts [.cli, .hif] (.loessAligned tid k false ⟨prev, arr⟩) s fun t =>
          tribOf t.dev tid.toNat = some (t0.setAl k (some a)) ∧
          Raised s.dev t.dev [{ typ := 0x30, sn := s.sn, p0 := tid.toNat, p1 := 2 * k.val, p2 := a.h }]) ∧
      (∀ (x y : Nat) (lo hi : Int) (d16 m : Nat), lo ≤ hi → (d16 : Int) * 1024 < hi - lo + 100 * m →
        acquire s.dev [(x, lo), (y, hi)] d16 m = none)) ∧
    (∀ (pgid : BitVec 17) (g : Group), groupOf s.dev pgid.toNat = some g →
      let ok := g.pairRun.zipIdx.filter fun x => decide (4 ≤ x.1)
      (g.pair ≠ .off → g.pair ≠ .aligned →
        (ok = [] → exec (.loessPairAligned pgid () ()) s = .next s) ∧
        (2 ≤ ok.length → Acts [.prot] (.loessPairAligned pgid () ()) s fun t =>
          groupOf t.dev pgid.toNat = some { g with pair := .ambiguous }) ∧
        (∀ c i y, ok = [(c, i)] → pairGap g ((i : Int) - pairK g) = some y → y.1.natAbs ≤ g.cfg.d16 * 1024 →
          Acts [.prot, .hif] (.loessPairAligned pgid () ()) s fun t =>
            (∃ hw hp, groupOf t.dev pgid.toNat = some { g with
              pair := .aligned, pairDiff := y.1, pairOff := (i : Int) - pairK g, pairRun := [], pairBad := 0, heldW := hw, heldP := hp }) ∧
            Raised s.dev t.dev [{ typ := 0x31, sn := s.sn, p0 := pgid.toNat, p1 := y.1.natAbs / 10, p2 := if 0 < y.1 then 0 else 1 }])) ∧
      (g.pair = .aligned →
        (16 ≤ g.pairBad ∨ g.cfg.d16 * 1024 < g.pairDiff.natAbs → Acts [.prot, .hif] (.loessPairLost pgid ()) s fun t =>
          groupOf t.dev pgid.toNat = some { g with pair := .search, heldW := [], heldP := [], pairRun := [], pairBad := 0 } ∧
          Raised s.dev t.dev [{ typ := 0x32, sn := s.sn, p0 := pgid.toNat, p1 := if 16 ≤ g.pairBad then 1 else 0 }]) ∧
        (g.pairBad < 16 → g.pairDiff.natAbs ≤ g.cfg.d16 * 1024 → exec (.loessPairLost pgid ()) s = .next s)))

/-! ### Twin operation (chapter 12) -/

/-- R293 to R298, R547: the role latch and the roles. Heartbeat loss makes the device FAILED, but for a DISABLED device with
a clear latch; a yield clears the latch and makes an active a DIVERGED standby; TWN_CFG.EN moves between DISABLED and
UNPAIRED or ACTIVE by the latch, which it keeps, and is ignored once the set-up lock is set; an UNPAIRED device claims after
10 ms with UNIT 0, and after 20 ms without a heartbeat with UNIT 1. -/
def Obligations.RolesChangeAsTheTableStates : Prop :=
  ∀ (s : State),
    let st := F.TWN_STATUS_ROLE.addr 0
    let tim := F.TIM_STATUS_SEL.addr 0
    let cfg := F.TWN_CFG_EN.addr 0
    let tw := s.dev.twin
    (s.dev.pwr.hbOff = false → tw.role ≠ .failed → ¬ (tw.role = .disabled ∧ tw.latch = false) →
      ActsR [st, tim] [.twin, .tim, .hif, .prot] .heartbeatLoss s fun t =>
        t.dev.twin = { tw with role := .failed, latch := false, failOut := true, promoting := none, gpio := none } ∧
        t.dev.prot = { s.dev.prot with stopped := false } ∧
        rd t.dev F.TWN_STATUS_LAST_CAUSE = 6 ∧ rd t.dev F.TWN_STATUS_COUPLING = 0) ∧
    (tw.role = .disabled → tw.latch = false → exec .heartbeatLoss s = .next s) ∧
    (tw.latch = false → exec .yield s = .next s) ∧
    (tw.latch = true → tw.role = .active → tw.swapHalf = false → ActsR [st, tim] [.twin, .tim, .hif, .out] .yield s fun t =>
      t.dev.twin.role = .standby ∧ t.dev.twin.latch = false ∧ t.dev.twin.resync = none ∧ rd t.dev F.TWN_STATUS_COUPLING = 1 ∧
      rd t.dev F.TWN_STATUS_LAST_CAUSE = 4 ∧ rd t.dev F.TWN_STATUS_MATE_ACTIVE = 1 ∧
      ∃ e ∈ t.dev.hif.evq, e.typ = 0x65 ∧ e.sn = s.sn ∧ e.p0 = 5) ∧
    (s.dev.pwr.core = true →
      (s.lock = true → ∀ en : Bool, exec (.twnCfgEn en) s = .next s) ∧
      (s.lock = false →
        (rd s.dev F.TWN_CFG_EN = 0 → tw.role = .disabled → ActsR [cfg] [.twin] (.twnCfgEn true) s fun t =>
          rd t.dev F.TWN_CFG_EN = 1 ∧ t.dev.twin = { tw with role := if tw.latch = true then .active else .unpaired }) ∧
        (rd s.dev F.TWN_CFG_EN = 1 → tw.role = .unpaired ∨ tw.role = .active → ActsR [cfg] [.twin] (.twnCfgEn false) s fun t =>
          rd t.dev F.TWN_CFG_EN = 0 ∧ t.dev.twin = { tw with role := .disabled }) ∧
        (rd s.dev F.TWN_CFG_EN = 1 → tw.role = .standby → ActsR [cfg, st, tim] [.twin, .tim, .hif, .prot] (.twnCfgEn false) s fun t =>
          rd t.dev F.TWN_CFG_EN = 0 ∧ t.dev.twin = { tw with role := .disabled, promoting := none, gpio := none } ∧
          t.dev.prot = { s.dev.prot with stopped := false } ∧ rd t.dev F.TWN_STATUS_COUPLING = 0) ∧
        (rd s.dev F.TWN_CFG_EN = 1 → tw.role = .failed → ActsR [cfg] [] (.twnCfgEn false) s fun t => rd t.dev F.TWN_CFG_EN = 0)) ∧
      (∀ (q : Nat) (alive : Bool),
        let may := if rd s.dev F.TWN_CFG_UNIT = 0 then 10 ≤ q else 20 ≤ q ∧ alive = false
        (tw.role = .unpaired → may → ActsR [st, tim] [.twin, .tim, .hif] (.startUpClaim q alive) s fun t =>
          t.dev.twin = { tw with role := .active, latch := true } ∧ rd t.dev F.TWN_STATUS_LAST_CAUSE = 1 ∧
          (rd s.dev F.TIM_STATUS_SEL ≠ 8 → Raised s.dev t.dev [{ typ := 0x60, sn := s.sn }])) ∧
        (tw.role ≠ .unpaired ∨ ¬ may → exec (.startUpClaim q alive) s = .next s)))

/-- R313, R315 to R318, R321: mate death, promotion and role swap. A standby that declares mate death freezes its ports,
stops the trigger bus, takes the lanes that fail, ends its coupling and raises TWIN_PROMOTED; its promotion sets the latch,
releases the ports and holds the grains of those lanes; the hold timeout that the promotion found ends every promotion hold;
an active that sees TW_FAIL_IN goes on uncoupled. A role swap is BLOCKED unless the standby is in LOCKSTEP with its link up
and no failing lane, and otherwise tells its T; at T the standby becomes active, and at T + 1 the old active a standby in
LOCKSTEP, and the descriptor completes. Where the manual leaves a reading open, the clauses take the model's, log entries 44
and 54. -/
def Obligations.PromotionsAndRoleSwaps : Prop :=
  ∀ (s : State), s.dev.pwr.core = true →
    let st := F.TWN_STATUS_ROLE.addr 0
    let tim := F.TIM_STATUS_SEL.addr 0
    let tw := s.dev.twin
    (∀ (pin : Bool) (ns : Nat), tw.role = .standby → s.dev.pwr.hbOff = false →
        ¬ (s.dev.pwr.st = .entry ∧ s.dev.pwr.agreed = true) → ticking s.dev = true → tw.promoting = none →
      ActsR (st :: evalRegs) [.twin, .hif, .prot, .sw, .tilth, .out] (.mateDeath pin ns) s fun t =>
        t.dev.twin.promoting = some (if pin then 2 else 3, (List.range 128).filter (sigFlag s.dev)) ∧ t.dev.prot.stopped = true ∧
        t.dev.twin.role = .standby ∧ rd t.dev F.TWN_STATUS_COUPLING = 0 ∧ active t.dev = active s.dev ∧
        Raised s.dev t.dev [{ typ := 0x68, sn := s.sn, p0 := if pin then 2 else 3, p1 := s.sn.toNat }]) ∧
    (∀ ns, tw.role = .active → ActsR [st] [.twin, .hif] (.mateDeath true ns) s fun t =>
      t.dev.twin.role = .active ∧ t.dev.twin.latch = tw.latch ∧ t.dev.twin.resync = none ∧ rd t.dev F.TWN_STATUS_COUPLING = 0 ∧
      Raised s.dev t.dev [{ typ := 0x69, sn := s.sn }]) ∧
    (∀ cause ls, tw.role = .standby → tw.promoting = some (cause, ls) → cause < 8 → ActsR [st, tim] [.twin, .tim, .hif, .prot, .sw] .promotion s fun t =>
      t.dev.twin = { tw with role := .active, latch := true, promoting := none, gpio := none,
                              holdTmo := rd s.dev F.TWN_CFG_HOLD_TMO } ∧
      rd t.dev F.TWN_STATUS_LAST_CAUSE = cause ∧ t.dev.prot = { s.dev.prot with stopped := false } ∧
      t.dev.sw = { s.dev.sw with sel := t.dev.sw.sel } ∧
      (∀ u, egrEn (egrAt (active s.dev) u) = true → ls.contains (portOf u) = true → (selAt t.dev u).promo = true) ∧
      (∀ u, ls.contains (portOf u) = false → selAt t.dev u = selAt s.dev u)) ∧
    (tw.holdTmo ≠ 0 → Acts [.sw] .holdTmoExpiry s fun t =>
      t.dev.sw = { s.dev.sw with sel := t.dev.sw.sel } ∧ ∀ u, (selAt t.dev u).promo = false) ∧
    (tw.holdTmo = 0 → exec .holdTmoExpiry s = .next s) ∧
    (∀ (r : Fin 16) (e : QEnt), servedBy s.dev r 0x70 = some e → reservedAt e.raw = none →
      let ready := tw.role = .active ∧ linkUp s.dev = true ∧ coupling s.dev = 3 ∧ (∀ n < 128, sigFlag s.dev n = false)
      (¬ ready → Acts [.hif] (.twinRoleSwap r) s fun t => Served s.dev t.dev r e.uid 3 5 s.sn 0) ∧
      (ready → s.dev.tilth.prep = none → s.dev.tilth.batch = none → tw.swap = none → Acts [.twin, .hif, .out] (.twinRoleSwap r) s fun t =>
        let x := fixTarget s.dev s.sn (timedOf e.raw) (targetOf e.raw)
        Taken s.dev t.dev r e.uid ∧ t.dev.twin = queuesOf { tw with swap := some (r.val, e.uid, x.1, x.2) } t.dev.twin ∧
        SentRec s.dev t.dev [(0xC, [5, x.1.toNat])]) ∧
      (ready → s.dev.tilth.prep.isSome = true ∨ s.dev.tilth.batch.isSome = true → exec (.twinRoleSwap r) s = .next s)) ∧
    (∀ x, tw.role = .active → tw.swap = some x → snDue x.2.2.1 s.sn = true → Acts [.twin] .roleSwapTick s fun t =>
      t.dev.twin = { tw with swapHalf := true }) ∧
    (tw.role = .standby → tw.swap = none → follows s.dev = true → coupling s.dev = 3 →
      ActsR [st, tim] [.twin, .tim, .hif] .roleSwapTick s fun t =>
        t.dev.twin = { tw with role := .active, latch := true, diverged := false } ∧ rd t.dev F.TWN_STATUS_LAST_CAUSE = 5 ∧
        rd t.dev F.TWN_STATUS_COUPLING = 3) ∧
    (∀ r uid x late, tw.swap = some (r, uid, x, late) → tw.swapHalf = true → snDue (x + 1) s.sn = true → tw.role = .active →
      ActsR [st, tim] [.twin, .tim, .hif] .roleSwapLatchClear s fun t =>
        t.dev.twin.role = .standby ∧ t.dev.twin.latch = false ∧ t.dev.twin.swap = none ∧ t.dev.twin.swapHalf = false ∧
        rd t.dev F.TWN_STATUS_COUPLING = 3 ∧ rd t.dev F.TWN_STATUS_LAST_CAUSE = 5 ∧
        Served s.dev t.dev r uid (if late = true then 1 else 0) 0 x 0)

/-- R302 to R304, R306, R309, R311: the link and pairing. A paired link whose lanes agree comes up and shows in TWN_STATUS
with its delay, and one that goes down ends a standby's coupling in DIVERGED; PAIR is answered with this device's own record
and its response; pairing succeeds or fails by R303's conditions, the twin that is not active becoming a standby that loads
the active's SN; SWEEP gives delay and offset; SIG sets the failing flag of every compared lane that mismatches and clears
that of a lane not compared. Where the manual leaves a reading open, the clauses take the model's, log entries 41, 42, 51,
152, 158 and 159. -/
def Obligations.TwinsPairAndCompare : Prop :=
  ∀ (s : State), s.dev.pwr.core = true →
    let st := F.TWN_STATUS_ROLE.addr 0
    let ls := F.TWN_LINK_STATUS_DELAY.addr 0
    let tim := F.TIM_STATUS_SEL.addr 0
    let tw := s.dev.twin
    let pairs := tw.role ≠ .disabled ∧ tw.role ≠ .failed ∧ linkUp s.dev = false ∧ twInFrame s.dev = true
    let unit := rdB s.dev F.TWN_CFG_UNIT
    let ownPair (n : BitVec 64) : Nat × List Nat := (1, [unit.toNat, Config.revLtr.toNat + 16 * Config.revDig.toNat,
      rd s.dev F.CTL_CORE_STATUS_SVN, calPolicy s.dev, n.toNat])
    (∀ delay, tw.paired = true → linkUp s.dev = false → twAgree s.dev = true →
      (tw.role = .standby → ActsR [st, ls, tim] [.twin, .tim, .hif] (.twinLinkUp delay) s fun t =>
        rd t.dev F.TWN_STATUS_LINK = 1 ∧ rd t.dev F.TWN_LINK_STATUS_DELAY = delay.toNat ∧
        t.dev.twin = { tw with sigGot := true, noSweep := 0 } ∧
        (xoGood s.dev = true → rd t.dev F.TIM_STATUS_SEL = 8) ∧ ∃ es, Raised s.dev t.dev ({ typ := 0x64, sn := s.sn, p0 := delay.toNat } :: es)) ∧
      (tw.role = .active → coupling s.dev = 0 → ActsR [st, ls] [.twin, .hif] (.twinLinkUp delay) s fun t =>
        rd t.dev F.TWN_STATUS_LINK = 1 ∧ rd t.dev F.TWN_LINK_STATUS_DELAY = delay.toNat ∧
        Raised s.dev t.dev [{ typ := 0x64, sn := s.sn, p0 := delay.toNat }])) ∧
    (∀ cause : Fin 3, linkBad cause s.dev = true → linkUp s.dev = true → 2 ≤ coupling s.dev →
      (tw.role = .standby ∨ tw.role = .active) → ActsR [st, tim] [.twin, .tim, .hif] (.twinLinkDown cause ()) s fun t =>
        rd t.dev F.TWN_STATUS_LINK = 0 ∧ t.dev.twin.paired = false ∧ t.dev.twin.txq = [] ∧
        rd t.dev F.TWN_STATUS_COUPLING = 1 ∧ t.dev.twin.role = tw.role ∧ t.dev.twin.latch = tw.latch ∧
        (tw.role = .active → t.dev.twin.diverged = true ∧ t.dev.twin.resync = none) ∧
        ∃ es, Raised s.dev t.dev ({ typ := 0x63, sn := s.sn, p0 := cause.val, p1 := twBits tw.tl } :: es)) ∧
    (∀ p : PairRec, pairs → Acts [.twin, .out, .free, .pm] (.pair p) s fun t =>
      t.dev.twin.gotPair = some p ∧ t.dev.twin.sent = true ∧
      (tw.sent = true → t.dev.twin.ownNonce = tw.ownNonce ∧ SentRec s.dev t.dev [(2, [(pairResp s.dev unit p.nonce tw.ownNonce).toNat])]) ∧
      (tw.sent = false → SentRec s.dev t.dev [ownPair t.dev.twin.ownNonce, (2, [(pairResp s.dev unit p.nonce t.dev.twin.ownNonce).toNat])])) ∧
    (pairs → tw.paired = false → tw.sent = false → Acts [.twin, .out, .free] .pairingRetry s fun t =>
      t.dev.twin.sent = true ∧ SentRec s.dev t.dev [ownPair t.dev.twin.ownNonce]) ∧
    (∀ (p : PairRec) (resp : BitVec 128) (mateActive : Bool) (sn : SN), pairs → tw.gotPair = some p →
      let good := resp = pairResp s.dev p.unit tw.ownNonce p.nonce
      let c : Instr := .pairAuth resp mateActive sn
      let fails (why : Nat) : Prop := ActsR [st] [.twin, .hif, .pm] c s fun t =>
        t.dev.twin = queuesOf { tw with sent := false, gotPair := none } t.dev.twin ∧ Raised s.dev t.dev [{ typ := 0x62, sn := s.sn, p0 := why }]
      (¬ good → fails 1) ∧ (good → p.unit = unit → fails 2) ∧ (good → p.unit ≠ unit → p.policy.toNat ≠ calPolicy s.dev → fails 3) ∧
      (good → p.unit ≠ unit → p.policy.toNat = calPolicy s.dev →
        (tw.role ≠ .active → mateActive = false → fails 4) ∧
        (tw.role = .active → ¬ (mateActive = true ∧ unit = true) → ActsR [st] [.twin, .hif, .pm] c s fun t =>
          t.dev.twin = queuesOf { tw with sent := false, gotPair := none, paired := true, diverged := true } t.dev.twin ∧
          rd t.dev F.TWN_STATUS_COUPLING = 1 ∧ Raised s.dev t.dev [{ typ := 0x61, sn := s.sn, p0 := p.unit.toNat }]) ∧
        (tw.role = .unpaired ∨ (tw.role = .active ∧ unit = true) → mateActive = true → ∃ t, exec c s = .next t ∧
          t.pending = s.pending ∧ t.ticked = s.ticked ∧ t.lock = s.lock ∧ t.sp = s.sp ∧ Only [.regs, .twin, .hif, .pm] s.dev t.dev ∧
          t.sn = (if s.ticked = true then sn - 1 else sn) ∧ t.dev.twin.role = .standby ∧ t.dev.twin.latch = false ∧
          rd t.dev F.TWN_STATUS_COUPLING = 1 ∧ rd t.dev F.TWN_STATUS_LAST_CAUSE = 7))) ∧
    (∀ (x : SN) (delay : BitVec 12) (ofs : BitVec 16), linkUp s.dev = true →
      ActsR [ls, F.TWN_ALIGN_OFFSET.addr 0] [.free, .twin, .pm] (.sweep x delay ofs) s fun t => t.dev.twin.noSweep = 0 ∧
        rd t.dev F.TWN_LINK_STATUS_DELAY = delay.toNat ∧ rd t.dev F.TWN_ALIGN_OFFSET = ofs.toNat) ∧
    (∀ (valid : BitVec 128) (sigs : List W32), tw.role = .standby → linkUp s.dev = true → tw.sigGot = false →
      ActsR (F.TWN_SIG_MISCNT.addr 0 :: (List.range 4).map (F.TWN_SIG_FAIL.addr ·)) [.twin, .hif, .pm] (.sig (s.sn - 1) valid sigs) s fun t =>
        t.dev.twin.sigGot = true ∧ ∀ n : Fin 128,
          let mis := valid.getLsbD n = false ∨ s.dev.sw.parBad.contains n.val = true ∨ sigs[n.val]? ≠ some (laneSig s.dev n)
          (rd s.dev F.LNE_CTL_TX_EN n = 0 → sigFlag t.dev n = false) ∧
          (rd s.dev F.LNE_CTL_TX_EN n = 1 → mis → sigFlag t.dev n = true) ∧
          (rd s.dev F.LNE_CTL_TX_EN n = 1 → ¬ mis → sigFlag s.dev n = false → sigFlag t.dev n = false))

/-- R243, R244, R259, R267, R296, R307: mirrored records. A standby in RESYNC or LOCKSTEP takes ENTRY, COMMIT and CONFIG in
sequence: entries into its shadow, an entry in place of an armed commit disarming it, a commit armed for its target and
acknowledged, a descriptor applied and acknowledged; a gap, a commit too late or a descriptor it cannot apply makes it
DIVERGED. A decision gives the group its pending signal, PSC_SEL the lane's entries. The active's ACK arms its commit and
completes what waited; without one the oldest completes with DIVERGED. Where the manual leaves a reading open, the clauses
take the model's, log entries 40, 49 and 157. -/
def Obligations.MirroredRecordsApply : Prop :=
  ∀ (s : State), s.dev.pwr.core = true →
    let st := F.TWN_STATUS_ROLE.addr 0
    let tw := s.dev.twin
    let diverges (c : Instr) (cause : Nat) : Prop := ActsR [st] [.twin, .hif, .out, .pm] c s fun t =>
      rd t.dev F.TWN_STATUS_COUPLING = 1 ∧ t.dev.twin.role = .standby ∧ SentRec s.dev t.dev [(0xC, [1])] ∧
      Raised s.dev t.dev [{ typ := 0x65, sn := s.sn, p0 := cause }]
    (follows s.dev = true →
      (∀ (seq : Nat) (w : List EntryWr),
        (inTurn tw.seqIn seq = true → s.dev.tilth.released = true → s.dev.tilth.late = [] → s.dev.tilth.fresh = false →
          let planes := (w.filter fun x => x.mem.val == 3 && decide (x.key < 8)).map fun x => (x.key, x.val.toNat % 4)
          let writes (t : State) : Prop := shadow t.dev = w.foldl writeEnt (shadow s.dev) ∧ active t.dev = active s.dev ∧
            t.dev.tilth = { s.dev.tilth with prep := none, planeIn := s.dev.tilth.planeIn ++ planes } ∧
            t.dev.twin = queuesOf { tw with seqIn := some (seq + 1) } t.dev.twin
          (s.dev.tilth.prep = none → Acts [.sw, .tilth, .twin, .pm] (.entry seq w) s writes) ∧
          (s.dev.tilth.prep.isSome = true → ActsR tilthRegs [.sw, .tilth, .twin, .pm] (.entry seq w) s writes)) ∧
        (inTurn tw.seqIn seq = false → diverges (.entry seq w) 2)) ∧
      (∀ (seq : Nat) (x : SN),
        (inTurn tw.seqIn seq = true → 2 ≤ (x - s.sn).toNat → (x - s.sn).toNat < 2 ^ 31 → ActsR tilthRegs [.tilth, .twin, .out, .pm] (.commit seq x) s fun t =>
          t.dev.tilth = { s.dev.tilth with prep := some { members := [], timed := true, tsn := x, target := some x, acked := true, seq := seq } } ∧
          t.dev.twin.commitSeq = seq ∧ t.dev.twin.seqIn = some (seq + 1) ∧
          (tw.cfgWait = [] → SentRec s.dev t.dev [(7, [seq, tw.configSeq])])) ∧
        (inTurn tw.seqIn seq = true → ¬ (2 ≤ (x - s.sn).toNat ∧ (x - s.sn).toNat < 2 ^ 31) → diverges (.commit seq x) 1) ∧
        (inTurn tw.seqIn seq = false → diverges (.commit seq x) 2)) ∧
      (∀ (seq : Nat) (raw : BitVec 512) (ls : List (List W32)),
        (inTurn tw.cfgIn seq = false → diverges (.config seq raw ls) 2) ∧
        (inTurn tw.cfgIn seq = true → opOf raw = 0x12 →
          (groupOf s.dev (dF raw 16 0 17) = none → diverges (.config seq raw ls) 3) ∧
          (∀ g, groupOf s.dev (dF raw 16 0 17) = some g → Acts [.prot, .twin, .out, .pm] (.config seq raw ls) s fun t =>
            let k := dF raw 16 20 4
            let sig := if k = 1 then 0 else dF raw 16 24 4
            groupOf t.dev (dF raw 16 0 17) = some (
              if timedOf raw = true then { g with timed := some (k, sig, mirrorRing, 0, targetOf raw, false) }
              else if k = 0 then { g with cmd := none, wtr := none, timed := none } else { g with cmd := some (k, sig), timed := none }) ∧
            (∀ q, q ≠ dF raw 16 0 17 → groupOf t.dev q = groupOf s.dev q) ∧
            t.dev.twin = queuesOf { tw with cfgIn := some (seq + 1), configSeq := seq } t.dev.twin ∧
            (tw.cfgWait = [] → SentRec s.dev t.dev [(7, [tw.commitSeq, seq])])))) ∧
      (∀ (x : DecisionRec) (g : Group), groupOf s.dev x.pgid.toNat = some g → g.cfg.typ ≠ 2 → g.pend = none → x.sel.val ≠ g.r →
        Acts [.prot, .twin, .pm] (.decision x) s fun t =>
        (∃ g', groupOf t.dev x.pgid.toNat = some g' ∧ g'.cfg = g.cfg ∧ g'.r = g.r ∧ g'.pend = some ⟨x.sel.val, x.x, x.top.toNat⟩ ∧
          g'.lastReq = x.top.toNat ∧ g'.wtr = x.wtr.map fun y => (x.sel.val, y)) ∧
        ∀ q, q ≠ x.pgid.toNat → groupOf t.dev q = groupOf s.dev q) ∧
      (∀ (n : Fin 128) (a b : BitVec 30), Acts [.prot, .twin, .pm] (.pscSel n a b) s fun t =>
        let old : PscTx := tget {} s.dev.prot.psc n
        let sent (e : BitVec 30) (q : Nat × SN) : Prop := e.getLsbD 29 = true ∧
          ∃ g, groupOf s.dev q.1 = some g ∧ g.cfg.farPgid = (e.extractLsb' 12 17).toNat
        ((tget {} t.dev.prot.psc n : PscTx) = { old with given := some (a, b), q := (tget {} t.dev.prot.psc n : PscTx).q } ∧
          ∀ q, q ∈ (tget {} t.dev.prot.psc n : PscTx).q ↔ q ∈ old.q ∧ ¬ sent a q ∧ ¬ sent b q) ∧
        (∀ m, m ≠ n.val → (tget {} t.dev.prot.psc m : PscTx) = tget {} s.dev.prot.psc m) ∧
        t.dev.prot.groups = s.dev.prot.groups)) ∧
    (∀ (cs fs : Nat), tw.role = .active →
      (∀ c, s.dev.tilth.prep = some c → c.target.isSome = true → c.seq ≤ cs → Acts [.tilth, .twin, .hif, .pm] (.ack cs fs) s fun t =>
        t.dev.tilth = { s.dev.tilth with prep := some { c with acked := true } }) ∧
      (∀ n r uid sts res, s.dev.tilth.prep = none → tw.waits = [(n, r, uid, sts, res)] →
        (n ≤ fs → Acts [.twin, .hif, .pm] (.ack cs fs) s fun t =>
          Served s.dev t.dev r uid sts 0 s.sn res ∧ t.dev.twin = queuesOf { tw with waits := [] } t.dev.twin) ∧
        (fs < n → Acts [.twin, .pm] (.ack cs fs) s fun t => t.dev.twin = queuesOf tw t.dev.twin))) ∧
    (∀ n r uid sts res ws, tw.waits = (n, r, uid, sts, res) :: ws → tw.role = .active → linkUp s.dev = true → 2 ≤ coupling s.dev →
      tw.resync = none → rd s.dev F.TWN_CFG_AUTO_RESYNC = 0 → ActsR [st] [.twin, .hif, .out] .configAckTimeout s fun t =>
        Served s.dev t.dev r uid 0x15 0 s.sn res ∧ t.dev.twin = queuesOf { tw with waits := ws, diverged := true } t.dev.twin ∧
        rd t.dev F.TWN_STATUS_COUPLING = 1 ∧ SentRec s.dev t.dev [(0xC, [1])])

/-- R296, R322, R323: resync. The active starts one on TWIN_RESYNC or by itself, with CONTROL RESYNC_START and the snapshot;
the standby drops what it held and enters RESYNC, takes the snapshot's chunks, and after 16 clean sweeps enters LOCKSTEP
with its notice, on which the active completes the descriptor OK; a timeout, a resync end or a divergence notice ends in
DIVERGED. MODE 1 keeps the mask of the lanes whose promotion holds end at E. Where the manual leaves a reading open, the
clauses take the model's, log entries 45, 46 and 50. -/
def Obligations.ResyncReachesLockstep : Prop :=
  ∀ (s : State), s.dev.pwr.core = true →
    let st := F.TWN_STATUS_ROLE.addr 0
    let tw := s.dev.twin
    let starts (c : Instr) (mp : List Part) (ws : List (Nat × Nat)) (f : State → Prop) : Prop :=
      ActsR [st] ([.twin, .tilth, .out] ++ mp) c s fun t =>
        rd t.dev F.TWN_STATUS_COUPLING = 2 ∧
        t.dev.twin = queuesOf { tw with diverged := false, resync := some ws, resyncLast := true, resyncTmo := rd s.dev F.TWN_CFG2_RESYNC_TMO } t.dev.twin ∧
        (∃ os, SentRec s.dev t.dev ((0xC, [2]) :: (snapshot s.dev).map (fun w => (0xB, w)) ++ os)) ∧ f t
    (∀ (r : Fin 16) (e : QEnt), servedBy s.dev r 0x71 = some e → reservedAt e.raw = none →
      (dB e.raw 16 0 = false →
        (tw.role ≠ .active ∨ linkUp s.dev = false ∨ coupling s.dev = 0 → Acts [.hif] (.twinResync r) s fun t =>
          Served s.dev t.dev r e.uid 3 5 s.sn 0) ∧
        (tw.role = .active → linkUp s.dev = true →
          (coupling s.dev = 3 → Acts [.hif] (.twinResync r) s fun t => Served s.dev t.dev r e.uid 0 0 s.sn 0) ∧
          (coupling s.dev = 1 ∨ coupling s.dev = 2 →
            (∀ ws, tw.resync = some ws → Acts [.twin, .hif] (.twinResync r) s fun t =>
              Taken s.dev t.dev r e.uid ∧ t.dev.twin = { tw with resync := some (ws ++ [(r.val, e.uid)]) }) ∧
            (tw.resync = none → resyncFree s.dev = true → starts (.twinResync r) [.hif] [(r.val, e.uid)] fun t => Taken s.dev t.dev r e.uid)))) ∧
      (dB e.raw 16 0 = true → Acts [.twin, .hif] (.twinResyncMode1 r) s fun t => Taken s.dev t.dev r e.uid ∧
        t.dev.twin = { tw with unhold := tw.unhold ++ [(earliest s.dev s.sn, BitVec.ofNat 128 (dF e.raw 20 0 128), r.val, e.uid)] })) ∧
    (tw.role = .active → tw.swapHalf = false → linkUp s.dev = true → coupling s.dev = 1 → tw.resync = none → resyncFree s.dev = true →
      (rd s.dev F.TWN_CFG_AUTO_RESYNC = 1 → starts .autoResyncRetry [] [] fun _ => True) ∧
      (rd s.dev F.TWN_CFG_AUTO_RESYNC = 0 → exec .autoResyncRetry s = .next s)) ∧
    (∀ r uid, tw.role = .active → tw.resync = some [(r, uid)] → linkUp s.dev = true →
      (coupling s.dev = 2 → ActsR [st] [.twin, .hif, .pm] .couplingNotice s fun t =>
        rd t.dev F.TWN_STATUS_COUPLING = 3 ∧ t.dev.twin = queuesOf { tw with resync := none, resyncLast := false } t.dev.twin ∧
        Served s.dev t.dev r uid 0 0 s.sn 0 ∧ Raised s.dev t.dev [{ typ := 0x66, sn := s.sn }]) ∧
      (tw.resyncTmo ≠ 0 → ActsR [st] [.twin, .hif, .out] .resyncTimeout s fun t =>
        rd t.dev F.TWN_STATUS_COUPLING = 1 ∧ t.dev.twin = queuesOf { tw with resync := none, resyncLast := false, diverged := true } t.dev.twin ∧
        Served s.dev t.dev r uid 0x15 0 s.sn 0 ∧ SentRec s.dev t.dev [(0xC, [3])]) ∧
      (tw.resyncTmo = 0 → exec .resyncTimeout s = .next s)) ∧
    (tw.role = .standby → linkUp s.dev = true →
      (∃ t, exec .resyncStart s = .next t ∧ DevOnly s t ∧
        Only [.regs, .twin, .tilth, .sw, .prot, .cli, .chans, .hif, .pm] s.dev t.dev ∧ rd t.dev F.TWN_STATUS_COUPLING = 2 ∧
        (s.dev.tilth.released = true → shadow t.dev = {} ∧ t.dev.tilth.fresh = false) ∧
        (s.dev.tilth.released = false → shadow t.dev = shadow s.dev ∧ t.dev.tilth.fresh = true) ∧
        active t.dev = active s.dev ∧ t.dev.sw.sel = [] ∧ t.dev.prot.groups = [] ∧ t.dev.cli.tribs = [] ∧
        t.dev.cli.loess = [] ∧ t.dev.cli.profiles = [] ∧ t.dev.tilth.prep = none) ∧
      (coupling s.dev = 2 →
        (Acts [.twin, .pm] (.state .last) s fun t => t.dev.twin = queuesOf { tw with snapLast := true } t.dev.twin) ∧
        (∀ w, (∀ x ∈ w, x.mem.val ≠ 3) → s.dev.tilth.released = true → s.dev.tilth.late = [] → s.dev.tilth.fresh = false →
          Acts [.sw, .twin, .pm] (.state (.entries w)) s fun t =>
          shadow t.dev = w.foldl writeEnt (shadow s.dev) ∧ active t.dev = active s.dev) ∧
        (∀ l, ActsR ((List.range 4).map (F.MAP_LOESS_QSTAT_FREE_BLK.addr ·)) [.cli, .hif, .twin, .pm] (.state (.budgets l)) s fun t =>
          t.dev.cli = { s.dev.cli with loess := t.dev.cli.loess, low := t.dev.cli.low } ∧ t.dev.cli.loess = s.dev.cli.loess.filter (·.ended) ++
            l.map fun b => { owner := b.owner, six := b.six, blk := b.blk, d16 := b.d16, m := b.m }) ∧
        (∀ u v, Acts [.sw, .twin, .pm] (.state (.selector [(u, v)])) s fun t =>
          selAt t.dev u = selOf v ∧ ∀ x, x ≠ u → selAt t.dev x = selAt s.dev x) ∧
        (16 ≤ tw.clean → ActsR [st] [.hif, .out, .twin] .lockstepEntry s fun t => rd t.dev F.TWN_STATUS_COUPLING = 3 ∧
          Raised s.dev t.dev [{ typ := 0x66, sn := s.sn }] ∧ SentRec s.dev t.dev [(0xC, [4])] ∧
          t.dev.twin = queuesOf tw t.dev.twin) ∧
        (tw.clean < 16 → exec .lockstepEntry s = .next s)) ∧
      (∀ c cause, (c = Instr.resyncEnd ∧ coupling s.dev = 2 ∧ cause = 6) ∨ (c = .divergenceNotice ∧ 2 ≤ coupling s.dev ∧ cause = 3) →
        ActsR [st] [.twin, .hif, .out, .pm] c s fun t => rd t.dev F.TWN_STATUS_COUPLING = 1 ∧ t.dev.twin.role = .standby ∧
          SentRec s.dev t.dev [(0xC, [1])] ∧ Raised s.dev t.dev [{ typ := 0x65, sn := s.sn, p0 := cause }])) ∧
    (tw.role = .active → coupling s.dev ≠ 0 → tw.resync = none → rd s.dev F.TWN_CFG_AUTO_RESYNC = 0 →
      ActsR [st] [.twin, .pm] .divergenceNotice s fun t => rd t.dev F.TWN_STATUS_COUPLING = 1 ∧ t.dev.twin = queuesOf { tw with diverged := true } t.dev.twin)

/-! ### Rings (chapter 13) -/

/-- R328, R329: a doorbell of a bound, ACTIVE or PAUSED ring that moves its index forward, and a producer index at most
2^LOG2_SIZE ahead of C, becomes the ring's index; the other index and every other ring's registers stay. R328, R329, R350:
doorbells that are turned away. An unbound, DISABLED, FAULTED or RESETTING ring's is counted in HIF_DB_UNBOUND; one that
moves its index backward or P too far is counted in HIF_DB_ERR and raises DOORBELL_INVALID; a write of another width or
offset or to a reserved page is counted in HIF_DB_ERR. No index and no ring state changes. Where the manual leaves a reading
open, the clauses take the model's, log entry 91. -/
def Obligations.DoorbellsMoveIndicesOrAreTurnedAway : Prop :=
  (∀ (s : State) (r : Fin 41) (v : W32), s.dev.pwr.core = true → bound s.dev r = true →
     (rState s.dev r = 1 ∨ rState s.dev r = 2) →
     let cur := if hostRing r = true then rP s.dev r else rC s.dev r
     (v.toNat + 2 ^ 32 - cur) % 2 ^ 32 < 2 ^ 31 →
     (hostRing r = true → (v.toNat + 2 ^ 32 - rC s.dev r) % 2 ^ 32 ≤ 2 ^ rLog2 s.dev r) →
     ActsR [F.HIF_RING_PIDX.addr r, F.HIF_RING_CIDX.addr r, F.ARB_STATUS_MODE.addr 0, F.ARB_NULL.addr 0]
       [.dma, .hif, .pm, .out] (.doorbell (BitVec.ofNat 18 (r.val * 4096)) 4 v) s fun t =>
       (hostRing r = true → rP t.dev r = v.toNat ∧ rC t.dev r = rC s.dev r) ∧
       (hostRing r = false → rC t.dev r = v.toNat ∧ (r.val ≠ 40 → rP t.dev r = rP s.dev r)) ∧
       (∀ q : Fin 41, q ≠ r → rP t.dev q = rP s.dev q ∧ rC t.dev q = rC s.dev q ∧ rState t.dev q = rState s.dev q)) ∧
  (∀ (s : State) (off : BitVec 18) (n : Nat) (v : W32), s.dev.pwr.core = true →
     let r := off.toNat / 4096
     let msg := [F.HIF_DB_ERR.addr 0, F.MSIX_PBA.addr (rd s.dev F.HIF_CFG_ERR_VEC / 32)]
     let form := n = 4 ∧ off.toNat % 4096 = 0 ∧ r < 41
     let cur := if hostRing r = true then rP s.dev r else rC s.dev r
     let still (t : State) : Prop := ∀ q : Fin 41, rP t.dev q = rP s.dev q ∧ rC t.dev q = rC s.dev q ∧ rState t.dev q = rState s.dev q
     (form → (bound s.dev r = false ∨ rState s.dev r = 0 ∨ rState s.dev r = 3 ∨ rState s.dev r = 4) →
       ActsR [F.HIF_DB_UNBOUND.addr 0] [] (.doorbell off n v) s fun t => still t ∧
         rd t.dev F.HIF_DB_UNBOUND = satAdd 32 (rd s.dev F.HIF_DB_UNBOUND) 1) ∧
     (form → bound s.dev r = true → (rState s.dev r = 1 ∨ rState s.dev r = 2) →
       (2 ^ 31 ≤ (v.toNat + 2 ^ 32 - cur) % 2 ^ 32 ∨
         hostRing r = true ∧ 2 ^ rLog2 s.dev r < (v.toNat + 2 ^ 32 - rC s.dev r) % 2 ^ 32) →
       ActsR msg [.hif, .pm, .out] (.doorbell off n v) s fun t => still t ∧
         rd t.dev F.HIF_DB_ERR = satAdd 32 (rd s.dev F.HIF_DB_ERR) 1 ∧
         Raised s.dev t.dev [{ typ := 0xC1, sn := s.sn, p0 := r, p1 := v.toNat }]) ∧
     (¬ form → ActsR msg [.hif, .pm, .out] (.doorbell off n v) s fun t => still t ∧
         rd t.dev F.HIF_DB_ERR = satAdd 32 (rd s.dev F.HIF_DB_ERR) 1))

/-- R327, R332, R352: enabling a DISABLED ring makes it ACTIVE with both indices 0 and nothing queued; a reset of CMDn or
CPLn puts both in RESETTING, one of another ring that ring alone, with no folded summary left; its end makes the ring
DISABLED with both indices 0 and raises RING_RESET_DONE; enabling CMDn while CPLn is disabled only sets CFG_ERR. -/
def Obligations.RingLifecycle : Prop :=
  ∀ (s : State) (r : Fin 41), s.dev.pwr.core = true →
    (rState s.dev r = 0 → (r.val < 16 → rd s.dev F.HIF_RING_CFG_EN (r.val + 16) = 1) → (r.val = 40 → s.dev.pm.trc = []) →
      ActsR (ringRegs r) [.hif] (.ringEnable r true) s fun t =>
        rState t.dev r = 1 ∧ rP t.dev r = 0 ∧ rC t.dev r = 0 ∧ rd t.dev F.HIF_RING_CFG_EN r = 1 ∧ (ringOf t.dev r).q = [] ∧
        (ringOf t.dev r).seq = 0) ∧
    (r.val < 16 → rd s.dev F.HIF_RING_CFG_EN (r.val + 16) = 0 →
      ActsR [F.HIF_STATUS_CFG_ERR.addr 0] [] (.ringEnable r true) s fun t => rd t.dev F.HIF_STATUS_CFG_ERR = 1) ∧
    (ActsR ((pairRings r).map (F.HIF_RING_STATUS_STATE.addr ·) ++ tilthRegs) [.hif, .dma, .tilth, .sw, .twin, .out] (.ringReset r) s fun t =>
      ∀ q ∈ pairRings r, rState t.dev q = 4 ∧ (ringOf t.dev q).folds = [] ∧ (ringOf t.dev q).held = none ∧
        rP t.dev q = rP s.dev q ∧ rC t.dev q = rC s.dev q) ∧
    (rState s.dev r = 4 → ActsR (ringRegs r) [.hif] (.ringResetDone r) s fun t =>
      rState t.dev r = 0 ∧ rP t.dev r = 0 ∧ rC t.dev r = 0 ∧ rd t.dev F.HIF_RING_CFG_EN r = 0 ∧ (ringOf t.dev r).q = [] ∧
      Raised s.dev t.dev [{ typ := 0xC2, sn := s.sn, p0 := r }])

/-- R337: a fetch takes descriptor C of an ACTIVE, bound command ring that holds one and whose completion has room, once
GLB_SETUP_LOCK is set: the descriptor joins the ring's queue last, and C advances by one. R22, R308, R333, R453, R471: the
dispatcher's checks of the oldest descriptor not yet dispatched, in their order: an unbound ring, an opcode of no row, a
class that the opcode's row does not admit, PG_CREATE with AUTO = 0 under AUTO_FIXED, a standby; what passes them is handed
to its unit. Where the manual leaves a reading open, the clauses take the model's, log entry 89. -/
def Obligations.FetchAndDispatch : Prop :=
  (∀ (s : State) (r : Fin 16) (raw : BitVec 512), s.dev.pwr.core = true → s.lock = true → entering s.dev = false →
     rState s.dev r = 1 → bound s.dev r = true → rHeld s.dev r ≠ 0 → frozen s.dev = false → s.dev.dma.retry.contains r.val = false →
     (rC s.dev r + 2 ^ 32 - rC s.dev (r.val + 16)) % 2 ^ 32 < 2 ^ rLog2 s.dev (r.val + 16) →
     (rState s.dev (r.val + 16) = 2 → doneHeld s.dev r < 64) →
     dmaOk s.dev (recAddr s.dev r (rC s.dev r)) false = true →
     ActsR [F.HIF_RING_CIDX.addr r, F.HIF_RING_PIDX.addr 40] [.hif, .dma, .out, .free, .pm] (.descriptorFetch r raw) s fun t =>
       rC t.dev r = (rC s.dev r + 1) % 2 ^ 32 ∧ rP t.dev r = rP s.dev r ∧
       (∃ tag, (ringOf t.dev r).q = (ringOf s.dev r).q ++
         [{ idx := rC s.dev r, uid := s.dev.hif.uid, raw := raw, ph := .fetched, tagged := tag }]) ∧
       t.dev.hif.uid = s.dev.hif.uid + 1 ∧ t.dev.hif.evq = s.dev.hif.evq) ∧
  (∀ (s : State) (r : Fin 16) (e : QEnt), s.dev.pwr.core = true → rState s.dev r = 1 →
     (ringOf s.dev r).q.find? (fun e => e.ph == .fetched) = some e →
     (fenceOf e.raw = true → (ringOf s.dev r).q.head? = some e) →
     let op := opOf e.raw
     let slot := rd s.dev F.HIF_RING_STATUS_SESS r
     let ends (st det : Nat) : Prop := Acts [.hif] (.descriptorDispatch r) s fun t => Served s.dev t.dev r e.uid st det s.sn 0
     (slot = 15 → ends 0x11 1) ∧
     (slot ≠ 15 →
       (op ∉ opcodes → ends 0x12 (0 + 256 * 3)) ∧
       (op ∈ opcodes →
         let adm := admits s.dev (rd s.dev F.SEC_SESS_SLOT_CLASS slot) op
         let fixed := op = 0x10 ∧ dB e.raw 16 21 = false ∧ calPolicy s.dev / 16 % 2 = 1
         (adm = false → ends 0x11 1) ∧
         (adm = true → fixed → ends 0x11 1) ∧
         (adm = true → ¬ fixed → isStandby s.dev = true → op ∉ [0x30, 0x31, 0x32, 0x7E, 0x7F] → ends 0x11 2) ∧
         (adm = true → ¬ fixed → (isStandby s.dev = true → op ∈ [0x30, 0x31, 0x32, 0x7E, 0x7F]) →
           ActsR (F.HIF_RING_PIDX.addr 40 :: tilthRegs) [.hif, .tilth, .twin, .out, .free, .pm] (.descriptorDispatch r) s fun t =>
             (ringOf t.dev r).q = (ringOf s.dev r).q.map fun x => if x.uid = e.uid then { x with ph := .dispatched, at' := s.sn } else x))))

/-- R22, R23, R387: NOP completes with OK and changes nothing else; a firmware descriptor whose 100 ms have passed completes
with LOCK_TIMEOUT and has changed nothing. R23, R336, R337: COMPLETION_WRITE writes the completion of the ring's oldest
descriptor only, once it is served and every event it caused is recorded: the record of Table 13-9, with the phase bit of
R331, at index P of CPLn, which advances by one; the descriptor leaves the queue. Where the manual leaves a reading open,
the clauses take the model's, log entry 92. -/
def Obligations.DescriptorsComplete : Prop :=
  (∀ (s : State) (r : Fin 16) (e : QEnt), s.dev.pwr.core = true →
     (servedBy s.dev r 0x7F = some e → reservedAt e.raw = none →
       Acts [.hif] (.nop r) s fun t => Served s.dev t.dev r e.uid 0 0 s.sn 0) ∧
     (servedBy s.dev r 0x7F = some e → ∀ o, reservedAt e.raw = some o →
       Acts [.hif] (.nop r) s fun t => Served s.dev t.dev r e.uid 0x12 (o + 256 * 2) s.sn 0) ∧
     (nextFor .fw (ringOf s.dev r).q = some e →
       Acts [.hif] (.lockTimeout r) s fun t => Served s.dev t.dev r e.uid 0x14 0 s.sn 0)) ∧
  (∀ (s : State) (r : Fin 16) (e : QEnt) (rest : List QEnt) (st det : Nat) (csn : SN) (res : BitVec 64) (n : Nat),
     s.dev.pwr.core = true → entering s.dev = false → (ringOf s.dev r).q = e :: rest → e.ph = .done st det csn res n →
     n ≤ s.dev.hif.evOut → (ringOf s.dev (r.val + 16)).lost = false → canWrite s.dev (r.val + 16) = true →
     e.tagged = false → e.idx < 2 ^ 32 →
     let j := rP s.dev (r.val + 16)
     ActsR [F.HIF_RING_PIDX.addr (r + 16)] [.out, .hif] (.completionWrite r) s fun t =>
       (ringOf t.dev r).q = rest ∧ rP t.dev (r.val + 16) = (j + 1) % 2 ^ 32 ∧ rC t.dev (r.val + 16) = rC s.dev (r.val + 16) ∧
       ∃ (b : BitVec 2048) (l : List Out), Sent s.dev t.dev (.record (r.val + 16) j b :: l) ∧ (∀ o ∈ l, ∃ a, o = .transReq a) ∧
         b.extractLsb' 0 8 = e.raw.extractLsb' 0 8 ∧ (b.extractLsb' 8 8).toNat = st % 256 ∧
         (b.extractLsb' 16 16).toNat = det % 65536 ∧ b.extractLsb' 32 32 = csn ∧ b.extractLsb' 64 64 = e.raw.extractLsb' 64 64 ∧
         b.extractLsb' 128 64 = res ∧ (b.extractLsb' 192 32).toNat = e.idx ∧ b.extractLsb' 224 24 = 0 ∧
         b.getLsbD 248 = decide ((j / 2 ^ rLog2 s.dev (r.val + 16)) % 2 = 0) ∧ b.extractLsb' 249 7 = 0)

/-- R341, R342, R345: the oldest raised event goes to the ring that HIF_EVT_ROUTE gives its class: it is written at index P
with the ring's SEQ, which advances, while the ring takes records; it is folded into the summary of its type while the ring
is not ACTIVE or is full; and it waits while summaries are still to be written. R330, R345, R349: a ring that takes records
writes its oldest summary before anything new; a host-produced ring's C is written back where HIF_RING_WB names an address
and C has advanced; a device-produced ring sends its message when MOD_CNT records have been written, or at least one when
MOD_TIME is over. Where the manual leaves a reading open, the clauses take the model's, log entry 61. -/
def Obligations.RecordsAndMessages : Prop :=
  (∀ (s : State) (e : Ev) (rest : List Ev), s.dev.pwr.core = true → s.dev.hif.evq = e :: rest → frozen s.dev = false →
     let r := 32 + (rd s.dev F.HIF_EVT_ROUTE >>> (2 * (e.typ / 16 % 16))) % 4
     let j := rP s.dev r
     ((rState s.dev r ≠ 1 ∨ rRoom s.dev r = false) →
       Acts [.hif, .pm] .eventRecord s fun t =>
         t.dev.hif.evq = rest ∧ (ringOf t.dev r).folds = foldIn e (ringOf s.dev r).folds ∧
         (ringOf t.dev r).seq = (ringOf s.dev r).seq) ∧
     (rState s.dev r = 1 → rRoom s.dev r = true → (ringOf s.dev r).folds ≠ [] → exec .eventRecord s = .next s) ∧
     (rState s.dev r = 1 → rRoom s.dev r = true → (ringOf s.dev r).folds = [] → dmaOk s.dev (recAddr s.dev r j) true = true →
       ActsR [F.HIF_RING_PIDX.addr r] [.hif, .out, .pm] .eventRecord s fun t =>
         t.dev.hif.evq = rest ∧ rP t.dev r = (j + 1) % 2 ^ 32 ∧ (ringOf t.dev r).seq = ((ringOf s.dev r).seq + 1) % 2 ^ 32 ∧
         ∃ (b : BitVec 2048) (l : List Out), Sent s.dev t.dev (.record r j b :: l) ∧ (∀ o ∈ l, ∃ a, o = .transReq a) ∧
           (b.extractLsb' 0 16).toNat = e.typ % 2 ^ 16 ∧ b.getLsbD 16 = e.sb ∧ b.extractLsb' 32 32 = e.sn ∧
           (b.extractLsb' 64 32).toNat = (ringOf s.dev r).seq % 2 ^ 32 ∧ (b.extractLsb' 96 32).toNat = e.p0 % 2 ^ 32 ∧
           (b.extractLsb' 128 32).toNat = e.p1 % 2 ^ 32 ∧ (b.extractLsb' 160 32).toNat = e.p2 % 2 ^ 32 ∧
           (b.extractLsb' 192 32).toNat = e.p3 % 2 ^ 32)) ∧
  (∀ (s : State) (r : Fin 41), s.dev.pwr.core = true →
     (∀ f rest, (ringOf s.dev r).folds = f :: rest → canWrite s.dev r = true → hostRing r = false →
       (r.val = 40 → s.dev.pm.trc = []) →
       ActsR [F.HIF_RING_PIDX.addr r] [.hif, .out, .pm] (.overflowSummary r) s fun t =>
         (ringOf t.dev r).folds = rest ∧ rP t.dev r = (rP s.dev r + 1) % 2 ^ 32 ∧
         (ringOf t.dev r).seq = ((ringOf s.dev r).seq + 1) % 2 ^ 32) ∧
     (let a := rd s.dev F.HIF_RING_WB_LO r + 2 ^ 32 * rd s.dev F.HIF_RING_WB_HI r
      hostRing r = true → a ≠ 0 → (ringOf s.dev r).wbDue = true → frozen s.dev = false → rState s.dev r = 1 →
       dmaOk s.dev a true = true →
       Acts [.hif, .out] (.indexWriteBack r) s fun t =>
         Sent s.dev t.dev [.indexWb r (BitVec.ofNat 32 (rC s.dev r))] ∧ (ringOf t.dev r).wbDue = false) ∧
     (∀ up : Bool, hostRing r = false →
       let n := (ringOf s.dev r).since
       (max 1 (rd s.dev F.HIF_RING_CFG_MOD_CNT r) ≤ n ∨ up = true ∧ rd s.dev F.HIF_RING_CFG_MOD_TIME r ≠ 0 ∧ 1 ≤ n) →
       let v := rd s.dev F.HIF_RING_CFG_VEC r
       ActsR [F.MSIX_PBA.addr (v / 32)] [.hif, .out, .pm] (.msiXMessage r up) s fun t =>
         (ringOf t.dev r).since = 0 ∧
         (rd s.dev F.MSIX_CTL v = 0 → frozen s.dev = false → Sent s.dev t.dev [.msix v]) ∧
         ((rd s.dev F.MSIX_CTL v = 1 ∨ frozen s.dev = true) →
           t.dev.out = s.dev.out ∧ (rd t.dev F.MSIX_PBA (v / 32)).testBit (v % 32) = true)))

/-! ### Translation and arbitration (chapter 14) -/

/-- R356, R357, R359 to R361: a completion that answers a request from before an invalidation only asks again; one that
grants access enters the cache and never replaces a pinned entry; a usable one lets its ring go on; one that is not usable
fails the ring with the code of Table 14-2 where PRI is not enabled, the Response Failure bit is set or three responses have
led to nothing, and else sends a page request and pauses the ring. Where the manual leaves a reading open, the clauses take
the model's, log entries 56 and 57. -/
def Obligations.TranslationsServeAccesses : Prop :=
  ∀ (s : State) (c : TransCpl), s.dev.pwr.core = true → s.dev.dma.enable = true →
    let page := c.addr.toNat / 4096 * 4096
    let span := 4096 * 2 ^ c.size.val
    let e : AtsEnt := { base := page / span * span, size := c.size.val, trans := c.base.toNat, r := c.r, w := c.w, u := c.u }
    (c.stale = true → Acts [.out] (.translationCompletion c) s fun t => Sent s.dev t.dev [.transReq page]) ∧
    (c.stale = false → c.ring = none → (c.r = true ∨ c.w = true ∨ c.u = true) →
      Acts [.dma] (.translationCompletion c) s fun t =>
        t.dev.dma.cache.head? = some e ∧
        (∀ x ∈ s.dev.dma.cache, (c.evict = none ∧ s.dev.dma.cache.length < 1024 ∨ pinned s.dev x = true) →
          (x.base ≠ e.base ∨ x.size ≠ e.size) → x ∈ t.dev.dma.cache)) ∧
    ∀ r : Fin 41, c.stale = false → c.ring = some r → (ringOf s.dev r).held = none →
      (rState s.dev r = 1 ∨ rState s.dev r = 2) →
      let w := needsW s.dev r page
      let usable := c.u || (if w = true then c.w else c.r)
      (usable = true → ActsR [F.HIF_RING_STATUS_STATE.addr r] [.dma] (.translationCompletion c) s fun t =>
        rState t.dev r = 1 ∧ t.dev.dma.cache.head? = some e) ∧
      (usable = false → (s.dev.dma.rspFail = true ∨ s.dev.dma.pri = false ∨ 3 ≤ tget 0 s.dev.dma.succ r.val) →
        ActsR (failRegs s.dev [r.val]) failParts (.translationCompletion c) s fun t =>
          RingFailed s.dev t.dev s.sn r page
            (if s.dev.dma.rspFail = true then 0xF else if s.dev.dma.pri = false then 0x101 else 0x106)) ∧
      (usable = false → s.dev.dma.rspFail = false → s.dev.dma.pri = true → tget 0 s.dev.dma.succ r.val < 3 →
        s.dev.dma.reqs.length < 512 → (∀ x ∈ s.dev.dma.reqs, x.sent = true ∧ (x.page ≠ page ∨ x.w ≠ w)) →
        ActsR [F.HIF_RING_STATUS_STATE.addr r] [.dma, .hif, .pm, .out] (.translationCompletion c) s fun t =>
          Sent s.dev t.dev [.pageReq page w] ∧ rState t.dev r = 2 ∧
          t.dev.dma.reqs = s.dev.dma.reqs ++ [{ page := page, w := w, rings := [r], sent := true }])

/-- R361, R363: a PRG Response with Success asks for the translation again for every ring that waits for the page; Invalid
Request and a page request timeout fail those rings; Response Failure fails every waiting ring and sets the bit, which the
host clears; clearing PRI Enable fails every waiting ring and sets Stopped. R356, R359, R362: an Invalidate Request removes
exactly the entries that overlap its range, and its completion is sent and counted; a read that ends badly is issued once
more after a new translation, and fails its ring with its code when it ends badly again; clearing the ATS Enable bit empties
the cache and lets paused rings go on. Where the manual leaves a reading open, the clauses take the model's, log entries 58
and 59. -/
def Obligations.PageResponsesAndReadRetries : Prop :=
  (∀ (s : State) (addr : BitVec 64), s.dev.pwr.core = true → (∀ x ∈ s.dev.dma.reqs, x.sent = true) →
     let page := addr.toNat / 4096 * 4096
     let here := s.dev.dma.reqs.filter fun x => x.page == page
     let rest := s.dev.dma.reqs.filter fun x => !(x.page == page)
     let rings (l : List PageReq) : List (Fin 41) := l.flatMap (·.rings)
     let fails (l : List PageReq) (code : Nat) (i : Instr) (f : State → Prop) : Prop :=
       ActsR (failRegs s.dev ((rings l).map (·.val))) failParts i s fun t => f t ∧
         (∀ r ∈ rings l, rState t.dev r = 3) ∧ (∀ r, rings l = [r] → ∀ x ∈ l, x.rings = [r] → RingFailed s.dev t.dev s.sn r x.page code)
     (here ≠ [] → Acts [.dma, .out, .pm] (.prgResponse addr 0) s fun t =>
       Sent s.dev t.dev ((rings here).map fun _ => .transReq page) ∧ t.dev.dma.reqs = rest ∧
       ∀ r, (rings here).Nodup → r ∈ rings here → tget 0 t.dev.dma.succ r.val = tget 0 s.dev.dma.succ r.val + 1) ∧
     (here ≠ [] → fails here 1 (.prgResponse addr 1) fun t => ∀ x ∈ t.dev.dma.reqs, x.page ≠ page) ∧
     (here ≠ [] → fails s.dev.dma.reqs 0xF (.prgResponse addr 2) fun t => t.dev.dma.reqs = [] ∧ t.dev.dma.rspFail = true) ∧
     (rd s.dev F.HIF_ATS_CFG_PRI_TMO ≠ 0 → fails here 0x100 (.priTimeout addr) fun t => ∀ x ∈ t.dev.dma.reqs, x.page ≠ page) ∧
     (fails s.dev.dma.reqs 0x105 (.priEnable false) fun t =>
       t.dev.dma.reqs = [] ∧ t.dev.dma.pri = false ∧ t.dev.dma.stopped = true) ∧
     (Acts [.dma] (.priEnable true) s fun t => t.dev.dma.pri = true ∧ t.dev.dma.reqs = s.dev.dma.reqs) ∧
     (Acts [.dma] .responseFailureCleared s fun t => t.dev.dma = { s.dev.dma with rspFail := false })) ∧
  (∀ (s : State) (addr : BitVec 64) (size : Nat) (r : Fin 41) (e : ReadEnd), s.dev.pwr.core = true →
     (Acts [.dma] (.invalidateRequest addr size) s fun t =>
       t.dev.dma.inval = s.dev.dma.inval + 1 ∧
       ∀ x, x ∈ t.dev.dma.cache ↔ x ∈ s.dev.dma.cache ∧
         (addr.toNat + size ≤ x.base ∨ x.base + 4096 * 2 ^ x.size ≤ addr.toNat)) ∧
     (0 < s.dev.dma.inval → ActsR [F.HIF_ATS_INVAL.addr 0] [.dma, .out] .invalidateCompletion s fun t =>
       Sent s.dev t.dev [.invalDone] ∧ t.dev.dma.inval = s.dev.dma.inval - 1 ∧
       rd t.dev F.HIF_ATS_INVAL = satAdd 32 (rd s.dev F.HIF_ATS_INVAL) 1) ∧
     ((rState s.dev r = 1 ∨ rState s.dev r = 2) → r.val ∉ s.dev.dma.second →
       Acts [.dma] (.completionTimeout r e) s fun t => r.val ∈ t.dev.dma.retry ∧ t.dev.dma.cache = s.dev.dma.cache) ∧
     ((rState s.dev r = 1 ∨ rState s.dev r = 2) → r.val ∈ s.dev.dma.second →
       ActsR (failRegs s.dev [r.val]) failParts (.completionTimeout r e) s fun t =>
         RingFailed s.dev t.dev s.sn r (recAddr s.dev r (rC s.dev r))
           (match e with | .ur => 0x102 | .ca => 0x103 | .timeout => 0x104)) ∧
     (r.val ∈ s.dev.dma.retry → Acts [.dma, .out] (.readRetry r) s fun t =>
       r.val ∉ t.dev.dma.retry ∧ r.val ∈ t.dev.dma.second ∧
       Sent s.dev t.dev (if s.dev.dma.enable = true then [.transReq (recAddr s.dev r (rC s.dev r) / 4096 * 4096)] else [])) ∧
     (Acts [.dma] (.atsEnable true) s fun t => t.dev.dma.enable = true ∧
       t.dev.dma.cache = if s.dev.dma.enable = true then s.dev.dma.cache else []) ∧
     ((∀ q : Fin 41, (ringOf s.dev q).held = none) →
       ActsR ((List.range 41).map fun q => F.HIF_RING_STATUS_STATE.addr q) [.dma] (.atsEnable false) s fun t =>
         t.dev.dma.enable = false ∧ t.dev.dma.cache = [] ∧ t.dev.dma.reqs = [] ∧
         ∀ q : Fin 41, rState t.dev q = if rState s.dev q = 2 then 1 else rState s.dev q))

/-- R367 to R370: a window boundary reloads every credit with its weight and carries a debt; a combinational grant goes to
the first eligible requester in rotation that has credit, or else to the first eligible one: an accepted burst is charged
ceil(bytes / 64), goes to the next ready ring of the requester in ring-ID order (CPL0 to CPL3 before the other CPL rings)
and resets the backoff length, a returned one waits it and doubles it up to 128; a registered grant to a requester that is
no longer eligible is null and only counted; a backoff that ends makes the requester eligible. R371, R372, R374: link loss,
a cleared Bus Master Enable and FREEZE freeze the arbiter; it unfreezes, with every backoff cleared, once the link is up
with Bus Master Enable set and FREEZE = 0; the recovery cause of combinational mode ends only then; DRAINED shows only while
the port is frozen. Where the manual leaves a reading open, the clauses take the model's, log entries 60, 160 and 161. -/
def Obligations.ArbiterGrantsAndFreezes : Prop :=
  (∀ (s : State) (g : GrantIn) (r : Fin 8), s.dev.pwr.core = true →
     let len := s.dev.dma.boLen[r]
     let units : List (Nat × Nat) := [(0, 4), (4, 16), (16, 32), (32, 36), (36, 38), (38, 40), (40, 41)]
     let ready (n : Nat) : Prop := n < 41 ∧ g.ready.getLsbD n = true ∧ rState s.dev n ≠ 2 ∧ rState s.dev n ≠ 3
     let serves (q : Fin 8) (n : Nat) : Prop := ready n ∧ ∃ x, units[q.val]? = some x ∧ x.1 ≤ n ∧ n < x.2
     let asked (q : Fin 8) : Prop := if q = 7 then g.ats = true else ∃ n, serves q n
     let rank (n : Nat) : Nat := (if r = 2 ∧ 20 ≤ n then 64 else 0) + (n + 40 - s.dev.dma.served[r]) % 41
     let served (n : Nat) : Prop := serves r n ∧ (s.dev.dma.served[r] < 41 → ∀ m, serves r m → rank n ≤ rank m)
     let issued (t : State) : Prop :=
       t.dev.dma.credit[r] = s.dev.dma.credit[r] - ((g.bytes + 63) / 64 : Nat) ∧
       t.dev.dma.boLen[r] = 1 ∧ t.dev.dma.last = r ∧ t.dev.dma.backoff = s.dev.dma.backoff ∧
       (∃ k, Sent s.dev t.dev [.burst r k] ∧ (r ≠ 7 → ∃ n, k = some n ∧ served n ∧ t.dev.dma.served[r] = n)) ∧ ∀ q : Fin 8, q ≠ r → t.dev.dma.credit[q] = s.dev.dma.credit[q]
     let returned (t : State) : Prop :=
       t.dev.dma.backoff[r] = len ∧ t.dev.dma.boLen[r] = min (2 * len) 128 ∧
       t.dev.dma.credit = s.dev.dma.credit ∧ t.dev.dma.last = s.dev.dma.last ∧ t.dev.out = s.dev.out ∧
       rd t.dev F.ARB_RET_RET r = satAdd 16 (rd s.dev F.ARB_RET_RET r) 1
     let free (q : Fin 8) : Prop := asked q ∧ s.dev.dma.backoff[q] = 0
     let credited (q : Fin 8) : Prop := free q ∧ 0 < s.dev.dma.credit[q]
     let dist (q : Fin 8) : Nat := (q.val + 7 - s.dev.dma.last.val) % 8
     let chosen : Prop := (credited r ∧ (∀ q : Fin 8, credited q → dist r ≤ dist q) ∨
         free r ∧ (∀ q : Fin 8, ¬ credited q) ∧ ∀ q : Fin 8, free q → dist r ≤ dist q)
     let arb := [F.ARB_RET_RET.addr r, F.ARB_STATUS_BACKOFF.addr 0]
     (Acts [.dma] .arbWindow s fun t => ∀ q : Fin 8, t.dev.dma.credit[q] =
       ((max 1 (rd s.dev F.ARB_WEIGHT_W q) : Nat) : Int) + min (s.dev.dma.credit[q]) 0) ∧
     (rd s.dev F.ARB_STATUS_MODE = 1 → frozen s.dev = false → s.dev.dma.occ = 0 → chosen →
       (g.accept = true → ActsR [] [.dma, .out, .pm] (.arbGrant g) s issued) ∧
       (g.accept = false → ActsR arb [.dma, .pm] (.arbGrant g) s returned)) ∧
     (rd s.dev F.ARB_STATUS_MODE = 0 → frozen s.dev = false → s.dev.dma.choice = some r →
       (free r → g.accept = true → ActsR [F.ARB_IDLE.addr 0] [.dma, .out, .pm] (.arbGrant g) s fun t =>
         issued t ∧ (chosen → g.write = false ∨ g.bytes ≤ 64 → t.dev.dma.choice = some r) ∧
         (g.write = true → 64 < g.bytes → t.dev.dma.choice = none)) ∧
       (free r → g.accept = false → ActsR (F.ARB_IDLE.addr 0 :: arb) [.dma, .pm] (.arbGrant g) s returned) ∧
       (¬ free r → ActsR [F.ARB_IDLE.addr 0, F.ARB_NULL.addr 0] [.dma, .pm] (.arbGrant g) s fun t =>
         t.dev.dma.credit = s.dev.dma.credit ∧ t.dev.dma.backoff = s.dev.dma.backoff ∧ t.dev.dma.boLen = s.dev.dma.boLen ∧
         rd t.dev F.ARB_NULL = satAdd 32 (rd s.dev F.ARB_NULL) 1)) ∧
     (ActsR [F.ARB_STATUS_BACKOFF.addr 0] [.dma] (.backoffExpiry r) s fun t =>
       t.dev.dma.backoff[r] = 0 ∧ ∀ q : Fin 8, q ≠ r → t.dev.dma.backoff[q] = s.dev.dma.backoff[q])) ∧
  (∀ (s : State), s.dev.pwr.core = true →
     let arb := [F.ARB_STATUS_MODE.addr 0, F.ARB_NULL.addr 0]
     let open' := s.dev.dma.link = true ∧ s.dev.dma.bme = true ∧ rd s.dev F.ARB_CTL_FREEZE = 0
     let stops (as : List Nat) (i : Instr) (f : State → Prop) : Prop := ActsR (as ++ arb) [.dma, .pm] i s fun t =>
       f t ∧ frozen t.dev = true ∧ t.dev.dma.credit = s.dev.dma.credit ∧ t.dev.dma.backoff = s.dev.dma.backoff
     let goes (as : List Nat) (i : Instr) : Prop :=
       ActsR (as ++ arb ++ [F.MSIX_PBA.addr 0, F.MSIX_PBA.addr 1]) [.dma, .pm, .out] i s fun t =>
         frozen t.dev = false ∧ rd t.dev F.ARB_STATUS_DRAINED = 0 ∧
         (frozen s.dev = true → t.dev.dma.backoff = Vector.replicate 8 0 ∧ rd t.dev F.ARB_STATUS_BACKOFF = 0 ∧
           ∀ v : Fin 64, rd s.dev F.MSIX_CTL v = 0 → (rd t.dev F.MSIX_PBA (v / 32)).testBit (v % 32) = false)
     (stops [] .dlDown fun t => t.dev.dma.link = false ∧ t.dev.dma.retry = []) ∧
     (stops [] (.busMasterEnable false) fun t => t.dev.dma.bme = false) ∧
     (stops [F.ARB_CTL_FREEZE.addr 0] (.freeze true) fun t => rd t.dev F.ARB_CTL_FREEZE = 1) ∧
     (s.dev.dma.bme = true → rd s.dev F.ARB_CTL_FREEZE = 0 → goes [] .linkUp) ∧
     (s.dev.dma.link = true → rd s.dev F.ARB_CTL_FREEZE = 0 → goes [] (.busMasterEnable true)) ∧
     (s.dev.dma.link = true → s.dev.dma.bme = true → goes [F.ARB_CTL_FREEZE.addr 0] (.freeze false)) ∧
     (open' → ActsR arb [.dma, .pm] .modeRecoveryEnd s fun t => t.dev.dma.recovery = false ∧
       (s.dev.dma.startup = false → rd s.dev F.DBG_CTL_ARB_TEST = 0 → rd t.dev F.ARB_STATUS_MODE = 0)) ∧
     (¬ open' → exec .modeRecoveryEnd s = .next s) ∧
     (frozen s.dev = true → ActsR [F.ARB_STATUS_DRAINED.addr 0] [] .drained s fun t => rd t.dev F.ARB_STATUS_DRAINED = 1))

/-! ### The scratchpad and the control complex (chapter 15) -/

/-- R379, R380, R382, R384: a BAR2 write inside the window stores every enabled byte whose word lies in an open region,
except that a word with a double-bit error takes only a full write; every other byte of the scratchpad keeps its value, and
DENY counts a write that had a byte discarded. Plain accesses of port C in the same bank periods change nothing of it: a
write of port C is lost, and BUSY counts each word that met one. R379, R380, R382 to R384: a BAR2 read returns the stored
bytes of every region, poisoned where a word it touches has a double-bit error, and changes no byte; each read of port C in
the same bank period counts a BUSY response, and 1024 of them in a row raise SP_STARVED; a write of port C is stored, and
the read returns its value. Where the manual leaves a reading open, the clauses take the model's, log entries 165 and 167. -/
def Obligations.Bar2StoresAndReturnsBytes : Prop :=
  (∀ (off : BitVec 22) (data : List (Option (BitVec 8))) (pc : List PortC) (ecc : List (Nat × Bool)) (s : State),
     s.dev.pwr.core = true → off.toNat + data.length ≤ 2 ^ 22 → (∀ x ∈ pc, plainC x = true) →
     let byte (a : Nat) : Option (BitVec 8) := if a < off.toNat then none else (data[a - off.toNat]?).getD none
     let full (w : Nat) : Bool := (List.range 8).all fun k => (byte (8 * w + k)).isSome
     let stores (w : Nat) : Bool := ((List.range 8).any fun k => (byte (8 * w + k)).isSome) && spOpen s.dev (8 * w)
     let words := spWords off.toNat data.length
     let bad := (spEcc ecc (words.filter fun w => stores w && !full w) s).sp.bad
     ∃ t, exec (.bar2Write off data ⟨pc, ecc⟩) s = .next t ∧
       t.pending = s.pending ∧ t.sn = s.sn ∧ t.ticked = s.ticked ∧ t.lock = s.lock ∧ Only [.regs, .hif, .pm] s.dev t.dev ∧
       (∀ a, spByte t.sp a = match byte a with
         | some b => if spOpen s.dev (8 * (a / 8)) = true ∧ (bad.contains (a / 8) = false ∨ full (a / 8) = true)
             then b else spByte s.sp a
         | none => spByte s.sp a) ∧
       ((∃ a b, byte a = some b ∧ spOpen s.dev a = false) →
         rd t.dev F.CTL_SP_STAT_DENY = satAdd 32 (rd s.dev F.CTL_SP_STAT_DENY) 1) ∧
       rd t.dev F.CTL_SP_STAT_BUSY = satAdd 32 (rd s.dev F.CTL_SP_STAT_BUSY)
         (words.filter fun w => stores w && pc.any (·.word == w)).length) ∧
  (∀ (off : BitVec 22) (n : Nat) (pc : List PortC) (ecc : List (Nat × Bool)) (s : State),
     s.dev.pwr.core = true → off.toNat + n ≤ 2 ^ 22 →
     let ws := spWords off.toNat n
     let hits := (pc.filter fun x => ws.contains x.word).length
     let same (t : State) : Prop :=
       t.pending = s.pending ∧ t.sn = s.sn ∧ t.ticked = s.ticked ∧ t.lock = s.lock ∧ Only [.out, .regs, .hif, .pm] s.dev t.dev ∧
       rd t.dev F.CTL_SP_STAT_BUSY = satAdd 32 (rd s.dev F.CTL_SP_STAT_BUSY) hits
     ((∀ x ∈ pc, x.op = .read) → ∃ t, exec (.bar2Read off n pc ecc) s = .next t ∧ same t ∧ t.sp.mem = s.sp.mem ∧
       Sent s.dev t.dev [.bar2 ((List.range n).map fun k => spByte s.sp (off.toNat + k)) (ws.any fun w => t.sp.bad.contains w)] ∧
       ((∀ x ∈ pc, x.word = off.toNat / 8) → 1024 ≤ hits → ∃ e ∈ t.dev.hif.evq, e.typ = 0x91 ∧ e.p0 = 8 * (off.toNat / 8))) ∧
     (∀ v, pc = [{ word := off.toNat / 8, op := .write v 0xFF }] → off.toNat % 8 = 0 → n = 8 →
       ∃ t, exec (.bar2Read off n pc ecc) s = .next t ∧ same t ∧ spWord t.sp (off.toNat / 8) = v ∧
         (∀ a, a / 8 ≠ off.toNat / 8 → spByte t.sp a = spByte s.sp a) ∧
         Sent s.dev t.dev [.bar2 ((List.range 8).map fun k => v.extractLsb' (8 * k) 8) false]))

/-- R381, R383: FETCHADD stores old + operand modulo 2^64 and SWAP stores the operand, on an aligned word of an open region
without a double-bit error; each returns the old value, and every byte outside the word keeps its value. An ADD that port C
makes in the same bank period comes first: the old value is its result. R325, R379: an AtomicOp that is not aligned is
answered with Unsupported Request, one in a closed region with Completer Abort; neither changes the scratchpad, and only the
second counts in DENY. Where the manual leaves a reading open, the clauses take the model's, log entry 75. -/
def Obligations.AtomicsReturnOldValue : Prop :=
  (∀ (off : BitVec 22) (val v : BitVec 64) (ecc : List (Nat × Bool)) (s : State),
     s.dev.pwr.core = true → off.toNat % 8 = 0 → spOpen s.dev off.toNat = true →
     (spEcc ecc [off.toNat / 8] s).sp.bad.contains (off.toNat / 8) = false →
     let w := off.toNat / 8
     let does (c : Instr) (old new : BitVec 64) : Prop := ∃ t, exec c s = .next t ∧
       t.pending = s.pending ∧ t.sn = s.sn ∧ t.ticked = s.ticked ∧ t.lock = s.lock ∧ Only [.out, .regs] s.dev t.dev ∧
       spWord t.sp w = new ∧ (∀ a, a / 8 ≠ w → spByte t.sp a = spByte s.sp a) ∧
       Sent s.dev t.dev [.bar2 ((List.range 8).map fun k => old.extractLsb' (8 * k) 8) false]
     ∀ x ∈ [([], spWord s.sp w), ([{ word := w, op := .add v }], spWord s.sp w + v)],
       does (.fetchadd off val ⟨x.1, ecc⟩) x.2 (x.2 + val) ∧ does (.swap off val ⟨x.1, ecc⟩) x.2 val) ∧
  (∀ (off : BitVec 22) (val : BitVec 64) (pc : List PortC) (ecc : List (Nat × Bool)) (s : State) (c : Instr),
     s.dev.pwr.core = true → (c = .fetchadd off val ⟨pc, ecc⟩ ∨ c = .swap off val ⟨pc, ecc⟩) →
     (off.toNat % 8 ≠ 0 → Acts [.out] c s fun t => Sent s.dev t.dev [.unsupported]) ∧
     (off.toNat % 8 = 0 → spOpen s.dev off.toNat = false → ActsR [F.CTL_SP_STAT_DENY.addr 0] [.out] c s fun t =>
       Sent s.dev t.dev [.abort] ∧ rd t.dev F.CTL_SP_STAT_DENY = satAdd 32 (rd s.dev F.CTL_SP_STAT_DENY) 1))

/-- Every step keeps the scratchpad's memory in canonical form and within its window. Where the manual leaves a reading
open, the clauses take the model's, log entry 15. -/
def Obligations.ScratchpadStaysCanonical : Prop :=
  ∀ s t : State, Memory.wf s.sp.mem = true → step s = .next t → Memory.wf t.sp.mem = true

/-- Boot (R392, R475): while core 0 is in the ROM and STAGE is 0, a verified flash image, B only once A has failed, starts
both cores with its security version and source, STAGE 0x4; with no flash image, STAGE becomes 0x1, or the search begins
again while push is disabled; GO in STAGE 0x1 starts verification; a pushed image that verifies starts, and one that fails
returns STAGE to 0x1 with FW_FAIL. Watchdogs, halts and activation (R393 to R398): a watchdog's expiry restarts its own core
alone and ends a halt of it; a kick takes the period of CTL_WDT_CFG; a halt stops a core that runs, and its end lets it run
again; firmware that starts is ready; firmware that is not ready in time leaves both cores FAILED. None of them reaches the
switch core, Tilth, protection, the lanes or the twin. Where the manual leaves a reading open, the clauses take the model's,
log entries 70, 166 and 168. -/
def Obligations.BootAndCoreSupervision : Prop :=
  (∀ (s : State), s.dev.pwr.core = true →
     let st := rd s.dev F.CTL_BOOT_STAGE
     let starts (t : State) (src svn : Nat) : Prop :=
       rd t.dev F.CTL_CORE_STATUS_C0_STATE = 2 ∧ rd t.dev F.CTL_CORE_STATUS_C1_STATE = 2 ∧
       rd t.dev F.CTL_CORE_STATUS_FW_SRC = src ∧ rd t.dev F.CTL_CORE_STATUS_SVN = svn % 2 ^ 16 ∧
       rd t.dev F.CTL_CORE_STATUS_FW_READY = rd s.dev F.CTL_CORE_STATUS_FW_READY ∧ rd t.dev F.CTL_BOOT_STAGE = 4
     (∀ (b : Bool) (img : List (BitVec 8)), inRom s.dev = true → st = 0 → s.dev.ctl.flashA = b →
       verifyImg (rootOf s.dev) (svnFloor s.dev) img.length img = 0 →
       ActsR ctlRegs [] (.imageVerified (if b then .flashB else .flashA) img) s fun t =>
         starts t (if b then 2 else 1) (imgSvn img)) ∧
     (∀ img, inRom s.dev = true → st = 0 → s.dev.ctl.flashA = false →
       (verifyImg (rootOf s.dev) (svnFloor s.dev) img.length img ≠ 0 → Acts [.ctl] (.imageVerified .flashA img) s fun t =>
         t.dev.ctl = { s.dev.ctl with flashA := true }) ∧ exec (.imageVerified .flashB img) s = .next s) ∧
     (inRom s.dev = true → st = 0 → pushDis s.dev = false →
       ActsR ctlRegs [] .flashSearch s fun t => rd t.dev F.CTL_BOOT_STAGE = 1) ∧
     (inRom s.dev = true → st = 0 → pushDis s.dev = true →
       Acts [.ctl] .flashSearch s fun t => t.dev.ctl = { s.dev.ctl with flashA := false }) ∧
     (st = 1 → ActsR [F.CTL_BOOT_STAGE.addr 0] [] .ctlBootGo s fun t => rd t.dev F.CTL_BOOT_STAGE = 2) ∧
     (∀ img, inRom s.dev = true → st = 2 →
       let l := rd s.dev F.CTL_BOOT_LEN
       let bytes := stagedBytes s.sp (min l 0x100000)
       let ok := verifyImg (rootOf s.dev) (svnFloor s.dev) l bytes = 0
       (ok → ActsR ctlRegs [] (.imageVerified .pushed img) s fun t => starts t 3 (imgSvn bytes)) ∧
       (¬ ok → ActsR [F.CTL_BOOT_STAGE.addr 0] [.hif] (.imageVerified .pushed img) s fun t =>
         rd t.dev F.CTL_BOOT_STAGE = 1 ∧ Raised s.dev t.dev [{ typ := 0x94, sn := s.sn, p0 := 1 }]))) ∧
  (∀ (s : State) (c : Fin 2), s.dev.pwr.core = true →
     let f := if c.val = 0 then F.CTL_CORE_STATUS_C0_STATE else F.CTL_CORE_STATUS_C1_STATE
     let g := if c.val = 0 then F.CTL_CORE_STATUS_C1_STATE else F.CTL_CORE_STATUS_C0_STATE
     (((s.dev.ctl.wdt[c.val]?).getD 0 ≠ 0 → (rd s.dev f = 2 ∨ rd s.dev f = 3 ∧ rd s.dev F.DBG_CTL_WDT_HALT = 0) →
       ActsR ctlRegs [.hif] (.coreWdt c) s fun t =>
         rd t.dev f = 4 ∧ rd t.dev g = rd s.dev g ∧ (rd t.dev F.DBG_STATUS_HALTED).testBit c.val = false ∧
         Raised s.dev t.dev [{ typ := 0x92, sn := s.sn, p0 := c.val }])) ∧
     (Acts [.ctl] (.wdtKick c) s fun t =>
       t.dev.ctl = { s.dev.ctl with wdt := s.dev.ctl.wdt.set c.val (rd s.dev F.CTL_WDT_CFG_TMO) }) ∧
     (∀ on, rd s.dev f = 2 ∨ rd s.dev f = 3 → ActsR ctlRegs [] (.debugHalt c on) s fun t =>
       rd t.dev f = (if on = true then 3 else 2) ∧ rd t.dev g = rd s.dev g ∧
       (rd t.dev F.DBG_STATUS_HALTED).testBit c.val = on ∧
       (rd t.dev (if c.val = 0 then F.DBG_CTL_HALT0 else F.DBG_CTL_HALT1) = on.toNat)) ∧
     (s.dev.ctl.act ≠ none → rd s.dev F.CTL_CORE_STATUS_C0_STATE = 4 →
       ActsR ctlRegs [.hif] .fwReadyTimeout s fun t =>
         rd t.dev F.CTL_CORE_STATUS_C0_STATE = 5 ∧ rd t.dev F.CTL_CORE_STATUS_C1_STATE = 5 ∧
         Raised s.dev t.dev [{ typ := 0x94, sn := s.sn, p0 := 2 }]))

/-- Firmware update (R393, R394, R475): an image that verifies is staged, and ACTION 0 completes with its security version;
ACTION 1 and ACTION 2 restart both cores while the descriptor waits; when firmware is ready again the held descriptor
completes with OK and FW_ACTIVATED names the version. An image that fails leaves the staging content and the staged image as
they were. Where the manual leaves a reading open, the clauses take the model's, log entries 71 and 72. -/
def Obligations.FirmwareUpdateRestartsCores : Prop :=
  ∀ (s : State) (r : Fin 16) (e : QEnt) (img : List (BitVec 8)), s.dev.pwr.core = true →
    let len := dF e.raw 24 0 32
    let v := verifyImg (rootOf s.dev) (svnFloor s.dev) len img
    let restarts (t : State) (svn : Nat) : Prop :=
      rd t.dev F.CTL_CORE_STATUS_C0_STATE = 4 ∧ rd t.dev F.CTL_CORE_STATUS_C1_STATE = 4 ∧
      rd t.dev F.CTL_CORE_STATUS_FW_READY = 0 ∧ t.dev.ctl.act = some (r.val, e.uid, svn) ∧ Taken s.dev t.dev r e.uid
    let stages (t : State) : Prop :=
      t.dev.ctl.staged = some (imgSvn img, imgStates img) ∧
      (∀ a, spByte t.sp a =
        if 0x200000 ≤ a ∧ a < 0x200000 + img.length then (img[a - 0x200000]?).getD 0 else spByte s.sp a)
    let same (t : State) : Prop :=
      t.pending = s.pending ∧ t.sn = s.sn ∧ t.ticked = s.ticked ∧ t.lock = s.lock ∧ Only [.regs, .hif, .ctl] s.dev t.dev
    (∀ act : Fin 2, fwDesc s.dev r act.val = some e → reservedAt e.raw = none → len ≤ 0x100000 →
      (v = 0 → ∃ t, exec (if act.val = 0 then .fwStage r img else .fwStageActivate r img) s = .next t ∧ same t ∧ stages t ∧
        (act.val = 0 → Served s.dev t.dev r e.uid 0 0 s.sn (BitVec.ofNat 64 (imgSvn img)) ∧ t.dev.ctl.act = s.dev.ctl.act) ∧
        (act.val = 1 → verBad s.dev (imgSvn img, imgStates img) = false → restarts t (imgSvn img)) ∧
        (act.val = 1 → verBad s.dev (imgSvn img, imgStates img) = true → Served s.dev t.dev r e.uid 0x12 (16 + 256 * 7) s.sn 0)) ∧
      (v ≠ 0 → ∃ t, exec (if act.val = 0 then .fwStage r img else .fwStageActivate r img) s = .next t ∧ DevOnly s t ∧
        t.dev.ctl = s.dev.ctl ∧ t.dev.regs = s.dev.regs ∧
        Served s.dev t.dev r e.uid 0x12 (16 + 256 * (if v = 1 then 7 else 6)) s.sn 0)) ∧
    (∀ x, fwDesc s.dev r 2 = some e → reservedAt e.raw = none → s.dev.ctl.staged = some x → verBad s.dev x = false →
      ∃ t, exec (.fwActivate r) s = .next t ∧ same t ∧ t.sp = s.sp ∧ restarts t x.1) ∧
    (∀ a, s.dev.ctl.act = some a → rd s.dev F.CTL_CORE_STATUS_C0_STATE = 4 → rd s.dev F.CTL_CORE_STATUS_C1_STATE = 4 →
      ∃ t, exec .fwReady s = .next t ∧ same t ∧
        rd t.dev F.CTL_CORE_STATUS_C0_STATE = 2 ∧ rd t.dev F.CTL_CORE_STATUS_C1_STATE = 2 ∧
        rd t.dev F.CTL_CORE_STATUS_FW_READY = 1 ∧ t.dev.ctl.act = none ∧
        Raised s.dev t.dev [{ typ := 0x93, sn := s.sn, p0 := a.2.2 }] ∧
        Served s.dev t.dev a.1 a.2.1 0 0 s.sn (BitVec.ofNat 64 a.2.2))

/-! ### Timing and clocks (chapter 16) -/

/-- R402, R403, R421, R423: clock sources. Two agreeing measurements in range, after 65,536 cycles, judge the XO stable and
put the DPLL in FREERUN; 100 ms without that set XO_FAIL; an APLL that locks shows its bit, APLL0 with the twin-link lanes'
power request; the loss of the XO sets XO_LOSS, puts the DPLL in FREERUN without a reference, makes every transmitter send
QL 0xF with FREERUN, and raises CLK_NMI cause 3; a stopped cluster or plane clock raises cause 4; a stopped multiplexer
output rescues its group to FIO and raises cause 1 with both cores restarted, or cause 2 with the open PM bins SUSPECT;
every other monitor raises CLK_MON_FREQ; a CLK_NMI is a failure of the twin where FAIL_MASK bit 0 says so. Where the manual
leaves a reading open, the clauses take the model's, log entries 169 and 170. -/
def Obligations.ClockSourcesAndMonitors : Prop :=
  ∀ (s : State), s.dev.pwr.core = true →
    let clk := F.CLK_STATUS_XO_OK.addr 0
    let nmiRegs := [clk, F.TIM_STATUS_SEL.addr 0, F.TWN_STATUS_LAST_CAUSE.addr 0, F.MSIX_PBA.addr (rd s.dev F.HIF_CFG_NMI_VEC / 32)]
    let fails := (rd s.dev F.TWN_CFG_FAIL_MASK).testBit 0
    let clkNmiOf (c : Instr) (cause : Nat) (more : List Nat) (mp : List Part) (f : State → Prop) :=
      ActsR (nmiRegs ++ more) ([.tim, .hif, .out, .pm, .twin, .prot] ++ mp) c s fun t =>
        f t ∧ t.dev.hif.nmi = s.dev.hif.nmi + 1 ∧
        (∃ es, t.dev.hif.evq = s.dev.hif.evq ++ es ∧
          ({ typ := 0x77, sn := s.sn, p0 := cause, sb := s.dev.twin.role == .standby } : Ev) ∈ es) ∧
        (fails = false → t.dev.twin = s.dev.twin ∧ t.dev.prot = s.dev.prot) ∧
        (fails = true → s.dev.twin.role = .active →
          t.dev.twin = { s.dev.twin with role := .failed, latch := false, failOut := true, promoting := none, gpio := none } ∧
          t.dev.prot = { s.dev.prot with stopped := false } ∧ rd t.dev F.TWN_STATUS_LAST_CAUSE = 6)
    (∀ (a b : Nat) (older : List Nat), rdB s.dev F.CLK_STATUS_XO_OK = false → 6963 ≤ min a b → max a b ≤ 9421 →
      1000 * (max a b - min a b) ≤ 5 * min a b → 62 ≤ older.length →
      ActsR [clk, F.TIM_STATUS_SEL.addr 0] [] (.xoOk (older ++ [a, b])) s fun t =>
        rd t.dev F.CLK_STATUS_XO_OK = 1 ∧ rd t.dev F.TIM_STATUS_STATE = 0) ∧
    (∀ (a b : Nat) (older : List Nat), (older.length < 62 ∨ min a b < 6963 ∨ 9421 < max a b ∨ 5 * min a b < 1000 * (max a b - min a b)) →
      exec (.xoOk (older ++ [a, b])) s = .next s) ∧
    (rdB s.dev F.CLK_STATUS_XO_OK = false → ActsR [clk] [] .xoFail s fun t => rd t.dev F.CLK_STATUS_XO_FAIL = 1) ∧
    (∀ a : Fin 3, rdB s.dev F.CLK_STATUS_XO_OK = true → (rd s.dev F.CLK_STATUS_APLL_LOCK).testBit a.val = false →
      ActsR [clk] [.stagger] (.apllLock a) s fun t =>
        rd t.dev F.CLK_STATUS_APLL_LOCK = rd s.dev F.CLK_STATUS_APLL_LOCK ||| 2 ^ a.val ∧
        t.dev.stagger = if a = 0 then 32 :: s.dev.stagger else s.dev.stagger) ∧
    (rdB s.dev F.CLK_STATUS_XO_OK = true → rdB s.dev F.CLK_STATUS_XO_LOSS = false → ∀ c ∈ [Instr.xoLoss, .clockStop 0],
      clkNmiOf c 3 [] [] fun t =>
        rd t.dev F.CLK_STATUS_XO_LOSS = 1 ∧ rd t.dev F.TIM_STATUS_STATE = 0 ∧ rd t.dev F.TIM_STATUS_SEL = 0xF ∧
        qlOut t.dev = 0xF ∧ o7Hold t.dev = false ∧ o7Free t.dev = true) ∧
    (∀ m : Fin 8, m.val = 1 ∨ m.val = 2 → clkNmiOf (.clockStop m) 4 [] [] fun t => ticking t.dev = false) ∧
    clkNmiOf (.clockStop 6) 1 ctlRegs [] (fun t =>
      rd t.dev F.CLK_STATUS_SYS_RESCUE = 1 ∧ rd t.dev F.CLK_STATUS_SYS_CUR = 0 ∧ rd t.dev F.DBG_CTL_HALT0 = 0 ∧
      rd t.dev F.DBG_CTL_HALT1 = 0 ∧
      rd t.dev F.CTL_CORE_STATUS_C0_STATE = (let x := rd s.dev F.CTL_CORE_STATUS_C0_STATE; if x = 2 ∨ x = 3 then 4 else x) ∧
      rd t.dev F.CTL_CORE_STATUS_C1_STATE = (let x := rd s.dev F.CTL_CORE_STATUS_C1_STATE; if x = 2 ∨ x = 3 then 4 else x)) ∧
    clkNmiOf (.clockStop 7) 2 [] [] (fun t =>
      rd t.dev F.CLK_STATUS_PER_RESCUE = 1 ∧ rd t.dev F.CLK_STATUS_PER_CUR = 0 ∧
      t.dev.pm.objs.map (·.1) = s.dev.pm.objs.map (·.1) ∧ ∀ o ∈ t.dev.pm.objs, o.2.c15.suspect = true ∧ o.2.c24.suspect = true) ∧
    (∀ m : Fin 8, 3 ≤ m.val → m.val ≤ 5 → Acts [.tim, .hif] (.clockStop m) s fun t =>
      Raised s.dev t.dev [{ typ := 0x78, sn := s.sn, p0 := m.val, p1 := 0 }] ∧
      t.dev.tim = { s.dev.tim with stopped := s.dev.tim.stopped ||| BitVec.ofNat 8 (2 ^ m.val) } ∧
      (m.val = 5 → ∀ n : Fin 4, clkOutLow t.dev n = true)) ∧
    (∀ (m : Fin 8) (count : W32), rdB s.dev F.CLK_STATUS_XO_OK = true →
      ActsR [F.CLK_MON_FAIL_OFF_FREQ.addr 0] [.hif] (.offFreq m count) s fun t =>
        (rd t.dev F.CLK_MON_FAIL_OFF_FREQ).testBit m.val = true ∧
        Raised s.dev t.dev [{ typ := 0x78, sn := s.sn, p0 := m.val, p1 := count.toNat }])

/-- R422 to R425: multiplexers and the frequency counter. CLK_SEL names the source; a completed switch makes it the source
now driving the group unless the group is rescued, and hangs while an output of APLL1 is stopped; a rescue is released only
once the glitch-free output has run; a count starts with BUSY, or sets CFG_ERR where it cannot; its end gives COUNT, DONE
and TMO. R416 to R419: a phase step series starts at its sweep, or at SN + 2 with LATE; GO while one runs sets CFG_ERR; each
step applies at most 64 ps, the next one IVL sweeps later, and the last ends the series with TIM_PSTEP_DONE. PPS_IN is
stamped with SN and offset; PPS_OUT rises while it is enabled. Where the manual leaves a reading open, the clauses take the
model's, log entries 85, 123, 170 and 171. -/
def Obligations.ClocksPhaseStepsAndPulses : Prop :=
  (∀ (s : State), s.dev.pwr.core = true →
     let clk := F.CLK_STATUS_XO_OK.addr 0
     (∀ sys per : Bool, ActsR [F.CLK_SEL_SYS.addr 0] [] (.clkSelWrite sys per) s fun t =>
       rdB t.dev F.CLK_SEL_SYS = sys ∧ rdB t.dev F.CLK_SEL_PER = per) ∧
     (apll1Runs s.dev = false → ∀ per, exec (.muxSwitchComplete per) s = .next s) ∧
     (apll1Runs s.dev = true → ActsR [clk] [.tim] (.muxSwitchComplete false) s fun t =>
       t.dev.tim = { s.dev.tim with sysMux := rdB s.dev F.CLK_SEL_SYS } ∧
       (rdB s.dev F.CLK_STATUS_SYS_RESCUE = false → rdB t.dev F.CLK_STATUS_SYS_CUR = rdB s.dev F.CLK_SEL_SYS) ∧
       (rdB s.dev F.CLK_STATUS_SYS_RESCUE = true → rdWord t.dev clk = rdWord s.dev clk)) ∧
     (apll1Runs s.dev = true → ActsR [clk] [.tim] (.muxSwitchComplete true) s fun t =>
       t.dev.tim = { s.dev.tim with perMux := rdB s.dev F.CLK_SEL_PER } ∧
       (rdB s.dev F.CLK_STATUS_PER_RESCUE = false → rdB t.dev F.CLK_STATUS_PER_CUR = rdB s.dev F.CLK_SEL_PER) ∧
       (rdB s.dev F.CLK_STATUS_PER_RESCUE = true → rdWord t.dev clk = rdWord s.dev clk)) ∧
     (∀ perRun : Bool, rdB s.dev F.CLK_STATUS_SYS_RESCUE = true →
       (ActsR [clk] [] (.rescueRelease true false true perRun) s fun t =>
         rd t.dev F.CLK_STATUS_SYS_RESCUE = 0 ∧ rdB t.dev F.CLK_STATUS_SYS_CUR = s.dev.tim.sysMux ∧
         rd t.dev F.CLK_STATUS_PER_RESCUE = rd s.dev F.CLK_STATUS_PER_RESCUE) ∧
       exec (.rescueRelease true false false perRun) s = .next s) ∧
     (∀ sysRun : Bool, rdB s.dev F.CLK_STATUS_PER_RESCUE = true →
       (ActsR [clk] [] (.rescueRelease false true sysRun true) s fun t =>
         rd t.dev F.CLK_STATUS_PER_RESCUE = 0 ∧ rdB t.dev F.CLK_STATUS_PER_CUR = s.dev.tim.perMux ∧
         rd t.dev F.CLK_STATUS_SYS_RESCUE = rd s.dev F.CLK_STATUS_SYS_RESCUE) ∧
       exec (.rescueRelease false true sysRun false) s = .next s) ∧
     (rd s.dev F.CLK_FCNT_CTL_SRC < 16 → (rdB s.dev F.CLK_FCNT_CTL_REF = true → rdB s.dev F.CLK_STATUS_XO_OK = true) →
       ActsR [F.CLK_FCNT_STATUS_BUSY.addr 0] [] .frequencyCountStart s fun t =>
         rd t.dev F.CLK_FCNT_STATUS_BUSY = 1 ∧ rd t.dev F.CLK_FCNT_STATUS_DONE = 0) ∧
     ((16 ≤ rd s.dev F.CLK_FCNT_CTL_SRC ∨ (rdB s.dev F.CLK_FCNT_CTL_REF = true ∧ rdB s.dev F.CLK_STATUS_XO_OK = false)) →
       ActsR [clk] [] .frequencyCountStart s fun t => rd t.dev F.CLK_STATUS_CFG_ERR = 1) ∧
     (∀ (count : W32) (tmo : Bool), rdB s.dev F.CLK_FCNT_STATUS_BUSY = true →
       ActsR [F.CLK_FCNT_STATUS_BUSY.addr 0, F.CLK_FCNT_RESULT_COUNT.addr 0] [] (.frequencyCountDone count tmo) s fun t =>
         rd t.dev F.CLK_FCNT_RESULT_COUNT = count.toNat ∧ rd t.dev F.CLK_FCNT_STATUS_DONE = 1 ∧
         rd t.dev F.CLK_FCNT_STATUS_BUSY = 0 ∧ rdB t.dev F.CLK_FCNT_STATUS_TMO = tmo)) ∧
  (∀ (s : State), s.dev.pwr.core = true →
     let st := F.TIM_PSTEP_STATUS_BUSY.addr 0
     let t0 : SN := BitVec.ofNat 32 (rd s.dev F.TIM_PSTEP_SN)
     let size := signed 21 (rd s.dev F.TIM_PSTEP_SIZE)
     let ivl := max 1 (rd s.dev F.TIM_PSTEP_IVL)
     (rdB s.dev F.TIM_PSTEP_STATUS_BUSY = true → ActsR [F.CLK_STATUS_CFG_ERR.addr 0] [] .timPstepGo s fun t =>
       rd t.dev F.CLK_STATUS_CFG_ERR = 1) ∧
     (rdB s.dev F.TIM_PSTEP_STATUS_BUSY = false →
       let inTime := 2 ≤ (t0 - s.sn).toNat ∧ (t0 - s.sn).toNat < 2 ^ 31
       (inTime → ActsR [st] [.tim] .timPstepGo s fun t =>
         t.dev.tim = { s.dev.tim with ps := some { remain := size, size := size, ivl := ivl, next := t0, late := false } } ∧
         rd t.dev F.TIM_PSTEP_STATUS_BUSY = 1 ∧ rd t.dev F.TIM_PSTEP_STATUS_REMAIN = rd s.dev F.TIM_PSTEP_SIZE ∧
         rd t.dev F.TIM_PSTEP_STATUS_LATE = rd s.dev F.TIM_PSTEP_STATUS_LATE) ∧
       (¬ inTime → ActsR [st] [.tim] .timPstepGo s fun t =>
         t.dev.tim = { s.dev.tim with ps := some { remain := size, size := size, ivl := ivl, next := s.sn + 2, late := true } } ∧
         rd t.dev F.TIM_PSTEP_STATUS_BUSY = 1 ∧ rd t.dev F.TIM_PSTEP_STATUS_LATE = 1)) ∧
     (∀ p, s.dev.tim.ps = some p → snDue p.next s.sn = true →
       (p.remain.natAbs ≤ 64 → ActsR [st] [.tim, .hif] .phaseStep s fun t =>
         t.dev.tim = { s.dev.tim with ps := none } ∧ rd t.dev F.TIM_PSTEP_STATUS_BUSY = 0 ∧ rd t.dev F.TIM_PSTEP_STATUS_REMAIN = 0 ∧
         Raised s.dev t.dev [{ typ := 0x75, sn := s.sn, p0 := unsigned 32 p.size, p1 := p.late.toNat }]) ∧
       (∀ r : Int, (64 < p.remain ∧ r = p.remain - 64) ∨ (p.remain < -64 ∧ r = p.remain + 64) →
         ActsR [st] [.tim] .phaseStep s fun t =>
           t.dev.tim = { s.dev.tim with ps := some { p with remain := r, next := p.next + BitVec.ofNat 32 p.ivl } } ∧
           rd t.dev F.TIM_PSTEP_STATUS_REMAIN = unsigned 21 r)) ∧
     (∀ ns ≤ 1638, ActsR [F.TIM_PPS_TS_SN.addr 0, F.TIM_PPS_TS_OFS.addr 0] [.hif] (.ppsIn ns) s fun t =>
       rd t.dev F.TIM_PPS_TS_SN = s.sn.toNat ∧ rd t.dev F.TIM_PPS_TS_OFS = ns ∧
       Raised s.dev t.dev [{ typ := 0x76, sn := s.sn, p0 := s.sn.toNat, p1 := ns }]) ∧
     (rdB s.dev F.TIM_PPS_OUT_EN = true → s.dev.tim.stopped.getLsbD 5 = false → Acts [.out] .ppsOut s fun t => Sent s.dev t.dev [.pps]) ∧
     (rdB s.dev F.TIM_PPS_OUT_EN = false → exec .ppsOut s = .next s))

/-- R406, Table 16-2: a window's offset above DISQ_PPM disqualifies its slot, three windows in a row at or below REQ_PPM
clear that and start the wait-to-restore timer, whose end qualifies the slot where no condition holds; a REFIN without an
edge is disqualified and its next edge starts the timer. A change of qualification raises TIM_CAND_FAIL with its condition.
Where the manual leaves a reading open, the clauses take the model's, log entry 84. -/
def Obligations.CandidatesQualify : Prop :=
  ∀ (s : State) (i : Fin 8), s.dev.pwr.core = true → rdB s.dev F.TIM_CAND_EN i = true → candSrc s.dev i < 0x84 →
    rd s.dev F.TIM_CAND_STATUS_QL i = candQl s.dev i →
    let disq := min (rd s.dev F.TIM_CFG2_DISQ_PPM) 50
    let req := min (rd s.dev F.TIM_CFG2_REQ_PPM) disq
    let x := candRec s.dev i
    let st := [F.TIM_CAND_STATUS_QUAL.addr i]
    let failEv (p1 : Nat) : Ev := { typ := 0x72, sn := s.sn, p0 := i.val, p1 := p1 }
    (∀ ofs : BitVec 24, let mag := ofs.toInt.natAbs
      (100 * disq < mag → ActsR st [.tim, .hif] (.candidateWindow i ofs) s fun t =>
        rd t.dev F.TIM_CAND_STATUS_OFS i = ofs.toNat ∧ (candRec t.dev i).ofs = true ∧ candQual t.dev i = false ∧
        rd t.dev F.TIM_CAND_STATUS_WTR_RUN i = 0 ∧
        (candQual s.dev i = true → candConds s.dev i = 0 → Raised s.dev t.dev [failEv (1 + 16 * 3)])) ∧
      (mag ≤ 100 * req → x.ofs = true → x.okWin < 2 → ActsR st [.tim, .hif] (.candidateWindow i ofs) s fun t =>
        rd t.dev F.TIM_CAND_STATUS_OFS i = ofs.toNat ∧ (candRec t.dev i).ofs = true ∧ (candRec t.dev i).okWin = x.okWin + 1 ∧
        candQual t.dev i = false) ∧
      (mag ≤ 100 * req → x.ofs = true → 2 ≤ x.okWin → candConds s.dev i = 4 → x.cond = 4 → candQual s.dev i = false →
        ActsR st [.tim, .hif] (.candidateWindow i ofs) s fun t =>
          (candRec t.dev i).ofs = false ∧
          (rd s.dev F.TIM_CAND_WTR i ≠ 0 → rd t.dev F.TIM_CAND_STATUS_WTR_RUN i = 1 ∧ candQual t.dev i = false ∧ Raised s.dev t.dev []) ∧
          (rd s.dev F.TIM_CAND_WTR i = 0 → x.wtr = false → rd t.dev F.TIM_CAND_STATUS_WTR_RUN i = 0 ∧ candQual t.dev i = true ∧
            Raised s.dev t.dev [failEv (16 * 3)])) ∧
      (100 * req < mag → mag ≤ 100 * disq → ActsR st [.tim, .hif] (.candidateWindow i ofs) s fun t =>
        (candRec t.dev i).ofs = x.ofs ∧ (candRec t.dev i).okWin = 0)) ∧
    (x.wtr = true → candConds s.dev i = 0 → x.cond = 0 → candQual s.dev i = false →
      ActsR st [.tim, .hif] (.candidateWtr i) s fun t =>
        candQual t.dev i = true ∧ rd t.dev F.TIM_CAND_STATUS_WTR_RUN i = 0 ∧ Raised s.dev t.dev [failEv (16 * x.last)]) ∧
    (x.wtr = false → exec (.candidateWtr i) s = .next s) ∧
    (128 ≤ candSrc s.dev i →
      (candConds s.dev i = 0 → candQual s.dev i = true → ActsR st [.tim, .hif] (.noActivity i false) s fun t =>
        (candRec t.dev i).act = true ∧ candQual t.dev i = false ∧ Raised s.dev t.dev [failEv (1 + 16 * 2)]) ∧
      (candConds s.dev i = 2 → x.cond = 2 → candQual s.dev i = false → rd s.dev F.TIM_CAND_WTR i ≠ 0 →
        ActsR st [.tim, .hif] (.noActivity i true) s fun t =>
          (candRec t.dev i).act = false ∧ candQual t.dev i = false ∧ rd t.dev F.TIM_CAND_STATUS_WTR_RUN i = 1)) ∧
    (candSrc s.dev i < 128 → ∀ e : Bool, exec (.noActivity i e) s = .next s)

/-- R408, R410, R411, R413, R414: selection and the DPLL. MODE forces FREERUN, or HOLDOVER where the history is valid; FORCE
selects its slot while that is qualified; otherwise the best qualified candidate replaces none, one no longer qualified, one
of worse rank, or, with REVERT, one of equal rank and lower priority. A new reference means ACQUIRE, a lost one HOLDOVER or
FREERUN by the history; entering HOLDOVER starts the specification timer, whose end raises TIM_HO_EXPIRED and makes the
transmitted QL the clock's own. -/
def Obligations.ReferenceSelectionAndHoldover : Prop :=
  ∀ (s : State), s.dev.pwr.core = true → rdB s.dev F.CLK_STATUS_XO_OK = true → rdB s.dev F.CLK_STATUS_XO_LOSS = false →
    linked s.dev = false → rd s.dev F.TIM_STATUS_SEL = s.dev.tim.sel → rd s.dev F.TIM_STATUS_STATE = s.dev.tim.st →
    let q (i : Nat) : Prop := i < 8 ∧ candQual s.dev i = true
    let rank (i : Nat) : Nat := if rdB s.dev F.TIM_CFG_QL_EN then (qlRank s.dev (rd s.dev F.TIM_CAND_STATUS_QL i)).getD 99 else 0
    let prio (i : Nat) : Nat := rd s.dev F.TIM_CAND_PRIO i
    let best (b : Nat) : Prop := q b ∧ ∀ j, q j → j ≠ b →
      rank b < rank j ∨ (rank b = rank j ∧ (prio b < prio j ∨ (prio b = prio j ∧ b < j)))
    let ho := if rdB s.dev F.TIM_STATUS_HO_VALID then 3 else 0
    let old := s.dev.tim.sel
    let ost := s.dev.tim.st
    let mode := rd s.dev F.TIM_CFG_MODE
    let force := rd s.dev F.TIM_CFG_FORCE
    let goes (sel st : Nat) : Prop := ActsR [F.TIM_STATUS_SEL.addr 0] [.tim, .hif] .referenceSelection s fun t =>
      t.dev.tim.sel = sel ∧ t.dev.tim.st = st ∧ rd t.dev F.TIM_STATUS_SEL = sel ∧ rd t.dev F.TIM_STATUS_STATE = st ∧
      (st = 3 → ost ≠ 3 → (rdB t.dev F.TIM_STATUS_HO_SPEC_RUN = true ↔ rd s.dev F.TIM_HO_SPEC ≠ 0) ∧
        (old < 8 → qlOut t.dev = if rd s.dev F.TIM_HO_SPEC = 0 then rd s.dev F.TIM_CFG_OWN_QL else rd s.dev F.TIM_CAND_STATUS_QL old)) ∧
      (st ≠ 3 → rd t.dev F.TIM_STATUS_HO_SPEC_RUN = 0) ∧
      (st = 1 → sel < 8 → qlOut t.dev = rd s.dev F.TIM_CAND_STATUS_QL sel) ∧
      (st = 0 → qlOut t.dev = rd s.dev F.TIM_CFG_OWN_QL) ∧
      Raised s.dev t.dev (
        (if old ≠ sel then [{ typ := 0x70, sn := s.sn, p0 := old, p1 := sel,
                              p2 := if sel < 8 then rd s.dev F.TIM_CAND_STATUS_QL sel else 0xF }] else []) ++
        (if ost ≠ st then [{ typ := 0x71, sn := s.sn, p0 := ost, p1 := st, p2 := qlOut t.dev }] else []))
    let keep (sel : Nat) : Nat := if sel = old ∧ (ost = 1 ∨ ost = 2) then ost else 1
    let none' : Prop := goes 0xF (if ost = 1 ∨ ost = 2 then ho else ost)
    (mode = 1 → goes 0xF 0) ∧
    (mode = 2 → goes 0xF ho) ∧
    (mode = 0 ∨ mode = 3 →
      (force < 8 → candQual s.dev force = true → goes force (keep force)) ∧
      (force < 8 → candQual s.dev force = false → none') ∧
      (8 ≤ force →
        ((∀ i, ¬ q i) → none') ∧
        (∀ b, best b →
          (¬ q old → goes b (keep b)) ∧
          (q old → (rank b < rank old ∨ (rdB s.dev F.TIM_CFG_REVERT = true ∧ rank b = rank old ∧ prio b < prio old)) → goes b (keep b)) ∧
          (q old → ¬ (rank b < rank old ∨ (rdB s.dev F.TIM_CFG_REVERT = true ∧ rank b = rank old ∧ prio b < prio old)) →
            goes old (keep old))))) ∧
    (ost = 1 → ActsR [F.TIM_STATUS_SEL.addr 0] [.tim, .hif] .dpllLock s fun t =>
      rd t.dev F.TIM_STATUS_STATE = 2 ∧ rd t.dev F.TIM_STATUS_HO_VALID = 0 ∧ t.dev.tim = { s.dev.tim with st := 2 } ∧
      Raised s.dev t.dev [{ typ := 0x71, sn := s.sn, p0 := 1, p1 := 2, p2 := qlOut t.dev }]) ∧
    (ost = 2 → ActsR [F.TIM_STATUS_SEL.addr 0] [] .holdoverHistoryValid s fun t => rd t.dev F.TIM_STATUS_HO_VALID = 1) ∧
    (ost ≠ 2 → exec .holdoverHistoryValid s = .next s) ∧
    (rdB s.dev F.TIM_STATUS_HO_SPEC_RUN = true → ActsR [F.TIM_STATUS_SEL.addr 0] [.tim, .hif] .timHoExpired s fun t =>
      rd t.dev F.TIM_STATUS_HO_SPEC_RUN = 0 ∧ (ost = 3 → qlOut t.dev = rd s.dev F.TIM_CFG_OWN_QL) ∧
      Raised s.dev t.dev [{ typ := 0x74, sn := s.sn }]) ∧
    (rdB s.dev F.TIM_STATUS_HO_SPEC_RUN = false → s.dev.tim.hoLeft = some s.sn → Acts [.tim, .hif] .timHoExpired s fun t =>
      Raised s.dev t.dev [{ typ := 0x74, sn := s.sn }])

/-! ### Monitoring and management channels (chapter 17) -/

/-- R432, R433: PM_CONFIG with EN = 1 takes the parameters and monitors the object: a new one gets empty SUSPECT bins at
once, one already monitored keeps its counts; EN = 0 frees the bins; other objects stay as they are. An unlisted KIND or an
OBJECT outside its range completes with BAD_DESC reason 1, an enable beyond 4096 objects with reason 6, and changes nothing.
R445 to R447: a snapshot, a clear and a new selection of the performance counters wait for the next tick, and until then no
counter and no count register changes; grain tagging steps the LFSR of x³² + x²² + x² + x + 1 and takes the port and the
grain from it. Where the manual leaves a reading open, the clauses take the model's, log entries 33, 63, 64 and 164. -/
def Obligations.PmObjectsCountersAndTags : Prop :=
  (∀ (s : State) (r : Fin 16) (e : QEnt), s.dev.pwr.core = true → servedBy s.dev r 0x30 = some e → reservedAt e.raw = none →
     let kind := dF e.raw 16 0 16
     let obj := dF e.raw 20 0 32
     let k := cntKey kind obj 0
     let en := dB e.raw 24 0
     let clean := dF e.raw 24 1 31 = 0 ∧ dF e.raw 32 0 5 ≤ 26 ∧ dF e.raw 32 6 26 = 0 ∧ ∀ i : Fin 6, dF e.raw (40 + 4 * i.val) 0 32 = 0
     let listed := 1 ≤ kind ∧ kind ≤ 6
     let inRange := obj < (if kind = 2 then 2 ^ 21 else if kind = 6 then 2 ^ 17 else 128)
     let tod := rd s.dev F.PMN_TIME_SEC_OF_DAY
     let day := rd s.dev F.PMN_DAY_DAY
     let bad (det : Nat) : Prop := Acts [.hif] (.pmConfig r) s fun t => Served s.dev t.dev r e.uid 0x12 det s.sn 0
     (¬ listed → clean → bad (16 + 256 * 1)) ∧
     (listed → ¬ inRange → clean → bad (20 + 256 * 1)) ∧
     (listed → inRange → clean → en = true → tfind s.dev.pm.objs k = none → 4096 ≤ s.dev.pm.objs.length → bad (24 + 256 * 6)) ∧
     (listed → inRange → clean → (en = true → tfind s.dev.pm.objs k = none → s.dev.pm.objs.length < 4096) →
       Acts [.hif, .pm] (.pmConfig r) s fun t =>
         Served s.dev t.dev r e.uid 0 0 s.sn 0 ∧
         (∀ j, j ≠ k → tfind t.dev.pm.objs j = tfind s.dev.pm.objs j) ∧
         (en = false → tfind t.dev.pm.objs k = none) ∧
         (en = true → ∃ o, tfind t.dev.pm.objs k = some o ∧
           o.sesTh = dF e.raw 28 0 32 ∧ o.tcaIdx = dF e.raw 32 0 5 ∧ o.tcaEn = dB e.raw 32 5 ∧ o.tcaTh = dF e.raw 36 0 32 ∧
           (tfind s.dev.pm.objs k = none →
             o.c15 = { idx := tod / 900 + 128 * day, suspect := true } ∧ o.c24 = { idx := 127 + 128 * day, suspect := true }) ∧
           (∀ p, tfind s.dev.pm.objs k = some p → o.c15 = p.c15 ∧ o.p15 = p.p15 ∧ o.c24 = p.c24 ∧ o.p24 = p.p24 ∧ o.sec = p.sec)))) ∧
  (∀ (s : State) (n : Fin 32) (v : W32), s.dev.pwr.core = true →
     let l := s.dev.pm.lfsr
     (ActsR [F.PMN_PERF_STATUS_DONE.addr 0] [.pm] .perfSnap s fun t => t.dev.pm = { s.dev.pm with snapDue := true }) ∧
     (Acts [.pm] .perfClear s fun t => t.dev.pm = { s.dev.pm with clearDue := true }) ∧
     (Acts [.pm] (.pmnPerfSelWrite n v) s fun t => tfind t.dev.pm.selDue n.val = some v ∧
       t.dev.pm = { s.dev.pm with selDue := t.dev.pm.selDue } ∧ ∀ k, k ≠ n.val → tfind t.dev.pm.selDue k = tfind s.dev.pm.selDue k) ∧
     (s.dev.pm.tagCfg.getLsbD 5 = true → 2 ^ min (s.dev.pm.tagCfg.extractLsb' 0 5).toNat 20 ≤ s.dev.pm.tagAge → Acts [.pm] .grainTag s fun t =>
       let m := t.dev.pm.lfsr
       m.extractLsb' 1 31 = l.extractLsb' 0 31 ∧
       m.getLsbD 0 = (l.getLsbD 31 ^^ l.getLsbD 21 ^^ l.getLsbD 1 ^^ l.getLsbD 0) ∧
       t.dev.pm = { s.dev.pm with lfsr := m, tagAge := 0, tagged := some ((m.extractLsb' 0 8).toNat % 132, (m.extractLsb' 8 11).toNat) }) ∧
     (s.dev.pm.tagCfg.getLsbD 5 = false ∨ s.dev.pm.tagAge < 2 ^ min (s.dev.pm.tagCfg.extractLsb' 0 5).toNat 20 → exec .grainTag s = .next s))

/-- R346, R438: PM_DUMP is taken up, one at a time, or completes with BAD_DESC where it wants a held snapshot and there is
none; the snapshot is taken at the sweep after it; each record holds the bin as the snapshot has it, in the layout of a PM
record, with LAST in the final one, which completes the dump with the number of records; a full ring ends it with the number
omitted, in a record of its own. Where the manual leaves a reading open, the clauses take the model's, log entries 66 and
163. -/
def Obligations.PmDumpsCopyBins : Prop :=
  ∀ (s : State) (r : Fin 16) (e : QEnt) (pmd : Fin 2) (m : Dump), s.dev.pwr.core = true →
    let ring := 36 + pmd.val
    let j := rP s.dev ring
    let new := dB e.raw 16 1
    (servedBy s.dev r 0x31 = some e → reservedAt e.raw = none → dF e.raw 16 13 3 = 0 → s.dev.pm.dump = none →
      ((new = true ∨ s.dev.pm.snap ≠ none) → Acts [.hif, .pm] (.pmDump r) s fun t => Taken s.dev t.dev r e.uid ∧
        t.dev.pm.snap = s.dev.pm.snap ∧ t.dev.pm.dump = some {
          ring := r, idx := e.uid, pmd := dF e.raw 16 0 1, bins := dF e.raw 16 8 5, next := dF e.raw 20 0 32,
          id := dF e.raw 24 0 32, at' := if new = true then some (s.sn + 1) else none }) ∧
      (new = false → s.dev.pm.snap = none →
        Acts [.hif] (.pmDump r) s fun t => Served s.dev t.dev r e.uid 0x12 (16 + 256 * 7) s.sn 0)) ∧
    (∀ a, s.dev.pm.dump = some m → m.at' = some a → snDue a s.sn = true → s.dev.pm.queue = [] → snDue (secStop s.dev) s.sn = false →
      Acts [.hif, .pm] .pmSnapshot s fun t => t.dev.pm.dump = some { m with at' := none } ∧ t.dev.pm.objs = s.dev.pm.objs ∧
        ∃ l, t.dev.pm.snap = some (s.sn, l) ∧ ∀ k o, (k, o) ∈ s.dev.pm.objs → ∀ b : Fin 5, ∃ x, (k / 64 / 4194304, k / 64 % 4194304, b.val, x) ∈ l ∧
          (b.val = 1 → x = o.p15) ∧ (b.val = 3 → x = o.p24) ∧ (b.val = 4 → x = o.sec) ∧
          (b.val = 0 → x.idx = o.c15.idx ∧ x.suspect = o.c15.suspect) ∧ (b.val = 2 → x.idx = o.c24.idx ∧ x.suspect = o.c24.suspect)) ∧
    (∀ (snap : SN) (l : List (Nat × Nat × Nat × Bin)) kind obj b x, s.dev.pm.dump = some m → m.pmd = pmd.val → m.at' = none →
      m.omit' = none → s.dev.pm.snap = some (snap, l) →
      let recs := l.filter fun y => m.bins.testBit y.2.2.1
      let last := m.next + 1 = recs.length
      recs[m.next]? = some (kind, obj, b, x) →
      (canWrite s.dev ring = true → ActsR [F.HIF_RING_PIDX.addr ring] [.hif, .out, .pm] (.pmRecordWrite pmd) s fun t =>
        rP t.dev ring = (j + 1) % 2 ^ 32 ∧ t.dev.pm.snap = s.dev.pm.snap ∧
        (∃ (w : BitVec 2048) (os : List Out), Sent s.dev t.dev (.record ring j w :: os) ∧ (∀ o ∈ os, ∃ a, o = .transReq a) ∧
          (w.extractLsb' 0 32).toNat = kind % 2 ^ 32 ∧ (w.extractLsb' 32 32).toNat = obj % 2 ^ 32 ∧
          (w.extractLsb' 64 32).toNat = m.id % 2 ^ 32 ∧ (w.extractLsb' 96 32).toNat = m.next % 2 ^ 32 ∧
          (w.extractLsb' 128 32).toNat = (b + 256 * x.idx) % 2 ^ 32 ∧ w.extractLsb' 160 32 = snap ∧
          (w.getLsbD 192 = true ↔ last) ∧ w.getLsbD 193 = x.suspect ∧
          ∀ i : Fin 27, (w.extractLsb' (256 + 64 * i.val) 64).toNat = tget 0 x.cnt i.val % 2 ^ 32) ∧
        (¬ last → t.dev.pm.dump = some { m with next := m.next + 1, written := m.written + 1 }) ∧
        (last → t.dev.pm.dump = none ∧ Served s.dev t.dev m.ring m.idx 0 0 s.sn (BitVec.ofNat 64 (m.written + 1)))) ∧
      (rState s.dev ring = 1 → rRoom s.dev ring = false → Acts [.pm] (.pmRecordWrite pmd) s fun t =>
        t.dev.pm.dump = some { m with omit' := some (recs.length - m.next) })) ∧
    (∀ n, s.dev.pm.dump = some m → m.pmd = pmd.val → m.omit' = some n → canWrite s.dev ring = true →
      ActsR [F.HIF_RING_PIDX.addr ring] [.hif, .out, .pm] (.omissionRecord pmd) s fun t =>
        rP t.dev ring = (j + 1) % 2 ^ 32 ∧ t.dev.pm.dump = none ∧
        Served s.dev t.dev m.ring m.idx 0 0 s.sn (BitVec.ofNat 64 (m.written + 2 ^ 32 * n)))

/-- R429 to R431, R437, R439: a second that is over gives way to the next, whose length follows the accumulator, and the
second of day and the day advance; seconds not folded within 16 seconds are lost, with their event; PM_ALIGN sets an anchor
at its SN or at E and completes, with its event, when that sweep has opened; core 1 writes the counts of the second it has
folded into the legacy page, whose SEQ becomes the next even value. Where the manual leaves a reading open, the clauses take
the model's, log entries 65, 68 and 163. -/
def Obligations.PmSecondsAndAnchors : Prop :=
  ∀ (s : State) (r : Fin 16) (e : QEnt), s.dev.pwr.core = true →
    let pm := s.dev.pm
    let stop := pm.secStart + BitVec.ofNat 32 pm.secLen
    let tod := rd s.dev F.PMN_TIME_SEC_OF_DAY
    let day := rd s.dev F.PMN_DAY_DAY
    let time := [F.PMN_TIME_SEC_OF_DAY.addr 0, F.PMN_DAY_DAY.addr 0]
    let sod := dF e.raw 20 0 17
    let want := BitVec.ofNat 32 (dF e.raw 16 0 32)
    (snDue stop s.sn = true → ActsR time [.hif, .pm] .pmSecond s fun t =>
      t.dev.pm.secStart = stop ∧
      (pm.acc < 7 → t.dev.pm.acc = pm.acc + 9 ∧ t.dev.pm.secLen = 610351) ∧
      (7 ≤ pm.acc → t.dev.pm.acc = pm.acc - 7 ∧ t.dev.pm.secLen = 610352) ∧
      (tod ≠ 86399 → rd t.dev F.PMN_TIME_SEC_OF_DAY = (tod + 1) % 2 ^ 17 ∧ rd t.dev F.PMN_DAY_DAY = day) ∧
      (tod = 86399 → rd t.dev F.PMN_TIME_SEC_OF_DAY = 0 ∧ rd t.dev F.PMN_DAY_DAY = (day + 1) % 2 ^ 17) ∧
      (core1Runs s.dev = true → t.dev.pm.queue = []) ∧
      (core1Runs s.dev = false → ∃ x, t.dev.pm.queue = pm.queue ++ [x] ∧ x.start = pm.secStart ∧ x.stop = stop ∧ x.tod = tod ∧
        x.day = day ∧ t.dev.pm.objs = pm.objs)) ∧
    (snDue stop s.sn = false → exec .pmSecond s = .next s) ∧
    (∀ n x rest old, pm.queue = old ++ rest → old.head? = some x → old.length = n →
      (∀ y ∈ old, 9765625 ≤ (s.sn - y.stop).toNat) →
      Acts [.hif, .pm] (.pmSecLost n) s fun t => t.dev.pm.queue = rest ∧
        Raised s.dev t.dev [{ typ := 0xA1, sn := s.sn, p0 := n, p1 := x.tod }]) ∧
    (servedBy s.dev r 0x32 = some e → reservedAt e.raw = none → pm.anchor = none →
      (sod ≤ 86399 → sod % 900 = 0 → Acts [.hif, .pm] (.pmAlign r) s fun t => Taken s.dev t.dev r e.uid ∧
        (acceptable s.dev s.sn want = true → t.dev.pm.anchor = some (want, sod, r.val, e.uid, false)) ∧
        (acceptable s.dev s.sn want = false → t.dev.pm.anchor = some (earliest s.dev s.sn, sod, r.val, e.uid, true))) ∧
      ((86399 < sod ∨ sod % 900 ≠ 0) →
        Acts [.hif] (.pmAlign r) s fun t => Served s.dev t.dev r e.uid 0x12 (20 + 256 * 1) s.sn 0)) ∧
    (∀ a d q uid late, pm.anchor = some (a, d, q, uid, late) → snDue a s.sn = true →
      ActsR (F.PMN_STATUS_ALIGNED.addr 0 :: time) [.hif, .pm] .pmAligned s fun t =>
        rd t.dev F.PMN_STATUS_ALIGNED = 1 ∧ t.dev.pm.anchor = none ∧ t.dev.pm.acc = 9 ∧ t.dev.pm.secLen = 610351 ∧
        t.dev.pm.secStart = a ∧ rd t.dev F.PMN_TIME_SEC_OF_DAY = d % 2 ^ 17 ∧
        { typ := 0xA2, sn := s.sn, sb := s.dev.twin.role == .standby, p0 := a.toNat, p1 := d : Ev } ∈ t.dev.hif.evq ∧
        Served s.dev t.dev q uid (if late = true then 1 else 0) 0 a 0) ∧
    (∀ x, core1Runs s.dev = true → pm.queue = [x] →
      let base := 0x2402000
      let lane (n : Fin 128) : Nat := base + 0x40 + 0x20 * n.val
      ActsR ((List.range 5).map (base + 4 * ·) ++ (List.range 1024).map (base + 0x40 + 4 * ·)) [.hif, .pm] .legacyPageUpdate s fun t =>
        t.dev.pm.queue = [] ∧ t.dev.pm.page = none ∧
        rdWord t.dev base = rdWord s.dev base + 2 ∧ rdWord t.dev (base + 4) = x.start ∧
        rdWord t.dev (base + 8) = BitVec.ofNat 32 x.tod ∧ rdWord t.dev (base + 12) = BitVec.ofNat 32 x.day ∧
        rdWord t.dev (base + 16) = 1 ∧
        ∀ n : Fin 128,
          (rd s.dev F.LNE_CTL_RX_EN n = 0 → ∀ i : Fin 8, rdWord t.dev (lane n + 4 * i.val) = 0) ∧
          (rd s.dev F.LNE_CTL_RX_EN n = 1 → isGlf (persOf s.dev n) = true →
            rdWord t.dev (lane n) = BitVec.ofNat 32 (tget 0 x.inc (cntKey 1 n 0)) ∧
            rdWord t.dev (lane n + 4) = BitVec.ofNat 32 (tget 0 x.inc (cntKey 1 n 4)) ∧
            rdWord t.dev (lane n + 8) = BitVec.ofNat 32 (tget 0 x.inc (cntKey 1 n 8)) ∧
            rdWord t.dev (lane n + 12) = BitVec.ofNat 32 (tget 0 x.inc (cntKey 1 n 9)) ∧
            rdWord t.dev (lane n + 0x18) = BitVec.ofNat 32 (tget 0 x.inc (cntKey 1 n 13))))

/-- R347, R440 to R444: MDC_ROUTE names the route of one direction from the next sweep; a burst of a port sends the
channel's oldest received word and queues one for transmission, of which a full queue of 16 discards the newest with
MSP_OVF; a closed MCX record takes the 12 oldest words, is held by a frozen port, or counts the words as lost where the ring
is full or paused; an MCT record's words join the channel's queue, or are discarded where the channel is not routed to MCT.
Where the manual leaves a reading open, the clauses take the model's, log entries 79 and 162. -/
def Obligations.ChannelsCarryWords : Prop :=
  ∀ (s : State) (r : Fin 16) (e : QEnt) (port : Fin 16) (w : Word20) (c : BitVec 8) (up : Bool) (raw : BitVec 512),
    s.dev.pwr.core = true →
    let ch := dF e.raw 16 0 8
    let tx := dB e.raw 16 8
    let dest := dF e.raw 20 0 5
    let others (b : Bool) : Bool := portTaken s.dev ch dest b
    let bad (det : Nat) : Prop := Acts [.hif] (.mdcRoute r) s fun t => Served s.dev t.dev r e.uid 0x12 det s.sn 0
    let x := chanOf s.dev c.toNat
    let n := min 12 (dF raw 0 8 4)
    let mct := dF raw 0 0 8
    let ready := s.lock = true ∧ rState s.dev 38 = 1 ∧ bound s.dev 38 = true ∧ rHeld s.dev 38 ≠ 0 ∧ frozen s.dev = false ∧
      dmaOk s.dev (recAddr s.dev 38 (rC s.dev 38)) false = true
    let moves (t : State) : Prop := rC t.dev 38 = (rC s.dev 38 + 1) % 2 ^ 32
    (servedBy s.dev r 0x50 = some e → reservedAt e.raw = none →
      (dest = 31 ∨ chanHere s.dev ch = true ∧ (dest = 16 ∨ dest < 16 ∧ others tx = false ∧ others (!tx) = false ∧ chanFits s.dev ch dest = true) →
        Acts [.hif, .chans, .twin, .out] (.mdcRoute r) s fun t =>
          (mirrors s.dev = false → Served s.dev t.dev r e.uid 0 0 (s.sn + 1) 0) ∧
          (mirrors s.dev = true → Taken s.dev t.dev r e.uid) ∧
          (chanOf t.dev ch = if tx = true then { chanOf s.dev ch with txNext := some dest } else { chanOf s.dev ch with rxNext := some dest }) ∧
          ∀ k, k ≠ ch → chanOf t.dev k = chanOf s.dev k) ∧
      (dest ≤ 16 → chanHere s.dev ch = false → bad (16 + 256 * 7)) ∧
      (dest < 16 → chanHere s.dev ch = true → others tx = true → bad (20 + 256 * 4)) ∧
      (dest < 16 → chanHere s.dev ch = true → others tx = false → (others (!tx) = true ∨ chanFits s.dev ch dest = false) →
        bad (20 + 256 * 7))) ∧
    (s.dev.prot.stopped = false →
      let k := rd s.dev F.PMN_MSP_STATUS_CHAN port
      let y := chanOf s.dev k
      let txOn := rd s.dev F.PMN_MSP_STATUS_TX_ROUTED port = 1
      let queued (t : State) : Prop := (chanOf t.dev k).txq = if txOn ∧ y.txq.length < 16 then y.txq ++ [w] else y.txq
      let full := txOn ∧ 16 ≤ y.txq.length
      let regs := [F.PMN_MSP_STATUS_OVF.addr port, F.PMN_CH_CNT_TX_DISC.addr k]
      (∀ a q, rd s.dev F.PMN_MSP_STATUS_RX_ROUTED port = 1 → y.rxq = a :: q → y.lossUp = false →
        ActsR regs [.chans, .out, .hif] (.mspBurst port w) s fun t =>
          Sent s.dev t.dev [.msp port a.1] ∧ (chanOf t.dev k).rxq = q ∧ queued t ∧
          (full → rd t.dev F.PMN_MSP_STATUS_OVF port = 1 ∧ Raised s.dev t.dev [{ typ := 0xA3, sn := s.sn, p0 := port.val, p1 := 1 }])) ∧
      (rd s.dev F.PMN_MSP_STATUS_RX_ROUTED port = 0 → txOn →
        ActsR regs [.chans, .out, .hif] (.mspBurst port w) s fun t =>
          Sent s.dev t.dev [.msp port 0] ∧ (chanOf t.dev k).rxq = y.rxq ∧ queued t ∧
          (full → rd t.dev F.PMN_MSP_STATUS_OVF port = 1 ∧ Raised s.dev t.dev [{ typ := 0xA3, sn := s.sn, p0 := port.val, p1 := 1 }]))) ∧
    (x.rx = 16 → x.rxq ≠ [] → s.dev.pm.mcx = [] → (12 ≤ x.rxq.length ∨ up = true) →
      (canWrite s.dev 39 = true → ActsR [F.HIF_RING_PIDX.addr 39] [.chans, .hif, .out] (.mcxRecordClose c up) s fun t =>
        (chanOf t.dev c.toNat).rxq = x.rxq.drop 12 ∧ rP t.dev 39 = (rP s.dev 39 + 1) % 2 ^ 32 ∧
        ∃ (b : BitVec 2048) (os : List Out), Sent s.dev t.dev (.record 39 (rP s.dev 39) b :: os) ∧ (∀ o ∈ os, ∃ a, o = .transReq a) ∧
          b.extractLsb' 0 8 = c ∧ (b.extractLsb' 8 4).toNat = min 12 x.rxq.length ∧
          ∀ i : Fin 12, ∀ y, x.rxq[i.val]? = some y → b.extractLsb' (64 + 32 * i.val) 20 = y.1 ∧ b.getLsbD (84 + 32 * i.val) = y.2.1) ∧
      (frozen s.dev = true → rState s.dev 39 = 1 → Acts [.chans, .pm] (.mcxRecordClose c up) s fun t =>
        (chanOf t.dev c.toNat).rxq = x.rxq.drop 12 ∧ (∃ b, t.dev.pm = { s.dev.pm with mcx := [b] })) ∧
      ((rState s.dev 39 = 2 ∨ rRoom s.dev 39 = false ∧ frozen s.dev = false) → ActsR [F.PMN_CH_CNT_LOST.addr c.toNat] [.chans] (.mcxRecordClose c up) s fun t =>
        (chanOf t.dev c.toNat).rxq = x.rxq.drop 12 ∧ t.dev.out = s.dev.out ∧
        rd t.dev F.PMN_CH_CNT_LOST c.toNat = satAdd 32 (rd s.dev F.PMN_CH_CNT_LOST c.toNat) (min 12 x.rxq.length))) ∧
    (ready → (chanOf s.dev mct).tx = 16 → (chanOf s.dev mct).txq.length + n ≤ 16 →
      ActsR [F.HIF_RING_CIDX.addr 38] [.chans, .hif, .dma, .out] (.mctFetch raw) s fun t => moves t ∧
        (chanOf t.dev mct).txq = (chanOf s.dev mct).txq ++ (List.range n).map fun i => BitVec.ofNat 20 (dF raw (8 + 4 * i) 0 20)) ∧
    (ready → (chanOf s.dev mct).tx ≠ 16 →
      ActsR [F.HIF_RING_CIDX.addr 38, F.PMN_CH_CNT_TX_DISC.addr mct] [.hif, .dma, .out] (.mctFetch raw) s fun t => moves t ∧
        rd t.dev F.PMN_CH_CNT_TX_DISC mct = satAdd 32 (rd s.dev F.PMN_CH_CNT_TX_DISC mct) n) ∧
    (ready → (chanOf s.dev mct).tx = 16 → 16 < (chanOf s.dev mct).txq.length + n → exec (.mctFetch raw) s = .next s)

/-! ### Sessions, SMBus and fuses (chapter 18) -/

/-- R455 to R460, R476, Tables 18-2 and 18-3: OPEN copies the request, and while an exchange runs only sets COLLIDE; the
exchange fails with the first reason of Table 18-3 that holds, or gives a free slot, a nonce and the device proof; the right
host proof opens the slot, binds exactly the named rings, CMDn with CPLn, and resets the class's failures; a wrong one fails
with 7 and none in time with 8; the fifth failure in a row and each further one lock the class out for 60 s, doubled up to
3600 s; CLOSE with the slot's token unbinds its rings, and a wrong token is only counted. Where the manual leaves a reading
open, the clauses take the model's, log entries 107, 108 and 109. -/
def Obligations.SessionsOpenByProof : Prop :=
  ∀ (s : State) (slot : Fin 16) (cls : Fin 5), s.dev.pwr.core = true →
    let x := s.dev.sec
    let st := rd s.dev F.SEC_SESS_STATUS_STATE
    let status := F.SEC_SESS_STATUS_STATE.addr 0
    let m := pairMask x.exMask
    let key := (classKey s.dev x.exCls).getD []
    let open' (n : Nat) : Prop := rd s.dev F.SEC_SESS_SLOT_OPEN n = 1
    let why : Nat :=
      if 5 ≤ x.exCls.val ∨ x.exCls.val = 4 ∧ secLocked s.dev = true then 1
      else if classKey s.dev x.exCls = none then 2
      else if 2 ^ 41 ≤ x.exMask.toNat ∨ (∃ r : Fin 41, m.getLsbD r = true ∧ bound s.dev r = true) then 3
      else if ∀ n : Fin 15, open' n then 4
      else if x.locked[x.exCls] = true then 5
      else if x.exFuse = true ∧ x.exCls.val ≠ 0 ∧ x.exCls.val ≠ 4 ∨ m.getLsbD 38 = true ∧ x.exCls.val ≠ 0 ∧ x.exCls.val ≠ 1 then 6
      else 0
    let fails (c : Instr) (r : Nat) : Prop := ActsR [status] [.sec, .hif] c s fun t =>
      let k := x.exCls
      let n := x.fails[k] + (if 7 ≤ r then 1 else 0)
      let len := if 7 ≤ r ∧ 5 ≤ n then (if x.lock[k] = 0 then 60 else min 3600 (2 * x.lock[k])) else x.lock[k]
      let locked := x.locked[k] || decide (7 ≤ r ∧ 5 ≤ n)
      rd t.dev F.SEC_SESS_STATUS_STATE = 4 ∧ rd t.dev F.SEC_SESS_STATUS_FAIL = r ∧
      t.dev.sec.fails[k] = n ∧ t.dev.sec.lock[k] = len ∧ t.dev.sec.locked[k] = locked ∧
      (∀ j : Fin 8, j ≠ k → t.dev.sec.fails[j] = x.fails[j] ∧ t.dev.sec.locked[j] = x.locked[j]) ∧
      Raised s.dev t.dev [{ typ := 0x82, sn := s.sn, p0 := k, p1 := r, p2 := n, p3 := if locked = true then len else 0 }]
    ((st = 1 ∨ st = 2) → ActsR [status] [] .sessionOpen s fun t =>
      rd t.dev F.SEC_SESS_STATUS_COLLIDE = 1 ∧ rd t.dev F.SEC_SESS_STATUS_STATE = st) ∧
    (st ≠ 1 → st ≠ 2 → ActsR [status] [.sec] .sessionOpen s fun t =>
      rd t.dev F.SEC_SESS_STATUS_STATE = 1 ∧ rd t.dev F.SEC_SESS_STATUS_FAIL = 0 ∧
      t.dev.sec.exCls.val = rd s.dev F.SEC_SESS_REQ_CLASS ∧ t.dev.sec.exFuse = decide (rd s.dev F.SEC_SESS_REQ_FUSE = 1) ∧
      t.dev.sec.exMask.toNat = rd s.dev F.SEC_SESS_RINGS_LO + 2 ^ 32 * rd s.dev F.SEC_SESS_RINGS_HI ∧
      t.dev.sec.exHn.toNat = rd s.dev F.SEC_SESS_HNONCE_LO + 2 ^ 32 * rd s.dev F.SEC_SESS_HNONCE_HI ∧
      t.dev.sec.fails = x.fails ∧ t.dev.sec.locked = x.locked) ∧
    (st = 1 → secRuns s.dev = true → why ≠ 0 → fails .challenge why) ∧
    (st = 1 → secRuns s.dev = true → why = 0 →
      ActsR (status :: F.SEC_SESS_DNONCE_LO.addr 0 :: F.SEC_SESS_DNONCE_HI.addr 0 :: (List.range 8).map (F.SEC_SESS_DPROOF.addr ·))
        [.sec, .free] .challenge s fun t =>
        let n := rd t.dev F.SEC_SESS_STATUS_SLOT
        rd t.dev F.SEC_SESS_STATUS_STATE = 2 ∧ n < 15 ∧ ¬ open' n ∧
        t.dev.sec.exNd.toNat = rd t.dev F.SEC_SESS_DNONCE_LO + 2 ^ 32 * rd t.dev F.SEC_SESS_DNONCE_HI ∧
        ∀ w : Fin 8, BitVec.ofNat 32 (rd t.dev F.SEC_SESS_DPROOF w) =
          leWord (proof key 0x44 x.exHn t.dev.sec.exNd x.exCls n x.exMask) w) ∧
    (let n := rd s.dev F.SEC_SESS_STATUS_SLOT
     let right := ∀ w : Fin 8, tget 0 x.resp w.val = leWord (proof key 0x48 x.exNd x.exHn x.exCls n x.exMask) w
     st = 2 → secRuns s.dev = true →
      (¬ right → fails .sessionResp 7) ∧
      (right → ActsR (status :: F.SEC_SESS_OPEN_TOKEN.addr 0 :: F.SEC_SESS_SLOT_OPEN.addr n ::
          (List.range 41).map (F.HIF_RING_STATUS_SESS.addr ·)) [.sec, .hif, .free] .sessionResp s fun t =>
        rd t.dev F.SEC_SESS_STATUS_STATE = 3 ∧ rd t.dev F.SEC_SESS_SLOT_OPEN n = 1 ∧
        rd t.dev F.SEC_SESS_SLOT_CLASS n = x.exCls.val ∧ rd t.dev F.SEC_SESS_SLOT_FUSE n = x.exFuse.toNat ∧
        (∀ r : Fin 41, rState t.dev r = rState s.dev r ∧
          rd t.dev F.HIF_RING_STATUS_SESS r = if m.getLsbD r = true then n else rd s.dev F.HIF_RING_STATUS_SESS r) ∧
        (∃ tok, tfind t.dev.sec.tokens n = some tok ∧ rd t.dev F.SEC_SESS_OPEN_TOKEN = tok.toNat) ∧
        t.dev.sec.fails[x.exCls] = 0 ∧ t.dev.sec.lock[x.exCls] = 0 ∧
        Raised s.dev t.dev [{ typ := 0x80, sn := s.sn, p0 := n, p1 := x.exCls, p2 := m.toNat % 2 ^ 32, p3 := m.toNat / 2 ^ 32 }])) ∧
    (st = 2 → fails .responseTimeout 8) ∧
    (∀ tok, tfind x.tokens slot = some tok → rd s.dev F.SEC_SESS_CLOSE_TOKEN = tok.toNat →
      ActsR (F.SEC_SESS_SLOT_OPEN.addr slot :: (List.range 41).map (F.HIF_RING_STATUS_SESS.addr ·) ++ tilthRegs)
        [.sec, .hif, .tilth, .sw, .twin, .out] (.sessionClose slot) s fun t =>
        rd t.dev F.SEC_SESS_SLOT_OPEN slot = 0 ∧ tfind t.dev.sec.tokens slot = none ∧
        (∀ r : Fin 41, rState t.dev r = rState s.dev r ∧
          rd t.dev F.HIF_RING_STATUS_SESS r = if rd s.dev F.HIF_RING_STATUS_SESS r = slot.val then 15 else rd s.dev F.HIF_RING_STATUS_SESS r) ∧
        Raised s.dev t.dev [{ typ := 0x81, sn := s.sn, p0 := slot, p1 := 1 }]) ∧
    ((∀ tok, tfind x.tokens slot = some tok → rd s.dev F.SEC_SESS_CLOSE_TOKEN ≠ tok.toNat) →
      ActsR [F.SEC_SMB_CNT_AUTH_FAIL.addr 0] [] (.sessionClose slot) s fun t =>
        rd t.dev F.SEC_SMB_CNT_AUTH_FAIL = satAdd 16 (rd s.dev F.SEC_SMB_CNT_AUTH_FAIL) 1) ∧
    (Acts [.sec] (.lockoutExpiry cls) s fun t => t.dev.sec = { x with locked := x.locked.set cls.val false })

/-- R461 to R463, Table 18-4: DEVICE_ID and STATUS need no session; another command with a bad PEC is only counted, and one
that needs a session shows NO_SESSION without it; SESS_OPEN opens when SHA-256 of salt and password equals the verifier of
the highest usable generation and opens are not locked out, and else counts the failure, the third in a row locking opens
out; READ answers words that R463 admits with their registers and every other with zero; WRITE reaches the four writable
words only. Where the manual leaves a reading open, the clauses take the model's, log entries 26, 110 and 111. -/
def Obligations.SmbusServesTheBoard : Prop :=
  ∀ (s : State) (pwd : List (BitVec 8)) (addr val : W32) (count ns : Nat), s.dev.pwr.core = true →
    let x := s.dev.sec
    let cnt := [F.SEC_SMB_CNT_PEC_ERR.addr 0]
    let b := addr.toNat / 4 * 4
    let bad (c : Instr) : Prop := ActsR cnt [] c s fun t =>
      rd t.dev F.SEC_SMB_CNT_PEC_ERR = satAdd 16 (rd s.dev F.SEC_SMB_CNT_PEC_ERR) 1
    let right := 8 ≤ pwd.length ∧ pwd.length ≤ 32 ∧ ∃ g : Fin 4, fieldOk s.dev (96 + 16 * g.val) 12 = true ∧
      (∀ h : Fin 4, g < h → fieldOk s.dev (96 + 16 * h.val) 12 = false) ∧
      sha256 (fieldBytes s.dev (96 + 16 * g.val) 4 ++ pwd) = fieldBytes s.dev (100 + 16 * g.val) 8
    (∀ c, c ∈ [Instr.sessOpen false pwd, .sessClose false, .read false addr count, .write false addr val ns] → bad c) ∧
    (x.smbOpen = false → ∀ c, c ∈ [Instr.sessClose true, .read true addr count, .write true addr val ns] →
      Acts [.sec] c s fun t => t.dev.sec = { x with smbNo := true }) ∧
    (Acts [.sec, .out] .deviceId s fun t => t.dev.sec = { x with smbNo := false } ∧
      ∃ rev, Sent s.dev t.dev [.smbus (fieldBytes s.dev 0 2 ++ [rev, BitVec.ofNat 8 (svnFloor s.dev), BitVec.ofNat 8 (svnFloor s.dev / 256)])]) ∧
    (Acts [.out] .status s fun t => ∃ v : BitVec 8, Sent s.dev t.dev [.smbus [v]] ∧ v.getLsbD 0 = x.smbOpen ∧
      v.getLsbD 1 = x.smbLock ∧ v.getLsbD 2 = x.smbNo ∧ v.getLsbD 3 = x.smbLast ∧ v.extractLsb' 4 4 = 0) ∧
    (x.smbLock = false → right → Acts [.sec] (.sessOpen true pwd) s fun t =>
      t.dev.sec = { x with smbNo := false, smbOpen := true, smbLast := false, smbFails := 0, smbLen := 0 }) ∧
    (x.smbLock = false → ¬ right → ActsR cnt [.sec, .hif, .free] (.sessOpen true pwd) s fun t =>
      let n := x.smbFails + 1
      t.dev.sec = { x with smbNo := false, smbLast := true, smbFails := n, smbLock := decide (3 ≤ n),
                           smbLen := if 3 ≤ n then (if x.smbLen = 0 then 10 else min 640 (2 * x.smbLen)) else x.smbLen } ∧
      rd t.dev F.SEC_SMB_CNT_AUTH_FAIL = satAdd 16 (rd s.dev F.SEC_SMB_CNT_AUTH_FAIL) 1) ∧
    (x.smbLock = true → ActsR cnt [.sec, .hif, .free] (.sessOpen true pwd) s fun t =>
      t.dev.sec = { x with smbNo := false, smbLast := true }) ∧
    (x.smbOpen = true → Acts [.sec] (.sessClose true) s fun t => t.dev.sec = { x with smbNo := false, smbOpen := false }) ∧
    (x.smbOpen = true → ActsR ((List.range count).map (b + 4 * ·)) [.sec, .out, .free] (.read true addr count) s fun t =>
      t.dev.sec = { x with smbNo := false } ∧
      ∃ ws : List W32, Sent s.dev t.dev [.smbus (ws.flatMap wordBytes)] ∧ ws.length = count ∧
        ∀ k, k < count → ws[k]? = some (if smbReads (b + 4 * k) = true then readWord s.lock s.dev (b + 4 * k) else 0)) ∧
    (x.smbOpen = true → smbWrites b = false → ActsR [F.GLB_BAR0_ERR_WR_DISC.addr 0] [.sec] (.write true addr val ns) s fun t =>
      t.dev.sec = { x with smbNo := false } ∧
      (implemented b = true → t.dev.regs = s.dev.regs) ∧
      (implemented b = false → rd t.dev F.GLB_BAR0_ERR_WR_DISC = satAdd 16 (rd s.dev F.GLB_BAR0_ERR_WR_DISC) 1)) ∧
    (x.smbOpen = true → b = F.PWR_WAKE_TMR.addr 0 → ActsR [b] [.sec] (.write true addr val ns) s fun t =>
      t.dev.sec = { x with smbNo := false } ∧ rd t.dev F.PWR_WAKE_TMR = val.toNat % 2 ^ 20) ∧
    (x.smbOpen = true → b = F.PWR_TEMP_CFG_WARN.addr 0 → ActsR [b] [.sec] (.write true addr val ns) s fun t =>
      rd t.dev F.PWR_TEMP_CFG_WARN = val.toNat % 256 ∧ rd t.dev F.PWR_TEMP_CFG_SHUT = val.toNat / 256 % 256) ∧
    (Acts [.sec] .smbusSessionTimeout s fun t => t.dev.sec = { x with smbOpen := false }) ∧
    (Acts [.sec] .smbusLockoutExpiry s fun t => t.dev.sec = { x with smbLock := false }) ∧
    exec .smbClkLowTimeout s = .next s

/-- R464, R467, R469, R473, R474, R476: GO is ignored while BUSY, and else sets BUSY and takes the home word if it is blank,
or the lowest blank spare, or an error of Table 18-7; its end writes a committed word with its TAG and a matching CHK,
changes no other physical word and no resolved value, and raises SEC_FUSE_DONE; while SVN_AUTO = 1 firmware programs the
next blank SVN word with the version it runs, or reports that none is left; a JTAG challenge opens the debug port only to
the right proof. Where the manual leaves a reading open, the clauses take the model's, log entries 106, 112, 113 and 114. -/
def Obligations.FusesAndFloor : Prop :=
  ∀ (s : State) (resp : BitVec 256), s.dev.pwr.core = true →
    let x := s.dev.sec
    let status := F.SEC_FUSE_STATUS_BUSY.addr 0
    let i := rd s.dev F.SEC_FUSE_IDX
    let v := BitVec.ofNat 32 (rd s.dev F.SEC_FUSE_PROG_DATA)
    let e := fuseErr s.dev i v
    let blank (p : Nat) : Prop := tget 0 x.fuses p = 0
    let committed (w : BitVec 64) (i : Nat) (v : W32) : Prop :=
      w.extractLsb' 0 32 = v ∧ (w.extractLsb' 32 8).toNat = i % 256 ∧ w.getLsbD 48 = true ∧ w.extractLsb' 49 15 = 0 ∧ fuseValid w = true
    (rd s.dev F.SEC_FUSE_STATUS_BUSY = 1 → exec .secFuseGo s = .next s) ∧
    (rd s.dev F.SEC_FUSE_STATUS_BUSY = 0 → ActsR [status] [.sec] .secFuseGo s fun t =>
      rd t.dev F.SEC_FUSE_STATUS_BUSY = 1 ∧ t.dev.sec.fuses = x.fuses ∧ t.dev.sec.logical = x.logical ∧
      (fuseSess s.dev = [] → t.dev.sec.progBad = some (i, 1)) ∧
      (e ≠ 0 → t.dev.sec.progBad = some (i, e) ∧ t.dev.sec.prog = x.prog) ∧
      (e = 0 → ∃ p, t.dev.sec.prog = some (i, p, v) ∧ blank p ∧
        (blank i → p = i) ∧ (¬ blank i → 256 ≤ p ∧ p < 320 ∧ ∀ q, 256 ≤ q → q < p → ¬ blank q))) ∧
    (∀ j p w, x.prog = some (j, p, w) → ActsR [status] [.sec, .hif] .secFuseDone s fun t =>
      rd t.dev F.SEC_FUSE_STATUS_BUSY = 0 ∧ rd t.dev F.SEC_FUSE_STATUS_ERR = 0 ∧ t.dev.sec.prog = none ∧
      t.dev.sec.logical = x.logical ∧ committed (tget 0 t.dev.sec.fuses p) j w ∧
      (∀ q, q ≠ p → tget 0 t.dev.sec.fuses q = tget 0 x.fuses q) ∧
      Raised s.dev t.dev [{ typ := 0x83, sn := s.sn, p0 := j, p1 := p, p2 := 0 }]) ∧
    (∀ j k, x.prog = none → x.progBad = some (j, k) → ActsR [status] [.sec, .hif, .free] .secFuseDone s fun t =>
      rd t.dev F.SEC_FUSE_STATUS_BUSY = 0 ∧ rd t.dev F.SEC_FUSE_STATUS_ERR = k % 8 ∧ t.dev.sec.fuses = x.fuses ∧
      ∃ p, Raised s.dev t.dev [{ typ := 0x83, sn := s.sn, p0 := j, p1 := p, p2 := k }]) ∧
    (let now := rd s.dev F.CTL_CORE_STATUS_SVN
     let unused (k : Fin 64) : Prop := blank (160 + k.val) ∧ (fuseResolve s.dev (160 + k.val)).1 = 0
     secRuns s.dev = true → floorNow s.dev < now → x.prog = none →
      ((calPolicy s.dev).testBit 5 = false → exec .secSvnRaised s = .next s) ∧
      ((calPolicy s.dev).testBit 5 = true → ∀ k : Fin 64, unused k → (∀ j : Fin 64, j < k → ¬ unused j) →
        Acts [.sec, .hif] .secSvnRaised s fun t =>
          committed (tget 0 t.dev.sec.fuses (160 + k.val)) (160 + k.val) (BitVec.ofNat 32 now) ∧
          (∀ q, q ≠ 160 + k.val → tget 0 t.dev.sec.fuses q = tget 0 x.fuses q) ∧
          Raised s.dev t.dev [{ typ := 0x84, sn := s.sn, p0 := now }]) ∧
      ((calPolicy s.dev).testBit 5 = true → (∀ k : Fin 64, ¬ unused k) →
        Acts [.hif] .secSvnRaised s fun t => Raised s.dev t.dev [{ typ := 0x85, sn := s.sn, p0 := floorNow s.dev }])) ∧
    (secLocked s.dev = true → dbgMode s.dev = 1 → Acts [.sec, .out, .free] (.jtagChallenge resp) s fun t =>
      ∃ n, Sent s.dev t.dev [.jtag n] ∧ (x.dbgOpen = true → t.dev.sec.dbgOpen = true) ∧
        (x.dbgOpen = false → (t.dev.sec.dbgOpen = true ↔ ∃ k, classKey s.dev 3 = some k ∧
          hmac k (0x4A#8 :: leBytes n) = (List.range 32).map fun j => resp.extractLsb' (8 * j) 8))) ∧
    ((secLocked s.dev = false ∨ dbgMode s.dev ≠ 1) → exec (.jtagChallenge resp) s = .next s)

/-! ### Power and health (chapter 19) -/

/-- R480, R481, R483: the way up. VAO takes an OFF device to its power-on reset, whose end begins POWER_UP with the rails of
the lowest ORDER on; a power-good of the rails now rising starts DLY once all of them are up; DLY's end switches on the next
ORDER's rails, and after the last releases the core; a power-good that does not come in time takes the device DOWN with
LAST_OFF 5. R482, R484, R479: the way down. While rails are lowered, a power-good that falls starts DLY once every rail of
the step is low, one that stays high past PG_TMO is marked in RAIL_FAULT and the sequence goes on, and DLY's end switches
off the rails of the highest ORDER still on; a power-good that falls while its rail is meant to be on holds the core in
reset and takes the device DOWN with LAST_OFF 4; a loss of VAO leaves nothing but the fuses. Where the manual leaves a
reading open, the clauses take the model's, log entries 104 and 105. -/
def Obligations.PowerSequences : Prop :=
  (∀ (s : State),
     (s.dev.pwr.st = .off → Acts [.pwr] .vaoApplied s fun t => t.dev.pwr = { s.dev.pwr with st := .por }) ∧
     (s.dev.pwr.st = .por → ∃ t, exec .powerOnResetEnd s = .next t ∧ t.pending = s.pending ∧ t.sn = 0 ∧ t.lock = false ∧
       t.dev.pwr.st = .powerUp ∧ t.dev.pwr.core = false ∧
       (∀ o < 6, railGroup t.dev o ≠ 0 → (∀ k < o, railGroup t.dev k = 0) →
         t.dev.pwr.ord = o ∧ t.dev.pwr.en = railGroup t.dev o)) ∧
     (s.dev.pwr.st = .powerUp →
       (∀ r : Fin 6, Acts [.pwr] (.pgInRise r) s fun t =>
         let pg := s.dev.pwr.pg ||| BitVec.ofNat 6 (2 ^ r.val)
         let g := railGroup s.dev s.dev.pwr.ord
         t.dev.pwr = { s.dev.pwr with pg := pg, waitDly := if pg &&& g = g then true else s.dev.pwr.waitDly }) ∧
       (s.dev.pwr.waitDly = true → ∀ o, nextOrder s.dev (s.dev.pwr.ord + 1) = some o →
         Acts [.pwr] .railDlyExpiry s fun t =>
           t.dev.pwr.ord = o ∧ t.dev.pwr.en = s.dev.pwr.en ||| railGroup s.dev o ∧ t.dev.pwr.st = .powerUp ∧
           t.dev.pwr.core = s.dev.pwr.core) ∧
       (s.dev.pwr.waitDly = true → nextOrder s.dev (s.dev.pwr.ord + 1) = none →
         ActsR [F.GLB_START_STATUS_FUSE_DONE.addr 0] [.pwr, .sec] .railDlyExpiry s fun t =>
           t.dev.pwr.st = .active ∧ t.dev.pwr.core = true ∧ t.dev.sec.fuses = s.dev.sec.fuses ∧
           rd t.dev F.GLB_START_STATUS_FUSE_DONE = 1) ∧
       (s.dev.pwr.waitDly = false → ActsR [F.PWR_STATUS_LAST_OFF.addr 0] [.pwr] .pgTmoExpiry s fun t =>
         t.dev.pwr.st = .down ∧ rd t.dev F.PWR_STATUS_LAST_OFF = 5 ∧
         rd t.dev F.PWR_STATUS_RAIL_FAULT = rd s.dev F.PWR_STATUS_RAIL_FAULT |||
           (railGroup s.dev s.dev.pwr.ord &&& ~~~s.dev.pwr.pg).toNat))) ∧
  (∀ (s : State),
     (lowering s.dev = true →
       (∀ r : Fin 6, s.dev.pwr.en.getLsbD r = false → Acts [.pwr] (.pgInLow r) s fun t =>
         let pg := s.dev.pwr.pg &&& ~~~BitVec.ofNat 6 (2 ^ r.val)
         t.dev.pwr = { s.dev.pwr with pg := pg, waitDly := if pg &&& railGroup s.dev s.dev.pwr.ord = 0 then true else s.dev.pwr.waitDly }) ∧
       (s.dev.pwr.waitDly = false → ActsR [F.PWR_STATUS_LAST_OFF.addr 0] [.pwr] .pgTmoExpiry s fun t =>
         t.dev.pwr = { s.dev.pwr with waitDly := true } ∧
         rd t.dev F.PWR_STATUS_RAIL_FAULT = rd s.dev F.PWR_STATUS_RAIL_FAULT ||| (railGroup s.dev s.dev.pwr.ord &&& s.dev.pwr.pg).toNat) ∧
       (s.dev.pwr.waitDly = true → s.dev.pwr.en ≠ 0 → Acts [.pwr] .railDlyExpiry s fun t =>
         ∀ o < 6, railGroup s.dev o &&& s.dev.pwr.en ≠ 0 → (∀ k < 6, o < k → railGroup s.dev k &&& s.dev.pwr.en = 0) →
           t.dev.pwr.en = s.dev.pwr.en &&& ~~~railGroup s.dev o ∧ t.dev.pwr.ord = o)) ∧
     (∀ (r : Fin 6) (soon : Bool), s.dev.pwr.en.getLsbD r = true → s.dev.pwr.pg.getLsbD r = true →
       s.dev.pwr.st = .active →
       ∃ t, exec (.railFault r soon) s = .next t ∧ t.pending = s.pending ∧ t.sn = 0 ∧ t.lock = false ∧
         t.dev.pwr.st = .down ∧ t.dev.pwr.core = false ∧ t.dev.twin.latch = s.dev.twin.latch ∧
         rd t.dev F.PWR_STATUS_LAST_OFF = 4 ∧ (rd t.dev F.PWR_STATUS_RAIL_FAULT).testBit r.val = true) ∧
     (∃ t, exec .vaoLoss s = .next t ∧ t.pending = s.pending ∧ t.dev.regs = [] ∧ t.dev.twin = {} ∧
       t.dev.pwr.st = .off ∧ t.dev.pwr.core = false ∧ t.dev.pwr.en = 0 ∧ t.dev.pwr.latch = 0 ∧
       t.dev.sec = { fuses := keptFuses s.dev }))

/-- R485, R486: requests for standby in ACTIVE. Without a twin the request is accepted at once, with the entry sweep of
R485, ENTRY, the wake latch armed, LAST_OFF 1 and PWR_ENTRY; with a twin it is refused while the link is down, and else
proposed to the mate for the sweep 16 ahead; the mate accepts with STBY_ALLOW = 1 and answers, or refuses; the proposer
accepts on LP_AGREE and is refused by a refusal or when 8 sweeps pass. R485, R487: ENTRY runs its course. From the tick of T
every transmitter is OFF, every quad is powered down and the stagger queue is empty; after it, once no AVS step is under
way, the core is held in reset and the rails of the highest ORDER go off; once the last rail is off and low the device is in
STANDBY, and a wake latched on the way starts POWER_UP when OFF_MIN has passed, with REPLAYED set. Where the manual leaves a
reading open, the clauses take the model's, log entries 100, 101, 102 and 183. -/
def Obligations.StandbyIsRequestedAndEntered : Prop :=
  (∀ (s : State) (ns : Nat) (x : SN), s.dev.pwr.core = true → s.dev.pwr.st = .active →
     let accepts (t : State) (e : SN) (off p1 : Nat) : Prop :=
       t.dev.pwr.st = .entry ∧ t.dev.pwr.armed = true ∧ t.dev.pwr.latch = 0 ∧ t.dev.pwr.entryT = some e ∧ t.dev.stagger = [] ∧
       rd t.dev F.PWR_STATUS_LAST_OFF = off ∧ Raised s.dev t.dev [{ typ := 0xB0, sn := s.sn, p0 := e.toNat, p1 := p1 }]
     let st := [F.PWR_STATUS_LAST_OFF.addr 0]
     let refuses (t : State) (why : Nat) : Prop :=
       t.dev.pwr = { s.dev.pwr with propose := none } ∧ rd t.dev F.PWR_STATUS_REFUSED = 1 ∧
       Raised s.dev t.dev [{ typ := 0xB1, sn := s.sn, p0 := why }]
     (s.dev.pwr.propose = none →
       (rd s.dev F.TWN_CFG_EN = 0 → ActsR st [.pwr, .stagger, .hif] (.stbyReq ns) s fun t => accepts t (entrySweep s.sn ns) 1 0) ∧
       (rd s.dev F.TWN_CFG_EN = 1 → linkUp s.dev = false → ActsR st [.pwr, .hif] (.stbyReq ns) s fun t => refuses t 1) ∧
       (rd s.dev F.TWN_CFG_EN = 1 → linkUp s.dev = true → Acts [.pwr, .twin, .out] (.stbyReq ns) s fun t =>
         t.dev.pwr = { s.dev.pwr with propose := some (s.sn + 16) } ∧ t.dev.twin = queuesOf s.dev.twin t.dev.twin ∧
         SentRec s.dev t.dev [(0xC, [6, (s.sn + 16).toNat])]) ∧
       (linkUp s.dev = true → rd s.dev F.PWR_CTL_STBY_ALLOW = 1 → ActsR st [.pwr, .stagger, .hif, .twin, .out, .pm] (.lpPropose x) s fun t =>
         accepts t x 2 1 ∧ t.dev.twin = queuesOf s.dev.twin t.dev.twin ∧ SentRec s.dev t.dev [(0xC, [7])]) ∧
       (linkUp s.dev = true → rd s.dev F.PWR_CTL_STBY_ALLOW = 0 → Acts [.twin, .out, .pm] (.lpPropose x) s fun t =>
         t.dev.twin = queuesOf s.dev.twin t.dev.twin ∧ SentRec s.dev t.dev [(0xC, [8])])) ∧
     (∀ u, s.dev.pwr.propose = some u → linkUp s.dev = true →
       (ActsR st [.pwr, .stagger, .hif, .twin, .pm] (.lpAgree true) s fun t => accepts t u 2 1 ∧ t.dev.twin = queuesOf s.dev.twin t.dev.twin) ∧
       (ActsR st [.pwr, .hif, .twin, .pm] (.lpAgree false) s fun t => refuses t 2 ∧ t.dev.twin = queuesOf s.dev.twin t.dev.twin) ∧
       (ActsR st [.pwr, .stagger, .hif, .twin, .pm] (.lpPropose x) s fun t => accepts t (if snFuture x u = true then x else u) 2 1 ∧
         t.dev.twin = queuesOf s.dev.twin t.dev.twin) ∧
       (snDue (u - 8) s.sn = true → ActsR st [.pwr, .hif] .lpReplyTimeout s fun t => refuses t 3))) ∧
  (∀ (s : State),
     (∀ e, s.dev.pwr.core = true → s.dev.pwr.st = .entry → s.dev.pwr.ticked = false → s.dev.pwr.entryT = some e → snDue e s.sn = true →
       ∃ t, exec .entryTick s = .next t ∧ DevOnly s t ∧ t.dev.pwr.ticked = true ∧ t.dev.pwr.st = .entry ∧ t.dev.stagger = [] ∧
         (∀ n : Fin 128, rd t.dev F.LNE_STATUS_TX_STATE n = 0) ∧
         (∀ q : Fin 32, rd t.dev F.LNE_QUAD_STATUS_PWR q = 0 ∧ rd t.dev F.LNE_QUAD_STATUS_PLL_LOCK q = 0)) ∧
     (s.dev.pwr.st = .entry → s.dev.pwr.ticked = true → s.dev.pwr.core = true → rd s.dev F.PWR_AVS_STATUS_STEP = 0 →
       ∃ t, exec .entryCoreReset s = .next t ∧ t.pending = s.pending ∧ t.sn = 0 ∧ t.lock = false ∧ t.dev.pwr.core = false ∧
         t.dev.pwr.st = .entry ∧ t.dev.pwr.latch = s.dev.pwr.latch ∧ t.dev.twin.latch = s.dev.twin.latch) ∧
     (s.dev.pwr.st = .entry → s.dev.pwr.ticked = true → s.dev.pwr.core = true → rd s.dev F.PWR_AVS_STATUS_STEP = 1 →
       Acts [.pwr] .entryCoreReset s fun t => t.dev.pwr = { s.dev.pwr with resetDue := true }) ∧
     (s.dev.pwr.st = .entry → s.dev.pwr.ticked = true → s.dev.pwr.core = true → s.dev.pwr.resetDue = true →
       ∃ t, exec .avsStepDone s = .next t ∧ t.pending = s.pending ∧ t.sn = 0 ∧ t.lock = false ∧ t.dev.pwr.core = false ∧
         t.dev.pwr.resetDue = false) ∧
     (lowering s.dev = true → s.dev.pwr.waitDly = true → s.dev.pwr.en = 0 →
       ∃ t, exec .standbyReached s = .next t ∧ t.pending = s.pending ∧
         ((s.dev.pwr.latch = 0 ∨ s.dev.pwr.discard = true) → t.dev.pwr.st = .standby ∧ rd t.dev F.PWR_WAKE_STATUS_REPLAYED = 0) ∧
         (s.dev.pwr.latch ≠ 0 → s.dev.pwr.discard = false → t.dev.pwr.st = .standby ∧ t.dev.pwr.wakeDue = true ∧
           rd t.dev F.PWR_WAKE_STATUS_REPLAYED = 1 ∧ rd t.dev F.PWR_WAKE_STATUS_SRC = s.dev.pwr.latch.toNat)))

/-- R481, R487, R488: wakes. A source of Table 19-3 that is enabled starts POWER_UP from STANDBY once OFF_MIN has passed,
and waits for its end else; during an entry that was accepted it is held in the wake latch; while wakes are discarded
nothing happens; OFF_MIN's end starts the POWER_UP that waits for it. Where the manual leaves a reading open, the clauses
take the model's, log entries 99 and 100. -/
def Obligations.WakesStartPowerUp : Prop :=
  ∀ (s : State) (b : Fin 5) (c : Instr),
    ((b.val = 0 ∧ c = .wakeN ∧ rd s.dev F.PWR_WAKE_CFG_WAKE_N_EN = 1) ∨
     (b.val = 1 ∧ c = .smbusWake ∧ rd s.dev F.PWR_WAKE_CFG_SMB_EN = 1) ∨
     (b.val = 2 ∧ c = .twAliveWake ∧ s.dev.pwr.agreed = true ∧ s.dev.pwr.ticked = true) ∨
     (b.val = 3 ∧ c = .wakeTimer ∧ s.dev.pwr.st = .standby ∧ rd s.dev F.PWR_WAKE_CFG_TIMER_EN = 1 ∧ rd s.dev F.PWR_WAKE_TMR ≠ 0) ∨
     (b.val = 4 ∧ c = .autoRestart ∧ s.dev.pwr.st = .standby ∧ rd s.dev F.PWR_CFG_AUTO_RESTART = 1 ∧
      rd s.dev F.PWR_STATUS_LAST_OFF = 4 ∧ s.dev.pwr.noRestart = false)) →
    (s.dev.pwr.discard = true → exec c s = .next s) ∧
    (s.dev.pwr.discard = false → s.dev.pwr.st = .standby →
      (s.dev.pwr.offMin = true → ∃ t, exec c s = .next t ∧ t.pending = s.pending ∧ t.dev.pwr.st = .powerUp ∧ t.sn = 0 ∧ t.dev.pwr.core = false) ∧
      (s.dev.pwr.offMin = false → ActsR [F.PWR_WAKE_STATUS_SRC.addr 0] [.pwr] c s fun t =>
        t.dev.pwr = { s.dev.pwr with wakeDue := true } ∧ (rd t.dev F.PWR_WAKE_STATUS_SRC).testBit b.val = true)) ∧
    (s.dev.pwr.discard = false → s.dev.pwr.armed = true → (s.dev.pwr.st = .entry ∨ s.dev.pwr.st = .down) →
      Acts [.pwr] c s fun t => t.dev.pwr = { s.dev.pwr with latch := s.dev.pwr.latch ||| BitVec.ofNat 5 (2 ^ b.val) }) ∧
    (s.dev.pwr.st = .standby → s.dev.pwr.wakeDue = true → ∃ t, exec .offMinExpiry s = .next t ∧ t.pending = s.pending ∧
      t.dev.pwr.st = .powerUp) ∧
    (s.dev.pwr.st = .standby → s.dev.pwr.wakeDue = false → Acts [.pwr] .offMinExpiry s fun t =>
      t.dev.pwr = { s.dev.pwr with offMin := true })

/-- R491 to R493: while EN is set and no step is under way, AVS takes the lowest process slack: below MARGIN it raises VSET
by 5 mV, above MARGIN + 8 it lowers VSET by 5 mV, with its VoltageWrite and STEP set, and in between nothing happens; no
step leaves VMIN to VMAX, and where the next one would, AT_LIMIT is set and PWR_AVS_LIMIT raised once; a finished step
clears STEP and nothing else where no core reset waits for it. Telemetry stores the readings of each rail that answered,
counts those that failed in PWR_TEL.ERR and raises PWR_PMBUS_ERR for the first rail that failed; it does not reach the power
sequencer. R494, R495: a reading of the sensors stores what each sensor gave. PWR_TEMP_MAX takes the highest temperature,
and its peak; reaching WARN raises PWR_TEMP_WARN once, until the reading has fallen 5 °C below; a voltage monitor that
leaves its window raises PWR_VMON once; the second reading in a row at or above SHUT makes the shutdown request of R496
where none stands: THERM_N is driven, PWR_THERM is raised as a non-maskable event and, with FAIL_MASK bit 1, the device
fails. R495, R496: THERM_N held low from outside makes the request once: THERM_N is driven, PWR_THERM is raised as a
non-maskable event, and with FAIL_MASK bit 1 the device fails; while THERM_N is driven nothing happens. THERM_DLY's end
enters ENTRY with LAST_OFF 3, for the sweep of R485, with wakes discarded and the stagger queue empty; THERM_HOLD's end in
STANDBY releases THERM_N and ends the discarding of wakes. Where the manual leaves a reading open, the clauses take the
model's, log entries 103 and 184. -/
def Obligations.HealthLoops : Prop :=
  (∀ (s : State), s.dev.pwr.core = true →
     (∀ (p : BitVec 12) (ps : List (BitVec 12)),
       let low := ps.foldl (fun m y => min m y.toNat) p.toNat
       let v := rd s.dev F.PWR_AVS_STATUS_VSET
       let m := rd s.dev F.PWR_AVS_CFG_MARGIN
       let lo := rd s.dev F.PWR_AVS_CFG_VMIN
       let hi := rd s.dev F.PWR_AVS_CFG_VMAX
       let does (w step : Nat) (lim : Bool) (k : Nat) (os : List Out) : Prop :=
         ActsR [F.PWR_AVS_STATUS_VSET.addr 0] [.hif, .out] (.avsLoop (p :: ps)) s fun t =>
           rd t.dev F.PWR_AVS_STATUS_VSET = w ∧ rd t.dev F.PWR_AVS_STATUS_STEP = step ∧ rdB t.dev F.PWR_AVS_STATUS_AT_LIMIT = lim ∧
           Sent s.dev t.dev os ∧
           Raised s.dev t.dev (if lim = true ∧ rd s.dev F.PWR_AVS_STATUS_AT_LIMIT = 0 then [{ typ := 0xB5, sn := s.sn, p0 := k, p1 := low }] else [])
       ((rd s.dev F.PWR_AVS_CFG_EN = 0 ∨ rd s.dev F.PWR_AVS_STATUS_STEP = 1) → exec (.avsLoop (p :: ps)) s = .next s) ∧
       (rd s.dev F.PWR_AVS_CFG_EN = 1 → rd s.dev F.PWR_AVS_STATUS_STEP = 0 →
         (low < m → v + 5 ≤ hi → does (v + 5) 1 (decide (hi < v + 10)) 1 [.avsWrite (v + 5)]) ∧
         (low < m → hi < v + 5 → does v 0 true 1 []) ∧
         (m + 8 < low → lo + 5 ≤ v → does (v - 5) 1 (decide (v < lo + 10)) 0 [.avsWrite (v - 5)]) ∧
         (m + 8 < low → v < lo + 5 → does v 0 true 0 []) ∧
         (m ≤ low → low ≤ m + 8 → exec (.avsLoop (p :: ps)) s = .next s))) ∧
     (s.dev.pwr.resetDue = false → ActsR [F.PWR_AVS_STATUS_STEP.addr 0] [] .avsStepDone s fun t => rd t.dev F.PWR_AVS_STATUS_STEP = 0 ∧
       rd t.dev F.PWR_AVS_STATUS_VSET = rd s.dev F.PWR_AVS_STATUS_VSET ∧
       rd t.dev F.PWR_AVS_STATUS_AT_LIMIT = rd s.dev F.PWR_AVS_STATUS_AT_LIMIT) ∧
     (∀ rails, ActsR ((List.range 6).map (F.PWR_TEL_VOUT.addr ·) ++ (List.range 6).map (F.PWR_TEL_TEMP.addr ·)) [.hif] (.pmbusTelemetry rails) s fun t =>
       let miss (r : Nat) : Nat := match rails[r]? with
         | some x => x.1.isNone.toNat + x.2.1.isNone.toNat + x.2.2.isNone.toNat
         | none => 0
       (∀ r : Fin 6,
         rd t.dev F.PWR_TEL_VOUT r = ((rails[r.val]?).bind (·.1)).elim (rd s.dev F.PWR_TEL_VOUT r) BitVec.toNat ∧
         rd t.dev F.PWR_TEL_IOUT r = ((rails[r.val]?).bind (·.2.1)).elim (rd s.dev F.PWR_TEL_IOUT r) BitVec.toNat ∧
         rd t.dev F.PWR_TEL_TEMP r = ((rails[r.val]?).bind (·.2.2)).elim (rd s.dev F.PWR_TEL_TEMP r) BitVec.toNat ∧
         rd t.dev F.PWR_TEL_ERR r = satAdd 16 (rd s.dev F.PWR_TEL_ERR r) (miss r)) ∧
       ((∀ r : Fin 6, miss r = 0) → Raised s.dev t.dev []) ∧
       (∀ r : Fin 6, miss r ≠ 0 → (∀ q : Fin 6, q < r → miss q = 0) → Raised s.dev t.dev [{ typ := 0xB6, sn := s.sn, p0 := r }]))) ∧
  (∀ (s : State) (temps volts procs : List (BitVec 12)) (k : Fin 16) (top : BitVec 12), s.dev.pwr.core = true →
     temps[k.val]? = some top →
     (∀ (j : Fin 16) v, temps[j.val]? = some v → (j < k → v.toInt < top.toInt) ∧ v.toInt ≤ top.toInt) →
     let now := top.toInt
     let warn : Int := 4 * (rd s.dev F.PWR_TEMP_CFG_WARN : Nat)
     let shut : Int := 4 * (rd s.dev F.PWR_TEMP_CFG_SHUT : Nat)
     let out (i : Fin 12) : Bool := ((volts[i.val]?).map fun v => vmonBad s.dev i v.toNat).getD (s.dev.pwr.vmon.getLsbD i)
     let vm : List Ev := (List.finRange 12).filterMap fun i =>
       if out i = true ∧ s.dev.pwr.vmon.getLsbD i = false then
         some { typ := 0xB4, sn := s.sn, p0 := i.val, p1 := ((volts[i.val]?).getD 0).toNat } else none
     let wn : List Ev := if warn ≤ now ∧ s.dev.pwr.warned = false then [{ typ := 0xB3, sn := s.sn, p0 := k.val, p1 := top.toNat }] else []
     let trips : Prop := shut ≤ now ∧ 1 ≤ s.dev.pwr.overRun ∧ s.dev.pwr.thermOut = false
     let th : List Ev := if trips then [{ typ := 0xB2, sn := s.sn, p0 := 1, p1 := top.toNat }] else []
     let falls : Prop := trips ∧ (rd s.dev F.TWN_CFG_FAIL_MASK).testBit 1 = true
     ∃ t, exec (.sensorRead temps volts procs) s = .next t ∧ DevOnly s t ∧
       Only [.regs, .pwr, .tim, .hif, .out, .pm, .twin, .prot] s.dev t.dev ∧
       OnlyRegs ((List.range 16).map (F.PWR_SENS_TEMP.addr ·) ++ (List.range 12).map (F.PWR_SENS_VOLT.addr ·) ++
         (List.range 8).map (F.PWR_SENS_PROC.addr ·) ++ [F.PWR_TEMP_MAX_NOW.addr 0, F.TIM_STATUS_SEL.addr 0,
           F.TWN_STATUS_LAST_CAUSE.addr 0, F.MSIX_PBA.addr (rd s.dev F.HIF_CFG_NMI_VEC / 32)]) s.dev t.dev ∧
       (∀ j : Fin 16, ∀ v, temps[j.val]? = some v → rd t.dev F.PWR_SENS_TEMP j = v.toNat) ∧
       (∀ j : Fin 12, ∀ v, volts[j.val]? = some v → rd t.dev F.PWR_SENS_VOLT j = v.toNat) ∧
       (∀ j : Fin 8, ∀ v, procs[j.val]? = some v → rd t.dev F.PWR_SENS_PROC j = v.toNat) ∧
       rd t.dev F.PWR_TEMP_MAX_NOW = top.toNat ∧
       rd t.dev F.PWR_TEMP_MAX_PEAK =
         (if (BitVec.ofNat 12 (rd s.dev F.PWR_TEMP_MAX_PEAK)).toInt < now then top.toNat else rd s.dev F.PWR_TEMP_MAX_PEAK) ∧
       (∃ es, t.dev.hif.evq = s.dev.hif.evq ++ ((vm ++ wn ++ th).map fun e => { e with sb := s.dev.twin.role == .standby }) ++ es ∧
         (¬ falls → es = [])) ∧
       t.dev.pwr = { s.dev.pwr with
         vmon := t.dev.pwr.vmon, warned := t.dev.pwr.warned, overRun := t.dev.pwr.overRun, thermOut := t.dev.pwr.thermOut,
         thermDue := t.dev.pwr.thermDue } ∧
       (∀ i : Fin 12, t.dev.pwr.vmon.getLsbD i = out i) ∧
       (warn ≤ now → t.dev.pwr.warned = true) ∧ (now ≤ warn - 20 → t.dev.pwr.warned = false) ∧
       (warn - 20 < now → now < warn → t.dev.pwr.warned = s.dev.pwr.warned) ∧
       t.dev.pwr.overRun = (if shut ≤ now then min 2 (s.dev.pwr.overRun + 1) else 0) ∧
       (trips → t.dev.pwr.thermOut = true ∧ t.dev.pwr.thermDue = true ∧ t.dev.hif.nmi = s.dev.hif.nmi + 1) ∧
       (¬ trips → t.dev.pwr.thermOut = s.dev.pwr.thermOut ∧ t.dev.pwr.thermDue = s.dev.pwr.thermDue ∧ t.dev.hif.nmi = s.dev.hif.nmi) ∧
       (¬ falls → t.dev.twin = s.dev.twin ∧ t.dev.prot = s.dev.prot ∧ t.dev.tim = s.dev.tim) ∧
       (falls → s.dev.twin.role = .active → t.dev.twin.role = .failed ∧ t.dev.twin.latch = false ∧ t.dev.twin.failOut = true)) ∧
  (∀ (s : State),
     (s.dev.pwr.core = true → s.dev.pwr.thermOut = true → exec .thermNExternal s = .next s) ∧
     (s.dev.pwr.core = true → s.dev.pwr.thermOut = false →
       ActsR [F.TIM_STATUS_SEL.addr 0, F.TWN_STATUS_LAST_CAUSE.addr 0, F.MSIX_PBA.addr (rd s.dev F.HIF_CFG_NMI_VEC / 32)]
         [.pwr, .tim, .hif, .out, .pm, .twin, .prot] .thermNExternal s fun t =>
         let falls : Prop := (rd s.dev F.TWN_CFG_FAIL_MASK).testBit 1 = true
         t.dev.pwr = { s.dev.pwr with thermOut := true, thermDue := true } ∧ t.dev.hif.nmi = s.dev.hif.nmi + 1 ∧
         (∃ es, t.dev.hif.evq = s.dev.hif.evq ++ { typ := 0xB2, sn := s.sn, p0 := 2, p1 := rd s.dev F.PWR_TEMP_MAX_NOW,
                                                   sb := s.dev.twin.role == .standby } :: es ∧ (¬ falls → es = [])) ∧
         (¬ falls → t.dev.twin = s.dev.twin ∧ t.dev.prot = s.dev.prot ∧ t.dev.tim = s.dev.tim) ∧
         (falls → s.dev.twin.role = .active → t.dev.twin.role = .failed ∧ t.dev.twin.latch = false ∧ t.dev.twin.failOut = true ∧
           rd t.dev F.TWN_STATUS_LAST_CAUSE = 6)) ∧
     (∀ ns, s.dev.pwr.core = true → s.dev.pwr.thermDue = false → exec (.thermDlyExpiry ns) s = .next s) ∧
     (∀ ns, s.dev.pwr.core = true → s.dev.pwr.thermDue = true → s.dev.pwr.st = .active →
       ActsR [F.PWR_STATUS_LAST_OFF.addr 0] [.pwr, .stagger, .hif] (.thermDlyExpiry ns) s fun t =>
         t.dev.pwr = { s.dev.pwr with
           thermDue := false, st := .entry, armed := false, latch := 0, discard := true, entryT := some (entrySweep s.sn ns),
           agreed := false, ticked := false, propose := none, waitDly := false } ∧
         t.dev.stagger = [] ∧ rd t.dev F.PWR_STATUS_LAST_OFF = 3 ∧
         Raised s.dev t.dev [{ typ := 0xB0, sn := s.sn, p0 := (entrySweep s.sn ns).toNat, p1 := 2 }]) ∧
     (∀ ns, s.dev.pwr.core = true → s.dev.pwr.thermDue = true → s.dev.pwr.st ≠ .active → Acts [.pwr] (.thermDlyExpiry ns) s fun t =>
       t.dev.pwr = { s.dev.pwr with thermDue := false }) ∧
     (s.dev.pwr.st = .standby → Acts [.pwr] .thermHoldExpiry s fun t =>
       t.dev.pwr = { s.dev.pwr with thermOut := false, discard := false }) ∧
     (s.dev.pwr.st ≠ .standby → exec .thermHoldExpiry s = .next s))

/-! ### Resets and registers (chapters 20 and 21) -/

/-- R353, R373, R460, R516: an FLR resets every ring that is not DISABLED, closes every session, empties the ATS cache and
puts the arbiter in its start-up mode; a Hot Reset and a PCIe conventional reset also return configuration space to its
reset values. Traffic, maps, protection, lanes, timing and the twin stay as they are. R501: memory clearing leaves both
pages of the connection memories without an enabled entry, every selector at 0, Loess without an allocation and the
scratchpad at zero, and shows in MEM_INIT; it happens once. Where the manual leaves a reading open, the clauses take the
model's, log entry 62. -/
def Obligations.HostResetsAndMemoryClearing : Prop :=
  (∀ (s : State) (c : Instr), s.dev.pwr.core = true → (c = .functionLevelReset ∨ c = .hotReset ∨ c = .pcieConventionalReset) →
     ActsR ((List.range 41).map (F.HIF_RING_STATUS_STATE.addr ·) ++ (List.range 15).map (F.SEC_SESS_SLOT_OPEN.addr ·) ++ tilthRegs ++
         [F.ARB_STATUS_MODE.addr 0, F.ARB_NULL.addr 0]) [.hif, .dma, .tilth, .sw, .twin, .out, .sec, .pm] c s fun t =>
       (∀ r : Fin 41, (rState s.dev r ≠ 0 → rState t.dev r = 4) ∧ (rState t.dev r = 4 ∨ rState t.dev r = 0) ∧
         (rd s.dev F.HIF_RING_STATUS_SESS r < 15 → rd s.dev F.SEC_SESS_SLOT_OPEN (rd s.dev F.HIF_RING_STATUS_SESS r) = 1 →
           rd t.dev F.HIF_RING_STATUS_SESS r = 15)) ∧
       (∀ n : Fin 15, rd t.dev F.SEC_SESS_SLOT_OPEN n = 0) ∧
       t.dev.dma.cache = [] ∧ t.dev.dma.reqs = [] ∧ t.dev.dma.startup = true ∧
       rd t.dev F.ARB_STATUS_MODE = 1 ∧ rd t.dev F.ARB_STATUS_MODE_CAUSE = 1 ∧
       (c ≠ .functionLevelReset → t.dev.dma.bme = false ∧ t.dev.dma.enable = false ∧ t.dev.dma.pri = false ∧
         t.dev.dma.stopped = true ∧ frozen t.dev = true)) ∧
  (∀ (s : State), s.dev.pwr.core = true →
     (rd s.dev F.GLB_START_STATUS_MEM_INIT = 0 →
       ∃ t, exec .memoryCleared s = .next t ∧ t.pending = s.pending ∧ t.sn = s.sn ∧ t.ticked = s.ticked ∧ t.lock = s.lock ∧
         Only [.regs, .sw, .cli] s.dev t.dev ∧ rd t.dev F.GLB_START_STATUS_MEM_INIT = 1 ∧
         t.dev.sw.cm0 = {} ∧ t.dev.sw.cm1 = {} ∧ t.dev.sw.sel = [] ∧ t.dev.cli.loess = [] ∧ (∀ a, spByte t.sp a = 0) ∧ t.sp.bad = []) ∧
     (rd s.dev F.GLB_START_STATUS_MEM_INIT = 1 → exec .memoryCleared s = .next s))

/-- R9, R510, R511: a BAR0 write of one whole word stores a writable field, clears the bits of a W1C field that are written
as 1, and leaves a read-only field as it is; a locked RWL field ignores it; a write of any other form and a write to an
unimplemented address is discarded and counted. R9, R510 to R512: a BAR0 read of 1 to 16 words within a 64-byte block
answers each word, zero at an unimplemented address, clears the RCL fields it reads and changes no other field; a read that
is longer or crosses the block is aborted and counted, and reads nothing; a read through the open debug access port clears
nothing. -/
def Obligations.RegisterAccess : Prop :=
  (∀ (s : State) (addr : BitVec 26) (v : W32) (be : BitVec 4) (ns : Nat), s.dev.pwr.core = true →
     let b := addr.toNat / 4 * 4
     let w := Instr.registerWrite .host addr [(v, 15#4)] ns
     let discards (c : Instr) : Prop := ActsR [F.GLB_BAR0_ERR_WR_DISC.addr 0] [] c s fun t =>
       rd t.dev F.GLB_BAR0_ERR_WR_DISC = satAdd 16 (rd s.dev F.GLB_BAR0_ERR_WR_DISC) 1
     (∀ r : Fin 8, b = F.ARB_WEIGHT_W.addr r → ActsR [b] [] w s fun t => rd t.dev F.ARB_WEIGHT_W r = v.toNat % 256) ∧
     (b = F.HIF_ATS_CFG_PREFETCH.addr 0 → ActsR [b] [] w s fun t =>
       rd t.dev F.HIF_ATS_CFG_PREFETCH = v.toNat % 2 ∧ rd t.dev F.HIF_ATS_CFG_PRI_TMO = v.toNat / 256 % 2 ^ 16) ∧
     (∀ r : Fin 41, b = F.HIF_RING_BASE_LO.addr r → rState s.dev r ≠ 0 →
       ActsR [F.HIF_STATUS_CFG_ERR.addr 0] [] w s fun t => rd t.dev F.HIF_STATUS_CFG_ERR = 1) ∧
     (∀ p : Fin 16, b = F.PMN_MSP_STATUS_OVF.addr p → ActsR [b] [] w s fun t =>
       rd t.dev F.PMN_MSP_STATUS_OVF p = (if v.getLsbD 10 = true then 0 else rd s.dev F.PMN_MSP_STATUS_OVF p) ∧
       rd t.dev F.PMN_MSP_STATUS_CHAN p = rd s.dev F.PMN_MSP_STATUS_CHAN p) ∧
     (b = F.HIF_ATS_STATUS_VALID.addr 0 → exec w s = .next s) ∧
     (s.lock = true → b = F.CTL_MTX_PRIO_PRIO.addr 0 → exec w s = .next s) ∧
     (s.lock = false → s.dev.sw.traffic = false → b = F.CTL_MTX_PRIO_PRIO.addr 0 →
       ActsR [b] [] w s fun t => rd t.dev F.CTL_MTX_PRIO_PRIO = v.toNat % 2 ^ F.CTL_MTX_PRIO_PRIO.wd) ∧
     (implemented b = false → ∀ m : Master, (m = .debug → dbgPortOpen s.dev = true) → discards (.registerWrite m addr [(v, 15#4)] ns)) ∧
     (be ≠ 15#4 → msixWord b = false → discards (.registerWrite .host addr [(v, be)] ns))) ∧
  (∀ (s : State) (addr : BitVec 26) (n : Nat), s.dev.pwr.core = true →
     let b := addr.toNat / 4 * 4
     let words := (List.range n).map fun k => readWord s.lock s.dev (b + 4 * k)
     (n ≤ 16 → b % 64 + 4 * n ≤ 64 → (∀ k, k < n → ∀ p ∈ fldsAt (b + 4 * k), p.1.acc ≠ .rcl) →
       Acts [.out, .free] (.registerRead .host addr n) s fun t => Sent s.dev t.dev [.readData words]) ∧
     ((16 < n ∨ 64 < b % 64 + 4 * n) → ActsR [F.GLB_BAR0_ERR_RD_ABORT.addr 0] [.out] (.registerRead .host addr n) s fun t =>
       Sent s.dev t.dev [.abort] ∧ rd t.dev F.GLB_BAR0_ERR_RD_ABORT = satAdd 16 (rd s.dev F.GLB_BAR0_ERR_RD_ABORT) 1) ∧
     (b = F.HIF_DB_ERR.addr 0 → ActsR [b] [.out, .free] (.registerRead .host addr 1) s fun t =>
       Sent s.dev t.dev [.readData [BitVec.ofNat 32 (rd s.dev F.HIF_DB_ERR)]] ∧ rd t.dev F.HIF_DB_ERR = 0) ∧
     (dbgPortOpen s.dev = true → Acts [.out, .free] (.registerRead .debug addr n) s fun t => Sent s.dev t.dev [.readData words]) ∧
     (dbgPortOpen s.dev = false → exec (.registerRead .debug addr n) s = .next s) ∧
     (implemented b = false → ∀ m : Master, (m = .debug → dbgPortOpen s.dev = true) →
       Acts [.out, .free] (.registerRead m addr 1) s fun t => Sent s.dev t.dev [.readData [0]]))

/-- Table 21-4, R501 and the reset columns of Tables 13-3, 14-5, 14-8 to 14-12, 18-10, 19-5 and 21-6: what a device reset
leaves: no command waits (the model's queue, log entry 1), device SN 0, the set-up lock clear, every ring DISABLED and bound
to no session, the arbiter combinational for start-up with the weights of Table 14-1, no session open, the twin disabled,
both pages of the connection memories empty, and the scratchpad zero, in canonical form. R31, R479: whatever takes the core
into reset leaves the device SN 0, the lock clear, the scratchpad, the switch core, Tilth, protection, the lanes and
framers, tributaries, rings, translation, control, timing, monitoring and channels at their reset state; the fuses stay, but
for a word that was being programmed. Where the manual leaves a reading open, the clauses take the model's, log entries 10,
13 and 98. -/
def Obligations.ResetValuesAndWhatAResetKeeps : Prop :=
  (let d := State.reset.dev
   State.reset.pending = [] ∧ State.reset.sn = 0 ∧ State.reset.lock = false ∧ State.reset.sp = {} ∧
   Memory.wf State.reset.sp.mem = true ∧
   (∀ r : Fin 41, rState d r = 0 ∧ rd d F.HIF_RING_STATUS_SESS r = 15 ∧ rd d F.HIF_RING_PIDX r = 0 ∧ rd d F.HIF_RING_CIDX r = 0) ∧
   (List.range 8).map (fun r => rd d F.ARB_WEIGHT_W r) = [64, 32, 32, 16, 8, 16, 4, 8] ∧
   rd d F.ARB_CFG_WINDOW = 1024 ∧ rd d F.ARB_STATUS_MODE = 1 ∧ rd d F.ARB_STATUS_MODE_CAUSE = 1 ∧
   rd d F.GLB_ID_PART = 0x2560 ∧ rd d F.GLB_ID_FAMILY = 0x44 ∧ rd d F.HIF_ATS_CFG_PRI_TMO = 100 ∧
   rd d F.PWR_TEMP_CFG_WARN = 105 ∧ rd d F.PWR_TEMP_CFG_SHUT = 115 ∧
   (∀ n : Fin 15, rd d F.SEC_SESS_SLOT_OPEN n = 0) ∧ rd d F.SEC_SESS_STATUS_SLOT = 15 ∧
   d.twin.role = .disabled ∧ d.sw.cm0 = {} ∧ d.sw.cm1 = {} ∧ d.sw.sel = [] ∧ d.prot.groups = [] ∧ d.cli.tribs = []) ∧
  (∀ (c : Instr) (s t : State), exec c s = .next t → s.dev.pwr.core = true → t.dev.pwr.core = false →
     t.pending = s.pending ∧ t.sn = 0 ∧ t.ticked = false ∧ t.lock = false ∧ t.sp = {} ∧
     t.dev.sw = {} ∧ t.dev.tilth = {} ∧ t.dev.prot = {} ∧ t.dev.lanes = [] ∧ t.dev.frm = [] ∧ t.dev.deg = [] ∧
     t.dev.stagger = [] ∧ t.dev.tti = [] ∧ t.dev.mdcaK = [] ∧ t.dev.cli = {} ∧ t.dev.hif = {} ∧ t.dev.dma = {} ∧
     t.dev.ctl = {} ∧ t.dev.tim = {} ∧ t.dev.pm = {} ∧ t.dev.chans = [] ∧ t.dev.sec = { fuses := keptFuses s.dev } ∧
     (s.dev.sec.prog = none → t.dev.sec.fuses = s.dev.sec.fuses))
end

