-- ==== Sys2Proof/Laws/Store.lean ====
section
/-! SUPPORT. The laws of sparse stores: a read after a write, that a write leaves every other key alone, and that every
operation keeps the canonical form. -/

namespace Sys2Proof.Machine

/-- A fold whose every step keeps `g` keeps `g`. -/
theorem foldl_same {α β γ : Type} {g : α → γ} {f : α → β → α} (h : ∀ a x, g (f a x) = g a) (l : List β) (a : α) :
    g (l.foldl f a) = g a := by
  induction l generalizing a with
  | nil => rfl
  | cons x l ih => exact (ih _).trans (h _ _)

variable {α : Type}

@[simp] theorem tget_nil (d : α) (q : Nat) : tget d [] q = d := rfl
@[simp] theorem tfind_nil (q : Nat) : tfind ([] : Tbl α) q = none := rfl

/-- A listed value is the one read. -/
theorem tget_eq_tfind (d : α) (m : Tbl α) (q : Nat) : tget d m q = (tfind m q).getD d := by
  induction m with
  | nil => rfl
  | cons e m ih => obtain ⟨k, v⟩ := e; simp only [tget, tfind]; split <;> simp [*]

@[simp] theorem tfind_tins_same (m : Tbl α) (q : Nat) (v : α) : tfind (tins m q v) q = some v := by
  induction m with
  | nil => simp [tins, tfind]
  | cons e m ih =>
    obtain ⟨k, w⟩ := e
    simp only [tins]
    split
    · simp [tfind]
    · split
      · simp [tfind]
      · rename_i h; simp [tfind, Ne.symm h, ih]

theorem tfind_tins_ne (m : Tbl α) {p q : Nat} (v : α) (h : p ≠ q) : tfind (tins m q v) p = tfind m p := by
  induction m with
  | nil => simp [tins, tfind, Ne.symm h]
  | cons e m ih =>
    obtain ⟨k, w⟩ := e
    simp only [tins]
    split
    · simp [tfind, Ne.symm h]
    · split
      · subst_vars; simp [tfind, Ne.symm h]
      · simp only [tfind, ih]

theorem tfind_tdel_ne (m : Tbl α) {p q : Nat} (h : p ≠ q) : tfind (tdel m q) p = tfind m p := by
  induction m with
  | nil => rfl
  | cons e m ih =>
    obtain ⟨k, w⟩ := e
    simp only [tdel]
    split
    · subst_vars; simp [tfind, Ne.symm h, ih]
    · simp only [tfind, ih]

@[simp] theorem tfind_tdel_same (m : Tbl α) (q : Nat) : tfind (tdel m q) q = none := by
  induction m with
  | nil => rfl
  | cons e m ih =>
    obtain ⟨k, w⟩ := e
    simp only [tdel]
    split
    · exact ih
    · rename_i h; simp only [tfind, if_neg h, ih]

variable [DecidableEq α]

theorem tget_tput_ne (d : α) (m : Tbl α) {p q : Nat} (v : α) (h : p ≠ q) : tget d (tput d m q v) p = tget d m p := by
  simp only [tget_eq_tfind, tput]
  split
  · rw [tfind_tdel_ne m h]
  · rw [tfind_tins_ne m v h]

theorem twfFrom_cons {d : α} {b : Option Nat} {k : Nat} {v : α} {r : Tbl α} :
    twfFrom d b ((k, v) :: r) = true ↔ (∀ n, b = some n → n < k) ∧ v ≠ d ∧ twfFrom d (some k) r = true := by
  cases b <;> simp [twfFrom, and_assoc]

/-- A lower bound serves as well. -/
theorem twfFrom_mono {d : α} {a b : Option Nat} {m : Tbl α} (h : twfFrom d b m = true)
    (hab : ∀ n, a = some n → ∃ k, b = some k ∧ n ≤ k) : twfFrom d a m = true := by
  cases m with
  | nil => rfl
  | cons e r =>
    obtain ⟨k, v⟩ := e
    rw [twfFrom_cons] at h ⊢
    refine ⟨fun n hn => ?_, h.2⟩
    obtain ⟨k', hk, hle⟩ := hab n hn
    have := h.1 k' hk
    omega

/-- A read after a write to the same key. -/
@[simp] theorem tget_tput_same (d : α) (m : Tbl α) (q : Nat) (v : α) : tget d (tput d m q v) q = v := by
  simp only [tget_eq_tfind, tput]
  split <;> simp [*]

theorem twfFrom_tdel {d : α} {m : Tbl α} {b : Option Nat} (q : Nat) (h : twfFrom d b m = true) :
    twfFrom d b (tdel m q) = true := by
  induction m generalizing b with
  | nil => rfl
  | cons e r ih =>
    obtain ⟨k, v⟩ := e
    rw [twfFrom_cons] at h
    simp only [tdel]
    split
    · exact ih (twfFrom_mono h.2.2 fun n hn => ⟨k, rfl, Nat.le_of_lt (h.1 n hn)⟩)
    · exact twfFrom_cons.2 ⟨h.1, h.2.1, ih h.2.2⟩

theorem twfFrom_tins {d : α} {m : Tbl α} {b : Option Nat} {q : Nat} {v : α} (h : twfFrom d b m = true) (hv : v ≠ d)
    (hb : ∀ n, b = some n → n < q) : twfFrom d b (tins m q v) = true := by
  induction m generalizing b with
  | nil => exact twfFrom_cons.2 ⟨hb, hv, rfl⟩
  | cons e r ih =>
    obtain ⟨k, w⟩ := e
    rw [twfFrom_cons] at h
    simp only [tins]
    split
    · exact twfFrom_cons.2 ⟨hb, hv, twfFrom_cons.2 ⟨fun n hn => by cases hn; assumption, h.2⟩⟩
    · split
      · subst_vars; exact twfFrom_cons.2 ⟨hb, hv, h.2.2⟩
      · exact twfFrom_cons.2 ⟨h.1, h.2.1, ih h.2.2 fun n hn => by cases hn; omega⟩

/-- Every write keeps the canonical form. -/
theorem twf_tput {d : α} {m : Tbl α} (q : Nat) (v : α) (h : twf d m = true) : twf d (tput d m q v) = true := by
  unfold tput
  split
  · exact twfFrom_tdel q h
  · exact twfFrom_tins h ‹_› (by simp)

end Sys2Proof.Machine
end

