-- ==== Sys2Proof/Laws/State.lean ====
section
/-! SUPPORT. One lemma per part of the device per shared operation: what the operation leaves as it was. -/

namespace Sys2Proof.Machine

@[simp] theorem wrWord_out (d : Dev) (a : Nat) (w : W32) : (wrWord d a w).out = d.out := rfl
@[simp] theorem wrWord_free (d : Dev) (a : Nat) (w : W32) : (wrWord d a w).free = d.free := rfl
@[simp] theorem wrWord_sw (d : Dev) (a : Nat) (w : W32) : (wrWord d a w).sw = d.sw := rfl
@[simp] theorem wrWord_tilth (d : Dev) (a : Nat) (w : W32) : (wrWord d a w).tilth = d.tilth := rfl
@[simp] theorem wrWord_prot (d : Dev) (a : Nat) (w : W32) : (wrWord d a w).prot = d.prot := rfl
@[simp] theorem wrWord_lanes (d : Dev) (a : Nat) (w : W32) : (wrWord d a w).lanes = d.lanes := rfl
@[simp] theorem wrWord_frm (d : Dev) (a : Nat) (w : W32) : (wrWord d a w).frm = d.frm := rfl
@[simp] theorem wrWord_deg (d : Dev) (a : Nat) (w : W32) : (wrWord d a w).deg = d.deg := rfl
@[simp] theorem wrWord_stagger (d : Dev) (a : Nat) (w : W32) : (wrWord d a w).stagger = d.stagger := rfl
@[simp] theorem wrWord_tti (d : Dev) (a : Nat) (w : W32) : (wrWord d a w).tti = d.tti := rfl
@[simp] theorem wrWord_mdcaK (d : Dev) (a : Nat) (w : W32) : (wrWord d a w).mdcaK = d.mdcaK := rfl
@[simp] theorem wrWord_cli (d : Dev) (a : Nat) (w : W32) : (wrWord d a w).cli = d.cli := rfl
@[simp] theorem wrWord_hif (d : Dev) (a : Nat) (w : W32) : (wrWord d a w).hif = d.hif := rfl
@[simp] theorem wrWord_dma (d : Dev) (a : Nat) (w : W32) : (wrWord d a w).dma = d.dma := rfl
@[simp] theorem wrWord_ctl (d : Dev) (a : Nat) (w : W32) : (wrWord d a w).ctl = d.ctl := rfl
@[simp] theorem wrWord_tim (d : Dev) (a : Nat) (w : W32) : (wrWord d a w).tim = d.tim := rfl
@[simp] theorem wrWord_pm (d : Dev) (a : Nat) (w : W32) : (wrWord d a w).pm = d.pm := rfl
@[simp] theorem wrWord_chans (d : Dev) (a : Nat) (w : W32) : (wrWord d a w).chans = d.chans := rfl
@[simp] theorem wrWord_sec (d : Dev) (a : Nat) (w : W32) : (wrWord d a w).sec = d.sec := rfl
@[simp] theorem wrWord_twin (d : Dev) (a : Nat) (w : W32) : (wrWord d a w).twin = d.twin := rfl
@[simp] theorem wrWord_pwr (d : Dev) (a : Nat) (w : W32) : (wrWord d a w).pwr = d.pwr := rfl

@[simp] theorem wr_out (d : Dev) (f : Fld) (i v : Nat) : (wr d f i v).out = d.out := rfl
@[simp] theorem wr_free (d : Dev) (f : Fld) (i v : Nat) : (wr d f i v).free = d.free := rfl
@[simp] theorem wr_sw (d : Dev) (f : Fld) (i v : Nat) : (wr d f i v).sw = d.sw := rfl
@[simp] theorem wr_tilth (d : Dev) (f : Fld) (i v : Nat) : (wr d f i v).tilth = d.tilth := rfl
@[simp] theorem wr_prot (d : Dev) (f : Fld) (i v : Nat) : (wr d f i v).prot = d.prot := rfl
@[simp] theorem wr_lanes (d : Dev) (f : Fld) (i v : Nat) : (wr d f i v).lanes = d.lanes := rfl
@[simp] theorem wr_frm (d : Dev) (f : Fld) (i v : Nat) : (wr d f i v).frm = d.frm := rfl
@[simp] theorem wr_deg (d : Dev) (f : Fld) (i v : Nat) : (wr d f i v).deg = d.deg := rfl
@[simp] theorem wr_stagger (d : Dev) (f : Fld) (i v : Nat) : (wr d f i v).stagger = d.stagger := rfl
@[simp] theorem wr_tti (d : Dev) (f : Fld) (i v : Nat) : (wr d f i v).tti = d.tti := rfl
@[simp] theorem wr_mdcaK (d : Dev) (f : Fld) (i v : Nat) : (wr d f i v).mdcaK = d.mdcaK := rfl
@[simp] theorem wr_cli (d : Dev) (f : Fld) (i v : Nat) : (wr d f i v).cli = d.cli := rfl
@[simp] theorem wr_hif (d : Dev) (f : Fld) (i v : Nat) : (wr d f i v).hif = d.hif := rfl
@[simp] theorem wr_dma (d : Dev) (f : Fld) (i v : Nat) : (wr d f i v).dma = d.dma := rfl
@[simp] theorem wr_ctl (d : Dev) (f : Fld) (i v : Nat) : (wr d f i v).ctl = d.ctl := rfl
@[simp] theorem wr_tim (d : Dev) (f : Fld) (i v : Nat) : (wr d f i v).tim = d.tim := rfl
@[simp] theorem wr_pm (d : Dev) (f : Fld) (i v : Nat) : (wr d f i v).pm = d.pm := rfl
@[simp] theorem wr_chans (d : Dev) (f : Fld) (i v : Nat) : (wr d f i v).chans = d.chans := rfl
@[simp] theorem wr_sec (d : Dev) (f : Fld) (i v : Nat) : (wr d f i v).sec = d.sec := rfl
@[simp] theorem wr_twin (d : Dev) (f : Fld) (i v : Nat) : (wr d f i v).twin = d.twin := rfl
@[simp] theorem wr_pwr (d : Dev) (f : Fld) (i v : Nat) : (wr d f i v).pwr = d.pwr := rfl

@[simp] theorem wrB_out (d : Dev) (f : Fld) (i : Nat) (b : Bool) : (wrB d f i b).out = d.out := rfl
@[simp] theorem wrB_free (d : Dev) (f : Fld) (i : Nat) (b : Bool) : (wrB d f i b).free = d.free := rfl
@[simp] theorem wrB_sw (d : Dev) (f : Fld) (i : Nat) (b : Bool) : (wrB d f i b).sw = d.sw := rfl
@[simp] theorem wrB_tilth (d : Dev) (f : Fld) (i : Nat) (b : Bool) : (wrB d f i b).tilth = d.tilth := rfl
@[simp] theorem wrB_prot (d : Dev) (f : Fld) (i : Nat) (b : Bool) : (wrB d f i b).prot = d.prot := rfl
@[simp] theorem wrB_lanes (d : Dev) (f : Fld) (i : Nat) (b : Bool) : (wrB d f i b).lanes = d.lanes := rfl
@[simp] theorem wrB_frm (d : Dev) (f : Fld) (i : Nat) (b : Bool) : (wrB d f i b).frm = d.frm := rfl
@[simp] theorem wrB_deg (d : Dev) (f : Fld) (i : Nat) (b : Bool) : (wrB d f i b).deg = d.deg := rfl
@[simp] theorem wrB_stagger (d : Dev) (f : Fld) (i : Nat) (b : Bool) : (wrB d f i b).stagger = d.stagger := rfl
@[simp] theorem wrB_tti (d : Dev) (f : Fld) (i : Nat) (b : Bool) : (wrB d f i b).tti = d.tti := rfl
@[simp] theorem wrB_mdcaK (d : Dev) (f : Fld) (i : Nat) (b : Bool) : (wrB d f i b).mdcaK = d.mdcaK := rfl
@[simp] theorem wrB_cli (d : Dev) (f : Fld) (i : Nat) (b : Bool) : (wrB d f i b).cli = d.cli := rfl
@[simp] theorem wrB_hif (d : Dev) (f : Fld) (i : Nat) (b : Bool) : (wrB d f i b).hif = d.hif := rfl
@[simp] theorem wrB_dma (d : Dev) (f : Fld) (i : Nat) (b : Bool) : (wrB d f i b).dma = d.dma := rfl
@[simp] theorem wrB_ctl (d : Dev) (f : Fld) (i : Nat) (b : Bool) : (wrB d f i b).ctl = d.ctl := rfl
@[simp] theorem wrB_tim (d : Dev) (f : Fld) (i : Nat) (b : Bool) : (wrB d f i b).tim = d.tim := rfl
@[simp] theorem wrB_pm (d : Dev) (f : Fld) (i : Nat) (b : Bool) : (wrB d f i b).pm = d.pm := rfl
@[simp] theorem wrB_chans (d : Dev) (f : Fld) (i : Nat) (b : Bool) : (wrB d f i b).chans = d.chans := rfl
@[simp] theorem wrB_sec (d : Dev) (f : Fld) (i : Nat) (b : Bool) : (wrB d f i b).sec = d.sec := rfl
@[simp] theorem wrB_twin (d : Dev) (f : Fld) (i : Nat) (b : Bool) : (wrB d f i b).twin = d.twin := rfl
@[simp] theorem wrB_pwr (d : Dev) (f : Fld) (i : Nat) (b : Bool) : (wrB d f i b).pwr = d.pwr := rfl

@[simp] theorem sat_out (d : Dev) (f : Fld) (i n : Nat) : (sat d f i n).out = d.out := rfl
@[simp] theorem sat_free (d : Dev) (f : Fld) (i n : Nat) : (sat d f i n).free = d.free := rfl
@[simp] theorem sat_sw (d : Dev) (f : Fld) (i n : Nat) : (sat d f i n).sw = d.sw := rfl
@[simp] theorem sat_tilth (d : Dev) (f : Fld) (i n : Nat) : (sat d f i n).tilth = d.tilth := rfl
@[simp] theorem sat_prot (d : Dev) (f : Fld) (i n : Nat) : (sat d f i n).prot = d.prot := rfl
@[simp] theorem sat_lanes (d : Dev) (f : Fld) (i n : Nat) : (sat d f i n).lanes = d.lanes := rfl
@[simp] theorem sat_frm (d : Dev) (f : Fld) (i n : Nat) : (sat d f i n).frm = d.frm := rfl
@[simp] theorem sat_deg (d : Dev) (f : Fld) (i n : Nat) : (sat d f i n).deg = d.deg := rfl
@[simp] theorem sat_stagger (d : Dev) (f : Fld) (i n : Nat) : (sat d f i n).stagger = d.stagger := rfl
@[simp] theorem sat_tti (d : Dev) (f : Fld) (i n : Nat) : (sat d f i n).tti = d.tti := rfl
@[simp] theorem sat_mdcaK (d : Dev) (f : Fld) (i n : Nat) : (sat d f i n).mdcaK = d.mdcaK := rfl
@[simp] theorem sat_cli (d : Dev) (f : Fld) (i n : Nat) : (sat d f i n).cli = d.cli := rfl
@[simp] theorem sat_hif (d : Dev) (f : Fld) (i n : Nat) : (sat d f i n).hif = d.hif := rfl
@[simp] theorem sat_dma (d : Dev) (f : Fld) (i n : Nat) : (sat d f i n).dma = d.dma := rfl
@[simp] theorem sat_ctl (d : Dev) (f : Fld) (i n : Nat) : (sat d f i n).ctl = d.ctl := rfl
@[simp] theorem sat_tim (d : Dev) (f : Fld) (i n : Nat) : (sat d f i n).tim = d.tim := rfl
@[simp] theorem sat_pm (d : Dev) (f : Fld) (i n : Nat) : (sat d f i n).pm = d.pm := rfl
@[simp] theorem sat_chans (d : Dev) (f : Fld) (i n : Nat) : (sat d f i n).chans = d.chans := rfl
@[simp] theorem sat_sec (d : Dev) (f : Fld) (i n : Nat) : (sat d f i n).sec = d.sec := rfl
@[simp] theorem sat_twin (d : Dev) (f : Fld) (i n : Nat) : (sat d f i n).twin = d.twin := rfl
@[simp] theorem sat_pwr (d : Dev) (f : Fld) (i n : Nat) : (sat d f i n).pwr = d.pwr := rfl

@[simp] theorem raise_out (d : Dev) (e : Ev) : (raise d e).out = d.out := rfl
@[simp] theorem raise_free (d : Dev) (e : Ev) : (raise d e).free = d.free := rfl
@[simp] theorem raise_regs (d : Dev) (e : Ev) : (raise d e).regs = d.regs := rfl
@[simp] theorem raise_sw (d : Dev) (e : Ev) : (raise d e).sw = d.sw := rfl
@[simp] theorem raise_tilth (d : Dev) (e : Ev) : (raise d e).tilth = d.tilth := rfl
@[simp] theorem raise_prot (d : Dev) (e : Ev) : (raise d e).prot = d.prot := rfl
@[simp] theorem raise_lanes (d : Dev) (e : Ev) : (raise d e).lanes = d.lanes := rfl
@[simp] theorem raise_frm (d : Dev) (e : Ev) : (raise d e).frm = d.frm := rfl
@[simp] theorem raise_deg (d : Dev) (e : Ev) : (raise d e).deg = d.deg := rfl
@[simp] theorem raise_stagger (d : Dev) (e : Ev) : (raise d e).stagger = d.stagger := rfl
@[simp] theorem raise_tti (d : Dev) (e : Ev) : (raise d e).tti = d.tti := rfl
@[simp] theorem raise_mdcaK (d : Dev) (e : Ev) : (raise d e).mdcaK = d.mdcaK := rfl
@[simp] theorem raise_cli (d : Dev) (e : Ev) : (raise d e).cli = d.cli := rfl
@[simp] theorem raise_dma (d : Dev) (e : Ev) : (raise d e).dma = d.dma := rfl
@[simp] theorem raise_ctl (d : Dev) (e : Ev) : (raise d e).ctl = d.ctl := rfl
@[simp] theorem raise_tim (d : Dev) (e : Ev) : (raise d e).tim = d.tim := rfl
@[simp] theorem raise_pm (d : Dev) (e : Ev) : (raise d e).pm = d.pm := rfl
@[simp] theorem raise_chans (d : Dev) (e : Ev) : (raise d e).chans = d.chans := rfl
@[simp] theorem raise_sec (d : Dev) (e : Ev) : (raise d e).sec = d.sec := rfl
@[simp] theorem raise_twin (d : Dev) (e : Ev) : (raise d e).twin = d.twin := rfl
@[simp] theorem raise_pwr (d : Dev) (e : Ev) : (raise d e).pwr = d.pwr := rfl

@[simp] theorem emit_free (d : Dev) (o : Out) : (emit d o).free = d.free := rfl
@[simp] theorem emit_regs (d : Dev) (o : Out) : (emit d o).regs = d.regs := rfl
@[simp] theorem emit_sw (d : Dev) (o : Out) : (emit d o).sw = d.sw := rfl
@[simp] theorem emit_tilth (d : Dev) (o : Out) : (emit d o).tilth = d.tilth := rfl
@[simp] theorem emit_prot (d : Dev) (o : Out) : (emit d o).prot = d.prot := rfl
@[simp] theorem emit_lanes (d : Dev) (o : Out) : (emit d o).lanes = d.lanes := rfl
@[simp] theorem emit_frm (d : Dev) (o : Out) : (emit d o).frm = d.frm := rfl
@[simp] theorem emit_deg (d : Dev) (o : Out) : (emit d o).deg = d.deg := rfl
@[simp] theorem emit_stagger (d : Dev) (o : Out) : (emit d o).stagger = d.stagger := rfl
@[simp] theorem emit_tti (d : Dev) (o : Out) : (emit d o).tti = d.tti := rfl
@[simp] theorem emit_mdcaK (d : Dev) (o : Out) : (emit d o).mdcaK = d.mdcaK := rfl
@[simp] theorem emit_cli (d : Dev) (o : Out) : (emit d o).cli = d.cli := rfl
@[simp] theorem emit_hif (d : Dev) (o : Out) : (emit d o).hif = d.hif := rfl
@[simp] theorem emit_dma (d : Dev) (o : Out) : (emit d o).dma = d.dma := rfl
@[simp] theorem emit_ctl (d : Dev) (o : Out) : (emit d o).ctl = d.ctl := rfl
@[simp] theorem emit_tim (d : Dev) (o : Out) : (emit d o).tim = d.tim := rfl
@[simp] theorem emit_pm (d : Dev) (o : Out) : (emit d o).pm = d.pm := rfl
@[simp] theorem emit_chans (d : Dev) (o : Out) : (emit d o).chans = d.chans := rfl
@[simp] theorem emit_sec (d : Dev) (o : Out) : (emit d o).sec = d.sec := rfl
@[simp] theorem emit_twin (d : Dev) (o : Out) : (emit d o).twin = d.twin := rfl
@[simp] theorem emit_pwr (d : Dev) (o : Out) : (emit d o).pwr = d.pwr := rfl

@[simp] theorem freed_out (d : Dev) : (freed d).out = d.out := rfl
@[simp] theorem freed_regs (d : Dev) : (freed d).regs = d.regs := rfl
@[simp] theorem freed_sw (d : Dev) : (freed d).sw = d.sw := rfl
@[simp] theorem freed_tilth (d : Dev) : (freed d).tilth = d.tilth := rfl
@[simp] theorem freed_prot (d : Dev) : (freed d).prot = d.prot := rfl
@[simp] theorem freed_lanes (d : Dev) : (freed d).lanes = d.lanes := rfl
@[simp] theorem freed_frm (d : Dev) : (freed d).frm = d.frm := rfl
@[simp] theorem freed_deg (d : Dev) : (freed d).deg = d.deg := rfl
@[simp] theorem freed_stagger (d : Dev) : (freed d).stagger = d.stagger := rfl
@[simp] theorem freed_tti (d : Dev) : (freed d).tti = d.tti := rfl
@[simp] theorem freed_mdcaK (d : Dev) : (freed d).mdcaK = d.mdcaK := rfl
@[simp] theorem freed_cli (d : Dev) : (freed d).cli = d.cli := rfl
@[simp] theorem freed_hif (d : Dev) : (freed d).hif = d.hif := rfl
@[simp] theorem freed_dma (d : Dev) : (freed d).dma = d.dma := rfl
@[simp] theorem freed_ctl (d : Dev) : (freed d).ctl = d.ctl := rfl
@[simp] theorem freed_tim (d : Dev) : (freed d).tim = d.tim := rfl
@[simp] theorem freed_pm (d : Dev) : (freed d).pm = d.pm := rfl
@[simp] theorem freed_chans (d : Dev) : (freed d).chans = d.chans := rfl
@[simp] theorem freed_sec (d : Dev) : (freed d).sec = d.sec := rfl
@[simp] theorem freed_twin (d : Dev) : (freed d).twin = d.twin := rfl
@[simp] theorem freed_pwr (d : Dev) : (freed d).pwr = d.pwr := rfl

@[simp] theorem modRing_out (d : Dev) (r : Nat) (g : Ring → Ring) : (modRing d r g).out = d.out := rfl
@[simp] theorem modRing_free (d : Dev) (r : Nat) (g : Ring → Ring) : (modRing d r g).free = d.free := rfl
@[simp] theorem modRing_regs (d : Dev) (r : Nat) (g : Ring → Ring) : (modRing d r g).regs = d.regs := rfl
@[simp] theorem modRing_sw (d : Dev) (r : Nat) (g : Ring → Ring) : (modRing d r g).sw = d.sw := rfl
@[simp] theorem modRing_tilth (d : Dev) (r : Nat) (g : Ring → Ring) : (modRing d r g).tilth = d.tilth := rfl
@[simp] theorem modRing_prot (d : Dev) (r : Nat) (g : Ring → Ring) : (modRing d r g).prot = d.prot := rfl
@[simp] theorem modRing_lanes (d : Dev) (r : Nat) (g : Ring → Ring) : (modRing d r g).lanes = d.lanes := rfl
@[simp] theorem modRing_frm (d : Dev) (r : Nat) (g : Ring → Ring) : (modRing d r g).frm = d.frm := rfl
@[simp] theorem modRing_deg (d : Dev) (r : Nat) (g : Ring → Ring) : (modRing d r g).deg = d.deg := rfl
@[simp] theorem modRing_stagger (d : Dev) (r : Nat) (g : Ring → Ring) : (modRing d r g).stagger = d.stagger := rfl
@[simp] theorem modRing_tti (d : Dev) (r : Nat) (g : Ring → Ring) : (modRing d r g).tti = d.tti := rfl
@[simp] theorem modRing_mdcaK (d : Dev) (r : Nat) (g : Ring → Ring) : (modRing d r g).mdcaK = d.mdcaK := rfl
@[simp] theorem modRing_cli (d : Dev) (r : Nat) (g : Ring → Ring) : (modRing d r g).cli = d.cli := rfl
@[simp] theorem modRing_dma (d : Dev) (r : Nat) (g : Ring → Ring) : (modRing d r g).dma = d.dma := rfl
@[simp] theorem modRing_ctl (d : Dev) (r : Nat) (g : Ring → Ring) : (modRing d r g).ctl = d.ctl := rfl
@[simp] theorem modRing_tim (d : Dev) (r : Nat) (g : Ring → Ring) : (modRing d r g).tim = d.tim := rfl
@[simp] theorem modRing_pm (d : Dev) (r : Nat) (g : Ring → Ring) : (modRing d r g).pm = d.pm := rfl
@[simp] theorem modRing_chans (d : Dev) (r : Nat) (g : Ring → Ring) : (modRing d r g).chans = d.chans := rfl
@[simp] theorem modRing_sec (d : Dev) (r : Nat) (g : Ring → Ring) : (modRing d r g).sec = d.sec := rfl
@[simp] theorem modRing_twin (d : Dev) (r : Nat) (g : Ring → Ring) : (modRing d r g).twin = d.twin := rfl
@[simp] theorem modRing_pwr (d : Dev) (r : Nat) (g : Ring → Ring) : (modRing d r g).pwr = d.pwr := rfl

@[simp] theorem rSet_out (d : Dev) (r st : Nat) : (rSet d r st).out = d.out := rfl
@[simp] theorem rSet_free (d : Dev) (r st : Nat) : (rSet d r st).free = d.free := rfl
@[simp] theorem rSet_sw (d : Dev) (r st : Nat) : (rSet d r st).sw = d.sw := rfl
@[simp] theorem rSet_tilth (d : Dev) (r st : Nat) : (rSet d r st).tilth = d.tilth := rfl
@[simp] theorem rSet_prot (d : Dev) (r st : Nat) : (rSet d r st).prot = d.prot := rfl
@[simp] theorem rSet_lanes (d : Dev) (r st : Nat) : (rSet d r st).lanes = d.lanes := rfl
@[simp] theorem rSet_frm (d : Dev) (r st : Nat) : (rSet d r st).frm = d.frm := rfl
@[simp] theorem rSet_deg (d : Dev) (r st : Nat) : (rSet d r st).deg = d.deg := rfl
@[simp] theorem rSet_stagger (d : Dev) (r st : Nat) : (rSet d r st).stagger = d.stagger := rfl
@[simp] theorem rSet_tti (d : Dev) (r st : Nat) : (rSet d r st).tti = d.tti := rfl
@[simp] theorem rSet_mdcaK (d : Dev) (r st : Nat) : (rSet d r st).mdcaK = d.mdcaK := rfl
@[simp] theorem rSet_cli (d : Dev) (r st : Nat) : (rSet d r st).cli = d.cli := rfl
@[simp] theorem rSet_hif (d : Dev) (r st : Nat) : (rSet d r st).hif = d.hif := rfl
@[simp] theorem rSet_dma (d : Dev) (r st : Nat) : (rSet d r st).dma = d.dma := rfl
@[simp] theorem rSet_ctl (d : Dev) (r st : Nat) : (rSet d r st).ctl = d.ctl := rfl
@[simp] theorem rSet_tim (d : Dev) (r st : Nat) : (rSet d r st).tim = d.tim := rfl
@[simp] theorem rSet_pm (d : Dev) (r st : Nat) : (rSet d r st).pm = d.pm := rfl
@[simp] theorem rSet_chans (d : Dev) (r st : Nat) : (rSet d r st).chans = d.chans := rfl
@[simp] theorem rSet_sec (d : Dev) (r st : Nat) : (rSet d r st).sec = d.sec := rfl
@[simp] theorem rSet_twin (d : Dev) (r st : Nat) : (rSet d r st).twin = d.twin := rfl
@[simp] theorem rSet_pwr (d : Dev) (r st : Nat) : (rSet d r st).pwr = d.pwr := rfl

@[simp] theorem count_out (d : Dev) (k o i n : Nat) : (count d k o i n).out = d.out := rfl
@[simp] theorem count_free (d : Dev) (k o i n : Nat) : (count d k o i n).free = d.free := rfl
@[simp] theorem count_regs (d : Dev) (k o i n : Nat) : (count d k o i n).regs = d.regs := rfl
@[simp] theorem count_sw (d : Dev) (k o i n : Nat) : (count d k o i n).sw = d.sw := rfl
@[simp] theorem count_tilth (d : Dev) (k o i n : Nat) : (count d k o i n).tilth = d.tilth := rfl
@[simp] theorem count_prot (d : Dev) (k o i n : Nat) : (count d k o i n).prot = d.prot := rfl
@[simp] theorem count_lanes (d : Dev) (k o i n : Nat) : (count d k o i n).lanes = d.lanes := rfl
@[simp] theorem count_frm (d : Dev) (k o i n : Nat) : (count d k o i n).frm = d.frm := rfl
@[simp] theorem count_deg (d : Dev) (k o i n : Nat) : (count d k o i n).deg = d.deg := rfl
@[simp] theorem count_stagger (d : Dev) (k o i n : Nat) : (count d k o i n).stagger = d.stagger := rfl
@[simp] theorem count_tti (d : Dev) (k o i n : Nat) : (count d k o i n).tti = d.tti := rfl
@[simp] theorem count_mdcaK (d : Dev) (k o i n : Nat) : (count d k o i n).mdcaK = d.mdcaK := rfl
@[simp] theorem count_hif (d : Dev) (k o i n : Nat) : (count d k o i n).hif = d.hif := rfl
@[simp] theorem count_dma (d : Dev) (k o i n : Nat) : (count d k o i n).dma = d.dma := rfl
@[simp] theorem count_ctl (d : Dev) (k o i n : Nat) : (count d k o i n).ctl = d.ctl := rfl
@[simp] theorem count_tim (d : Dev) (k o i n : Nat) : (count d k o i n).tim = d.tim := rfl
@[simp] theorem count_pm (d : Dev) (k o i n : Nat) : (count d k o i n).pm = d.pm := rfl
@[simp] theorem count_chans (d : Dev) (k o i n : Nat) : (count d k o i n).chans = d.chans := rfl
@[simp] theorem count_sec (d : Dev) (k o i n : Nat) : (count d k o i n).sec = d.sec := rfl
@[simp] theorem count_twin (d : Dev) (k o i n : Nat) : (count d k o i n).twin = d.twin := rfl
@[simp] theorem count_pwr (d : Dev) (k o i n : Nat) : (count d k o i n).pwr = d.pwr := rfl

@[simp] theorem setPh_out (d : Dev) (r u : Nat) (p : QPhase) : (setPh d r u p).out = d.out := rfl
@[simp] theorem setPh_free (d : Dev) (r u : Nat) (p : QPhase) : (setPh d r u p).free = d.free := rfl
@[simp] theorem setPh_regs (d : Dev) (r u : Nat) (p : QPhase) : (setPh d r u p).regs = d.regs := rfl
@[simp] theorem setPh_sw (d : Dev) (r u : Nat) (p : QPhase) : (setPh d r u p).sw = d.sw := rfl
@[simp] theorem setPh_tilth (d : Dev) (r u : Nat) (p : QPhase) : (setPh d r u p).tilth = d.tilth := rfl
@[simp] theorem setPh_prot (d : Dev) (r u : Nat) (p : QPhase) : (setPh d r u p).prot = d.prot := rfl
@[simp] theorem setPh_lanes (d : Dev) (r u : Nat) (p : QPhase) : (setPh d r u p).lanes = d.lanes := rfl
@[simp] theorem setPh_frm (d : Dev) (r u : Nat) (p : QPhase) : (setPh d r u p).frm = d.frm := rfl
@[simp] theorem setPh_deg (d : Dev) (r u : Nat) (p : QPhase) : (setPh d r u p).deg = d.deg := rfl
@[simp] theorem setPh_stagger (d : Dev) (r u : Nat) (p : QPhase) : (setPh d r u p).stagger = d.stagger := rfl
@[simp] theorem setPh_tti (d : Dev) (r u : Nat) (p : QPhase) : (setPh d r u p).tti = d.tti := rfl
@[simp] theorem setPh_mdcaK (d : Dev) (r u : Nat) (p : QPhase) : (setPh d r u p).mdcaK = d.mdcaK := rfl
@[simp] theorem setPh_cli (d : Dev) (r u : Nat) (p : QPhase) : (setPh d r u p).cli = d.cli := rfl
@[simp] theorem setPh_dma (d : Dev) (r u : Nat) (p : QPhase) : (setPh d r u p).dma = d.dma := rfl
@[simp] theorem setPh_ctl (d : Dev) (r u : Nat) (p : QPhase) : (setPh d r u p).ctl = d.ctl := rfl
@[simp] theorem setPh_tim (d : Dev) (r u : Nat) (p : QPhase) : (setPh d r u p).tim = d.tim := rfl
@[simp] theorem setPh_pm (d : Dev) (r u : Nat) (p : QPhase) : (setPh d r u p).pm = d.pm := rfl
@[simp] theorem setPh_chans (d : Dev) (r u : Nat) (p : QPhase) : (setPh d r u p).chans = d.chans := rfl
@[simp] theorem setPh_sec (d : Dev) (r u : Nat) (p : QPhase) : (setPh d r u p).sec = d.sec := rfl
@[simp] theorem setPh_twin (d : Dev) (r u : Nat) (p : QPhase) : (setPh d r u p).twin = d.twin := rfl
@[simp] theorem setPh_pwr (d : Dev) (r u : Nat) (p : QPhase) : (setPh d r u p).pwr = d.pwr := rfl

@[simp] theorem take_out (d : Dev) (r u : Nat) : (take d r u).out = d.out := rfl
@[simp] theorem take_free (d : Dev) (r u : Nat) : (take d r u).free = d.free := rfl
@[simp] theorem take_regs (d : Dev) (r u : Nat) : (take d r u).regs = d.regs := rfl
@[simp] theorem take_sw (d : Dev) (r u : Nat) : (take d r u).sw = d.sw := rfl
@[simp] theorem take_tilth (d : Dev) (r u : Nat) : (take d r u).tilth = d.tilth := rfl
@[simp] theorem take_prot (d : Dev) (r u : Nat) : (take d r u).prot = d.prot := rfl
@[simp] theorem take_lanes (d : Dev) (r u : Nat) : (take d r u).lanes = d.lanes := rfl
@[simp] theorem take_frm (d : Dev) (r u : Nat) : (take d r u).frm = d.frm := rfl
@[simp] theorem take_deg (d : Dev) (r u : Nat) : (take d r u).deg = d.deg := rfl
@[simp] theorem take_stagger (d : Dev) (r u : Nat) : (take d r u).stagger = d.stagger := rfl
@[simp] theorem take_tti (d : Dev) (r u : Nat) : (take d r u).tti = d.tti := rfl
@[simp] theorem take_mdcaK (d : Dev) (r u : Nat) : (take d r u).mdcaK = d.mdcaK := rfl
@[simp] theorem take_cli (d : Dev) (r u : Nat) : (take d r u).cli = d.cli := rfl
@[simp] theorem take_dma (d : Dev) (r u : Nat) : (take d r u).dma = d.dma := rfl
@[simp] theorem take_ctl (d : Dev) (r u : Nat) : (take d r u).ctl = d.ctl := rfl
@[simp] theorem take_tim (d : Dev) (r u : Nat) : (take d r u).tim = d.tim := rfl
@[simp] theorem take_pm (d : Dev) (r u : Nat) : (take d r u).pm = d.pm := rfl
@[simp] theorem take_chans (d : Dev) (r u : Nat) : (take d r u).chans = d.chans := rfl
@[simp] theorem take_sec (d : Dev) (r u : Nat) : (take d r u).sec = d.sec := rfl
@[simp] theorem take_twin (d : Dev) (r u : Nat) : (take d r u).twin = d.twin := rfl
@[simp] theorem take_pwr (d : Dev) (r u : Nat) : (take d r u).pwr = d.pwr := rfl

@[simp] theorem finish_out (d : Dev) (r u st det : Nat) (sn : SN) (res : BitVec 64) : (finish d r u st det sn res).out = d.out := rfl
@[simp] theorem finish_free (d : Dev) (r u st det : Nat) (sn : SN) (res : BitVec 64) : (finish d r u st det sn res).free = d.free := rfl
@[simp] theorem finish_regs (d : Dev) (r u st det : Nat) (sn : SN) (res : BitVec 64) : (finish d r u st det sn res).regs = d.regs := rfl
@[simp] theorem finish_sw (d : Dev) (r u st det : Nat) (sn : SN) (res : BitVec 64) : (finish d r u st det sn res).sw = d.sw := rfl
@[simp] theorem finish_tilth (d : Dev) (r u st det : Nat) (sn : SN) (res : BitVec 64) : (finish d r u st det sn res).tilth = d.tilth := rfl
@[simp] theorem finish_prot (d : Dev) (r u st det : Nat) (sn : SN) (res : BitVec 64) : (finish d r u st det sn res).prot = d.prot := rfl
@[simp] theorem finish_lanes (d : Dev) (r u st det : Nat) (sn : SN) (res : BitVec 64) : (finish d r u st det sn res).lanes = d.lanes := rfl
@[simp] theorem finish_frm (d : Dev) (r u st det : Nat) (sn : SN) (res : BitVec 64) : (finish d r u st det sn res).frm = d.frm := rfl
@[simp] theorem finish_deg (d : Dev) (r u st det : Nat) (sn : SN) (res : BitVec 64) : (finish d r u st det sn res).deg = d.deg := rfl
@[simp] theorem finish_stagger (d : Dev) (r u st det : Nat) (sn : SN) (res : BitVec 64) : (finish d r u st det sn res).stagger = d.stagger := rfl
@[simp] theorem finish_tti (d : Dev) (r u st det : Nat) (sn : SN) (res : BitVec 64) : (finish d r u st det sn res).tti = d.tti := rfl
@[simp] theorem finish_mdcaK (d : Dev) (r u st det : Nat) (sn : SN) (res : BitVec 64) : (finish d r u st det sn res).mdcaK = d.mdcaK := rfl
@[simp] theorem finish_cli (d : Dev) (r u st det : Nat) (sn : SN) (res : BitVec 64) : (finish d r u st det sn res).cli = d.cli := rfl
@[simp] theorem finish_dma (d : Dev) (r u st det : Nat) (sn : SN) (res : BitVec 64) : (finish d r u st det sn res).dma = d.dma := rfl
@[simp] theorem finish_ctl (d : Dev) (r u st det : Nat) (sn : SN) (res : BitVec 64) : (finish d r u st det sn res).ctl = d.ctl := rfl
@[simp] theorem finish_tim (d : Dev) (r u st det : Nat) (sn : SN) (res : BitVec 64) : (finish d r u st det sn res).tim = d.tim := rfl
@[simp] theorem finish_pm (d : Dev) (r u st det : Nat) (sn : SN) (res : BitVec 64) : (finish d r u st det sn res).pm = d.pm := rfl
@[simp] theorem finish_chans (d : Dev) (r u st det : Nat) (sn : SN) (res : BitVec 64) : (finish d r u st det sn res).chans = d.chans := rfl
@[simp] theorem finish_sec (d : Dev) (r u st det : Nat) (sn : SN) (res : BitVec 64) : (finish d r u st det sn res).sec = d.sec := rfl
@[simp] theorem finish_twin (d : Dev) (r u st det : Nat) (sn : SN) (res : BitVec 64) : (finish d r u st det sn res).twin = d.twin := rfl
@[simp] theorem finish_pwr (d : Dev) (r u st det : Nat) (sn : SN) (res : BitVec 64) : (finish d r u st det sn res).pwr = d.pwr := rfl

@[simp] theorem badDesc_out (d : Dev) (r u : Nat) (sn : SN) (p : Prob) : (badDesc d r u sn p).out = d.out := rfl
@[simp] theorem badDesc_free (d : Dev) (r u : Nat) (sn : SN) (p : Prob) : (badDesc d r u sn p).free = d.free := rfl
@[simp] theorem badDesc_regs (d : Dev) (r u : Nat) (sn : SN) (p : Prob) : (badDesc d r u sn p).regs = d.regs := rfl
@[simp] theorem badDesc_sw (d : Dev) (r u : Nat) (sn : SN) (p : Prob) : (badDesc d r u sn p).sw = d.sw := rfl
@[simp] theorem badDesc_tilth (d : Dev) (r u : Nat) (sn : SN) (p : Prob) : (badDesc d r u sn p).tilth = d.tilth := rfl
@[simp] theorem badDesc_prot (d : Dev) (r u : Nat) (sn : SN) (p : Prob) : (badDesc d r u sn p).prot = d.prot := rfl
@[simp] theorem badDesc_lanes (d : Dev) (r u : Nat) (sn : SN) (p : Prob) : (badDesc d r u sn p).lanes = d.lanes := rfl
@[simp] theorem badDesc_frm (d : Dev) (r u : Nat) (sn : SN) (p : Prob) : (badDesc d r u sn p).frm = d.frm := rfl
@[simp] theorem badDesc_deg (d : Dev) (r u : Nat) (sn : SN) (p : Prob) : (badDesc d r u sn p).deg = d.deg := rfl
@[simp] theorem badDesc_stagger (d : Dev) (r u : Nat) (sn : SN) (p : Prob) : (badDesc d r u sn p).stagger = d.stagger := rfl
@[simp] theorem badDesc_tti (d : Dev) (r u : Nat) (sn : SN) (p : Prob) : (badDesc d r u sn p).tti = d.tti := rfl
@[simp] theorem badDesc_mdcaK (d : Dev) (r u : Nat) (sn : SN) (p : Prob) : (badDesc d r u sn p).mdcaK = d.mdcaK := rfl
@[simp] theorem badDesc_cli (d : Dev) (r u : Nat) (sn : SN) (p : Prob) : (badDesc d r u sn p).cli = d.cli := rfl
@[simp] theorem badDesc_dma (d : Dev) (r u : Nat) (sn : SN) (p : Prob) : (badDesc d r u sn p).dma = d.dma := rfl
@[simp] theorem badDesc_ctl (d : Dev) (r u : Nat) (sn : SN) (p : Prob) : (badDesc d r u sn p).ctl = d.ctl := rfl
@[simp] theorem badDesc_tim (d : Dev) (r u : Nat) (sn : SN) (p : Prob) : (badDesc d r u sn p).tim = d.tim := rfl
@[simp] theorem badDesc_pm (d : Dev) (r u : Nat) (sn : SN) (p : Prob) : (badDesc d r u sn p).pm = d.pm := rfl
@[simp] theorem badDesc_chans (d : Dev) (r u : Nat) (sn : SN) (p : Prob) : (badDesc d r u sn p).chans = d.chans := rfl
@[simp] theorem badDesc_sec (d : Dev) (r u : Nat) (sn : SN) (p : Prob) : (badDesc d r u sn p).sec = d.sec := rfl
@[simp] theorem badDesc_twin (d : Dev) (r u : Nat) (sn : SN) (p : Prob) : (badDesc d r u sn p).twin = d.twin := rfl
@[simp] theorem badDesc_pwr (d : Dev) (r u : Nat) (sn : SN) (p : Prob) : (badDesc d r u sn p).pwr = d.pwr := rfl

@[simp] theorem onTilth_out (d : Dev) (f : Tilth → Tilth) : (onTilth d f).out = d.out := rfl
@[simp] theorem onTilth_free (d : Dev) (f : Tilth → Tilth) : (onTilth d f).free = d.free := rfl
@[simp] theorem onTilth_regs (d : Dev) (f : Tilth → Tilth) : (onTilth d f).regs = d.regs := rfl
@[simp] theorem onTilth_sw (d : Dev) (f : Tilth → Tilth) : (onTilth d f).sw = d.sw := rfl
@[simp] theorem onTilth_prot (d : Dev) (f : Tilth → Tilth) : (onTilth d f).prot = d.prot := rfl
@[simp] theorem onTilth_lanes (d : Dev) (f : Tilth → Tilth) : (onTilth d f).lanes = d.lanes := rfl
@[simp] theorem onTilth_frm (d : Dev) (f : Tilth → Tilth) : (onTilth d f).frm = d.frm := rfl
@[simp] theorem onTilth_deg (d : Dev) (f : Tilth → Tilth) : (onTilth d f).deg = d.deg := rfl
@[simp] theorem onTilth_stagger (d : Dev) (f : Tilth → Tilth) : (onTilth d f).stagger = d.stagger := rfl
@[simp] theorem onTilth_tti (d : Dev) (f : Tilth → Tilth) : (onTilth d f).tti = d.tti := rfl
@[simp] theorem onTilth_mdcaK (d : Dev) (f : Tilth → Tilth) : (onTilth d f).mdcaK = d.mdcaK := rfl
@[simp] theorem onTilth_cli (d : Dev) (f : Tilth → Tilth) : (onTilth d f).cli = d.cli := rfl
@[simp] theorem onTilth_hif (d : Dev) (f : Tilth → Tilth) : (onTilth d f).hif = d.hif := rfl
@[simp] theorem onTilth_dma (d : Dev) (f : Tilth → Tilth) : (onTilth d f).dma = d.dma := rfl
@[simp] theorem onTilth_ctl (d : Dev) (f : Tilth → Tilth) : (onTilth d f).ctl = d.ctl := rfl
@[simp] theorem onTilth_tim (d : Dev) (f : Tilth → Tilth) : (onTilth d f).tim = d.tim := rfl
@[simp] theorem onTilth_pm (d : Dev) (f : Tilth → Tilth) : (onTilth d f).pm = d.pm := rfl
@[simp] theorem onTilth_chans (d : Dev) (f : Tilth → Tilth) : (onTilth d f).chans = d.chans := rfl
@[simp] theorem onTilth_sec (d : Dev) (f : Tilth → Tilth) : (onTilth d f).sec = d.sec := rfl
@[simp] theorem onTilth_twin (d : Dev) (f : Tilth → Tilth) : (onTilth d f).twin = d.twin := rfl
@[simp] theorem onTilth_pwr (d : Dev) (f : Tilth → Tilth) : (onTilth d f).pwr = d.pwr := rfl

@[simp] theorem setShadow_out (d : Dev) (p : CmPage) : (setShadow d p).out = d.out := rfl
@[simp] theorem setShadow_free (d : Dev) (p : CmPage) : (setShadow d p).free = d.free := rfl
@[simp] theorem setShadow_regs (d : Dev) (p : CmPage) : (setShadow d p).regs = d.regs := rfl
@[simp] theorem setShadow_tilth (d : Dev) (p : CmPage) : (setShadow d p).tilth = d.tilth := rfl
@[simp] theorem setShadow_prot (d : Dev) (p : CmPage) : (setShadow d p).prot = d.prot := rfl
@[simp] theorem setShadow_lanes (d : Dev) (p : CmPage) : (setShadow d p).lanes = d.lanes := rfl
@[simp] theorem setShadow_frm (d : Dev) (p : CmPage) : (setShadow d p).frm = d.frm := rfl
@[simp] theorem setShadow_deg (d : Dev) (p : CmPage) : (setShadow d p).deg = d.deg := rfl
@[simp] theorem setShadow_stagger (d : Dev) (p : CmPage) : (setShadow d p).stagger = d.stagger := rfl
@[simp] theorem setShadow_tti (d : Dev) (p : CmPage) : (setShadow d p).tti = d.tti := rfl
@[simp] theorem setShadow_mdcaK (d : Dev) (p : CmPage) : (setShadow d p).mdcaK = d.mdcaK := rfl
@[simp] theorem setShadow_cli (d : Dev) (p : CmPage) : (setShadow d p).cli = d.cli := rfl
@[simp] theorem setShadow_hif (d : Dev) (p : CmPage) : (setShadow d p).hif = d.hif := rfl
@[simp] theorem setShadow_dma (d : Dev) (p : CmPage) : (setShadow d p).dma = d.dma := rfl
@[simp] theorem setShadow_ctl (d : Dev) (p : CmPage) : (setShadow d p).ctl = d.ctl := rfl
@[simp] theorem setShadow_tim (d : Dev) (p : CmPage) : (setShadow d p).tim = d.tim := rfl
@[simp] theorem setShadow_pm (d : Dev) (p : CmPage) : (setShadow d p).pm = d.pm := rfl
@[simp] theorem setShadow_chans (d : Dev) (p : CmPage) : (setShadow d p).chans = d.chans := rfl
@[simp] theorem setShadow_sec (d : Dev) (p : CmPage) : (setShadow d p).sec = d.sec := rfl
@[simp] theorem setShadow_twin (d : Dev) (p : CmPage) : (setShadow d p).twin = d.twin := rfl
@[simp] theorem setShadow_pwr (d : Dev) (p : CmPage) : (setShadow d p).pwr = d.pwr := rfl

@[simp] theorem cleanEnts_out (d : Dev) (pg : Bool) (ws : List EntryWr) : (cleanEnts d pg ws).out = d.out := rfl
@[simp] theorem cleanEnts_free (d : Dev) (pg : Bool) (ws : List EntryWr) : (cleanEnts d pg ws).free = d.free := rfl
@[simp] theorem cleanEnts_regs (d : Dev) (pg : Bool) (ws : List EntryWr) : (cleanEnts d pg ws).regs = d.regs := rfl
@[simp] theorem cleanEnts_tilth (d : Dev) (pg : Bool) (ws : List EntryWr) : (cleanEnts d pg ws).tilth = d.tilth := rfl
@[simp] theorem cleanEnts_prot (d : Dev) (pg : Bool) (ws : List EntryWr) : (cleanEnts d pg ws).prot = d.prot := rfl
@[simp] theorem cleanEnts_lanes (d : Dev) (pg : Bool) (ws : List EntryWr) : (cleanEnts d pg ws).lanes = d.lanes := rfl
@[simp] theorem cleanEnts_frm (d : Dev) (pg : Bool) (ws : List EntryWr) : (cleanEnts d pg ws).frm = d.frm := rfl
@[simp] theorem cleanEnts_deg (d : Dev) (pg : Bool) (ws : List EntryWr) : (cleanEnts d pg ws).deg = d.deg := rfl
@[simp] theorem cleanEnts_stagger (d : Dev) (pg : Bool) (ws : List EntryWr) : (cleanEnts d pg ws).stagger = d.stagger := rfl
@[simp] theorem cleanEnts_tti (d : Dev) (pg : Bool) (ws : List EntryWr) : (cleanEnts d pg ws).tti = d.tti := rfl
@[simp] theorem cleanEnts_mdcaK (d : Dev) (pg : Bool) (ws : List EntryWr) : (cleanEnts d pg ws).mdcaK = d.mdcaK := rfl
@[simp] theorem cleanEnts_cli (d : Dev) (pg : Bool) (ws : List EntryWr) : (cleanEnts d pg ws).cli = d.cli := rfl
@[simp] theorem cleanEnts_hif (d : Dev) (pg : Bool) (ws : List EntryWr) : (cleanEnts d pg ws).hif = d.hif := rfl
@[simp] theorem cleanEnts_dma (d : Dev) (pg : Bool) (ws : List EntryWr) : (cleanEnts d pg ws).dma = d.dma := rfl
@[simp] theorem cleanEnts_ctl (d : Dev) (pg : Bool) (ws : List EntryWr) : (cleanEnts d pg ws).ctl = d.ctl := rfl
@[simp] theorem cleanEnts_tim (d : Dev) (pg : Bool) (ws : List EntryWr) : (cleanEnts d pg ws).tim = d.tim := rfl
@[simp] theorem cleanEnts_pm (d : Dev) (pg : Bool) (ws : List EntryWr) : (cleanEnts d pg ws).pm = d.pm := rfl
@[simp] theorem cleanEnts_chans (d : Dev) (pg : Bool) (ws : List EntryWr) : (cleanEnts d pg ws).chans = d.chans := rfl
@[simp] theorem cleanEnts_sec (d : Dev) (pg : Bool) (ws : List EntryWr) : (cleanEnts d pg ws).sec = d.sec := rfl
@[simp] theorem cleanEnts_twin (d : Dev) (pg : Bool) (ws : List EntryWr) : (cleanEnts d pg ws).twin = d.twin := rfl
@[simp] theorem cleanEnts_pwr (d : Dev) (pg : Bool) (ws : List EntryWr) : (cleanEnts d pg ws).pwr = d.pwr := rfl

@[simp] theorem modSel_out (d : Dev) (u : Nat) (f : Sel → Sel) : (modSel d u f).out = d.out := rfl
@[simp] theorem modSel_free (d : Dev) (u : Nat) (f : Sel → Sel) : (modSel d u f).free = d.free := rfl
@[simp] theorem modSel_regs (d : Dev) (u : Nat) (f : Sel → Sel) : (modSel d u f).regs = d.regs := rfl
@[simp] theorem modSel_tilth (d : Dev) (u : Nat) (f : Sel → Sel) : (modSel d u f).tilth = d.tilth := rfl
@[simp] theorem modSel_prot (d : Dev) (u : Nat) (f : Sel → Sel) : (modSel d u f).prot = d.prot := rfl
@[simp] theorem modSel_lanes (d : Dev) (u : Nat) (f : Sel → Sel) : (modSel d u f).lanes = d.lanes := rfl
@[simp] theorem modSel_frm (d : Dev) (u : Nat) (f : Sel → Sel) : (modSel d u f).frm = d.frm := rfl
@[simp] theorem modSel_deg (d : Dev) (u : Nat) (f : Sel → Sel) : (modSel d u f).deg = d.deg := rfl
@[simp] theorem modSel_stagger (d : Dev) (u : Nat) (f : Sel → Sel) : (modSel d u f).stagger = d.stagger := rfl
@[simp] theorem modSel_tti (d : Dev) (u : Nat) (f : Sel → Sel) : (modSel d u f).tti = d.tti := rfl
@[simp] theorem modSel_mdcaK (d : Dev) (u : Nat) (f : Sel → Sel) : (modSel d u f).mdcaK = d.mdcaK := rfl
@[simp] theorem modSel_cli (d : Dev) (u : Nat) (f : Sel → Sel) : (modSel d u f).cli = d.cli := rfl
@[simp] theorem modSel_hif (d : Dev) (u : Nat) (f : Sel → Sel) : (modSel d u f).hif = d.hif := rfl
@[simp] theorem modSel_dma (d : Dev) (u : Nat) (f : Sel → Sel) : (modSel d u f).dma = d.dma := rfl
@[simp] theorem modSel_ctl (d : Dev) (u : Nat) (f : Sel → Sel) : (modSel d u f).ctl = d.ctl := rfl
@[simp] theorem modSel_tim (d : Dev) (u : Nat) (f : Sel → Sel) : (modSel d u f).tim = d.tim := rfl
@[simp] theorem modSel_pm (d : Dev) (u : Nat) (f : Sel → Sel) : (modSel d u f).pm = d.pm := rfl
@[simp] theorem modSel_chans (d : Dev) (u : Nat) (f : Sel → Sel) : (modSel d u f).chans = d.chans := rfl
@[simp] theorem modSel_sec (d : Dev) (u : Nat) (f : Sel → Sel) : (modSel d u f).sec = d.sec := rfl
@[simp] theorem modSel_twin (d : Dev) (u : Nat) (f : Sel → Sel) : (modSel d u f).twin = d.twin := rfl
@[simp] theorem modSel_pwr (d : Dev) (u : Nat) (f : Sel → Sel) : (modSel d u f).pwr = d.pwr := rfl

@[simp] theorem modPlane_out (d : Dev) (p : Nat) (f : Plane → Plane) : (modPlane d p f).out = d.out := rfl
@[simp] theorem modPlane_free (d : Dev) (p : Nat) (f : Plane → Plane) : (modPlane d p f).free = d.free := rfl
@[simp] theorem modPlane_regs (d : Dev) (p : Nat) (f : Plane → Plane) : (modPlane d p f).regs = d.regs := rfl
@[simp] theorem modPlane_tilth (d : Dev) (p : Nat) (f : Plane → Plane) : (modPlane d p f).tilth = d.tilth := rfl
@[simp] theorem modPlane_prot (d : Dev) (p : Nat) (f : Plane → Plane) : (modPlane d p f).prot = d.prot := rfl
@[simp] theorem modPlane_lanes (d : Dev) (p : Nat) (f : Plane → Plane) : (modPlane d p f).lanes = d.lanes := rfl
@[simp] theorem modPlane_frm (d : Dev) (p : Nat) (f : Plane → Plane) : (modPlane d p f).frm = d.frm := rfl
@[simp] theorem modPlane_deg (d : Dev) (p : Nat) (f : Plane → Plane) : (modPlane d p f).deg = d.deg := rfl
@[simp] theorem modPlane_stagger (d : Dev) (p : Nat) (f : Plane → Plane) : (modPlane d p f).stagger = d.stagger := rfl
@[simp] theorem modPlane_tti (d : Dev) (p : Nat) (f : Plane → Plane) : (modPlane d p f).tti = d.tti := rfl
@[simp] theorem modPlane_mdcaK (d : Dev) (p : Nat) (f : Plane → Plane) : (modPlane d p f).mdcaK = d.mdcaK := rfl
@[simp] theorem modPlane_cli (d : Dev) (p : Nat) (f : Plane → Plane) : (modPlane d p f).cli = d.cli := rfl
@[simp] theorem modPlane_hif (d : Dev) (p : Nat) (f : Plane → Plane) : (modPlane d p f).hif = d.hif := rfl
@[simp] theorem modPlane_dma (d : Dev) (p : Nat) (f : Plane → Plane) : (modPlane d p f).dma = d.dma := rfl
@[simp] theorem modPlane_ctl (d : Dev) (p : Nat) (f : Plane → Plane) : (modPlane d p f).ctl = d.ctl := rfl
@[simp] theorem modPlane_tim (d : Dev) (p : Nat) (f : Plane → Plane) : (modPlane d p f).tim = d.tim := rfl
@[simp] theorem modPlane_pm (d : Dev) (p : Nat) (f : Plane → Plane) : (modPlane d p f).pm = d.pm := rfl
@[simp] theorem modPlane_chans (d : Dev) (p : Nat) (f : Plane → Plane) : (modPlane d p f).chans = d.chans := rfl
@[simp] theorem modPlane_sec (d : Dev) (p : Nat) (f : Plane → Plane) : (modPlane d p f).sec = d.sec := rfl
@[simp] theorem modPlane_twin (d : Dev) (p : Nat) (f : Plane → Plane) : (modPlane d p f).twin = d.twin := rfl
@[simp] theorem modPlane_pwr (d : Dev) (p : Nat) (f : Plane → Plane) : (modPlane d p f).pwr = d.pwr := rfl

@[simp] theorem onPwr_out (d : Dev) (f : Pwr → Pwr) : (onPwr d f).out = d.out := rfl
@[simp] theorem onPwr_free (d : Dev) (f : Pwr → Pwr) : (onPwr d f).free = d.free := rfl
@[simp] theorem onPwr_regs (d : Dev) (f : Pwr → Pwr) : (onPwr d f).regs = d.regs := rfl
@[simp] theorem onPwr_sw (d : Dev) (f : Pwr → Pwr) : (onPwr d f).sw = d.sw := rfl
@[simp] theorem onPwr_tilth (d : Dev) (f : Pwr → Pwr) : (onPwr d f).tilth = d.tilth := rfl
@[simp] theorem onPwr_prot (d : Dev) (f : Pwr → Pwr) : (onPwr d f).prot = d.prot := rfl
@[simp] theorem onPwr_lanes (d : Dev) (f : Pwr → Pwr) : (onPwr d f).lanes = d.lanes := rfl
@[simp] theorem onPwr_frm (d : Dev) (f : Pwr → Pwr) : (onPwr d f).frm = d.frm := rfl
@[simp] theorem onPwr_deg (d : Dev) (f : Pwr → Pwr) : (onPwr d f).deg = d.deg := rfl
@[simp] theorem onPwr_stagger (d : Dev) (f : Pwr → Pwr) : (onPwr d f).stagger = d.stagger := rfl
@[simp] theorem onPwr_tti (d : Dev) (f : Pwr → Pwr) : (onPwr d f).tti = d.tti := rfl
@[simp] theorem onPwr_mdcaK (d : Dev) (f : Pwr → Pwr) : (onPwr d f).mdcaK = d.mdcaK := rfl
@[simp] theorem onPwr_cli (d : Dev) (f : Pwr → Pwr) : (onPwr d f).cli = d.cli := rfl
@[simp] theorem onPwr_hif (d : Dev) (f : Pwr → Pwr) : (onPwr d f).hif = d.hif := rfl
@[simp] theorem onPwr_dma (d : Dev) (f : Pwr → Pwr) : (onPwr d f).dma = d.dma := rfl
@[simp] theorem onPwr_ctl (d : Dev) (f : Pwr → Pwr) : (onPwr d f).ctl = d.ctl := rfl
@[simp] theorem onPwr_tim (d : Dev) (f : Pwr → Pwr) : (onPwr d f).tim = d.tim := rfl
@[simp] theorem onPwr_pm (d : Dev) (f : Pwr → Pwr) : (onPwr d f).pm = d.pm := rfl
@[simp] theorem onPwr_chans (d : Dev) (f : Pwr → Pwr) : (onPwr d f).chans = d.chans := rfl
@[simp] theorem onPwr_sec (d : Dev) (f : Pwr → Pwr) : (onPwr d f).sec = d.sec := rfl
@[simp] theorem onPwr_twin (d : Dev) (f : Pwr → Pwr) : (onPwr d f).twin = d.twin := rfl

@[simp] theorem twinPut_free (d : Dev) (t : Nat) (ws : List Nat) : (twinPut d t ws).free = d.free := rfl
@[simp] theorem twinPut_regs (d : Dev) (t : Nat) (ws : List Nat) : (twinPut d t ws).regs = d.regs := rfl
@[simp] theorem twinPut_sw (d : Dev) (t : Nat) (ws : List Nat) : (twinPut d t ws).sw = d.sw := rfl
@[simp] theorem twinPut_tilth (d : Dev) (t : Nat) (ws : List Nat) : (twinPut d t ws).tilth = d.tilth := rfl
@[simp] theorem twinPut_prot (d : Dev) (t : Nat) (ws : List Nat) : (twinPut d t ws).prot = d.prot := rfl
@[simp] theorem twinPut_lanes (d : Dev) (t : Nat) (ws : List Nat) : (twinPut d t ws).lanes = d.lanes := rfl
@[simp] theorem twinPut_frm (d : Dev) (t : Nat) (ws : List Nat) : (twinPut d t ws).frm = d.frm := rfl
@[simp] theorem twinPut_deg (d : Dev) (t : Nat) (ws : List Nat) : (twinPut d t ws).deg = d.deg := rfl
@[simp] theorem twinPut_stagger (d : Dev) (t : Nat) (ws : List Nat) : (twinPut d t ws).stagger = d.stagger := rfl
@[simp] theorem twinPut_tti (d : Dev) (t : Nat) (ws : List Nat) : (twinPut d t ws).tti = d.tti := rfl
@[simp] theorem twinPut_mdcaK (d : Dev) (t : Nat) (ws : List Nat) : (twinPut d t ws).mdcaK = d.mdcaK := rfl
@[simp] theorem twinPut_cli (d : Dev) (t : Nat) (ws : List Nat) : (twinPut d t ws).cli = d.cli := rfl
@[simp] theorem twinPut_hif (d : Dev) (t : Nat) (ws : List Nat) : (twinPut d t ws).hif = d.hif := rfl
@[simp] theorem twinPut_dma (d : Dev) (t : Nat) (ws : List Nat) : (twinPut d t ws).dma = d.dma := rfl
@[simp] theorem twinPut_ctl (d : Dev) (t : Nat) (ws : List Nat) : (twinPut d t ws).ctl = d.ctl := rfl
@[simp] theorem twinPut_tim (d : Dev) (t : Nat) (ws : List Nat) : (twinPut d t ws).tim = d.tim := rfl
@[simp] theorem twinPut_pm (d : Dev) (t : Nat) (ws : List Nat) : (twinPut d t ws).pm = d.pm := rfl
@[simp] theorem twinPut_chans (d : Dev) (t : Nat) (ws : List Nat) : (twinPut d t ws).chans = d.chans := rfl
@[simp] theorem twinPut_sec (d : Dev) (t : Nat) (ws : List Nat) : (twinPut d t ws).sec = d.sec := rfl
@[simp] theorem twinPut_pwr (d : Dev) (t : Nat) (ws : List Nat) : (twinPut d t ws).pwr = d.pwr := rfl

@[simp] theorem twinSend_free (d : Dev) (t : Nat) (ws : List Nat) : (twinSend d t ws).free = d.free := by unfold twinSend; split <;> rfl
@[simp] theorem twinSend_regs (d : Dev) (t : Nat) (ws : List Nat) : (twinSend d t ws).regs = d.regs := by unfold twinSend; split <;> rfl
@[simp] theorem twinSend_sw (d : Dev) (t : Nat) (ws : List Nat) : (twinSend d t ws).sw = d.sw := by unfold twinSend; split <;> rfl
@[simp] theorem twinSend_tilth (d : Dev) (t : Nat) (ws : List Nat) : (twinSend d t ws).tilth = d.tilth := by unfold twinSend; split <;> rfl
@[simp] theorem twinSend_prot (d : Dev) (t : Nat) (ws : List Nat) : (twinSend d t ws).prot = d.prot := by unfold twinSend; split <;> rfl
@[simp] theorem twinSend_lanes (d : Dev) (t : Nat) (ws : List Nat) : (twinSend d t ws).lanes = d.lanes := by unfold twinSend; split <;> rfl
@[simp] theorem twinSend_frm (d : Dev) (t : Nat) (ws : List Nat) : (twinSend d t ws).frm = d.frm := by unfold twinSend; split <;> rfl
@[simp] theorem twinSend_deg (d : Dev) (t : Nat) (ws : List Nat) : (twinSend d t ws).deg = d.deg := by unfold twinSend; split <;> rfl
@[simp] theorem twinSend_stagger (d : Dev) (t : Nat) (ws : List Nat) : (twinSend d t ws).stagger = d.stagger := by unfold twinSend; split <;> rfl
@[simp] theorem twinSend_tti (d : Dev) (t : Nat) (ws : List Nat) : (twinSend d t ws).tti = d.tti := by unfold twinSend; split <;> rfl
@[simp] theorem twinSend_mdcaK (d : Dev) (t : Nat) (ws : List Nat) : (twinSend d t ws).mdcaK = d.mdcaK := by unfold twinSend; split <;> rfl
@[simp] theorem twinSend_cli (d : Dev) (t : Nat) (ws : List Nat) : (twinSend d t ws).cli = d.cli := by unfold twinSend; split <;> rfl
@[simp] theorem twinSend_hif (d : Dev) (t : Nat) (ws : List Nat) : (twinSend d t ws).hif = d.hif := by unfold twinSend; split <;> rfl
@[simp] theorem twinSend_dma (d : Dev) (t : Nat) (ws : List Nat) : (twinSend d t ws).dma = d.dma := by unfold twinSend; split <;> rfl
@[simp] theorem twinSend_ctl (d : Dev) (t : Nat) (ws : List Nat) : (twinSend d t ws).ctl = d.ctl := by unfold twinSend; split <;> rfl
@[simp] theorem twinSend_tim (d : Dev) (t : Nat) (ws : List Nat) : (twinSend d t ws).tim = d.tim := by unfold twinSend; split <;> rfl
@[simp] theorem twinSend_pm (d : Dev) (t : Nat) (ws : List Nat) : (twinSend d t ws).pm = d.pm := by unfold twinSend; split <;> rfl
@[simp] theorem twinSend_chans (d : Dev) (t : Nat) (ws : List Nat) : (twinSend d t ws).chans = d.chans := by unfold twinSend; split <;> rfl
@[simp] theorem twinSend_sec (d : Dev) (t : Nat) (ws : List Nat) : (twinSend d t ws).sec = d.sec := by unfold twinSend; split <;> rfl
@[simp] theorem twinSend_pwr (d : Dev) (t : Nat) (ws : List Nat) : (twinSend d t ws).pwr = d.pwr := by unfold twinSend; split <;> rfl

@[simp] theorem sendAck_free (d : Dev) : (sendAck d).free = d.free := by simp [sendAck]
@[simp] theorem sendAck_regs (d : Dev) : (sendAck d).regs = d.regs := by simp [sendAck]
@[simp] theorem sendAck_sw (d : Dev) : (sendAck d).sw = d.sw := by simp [sendAck]
@[simp] theorem sendAck_tilth (d : Dev) : (sendAck d).tilth = d.tilth := by simp [sendAck]
@[simp] theorem sendAck_prot (d : Dev) : (sendAck d).prot = d.prot := by simp [sendAck]
@[simp] theorem sendAck_lanes (d : Dev) : (sendAck d).lanes = d.lanes := by simp [sendAck]
@[simp] theorem sendAck_frm (d : Dev) : (sendAck d).frm = d.frm := by simp [sendAck]
@[simp] theorem sendAck_deg (d : Dev) : (sendAck d).deg = d.deg := by simp [sendAck]
@[simp] theorem sendAck_stagger (d : Dev) : (sendAck d).stagger = d.stagger := by simp [sendAck]
@[simp] theorem sendAck_tti (d : Dev) : (sendAck d).tti = d.tti := by simp [sendAck]
@[simp] theorem sendAck_mdcaK (d : Dev) : (sendAck d).mdcaK = d.mdcaK := by simp [sendAck]
@[simp] theorem sendAck_cli (d : Dev) : (sendAck d).cli = d.cli := by simp [sendAck]
@[simp] theorem sendAck_hif (d : Dev) : (sendAck d).hif = d.hif := by simp [sendAck]
@[simp] theorem sendAck_dma (d : Dev) : (sendAck d).dma = d.dma := by simp [sendAck]
@[simp] theorem sendAck_ctl (d : Dev) : (sendAck d).ctl = d.ctl := by simp [sendAck]
@[simp] theorem sendAck_tim (d : Dev) : (sendAck d).tim = d.tim := by simp [sendAck]
@[simp] theorem sendAck_pm (d : Dev) : (sendAck d).pm = d.pm := by simp [sendAck]
@[simp] theorem sendAck_chans (d : Dev) : (sendAck d).chans = d.chans := by simp [sendAck]
@[simp] theorem sendAck_sec (d : Dev) : (sendAck d).sec = d.sec := by simp [sendAck]
@[simp] theorem sendAck_pwr (d : Dev) : (sendAck d).pwr = d.pwr := by simp [sendAck]

@[simp] theorem seenOr_out (d : Dev) (k o b : Nat) : (seenOr d k o b).out = d.out := by unfold seenOr; split <;> rfl
@[simp] theorem seenOr_free (d : Dev) (k o b : Nat) : (seenOr d k o b).free = d.free := by unfold seenOr; split <;> rfl
@[simp] theorem seenOr_regs (d : Dev) (k o b : Nat) : (seenOr d k o b).regs = d.regs := by unfold seenOr; split <;> rfl
@[simp] theorem seenOr_sw (d : Dev) (k o b : Nat) : (seenOr d k o b).sw = d.sw := by unfold seenOr; split <;> rfl
@[simp] theorem seenOr_tilth (d : Dev) (k o b : Nat) : (seenOr d k o b).tilth = d.tilth := by unfold seenOr; split <;> rfl
@[simp] theorem seenOr_prot (d : Dev) (k o b : Nat) : (seenOr d k o b).prot = d.prot := by unfold seenOr; split <;> rfl
@[simp] theorem seenOr_lanes (d : Dev) (k o b : Nat) : (seenOr d k o b).lanes = d.lanes := by unfold seenOr; split <;> rfl
@[simp] theorem seenOr_frm (d : Dev) (k o b : Nat) : (seenOr d k o b).frm = d.frm := by unfold seenOr; split <;> rfl
@[simp] theorem seenOr_deg (d : Dev) (k o b : Nat) : (seenOr d k o b).deg = d.deg := by unfold seenOr; split <;> rfl
@[simp] theorem seenOr_stagger (d : Dev) (k o b : Nat) : (seenOr d k o b).stagger = d.stagger := by unfold seenOr; split <;> rfl
@[simp] theorem seenOr_tti (d : Dev) (k o b : Nat) : (seenOr d k o b).tti = d.tti := by unfold seenOr; split <;> rfl
@[simp] theorem seenOr_mdcaK (d : Dev) (k o b : Nat) : (seenOr d k o b).mdcaK = d.mdcaK := by unfold seenOr; split <;> rfl
@[simp] theorem seenOr_cli (d : Dev) (k o b : Nat) : (seenOr d k o b).cli = d.cli := by unfold seenOr; split <;> rfl
@[simp] theorem seenOr_hif (d : Dev) (k o b : Nat) : (seenOr d k o b).hif = d.hif := by unfold seenOr; split <;> rfl
@[simp] theorem seenOr_dma (d : Dev) (k o b : Nat) : (seenOr d k o b).dma = d.dma := by unfold seenOr; split <;> rfl
@[simp] theorem seenOr_ctl (d : Dev) (k o b : Nat) : (seenOr d k o b).ctl = d.ctl := by unfold seenOr; split <;> rfl
@[simp] theorem seenOr_tim (d : Dev) (k o b : Nat) : (seenOr d k o b).tim = d.tim := by unfold seenOr; split <;> rfl
@[simp] theorem seenOr_chans (d : Dev) (k o b : Nat) : (seenOr d k o b).chans = d.chans := by unfold seenOr; split <;> rfl
@[simp] theorem seenOr_sec (d : Dev) (k o b : Nat) : (seenOr d k o b).sec = d.sec := by unfold seenOr; split <;> rfl
@[simp] theorem seenOr_twin (d : Dev) (k o b : Nat) : (seenOr d k o b).twin = d.twin := by unfold seenOr; split <;> rfl
@[simp] theorem seenOr_pwr (d : Dev) (k o b : Nat) : (seenOr d k o b).pwr = d.pwr := by unfold seenOr; split <;> rfl

@[simp] theorem tilthStat_out (d : Dev) : (tilthStat d).out = d.out := by unfold tilthStat; dsimp only; split <;> split <;> rfl
@[simp] theorem tilthStat_free (d : Dev) : (tilthStat d).free = d.free := by unfold tilthStat; dsimp only; split <;> split <;> rfl
@[simp] theorem tilthStat_sw (d : Dev) : (tilthStat d).sw = d.sw := by unfold tilthStat; dsimp only; split <;> split <;> rfl
@[simp] theorem tilthStat_tilth (d : Dev) : (tilthStat d).tilth = d.tilth := by unfold tilthStat; dsimp only; split <;> split <;> rfl
@[simp] theorem tilthStat_prot (d : Dev) : (tilthStat d).prot = d.prot := by unfold tilthStat; dsimp only; split <;> split <;> rfl
@[simp] theorem tilthStat_lanes (d : Dev) : (tilthStat d).lanes = d.lanes := by unfold tilthStat; dsimp only; split <;> split <;> rfl
@[simp] theorem tilthStat_frm (d : Dev) : (tilthStat d).frm = d.frm := by unfold tilthStat; dsimp only; split <;> split <;> rfl
@[simp] theorem tilthStat_deg (d : Dev) : (tilthStat d).deg = d.deg := by unfold tilthStat; dsimp only; split <;> split <;> rfl
@[simp] theorem tilthStat_stagger (d : Dev) : (tilthStat d).stagger = d.stagger := by unfold tilthStat; dsimp only; split <;> split <;> rfl
@[simp] theorem tilthStat_tti (d : Dev) : (tilthStat d).tti = d.tti := by unfold tilthStat; dsimp only; split <;> split <;> rfl
@[simp] theorem tilthStat_mdcaK (d : Dev) : (tilthStat d).mdcaK = d.mdcaK := by unfold tilthStat; dsimp only; split <;> split <;> rfl
@[simp] theorem tilthStat_cli (d : Dev) : (tilthStat d).cli = d.cli := by unfold tilthStat; dsimp only; split <;> split <;> rfl
@[simp] theorem tilthStat_hif (d : Dev) : (tilthStat d).hif = d.hif := by unfold tilthStat; dsimp only; split <;> split <;> rfl
@[simp] theorem tilthStat_dma (d : Dev) : (tilthStat d).dma = d.dma := by unfold tilthStat; dsimp only; split <;> split <;> rfl
@[simp] theorem tilthStat_ctl (d : Dev) : (tilthStat d).ctl = d.ctl := by unfold tilthStat; dsimp only; split <;> split <;> rfl
@[simp] theorem tilthStat_tim (d : Dev) : (tilthStat d).tim = d.tim := by unfold tilthStat; dsimp only; split <;> split <;> rfl
@[simp] theorem tilthStat_pm (d : Dev) : (tilthStat d).pm = d.pm := by unfold tilthStat; dsimp only; split <;> split <;> rfl
@[simp] theorem tilthStat_chans (d : Dev) : (tilthStat d).chans = d.chans := by unfold tilthStat; dsimp only; split <;> split <;> rfl
@[simp] theorem tilthStat_sec (d : Dev) : (tilthStat d).sec = d.sec := by unfold tilthStat; dsimp only; split <;> split <;> rfl
@[simp] theorem tilthStat_twin (d : Dev) : (tilthStat d).twin = d.twin := by unfold tilthStat; dsimp only; split <;> split <;> rfl
@[simp] theorem tilthStat_pwr (d : Dev) : (tilthStat d).pwr = d.pwr := by unfold tilthStat; dsimp only; split <;> split <;> rfl

@[simp] theorem sendEntries_free (d : Dev) (ws : List EntryWr) : (sendEntries d ws).free = d.free := by unfold sendEntries; split <;> simp
@[simp] theorem sendEntries_regs (d : Dev) (ws : List EntryWr) : (sendEntries d ws).regs = d.regs := by unfold sendEntries; split <;> simp
@[simp] theorem sendEntries_sw (d : Dev) (ws : List EntryWr) : (sendEntries d ws).sw = d.sw := by unfold sendEntries; split <;> simp
@[simp] theorem sendEntries_prot (d : Dev) (ws : List EntryWr) : (sendEntries d ws).prot = d.prot := by unfold sendEntries; split <;> simp
@[simp] theorem sendEntries_lanes (d : Dev) (ws : List EntryWr) : (sendEntries d ws).lanes = d.lanes := by unfold sendEntries; split <;> simp
@[simp] theorem sendEntries_frm (d : Dev) (ws : List EntryWr) : (sendEntries d ws).frm = d.frm := by unfold sendEntries; split <;> simp
@[simp] theorem sendEntries_deg (d : Dev) (ws : List EntryWr) : (sendEntries d ws).deg = d.deg := by unfold sendEntries; split <;> simp
@[simp] theorem sendEntries_stagger (d : Dev) (ws : List EntryWr) : (sendEntries d ws).stagger = d.stagger := by unfold sendEntries; split <;> simp
@[simp] theorem sendEntries_tti (d : Dev) (ws : List EntryWr) : (sendEntries d ws).tti = d.tti := by unfold sendEntries; split <;> simp
@[simp] theorem sendEntries_mdcaK (d : Dev) (ws : List EntryWr) : (sendEntries d ws).mdcaK = d.mdcaK := by unfold sendEntries; split <;> simp
@[simp] theorem sendEntries_cli (d : Dev) (ws : List EntryWr) : (sendEntries d ws).cli = d.cli := by unfold sendEntries; split <;> simp
@[simp] theorem sendEntries_hif (d : Dev) (ws : List EntryWr) : (sendEntries d ws).hif = d.hif := by unfold sendEntries; split <;> simp
@[simp] theorem sendEntries_dma (d : Dev) (ws : List EntryWr) : (sendEntries d ws).dma = d.dma := by unfold sendEntries; split <;> simp
@[simp] theorem sendEntries_ctl (d : Dev) (ws : List EntryWr) : (sendEntries d ws).ctl = d.ctl := by unfold sendEntries; split <;> simp
@[simp] theorem sendEntries_tim (d : Dev) (ws : List EntryWr) : (sendEntries d ws).tim = d.tim := by unfold sendEntries; split <;> simp
@[simp] theorem sendEntries_pm (d : Dev) (ws : List EntryWr) : (sendEntries d ws).pm = d.pm := by unfold sendEntries; split <;> simp
@[simp] theorem sendEntries_chans (d : Dev) (ws : List EntryWr) : (sendEntries d ws).chans = d.chans := by unfold sendEntries; split <;> simp
@[simp] theorem sendEntries_sec (d : Dev) (ws : List EntryWr) : (sendEntries d ws).sec = d.sec := by unfold sendEntries; split <;> simp
@[simp] theorem sendEntries_pwr (d : Dev) (ws : List EntryWr) : (sendEntries d ws).pwr = d.pwr := by unfold sendEntries; split <;> simp

@[simp] theorem mirrorEntries_free (d : Dev) (ws : List EntryWr) : (mirrorEntries d ws).free = d.free := by unfold mirrorEntries; split <;> simp
@[simp] theorem mirrorEntries_regs (d : Dev) (ws : List EntryWr) : (mirrorEntries d ws).regs = d.regs := by unfold mirrorEntries; split <;> simp
@[simp] theorem mirrorEntries_sw (d : Dev) (ws : List EntryWr) : (mirrorEntries d ws).sw = d.sw := by unfold mirrorEntries; split <;> simp
@[simp] theorem mirrorEntries_prot (d : Dev) (ws : List EntryWr) : (mirrorEntries d ws).prot = d.prot := by unfold mirrorEntries; split <;> simp
@[simp] theorem mirrorEntries_lanes (d : Dev) (ws : List EntryWr) : (mirrorEntries d ws).lanes = d.lanes := by unfold mirrorEntries; split <;> simp
@[simp] theorem mirrorEntries_frm (d : Dev) (ws : List EntryWr) : (mirrorEntries d ws).frm = d.frm := by unfold mirrorEntries; split <;> simp
@[simp] theorem mirrorEntries_deg (d : Dev) (ws : List EntryWr) : (mirrorEntries d ws).deg = d.deg := by unfold mirrorEntries; split <;> simp
@[simp] theorem mirrorEntries_stagger (d : Dev) (ws : List EntryWr) : (mirrorEntries d ws).stagger = d.stagger := by unfold mirrorEntries; split <;> simp
@[simp] theorem mirrorEntries_tti (d : Dev) (ws : List EntryWr) : (mirrorEntries d ws).tti = d.tti := by unfold mirrorEntries; split <;> simp
@[simp] theorem mirrorEntries_mdcaK (d : Dev) (ws : List EntryWr) : (mirrorEntries d ws).mdcaK = d.mdcaK := by unfold mirrorEntries; split <;> simp
@[simp] theorem mirrorEntries_cli (d : Dev) (ws : List EntryWr) : (mirrorEntries d ws).cli = d.cli := by unfold mirrorEntries; split <;> simp
@[simp] theorem mirrorEntries_hif (d : Dev) (ws : List EntryWr) : (mirrorEntries d ws).hif = d.hif := by unfold mirrorEntries; split <;> simp
@[simp] theorem mirrorEntries_dma (d : Dev) (ws : List EntryWr) : (mirrorEntries d ws).dma = d.dma := by unfold mirrorEntries; split <;> simp
@[simp] theorem mirrorEntries_ctl (d : Dev) (ws : List EntryWr) : (mirrorEntries d ws).ctl = d.ctl := by unfold mirrorEntries; split <;> simp
@[simp] theorem mirrorEntries_tim (d : Dev) (ws : List EntryWr) : (mirrorEntries d ws).tim = d.tim := by unfold mirrorEntries; split <;> simp
@[simp] theorem mirrorEntries_pm (d : Dev) (ws : List EntryWr) : (mirrorEntries d ws).pm = d.pm := by unfold mirrorEntries; split <;> simp
@[simp] theorem mirrorEntries_chans (d : Dev) (ws : List EntryWr) : (mirrorEntries d ws).chans = d.chans := by unfold mirrorEntries; split <;> simp
@[simp] theorem mirrorEntries_sec (d : Dev) (ws : List EntryWr) : (mirrorEntries d ws).sec = d.sec := by unfold mirrorEntries; split <;> simp
@[simp] theorem mirrorEntries_pwr (d : Dev) (ws : List EntryWr) : (mirrorEntries d ws).pwr = d.pwr := by unfold mirrorEntries; split <;> simp

@[simp] theorem applyPlan_free (d : Dev) (p : Plan) : (applyPlan d p).free = d.free := by simp [applyPlan]
@[simp] theorem applyPlan_regs (d : Dev) (p : Plan) : (applyPlan d p).regs = d.regs := by simp [applyPlan]
@[simp] theorem applyPlan_prot (d : Dev) (p : Plan) : (applyPlan d p).prot = d.prot := by simp [applyPlan]
@[simp] theorem applyPlan_lanes (d : Dev) (p : Plan) : (applyPlan d p).lanes = d.lanes := by simp [applyPlan]
@[simp] theorem applyPlan_frm (d : Dev) (p : Plan) : (applyPlan d p).frm = d.frm := by simp [applyPlan]
@[simp] theorem applyPlan_deg (d : Dev) (p : Plan) : (applyPlan d p).deg = d.deg := by simp [applyPlan]
@[simp] theorem applyPlan_stagger (d : Dev) (p : Plan) : (applyPlan d p).stagger = d.stagger := by simp [applyPlan]
@[simp] theorem applyPlan_tti (d : Dev) (p : Plan) : (applyPlan d p).tti = d.tti := by simp [applyPlan]
@[simp] theorem applyPlan_mdcaK (d : Dev) (p : Plan) : (applyPlan d p).mdcaK = d.mdcaK := by simp [applyPlan]
@[simp] theorem applyPlan_cli (d : Dev) (p : Plan) : (applyPlan d p).cli = d.cli := by simp [applyPlan]
@[simp] theorem applyPlan_hif (d : Dev) (p : Plan) : (applyPlan d p).hif = d.hif := by simp [applyPlan]
@[simp] theorem applyPlan_dma (d : Dev) (p : Plan) : (applyPlan d p).dma = d.dma := by simp [applyPlan]
@[simp] theorem applyPlan_ctl (d : Dev) (p : Plan) : (applyPlan d p).ctl = d.ctl := by simp [applyPlan]
@[simp] theorem applyPlan_tim (d : Dev) (p : Plan) : (applyPlan d p).tim = d.tim := by simp [applyPlan]
@[simp] theorem applyPlan_pm (d : Dev) (p : Plan) : (applyPlan d p).pm = d.pm := by simp [applyPlan]
@[simp] theorem applyPlan_chans (d : Dev) (p : Plan) : (applyPlan d p).chans = d.chans := by simp [applyPlan]
@[simp] theorem applyPlan_sec (d : Dev) (p : Plan) : (applyPlan d p).sec = d.sec := by simp [applyPlan]
@[simp] theorem applyPlan_pwr (d : Dev) (p : Plan) : (applyPlan d p).pwr = d.pwr := by simp [applyPlan]

@[simp] theorem restore_out (d : Dev) : (restore d).out = d.out := by simp [restore]
@[simp] theorem restore_free (d : Dev) : (restore d).free = d.free := by simp [restore]
@[simp] theorem restore_regs (d : Dev) : (restore d).regs = d.regs := by simp [restore]
@[simp] theorem restore_tilth (d : Dev) : (restore d).tilth = d.tilth := by simp [restore]
@[simp] theorem restore_prot (d : Dev) : (restore d).prot = d.prot := by simp [restore]
@[simp] theorem restore_lanes (d : Dev) : (restore d).lanes = d.lanes := by simp [restore]
@[simp] theorem restore_frm (d : Dev) : (restore d).frm = d.frm := by simp [restore]
@[simp] theorem restore_deg (d : Dev) : (restore d).deg = d.deg := by simp [restore]
@[simp] theorem restore_stagger (d : Dev) : (restore d).stagger = d.stagger := by simp [restore]
@[simp] theorem restore_tti (d : Dev) : (restore d).tti = d.tti := by simp [restore]
@[simp] theorem restore_mdcaK (d : Dev) : (restore d).mdcaK = d.mdcaK := by simp [restore]
@[simp] theorem restore_cli (d : Dev) : (restore d).cli = d.cli := by simp [restore]
@[simp] theorem restore_hif (d : Dev) : (restore d).hif = d.hif := by simp [restore]
@[simp] theorem restore_dma (d : Dev) : (restore d).dma = d.dma := by simp [restore]
@[simp] theorem restore_ctl (d : Dev) : (restore d).ctl = d.ctl := by simp [restore]
@[simp] theorem restore_tim (d : Dev) : (restore d).tim = d.tim := by simp [restore]
@[simp] theorem restore_pm (d : Dev) : (restore d).pm = d.pm := by simp [restore]
@[simp] theorem restore_chans (d : Dev) : (restore d).chans = d.chans := by simp [restore]
@[simp] theorem restore_sec (d : Dev) : (restore d).sec = d.sec := by simp [restore]
@[simp] theorem restore_twin (d : Dev) : (restore d).twin = d.twin := by simp [restore]
@[simp] theorem restore_pwr (d : Dev) : (restore d).pwr = d.pwr := by simp [restore]

@[simp] theorem mirrorRollback_free (d : Dev) : (mirrorRollback d).free = d.free := by unfold mirrorRollback; split <;> simp
@[simp] theorem mirrorRollback_regs (d : Dev) : (mirrorRollback d).regs = d.regs := by unfold mirrorRollback; split <;> simp
@[simp] theorem mirrorRollback_sw (d : Dev) : (mirrorRollback d).sw = d.sw := by unfold mirrorRollback; split <;> simp
@[simp] theorem mirrorRollback_prot (d : Dev) : (mirrorRollback d).prot = d.prot := by unfold mirrorRollback; split <;> simp
@[simp] theorem mirrorRollback_lanes (d : Dev) : (mirrorRollback d).lanes = d.lanes := by unfold mirrorRollback; split <;> simp
@[simp] theorem mirrorRollback_frm (d : Dev) : (mirrorRollback d).frm = d.frm := by unfold mirrorRollback; split <;> simp
@[simp] theorem mirrorRollback_deg (d : Dev) : (mirrorRollback d).deg = d.deg := by unfold mirrorRollback; split <;> simp
@[simp] theorem mirrorRollback_stagger (d : Dev) : (mirrorRollback d).stagger = d.stagger := by unfold mirrorRollback; split <;> simp
@[simp] theorem mirrorRollback_tti (d : Dev) : (mirrorRollback d).tti = d.tti := by unfold mirrorRollback; split <;> simp
@[simp] theorem mirrorRollback_mdcaK (d : Dev) : (mirrorRollback d).mdcaK = d.mdcaK := by unfold mirrorRollback; split <;> simp
@[simp] theorem mirrorRollback_cli (d : Dev) : (mirrorRollback d).cli = d.cli := by unfold mirrorRollback; split <;> simp
@[simp] theorem mirrorRollback_hif (d : Dev) : (mirrorRollback d).hif = d.hif := by unfold mirrorRollback; split <;> simp
@[simp] theorem mirrorRollback_dma (d : Dev) : (mirrorRollback d).dma = d.dma := by unfold mirrorRollback; split <;> simp
@[simp] theorem mirrorRollback_ctl (d : Dev) : (mirrorRollback d).ctl = d.ctl := by unfold mirrorRollback; split <;> simp
@[simp] theorem mirrorRollback_tim (d : Dev) : (mirrorRollback d).tim = d.tim := by unfold mirrorRollback; split <;> simp
@[simp] theorem mirrorRollback_pm (d : Dev) : (mirrorRollback d).pm = d.pm := by unfold mirrorRollback; split <;> simp
@[simp] theorem mirrorRollback_chans (d : Dev) : (mirrorRollback d).chans = d.chans := by unfold mirrorRollback; split <;> simp
@[simp] theorem mirrorRollback_sec (d : Dev) : (mirrorRollback d).sec = d.sec := by unfold mirrorRollback; split <;> simp
@[simp] theorem mirrorRollback_pwr (d : Dev) : (mirrorRollback d).pwr = d.pwr := by unfold mirrorRollback; split <;> simp

@[simp] theorem rollback_free (d : Dev) : (rollback d).free = d.free := by simp [rollback]
@[simp] theorem rollback_regs (d : Dev) : (rollback d).regs = d.regs := by simp [rollback]
@[simp] theorem rollback_prot (d : Dev) : (rollback d).prot = d.prot := by simp [rollback]
@[simp] theorem rollback_lanes (d : Dev) : (rollback d).lanes = d.lanes := by simp [rollback]
@[simp] theorem rollback_frm (d : Dev) : (rollback d).frm = d.frm := by simp [rollback]
@[simp] theorem rollback_deg (d : Dev) : (rollback d).deg = d.deg := by simp [rollback]
@[simp] theorem rollback_stagger (d : Dev) : (rollback d).stagger = d.stagger := by simp [rollback]
@[simp] theorem rollback_tti (d : Dev) : (rollback d).tti = d.tti := by simp [rollback]
@[simp] theorem rollback_mdcaK (d : Dev) : (rollback d).mdcaK = d.mdcaK := by simp [rollback]
@[simp] theorem rollback_cli (d : Dev) : (rollback d).cli = d.cli := by simp [rollback]
@[simp] theorem rollback_hif (d : Dev) : (rollback d).hif = d.hif := by simp [rollback]
@[simp] theorem rollback_dma (d : Dev) : (rollback d).dma = d.dma := by simp [rollback]
@[simp] theorem rollback_ctl (d : Dev) : (rollback d).ctl = d.ctl := by simp [rollback]
@[simp] theorem rollback_tim (d : Dev) : (rollback d).tim = d.tim := by simp [rollback]
@[simp] theorem rollback_pm (d : Dev) : (rollback d).pm = d.pm := by simp [rollback]
@[simp] theorem rollback_chans (d : Dev) : (rollback d).chans = d.chans := by simp [rollback]
@[simp] theorem rollback_sec (d : Dev) : (rollback d).sec = d.sec := by simp [rollback]
@[simp] theorem rollback_pwr (d : Dev) : (rollback d).pwr = d.pwr := by simp [rollback]

@[simp] theorem perf_out (d : Dev) (e a n : Nat) : (perf d e a n).out = d.out := by unfold perf; exact foldl_same (fun d i => by dsimp only; split <;> rfl) _ d
@[simp] theorem perf_free (d : Dev) (e a n : Nat) : (perf d e a n).free = d.free := by unfold perf; exact foldl_same (fun d i => by dsimp only; split <;> rfl) _ d
@[simp] theorem perf_regs (d : Dev) (e a n : Nat) : (perf d e a n).regs = d.regs := by unfold perf; exact foldl_same (fun d i => by dsimp only; split <;> rfl) _ d
@[simp] theorem perf_sw (d : Dev) (e a n : Nat) : (perf d e a n).sw = d.sw := by unfold perf; exact foldl_same (fun d i => by dsimp only; split <;> rfl) _ d
@[simp] theorem perf_tilth (d : Dev) (e a n : Nat) : (perf d e a n).tilth = d.tilth := by unfold perf; exact foldl_same (fun d i => by dsimp only; split <;> rfl) _ d
@[simp] theorem perf_prot (d : Dev) (e a n : Nat) : (perf d e a n).prot = d.prot := by unfold perf; exact foldl_same (fun d i => by dsimp only; split <;> rfl) _ d
@[simp] theorem perf_lanes (d : Dev) (e a n : Nat) : (perf d e a n).lanes = d.lanes := by unfold perf; exact foldl_same (fun d i => by dsimp only; split <;> rfl) _ d
@[simp] theorem perf_frm (d : Dev) (e a n : Nat) : (perf d e a n).frm = d.frm := by unfold perf; exact foldl_same (fun d i => by dsimp only; split <;> rfl) _ d
@[simp] theorem perf_deg (d : Dev) (e a n : Nat) : (perf d e a n).deg = d.deg := by unfold perf; exact foldl_same (fun d i => by dsimp only; split <;> rfl) _ d
@[simp] theorem perf_stagger (d : Dev) (e a n : Nat) : (perf d e a n).stagger = d.stagger := by unfold perf; exact foldl_same (fun d i => by dsimp only; split <;> rfl) _ d
@[simp] theorem perf_tti (d : Dev) (e a n : Nat) : (perf d e a n).tti = d.tti := by unfold perf; exact foldl_same (fun d i => by dsimp only; split <;> rfl) _ d
@[simp] theorem perf_mdcaK (d : Dev) (e a n : Nat) : (perf d e a n).mdcaK = d.mdcaK := by unfold perf; exact foldl_same (fun d i => by dsimp only; split <;> rfl) _ d
@[simp] theorem perf_cli (d : Dev) (e a n : Nat) : (perf d e a n).cli = d.cli := by unfold perf; exact foldl_same (fun d i => by dsimp only; split <;> rfl) _ d
@[simp] theorem perf_hif (d : Dev) (e a n : Nat) : (perf d e a n).hif = d.hif := by unfold perf; exact foldl_same (fun d i => by dsimp only; split <;> rfl) _ d
@[simp] theorem perf_dma (d : Dev) (e a n : Nat) : (perf d e a n).dma = d.dma := by unfold perf; exact foldl_same (fun d i => by dsimp only; split <;> rfl) _ d
@[simp] theorem perf_ctl (d : Dev) (e a n : Nat) : (perf d e a n).ctl = d.ctl := by unfold perf; exact foldl_same (fun d i => by dsimp only; split <;> rfl) _ d
@[simp] theorem perf_tim (d : Dev) (e a n : Nat) : (perf d e a n).tim = d.tim := by unfold perf; exact foldl_same (fun d i => by dsimp only; split <;> rfl) _ d
@[simp] theorem perf_chans (d : Dev) (e a n : Nat) : (perf d e a n).chans = d.chans := by unfold perf; exact foldl_same (fun d i => by dsimp only; split <;> rfl) _ d
@[simp] theorem perf_sec (d : Dev) (e a n : Nat) : (perf d e a n).sec = d.sec := by unfold perf; exact foldl_same (fun d i => by dsimp only; split <;> rfl) _ d
@[simp] theorem perf_twin (d : Dev) (e a n : Nat) : (perf d e a n).twin = d.twin := by unfold perf; exact foldl_same (fun d i => by dsimp only; split <;> rfl) _ d
@[simp] theorem perf_pwr (d : Dev) (e a n : Nat) : (perf d e a n).pwr = d.pwr := by unfold perf; exact foldl_same (fun d i => by dsimp only; split <;> rfl) _ d

@[simp] theorem sendMsi_free (d : Dev) (v : Nat) : (sendMsi d v).free = d.free := by unfold sendMsi; split <;> simp
@[simp] theorem sendMsi_sw (d : Dev) (v : Nat) : (sendMsi d v).sw = d.sw := by unfold sendMsi; split <;> simp
@[simp] theorem sendMsi_tilth (d : Dev) (v : Nat) : (sendMsi d v).tilth = d.tilth := by unfold sendMsi; split <;> simp
@[simp] theorem sendMsi_prot (d : Dev) (v : Nat) : (sendMsi d v).prot = d.prot := by unfold sendMsi; split <;> simp
@[simp] theorem sendMsi_lanes (d : Dev) (v : Nat) : (sendMsi d v).lanes = d.lanes := by unfold sendMsi; split <;> simp
@[simp] theorem sendMsi_frm (d : Dev) (v : Nat) : (sendMsi d v).frm = d.frm := by unfold sendMsi; split <;> simp
@[simp] theorem sendMsi_deg (d : Dev) (v : Nat) : (sendMsi d v).deg = d.deg := by unfold sendMsi; split <;> simp
@[simp] theorem sendMsi_stagger (d : Dev) (v : Nat) : (sendMsi d v).stagger = d.stagger := by unfold sendMsi; split <;> simp
@[simp] theorem sendMsi_tti (d : Dev) (v : Nat) : (sendMsi d v).tti = d.tti := by unfold sendMsi; split <;> simp
@[simp] theorem sendMsi_mdcaK (d : Dev) (v : Nat) : (sendMsi d v).mdcaK = d.mdcaK := by unfold sendMsi; split <;> simp
@[simp] theorem sendMsi_cli (d : Dev) (v : Nat) : (sendMsi d v).cli = d.cli := by unfold sendMsi; split <;> simp
@[simp] theorem sendMsi_hif (d : Dev) (v : Nat) : (sendMsi d v).hif = d.hif := by unfold sendMsi; split <;> simp
@[simp] theorem sendMsi_dma (d : Dev) (v : Nat) : (sendMsi d v).dma = d.dma := by unfold sendMsi; split <;> simp
@[simp] theorem sendMsi_ctl (d : Dev) (v : Nat) : (sendMsi d v).ctl = d.ctl := by unfold sendMsi; split <;> simp
@[simp] theorem sendMsi_tim (d : Dev) (v : Nat) : (sendMsi d v).tim = d.tim := by unfold sendMsi; split <;> simp
@[simp] theorem sendMsi_chans (d : Dev) (v : Nat) : (sendMsi d v).chans = d.chans := by unfold sendMsi; split <;> simp
@[simp] theorem sendMsi_sec (d : Dev) (v : Nat) : (sendMsi d v).sec = d.sec := by unfold sendMsi; split <;> simp
@[simp] theorem sendMsi_twin (d : Dev) (v : Nat) : (sendMsi d v).twin = d.twin := by unfold sendMsi; split <;> simp
@[simp] theorem sendMsi_pwr (d : Dev) (v : Nat) : (sendMsi d v).pwr = d.pwr := by unfold sendMsi; split <;> simp

@[simp] theorem nmi_free (d : Dev) : (nmi d).free = d.free := by simp [nmi]
@[simp] theorem nmi_sw (d : Dev) : (nmi d).sw = d.sw := by simp [nmi]
@[simp] theorem nmi_tilth (d : Dev) : (nmi d).tilth = d.tilth := by simp [nmi]
@[simp] theorem nmi_prot (d : Dev) : (nmi d).prot = d.prot := by simp [nmi]
@[simp] theorem nmi_lanes (d : Dev) : (nmi d).lanes = d.lanes := by simp [nmi]
@[simp] theorem nmi_frm (d : Dev) : (nmi d).frm = d.frm := by simp [nmi]
@[simp] theorem nmi_deg (d : Dev) : (nmi d).deg = d.deg := by simp [nmi]
@[simp] theorem nmi_stagger (d : Dev) : (nmi d).stagger = d.stagger := by simp [nmi]
@[simp] theorem nmi_tti (d : Dev) : (nmi d).tti = d.tti := by simp [nmi]
@[simp] theorem nmi_mdcaK (d : Dev) : (nmi d).mdcaK = d.mdcaK := by simp [nmi]
@[simp] theorem nmi_cli (d : Dev) : (nmi d).cli = d.cli := by simp [nmi]
@[simp] theorem nmi_dma (d : Dev) : (nmi d).dma = d.dma := by simp [nmi]
@[simp] theorem nmi_ctl (d : Dev) : (nmi d).ctl = d.ctl := by simp [nmi]
@[simp] theorem nmi_tim (d : Dev) : (nmi d).tim = d.tim := by simp [nmi]
@[simp] theorem nmi_chans (d : Dev) : (nmi d).chans = d.chans := by simp [nmi]
@[simp] theorem nmi_sec (d : Dev) : (nmi d).sec = d.sec := by simp [nmi]
@[simp] theorem nmi_twin (d : Dev) : (nmi d).twin = d.twin := by simp [nmi]
@[simp] theorem nmi_pwr (d : Dev) : (nmi d).pwr = d.pwr := by simp [nmi]

@[simp] theorem errMsg_free (d : Dev) : (errMsg d).free = d.free := by simp [errMsg]
@[simp] theorem errMsg_sw (d : Dev) : (errMsg d).sw = d.sw := by simp [errMsg]
@[simp] theorem errMsg_tilth (d : Dev) : (errMsg d).tilth = d.tilth := by simp [errMsg]
@[simp] theorem errMsg_prot (d : Dev) : (errMsg d).prot = d.prot := by simp [errMsg]
@[simp] theorem errMsg_lanes (d : Dev) : (errMsg d).lanes = d.lanes := by simp [errMsg]
@[simp] theorem errMsg_frm (d : Dev) : (errMsg d).frm = d.frm := by simp [errMsg]
@[simp] theorem errMsg_deg (d : Dev) : (errMsg d).deg = d.deg := by simp [errMsg]
@[simp] theorem errMsg_stagger (d : Dev) : (errMsg d).stagger = d.stagger := by simp [errMsg]
@[simp] theorem errMsg_tti (d : Dev) : (errMsg d).tti = d.tti := by simp [errMsg]
@[simp] theorem errMsg_mdcaK (d : Dev) : (errMsg d).mdcaK = d.mdcaK := by simp [errMsg]
@[simp] theorem errMsg_cli (d : Dev) : (errMsg d).cli = d.cli := by simp [errMsg]
@[simp] theorem errMsg_hif (d : Dev) : (errMsg d).hif = d.hif := by simp [errMsg]
@[simp] theorem errMsg_dma (d : Dev) : (errMsg d).dma = d.dma := by simp [errMsg]
@[simp] theorem errMsg_ctl (d : Dev) : (errMsg d).ctl = d.ctl := by simp [errMsg]
@[simp] theorem errMsg_tim (d : Dev) : (errMsg d).tim = d.tim := by simp [errMsg]
@[simp] theorem errMsg_chans (d : Dev) : (errMsg d).chans = d.chans := by simp [errMsg]
@[simp] theorem errMsg_sec (d : Dev) : (errMsg d).sec = d.sec := by simp [errMsg]
@[simp] theorem errMsg_twin (d : Dev) : (errMsg d).twin = d.twin := by simp [errMsg]
@[simp] theorem errMsg_pwr (d : Dev) : (errMsg d).pwr = d.pwr := by simp [errMsg]

@[simp] theorem onTilth_tilth (d : Dev) (f : Tilth → Tilth) : (onTilth d f).tilth = f d.tilth := rfl
@[simp] theorem onPwr_pwr (d : Dev) (f : Pwr → Pwr) : (onPwr d f).pwr = f d.pwr := rfl
@[simp] theorem emit_out (d : Dev) (o : Out) : (emit d o).out = d.out ++ [o] := rfl
@[simp] theorem freed_free (d : Dev) : (freed d).free = d.free + 1 := rfl
@[simp] theorem wrWord_regs (d : Dev) (a : Nat) (w : W32) : (wrWord d a w).regs = tins d.regs a w := rfl

end Sys2Proof.Machine
end

