-- ==== Sys2Proof/Laws/Regs.lean ====
section
/-! SUPPORT. The laws of register fields: a field read after it is written, and what a write leaves of every other field. -/

namespace Sys2Proof.Machine

@[simp] theorem rdWord_wrWord_same (d : Dev) (a : Nat) (w : W32) : rdWord (wrWord d a w) a = w := by
  simp [rdWord]

theorem rdWord_wrWord_ne (d : Dev) {a b : Nat} (w : W32) (h : b ≠ a) : rdWord (wrWord d a w) b = rdWord d b := by
  simp [rdWord, tfind_tins_ne _ _ h]

/-- Two devices with the same registers read alike. -/
theorem rdWord_congr {a b : Dev} (h : a.regs = b.regs) (x : Nat) : rdWord a x = rdWord b x := by simp [rdWord, h]
theorem rd_congr {a b : Dev} (h : a.regs = b.regs) (f : Fld) (i : Nat) : rd a f i = rd b f i := by simp [rd, rdWord_congr h]

theorem testBit_getBits (w : W32) (lo wd i : Nat) :
    (getBits w lo wd).testBit i = (decide (i < wd) && w.getLsbD (lo + i)) := by
  simp only [getBits, Nat.testBit_mod_two_pow, Nat.testBit_shiftRight, BitVec.getLsbD]

theorem getLsbD_putBits (w : W32) (lo wd v i : Nat) :
    (putBits w lo wd v).getLsbD i =
      (decide (i < 32) && if lo ≤ i ∧ i < lo + wd then v.testBit (i - lo) else w.getLsbD i) := by
  simp only [putBits, BitVec.getLsbD_or, BitVec.getLsbD_and, BitVec.getLsbD_not, BitVec.getLsbD_shiftLeft,
    BitVec.getLsbD_ofNat, Nat.testBit_two_pow_sub_one, Nat.testBit_mod_two_pow]
  by_cases h32 : i < 32
  · by_cases h1 : i < lo
    · simp [h32, h1, show ¬ (lo ≤ i ∧ i < lo + wd) by omega]
    · by_cases h2 : i - lo < wd
      · simp [h32, h1, h2, show lo ≤ i ∧ i < lo + wd by omega, show i - lo < 32 by omega]
      · simp [h32, h1, h2, show ¬ (lo ≤ i ∧ i < lo + wd) by omega]
  · simp [h32, BitVec.getLsbD_of_ge w i (by omega)]

@[simp] theorem getBits_putBits_same (w : W32) (lo wd v : Nat) (h : lo + wd ≤ 32) :
    getBits (putBits w lo wd v) lo wd = v % 2 ^ wd := by
  apply Nat.eq_of_testBit_eq
  intro i
  rw [testBit_getBits, getLsbD_putBits, Nat.testBit_mod_two_pow]
  by_cases hi : i < wd
  · simp [hi, show lo + i < 32 by omega]
  · simp [hi]

theorem getBits_putBits_disjoint (w : W32) (lo wd v lo' wd' : Nat) (h : lo' + wd' ≤ lo ∨ lo + wd ≤ lo') :
    getBits (putBits w lo wd v) lo' wd' = getBits w lo' wd' := by
  apply Nat.eq_of_testBit_eq
  intro i
  rw [testBit_getBits, testBit_getBits, getLsbD_putBits]
  by_cases hi : i < wd'
  · have hn : ¬ (lo ≤ lo' + i ∧ lo' + i < lo + wd) := by omega
    simp only [hn, if_false]
    by_cases h32 : lo' + i < 32
    · simp [h32]
    · simp [h32, BitVec.getLsbD_of_ge w (lo' + i) (by omega)]
  · simp [hi]

/-- A field reads as written. -/
theorem rd_wr_same (d : Dev) (f : Fld) (i v : Nat) (h : f.lo + f.wd ≤ 32) : rd (wr d f i v) f i = v % 2 ^ f.wd := by
  simp [rd, wr, h]

/-- A field of another word is unchanged. -/
theorem rd_wr_addr (d : Dev) (f g : Fld) (i j v : Nat) (h : g.addr j ≠ f.addr i) : rd (wr d f i v) g j = rd d g j := by
  simp [rd, wr, rdWord_wrWord_ne _ _ h]

/-- Another field of any word is unchanged if it shares no bit. -/
theorem rd_wr_bits (d : Dev) (f g : Fld) (i j v : Nat) (h : g.lo + g.wd ≤ f.lo ∨ f.lo + f.wd ≤ g.lo) :
    rd (wr d f i v) g j = rd d g j := by
  by_cases ha : g.addr j = f.addr i
  · simp only [rd, wr, ha, rdWord_wrWord_same, getBits_putBits_disjoint _ _ _ _ _ _ h]
  · exact rd_wr_addr d f g i j v ha

theorem getBits_lt (w : W32) (lo wd : Nat) : getBits w lo wd < 2 ^ wd := Nat.mod_lt _ (Nat.two_pow_pos _)
theorem rd_lt (d : Dev) (f : Fld) (i : Nat) : rd d f i < 2 ^ f.wd := getBits_lt _ _ _

/-- The words a write leaves as they were. -/
theorem rdWord_wr_ne (d : Dev) (f : Fld) (i v x : Nat) (h : x ≠ f.addr i) : rdWord (wr d f i v) x = rdWord d x :=
  rdWord_wrWord_ne _ _ h

@[simp] theorem rd_raise (d : Dev) (e : Ev) (f : Fld) (i : Nat) : rd (raise d e) f i = rd d f i := rfl
@[simp] theorem rd_emit (d : Dev) (o : Out) (f : Fld) (i : Nat) : rd (emit d o) f i = rd d f i := rfl
@[simp] theorem rd_freed (d : Dev) (f : Fld) (i : Nat) : rd (freed d) f i = rd d f i := rfl
@[simp] theorem rd_modRing (d : Dev) (r : Nat) (g : Ring → Ring) (f : Fld) (i : Nat) : rd (modRing d r g) f i = rd d f i := rfl
@[simp] theorem rd_onTilth (d : Dev) (g : Tilth → Tilth) (f : Fld) (i : Nat) : rd (onTilth d g) f i = rd d f i := rfl
@[simp] theorem rd_onPwr (d : Dev) (g : Pwr → Pwr) (f : Fld) (i : Nat) : rd (onPwr d g) f i = rd d f i := rfl
@[simp] theorem rd_finish (d : Dev) (r u st det : Nat) (sn : SN) (res : BitVec 64) (f : Fld) (i : Nat) :
    rd (finish d r u st det sn res) f i = rd d f i := rfl
@[simp] theorem rd_take (d : Dev) (r u : Nat) (f : Fld) (i : Nat) : rd (take d r u) f i = rd d f i := rfl
@[simp] theorem rd_perf (d : Dev) (e a n : Nat) (f : Fld) (i : Nat) : rd (perf d e a n) f i = rd d f i :=
  rd_congr (perf_regs d e a n) f i

end Sys2Proof.Machine
end

