-- ==== Sys2Proof/Laws/Rings.lean ====
section
/-! SUPPORT. What the shared operations on rings, events and the wires do, each said once in the terms of Safety: a
served or taken descriptor, a raised event, a datum sent; and which parts and registers a register write reaches. -/

namespace Sys2Proof.Machine

@[simp] theorem ringOf_modRing_same (d : Dev) (r : Nat) (f : Ring → Ring) : ringOf (modRing d r f) r = f (ringOf d r) :=
  tget_tput_same _ _ _ _

theorem ringOf_modRing_ne (d : Dev) {r x : Nat} (f : Ring → Ring) (h : x ≠ r) : ringOf (modRing d r f) x = ringOf d x :=
  tget_tput_ne _ _ _ h

theorem setPh_q (d : Dev) (r uid : Nat) (p : QPhase) :
    (ringOf (setPh d r uid p) r).q = (ringOf d r).q.map fun e => if e.uid = uid then { e with ph := p } else e :=
  congrArg Ring.q (ringOf_modRing_same d r _)

theorem setPh_q_ne (d : Dev) {r x : Nat} (uid : Nat) (p : QPhase) (h : x ≠ r) : ringOf (setPh d r uid p) x = ringOf d x :=
  ringOf_modRing_ne d _ h

/-- What completing a descriptor does to the rings. -/
theorem served_finish (d : Dev) (r uid st det : Nat) (sn : SN) (res : BitVec 64) :
    Served d (finish d r uid st det sn res) r uid st det sn res :=
  ⟨⟨_, setPh_q d r uid _⟩, fun _ h => congrArg Ring.q (setPh_q_ne d uid _ h)⟩

theorem served_badDesc (d : Dev) (r uid : Nat) (sn : SN) (p : Prob) :
    Served d (badDesc d r uid sn p) r uid stBadDesc (probDetail p) sn 0 :=
  served_finish d r uid _ _ sn 0

/-- What taking a descriptor up does to the rings. -/
theorem taken_take (d : Dev) (r uid : Nat) : Taken d (take d r uid) r uid :=
  ⟨setPh_q d r uid _, fun _ h => congrArg Ring.q (setPh_q_ne d uid _ h)⟩

/-- Neither changes anything but the rings. -/
theorem only_finish (d : Dev) (r uid st det : Nat) (sn : SN) (res : BitVec 64) : Only [.hif] d (finish d r uid st det sn res) := by
  intro p hp; cases p <;> first | rfl | simp at hp
theorem only_take (d : Dev) (r uid : Nat) : Only [.hif] d (take d r uid) := by
  intro p hp; cases p <;> first | rfl | simp at hp

/-- An event raised is the one event raised; nothing else of the device changes. -/
theorem raised_raise (d : Dev) (e : Ev) : Raised d (raise d e) [e] := rfl
theorem only_raise (d : Dev) (e : Ev) : Only [.hif] d (raise d e) := by
  intro p hp; cases p <;> first | rfl | simp at hp

theorem raised_nil (d : Dev) : Raised d d [] := by simp [Raised]

/-- Events raised one after the other. -/
theorem Raised.trans {a b c : Dev} {x y : List Ev} (h : Raised a b x) (k : Raised b c y) (hr : b.twin.role = a.twin.role) :
    Raised a c (x ++ y) := by
  simp only [Raised] at *; simp [k, h, hr, List.append_assoc]

/-- What leaves the device, one after the other. -/
theorem sent_emit (d : Dev) (o : Out) : Sent d (emit d o) [o] := rfl
theorem Sent.trans {a b c : Dev} {x y : List Out} (h : Sent a b x) (k : Sent b c y) : Sent a c (x ++ y) := by
  simp only [Sent] at *; simp [k, h, List.append_assoc]

/-- A register write changes one word of the registers and no other part. -/
theorem only_wr (d : Dev) (f : Fld) (i v : Nat) : Only [.regs] d (wr d f i v) := by
  intro p hp; cases p <;> first | rfl | simp at hp
theorem onlyRegs_wr (d : Dev) (f : Fld) (i v : Nat) : OnlyRegs [f.addr i] d (wr d f i v) := by
  intro x hx; exact rdWord_wr_ne d f i v x (by simpa using hx)

theorem Part.same_refl (p : Part) (a : Dev) : p.same a a := by cases p <;> rfl
theorem Part.same_trans {p : Part} {a b c : Dev} (h : p.same a b) (k : p.same b c) : p.same a c := by
  cases p <;> exact k.trans h

/-- Changes one after the other: the frame is the union. -/
theorem Only.refl (ps : List Part) (a : Dev) : Only ps a a := fun p _ => p.same_refl a
theorem Only.trans {ps qs : List Part} {a b c : Dev} (h : Only ps a b) (k : Only qs b c) : Only (ps ++ qs) a c := fun p hp =>
  Part.same_trans (h p fun x => hp (List.mem_append_left _ x)) (k p fun x => hp (List.mem_append_right _ x))
theorem Only.mono {ps qs : List Part} {a b : Dev} (h : Only ps a b) (hs : ps ⊆ qs) : Only qs a b := fun p hp => h p fun x => hp (hs x)

theorem OnlyRegs.refl (as : List Nat) (a : Dev) : OnlyRegs as a a := fun _ _ => rfl
theorem OnlyRegs.trans {as bs : List Nat} {a b c : Dev} (h : OnlyRegs as a b) (k : OnlyRegs bs b c) : OnlyRegs (as ++ bs) a c := fun x hx =>
  (k x fun y => hx (List.mem_append_right _ y)).trans (h x fun y => hx (List.mem_append_left _ y))
theorem OnlyRegs.mono {as bs : List Nat} {a b : Dev} (h : OnlyRegs as a b) (hs : as ⊆ bs) : OnlyRegs bs a b := fun x hx =>
  h x fun y => hx (hs y)
theorem onlyRegs_of_eq {a b : Dev} (as : List Nat) (h : b.regs = a.regs) : OnlyRegs as a b := fun x _ => rdWord_congr h x

theorem DevOnly.refl (s : State) : DevOnly s s := ⟨rfl, rfl, rfl, rfl, rfl⟩
theorem devOnly_dev (s : State) (d : Dev) : DevOnly s { s with dev := d } := ⟨rfl, rfl, rfl, rfl, rfl⟩

/-- A command of the core domain acts on the device alone, and only while the core runs. -/
theorem core_next (s : State) (f : Dev → Dev) (h : s.dev.pwr.core = true) : core s f = .next { s with dev := f s.dev } := by
  simp [core, onDev, h]

end Sys2Proof.Machine
end

