-- ==== Sys2Proof/Laws/Scratch.lean ====
section
/-! SUPPORT. Every operation over the scratchpad keeps its canonical form, and reads what was written. -/

namespace Sys2Proof.Machine

/-- The scratchpad's memory is canonical and within the window. -/
abbrev Scratch.ok (p : Scratch) : Prop := Memory.wf p.mem = true

theorem reset_scratch_ok : State.reset.sp.ok := by decide

theorem mem_tdel {α : Type} {m : Tbl α} {q : Nat} {e : Nat × α} (h : e ∈ tdel m q) : e ∈ m := by
  induction m with
  | nil => exact h
  | cons x r ih =>
    obtain ⟨k, v⟩ := x
    simp only [tdel] at h
    split at h
    · exact List.mem_cons_of_mem _ (ih h)
    · rcases List.mem_cons.1 h with rfl | h
      · exact List.mem_cons_self
      · exact List.mem_cons_of_mem _ (ih h)

theorem mem_tins {α : Type} {m : Tbl α} {q : Nat} {v : α} {e : Nat × α} (h : e ∈ tins m q v) : e = (q, v) ∨ e ∈ m := by
  induction m with
  | nil => simpa [tins] using h
  | cons x r ih =>
    obtain ⟨k, w⟩ := x
    simp only [tins] at h
    split at h
    · simpa using h
    · split at h
      · rcases List.mem_cons.1 h with h | h
        · exact .inl h
        · exact .inr (List.mem_cons_of_mem _ h)
      · rcases List.mem_cons.1 h with h | h
        · exact .inr (h ▸ List.mem_cons_self)
        · exact (ih h).imp id (List.mem_cons_of_mem _)

/-- A byte write inside the window. -/
theorem spPut_ok {p : Scratch} {a : Nat} (b : BitVec 8) (h : p.ok) (ha : a < 2 ^ 22) : (spPut p a b).ok := by
  simp only [Scratch.ok, Memory.wf, Bool.and_eq_true, List.all_eq_true, decide_eq_true_eq] at h ⊢
  refine ⟨twf_tput a b h.1, fun e he => ?_⟩
  simp only [spPut, tput] at he
  split at he
  · exact h.2 e (mem_tdel he)
  · rcases mem_tins he with rfl | he
    · exact ha
    · exact h.2 e he

/-- A fold of operations that each keep the form keeps it. -/
theorem foldl_ok {β : Type} {f : Scratch → β → Scratch} {l : List β} {p : Scratch} (h : p.ok)
    (hf : ∀ q x, x ∈ l → q.ok → (f q x).ok) : (l.foldl f p).ok := by
  induction l generalizing p with
  | nil => exact h
  | cons x l ih =>
    exact ih (hf p x List.mem_cons_self h) fun q y hy => hf q y (List.mem_cons_of_mem _ hy)

theorem spPutWord_ok {p : Scratch} {w : Nat} (v : BitVec 64) (h : p.ok) (hw : 8 * w + 7 < 2 ^ 22) : (spPutWord p w v).ok := by
  refine foldl_ok (p := { p with bad := p.bad.filter (· != w) }) h fun q k hk hq => spPut_ok _ hq ?_
  have := List.mem_range.1 hk
  omega

theorem spEcc_sp_mem (ecc : List (Nat × Bool)) (ws : List Nat) (s : State) : (spEcc ecc ws s).sp.mem = s.sp.mem := rfl

/-- A staged image of at most 1 MiB lies in the window. -/
theorem stageImg_ok {p : Scratch} {img : List (BitVec 8)} (h : p.ok) (hl : img.length ≤ 0x100000) : (stageImg img p).ok := by
  unfold stageImg
  refine foldl_ok (f := fun p (x : BitVec 8 × Nat) => spPut p (0x200000 + x.2) x.1) h fun q x hx hq => spPut_ok _ hq ?_
  obtain ⟨b, i⟩ := x
  have := List.snd_lt_of_mem_zipIdx hx
  simp at this
  omega

/-- Releasing semaphores writes words of the firmware region only. -/
theorem releaseSems_ok {p : Scratch} (codes : List (BitVec 64)) (h : p.ok) : (releaseSems codes p).ok := by
  unfold releaseSems
  refine foldl_ok h fun q w hw hq => ?_
  split
  · refine spPutWord_ok 0 hq ?_
    rw [List.mem_dedup, List.mem_map] at hw
    obtain ⟨c, hc, rfl⟩ := hw
    have := (List.mem_filter.1 hc).2
    simp only [decide_eq_true_eq] at this
    omega
  · exact hq

/-- Bytes stored in a word of the window. -/
theorem spStore_ok {port : Nat} {bs : List (Option (BitVec 8))} {s : State} {w : Nat} (h : s.sp.ok) (hl : bs.length = 8)
    (hw : 8 * w + 7 < 2 ^ 22) : (spStore port bs s w).sp.ok := by
  unfold spStore
  have key : ∀ x ∈ bs.zipIdx, 8 * w + x.2 < 2 ^ 22 := by
    rintro ⟨b, i⟩ hx
    have := List.snd_lt_of_mem_zipIdx hx
    omega
  split
  · exact foldl_ok (p := { s.sp with bad := s.sp.bad.filter (· != w) }) h fun q x hx hq => spPut_ok _ hq (key x hx)
  · split
    · exact h
    · refine foldl_ok h fun q x hx hq => ?_
      split
      · exact spPut_ok _ hq (key x hx)
      · exact hq

/-- An atomic operation on a word of the window. -/
theorem spAtomic_ok {port : Nat} {f : BitVec 64 → BitVec 64} {s : State} {w : Nat} (h : s.sp.ok) (hw : 8 * w + 7 < 2 ^ 22) :
    (spAtomic port f s w).sp.ok := by
  unfold spAtomic
  split
  · exact h
  · exact spPutWord_ok _ h hw

/-- Accesses of port C to a word of the window. -/
theorem portC_ok {s : State} {x : PortC} (h : s.sp.ok) (hw : 8 * x.word + 7 < 2 ^ 22) : (portC s x).sp.ok := by
  unfold portC
  split
  · split <;> exact h
  · exact spStore_ok h (by simp) hw
  · exact spAtomic_ok h hw
  · exact spAtomic_ok h hw

theorem portCs_ok {l : List PortC} {s : State} (h : s.sp.ok) (hl : ∀ x ∈ l, 8 * x.word + 7 < 2 ^ 22) : (l.foldl portC s).sp.ok := by
  induction l generalizing s with
  | nil => exact h
  | cons x l ih => exact ih (portC_ok h (hl x List.mem_cons_self)) fun y hy => hl y (List.mem_cons_of_mem _ hy)

/-- One word of a BAR2 write that lies in the window. -/
theorem spWriteWord_ok {off : Nat} {data : List (Option (BitVec 8))} {pc : List PortC} {s : State} {w : Nat} (h : s.sp.ok)
    (hw : 8 * w + 7 < 2 ^ 22) : (spWriteWord off data pc s w).sp.ok := by
  unfold spWriteWord
  dsimp only
  have hc : (spStore 1 (spBytes off data w) (((pc.filter (·.word == w)).takeWhile fun x => !plainC x).foldl portC s) w).sp.ok := by
    refine spStore_ok (portCs_ok h fun x hx => ?_) (by simp [spBytes]) hw
    have := (List.mem_filter.1 ((List.takeWhile_sublist _).subset hx)).2
    simp only [beq_iff_eq] at this
    omega
  split
  · exact h
  · split
    · exact hc
    · exact hc

/-- The words that bytes inside the window touch lie in the window. -/
theorem spWords_bound {a n w : Nat} (h : a + n ≤ 2 ^ 22) (hw : w ∈ spWords a n) : 8 * w + 7 < 2 ^ 22 := by
  obtain ⟨k, hk, rfl⟩ := List.mem_map.1 hw
  have := List.mem_range.1 hk
  omega

/-- A BAR2 write inside the window. -/
theorem bar2Write_ok {off : Nat} {data : List (Option (BitVec 8))} {pc : List PortC} {ecc : List (Nat × Bool)} {s : State}
    (h : s.sp.ok) (hb : off + data.length ≤ 2 ^ 22) : (bar2Write off data pc ecc s).sp.ok := by
  unfold bar2Write
  dsimp only
  generalize hs : ({ spEcc ecc (spMerged s.dev off data) s with dev := _ } : State) = s0
  have h0 : s0.sp.ok := by rw [← hs]; exact h
  have : ∀ (l : List Nat) (s : State), s.sp.ok → (∀ w ∈ l, 8 * w + 7 < 2 ^ 22) → (l.foldl (spWriteWord off data pc) s).sp.ok := by
    intro l
    induction l with
    | nil => intro s h _; exact h
    | cons w l ih =>
      intro s h hl
      exact ih _ (spWriteWord_ok h (hl w List.mem_cons_self)) fun v hv => hl v (List.mem_cons_of_mem _ hv)
  exact this _ _ h0 fun w hw => spWords_bound hb hw

/-- A BAR2 read inside the window. -/
theorem bar2Read_ok {off n : Nat} {pc : List PortC} {ecc : List (Nat × Bool)} {s : State} (h : s.sp.ok) (hb : off + n ≤ 2 ^ 22) :
    (bar2Read off n pc ecc s).sp.ok := by
  refine portCs_ok (s := spEcc ecc (spWords off n) s) h fun x hx => spWords_bound hb ?_
  simpa using (List.mem_filter.1 hx).2

/-- An AtomicOp on an aligned word of the window. -/
theorem bar2Atomic_ok {off : Nat} {f : BitVec 64 → BitVec 64} {pc : List PortC} {ecc : List (Nat × Bool)} {s : State}
    (h : s.sp.ok) (hb : off < 2 ^ 22) : (bar2Atomic off f pc ecc s).sp.ok := by
  unfold bar2Atomic
  dsimp only
  split
  · exact h
  · split
    · exact h
    · refine spAtomic_ok (s := (pc.filter _).foldl portC (spEcc ecc [off / 8] s)) (portCs_ok h fun x hx => ?_) (by omega)
      have := (List.mem_filter.1 hx).2
      simp only [beq_iff_eq] at this
      omega

end Sys2Proof.Machine
end

