-- ==== Sys2Proof/WellFormed.lean ====
section
/-! DEFINITION. Which operands a command can carry: the lengths and ranges the manual gives them. -/

namespace Sys2Proof

/-- Keys strictly rising. -/
def rising {α : Type} : List (Nat × α) → Bool
  | [] => true
  | (a, _) :: r => (match r with | [] => true | (b, _) :: _ => decide (a < b)) && rising r

/-- A page of one port: its listed positions rise and lie below 2048 (R36). -/
def Page.wf (p : Page) : Bool := rising p.ovr && p.ovr.all fun e => decide (e.1 < 2048)

/-- A received sweep: at most 64 overhead words (R54) and a page. -/
def RxSweep.wf (r : RxSweep) : Bool := decide (r.oh.length ≤ 64) && r.grains.wf

/-- A lane's sweep as received: words as above, or the levels of a line that runs. -/
def RxIn.wf : RxIn → Bool
  | .words r => r.wf
  | .line _ x => !x.isEmpty

/-- A FlexE overhead frame: calendars of one length (R151). -/
def FlxOh.wf (o : FlxOh) : Bool := decide (o.calA.length = o.calB.length)

/-- A plane's measurement: its beats name egress ports and center slots of the device (R185, R208). -/
def PlaneIn.wf (p : PlaneIn) : Bool :=
  (p.late.all fun l => decide (l.1 < 132 ∧ l.2 < 4096)) && p.cyc.all fun l => decide (l.1 < 132 ∧ l.2.1 < 4096)

/-- A matrix cycle: a master issues at most one transaction in it. -/
def MtxIn.wf (m : MtxIn) : Bool := (m.issue.map (·.m)).dedup.length == m.issue.length

/-- The operands of a sweep tick. -/
def TickIn.wf (t : TickIn) : Bool :=
  t.planes.all PlaneIn.wf && (t.twl.all fun l => l.2.2.wf) && (t.mtx.all MtxIn.wf) &&
    t.track.all fun k => decide (k.ffe.length ≤ 32)

/-- The command is one the manual knows. -/
def Instr.wf : Instr → Bool
  | .sweepTick t => t.wf
  | .receivedSweep _ r _ => r.wf
  | .rawMatch _ _ r => r.wf
  | .candidateCheck _ _ r _ _ => r.wf
  | .flexeOverheadFrame _ o => o.wf
  | .bar2Read _ n _ _ => decide (1 ≤ n)
  | .bar2Write _ d _ => decide (1 ≤ d.length)
  | .registerRead _ _ n => decide (1 ≤ n)
  | .doorbell _ n _ => decide (1 ≤ n)
  | .commit q _ => decide (q < 2 ^ 32)
  | .ack a b => decide (a < 2 ^ 32 ∧ b < 2 ^ 32)
  | .adaptationComplete _ _ _ _ f _ => decide (f.length ≤ 32)
  | .read _ _ n => decide (1 ≤ n ∧ n ≤ 8)
  | .ppsIn ns => decide (ns < 1639)
  | .pmbusTelemetry l => decide (l.length ≤ 6)
  | _ => true

end Sys2Proof
end

