-- ==== Sys2Proof/Tests/Slice0.lean ====
section
/-! SUPPORT. Tests: ill-formed operands that WellFormed refuses, worked examples of the manual, and for every statement with
hypotheses a state and operands that meet them, its clauses at boundary values. -/

set_option Elab.async false

namespace Sys2Proof.Tests

open Sys2Proof Sys2Proof.Machine

/-! ### WellFormed refuses -/

theorem test_wf_late_port : (Instr.sweepTick { planes := [{ plane := 0, slack := 0, late := [(132, 0)] }] }).wf = false := by decide
theorem test_wf_late_slot : (Instr.sweepTick { planes := [{ plane := 0, slack := 0, late := [(131, 4096)] }] }).wf = false := by decide
theorem test_wf_cyc : (Instr.sweepTick { planes := [{ plane := 0, slack := 0, cyc := [(132, 0, 0)] }] }).wf = false := by decide
theorem test_wf_matrix : (Instr.sweepTick { mtx := [{ issue := [{ m := 1, addr := 0 }, { m := 1, addr := 8 }] }] }).wf = false := by decide
theorem test_wf_track :
    (Instr.sweepTick { track := [{ lane := 0, snr := 0, ctle := 0, dfe := 0, ffe := List.replicate 33 0 }] }).wf = false := by decide
theorem test_wf_twin_lane : (Instr.sweepTick { twl := [(0, 0, .line 0 [])] }).wf = false := by decide
theorem test_wf_overhead_words : (Instr.receivedSweep 0 (.words { oh := List.replicate 65 (0, true) }) 0).wf = false := by decide
theorem test_wf_line : (Instr.receivedSweep 0 (.line 0 []) 0).wf = false := by decide
theorem test_wf_page_order :
    (Instr.rawMatch 0 0 (.words { oh := [], grains := { ovr := [(5, 1), (5, 2)] } })).wf = false := by decide
theorem test_wf_page_position :
    (Instr.candidateCheck 0 0 (.words { oh := [], grains := { ovr := [(2048, 1)] } }) () 0).wf = false := by decide
theorem test_wf_calendars :
    (Instr.flexeOverheadFrame 0 ⟨0, 0, 0, [], false, false, false, [1], [], 0⟩).wf = false := by decide
theorem test_wf_bar2_read : (Instr.bar2Read 0 0 [] []).wf = false := by decide
theorem test_wf_bar2_write : (Instr.bar2Write 0 [] ⟨[], []⟩).wf = false := by decide
theorem test_wf_register_read : (Instr.registerRead .host 0 0).wf = false := by decide
theorem test_wf_doorbell : (Instr.doorbell 0 0 0).wf = false := by decide
theorem test_wf_commit : (Instr.commit (2 ^ 32) 0).wf = false := by decide
theorem test_wf_ack : (Instr.ack 0 (2 ^ 32)).wf = false := by decide
theorem test_wf_taps : (Instr.adaptationComplete 0 0 0 0 (List.replicate 33 0) 0).wf = false := by decide
theorem test_wf_smbus_read : (Instr.read true 0 0).wf = false ∧ (Instr.read true 0 9).wf = false := by decide
theorem test_wf_pps : (Instr.ppsIn 1639).wf = false ∧ (Instr.ppsIn 1638).wf = true := by decide
theorem test_wf_rails : (Instr.pmbusTelemetry (List.replicate 7 (none, none, none))).wf = false := by decide

/-! ### Worked examples of the manual -/

/-- Chapter 0: T = 0x0000_0005 is 21 sweeps after 0xFFFF_FFF0. -/
theorem test_sn_future : snFuture 5 0xFFFFFFF0 = true ∧ snAge 0xFFFFFFF0 5 = 21 := by decide
/-- Chapter 2: TID 0x1025 with FILL = 2, MI = 0 and TYPE = 0b010 sends the JW 0x0_222C. -/
theorem test_jw : jwMake 2 false 2 0x1025 = 0x0222C := by decide +kernel
/-- Chapter 10: HOLD_OFF = 50 ms is 30,518 sweeps, and WTR = 300 s is 183,105,469. -/
theorem test_hold_off : holdOffSweeps 50 = 30518 ∧ wtrSweeps 300 = 183105469 := by decide +kernel
/-- FIPS 180-4: SHA-256 of the three bytes "abc" begins BA 78 16 BF. -/
theorem test_sha256 : (sha256 [0x61, 0x62, 0x63]).take 4 = [0xBA, 0x78, 0x16, 0xBF] := by decide +kernel
/-- FIPS 180-4: SHA-384 of "abc" begins CB 00 75 3F. -/
theorem test_sha384 : (sha384 [0x61, 0x62, 0x63]).take 4 = [0xCB, 0x00, 0x75, 0x3F] := by decide +kernel

/-! ### The block -/

theorem wit_StepRunsFrontCommand : step { State.reset with pending := [.glbSetupLock, .perfSnap] } = exec .glbSetupLock { State.reset with pending := [.perfSnap] } := rfl
theorem wit_StepConsumesOrIdles : (∃ t, step { State.reset with pending := [.perfSnap] } = .next t) ∧ State.reset.pending = [] := ⟨⟨_, rfl⟩, rfl⟩

/-! ### States -/

/-- Writes registers in order. -/
def wrs (d : Dev) (ws : List (Fld × Nat × Nat)) : Dev := ws.foldl (fun d w => wr d w.1 w.2.1 w.2.2) d
/-- The reset state with registers written. -/
def mk (ws : List (Fld × Nat × Nat)) : State := { State.reset with dev := wrs State.reset.dev ws }

/-! Lane ports -/

/-- Lane 0 with a personality of 64 grain-groups less (0x4), quad 0 of group A. -/
def wL (ws : List (Fld × Nat × Nat)) : State := mk ((F.LNE_CFG_PERS, 0, 4) :: ws)

theorem wit_TransmittersAndPllsStart_txEn :
    (let s := wL []; s.dev.pwr.core = true ∧ rd s.dev F.LNE_CTL_TX_EN 0 = 0 ∧ isClient (persOf s.dev 0) = false ∧
      persBad s.dev 0 = false ∧ rd s.dev F.LNE_QUAD_STATUS_PWR 0 = 0) ∧
    (let s := wL [(F.LNE_QUAD_STATUS_PWR, 0, 3), (F.LNE_QUAD_STATUS_PLL_LOCK, 0, 1)];
      rd s.dev F.LNE_CTL_TX_EN 0 = 0 ∧ persBad s.dev 0 = false ∧ rd s.dev F.LNE_QUAD_STATUS_PWR 0 ≠ 0 ∧ quadUp s.dev 0 = true) ∧
    (let s := mk [(F.LNE_CFG_PERS, 127, 0xC)]; rd s.dev F.LNE_CTL_TX_EN 127 = 0 ∧ isClient (persOf s.dev 127) = false ∧ persBad s.dev 127 = true) ∧
    (let s := mk [(F.LNE_CFG_PERS, 0, 5)]; isClient (persOf s.dev 0) = true ∧ modeGood s.dev 0 = true ∧ persBad s.dev 0 = false) ∧
    (let s := wL [(F.LNE_CTL_TX_EN, 0, 1), (F.LNE_QUAD_STATUS_PWR, 0, 3), (F.LNE_CTL_RX_EN, 3, 1)];
      ¬ ∀ j : Fin 4, rd s.dev F.LNE_CTL_RX_EN (4 * 0 + j.val) = 0 ∧ (4 * 0 + j.val ≠ 0 → rd s.dev F.LNE_CTL_TX_EN (4 * 0 + j.val) = 0)) ∧
    (let s := wL [(F.LNE_CTL_TX_EN, 0, 1), (F.LNE_QUAD_STATUS_PWR, 0, 3)];
      ∀ j : Fin 4, rd s.dev F.LNE_CTL_RX_EN (4 * 0 + j.val) = 0 ∧ (4 * 0 + j.val ≠ 0 → rd s.dev F.LNE_CTL_TX_EN (4 * 0 + j.val) = 0)) := by
  decide +kernel

/-- A state with quads 0 and the twin link queued for power. -/
def wStag : State := let s := wL [(F.PWR_STAGGER_K, 0, 2)]; { s with dev := { s.dev with stagger := [0, 32] } }

theorem wit_TransmittersAndPllsStart_ramps :
    (wStag.dev.stagger = 0 :: [32] ∧ 1 < max 1 (min 8 (rd wStag.dev F.PWR_STAGGER_K)) ∧ max 1 (min 8 (rd wStag.dev F.PWR_STAGGER_K)) ≤ 2) ∧
    (let s := wL [(F.LNE_STATUS_TX_STATE, 0, 2), (F.LNE_STATUS_RETRY_CNT, 0, 2)];
      rd s.dev F.LNE_STATUS_TX_STATE 0 = 2 ∧ rd s.dev F.LNE_STATUS_RETRY_CNT 0 = 2) ∧
    (let s := wL [(F.LNE_STATUS_TX_STATE, 0, 3), (F.LNE_STATUS_RETRY_CNT, 0, 3)];
      rd s.dev F.LNE_STATUS_TX_STATE 0 = 3 ∧ rd s.dev F.LNE_STATUS_RETRY_CNT 0 = 3) ∧
    (let s := wL [(F.LNE_STATUS_TX_STATE, 0, 4), (F.LNE_STATUS_RETRY_CNT, 0, 2), (F.LNE_QUAD_STATUS_PWR, 0, 3), (F.LNE_QUAD_STATUS_PLL_LOCK, 0, 1)];
      rd s.dev F.LNE_STATUS_TX_STATE 0 = 4 ∧ rd s.dev F.LNE_STATUS_RETRY_CNT 0 < 3 ∧ quadUp s.dev 0 = true) ∧
    (let s := wL [(F.LNE_STATUS_TX_STATE, 0, 4)]; rd s.dev F.LNE_STATUS_TX_STATE 0 = 4 ∧ quadUp s.dev 0 = false) ∧
    (let s := wL [(F.LNE_QUAD_STATUS_PWR, 31, 2)]; rd s.dev F.LNE_QUAD_STATUS_PWR 31 = 2) ∧
    (let s := wL [(F.LNE_QUAD_STATUS_PWR, 31, 3)]; rd s.dev F.LNE_QUAD_STATUS_PWR 31 = 3 ∧ rd s.dev F.LNE_QUAD_STATUS_PLL_LOCK 31 = 0) := by
  decide +kernel

theorem wit_ReceiversFollowTheSignal :
    (let s := wL []; s.dev.pwr.core = true ∧ rd s.dev F.LNE_CTL_RX_EN 0 = 0 ∧ isClient (persOf s.dev 0) = false ∧
      persBad s.dev 0 = false ∧ rd s.dev F.LNE_QUAD_STATUS_PWR 0 = 0) ∧
    (let s := wL [(F.LNE_CTL_RX_EN, 0, 1), (F.LNE_STATUS_RX_STATE, 0, 3)];
      rd s.dev F.LNE_CTL_RX_EN 0 = 1 ∧ persOf s.dev 0 ≠ 0 ∧ 2 ≤ rd s.dev F.LNE_STATUS_RX_STATE 0) ∧
    (let s := wL [(F.LNE_STATUS_RX_STATE, 0, 2), (F.LNE_STATUS_SIG_DET, 0, 1)];
      rd s.dev F.LNE_STATUS_RX_STATE 0 = 2 ∧ rd s.dev F.LNE_CFG_ADAPT_MODE 0 ≠ 2 ∧ rd s.dev F.LNE_STATUS_SIG_DET 0 = 1 ∧
      (laneOf s.dev 0).slow = false) ∧
    (let s := wL [(F.LNE_STATUS_RX_STATE, 0, 2)];
      rd s.dev F.LNE_STATUS_RX_STATE 0 = 2 ∧ rd s.dev F.LNE_CFG_ADAPT_MODE 0 ≠ 2 ∧ rd s.dev F.LNE_STATUS_SIG_DET 0 = 0) ∧
    (let s := wL [(F.LNE_STATUS_RX_STATE, 0, 2), (F.LNE_CFG_ADAPT_MODE, 0, 2), (F.LNE_STATUS_CDR_LOCK, 0, 1)];
      rd s.dev F.LNE_STATUS_RX_STATE 0 = 2 ∧ rd s.dev F.LNE_CFG_ADAPT_MODE 0 = 2 ∧ rd s.dev F.LNE_STATUS_CDR_LOCK 0 = 1) ∧
    (let s := wL [(F.LNE_STATUS_RX_STATE, 0, 2), (F.LNE_CFG_ADAPT_MODE, 0, 2)];
      rd s.dev F.LNE_CFG_ADAPT_MODE 0 = 2 ∧ rd s.dev F.LNE_STATUS_CDR_LOCK 0 = 0) ∧
    (let s := wL [(F.LNE_CTL_RX_EN, 0, 1), (F.LNE_STATUS_RX_STATE, 0, 3)];
      let s : State := { s with dev := modLane s.dev 0 fun x => { x with relock := true } };
      rd s.dev F.LNE_CTL_RX_EN 0 = 1 ∧ rd s.dev F.LNE_STATUS_RX_STATE 0 = 3 ∧ rd s.dev F.LNE_CFG_ADAPT_MODE 0 ≠ 2 ∧
      (laneOf s.dev 0).relock = true) := by
  decide +kernel

/-- A running PRBS7 checker of lane 0: one bit from gaining sync, or one error from losing it. -/
def wChk (sync : Bool) : State :=
  let s := wL [(F.LNE_CTL_PRBS_CHK_EN, 0, 1), (F.LNE_CTL_RX_EN, 0, 1), (F.LNE_STATUS_PRBS_SYNC, 0, sync.toNat)]
  let c : Checker := if sync then { hist := List.replicate 7 false, pos := 900, errAt := (List.range 63).map (· + 100) }
    else { hist := List.replicate 7 true, run := 255 }
  { s with dev := modLane s.dev 0 fun x => { x with chk := c } }

/-- A lane whose far loopback holds 70 bits. -/
def wEb (s : State) : State := { s with dev := modLane s.dev 0 fun x => { x with eb := List.replicate 70 true } }

theorem wit_TapsAndTestPatterns :
    (let tap (v : W32) (lo : Nat) : Nat := (v.extractLsb' lo 6).toInt.natAbs
     let sum (v : W32) := tap v 0 + tap v 6 + tap v 12 + tap v 18 + (v.extractLsb' 24 7).toNat
     sum 0xC0000000 = 64 ∧ sum 0x40000001 = 65) ∧
    (rd (wL [(F.LNE_CFG_ADAPT_MODE, 0, 2)]).dev F.LNE_CFG_ADAPT_MODE 0 = 2) ∧
    (let s := wL [(F.LNE_CTL_PRBS_CHK_EN, 0, 1), (F.LNE_CTL_RX_EN, 0, 1), (F.LNE_CTL_PRBS_PAT, 0, 5)];
      s.dev.pwr.core = true ∧ rd s.dev F.LNE_CTL_PRBS_CHK_EN 0 = 1 ∧ rd s.dev F.LNE_CTL_RX_EN 0 = 1 ∧ rd s.dev F.LNE_CTL_PRBS_PAT 0 < 6) ∧
    (let s := mk [(F.LNE_CFG_PERS, 0, 1), (F.LNE_CTL_PRBS_CHK_EN, 0, 1), (F.LNE_CTL_RX_EN, 0, 1), (F.LNE_CTL_PRBS_PAT, 0, 7)];
      rd s.dev F.LNE_CTL_PRBS_PAT 0 = 7 ∧ isPam4 (persOf s.dev 0) = true) ∧
    rd (wL [(F.LNE_CTL_LB_MODE, 0, 2)]).dev F.LNE_CTL_LB_MODE 0 = 2 := by
  decide +kernel

/-! Framing, tributary monitors and clients -/

/-- Lane 0 receives: personality 0x4, signal, clock and `more`. -/
def wF (more : List (Fld × Nat × Nat)) : State :=
  wL ([(F.LNE_CTL_RX_EN, 0, 1), (F.LNE_STATUS_LOS, 0, 0), (F.LNE_STATUS_CDR_LOCK, 0, 1), (F.LNE_STATUS_RX_STATE, 0, 3)] ++ more)

/-- The same in frame at lane SN `n`. -/
def wFr (n : Nat) (more : List (Fld × Nat × Nat)) : State :=
  wF ([(F.FRM_RX_STATUS_FSTATE, 0, 2), (F.FRM_RX_STATUS_SN_LOCK, 0, 1), (F.FRM_RX_SN_SN, 0, n), (F.FRM_RX_STATUS_COND, 0, 0)] ++ more)

/-- Lane 0 with candidates. -/
def wCand (cs : List (Nat × SN)) (st : Nat) : State :=
  let s := wF [(F.FRM_RX_STATUS_FSTATE, 0, st)]
  { s with dev := modFrm s.dev 0 fun f => { f with cands := cs } }

/-- A decoded sweep with the SN `x`: a good FAW, or a bad word 1. -/
def wSweep (good : Bool) (x : Nat) : RxSweep :=
  { oh := ([0xF3A58, if good then 0x0C5A7 else 0, 0, x / 4096, x % 4096 * 256].map (BitVec.ofNat 20)).map (·, true),
    grains := { fill := 3, ovr := [(0, 4), (255, 5), (300, 6)] } }

theorem wit_FramingAndReceivedSweeps :
    (let s := wCand [] 0; s.dev.pwr.core = true ∧ framerRuns s.dev 0 = true ∧ rd s.dev F.FRM_RX_STATUS_FSTATE 0 ≠ 2 ∧
      (frmOf s.dev 0).cands.length < 4) ∧
    (let s := wCand [(0, 5), (7, 5), (9, 5)] 1; framerRuns s.dev 0 = true ∧ rd s.dev F.FRM_RX_STATUS_FSTATE 0 ≠ 2 ∧
      (frmOf s.dev 0).cands.length < 4 ∧ (∀ c ∈ (frmOf s.dev 0).cands, c.1 ≠ 8) ∧
      (frmOf s.dev 0).cands.find? (fun c => c.1 == 7) = some (7, 5) ∧
      fawRaw s.dev 0 (.words (wSweep true 6)) = true ∧ snPair (rxSweep s.dev 0 (.words (wSweep true 6))) = some 6 ∧
      fawGood (rxSweep s.dev 0 (.words (wSweep true 6))) = true ∧ fawGood (rxSweep s.dev 0 (.words (wSweep false 6))) = false ∧
      fawRaw s.dev 0 (.words (wSweep false 6)) = false) ∧
    (let s := wFr 9 []; s.dev.pwr.core = true ∧ framerRuns s.dev 0 = true ∧ rd s.dev F.FRM_RX_STATUS_FSTATE 0 = 2 ∧
      rd s.dev F.FRM_RX_STATUS_SN_LOCK 0 = 1 ∧ (frmOf s.dev 0).faw < 3 ∧ s.dev.cli.tribs = [] ∧ s.dev.prot.groups = []) ∧
    (let s := wFr 9 []; let s : State := { s with dev := modFrm s.dev 0 fun f => { f with faw := 3 } };
      framerRuns s.dev 0 = true ∧ rd s.dev F.FRM_RX_STATUS_FSTATE 0 = 2 ∧ 3 ≤ (frmOf s.dev 0).faw) := by
  decide +kernel

/-- Lane 0 with a detector: interval 2^10, threshold 40, three intervals. -/
def wDeg (sum bad good def' : Nat) : State :=
  let s := wFr 1023 [(F.FRM_RX_STATUS_DEF, 0, def'), (F.FRM_RX_STATUS_COND, 0, if def' = 0 then 0 else 1)]
  { s with dev := modDeg s.dev 0 fun g => { g with started := true, sum := sum, bad := bad, good := good } }

/-- A working member at grain 0 of lane 0, TID 5, with a monitor. -/
def wTrib : Trib :=
  { cfg := { ptype := 1, profile := 0, fine := false, role := 0, wl := [0] },
    w := { lim := List.replicate 6 (3, 10), last := some 1, set := [0, 0, 2, 0, 0, 0] } }
def withTrib (s : State) (tid : Nat) (t : Trib) : State := { s with dev := setTrib s.dev tid t }

/-- The justification word of TID 5 with FILL 0 and TYPE 1. -/
def jw5 : Word20 := jwMake 0 false 1 5
/-- The member's period ends with word `w`. -/
def wPer (w : Word20) (x : Nat) : Trib := { wTrib with w := { wTrib.w with jw := w, set := [0, 0, x, 0, 0, 0] } }

/-- TID 5 on fine slots. -/
def wFine (locked : Bool) : Trib :=
  { cfg := { ptype := 1, profile := 0, fine := true, role := 0, wl := [0x80000] }, w := { locked := locked, phase := if locked then 4 else 0 } }
/-- The same with the words `ws` of position 4 in its last multiframes, newest first. -/
def wFineW (locked : Bool) (ws : List Word20) : Trib :=
  { wFine locked with w := { (wFine locked).w with hist := ws.zipIdx.map fun x => (BitVec.ofNat 32 (100 - 16 * x.2), x.1) } }

theorem wit_DetectorsIntegrate :
    (let s := wDeg 41 2 0 0; let g := degOf s.dev 0; framerRuns s.dev 0 = true ∧ rd s.dev F.FRM_RX_STATUS_FSTATE 0 = 2 ∧
      (rd s.dev F.FRM_RX_SN_SN 0 + 1) % 2 ^ g.ivl = 0 ∧ g.started = true ∧ g.thr < g.sum ∧ g.m ≤ g.bad + 1 ∧
      rd s.dev F.FRM_RX_STATUS_DEF 0 = 0 ∧ laneDefs s.dev 0 0 = 0) ∧
    (let s := wDeg 40 0 2 0x80; let g := degOf s.dev 0; (rd s.dev F.FRM_RX_SN_SN 0 + 1) % 2 ^ g.ivl = 0 ∧ g.started = true ∧
      g.sum ≤ g.thr ∧ g.m ≤ g.good + 1 ∧ rd s.dev F.FRM_RX_STATUS_DEF 0 = 0x80 ∧ laneDefs s.dev 0 0 = 0) ∧
    (let s := wFr 5 []; framerRuns s.dev 0 = true ∧ rd s.dev F.FRM_RX_STATUS_FSTATE 0 = 2 ∧ (5 + 1) % 2 ^ (degOf s.dev 0).ivl ≠ 0 ∧
      (rd s.dev F.FRM_RX_SN_SN 0 + 1) % 2 ^ degIvl s.dev 0 ≠ 0) ∧
    (let s := withTrib (wFr 5 []) 5 (wPer jw5 2); let t0 := wPer jw5 2; tribOf s.dev 5 = some t0 ∧ t0.w.jw = jw5 ∧ t0.cfg.role = 0 ∧ t0.cfg.fine = false ∧
      copyMulti s.dev t0 0 = false ∧ t0.w.ssf = false ∧ t0.w.ssfSeen = false ∧ t0.w.decl = List.replicate 6 false ∧
      t0.w.lim = List.replicate 6 (3, 10) ∧ t0.w.set = [0, 0, 2, 0, 0, 0] ∧ t0.w.last = some 1 ∧ (1 : BitVec 12).getLsbD 3 = false ∧
      t0.w.ssd = false ∧ t0.w.cond = .none ∧ jwOk jw5 5 t0.cfg.maxFill = true ∧ jwMi jw5 = false ∧ jwType jw5 = t0.cfg.ptype ∧
      jwType jw5 ≠ 0 ∧ jwMaint (jw5 + 1) = false ∧ ¬ jwOk (jw5 + 1) 5 t0.cfg.maxFill = true) ∧
    (let t0 := wPer (jw5 + 1) 1; let s := withTrib (wFr 5 []) 5 t0; tribOf s.dev 5 = some t0 ∧ t0.w.jw = jw5 + 1 ∧ (1 : Nat) < 2) := by
  decide +kernel

theorem wit_DetectorsIntegrate_fine :
    (let t0 := wFineW false [jw5, jw5]; let s := withTrib (wFr 5 []) 5 t0; tribOf s.dev 5 = some t0 ∧ t0.cfg.fine = true ∧
      t0.cfg.role = 0 ∧ t0.w.locked = false ∧ mfWord t0.w.hist 4 0 = some jw5 ∧ mfWord t0.w.hist 4 1 = some jw5 ∧
      (∀ q : Fin 16, q ≠ 4 → mfWord t0.w.hist q.val 0 = none) ∧ chkPasses jw5 5 = true ∧ jwType jw5 = t0.cfg.ptype ∧ jwMaint jw5 = false) ∧
    (let t0 := wFineW false [jw5, jw5 + 1]; let s := withTrib (wFr 5 []) 5 t0; tribOf s.dev 5 = some t0 ∧
      (∀ q : Fin 16, q ≠ 4 → mfWord t0.w.hist q.val 0 = none) ∧ mfWord t0.w.hist 4 1 = some (jw5 + 1) ∧ chkPasses (jw5 + 1) 5 = false) ∧
    (let t0 := wFineW true [jw5 + 1, jw5 + 1, jw5 + 1]; let s := withTrib (wFr 5 []) 5 t0; tribOf s.dev 5 = some t0 ∧
      t0.w.locked = true ∧ t0.w.phase = 4 ∧ (∀ b : Fin 3, mfWord t0.w.hist 4 b.val = some (jw5 + 1))) ∧
    (let t0 := wFineW true [jw5 + 1, jw5 + 1, jw5]; let s := withTrib (wFr 5 []) 5 t0; tribOf s.dev 5 = some t0 ∧
      t0.w.locked = true ∧ t0.w.phase = 4 ∧ mfWord t0.w.hist 4 2 = some jw5 ∧ chkPasses jw5 5 = true) := by
  decide +kernel

/-- A descriptor: opcode and (byte, low bit, value) fields. -/
def desc (op : Nat) (fs : List (Nat × Nat × Nat)) : BitVec 512 :=
  BitVec.ofNat 512 (fs.foldl (fun a f => a ||| (f.2.2 <<< (8 * f.1 + f.2.1))) op)

/-- A descriptor dispatched on ring 0 under `uid` 7, with both cores running. -/
def qent (raw : BitVec 512) : QEnt := { idx := 3, uid := 7, raw := raw, ph := .dispatched }
def withDesc (s : State) (raw : BitVec 512) : State :=
  let d := wrs s.dev [(F.CTL_CORE_STATUS_FW_READY, 0, 1), (F.CTL_CORE_STATUS_C0_STATE, 0, 2), (F.CTL_CORE_STATUS_C1_STATE, 0, 2),
    (F.HIF_RING_STATUS_STATE, 0, 1)]
  { s with dev := modRing d 0 fun x => { x with q := [qent raw] } }

/-- TRIB_DEFINE of TID 5 with one working grain of lane 0, type 1. -/
def dDefine : BitVec 512 := desc 0x20 [(16, 0, 5), (16, 19, 1), (28, 0, 1)]
def dRelease : BitVec 512 := desc 0x21 [(16, 0, 5)]
def dDefect : BitVec 512 := desc 0x40 [(16, 0, 15), (20, 0, 4 + 4096 * 9)]

/-- A group whose unit is TID 5. -/
def wGrp5 : Group := { cfg := { typ := 1, tid := some 5 } }

/-- Lane 0 carries a client and is received without a defect. -/
def wCli (d0 : Nat) : State :=
  let s := mk [(F.LNE_CFG_PERS, 0, 5), (F.MAP_LANE_CFG_MODE, 0, 1), (F.LNE_CTL_RX_EN, 0, 1), (F.LNE_STATUS_LOS, 0, 0),
    (F.LNE_STATUS_CDR_LOCK, 0, 1), (F.LNE_STATUS_RX_STATE, 0, 3)]
  { s with dev := { s.dev with cli := { s.dev.cli with cdef := tput 0 [] 0 (BitVec.ofNat 8 d0) } } }

theorem wit_TributariesAndClientDefects :
    (let s := withDesc (wFr 5 []) dDefine; let e := qent dDefine; let c := tribCfg dDefine [0] [] [];
      s.dev.pwr.core = true ∧ mirrors s.dev = false ∧ reservedAt dDefine = none ∧ servedBy s.dev 0 0x20 = some e ∧
      firstProb (tribProbs s.dev e.raw c) = none ∧ needsLoess s.dev c = false ∧ c.role = 0) ∧
    (let s := withDesc (withTrib (wFr 5 []) 5 wTrib) dDefine; let c := tribCfg dDefine [0] [] [];
      servedBy s.dev 0 0x20 = some (qent dDefine) ∧ (tribOf s.dev 5).isSome = true ∧ c.role ≠ 3 ∧ ¬ (c.role = 2 ∧ isFlx s.dev c = true)) ∧
    (let s := withDesc (withTrib (wFr 5 []) 5 wTrib) dRelease;
      servedBy s.dev 0 0x21 = some (qent dRelease) ∧ reservedAt dRelease = none ∧ tribOf s.dev 5 = some wTrib ∧ wTrib.cfg.role = 0 ∧
      (∀ g ∈ s.dev.prot.groups, g.2.cfg.tid ≠ some 5) ∧ (∀ a ∈ s.dev.cli.loess, a.owner ≠ 5)) ∧
    (let s := withDesc (withTrib (wFr 5 []) 5 wTrib) dRelease;
      let s : State := { s with dev := { s.dev with prot := { s.dev.prot with groups := [(9, wGrp5)] } } };
      servedBy s.dev 0 0x21 = some (qent dRelease) ∧ tribOf s.dev 5 = some wTrib ∧ ∃ g ∈ s.dev.prot.groups, g.2.cfg.tid = some 5) ∧
    (let s := withDesc (wFr 5 []) dRelease; servedBy s.dev 0 0x21 = some (qent dRelease) ∧ tribOf s.dev 5 = none) ∧
    (let s := withDesc (wFr 5 []) dDefect; servedBy s.dev 0 0x40 = some (qent dDefect) ∧ reservedAt dDefect = none ∧ dF dDefect 16 0 4 = 15) := by
  decide +kernel

theorem wit_TributariesAndClientDefects_client :
    (let s := wCli 0; s.dev.pwr.core = true ∧ isClient (persOf s.dev 0) = true ∧ rd s.dev F.MAP_LANE_CFG_MODE 0 ≠ 3 ∧
      (∀ m ∈ clientLanes s.dev 0, rd s.dev F.LNE_CTL_RX_EN m = 1 ∧ rd s.dev F.LNE_STATUS_LOS m = 0 ∧ rd s.dev F.LNE_STATUS_CDR_LOCK m = 1 ∧
        persOf s.dev m = persOf s.dev 0 ∧ clientKey s.dev m = clientKey s.dev 0 ∧ clientLanes s.dev m = clientLanes s.dev 0) ∧
      cdefOf s.dev 0 = 0 ∧ cdefMode s.dev 0 7 = true ∧ cdefMode s.dev 0 0 = true ∧ cdefMode s.dev 0 5 = false) ∧
    (let s := wCli 128; s.dev.pwr.core = true ∧ cdefOf s.dev 0 = BitVec.ofNat 8 (2 ^ (7 : Fin 8).val)) := by
  decide +kernel

/-- FlexE group 2 is enabled, and TID 5 is its egress client 9; a switch for it is under way. -/
def wFlx (caIn : Bool) (wait op : Nat) : State :=
  let s := mk [(F.MAP_FLX_GRP_CFG_EN, 2, 1), (F.MAP_FLX_GRP_CFG_CA_WAIT, 2, wait), (F.MAP_LANE_CFG_MODE, 0, 3), (F.LNE_CFG_PERS, 0, 5), (F.MAP_LANE_FLX_GRP, 0, 2),
    (F.LNE_CTL_RX_EN, 0, 1), (F.LNE_STATUS_LOS, 0, 0), (F.LNE_STATUS_CDR_LOCK, 0, 1), (F.LNE_STATUS_RX_STATE, 0, 3),
    (F.MAP_FLX_GRP_STATUS_SWITCHING, 2, 1)]
  let s := withDesc s (desc op [])
  let d := modFlx s.dev 2 fun _ => { txB := [(3, 9)], cr := true, caIn := caIn, sw := some (0, 7, op, 5), caWait := wait = 1 }
  { s with dev := setTrib d 5 { cfg := { ptype := 1, profile := 0, fine := false, role := 2, grp := 2, client := 9, k := 1, wl := [0], slots := [3] } } }

theorem wit_FlexECalendars :
    (let s := wFlx true 1 0x20; s.dev.pwr.core = true ∧ mirrors s.dev = false ∧ rd s.dev F.MAP_FLX_GRP_CFG_EN 2 = 1 ∧
      (flxOf s.dev 2).sw = some (0, 7, 0x20, 5) ∧ (flxOf s.dev 2).caIn = true) ∧
    (let s := wFlx false 1 0x21; (flxOf s.dev 2).sw = some (0, 7, 0x21, 5) ∧ (flxOf s.dev 2).caIn = false ∧
      (flxOf s.dev 2).caWait = true) ∧
    (let s := wFlx true 1 0x20; (0 : Nat) ∈ flxLanes s.dev 2 ∧ 1 ∉ flxLanes s.dev 2 ∧ rd s.dev F.MAP_FLX_GRP_CFG_GRP_NUM 2 ≠ 77 ∧
      (cdefLane s.dev (clientKey s.dev 0)).isSome = true ∧ (cdefLane s.dev 0).isSome = true ∧ clientDown s.dev 0 = false ∧
      (cdefOf s.dev 0).getLsbD 3 = false) ∧
    rd State.reset.dev F.MAP_FLX_GRP_CFG_EN 2 = 0 := by
  decide +kernel

/-- TID 5 of `role` on lane 0 in `mode`. -/
def wBuf (role mode : Nat) (f : Trib → Trib) : State :=
  withTrib (mk [(F.LNE_CFG_PERS, 0, 9), (F.MAP_LANE_CFG_MODE, 0, mode)]) 5
    (f { cfg := { ptype := 1, profile := 0, fine := false, role := role, wl := [0] } })

/-- H0 of a frame of 3 bytes, and its H1. -/
def fmH0 : Word20 := (3 : Word20) <<< 6
def fmH1 : Word20 := crc16 (msbBits fmH0) ++ (0#4)

theorem wit_ClientBuffersSlip :
    (let s := wBuf 1 4 fun t => { t with map := { bits := List.replicate 280 true } };
      s.dev.pwr.core = true ∧ ∃ t0, tribOf s.dev 5 = some t0 ∧ t0.cfg.role = 1 ∧ rd s.dev F.MAP_LANE_CFG_MODE t0.cfg.lane ≠ 2 ∧
        2 * (8 * t0.cfg.wl.length - 1) ≤ t0.map.bits.length / 20) ∧
    (let s := wBuf 1 4 id; ∃ t0, tribOf s.dev 5 = some t0 ∧ t0.map.bits.length / 20 < 2 * (8 * t0.cfg.wl.length - 1)) ∧
    (let s := wBuf 2 2 id; ∃ t0, tribOf s.dev 5 = some t0 ∧ t0.cfg.role = 2 ∧ rd s.dev F.MAP_LANE_CFG_MODE t0.cfg.lane = 2 ∧
      demSf t0 = false ∧ t0.dem.fm = 0 ∧ crc16 (msbBits fmH0) = fmH1.extractLsb' 4 16 ∧ crc16 (msbBits fmH0) ≠ (fmH1 + 16).extractLsb' 4 16) ∧
    (let s := wBuf 2 2 fun t => { t with dem := { fm := 1, words := [fmH0, fmH1, 0x12345, 0x67000] } };
      ∃ t0, tribOf s.dev 5 = some t0 ∧ t0.dem.fm = 1 ∧ t0.dem.words = fmH0 :: fmH1 :: [0x12345, 0x67000] ∧ (fmH0.extractLsb' 6 14).toNat ≠ 0 ∧
        (8 * (fmH0.extractLsb' 6 14).toNat + 19) / 20 ≤ [0x12345, (0x67000 : Word20)].length ∧
        queueWords t0.dem.frames + (8 * (fmH0.extractLsb' 6 14).toNat + 19) / 20 ≤ 2 * (8 * t0.cfg.wl.length - 1)) ∧
    (let s := wBuf 2 2 fun t => { t with dem := { fm := 0, words := [fmH0, fmH1, 0x12345] } };
      ∃ t0, tribOf s.dev 5 = some t0 ∧ t0.dem.words = fmH0 :: fmH1 :: [0x12345] ∧
        [(0x12345 : Word20)].length < (8 * (fmH0.extractLsb' 6 14).toNat + 19) / 20) ∧
    (let s := wBuf 2 2 fun t => { t with dem := { fm := 2, words := [fmH0, fmH1 + 16] } };
      ∃ t0, tribOf s.dev 5 = some t0 ∧ t0.dem.fm = 2 ∧ t0.dem.words = fmH0 :: (fmH1 + 16) :: []) := by
  refine ⟨?_, ?_, ?_, ?_, ?_, ?_⟩
  · exact ⟨by decide +kernel, _, rfl, by decide +kernel⟩
  all_goals exact ⟨_, rfl, by decide +kernel⟩

theorem wit_ClientBuffersSlip_levels :
    (let s := wBuf 2 4 fun t => { t with dem := { started := true, bits := List.replicate 79724 true } };
      ∃ t0, tribOf s.dev 5 = some t0 ∧ t0.cfg.role = 2 ∧ rd s.dev F.MAP_LANE_CFG_MODE t0.cfg.lane = 4 ∧ t0.dem.started = true ∧
        2 * (20 * (wClient s.dev t0.cfg).1 / (wClient s.dev t0.cfg).2) ≤ t0.dem.bits.length) ∧
    (let s := wBuf 2 4 fun t => { t with dem := { started := true, bits := List.replicate 65 true } };
      ∃ t0, tribOf s.dev 5 = some t0 ∧ t0.dem.bits.length < 66) ∧
    (let s := wBuf 2 4 fun t => { t with dem := { started := true, bits := List.replicate 66 true } };
      ∃ t0, tribOf s.dev 5 = some t0 ∧ 66 ≤ t0.dem.bits.length ∧
        t0.dem.bits.length < 2 * (20 * (wClient s.dev t0.cfg).1 / (wClient s.dev t0.cfg).2)) ∧
    (let s := wBuf 2 1 fun t => { t with dem := { started := true } };
      ∃ t0, tribOf s.dev 5 = some t0 ∧ t0.cfg.role = 2 ∧ rd s.dev F.MAP_LANE_CFG_MODE t0.cfg.lane = 1 ∧ t0.dem.started = true ∧ t0.dem.blocks = []) ∧
    (let s := wBuf 2 3 fun t => { t with cfg := { t.cfg with k := 1 }, dem := { started := true, blocks := List.replicate 256 0 } };
      ∃ t0, tribOf s.dev 5 = some t0 ∧ t0.dem.blocks ≠ [] ∧ 2 * targetBlocks s.dev t0.cfg ≤ t0.dem.blocks.length) ∧
    (let s := wBuf 2 3 fun t => { t with cfg := { t.cfg with k := 1 }, dem := { started := true, blocks := [0] } };
      ∃ t0, tribOf s.dev 5 = some t0 ∧ t0.dem.blocks ≠ [] ∧ t0.dem.blocks.length < 2 * targetBlocks s.dev t0.cfg) := by
  refine ⟨⟨_, rfl, by decide +kernel, by decide +kernel, by decide +kernel, ?_⟩, ?_, ?_, ?_, ?_, ?_⟩
  · show _ ≤ (List.replicate 79724 true).length
    rw [List.length_replicate]
    decide +kernel
  all_goals exact ⟨_, rfl, by decide +kernel⟩

/-- TID 5 is re-justified on plesiochronous lane 0. -/
def wRj : State :=
  withTrib (wFr 5 [(F.FRM_RX_CFG_PLESIO, 0, 1)]) 5
    { cfg := { ptype := 1, profile := 0, fine := false, role := 0, wl := [0] }, rjW := { buf := List.replicate 15 none } }

/-- Lane 0's window began at device sweep `a` and has counted `k` lane sweeps by sweep 262144. -/
def wWin (a : SN) (k : Nat) : State :=
  { wRj with sn := 262144, dev := modFrm wRj.dev 0 fun f => { f with rjFrom := some a, rjCnt := k } }

theorem wit_ClientBuffersSlip_rejustifier :
    (∃ t0, tribOf wRj.dev 5 = some t0 ∧ t0.cfg.role = 0 ∧ copyPlesio wRj.dev t0 0 = true ∧ copyPlesio wRj.dev t0 1 = false ∧
      t0.rjW.slip = false ∧ 2 * (8 * t0.cfg.wl.length - 1) < t0.rjW.buf.length) ∧
    rd (wWin 0 262151).dev F.FRM_RX_CFG_PLESIO 0 = 1 ∧ (frmOf (wWin 0 262151).dev 0).rjFrom = some 0 ∧
    snAge 0 (wWin 0 262151).sn = 262144 ∧ snAge 1 (wWin 1 0).sn < 262144 ∧ (frmOf (wWin 1 0).dev 0).rjFrom = some 1 ∧ 7 ≤ ((262151 : Int) - 262144).natAbs ∧ ((262139 : Int) - 262144).natAbs ≤ 5 ∧
    ((262150 : Int) - 262144).natAbs = 6 :=
  ⟨⟨_, rfl, by decide +kernel⟩, by decide +kernel⟩

/-! The switch core, Tilth and the planes -/

/-- Grain 5 of lane 3 connected from grain 7 of lane 2 on slot 9. -/
def wPage : CmPage :=
  { ing := [(2 * 4096 + 9, ingMk 7)], cen := [(9 * 132 + 3, 2)], egr := [(3 * 2048 + 5, egrMk 9 9)] }
def uE : Nat := 3 * 2048 + 5
def uW : Nat := 2 * 2048 + 7
def withSw (s : State) (f : Switch → Switch) : State := { s with dev := { s.dev with sw := f s.dev.sw } }
def withTilth (s : State) (f : Tilth → Tilth) : State := { s with dev := { s.dev with tilth := f s.dev.tilth } }

/-- Lanes 2 and 3 carry all 2048 grains; `pg` is both pages. -/
def wSw (pg : CmPage) : State :=
  withSw (mk [(F.LNE_CFG_PERS, 2, 1), (F.LNE_CFG_PERS, 3, 1)]) fun w => { w with cm0 := pg, cm1 := pg }

def dConnect : BitVec 512 := desc 1 [(16, 0, uE), (20, 0, uW), (24, 0, unitNone)]
def dDisconnect : BitVec 512 := desc 2 [(16, 0, uE)]
def dMove : BitVec 512 := desc 3 [(16, 0, uE), (20, 0, uW + 1)]
def dConnFine : BitVec 512 := desc 1 [(16, 0, 0x80000), (20, 0, 0x80000), (24, 0, unitNone)]
/-- A fine slot of the first VL position, which is opened. -/
def wFineTier : State :=
  wSw { wPage with ing := wPage.ing ++ [(2 * 4096 + 10, ingMk 8)], cen := wPage.cen ++ [(10 * 132 + 128, 2)], egr := wPage.egr ++ [(128 * 2048, egrMk 10 10)] }

theorem staged_ok (x : Staged) (h : (match x with | .ok _ => true | .fail _ _ => false) = true) : ∃ p, x = .ok p := by
  cases x with | ok p => exact ⟨p, rfl⟩ | fail => cases h


theorem wit_ConnectionsAreStaged :
    (let s := withDesc (wSw {}) dConnect; s.dev.pwr.core = true ∧ servedBy s.dev 0 1 = some (qent dConnect) ∧
      s.dev.tilth.aborted.contains 0 = false ∧ s.dev.tilth.batch.any (·.ring == 0) = false ∧ mayStage s.dev 0 s.sn = true ∧
      ∃ p, stageDesc s.dev (plan0 s.dev) dConnect = .ok p) ∧
    (let s := withDesc (wSw wPage) dConnect; servedBy s.dev 0 1 = some (qent dConnect) ∧ mayStage s.dev 0 s.sn = true ∧
      stageDesc s.dev (plan0 s.dev) dConnect = .fail 0x12 (16 + 256 * 4)) ∧
    (let s := withDesc (wSw wPage) dDisconnect; servedBy s.dev 0 2 = some (qent dDisconnect) ∧ mayStage s.dev 0 s.sn = true ∧
      ∃ p, stageDesc s.dev (plan0 s.dev) dDisconnect = .ok p) ∧
    (let s := withTilth (withDesc (wSw wPage) dMove) fun t => { t with batch := some { ring := 0, atomic := false } };
      servedBy s.dev 0 3 = some (qent dMove) ∧ (∃ b, s.dev.tilth.batch = some b ∧ b.ring = 0 ∧ b.atomic = false) ∧ mayMember s.dev = true ∧
      ∃ p, stageDesc s.dev (plan0 s.dev) dMove = .ok p) := by
  refine ⟨⟨rfl, by decide +kernel, rfl, rfl, by decide +kernel, staged_ok _ (by decide +kernel)⟩,
    by decide +kernel, ⟨by decide +kernel, by decide +kernel, staged_ok _ (by decide +kernel)⟩,
    ⟨by decide +kernel, ⟨_, rfl, rfl, rfl⟩, by decide +kernel, staged_ok _ (by decide +kernel)⟩⟩

theorem wit_ConnectionsAreStaged_entries :
    (let s : State := { wSw {} with dev := wr (wSw {}).dev F.GLB_TILTH_CFG_BCAST_EN 0 0 };
      (∃ p, stageDesc s.dev (plan0 s.dev) dConnect = .ok p) ∧ opOf dConnect = 1 ∧ isGrain (dF dConnect 16 0 20) = true ∧
      dF dConnect 24 0 20 = unitNone ∧ rd s.dev F.GLB_TILTH_CFG_BCAST_EN = 0 ∧
      ((busyIn s.dev (plan0 s.dev) (portOf uW)).testBit 0 || (busyOut s.dev (plan0 s.dev) (portOf uE)).testBit 0) = false) ∧
    (let s := wFineTier; (∃ p, stageDesc s.dev (plan0 s.dev) dConnFine = .ok p) ∧ opOf dConnFine = 1 ∧ isFine (dF dConnFine 16 0 20) = true) ∧
    (let s := wSw wPage; (∃ p, stageDesc s.dev (plan0 s.dev) dDisconnect = .ok p) ∧ opOf dDisconnect = 2 ∧
      isGrain (dF dDisconnect 16 0 20) = true) := by
  refine ⟨⟨staged_ok _ (by decide +kernel), by decide +kernel⟩, ⟨staged_ok _ (by decide +kernel), by decide +kernel⟩,
    staged_ok _ (by decide +kernel), by decide +kernel⟩

theorem wit_EgressAndFineReadout :
    (let d := (wSw wPage).dev; (selAt d uE).ecc = false ∧ (selAt d uE).pmi = false ∧ (selAt d uE).frz = none ∧ egrEn (egrAt wPage uE) = true ∧
      egrEn (egrAt wPage 0) = false) ∧
    (let d := (withSw (wSw wPage) fun w => { w with sel := [(uE, { pmi := true })] }).dev; (selAt d uE).pmi = true) ∧
    (let d := (withSw (wSw wPage) fun w => { w with sel := [(uE, { promo := true, frz := some (9, true) })] }).dev;
      (selAt d uE).ecc = false ∧ (selAt d uE).pmi = false ∧ (selAt d uE).frz = some (9, true)) ∧
    (finAt {} 0xFFFF).getLsbD 16 = false ∧ (finAt { fine := [(0xFFFF, finMk 0xFFFF)] } 0xFFFF).getLsbD 16 = true := by
  decide +kernel

def dOpen : BitVec 512 := desc 4 []
def dCommit : BitVec 512 := desc 5 [(1, 0, 1), (4, 0, 12)]
def dAbort : BitVec 512 := desc 6 []
def wBatch (raw : BitVec 512) : State :=
  withTilth (withDesc (wSw wPage) raw) fun t => { t with batch := some { ring := 0, atomic := true, tmo := 5 } }

theorem wit_BatchesOpenCommitAbort :
    (let s := withDesc (wSw wPage) dOpen; s.dev.pwr.core = true ∧ servedBy s.dev 0 4 = some (qent dOpen) ∧
      s.dev.tilth.aborted.contains 0 = false ∧ reservedAt dOpen = none ∧ s.dev.tilth.batch = none ∧ s.dev.tilth.prep = none ∧
      s.dev.tilth.held = [] ∧ s.dev.tilth.evac = none) ∧
    (let s := wBatch dCommit; s.dev.tilth.batch = some { ring := 0, atomic := true, tmo := 5 } ∧ reservedAt dCommit = none ∧
      servedBy s.dev 0 5 = some (qent dCommit) ∧ mayMember s.dev = true) ∧
    (let s := wBatch dAbort; reservedAt dAbort = none ∧ servedBy s.dev 0 6 = some (qent dAbort) ∧ s.dev.tilth.undo = false) ∧
    (withTilth (wBatch dAbort) fun t => { t with undo := true }).dev.tilth.undo = true ∧
    (let s := withTilth (withDesc (wSw wPage) dAbort) fun t => { t with aborted := [0] };
      servedBy s.dev 0 6 = some (qent dAbort) ∧ s.dev.tilth.aborted.contains 0 = true) ∧
    (let s := withDesc (wSw wPage) dCommit; servedBy s.dev 0 5 = some (qent dCommit) ∧ s.dev.tilth.aborted.contains 0 = false ∧
      s.dev.tilth.batch = none) := by
  decide +kernel

/-- A CONNECT staged on ring 0 in a commit. -/
def wMem : Member := { ring := 0, uid := 7, idx := 3, op := 1, raw := dConnect }
def wPrep (target : Option SN) (timed : Bool) : State :=
  withTilth { withDesc (withSw (wSw {}) fun w => { w with cm1 := wPage }) dConnect with sn := 100 } fun t =>
    { t with prep := some { members := [wMem], timed := timed, tsn := 102, target := target } }

theorem wit_CommitFlipsAtItsTarget :
    (let s := wPrep none true; s.dev.pwr.core = true ∧ s.dev.tilth.prep = some { members := [wMem], timed := true, tsn := 102 } ∧
      s.dev.tilth.released = true ∧ isStandby s.dev = false ∧ entering s.dev = false ∧ s.dev.twin.resyncLast = false ∧
      s.dev.tilth.paused = false ∧ coupled s.dev = false ∧ (102 - s.sn).toNat = 2) ∧
    (let s := { wPrep none true with sn := 101 }; ¬ (2 ≤ ((102 : SN) - s.sn).toNat)) ∧
    (let s := wPrep (some 100) false; s.dev.tilth.prep = some { members := [wMem], timed := false, tsn := 102, target := some s.sn } ∧
      s.dev.tilth.made = none ∧ s.dev.tilth.released = true ∧ s.dev.tilth.planeIn = []) ∧
    (let s := withTilth { wSw wPage with sn := 102 } fun t => { t with released := false, lastT := 100 };
      s.dev.tilth.released = false ∧ s.dev.tilth.second = none ∧ s.dev.tilth.fresh = false ∧ s.dev.tilth.late = [] ∧
      2 ≤ (s.sn - s.dev.tilth.lastT).toNat ∧ (s.sn - s.dev.tilth.lastT).toNat < 2 ^ 31 ∧ ((101 : SN) - s.dev.tilth.lastT).toNat < 2) ∧
    (let s := withTilth { withDesc (wSw wPage) dConnect with sn := 102 } fun t =>
        { t with lastT := 100, made := some { members := [wMem], timed := false, tsn := 0, target := some 100 } };
      s.dev.tilth.second = none ∧ wMem.done = false ∧ wMem.stage2 = none ∧ wMem.op = 1 ∧
      s.dev.tilth.made = some { members := [wMem], timed := false, tsn := 0, target := some 100 } ∧ 2 ≤ (s.sn - s.dev.tilth.lastT).toNat) := by
  decide +kernel

/-- A coupled active. -/
def asActive (s : State) : State :=
  { s with dev := { wrs s.dev [(F.TWN_STATUS_LINK, 0, 1), (F.TWN_STATUS_COUPLING, 0, 3), (F.TWN_STATUS_ROLE, 0, 3)] with twin := { s.dev.twin with role := .active } } }

theorem wit_CommitFlipsAtItsTarget_twin :
    (let s := asActive (wPrep (some 101) true); s.dev.pwr.core = true ∧ mirrors s.dev = true ∧ coupled s.dev = true ∧
      ∃ c, s.dev.tilth.prep = some c ∧ c.target = some (s.sn + 1) ∧ c.acked = false) := by
  exact ⟨rfl, by decide +kernel, by decide +kernel, _, rfl, by decide +kernel, rfl⟩

def dFineOpen (v : Nat) : BitVec 512 := desc 0x22 [(16, 0, uW), (20, 0, v)]
def dFineClose : BitVec 512 := desc 0x23 [(16, 0, 128 * 2048)]
/-- A commit of one descriptor that is set aside, its rollback still to finish (`undo`) or done. -/
def wHeld (raw : BitVec 512) (pg : CmPage) (undo : Bool) : State :=
  withTilth (withDesc (wSw pg) (desc 0x7F [])) fun t =>
    { t with held := [([], some { members := [{ wMem with raw := raw, op := opOf raw }], timed := false, tsn := 0 })], undo := undo }
/-- Tilth paused by a PG_COMMAND while a MOVE is prepared; `stale`: its grain has joined a protection group. -/
def wPaused (stale : Bool) : State :=
  let s := withTilth (wSw wPage) fun t =>
    { t with paused := true, prep := some { members := [{ wMem with raw := dMove, op := 3 }], timed := false, tsn := 0 } }
  if stale then { s with dev := { s.dev with prot := { s.dev.prot with groups := [(9, { cfg := { typ := 0, unit := [uE] } })] } } } else s

/-- An empty switch core with a FINE_OPEN that names no position. -/
def wFO : State := withDesc (wSw {}) (dFineOpen unitNone)

theorem wFO_spare : ∃ u, spareVl wFO.dev = some u := by
  have h : (spares wFO.dev).length = 8192 := by decide +kernel
  unfold spareVl
  rw [h]
  exact ⟨_, List.getElem?_eq_getElem (by rw [h]; exact Nat.mod_lt _ (by decide))⟩

theorem wFO_busy (e : Nat) : busyOut wFO.dev (plan0 wFO.dev) e = busyOut wFO.dev (plan0 wFO.dev) 0 := rfl

theorem wFO_connects (u : Nat) : ∃ p, planConnect wFO.dev (plan0 wFO.dev) u uW none = .ok p := by
  have hb : (if rdB wFO.dev F.GLB_TILTH_CFG_BCAST_EN then (List.range 4096).find? fun c =>
      ingAt (plan0 wFO.dev).pg (portOf uW) c == ingMk (grainOf uW) && !(busyOut wFO.dev (plan0 wFO.dev) 0).testBit c else none) = none := by
    decide +kernel
  have hf : (List.range 4096).find? (fun c => !(busyIn wFO.dev (plan0 wFO.dev) (portOf uW) ||| busyOut wFO.dev (plan0 wFO.dev) 0).testBit c) =
      some 0 := by decide +kernel
  simp only [planConnect, place, wFO_busy (portOf u), hb, hf]
  exact ⟨_, rfl⟩

theorem wit_InterruptedAndFineWorkIsStaged_paused :
    (let s := wPaused false; s.dev.pwr.core = true ∧ s.dev.tilth.paused = true ∧ pgWaits s.dev = false ∧ movesStale s.dev = false) ∧
    (let s := wPaused true; s.dev.tilth.paused = true ∧ pgWaits s.dev = false ∧ movesStale s.dev = true ∧
      ∃ c, s.dev.tilth.prep = some c ∧ c.evac = false) ∧
    (let s := withTilth (withDesc (wSw wPage) (desc 0x12 [])) fun t => { t with paused := true }; pgWaits s.dev = true) :=
  ⟨by decide +kernel, ⟨rfl, by decide +kernel, by decide +kernel, _, rfl, rfl⟩, by decide +kernel⟩

theorem wit_InterruptedAndFineWorkIsStaged :
    (let s := wHeld dConnect {} true; s.dev.pwr.core = true ∧ s.dev.tilth.undo = true ∧ s.dev.tilth.released = true) ∧
    (let s := wHeld dConnect {} false; urgentWaits s.dev = false ∧ s.dev.tilth.paused = false ∧ s.dev.tilth.undo = false ∧
      s.dev.tilth.released = true ∧ s.dev.tilth.prep = none ∧ s.dev.tilth.staged = [] ∧ s.dev.tilth.evac = none ∧
      secondDue s.dev.tilth = false ∧ ∃ p, stageDesc s.dev (plan0 s.dev) dConnect = .ok p) ∧
    (let s := withDesc (wSw {}) (dFineOpen unitNone); servedBy s.dev 0 0x22 = some (qent (dFineOpen unitNone)) ∧
      reservedAt (dFineOpen unitNone) = none ∧ mayStage s.dev 0 s.sn = true ∧ isGrain uW = true ∧ portOf uW < 128 ∧ unitInRange s.dev uW = true ∧
      plesioBar s.dev uW = false ∧ protectLane s.dev (portOf uW) = false ∧
      dF (dFineOpen unitNone) 16 0 20 = uW ∧ dF (dFineOpen unitNone) 20 0 20 = unitNone ∧ ∃ u p, spareVl s.dev = some u ∧
      planConnect s.dev (plan0 s.dev) u uW none = .ok p) ∧
    (let v := 128 * 2048; let s := withDesc wFineTier (dFineOpen v); servedBy s.dev 0 0x22 = some (qent (dFineOpen v)) ∧ isGrain v = true ∧
      dF (dFineOpen v) 20 0 20 = v ∧ isOpened (shadow s.dev) v = true ∧ fineReaders (shadow s.dev) v = [] ∧ mayStage s.dev 0 s.sn = true ∧
      ∃ p, planMove s.dev (plan0 s.dev) v false (some uW) = .ok p) ∧
    (let s := withDesc wFineTier dFineClose; servedBy s.dev 0 0x23 = some (qent dFineClose) ∧ reservedAt dFineClose = none ∧
      dF dFineClose 16 0 20 = 128 * 2048 ∧ isOpened (shadow s.dev) (128 * 2048) = true ∧ fineReaders (shadow s.dev) (128 * 2048) = [] ∧
      mayStage s.dev 0 s.sn = true) ∧
    (let s := withSw (withDesc wFineTier dFineClose) fun w => { w with cm1 := { w.cm1 with fine := [(3, finMk 2)] } };
      fineReaders (shadow s.dev) (128 * 2048) ≠ []) := by
  refine ⟨by decide +kernel, ⟨by decide +kernel, rfl, rfl, rfl, rfl, rfl, rfl, by decide +kernel, staged_ok _ (by decide +kernel)⟩,
    ⟨by decide +kernel, by decide +kernel, by decide +kernel, by decide +kernel, by decide +kernel, by decide +kernel, by decide +kernel,
      by decide +kernel, by decide +kernel, by decide +kernel,
      let ⟨u, hu⟩ := wFO_spare; let ⟨p, hp⟩ := wFO_connects u; ⟨u, p, hu, hp⟩⟩,
    ⟨by decide +kernel, by decide +kernel, by decide +kernel, by decide +kernel, by decide +kernel, by decide +kernel, staged_ok _ (by decide +kernel)⟩,
    by decide +kernel, by decide +kernel⟩

def dRetire (p : Nat) : BitVec 512 := desc 0x60 [(16, 0, p)]
def dRestore (p : Nat) : BitVec 512 := desc 0x61 [(16, 0, p)]
/-- Plane 1, which carries slot 9, evacuates. -/
def wEvac : State :=
  withTilth { wSw wPage with dev := wr (wSw wPage).dev F.GLB_PLANE_STATUS_STATE 1 1 } fun t => { t with evac := some 1 }

theorem wit_PlanesRetireAndReturn :
    (let s := withDesc (wSw wPage) (dRetire 7); s.dev.pwr.core = true ∧ dF (dRetire 7) 16 0 3 = 7 ∧ reservedAt (dRetire 7) = none ∧
      servedBy s.dev 0 0x60 = some (qent (dRetire 7)) ∧ planeSt s.dev 7 = 0 ∧ otherOut s.dev 7 = false ∧ urgentPrep s.dev = false) ∧
    (let s := withDesc wEvac (dRetire 7); planeSt s.dev 7 = 0 ∧ otherOut s.dev 7 = true) ∧
    (let s := withDesc wEvac (dRestore 1);
      let s : State := { s with dev := wr s.dev F.GLB_PLANE_STATUS_STATE 1 2 };
      servedBy s.dev 0 0x61 = some (qent (dRestore 1)) ∧ reservedAt (dRestore 1) = none ∧ planeSt s.dev 1 = 2) ∧
    (let s := withSw (wSw wPage) fun w => { w with planes := [(0, { lowRun := 2, beatRun := 2 })] };
      planeSt s.dev 0 = 0 ∧ isStandby s.dev = false ∧ (planeRec s.dev 0).slackUp = false ∧ 2 ≤ (planeRec s.dev 0).lowRun ∧
      (planeRec s.dev 0).beatUp = false ∧ 2 ≤ (planeRec s.dev 0).beatRun ∧ otherOut s.dev 0 = false) ∧
    (let s := withSw (withTilth (wSw {}) fun t => { t with evac := some 1 }) fun w => { w with retireBy := [(1, 0, 7)] };
      s.dev.tilth.evac = some 1 ∧ pageUses (active s.dev) 1 = false ∧ pageUses (shadow s.dev) 1 = false ∧ s.dev.sw.retireBy = [(1, 0, 7)]) ∧
    (let s := withSw { wSw wPage with dev := wr (wSw wPage).dev F.GLB_PLANE_STATUS_STATE 1 3 } fun w =>
        { w with restoreBy := [(1, 0, 7)], planes := [(1, { restore := 16 })] };
      planeSt s.dev 1 = 3 ∧ s.dev.sw.restoreBy = [(1, 0, 7)] ∧ (planeRec s.dev 1).restoreBad = false ∧ 16 ≤ (planeRec s.dev 1).restore) := by
  decide +kernel

/-- Port 2 with slots 0 to 3584 in use, more than seven eighths of them. -/
def wFull : CmPage := { wPage with ing := (List.range 3585).map fun c => (2 * 4096 + c, ingMk 7) }

theorem wit_PlanesRetireAndReturn_evacuation :
    (let s := wEvac; s.dev.pwr.core = true ∧ planeSt s.dev 1 = 1 ∧ s.dev.tilth.evac = some 1 ∧ s.dev.tilth.released = true ∧
      s.dev.tilth.prep = none ∧ s.dev.tilth.undo = false ∧ s.dev.tilth.paused = false ∧ urgentWaits s.dev = false ∧
      s.dev.tilth.staged = [] ∧ s.dev.sw.retireBy = [] ∧
      evacUses s.dev 1 = [(uE, 9)] ∧ bitCount (occIn (shadow s.dev) 2) ≤ 3584 ∧
      bitCount (occOut (shadow s.dev) 3 ||| frozenSlots s.dev 3) ≤ 3584) ∧
    bitCount (occIn wFull 2) = 3585 := by
  decide +kernel

/-! Protection, its trigger bus and Loess -/

/-- A 1+1 group of grain `uE` with a 100 ms hold-off and a 5 min wait-to-restore. -/
def wG : Group :=
  { cfg := { typ := 0, revert := true, holdOff := 100, wtr := 300, unit := [uE] }, inputs := [{}, {}] }
def withGroup (s : State) (g : Group) : State := { s with dev := setGroup s.dev 9 g }
/-- PG_COMMAND of CMD `k` for PGID 9, signal `sg`. -/
def dCmd (k sg : Nat) (timed : Bool) : BitVec 512 := desc 0x12 [(1, 0, timed.toNat), (4, 0, 12), (16, 0, 9), (16, 20, k), (16, 24, sg)]

theorem wit_ProtectionCommandsEnter :
    (let g := wG; let s := withGroup (withDesc (wSw wPage) (dCmd 3 1 false)) g; s.dev.pwr.core = true ∧ groupOf s.dev 9 = some g ∧
      g.cfg.typ = 0 ∧ g.del = none ∧ g.pend = none ∧ g.wait = [] ∧ (∀ i ∈ g.inputs, i.up = false) ∧ g.cfg.holdOff ≠ 0 ∧
      g.cfg.revert = true ∧ g.lastReq ≠ 0xB ∧ g.lastReq ≠ 9 ∧ decides s.dev = true ∧ mirrors s.dev = false ∧
      servedBy s.dev 0 0x12 = some (qent (dCmd 3 1 false)) ∧ dF (dCmd 3 1 false) 16 20 4 = 3 ∧ dF (dCmd 3 1 false) 16 0 17 = 9 ∧
      reservedAt (dCmd 3 1 false) = none ∧ dF (dCmd 3 1 false) 16 24 4 = 1 ∧ cmdOk g 3 = true ∧ timedOf (dCmd 3 1 false) = false) ∧
    (let s := withGroup (withDesc (wSw wPage) (dCmd 0 0 false)) { wG with r := 1 }; servedBy s.dev 0 0x12 = some (qent (dCmd 0 0 false)) ∧
      reservedAt (dCmd 0 0 false) = none ∧ dF (dCmd 0 0 false) 16 20 4 = 0 ∧ cmdOk { wG with r := 1 } 0 = true) ∧
    (let s := withGroup (withDesc (wSw wPage) (dCmd 1 0 false)) wG; servedBy s.dev 0 0x12 = some (qent (dCmd 1 0 false)) ∧
      reservedAt (dCmd 1 0 false) = none ∧ dF (dCmd 1 0 false) 16 20 4 = 1 ∧ cmdOk wG 1 = true) ∧
    (let s := withGroup (withDesc (wSw wPage) (dCmd 2 1 true)) wG; servedBy s.dev 0 0x12 = some (qent (dCmd 2 1 true)) ∧
      reservedAt (dCmd 2 1 true) = none ∧ dF (dCmd 2 1 true) 16 20 4 = 2 ∧ dF (dCmd 2 1 true) 16 24 4 = 1 ∧ cmdOk wG 2 = true ∧
      timedOf (dCmd 2 1 true) = true ∧ wG.timed = none) ∧
    (let g : Group := { wG with cmd := some (1, 0), lastReq := 0xF }; (∃ x, g.cmd = some (1, x)) ∧ 7 < g.lastReq ∧ cmdOk g 2 = false) ∧
    (let g : Group := { wG with timed := some (2, 1, 0, 7, 12, true) }; g.timed = some (2, 1, 0, 7, 12, true) ∧ snDue 12 12 = true ∧
      cmdOk g 2 = true ∧ outranked g 2 = false ∧ outranked { g with lastReq := 0xF } 2 = true) := by
  refine ⟨by decide +kernel, by decide +kernel, by decide +kernel, by decide +kernel, ⟨⟨_, rfl⟩, by decide +kernel, by decide +kernel⟩, by decide +kernel⟩

/-- The protect lane's condition is SF under a hold-off timer of sweep 0 that has run out. -/
def wHo : State :=
  let s := wSw wPage
  { withGroup { s with dev := wr s.dev F.FRM_RX_STATUS_COND 2 2 } { wG with
      cfg := { wG.cfg with auto := true }, inputs := [{}, { cond := .sf, src := .sf, timer := some 0 }] } with sn := 61036 }

theorem wit_DecisionsApply :
    (let g : Group := { wG with pend := some ⟨1, 12, 7⟩ }; let s := { withGroup (wSw wPage) g with sn := 12 };
      s.dev.pwr.core = true ∧ groupOf s.dev 9 = some g ∧ g.cfg.typ = 0 ∧ g.del = none ∧ g.cfg.tid = none ∧ decides s.dev = true ∧
      mirrors s.dev = false ∧ snDue 12 s.sn = true ∧ g.wait = [] ∧ g.fop = false ∧ g.lsel = none ∧ (∀ u ∈ g.cfg.unit, (selAt s.dev u).hold = false)) ∧
    (let s := withSw (wSw wPage) fun w => { w with sel := [(uE, { promo := true })] }; (selAt s.dev uE).hold = true) ∧
    (let s := wHo; ∃ g, groupOf s.dev 9 = some g ∧ g.inputs = [{}, { cond := .sf, src := .sf, timer := some 0 }] ∧ g.cfg.holdOff ≠ 0 ∧
      holdOffSweeps g.cfg.holdOff ≤ (s.sn - 0).toNat ∧ defectSource s.dev g 1 = .sf ∧ g.cfg.auto = true ∧ g.cmd = none ∧ g.r = 0 ∧
      g.pend = none ∧ g.del = none ∧ g.cfg.tid = none ∧ decides s.dev = true ∧ mirrors s.dev = false) ∧
    (let g : Group := { wG with r := 1, lastReq := 5, wtr := some (1, 0) }; let s := { withGroup (wSw wPage) g with sn := 183105469 };
      groupOf s.dev 9 = some g ∧ g.wtr = some (1, 0) ∧ wtrSweeps g.cfg.wtr ≤ (s.sn - 0).toNat ∧ (∀ i ∈ g.inputs, i.up = false) ∧
      g.cfg.holdOff ≠ 0 ∧ g.cmd = none ∧ g.cfg.revert = true ∧ g.lastReq = 5 ∧ g.pend = none ∧ g.r ≠ 0) := by
  refine ⟨by decide +kernel, by decide +kernel, ⟨_, rfl, by decide +kernel⟩, by decide +kernel⟩

/-- A bidirectional group on lane 2, and the message of one entry for it: NR, both signals 0. -/
def wG1 : Group := { wG with cfg := { wG.cfg with typ := 1, tx := some 2, rx := some 2 }, r := 1 }
def pscMsg (req rs bs : Nat) : BitVec 80 := pscMake (BitVec.ofNat 30 (2 ^ 29 + 2 ^ 12 * 9 + 2 ^ 8 * req + 16 * rs + bs)) 0

theorem wit_SignallingChannel :
    (let g := wG1; let s := withGroup (wSw wPage) g; let m := pscMsg 0xE 1 1; s.dev.pwr.core = true ∧ groupOf s.dev 9 = some g ∧ g.del = none ∧
      mirrors s.dev = false ∧ g.cfg.typ = 1 ∧ g.cfg.tx = some 2 ∧ crc16 (msbBits (m.extractLsb' 16 64)) = m.extractLsb' 0 16 ∧
      m.extractLsb' 76 4 = 1#4 ∧ m.getLsbD 75 = true ∧ m.extractLsb' 58 17 = 9 ∧ m.getLsbD 45 = false ∧ g.cfg.rx = some (2 : Fin 128).val ∧
      (m.extractLsb' 54 4).toNat ∈ [0xF, 0xE, 0xD, 0xB, 9, 7, 5, 0] ∧ (m.extractLsb' 50 4).toNat ≤ 1 ∧ (m.extractLsb' 46 4).toNat ≤ 1 ∧
      g.loss = false ∧ g.fop = false) ∧
    (let m := pscMsg 0xE 1 1 + 1; m ≠ 0 ∧ crc16 (msbBits (m.extractLsb' 16 64)) ≠ m.extractLsb' 0 16) ∧
    (let h : BitVec 64 := 2#4 ++ (0 : BitVec 60); let m : BitVec 80 := h ++ crc16 (msbBits h);
      crc16 (msbBits (m.extractLsb' 16 64)) = m.extractLsb' 0 16 ∧ m.extractLsb' 76 4 ≠ 1#4) ∧
    (let g : Group := { wG1 with remote := some (0, 0, 0) }; g.cfg.typ = 1 ∧ g.fop = false ∧ g.remote = some (0, 0, 0) ∧ 0 ≠ g.r) ∧
    (let g : Group := { wG with cfg := { wG.cfg with typ := 2, lanes := [2, 3] }, bridge := 1, bridgeHold := true };
      groupOf (withGroup (wSw wPage) g).dev 9 = some g ∧ g.cfg.typ = 2 ∧ g.cfg.lanes = 2 :: [3] ∧ g.bridgeHold = true) := by
  decide +kernel

/-- A trigger word of `code` for entry 64·5 + 3 in cycle 5, with odd parity. -/
def trigWord (code : Nat) : BitVec 16 :=
  let w : BitVec 16 := BitVec.ofNat 16 (code * 8192 + 3 * 128 + 5 * 2)
  if oddParity w then w else w + 1
def wPtb (en : Nat) : State :=
  mk [(F.PTB_CFG_P0_EN, 0, 1), (F.PTB_CFG_P1_EN, 0, 0), (F.PTB_TBL_EN, 323, en), (F.PTB_TBL_SD_EN, 323, 0), (F.PTB_TBL_PGID, 323, 9),
    (F.PTB_TBL_COND, 323, 1), (F.PTB_TBL_REFRESH, 323, 2)]

/-- The same in the middle of a frame. -/
def wPtbMid : State :=
  { wPtb 1 with dev := { (wPtb 1).dev with prot := { (wPtb 1).dev.prot with cyc := 5, on := [true, false] } } }

theorem wit_TriggerBus :
    (let s := wPtb 1; let w := trigWord 3; s.dev.pwr.core = true ∧ s.dev.prot.stopped = false ∧ 5 < frameLen s.dev ∧
      s.dev.prot.lastAck.length = 2 ∧ s.dev.prot.cyc = 0 ∧
      rd s.dev F.PTB_CFG_P0_EN = 1 ∧ rd s.dev F.PTB_CFG_P1_EN = 0 ∧ (w.extractLsb' 13 3).toNat = 3 ∧ oddParity w = true ∧
      (w.extractLsb' 1 6).toNat = 5 ∧ 5 * 64 + (w.extractLsb' 7 6).toNat = 323 ∧ rd s.dev F.PTB_TBL_EN 323 ≠ 0 ∧
      groupOf s.dev (rd s.dev F.PTB_TBL_PGID 323) = none ∧ rd s.dev F.PTB_TBL_COND 323 ≠ 0 ∧ rd s.dev F.PTB_TBL_REFRESH 323 ≠ 0) ∧
    (¬ (wPtbMid.dev.prot.cyc = 0 ∨ 5 < wPtbMid.dev.prot.cyc) ∧ wPtbMid.dev.prot.on = [true, false]) ∧
    ((trigWord 0).extractLsb' 13 3).toNat = 0 ∧ 4 ≤ ((trigWord 4).extractLsb' 13 3).toNat ∧ rd (wPtb 0).dev F.PTB_TBL_EN 323 = 0 ∧
    (((trigWord 2).extractLsb' 13 3).toNat = 2 ∧ rd (wPtb 1).dev F.PTB_TBL_SD_EN 323 = 0) ∧
    { wPtb 1 with lock := true }.lock = true ∧ (wPtb 1).lock = false ∧ rd State.reset.dev F.PTB_TBL_COND 4095 = 0 := by
  decide +kernel

/-- Grain `uE` with slot 9 for its working and slot 10 for its protect source. -/
def wPage2 : CmPage :=
  { ing := [(2 * 4096 + 9, ingMk 7), (2 * 4096 + 10, ingMk 8)], cen := [(9 * 132 + 3, 2), (10 * 132 + 3, 2)], egr := [(uE, egrMk 9 10)] }
def dPgCreate : BitVec 512 := desc 0x10 [(16, 0, 9), (16, 20, 1), (24, 0, 100), (24, 14, 300), (36, 0, uE)]
def dPgDelete : BitVec 512 := desc 0x11 [(16, 0, 9)]

theorem wit_GroupsAndPool :
    (let s := withDesc (wSw wPage2) dPgCreate; let e := qent dPgCreate; let u := dF e.raw 36 0 20; s.dev.pwr.core = true ∧ mirrors s.dev = false ∧
      servedBy s.dev 0 0x10 = some e ∧ reservedAt e.raw = none ∧ dF e.raw 16 17 2 = 0 ∧ dB e.raw 16 19 = false ∧ dF e.raw 16 22 7 = 0 ∧
      dB e.raw 32 19 = false ∧ dF e.raw 24 0 14 ≤ 10000 ∧ dF e.raw 24 0 14 ≠ 0 ∧ dF e.raw 24 14 10 ≤ 720 ∧ decides s.dev = true ∧
      isGrain u = true ∧ portOf u < 128 ∧ unitInRange s.dev u = true ∧ inGroup s.dev u = false ∧ egrEn (egrAt (active s.dev) u) = true ∧
      wCs (egrAt (active s.dev) u) ≠ pCs (egrAt (active s.dev) u) ∧ groupOf s.dev 9 = none) ∧
    (groupOf (withGroup (wSw wPage2) { wG with cfg := { wG.cfg with unit := [] } }).dev 9).isSome = true ∧
    (let s := withGroup (withDesc (wSw wPage2) dPgDelete) wG; servedBy s.dev 0 0x11 = some (qent dPgDelete) ∧ reservedAt dPgDelete = none ∧
      groupOf s.dev (dF dPgDelete 16 0 17) = some wG ∧ wG.del = none ∧ wG.wait = [] ∧ wG.timed = none) := by
  decide +kernel

/-- An allocation of TID 5 that has ended, and one of the client of lane 0. -/
def wPool : State :=
  let s := wCli 0
  { s with dev := { s.dev with cli := { s.dev.cli with loess :=
    [{ owner := 5, six := [(0, 16)], ended := true, by' := some (0, 7) }, { owner := clientOwner 0, d16 := 64, m := 10, blk := [(0, 40)] }] } } }
/-- A group of an errorless pair: what Loess holds of both copies is 327.6 ns apart at offset 2. -/
def wPair (st : PairSt) (run : List Nat) : Group :=
  { wG with cfg := { wG.cfg with errorless := true, d16 := 32 }, pair := st, pairRun := run,
            heldW := [{ s := 12, n := 100, ns := 500, gs := [1] }], heldP := [{ s := 10, n := 100, ns := 827, gs := [1] }] }
/-- The pair aligned, with `bad` differing sweeps in a row and a differential delay of `diff` tenths of a ns. -/
def wPaired (bad : Nat) (diff : Int) : Group := { wPair .aligned [] with pairBad := bad, pairDiff := diff }

/-- A working copy on lanes 0 and 1, whose sweeps 4 and 5 arrived 100 ns apart. -/
def wMulti : Trib := { cfg := { ptype := 1, profile := 0, fine := false, role := 0, d16 := 64, m := 10, wl := [0, 2048] } }
def wSkew : State :=
  let s := withTrib (wFr 5 [(F.LNE_CFG_PERS, 1, 4), (F.LNE_CTL_RX_EN, 1, 1), (F.LNE_STATUS_LOS, 1, 0), (F.LNE_STATUS_CDR_LOCK, 1, 1),
    (F.FRM_RX_STATUS_FSTATE, 1, 2), (F.FRM_RX_STATUS_SN_LOCK, 1, 1), (F.FRM_RX_SN_SN, 1, 5), (F.FRM_RX_STATUS_COND, 1, 0)]) 5 wMulti
  let d := modFrm s.dev 0 fun f => { f with arr := [(5, 100, 50), (4, 99, 50)] }
  { s with sn := 100, dev := modFrm d 1 fun f => { f with arr := [(5, 100, 150), (4, 99, 150)] } }

/-- The arrivals of the one lane of the client of lane 0. -/
def wAt (ns : Nat) : List (Nat × Int) := [(0, 10 * (ns : Int))]

theorem wit_GroupsAndPool_pool :
    (∃ a, wPool.dev.cli.loess.find? (fun a => a.owner == 5 && a.ended) = some a ∧ a.by' = some (0, 7) ∧
      wPool.dev.cli.drain.any (fun x => x.2.1 == 5) = false) ∧
    (∃ a y, wPool.dev.cli.loess.find? (fun a => a.owner == clientOwner 0 && !a.ended) = some a ∧ tfind wPool.dev.cli.lanesAl 0 = none ∧
      (∀ x ∈ a.blk, dLos wPool.dev x.1 = false ∧ dLol wPool.dev x.1 = false) ∧
      ((a.blk.map (·.1)).zip [50]).map (fun x => (x.1, 10 * (x.2 : Int))) = wAt 50 ∧ [50].length = a.blk.length ∧
      measureOk wPool.dev (wAt 48) (wAt 50) = true ∧ measureOk wPool.dev [] (wAt 50) = false ∧
      acquire wPool.dev (wAt 50) a.d16 a.m = some y) := by
  refine ⟨⟨_, rfl, rfl, rfl⟩, ⟨_, _, rfl, rfl, by decide +kernel, rfl, rfl, by decide +kernel, by decide +kernel, rfl⟩⟩

theorem wit_GroupsAndPool_copy :
    (∃ t0 a, tribOf wSkew.dev 5 = some t0 ∧ t0.cfg.role = 0 ∧ copyMulti wSkew.dev t0 0 = true ∧ t0.al 0 = none ∧
      (∀ n ∈ copyLanes wSkew.dev t0 0, effCond wSkew.dev n ≠ .sf ∧ rd wSkew.dev F.FRM_RX_STATUS_SN_LOCK (subst wSkew.dev n) = 1) ∧
      acquireCopy wSkew.dev wSkew.sn t0 0 = some a) ∧
    ((0 : Int) ≤ 64540 ∧ ((64 : Nat) : Int) * 1024 < 64540 - 0 + 100 * (10 : Nat)) := by
  refine ⟨⟨_, _, rfl, rfl, by decide +kernel, rfl, by decide +kernel, rfl⟩, by decide⟩

theorem wit_GroupsAndPool_pairs :
    (let g := wPair .search [0, 0, 0, 0, 4]; groupOf (withGroup (wSw wPage2) g).dev 9 = some g ∧ g.pair ≠ .off ∧ g.pair ≠ .aligned ∧
      g.pairRun.zipIdx.filter (fun x => decide (4 ≤ x.1)) = [(4, 4)] ∧
      pairGap g ((4 : Int) - pairK g) = some (3270, 12, 10) ∧ (3270 : Int).natAbs ≤ g.cfg.d16 * 1024) ∧
    (wPair .search []).pairRun.zipIdx.filter (fun x => decide (4 ≤ x.1)) = [] ∧
    2 ≤ ((wPair .search [4, 0, 4, 0, 0]).pairRun.zipIdx.filter (fun x => decide (4 ≤ x.1))).length ∧
    (let g := wPaired 16 0; groupOf (withGroup (wSw wPage2) g).dev 9 = some g ∧ g.pair = .aligned ∧ 16 ≤ g.pairBad) ∧
    (wPaired 0 32769).cfg.d16 * 1024 < (wPaired 0 32769).pairDiff.natAbs ∧
    ((wPaired 15 32768).pairBad < 16 ∧ (wPaired 15 32768).pairDiff.natAbs ≤ (wPaired 15 32768).cfg.d16 * 1024) := by
  decide +kernel

/-! Twin operation -/

/-- A device in role `r` with coupling `c`, its link up or down. -/
def wTwin (r : Role) (link c : Nat) (more : List (Fld × Nat × Nat)) : State :=
  let s := wSw wPage
  { s with dev := { wrs s.dev ([(F.TWN_STATUS_LINK, 0, link), (F.TWN_STATUS_COUPLING, 0, c), (F.TWN_STATUS_ROLE, 0, r.code),
    (F.CLK_STATUS_XO_OK, 0, 1), (F.CLK_STATUS_APLL_LOCK, 0, 7)] ++ more) with
    twin := { s.dev.twin with role := r, latch := r == .active, tl := List.replicate 4 { st := 2, align := some 0, lock := true, sn := 7 } } } }
def onTw (s : State) (f : Twin → Twin) : State := { s with dev := { s.dev with twin := f s.dev.twin } }

/-- Chapter 9: at SN_now = 0xFFFF_FFFE, T = 1 is not acceptable to a coupled device, and E = 2. -/
theorem test_acceptable :
    (let s := wTwin .active 1 3 []; acceptable s.dev 0xFFFFFFFE 1 = false ∧ earliest s.dev 0xFFFFFFFE = 2) := by decide +kernel

theorem wit_RolesChangeAsTheTableStates :
    (let s := wTwin .active 1 3 []; let tw := s.dev.twin; s.dev.pwr.hbOff = false ∧ tw.role ≠ .failed ∧
      ¬ (tw.role = .disabled ∧ tw.latch = false) ∧ tw.latch = true ∧ tw.role = .active ∧ tw.swapHalf = false) ∧
    (let tw := State.reset.dev.twin; tw.role = .disabled ∧ tw.latch = false) ∧
    (let s := State.reset; s.dev.pwr.core = true ∧ s.lock = false ∧ rd s.dev F.TWN_CFG_EN = 0 ∧ s.dev.twin.role = .disabled) ∧
    (∀ r ∈ [Role.unpaired, .active, .standby, .failed], let s := wTwin r 0 0 [(F.TWN_CFG_EN, 0, 1)];
      s.lock = false ∧ rd s.dev F.TWN_CFG_EN = 1 ∧ s.dev.twin.role = r) ∧
    (let s := wTwin .unpaired 0 0 [(F.TWN_CFG_UNIT, 0, 1)]; s.dev.twin.role = .unpaired ∧ rd s.dev F.TWN_CFG_UNIT = 1 ∧ 20 ≤ 20) ∧
    (let s := wTwin .unpaired 0 0 [(F.TIM_STATUS_SEL, 0, 2)]; rd s.dev F.TWN_CFG_UNIT = 0 ∧ rd s.dev F.TIM_STATUS_SEL ≠ 8 ∧ ¬ 10 ≤ 9) := by
  decide +kernel

def dSwap : BitVec 512 := desc 0x70 [(1, 0, 1), (4, 0, 50)]

theorem wit_PromotionsAndRoleSwaps :
    (let s := wTwin .standby 1 3 []; s.dev.pwr.core = true ∧ s.dev.twin.role = .standby ∧ s.dev.pwr.hbOff = false ∧ ticking s.dev = true ∧
      s.dev.twin.promoting = none ∧ s.dev.pwr.st = .active) ∧
    (let s := onTw (wTwin .standby 1 0 []) fun t => { t with promoting := some (2, [3]) }; s.dev.twin.role = .standby ∧ s.dev.twin.promoting = some (2, [3]) ∧
      egrEn (egrAt (active s.dev) uE) = true ∧ [3].contains (portOf uE) = true ∧ [3].contains (portOf 0) = false) ∧
    (onTw (wTwin .active 1 3 []) fun t => { t with holdTmo := 1 }).dev.twin.holdTmo ≠ 0 ∧
    (wTwin .active 1 3 []).dev.twin.holdTmo = 0 := by
  decide +kernel

theorem wit_PromotionsAndRoleSwaps_swap :
    (let s := withDesc (wTwin .active 1 3 []) dSwap; servedBy s.dev 0 0x70 = some (qent dSwap) ∧ reservedAt dSwap = none ∧
      s.dev.twin.role = .active ∧ linkUp s.dev = true ∧ coupling s.dev = 3 ∧ (∀ n < 128, sigFlag s.dev n = false) ∧
      s.dev.tilth.prep = none ∧ s.dev.tilth.batch = none ∧ s.dev.twin.swap = none) ∧
    (let s := withDesc (wTwin .active 1 2 []) dSwap; servedBy s.dev 0 0x70 = some (qent dSwap) ∧ coupling s.dev ≠ 3) ∧
    (let s := { onTw (wTwin .active 1 3 []) fun t => { t with swap := some (0, 7, 50, false) } with sn := 50 };
      s.dev.twin.swap = some (0, 7, 50, false) ∧ snDue 50 s.sn = true ∧ s.dev.twin.role = .active) ∧
    (let s := wTwin .standby 1 3 []; s.dev.twin.swap = none ∧ follows s.dev = true ∧ coupling s.dev = 3) ∧
    (let s := { onTw (wTwin .active 1 3 []) fun t => { t with swap := some (0, 7, 50, true), swapHalf := true } with sn := 51 };
      s.dev.twin.swap = some (0, 7, 50, true) ∧ s.dev.twin.swapHalf = true ∧ snDue (50 + 1) s.sn = true ∧ s.dev.twin.role = .active) := by
  decide +kernel

/-- The mate's PAIR record: the other unit, the same policy. -/
def wMate (s : State) (unit : Bool) (pol : Nat) : PairRec :=
  { unit := unit, rev := 0, svn := 0, policy := BitVec.ofNat 32 (calPolicy s.dev + pol), nonce := 3 }
def wPairing (r : Role) (u : Bool) (pol : Nat) : State :=
  let s := wTwin r 0 0 [(F.TWN_CFG_EN, 0, 1)]
  onTw s fun t => { t with sent := true, gotPair := some (wMate s u pol) }

/-- The link is up, and R302's cause `c` holds. -/
def wBad (r : Role) (c : Nat) : State :=
  onTw (wTwin r 1 2 []) fun t => match c with
    | 0 => { t with tl := [{}] ++ t.tl.drop 1 } | 1 => { t with tl := [{ st := 2 }] ++ t.tl.drop 1 } | _ => { t with noSweep := 2 }

theorem wit_TwinsPairAndCompare :
    (let s := onTw (wTwin .standby 0 1 []) fun t => { t with paired := true }; s.dev.pwr.core = true ∧ s.dev.twin.paired = true ∧
      linkUp s.dev = false ∧ twAgree s.dev = true ∧ s.dev.twin.role = .standby ∧ xoGood s.dev = true) ∧
    (let s := onTw (wTwin .active 0 0 []) fun t => { t with paired := true }; s.dev.twin.paired = true ∧
      linkUp s.dev = false ∧ s.dev.twin.role = .active ∧ coupling s.dev = 0) ∧
    (∀ r ∈ [Role.standby, .active], ∀ c : Fin 3, let s := wBad r c; linkBad c s.dev = true ∧ linkUp s.dev = true ∧ 2 ≤ coupling s.dev ∧
      s.dev.twin.role = r) ∧
    (let s := wTwin .unpaired 0 0 []; s.dev.twin.role ≠ .disabled ∧ s.dev.twin.role ≠ .failed ∧ linkUp s.dev = false ∧
      twInFrame s.dev = true ∧ s.dev.twin.paired = false ∧ s.dev.twin.sent = false) ∧
    (let s := { wTwin .standby 1 3 [(F.LNE_CTL_TX_EN, 3, 1)] with sn := 8 };
      let s := onTw s fun t => { t with sigGot := false }; s.dev.twin.role = .standby ∧ linkUp s.dev = true ∧ s.dev.twin.sigGot = false ∧
      rd s.dev F.LNE_CTL_TX_EN 3 = 1 ∧ rd s.dev F.LNE_CTL_TX_EN 127 = 0 ∧ sigFlag s.dev 3 = false) := by
  decide +kernel

theorem plus_one_ne (x : BitVec 128) : x + 1 ≠ x := by
  intro h
  have := congrArg (· - x) h
  simp at this

theorem wit_TwinsPairAndCompare_auth :
    (∀ r ∈ [Role.unpaired, .active], let s := wPairing r true 0; let p := wMate s true 0; let tw := s.dev.twin;
      tw.role ≠ .disabled ∧ tw.role ≠ .failed ∧ linkUp s.dev = false ∧ twInFrame s.dev = true ∧ tw.gotPair = some p ∧ p.unit ≠ rdB s.dev F.TWN_CFG_UNIT ∧
      p.policy.toNat = calPolicy s.dev ∧ tw.role = r) ∧
    (let s := wPairing .unpaired false 0; s.dev.twin.gotPair = some (wMate s false 0) ∧ (wMate s false 0).unit = rdB s.dev F.TWN_CFG_UNIT) ∧
    (let s := wPairing .unpaired true 1; s.dev.twin.gotPair = some (wMate s true 1) ∧ (wMate s true 1).unit ≠ rdB s.dev F.TWN_CFG_UNIT ∧
      (wMate s true 1).policy.toNat ≠ calPolicy s.dev) ∧
    (∀ (d : Dev) (u : Bool) (a b : BitVec 64), pairResp d u a b + 1 ≠ pairResp d u a b) :=
  ⟨by decide +kernel, by decide +kernel, by decide +kernel, fun _ _ _ _ => plus_one_ne _⟩

/-- A standby in LOCKSTEP at SN 100 that expects record 5. -/
def wFollow : State :=
  { onTw (wTwin .standby 1 3 []) fun t => { t with seqIn := some 5, cfgIn := some 5 } with sn := 100 }
def wDec : DecisionRec := { pgid := 9, sel := 1, x := 103, top := 0xB, holdOff := [], wtr := none }
def wAck : State :=
  onTw (withTilth (withDesc (wTwin .active 1 3 [(F.TWN_CFG_AUTO_RESYNC, 0, 0)]) dDefect) fun t => { t with prep := some { members := [], timed := false, tsn := 0, target := some 103, seq := 4 } })
    fun t => { t with waits := [(6, 0, 7, 0, 0)] }

theorem wit_MirroredRecordsApply :
    (let s := wFollow; s.dev.pwr.core = true ∧ follows s.dev = true ∧ inTurn s.dev.twin.seqIn 5 = true ∧ inTurn s.dev.twin.seqIn 6 = false ∧
      s.dev.tilth.released = true ∧ s.dev.tilth.late = [] ∧ s.dev.tilth.fresh = false ∧ s.dev.tilth.prep = none ∧
      s.dev.twin.cfgWait = [] ∧ 2 ≤ ((102 : SN) - s.sn).toNat ∧ ¬ 2 ≤ ((101 : SN) - s.sn).toNat ∧
      inTurn s.dev.twin.cfgIn 5 = true ∧ inTurn s.dev.twin.cfgIn 6 = false ∧ opOf (dCmd 2 1 false) = 0x12 ∧
      groupOf s.dev (dF (dCmd 2 1 false) 16 0 17) = none) ∧
    (let s := withGroup wFollow wG; groupOf s.dev (dF (dCmd 2 1 false) 16 0 17) = some wG ∧ groupOf s.dev wDec.pgid.toNat = some wG ∧
      wG.pend = none ∧ wG.cfg.typ ≠ 2 ∧ wDec.sel.val ≠ wG.r ∧ follows s.dev = true) ∧
    (withTilth wFollow fun t => { t with prep := some { members := [], timed := true, tsn := 104 } }).dev.tilth.prep.isSome = true ∧
    (let s := wAck; s.dev.twin.role = .active ∧ (∃ c, s.dev.tilth.prep = some c ∧ c.target.isSome = true ∧ c.seq ≤ 4)) ∧
    (let s := withTilth wAck fun t => { t with prep := none }; s.dev.tilth.prep = none ∧ s.dev.twin.waits = [(6, 0, 7, 0, 0)] ∧ 6 ≤ 6 ∧ 5 < 6) ∧
    (let s := wAck; s.dev.twin.waits = (6, 0, 7, 0, 0) :: [] ∧ linkUp s.dev = true ∧ 2 ≤ coupling s.dev ∧ s.dev.twin.resync = none ∧
      rd s.dev F.TWN_CFG_AUTO_RESYNC = 0) := by
  refine ⟨by decide +kernel, by decide +kernel, rfl, ⟨rfl, _, rfl, rfl, by decide⟩, by decide +kernel, by decide +kernel⟩

def dResync (mode : Nat) : BitVec 512 := desc 0x71 [(16, 0, mode), (20, 0, 2 ^ 127)]

theorem wit_ResyncReachesLockstep :
    (let s := withDesc (wTwin .active 1 0 []) (dResync 0); s.dev.pwr.core = true ∧ servedBy s.dev 0 0x71 = some (qent (dResync 0)) ∧
      reservedAt (dResync 0) = none ∧ dB (dResync 0) 16 0 = false ∧ coupling s.dev = 0) ∧
    (∀ c ∈ [1, 2, 3], let s := withDesc (wTwin .active 1 c []) (dResync 0); servedBy s.dev 0 0x71 = some (qent (dResync 0)) ∧
      s.dev.twin.role = .active ∧ linkUp s.dev = true ∧ coupling s.dev = c ∧ s.dev.twin.resync = none ∧ resyncFree s.dev = true) ∧
    (let s := withDesc (wTwin .active 1 3 []) (dResync 1); servedBy s.dev 0 0x71 = some (qent (dResync 1)) ∧ reservedAt (dResync 1) = none ∧
      dB (dResync 1) 16 0 = true) ∧
    (∀ a ∈ [0, 1], let s := wTwin .active 1 1 [(F.TWN_CFG_AUTO_RESYNC, 0, a)]; s.dev.twin.role = .active ∧ s.dev.twin.swapHalf = false ∧
      linkUp s.dev = true ∧ coupling s.dev = 1 ∧ s.dev.twin.resync = none ∧ resyncFree s.dev = true ∧ rd s.dev F.TWN_CFG_AUTO_RESYNC = a) ∧
    (∀ n ∈ [0, 1], let s := onTw (wTwin .active 1 2 []) fun t => { t with resync := some [(0, 7)], resyncTmo := n };
      s.dev.twin.resync = some [(0, 7)] ∧ coupling s.dev = 2 ∧ linkUp s.dev = true ∧ s.dev.twin.resyncTmo = n) ∧
    (∀ n ∈ [15, 16], let s := onTw (wTwin .standby 1 2 []) fun t => { t with clean := n }; s.dev.twin.role = .standby ∧ linkUp s.dev = true ∧
      coupling s.dev = 2 ∧ s.dev.twin.clean = n ∧ s.dev.tilth.released = true ∧ s.dev.tilth.late = [] ∧ s.dev.tilth.fresh = false) ∧
    (let s := wTwin .active 1 3 [(F.TWN_CFG_AUTO_RESYNC, 0, 0)]; coupling s.dev ≠ 0 ∧ s.dev.twin.resync = none ∧ rd s.dev F.TWN_CFG_AUTO_RESYNC = 0) := by
  decide +kernel

/-! Rings, translation, arbitration and the scratchpad -/

/-- CMD0 and CPL0 active, bound to session slot 0 of class 1, with `more`. -/
def wRing (more : List (Fld × Nat × Nat)) : State :=
  mk ([(F.HIF_RING_STATUS_STATE, 0, 1), (F.HIF_RING_STATUS_STATE, 16, 1), (F.HIF_RING_STATUS_SESS, 0, 0), (F.HIF_RING_STATUS_SESS, 16, 0),
    (F.HIF_RING_CFG_EN, 0, 1), (F.HIF_RING_CFG_EN, 16, 1), (F.SEC_SESS_SLOT_CLASS, 0, 1), (F.HIF_RING_CFG_LOG2_SIZE, 0, 6)] ++ more)
def onHif (s : State) (f : Hif → Hif) : State := { s with dev := { s.dev with hif := f s.dev.hif } }
def onDma (s : State) (f : Dma → Dma) : State := { s with dev := { s.dev with dma := f s.dev.dma } }

theorem wit_DoorbellsMoveIndicesOrAreTurnedAway :
    (let s := wRing []; s.dev.pwr.core = true ∧ bound s.dev 0 = true ∧ rState s.dev 0 = 1 ∧ hostRing 0 = true ∧
      ((64 : Nat) + 2 ^ 32 - rP s.dev 0) % 2 ^ 32 < 2 ^ 31 ∧ (64 + 2 ^ 32 - rC s.dev 0) % 2 ^ 32 ≤ 2 ^ rLog2 s.dev 0 ∧
      2 ^ rLog2 s.dev 0 < (65 + 2 ^ 32 - rC s.dev 0) % 2 ^ 32) ∧
    (let s := wRing []; bound s.dev 16 = true ∧ rState s.dev 16 = 1 ∧ hostRing 16 = false ∧
      (2 ^ 31 - 1 + 2 ^ 32 - rC s.dev 16) % 2 ^ 32 < 2 ^ 31 ∧ 2 ^ 31 ≤ (2 ^ 31 + 2 ^ 32 - rC s.dev 16) % 2 ^ 32) ∧
    (let s := State.reset; bound s.dev 40 = false ∧ rState s.dev 40 = 0 ∧ (163840 : BitVec 18).toNat / 4096 = 40 ∧
      (163840 : BitVec 18).toNat % 4096 = 0 ∧ (167936 : BitVec 18).toNat / 4096 = 41) := by
  decide +kernel

theorem wit_RingLifecycle :
    (let s := wRing [(F.HIF_RING_STATUS_STATE, 0, 0)]; s.dev.pwr.core = true ∧ rState s.dev 0 = 0 ∧ rd s.dev F.HIF_RING_CFG_EN 16 = 1) ∧
    (let s := State.reset; rState s.dev 40 = 0 ∧ s.dev.pm.trc = [] ∧ rd s.dev F.HIF_RING_CFG_EN 31 = 0) ∧
    rState (wRing [(F.HIF_RING_STATUS_STATE, 0, 4)]).dev 0 = 4 := by
  decide +kernel

def wFetch : State := { wRing [(F.HIF_RING_PIDX, 0, 1)] with lock := true }
/-- A fetched descriptor on CMD0 bound to a session of class `cl`. -/
def wFetched (raw : BitVec 512) (cl : Nat) (sb : Bool) : State :=
  let s := wRing [(F.SEC_SESS_SLOT_CLASS, 0, cl)]
  let s : State := { s with dev := modRing s.dev 0 fun x => { x with q := [{ idx := 0, uid := 7, raw := raw }] } }
  if sb then { s with dev := { s.dev with twin := { s.dev.twin with role := .standby } } } else s

theorem wit_FetchAndDispatch :
    (let s := wFetch; s.dev.pwr.core = true ∧ s.lock = true ∧ entering s.dev = false ∧ rState s.dev 0 = 1 ∧ bound s.dev 0 = true ∧
      rHeld s.dev 0 ≠ 0 ∧ frozen s.dev = false ∧ s.dev.dma.retry.contains 0 = false ∧
      (rC s.dev 0 + 2 ^ 32 - rC s.dev 16) % 2 ^ 32 < 2 ^ rLog2 s.dev 16 ∧ rState s.dev 16 ≠ 2 ∧ dmaOk s.dev (recAddr s.dev 0 (rC s.dev 0)) false = true) ∧
    (let e : QEnt := { idx := 0, uid := 7, raw := desc 0x7F [(1, 1, 1)] }; let s := wFetched e.raw 1 true; rState s.dev 0 = 1 ∧
      (ringOf s.dev 0).q.find? (fun e => e.ph == .fetched) = some e ∧ fenceOf e.raw = true ∧ (ringOf s.dev 0).q.head? = some e ∧
      rd s.dev F.HIF_RING_STATUS_SESS 0 ≠ 15 ∧ opOf e.raw ∈ opcodes ∧ admits s.dev (rd s.dev F.SEC_SESS_SLOT_CLASS 0) 0x7F = true ∧
      isStandby s.dev = true ∧ opOf e.raw ∈ [0x30, 0x31, 0x32, 0x7E, 0x7F]) ∧
    (let s : State := { wFetched 0 1 false with dev := wr (wFetched 0 1 false).dev F.HIF_RING_STATUS_SESS 0 15 };
      rd s.dev F.HIF_RING_STATUS_SESS 0 = 15 ∧ (ringOf s.dev 0).q.find? (fun e => e.ph == .fetched) = some { idx := 0, uid := 7, raw := 0 }) ∧
    0 ∉ opcodes ∧
    (let s := wFetched (desc 1 []) 2 false; admits s.dev (rd s.dev F.SEC_SESS_SLOT_CLASS 0) 1 = false ∧ 1 ∈ opcodes) ∧
    (let s := wFetched (desc 0x10 []) 0 false; let s : State := { s with dev := { s.dev with sec := { s.dev.sec with logical := [(3, (1, 16, 3))] } } };
      admits s.dev (rd s.dev F.SEC_SESS_SLOT_CLASS 0) 0x10 = true ∧ opOf (desc 0x10 []) = 0x10 ∧ dB (desc 0x10 []) 16 21 = false ∧ calPolicy s.dev / 16 % 2 = 1) ∧
    (let s := wFetched (desc 1 []) 1 true; admits s.dev (rd s.dev F.SEC_SESS_SLOT_CLASS 0) 1 = true ∧ isStandby s.dev = true ∧
      1 ∉ [0x30, 0x31, 0x32, 0x7E, 0x7F]) := by
  decide +kernel

/-- CMD0 whose oldest descriptor is served. -/
def wDone : State :=
  { wRing [] with dev := modRing (wRing []).dev 0 fun x => { x with q := [{ idx := 5, uid := 7, raw := desc 0x7F [], ph := .done 0 0 9 0 0 }] } }

theorem wit_DescriptorsComplete :
    (let s := withDesc (wRing []) (desc 0x7F []); s.dev.pwr.core = true ∧ servedBy s.dev 0 0x7F = some (qent (desc 0x7F [])) ∧
      reservedAt (desc 0x7F []) = none) ∧
    (let s := withDesc (wRing []) (desc 0x7F [(63, 7, 1)]); servedBy s.dev 0 0x7F = some (qent (desc 0x7F [(63, 7, 1)])) ∧
      reservedAt (desc 0x7F [(63, 7, 1)]) = some 60) ∧
    nextFor .fw (ringOf (withDesc (wRing []) dDefine).dev 0).q = some (qent dDefine) ∧
    (let s := wDone; entering s.dev = false ∧ (ringOf s.dev 0).q = [{ idx := 5, uid := 7, raw := desc 0x7F [], ph := .done 0 0 9 0 0 }] ∧
      0 ≤ s.dev.hif.evOut ∧ (ringOf s.dev 16).lost = false ∧ canWrite s.dev 16 = true) := by
  decide +kernel

/-- An event for EVT0. -/
def wEv (more : List (Fld × Nat × Nat)) : State :=
  onHif (wRing ([(F.HIF_RING_STATUS_STATE, 32, 1), (F.HIF_EVT_ROUTE, 0, 0)] ++ more)) fun h => { h with evq := [{ typ := 0x45, sn := 3, p0 := 1 }] }
def wFold : State := { wEv [] with dev := modRing (wEv []).dev 32 fun x => { x with folds := [⟨0x45, 2, 1, 2, 0⟩] } }

theorem wit_RecordsAndMessages :
    (let s := wEv []; s.dev.pwr.core = true ∧ s.dev.hif.evq = [{ typ := 0x45, sn := 3, p0 := 1 }] ∧ frozen s.dev = false ∧
      32 + (rd s.dev F.HIF_EVT_ROUTE >>> (2 * (0x45 / 16 % 16))) % 4 = 32 ∧ rState s.dev 32 = 1 ∧ rRoom s.dev 32 = true ∧
      (ringOf s.dev 32).folds = [] ∧ dmaOk s.dev (recAddr s.dev 32 (rP s.dev 32)) true = true) ∧
    (let s := wEv [(F.HIF_RING_PIDX, 32, 64)]; rState s.dev 32 = 1 ∧ rRoom s.dev 32 = false) ∧
    (let s := wFold; rState s.dev 32 = 1 ∧ rRoom s.dev 32 = true ∧ (ringOf s.dev 32).folds = [⟨0x45, 2, 1, 2, 0⟩] ∧ canWrite s.dev 32 = true ∧
      hostRing 32 = false) ∧
    (let s := wRing [(F.HIF_RING_WB_LO, 0, 64)]; let s : State := { s with dev := modRing s.dev 0 fun x => { x with wbDue := true } };
      rd s.dev F.HIF_RING_WB_LO 0 + 2 ^ 32 * rd s.dev F.HIF_RING_WB_HI 0 = 64 ∧ hostRing 0 = true ∧ (ringOf s.dev 0).wbDue = true ∧
      frozen s.dev = false ∧ rState s.dev 0 = 1 ∧ dmaOk s.dev 64 true = true) ∧
    (let s := wRing [(F.HIF_RING_CFG_MOD_CNT, 16, 2), (F.HIF_RING_CFG_MOD_TIME, 16, 3), (F.HIF_RING_CFG_VEC, 16, 63), (F.MSIX_CTL, 63, 0)];
      let s : State := { s with dev := modRing s.dev 16 fun x => { x with since := 1 } };
      hostRing 16 = false ∧ rd s.dev F.HIF_RING_CFG_MOD_TIME 16 ≠ 0 ∧ 1 ≤ (ringOf s.dev 16).since ∧
      (ringOf s.dev 16).since < max 1 (rd s.dev F.HIF_RING_CFG_MOD_CNT 16) ∧ rd s.dev F.MSIX_CTL 63 = 0) := by
  decide +kernel

/-- A translation of page 0x5000 for ring 0. -/
def wTrans (ring : Option (Fin 41)) (stale rw : Bool) : TransCpl := { ring := ring, stale := stale, addr := 0x5008, size := 0, base := 0x9000, r := rw, w := rw, u := false }
def wAts (f : Dma → Dma) : State := onDma (wRing []) fun x => f { x with enable := true }

theorem wit_TranslationsServeAccesses :
    (let s := wAts id; s.dev.pwr.core = true ∧ s.dev.dma.enable = true ∧ (wTrans none true true).stale = true ∧
      (wTrans none false true).stale = false ∧ (wTrans none false true).ring = none ∧ (wTrans none false true).r = true ∧
      (ringOf s.dev 0).held = none ∧ rState s.dev 0 = 1) ∧
    (let s := wAts id; let c := wTrans (some 0) false true; (c.u || (if needsW s.dev 0 0x5000 then c.w else c.r)) = true) ∧
    (let s := wAts id; let c := wTrans (some 0) false false; (c.u || (if needsW s.dev 0 0x5000 then c.w else c.r)) = false ∧
      s.dev.dma.rspFail = false ∧ s.dev.dma.pri = false) ∧
    (let s := wAts fun x => { x with pri := true, succ := [(0, 2)] }; s.dev.dma.pri = true ∧ tget 0 s.dev.dma.succ 0 < 3 ∧ s.dev.dma.rspFail = false ∧
      s.dev.dma.reqs.length < 512 ∧ s.dev.dma.reqs = []) ∧
    3 ≤ tget 0 (wAts fun x => { x with pri := true, succ := [(0, 3)] }).dev.dma.succ 0 := by
  decide +kernel

/-- Ring 0 waits for page 0x5000. -/
def wPri : State := onDma (wRing [(F.HIF_RING_STATUS_STATE, 0, 2), (F.HIF_ATS_CFG_PRI_TMO, 0, 5)]) fun x =>
  { x with enable := true, pri := true, reqs := [{ page := 0x5000, w := false, rings := [0] }], inval := 1, retry := [3], second := [16] }

theorem wit_PageResponsesAndReadRetries :
    (let s := wPri; s.dev.pwr.core = true ∧ (∀ x ∈ s.dev.dma.reqs, x.sent = true) ∧ s.dev.dma.reqs.filter (fun x => x.page == 0x5000) ≠ [] ∧
      rd s.dev F.HIF_ATS_CFG_PRI_TMO ≠ 0 ∧ 0 < s.dev.dma.inval ∧ 3 ∈ s.dev.dma.retry ∧
      rState s.dev 0 = 2 ∧ 0 ∉ s.dev.dma.second ∧ rState s.dev 16 = 1 ∧ 16 ∈ s.dev.dma.second) ∧
    (∀ q : Fin 41, (ringOf wPri.dev q).held = none) := by
  decide +kernel

def wArb (mode : Nat) : State := onDma (wRing [(F.ARB_STATUS_MODE, 0, mode)]) fun x => { x with credit := #v[1, 0, 0, 0, 0, 0, 0, 5], choice := some 7 }
def wGrant (acc : Bool) : GrantIn := { ready := 1, ats := true, accept := acc, bytes := 65, write := true }

theorem wit_ArbiterGrantsAndFreezes :
    (let s := wArb 1; s.dev.pwr.core = true ∧ rd s.dev F.ARB_STATUS_MODE = 1 ∧ frozen s.dev = false ∧ s.dev.dma.occ = 0 ∧ s.dev.dma.served[0] < 41 ∧ rState s.dev 0 = 1 ∧ 64 < (wGrant true).bytes ∧
      (wGrant true).ready.getLsbD 0 = true ∧ s.dev.dma.backoff[0] = 0 ∧ 0 < s.dev.dma.credit[0] ∧ s.dev.dma.last = 7 ∧
      (0 + 7 - s.dev.dma.last.val) % 8 = 0) ∧
    (let s := wArb 0; rd s.dev F.ARB_STATUS_MODE = 0 ∧ s.dev.dma.choice = some 7 ∧ (wGrant true).ats = true ∧ s.dev.dma.occ = 0 ∧ s.dev.dma.backoff[7] = 0 ∧
      ({ wGrant true with ats := false } : GrantIn).ats = false) ∧
    (let s := wArb 0; s.dev.dma.link = true ∧ s.dev.dma.bme = true ∧ rd s.dev F.ARB_CTL_FREEZE = 0) ∧
    rd (wRing [(F.ARB_CTL_FREEZE, 0, 1)]).dev F.ARB_CTL_FREEZE ≠ 0 ∧ frozen (wRing [(F.ARB_STATUS_FROZEN, 0, 1)]).dev = true := by
  decide +kernel

theorem wit_Bar2StoresAndReturnsBytes :
    State.reset.dev.pwr.core = true ∧ (4194303 : BitVec 22).toNat + [some (5 : BitVec 8)].length ≤ 2 ^ 22 ∧
    (4194303 : BitVec 22).toNat + 1 ≤ 2 ^ 22 ∧ plainC { word := 524287, op := .write 5 0xFF } = true ∧
    spOpen State.reset.dev 0 = false ∧
    (let pc := List.replicate 1024 ({ word := 524287, op := .read } : PortC);
      (pc.filter fun x => (spWords 4194303 1).contains x.word).length = 1024) := by
  refine ⟨?_, ?_, ?_, ?_, ?_, ?_⟩ <;> decide +kernel
theorem wit_AtomicsReturnOldValue :
    let s := State.reset; (4194296 : BitVec 22).toNat % 8 = 0 ∧ spOpen s.dev 4194296 = true ∧ s.dev.pwr.core = true ∧
      (spEcc [] [4194296 / 8] s).sp.bad.contains (4194296 / 8) = false ∧ (4194297 : BitVec 22).toNat % 8 ≠ 0 ∧
      spOpen s.dev 0 = false := by
  decide +kernel
theorem wit_ScratchpadStaysCanonical :
    Memory.wf State.reset.sp.mem = true ∧ Memory.wf [(3, 5), (4194303, 1)] = true ∧
    ∃ t, step { State.reset with sp := { mem := [(3, 5), (4194303, 1)] } } = .next t := ⟨by decide, by decide, _, rfl⟩

/-! Boot, firmware update, the device SN and the set-up lock -/

/-- A public key on P-384: 0x1234567 times the base point (computed outside the model). -/
def wPub : List (BitVec 8) :=
  beBytes (0x7ae9e1db1160794c70c1ef071be5191f6c66240f4608fbe8a44ecd36c3ed5db97500f2e4d84e3fb45850fd6f4303302b : BitVec 384) ++
  beBytes (0xd8ac21444cd80d241538d8034b399a0dee3636eb5cb00b9499d061a571db0f14bb47ed79453948ed63f3a6ccbbf6e74f : BitVec 384)
/-- Bytes 0 to 47 of an image header of Table 18-8: SVN 3, LEN 336, state versions 0 to 9, root 0. -/
def wHead : List (BitVec 8) :=
  [0x44, 0x4D, 0x50, 0x4C, 1, 0, 3, 0, 0x50, 1, 0, 0, 0, 0, 9, 0] ++ List.replicate 32 0
/-- A signature of that header, r then s (computed outside the model). -/
def wSig : List (BitVec 8) :=
  beBytes (0x8568a35a879b0d506132993c6d911d3136a731409ab8c5d26fd7a01e81425281453a6c6adf4cd2f38c77a5042815ea48 : BitVec 384) ++
  beBytes (0xd920a90c1bcad79140114fc2a5fcba0f727b4696fac043143d22b90a7313f42ed4a774b25e7ac0ad41fe5223d3e166f9 : BitVec 384)
def wImg : List (BitVec 8) := wHead ++ wPub ++ wSig ++ List.replicate 96 0
/-- Root 0 holds SHA-384 of that key (computed outside the model), byte 0 in the low bits of word 56. -/
def wRoot : List (Nat × Nat × W32 × Nat) :=
  [(56, 1, 0x9b33849, 56), (57, 1, 0x500ecaef, 57), (58, 1, 0x49f9b9ca, 58), (59, 1, 0x49d84ab, 59), (60, 1, 0x6a675a5c, 60), (61, 1, 0x903616c0, 61),
   (62, 1, 0x7a2a82ab, 62), (63, 1, 0x6d9194e, 63), (64, 1, 0x292c7950, 64), (65, 1, 0xf45b3c35, 65), (66, 1, 0x14331f46, 66), (67, 1, 0x70026395, 67)]
def onSec (s : State) (f : Sec → Sec) : State := { s with dev := { s.dev with sec := f s.dev.sec } }
def onCtl (s : State) (f : Ctl → Ctl) : State := { s with dev := { s.dev with ctl := f s.dev.ctl } }
/-- A device with root 0 programmed. -/
def wBoot (more : List (Fld × Nat × Nat)) : State := onSec (mk more) fun x => { x with logical := wRoot }

/-- SHA-384 and ECDSA P-384 accept the signature of the header above, and refuse it where the security version or the root
differs (R472). -/
theorem test_image_verifies : verifyImg (rootOf (wBoot []).dev) (svnFloor (wBoot []).dev) 336 wImg = 0 := by decide +kernel
theorem test_image_without_root : verifyImg (rootOf State.reset.dev) 0 336 wImg = 1 := by decide +kernel
theorem test_image_below_floor : verifyImg (rootOf (wBoot []).dev) 4 336 wImg = 2 := by decide +kernel

/-- The XO stable and APLL0 locked: sweeps tick. -/
def wTick : State := mk [(F.CLK_STATUS_XO_OK, 0, 1), (F.CLK_STATUS_APLL_LOCK, 0, 1)]

theorem wit_SnMovesOnlyWithTheTick :
    (∀ b : Bool, let s : State := { wTick with ticked := b }; s.dev.pwr.core = true ∧ ticking s.dev = true ∧ s.ticked = b) ∧
    (resetsDevice .perfSnap = false ∧ (∀ x, Instr.perfSnap ≠ .sweepTick x) ∧ (∀ p a n, Instr.perfSnap ≠ .pairAuth p a n) ∧
      ∃ t, exec .perfSnap wTick = .next t) :=
  ⟨by decide +kernel, by decide, (fun _ => nofun), (fun _ _ _ => nofun), ⟨_, rfl⟩⟩

theorem wit_SetupLockHolds :
    wTick.dev.pwr.core = true ∧
    (let s : State := { wTick with lock := true }; s.lock = true ∧ resetsDevice .glbSetupLock = false ∧ ∃ t, exec .glbSetupLock s = .next t) :=
  ⟨by decide +kernel, rfl, by decide, _, rfl⟩

theorem wit_OnlyWindowFaults :
    exec (.bar2Read 4194303 2 [] []) State.reset = .fault .outsideWindow ∧
    exec (.bar2Write 4194303 [some 1, none] ⟨[], []⟩) State.reset = .fault .outsideWindow := ⟨rfl, rfl⟩

/-- A pushed image of 336 bytes waits in the staging region at STAGE 0x2. -/
def wPushed (img : List (BitVec 8)) : State :=
  { wBoot [(F.CTL_BOOT_STAGE, 0, 2), (F.CTL_BOOT_LEN, 0, 336)] with sp := stageImg img {} }

/-- Both cores in state `st` with running watchdogs. -/
def wCores (st : Nat) : State :=
  onCtl (mk [(F.CTL_CORE_STATUS_C0_STATE, 0, st), (F.CTL_CORE_STATUS_C1_STATE, 0, st)]) fun c => { c with wdt := [9, 9] }

/-- The ROM searches the flash again while CAL_POLICY.PUSH_DIS = 1. -/
def wPushDis : State :=
  let s := onCtl (wBoot []) fun c => { c with flashA := true }
  { s with dev := { s.dev with sec := { s.dev.sec with logical := tput (0, 0, 0) s.dev.sec.logical 3 (1, 64, 3) } } }

theorem wit_BootAndCoreSupervision :
    (let s := wBoot []; s.dev.pwr.core = true ∧ inRom s.dev = true ∧ rd s.dev F.CTL_BOOT_STAGE = 0 ∧ pushDis s.dev = false ∧
      verifyImg (rootOf s.dev) (svnFloor s.dev) wImg.length wImg = 0 ∧ s.dev.ctl.flashA = false ∧
      verifyImg (rootOf s.dev) (svnFloor s.dev) 0 [] ≠ 0) ∧
    rd (mk [(F.CTL_BOOT_STAGE, 0, 1)]).dev F.CTL_BOOT_STAGE = 1 ∧
    (let s := wPushDis; s.dev.pwr.core = true ∧ inRom s.dev = true ∧ rd s.dev F.CTL_BOOT_STAGE = 0 ∧ pushDis s.dev = true) ∧
    (let s := wPushed []; inRom s.dev = true ∧ rd s.dev F.CTL_BOOT_STAGE = 2 ∧
      verifyImg (rootOf s.dev) (svnFloor s.dev) (rd s.dev F.CTL_BOOT_LEN) (stagedBytes s.sp (min (rd s.dev F.CTL_BOOT_LEN) 0x100000)) ≠ 0) ∧
    (∀ st ∈ [2, 3], let s := wCores st;
      ∀ c : Fin 2, (s.dev.ctl.wdt[c.val]?).getD 0 ≠ 0 ∧
        rd s.dev (if c.val = 0 then F.CTL_CORE_STATUS_C0_STATE else F.CTL_CORE_STATUS_C1_STATE) = st ∧ rd s.dev F.DBG_CTL_WDT_HALT = 0) ∧
    (let s := onCtl (mk [(F.CTL_CORE_STATUS_C0_STATE, 0, 4)]) fun c => { c with act := some (0, 7, 3) };
      s.dev.ctl.act ≠ none ∧ rd s.dev F.CTL_CORE_STATUS_C0_STATE = 4) := by
  decide +kernel

theorem wit_BootAndCoreSupervision_pushed :
    let s := wPushed wImg; inRom s.dev = true ∧ rd s.dev F.CTL_BOOT_STAGE = 2 ∧
      verifyImg (rootOf s.dev) (svnFloor s.dev) (rd s.dev F.CTL_BOOT_LEN) (stagedBytes s.sp (min (rd s.dev F.CTL_BOOT_LEN) 0x100000)) = 0 := by
  decide +kernel

/-- An FW_STAGE descriptor with ACTION `act` and LEN `len`. -/
def dFw (act len : Nat) : BitVec 512 := desc 0x7E [(24, 0, len), (28, 0, act)]
def wFw (act : Nat) : State := let s := withDesc (wRing []) (dFw act 336)
  onSec s fun x => { x with logical := wRoot }
/-- The same with firmware state version 10, which the image does not accept. -/
def wFw10 : State := onCtl (wFw 1) fun c => { c with stateVer := 10 }

/-- Both cores restart while the descriptor waits. -/
def wRestart : State :=
  let s := wFw 0
  onCtl { s with dev := wrs s.dev [(F.CTL_CORE_STATUS_C0_STATE, 0, 4), (F.CTL_CORE_STATUS_C1_STATE, 0, 4)] } fun c => { c with act := some (0, 7, 3) }

theorem wit_FirmwareUpdateRestartsCores :
    (∀ act : Fin 2, let s := wFw act.val; let e := qent (dFw act.val 336); s.dev.pwr.core = true ∧ fwDesc s.dev 0 act.val = some e ∧
      reservedAt e.raw = none ∧ dF e.raw 24 0 32 = 336) ∧
    (let s := wFw 1; verifyImg (rootOf s.dev) (svnFloor s.dev) 336 wImg = 0 ∧ verBad s.dev (imgSvn wImg, imgStates wImg) = false ∧
      verBad wFw10.dev (imgSvn wImg, imgStates wImg) = true ∧ verifyImg (rootOf s.dev) (svnFloor s.dev) 336 [] ≠ 0) ∧
    (let s := onCtl (wFw 2) fun c => { c with staged := some (3, 0, 9) }; fwDesc s.dev 0 2 = some (qent (dFw 2 336)) ∧
      reservedAt (dFw 2 336) = none ∧ s.dev.ctl.staged = some (3, 0, 9) ∧ verBad s.dev (3, 0, 9) = false) ∧
    (let s := wRestart; s.dev.ctl.act = some (0, 7, 3) ∧
      rd s.dev F.CTL_CORE_STATUS_C0_STATE = 4 ∧ rd s.dev F.CTL_CORE_STATUS_C1_STATE = 4) := by
  decide +kernel

/-! Timing and clocks -/

def wTim (more : List (Fld × Nat × Nat)) (f : Tim → Tim) : State :=
  let s := mk ([(F.CLK_STATUS_XO_OK, 0, 1), (F.CLK_STATUS_APLL_LOCK, 0, 1)] ++ more)
  { s with dev := { s.dev with tim := f s.dev.tim } }
/-- An active twin for which CLK_NMI is a failure. -/
def wClkFail : State :=
  let s := wTim [(F.TWN_CFG_FAIL_MASK, 0, 1), (F.TWN_CFG_EN, 0, 1)] id
  onTw s fun t => { t with role := .active, latch := true }

theorem wit_ClockSourcesAndMonitors :
    (let s := State.reset; s.dev.pwr.core = true ∧ rdB s.dev F.CLK_STATUS_XO_OK = false ∧ 6963 ≤ min 6963 6997 ∧ max 6963 6997 ≤ 9421 ∧
      1000 * (max 6963 6997 - min 6963 6997) ≤ 5 * min 6963 6997 ∧ min 6962 6963 < 6963 ∧ 9421 < max 9421 9422 ∧
      5 * min 6963 6998 < 1000 * (max 6963 6998 - min 6963 6998)) ∧
    (let s := wTim [(F.TWN_CFG_FAIL_MASK, 0, 0)] id; rdB s.dev F.CLK_STATUS_XO_OK = true ∧ rdB s.dev F.CLK_STATUS_XO_LOSS = false ∧
      (rd s.dev F.CLK_STATUS_APLL_LOCK).testBit 2 = false ∧ (rd s.dev F.TWN_CFG_FAIL_MASK).testBit 0 = false) ∧
    (let s : State := mk [(F.CLK_STATUS_XO_OK, 0, 1)]; rdB s.dev F.CLK_STATUS_XO_OK = true ∧
      (rd s.dev F.CLK_STATUS_APLL_LOCK).testBit 0 = false) ∧
    ((rd wClkFail.dev F.TWN_CFG_FAIL_MASK).testBit 0 = true ∧ wClkFail.dev.twin.role = .active) := by
  decide +kernel

/-- A phase step series with `r` ps left, due at SN 4. -/
def wStep (r : Int) : State :=
  { wTim [(F.TIM_PSTEP_STATUS_BUSY, 0, 1)] fun t => { t with ps := some { remain := r, size := r, ivl := 3, next := 4, late := false } } with sn := 4 }

theorem wit_ClocksPhaseStepsAndPulses :
    (∀ f ∈ [F.CLK_STATUS_SYS_RESCUE, F.CLK_STATUS_PER_RESCUE], (let s := wTim [(f, 0, 1)] id; s.dev.pwr.core = true ∧ rdB s.dev f = true) ∧
      rdB State.reset.dev f = false) ∧
    (let s := wTim [(F.CLK_FCNT_CTL_SRC, 0, 15), (F.CLK_FCNT_CTL_REF, 0, 1)] id; rd s.dev F.CLK_FCNT_CTL_SRC < 16 ∧
      (rdB s.dev F.CLK_FCNT_CTL_REF = true → rdB s.dev F.CLK_STATUS_XO_OK = true)) ∧
    16 ≤ rd (wTim [(F.CLK_FCNT_CTL_SRC, 0, 16)] id).dev F.CLK_FCNT_CTL_SRC ∧
    (let s := mk [(F.CLK_FCNT_CTL_REF, 0, 1)]; rdB s.dev F.CLK_FCNT_CTL_REF = true ∧ rdB s.dev F.CLK_STATUS_XO_OK = false) ∧
    rdB (wTim [(F.CLK_FCNT_STATUS_BUSY, 0, 1)] id).dev F.CLK_FCNT_STATUS_BUSY = true ∧
    rdB (wStep 64).dev F.TIM_PSTEP_STATUS_BUSY = true ∧
    (∀ n ∈ [2, 2 ^ 31 - 1], let s := wTim [(F.TIM_PSTEP_SN, 0, n), (F.TIM_PSTEP_SIZE, 0, 2 ^ 21 - 1)] id;
      rdB s.dev F.TIM_PSTEP_STATUS_BUSY = false ∧ 2 ≤ (BitVec.ofNat 32 (rd s.dev F.TIM_PSTEP_SN) - s.sn).toNat ∧
      (BitVec.ofNat 32 (rd s.dev F.TIM_PSTEP_SN) - s.sn).toNat < 2 ^ 31) ∧
    (∀ n ∈ [1, 2 ^ 31], let s := wTim [(F.TIM_PSTEP_SN, 0, n)] id;
      ¬ (2 ≤ (BitVec.ofNat 32 (rd s.dev F.TIM_PSTEP_SN) - s.sn).toNat ∧ (BitVec.ofNat 32 (rd s.dev F.TIM_PSTEP_SN) - s.sn).toNat < 2 ^ 31)) ∧
    (∀ r ∈ [64, -64, 65, -65, (0 : Int)], let s := wStep r;
      s.dev.tim.ps = some { remain := r, size := r, ivl := 3, next := 4, late := false } ∧ snDue 4 s.sn = true) ∧
    ((64 : Int) < 65 ∧ (1 : Int) = 65 - 64 ∧ (-65 : Int) < -64 ∧ (-1 : Int) = -65 + 64 ∧ (-64 : Int).natAbs ≤ 64) ∧
    (let s := wTim [(F.TIM_PPS_OUT_EN, 0, 1)] id; rdB s.dev F.TIM_PPS_OUT_EN = true ∧ s.dev.tim.stopped.getLsbD 5 = false ∧
      rdB State.reset.dev F.TIM_PPS_OUT_EN = false) ∧
    apll1Runs (wTim [] id).dev = true ∧ apll1Runs State.reset.dev = false := by
  decide +kernel

/-- Slot 3 on REFIN1 with DISQ_PPM 12 and REQ_PPM 9. -/
def wRefin (wtr : Nat) (x : Cand) (q : Nat) : State :=
  wTim [(F.TIM_CAND_EN, 3, 1), (F.TIM_CAND_SRC, 3, 0x81), (F.TIM_CAND_STATUS_QUAL, 3, q), (F.TIM_CFG2_DISQ_PPM, 0, 12), (F.TIM_CFG2_REQ_PPM, 0, 9),
    (F.TIM_CAND_WTR, 3, wtr), (F.TIM_CAND_STATUS_QL, 3, 0), (F.TIM_CAND_QL_HOST, 3, 0), (F.TIM_CFG_QL_EN, 0, 0)] fun t => { t with cands := [(3, x)] }

theorem wit_CandidatesQualify :
    (let s := wRefin 5 {} 1; (s.dev.pwr.core = true ∧ rdB s.dev F.TIM_CAND_EN 3 = true ∧ candSrc s.dev 3 = 0x81 ∧
      rd s.dev F.TIM_CAND_STATUS_QL 3 = candQl s.dev 3) ∧ candQual s.dev 3 = true ∧ candConds s.dev 3 = 0) ∧
    (min (rd (wRefin 5 {} 1).dev F.TIM_CFG2_DISQ_PPM) 50 = 12 ∧ min (rd (wRefin 5 {} 1).dev F.TIM_CFG2_REQ_PPM) 12 = 9 ∧
      100 * 12 < (BitVec.ofInt 24 (-1201)).toInt.natAbs ∧ (900 : BitVec 24).toInt.natAbs ≤ 100 * 9 ∧
      100 * 9 < (1200 : BitVec 24).toInt.natAbs ∧ (1200 : BitVec 24).toInt.natAbs ≤ 100 * 12) ∧
    (let s := wRefin 5 { ofs := true, okWin := 1, cond := 4 } 0; (candRec s.dev 3).ofs = true ∧ (candRec s.dev 3).okWin < 2) ∧
    (∀ w ∈ [0, 5], let s := wRefin w { ofs := true, okWin := 2, cond := 4 } 0; (candRec s.dev 3).ofs = true ∧ 2 ≤ (candRec s.dev 3).okWin ∧
      candConds s.dev 3 = 4 ∧ (candRec s.dev 3).cond = 4 ∧ candQual s.dev 3 = false ∧ (candRec s.dev 3).wtr = false ∧ rd s.dev F.TIM_CAND_WTR 3 = w) ∧
    (let s := wRefin 5 { wtr := true, last := 3 } 0; (candRec s.dev 3).wtr = true ∧ candConds s.dev 3 = 0 ∧ (candRec s.dev 3).cond = 0 ∧
      candQual s.dev 3 = false) ∧
    (let s := wRefin 5 { act := true, cond := 2 } 0; 128 ≤ candSrc s.dev 3 ∧ candConds s.dev 3 = 2 ∧ (candRec s.dev 3).cond = 2 ∧
      candQual s.dev 3 = false ∧ rd s.dev F.TIM_CAND_WTR 3 ≠ 0) ∧
    candSrc (mk [(F.TIM_CAND_EN, 3, 1), (F.TIM_CAND_SRC, 3, 127)]).dev 3 < 128 := by
  decide +kernel

/-- Own selection `old` in DPLL state `st`; candidates 0, 1 and 2 as `q` says, with QLs 4, 4 and 8 and PRIOs 5, 2 and 0. -/
def wSel (old st mode force revert hv : Nat) (q : Nat → Nat) : State :=
  wTim [(F.TIM_STATUS_SEL, 0, old), (F.TIM_STATUS_STATE, 0, st), (F.TIM_CFG_MODE, 0, mode), (F.TIM_CFG_FORCE, 0, force), (F.TIM_CFG_REVERT, 0, revert),
    (F.TIM_CFG_QL_EN, 0, 1), (F.TIM_CFG_OPTION, 0, 0), (F.TIM_STATUS_HO_VALID, 0, hv), (F.TIM_CAND_STATUS_QL, 0, 4), (F.TIM_CAND_STATUS_QL, 1, 4), (F.TIM_CAND_STATUS_QL, 2, 8),
    (F.TIM_CAND_PRIO, 0, 5), (F.TIM_CAND_PRIO, 1, 2), (F.TIM_CAND_STATUS_QUAL, 0, q 0), (F.TIM_CAND_STATUS_QUAL, 1, q 1),
    (F.TIM_CAND_STATUS_QUAL, 2, q 2), (F.TIM_CFG_OWN_QL, 0, 0xB), (F.TIM_HO_SPEC, 0, 100)] fun t => { t with sel := old, st := st }

theorem wit_ReferenceSelectionAndHoldover :
    (∀ old ∈ [0, 1, 2, 15], ∀ st ∈ [0, 1, 2, 3], ∀ mode ∈ [0, 1, 2, 3], ∀ force ∈ [2, 8], let s := wSel old st mode force 1 1 fun _ => 1;
      s.dev.pwr.core = true ∧ rdB s.dev F.CLK_STATUS_XO_OK = true ∧ rdB s.dev F.CLK_STATUS_XO_LOSS = false ∧ linked s.dev = false ∧
      rd s.dev F.TIM_STATUS_SEL = s.dev.tim.sel ∧ rd s.dev F.TIM_STATUS_STATE = s.dev.tim.st ∧ rd s.dev F.TIM_CFG_MODE = mode ∧
      rd s.dev F.TIM_CFG_FORCE = force) := by
  decide +kernel

theorem wit_ReferenceSelectionAndHoldover_choice :
    candQual (wSel 0 2 0 2 1 1 fun _ => 1).dev 2 = true ∧ candQual (wSel 0 2 0 2 1 1 fun _ => 0).dev 2 = false ∧
    (let s := wSel 0 2 0 8 1 1 fun _ => 0; ∀ i < 8, ¬ (i < 8 ∧ candQual s.dev i = true)) ∧
    (let s := wSel 0 2 0 8 1 1 fun _ => 1; candKey s.dev 1 = (1, 2) ∧ candKey s.dev 0 = (1, 5) ∧ candKey s.dev 2 = (2, 0) ∧
      candQual s.dev 1 = true ∧ ∀ j < 8, candQual s.dev j = true → j ≠ 1 → candKey s.dev j = (1, 5) ∨ candKey s.dev j = (2, 0)) ∧
    (let s := wTim [(F.TIM_STATUS_STATE, 0, 3), (F.TIM_STATUS_SEL, 0, 15), (F.TIM_STATUS_HO_SPEC_RUN, 0, 1)] fun t => { t with st := 3 };
      rdB s.dev F.TIM_STATUS_HO_SPEC_RUN = true ∧ s.dev.tim.st = 3) ∧
    (let s : State := { wTim [(F.TIM_STATUS_SEL, 0, 15)] fun t => { t with hoLeft := some 9 } with sn := 9 }; rdB s.dev F.TIM_STATUS_HO_SPEC_RUN = false ∧
      s.dev.tim.hoLeft = some s.sn) := by
  decide +kernel

/-! Monitoring and management channels -/

def onPmS (s : State) (f : Pm → Pm) : State := { s with dev := { s.dev with pm := f s.dev.pm } }
/-- PM_CONFIG of one object. -/
def dPm (kind obj en : Nat) : BitVec 512 := desc 0x30 [(16, 0, kind), (20, 0, obj), (24, 0, en), (28, 0, 30), (32, 0, 26 + 32), (36, 0, 7)]
def wPm (raw : BitVec 512) : State := withDesc (mk [(F.PMN_TIME_SEC_OF_DAY, 0, 1800), (F.PMN_DAY_DAY, 0, 5)]) raw
/-- 4096 monitored objects: the bins are used up. -/
def wPmFull : State := onPmS (wPm (dPm 2 0 1)) fun p => { p with objs := (List.range 4096).map fun i => (cntKey 2 (i + 1) 0, {}) }

theorem wit_PmObjectsCountersAndTags :
    (∀ en ∈ [0, 1], let s := wPm (dPm 1 127 en); let e := qent (dPm 1 127 en); s.dev.pwr.core = true ∧ servedBy s.dev 0 0x30 = some e ∧
      reservedAt e.raw = none ∧ dF e.raw 16 0 16 = 1 ∧ dF e.raw 20 0 32 = 127 ∧ dB e.raw 24 0 = decide (en = 1) ∧ dF e.raw 24 1 31 = 0 ∧
      dF e.raw 32 0 5 ≤ 26 ∧ dF e.raw 32 6 26 = 0 ∧ (∀ i : Fin 6, dF e.raw (40 + 4 * i.val) 0 32 = 0) ∧
      tfind s.dev.pm.objs (cntKey 1 127 0) = none ∧ s.dev.pm.objs.length < 4096) ∧
    (∀ p ∈ [(0, 1), (7, 1), (1, 128), (2, 0x200000), (6, 0x20000)], let r := dPm p.1 p.2 1; servedBy (wPm r).dev 0 0x30 = some (qent r) ∧ reservedAt r = none) ∧
    (tfind (onPmS (wPm (dPm 1 127 1)) fun p => { p with objs := [(cntKey 1 127 0, {})] }).dev.pm.objs (cntKey 1 127 0)).isSome = true ∧
    (let p := (onPmS (mk []) fun p => { p with tagCfg := 0x20, tagAge := 1 }).dev.pm; p.tagCfg.getLsbD 5 = true ∧
      2 ^ min (p.tagCfg.extractLsb' 0 5).toNat 20 ≤ p.tagAge) ∧ State.reset.dev.pm.tagCfg.getLsbD 5 = false := by
  decide +kernel

theorem wit_PmObjectsCountersAndTags_full :
    4096 ≤ wPmFull.dev.pm.objs.length ∧ tfind wPmFull.dev.pm.objs (cntKey 2 0 0) = none ∧ servedBy wPmFull.dev 0 0x30 = some (qent (dPm 2 0 1)) := by
  decide +kernel

def dDump (new : Nat) : BitVec 512 := desc 0x31 [(16, 0, 1), (16, 1, new), (16, 8, 0x1F), (20, 0, 0), (24, 0, 77)]
def mDump : Dump := { ring := 0, idx := 7, pmd := 1, bins := 1, next := 0, id := 77 }
def mNext (k : Nat) : Dump := { mDump with next := k }
def atSn (s : State) (n : SN) : State := { s with sn := n }
def bDump : Bin := { cnt := [(0, 4)], idx := 2, suspect := true }
/-- A dump of bin 0 of two objects on PMD1, with `more`. -/
def wDump (m : Dump) (more : List (Fld × Nat × Nat)) : State :=
  let s := withDesc (mk ([(F.HIF_RING_STATUS_STATE, 37, 1), (F.HIF_RING_STATUS_SESS, 37, 0)] ++ more)) (dDump 1)
  onPmS s fun p => { p with dump := some m, snap := some (9, [(1, 127, 0, bDump), (2, 5, 0, {}), (2, 5, 1, {})]) }

theorem wit_PmDumpsCopyBins :
    (∀ new ∈ [0, 1], let s := withDesc (mk []) (dDump new); let e := qent (dDump new); s.dev.pwr.core = true ∧ servedBy s.dev 0 0x31 = some e ∧
      reservedAt e.raw = none ∧ dF e.raw 16 13 3 = 0 ∧ s.dev.pm.dump = none ∧ dB e.raw 16 1 = decide (new = 1) ∧ s.dev.pm.snap = none) ∧
    (let s := atSn (wDump { mDump with at' := some 4 } []) (4);
      s.dev.pm.dump = some { mDump with at' := some 4 } ∧ (s.dev.pm.dump.bind Dump.at') = some 4 ∧ snDue 4 s.sn = true ∧ s.dev.pm.queue = [] ∧ snDue (secStop s.dev) s.sn = false) ∧
    (∀ k ∈ [0, 1], let m := mNext k; let s := wDump m []; s.dev.pm.dump = some m ∧ m.pmd = 1 ∧ m.at' = none ∧ m.omit' = none ∧
      (s.dev.pm.snap.map (·.1)) = some 9 ∧ (dumpRecs s.dev m).length = 2 ∧ ((dumpRecs s.dev m)[k]?).isSome = true ∧
      canWrite s.dev 37 = true) ∧
    (let s := wDump mDump [(F.HIF_RING_PIDX, 37, 64)]; rState s.dev 37 = 1 ∧ rRoom s.dev 37 = false) ∧
    (let m := { mDump with omit' := some 3 }; let s := wDump m []; s.dev.pm.dump = some m ∧ m.omit' = some 3 ∧ canWrite s.dev 37 = true) := by
  refine ⟨?_, ?_, ?_, ?_, ?_⟩ <;> decide +kernel

def dAlign (sod : Nat) : BitVec 512 := desc 0x32 [(16, 0, 100), (20, 0, sod)]
/-- A second from SN 10 that is over, in PM_TIME `tod`, with the accumulator at `acc`. -/
def wSecond (acc tod : Nat) (ready : Nat) : State :=
  let s := mk [(F.PMN_TIME_SEC_OF_DAY, 0, tod), (F.PMN_DAY_DAY, 0, 2 ^ 17 - 1), (F.CTL_CORE_STATUS_FW_READY, 0, ready), (F.CTL_CORE_STATUS_C1_STATE, 0, 2)]
  { onPmS s fun p => { p with acc := acc, secLen := 610351, secStart := 10 } with sn := 610361 }
def xSec (stop : SN) : Second :=
  { start := 10, stop := stop, tod := 6, day := 5, nextTod := 7, nextDay := 5, inc := [(cntKey 1 3 0, 4)], conds := List.replicate 128 0 }

theorem wit_PmSecondsAndAnchors :
    (∀ acc ∈ [6, 7], ∀ tod ∈ [86398, 86399], ∀ ready ∈ [0, 1], let s := wSecond acc tod ready; s.dev.pwr.core = true ∧
      snDue (s.dev.pm.secStart + BitVec.ofNat 32 s.dev.pm.secLen) s.sn = true ∧ s.dev.pm.acc = acc ∧ rd s.dev F.PMN_TIME_SEC_OF_DAY = tod ∧
      core1Runs s.dev = decide (ready = 1)) ∧
    (let s := atSn (wSecond 6 0 0) (610360); snDue (s.dev.pm.secStart + BitVec.ofNat 32 s.dev.pm.secLen) s.sn = false) ∧
    (let s := atSn (onPmS (wSecond 6 0 0) fun p => { p with queue := [xSec 10, xSec 610361] }) (9765635);
      s.dev.pm.queue = [xSec 10] ++ [xSec 610361] ∧ [xSec 10].head? = some (xSec 10) ∧ [xSec 10].length = 1 ∧
      ∀ y ∈ [xSec 10], 9765625 ≤ (s.sn - y.stop).toNat) ∧
    (∀ p ∈ [(85500, 1), (86400, 2 ^ 32 - 2 ^ 31 + 200), (899, 1)], let s := atSn (withDesc (mk []) (dAlign p.1)) (BitVec.ofNat 32 p.2);
      servedBy s.dev 0 0x32 = some (qent (dAlign p.1)) ∧ reservedAt (dAlign p.1) = none ∧ s.dev.pm.anchor = none ∧ dF (dAlign p.1) 20 0 17 = p.1) ∧
    acceptable (mk []).dev 1 100 = true ∧ acceptable (mk []).dev 200 100 = false ∧
    (∀ late : Bool, let s := atSn (onPmS (withDesc (mk []) (dAlign 900)) fun p => { p with anchor := some (100, 900, 0, 7, late) }) (100);
      s.dev.pm.anchor = some (100, 900, 0, 7, late) ∧ snDue 100 s.sn = true) ∧
    (let s := onPmS (wSecond 6 0 1) fun p => { p with queue := [xSec 610361] }; core1Runs s.dev = true ∧ s.dev.pm.queue = [xSec 610361]) ∧
    (let s := mk [(F.LNE_CTL_RX_EN, 3, 1), (F.LNE_CFG_PERS, 3, 1)]; rd s.dev F.LNE_CTL_RX_EN 3 = 1 ∧ isGlf (persOf s.dev 3) = true ∧
      rd s.dev F.LNE_CTL_RX_EN 4 = 0) := by
  refine ⟨?_, ?_, ?_, ?_, ?_, ?_, ?_, ?_⟩ <;> decide +kernel

def dRoute (c tx dest : Nat) : BitVec 512 := desc 0x50 [(16, 0, c), (16, 8, tx), (20, 0, dest)]
/-- MDC-A and MDC-B of lane 3, and the ring MCX. -/
def wChan (raw : BitVec 512) (tab : List (Nat × Chan)) (more : List (Fld × Nat × Nat)) : State :=
  let s := withDesc (mk ([(F.LNE_CFG_PERS, 3, 1), (F.HIF_RING_STATUS_STATE, 39, 1), (F.HIF_RING_STATUS_STATE, 38, 1), (F.HIF_RING_STATUS_SESS, 38, 0),
    (F.HIF_RING_PIDX, 38, 1)] ++ more)) raw
  { s with lock := true, dev := { s.dev with chans := tab } }
def wWords (n : Nat) : List (Word20 × Bool × SN) := (List.range n).map fun i => (BitVec.ofNat 20 i, false, 5)

/-- Channel 7 routed to port 2 both ways, with `n` words to transmit. -/
def wPort (n : Nat) : State :=
  wChan 0 [(7, { rx := 2, tx := 2, rxq := wWords 3, txq := List.replicate n 0 })]
    [(F.PMN_MSP_STATUS_CHAN, 2, 7), (F.PMN_MSP_STATUS_RX_ROUTED, 2, 1), (F.PMN_MSP_STATUS_TX_ROUTED, 2, 1)]

theorem wit_ChannelsCarryWords :
    (∀ p ∈ [(7, 1, 31), (7, 0, 16), (7, 1, 15), (8, 0, 3)], let r := dRoute p.1 p.2.1 p.2.2; let s := wChan r [] []; s.dev.pwr.core = true ∧
      servedBy s.dev 0 0x50 = some (qent r) ∧ reservedAt r = none ∧ dF r 16 0 8 = p.1 ∧ dF r 20 0 5 = p.2.2) ∧
    (let s := wChan 0 [] []; chanHere s.dev 7 = true ∧ chanHere s.dev 8 = false ∧ mirrors s.dev = false ∧ portTaken s.dev 7 15 true = false ∧
      portTaken s.dev 7 15 false = false ∧ chanFits s.dev 7 15 = true ∧ chanFits (wChan 0 [] [(F.PMN_MSP_CFG_DIV, 15, 1)]).dev 7 15 = false) ∧
    (let s := wChan 0 [(9, { tx := 15 })] []; portTaken s.dev 7 15 true = true ∧ portTaken s.dev 7 15 false = false) ∧
    mirrors (onTw (wChan 0 [] [(F.TWN_STATUS_COUPLING, 0, 3), (F.TWN_STATUS_LINK, 0, 1)]) fun t => { t with role := .active }).dev = true ∧
    (∀ n ∈ [15, 16], let s := wPort n;
      s.dev.prot.stopped = false ∧ rd s.dev F.PMN_MSP_STATUS_CHAN 2 = 7 ∧ rd s.dev F.PMN_MSP_STATUS_TX_ROUTED 2 = 1 ∧
      rd s.dev F.PMN_MSP_STATUS_RX_ROUTED 2 = 1 ∧ (chanOf s.dev 7).rxq = (0, false, 5) :: (wWords 3).drop 1 ∧ (chanOf s.dev 7).lossUp = false ∧
      (chanOf s.dev 7).txq.length = n) ∧
    rd (wChan 0 [] [(F.PMN_MSP_STATUS_TX_ROUTED, 2, 1)]).dev F.PMN_MSP_STATUS_RX_ROUTED 2 = 0 ∧
    (∀ n ∈ [12, 13], let s := wChan 0 [(7, { rx := 16, rxq := wWords n })] []; (chanOf s.dev 7).rx = 16 ∧ (chanOf s.dev 7).rxq ≠ [] ∧
      12 ≤ (chanOf s.dev 7).rxq.length ∧ canWrite s.dev 39 = true) ∧
    (let s := wChan 0 [(7, { rx := 16, rxq := wWords 1 })] [(F.HIF_RING_STATUS_STATE, 39, 2)]; rState s.dev 39 = 2 ∧ (chanOf s.dev 7).rxq ≠ [] ∧
      s.dev.pm.mcx = []) ∧
    (let s := wChan 0 [(7, { rx := 16, rxq := wWords 1 })] [(F.ARB_STATUS_FROZEN, 0, 1)]; rState s.dev 39 = 1 ∧ frozen s.dev = true ∧
      s.dev.pm.mcx = []) := by
  refine ⟨?_, ?_, ?_, ?_, ?_, ?_, ?_, ?_⟩ <;> decide +kernel

theorem wit_ChannelsCarryWords_mct :
    ∀ n ∈ [4, 5], let raw : BitVec 512 := desc 7 [(0, 8, 12)]; let s := wChan raw [(7, { tx := 16, txq := List.replicate n 0 }), (6, {})] [];
      s.lock = true ∧ rState s.dev 38 = 1 ∧ bound s.dev 38 = true ∧ rHeld s.dev 38 ≠ 0 ∧ frozen s.dev = false ∧
      dmaOk s.dev (recAddr s.dev 38 (rC s.dev 38)) false = true ∧ dF raw 0 0 8 = 7 ∧ min 12 (dF raw 0 8 4) = 12 ∧
      (chanOf s.dev 7).tx = 16 ∧ (chanOf s.dev 7).txq.length = n ∧ (chanOf s.dev 6).tx ≠ 16 := by
  decide +kernel

/-! Sessions, SMBus and fuses -/

/-- Every class key is usable, and so is SMBus generation 1, of which `wPwd` is the password. -/
def wPwd : List (BitVec 8) := [1, 2, 3, 4, 5, 6, 7, 8]
def wCal : List (Nat × Nat × W32 × Nat) :=
  (List.range 48).map (fun i => (8 + i, (1, BitVec.ofNat 32 (77 * i), 8 + i))) ++
  (List.range 12).map (fun i => (112 + i, (1, if i < 4 then 9 else leWord (sha256 (((List.range 16).map fun k => if k % 4 = 0 then 9#8 else 0#8) ++ wPwd)) (i - 4), 112 + i)))
def wSess (st : Nat) (f : Sec → Sec) : State :=
  onSec (mk [(F.SEC_SESS_STATUS_STATE, 0, st), (F.CTL_CORE_STATUS_FW_READY, 0, 1), (F.CTL_CORE_STATUS_C0_STATE, 0, 2)]) fun x => f { x with logical := wCal }
/-- OPEN of class `cls` for CMD1 and CPL1. -/
def wReq (cls : Fin 8) (m : BitVec 64) (x : Sec) : Sec := { x with exCls := cls, exMask := m, exHn := 5 }
/-- A challenge of class 1 for slot 0 whose right answer stands in SEC_SESS_RESP. -/
def wAnswer (good : Bool) : State :=
  let s := wSess 2 fun x => { wReq 1 2 x with exNd := 9 }
  let s : State := { s with dev := wr s.dev F.SEC_SESS_STATUS_SLOT 0 0 }
  onSec s fun x => { x with resp := if good then (List.range 8).map fun w => (w, leWord (proof ((classKey s.dev 1).getD []) 0x48 9 5 1 0 2) w) else [] }

theorem wit_SessionsOpenByProof :
    (∀ st ∈ [0, 1, 2, 3, 4], let s := wSess st id; s.dev.pwr.core = true ∧ rd s.dev F.SEC_SESS_STATUS_STATE = st ∧ secRuns s.dev = true) ∧
    5 ≤ (wSess 1 (wReq 5 0)).dev.sec.exCls.val ∧
    classKey State.reset.dev 1 = none ∧ (classKey (wSess 1 id).dev 1).isSome = true ∧
    2 ^ 41 ≤ (wSess 1 (wReq 1 (2 ^ 41))).dev.sec.exMask.toNat ∧
    (wSess 1 fun x => { wReq 1 2 x with locked := #v[true, true, true, true, true, true, true, true] }).dev.sec.locked[1] = true ∧
    (let s := wSess 1 (wReq 1 2); s.dev.sec.exCls.val < 4 ∧ s.dev.sec.exMask.toNat < 2 ^ 41 ∧
      (∀ r : Fin 41, (pairMask s.dev.sec.exMask).getLsbD r = true → bound s.dev r = false) ∧ rd s.dev F.SEC_SESS_SLOT_OPEN 14 = 0 ∧
      s.dev.sec.locked[s.dev.sec.exCls] = false ∧ s.dev.sec.exFuse = false ∧ (pairMask s.dev.sec.exMask).getLsbD 38 = false) := by
  refine ⟨?_, ?_, ?_, ?_, ?_, ?_, ?_⟩ <;> decide +kernel

theorem wit_SessionsOpenByProof_answer :
    (let s := wAnswer true; rd s.dev F.SEC_SESS_STATUS_STATE = 2 ∧ secRuns s.dev = true ∧
      ∀ w : Fin 8, tget 0 s.dev.sec.resp w.val =
        leWord (proof ((classKey s.dev s.dev.sec.exCls).getD []) 0x48 s.dev.sec.exNd s.dev.sec.exHn s.dev.sec.exCls (rd s.dev F.SEC_SESS_STATUS_SLOT) s.dev.sec.exMask) w) ∧
    (let s := wAnswer false; tget 0 s.dev.sec.resp 0 ≠
        leWord (proof ((classKey s.dev s.dev.sec.exCls).getD []) 0x48 s.dev.sec.exNd s.dev.sec.exHn s.dev.sec.exCls (rd s.dev F.SEC_SESS_STATUS_SLOT) s.dev.sec.exMask) 0) ∧
    (let s := onSec (mk [(F.SEC_SESS_CLOSE_TOKEN, 0, 6)]) fun x => { x with tokens := [(14, 6), (3, 7)] };
      tfind s.dev.sec.tokens 14 = some 6 ∧ rd s.dev F.SEC_SESS_CLOSE_TOKEN = (6 : W32).toNat ∧ rd s.dev F.SEC_SESS_CLOSE_TOKEN ≠ (7 : W32).toNat ∧
      tfind s.dev.sec.tokens 15 = none) := by
  decide +kernel

theorem wit_SmbusServesTheBoard :
    (let s := wSess 0 id; 8 ≤ wPwd.length ∧ wPwd.length ≤ 32 ∧ fieldOk s.dev (96 + 16 * 1) 12 = true ∧
      (∀ h : Fin 4, 1 < h → fieldOk s.dev (96 + 16 * h.val) 12 = false) ∧
      sha256 (fieldBytes s.dev (96 + 16 * 1) 4 ++ wPwd) = fieldBytes s.dev (100 + 16 * 1) 8 ∧ s.dev.sec.smbLock = false ∧ s.dev.sec.smbOpen = false) ∧
    (let s := wSess 0 fun x => { x with smbLock := true, smbOpen := true }; s.dev.pwr.core = true ∧ s.dev.sec.smbLock = true ∧ s.dev.sec.smbOpen = true) ∧
    ¬ 8 ≤ (wPwd.drop 1).length ∧
    smbWrites 0x200010 = false ∧ implemented 0x200010 = true ∧ implemented 0x3FFFFFC = false ∧ smbWrites 0x3FFFFFC = false ∧
    (F.PWR_WAKE_TMR.addr 0 + 3) / 4 * 4 = F.PWR_WAKE_TMR.addr 0 ∧ (F.PWR_TEMP_CFG_WARN.addr 0) / 4 * 4 = F.PWR_TEMP_CFG_WARN.addr 0 := by
  decide +kernel

/-- An ADMIN session with FUSE = 1 asks to program word 100; `fs` are the physical words. -/
def wFuse (busy : Nat) (fs : List (Nat × BitVec 64)) : State :=
  onSec (mk [(F.SEC_SESS_SLOT_OPEN, 14, 1), (F.SEC_SESS_SLOT_FUSE, 14, 1), (F.SEC_SESS_SLOT_CLASS, 14, 0), (F.SEC_FUSE_IDX, 0, 100),
    (F.SEC_FUSE_PROG_DATA, 0, 0x12345678), (F.SEC_FUSE_STATUS_BUSY, 0, busy)]) fun x => { x with fuses := fs }
/-- Firmware runs version 5 over a floor of 0; SVN_AUTO = `auto`, and the SVN words of `fs` are used. -/
def wSvn (auto : Nat) (fs : List Nat) : State :=
  onSec (mk [(F.CTL_CORE_STATUS_FW_READY, 0, 1), (F.CTL_CORE_STATUS_C0_STATE, 0, 2), (F.CTL_CORE_STATUS_SVN, 0, 5)]) fun x =>
    { x with logical := [(3, (1, BitVec.ofNat 32 (32 * auto), 3))], fuses := fs.map fun i => (i, 1) }

theorem wit_FusesAndFloor :
    (let s := wFuse 1 []; s.dev.pwr.core = true ∧ rd s.dev F.SEC_FUSE_STATUS_BUSY = 1) ∧
    (∀ k ∈ [0, 1, 2], let s := wFuse 0 (((List.range k).map fun i => (if i = 0 then 100 else 255 + i, 1)));
      rd s.dev F.SEC_FUSE_STATUS_BUSY = 0 ∧ fuseErr s.dev 100 0x12345678 = 0 ∧ decide (tget 0 s.dev.sec.fuses 100 = 0) = decide (k = 0)) ∧
    (fuseSess State.reset.dev = [] ∧ fuseErr State.reset.dev 0 0 ≠ 0) ∧
    (let s := onSec (wFuse 1 []) fun x => { x with prog := some (100, 256, 9) }; s.dev.sec.prog = some (100, 256, 9)) ∧
    (let s := onSec (wFuse 1 []) fun x => { x with progBad := some (100, 3) }; s.dev.sec.prog = none ∧ s.dev.sec.progBad = some (100, 3)) ∧
    (∀ auto ∈ [0, 1], let s := wSvn auto [160]; secRuns s.dev = true ∧ floorNow s.dev < rd s.dev F.CTL_CORE_STATUS_SVN ∧ s.dev.sec.prog = none ∧
      (calPolicy s.dev).testBit 5 = decide (auto = 1) ∧ tget 0 s.dev.sec.fuses 160 ≠ 0 ∧ tget 0 s.dev.sec.fuses 161 = 0 ∧
      (fuseResolve s.dev 161).1 = 0) ∧
    (let s := wSvn 1 ((List.range 64).map (160 + ·)); ∀ k : Fin 64, tget 0 s.dev.sec.fuses (160 + k.val) ≠ 0) ∧
    (let s := onSec (mk []) fun x => { x with logical := [(2, (1, 3, 2))] }; secLocked s.dev = true ∧ dbgMode s.dev = 1 ∧
      secLocked State.reset.dev = false) := by
  refine ⟨?_, ?_, ?_, ?_, ?_, ?_, ?_, ?_⟩ <;> decide +kernel

/-! Power and health -/

def onPw (s : State) (f : Pwr → Pwr) : State := { s with dev := { s.dev with pwr := f s.dev.pwr } }
/-- ORDER 0 for rails 0 to 2, 1 for rail 3, 9 (as 5) for the others. -/
def wRails (f : Pwr → Pwr) : State :=
  onPw (mk [(F.PWR_SEQ_ORDER, 0, 0), (F.PWR_SEQ_ORDER, 1, 0), (F.PWR_SEQ_ORDER, 2, 0), (F.PWR_SEQ_ORDER, 3, 1), (F.PWR_SEQ_ORDER, 4, 7), (F.PWR_SEQ_ORDER, 5, 5)]) f

theorem wit_PowerSequences :
    (wRails fun p => { p with st := .off }).dev.pwr.st = .off ∧
    (let s := wRails fun p => { p with st := .por, core := false }; s.dev.pwr.st = .por ∧ railGroup s.dev 0 ≠ 0) ∧
    (let s := wRails fun p => { p with st := .powerUp, core := false, en := 7, pg := 3 }; s.dev.pwr.st = .powerUp ∧ s.dev.pwr.waitDly = false) ∧
    (let s := wRails fun p => { p with st := .powerUp, core := false, en := 7, pg := 7, waitDly := true };
      s.dev.pwr.st = .powerUp ∧ s.dev.pwr.waitDly = true ∧ nextOrder s.dev (s.dev.pwr.ord + 1) = some 1) ∧
    (let s := wRails fun p => { p with st := .powerUp, core := false, ord := 5, waitDly := true };
      s.dev.pwr.st = .powerUp ∧ s.dev.pwr.waitDly = true ∧ nextOrder s.dev (s.dev.pwr.ord + 1) = none) ∧
    (let s := wRails fun p => { p with st := .down, core := false, en := 0xF, pg := 0x1F, ord := 5 }; lowering s.dev = true ∧
      s.dev.pwr.en.getLsbD 4 = false ∧ s.dev.pwr.waitDly = false) ∧
    (let s := wRails fun p => { p with st := .down, core := false, en := 0xF, pg := 0xF, ord := 5, waitDly := true }; lowering s.dev = true ∧
      s.dev.pwr.waitDly = true ∧ s.dev.pwr.en ≠ 0 ∧ railGroup s.dev 1 &&& s.dev.pwr.en ≠ 0 ∧ railGroup s.dev 5 &&& s.dev.pwr.en = 0) ∧
    (let s := wRails id; s.dev.pwr.en.getLsbD 5 = true ∧ s.dev.pwr.pg.getLsbD 5 = true ∧ s.dev.pwr.st = .active) := by
  refine ⟨?_, ?_, ?_, ?_, ?_, ?_, ?_, ?_⟩ <;> decide +kernel

/-- EN, LINK and STBY_ALLOW as given, with the proposal `p`. -/
def wStby (en link al : Nat) (p : Option SN) : State :=
  onPw { mk [(F.TWN_CFG_EN, 0, en), (F.TWN_STATUS_LINK, 0, link), (F.PWR_CTL_STBY_ALLOW, 0, al)] with sn := 20 } fun x => { x with propose := p }
def wEntry (f : Pwr → Pwr) : State :=
  onPw { mk [(F.LNE_STATUS_TX_STATE, 5, 4), (F.LNE_QUAD_STATUS_PWR, 1, 2)] with sn := 20 } fun p =>
    f { p with st := .entry, entryT := some 20, armed := true }

theorem wit_StandbyIsRequestedAndEntered :
    (∀ en ∈ [0, 1], ∀ link ∈ [0, 1], ∀ al ∈ [0, 1], let s := wStby en link al none; s.dev.pwr.core = true ∧ s.dev.pwr.st = .active ∧
      s.dev.pwr.propose = none ∧ rd s.dev F.TWN_CFG_EN = en ∧ linkUp s.dev = decide (link = 1) ∧ rd s.dev F.PWR_CTL_STBY_ALLOW = al) ∧
    (∀ u ∈ [28, 29], let s := wStby 1 1 0 (some (BitVec.ofNat 32 u)); s.dev.pwr.propose = some (BitVec.ofNat 32 u) ∧ linkUp s.dev = true ∧
      snDue (BitVec.ofNat 32 u - 8) s.sn = decide (u = 28)) ∧
    (let s := wEntry id; s.dev.pwr.core = true ∧ s.dev.pwr.st = .entry ∧ s.dev.pwr.ticked = false ∧ s.dev.pwr.entryT = some 20 ∧
      snDue 20 s.sn = true) ∧
    (let s := wEntry fun p => { p with ticked := true }; s.dev.pwr.st = .entry ∧ s.dev.pwr.ticked = true ∧ s.dev.pwr.core = true ∧
      rd s.dev F.PWR_AVS_STATUS_STEP = 0) ∧
    (let s := onPw (mk [(F.PWR_AVS_STATUS_STEP, 0, 1)]) fun p => { p with st := .entry, ticked := true, resetDue := true };
      rd s.dev F.PWR_AVS_STATUS_STEP = 1 ∧ s.dev.pwr.st = .entry ∧ s.dev.pwr.ticked = true ∧ s.dev.pwr.core = true ∧ s.dev.pwr.resetDue = true) ∧
    (∀ l ∈ [0, 4], let s := wEntry fun p => { p with core := false, waitDly := true, en := 0, latch := BitVec.ofNat 5 l };
      lowering s.dev = true ∧ s.dev.pwr.waitDly = true ∧ s.dev.pwr.en = 0 ∧ s.dev.pwr.latch.toNat = l ∧ s.dev.pwr.discard = false) := by
  refine ⟨?_, ?_, ?_, ?_, ?_, ?_⟩ <;> decide +kernel

/-- Every wake source is enabled. -/
def wWake (f : Pwr → Pwr) : State :=
  onPw (mk [(F.PWR_WAKE_CFG_WAKE_N_EN, 0, 1), (F.PWR_WAKE_CFG_SMB_EN, 0, 1), (F.PWR_WAKE_CFG_TIMER_EN, 0, 1), (F.PWR_WAKE_TMR, 0, 1),
    (F.PWR_CFG_AUTO_RESTART, 0, 1), (F.PWR_STATUS_LAST_OFF, 0, 4)]) fun p => f { p with st := .standby, core := false, agreed := true, ticked := true }

theorem wit_WakesStartPowerUp :
    (let s := wWake id; rd s.dev F.PWR_WAKE_CFG_WAKE_N_EN = 1 ∧ rd s.dev F.PWR_WAKE_CFG_SMB_EN = 1 ∧ s.dev.pwr.agreed = true ∧
      s.dev.pwr.ticked = true ∧ rd s.dev F.PWR_WAKE_CFG_TIMER_EN = 1 ∧ rd s.dev F.PWR_WAKE_TMR ≠ 0 ∧ rd s.dev F.PWR_CFG_AUTO_RESTART = 1 ∧
      rd s.dev F.PWR_STATUS_LAST_OFF = 4 ∧ s.dev.pwr.noRestart = false ∧ s.dev.pwr.st = .standby ∧ s.dev.pwr.discard = false ∧
      s.dev.pwr.offMin = true ∧ s.dev.pwr.wakeDue = false) ∧
    (wWake fun p => { p with discard := true }).dev.pwr.discard = true ∧
    (let s := wWake fun p => { p with offMin := false, wakeDue := true }; s.dev.pwr.offMin = false ∧ s.dev.pwr.wakeDue = true) ∧
    (let s := wWake fun p => { p with st := .entry, armed := true }; s.dev.pwr.armed = true ∧ s.dev.pwr.st = .entry) := by
  refine ⟨?_, ?_, ?_, ?_⟩ <;> decide +kernel

/-- AVS with MARGIN 40, VMIN 700, VMAX 800 and VSET `v`. -/
def wAvs (v : Nat) : State :=
  mk [(F.PWR_AVS_CFG_EN, 0, 1), (F.PWR_AVS_CFG_MARGIN, 0, 40), (F.PWR_AVS_CFG_VMIN, 0, 700), (F.PWR_AVS_CFG_VMAX, 0, 800), (F.PWR_AVS_STATUS_VSET, 0, v)]

/-- FAIL_MASK `fm`, the role, the run of readings above SHUT, and WARN already told. -/
def wHot (fm : Nat) (ro : Role) (o : Nat) (w : Bool) : State :=
  let s := mk [(F.TWN_CFG_FAIL_MASK, 0, fm), (F.PWR_TEMP_MAX_PEAK, 0, 4095)]
  { s with dev := { s.dev with twin := { s.dev.twin with role := ro, latch := true }, pwr := { s.dev.pwr with overRun := o, warned := w } } }

theorem wit_HealthLoops_avs :
    (∀ v ∈ [795, 796, 705, 704], let s := wAvs v; s.dev.pwr.core = true ∧ rd s.dev F.PWR_AVS_CFG_EN = 1 ∧ rd s.dev F.PWR_AVS_STATUS_STEP = 0 ∧
      rd s.dev F.PWR_AVS_STATUS_VSET = v ∧ rd s.dev F.PWR_AVS_CFG_MARGIN = 40 ∧ rd s.dev F.PWR_AVS_CFG_VMAX = 800 ∧ rd s.dev F.PWR_AVS_CFG_VMIN = 700) ∧
    (([39] : List (BitVec 12)).foldl (fun m y => min m y.toNat) (60 : BitVec 12).toNat < 40 ∧
      40 + 8 < ([50] : List (BitVec 12)).foldl (fun m y => min m y.toNat) (49 : BitVec 12).toNat) ∧
    (let s := mk [(F.PWR_AVS_CFG_EN, 0, 1), (F.PWR_AVS_STATUS_STEP, 0, 1)]; s.dev.pwr.core = true ∧ rd s.dev F.PWR_AVS_STATUS_STEP = 1) := by
  refine ⟨?_, ?_, ?_⟩ <;> decide +kernel

theorem wit_HealthLoops_sensors :
    (let temps : List (BitVec 12) := [459, 460, 460]; temps[1]? = some 460 ∧
      ∀ j : Fin 16, ∀ v ∈ temps[j.val]?, (j < 1 → v.toInt < (460 : BitVec 12).toInt) ∧ v.toInt ≤ (460 : BitVec 12).toInt) ∧
    (∀ fm ∈ [0, 2], let s := wHot fm .active 1 false; s.dev.pwr.core = true ∧
      4 * (rd s.dev F.PWR_TEMP_CFG_SHUT : Int) ≤ (460 : BitVec 12).toInt ∧ 1 ≤ s.dev.pwr.overRun ∧ s.dev.pwr.thermOut = false ∧
      (rd s.dev F.TWN_CFG_FAIL_MASK).testBit 1 = decide (fm = 2) ∧ s.dev.twin.role = .active) := by
  refine ⟨?_, ?_⟩ <;> decide +kernel

theorem wit_HealthLoops_thermal :
    State.reset.dev.pwr.core = true ∧ State.reset.dev.pwr.thermOut = false ∧ State.reset.dev.pwr.thermDue = false ∧
    State.reset.dev.pwr.st = .active ∧
    (let s := onPw (mk []) fun p => { p with thermOut := true, thermDue := true };
      s.dev.pwr.core = true ∧ s.dev.pwr.thermOut = true ∧ s.dev.pwr.thermDue = true ∧ s.dev.pwr.st = .active) ∧
    (let s := onPw (mk []) fun p => { p with thermDue := true, st := .down };
      s.dev.pwr.core = true ∧ s.dev.pwr.thermDue = true ∧ s.dev.pwr.st ≠ .active) ∧
    (onPw (mk []) fun p => { p with thermOut := true, discard := true, st := .standby }).dev.pwr.st = .standby := by
  refine ⟨?_, ?_, ?_, ?_, ?_, ?_, ?_⟩ <;> decide +kernel

/-! Resets and registers -/

/-- Ring 0 active in an open session. -/
def wHost : State := wRing [(F.SEC_SESS_SLOT_OPEN, 0, 1)]

theorem wit_HostResetsAndMemoryClearing :
    (let s := wHost; s.dev.pwr.core = true ∧ rState s.dev 0 ≠ 0 ∧ rd s.dev F.HIF_RING_STATUS_SESS 0 < 15 ∧
      rd s.dev F.SEC_SESS_SLOT_OPEN (rd s.dev F.HIF_RING_STATUS_SESS 0) = 1 ∧ rd s.dev F.GLB_START_STATUS_MEM_INIT = 0) ∧
    rd (mk [(F.GLB_START_STATUS_MEM_INIT, 0, 1)]).dev F.GLB_START_STATUS_MEM_INIT = 1 := by
  decide +kernel

/-- The BAR0 address `a` as a command carries it. -/
def wAddr (a : Nat) : BitVec 26 := BitVec.ofNat 26 a

theorem wit_RegisterAccess :
    (State.reset.dev.pwr.core = true ∧ (wAddr (F.ARB_WEIGHT_W.addr 7 + 3)).toNat / 4 * 4 = F.ARB_WEIGHT_W.addr 7 ∧
      (wAddr (F.HIF_ATS_CFG_PREFETCH.addr 0)).toNat / 4 * 4 = F.HIF_ATS_CFG_PREFETCH.addr 0 ∧
      (wAddr (F.HIF_RING_BASE_LO.addr 40)).toNat / 4 * 4 = F.HIF_RING_BASE_LO.addr 40 ∧
      (wAddr (F.PMN_MSP_STATUS_OVF.addr 15)).toNat / 4 * 4 = F.PMN_MSP_STATUS_OVF.addr 15 ∧
      (wAddr (F.HIF_ATS_STATUS_VALID.addr 0)).toNat / 4 * 4 = F.HIF_ATS_STATUS_VALID.addr 0 ∧
      (wAddr (F.CTL_MTX_PRIO_PRIO.addr 0)).toNat / 4 * 4 = F.CTL_MTX_PRIO_PRIO.addr 0 ∧
      (wAddr (F.HIF_DB_ERR.addr 0)).toNat / 4 * 4 = F.HIF_DB_ERR.addr 0 ∧
      (wAddr 0x3FFFFFC).toNat / 4 * 4 = 0x3FFFFFC ∧ implemented 0x3FFFFFC = false ∧ msixWord 0x3FFFFFC = false ∧
      dbgPortOpen State.reset.dev = true ∧ State.reset.lock = false ∧ State.reset.dev.sw.traffic = false) ∧
    rState (wRing [(F.HIF_RING_STATUS_STATE, 40, 1)]).dev 40 ≠ 0 ∧
    (let s := onSec (mk []) fun x => { x with logical := [(2, (1, 5, 2))] }; dbgPortOpen s.dev = false) ∧
    ((wAddr (F.ARB_WEIGHT_W.addr 0)).toNat / 4 * 4 % 64 + 4 * 8 ≤ 64 ∧
      ∀ k, k < 8 → ∀ p ∈ fldsAt ((wAddr (F.ARB_WEIGHT_W.addr 0)).toNat / 4 * 4 + 4 * k), p.1.acc ≠ .rcl) ∧
    (16 < 17 ∧ 64 < (wAddr 60).toNat / 4 * 4 % 64 + 4 * 2) := by
  refine ⟨?_, ?_, ?_, ?_, ?_⟩ <;> decide +kernel

theorem wit_ResetValuesAndWhatAResetKeeps :
    ∃ t, exec .vaoLoss State.reset = .next t ∧ State.reset.dev.pwr.core = true ∧ t.dev.pwr.core = false ∧ State.reset.dev.sec.prog = none :=
  ⟨_, rfl, rfl, rfl, rfl⟩

end Sys2Proof.Tests
end

