-- ==== Sys2Proof/Proofs/SetupLock.lean ====
section
/-! PROOFS. The set-up lock of R13: AVS_STEP_DONE carries out a core reset that waited for its step (R485, R492), so a
command that `resetsDevice` does not list clears the lock. -/

namespace Sys2Proof.Machine

/-! ### A core reset that waits for an AVS step -/

@[simp] theorem rdB_wrB_avsStep (d : Dev) (b : Bool) : rdB (wrB d F.PWR_AVS_STATUS_STEP 0 b) F.PWR_AVS_STATUS_STEP = b := by
  rw [rdB, wrB, rd_wr_same _ _ _ _ (by decide)]
  cases b <;> rfl

/-- The lock is no part of the always-on island (R479). -/
@[simp] theorem holdCore_lock (s : State) : (holdCore s).lock = false := rfl

theorem exec_avsStepDone_of_core {s : State} (hcore : s.dev.pwr.core = true) : exec .avsStepDone s = .next (avsDone s) := by
  simp [exec, execAvsStepDone, coreSt, hcore]

section
variable {s : State} (hst : s.dev.pwr.st = .entry) (htick : s.dev.pwr.ticked = true) (hcore : s.dev.pwr.core = true)
include hst htick hcore

theorem entryReset_of_avsStep (hstep : rdB s.dev F.PWR_AVS_STATUS_STEP = true) :
    entryReset s = { s with dev := onPwr s.dev fun p => { p with resetDue := true } } := by
  simp [entryReset, hst, htick, hcore, hstep]

theorem entryReset_lock_of_noAvsStep (hstep : rdB s.dev F.PWR_AVS_STATUS_STEP = false) : (entryReset s).lock = false := by
  simp [entryReset, hst, htick, hcore, hstep]

/-- With the end of the step (R492) the core reset happens, and takes the lock with it. -/
theorem avsDone_lock_of_resetDue (hdue : s.dev.pwr.resetDue = true) : (avsDone s).lock = false := by
  simp only [avsDone, wrB_pwr, hdue, if_true]
  exact entryReset_lock_of_noAvsStep hst htick hcore (rdB_wrB_avsStep s.dev false)

end

/-! ### The counterexample -/

/-- A locked device past the tick of T in its entry to standby, an AVS step in progress. -/
def lockedEntryInAvsStep : State :=
  { State.reset with
    lock := true
    dev := onPwr (wrB State.reset.dev F.PWR_AVS_STATUS_STEP 0 true) fun p => { p with st := .entry, ticked := true } }

/-- Refutes O13: ENTRY_CORE_RESET during an AVS step leaves the lock set and the reset waiting; AVS_STEP_DONE, which
`resetsDevice` does not list, then carries the reset out and clears the lock. -/
theorem not_setupLockHolds : ¬ Obligations.SetupLockHolds := by
  unfold Obligations.SetupLockHolds
  rintro ⟨-, hkeep⟩
  have hwait := entryReset_of_avsStep (s := lockedEntryInAvsStep) rfl rfl rfl (rdB_wrB_avsStep _ true)
  have hlock : (entryReset lockedEntryInAvsStep).lock = true := by rw [hwait]; rfl
  have hcore : (entryReset lockedEntryInAvsStep).dev.pwr.core = true := by rw [hwait]; rfl
  have hcleared : (avsDone (entryReset lockedEntryInAvsStep)).lock = false := by
    rw [hwait]; exact avsDone_lock_of_resetDue rfl rfl rfl rfl
  have hkept := hkeep .avsStepDone _ _ hlock (exec_avsStepDone_of_core hcore) rfl
  exact Bool.false_ne_true (hcleared.symm.trans hkept)

end Sys2Proof.Machine
end

