-- ==== Sys2Proof/Proofs/CommitReadiness.lean ====
section
/-! PROOFS. The readiness of a commit (R229 to R231): GLB_TILTH_STATUS of a device that evacuates a plane stays at
EVACUATING (Table 9-5) when the commit of its moves gets its target. -/

namespace Sys2Proof.Machine

/-! ### GLB_TILTH_STATUS while a plane is evacuated -/

/-- EVACUATING comes before READY in Tilth's status. -/
theorem rd_tilthStat_state_of_evac {d : Dev} (hundo : d.tilth.undo = false) (hevac : d.tilth.evac.isSome = true) :
    rd (tilthStat d) F.GLB_TILTH_STATUS_STATE = 4 := by
  have hstate : rd (wrB (wr d F.GLB_TILTH_STATUS_STATE 0 4) F.GLB_TILTH_STATUS_BATCH_OPEN 0 d.tilth.batch.isSome)
      F.GLB_TILTH_STATUS_STATE = 4 := by
    rw [wrB, rd_wr_bits _ _ _ _ _ _ (by decide), rd_wr_same _ _ _ _ (by decide)]
    rfl
  have hring (d : Dev) (v : Nat) : rd (wr d F.GLB_TILTH_STATUS_BATCH_RING 0 v) F.GLB_TILTH_STATUS_STATE =
      rd d F.GLB_TILTH_STATUS_STATE := rd_wr_bits _ _ _ _ _ _ (by decide)
  have htarget (d : Dev) (v : Nat) : rd (wr d F.GLB_TILTH_TARGET_SN 0 v) F.GLB_TILTH_STATUS_STATE =
      rd d F.GLB_TILTH_STATUS_STATE := rd_wr_addr _ _ _ _ _ _ (by decide)
  simp only [tilthStat, hundo, hevac, Bool.false_eq_true, if_false, if_true]
  split <;> split <;> simp only [hring, htarget, hstate]

/-- A commit that becomes ready on a device that evacuates a plane leaves Tilth's status at EVACUATING. -/
theorem rd_commitReady_state_of_evac {d : Dev} {c : Commit} (sn : SN) (hprep : d.tilth.prep = some c)
    (htarget : c.target = none) (hreleased : d.tilth.released = true) (hstandby : isStandby d = false)
    (hentering : entering d = false) (hresync : d.twin.resyncLast = false) (hpaused : d.tilth.paused = false)
    (hundo : d.tilth.undo = false) (hevac : d.tilth.evac.isSome = true) :
    rd (commitReady sn d) F.GLB_TILTH_STATUS_STATE = 4 := by
  simp only [commitReady, hentering, hprep, htarget, hreleased, hpaused, hstandby, hresync, onTilth_twin, Option.isNone_some,
    Option.isSome_none, Bool.not_true, Bool.false_and, Bool.or_self, Bool.false_eq_true, if_false]
  refine rd_tilthStat_state_of_evac ?_ ?_
  · simpa [apply_ite Dev.tilth] using hundo
  · simpa [apply_ite Dev.tilth] using hevac

/-! ### The counterexample -/

/-- Plane 0 is evacuated (R211), and the commit of its moves waits for its target. -/
def evacuationToCommit : State :=
  { State.reset with
    dev := onTilth (wr State.reset.dev F.GLB_PLANE_STATUS_STATE 0 1) fun t =>
      { t with evac := some 0, prep := some { members := [], timed := false, tsn := 0, evac := true } } }

/-- Refutes O17: its first clause, COMMIT_READY, asks for STATE = READY (2) of every commit that becomes ready, but
while a plane is evacuated STATE is EVACUATING (4), and the commit of the moves becomes ready all the same. -/
theorem not_commitFlipsAtItsTarget : ¬ Obligations.CommitFlipsAtItsTarget := by
  unfold Obligations.CommitFlipsAtItsTarget
  intro h
  obtain ⟨hready, -⟩ := h evacuationToCommit { members := [], timed := false, tsn := 0, evac := true } rfl
  obtain ⟨t, hexec, -, -, -, -, -, -, -, -, -, hstate, -⟩ := hready rfl rfl rfl rfl rfl rfl rfl
  obtain rfl : _ = t := Host.Outcome.next.inj ((core_next evacuationToCommit (commitReady _) rfl).symm.trans hexec)
  have hevacuating : rd (commitReady evacuationToCommit.sn evacuationToCommit.dev) F.GLB_TILTH_STATUS_STATE = 4 :=
    rd_commitReady_state_of_evac _ rfl rfl rfl rfl rfl rfl rfl rfl rfl
  exact absurd (hevacuating.symm.trans hstate) (by decide)

end Sys2Proof.Machine
end

