-- ==== Sys2Proof/Proofs/LockTimeout.lean ====
section
/-! PROOFS. The 100 ms timer of a firmware descriptor (R387): it does not run for a descriptor that an activation of
firmware holds (R393, Table 15-7), which LOCK_TIMEOUT therefore leaves as it is. -/

namespace Sys2Proof.Machine

/-! ### Descriptors that an activation holds -/

/-- LOCK_TIMEOUT changes nothing while an activation that began no later than the dispatch holds the descriptor. -/
theorem exec_lockTimeout_of_held {s : State} {r : Fin 16} {e : QEnt} (hcore : s.dev.pwr.core = true)
    (hnext : nextFor .fw (ringOf s.dev r).q = some e) (hact : s.dev.ctl.act.isSome = true)
    (hheld : snFuture s.dev.ctl.actSn e.at' = false) : exec (.lockTimeout r) s = .next s := by
  have hstays : lockTimeout r s.sn s.dev = s.dev := by simp [lockTimeout, hnext, hact, hheld]
  have hexec : exec (.lockTimeout r) s = .next { s with dev := lockTimeout r s.sn s.dev } := core_next s _ hcore
  rw [hexec, hstays]

/-- A device that serves a descriptor and does not change has served it before. -/
theorem done_of_served_self {d : Dev} {r uid st det : Nat} {sn : SN} {res : BitVec 64} (h : Served d d r uid st det sn res)
    {e : QEnt} (he : e ∈ (ringOf d r).q) (huid : e.uid = uid) : ∃ n, e.ph = .done st det sn res n := by
  obtain ⟨⟨n, hq⟩, -⟩ := h
  rw [hq] at he
  obtain ⟨x, -, hx⟩ := List.mem_map.1 he
  by_cases hxu : x.uid = uid
  · rw [if_pos hxu] at hx
    exact ⟨n, hx ▸ rfl⟩
  · rw [if_neg hxu] at hx
    exact absurd (hx ▸ huid) hxu

/-! ### The counterexample -/

/-- A TRIB_DEFINE, dispatched in sweep 6. -/
def heldTribDefine : QEnt := { idx := 0, uid := 7, raw := 0x20, ph := .dispatched, at' := 6 }

theorem heldTribDefine_firmware : unitOf (opOf heldTribDefine.raw) = .fw := by decide +kernel

/-- CMD0 holds it since an activation by a FW_STAGE of CMD1 that began in sweep 5; more than 100 ms have passed. -/
def activationHoldsDescriptor : State :=
  { State.reset with
    sn := 70000
    dev := modRing { State.reset.dev with ctl := { State.reset.dev.ctl with act := some (1, 8, 0), actSn := 5 } } 0 fun x =>
      { x with q := [heldTribDefine] } }

theorem activationHoldsDescriptor_q : (ringOf activationHoldsDescriptor.dev 0).q = [heldTribDefine] := rfl

/-- Refutes O33: its clause of LOCK_TIMEOUT has every dispatched firmware descriptor complete, but one that an
activation holds has no timer, and stays dispatched. -/
theorem not_descriptorsComplete : ¬ Obligations.DescriptorsComplete := by
  unfold Obligations.DescriptorsComplete
  rintro ⟨hserve, -⟩
  have hnext : nextFor .fw (ringOf activationHoldsDescriptor.dev 0).q = some heldTribDefine := by
    rw [activationHoldsDescriptor_q]
    exact if_pos ⟨rfl, heldTribDefine_firmware⟩
  obtain ⟨-, -, htimeout⟩ := hserve activationHoldsDescriptor 0 heldTribDefine rfl
  obtain ⟨t, hexec, -, -, hserved⟩ := htimeout hnext
  have hstays : exec (.lockTimeout 0) activationHoldsDescriptor = .next activationHoldsDescriptor :=
    exec_lockTimeout_of_held rfl hnext rfl (by decide)
  obtain rfl : activationHoldsDescriptor = t := Host.Outcome.next.inj (hstays.symm.trans hexec)
  obtain ⟨n, hdone⟩ := done_of_served_self hserved (e := heldTribDefine) (by simp [activationHoldsDescriptor_q]) rfl
  exact QPhase.noConfusion hdone

end Sys2Proof.Machine
end

