-- ==== Sys2Proof/Proofs/DeviceSn.lean ====
section
/-! PROOFS. The device SN of R33: AVS_STEP_DONE carries out a core reset that waited for its step (R485, R492), so a
command that `resetsDevice` does not list takes the mark of the first tick away. -/

namespace Sys2Proof.Machine

/-! ### What a core reset takes with it -/

/-- The mark of the first tick is no part of the always-on island (R479): the next tick carries SN 0 again (R33). -/
@[simp] theorem holdCore_ticked (s : State) : (holdCore s).ticked = false := rfl

section
variable {s : State} (hst : s.dev.pwr.st = .entry) (htick : s.dev.pwr.ticked = true) (hcore : s.dev.pwr.core = true)
include hst htick hcore

theorem entryReset_ticked_of_noAvsStep (hstep : rdB s.dev F.PWR_AVS_STATUS_STEP = false) : (entryReset s).ticked = false := by
  simp [entryReset, hst, htick, hcore, hstep]

/-- With the end of the step (R492) the core reset happens, and the device SN starts again. -/
theorem avsDone_ticked_of_resetDue (hdue : s.dev.pwr.resetDue = true) : (avsDone s).ticked = false := by
  simp only [avsDone, wrB_pwr, hdue, if_true]
  exact entryReset_ticked_of_noAvsStep hst htick hcore (rdB_wrB_avsStep s.dev false)

end

/-! ### The counterexample -/

/-- A device that has ticked, past the tick of T in its entry to standby, an AVS step in progress. -/
def tickedEntryInAvsStep : State := { lockedEntryInAvsStep with ticked := true }

/-- Refutes O12: ENTRY_CORE_RESET during an AVS step leaves the reset waiting; AVS_STEP_DONE, which `resetsDevice` does
not list, then carries the reset out and takes the mark of the first tick away. -/
theorem not_snMovesOnlyWithTheTick : ¬ Obligations.SnMovesOnlyWithTheTick := by
  unfold Obligations.SnMovesOnlyWithTheTick
  rintro ⟨-, hkeep⟩
  have hwait := entryReset_of_avsStep (s := tickedEntryInAvsStep) rfl rfl rfl (rdB_wrB_avsStep _ true)
  have hticked : (entryReset tickedEntryInAvsStep).ticked = true := by rw [hwait]; rfl
  have hcore : (entryReset tickedEntryInAvsStep).dev.pwr.core = true := by rw [hwait]; rfl
  have hstopped : (avsDone (entryReset tickedEntryInAvsStep)).ticked = false := by
    rw [hwait]; exact avsDone_ticked_of_resetDue rfl rfl rfl rfl
  obtain ⟨-, hkept⟩ := hkeep .avsStepDone _ _ (exec_avsStepDone_of_core hcore) rfl nofun nofun
  exact Bool.false_ne_true (hstopped.symm.trans (hkept.trans hticked))

end Sys2Proof.Machine
end

