-- ==== Sys2Proof/Proofs/Evaluation.lean ====
section
/-! PROOFS. What an evaluation of defects, conditions, candidates and groups (R120, R136, R252, R406) changes: each of its
steps said once, with the frame of its registers and parts, the events it raises and the queues it leaves alone. -/

namespace Sys2Proof.Machine

/-! ### The frame of an evaluation -/

/-- A step of an evaluation: it writes registers at `as` and the parts `ps`, raises events, and leaves the rings as they
were, and of the twin all but the queues of its link. -/
structure Evals (as : List Nat) (ps : List Part) (a b : Dev) : Prop where
  parts : Only ps a b
  regs : OnlyRegs as a b
  rings : b.hif.rings = a.hif.rings
  events : ∃ es, Raised a b es
  twin : b.twin = queuesOf a.twin b.twin

namespace Evals

variable {as bs : List Nat} {ps qs : List Part} {a b c : Dev}

theorem refl (as : List Nat) (ps : List Part) (a : Dev) : Evals as ps a a :=
  ⟨Only.refl ps a, OnlyRegs.refl as a, rfl, ⟨[], raised_nil a⟩, rfl⟩

theorem mono (h : Evals bs qs a b) (has : bs ⊆ as := by simp) (hps : qs ⊆ ps := by simp) : Evals as ps a b :=
  ⟨h.parts.mono hps, h.regs.mono has, h.rings, h.events, h.twin⟩

theorem role (h : Evals as ps a b) : b.twin.role = a.twin.role := by
  rw [h.twin]; rfl

theorem trans (h : Evals as ps a b) (k : Evals as ps b c) : Evals as ps a c := by
  obtain ⟨es, hes⟩ := h.events
  obtain ⟨fs, hfs⟩ := k.events
  refine ⟨(h.parts.trans k.parts).mono (by simp), (h.regs.trans k.regs).mono (by simp), k.rings.trans h.rings,
    ⟨_, hes.trans hfs h.role⟩, k.twin.trans ?_⟩
  rw [h.twin]
  rfl

/-- A further step, with its own smaller frame. -/
theorem next (h : Evals as ps a b) (k : Evals bs qs b c) (has : bs ⊆ as := by simp) (hps : qs ⊆ ps := by simp) :
    Evals as ps a c :=
  h.trans (k.mono has hps)

theorem ite {p : Prop} [Decidable p] (h : p → Evals as ps a b) (k : ¬ p → Evals as ps a c) :
    Evals as ps a (if p then b else c) := by
  split
  case isTrue hp => exact h hp
  case isFalse hp => exact k hp

theorem foldl {β : Type} {f : Dev → β → Dev} {l : List β} (h : ∀ d, ∀ x ∈ l, Evals as ps d (f d x)) (a : Dev) :
    Evals as ps a (l.foldl f a) := by
  induction l generalizing a with
  | nil => exact refl as ps a
  | cons x l ih =>
    exact (h a x List.mem_cons_self).trans (ih (fun d y hy => h d y (List.mem_cons_of_mem x hy)) (f a x))

/-- A field of a word that is not written. -/
theorem rd (h : Evals as ps a b) {f : Fld} {i : Nat} (hf : f.addr i ∉ as) : rd b f i = rd a f i := by
  simp only [Machine.rd, h.regs _ hf]

theorem rdB (h : Evals as ps a b) {f : Fld} {i : Nat} (hf : f.addr i ∉ as) : rdB b f i = rdB a f i := by
  simp only [Machine.rdB, h.rd hf]

theorem cli (h : Evals as ps a b) (hps : Part.cli ∉ ps := by simp) : b.cli = a.cli := h.parts .cli hps

end Evals

/-! ### Updates of one part -/

theorem only_prot (d : Dev) (x : Prot) : Only [.prot] d { d with prot := x } := by
  intro p hp; cases p <;> simp_all [Part.same]
theorem only_cli (d : Dev) (x : Clients) : Only [.cli] d { d with cli := x } := by
  intro p hp; cases p <;> simp_all [Part.same]
theorem only_pm (d : Dev) (x : Pm) : Only [.pm] d { d with pm := x } := by
  intro p hp; cases p <;> simp_all [Part.same]
theorem only_tim (d : Dev) (x : Tim) : Only [.tim] d { d with tim := x } := by
  intro p hp; cases p <;> simp_all [Part.same]
theorem only_frm (d : Dev) (x : Tbl Framer) : Only [.frm] d { d with frm := x } := by
  intro p hp; cases p <;> simp_all [Part.same]
theorem only_deg (d : Dev) (x : Tbl Degrade) : Only [.deg] d { d with deg := x } := by
  intro p hp; cases p <;> simp_all [Part.same]
theorem only_twinPut (d : Dev) (typ : Nat) (ws : List Nat) : Only [.out, .twin] d (twinPut d typ ws) := by
  intro p hp; cases p <;> simp_all [Part.same]

/-- A step that leaves registers, rings, events and the twin. -/
theorem Evals.of_only {ps : List Part} {a b : Dev} (h : Only ps a b) (hregs : Part.regs ∉ ps := by simp)
    (hhif : Part.hif ∉ ps := by simp) (htwin : Part.twin ∉ ps := by simp) : Evals [] ps a b := by
  have hif : b.hif = a.hif := h .hif hhif
  have twin : b.twin = a.twin := h .twin htwin
  refine ⟨h, onlyRegs_of_eq [] (h .regs hregs), congrArg Hif.rings hif, ⟨[], ?_⟩, ?_⟩
  · simp [Raised, hif]
  · rw [twin]; rfl

theorem evals_raise (d : Dev) (e : Ev) : Evals [] [.hif] d (raise d e) :=
  ⟨only_raise d e, onlyRegs_of_eq [] rfl, rfl, ⟨_, raised_raise d e⟩, rfl⟩

theorem evals_wr (d : Dev) (f : Fld) (i v : Nat) : Evals [f.addr i] [.regs] d (wr d f i v) :=
  ⟨only_wr d f i v, onlyRegs_wr d f i v, rfl, ⟨[], by simp [Raised]⟩, rfl⟩

theorem evals_twinSend (d : Dev) (typ : Nat) (ws : List Nat) : Evals [] [.out, .twin] d (twinSend d typ ws) := by
  unfold twinSend
  split
  · exact ⟨only_twinPut d typ ws, onlyRegs_of_eq [] rfl, rfl, ⟨[], by simp [Raised]⟩, rfl⟩
  · exact .refl _ _ d

theorem evals_seenOr (d : Dev) (kind obj bits : Nat) : Evals [] [.pm] d (seenOr d kind obj bits) := by
  unfold seenOr
  exact .ite (fun _ => .refl _ _ d) fun _ => .of_only (only_pm d _)

/-! ### The registers of an evaluation -/

/-- FRM_RX_STATUS and FRM_PSC_QUEUE of the lanes, and TIM_CAND_STATUS of the slots. -/
def statusRegs : List Nat := (List.range 128).map fun m => F.FRM_RX_STATUS_DEF.addr m
def pscRegs : List Nat := (List.range 128).map fun m => F.FRM_PSC_QUEUE_MAX.addr m
def candRegs : List Nat := (List.range 8).map fun i => F.TIM_CAND_STATUS_QUAL.addr i

/-- What the groups and the candidates write of them. -/
def followRegs : List Nat := pscRegs ++ candRegs

theorem evalRegs_eq : evalRegs = statusRegs ++ followRegs := List.append_assoc _ _ _

theorem followRegs_subset : followRegs ⊆ evalRegs := by simp [evalRegs_eq]
theorem pscRegs_subset : pscRegs ⊆ evalRegs := List.Subset.trans (by simp [followRegs]) followRegs_subset

theorem addr_mem_statusRegs {n : Nat} (h : n < 128) : F.FRM_RX_STATUS_DEF.addr n ∈ statusRegs :=
  List.mem_map.2 ⟨n, List.mem_range.2 h, rfl⟩
theorem addr_mem_pscRegs {n : Nat} (h : n < 128) : F.FRM_PSC_QUEUE_MAX.addr n ∈ pscRegs :=
  List.mem_map.2 ⟨n, List.mem_range.2 h, rfl⟩
theorem addr_mem_candRegs {i : Nat} (h : i < 8) : F.TIM_CAND_STATUS_QUAL.addr i ∈ candRegs :=
  List.mem_map.2 ⟨i, List.mem_range.2 h, rfl⟩

theorem addr_status (n : Nat) : F.FRM_RX_STATUS_DEF.addr n = 0x800108 + 0x1000 * n := by
  simp only [Fld.addr, F.FRM_RX_STATUS_DEF]; omega
theorem addr_psc (n : Nat) : F.FRM_PSC_QUEUE_MAX.addr n = 0x800124 + 0x1000 * n := by
  simp only [Fld.addr, F.FRM_PSC_QUEUE_MAX]; omega

theorem addr_of_mem_followRegs {x : Nat} (h : x ∈ followRegs) : x % 0x1000 = 0x124 ∨ x < 0x201000 := by
  rcases List.mem_append.1 h with h | h
  · obtain ⟨m, -, rfl⟩ := List.mem_map.1 h
    rw [addr_psc]; omega
  · obtain ⟨i, -, rfl⟩ := List.mem_map.1 h
    simp only [Fld.addr, F.TIM_CAND_STATUS_QUAL]; omega

theorem status_not_mem_followRegs (n : Nat) : F.FRM_RX_STATUS_DEF.addr n ∉ followRegs := fun h => by
  have := addr_of_mem_followRegs h
  rw [addr_status] at this
  omega

/-- A field whose words no evaluation writes, by its place in the map. -/
def Fld.quiet (f : Fld) : Bool :=
  f.n2 == 1 && f.s1 % 0x1000 == 0 && decide (0x201000 ≤ f.base) && f.base % 0x1000 != 0x108 && f.base % 0x1000 != 0x124

theorem Fld.quiet_not_mem {f : Fld} (h : f.quiet = true) (i : Nat) : f.addr i ∉ evalRegs := fun hmem => by
  simp only [Fld.quiet, Bool.and_eq_true, beq_iff_eq, decide_eq_true_eq, bne_iff_ne] at h
  obtain ⟨⟨⟨⟨hn, hs⟩, hbase⟩, hstatus⟩, hpsc⟩ := h
  obtain ⟨k, hk⟩ := Nat.dvd_of_mod_eq_zero hs
  have haddr : f.addr i = f.base + 0x1000 * (k * i) := by
    simp only [Fld.addr, hn, hk, Nat.div_one, Nat.mod_one, Nat.zero_mul, Nat.add_zero]
    ring
  rw [haddr, evalRegs_eq, List.mem_append] at hmem
  rcases hmem with hmem | hmem
  · obtain ⟨m, -, hm⟩ := List.mem_map.1 hmem
    rw [addr_status] at hm
    omega
  · have := addr_of_mem_followRegs hmem
    omega

namespace Evals

variable {ps : List Part} {a b : Dev}

theorem rd_quiet (h : Evals evalRegs ps a b) {f : Fld} (hf : f.quiet = true) (i : Nat) : Machine.rd b f i = Machine.rd a f i :=
  h.rd (f.quiet_not_mem hf i)

theorem rdB_quiet (h : Evals evalRegs ps a b) {f : Fld} (hf : f.quiet = true) (i : Nat) : Machine.rdB b f i = Machine.rdB a f i :=
  h.rdB (f.quiet_not_mem hf i)

/-- An evaluation does not couple a twin (R296). -/
theorem mirrors (h : Evals evalRegs ps a b) : Machine.mirrors b = Machine.mirrors a := by
  have hswap : b.twin.swapHalf = a.twin.swapHalf := by rw [h.twin]; rfl
  have hdiverged : b.twin.diverged = a.twin.diverged := by rw [h.twin]; rfl
  simp only [Machine.mirrors, coupled, h.role, hswap, hdiverged, h.rdB_quiet (f := F.TWN_STATUS_LINK) rfl,
    h.rd_quiet (f := F.TWN_STATUS_COUPLING) rfl]

/-- A descriptor served after the evaluation is served on the whole way. -/
theorem served {as : List Nat} {c : Dev} {r uid st det : Nat} {sn : SN} {res : BitVec 64} (h : Evals as ps a b)
    (k : Served b c r uid st det sn res) : Served a c r uid st det sn res := by
  simpa only [Served, ringOf, h.rings] using k

end Evals

/-! ### Protection groups (R252 to R261) -/

theorem evals_setGroup (d : Dev) (pgid : Nat) (g : Group) : Evals [] [.prot] d (setGroup d pgid g) :=
  .of_only (only_prot d _)

theorem evals_putGroup (d : Dev) (pgid : Nat) (g : Group) (sn : SN) : Evals pscRegs [.regs, .prot] d (putGroup d pgid g sn) := by
  have hset : Evals pscRegs [.regs, .prot] d (setGroup d pgid { g with ent := entOf g }) := (evals_setGroup d pgid _).mono
  unfold putGroup
  dsimp only
  split
  · next n _ =>
    refine .ite (fun _ => hset) fun hlane => .ite (fun _ => hset) fun _ => ?_
    have hn : n < 128 := by omega
    refine .ite (fun _ => ?_) fun _ => ?_
    · exact (hset.next (.of_only (only_prot _ _))).next (evals_wr _ _ _ _) (by simpa using addr_mem_pscRegs hn)
    · exact hset.next (.of_only (only_prot _ _))
  · exact hset

theorem evals_sendDecision (d : Dev) (pgid : Nat) (g : Group) (sig : Nat) (x : SN) (req : Nat) :
    Evals [] [.out, .twin] d (sendDecision d pgid g sig x req) := by
  unfold sendDecision
  exact .ite (fun _ => evals_twinSend d _ _) fun _ => .refl _ _ d

theorem evals_evalGroup (sn : SN) (ns : Nat) (d : Dev) (pgid : Nat) :
    Evals pscRegs [.regs, .prot, .out, .twin] d (evalGroup sn ns d pgid) := by
  unfold evalGroup
  split
  · exact .refl _ _ d
  · extract_lets
    refine .ite (fun _ => .refl _ _ d) fun _ => .ite (fun _ => (evals_setGroup d pgid _).mono) fun _ => ?_
    have hput := fun g => (evals_putGroup d pgid g sn).mono (ps := [.regs, .prot, .out, .twin]) (List.Subset.refl _)
    refine .ite (fun _ => Evals.next ?_ (evals_sendDecision _ _ _ _ _ _)) fun _ => ?_
    all_goals exact .ite (fun _ => (hput _).next (evals_sendDecision _ _ _ _ _ _)) fun _ => hput _

theorem evals_evalAll (sn : SN) (ns : Nat) (d : Dev) : Evals pscRegs [.regs, .prot, .out, .twin] d (evalAll sn ns d) :=
  .foldl (fun d pgid _ => evals_evalGroup sn ns d pgid) d

/-! ### Reference candidates (R406) -/

theorem evals_candStep (start : Bool) (sn : SN) (d : Dev) {i : Nat} (hi : i < 8) :
    Evals candRegs [.regs, .hif, .tim] d (candStep start sn d i) := by
  have hwr (d : Dev) (f : Fld) (v : Nat) (hf : f.addr i = F.TIM_CAND_STATUS_QUAL.addr i) :
      Evals candRegs [.regs, .hif, .tim] d (wr d f i v) :=
    (evals_wr d f i v).mono (by simpa [hf] using addr_mem_candRegs hi)
  have hraise (d : Dev) (e : Ev) : Evals candRegs [.regs, .hif, .tim] d (raise d e) := (evals_raise d e).mono
  unfold candStep
  extract_lets x live c w q was ql qlWas last d₀ d₁ d₂
  have h₀ : Evals candRegs [.regs, .hif, .tim] d d₀ := (Evals.of_only (only_tim d _)).mono
  have h₁ : Evals candRegs [.regs, .hif, .tim] d d₁ :=
    (((h₀.trans (hwr _ F.TIM_CAND_STATUS_QUAL _ rfl)).trans (hwr _ F.TIM_CAND_STATUS_WTR_RUN _ rfl)).trans
      (hwr _ F.TIM_CAND_STATUS_QL _ rfl)).trans (hwr _ F.TIM_CAND_STATUS_LT _ rfl)
  have h₂ : Evals candRegs [.regs, .hif, .tim] d d₂ := .ite (fun _ => h₁.trans (hraise _ _)) fun _ => h₁
  exact .ite (fun _ => h₂.trans (hraise _ _)) fun _ => .ite (fun _ => h₂.trans (hraise _ _)) fun _ => h₂

theorem evals_candEval (start : Bool) (sn : SN) (d : Dev) : Evals candRegs [.regs, .hif, .tim] d (candEval start sn d) :=
  .foldl (fun d _ hi => evals_candStep start sn d (List.mem_range.1 hi)) d

/-! ### Tributary copies (R127, R128) -/

theorem evals_defEvent (sn : SN) (code : Nat) (on : Bool) (flags p1 lsn : Nat) (d : Dev) :
    Evals [] [.hif] d (defEvent sn code on flags p1 lsn d) :=
  evals_raise d _

theorem evals_setTrib (d : Dev) (tid : Nat) (t : Trib) : Evals [] [.cli] d (setTrib d tid t) :=
  .of_only (only_cli d _)

@[simp] theorem tribOf_setTrib_same (d : Dev) (tid : Nat) (t : Trib) : tribOf (setTrib d tid t) tid = some t :=
  tfind_tins_same _ _ _
theorem tribOf_setTrib_ne (d : Dev) {tid q : Nat} (t : Trib) (h : q ≠ tid) : tribOf (setTrib d tid t) q = tribOf d q :=
  tfind_tins_ne _ _ h
theorem tribOf_congr {a b : Dev} (h : b.cli = a.cli) (q : Nat) : tribOf b q = tribOf a q := by simp only [tribOf, h]

@[simp] theorem defEvent_cli (sn : SN) (code : Nat) (on : Bool) (flags p1 lsn : Nat) (d : Dev) :
    (defEvent sn code on flags p1 lsn d).cli = d.cli := rfl

theorem evals_monFollow (sn : SN) (tid k : Nat) (d : Dev) : Evals [] [.cli, .hif] d (monFollow sn tid k d) := by
  unfold monFollow
  split
  · exact .refl _ _ d
  · extract_lets cs m ssf ssd m₁ d₁ d₂
    have h₁ : Evals [] [.cli, .hif] d d₁ := (evals_setTrib d tid _).mono
    have h₂ : Evals [] [.cli, .hif] d d₂ := .ite (fun _ => h₁) fun _ => h₁.next (evals_defEvent _ _ _ _ _ _ _)
    exact .ite (fun _ => .refl _ _ d) fun _ => .ite (fun _ => h₂) fun _ => h₂.next (evals_defEvent _ _ _ _ _ _ _)

/-- A copy that follows its lanes keeps its declared defects: at most tSSF, tSSD and what comes of them change. -/
theorem monFollow_cli (sn : SN) (tid k : Nat) (d : Dev) :
    (monFollow sn tid k d).cli = d.cli ∨
    ∃ t m, tribOf d tid = some t ∧ m.decl = (t.mon k).decl ∧ (monFollow sn tid k d).cli = (setTrib d tid (t.setMon k m)).cli := by
  unfold monFollow
  split
  · exact .inl rfl
  · next t ht =>
    extract_lets cs m ssf ssd m₁ d₁ d₂
    split
    · exact .inl rfl
    · refine .inr ⟨t, { m₁ with cond := monCond m₁ }, ht, rfl, ?_⟩
      have h₂ : d₂.cli = d₁.cli := by simp only [d₂, apply_ite Dev.cli, defEvent_cli, ite_self]
      simp only [apply_ite Dev.cli, defEvent_cli, ite_self, h₂, d₁]

theorem monFollow_cdef (sn : SN) (tid k : Nat) (d : Dev) : (monFollow sn tid k d).cli.cdef = d.cli.cdef := by
  obtain h | ⟨t, m, -, -, h⟩ := monFollow_cli sn tid k d <;> rw [h]
  rfl

theorem tribOf_monFollow_ne (sn : SN) (k : Nat) (d : Dev) {tid q : Nat} (hq : q ≠ tid) :
    tribOf (monFollow sn tid k d) q = tribOf d q := by
  obtain h | ⟨t, m, -, -, h⟩ := monFollow_cli sn tid k d <;> rw [tribOf_congr h]
  exact tribOf_setTrib_ne d _ hq

theorem Trib.setMon_cfg (t : Trib) (k : Nat) (m : Mon) : (t.setMon k m).cfg = t.cfg := by
  simp only [Trib.setMon, apply_ite Trib.cfg, ite_self]

theorem Trib.setMon_w_decl (t : Trib) (k : Nat) {m : Mon} (h : m.decl = (t.mon k).decl) : (t.setMon k m).w.decl = t.w.decl := by
  by_cases hk : k = 0
  · subst hk; exact h
  · simp only [Trib.setMon, if_neg hk, apply_ite Trib.w, ite_self]

/-- The tributary `tid` stands, with configuration `c` and no defect of its working copy declared. -/
def TribClean (d : Dev) (tid : Nat) (c : TribCfg) : Prop :=
  ∃ t, tribOf d tid = some t ∧ t.cfg = c ∧ t.w.decl = List.replicate 6 false

theorem TribClean.congr {a b : Dev} {tid : Nat} {c : TribCfg} (h : TribClean a tid c) (hab : b.cli = a.cli) :
    TribClean b tid c := by
  obtain ⟨t, ht, hc⟩ := h
  exact ⟨t, (tribOf_congr hab tid).trans ht, hc⟩

theorem TribClean.monFollow {d : Dev} {tid : Nat} {c : TribCfg} (h : TribClean d tid c) (sn : SN) (k : Nat) :
    TribClean (monFollow sn tid k d) tid c := by
  obtain ⟨t, ht, hc, hdecl⟩ := h
  obtain hcli | ⟨t', m, ht', hm, hcli⟩ := monFollow_cli sn tid k d
  · exact ⟨t, (tribOf_congr hcli tid).trans ht, hc, hdecl⟩
  · obtain rfl : t' = t := Option.some.inj (ht'.symm.trans ht)
    exact ⟨_, (tribOf_congr hcli tid).trans (tribOf_setTrib_same d tid _), (t'.setMon_cfg k m).trans hc,
      (t'.setMon_w_decl k hm).trans hdecl⟩

theorem evals_tribsFollow (sn : SN) (d : Dev) : Evals [] [.cli, .hif] d (tribsFollow sn d) :=
  .foldl (fun _ _ _ => .foldl (fun d k _ => evals_monFollow sn _ k d) _) d

theorem tribsFollow_cdef (sn : SN) (d : Dev) : (tribsFollow sn d).cli.cdef = d.cli.cdef :=
  foldl_same (g := fun d : Dev => d.cli.cdef)
    (fun _ _ => foldl_same (g := fun d : Dev => d.cli.cdef) (fun d k => monFollow_cdef sn _ k d) _ _) _ d

/-! ### What follows a change of conditions -/

theorem evals_followAll (sn : SN) (ns : Nat) (d : Dev) :
    Evals followRegs [.regs, .hif, .prot, .cli, .tim, .out, .twin] d (followAll sn ns d) :=
  (((evals_tribsFollow sn d).mono).next (evals_candEval true sn _) (by simp [followRegs])).next (evals_evalAll sn ns _)
    (by simp [followRegs])

theorem followAll_cdef (sn : SN) (ns : Nat) (d : Dev) : (followAll sn ns d).cli.cdef = d.cli.cdef := by
  rw [followAll, (evals_evalAll sn ns _).cli, (evals_candEval true sn _).cli, tribsFollow_cdef]

/-! ### Lanes (R120) -/

theorem evals_modFrm (d : Dev) (n : Nat) (f : Framer → Framer) : Evals [] [.frm] d (modFrm d n f) := .of_only (only_frm d _)
theorem evals_modDeg (d : Dev) (n : Nat) (f : Degrade → Degrade) : Evals [] [.deg] d (modDeg d n f) := .of_only (only_deg d _)

theorem evals_resetFilters (d : Dev) (n defs : Nat) : Evals [] [.frm, .deg] d (resetFilters d n defs) := by
  unfold resetFilters
  extract_lets hard soft d₁ d₂ d₃
  have h₁ : Evals [] [.frm, .deg] d d₁ := .ite (fun _ => (evals_modFrm d _ _).mono) fun _ => .refl _ _ d
  have h₂ : Evals [] [.frm, .deg] d d₂ := .ite (fun _ => h₁.next (evals_modFrm _ _ _)) fun _ => h₁
  have h₃ : Evals [] [.frm, .deg] d d₃ := .ite (fun _ => h₂.next (evals_modFrm _ _ _)) fun _ => h₂
  exact .ite (fun _ => h₃.next (evals_modDeg _ _ _)) fun _ => h₃

/-- The parts that the evaluation of a lane touches. -/
def laneParts : List Part := [.regs, .hif, .frm, .deg, .pm]

/-- The events of the lane's own defects, where its receiver reports them. -/
def laneEvents (sn : SN) (d : Dev) (n new : Nat) : Dev :=
  if laneSilent d n then d else
    (List.range (if isGlf (persOf d n) then 10 else 2)).foldl (fun e r =>
      if (rd d F.FRM_RX_STATUS_DEF n).testBit r = new.testBit r then e
      else defEvent sn (r + 1) (new.testBit r) 0 n (rd e F.FRM_RX_SN_SN n) e) d

/-- The lane once its defects are written and its filters reset. -/
def laneDeclared (sn : SN) (d : Dev) (n new : Nat) : Dev :=
  resetFilters (wr (laneEvents sn d n new) F.FRM_RX_STATUS_DEF n new) n new

/-- The evaluation of a lane in its stages: events, FRM_RX_STATUS.DEF, filters, FRM_RX_STATUS.COND, what PM has seen. -/
theorem laneStep_eq (sn : SN) (d : Dev) (n want : Nat) : ∃ bits, laneStep sn d n want =
    seenOr (wr (laneDeclared sn d n (laneDefs d n want)) F.FRM_RX_STATUS_COND n
      (condFrom (laneDeclared sn d n (laneDefs d n want)) n (laneDefs d n want)).code) 1 n bits :=
  ⟨_, rfl⟩

theorem evals_laneEvents (sn : SN) (d : Dev) (n new : Nat) : Evals [] [.hif] d (laneEvents sn d n new) :=
  .ite (fun _ => .refl _ _ d) fun _ => .foldl (fun e _ _ => .ite (fun _ => .refl _ _ e) fun _ => evals_defEvent _ _ _ _ _ _ e) d

theorem evals_laneDeclared (sn : SN) (d : Dev) (n new : Nat) :
    Evals [F.FRM_RX_STATUS_DEF.addr n] laneParts d (laneDeclared sn d n new) :=
  (((evals_laneEvents sn d n new).mono (by simp) (by simp [laneParts])).next (evals_wr _ _ _ _) (by simp) (by simp [laneParts])).next
    (evals_resetFilters _ _ _) (by simp) (by simp [laneParts])

theorem evals_laneStep (sn : SN) (d : Dev) (n want : Nat) :
    Evals [F.FRM_RX_STATUS_DEF.addr n] laneParts d (laneStep sn d n want) := by
  obtain ⟨bits, h⟩ := laneStep_eq sn d n want
  rw [h]
  exact ((evals_laneDeclared sn d n _).next (evals_wr _ F.FRM_RX_STATUS_COND n _) (List.Subset.refl _) (by simp [laneParts])).next
    (evals_seenOr _ _ _ _) (by simp) (by simp [laneParts])

@[simp] theorem rd_seenOr (d : Dev) (kind obj bits : Nat) (f : Fld) (i : Nat) : rd (seenOr d kind obj bits) f i = rd d f i :=
  rd_congr (seenOr_regs d kind obj bits) f i

theorem rd_laneStep_def (sn : SN) (d : Dev) (n want : Nat) :
    rd (laneStep sn d n want) F.FRM_RX_STATUS_DEF n = laneDefs d n want % 2 ^ 10 := by
  obtain ⟨bits, h⟩ := laneStep_eq sn d n want
  rw [h, rd_seenOr, rd_wr_bits _ _ _ _ _ _ (by decide), laneDeclared, (evals_resetFilters _ _ _).rd (by simp),
    rd_wr_same _ _ _ _ (by decide)]
  rfl

theorem rd_laneStep_cond (sn : SN) (d : Dev) (n want : Nat) :
    rd (laneStep sn d n want) F.FRM_RX_STATUS_COND n =
      (condFrom (laneDeclared sn d n (laneDefs d n want)) n (laneDefs d n want)).code := by
  obtain ⟨bits, h⟩ := laneStep_eq sn d n want
  have hcode (c : Cond) : c.code % 2 ^ F.FRM_RX_STATUS_COND.wd = c.code := by cases c <;> rfl
  rw [h, rd_seenOr, rd_wr_same _ _ _ _ (by decide), hcode]

end Sys2Proof.Machine
end

