-- ==== Sys2Proof/Proofs/TribCommands.lean ====
section
/-! PROOFS. TRIB_DEFINE, TRIB_RELEASE and DEFECT_CONFIG (R39, R42, R130, R168). -/

namespace Sys2Proof.Machine

/-! ### Problems of a descriptor -/

theorem reservedProb_of_none {raw : BitVec 512} (h : reservedAt raw = none) : reservedProb raw = [] := by
  simp [reservedProb, h]

/-- `p` comes no later than `q`: a lower offset, or at one offset no higher reason. -/
def Prob.le (p q : Prob) : Prop := p.1 < q.1 ∨ (p.1 = q.1 ∧ p.2 ≤ q.2)

theorem Prob.le_antisymm {p q : Prob} (h : p.le q) (k : q.le p) : p = q := by
  simp only [Prob.le] at h k
  exact Prod.ext (by omega) (by omega)

theorem Prob.le_trans {p q x : Prob} (h : p.le q) (k : q.le x) : p.le x := by
  simp only [Prob.le] at *
  omega

theorem Prob.le_total (p q : Prob) : p.le q ∨ q.le p := by
  simp only [Prob.le]
  omega

/-- The first problem is one of the problems, and none comes before it. -/
theorem firstProb_spec : ∀ l : List Prob, l ≠ [] → ∃ p, firstProb l = some p ∧ p ∈ l ∧ ∀ q ∈ l, p.le q
  | [], h => absurd rfl h
  | [p], _ => ⟨p, rfl, List.mem_singleton_self p, by simp [Prob.le]⟩
  | p :: x :: r, _ => by
    obtain ⟨q, hq, hmem, hle⟩ := firstProb_spec (x :: r) (List.cons_ne_nil x r)
    rw [firstProb, hq]
    dsimp only
    split
    case isTrue hpq =>
      exact ⟨p, rfl, List.mem_cons_self, List.forall_mem_cons.2 ⟨.inr ⟨rfl, le_rfl⟩, fun y hy => Prob.le_trans hpq (hle y hy)⟩⟩
    case isFalse hpq =>
      exact ⟨q, rfl, List.mem_cons_of_mem p hmem, List.forall_mem_cons.2 ⟨(q.le_total p).resolve_right hpq, hle⟩⟩

theorem firstProb_eq_some {l : List Prob} {p : Prob} (hmem : p ∈ l) (hle : ∀ q ∈ l, p.le q) : firstProb l = some p := by
  obtain ⟨q, hq, hqmem, hqle⟩ := firstProb_spec l (List.ne_nil_of_mem hmem)
  rw [hq, Prob.le_antisymm (hqle p hmem) (hle q hqmem)]

/-- `p` comes no later than any problem of the list. -/
def Prob.leads (p : Prob) (l : List Prob) : Prop := ∀ q ∈ l, p.le q

@[simp] theorem Prob.leads_nil (p : Prob) : p.leads [] := fun _ h => nomatch h

@[simp] theorem Prob.leads_append {p : Prob} {l m : List Prob} : p.leads (l ++ m) ↔ p.leads l ∧ p.leads m :=
  List.forall_mem_append

@[simp] theorem Prob.leads_probIf {p : Prob} {c : Bool} {off r : Nat} : p.leads (probIf c off r) ↔ (c = true → p.le (off, r)) := by
  cases c <;> simp [Prob.leads, probIf]

@[simp] theorem Prob.leads_flatMap {α : Type} {p : Prob} {l : List α} {f : α → List Prob} :
    p.leads (l.flatMap f) ↔ ∀ x ∈ l, p.leads (f x) := by
  simp only [Prob.leads, List.mem_flatMap, forall_exists_index, and_imp]
  exact ⟨fun h x hx q hq => h q x hx hq, fun h q x hx hq => h x hx q hq⟩

theorem Prob.le_of_offset {p : Prob} {off r : Nat} (h : p.1 < off) : p.le (off, r) := .inl h

/-- A problem before byte `off` leads the problems of the list named there. -/
theorem leads_listProbs {p : Prob} {d : Dev} {c : TribCfg} {off : Nat} {us other : List Nat} (hoff : p.1 < off) :
    p.leads (listProbs d c off us other) := by
  simp [listProbs, Prob.le_of_offset hoff]

/-- A client's problems lie behind byte 16, but for the PTYPE that no mapper writes. -/
theorem leads_clientProbs {r : Nat} {d : Dev} {raw : BitVec 512} {c : TribCfg} (hptype : c.ptype ≠ 7) :
    Prob.leads (16, r) (clientProbs d raw c) := by
  unfold clientProbs
  extract_lets flx grpOk bad egr
  split
  all_goals
    simpa [Prob.le] using fun h => absurd h hptype

/-- A TID in use is the first problem of a TRIB_DEFINE whose role and PTYPE stand (Table 13-11). -/
theorem firstProb_tribProbs_of_inUse {d : Dev} {raw : BitVec 512} {c : TribCfg} (huse : (tribOf d (dF raw 16 0 19)).isSome = true)
    (hrole : c.role ≠ 3) (hptype : c.ptype = 7 → c.role = 0) : firstProb (tribProbs d raw c) = some (16, 4) := by
  have hclient : Prob.leads (16, 4) (if c.role = 1 ∨ c.role = 2 then clientProbs d raw c
      else probIf (dF raw 48 0 64 != 0) 48 7) := by
    split
    case isTrue h => exact leads_clientProbs fun hp => by have := hptype hp; omega
    case isFalse => simp [Prob.le]
  have hloess : Prob.leads (16, 4) (if needsLoess d c then probIf (!decide (1 ≤ c.d16 ∧ c.d16 ≤ 64)) 24 1 ++
      probIf (decide (1024 * c.d16 ≤ 100 * c.m)) 24 7 else []) := by
    split <;> simp [Prob.le]
  have hleads : Prob.leads (16, 4) (tribProbs d raw c) := by
    have hlists : Prob.leads (16, 4) (listProbs d c 32 c.wl []) ∧ Prob.leads (16, 4) (listProbs d c 40 c.pl c.wl) :=
      ⟨leads_listProbs (by decide), leads_listProbs (by decide)⟩
    simp only [tribProbs, Prob.leads_append, hclient, hloess, hlists]
    simp [Prob.le, hrole]
  exact firstProb_eq_some (by simp [tribProbs, probIf, huse]) hleads

/-! ### What TRIB_DEFINE and TRIB_RELEASE do on the way -/

theorem evals_pmGone (d : Dev) (kind obj : Nat) (gone : Bool) : Evals [] [.pm] d (pmGone d kind obj gone) := by
  unfold pmGone
  extract_lets k
  split
  · exact .refl _ _ d
  · exact .of_only (only_pm d _)

theorem evals_pmGoneTid (d : Dev) (tid : Nat) (gone : Bool) : Evals [] [.pm] d (pmGoneTid d tid gone) :=
  .foldl (fun d _ _ => evals_pmGone d 2 _ gone) d

theorem evals_clearMon (sn : SN) (tid k : Nat) (t : Trib) (d : Dev) : Evals [] [.hif] d (clearMon sn tid k t d) := by
  unfold clearMon
  extract_lets m ev d₁ d₂
  have h₁ : Evals [] [.hif] d d₁ := .ite (fun _ => evals_defEvent _ _ _ _ _ _ _) fun _ => .refl _ _ d
  have h₂ : Evals [] [.hif] d d₂ := .ite (fun _ => h₁.trans (evals_defEvent _ _ _ _ _ _ _)) fun _ => h₁
  refine .ite (fun _ => .refl _ _ d) fun _ => .ite (fun _ => h₂) fun _ => h₂.trans (.foldl (fun e i _ => ?_) d₂)
  exact .ite (fun _ => evals_defEvent _ _ _ _ _ _ e) fun _ => .refl _ _ e

/-- The copies of a tributary follow their lanes. -/
theorem evals_copiesFollow (sn : SN) (tid : Nat) (d : Dev) :
    Evals [] [.cli, .hif] d ([0, 1, 2, 3].foldl (fun d k => monFollow sn tid k d) d) :=
  .foldl (fun d k _ => evals_monFollow sn tid k d) d

theorem tribOf_copiesFollow_ne (sn : SN) (d : Dev) {tid q : Nat} (hq : q ≠ tid) :
    tribOf ([0, 1, 2, 3].foldl (fun d k => monFollow sn tid k d) d) q = tribOf d q :=
  foldl_same (g := fun d => tribOf d q) (fun d k => tribOf_monFollow_ne sn k d hq) _ d

theorem TribClean.copiesFollow {d : Dev} {tid : Nat} {c : TribCfg} (h : TribClean d tid c) (sn : SN) :
    TribClean ([0, 1, 2, 3].foldl (fun d k => Machine.monFollow sn tid k d) d) tid c :=
  (((h.monFollow sn 0).monFollow sn 1).monFollow sn 2).monFollow sn 3

/-- A tributary leaves the device (R168): its defects are reported as cleared, its PM objects are gone, and of the clients'
state only the tributaries and what Loess still holds for them change. -/
theorem dropTrib_spec (sn : SN) {tid : Nat} {d : Dev} {t : Trib} (ht : tribOf d tid = some t) :
    Evals [] [.cli, .hif, .pm] d (dropTrib sn tid d) ∧
    ∃ drain, (dropTrib sn tid d).cli = { d.cli with tribs := tdel d.cli.tribs tid, drain := drain } := by
  unfold dropTrib
  rw [ht]
  dsimp only
  have hclear : Evals [] [.hif] d ([0, 1, 2, 3].foldl (fun d k => clearMon sn tid k t d) d) :=
    .foldl (fun d k _ => evals_clearMon sn tid k t d) d
  constructor
  · exact ((hclear.mono).next (.of_only (only_cli _ _))).next (evals_pmGoneTid _ tid true)
  · rw [(evals_pmGoneTid _ tid true).cli, hclear.cli]
    exact ⟨_, rfl⟩

/-- The device once TRIB_DEFINE has defined tributary `tid`, without Loess storage, and the copies follow their lanes. -/
def tribDefined (sn : SN) (ns tid : Nat) (c : TribCfg) (d : Dev) : Dev :=
  let mon : Mon := { lim := profAll d c.profile }
  evalAll sn ns ([0, 1, 2, 3].foldl (fun d k => monFollow sn tid k d)
    (pmGoneTid (setTrib d tid { cfg := c, w := mon, p := mon, c := mon, cp := mon }) tid false))

section
variable (sn : SN) (ns tid : Nat) (c : TribCfg) (d : Dev)

theorem evals_tribDefined : Evals evalRegs (.regs :: evalParts) d (tribDefined sn ns tid c d) := by
  refine Evals.next (Evals.next (Evals.next ((evals_setTrib d tid _).mono ?_ ?_) (evals_pmGoneTid _ tid false) ?_ ?_)
    (evals_copiesFollow sn tid _) ?_ ?_) (evals_evalAll sn ns _) pscRegs_subset ?_
  all_goals simp [evalParts]

theorem tribOf_tribDefined_ne {q : Nat} (hq : q ≠ tid) : tribOf (tribDefined sn ns tid c d) q = tribOf d q := by
  rw [tribDefined, tribOf_congr (evals_evalAll sn ns _).cli, tribOf_copiesFollow_ne sn _ hq,
    tribOf_congr (evals_pmGoneTid _ tid false).cli, tribOf_setTrib_ne d _ hq]

theorem tribClean_tribDefined : TribClean (tribDefined sn ns tid c d) tid c := by
  refine TribClean.congr (TribClean.copiesFollow (TribClean.congr ?_ (evals_pmGoneTid _ tid false).cli) sn)
    (evals_evalAll sn ns _).cli
  exact ⟨_, tribOf_setTrib_same d tid _, rfl, rfl⟩

end

/-- The device once TRIB_RELEASE has dropped a tributary received on GLF lanes. -/
def tribDropped (sn : SN) (ns tid : Nat) (d : Dev) : Dev := evalAll sn ns (dropTrib sn tid d)

section
variable (sn : SN) (ns : Nat) {tid : Nat} {d : Dev} {t : Trib} (ht : tribOf d tid = some t)
include ht

theorem evals_tribDropped : Evals evalRegs (.regs :: evalParts) d (tribDropped sn ns tid d) :=
  ((dropTrib_spec sn ht).1.mono (by simp) (by simp [evalParts])).next (evals_evalAll sn ns _) pscRegs_subset (by simp [evalParts])

theorem tribDropped_cli : ∃ drain, (tribDropped sn ns tid d).cli = { d.cli with tribs := tdel d.cli.tribs tid, drain := drain } := by
  rw [tribDropped, (evals_evalAll sn ns _).cli]
  exact (dropTrib_spec sn ht).2

theorem tribOf_tribDropped_same : tribOf (tribDropped sn ns tid d) tid = none := by
  obtain ⟨drain, h⟩ := tribDropped_cli sn ns ht
  simp [tribOf, h]

theorem tribOf_tribDropped_ne {q : Nat} (hq : q ≠ tid) : tribOf (tribDropped sn ns tid d) q = tribOf d q := by
  obtain ⟨drain, h⟩ := tribDropped_cli sn ns ht
  simp [tribOf, h, tfind_tdel_ne _ hq]

theorem tribDropped_loess : (tribDropped sn ns tid d).cli.loess = d.cli.loess := by
  obtain ⟨drain, h⟩ := tribDropped_cli sn ns ht
  rw [h]

end

/-! ### The commands (R39, R42, R130) -/

theorem finishM_of_no_mirror {d : Dev} (h : mirrors d = false) (r uid : Nat) (raw : BitVec 512) (st det : Nat) (sn : SN)
    (res : BitVec 64) (lists : List Nat) : finishM d r uid raw st det sn res lists = finish d r uid st det sn res := by
  simp [finishM, h]

/-- Without an allocation of the owner, the descriptor that ends it completes at once. -/
theorem endAlloc_of_none {d : Dev} {owner : Nat} (hmirror : mirrors d = false) (hnone : ∀ a ∈ d.cli.loess, a.owner ≠ owner)
    (r uid : Nat) (sn : SN) : endAlloc d owner r uid sn = finish d r uid stOk 0 sn := by
  have hany : (d.cli.loess.any fun a => a.owner == owner && !a.ended) = false := by
    simpa [List.any_eq_false] using fun a ha how => absurd how (hnone a ha)
  rw [endAlloc, hany, if_neg Bool.false_ne_true, finishM_of_no_mirror hmirror]

section
variable {d : Dev} {r : Nat} {e : QEnt} {sn : SN} {ns : Nat} {w p slots : List W32}

theorem serveTribDefine_of_inUse (he : servedBy d r 0x20 = some e) (hres : reservedAt e.raw = none)
    (huse : (tribOf d (dF e.raw 16 0 19)).isSome = true) (hrole : (tribCfg e.raw w p slots).role ≠ 3)
    (hptype : (tribCfg e.raw w p slots).ptype = 7 → (tribCfg e.raw w p slots).role = 0)
    (hflx : ¬ ((tribCfg e.raw w p slots).role = 2 ∧ isFlx d (tribCfg e.raw w p slots) = true)) :
    serveTribDefine r w p slots ns sn d = badDesc d r e.uid sn (16, 4) := by
  have hegr : ((tribCfg e.raw w p slots).role == 2 && isFlx d (tribCfg e.raw w p slots)) = false := by
    simpa using hflx
  simp only [serveTribDefine, he, hegr, reservedProb_of_none hres, List.nil_append, firstProb_tribProbs_of_inUse huse hrole hptype,
    Bool.false_and, Bool.false_eq_true, if_false]

theorem serveTribDefine_of_ok (he : servedBy d r 0x20 = some e) (hres : reservedAt e.raw = none) (hmirror : mirrors d = false)
    (hprob : firstProb (tribProbs d e.raw (tribCfg e.raw w p slots)) = none)
    (hloess : needsLoess d (tribCfg e.raw w p slots) = false) (hrole : (tribCfg e.raw w p slots).role = 0) :
    serveTribDefine r w p slots ns sn d =
      finish (tribDefined sn ns (dF e.raw 16 0 19) (tribCfg e.raw w p slots) d) r e.uid stOk 0 sn := by
  have hmirror' := (evals_tribDefined sn ns (dF e.raw 16 0 19) (tribCfg e.raw w p slots) d).mirrors.trans hmirror
  rw [← finishM_of_no_mirror hmirror' r e.uid e.raw stOk 0 sn 0 ((w ++ p ++ slots).map (·.toNat))]
  simp [serveTribDefine, tribDefined, he, reservedProb_of_none hres, hprob, hloess, hrole]

theorem serveTribRelease_of_none (he : servedBy d r 0x21 = some e) (hres : reservedAt e.raw = none)
    (hnone : tribOf d (dF e.raw 16 0 19) = none) : serveTribRelease r ns sn d = badDesc d r e.uid sn (16, 5) := by
  simp [serveTribRelease, he, reservedProb_of_none hres, hnone, probIf, firstProb]

theorem serveTribRelease_of_group {t : Trib} (he : servedBy d r 0x21 = some e) (hres : reservedAt e.raw = none)
    (ht : tribOf d (dF e.raw 16 0 19) = some t) (hgroup : ∃ g ∈ d.prot.groups, g.2.cfg.tid = some (dF e.raw 16 0 19)) :
    serveTribRelease r ns sn d = finish d r e.uid stDenied 3 sn := by
  have hany : (d.prot.groups.any fun g => g.2.cfg.tid == some (dF e.raw 16 0 19)) = true := by
    simpa only [List.any_eq_true, beq_iff_eq] using hgroup
  simp [serveTribRelease, he, reservedProb_of_none hres, ht, probIf, firstProb, hany]

theorem serveTribRelease_of_ok {t : Trib} (he : servedBy d r 0x21 = some e) (hres : reservedAt e.raw = none)
    (hmirror : mirrors d = false) (ht : tribOf d (dF e.raw 16 0 19) = some t) (hrole : t.cfg.role = 0)
    (hgroup : ∀ g ∈ d.prot.groups, g.2.cfg.tid ≠ some (dF e.raw 16 0 19))
    (hloess : ∀ a ∈ d.cli.loess, a.owner ≠ dF e.raw 16 0 19) :
    serveTribRelease r ns sn d = finish (tribDropped sn ns (dF e.raw 16 0 19) d) r e.uid stOk 0 sn := by
  have hany : (d.prot.groups.any fun g => g.2.cfg.tid == some (dF e.raw 16 0 19)) = false := by
    simpa only [List.any_eq_false, beq_iff_eq] using hgroup
  have hend := endAlloc_of_none ((evals_tribDropped sn ns ht).mirrors.trans hmirror)
    (by rwa [tribDropped_loess sn ns ht]) r e.uid sn
  rw [← hend]
  simp [serveTribRelease, tribDropped, he, reservedProb_of_none hres, ht, probIf, firstProb, hany, hrole]

/-- The device with the SET and CLR values that a DEFECT_CONFIG names for its profile. -/
def profileSet (raw : BitVec 512) (d : Dev) : Dev :=
  { d with cli := { d.cli with
      profiles := tins d.cli.profiles (dF raw 16 0 4) ((List.range 6).map fun i => dF raw (20 + 4 * i) 0 24) } }

theorem serveDefectConfig_eq (he : servedBy d r 0x40 = some e) (hres : reservedAt e.raw = none) (hmirror : mirrors d = false) :
    serveDefectConfig r sn d = finish (profileSet e.raw d) r e.uid stOk 0 sn := by
  have hmirror' : mirrors (profileSet e.raw d) = false := hmirror
  rw [← finishM_of_no_mirror hmirror' r e.uid e.raw stOk 0 sn 0 []]
  simp [serveDefectConfig, profileSet, he, reservedProb_of_none hres, firstProb]

end

/-- The two halves of a 24-bit field. -/
theorem dF_low_half (raw : BitVec 512) (off : Nat) : dF raw off 0 24 % 4096 = dF raw off 0 12 :=
  Nat.mod_mod_of_dvd _ (by decide)
theorem dF_high_half (raw : BitVec 512) (off : Nat) : dF raw off 0 24 / 4096 % 4096 = dF raw off 12 12 := by
  simp only [dF, Nat.shiftRight_add, Nat.add_zero]
  omega

theorem profOf_profileSet_same (raw : BitVec 512) (d : Dev) {i : Nat} (hi : i < 6) :
    profOf (profileSet raw d) (dF raw 16 0 4) i = (max 1 (dF raw (20 + 4 * i) 0 12), max 1 (dF raw (20 + 4 * i) 12 12)) := by
  simp [profOf, profileSet, hi, dF_low_half, dF_high_half]

theorem profOf_profileSet_ne (raw : BitVec 512) (d : Dev) {q : Nat} (hq : q ≠ dF raw 16 0 4) (i : Nat) :
    profOf (profileSet raw d) q i = profOf d q i := by
  simp [profOf, profileSet, tfind_tins_ne _ _ hq]

/-! ### What the host sees -/

/-- A command of a running core does what its meaning does. -/
theorem acts_of_core {ps : List Part} {c : Instr} {s : State} {g : Dev → Dev} {e : Dev} {f : State → Prop}
    (hexec : exec c s = core s g) (hcore : s.dev.pwr.core = true) (hg : g s.dev = e) (hparts : Only ps s.dev e)
    (hf : f { s with dev := e }) : Acts ps c s f := by
  subst hg
  exact ⟨_, hexec.trans (core_next s g hcore), devOnly_dev s _, hparts, hf⟩

/-- An evaluation after which a descriptor completes. -/
theorem actsR_of_evals {c : Instr} {s : State} {g : Dev → Dev} {e : Dev} {r uid st det : Nat} {sn : SN} {f : State → Prop}
    (hexec : exec c s = core s g) (hcore : s.dev.pwr.core = true) (hg : g s.dev = finish e r uid st det sn 0)
    (he : Evals evalRegs (.regs :: evalParts) s.dev e)
    (hf : Served s.dev (finish e r uid st det sn 0) r uid st det sn 0 → f { s with dev := finish e r uid st det sn 0 }) :
    ActsR evalRegs evalParts c s f := by
  refine acts_of_core hexec hcore hg ((he.parts.trans (only_finish e r uid st det sn 0)).mono (by simp [evalParts])) ⟨?_, ?_⟩
  · exact (he.regs.trans (onlyRegs_of_eq [] rfl)).mono (by simp)
  · exact hf (he.served (served_finish e r uid st det sn 0))

section
variable {s : State} {r : Fin 16} {e : QEnt} (hcore : s.dev.pwr.core = true) (hres : reservedAt e.raw = none)
include hcore hres

section
variable {w p slots : List W32} (ns : Nat) (he : servedBy s.dev r 0x20 = some e)
include he

theorem tribDefine_ok (hmirror : mirrors s.dev = false)
    (hprob : firstProb (tribProbs s.dev e.raw (tribCfg e.raw w p slots)) = none)
    (hloess : needsLoess s.dev (tribCfg e.raw w p slots) = false) (hrole : (tribCfg e.raw w p slots).role = 0) :
    ActsR evalRegs evalParts (.tribDefine r w p slots ns) s fun t =>
      (∀ q, q ≠ dF e.raw 16 0 19 → tribOf t.dev q = tribOf s.dev q) ∧
      TribClean t.dev (dF e.raw 16 0 19) (tribCfg e.raw w p slots) ∧ Served s.dev t.dev r e.uid 0 0 s.sn 0 := by
  have hserve := serveTribDefine_of_ok (sn := s.sn) (ns := ns) he hres hmirror hprob hloess hrole
  have hev := evals_tribDefined s.sn ns (dF e.raw 16 0 19) (tribCfg e.raw w p slots) s.dev
  have hne (q : Nat) := tribOf_tribDefined_ne s.sn ns (dF e.raw 16 0 19) (tribCfg e.raw w p slots) s.dev (q := q)
  have hclean := tribClean_tribDefined s.sn ns (dF e.raw 16 0 19) (tribCfg e.raw w p slots) s.dev
  generalize tribDefined s.sn ns (dF e.raw 16 0 19) (tribCfg e.raw w p slots) s.dev = d at *
  exact actsR_of_evals rfl hcore hserve hev fun hserved => ⟨hne, hclean, hserved⟩

theorem tribDefine_inUse (huse : (tribOf s.dev (dF e.raw 16 0 19)).isSome = true) (hrole : (tribCfg e.raw w p slots).role ≠ 3)
    (hptype : (tribCfg e.raw w p slots).ptype = 7 → (tribCfg e.raw w p slots).role = 0)
    (hflx : ¬ ((tribCfg e.raw w p slots).role = 2 ∧ isFlx s.dev (tribCfg e.raw w p slots) = true)) :
    Acts [.hif] (.tribDefine r w p slots ns) s fun t => Served s.dev t.dev r e.uid 0x12 (16 + 256 * 4) s.sn 0 :=
  acts_of_core rfl hcore (serveTribDefine_of_inUse he hres huse hrole hptype hflx) (only_finish s.dev r e.uid _ _ s.sn 0)
    (served_badDesc s.dev r e.uid s.sn (16, 4))

end

section
variable (ns : Nat) (he : servedBy s.dev r 0x21 = some e)
include he

theorem tribRelease_ok {t₀ : Trib} (hmirror : mirrors s.dev = false) (ht : tribOf s.dev (dF e.raw 16 0 19) = some t₀)
    (hrole : t₀.cfg.role = 0) (hgroup : ∀ g ∈ s.dev.prot.groups, g.2.cfg.tid ≠ some (dF e.raw 16 0 19))
    (hloess : ∀ a ∈ s.dev.cli.loess, a.owner ≠ dF e.raw 16 0 19) :
    ActsR evalRegs evalParts (.tribRelease r ns) s fun t =>
      (∀ q, q ≠ dF e.raw 16 0 19 → tribOf t.dev q = tribOf s.dev q) ∧
      tribOf t.dev (dF e.raw 16 0 19) = none ∧ Served s.dev t.dev r e.uid 0 0 s.sn 0 :=
  actsR_of_evals rfl hcore (serveTribRelease_of_ok he hres hmirror ht hrole hgroup hloess) (evals_tribDropped s.sn ns ht)
    fun hserved => ⟨fun _ hq => tribOf_tribDropped_ne s.sn ns ht hq, tribOf_tribDropped_same s.sn ns ht, hserved⟩

theorem tribRelease_denied {t₀ : Trib} (ht : tribOf s.dev (dF e.raw 16 0 19) = some t₀)
    (hgroup : ∃ g ∈ s.dev.prot.groups, g.2.cfg.tid = some (dF e.raw 16 0 19)) :
    Acts [.hif] (.tribRelease r ns) s fun t => Served s.dev t.dev r e.uid 0x11 3 s.sn 0 :=
  acts_of_core rfl hcore (serveTribRelease_of_group he hres ht hgroup) (only_finish s.dev r e.uid _ _ s.sn 0)
    (served_finish s.dev r e.uid _ _ s.sn 0)

theorem tribRelease_unknown (hnone : tribOf s.dev (dF e.raw 16 0 19) = none) :
    Acts [.hif] (.tribRelease r ns) s fun t => Served s.dev t.dev r e.uid 0x12 (16 + 256 * 5) s.sn 0 :=
  acts_of_core rfl hcore (serveTribRelease_of_none he hres hnone) (only_finish s.dev r e.uid _ _ s.sn 0)
    (served_badDesc s.dev r e.uid s.sn (16, 5))

end

theorem defectConfig_ok (he : servedBy s.dev r 0x40 = some e) (hmirror : mirrors s.dev = false) :
    Acts [.cli, .hif] (.defectConfig r) s fun t =>
      (∀ i < 6, profOf t.dev (dF e.raw 16 0 4) i =
        (max 1 (dF e.raw (20 + 4 * i) 0 12), max 1 (dF e.raw (20 + 4 * i) 12 12))) ∧
      (∀ q i, q ≠ dF e.raw 16 0 4 → profOf t.dev q i = profOf s.dev q i) ∧
      t.dev.cli = { s.dev.cli with profiles := t.dev.cli.profiles } ∧ Served s.dev t.dev r e.uid 0 0 s.sn 0 :=
  acts_of_core rfl hcore (serveDefectConfig_eq he hres hmirror)
    ((only_cli s.dev _).trans (only_finish (profileSet e.raw s.dev) r e.uid _ _ s.sn 0))
    ⟨fun _ hi => profOf_profileSet_same e.raw s.dev hi, fun _ i hq => profOf_profileSet_ne e.raw s.dev hq i, rfl,
      served_finish (profileSet e.raw s.dev) r e.uid _ _ s.sn 0⟩

end

end Sys2Proof.Machine
end

