-- ==== Sys2Proof/Proofs/ClientDefects.lean ====
section
/-! PROOFS. Client defects (R121, R122, R157): on a client whose lanes are received without a defect of their own, a
client defect takes rank 3 on every lane. -/

namespace Sys2Proof.Machine

/-! ### What depends on the configuration alone -/

section
variable {ps : List Part} {a b : Dev} (h : Evals evalRegs ps a b)
include h

theorem Evals.persOf (n : Nat) : Machine.persOf b n = Machine.persOf a n := h.rd_quiet rfl n

theorem Evals.clientLanes (n : Nat) : Machine.clientLanes b n = Machine.clientLanes a n := by
  simp only [Machine.clientLanes, h.persOf, h.rd_quiet (f := F.MAP_LANE_CFG_MODE) rfl, h.rd_quiet (f := F.MAP_LANE_CFG_WIDTH) rfl,
    h.rd_quiet (f := F.MAP_LANE_FLX_GRP) rfl]

theorem Evals.clientKey (n : Nat) : Machine.clientKey b n = Machine.clientKey a n := by
  simp only [Machine.clientKey, h.clientLanes]

theorem Evals.cdefOf (hcdef : b.cli.cdef = a.cli.cdef) (n : Nat) : Machine.cdefOf b n = Machine.cdefOf a n := by
  simp only [Machine.cdefOf, h.clientKey, hcdef]

end

/-! ### A client lane that is received -/

/-- Lane `n` has a client personality, its receiver is on, and it has neither dLOS nor dLOL. -/
structure ClientLaneUp (d : Dev) (n : Nat) : Prop where
  client : isClient (persOf d n) = true
  enabled : rd d F.LNE_CTL_RX_EN n = 1
  los : rd d F.LNE_STATUS_LOS n = 0
  cdrLock : rd d F.LNE_STATUS_CDR_LOCK n = 1

namespace ClientLaneUp

theorem of_evals {ps : List Part} {a b : Dev} {n : Nat} (h : ClientLaneUp a n) (he : Evals evalRegs ps a b) : ClientLaneUp b n :=
  ⟨by rw [he.persOf]; exact h.client, (he.rd_quiet rfl n).trans h.enabled, (he.rd_quiet rfl n).trans h.los,
    (he.rd_quiet rfl n).trans h.cdrLock⟩

variable {d : Dev} {n : Nat} (h : ClientLaneUp d n)
include h

theorem notGlf : isGlf (persOf d n) = false := by
  have hclient := h.client
  simp only [isClient, isGlf, decide_eq_true_eq, decide_eq_false_iff_not] at *
  omega

theorem notSilent : laneSilent d n = false := by
  have hclient := h.client
  simp only [isClient, decide_eq_true_eq] at hclient
  simp only [laneSilent, rdB, h.enabled, Bool.or_eq_false_iff, beq_eq_false_iff_ne]
  exact ⟨rfl, by omega⟩

theorem noLos : dLos d n = false := by simp [dLos, rdB, h.los]
theorem noLol : dLol d n = false := by simp [dLol, rdB, h.cdrLock]

/-- The lane's one defect is rank 3, for the defects of its client (R121, R157). -/
theorem laneDefs (want : Nat) : Machine.laneDefs d n want = if cdefOf d n != 0 then 4 else 0 := by
  simp [Machine.laneDefs, h.notSilent, h.notGlf, h.noLos, h.noLol, h.client]

/-- Its condition is SF, unless cLF is all that its client has (R122, R157). -/
theorem condFrom {defs : Nat} (hdefs : defs = 4 ∨ defs = 0) :
    Machine.condFrom d n defs = if (cdefOf d n).toNat &&& 0x7F != 0 then .sf else .none := by
  have hsix : Nat.testBit 4 6 = false := by decide
  have hseven : Nat.testBit 4 7 = false := by decide
  rcases hdefs with rfl | rfl <;> simp [Machine.condFrom, h.notSilent, h.notGlf, h.client, hsix, hseven]

end ClientLaneUp

/-- Rank 3 alone stands in FRM_RX_STATUS.DEF of lane `n` where its client has defects `x`, and SF unless they are cLF. -/
def ShowsClient (x : BitVec 8) (d : Dev) (n : Nat) : Prop :=
  rd d F.FRM_RX_STATUS_DEF n = (if x != 0 then 4 else 0) ∧
  rd d F.FRM_RX_STATUS_COND n = if x.toNat &&& 0x7F != 0 then 2 else 0

theorem ShowsClient.of_evals {as : List Nat} {ps : List Part} {a b : Dev} {n : Nat} {x : BitVec 8} (h : ShowsClient x a n)
    (he : Evals as ps a b) (hn : F.FRM_RX_STATUS_DEF.addr n ∉ as) : ShowsClient x b n :=
  ⟨(he.rd hn).trans h.1, (he.rd (f := F.FRM_RX_STATUS_COND) hn).trans h.2⟩

theorem showsClient_laneStep (sn : SN) {d : Dev} {n : Nat} (hn : n < 128) (h : ClientLaneUp d n) (want : Nat) :
    ShowsClient (cdefOf d n) (laneStep sn d n want) n := by
  have hdefs : laneDefs d n want = 4 ∨ laneDefs d n want = 0 := by
    rw [h.laneDefs]; split <;> simp
  have hstep := (evals_laneDeclared sn d n (laneDefs d n want)).mono (as := evalRegs) (ps := laneParts)
    (by simpa [evalRegs_eq] using Or.inl (addr_mem_statusRegs hn)) (List.Subset.refl _)
  have hcdef := hstep.cdefOf (congrArg Clients.cdef (hstep.cli (by simp [laneParts]))) n
  refine ⟨?_, ?_⟩
  · rw [rd_laneStep_def, h.laneDefs]; split <;> rfl
  · rw [rd_laneStep_cond, (h.of_evals hstep).condFrom hdefs, hcdef]; split <;> rfl

/-- The evaluation of every lane of a client. -/
theorem evals_laneSteps (sn : SN) (d : Dev) (ls : List Nat) :
    Evals (ls.map F.FRM_RX_STATUS_DEF.addr) laneParts d (ls.foldl (fun d m => laneStep sn d m 0) d) :=
  .foldl (fun d m hm => (evals_laneStep sn d m 0).mono (by simpa using ⟨m, hm, rfl⟩) (List.Subset.refl _)) d

theorem status_addr_injective : Function.Injective F.FRM_RX_STATUS_DEF.addr := fun m n h => by
  simp only [addr_status] at h
  omega

theorem showsClient_laneSteps (sn : SN) {x : BitVec 8} {ls : List Nat} {d : Dev} (hlt : ∀ m ∈ ls, m < 128)
    (hup : ∀ m ∈ ls, ClientLaneUp d m) (hx : ∀ m ∈ ls, cdefOf d m = x) :
    ∀ m ∈ ls, ShowsClient x (ls.foldl (fun d m => laneStep sn d m 0) d) m := by
  induction ls generalizing d with
  | nil => exact fun _ h => nomatch h
  | cons n ls ih =>
    obtain ⟨hn, hlt⟩ := List.forall_mem_cons.1 hlt
    have hstep := (evals_laneStep sn d n 0).mono (as := evalRegs) (ps := laneParts)
      (by simpa [evalRegs_eq] using Or.inl (addr_mem_statusRegs hn)) (List.Subset.refl _)
    have hcdef := hstep.cdefOf (congrArg Clients.cdef (hstep.cli (by simp [laneParts])))
    have hrest := ih hlt (fun m hm => (hup m (List.mem_cons_of_mem n hm)).of_evals hstep)
      fun m hm => (hcdef m).trans (hx m (List.mem_cons_of_mem n hm))
    intro m hm
    by_cases hmem : m ∈ ls
    · exact hrest m hmem
    · obtain rfl : m = n := (List.mem_cons.1 hm).resolve_right hmem
      rw [← hx m List.mem_cons_self]
      exact (showsClient_laneStep sn hn (hup m List.mem_cons_self) 0).of_evals (evals_laneSteps sn _ ls)
        (by simpa [status_addr_injective.eq_iff] using hmem)

/-! ### The defects of a client -/

/-- A fold in which one element alone does something. -/
theorem foldl_eq_of_single {α β : Type} {f : α → β → α} {l : List β} {c : β} (hl : l.Nodup) (hc : c ∈ l)
    (h : ∀ a, ∀ x ∈ l, x ≠ c → f a x = a) (a : α) : l.foldl f a = f a c := by
  have hid (l' : List β) (hsub : ∀ x ∈ l', x ∈ l ∧ x ≠ c) (a : α) : l'.foldl f a = a := by
    induction l' generalizing a with
    | nil => rfl
    | cons x l' ih =>
      obtain ⟨⟨hx, hne⟩, hsub⟩ := List.forall_mem_cons.1 hsub
      rw [List.foldl_cons, h a x hx hne, ih hsub]
  obtain ⟨l₁, l₂, rfl⟩ := List.append_of_mem hc
  have hdis := List.nodup_middle.1 hl
  have hnot : ∀ x ∈ l₁ ++ l₂, x ≠ c := fun x hx hxc => (List.nodup_cons.1 hdis).1 (hxc ▸ hx)
  rw [List.foldl_append, List.foldl_cons, hid l₁ (fun x hx => ⟨by simp [hx], hnot x (by simp [hx])⟩),
    hid l₂ fun x hx => ⟨by simp [hx], hnot x (by simp [hx])⟩]

/-- The device with the declared defects `x` of the client named `key`. -/
def cdefSet (d : Dev) (key : Nat) (x : BitVec 8) : Dev := { d with cli := { d.cli with cdef := tput 0 d.cli.cdef key x } }

/-- Where one defect changes, one event reports it. -/
theorem setCdef_of_single {d : Dev} {key n c : Nat} {x : BitVec 8} (sn : SN) (hlane : cdefLane d key = some n) (hc : c < 8)
    (hchange : x.getLsbD c ≠ (tget 0 d.cli.cdef key).getLsbD c)
    (hsame : ∀ j < 8, j ≠ c → x.getLsbD j = (tget 0 d.cli.cdef key).getLsbD j) :
    setCdef sn d key x = defEvent sn (0x21 + c) (x.getLsbD c) 0 n (rd d F.FRM_RX_SN_SN n) (cdefSet d key x) := by
  simp only [setCdef, hlane]
  rw [foldl_eq_of_single List.nodup_range (List.mem_range.2 hc)
    fun e j hj hne => if_pos (hsame j (List.mem_range.1 hj) hne), if_neg hchange]
  rfl

/-- A client whose lanes are all received without a defect of their own, as `clientDefectChange` finds it (R157). -/
structure ClientUp (d : Dev) (n : Nat) : Prop where
  lane : n < 128
  mode : rd d F.MAP_LANE_CFG_MODE n ≠ 3
  up : ∀ m ∈ clientLanes d n, ClientLaneUp d m
  key : ∀ m ∈ clientLanes d n, clientKey d m = clientKey d n
  lanes : ∀ m ∈ clientLanes d n, clientLanes d m = clientLanes d n

namespace ClientUp

variable {d : Dev} {n : Nat} (h : ClientUp d n)
include h

/-- A client outside FlexE takes the 1, 2, 4 or 8 lanes of its block (R138). -/
theorem mem_clientLanes {m : Nat} : m ∈ clientLanes d n ↔
    ∃ i < 2 ^ rd d F.MAP_LANE_CFG_WIDTH n, n / 2 ^ rd d F.MAP_LANE_CFG_WIDTH n * 2 ^ rd d F.MAP_LANE_CFG_WIDTH n + i = m := by
  simp [clientLanes, h.mode]

theorem self_mem : n ∈ clientLanes d n :=
  h.mem_clientLanes.2 ⟨n % 2 ^ rd d F.MAP_LANE_CFG_WIDTH n, Nat.mod_lt _ (Nat.two_pow_pos _), Nat.div_add_mod' _ _⟩

theorem lane_lt {m : Nat} (hm : m ∈ clientLanes d n) : m < 128 := by
  obtain ⟨i, hi, rfl⟩ := h.mem_clientLanes.1 hm
  have hlane := h.lane
  have hwidth : rd d F.MAP_LANE_CFG_WIDTH n < 4 := rd_lt d F.MAP_LANE_CFG_WIDTH n
  generalize rd d F.MAP_LANE_CFG_WIDTH n = w at *
  interval_cases w <;> omega

theorem key_mem : clientKey d n ∈ clientLanes d n := by
  rw [clientKey]
  cases hlanes : clientLanes d n with
  | nil => exact absurd h.self_mem (by simp [hlanes])
  | cons m ls => exact List.mem_cons_self

/-- The receiver of every lane reports defects, the first one's for the client (R120). -/
theorem cdefLane_of_mem {m : Nat} (hm : m ∈ clientLanes d n) : cdefLane d m = some (clientKey d n) := by
  have hkey := h.key_mem
  have hup := (h.up _ hkey).notSilent
  simp only [cdefLane, clientKey, h.lanes m hm] at *
  cases hlanes : clientLanes d n with
  | nil => exact absurd h.self_mem (by simp [hlanes])
  | cons k ls => simp_all

theorem not_down : clientDown d n = false := by
  have hself := h.up n h.self_mem
  simp only [clientDown, List.all_eq_false]
  exact ⟨n, h.self_mem, by simp [hself.notSilent, hself.noLos, hself.noLol]⟩

theorem of_evals {ps : List Part} {b : Dev} (he : Evals evalRegs ps d b) : ClientUp b n := by
  refine ⟨h.lane, ?_, ?_, ?_, ?_⟩
  · rw [he.rd_quiet rfl]; exact h.mode
  all_goals
    rw [he.clientLanes]
    intro m hm
  · exact (h.up m hm).of_evals he
  · rw [he.clientKey, he.clientKey, h.key m hm]
  · rw [he.clientLanes, h.lanes m hm]

end ClientUp

/-- The lanes of lane `n`'s client are evaluated, and what depends on them. -/
def clientEvaluated (sn : SN) (ns n : Nat) (d : Dev) : Dev :=
  followAll sn ns ((clientLanes d n).foldl (fun d m => laneStep sn d m 0) d)

theorem clientEvaluated_cdef (sn : SN) (ns n : Nat) (d : Dev) : (clientEvaluated sn ns n d).cli.cdef = d.cli.cdef := by
  rw [clientEvaluated, followAll_cdef, (evals_laneSteps sn d _).cli (by simp [laneParts])]

/-- The event of client defect `c` of lane `n`'s client, declared or cleared (R134, Table 13-13). -/
def cdefEvent (sn : SN) (d : Dev) (n c : Nat) (on : Bool) : Ev :=
  { typ := 0x10, sn := sn, p0 := 0x21 + c + 256 * on.toNat, p1 := clientKey d n, p2 := rd d F.FRM_RX_SN_SN (clientKey d n) }

section
variable {d : Dev} {n : Nat} (h : ClientUp d n)
include h

theorem evals_clientEvaluated (sn : SN) (ns : Nat) : Evals evalRegs (.regs :: evalParts) d (clientEvaluated sn ns n d) := by
  have hstatus : (clientLanes d n).map F.FRM_RX_STATUS_DEF.addr ⊆ evalRegs := fun a ha => by
    obtain ⟨m, hm, rfl⟩ := List.mem_map.1 ha
    rw [evalRegs_eq]
    exact List.mem_append_left _ (addr_mem_statusRegs (h.lane_lt hm))
  exact ((evals_laneSteps sn d (clientLanes d n)).mono hstatus (by simp [laneParts, evalParts])).next (evals_followAll sn ns _)
    followRegs_subset (by simp [evalParts])

theorem showsClient_clientEvaluated (sn : SN) (ns : Nat) :
    ∀ m ∈ clientLanes d n, ShowsClient (cdefOf d n) (clientEvaluated sn ns n d) m := fun m hm =>
  (showsClient_laneSteps sn (fun _ => h.lane_lt) h.up (fun k hk => by rw [cdefOf, h.key k hk, ← cdefOf]) m hm).of_evals
    (evals_followAll sn ns _) (status_not_mem_followRegs m)

section
variable {c : Nat} {x : BitVec 8} (hc : c < 8) (hchange : x.getLsbD c ≠ (cdefOf d n).getLsbD c)
  (hsame : ∀ j < 8, j ≠ c → x.getLsbD j = (cdefOf d n).getLsbD j)
include hc hchange hsame

/-- Where the client's defects become `x`, by a change of defect `c` alone. -/
theorem setCdef_eq (sn : SN) : setCdef sn d (clientKey d n) x =
    raise (cdefSet d (clientKey d n) x) (cdefEvent sn d n c (x.getLsbD c)) :=
  setCdef_of_single sn (h.cdefLane_of_mem h.key_mem) hc hchange hsame

theorem evals_setCdef (sn : SN) : Evals evalRegs (.regs :: evalParts) d (setCdef sn d (clientKey d n) x) := by
  have hset : Evals evalRegs (.regs :: evalParts) d (cdefSet d (clientKey d n) x) :=
    (Evals.of_only (only_cli d _)).mono (by simp) (by simp [evalParts])
  rw [setCdef_eq h hc hchange hsame]
  exact hset.next (evals_raise _ _) (by simp) (by simp [evalParts])

theorem cdefOf_setCdef (sn : SN) : cdefOf (setCdef sn d (clientKey d n) x) n = x := by
  rw [cdefOf, (evals_setCdef h hc hchange hsame sn).clientKey, setCdef_eq h hc hchange hsame]
  exact tget_tput_same _ _ _ _

/-- A change of one client defect, with all that follows (R121, R122, R157). -/
theorem clientChanged_spec {t : Dev} {sn : SN} {ns : Nat}
    (ht : t = clientEvaluated sn ns n (setCdef sn d (clientKey d n) x)) :
    Evals evalRegs (.regs :: evalParts) d t ∧ cdefOf t n = x ∧ (∀ m ∈ clientLanes d n, ShowsClient x t m) ∧
    ∃ es, Raised d t (cdefEvent sn d n c (x.getLsbD c) :: es) := by
  have hset := evals_setCdef h hc hchange hsame sn
  have hx := cdefOf_setCdef h hc hchange hsame sn
  have hup := h.of_evals hset
  have hafter := evals_clientEvaluated hup sn ns
  rw [← ht] at hafter
  obtain ⟨es, hes⟩ := hafter.events
  have hraised : Raised d (setCdef sn d (clientKey d n) x) [cdefEvent sn d n c (x.getLsbD c)] := by
    rw [setCdef_eq h hc hchange hsame]
    exact raised_raise (cdefSet d (clientKey d n) x) _
  refine ⟨hset.trans hafter, ?_, ?_, es, hraised.trans hes hset.role⟩
  · rw [hafter.cdefOf (by rw [ht, clientEvaluated_cdef]), hx]
  · rw [ht, ← hset.clientLanes]
    simpa only [hx] using showsClient_clientEvaluated hup sn ns

end
end

/-! ### CLIENT_DEFECT_CHANGE (R157) -/

/-- A client defect alone is suppressed by none (Table 6-5). -/
theorem cEffective_single (c : Fin 8) : cEffective (0 ||| BitVec.ofNat 8 (2 ^ c.val)) = BitVec.ofNat 8 (2 ^ c.val) := by
  revert c; decide +kernel

theorem getLsbD_single (c : Fin 8) (j : Nat) : (BitVec.ofNat 8 (2 ^ c.val)).getLsbD j = decide (j = c.val) := by
  have hc := c.isLt
  rw [BitVec.getLsbD_ofNat, Nat.testBit_two_pow]
  by_cases hj : c.val = j
  · simp [← hj]
  · simp [hj, Ne.symm hj]

theorem single_ne_zero : ∀ c : Fin 8, (BitVec.ofNat 8 (2 ^ c.val) != 0) = true := by decide

/-- Of the client defects cLF alone does not call for SF (R122). -/
theorem single_calls_sf : ∀ c : Fin 8, ((BitVec.ofNat 8 (2 ^ c.val)).toNat &&& 0x7F != 0) = decide (c.val < 7) := by decide

/-- A single client defect shows as rank 3, with SF but for cLF. -/
theorem ShowsClient.single {d : Dev} {n : Nat} {c : Fin 8} (h : ShowsClient (BitVec.ofNat 8 (2 ^ c.val)) d n) :
    rd d F.FRM_RX_STATUS_DEF n = 4 ∧ rd d F.FRM_RX_STATUS_COND n = if c.val < 7 then 2 else 0 := by
  simpa only [ShowsClient, single_ne_zero, single_calls_sf, if_true, decide_eq_true_eq] using h

theorem ShowsClient.zero {d : Dev} {n : Nat} (h : ShowsClient 0 d n) :
    rd d F.FRM_RX_STATUS_DEF n = 0 ∧ rd d F.FRM_RX_STATUS_COND n = 0 := h

section
variable {d : Dev} {n : Nat} {c : Fin 8} (sn : SN) (ns : Nat)

theorem clientDefect_of_not_mode (on : Bool) (hmode : cdefMode d n c = false) : clientDefect n c on ns sn d = d := by
  simp [clientDefect, hmode]

variable (h : ClientUp d n) (hmode : cdefMode d n c = true)
include h hmode

theorem clientDefect_on (hnone : cdefOf d n = 0) : clientDefect n c true ns sn d =
    clientEvaluated sn ns n (setCdef sn d (clientKey d n) (BitVec.ofNat 8 (2 ^ c.val))) := by
  have hclient := (h.up n h.self_mem).client
  have hold : tget 0 d.cli.cdef (clientKey d n) = 0 := hnone
  have hlane := h.cdefLane_of_mem h.self_mem
  simp only [clientDefect, hclient, hmode, hlane, h.not_down, hold, cEffective_single, clientEvaluated]
  simp

theorem clientDefect_off (hone : cdefOf d n = BitVec.ofNat 8 (2 ^ c.val)) : clientDefect n c false ns sn d =
    clientEvaluated sn ns n (setCdef sn d (clientKey d n) 0) := by
  have hclient := (h.up n h.self_mem).client
  have hold : tget 0 d.cli.cdef (clientKey d n) = BitVec.ofNat 8 (2 ^ c.val) := hone
  have hlane := h.cdefLane_of_mem h.self_mem
  simp only [clientDefect, hclient, hmode, hlane, hold, BitVec.and_not_self, clientEvaluated]
  simp

end

section
variable {s : State} {n : Fin 128} {c : Fin 8} (ns : Nat) (hcore : s.dev.pwr.core = true)
include hcore

theorem clientDefectChange_other_mode (on : Bool) (hmode : cdefMode s.dev n c = false) :
    exec (.clientDefectChange n c on ns) s = .next s :=
  (core_next s (clientDefect n c on ns s.sn) hcore).trans (by rw [clientDefect_of_not_mode s.sn ns on hmode])

variable (h : ClientUp s.dev n) (hmode : cdefMode s.dev n c = true)
include h hmode

theorem clientDefectChange_on (hnone : cdefOf s.dev n = 0) :
    ActsR evalRegs evalParts (.clientDefectChange n c true ns) s fun t =>
      cdefOf t.dev n = BitVec.ofNat 8 (2 ^ c.val) ∧
      (∀ m ∈ clientLanes s.dev n, rd t.dev F.FRM_RX_STATUS_DEF m = 4 ∧
        rd t.dev F.FRM_RX_STATUS_COND m = if c.val < 7 then 2 else 0) ∧
      ∃ es, Raised s.dev t.dev ({ typ := 0x10, sn := s.sn, p0 := 0x21 + c.val + 256, p1 := clientKey s.dev n,
                                  p2 := rd s.dev F.FRM_RX_SN_SN (clientKey s.dev n) } :: es) := by
  have hbit (j : Nat) : (cdefOf s.dev n).getLsbD j = false := by rw [hnone]; exact BitVec.getLsbD_zero
  obtain ⟨hev, hcdef, hshow, es, hes⟩ := clientChanged_spec h c.isLt (by rw [getLsbD_single, hbit]; simp)
    (fun j _ hj => by rw [getLsbD_single, hbit]; simp [hj]) (clientDefect_on s.sn ns h hmode hnone)
  rw [getLsbD_single, decide_eq_true rfl] at hes
  exact acts_of_core rfl hcore rfl hev.parts ⟨hev.regs, hcdef, fun m hm => (hshow m hm).single, es, hes⟩

theorem clientDefectChange_off (hone : cdefOf s.dev n = BitVec.ofNat 8 (2 ^ c.val)) :
    ActsR evalRegs evalParts (.clientDefectChange n c false ns) s fun t =>
      cdefOf t.dev n = 0 ∧
      (∀ m ∈ clientLanes s.dev n, rd t.dev F.FRM_RX_STATUS_DEF m = 0 ∧ rd t.dev F.FRM_RX_STATUS_COND m = 0) ∧
      ∃ es, Raised s.dev t.dev ({ typ := 0x10, sn := s.sn, p0 := 0x21 + c.val, p1 := clientKey s.dev n,
                                  p2 := rd s.dev F.FRM_RX_SN_SN (clientKey s.dev n) } :: es) := by
  have hbit (j : Nat) : (0 : BitVec 8).getLsbD j = false := BitVec.getLsbD_zero
  obtain ⟨hev, hcdef, hshow, es, hes⟩ := clientChanged_spec h c.isLt (by rw [hone, getLsbD_single, hbit]; simp)
    (fun j _ hj => by rw [hone, getLsbD_single, hbit]; simp [hj]) (clientDefect_off s.sn ns h hmode hone)
  rw [hbit] at hes
  exact acts_of_core rfl hcore rfl hev.parts ⟨hev.regs, hcdef, fun m hm => (hshow m hm).zero, es, hes⟩

end

/-- Settles O9, clause by clause, from what an evaluation keeps. -/
theorem tributariesAndClientDefects : Obligations.TributariesAndClientDefects := by
  unfold Obligations.TributariesAndClientDefects
  refine ⟨fun s r e hcore hmirror hres =>
    ⟨fun w p slots ns he => ⟨?_, ?_⟩, fun ns he => ⟨fun t ht hrole => ⟨?_, ?_⟩, ?_⟩, ?_⟩, ?_⟩
  · exact tribDefine_ok hcore hres ns he hmirror
  · exact tribDefine_inUse hcore hres ns he
  · exact tribRelease_ok hcore hres ns he hmirror ht hrole
  · exact tribRelease_denied hcore hres ns he ht
  · exact tribRelease_unknown hcore hres ns he
  · exact fun he => defectConfig_ok hcore hres he hmirror
  · intro s n c on ns hcore hclient hmode hlanes
    have hup : ClientUp s.dev n := by
      refine ⟨n.isLt, hmode, fun m hm => ?_, fun m hm => ?_, fun m hm => ?_⟩
      all_goals obtain ⟨hen, hlos, hcdr, hpers, hkey, hls⟩ := hlanes m hm
      · exact ⟨(congrArg isClient hpers).trans hclient, hen, hlos, hcdr⟩
      · exact hkey
      · exact hls
    exact ⟨clientDefectChange_other_mode ns hcore on,
      fun hm => ⟨clientDefectChange_on ns hcore hup hm, clientDefectChange_off ns hcore hup hm⟩⟩

end Sys2Proof.Machine
end

