-- ==== Sys2Proof/Proofs/LanePorts.lean ====
section
/-! PROOFS. The registers of lanes and quads (chapter 4): fields of one lane read after another is written, the lane ports
beside their registers, and the frame of a command of the lane ports, step by step. -/

namespace Sys2Proof.Machine

/-! ### Fields of lanes and quads -/

/-- The field has one word per index, 0x1000 bytes apart. -/
def Fld.strided (f : Fld) : Bool := f.n2 == 1 && f.s1 == 0x1000

theorem Fld.addr_of_strided {f : Fld} (h : f.strided = true) (i : Nat) : f.addr i = f.base + 0x1000 * i := by
  simp only [Fld.strided, Bool.and_eq_true, beq_iff_eq] at h
  obtain ⟨hn, hs⟩ := h
  simp only [Fld.addr, hn, hs, Nat.div_one, Nat.mod_one]
  omega

/-- The words of the two fields lie at different offsets. -/
def Fld.elsewhere (f g : Fld) : Bool := f.strided && g.strided && f.base % 0x1000 != g.base % 0x1000

theorem Fld.elsewhere.addr_ne {f g : Fld} (h : f.elsewhere g = true) (i j : Nat) : g.addr j ≠ f.addr i := by
  simp only [Fld.elsewhere, Bool.and_eq_true, bne_iff_ne] at h
  obtain ⟨⟨hf, hg⟩, hoff⟩ := h
  rw [Fld.addr_of_strided hf, Fld.addr_of_strided hg]
  omega

/-- No index of `f` shares a bit with any index of `g`: other bits, or words elsewhere. -/
def Fld.apart (f g : Fld) : Bool := decide (g.lo + g.wd ≤ f.lo ∨ f.lo + f.wd ≤ g.lo) || f.elsewhere g

theorem Fld.addr_injective {f : Fld} (h : f.strided = true) : Function.Injective f.addr := fun i j hij => by
  simp only [Fld.addr_of_strided h] at hij
  omega

section
variable (d : Dev) {f g : Fld} {i j v : Nat}

theorem rd_wr_apart (h : f.apart g = true) : rd (wr d f i v) g j = rd d g j := by
  simp only [Fld.apart, Bool.or_eq_true, decide_eq_true_eq] at h
  rcases h with hbits | haddr
  · exact rd_wr_bits d f g i j v hbits
  · exact rd_wr_addr d f g i j v (Fld.elsewhere.addr_ne haddr i j)

/-- A field reads as written, where the value fits. -/
theorem rd_wr_fits (h : f.lo + f.wd ≤ 32 ∧ v < 2 ^ f.wd) : rd (wr d f i v) f i = v := by
  rw [rd_wr_same _ _ _ _ h.1, Nat.mod_eq_of_lt h.2]

theorem rd_wrB_apart {b : Bool} (h : f.apart g = true) : rd (wrB d f i b) g j = rd d g j := rd_wr_apart d h

/-- A one-bit field reads as written. -/
theorem rd_wrB_bit (h : f.lo < 32 ∧ f.wd = 1) (b : Bool) : rd (wrB d f i b) f i = b.toNat :=
  rd_wr_fits d ⟨by omega, by rw [h.2]; exact b.toNat_lt⟩

end

/-! ### Lane ports beside their registers -/

@[simp] theorem laneOf_modLane_same (d : Dev) (n : Nat) (f : Lane → Lane) : laneOf (modLane d n f) n = f (laneOf d n) :=
  tget_tput_same _ _ _ _

theorem laneOf_modLane_ne (d : Dev) {n m : Nat} (f : Lane → Lane) (h : m ≠ n) : laneOf (modLane d n f) m = laneOf d m :=
  tget_tput_ne _ _ _ h

@[simp] theorem laneOf_wr (d : Dev) (f : Fld) (i v n : Nat) : laneOf (wr d f i v) n = laneOf d n := rfl

@[simp] theorem rd_modLane (d : Dev) (n : Nat) (g : Lane → Lane) (f : Fld) (i : Nat) : rd (modLane d n g) f i = rd d f i :=
  rd_congr (a := modLane d n g) (b := d) rfl f i

theorem only_lanes (d : Dev) (x : Tbl Lane) : Only [.lanes] d { d with lanes := x } := by
  intro p hp; cases p <;> simp_all [Part.same]
theorem only_stagger (d : Dev) (x : List Nat) : Only [.stagger] d { d with stagger := x } := by
  intro p hp; cases p <;> simp_all [Part.same]
theorem only_emit (d : Dev) (o : Out) : Only [.out] d (emit d o) := by
  intro p hp; cases p <;> simp_all [Part.same]

theorem evals_modLane (d : Dev) (n : Nat) (f : Lane → Lane) : Evals [] [.lanes] d (modLane d n f) := .of_only (only_lanes d _)

theorem Evals.laneOf {as : List Nat} {ps : List Part} {a b : Dev} (h : Evals as ps a b) (n : Nat)
    (hps : Part.lanes ∉ ps := by simp) : Machine.laneOf b n = Machine.laneOf a n := by
  have hlanes : b.lanes = a.lanes := h.parts .lanes hps
  simp only [Machine.laneOf, hlanes]

/-! ### The words of a lane and of a quad -/

/-- LNE_CTL and LNE_STATUS of a lane, LNE_QUAD_STATUS of a quad. -/
abbrev ctlWord (n : Nat) : Nat := F.LNE_CTL_TX_EN.addr n
abbrev statusWord (n : Nat) : Nat := F.LNE_STATUS_TX_STATE.addr n
abbrev quadWord (q : Nat) : Nat := F.LNE_QUAD_STATUS_PWR.addr q

/-! A word is named by its first field. -/

section
variable (n : Nat)

@[simp] theorem addr_rxEn : F.LNE_CTL_RX_EN.addr n = ctlWord n := rfl
@[simp] theorem addr_sigDet : F.LNE_STATUS_SIG_DET.addr n = statusWord n := rfl
@[simp] theorem addr_rxState : F.LNE_STATUS_RX_STATE.addr n = statusWord n := rfl
@[simp] theorem addr_los : F.LNE_STATUS_LOS.addr n = statusWord n := rfl
@[simp] theorem addr_cdrLock : F.LNE_STATUS_CDR_LOCK.addr n = statusWord n := rfl
@[simp] theorem addr_prbsSync : F.LNE_STATUS_PRBS_SYNC.addr n = statusWord n := rfl
@[simp] theorem addr_retryCnt : F.LNE_STATUS_RETRY_CNT.addr n = statusWord n := rfl
@[simp] theorem addr_cfgErr : F.LNE_STATUS_CFG_ERR.addr n = statusWord n := rfl
@[simp] theorem addr_firRej : F.LNE_STATUS_FIR_REJ.addr n = statusWord n := rfl
@[simp] theorem addr_lbSlip : F.LNE_STATUS_LB_SLIP.addr n = statusWord n := rfl
@[simp] theorem addr_snr : F.LNE_STATUS_SNR.addr n = statusWord n := rfl
@[simp] theorem addr_pllLock : F.LNE_QUAD_STATUS_PLL_LOCK.addr n = quadWord n := rfl
@[simp] theorem addr_unlockCnt : F.LNE_QUAD_STATUS_UNLOCK_CNT.addr n = quadWord n := rfl
@[simp] theorem addr_fstate : F.FRM_RX_STATUS_FSTATE.addr n = F.FRM_RX_STATUS_DEF.addr n := rfl
@[simp] theorem addr_snLock : F.FRM_RX_STATUS_SN_LOCK.addr n = F.FRM_RX_STATUS_DEF.addr n := rfl

end

/-- LNE_CTL and LNE_STATUS of a lane do not hold the field, which lies at the start of its unit or behind all lanes. -/
def Fld.offLane (f : Fld) : Bool := f.strided && (f.base % 0x1000 == 0 || decide (0x480000 ≤ f.base))

theorem Fld.offLane.not_mem {f : Fld} (h : f.offLane = true) {n : Nat} (hn : n < 128) (i : Nat) :
    f.addr i ∉ [ctlWord n, statusWord n] := by
  simp only [Fld.offLane, Bool.and_eq_true, Bool.or_eq_true, beq_iff_eq, decide_eq_true_eq] at h
  obtain ⟨hf, hbase⟩ := h
  simp only [List.mem_cons, List.not_mem_nil, or_false, ctlWord, statusWord, Fld.addr_of_strided hf,
    Fld.addr_of_strided (f := F.LNE_CTL_TX_EN) rfl, Fld.addr_of_strided (f := F.LNE_STATUS_TX_STATE) rfl]
  simp only [F.LNE_CTL_TX_EN, F.LNE_STATUS_TX_STATE]
  omega

theorem quadWord_not_mem {n : Nat} (hn : n < 128) (q : Nat) : quadWord q ∉ [ctlWord n, statusWord n] :=
  Fld.offLane.not_mem (f := F.LNE_QUAD_STATUS_PWR) rfl hn q

@[simp] theorem statusWord_ne_quadWord (n q : Nat) : statusWord n ≠ quadWord q := Fld.elsewhere.addr_ne (by decide) q n

@[simp] theorem cfgWord_ne_ctlWord (n m : Nat) : F.LNE_CFG_PERS.addr n ≠ ctlWord m := Fld.elsewhere.addr_ne (by decide) m n
@[simp] theorem cfgWord_ne_statusWord (n m : Nat) : F.LNE_CFG_PERS.addr n ≠ statusWord m := Fld.elsewhere.addr_ne (by decide) m n
@[simp] theorem cfgWord_ne_quadWord (n q : Nat) : F.LNE_CFG_PERS.addr n ≠ quadWord q := Fld.elsewhere.addr_ne (by decide) q n
@[simp] theorem ctlWord_ne_statusWord (n m : Nat) : ctlWord n ≠ statusWord m := Fld.elsewhere.addr_ne (by decide) m n

theorem ctlWord_ne_quadWord {n : Nat} (hn : n < 128) (q : Nat) : ctlWord n ≠ quadWord q := fun h =>
  quadWord_not_mem hn q (by simp [h])

/-! ### Frames, step by step -/

theorem evals_wrWord (d : Dev) (a : Nat) (w : W32) : Evals [a] [.regs] d (wrWord d a w) := by
  refine ⟨?_, fun x hx => rdWord_wrWord_ne d w (by simpa using hx), rfl, ⟨[], by simp [Raised]⟩, rfl⟩
  intro p hp; cases p <;> simp_all [Part.same]

namespace Evals

variable {as : List Nat} {ps : List Part} {a b : Dev} {f : Fld} {i : Nat}

/-- A step of the frame, and one more write within it. -/
theorem wr {v : Nat} (h : Evals as ps a b) (has : f.addr i ∈ as := by simp) (hps : Part.regs ∈ ps := by simp) :
    Evals as ps a (Machine.wr b f i v) :=
  h.next (evals_wr b f i v) (by simpa using has) (by simpa using hps)

theorem wrB {v : Bool} (h : Evals as ps a b) (has : f.addr i ∈ as := by simp) (hps : Part.regs ∈ ps := by simp) :
    Evals as ps a (Machine.wrB b f i v) :=
  h.wr has hps

theorem modLane {n : Nat} {g : Lane → Lane} (h : Evals as ps a b) (hps : Part.lanes ∈ ps := by simp) :
    Evals as ps a (Machine.modLane b n g) :=
  h.next (evals_modLane b n g) (List.nil_subset _) (by simpa using hps)

theorem emit {o : Out} (h : Evals as ps a b) (hps : Part.out ∈ ps := by simp) : Evals as ps a (Machine.emit b o) :=
  h.next (.of_only (only_emit b o)) (List.nil_subset _) (by simpa using hps)

theorem raise {e : Ev} (h : Evals as ps a b) (hps : Part.hif ∈ ps := by simp) : Evals as ps a (Machine.raise b e) :=
  h.next (evals_raise b e) (List.nil_subset _) (by simpa using hps)

end Evals

/-- A command of a running core whose meaning keeps to a frame. -/
theorem actsR_of_core {as : List Nat} {ps : List Part} {c : Instr} {s : State} {g : Dev → Dev} {e : Dev} {f : State → Prop}
    (hexec : exec c s = core s g) (hcore : s.dev.pwr.core = true) (hg : g s.dev = e) (h : Evals as (.regs :: ps) s.dev e)
    (hf : f { s with dev := e }) : ActsR as ps c s f :=
  acts_of_core hexec hcore hg h.parts ⟨h.regs, hf⟩

/-! ### The power of a quad (R95, R96) -/

section
variable (d : Dev) (q : Nat)

theorem postQuad_of_off {d : Dev} {q : Nat} (h : rd d F.LNE_QUAD_STATUS_PWR q = 0) :
    postQuad d q = { wr d F.LNE_QUAD_STATUS_PWR q 1 with stagger := d.stagger ++ [q] } := if_pos h
theorem postQuad_of_on {d : Dev} {q : Nat} (h : rd d F.LNE_QUAD_STATUS_PWR q ≠ 0) : postQuad d q = d := if_neg h

theorem evals_postQuad : Evals [quadWord q] [.regs, .stagger] d (postQuad d q) :=
  .ite (fun _ => (Evals.refl _ _ d).wr.next (.of_only (only_stagger _ _))) fun _ => .refl _ _ d

theorem rd_postQuad_pwr : rd (postQuad d q) F.LNE_QUAD_STATUS_PWR q =
    if rd d F.LNE_QUAD_STATUS_PWR q = 0 then 1 else rd d F.LNE_QUAD_STATUS_PWR q := by
  split
  case isTrue h => rw [postQuad_of_off h]; exact rd_wr_fits d (by decide)
  case isFalse h => rw [postQuad_of_on h]

theorem stagger_postQuad : (postQuad d q).stagger =
    if rd d F.LNE_QUAD_STATUS_PWR q = 0 then d.stagger ++ [q] else d.stagger := by
  split
  case isTrue h => rw [postQuad_of_off h]
  case isFalse h => rw [postQuad_of_on h]

theorem quadOff_iff {d : Dev} {q : Nat} : quadOff d q = true ↔
    ∀ j : Fin 4, rd d F.LNE_CTL_TX_EN (4 * q + j.val) = 0 ∧ rd d F.LNE_CTL_RX_EN (4 * q + j.val) = 0 := by
  simp [quadOff, laneOff, rdB, Fin.forall_iff]

theorem dropQuad_of_off {d : Dev} {q : Nat} (h : quadOff d q = true) : dropQuad d q =
    { wrB (wr d F.LNE_QUAD_STATUS_PWR q 0) F.LNE_QUAD_STATUS_PLL_LOCK q false with stagger := d.stagger.filter (· != q) } := by
  simp [dropQuad, h]
theorem dropQuad_of_on {d : Dev} {q : Nat} (h : quadOff d q ≠ true) : dropQuad d q = d := by simp [dropQuad, h]

theorem evals_dropQuad : Evals [quadWord q] [.regs, .stagger] d (dropQuad d q) :=
  .ite (fun _ => .refl _ _ d) fun _ => (Evals.refl _ _ d).wr.wrB.next (.of_only (only_stagger _ _))

theorem rd_dropQuad_of_off {d : Dev} {q : Nat} (h : quadOff d q = true) :
    rd (dropQuad d q) F.LNE_QUAD_STATUS_PWR q = 0 ∧ rd (dropQuad d q) F.LNE_QUAD_STATUS_PLL_LOCK q = 0 := by
  rw [dropQuad_of_off h]
  exact ⟨(rd_wr_apart _ (by decide)).trans (rd_wr_fits d (by decide)), rd_wrB_bit _ (by decide) false⟩

end

/-! ### What enabling a direction reads of its configuration (R88, R137, R138) -/

section
variable {ps : List Part} {a b : Dev} {n : Nat} (h : Evals [ctlWord n, statusWord n] ps a b) (hn : n < 128)
include h hn

theorem Evals.rd_offLane {f : Fld} (hf : f.offLane = true) (i : Nat) : Machine.rd b f i = Machine.rd a f i :=
  h.rd (Fld.offLane.not_mem hf hn i)

theorem Evals.persBad : Machine.persBad b n = Machine.persBad a n := by
  simp only [Machine.persBad, Machine.persOf, h.rd_offLane hn (f := F.LNE_CFG_PERS) rfl, h.rd_offLane hn (f := F.LNE_QUAD_CFG_GROUP) rfl]

theorem Evals.quadUp (q : Nat) : Machine.quadUp b q = Machine.quadUp a q := by
  simp only [Machine.quadUp, Machine.rdB, h.rd_offLane hn (f := F.LNE_QUAD_STATUS_PWR) rfl, h.rd_offLane hn (f := F.LNE_QUAD_STATUS_PLL_LOCK) rfl]

theorem Evals.modeGood : Machine.modeGood b n = Machine.modeGood a n := by
  have hpers : @Machine.rd b F.LNE_CFG_PERS = @Machine.rd a F.LNE_CFG_PERS := funext (h.rd_offLane hn rfl)
  have hmode : @Machine.rd b F.MAP_LANE_CFG_MODE = @Machine.rd a F.MAP_LANE_CFG_MODE := funext (h.rd_offLane hn rfl)
  have hwidth : @Machine.rd b F.MAP_LANE_CFG_WIDTH = @Machine.rd a F.MAP_LANE_CFG_WIDTH := funext (h.rd_offLane hn rfl)
  have hgrp : @Machine.rd b F.MAP_LANE_FLX_GRP = @Machine.rd a F.MAP_LANE_FLX_GRP := funext (h.rd_offLane hn rfl)
  delta Machine.modeGood widthOk lanesAgree reaching ownLanes widthMax Machine.clientLanes Machine.persOf
  rw [hpers, hmode, hwidth, hgrp]

/-- A lane whose mode is good raises no error of the mapper. -/
theorem Evals.checkMode (hmode : isClient (Machine.persOf a n) = true → Machine.modeGood a n = true) : Machine.checkMode b n = b := by
  have hpers : Machine.persOf b n = Machine.persOf a n := h.rd_offLane hn (f := F.LNE_CFG_PERS) rfl n
  refine if_pos ?_
  rw [hpers, h.modeGood hn]
  cases hclient : isClient (Machine.persOf a n) with
  | false => rfl
  | true => simp [hmode hclient]

end

end Sys2Proof.Machine
end

