-- ==== Sys2Proof/Proofs/TestPatterns.lean ====
section
/-! PROOFS. Taps, equalizer registers, the PRBS checker and the slip of the line loopback (R92, R102, R103, R106, R109). -/

namespace Sys2Proof.Machine

/-! ### Transmit taps (R92) -/

/-- The magnitude of a tap field read as two's complement. -/
theorem tapMag_eq (v : W32) (lo : Nat) : tapMag v.toNat lo = (v.extractLsb' lo 6).toInt.natAbs := by
  have hbits : (v.extractLsb' lo 6).toNat = (v.toNat >>> lo) % 64 := by simp [BitVec.extractLsb'_toNat]
  rw [BitVec.toInt_eq_toNat_cond, hbits, tapMag, signed]
  congr 1
  split <;> split <;> omega

theorem firSum_eq (v : W32) : firSum v.toNat =
    (v.extractLsb' 0 6).toInt.natAbs + (v.extractLsb' 6 6).toInt.natAbs + (v.extractLsb' 12 6).toInt.natAbs +
      (v.extractLsb' 18 6).toInt.natAbs + (v.extractLsb' 24 7).toNat := by
  simp only [firSum, tapMag_eq, BitVec.extractLsb'_toNat]

section
variable {s : State} {n : Fin 128} (hcore : s.dev.pwr.core = true)
include hcore

theorem lneTxFirWrite_stored {v : W32} (h : firSum v.toNat ≤ 64) :
    ActsR [F.LNE_TX_FIR_PRE3.addr n] [] (.lneTxFirWrite n v) s fun t =>
      rdWord t.dev (F.LNE_TX_FIR_PRE3.addr n) = v &&& 0x7FFFFFFF := by
  have hwrite : firWrite n v s.dev = wrWord s.dev (F.LNE_TX_FIR_PRE3.addr n) (v &&& 0x7FFFFFFF) := if_neg (by omega)
  exact actsR_of_core rfl hcore hwrite (evals_wrWord _ _ _) (rdWord_wrWord_same _ _ _)

theorem lneTxFirWrite_rejected {v : W32} (h : 64 < firSum v.toNat) :
    ActsR [statusWord n] [] (.lneTxFirWrite n v) s fun t => rd t.dev F.LNE_STATUS_FIR_REJ n = 1 := by
  have hwrite : firWrite n v s.dev = wrB s.dev F.LNE_STATUS_FIR_REJ n true := if_pos h
  exact actsR_of_core rfl hcore hwrite (.wrB (.refl _ _ _)) (rd_wrB_bit _ (by decide) true)

end

/-! ### Equalizer registers (R109) -/

/-- The field of equalizer register `reg` and its index on lane `n`. -/
def eqFld (reg : Nat) : Fld :=
  if reg = 0 then F.LNE_RX_CTLE_PEAK else if reg = 1 then F.LNE_RX_DFE_TAP1 else F.LNE_RX_FFE_TAP
def eqIdx (n reg : Nat) : Nat := if reg < 2 then n else 32 * n + (reg - 2)

theorem eqView_of_held {d : Dev} {n : Nat} (h : eqHeld d n = true) (reg : Nat) : eqView d n reg = rd d (eqFld reg) (eqIdx n reg) := by
  simp [eqView, h, eqFld, eqIdx]

/-- With the values held elsewhere, a register shows what was adapted last. -/
theorem eqView_congr {a b : Dev} {n : Nat} (ha : eqHeld a n = false) (hb : eqHeld b n = false) (h : laneOf b n = laneOf a n)
    (reg : Nat) : eqView b n reg = eqView a n reg := by
  simp [eqView, ha, hb, h]

theorem eqWrite_of_held {d : Dev} {n reg : Nat} (h : eqHeld d n = true) (v : W32) :
    eqWrite n reg v d = wr d (eqFld reg) (eqIdx n reg) v.toNat := by
  simp only [eqWrite, h, Bool.not_true, Bool.false_eq_true, if_false, eqFld, eqIdx]
  split
  · next h0 => simp [h0]
  · split
    · next h1 => simp [h1]
    · rw [if_neg (by omega)]

theorem eqFld_fits (reg : Nat) : (eqFld reg).lo + (eqFld reg).wd ≤ 32 := by
  unfold eqFld
  split <;> [skip; split] <;> decide

/-- The equalizer registers lie in their lane's block, from offset 0x40 on. -/
theorem eq_addr (n : Nat) {reg : Nat} (h : reg < 34) :
    ∃ off, 0x40 ≤ off ∧ off < 0x100 ∧ (eqFld reg).addr (eqIdx n reg) = 0x400000 + 0x1000 * n + off := by
  refine ⟨(eqFld reg).addr (eqIdx n reg) - (0x400000 + 0x1000 * n), ?_⟩
  unfold eqFld eqIdx
  split <;> [skip; split] <;> simp only [Fld.addr, F.LNE_RX_CTLE_PEAK, F.LNE_RX_DFE_TAP1, F.LNE_RX_FFE_TAP] <;> split <;> omega

theorem adaptMode_addr (n : Nat) : F.LNE_CFG_ADAPT_MODE.addr n = 0x400000 + 0x1000 * n := Fld.addr_of_strided rfl n

section
variable {s : State} {n : Fin 128} (hcore : s.dev.pwr.core = true) (reg : Fin 34) (v : W32)
include hcore

theorem lneRxEqWrite_held (hheld : eqHeld s.dev n = true) :
    ActsR [(eqFld reg).addr (eqIdx n reg)] [] (.lneRxEqWrite n reg v) s fun t =>
      eqView t.dev n reg.val = v.toNat % 2 ^ (eqFld reg).wd := by
  refine actsR_of_core rfl hcore (eqWrite_of_held hheld v) (evals_wr _ _ _ _) ?_
  have hheld' : eqHeld (wr s.dev (eqFld reg) (eqIdx n reg) v.toNat) n = true := by
    obtain ⟨off, hlow, -, haddr⟩ := eq_addr n reg.isLt
    have hne : F.LNE_CFG_ADAPT_MODE.addr n ≠ (eqFld reg).addr (eqIdx n reg) := by rw [haddr, adaptMode_addr]; omega
    rw [eqHeld, rd_wr_addr _ _ _ _ _ _ hne]; exact hheld
  rw [eqView_of_held hheld', rd_wr_same _ _ _ _ (eqFld_fits reg)]

theorem lneRxEqWrite_refused (hheld : eqHeld s.dev n = false) :
    ActsR [statusWord n] [] (.lneRxEqWrite n reg v) s fun t =>
      rd t.dev F.LNE_STATUS_CFG_ERR n = 1 ∧ eqView t.dev n reg.val = eqView s.dev n reg.val := by
  have hwrite : eqWrite n reg v s.dev = wrB s.dev F.LNE_STATUS_CFG_ERR n true := by simp [eqWrite, hheld]
  have hheld' : eqHeld (wrB s.dev F.LNE_STATUS_CFG_ERR n true) n = false := by
    rw [eqHeld, rd_wrB_apart _ (by decide)]; exact hheld
  exact actsR_of_core rfl hcore hwrite (.wrB (.refl _ _ _)) ⟨rd_wrB_bit _ (by decide) true, eqView_congr hheld hheld' rfl reg⟩

end

/-! ### The checker (R103) -/

/-- The checker is seeded and the bit is the next one of the pattern. -/
def chkGood (pat : Nat) (inv : Bool) (c : Checker) (b : Bool) : Prop :=
  (prbsTaps pat).all (fun t => decide (t ≤ c.hist.length)) = true ∧ prbsNext pat inv c.hist = b

theorem chkBit_out_of_sync (pat : Nat) (inv b : Bool) {c : Checker} (h : c.sync = false) :
    (chkBit pat inv c b).2 = false ∧ (chkBit pat inv c b).1.bits = c.bits ∧
    ((chkBit pat inv c b).1.sync = true ↔ chkGood pat inv c b ∧ c.run = 255) := by
  simp only [chkBit, h, Bool.not_false, if_true, chkGood, Bool.and_eq_true, beq_iff_eq, decide_eq_true_eq, true_and]
  split
  · next hgood => simp [hgood]
  · next hbad => exact ⟨fun h => absurd h (by decide), fun h => absurd h.1 hbad⟩

theorem chkBit_in_sync (pat : Nat) (inv b : Bool) {c : Checker} (h : c.sync = true) :
    (chkBit pat inv c b).1.bits = c.bits + 1 ∧ ((chkBit pat inv c b).2 = true ↔ prbsNext pat inv c.hist ≠ b) ∧
    ((chkBit pat inv c b).1.sync = false →
      64 ≤ (c.errAt.filter fun q => decide (c.pos < q + 1024)).length + 1 ∨ 64 ≤ c.errAt.length) := by
  simp only [chkBit, h, Bool.not_true, Bool.false_eq_true, if_false, bne_iff_ne, Bool.not_eq_false', decide_eq_true_eq, true_and]
  split
  · exact fun hlost => .inl (by simpa using hlost)
  · exact .inr

/-- What the running checker makes of the bits that its receiver takes. -/
def chkResult (d : Dev) (n : Nat) (prev : Fin 4) (x : List (Fin 4)) : Checker × Nat :=
  chkBits (rd d F.LNE_CTL_PRBS_PAT n) (rdB d F.LNE_CTL_PRBS_INV n)
    { (laneOf d n).chk with sync := rdB d F.LNE_STATUS_PRBS_SYNC n } (rxBits d n prev x)

/-- The checker of lane `n` stands at `r.1`, and `r.2` errors are counted. -/
def chkCounted (d : Dev) (n : Nat) (r : Checker × Nat) : Dev :=
  let e := modLane d n fun z => { z with chk := r.1 }
  if r.2 = 0 then e else sat e F.LNE_PRBS_ERR_ERR n r.2

theorem chkFeed_of_runs {d : Dev} {n : Nat} (h : chkRuns d n = true) (prev : Fin 4) (x : List (Fin 4)) :
    chkFeed n prev x d =
      wrB (chkCounted d n (chkResult d n prev x)) F.LNE_STATUS_PRBS_SYNC n (chkResult d n prev x).1.sync := by
  simp only [chkFeed, h, Bool.not_true, Bool.false_eq_true, if_false]
  rfl

section
variable (d : Dev) (n : Nat) (r : Checker × Nat)

theorem evals_chkCounted : Evals [F.LNE_PRBS_ERR_ERR.addr n] [.regs, .lanes] d (chkCounted d n r) :=
  .ite (fun _ => (evals_modLane d n _).mono) fun _ => (evals_modLane d n _).mono.next (evals_wr _ _ _ _)

theorem laneOf_chkCounted (m : Nat) : laneOf (chkCounted d n r) m = laneOf (modLane d n fun z => { z with chk := r.1 }) m := by
  unfold chkCounted
  dsimp only
  split <;> rfl

/-- Counting no error leaves LNE_PRBS_ERR as it was, which adding zero does as well. -/
theorem rd_chkCounted : rd (chkCounted d n r) F.LNE_PRBS_ERR_ERR n = satAdd 32 (rd d F.LNE_PRBS_ERR_ERR n) r.2 := by
  have hlt : rd d F.LNE_PRBS_ERR_ERR n < 2 ^ 32 := rd_lt d F.LNE_PRBS_ERR_ERR n
  unfold chkCounted
  dsimp only
  split
  · next hnone => rw [rd_modLane, hnone, satAdd]; omega
  · exact rd_wr_fits _ ⟨by decide, lt_of_le_of_lt (Nat.min_le_right _ _) (by decide)⟩

end

/-- The enabled checker of an enabled receiver runs on the patterns of Table 4-2 that its modulation has (R102). -/
theorem chkRuns_of_pat {d : Dev} {n : Nat} (hchk : rd d F.LNE_CTL_PRBS_CHK_EN n = 1) (hrx : rd d F.LNE_CTL_RX_EN n = 1)
    (hpat : rd d F.LNE_CTL_PRBS_PAT n < 6 ∨ rd d F.LNE_CTL_PRBS_PAT n < 8 ∧ isPam4 (persOf d n) = true) :
    chkRuns d n = true := by
  have hlt : rd d F.LNE_CTL_PRBS_PAT n < 8 := by omega
  rcases hpat with hpat | ⟨-, hpam⟩
  · simp [chkRuns, prbsOk, rdB, hchk, hrx, hlt, hpat]
  · simp [chkRuns, prbsOk, rdB, hchk, hrx, hlt, hpam]

theorem prbsRead_clearing (n : Nat) (d : Dev) : prbsRead n false d =
    modLane (wr (wr (wr (emit d (.readData [BitVec.ofNat 32 (rd d F.LNE_PRBS_ERR_ERR n)])) F.LNE_PRBS_ERR_ERR n 0)
      F.LNE_PRBS_BITS_LO n (laneOf d n).chk.bits) F.LNE_PRBS_BITS_HI n ((laneOf d n).chk.bits / 2 ^ 32)) n
      fun x => { x with chk := { x.chk with bits := 0 } } := rfl

section
variable {s : State} {n : Fin 128} (hcore : s.dev.pwr.core = true)
include hcore

/-- PRBS_SYNC and PRBS_SYNC_LOSS carry the levels up to the bit that changes PRBS_SYNC (R103). -/
theorem feedsChecker {c : Instr} {prev : Fin 4} {x : List (Fin 4)} (hexec : exec c s = core s (chkFeed n prev x))
    (hruns : chkRuns s.dev n = true) :
    ActsR [statusWord n, F.LNE_PRBS_ERR_ERR.addr n] [.lanes] c s fun t =>
      rd t.dev F.LNE_STATUS_PRBS_SYNC n = (chkResult s.dev n prev x).1.sync.toNat ∧
      rd t.dev F.LNE_PRBS_ERR_ERR n = satAdd 32 (rd s.dev F.LNE_PRBS_ERR_ERR n) (chkResult s.dev n prev x).2 ∧
      (laneOf t.dev n).chk = (chkResult s.dev n prev x).1 ∧ ∀ m, m ≠ n.val → laneOf t.dev m = laneOf s.dev m := by
  have hfeed := chkFeed_of_runs hruns prev x
  generalize chkResult s.dev n prev x = r at *
  refine actsR_of_core hexec hcore hfeed (evals_chkCounted s.dev n r).mono.wrB ⟨?_, ?_, ?_, fun m hm => ?_⟩
  · exact rd_wrB_bit _ (by decide) _
  · rw [rd_wrB_apart _ (by decide), rd_chkCounted]
  · rw [wrB, laneOf_wr, laneOf_chkCounted, laneOf_modLane_same]
  · rw [wrB, laneOf_wr, laneOf_chkCounted, laneOf_modLane_ne _ _ hm]

/-! ### Reading the counts (R103) -/

theorem lnePrbsErrRead_clears :
    ActsR [F.LNE_PRBS_ERR_ERR.addr n, F.LNE_PRBS_BITS_LO.addr n, F.LNE_PRBS_BITS_HI.addr n] [.lanes, .out]
      (.lnePrbsErrRead n false) s fun t =>
        Sent s.dev t.dev [.readData [BitVec.ofNat 32 (rd s.dev F.LNE_PRBS_ERR_ERR n)]] ∧ rd t.dev F.LNE_PRBS_ERR_ERR n = 0 ∧
        rd t.dev F.LNE_PRBS_BITS_LO n = (laneOf s.dev n).chk.bits % 2 ^ 32 ∧
        rd t.dev F.LNE_PRBS_BITS_HI n = (laneOf s.dev n).chk.bits / 2 ^ 32 % 2 ^ 32 ∧
        (laneOf t.dev n).chk.bits = 0 ∧ ∀ m, m ≠ n.val → laneOf t.dev m = laneOf s.dev m := by
  refine actsR_of_core rfl hcore (prbsRead_clearing n s.dev) (Evals.refl _ _ _).emit.wr.wr.wr.modLane ⟨rfl, ?_, ?_, ?_, ?_, fun m hm => ?_⟩
  · simp (disch := decide) only [rd_modLane, rd_wr_apart, rd_wr_fits]
  · simp (disch := decide) only [rd_modLane, rd_wr_apart, rd_wr_same, F.LNE_PRBS_BITS_LO]
  · simp (disch := decide) only [rd_modLane, rd_wr_same, F.LNE_PRBS_BITS_HI]
  · rw [laneOf_modLane_same]
  · exact laneOf_modLane_ne _ _ hm

theorem lnePrbsErrRead_inspects :
    Acts [.out] (.lnePrbsErrRead n true) s fun t => Sent s.dev t.dev [.readData [BitVec.ofNat 32 (rd s.dev F.LNE_PRBS_ERR_ERR n)]] :=
  acts_of_core rfl hcore rfl (only_emit _ _) rfl

/-! ### The slip of the line loopback (R106) -/

theorem lbSlip_far (drop : Bool) (hmode : rd s.dev F.LNE_CTL_LB_MODE n = 2) :
    ActsR [statusWord n] [.lanes] (.lbSlip ⟨n, drop⟩) s fun t =>
      rd t.dev F.LNE_STATUS_LB_SLIP n = 1 ∧ (laneOf t.dev n).eb =
        if drop = true then (laneOf s.dev n).eb.drop 64 else (laneOf s.dev n).eb.take 64 ++ (laneOf s.dev n).eb := by
  have hslip : lbSlip n drop s.dev = _ := if_neg (not_not.2 hmode)
  refine actsR_of_core rfl hcore hslip (evals_modLane _ _ _).mono.wrB ⟨rd_wrB_bit _ (by decide) true, ?_⟩
  rw [wrB, laneOf_wr, laneOf_modLane_same]

end

/-- Settles O6, command by command. -/
theorem tapsAndTestPatterns : Obligations.TapsAndTestPatterns := by
  unfold Obligations.TapsAndTestPatterns
  refine fun s n hcore => ⟨fun v => ?_, fun reg v => ?_, fun prev x hchk hrx hpat => ?_, ⟨lnePrbsErrRead_clears hcore, lnePrbsErrRead_inspects hcore⟩,
    fun drop hmode => lbSlip_far hcore drop hmode⟩
  · have hsum := firSum_eq v
    exact ⟨fun h => lneTxFirWrite_stored hcore (hsum.le.trans h), fun h => lneTxFirWrite_rejected hcore (h.trans_eq hsum.symm)⟩
  · exact ⟨fun h => lneRxEqWrite_held hcore reg v (beq_iff_eq.2 h), fun h => lneRxEqWrite_refused hcore reg v (beq_eq_false_iff_ne.2 h)⟩
  · have hruns := chkRuns_of_pat hchk hrx hpat
    exact ⟨feedsChecker hcore rfl hruns, feedsChecker hcore rfl hruns, fun c b =>
      ⟨chkBit_out_of_sync _ _ b, chkBit_in_sync _ _ b⟩⟩

end Sys2Proof.Machine
end

