-- ==== Sys2Proof/Proofs/LaneStatus.lean ====
section
/-! PROOFS. What follows a change of a lane's status (R115, R120 to R122): the frame of the evaluation, and what it shows
of a receiver that has lost its signal or its clock. -/

namespace Sys2Proof.Machine

/-! ### The frame -/

/-- The parts that the evaluation of a lane and of what depends on it touches. -/
def statusParts : List Part := [.regs, .hif, .frm, .deg, .pm, .prot, .cli, .tim, .out, .twin]

theorem statusParts_subset : statusParts ⊆ .regs :: evalParts := by simp [statusParts, evalParts]

theorem lanes_not_mem_statusParts : Part.lanes ∉ statusParts := by decide
theorem stagger_not_mem_statusParts : Part.stagger ∉ statusParts := by decide

theorem evals_status {n : Nat} (hn : n < 128) {ps : List Part} {a b : Dev} (h : Evals [F.FRM_RX_STATUS_DEF.addr n] ps a b)
    (hps : ps ⊆ statusParts) : Evals evalRegs statusParts a b :=
  h.mono (by simpa [evalRegs_eq] using Or.inl (addr_mem_statusRegs hn)) hps

/-- The lanes of a client lie in one block of eight, or are the FlexE group's (R138, R151). -/
theorem clientLanes_lt {d : Dev} {n m : Nat} (hn : n < 128) (hm : m ∈ clientLanes d n) : m < 128 := by
  unfold clientLanes at hm
  split at hm
  · simp only [List.mem_filter, List.mem_range] at hm
    exact hm.1
  · simp only [List.mem_map, List.mem_range] at hm
    obtain ⟨i, hi, rfl⟩ := hm
    have hwidth : rd d F.MAP_LANE_CFG_WIDTH n < 4 := rd_lt d F.MAP_LANE_CFG_WIDTH n
    generalize rd d F.MAP_LANE_CFG_WIDTH n = w at *
    interval_cases w <;> omega

/-- The framer's first row of Table 5-1, and the defects of a client that is down. -/
theorem evals_framerHold (d : Dev) (n : Nat) : Evals [F.FRM_RX_STATUS_DEF.addr n] [.regs, .cli, .frm] d (framerHold d n) := by
  refine .ite (fun _ => .refl _ _ d) fun _ => .ite (fun _ => .refl _ _ d) fun _ => ?_
  have hcount : Evals [F.FRM_RX_STATUS_DEF.addr n] [.regs, .cli, .frm] d
      (if rd d F.FRM_RX_STATUS_FSTATE n = 2 then count d 1 n 12 else d) :=
    .ite (fun _ => (Evals.of_only (only_cli d _)).mono) fun _ => .refl _ _ d
  exact hcount.wrB.wr.next (evals_modFrm _ _ _)

theorem setCdef_frame (sn : SN) (d : Dev) (key : Nat) (x : BitVec 8) : Evals [] [.cli, .hif] d (setCdef sn d key x) := by
  have hset : Evals [] [.cli, .hif] d (cdefSet d key x) := (Evals.of_only (only_cli d _)).mono
  unfold setCdef
  dsimp only
  split
  · exact hset
  · exact hset.trans (.foldl (fun e _ _ => .ite (fun _ => .refl _ _ e) fun _ => (evals_defEvent _ _ _ _ _ _ e).mono) _)

/-- What the defects of lane `n` bring for its client (R157): none of its own where its lanes are down, and the evaluation
of the client's lanes. -/
def clientFollow (sn : SN) (n : Nat) (d : Dev) : Dev :=
  if isClient (persOf d n) then
    let d := if clientDown d n && cdefOf d n != 0 then setCdef sn d (clientKey d n) 0 else d
    (clientLanes d n).foldl (fun d m => laneStep sn d m 0) d
  else d

theorem laneEval_eq (sn : SN) (ns n want : Nat) (d : Dev) :
    laneEval sn ns n want d = followAll sn ns (clientFollow sn n (laneStep sn d n want)) := rfl

theorem laneParts_subset : laneParts ⊆ statusParts := by simp [laneParts, statusParts]

section
variable (sn : SN) (ns : Nat) {n : Nat} (hn : n < 128) (d : Dev)
include hn

theorem evals_clientStep {m : Nat} (hm : m ∈ clientLanes d n) (e : Dev) : Evals evalRegs statusParts e (laneStep sn e m 0) :=
  evals_status (clientLanes_lt hn hm) (evals_laneStep sn e m 0) laneParts_subset

theorem evals_clientFollow : Evals evalRegs statusParts d (clientFollow sn n d) := by
  refine .ite (fun _ => ?_) fun _ => .refl _ _ d
  have hset : Evals evalRegs statusParts d (if clientDown d n && cdefOf d n != 0 then setCdef sn d (clientKey d n) 0 else d) :=
    .ite (fun _ => (setCdef_frame sn d _ 0).mono (by simp) (by simp [statusParts])) fun _ => .refl _ _ d
  exact hset.trans (.foldl (fun e m hm => evals_clientStep sn hn _ hm e) _)

theorem evals_laneEval (want : Nat) : Evals evalRegs statusParts d (laneEval sn ns n want d) :=
  ((evals_status hn (evals_laneStep sn d n want) laneParts_subset).trans (evals_clientFollow sn hn _)).next
    (evals_followAll sn ns _) followRegs_subset (by simp [statusParts])

theorem evals_held : Evals evalRegs statusParts d (framerHold d n) :=
  evals_status hn (evals_framerHold d n) (by simp [statusParts])

theorem evals_laneChanged : Evals evalRegs statusParts d (laneChanged sn ns n d) :=
  (evals_held hn d).trans (evals_laneEval sn ns hn _ _)

theorem laneOf_laneChanged (m : Nat) : laneOf (laneChanged sn ns n d) m = laneOf d m :=
  (evals_laneChanged sn ns hn d).laneOf m lanes_not_mem_statusParts

theorem stagger_laneChanged : (laneChanged sn ns n d).stagger = d.stagger :=
  (evals_laneChanged sn ns hn d).parts .stagger stagger_not_mem_statusParts

theorem rd_laneChanged {d : Dev} {f : Fld} {i x : Nat} (h : rd d f i = x) (hf : f.quiet = true := by rfl) :
    rd (laneChanged sn ns n d) f i = x :=
  ((evals_laneChanged sn ns hn d).rd_quiet hf i).trans h

end

/-! ### A receiver that has lost its signal or its clock -/

/-- The receiver of lane `n` is off or has no personality, sees no signal, or has no clock. -/
def Lost (d : Dev) (n : Nat) : Prop :=
  laneSilent d n = true ∨ rdB d F.LNE_STATUS_LOS n = true ∨ rdB d F.LNE_STATUS_CDR_LOCK n = false

/-- The lane's one defect then: none while it reports none, else dLOS (rank 1) before dLOL (rank 2). -/
def lossDefs (d : Dev) (n : Nat) : Nat :=
  if laneSilent d n then 0 else if rdB d F.LNE_STATUS_LOS n then 1 else 2

/-- FRM_RX_STATUS of lane `n` shows the defects `x`, and SF. -/
def ShowsLoss (x : Nat) (d : Dev) (n : Nat) : Prop :=
  rd d F.FRM_RX_STATUS_DEF n = x ∧ rd d F.FRM_RX_STATUS_COND n = 2

theorem ShowsLoss.of_evals {as : List Nat} {ps : List Part} {a b : Dev} {n x : Nat} (h : ShowsLoss x a n)
    (he : Evals as ps a b) (hn : F.FRM_RX_STATUS_DEF.addr n ∉ as) : ShowsLoss x b n :=
  ⟨(he.rd hn).trans h.1, (he.rd (f := F.FRM_RX_STATUS_COND) hn).trans h.2⟩

theorem laneDefs_of_lost {d : Dev} {n : Nat} (h : Lost d n) (want : Nat) : laneDefs d n want = lossDefs d n := by
  unfold laneDefs lossDefs
  by_cases hsilent : laneSilent d n = true
  · simp [hsilent]
  have hlive : laneSilent d n = false := by simpa using hsilent
  by_cases hlos : rdB d F.LNE_STATUS_LOS n = true
  · have hLos : dLos d n = true := by simp [dLos, hlive, hlos]
    have hLol : dLol d n = false := by simp [dLol, hlos]
    simp [hlive, hlos, hLos, hLol]
  · have hcdr : rdB d F.LNE_STATUS_CDR_LOCK n = false := (h.resolve_left hsilent).resolve_left hlos
    have hLos : dLos d n = false := by simp [dLos, hlos]
    have hLol : dLol d n = true := by simp [dLol, hlive, hlos, hcdr]
    simp [hlive, hlos, hLos, hLol]

theorem condFrom_lossDefs {d : Dev} {n x : Nat} (hx : lossDefs d n = x) : condFrom d n x = .sf := by
  subst hx
  unfold condFrom lossDefs
  by_cases hsilent : laneSilent d n = true
  · simp [hsilent]
  · by_cases hlos : rdB d F.LNE_STATUS_LOS n = true <;> by_cases hglf : isGlf (persOf d n) = true <;> simp [hsilent, hlos, hglf]

section
variable {ps : List Part} {a b : Dev} (h : Evals evalRegs ps a b) (n : Nat)
include h

theorem Evals.laneSilent : Machine.laneSilent b n = Machine.laneSilent a n := by
  simp only [Machine.laneSilent, h.rdB_quiet (f := F.LNE_CTL_RX_EN) rfl, h.persOf]

theorem Evals.lost (hl : Lost a n) : Lost b n := by
  simpa only [Lost, h.laneSilent, h.rdB_quiet (f := F.LNE_STATUS_LOS) rfl, h.rdB_quiet (f := F.LNE_STATUS_CDR_LOCK) rfl] using hl

theorem Evals.lossDefs : Machine.lossDefs b n = Machine.lossDefs a n := by
  simp only [Machine.lossDefs, h.laneSilent, h.rdB_quiet (f := F.LNE_STATUS_LOS) rfl]

end

theorem lossDefs_lt (d : Dev) (n : Nat) : lossDefs d n < 2 ^ 10 := by
  unfold lossDefs
  split <;> [skip; split] <;> decide

theorem showsLoss_laneStep (sn : SN) {d : Dev} {n : Nat} (hn : n < 128) (h : Lost d n) (want : Nat) :
    ShowsLoss (lossDefs d n) (laneStep sn d n want) n := by
  have hdeclared := evals_status hn (evals_laneDeclared sn d n (lossDefs d n)) laneParts_subset
  refine ⟨?_, ?_⟩
  · rw [rd_laneStep_def, laneDefs_of_lost h, Nat.mod_eq_of_lt (lossDefs_lt d n)]
  · rw [rd_laneStep_cond, laneDefs_of_lost h, condFrom_lossDefs (hdeclared.lossDefs n)]
    rfl

/-- The evaluation of any lanes leaves the lost lane as it shows. -/
theorem showsLoss_laneSteps (sn : SN) {n : Nat} {ls : List Nat} (hlt : ∀ m ∈ ls, m < 128) {d : Dev} (h : Lost d n)
    (hshow : ShowsLoss (lossDefs d n) d n) : ShowsLoss (lossDefs d n) (ls.foldl (fun d m => laneStep sn d m 0) d) n := by
  induction ls generalizing d with
  | nil => exact hshow
  | cons m ls ih =>
    obtain ⟨hm, hlt⟩ := List.forall_mem_cons.1 hlt
    have hstep := evals_status hm (evals_laneStep sn d m 0) laneParts_subset
    rw [List.foldl_cons, ← hstep.lossDefs n]
    refine ih hlt (hstep.lost n h) ?_
    rw [hstep.lossDefs n]
    by_cases hmn : m = n
    · subst hmn; exact showsLoss_laneStep sn hm h 0
    · exact hshow.of_evals (evals_laneStep sn d m 0) (by simpa [status_addr_injective.eq_iff] using Ne.symm hmn)

section
variable (sn : SN) (ns : Nat) {n : Nat} (hn : n < 128) {d : Dev} (h : Lost d n)
include hn h

theorem showsLoss_clientFollow (hshow : ShowsLoss (lossDefs d n) d n) : ShowsLoss (lossDefs d n) (clientFollow sn n d) n := by
  unfold clientFollow
  split
  case isFalse => exact hshow
  case isTrue =>
    extract_lets e
    have hset : Evals [] [.cli, .hif] d e := .ite (fun _ => setCdef_frame sn d _ 0) fun _ => .refl _ _ d
    have hquiet : Evals evalRegs [.cli, .hif] d e := hset.mono
    rw [← hquiet.lossDefs n]
    refine showsLoss_laneSteps sn (fun _ => clientLanes_lt hn) (hquiet.lost n h) ?_
    rw [hquiet.lossDefs n]
    exact hshow.of_evals hset (by simp)

theorem showsLoss_laneEval (want : Nat) : ShowsLoss (lossDefs d n) (laneEval sn ns n want d) n := by
  have hstep := evals_status hn (evals_laneStep sn d n want) laneParts_subset
  have hshow := showsLoss_laneStep sn hn h want
  rw [← hstep.lossDefs n] at hshow ⊢
  exact (showsLoss_clientFollow sn hn (hstep.lost n h) hshow).of_evals (evals_followAll sn ns _) (status_not_mem_followRegs n)

theorem showsLoss_laneChanged : ShowsLoss (lossDefs d n) (laneChanged sn ns n d) n := by
  have hheld := evals_held hn d
  rw [← hheld.lossDefs n]
  exact showsLoss_laneEval sn ns hn (hheld.lost n h) _

end

/-! ### The framer of a GLF lane (R115) -/

theorem isClient_of_isGlf {p : Nat} (h : isGlf p = true) : isClient p = false := by
  simp only [isGlf, isClient, decide_eq_true_eq, decide_eq_false_iff_not] at *
  omega

/-- Evaluating a lane leaves the other fields of FRM_RX_STATUS. -/
theorem rd_laneStep_apart (sn : SN) (d : Dev) (n want : Nat) {f : Fld} (hdef : F.FRM_RX_STATUS_DEF.apart f = true)
    (hcond : F.FRM_RX_STATUS_COND.apart f = true) (i : Nat) : rd (laneStep sn d n want) f i = rd d f i := by
  obtain ⟨bits, h⟩ := laneStep_eq sn d n want
  rw [h, rd_seenOr, rd_wr_apart _ hcond, laneDeclared, (evals_resetFilters _ _ _).rd (by simp), rd_wr_apart _ hdef,
    (evals_laneEvents sn d n _).rd (by simp)]

theorem rd_laneEval_apart (sn : SN) (ns : Nat) {n : Nat} {d : Dev} (hglf : isGlf (persOf d n) = true) (hn : n < 128) (want : Nat)
    {f : Fld} (hdef : F.FRM_RX_STATUS_DEF.apart f = true) (hcond : F.FRM_RX_STATUS_COND.apart f = true)
    (haddr : f.addr n = F.FRM_RX_STATUS_DEF.addr n) : rd (laneEval sn ns n want d) f n = rd d f n := by
  have hpers := (evals_status hn (evals_laneStep sn d n want) laneParts_subset).persOf n
  rw [laneEval_eq, (evals_followAll sn ns _).rd (haddr ▸ status_not_mem_followRegs n), clientFollow, hpers, isClient_of_isGlf hglf, if_neg Bool.false_ne_true,
    rd_laneStep_apart sn d n want hdef hcond]

theorem framerHold_of_lost {d : Dev} {n : Nat} (hglf : isGlf (persOf d n) = true) (h : Lost d n) :
    rd (framerHold d n) F.FRM_RX_STATUS_FSTATE n = 0 ∧ rd (framerHold d n) F.FRM_RX_STATUS_SN_LOCK n = 0 := by
  have hpers : persOf d n ≠ 0 := fun h0 => absurd (h0 ▸ hglf) (by decide)
  have hdown : (rdB d F.LNE_CTL_RX_EN n && !rdB d F.LNE_STATUS_LOS n && rdB d F.LNE_STATUS_CDR_LOCK n) = false := by
    rcases h with h | h | h
    · simp only [laneSilent, Bool.or_eq_true, beq_iff_eq, hpers, or_false, Bool.not_eq_true'] at h
      simp [h]
    · simp [h]
    · simp [h]
  rw [framerHold, hglf, hdown]
  simp only [Bool.not_true, Bool.false_eq_true, if_false]
  rw [(evals_modFrm _ _ _).rd (by simp), (evals_modFrm _ _ _).rd (by simp)]
  exact ⟨rd_wr_fits _ (by decide), (rd_wr_apart _ (by decide)).trans (rd_wrB_bit _ (by decide) false)⟩

section
variable (sn : SN) (ns : Nat) {n : Nat} (hn : n < 128) {d : Dev} (h : Lost d n)
include hn h

theorem laneChanged_hunts (hglf : isGlf (persOf d n) = true) :
    rd (laneChanged sn ns n d) F.FRM_RX_STATUS_FSTATE n = 0 ∧ rd (laneChanged sn ns n d) F.FRM_RX_STATUS_SN_LOCK n = 0 := by
  have hglf' : isGlf (persOf (framerHold d n) n) = true := by rw [(evals_held hn d).persOf]; exact hglf
  obtain ⟨hstate, hlock⟩ := framerHold_of_lost hglf h
  exact ⟨(rd_laneEval_apart sn ns hglf' hn _ (by decide) (by decide) (addr_fstate n)).trans hstate,
    (rd_laneEval_apart sn ns hglf' hn _ (by decide) (by decide) (addr_snLock n)).trans hlock⟩

end

end Sys2Proof.Machine
end

