-- ==== Sys2Proof/Proofs/Transmitters.lean ====
section
/-! PROOFS. Transmitters and quad PLLs (R88, R95 to R100). -/

namespace Sys2Proof.Machine

/-! ### Enabling and disabling a transmitter (R88, R95, R96) -/

/-- TX_EN is set and the retries are cleared. -/
def txEnabled (d : Dev) (n : Nat) : Dev := wr (wrB d F.LNE_CTL_TX_EN n true) F.LNE_STATUS_RETRY_CNT n 0

theorem evals_txEnabled (d : Dev) (n : Nat) : Evals [ctlWord n, statusWord n] [.regs] d (txEnabled d n) := (Evals.refl _ _ d).wrB.wr

theorem rd_txEnabled_txEn (d : Dev) (n : Nat) : rd (txEnabled d n) F.LNE_CTL_TX_EN n = 1 := by
  rw [txEnabled, rd_wr_apart _ (by decide)]
  exact rd_wrB_bit d (by decide) true
theorem rd_txEnabled_rxEn (d : Dev) (n : Nat) : rd (txEnabled d n) F.LNE_CTL_RX_EN n = rd d F.LNE_CTL_RX_EN n := by
  rw [txEnabled, rd_wr_apart _ (by decide), rd_wrB_apart _ (by decide)]
theorem rd_txEnabled_retryCnt (d : Dev) (n : Nat) : rd (txEnabled d n) F.LNE_STATUS_RETRY_CNT n = 0 := rd_wr_fits _ (by decide)
theorem rd_txEnabled_txState (d : Dev) (n : Nat) : rd (txEnabled d n) F.LNE_STATUS_TX_STATE n = rd d F.LNE_STATUS_TX_STATE n := by
  rw [txEnabled, rd_wr_apart _ (by decide), rd_wrB_apart _ (by decide)]

theorem txEn_on {d e : Dev} {n : Nat} (hoff : rd d F.LNE_CTL_TX_EN n = 0) (he : checkMode (txEnabled d n) n = e) :
    txEn n true d = if persBad e n then wrB e F.LNE_STATUS_CFG_ERR n true
      else txSet (postQuad e (quadOf n)) n (if quadUp e (quadOf n) then 2 else 1) := by
  subst he
  exact if_neg (by simp [rdB, hoff])

section
variable {d : Dev} {n : Nat} (hn : n < 128) (hoff : rd d F.LNE_CTL_TX_EN n = 0)
  (hmode : isClient (persOf d n) = true → modeGood d n = true)
include hn hoff hmode

theorem txEn_on_good (hbad : persBad d n = false) : txEn n true d =
    txSet (postQuad (txEnabled d n) (quadOf n)) n (if quadUp d (quadOf n) then 2 else 1) := by
  have hen := evals_txEnabled d n
  rw [txEn_on hoff (hen.checkMode hn hmode), hen.persBad hn, hbad, hen.quadUp hn]
  rfl

theorem txEn_on_bad (hbad : persBad d n = true) : txEn n true d = wrB (txEnabled d n) F.LNE_STATUS_CFG_ERR n true := by
  have hen := evals_txEnabled d n
  rw [txEn_on hoff (hen.checkMode hn hmode), hen.persBad hn, hbad]
  rfl

end

/-- The transmitter is off and holds nothing of a retry or a squelch. -/
def txDisabled (d : Dev) (n : Nat) : Dev :=
  modLane (txSet (wrB d F.LNE_CTL_TX_EN n false) n 0) n fun x => { x with retryDue := false, sq := 0 }

theorem txEn_off (d : Dev) (n : Nat) : txEn n false d = dropQuad (txDisabled d n) (quadOf n) := rfl

theorem evals_txDisabled (d : Dev) (n : Nat) : Evals [ctlWord n, statusWord n] [.regs, .lanes] d (txDisabled d n) :=
  (Evals.refl _ _ d).wrB.wr.modLane

theorem rd_txDisabled_txEn (d : Dev) (n m : Nat) :
    rd (txDisabled d n) F.LNE_CTL_TX_EN m = if m = n then 0 else rd d F.LNE_CTL_TX_EN m := by
  rw [txDisabled, rd_modLane, txSet, rd_wr_apart _ (by decide), wrB]
  split
  case isTrue hmn => rw [hmn]; exact rd_wrB_bit d (by decide) false
  case isFalse hmn => exact rd_wr_addr _ _ _ _ _ _ fun h => hmn (Fld.addr_injective rfl h)

theorem rd_txDisabled_rxEn (d : Dev) (n m : Nat) : rd (txDisabled d n) F.LNE_CTL_RX_EN m = rd d F.LNE_CTL_RX_EN m := by
  rw [txDisabled, rd_modLane, txSet, rd_wr_apart _ (by decide), rd_wrB_apart _ (by decide)]

theorem rd_txDisabled_txState (d : Dev) (n : Nat) : rd (txDisabled d n) F.LNE_STATUS_TX_STATE n = 0 := by
  rw [txDisabled, rd_modLane]
  exact rd_wr_fits _ (by decide)

/-- The transmitter of lane `n` is the last direction of quad `q` that is enabled, or none is. -/
def LastDirection (d : Dev) (q n : Nat) : Prop :=
  ∀ j : Fin 4, rd d F.LNE_CTL_RX_EN (4 * q + j.val) = 0 ∧ (4 * q + j.val ≠ n → rd d F.LNE_CTL_TX_EN (4 * q + j.val) = 0)

theorem quadOff_txDisabled (d : Dev) (q n : Nat) : quadOff (txDisabled d n) q = true ↔ LastDirection d q n := by
  simp only [quadOff_iff, LastDirection, rd_txDisabled_txEn, rd_txDisabled_rxEn, ite_eq_left_iff, and_comm, ne_eq]

section
variable {s : State} {n : Fin 128} (hcore : s.dev.pwr.core = true)
include hcore

section
variable (hoff : rd s.dev F.LNE_CTL_TX_EN n = 0) (hmode : isClient (persOf s.dev n) = true → modeGood s.dev n = true)
include hoff hmode

theorem txEn_starts (hbad : persBad s.dev n = false) :
    ActsR [ctlWord n, statusWord n, quadWord (quadOf n)] [.stagger] (.txEn n true) s fun t =>
      rd t.dev F.LNE_CTL_TX_EN n = 1 ∧ rd t.dev F.LNE_CTL_RX_EN n = rd s.dev F.LNE_CTL_RX_EN n ∧ rd t.dev F.LNE_STATUS_RETRY_CNT n = 0 ∧
      (rd s.dev F.LNE_QUAD_STATUS_PWR (quadOf n) = 0 → rd t.dev F.LNE_QUAD_STATUS_PWR (quadOf n) = 1 ∧
        t.dev.stagger = s.dev.stagger ++ [quadOf n] ∧ rd t.dev F.LNE_STATUS_TX_STATE n = 1) ∧
      (rd s.dev F.LNE_QUAD_STATUS_PWR (quadOf n) ≠ 0 → rdWord t.dev (quadWord (quadOf n)) = rdWord s.dev (quadWord (quadOf n)) ∧
        t.dev.stagger = s.dev.stagger ∧ rd t.dev F.LNE_STATUS_TX_STATE n = if quadUp s.dev (quadOf n) = true then 2 else 1) := by
  have hen := evals_txEnabled s.dev n
  have hpost := evals_postQuad (txEnabled s.dev n) (quadOf n)
  have hpwr := hen.rd_offLane n.isLt (f := F.LNE_QUAD_STATUS_PWR) rfl (quadOf n)
  have hctl : ctlWord n ∉ [quadWord (quadOf n)] := by simpa using ctlWord_ne_quadWord n.isLt (quadOf n)
  have hval : (if quadUp s.dev (quadOf n) = true then 2 else 1) < 2 ^ F.LNE_STATUS_TX_STATE.wd := by split <;> decide
  refine actsR_of_core rfl hcore (txEn_on_good n.isLt hoff hmode hbad) (hen.mono.next hpost).wr ⟨?_, ?_, ?_, fun hq => ⟨?_, ?_, ?_⟩, fun hq => ⟨?_, ?_, ?_⟩⟩
  · rw [txSet, rd_wr_apart _ (by decide)]
    exact (hpost.rd hctl).trans (rd_txEnabled_txEn _ _)
  · rw [txSet, rd_wr_apart _ (by decide)]
    exact (hpost.rd (f := F.LNE_CTL_RX_EN) hctl).trans (rd_txEnabled_rxEn _ _)
  · rw [txSet, rd_wr_apart _ (by decide)]
    exact (hpost.rd (by simp)).trans (rd_txEnabled_retryCnt _ _)
  · rw [txSet, rd_wr_apart _ (by decide)]
    exact (rd_postQuad_pwr _ _).trans (if_pos (hpwr.trans hq))
  · exact (stagger_postQuad _ _).trans (if_pos (hpwr.trans hq))
  · have hdown : quadUp s.dev (quadOf n) = false := by simp [quadUp, hq]
    exact (rd_wr_fits _ ⟨by decide, hval⟩).trans (by simp [hdown])
  · rw [txSet, rdWord_wr_ne _ _ _ _ _ (statusWord_ne_quadWord _ _).symm, postQuad_of_on (hpwr ▸ hq)]
    exact hen.regs _ (quadWord_not_mem n.isLt _)
  · exact (stagger_postQuad _ _).trans (if_neg (hpwr ▸ hq))
  · exact rd_wr_fits _ ⟨by decide, hval⟩

theorem txEn_refused (hbad : persBad s.dev n = true) :
    ActsR [ctlWord n, statusWord n] [] (.txEn n true) s fun t =>
      rd t.dev F.LNE_CTL_TX_EN n = 1 ∧ rd t.dev F.LNE_STATUS_CFG_ERR n = 1 ∧
      rd t.dev F.LNE_STATUS_TX_STATE n = rd s.dev F.LNE_STATUS_TX_STATE n := by
  refine actsR_of_core rfl hcore (txEn_on_bad n.isLt hoff hmode hbad) (evals_txEnabled s.dev n).wrB ⟨?_, rd_wrB_bit _ (by decide) true, ?_⟩
  · rw [rd_wrB_apart _ (by decide), rd_txEnabled_txEn]
  · rw [rd_wrB_apart _ (by decide), rd_txEnabled_txState]

end

theorem txEn_stops :
    ActsR [ctlWord n, statusWord n, quadWord (quadOf n)] [.stagger, .lanes] (.txEn n false) s fun t =>
      rd t.dev F.LNE_CTL_TX_EN n = 0 ∧ rd t.dev F.LNE_STATUS_TX_STATE n = 0 ∧
      (LastDirection s.dev (quadOf n) n → rd t.dev F.LNE_QUAD_STATUS_PWR (quadOf n) = 0 ∧ rd t.dev F.LNE_QUAD_STATUS_PLL_LOCK (quadOf n) = 0 ∧
        t.dev.stagger = s.dev.stagger.filter (· != (quadOf n))) ∧
      (¬ LastDirection s.dev (quadOf n) n → rdWord t.dev (quadWord (quadOf n)) = rdWord s.dev (quadWord (quadOf n)) ∧
        t.dev.stagger = s.dev.stagger) := by
  have hdis := evals_txDisabled s.dev n
  have hdrop := evals_dropQuad (txDisabled s.dev n) (quadOf n)
  have hctl : ctlWord n ∉ [quadWord (quadOf n)] := by simpa using ctlWord_ne_quadWord n.isLt (quadOf n)
  refine actsR_of_core rfl hcore (txEn_off s.dev n) (hdis.mono.next hdrop) ⟨?_, ?_, fun hlast => ?_, fun hlast => ?_⟩
  · rw [hdrop.rd hctl, rd_txDisabled_txEn, if_pos rfl]
  · exact (hdrop.rd (by simp)).trans (rd_txDisabled_txState _ _)
  · rw [← quadOff_txDisabled] at hlast
    obtain ⟨hpwr, hlock⟩ := rd_dropQuad_of_off hlast
    exact ⟨hpwr, hlock, congrArg Dev.stagger (dropQuad_of_off hlast)⟩
  · rw [← quadOff_txDisabled] at hlast
    have hkeep : dropQuad (txDisabled s.dev n) (quadOf n) = txDisabled s.dev n := dropQuad_of_on hlast
    rw [hkeep]
    exact ⟨hdis.regs _ (quadWord_not_mem n.isLt _), rfl⟩

end

/-! ### The stagger queue (R95) -/

section
variable {d : Dev} {recent p : Nat} {r : List Nat} (hq : d.stagger = p :: r)
include hq

theorem staggerGrant_of_due (hdue : recent < max 1 (min 8 (rd d F.PWR_STAGGER_K))) : staggerGrant recent d =
    if p < 32 then wr { d with stagger := r } F.LNE_QUAD_STATUS_PWR p 2
    else { d with stagger := r, twin := { d.twin with on := true } } := by
  simp [staggerGrant, hq, hdue]

theorem staggerGrant_of_full (hfull : max 1 (min 8 (rd d F.PWR_STAGGER_K)) ≤ recent) : staggerGrant recent d = d := by
  simp only [staggerGrant, hq, if_neg (Nat.not_lt.2 hfull)]

end

theorem only_stagger_twin (d : Dev) (l : List Nat) (x : Twin) : Only [.stagger, .twin] d { d with stagger := l, twin := x } := by
  intro p hp; cases p <;> simp_all [Part.same]

section
variable {s : State} {n : Fin 128} (hcore : s.dev.pwr.core = true)
include hcore

theorem staggerGrant_grants {recent p : Nat} {r : List Nat} (hq : s.dev.stagger = p :: r)
    (hdue : recent < max 1 (min 8 (rd s.dev F.PWR_STAGGER_K))) :
    ActsR [quadWord p] [.stagger, .twin] (.staggerGrant recent) s fun t =>
      t.dev.stagger = r ∧ (p < 32 → rd t.dev F.LNE_QUAD_STATUS_PWR p = 2 ∧ t.dev.twin = s.dev.twin) ∧
      (32 ≤ p → t.dev.regs = s.dev.regs ∧ t.dev.twin = { s.dev.twin with on := true }) := by
  have hgrant := staggerGrant_of_due hq hdue
  by_cases hp : p < 32
  · rw [if_pos hp] at hgrant
    have hframe : Evals [quadWord p] [.regs, .stagger] s.dev (wr { s.dev with stagger := r } F.LNE_QUAD_STATUS_PWR p 2) :=
      (Evals.of_only (only_stagger s.dev r)).mono.wr
    exact actsR_of_core rfl hcore hgrant hframe.mono
      ⟨rfl, fun _ => ⟨rd_wr_fits _ (by decide), rfl⟩, fun h => absurd hp (by omega)⟩
  · rw [if_neg hp] at hgrant
    exact acts_of_core rfl hcore hgrant ((only_stagger_twin _ _ _).mono (by simp))
      ⟨onlyRegs_of_eq _ rfl, rfl, fun h => absurd h hp, fun _ => ⟨rfl, rfl⟩⟩

theorem staggerGrant_waits {recent p : Nat} {r : List Nat} (hq : s.dev.stagger = p :: r)
    (hfull : max 1 (min 8 (rd s.dev F.PWR_STAGGER_K)) ≤ recent) : exec (.staggerGrant recent) s = .next s :=
  (core_next s (staggerGrant recent) hcore).trans (by rw [staggerGrant_of_full hq hfull])

end

/-! ### Soft start, shorts and retries (R99, R100) -/

/-- A short in RAMP or ON is reported, and the fourth one locks the transmitter out (R99). -/
theorem txShort_of_driving {d : Dev} {n : Nat} (sn : SN) (h : txSt d n = 2 ∨ txSt d n = 3) : txShort n sn d =
    if rd d F.LNE_STATUS_RETRY_CNT n < 3 then
      txSet (raise d { typ := 3, sn := sn, p0 := n, p1 := rd d F.LNE_STATUS_RETRY_CNT n + 1 }) n 4
    else raise (txSet (raise d { typ := 3, sn := sn, p0 := n, p1 := rd d F.LNE_STATUS_RETRY_CNT n + 1 }) n 5)
      { typ := 4, sn := sn, p0 := n } :=
  if_neg fun hno => h.elim hno.1 hno.2

theorem rd_retryRamp_txState (d : Dev) (n : Nat) : rd (retryRamp d n) F.LNE_STATUS_TX_STATE n = 2 := by
  rw [retryRamp, rd_modLane, rd_wr_apart _ (by decide)]
  exact rd_wr_fits _ (by decide)

section
variable {s : State} {n : Fin 128} (hcore : s.dev.pwr.core = true)
include hcore

theorem rampComplete_on (htx : rd s.dev F.LNE_STATUS_TX_STATE n = 2) :
    ActsR [statusWord n] [] (.rampComplete n) s fun t => rd t.dev F.LNE_STATUS_TX_STATE n = 3 :=
  actsR_of_core (g := fun d => if txSt d n = 2 then txSet d n 3 else d) rfl hcore (if_pos htx) (Evals.refl _ _ _).wr
    (rd_wr_fits _ (by decide))

theorem retryCntReset_on (htx : rd s.dev F.LNE_STATUS_TX_STATE n = 3) :
    ActsR [statusWord n] [] (.retryCntReset n) s fun t =>
      rd t.dev F.LNE_STATUS_RETRY_CNT n = 0 ∧ rd t.dev F.LNE_STATUS_TX_STATE n = 3 :=
  actsR_of_core (g := fun d => if txSt d n = 3 then wr d F.LNE_STATUS_RETRY_CNT n 0 else d) rfl hcore (if_pos htx)
    (Evals.refl _ _ _).wr ⟨rd_wr_fits _ (by decide), (rd_wr_apart _ (by decide)).trans htx⟩

section
variable (htx : rd s.dev F.LNE_STATUS_TX_STATE n = 2 ∨ rd s.dev F.LNE_STATUS_TX_STATE n = 3)
include htx

theorem txShort_retries (hc : rd s.dev F.LNE_STATUS_RETRY_CNT n < 3) :
    ActsR [statusWord n] [.hif] (.txShort n) s fun t =>
      rd t.dev F.LNE_STATUS_TX_STATE n = 4 ∧ rd t.dev F.LNE_STATUS_RETRY_CNT n = rd s.dev F.LNE_STATUS_RETRY_CNT n ∧
      Raised s.dev t.dev [{ typ := 3, sn := s.sn, p0 := n.val, p1 := rd s.dev F.LNE_STATUS_RETRY_CNT n + 1 }] := by
  have hshort := txShort_of_driving s.sn htx
  rw [if_pos hc] at hshort
  exact actsR_of_core rfl hcore hshort (Evals.refl _ _ _).raise.wr ⟨rd_wr_fits _ (by decide), rd_wr_apart _ (by decide), rfl⟩

theorem txShort_locksOut (hc : rd s.dev F.LNE_STATUS_RETRY_CNT n = 3) :
    ActsR [statusWord n] [.hif] (.txShort n) s fun t =>
      rd t.dev F.LNE_STATUS_TX_STATE n = 5 ∧
      Raised s.dev t.dev [{ typ := 3, sn := s.sn, p0 := n.val, p1 := 4 }, { typ := 4, sn := s.sn, p0 := n.val }] := by
  have hshort := txShort_of_driving s.sn htx
  rw [hc, if_neg (Nat.lt_irrefl 3)] at hshort
  refine actsR_of_core rfl hcore hshort (Evals.refl _ _ _).raise.wr.raise ⟨?_, ?_⟩
  · rw [rd_raise]
    exact rd_wr_fits _ (by decide)
  · exact (raised_raise s.dev _).trans (c := raise (txSet (raise s.dev _) n 5) _) rfl rfl

end

section
variable (htx : rd s.dev F.LNE_STATUS_TX_STATE n = 4)
include htx

theorem retryWaitExpiry_ramps (hc : rd s.dev F.LNE_STATUS_RETRY_CNT n < 3) (hup : quadUp s.dev (quadOf n) = true) :
    ActsR [statusWord n] [.lanes] (.retryWaitExpiry n) s fun t =>
      rd t.dev F.LNE_STATUS_TX_STATE n = 2 ∧ rd t.dev F.LNE_STATUS_RETRY_CNT n = rd s.dev F.LNE_STATUS_RETRY_CNT n + 1 := by
  have hramp : retryExpiry n s.dev = retryRamp s.dev n := (if_neg (not_not.2 htx)).trans (if_pos hup)
  have hfits : rd s.dev F.LNE_STATUS_RETRY_CNT n + 1 < 2 ^ F.LNE_STATUS_RETRY_CNT.wd := Nat.succ_lt_succ hc
  refine actsR_of_core rfl hcore hramp (Evals.refl _ _ _).wr.wr.modLane ⟨rd_retryRamp_txState _ _, ?_⟩
  rw [retryRamp, rd_modLane]
  exact rd_wr_fits _ ⟨by decide, hfits⟩

theorem retryWaitExpiry_waits (hdown : quadUp s.dev (quadOf n) = false) :
    Acts [.lanes] (.retryWaitExpiry n) s fun t => (laneOf t.dev n).retryDue = true := by
  have hwait : retryExpiry n s.dev = modLane s.dev n fun x => { x with retryDue := true } :=
    (if_neg (not_not.2 htx)).trans (if_neg (by simp [hdown]))
  refine acts_of_core rfl hcore hwait (only_lanes _ _) ?_
  rw [laneOf_modLane_same]

end

end

/-! ### One lane after another -/

/-- LNE_STATUS of lane `n` and the lane beside its registers. -/
def port (d : Dev) (n : Nat) : W32 × Lane := (rdWord d (statusWord n), laneOf d n)

theorem laneOf_of_port {a b : Dev} {n : Nat} (h : port a n = port b n) : laneOf a n = laneOf b n := congrArg Prod.snd h

theorem rd_of_port {a b : Dev} {n : Nat} (h : port a n = port b n) {f : Fld} (hf : f.addr n = statusWord n) : rd a f n = rd b f n := by
  have hword : rdWord a (statusWord n) = rdWord b (statusWord n) := congrArg Prod.fst h
  simp only [rd, hf, hword]

/-- A step that touches lane `n` alone. -/
structure PortStep (n : Nat) (a b : Dev) : Prop where
  frame : Evals [statusWord n] [.regs, .lanes] a b
  lane : ∀ m, m ≠ n → laneOf b m = laneOf a m

namespace PortStep

variable {n : Nat} {a b c : Dev}

theorem refl (n : Nat) (a : Dev) : PortStep n a a := ⟨.refl _ _ a, fun _ _ => rfl⟩

theorem wr {f : Fld} {v : Nat} (h : PortStep n a b) (hf : f.addr n = statusWord n := by simp) : PortStep n a (Machine.wr b f n v) :=
  ⟨h.frame.wr (by simp [hf]), h.lane⟩

theorem modLane {f : Lane → Lane} (h : PortStep n a b) : PortStep n a (Machine.modLane b n f) :=
  ⟨h.frame.modLane, fun m hm => (laneOf_modLane_ne b f hm).trans (h.lane m hm)⟩

theorem ite {p : Prop} [Decidable p] (h : p → PortStep n a b) (k : ¬ p → PortStep n a c) : PortStep n a (if p then b else c) := by
  split
  case isTrue hp => exact h hp
  case isFalse hp => exact k hp

theorem port_ne (h : PortStep n a b) {m : Nat} (hm : m ≠ n) : port b m = port a m :=
  Prod.ext (h.frame.regs _ (by simpa using fun he => hm (Fld.addr_injective rfl he))) (h.lane m hm)

end PortStep

/-- In a walk over lanes that touches each alone, a lane's turn finds its port as it was, and leaves it as it will be. -/
theorem port_foldl {f : Dev → Nat → Dev} (hf : ∀ d n, PortStep n d (f d n)) {l : List Nat} (hl : l.Nodup) {n : Nat} (hn : n ∈ l) (d : Dev) :
    ∃ e, port e n = port d n ∧ port (l.foldl f d) n = port (f e n) n := by
  have hrest (l : List Nat) (hnot : n ∉ l) (d : Dev) : port (l.foldl f d) n = port d n := by
    induction l generalizing d with
    | nil => rfl
    | cons m l ih =>
      rw [List.mem_cons, not_or] at hnot
      exact (ih hnot.2 _).trans ((hf d m).port_ne hnot.1)
  obtain ⟨l₁, l₂, rfl⟩ := List.append_of_mem hn
  have hnot := (List.nodup_cons.1 (List.nodup_middle.1 hl)).1
  rw [List.mem_append, not_or] at hnot
  rw [List.foldl_append, List.foldl_cons]
  exact ⟨_, hrest l₁ hnot.1 d, hrest l₂ hnot.2 _⟩

theorem quadLanes_nodup (q : Nat) : (quadLanes q).Nodup := by simp [quadLanes, List.range_succ]

theorem mem_quadLanes (q : Nat) (j : Fin 4) : 4 * q + j.val ∈ quadLanes q :=
  List.mem_map.2 ⟨j, List.mem_range.2 j.isLt, rfl⟩

theorem quadLanes_lt {q n : Nat} (hq : q < 32) (hn : n ∈ quadLanes q) : n < 128 := by
  simp only [quadLanes, List.mem_map, List.mem_range] at hn
  obtain ⟨j, hj, rfl⟩ := hn
  omega

/-- LNE_STATUS of the four lanes of a quad. -/
def quadStatus (q : Nat) : List Nat := (List.range 4).map fun j => statusWord (4 * q + j)

theorem statusWord_mem_quadStatus {q n : Nat} (hn : n ∈ quadLanes q) : statusWord n ∈ quadStatus q := by
  have hmap : (quadLanes q).map statusWord = quadStatus q := List.map_map
  exact hmap ▸ List.mem_map_of_mem hn

theorem quadWord_not_mem_quadStatus (q : Nat) : quadWord q ∉ quadStatus q := by
  simp only [quadStatus, List.mem_map, not_exists, not_and]
  exact fun n _ h => statusWord_ne_quadWord _ q h

section
variable {f : Dev → Nat → Dev} (hf : ∀ d n, PortStep n d (f d n)) (q : Nat)
include hf

theorem evals_quadWalk (d : Dev) : Evals (quadStatus q) [.regs, .lanes] d ((quadLanes q).foldl f d) :=
  .foldl (fun d n hn => (hf d n).frame.mono (by simpa using statusWord_mem_quadStatus hn) (List.Subset.refl _)) d

/-- A walk over the lanes of a quad that follows writes to the quad's own word. -/
theorem port_quadWalk {ps : List Part} {a b : Dev} (hab : Evals [quadWord q] ps a b) (hps : Part.lanes ∉ ps) (j : Fin 4) :
    ∃ e, port e (4 * q + j) = port a (4 * q + j) ∧
      port ((quadLanes q).foldl f b) (4 * q + j) = port (f e (4 * q + j)) (4 * q + j) := by
  have hport : port b (4 * q + j) = port a (4 * q + j) := Prod.ext (hab.regs _ (by simp)) (hab.laneOf _ hps)
  obtain ⟨e, he, hwalk⟩ := port_foldl hf (quadLanes_nodup q) (mem_quadLanes q j) b
  exact ⟨e, he.trans hport, hwalk⟩

end

/-! ### Lock of a quad PLL (R97) -/

theorem portStep_startLane (d : Dev) (n : Nat) : PortStep n d (startLane d n) := by
  unfold startLane
  extract_lets e
  have he : PortStep n d e := .ite (fun _ => (PortStep.refl n d).wr) fun _ => .refl n d
  exact .ite (fun _ => he.wr.modLane) fun _ => he

theorem txSt_startLane (d : Dev) (n : Nat) : txSt (startLane d n) n = if txSt d n = 1 then 2 else txSt d n := by
  unfold startLane
  extract_lets e
  have he : txSt e n = if txSt d n = 1 then 2 else txSt d n := by
    simp only [e]
    split
    · exact rd_wr_fits d (by decide)
    · rfl
  split
  · rw [← he, txSt, rd_modLane, rxSet, rd_wr_apart _ (by decide), txSt]
  · exact he

theorem rxSt_startLane (d : Dev) (n : Nat) : rxSt (startLane d n) n = if rxSt d n = 1 then 2 else rxSt d n := by
  unfold startLane
  extract_lets e
  have he : rxSt e n = rxSt d n := by
    simp only [e]
    split
    · exact rd_wr_apart d (by decide)
    · rfl
  rw [he]
  split
  · rw [rxSt, rd_modLane]
    exact rd_wr_fits e (by decide)
  · exact he

theorem quadLock_of_locking {d : Dev} {q : Nat} (hq : q < 32) (hpwr : rd d F.LNE_QUAD_STATUS_PWR q = 2) :
    quadLock q d = (quadLanes q).foldl startLane (wrB (wr d F.LNE_QUAD_STATUS_PWR q 3) F.LNE_QUAD_STATUS_PLL_LOCK q true) :=
  if_neg (by omega)

theorem txSt_of_port {a b : Dev} {n : Nat} (h : port a n = port b n) : txSt a n = txSt b n := rd_of_port h rfl
theorem rxSt_of_port {a b : Dev} {n : Nat} (h : port a n = port b n) : rxSt a n = rxSt b n := rd_of_port h rfl

section
variable {s : State} {q : Fin 32} (hcore : s.dev.pwr.core = true)
include hcore

/-- The twin link's quad has no lanes. -/
theorem quadPllLock_twin : exec (.quadPllLock 32) s = .next s :=
  (core_next s (quadLock 32) hcore).trans (by rw [quadLock, if_pos (.inl (le_refl 32))])

theorem quadPllLock_starts (hpwr : rd s.dev F.LNE_QUAD_STATUS_PWR q = 2) :
    ActsR (quadWord q :: quadStatus q) [.lanes] (.quadPllLock ⟨q.val, by omega⟩) s fun t =>
      rd t.dev F.LNE_QUAD_STATUS_PWR q = 3 ∧ rd t.dev F.LNE_QUAD_STATUS_PLL_LOCK q = 1 ∧
      ∀ j : Fin 4, txSt t.dev (4 * q.val + j) = (if txSt s.dev (4 * q.val + j) = 1 then 2 else txSt s.dev (4 * q.val + j)) ∧
        rxSt t.dev (4 * q.val + j) = (if rxSt s.dev (4 * q.val + j) = 1 then 2 else rxSt s.dev (4 * q.val + j)) := by
  have hquad : Evals [quadWord q] [.regs] s.dev (wrB (wr s.dev F.LNE_QUAD_STATUS_PWR q 3) F.LNE_QUAD_STATUS_PLL_LOCK q true) :=
    (Evals.refl _ _ _).wr.wrB
  have hwalk := evals_quadWalk portStep_startLane q (wrB (wr s.dev F.LNE_QUAD_STATUS_PWR q 3) F.LNE_QUAD_STATUS_PLL_LOCK q true)
  have hword := quadWord_not_mem_quadStatus q
  refine actsR_of_core rfl hcore (quadLock_of_locking q.isLt hpwr) (hquad.mono.next hwalk) ⟨?_, ?_, fun j => ?_⟩
  · rw [hwalk.rd hword, rd_wrB_apart _ (by decide)]
    exact rd_wr_fits _ (by decide)
  · exact (hwalk.rd (f := F.LNE_QUAD_STATUS_PLL_LOCK) hword).trans (rd_wrB_bit _ (by decide) true)
  · obtain ⟨e, he, hturn⟩ := port_quadWalk portStep_startLane q hquad (by simp) j
    rw [txSt_of_port hturn, rxSt_of_port hturn, txSt_startLane, rxSt_startLane, txSt_of_port he, rxSt_of_port he]
    exact ⟨rfl, rfl⟩

end

/-! ### Unlock of a quad PLL (R98) -/

/-- The lane in RAMP or ON goes to SQUELCH, and its receiver has no clock. -/
def squelchLane (d : Dev) (n : Nat) : Dev :=
  wrB (if txSt d n = 2 ∨ txSt d n = 3 then txSet (modLane d n fun x => { x with sq := txSt d n }) n 6 else d) F.LNE_STATUS_CDR_LOCK n false

theorem portStep_squelchLane (d : Dev) (n : Nat) : PortStep n d (squelchLane d n) :=
  (PortStep.ite (fun _ => (PortStep.refl n d).modLane.wr) fun _ => .refl n d).wr

theorem txSt_squelchLane (d : Dev) (n : Nat) :
    txSt (squelchLane d n) n = if txSt d n = 2 ∨ txSt d n = 3 then 6 else txSt d n := by
  rw [squelchLane, wrB, txSt, rd_wr_apart _ (by decide)]
  split
  · exact rd_wr_fits _ (by decide)
  · rfl

theorem rd_squelchLane_cdrLock (d : Dev) (n : Nat) : rd (squelchLane d n) F.LNE_STATUS_CDR_LOCK n = 0 :=
  rd_wrB_bit _ (by decide) false

/-- The unlock of quad `q` is counted and reported. -/
def unlockNoted (sn : SN) (q : Nat) (d : Dev) : Dev :=
  raise (sat (wrB d F.LNE_QUAD_STATUS_PLL_LOCK q false) F.LNE_QUAD_STATUS_UNLOCK_CNT q) { typ := 2, sn := sn, p0 := q }

theorem quadUnlock_of_up {d : Dev} {q : Nat} (sn : SN) (ns : Nat) (hup : quadUp d q = true) : quadUnlock q ns sn d =
    (quadLanes q).foldl (fun d n => laneChanged sn ns n d) ((quadLanes q).foldl squelchLane (unlockNoted sn q d)) :=
  if_neg (by simp [hup])

theorem evals_unlockNoted (sn : SN) (q : Nat) (d : Dev) : Evals [quadWord q] [.regs, .hif] d (unlockNoted sn q d) :=
  ((Evals.refl _ _ d).wrB.wr).raise

section
variable (sn : SN) (q : Nat) (d : Dev)

theorem raised_unlockNoted : Raised d (unlockNoted sn q d) [{ typ := 2, sn := sn, p0 := q }] := by
  simp [unlockNoted, Raised, raise]

theorem rd_unlockNoted_pllLock : rd (unlockNoted sn q d) F.LNE_QUAD_STATUS_PLL_LOCK q = 0 := by
  rw [unlockNoted, rd_raise, sat, rd_wr_apart _ (by decide)]
  exact rd_wrB_bit d (by decide) false

theorem rd_unlockNoted_pwr : rd (unlockNoted sn q d) F.LNE_QUAD_STATUS_PWR q = rd d F.LNE_QUAD_STATUS_PWR q := by
  rw [unlockNoted, rd_raise, sat, rd_wr_apart _ (by decide), rd_wrB_apart _ (by decide)]

theorem rd_unlockNoted_unlockCnt :
    rd (unlockNoted sn q d) F.LNE_QUAD_STATUS_UNLOCK_CNT q = satAdd 8 (rd d F.LNE_QUAD_STATUS_UNLOCK_CNT q) 1 := by
  have hkeep : rd (wrB d F.LNE_QUAD_STATUS_PLL_LOCK q false) F.LNE_QUAD_STATUS_UNLOCK_CNT q = rd d F.LNE_QUAD_STATUS_UNLOCK_CNT q :=
    rd_wr_apart d (by decide)
  rw [unlockNoted, rd_raise, sat, hkeep]
  exact rd_wr_fits _ ⟨by decide, lt_of_le_of_lt (Nat.min_le_right _ _) (by decide)⟩

end

section
variable {s : State} {q : Fin 32} (hcore : s.dev.pwr.core = true)
include hcore

theorem quadPllUnlock_squelches (ns : Nat) (hup : quadUp s.dev q = true) :
    ActsR (quadWord q :: quadStatus q ++ evalRegs) evalParts (.quadPllUnlock q ns) s fun t =>
      rd t.dev F.LNE_QUAD_STATUS_PLL_LOCK q = 0 ∧ rd t.dev F.LNE_QUAD_STATUS_PWR q = 3 ∧
      rd t.dev F.LNE_QUAD_STATUS_UNLOCK_CNT q = satAdd 8 (rd s.dev F.LNE_QUAD_STATUS_UNLOCK_CNT q) 1 ∧
      (∃ es, Raised s.dev t.dev ({ typ := 2, sn := s.sn, p0 := q.val } :: es)) ∧
      ∀ j : Fin 4, txSt t.dev (4 * q.val + j) =
          (if txSt s.dev (4 * q.val + j) = 2 ∨ txSt s.dev (4 * q.val + j) = 3 then 6 else txSt s.dev (4 * q.val + j)) ∧
        rd t.dev F.LNE_STATUS_CDR_LOCK (4 * q.val + j) = 0 := by
  have hpwr : rd s.dev F.LNE_QUAD_STATUS_PWR q = 3 := by
    simp only [quadUp, Bool.and_eq_true, beq_iff_eq] at hup
    exact hup.1
  have hnoted := evals_unlockNoted s.sn q s.dev
  have hwalk := evals_quadWalk portStep_squelchLane q (unlockNoted s.sn q s.dev)
  have heval : Evals evalRegs statusParts ((quadLanes q).foldl squelchLane (unlockNoted s.sn q s.dev)) _ :=
    .foldl (f := fun d n => laneChanged s.sn ns n d) (l := quadLanes q)
      (fun d n hn => evals_laneChanged s.sn ns (quadLanes_lt q.isLt hn) d) _
  have hword := quadWord_not_mem_quadStatus q
  obtain ⟨es, hes⟩ := hwalk.events
  obtain ⟨es', hes'⟩ := heval.events
  refine actsR_of_core rfl hcore (quadUnlock_of_up s.sn ns hup) ?_ ⟨?_, ?_, ?_, ⟨es ++ es', ?_⟩, fun j => ?_⟩
  · exact ((hnoted.mono (by simp) (by simp [evalParts])).next hwalk (by simp) (by simp [evalParts])).next heval (by simp) statusParts_subset
  · rw [heval.rd_quiet rfl, hwalk.rd (f := F.LNE_QUAD_STATUS_PLL_LOCK) hword, rd_unlockNoted_pllLock]
  · rw [heval.rd_quiet rfl, hwalk.rd hword, rd_unlockNoted_pwr, hpwr]
  · rw [heval.rd_quiet rfl, hwalk.rd (f := F.LNE_QUAD_STATUS_UNLOCK_CNT) hword, rd_unlockNoted_unlockCnt]
  · have hall := (raised_unlockNoted s.sn q s.dev).trans (hes.trans hes' hwalk.role) hnoted.role
    dsimp only
    exact hall
  · obtain ⟨e, he, hturn⟩ := port_quadWalk portStep_squelchLane q hnoted (by simp) j
    rw [txSt, heval.rd_quiet rfl, heval.rd_quiet rfl, rd_of_port hturn (addr_cdrLock _), rd_squelchLane_cdrLock]
    exact ⟨by rw [← txSt, txSt_of_port hturn, txSt_squelchLane, txSt_of_port he], rfl⟩

end

/-! ### Relock of a quad PLL (R98) -/

/-- A squelched transmitter is where it was, and a retry ramp that fell due starts. -/
def unsquelched (d : Dev) (n : Nat) : Dev :=
  if txSt d n = 6 then modLane (txSet d n (laneOf d n).sq) n fun x => { x with sq := 0 } else d
def retried (d : Dev) (n : Nat) (due : Bool) : Dev := if txSt d n = 4 ∧ due then retryRamp d n else d

def resumeLane (d : Dev) (n : Nat) : Dev := startLane (retried (unsquelched d n) n (laneOf d n).retryDue) n

theorem portStep_resumeLane (d : Dev) (n : Nat) : PortStep n d (resumeLane d n) := by
  have hback : PortStep n d (unsquelched d n) := .ite (fun _ => (PortStep.refl n d).wr.modLane) fun _ => .refl n d
  have hretry : PortStep n d (retried (unsquelched d n) n (laneOf d n).retryDue) :=
    .ite (fun _ => hback.wr.wr.modLane) fun _ => hback
  have hstart := portStep_startLane (retried (unsquelched d n) n (laneOf d n).retryDue) n
  exact ⟨hretry.frame.trans hstart.frame, fun m hm => (hstart.lane m hm).trans (hretry.lane m hm)⟩

theorem txSt_unsquelched (d : Dev) (n : Nat) : txSt (unsquelched d n) n = if txSt d n = 6 then (laneOf d n).sq % 2 ^ 3 else txSt d n := by
  unfold unsquelched
  split
  · rw [txSt, rd_modLane]
    exact rd_wr_same _ _ _ _ (by decide)
  · rfl

theorem rxSt_unsquelched (d : Dev) (n : Nat) : rxSt (unsquelched d n) n = rxSt d n := by
  unfold unsquelched
  split
  · rw [rxSt, rd_modLane, txSet, rd_wr_apart _ (by decide), rxSt]
  · rfl

theorem txSt_retried (d : Dev) (n : Nat) (due : Bool) : txSt (retried d n due) n = if txSt d n = 4 ∧ due then 2 else txSt d n := by
  unfold retried
  split
  · exact rd_retryRamp_txState d n
  · rfl

theorem rxSt_retried (d : Dev) (n : Nat) (due : Bool) : rxSt (retried d n due) n = rxSt d n := by
  unfold retried
  split
  · rw [rxSt, retryRamp, rd_modLane, rd_wr_apart _ (by decide), txSet, rd_wr_apart _ (by decide), rxSt]
  · rfl

/-- Where a lane's transmitter goes at the relock (R98). -/
theorem txSt_resumeLane (d : Dev) (n : Nat) :
    (txSt d n = 6 → (laneOf d n).sq = 2 ∨ (laneOf d n).sq = 3 → txSt (resumeLane d n) n = (laneOf d n).sq) ∧
    (txSt d n = 4 → txSt (resumeLane d n) n = if (laneOf d n).retryDue = true then 2 else 4) ∧
    (txSt d n = 1 → txSt (resumeLane d n) n = 2) := by
  simp only [resumeLane, txSt_startLane, txSt_retried, txSt_unsquelched]
  refine ⟨fun h6 hsq => ?_, fun h4 => ?_, fun h1 => ?_⟩
  · rcases hsq with hsq | hsq <;> simp [h6, hsq]
  · cases hdue : (laneOf d n).retryDue <;> simp [h4]
  · simp [h1]

theorem rxSt_resumeLane {d : Dev} {n : Nat} (h : rxSt d n = 1) : rxSt (resumeLane d n) n = 2 := by
  rw [resumeLane, rxSt_startLane, rxSt_retried, rxSt_unsquelched, if_pos h]

theorem quadRelock_of_unlocked {d : Dev} {q : Nat} (hpwr : rd d F.LNE_QUAD_STATUS_PWR q = 3)
    (hlock : rd d F.LNE_QUAD_STATUS_PLL_LOCK q = 0) :
    quadRelock q d = (quadLanes q).foldl resumeLane (wrB d F.LNE_QUAD_STATUS_PLL_LOCK q true) :=
  if_neg (by simp [rdB, hpwr, hlock])

section
variable {s : State} {q : Fin 32} (hcore : s.dev.pwr.core = true)
include hcore

theorem quadPllRelock_resumes (hpwr : rd s.dev F.LNE_QUAD_STATUS_PWR q = 3) (hlock : rd s.dev F.LNE_QUAD_STATUS_PLL_LOCK q = 0) :
    ActsR (quadWord q :: quadStatus q) [.lanes] (.quadPllRelock q) s fun t =>
      rd t.dev F.LNE_QUAD_STATUS_PLL_LOCK q = 1 ∧
      ∀ j : Fin 4, let n := 4 * q.val + j.val
        let x := laneOf s.dev n
        (txSt s.dev n = 6 → (x.sq = 2 ∨ x.sq = 3) → txSt t.dev n = x.sq) ∧
        (txSt s.dev n = 4 → txSt t.dev n = if x.retryDue = true then 2 else 4) ∧
        (txSt s.dev n = 1 → txSt t.dev n = 2) ∧ (rxSt s.dev n = 1 → rxSt t.dev n = 2) := by
  have hquad : Evals [quadWord q] [.regs] s.dev (wrB s.dev F.LNE_QUAD_STATUS_PLL_LOCK q true) := (Evals.refl _ _ _).wrB
  have hwalk := evals_quadWalk portStep_resumeLane q (wrB s.dev F.LNE_QUAD_STATUS_PLL_LOCK q true)
  refine actsR_of_core rfl hcore (quadRelock_of_unlocked hpwr hlock) (hquad.mono.next hwalk) ⟨?_, fun j => ?_⟩
  · exact (hwalk.rd (f := F.LNE_QUAD_STATUS_PLL_LOCK) (quadWord_not_mem_quadStatus q)).trans (rd_wrB_bit _ (by decide) true)
  · obtain ⟨e, he, hturn⟩ := port_quadWalk portStep_resumeLane q hquad (by simp) j
    obtain ⟨hsquelch, hretry, hwait⟩ := txSt_resumeLane e (4 * q.val + j)
    dsimp only
    rw [txSt_of_port hturn, rxSt_of_port hturn, ← txSt_of_port he, ← rxSt_of_port he, ← laneOf_of_port he]
    exact ⟨hsquelch, hretry, hwait, rxSt_resumeLane⟩

end

/-- Settles O4: a transmitter's commands one by one, and each command of a quad PLL as a walk over the quad's lanes. -/
theorem transmittersAndPllsStart : Obligations.TransmittersAndPllsStart := by
  unfold Obligations.TransmittersAndPllsStart
  refine ⟨fun s n hcore => ⟨fun hoff hmode => ⟨?_, ?_⟩, ?_, fun recent p r hq => ⟨?_, ?_⟩, ?_, fun htx => ⟨?_, ?_⟩, fun htx hc => ⟨?_, ?_⟩, ?_⟩,
    fun s q hcore => ⟨?_, ?_, fun ns => ?_, ?_⟩⟩
  · exact txEn_starts hcore hoff hmode
  · exact txEn_refused hcore hoff hmode
  · exact txEn_stops hcore
  · exact staggerGrant_grants hcore hq
  · exact staggerGrant_waits hcore hq
  · exact rampComplete_on hcore
  · exact txShort_retries hcore htx
  · exact txShort_locksOut hcore htx
  · exact retryWaitExpiry_ramps hcore htx hc
  · exact retryWaitExpiry_waits hcore htx
  · exact retryCntReset_on hcore
  · exact quadPllLock_twin hcore
  · exact quadPllLock_starts hcore
  · exact quadPllUnlock_squelches hcore ns
  · exact quadPllRelock_resumes hcore

end Sys2Proof.Machine
end

