-- ==== Sys2Proof/Proofs/Receivers.lean ====
section
/-! PROOFS. Receivers (R94, R95, R101, R109, R120): a command sets the receiver's status, and the evaluation of the lane
follows. -/

namespace Sys2Proof.Machine

/-! ### Commands that the evaluation of the lane follows -/

theorem actsR_of_laneChanged {s : State} {n : Fin 128} {more : List Nat} {ps mp : List Part} {c : Instr} {g : Dev → Dev} {ns : Nat}
    {e : Dev} {f : State → Prop} (hexec : exec c s = core s g) (hcore : s.dev.pwr.core = true)
    (hg : g s.dev = laneChanged s.sn ns n e) (he : Evals (statusWord n :: more) ps s.dev e)
    (hps : ps ⊆ .regs :: (evalParts ++ mp)) (hf : f { s with dev := laneChanged s.sn ns n e }) :
    ActsR (statusWord n :: more ++ evalRegs) (evalParts ++ mp) c s f :=
  actsR_of_core hexec hcore hg
    ((he.mono (by simp) hps).next (evals_laneChanged s.sn ns n.isLt e) (by simp)
      (List.Subset.trans statusParts_subset (List.cons_subset_cons _ (List.subset_append_left _ _)))) hf

/-- FRM_RX_STATUS of lane `n` shows a receiver that has lost what `rank` stands for, and the framer of a GLF lane hunts. -/
def LaneDown (d : Dev) (n rank : Nat) (glf : Bool) : Prop :=
  rd d F.FRM_RX_STATUS_DEF n = rank ∧ rd d F.FRM_RX_STATUS_COND n = 2 ∧
  (glf = true → rd d F.FRM_RX_STATUS_FSTATE n = 0 ∧ rd d F.FRM_RX_STATUS_SN_LOCK n = 0)

/-- The receiver of lane `n` is on and has a personality. -/
def RxOn (d : Dev) (n : Nat) : Prop := rd d F.LNE_CTL_RX_EN n = 1 ∧ persOf d n ≠ 0

theorem RxOn.notSilent {d : Dev} {n : Nat} (h : RxOn d n) : laneSilent d n = false := by
  obtain ⟨hen, hpers⟩ := h
  simp [laneSilent, rdB, hen, hpers]

section
variable (sn : SN) (ns : Nat) {d : Dev} {n : Nat} (hn : n < 128) (hon : RxOn d n)
include hn hon

theorem laneDown_of_los (hlos : rd d F.LNE_STATUS_LOS n = 1) : LaneDown (laneChanged sn ns n d) n 1 (isGlf (persOf d n)) := by
  have hlost : Lost d n := .inr (.inl (by simp [rdB, hlos]))
  obtain ⟨hdef, hcond⟩ := showsLoss_laneChanged sn ns hn hlost
  have hrank : lossDefs d n = 1 := by simp [lossDefs, hon.notSilent, rdB, hlos]
  exact ⟨hdef.trans hrank, hcond, laneChanged_hunts sn ns hn hlost⟩

theorem laneDown_of_lol (hcdr : rd d F.LNE_STATUS_CDR_LOCK n = 0) :
    LaneDown (laneChanged sn ns n d) n (if rd d F.LNE_STATUS_LOS n = 1 then 1 else 2) (isGlf (persOf d n)) := by
  have hlost : Lost d n := .inr (.inr (by simp [rdB, hcdr]))
  obtain ⟨hdef, hcond⟩ := showsLoss_laneChanged sn ns hn hlost
  have hlt : rd d F.LNE_STATUS_LOS n < 2 := rd_lt d F.LNE_STATUS_LOS n
  have hrank : lossDefs d n = if rd d F.LNE_STATUS_LOS n = 1 then 1 else 2 := by
    simp only [lossDefs, hon.notSilent, Bool.false_eq_true, if_false, rdB, bne_iff_ne, ne_eq]
    split <;> split <;> omega
  exact ⟨hdef.trans hrank, hcond, laneChanged_hunts sn ns hn hlost⟩

end

/-- A step that leaves LNE_CTL and LNE_CFG of the lane leaves its receiver on. -/
theorem Evals.rxOn {as : List Nat} {ps : List Part} {a b : Dev} {n : Nat} (h : Evals as ps a b) (hctl : ctlWord n ∉ as)
    (hcfg : F.LNE_CFG_PERS.addr n ∉ as) (hon : RxOn a n) : RxOn b n :=
  ⟨(h.rd (f := F.LNE_CTL_RX_EN) hctl).trans hon.1, (h.rd (f := F.LNE_CFG_PERS) hcfg).trans_ne hon.2⟩

/-! ### Enabling and disabling a receiver (R88, R94 to R96) -/

theorem evals_rxClear (d : Dev) (n : Nat) : Evals [statusWord n] [.regs, .lanes] d (rxClear d n) :=
  ((Evals.refl _ _ d).wrB.wrB.wrB.wrB.wr).modLane

/-- A receiver that reports no signal. -/
theorem rd_rxClear (d : Dev) (n : Nat) : rd (rxClear d n) F.LNE_STATUS_LOS n = 1 ∧ rd (rxClear d n) F.LNE_STATUS_CDR_LOCK n = 0 ∧
    rd (rxClear d n) F.LNE_STATUS_SNR n = 0 := by
  simp (disch := decide) only [rxClear, rd_modLane, rd_wr_apart, rd_wrB_apart, rd_wrB_bit, rd_wr_fits]
  exact ⟨rfl, rfl, trivial⟩

/-- RX_EN is set and the receiver's status is reset. -/
def rxEnabled (d : Dev) (n : Nat) : Dev := rxClear (wrB d F.LNE_CTL_RX_EN n true) n

theorem evals_rxEnabled (d : Dev) (n : Nat) : Evals [ctlWord n, statusWord n] [.regs, .lanes] d (rxEnabled d n) :=
  (Evals.refl _ _ d).wrB.next (evals_rxClear _ n)

theorem rd_rxEnabled_rxEn (d : Dev) (n : Nat) : rd (rxEnabled d n) F.LNE_CTL_RX_EN n = 1 :=
  ((evals_rxClear _ n).rd (by simp)).trans (rd_wrB_bit d (by decide) true)
theorem rd_rxEnabled_txEn (d : Dev) (n : Nat) : rd (rxEnabled d n) F.LNE_CTL_TX_EN n = rd d F.LNE_CTL_TX_EN n :=
  ((evals_rxClear _ n).rd (by simp)).trans (rd_wr_apart d (by decide))

theorem rxEn_on {d e : Dev} {n : Nat} (ns : Nat) (sn : SN) (hoff : rd d F.LNE_CTL_RX_EN n = 0)
    (he : checkMode (rxEnabled d n) n = e) : rxEn n true ns sn d = laneChanged sn ns n
      (if persBad e n then wrB e F.LNE_STATUS_CFG_ERR n true
       else rxSet (postQuad e (quadOf n)) n (if quadUp e (quadOf n) then 2 else 1)) := by
  have hno : rdB d F.LNE_CTL_RX_EN n = false := by simp [rdB, hoff]
  subst he
  rw [rxEn, if_pos rfl, hno, if_neg Bool.false_ne_true, rxEnabled]

/-- A receiver of a good personality and mode, once it waits for its quad or acquires. -/
def rxStarted (d : Dev) (n : Nat) : Dev :=
  rxSet (postQuad (rxEnabled d n) (quadOf n)) n (if quadUp d (quadOf n) then 2 else 1)

theorem rxEn_on_good {d : Dev} {n : Nat} (ns : Nat) (sn : SN) (hn : n < 128) (hoff : rd d F.LNE_CTL_RX_EN n = 0)
    (hmode : isClient (persOf d n) = true → modeGood d n = true) (hbad : persBad d n = false) :
    rxEn n true ns sn d = laneChanged sn ns n (rxStarted d n) := by
  have hen := evals_rxEnabled d n
  rw [rxEn_on ns sn hoff (hen.checkMode hn hmode), hen.persBad hn, hbad, hen.quadUp hn]
  rfl

/-- RX_EN is cleared, the receiver's status is reset, and its quad powers down with its last direction. -/
def rxStopped (d : Dev) (n : Nat) : Dev :=
  dropQuad (rxSet (rxClear (wrB d F.LNE_CTL_RX_EN n false) n) n 0) (quadOf n)

theorem rxEn_off (n ns : Nat) (sn : SN) (d : Dev) : rxEn n false ns sn d = laneChanged sn ns n (rxStopped d n) := by
  rw [rxEn, if_neg Bool.false_ne_true, rxStopped]

theorem persOf_ne_zero_of_persGood {d : Dev} {n : Nat} (h : persBad d n = false) : persOf d n ≠ 0 := fun h0 => by
  simp [persBad, h0, persGroup] at h

section
variable (d : Dev) {n : Nat} (hn : n < 128)

theorem evals_rxStarted (n : Nat) :
    Evals [statusWord n, ctlWord n, quadWord (quadOf n)] [.regs, .lanes, .stagger] d (rxStarted d n) :=
  ((evals_rxEnabled d n).mono.next (evals_postQuad _ _)).wr

theorem rd_rxStarted_rxState (n : Nat) : rd (rxStarted d n) F.LNE_STATUS_RX_STATE n = if quadUp d (quadOf n) = true then 2 else 1 :=
  rd_wr_fits _ ⟨by decide, by split <;> decide⟩

include hn

/-- The fields of the lane that neither its quad's power nor RX_STATE is. -/
theorem rd_rxStarted_lane {f : Fld} (hf : f.addr n ∈ [ctlWord n, statusWord n]) (hst : F.LNE_STATUS_RX_STATE.apart f = true) :
    rd (rxStarted d n) f n = rd (rxEnabled d n) f n := by
  have hquad : f.addr n ∉ [quadWord (quadOf n)] := fun h => quadWord_not_mem hn (quadOf n) (List.mem_singleton.1 h ▸ hf)
  rw [rxStarted, rxSet, rd_wr_apart _ hst]
  exact (evals_postQuad _ _).rd hquad

theorem rd_rxStarted_pwr : rd (rxStarted d n) F.LNE_QUAD_STATUS_PWR (quadOf n) =
    if rd d F.LNE_QUAD_STATUS_PWR (quadOf n) = 0 then 1 else rd d F.LNE_QUAD_STATUS_PWR (quadOf n) := by
  rw [rxStarted, rxSet, rd_wr_apart _ (by decide), rd_postQuad_pwr, (evals_rxEnabled d n).rd_offLane hn (f := F.LNE_QUAD_STATUS_PWR) rfl]

theorem stagger_rxStarted : (rxStarted d n).stagger =
    if rd d F.LNE_QUAD_STATUS_PWR (quadOf n) = 0 then d.stagger ++ [quadOf n] else d.stagger := by
  rw [rxStarted, rxSet, wr_stagger, stagger_postQuad, (evals_rxEnabled d n).rd_offLane hn (f := F.LNE_QUAD_STATUS_PWR) rfl]
  rfl

end

section
variable (d : Dev) {n : Nat} (hn : n < 128)

theorem evals_rxStopped (n : Nat) :
    Evals [statusWord n, ctlWord n, quadWord (quadOf n)] [.regs, .lanes, .stagger] d (rxStopped d n) :=
  ((Evals.refl _ _ d).wrB.next (evals_rxClear _ n)).wr.next (evals_dropQuad _ _)

theorem rd_rxStopped_rxState (n : Nat) : rd (rxStopped d n) F.LNE_STATUS_RX_STATE n = 0 :=
  ((evals_dropQuad _ _).rd (by simp)).trans (rd_wr_fits _ (by decide))

include hn in
theorem rd_rxStopped_rxEn : rd (rxStopped d n) F.LNE_CTL_RX_EN n = 0 := by
  rw [rxStopped, (evals_dropQuad _ _).rd (by simpa using ctlWord_ne_quadWord hn _), rxSet, rd_wr_apart _ (by decide),
    (evals_rxClear _ n).rd (by simp)]
  exact rd_wrB_bit d (by decide) false

end

section
variable {s : State} {n : Fin 128} (hcore : s.dev.pwr.core = true) (ns : Nat)
include hcore

theorem rxEn_starts (hoff : rd s.dev F.LNE_CTL_RX_EN n = 0) (hmode : isClient (persOf s.dev n) = true → modeGood s.dev n = true)
    (hbad : persBad s.dev n = false) :
    ActsR (statusWord n :: [ctlWord n, quadWord (quadOf n)] ++ evalRegs) (evalParts ++ [.stagger]) (.rxEn n true ns) s fun t =>
      rd t.dev F.LNE_CTL_RX_EN n = 1 ∧ rd t.dev F.LNE_CTL_TX_EN n = rd s.dev F.LNE_CTL_TX_EN n ∧
      rd t.dev F.LNE_STATUS_LOS n = 1 ∧ rd t.dev F.LNE_STATUS_CDR_LOCK n = 0 ∧ rd t.dev F.LNE_STATUS_SNR n = 0 ∧
      LaneDown t.dev n 1 (isGlf (persOf s.dev n)) ∧
      (rd s.dev F.LNE_QUAD_STATUS_PWR (quadOf n) = 0 → rd t.dev F.LNE_QUAD_STATUS_PWR (quadOf n) = 1 ∧
        t.dev.stagger = s.dev.stagger ++ [quadOf n] ∧ rd t.dev F.LNE_STATUS_RX_STATE n = 1) ∧
      (rd s.dev F.LNE_QUAD_STATUS_PWR (quadOf n) ≠ 0 →
        rd t.dev F.LNE_QUAD_STATUS_PWR (quadOf n) = rd s.dev F.LNE_QUAD_STATUS_PWR (quadOf n) ∧
        t.dev.stagger = s.dev.stagger ∧ rd t.dev F.LNE_STATUS_RX_STATE n = if quadUp s.dev (quadOf n) = true then 2 else 1) := by
  have hframe := evals_rxStarted s.dev n
  have hctl (f : Fld) (hf : f.addr n = ctlWord n) := rd_rxStarted_lane s.dev n.isLt (f := f) (by simp [hf])
  have hstatus (f : Fld) (hf : f.addr n = statusWord n) := rd_rxStarted_lane s.dev n.isLt (f := f) (by simp [hf])
  obtain ⟨hlos, hcdr, hsnr⟩ := rd_rxClear (wrB s.dev F.LNE_CTL_RX_EN n true) n
  have hen : rd (rxStarted s.dev n) F.LNE_CTL_RX_EN n = 1 := (hctl F.LNE_CTL_RX_EN rfl (by decide)).trans (rd_rxEnabled_rxEn _ _)
  have hlos' : rd (rxStarted s.dev n) F.LNE_STATUS_LOS n = 1 := (hstatus F.LNE_STATUS_LOS rfl (by decide)).trans hlos
  have hpers : persOf (rxStarted s.dev n) n = persOf s.dev n := hframe.rd (by simp)
  have hon : RxOn (rxStarted s.dev n) n := ⟨hen, hpers ▸ persOf_ne_zero_of_persGood hbad⟩
  have hquiet {f : Fld} {i x : Nat} (h : rd (rxStarted s.dev n) f i = x) (hf : f.quiet = true := by rfl) :=
    rd_laneChanged s.sn ns n.isLt h hf
  have hstagger := stagger_laneChanged s.sn ns n.isLt (rxStarted s.dev n)
  refine actsR_of_laneChanged rfl hcore (rxEn_on_good ns s.sn n.isLt hoff hmode hbad) hframe (by simp [evalParts]) ?_
  dsimp only
  refine ⟨hquiet hen, hquiet ?_, hquiet hlos', hquiet ?_, hquiet ?_, ?_, fun hq => ⟨hquiet ?_, hstagger.trans ?_, hquiet ?_⟩,
    fun hq => ⟨hquiet ?_, hstagger.trans ?_, hquiet ?_⟩⟩
  · exact (hctl F.LNE_CTL_TX_EN rfl (by decide)).trans (rd_rxEnabled_txEn _ _)
  · exact (hstatus F.LNE_STATUS_CDR_LOCK rfl (by decide)).trans hcdr
  · exact (hstatus F.LNE_STATUS_SNR rfl (by decide)).trans hsnr
  · exact hpers ▸ laneDown_of_los s.sn ns n.isLt hon hlos'
  · exact (rd_rxStarted_pwr s.dev n.isLt).trans (if_pos hq)
  · exact (stagger_rxStarted s.dev n.isLt).trans (if_pos hq)
  · have hdown : quadUp s.dev (quadOf n) = false := by simp [quadUp, hq]
    exact (rd_rxStarted_rxState s.dev n).trans (by simp [hdown])
  · exact (rd_rxStarted_pwr s.dev n.isLt).trans (if_neg hq)
  · exact (stagger_rxStarted s.dev n.isLt).trans (if_neg hq)
  · exact rd_rxStarted_rxState s.dev n

/-- A receiver that is switched off reports no defect (R120), and its lane is SF. -/
theorem rxEn_stops :
    ActsR (statusWord n :: [ctlWord n, quadWord (quadOf n)] ++ evalRegs) (evalParts ++ [.stagger]) (.rxEn n false ns) s fun t =>
      rd t.dev F.LNE_CTL_RX_EN n = 0 ∧ rd t.dev F.LNE_STATUS_RX_STATE n = 0 ∧ rd t.dev F.FRM_RX_STATUS_DEF n = 0 ∧
      rd t.dev F.FRM_RX_STATUS_COND n = 2 := by
  have hframe := evals_rxStopped s.dev n
  have hen := rd_rxStopped_rxEn s.dev n.isLt
  have hsilent : laneSilent (rxStopped s.dev n) n = true := by simp [laneSilent, rdB, hen]
  have hnone : lossDefs (rxStopped s.dev n) n = 0 := by simp [lossDefs, hsilent]
  obtain ⟨hdef, hcond⟩ := showsLoss_laneChanged s.sn ns n.isLt (.inl hsilent)
  refine actsR_of_laneChanged rfl hcore (rxEn_off n ns s.sn s.dev) hframe (by simp [evalParts]) ?_
  dsimp only
  exact ⟨rd_laneChanged _ _ n.isLt hen, rd_laneChanged _ _ n.isLt (rd_rxStopped_rxState s.dev n), hdef.trans hnone, hcond⟩

end

/-! ### Commands that write the receiver's status alone -/

theorem actsR_of_rxStatus {s : State} {n : Fin 128} {c : Instr} {g : Dev → Dev} {ns : Nat} {e : Dev} {f : State → Prop}
    (hexec : exec c s = core s g) (hcore : s.dev.pwr.core = true) (hg : g s.dev = laneChanged s.sn ns n e)
    (he : Evals [statusWord n] [.regs, .lanes] s.dev e) (hf : f { s with dev := laneChanged s.sn ns n e }) :
    ActsR (statusWord n :: [] ++ evalRegs) (evalParts ++ []) c s f :=
  actsR_of_laneChanged hexec hcore hg he (by simp [evalParts]) hf

section
variable (sn : SN) (ns : Nat) {ps : List Part} {d e : Dev} {n : Nat} (he : Evals [statusWord n] ps d e) (hn : n < 128) (hon : RxOn d n)
include he hn hon

theorem Evals.laneDown_of_los (hlos : Machine.rd e F.LNE_STATUS_LOS n = 1) :
    LaneDown (laneChanged sn ns n e) n 1 (isGlf (Machine.persOf d n)) := by
  have hpers : Machine.persOf e n = Machine.persOf d n := he.rd (by simp)
  exact hpers ▸ Machine.laneDown_of_los sn ns hn (he.rxOn (by simp) (by simp) hon) hlos

theorem Evals.laneDown_of_lol (hcdr : Machine.rd e F.LNE_STATUS_CDR_LOCK n = 0) :
    LaneDown (laneChanged sn ns n e) n (if Machine.rd e F.LNE_STATUS_LOS n = 1 then 1 else 2) (isGlf (Machine.persOf d n)) := by
  have hpers : Machine.persOf e n = Machine.persOf d n := he.rd (by simp)
  exact hpers ▸ Machine.laneDown_of_lol sn ns hn (he.rxOn (by simp) (by simp) hon) hcdr

end

/-! ### The signal detector (R101) -/

/-- SIG_DET of lane `n` follows the detector, and LOS does in ADAPTED. -/
def sigShown (d : Dev) (n : Nat) (up : Bool) : Dev :=
  let e := wrB d F.LNE_STATUS_SIG_DET n up
  if rxSt e n = 3 then wrB e F.LNE_STATUS_LOS n (!up) else e

section
variable (d : Dev) (n : Nat) (up : Bool)

theorem rxSt_wrB_sigDet : rxSt (wrB d F.LNE_STATUS_SIG_DET n up) n = rxSt d n := rd_wrB_apart d (by decide)

theorem evals_sigShown : Evals [statusWord n] [.regs] d (sigShown d n up) :=
  .ite (fun _ => (Evals.refl _ _ d).wrB.wrB) fun _ => (Evals.refl _ _ d).wrB

theorem rd_sigShown {f : Fld} (hsig : F.LNE_STATUS_SIG_DET.apart f = true) (hlos : F.LNE_STATUS_LOS.apart f = true) :
    rd (sigShown d n up) f n = rd d f n := by
  unfold sigShown
  dsimp only
  split
  · rw [rd_wrB_apart _ hlos, rd_wrB_apart _ hsig]
  · rw [rd_wrB_apart _ hsig]

theorem rd_sigShown_sigDet : rd (sigShown d n up) F.LNE_STATUS_SIG_DET n = up.toNat := by
  unfold sigShown
  dsimp only
  split
  · rw [rd_wrB_apart _ (by decide), rd_wrB_bit _ (by decide)]
  · rw [rd_wrB_bit _ (by decide)]

theorem rd_sigShown_los : rd (sigShown d n up) F.LNE_STATUS_LOS n =
    if rxSt d n = 3 then (!up).toNat else rd d F.LNE_STATUS_LOS n := by
  simp only [sigShown, rxSt_wrB_sigDet]
  split
  · rw [rd_wrB_bit _ (by decide)]
  · rw [rd_wrB_apart _ (by decide)]

/-- A lane that sees its signal again in ADAPTED without a clock is to relock. -/
def sigMoved : Dev :=
  modLane (sigShown d n up) n fun x => { x with relock := up && !rdB d F.LNE_STATUS_CDR_LOCK n && rxSt d n == 3 }

theorem evals_sigMoved : Evals [statusWord n] [.regs, .lanes] d (sigMoved d n up) := (evals_sigShown d n up).mono.modLane

theorem rd_sigMoved (f : Fld) : rd (sigMoved d n up) f n = rd (sigShown d n up) f n := rd_modLane _ _ _ _ _

theorem sigDet_eq {d : Dev} {n : Nat} (ns : Nat) (sn : SN) (h : 2 ≤ rxSt d n) :
    sigDet n up ns sn d = laneChanged sn ns n (sigMoved d n up) := by
  have hst : rxSt (sigShown d n up) n = rxSt d n := rd_sigShown d n up (by decide) (by decide)
  have hcdr : rdB (sigShown d n up) F.LNE_STATUS_CDR_LOCK n = rdB d F.LNE_STATUS_CDR_LOCK n := by
    rw [rdB, rd_sigShown d n up (by decide) (by decide), rdB]
  have hdet : sigDet n up ns sn d = laneChanged sn ns n (modLane (sigShown d n up) n fun x =>
      { x with relock := up && !rdB (sigShown d n up) F.LNE_STATUS_CDR_LOCK n && rxSt (sigShown d n up) n == 3 }) := if_neg (by omega)
  rw [hdet, hcdr, hst, sigMoved]

end

section
variable {s : State} {n : Fin 128} (hcore : s.dev.pwr.core = true) (ns : Nat)
include hcore

theorem sigDetFall_loses (hon : RxOn s.dev n) (hrx : 2 ≤ rd s.dev F.LNE_STATUS_RX_STATE n) :
    ActsR (statusWord n :: [] ++ evalRegs) (evalParts ++ []) (.sigDetFall n ns) s fun t =>
      rd t.dev F.LNE_STATUS_SIG_DET n = 0 ∧
      (rd s.dev F.LNE_STATUS_RX_STATE n = 3 → rd t.dev F.LNE_STATUS_LOS n = 1 ∧ LaneDown t.dev n 1 (isGlf (persOf s.dev n))) ∧
      (rd s.dev F.LNE_STATUS_RX_STATE n ≠ 3 → rd t.dev F.LNE_STATUS_LOS n = rd s.dev F.LNE_STATUS_LOS n) ∧
      rd t.dev F.LNE_STATUS_RX_STATE n = rd s.dev F.LNE_STATUS_RX_STATE n := by
  have hframe := evals_sigMoved s.dev n false
  have hlos := (rd_sigMoved s.dev n false F.LNE_STATUS_LOS).trans (rd_sigShown_los s.dev n false)
  have hquiet {f : Fld} {x : Nat} (h : rd (sigShown s.dev n false) f n = x) (hf : f.quiet = true := by rfl) :=
    rd_laneChanged s.sn ns n.isLt ((rd_sigMoved s.dev n false f).trans h) hf
  refine actsR_of_rxStatus rfl hcore (sigDet_eq false ns s.sn hrx) hframe ?_
  dsimp only
  refine ⟨hquiet (rd_sigShown_sigDet _ _ _), fun h3 => ?_, fun h3 => ?_, hquiet (rd_sigShown _ _ _ (by decide) (by decide))⟩
  · have hset := hlos.trans (if_pos h3)
    exact ⟨rd_laneChanged s.sn ns n.isLt hset, hframe.laneDown_of_los s.sn ns n.isLt hon hset⟩
  · exact rd_laneChanged s.sn ns n.isLt (hlos.trans (if_neg h3))

theorem sigDetRise_sees (hrx : 2 ≤ rd s.dev F.LNE_STATUS_RX_STATE n) :
    ActsR (statusWord n :: [] ++ evalRegs) (evalParts ++ []) (.sigDetRise n ns) s fun t =>
      rd t.dev F.LNE_STATUS_SIG_DET n = 1 ∧
      (rd s.dev F.LNE_STATUS_RX_STATE n = 3 → rd t.dev F.LNE_STATUS_LOS n = 0 ∧
        (laneOf t.dev n).relock = (rd s.dev F.LNE_STATUS_CDR_LOCK n == 0)) ∧
      (rd s.dev F.LNE_STATUS_RX_STATE n ≠ 3 → rd t.dev F.LNE_STATUS_LOS n = rd s.dev F.LNE_STATUS_LOS n) ∧
      rd t.dev F.LNE_STATUS_RX_STATE n = rd s.dev F.LNE_STATUS_RX_STATE n := by
  have hlos := (rd_sigMoved s.dev n true F.LNE_STATUS_LOS).trans (rd_sigShown_los s.dev n true)
  have hquiet {f : Fld} {x : Nat} (h : rd (sigShown s.dev n true) f n = x) (hf : f.quiet = true := by rfl) :=
    rd_laneChanged s.sn ns n.isLt ((rd_sigMoved s.dev n true f).trans h) hf
  refine actsR_of_rxStatus rfl hcore (sigDet_eq true ns s.sn hrx) (evals_sigMoved s.dev n true) ?_
  dsimp only
  refine ⟨hquiet (rd_sigShown_sigDet _ _ _), fun h3 => ⟨?_, ?_⟩, fun h3 => ?_, hquiet (rd_sigShown _ _ _ (by decide) (by decide))⟩
  · exact rd_laneChanged s.sn ns n.isLt (hlos.trans (if_pos h3))
  · rw [laneOf_laneChanged s.sn ns n.isLt, sigMoved, laneOf_modLane_same]
    simp [rxSt, h3, rdB, bne]
  · exact rd_laneChanged s.sn ns n.isLt (hlos.trans (if_neg h3))

end

/-! ### The clock (R101) -/

/-- CDR_LOCK of lane `n` follows the loop; with the lock the lane need not relock. -/
def cdrShown (d : Dev) (n : Nat) (up : Bool) : Dev :=
  let e := wrB d F.LNE_STATUS_CDR_LOCK n up
  if up then modLane e n fun x => { x with relock := false } else e

theorem cdrLock_eq {d : Dev} {n : Nat} (up : Bool) (ns : Nat) (sn : SN) (h : 2 ≤ rxSt d n) :
    cdrLock n up ns sn d = laneChanged sn ns n (cdrShown d n up) := if_neg (by omega)

section
variable (d : Dev) (n : Nat) (up : Bool)

theorem evals_cdrShown : Evals [statusWord n] [.regs, .lanes] d (cdrShown d n up) :=
  .ite (fun _ => (Evals.refl _ _ d).wrB.modLane) fun _ => (Evals.refl _ _ d).wrB

theorem rd_cdrShown (f : Fld) : rd (cdrShown d n up) f n = rd (wrB d F.LNE_STATUS_CDR_LOCK n up) f n := by
  unfold cdrShown
  dsimp only
  split
  · rw [rd_modLane]
  · rfl

theorem rd_cdrShown_cdrLock : rd (cdrShown d n up) F.LNE_STATUS_CDR_LOCK n = up.toNat :=
  (rd_cdrShown d n up _).trans (rd_wrB_bit d (by decide) up)

theorem rd_cdrShown_apart {f : Fld} (hf : F.LNE_STATUS_CDR_LOCK.apart f = true) : rd (cdrShown d n up) f n = rd d f n :=
  (rd_cdrShown d n up f).trans (rd_wrB_apart d hf)

end

section
variable {s : State} {n : Fin 128} (hcore : s.dev.pwr.core = true) (ns : Nat)
include hcore

theorem cdrLockLoss_loses (hon : RxOn s.dev n) (hrx : 2 ≤ rd s.dev F.LNE_STATUS_RX_STATE n) :
    ActsR (statusWord n :: [] ++ evalRegs) (evalParts ++ []) (.cdrLockLoss n ns) s fun t =>
      rd t.dev F.LNE_STATUS_CDR_LOCK n = 0 ∧ rd t.dev F.LNE_STATUS_RX_STATE n = rd s.dev F.LNE_STATUS_RX_STATE n ∧
      LaneDown t.dev n (if rd s.dev F.LNE_STATUS_LOS n = 1 then 1 else 2) (isGlf (persOf s.dev n)) := by
  have hframe := evals_cdrShown s.dev n false
  have hcdr := rd_cdrShown_cdrLock s.dev n false
  have hlos := rd_cdrShown_apart s.dev n false (f := F.LNE_STATUS_LOS) (by decide)
  refine actsR_of_rxStatus rfl hcore (cdrLock_eq false ns s.sn hrx) hframe ?_
  dsimp only
  exact ⟨rd_laneChanged s.sn ns n.isLt hcdr, rd_laneChanged s.sn ns n.isLt (rd_cdrShown_apart s.dev n false (by decide)),
    hlos ▸ hframe.laneDown_of_lol s.sn ns n.isLt hon hcdr⟩

theorem cdrLockGain_locks (hrx : 2 ≤ rd s.dev F.LNE_STATUS_RX_STATE n) :
    ActsR (statusWord n :: [] ++ evalRegs) (evalParts ++ []) (.cdrLockGain n ns) s fun t =>
      rd t.dev F.LNE_STATUS_CDR_LOCK n = 1 ∧ rd t.dev F.LNE_STATUS_RX_STATE n = rd s.dev F.LNE_STATUS_RX_STATE n ∧
      (laneOf t.dev n).relock = false := by
  refine actsR_of_rxStatus rfl hcore (cdrLock_eq true ns s.sn hrx) (evals_cdrShown s.dev n true) ?_
  dsimp only
  refine ⟨rd_laneChanged s.sn ns n.isLt (rd_cdrShown_cdrLock s.dev n true),
    rd_laneChanged s.sn ns n.isLt (rd_cdrShown_apart s.dev n true (by decide)), ?_⟩
  rw [laneOf_laneChanged s.sn ns n.isLt, cdrShown, if_pos rfl, laneOf_modLane_same]

end

/-! ### Adaptation (R94, R109) -/

/-- A receiver that has adapted: ADAPTED with its SNR, and LOS by the signal detector. -/
def adaptedStatus (d : Dev) (n : Nat) (snr : BitVec 12) : Dev :=
  let e := wr (rxSet d n 3) F.LNE_STATUS_SNR n snr.toNat
  wrB e F.LNE_STATUS_LOS n (!rdB e F.LNE_STATUS_SIG_DET n)

section
variable (d : Dev) (n : Nat) (snr : BitVec 12)

theorem evals_adaptedStatus : Evals [statusWord n] [.regs] d (adaptedStatus d n snr) := (Evals.refl _ _ d).wr.wr.wrB

theorem rd_adaptedStatus_rxState : rd (adaptedStatus d n snr) F.LNE_STATUS_RX_STATE n = 3 := by
  simp (disch := decide) only [adaptedStatus, rxSet, rd_wrB_apart, rd_wr_apart, rd_wr_fits]

theorem rd_adaptedStatus_snr : rd (adaptedStatus d n snr) F.LNE_STATUS_SNR n = snr.toNat := by
  simp (disch := decide) only [adaptedStatus, rd_wrB_apart]
  exact rd_wr_fits _ ⟨by decide, snr.isLt⟩

theorem rd_adaptedStatus_los : rd (adaptedStatus d n snr) F.LNE_STATUS_LOS n = (!rdB d F.LNE_STATUS_SIG_DET n).toNat := by
  simp (disch := decide) only [adaptedStatus, rxSet, rd_wrB_bit, rdB, rd_wr_apart]

theorem adaptedStatus_lanes (m : Nat) : laneOf (adaptedStatus d n snr) m = laneOf d m := rfl

end

section
variable {d : Dev} {n : Nat} (snr : BitVec 12) (ctle : BitVec 5) (dfe : BitVec 8) (ffe : List (BitVec 8)) (ns : Nat) (sn : SN)

/-- The equalizer of lane `n` shows what its loops have settled on. -/
def equalized (d : Dev) (n : Nat) (ctle : BitVec 5) (dfe : BitVec 8) (ffe : List (BitVec 8)) : Dev :=
  modLane d n fun x => { x with adapted := some (ctle, dfe, ffe.take 32) }

theorem adaptDone_of_signal (hst : rxSt d n = 2) (hheld : eqHeld d n = false) (hsig : rd d F.LNE_STATUS_SIG_DET n = 1) :
    adaptDone n snr ctle dfe ffe ns sn d = laneChanged sn ns n (adaptedStatus (equalized d n ctle dfe ffe) n snr) := by
  have hready : (rxSt d n ≠ 2 || !adaptReady d n) = false := by simp [hst, adaptReady, hheld, rdB, hsig]
  rw [adaptDone, hready, if_neg Bool.false_ne_true, hheld, if_neg Bool.false_ne_true, equalized, adaptedStatus]

theorem adaptDone_of_held (hst : rxSt d n = 2) (hheld : eqHeld d n = true) (hcdr : rd d F.LNE_STATUS_CDR_LOCK n = 1) :
    adaptDone n snr ctle dfe ffe ns sn d = laneChanged sn ns n (adaptedStatus d n snr) := by
  have hready : (rxSt d n ≠ 2 || !adaptReady d n) = false := by simp [hst, adaptReady, hheld, rdB, hcdr]
  rw [adaptDone, hready, if_neg Bool.false_ne_true, hheld, if_pos rfl, adaptedStatus]

theorem adaptDone_of_not_ready (hready : adaptReady d n = false) : adaptDone n snr ctle dfe ffe ns sn d = d := by
  simp [adaptDone, hready]

end

/-- With adapted values in use, the equalizer registers show them (R109). -/
theorem eqView_of_adapted {d : Dev} {n : Nat} {ctle : BitVec 5} {dfe : BitVec 8} {ffe : List (BitVec 8)} (hheld : eqHeld d n = false)
    (h : (laneOf d n).adapted = some (ctle, dfe, ffe.take 32)) :
    eqView d n 0 = ctle.toNat ∧ eqView d n 1 = dfe.toNat ∧
    ∀ k < 32, ∀ v, ffe[k]? = some v → eqView d n (2 + k) = v.toNat := by
  refine ⟨by simp [eqView, hheld, h], by simp [eqView, hheld, h], fun k hk v hv => ?_⟩
  have htap : (ffe.take 32)[k]? = some v := by rw [List.getElem?_take_of_lt hk, hv]
  have h1 : 2 + k ≠ 1 := by omega
  simp [eqView, hheld, h, htap, h1]

/-- No evaluation writes the equalizer registers. -/
theorem eq_addr_not_mem_evalRegs (n : Nat) {reg : Nat} (h : reg < 34) : (eqFld reg).addr (eqIdx n reg) ∉ evalRegs := fun hmem => by
  obtain ⟨off, hlow, hhigh, haddr⟩ := eq_addr n h
  rw [haddr, evalRegs_eq, List.mem_append] at hmem
  rcases hmem with hmem | hmem
  · obtain ⟨m, -, hm⟩ := List.mem_map.1 hmem
    rw [addr_status] at hm
    omega
  · have := addr_of_mem_followRegs hmem
    omega

theorem eq_addr_ne_statusWord (n : Nat) {reg : Nat} (h : reg < 34) : (eqFld reg).addr (eqIdx n reg) ∉ [statusWord n] := fun hmem => by
  obtain ⟨off, hlow, hhigh, haddr⟩ := eq_addr n h
  rw [haddr, List.mem_singleton, statusWord, Fld.addr_of_strided (f := F.LNE_STATUS_TX_STATE) rfl] at hmem
  simp only [F.LNE_STATUS_TX_STATE] at hmem
  omega

section
variable (sn : SN) (ns : Nat) {ps : List Part} {d e : Dev} {n : Nat} (he : Evals [statusWord n] ps d e) (hn : n < 128)
include he hn

theorem eqHeld_laneChanged : eqHeld (laneChanged sn ns n e) n = eqHeld d n := by
  have hmode : F.LNE_CFG_ADAPT_MODE.addr n ∉ [statusWord n] := by
    rw [show F.LNE_CFG_ADAPT_MODE.addr n = F.LNE_CFG_PERS.addr n from rfl]
    simp
  rw [eqHeld, rd_laneChanged sn ns hn (f := F.LNE_CFG_ADAPT_MODE) (he.rd hmode), eqHeld]

/-- Values that the equalizer holds stay. -/
theorem eqView_laneChanged_of_held (hheld : eqHeld d n = true) {reg : Nat} (h : reg < 34) :
    eqView (laneChanged sn ns n e) n reg = eqView d n reg := by
  rw [eqView_of_held ((eqHeld_laneChanged sn ns he hn).trans hheld), eqView_of_held hheld,
    (evals_laneChanged sn ns hn e).rd (eq_addr_not_mem_evalRegs n h), he.rd (eq_addr_ne_statusWord n h)]

end

section
variable {s : State} {n : Fin 128} (hcore : s.dev.pwr.core = true) (snr : BitVec 12) (ctle : BitVec 5) (dfe : BitVec 8)
  (ffe : List (BitVec 8)) (ns : Nat)
include hcore

theorem adaptationComplete_adapts (hst : rd s.dev F.LNE_STATUS_RX_STATE n = 2) (hmode : rd s.dev F.LNE_CFG_ADAPT_MODE n ≠ 2)
    (hsig : rd s.dev F.LNE_STATUS_SIG_DET n = 1) :
    ActsR (statusWord n :: [] ++ evalRegs) (evalParts ++ []) (.adaptationComplete n snr ctle dfe ffe ns) s fun t =>
      rd t.dev F.LNE_STATUS_RX_STATE n = 3 ∧ rd t.dev F.LNE_STATUS_SNR n = snr.toNat ∧ rd t.dev F.LNE_STATUS_LOS n = 0 ∧
      eqView t.dev n 0 = ctle.toNat ∧ eqView t.dev n 1 = dfe.toNat ∧
      ∀ k < 32, ∀ v, ffe[k]? = some v → eqView t.dev n (2 + k) = v.toNat := by
  have hheld : eqHeld s.dev n = false := beq_eq_false_iff_ne.2 hmode
  have hframe : Evals [statusWord n] [.regs, .lanes] s.dev (adaptedStatus (equalized s.dev n ctle dfe ffe) n snr) :=
    (evals_modLane _ _ _).mono.next (evals_adaptedStatus _ n snr)
  have hlos : rd (adaptedStatus (equalized s.dev n ctle dfe ffe) n snr) F.LNE_STATUS_LOS n = 0 := by
    rw [rd_adaptedStatus_los, rdB, equalized, rd_modLane, hsig]
    rfl
  have hadapted : (laneOf (laneChanged s.sn ns n (adaptedStatus (equalized s.dev n ctle dfe ffe) n snr)) n).adapted =
      some (ctle, dfe, ffe.take 32) := by
    rw [laneOf_laneChanged s.sn ns n.isLt, adaptedStatus_lanes, equalized, laneOf_modLane_same]
  refine actsR_of_rxStatus rfl hcore (adaptDone_of_signal snr ctle dfe ffe ns s.sn hst hheld hsig) hframe ?_
  dsimp only
  exact ⟨rd_laneChanged s.sn ns n.isLt (rd_adaptedStatus_rxState _ n snr), rd_laneChanged s.sn ns n.isLt (rd_adaptedStatus_snr _ n snr),
    rd_laneChanged s.sn ns n.isLt hlos, eqView_of_adapted ((eqHeld_laneChanged s.sn ns hframe n.isLt).trans hheld) hadapted⟩

theorem adaptationComplete_holds (hst : rd s.dev F.LNE_STATUS_RX_STATE n = 2) (hmode : rd s.dev F.LNE_CFG_ADAPT_MODE n = 2)
    (hcdr : rd s.dev F.LNE_STATUS_CDR_LOCK n = 1) :
    ActsR (statusWord n :: [] ++ evalRegs) (evalParts ++ []) (.adaptationComplete n snr ctle dfe ffe ns) s fun t =>
      rd t.dev F.LNE_STATUS_RX_STATE n = 3 ∧ rd t.dev F.LNE_STATUS_SNR n = snr.toNat ∧
      ∀ k < 34, eqView t.dev n k = eqView s.dev n k := by
  have hheld : eqHeld s.dev n = true := beq_iff_eq.2 hmode
  have hframe := evals_adaptedStatus s.dev n snr
  refine actsR_of_rxStatus rfl hcore (adaptDone_of_held snr ctle dfe ffe ns s.sn hst hheld hcdr) hframe.mono ?_
  dsimp only
  exact ⟨rd_laneChanged s.sn ns n.isLt (rd_adaptedStatus_rxState _ n snr), rd_laneChanged s.sn ns n.isLt (rd_adaptedStatus_snr _ n snr),
    fun k hk => eqView_laneChanged_of_held s.sn ns hframe n.isLt hheld hk⟩

theorem adaptationComplete_waits
    (h : rd s.dev F.LNE_CFG_ADAPT_MODE n ≠ 2 ∧ rd s.dev F.LNE_STATUS_SIG_DET n = 0 ∨
      rd s.dev F.LNE_CFG_ADAPT_MODE n = 2 ∧ rd s.dev F.LNE_STATUS_CDR_LOCK n = 0) :
    exec (.adaptationComplete n snr ctle dfe ffe ns) s = .next s := by
  have hready : adaptReady s.dev n = false := by
    rcases h with ⟨hmode, hsig⟩ | ⟨hmode, hcdr⟩
    · simp [adaptReady, eqHeld, hmode, rdB, hsig]
    · simp [adaptReady, eqHeld, hmode, rdB, hcdr]
  exact (core_next s (adaptDone n snr ctle dfe ffe ns s.sn) hcore).trans (by rw [adaptDone_of_not_ready snr ctle dfe ffe ns s.sn hready])

/-- LANE_ADAPT_SLOW is raised once per acquisition. -/
theorem laneAdaptSlow_raises (hst : rd s.dev F.LNE_STATUS_RX_STATE n = 2) (hmode : rd s.dev F.LNE_CFG_ADAPT_MODE n ≠ 2)
    (hfirst : (laneOf s.dev n).slow = false) :
    Acts [.lanes, .hif] (.laneAdaptSlow n) s fun t =>
      (laneOf t.dev n).slow = true ∧ Raised s.dev t.dev [{ typ := 1, sn := s.sn, p0 := n.val }] := by
  have hslow : adaptSlow n s.sn s.dev =
      raise (modLane s.dev n fun x => { x with slow := true }) { typ := 1, sn := s.sn, p0 := n.val } :=
    if_neg (by simp [rxSt, hst, eqHeld, hmode, hfirst])
  have hframe : Evals [] [.lanes, .hif] s.dev (raise (modLane s.dev n fun x => { x with slow := true })
    { typ := 1, sn := s.sn, p0 := n.val }) := (Evals.refl _ _ _).modLane.raise
  refine acts_of_core rfl hcore hslow hframe.parts ?_
  dsimp only
  refine ⟨?_, rfl⟩
  rw [(evals_raise _ _).laneOf, laneOf_modLane_same]

end

/-! ### Acquiring anew (R101) -/

/-- The lane acquires anew, without a signal until it has adapted. -/
def reacquiring (d : Dev) (n : Nat) : Dev :=
  let e := modLane (wr (rxSet d n 2) F.LNE_STATUS_SNR n 0) n fun x => { x with relock := false, slow := false }
  wrB e F.LNE_STATUS_LOS n true

theorem evals_reacquiring (d : Dev) (n : Nat) : Evals [statusWord n] [.regs, .lanes] d (reacquiring d n) :=
  (Evals.refl _ _ d).wr.wr.modLane.wrB

theorem rd_reacquiring (d : Dev) (n : Nat) : rd (reacquiring d n) F.LNE_STATUS_RX_STATE n = 2 ∧
    rd (reacquiring d n) F.LNE_STATUS_LOS n = 1 ∧ rd (reacquiring d n) F.LNE_STATUS_SNR n = 0 := by
  simp (disch := decide) only [reacquiring, rxSet, rd_wrB_apart, rd_wrB_bit, rd_modLane, rd_wr_apart, rd_wr_fits]
  exact ⟨trivial, rfl, trivial⟩

theorem reacquire_eq {d : Dev} {n : Nat} (ns : Nat) (sn : SN) (hst : rxSt d n = 3) (hheld : eqHeld d n = false)
    (hrelock : (laneOf d n).relock = true) : reacquire n ns sn d = laneChanged sn ns n (reacquiring d n) :=
  if_neg (by simp [hst, hheld, hrelock])

theorem rxReacquire_acquires {s : State} {n : Fin 128} (hcore : s.dev.pwr.core = true) (ns : Nat) (hon : RxOn s.dev n)
    (hst : rd s.dev F.LNE_STATUS_RX_STATE n = 3) (hmode : rd s.dev F.LNE_CFG_ADAPT_MODE n ≠ 2)
    (hrelock : (laneOf s.dev n).relock = true) :
    ActsR (statusWord n :: [] ++ evalRegs) (evalParts ++ []) (.rxReacquire n ns) s fun t =>
      rd t.dev F.LNE_STATUS_RX_STATE n = 2 ∧ rd t.dev F.LNE_STATUS_LOS n = 1 ∧ rd t.dev F.LNE_STATUS_SNR n = 0 ∧
      LaneDown t.dev n 1 (isGlf (persOf s.dev n)) := by
  have hframe := evals_reacquiring s.dev n
  obtain ⟨hrx, hlos, hsnr⟩ := rd_reacquiring s.dev n
  refine actsR_of_rxStatus rfl hcore (reacquire_eq ns s.sn hst (beq_eq_false_iff_ne.2 hmode) hrelock) hframe ?_
  dsimp only
  exact ⟨rd_laneChanged s.sn ns n.isLt hrx, rd_laneChanged s.sn ns n.isLt hlos, rd_laneChanged s.sn ns n.isLt hsnr,
    hframe.laneDown_of_los s.sn ns n.isLt hon hlos⟩

/-- Settles O5, command by command. -/
theorem receiversFollowTheSignal : Obligations.ReceiversFollowTheSignal := by
  unfold Obligations.ReceiversFollowTheSignal
  exact fun s n ns hcore => ⟨rxEn_starts hcore ns, rxEn_stops hcore ns,
    fun hon hrx => ⟨sigDetFall_loses hcore ns hon hrx, sigDetRise_sees hcore ns hrx, cdrLockLoss_loses hcore ns hon hrx,
      cdrLockGain_locks hcore ns hrx⟩,
    fun snr ctle dfe ffe hst => ⟨adaptationComplete_adapts hcore snr ctle dfe ffe ns hst,
      adaptationComplete_holds hcore snr ctle dfe ffe ns hst, adaptationComplete_waits hcore snr ctle dfe ffe ns⟩,
    laneAdaptSlow_raises hcore, rxReacquire_acquires hcore ns⟩

end Sys2Proof.Machine
end

