-- ==== Sys2Proof/Proofs/GlfLanes.lean ====
section
/-! PROOFS. The evaluation of a GLF lane that receives (R119 to R124): its defects by the state of its framer, its
condition, and what of its framer and its degrade detector the evaluation keeps. -/

namespace Sys2Proof.Machine

/-! ### Framers and degrade detectors by lane -/

@[simp] theorem frmOf_modFrm_same (d : Dev) (n : Nat) (f : Framer → Framer) : frmOf (modFrm d n f) n = f (frmOf d n) :=
  tget_tput_same _ _ _ _
theorem frmOf_modFrm_ne (d : Dev) {n m : Nat} (f : Framer → Framer) (h : m ≠ n) : frmOf (modFrm d n f) m = frmOf d m :=
  tget_tput_ne _ _ _ h
@[simp] theorem degOf_modDeg_same (d : Dev) (n : Nat) (f : Degrade → Degrade) : degOf (modDeg d n f) n = f (degOf d n) :=
  tget_tput_same _ _ _ _

theorem frmOf_congr {a b : Dev} (h : b.frm = a.frm) (n : Nat) : frmOf b n = frmOf a n := by simp only [frmOf, h]
theorem degOf_congr {a b : Dev} (h : b.deg = a.deg) (n : Nat) : degOf b n = degOf a n := by simp only [degOf, h]

@[simp] theorem frmOf_wr (d : Dev) (f : Fld) (i v n : Nat) : frmOf (wr d f i v) n = frmOf d n := rfl
@[simp] theorem degOf_wr (d : Dev) (f : Fld) (i v n : Nat) : degOf (wr d f i v) n = degOf d n := rfl
@[simp] theorem degOf_modFrm (d : Dev) (m : Nat) (f : Framer → Framer) (n : Nat) : degOf (modFrm d m f) n = degOf d n := rfl
@[simp] theorem rd_modFrm (d : Dev) (m : Nat) (g : Framer → Framer) (f : Fld) (i : Nat) : rd (modFrm d m g) f i = rd d f i :=
  rd_congr (a := modFrm d m g) (b := d) rfl f i

/-- What a framer has found of the sweeps: its candidates, its alignment, and its run of bad FAWs (Table 5-1). -/
def Framer.found (f : Framer) : List (Nat × SN) × Option Nat × Nat := (f.cands, f.align, f.faw)

/-- The framer of lane `m` has found the same in two devices. -/
def SameFound (m : Nat) (a b : Dev) : Prop := (frmOf b m).found = (frmOf a m).found

theorem found_modFrm (d : Dev) (n m : Nat) {g : Framer → Framer} (hg : ∀ f, (g f).found = f.found) :
    (frmOf (modFrm d n g) m).found = (frmOf d m).found := by
  by_cases hmn : m = n
  · subst hmn; rw [frmOf_modFrm_same, hg]
  · rw [frmOf_modFrm_ne d g hmn]

/-! ### What an evaluation keeps -/

/-- The filters held in reset (R119) are those of the overhead, not of the framing. -/
theorem found_resetFilters (d : Dev) (n defs m : Nat) : (frmOf (resetFilters d n defs) m).found = (frmOf d m).found := by
  unfold resetFilters
  extract_lets hard soft d₁ d₂ d₃
  have hmod (e : Dev) {g : Framer → Framer} (hg : ∀ f, (g f).found = f.found) (he : SameFound m d e) : SameFound m d (modFrm e n g) :=
    (found_modFrm e n m hg).trans he
  have h₁ : SameFound m d d₁ := iteInduction (fun _ => hmod d (fun _ => rfl) rfl) fun _ => rfl
  have h₂ : SameFound m d d₂ := iteInduction (fun _ => hmod d₁ (fun _ => rfl) h₁) fun _ => h₁
  have h₃ : SameFound m d d₃ := iteInduction (fun _ => hmod d₂ (fun _ => rfl) h₂) fun _ => h₂
  exact iteInduction (motive := SameFound m d) (fun _ => h₃) fun _ => h₃

theorem degOf_resetFilters_sum (d : Dev) (n defs : Nat) (h : (degOf d n).sum = 0) : (degOf (resetFilters d n defs) n).sum = 0 := by
  unfold resetFilters
  extract_lets hard soft d₁ d₂ d₃
  have h₃ : degOf d₃ n = degOf d n := by
    simp only [d₃, d₂, d₁, apply_ite (fun e => degOf e n), degOf_modFrm, ite_self]
  simp only [apply_ite (fun e => (degOf e n).sum), degOf_modDeg_same, h₃, h, ite_self]

theorem found_laneStep (sn : SN) (d : Dev) (n want m : Nat) : (frmOf (laneStep sn d n want) m).found = (frmOf d m).found := by
  obtain ⟨bits, h⟩ := laneStep_eq sn d n want
  rw [h, frmOf_congr (seenOr_frm ..), frmOf_wr, laneDeclared, found_resetFilters, frmOf_wr,
    frmOf_congr ((evals_laneEvents sn d n _).parts .frm (by simp))]

theorem degOf_laneStep_sum (sn : SN) (d : Dev) (n want : Nat) (h : (degOf d n).sum = 0) :
    (degOf (laneStep sn d n want) n).sum = 0 := by
  obtain ⟨bits, hstep⟩ := laneStep_eq sn d n want
  rw [hstep, degOf_congr (seenOr_deg ..), degOf_wr, laneDeclared]
  refine degOf_resetFilters_sum _ n _ ?_
  rw [degOf_wr, degOf_congr ((evals_laneEvents sn d n _).parts .deg (by simp)), h]

section
variable (sn : SN) (ns : Nat) {n : Nat} (hn : n < 128) {d : Dev} (hglf : isGlf (persOf d n) = true) (want : Nat)
include hn hglf

/-- A GLF lane has no client whose lanes follow. -/
theorem laneEval_of_glf : laneEval sn ns n want d = followAll sn ns (laneStep sn d n want) := by
  have hpers : persOf (laneStep sn d n want) n = persOf d n :=
    (evals_status hn (evals_laneStep sn d n want) laneParts_subset).persOf n
  rw [laneEval_eq, clientFollow, hpers, isClient_of_isGlf hglf, if_neg Bool.false_ne_true]

theorem found_laneEval (m : Nat) : (frmOf (laneEval sn ns n want d) m).found = (frmOf d m).found := by
  rw [laneEval_of_glf sn ns hn hglf, frmOf_congr ((evals_followAll sn ns _).parts .frm (by simp)), found_laneStep]

theorem degOf_laneEval_sum (h : (degOf d n).sum = 0) : (degOf (laneEval sn ns n want d) n).sum = 0 := by
  rw [laneEval_of_glf sn ns hn hglf, degOf_congr ((evals_followAll sn ns _).parts .deg (by simp)), degOf_laneStep_sum sn d n want h]

theorem rd_laneEval_def : rd (laneEval sn ns n want d) F.FRM_RX_STATUS_DEF n = laneDefs d n want % 2 ^ 10 := by
  rw [laneEval_of_glf sn ns hn hglf, (evals_followAll sn ns _).rd (status_not_mem_followRegs n), rd_laneStep_def]

/-- The condition of a GLF lane depends on its configuration and on the defects declared. -/
theorem rd_laneEval_cond : rd (laneEval sn ns n want d) F.FRM_RX_STATUS_COND n = (condFrom d n (laneDefs d n want)).code := by
  have hdeclared := evals_status hn (evals_laneDeclared sn d n (laneDefs d n want)) laneParts_subset
  rw [laneEval_of_glf sn ns hn hglf, (evals_followAll sn ns _).rd (f := F.FRM_RX_STATUS_COND) (status_not_mem_followRegs n),
    rd_laneStep_cond]
  simp only [condFrom, hdeclared.laneSilent, hdeclared.persOf, hdeclared.rdB_quiet (f := F.FRM_RX_CFG_TIM_ACT) rfl,
    isClient_of_isGlf hglf, Bool.false_and]

end

/-! ### A GLF lane that receives -/

/-- Lane `n` has a GLF personality, its receiver is on, and it has a signal and a clock: its framer runs (R110). -/
structure GlfUp (d : Dev) (n : Nat) : Prop where
  glf : isGlf (persOf d n) = true
  enabled : rdB d F.LNE_CTL_RX_EN n = true
  los : rdB d F.LNE_STATUS_LOS n = false
  cdrLock : rdB d F.LNE_STATUS_CDR_LOCK n = true

theorem framerRuns_iff {d : Dev} {n : Nat} : framerRuns d n = true ↔ GlfUp d n := by
  simp only [framerRuns, Bool.and_eq_true, Bool.not_eq_true']
  exact ⟨fun ⟨⟨⟨hglf, hen⟩, hlos⟩, hcdr⟩ => ⟨hglf, hen, hlos, hcdr⟩,
    fun ⟨hglf, hen, hlos, hcdr⟩ => ⟨⟨⟨hglf, hen⟩, hlos⟩, hcdr⟩⟩

/-- Ranks 3 to 6 of Table 5-2, of which the first that holds suppresses the rest: dLOF, dLOSN, dUNEQ, dPLM. -/
def upperDefs (d : Dev) (n : Nat) : Nat :=
  if rd d F.FRM_RX_STATUS_FSTATE n != 2 then 4
  else if !rdB d F.FRM_RX_STATUS_SN_LOCK n then 8
  else if (frmOf d n).accepted && (rd d F.FRM_RX_STATUS_ACC_PERS n == 0 || (frmOf d n).accTest) then 16
  else if (frmOf d n).accepted && plm d n then 32 else 0

/-- Ranks 7 to 10, as their detectors call for them: dTIM, which suppresses dDEG where it has class SF, dDEG, dBDI and dRDI. -/
def lowerDefs (d : Dev) (n want : Nat) : Nat :=
  64 * (want.testBit 6).toNat + 128 * (!(want.testBit 6 && rdB d F.FRM_RX_CFG_TIM_ACT n) && want.testBit 7).toNat +
    256 * (want.testBit 8).toNat + 512 * (!want.testBit 8 && want.testBit 9).toNat

namespace GlfUp

variable {d : Dev} {n : Nat} (h : GlfUp d n)
include h

theorem notSilent : laneSilent d n = false := by
  have hpers : persOf d n ≠ 0 := fun h0 => absurd (h0 ▸ h.glf) (by decide)
  simp [laneSilent, h.enabled, hpers]

theorem noLos : dLos d n = false := by simp [dLos, h.los]
theorem noLol : dLol d n = false := by simp [dLol, h.cdrLock]

/-- Table 5-2 on a lane that receives: the ranks below 6 show where none above does. -/
theorem laneDefs_eq (want : Nat) : laneDefs d n want = if upperDefs d n = 0 then lowerDefs d n want else upperDefs d n := by
  cases hlof : rd d F.FRM_RX_STATUS_FSTATE n != 2 with
  | true => simp [laneDefs, upperDefs, h.notSilent, h.glf, h.noLos, h.noLol, hlof]
  | false =>
    cases hlock : rdB d F.FRM_RX_STATUS_SN_LOCK n with
    | false => simp [laneDefs, upperDefs, h.notSilent, h.glf, h.noLos, h.noLol, hlof, hlock]
    | true =>
      cases huneq : (frmOf d n).accepted && (rd d F.FRM_RX_STATUS_ACC_PERS n == 0 || (frmOf d n).accTest) with
      | true => simp [laneDefs, upperDefs, h.notSilent, h.glf, h.noLos, h.noLol, hlof, hlock, huneq]
      | false =>
        cases hplm : (frmOf d n).accepted && plm d n with
        | true => simp [laneDefs, upperDefs, h.notSilent, h.glf, h.noLos, h.noLol, hlof, hlock, huneq, hplm]
        | false =>
          simp [laneDefs, upperDefs, lowerDefs, h.notSilent, h.glf, h.noLos, h.noLol, hlof, hlock, huneq, hplm]
          omega

/-- A lane that is not in frame has dLOF, rank 3, alone. -/
theorem laneDefs_of_hunting (want : Nat) (hst : rd d F.FRM_RX_STATUS_FSTATE n ≠ 2) : laneDefs d n want = 4 := by
  have hupper : upperDefs d n = 4 := if_pos (bne_iff_ne.2 hst)
  rw [h.laneDefs_eq, hupper]
  rfl

/-- A lane in frame with its SN locked has no defect of ranks 1 to 4. -/
theorem laneDefs_of_framed (want : Nat) (hst : rd d F.FRM_RX_STATUS_FSTATE n = 2) (hlock : rd d F.FRM_RX_STATUS_SN_LOCK n = 1) :
    laneDefs d n want % 16 = 0 := by
  have hupper : upperDefs d n % 16 = 0 := by
    simp only [upperDefs, hst, rdB, hlock]
    split <;> [contradiction; skip]
    split <;> [contradiction; skip]
    split <;> [rfl; skip]
    split <;> rfl
  rw [h.laneDefs_eq]
  split
  · rw [lowerDefs]; omega
  · exact hupper

/-- Where no defect suppresses dDEG, it is declared as its detector calls for it (R124). -/
theorem laneDefs_of_degraded (hnone : laneDefs d n 0 = 0) : laneDefs d n 0x80 = 0x80 := by
  have hupper : upperDefs d n = 0 := by
    by_contra hne
    rw [h.laneDefs_eq, if_neg hne] at hnone
    exact hne hnone
  have hdeg : Nat.testBit 0x80 6 = false ∧ Nat.testBit 0x80 7 = true ∧ Nat.testBit 0x80 8 = false ∧ Nat.testBit 0x80 9 = false := by
    decide
  obtain ⟨htim, hdeg, hbdi, hrdi⟩ := hdeg
  rw [h.laneDefs_eq, if_pos hupper, lowerDefs, htim, hdeg, hbdi, hrdi]
  rfl

/-- Its condition, by the defects declared (R120, R122). -/
theorem condFrom_eq (defs : Nat) : condFrom d n defs =
    if defs &&& 0x3F != 0 || (defs.testBit 6 && rdB d F.FRM_RX_CFG_TIM_ACT n) then .sf else if defs.testBit 7 then .sd else .none := by
  simp [condFrom, h.notSilent, h.glf, isClient_of_isGlf h.glf]

end GlfUp

end Sys2Proof.Machine
end

