-- ==== Sys2Proof/Proofs/Framers.lean ====
section
/-! PROOFS. The framer of a GLF lane (R110 to R112): candidates are opened, confirmed and rejected. -/

namespace Sys2Proof.Machine

/-! ### The framer's fields -/

/-- The lane still receives after a step that leaves its personality, its receiver and its status alone. -/
theorem GlfUp.of_rd {a b : Dev} {n : Nat} (h : GlfUp a n)
    (hrd : ∀ f ∈ [F.LNE_CFG_PERS, F.LNE_CTL_RX_EN, F.LNE_STATUS_LOS, F.LNE_STATUS_CDR_LOCK], rd b f n = rd a f n) : GlfUp b n := by
  simp only [List.forall_mem_cons, List.not_mem_nil, false_implies, implies_true, and_true] at hrd
  obtain ⟨hpers, hen, hlos, hcdr⟩ := hrd
  exact ⟨by rw [persOf, hpers]; exact h.glf, by rw [rdB, hen]; exact h.enabled, by rw [rdB, hlos]; exact h.los,
    by rw [rdB, hcdr]; exact h.cdrLock⟩

theorem status_mem_evalRegs {n : Nat} (hn : n < 128) : F.FRM_RX_STATUS_DEF.addr n ∈ evalRegs := by
  simpa [evalRegs_eq] using Or.inl (addr_mem_statusRegs hn)

theorem Evals.modFrm {as : List Nat} {ps : List Part} {a b : Dev} {n : Nat} {g : Framer → Framer} (h : Evals as ps a b)
    (hps : Part.frm ∈ ps := by simp) : Evals as ps a (Machine.modFrm b n g) :=
  h.next (evals_modFrm b n g) (List.nil_subset _) (by simpa using hps)

/-! ### RAW_MATCH (R111, R112) -/

/-- Lane `n` with a framer in state `st` that holds the candidates `cs`. -/
def candsHeld (n st : Nat) (cs : List (Nat × SN)) (d : Dev) : Dev :=
  wr (modFrm d n fun f => { f with cands := cs }) F.FRM_RX_STATUS_FSTATE n st

theorem evals_candsHeld (n st : Nat) (cs : List (Nat × SN)) (d : Dev) :
    Evals [F.FRM_RX_STATUS_FSTATE.addr n] [.regs, .frm] d (candsHeld n st cs d) :=
  (Evals.refl _ _ d).modFrm.wr

theorem rd_candsHeld_fstate {st : Nat} (hst : st < 4) (n : Nat) (cs : List (Nat × SN)) (d : Dev) :
    rd (candsHeld n st cs d) F.FRM_RX_STATUS_FSTATE n = st :=
  rd_wr_fits _ ⟨by decide, hst⟩

theorem frmOf_candsHeld (n st : Nat) (cs : List (Nat × SN)) (d : Dev) :
    frmOf (candsHeld n st cs d) n = { frmOf d n with cands := cs } ∧
    ∀ m, m ≠ n → frmOf (candsHeld n st cs d) m = frmOf d m :=
  ⟨(frmOf_wr ..).trans (frmOf_modFrm_same d n _), fun _ hm => (frmOf_wr ..).trans (frmOf_modFrm_ne d _ hm)⟩

section
variable {d : Dev} {n off : Nat} {r : RxIn}

/-- A raw match is passed over where it is none, its SN pair is not valid, the lane is in frame or four candidates are held. -/
theorem rawMatch_of_passed (h : fawRaw d n r = false ∨ snPair (rxSweep d n r) = none ∨ rd d F.FRM_RX_STATUS_FSTATE n = 2 ∨
    4 ≤ (frmOf d n).cands.length) : rawMatch n off r d = d := by
  unfold rawMatch
  rcases h with hraw | hpair | hst | hfull
  · exact if_pos (by simp [hraw])
  · rw [hpair]; exact ite_self _
  · exact if_pos (.inr (.inl hst))
  · exact if_pos (.inr (.inr (.inl hfull)))

theorem rawMatch_of_match {x : SN} (hruns : framerRuns d n = true) (hst : rd d F.FRM_RX_STATUS_FSTATE n ≠ 2)
    (hraw : fawRaw d n r = true) (hpair : snPair (rxSweep d n r) = some x) (hroom : (frmOf d n).cands.length < 4)
    (hnew : ∀ c ∈ (frmOf d n).cands, c.1 ≠ off) :
    rawMatch n off r d = candsHeld n 1 ((frmOf d n).cands ++ [(off, x)]) d := by
  have hany : (frmOf d n).cands.any (·.1 == off) = false := by simpa using fun a b hab => hnew (a, b) hab
  unfold rawMatch
  dsimp only
  rw [if_neg (by simp [hruns, fState, hst, hraw, hany, hroom]), hpair]
  rfl

end

/-! ### CANDIDATE_CHECK (R112) -/

/-- Lane `n` in frame at alignment `off` with its SN locked at `x`. -/
def framed (n off : Nat) (x : SN) (d : Dev) : Dev :=
  modFrm (wr (wrB (wr d F.FRM_RX_STATUS_FSTATE n 2) F.FRM_RX_STATUS_SN_LOCK n true) F.FRM_RX_SN_SN n x.toNat) n fun f =>
    { f with cands := [], align := some off, faw := 0, snRun := 0, snPrev := none, bipPrev := none }

theorem evals_framed (n off : Nat) (x : SN) (d : Dev) :
    Evals [F.FRM_RX_SN_SN.addr n, F.FRM_RX_STATUS_DEF.addr n] [.regs, .frm] d (framed n off x d) :=
  ((Evals.refl _ _ d).wr.wrB.wr).modFrm

theorem rd_framed (n off : Nat) (x : SN) (d : Dev) : rd (framed n off x d) F.FRM_RX_STATUS_FSTATE n = 2 ∧
    rd (framed n off x d) F.FRM_RX_STATUS_SN_LOCK n = 1 ∧ rd (framed n off x d) F.FRM_RX_SN_SN n = x.toNat := by
  simp (disch := decide) only [framed, rd_modFrm, rd_wr_apart, rd_wrB_apart, rd_wrB_bit, rd_wr_fits]
  exact ⟨trivial, rfl, rd_wr_fits _ ⟨by decide, x.isLt⟩⟩

theorem GlfUp.framed {d : Dev} {n : Nat} (h : GlfUp d n) (off : Nat) (x : SN) : GlfUp (framed n off x d) n :=
  h.of_rd (by simp (disch := decide) only [Machine.framed, rd_modFrm, rd_wr_apart, rd_wrB_apart, List.forall_mem_cons, List.not_mem_nil,
    false_implies, implies_true, and_self])

section
variable {d : Dev} {n off : Nat} {r : RxIn} {x : SN} (hruns : framerRuns d n = true) (hst : rd d F.FRM_RX_STATUS_FSTATE n ≠ 2)
  (hfind : (frmOf d n).cands.find? (fun c => c.1 == off) = some (off, x)) (ns : Nat) (sn : SN)
include hruns hst hfind

theorem candCheck_of_confirmed (hgood : fawGood (rxSweep d n r) = true) (hpair : snPair (rxSweep d n r) = some (x + 1)) :
    candCheck n off r ns sn d = laneEval sn ns n (wantNow (framed n off (x + 1) d) n) (framed n off (x + 1) d) := by
  simp only [candCheck, hfind, hruns, fState, hst, hgood, hpair, beq_self_eq_true, Bool.and_self, Bool.not_true, Bool.false_eq_true,
    or_self, if_false, if_true]
  rfl

theorem candCheck_of_rejected (hbad : fawGood (rxSweep d n r) = false ∨ snPair (rxSweep d n r) ≠ some (x + 1)) :
    candCheck n off r ns sn d =
      candsHeld n (if ∀ c ∈ (frmOf d n).cands, c.1 = off then 0 else 1) ((frmOf d n).cands.filter fun c => c.1 != off) d := by
  have hfail : (fawGood (rxSweep d n r) && snPair (rxSweep d n r) == some (x + 1)) = false := by
    rcases hbad with h | h
    · rw [h, Bool.false_and]
    · rw [beq_eq_false_iff_ne.2 h, Bool.and_false]
  have hlast : ((frmOf d n).cands.filter fun c => c.1 != off) = [] ↔ ∀ c ∈ (frmOf d n).cands, c.1 = off := by simp
  simp only [candCheck, hfind, hruns, fState, hst, hfail, Bool.not_true, Bool.false_eq_true, or_self, if_false, hlast]
  rfl

end

/-! ### What the host sees -/

section
variable {s : State} {n : Fin 128} (hcore : s.dev.pwr.core = true) (off : Nat) (r : RxIn)
include hcore

theorem rawMatch_passes (h : fawRaw s.dev n r = false ∨ snPair (rxSweep s.dev n r) = none ∨ rd s.dev F.FRM_RX_STATUS_FSTATE n = 2 ∨
    4 ≤ (frmOf s.dev n).cands.length) : exec (.rawMatch n off r) s = .next s :=
  (core_next s (rawMatch n off r) hcore).trans (by rw [rawMatch_of_passed h])

variable (hruns : framerRuns s.dev n = true) (hst : rd s.dev F.FRM_RX_STATUS_FSTATE n ≠ 2)
include hruns hst

theorem rawMatch_opens {x : SN} (hraw : fawRaw s.dev n r = true) (hpair : snPair (rxSweep s.dev n r) = some x)
    (hroom : (frmOf s.dev n).cands.length < 4) (hnew : ∀ c ∈ (frmOf s.dev n).cands, c.1 ≠ off) :
    ActsR [F.FRM_RX_STATUS_FSTATE.addr n] [.frm] (.rawMatch n off r) s fun t =>
      rd t.dev F.FRM_RX_STATUS_FSTATE n = 1 ∧
      frmOf t.dev n = { frmOf s.dev n with cands := (frmOf s.dev n).cands ++ [(off, x)] } ∧
      ∀ m, m ≠ n.val → frmOf t.dev m = frmOf s.dev m :=
  actsR_of_core rfl hcore (rawMatch_of_match hruns hst hraw hpair hroom hnew) (evals_candsHeld _ _ _ _)
    ⟨rd_candsHeld_fstate (by decide) _ _ _, frmOf_candsHeld _ _ _ _⟩

variable {x : SN} (hfind : (frmOf s.dev n).cands.find? (fun c => c.1 == off) = some (off, x)) (ns : Nat)
include hfind

theorem candidateCheck_confirms (hgood : fawGood (rxSweep s.dev n r) = true) (hpair : snPair (rxSweep s.dev n r) = some (x + 1)) :
    ActsR (F.FRM_RX_SN_SN.addr n :: evalRegs) evalParts (.candidateCheck n off r () ns) s fun t =>
      rd t.dev F.FRM_RX_STATUS_FSTATE n = 2 ∧ rd t.dev F.FRM_RX_STATUS_SN_LOCK n = 1 ∧
      rd t.dev F.FRM_RX_SN_SN n = (x + 1).toNat ∧ (frmOf t.dev n).cands = [] ∧ (frmOf t.dev n).align = some off ∧
      rd t.dev F.FRM_RX_STATUS_DEF n % 16 = 0 := by
  have hup := (framerRuns_iff.1 hruns).framed off (x + 1)
  have hframe := evals_framed n off (x + 1) s.dev
  have hfrm : frmOf (framed n off (x + 1) s.dev) n =
      { frmOf s.dev n with cands := [], align := some off, faw := 0, snRun := 0, snPrev := none, bipPrev := none } :=
    frmOf_modFrm_same _ _ _
  obtain ⟨hstate, hlock, hsn⟩ := rd_framed n off (x + 1) s.dev
  have hg := candCheck_of_confirmed hruns hst hfind ns s.sn hgood hpair
  generalize framed n off (x + 1) s.dev = e at *
  have heval := evals_laneEval s.sn ns n.isLt e (wantNow e n)
  have hfound := found_laneEval s.sn ns n.isLt hup.glf (wantNow e n) n
  simp only [Framer.found, hfrm, Prod.mk.injEq] at hfound
  obtain ⟨hcands, halign, -⟩ := hfound
  have hwhole : Evals (F.FRM_RX_SN_SN.addr n :: evalRegs) (.regs :: evalParts) s.dev (laneEval s.sn ns n (wantNow e n) e) :=
    (hframe.mono (List.cons_subset_cons _ (by simp [status_mem_evalRegs n.isLt])) (by simp [evalParts])).next heval
      (List.subset_cons_self _ _) statusParts_subset
  refine actsR_of_core rfl hcore hg hwhole ?_
  dsimp only
  refine ⟨?_, ?_, ?_, hcands, halign, ?_⟩
  · exact (rd_laneEval_apart s.sn ns hup.glf n.isLt _ (by decide) (by decide) (addr_fstate n)).trans hstate
  · exact (rd_laneEval_apart s.sn ns hup.glf n.isLt _ (by decide) (by decide) (addr_snLock n)).trans hlock
  · exact (heval.rd_quiet rfl n).trans hsn
  · have hdefs := hup.laneDefs_of_framed (wantNow e n) hstate hlock
    rw [rd_laneEval_def s.sn ns n.isLt hup.glf]
    omega

theorem candidateCheck_rejects (hbad : fawGood (rxSweep s.dev n r) = false ∨ snPair (rxSweep s.dev n r) ≠ some (x + 1)) :
    ActsR [F.FRM_RX_STATUS_FSTATE.addr n] [.frm] (.candidateCheck n off r () ns) s fun t =>
      frmOf t.dev n = { frmOf s.dev n with cands := (frmOf s.dev n).cands.filter fun c => c.1 != off } ∧
      rd t.dev F.FRM_RX_STATUS_FSTATE n = (if (∀ c ∈ (frmOf s.dev n).cands, c.1 = off) then 0 else 1) ∧
      ∀ m, m ≠ n.val → frmOf t.dev m = frmOf s.dev m := by
  have hg := candCheck_of_rejected hruns hst hfind ns s.sn hbad
  obtain ⟨hsame, hothers⟩ := frmOf_candsHeld n (if ∀ c ∈ (frmOf s.dev n).cands, c.1 = off then 0 else 1)
    ((frmOf s.dev n).cands.filter fun c => c.1 != off) s.dev
  exact actsR_of_core rfl hcore hg (evals_candsHeld _ _ _ _)
    ⟨hsame, rd_candsHeld_fstate (by split <;> decide) _ _ _, hothers⟩

end

end Sys2Proof.Machine
end

