-- ==== Sys2Proof/Proofs/ReceivedGrains.lean ====
section
/-! PROOFS. The grains of a received sweep (R82, R113, R133): what bringing them in touches, and the ingress page that they
make where no tributary and no group takes them. -/

namespace Sys2Proof.Machine

/-! ### What they touch -/

/-- The switch core's pages, the tributaries and the groups. -/
def grainParts : List Part := [.sw, .prot, .cli]

theorem only_sw (d : Dev) (x : Switch) : Only [.sw] d { d with sw := x } := by
  intro p hp; cases p <;> simp_all [Part.same]

theorem evals_setIng (d : Dev) (sn : SN) (port : Nat) (p : Page) : Evals [] grainParts d (setIng d sn port p) :=
  (Evals.of_only (only_sw d _)).mono (List.Subset.refl _) (by simp [grainParts])

theorem evals_group (d : Dev) (pgid : Nat) (g : Group) : Evals [] grainParts d (setGroup d pgid g) :=
  (evals_setGroup d pgid g).mono (List.Subset.refl _) (by simp [grainParts])

theorem evals_trib (d : Dev) (tid : Nat) (t : Trib) : Evals [] grainParts d (setTrib d tid t) :=
  (evals_setTrib d tid t).mono (List.Subset.refl _) (by simp [grainParts])

theorem evals_putAll (sn : SN) (us : List Nat) (gs : List Grain) (d : Dev) : Evals [] grainParts d (putAll sn us gs d) :=
  .foldl (fun e _ _ => evals_setIng e sn _ _) d

theorem evals_pairPass (sn : SN) (pgid k : Nat) (h : Held) (d : Dev) (g : Group) : Evals [] grainParts d (pairPass sn pgid k h d g) := by
  have hput (us : List Nat) (gs : List Grain) (g : Group) : Evals [] grainParts d (putAll sn us gs (setGroup d pgid g)) :=
    (evals_group d pgid g).trans (evals_putAll sn us gs _)
  unfold pairPass
  extract_lets us vs off want mine other cond sd both q later
  split
  · exact (hput _ _ _).trans (evals_putAll sn _ _ _)
  · refine .ite (fun _ => evals_group d pgid _) fun _ => .ite (fun _ => hput _ _ _) fun _ =>
      .ite (fun _ => evals_group d pgid _) fun _ => ?_
    clear_value q
    cases q with
    | cons x rest => exact hput _ _ _
    | nil => exact .refl _ _ d

theorem evals_pairIn (sn : SN) (ns pgid k : Nat) (lsn : SN) (gs : List Grain) (d : Dev) :
    Evals [] grainParts d (pairIn sn ns pgid k lsn gs d) := by
  unfold pairIn
  split
  · exact .refl _ _ d
  · exact .ite (fun _ => evals_pairPass sn pgid k _ d _) fun _ => (evals_group d pgid _).trans (evals_putAll sn _ _ _)

theorem evals_monSee (tid k : Nat) (lsn : SN) (jw : Word20) (d : Dev) : Evals [] grainParts d (monSee tid k lsn jw d) := by
  unfold monSee
  split
  · exact .refl _ _ d
  · exact evals_trib d tid _

theorem evals_copyOut (sn : SN) (ns : Nat) (lsn : SN) (tid k : Nat) (placed : Bool) (gs : List Grain) (d : Dev) :
    Evals [] grainParts d (copyOut sn ns lsn tid k placed gs d) := by
  unfold copyOut
  split
  · exact .refl _ _ d
  · extract_lets e
    have he : Evals [] grainParts d e := evals_monSee tid k lsn _ d
    refine .ite (fun _ => ?_) fun _ => ?_ <;> split
    · exact he.trans (evals_trib e tid _)
    · exact he
    · exact he.trans (evals_pairIn sn ns _ _ lsn gs e)
    · exact .ite (fun _ => he) fun _ => he.trans (evals_putAll sn _ gs e)

theorem evals_copyIn (sn : SN) (ns n : Nat) (lsn : SN) (p : Page) (tid k : Nat) (d : Dev) :
    Evals [] grainParts d (copyIn sn ns n lsn p tid k d) := by
  unfold copyIn
  split
  · exact .refl _ _ d
  · extract_lets ms at'
    refine .ite (fun _ => .refl _ _ d) fun _ => .ite (fun _ => ?_) fun _ => .ite (fun _ => evals_copyOut sn ns lsn tid k true _ d) fun _ =>
      evals_trib d tid _
    split
    · exact evals_monSee tid k lsn _ d
    · exact .refl _ _ d

theorem evals_grainsIn (sn : SN) (ns : Nat) (lsn : SN) (p : Page) (d : Dev) (n : Nat) :
    Evals [] grainParts d (grainsIn sn ns lsn p d n) := by
  unfold grainsIn
  extract_lets old held q pairs q' e
  have hpage : Evals [] grainParts d e := .ite (fun _ => .refl _ _ d) fun _ =>
    (evals_setIng d sn n _).trans (.foldl (fun c _ _ => .ite (fun _ => evals_pairIn sn ns _ _ lsn _ c) fun _ => .refl _ _ c) _)
  exact hpage.trans (.foldl (fun c _ _ => .foldl (fun c _ _ => evals_copyIn sn ns n lsn p _ _ c) c) e)

/-! ### Without tributaries and groups -/

/-- No tributary and no protection group stands. -/
def Bare (d : Dev) : Prop := d.cli.tribs = [] ∧ d.prot.groups = []

theorem Bare.congr {a b : Dev} (h : Bare a) (hcli : b.cli.tribs = a.cli.tribs) (hprot : b.prot = a.prot) : Bare b :=
  ⟨hcli.trans h.1, (congrArg Prot.groups hprot).trans h.2⟩

theorem Bare.setIng {d : Dev} (h : Bare d) (sn : SN) (port : Nat) (p : Page) : Bare (setIng d sn port p) := h

/-- No lane stands in for another. -/
theorem Bare.subst {d : Dev} (h : Bare d) (n : Nat) : Machine.subst d n = n := by
  simp only [Machine.subst, h.2, List.find?_nil]

theorem grainsIn_of_bare {d : Dev} (h : Bare d) (sn : SN) (ns : Nat) (lsn : SN) (p : Page) (n : Nat) :
    grainsIn sn ns lsn p d n = if rdB d F.FRM_RX_CFG_PLESIO n then d else setIng d sn n p := by
  have htribs (e : Dev) (he : Bare e) : (e.cli.tribs.map (·.1)).foldl
      (fun d tid => [0, 1].foldl (fun d k => copyIn sn ns n lsn p tid k d) d) e = e := by simp [he.1]
  have hloess : loessCopies d n = [] := by simp [loessCopies, h.1]
  have hpairs : pairHeld d n = [] := by simp [pairHeld, h.2]
  simp only [grainsIn, hloess, hpairs, List.flatMap_nil, List.foldl_nil]
  split
  · exact htribs d h
  · exact htribs _ (h.setIng sn n p)

/-! ### The ingress halves -/

section
variable (d : Dev) (sn : SN) (p : Page)

theorem ingPage_setIng_same (n : Nat) : ingPage (setIng d sn n p) sn n = p := by
  unfold ingPage setIng
  cases sn.getLsbD 0 <;> exact tget_tput_same _ _ _ _

theorem ingPage_setIng_ne {n m : Nat} (h : m ≠ n) : ingPage (setIng d sn n p) sn m = ingPage d sn m := by
  unfold ingPage setIng
  cases sn.getLsbD 0 <;> exact tget_tput_ne _ _ _ h

/-- The next sweep writes the other half. -/
theorem getLsbD_zero_add_one : (sn + 1).getLsbD 0 = !sn.getLsbD 0 := by
  simp only [BitVec.getLsbD, Nat.testBit_zero, BitVec.toNat_add]
  have := sn.isLt
  rcases Nat.mod_two_eq_zero_or_one sn.toNat with h | h <;> simp [h] <;> omega

theorem ingPage_setIng_next (n m : Nat) : ingPage (setIng d sn n p) (sn + 1) m = ingPage d (sn + 1) m := by
  unfold ingPage setIng
  rw [getLsbD_zero_add_one]
  cases sn.getLsbD 0 <;> rfl

end

theorem ingPage_congr {a b : Dev} (h : b.sw = a.sw) (sn : SN) (m : Nat) : ingPage b sn m = ingPage a sn m := by
  simp only [ingPage, h]

/-- The ports of a list that are not plesiochronous take the page; every other page stands. -/
theorem ingPage_grainsIn (sn : SN) (ns : Nat) (lsn : SN) (p : Page) (ls : List Nat) {d : Dev} (h : Bare d) (m : Nat) :
    ingPage (ls.foldl (grainsIn sn ns lsn p) d) sn m =
      (if m ∈ ls ∧ rdB d F.FRM_RX_CFG_PLESIO m = false then p else ingPage d sn m) ∧
    ingPage (ls.foldl (grainsIn sn ns lsn p) d) (sn + 1) m = ingPage d (sn + 1) m := by
  induction ls generalizing d with
  | nil => simp
  | cons n ls ih =>
    rw [List.foldl_cons, grainsIn_of_bare h]
    by_cases hn : rdB d F.FRM_RX_CFG_PLESIO n = true
    · rw [if_pos hn]
      obtain ⟨hthis, hnext⟩ := ih h
      refine ⟨hthis.trans ?_, hnext⟩
      by_cases hmn : m = n
      · subst hmn; simp [hn]
      · simp [hmn]
    · rw [if_neg hn]
      obtain ⟨hthis, hnext⟩ := ih (h.setIng sn n p)
      refine ⟨hthis.trans ?_, hnext.trans (ingPage_setIng_next d sn p n m)⟩
      have hcfg : rdB (setIng d sn n p) F.FRM_RX_CFG_PLESIO m = rdB d F.FRM_RX_CFG_PLESIO m :=
        (evals_setIng d sn n p).rdB (List.not_mem_nil)
      rw [hcfg]
      by_cases hmn : m = n
      · subst hmn; simp [hn, ingPage_setIng_same]
      · simp [hmn, ingPage_setIng_ne d sn p hmn]

end Sys2Proof.Machine
end

