-- ==== Sys2Proof/Proofs/ReceivedSweeps.lean ====
section
/-! PROOFS. A received sweep in frame (R112 to R118, R125, R405, R441): what passes before the framer looks at
it, and what reading its overhead and evaluating the lane keep of the framer. -/

namespace Sys2Proof.Machine

/-! ### Before the framer: the line loopback and the FEC counts (R105, R435) -/

theorem evals_count (d : Dev) (kind obj idx n : Nat) : Evals [] [.cli] d (count d kind obj idx n) := .of_only (only_cli d _)

theorem evals_perf (d : Dev) (evt arg n : Nat) : Evals [] [.pm] d (perf d evt arg n) :=
  .foldl (fun e _ _ => .ite (fun _ => .of_only (only_pm e _)) fun _ => .refl _ _ e) d

theorem evals_fecCount (n : Nat) (r : RxSweep) (d : Dev) : Evals [] [.cli, .pm] d (fecCount n r d) :=
  ((((evals_count d 1 n 8 _).mono).next (evals_count _ 1 n 9 _)).next (evals_count _ 1 n 10 _)).next (evals_perf _ 0x10 n _)

theorem evals_loopBits (n : Nat) (bits : List Bool) (d : Dev) : Evals [] [.lanes, .out] d (loopBits n bits d) := by
  unfold loopBits
  extract_lets all k e
  have he : Evals [] [.lanes, .out] d e := (Evals.refl _ _ d).modLane
  exact .ite (fun _ => .refl _ _ d) fun _ => .ite (fun _ => he.emit) fun _ => he

/-- What lane `n` receives has passed its line loopback, if there is one. -/
def loopPassed (n : Nat) (i : RxIn) (d : Dev) : Dev :=
  if rd d F.LNE_CTL_LB_MODE n = 2 then loopBits n (rxRaw d n i) d else d

theorem evals_loopPassed (n : Nat) (i : RxIn) (d : Dev) : Evals [] [.lanes, .out] d (loopPassed n i d) :=
  .ite (fun _ => evals_loopBits n _ d) fun _ => .refl _ _ d

/-- The line loopback does not change what is received: the near-end loopback alone takes it from the transmitter. -/
theorem rxSweep_loopPassed (n : Nat) (i : RxIn) (d : Dev) : rxSweep (loopPassed n i d) n i = rxSweep d n i := by
  have hrd : @rd (loopPassed n i d) = @rd d := funext fun f => funext fun _ => (evals_loopPassed n i d).rd (f := f) List.not_mem_nil
  by_cases hmode : rd d F.LNE_CTL_LB_MODE n = 2
  · have hne (e : Dev) (he : @rd e = @rd d) : nearEnd e n = false := by simp [nearEnd, he, hmode]
    cases i <;> simp only [rxSweep, rxBits, persOf, rdB, hne _ hrd, hne d rfl, hrd, Bool.false_eq_true, if_false]
  · rw [loopPassed, if_neg hmode]

/-- A sweep has passed the line loopback and its FEC counts are taken. -/
def sweepTaken (n : Nat) (i : RxIn) (d : Dev) : Dev := fecCount n (rxSweep d n i) (loopPassed n i d)

theorem evals_sweepTaken (n : Nat) (i : RxIn) (d : Dev) : Evals [] [.lanes, .out, .cli, .pm] d (sweepTaken n i d) :=
  ((evals_loopPassed n i d).mono).next (evals_fecCount n _ _)

theorem frmOf_sweepTaken (n : Nat) (i : RxIn) (d : Dev) (m : Nat) : frmOf (sweepTaken n i d) m = frmOf d m :=
  frmOf_congr ((evals_sweepTaken n i d).parts .frm (by simp)) m

/-! ### What following a sweep keeps -/

/-- The fields that the commands of a sweep look at again: the framer's state, the lane SN, the personality and R82's mark. -/
def watched : List Fld := [F.FRM_RX_STATUS_FSTATE, F.FRM_RX_SN_SN, F.LNE_CFG_PERS, F.FRM_RX_CFG_PLESIO]

/-- What reading the overhead and evaluating the lane may change. -/
def followParts : List Part := .chans :: statusParts

/-- A step after the lane SN has advanced: it keeps the watched fields and what the framer has found. -/
structure Follows (n : Nat) (a b : Dev) : Prop where
  parts : Only followParts a b
  fields : ∀ f ∈ watched, ∀ m < 128, rd b f m = rd a f m
  found : SameFound n a b
  bare : Bare a → Bare b

/-- A write to index `i` of the field touches no watched field. -/
def Fld.Aside (f : Fld) (i : Nat) : Prop := ∀ g ∈ watched, ∀ m < 128, ∀ d v, rd (wr d f i v) g m = rd d g m

/-- Other bits, or other words of a lane. -/
theorem Fld.aside_of_apart {f : Fld} (h : watched.all f.apart = true) (i : Nat) : f.Aside i := fun g hg _ _ d _ =>
  rd_wr_apart d (List.all_eq_true.1 h g hg)

/-- A word behind a lane's first 0x200 bytes, or behind all lanes. -/
theorem Fld.aside_of_addr {f : Fld} {i : Nat} (h : 0x200 ≤ f.addr i % 0x1000 ∨ 0x900000 ≤ f.addr i) : f.Aside i := by
  intro g hg m hm d v
  have hplace : ∀ g ∈ watched, g.strided = true ∧ g.base % 0x1000 < 0x200 ∧ g.base < 0x880000 := by decide
  obtain ⟨hstrided, hoff, hbase⟩ := hplace g hg
  refine rd_wr_addr d f g i m v ?_
  rw [Fld.addr_of_strided hstrided]
  omega

theorem aside_tti (i : Nat) : F.FRM_RX_TTI.Aside i := Fld.aside_of_addr (.inl (by simp only [Fld.addr, F.FRM_RX_TTI]; omega))

namespace Follows

variable {n : Nat} {a b c : Dev}

theorem refl (n : Nat) (a : Dev) : Follows n a a := ⟨Only.refl _ a, fun _ _ _ _ => rfl, rfl, id⟩

theorem trans (h : Follows n a b) (k : Follows n b c) : Follows n a c :=
  ⟨(h.parts.trans k.parts).mono (by simp), fun f hf m hm => (k.fields f hf m hm).trans (h.fields f hf m hm),
    k.found.trans h.found, fun ha => k.bare (h.bare ha)⟩

theorem ite {p : Prop} [Decidable p] (h : Follows n a b) (k : Follows n a c) : Follows n a (if p then b else c) :=
  iteInduction (fun _ => h) fun _ => k

theorem foldl {β : Type} {f : Dev → β → Dev} (h : ∀ d x, Follows n d (f d x)) (l : List β) (a : Dev) :
    Follows n a (l.foldl f a) := by
  induction l generalizing a with
  | nil => exact refl n a
  | cons x l ih => exact (h a x).trans (ih (f a x))

/-- A step that leaves registers, framers, tributaries and groups. -/
theorem of_evals {ps : List Part} (h : Evals [] ps a b) (hps : ps ⊆ [.deg, .pm, .chans] := by simp) : Follows n a b where
  parts := h.parts.mono (List.Subset.trans hps (by decide))
  fields _ _ _ _ := h.rd List.not_mem_nil
  found := congrArg Framer.found (frmOf_congr (h.parts .frm fun hmem => absurd (hps hmem) (by decide)) n)
  bare ha := ha.congr (congrArg Clients.tribs (h.parts .cli fun hmem => absurd (hps hmem) (by decide)))
    (h.parts .prot fun hmem => absurd (hps hmem) (by decide))

theorem count (n : Nat) (d : Dev) (kind obj idx k : Nat) : Follows n d (count d kind obj idx k) :=
  ⟨(evals_count d kind obj idx k).parts.mono (by decide), fun _ _ _ _ => rfl, rfl, id⟩

theorem modFrm (n : Nat) (d : Dev) {g : Framer → Framer} (hg : ∀ f, (g f).found = f.found) : Follows n d (modFrm d n g) :=
  ⟨(evals_modFrm d n g).parts.mono (by decide), fun f _ m _ => rd_modFrm d n g f m, found_modFrm d n n hg, id⟩

theorem wr (n : Nat) (d : Dev) {f : Fld} {i : Nat} (hf : f.Aside i) (v : Nat) : Follows n d (wr d f i v) :=
  ⟨(only_wr d f i v).mono (by decide), fun g hg m hm => hf g hg m hm d v, rfl, id⟩

end Follows

/-! ### The lane SN and the BIP-8 (R67, R115) -/

theorem follows_snTrack {n : Nat} {d : Dev} (r : RxSweep) (hlock : rd d F.FRM_RX_STATUS_SN_LOCK n = 1) : Follows n d (snTrack n r d) := by
  have hlocked : rdB d F.FRM_RX_STATUS_SN_LOCK n = true := by simp [rdB, hlock]
  have hcount := Follows.count n d 1 n 13 1
  unfold snTrack
  rw [hlocked]
  cases snPair r with
  | none => exact .refl n d
  | some s =>
    refine .ite (.modFrm n d fun _ => rfl) (.ite (hcount.trans (.modFrm n _ fun _ => rfl)) ?_)
    exact (hcount.trans (.wr n _ (Fld.aside_of_apart (by decide) n) _)).trans (.modFrm n _ fun _ => rfl)

theorem follows_bipCheck (n : Nat) (r : RxSweep) (d : Dev) : Follows n d (bipCheck n r d) := by
  unfold bipCheck
  extract_lets k own prev d₁
  have h₁ : Follows n d d₁ := .modFrm n d fun _ => rfl
  clear_value prev
  cases prev with
  | none => exact h₁
  | some b =>
    refine Follows.ite h₁ ?_
    extract_lets e d₂ d₃
    have h₂ : Follows n d d₂ := (h₁.trans (.count n d₁ 1 n 0 e)).trans (.of_evals (evals_perf _ _ _ _))
    have h₃ : Follows n d d₃ := .ite (h₂.trans (.of_evals (evals_modDeg d₂ n _))) h₂
    exact h₃.trans (.foldl (fun c m => .ite (.of_evals (evals_modDeg c m _)) (.refl n c)) _ _)

theorem follows_arrive (sn : SN) (ns n : Nat) (d : Dev) : Follows n d (arrive sn ns n d) := .modFrm n d fun _ => rfl

/-! ### The overhead words (R117, R118, R125, R405, R441) -/

theorem follows_o2Accept (n : Nat) (w : Word20) (d : Dev) : Follows n d (o2Accept n w d).1 := by
  unfold o2Accept
  extract_lets v f run d₁ d₂
  have h₁ : Follows n d d₁ := .modFrm n d fun _ => rfl
  have h₂ : Follows n d d₂ :=
    (h₁.trans (.wr n d₁ (Fld.aside_of_apart (by decide) n) _)).trans (.wr n _ (Fld.aside_of_apart (by decide) n) _)
  split
  · exact h₁
  · exact h₂.trans (.modFrm n d₂ fun _ => rfl)

theorem follows_ltAccept (n : Nat) (w : Word20) (d : Dev) : Follows n d (ltAccept n w d) :=
  .modFrm n d fun f => iteInduction (motive := fun g : Framer => g.found = f.found) (fun _ => rfl) fun _ => rfl

theorem follows_qlAccept (n : Nat) (w : Word20) (d : Dev) : Follows n d (qlAccept n w d) :=
  .modFrm n d fun f => iteInduction (motive := fun g : Framer => g.found = f.found) (fun _ => rfl) fun _ => rfl

theorem follows_putTrace (n : Nat) (t : List (BitVec 8)) (d : Dev) : Follows n d (putTrace n t d) :=
  .foldl (fun c _ => .wr n c (aside_tti _) _) _ d

theorem follows_traceByte (n : Nat) (w : Word20 × Bool) (d : Dev) : Follows n d (traceByte n w d).1 := by
  unfold traceByte
  extract_lets b v f ok t run d₁
  have h₁ : Follows n d d₁ := .modFrm n d fun _ => rfl
  split
  · exact .modFrm n d fun _ => rfl
  · split
    · exact .modFrm n d fun _ => rfl
    · split
      · exact h₁
      · exact (h₁.trans (follows_putTrace n t d₁)).trans (.modFrm n _ fun _ => rfl)

theorem follows_o5Word (n : Nat) (w : Word20 × Bool) (soft : Bool) (want : Nat) (d : Dev) : Follows n d (o5Word n w soft want d).1 := by
  unfold o5Word
  extract_lets bei d₁ bdi rdi d₂ f x y
  have h₂ : Follows n d d₂ := (Follows.count n d 1 n 4 _).trans (.modFrm n _ fun _ => rfl)
  split
  · exact .refl n d
  · split
    · exact h₂
    · exact h₂.trans (.modFrm n d₂ fun _ => rfl)

theorem evals_modChan (d : Dev) (c : Nat) (f : Chan → Chan) : Evals [] [.chans] d (modChan d c f) :=
  .of_only (by intro p hp; cases p <;> simp_all [Part.same, modChan])

theorem follows_chCnt (n : Nat) (d : Dev) (c : Nat) {f : Fld} (hf : 0x900000 ≤ f.base) : Follows n d (sat d f c) :=
  .wr n d (Fld.aside_of_addr (.inr (by simp only [Fld.addr]; omega))) _

theorem follows_mdcRx (n : Nat) (lsn : SN) (c : Nat) (d : Dev) (w : Word20 × Bool) : Follows n d (mdcRx lsn c d w) := by
  unfold mdcRx
  extract_lets d₁ d₂ x
  have h₁ : Follows n d d₁ := follows_chCnt n d c (by decide)
  have h₂ : Follows n d d₂ := .ite (h₁.trans (follows_chCnt n d₁ c (by decide))) h₁
  have hmod (e : Dev) (f : Chan → Chan) : Follows n e (modChan e c f) := .of_evals (evals_modChan e c f)
  refine .ite (.ite (h₂.trans (hmod d₂ _)) ?_) (.ite (h₂.trans (hmod d₂ _)) h₂)
  exact (h₂.trans (follows_chCnt n d₂ c (by decide))).trans (hmod _ _)

theorem follows_mdcWords (n : Nat) (r : RxSweep) (d : Dev) : Follows n d (mdcWords n r d) := by
  unfold mdcWords
  extract_lets lsn word d₁
  have h₁ : Follows n d d₁ := .ite (follows_mdcRx n lsn _ d _) (.refl n d)
  exact h₁.trans (.foldl (fun c i => follows_mdcRx n lsn _ c _) _ d₁)

theorem follows_ohWords (n : Nat) (r : RxSweep) (d : Dev) : Follows n d (ohWords n r d).1 := by
  unfold ohWords
  extract_lets hard o id d₁ soft x y want d₂
  have h₁ : Follows n d d₁ := iteInduction (motive := fun p : Dev × Bool => Follows n d p.1)
    (fun _ => (follows_o2Accept n _ d).trans (follows_ltAccept n _ _)) fun _ => .refl n d
  have hx : Follows n d x.1 := h₁.trans (follows_o5Word n _ soft _ d₁)
  have hy : Follows n d y.1 := iteInduction (motive := fun p : Dev × Bool => Follows n d p.1)
    (fun _ => hx) fun _ => hx.trans (follows_traceByte n _ x.1)
  have h₂ : Follows n d d₂ := .ite (hy.trans (follows_qlAccept n _ y.1)) hy
  exact h₂.trans (follows_mdcWords n r d₂)

/-! ### The evaluation -/

/-- Without tributaries and groups the reference candidates alone follow a lane. -/
theorem followAll_of_bare {d : Dev} (h : Bare d) (sn : SN) (ns : Nat) : followAll sn ns d = candEval true sn d := by
  have htribs : tribsFollow sn d = d := by simp [tribsFollow, h.1]
  have hprot : (candEval true sn d).prot = d.prot := (evals_candEval true sn d).parts .prot (by simp)
  simp [followAll, htribs, evalAll, hprot, h.2]

theorem watched_not_mem_followRegs {f : Fld} (hf : f ∈ watched) (m : Nat) : f.addr m ∉ followRegs := fun hmem => by
  have hplace : ∀ g ∈ watched, g.strided = true ∧ g.base % 0x1000 ≠ 0x124 ∧ 0x201000 ≤ g.base := by decide
  obtain ⟨hstrided, hoff, hbase⟩ := hplace f hf
  have := addr_of_mem_followRegs hmem
  rw [Fld.addr_of_strided hstrided] at this
  omega

theorem follows_laneEval (sn : SN) (ns : Nat) {n : Nat} (hn : n < 128) {d : Dev} (hglf : isGlf (persOf d n) = true) (want : Nat) :
    Follows n d (laneEval sn ns n want d) where
  parts := (evals_laneEval sn ns hn d want).parts.mono (List.subset_cons_self _ _)
  fields f hf m _ := by
    have hbits : ∀ g ∈ watched, F.FRM_RX_STATUS_DEF.apart g = true ∧ F.FRM_RX_STATUS_COND.apart g = true := by decide
    rw [laneEval_of_glf sn ns hn hglf, (evals_followAll sn ns _).rd (watched_not_mem_followRegs hf m),
      rd_laneStep_apart sn d n want (hbits f hf).1 (hbits f hf).2]
  found := found_laneEval sn ns hn hglf want n
  bare h := by
    have hstep := evals_laneStep sn d n want
    have hbare : Bare (laneStep sn d n want) := h.congr (congrArg Clients.tribs (hstep.parts .cli (by simp [laneParts])))
      (hstep.parts .prot (by simp [laneParts]))
    have hcand := evals_candEval true sn (laneStep sn d n want)
    rw [laneEval_of_glf sn ns hn hglf, followAll_of_bare hbare]
    exact hbare.congr (congrArg Clients.tribs hcand.cli) (hcand.parts .prot (by simp))

end Sys2Proof.Machine
end

