-- ==== Sys2Proof/Proofs/FramedSweeps.lean ====
section
/-! PROOFS. RECEIVED_SWEEP of a lane in frame (R112, R113, R115): the frame is lost with the fourth bad FAW in a row, or the
lane SN advances and the grains are brought in; and the statement O7. -/

namespace Sys2Proof.Machine

/-! ### The loss of the frame (R112, R115) -/

theorem evals_outOfFrame (n : Nat) (d : Dev) : Evals [F.FRM_RX_STATUS_DEF.addr n] [.regs, .cli, .frm] d (outOfFrame n d) :=
  ((evals_count d 1 n 12 1).mono (List.nil_subset _)).wrB.wr.modFrm

theorem rd_outOfFrame (n : Nat) (d : Dev) : rd (outOfFrame n d) F.FRM_RX_STATUS_FSTATE n = 0 ∧
    rd (outOfFrame n d) F.FRM_RX_STATUS_SN_LOCK n = 0 := by
  simp (disch := decide) only [outOfFrame, rd_modFrm, rd_wr_apart, rd_wrB_bit, rd_wr_fits]
  exact ⟨trivial, rfl⟩

theorem found_outOfFrame (n : Nat) (d : Dev) : (frmOf (outOfFrame n d) n).found = ([], none, 0) :=
  congrArg Framer.found (frmOf_modFrm_same _ n _)

theorem GlfUp.of_evals {as : List Nat} {ps : List Part} {a b : Dev} {n : Nat} (h : GlfUp a n) (he : Evals as ps a b)
    (has : ∀ x ∈ as, x = F.FRM_RX_STATUS_DEF.addr n ∨ x = F.FRM_RX_SN_SN.addr n) : GlfUp b n := by
  refine h.of_rd fun f hf => he.rd fun hmem => ?_
  have hplace : ∀ f ∈ [F.LNE_CFG_PERS, F.LNE_CTL_RX_EN, F.LNE_STATUS_LOS, F.LNE_STATUS_CDR_LOCK],
      F.FRM_RX_STATUS_DEF.elsewhere f = true ∧ F.FRM_RX_SN_SN.elsewhere f = true := by decide
  rcases has _ hmem with h | h
  · exact Fld.elsewhere.addr_ne (hplace f hf).1 n n h
  · exact Fld.elsewhere.addr_ne (hplace f hf).2 n n h

theorem GlfUp.sweepTaken {d : Dev} {n : Nat} (h : GlfUp d n) (i : RxIn) : GlfUp (sweepTaken n i d) n :=
  h.of_evals (evals_sweepTaken n i d) (by simp)

/-! ### The sweep is followed (R115) -/

/-- The lane SN has advanced, and the run of bad FAWs is that of a sweep with or without a good one. -/
def snAdvanced (n : Nat) (r : RxSweep) (d : Dev) : Dev :=
  let e := modFrm d n fun f => { f with faw := if fawGood r then 0 else (frmOf d n).faw + 1 }
  wr e F.FRM_RX_SN_SN n (rd e F.FRM_RX_SN_SN n + 1)

theorem evals_snAdvanced (n : Nat) (r : RxSweep) (d : Dev) : Evals [F.FRM_RX_SN_SN.addr n] [.regs, .frm] d (snAdvanced n r d) :=
  (Evals.refl _ _ d).modFrm.wr

theorem rd_snAdvanced_sn (n : Nat) (r : RxSweep) (d : Dev) :
    rd (snAdvanced n r d) F.FRM_RX_SN_SN n = (rd d F.FRM_RX_SN_SN n + 1) % 2 ^ 32 := by
  rw [snAdvanced, rd_wr_same _ _ _ _ (by decide), rd_modFrm]
  rfl

theorem rd_snAdvanced_apart (n : Nat) (r : RxSweep) (d : Dev) {f : Fld} (hf : F.FRM_RX_SN_SN.apart f = true) (m : Nat) :
    rd (snAdvanced n r d) f m = rd d f m := by
  rw [snAdvanced, rd_wr_apart _ hf, rd_modFrm]

theorem faw_snAdvanced (n : Nat) (r : RxSweep) (d : Dev) :
    (frmOf (snAdvanced n r d) n).faw = if fawGood r then 0 else (frmOf d n).faw + 1 := by
  rw [snAdvanced, frmOf_wr, frmOf_modFrm_same]

/-- The overhead of a sweep has been read after its SN: the device, and what the detectors call for. -/
def overheadRead (sn : SN) (ns n : Nat) (i : RxIn) (d : Dev) : Dev × Nat :=
  let r := rxSweep d n i
  ohWords n r (arrive sn ns n (bipCheck n r (snTrack n r (snAdvanced n r (sweepTaken n i d)))))

/-- The lane has been evaluated after it. -/
def sweepFollowed (sn : SN) (ns n : Nat) (i : RxIn) (d : Dev) : Dev :=
  laneEval sn ns n (overheadRead sn ns n i d).2 (overheadRead sn ns n i d).1

/-- The grains of the sweep have been brought to every port that takes them from lane `n` (R113). -/
def grainsBrought (sn : SN) (ns n : Nat) (i : RxIn) (d : Dev) : Dev :=
  let e := sweepFollowed sn ns n i d
  ((List.range 128).filter fun m => subst e m == n).foldl
    (grainsIn sn ns (BitVec.ofNat 32 (rd e F.FRM_RX_SN_SN n)) (pageNorm (positions e n) (rxSweep d n i).grains)) e

section
variable {d : Dev} {n : Nat} {i : RxIn} (hup : GlfUp d n) (hst : rd d F.FRM_RX_STATUS_FSTATE n = 2) (sn : SN) (ns : Nat)
include hup hst

theorem receivedSweep_eq : receivedSweep n i ns sn d =
    if !fawGood (rxSweep d n i) && decide (3 ≤ (frmOf d n).faw) then
      laneEval sn ns n (wantNow (outOfFrame n (sweepTaken n i d)) n) (outOfFrame n (sweepTaken n i d))
    else grainsBrought sn ns n i d := by
  have hpass := evals_loopPassed n i d
  have hruns : framerRuns (loopPassed n i d) n = true := framerRuns_iff.2 (hup.of_evals hpass (by simp))
  have hst' : fState (loopPassed n i d) n = 2 := (hpass.rd List.not_mem_nil).trans hst
  have hfaw : (frmOf (fecCount n (rxSweep d n i) (loopPassed n i d)) n).faw = (frmOf d n).faw :=
    congrArg Framer.faw (frmOf_sweepTaken n i d n)
  unfold receivedSweep
  rw [← loopPassed]
  simp only [hruns, hst', rxSweep_loopPassed, hfaw, Bool.not_true, Bool.false_eq_true, ne_eq, not_true_eq_false, or_self, if_false]
  simp only [← hfaw]
  rfl

end

/-! ### What the host sees -/

theorem fecCount_tribs (n : Nat) (r : RxSweep) (d : Dev) : (fecCount n r d).cli.tribs = d.cli.tribs := by
  rw [fecCount, perf_cli]
  rfl

theorem Bare.sweepTaken {d : Dev} (h : Bare d) (n : Nat) (i : RxIn) : Bare (sweepTaken n i d) := by
  refine h.congr ?_ ((evals_sweepTaken n i d).parts .prot (by simp))
  rw [Machine.sweepTaken, fecCount_tribs, (evals_loopPassed n i d).cli]

theorem Bare.snAdvanced {d : Dev} (h : Bare d) (n : Nat) (r : RxSweep) : Bare (snAdvanced n r d) := h.congr rfl rfl

theorem follows_overhead {n : Nat} {a : Dev} (r : RxSweep) (hlock : rd a F.FRM_RX_STATUS_SN_LOCK n = 1) (sn : SN) (ns : Nat) :
    Follows n a (ohWords n r (arrive sn ns n (bipCheck n r (snTrack n r a)))).1 :=
  (((follows_snTrack r hlock).trans (follows_bipCheck n r _)).trans (follows_arrive sn ns n _)).trans (follows_ohWords n r _)

theorem Follows.faw {n : Nat} {a b : Dev} (h : Follows n a b) : (frmOf b n).faw = (frmOf a n).faw :=
  congrArg (fun x : List (Nat × SN) × Option Nat × Nat => x.2.2) h.found

theorem Follows.laneEval {n : Nat} (hn : n < 128) {a e : Dev} (h : Follows n a e) (hglf : isGlf (persOf a n) = true) (sn : SN)
    (ns want : Nat) : Follows n a (laneEval sn ns n want e) := by
  have hpers : persOf e n = persOf a n := h.fields F.LNE_CFG_PERS (by decide) n hn
  exact h.trans (follows_laneEval sn ns hn (hpers ▸ hglf) want)

/-- From the advance of the lane SN on, the device follows the sweep. -/
theorem follows_sweepFollowed {d : Dev} {n : Nat} (hn : n < 128) (i : RxIn) (hup : GlfUp d n)
    (hlock : rd d F.FRM_RX_STATUS_SN_LOCK n = 1) (sn : SN) (ns : Nat) :
    Follows n (snAdvanced n (rxSweep d n i) (sweepTaken n i d)) (sweepFollowed sn ns n i d) := by
  have hlock' : rd (snAdvanced n (rxSweep d n i) (sweepTaken n i d)) F.FRM_RX_STATUS_SN_LOCK n = 1 := by
    rw [rd_snAdvanced_apart _ _ _ (by decide), (evals_sweepTaken n i d).rd List.not_mem_nil, hlock]
  have hup' : GlfUp (snAdvanced n (rxSweep d n i) (sweepTaken n i d)) n := (hup.sweepTaken i).of_evals (evals_snAdvanced n _ _) (by simp)
  exact Follows.laneEval hn (follows_overhead (rxSweep d n i) hlock' sn ns) hup'.glf sn ns _

section
variable {d : Dev} {n : Nat} (hn : n < 128) (i : RxIn) (hup : GlfUp d n) (hlock : rd d F.FRM_RX_STATUS_SN_LOCK n = 1) (sn : SN) (ns : Nat)
include hn hup hlock

/-- The watched fields but the lane SN are those before the sweep. -/
theorem rd_sweepFollowed {f : Fld} (hf : f ∈ watched) (hsn : F.FRM_RX_SN_SN.apart f = true) {m : Nat} (hm : m < 128) :
    rd (sweepFollowed sn ns n i d) f m = rd d f m := by
  rw [(follows_sweepFollowed hn i hup hlock sn ns).fields f hf m hm, rd_snAdvanced_apart _ _ _ hsn,
    (evals_sweepTaken n i d).rd List.not_mem_nil]

theorem rd_sweepFollowed_sn : rd (sweepFollowed sn ns n i d) F.FRM_RX_SN_SN n = (rd d F.FRM_RX_SN_SN n + 1) % 2 ^ 32 := by
  rw [(follows_sweepFollowed hn i hup hlock sn ns).fields _ (by decide) n hn, rd_snAdvanced_sn,
    (evals_sweepTaken n i d).rd List.not_mem_nil]

theorem faw_sweepFollowed : (frmOf (sweepFollowed sn ns n i d) n).faw =
    if fawGood (rxSweep d n i) then 0 else (frmOf d n).faw + 1 := by
  have hfound : (frmOf (sweepFollowed sn ns n i d) n).faw = (frmOf (snAdvanced n (rxSweep d n i) (sweepTaken n i d)) n).faw :=
    (follows_sweepFollowed hn i hup hlock sn ns).faw
  rw [hfound, faw_snAdvanced, frmOf_sweepTaken]

/-- What a sweep may change before its grains are brought in. -/
theorem only_sweepFollowed : Only (.regs :: .chans :: evalParts) d (sweepFollowed sn ns n i d) := by
  have hfollow := (follows_sweepFollowed hn i hup hlock sn ns).parts
  have hbefore := (evals_sweepTaken n i d).parts.trans (evals_snAdvanced n (rxSweep d n i) _).parts
  exact (hbefore.trans hfollow).mono (by decide)

theorem Bare.sweepFollowed (h : Bare d) : Bare (Machine.sweepFollowed sn ns n i d) :=
  (follows_sweepFollowed hn i hup hlock sn ns).bare ((h.sweepTaken n i).snAdvanced n _)

/-- The ingress pages that a sweep makes where no tributary and no group takes its grains. -/
theorem ingPage_grainsBrought (h : Bare d) (m : Nat) :
    ingPage (grainsBrought sn ns n i d) sn m = (if m < 128 ∧ subst d m = n ∧ rd d F.FRM_RX_CFG_PLESIO m = 0
      then pageNorm (positions d n) (rxSweep d n i).grains else ingPage d sn m) ∧
    ingPage (grainsBrought sn ns n i d) (sn + 1) m = ingPage d (sn + 1) m := by
  have hbare := Bare.sweepFollowed hn i hup hlock sn ns h
  have hsw : (Machine.sweepFollowed sn ns n i d).sw = d.sw := only_sweepFollowed hn i hup hlock sn ns .sw (by decide)
  have hpers : persOf (Machine.sweepFollowed sn ns n i d) n = persOf d n := rd_sweepFollowed hn i hup hlock sn ns (by decide) (by decide) hn
  have hpos : positions (Machine.sweepFollowed sn ns n i d) n = positions d n := by simp only [positions, hpers]
  have hports : (m ∈ (List.range 128).filter (fun m => subst (Machine.sweepFollowed sn ns n i d) m == n) ∧
      rdB (Machine.sweepFollowed sn ns n i d) F.FRM_RX_CFG_PLESIO m = false) ↔
      m < 128 ∧ subst d m = n ∧ rd d F.FRM_RX_CFG_PLESIO m = 0 := by
    simp only [List.mem_filter, List.mem_range, beq_iff_eq, hbare.subst, h.subst, rdB, bne_eq_false_iff_eq, and_assoc]
    exact and_congr_right fun hm => and_congr_right fun _ => by rw [rd_sweepFollowed hn i hup hlock sn ns (by decide) (by decide) hm]
  obtain ⟨hthis, hnext⟩ := ingPage_grainsIn sn ns (BitVec.ofNat 32 (rd (Machine.sweepFollowed sn ns n i d) F.FRM_RX_SN_SN n))
    (pageNorm (positions (Machine.sweepFollowed sn ns n i d) n) (rxSweep d n i).grains)
    ((List.range 128).filter fun m => subst (Machine.sweepFollowed sn ns n i d) m == n) hbare m
  refine ⟨hthis.trans ?_, hnext.trans (ingPage_congr hsw _ m)⟩
  simp only [hports, hpos, ingPage_congr hsw]

end

section
variable {s : State} {n : Fin 128} (hcore : s.dev.pwr.core = true) (i : RxIn) (ns : Nat) (hruns : framerRuns s.dev n = true)
  (hst : rd s.dev F.FRM_RX_STATUS_FSTATE n = 2)
include hcore hruns hst

theorem receivedSweep_loses (hbad : fawGood (rxSweep s.dev n i) = false) (hrun : 3 ≤ (frmOf s.dev n).faw) :
    ActsR evalRegs evalParts (.receivedSweep n i ns) s fun t =>
      rd t.dev F.FRM_RX_STATUS_FSTATE n = 0 ∧ rd t.dev F.FRM_RX_STATUS_SN_LOCK n = 0 ∧ rd t.dev F.FRM_RX_STATUS_DEF n = 4 ∧
      rd t.dev F.FRM_RX_STATUS_COND n = 2 ∧ (frmOf t.dev n).cands = [] ∧ (frmOf t.dev n).align = none := by
  have hrx := framerRuns_iff.1 hruns
  have hg := receivedSweep_eq (i := i) hrx hst s.sn ns
  rw [if_pos (by simp [hbad, hrun])] at hg
  have hlost := evals_outOfFrame n (sweepTaken n i s.dev)
  have hup := (hrx.sweepTaken i).of_evals hlost (by simp)
  have hfound := found_outOfFrame n (sweepTaken n i s.dev)
  obtain ⟨hstate, hlock⟩ := rd_outOfFrame n (sweepTaken n i s.dev)
  have hframe : Evals evalRegs (.regs :: evalParts) s.dev (outOfFrame n (sweepTaken n i s.dev)) :=
    ((evals_sweepTaken n i s.dev).mono (List.nil_subset _) (by decide)).next hlost (by simp [status_mem_evalRegs n.isLt]) (by decide)
  generalize outOfFrame n (sweepTaken n i s.dev) = e at *
  have hdefs := hup.laneDefs_of_hunting (wantNow e n) (by rw [hstate]; decide)
  have hkept := (found_laneEval s.sn ns n.isLt hup.glf (wantNow e n) n).trans hfound
  simp only [Framer.found, Prod.mk.injEq] at hkept
  obtain ⟨hcands, halign, -⟩ := hkept
  refine actsR_of_core rfl hcore hg (hframe.next (evals_laneEval s.sn ns n.isLt e _) (List.Subset.refl _) statusParts_subset) ?_
  dsimp only
  refine ⟨?_, ?_, ?_, ?_, hcands, halign⟩
  · exact (rd_laneEval_apart s.sn ns hup.glf n.isLt _ (by decide) (by decide) (addr_fstate n)).trans hstate
  · exact (rd_laneEval_apart s.sn ns hup.glf n.isLt _ (by decide) (by decide) (addr_snLock n)).trans hlock
  · rw [rd_laneEval_def s.sn ns n.isLt hup.glf, hdefs]; rfl
  · rw [rd_laneEval_cond s.sn ns n.isLt hup.glf, hdefs, hup.condFrom_eq]; rfl

theorem receivedSweep_follows (hkeep : fawGood (rxSweep s.dev n i) = true ∨ (frmOf s.dev n).faw < 3)
    (hlock : rd s.dev F.FRM_RX_STATUS_SN_LOCK n = 1) :
    Acts (.regs :: .sw :: .chans :: evalParts) (.receivedSweep n i ns) s fun t =>
      rd t.dev F.FRM_RX_STATUS_FSTATE n = 2 ∧ rd t.dev F.FRM_RX_SN_SN n = (rd s.dev F.FRM_RX_SN_SN n + 1) % 2 ^ 32 ∧
      (frmOf t.dev n).faw = (if fawGood (rxSweep s.dev n i) = true then 0 else (frmOf s.dev n).faw + 1) ∧
      (s.dev.cli.tribs = [] → s.dev.prot.groups = [] →
        ∀ m, ingPage t.dev s.sn m = (if m < 128 ∧ subst s.dev m = n.val ∧ rd s.dev F.FRM_RX_CFG_PLESIO m = 0
          then pageNorm (positions s.dev n) (rxSweep s.dev n i).grains else ingPage s.dev s.sn m) ∧
          ingPage t.dev (s.sn + 1) m = ingPage s.dev (s.sn + 1) m) := by
  have hup := framerRuns_iff.1 hruns
  have hg : receivedSweep n i ns s.sn s.dev = grainsBrought s.sn ns n i s.dev := by
    rw [receivedSweep_eq hup hst s.sn ns, if_neg]
    rcases hkeep with h | h
    · simp [h]
    · simp [Nat.not_le.2 h]
  have hgrains : Evals [] grainParts (sweepFollowed s.sn ns n i s.dev) (grainsBrought s.sn ns n i s.dev) :=
    .foldl (fun e m _ => evals_grainsIn s.sn ns _ _ e m) _
  refine acts_of_core rfl hcore hg (((only_sweepFollowed n.isLt i hup hlock s.sn ns).trans hgrains.parts).mono (by decide)) ?_
  dsimp only
  refine ⟨?_, ?_, ?_, fun htribs hgroups m => ingPage_grainsBrought n.isLt i hup hlock s.sn ns ⟨htribs, hgroups⟩ m⟩
  · exact ((hgrains.rd List.not_mem_nil).trans (rd_sweepFollowed n.isLt i hup hlock s.sn ns (by decide) (by decide) n.isLt)).trans hst
  · exact (hgrains.rd List.not_mem_nil).trans (rd_sweepFollowed_sn n.isLt i hup hlock s.sn ns)
  · rw [frmOf_congr (hgrains.parts .frm (by decide))]
    exact faw_sweepFollowed n.isLt i hup hlock s.sn ns

end

/-- Settles O7, command by command. -/
theorem framingAndReceivedSweeps : Obligations.FramingAndReceivedSweeps := by
  unfold Obligations.FramingAndReceivedSweeps
  refine ⟨fun s n off r hcore hruns => ⟨rawMatch_passes hcore off r, fun hst => ⟨fun x => rawMatch_opens hcore off r hruns hst,
    fun x ns hfind => ?_⟩⟩, fun s n i ns hcore hruns hst =>
    ⟨receivedSweep_loses hcore i ns hruns hst, receivedSweep_follows hcore i ns hruns hst⟩⟩
  refine ⟨fun hfirst hsecond => ?_, candidateCheck_rejects hcore off r hruns hst hfind ns⟩
  exact candidateCheck_confirms hcore off r hruns hst hfind ns (by simp [fawGood, hfirst, hsecond])

end Sys2Proof.Machine
end

