-- ==== Sys2Proof/Proofs/DegradeIntervals.lean ====
section
/-! PROOFS. The degrade detector of a lane in frame (R124, R136): what the end of an interval declares and clears. -/

namespace Sys2Proof.Machine

/-! ### The detector's judgement -/

/-- What the detector calls for after an interval that it judges, in the bits of `laneDefs`: dDEG after DEG_M bad intervals in
a row, and no longer after as many good ones. -/
def degWant (g : Degrade) (want : Nat) : Nat :=
  let bad := decide (g.thr < g.sum)
  if !want.testBit 7 && decide (g.m ≤ if bad then g.bad + 1 else 0) then setBit want 7 true
  else if want.testBit 7 && decide (g.m ≤ if bad then 0 else g.good + 1) then setBit want 7 false else want

theorem degWant_of_bad {g : Degrade} (hbad : g.thr < g.sum) (hrun : g.m ≤ g.bad + 1) : degWant g 0 = 0x80 := by
  simp [degWant, setBit, hbad, hrun]

theorem degWant_of_good {g : Degrade} (hgood : g.sum ≤ g.thr) (hrun : g.m ≤ g.good + 1) : degWant g 0x80 = 0 := by
  have hbit : Nat.testBit 0x80 7 = true := by decide
  simp [degWant, setBit, Nat.not_lt.2 hgood, hrun, hbit]

section
variable {d : Dev} {n : Nat} (ns : Nat) (sn : SN)

/-- Between boundaries nothing is judged. -/
theorem degEnd_of_within (hold : (rd d F.FRM_RX_SN_SN n + 1) % 2 ^ (degOf d n).ivl ≠ 0)
    (hnew : (rd d F.FRM_RX_SN_SN n + 1) % 2 ^ degIvl d n ≠ 0) : degEnd n ns sn d = d := by
  simp [degEnd, hold, hnew]

/-- At a boundary of a started detector the interval is judged, and the next one starts with no error. -/
theorem degEnd_of_boundary (hruns : framerRuns d n = true) (hst : rd d F.FRM_RX_STATUS_FSTATE n = 2)
    (hold : (rd d F.FRM_RX_SN_SN n + 1) % 2 ^ (degOf d n).ivl = 0) (hstart : (degOf d n).started = true)
    (hdefs : rd d F.FRM_RX_STATUS_DEF n &&& 0x3F = 0) (htim : (rd d F.FRM_RX_STATUS_DEF n).testBit 6 = false) :
    ∃ f : Degrade → Degrade, (∀ g, (f g).sum = 0) ∧
      degEnd n ns sn d = laneEval sn ns n (degWant (degOf d n) (wantNow d n)) (modDeg d n f) := by
  apply Exists.intro
  refine ⟨?sum, ?step⟩
  case step =>
    unfold degEnd
    simp only [hruns, fState, hst, hold, hstart, hdefs, htim]
    rfl
  case sum => exact fun _ => rfl

end

/-! ### What the host sees -/

theorem laneDefs_modDeg (d : Dev) (m : Nat) (f : Degrade → Degrade) (n want : Nat) :
    laneDefs (modDeg d m f) n want = laneDefs d n want := rfl

section
variable {s : State} {n : Fin 128} (hcore : s.dev.pwr.core = true) (ns : Nat) (hruns : framerRuns s.dev n = true)
  (hst : rd s.dev F.FRM_RX_STATUS_FSTATE n = 2)
include hcore

theorem degIntervalEnd_waits (hold : (rd s.dev F.FRM_RX_SN_SN n + 1) % 2 ^ (degOf s.dev n).ivl ≠ 0)
    (hnew : (rd s.dev F.FRM_RX_SN_SN n + 1) % 2 ^ degIvl s.dev n ≠ 0) : exec (.degIntervalEnd n ns) s = .next s :=
  (core_next s (degEnd n ns s.sn) hcore).trans (by rw [degEnd_of_within ns s.sn hold hnew])

variable (hold : (rd s.dev F.FRM_RX_SN_SN n + 1) % 2 ^ (degOf s.dev n).ivl = 0) (hstart : (degOf s.dev n).started = true)
include hruns hst hold hstart

/-- The boundary shows the defects that the detector's judgement leaves, and the condition that they give. -/
theorem degIntervalEnd_judges {old new : Nat} (hdefs : rd s.dev F.FRM_RX_STATUS_DEF n = old) (hlow : old % 128 = 0)
    (hnew : laneDefs s.dev n (degWant (degOf s.dev n) old) = new) :
    ActsR evalRegs evalParts (.degIntervalEnd n ns) s fun t =>
      rd t.dev F.FRM_RX_STATUS_DEF n = new % 2 ^ 10 ∧ rd t.dev F.FRM_RX_STATUS_COND n = (condFrom s.dev n new).code ∧
      (degOf t.dev n).sum = 0 := by
  have hup := framerRuns_iff.1 hruns
  have hupper : old &&& 0x3F = 0 := by
    rw [show (0x3F : Nat) = 2 ^ 6 - 1 from rfl, Nat.and_two_pow_sub_one_eq_mod]; omega
  have htim : old.testBit 6 = false := by
    rw [Nat.testBit_eq_decide_div_mod_eq]; simp; omega
  subst hdefs
  obtain ⟨f, hsum, hg⟩ := degEnd_of_boundary ns s.sn hruns hst hold hstart hupper htim
  have hframe := evals_modDeg s.dev n f
  have hglf : isGlf (persOf (modDeg s.dev n f) n) = true := (hup.of_evals hframe (by simp)).glf
  refine actsR_of_core rfl hcore hg ((hframe.mono (List.nil_subset _) (by simp [evalParts])).next
    (evals_laneEval s.sn ns n.isLt _ _) (List.Subset.refl _) statusParts_subset) ?_
  dsimp only
  refine ⟨?_, ?_, degOf_laneEval_sum s.sn ns n.isLt hglf _ ?_⟩
  · rw [rd_laneEval_def s.sn ns n.isLt hglf, laneDefs_modDeg, wantNow, hnew]
  · rw [rd_laneEval_cond s.sn ns n.isLt hglf, laneDefs_modDeg, wantNow, hnew]
    rfl
  · rw [degOf_modDeg_same, hsum]

theorem degIntervalEnd_declares (hbad : (degOf s.dev n).thr < (degOf s.dev n).sum) (hrun : (degOf s.dev n).m ≤ (degOf s.dev n).bad + 1)
    (hdefs : rd s.dev F.FRM_RX_STATUS_DEF n = 0) (hnone : laneDefs s.dev n 0 = 0) :
    ActsR evalRegs evalParts (.degIntervalEnd n ns) s fun t =>
      rd t.dev F.FRM_RX_STATUS_DEF n = 0x80 ∧ rd t.dev F.FRM_RX_STATUS_COND n = 1 ∧ (degOf t.dev n).sum = 0 := by
  have hup := framerRuns_iff.1 hruns
  have hbits : Nat.testBit 0x80 6 = false ∧ Nat.testBit 0x80 7 = true := by decide
  have hsd : condFrom s.dev n 0x80 = .sd := by simp [hup.condFrom_eq, hbits]
  have h := degIntervalEnd_judges hcore ns hruns hst hold hstart hdefs rfl
    ((congrArg _ (degWant_of_bad hbad hrun)).trans (hup.laneDefs_of_degraded hnone))
  rwa [hsd] at h

theorem degIntervalEnd_clears (hgood : (degOf s.dev n).sum ≤ (degOf s.dev n).thr) (hrun : (degOf s.dev n).m ≤ (degOf s.dev n).good + 1)
    (hdefs : rd s.dev F.FRM_RX_STATUS_DEF n = 0x80) (hnone : laneDefs s.dev n 0 = 0) :
    ActsR evalRegs evalParts (.degIntervalEnd n ns) s fun t =>
      rd t.dev F.FRM_RX_STATUS_DEF n = 0 ∧ rd t.dev F.FRM_RX_STATUS_COND n = 0 ∧ (degOf t.dev n).sum = 0 := by
  have hup := framerRuns_iff.1 hruns
  have hnorm : condFrom s.dev n 0 = .none := by simp [hup.condFrom_eq]
  have h := degIntervalEnd_judges hcore ns hruns hst hold hstart hdefs rfl
    ((congrArg _ (degWant_of_good hgood hrun)).trans hnone)
  rwa [hnorm] at h

end

end Sys2Proof.Machine
end

