-- ==== Sys2Proof/Proofs/FineMultiframes.lean ====
section
/-! PROOFS. The multiframe lock of a fine-slot monitor (R52): it locks where one position alone has qualified in two
multiframes, and loses its lock when CHK has failed in three. -/

namespace Sys2Proof.Machine

/-- The word at position `q` of the multiframe that ended `b` multiframes ago is known, and meets `P`. -/
def MfWordIs (m : Mon) (q b : Nat) (P : Word20 → Prop) : Prop := ∃ w, mfWord m.hist q b = some w ∧ P w

/-- Position `q` qualifies in the last two multiframes. -/
def MfQualifies (t : Trib) (tid : BitVec 19) (m : Mon) (q : Nat) : Prop :=
  ∀ b < 2, MfWordIs m q b fun w => chkPasses w tid = true ∧ jwType w = t.cfg.ptype ∧ jwMaint w = false

theorem mem_mfQualify {t : Trib} {tid : BitVec 19} {m : Mon} {q : Nat} :
    q ∈ mfQualify t tid.toNat m ↔ q < 16 ∧ MfQualifies t tid m q := by
  have htwo (b : Nat) : b = 0 ∨ b = 1 ↔ b < 2 := by omega
  simp only [mfQualify, List.mem_filter, List.mem_range, List.all_eq_true, List.mem_cons, List.not_mem_nil, or_false, htwo]
  refine and_congr_right fun _ => forall₂_congr fun b _ => ?_
  unfold MfWordIs
  cases mfWord m.hist q b <;> simp [and_assoc]

theorem mfQualify_nodup (t : Trib) (tid : Nat) (m : Mon) : (mfQualify t tid m).Nodup := List.nodup_range.filter _

theorem mfQualify_of_single {t : Trib} {tid : BitVec 19} {m : Mon} {p : Fin 16} (h : ∀ q : Fin 16, MfQualifies t tid m q ↔ q = p) :
    mfQualify t tid.toNat m = [p.val] := by
  refine List.perm_singleton.1 ((List.perm_ext_iff_of_nodup (mfQualify_nodup t _ m) (List.nodup_singleton _)).2 fun q => ?_)
  rw [mem_mfQualify, List.mem_singleton]
  refine ⟨fun ⟨hq, hok⟩ => congrArg Fin.val ((h ⟨q, hq⟩).1 hok), fun hq => ?_⟩
  subst hq
  exact ⟨p.isLt, (h p).2 rfl⟩

section
variable {d : Dev} {tid : BitVec 19} {t : Trib} (ht : tribOf d tid.toNat = some t)
include ht

theorem fineLock_of_single (hfine : t.cfg.fine = true) (hrole : t.cfg.role = 0) {p : Fin 16} (hopen : t.w.locked = false)
    (h : ∀ q : Fin 16, MfQualifies t tid t.w q ↔ q = p) :
    fineLock tid.toNat 0 d = setTrib d tid.toNat { t with w := { t.w with locked := true, phase := p.val } } := by
  have hhas : t.has d 0 = true := by simp [Trib.has, hrole]
  have hmon : t.mon 0 = t.w := rfl
  simp only [fineLock, ht, hfine, hhas, hmon, hopen, mfQualify_of_single h, Bool.not_true, Bool.or_self, Bool.false_eq_true, if_false]
  rfl

theorem fineLock_of_other (h : ∀ q, mfQualify t tid.toNat t.w ≠ [q]) : fineLock tid.toNat 0 d = d := by
  have hmon : t.mon 0 = t.w := rfl
  simp only [fineLock, ht, hmon]
  split
  · rfl
  · rfl

theorem fineLoss_of_failed (hfine : t.cfg.fine = true) (hlocked : t.w.locked = true)
    (h : ∀ b < 3, MfWordIs t.w t.w.phase b fun w => chkPasses w tid = false) :
    fineLoss tid.toNat 0 d = setTrib d tid.toNat { t with w := { t.w with locked := false } } := by
  have hmon : t.mon 0 = t.w := rfl
  obtain ⟨w₀, hw₀, hfail₀⟩ := h 0 (by decide)
  obtain ⟨w₁, hw₁, hfail₁⟩ := h 1 (by decide)
  obtain ⟨w₂, hw₂, hfail₂⟩ := h 2 (by decide)
  simp only [fineLoss, ht, hmon, hfine, hlocked, hw₀, hw₁, hw₂, hfail₀, hfail₁, hfail₂, List.all_cons, List.all_nil,
    BitVec.ofNat_toNat, BitVec.setWidth_eq, Bool.not_false, Bool.and_self, if_true]
  rfl

theorem fineLoss_of_passed {b : Nat} (hb : b < 3) (h : MfWordIs t.w t.w.phase b fun w => chkPasses w tid = true) :
    fineLoss tid.toNat 0 d = d := by
  have hmon : t.mon 0 = t.w := rfl
  obtain ⟨w, hw, hpass⟩ := h
  simp only [fineLoss, ht, hmon]
  refine if_neg fun hall => ?_
  simp only [Bool.and_eq_true, List.all_eq_true, List.mem_cons, List.not_mem_nil, or_false] at hall
  have hfail := hall.2 b (by omega)
  simp [hw, hpass] at hfail

end

/-! ### What the host sees -/

/-- A command that stores tributary `tid` anew. -/
theorem acts_of_setTrib {s : State} {c : Instr} {g : Dev → Dev} {tid : Nat} {t : Trib} (hexec : exec c s = core s g)
    (hcore : s.dev.pwr.core = true) (hg : g s.dev = setTrib s.dev tid t) :
    Acts [.cli] c s fun u => tribOf u.dev tid = some t ∧ ∀ q, q ≠ tid → tribOf u.dev q = tribOf s.dev q :=
  acts_of_core hexec hcore hg (evals_setTrib s.dev tid t).parts
    ⟨tribOf_setTrib_same s.dev tid t, fun _ hq => tribOf_setTrib_ne s.dev t hq⟩

section
variable {s : State} {tid : BitVec 19} {t : Trib} {p : Fin 16} (hcore : s.dev.pwr.core = true) (ht : tribOf s.dev tid.toNat = some t)
include hcore ht

theorem fineMfLock_locks (hfine : t.cfg.fine = true) (hrole : t.cfg.role = 0) (hopen : t.w.locked = false)
    (h : ∀ q : Fin 16, MfQualifies t tid t.w q ↔ q = p) :
    Acts [.cli] (.fineMfLock tid 0 ()) s fun u =>
      tribOf u.dev tid.toNat = some { t with w := { t.w with locked := true, phase := p.val } } ∧
      ∀ q, q ≠ tid.toNat → tribOf u.dev q = tribOf s.dev q :=
  acts_of_setTrib rfl hcore (fineLock_of_single ht hfine hrole hopen h)

theorem fineMfLock_waits (h : (∀ q : Fin 16, ¬ MfQualifies t tid t.w q) ∨
    ∃ q : Fin 16, q ≠ p ∧ MfQualifies t tid t.w q ∧ MfQualifies t tid t.w p) :
    exec (.fineMfLock tid 0 ()) s = .next s := by
  have hother (q : Nat) : mfQualify t tid.toNat t.w ≠ [q] := fun hq => by
    have hmem (x : Nat) : x < 16 ∧ MfQualifies t tid t.w x ↔ x = q := by rw [← mem_mfQualify, hq, List.mem_singleton]
    rcases h with hnone | ⟨x, hne, hx, hp⟩
    · obtain ⟨hlt, hok⟩ := (hmem q).2 rfl
      exact hnone ⟨q, hlt⟩ hok
    · exact hne (Fin.ext (((hmem x).1 ⟨x.isLt, hx⟩).trans ((hmem p).1 ⟨p.isLt, hp⟩).symm))
  exact (core_next s (fineLock tid.toNat 0) hcore).trans (by rw [fineLock_of_other ht hother])

variable (hphase : t.w.phase = p.val)
include hphase

theorem fineMfLoss_loses (hfine : t.cfg.fine = true) (hlocked : t.w.locked = true)
    (h : ∀ b < 3, MfWordIs t.w p.val b fun w => chkPasses w tid = false) :
    Acts [.cli] (.fineMfLoss tid 0) s fun u =>
      tribOf u.dev tid.toNat = some { t with w := { t.w with locked := false } } ∧
      ∀ q, q ≠ tid.toNat → tribOf u.dev q = tribOf s.dev q :=
  acts_of_setTrib rfl hcore (fineLoss_of_failed ht hfine hlocked (hphase ▸ h))

theorem fineMfLoss_keeps {b : Nat} (hb : b < 3) (h : MfWordIs t.w p.val b fun w => chkPasses w tid = true) :
    exec (.fineMfLoss tid 0) s = .next s :=
  (core_next s (fineLoss tid.toNat 0) hcore).trans (by rw [fineLoss_of_passed ht hb (hphase ▸ h)])

end

end Sys2Proof.Machine
end

