-- ==== Sys2Proof/Proofs/TributaryPeriods.lean ====
section
/-! PROOFS. The end of a tributary period (R126, R128 to R131) at the monitor of a working copy that lies on one lane: a good
JW keeps every defect clear, a JW that fails counts, and the third in a row declares tLOJ; and the statement O8. -/

namespace Sys2Proof.Machine

/-! ### A period in its stages -/

/-- The JW of the period is accepted (R48). -/
def periodOk (t : Trib) (tid k : Nat) : Bool :=
  !(t.cfg.fine && !(t.mon k).locked) && jwOk (periodJw t (t.mon k)) (BitVec.ofNat 19 tid) t.cfg.maxFill && !jwMaint (periodJw t (t.mon k))

/-- The counters and the state of defect `i` after the period (R129). -/
def periodResult (d : Dev) (t : Trib) (tid k i : Nat) : Nat × Nat × Bool :=
  let m := t.mon k
  let s := m.set.getD i 0
  let c := m.clr.getD i 0
  let dc := m.decl.getD i false
  if m.ssf || m.ssfSeen || ((tSuppress.getD i []).any fun j => m.decl.getD j false) || (decide (4 ≤ i) && !periodOk t tid k) then
    (s, c, dc)
  else integrate (limOf d t m i).1 (limOf d t m i).2 s c dc
    ((rawDefects t tid m (periodJw t m) (copyMulti d t k && t.skew k)).getD i false)

/-- The monitor after the period, before its condition. -/
def periodCounters (d : Dev) (t : Trib) (tid k : Nat) : Mon :=
  { t.mon k with
    set := ((List.range 6).map (periodResult d t tid k)).map fun x => x.1
    clr := ((List.range 6).map (periodResult d t tid k)).map fun x => x.2.1
    decl := ((List.range 6).map (periodResult d t tid k)).map fun x => x.2.2
    ssfSeen := (t.mon k).ssf
    last := if periodOk t tid k then some ((periodJw t (t.mon k)).extractLsb' 8 12) else (t.mon k).last
    lim := profAll d t.cfg.profile }

/-- The monitor after the period. -/
def periodMon (d : Dev) (t : Trib) (tid k : Nat) : Mon :=
  { periodCounters d t tid k with cond := monCond (periodCounters d t tid k) }

/-- The monitor is stored, and JW and TYPE errors are counted. -/
def periodCounted (d : Dev) (t : Trib) (tid k : Nat) : Dev :=
  let e := setTrib d tid (t.setMon k (periodMon d t tid k))
  let e := if !periodOk t tid k && !jwMaint (periodJw t (t.mon k)) && !(t.cfg.fine && !(t.mon k).locked) then
    count e 2 (copyObj tid k) 0 else e
  if periodOk t tid k && jwType (periodJw t (t.mon k)) != t.cfg.ptype then count e 2 (copyObj tid k) 1 else e

/-- The defects that changed are reported (R134). -/
def periodReported (sn : SN) (d : Dev) (t : Trib) (tid k : Nat) : Dev :=
  (List.range 6).foldl (fun e i => if (periodMon d t tid k).decl.getD i false = (t.mon k).decl.getD i false then e
    else defEvent sn (0x13 + i) ((periodMon d t tid k).decl.getD i false) (copyFlags k) tid (copySn e t k sn) e) (periodCounted d t tid k)

theorem tribPeriodEnd_eq {d : Dev} {t : Trib} {tid k : Nat} (ns : Nat) (sn : SN) (ht : tribOf d tid = some t) (hhas : t.has d k = true) :
    ∃ bits, tribPeriodEnd tid k ns sn d =
      if (periodMon d t tid k).cond = (t.mon k).cond then seenOr (periodReported sn d t tid k) 2 (copyObj tid k) bits
      else evalAll sn ns (seenOr (periodReported sn d t tid k) 2 (copyObj tid k) bits) := by
  apply Exists.intro
  unfold tribPeriodEnd
  simp only [ht, hhas, Bool.not_true, Bool.false_eq_true, if_false]
  rfl

theorem evals_periodCounted (d : Dev) (t : Trib) (tid k : Nat) : Evals [] [.cli] d (periodCounted d t tid k) := by
  unfold periodCounted
  extract_lets e₁ e₂
  have h₁ : Evals [] [.cli] d e₁ := evals_setTrib d tid _
  have h₂ : Evals [] [.cli] d e₂ := .ite (fun _ => h₁.trans (evals_count e₁ _ _ _ _)) fun _ => h₁
  exact .ite (fun _ => h₂.trans (evals_count e₂ _ _ _ _)) fun _ => h₂

theorem tribOf_periodCounted (d : Dev) (t : Trib) (tid k : Nat) :
    tribOf (periodCounted d t tid k) tid = some (t.setMon k (periodMon d t tid k)) := by
  unfold periodCounted
  extract_lets e₁ e₂
  have hcount (e : Dev) (kind obj idx n : Nat) : tribOf (count e kind obj idx n) tid = tribOf e tid := rfl
  simp only [e₂, e₁, apply_ite (fun e => tribOf e tid), hcount, ite_self, tribOf_setTrib_same]

/-- The lane SN of a copy's events depends on the registers and on the page that is active. -/
theorem copySn_congr {a b : Dev} {ps : List Part} (h : Evals [] ps a b) (hsw : Part.sw ∉ ps) (t : Trib) (k : Nat) (sn : SN) :
    copySn b t k sn = copySn a t k sn := by
  have hpage : active b = active a := by simp only [active, show b.sw = a.sw from h.parts .sw hsw]
  have hlane : memberLane b = memberLane a := by funext u; simp only [memberLane, hpage]
  have hrd (n : Nat) : rd b F.FRM_RX_SN_SN n = rd a F.FRM_RX_SN_SN n := h.rd List.not_mem_nil
  simp only [copySn, hlane, hrd]

/-! ### A working copy without defects -/

/-- The working copy of `t` lies on one lane that is neither SF nor SD; none of its defects is declared, and tLOJ alone has
counted, `x` periods. SET is 3 and CLR 10; the JW bits `h` were accepted last, without MI. -/
structure QuietCopy (d : Dev) (tid : BitVec 19) (t : Trib) (h : BitVec 12) (x : Nat) : Prop where
  stands : tribOf d tid.toNat = some t
  role : t.cfg.role = 0
  coarse : t.cfg.fine = false
  single : copyMulti d t 0 = false
  ssf : t.w.ssf = false
  ssfSeen : t.w.ssfSeen = false
  decl : t.w.decl = List.replicate 6 false
  lim : t.w.lim = List.replicate 6 (3, 10)
  set : t.w.set = [0, 0, x, 0, 0, 0]
  last : t.w.last = some h
  noMi : h.getLsbD 3 = false
  ssd : t.w.ssd = false
  cond : t.w.cond = .none

namespace QuietCopy

variable {d : Dev} {tid : BitVec 19} {t : Trib} {h : BitVec 12} {x : Nat} (q : QuietCopy d tid t h x)
include q

theorem has : t.has d 0 = true := by simp [Trib.has, q.role]

theorem periodJw : Machine.periodJw t (t.mon 0) = t.w.jw := by
  have hmon : t.mon 0 = t.w := rfl
  simp [Machine.periodJw, hmon, q.ssf, q.coarse]

theorem periodOk : Machine.periodOk t tid.toNat 0 = (jwOk t.w.jw tid t.cfg.maxFill && !jwMaint t.w.jw) := by
  simp [Machine.periodOk, q.periodJw, q.coarse]

/-- No defect suppresses another, and tUNEQ and tPTM count in periods with an accepted JW alone (R129). -/
theorem periodResult {i : Nat} (hi : i < 6) : Machine.periodResult d t tid.toNat 0 i =
    if decide (4 ≤ i) && !Machine.periodOk t tid.toNat 0 then (t.w.set.getD i 0, t.w.clr.getD i 0, false)
    else integrate 3 10 (t.w.set.getD i 0) (t.w.clr.getD i 0) false
      ((rawDefects t tid.toNat t.w t.w.jw false).getD i false) := by
  have hmon : t.mon 0 = t.w := rfl
  have hclear (j : Nat) : t.w.decl.getD j false = false := by
    rw [q.decl, List.getD_eq_getElem?_getD, List.getElem?_replicate]
    split <;> rfl
  have hfree : ((tSuppress.getD i []).any fun j => t.w.decl.getD j false) = false := by
    rw [List.any_eq_false]
    exact fun j _ => by rw [hclear j]; exact Bool.false_ne_true
  have hlim : limOf d t t.w i = (3, 10) := by
    rw [limOf, q.lim, List.getElem?_replicate, if_pos hi]
    rfl
  have hjw := q.periodJw
  rw [hmon] at hjw
  simp only [Machine.periodResult, hmon, q.ssf, q.ssfSeen, hfree, hclear i, hjw, hlim, q.single, Bool.false_and, Bool.or_self,
    Bool.false_or]

/-- The condition that the declared defects give: SF for one that no other suppresses (R131). -/
theorem monCond {decl : List Bool} (hdecl : (periodCounters d t tid.toNat 0).decl = decl) :
    Machine.monCond (periodCounters d t tid.toNat 0) =
      if (List.range 6).any (fun i => decl.getD i false && !(tSuppress.getD i []).any fun j => decl.getD j false) then .sf else .none := by
  have hssf : (periodCounters d t tid.toNat 0).ssf = false := q.ssf
  have hseen : (periodCounters d t tid.toNat 0).ssfSeen = false := q.ssf
  have hssd : (periodCounters d t tid.toNat 0).ssd = false := q.ssd
  simp only [Machine.monCond, hssf, hseen, hssd, hdecl, Bool.not_false, Bool.true_and, Bool.false_or, Bool.false_eq_true, if_false]

/-! ### A period whose JW is good -/

section
variable (hok : jwOk t.w.jw tid t.cfg.maxFill = true) (hmi : jwMi t.w.jw = false)
include hok hmi

theorem periodOk_of_good : Machine.periodOk t tid.toNat 0 = true := by
  rw [q.periodOk, hok, jwMaint, hmi]
  rfl

variable (htype : jwType t.w.jw = t.cfg.ptype) (hequipped : jwType t.w.jw ≠ 0)
include htype hequipped

theorem rawDefects_of_good : rawDefects t tid.toNat t.w t.w.jw false = List.replicate 6 false := by
  have hmaint : jwMaint t.w.jw = false := by rw [jwMaint, hmi]; rfl
  simp [rawDefects, q.coarse, hmaint, hok, hmi, ← htype, show jwType t.w.jw ≠ 0#3 from hequipped]

theorem periodResult_of_good {i : Nat} (hi : i < 6) : Machine.periodResult d t tid.toNat 0 i = (0, t.w.clr.getD i 0, false) := by
  have hraw : (List.replicate 6 false).getD i false = false := by
    rw [List.getD_eq_getElem?_getD, List.getElem?_replicate, if_pos hi]
    rfl
  rw [q.periodResult hi, q.periodOk_of_good hok hmi, q.rawDefects_of_good hok hmi htype hequipped, hraw, Bool.not_true, Bool.and_false]
  rfl

/-- Every counter of SET is back at zero, and no defect is declared. -/
theorem periodMon_of_good : (periodMon d t tid.toNat 0).decl = List.replicate 6 false ∧
    (periodMon d t tid.toNat 0).set = List.replicate 6 0 ∧ (periodMon d t tid.toNat 0).cond = .none ∧
    (periodMon d t tid.toNat 0).last = some (t.w.jw.extractLsb' 8 12) := by
  have hres : (List.range 6).map (Machine.periodResult d t tid.toNat 0) = (List.range 6).map fun i => (0, t.w.clr.getD i 0, false) :=
    List.map_congr_left fun i hi => q.periodResult_of_good hok hmi htype hequipped (List.mem_range.1 hi)
  have hdecl : (periodCounters d t tid.toNat 0).decl = List.replicate 6 false := by rw [periodCounters, hres]; rfl
  refine ⟨hdecl, ?_, (q.monCond hdecl).trans rfl, ?_⟩
  · rw [periodMon, periodCounters, hres]; rfl
  · rw [periodMon, periodCounters, q.periodOk_of_good hok hmi, q.periodJw]; rfl

end

/-! ### A period whose JW fails -/

section
variable (hbad : ¬ jwOk t.w.jw tid t.cfg.maxFill = true) (hmaint : jwMaint t.w.jw = false)
include hbad

theorem periodOk_of_bad : Machine.periodOk t tid.toNat 0 = false := by
  rw [q.periodOk, Bool.eq_false_iff.2 hbad]
  rfl

include hmaint

theorem rawDefects_of_bad : rawDefects t tid.toNat t.w t.w.jw false = [false, false, true, false, false, false] := by
  simp [rawDefects, q.coarse, hmaint, hbad, q.last, show h[3] = false from q.noMi]

/-- tLOJ alone counts. -/
theorem periodResult_of_bad {i : Nat} (hi : i < 6) : Machine.periodResult d t tid.toNat 0 i =
    if i = 2 then integrate 3 10 x (t.w.clr.getD 2 0) false true else (0, t.w.clr.getD i 0, false) := by
  rw [q.periodResult hi, q.periodOk_of_bad hbad, q.rawDefects_of_bad hbad hmaint, q.set]
  interval_cases i <;> rfl

theorem periodMon_of_bad {set : Nat} {clr : Nat} {loj : Bool} (hloj : integrate 3 10 x (t.w.clr.getD 2 0) false true = (set, clr, loj)) :
    (periodMon d t tid.toNat 0).decl = [false, false, loj, false, false, false] ∧
    (periodMon d t tid.toNat 0).set = [0, 0, set, 0, 0, 0] ∧ (periodMon d t tid.toNat 0).cond = (if loj then .sf else .none) ∧
    (periodMon d t tid.toNat 0).last = some h := by
  have hres : (List.range 6).map (Machine.periodResult d t tid.toNat 0) =
      (List.range 6).map fun i => if i = 2 then (set, clr, loj) else (0, t.w.clr.getD i 0, false) :=
    List.map_congr_left fun i hi => by rw [q.periodResult_of_bad hbad hmaint (List.mem_range.1 hi), hloj]
  have hdecl : (periodCounters d t tid.toNat 0).decl = [false, false, loj, false, false, false] := by rw [periodCounters, hres]; rfl
  refine ⟨hdecl, ?_, (q.monCond hdecl).trans ?_, ?_⟩
  · rw [periodMon, periodCounters, hres]; rfl
  · cases loj <;> rfl
  · rw [periodMon, periodCounters, q.periodOk_of_bad hbad]; exact q.last

end

end QuietCopy

/-! ### What the host sees -/

/-- An evaluation that leaves the host interface raises no event. -/
theorem Evals.raised_nil {as : List Nat} {ps : List Part} {a b : Dev} (h : Evals as ps a b) (hhif : Part.hif ∉ ps := by simp) :
    Raised a b [] := by
  simp only [Raised, show b.hif = a.hif from h.parts .hif hhif, List.map_nil, List.append_nil]

section
variable {s : State} {tid : BitVec 19} {t : Trib} {h : BitVec 12} {x : Nat} (q : QuietCopy s.dev tid t h x) (ns : Nat)
  (hcore : s.dev.pwr.core = true)
include q hcore

/-- A period after which no defect is declared stores the monitor, and is counted. -/
theorem tribPeriodEnd_silent (hdecl : (periodMon s.dev t tid.toNat 0).decl = List.replicate 6 false)
    (hcond : (periodMon s.dev t tid.toNat 0).cond = .none) :
    Acts [.cli, .pm] (.tribPeriodEnd tid 0 () () ns) s fun u =>
      tribOf u.dev tid.toNat = some { t with w := periodMon s.dev t tid.toNat 0 } := by
  have hmon : t.mon 0 = t.w := rfl
  obtain ⟨bits, hg⟩ := tribPeriodEnd_eq ns s.sn q.stands q.has
  have hreported : periodReported s.sn s.dev t tid.toNat 0 = periodCounted s.dev t tid.toNat 0 :=
    foldl_same (g := id) (fun e i => if_pos (by rw [hdecl, hmon, q.decl])) _ _
  have hsame : (periodMon s.dev t tid.toNat 0).cond = (t.mon 0).cond := by rw [hcond, hmon, q.cond]
  rw [if_pos hsame, hreported] at hg
  refine acts_of_core rfl hcore hg
    (((evals_periodCounted s.dev t tid.toNat 0).mono).next (evals_seenOr _ _ _ _) (List.Subset.refl _)).parts ?_
  dsimp only
  rw [tribOf_congr (seenOr_cli ..), tribOf_periodCounted]
  rfl

/-- A period that declares tLOJ reports it, and the groups are evaluated for the copy's new condition. -/
theorem tribPeriodEnd_declares (hdecl : (periodMon s.dev t tid.toNat 0).decl = [false, false, true, false, false, false])
    (hcond : (periodMon s.dev t tid.toNat 0).cond = .sf) :
    ActsR evalRegs [.cli, .pm, .hif, .prot, .out, .twin] (.tribPeriodEnd tid 0 () () ns) s fun u =>
      tribOf u.dev tid.toNat = some { t with w := periodMon s.dev t tid.toNat 0 } ∧
      Raised s.dev u.dev [{ typ := 0x10, sn := s.sn, p0 := 0x15 + 256 + 512, p1 := tid.toNat, p2 := copySn s.dev t 0 s.sn }] := by
  have hmon : t.mon 0 = t.w := rfl
  obtain ⟨bits, hg⟩ := tribPeriodEnd_eq ns s.sn q.stands q.has
  have hcounted := evals_periodCounted s.dev t tid.toNat 0
  have hcounted := evals_periodCounted s.dev t tid.toNat 0
  have hstored := tribOf_periodCounted s.dev t tid.toNat 0
  have hothers : ∀ i < 6, i ≠ 2 →
      [false, false, true, false, false, false].getD i false = (List.replicate 6 false).getD i false := by decide
  have hreported : periodReported s.sn s.dev t tid.toNat 0 =
      defEvent s.sn 0x15 true 512 tid.toNat (copySn s.dev t 0 s.sn) (periodCounted s.dev t tid.toNat 0) := by
    rw [periodReported, hdecl, hmon, q.decl, foldl_eq_of_single List.nodup_range (c := 2) (by decide)
      (fun _ i hi hne => if_pos (hothers i (List.mem_range.1 hi) hne)), if_neg (by decide), copySn_congr hcounted (by simp)]
    rfl
  have hne : (periodMon s.dev t tid.toNat 0).cond ≠ (t.mon 0).cond := by rw [hcond, hmon, q.cond]; decide
  rw [if_neg hne, hreported] at hg
  generalize periodCounted s.dev t tid.toNat 0 = e at hg hcounted hstored
  have hevent := evals_defEvent s.sn 0x15 true 512 tid.toNat (copySn s.dev t 0 s.sn) e
  have hraise : Raised e (defEvent s.sn 0x15 true 512 tid.toNat (copySn s.dev t 0 s.sn) e) _ := raised_raise e _
  have hkept := defEvent_cli s.sn 0x15 true 512 tid.toNat (copySn s.dev t 0 s.sn) e
  generalize defEvent s.sn 0x15 true 512 tid.toNat (copySn s.dev t 0 s.sn) e = e' at hg hevent hraise hkept
  have hseen := evals_seenOr e' 2 (copyObj tid.toNat 0) bits
  generalize seenOr e' 2 (copyObj tid.toNat 0) bits = e'' at hg hseen
  have heval := evals_evalAll s.sn ns e''
  refine actsR_of_core rfl hcore hg ((((hcounted.mono (List.nil_subset _)).next hevent (List.nil_subset _)).next hseen
    (List.nil_subset _)).next heval pscRegs_subset) ?_
  dsimp only
  refine ⟨(tribOf_congr ((heval.cli.trans hseen.cli).trans hkept) _).trans hstored, ?_⟩
  exact ((hcounted.raised_nil.trans hraise hcounted.role).trans hseen.raised_nil (hevent.role.trans hcounted.role)).trans heval.raised_nil
    ((hseen.role.trans hevent.role).trans hcounted.role)

theorem tribPeriodEnd_good (hok : jwOk t.w.jw tid t.cfg.maxFill = true) (hmi : jwMi t.w.jw = false)
    (htype : jwType t.w.jw = t.cfg.ptype) (hequipped : jwType t.w.jw ≠ 0) :
    Acts [.cli, .pm] (.tribPeriodEnd tid 0 () () ns) s fun u => ∃ t₁, tribOf u.dev tid.toNat = some t₁ ∧
      t₁.cfg = t.cfg ∧ t₁.w.decl = List.replicate 6 false ∧ t₁.w.set = List.replicate 6 0 ∧ t₁.w.cond = .none ∧
      t₁.w.last = some (t.w.jw.extractLsb' 8 12) := by
  obtain ⟨hdecl, hset, hcond, hlast⟩ := q.periodMon_of_good hok hmi htype hequipped
  exact (tribPeriodEnd_silent q ns hcore hdecl hcond).imp fun u ⟨hexec, hdev, honly, hu⟩ =>
    ⟨hexec, hdev, honly, _, hu, rfl, hdecl, hset, hcond, hlast⟩

theorem tribPeriodEnd_counts (hmaint : jwMaint t.w.jw = false) (hbad : ¬ jwOk t.w.jw tid t.cfg.maxFill = true) (hlow : x < 2) :
    Acts [.cli, .pm] (.tribPeriodEnd tid 0 () () ns) s fun u => ∃ t₁, tribOf u.dev tid.toNat = some t₁ ∧
      t₁.cfg = t.cfg ∧ t₁.w.decl = List.replicate 6 false ∧ t₁.w.set = [0, 0, x + 1, 0, 0, 0] ∧ t₁.w.cond = .none ∧
      t₁.w.last = some h := by
  have hloj : integrate 3 10 x (t.w.clr.getD 2 0) false true = (x + 1, t.w.clr.getD 2 0, false) := by
    simp [integrate]; omega
  obtain ⟨hdecl, hset, hcond, hlast⟩ := q.periodMon_of_bad hbad hmaint hloj
  exact (tribPeriodEnd_silent q ns hcore hdecl hcond).imp fun u ⟨hexec, hdev, honly, hu⟩ =>
    ⟨hexec, hdev, honly, _, hu, rfl, hdecl, hset, hcond, hlast⟩

end

theorem tribPeriodEnd_third {s : State} {tid : BitVec 19} {t : Trib} {h : BitVec 12} (q : QuietCopy s.dev tid t h 2) (ns : Nat)
    (hcore : s.dev.pwr.core = true) (hmaint : jwMaint t.w.jw = false) (hbad : ¬ jwOk t.w.jw tid t.cfg.maxFill = true) :
    ActsR evalRegs [.cli, .pm, .hif, .prot, .out, .twin] (.tribPeriodEnd tid 0 () () ns) s fun u =>
      (∃ t₁, tribOf u.dev tid.toNat = some t₁ ∧ t₁.cfg = t.cfg ∧
        t₁.w.decl = [false, false, true, false, false, false] ∧ t₁.w.cond = .sf ∧ t₁.w.last = some h) ∧
      Raised s.dev u.dev [{ typ := 0x10, sn := s.sn, p0 := 0x15 + 256 + 512, p1 := tid.toNat, p2 := copySn s.dev t 0 s.sn }] := by
  obtain ⟨hdecl, -, hcond, hlast⟩ := q.periodMon_of_bad hbad hmaint (clr := 0) rfl
  exact (tribPeriodEnd_declares q ns hcore hdecl hcond).imp fun u ⟨hexec, hdev, honly, hregs, hu, hraised⟩ =>
    ⟨hexec, hdev, honly, hregs, ⟨_, hu, rfl, hdecl, hcond, hlast⟩, hraised⟩

/-- Settles O8: the degrade detector, the tributary periods and the fine multiframe lock. -/
theorem detectorsIntegrate : Obligations.DetectorsIntegrate := by
  unfold Obligations.DetectorsIntegrate
  refine fun s ns hcore => ⟨fun n hruns hst => ⟨degIntervalEnd_waits hcore ns, fun hold hstart =>
    ⟨degIntervalEnd_declares hcore ns hruns hst hold hstart, degIntervalEnd_clears hcore ns hruns hst hold hstart⟩⟩, ?_, ?_⟩
  · intro tid t h x ht hrole hfine hmulti hssf hseen hdecl hlim hset hx hlast hmi hssd hcond
    have q : QuietCopy s.dev tid t h x := ⟨ht, hrole, hfine, hmulti, hssf, hseen, hdecl, hlim, hset, hlast, hmi, hssd, hcond⟩
    refine ⟨tribPeriodEnd_good q ns hcore, fun hmaint hbad => ⟨tribPeriodEnd_counts q ns hcore hmaint hbad, fun hthird => ?_⟩⟩
    subst hthird
    exact tribPeriodEnd_third q ns hcore hmaint hbad
  · exact fun tid t p ht hfine hrole => ⟨fun hopen => ⟨fineMfLock_locks hcore ht hfine hrole hopen, fineMfLock_waits hcore ht⟩,
      fun hlocked hphase => ⟨fineMfLoss_loses hcore ht hphase hfine hlocked, fun b hb => fineMfLoss_keeps hcore ht hphase hb⟩⟩

end Sys2Proof.Machine
end

