-- ==== Sys2Proof/Proofs/ClientBuffers.lean ====
section
/-! PROOFS. The buffers of mappers and demappers at their limits (R144, R150, R156, R158): each command as one equation per
case, and the frame of a command that stores one tributary. -/

namespace Sys2Proof.Machine

/-! ### One tributary stored -/

/-- The tributary `tid` of `b` is `t`, and every other one is as in `a`. -/
def TribBecomes (a b : Dev) (tid : Nat) (t : Trib) : Prop :=
  (∀ q, q ≠ tid → tribOf b q = tribOf a q) ∧ tribOf b tid = some t

theorem tribBecomes_setTrib (d : Dev) (tid : Nat) (t : Trib) : TribBecomes d (setTrib d tid t) tid t :=
  ⟨fun _ hq => tribOf_setTrib_ne d t hq, tribOf_setTrib_same d tid t⟩

section
variable (d : Dev) (q : Nat)

@[simp] theorem tribOf_count (kind obj idx n : Nat) : tribOf (count d kind obj idx n) q = tribOf d q := rfl
@[simp] theorem tribOf_raise (e : Ev) : tribOf (raise d e) q = tribOf d q := rfl

end

theorem Acts.weaken {ps : List Part} {c : Instr} {s : State} {f g : State → Prop} (h : Acts ps c s f) (hfg : ∀ u, f u → g u) :
    Acts ps c s g := by
  obtain ⟨u, hexec, hdev, honly, hf⟩ := h
  exact ⟨u, hexec, hdev, honly, hfg u hf⟩

section
variable {c : Instr} {s : State} {g : Dev → Dev} {tid kind obj idx : Nat} {t : Trib} (hexec : exec c s = core s g)
  (hcore : s.dev.pwr.core = true)
include hexec hcore

/-- A command of a running core that does nothing. -/
theorem exec_next_of_same (hg : g s.dev = s.dev) : exec c s = .next s := by
  rw [hexec, core_next s g hcore, hg]

theorem acts_of_stored (hg : g s.dev = setTrib s.dev tid t) : Acts [.cli] c s fun u => TribBecomes s.dev u.dev tid t :=
  acts_of_core hexec hcore hg (evals_setTrib s.dev tid t).parts (tribBecomes_setTrib s.dev tid t)

theorem acts_of_stored_counted (hg : g s.dev = count (setTrib s.dev tid t) kind obj idx) :
    Acts [.cli] c s fun u => TribBecomes s.dev u.dev tid t :=
  acts_of_core hexec hcore hg ((evals_setTrib s.dev tid t).trans (evals_count _ kind obj idx 1)).parts
    (tribBecomes_setTrib s.dev tid t)

/-- The tributary is stored, a counter advances, and one event reports it. -/
theorem acts_of_stored_reported {e : Ev} (hg : g s.dev = raise (count (setTrib s.dev tid t) kind obj idx) e) :
    Acts [.cli, .hif] c s fun u => TribBecomes s.dev u.dev tid t ∧ Raised s.dev u.dev [e] :=
  have hstored : Evals [] [.cli, .hif] s.dev (setTrib s.dev tid t) := (evals_setTrib s.dev tid t).mono
  acts_of_core hexec hcore hg ((hstored.next (evals_count _ kind obj idx 1)).raise (e := e)).parts
    ⟨tribBecomes_setTrib s.dev tid t, raised_raise _ e⟩

end

/-! ### A mapper's buffer at its limit (R144) -/

/-- The blocks that `mapOvf` discards bring the buffer down to `cap` words, and not a block further. -/
theorem blocks_over_cap {l cap : Nat} (hfull : 2 * cap ≤ l / 20) :
    l - 66 * cdiv (l - 20 * cap) 66 ≤ 20 * cap ∧ 20 * cap < l - 66 * cdiv (l - 20 * cap) 66 + 66 := by
  simp only [cdiv]
  omega

section
variable {d : Dev} {tid : Nat} {t : Trib} (sn : SN) (ht : tribOf d tid = some t) (hrole : t.cfg.role = 1) (hmode : modeOf d t.cfg ≠ 2)
include ht hmode

theorem mapOvf_of_room (hroom : t.map.bits.length / 20 < 2 * t.cfg.cap) : mapOvf tid sn d = d := by
  simp [mapOvf, ht, hmode, hroom]

include hrole

theorem mapOvf_of_full (hfull : 2 * t.cfg.cap ≤ t.map.bits.length / 20) : mapOvf tid sn d =
    raise (count (setTrib d tid { t with map := { t.map with
      bits := t.map.bits.take (t.map.bits.length - 66 * cdiv (t.map.bits.length - 20 * t.cfg.cap) 66), ovf := true } }) 2 tid 8)
      { typ := 0x20, sn := sn, p0 := tid } := by
  simp [mapOvf, ht, hrole, hmode, Nat.not_lt.2 hfull]

end

/-! ### The ETH_FM demapper (R150) -/

section
variable {d : Dev} {tid : Nat} {t : Trib} {h0 h1 : Word20} {r : List Word20} (sn : SN) (ht : tribOf d tid = some t)
  (hrole : t.cfg.role = 2) (hmode : modeOf d t.cfg = 2) (hsf : demSf t = false) (hwords : t.dem.words = h0 :: h1 :: r)
include ht hwords

/-- A unit that has not come whole is not tested. -/
theorem fmHeader_of_short (hok : hcrcOk h0 h1 = true) (hshort : r.length < payWords (h0Len h0)) : fmHeader tid sn d = d := by
  simp [fmHeader, ht, hwords, hok, hshort]

include hrole hmode hsf

theorem fmHeader_of_mismatch (hbad : hcrcOk h0 h1 = false) : fmHeader tid sn d =
    setTrib (if t.dem.fm = 2 then
        raise (count d 3 (clientKey d t.cfg.lane) 12) { typ := 0x21, sn := sn, p0 := t.cfg.lane } else d)
      tid { t with dem := { t.dem with fm := 0, words := h1 :: r } } := by
  simp [fmHeader, ht, hrole, hmode, hsf, hwords, hbad]

variable (hok : hcrcOk h0 h1 = true) (hwhole : payWords (h0Len h0) ≤ r.length)
include hok hwhole

/-- The first match: the unit is skipped, and counted unless it is a null header. -/
theorem fmHeader_of_hunt (hfm : t.dem.fm = 0) : fmHeader tid sn d =
    if h0Len h0 = 0 then setTrib d tid { t with dem := { t.dem with fm := 1, words := r.drop (payWords (h0Len h0)) } }
    else count (setTrib d tid { t with dem := { t.dem with fm := 1, words := r.drop (payWords (h0Len h0)) } }) 3
      (clientKey d t.cfg.lane) 12 := by
  simp [fmHeader, ht, hrole, hmode, hsf, hwords, hok, Nat.not_lt.2 hwhole, hfm]

/-- A further match delivers the frame, where the queue has room. -/
theorem fmHeader_of_frame (hfm : t.dem.fm ≠ 0) (hlen : h0Len h0 ≠ 0)
    (hroom : queueWords t.dem.frames + payWords (h0Len h0) ≤ 2 * t.cfg.cap) : fmHeader tid sn d =
    setTrib d tid { t with dem := { t.dem with
      fm := 2, words := r.drop (payWords (h0Len h0)),
      frames := t.dem.frames ++ [frameBytes (h0Len h0) (h0Err h0) (r.take (payWords (h0Len h0)))] } } := by
  simp [fmHeader, ht, hrole, hmode, hsf, hwords, hok, Nat.not_lt.2 hwhole, hfm, hlen, Nat.not_lt.2 hroom]

end

/-! ### The CPRI demapper (R156) -/

theorem length_repeated_block (n : Nat) (b : BitVec 66) : ((List.replicate n (blockBits b)).flatten).length = 66 * n := by
  simp [blockBits, msbBits, Nat.mul_comm]

section
variable {d : Dev} {tid : Nat} {t : Trib} (sn : SN) (ht : tribOf d tid = some t)
include ht

theorem cpriSlip_of_between (b : Bool) (hlow : 66 ≤ t.dem.bits.length) (hhigh : t.dem.bits.length < 2 * clientBits d t.cfg) :
    cpriSlip tid b sn d = d := by
  simp [cpriSlip, ht, hlow, hhigh]

variable (hrole : t.cfg.role = 2) (hmode : modeOf d t.cfg = 4) (hstarted : t.dem.started = true)
include hrole hmode hstarted

theorem cpriSlip_of_full (hfull : 2 * clientBits d t.cfg ≤ t.dem.bits.length) : cpriSlip tid true sn d =
    raise (count (setTrib d tid { t with dem := { t.dem with
      bits := t.dem.bits.drop (66 * ((t.dem.bits.length - clientBits d t.cfg) / 66)) } }) 5 t.cfg.lane 4)
      { typ := 0x23, sn := sn, p0 := t.cfg.lane, p1 := 1 } := by
  simp [cpriSlip, ht, hrole, hmode, hstarted, Nat.not_lt.2 hfull]

theorem cpriSlip_of_empty (hempty : t.dem.bits.length < 66) : cpriSlip tid false sn d =
    raise (count (setTrib d tid { t with dem := { t.dem with
      bits := t.dem.bits ++ (List.replicate (clientBits d t.cfg / 66) (blockBits t.dem.prev)).flatten } }) 5 t.cfg.lane 4)
      { typ := 0x23, sn := sn, p0 := t.cfg.lane, p1 := 0 } := by
  simp [cpriSlip, ht, hrole, hmode, hstarted, Nat.not_le.2 hempty]

end

/-! ### The block demappers (R158) -/

section
variable {d : Dev} {tid : Nat} {t : Trib} (ht : tribOf d tid = some t)
include ht

theorem bufSlip_of_between (hsome : t.dem.blocks ≠ []) (hroom : t.dem.blocks.length < 2 * targetBlocks d t.cfg) :
    bufSlip tid d = d := by
  simp [bufSlip, ht, List.length_pos_iff.2 hsome, hroom]

variable (hrole : t.cfg.role = 2) (hmode : modeOf d t.cfg = 1 ∨ modeOf d t.cfg = 3) (hstarted : t.dem.started = true)
include hrole hmode hstarted

theorem bufSlip_of_empty (hempty : t.dem.blocks = []) : bufSlip tid d =
    count (setTrib d tid { t with dem := { t.dem with blocks := List.replicate (targetBlocks d t.cfg) idleBlock } })
      (idleKey d t.cfg).1 (idleKey d t.cfg).2.1 ((idleKey d t.cfg).2.2 + 2) := by
  have hclient : ¬ (modeOf d t.cfg ≠ 1 ∧ modeOf d t.cfg ≠ 3) := by tauto
  simp only [bufSlip, ht, hrole, hstarted, hclient, hempty]
  simp

theorem bufSlip_of_full (hsome : t.dem.blocks ≠ []) (hfull : 2 * targetBlocks d t.cfg ≤ t.dem.blocks.length) : bufSlip tid d =
    count (setTrib d tid { t with dem := { t.dem with blocks := t.dem.blocks.drop (t.dem.blocks.length - targetBlocks d t.cfg) } })
      (idleKey d t.cfg).1 (idleKey d t.cfg).2.1 ((idleKey d t.cfg).2.2 + 2) := by
  have hclient : ¬ (modeOf d t.cfg ≠ 1 ∧ modeOf d t.cfg ≠ 3) := by tauto
  have hlen : t.dem.blocks.length ≠ 0 := by simpa using hsome
  simp only [bufSlip, ht, hrole, hstarted, hclient, Nat.not_lt.2 hfull, if_neg hlen]
  simp

end

end Sys2Proof.Machine
end

