-- ==== Sys2Proof/Proofs/Rejustifiers.lean ====
section
/-! PROOFS. Re-justifiers (R161, R162): the copy that holds too much, and the end of a window of 262,144 device sweeps; and
the statement O11. -/

namespace Sys2Proof.Machine

/-! ### Re-justifiers (R161, R162) -/

/-- The lanes of a copy depend on its configuration, its members on the page that is active. -/
theorem copyPlesio_congr {a b : Dev} {t u : Trib} (hregs : b.regs = a.regs) (hsw : b.sw = a.sw) (hcfg : u.cfg = t.cfg) (k : Nat) :
    copyPlesio b u k = copyPlesio a t k := by
  have hpage : active b = active a := by simp only [active, hsw]
  have hlane : memberLane b = memberLane a := by funext v; simp only [memberLane, hpage]
  simp only [copyPlesio, copyLanes, Trib.members, hcfg, hlane, rdB, rd_congr hregs]

theorem rjSlip_of_full {d : Dev} {tid : Nat} {t : Trib} (sn : SN) (ht : tribOf d tid = some t) (hrole : t.cfg.role = 0)
    (hw : copyPlesio d t 0 = true) (hp : copyPlesio d t 1 = false) (hslip : t.rjW.slip = false)
    (hfull : 2 * t.cfg.cap < t.rjW.buf.length) : rjSlip tid sn d =
    raise (count (setTrib d tid { t with rjW := { t.rjW with slip := true, buf := t.rjW.buf.drop t.cfg.cap } }) 2 (copyObj tid 0) 10)
      { typ := 0x24, sn := sn, p0 := tid } := by
  have hp' (u : Trib) (e : Ev) (hu : u.cfg = t.cfg) :
      copyPlesio (raise (count (setTrib d tid u) 2 (copyObj tid 0) 10) e) u 1 = false :=
    (copyPlesio_congr rfl rfl hu 1).trans hp
  simp [rjSlip, ht, Trib.rj, Trib.setRj, hrole, hw, hslip, hfull, hp']

/-- The lane sweeps of lane `n`'s window beyond its 262,144 device sweeps (R162). -/
def windowDiff (d : Dev) (n : Nat) : Int := ((frmOf d n).rjCnt : Int) - 262144

/-- A window that has run its length is stored, and the next one begins. -/
def windowStored (n : Nat) (sn : SN) (d : Dev) : Dev :=
  wr (modFrm d n fun f => { f with rjFrom := some sn, rjCnt := 0 }) F.MAP_RJ_STATUS_OFFSET n (unsigned 16 (windowDiff d n))

/-- In `b` the window of lane `n` begins anew with sweep `sn`; every other framer is as in `a`. -/
def WindowAnew (a b : Dev) (n : Nat) (sn : SN) : Prop :=
  frmOf b n = { frmOf a n with rjFrom := some sn, rjCnt := 0 } ∧ ∀ m, m ≠ n → frmOf b m = frmOf a m

@[simp] theorem addr_freqErr (n : Nat) : F.MAP_RJ_STATUS_FREQ_ERR.addr n = F.MAP_RJ_STATUS_OFFSET.addr n := rfl

section
variable (n : Nat) (sn : SN) (d : Dev)

theorem evals_windowStored : Evals [F.MAP_RJ_STATUS_OFFSET.addr n] [.regs, .frm] d (windowStored n sn d) :=
  ((evals_modFrm d n _).mono).wr

theorem windowAnew_windowStored : WindowAnew d (windowStored n sn d) n sn :=
  ⟨(frmOf_wr ..).trans (frmOf_modFrm_same d n _), fun _ hm => (frmOf_wr ..).trans (frmOf_modFrm_ne d _ hm)⟩

theorem rd_windowStored_offset : rd (windowStored n sn d) F.MAP_RJ_STATUS_OFFSET n = unsigned 16 (windowDiff d n) := by
  refine rd_wr_fits _ ⟨by decide, ?_⟩
  show ((_ : Int) % 65536).toNat < 65536
  omega

theorem rd_windowStored_freqErr : rd (windowStored n sn d) F.MAP_RJ_STATUS_FREQ_ERR n = rd d F.MAP_RJ_STATUS_FREQ_ERR n :=
  (rd_wr_apart _ (by decide)).trans (rd_modFrm d n _ _ n)

/-- FREQ_ERR is written beside the offset. -/
theorem rd_wrB_freqErr (b : Bool) :
    rd (wrB d F.MAP_RJ_STATUS_FREQ_ERR n b) F.MAP_RJ_STATUS_OFFSET n = rd d F.MAP_RJ_STATUS_OFFSET n ∧
    rd (wrB d F.MAP_RJ_STATUS_FREQ_ERR n b) F.MAP_RJ_STATUS_FREQ_ERR n = b.toNat :=
  ⟨rd_wrB_apart d (by decide), rd_wrB_bit d (by decide) b⟩

end

section
variable {d : Dev} {n : Nat} {from' : SN} (sn : SN) (hfrom : (frmOf d n).rjFrom = some from')
include hfrom

theorem rjWindow_of_running (hage : snAge from' sn < 262144) : rjWindow n sn d = d := by
  simp [rjWindow, hfrom, hage]

theorem rjWindow_of_ended (hplesio : rd d F.FRM_RX_CFG_PLESIO n = 1) (hage : snAge from' sn = 262144) : rjWindow n sn d =
    if 7 ≤ (windowDiff d n).natAbs then
      if rdB d F.MAP_RJ_STATUS_FREQ_ERR n then windowStored n sn d
      else raise (wrB (windowStored n sn d) F.MAP_RJ_STATUS_FREQ_ERR n true)
        { typ := 0x25, sn := sn, p0 := n, p1 := unsigned 16 (windowDiff d n) }
    else if (windowDiff d n).natAbs ≤ 5 then wrB (windowStored n sn d) F.MAP_RJ_STATUS_FREQ_ERR n false
    else windowStored n sn d := by
  have hjudged : ¬ ((!rdB d F.FRM_RX_CFG_PLESIO n) = true ∨ snAge from' sn < 262144) := by simp [rdB, hplesio, hage]
  simp only [rjWindow, hfrom]
  rw [if_neg hjudged, if_neg (not_not.2 hage)]
  rfl

end

/-! ### What the host sees -/

section
variable {s : State} {n : Fin 128} {from' : SN} (hcore : s.dev.pwr.core = true) (hplesio : rd s.dev F.FRM_RX_CFG_PLESIO n = 1)
  (hfrom : (frmOf s.dev n).rjFrom = some from') (hage : snAge from' s.sn = 262144)
include hcore hplesio hfrom hage

/-- A window off by 7 or more declares FREQ_ERR, with one event where it was not declared. -/
theorem rjWindowEnd_declares (hfar : 7 ≤ (windowDiff s.dev n).natAbs) :
    ActsR [F.MAP_RJ_STATUS_OFFSET.addr n] [.hif, .frm] (.rjWindowEnd n ()) s fun t =>
      WindowAnew s.dev t.dev n s.sn ∧ rd t.dev F.MAP_RJ_STATUS_OFFSET n = unsigned 16 (windowDiff s.dev n) ∧
      rd t.dev F.MAP_RJ_STATUS_FREQ_ERR n = 1 ∧
      Raised s.dev t.dev (if rd s.dev F.MAP_RJ_STATUS_FREQ_ERR n = 1 then [] else
        [{ typ := 0x25, sn := s.sn, p0 := n.val, p1 := unsigned 16 (windowDiff s.dev n) }]) := by
  have hg := rjWindow_of_ended s.sn hfrom hplesio hage
  rw [if_pos hfar] at hg
  have hev : Evals [F.MAP_RJ_STATUS_OFFSET.addr n] [.regs, .hif, .frm] s.dev (windowStored n s.sn s.dev) :=
    (evals_windowStored n s.sn s.dev).mono
  have hanew := windowAnew_windowStored n s.sn s.dev
  have hoff := rd_windowStored_offset n s.sn s.dev
  have hbit : rd s.dev F.MAP_RJ_STATUS_FREQ_ERR n < 2 := rd_lt s.dev F.MAP_RJ_STATUS_FREQ_ERR n
  by_cases hwas : rd s.dev F.MAP_RJ_STATUS_FREQ_ERR n = 1
  · rw [if_pos (by simp [rdB, hwas])] at hg
    refine actsR_of_core rfl hcore hg hev ⟨hanew, hoff, (rd_windowStored_freqErr n s.sn s.dev).trans hwas, ?_⟩
    rw [if_pos hwas]
    exact (evals_windowStored n s.sn s.dev).raised_nil
  · rw [if_neg (by simp [rdB]; omega)] at hg
    obtain ⟨hkept, hset⟩ := rd_wrB_freqErr n (windowStored n s.sn s.dev) true
    refine actsR_of_core rfl hcore hg (hev.wrB.raise) ⟨hanew, hkept.trans hoff, hset, ?_⟩
    rw [if_neg hwas]
    exact raised_raise _ _

/-- A window off by 5 or less clears FREQ_ERR. -/
theorem rjWindowEnd_clears (hnear : (windowDiff s.dev n).natAbs ≤ 5) :
    ActsR [F.MAP_RJ_STATUS_OFFSET.addr n] [.frm] (.rjWindowEnd n ()) s fun t =>
      WindowAnew s.dev t.dev n s.sn ∧ rd t.dev F.MAP_RJ_STATUS_OFFSET n = unsigned 16 (windowDiff s.dev n) ∧
      rd t.dev F.MAP_RJ_STATUS_FREQ_ERR n = 0 := by
  have hg := rjWindow_of_ended s.sn hfrom hplesio hage
  rw [if_neg (by omega), if_pos hnear] at hg
  obtain ⟨hkept, hset⟩ := rd_wrB_freqErr n (windowStored n s.sn s.dev) false
  exact actsR_of_core rfl hcore hg ((evals_windowStored n s.sn s.dev).wrB)
    ⟨windowAnew_windowStored n s.sn s.dev, hkept.trans (rd_windowStored_offset n s.sn s.dev), hset⟩

/-- A window off by 6 leaves FREQ_ERR. -/
theorem rjWindowEnd_keeps (hsix : (windowDiff s.dev n).natAbs = 6) :
    ActsR [F.MAP_RJ_STATUS_OFFSET.addr n] [.frm] (.rjWindowEnd n ()) s fun t =>
      WindowAnew s.dev t.dev n s.sn ∧ rd t.dev F.MAP_RJ_STATUS_FREQ_ERR n = rd s.dev F.MAP_RJ_STATUS_FREQ_ERR n := by
  have hg := rjWindow_of_ended s.sn hfrom hplesio hage
  rw [if_neg (by omega), if_neg (by omega)] at hg
  exact actsR_of_core rfl hcore hg (evals_windowStored n s.sn s.dev)
    ⟨windowAnew_windowStored n s.sn s.dev, rd_windowStored_freqErr n s.sn s.dev⟩

end

/-- Settles O11: each buffer's equation, as the host sees it. -/
theorem clientBuffersSlip : Obligations.ClientBuffersSlip := by
  unfold Obligations.ClientBuffersSlip
  refine fun s tid t hcore ht => ⟨fun hrole hmode => ⟨fun hfull => ?_, fun hroom => ?_⟩,
    fun h0 h1 r hrole hmode hsf hwords => ⟨fun hok hshort => ?_, fun hbad hfm => ?_, fun hbad hfm => ?_, fun hok hwhole hfm => ?_,
      fun hok hwhole hfm hlen hroom => ?_⟩,
    fun hrole hmode hstarted => ⟨fun hfull => ?_, fun hempty => ?_, fun hlow hhigh b => ?_⟩,
    fun hrole hmode hstarted => ⟨fun hempty => ?_, fun hsome hfull => ?_, fun hsome hroom => ?_⟩,
    fun hrole hw hp hslip hfull => ?_, fun n from' hplesio hfrom => ⟨fun hage => ?_, fun hage => ⟨?_, ?_, ?_⟩⟩⟩
  · obtain ⟨hle, hlt⟩ := blocks_over_cap hfull
    exact (acts_of_stored_reported rfl hcore (mapOvf_of_full s.sn ht hrole hmode hfull)).weaken fun u ⟨hbecomes, hraised⟩ =>
      ⟨⟨_, hle, hlt, hbecomes⟩, hraised⟩
  · exact exec_next_of_same rfl hcore (mapOvf_of_room s.sn ht hmode hroom)
  · exact exec_next_of_same rfl hcore (fmHeader_of_short s.sn ht hwords (beq_iff_eq.2 hok) hshort)
  · have hg := fmHeader_of_mismatch s.sn ht hrole hmode hsf hwords (beq_eq_false_iff_ne.2 hbad)
    rw [if_neg hfm] at hg
    exact acts_of_stored rfl hcore hg
  · have hg := fmHeader_of_mismatch s.sn ht hrole hmode hsf hwords (beq_eq_false_iff_ne.2 hbad)
    rw [if_pos hfm] at hg
    have hlost : Evals [] [.cli, .hif] s.dev _ := (evals_count s.dev 3 (clientKey s.dev t.cfg.lane) 12 1).mono
    exact acts_of_core rfl hcore hg (hlost.raise.next (evals_setTrib _ _ _)).parts ⟨tribBecomes_setTrib _ _ _, raised_raise _ _⟩
  · have hg := fmHeader_of_hunt s.sn ht hrole hmode hsf hwords (beq_iff_eq.2 hok) hwhole hfm
    split at hg
    · exact acts_of_stored rfl hcore hg
    · exact acts_of_stored_counted rfl hcore hg
  · exact acts_of_stored rfl hcore
      (fmHeader_of_frame s.sn ht hrole hmode hsf hwords (beq_iff_eq.2 hok) hwhole hfm hlen hroom)
  · exact acts_of_stored_reported rfl hcore (cpriSlip_of_full s.sn ht hrole hmode hstarted hfull)
  · exact (acts_of_stored_reported rfl hcore (cpriSlip_of_empty s.sn ht hrole hmode hstarted hempty)).weaken
      fun u ⟨hbecomes, hraised⟩ => ⟨⟨_, hbecomes, length_repeated_block _ _⟩, hraised⟩
  · exact exec_next_of_same rfl hcore (cpriSlip_of_between s.sn ht b hlow hhigh)
  · exact acts_of_stored_counted rfl hcore (bufSlip_of_empty ht hrole hmode hstarted hempty)
  · exact acts_of_stored_counted rfl hcore (bufSlip_of_full ht hrole hmode hstarted hsome hfull)
  · exact exec_next_of_same rfl hcore (bufSlip_of_between ht hsome hroom)
  · exact acts_of_stored_reported rfl hcore (rjSlip_of_full s.sn ht hrole hw hp hslip hfull)
  · exact exec_next_of_same rfl hcore (rjWindow_of_running s.sn hfrom hage)
  · exact rjWindowEnd_declares hcore hplesio hfrom hage
  · exact rjWindowEnd_clears hcore hplesio hfrom hage
  · exact rjWindowEnd_keeps hcore hplesio hfrom hage

end Sys2Proof.Machine
end

