-- ==== Sys2Proof/Proofs/CalendarSwitches.lean ====
section
/-! PROOFS. FlexE groups and the switch of a transmit calendar (R154): the switch that takes place and the one that is
undone differ in the calendar alone; what the group, its registers and the tributary of the descriptor become is said
once for both. -/

namespace Sys2Proof.Machine

/-! ### A group and its registers -/

@[simp] theorem flxOf_modFlx_same (d : Dev) (g : Nat) (f : FlexE → FlexE) : flxOf (modFlx d g f) g = f (flxOf d g) :=
  tget_tput_same _ _ _ _

theorem flxOf_modFlx_ne (d : Dev) {g h : Nat} (f : FlexE → FlexE) (hne : h ≠ g) : flxOf (modFlx d g f) h = flxOf d h :=
  tget_tput_ne _ _ _ hne

theorem flxOf_congr {a b : Dev} (h : b.cli.flexe = a.cli.flexe) (g : Nat) : flxOf b g = flxOf a g := by simp only [flxOf, h]

theorem evals_modFlx (d : Dev) (g : Nat) (f : FlexE → FlexE) : Evals [] [.cli] d (modFlx d g f) := .of_only (only_cli d _)

/-- MAP_FLX_GRP_STATUS of a group. -/
abbrev groupWord (g : Nat) : Nat := F.MAP_FLX_GRP_STATUS_TX_CAL.addr g

@[simp] theorem addr_rxCal (g : Nat) : F.MAP_FLX_GRP_STATUS_RX_CAL.addr g = groupWord g := rfl
@[simp] theorem addr_switching (g : Nat) : F.MAP_FLX_GRP_STATUS_SWITCHING.addr g = groupWord g := rfl

theorem groupWord_eq (g : Nat) : groupWord g = 0xe00004 + 0x100 * g := by
  simp only [Fld.addr, F.MAP_FLX_GRP_STATUS_TX_CAL]
  omega

/-- A step that leaves TWN_STATUS does not couple a twin. -/
theorem Evals.mirrors_of_link {as : List Nat} {ps : List Part} {a b : Dev} (h : Evals as ps a b)
    (hlink : F.TWN_STATUS_LINK.addr 0 ∉ as) : Machine.mirrors b = Machine.mirrors a := by
  have hswap : b.twin.swapHalf = a.twin.swapHalf := by rw [h.twin]; rfl
  have hdiverged : b.twin.diverged = a.twin.diverged := by rw [h.twin]; rfl
  simp only [Machine.mirrors, coupled, h.role, hswap, hdiverged, h.rdB hlink, h.rd (f := F.TWN_STATUS_COUPLING) hlink]

theorem link_not_mem_groupWord (g : Nat) : F.TWN_STATUS_LINK.addr 0 ∉ [groupWord g] := by
  simp only [List.mem_singleton, groupWord_eq]
  simp only [Fld.addr, F.TWN_STATUS_LINK]
  omega

/-! ### The tributary of the descriptor -/

theorem dropTrib_of_none (sn : SN) {tid : Nat} {d : Dev} (h : tribOf d tid = none) : dropTrib sn tid d = d := by
  simp only [dropTrib, h]

/-- Where `gone` holds the tributary `tid`, if it stands, leaves the device; groups and other tributaries stay. -/
theorem dropTribIf_spec (sn : SN) (tid : Nat) (gone : Prop) [Decidable gone] (d : Dev) {e : Dev}
    (he : e = if gone then dropTrib sn tid d else d) :
    Evals [] [.cli, .hif, .pm] d e ∧ e.cli.flexe = d.cli.flexe ∧ (∀ q, q ≠ tid → tribOf e q = tribOf d q) ∧
    tribOf e tid = if gone then none else tribOf d tid := by
  subst he
  by_cases hgone : gone
  · rw [if_pos hgone, if_pos hgone]
    cases ht : tribOf d tid with
    | none => rw [dropTrib_of_none sn ht]; exact ⟨.refl _ _ d, rfl, fun _ _ => rfl, ht⟩
    | some t =>
      obtain ⟨hev, drain, hcli⟩ := dropTrib_spec sn ht
      refine ⟨hev, by rw [hcli], fun q hq => ?_, ?_⟩
      · simp only [tribOf, hcli, tfind_tdel_ne _ hq]
      · simp only [tribOf, hcli, tfind_tdel_same]
  · rw [if_neg hgone, if_neg hgone]
    exact ⟨.refl _ _ d, rfl, fun _ _ => rfl, rfl⟩

/-! ### The end of a switch -/

/-- The switch of group `g` has ended: SWITCHING is clear, and the group is changed by `f`. -/
def switchEnded (g : Nat) (f : FlexE → FlexE) (d : Dev) : Dev := modFlx (wrB d F.MAP_FLX_GRP_STATUS_SWITCHING g false) g f

section
variable (g : Nat) (f : FlexE → FlexE) (d : Dev)

theorem evals_switchEnded : Evals [groupWord g] [.regs, .cli] d (switchEnded g f d) :=
  (Evals.refl _ _ d).wrB.next (evals_modFlx _ g f)

theorem rd_switchEnded : rd (switchEnded g f d) F.MAP_FLX_GRP_STATUS_SWITCHING g = 0 ∧
    rd (switchEnded g f d) F.MAP_FLX_GRP_STATUS_TX_CAL g = rd d F.MAP_FLX_GRP_STATUS_TX_CAL g :=
  ⟨rd_wrB_bit d (by decide) false, rd_wrB_apart d (by decide)⟩

theorem flxOf_switchEnded : flxOf (switchEnded g f d) g = f (flxOf d g) ∧ ∀ h, h ≠ g → flxOf (switchEnded g f d) h = flxOf d h :=
  ⟨flxOf_modFlx_same _ g f, fun _ hne => flxOf_modFlx_ne _ f hne⟩

end

/-- The other calendar transmits. -/
def calendarTurned (g : Nat) (d : Dev) : Dev := wrB d F.MAP_FLX_GRP_STATUS_TX_CAL g (!rdB d F.MAP_FLX_GRP_STATUS_TX_CAL g)

theorem rd_calendarTurned (g : Nat) (d : Dev) :
    rd (calendarTurned g d) F.MAP_FLX_GRP_STATUS_TX_CAL g = 1 - rd d F.MAP_FLX_GRP_STATUS_TX_CAL g := by
  have hbit : rd d F.MAP_FLX_GRP_STATUS_TX_CAL g < 2 := rd_lt d F.MAP_FLX_GRP_STATUS_TX_CAL g
  rw [calendarTurned, rd_wrB_bit d (by decide), rdB]
  interval_cases rd d F.MAP_FLX_GRP_STATUS_TX_CAL g <;> rfl

/-- The group once its switch has taken place. -/
def FlexE.switched (x : FlexE) : FlexE := { x with cr := false, caIn := false, sw := none, old := [] }

/-- The group once its switch is undone, where `onB` says that calendar B transmits. -/
def FlexE.undone (onB : Bool) (x : FlexE) : FlexE :=
  { (if onB then { x with txA := x.old } else { x with txB := x.old }) with cr := false, sw := none, old := [] }

section
variable {d : Dev} {g r uid op tid : Nat} (sn : SN) (hsw : (flxOf d g).sw = some (r, uid, op, tid))

theorem calSwitch_of_waiting (hca : (flxOf d g).caIn = false) (hwait : (flxOf d g).caWait = true) : calSwitch g sn d = d := by
  simp [calSwitch, hca, hwait]

include hsw

theorem calSwitch_of_ca (hca : (flxOf d g).caIn = true) (hmirror : mirrors d = false) : calSwitch g sn d =
    finish (if op = 0x21 then dropTrib sn tid (count (switchEnded g .switched (calendarTurned g d)) 4 g 7)
      else count (switchEnded g .switched (calendarTurned g d)) 4 g 7) r uid stOk 0 sn := by
  have hturned : Evals [groupWord g] [.regs, .cli, .hif, .pm] d (calendarTurned g d) := (Evals.refl _ _ d).wrB
  have hended := (hturned.next (evals_switchEnded g .switched _) (List.Subset.refl _)).next (evals_count _ 4 g 7 1)
  obtain ⟨hdrop, -⟩ := dropTribIf_spec sn tid (op = 0x21) (count (switchEnded g .switched (calendarTurned g d)) 4 g 7) rfl
  have hmirror' := ((hended.next hdrop).mirrors_of_link (link_not_mem_groupWord g)).trans hmirror
  rw [← finishM_of_no_mirror hmirror' r uid
    (rawOf (if op = 0x21 then dropTrib sn tid (count (switchEnded g .switched (calendarTurned g d)) 4 g 7)
      else count (switchEnded g .switched (calendarTurned g d)) 4 g 7) r uid) stOk 0 sn 0 []]
  simp only [calSwitch, hca, Bool.true_or, if_true, calDo, hsw]
  rfl

theorem calTimeout_of_no_ca (hca : (flxOf d g).caIn = false) : calTimeout g sn d =
    finish (if op = 0x20 then dropTrib sn tid (switchEnded g (.undone (rdB d F.MAP_FLX_GRP_STATUS_TX_CAL g)) d)
      else switchEnded g (.undone (rdB d F.MAP_FLX_GRP_STATUS_TX_CAL g)) d) r uid stAborted 3 sn := by
  simp only [calTimeout, hsw, hca]
  rfl

end

/-! ### What the host sees -/

theorem ActsR.weaken {as : List Nat} {ps : List Part} {c : Instr} {s : State} {f g : State → Prop} (h : ActsR as ps c s f)
    (hfg : ∀ u, f u → g u) : ActsR as ps c s g :=
  Acts.weaken h fun u ⟨hregs, hf⟩ => ⟨hregs, hfg u hf⟩

/-- The end of a switch whose descriptor completes: the registers and groups are those of `e`, and the tributary is gone
where `gone` holds. -/
theorem actsR_of_switchEnd {s : State} {c : Instr} {m : Dev → Dev} {e : Dev} {g r uid tid st det : Nat} {gone : Prop}
    [Decidable gone] (hexec : exec c s = core s m) (hcore : s.dev.pwr.core = true)
    (hm : m s.dev = finish (if gone then dropTrib s.sn tid e else e) r uid st det s.sn)
    (he : Evals [groupWord g] [.regs, .cli] s.dev e) (htribs : ∀ q, tribOf e q = tribOf s.dev q) :
    ActsR [groupWord g] [.cli, .hif, .pm] c s fun t =>
      t.dev.regs = e.regs ∧ t.dev.cli.flexe = e.cli.flexe ∧ Served s.dev t.dev r uid st det s.sn 0 ∧
      (∀ q, q ≠ tid → tribOf t.dev q = tribOf s.dev q) ∧ tribOf t.dev tid = if gone then none else tribOf s.dev tid := by
  obtain ⟨hdrop, hflexe, hne, hsame⟩ := dropTribIf_spec s.sn tid gone e rfl
  generalize (if gone then dropTrib s.sn tid e else e) = b at *
  have hb : Evals [groupWord g] [.regs, .cli, .hif, .pm] s.dev b := (he.mono (List.Subset.refl _)).next hdrop
  have hfin := only_finish b r uid st det s.sn 0
  refine acts_of_core hexec hcore hm ((hb.parts.trans hfin).mono (by simp)) ⟨?_, ?_, hflexe, ?_, fun q hq => ?_, ?_⟩
  · exact (hb.regs.trans (onlyRegs_of_eq [] rfl)).mono (by simp)
  · exact hdrop.parts .regs (by simp)
  · exact hb.served (served_finish b r uid st det s.sn 0)
  · exact (hne q hq).trans (htribs q)
  · rw [← htribs]; exact hsame

section
variable {s : State} {g : Fin 128} {r uid op tid : Nat} (hcore : s.dev.pwr.core = true)
  (hsw : (flxOf s.dev g).sw = some (r, uid, op, tid)) (hop : op = 0x20 ∨ op = 0x21)
include hcore hsw hop

theorem calendarSwitch_switches (hmirror : mirrors s.dev = false) (hca : (flxOf s.dev g).caIn = true) :
    ActsR [groupWord g] [.cli, .hif, .pm] (.calendarSwitch g) s fun t =>
      (∀ h, h ≠ g.val → flxOf t.dev h = flxOf s.dev h) ∧
      rd t.dev F.MAP_FLX_GRP_STATUS_TX_CAL g = 1 - rd s.dev F.MAP_FLX_GRP_STATUS_TX_CAL g ∧
      rd t.dev F.MAP_FLX_GRP_STATUS_SWITCHING g = 0 ∧
      flxOf t.dev g = { flxOf s.dev g with cr := false, caIn := false, sw := none, old := [] } ∧
      Served s.dev t.dev r uid 0 0 s.sn 0 ∧ (∀ q, q ≠ tid → tribOf t.dev q = tribOf s.dev q) ∧
      tribOf t.dev tid = if op = 0x20 then tribOf s.dev tid else none := by
  have hturned : Evals [groupWord g] [.regs, .cli] s.dev (calendarTurned g s.dev) := (Evals.refl _ _ s.dev).wrB
  have hended := (hturned.next (evals_switchEnded g .switched _) (List.Subset.refl _)).next (evals_count _ 4 g 7 1)
  refine (actsR_of_switchEnd rfl hcore (calSwitch_of_ca s.sn hsw hca hmirror) hended fun _ => rfl).weaken
    fun t ⟨hregs, hflexe, hserved, hne, hsame⟩ => ?_
  obtain ⟨hclear, hcal⟩ := rd_switchEnded g .switched (calendarTurned g s.dev)
  obtain ⟨hgroup, hothers⟩ := flxOf_switchEnded g .switched (calendarTurned g s.dev)
  refine ⟨fun h hh => (flxOf_congr hflexe h).trans (hothers h hh), (rd_congr hregs _ _).trans (hcal.trans (rd_calendarTurned g _)),
    (rd_congr hregs _ _).trans hclear, (flxOf_congr hflexe g).trans hgroup, hserved, hne, hsame.trans ?_⟩
  rcases hop with rfl | rfl <;> rfl

theorem calendarSwitchTimeout_undoes (hca : (flxOf s.dev g).caIn = false) :
    ActsR [groupWord g] [.cli, .hif, .pm] (.calendarSwitchTimeout g) s fun t =>
      (∀ h, h ≠ g.val → flxOf t.dev h = flxOf s.dev h) ∧
      rd t.dev F.MAP_FLX_GRP_STATUS_TX_CAL g = rd s.dev F.MAP_FLX_GRP_STATUS_TX_CAL g ∧
      rd t.dev F.MAP_FLX_GRP_STATUS_SWITCHING g = 0 ∧
      flxOf t.dev g = (if rd s.dev F.MAP_FLX_GRP_STATUS_TX_CAL g = 1
        then { flxOf s.dev g with txA := (flxOf s.dev g).old, cr := false, sw := none, old := [] }
        else { flxOf s.dev g with txB := (flxOf s.dev g).old, cr := false, sw := none, old := [] }) ∧
      Served s.dev t.dev r uid 0x13 3 s.sn 0 ∧ (∀ q, q ≠ tid → tribOf t.dev q = tribOf s.dev q) ∧
      tribOf t.dev tid = if op = 0x21 then tribOf s.dev tid else none := by
  refine (actsR_of_switchEnd rfl hcore (calTimeout_of_no_ca s.sn hsw hca) (evals_switchEnded g _ s.dev) fun _ => rfl).weaken
    fun t ⟨hregs, hflexe, hserved, hne, hsame⟩ => ?_
  obtain ⟨hclear, hcal⟩ := rd_switchEnded g (.undone (rdB s.dev F.MAP_FLX_GRP_STATUS_TX_CAL g)) s.dev
  obtain ⟨hgroup, hothers⟩ := flxOf_switchEnded g (.undone (rdB s.dev F.MAP_FLX_GRP_STATUS_TX_CAL g)) s.dev
  refine ⟨fun h hh => (flxOf_congr hflexe h).trans (hothers h hh), (rd_congr hregs _ _).trans hcal,
    (rd_congr hregs _ _).trans hclear, ((flxOf_congr hflexe g).trans hgroup).trans ?_, hserved, hne, hsame.trans ?_⟩
  · have hbit : rd s.dev F.MAP_FLX_GRP_STATUS_TX_CAL g < 2 := rd_lt s.dev F.MAP_FLX_GRP_STATUS_TX_CAL g
    rw [rdB]
    interval_cases rd s.dev F.MAP_FLX_GRP_STATUS_TX_CAL g <;> rfl
  · rcases hop with rfl | rfl <;> rfl

end

end Sys2Proof.Machine
end

