-- ==== Sys2Proof/Proofs/FlexEOverhead.lean ====
section
/-! PROOFS. The overhead frame that a PHY of a FlexE group receives (R151, R152, R157): its two comparisons, each of which may
declare or clear a client defect, what the group takes from it, and the sizes of the group's clients; and the statement O10. -/

namespace Sys2Proof.Machine

/-! ### What an evaluation keeps of the clients -/

/-- The FlexE groups are the same in `b`, and every tributary keeps its configuration and the judgement of its size. -/
structure ClientsKept (a b : Dev) : Prop where
  flexe : b.cli.flexe = a.cli.flexe
  tribs : ∀ tid t, tribOf a tid = some t → ∃ u, tribOf b tid = some u ∧ u.cfg = t.cfg ∧ u.sizeBad = t.sizeBad

namespace ClientsKept

variable {a b c : Dev}

theorem of_cli (hflexe : b.cli.flexe = a.cli.flexe) (htribs : b.cli.tribs = a.cli.tribs) : ClientsKept a b :=
  ⟨hflexe, fun tid t ht => ⟨t, by rw [← ht]; simp only [tribOf, htribs], rfl, rfl⟩⟩

theorem refl (a : Dev) : ClientsKept a a := of_cli rfl rfl

theorem trans (h : ClientsKept a b) (k : ClientsKept b c) : ClientsKept a c := by
  refine ⟨k.flexe.trans h.flexe, fun tid t ht => ?_⟩
  obtain ⟨u, hu, hcfg, hbad⟩ := h.tribs tid t ht
  obtain ⟨v, hv, hcfg', hbad'⟩ := k.tribs tid u hu
  exact ⟨v, hv, hcfg'.trans hcfg, hbad'.trans hbad⟩

theorem foldl {β : Type} {f : Dev → β → Dev} (h : ∀ d x, ClientsKept d (f d x)) (l : List β) (a : Dev) :
    ClientsKept a (l.foldl f a) := by
  induction l generalizing a with
  | nil => exact refl a
  | cons x l ih => exact (h a x).trans (ih (f a x))

end ClientsKept

theorem Trib.setMon_sizeBad (t : Trib) (k : Nat) (m : Mon) : (t.setMon k m).sizeBad = t.sizeBad := by
  simp only [Trib.setMon, apply_ite Trib.sizeBad, ite_self]

theorem clientsKept_monFollow (sn : SN) (tid k : Nat) (d : Dev) : ClientsKept d (monFollow sn tid k d) := by
  obtain hcli | ⟨t, m, ht, -, hcli⟩ := monFollow_cli sn tid k d
  · exact .of_cli (by rw [hcli]) (by rw [hcli])
  · refine ⟨by rw [hcli]; rfl, fun q u hu => ?_⟩
    by_cases hq : q = tid
    · subst hq
      obtain rfl : t = u := Option.some.inj (ht.symm.trans hu)
      exact ⟨_, (tribOf_congr hcli q).trans (tribOf_setTrib_same d q _), t.setMon_cfg k m, t.setMon_sizeBad k m⟩
    · exact ⟨u, ((tribOf_congr hcli q).trans (tribOf_setTrib_ne d _ hq)).trans hu, rfl, rfl⟩

theorem clientsKept_followAll (sn : SN) (ns : Nat) (d : Dev) : ClientsKept d (followAll sn ns d) := by
  have hfollow : ClientsKept d (tribsFollow sn d) :=
    .foldl (fun d tid => .foldl (fun d k => clientsKept_monFollow sn tid k d) _ d) _ d
  have hrest : (followAll sn ns d).cli = (tribsFollow sn d).cli := by
    rw [followAll, (evals_evalAll sn ns _).cli, (evals_candEval true sn _).cli]
  exact hfollow.trans (.of_cli (by rw [hrest]) (by rw [hrest]))

theorem clientsKept_clientEvaluated (sn : SN) (ns n : Nat) (d : Dev) : ClientsKept d (clientEvaluated sn ns n d) := by
  have hlanes := (evals_laneSteps sn d (clientLanes d n)).cli (by simp [laneParts])
  exact ClientsKept.trans (.of_cli (by rw [hlanes]) (by rw [hlanes])) (clientsKept_followAll sn ns _)

/-! ### Any change of a client defect -/

theorem setCdef_cli (sn : SN) (d : Dev) (key : Nat) (x : BitVec 8) : (setCdef sn d key x).cli = (cdefSet d key x).cli := by
  unfold setCdef
  dsimp only
  split
  · rfl
  · refine foldl_same (g := Dev.cli) (fun e c => ?_) _ _
    simp only [apply_ite Dev.cli, defEvent_cli, ite_self]

/-- The defects of a client once defect `c` is declared or cleared (Table 6-5). -/
def cdefNext (x : BitVec 8) (c : Nat) (on : Bool) : BitVec 8 :=
  if on then cEffective (x ||| BitVec.ofNat 8 (2 ^ c)) else x &&& ~~~BitVec.ofNat 8 (2 ^ c)

/-- The device with lane `n`'s client so changed, and what follows. -/
def cdefChanged (sn : SN) (ns n c : Nat) (on : Bool) (d : Dev) : Dev :=
  clientEvaluated sn ns n (setCdef sn d (clientKey d n) (cdefNext (cdefOf d n) c on))

section
variable (sn : SN) (ns : Nat) {n : Nat} (c : Nat) (on : Bool) {d : Dev}

theorem clientDefect_cases : clientDefect n c on ns sn d = d ∨ clientDefect n c on ns sn d = cdefChanged sn ns n c on d := by
  unfold clientDefect
  dsimp only
  split
  · exact .inl rfl
  · split
    · exact .inl rfl
    · exact .inr rfl

theorem clientDefect_declares {c} (hclient : isClient (persOf d n) = true) (hmode : cdefMode d n c = true)
    (hlane : (cdefLane d n).isSome = true) (hdown : clientDown d n = false)
    (hfree : (cdefOf d n).toNat &&& cSuppress.getD c 0 = 0) : clientDefect n c true ns sn d = cdefChanged sn ns n c true d := by
  have hhas : ¬ (!isClient (persOf d n) || !cdefMode d n c || (cdefLane d n).isNone) = true := by
    simpa [hclient, hmode, Option.isSome_iff_ne_none] using hlane
  have hcalls : ¬ (true && (clientDown d n || (cdefOf d n).toNat &&& cSuppress.getD c 0 != 0)) = true := by
    rw [hdown, hfree]
    decide
  exact (if_neg hhas).trans (if_neg hcalls)

theorem clientsKept_clientDefect : ClientsKept d (clientDefect n c on ns sn d) := by
  obtain h | h := clientDefect_cases sn ns c on <;> rw [h]
  · exact .refl d
  · exact ClientsKept.trans (.of_cli (by rw [setCdef_cli]; rfl) (by rw [setCdef_cli]; rfl)) (clientsKept_clientEvaluated sn ns n _)

variable (hn : n < 128)
include hn

theorem evals_clientEvaluated_of_lt (d : Dev) : Evals evalRegs statusParts d (clientEvaluated sn ns n d) := by
  unfold clientEvaluated
  exact (Evals.foldl (fun e m hm => evals_clientStep sn hn d hm e) d).next (evals_followAll sn ns _) followRegs_subset
    (by simp [statusParts])

theorem evals_cdefChanged : Evals evalRegs statusParts d (cdefChanged sn ns n c on d) := by
  have hset : Evals evalRegs statusParts d (setCdef sn d (clientKey d n) (cdefNext (cdefOf d n) c on)) :=
    (setCdef_frame sn d _ _).mono (List.nil_subset _) (by simp [statusParts])
  exact hset.trans (evals_clientEvaluated_of_lt sn ns hn _)

theorem evals_clientDefect : Evals evalRegs statusParts d (clientDefect n c on ns sn d) := by
  obtain h | h := clientDefect_cases sn ns c on <;> rw [h]
  · exact .refl _ _ d
  · exact evals_cdefChanged sn ns c on hn

theorem cdefOf_cdefChanged : cdefOf (cdefChanged sn ns n c on d) n = cdefNext (cdefOf d n) c on := by
  rw [cdefOf, (evals_cdefChanged sn ns c on hn).clientKey, cdefChanged, clientEvaluated_cdef, setCdef_cli]
  exact tget_tput_same _ _ _ _

theorem cdefOf_clientDefect : cdefOf (clientDefect n c on ns sn d) n = cdefOf d n ∨
    cdefOf (clientDefect n c on ns sn d) n = cdefNext (cdefOf d n) c on := by
  obtain h | h := clientDefect_cases sn ns c on <;> rw [h]
  · exact .inl rfl
  · exact .inr (cdefOf_cdefChanged sn ns c on hn)

end

/-! ### The defect of the group number among the client's defects (Table 6-5) -/

/-- The wrong group number is declared, and defect 3, which suppresses it, is not. -/
def GidBad (x : BitVec 8) : Prop := x.getLsbD 5 = true ∧ x.getLsbD 3 = false

theorem gidBad_cEffective {x : BitVec 8} (h : GidBad x) : GidBad (cEffective x) := by
  revert x
  unfold GidBad
  decide +kernel

theorem gidBad_declared {x : BitVec 8} (h : x.getLsbD 3 = false) : GidBad (cdefNext x 5 true) := by
  refine gidBad_cEffective ⟨?_, ?_⟩
  · simp
  · simpa using h

theorem GidBad.next {x : BitVec 8} (h : GidBad x) (on : Bool) : GidBad (cdefNext x 6 on) := by
  obtain ⟨hgid, hfree⟩ := h
  cases on with
  | true => exact gidBad_cEffective ⟨by simp_all, by simp_all⟩
  | false => exact ⟨by simp_all [cdefNext], by simp_all [cdefNext]⟩

/-! ### The comparisons -/

/-- Frames in a row whose compared field is the configured one, three at most. -/
theorem flxJudge_run (sn : SN) (ns n c : Nat) (same : Bool) (run : Nat) (d : Dev) :
    (flxJudge sn ns n c same run d).2 = if same = true then min 3 (run + 1) else 0 := by
  cases same with
  | false => rfl
  | true =>
    simp only [flxJudge, Bool.not_true, Bool.false_eq_true, if_false, if_true]
    split <;> simp only <;> omega

theorem flxJudge_cases (sn : SN) (ns n c : Nat) (same : Bool) (run : Nat) (d : Dev) :
    (flxJudge sn ns n c same run d).1 = d ∨ ∃ on, (flxJudge sn ns n c same run d).1 = clientDefect n c on ns sn d := by
  unfold flxJudge
  split
  · exact .inr ⟨true, rfl⟩
  · split
    · exact .inl rfl
    · exact .inr ⟨false, rfl⟩

section
variable (sn : SN) (ns : Nat) {n : Nat} (c : Nat) (same : Bool) (run : Nat) {d : Dev}

theorem clientsKept_flxJudge : ClientsKept d (flxJudge sn ns n c same run d).1 := by
  obtain h | ⟨on, h⟩ := flxJudge_cases sn ns n c same run d <;> rw [h]
  · exact .refl d
  · exact clientsKept_clientDefect sn ns c on

variable (hn : n < 128)
include hn

theorem evals_flxJudge : Evals evalRegs statusParts d (flxJudge sn ns n c same run d).1 := by
  obtain h | ⟨on, h⟩ := flxJudge_cases sn ns n c same run d <;> rw [h]
  · exact .refl _ _ d
  · exact evals_clientDefect sn ns c on hn

/-- The comparison of PHY number and map leaves the defect of the group number. -/
theorem GidBad.flxJudge (h : GidBad (cdefOf d n)) : GidBad (cdefOf (Machine.flxJudge sn ns n 6 same run d).1 n) := by
  obtain hjudge | ⟨on, hjudge⟩ := flxJudge_cases sn ns n 6 same run d <;> rw [hjudge]
  · exact h
  · obtain hcdef | hcdef := cdefOf_clientDefect sn ns 6 on hn <;> rw [hcdef]
    · exact h
    · exact h.next on

/-- A wrong group number is declared, unless a defect that suppresses it stands. -/
theorem gidBad_flxJudge (hmode : rd d F.MAP_LANE_CFG_MODE n = 3) (hpers : persOf d n = 5)
    (hlane : (cdefLane d n).isSome = true) (hdown : clientDown d n = false) (hfree : (cdefOf d n).getLsbD 3 = false) :
    GidBad (cdefOf (Machine.flxJudge sn ns n 5 false run d).1 n) := by
  have hbit : (cdefOf d n).toNat &&& 2 ^ 3 = 0 := by
    rw [Nat.and_two_pow, ← BitVec.getLsbD, hfree]
    rfl
  have hdeclared := clientDefect_declares (c := 5) sn ns (by rw [hpers]; rfl) (by simp [cdefMode, hmode]) hlane hdown hbit
  show GidBad (cdefOf (clientDefect n 5 true ns sn d) n)
  rw [hdeclared, cdefOf_cdefChanged sn ns 5 true hn]
  exact gidBad_declared hfree

end

/-! ### The sizes of a group's clients (R151) -/

/-- The tributary as the calendar received for group `g` judges its size. -/
def sized (d : Dev) (g : Nat) (t : Trib) : Trib :=
  if t.cfg.role = 1 ∧ isFlx d t.cfg = true ∧ t.cfg.grp = g then { t with sizeBad := rxSlots d g t.cfg.client != t.cfg.k } else t

/-- The size of one tributary is judged, and a difference that is new is reported and counted. -/
def sizeStep (sn : SN) (g : Nat) (d : Dev) (tid : Nat) : Dev :=
  match tribOf d tid with
  | none => d
  | some t =>
    if t.cfg.role ≠ 1 ∨ !isFlx d t.cfg ∨ t.cfg.grp ≠ g then d else
    let n := rxSlots d g t.cfg.client
    let bad := n != t.cfg.k
    let d := setTrib d tid { t with sizeBad := bad }
    if bad && !t.sizeBad then
      count (raise d { typ := 0x22, sn := sn, p0 := g, p1 := t.cfg.client, p2 := n, p3 := t.cfg.k }) 4 g 6
    else d

theorem flxSize_eq (sn : SN) (g : Nat) (d : Dev) : flxSize sn g d = (d.cli.tribs.map (·.1)).foldl (sizeStep sn g) d := rfl

section
variable (sn : SN) (g : Nat) (d : Dev) (tid : Nat)

/-- A tributary is judged where it stands: it becomes as `sized` says, and what else changes is a counter and an event. -/
theorem sizeStep_cases : (sizeStep sn g d tid = d ∧ ∀ t, tribOf d tid = some t → sized d g t = t) ∨
    ∃ t, tribOf d tid = some t ∧ (sizeStep sn g d tid = setTrib d tid (sized d g t) ∨
      ∃ e, sizeStep sn g d tid = count (raise (setTrib d tid (sized d g t)) e) 4 g 6) := by
  unfold sizeStep
  split
  · next hnone => exact .inl ⟨rfl, fun t ht => absurd (hnone.symm.trans ht) (by simp)⟩
  · next t ht =>
    split
    case isTrue hother =>
      refine .inl ⟨rfl, fun u hu => ?_⟩
      obtain rfl : t = u := Option.some.inj (ht.symm.trans hu)
      exact if_neg fun ⟨hrole, hflx, hgrp⟩ => by simp [hrole, hflx, hgrp] at hother
    case isFalse hown =>
      have hsized : sized d g t = { t with sizeBad := rxSlots d g t.cfg.client != t.cfg.k } := if_pos (by simpa using hown)
      refine .inr ⟨t, ht, ?_⟩
      rw [hsized]
      dsimp only
      split
      · exact .inr ⟨_, rfl⟩
      · exact .inl rfl

theorem evals_sizeStep : Evals [] [.cli, .hif] d (sizeStep sn g d tid) := by
  have hset (t : Trib) : Evals [] [.cli, .hif] d (setTrib d tid t) := (evals_setTrib d tid t).mono
  obtain ⟨h, -⟩ | ⟨t, -, h | ⟨e, h⟩⟩ := sizeStep_cases sn g d tid <;> rw [h]
  · exact .refl _ _ d
  · exact hset _
  · exact (hset _).raise.next (evals_count _ _ _ _ _)

theorem sizeStep_groups : ((sizeStep sn g d tid).cli.flexe, (sizeStep sn g d tid).cli.cdef) = (d.cli.flexe, d.cli.cdef) := by
  obtain ⟨h, -⟩ | ⟨t, -, h | ⟨e, h⟩⟩ := sizeStep_cases sn g d tid <;> rw [h] <;> rfl

theorem tribOf_sizeStep_same {t : Trib} (ht : tribOf d tid = some t) : tribOf (sizeStep sn g d tid) tid = some (sized d g t) := by
  obtain ⟨h, hsame⟩ | ⟨u, hu, h⟩ := sizeStep_cases sn g d tid
  · rw [h, ht, hsame t ht]
  · obtain rfl : t = u := Option.some.inj (ht.symm.trans hu)
    obtain h | ⟨e, h⟩ := h <;> rw [h] <;> exact tribOf_setTrib_same d tid _

theorem tribOf_sizeStep_ne {q : Nat} (hq : q ≠ tid) : tribOf (sizeStep sn g d tid) q = tribOf d q := by
  obtain ⟨h, -⟩ | ⟨t, -, h | ⟨e, h⟩⟩ := sizeStep_cases sn g d tid <;> rw [h]
  all_goals exact tribOf_setTrib_ne d _ hq

end

theorem sized_congr {a b : Dev} (hregs : b.regs = a.regs) (hflexe : b.cli.flexe = a.cli.flexe) (g : Nat) (t : Trib) :
    sized b g t = sized a g t := by
  have hflx : isFlx b t.cfg = isFlx a t.cfg := by simp only [isFlx, modeOf, rd_congr hregs]
  have hslots : rxSlots b g t.cfg.client = rxSlots a g t.cfg.client := by
    rw [rxSlots, rxSlots, rdB, rdB, rd_congr hregs, flxOf_congr hflexe]
  rw [sized, sized, hflx, hslots]

theorem sized_sized (d : Dev) (g : Nat) (t : Trib) : sized d g (sized d g t) = sized d g t := by
  by_cases hown : t.cfg.role = 1 ∧ isFlx d t.cfg = true ∧ t.cfg.grp = g
  · simp [sized, hown]
  · simp only [sized, if_neg hown]

theorem tribOf_sizeSteps (sn : SN) (g tid : Nat) (l : List Nat) {d : Dev} {t : Trib} (ht : tribOf d tid = some t) :
    tribOf (l.foldl (sizeStep sn g) d) tid = some (if tid ∈ l then sized d g t else t) := by
  induction l generalizing d t with
  | nil => exact ht
  | cons q l ih =>
    have hsized := sized_congr ((evals_sizeStep sn g d q).parts .regs (by simp)) (congrArg Prod.fst (sizeStep_groups sn g d q)) g
    rw [List.foldl_cons]
    by_cases hq : tid = q
    · subst hq
      rw [ih (tribOf_sizeStep_same sn g d tid ht), hsized, sized_sized]
      simp
    · rw [ih ((tribOf_sizeStep_ne sn g d q hq).trans ht), hsized]
      simp [hq]

theorem mem_keys_of_tfind {α : Type} {m : Tbl α} {q : Nat} {v : α} (h : tfind m q = some v) : q ∈ m.map (·.1) := by
  induction m with
  | nil => cases h
  | cons e m ih =>
    obtain ⟨k, w⟩ := e
    rw [List.map_cons, List.mem_cons]
    by_cases hk : k = q
    · exact .inl hk.symm
    · exact .inr (ih (by rwa [tfind, if_neg hk] at h))

section
variable (sn : SN) (g : Nat) (d : Dev)

theorem tribOf_flxSize {tid : Nat} {t : Trib} (ht : tribOf d tid = some t) : tribOf (flxSize sn g d) tid = some (sized d g t) := by
  rw [flxSize_eq, tribOf_sizeSteps sn g tid _ ht, if_pos (mem_keys_of_tfind ht)]

theorem evals_flxSize : Evals [] [.cli, .hif] d (flxSize sn g d) := .foldl (fun d tid _ => evals_sizeStep sn g d tid) d

theorem flxSize_groups : (flxSize sn g d).cli.flexe = d.cli.flexe ∧ (flxSize sn g d).cli.cdef = d.cli.cdef :=
  Prod.mk.inj (foldl_same (g := fun d : Dev => (d.cli.flexe, d.cli.cdef)) (sizeStep_groups sn g) _ d)

end

/-! ### The frame in its stages -/

/-- The frame's group number, and its PHY number and map, are those configured. -/
def gidSame (d : Dev) (g : Nat) (o : FlxOh) : Bool := o.group.toNat == rd d F.MAP_FLX_GRP_CFG_GRP_NUM g
def phySame (d : Dev) (g : Nat) (o : FlxOh) : Bool :=
  o.phy.toNat == rd d F.MAP_LANE_FLX_PHY_NUM o.lane && o.map.map (·.toNat) == flxPhys d g

/-- The device and the run once the group number is compared, and once PHY number and map are too. -/
def gidJudged (sn : SN) (g : Nat) (o : FlxOh) (d : Dev) : Dev × Nat :=
  flxJudge sn o.ns o.lane 5 (gidSame d g o) (flxOf d g).gidOk d
def phyJudged (sn : SN) (g : Nat) (o : FlxOh) (d : Dev) : Dev × Nat :=
  flxJudge sn o.ns o.lane 6 (phySame d g o) (flxOf d g).phyOk (gidJudged sn g o d).1

/-- The group takes calendars, CR and CA from the frame, with the runs of its comparisons. -/
def FlexE.taken (o : FlxOh) (gidOk phyOk : Nat) (x : FlexE) : FlexE :=
  { x with rxA := o.calA, rxB := o.calB, caOut := o.cr, caIn := o.ca || (x.caIn && x.sw.isSome), gidOk := gidOk, phyOk := phyOk }

/-- The group so changed, and the calendar in use. -/
def frameStored (g : Nat) (o : FlxOh) (gidOk phyOk : Nat) (d : Dev) : Dev :=
  wrB (modFlx d g (.taken o gidOk phyOk)) F.MAP_FLX_GRP_STATUS_RX_CAL g o.inUse

section
variable {d : Dev} {g : Nat} {o : FlxOh} (sn : SN)

theorem flexeFrame_of_other (h : rd d F.MAP_FLX_GRP_CFG_EN g = 0 ∨ o.lane.val ∉ flxLanes d g) : flexeFrame g o sn d = d := by
  refine if_pos ?_
  simpa [rdB] using h

theorem flexeFrame_of_member (hen : rd d F.MAP_FLX_GRP_CFG_EN g = 1) (hmem : o.lane.val ∈ flxLanes d g) : flexeFrame g o sn d =
    flxSize sn g (frameStored g o (gidJudged sn g o d).2 (phyJudged sn g o d).2 (phyJudged sn g o d).1) := by
  refine if_neg ?_
  simp [rdB, hen, hmem]

end

/-- A lane of a group is a FlexE PHY. -/
theorem flexe_of_mem_flxLanes {d : Dev} {g n : Nat} (h : n ∈ flxLanes d g) : rd d F.MAP_LANE_CFG_MODE n = 3 ∧ persOf d n = 5 := by
  simp only [flxLanes, List.mem_flatMap, List.mem_filter, Bool.and_eq_true, beq_iff_eq] at h
  obtain ⟨p, -, ⟨-, ⟨hmode, hpers⟩, -⟩, -⟩ := h
  exact ⟨hmode, hpers⟩

section
variable (g : Nat) (o : FlxOh) (gidOk phyOk : Nat) (d : Dev)

theorem evals_frameStored : Evals [groupWord g] [.regs, .cli] d (frameStored g o gidOk phyOk d) :=
  ((evals_modFlx d g _).mono).wrB

theorem flxOf_frameStored : flxOf (frameStored g o gidOk phyOk d) g = (flxOf d g).taken o gidOk phyOk ∧
    ∀ h, h ≠ g → flxOf (frameStored g o gidOk phyOk d) h = flxOf d h :=
  ⟨flxOf_modFlx_same d g _, fun _ hne => flxOf_modFlx_ne d _ hne⟩

theorem rd_frameStored : rdB (frameStored g o gidOk phyOk d) F.MAP_FLX_GRP_STATUS_RX_CAL g = o.inUse ∧
    rd (frameStored g o gidOk phyOk d) F.MAP_FLX_GRP_STATUS_TX_CAL g = rd d F.MAP_FLX_GRP_STATUS_TX_CAL g := by
  refine ⟨?_, rd_wrB_apart _ (by decide)⟩
  rw [rdB, frameStored, rd_wrB_bit _ (by decide)]
  cases o.inUse <;> rfl

/-- MAP_FLX_GRP_STATUS holds no mode of a lane. -/
theorem isFlx_frameStored (c : TribCfg) : isFlx (frameStored g o gidOk phyOk d) c = isFlx d c := by
  have hword : F.MAP_LANE_CFG_MODE.addr c.lane ∉ [groupWord g] := by
    simp only [List.mem_singleton, groupWord_eq]
    simp only [Fld.addr, F.MAP_LANE_CFG_MODE]
    omega
  simp only [isFlx, modeOf, (evals_frameStored g o gidOk phyOk d).rd hword]

/-- The slots that the frame gives a client. -/
theorem rxSlots_frameStored (cl : Nat) : rxSlots (frameStored g o gidOk phyOk d) g cl =
    ((if o.inUse then o.calB else o.calA).filter fun y => y.toNat == cl).length := by
  obtain ⟨hcal, -⟩ := rd_frameStored g o gidOk phyOk d
  obtain ⟨hgroup, -⟩ := flxOf_frameStored g o gidOk phyOk d
  rw [rxSlots, hcal, hgroup]
  rfl

end

/-- A client's lanes depend on the lanes' own words. -/
theorem clientKey_congr {a b : Dev} {n : Nat} (hn : n < 128)
    (h : ∀ f ∈ [F.LNE_CFG_PERS, F.MAP_LANE_CFG_MODE, F.MAP_LANE_CFG_WIDTH, F.MAP_LANE_FLX_GRP], ∀ m < 128, rd b f m = rd a f m) :
    clientKey b n = clientKey a n := by
  simp only [List.forall_mem_cons] at h
  obtain ⟨hpers, hmode, hwidth, hgrp, -⟩ := h
  have hfilter : ((List.range 128).filter fun m => rd b F.MAP_LANE_CFG_MODE m == 3 && persOf b m == 5 &&
        rd b F.MAP_LANE_FLX_GRP m == rd b F.MAP_LANE_FLX_GRP n) =
      (List.range 128).filter fun m => rd a F.MAP_LANE_CFG_MODE m == 3 && persOf a m == 5 &&
        rd a F.MAP_LANE_FLX_GRP m == rd a F.MAP_LANE_FLX_GRP n :=
    List.filter_congr fun m hm => by
      have hlt := List.mem_range.1 hm
      simp only [persOf, hpers m hlt, hmode m hlt, hgrp m hlt, hgrp n hn]
  simp only [clientKey, clientLanes, hfilter, hmode n hn, hwidth n hn]

/-- What a group's word and the sizes change leaves the defects of a client. -/
theorem cdefOf_congr {a b : Dev} {ps : List Part} {g n : Nat} (h : Evals [groupWord g] ps a b) (hcdef : b.cli.cdef = a.cli.cdef)
    (hn : n < 128) : cdefOf b n = cdefOf a n := by
  have hkey : clientKey b n = clientKey a n := clientKey_congr hn fun f hf m hm => h.rd fun hmem => by
    rw [List.mem_singleton, groupWord_eq] at hmem
    simp only [List.mem_cons, List.not_mem_nil, or_false] at hf
    rcases hf with rfl | rfl | rfl | rfl
    all_goals
      simp only [Fld.addr, F.LNE_CFG_PERS, F.MAP_LANE_CFG_MODE, F.MAP_LANE_CFG_WIDTH, F.MAP_LANE_FLX_GRP] at hmem
      omega
  simp only [cdefOf, hkey, hcdef]

/-! ### What the host sees -/

theorem groupWord_not_mem (g : Nat) : groupWord g ∉ evalRegs := fun hmem => by
  rw [groupWord_eq, evalRegs_eq, List.mem_append] at hmem
  rcases hmem with hmem | hmem
  · obtain ⟨m, hm, heq⟩ := List.mem_map.1 hmem
    rw [addr_status] at heq
    have := List.mem_range.1 hm
    omega
  · have := addr_of_mem_followRegs hmem
    omega

section
variable {d : Dev} {g : Nat} {o : FlxOh} (sn : SN)

theorem evals_phyJudged : Evals evalRegs statusParts d (phyJudged sn g o d).1 :=
  (evals_flxJudge sn o.ns 5 _ _ o.lane.isLt).trans (evals_flxJudge sn o.ns 6 _ _ o.lane.isLt)

theorem clientsKept_phyJudged : ClientsKept d (phyJudged sn g o d).1 :=
  (clientsKept_flxJudge sn o.ns 5 _ _).trans (clientsKept_flxJudge sn o.ns 6 _ _)

theorem gidBad_phyJudged (hmem : o.lane.val ∈ flxLanes d g) (hwrong : gidSame d g o = false)
    (hlane : (cdefLane d o.lane).isSome = true) (hdown : clientDown d o.lane = false) (hfree : (cdefOf d o.lane).getLsbD 3 = false) :
    GidBad (cdefOf (phyJudged sn g o d).1 o.lane) := by
  obtain ⟨hmode, hpers⟩ := flexe_of_mem_flxLanes hmem
  refine GidBad.flxJudge sn o.ns _ _ o.lane.isLt ?_
  rw [gidJudged, hwrong]
  exact gidBad_flxJudge sn o.ns _ o.lane.isLt hmode hpers hlane hdown hfree

end

/-- A frame received on a lane of an enabled group. -/
theorem flexeOverheadFrame_taken {s : State} {g : Fin 128} {o : FlxOh} (hcore : s.dev.pwr.core = true)
    (hen : rd s.dev F.MAP_FLX_GRP_CFG_EN g = 1) (hmem : o.lane.val ∈ flxLanes s.dev g) :
    ActsR (groupWord g :: evalRegs) evalParts (.flexeOverheadFrame g o) s fun t =>
      (∀ h, h ≠ g.val → flxOf t.dev h = flxOf s.dev h) ∧ rdB t.dev F.MAP_FLX_GRP_STATUS_RX_CAL g = o.inUse ∧
      rd t.dev F.MAP_FLX_GRP_STATUS_TX_CAL g = rd s.dev F.MAP_FLX_GRP_STATUS_TX_CAL g ∧
      flxOf t.dev g = (flxOf s.dev g).taken o (if gidSame s.dev g o = true then min 3 ((flxOf s.dev g).gidOk + 1) else 0)
        (if phySame s.dev g o = true then min 3 ((flxOf s.dev g).phyOk + 1) else 0) ∧
      (gidSame s.dev g o = false → (cdefLane s.dev o.lane).isSome = true → clientDown s.dev o.lane = false →
        (cdefOf s.dev o.lane).getLsbD 3 = false → (cdefOf t.dev o.lane).getLsbD 5 = true) ∧
      ∀ tid t₀, tribOf s.dev tid = some t₀ → ∃ t₁, tribOf t.dev tid = some t₁ ∧ t₁.cfg = t₀.cfg ∧
        t₁.sizeBad = if t₀.cfg.role = 1 ∧ isFlx s.dev t₀.cfg = true ∧ t₀.cfg.grp = g.val then
          ((if o.inUse then o.calB else o.calA).filter fun y => y.toNat == t₀.cfg.client).length != t₀.cfg.k else t₀.sizeBad := by
  have hg := flexeFrame_of_member s.sn hen hmem
  have hgid := flxJudge_run s.sn o.ns o.lane 5 (gidSame s.dev g o) (flxOf s.dev g).gidOk s.dev
  have hphy := flxJudge_run s.sn o.ns o.lane 6 (phySame s.dev g o) (flxOf s.dev g).phyOk (gidJudged s.sn g o s.dev).1
  rw [← gidJudged] at hgid
  rw [← phyJudged] at hphy
  have hjudged := evals_phyJudged (d := s.dev) (g := g) (o := o) s.sn
  have hkept := clientsKept_phyJudged (d := s.dev) (g := g) (o := o) s.sn
  have hbad := gidBad_phyJudged s.sn hmem
  rw [hgid, hphy] at hg
  generalize (phyJudged s.sn g o s.dev).1 = b at *
  generalize (if gidSame s.dev g o = true then min 3 ((flxOf s.dev g).gidOk + 1) else 0) = gidOk at *
  generalize (if phySame s.dev g o = true then min 3 ((flxOf s.dev g).phyOk + 1) else 0) = phyOk at *
  have hstored := evals_frameStored g o gidOk phyOk b
  obtain ⟨hgroup, hothers⟩ := flxOf_frameStored g o gidOk phyOk b
  obtain ⟨hrx, htx⟩ := rd_frameStored g o gidOk phyOk b
  have hsize := evals_flxSize s.sn g (frameStored g o gidOk phyOk b)
  obtain ⟨hflexe, hcdef⟩ := flxSize_groups s.sn g (frameStored g o gidOk phyOk b)
  have hbefore : Evals (groupWord g :: evalRegs) (.regs :: evalParts) s.dev b := hjudged.mono (by simp) statusParts_subset
  have hall := (hbefore.next hstored (by simp) (by simp [evalParts])).next hsize (by simp) (by simp [evalParts])
  have hword : Evals [groupWord g] [.regs, .cli, .hif] b _ := (hstored.mono (List.Subset.refl _)).next hsize
  refine actsR_of_core rfl hcore hg hall ⟨fun h hh => ?_, ?_, ?_, ?_, fun hwrong hlane hdown hfree => ?_, fun tid t₀ ht₀ => ?_⟩
  · rw [flxOf_congr hflexe, hothers h hh, flxOf_congr hkept.flexe]
  · exact (hsize.rdB List.not_mem_nil).trans hrx
  · exact ((hsize.rd List.not_mem_nil).trans htx).trans (hjudged.rd (groupWord_not_mem g))
  · rw [flxOf_congr hflexe, hgroup, flxOf_congr hkept.flexe]
  · rw [cdefOf_congr hword hcdef o.lane.isLt]
    exact (hbad hwrong hlane hdown hfree).1
  · obtain ⟨u, hu, hcfg, hsame⟩ := hkept.tribs tid t₀ ht₀
    have hflx : isFlx (frameStored g o gidOk phyOk b) u.cfg = isFlx s.dev t₀.cfg := by
      rw [isFlx_frameStored, hcfg, isFlx, modeOf, hjudged.rd_quiet rfl]
      rfl
    refine ⟨_, tribOf_flxSize s.sn g _ hu, ?_, ?_⟩
    · rw [← hcfg, sized]
      split <;> rfl
    · rw [sized, hflx, rxSlots_frameStored, hcfg, ← hsame]
      split <;> rfl

/-- Settles O10: a frame taken or passed over, and the two ends of a switch. -/
theorem flexECalendars : Obligations.FlexECalendars := by
  unfold Obligations.FlexECalendars
  refine fun s g hcore hmirror => ⟨fun o => ⟨fun hen hmem => ?_, fun hother => ?_⟩,
    fun r uid op tid hsw hop => ⟨fun hca => ?_, fun hca hwait => ?_, fun hca => ?_⟩⟩
  · exact (flexeOverheadFrame_taken hcore hen hmem).weaken fun t ⟨hothers, hrx, htx, hgroup, hbad, htribs⟩ =>
      ⟨hothers, hrx, htx, hgroup, fun hwrong _ => hbad hwrong, htribs⟩
  · exact exec_next_of_same rfl hcore (flexeFrame_of_other s.sn hother)
  · exact calendarSwitch_switches hcore hsw hop hmirror hca
  · exact exec_next_of_same rfl hcore (calSwitch_of_waiting s.sn hca hwait)
  · exact calendarSwitchTimeout_undoes hcore hsw hop hca

end Sys2Proof.Machine
end

