-- ==== Sys2Proof/Proofs/ProtectionGroups.lean ====
section
/-! PROOFS. Protection groups as PG_CREATE and PG_DELETE make and end them (R246, R249): a group stored, the evaluation of
a 1+1 group in which nothing is raised, held or pending, and the two commands as one equation per case. -/

namespace Sys2Proof.Machine

/-! ### A group stored -/

section
variable (d : Dev) {pgid q : Nat} (g : Group)

@[simp] theorem groupOf_setGroup_same : groupOf (setGroup d pgid g) pgid = some g := tfind_tins_same _ _ _
theorem groupOf_setGroup_ne (hq : q ≠ pgid) : groupOf (setGroup d pgid g) q = groupOf d q := tfind_tins_ne _ _ hq

@[simp] theorem mirrors_setGroup : mirrors (setGroup d pgid g) = mirrors d := rfl

end

section
variable {s : State} {c : Instr} {m : Dev → Dev} {pgid : Nat} {g : Group} (hexec : exec c s = core s m)
  (hcore : s.dev.pwr.core = true)
include hexec hcore

/-- A group is stored, and nothing else happens. -/
theorem acts_of_group (hm : m s.dev = setGroup s.dev pgid g) : Acts [.prot] c s fun t => groupOf t.dev pgid = some g :=
  acts_of_core hexec hcore hm (evals_setGroup s.dev pgid g).parts (groupOf_setGroup_same s.dev g)

/-- A group is stored, and one event reports it. -/
theorem acts_of_group_reported {e : Ev} (hm : m s.dev = raise (setGroup s.dev pgid g) e) :
    Acts [.prot, .hif] c s fun t => groupOf t.dev pgid = some g ∧ Raised s.dev t.dev [e] :=
  have hstored : Evals [] [.prot, .hif] s.dev (setGroup s.dev pgid g) := (evals_setGroup s.dev pgid g).mono
  acts_of_core hexec hcore hm (hstored.raise (e := e)).parts ⟨groupOf_setGroup_same s.dev g, raised_raise _ e⟩

end

/-! ### Inputs that are not raised (R253, R254) -/

/-- A hold-off that is asked for takes a sweep at least. -/
theorem holdOffSweeps_ne_zero {ms : Nat} (h : ms ≠ 0) : holdOffSweeps ms ≠ 0 := by
  simp only [holdOffSweeps]
  omega

/-- With a hold-off no input is raised before its timer ends. -/
theorem stepInput_down {d : Dev} {g : Group} {i : Input} (hhold : g.cfg.holdOff ≠ 0) (hdown : i.up = false)
    (pgid : Nat) (sn : SN) (k : Nat) : (stepInput d g pgid sn k i).up = false := by
  simp only [stepInput, if_neg (holdOffSweeps_ne_zero hhold), apply_ite Input.up, hdown, ite_self]

section
variable {g : Group} (hdown : ∀ i ∈ g.inputs, i.up = false)
include hdown

theorem raised_of_down (c : Cond) (ks : List Nat) : raised g c ks = none := by
  refine List.find?_eq_none.2 fun k _ => ?_
  cases hi : g.inputs[k]? with
  | none => simp
  | some i => simp [hdown i (List.mem_of_getElem? hi)]

theorem topBase_of_down (hcmd : g.cmd = none) : topBase g = none := by
  simp [topBase, raised_of_down hdown, hcmd]

theorem wantMi_of_down (sig : Nat) : wantMi g sig = false := by
  cases hi : g.inputs[1 - sig]? with
  | none => simp [wantMi, hi]
  | some i => simp [wantMi, hi, hdown i (List.mem_of_getElem? hi)]

end

/-! ### The evaluation of an idle group -/

/-- The group has no PSC lane, and no entry to queue (R267). -/
theorem putGroup_of_no_psc {g : Group} (h : pscTxLane g = none) (d : Dev) (pgid : Nat) (sn : SN) :
    putGroup d pgid g sn = setGroup d pgid { g with ent := entOf g } := by
  simp only [putGroup, h]

theorem sendDecision_of_no_mirror {d : Dev} (h : mirrors d = false) (pgid : Nat) (g : Group) (sig : Nat) (x : SN) (req : Nat) :
    sendDecision d pgid g sig x req = d := by
  simp [sendDecision, h]

/-- A 1+1 unidirectional group on signal 0 in which no input is raised, no command held, no timer of WTR running and no
decision pending. -/
structure Group.Idle (g : Group) : Prop where
  typ : g.cfg.typ = 0
  holdOff : g.cfg.holdOff ≠ 0
  down : ∀ i ∈ g.inputs, i.up = false
  selected : g.r = 0
  mi : g.mi = false
  pend : g.pend = none
  pendMi : g.pendMi = none
  cmd : g.cmd = none
  wtr : g.wtr = none
  lastReq : g.lastReq = 0
  del : g.del = none

/-- The group with its inputs following their sources (R252). -/
def Group.stepped (g : Group) (d : Dev) (pgid : Nat) (sn : SN) : Group :=
  { g with inputs := g.inputs.mapIdx fun k i => stepInput d g pgid sn k i }

/-- What an evaluation makes of an idle group: its inputs follow their sources, and its request is NR. -/
def Group.idled (g : Group) (d : Dev) (pgid : Nat) (sn : SN) : Group :=
  { g.stepped d pgid sn with wtr := none, lastReq := 0, lastSig := 0, ent := (0, 0, 0) }

section
variable {g : Group} (h : g.Idle)
include h

/-- The request of an idle group is NR on signal 0 (R256). -/
theorem Group.Idle.localTop (sn : SN) : Machine.localTop g sn = (none, 0, 0) := by
  simp [Machine.localTop, topBase_of_down h.down h.cmd, projSig, h.pend, h.typ, h.selected, h.wtr, h.lastReq]

/-- A hold-off keeps the group idle, whatever its sources hold. -/
theorem Group.Idle.stepped (d : Dev) (pgid : Nat) (sn : SN) : (g.stepped d pgid sn).Idle := by
  refine { h with down := fun i hi => ?_ }
  obtain ⟨k, hk, rfl⟩ := List.mem_mapIdx.1 hi
  exact stepInput_down h.holdOff (h.down _ (List.getElem_mem hk)) pgid sn k

/-- The evaluation of an idle group decides nothing. -/
theorem evalGroup_of_idle {d : Dev} {pgid : Nat} (hgroup : groupOf d pgid = some g) (hdecides : decides d = true)
    (hmirror : mirrors d = false) (sn : SN) (ns : Nat) : evalGroup sn ns d pgid = setGroup d pgid (g.idled d pgid sn) := by
  unfold evalGroup
  split
  · next hnone => exact absurd (hgroup.symm.trans hnone) (by simp)
  next g' hg' =>
  obtain rfl : g' = g := Option.some.inj (hg'.symm.trans hgroup)
  rw [if_neg (by simp [h.del])]
  extract_lets was g₁ lt g₂ tg x repl new g₃ mi miNow g₄ sel put when' sent
  have h₁ : g₁.Idle := h.stepped d pgid sn
  have hlt : lt = (none, 0, 0) := h₁.localTop sn
  have hnr : g₂ = { g₁ with wtr := none, lastReq := 0, lastSig := 0 } := by simp only [g₂, hlt]
  have h₂ : g₂.Idle := hnr ▸ { h₁ with wtr := rfl, lastReq := rfl }
  have htarget : tg = (0, 0) := by simp [tg, targetOfGroup, Group.bidir, h₂.typ, hlt]
  have hproj : projSig g₂ = 0 := by simp [projSig, h₂.pend, h₂.typ, h₂.selected]
  have hnew : new = false := by simp [new, htarget, hproj]
  have h₃ : g₃ = g₂ := if_neg (by simp [hnew])
  have hmi : mi = false := by simp only [mi, h₃, wantMi_of_down h₂.down]
  have hnow : miNow = false := by simp only [miNow, h₃, h₂.pendMi, h₂.mi]
  have h₄ : g₄ = g₂ := (if_neg (by simp [hmi, hnow, hnew])).trans h₃
  have hsel : sel = g₂ := by simp [sel, laneSelect, h₄, h₂.typ]
  have hput : put = setGroup d pgid (g'.idled d pgid sn) := by
    have hpsc : pscTxLane g₂ = none := by simp [pscTxLane, h₂.typ]
    have hlast : g₂.lastSig = 0 := by rw [hnr]
    have hent : entOf g₂ = (0, 0, 0) := by simp [entOf, h₂.lastReq, h₂.typ, h₂.selected, hlast]
    simp only [put, hsel, putGroup_of_no_psc hpsc, hent]
    rw [hnr]
    rfl
  have hmute : mirrors put = false := by rw [hput, mirrors_setGroup, hmirror]
  have hsent : sent = put := by simp only [sent, sendDecision_of_no_mirror hmute, ite_self]
  rw [if_neg (by simp [hdecides]), hsent, sendDecision_of_no_mirror hmute, ite_self, hput]

end

/-! ### PG_CREATE (R246) -/

/-- A PG_CREATE that may stand but for its PGID: a 1+1 unidirectional group of one grain, not errorless, whose grain can be
switched, has a protect source of its own and belongs to no group. -/
structure AsksGrainGroup (d : Dev) (raw : BitVec 512) : Prop where
  reserved : reservedAt raw = none
  typ : dF raw 16 17 2 = 0
  errorless : dB raw 16 19 = false
  d16 : dF raw 16 22 7 = 0
  trib : dB raw 32 19 = false
  holdOffMax : dF raw 24 0 14 ≤ 10000
  holdOff : dF raw 24 0 14 ≠ 0
  wtrMax : dF raw 24 14 10 ≤ 720
  grain : isGrain (dF raw 36 0 20) = true
  lane : portOf (dF raw 36 0 20) < 128
  range : unitInRange d (dF raw 36 0 20) = true
  free : inGroup d (dF raw 36 0 20) = false
  enabled : egrEn (egrAt (active d) (dF raw 36 0 20)) = true
  protect : wCs (egrAt (active d) (dF raw 36 0 20)) ≠ pCs (egrAt (active d) (dF raw 36 0 20))

section
variable {d : Dev} {raw : BitVec 512} (h : AsksGrainGroup d raw)
include h

theorem AsksGrainGroup.grainProbs : Machine.grainProbs d 36 (dF raw 36 0 20) = [] := by
  simp [Machine.grainProbs, probIf, h.grain, h.lane, h.range, h.free, h.enabled, h.protect]

theorem AsksGrainGroup.timers : ¬ (10000 < dF raw 24 0 14 ∨ 720 < dF raw 24 14 10) :=
  not_or.2 ⟨h.holdOffMax.not_gt, h.wtrMax.not_gt⟩

end

/-- The configuration that such a PG_CREATE gives its group. -/
def grainGroupCfg (raw : BitVec 512) : GroupCfg :=
  { typ := 0, revert := dB raw 16 20, auto := dB raw 16 21, farPgid := dF raw 20 0 17, holdOff := dF raw 24 0 14,
    wtr := dF raw 24 14 10, unit := [dF raw 36 0 20] }

/-- The group before its first evaluation: two inputs that hold what their sources do. -/
def newGrainGroup (d : Dev) (raw : BitVec 512) : Group :=
  { cfg := grainGroupCfg raw
    inputs := (List.range 2).map fun k => { src := defectSource d { cfg := grainGroupCfg raw } k } }

theorem newGrainGroup_idle (d : Dev) {raw : BitVec 512} (h : dF raw 24 0 14 ≠ 0) : (newGrainGroup d raw).Idle :=
  { typ := rfl, holdOff := h, down := by simp [newGrainGroup], selected := rfl, mi := rfl, pend := rfl, pendMi := rfl,
    cmd := rfl, wtr := rfl, lastReq := rfl, del := rfl }

/-- The device with the group that such a PG_CREATE has made. -/
def grainGroupMade (sn : SN) (raw : BitVec 512) (d : Dev) : Dev :=
  let new := setGroup d (dF raw 16 0 17) (newGrainGroup d raw)
  setGroup new (dF raw 16 0 17) ((newGrainGroup d raw).idled new (dF raw 16 0 17) sn)

/-- The group that stands then has selected signal 0, and nothing is held or pending. -/
theorem groupOf_grainGroupMade_same (sn : SN) (raw : BitVec 512) (d : Dev) :
    ∃ g, groupOf (grainGroupMade sn raw d) (dF raw 16 0 17) = some g ∧ g.cfg = grainGroupCfg raw ∧ g.r = 0 ∧ g.cmd = none ∧
      g.pend = none ∧ g.pendMi = none :=
  ⟨_, groupOf_setGroup_same _ _, rfl, rfl, rfl, rfl, rfl⟩

theorem groupOf_grainGroupMade_ne (sn : SN) (raw : BitVec 512) (d : Dev) {q : Nat} (hq : q ≠ dF raw 16 0 17) :
    groupOf (grainGroupMade sn raw d) q = groupOf d q :=
  (groupOf_setGroup_ne _ _ hq).trans (groupOf_setGroup_ne _ _ hq)

theorem evals_grainGroupMade (sn : SN) (raw : BitVec 512) (d : Dev) : Evals [] [.prot] d (grainGroupMade sn raw d) :=
  (evals_setGroup d _ _).next (evals_setGroup _ _ _)

section
variable {d : Dev} {r : Nat} {e : QEnt} {list : List W32} {sn : SN} {ns : Nat} (he : servedBy d r 0x10 = some e)
  (hask : AsksGrainGroup d e.raw)
include he hask

/-- A PGID in use is the first problem of a PG_CREATE that may stand otherwise (Table 13-11). -/
theorem servePgCreate_of_inUse (huse : (groupOf d (dF e.raw 16 0 17)).isSome = true) :
    servePgCreate r list ns sn d = badDesc d r e.uid sn (16, 4) := by
  simp [servePgCreate, he, reservedProb_of_none hask.reserved, hask.typ, hask.errorless, hask.d16, hask.trib, huse,
    hask.grainProbs, hask.timers, probIf, firstProb]

/-- The group is made, evaluated, and idle. -/
theorem servePgCreate_of_ok (hnew : groupOf d (dF e.raw 16 0 17) = none) (hdecides : decides d = true)
    (hmirror : mirrors d = false) :
    servePgCreate r list ns sn d = finish (grainGroupMade sn e.raw d) r e.uid stOk 0 sn := by
  have heval : evalGroup sn ns (setGroup d (dF e.raw 16 0 17) (newGrainGroup d e.raw)) (dF e.raw 16 0 17) =
      grainGroupMade sn e.raw d :=
    evalGroup_of_idle (newGrainGroup_idle d hask.holdOff) (groupOf_setGroup_same d _) hdecides hmirror sn ns
  have hmute : mirrors (grainGroupMade sn e.raw d) = false := hmirror
  obtain ⟨g, hgroup, -, hsel, -, hpend, hmi⟩ := groupOf_grainGroupMade_same sn e.raw d
  simp only [newGrainGroup, grainGroupCfg] at heval
  simp [servePgCreate, he, reservedProb_of_none hask.reserved, hask.typ, hask.errorless, hask.d16, hask.trib, hnew,
    hask.grainProbs, hask.timers, probIf, firstProb, Group.n, heval, hgroup, hpend, hmi, hsel, finishM_of_no_mirror hmute]

end

/-! ### PG_DELETE (R249) -/

/-- A group whose deletion descriptor `uid` of ring `r` has begun: signal 0 and MI 0 are decided for sweep `x`, and nothing
else is held or waits. -/
def Group.deleting (g : Group) (x : SN) (r uid : Nat) : Group :=
  { g with
    wait := [], timed := none, cmd := none, wtr := none, lsel := none, pend := some ⟨0, x, 0⟩, pendMi := some (false, x),
    del := some (r, uid) }

theorem servePgDelete_of_ok {d : Dev} {r : Nat} {e : QEnt} {g : Group} (he : servedBy d r 0x11 = some e)
    (hres : reservedAt e.raw = none) (hgroup : groupOf d (dF e.raw 16 0 17) = some g) (hdel : g.del = none) (hwait : g.wait = [])
    (htimed : g.timed = none) (hmirror : mirrors d = false) (sn : SN) (ns : Nat) :
    servePgDelete r ns sn d = take (setGroup d (dF e.raw 16 0 17) (g.deleting (applyAt d sn ns) r e.uid)) r e.uid := by
  simp [servePgDelete, he, reservedProb_of_none hres, hgroup, hdel, hwait, htimed, probIf, firstProb,
    sendDecision_of_no_mirror hmirror, Group.deleting]

/-! ### What the host sees -/

section
variable {s : State} {r : Fin 16} {e : QEnt} {list : List W32} (ns : Nat) (hcore : s.dev.pwr.core = true)
include hcore

section
variable (he : servedBy s.dev r 0x10 = some e) (hask : AsksGrainGroup s.dev e.raw)
include he hask

theorem pgCreate_makes (hnew : groupOf s.dev (dF e.raw 16 0 17) = none) (hdecides : decides s.dev = true)
    (hmirror : mirrors s.dev = false) : Acts [.prot, .hif] (.pgCreate r list ns) s fun t =>
      (∀ q, q ≠ dF e.raw 16 0 17 → groupOf t.dev q = groupOf s.dev q) ∧ Served s.dev t.dev r e.uid 0 0 s.sn 0 ∧
      ∃ g, groupOf t.dev (dF e.raw 16 0 17) = some g ∧ g.cfg = grainGroupCfg e.raw ∧ g.r = 0 ∧ g.cmd = none ∧ g.pend = none := by
  have hmade := evals_grainGroupMade s.sn e.raw s.dev
  obtain ⟨g, hgroup, hcfg, hsel, hcmd, hpend, -⟩ := groupOf_grainGroupMade_same s.sn e.raw s.dev
  exact acts_of_core rfl hcore (servePgCreate_of_ok he hask hnew hdecides hmirror)
    (hmade.parts.trans (only_finish _ r e.uid stOk 0 s.sn 0))
    ⟨fun _ hq => groupOf_grainGroupMade_ne s.sn e.raw s.dev hq, hmade.served (served_finish _ r e.uid stOk 0 s.sn 0),
      g, hgroup, hcfg, hsel, hcmd, hpend⟩

theorem pgCreate_inUse (huse : (groupOf s.dev (dF e.raw 16 0 17)).isSome = true) :
    Acts [.hif] (.pgCreate r list ns) s fun t => Served s.dev t.dev r e.uid 0x12 (16 + 256 * 4) s.sn 0 :=
  acts_of_core rfl hcore (servePgCreate_of_inUse he hask huse) (only_finish s.dev r e.uid _ _ s.sn 0)
    (served_badDesc s.dev r e.uid s.sn (16, 4))

end

theorem pgDelete_begins {g : Group} (he : servedBy s.dev r 0x11 = some e) (hres : reservedAt e.raw = none)
    (hgroup : groupOf s.dev (dF e.raw 16 0 17) = some g) (hdel : g.del = none) (hwait : g.wait = []) (htimed : g.timed = none)
    (hmirror : mirrors s.dev = false) : Acts [.prot, .hif] (.pgDelete r ns) s fun t => Taken s.dev t.dev r e.uid ∧
      groupOf t.dev (dF e.raw 16 0 17) = some (g.deleting (applyAt s.dev s.sn ns) r e.uid) :=
  acts_of_core rfl hcore (servePgDelete_of_ok he hres hgroup hdel hwait htimed hmirror s.sn ns)
    ((evals_setGroup s.dev _ _).parts.trans (only_take _ r e.uid))
    ⟨taken_take (setGroup s.dev _ _) r e.uid, groupOf_setGroup_same s.dev _⟩

end

end Sys2Proof.Machine
end

