-- ==== Sys2Proof/Proofs/LoessPool.lean ====
section
/-! PROOFS. The blocks of the Loess pool (R167, R168, R180): the registers that follow them, and their return once no word
of an ended allocation is held. -/

namespace Sys2Proof.Machine

/-! ### The registers of the pool (R180) -/

/-- MAP_LOESS_QSTAT of the quadrants. -/
def poolRegs : List Nat := (List.range 4).map fun q => F.MAP_LOESS_QSTAT_FREE_BLK.addr q

theorem addr_mem_poolRegs {q : Nat} (hq : q < 4) : F.MAP_LOESS_QSTAT_FREE_BLK.addr q ∈ poolRegs :=
  List.mem_map.2 ⟨q, List.mem_range.2 hq, rfl⟩

theorem link_not_mem_poolRegs : F.TWN_STATUS_LINK.addr 0 ∉ poolRegs := by decide

theorem freeBlk_addr_ne {p q : Nat} (h : p ≠ q) : F.MAP_LOESS_QSTAT_FREE_BLK.addr p ≠ F.MAP_LOESS_QSTAT_FREE_BLK.addr q := by
  simp only [Fld.addr, F.MAP_LOESS_QSTAT_FREE_BLK]
  omega

/-- FREE_BLK of quadrant `q` shows the blocks that the pool has left there. -/
def ShowsFree (d : Dev) (q : Nat) : Prop :=
  rd d F.MAP_LOESS_QSTAT_FREE_BLK q = (1228 - quadBlocks d.cli.loess q) % 2 ^ 13

section
variable (sn : SN) (d : Dev)

theorem evals_quadStat {q : Nat} (hq : q < 4) : Evals poolRegs [.regs, .cli, .hif] d (quadStat sn d q) := by
  have hword := addr_mem_poolRegs hq
  unfold quadStat
  extract_lets free d₁ d₂ th low was cli d₃
  have h₁ : Evals poolRegs [.regs, .cli, .hif] d d₁ := (Evals.refl _ _ d).wr hword
  have h₂ : Evals poolRegs [.regs, .cli, .hif] d d₂ := .ite (fun _ => h₁.wr hword) fun _ => h₁
  have h₃ : Evals poolRegs [.regs, .cli, .hif] d d₃ := h₂.next (.of_only (only_cli d₂ _))
  exact .ite (fun _ => h₃.raise) fun _ => h₃

theorem quadStat_loess (q : Nat) : (quadStat sn d q).cli.loess = d.cli.loess := by
  unfold quadStat
  extract_lets free d₁ d₂ th low was cli d₃
  have hcli : d₂.cli = d.cli := by simp only [d₂, d₁, apply_ite Dev.cli, wr_cli, ite_self]
  rw [apply_ite Dev.cli, raise_cli, ite_self, ← hcli]

theorem rd_quadStat (p q : Nat) : rd (quadStat sn d q) F.MAP_LOESS_QSTAT_FREE_BLK p =
    rd (wr d F.MAP_LOESS_QSTAT_FREE_BLK q (1228 - quadBlocks d.cli.loess q)) F.MAP_LOESS_QSTAT_FREE_BLK p := by
  unfold quadStat
  extract_lets free d₁ d₂ th low was cli d₃
  have hmin : rd d₂ F.MAP_LOESS_QSTAT_FREE_BLK p = rd d₁ F.MAP_LOESS_QSTAT_FREE_BLK p := by
    simp only [d₂]
    split
    · exact rd_wr_bits _ _ _ _ _ _ (by decide)
    · rfl
  rw [← hmin]
  split <;> rfl

theorem showsFree_quadStat (q : Nat) : ShowsFree (quadStat sn d q) q := by
  rw [ShowsFree, rd_quadStat, quadStat_loess, rd_wr_same _ _ _ _ (by decide)]
  rfl

end

theorem ShowsFree.quadStat {d : Dev} {p : Nat} (h : ShowsFree d p) (sn : SN) (q : Nat) : ShowsFree (quadStat sn d q) p := by
  by_cases hpq : p = q
  · exact hpq ▸ showsFree_quadStat sn d p
  · rw [ShowsFree, rd_quadStat, quadStat_loess, rd_wr_addr _ _ _ _ _ _ (freeBlk_addr_ne hpq)]
    exact h

section
variable (sn : SN)

theorem ShowsFree.quadStats {d : Dev} {p : Nat} (h : ShowsFree d p) (l : List Nat) :
    ShowsFree (l.foldl (Machine.quadStat sn) d) p := by
  induction l generalizing d with
  | nil => exact h
  | cons q l ih => exact ih (h.quadStat sn q)

/-- After the quadrants of `l` were brought up to date each of them shows what is left. -/
theorem showsFree_quadStats {l : List Nat} {d : Dev} {p : Nat} (hp : p ∈ l) : ShowsFree (l.foldl (quadStat sn) d) p := by
  induction l generalizing d with
  | nil => exact absurd hp List.not_mem_nil
  | cons q l ih =>
    rcases List.mem_cons.1 hp with rfl | hmem
    · exact (showsFree_quadStat sn d p).quadStats sn l
    · exact ih hmem

theorem quadStats_loess (l : List Nat) (d : Dev) : (l.foldl (quadStat sn) d).cli.loess = d.cli.loess :=
  foldl_same (g := fun d : Dev => d.cli.loess) (fun d q => quadStat_loess sn d q) l d

end

/-! ### BLOCK_RETURN (R168) -/

theorem Alloc.lt_of_mem_quads {a : Alloc} {q : Nat} (h : q ∈ a.quads) : q < 4 := by
  have hmem := List.mem_of_mem_filter h
  simp only [List.mem_cons, List.not_mem_nil, or_false] at hmem
  omega

/-- The pool without the allocation `a`, its registers brought up to date. -/
def blocksReturned (sn : SN) (a : Alloc) (d : Dev) : Dev :=
  a.quads.foldl (quadStat sn) { d with cli := { d.cli with loess := d.cli.loess.erase a } }

section
variable (sn : SN) (a : Alloc) (d : Dev)

theorem evals_blocksReturned : Evals poolRegs [.regs, .cli, .hif] d (blocksReturned sn a d) :=
  Evals.trans (Evals.mono (.of_only (only_cli d _))) (.foldl (fun d _ hq => evals_quadStat sn d (Alloc.lt_of_mem_quads hq)) _)

theorem blocksReturned_loess : (blocksReturned sn a d).cli.loess = d.cli.loess.erase a := quadStats_loess sn a.quads _

theorem showsFree_blocksReturned {q : Nat} (hq : q ∈ a.quads) : ShowsFree (blocksReturned sn a d) q := showsFree_quadStats sn hq

end

/-- What the standby does once the blocks of a mirrored descriptor have returned: the descriptor leaves the mirror's queue,
and what was applied is acknowledged (R178, R307). -/
def mirrorReturned (uid : Nat) (d : Dev) : Dev :=
  let q := modRing d mirrorRing fun x => { x with q := x.q.filter fun e => e.uid != uid }
  sendAck { q with twin := { q.twin with cfgWait := q.twin.cfgWait.filter fun x => x.2 != uid } }

theorem only_modRing (d : Dev) (r : Nat) (f : Ring → Ring) : Only [.hif] d (modRing d r f) := by
  intro p hp; cases p <;> simp_all [Part.same]
theorem only_twin (d : Dev) (x : Twin) : Only [.twin] d { d with twin := x } := by
  intro p hp; cases p <;> simp_all [Part.same]

theorem only_mirrorReturned (uid : Nat) (d : Dev) : Only [.hif, .twin, .out, .twin] d (mirrorReturned uid d) :=
  ((only_modRing d mirrorRing _).trans (only_twin _ _)).trans (evals_twinSend _ _ _).parts

theorem mirrorReturned_cfgWait (uid : Nat) (d : Dev) :
    (mirrorReturned uid d).twin.cfgWait = d.twin.cfgWait.filter fun x => x.2 != uid := by
  unfold mirrorReturned sendAck
  dsimp only
  rw [(evals_twinSend _ _ _).twin]
  rfl

section
variable {d : Dev} {owner : Nat} {a : Alloc} {w : Nat × Nat} (sn : SN)
  (hfind : d.cli.loess.find? (fun a => a.owner == owner && a.ended) = some a)
include hfind

theorem blockReturn_of_held (hheld : d.cli.drain.any (fun x => x.2.1 == owner) = true) : blockReturn owner sn d = d := by
  simp only [blockReturn, hfind, hheld, if_true]

section
variable (hfree : d.cli.drain.any (fun x => x.2.1 == owner) = false) (hby : a.by' = some w)
include hfree hby

theorem blockReturn_of_host (hw : w.1 ≠ mirrorRing) (hmirror : mirrors d = false) :
    blockReturn owner sn d = finish (blocksReturned sn a d) w.1 w.2 stOk 0 sn := by
  have hmute := ((evals_blocksReturned sn a d).mirrors_of_link link_not_mem_poolRegs).trans hmirror
  rw [← finishM_of_no_mirror hmute w.1 w.2 (rawOf (blocksReturned sn a d) w.1 w.2) stOk 0 sn 0 []]
  simp only [blockReturn, hfind, hfree, hby, if_neg hw, Bool.false_eq_true, if_false, blocksReturned]

theorem blockReturn_of_mirrored (hw : w.1 = mirrorRing) :
    blockReturn owner sn d = mirrorReturned w.2 (blocksReturned sn a d) := by
  simp only [blockReturn, hfind, hfree, hby, if_pos hw, Bool.false_eq_true, if_false, blocksReturned, mirrorReturned]

end

end

/-! ### What the host sees -/

/-- Between `a` and `b` the blocks of `x` have returned: the pool holds no such allocation, and FREE_BLK shows it. -/
def BlocksBack (x : Alloc) (a b : Dev) : Prop :=
  b.cli.loess = a.cli.loess.erase x ∧
  ∀ q ∈ x.quads, rd b F.MAP_LOESS_QSTAT_FREE_BLK q = (1228 - quadBlocks b.cli.loess q) % 2 ^ 13

theorem blocksBack_of_same {x : Alloc} {sn : SN} {d b : Dev} (hregs : b.regs = (blocksReturned sn x d).regs)
    (hcli : b.cli = (blocksReturned sn x d).cli) : BlocksBack x d b :=
  ⟨by rw [hcli, blocksReturned_loess], fun q hq => by rw [rd_congr hregs, hcli]; exact showsFree_blocksReturned sn x d hq⟩

section
variable {s : State} {owner : Nat} {a : Alloc} {w : Nat × Nat} (hcore : s.dev.pwr.core = true)
  (hfind : s.dev.cli.loess.find? (fun a => a.owner == owner && a.ended) = some a)
include hcore hfind

theorem blockReturn_waits (hheld : s.dev.cli.drain.any (fun x => x.2.1 == owner) = true) :
    exec (.blockReturn owner) s = .next s :=
  exec_next_of_same rfl hcore (blockReturn_of_held s.sn hfind hheld)

section
variable (hfree : s.dev.cli.drain.any (fun x => x.2.1 == owner) = false) (hby : a.by' = some w)
include hfree hby

theorem blockReturn_serves (hw : w.1 ≠ mirrorRing) (hmirror : mirrors s.dev = false) :
    ActsR poolRegs [.cli, .hif] (.blockReturn owner) s fun t =>
      BlocksBack a s.dev t.dev ∧ Served s.dev t.dev w.1 w.2 0 0 s.sn 0 := by
  have hback := evals_blocksReturned s.sn a s.dev
  have hfin := only_finish (blocksReturned s.sn a s.dev) w.1 w.2 stOk 0 s.sn 0
  refine acts_of_core rfl hcore (blockReturn_of_host s.sn hfind hfree hby hw hmirror) ((hback.parts.trans hfin).mono (by simp))
    ⟨(hback.regs.trans (onlyRegs_of_eq [] rfl)).mono (by simp), blocksBack_of_same (sn := s.sn) rfl rfl, ?_⟩
  exact hback.served (served_finish _ w.1 w.2 stOk 0 s.sn 0)

theorem blockReturn_acknowledges (hw : w.1 = mirrorRing) :
    ActsR poolRegs [.cli, .hif, .twin, .out] (.blockReturn owner) s fun t =>
      BlocksBack a s.dev t.dev ∧ t.dev.twin.cfgWait = s.dev.twin.cfgWait.filter fun x => x.2 != w.2 := by
  have hback := evals_blocksReturned s.sn a s.dev
  have hlast := only_mirrorReturned w.2 (blocksReturned s.sn a s.dev)
  have hregs : (mirrorReturned w.2 (blocksReturned s.sn a s.dev)).regs = _ := hlast .regs (by simp)
  have hcli : (mirrorReturned w.2 (blocksReturned s.sn a s.dev)).cli = _ := hlast .cli (by simp)
  refine acts_of_core rfl hcore (blockReturn_of_mirrored s.sn hfind hfree hby hw) ((hback.parts.trans hlast).mono (by simp))
    ⟨(hback.regs.trans (onlyRegs_of_eq [] hregs)).mono (by simp), blocksBack_of_same hregs hcli, ?_⟩
  rw [mirrorReturned_cfgWait, hback.twin]
  rfl

end

end

end Sys2Proof.Machine
end

