-- ==== Sys2Proof/Proofs/LoessAlignment.lean ====
section
/-! PROOFS. Alignment in Loess (R171, R174, R176, R177): a client or a copy that acquires, the offset of an errorless pair
and its loss, each command as one equation per case. -/

namespace Sys2Proof.Machine

/-! ### The budget (R171) -/

/-- A skew of two lanes that leaves less than the margin within the budget acquires nothing. -/
theorem acquire_over_budget {x y : Nat} {lo hi : Int} {d16 m : Nat} (hle : lo ≤ hi)
    (hover : (d16 : Int) * 1024 < hi - lo + 100 * m) (d : Dev) : acquire d [(x, lo), (y, hi)] d16 m = none := by
  have hwide : ¬ hi + 100 * (m : Int) - lo ≤ 1024 * d16 := by omega
  simp [acquire, hle.not_gt, max_eq_right hle, hwide]

/-! ### Clients (R174) -/

/-- The arrivals of an allocation's lanes, given in ns, as `acquire` takes them. -/
def Alloc.arrivals (a : Alloc) (l : List Nat) : List (Nat × Int) :=
  ((a.blk.map (·.1)).zip l).map fun x => (x.1, 10 * (x.2 : Int))

/-- The client of lane `n` aligned as `al`. -/
def clientAligned (d : Dev) (n : Nat) (al : Align) : Dev := { d with cli := { d.cli with lanesAl := tins d.cli.lanesAl n al } }

section
variable {d : Dev} {n : Nat} {a : Alloc} {prev arr : List Nat} (sn : SN) (k : Nat)
  (hfind : d.cli.loess.find? (fun a => a.owner == clientOwner n && !a.ended) = some a)
include hfind

/-- Measurements that differ, or a skew beyond the budget, leave a client as it is. -/
theorem loessAligned_client_waits
    (h : measureOk d (a.arrivals prev) (a.arrivals arr) = false ∨ acquire d (a.arrivals arr) a.d16 a.m = none) :
    loessAligned n k true prev arr sn d = d := by
  simp only [Alloc.arrivals] at h
  simp only [loessAligned, hfind, if_true]
  split
  · rfl
  · next hgo =>
    have hacquire := h.resolve_left fun hbad => hgo (by simp [hbad])
    rw [hacquire]

theorem loessAligned_client {y : Nat × Int} (hopen : tfind d.cli.lanesAl n = none)
    (hup : ∀ x ∈ a.blk, dLos d x.1 = false ∧ dLol d x.1 = false) (hlen : arr.length = a.blk.length)
    (hok : measureOk d (a.arrivals prev) (a.arrivals arr) = true) (hacquire : acquire d (a.arrivals arr) a.d16 a.m = some y) :
    loessAligned n k true prev arr sn d =
      raise (clientAligned d n { h := y.1, rel := y.2, s := 0, n := sn })
        { typ := 0x30, sn := sn, p0 := n, p1 := 1, p2 := y.1 } := by
  have hlanes : (a.blk.map (·.1)).any (fun n => dLos d n || dLol d n) = false := by
    simpa only [List.any_eq_false, List.forall_mem_map, Bool.or_eq_true, not_or, Bool.not_eq_true] using hup
  simp only [Alloc.arrivals] at hok hacquire
  simp [loessAligned, hfind, hopen, hlanes, hlen, hok, hacquire, clientAligned]

end

/-! ### Copies (R171) -/

theorem loessAligned_copy {d : Dev} {tid k : Nat} {t : Trib} {a : Align} (ht : tribOf d tid = some t) (hrole : t.cfg.role = 0)
    (hmulti : copyMulti d t k = true) (hopen : t.al k = none)
    (hup : ∀ n ∈ copyLanes d t k, effCond d n ≠ .sf ∧ rd d F.FRM_RX_STATUS_SN_LOCK (subst d n) = 1) {sn : SN}
    (hacquire : acquireCopy d sn t k = some a) (prev arr : List Nat) :
    loessAligned tid k false prev arr sn d =
      raise (setTrib d tid (t.setAl k (some a))) { typ := 0x30, sn := sn, p0 := tid, p1 := 2 * k, p2 := a.h } := by
  have hlanes : ((copyLanes d t k).any fun n => effCond d n == .sf || !rdB d F.FRM_RX_STATUS_SN_LOCK (subst d n)) = false := by
    refine List.any_eq_false.2 fun n hn => ?_
    obtain ⟨hcond, hlock⟩ := hup n hn
    simp [hcond, rdB, hlock]
  simp [loessAligned, ht, hrole, hmulti, hopen, hlanes, hacquire]

/-! ### Errorless pairs (R176, R177) -/

/-- The offsets that have qualified, as the run of each and its place. -/
def Group.qualified (g : Group) : List (Nat × Nat) := g.pairRun.zipIdx.filter fun x => decide (4 ≤ x.1)

section
variable {d : Dev} {pgid : Nat} {g : Group} (sn : SN) (hgroup : groupOf d pgid = some g)
include hgroup

section
variable (hon : g.pair ≠ .off) (hopen : g.pair ≠ .aligned)
include hon hopen

theorem pairAligned_of_none (hnone : g.qualified = []) : pairAligned pgid sn d = d := by
  simp only [Group.qualified] at hnone
  simp only [pairAligned, hgroup, hon, hopen, hnone, or_self, if_false]

theorem pairAligned_of_several (hmany : 2 ≤ g.qualified.length) :
    pairAligned pgid sn d = setGroup d pgid { g with pair := .ambiguous } := by
  simp only [Group.qualified] at hmany
  simp only [pairAligned, hgroup, hon, hopen, or_self, if_false]
  split
  · next h => simp [h] at hmany
  · next h => simp [h] at hmany
  · rfl

/-- The pair aligned at `off`, whose newest corresponding sweeps held are `y.2.1` and `y.2.2`: what they precede has left. -/
def Group.aligned (g : Group) (off : Int) (y : Int × SN × SN) : Group :=
  { g with
    pair := .aligned, pairDiff := y.1, pairOff := off, pairRun := [], pairBad := 0
    heldW := g.heldW.filter fun e => snFuture e.s y.2.1
    heldP := g.heldP.filter fun e => snFuture e.s y.2.2 }

theorem pairAligned_of_single {c i : Nat} {y : Int × SN × SN} (hone : g.qualified = [(c, i)])
    (hgap : pairGap g ((i : Int) - pairK g) = some y) (hfits : y.1.natAbs ≤ g.cfg.d16 * 1024) :
    pairAligned pgid sn d = raise (setGroup d pgid (g.aligned ((i : Int) - pairK g) y))
      { typ := 0x31, sn := sn, p0 := pgid, p1 := y.1.natAbs / 10, p2 := if 0 < y.1 then 0 else 1 } := by
  simp only [Group.qualified] at hone
  simp only [pairAligned, hgroup, hon, hopen, hone, hgap, hfits.not_gt, or_self, if_false, Group.aligned]

end

theorem pairLost_of_good (hcontent : g.pairBad < 16) (hfits : g.pairDiff.natAbs ≤ g.cfg.d16 * 1024) :
    pairLost pgid sn d = d := by
  simp [pairLost, hgroup, hcontent.not_ge, hfits.not_gt]

theorem pairLost_of_bad (hpair : g.pair = .aligned) (hbad : 16 ≤ g.pairBad ∨ g.cfg.d16 * 1024 < g.pairDiff.natAbs) :
    pairLost pgid sn d =
      raise (setGroup d pgid { g with pair := .search, heldW := [], heldP := [], pairRun := [], pairBad := 0 })
        { typ := 0x32, sn := sn, p0 := pgid, p1 := if 16 ≤ g.pairBad then 1 else 0 } := by
  simp [pairLost, hgroup, hpair, hbad, Bool.toNat, Bool.cond_decide]

end

/-! ### What the host sees -/

section
variable {s : State} (hcore : s.dev.pwr.core = true)
include hcore

theorem loessAligned_aligns_client {tid : BitVec 19} {k : Fin 2} {prev arr : List Nat} {a : Alloc} {y : Nat × Int}
    (hfind : s.dev.cli.loess.find? (fun a => a.owner == clientOwner tid.toNat && !a.ended) = some a)
    (hopen : tfind s.dev.cli.lanesAl tid.toNat = none) (hup : ∀ x ∈ a.blk, dLos s.dev x.1 = false ∧ dLol s.dev x.1 = false)
    (hlen : arr.length = a.blk.length) (hok : measureOk s.dev (a.arrivals prev) (a.arrivals arr) = true)
    (hacquire : acquire s.dev (a.arrivals arr) a.d16 a.m = some y) :
    Acts [.cli, .hif] (.loessAligned tid k true ⟨prev, arr⟩) s fun t =>
      tfind t.dev.cli.lanesAl tid.toNat = some { h := y.1, rel := y.2, s := 0, n := s.sn } ∧ t.dev.cli.loess = s.dev.cli.loess ∧
      Raised s.dev t.dev [{ typ := 0x30, sn := s.sn, p0 := tid.toNat, p1 := 1, p2 := y.1 }] :=
  acts_of_core rfl hcore (loessAligned_client s.sn k hfind hopen hup hlen hok hacquire)
    ((only_cli s.dev _).trans (only_raise _ _)) ⟨tfind_tins_same _ _ _, rfl, raised_raise _ _⟩

theorem loessAligned_aligns_copy {tid : BitVec 19} {k : Fin 2} {t : Trib} {a : Align} (ht : tribOf s.dev tid.toNat = some t)
    (hrole : t.cfg.role = 0) (hmulti : copyMulti s.dev t k = true) (hopen : t.al k = none)
    (hup : ∀ n ∈ copyLanes s.dev t k, effCond s.dev n ≠ .sf ∧ rd s.dev F.FRM_RX_STATUS_SN_LOCK (subst s.dev n) = 1)
    (hacquire : acquireCopy s.dev s.sn t k = some a) (prev arr : List Nat) :
    Acts [.cli, .hif] (.loessAligned tid k false ⟨prev, arr⟩) s fun u =>
      tribOf u.dev tid.toNat = some (t.setAl k (some a)) ∧
      Raised s.dev u.dev [{ typ := 0x30, sn := s.sn, p0 := tid.toNat, p1 := 2 * k.val, p2 := a.h }] :=
  acts_of_core rfl hcore (loessAligned_copy ht hrole hmulti hopen hup hacquire prev arr)
    ((evals_setTrib s.dev _ _).parts.trans (only_raise _ _)) ⟨tribOf_setTrib_same s.dev _ _, raised_raise _ _⟩

end

/-- Settles O24: each command by its cases. -/
theorem groupsAndPool : Obligations.GroupsAndPool := by
  unfold Obligations.GroupsAndPool
  refine fun s hcore hmirror => ⟨?create, fun r e ns g he hres hgroup hdel hwait htimed => ?delete,
    fun owner a w hfind hby => ⟨fun hheld => ?_, fun hfree => ⟨fun hw => ?_, fun hw => ?_⟩⟩,
    fun tid k prev arr => ⟨fun a hfind => ⟨fun y hopen hup hlen hok hacquire => ?_, fun h => ?_⟩,
      fun t a ht hrole hmulti hopen hup hacquire => ?_, fun x y lo hi d16 m hle hover => ?_⟩,
    fun pgid g hgroup => ⟨fun hon hopen => ⟨fun hnone => ?_, fun hmany => ?_, fun c i y hone hgap hfits => ?_⟩,
      fun hpair => ⟨fun hbad => ?_, fun hcontent hfits => ?_⟩⟩⟩
  case create =>
    intro r e list ns he hres pgid u htyp herrorless hd16 htrib hmax hhold hwtr hdecides hgrain hlane hrange hfree henabled
      hprotect
    have hask : AsksGrainGroup s.dev e.raw :=
      ⟨hres, htyp, herrorless, hd16, htrib, hmax, hhold, hwtr, hgrain, hlane, hrange, hfree, henabled, hprotect⟩
    refine ⟨fun hnew => ?_, fun huse => pgCreate_inUse ns hcore he hask huse⟩
    refine (pgCreate_makes ns hcore he hask hnew hdecides hmirror).weaken
      fun t ⟨hothers, hserved, g, hgroup, hcfg, hsel, hcmd, hpend⟩ => ⟨hothers, hserved, g, hgroup, hsel, hcmd, hpend, ?_⟩
    rw [hcfg]
    exact ⟨rfl, rfl, rfl, rfl, rfl, rfl⟩
  case delete => exact pgDelete_begins ns hcore he hres hgroup hdel hwait htimed hmirror
  · exact blockReturn_waits hcore hfind hheld
  · exact blockReturn_serves hcore hfind hfree hby hw hmirror
  · exact blockReturn_acknowledges hcore hfind hfree hby hw
  · exact loessAligned_aligns_client hcore hfind hopen hup hlen hok hacquire
  · exact exec_next_of_same rfl hcore (loessAligned_client_waits s.sn k hfind h)
  · exact loessAligned_aligns_copy hcore ht hrole hmulti hopen hup hacquire prev arr
  · exact acquire_over_budget hle hover s.dev
  · exact exec_next_of_same rfl hcore (pairAligned_of_none s.sn hgroup hon hopen hnone)
  · exact acts_of_group rfl hcore (pairAligned_of_several s.sn hgroup hon hopen hmany)
  · exact (acts_of_group_reported rfl hcore (pairAligned_of_single s.sn hgroup hon hopen hone hgap hfits)).weaken
      fun t ⟨hstored, hraised⟩ => ⟨⟨_, _, hstored⟩, hraised⟩
  · exact acts_of_group_reported rfl hcore (pairLost_of_bad s.sn hgroup hpair hbad)
  · exact exec_next_of_same rfl hcore (pairLost_of_good s.sn hgroup hcontent hfits)

end Sys2Proof.Machine
end

