-- ==== Sys2Proof/Proofs/EgressReadout.lean ====
section
/-! PROOFS. What the egress read of a grain delivers (R189, R198), and the word of an output fine slot (R204). -/

namespace Sys2Proof.Machine

/-! ### An egress grain (R189, R198) -/

/-- What a beat brings to the grain that reads it: maintenance content where its source failed, nothing where it is idle. -/
def Beat.content (b : Beat) : Grain := if b.cmerr = true then gMaint else if b.valid = true then b.pay else 0

section
variable {d : Dev} {u : Nat} (pg : CmPage) (h : Bool)

theorem readOne_of_maintenance (hmi : (selAt d u).ecc = true ∨ (selAt d u).pmi = true) :
    (readOne d pg h false u).g = gMaint := by
  obtain hecc | hpmi := hmi
  · simp [readOne, hecc]
  · simp [readOne, hpmi]

variable (hecc : (selAt d u).ecc = false) (hpmi : (selAt d u).pmi = false)
include hecc hpmi

/-- A held grain reads its frozen slot, whatever its entry says (R200). -/
theorem readOne_of_frozen {slot : Nat} {half : Bool} (hfrz : (selAt d u).frz = some (slot, half)) :
    (readOne d pg h false u).g = (egBeat d.sw half (portOf u) slot).content := by
  simp [readOne, Beat.content, hecc, hpmi, hfrz]

theorem readOne_of_unconnected (hfrz : (selAt d u).frz = none) (hen : egrEn (egrAt pg u) = false) :
    (readOne d pg h false u).g = 0 := by
  simp [readOne, hecc, hpmi, hfrz, hen]

theorem readOne_of_connected (hfrz : (selAt d u).frz = none) (hen : egrEn (egrAt pg u) = true) :
    (readOne d pg h false u).g =
      (egBeat d.sw h (portOf u) (if (selAt d u).sel = true then pCs (egrAt pg u) else wCs (egrAt pg u))).content := by
  simp [readOne, Beat.content, hecc, hpmi, hfrz, hen]

end

/-! ### An output fine slot (R204) -/

section
variable {d : Dev} {f : Nat} (pg : CmPage) (h : Bool)

theorem fineWord_of_parityFailed (hout : f ∈ d.sw.fineOut) : fineWord d pg h f = 0xFFFFF := by
  simp [fineWord, hout]

theorem fineWord_of_unconnected (hout : f ∉ d.sw.fineOut) (hen : (finAt pg f).getLsbD 16 = false) : fineWord d pg h f = 0 := by
  simp [fineWord, hout, hen, -BitVec.getLsbD_eq_getElem]

/-- SRC of the entry names the grain of the fine stage and the word in it. -/
theorem fineWord_of_connected (hout : f ∉ d.sw.fineOut) (hen : (finAt pg f).getLsbD 16 = true) :
    fineWord d pg h f =
      gWord (tget 0 (finOf d.sw h) ((finAt pg f).toNat % 65536 / 8)) ((finAt pg f).toNat % 8) := by
  have hword : (finAt pg f).toNat % 65536 % 8 = (finAt pg f).toNat % 8 := by omega
  simp [fineWord, hout, hen, hword, -BitVec.getLsbD_eq_getElem]

end

/-- Settles O14, case by case. -/
theorem egressAndFineReadout : Obligations.EgressAndFineReadout := by
  unfold Obligations.EgressAndFineReadout
  exact ⟨fun d pg h u => ⟨readOne_of_maintenance pg h, fun hecc hpmi => ⟨fun _ _ => readOne_of_frozen pg h hecc hpmi,
      readOne_of_unconnected pg h hecc hpmi, readOne_of_connected pg h hecc hpmi⟩⟩,
    fun d pg h f => ⟨fineWord_of_parityFailed pg h, fineWord_of_unconnected pg h, fineWord_of_connected pg h⟩⟩

end Sys2Proof.Machine
end

