-- ==== Sys2Proof/Proofs/ConnectionPlans.lean ====
section
/-! PROOFS. What a staged connection reads (R187, R188, R219 to R225): the entries that a plan writes, the slot that a use is
given, and the plans of CONNECT and DISCONNECT. -/

namespace Sys2Proof.Machine

/-! ### Entries written into a plan -/

/-- An entry of at most 32 bits comes back out of the word that carries it. -/
theorem setWidth_ofNat_toNat {n : Nat} (hn : n ≤ 32) (v : BitVec n) : (BitVec.ofNat 32 v.toNat).setWidth n = v := by
  apply BitVec.eq_of_toNat_eq
  have hlt : v.toNat < 2 ^ 32 := v.isLt.trans_le (Nat.pow_le_pow_right (by decide) hn)
  rw [BitVec.toNat_setWidth, BitVec.toNat_ofNat, Nat.mod_eq_of_lt hlt, Nat.mod_eq_of_lt v.isLt]

section
variable (p : Plan) (i c e u f : Nat)

@[simp] theorem ingAt_ing_same (v : BitVec 12) : ingAt (p.ing i c v).pg i c = v :=
  (tget_tput_same _ _ _ _).trans (setWidth_ofNat_toNat (by decide) v)

theorem cenAt_cen_same {v : Nat} (hv : v < 256) : (cenAt (p.cen c e v).pg c e).toNat = v := by
  have hput : cenAt (p.cen c e v).pg c e = (BitVec.ofNat 32 v).setWidth 8 := tget_tput_same _ _ _ _
  rw [hput, BitVec.toNat_setWidth, BitVec.toNat_ofNat]
  omega

@[simp] theorem egrAt_egr_same (v : BitVec 25) : egrAt (p.egr u v).pg u = v :=
  (tget_tput_same _ _ _ _).trans (setWidth_ofNat_toNat (by decide) v)

theorem egrAt_egr_ne {x : Nat} (v : BitVec 25) (h : x ≠ u) : egrAt (p.egr u v).pg x = egrAt p.pg x := tget_tput_ne _ _ _ h

@[simp] theorem finAt_fin_same (v : BitVec 20) : finAt (p.fin f v).pg f = v :=
  (tget_tput_same _ _ _ _).trans (setWidth_ofNat_toNat (by decide) v)

theorem fin_pg (v : BitVec 20) : (p.fin f v).pg = { p.pg with fine := tput finD p.pg.fine f v } := by
  have hput : (p.fin f v).pg = { p.pg with fine := tput finD p.pg.fine f ((BitVec.ofNat 32 v.toNat).setWidth 20) } := rfl
  rw [hput, setWidth_ofNat_toNat (by decide)]

@[simp] theorem ingAt_cen (v : Nat) : ingAt (p.cen c e v).pg = ingAt p.pg := rfl
@[simp] theorem chains_ing (v : BitVec 12) : (p.ing i c v).chains = p.chains := rfl
@[simp] theorem chains_cen (v : Nat) : (p.cen c e v).chains = p.chains := rfl
@[simp] theorem chains_egr (v : BitVec 25) : (p.egr u v).chains = p.chains := rfl

/-- The path of a use is in the ingress and center entries, and an egress entry leaves it as it is. -/
theorem pathAt_egr (w x : Nat) (v : BitVec 25) : pathAt (p.egr u v).pg c w x ↔ pathAt p.pg c w x := Iff.rfl

end

/-! ### The uses of a plan -/

/-- A use put on a slot has its path there. -/
theorem pathAt_putUse (p : Plan) (c u : Nat) {w : Nat} (hw : portOf w < 132) :
    pathAt (putUse p (portOf w) (grainOf w) (portOf u) c).pg c w u := by
  unfold pathAt putUse
  exact ⟨by rw [ingAt_cen, ingAt_ing_same], cenAt_cen_same _ c (portOf u) (by omega)⟩

/-- Removing a use touches no egress entry and makes no chain. -/
theorem dropUse_frame (p : Plan) (c e : Nat) : (dropUse p c e).pg.egr = p.pg.egr ∧ (dropUse p c e).chains = p.chains := by
  unfold dropUse
  extract_lets i q
  split <;> exact ⟨rfl, rfl⟩

theorem planDisconnect_frame (p : Plan) (u : Nat) :
    egrAt (planDisconnect p u).pg u = 0 ∧ (planDisconnect p u).chains = p.chains ∧
      ∀ v, v ≠ u → egrAt (planDisconnect p u).pg v = egrAt p.pg v := by
  unfold planDisconnect
  extract_lets x q q₂
  obtain ⟨hegr, hchains⟩ := dropUse_frame p (wCs x) (portOf u)
  have hq₂ : q₂.pg.egr = p.pg.egr ∧ q₂.chains = p.chains := by
    simp only [q₂]
    split
    · exact ⟨hegr, hchains⟩
    · obtain ⟨hegr₂, hchains₂⟩ := dropUse_frame q (pCs x) (portOf u)
      exact ⟨hegr₂.trans hegr, hchains₂.trans hchains⟩
  refine ⟨egrAt_egr_same q₂ u egrD, hq₂.2, fun v hv => (egrAt_egr_ne q₂ u egrD hv).trans ?_⟩
  simp only [egrAt, hq₂.1]

/-! ### The slot of a use (R224, R225) -/

/-- A fold that takes no bit away keeps the bit that one of its elements sets. -/
theorem testBit_foldl_of_mem {α : Type} {g : Nat → α → Nat} {c : Nat}
    (hkeep : ∀ m x, m.testBit c = true → (g m x).testBit c = true) {l : List α} {x : α} (hx : x ∈ l)
    (hset : ∀ m, (g m x).testBit c = true) (m : Nat) : (l.foldl g m).testBit c = true := by
  have hkeeps (l : List α) : ∀ m : Nat, m.testBit c = true → (l.foldl g m).testBit c = true := by
    induction l with
    | nil => exact fun _ h => h
    | cons y l ih => exact fun m h => ih _ (hkeep m y h)
  obtain ⟨l₁, l₂, rfl⟩ := List.append_of_mem hx
  rw [List.foldl_append, List.foldl_cons]
  exact hkeeps l₂ _ (hset _)

/-- The slots of a plane out of service are masked (R224). -/
theorem testBit_planeMask {d : Dev} {c : Nat} (hc : c < 4096) (hst : planeSt d (c % 8) ≠ 0) :
    (planeMask d).testBit c = true := by
  have hslots : ∀ m, ((List.range 512).foldl (fun m k => m ||| 1 <<< (8 * k + c % 8)) m).testBit c = true :=
    testBit_foldl_of_mem (fun m k h => by simp [h]) (x := c / 8) (List.mem_range.2 (by omega)) fun m => by
      simp [Nat.div_add_mod, Nat.one_shiftLeft, Nat.testBit_two_pow_self]
  refine testBit_foldl_of_mem (fun m p h => ?_) (x := c % 8) (List.mem_range.2 (by omega)) (fun m => ?_) 0
  · split
    · exact h
    · simp [h]
  · simp [hst, hslots]

theorem planeSt_of_free {d : Dev} {p : Plan} {i e c : Nat} (hc : c < 4096)
    (hfree : (busyIn d p i).testBit c = false ∨ (busyOut d p e).testBit c = false) : planeSt d (c % 8) = 0 := by
  by_contra hst
  simp [busyIn, busyOut, testBit_planeMask hc hst] at hfree

/-- A use is put on a slot that is free on one side at least: the plan before it may hold rearranged uses. -/
theorem place_eq_some {d : Dev} {p q : Plan} {i g e c : Nat} (h : place d p i g e = some (q, c)) :
    c < 4096 ∧ ((busyIn d p i).testBit c = false ∨ (busyOut d p e).testBit c = false) ∧ ∃ p', q = putUse p' i g e c := by
  unfold place at h
  extract_lets bi bo bc pairs at h
  have hbroadcast : ∀ k, bc = some k → k < 4096 ∧ bo.testBit k = false := by
    intro k hk
    simp only [bc] at hk
    split at hk
    · obtain ⟨hgood, hmem, -⟩ := List.find?_range_eq_some.1 hk
      simp only [Bool.and_eq_true, Bool.not_eq_true'] at hgood
      exact ⟨List.mem_range.1 hmem, hgood.2⟩
    · cases hk
  clear_value bc
  cases bc with
  | some k =>
    obtain ⟨rfl, rfl⟩ := Prod.mk.inj (Option.some.inj h)
    obtain ⟨hk, hfree⟩ := hbroadcast _ rfl
    exact ⟨hk, .inr hfree, p, rfl⟩
  | none =>
    dsimp only at h
    split at h
    case h_1 k hfind =>
      obtain ⟨rfl, rfl⟩ := Prod.mk.inj (Option.some.inj h)
      obtain ⟨hgood, hmem, -⟩ := List.find?_range_eq_some.1 hfind
      simp only [Nat.testBit_or, Bool.not_eq_true', Bool.or_eq_false_iff] at hgood
      exact ⟨List.mem_range.1 hmem, .inl hgood.1, p, rfl⟩
    case h_2 =>
      obtain ⟨⟨a, b⟩, hab, hchain⟩ := List.exists_of_findSome?_eq_some h
      obtain ⟨us, -, hput⟩ := Option.map_eq_some_iff.1 hchain
      obtain ⟨rfl, rfl⟩ := Prod.mk.inj hput
      have hfree : a ∈ freeSlots bi := by
        obtain ⟨a', ha', hpair⟩ := List.mem_flatMap.1 (List.mem_of_mem_take hab)
        obtain ⟨b', -, heq⟩ := List.mem_map.1 hpair
        cases heq
        exact List.mem_of_mem_take ha'
      obtain ⟨hmem, hclear⟩ := List.mem_filter.1 hfree
      exact ⟨List.mem_range.1 hmem, .inl (by simpa using hclear), _, rfl⟩

/-- Without center broadcast the lowest slot free on both sides is taken, and nothing is rearranged. -/
theorem place_lowest {d : Dev} {p : Plan} {i g e c : Nat} (hbcast : rd d F.GLB_TILTH_CFG_BCAST_EN = 0) (hc : c < 4096)
    (hfree : ((busyIn d p i).testBit c || (busyOut d p e).testBit c) = false)
    (hlow : ∀ k < c, ((busyIn d p i).testBit k || (busyOut d p e).testBit k) = true) :
    place d p i g e = some (putUse p i g e c, c) := by
  have hoff : rdB d F.GLB_TILTH_CFG_BCAST_EN = false := by simp [rdB, hbcast]
  have hfind : (List.range 4096).find? (fun c => !(busyIn d p i ||| busyOut d p e).testBit c) = some c :=
    List.find?_range_eq_some.2 ⟨by simpa using hfree, List.mem_range.2 hc, fun k hk => by simpa using hlow k hk⟩
  simp only [place, hoff, Bool.false_eq_true, if_false, hfind]

/-! ### The plan of a CONNECT -/

theorem eq_nil_of_firstProb_eq_none {l : List Prob} (h : firstProb l = none) : l = [] := by
  by_contra hne
  obtain ⟨p, hp, -⟩ := firstProb_spec l hne
  cases h.symm.trans hp

theorem eq_false_of_probIf_eq_nil {c : Bool} {off r : Nat} (h : probIf c off r = []) : c = false := by
  cases c
  · rfl
  · cases h

theorem not_isFine_of_isGrain {u : Nat} (h : isGrain u = true) : isFine u = false := by
  simp only [isGrain, isFine, decide_eq_true_eq, decide_eq_false_iff_not] at h ⊢
  omega

/-- A source without problems is of the egress unit's tier and lies in a port of the device. -/
theorem portOf_source_lt {d : Dev} {pg : CmPage} {u w off : Nat} (hu : isGrain u = true) (h : sourceProbs d pg u w off = []) :
    portOf w < 132 := by
  simp only [sourceProbs, List.append_eq_nil_iff] at h
  obtain ⟨⟨⟨hrange, htier⟩, -⟩, -⟩ := h
  have hw : isFine w = false := by
    simpa [not_isFine_of_isGrain hu] using eq_false_of_probIf_eq_nil htier
  have hin := eq_false_of_probIf_eq_nil hrange
  simp only [unitInRange, hw, isGrain, Bool.false_or, Bool.not_eq_false', Bool.and_eq_true, decide_eq_true_eq] at hin
  unfold portOf
  omega

section
variable {d : Dev} {raw : BitVec 512} {p : Plan} (hst : stageDesc d (plan0 d) raw = .ok p) (hop : opOf raw = 1)
include hst hop

/-- A CONNECT of a grain without protect source is the plan of its working source. -/
theorem stageDesc_connect_grain (hu : isGrain (dF raw 16 0 20) = true) (hq : dF raw 24 0 20 = unitNone) :
    planConnect d (plan0 d) (dF raw 16 0 20) (dF raw 20 0 20) none = .ok p ∧ portOf (dF raw 20 0 20) < 132 := by
  simp only [stageDesc, hop, if_true, hq, not_isFine_of_isGrain hu] at hst
  split at hst
  · cases hst
  · next hprob =>
    have hnil := eq_nil_of_firstProb_eq_none hprob
    simp only [List.append_eq_nil_iff] at hnil
    obtain ⟨⟨-, hsource⟩, -⟩ := hnil
    exact ⟨hst, portOf_source_lt hu hsource⟩

theorem stageDesc_connect_fine (hu : isFine (dF raw 16 0 20) = true) :
    p.pg = { shadow d with fine := tput finD (shadow d).fine (fineOf (dF raw 16 0 20)) (finMk (fineOf (dF raw 20 0 20))) } := by
  simp only [stageDesc, hop, if_true, hu] at hst
  split at hst
  · cases hst
  · cases hst
    exact fin_pg _ _ _

end

/-- The plan of a connection without protect source: one slot, and its number in both halves of the egress entry (R220). -/
theorem planConnect_eq_ok {d : Dev} {p q : Plan} {u w : Nat} (h : planConnect d p u w none = .ok q) :
    ∃ x c, place d p (portOf w) (grainOf w) (portOf u) = some (x, c) ∧ q = x.egr u (egrMk c c) := by
  unfold planConnect at h
  split at h
  · cases h
  · next x c hplace =>
    cases h
    exact ⟨x, c, hplace, rfl⟩

theorem planConnect_reads {d : Dev} {p q : Plan} {u w : Nat} (h : planConnect d p u w none = .ok q) (hw : portOf w < 132) :
    ∃ c < 4096, pathAt q.pg c w u ∧ egrAt q.pg u = egrMk c c ∧ planeSt d (c % 8) = 0 := by
  obtain ⟨x, c, hplace, rfl⟩ := planConnect_eq_ok h
  obtain ⟨hc, hfree, p', rfl⟩ := place_eq_some hplace
  exact ⟨c, hc, (pathAt_egr _ c u w u _).2 (pathAt_putUse p' c u hw), egrAt_egr_same _ u _, planeSt_of_free hc hfree⟩

theorem planConnect_lowest {d : Dev} {p q : Plan} {u w c : Nat} (h : planConnect d p u w none = .ok q)
    (hbcast : rd d F.GLB_TILTH_CFG_BCAST_EN = 0) (hc : c < 4096)
    (hfree : ((busyIn d p (portOf w)).testBit c || (busyOut d p (portOf u)).testBit c) = false)
    (hlow : ∀ k < c, ((busyIn d p (portOf w)).testBit k || (busyOut d p (portOf u)).testBit k) = true) :
    egrAt q.pg u = egrMk c c ∧ q.chains = p.chains := by
  obtain ⟨x, c', hplace, rfl⟩ := planConnect_eq_ok h
  obtain ⟨rfl, rfl⟩ := Prod.mk.inj (Option.some.inj (hplace.symm.trans (place_lowest hbcast hc hfree hlow)))
  exact ⟨egrAt_egr_same _ u _, by rw [chains_egr, putUse, chains_cen, chains_ing]⟩

/-! ### The plan of a DISCONNECT -/

section
variable {d : Dev} {raw : BitVec 512} {p : Plan} (hst : stageDesc d (plan0 d) raw = .ok p) (hop : opOf raw = 2)
include hst hop

theorem stageDesc_disconnect_grain (hu : isGrain (dF raw 16 0 20) = true) : p = planDisconnect (plan0 d) (dF raw 16 0 20) := by
  simp only [stageDesc, hop, not_isFine_of_isGrain hu] at hst
  split at hst
  · contradiction
  · simp only [if_true] at hst
    split at hst
    · cases hst
    · simp only [Bool.false_eq_true, if_false] at hst
      split at hst
      · cases hst
      · cases hst
        rfl

theorem stageDesc_disconnect_fine (hu : isFine (dF raw 16 0 20) = true) : finAt p.pg (fineOf (dF raw 16 0 20)) = 0 := by
  simp only [stageDesc, hop, hu] at hst
  split at hst
  · contradiction
  · simp only [if_true] at hst
    split at hst
    · cases hst
    · cases hst
      exact finAt_fin_same (plan0 d) _ finD

end

end Sys2Proof.Machine
end

