-- ==== Sys2Proof/Proofs/StagedConnections.lean ====
section
/-! PROOFS. CONNECT, DISCONNECT and MOVE at Tilth (R197, R227, R232, R234): a plan put into the shadow page, with the commit
of its own or the open batch that carries it, and the completion of a descriptor that cannot be staged. -/

namespace Sys2Proof.Machine

/-! ### The pages -/

section
variable {a b : Dev}

theorem shadow_congr (h : b.sw = a.sw) : shadow b = shadow a := by simp only [shadow, h]
theorem active_congr (h : b.sw = a.sw) : active b = active a := by simp only [active, h]

end

section
variable (d : Dev) (pg : CmPage)

@[simp] theorem shadow_setShadow : shadow (setShadow d pg) = pg := by
  unfold shadow setShadow cmOf
  cases hpage : d.sw.page <;> simp [hpage]

@[simp] theorem active_setShadow : active (setShadow d pg) = active d := by
  unfold active setShadow cmOf
  cases hpage : d.sw.page <;> simp [hpage]

@[simp] theorem shadow_cleanEnts (at' : Bool) (ws : List EntryWr) : shadow (cleanEnts d at' ws) = shadow d := rfl
@[simp] theorem active_cleanEnts (at' : Bool) (ws : List EntryWr) : active (cleanEnts d at' ws) = active d := rfl

end

/-! ### A plan put into the shadow page (R227, R243) -/

section
variable (d : Dev)

theorem only_onTilth (f : Tilth → Tilth) : Only [.tilth] d (onTilth d f) := by
  intro p hp; cases p <;> simp_all [Part.same]

theorem only_setShadow (pg : CmPage) : Only [.sw] d (setShadow d pg) := by
  intro p hp; cases p <;> simp_all [Part.same]

theorem only_cleanEnts (at' : Bool) (ws : List EntryWr) : Only [.sw] d (cleanEnts d at' ws) := by
  intro p hp; cases p <;> simp_all [Part.same]

/-- Entries sent to the mate advance the sequence number of the records, and nothing else of Tilth. -/
theorem mirrorEntries_frame (ws : List EntryWr) : Only [.tilth, .out, .twin] d (mirrorEntries d ws) ∧
    ∃ n, (mirrorEntries d ws).tilth = { d.tilth with seqOut := n } := by
  unfold mirrorEntries sendEntries
  split
  · exact ⟨Only.refl _ d, _, rfl⟩
  · split
    · exact ⟨((only_onTilth d _).trans (evals_twinSend _ _ _).parts).mono (by simp), _, twinSend_tilth _ _ _⟩
    · exact ⟨Only.refl _ d, _, rfl⟩

theorem only_applyPlan (p : Plan) : Only [.tilth, .sw, .out, .twin] d (applyPlan d p) :=
  (((only_setShadow d p.pg).trans (only_cleanEnts _ _ p.ws)).trans (mirrorEntries_frame _ p.ws).1).mono (by simp)

theorem applyPlan_tilth (p : Plan) : ∃ n, (applyPlan d p).tilth = { d.tilth with seqOut := n } :=
  (mirrorEntries_frame _ p.ws).2

@[simp] theorem shadow_applyPlan (p : Plan) : shadow (applyPlan d p) = p.pg := by
  rw [applyPlan, shadow_congr (mirrorEntries_sw _ _), shadow_cleanEnts, shadow_setShadow]

@[simp] theorem active_applyPlan (p : Plan) : active (applyPlan d p) = active d := by
  rw [applyPlan, active_congr (mirrorEntries_sw _ _), active_cleanEnts, active_setShadow]

theorem tilthStat_frame : Only [.regs] d (tilthStat d) ∧ OnlyRegs tilthRegs d (tilthStat d) := by
  refine ⟨fun p hp => by cases p <;> simp_all [Part.same], ?_⟩
  have hwr (d : Dev) (f : Fld) (v : Nat) (hf : f.addr 0 ∈ tilthRegs) : OnlyRegs tilthRegs d (wr d f 0 v) :=
    (onlyRegs_wr d f 0 v).mono (by simpa using hf)
  have hstatus (st : Nat) (b : Bool) :
      OnlyRegs tilthRegs d (wrB (wr d F.GLB_TILTH_STATUS_STATE 0 st) F.GLB_TILTH_STATUS_BATCH_OPEN 0 b) :=
    ((hwr d _ st (by decide)).trans (hwr _ F.GLB_TILTH_STATUS_BATCH_OPEN _ (by decide))).mono (by simp)
  unfold tilthStat
  extract_lets t st d₁ d₂ d₃
  have h₃ : OnlyRegs tilthRegs d d₃ := by
    simp only [d₃]
    split
    · exact ((hstatus _ _).trans (hwr _ F.GLB_TILTH_STATUS_BATCH_RING _ (by decide))).mono (by simp)
    · exact hstatus _ _
  split
  · exact (h₃.trans (hwr _ F.GLB_TILTH_TARGET_SN _ (by decide))).mono (by simp)
  · exact h₃

end

/-- A descriptor whose plan goes into the shadow page: Tilth's own state follows, then the rings (`x`), then the status. -/
theorem acts_of_plan {s : State} {c : Instr} {g : Dev → Dev} {p : Plan} {f : Tilth → Tilth} {x : Dev} {P : State → Prop}
    (hexec : exec c s = core s g) (hcore : s.dev.pwr.core = true) (hg : g s.dev = tilthStat x)
    (hx : Only [.hif] (onTilth (applyPlan s.dev p) f) x)
    (hP : ∀ t : State, t.dev.hif = x.hif → (∃ n, t.dev.tilth = f { s.dev.tilth with seqOut := n }) →
      shadow t.dev = p.pg → active t.dev = active s.dev → P t) :
    ActsR tilthRegs [.tilth, .sw, .hif, .out, .twin] c s P := by
  obtain ⟨hparts, hregs⟩ := tilthStat_frame x
  have hbefore : Only [.tilth, .sw, .hif, .out, .twin] s.dev x :=
    (((only_applyPlan s.dev p).trans (only_onTilth _ f)).trans hx).mono (by simp)
  have hsw : (tilthStat x).sw = (applyPlan s.dev p).sw := (tilthStat_sw x).trans (hx .sw (by simp))
  refine acts_of_core hexec hcore hg ((hbefore.trans hparts).mono (by simp)) ⟨?_, hP _ (tilthStat_hif x) ?_ ?_ ?_⟩
  · exact ((onlyRegs_of_eq [] (hbefore .regs (by simp))).trans hregs).mono (by simp)
  · obtain ⟨n, hn⟩ := applyPlan_tilth s.dev p
    refine ⟨n, (tilthStat_tilth x).trans ((hx .tilth (by simp)).trans ?_)⟩
    rw [onTilth_tilth, hn]
  · exact (shadow_congr hsw).trans (shadow_applyPlan s.dev p)
  · exact (active_congr hsw).trans (active_applyPlan s.dev p)

/-! ### What serving a connection does -/

/-- What becomes of a descriptor of ring `r` that is staged with plan `p`: a member, and the commit of its own. -/
def memberOf (op r : Nat) (e : QEnt) (p : Plan) : Member :=
  { ring := r, uid := e.uid, idx := e.idx, op := op, raw := e.raw, uses := p.uses, chains := p.chains }
def ownCommit (op r : Nat) (e : QEnt) (p : Plan) : Commit :=
  { members := [memberOf op r e p], timed := timedOf e.raw, tsn := targetOf e.raw, chains := p.chains, uses := p.uses }

theorem batch_filter_of_other {o : Option Batch} {r : Nat} (h : o.any (·.ring == r) = false) :
    o.filter (·.ring == r) = none := by
  cases o with
  | none => rfl
  | some b => simpa using h

theorem batch_filter_of_own {o : Option Batch} {b : Batch} {r : Nat} (h : o = some b) (hring : b.ring = r) :
    o.filter (·.ring == r) = some b := by
  simp [h, hring]

section
variable {d : Dev} {op r : Nat} {e : QEnt} (sn : SN) (he : servedBy d r op = some e) (hab : d.tilth.aborted.contains r = false)
include he hab

section
variable (hbatch : d.tilth.batch.any (·.ring == r) = false) (hmay : mayStage d r sn = true)
include hbatch hmay

theorem serveConn_of_plan {p : Plan} (hst : stageDesc d (plan0 d) e.raw = .ok p) :
    serveConn op r sn d =
      tilthStat (take (onTilth (applyPlan d p) fun t => { t with prep := some (ownCommit op r e p) }) r e.uid) := by
  simp only [serveConn, he, hab, batch_filter_of_other hbatch, hmay, hst]
  rfl

theorem serveConn_of_fail {st det : Nat} (hst : stageDesc d (plan0 d) e.raw = .fail st det) :
    serveConn op r sn d = finish d r e.uid st det sn := by
  simp only [serveConn, he, hab, batch_filter_of_other hbatch, hmay, hst, Bool.not_true, Bool.false_eq_true, if_false]

end

section
variable {b : Batch} (hbatch : d.tilth.batch = some b) (hring : b.ring = r) (hmay : mayMember d = true)
include hbatch hring hmay

/-- A member of the open batch joins what is staged. -/
theorem serveConn_member_of_plan {p : Plan} (hst : stageDesc d (plan0 d) e.raw = .ok p) :
    serveConn op r sn d =
      tilthStat (finish (onTilth (applyPlan d p) fun t => { t with
        chains := t.chains + p.chains, uses := t.uses + p.uses,
        staged := t.staged ++ [{ memberOf op r e p with done := true }] })
        r e.uid (if p.chains = 0 then stOk else stRearranged) 0 sn (BitVec.ofNat 64 p.uses)) := by
  simp only [serveConn, he, hab, batch_filter_of_own hbatch hring, hmay, hst]
  rfl

theorem serveConn_member_of_fail {st det : Nat} (hatomic : b.atomic = false)
    (hst : stageDesc d (plan0 d) e.raw = .fail st det) : serveConn op r sn d = finish d r e.uid st det sn := by
  simp only [serveConn, he, hab, batch_filter_of_own hbatch hring, hmay, hst, hatomic, Bool.not_true, Bool.false_eq_true,
    if_false]

end

end

/-! ### What the host sees -/

theorem exec_connection {r : Fin 16} {op : Nat} {c : Instr}
    (hc : (op = 1 ∧ c = .connect r) ∨ (op = 2 ∧ c = .disconnect r) ∨ (op = 3 ∧ c = .move r)) (s : State) :
    exec c s = core s (serveConn op r s.sn) := by
  obtain ⟨rfl, rfl⟩ | ⟨rfl, rfl⟩ | ⟨rfl, rfl⟩ := hc <;> rfl

theorem acts_of_finish {s : State} {c : Instr} {g : Dev → Dev} {r uid st det : Nat} (hexec : exec c s = core s g)
    (hcore : s.dev.pwr.core = true) (hg : g s.dev = finish s.dev r uid st det s.sn) :
    Acts [.hif] c s fun t => Served s.dev t.dev r uid st det s.sn 0 :=
  acts_of_core hexec hcore hg (only_finish _ _ _ _ _ _ _) (served_finish s.dev r uid st det s.sn 0)

theorem Taken.of_hif {a a' b b' : Dev} {r uid : Nat} (h : Taken a b r uid) (ha : a.hif = a'.hif) (hb : b'.hif = b.hif) :
    Taken a' b' r uid := by
  simpa only [Taken, ringOf, ha, hb] using h

theorem Served.of_hif {a a' b b' : Dev} {r uid st det : Nat} {sn : SN} {res : BitVec 64} (h : Served a b r uid st det sn res)
    (ha : a.hif = a'.hif) (hb : b'.hif = b.hif) : Served a' b' r uid st det sn res := by
  simpa only [Served, ringOf, ha, hb] using h

section
variable {s : State} {r : Fin 16} {e : QEnt} {op : Nat} {c : Instr} (hexec : exec c s = core s (serveConn op r s.sn))
  (hcore : s.dev.pwr.core = true) (he : servedBy s.dev r op = some e) (hab : s.dev.tilth.aborted.contains r.val = false)
  {p : Plan} (hst : stageDesc s.dev (plan0 s.dev) e.raw = .ok p)
include hexec hcore he hab hst

theorem connection_staged (hbatch : s.dev.tilth.batch.any (·.ring == r.val) = false) (hmay : mayStage s.dev r s.sn = true) :
    ActsR tilthRegs [.tilth, .sw, .hif, .out, .twin] c s fun t =>
      Taken s.dev t.dev r e.uid ∧ shadow t.dev = p.pg ∧ active t.dev = active s.dev ∧
        t.dev.tilth.prep = some (ownCommit op r e p) := by
  refine acts_of_plan hexec hcore (serveConn_of_plan s.sn he hab hbatch hmay hst) (only_take _ _ _)
    fun t hhif ⟨n, htilth⟩ hshadow hactive => ⟨?_, hshadow, hactive, by rw [htilth]⟩
  exact (taken_take _ r e.uid).of_hif (by simp) hhif

theorem connection_joins {b : Batch} (hbatch : s.dev.tilth.batch = some b) (hring : b.ring = r) (hmay : mayMember s.dev = true) :
    ActsR tilthRegs [.tilth, .sw, .hif, .out, .twin] c s fun t =>
      Served s.dev t.dev r e.uid (if p.chains = 0 then 0 else 2) 0 s.sn (BitVec.ofNat 64 p.uses) ∧
        shadow t.dev = p.pg ∧ active t.dev = active s.dev ∧ t.dev.tilth.prep = none ∧
        t.dev.tilth.staged = s.dev.tilth.staged ++ [{ memberOf op r e p with done := true }] := by
  have hprep : s.dev.tilth.prep = none := by
    simp only [mayMember, Bool.and_eq_true, Option.isNone_iff_eq_none] at hmay
    tauto
  refine acts_of_plan hexec hcore (serveConn_member_of_plan s.sn he hab hbatch hring hmay hst) (only_finish _ _ _ _ _ _ _)
    fun t hhif ⟨n, htilth⟩ hshadow hactive => ⟨?_, hshadow, hactive, by rw [htilth]; exact hprep, by rw [htilth]⟩
  exact (served_finish _ r e.uid _ 0 s.sn _).of_hif (by simp) hhif

end

/-- Settles O15: the outcomes of a descriptor, then what its plan reads. -/
theorem connectionsAreStaged : Obligations.ConnectionsAreStaged := by
  unfold Obligations.ConnectionsAreStaged
  refine ⟨fun s r e op c hcore hc he hab => ?descriptor, fun d raw p hst => ?plan⟩
  case descriptor =>
    have hexec := exec_connection hc s
    refine ⟨fun hbatch hmay => ⟨fun p hst => ?_, fun st det hst => ?_⟩,
      fun b hbatch hring hmay => ⟨fun p hst => ?_, fun hatomic st det hst => ?_⟩⟩
    · exact connection_staged hexec hcore he hab hst hbatch hmay
    · exact acts_of_finish hexec hcore (serveConn_of_fail s.sn he hab hbatch hmay hst)
    · exact connection_joins hexec hcore he hab hst hbatch hring hmay
    · exact acts_of_finish hexec hcore (serveConn_member_of_fail s.sn he hab hbatch hring hmay hatomic hst)
  case plan =>
    refine ⟨fun hop hu hq => ?_, fun hop hu => stageDesc_connect_fine hst hop hu, fun hop hu => ?_,
      fun hop hu => stageDesc_disconnect_fine hst hop hu⟩
    · obtain ⟨hplan, hw⟩ := stageDesc_connect_grain hst hop hu hq
      exact ⟨planConnect_reads hplan hw, fun hbcast c hc hfree hlow => planConnect_lowest hplan hbcast hc hfree hlow⟩
    · rw [stageDesc_disconnect_grain hst hop hu]
      exact planDisconnect_frame (plan0 d) _

end Sys2Proof.Machine
end

