-- ==== Sys2Proof/Proofs/FineClosing.lean ====
section
/-! PROOFS. FINE_CLOSE (R219) of a VL position that is not opened and still has fine slots reading it: its two problems lie at
one offset, where the lower reason is the one reported (Table 13-11). -/

namespace Sys2Proof.Machine

/-! ### A position with both problems -/

/-- A descriptor of the ring completes in one way only. -/
theorem Served.detail_unique {a b : Dev} {r uid st det st' det' : Nat} {sn sn' : SN} {res res' : BitVec 64}
    (h : Served a b r uid st det sn res) (k : Served a b r uid st' det' sn' res') {e : QEnt} (he : e ∈ (ringOf a r).q)
    (huid : e.uid = uid) : det = det' := by
  obtain ⟨⟨n, hn⟩, -⟩ := h
  obtain ⟨⟨m, hm⟩, -⟩ := k
  have hphase := congrArg QEnt.ph (List.map_inj_left.1 (hn.symm.trans hm) e he)
  simp only [if_pos huid, QPhase.done.injEq] at hphase
  obtain ⟨-, hdetail, -⟩ := hphase
  exact hdetail

/-- FINE_CLOSE reports the readers, not the missing route. -/
theorem exec_fineClose_of_unopened_readers {s : State} {r : Fin 16} {e : QEnt} (hcore : s.dev.pwr.core = true)
    (he : servedBy s.dev r 0x23 = some e) (hres : reservedAt e.raw = none) (hgrain : isGrain (dF e.raw 16 0 20) = true)
    (hport : 128 ≤ portOf (dF e.raw 16 0 20)) (hmay : mayStage s.dev r s.sn = true)
    (hopen : isOpened (shadow s.dev) (dF e.raw 16 0 20) = false)
    (hread : (fineReaders (shadow s.dev) (dF e.raw 16 0 20)).isEmpty = false) :
    exec (.fineClose r) s = .next { s with dev := badDesc s.dev r e.uid s.sn (16, 4) } := by
  have hserve : serveFineClose r s.sn s.dev = badDesc s.dev r e.uid s.sn (16, 4) := by
    simp [serveFineClose, he, reservedProb_of_none hres, hgrain, hport, hmay, hopen, hread, probIf, firstProb]
  have hexec : exec (.fineClose r) s = .next { s with dev := serveFineClose r s.sn s.dev } := core_next s _ hcore
  rw [hexec, hserve]

/-! ### The counterexample -/

/-- A FINE_CLOSE of the first VL position (unit code 0x40000), dispatched. -/
def closeFirstPosition : QEnt := { idx := 0, uid := 7, raw := 0x40000#512 <<< 128 ||| 0x23#512, ph := .dispatched }

/-- Firmware runs and CMD0 brings the FINE_CLOSE; in the shadow page output fine slot 0 reads the first VL position, and no
route leads there. -/
def unopenedWithReader : State :=
  { State.reset with
    dev := modRing (setShadow (wr (wr State.reset.dev F.CTL_CORE_STATUS_FW_READY 0 1) F.CTL_CORE_STATUS_C0_STATE 0 2)
      { fine := [(0, finMk 0)] }) 0 fun x => { x with q := [closeFirstPosition] } }

theorem unopenedWithReader_serves : servedBy unopenedWithReader.dev 0 0x23 = some closeFirstPosition := by decide +kernel

/-- Refutes O18: its clause of a FINE_CLOSE of a position not opened asks for reason 5 (not connected) in every state, but
where fine slots read that position the descriptor has reason 4 at the same offset as well, and completes with that. -/
theorem not_interruptedAndFineWorkIsStaged : ¬ Obligations.InterruptedAndFineWorkIsStaged := by
  unfold Obligations.InterruptedAndFineWorkIsStaged
  intro h
  have hres : reservedAt closeFirstPosition.raw = none := by decide +kernel
  have hgrain : isGrain (dF closeFirstPosition.raw 16 0 20) = true := by decide +kernel
  have hport : 128 ≤ portOf (dF closeFirstPosition.raw 16 0 20) := by decide +kernel
  have hmay : mayStage unopenedWithReader.dev 0 unopenedWithReader.sn = true := by decide +kernel
  have hopen : isOpened (shadow unopenedWithReader.dev) (dF closeFirstPosition.raw 16 0 20) = false := by decide +kernel
  have hread : (fineReaders (shadow unopenedWithReader.dev) (dF closeFirstPosition.raw 16 0 20)).isEmpty = false := by
    decide +kernel
  obtain ⟨-, -, -, -, hclose⟩ := h unopenedWithReader 0 closeFirstPosition rfl
  obtain ⟨hunopened, -, -⟩ := hclose unopenedWithReader_serves hres hgrain hport hmay
  obtain ⟨t, hexec, -, -, hserved⟩ := hunopened hopen
  have hreport := exec_fineClose_of_unopened_readers (s := unopenedWithReader) (r := 0) rfl unopenedWithReader_serves hres hgrain
    hport hmay hopen hread
  obtain rfl : _ = t := Host.Outcome.next.inj (hreport.symm.trans hexec)
  have hreaders := served_badDesc unopenedWithReader.dev 0 closeFirstPosition.uid unopenedWithReader.sn (16, 4)
  exact absurd (hserved.detail_unique hreaders (e := closeFirstPosition) (by decide +kernel) rfl) (by decide)

end Sys2Proof.Machine
end

