-- ==== Sys2Proof/Proofs/Batches.lean ====
section
/-! PROOFS. Batches at Tilth (R233 to R236): one is opened, committed with all its staged members, or ended with the rollback
of what it has staged; and the closing descriptor that finds its batch aborted, or none at all. -/

namespace Sys2Proof.Machine

/-! ### The rollback of the shadow (R238, R243) -/

section
variable (d : Dev)

/-- An ENTRY record advances the sequence number of the records, and nothing else of Tilth. -/
theorem sendEntries_frame (ws : List EntryWr) : Only [.tilth, .out, .twin] d (sendEntries d ws) ∧
    ∃ n, (sendEntries d ws).tilth = { d.tilth with seqOut := n } := by
  unfold sendEntries
  split
  · exact ⟨((only_onTilth d _).trans (evals_twinSend _ _ _).parts).mono (by simp), _, twinSend_tilth _ _ _⟩
  · exact ⟨Only.refl _ d, _, rfl⟩

theorem mirrorRollback_frame : Only [.tilth, .out, .twin] d (mirrorRollback d) ∧
    ∃ n, (mirrorRollback d).tilth = { d.tilth with seqOut := n } := by
  unfold mirrorRollback
  dsimp only
  split
  · exact sendEntries_frame d _
  · exact mirrorEntries_frame d _

@[simp] theorem shadow_restore : shadow (restore d) = active d := by simp only [restore, shadow_cleanEnts, shadow_setShadow]
@[simp] theorem active_restore : active (restore d) = active d := by simp only [restore, active_cleanEnts, active_setShadow]

@[simp] theorem active_mirrorRollback : active (mirrorRollback d) = active d := active_congr (mirrorRollback_sw d)

@[simp] theorem shadow_rollback : shadow (rollback d) = active d := by rw [rollback, shadow_restore, active_mirrorRollback]
@[simp] theorem active_rollback : active (rollback d) = active d := by rw [rollback, active_restore, active_mirrorRollback]

theorem only_rollback : Only [.tilth, .sw, .out, .twin] d (rollback d) :=
  (((mirrorRollback_frame d).1.trans (only_setShadow _ _)).trans (only_cleanEnts _ _ _)).mono (by simp)

theorem rollback_tilth : ∃ n, (rollback d).tilth = { d.tilth with seqOut := n } := by
  obtain ⟨n, hn⟩ := (mirrorRollback_frame d).2
  exact ⟨n, (restore_tilth _).trans hn⟩

end

/-! ### The end of a batch (R235, R236) -/

/-- A batch has ended between `a` and `b`: its entries are those of the active page again, and other prepared work stands. -/
def BatchEnded (a b : Dev) : Prop :=
  b.tilth.batch = none ∧ b.tilth.staged = [] ∧ active b = active a ∧ b.tilth.prep = a.tilth.prep ∧
  b.tilth.held = a.tilth.held.filter (·.2.isSome) ∧
  shadow b = if a.tilth.staged.isEmpty = true then shadow a else active a

/-- What ending a batch does to the shadow: only entries that it has staged go back. -/
def batchUndone (d : Dev) : Dev := if d.tilth.staged.isEmpty then d else rollback d

section
variable (d : Dev)

theorem only_batchUndone : Only [.tilth, .sw, .out, .twin] d (batchUndone d) := by
  unfold batchUndone
  split
  · exact Only.refl _ d
  · exact only_rollback d

theorem batchUndone_tilth : ∃ n, (batchUndone d).tilth = { d.tilth with seqOut := n } := by
  unfold batchUndone
  split
  · exact ⟨_, rfl⟩
  · exact rollback_tilth d

theorem shadow_batchUndone : shadow (batchUndone d) = if d.tilth.staged.isEmpty = true then shadow d else active d := by
  rw [batchUndone, apply_ite shadow, shadow_rollback]

theorem active_batchUndone : active (batchUndone d) = active d := by
  rw [batchUndone, apply_ite active, active_rollback, ite_self]

end

/-- Tilth without the batch of `ring`; with `keep`, the ring's descriptors stay members until the closing one. -/
def Tilth.batchClosed (t : Tilth) (ring : Nat) (keep : Bool) : Tilth :=
  { t with
    batch := none, staged := [], chains := 0, uses := 0, held := t.held.filter fun h => h.2.isSome,
    aborted := if keep then t.aborted ++ [ring] else t.aborted }

section
variable {d : Dev} {b : Batch} (hbatch : d.tilth.batch = some b) (keep : Bool)
include hbatch

theorem endBatch_eq : endBatch d keep = tilthStat (onTilth (batchUndone d) (·.batchClosed b.ring keep)) := by
  simp only [endBatch, hbatch, batchUndone, Tilth.batchClosed]

theorem endBatch_frame : Only [.regs, .tilth, .sw, .out, .twin] d (endBatch d keep) ∧ OnlyRegs tilthRegs d (endBatch d keep) := by
  rw [endBatch_eq hbatch]
  have hbefore := (only_batchUndone d).trans (only_onTilth (batchUndone d) (·.batchClosed b.ring keep))
  obtain ⟨hparts, hregs⟩ := tilthStat_frame (onTilth (batchUndone d) (·.batchClosed b.ring keep))
  exact ⟨(hbefore.trans hparts).mono (by simp), ((onlyRegs_of_eq [] (hbefore .regs (by simp))).trans hregs).mono (by simp)⟩

theorem batchEnded_endBatch : BatchEnded d (endBatch d keep) := by
  obtain ⟨n, hn⟩ := batchUndone_tilth d
  rw [endBatch_eq hbatch]
  refine ⟨?_, ?_, ?_, ?_, ?_, ?_⟩
  · rw [tilthStat_tilth, onTilth_tilth, Tilth.batchClosed]
  · rw [tilthStat_tilth, onTilth_tilth, Tilth.batchClosed]
  · exact (active_congr (tilthStat_sw _)).trans (active_batchUndone d)
  · rw [tilthStat_tilth, onTilth_tilth, Tilth.batchClosed, hn]
  · rw [tilthStat_tilth, onTilth_tilth, Tilth.batchClosed, hn]
  · exact (shadow_congr (tilthStat_sw _)).trans (shadow_batchUndone d)

theorem endBatch_aborted : (endBatch d keep).tilth.aborted = if keep then d.tilth.aborted ++ [b.ring] else d.tilth.aborted := by
  obtain ⟨n, hn⟩ := batchUndone_tilth d
  rw [endBatch_eq hbatch, tilthStat_tilth, onTilth_tilth, Tilth.batchClosed, hn]

end

/-! ### The descriptors of a batch -/

/-- A descriptor without reserved bits has the one other problem asked for, if any. -/
theorem firstProb_of_clean {raw : BitVec 512} (hclean : reservedAt raw = none) (c : Bool) (off why : Nat) :
    firstProb (reservedProb raw ++ probIf c off why) = if c then some (off, why) else none := by
  rw [reservedProb_of_none hclean]
  cases c <;> rfl

/-- The batch that BATCH_OPEN opens, and the commit that BATCH_COMMIT makes of it. -/
def openedBatch (d : Dev) (r : Nat) (raw : BitVec 512) : Batch :=
  { ring := r, atomic := dB raw 16 0, tmo := rd d F.GLB_TILTH_CFG_BATCH_TMO }
def batchCommitOf (t : Tilth) (b : Batch) (r : Nat) (e : QEnt) : Commit :=
  { members := t.staged ++ [{ ring := r, uid := e.uid, idx := e.idx, op := 5, raw := e.raw }], timed := true,
    tsn := targetOf e.raw, chains := t.chains, uses := t.uses, left := b.left, leftIdx := b.leftIdx, atomic := b.atomic }

section
variable {d : Dev} {r : Nat} {e : QEnt} (sn : SN)

theorem serveBatchOpen_of_idle (he : servedBy d r 4 = some e) (hab : d.tilth.aborted.contains r = false)
    (hclean : reservedAt e.raw = none) (hbatch : d.tilth.batch = none) (hprep : d.tilth.prep = none) (hheld : d.tilth.held = [])
    (hevac : d.tilth.evac = none) :
    serveBatchOpen r sn d = tilthStat (finish (onTilth d fun t => { t with
      chains := 0, uses := 0, staged := [], batch := some (openedBatch d r e.raw) }) r e.uid stOk 0 sn) := by
  simp only [serveBatchOpen, he, hab, firstProb_of_clean hclean, hbatch, hprep, hheld, hevac, openedBatch, Option.any_none,
    Option.isSome_none, List.isEmpty_nil, Bool.not_true, Bool.or_self, Bool.false_eq_true, if_false]

section
variable {b : Batch} (hab : d.tilth.aborted.contains r = false) (hclean : reservedAt e.raw = none)
  (hbatch : d.tilth.batch = some b) (hring : b.ring = r)
include hab hclean hbatch hring

theorem serveBatchCommit_of_own (he : servedBy d r 5 = some e) (hmay : mayMember d = true) :
    serveBatchCommit r sn d = tilthStat (take (onTilth d fun t => { t with
      batch := none, staged := [], chains := 0, uses := 0, prep := some (batchCommitOf t b r e) }) r e.uid) := by
  simp only [serveBatchCommit, he, hab, firstProb_of_clean hclean, hbatch, hring, hmay, batchCommitOf, Option.any_some, beq_self_eq_true,
    Bool.not_true, Bool.false_eq_true, if_false, Option.getD_some]

theorem serveBatchAbort_of_own (he : servedBy d r 6 = some e) :
    serveBatchAbort r sn d = if d.tilth.undo then d else finish (endBatch d false) r e.uid stOk 0 sn := by
  simp only [serveBatchAbort, he, hab, firstProb_of_clean hclean, hbatch, hring, Option.any_some, beq_self_eq_true, Bool.not_true,
    Bool.false_eq_true, if_false]

end

/-- BATCH_COMMIT and BATCH_ABORT close a batch. -/
theorem exec_closing {op : Nat} {r : Fin 16} {c : Instr} (hc : (op = 5 ∧ c = .batchCommit r) ∨ (op = 6 ∧ c = .batchAbort r))
    (s : State) (e : QEnt) (he : servedBy s.dev r op = some e) : ∃ g, exec c s = core s g ∧
      (s.dev.tilth.aborted.contains r.val = true → g s.dev =
        finish (onTilth s.dev fun t => { t with aborted := t.aborted.filter (· != r.val) }) r e.uid stAborted 1 s.sn) ∧
      (s.dev.tilth.aborted.contains r.val = false → reservedAt e.raw = none → s.dev.tilth.batch = none →
        g s.dev = badDesc s.dev r e.uid s.sn (0, 7)) := by
  obtain ⟨rfl, rfl⟩ | ⟨rfl, rfl⟩ := hc
  · refine ⟨serveBatchCommit r s.sn, rfl, fun hab => ?_, fun hab hclean hbatch => ?_⟩
    · simp only [serveBatchCommit, he, hab, if_true]
    · simp only [serveBatchCommit, he, hab, firstProb_of_clean hclean, hbatch, Option.any_none, Bool.not_false, if_true,
        Bool.false_eq_true, if_false]
  · refine ⟨serveBatchAbort r s.sn, rfl, fun hab => ?_, fun hab hclean hbatch => ?_⟩
    · simp only [serveBatchAbort, he, hab, if_true]
    · simp only [serveBatchAbort, he, hab, firstProb_of_clean hclean, hbatch, Option.any_none, Bool.not_false, if_true,
        Bool.false_eq_true, if_false]

end

/-! ### What the host sees -/

/-- GLB_TILTH_STATUS shows the open batch and its ring (R245). -/
theorem rd_tilthStat_batch {d : Dev} {b : Batch} (hbatch : d.tilth.batch = some b) (hring : b.ring < 16) :
    rd (tilthStat d) F.GLB_TILTH_STATUS_BATCH_OPEN = 1 ∧ rd (tilthStat d) F.GLB_TILTH_STATUS_BATCH_RING = b.ring := by
  unfold tilthStat
  extract_lets t st d₁ d₂ d₃
  have hshown : rd d₃ F.GLB_TILTH_STATUS_BATCH_OPEN = 1 ∧ rd d₃ F.GLB_TILTH_STATUS_BATCH_RING = b.ring := by
    simp only [d₃, t, hbatch]
    refine ⟨(rd_wr_bits _ _ _ _ _ _ (by decide)).trans ?_, rd_wr_fits _ ⟨by decide, hring⟩⟩
    simp only [d₂, t, hbatch]
    exact rd_wrB_bit _ (by decide) true
  split
  · exact ⟨(rd_wr_addr _ _ _ _ _ _ (by decide)).trans hshown.1, (rd_wr_addr _ _ _ _ _ _ (by decide)).trans hshown.2⟩
  · exact hshown

section
variable {s : State} {r : Fin 16} {e : QEnt} (hcore : s.dev.pwr.core = true)
include hcore

/-- A command after which Tilth's registers follow its state. -/
theorem acts_of_tilthStat {ps : List Part} {c : Instr} {g : Dev → Dev} {x : Dev} {P : State → Prop} (hexec : exec c s = core s g)
    (hg : g s.dev = tilthStat x) (hx : Only ps s.dev x) (hP : P { s with dev := tilthStat x }) (hregs : Part.regs ∉ ps := by simp) :
    ActsR tilthRegs ps c s P := by
  obtain ⟨hparts, hword⟩ := tilthStat_frame x
  exact acts_of_core hexec hcore hg ((hx.trans hparts).mono (by simp))
    ⟨((onlyRegs_of_eq [] (hx .regs hregs)).trans hword).mono (by simp), hP⟩

theorem batchOpen_opens (he : servedBy s.dev r 4 = some e) (hab : s.dev.tilth.aborted.contains r.val = false)
    (hclean : reservedAt e.raw = none) (hbatch : s.dev.tilth.batch = none) (hprep : s.dev.tilth.prep = none)
    (hheld : s.dev.tilth.held = []) (hevac : s.dev.tilth.evac = none) :
    ActsR tilthRegs [.tilth, .hif] (.batchOpen r) s fun t =>
      Served s.dev t.dev r e.uid 0 0 s.sn 0 ∧ t.dev.tilth.batch = some (openedBatch s.dev r e.raw) ∧ t.dev.tilth.staged = [] ∧
      rd t.dev F.GLB_TILTH_STATUS_BATCH_OPEN = 1 ∧ rd t.dev F.GLB_TILTH_STATUS_BATCH_RING = r := by
  refine acts_of_tilthStat hcore rfl (serveBatchOpen_of_idle s.sn he hab hclean hbatch hprep hheld hevac)
    ((only_onTilth s.dev _).trans (only_finish _ r e.uid stOk 0 s.sn 0)) ⟨?_, ?_, ?_, ?_⟩
  · exact (served_finish _ r e.uid stOk 0 s.sn 0).of_hif (onTilth_hif _ _) (tilthStat_hif _)
  · rw [tilthStat_tilth, finish_tilth, onTilth_tilth]
  · rw [tilthStat_tilth, finish_tilth, onTilth_tilth]
  · exact rd_tilthStat_batch (b := openedBatch s.dev r e.raw) (by rw [finish_tilth, onTilth_tilth]) r.isLt

section
variable {b : Batch} (hbatch : s.dev.tilth.batch = some b)
include hbatch

theorem batchTimeout_ends (htmo : b.tmo ≠ 0) : ActsR tilthRegs [.tilth, .sw, .out, .twin] .batchTimeout s fun t =>
    t.dev.tilth.aborted = s.dev.tilth.aborted ++ [b.ring] ∧ BatchEnded s.dev t.dev := by
  obtain ⟨hparts, hregs⟩ := endBatch_frame hbatch true
  refine acts_of_core rfl hcore (e := endBatch s.dev true) ?_ hparts ⟨hregs, endBatch_aborted hbatch true, batchEnded_endBatch hbatch true⟩
  simp only [batchTimeout, hbatch, if_neg htmo]

theorem batchTimeout_off (htmo : b.tmo = 0) : exec .batchTimeout s = .next s :=
  exec_next_of_same rfl hcore (by simp only [batchTimeout, hbatch, if_pos htmo])

section
variable (hring : b.ring = r) (hab : s.dev.tilth.aborted.contains r.val = false) (hclean : reservedAt e.raw = none)
include hring hab hclean

theorem batchCommit_prepares (he : servedBy s.dev r 5 = some e) (hmay : mayMember s.dev = true) :
    ActsR tilthRegs [.tilth, .hif] (.batchCommit r) s fun t =>
      Taken s.dev t.dev r e.uid ∧ t.dev.tilth.batch = none ∧ t.dev.tilth.staged = [] ∧
      t.dev.tilth.prep = some (batchCommitOf s.dev.tilth b r e) := by
  refine acts_of_tilthStat hcore rfl (serveBatchCommit_of_own s.sn hab hclean hbatch hring he hmay)
    ((only_onTilth s.dev _).trans (only_take _ r e.uid)) ⟨?_, ?_, ?_, ?_⟩
  · exact (taken_take _ r e.uid).of_hif (onTilth_hif _ _) (tilthStat_hif _)
  all_goals rw [tilthStat_tilth, take_tilth, onTilth_tilth]

theorem batchAbort_ends (he : servedBy s.dev r 6 = some e) (hundo : s.dev.tilth.undo = false) :
    ActsR tilthRegs [.tilth, .sw, .hif, .out, .twin] (.batchAbort r) s fun t =>
      Served s.dev t.dev r e.uid 0 0 s.sn 0 ∧ BatchEnded s.dev t.dev := by
  obtain ⟨hparts, hregs⟩ := endBatch_frame hbatch false
  refine acts_of_core rfl hcore (e := finish (endBatch s.dev false) r e.uid stOk 0 s.sn) ?_
    ((hparts.trans (only_finish _ r e.uid stOk 0 s.sn 0)).mono (by simp)) ⟨hregs, ?_, batchEnded_endBatch hbatch false⟩
  · rw [serveBatchAbort_of_own s.sn hab hclean hbatch hring he, hundo, if_neg Bool.false_ne_true]
  · exact (served_finish _ r e.uid stOk 0 s.sn 0).of_hif (hparts .hif (by simp)) rfl

theorem batchAbort_waits (he : servedBy s.dev r 6 = some e) (hundo : s.dev.tilth.undo = true) :
    exec (.batchAbort r) s = .next s :=
  exec_next_of_same rfl hcore (by rw [serveBatchAbort_of_own s.sn hab hclean hbatch hring he, if_pos hundo])

end

end

end

/-- Settles O16: the opening, the two ends of an open batch, its timeout, and the closing descriptors without one. -/
theorem batchesOpenCommitAbort : Obligations.BatchesOpenCommitAbort := by
  unfold Obligations.BatchesOpenCommitAbort
  intro s r e hcore
  refine ⟨fun he hab hclean hbatch hprep hheld hevac => batchOpen_opens hcore he hab hclean hbatch hprep hheld hevac,
    fun b hbatch hring hab hclean => ⟨fun he hmay => ?commit, fun he => ?abort⟩,
    fun b hbatch => ⟨fun htmo => batchTimeout_ends hcore hbatch htmo, fun htmo => batchTimeout_off hcore hbatch htmo⟩,
    fun op c hc he => ?closing⟩
  case commit =>
    refine Acts.weaken (batchCommit_prepares hcore hbatch hring hab hclean he hmay) ?_
    rintro t ⟨hregs, htaken, hnone, hstaged, hprep⟩
    exact ⟨hregs, htaken, hnone, hstaged, _, hprep, rfl, rfl, rfl, rfl, rfl⟩
  case abort =>
    exact ⟨fun hundo => batchAbort_ends hcore hbatch hring hab hclean he hundo,
      fun hundo => batchAbort_waits hcore hbatch hring hab hclean he hundo⟩
  case closing =>
    obtain ⟨g, hexec, haborted, hnone⟩ := exec_closing hc s e he
    refine ⟨fun hab => ?_, fun hab hclean hbatch => acts_of_finish hexec hcore (hnone hab hclean hbatch)⟩
    exact acts_of_core hexec hcore (haborted hab) ((only_onTilth s.dev _).trans (only_finish _ r e.uid stAborted 1 s.sn 0))
      ⟨(served_finish _ r e.uid stAborted 1 s.sn 0).of_hif (onTilth_hif _ _) rfl, rfl⟩

end Sys2Proof.Machine
end

