-- ==== Sys2Proof/Proofs/TwinRecords.lean ====
section
/-! PROOFS. Records on the twin link (R296, R300, R307): a record taken up, one handed to the link, the acknowledgement, and the
divergence of a standby with its notice. -/

namespace Sys2Proof.Machine

/-! ### A standby that follows (R296) -/

/-- TWN_STATUS. -/
abbrev twinWord : Nat := F.TWN_STATUS_ROLE.addr 0

/-- The link is as it was where TWN_STATUS is not written. -/
theorem OnlyRegs.linkUp {as : List Nat} {a b : Dev} (h : OnlyRegs as a b) (has : twinWord ∉ as := by simp) :
    Machine.linkUp b = Machine.linkUp a := by
  have hword : rdWord b (F.TWN_STATUS_LINK.addr 0) = rdWord a (F.TWN_STATUS_LINK.addr 0) := h _ has
  simp only [Machine.linkUp, rdB, rd, hword]

theorem Evals.follows {as : List Nat} {ps : List Part} {a b : Dev} (h : Evals as ps a b) (has : twinWord ∉ as := by simp) :
    Machine.follows b = Machine.follows a := by
  have hlink : linkUp b = linkUp a := h.regs.linkUp has
  have hcoupling : coupling b = coupling a := h.rd has
  rw [Machine.follows, Machine.follows, h.role, hlink, hcoupling]

theorem linkUp_of_follows {d : Dev} (h : follows d = true) : linkUp d = true := by
  simp only [follows, Bool.and_eq_true] at h
  exact h.1.2

theorem role_of_follows {d : Dev} (h : follows d = true) : d.twin.role = .standby := by
  simp only [follows, Bool.and_eq_true, beq_iff_eq] at h
  exact h.1.1

/-! ### A record taken up (R300, Table 17-10) -/

/-- The device once a record command has taken its record up. -/
def recordTaken (typ : Nat) (d : Dev) : Dev := perf (takeRecord typ d) 0x13 0

/-- What that leaves: of the twin only the records received change. -/
structure TakesRecord (a b : Dev) : Prop where
  frame : Evals [] [.twin, .pm] a b
  twin : b.twin = { a.twin with inbox := b.twin.inbox }

theorem takesRecord_recordTaken (typ : Nat) (d : Dev) : TakesRecord d (recordTaken typ d) where
  frame :=
    have htake : Evals [] [.twin] d (takeRecord typ d) :=
      ⟨only_twin d _, onlyRegs_of_eq [] rfl, rfl, ⟨[], by simp [Raised, takeRecord, onTwin]⟩, rfl⟩
    htake.mono.next (evals_perf _ 0x13 0 1)
  twin := by
    simp only [recordTaken, perf_twin]
    rfl

namespace TakesRecord

variable {a b : Dev} (h : TakesRecord a b)
include h

theorem tilth : b.tilth = a.tilth := h.frame.parts .tilth (by simp)
theorem sw : b.sw = a.sw := h.frame.parts .sw (by simp)
theorem prot : b.prot = a.prot := h.frame.parts .prot (by simp)
theorem evq : b.hif.evq = a.hif.evq := congrArg Hif.evq (h.frame.parts .hif (by simp))
theorem out : b.out = a.out := h.frame.parts .out (by simp)
theorem txq : b.twin.txq = a.twin.txq := by rw [h.twin]
theorem follows : Machine.follows b = Machine.follows a := h.frame.follows
theorem groupOf (pgid : Nat) : Machine.groupOf b pgid = Machine.groupOf a pgid := by simp only [Machine.groupOf, h.prot]

end TakesRecord

/-! ### A record handed to the link (R300) -/

theorem SentRec.of_same {a a' b : Dev} {rs : List (Nat × List Nat)} (h : SentRec a b rs) (hout : a.out = a'.out)
    (htxq : a.twin.txq = a'.twin.txq) : SentRec a' b rs := by
  simpa only [SentRec, Sent, hout, htxq] using h

theorem Raised.of_same {a a' b b' : Dev} {es : List Ev} (h : Raised a b es) (hevq : a.hif.evq = a'.hif.evq)
    (hrole : a.twin.role = a'.twin.role) (hlast : b'.hif.evq = b.hif.evq) : Raised a' b' es := by
  simpa only [Raised, hevq, hrole, hlast] using h

section
variable {d : Dev} (hlink : linkUp d = true)
include hlink

/-- A record leaves while the link is up. -/
theorem sentRec_twinSend (typ : Nat) (ws : List Nat) : SentRec d (twinSend d typ ws) [(typ, ws)] := by
  have hput : twinSend d typ ws = twinPut d typ ws := if_pos hlink
  rw [hput]
  exact ⟨rfl, rfl⟩

/-- The acknowledgement, where no applied descriptor waits for Loess blocks (R178, R243, R307). -/
theorem sentRec_sendAck (hwait : d.twin.cfgWait = []) :
    SentRec d (sendAck d) [(7, [d.twin.commitSeq, d.twin.configSeq])] := by
  rw [sendAck, hwait]
  exact sentRec_twinSend hlink 7 _

end

theorem evals_sendAck (d : Dev) : Evals [] [.out, .twin] d (sendAck d) := evals_twinSend d 7 _

/-! ### Divergence (R296) -/

theorem diverge_of_follows {d : Dev} (h : follows d = true) (sn : SN) (cause : Nat) : diverge sn cause d = toDiverged sn cause d := by
  simp only [follows, Bool.and_eq_true, beq_iff_eq, decide_eq_true_eq] at h
  obtain ⟨⟨hrole, -⟩, hcoupling⟩ := h
  exact if_pos ⟨hrole, hcoupling⟩

/-- A standby that has entered DIVERGED, and has said so, between `a` and `b`. -/
def Diverged (a b : Dev) (sn : SN) (cause : Nat) : Prop :=
  rd b F.TWN_STATUS_COUPLING = 1 ∧ b.twin.role = .standby ∧ SentRec a b [(0xC, [1])] ∧
  Raised a b [{ typ := 0x65, sn := sn, p0 := cause }]

section
variable (sn : SN) (cause : Nat) (d : Dev)

/-- The standby once it holds nothing of its active's any more. -/
def uncoupled : Dev :=
  onTwin (setCoupling d 1) fun t => { t with snapLast := false, resyncT := none, clean := 0, early := [], cfgWait := [] }

theorem toDiverged_eq :
    toDiverged sn cause d = twinSend (raise (uncoupled d) { typ := 0x65, sn := sn, p0 := cause }) 0xC [1] := rfl

theorem uncoupled_frame : Only [.regs, .twin] d (uncoupled d) ∧ OnlyRegs [twinWord] d (uncoupled d) :=
  ⟨(only_wr d F.TWN_STATUS_COUPLING 0 1).trans (only_twin _ _), onlyRegs_wr d F.TWN_STATUS_COUPLING 0 1⟩

theorem toDiverged_frame : Only [.regs, .twin, .hif, .out] d (toDiverged sn cause d) ∧ OnlyRegs [twinWord] d (toDiverged sn cause d) := by
  obtain ⟨hparts, hregs⟩ := uncoupled_frame d
  have hnotice := evals_twinSend (raise (uncoupled d) { typ := 0x65, sn := sn, p0 := cause }) 0xC [1]
  rw [toDiverged_eq]
  exact ⟨((hparts.trans (only_raise _ _)).trans hnotice.parts).mono (by simp), (hregs.trans hnotice.regs).mono (by simp)⟩

theorem diverged_toDiverged {d : Dev} (h : follows d = true) : Diverged d (toDiverged sn cause d) sn cause := by
  have hlink : linkUp (raise (uncoupled d) { typ := 0x65, sn := sn, p0 := cause }) = true := by
    have hsame : rd (setCoupling d 1) F.TWN_STATUS_LINK = rd d F.TWN_STATUS_LINK := rd_wr_bits d _ _ 0 0 1 (by decide)
    exact (congrArg (· != 0) hsame).trans (linkUp_of_follows h)
  have hnotice := evals_twinSend (raise (uncoupled d) { typ := 0x65, sn := sn, p0 := cause }) 0xC [1]
  rw [toDiverged_eq]
  refine ⟨?_, ?_, (sentRec_twinSend hlink 0xC [1]).of_same rfl rfl, ?_⟩
  · rw [hnotice.rd (by simp)]
    exact rd_wr_fits d (by decide)
  · exact hnotice.role.trans (role_of_follows (d := d) h)
  · exact (raised_raise (uncoupled d) _).of_same rfl rfl (congrArg Hif.evq (twinSend_hif _ _ _))

end

end Sys2Proof.Machine
end

