-- ==== Sys2Proof/Proofs/MirroredRecords.lean ====
section
/-! PROOFS. Mirrored records (R243, R244, R259, R267, R307): what a standby does with ENTRY, COMMIT, CONFIG, DECISION and
PSC_SEL, and the active with ACK or without one. -/

namespace Sys2Proof.Machine

/-! ### ENTRY (R243) -/

/-- The plane states that entries of memory 3 bring (R215). -/
def planeWrites (ws : List EntryWr) : List (Nat × Nat) :=
  (ws.filter fun w => w.mem.val == 3 && decide (w.key < 8)).map fun w => (w.key, w.val.toNat % 4)

/-- A released shadow takes the writes that came before (R20, R322). -/
theorem lateWrites_spec (d : Dev) : Only [.tilth, .sw] d (lateWrites d) ∧
    (lateWrites d).tilth = { d.tilth with late := [], fresh := false } ∧ active (lateWrites d) = active d ∧
    shadow (lateWrites d) = d.tilth.late.foldl writeEnt (if d.tilth.fresh then {} else shadow d) := by
  unfold lateWrites
  split
  case isTrue h =>
    obtain ⟨hfresh, hlate⟩ := h
    simp only [Bool.not_eq_true'] at hfresh
    refine ⟨Only.refl _ d, ?_, rfl, by simp only [hlate, hfresh, List.foldl_nil, Bool.false_eq_true, if_false]⟩
    rw [← hlate, ← hfresh]
  case isFalse =>
    extract_lets ws d₁
    have h₁ : Only [.sw] d d₁ ∧ d₁.tilth = d.tilth ∧ active d₁ = active d ∧ shadow d₁ = if d.tilth.fresh then {} else shadow d := by
      simp only [d₁]
      split
      · exact ⟨only_setShadow d {}, rfl, active_setShadow d {}, shadow_setShadow d {}⟩
      · exact ⟨Only.refl _ d, rfl, rfl, rfl⟩
    obtain ⟨hparts, htilth, hactive, hshadow⟩ := h₁
    refine ⟨(((hparts.trans (only_setShadow _ _)).trans (only_cleanEnts _ _ _)).trans (only_onTilth _ _)).mono (by simp), ?_,
      ?_, ?_⟩
    · rw [onTilth_tilth, cleanEnts_tilth, setShadow_tilth, htilth]
    · rw [active_congr (onTilth_sw _ _), active_cleanEnts, active_setShadow, hactive]
    · rw [shadow_congr (onTilth_sw _ _), shadow_cleanEnts, shadow_setShadow, hshadow]

section
variable {d : Dev} (hrel : d.tilth.released = true) (hlate : d.tilth.late = []) (hfresh : d.tilth.fresh = false)
  (ws : List EntryWr)
include hrel hlate hfresh

/-- Entries enter a released shadow at once. -/
theorem putEntries_spec : Only [.tilth, .sw] d (putEntries ws d) ∧
    (putEntries ws d).tilth = { d.tilth with planeIn := d.tilth.planeIn ++ planeWrites ws } ∧
    active (putEntries ws d) = active d ∧ shadow (putEntries ws d) = ws.foldl writeEnt (shadow d) := by
  have hput : putEntries ws d =
      lateWrites (onTilth d fun t => { t with planeIn := t.planeIn ++ planeWrites ws, late := t.late ++ ws }) := if_pos hrel
  obtain ⟨hparts, htilth, hactive, hshadow⟩ :=
    lateWrites_spec (onTilth d fun t => { t with planeIn := t.planeIn ++ planeWrites ws, late := t.late ++ ws })
  rw [hput]
  refine ⟨((only_onTilth d _).trans hparts).mono (by simp), ?_, hactive, ?_⟩
  · rw [htilth, onTilth_tilth, ← hlate, ← hfresh]
  · rw [hshadow, onTilth_tilth, hlate, hfresh, List.nil_append]
    rfl

end

theorem pageRelease_of_released {d : Dev} (h : d.tilth.released = true) (sn : SN) : pageRelease sn d = d := by
  rw [pageRelease, h, Bool.true_or, if_pos rfl]

/-- The standby expects the record after `seq`. -/
def entryAwaited (seq : Nat) (d : Dev) : Dev := onTwin d fun t => { t with seqIn := some (seq + 1) }

section
variable (seq : Nat) (d : Dev)

theorem entryAwaited_tilth : (entryAwaited seq d).tilth = d.tilth := rfl
theorem entryAwaited_twin : (entryAwaited seq d).twin = { d.twin with seqIn := some (seq + 1) } := rfl
theorem only_entryAwaited : Only [.twin] d (entryAwaited seq d) := only_twin d _

end

section
variable {d : Dev} (hf : follows d = true) {seq : Nat} (ws : List EntryWr) (sn : SN)
include hf

theorem entryIn_of_gap (hgap : inTurn d.twin.seqIn seq = false) : entryIn seq ws sn d = toDiverged sn 2 d := by
  rw [← diverge_of_follows hf]
  simp only [entryIn, hf, hgap, Bool.not_true, Bool.not_false, Bool.false_eq_true, if_false, if_true]

theorem entryIn_of_turn (hturn : inTurn d.twin.seqIn seq = true) (hrel : d.tilth.released = true) :
    entryIn seq ws sn d = putEntries ws (if d.tilth.prep.isSome then
      tilthStat (onTilth (entryAwaited seq d) fun t => { t with prep := none }) else entryAwaited seq d) := by
  simp only [entryIn, hf, hturn, pageRelease_of_released hrel, Bool.not_true, Bool.false_eq_true, if_false]
  rfl

end

/-! ### COMMIT (R243, R244) -/

/-- The commit that a COMMIT record arms at the standby. -/
def armedCommit (seq : Nat) (x : SN) : Commit :=
  { members := [], timed := true, tsn := x, target := some x, acked := true, seq := seq }

/-- The twin and Tilth of the standby with that commit armed. -/
def commitArmed (seq : Nat) (x : SN) (d : Dev) : Dev :=
  tilthStat (onTilth (onTwin d fun t => { t with
      seqIn := some (seq + 1), commitSeq := seq, clean := if t.snapLast then 0 else t.clean,
      resyncT := if t.snapLast then some x else t.resyncT, snapLast := false }) fun t =>
    { t with prep := some (armedCommit seq x) })

section
variable {d : Dev} (hf : follows d = true) {seq : Nat} (x sn : SN)
include hf

theorem commitIn_of_gap (hgap : inTurn d.twin.seqIn seq = false) : commitIn seq x sn d = toDiverged sn 2 d := by
  rw [← diverge_of_follows hf]
  simp only [commitIn, hf, hgap, Bool.not_true, Bool.not_false, Bool.false_eq_true, if_false, if_true]

theorem commitIn_of_turn (hturn : inTurn d.twin.seqIn seq = true) : commitIn seq x sn d =
    if 2 ≤ (x - sn).toNat ∧ (x - sn).toNat < 2 ^ 31 then sendAck (commitArmed seq x d) else toDiverged sn 1 d := by
  rw [← diverge_of_follows hf]
  by_cases hx : 2 ≤ (x - sn).toNat ∧ (x - sn).toNat < 2 ^ 31
  · simp only [commitIn, hf, hturn, if_pos hx, decide_eq_true hx, Bool.not_true, Bool.false_eq_true, if_false]
    rfl
  · simp only [commitIn, hf, hturn, if_neg hx, decide_eq_false hx, Bool.not_true, Bool.not_false, Bool.false_eq_true, if_false, if_true]

end

theorem commitArmed_frame (seq : Nat) (x : SN) (d : Dev) :
    Only [.regs, .tilth, .twin] d (commitArmed seq x d) ∧ OnlyRegs tilthRegs d (commitArmed seq x d) := by
  unfold commitArmed
  generalize hafter : onTilth _ _ = e
  have hbefore : Only [.twin, .tilth] d e := hafter ▸ (only_twin d _).trans (only_onTilth _ _)
  obtain ⟨hparts, hregs⟩ := tilthStat_frame e
  exact ⟨(hbefore.trans hparts).mono (by simp), ((onlyRegs_of_eq [] (hbefore .regs (by simp))).trans hregs).mono (by simp)⟩

section
variable (seq : Nat) (x : SN) (d : Dev)

theorem commitArmed_tilth : (commitArmed seq x d).tilth = { d.tilth with prep := some (armedCommit seq x) } := tilthStat_tilth _

theorem commitArmed_twin : (commitArmed seq x d).twin = { d.twin with
    seqIn := some (seq + 1), commitSeq := seq, clean := if d.twin.snapLast then 0 else d.twin.clean,
    resyncT := if d.twin.snapLast then some x else d.twin.resyncT, snapLast := false } := tilthStat_twin _

end

/-! ### CONFIG (R307) -/

/-- A group with a mirrored PG_COMMAND at its command input, or waiting for its sweep (R262). -/
def Group.commanded (g : Group) (raw : BitVec 512) : Group :=
  let k := dF raw 16 20 4
  let sig := if k = 1 then 0 else dF raw 16 24 4
  if timedOf raw then { g with timed := some (k, sig, mirrorRing, 0, targetOf raw, false) }
  else if k = 0 then { g with cmd := none, wtr := none, timed := none } else { g with cmd := some (k, sig), timed := none }

/-- The standby has applied CONFIG record `seq`. -/
def configApplied (seq : Nat) (d : Dev) : Dev := onTwin d fun t => { t with cfgIn := some (seq + 1), configSeq := seq }

theorem applyCfg_of_command {raw : BitVec 512} (hop : opOf raw = 0x12) (ls : List (List W32)) (sn : SN) (d : Dev) :
    applyCfg raw ls sn d = cfgCommand raw d := by
  simp [applyCfg, hop]

/-- Of a queue that has not changed no descriptor is new. -/
theorem filter_new_eq_nil (q : List QEnt) : q.filter (fun e => !(q.map (·.uid)).contains e.uid) = [] := by
  rw [List.filter_eq_nil_iff]
  intro e he
  simpa using ⟨e, he, rfl⟩

section
variable {d : Dev} (hf : follows d = true) {seq : Nat} {raw : BitVec 512} (ls : List (List W32)) (sn : SN)
include hf

theorem configIn_of_gap (hgap : inTurn d.twin.cfgIn seq = false) : configIn seq raw ls sn d = toDiverged sn 2 d := by
  rw [← diverge_of_follows hf]
  simp only [configIn, hf, hgap, Bool.not_true, Bool.not_false, Bool.false_eq_true, if_false, if_true]

section
variable (hturn : inTurn d.twin.cfgIn seq = true) (hop : opOf raw = 0x12)
include hturn hop

theorem configIn_of_unknown_group (hgroup : groupOf d (dF raw 16 0 17) = none) :
    configIn seq raw ls sn d = toDiverged sn 3 d := by
  rw [← diverge_of_follows hf]
  simp only [configIn, hf, hturn, applyCfg_of_command hop, cfgCommand, hgroup, Bool.not_true, Bool.false_eq_true, if_false]

theorem configIn_of_command {g : Group} (hgroup : groupOf d (dF raw 16 0 17) = some g) :
    configIn seq raw ls sn d = sendAck (configApplied seq (setGroup d (dF raw 16 0 17) (g.commanded raw))) := by
  have hnew : ((ringOf (setGroup d (dF raw 16 0 17) (g.commanded raw)) mirrorRing).q.filter
      fun e => !((ringOf d mirrorRing).q.map (·.uid)).contains e.uid) = [] := filter_new_eq_nil _
  have hcmd : cfgCommand raw d = (setGroup d (dF raw 16 0 17) (g.commanded raw), true) := by
    simp only [cfgCommand, hgroup]
    rfl
  simp only [configIn, hf, hturn, applyCfg_of_command hop, hcmd, hnew, List.map_nil, List.append_nil, Bool.not_true,
    Bool.false_eq_true, if_false, if_true]
  rfl

end

end

/-! ### DECISION and PSC_SEL (R259, R267) -/

/-- A decision with another signal is pending in its group, and its timers are the ones that it carries. -/
theorem putDecision_pends {d : Dev} {x : DecisionRec} {g : Group} (sn : SN) (hgroup : groupOf d x.pgid.toNat = some g)
    (htyp : g.cfg.typ ≠ 2) (hpend : g.pend = none) (hsel : x.sel.val ≠ g.r) : ∃ g', putDecision x sn d = setGroup d x.pgid.toNat g' ∧
      g'.cfg = g.cfg ∧ g'.r = g.r ∧ g'.pend = some ⟨x.sel.val, x.x, x.top.toNat⟩ ∧ g'.lastReq = x.top.toNat ∧
      g'.wtr = x.wtr.map fun y => (x.sel.val, y) := by
  simp only [putDecision, hgroup, projSig, hpend, if_neg htyp, if_pos hsel]
  exact ⟨_, rfl, rfl, rfl, rfl, rfl, rfl⟩

/-- The active has sent for group `pgid` the entry `e` (R267). -/
def pscSent (d : Dev) (e : BitVec 30) (pgid : Nat) : Bool :=
  e.getLsbD 29 && (groupOf d pgid).any fun g => g.cfg.farPgid == (e.extractLsb' 12 17).toNat

theorem pscSent_iff (d : Dev) (e : BitVec 30) (pgid : Nat) : pscSent d e pgid = true ↔
    e.getLsbD 29 = true ∧ ∃ g, groupOf d pgid = some g ∧ g.cfg.farPgid = (e.extractLsb' 12 17).toNat := by
  simp only [pscSent, Bool.and_eq_true, Option.any_eq_true, beq_iff_eq]

theorem mem_unsent (d : Dev) (a b : BitVec 30) (l : List (Nat × SN)) (q : Nat × SN) :
    q ∈ l.filter (fun q => !(pscSent d a q.1 || pscSent d b q.1)) ↔ q ∈ l ∧
      ¬ (a.getLsbD 29 = true ∧ ∃ g, groupOf d q.1 = some g ∧ g.cfg.farPgid = (a.extractLsb' 12 17).toNat) ∧
      ¬ (b.getLsbD 29 = true ∧ ∃ g, groupOf d q.1 = some g ∧ g.cfg.farPgid = (b.extractLsb' 12 17).toNat) := by
  rw [← pscSent_iff, ← pscSent_iff, List.mem_filter]
  simp only [Bool.not_eq_true', Bool.or_eq_false_iff, Bool.not_eq_true]

section
variable {d : Dev} (hf : follows d = true) (n : Nat) (a b : BitVec 30)
include hf

theorem pscSelIn_of_follows : pscSelIn n a b d = { d with prot := { d.prot with psc := tmod {} d.prot.psc n fun t =>
    { t with given := some (a, b), q := t.q.filter fun q => !(pscSent d a q.1 || pscSent d b q.1) } } } := by
  simp only [pscSelIn, hf, Bool.not_true, Bool.false_eq_true, if_false]
  rfl

theorem pscSelIn_lane : tget {} (pscSelIn n a b d).prot.psc n = { tget {} d.prot.psc n with
    given := some (a, b), q := (tget {} d.prot.psc n).q.filter fun q => !(pscSent d a q.1 || pscSent d b q.1) } := by
  rw [pscSelIn_of_follows hf]
  exact tget_tput_same _ _ _ _

theorem pscSelIn_lane_ne {m : Nat} (h : m ≠ n) : tget {} (pscSelIn n a b d).prot.psc m = tget {} d.prot.psc m := by
  rw [pscSelIn_of_follows hf]
  exact tget_tput_ne _ _ _ h

end

/-! ### ACK (R244, R307) -/

/-- The device with its commit acknowledged up to COMMIT record `cs`. -/
def commitAcked (cs : Nat) (d : Dev) : Dev :=
  match d.tilth.prep with
  | some c => if c.target.isSome ∧ c.seq ≤ cs then onTilth d fun t => { t with prep := some { c with acked := true } } else d
  | none => d

/-- A descriptor that waits for an acknowledgement: sequence number, ring, `uid`, status and RESULT. -/
abbrev Waiting := Nat × Nat × Nat × Nat × BitVec 64

/-- Those acknowledged up to CONFIG record `fs` complete, and wait no more. -/
def waitServed (sn : SN) (d : Dev) (w : Waiting) : Dev := finish d w.2.1 w.2.2.1 w.2.2.2.1 0 sn w.2.2.2.2
def waitsServed (fs : Nat) (sn : SN) (ws : List Waiting) (d : Dev) : Dev :=
  (ws.filter fun w => decide (w.1 ≤ fs)).foldl (waitServed sn) (onTwin d fun t => { t with waits := ws.filter fun w => decide (fs < w.1) })

theorem only_waitsServed (fs : Nat) (sn : SN) (ws : List Waiting) (d : Dev) : Only [.twin, .hif] d (waitsServed fs sn ws d) := by
  have hserved (d : Dev) (ws : List Waiting) : Only [.hif] d (ws.foldl (waitServed sn) d) := by
    induction ws generalizing d with
    | nil => exact Only.refl _ d
    | cons w ws ih => exact ((only_finish d _ _ _ 0 sn _).trans (ih _)).mono (by simp)
  exact (only_twin d _).trans (hserved _ _)

theorem ackIn_of_active {d : Dev} (hrole : d.twin.role = .active) (cs fs : Nat) (sn : SN) :
    ackIn cs fs sn d = waitsServed fs sn (commitAcked cs d).twin.waits (commitAcked cs d) := by
  rw [ackIn, if_neg (by simp [hrole])]
  rfl

/-- With no commit in preparation, an acknowledgement is about what waits. -/
theorem ackIn_of_no_commit {a d : Dev} (hd : TakesRecord a d) (hrole : a.twin.role = .active) (hprep : a.tilth.prep = none)
    (cs fs : Nat) (sn : SN) : ackIn cs fs sn d = waitsServed fs sn a.twin.waits d := by
  have hsame : commitAcked cs d = d := by simp only [commitAcked, hd.tilth, hprep]
  have hwaits : d.twin.waits = a.twin.waits := by rw [hd.twin]
  rw [ackIn_of_active (hd.frame.role.trans hrole), hsame, hwaits]

/-! ### The active without acknowledgements (R307) -/

theorem divergeMate_frame (d : Dev) : Only [.regs, .twin] d (divergeMate d) ∧ OnlyRegs [twinWord] d (divergeMate d) :=
  ⟨((only_twin d { d.twin with diverged := true }).trans (only_wr _ F.TWN_STATUS_COUPLING 0 1)).mono (by simp),
    onlyRegs_wr { d with twin := { d.twin with diverged := true } } F.TWN_STATUS_COUPLING 0 1⟩

section
variable {d : Dev} (hrole : d.twin.role = .active) (hresync : d.twin.resync = none) (hauto : rd d F.TWN_CFG_AUTO_RESYNC = 0)
  (sn : SN)
include hrole hresync hauto

/-- Without a resync that runs or that starts by itself, a diverged mate is all there is. -/
theorem mateDiverged_of_manual (hcoupling : coupling d ≠ 0) : mateDiverged sn d = divergeMate d := by
  have hoff : rdB (divergeMate d) F.TWN_CFG_AUTO_RESYNC = false := by
    have hsame : rd (divergeMate d) F.TWN_CFG_AUTO_RESYNC = rd d F.TWN_CFG_AUTO_RESYNC := rd_wr_addr _ _ _ _ _ _ (by decide)
    rw [rdB, hsame, hauto]
    rfl
  simp [mateDiverged, hrole, hcoupling, hresync, autoResync, hoff]

theorem ackTimeout_of_waiting {w : Waiting} {ws : List Waiting}
    (hwaits : d.twin.waits = w :: ws) (hcoupling : 2 ≤ coupling d) : ackTimeout sn d =
      divergeMate (twinSend (finish (onTwin d fun t => { t with waits := ws }) w.2.1 w.2.2.1 stDiverged 0 sn w.2.2.2.2) 0xC [1]) := by
  generalize hd₁ : finish (onTwin d fun t => { t with waits := ws }) w.2.1 w.2.2.1 stDiverged 0 sn w.2.2.2.2 = d₁
  have hrole₁ : d₁.twin.role = .active := hd₁ ▸ hrole
  have hresync₁ : d₁.twin.resync = none := hd₁ ▸ hresync
  have hrd (f : Fld) : rd d₁ f = rd d f := by rw [← hd₁]; rfl
  have hsent := evals_twinSend d₁ 0xC [1]
  have hcoupling₁ : 2 ≤ coupling d₁ := hcoupling.trans_eq (hrd _).symm
  have hmate : mateDiverged sn (control d₁ 1) = divergeMate (twinSend d₁ 0xC [1]) := by
    refine mateDiverged_of_manual (hsent.role.trans hrole₁) ?_ ?_ sn ?_
    · exact (congrArg Twin.resync hsent.twin).trans hresync₁
    · exact (hsent.rd (by simp)).trans ((hrd _).trans hauto)
    · have hkept : coupling (twinSend d₁ 0xC [1]) = coupling d₁ := hsent.rd (by simp)
      rw [hkept]
      omega
  simp only [ackTimeout, hwaits, hd₁, hrole₁, hcoupling₁, and_self, if_true, hmate]

end

/-! ### What the host sees -/

section
variable (s : State)

theorem exec_entry (seq : Nat) (ws : List EntryWr) :
    exec (.entry seq ws) s = core s fun d => entryIn seq ws s.sn (recordTaken 5 d) := rfl
theorem exec_commit (seq : Nat) (x : SN) : exec (.commit seq x) s = core s fun d => commitIn seq x s.sn (recordTaken 6 d) := rfl
theorem exec_ack (cs fs : Nat) : exec (.ack cs fs) s = core s fun d => ackIn cs fs s.sn (recordTaken 7 d) := rfl
theorem exec_decision (x : DecisionRec) : exec (.decision x) s = core s fun d => decisionIn x s.sn (recordTaken 8 d) := rfl
theorem exec_pscSel (n : Fin 128) (a b : BitVec 30) :
    exec (.pscSel n a b) s = core s fun d => pscSelIn n a b (recordTaken 9 d) := rfl
theorem exec_config (seq : Nat) (raw : BitVec 512) (ls : List (List W32)) :
    exec (.config seq raw ls) s = core s fun d => configIn seq raw ls s.sn (recordTaken 0xA d) := rfl

end

/-- A command that takes up a record of a running core's link. -/
theorem acts_of_record {ps : List Part} {c : Instr} {s : State} {typ : Nat} {f : Dev → Dev} {P : State → Prop}
    (hexec : exec c s = core s fun d => f (recordTaken typ d)) (hcore : s.dev.pwr.core = true)
    (h : ∀ d, TakesRecord s.dev d → ∃ e, f d = e ∧ Only ps s.dev e ∧ P { s with dev := e }) : Acts ps c s P := by
  obtain ⟨e, he, hparts, hP⟩ := h _ (takesRecord_recordTaken typ s.dev)
  exact acts_of_core hexec hcore he hparts hP

/-- Entries have come with ENTRY record `seq` between `a` and `b`: they stand in the shadow, and no commit is armed. -/
def EntriesTaken (a b : Dev) (seq : Nat) (ws : List EntryWr) : Prop :=
  shadow b = ws.foldl writeEnt (shadow a) ∧ active b = active a ∧
  b.tilth = { a.tilth with prep := none, planeIn := a.tilth.planeIn ++ planeWrites ws } ∧
  b.twin = queuesOf { a.twin with seqIn := some (seq + 1) } b.twin

theorem entriesTaken_putEntries {a x : Dev} {seq : Nat} (ws : List EntryWr) (hrel : a.tilth.released = true)
    (hlate : a.tilth.late = []) (hfresh : a.tilth.fresh = false) (hsw : x.sw = a.sw)
    (htilth : x.tilth = { a.tilth with prep := none }) (htwin : x.twin = queuesOf { a.twin with seqIn := some (seq + 1) } x.twin) :
    Only [.tilth, .sw] x (putEntries ws x) ∧ EntriesTaken a (putEntries ws x) seq ws := by
  obtain ⟨hparts, hput, hactive, hshadow⟩ := putEntries_spec (d := x) (by rw [htilth]; exact hrel) (by rw [htilth]; exact hlate)
    (by rw [htilth]; exact hfresh) ws
  have hkept : (putEntries ws x).twin = x.twin := hparts .twin (by simp)
  refine ⟨hparts, ?_, hactive.trans (active_congr hsw), ?_, ?_⟩
  · rw [hshadow, shadow_congr hsw]
  · rw [hput, htilth]
  · rw [hkept]
    exact htwin

theorem TakesRecord.twin_entryAwaited {a d : Dev} (h : TakesRecord a d) (seq : Nat) :
    (entryAwaited seq d).twin = queuesOf { a.twin with seqIn := some (seq + 1) } (entryAwaited seq d).twin := by
  rw [entryAwaited_twin, h.twin]
  rfl

section
variable {s : State} (hcore : s.dev.pwr.core = true)
include hcore

section
variable (hf : follows s.dev = true)
include hf

/-- A record after which the standby diverges. -/
theorem record_diverges {c : Instr} {f : Dev → Dev} {typ cause : Nat} (hexec : exec c s = core s fun d => f (recordTaken typ d))
    (hdiv : ∀ d, TakesRecord s.dev d → f d = toDiverged s.sn cause d) :
    ActsR [twinWord] [.twin, .hif, .out, .pm] c s fun t => Diverged s.dev t.dev s.sn cause := by
  refine acts_of_record hexec hcore fun d hd => ⟨_, hdiv d hd, ?_⟩
  obtain ⟨hparts, hregs⟩ := toDiverged_frame s.sn cause d
  obtain ⟨hcoupling, hrole, hsent, hraised⟩ := diverged_toDiverged s.sn cause (hd.follows.trans hf)
  exact ⟨(hd.frame.parts.trans hparts).mono (by simp), (hd.frame.regs.trans hregs).mono (by simp), hcoupling, hrole,
    hsent.of_same hd.out hd.txq, hraised.of_same hd.evq hd.frame.role rfl⟩

section
variable {seq : Nat} (w : List EntryWr) (hturn : inTurn s.dev.twin.seqIn seq = true) (hrel : s.dev.tilth.released = true)
  (hlate : s.dev.tilth.late = []) (hfresh : s.dev.tilth.fresh = false)
include hturn hrel hlate hfresh

theorem entry_writes (hprep : s.dev.tilth.prep = none) :
    Acts [.sw, .tilth, .twin, .pm] (.entry seq w) s fun t => EntriesTaken s.dev t.dev seq w := by
  refine acts_of_record (exec_entry s seq w) hcore fun d hd => ?_
  have heq := entryIn_of_turn (hd.follows.trans hf) w s.sn (by rw [hd.twin]; exact hturn) (by rw [hd.tilth]; exact hrel)
  rw [hd.tilth, hprep, if_neg (by simp)] at heq
  have htilth : d.tilth = { s.dev.tilth with prep := none } := by rw [hd.tilth, ← hprep]
  obtain ⟨hput, hwritten⟩ := entriesTaken_putEntries (x := entryAwaited seq d) w hrel hlate hfresh hd.sw htilth
    (hd.twin_entryAwaited seq)
  exact ⟨_, heq, ((hd.frame.parts.trans (only_entryAwaited seq d)).trans hput).mono (by simp), hwritten⟩

theorem entry_disarms (hprep : s.dev.tilth.prep.isSome = true) :
    ActsR tilthRegs [.sw, .tilth, .twin, .pm] (.entry seq w) s fun t => EntriesTaken s.dev t.dev seq w := by
  refine acts_of_record (exec_entry s seq w) hcore fun d hd => ?_
  have heq := entryIn_of_turn (hd.follows.trans hf) w s.sn (by rw [hd.twin]; exact hturn) (by rw [hd.tilth]; exact hrel)
  rw [hd.tilth, if_pos hprep] at heq
  generalize hx : onTilth (entryAwaited seq d) _ = x at heq
  have hbefore : Only [.twin, .pm, .tilth] s.dev x :=
    hx ▸ ((hd.frame.parts.trans (only_entryAwaited seq d)).trans (only_onTilth _ _)).mono (by simp)
  have htilth : x.tilth = { s.dev.tilth with prep := none } := by rw [← hx, onTilth_tilth, entryAwaited_tilth, hd.tilth]
  have htwin : x.twin = queuesOf { s.dev.twin with seqIn := some (seq + 1) } x.twin := hx ▸ hd.twin_entryAwaited seq
  obtain ⟨hparts, hregs⟩ := tilthStat_frame x
  obtain ⟨hput, hwritten⟩ := entriesTaken_putEntries (x := tilthStat x) w hrel hlate hfresh
    ((tilthStat_sw x).trans (hbefore .sw (by simp))) ((tilthStat_tilth x).trans htilth) (by rw [tilthStat_twin]; exact htwin)
  have hword := ((onlyRegs_of_eq [] (hbefore .regs (by simp))).trans hregs).trans (onlyRegs_of_eq [] (hput .regs (by simp)))
  exact ⟨_, heq, ((hbefore.trans hparts).trans hput).mono (by simp), hword.mono (by simp), hwritten⟩

end

theorem commit_arms {seq : Nat} {x : SN} (hturn : inTurn s.dev.twin.seqIn seq = true)
    (hx : 2 ≤ (x - s.sn).toNat ∧ (x - s.sn).toNat < 2 ^ 31) :
    ActsR tilthRegs [.tilth, .twin, .out, .pm] (.commit seq x) s fun t =>
      t.dev.tilth = { s.dev.tilth with prep := some (armedCommit seq x) } ∧
      t.dev.twin.commitSeq = seq ∧ t.dev.twin.seqIn = some (seq + 1) ∧
      (s.dev.twin.cfgWait = [] → SentRec s.dev t.dev [(7, [seq, s.dev.twin.configSeq])]) := by
  refine acts_of_record (exec_commit s seq x) hcore fun d hd => ?_
  have heq := commitIn_of_turn (hd.follows.trans hf) x s.sn (by rw [hd.twin]; exact hturn)
  rw [if_pos hx] at heq
  obtain ⟨hparts, hregs⟩ := commitArmed_frame seq x d
  have hack := evals_sendAck (commitArmed seq x d)
  have htwin := commitArmed_twin seq x d
  rw [hd.twin] at htwin
  refine ⟨_, heq, ((hd.frame.parts.trans hparts).trans hack.parts).mono (by simp),
    ((hd.frame.regs.trans hregs).trans hack.regs).mono (by simp), ?_, ?_, ?_, fun hwait => ?_⟩
  · exact (hack.parts .tilth (by simp)).trans ((commitArmed_tilth seq x d).trans (by rw [hd.tilth]))
  · rw [hack.twin, htwin]
    rfl
  · rw [hack.twin, htwin]
    rfl
  · have hlink := (hregs.linkUp (by decide)).trans (linkUp_of_follows (hd.follows.trans hf))
    have hsent := sentRec_sendAck hlink (by rw [htwin]; exact hwait)
    rw [htwin] at hsent
    exact hsent.of_same ((hparts .out (by simp)).trans hd.out) (by rw [htwin])

theorem config_commands {seq : Nat} {raw : BitVec 512} (ls : List (List W32)) (hturn : inTurn s.dev.twin.cfgIn seq = true)
    (hop : opOf raw = 0x12) {g : Group} (hgroup : groupOf s.dev (dF raw 16 0 17) = some g) :
    Acts [.prot, .twin, .out, .pm] (.config seq raw ls) s fun t =>
      groupOf t.dev (dF raw 16 0 17) = some (g.commanded raw) ∧
      (∀ q, q ≠ dF raw 16 0 17 → groupOf t.dev q = groupOf s.dev q) ∧
      t.dev.twin = queuesOf { s.dev.twin with cfgIn := some (seq + 1), configSeq := seq } t.dev.twin ∧
      (s.dev.twin.cfgWait = [] → SentRec s.dev t.dev [(7, [s.dev.twin.commitSeq, seq])]) := by
  refine acts_of_record (exec_config s seq raw ls) hcore fun d hd => ?_
  have hfd := hd.follows.trans hf
  have heq := configIn_of_command hfd ls s.sn (by rw [hd.twin]; exact hturn) hop ((hd.groupOf _).trans hgroup)
  generalize hset : setGroup d (dF raw 16 0 17) (g.commanded raw) = e at heq
  have hstored : Only [.prot] d e := hset ▸ (evals_setGroup d _ _).parts
  have htwin : (configApplied seq e).twin = { d.twin with cfgIn := some (seq + 1), configSeq := seq } := by rw [← hset]; rfl
  rw [hd.twin] at htwin
  have hack := evals_sendAck (configApplied seq e)
  have hprot : (sendAck (configApplied seq e)).prot = e.prot := hack.parts .prot (by simp)
  refine ⟨_, heq, (((hd.frame.parts.trans hstored).trans (only_twin e _)).trans hack.parts).mono (by simp), ?_, fun q hq => ?_, ?_,
    fun hwait => ?_⟩
  · rw [groupOf, hprot, ← hset]
    exact groupOf_setGroup_same d _
  · rw [groupOf, hprot, ← hset]
    exact (groupOf_setGroup_ne d _ hq).trans (hd.groupOf q)
  · rw [hack.twin, htwin]
    rfl
  · have hlink : linkUp (configApplied seq e) = true := by rw [← hset]; exact linkUp_of_follows hfd
    have hsent := sentRec_sendAck hlink (by rw [htwin]; exact hwait)
    rw [htwin] at hsent
    exact hsent.of_same ((hstored .out (by simp)).trans hd.out) (by rw [htwin])

theorem decision_pends {x : DecisionRec} {g : Group} (hgroup : groupOf s.dev x.pgid.toNat = some g) (htyp : g.cfg.typ ≠ 2)
    (hpend : g.pend = none) (hsel : x.sel.val ≠ g.r) : Acts [.prot, .twin, .pm] (.decision x) s fun t =>
      (∃ g', groupOf t.dev x.pgid.toNat = some g' ∧ g'.cfg = g.cfg ∧ g'.r = g.r ∧
        g'.pend = some ⟨x.sel.val, x.x, x.top.toNat⟩ ∧ g'.lastReq = x.top.toNat ∧ g'.wtr = x.wtr.map fun y => (x.sel.val, y)) ∧
      ∀ q, q ≠ x.pgid.toNat → groupOf t.dev q = groupOf s.dev q := by
  refine acts_of_record (exec_decision s x) hcore fun d hd => ?_
  obtain ⟨g', hput, hfields⟩ := putDecision_pends s.sn ((hd.groupOf _).trans hgroup) htyp hpend hsel
  have heq : decisionIn x s.sn d = setGroup d x.pgid.toNat g' := (if_pos (hd.follows.trans hf)).trans hput
  exact ⟨_, heq, (hd.frame.parts.trans (evals_setGroup d _ g').parts).mono (by simp),
    ⟨g', groupOf_setGroup_same d g', hfields⟩, fun q hq => (groupOf_setGroup_ne d g' hq).trans (hd.groupOf q)⟩

theorem pscSel_gives (n : Fin 128) (a b : BitVec 30) : Acts [.prot, .twin, .pm] (.pscSel n a b) s fun t =>
    (tget {} t.dev.prot.psc n : PscTx) = { (tget {} s.dev.prot.psc n : PscTx) with
      given := some (a, b), q := (tget {} s.dev.prot.psc n : PscTx).q.filter fun q => !(pscSent s.dev a q.1 || pscSent s.dev b q.1) } ∧
    (∀ m, m ≠ n.val → (tget {} t.dev.prot.psc m : PscTx) = tget {} s.dev.prot.psc m) ∧
    t.dev.prot.groups = s.dev.prot.groups := by
  refine acts_of_record (exec_pscSel s n a b) hcore fun d hd => ⟨_, rfl, ?_, ?_, fun m hm => ?_, ?_⟩
  · rw [pscSelIn_of_follows (hd.follows.trans hf)]
    exact (hd.frame.parts.trans (only_prot d _)).mono (by simp)
  · rw [pscSelIn_lane (hd.follows.trans hf)]
    simp only [pscSent, hd.groupOf, hd.prot]
  · rw [pscSelIn_lane_ne (hd.follows.trans hf) n a b hm, hd.prot]
  · rw [pscSelIn_of_follows (hd.follows.trans hf), ← hd.prot]

end

/-! ### The active -/

section
variable (hrole : s.dev.twin.role = .active) (cs fs : Nat)
include hrole

theorem ack_acknowledges {c : Commit} (hprep : s.dev.tilth.prep = some c) (htarget : c.target.isSome = true) (hseq : c.seq ≤ cs) :
    Acts [.tilth, .twin, .hif, .pm] (.ack cs fs) s fun t =>
      t.dev.tilth = { s.dev.tilth with prep := some { c with acked := true } } := by
  refine acts_of_record (exec_ack s cs fs) hcore fun d hd => ⟨_, ackIn_of_active (hd.frame.role.trans hrole) cs fs s.sn, ?_⟩
  have hacked : commitAcked cs d = onTilth d fun t => { t with prep := some { c with acked := true } } := by
    simp only [commitAcked, hd.tilth, hprep, htarget, hseq, and_self, if_true]
  have hserved := only_waitsServed fs s.sn (commitAcked cs d).twin.waits (commitAcked cs d)
  rw [hacked] at hserved ⊢
  exact ⟨((hd.frame.parts.trans (only_onTilth d _)).trans hserved).mono (by simp),
    (hserved .tilth (by simp)).trans ((onTilth_tilth _ _).trans (by rw [hd.tilth]))⟩

section
variable {n r uid sts : Nat} {res : BitVec 64} (hprep : s.dev.tilth.prep = none) (hwaits : s.dev.twin.waits = [(n, r, uid, sts, res)])
include hprep hwaits

theorem ack_completes (hle : n ≤ fs) : Acts [.twin, .hif, .pm] (.ack cs fs) s fun t =>
    Served s.dev t.dev r uid sts 0 s.sn res ∧ t.dev.twin = queuesOf { s.dev.twin with waits := [] } t.dev.twin := by
  refine acts_of_record (exec_ack s cs fs) hcore fun d hd => ⟨finish (onTwin d fun t => { t with waits := [] }) r uid sts 0 s.sn res, ?_,
    ((hd.frame.parts.trans (only_twin d _)).trans (only_finish _ _ _ _ _ _ _)).mono (by simp), ?_, ?_⟩
  · rw [ackIn_of_no_commit hd hrole hprep, hwaits]
    simp [waitsServed, waitServed, hle]
  · exact (served_finish _ r uid sts 0 s.sn res).of_hif (hd.frame.parts .hif (by simp)) rfl
  · change ({ d.twin with waits := [] } : Twin) = queuesOf { s.dev.twin with waits := [] } { d.twin with waits := [] }
    rw [hd.twin]
    rfl

theorem ack_leaves (hlt : fs < n) : Acts [.twin, .pm] (.ack cs fs) s fun t => t.dev.twin = queuesOf s.dev.twin t.dev.twin := by
  refine acts_of_record (exec_ack s cs fs) hcore fun d hd => ⟨onTwin d fun t => { t with waits := s.dev.twin.waits }, ?_,
    (hd.frame.parts.trans (only_twin d _)).mono (by simp), ?_⟩
  · rw [ackIn_of_no_commit hd hrole hprep, hwaits]
    simp [waitsServed, hlt]
  · change ({ d.twin with waits := s.dev.twin.waits } : Twin) = queuesOf s.dev.twin { d.twin with waits := s.dev.twin.waits }
    rw [hd.twin]
    rfl

end

theorem configAckTimeout_diverges {n r uid sts : Nat} {res : BitVec 64} {ws : List Waiting}
    (hwaits : s.dev.twin.waits = (n, r, uid, sts, res) :: ws) (hlink : linkUp s.dev = true) (hcoupling : 2 ≤ coupling s.dev)
    (hresync : s.dev.twin.resync = none) (hauto : rd s.dev F.TWN_CFG_AUTO_RESYNC = 0) :
    ActsR [twinWord] [.twin, .hif, .out] .configAckTimeout s fun t =>
      Served s.dev t.dev r uid 0x15 0 s.sn res ∧
      t.dev.twin = queuesOf { s.dev.twin with waits := ws, diverged := true } t.dev.twin ∧
      rd t.dev F.TWN_STATUS_COUPLING = 1 ∧ SentRec s.dev t.dev [(0xC, [1])] := by
  have heq := ackTimeout_of_waiting hrole hresync hauto s.sn hwaits hcoupling
  generalize hd : finish (onTwin s.dev fun t => { t with waits := ws }) r uid stDiverged 0 s.sn res = d at heq
  have hbefore : Only [.twin, .hif] s.dev d := hd ▸ (only_twin s.dev _).trans (only_finish _ _ _ _ _ _ _)
  have hsent := evals_twinSend d 0xC [1]
  obtain ⟨hparts, hregs⟩ := divergeMate_frame (twinSend d 0xC [1])
  have hword := ((onlyRegs_of_eq [] (hbefore .regs (by simp))).trans hsent.regs).trans hregs
  refine acts_of_core rfl hcore heq (((hbefore.trans hsent.parts).trans hparts).mono (by simp)) ⟨hword.mono (by simp), ?_, ?_, ?_, ?_⟩
  · rw [← hd] at hsent ⊢
    exact (served_finish _ r uid stDiverged 0 s.sn res).of_hif rfl (hsent.parts .hif (by simp))
  · change ({ (twinSend d 0xC [1]).twin with diverged := true } : Twin) = _
    rw [hsent.twin, ← hd]
    rfl
  · exact rd_wr_fits _ (by decide)
  · have hup : linkUp d = true := by rw [← hd]; exact hlink
    rw [← hd] at hup ⊢
    exact (sentRec_twinSend hup 0xC [1]).of_same rfl rfl

end

end

/-- Settles O28: the standby's records one by one, then what the active does with an acknowledgement, or for want of one. -/
theorem mirroredRecordsApply : Obligations.MirroredRecordsApply := by
  unfold Obligations.MirroredRecordsApply
  intro s hcore
  refine ⟨fun hf => ⟨fun seq w => ⟨fun hturn hrel hlate hfresh => ?entry, fun hgap => ?entryGap⟩, fun seq x => ?commit,
    fun seq raw ls => ⟨fun hgap => ?configGap, fun hturn hop => ?config⟩, ?decision, fun n a b => ?pscSel⟩, fun cs fs hrole => ?ack,
    fun n r uid sts res ws hwaits hrole hlink hcoupling hresync hauto =>
      configAckTimeout_diverges hcore hrole hwaits hlink hcoupling hresync hauto⟩
  case entry =>
    exact ⟨entry_writes hcore hf w hturn hrel hlate hfresh, entry_disarms hcore hf w hturn hrel hlate hfresh⟩
  case entryGap =>
    exact record_diverges hcore hf (exec_entry s seq w)
      fun d hd => entryIn_of_gap (hd.follows.trans hf) w s.sn (by rw [hd.twin]; exact hgap)
  case commit =>
    refine ⟨fun hturn hlow hhigh => commit_arms hcore hf hturn ⟨hlow, hhigh⟩, fun hturn hx => ?_, fun hgap => ?_⟩
    · refine record_diverges hcore hf (exec_commit s seq x) fun d hd => ?_
      rw [commitIn_of_turn (hd.follows.trans hf) x s.sn (by rw [hd.twin]; exact hturn), if_neg hx]
    · exact record_diverges hcore hf (exec_commit s seq x)
        fun d hd => commitIn_of_gap (hd.follows.trans hf) x s.sn (by rw [hd.twin]; exact hgap)
  case configGap =>
    exact record_diverges hcore hf (exec_config s seq raw ls)
      fun d hd => configIn_of_gap (hd.follows.trans hf) ls s.sn (by rw [hd.twin]; exact hgap)
  case config =>
    refine ⟨fun hgroup => ?_, fun g hgroup => config_commands hcore hf ls hturn hop hgroup⟩
    exact record_diverges hcore hf (exec_config s seq raw ls) fun d hd => configIn_of_unknown_group (hd.follows.trans hf) ls s.sn
      (by rw [hd.twin]; exact hturn) hop ((hd.groupOf _).trans hgroup)
  case decision =>
    exact fun x g hgroup htyp hpend hsel => decision_pends hcore hf hgroup htyp hpend hsel
  case pscSel =>
    refine Acts.weaken (pscSel_gives hcore hf n a b) ?_
    rintro t ⟨hlane, hother, hgroups⟩
    refine ⟨⟨by rw [hlane], fun q => ?_⟩, hother, hgroups⟩
    rw [hlane]
    exact mem_unsent s.dev a b _ q
  case ack =>
    exact ⟨fun c hprep htarget hseq => ack_acknowledges hcore hrole cs fs hprep htarget hseq,
      fun n r uid sts res hprep hwaits => ⟨ack_completes hcore hrole cs fs hprep hwaits, ack_leaves hcore hrole cs fs hprep hwaits⟩⟩

end Sys2Proof.Machine
end

