-- ==== Sys2Proof/Proofs/GroupEvaluation.lean ====
section
/-! PROOFS. The evaluation of a protection group (R252 to R261) in a device that mirrors nothing: what it makes of the group,
and its frame by the lane of the group's PSC. -/

namespace Sys2Proof.Machine

/-! ### A group read after an operation -/

theorem groupOf_congr {a b : Dev} (h : b.prot = a.prot) (q : Nat) : groupOf b q = groupOf a q := by simp only [groupOf, h]

section
variable (d : Dev) {pgid q : Nat} (g : Group) (sn : SN)

/-- Storing a group changes the queue of a lane beside the table of the groups. -/
theorem putGroup_groups : (putGroup d pgid g sn).prot.groups = (setGroup d pgid { g with ent := entOf g }).prot.groups := by
  unfold putGroup
  dsimp only
  split
  · split
    · rfl
    · split
      · rfl
      · split <;> rfl
  · rfl

theorem groupOf_putGroup_same : groupOf (putGroup d pgid g sn) pgid = some { g with ent := entOf g } := by
  rw [groupOf, putGroup_groups]
  exact groupOf_setGroup_same d _

theorem groupOf_putGroup_ne (hq : q ≠ pgid) : groupOf (putGroup d pgid g sn) q = groupOf d q := by
  rw [groupOf, putGroup_groups]
  exact groupOf_setGroup_ne d _ hq

@[simp] theorem mirrors_putGroup : mirrors (putGroup d pgid g sn) = mirrors d :=
  ((evals_putGroup d pgid g sn).mono (ps := [.regs, .prot]) pscRegs_subset).mirrors

end

/-! ### What an evaluation makes of a group -/

/-- `g` with the fields that an evaluation writes, as they are in `h`. -/
def Group.evaluatedTo (g h : Group) : Group :=
  { g with
    inputs := h.inputs, wtr := h.wtr, lastReq := h.lastReq, lastSig := h.lastSig, pend := h.pend, pendMi := h.pendMi
    lsel := h.lsel, ent := h.ent }

/-- The target of the group once its inputs follow their sources, and the REQ that decides it (R257). -/
def Group.aim (g : Group) (d : Dev) (pgid : Nat) (sn : SN) : Nat × Nat :=
  targetOfGroup g (localTop (g.stepped d pgid sn) sn).2

/-- `h` is what an evaluation `ns` after the tick of `sn` makes of `g` in a device that decides for itself: its inputs, its
local request, and the decision of a group in which none was pending. -/
structure Evaluated (d : Dev) (pgid : Nat) (sn : SN) (ns : Nat) (g h : Group) : Prop where
  kept : h = g.evaluatedTo h
  inputs : h.inputs = (g.stepped d pgid sn).inputs
  top : (h.wtr, h.lastReq, h.lastSig) = localTop (g.stepped d pgid sn) sn
  pend : g.pend = none → h.pend = if (g.aim d pgid sn).1 = projSig g then none else
    some ⟨(g.aim d pgid sn).1, applyAt d sn ns, (g.aim d pgid sn).2⟩

namespace Evaluated

variable {d : Dev} {pgid : Nat} {sn : SN} {ns : Nat} {g h : Group} (he : Evaluated d pgid sn ns g h)
include he

theorem cfg : h.cfg = g.cfg := (congrArg Group.cfg he.kept :)
theorem selected : h.r = g.r := (congrArg Group.r he.kept :)
theorem cmd : h.cmd = g.cmd := (congrArg Group.cmd he.kept :)
theorem timed : h.timed = g.timed := (congrArg Group.timed he.kept :)
theorem wait : h.wait = g.wait := (congrArg Group.wait he.kept :)

theorem wtr : h.wtr = (localTop (g.stepped d pgid sn) sn).1 := congrArg Prod.fst he.top
theorem lastReq : h.lastReq = (localTop (g.stepped d pgid sn) sn).2.1 := congrArg (·.2.1) he.top
theorem lastSig : h.lastSig = (localTop (g.stepped d pgid sn) sn).2.2 := congrArg (·.2.2) he.top

/-- The PSC entry is no matter of the decision. -/
theorem withEnt (e : Nat × Nat × Nat) : Evaluated d pgid sn ns g { h with ent := e } where
  kept := by
    have hkept := he.kept
    rw [hkept]
    rfl
  inputs := he.inputs
  top := he.top
  pend := he.pend

end Evaluated

/-- The lane selector is all that a received BSIG changes (R261). -/
theorem laneSelect_eq (g : Group) (x : SN) (req : Nat) : laneSelect g x req = { g with lsel := (laneSelect g x req).lsel } := by
  unfold laneSelect
  extract_lets k
  split
  · rfl
  · split
    · split <;> rfl
    · rfl

section
variable {d : Dev} {pgid : Nat} {g : Group} (hgroup : groupOf d pgid = some g) (hdel : g.del = none) (sn : SN) (ns : Nat)
include hgroup hdel

/-- A device that does not decide lets the inputs follow their sources (R307). -/
theorem evalGroup_of_not_decides (hdecides : decides d = false) :
    evalGroup sn ns d pgid = setGroup d pgid (g.stepped d pgid sn) := by
  have hkept : g.del.isSome = false := by rw [hdel]; rfl
  simp only [evalGroup, hgroup, hkept, hdecides, Bool.false_eq_true, if_false, Bool.not_false, if_true]
  rfl

/-- A device that decides stores the evaluated group. -/
theorem evalGroup_of_decides (hdecides : decides d = true) (hmirror : mirrors d = false) :
    ∃ h, evalGroup sn ns d pgid = putGroup d pgid h sn ∧ Evaluated d pgid sn ns g h := by
  unfold evalGroup
  split
  · next hnone => exact absurd (hgroup.symm.trans hnone) (by simp)
  next g' hg' =>
  obtain rfl : g' = g := Option.some.inj (hg'.symm.trans hgroup)
  rw [if_neg (by simp [hdel])]
  extract_lets was g₁ lt g₂ tg x repl new g₃ mi miNow g₄ sel put when' sent
  have hmute : mirrors put = false := (mirrors_putGroup d sel sn).trans hmirror
  have hsent : sent = put := by simp only [sent, sendDecision_of_no_mirror hmute, ite_self]
  have hsel : sel = { g₄ with lsel := sel.lsel } := laneSelect_eq g₄ x _
  have h₄ : g₄ = { g₃ with pendMi := g₄.pendMi } := by simp only [g₄]; split <;> rfl
  have h₃ : g₃ = { g₂ with pend := g₃.pend, lsel := g₃.lsel } := by simp only [g₃]; split <;> rfl
  refine ⟨sel, ?_, ?kept, ?_, ?_, ?_⟩
  · rw [if_neg (by simp [hdecides]), hsent, sendDecision_of_no_mirror hmute, ite_self]
  case kept =>
    rw [hsel, h₄, h₃]
    rfl
  · rw [hsel, h₄, h₃]
    rfl
  · rw [hsel, h₄, h₃]
    rfl
  · intro hpend
    have hrepl : repl = true := by simp only [repl, g₂, g₁, hpend]
    have hnew : new = decide (tg.1 ≠ projSig g') := by simp only [new, hrepl, Bool.and_true]; rfl
    have hsame : sel.pend = g₃.pend := by rw [hsel, h₄]
    rw [hsame, apply_ite Group.pend, hnew]
    by_cases haim : tg.1 = projSig g'
    · exact (if_neg (by simp [haim])).trans (hpend.trans (if_pos haim).symm)
    · exact (if_pos (by simp [haim])).trans (if_neg haim).symm

/-- Decided or not, an evaluation stores the group, and no more of it than it writes. -/
theorem evalGroup_stores (hmirror : mirrors d = false) : ∃ h, h = g.evaluatedTo h ∧
    (evalGroup sn ns d pgid = setGroup d pgid h ∨ evalGroup sn ns d pgid = putGroup d pgid h sn) := by
  cases hdecides : decides d with
  | false => exact ⟨_, rfl, .inl (evalGroup_of_not_decides hgroup hdel sn ns hdecides)⟩
  | true =>
    obtain ⟨h, heq, heval⟩ := evalGroup_of_decides hgroup hdel sn ns hdecides hmirror
    exact ⟨h, heval.kept, .inr heq⟩

/-- A group without signalling has no PSC entry to queue, whether the device decides or not. -/
theorem evalGroup_of_no_psc (htyp : g.cfg.typ = 0) (hmirror : mirrors d = false) :
    ∃ h, h = g.evaluatedTo h ∧ evalGroup sn ns d pgid = setGroup d pgid h := by
  obtain ⟨h, hkept, heq | heq⟩ := evalGroup_stores hgroup hdel sn ns hmirror
  · exact ⟨h, hkept, heq⟩
  · have hcfg : h.cfg = g.cfg := (congrArg Group.cfg hkept :)
    refine ⟨{ h with ent := entOf h }, ?_, heq.trans (putGroup_of_no_psc (by simp [pscTxLane, hcfg, htyp]) d pgid sn)⟩
    rw [hkept]
    rfl

/-- A group without signalling has no PSC entry to queue: its evaluation stores it, and does nothing else. -/
theorem evalGroup_of_unidirectional (htyp : g.cfg.typ = 0) (hdecides : decides d = true) (hmirror : mirrors d = false) :
    ∃ h, evalGroup sn ns d pgid = setGroup d pgid h ∧ Evaluated d pgid sn ns g h := by
  obtain ⟨h, heq, heval⟩ := evalGroup_of_decides hgroup hdel sn ns hdecides hmirror
  have hpsc : pscTxLane h = none := by simp [pscTxLane, heval.cfg, htyp]
  exact ⟨{ h with ent := entOf h }, heq.trans (putGroup_of_no_psc hpsc d pgid sn), heval.withEnt _⟩

end

end Sys2Proof.Machine
end

