-- ==== Sys2Proof/Proofs/ProtectionCommands.lean ====
section
/-! PROOFS. PG_COMMAND (R255, R257, R258, R262): a command that enters the command input of a 1+1 unidirectional group,
what the evaluation makes of it, and the descriptor as it is served or as its sweep comes. -/

namespace Sys2Proof.Machine

/-! ### The request of a held command (R254, R256) -/

/-- REQ of a command by its kind: CLEAR leaves NR, then LO, FS and MS. -/
def cmdReq (kind : Nat) : Nat := if kind = 1 then 0xF else if kind = 2 then 0xE else if kind = 3 then 7 else 0

/-- The signal a command of a 1+1 group is for: the protect signal for FS and MS. -/
def cmdSig (kind : Nat) : Nat := if kind ≤ 1 then 0 else 1

theorem Group.stepped_down {g : Group} (hhold : g.cfg.holdOff ≠ 0) (hdown : ∀ i ∈ g.inputs, i.up = false) (d : Dev) (pgid : Nat)
    (sn : SN) : ∀ i ∈ (g.stepped d pgid sn).inputs, i.up = false := fun i hi => by
  obtain ⟨k, hk, rfl⟩ := List.mem_mapIdx.1 hi
  exact stepInput_down hhold (hdown _ (List.getElem_mem hk)) pgid sn k

/-- With no input raised, a held command is the local request. -/
theorem topBase_of_held {g : Group} (hdown : ∀ i ∈ g.inputs, i.up = false) {kind sig : Nat} (hcmd : g.cmd = some (kind, sig))
    (hlow : kind ≠ 0) (hhigh : kind < 4) : topBase g = some (cmdReq kind, sig) := by
  obtain rfl | rfl | rfl : kind = 1 ∨ kind = 2 ∨ kind = 3 := by omega
  all_goals simp [topBase, raised_of_down hdown, hcmd, cmdReq]

theorem localTop_of_top {g : Group} {t : Nat × Nat} (h : topBase g = some t) (sn : SN) : localTop g sn = (none, t) := by
  simp only [localTop, h]

/-- With nothing to restore from, a revertive group is at NR on signal 0. -/
theorem localTop_of_nr {g : Group} (htop : topBase g = none) (hrevert : g.cfg.revert = true) (hwtr : g.wtr = none)
    (hsf : g.lastReq ≠ 0xB) (hsd : g.lastReq ≠ 9) (sn : SN) : localTop g sn = (none, 0, 0) := by
  simp [localTop, htop, hrevert, hwtr, hsf, hsd]

/-- A group without signalling aims at its local request. -/
theorem Group.aim_of_unidirectional {g : Group} (htyp : g.cfg.typ = 0) (d : Dev) (pgid : Nat) (sn : SN) :
    g.aim d pgid sn = ((localTop (g.stepped d pgid sn) sn).2.2, (localTop (g.stepped d pgid sn) sn).2.1) := by
  simp [Group.aim, targetOfGroup, Group.bidir, htyp]

/-- A descriptor taken up after the evaluation is taken up on the whole way. -/
theorem Evals.taken {as : List Nat} {ps : List Part} {a b c : Dev} {r uid : Nat} (h : Evals as ps a b) (k : Taken b c r uid) :
    Taken a c r uid := by
  simpa only [Taken, ringOf, h.rings] using k

/-! ### A command enters (R255) -/

/-- A revertive 1+1 unidirectional group in which no input is raised and no decision is pending or waited for. -/
structure Group.Settled (g : Group) : Prop where
  typ : g.cfg.typ = 0
  del : g.del = none
  pend : g.pend = none
  wait : g.wait = []
  down : ∀ i ∈ g.inputs, i.up = false
  holdOff : g.cfg.holdOff ≠ 0
  revert : g.cfg.revert = true
  notSf : g.lastReq ≠ 0xB
  notSd : g.lastReq ≠ 9

/-- The group with command `kind` for signal `sig` at its command input; CLEAR ends what is held, and WTR. -/
def Group.entered (g : Group) (kind sig : Nat) : Group :=
  let g := { g with wait := g.wait.filter fun w => !w.held, cmdEvents := g.cmdEvents + 1 }
  if kind = 0 then { g with cmd := none, wtr := none, lastReq := if g.lastReq = 5 then 0 else g.lastReq }
  else { g with cmd := some (kind, sig) }

/-- What a command changes: its command input, the held command's wait, WTR and the last request. -/
theorem Group.entered_eq (g : Group) (kind sig : Nat) : g.entered kind sig =
    { g with
      wait := g.wait.filter fun w => !w.held, cmdEvents := g.cmdEvents + 1
      cmd := if kind = 0 then none else some (kind, sig)
      wtr := if kind = 0 then none else g.wtr, lastReq := if kind = 0 ∧ g.lastReq = 5 then 0 else g.lastReq } := by
  unfold Group.entered
  by_cases hkind : kind = 0 <;> simp [hkind]

section
variable (g : Group) (kind sig : Nat)

@[simp] theorem Group.entered_cfg : (g.entered kind sig).cfg = g.cfg := by rw [entered_eq]
@[simp] theorem Group.entered_pend : (g.entered kind sig).pend = g.pend := by rw [entered_eq]
@[simp] theorem Group.entered_del : (g.entered kind sig).del = g.del := by rw [entered_eq]
@[simp] theorem Group.entered_r : (g.entered kind sig).r = g.r := by rw [entered_eq]
@[simp] theorem Group.entered_inputs : (g.entered kind sig).inputs = g.inputs := by rw [entered_eq]

end

section
variable {g : Group} (hg : g.Settled) {kind sig : Nat} (hkind : kind < 4) (hsig : kind ≠ 0 → sig = cmdSig kind)
include hg hkind hsig

/-- The command is the group's request (R254, R256). -/
theorem Group.Settled.localTop_entered (d : Dev) (pgid : Nat) (sn : SN) :
    localTop ((g.entered kind sig).stepped d pgid sn) sn = (none, cmdReq kind, cmdSig kind) := by
  have hdown : ∀ i ∈ ((g.entered kind sig).stepped d pgid sn).inputs, i.up = false :=
    Group.stepped_down (by simp [hg.holdOff]) (by simpa using hg.down) d pgid sn
  by_cases hzero : kind = 0
  · subst hzero
    have hreq : (if g.lastReq = 5 then 0 else g.lastReq) ≠ 0xB ∧ (if g.lastReq = 5 then 0 else g.lastReq) ≠ 9 := by
      by_cases hwtr : g.lastReq = 5
      · simp [hwtr]
      · rw [if_neg hwtr]
        exact ⟨hg.notSf, hg.notSd⟩
    exact localTop_of_nr (topBase_of_down hdown rfl) hg.revert rfl hreq.1 hreq.2 sn
  · have hcmd : ((g.entered kind sig).stepped d pgid sn).cmd = some (kind, sig) := by
      rw [Group.entered_eq]
      exact if_neg hzero
    rw [localTop_of_top (topBase_of_held hdown hcmd hzero hkind), hsig hzero]

/-- The evaluation that follows a command decides for its signal, where that is not selected (R257 to R259). -/
theorem Group.Settled.evaluated_entered {d : Dev} {pgid : Nat} {sn : SN} {ns : Nat} {h : Group}
    (heval : Evaluated d pgid sn ns (g.entered kind sig) h) :
    h.cfg = g.cfg ∧ h.r = g.r ∧ h.timed = g.timed ∧ h.wait = [] ∧ h.cmd = (if kind = 0 then none else some (kind, cmdSig kind)) ∧
    h.lastReq = cmdReq kind ∧ h.pend = if cmdSig kind = g.r then none else some ⟨cmdSig kind, applyAt d sn ns, cmdReq kind⟩ := by
  have htop := hg.localTop_entered hkind hsig d pgid sn
  have htyp : (g.entered kind sig).cfg.typ = 0 := by simp [hg.typ]
  have hpend : (g.entered kind sig).pend = none := by simp [hg.pend]
  have hproj : projSig (g.entered kind sig) = g.r := by simp [projSig, hg.pend, hg.typ]
  refine ⟨by simp [heval.cfg], by simp [heval.selected], ?_, ?_, ?_, ?_, ?_⟩
  · rw [heval.timed, Group.entered_eq]
  · rw [heval.wait, Group.entered_eq]
    simp [hg.wait]
  · rw [heval.cmd, Group.entered_eq]
    by_cases hzero : kind = 0
    · simp [hzero]
    · simp [hzero, hsig hzero]
  · rw [heval.lastReq, htop]
  · rw [heval.pend hpend, Group.aim_of_unidirectional htyp, htop, hproj]

end

/-- Command `kind` of descriptor `uid` has entered the command input of group `pgid`, which was `g`, between `a` and `b`: its
signal is decided for sweep `x`, and the descriptor waits for that, or it is selected already. -/
def CommandEntered (a b : Dev) (pgid kind ring uid st : Nat) (x sn : SN) (g : Group) : Prop :=
  (∀ q, q ≠ pgid → groupOf b q = groupOf a q) ∧
  ∃ h, groupOf b pgid = some h ∧ h.cfg = g.cfg ∧ h.r = g.r ∧ h.timed = g.timed ∧
    h.cmd = (if kind = 0 then none else some (kind, cmdSig kind)) ∧ h.lastReq = cmdReq kind ∧
    (cmdSig kind ≠ g.r → h.pend = some ⟨cmdSig kind, x, cmdReq kind⟩ ∧ Taken a b ring uid) ∧
    (cmdSig kind = g.r → h.pend = none ∧ Served a b ring uid st 0 sn (BitVec.ofNat 64 g.r))

/-- The descriptor of a command once its group is evaluated: it waits for a decision made then, or completes. -/
def commandServed (pgid kind ring uid st : Nat) (sn : SN) (was : Option Decision) (d : Dev) : Dev :=
  match groupOf d pgid with
  | none => d
  | some h =>
    if h.pend ≠ was then take (setGroup d pgid { h with wait := h.wait ++ [⟨ring, uid, st, kind != 0⟩] }) ring uid
    else finishM d ring uid (rawOf d ring uid) st 0 sn (BitVec.ofNat 64 h.r)

section
variable {d : Dev} {pgid : Nat} {g : Group} {kind sig ring uid : Nat} {late : Bool} {ns : Nat} {sn : SN}
  (hgroup : groupOf d pgid = some g)
include hgroup

/-- Where no held command waits, a command enters and its group is evaluated. -/
theorem enterCmd_eq (hwait : g.wait = []) : enterCmd d pgid kind sig ring uid late ns sn =
    commandServed pgid kind ring uid (if late then stLate else stOk) sn (g.entered kind sig).pend
      (evalGroup sn ns (setGroup d pgid (g.entered kind sig)) pgid) := by
  have hnone (f : Dev → Wait → Dev) : (g.wait.filter (·.held)).foldl f d = d := by rw [hwait]; rfl
  simp only [enterCmd, hgroup, hnone]
  rfl

/-- A command that enters is the held one, and its signal is decided for or selected already. -/
theorem enterCmd_enters (hg : g.Settled) (hdecides : decides d = true) (hmirror : mirrors d = false) (hkind : kind < 4)
    (hsig : kind ≠ 0 → sig = cmdSig kind) : Only [.prot, .hif] d (enterCmd d pgid kind sig ring uid late ns sn) ∧
    CommandEntered d (enterCmd d pgid kind sig ring uid late ns sn) pgid kind ring uid (if late then stLate else stOk)
      (applyAt d sn ns) sn g := by
  obtain ⟨h, hstored, heval⟩ := evalGroup_of_unidirectional (groupOf_setGroup_same (pgid := pgid) d (g.entered kind sig))
    (by simp [hg.del]) sn ns (by simp [hg.typ]) hdecides hmirror
  obtain ⟨hcfg, hsel, htimed, hwait, hcmd, hreq, hpend⟩ := hg.evaluated_entered hkind hsig heval
  rw [enterCmd_eq hgroup hg.wait, hstored, commandServed, groupOf_setGroup_same, Group.entered_pend, hg.pend]
  generalize hentered : setGroup (setGroup d pgid (g.entered kind sig)) pgid h = e
  have hframe : Evals [] [.prot] d e := hentered ▸ (evals_setGroup d pgid _).trans (evals_setGroup _ pgid h)
  have hothers : ∀ q, q ≠ pgid → groupOf e q = groupOf d q := fun q hq => by
    rw [← hentered, groupOf_setGroup_ne _ _ hq, groupOf_setGroup_ne _ _ hq]
  have hmute : mirrors e = false := by rw [← hentered]; exact hmirror
  dsimp only
  by_cases hnew : cmdSig kind = g.r
  · have hnone : h.pend = none := by rw [hpend, if_pos hnew]
    have hhere : groupOf e pgid = some h := by rw [← hentered]; exact groupOf_setGroup_same _ h
    rw [if_neg (by simp [hnone]), finishM_of_no_mirror hmute]
    refine ⟨hframe.parts.trans (only_finish e ring uid _ 0 sn _), hothers, h, hhere, hcfg, hsel, htimed, hcmd, hreq,
      fun hne => absurd hnew hne, fun _ => ⟨hnone, ?_⟩⟩
    rw [← hsel]
    exact hframe.served (served_finish e ring uid _ 0 sn _)
  · have hsome : h.pend = some ⟨cmdSig kind, applyAt d sn ns, cmdReq kind⟩ := hpend.trans (if_neg hnew)
    rw [if_pos (by simp [hsome])]
    generalize hwaits : ({ h with wait := h.wait ++ [⟨ring, uid, if late then stLate else stOk, kind != 0⟩] } : Group) = g'
    have htaken : Evals [] [.prot] d (setGroup e pgid g') := hframe.trans (evals_setGroup e pgid g')
    refine ⟨htaken.parts.trans (only_take _ ring uid), fun q hq => (groupOf_setGroup_ne e g' hq).trans (hothers q hq), g',
      groupOf_setGroup_same e g', ?_⟩
    subst hwaits
    refine ⟨hcfg, hsel, htimed, hcmd, hreq, fun _ => ⟨hsome, ?_⟩, fun heq => absurd heq hnew⟩
    exact htaken.taken (taken_take _ ring uid)

end

/-! ### PG_COMMAND (R255, R262) -/

/-- Descriptor `e` on ring `r` is a PG_COMMAND of kind `kind` for group `pgid`, for a signal that a 1+1 group has. -/
structure AsksCommand (d : Dev) (r kind pgid : Nat) (e : QEnt) : Prop where
  served : servedBy d r 0x12 = some e
  cmd : dF e.raw 16 20 4 = kind
  low : kind < 4
  group : dF e.raw 16 0 17 = pgid
  reserved : reservedAt e.raw = none
  signal : 2 ≤ kind → dF e.raw 16 24 4 = 1

/-- The signal that a PG_COMMAND brings to its group: LO is for signal 0. -/
def askedSig (kind : Nat) (raw : BitVec 512) : Nat := if kind = 1 then 0 else dF raw 16 24 4

theorem AsksCommand.askedSig {d : Dev} {r kind pgid : Nat} {e : QEnt} (h : AsksCommand d r kind pgid e) (hzero : kind ≠ 0) :
    askedSig kind e.raw = cmdSig kind := by
  unfold Machine.askedSig cmdSig
  by_cases hone : kind = 1
  · simp [hone]
  · rw [if_neg hone, if_neg (by omega), h.signal (by omega)]

section
variable {d : Dev} {r kind pgid : Nat} {e : QEnt} {g : Group} (hask : AsksCommand d r kind pgid e)
  (hgroup : groupOf d pgid = some g) (hdel : g.del = none) (htyp : g.cfg.typ = 0) (ns : Nat) (sn : SN)
include hask hgroup hdel htyp

/-- A PG_COMMAND without a problem is blocked, waits for its sweep, or enters. -/
theorem servePgCmd_eq : servePgCmd kind r ns sn d =
    if cmdOk g kind = false then finish d r e.uid stBlocked 4 sn
    else if timedOf e.raw = true then
      let x := fixTarget d sn true (targetOf e.raw)
      let d := g.timed.elim d fun t => finish d t.2.2.1 t.2.2.2.1 stAborted 2 sn
      take (mirrorTimed (setGroup d pgid { g with timed := some (kind, dF e.raw 16 24 4, r, e.uid, x.1, x.2) }) e.raw x.1) r e.uid
    else enterCmd d pgid kind (askedSig kind e.raw) r e.uid false ns sn := by
  have hn : g.n = 1 := by simp [Group.n, htyp]
  have halive : g.del.isSome = false := by rw [hdel]; rfl
  have hlow : ¬ 4 ≤ kind := by have := hask.low; omega
  have hsignal : ((kind == 2 || kind == 3) && !decide (1 ≤ dF e.raw 16 24 4 ∧ dF e.raw 16 24 4 ≤ 1)) = false := by
    by_cases hsel : 2 ≤ kind
    · simp [hask.signal hsel]
    · have hnone : (kind == 2 || kind == 3) = false := by simp; omega
      rw [hnone, Bool.false_and]
  simp only [servePgCmd, hask.served, hask.cmd, hask.group, hgroup, halive, hn, reservedProb_of_none hask.reserved, hlow, hsignal,
    ne_eq, not_true_eq_false, false_and, if_false, decide_false, probIf, Bool.false_eq_true, Bool.not_false,
    Bool.true_and, List.append_nil, firstProb, Bool.not_eq_true', askedSig]
  cases g.timed <;> rfl

theorem servePgCmd_of_not_ok (hok : cmdOk g kind = false) : servePgCmd kind r ns sn d = finish d r e.uid stBlocked 4 sn := by
  rw [servePgCmd_eq hask hgroup hdel htyp ns sn, if_pos hok]

theorem servePgCmd_of_untimed (hok : cmdOk g kind = true) (htimed : timedOf e.raw = false) :
    servePgCmd kind r ns sn d = enterCmd d pgid kind (askedSig kind e.raw) r e.uid false ns sn := by
  rw [servePgCmd_eq hask hgroup hdel htyp ns sn, if_neg (by simp [hok]), if_neg (by simp [htimed])]

/-- A timed command waits for its sweep, the earliest one where the LATE rule applies (R231, R262). -/
theorem servePgCmd_of_timed (hok : cmdOk g kind = true) (htimed : timedOf e.raw = true) (hfree : g.timed = none)
    (hmirror : mirrors d = false) : servePgCmd kind r ns sn d = take (setGroup d pgid { g with
      timed := some (kind, dF e.raw 16 24 4, r, e.uid,
        if acceptable d sn (targetOf e.raw) = true then targetOf e.raw else earliest d sn,
        !acceptable d sn (targetOf e.raw)) }) r e.uid := by
  have hmute (h : Group) : mirrors (setGroup d pgid h) = false := hmirror
  rw [servePgCmd_eq hask hgroup hdel htyp ns sn, if_neg (by simp [hok]), if_pos htimed, hfree]
  by_cases hacc : acceptable d sn (targetOf e.raw) = true <;> simp [fixTarget, hacc, mirrorTimed, hmute]

end

/-- A timed command at its sweep enters, or has become unacceptable or outranked (R262). -/
theorem timedEntry_of_due {d : Dev} {pgid : Nat} {g : Group} (hgroup : groupOf d pgid = some g) {kind sig ring uid : Nat} {x : SN}
    {late : Bool} (htimed : g.timed = some (kind, sig, ring, uid, x, late)) {sn : SN} (hdue : snDue x sn = true)
    (hdecides : decides d = true) (ns : Nat) : timedEntry pgid ns sn d =
      if (cmdOk g kind && !outranked g kind) = true then
        enterCmd (setGroup d pgid { g with timed := none }) pgid kind (if kind = 1 then 0 else sig) ring uid late ns sn
      else finish (setGroup d pgid { g with timed := none }) ring uid stAborted 6 sn := by
  have hstays (h : Group) : decides (setGroup d pgid h) = true := hdecides
  simp only [timedEntry, hgroup, htimed, hdue, hstays, Bool.not_true, Bool.false_eq_true, if_false]

/-! ### What the host sees -/

/-- A PG_COMMAND is served by the command of its kind. -/
theorem exec_command {s : State} {r : Fin 16} {ns kind : Nat} {c : Instr}
    (hc : (kind = 0 ∧ c = .clear r ns) ∨ (kind = 1 ∧ c = .lockoutOfProtection r ns) ∨ (kind = 2 ∧ c = .forcedSwitch r ns) ∨
      (kind = 3 ∧ c = .manualSwitch r ns)) :
    exec c s = core s (servePgCmd kind r ns s.sn) ∧ ∀ pgid ns, c ≠ .timedCommandEntry pgid ns := by
  obtain ⟨rfl, rfl⟩ | ⟨rfl, rfl⟩ | ⟨rfl, rfl⟩ | ⟨rfl, rfl⟩ := hc
  all_goals exact ⟨rfl, nofun⟩

theorem exec_timedCommandEntry {pgid : Nat} (hpgid : pgid < 2 ^ 17) (ns : Nat) (s : State) :
    exec (.timedCommandEntry (BitVec.ofNat 17 pgid) ns) s = core s (timedEntry pgid ns s.sn) := by
  have hsame : (BitVec.ofNat 17 pgid).toNat = pgid := by rw [BitVec.toNat_ofNat, Nat.mod_eq_of_lt hpgid]
  exact congrArg (fun p => core s (timedEntry p ns s.sn)) hsame

section
variable {s : State} {pgid kind : Nat} {g : Group} (ns : Nat) (hcore : s.dev.pwr.core = true)
  (hgroup : groupOf s.dev pgid = some g) (hg : g.Settled) (hmirror : mirrors s.dev = false)
include hcore hgroup hg hmirror

section
variable {c : Instr} {r : Fin 16} {e : QEnt} (hexec : exec c s = core s (servePgCmd kind r ns s.sn))
  (hask : AsksCommand s.dev r kind pgid e)
include hexec hask

theorem command_enters (hdecides : decides s.dev = true) (hok : cmdOk g kind = true) (hnow : timedOf e.raw = false) :
    Acts [.prot, .hif] c s fun t =>
      CommandEntered s.dev t.dev pgid kind r e.uid 0 (applyAt s.dev s.sn ns) s.sn g := by
  have henters := enterCmd_enters (ring := r) (uid := e.uid) (late := false) (ns := ns) (sn := s.sn) hgroup hg hdecides hmirror
    hask.low fun hzero => hask.askedSig hzero
  exact acts_of_core hexec hcore (servePgCmd_of_untimed hask hgroup hg.del hg.typ ns s.sn hok hnow) henters.1 henters.2

theorem command_waits (hok : cmdOk g kind = true) (hlater : timedOf e.raw = true) (hfree : g.timed = none) :
    Acts [.prot, .hif] c s fun t => Taken s.dev t.dev r e.uid ∧ (∀ q, q ≠ pgid → groupOf t.dev q = groupOf s.dev q) ∧
      ∃ sg, groupOf t.dev pgid = some { g with
        timed := some (kind, sg, r.val, e.uid,
          if acceptable s.dev s.sn (targetOf e.raw) = true then targetOf e.raw else earliest s.dev s.sn,
          !acceptable s.dev s.sn (targetOf e.raw)) } :=
  acts_of_core hexec hcore (servePgCmd_of_timed hask hgroup hg.del hg.typ ns s.sn hok hlater hfree hmirror)
    ((evals_setGroup s.dev pgid _).parts.trans (only_take _ r e.uid))
    ⟨taken_take (setGroup s.dev pgid _) r e.uid, fun _ hq => groupOf_setGroup_ne s.dev _ hq, _, groupOf_setGroup_same s.dev _⟩

omit hmirror in
theorem command_blocked (hok : cmdOk g kind = false) :
    Acts [.hif] c s fun t => Served s.dev t.dev r e.uid 3 4 s.sn 0 :=
  acts_of_core hexec hcore (servePgCmd_of_not_ok hask hgroup hg.del hg.typ ns s.sn hok) (only_finish s.dev r e.uid _ _ s.sn 0)
    (served_finish s.dev r e.uid stBlocked 4 s.sn 0)

end

section
variable {ring uid : Nat} {x : SN} {late : Bool} (hpgid : pgid < 2 ^ 17)
  (htimed : g.timed = some (kind, cmdSig kind, ring, uid, x, late)) (hdue : snDue x s.sn = true) (hdecides : decides s.dev = true)
include hpgid htimed hdue hdecides

theorem timedCommand_enters (hlow : kind < 4) (hok : cmdOk g kind = true) (hrank : outranked g kind = false) :
    Acts [.prot, .hif] (.timedCommandEntry (BitVec.ofNat 17 pgid) ns) s fun t =>
      CommandEntered s.dev t.dev pgid kind ring uid (if late = true then 1 else 0) (applyAt s.dev s.sn ns) s.sn
        { g with timed := none } := by
  have hsig : kind ≠ 0 → (if kind = 1 then 0 else cmdSig kind) = cmdSig kind := fun _ => by
    by_cases hone : kind = 1 <;> simp [hone, cmdSig]
  obtain ⟨hparts, hothers, h, hentered⟩ := enterCmd_enters (g := { g with timed := none }) (ring := ring) (uid := uid) (late := late)
    (ns := ns) (sn := s.sn) (groupOf_setGroup_same s.dev _) { hg with } hdecides hmirror hlow hsig
  have heq := timedEntry_of_due hgroup htimed hdue hdecides ns
  rw [if_pos (by simp [hok, hrank])] at heq
  exact acts_of_core (exec_timedCommandEntry hpgid ns s) hcore heq (((evals_setGroup s.dev pgid _).parts.trans hparts).mono (by simp))
    ⟨fun q hq => (hothers q hq).trans (groupOf_setGroup_ne s.dev _ hq), h, hentered⟩

omit hg hmirror in
theorem timedCommand_aborts (hlost : cmdOk g kind = false ∨ outranked g kind = true) :
    Acts [.prot, .hif] (.timedCommandEntry (BitVec.ofNat 17 pgid) ns) s fun t =>
      groupOf t.dev pgid = some { g with timed := none } ∧ Served s.dev t.dev ring uid 0x13 6 s.sn 0 := by
  have heq := timedEntry_of_due hgroup htimed hdue hdecides ns
  rw [if_neg (by rcases hlost with h | h <;> simp [h])] at heq
  exact acts_of_core (exec_timedCommandEntry hpgid ns s) hcore heq
    ((evals_setGroup s.dev pgid _).parts.trans (only_finish _ ring uid _ 6 s.sn 0))
    ⟨groupOf_setGroup_same s.dev _, served_finish (setGroup s.dev pgid _) ring uid stAborted 6 s.sn 0⟩

end

end

/-- Settles O20: a command enters, waits or is blocked, and a timed one enters or is aborted at its sweep. -/
theorem protectionCommandsEnter : Obligations.ProtectionCommandsEnter := by
  unfold Obligations.ProtectionCommandsEnter
  intro s r e ns pgid kind g c hcore hgroup htyp hdel hpend hwait hdown hhold hrevert hsf hsd hdecides hmirror hlow sig req enters
  have hg : g.Settled := ⟨htyp, hdel, hpend, hwait, hdown, hhold, hrevert, hsf, hsd⟩
  refine ⟨fun hc he hkind hpgid hres hsignal => ?now, fun ring uid x late hrange htimed hdue => ⟨fun hok hrank => ?later, ?_⟩⟩
  case now =>
    obtain ⟨hexec, hother⟩ := exec_command hc
    have hask : AsksCommand s.dev r kind pgid e := ⟨he, hkind, hlow, hpgid, hres, hsignal⟩
    refine ⟨fun hok hnow => ?_, fun hok hlater hfree => ?_, fun hblocked => ?_⟩
    · refine (command_enters ns hcore hgroup hg hmirror hexec hask hdecides hok hnow).weaken ?_
      rintro t ⟨hothers, h, hhere, hcfg, hsel, hkept, hentered⟩
      exact ⟨hothers, h, hhere, hcfg, hsel, hkept.trans (if_neg (hother _ _)).symm, hentered⟩
    · exact command_waits ns hcore hgroup hg hmirror hexec hask hok hlater hfree
    · refine command_blocked ns hcore hgroup hg hexec hask ?_
      obtain ⟨rfl, y, hcmd⟩ | ⟨rfl, hreq⟩ := hblocked
      · simp [cmdOk, hcmd]
      · simp [cmdOk, hreq]
  case later =>
    refine (timedCommand_enters ns hcore hgroup hg hmirror hrange htimed hdue hdecides hlow hok hrank).weaken ?_
    rintro t ⟨hothers, h, hhere, hcfg, hsel, hkept, hentered⟩
    exact ⟨hothers, h, hhere, hcfg, hsel, hkept.trans (if_pos rfl).symm, hentered⟩
  · exact timedCommand_aborts ns hcore hgroup hrange htimed hdue hdecides

end Sys2Proof.Machine
end

