-- ==== Sys2Proof/Proofs/SignallingChannel.lean ====
section
/-! PROOFS. The protection signalling channel (R261, R266 to R269): a message by its CRC, its VER and its entries, the loss and the
failure of the protocol, and the end of a bridge's hold. -/

namespace Sys2Proof.Machine

/-! ### The evaluation of a group with signalling -/

/-- FRM_PSC_QUEUE of a lane. -/
abbrev queueWord (n : Nat) : Nat := F.FRM_PSC_QUEUE_MAX.addr n

/-- A group stored writes of the registers its lane's queue depth only (R267). -/
theorem evals_putGroup_of_lane {g : Group} {n : Nat} (hlane : pscTxLane g = some n) (d : Dev) (pgid : Nat) (sn : SN) :
    Evals [queueWord n] [.regs, .prot] d (putGroup d pgid g sn) := by
  have hset : Evals [queueWord n] [.regs, .prot] d (setGroup d pgid { g with ent := entOf g }) := (evals_setGroup d pgid _).mono
  unfold putGroup
  simp only [hlane]
  refine .ite (fun _ => hset) fun _ => .ite (fun _ => hset) fun _ => .ite (fun _ => ?_) fun _ => ?_
  · exact (hset.next (.of_only (only_prot _ _))).wr
  · exact hset.next (.of_only (only_prot _ _))

section
variable {d : Dev} {pgid : Nat} {g : Group} (hgroup : groupOf d pgid = some g) (hdel : g.del = none)
  (hmirror : mirrors d = false) (sn : SN) (ns : Nat)
include hgroup hdel hmirror

/-- An evaluation changes no other group. -/
theorem groupOf_evalGroup_ne {q : Nat} (hq : q ≠ pgid) : groupOf (evalGroup sn ns d pgid) q = groupOf d q := by
  obtain ⟨h, -, heq | heq⟩ := evalGroup_stores hgroup hdel sn ns hmirror
  · rw [heq, groupOf_setGroup_ne d h hq]
  · rw [heq, groupOf_putGroup_ne d h sn hq]

/-- An evaluation keeps what a group has been told. -/
theorem groupOf_evalGroup_same : ∃ h, groupOf (evalGroup sn ns d pgid) pgid = some h ∧ h = g.evaluatedTo h := by
  obtain ⟨h, hkept, heq | heq⟩ := evalGroup_stores hgroup hdel sn ns hmirror
  · exact ⟨h, by rw [heq, groupOf_setGroup_same], hkept⟩
  · refine ⟨{ h with ent := entOf h }, by rw [heq, groupOf_putGroup_same], ?_⟩
    rw [hkept]
    rfl

theorem evals_evalGroup_of_lane {n : Nat} (htyp : g.cfg.typ = 1) (htx : g.cfg.tx = some n) :
    Evals [queueWord n] [.regs, .prot] d (evalGroup sn ns d pgid) := by
  obtain ⟨h, hkept, heq | heq⟩ := evalGroup_stores hgroup hdel sn ns hmirror
  · rw [heq]
    exact (evals_setGroup d pgid h).mono
  · have hcfg : h.cfg = g.cfg := (congrArg Group.cfg hkept :)
    rw [heq]
    exact evals_putGroup_of_lane (by simp [pscTxLane, hcfg, htyp, htx]) d pgid sn

end

/-- A group with signalling, stored and evaluated. -/
theorem evalGroup_of_stored {d : Dev} {g : Group} (hdel : g.del = none) (hmirror : mirrors d = false) {n : Nat}
    (htyp : g.cfg.typ = 1) (htx : g.cfg.tx = some n) (pgid : Nat) (sn : SN) (ns : Nat) :
    Evals [queueWord n] [.regs, .prot] d (evalGroup sn ns (setGroup d pgid g) pgid) ∧
    (∀ q, q ≠ pgid → groupOf (evalGroup sn ns (setGroup d pgid g) pgid) q = groupOf d q) ∧
    ∃ h, groupOf (evalGroup sn ns (setGroup d pgid g) pgid) pgid = some h ∧ h = g.evaluatedTo h := by
  have hgroup : groupOf (setGroup d pgid g) pgid = some g := groupOf_setGroup_same d g
  have hmute : mirrors (setGroup d pgid g) = false := hmirror
  have hset : Evals [queueWord n] [.regs, .prot] d (setGroup d pgid g) := (evals_setGroup d pgid g).mono
  exact ⟨hset.trans (evals_evalGroup_of_lane hgroup hdel hmute sn ns htyp htx),
    fun q hq => (groupOf_evalGroup_ne hgroup hdel hmute sn ns hq).trans (groupOf_setGroup_ne d g hq),
    groupOf_evalGroup_same hgroup hdel hmute sn ns⟩

/-! ### A message received (R266, R268) -/

/-- A field within a field. -/
theorem extractLsb'_extractLsb' {w a n b k : Nat} (x : BitVec w) (h : b + k ≤ n) :
    (x.extractLsb' a n).extractLsb' b k = x.extractLsb' (a + b) k := by
  ext i hi
  simp only [BitVec.getElem_extractLsb', BitVec.getLsbD_extractLsb', Nat.add_assoc]
  simp [show b + i < n by omega]

theorem rd_sat_same (d : Dev) {f : Fld} (hf : f.lo + f.wd ≤ 32) (i n : Nat) : rd (sat d f i n) f i = satAdd f.wd (rd d f i) n := by
  have hpos := Nat.two_pow_pos f.wd
  exact rd_wr_fits d ⟨hf, lt_of_le_of_lt (Nat.min_le_right _ _) (by omega)⟩

theorem evals_sat (d : Dev) (f : Fld) (i n : Nat) : Evals [f.addr i] [.regs] d (sat d f i n) := evals_wr d f i _

/-- The CRC of 64 zeros is not zero: a group of zeros is no message with a good CRC. -/
theorem ne_zero_of_crc {m : BitVec 80} (h : crc16 (msbBits (m.extractLsb' 16 64)) = m.extractLsb' 0 16) : m ≠ 0 := by
  rintro rfl
  exact absurd h (by decide +kernel)

section
variable (lane ns : Nat) (sn : SN) (d : Dev) {m : BitVec 80}

theorem pscMessage_of_bad_crc (hm : m ≠ 0) (hcrc : crc16 (msbBits (m.extractLsb' 16 64)) ≠ m.extractLsb' 0 16) :
    pscMessage lane (some m) ns sn d = sat (perf d 0x12 lane) F.FRM_PSC_STATUS_CRC_ERR lane := by
  simp only [pscMessage, hm, if_false, if_pos hcrc]

section
variable (hcrc : crc16 (msbBits (m.extractLsb' 16 64)) = m.extractLsb' 0 16)
include hcrc

theorem pscMessage_of_bad_ver (hver : m.extractLsb' 76 4 ≠ 1#4) :
    pscMessage lane (some m) ns sn d = sat (perf d 0x12 lane) F.FRM_PSC_STATUS_UNKNOWN lane := by
  simp only [pscMessage, ne_zero_of_crc hcrc, if_false, hcrc, ne_eq, not_true_eq_false, if_pos hver]

/-- Without a second entry, a good message is its first entry. -/
theorem pscMessage_of_good (hver : m.extractLsb' 76 4 = 1#4) (hone : m.getLsbD 45 = false) :
    pscMessage lane (some m) ns sn d = pscEntryIn lane ns sn (perf d 0x12 lane) (m.extractLsb' 46 30) := by
  have hsecond (d : Dev) : pscEntryIn lane ns sn d (m.extractLsb' 16 30) = d := by
    have hinvalid : (m.extractLsb' 16 30).getLsbD 29 = false := by rw [BitVec.getLsbD_extractLsb', hone, Bool.and_false]
    simp only [pscEntryIn, hinvalid, Bool.not_false, if_true]
  simp only [pscMessage, ne_zero_of_crc hcrc, if_false, hcrc, ne_eq, not_true_eq_false, hver, hsecond]

end

/-- An entry for a group that receives on the lane, in which nothing is wrong, tells it the remote request. -/
theorem pscEntryIn_of_good {e : BitVec 30} {g : Group} {pgid req rs bs : Nat} (hvalid : e.getLsbD 29 = true)
    (hpgid : (e.extractLsb' 12 17).toNat = pgid) (hreq : (e.extractLsb' 8 4).toNat = req) (hrs : (e.extractLsb' 4 4).toNat = rs)
    (hbs : (e.extractLsb' 0 4).toNat = bs) (hgroup : groupOf d pgid = some g) (htyp : g.cfg.typ = 1) (hrx : g.cfg.rx = some lane)
    (hknown : req ∈ [0xF, 0xE, 0xD, 0xB, 9, 7, 5, 0]) (hrsmax : rs ≤ 1) (hbsmax : bs ≤ 1) (hloss : g.loss = false)
    (hfop : g.fop = false) : pscEntryIn lane ns sn d e =
      evalGroup sn ns (setGroup d pgid { g with remote := some (req, rs, bs), loss := false, fop := false }) pgid := by
  have hlane : pscRxLane g = some lane := by simp [pscRxLane, htyp, hrx]
  have hn : g.n = 1 := by simp [Group.n, htyp]
  have hgood : ¬ (pscRxLane g ≠ some lane ∨ (!([0xF, 0xE, 0xD, 0xB, 9, 7, 5, 0].contains req)) = true ∨ g.n < rs ∨ g.n < bs) := by
    simp [hlane, hknown, hn, hrsmax, hbsmax]
  simp only [pscEntryIn, hvalid, hpgid, hreq, hrs, hbs, hgroup, if_neg hgood, hloss, hfop, Bool.not_true, Bool.false_and,
    Bool.false_eq_true, if_false]

end

/-! ### The protocol's defects and the bridge (R261, R269) -/

section
variable {d : Dev} {pgid : Nat} {g : Group} (hgroup : groupOf d pgid = some g) (sn : SN)
include hgroup

theorem dpscLoss_of_heard (htyp : g.cfg.typ = 1) (hloss : g.loss = false) (ns : Nat) : dpscLoss pgid ns sn d =
    evalGroup sn ns (setGroup (raise d { typ := 0x51, sn := sn, p0 := pgid, p1 := 256 }) pgid
      { g with loss := true, lsel := none }) pgid := by
  simp [dpscLoss, hgroup, Group.bidir, htyp, hloss]

theorem dpscFop_of_differing {x : Nat × Nat × Nat} (htyp : g.cfg.typ = 1) (hfop : g.fop = false) (hremote : g.remote = some x)
    (hdiffers : x.2.2 ≠ g.r) :
    dpscFop pgid sn d = setGroup (raise d { typ := 0x51, sn := sn, p0 := pgid, p1 := 257 }) pgid { g with fop := true } := by
  simp [dpscFop, hgroup, hremote, Group.bidir, htyp, hfop, hdiffers]

omit sn in
theorem bridgeHoldExpiry_of_hold (hhold : g.bridgeHold = true) :
    bridgeHoldExpiry pgid d = setGroup d pgid { g with bridgeHold := false, bridgeDrop := true } := by
  simp only [bridgeHoldExpiry, hgroup, hhold, if_true]

end

/-! ### What the host sees -/

/-- An all-zero group, or none, is no message (R76). -/
theorem exec_pscMessage_of_none (s : State) (hcore : s.dev.pwr.core = true) (lane : Fin 128) (ns : Nat) :
    exec (.pscMessage lane none ns) s = .next s ∧ exec (.pscMessage lane (some 0) ns) s = .next s :=
  ⟨exec_next_of_same (g := pscMessage lane none ns s.sn) rfl hcore rfl,
    exec_next_of_same (g := pscMessage lane (some 0) ns s.sn) rfl hcore rfl⟩

section
variable {s : State} (hcore : s.dev.pwr.core = true) (lane : Fin 128) (ns : Nat)
include hcore

/-- A message that is only counted. -/
theorem pscMessage_counts {m : BitVec 80} {f : Fld} (hf : f.lo + f.wd ≤ 32)
    (heq : pscMessage lane (some m) ns s.sn s.dev = sat (perf s.dev 0x12 lane) f lane) :
    ActsR [f.addr lane] [.pm] (.pscMessage lane (some m) ns) s fun t => rd t.dev f lane = satAdd f.wd (rd s.dev f lane) 1 := by
  have hperf : Evals [f.addr lane] [.regs, .pm] s.dev (perf s.dev 0x12 lane) := (evals_perf s.dev 0x12 lane 1).mono
  refine actsR_of_core rfl hcore heq (hperf.next (evals_sat _ f lane 1)) ?_
  exact (rd_sat_same _ hf lane 1).trans (by rw [rd_perf])

section
variable {pgid : Nat} {g : Group} (hdel : g.del = none) (hmirror : mirrors s.dev = false)
include hdel hmirror

/-- A good message of one entry, counted, tells the group its remote request and BSIG. -/
theorem pscMessage_tells {m : BitVec 80} {d : Dev} (hd : Evals [] [.pm] s.dev d) {tx req rs bs : Nat} (htyp : g.cfg.typ = 1)
    (htx : g.cfg.tx = some tx) (heq : pscMessage lane (some m) ns s.sn s.dev =
      evalGroup s.sn ns (setGroup d pgid { g with remote := some (req, rs, bs), loss := false, fop := false }) pgid) :
    ActsR [queueWord tx] [.prot, .pm] (.pscMessage lane (some m) ns) s fun t =>
      (∀ q, q ≠ pgid → groupOf t.dev q = groupOf s.dev q) ∧ ∃ h, groupOf t.dev pgid = some h ∧ h.cfg = g.cfg ∧ h.r = g.r ∧
        h.remote = some (req, rs, bs) ∧ h.loss = false := by
  have hmute : mirrors d = false := (hd.mirrors_of_link (by simp)).trans hmirror
  obtain ⟨hframe, hothers, h, hhere, hkept⟩ := evalGroup_of_stored
    (g := { g with remote := some (req, rs, bs), loss := false, fop := false }) hdel hmute htyp htx pgid s.sn ns
  refine actsR_of_core rfl hcore heq ((hd.mono (ps := [.regs, .prot, .pm])).next hframe) ⟨fun q hq => ?_, h, hhere,
    (congrArg Group.cfg hkept :), (congrArg Group.r hkept :), (congrArg Group.remote hkept :), (congrArg Group.loss hkept :)⟩
  exact (hothers q hq).trans (groupOf_congr (hd.parts .prot (by simp)) q)

end

end

section
variable {s : State} {pgid : BitVec 17} {g : Group} (hcore : s.dev.pwr.core = true)
  (hgroup : groupOf s.dev pgid.toNat = some g)
include hcore hgroup

theorem dpscLoss_declares (hdel : g.del = none) (hmirror : mirrors s.dev = false) {tx : Nat} (htyp : g.cfg.typ = 1)
    (htx : g.cfg.tx = some tx) (hloss : g.loss = false) (ns : Nat) :
    ActsR [queueWord tx] [.prot, .hif] (.dpscLoss pgid ns) s fun t =>
      (∀ q, q ≠ pgid.toNat → groupOf t.dev q = groupOf s.dev q) ∧
      Raised s.dev t.dev [{ typ := 0x51, sn := s.sn, p0 := pgid.toNat, p1 := 256 }] ∧
      ∃ h, groupOf t.dev pgid.toNat = some h ∧ h.loss = true ∧ h.cfg = g.cfg ∧ h.r = g.r := by
  have hraise := evals_raise s.dev { typ := 0x51, sn := s.sn, p0 := pgid.toNat, p1 := 256 }
  obtain ⟨hframe, hothers, h, hhere, hkept⟩ := evalGroup_of_stored (d := raise s.dev _) (g := { g with loss := true, lsel := none })
    hdel hmirror htyp htx pgid.toNat s.sn ns
  refine actsR_of_core rfl hcore (dpscLoss_of_heard hgroup s.sn htyp hloss ns) ((hraise.mono (ps := [.regs, .prot, .hif])).next hframe)
    ⟨hothers, (raised_raise s.dev _).of_same rfl rfl ?_, h, hhere, (congrArg Group.loss hkept :), (congrArg Group.cfg hkept :),
      (congrArg Group.r hkept :)⟩
  exact congrArg Hif.evq (hframe.parts .hif (by simp))

theorem dpscFop_declares {x : Nat × Nat × Nat} (htyp : g.cfg.typ = 1) (hfop : g.fop = false) (hremote : g.remote = some x)
    (hdiffers : x.2.2 ≠ g.r) : Acts [.prot, .hif] (.dpscFop pgid) s fun t =>
      (∀ q, q ≠ pgid.toNat → groupOf t.dev q = groupOf s.dev q) ∧ groupOf t.dev pgid.toNat = some { g with fop := true } ∧
      Raised s.dev t.dev [{ typ := 0x51, sn := s.sn, p0 := pgid.toNat, p1 := 257 }] := by
  have hparts := (only_raise s.dev { typ := 0x51, sn := s.sn, p0 := pgid.toNat, p1 := 257 }).trans
    (evals_setGroup (raise s.dev _) pgid.toNat { g with fop := true }).parts
  exact acts_of_core rfl hcore (dpscFop_of_differing hgroup s.sn htyp hfop hremote hdiffers) (hparts.mono (by simp))
    ⟨fun q hq => groupOf_setGroup_ne (raise s.dev _) _ hq, groupOf_setGroup_same (raise s.dev _) _, raised_raise s.dev _⟩

theorem bridgeHold_ends (hhold : g.bridgeHold = true) : Acts [.prot] (.bridgeHoldExpiry pgid) s fun t =>
    (∀ q, q ≠ pgid.toNat → groupOf t.dev q = groupOf s.dev q) ∧
    groupOf t.dev pgid.toNat = some { g with bridgeHold := false, bridgeDrop := true } :=
  acts_of_core rfl hcore (bridgeHoldExpiry_of_hold hgroup hhold) (evals_setGroup s.dev _ _).parts
    ⟨fun _ hq => groupOf_setGroup_ne s.dev _ hq, groupOf_setGroup_same s.dev _⟩

end

/-- Settles O22: messages by their CRC, VER and entry, then the defects of the protocol and the bridge. -/
theorem signallingChannel : Obligations.SignallingChannel := by
  unfold Obligations.SignallingChannel
  intro s pgid g hcore hgroup hdel hmirror queue others
  refine ⟨?message, fun ns tx htyp htx hloss => ?loss,
    fun x htyp hfop hremote hdiffers => ?fop, fun hhold => ?bridge⟩
  case message =>
    intro lane m ns tx htyp htx h req rs bs
    obtain ⟨hnone, hzero⟩ := exec_pscMessage_of_none s hcore lane ns
    refine ⟨hnone, hzero, fun hm hcrc => ?_, fun hcrc hver => ?_, fun hcrc hver hvalid hpgid hone hrx hknown hrs hbs hloss hfop => ?_⟩
    · exact pscMessage_counts hcore lane ns (by decide) (pscMessage_of_bad_crc lane ns s.sn s.dev hm hcrc)
    · exact pscMessage_counts hcore lane ns (by decide) (pscMessage_of_bad_ver lane ns s.sn s.dev hcrc hver)
    · refine pscMessage_tells hcore lane ns hdel hmirror (evals_perf s.dev 0x12 lane 1) htyp htx ?_
      rw [pscMessage_of_good lane ns s.sn s.dev hcrc hver hone]
      refine pscEntryIn_of_good lane ns s.sn _ ?_ ?_ ?_ ?_ ?_ ?_ htyp hrx hknown hrs hbs hloss hfop
      · rw [BitVec.getLsbD_extractLsb', hvalid]
        rfl
      · rw [extractLsb'_extractLsb' m (by decide), hpgid]
      · rw [extractLsb'_extractLsb' m (by decide)]
      · rw [extractLsb'_extractLsb' m (by decide)]
      · rw [extractLsb'_extractLsb' m (by decide)]
      · exact (groupOf_congr (perf_prot s.dev 0x12 lane 1) _).trans hgroup
  case loss => exact dpscLoss_declares hcore hgroup hdel hmirror htyp htx hloss ns
  case fop => exact dpscFop_declares hcore hgroup htyp hfop hremote hdiffers
  case bridge => exact bridgeHold_ends hcore hgroup hhold

end Sys2Proof.Machine
end

