-- ==== Sys2Proof/Proofs/ProtectionDecisions.lean ====
section
/-! PROOFS. Decisions of a 1+1 group (R253, R256, R258 to R260, R272): a decision at its sweep, grain by grain, and the ends of the
hold-off and of the wait-to-restore, which decide. -/

namespace Sys2Proof.Machine

/-! ### The grains of a unit (R199, R260) -/

section
variable (d : Dev) {u v : Nat} (f : Sel → Sel)

@[simp] theorem selAt_modSel_same : selAt (modSel d u f) u = f (selAt d u) := tget_tput_same _ _ _ _
theorem selAt_modSel_ne (h : v ≠ u) : selAt (modSel d u f) v = selAt d v := tget_tput_ne _ _ _ h

theorem only_modSel : Only [.sw] d (modSel d u f) := by
  intro p hp; cases p <;> simp_all [Part.same]

end

/-- The selector entry `y` is what a decision makes of `x`: SEL is set, and with HOLD it waits. -/
structure SelDecided (sel : Bool) (x y : Sel) : Prop where
  hold : y.hold = x.hold
  free : x.hold = false → y.sel = sel ∧ y.selPend = none
  held : x.hold = true → y.sel = x.sel ∧ y.selPend = some sel

theorem SelDecided.trans {sel : Bool} {x y z : Sel} (h : SelDecided sel x y) (k : SelDecided sel y z) : SelDecided sel x z where
  hold := k.hold.trans h.hold
  free hfree := k.free (h.hold.trans hfree)
  held hheld := ⟨(k.held (h.hold.trans hheld)).1.trans (h.held hheld).1, (k.held (h.hold.trans hheld)).2⟩

theorem selDecided_decideGrain (sel mi : Bool) (d : Dev) (u : Nat) :
    SelDecided sel (selAt d u) (selAt (decideGrain sel mi d u) u) := by
  rw [decideGrain, selAt_modSel_same]
  cases hhold : (selAt d u).hold with
  | false => exact ⟨rfl, fun _ => ⟨rfl, rfl⟩, fun h => absurd (hhold.symm.trans h) (by simp)⟩
  | true => exact ⟨rfl, fun h => absurd (hhold.symm.trans h) (by simp), fun _ => ⟨rfl, rfl⟩⟩

/-- The grains of the unit are decided between `a` and `b`, and no other one changes. -/
structure UnitDecided (a b : Dev) (sel : Bool) (unit : List Nat) : Prop where
  decided : ∀ u ∈ unit, SelDecided sel (selAt a u) (selAt b u)
  others : ∀ u, u ∉ unit → selAt b u = selAt a u
  array : b.sw = { a.sw with sel := b.sw.sel }

theorem UnitDecided.congr {a b c : Dev} {sel : Bool} {unit : List Nat} (h : UnitDecided a b sel unit) (hsw : c.sw = b.sw) :
    UnitDecided a c sel unit := by
  have hsel (u : Nat) : selAt c u = selAt b u := by simp only [selAt, hsw]
  refine ⟨fun u hu => hsel u ▸ h.decided u hu, fun u hu => (hsel u).trans (h.others u hu), ?_⟩
  rw [hsw]
  exact h.array

theorem unitDecided_foldl (sel mi : Bool) (unit : List Nat) (d : Dev) :
    Only [.sw] d (unit.foldl (decideGrain sel mi) d) ∧ UnitDecided d (unit.foldl (decideGrain sel mi) d) sel unit := by
  induction unit generalizing d with
  | nil => exact ⟨Only.refl _ d, ⟨by simp, fun _ _ => rfl, rfl⟩⟩
  | cons v unit ih =>
    obtain ⟨hparts, hdecided, hothers, harray⟩ := ih (decideGrain sel mi d v)
    have hne {u : Nat} (h : u ≠ v) : selAt (decideGrain sel mi d v) u = selAt d u := selAt_modSel_ne d _ h
    have hv := selDecided_decideGrain sel mi d v
    refine ⟨((only_modSel d _).trans hparts).mono (by simp), fun u hu => ?_, fun u hu => ?_, harray⟩
    · rw [List.foldl_cons]
      by_cases huv : u = v
      · subst huv
        by_cases hmem : u ∈ unit
        · exact hv.trans (hdecided u hmem)
        · exact hothers u hmem ▸ hv
      · rw [← hne huv]
        exact hdecided u ((List.mem_cons.1 hu).resolve_left huv)
    · obtain ⟨huv, hmem⟩ := not_or.1 (mt List.mem_cons.2 hu)
      exact (hothers u hmem).trans (hne huv)

/-! ### A decision at its sweep (R258 to R260, R272) -/

theorem evals_protSwitch (d : Dev) (pgid old new req : Nat) (x sn : SN) :
    Evals [F.GLB_PROT_SWCNT_SWITCHES.addr 0] [.regs, .hif] d (protSwitch d pgid old new req x sn) := by
  unfold protSwitch
  exact .ite (fun _ => .refl _ _ d) fun _ => (Evals.refl _ _ d).raise.next (evals_sat _ _ _ _)

theorem protSwitch_same (d : Dev) (pgid : Nat) {old new : Nat} (h : old = new) (req : Nat) (x sn : SN) :
    protSwitch d pgid old new req x sn = d := if_pos h

/-- A change of selected signal is reported and counted. -/
theorem protSwitch_counts (d : Dev) (pgid : Nat) {old new : Nat} (h : old ≠ new) (req : Nat) (x sn : SN) :
    rd (protSwitch d pgid old new req x sn) F.GLB_PROT_SWCNT_SWITCHES = satAdd 32 (rd d F.GLB_PROT_SWCNT_SWITCHES) 1 ∧
    Raised d (protSwitch d pgid old new req x sn)
      [{ typ := 0x50, sn := sn, p0 := pgid, p1 := old + 16 * new + 256 * req, p2 := x.toNat }] := by
  have heq : protSwitch d pgid old new req x sn =
      sat (raise d { typ := 0x50, sn := sn, p0 := pgid, p1 := old + 16 * new + 256 * req, p2 := x.toNat })
        F.GLB_PROT_SWCNT_SWITCHES 0 := if_neg h
  rw [heq]
  exact ⟨rd_sat_same _ (by decide) 0 1, rfl⟩

/-- The group with decision `p` applied, and what stands of MI then. -/
def Group.applied (g : Group) (p : Decision) (mi : Bool) (pendMi : Option (Bool × SN)) : Group :=
  { g with
    mi := mi, pendMi := pendMi, pend := none, r := p.sig, wait := []
    switches := g.switches + if g.r = p.sig then 0 else 1 }

/-- The unit's grains as decision `p` and `mi` set them, with `n` SEL changes counted. -/
def unitSwitched (g : Group) (p : Decision) (mi : Bool) (n : Nat) (d : Dev) : Dev :=
  perf (g.cfg.unit.foldl (decideGrain (p.sig == 1) mi) d) 5 0 n

section
variable {d : Dev} {pgid : Nat} {g : Group} {p : Decision} {sn : SN} (hgroup : groupOf d pgid = some g) (htyp : g.cfg.typ = 0)
  (hdel : g.del = none) (hpend : g.pend = some p) (hdue : snDue p.x sn = true) (hwait : g.wait = []) (hfop : g.fop = false)
  (hlsel : g.lsel = none)
include hgroup htyp hdel hpend hdue hwait hfop hlsel

omit hdel hpend hdue hwait hfop hlsel in
/-- A 1+1 group has no lanes whose SF follows its selector (R261). -/
theorem decisionDue_eq : decisionDue pgid sn d = decisionApply pgid sn d := by
  simp [decisionDue, hgroup, htyp]

/-- A decision of a 1+1 group at its sweep: the unit's grains, the report, the group stored, and evaluated again. -/
theorem decisionApply_eq : ∃ mi pendMi n, decisionApply pgid sn d =
    evalGroup sn 100 (putGroup (seenOr (protSwitch (unitSwitched g p mi n d) pgid g.r p.sig p.req p.x sn) 6 pgid
      (if p.sig = 0 then 0 else 1)) pgid (g.applied p mi pendMi) sn) pgid := by
  unfold decisionApply
  split
  · next hnone => exact absurd (hgroup.symm.trans hnone) (by simp)
  next g' hg' =>
  obtain rfl : g' = g := Option.some.inj (hg'.symm.trans hgroup)
  extract_lets due dueMi dueL old p' req x mi g₁ gN decided selected n d₁ d₂ counted d₃ d₄ stored
  have hdue' : due = true := by simp only [due, hpend, hdue]
  have hp : p' = p := by simp only [p', hpend, Option.getD_some]
  have hreq : req = p.req := by simp only [req, hdue', if_true, hp]
  have hx : x = p.x := by simp only [x, hdue', if_true, hp]
  have hdecided : decided = { g₁ with pend := none, r := p.sig } := by
    have hone : g₁.cfg.typ ≠ 2 := by simp [g₁, htyp]
    simp only [decided, hdue', if_neg hone, hp, Bool.not_true, Bool.false_eq_true, if_false]
  have hselected : selected = decided := by
    have hnone : decided.lsel = none := by rw [hdecided]; exact hlsel
    simp only [selected, hnone]
  have hone : selected.cfg.typ ≠ 2 := by rw [hselected, hdecided]; simp [g₁, htyp]
  have hfree : fopClears counted = false := by
    have hoff : counted.fop = false := by simp only [counted, hselected, hdecided]; exact hfop
    rw [fopClears, hoff, Bool.false_and]
  have hunit : d₂ = unitSwitched g' p mi n d := by
    simp only [d₂, d₁, if_neg hone]
    rw [hselected, hdecided]
    rfl
  have hd₄ : d₄ = seenOr (protSwitch (unitSwitched g' p mi n d) pgid g'.r p.sig p.req p.x sn) 6 pgid
      (if p.sig = 0 then 0 else 1) := by
    have hr : counted.r = p.sig := by simp only [counted, hselected, hdecided]
    simp only [d₄, hfree, d₃, hunit, hr, hreq, hx, Bool.false_eq_true, if_false]
    rfl
  have hstored : stored = counted := by simp only [stored, hfree, Bool.not_false, Bool.and_true]
  have hcounted : { counted with wait := [] } = g'.applied p mi g₁.pendMi := by
    simp only [counted, hselected, hdecided]
    rfl
  have hdone : finishWaits d₄ counted x = d₄ := by
    have hnone : counted.wait = [] := by simp only [counted, hselected, hdecided]; exact hwait
    rw [finishWaits, hnone, List.foldl_nil]
  have hrest : (counted.pend.isNone && counted.lsel.isNone && (counted.cfg.typ != 2 || counted.r == counted.tgt)) = true := by
    simp [counted, hselected, hdecided, g₁, hlsel, htyp]
  have hstays : counted.del = none := by simp only [counted, hselected, hdecided]; exact hdel
  refine ⟨mi, g₁.pendMi, n, ?_⟩
  rw [if_neg (by simp [hdue']), hstored, if_pos hrest, hdone, ← hcounted, ← hd₄, hstays]

/-- The device at the sweep of a decision: the unit is decided, then the change is reported and counted, and at last the group is
stored, with nothing new but the decision that its evaluation may bring. -/
theorem decisionApply_stages (hmirror : mirrors d = false) : ∃ b,
    Only [.sw, .pm] d b ∧ UnitDecided d b (p.sig == 1) g.cfg.unit ∧
    Only [.prot, .pm] (protSwitch b pgid g.r p.sig p.req p.x sn) (decisionApply pgid sn d) ∧
    (∀ q, q ≠ pgid → groupOf (decisionApply pgid sn d) q = groupOf d q) ∧
    ∃ h, groupOf (decisionApply pgid sn d) pgid = some h ∧ h.cfg = g.cfg ∧ h.r = p.sig ∧
      h.switches = g.switches + if g.r = p.sig then 0 else 1 := by
  obtain ⟨mi, pendMi, n, heq⟩ := decisionApply_eq hgroup htyp hdel hpend hdue hwait hfop hlsel
  obtain ⟨hgrains, hunit⟩ := unitDecided_foldl (p.sig == 1) mi g.cfg.unit d
  have hall : Evals [] [.sw, .pm] d (g.cfg.unit.foldl (decideGrain (p.sig == 1) mi) d) := (Evals.of_only hgrains).mono
  have hswitched : Evals [] [.sw, .pm] d (unitSwitched g p mi n d) := hall.next (evals_perf _ 5 0 n)
  have hreported := evals_protSwitch (unitSwitched g p mi n d) pgid g.r p.sig p.req p.x sn
  generalize hc : protSwitch (unitSwitched g p mi n d) pgid g.r p.sig p.req p.x sn = c at heq hreported
  have hseen := evals_seenOr c 6 pgid (if p.sig = 0 then 0 else 1)
  generalize seenOr c 6 pgid (if p.sig = 0 then 0 else 1) = e at heq hseen
  have hframe : Evals [F.GLB_PROT_SWCNT_SWITCHES.addr 0] [.sw, .pm, .regs, .hif] d e :=
    ((hswitched.mono).next hreported).next hseen
  have hmute : mirrors e = false := (hframe.mirrors_of_link (by decide)).trans hmirror
  rw [putGroup_of_no_psc (by simp [pscTxLane, Group.applied, htyp])] at heq
  generalize happlied : ({ g.applied p mi pendMi with ent := entOf (g.applied p mi pendMi) } : Group) = g' at heq
  have hdel' : g'.del = none := by rw [← happlied]; exact hdel
  have htyp' : g'.cfg.typ = 0 := by rw [← happlied]; exact htyp
  obtain ⟨h, hkept, hstored⟩ := evalGroup_of_no_psc (groupOf_setGroup_same (pgid := pgid) e g') hdel' sn 100 htyp' hmute
  have hafter : Evals [] [.prot] e (decisionApply pgid sn d) := by
    rw [heq, hstored]
    exact (evals_setGroup e pgid g').trans (evals_setGroup _ pgid h)
  refine ⟨_, hswitched.parts, hunit.congr (perf_sw _ 5 0 n), ?_, fun q hq => ?_, h, ?_, ?_⟩
  · rw [hc]
    exact (hseen.parts.trans hafter.parts).mono (by simp)
  · rw [heq, hstored, groupOf_setGroup_ne _ h hq, groupOf_setGroup_ne e g' hq]
    exact groupOf_congr (hframe.parts .prot (by simp)) q
  · rw [heq, hstored, groupOf_setGroup_same]
  · rw [hkept, ← happlied]
    exact ⟨rfl, rfl, rfl⟩

end

/-! ### What decides (R253, R256) -/

/-- Another group of the same kind in the place of `g` is the same to what looks for groups of another kind. -/
theorem find?_tins_of_not {α : Type} {m : Tbl α} {q : Nat} {v w : α} {P : Nat × α → Bool} (hq : tfind m q = some w)
    (hw : P (q, w) = false) (hv : P (q, v) = false) : (tins m q v).find? P = m.find? P := by
  induction m with
  | nil => simp at hq
  | cons e m ih =>
    obtain ⟨k, x⟩ := e
    simp only [tins]
    by_cases hlt : q < k
    · rw [if_pos hlt, List.find?_cons, hv]
    · rw [if_neg hlt]
      by_cases heq : q = k
      · subst heq
        obtain rfl : x = w := by simpa [tfind] using hq
        rw [if_pos rfl, List.find?_cons, List.find?_cons, hv, hw]
      · have hrest : tfind m q = some w := by simpa [tfind, Ne.symm heq] using hq
        rw [if_neg heq, List.find?_cons, List.find?_cons, ih hrest]

section
variable {d : Dev} {pgid : Nat} {g : Group} (hgroup : groupOf d pgid = some g) (htyp : g.cfg.typ ≠ 2)
include hgroup htyp

/-- Storing a 1+1 group moves no lane selector (R261). -/
theorem subst_setGroup {h : Group} (hcfg : h.cfg = g.cfg) (n : Nat) : subst (setGroup d pgid h) n = subst d n := by
  have hfind (P : Nat × Group → Bool) (hP : ∀ q (x : Group), x.cfg.typ ≠ 2 → P (q, x) = false) :
      (setGroup d pgid h).prot.groups.find? P = d.prot.groups.find? P :=
    find?_tins_of_not hgroup (hP _ _ htyp) (hP _ _ (by rw [hcfg]; exact htyp))
  rw [Machine.subst, Machine.subst, hfind _ fun q x hx => by simp [hx]]

omit hgroup htyp in
/-- The configuration of a group is all that tells its sources (Table 10-3). -/
theorem defectSource_congr {x y : Group} (h : x.cfg = y.cfg) (d : Dev) (k : Nat) : defectSource d x k = defectSource d y k := by
  simp only [defectSource, h]

theorem defectSource_setGroup {h : Group} (hcfg : h.cfg = g.cfg) (x : Group) (k : Nat) :
    defectSource (setGroup d pgid h) x k = defectSource d x k := by
  have hcond (n : Nat) : effCond (setGroup d pgid h) n = effCond d n := by
    rw [effCond, effCond, subst_setGroup hgroup htyp hcfg]
    rfl
  have hlane (u c : Nat) : srcLaneCond (setGroup d pgid h) u c = srcLaneCond d u c := by
    simp only [srcLaneCond, hcond]
    rfl
  simp only [defectSource, hlane]
  rfl

end

/-- An input that is raised stays so while its source holds SF. -/
theorem stepInput_of_sf {d : Dev} {g : Group} {i : Input} {k : Nat} (hup : i.up = true) (hsource : defectSource d g k = .sf)
    (pgid : Nat) (sn : SN) : (stepInput d g pgid sn k i).up = true ∧ (stepInput d g pgid sn k i).timer = i.timer ∧
      (stepInput d g pgid sn k i).cond = .sf := by
  have hworst (c : Cond) : Cond.sf.worst c = .sf := by cases c <;> rfl
  simp [stepInput, hsource, hworst, hup]

/-- SF of the working signal is the local request (R254). -/
theorem topBase_of_working_sf {g : Group} {i₀ i₁ : Input} (htyp : g.cfg.typ = 0) (hinputs : g.inputs = [i₀, i₁])
    (hprotect : i₀.up = false) (hworking : i₁.up = true) (hcond : i₁.cond = .sf) (hauto : g.cfg.auto = true) (hcmd : g.cmd = none) :
    topBase g = some (0xB, 1) := by
  have hzero : raised g .sf [0] = none := by simp [raised, hinputs, hprotect]
  have hone : raised g .sf ((List.range g.n).map (· + 1)) = some 1 := by simp [raised, hinputs, hworking, hcond, Group.n, htyp]
  simp only [topBase, hcmd, hzero, hone, hauto, if_true, Option.map_some, Option.map_none, Option.none_or, Option.some_or]

/-- The group when the hold-off of its working signal is over: the request is raised. -/
def Group.holdOffOver (g : Group) (i₀ i₁ : Input) : Group := { g with inputs := [i₀, { i₁ with up := true, timer := none }] }

section
variable {d : Dev} {pgid : Nat} {g : Group} (hgroup : groupOf d pgid = some g) (sn : SN) (ns : Nat)
include hgroup

section
variable {i₀ i₁ : Input} (hinputs : g.inputs = [i₀, i₁])
include hinputs

theorem holdOffExpiry_of_over (hdecides : decides d = true) {t : SN} (htimer : i₁.timer = some t)
    (hover : holdOffSweeps g.cfg.holdOff ≤ (sn - t).toNat) :
    holdOffExpiry pgid 1 ns sn d = evalGroup sn ns (setGroup d pgid (g.holdOffOver i₀ i₁)) pgid := by
  have hdone : decide (holdOffSweeps g.cfg.holdOff ≤ snAge t sn) = true := decide_eq_true hover
  simp [holdOffExpiry, hgroup, hinputs, htimer, hdecides, hdone, Group.holdOffOver, lset, lmod]

omit hinputs in
/-- The evaluation that follows decides for the protect signal (R253, R257). -/
theorem evaluated_holdOffOver (htyp : g.cfg.typ = 0) (hhold : g.cfg.holdOff ≠ 0) (hdown : i₀.up = false)
    (hsource : defectSource d g 1 = .sf) (hauto : g.cfg.auto = true) (hcmd : g.cmd = none) (hr : g.r = 0) (hpend : g.pend = none)
    {h : Group} (heval : Evaluated (setGroup d pgid (g.holdOffOver i₀ i₁)) pgid sn ns (g.holdOffOver i₀ i₁) h) :
    h.cfg = g.cfg ∧ h.r = 0 ∧ h.lastReq = 0xB ∧ h.lastSig = 1 ∧ h.pend = some ⟨1, applyAt d sn ns, 0xB⟩ ∧
      ∃ i, h.inputs[1]? = some i ∧ i.up = true ∧ i.timer = none ∧ i.cond = .sf := by
  have hsource' : defectSource (setGroup d pgid (g.holdOffOver i₀ i₁)) (g.holdOffOver i₀ i₁) 1 = .sf := by
    rw [defectSource_setGroup hgroup (by simp [htyp]) (h := g.holdOffOver i₀ i₁) rfl,
      defectSource_congr (y := g) (by rfl) d 1, hsource]
  have htyp' : (g.holdOffOver i₀ i₁).cfg.typ = 0 := htyp
  obtain ⟨hup, htimer, hcond⟩ := stepInput_of_sf (i := { i₁ with up := true, timer := none }) rfl hsource' pgid sn
  generalize hstate : setGroup d pgid (g.holdOffOver i₀ i₁) = e at *
  have hstepped : ((g.holdOffOver i₀ i₁).stepped e pgid sn).inputs = [stepInput e (g.holdOffOver i₀ i₁) pgid sn 0 i₀,
      stepInput e (g.holdOffOver i₀ i₁) pgid sn 1 { i₁ with up := true, timer := none }] := rfl
  have htop : localTop ((g.holdOffOver i₀ i₁).stepped e pgid sn) sn = (none, 0xB, 1) :=
    localTop_of_top (topBase_of_working_sf (g := (g.holdOffOver i₀ i₁).stepped e pgid sn) htyp' hstepped
      (stepInput_down hhold hdown pgid sn 0) hup hcond hauto hcmd) sn
  have hproj : projSig (g.holdOffOver i₀ i₁) = 0 := by simp [projSig, Group.holdOffOver, hpend, htyp, hr]
  refine ⟨heval.cfg, heval.selected.trans hr, ?_, ?_, ?_, _, ?_, hup, htimer, hcond⟩
  · rw [heval.lastReq, htop]
  · rw [heval.lastSig, htop]
  · rw [heval.pend hpend, Group.aim_of_unidirectional htyp', htop, hproj, ← hstate]
    rfl
  · rw [heval.inputs, hstepped]
    rfl

end

theorem wtrExpiry_of_over (hdecides : decides d = true) {w : Nat × SN} (hwtr : g.wtr = some w)
    (hover : wtrSweeps g.cfg.wtr ≤ (sn - w.2).toNat) :
    wtrExpiry pgid ns sn d = evalGroup sn ns (setGroup d pgid { g with wtr := none }) pgid := by
  have hdone : decide (wtrSweeps g.cfg.wtr ≤ snAge w.2 sn) = true := decide_eq_true hover
  simp [wtrExpiry, hgroup, hwtr, hdecides, hdone]

omit hgroup in
/-- The evaluation that follows decides for signal 0 (R256). -/
theorem evaluated_wtrOver (htyp : g.cfg.typ = 0) (hhold : g.cfg.holdOff ≠ 0) (hdown : ∀ i ∈ g.inputs, i.up = false)
    (hcmd : g.cmd = none) (hrevert : g.cfg.revert = true) (hlast : g.lastReq = 5) (hpend : g.pend = none) (hr : g.r ≠ 0)
    {h : Group} (heval : Evaluated (setGroup d pgid { g with wtr := none }) pgid sn ns { g with wtr := none } h) :
    h.cfg = g.cfg ∧ h.r = g.r ∧ h.wtr = none ∧ h.lastReq = 0 ∧ h.pend = some ⟨0, applyAt d sn ns, 0⟩ := by
  generalize hquiet : ({ g with wtr := none } : Group) = g' at heval
  have hg' : g'.cfg = g.cfg ∧ g'.inputs = g.inputs ∧ g'.cmd = none ∧ g'.wtr = none ∧ g'.lastReq = 5 ∧ g'.pend = none ∧ g'.r = g.r := by
    rw [← hquiet]
    exact ⟨rfl, rfl, hcmd, rfl, hlast, hpend, rfl⟩
  obtain ⟨hcfg, hinputs, hcmd', hwtr, hlast', hpend', hr'⟩ := hg'
  have htyp' : g'.cfg.typ = 0 := by rw [hcfg, htyp]
  have htop : localTop (g'.stepped (setGroup d pgid g') pgid sn) sn = (none, 0, 0) := by
    have hnone := Group.stepped_down (by rw [hcfg]; exact hhold) (by rw [hinputs]; exact hdown) (setGroup d pgid g') pgid sn
    refine localTop_of_nr (topBase_of_down hnone hcmd') ?_ hwtr ?_ ?_ sn
    · exact (congrArg GroupCfg.revert hcfg).trans hrevert
    all_goals simp [Group.stepped, hlast']
  have hproj : projSig g' = g.r := by simp [projSig, hpend', htyp', hr']
  refine ⟨heval.cfg.trans hcfg, heval.selected.trans hr', ?_, ?_, ?_⟩
  · rw [heval.wtr, htop]
  · rw [heval.lastReq, htop]
  · rw [heval.pend hpend', Group.aim_of_unidirectional htyp', htop, hproj, if_neg (Ne.symm hr)]
    rfl

end

/-! ### What the host sees -/

section
variable {s : State} {pgid : Nat} (hcore : s.dev.pwr.core = true) (hmirror : mirrors s.dev = false)
include hcore hmirror

/-- A group without signalling, stored and evaluated. -/
theorem acts_of_evaluated {c : Instr} {m : Dev → Dev} {g : Group} {ns : Nat} {P : Group → Prop} (hexec : exec c s = core s m)
    (hm : m s.dev = evalGroup s.sn ns (setGroup s.dev pgid g) pgid) (htyp : g.cfg.typ = 0) (hdel : g.del = none)
    (hdecides : decides s.dev = true) (hP : ∀ h, Evaluated (setGroup s.dev pgid g) pgid s.sn ns g h → P h) :
    Acts [.prot] c s fun t => (∀ q, q ≠ pgid → groupOf t.dev q = groupOf s.dev q) ∧ ∃ h, groupOf t.dev pgid = some h ∧ P h := by
  obtain ⟨h, hstored, heval⟩ := evalGroup_of_unidirectional (groupOf_setGroup_same (pgid := pgid) s.dev g) hdel s.sn ns htyp
    hdecides hmirror
  refine acts_of_core hexec hcore (hm.trans hstored)
    ((evals_setGroup s.dev pgid g).trans (evals_setGroup _ pgid h)).parts ⟨fun q hq => ?_, h, groupOf_setGroup_same _ h, hP h heval⟩
  exact (groupOf_setGroup_ne _ h hq).trans (groupOf_setGroup_ne s.dev g hq)

end

/-- Settles O21: a decision at its sweep, then the end of the hold-off and that of the wait-to-restore. -/
theorem decisionsApply : Obligations.DecisionsApply := by
  unfold Obligations.DecisionsApply
  intro s pgid g hcore hgroup htyp hdel htid hdecides hmirror others
  refine ⟨fun p hpend hdue hwait hfop hlsel => ?decision, ?holdOff, ?wtr⟩
  case decision =>
    obtain ⟨b, hunit, hgrains, hrest, hothers, h, hhere, hcfg, hsel, hcount⟩ :=
      decisionApply_stages hgroup htyp hdel hpend hdue hwait hfop hlsel hmirror
    have hreport := evals_protSwitch b pgid.toNat g.r p.sig p.req p.x s.sn
    have hbefore : b.regs = s.dev.regs ∧ b.hif = s.dev.hif ∧ b.twin = s.dev.twin :=
      ⟨hunit .regs (by simp), hunit .hif (by simp), hunit .twin (by simp)⟩
    have hafter : (decisionApply pgid.toNat s.sn s.dev).regs = (protSwitch b pgid.toNat g.r p.sig p.req p.x s.sn).regs ∧
        (decisionApply pgid.toNat s.sn s.dev).hif = (protSwitch b pgid.toNat g.r p.sig p.req p.x s.sn).hif :=
      ⟨hrest .regs (by simp), hrest .hif (by simp)⟩
    obtain ⟨hdecided, hkept, harray⟩ := hgrains.congr ((hrest .sw (by simp)).trans (hreport.parts .sw (by simp)))
    refine acts_of_core rfl hcore (decisionDue_eq hgroup htyp) (((hunit.trans hreport.parts).trans hrest).mono (by simp))
      ⟨?_, hothers, ⟨h, hhere, hcfg, hsel, ?_⟩, fun u hu => ⟨(hdecided u hu).free, (hdecided u hu).held⟩, hkept, harray, ?_, ?_⟩
    · exact (((onlyRegs_of_eq [] hbefore.1).trans hreport.regs).trans (onlyRegs_of_eq [] hafter.1)).mono (by simp)
    · simpa only [eq_comm] using hcount
    · intro hsame
      rw [protSwitch_same _ _ hsame.symm] at hafter
      exact ⟨hafter.2.trans hbefore.2.1, hafter.1.trans hbefore.1⟩
    · intro hnew
      obtain ⟨hcounted, hraised⟩ := protSwitch_counts b pgid.toNat (Ne.symm hnew) p.req p.x s.sn
      refine ⟨?_, hraised.of_same (congrArg Hif.evq hbefore.2.1) (congrArg Twin.role hbefore.2.2) (congrArg Hif.evq hafter.2)⟩
      rw [rd_congr hafter.1, hcounted, rd_congr hbefore.1]
  case holdOff =>
    intro ns i₀ i₁ t hinputs hdown htimer _ hhold hover hsource hauto hcmd hr hpend
    exact acts_of_evaluated hcore hmirror rfl (holdOffExpiry_of_over hgroup s.sn ns hinputs hdecides htimer hover) htyp hdel hdecides
      fun h heval => evaluated_holdOffOver hgroup s.sn ns htyp hhold hdown hsource hauto hcmd hr hpend heval
  case wtr =>
    intro ns w hwtr hover hdown hhold hcmd hrevert hlast hpend hr
    exact acts_of_evaluated hcore hmirror rfl (wtrExpiry_of_over hgroup s.sn ns hdecides hwtr hover) htyp hdel hdecides
      fun h heval => evaluated_wtrOver s.sn ns htyp hhold hdown hcmd hrevert hlast hpend hr heval

end Sys2Proof.Machine
end

