-- ==== Sys2Proof/Proofs/TriggerBus.lean ====
section
/-! PROOFS. The protection trigger bus (R274 to R285): the answer to a word, the cycle that carries it, and the changes of COND
by an accepted trigger, a lapsed refresh and a write. -/

namespace Sys2Proof.Machine

/-! ### The words of the registers -/

/-- The words of the trigger table lie behind those of the ports. -/
theorem tblWord_ne_of_lt {a : Nat} (h : a < 0x2001000) (i : Nat) : F.PTB_TBL_COND.addr i ≠ a := by
  simp only [Fld.addr, F.PTB_TBL_COND]
  omega

/-- The counting of an accepted word leaves the table. -/
theorem Evals.rd_tbl {ps : List Part} {a b : Dev} (h : Evals [F.PTB_PORT_ACC.addr 0] ps a b) (f : Fld) (i : Nat)
    (hf : f.addr i = F.PTB_TBL_COND.addr i) : Machine.rd b f i = Machine.rd a f i :=
  h.rd (mt List.mem_singleton.1 (hf ▸ tblWord_ne_of_lt (by decide) i))

/-- No write of an entry's word carries a condition (R281). -/
theorem getBits_cond_masked (v : W32) : getBits (v &&& 0x07FFFFFF) F.PTB_TBL_COND.lo F.PTB_TBL_COND.wd = 0 := by
  have hle : (v &&& 0x07FFFFFF).toNat ≤ 0x07FFFFFF := by
    rw [BitVec.toNat_and]
    exact Nat.and_le_right
  simp only [getBits, F.PTB_TBL_COND, Nat.shiftRight_eq_div_pow]
  omega

/-! ### The acknowledgement of a word (Table 11-3) -/

/-- The second case of Table 11-3: a parity error, a DROP that does not own the cycle, or a reserved CODE. -/
def BadWord (cyc : Nat) (w : BitVec 16) : Prop :=
  oddParity w = false ∨ (w.extractLsb' 1 6).toNat ≠ cyc ∨ 4 ≤ ptbCode w

/-- The third case of Table 11-3: the entry takes no trigger, or not this SD. -/
def RefusedWord (d : Dev) (cyc : Nat) (w : BitVec 16) : Prop :=
  rd d F.PTB_TBL_EN (ptbIdx cyc w) = 0 ∨ (ptbCode w = 2 ∧ rd d F.PTB_TBL_SD_EN (ptbIdx cyc w) = 0)

theorem ptbAck_congr {a b : Dev} (h : b.regs = a.regs) (cyc : Nat) (w : BitVec 16) : ptbAck b cyc w = ptbAck a cyc w := by
  have hrd (f : Fld) (i : Nat) : rdB b f i = rdB a f i := by simp only [rdB, rd_congr h]
  simp only [ptbAck, hrd]

section
variable {d : Dev} {cyc : Nat} {w : BitVec 16}

theorem ptbAck_of_idle (hcode : ptbCode w = 0) : ptbAck d cyc w = 0 := if_pos hcode

theorem ptbAck_of_bad (hcode : ptbCode w ≠ 0) (hbad : BadWord cyc w) : ptbAck d cyc w = 3 := by
  refine (if_neg hcode).trans (if_pos ?_)
  simpa [BadWord, or_assoc] using hbad

theorem ptbAck_of_good (hcode : ptbCode w ≠ 0) (hgood : ¬ BadWord cyc w) :
    ptbAck d cyc w = if !rdB d F.PTB_TBL_EN (ptbIdx cyc w) || (ptbCode w == 2 && !rdB d F.PTB_TBL_SD_EN (ptbIdx cyc w))
      then 2 else 1 := by
  refine (if_neg hcode).trans (if_neg ?_)
  simpa [BadWord, or_assoc] using hgood

/-- An accepted word names a condition that COND can hold. -/
theorem ptbCond_lt (hgood : ¬ BadWord cyc w) : ptbCond w < 4 := by
  have hcode : ¬ 4 ≤ ptbCode w := fun h => hgood (.inr (.inr h))
  unfold ptbCond
  omega

theorem ptbAck_of_refused (hcode : ptbCode w ≠ 0) (hgood : ¬ BadWord cyc w) (href : RefusedWord d cyc w) :
    ptbAck d cyc w = 2 := by
  refine (ptbAck_of_good hcode hgood).trans (if_pos ?_)
  simpa [RefusedWord, rdB] using href

theorem ptbAck_of_accepted (hcode : ptbCode w ≠ 0) (hgood : ¬ BadWord cyc w) (htaken : ¬ RefusedWord d cyc w) :
    ptbAck d cyc w = 1 := by
  refine (ptbAck_of_good hcode hgood).trans (if_neg ?_)
  simpa [RefusedWord, rdB] using htaken

end

/-! ### A change of COND (R283 to R286) -/

/-- COND of an entry that feeds no group becomes `c`, and a change of it is reported. -/
def condSet (sn : SN) (d : Dev) (i c : Nat) : Dev :=
  if rd d F.PTB_TBL_COND i = c then d else raise (wr d F.PTB_TBL_COND i c) { typ := 0x53, sn := sn, p0 := i, p1 := c }

section
variable {d : Dev} (sn : SN) {i c : Nat}

/-- An entry that holds the condition already changes nothing, whatever it feeds. -/
theorem ptbOne_of_held (ns : Nat) (h : rd d F.PTB_TBL_COND i = c) : ptbOne sn ns d i c = d := by
  simp [ptbOne, ptbAll, ptbSet, h]

theorem ptbOne_of_no_group (ns c : Nat) (hgroup : groupOf d (rd d F.PTB_TBL_PGID i) = none) :
    ptbOne sn ns d i c = condSet sn d i c := by
  by_cases hsame : rd d F.PTB_TBL_COND i = c
  · exact (ptbOne_of_held sn ns hsame).trans (if_pos hsame).symm
  · have hpgid : rd (wr d F.PTB_TBL_COND i c) F.PTB_TBL_PGID i = rd d F.PTB_TBL_PGID i := rd_wr_apart d (by decide)
    have hnone : groupOf (wr d F.PTB_TBL_COND i c) (rd d F.PTB_TBL_PGID i) = none := hgroup
    simp [ptbOne, ptbAll, ptbSet, condSet, hsame, hpgid, hnone]

end

section
variable (sn : SN) (d : Dev) (i c : Nat)

theorem evals_condSet : Evals [F.PTB_TBL_COND.addr i] [.regs, .hif] d (condSet sn d i c) :=
  .ite (fun _ => .refl _ _ d) fun _ => (Evals.refl _ _ d).wr.raise

theorem raised_condSet : Raised d (condSet sn d i c)
    (if rd d F.PTB_TBL_COND i = c then [] else [{ typ := 0x53, sn := sn, p0 := i, p1 := c }]) := by
  unfold condSet
  split
  · exact raised_nil d
  · exact (raised_raise (wr d F.PTB_TBL_COND i c) _).of_same rfl rfl rfl

omit c in
theorem rd_condSet_cond {c : Nat} (hc : c < 4) : rd (condSet sn d i c) F.PTB_TBL_COND i = c := by
  unfold condSet
  split
  case isTrue hsame => exact hsame
  case isFalse => exact rd_wr_fits d ⟨by decide, hc⟩

theorem rd_condSet_apart {f : Fld} (j : Nat) (hf : F.PTB_TBL_COND.apart f = true) : rd (condSet sn d i c) f j = rd d f j := by
  unfold condSet
  split
  · rfl
  · exact rd_wr_apart d hf

end

/-! ### The frame of the bus (R275, R289) -/

/-- The device in cycle `cyc`: a cycle 0, or one before the next one, begins a frame. -/
def frameBegun (cyc : Nat) (d : Dev) : Dev := if d.prot.cyc = 0 ∨ cyc < d.prot.cyc then ptbFrame d else d

/-- The pins of the cycle are driven, and the frame counter moves on. -/
def cycleEnd (cyc : Nat) (d : Dev) : Dev :=
  let d := ptbPins cyc true d
  { d with prot := { d.prot with cyc := (cyc + 1) % frameLen d } }

/-- The bus runs, and port 0 alone is enabled in cycle `cyc`. -/
structure PortZeroRuns (cyc : Nat) (d : Dev) : Prop where
  runs : d.prot.stopped = false
  inFrame : cyc < frameLen d
  acks : d.prot.lastAck.length = 2
  enabled : if d.prot.cyc = 0 ∨ cyc < d.prot.cyc then rd d F.PTB_CFG_P0_EN = 1 ∧ rd d F.PTB_CFG_P1_EN = 0
    else d.prot.on = [true, false]

/-- The pins of a cycle in which port 0 alone is enabled and answers `a`, and the counter's next cycle. -/
def Driven (cyc : Nat) (a : BitVec 2) (d e : Dev) : Prop :=
  Sent d e [.ptb 0 true (cyc == 0) a, .ptb 1 false false 0] ∧ e.prot.cyc = (cyc + 1) % frameLen d

theorem Driven.of_same {cyc : Nat} {a : BitVec 2} {d e f : Dev} (h : Driven cyc a d e) (hout : f.out = e.out)
    (hprot : f.prot = e.prot) : Driven cyc a d f := by
  simpa only [Driven, Sent, hout, hprot] using h

theorem evals_frameBegun (cyc : Nat) (d : Dev) : Evals [] [.prot] d (frameBegun cyc d) :=
  .ite (fun _ => .of_only (only_prot d _)) fun _ => .refl _ _ d

/-- The answer is that of the registers, whether a frame begins or not. -/
theorem ptbAck_frameBegun (cyc : Nat) (d : Dev) (w : BitVec 16) : ptbAck (frameBegun cyc d) cyc w = ptbAck d cyc w :=
  ptbAck_congr ((evals_frameBegun cyc d).parts .regs (by simp)) cyc w

theorem groups_frameBegun (cyc : Nat) (d : Dev) : (frameBegun cyc d).prot.groups = d.prot.groups := by
  unfold frameBegun
  split <;> rfl

theorem evals_ptbPins (cyc : Nat) (d : Dev) : Evals [] [.out] d (ptbPins cyc true d) :=
  .foldl (fun e _ _ => .ite (fun _ => (Evals.refl _ _ e).emit) fun _ => (Evals.refl _ _ e).emit) d

theorem evals_cycleEnd (cyc : Nat) (d : Dev) : Evals [] [.out, .prot] d (cycleEnd cyc d) :=
  ((evals_ptbPins cyc d).mono).next (.of_only (only_prot _ _))

theorem Evals.frameLen {as : List Nat} {ps : List Part} {a b : Dev} (h : Evals as ps a b)
    (has : F.PTB_CFG_FRAME_LEN.addr 0 ∉ as := by decide) : Machine.frameLen b = Machine.frameLen a := by
  simp only [Machine.frameLen, h.rd has]

theorem groups_cycleEnd (cyc : Nat) (d : Dev) : (cycleEnd cyc d).prot.groups = d.prot.groups := by
  simp only [cycleEnd, ptbPins, List.foldl_cons, List.foldl_nil]
  split <;> split <;> rfl

section
variable {cyc : Nat} {d : Dev} (h : PortZeroRuns cyc d)
include h

theorem PortZeroRuns.on : (frameBegun cyc d).prot.on = [true, false] := by
  have henabled := h.enabled
  unfold frameBegun
  split at henabled
  case isTrue hnew =>
    obtain ⟨hp0, hp1⟩ := henabled
    simp [if_pos hnew, ptbFrame, rdB, hp0, hp1]
  case isFalse hsame => rwa [if_neg hsame]

theorem PortZeroRuns.lastAck : (frameBegun cyc d).prot.lastAck.length = 2 := by
  unfold frameBegun
  split
  · simp [ptbFrame, h.acks]
  · exact h.acks

end

/-! ### The answer of port 0 (R278, R546) -/

/-- Port 0 drives the acknowledgement `a`. -/
def ackDriven (a : BitVec 2) (d : Dev) : Dev := { d with prot := { d.prot with lastAck := lset d.prot.lastAck 0 a } }

/-- PTB_ERR of port 0, once in a window of 1 ms. -/
def errNoted (sn : SN) (cyc ms : Nat) (d : Dev) : Dev :=
  if d.prot.errWin[0]? = some (some ms) then d
  else raise { d with prot := { d.prot with errWin := lset d.prot.errWin 0 (some ms) } } { typ := 0x54, sn := sn, p0 := 0, p1 := cyc }

theorem evals_ackDriven (a : BitVec 2) (d : Dev) : Evals [] [.prot] d (ackDriven a d) := .of_only (only_prot d _)

theorem evals_errNoted (sn : SN) (cyc ms : Nat) (d : Dev) : Evals [] [.prot, .hif] d (errNoted sn cyc ms d) := by
  refine .ite (fun _ => .refl _ _ d) fun _ => Evals.raise ?_
  exact (Evals.of_only (only_prot d _)).mono

section
variable (sn : SN) {cyc : Nat} (ms : Nat) {w : BitVec 16} {d : Dev} (hon : d.prot.on = [true, false])
include hon

theorem ptbOn_zero : ptbOn d 0 = true := by simp [ptbOn, hon]
theorem ptbOn_one : ptbOn d 1 = false := by simp [ptbOn, hon]

theorem ptbPort_one : ptbPort sn cyc ms 1 w d = d := by simp [ptbPort, ptbOn_one hon]

theorem ptbPort_of_idle (hack : ptbAck d cyc w = 0) : ptbPort sn cyc ms 0 w d = ackDriven 0 d := by
  simp [ptbPort, ptbOn_zero hon, hack, ackDriven]

theorem ptbPort_of_accepted (hack : ptbAck d cyc w = 1) :
    ptbPort sn cyc ms 0 w d = perf (sat (ackDriven 1 d) F.PTB_PORT_ACC 0) 6 0 := by
  simp [ptbPort, ptbOn_zero hon, hack, ackDriven]

theorem ptbPort_of_refused (hack : ptbAck d cyc w = 2) : ptbPort sn cyc ms 0 w d = sat (ackDriven 2 d) F.PTB_PORT_REF 0 := by
  simp [ptbPort, ptbOn_zero hon, hack, ackDriven]

theorem ptbPort_of_error (hack : ptbAck d cyc w = 3) :
    ptbPort sn cyc ms 0 w d = errNoted sn cyc ms (sat (ackDriven 3 d) F.PTB_PORT_ERR 0) := by
  simp only [ptbPort, ptbOn_zero hon, hack]
  rfl

/-- With port 1 disabled, an accepted word of port 0 is the one change of the cycle. -/
theorem ptbChanges_of_port_zero (cyc : Nat) (w w₁ : BitVec 16) : ptbChanges d cyc w w₁ =
    if ptbAck d cyc w = 1 then
      [(ptbIdx cyc w, ptbCond w, if rd d F.PTB_TBL_COND (ptbIdx cyc w) = ptbCond w then 0 else 1)] else [] := by
  by_cases hack : ptbAck d cyc w = 1 <;> simp [ptbChanges, ptbOn_zero hon, ptbOn_one hon, hack]

end

/-- `e` is `d` once port 0 has answered a word with `a`: registers at `as` and the parts `ps` may differ. -/
structure PortZeroAnswers (as : List Nat) (ps : List Part) (a : BitVec 2) (d e : Dev) : Prop where
  evals : Evals as ps d e
  on : e.prot.on = [true, false]
  ack : e.prot.lastAck[0]? = some a
  groups : e.prot.groups = d.prot.groups

/-- Port 0 answers in cycle `cyc`. -/
theorem PortZeroRuns.answers {cyc : Nat} {d : Dev} (h : PortZeroRuns cyc d) (a : BitVec 2) :
    PortZeroAnswers [] [.prot] a d (ackDriven a (frameBegun cyc d)) where
  evals := (evals_frameBegun cyc d).next (evals_ackDriven a _)
  on := h.on
  ack := by simp [ackDriven, lset, lmod, h.lastAck]
  groups := groups_frameBegun cyc d

namespace PortZeroAnswers

variable {as : List Nat} {ps : List Part} {a : BitVec 2} {d e f : Dev}

/-- What follows the answer leaves the ports. -/
theorem next {bs : List Nat} {qs : List Part} (h : PortZeroAnswers as ps a d e) (k : Evals bs qs e f)
    (hports : f.prot.on = e.prot.on ∧ f.prot.lastAck = e.prot.lastAck ∧ f.prot.groups = e.prot.groups) :
    PortZeroAnswers (bs ++ as) (qs ++ ps) a d f where
  evals := (h.evals.mono).next k
  on := hports.1.trans h.on
  ack := (congrArg (·[0]?) hports.2.1).trans h.ack
  groups := hports.2.2.trans h.groups

/-- The answer is counted. -/
theorem counted (h : PortZeroAnswers as ps a d e) (c : Fld) :
    PortZeroAnswers (c.addr 0 :: as) (.regs :: ps) a d (sat e c 0) :=
  h.next (evals_sat e c 0 1) ⟨rfl, rfl, rfl⟩

/-- The cycle that carries the answer. -/
theorem driven (h : PortZeroAnswers as ps a d e) (cyc : Nat) (hout : Part.out ∉ ps := by simp)
    (has : F.PTB_CFG_FRAME_LEN.addr 0 ∉ as := by decide) : Driven cyc a d (cycleEnd cyc e) := by
  have hpins : ptbPins cyc true e = emit (emit e (.ptb 0 true (cyc == 0) a)) (.ptb 1 false false 0) := by
    simp [ptbPins, ptbOn, h.on, h.ack]
  have hsame : e.out = d.out := h.evals.parts .out hout
  have hlen : frameLen (ptbPins cyc true e) = frameLen d := ((evals_ptbPins cyc e).frameLen).trans (h.evals.frameLen has)
  exact ⟨by simp [Sent, cycleEnd, hpins, hsame], congrArg ((cyc + 1) % ·) hlen⟩

end PortZeroAnswers

theorem rd_counted (cyc : Nat) (a : BitVec 2) (d : Dev) {f : Fld} (hf : f.lo + f.wd ≤ 32) :
    rd (sat (ackDriven a (frameBegun cyc d)) f 0) f = satAdd f.wd (rd d f) 1 := by
  rw [rd_sat_same _ hf]
  exact congrArg (satAdd f.wd · 1) (((evals_frameBegun cyc d).next (evals_ackDriven a _)).rd (by simp))

theorem PortZeroAnswers.reported {as : List Nat} {ps : List Part} {a : BitVec 2} {d e : Dev} (h : PortZeroAnswers as ps a d e)
    (sn : SN) (cyc ms : Nat) : PortZeroAnswers as (.prot :: .hif :: ps) a d (errNoted sn cyc ms e) := by
  refine h.next (evals_errNoted sn cyc ms e) ?_
  unfold errNoted
  split <;> exact ⟨rfl, rfl, rfl⟩

/-! ### A cycle of the bus (R275 to R279) -/

section
variable (sn : SN) {cyc : Nat} (ms ns : Nat) {w : BitVec 16} (w₁ : BitVec 16) {d e : Dev} (hruns : PortZeroRuns cyc d)
include hruns

theorem PortZeroRuns.ptbTrigger_eq (hport : ptbPort sn cyc ms 0 w (frameBegun cyc d) = e) (hon : e.prot.on = [true, false]) :
    ptbTrigger cyc w w₁ ms ns sn d = ptbAll sn ns (ptbChanges (frameBegun cyc d) cyc w w₁) (cycleEnd cyc e) := by
  have hgo : ¬ (d.prot.stopped = true ∨ frameLen d ≤ cyc) := by simp [hruns.runs, hruns.inFrame]
  refine (if_neg hgo).trans ?_
  show ptbAll sn ns (ptbChanges (frameBegun cyc d) cyc w w₁)
    (cycleEnd cyc (ptbPort sn cyc ms 1 w₁ (ptbPort sn cyc ms 0 w (frameBegun cyc d)))) = _
  rw [hport, ptbPort_one sn ms hon]

/-- A word that is not accepted changes no COND. -/
theorem PortZeroRuns.ptbTrigger_of_not_accepted (hack : ptbAck (frameBegun cyc d) cyc w ≠ 1)
    (hport : ptbPort sn cyc ms 0 w (frameBegun cyc d) = e) (hon : e.prot.on = [true, false]) :
    ptbTrigger cyc w w₁ ms ns sn d = cycleEnd cyc e := by
  rw [hruns.ptbTrigger_eq sn ms ns w₁ hport hon, ptbChanges_of_port_zero hruns.on, if_neg hack]
  rfl

/-- An accepted word of an entry that feeds no group: the cycle, then the change of COND that the word brings. -/
theorem PortZeroRuns.ptbTrigger_of_accepted (hack : ptbAck d cyc w = 1)
    (hgroup : groupOf d (rd d F.PTB_TBL_PGID (ptbIdx cyc w)) = none) :
    ∃ b, ptbTrigger cyc w w₁ ms ns sn d = condSet sn b (ptbIdx cyc w) (ptbCond w) ∧
      Evals [F.PTB_PORT_ACC.addr 0] [.regs, .out, .prot, .pm] d b ∧ Driven cyc 1 d b ∧
      rd b F.PTB_PORT_ACC = satAdd 32 (rd d F.PTB_PORT_ACC) 1 := by
  have hframe : ptbAck (frameBegun cyc d) cyc w = 1 := (ptbAck_frameBegun cyc d w).trans hack
  have hans := ((hruns.answers 1).counted F.PTB_PORT_ACC).next (evals_perf _ 6 0 1) (by simp)
  have hend := evals_cycleEnd cyc (perf (sat (ackDriven 1 (frameBegun cyc d)) F.PTB_PORT_ACC 0) 6 0)
  have hcycle := (hans.evals.mono (as := [F.PTB_PORT_ACC.addr 0]) (ps := [.regs, .out, .prot, .pm])).next hend
  have hcond := (hcycle.rd_tbl F.PTB_TBL_COND (ptbIdx cyc w) rfl).trans
    ((evals_frameBegun cyc d).rd (f := F.PTB_TBL_COND) (by simp)).symm
  refine ⟨_, ?_, hcycle, hans.driven cyc, ?_⟩
  · rw [hruns.ptbTrigger_eq sn ms ns w₁ (ptbPort_of_accepted sn ms hruns.on hframe) hans.on, ptbChanges_of_port_zero hruns.on,
      if_pos hframe, ← hcond]
    refine ptbOne_of_no_group sn ns _ ?_
    rw [hcycle.rd_tbl F.PTB_TBL_PGID _ rfl, ← hgroup, groupOf, groups_cycleEnd, hans.groups]
    rfl
  · rw [hend.rd (by simp), rd_perf]
    exact rd_counted cyc 1 d (by decide)

end

/-! ### What the host sees -/

section
variable {s : State} (hcore : s.dev.pwr.core = true) {cyc : Fin 64} {w : BitVec 16} (w₁ : BitVec 16) (ms ns : Nat)
  (hruns : PortZeroRuns cyc.val s.dev)
include hcore hruns

theorem acts_of_idle (hcode : ptbCode w = 0) :
    Acts [.out, .prot] (.ptbTrigger cyc w w₁ ms ns) s fun t => Driven cyc.val 0 s.dev t.dev := by
  have hack : ptbAck (frameBegun cyc s.dev) cyc w = 0 := ptbAck_of_idle hcode
  have hans := hruns.answers 0
  exact acts_of_core rfl hcore (hruns.ptbTrigger_of_not_accepted s.sn ms ns w₁ (by simp [hack])
    (ptbPort_of_idle s.sn ms hruns.on hack) hans.on) ((hans.evals.mono (as := [])).next (evals_cycleEnd _ _)).parts (hans.driven cyc)

theorem actsR_of_error (hcode : ptbCode w ≠ 0) (hbad : BadWord cyc.val w) :
    ActsR [F.PTB_PORT_ERR.addr 0] [.out, .prot, .hif] (.ptbTrigger cyc w w₁ ms ns) s fun t =>
      Driven cyc.val 3 s.dev t.dev ∧ rd t.dev F.PTB_PORT_ERR = satAdd 32 (rd s.dev F.PTB_PORT_ERR) 1 := by
  have hack : ptbAck (frameBegun cyc s.dev) cyc w = 3 := ptbAck_of_bad hcode hbad
  have hans := ((hruns.answers 3).counted F.PTB_PORT_ERR).reported s.sn cyc ms
  have hcycle := evals_cycleEnd cyc (errNoted s.sn cyc ms (sat (ackDriven 3 (frameBegun cyc s.dev)) F.PTB_PORT_ERR 0))
  refine actsR_of_core rfl hcore (hruns.ptbTrigger_of_not_accepted s.sn ms ns w₁ (by simp [hack])
    (ptbPort_of_error s.sn ms hruns.on hack) hans.on) ((hans.evals.mono).next hcycle) ⟨hans.driven cyc, ?_⟩
  exact (hcycle.rd (by simp)).trans (((evals_errNoted s.sn cyc ms _).rd (by simp)).trans (rd_counted cyc 3 s.dev (by decide)))

theorem actsR_of_refused (hcode : ptbCode w ≠ 0) (hgood : ¬ BadWord cyc.val w) (href : RefusedWord s.dev cyc.val w) :
    ActsR [F.PTB_PORT_REF.addr 0] [.out, .prot] (.ptbTrigger cyc w w₁ ms ns) s fun t =>
      Driven cyc.val 2 s.dev t.dev ∧ rd t.dev F.PTB_PORT_REF = satAdd 32 (rd s.dev F.PTB_PORT_REF) 1 := by
  have hack : ptbAck (frameBegun cyc s.dev) cyc w = 2 := (ptbAck_frameBegun _ _ w).trans (ptbAck_of_refused hcode hgood href)
  have hans := (hruns.answers 2).counted F.PTB_PORT_REF
  have hcycle := evals_cycleEnd cyc (sat (ackDriven 2 (frameBegun cyc s.dev)) F.PTB_PORT_REF 0)
  refine actsR_of_core rfl hcore (hruns.ptbTrigger_of_not_accepted s.sn ms ns w₁ (by simp [hack])
    (ptbPort_of_refused s.sn ms hruns.on hack) hans.on) ((hans.evals.mono).next hcycle) ⟨hans.driven cyc, ?_⟩
  exact (hcycle.rd (by simp)).trans (rd_counted cyc 2 s.dev (by decide))

theorem actsR_of_accepted (hcode : ptbCode w ≠ 0) (hgood : ¬ BadWord cyc.val w) (htaken : ¬ RefusedWord s.dev cyc.val w)
    (hgroup : groupOf s.dev (rd s.dev F.PTB_TBL_PGID (ptbIdx cyc w)) = none) :
    ActsR [F.PTB_PORT_ACC.addr 0, F.PTB_TBL_COND.addr (ptbIdx cyc w)] [.out, .prot, .hif, .pm] (.ptbTrigger cyc w w₁ ms ns) s
      fun t => Driven cyc.val 1 s.dev t.dev ∧ rd t.dev F.PTB_PORT_ACC = satAdd 32 (rd s.dev F.PTB_PORT_ACC) 1 ∧
        rd t.dev F.PTB_TBL_COND (ptbIdx cyc w) = ptbCond w ∧
        Raised s.dev t.dev (if rd s.dev F.PTB_TBL_COND (ptbIdx cyc w) = ptbCond w then []
          else [{ typ := 0x53, sn := s.sn, p0 := ptbIdx cyc w, p1 := ptbCond w }]) := by
  obtain ⟨b, heq, hcycle, hdriven, hcount⟩ :=
    hruns.ptbTrigger_of_accepted s.sn ms ns w₁ (ptbAck_of_accepted hcode hgood htaken) hgroup
  have hset := evals_condSet s.sn b (ptbIdx cyc w) (ptbCond w)
  have hraised := hcycle.raised_nil.trans (raised_condSet s.sn b (ptbIdx cyc w) (ptbCond w)) hcycle.role
  rw [hcycle.rd_tbl F.PTB_TBL_COND _ rfl] at hraised
  exact actsR_of_core rfl hcore heq ((hcycle.mono).next hset)
    ⟨hdriven.of_same (hset.parts .out (by simp)) (hset.parts .prot (by simp)),
      (hset.rd (mt List.mem_singleton.1 (tblWord_ne_of_lt (by decide) _).symm)).trans hcount,
      rd_condSet_cond _ _ _ (ptbCond_lt hgood), hraised⟩

end

/-- The refresh of an entry that feeds no group lapses (R283, R286). -/
theorem actsR_of_stale {s : State} (hcore : s.dev.pwr.core = true) {i : Fin 4096} (ns : Nat)
    (hgroup : groupOf s.dev (rd s.dev F.PTB_TBL_PGID i) = none) (hcond : rd s.dev F.PTB_TBL_COND i ≠ 0)
    (hrefresh : rd s.dev F.PTB_TBL_REFRESH i ≠ 0) : ActsR [F.PTB_TBL_COND.addr i] [.hif] (.ptbStale i ns) s fun t =>
      rd t.dev F.PTB_TBL_COND i = 0 ∧ rd t.dev F.PTB_TBL_PGID i = rd s.dev F.PTB_TBL_PGID i ∧
      rd t.dev F.PTB_TBL_EN i = rd s.dev F.PTB_TBL_EN i ∧
      Raised s.dev t.dev [{ typ := 0x52, sn := s.sn, p0 := i }, { typ := 0x53, sn := s.sn, p0 := i, p1 := 0 }] := by
  have hlapses : ptbStale i ns s.sn s.dev = condSet s.sn (raise s.dev { typ := 0x52, sn := s.sn, p0 := i }) i 0 :=
    (if_neg (by simp [hcond, hrefresh])).trans (ptbOne_of_no_group s.sn ns 0 hgroup)
  have hraised := (raised_raise s.dev { typ := 0x52, sn := s.sn, p0 := i }).trans (raised_condSet s.sn (raise s.dev _) i 0) rfl
  rw [rd_raise, if_neg hcond] at hraised
  refine actsR_of_core rfl hcore hlapses (((evals_raise s.dev _).mono).next (evals_condSet s.sn _ i 0)) ⟨?_, ?_, ?_, hraised⟩
  · exact rd_condSet_cond s.sn _ i (by decide)
  · exact rd_condSet_apart s.sn _ i 0 i (by decide)
  · exact rd_condSet_apart s.sn _ i 0 i (by decide)

/-! ### A write of an entry (R281, R282) -/

section
variable (i : Nat) (v : W32) (ns : Nat) (sn : SN) (d : Dev)

theorem rdWord_ptbTblWrite : rdWord (ptbTblWrite i v ns false sn d) (F.PTB_TBL_PGID.addr i) = v &&& 0x07FFFFFF :=
  rdWord_wrWord_same _ _ _

/-- A write sets COND to none, whatever the entry held and fed. -/
theorem rd_ptbTblWrite_cond : rd (ptbTblWrite i v ns false sn d) F.PTB_TBL_COND i = 0 :=
  (congrArg (getBits · _ _) (rdWord_ptbTblWrite i v ns sn d)).trans (getBits_cond_masked v)

variable {d} in
theorem ptbTblWrite_of_no_cond (hcond : rd d F.PTB_TBL_COND i = 0) :
    ptbTblWrite i v ns false sn d = wrWord d (F.PTB_TBL_PGID.addr i) (v &&& 0x07FFFFFF) := by
  simp [ptbTblWrite, ptbOne_of_held sn ns hcond]

end

section
variable {s : State} (hcore : s.dev.pwr.core = true) (i : Fin 4096) (v : W32) (ns : Nat)
include hcore

theorem exec_ptbTblWrite_of_lock (hlock : s.lock = true) : exec (.ptbTblWrite i v ns) s = .next s :=
  exec_next_of_same (g := ptbTblWrite i v ns s.lock s.sn) rfl hcore (if_pos hlock)

/-- A write to an entry without a condition reaches no group. -/
theorem actsR_of_ptbTblWrite (hlock : s.lock = false) (hcond : rd s.dev F.PTB_TBL_COND i = 0) :
    ActsR [F.PTB_TBL_COND.addr i] [] (.ptbTblWrite i v ns) s fun t =>
      rdWord t.dev (F.PTB_TBL_PGID.addr i) = v &&& 0x07FFFFFF ∧ rd t.dev F.PTB_TBL_COND i = 0 := by
  have hexec : exec (.ptbTblWrite i v ns) s = core s (ptbTblWrite i v ns false s.sn) := by rw [← hlock]; rfl
  refine actsR_of_core hexec hcore rfl ?_ ⟨rdWord_ptbTblWrite i v ns s.sn s.dev, rd_ptbTblWrite_cond i v ns s.sn s.dev⟩
  rw [ptbTblWrite_of_no_cond i v ns s.sn hcond]
  exact evals_wrWord s.dev _ _

end

/-- Settles O23: the four answers of Table 11-3 to a word of port 0, the lapse of a refresh, and the write of an entry. -/
theorem triggerBus : Obligations.TriggerBus := by
  unfold Obligations.TriggerBus
  intro s hcore
  refine ⟨?trigger, fun i ns hgroup hcond hrefresh => ?stale, fun i v ns => ?write⟩
  case trigger =>
    intro cyc w ms ns hstopped hframe hacks henabled pins code i bad ref c
    have hruns : PortZeroRuns cyc.val s.dev := ⟨hstopped, hframe, hacks, henabled⟩
    exact ⟨acts_of_idle hcore 0 ms ns hruns, actsR_of_error hcore 0 ms ns hruns, actsR_of_refused hcore 0 ms ns hruns,
      actsR_of_accepted hcore 0 ms ns hruns⟩
  case stale => exact actsR_of_stale hcore ns hgroup hcond hrefresh
  case write => exact ⟨exec_ptbTblWrite_of_lock hcore i v ns, actsR_of_ptbTblWrite hcore i v ns⟩

end Sys2Proof.Machine
end

