-- ==== Sys2Proof/Proofs/StepLaws.lean ====
section
/-! PROOFS. What every command keeps (chapter 95): each command said once, whether it reaches the device alone, the whole
state of a running core, or the always-on island; from that, that no command touches the queue behind it, that only a BAR2
access beyond the window stops, and that the scratchpad stays canonical within its window (R378, R380). -/

namespace Sys2Proof.Machine

/-! ### What a command keeps -/

/-- `t` comes of `s` with the queue as it was, and with a canonical scratchpad where there was one. -/
structure KeptFrom (s t : State) : Prop where
  pending : t.pending = s.pending
  sp : s.sp.ok → t.sp.ok

namespace KeptFrom

variable {s t u : State}

theorem refl (s : State) : KeptFrom s s := ⟨rfl, id⟩

theorem trans (h : KeptFrom s t) (k : KeptFrom t u) : KeptFrom s u := ⟨k.pending.trans h.pending, k.sp ∘ h.sp⟩

/-- A state with the queue and the scratchpad of `s`. -/
theorem of_same (hp : t.pending = s.pending) (hsp : t.sp = s.sp) : KeptFrom s t := ⟨hp, fun h => by rwa [hsp]⟩

/-- Whatever happens to the device. -/
theorem dev (s : State) (d : Dev) : KeptFrom s { s with dev := d } := of_same rfl rfl

theorem ite {p : Prop} [Decidable p] (h : p → KeptFrom s t) (k : ¬ p → KeptFrom s u) : KeptFrom s (if p then t else u) := by
  split
  case isTrue hp => exact h hp
  case isFalse hp => exact k hp

end KeptFrom

/-! ### The power sequences (R479 to R487) -/

theorem keptFrom_holdCore (s : State) : KeptFrom s (holdCore s) := ⟨rfl, fun _ => reset_scratch_ok⟩

theorem keptFrom_startUp (s : State) : KeptFrom s (startUp s) := (keptFrom_holdCore s).trans (.of_same rfl rfl)

theorem keptFrom_wakeUp (s : State) : KeptFrom s (wakeUp s) := .ite (fun _ => keptFrom_startUp s) fun _ => .dev s _

theorem keptFrom_wake (b : Nat) (s : State) : KeptFrom s (wake b s) :=
  .ite (fun _ => .refl s) fun _ => .ite (fun _ => (KeptFrom.dev s _).trans (keptFrom_wakeUp _)) fun _ =>
    .ite (fun _ => .dev s _) fun _ => .refl s

theorem keptFrom_standbyReached (s : State) : KeptFrom s (standbyReached s) :=
  .ite (fun _ => .refl s) fun _ => .ite (fun _ => (KeptFrom.dev s _).trans (keptFrom_wakeUp _)) fun _ => .dev s _

theorem keptFrom_offMinEnd (s : State) : KeptFrom s (offMinEnd s) :=
  .ite (fun _ => .refl s) fun _ => .ite (fun _ => (KeptFrom.dev s _).trans (keptFrom_startUp _)) fun _ => .dev s _

theorem keptFrom_railFault (r : Nat) (soon : Bool) (s : State) : KeptFrom s (railFault r soon s) :=
  .ite (fun _ => .refl s) fun _ => .ite (fun _ => .dev s _) fun _ =>
    ((KeptFrom.dev s _).trans (keptFrom_holdCore _)).trans (.dev _ _)

theorem keptFrom_entryReset (s : State) : KeptFrom s (entryReset s) :=
  .ite (fun _ => .refl s) fun _ => .ite (fun _ => .dev s _) fun _ => (keptFrom_holdCore s).trans (.dev _ _)

theorem keptFrom_avsDone (s : State) : KeptFrom s (avsDone s) :=
  .ite (fun _ => (KeptFrom.dev s _).trans (keptFrom_entryReset _)) fun _ => .dev s _

/-! ### The scratchpad (R378 to R381, R386, R393, R501) -/

/-- Accesses of port C and ECC reports leave the queue. -/
theorem portC_pending (s : State) (x : PortC) : (portC s x).pending = s.pending := by
  unfold portC spStore spAtomic
  split
  · split <;> rfl
  · split
    · rfl
    · split <;> rfl
  all_goals split <;> rfl

theorem portCs_pending (l : List PortC) (s : State) : (l.foldl portC s).pending = s.pending := foldl_same portC_pending l s

theorem spStore_pending (port : Nat) (bs : List (Option (BitVec 8))) (s : State) (w : Nat) :
    (spStore port bs s w).pending = s.pending := by
  unfold spStore
  split
  · rfl
  · split <;> rfl

theorem spAtomic_pending (port : Nat) (f : BitVec 64 → BitVec 64) (s : State) (w : Nat) :
    (spAtomic port f s w).pending = s.pending := by
  unfold spAtomic
  split <;> rfl

theorem spWriteWord_pending (off : Nat) (data : List (Option (BitVec 8))) (pc : List PortC) (s : State) (w : Nat) :
    (spWriteWord off data pc s w).pending = s.pending := by
  unfold spWriteWord
  extract_lets xs t
  have ht : t.pending = s.pending := (spStore_pending _ _ _ _).trans (portCs_pending _ s)
  split
  · rfl
  · split <;> exact ht

theorem keptFrom_bar2Write {off : Nat} {data : List (Option (BitVec 8))} (pc : List PortC) (ecc : List (Nat × Bool)) (s : State)
    (hb : off + data.length ≤ 2 ^ 22) : KeptFrom s (bar2Write off data pc ecc s) :=
  ⟨foldl_same (spWriteWord_pending off data pc) _ _, fun h => bar2Write_ok h hb⟩

theorem keptFrom_bar2Read {off n : Nat} (pc : List PortC) (ecc : List (Nat × Bool)) (s : State) (hb : off + n ≤ 2 ^ 22) :
    KeptFrom s (bar2Read off n pc ecc s) :=
  ⟨portCs_pending _ _, fun h => bar2Read_ok h hb⟩

theorem keptFrom_bar2Atomic {off : Nat} (f : BitVec 64 → BitVec 64) (pc : List PortC) (ecc : List (Nat × Bool)) (s : State)
    (hb : off < 2 ^ 22) : KeptFrom s (bar2Atomic off f pc ecc s) := by
  refine ⟨?_, fun h => bar2Atomic_ok h hb⟩
  unfold bar2Atomic
  split
  · rfl
  · split
    · rfl
    · exact (spAtomic_pending _ _ _ _).trans (portCs_pending _ _)

theorem keptFrom_memCleared (s : State) : KeptFrom s (memCleared s) :=
  .ite (fun _ => .refl s) fun _ => ⟨rfl, fun _ => reset_scratch_ok⟩

theorem keptFrom_fwReady (s : State) : KeptFrom s (fwReady s) :=
  .ite (fun _ => .refl s) fun _ => ⟨rfl, releaseSems_ok _⟩

/-- An image that verifies has the length that its descriptor names, at most 1 MiB (Table 15-6). -/
theorem verifyImg_length {root : Nat → Option (List (BitVec 8))} {floor len : Nat} {img : List (BitVec 8)}
    (h : verifyImg root floor len img ≠ 1) : img.length = len := by
  unfold verifyImg at h
  extract_lets pub ok1 ok2 ok3 at h
  by_contra hne
  have hok : ok1 = false := by simp [ok1, hne]
  simp [hok] at h

theorem keptFrom_serveStage (r act : Nat) (img : List (BitVec 8)) (s : State) : KeptFrom s (serveStage r act img s) := by
  unfold serveStage
  extract_lets d
  split
  · exact .refl s
  · next e _ =>
    extract_lets len v
    split
    · exact .dev s _
    · next hprob =>
      have hnil := eq_nil_of_firstProb_eq_none hprob
      simp only [List.append_eq_nil_iff] at hnil
      obtain ⟨⟨⟨-, hlen⟩, hver⟩, -⟩ := hnil
      have hlen : len ≤ 0x100000 := by simpa [probIf] using hlen
      have hver : v ≠ 1 := by simpa [probIf] using hver
      have hstaged : KeptFrom s { s with sp := stageImg img s.sp } :=
        ⟨rfl, fun h => stageImg_ok h (verifyImg_length hver ▸ hlen)⟩
      exact .ite (fun _ => hstaged.trans (.dev _ _)) fun _ => .ite (fun _ => hstaged.trans (.dev _ _)) fun _ =>
        hstaged.trans (.dev _ _)

theorem keptFrom_pairAuth (resp : BitVec 128) (mateActive : Bool) (x : SN) (s : State) :
    KeptFrom s (pairAuth resp mateActive x s) := by
  unfold pairAuth
  extract_lets t d
  have ht : KeptFrom s t := .dev s _
  split
  · exact ht
  · refine .ite (fun _ => ht) fun _ => ?_
    split
    · exact .ite (fun _ => .of_same rfl rfl) fun _ => .of_same rfl rfl
    · exact .of_same rfl rfl

/-! ### Every command (Table 21-3) -/

/-- The command goes on, from `s`, with what every command keeps. -/
def GoesOn (s : State) (r : Res) : Prop := ∃ t, r = .next t ∧ KeptFrom s t

theorem GoesOn.next {s t : State} (h : KeptFrom s t) : GoesOn s (.next t) := ⟨t, rfl, h⟩

theorem goesOn_onDev (s : State) (f : Dev → Dev) : GoesOn s (onDev s f) := .next (.dev s _)

theorem goesOn_core (s : State) (f : Dev → Dev) : GoesOn s (core s f) := goesOn_onDev s _

/-- A record of the twin link. -/
theorem goesOn_fromMate (typ : Nat) (s : State) (f : Dev → Dev) : GoesOn s (fromMate typ s f) := goesOn_core s _

theorem goesOn_coreSt {s : State} {f : State → State} (h : KeptFrom s (f s)) : GoesOn s (coreSt s f) :=
  .next (.ite (fun _ => h) fun _ => .refl s)

/-- The command is a BAR2 access that reaches beyond the window (R378, Table 13-1). -/
def beyondWindow : Instr → Prop
  | .bar2Read off n _ _ => 2 ^ 22 < off.toNat + n
  | .bar2Write off data _ => 2 ^ 22 < off.toNat + data.length
  | _ => False

theorem goesOn_sweepTick (t : TickIn) (s : State) : GoesOn s (execSweepTick t s) := by
  unfold execSweepTick
  split
  · exact .next (.refl s)
  · split <;> exact .next (.of_same rfl rfl)

/-- Every command but an access beyond the window goes on: most act on the device of a running core, and each other one is
named. -/
theorem exec_goesOn (c : Instr) (s : State) (h : ¬ beyondWindow c) : GoesOn s (exec c s) := by
  cases c
  case sweepTick t => exact goesOn_sweepTick t s
  case bar2Read off n pc ecc =>
    have hexec : exec (.bar2Read off n pc ecc) s = coreSt s (bar2Read off.toNat n pc ecc) := if_neg h
    exact hexec ▸ goesOn_coreSt (keptFrom_bar2Read pc ecc s (not_lt.1 h))
  case bar2Write off data b =>
    have hexec : exec (.bar2Write off data b) s = coreSt s (bar2Write off.toNat data b.pc b.ecc) := if_neg h
    exact hexec ▸ goesOn_coreSt (keptFrom_bar2Write b.pc b.ecc s (not_lt.1 h))
  case fetchadd off val b => exact goesOn_coreSt (keptFrom_bar2Atomic _ _ _ s off.isLt)
  case swap off val b => exact goesOn_coreSt (keptFrom_bar2Atomic _ _ _ s off.isLt)
  case memoryCleared => exact goesOn_coreSt (keptFrom_memCleared s)
  case fwReady => exact goesOn_coreSt (keptFrom_fwReady s)
  case fwStage r img =>
    unfold exec execFwStage
    exact goesOn_coreSt (.ite (fun _ => .dev s _) fun _ => keptFrom_serveStage r 0 img s)
  case fwStageActivate r img => exact goesOn_coreSt (keptFrom_serveStage r 1 img s)
  case pairAuth resp mateActive x => exact goesOn_coreSt (keptFrom_pairAuth resp mateActive x s)
  case glbSetupLock => exact goesOn_coreSt (f := fun s => { s with lock := true }) (.of_same rfl rfl)
  case avsStepDone => exact goesOn_coreSt (keptFrom_avsDone s)
  case vaoApplied => exact .next (.ite (fun _ => .dev s _) fun _ => .refl s)
  case powerOnResetEnd => exact .next (.ite (fun _ => keptFrom_startUp s) fun _ => .refl s)
  case railFault r soon => exact .next (keptFrom_railFault r soon s)
  case entryCoreReset => exact .next (keptFrom_entryReset s)
  case standbyReached => exact .next (keptFrom_standbyReached s)
  case offMinExpiry => exact .next (keptFrom_offMinEnd s)
  case wakeN => exact .next (.ite (fun _ => keptFrom_wake 0 s) fun _ => .refl s)
  case smbusWake => exact .next (.ite (fun _ => keptFrom_wake 1 s) fun _ => .refl s)
  case twAliveWake => exact .next (.ite (fun _ => keptFrom_wake 2 s) fun _ => .refl s)
  case wakeTimer => exact .next (.ite (fun _ => keptFrom_wake 3 s) fun _ => .refl s)
  case autoRestart => exact .next (.ite (fun _ => keptFrom_wake 4 s) fun _ => .refl s)
  case vaoLoss => exact .next ⟨rfl, fun _ => reset_scratch_ok⟩
  case smbClkLowTimeout => exact .next (.refl s)
  case heartbeatLoss | yield | pgInRise | railDlyExpiry | pgTmoExpiry | pgInLow | thermHoldExpiry => exact goesOn_onDev s _
  case pair | sweep | sig | entry | commit | ack | decision | pscSel | config | state | divergenceNotice | resyncStart |
      resyncEnd | couplingNotice | lpPropose | lpAgree => exact goesOn_fromMate _ s _
  case ringReset | ppsIn | clkSelWrite | pmnPerfSelWrite | lockoutExpiry | xoFail | perfClear | smbusSessionTimeout |
      responseFailureCleared | smbusLockoutExpiry =>
    simp only [exec, execRingReset, execPpsIn, execClkSelWrite, execPmnPerfSelWrite, execLockoutExpiry, execXoFail, execPerfClear,
      execSmbusSessionTimeout, execResponseFailureCleared, execSmbusLockoutExpiry]
    exact goesOn_core s _
  all_goals exact goesOn_core s _

/-- An access beyond the window stops. -/
theorem exec_of_beyondWindow {c : Instr} (s : State) (h : beyondWindow c) : exec c s = .fault .outsideWindow := by
  cases c
  case bar2Read => exact if_pos h
  case bar2Write => exact if_pos h
  all_goals exact h.elim

/-- What goes on comes of `s` with what every command keeps. -/
theorem keptFrom_of_exec {c : Instr} {s t : State} (h : exec c s = .next t) : KeptFrom s t := by
  by_cases hb : beyondWindow c
  · exact nomatch (exec_of_beyondWindow s hb).symm.trans h
  · obtain ⟨u, hu, hkept⟩ := exec_goesOn c s hb
    exact Host.Outcome.next.inj (hu.symm.trans h) ▸ hkept

/-- Settles O1. -/
theorem stepRunsFrontCommand : Obligations.StepRunsFrontCommand := fun _ _ _ => rfl

/-- Settles O2: what goes on has the queue behind the command. -/
theorem stepConsumesOrIdles : Obligations.StepConsumesOrIdles := by
  refine ⟨fun c rest s t h => (keptFrom_of_exec (c := c) h).pending, fun s hidle => ?_⟩
  simp only [step, hidle]

/-- Settles O3: a command is an access beyond the window, or goes on. -/
theorem onlyWindowFaults : Obligations.OnlyWindowFaults := by
  intro c s
  by_cases hb : beyondWindow c
  · refine .inr ⟨exec_of_beyondWindow s hb, ?_⟩
    cases c
    case bar2Read off n pc ecc => exact .inl ⟨off, n, pc, ecc, rfl, hb⟩
    case bar2Write off data b => exact .inr ⟨off, data, b, rfl, hb⟩
    all_goals exact hb.elim
  · obtain ⟨t, ht, -⟩ := exec_goesOn c s hb
    exact .inl ⟨t, ht⟩

/-- Settles O40: a step idles, or runs the front command, which keeps the scratchpad canonical. -/
theorem scratchpadStaysCanonical : Obligations.ScratchpadStaysCanonical := by
  intro s t hok hstep
  cases hq : s.pending with
  | nil =>
    simp only [step, hq] at hstep
    exact Host.Outcome.next.inj hstep ▸ hok
  | cons c rest =>
    simp only [step, hq] at hstep
    exact (keptFrom_of_exec hstep).sp hok

end Sys2Proof.Machine
end

