-- ==== Sys2Proof/Proofs/Frames.lean ====
section
/-! PROOFS. Frames step by step: which parts and which register words a chain of steps can change, for commands that reach
more of the device than an evaluation does. -/

namespace Sys2Proof.Machine

/-! ### Updates of one part -/

theorem only_hif (d : Dev) (x : Hif) : Only [.hif] d { d with hif := x } := by
  intro p hp; cases p <;> simp_all [Part.same]
theorem only_dma (d : Dev) (x : Dma) : Only [.dma] d { d with dma := x } := by
  intro p hp; cases p <;> simp_all [Part.same]
theorem only_ctl (d : Dev) (x : Ctl) : Only [.ctl] d { d with ctl := x } := by
  intro p hp; cases p <;> simp_all [Part.same]
theorem only_sec (d : Dev) (x : Sec) : Only [.sec] d { d with sec := x } := by
  intro p hp; cases p <;> simp_all [Part.same]
theorem only_onPwr (d : Dev) (f : Pwr → Pwr) : Only [.pwr] d (onPwr d f) := by
  intro p hp; cases p <;> simp_all [Part.same]
theorem only_freed (d : Dev) : Only [.free] d (freed d) := by
  intro p hp; cases p <;> simp_all [Part.same]

/-! ### The frame of a chain of steps -/

/-- `b` comes of `a` by changes of the parts `ps`, and of the register words at `as`. -/
structure Within (as : List Nat) (ps : List Part) (a b : Dev) : Prop where
  parts : Only ps a b
  regs : OnlyRegs as a b

theorem Evals.within {as : List Nat} {ps : List Part} {a b : Dev} (h : Evals as ps a b) : Within as ps a b := ⟨h.parts, h.regs⟩

namespace Within

variable {as bs : List Nat} {ps qs : List Part} {a b c : Dev} {f : Fld} {i : Nat}

theorem refl (as : List Nat) (ps : List Part) (a : Dev) : Within as ps a a := ⟨Only.refl ps a, OnlyRegs.refl as a⟩

theorem mono (h : Within bs qs a b) (has : bs ⊆ as := by simp) (hps : qs ⊆ ps := by simp) : Within as ps a b :=
  ⟨h.parts.mono hps, h.regs.mono has⟩

theorem trans (h : Within as ps a b) (k : Within as ps b c) : Within as ps a c :=
  ⟨(h.parts.trans k.parts).mono (by simp), (h.regs.trans k.regs).mono (by simp)⟩

/-- A further step, with its own smaller frame. -/
theorem next (h : Within as ps a b) (k : Within bs qs b c) (has : bs ⊆ as := by simp) (hps : qs ⊆ ps := by simp) :
    Within as ps a c :=
  h.trans (k.mono has hps)

theorem ite {p : Prop} [Decidable p] (h : p → Within as ps a b) (k : ¬ p → Within as ps a c) :
    Within as ps a (if p then b else c) := by
  split
  case isTrue hp => exact h hp
  case isFalse hp => exact k hp

theorem foldl {β : Type} {g : Dev → β → Dev} {l : List β} (h : ∀ d, ∀ x ∈ l, Within as ps d (g d x)) (a : Dev) :
    Within as ps a (l.foldl g a) := by
  induction l generalizing a with
  | nil => exact refl as ps a
  | cons x l ih =>
    exact (h a x List.mem_cons_self).trans (ih (fun d y hy => h d y (List.mem_cons_of_mem x hy)) (g a x))

/-- A step that writes no register. -/
theorem of_only (h : Only ps a b) (hregs : Part.regs ∉ ps := by simp) : Within [] ps a b :=
  ⟨h, onlyRegs_of_eq [] (h .regs hregs)⟩

/-- A further step that writes no register. -/
theorem only (h : Within as ps a b) (k : Only qs b c) (hregs : Part.regs ∉ qs := by simp) (hps : qs ⊆ ps := by simp) :
    Within as ps a c :=
  h.next (of_only k hregs) (List.nil_subset _) hps

/-- A further step of an evaluation. -/
theorem evals (h : Within as ps a b) (k : Evals bs qs b c) (has : bs ⊆ as := by simp) (hps : qs ⊆ ps := by simp) :
    Within as ps a c :=
  h.next k.within has hps

theorem wr {v : Nat} (h : Within as ps a b) (has : f.addr i ∈ as := by simp) (hps : Part.regs ∈ ps := by simp) :
    Within as ps a (Machine.wr b f i v) :=
  h.next ⟨only_wr b f i v, onlyRegs_wr b f i v⟩ (by simpa using has) (by simpa using hps)

theorem wrB {v : Bool} (h : Within as ps a b) (has : f.addr i ∈ as := by simp) (hps : Part.regs ∈ ps := by simp) :
    Within as ps a (Machine.wrB b f i v) :=
  h.wr has hps

theorem sat {n : Nat} (h : Within as ps a b) (has : f.addr i ∈ as := by simp) (hps : Part.regs ∈ ps := by simp) :
    Within as ps a (Machine.sat b f i n) :=
  h.wr has hps

theorem raise {e : Ev} (h : Within as ps a b) (hps : Part.hif ∈ ps := by simp) : Within as ps a (Machine.raise b e) :=
  h.only (only_raise b e) (by simp) (by simpa using hps)

theorem emit {o : Out} (h : Within as ps a b) (hps : Part.out ∈ ps := by simp) : Within as ps a (Machine.emit b o) :=
  h.only (only_emit b o) (by simp) (by simpa using hps)

theorem onPwr {g : Pwr → Pwr} (h : Within as ps a b) (hps : Part.pwr ∈ ps := by simp) : Within as ps a (Machine.onPwr b g) :=
  h.only (only_onPwr b g) (by simp) (by simpa using hps)

theorem modRing {r : Nat} {g : Ring → Ring} (h : Within as ps a b) (hps : Part.hif ∈ ps := by simp) :
    Within as ps a (Machine.modRing b r g) :=
  h.only (only_modRing b r g) (by simp) (by simpa using hps)

theorem finish {r uid st det : Nat} {sn : SN} {res : BitVec 64} (h : Within as ps a b) (hps : Part.hif ∈ ps := by simp) :
    Within as ps a (Machine.finish b r uid st det sn res) :=
  h.only (only_finish b r uid st det sn res) (by simp) (by simpa using hps)

theorem take {r uid : Nat} (h : Within as ps a b) (hps : Part.hif ∈ ps := by simp) : Within as ps a (Machine.take b r uid) :=
  h.only (only_take b r uid) (by simp) (by simpa using hps)

theorem perf {e x n : Nat} (h : Within as ps a b) (hps : Part.pm ∈ ps := by simp) : Within as ps a (Machine.perf b e x n) :=
  h.evals (evals_perf b e x n) (List.nil_subset _) (by simpa using hps)

/-- A field of a word that is not written. -/
theorem rd (h : Within as ps a b) (hf : f.addr i ∉ as) : Machine.rd b f i = Machine.rd a f i := by
  simp only [Machine.rd, h.regs _ hf]

theorem rdB (h : Within as ps a b) (hf : f.addr i ∉ as) : Machine.rdB b f i = Machine.rdB a f i := by
  simp only [Machine.rdB, h.rd hf]

/-- What a command that leaves queue, SN, lock and scratchpad does, as the statements say it. -/
theorem acts {c : Instr} {s : State} {e : Dev} {p : State → Prop} (h : Within as ps s.dev e)
    (hexec : exec c s = .next { s with dev := e }) (hp : p { s with dev := e }) : Acts ps c s p :=
  ⟨_, hexec, devOnly_dev s e, h.parts, hp⟩

theorem actsR {c : Instr} {s : State} {e : Dev} {p : State → Prop} (h : Within as (.regs :: ps) s.dev e)
    (hexec : exec c s = .next { s with dev := e }) (hp : p { s with dev := e }) : ActsR as ps c s p :=
  h.acts hexec ⟨h.regs, hp⟩

end Within

/-- What a command of a running core answers. -/
theorem exec_of_core {c : Instr} {s : State} {g : Dev → Dev} {e : Dev} (hexec : exec c s = core s g)
    (hcore : s.dev.pwr.core = true) (hg : g s.dev = e) : exec c s = .next { s with dev := e } := by
  rw [hexec, core_next s g hcore, hg]

/-- A command whose meaning leaves the device as it is. -/
theorem exec_of_core_self {c : Instr} {s : State} {g : Dev → Dev} (hexec : exec c s = core s g) (hg : g s.dev = s.dev) :
    exec c s = .next s := by
  simp [hexec, core, onDev, hg]

/-- A command of the always-on island, core or no core. -/
theorem exec_of_onDev {c : Instr} {s : State} {g : Dev → Dev} {e : Dev} (hexec : exec c s = onDev s g) (hg : g s.dev = e) :
    exec c s = .next { s with dev := e } := by
  rw [hexec, onDev, hg]

/-! ### Words of different tables -/

/-- How far behind its base a field of one table reaches. -/
def Fld.span (f : Fld) : Nat := (f.n2 - 1) * f.s2

/-- Two fields of tables that share no word: one table lies behind the other, or their words alternate. -/
def Fld.parted (f g : Fld) : Bool :=
  f.s1 == 0 && g.s1 == 0 && decide (0 < f.n2) && decide (0 < g.n2) &&
    (decide (f.base + f.span < g.base) || decide (g.base + g.span < f.base) || (f.s2 == g.s2 && f.base % f.s2 != g.base % f.s2))

theorem Fld.addr_mem_span {f : Fld} (hs : f.s1 = 0) (hn : 0 < f.n2) (i : Nat) :
    f.base ≤ f.addr i ∧ f.addr i ≤ f.base + f.span := by
  have hmod : i % f.n2 ≤ f.n2 - 1 := by have := Nat.mod_lt i hn; omega
  have hle : i % f.n2 * f.s2 ≤ f.span := Nat.mul_le_mul_right _ hmod
  simp only [Fld.addr, hs, Nat.mul_zero, Nat.add_zero]
  omega

theorem Fld.addr_ne {f g : Fld} (h : f.parted g = true) (i j : Nat) : f.addr i ≠ g.addr j := by
  simp only [Fld.parted, Bool.and_eq_true, Bool.or_eq_true, beq_iff_eq, bne_iff_ne, decide_eq_true_eq] at h
  obtain ⟨⟨⟨⟨hf, hg⟩, hfn⟩, hgn⟩, hapart⟩ := h
  have hfi := Fld.addr_mem_span hf hfn i
  have hgj := Fld.addr_mem_span hg hgn j
  rcases hapart with (hlt | hlt) | ⟨hstep, hmod⟩
  · omega
  · omega
  · intro heq
    have hres := congrArg (· % f.s2) heq
    simp only [Fld.addr, hf, hg, Nat.mul_zero, Nat.add_zero, hstep, Nat.add_mul_mod_self_right] at hres
    exact hmod (hstep ▸ hres)

/-- Indices of one table have words of their own. -/
theorem Fld.addr_inj {f : Fld} (h : f.s1 = 0 ∧ 0 < f.s2) {i j : Nat} (hi : i < f.n2) (hj : j < f.n2) (heq : f.addr i = f.addr j) :
    i = j := by
  simp only [Fld.addr, h.1, Nat.mul_zero, Nat.add_zero, Nat.mod_eq_of_lt hi, Nat.mod_eq_of_lt hj] at heq
  exact Nat.eq_of_mul_eq_mul_right h.2 (by omega)

section
variable (d : Dev) {f g : Fld} {i j v : Nat}

theorem rd_wr_parted (h : g.parted f = true) : rd (wr d f i v) g j = rd d g j := rd_wr_addr d f g i j v (Fld.addr_ne h j i)

theorem rd_wrB_parted {b : Bool} (h : g.parted f = true) : rd (wrB d f i b) g j = rd d g j := rd_wr_parted d h

theorem rd_wr_index (h : f.s1 = 0 ∧ 0 < f.s2) (hi : i < f.n2) (hj : j < f.n2) (hne : j ≠ i) : rd (wr d f i v) f j = rd d f j :=
  rd_wr_addr d f f i j v fun heq => hne (Fld.addr_inj h hj hi heq)

end

end Sys2Proof.Machine
end

