-- ==== Sys2Proof/Proofs/PowerSequences.lean ====
section
/-! PROOFS. The power sequences of R480 to R484: a core reset keeps the always-on fields of the registers (R499) as the
last entry of their word lists them. -/

namespace Sys2Proof.Machine

-- In order: a default argument `by simp` waits for every declaration before it, and many that wait take many threads.
set_option Elab.async false

/-! ### The counterexample -/

/-- PWR_STATUS listed twice, a form that `twf` excludes and no hypothesis of the statement does. -/
def twiceListedStatus : State :=
  { State.reset with
    dev := { State.reset.dev with regs := [(F.PWR_STATUS_RAIL_FAULT.addr 0, 0), (F.PWR_STATUS_RAIL_FAULT.addr 0, 0)] } }

/-- The fault of rail 0 is marked in the first entry, and the core reset (R479) takes the second. -/
theorem railFault_twiceListedStatus_mark :
    (rd (railFault 0 false twiceListedStatus).dev F.PWR_STATUS_RAIL_FAULT).testBit 0 = false := by decide +kernel

/-- Refutes O54: a rail fault in ACTIVE marks its rail in RAIL_FAULT for every register store, but where PWR_STATUS is
listed twice the mark does not outlive the core reset of the same fault. -/
theorem not_powerSequences : ¬ Obligations.PowerSequences := by
  unfold Obligations.PowerSequences
  rintro ⟨-, hdown⟩
  obtain ⟨-, hfault, -⟩ := hdown twiceListedStatus
  obtain ⟨t, hexec, -, -, -, -, -, -, -, hmark⟩ := hfault 0 false rfl rfl rfl
  obtain rfl : railFault 0 false twiceListedStatus = t := Host.Outcome.next.inj hexec
  exact absurd (railFault_twiceListedStatus_mark.symm.trans hmark) (by decide)

end Sys2Proof.Machine
end

