-- ==== Sys2Proof/Proofs/Wakes.lean ====
section
/-! PROOFS. The wakes of Table 19-3 (R481, R487, R488): what a source does in STANDBY, during an entry, and while wakes are
discarded. -/

namespace Sys2Proof.Machine

-- In order: a default argument `by simp` waits for every declaration before it, and many that wait take many threads.
set_option Elab.async false

/-! ### The sources -/

/-- `c` is the command of wake source `b`, and the source is enabled (Table 19-3). -/
inductive WakeSource (s : State) : Nat → Instr → Prop
  | wakeN : rd s.dev F.PWR_WAKE_CFG_WAKE_N_EN = 1 → WakeSource s 0 .wakeN
  | smbus : rd s.dev F.PWR_WAKE_CFG_SMB_EN = 1 → WakeSource s 1 .smbusWake
  | mate : s.dev.pwr.agreed = true → s.dev.pwr.ticked = true → WakeSource s 2 .twAliveWake
  | timer : s.dev.pwr.st = .standby → rd s.dev F.PWR_WAKE_CFG_TIMER_EN = 1 → rd s.dev F.PWR_WAKE_TMR ≠ 0 →
      WakeSource s 3 .wakeTimer
  | restart : s.dev.pwr.st = .standby → rd s.dev F.PWR_CFG_AUTO_RESTART = 1 → rd s.dev F.PWR_STATUS_LAST_OFF = 4 →
      s.dev.pwr.noRestart = false → WakeSource s 4 .autoRestart

/-- Whatever the source, its command is the wake. -/
theorem WakeSource.exec_eq {s : State} {b : Nat} {c : Instr} (h : WakeSource s b c) : exec c s = .next (wake b s) := by
  cases h
  case wakeN h => simp [exec, execWakeN, rdB, h]
  case smbus h => simp [exec, execSmbusWake, rdB, h]
  case mate hagreed hticked => simp [exec, execTwAliveWake, hagreed, hticked]
  case timer hst hen htmr => simp [exec, execWakeTimer, rdB, hst, hen, htmr]
  case restart hst hen hoff hno => simp [exec, execAutoRestart, rdB, hst, hen, hoff, hno]

/-! ### POWER_UP -/

/-- POWER_UP starts on FIO from a reset device (R481). -/
theorem startUp_begins (s : State) : (startUp s).pending = s.pending ∧ (startUp s).dev.pwr.st = .powerUp ∧ (startUp s).sn = 0 ∧
    (startUp s).dev.pwr.core = false := by
  unfold startUp
  extract_lets t d d₁ d₂
  split <;> exact ⟨rfl, rfl, rfl, rfl⟩

/-! ### The wake -/

section
variable {s : State} {b : Nat}

theorem wake_of_discard (h : s.dev.pwr.discard = true) : wake b s = s := by
  simp [wake, h]

theorem wake_of_standby (hdiscard : s.dev.pwr.discard = false) (hst : s.dev.pwr.st = .standby) :
    wake b s = wakeUp { s with dev := wakeSrc s.dev (BitVec.ofNat 5 (2 ^ b)) } := by
  simp [wake, hdiscard, hst]

/-- During an entry that was accepted the source is held (R487). -/
theorem wake_of_armed (hdiscard : s.dev.pwr.discard = false) (harmed : s.dev.pwr.armed = true)
    (hst : s.dev.pwr.st = .entry ∨ s.dev.pwr.st = .down) :
    wake b s = { s with dev := onPwr s.dev fun p => { p with latch := p.latch ||| BitVec.ofNat 5 (2 ^ b) } } := by
  rcases hst with hst | hst <;> simp [wake, hdiscard, harmed, hst]

end

/-- A source recorded in PWR_WAKE_STATUS shows there. -/
theorem rd_wakeSrc (d : Dev) (m : BitVec 5) :
    rd (wakeSrc d m) F.PWR_WAKE_STATUS_SRC = rd d F.PWR_WAKE_STATUS_SRC ||| m.toNat :=
  rd_wr_fits d ⟨by decide, Nat.or_lt_two_pow (rd_lt d F.PWR_WAKE_STATUS_SRC 0) m.isLt⟩

theorem testBit_wakeSrc (d : Dev) (b : Fin 5) :
    (rd (wakeSrc d (BitVec.ofNat 5 (2 ^ b.val))) F.PWR_WAKE_STATUS_SRC).testBit b.val = true := by
  have hbit : (BitVec.ofNat 5 (2 ^ b.val)).toNat.testBit b.val = true := by
    revert b
    decide
  rw [rd_wakeSrc, Nat.testBit_or, hbit, Bool.or_true]

/-! ### The commands -/

section
variable {s : State} {b : Fin 5} {c : Instr} (h : WakeSource s b c) (hdiscard : s.dev.pwr.discard = false)
include h hdiscard

theorem wake_starts (hst : s.dev.pwr.st = .standby) (hmin : s.dev.pwr.offMin = true) : ∃ t, exec c s = .next t ∧
    t.pending = s.pending ∧ t.dev.pwr.st = .powerUp ∧ t.sn = 0 ∧ t.dev.pwr.core = false :=
  ⟨_, h.exec_eq.trans (congrArg _ ((wake_of_standby hdiscard hst).trans (if_pos hmin))), startUp_begins _⟩

theorem wake_waits (hst : s.dev.pwr.st = .standby) (hmin : s.dev.pwr.offMin = false) :
    ActsR [F.PWR_WAKE_STATUS_SRC.addr 0] [.pwr] c s fun t => t.dev.pwr = { s.dev.pwr with wakeDue := true } ∧
      (rd t.dev F.PWR_WAKE_STATUS_SRC).testBit b.val = true := by
  have hwait : ¬ s.dev.pwr.offMin = true := by simp [hmin]
  refine ((Within.refl _ _ s.dev).wr.onPwr).actsR
    (h.exec_eq.trans (congrArg _ ((wake_of_standby hdiscard hst).trans (if_neg hwait)))) ⟨rfl, ?_⟩
  exact testBit_wakeSrc s.dev b

theorem wake_held (harmed : s.dev.pwr.armed = true) (hst : s.dev.pwr.st = .entry ∨ s.dev.pwr.st = .down) :
    Acts [.pwr] c s fun t => t.dev.pwr = { s.dev.pwr with latch := s.dev.pwr.latch ||| BitVec.ofNat 5 (2 ^ b.val) } :=
  ((Within.refl [] _ s.dev).onPwr).acts (h.exec_eq.trans (congrArg _ (wake_of_armed hdiscard harmed hst))) rfl

end

/-- OFF_MIN's end starts the POWER_UP that waits for it. -/
theorem offMin_starts {s : State} (hst : s.dev.pwr.st = .standby) (hdue : s.dev.pwr.wakeDue = true) :
    ∃ t, exec .offMinExpiry s = .next t ∧ t.pending = s.pending ∧ t.dev.pwr.st = .powerUp := by
  have hexec : exec .offMinExpiry s = .next (startUp { s with dev := onPwr s.dev fun p => { p with offMin := true } }) := by
    simp [exec, execOffMinExpiry, offMinEnd, hst, hdue]
  obtain ⟨hpending, hup, -, -⟩ := startUp_begins { s with dev := onPwr s.dev fun p => { p with offMin := true } }
  exact ⟨_, hexec, hpending, hup⟩

theorem offMin_passes {s : State} (hst : s.dev.pwr.st = .standby) (hdue : s.dev.pwr.wakeDue = false) :
    Acts [.pwr] .offMinExpiry s fun t => t.dev.pwr = { s.dev.pwr with offMin := true } :=
  ((Within.refl [] _ s.dev).onPwr (g := fun p => { p with offMin := true })).acts (by simp [exec, execOffMinExpiry, offMinEnd, hst, hdue]) rfl

/-- Settles O56: the enabled source, then the wake in the state of the sequencer, then OFF_MIN. -/
theorem wakesStartPowerUp : Obligations.WakesStartPowerUp := by
  intro s b c hsource
  have h : WakeSource s b c := by
    obtain ⟨hb, rfl, h⟩ | ⟨hb, rfl, h⟩ | ⟨hb, rfl, hagreed, hticked⟩ | ⟨hb, rfl, hst, hen, htmr⟩ | ⟨hb, rfl, hst, hen, hoff, hno⟩ :=
      hsource <;> rw [hb]
    · exact .wakeN h
    · exact .smbus h
    · exact .mate hagreed hticked
    · exact .timer hst hen htmr
    · exact .restart hst hen hoff hno
  refine ⟨fun hdiscard => ?_, fun hdiscard hst => ⟨wake_starts h hdiscard hst, wake_waits h hdiscard hst⟩, wake_held h,
    offMin_starts, offMin_passes⟩
  rw [h.exec_eq, wake_of_discard hdiscard]

end Sys2Proof.Machine
end

