-- ==== Sys2Proof/Proofs/StandbyEntry.lean ====
section
/-! PROOFS. Standby (R485 to R487): requests, the agreement with the mate, and the course of ENTRY. -/

namespace Sys2Proof.Machine

/-! ### A record taken up, then its meaning -/

/-- A command that takes up a record, and whose meaning keeps to a frame. -/
theorem actsR_of_record {as : List Nat} {ps : List Part} {c : Instr} {s : State} {typ : Nat} {f : Dev → Dev} {P : State → Prop}
    (hexec : exec c s = core s fun d => f (recordTaken typ d)) (hcore : s.dev.pwr.core = true)
    (h : ∀ d, TakesRecord s.dev d → Within as (.regs :: ps) d (f d) ∧ P { s with dev := f d })
    (hps : [Part.twin, .pm] ⊆ ps := by simp) : ActsR as ps c s P := by
  obtain ⟨hwithin, hP⟩ := h _ (takesRecord_recordTaken typ s.dev)
  have htaken : Within as (.regs :: ps) s.dev (recordTaken typ s.dev) :=
    (takesRecord_recordTaken typ s.dev).frame.within.mono (List.nil_subset _) (List.Subset.trans hps (List.subset_cons_self _ _))
  exact (htaken.trans hwithin).actsR (exec_of_core hexec hcore rfl) hP

/-- The link is a matter of TWN_STATUS alone. -/
theorem Within.linkUp {as : List Nat} {ps : List Part} {a b : Dev} (h : Within as ps a b) (has : twinWord ∉ as := by simp) :
    Machine.linkUp b = Machine.linkUp a := h.regs.linkUp has

/-- The record queues after a record has been taken up, and after one has been handed to the link. -/
theorem TakesRecord.queuesOf {a b : Dev} (h : TakesRecord a b) {x : Twin} (hx : x = Machine.queuesOf b.twin x) :
    x = Machine.queuesOf a.twin x := by
  rw [h.twin] at hx
  exact hx

theorem twin_control (d : Dev) (code : Nat) (ws : List Nat) :
    (control d code ws).twin = queuesOf d.twin (control d code ws).twin := (evals_twinSend d 0xC (code :: ws)).twin

theorem evals_control (d : Dev) (code : Nat) (ws : List Nat) : Evals [] [.out, .twin] d (control d code ws) :=
  evals_twinSend d 0xC (code :: ws)

/-! ### A request accepted or refused (R485, R486) -/

/-- PWR_STATUS. -/
abbrev pwrWord : Nat := F.PWR_STATUS_LAST_OFF.addr 0

@[simp] theorem addr_refused : F.PWR_STATUS_REFUSED.addr 0 = pwrWord := rfl

/-- ENTRY is accepted between `a` and `b` for sweep `e`: the wake latch is armed, no quad waits for its grant. -/
structure EntryAccepted (a b : Dev) (sn e : SN) (off p1 : Nat) : Prop where
  st : b.pwr.st = .entry
  armed : b.pwr.armed = true
  latch : b.pwr.latch = 0
  entryT : b.pwr.entryT = some e
  stagger : b.stagger = []
  lastOff : rd b F.PWR_STATUS_LAST_OFF = off
  raised : Raised a b [{ typ := 0xB0, sn := sn, p0 := e.toNat, p1 := p1 }]

/-- A request is refused between `a` and `b` for reason `why`. -/
structure EntryRefused (a b : Dev) (sn : SN) (why : Nat) : Prop where
  pwr : b.pwr = { a.pwr with propose := none }
  refused : rd b F.PWR_STATUS_REFUSED = 1
  raised : Raised a b [{ typ := 0xB1, sn := sn, p0 := why }]

section
variable (e : SN) (sn : SN) (d : Dev)

theorem within_acceptEntry (kind : Nat) :
    Within [pwrWord] [.regs, .pwr, .stagger, .hif] d (acceptEntry e kind sn d) :=
  (((Within.refl _ _ d).wr.only (only_stagger _ _)).onPwr).raise

theorem entryAccepted_single : EntryAccepted d (acceptEntry e 0 sn d) sn e 1 0 :=
  ⟨rfl, rfl, rfl, rfl, rfl, rd_wr_fits d (by decide), rfl⟩

theorem entryAccepted_agreed : EntryAccepted d (acceptEntry e 1 sn d) sn e 2 1 :=
  ⟨rfl, rfl, rfl, rfl, rfl, rd_wr_fits d (by decide), rfl⟩

theorem within_refuseEntry (why : Nat) : Within [pwrWord] [.regs, .pwr, .hif] d (refuseEntry why sn d) :=
  ((Within.refl _ _ d).onPwr.wrB).raise

theorem entryRefused_refuseEntry (why : Nat) : EntryRefused d (refuseEntry why sn d) sn why :=
  ⟨rfl, rd_wrB_bit _ (by decide) true, rfl⟩

end

/-- A step after the acceptance that leaves power, stagger queue, registers and events. -/
theorem EntryAccepted.next {a b c : Dev} {sn e : SN} {off p1 : Nat} (h : EntryAccepted a b sn e off p1)
    (k : Evals [] [.out, .twin] b c) : EntryAccepted a c sn e off p1 := by
  have hpwr : c.pwr = b.pwr := k.parts .pwr (by simp)
  have hhif : c.hif = b.hif := k.parts .hif (by simp)
  exact ⟨hpwr ▸ h.st, hpwr ▸ h.armed, hpwr ▸ h.latch, hpwr ▸ h.entryT, (k.parts .stagger (by simp)).trans h.stagger,
    (k.rd (by simp)).trans h.lastOff, h.raised.of_same rfl rfl (congrArg Hif.evq hhif)⟩

/-- What a record taken up before leaves of these. -/
theorem EntryAccepted.of_taken {a b c : Dev} {sn e : SN} {off p1 : Nat} (h : EntryAccepted b c sn e off p1)
    (hd : TakesRecord a b) : EntryAccepted a c sn e off p1 :=
  ⟨h.st, h.armed, h.latch, h.entryT, h.stagger, h.lastOff, h.raised.of_same hd.evq hd.frame.role rfl⟩

theorem EntryRefused.of_taken {a b c : Dev} {sn : SN} {why : Nat} (h : EntryRefused b c sn why) (hd : TakesRecord a b) :
    EntryRefused a c sn why :=
  ⟨hd.frame.parts .pwr (by simp) ▸ h.pwr, h.refused, h.raised.of_same hd.evq hd.frame.role rfl⟩

/-! ### The requests -/

section
variable {s : State} (hcore : s.dev.pwr.core = true) (ns : Nat)
include hcore

section
variable (hst : s.dev.pwr.st = .active) (hfree : s.dev.pwr.propose = none)
include hst hfree

theorem stbyReq_single (htwin : rd s.dev F.TWN_CFG_EN = 0) : ActsR [pwrWord] [.pwr, .stagger, .hif] (.stbyReq ns) s fun t =>
    EntryAccepted s.dev t.dev s.sn (entrySweep s.sn ns) 1 0 := by
  have heq : stbyReq ns s.sn s.dev = acceptEntry (entrySweep s.sn ns) 0 s.sn s.dev := by
    simp [stbyReq, hst, hfree, rdB, htwin]
  exact (within_acceptEntry _ _ _ 0).actsR (exec_of_core rfl hcore heq) (entryAccepted_single _ _ _)

section
variable (htwin : rd s.dev F.TWN_CFG_EN = 1)
include htwin

theorem stbyReq_unlinked (hlink : linkUp s.dev = false) : ActsR [pwrWord] [.pwr, .hif] (.stbyReq ns) s fun t =>
    EntryRefused s.dev t.dev s.sn 1 := by
  have heq : stbyReq ns s.sn s.dev = refuseEntry 1 s.sn s.dev := by
    simp [stbyReq, hst, hfree, rdB, htwin, hlink]
  exact (within_refuseEntry s.sn s.dev 1).actsR (exec_of_core rfl hcore heq) (entryRefused_refuseEntry _ _ _)

/-- The proposal for the sweep 16 ahead (R486). -/
theorem stbyReq_proposes (hlink : linkUp s.dev = true) : Acts [.pwr, .twin, .out] (.stbyReq ns) s fun t =>
    t.dev.pwr = { s.dev.pwr with propose := some (s.sn + 16) } ∧ t.dev.twin = queuesOf s.dev.twin t.dev.twin ∧
    SentRec s.dev t.dev [(0xC, [6, (s.sn + 16).toNat])] := by
  have heq : stbyReq ns s.sn s.dev =
      control (onPwr s.dev fun p => { p with propose := some (s.sn + 16) }) 6 [(s.sn + 16).toNat] := by
    simp [stbyReq, hst, hfree, rdB, htwin, hlink]
  refine Within.acts (as := []) ?_ (exec_of_core rfl hcore heq) ⟨?_, ?_, ?_⟩
  · exact (Within.refl _ _ _).onPwr.evals (evals_control _ _ _)
  · exact (evals_control _ _ _).parts .pwr (by simp)
  · exact twin_control _ _ _
  · exact (sentRec_twinSend (d := onPwr s.dev _) hlink 0xC _).of_same rfl rfl

end

section
variable (x : SN) (hlink : linkUp s.dev = true)
include hlink

theorem lpPropose_agrees (hallow : rd s.dev F.PWR_CTL_STBY_ALLOW = 1) :
    ActsR [pwrWord] [.pwr, .stagger, .hif, .twin, .out, .pm] (.lpPropose x) s fun t =>
      EntryAccepted s.dev t.dev s.sn x 2 1 ∧ t.dev.twin = queuesOf s.dev.twin t.dev.twin ∧ SentRec s.dev t.dev [(0xC, [7])] := by
  refine actsR_of_record (typ := 0xC) rfl hcore fun d hd => ?_
  have hpwr : d.pwr = s.dev.pwr := hd.frame.parts .pwr (by simp)
  have hup : linkUp d = true := hd.frame.within.linkUp.trans hlink
  have heq : lpPropose x s.sn d = control (acceptEntry x 1 s.sn d) 7 := by
    simp [lpPropose, hup, hpwr, hst, hfree, rdB, hd.frame.rd (f := F.PWR_CTL_STBY_ALLOW) (i := 0) (by simp), hallow]
  have hwithin := within_acceptEntry x s.sn d 1
  have hlinked : linkUp (acceptEntry x 1 s.sn d) = true := (hwithin.linkUp (by decide)).trans hup
  rw [heq]
  refine ⟨(hwithin.mono (List.Subset.refl _)).evals (evals_control _ _ _), ?_, ?_, ?_⟩
  · exact ((entryAccepted_agreed x s.sn d).next (evals_control _ _ _)).of_taken hd
  · exact hd.queuesOf (twin_control _ _ _)
  · exact (sentRec_twinSend hlinked 0xC [7]).of_same hd.out hd.txq

omit hst in
theorem lpPropose_declines (hallow : rd s.dev F.PWR_CTL_STBY_ALLOW = 0) : Acts [.twin, .out, .pm] (.lpPropose x) s fun t =>
    t.dev.twin = queuesOf s.dev.twin t.dev.twin ∧ SentRec s.dev t.dev [(0xC, [8])] := by
  refine acts_of_record (typ := 0xC) rfl hcore fun d hd => ⟨_, rfl, ?_⟩
  have hpwr : d.pwr = s.dev.pwr := hd.frame.parts .pwr (by simp)
  have hup : linkUp d = true := hd.frame.within.linkUp.trans hlink
  have heq : lpPropose x s.sn d = control d 8 := by
    simp [lpPropose, hup, hpwr, hfree, rdB, hd.frame.rd (f := F.PWR_CTL_STBY_ALLOW) (i := 0) (by simp), hallow]
  rw [heq]
  exact ⟨(hd.frame.parts.trans (evals_control d 8 []).parts).mono (by simp), hd.queuesOf (twin_control _ _ _),
    (sentRec_twinSend hup 0xC [8]).of_same hd.out hd.txq⟩

end

end

/-! ### The answers to a proposal -/

section
variable {u : SN} (hpropose : s.dev.pwr.propose = some u)
include hpropose

theorem lpAgree_accepts : ActsR [pwrWord] [.pwr, .stagger, .hif, .twin, .pm] (.lpAgree true) s fun t =>
    EntryAccepted s.dev t.dev s.sn u 2 1 ∧ t.dev.twin = queuesOf s.dev.twin t.dev.twin := by
  refine actsR_of_record (typ := 0xC) rfl hcore fun d hd => ?_
  have hpwr : d.pwr = s.dev.pwr := hd.frame.parts .pwr (by simp)
  have heq : lpReply true s.sn d = acceptEntry u 1 s.sn d := by simp [lpReply, hpwr, hpropose]
  rw [heq]
  exact ⟨(within_acceptEntry u s.sn d 1).mono (List.Subset.refl _), (entryAccepted_agreed u s.sn d).of_taken hd,
    hd.queuesOf (x := d.twin) rfl⟩

theorem lpAgree_refuses : ActsR [pwrWord] [.pwr, .hif, .twin, .pm] (.lpAgree false) s fun t =>
    EntryRefused s.dev t.dev s.sn 2 ∧ t.dev.twin = queuesOf s.dev.twin t.dev.twin := by
  refine actsR_of_record (typ := 0xC) rfl hcore fun d hd => ?_
  have hpwr : d.pwr = s.dev.pwr := hd.frame.parts .pwr (by simp)
  have heq : lpReply false s.sn d = refuseEntry 2 s.sn d := by simp [lpReply, hpwr, hpropose]
  rw [heq]
  exact ⟨(within_refuseEntry s.sn d 2).mono (List.Subset.refl _), (entryRefused_refuseEntry s.sn d 2).of_taken hd,
    hd.queuesOf (x := d.twin) rfl⟩

/-- Of two proposals that cross the later sweep is taken (R486). -/
theorem lpPropose_crosses (x : SN) (hlink : linkUp s.dev = true) :
    ActsR [pwrWord] [.pwr, .stagger, .hif, .twin, .pm] (.lpPropose x) s fun t =>
      EntryAccepted s.dev t.dev s.sn (if snFuture x u = true then x else u) 2 1 ∧ t.dev.twin = queuesOf s.dev.twin t.dev.twin := by
  refine actsR_of_record (typ := 0xC) rfl hcore fun d hd => ?_
  have hpwr : d.pwr = s.dev.pwr := hd.frame.parts .pwr (by simp)
  have hup : linkUp d = true := hd.frame.within.linkUp.trans hlink
  have heq : lpPropose x s.sn d = acceptEntry (if snFuture x u = true then x else u) 1 s.sn d := by
    simp [lpPropose, hup, hpwr, hpropose]
  rw [heq]
  exact ⟨(within_acceptEntry _ s.sn d 1).mono (List.Subset.refl _), (entryAccepted_agreed _ s.sn d).of_taken hd,
    hd.queuesOf (x := d.twin) rfl⟩

theorem lpReplyTimeout_refuses (hdue : snDue (u - 8) s.sn = true) : ActsR [pwrWord] [.pwr, .hif] .lpReplyTimeout s fun t =>
    EntryRefused s.dev t.dev s.sn 3 := by
  have heq : lpTimeout s.sn s.dev = refuseEntry 3 s.sn s.dev := by
    simp only [lpTimeout, hpropose]
    exact if_pos hdue
  exact (within_refuseEntry s.sn s.dev 3).actsR (exec_of_core rfl hcore heq) (entryRefused_refuseEntry _ _ _)

end

end

/-! ### The tick of T (R485) -/

/-- What each step of a fold establishes for its own element, and keeps for every other, holds of all of them at the end. -/
theorem forall_mem_foldl {α β : Type} {f : α → β → α} {P : β → α → Prop} (hset : ∀ a x, P x (f a x))
    (hkeep : ∀ a x y, P y a → P y (f a x)) (l : List β) (a : α) : ∀ y ∈ l, P y (l.foldl f a) := by
  induction l generalizing a with
  | nil => exact fun y hy => nomatch hy
  | cons x l ih =>
    intro y hy
    rcases List.mem_cons.1 hy with rfl | hy
    · exact List.foldlRecOn (motive := P y) l f (hset a y) fun b hb z _ => hkeep b z y hb
    · exact ih (f a x) y hy

/-- Transmitter off, and a receiver that is not off waits for its quad (R485). -/
def laneDown (d : Dev) (n : Nat) : Dev :=
  if rxSt (txSet d n 0) n = 0 then txSet d n 0 else rxSet (txSet d n 0) n 1

/-- The quad without power. -/
def quadDown (d : Dev) (q : Nat) : Dev := wrB (wr d F.LNE_QUAD_STATUS_PWR q 0) F.LNE_QUAD_STATUS_PLL_LOCK q false

/-- The lane ports from the tick of T on. -/
def portsDown (d : Dev) : Dev := (List.range 32).foldl quadDown ((List.range 128).foldl laneDown d)

theorem rd_laneDown_same (d : Dev) (n : Nat) : rd (laneDown d n) F.LNE_STATUS_TX_STATE n = 0 := by
  have htx : rd (txSet d n 0) F.LNE_STATUS_TX_STATE n = 0 := rd_wr_fits d (by decide)
  unfold laneDown
  split
  · exact htx
  · exact (rd_wr_apart _ (by decide)).trans htx

theorem rd_laneDown_of_off (d : Dev) (m : Nat) {n : Nat} (h : rd d F.LNE_STATUS_TX_STATE n = 0) :
    rd (laneDown d m) F.LNE_STATUS_TX_STATE n = 0 := by
  rcases eq_or_ne n m with rfl | hne
  · exact rd_laneDown_same d n
  · have htx : rd (txSet d m 0) F.LNE_STATUS_TX_STATE n = 0 :=
      (rd_wr_addr d _ _ m n 0 fun haddr => hne (Fld.addr_injective (by decide) haddr)).trans h
    unfold laneDown
    split
    · exact htx
    · exact (rd_wr_apart _ (by decide)).trans htx

theorem rd_quadDown_same (d : Dev) (q : Nat) : rd (quadDown d q) F.LNE_QUAD_STATUS_PWR q = 0 ∧
    rd (quadDown d q) F.LNE_QUAD_STATUS_PLL_LOCK q = 0 :=
  ⟨(rd_wr_apart _ (by decide)).trans (rd_wr_fits d (by decide)), rd_wrB_bit _ (by decide) false⟩

theorem rd_quadDown_of_off (d : Dev) (p : Nat) {q : Nat}
    (h : rd d F.LNE_QUAD_STATUS_PWR q = 0 ∧ rd d F.LNE_QUAD_STATUS_PLL_LOCK q = 0) :
    rd (quadDown d p) F.LNE_QUAD_STATUS_PWR q = 0 ∧ rd (quadDown d p) F.LNE_QUAD_STATUS_PLL_LOCK q = 0 := by
  rcases eq_or_ne q p with rfl | hne
  · exact rd_quadDown_same d q
  · have hword : quadWord q ≠ quadWord p := fun haddr => hne (Fld.addr_injective (by decide) haddr)
    have hframe : Within [quadWord p] [.regs] d (quadDown d p) := (Within.refl _ _ d).wr.wrB
    have hpwr : rd (quadDown d p) F.LNE_QUAD_STATUS_PWR q = rd d F.LNE_QUAD_STATUS_PWR q := hframe.rd (by simpa using hword)
    have hlock : rd (quadDown d p) F.LNE_QUAD_STATUS_PLL_LOCK q = rd d F.LNE_QUAD_STATUS_PLL_LOCK q := hframe.rd (by simpa using hword)
    rwa [hpwr, hlock]

theorem rd_quadDown_tx (d : Dev) (q n : Nat) : rd (quadDown d q) F.LNE_STATUS_TX_STATE n = rd d F.LNE_STATUS_TX_STATE n := by
  simp (disch := decide) only [quadDown, wrB, rd_wr_apart]

theorem rd_portsDown_tx (d : Dev) (n : Fin 128) : rd (portsDown d) F.LNE_STATUS_TX_STATE n = 0 :=
  (foldl_same (g := fun d => rd d F.LNE_STATUS_TX_STATE n) (fun d q => rd_quadDown_tx d q n) _ _).trans
    (forall_mem_foldl (P := fun n d => rd d F.LNE_STATUS_TX_STATE n = 0) rd_laneDown_same (fun d m _ => rd_laneDown_of_off d m)
      _ d n.val (List.mem_range.2 n.isLt))

theorem rd_portsDown_quad (d : Dev) (q : Fin 32) : rd (portsDown d) F.LNE_QUAD_STATUS_PWR q = 0 ∧
    rd (portsDown d) F.LNE_QUAD_STATUS_PLL_LOCK q = 0 :=
  forall_mem_foldl (P := fun q d => rd d F.LNE_QUAD_STATUS_PWR q = 0 ∧ rd d F.LNE_QUAD_STATUS_PLL_LOCK q = 0) rd_quadDown_same
    (fun d p _ => rd_quadDown_of_off d p) _ _ q.val (List.mem_range.2 q.isLt)

theorem portsDown_pwr (d : Dev) : (portsDown d).pwr = d.pwr := by
  have hlane (d : Dev) (n : Nat) : (laneDown d n).pwr = d.pwr := by
    unfold laneDown
    split <;> rfl
  exact (foldl_same (g := Dev.pwr) (f := quadDown) (fun _ _ => rfl) _ _).trans (foldl_same hlane _ d)

theorem entryTick_due {d : Dev} {sn e : SN} (he : d.pwr.entryT = some e)
    (hdue : ¬ (d.pwr.st ≠ .entry ∨ d.pwr.ticked = true ∨ (!snDue e sn) = true)) :
    entryTick sn d = onPwr { portsDown d with stagger := [] } fun p => { p with ticked := true, hbOff := p.agreed || !p.discard } := by
  unfold entryTick portsDown laneDown quadDown
  generalize List.range 128 = lanes, List.range 32 = quads
  rw [he]
  exact if_neg hdue

theorem entryTick_ports {s : State} {e : SN} (hcore : s.dev.pwr.core = true) (hst : s.dev.pwr.st = .entry)
    (hticked : s.dev.pwr.ticked = false) (he : s.dev.pwr.entryT = some e) (hdue : snDue e s.sn = true) :
    ∃ t, exec .entryTick s = .next t ∧ DevOnly s t ∧ t.dev.pwr.ticked = true ∧ t.dev.pwr.st = .entry ∧ t.dev.stagger = [] ∧
      (∀ n : Fin 128, rd t.dev F.LNE_STATUS_TX_STATE n = 0) ∧
      (∀ q : Fin 32, rd t.dev F.LNE_QUAD_STATUS_PWR q = 0 ∧ rd t.dev F.LNE_QUAD_STATUS_PLL_LOCK q = 0) := by
  have heq := entryTick_due he (sn := s.sn) (by simp [hst, hticked, hdue])
  obtain ⟨d, hd⟩ : ∃ d, d = portsDown s.dev := ⟨_, rfl⟩
  have htx := rd_portsDown_tx s.dev
  have hquad := rd_portsDown_quad s.dev
  have hpwr := portsDown_pwr s.dev
  rw [← hd] at heq htx hquad hpwr
  exact ⟨_, exec_of_core rfl hcore heq, devOnly_dev s _, rfl, (congrArg Pwr.st hpwr).trans hst, rfl, htx, hquad⟩

/-! ### The core reset of an entry (R485, R492) -/

/-- Lowering rails moves the sequencer alone. -/
theorem lowerRails_eq (d : Dev) : ∃ o en w, lowerRails d = onPwr d fun p => { p with ord := o, en := en, waitDly := w } := by
  unfold lowerRails
  split
  · exact ⟨d.pwr.ord, d.pwr.en, true, rfl⟩
  · exact ⟨_, _, _, rfl⟩

section
variable {s : State} (hst : s.dev.pwr.st = .entry) (hticked : s.dev.pwr.ticked = true) (hcore : s.dev.pwr.core = true)
include hst hticked hcore

theorem entryReset_of_noAvsStep (hstep : rdB s.dev F.PWR_AVS_STATUS_STEP = false) : ∃ o en w,
    entryReset s = { holdCore s with dev := onPwr (resetDev s.dev) fun p =>
      { p with resetDue := false, ord := o, en := en, waitDly := w } } := by
  obtain ⟨o, en, w, hlower⟩ := lowerRails_eq (onPwr (resetDev s.dev) fun p => { p with resetDue := false })
  refine ⟨o, en, w, ?_⟩
  have hdue : (s.dev.pwr.st == .entry && s.dev.pwr.ticked && s.dev.pwr.core) = true := by simp [hst, hticked, hcore]
  simp only [entryReset, hdue, hstep, Bool.not_true, Bool.false_eq_true, if_false]
  exact congrArg (fun d => { holdCore s with dev := d }) hlower

theorem entryCoreReset_holds (hstep : rd s.dev F.PWR_AVS_STATUS_STEP = 0) :
    ∃ t, exec .entryCoreReset s = .next t ∧ t.pending = s.pending ∧ t.sn = 0 ∧ t.lock = false ∧ t.dev.pwr.core = false ∧
      t.dev.pwr.st = .entry ∧ t.dev.pwr.latch = s.dev.pwr.latch ∧ t.dev.twin.latch = s.dev.twin.latch := by
  obtain ⟨o, en, w, heq⟩ := entryReset_of_noAvsStep hst hticked hcore (by simp [rdB, hstep])
  exact ⟨_, congrArg Host.Outcome.next heq, rfl, rfl, rfl, rfl, hst, rfl, rfl⟩

theorem entryCoreReset_waits (hstep : rd s.dev F.PWR_AVS_STATUS_STEP = 1) : Acts [.pwr] .entryCoreReset s fun t =>
    t.dev.pwr = { s.dev.pwr with resetDue := true } :=
  ((Within.refl [] _ s.dev).onPwr).acts (congrArg _ (entryReset_of_avsStep hst hticked hcore (by simp [rdB, hstep]))) rfl

theorem avsStepDone_resets (hdue : s.dev.pwr.resetDue = true) :
    ∃ t, exec .avsStepDone s = .next t ∧ t.pending = s.pending ∧ t.sn = 0 ∧ t.lock = false ∧ t.dev.pwr.core = false ∧
      t.dev.pwr.resetDue = false := by
  obtain ⟨o, en, w, heq⟩ := entryReset_of_noAvsStep (s := { s with dev := wrB s.dev F.PWR_AVS_STATUS_STEP 0 false })
    hst hticked hcore (rdB_wrB_avsStep s.dev false)
  have hdone : avsDone s = entryReset { s with dev := wrB s.dev F.PWR_AVS_STATUS_STEP 0 false } := if_pos hdue
  exact ⟨_, (exec_avsStepDone_of_core hcore).trans (congrArg _ (hdone.trans heq)), rfl, rfl, rfl, rfl, rfl⟩

end

/-! ### STANDBY (R480, R487) -/

/-- PWR_WAKE_STATUS as the entry leaves it (log entry 99). -/
def replayShown (d : Dev) (replay : Bool) : Dev := wrB (wr d F.PWR_WAKE_STATUS_SRC 0 0) F.PWR_WAKE_STATUS_REPLAYED 0 replay

/-- The sequencer in STANDBY. -/
def inStandby (d : Dev) : Dev :=
  onPwr d fun p => { p with st := .standby, armed := false, latch := 0, offMin := false, waitDly := false }

theorem rd_replayShown_src (d : Dev) (replay : Bool) : rd (replayShown d replay) F.PWR_WAKE_STATUS_SRC = 0 :=
  (rd_wr_apart _ (by decide)).trans (rd_wr_fits d (by decide))

theorem rd_replayShown_replayed (d : Dev) (replay : Bool) : rd (replayShown d replay) F.PWR_WAKE_STATUS_REPLAYED = replay.toNat :=
  rd_wrB_bit _ (by decide) replay

section
variable {s : State} (hlow : lowering s.dev = true) (hwait : s.dev.pwr.waitDly = true) (hoff : s.dev.pwr.en = 0)
include hlow hwait hoff

theorem standbyReached_of_no_wake (h : s.dev.pwr.latch = 0 ∨ s.dev.pwr.discard = true) :
    standbyReached s = { s with dev := inStandby (replayShown s.dev false) } := by
  have hreplay : (s.dev.pwr.latch != 0 && !s.dev.pwr.discard) = false := by
    rcases h with h | h <;> simp [h]
  simp only [standbyReached, hlow, hwait, hoff, hreplay, beq_self_eq_true, Bool.and_self, Bool.not_true, Bool.false_eq_true, if_false]
  rfl

/-- A wake latched on the way waits for OFF_MIN, which has just begun (R481). -/
theorem standbyReached_of_wake (hlatch : s.dev.pwr.latch ≠ 0) (hdiscard : s.dev.pwr.discard = false) :
    standbyReached s = { s with dev := onPwr (wakeSrc (inStandby (replayShown s.dev true)) s.dev.pwr.latch) fun p =>
      { p with wakeDue := true } } := by
  have hreplay : (s.dev.pwr.latch != 0 && !s.dev.pwr.discard) = true := by
    rw [bne_iff_ne.2 hlatch, hdiscard]
    rfl
  simp only [standbyReached, hlow, hwait, hoff, hreplay, beq_self_eq_true, Bool.and_self, Bool.not_true, Bool.false_eq_true, if_false,
    if_true]
  rfl

theorem standbyReached_stands : ∃ t, exec .standbyReached s = .next t ∧ t.pending = s.pending ∧
    ((s.dev.pwr.latch = 0 ∨ s.dev.pwr.discard = true) → t.dev.pwr.st = .standby ∧ rd t.dev F.PWR_WAKE_STATUS_REPLAYED = 0) ∧
    (s.dev.pwr.latch ≠ 0 → s.dev.pwr.discard = false → t.dev.pwr.st = .standby ∧ t.dev.pwr.wakeDue = true ∧
      rd t.dev F.PWR_WAKE_STATUS_REPLAYED = 1 ∧ rd t.dev F.PWR_WAKE_STATUS_SRC = s.dev.pwr.latch.toNat) := by
  refine ⟨standbyReached s, rfl, (keptFrom_standbyReached s).pending, fun h => ?_, fun hlatch hdiscard => ?_⟩
  · rw [standbyReached_of_no_wake hlow hwait hoff h]
    exact ⟨rfl, rd_replayShown_replayed s.dev false⟩
  · rw [standbyReached_of_wake hlow hwait hoff hlatch hdiscard]
    refine ⟨rfl, rfl, (rd_wr_apart _ (by decide)).trans (rd_replayShown_replayed s.dev true), (rd_wakeSrc _ _).trans ?_⟩
    have hsrc : rd (inStandby (replayShown s.dev true)) F.PWR_WAKE_STATUS_SRC = 0 := rd_replayShown_src s.dev true
    rw [hsrc, Nat.zero_or]

end

/-- Settles O55: a request or a proposal by what the twin says, the answers to this device's own proposal, then the course of
ENTRY. -/
theorem standbyIsRequestedAndEntered : Obligations.StandbyIsRequestedAndEntered := by
  unfold Obligations.StandbyIsRequestedAndEntered
  have accepts {a b : Dev} {sn e : SN} {off p1 : Nat} (h : EntryAccepted a b sn e off p1) :
      b.pwr.st = .entry ∧ b.pwr.armed = true ∧ b.pwr.latch = 0 ∧ b.pwr.entryT = some e ∧ b.stagger = [] ∧
        rd b F.PWR_STATUS_LAST_OFF = off ∧ Raised a b [{ typ := 0xB0, sn := sn, p0 := e.toNat, p1 := p1 }] :=
    ⟨h.st, h.armed, h.latch, h.entryT, h.stagger, h.lastOff, h.raised⟩
  have refuses {a b : Dev} {sn : SN} {why : Nat} (h : EntryRefused a b sn why) : b.pwr = { a.pwr with propose := none } ∧
      rd b F.PWR_STATUS_REFUSED = 1 ∧ Raised a b [{ typ := 0xB1, sn := sn, p0 := why }] := ⟨h.pwr, h.refused, h.raised⟩
  constructor
  · intro s ns x hcore hst
    refine ⟨fun hfree => ⟨?_, ?_, ?_, ?_, ?_⟩, fun u hpropose hlink => ⟨?_, ?_, ?_, ?_⟩⟩
    · exact fun htwin => (stbyReq_single hcore ns hst hfree htwin).weaken fun _ => accepts
    · exact fun htwin hlink => (stbyReq_unlinked hcore ns hst hfree htwin hlink).weaken fun _ => refuses
    · exact stbyReq_proposes hcore ns hst hfree
    · exact fun hlink hallow => (lpPropose_agrees hcore hst hfree x hlink hallow).weaken fun _ h => ⟨accepts h.1, h.2⟩
    · exact lpPropose_declines hcore hfree x
    · exact (lpAgree_accepts hcore hpropose).weaken fun _ h => ⟨accepts h.1, h.2⟩
    · exact (lpAgree_refuses hcore hpropose).weaken fun _ h => ⟨refuses h.1, h.2⟩
    · exact (lpPropose_crosses hcore hpropose x hlink).weaken fun _ h => ⟨accepts h.1, h.2⟩
    · exact fun hdue => (lpReplyTimeout_refuses hcore hpropose hdue).weaken fun _ => refuses
  · intro s
    exact ⟨fun e hcore hst hticked he hdue => entryTick_ports hcore hst hticked he hdue, entryCoreReset_holds, entryCoreReset_waits,
      avsStepDone_resets, standbyReached_stands⟩

end Sys2Proof.Machine
end

