-- ==== Sys2Proof/Proofs/Alarms.lean ====
section
/-! PROOFS. What several chapters share: TIM_STATUS as the DPLL shows itself (R410, R411), a device that fails (R298), and
non-maskable events (R350). -/

namespace Sys2Proof.Machine

/-! ### One bit of a number -/

/-- A number by the bits above bit `b`, that bit, and the bits below it. -/
def aroundBit (b c r : Nat) (v : Bool) : Nat := 2 ^ b * (2 * c + v.toNat) + r

theorem testBit_aroundBit {b c r j : Nat} (hr : r < 2 ^ b) (v : Bool) :
    (aroundBit b c r v).testBit j = if j < b then r.testBit j else if j = b then v else c.testBit (j - b - 1) := by
  rw [aroundBit, Nat.testBit_two_pow_mul_add _ hr]
  split
  · rfl
  · obtain ⟨k, rfl⟩ := Nat.exists_eq_add_of_le (Nat.le_of_not_lt ‹_›)
    cases k with
    | zero => cases v <;> simp [Nat.testBit_zero, Nat.add_mod]
    | succ k =>
      have : (2 * c + v.toNat) / 2 = c := by have := v.toNat_lt; omega
      simp [Nat.testBit_succ, this]

theorem eq_aroundBit (m b : Nat) : m = aroundBit b (m / 2 ^ b / 2) (m % 2 ^ b) (m.testBit b) := by
  have hbit : (m.testBit b).toNat = m / 2 ^ b % 2 := by
    rw [Nat.testBit_eq_decide_div_mod_eq]
    rcases Nat.mod_two_eq_zero_or_one (m / 2 ^ b) with h | h <;> simp [h]
  rw [aroundBit, hbit, Nat.div_add_mod, Nat.div_add_mod]

theorem setBit_eq (m b : Nat) (v : Bool) : setBit m b v = aroundBit b (m / 2 ^ b / 2) (m % 2 ^ b) v := by
  have hm := eq_aroundBit m b
  by_cases hsame : m.testBit b = v
  · rw [setBit, if_pos hsame, ← hsame, ← hm]
  · rw [setBit, if_neg hsame]
    cases v with
    | true =>
      simp only [Bool.not_eq_true] at hsame
      rw [hsame] at hm
      simp only [aroundBit, Bool.toNat_false, Bool.toNat_true, Nat.mul_add, Nat.mul_one, Nat.mul_zero, if_true] at hm ⊢
      omega
    | false =>
      simp only [Bool.not_eq_false] at hsame
      rw [hsame] at hm
      simp only [aroundBit, Bool.toNat_false, Bool.toNat_true, Nat.mul_add, Nat.mul_one, Nat.mul_zero] at hm ⊢
      simp only [Bool.false_eq_true, if_false]
      omega

/-- What setting one bit does to each bit. -/
theorem testBit_setBit (m b j : Nat) (v : Bool) : (setBit m b v).testBit j = if j = b then v else m.testBit j := by
  have hr : m % 2 ^ b < 2 ^ b := Nat.mod_lt _ (Nat.two_pow_pos b)
  have hm := congrArg (fun x => x.testBit j) (eq_aroundBit m b)
  simp only [testBit_aroundBit hr] at hm
  rw [setBit_eq, testBit_aroundBit hr]
  split <;> split <;> simp_all

theorem getLsbD_ofNat_setBit {n b j : Nat} (x : BitVec n) (hj : j < n) (v : Bool) :
    (BitVec.ofNat n (setBit x.toNat b v)).getLsbD j = if j = b then v else x.getLsbD j := by
  simp [testBit_setBit, hj, BitVec.getLsbD]
/-! ### Fields that share no bit -/

/-- No element of `g` shares a bit with one of `f`: by their bits, or by their words. -/
def Fld.clear (f g : Fld) : Bool := f.apart g || g.parted f

theorem rd_wr_clear (d : Dev) {f g : Fld} {i j v : Nat} (h : f.clear g = true) : rd (wr d f i v) g j = rd d g j := by
  rcases (Bool.or_eq_true _ _).mp h with h | h
  · exact rd_wr_apart d h
  · exact rd_wr_parted d h

/-! ### Steps that only raise events at the host interface -/

/-- Of the host interface only the waiting events change, by events that join them. -/
def RaisesOnly (a b : Dev) : Prop := ∃ es : List Ev, b.hif = { a.hif with evq := a.hif.evq ++ es }

namespace RaisesOnly

variable {a b c : Dev}

theorem of_same (h : b.hif = a.hif) : RaisesOnly a b := ⟨[], by simp [h]⟩

theorem refl (a : Dev) : RaisesOnly a a := of_same rfl

theorem trans (h : RaisesOnly a b) (k : RaisesOnly b c) : RaisesOnly a c := by
  obtain ⟨es, hes⟩ := h
  obtain ⟨fs, hfs⟩ := k
  exact ⟨es ++ fs, by simp [hfs, hes]⟩

theorem raise (h : RaisesOnly a b) (e : Ev) : RaisesOnly a (Machine.raise b e) := h.trans ⟨_, rfl⟩

theorem same (h : RaisesOnly a b) (k : c.hif = b.hif) : RaisesOnly a c := h.trans (of_same k)

theorem ite {p : Prop} [Decidable p] (h : RaisesOnly a b) (k : RaisesOnly a c) : RaisesOnly a (if p then b else c) := by
  split
  case isTrue => exact h
  case isFalse => exact k

end RaisesOnly

/-! ### TIM_STATUS -/

/-- TIM_STATUS. -/
abbrev timWord : Nat := F.TIM_STATUS_SEL.addr 0

@[simp] theorem addr_timState : F.TIM_STATUS_STATE.addr 0 = timWord := rfl
@[simp] theorem addr_timSpec : F.TIM_STATUS_HO_SPEC_RUN.addr 0 = timWord := rfl

section
variable (sn : SN) (d : Dev)

theorem within_dpllOwn (sel st : Nat) : Within [timWord] [.regs, .tim] d (dpllOwn sn d sel st) :=
  ((Within.refl _ _ d).only (only_tim d _)).wrB

theorem dpllOwn_hif (sel st : Nat) : (dpllOwn sn d sel st).hif = d.hif := rfl
theorem dpllOwn_sel (sel st : Nat) : (dpllOwn sn d sel st).tim.sel = sel := rfl
theorem dpllOwn_st (sel st : Nat) : (dpllOwn sn d sel st).tim.st = st := rfl

/-- TIM_STATUS with selection and state. -/
def dpllWord (d : Dev) (sel st : Nat) : Dev := wr (wr d F.TIM_STATUS_SEL 0 sel) F.TIM_STATUS_STATE 0 st

theorem within_dpllWord (sel st : Nat) : Within [timWord] [.regs] d (dpllWord d sel st) := (Within.refl _ _ d).wr.wr

theorem rd_dpllWord_sel {sel st : Nat} (h : sel < 2 ^ 4) : rd (dpllWord d sel st) F.TIM_STATUS_SEL = sel := by
  rw [dpllWord, rd_wr_apart _ (by decide), rd_wr_fits _ ⟨by decide, h⟩]

theorem rd_dpllWord_st {sel st : Nat} (h : st < 2 ^ 2) : rd (dpllWord d sel st) F.TIM_STATUS_STATE = st :=
  rd_wr_fits _ ⟨by decide, h⟩

theorem within_dpllShow : Within [timWord] [.regs, .hif] d (dpllShow sn d) :=
  (Within.ite (fun _ => (within_dpllWord d d.tim.sel d.tim.st).mono.raise) fun _ =>
    (within_dpllWord d d.tim.sel d.tim.st).mono) |>.trans (.ite (fun _ => (Within.refl _ _ _).raise) fun _ => .refl _ _ _)

theorem raisesOnly_dpllShow : RaisesOnly d (dpllShow sn d) :=
  have hword : RaisesOnly d (dpllWord d d.tim.sel d.tim.st) := .of_same rfl
  (RaisesOnly.ite (hword.raise _) hword).trans (.ite ((RaisesOnly.refl _).raise _) (.refl _))

/-- What TIM_STATUS shows. -/
theorem dpllShow_regs : (dpllShow sn d).regs = (dpllWord d d.tim.sel d.tim.st).regs := by
  simp [dpllShow, dpllWord, apply_ite Dev.regs]

theorem rd_dpllShow (f : Fld) (i : Nat) : rd (dpllShow sn d) f i = rd (dpllWord d d.tim.sel d.tim.st) f i := by
  simp only [rd, rdWord_congr (dpllShow_regs sn d)]

theorem within_dpllMove (sel st : Nat) : Within [timWord] [.regs, .tim, .hif] d (dpllMove sn d sel st) :=
  .ite (fun _ => (within_dpllOwn sn d sel st).mono) fun _ =>
    (within_dpllOwn sn d sel st).mono.next (within_dpllShow sn _)

theorem within_dpllUnlink : Within [timWord] [.regs, .tim, .hif] d (dpllUnlink sn d) :=
  .ite (fun _ => .refl _ _ d) fun _ => (within_dpllOwn sn d _ _).mono.next (within_dpllShow sn _)

theorem raisesOnly_dpllUnlink : RaisesOnly d (dpllUnlink sn d) :=
  .ite (.refl d) (raisesOnly_dpllShow sn _)

theorem dpllUnlink_same (h : rd d F.TIM_STATUS_SEL ≠ 8) : dpllUnlink sn d = d := if_pos h

theorem within_dpllLink : Within [timWord] [.regs, .hif] d (dpllLink sn d) := by
  refine .ite (fun _ => .refl _ _ d) fun _ => ?_
  have hword : Within [timWord] [.regs, .hif] d (dpllWord d 8 1) := (within_dpllWord d 8 1).mono
  exact .ite (fun _ => hword.raise) fun _ => hword.raise.raise

theorem raisesOnly_dpllLink : RaisesOnly d (dpllLink sn d) :=
  .ite (.refl d) (.ite ((RaisesOnly.refl d).raise _) (((RaisesOnly.refl d).raise _).raise _))

end

/-! ### TWN_STATUS -/

@[simp] theorem addr_link : F.TWN_STATUS_LINK.addr 0 = twinWord := rfl
@[simp] theorem addr_mateActive : F.TWN_STATUS_MATE_ACTIVE.addr 0 = twinWord := rfl
@[simp] theorem addr_mateAlive : F.TWN_STATUS_MATE_ALIVE.addr 0 = twinWord := rfl
@[simp] theorem addr_mateFail : F.TWN_STATUS_MATE_FAIL.addr 0 = twinWord := rfl

namespace Within

variable {as : List Nat} {ps : List Part} {a b : Dev}

theorem onTwin {g : Twin → Twin} (h : Within as ps a b) (hps : Part.twin ∈ ps := by simp) : Within as ps a (Machine.onTwin b g) :=
  h.only (only_twin b _) (by simp) (by simpa using hps)

theorem setCoupling {n : Nat} (h : Within as ps a b) (has : twinWord ∈ as := by simp) (hps : Part.regs ∈ ps := by simp) :
    Within as ps a (Machine.setCoupling b n) :=
  h.wr has hps

theorem lastCause {n : Nat} (h : Within as ps a b) (has : twinWord ∈ as := by simp) (hps : Part.regs ∈ ps := by simp) :
    Within as ps a (Machine.lastCause b n) :=
  h.wr has hps

theorem coupling (h : Within as ps a b) (has : twinWord ∉ as := by simp) : Machine.coupling b = Machine.coupling a := h.rd has

end Within

/-! ### A device that fails (R294, R298) -/

@[simp] theorem addr_lastCause : F.TWN_STATUS_LAST_CAUSE.addr 0 = twinWord := rfl
@[simp] theorem addr_coupling : F.TWN_STATUS_COUPLING.addr 0 = twinWord := rfl

/-- The twin of a device that has failed. -/
def failedTwin (w : Twin) : Twin := { w with role := .failed, latch := false, failOut := true, promoting := none, gpio := none }

section
variable (sn : SN) (d : Dev)

theorem only_endPromise : Only [.twin, .prot] d (endPromise d) := by
  intro p hp; cases p <;> simp_all [Part.same, endPromise]

/-- The state that a device takes as it fails, before TIM_STATUS follows. -/
def failedDev (d : Dev) : Dev :=
  wr (endPromise (wr { d with twin := { d.twin with role := .failed, latch := false, failOut := true } }
    F.TWN_STATUS_LAST_CAUSE 0 6)) F.TWN_STATUS_COUPLING 0 0

theorem within_failedDev : Within [twinWord] [.regs, .twin, .prot] d (failedDev d) :=
  (((Within.refl _ _ d).only (only_twin d _)).wr.only (only_endPromise _)).wr

theorem failedDev_twin : (failedDev d).twin = failedTwin d.twin := rfl
theorem failedDev_prot : (failedDev d).prot = { d.prot with stopped := false } := rfl
theorem failedDev_hif : (failedDev d).hif = d.hif := rfl

theorem rd_failedDev_cause : rd (failedDev d) F.TWN_STATUS_LAST_CAUSE = 6 := by
  rw [failedDev, rd_wr_apart _ (by decide)]
  exact rd_wr_fits _ (by decide)

theorem rd_failedDev_coupling : rd (failedDev d) F.TWN_STATUS_COUPLING = 0 := rd_wr_fits _ (by decide)

/-- A device that takes no role action, or has failed before (R295, R298). -/
theorem roleFail_idle (h : ((d.twin.role == .disabled && !d.twin.latch) || d.twin.role == .failed) = true) : roleFail sn d = d :=
  if_pos h

theorem roleFail_fails (hrole : d.twin.role ≠ .failed) (hidle : ¬ (d.twin.role = .disabled ∧ d.twin.latch = false)) :
    roleFail sn d = dpllUnlink sn (failedDev d) := by
  refine if_neg ?_
  simpa [hrole] using hidle

theorem within_roleFail : Within [twinWord, timWord] [.regs, .twin, .prot, .tim, .hif] d (roleFail sn d) :=
  .ite (fun _ => .refl _ _ d) fun _ => (within_failedDev d).mono.next (within_dpllUnlink sn _)

theorem raisesOnly_roleFail : RaisesOnly d (roleFail sn d) :=
  .ite (.refl d) ((RaisesOnly.of_same (failedDev_hif d)).trans (raisesOnly_dpllUnlink sn _))

/-- A device that fails. -/
structure Fails (a b : Dev) : Prop where
  twin : b.twin = failedTwin a.twin
  prot : b.prot = { a.prot with stopped := false }
  cause : rd b F.TWN_STATUS_LAST_CAUSE = 6
  coupling : rd b F.TWN_STATUS_COUPLING = 0

theorem fails_roleFail (hrole : d.twin.role ≠ .failed) (hidle : ¬ (d.twin.role = .disabled ∧ d.twin.latch = false)) :
    Fails d (roleFail sn d) := by
  rw [roleFail_fails sn d hrole hidle]
  have hframe := within_dpllUnlink sn (failedDev d)
  exact ⟨hframe.parts .twin (by simp), hframe.parts .prot (by simp), (hframe.rd (by decide)).trans (rd_failedDev_cause d),
    (hframe.rd (by decide)).trans (rd_failedDev_coupling d)⟩

end

/-! ### Messages and non-maskable events (R349, R350) -/

section
variable (d : Dev)

theorem within_sendMsi (v : Nat) : Within [F.MSIX_PBA.addr (v / 32)] [.regs, .out, .pm] d (sendMsi d v) :=
  .ite (fun _ => (Within.refl _ _ d).wr) fun _ => ((Within.refl _ _ d).emit).perf

theorem within_nmi : Within [F.MSIX_PBA.addr (rd d F.HIF_CFG_NMI_VEC / 32)] [.regs, .out, .pm, .hif] d (nmi d) :=
  ((Within.refl _ _ d).only (only_hif d _)).next (within_sendMsi _ _)

theorem nmi_hif (d : Dev) : (nmi d).hif = { d.hif with nmi := d.hif.nmi + 1 } := sendMsi_hif _ _

end

/-- What a non-maskable event with its cause of failure changes. -/
structure Alarm (bit : Nat) (a b : Dev) (e : Ev) : Prop where
  frame : Within [timWord, twinWord, F.MSIX_PBA.addr (rd a F.HIF_CFG_NMI_VEC / 32)]
    [.regs, .tim, .hif, .out, .pm, .twin, .prot] a b
  nmi : b.hif.nmi = a.hif.nmi + 1
  events : ∃ es, b.hif.evq = a.hif.evq ++ { e with sb := a.twin.role == .standby } :: es ∧
    ((rd a F.TWN_CFG_FAIL_MASK).testBit bit = false → es = [])
  stays : (rd a F.TWN_CFG_FAIL_MASK).testBit bit = false → b.twin = a.twin ∧ b.prot = a.prot ∧ b.tim = a.tim
  falls : (rd a F.TWN_CFG_FAIL_MASK).testBit bit = true → a.twin.role = .active → Fails a b

/-- The event, its message and the failure that FAIL_MASK makes of it. -/
def alarm (sn : SN) (bit : Nat) (e : Ev) (d : Dev) : Dev := failCause sn (nmi (raise d e)) bit

theorem rd_nmi_raise_mask (d : Dev) (e : Ev) : rd (nmi (raise d e)) F.TWN_CFG_FAIL_MASK = rd d F.TWN_CFG_FAIL_MASK := by
  refine (within_nmi (raise d e)).rd ?_
  simpa using Fld.addr_ne (by decide) _ _

theorem alarm_alarm (sn : SN) (bit : Nat) (e : Ev) (d : Dev) : Alarm bit d (alarm sn bit e d) e := by
  have hnmi : Within [timWord, twinWord, F.MSIX_PBA.addr (rd d F.HIF_CFG_NMI_VEC / 32)]
      [.regs, .tim, .hif, .out, .pm, .twin, .prot] d (nmi (raise d e)) :=
    ((Within.refl _ _ d).raise).next (within_nmi _)
  have hhif : (nmi (raise d e)).hif = { (raise d e).hif with nmi := d.hif.nmi + 1 } := nmi_hif _
  have htwin : (nmi (raise d e)).twin = d.twin := nmi_twin _
  have hprot : (nmi (raise d e)).prot = d.prot := nmi_prot _
  cases hbit : (rd d F.TWN_CFG_FAIL_MASK).testBit bit with
  | false =>
    have heq : alarm sn bit e d = nmi (raise d e) := by
      simp [alarm, failCause, rd_nmi_raise_mask, hbit]
    rw [heq]
    exact ⟨hnmi, congrArg Hif.nmi hhif, ⟨[], congrArg Hif.evq hhif, fun _ => rfl⟩, fun _ => ⟨htwin, hprot, nmi_tim _⟩,
      fun h => absurd h (by simp [hbit])⟩
  | true =>
    have heq : alarm sn bit e d = roleFail sn (nmi (raise d e)) := by
      simp [alarm, failCause, rd_nmi_raise_mask, hbit]
    rw [heq]
    obtain ⟨es, hes⟩ := raisesOnly_roleFail sn (nmi (raise d e))
    refine ⟨hnmi.next (within_roleFail sn _), ?_, ⟨es, ?_, ?_⟩, ?_, fun _ hrole => ?_⟩
    · rw [hes, hhif]
    · rw [hes, hhif]
      simp [raise]
    · simp [hbit]
    · simp [hbit]
    · obtain ⟨htw, hpr, hcause, hcoup⟩ := fails_roleFail sn (nmi (raise d e)) (by simp [hrole]) (by simp [hrole])
      exact ⟨htwin ▸ htw, hprot ▸ hpr, hcause, hcoup⟩

end Sys2Proof.Machine
end

