-- ==== Sys2Proof/Proofs/Telemetry.lean ====
section
/-! PROOFS. Health (R491 to R496): AVS, telemetry, the sensors, and the shutdown that they request. -/

namespace Sys2Proof.Machine

/-! ### Folds over a list with its indices -/

/-- What is observed at index `j` after a fold that touches it at its own element only. `I` holds all along. -/
theorem foldl_zipIdx_obs {σ α β : Type} {step : σ → α × Nat → σ} {obs : σ → β} {upd : α → β → β} {I : σ → Prop} {j : Nat}
    (hI : ∀ s x, I s → I (step s x)) (heq : ∀ s x, I s → obs (step s (x, j)) = upd x (obs s))
    (hne : ∀ s x i, I s → i < n → i ≠ j → obs (step s (x, i)) = obs s) {l : List α} (hn : l.length ≤ n) {s : σ} (hs : I s) :
    obs (l.zipIdx.foldl step s) = (l[j]?).elim (obs s) (upd · (obs s)) ∧ I (l.zipIdx.foldl step s) := by
  induction l using List.reverseRecOn with
  | nil => exact ⟨rfl, hs⟩
  | append_singleton l x ih =>
    obtain ⟨hobs, hI'⟩ := ih (by simp at hn; omega)
    simp only [List.length_append, List.length_singleton] at hn
    simp only [List.zipIdx_append, List.zipIdx_singleton, Nat.zero_add, List.foldl_append, List.foldl_cons, List.foldl_nil]
    refine ⟨?_, hI _ _ hI'⟩
    rcases lt_trichotomy j l.length with hlt | rfl | hgt
    · rw [hne _ _ _ hI' (by omega) (by omega), hobs, List.getElem?_append_left hlt]
    · rw [heq _ _ hI', hobs]
      simp
    · rw [hne _ _ _ hI' (by omega) (by omega), hobs, List.getElem?_eq_none (by omega), List.getElem?_eq_none (by simp; omega)]

/-- The elements that `g` picks from a list of at most `n`, by their indices below `n`. -/
theorem filterMap_zipIdx_eq {α γ : Type} (g : α × Nat → Option γ) {l : List α} {n : Nat} (hn : l.length ≤ n) :
    l.zipIdx.filterMap g = (List.finRange n).filterMap fun i => (l[i.val]?).bind fun x => g (x, i.val) := by
  have hrange : (List.finRange n).filterMap (fun i : Fin n => (l[i.val]?).bind fun x => g (x, i.val)) =
      (List.range n).filterMap fun i => (l[i]?).bind fun x => g (x, i) := by
    rw [← List.map_coe_finRange_eq_range, List.filterMap_map]
    rfl
  rw [hrange]
  clear hrange
  induction l using List.reverseRecOn generalizing n with
  | nil => simp
  | append_singleton l x ih =>
    obtain ⟨m, rfl⟩ := Nat.exists_eq_add_of_le hn
    simp only [List.length_append, List.length_singleton]
    have hsplit : List.range (l.length + 1 + m) = List.range l.length ++ (l.length :: List.range' (l.length + 1) m) := by
      rw [List.range_eq_range', List.range_eq_range', ← List.range'_succ, Nat.add_assoc, Nat.add_comm 1 m,
        ← List.range'_append_1, Nat.zero_add]
    have htail : (List.range' (l.length + 1) m).filterMap (fun i => ((l ++ [x])[i]?).bind fun x => g (x, i)) = [] := by
      refine List.filterMap_eq_nil_iff.2 fun i hi => ?_
      have := (List.mem_range'_1.1 hi).1
      rw [List.getElem?_eq_none (by simp; omega)]
      rfl
    have hhead : (List.range l.length).filterMap (fun i => ((l ++ [x])[i]?).bind fun x => g (x, i)) = l.zipIdx.filterMap g := by
      rw [ih le_rfl]
      refine List.filterMap_congr fun i hi => ?_
      rw [List.getElem?_append_left (List.mem_range.1 hi)]
    rw [hsplit, List.filterMap_append, List.filterMap_cons, htail, hhead, List.zipIdx_append, List.filterMap_append]
    simp [List.filterMap_cons]

/-! ### AVS (R491, R492) -/

/-- PWR_AVS_STATUS. -/
abbrev avsWord : Nat := F.PWR_AVS_STATUS_VSET.addr 0

@[simp] theorem addr_avsStep : F.PWR_AVS_STATUS_STEP.addr 0 = avsWord := rfl
@[simp] theorem addr_avsLimit : F.PWR_AVS_STATUS_AT_LIMIT.addr 0 = avsWord := rfl

section
variable (d : Dev) (sn : SN) (low k w : Nat) (lim : Bool)

/-- The limit of the output voltage is reached, or not. -/
def avsLimit (d : Dev) : Dev :=
  let e := wrB d F.PWR_AVS_STATUS_AT_LIMIT 0 lim
  if lim && !rdB d F.PWR_AVS_STATUS_AT_LIMIT then raise e { typ := 0xB5, sn := sn, p0 := k, p1 := low } else e

/-- A step to `w` begins. -/
def avsStep (d : Dev) : Dev := emit (wrB (wr d F.PWR_AVS_STATUS_VSET 0 w) F.PWR_AVS_STATUS_STEP 0 true) (.avsWrite w)

/-- The lowest process slack. -/
def lowest (p : BitVec 12) (ps : List (BitVec 12)) : Nat := ps.foldl (fun m y => min m y.toNat) p.toNat

theorem avsLoop_idle (p : BitVec 12) (ps : List (BitVec 12))
    (h : rd d F.PWR_AVS_CFG_EN = 0 ∨ rd d F.PWR_AVS_STATUS_STEP = 1) : avsLoop (p :: ps) sn d = d :=
  if_pos (by simpa [rdB] using h.imp_right (fun h => by omega))

theorem avsLoop_runs (p : BitVec 12) (ps : List (BitVec 12)) (hen : rd d F.PWR_AVS_CFG_EN = 1)
    (hstep : rd d F.PWR_AVS_STATUS_STEP = 0) :
    avsLoop (p :: ps) sn d =
      if lowest p ps < rd d F.PWR_AVS_CFG_MARGIN then
        (if rd d F.PWR_AVS_STATUS_VSET + 5 ≤ rd d F.PWR_AVS_CFG_VMAX then
          avsLimit sn (lowest p ps) 1 (decide (rd d F.PWR_AVS_CFG_VMAX < rd d F.PWR_AVS_STATUS_VSET + 10))
            (avsStep (rd d F.PWR_AVS_STATUS_VSET + 5) d)
        else avsLimit sn (lowest p ps) 1 true d)
      else if rd d F.PWR_AVS_CFG_MARGIN + 8 < lowest p ps then
        (if rd d F.PWR_AVS_CFG_VMIN + 5 ≤ rd d F.PWR_AVS_STATUS_VSET then
          avsLimit sn (lowest p ps) 0 (decide (rd d F.PWR_AVS_STATUS_VSET < rd d F.PWR_AVS_CFG_VMIN + 10))
            (avsStep (rd d F.PWR_AVS_STATUS_VSET - 5) d)
        else avsLimit sn (lowest p ps) 0 true d)
      else d :=
  if_neg (by simp [rdB, hen, hstep])

theorem within_avsLimit : Within [avsWord] [.regs, .hif] d (avsLimit sn low k lim d) :=
  .ite (fun _ => (Within.refl _ _ d).wrB.raise) fun _ => (Within.refl _ _ d).wrB

theorem within_avsStep : Within [avsWord] [.regs, .out] d (avsStep w d) := ((Within.refl _ _ d).wr.wrB).emit

theorem avsLimit_regs : (avsLimit sn low k lim d).regs = (wrB d F.PWR_AVS_STATUS_AT_LIMIT 0 lim).regs := by
  simp [avsLimit, apply_ite Dev.regs]

/-- The fields of PWR_AVS_STATUS, with what AVS sends and raises. -/
structure AvsShows (a b : Dev) (w step : Nat) (lim : Bool) (os : List Out) (es : List Ev) : Prop where
  vset : rd b F.PWR_AVS_STATUS_VSET = w
  step : rd b F.PWR_AVS_STATUS_STEP = step
  limit : rdB b F.PWR_AVS_STATUS_AT_LIMIT = lim
  sent : Sent a b os
  raised : Raised a b es

/-- The event of a limit that had not been reached. -/
def limitEvents (was : Nat) : List Ev := if lim = true ∧ was = 0 then [{ typ := 0xB5, sn := sn, p0 := k, p1 := low }] else []

theorem avsShows_limit (hstep : rd d F.PWR_AVS_STATUS_STEP = s) :
    AvsShows d (avsLimit sn low k lim d) (rd d F.PWR_AVS_STATUS_VSET) s lim []
      (limitEvents sn low k lim (rd d F.PWR_AVS_STATUS_AT_LIMIT)) := by
  have hrd (f : Fld) (i : Nat) : rd (avsLimit sn low k lim d) f i = rd (wrB d F.PWR_AVS_STATUS_AT_LIMIT 0 lim) f i := by
    simp only [rd, rdWord_congr (avsLimit_regs d sn low k lim)]
  refine ⟨?_, ?_, ?_, ?_, ?_⟩
  · rw [hrd, rd_wrB_apart _ (by decide)]
  · rw [hrd, rd_wrB_apart _ (by decide), hstep]
  · rw [rdB, hrd, rd_wrB_bit _ (by decide)]
    cases lim <;> rfl
  · exact (within_avsLimit d sn low k lim).parts .out (by simp) |>.trans (by simp)
  · by_cases hnew : lim = true ∧ rd d F.PWR_AVS_STATUS_AT_LIMIT = 0
    · simp [avsLimit, limitEvents, hnew, rdB, Raised, raise]
    · have : (lim && !rdB d F.PWR_AVS_STATUS_AT_LIMIT) = false := by simpa [rdB] using hnew
      simp [avsLimit, limitEvents, hnew, this, Raised]

theorem avsShows_step (hw : w < 2 ^ 10) :
    AvsShows d (avsLimit sn low k lim (avsStep w d)) w 1 lim [.avsWrite w]
      (limitEvents sn low k lim (rd d F.PWR_AVS_STATUS_AT_LIMIT)) := by
  have hemit (f : Fld) (i : Nat) : rd (avsStep w d) f i = rd (wrB (wr d F.PWR_AVS_STATUS_VSET 0 w) F.PWR_AVS_STATUS_STEP 0 true) f i := rfl
  have hstep : rd (avsStep w d) F.PWR_AVS_STATUS_STEP = 1 := by rw [hemit, rd_wrB_bit _ (by decide)]; rfl
  have hvset : rd (avsStep w d) F.PWR_AVS_STATUS_VSET = w := by
    rw [hemit, rd_wrB_apart _ (by decide), rd_wr_fits _ ⟨by decide, hw⟩]
  have hwas : rd (avsStep w d) F.PWR_AVS_STATUS_AT_LIMIT = rd d F.PWR_AVS_STATUS_AT_LIMIT := by
    rw [hemit, rd_wrB_apart _ (by decide), rd_wr_apart _ (by decide)]
  obtain ⟨h1, h2, h3, h4, h5⟩ := avsShows_limit (avsStep w d) sn low k lim hstep
  exact ⟨h1.trans hvset, h2, h3, by simpa [Sent, avsStep, emit] using h4, (hwas ▸ h5).of_same rfl rfl rfl⟩

end

/-! ### Telemetry (R493) -/

/-- A reading of one rail: voltage, current and temperature, each `none` where the transaction failed. -/
abbrev RailReading : Type := Option (BitVec 16) × Option (BitVec 16) × Option (BitVec 8)

/-- The transactions of a rail that failed. -/
def misses (x : RailReading) : Nat := x.1.isNone.toNat + x.2.1.isNone.toNat + x.2.2.isNone.toNat

/-- A reading is stored where there is one. -/
def putSome (f : Fld) (r : Nat) (v : Option Nat) (d : Dev) : Dev := match v with
  | some v => wr d f r v
  | none => d

/-- The readings of rail `x.2`. -/
def telStep (d : Dev) (x : RailReading × Nat) : Dev :=
  sat (putSome F.PWR_TEL_TEMP x.2 (x.1.2.2.map BitVec.toNat) (putSome F.PWR_TEL_IOUT x.2 (x.1.2.1.map BitVec.toNat)
    (putSome F.PWR_TEL_VOUT x.2 (x.1.1.map BitVec.toNat) d))) F.PWR_TEL_ERR x.2 (misses x.1)

/-- The telemetry registers after the readings. -/
def telAll (rails : List RailReading) (d : Dev) : Dev := (rails.take 6).zipIdx.foldl telStep d

theorem pmbus_eq (rails : List RailReading) (sn : SN) (d : Dev) :
    pmbus rails sn d = match (rails.take 6).zipIdx.find? fun x => misses x.1 != 0 with
      | some x => raise (telAll rails d) { typ := 0xB6, sn := sn, p0 := x.2 }
      | none => telAll rails d := rfl

section
variable (d : Dev) (f : Fld) (r : Nat) (v : Option Nat)

theorem rd_putSome_clear {g : Fld} {j : Nat} (h : f.clear g = true) : rd (putSome f r v d) g j = rd d g j := by
  cases v with
  | none => rfl
  | some x => exact rd_wr_clear d h

theorem rd_putSome_addr {g : Fld} {j : Nat} (h : g.addr j ≠ f.addr r) : rd (putSome f r v d) g j = rd d g j := by
  cases v with
  | none => rfl
  | some x => exact rd_wr_addr d f g r j x h

theorem within_putSome : Within [f.addr r] [.regs] d (putSome f r v d) := by
  cases v with
  | none => exact .refl _ _ d
  | some x => exact (Within.refl _ _ d).wr

end

/-- PWR_TEL_VOUT and PWR_TEL_TEMP words of the rails. -/
abbrev telRegs : List Nat := (List.range 6).map (F.PWR_TEL_VOUT.addr ·) ++ (List.range 6).map (F.PWR_TEL_TEMP.addr ·)

theorem telWords_mem {r : Nat} (hr : r < 6) : F.PWR_TEL_VOUT.addr r ∈ telRegs ∧ F.PWR_TEL_TEMP.addr r ∈ telRegs :=
  ⟨List.mem_append_left _ (List.mem_map.2 ⟨r, List.mem_range.2 hr, rfl⟩),
    List.mem_append_right _ (List.mem_map.2 ⟨r, List.mem_range.2 hr, rfl⟩)⟩

theorem within_telStep (d : Dev) (x : RailReading × Nat) (hx : x.2 < 6) : Within telRegs [.regs] d (telStep d x) := by
  obtain ⟨hv, ht⟩ := telWords_mem hx
  have hiout : F.PWR_TEL_IOUT.addr x.2 = F.PWR_TEL_VOUT.addr x.2 := rfl
  have herr : F.PWR_TEL_ERR.addr x.2 = F.PWR_TEL_TEMP.addr x.2 := rfl
  refine Within.sat (((((Within.refl _ _ d).next (within_putSome _ _ _ _) ?_).next (within_putSome _ _ _ _) ?_).next
    (within_putSome _ _ _ _) ?_)) (by rw [herr]; exact ht) <;>
  simpa only [List.cons_subset, List.nil_subset, and_true, hiout]

theorem index_lt_of_mem_take {α : Type} {l : List α} {n : Nat} {x : α × Nat} (h : x ∈ (l.take n).zipIdx) : x.2 < n := by
  exact lt_of_lt_of_le (List.snd_lt_of_mem_zipIdx h) (by simp)

theorem within_telAll (rails : List RailReading) (d : Dev) : Within telRegs [.regs] d (telAll rails d) :=
  .foldl (fun d x hx => within_telStep d x (index_lt_of_mem_take hx)) d

/-- What a rail's reading makes of an old value. -/
def readingOr {n : Nat} (v : Option (BitVec n)) (old : Nat) : Nat := v.elim old BitVec.toNat

theorem rd_putSome_reading (d : Dev) {f : Fld} {r n : Nat} (v : Option (BitVec n)) (hf : f.lo + f.wd ≤ 32 ∧ f.wd = n) :
    rd (putSome f r (v.map BitVec.toNat) d) f r = readingOr v (rd d f r) := by
  cases v with
  | none => rfl
  | some x => exact rd_wr_fits d ⟨hf.1, hf.2 ▸ x.isLt⟩

section
variable (d : Dev) (x : RailReading) (r : Nat)

theorem rd_telStep_vout : rd (telStep d (x, r)) F.PWR_TEL_VOUT r = readingOr x.1 (rd d F.PWR_TEL_VOUT r) := by
  simp (disch := decide) only [telStep, sat, rd_wr_clear, rd_putSome_clear]
  rw [rd_putSome_reading _ _ (by decide)]

theorem rd_telStep_iout : rd (telStep d (x, r)) F.PWR_TEL_IOUT r = readingOr x.2.1 (rd d F.PWR_TEL_IOUT r) := by
  simp (disch := decide) only [telStep, sat, rd_wr_clear, rd_putSome_clear]
  rw [rd_putSome_reading _ _ (by decide), rd_putSome_clear _ _ _ _ (by decide)]

theorem rd_telStep_temp : rd (telStep d (x, r)) F.PWR_TEL_TEMP r = readingOr x.2.2 (rd d F.PWR_TEL_TEMP r) := by
  simp (disch := decide) only [telStep, sat, rd_wr_clear]
  rw [rd_putSome_reading _ _ (by decide)]
  simp (disch := decide) only [rd_putSome_clear]

theorem rd_telStep_err : rd (telStep d (x, r)) F.PWR_TEL_ERR r = satAdd 16 (rd d F.PWR_TEL_ERR r) (misses x) := by
  rw [telStep, rd_sat_same _ (by decide)]
  simp (disch := decide) only [rd_putSome_clear]
  rfl

/-- The readings of one rail do not reach the registers of another. -/
theorem rd_telStep_other {f : Fld} {j : Nat} (hv : f.addr j ≠ F.PWR_TEL_VOUT.addr r) (ht : f.addr j ≠ F.PWR_TEL_TEMP.addr r) :
    rd (telStep d (x, r)) f j = rd d f j := by
  have herr : f.addr j ≠ F.PWR_TEL_ERR.addr r := ht
  have hiout : f.addr j ≠ F.PWR_TEL_IOUT.addr r := hv
  rw [telStep, sat, rd_wr_addr _ _ _ _ _ _ herr, rd_putSome_addr _ _ _ _ ht, rd_putSome_addr _ _ _ _ hiout,
    rd_putSome_addr _ _ _ _ hv]

end

/-- A field of a rail after the readings, by what its own rail's reading makes of it. -/
theorem rd_telAll {f : Fld} {upd : RailReading → Nat → Nat} {j : Nat} (hj : j < 6) (rails : List RailReading) (d : Dev)
    (hself : ∀ d x, rd (telStep d (x, j)) f j = upd x (rd d f j))
    (hv : ∀ i < 6, i ≠ j → f.addr j ≠ F.PWR_TEL_VOUT.addr i) (ht : ∀ i < 6, i ≠ j → f.addr j ≠ F.PWR_TEL_TEMP.addr i) :
    rd (telAll rails d) f j = (rails[j]?).elim (rd d f j) (upd · (rd d f j)) := by
  have hfold := (foldl_zipIdx_obs (n := 6) (step := telStep) (obs := fun d => rd d f j) (I := fun _ => True) (upd := upd)
    (fun _ _ _ => trivial) (fun d x _ => hself d x) (fun d x i _ hi hne => rd_telStep_other d x i (hv i hi hne) (ht i hi hne))
    (l := rails.take 6) (by simp) (s := d) trivial).1
  rw [telAll, hfold, List.getElem?_take, if_pos hj]

theorem voutWord_ne {i j : Nat} (hi : i < 6) (hj : j < 6) (hne : i ≠ j) : F.PWR_TEL_VOUT.addr j ≠ F.PWR_TEL_VOUT.addr i :=
  fun h => hne (Fld.addr_inj (by decide) hi hj h.symm)
theorem tempWord_ne {i j : Nat} (hi : i < 6) (hj : j < 6) (hne : i ≠ j) : F.PWR_TEL_TEMP.addr j ≠ F.PWR_TEL_TEMP.addr i :=
  fun h => hne (Fld.addr_inj (by decide) hi hj h.symm)

theorem elim_readingOr {n : Nat} (o : Option RailReading) (g : RailReading → Option (BitVec n)) (old : Nat) :
    o.elim old (fun x => readingOr (g x) old) = (o.bind g).elim old BitVec.toNat := by
  cases o <;> rfl

/-- The transactions of rail `r` that failed. -/
def missesAt (rails : List RailReading) (r : Nat) : Nat := match rails[r]? with
  | some x => x.1.isNone.toNat + x.2.1.isNone.toNat + x.2.2.isNone.toNat
  | none => 0

theorem missesAt_eq (rails : List RailReading) (r : Nat) : missesAt rails r = (rails[r]?).elim 0 misses := by
  unfold missesAt
  cases rails[r]? <;> rfl

theorem find_miss_none {rails : List RailReading} (h : ∀ r : Fin 6, missesAt rails r = 0) :
    ((rails.take 6).zipIdx.find? fun x => misses x.1 != 0) = none := by
  refine List.find?_eq_none.2 fun x hx => ?_
  have hlt := index_lt_of_mem_take hx
  obtain ⟨-, -, hget⟩ := List.mk_mem_zipIdx_iff_getElem?.1 hx |> fun h => (⟨trivial, trivial, h⟩ : True ∧ True ∧ _)
  have hmiss := h ⟨x.2, hlt⟩
  rw [List.getElem?_take, if_pos hlt] at hget
  simpa [missesAt_eq, hget] using hmiss

theorem find_miss_some {rails : List RailReading} {r : Nat} (hr : r < 6) (hmiss : missesAt rails r ≠ 0)
    (hfirst : ∀ q < r, missesAt rails q = 0) :
    ∃ x, ((rails.take 6).zipIdx.find? fun x => misses x.1 != 0) = some (x, r) := by
  rw [missesAt_eq] at hmiss
  obtain ⟨x, hx⟩ : ∃ x, rails[r]? = some x := Option.ne_none_iff_exists'.1 fun h => hmiss (by simp [h])
  obtain ⟨hlen, hget⟩ := List.getElem?_eq_some_iff.1 hx
  refine ⟨x, List.find?_eq_some_iff_getElem.2 ⟨by simpa [hx] using hmiss, r, by simp; omega, by simp [hget], fun q hq => ?_⟩⟩
  have := hfirst q hq
  rw [missesAt_eq, List.getElem?_eq_getElem (by omega)] at this
  simpa using this

theorem pmbusTelemetry_acts {s : State} (hcore : s.dev.pwr.core = true) (rails : List RailReading) :
    ActsR telRegs [.hif] (.pmbusTelemetry rails) s fun t =>
      (∀ r : Fin 6,
        rd t.dev F.PWR_TEL_VOUT r = ((rails[r.val]?).bind (·.1)).elim (rd s.dev F.PWR_TEL_VOUT r) BitVec.toNat ∧
        rd t.dev F.PWR_TEL_IOUT r = ((rails[r.val]?).bind (·.2.1)).elim (rd s.dev F.PWR_TEL_IOUT r) BitVec.toNat ∧
        rd t.dev F.PWR_TEL_TEMP r = ((rails[r.val]?).bind (·.2.2)).elim (rd s.dev F.PWR_TEL_TEMP r) BitVec.toNat ∧
        rd t.dev F.PWR_TEL_ERR r = satAdd 16 (rd s.dev F.PWR_TEL_ERR r) (missesAt rails r)) ∧
      ((∀ r : Fin 6, missesAt rails r = 0) → Raised s.dev t.dev []) ∧
      (∀ r : Fin 6, missesAt rails r ≠ 0 → (∀ q : Fin 6, q < r → missesAt rails q = 0) →
        Raised s.dev t.dev [{ typ := 0xB6, sn := s.sn, p0 := r }]) := by
  have hwithin := within_telAll rails s.dev
  have hhif : (telAll rails s.dev).hif = s.dev.hif := hwithin.parts .hif (by simp)
  have htwin : (telAll rails s.dev).twin = s.dev.twin := hwithin.parts .twin (by simp)
  have hregs : (pmbus rails s.sn s.dev).regs = (telAll rails s.dev).regs := by
    rw [pmbus_eq]; split <;> rfl
  have hrd (f : Fld) (i : Nat) : rd (pmbus rails s.sn s.dev) f i = rd (telAll rails s.dev) f i := by
    simp only [rd, rdWord_congr hregs]
  refine Within.actsR (e := pmbus rails s.sn s.dev) ?_ (exec_of_core rfl hcore rfl) ⟨fun ⟨r, hr⟩ => ⟨?_, ?_, ?_, ?_⟩, ?_, ?_⟩
  · rw [pmbus_eq]
    split
    · exact hwithin.mono.raise
    · exact hwithin.mono
  · rw [hrd, rd_telAll hr _ _ (fun d x => rd_telStep_vout d x r) (fun i hi hne => voutWord_ne hi hr hne)
      (fun i _ _ => Fld.addr_ne (by decide) _ _), elim_readingOr]
  · rw [hrd, rd_telAll hr _ _ (fun d x => rd_telStep_iout d x r) (fun i hi hne => voutWord_ne hi hr hne)
      (fun i _ _ => Fld.addr_ne (by decide) _ _), elim_readingOr]
  · rw [hrd, rd_telAll hr _ _ (fun d x => rd_telStep_temp d x r) (fun i _ _ => Fld.addr_ne (by decide) _ _)
      (fun i hi hne => tempWord_ne hi hr hne), elim_readingOr]
  · rw [hrd, rd_telAll (upd := fun x old => satAdd 16 old (misses x)) hr _ _ (fun d x => rd_telStep_err d x r)
      (fun i _ _ => Fld.addr_ne (by decide) _ _) (fun i hi hne => tempWord_ne hi hr hne), missesAt_eq]
    have hlt : rd s.dev F.PWR_TEL_ERR r < 2 ^ 16 := rd_lt _ _ _
    cases rails[r]? with
    | some x => rfl
    | none => simp [satAdd]; omega
  · intro hnone
    simp [pmbus_eq, find_miss_none hnone, Raised, hhif]
  · intro r hmiss hfirst
    obtain ⟨x, hx⟩ := find_miss_some r.isLt hmiss fun q hq => hfirst ⟨q, by omega⟩ hq
    simp [pmbus_eq, hx, Raised, raise, hhif, htwin]

end Sys2Proof.Machine
end

