-- ==== Sys2Proof/Proofs/Sensors.lean ====
section
/-! PROOFS. The sensors and the shutdown that they request (R494 to R496). -/

namespace Sys2Proof.Machine

/-! ### The readings as stored -/

/-- The readings `l` of the sensors of `f`. -/
def putReadings (f : Fld) (n : Nat) (l : List (BitVec 12)) (d : Dev) : Dev :=
  (l.take n).zipIdx.foldl (fun d x => wr d f x.2 x.1.toNat) d

/-- The words of a sensor table. -/
abbrev sensorWords (f : Fld) (n : Nat) : List Nat := (List.range n).map (f.addr ·)

section
variable (f : Fld) (n : Nat) (l : List (BitVec 12)) (d : Dev)

theorem within_putReadings : Within (sensorWords f n) [.regs] d (putReadings f n l d) :=
  .foldl (fun _ x hx => (Within.refl _ _ _).wr
    (List.mem_map.2 ⟨x.2, List.mem_range.2 (index_lt_of_mem_take hx), rfl⟩)) d

theorem rd_putReadings_clear {g : Fld} {j : Nat} (h : f.clear g = true) : rd (putReadings f n l d) g j = rd d g j := by
  unfold putReadings
  exact foldl_same (g := fun d => rd d g j) (fun d x => rd_wr_clear d h) _ _

theorem rd_putReadings {j : Nat} (hf : (f.s1 = 0 ∧ 0 < f.s2) ∧ f.n2 = n ∧ f.lo + f.wd ≤ 32 ∧ f.wd = 12) (hj : j < n)
    {v : BitVec 12} (hv : l[j]? = some v) : rd (putReadings f n l d) f j = v.toNat := by
  obtain ⟨htbl, rfl, hlo, hwd⟩ := hf
  have hfits (x : BitVec 12) : x.toNat < 2 ^ f.wd := by rw [hwd]; exact x.isLt
  have hfold := (foldl_zipIdx_obs (n := f.n2) (step := fun d (x : BitVec 12 × Nat) => wr d f x.2 x.1.toNat)
    (obs := fun d => rd d f j) (I := fun _ => True) (upd := fun x _ => x.toNat) (fun _ _ _ => trivial)
    (fun d x _ => rd_wr_fits d ⟨hlo, hfits x⟩)
    (fun d x i _ hi hne => rd_wr_index d htbl hi hj (Ne.symm hne)) (l := l.take f.n2) (by simp) (s := d) trivial).1
  rw [putReadings, hfold, List.getElem?_take, if_pos hj, hv]
  rfl

end

/-! ### Voltage monitors (R494) -/

section
variable (sn : SN)

/-- A monitor that leaves its window. -/
def vmonEvent (d : Dev) (x : BitVec 12 × Nat) : Option Ev :=
  if vmonBad d x.2 x.1.toNat && !d.pwr.vmon.getLsbD x.2 then some { typ := 0xB4, sn := sn, p0 := x.2, p1 := x.1.toNat } else none

/-- The reading of monitor `x.2` is judged. -/
def vmonStep (d : Dev) (x : BitVec 12 × Nat) : Dev :=
  let e := onPwr d fun p => { p with vmon := BitVec.ofNat 12 (setBit p.vmon.toNat x.2 (vmonBad d x.2 x.1.toNat)) }
  if vmonBad d x.2 x.1.toNat && !d.pwr.vmon.getLsbD x.2 then raise e { typ := 0xB4, sn := sn, p0 := x.2, p1 := x.1.toNat } else e

/-- What the judgement of readings leaves: registers and twin, of power all but the monitors, of the host interface all
but the events, which are `es`. -/
structure VmonJudged (a b : Dev) (es : List Ev) : Prop where
  frame : Within [] [.pwr, .hif] a b
  pwr : b.pwr = { a.pwr with vmon := b.pwr.vmon }
  hif : b.hif = { a.hif with evq := a.hif.evq ++ es.map fun e => { e with sb := a.twin.role == .standby } }

variable (d : Dev)

theorem vmonJudged_step (x : BitVec 12 × Nat) : VmonJudged d (vmonStep sn d x) (vmonEvent sn d x).toList := by
  unfold vmonStep vmonEvent
  split
  · exact ⟨(Within.refl _ _ d).onPwr.raise, rfl, rfl⟩
  · exact ⟨(Within.refl _ _ d).onPwr, rfl, by simp⟩

theorem VmonJudged.trans {a b c : Dev} {es fs : List Ev} (h : VmonJudged a b es) (k : VmonJudged b c fs) :
    VmonJudged a c (es ++ fs) := by
  have htwin : b.twin = a.twin := h.frame.parts .twin (by simp)
  refine ⟨h.frame.trans k.frame, ?_, ?_⟩
  · rw [k.pwr, h.pwr]
  · rw [k.hif, h.hif, htwin]
    simp

theorem VmonJudged.vmonBad {a b : Dev} {es : List Ev} (h : VmonJudged a b es) (v mv : Nat) : vmonBad b v mv = vmonBad a v mv := by
  have hvset : rd b F.PWR_AVS_STATUS_VSET = rd a F.PWR_AVS_STATUS_VSET := h.frame.rd (by simp)
  simp only [Machine.vmonBad, hvset]

theorem vmon_step (x : BitVec 12 × Nat) {j : Nat} (hj : j < 12) :
    (vmonStep sn d x).pwr.vmon.getLsbD j = if j = x.2 then vmonBad d x.2 x.1.toNat else d.pwr.vmon.getLsbD j := by
  unfold vmonStep
  split <;> exact getLsbD_ofNat_setBit _ hj _

/-- The monitors of a reading in which `i` reads `l[i]`. -/
def vmonAfter (l : List (BitVec 12)) (i : Nat) : Bool := (l[i]?).elim (d.pwr.vmon.getLsbD i) fun v => vmonBad d i v.toNat

theorem vmon_fold {l : List (BitVec 12)} (hl : l.length ≤ 12) :
    VmonJudged d (l.zipIdx.foldl (vmonStep sn) d) (l.zipIdx.filterMap (vmonEvent sn d)) ∧
      ∀ j < 12, (l.zipIdx.foldl (vmonStep sn) d).pwr.vmon.getLsbD j = vmonAfter d l j := by
  induction l using List.reverseRecOn with
  | nil => exact ⟨⟨.refl _ _ d, rfl, by simp⟩, fun _ _ => rfl⟩
  | append_singleton l x ih =>
    simp only [List.length_append, List.length_singleton] at hl
    obtain ⟨hjudged, hbits⟩ := ih (by omega)
    simp only [List.zipIdx_append, List.zipIdx_singleton, Nat.zero_add, List.foldl_append, List.foldl_cons, List.foldl_nil,
      List.filterMap_append]
    have hown : (l.zipIdx.foldl (vmonStep sn) d).pwr.vmon.getLsbD l.length = d.pwr.vmon.getLsbD l.length := by
      rw [hbits _ (by omega), vmonAfter, List.getElem?_eq_none le_rfl]
      rfl
    have hevent : vmonEvent sn (l.zipIdx.foldl (vmonStep sn) d) (x, l.length) = vmonEvent sn d (x, l.length) := by
      simp only [vmonEvent, hjudged.vmonBad, hown]
    refine ⟨?_, fun j hj => ?_⟩
    · have hstep := vmonJudged_step sn (l.zipIdx.foldl (vmonStep sn) d) (x, l.length)
      rw [hevent] at hstep
      have heq : List.filterMap (vmonEvent sn d) [(x, l.length)] = (vmonEvent sn d (x, l.length)).toList := by
        cases h : vmonEvent sn d (x, l.length) <;> simp [h]
      rw [heq]
      exact hjudged.trans hstep
    · rw [vmon_step _ _ _ hj, hjudged.vmonBad, hbits j hj]
      rcases lt_trichotomy j l.length with hlt | rfl | hgt
      · rw [if_neg (by omega), vmonAfter, vmonAfter, List.getElem?_append_left hlt]
      · simp [vmonAfter]
      · rw [if_neg (by omega), vmonAfter, vmonAfter, List.getElem?_eq_none (by omega), List.getElem?_eq_none (by simp; omega)]

end

/-! ### The highest temperature (R495) -/

/-- `r` is the first of the highest readings of `l`, whose indices rise. -/
def FirstHighest (l : List (BitVec 12 × Nat)) (r : BitVec 12 × Nat) : Prop :=
  r ∈ l ∧ ∀ y ∈ l, y.1.toInt ≤ r.1.toInt ∧ (y.2 < r.2 → y.1.toInt < r.1.toInt)

/-- The higher of two readings, the first where they are equal. -/
def hotter (a b : BitVec 12 × Nat) : BitVec 12 × Nat := if a.1.toInt < b.1.toInt then b else a

theorem firstHighest_foldl {xs pre : List (BitVec 12 × Nat)} {a : BitVec 12 × Nat} (h : FirstHighest pre a)
    (hrise : (pre ++ xs).Pairwise fun x y => x.2 < y.2) : FirstHighest (pre ++ xs) (xs.foldl hotter a) := by
  induction xs generalizing pre a with
  | nil => simpa using h
  | cons x xs ih =>
    rw [List.append_cons] at hrise ⊢
    refine ih ?_ hrise
    have hbefore : ∀ y ∈ pre, y.2 < x.2 := fun y hy =>
      (List.pairwise_append.1 (List.pairwise_append.1 hrise).1).2.2 y hy x (by simp)
    obtain ⟨hmem, hmax⟩ := h
    unfold hotter
    split
    case isTrue hlt =>
      refine ⟨by simp, fun y hy => ?_⟩
      rcases List.mem_append.1 hy with hy | hy
      · have := (hmax y hy).1
        exact ⟨by omega, fun _ => by omega⟩
      · obtain rfl := List.mem_singleton.1 hy
        exact ⟨le_rfl, fun h => absurd h (lt_irrefl _)⟩
    case isFalse hge =>
      refine ⟨List.mem_append_left _ hmem, fun y hy => ?_⟩
      rcases List.mem_append.1 hy with hy | hy
      · exact hmax y hy
      · obtain rfl := List.mem_singleton.1 hy
        exact ⟨not_lt.1 hge, fun h => absurd (hbefore a hmem) (by omega)⟩

/-- The first of the highest readings is the one that the statements name. -/
theorem firstHighest_eq {l : List (BitVec 12)} {top : BitVec 12} {k : Nat} {r : BitVec 12 × Nat} (hk : l[k]? = some top)
    (hmax : ∀ j v, l[j]? = some v → (j < k → v.toInt < top.toInt) ∧ v.toInt ≤ top.toInt) (hr : FirstHighest l.zipIdx r) :
    r = (top, k) := by
  obtain ⟨hmem, hfirst⟩ := hr
  have hget : l[r.2]? = some r.1 := List.mem_zipIdx_iff_getElem?.1 hmem
  obtain ⟨hbefore, hle⟩ := hmax _ _ hget
  obtain ⟨hge, hafter⟩ := hfirst (top, k) (List.mem_zipIdx_iff_getElem?.2 hk)
  have hidx : r.2 = k := by
    rcases lt_trichotomy r.2 k with h | h | h
    · exact absurd (hbefore h) (by simp only at hge; omega)
    · exact h
    · exact absurd (hafter h) (by simp only; omega)
  rw [hidx, hk] at hget
  exact Prod.ext (Option.some.inj hget).symm hidx

theorem foldl_hotter_eq {l : List (BitVec 12)} {top : BitVec 12} {k : Nat} {x : BitVec 12 × Nat} {xs : List (BitVec 12 × Nat)}
    (hl : l.zipIdx = x :: xs) (hk : l[k]? = some top)
    (hmax : ∀ j v, l[j]? = some v → (j < k → v.toInt < top.toInt) ∧ v.toInt ≤ top.toInt) : xs.foldl hotter x = (top, k) := by
  have hrise : ([x] ++ xs).Pairwise fun x y => x.2 < y.2 := by
    rw [List.singleton_append, ← hl, ← List.pairwise_map (f := Prod.snd) (R := (· < ·)), List.zipIdx_map_snd]
    exact List.pairwise_lt_range'
  have hfirst := firstHighest_foldl (pre := [x]) (a := x) ⟨by simp, by simp⟩ hrise
  rw [List.singleton_append, ← hl] at hfirst
  exact firstHighest_eq hk hmax hfirst

/-- PWR_TEMP_MAX. -/
abbrev tempWord : Nat := F.PWR_TEMP_MAX_NOW.addr 0

@[simp] theorem addr_tempPeak : F.PWR_TEMP_MAX_PEAK.addr 0 = tempWord := rfl

section
variable (sn : SN) (d : Dev) (top : BitVec 12) (k : Nat) (warn shut : Int)

/-- PWR_TEMP_MAX takes the highest temperature, and its peak. -/
def tempShown (d : Dev) : Dev :=
  let e := wr d F.PWR_TEMP_MAX_NOW 0 top.toNat
  if signed 12 (rd e F.PWR_TEMP_MAX_PEAK) < top.toInt then wr e F.PWR_TEMP_MAX_PEAK 0 top.toNat else e

/-- The warning of R495. -/
def tempWarned (d : Dev) : Dev :=
  if warn ≤ top.toInt ∧ !d.pwr.warned then
    raise (onPwr d fun p => { p with warned := true }) { typ := 0xB3, sn := sn, p0 := k, p1 := top.toNat }
  else if top.toInt ≤ warn - 20 then onPwr d fun p => { p with warned := false } else d

/-- The readings in a row at or above SHUT. -/
def tempCounted (d : Dev) : Dev :=
  onPwr d fun p => { p with overRun := if shut ≤ top.toInt then min 2 (p.overRun + 1) else 0 }

/-- WARN and SHUT in quarter degrees. -/
def warnOf (d : Dev) : Int := 4 * (rd d F.PWR_TEMP_CFG_WARN : Nat)
def shutOf (d : Dev) : Int := 4 * (rd d F.PWR_TEMP_CFG_SHUT : Nat)

/-- The temperature part of a reading, but for the request that it may make. -/
def tempNoted (d : Dev) : Dev := tempCounted top (shutOf d) (tempWarned sn top k (warnOf d) (tempShown top d))

theorem within_tempShown : Within [tempWord] [.regs] d (tempShown top d) :=
  .ite (fun _ => (Within.refl _ _ d).wr.wr) fun _ => (Within.refl _ _ d).wr

theorem tempRead_eq {temps : List (BitVec 12)} (hk : temps[k]? = some top)
    (hmax : ∀ j v, temps[j]? = some v → (j < k → v.toInt < top.toInt) ∧ v.toInt ≤ top.toInt) :
    tempRead temps sn d = if 2 ≤ (tempNoted sn top k d).pwr.overRun then thermRequest 1 sn (tempNoted sn top k d) else tempNoted sn top k d := by
  obtain ⟨x, xs, hl⟩ : ∃ x xs, temps.zipIdx = x :: xs := by
    refine List.exists_cons_of_ne_nil fun h => ?_
    have := List.zipIdx_eq_nil_iff.1 h
    simp [this] at hk
  have hfold := foldl_hotter_eq hl hk hmax
  have hwarn : warnOf (tempShown top d) = warnOf d := by simp only [warnOf, (within_tempShown d top).rd (f := F.PWR_TEMP_CFG_WARN) (i := 0) (by decide)]
  have hshut : shutOf (tempShown top d) = shutOf d := by simp only [shutOf, (within_tempShown d top).rd (f := F.PWR_TEMP_CFG_SHUT) (i := 0) (by decide)]
  have heq : tempRead temps sn d =
      (fun top : BitVec 12 × Nat => let e := tempShown top.1 d
        let e := tempCounted top.1 (shutOf e) (tempWarned sn top.1 top.2 (warnOf e) e)
        if 2 ≤ e.pwr.overRun then thermRequest 1 sn e else e) (xs.foldl hotter x) := by
    unfold tempRead
    rw [hl]
    rfl
  rw [heq, hfold]
  simp only [hwarn, hshut]
  rfl

/-- The warning of a reading that reaches WARN. -/
def warnEvents : List Ev :=
  if warn ≤ top.toInt ∧ d.pwr.warned = false then [{ typ := 0xB3, sn := sn, p0 := k, p1 := top.toNat }] else []

/-- Whether the warning stands after a reading. -/
def warnedAfter : Bool := if warn ≤ top.toInt then true else if top.toInt ≤ warn - 20 then false else d.pwr.warned

theorem tempWarned_pwr : (tempWarned sn top k warn d).pwr = { d.pwr with warned := warnedAfter d top warn } := by
  unfold tempWarned warnedAfter
  by_cases hwarn : warn ≤ top.toInt
  · cases hw : d.pwr.warned
    · simp [hwarn, onPwr]
    · simp only [hwarn, Bool.not_true, Bool.false_eq_true, and_false, if_false, if_true, show ¬ top.toInt ≤ warn - 20 by omega]
      rw [← hw]
  · simp only [hwarn, false_and, if_false]
    split <;> rfl

theorem tempWarned_hif : (tempWarned sn top k warn d).hif =
    { d.hif with evq := d.hif.evq ++ (warnEvents sn d top k warn).map fun e => { e with sb := d.twin.role == .standby } } := by
  unfold tempWarned warnEvents
  by_cases hnew : warn ≤ top.toInt ∧ d.pwr.warned = false
  · simp [hnew, raise, onPwr]
  · have : ¬ (warn ≤ top.toInt ∧ (!d.pwr.warned) = true) := by simpa using hnew
    rw [if_neg this, if_neg hnew]
    split <;> simp [onPwr]

theorem within_tempWarned : Within [] [.pwr, .hif] d (tempWarned sn top k warn d) :=
  .ite (fun _ => (Within.refl _ _ d).onPwr.raise) fun _ => .ite (fun _ => (Within.refl _ _ d).onPwr) fun _ => .refl _ _ d

theorem within_tempNoted : Within [tempWord] [.regs, .pwr, .hif] d (tempNoted sn top k d) := by
  have hshown : Within [tempWord] [.regs, .pwr, .hif] d (tempShown top d) := (within_tempShown d top).mono
  have hwarned : Within [tempWord] [.regs, .pwr, .hif] d (tempWarned sn top k (warnOf d) (tempShown top d)) :=
    hshown.next (within_tempWarned _ _ _ _ _)
  unfold tempNoted tempCounted
  exact hwarned.onPwr

theorem tempNoted_pwr : (tempNoted sn top k d).pwr =
    { d.pwr with warned := warnedAfter d top (warnOf d),
                 overRun := if shutOf d ≤ top.toInt then min 2 (d.pwr.overRun + 1) else 0 } := by
  have hpwr : (tempShown top d).pwr = d.pwr := (within_tempShown d top).parts .pwr (by simp)
  have hwarned := tempWarned_pwr sn (tempShown top d) top k (warnOf d)
  rw [warnedAfter, hpwr] at hwarned
  simp only [tempNoted, tempCounted, onPwr, hwarned]
  rfl

theorem tempNoted_hif : (tempNoted sn top k d).hif =
    { d.hif with evq := d.hif.evq ++ (warnEvents sn d top k (warnOf d)).map fun e => { e with sb := d.twin.role == .standby } } := by
  have hshown := within_tempShown d top
  have hwarned := tempWarned_hif sn (tempShown top d) top k (warnOf d)
  rw [warnEvents, hshown.parts .pwr (by simp), hshown.parts .hif (by simp), hshown.parts .twin (by simp)] at hwarned
  exact hwarned

theorem tempNoted_regs : (tempNoted sn top k d).regs = (tempShown top d).regs := by
  simp [tempNoted, tempCounted, tempWarned, onPwr, apply_ite Dev.regs]

theorem rd_tempNoted_now : rd (tempNoted sn top k d) F.PWR_TEMP_MAX_NOW = top.toNat := by
  simp only [rd, rdWord_congr (tempNoted_regs sn d top k)]
  show rd (tempShown top d) F.PWR_TEMP_MAX_NOW = top.toNat
  have hnow : rd (wr d F.PWR_TEMP_MAX_NOW 0 top.toNat) F.PWR_TEMP_MAX_NOW = top.toNat := rd_wr_fits d ⟨by decide, top.isLt⟩
  unfold tempShown
  extract_lets
  split
  · rw [rd_wr_apart _ (by decide)]
    exact hnow
  · exact hnow

theorem signed_eq_toInt {v : Nat} (hv : v < 2 ^ 12) : signed 12 v = (BitVec.ofNat 12 v).toInt := by
  rw [BitVec.toInt_eq_toNat_cond]
  simp only [signed, BitVec.toNat_ofNat, Nat.mod_eq_of_lt hv]
  split <;> split <;> omega

theorem rd_tempNoted_peak : rd (tempNoted sn top k d) F.PWR_TEMP_MAX_PEAK =
    if (BitVec.ofNat 12 (rd d F.PWR_TEMP_MAX_PEAK)).toInt < top.toInt then top.toNat else rd d F.PWR_TEMP_MAX_PEAK := by
  simp only [rd, rdWord_congr (tempNoted_regs sn d top k)]
  show rd (tempShown top d) F.PWR_TEMP_MAX_PEAK =
    if (BitVec.ofNat 12 (rd d F.PWR_TEMP_MAX_PEAK)).toInt < top.toInt then top.toNat else rd d F.PWR_TEMP_MAX_PEAK
  have hpeak : rd (wr d F.PWR_TEMP_MAX_NOW 0 top.toNat) F.PWR_TEMP_MAX_PEAK = rd d F.PWR_TEMP_MAX_PEAK := rd_wr_apart d (by decide)
  simp only [tempShown, hpeak, signed_eq_toInt (rd_lt d F.PWR_TEMP_MAX_PEAK 0), apply_ite (rd · F.PWR_TEMP_MAX_PEAK),
    rd_wr_fits _ (show F.PWR_TEMP_MAX_PEAK.lo + F.PWR_TEMP_MAX_PEAK.wd ≤ 32 ∧ top.toNat < 2 ^ F.PWR_TEMP_MAX_PEAK.wd from
      ⟨by decide, top.isLt⟩)]

end

/-! ### The request for a shutdown (R496) -/

/-- THERM_N is driven and its delay begins. -/
def thermDriven (d : Dev) : Dev := onPwr d fun p => { p with thermOut := true, thermDue := true }

/-- PWR_THERM. -/
def thermEvent (kind : Nat) (sn : SN) (p1 : Nat) : Ev := { typ := 0xB2, sn := sn, p0 := kind, p1 := p1 }

theorem thermRequest_idle {d : Dev} (h : d.pwr.thermOut = true) (kind : Nat) (sn : SN) : thermRequest kind sn d = d := if_pos h

theorem thermRequest_alarm {d : Dev} (h : d.pwr.thermOut = false) (kind : Nat) (sn : SN) :
    thermRequest kind sn d = alarm sn 1 (thermEvent kind sn (rd d F.PWR_TEMP_MAX_NOW)) (thermDriven d) :=
  if_neg (by simp [h])

/-- What a request for a shutdown changes: an alarm with its driven pin. -/
theorem thermRequest_requests {d : Dev} (h : d.pwr.thermOut = false) (kind : Nat) (sn : SN) :
    Alarm 1 (thermDriven d) (thermRequest kind sn d) (thermEvent kind sn (rd d F.PWR_TEMP_MAX_NOW)) ∧
      (thermRequest kind sn d).pwr = { d.pwr with thermOut := true, thermDue := true } := by
  rw [thermRequest_alarm h]
  have halarm := alarm_alarm sn 1 (thermEvent kind sn (rd d F.PWR_TEMP_MAX_NOW)) (thermDriven d)
  exact ⟨halarm, halarm.frame.parts .pwr (by simp)⟩

end Sys2Proof.Machine
end

