-- ==== Sys2Proof/Proofs/HealthLoops.lean ====
section
/-! PROOFS. The health loops (R491 to R496) as the obligation states them. -/

namespace Sys2Proof.Machine

/-! ### A whole reading of the sensors -/

section
variable (temps volts procs : List (BitVec 12)) (sn : SN) (d : Dev)

/-- The readings stored. -/
def readingsStored (d : Dev) : Dev :=
  putReadings F.PWR_SENS_PROC 8 procs (putReadings F.PWR_SENS_VOLT 12 volts (putReadings F.PWR_SENS_TEMP 16 temps d))

/-- The readings stored and the monitors judged. -/
def monitorsJudged (d : Dev) : Dev := (volts.take 12).zipIdx.foldl (vmonStep sn) (readingsStored temps volts procs d)

theorem sensorRead_eq : sensorRead temps volts procs sn d = tempRead (temps.take 16) sn (monitorsJudged temps volts procs sn d) := rfl

/-- The words of the sensors. -/
abbrev sensorRegs : List Nat :=
  sensorWords F.PWR_SENS_TEMP 16 ++ sensorWords F.PWR_SENS_VOLT 12 ++ sensorWords F.PWR_SENS_PROC 8

theorem within_readingsStored : Within sensorRegs [.regs] d (readingsStored temps volts procs d) :=
  (((Within.refl _ _ d).next (within_putReadings F.PWR_SENS_TEMP 16 temps d) fun _ h => by simp [h]).next
    (within_putReadings F.PWR_SENS_VOLT 12 volts _) fun _ h => by simp [h]).next
    (within_putReadings F.PWR_SENS_PROC 8 procs _) fun _ h => by simp [h]

theorem rd_readingsStored_clear {g : Fld} {j : Nat} (h : F.PWR_SENS_TEMP.clear g = true ∧ F.PWR_SENS_VOLT.clear g = true ∧
    F.PWR_SENS_PROC.clear g = true) : rd (readingsStored temps volts procs d) g j = rd d g j := by
  rw [readingsStored, rd_putReadings_clear _ _ _ _ h.2.2, rd_putReadings_clear _ _ _ _ h.2.1, rd_putReadings_clear _ _ _ _ h.1]

theorem rd_stored_temp {j : Nat} (hj : j < 16) {v : BitVec 12} (hv : temps[j]? = some v) :
    rd (readingsStored temps volts procs d) F.PWR_SENS_TEMP j = v.toNat := by
  rw [readingsStored, rd_putReadings_clear _ _ _ _ (by decide), rd_putReadings_clear _ _ _ _ (by decide)]
  exact rd_putReadings _ _ _ _ (by decide) hj hv

theorem rd_stored_volt {j : Nat} (hj : j < 12) {v : BitVec 12} (hv : volts[j]? = some v) :
    rd (readingsStored temps volts procs d) F.PWR_SENS_VOLT j = v.toNat := by
  rw [readingsStored, rd_putReadings_clear _ _ _ _ (by decide)]
  exact rd_putReadings _ _ _ _ (by decide) hj hv

theorem rd_stored_proc {j : Nat} (hj : j < 8) {v : BitVec 12} (hv : procs[j]? = some v) :
    rd (readingsStored temps volts procs d) F.PWR_SENS_PROC j = v.toNat :=
  rd_putReadings _ _ _ _ (by decide) hj hv

/-- Monitor `i` reads outside its window, or was and has not been read. -/
def vmonOut (i : Fin 12) : Bool := ((volts[i.val]?).map fun v => vmonBad d i v.toNat).getD (d.pwr.vmon.getLsbD i)

/-- The monitors that leave their windows. -/
def vmonEvents : List Ev := (List.finRange 12).filterMap fun i =>
  if vmonOut volts d i = true ∧ d.pwr.vmon.getLsbD i = false then
    some { typ := 0xB4, sn := sn, p0 := i.val, p1 := ((volts[i.val]?).getD 0).toNat } else none

theorem vmonEvents_eq : vmonEvents volts sn d = (volts.take 12).zipIdx.filterMap (vmonEvent sn d) := by
  rw [filterMap_zipIdx_eq _ (n := 12) (by simp), vmonEvents]
  refine List.filterMap_congr fun i _ => ?_
  rw [List.getElem?_take, if_pos i.isLt]
  cases h : volts[i.val]? with
  | none => simp [vmonOut, h]
  | some v => simp [vmonOut, vmonEvent, h]

theorem vmonBad_stored (v mv : Nat) : vmonBad (readingsStored temps volts procs d) v mv = vmonBad d v mv := by
  simp only [vmonBad, rd_readingsStored_clear temps volts procs d (g := F.PWR_AVS_STATUS_VSET) (by decide)]

theorem pwr_stored : (readingsStored temps volts procs d).pwr = d.pwr := (within_readingsStored temps volts procs d).parts .pwr (by simp)
theorem hif_stored : (readingsStored temps volts procs d).hif = d.hif := (within_readingsStored temps volts procs d).parts .hif (by simp)
theorem twin_stored : (readingsStored temps volts procs d).twin = d.twin := (within_readingsStored temps volts procs d).parts .twin (by simp)

/-- What the monitors of a reading change. -/
theorem monitorsJudged_spec :
    VmonJudged (readingsStored temps volts procs d) (monitorsJudged temps volts procs sn d) (vmonEvents volts sn d) ∧
      ∀ i : Fin 12, (monitorsJudged temps volts procs sn d).pwr.vmon.getLsbD i = vmonOut volts d i := by
  obtain ⟨hjudged, hbits⟩ := vmon_fold sn (readingsStored temps volts procs d) (l := volts.take 12) (by simp)
  have hevent : vmonEvent sn (readingsStored temps volts procs d) = vmonEvent sn d := by
    funext x
    simp only [vmonEvent, vmonBad_stored, pwr_stored]
  rw [hevent, ← vmonEvents_eq] at hjudged
  refine ⟨hjudged, fun i => (hbits i i.isLt).trans ?_⟩
  rw [vmonAfter, List.getElem?_take, if_pos i.isLt, pwr_stored]
  unfold vmonOut
  cases volts[i.val]? with
  | none => rfl
  | some v => exact vmonBad_stored _ _ _ _ _ _

end

/-! ### The reading but for its request, and with it -/

section
variable (temps volts procs : List (BitVec 12)) (sn : SN) (d : Dev) (top : BitVec 12) (k : Nat)

/-- The reading but for the request that it may make. -/
def sensorsNoted (d : Dev) : Dev := tempNoted sn top k (monitorsJudged temps volts procs sn d)

/-- What a reading changes before it makes a request. -/
structure SensorsNoted (b : Dev) : Prop where
  frame : Within (sensorRegs ++ [tempWord]) [.regs, .pwr, .hif] d b
  hif : b.hif = { d.hif with evq := d.hif.evq ++
    (vmonEvents volts sn d ++ warnEvents sn d top k (warnOf d)).map fun e => { e with sb := d.twin.role == .standby } }
  pwr : b.pwr = { d.pwr with vmon := b.pwr.vmon, warned := warnedAfter d top (warnOf d),
                             overRun := if shutOf d ≤ top.toInt then min 2 (d.pwr.overRun + 1) else 0 }
  bits : ∀ i : Fin 12, b.pwr.vmon.getLsbD i = vmonOut volts d i
  temp : ∀ j : Fin 16, ∀ v, temps[j.val]? = some v → rd b F.PWR_SENS_TEMP j = v.toNat
  volt : ∀ j : Fin 12, ∀ v, volts[j.val]? = some v → rd b F.PWR_SENS_VOLT j = v.toNat
  proc : ∀ j : Fin 8, ∀ v, procs[j.val]? = some v → rd b F.PWR_SENS_PROC j = v.toNat
  now : rd b F.PWR_TEMP_MAX_NOW = top.toNat
  peak : rd b F.PWR_TEMP_MAX_PEAK =
    if (BitVec.ofNat 12 (rd d F.PWR_TEMP_MAX_PEAK)).toInt < top.toInt then top.toNat else rd d F.PWR_TEMP_MAX_PEAK

theorem sensorsNoted_sensorsNoted : SensorsNoted temps volts procs sn d top k (sensorsNoted temps volts procs sn top k d) := by
  obtain ⟨hjudged, hbits⟩ := monitorsJudged_spec temps volts procs sn d
  have hnoted := within_tempNoted sn (monitorsJudged temps volts procs sn d) top k
  have htwin : (monitorsJudged temps volts procs sn d).twin = d.twin :=
    (hjudged.frame.parts .twin (by simp)).trans (twin_stored temps volts procs d)
  have hrd (f : Fld) (i : Nat) : rd (monitorsJudged temps volts procs sn d) f i = rd (readingsStored temps volts procs d) f i :=
    hjudged.frame.rd (by simp)
  have hpwr : (monitorsJudged temps volts procs sn d).pwr = { d.pwr with vmon := (monitorsJudged temps volts procs sn d).pwr.vmon } := by
    have h := hjudged.pwr
    rwa [pwr_stored] at h
  have hkept (f : Fld) (hf : F.PWR_SENS_TEMP.clear f = true ∧ F.PWR_SENS_VOLT.clear f = true ∧ F.PWR_SENS_PROC.clear f = true) :
      rd (monitorsJudged temps volts procs sn d) f = rd d f := (hrd f 0).trans (rd_readingsStored_clear temps volts procs d hf)
  have hwarn : warnOf (monitorsJudged temps volts procs sn d) = warnOf d := by rw [warnOf, hkept _ (by decide)]; rfl
  have hshut : shutOf (monitorsJudged temps volts procs sn d) = shutOf d := by rw [shutOf, hkept _ (by decide)]; rfl
  have hevents : warnEvents sn (monitorsJudged temps volts procs sn d) top k (warnOf d) = warnEvents sn d top k (warnOf d) := by
    rw [warnEvents, hpwr]; rfl
  have hafter : warnedAfter (monitorsJudged temps volts procs sn d) top (warnOf d) = warnedAfter d top (warnOf d) := by
    rw [warnedAfter, hpwr]; rfl
  have hsens {f : Fld} {j v : Nat} (hf : ∀ i, F.PWR_TEMP_MAX_NOW.addr i ≠ f.addr j)
      (h : rd (readingsStored temps volts procs d) f j = v) : rd (sensorsNoted temps volts procs sn top k d) f j = v :=
    (hnoted.rd fun hmem => hf 0 (List.mem_singleton.1 hmem).symm).trans ((hrd f j).trans h)
  have hvmon : (sensorsNoted temps volts procs sn top k d).pwr.vmon = (monitorsJudged temps volts procs sn d).pwr.vmon := by
    rw [sensorsNoted, tempNoted_pwr]
  refine ⟨?_, ?_, ?_, fun i => ?_, fun j v hv => ?_, fun j v hv => ?_, fun j v hv => ?_, rd_tempNoted_now _ _ _ _, ?_⟩
  · exact (((within_readingsStored temps volts procs d).mono (fun _ h => List.mem_append_left _ h) (by simp)).next hjudged.frame).next
      hnoted (fun _ h => List.mem_append_right _ h)
  · rw [sensorsNoted, tempNoted_hif, hwarn, hevents, htwin, hjudged.hif, hif_stored, twin_stored]
    simp
  · rw [hvmon, sensorsNoted, tempNoted_pwr, hwarn, hshut, hafter, hpwr]
  · rw [hvmon, hbits]
  · exact hsens (fun i => Fld.addr_ne (by decide) _ _) (rd_stored_temp _ _ _ _ j.isLt hv)
  · exact hsens (fun i => Fld.addr_ne (by decide) _ _) (rd_stored_volt _ _ _ _ j.isLt hv)
  · exact hsens (fun i => Fld.addr_ne (by decide) _ _) (rd_stored_proc _ _ _ _ j.isLt hv)
  · rw [sensorsNoted, rd_tempNoted_peak, hkept _ (by decide)]

/-- The reading requests a shutdown. -/
def Trips : Prop := shutOf d ≤ top.toInt ∧ 1 ≤ d.pwr.overRun ∧ d.pwr.thermOut = false

/-- The request is a failure of the twin. -/
def Falls : Prop := Trips d top ∧ (rd d F.TWN_CFG_FAIL_MASK).testBit 1 = true

/-- What a whole reading adds to `SensorsNoted`, by whether it requests a shutdown; `b` comes of `a`. -/
structure SensorsRead (a b : Dev) : Prop where
  frame : Within [timWord, twinWord, F.MSIX_PBA.addr (rd d F.HIF_CFG_NMI_VEC / 32)] [.tim, .regs, .hif, .out, .pm, .twin, .prot, .pwr] a b
  trips : Trips d top → (∃ es, b.hif.evq = a.hif.evq ++ { thermEvent 1 sn top.toNat with sb := d.twin.role == .standby } :: es ∧
      (¬ Falls d top → es = [])) ∧
    b.pwr = { a.pwr with thermOut := true, thermDue := true } ∧ b.hif.nmi = a.hif.nmi + 1
  stays : ¬ Trips d top → b = a
  kept : ¬ Falls d top → b.twin = d.twin ∧ b.prot = d.prot ∧ b.tim = d.tim
  falls : Falls d top → d.twin.role = .active → Fails a b

theorem sensorRead_sensorsRead (hk : (temps.take 16)[k]? = some top)
    (hmax : ∀ j v, (temps.take 16)[j]? = some v → (j < k → v.toInt < top.toInt) ∧ v.toInt ≤ top.toInt) :
    SensorsRead sn d top (sensorsNoted temps volts procs sn top k d) (sensorRead temps volts procs sn d) := by
  have hread : sensorRead temps volts procs sn d = if 2 ≤ (sensorsNoted temps volts procs sn top k d).pwr.overRun then
      thermRequest 1 sn (sensorsNoted temps volts procs sn top k d) else sensorsNoted temps volts procs sn top k d :=
    tempRead_eq sn _ top k hk hmax
  obtain ⟨hframe, -, hpwr, -, -, -, -, hnow, -⟩ := sensorsNoted_sensorsNoted temps volts procs sn d top k
  generalize sensorsNoted temps volts procs sn top k d = a at hread hframe hpwr hnow
  have htwin : a.twin = d.twin := hframe.parts .twin (by simp)
  have hprot : a.prot = d.prot := hframe.parts .prot (by simp)
  have htim : a.tim = d.tim := hframe.parts .tim (by simp)
  have hover : 2 ≤ a.pwr.overRun ↔ shutOf d ≤ top.toInt ∧ 1 ≤ d.pwr.overRun := by
    rw [hpwr]
    by_cases h : shutOf d ≤ top.toInt
    · simp only [h, if_true, true_and]; omega
    · simp [h]
  have hout : a.pwr.thermOut = d.pwr.thermOut := by rw [hpwr]
  by_cases htrips : Trips d top
  · obtain ⟨hshut, hrun, hfree⟩ := id htrips
    rw [if_pos (hover.2 ⟨hshut, hrun⟩)] at hread
    obtain ⟨halarm, hdriven⟩ := thermRequest_requests (hout.trans hfree) 1 sn
    rw [← hread] at halarm hdriven
    have hmask : rd (thermDriven a) F.TWN_CFG_FAIL_MASK = rd d F.TWN_CFG_FAIL_MASK := hframe.rd (by decide)
    have hvec : rd (thermDriven a) F.HIF_CFG_NMI_VEC = rd d F.HIF_CFG_NMI_VEC := hframe.rd (by decide)
    obtain ⟨hal, hnmi, ⟨es, hes, hnone⟩, hstays, hfalls⟩ := halarm
    rw [hmask] at hnone hstays hfalls
    rw [hvec] at hal
    have hbit : ¬ Falls d top → (rd d F.TWN_CFG_FAIL_MASK).testBit 1 = false := fun h =>
      Bool.eq_false_iff.2 fun hbit => h ⟨htrips, hbit⟩
    refine ⟨?_, fun _ => ⟨⟨es, ?_, fun h => hnone (hbit h)⟩, hdriven, hnmi⟩, fun h => absurd htrips h, fun h => ?_, fun h hrole => ?_⟩
    · have hdrives : Within [timWord, twinWord, F.MSIX_PBA.addr (rd d F.HIF_CFG_NMI_VEC / 32)]
          [.tim, .regs, .hif, .out, .pm, .twin, .prot, .pwr] a (thermDriven a) := (Within.refl _ _ a).onPwr
      exact hdrives.next hal
    · rw [hes, hnow, ← htwin]
      rfl
    · obtain ⟨h1, h2, h3⟩ := hstays (hbit h)
      exact ⟨h1.trans htwin, h2.trans hprot, h3.trans htim⟩
    · obtain ⟨h1, h2, h3, h4⟩ := hfalls h.2 (htwin ▸ hrole)
      exact ⟨h1, h2, h3, h4⟩
  · have hsame : sensorRead temps volts procs sn d = a := by
      rw [hread]
      split
      case isTrue h =>
        refine thermRequest_idle ?_ 1 sn
        rw [hout]
        obtain ⟨hshut, hrun⟩ := hover.1 h
        exact Bool.eq_true_of_not_eq_false fun hfree => htrips ⟨hshut, hrun, hfree⟩
      case isFalse => rfl
    rw [hsame]
    exact ⟨.refl _ _ a, fun h => absurd h htrips, fun _ => rfl, fun _ => ⟨htwin, hprot, htim⟩, fun h => absurd h.1 htrips⟩

end

/-- The words that a reading can change. -/
abbrev readingRegs (d : Dev) : List Nat :=
  sensorRegs ++ [tempWord, timWord, twinWord, F.MSIX_PBA.addr (rd d F.HIF_CFG_NMI_VEC / 32)]

/-- The event of the request that a reading makes. -/
def tripEvents (sn : SN) (d : Dev) (top : BitVec 12) : List Ev :=
  if shutOf d ≤ top.toInt ∧ 1 ≤ d.pwr.overRun ∧ d.pwr.thermOut = false then [thermEvent 1 sn top.toNat] else []

theorem tripEvents_of_trips {sn : SN} {d : Dev} {top : BitVec 12} (h : Trips d top) :
    tripEvents sn d top = [thermEvent 1 sn top.toNat] := if_pos h
theorem tripEvents_of_not_trips {sn : SN} {d : Dev} {top : BitVec 12} (h : ¬ Trips d top) : tripEvents sn d top = [] := if_neg h

section
variable {temps volts procs : List (BitVec 12)} {sn : SN} {d a b : Dev} {top : BitVec 12} {k : Nat}
  (hnoted : SensorsNoted temps volts procs sn d top k a) (hread : SensorsRead sn d top a b)
include hread

/-- A request leaves the sensors' registers. -/
theorem SensorsRead.rd {f : Fld} {i : Nat} (hpba : F.MSIX_PBA.parted f = true) (htim : F.TIM_STATUS_SEL.parted f = true)
    (htwin : F.TWN_STATUS_ROLE.parted f = true) : rd b f i = rd a f i := by
  refine hread.frame.rd fun hmem => ?_
  simp only [List.mem_cons, List.not_mem_nil, or_false] at hmem
  rcases hmem with h | h | h
  · exact Fld.addr_ne htim 0 i h.symm
  · exact Fld.addr_ne htwin 0 i h.symm
  · exact Fld.addr_ne hpba _ i h.symm

/-- Power after a reading: the request shows in THERM_N alone. -/
theorem pwr_reading : b.pwr = { a.pwr with thermOut := b.pwr.thermOut, thermDue := b.pwr.thermDue } := by
  by_cases htrips : Trips d top
  · rw [(hread.trips htrips).2.1]
  · rw [hread.stays htrips]

include hnoted

theorem within_reading : Within (readingRegs d) [.regs, .pwr, .tim, .hif, .out, .pm, .twin, .prot] d b := by
  refine (hnoted.frame.mono ?_).next hread.frame fun x hx => List.mem_append_right _ (List.mem_cons_of_mem _ hx)
  exact List.append_subset.2 ⟨List.subset_append_left _ _, List.Subset.trans (by simp) (List.subset_append_right _ _)⟩

/-- The events of a reading: the monitors, the warning, the request, and what a failure adds. -/
theorem events_reading : ∃ es, b.hif.evq = d.hif.evq ++
    ((vmonEvents volts sn d ++ warnEvents sn d top k (warnOf d) ++ tripEvents sn d top).map fun e =>
      { e with sb := d.twin.role == .standby }) ++ es ∧ (¬ Falls d top → es = []) := by
  by_cases htrips : Trips d top
  · obtain ⟨⟨es, hes, hnone⟩, -⟩ := hread.trips htrips
    refine ⟨es, ?_, hnone⟩
    rw [hes, hnoted.hif, tripEvents_of_trips htrips]
    simp
  · refine ⟨[], ?_, fun _ => rfl⟩
    rw [hread.stays htrips, hnoted.hif, tripEvents_of_not_trips htrips]
    simp

end

theorem sensorRead_acts (temps volts procs : List (BitVec 12)) {s : State} (hcore : s.dev.pwr.core = true) (k : Fin 16)
    (top : BitVec 12) (hk : temps[k.val]? = some top)
    (hmax : ∀ (j : Fin 16) v, temps[j.val]? = some v → (j < k → v.toInt < top.toInt) ∧ v.toInt ≤ top.toInt) :
    ∃ t, exec (.sensorRead temps volts procs) s = .next t ∧ DevOnly s t ∧
      Only [.regs, .pwr, .tim, .hif, .out, .pm, .twin, .prot] s.dev t.dev ∧ OnlyRegs (readingRegs s.dev) s.dev t.dev ∧
      (∀ j : Fin 16, ∀ v, temps[j.val]? = some v → rd t.dev F.PWR_SENS_TEMP j = v.toNat) ∧
      (∀ j : Fin 12, ∀ v, volts[j.val]? = some v → rd t.dev F.PWR_SENS_VOLT j = v.toNat) ∧
      (∀ j : Fin 8, ∀ v, procs[j.val]? = some v → rd t.dev F.PWR_SENS_PROC j = v.toNat) ∧
      rd t.dev F.PWR_TEMP_MAX_NOW = top.toNat ∧
      rd t.dev F.PWR_TEMP_MAX_PEAK =
        (if (BitVec.ofNat 12 (rd s.dev F.PWR_TEMP_MAX_PEAK)).toInt < top.toInt then top.toNat else rd s.dev F.PWR_TEMP_MAX_PEAK) ∧
      (∃ es, t.dev.hif.evq = s.dev.hif.evq ++
          ((vmonEvents volts s.sn s.dev ++ warnEvents s.sn s.dev top k (warnOf s.dev) ++ tripEvents s.sn s.dev top).map fun e =>
            { e with sb := s.dev.twin.role == .standby }) ++ es ∧ (¬ Falls s.dev top → es = [])) ∧
      t.dev.pwr = { s.dev.pwr with
        vmon := t.dev.pwr.vmon, warned := t.dev.pwr.warned, overRun := t.dev.pwr.overRun, thermOut := t.dev.pwr.thermOut,
        thermDue := t.dev.pwr.thermDue } ∧
      (∀ i : Fin 12, t.dev.pwr.vmon.getLsbD i = vmonOut volts s.dev i) ∧
      (warnOf s.dev ≤ top.toInt → t.dev.pwr.warned = true) ∧ (top.toInt ≤ warnOf s.dev - 20 → t.dev.pwr.warned = false) ∧
      (warnOf s.dev - 20 < top.toInt → top.toInt < warnOf s.dev → t.dev.pwr.warned = s.dev.pwr.warned) ∧
      t.dev.pwr.overRun = (if shutOf s.dev ≤ top.toInt then min 2 (s.dev.pwr.overRun + 1) else 0) ∧
      (Trips s.dev top → t.dev.pwr.thermOut = true ∧ t.dev.pwr.thermDue = true ∧ t.dev.hif.nmi = s.dev.hif.nmi + 1) ∧
      (¬ Trips s.dev top →
        t.dev.pwr.thermOut = s.dev.pwr.thermOut ∧ t.dev.pwr.thermDue = s.dev.pwr.thermDue ∧ t.dev.hif.nmi = s.dev.hif.nmi) ∧
      (¬ Falls s.dev top → t.dev.twin = s.dev.twin ∧ t.dev.prot = s.dev.prot ∧ t.dev.tim = s.dev.tim) ∧
      (Falls s.dev top → s.dev.twin.role = .active →
        t.dev.twin.role = .failed ∧ t.dev.twin.latch = false ∧ t.dev.twin.failOut = true) := by
  have htake (j : Nat) : (temps.take 16)[j]? = if j < 16 then temps[j]? else none := List.getElem?_take
  have hnoted := sensorsNoted_sensorsNoted temps volts procs s.sn s.dev top k
  have hread := sensorRead_sensorsRead temps volts procs s.sn s.dev top k (by rw [htake, if_pos k.isLt, hk]) fun j v hj => by
    rw [htake] at hj
    split at hj
    case isTrue hlt => exact hmax ⟨j, hlt⟩ v hj
    case isFalse => cases hj
  refine ⟨_, exec_of_core (g := sensorRead temps volts procs s.sn) rfl hcore rfl, devOnly_dev _ _, ?_⟩
  generalize sensorsNoted temps volts procs s.sn top k s.dev = a at hnoted hread
  generalize sensorRead temps volts procs s.sn s.dev = b at hread
  have hframe := within_reading hnoted hread
  have hpwr := pwr_reading hread
  have hwarned : b.pwr.warned = warnedAfter s.dev top (warnOf s.dev) := by rw [hpwr, hnoted.pwr]
  refine ⟨hframe.parts, hframe.regs, ?_, ?_, ?_, ?_, ?_, events_reading hnoted hread, ?_, ?_, ?_, ?_, ?_, ?_, ?_, ?_, hread.kept, ?_⟩
  · exact fun j v hv => (hread.rd (by decide) (by decide) (by decide)).trans (hnoted.temp j v hv)
  · exact fun j v hv => (hread.rd (by decide) (by decide) (by decide)).trans (hnoted.volt j v hv)
  · exact fun j v hv => (hread.rd (by decide) (by decide) (by decide)).trans (hnoted.proc j v hv)
  · exact (hread.rd (by decide) (by decide) (by decide)).trans hnoted.now
  · exact (hread.rd (by decide) (by decide) (by decide)).trans hnoted.peak
  · rw [hpwr, hnoted.pwr]
  · intro i
    rw [hpwr]
    exact hnoted.bits i
  · intro h
    rw [hwarned, warnedAfter, if_pos h]
  · intro h
    rw [hwarned, warnedAfter, if_neg (by omega), if_pos h]
  · intro h1 h2
    rw [hwarned, warnedAfter, if_neg (by omega), if_neg (by omega)]
  · rw [hpwr, hnoted.pwr]
  · intro h
    obtain ⟨-, hpwr, hnmi⟩ := hread.trips h
    exact ⟨by rw [hpwr], by rw [hpwr], by rw [hnmi, hnoted.hif]⟩
  · intro h
    rw [hread.stays h]
    exact ⟨by rw [hnoted.pwr], by rw [hnoted.pwr], by rw [hnoted.hif]⟩
  · intro h hrole
    obtain ⟨htwin, -, -, -⟩ := hread.falls h hrole
    exact ⟨congrArg Twin.role htwin, congrArg Twin.latch htwin, congrArg Twin.failOut htwin⟩

/-! ### AVS, the pin and its delays, as the statement has them -/

section
variable {s : State} (hcore : s.dev.pwr.core = true)
include hcore

/-- What a loop of AVS does where it does not stay idle. -/
def AvsDoes (s : State) (p : BitVec 12) (ps : List (BitVec 12)) (w step : Nat) (lim : Bool) (k : Nat) (os : List Out) : Prop :=
  ActsR [avsWord] [.hif, .out] (.avsLoop (p :: ps)) s fun t =>
    rd t.dev F.PWR_AVS_STATUS_VSET = w ∧ rd t.dev F.PWR_AVS_STATUS_STEP = step ∧ rdB t.dev F.PWR_AVS_STATUS_AT_LIMIT = lim ∧
    Sent s.dev t.dev os ∧ Raised s.dev t.dev (limitEvents s.sn (lowest p ps) k lim (rd s.dev F.PWR_AVS_STATUS_AT_LIMIT))

theorem avsDoes_limit {p : BitVec 12} {ps : List (BitVec 12)} {k : Nat} {lim : Bool} (hstep : rd s.dev F.PWR_AVS_STATUS_STEP = 0)
    (heq : avsLoop (p :: ps) s.sn s.dev = avsLimit s.sn (lowest p ps) k lim s.dev) :
    AvsDoes s p ps (rd s.dev F.PWR_AVS_STATUS_VSET) 0 lim k [] := by
  obtain ⟨h1, h2, h3, h4, h5⟩ := avsShows_limit s.dev s.sn (lowest p ps) k lim hstep
  exact (within_avsLimit s.dev s.sn (lowest p ps) k lim).mono.actsR (exec_of_core rfl hcore heq) ⟨h1, h2, h3, h4, h5⟩

theorem avsDoes_step {p : BitVec 12} {ps : List (BitVec 12)} {k w : Nat} {lim : Bool} (hw : w < 2 ^ 10)
    (heq : avsLoop (p :: ps) s.sn s.dev = avsLimit s.sn (lowest p ps) k lim (avsStep w s.dev)) :
    AvsDoes s p ps w 1 lim k [.avsWrite w] := by
  obtain ⟨h1, h2, h3, h4, h5⟩ := avsShows_step s.dev s.sn (lowest p ps) k w lim hw
  have hstep : Within [avsWord] [.regs, .hif, .out] s.dev (avsStep w s.dev) := (within_avsStep s.dev w).mono
  exact (hstep.next (within_avsLimit _ s.sn (lowest p ps) k lim)).actsR (exec_of_core rfl hcore heq) ⟨h1, h2, h3, h4, h5⟩

theorem avsLoop_acts (p : BitVec 12) (ps : List (BitVec 12)) :
    let low := lowest p ps
    let v := rd s.dev F.PWR_AVS_STATUS_VSET
    let m := rd s.dev F.PWR_AVS_CFG_MARGIN
    let lo := rd s.dev F.PWR_AVS_CFG_VMIN
    let hi := rd s.dev F.PWR_AVS_CFG_VMAX
    ((rd s.dev F.PWR_AVS_CFG_EN = 0 ∨ rd s.dev F.PWR_AVS_STATUS_STEP = 1) → exec (.avsLoop (p :: ps)) s = .next s) ∧
    (rd s.dev F.PWR_AVS_CFG_EN = 1 → rd s.dev F.PWR_AVS_STATUS_STEP = 0 →
      (low < m → v + 5 ≤ hi → AvsDoes s p ps (v + 5) 1 (decide (hi < v + 10)) 1 [.avsWrite (v + 5)]) ∧
      (low < m → hi < v + 5 → AvsDoes s p ps v 0 true 1 []) ∧
      (m + 8 < low → lo + 5 ≤ v → AvsDoes s p ps (v - 5) 1 (decide (v < lo + 10)) 0 [.avsWrite (v - 5)]) ∧
      (m + 8 < low → v < lo + 5 → AvsDoes s p ps v 0 true 0 []) ∧
      (m ≤ low → low ≤ m + 8 → exec (.avsLoop (p :: ps)) s = .next s)) := by
  refine ⟨fun h => exec_of_core_self (g := avsLoop (p :: ps) s.sn) rfl (avsLoop_idle s.dev s.sn p ps h), fun hen hstep => ?_⟩
  have hruns := avsLoop_runs s.dev s.sn p ps hen hstep
  have hv : rd s.dev F.PWR_AVS_STATUS_VSET < 2 ^ 10 := rd_lt _ _ _
  have hmax : rd s.dev F.PWR_AVS_CFG_VMAX < 2 ^ 10 := rd_lt _ _ _
  refine ⟨fun hlow hfit => ?_, fun hlow hfit => ?_, fun hhigh hfit => ?_, fun hhigh hfit => ?_, fun hge hle => ?_⟩
  · exact avsDoes_step hcore (by omega) (by rw [hruns, if_pos hlow, if_pos hfit])
  · exact avsDoes_limit hcore hstep (by rw [hruns, if_pos hlow, if_neg (by omega)])
  · exact avsDoes_step hcore (by omega) (by rw [hruns, if_neg (by omega), if_pos hhigh, if_pos hfit])
  · exact avsDoes_limit hcore hstep (by rw [hruns, if_neg (by omega), if_pos hhigh, if_neg (by omega)])
  · exact exec_of_core_self (g := avsLoop (p :: ps) s.sn) rfl (by rw [hruns, if_neg (by omega), if_neg (by omega)])

theorem avsStepDone_acts (hdue : s.dev.pwr.resetDue = false) : ActsR [avsWord] [] .avsStepDone s fun t =>
    rd t.dev F.PWR_AVS_STATUS_STEP = 0 ∧ rd t.dev F.PWR_AVS_STATUS_VSET = rd s.dev F.PWR_AVS_STATUS_VSET ∧
    rd t.dev F.PWR_AVS_STATUS_AT_LIMIT = rd s.dev F.PWR_AVS_STATUS_AT_LIMIT := by
  have hdone : avsDone s = { s with dev := wrB s.dev F.PWR_AVS_STATUS_STEP 0 false } := if_neg (by simp [hdue])
  refine Within.actsR (e := wrB s.dev F.PWR_AVS_STATUS_STEP 0 false) (Within.refl _ _ _).wrB ?_ ⟨rd_wrB_bit _ (by decide) _, ?_, ?_⟩
  · rw [exec_avsStepDone_of_core hcore, hdone]
  · exact rd_wrB_apart _ (by decide)
  · exact rd_wrB_apart _ (by decide)

theorem thermN_acts (hout : s.dev.pwr.thermOut = false) :
    ActsR [timWord, twinWord, F.MSIX_PBA.addr (rd s.dev F.HIF_CFG_NMI_VEC / 32)]
      [.pwr, .tim, .hif, .out, .pm, .twin, .prot] .thermNExternal s fun t =>
      let falls : Prop := (rd s.dev F.TWN_CFG_FAIL_MASK).testBit 1 = true
      t.dev.pwr = { s.dev.pwr with thermOut := true, thermDue := true } ∧ t.dev.hif.nmi = s.dev.hif.nmi + 1 ∧
      (∃ es, t.dev.hif.evq = s.dev.hif.evq ++ { typ := 0xB2, sn := s.sn, p0 := 2, p1 := rd s.dev F.PWR_TEMP_MAX_NOW,
                                                sb := s.dev.twin.role == .standby } :: es ∧ (¬ falls → es = [])) ∧
      (¬ falls → t.dev.twin = s.dev.twin ∧ t.dev.prot = s.dev.prot ∧ t.dev.tim = s.dev.tim) ∧
      (falls → s.dev.twin.role = .active → t.dev.twin.role = .failed ∧ t.dev.twin.latch = false ∧ t.dev.twin.failOut = true ∧
        rd t.dev F.TWN_STATUS_LAST_CAUSE = 6) := by
  obtain ⟨⟨hframe, hnmi, ⟨es, hes, hnone⟩, hstays, hfalls⟩, hpwr⟩ := thermRequest_requests hout 2 s.sn
  have hdrives : Within [timWord, twinWord, F.MSIX_PBA.addr (rd s.dev F.HIF_CFG_NMI_VEC / 32)]
      [.regs, .pwr, .tim, .hif, .out, .pm, .twin, .prot] s.dev (thermDriven s.dev) := (Within.refl _ _ _).onPwr
  have hvec : rd (thermDriven s.dev) F.HIF_CFG_NMI_VEC = rd s.dev F.HIF_CFG_NMI_VEC := rfl
  rw [hvec] at hframe
  refine (hdrives.next hframe).actsR (exec_of_core (g := thermRequest 2 s.sn) rfl hcore rfl)
    ⟨hpwr, hnmi, ⟨es, hes, fun h => hnone (Bool.eq_false_iff.2 h)⟩, fun h => hstays (Bool.eq_false_iff.2 h), fun h hrole => ?_⟩
  obtain ⟨htwin, -, hcause, -⟩ := hfalls h hrole
  exact ⟨congrArg Twin.role htwin, congrArg Twin.latch htwin, congrArg Twin.failOut htwin, hcause⟩

theorem thermDly_acts (ns : Nat) (hdue : s.dev.pwr.thermDue = true) (hst : s.dev.pwr.st = .active) :
    ActsR [pwrWord] [.pwr, .stagger, .hif] (.thermDlyExpiry ns) s fun t =>
      t.dev.pwr = { s.dev.pwr with
        thermDue := false, st := .entry, armed := false, latch := 0, discard := true, entryT := some (entrySweep s.sn ns),
        agreed := false, ticked := false, propose := none, waitDly := false } ∧
      t.dev.stagger = [] ∧ rd t.dev F.PWR_STATUS_LAST_OFF = 3 ∧
      Raised s.dev t.dev [{ typ := 0xB0, sn := s.sn, p0 := (entrySweep s.sn ns).toNat, p1 := 2 }] := by
  have heq : thermDly ns s.sn s.dev =
      acceptEntry (entrySweep s.sn ns) 2 s.sn (onPwr s.dev fun p => { p with thermDue := false }) := by
    simp [thermDly, hdue, onPwr, hst]
  have hbegins : Within [pwrWord] [.regs, .pwr, .stagger, .hif] s.dev (onPwr s.dev fun p => { p with thermDue := false }) :=
    (Within.refl _ _ _).onPwr
  exact (hbegins.next (within_acceptEntry _ s.sn _ 2)).actsR (exec_of_core rfl hcore heq)
    ⟨rfl, rfl, rd_wr_fits _ (by decide), rfl⟩

theorem thermDly_elsewhere (ns : Nat) (hdue : s.dev.pwr.thermDue = true) (hst : s.dev.pwr.st ≠ .active) :
    Acts [.pwr] (.thermDlyExpiry ns) s fun t => t.dev.pwr = { s.dev.pwr with thermDue := false } := by
  have heq : thermDly ns s.sn s.dev = onPwr s.dev fun p => { p with thermDue := false } := by
    simp [thermDly, hdue, onPwr, hst]
  exact (Within.refl [] [.pwr] s.dev).onPwr.acts (exec_of_core rfl hcore heq) rfl

end

theorem thermHold_acts {s : State} (hst : s.dev.pwr.st = .standby) : Acts [.pwr] .thermHoldExpiry s fun t =>
    t.dev.pwr = { s.dev.pwr with thermOut := false, discard := false } :=
  (Within.refl [] [.pwr] s.dev).onPwr.acts (exec_of_onDev rfl (if_pos hst)) rfl

/-- Settles O57: each loop by its own lemma; the sensors by what a reading notes (`SensorsNoted`) and what its request adds
(`SensorsRead`). -/
theorem healthLoops : Obligations.HealthLoops := by
  unfold Obligations.HealthLoops
  refine ⟨fun s hcore => ⟨?_, avsStepDone_acts hcore, pmbusTelemetry_acts hcore⟩, ?_, fun s => ⟨?_, thermN_acts, ?_, ?_, ?_, ?_, ?_⟩⟩
  · exact avsLoop_acts hcore
  · intro s temps volts procs k top hcore hk hmax now warn shut out vm wn trips th falls
    exact sensorRead_acts temps volts procs hcore k top hk hmax
  · exact fun hcore hout => exec_of_core_self (g := thermRequest 2 s.sn) rfl (thermRequest_idle hout 2 s.sn)
  · exact fun ns hcore hdue => exec_of_core_self (g := thermDly ns s.sn) rfl (if_pos (by simp [hdue]))
  · exact fun ns hcore => thermDly_acts hcore ns
  · exact fun ns hcore => thermDly_elsewhere hcore ns
  · exact thermHold_acts
  · exact fun hst => by
      show onDev s thermHold = _
      simp [onDev, thermHold, hst]

end Sys2Proof.Machine
end

