-- ==== Sys2Proof/Proofs/RoleChanges.lean ====
section
/-! PROOFS. The roles of a twin (R293 to R298, R547): what a change of role writes, said once, and the commands that make one. -/

namespace Sys2Proof.Machine

-- In order: a default argument `by simp` waits for every declaration before it, and many that wait take many threads.
set_option Elab.async false

/-! ### Fields of TWN_STATUS -/

section
variable (d : Dev)

theorem coupling_setCoupling {n : Nat} (h : n < 4) : rd (setCoupling d n) F.TWN_STATUS_COUPLING = n := rd_wr_fits d ⟨by decide, h⟩

/-- The other fields of TWN_STATUS stay as the coupling changes. -/
theorem rd_setCoupling (n : Nat) {f : Fld} {i : Nat} (h : F.TWN_STATUS_COUPLING.clear f = true) : rd (setCoupling d n) f i = rd d f i :=
  rd_wr_clear d h

theorem cause_lastCause {n : Nat} (h : n < 8) : rd (lastCause d n) F.TWN_STATUS_LAST_CAUSE = n := rd_wr_fits d ⟨by decide, h⟩

theorem rd_lastCause (n : Nat) {f : Fld} {i : Nat} (h : F.TWN_STATUS_LAST_CAUSE.clear f = true) : rd (lastCause d n) f i = rd d f i :=
  rd_wr_clear d h

/-! ### Changes of role (Table 12-3) -/

variable (sn : SN)

/-- The twin of a standby that has just become one. -/
def standbyTwin (w : Twin) : Twin := { w with role := .standby, latch := false, seqIn := none, cfgIn := none, sigGot := true }

theorem within_becomeStandby (cause : Nat) : Within [twinWord, timWord] [.regs, .twin, .hif] d (becomeStandby sn cause d) :=
  have hrole : Within [twinWord, timWord] [.regs, .twin, .hif] d (lastCause (onTwin d standbyTwin) cause) :=
    (Within.refl _ _ d).onTwin.lastCause
  .ite (fun _ => hrole.next (within_dpllLink sn _)) fun _ => hrole

/-- Without a link no reference changes. -/
theorem within_becomeStandby_unlinked (cause : Nat) (h : linkUp d = false) :
    Within [twinWord] [.regs, .twin] d (becomeStandby sn cause d) := by
  have hlink : linkUp (lastCause (onTwin d standbyTwin) cause) = false := by
    rw [linkUp, rdB, rd_lastCause _ _ (by decide)]; exact h
  have heq : becomeStandby sn cause d = lastCause (onTwin d standbyTwin) cause := if_neg (by rw [Bool.not_eq_true]; exact hlink)
  rw [heq]
  exact (Within.refl _ _ d).onTwin.lastCause

theorem becomeStandby_twin (cause : Nat) : (becomeStandby sn cause d).twin = standbyTwin d.twin := by
  unfold becomeStandby
  extract_lets
  split
  · exact (within_dpllLink sn _).parts .twin (by simp)
  · rfl

theorem rd_becomeStandby (cause : Nat) {f : Fld} {i : Nat} (h : f.addr i ≠ timWord) :
    rd (becomeStandby sn cause d) f i = rd (lastCause d cause) f i := by
  unfold becomeStandby
  extract_lets
  split
  · exact (within_dpllLink sn _).rd (by simpa using h)
  · rfl

theorem raisesOnly_becomeStandby (cause : Nat) : RaisesOnly d (becomeStandby sn cause d) :=
  .ite ((RaisesOnly.of_same rfl).trans (raisesOnly_dpllLink sn _)) (.of_same rfl)

theorem within_becomeActive (cause : Nat) : Within [twinWord, timWord] [.regs, .twin, .tim, .hif] d (becomeActive sn cause d) :=
  have hrole : Within [twinWord, timWord] [.regs, .twin, .tim, .hif] d
      (lastCause (onTwin d fun t => { t with role := .active, latch := true }) cause) := (Within.refl _ _ d).onTwin.lastCause
  hrole.next (within_dpllUnlink sn _)

theorem becomeActive_twin (cause : Nat) : (becomeActive sn cause d).twin = { d.twin with role := .active, latch := true } :=
  (within_dpllUnlink sn _).parts .twin (by simp)

theorem rd_becomeActive (cause : Nat) {f : Fld} {i : Nat} (h : f.addr i ≠ timWord) :
    rd (becomeActive sn cause d) f i = rd (lastCause d cause) f i :=
  (within_dpllUnlink sn _).rd (by simpa using h)

/-! ### The end of a resync, and divergence -/

theorem within_endResync (st : Nat) : Within [] [.twin, .hif] d (endResync sn st d) := by
  unfold endResync
  split
  · exact .refl _ _ d
  · exact (Within.foldl (fun _ _ _ => (Within.refl _ _ _).finish) d).onTwin

theorem foldl_finish_twin (ws : List (Nat × Nat)) (st : Nat) :
    (ws.foldl (fun d w => finish d w.1 w.2 st 0 sn) d).twin = d.twin :=
  foldl_same (g := Dev.twin) (f := fun d (w : Nat × Nat) => finish d w.1 w.2 st 0 sn) (fun _ _ => rfl) ws d

theorem foldl_finish_evq (ws : List (Nat × Nat)) (st : Nat) :
    (ws.foldl (fun d w => finish d w.1 w.2 st 0 sn) d).hif.evq = d.hif.evq :=
  foldl_same (g := fun d : Dev => d.hif.evq) (f := fun d (w : Nat × Nat) => finish d w.1 w.2 st 0 sn) (fun _ _ => rfl) ws d

theorem endResync_twin (st : Nat) : (endResync sn st d).twin =
    { d.twin with resync := none, resyncLast := d.twin.resyncLast && d.twin.resync.isNone } := by
  unfold endResync
  split
  case h_1 h => rw [h, Option.isNone_none, Bool.and_true, ← h]
  case h_2 ws h =>
    show ({ (ws.foldl (fun d w => finish d w.1 w.2 st 0 sn) d).twin with resync := none, resyncLast := false } : Twin) = _
    rw [foldl_finish_twin, h, Option.isNone_some, Bool.and_false]

theorem endResync_evq (st : Nat) : (endResync sn st d).hif.evq = d.hif.evq := by
  unfold endResync
  split
  · rfl
  · exact foldl_finish_evq d sn _ st

theorem within_toDiverged (cause : Nat) : Within [twinWord] [.regs, .twin, .hif, .out] d (toDiverged sn cause d) :=
  ⟨(toDiverged_frame sn cause d).1, (toDiverged_frame sn cause d).2⟩

theorem toDiverged_hif (cause : Nat) :
    (toDiverged sn cause d).hif = (raise d { typ := 0x65, sn := sn, p0 := cause }).hif := twinSend_hif _ _ _

theorem toDiverged_twin (cause : Nat) : (toDiverged sn cause d).twin = queuesOf (uncoupled d).twin (toDiverged sn cause d).twin :=
  (evals_twinSend (raise (uncoupled d) { typ := 0x65, sn := sn, p0 := cause }) 0xC [1]).twin

theorem rd_toDiverged (cause : Nat) (f : Fld) (i : Nat) : rd (toDiverged sn cause d) f i = rd (setCoupling d 1) f i :=
  (evals_twinSend (raise (uncoupled d) { typ := 0x65, sn := sn, p0 := cause }) 0xC [1]).rd (by simp)

end

end Sys2Proof.Machine
end

