-- ==== Sys2Proof/Proofs/Roles.lean ====
section
/-! PROOFS. The role latch and the role states (R293 to R298, R547). -/

namespace Sys2Proof.Machine

-- In order: a default argument `by simp` waits for every declaration before it, and many that wait take many threads.
set_option Elab.async false

/-! ### The heartbeat and the yield (R293, R294) -/

theorem heartbeatLoss_fails {s : State} (hoff : s.dev.pwr.hbOff = false) (hrole : s.dev.twin.role ≠ .failed)
    (hidle : ¬ (s.dev.twin.role = .disabled ∧ s.dev.twin.latch = false)) :
    ActsR [twinWord, timWord] [.twin, .tim, .hif, .prot] .heartbeatLoss s fun t =>
      t.dev.twin = failedTwin s.dev.twin ∧ t.dev.prot = { s.dev.prot with stopped := false } ∧
      rd t.dev F.TWN_STATUS_LAST_CAUSE = 6 ∧ rd t.dev F.TWN_STATUS_COUPLING = 0 := by
  obtain ⟨htwin, hprot, hcause, hcoupling⟩ := fails_roleFail s.sn s.dev hrole hidle
  exact (within_roleFail s.sn s.dev).mono.actsR (exec_of_onDev rfl (if_neg (by simp [hoff]))) ⟨htwin, hprot, hcause, hcoupling⟩

theorem heartbeatLoss_idle {s : State} (hrole : s.dev.twin.role = .disabled) (hlatch : s.dev.twin.latch = false) :
    exec .heartbeatLoss s = .next s := by
  have hidle : roleFail s.sn s.dev = s.dev := roleFail_idle s.sn s.dev (by simp [hrole, hlatch])
  exact exec_of_onDev (g := heartbeatLoss s.sn) rfl (by simp [heartbeatLoss, hidle])

theorem yield_unlatched {s : State} (hlatch : s.dev.twin.latch = false) : exec .yield s = .next s :=
  exec_of_onDev (g := yieldNow s.sn) rfl (if_pos (by simp [hlatch]))

/-- The active that yields, before it says that it has diverged. -/
def yielded (sn : SN) (d : Dev) : Dev :=
  becomeStandby sn 4 (endResync sn stDiverged (onTwin (wrB d F.TWN_STATUS_MATE_ACTIVE 0 true) fun t => { t with latch := false }))

theorem yieldNow_of_active {d : Dev} (hlatch : d.twin.latch = true) (hrole : d.twin.role = .active) (hhalf : d.twin.swapHalf = false)
    (sn : SN) : yieldNow sn d = toDiverged sn 5 (yielded sn d) := by
  simp [yieldNow, yielded, hlatch, hrole, hhalf, onTwin]

theorem yield_diverges {s : State} (hlatch : s.dev.twin.latch = true) (hrole : s.dev.twin.role = .active)
    (hhalf : s.dev.twin.swapHalf = false) : ActsR [twinWord, timWord] [.twin, .tim, .hif, .out] .yield s fun t =>
      t.dev.twin.role = .standby ∧ t.dev.twin.latch = false ∧ t.dev.twin.resync = none ∧ rd t.dev F.TWN_STATUS_COUPLING = 1 ∧
      rd t.dev F.TWN_STATUS_LAST_CAUSE = 4 ∧ rd t.dev F.TWN_STATUS_MATE_ACTIVE = 1 ∧
      ∃ e ∈ t.dev.hif.evq, e.typ = 0x65 ∧ e.sn = s.sn ∧ e.p0 = 5 := by
  have heq := yieldNow_of_active hlatch hrole hhalf s.sn
  generalize hw : onTwin (wrB s.dev F.TWN_STATUS_MATE_ACTIVE 0 true) (fun t => { t with latch := false }) = w at *
  have hnotes : Within [twinWord, timWord] [.regs, .twin, .tim, .hif, .out] s.dev w := hw ▸ (Within.refl _ _ s.dev).wrB.onTwin
  have hends : Within [twinWord, timWord] [.regs, .twin, .tim, .hif, .out] s.dev (endResync s.sn stDiverged w) :=
    hnotes.next (within_endResync w s.sn stDiverged) (by simp)
  have hyielded : yielded s.sn s.dev = becomeStandby s.sn 4 (endResync s.sn stDiverged w) := by rw [← hw]; rfl
  have htwin : (yielded s.sn s.dev).twin = standbyTwin (endResync s.sn stDiverged w).twin := by
    rw [hyielded, becomeStandby_twin]
  have hfld {f : Fld} (hf : f.addr 0 ≠ timWord) (hc : F.TWN_STATUS_COUPLING.clear f = true) :
      rd (toDiverged s.sn 5 (yielded s.sn s.dev)) f = rd (lastCause (endResync s.sn stDiverged w) 4) f := by
    rw [rd_toDiverged, rd_setCoupling _ _ hc, hyielded, rd_becomeStandby _ _ _ hf]
  have hyields : Within [twinWord, timWord] [.regs, .twin, .tim, .hif, .out] s.dev (yielded s.sn s.dev) := by
    rw [hyielded]
    exact hends.next (within_becomeStandby _ s.sn 4)
  refine (hyields.next (within_toDiverged _ s.sn 5)).actsR (exec_of_onDev rfl heq) ⟨?_, ?_, ?_, ?_, ?_, ?_, ?_⟩
  · rw [toDiverged_twin]
    exact congrArg Twin.role htwin
  · rw [toDiverged_twin]
    exact congrArg Twin.latch htwin
  · rw [toDiverged_twin]
    refine (congrArg Twin.resync htwin).trans ?_
    rw [endResync_twin]
    rfl
  · rw [rd_toDiverged, coupling_setCoupling _ (by decide)]
  · rw [hfld (by decide) (by decide), cause_lastCause _ (by decide)]
  · rw [hfld (by decide) (by decide), rd_lastCause _ _ (by decide), (within_endResync w s.sn stDiverged).rd (by simp), ← hw]
    exact rd_wrB_bit _ (by decide) true
  · rw [toDiverged_hif]
    exact ⟨_, List.mem_append_right _ (List.mem_singleton.2 rfl), rfl, rfl, rfl⟩

/-! ### TWN_CFG.EN and the claim (R295, R297, R547) -/

/-- The wait after which an UNPAIRED device claims. -/
def mayClaim (d : Dev) (q : Nat) (alive : Bool) : Prop := if rd d F.TWN_CFG_UNIT = 0 then 10 ≤ q else 20 ≤ q ∧ alive = false

theorem claimOk_iff (d : Dev) (q : Nat) (alive : Bool) :
    (if unitNo d then decide (20 ≤ q) && !alive else decide (10 ≤ q)) = true ↔ mayClaim d q alive := by
  unfold mayClaim unitNo rdB
  by_cases h : rd d F.TWN_CFG_UNIT = 0 <;> simp [h]

theorem twnCfgEn_locked {s : State} (hlock : s.lock = true) (en : Bool) : exec (.twnCfgEn en) s = .next s :=
  exec_of_core_self (g := twnEn en s.lock s.sn) rfl (if_pos (by simp [hlock]))

section
variable {s : State} (hcore : s.dev.pwr.core = true)
include hcore

section
variable (hlock : s.lock = false)
include hlock

/-- TWN_CFG. -/
abbrev twnCfgWord : Nat := F.TWN_CFG_EN.addr 0

theorem twnCfgEn_enables (hoff : rd s.dev F.TWN_CFG_EN = 0) (hrole : s.dev.twin.role = .disabled) :
    ActsR [twnCfgWord] [.twin] (.twnCfgEn true) s fun t => rd t.dev F.TWN_CFG_EN = 1 ∧
      t.dev.twin = { s.dev.twin with role := if s.dev.twin.latch = true then .active else .unpaired } := by
  have heq : twnEn true s.lock s.sn s.dev =
      onTwin (wrB s.dev F.TWN_CFG_EN 0 true) fun t => { t with role := if t.latch then .active else .unpaired } := by
    simp [twnEn, hlock, rdB, hoff, hrole]
  exact ((Within.refl _ _ _).wrB.onTwin).actsR (exec_of_core rfl hcore heq) ⟨rd_wrB_bit _ (by decide) true, rfl⟩

section
variable (hon : rd s.dev F.TWN_CFG_EN = 1)
include hon

theorem twnCfgEn_disables (hrole : s.dev.twin.role = .unpaired ∨ s.dev.twin.role = .active) :
    ActsR [twnCfgWord] [.twin] (.twnCfgEn false) s fun t =>
      rd t.dev F.TWN_CFG_EN = 0 ∧ t.dev.twin = { s.dev.twin with role := .disabled } := by
  have heq : twnEn false s.lock s.sn s.dev = onTwin (wrB s.dev F.TWN_CFG_EN 0 false) fun t => { t with role := .disabled } := by
    rcases hrole with h | h <;> simp [twnEn, hlock, rdB, hon, h]
  exact ((Within.refl _ _ _).wrB.onTwin).actsR (exec_of_core rfl hcore heq) ⟨rd_wrB_bit _ (by decide) false, rfl⟩

theorem twnCfgEn_ends_standby (hrole : s.dev.twin.role = .standby) :
    ActsR [twnCfgWord, twinWord, timWord] [.twin, .tim, .hif, .prot] (.twnCfgEn false) s fun t =>
      rd t.dev F.TWN_CFG_EN = 0 ∧ t.dev.twin = { s.dev.twin with role := .disabled, promoting := none, gpio := none } ∧
      t.dev.prot = { s.dev.prot with stopped := false } ∧ rd t.dev F.TWN_STATUS_COUPLING = 0 := by
  have heq : twnEn false s.lock s.sn s.dev = setCoupling (onTwin (dpllUnlink s.sn (endPromise (wrB s.dev F.TWN_CFG_EN 0 false)))
      fun t => { t with role := .disabled }) 0 := by
    simp [twnEn, hlock, rdB, hon, hrole]
  have hends : Within [twnCfgWord, twinWord, timWord] [.regs, .twin, .tim, .hif, .prot] s.dev (endPromise (wrB s.dev F.TWN_CFG_EN 0 false)) :=
    (Within.refl _ _ _).wrB.only (only_endPromise _)
  have hunlinks := within_dpllUnlink s.sn (endPromise (wrB s.dev F.TWN_CFG_EN 0 false))
  refine ((hends.next hunlinks).onTwin.setCoupling).actsR (exec_of_core rfl hcore heq) ⟨?_, ?_, ?_, ?_⟩
  · refine (rd_setCoupling _ _ (by decide)).trans ((hunlinks.rd (by decide)).trans ?_)
    exact rd_wrB_bit _ (by decide) false
  · exact congrArg (fun w : Twin => { w with role := .disabled }) (hunlinks.parts .twin (by simp))
  · exact hunlinks.parts .prot (by simp)
  · exact coupling_setCoupling _ (by decide)

theorem twnCfgEn_failed (hrole : s.dev.twin.role = .failed) :
    ActsR [twnCfgWord] [] (.twnCfgEn false) s fun t => rd t.dev F.TWN_CFG_EN = 0 := by
  have heq : twnEn false s.lock s.sn s.dev = wrB s.dev F.TWN_CFG_EN 0 false := by
    simp [twnEn, hlock, rdB, hon, hrole]
  exact ((Within.refl _ _ _).wrB).actsR (exec_of_core rfl hcore heq) (rd_wrB_bit _ (by decide) false)

end

end

theorem startUpClaim_claims {q : Nat} {alive : Bool} (hrole : s.dev.twin.role = .unpaired) (hmay : mayClaim s.dev q alive) :
    ActsR [twinWord, timWord] [.twin, .tim, .hif] (.startUpClaim q alive) s fun t =>
      t.dev.twin = { s.dev.twin with role := .active, latch := true } ∧ rd t.dev F.TWN_STATUS_LAST_CAUSE = 1 ∧
      (rd s.dev F.TIM_STATUS_SEL ≠ 8 → Raised s.dev t.dev [{ typ := 0x60, sn := s.sn }]) := by
  have hok := (claimOk_iff s.dev q alive).2 hmay
  have heq : claim q alive s.sn s.dev = raise (becomeActive s.sn 1
      (wrB (wrB s.dev F.TWN_STATUS_MATE_ACTIVE 0 false) F.TWN_STATUS_MATE_ALIVE 0 alive)) { typ := 0x60, sn := s.sn } := by
    unfold claim
    rw [hok]
    exact if_neg (by simp [hrole])
  generalize hw : wrB (wrB s.dev F.TWN_STATUS_MATE_ACTIVE 0 false) F.TWN_STATUS_MATE_ALIVE 0 alive = w at heq
  have hnotes : Within [twinWord] [.regs] s.dev w := hw ▸ (Within.refl _ _ s.dev).wrB.wrB
  have htwin : w.twin = s.dev.twin := hnotes.parts .twin (by simp)
  refine ((hnotes.mono.trans (within_becomeActive w s.sn 1)).raise).actsR (exec_of_core rfl hcore heq) ⟨?_, ?_, fun hsel => ?_⟩
  · exact (becomeActive_twin w s.sn 1).trans (by rw [htwin])
  · exact (rd_becomeActive w s.sn 1 (by decide)).trans (cause_lastCause _ (by decide))
  · have hsame : becomeActive s.sn 1 w = lastCause (onTwin w fun t => { t with role := .active, latch := true }) 1 := by
      refine dpllUnlink_same s.sn _ ?_
      rw [rd_lastCause _ _ (by decide)]
      exact fun h => hsel ((hnotes.rd (by decide)).symm.trans h)
    have hhif : w.hif = s.dev.hif := hnotes.parts .hif (by simp)
    rw [hsame]
    simp [Raised, raise, lastCause, onTwin, hhif, hrole]

end

theorem startUpClaim_waits {s : State} {q : Nat} {alive : Bool} (h : s.dev.twin.role ≠ .unpaired ∨ ¬ mayClaim s.dev q alive) :
    exec (.startUpClaim q alive) s = .next s := by
  refine exec_of_core_self (g := claim q alive s.sn) rfl (if_pos (h.imp_right fun hno => ?_))
  rw [Bool.not_eq_true', ← Bool.not_eq_true]
  exact fun hok => hno ((claimOk_iff s.dev q alive).1 hok)

/-- Settles O25: the always-on island first, then what the core's registers bring. -/
theorem rolesChangeAsTheTableStates : Obligations.RolesChangeAsTheTableStates := by
  unfold Obligations.RolesChangeAsTheTableStates
  intro s
  refine ⟨heartbeatLoss_fails, heartbeatLoss_idle, yield_unlatched, yield_diverges, fun hcore => ⟨twnCfgEn_locked, ?_, ?_⟩⟩
  · exact fun hlock => ⟨twnCfgEn_enables hcore hlock, twnCfgEn_disables hcore hlock, twnCfgEn_ends_standby hcore hlock,
      twnCfgEn_failed hcore hlock⟩
  · exact fun q alive => ⟨startUpClaim_claims hcore, startUpClaim_waits⟩

end Sys2Proof.Machine
end

