-- ==== Sys2Proof/Proofs/RoleSwaps.lean ====
section
/-! PROOFS. Mate death, promotion and the role swap (R313 to R318, R321). -/

namespace Sys2Proof.Machine

-- In order: a default argument `by simp` waits for every declaration before it, and many that wait take many threads.
set_option Elab.async false

/-! ### Evaluations and the trigger bus -/

theorem putGroup_stopped (d : Dev) (pgid : Nat) (g : Group) (sn : SN) : (putGroup d pgid g sn).prot.stopped = d.prot.stopped := by
  unfold putGroup
  extract_lets
  split
  · split
    · rfl
    · extract_lets
      split
      · rfl
      · split <;> rfl
  · rfl

theorem sendDecision_stopped (d : Dev) (pgid : Nat) (g : Group) (sig : Nat) (x : SN) (req : Nat) :
    (sendDecision d pgid g sig x req).prot.stopped = d.prot.stopped :=
  congrArg Prot.stopped ((evals_sendDecision d pgid g sig x req).parts .prot (by simp))

/-- An evaluation neither stops the trigger bus nor starts it. -/
theorem evalGroup_stopped (sn : SN) (ns : Nat) (d : Dev) (pgid : Nat) : (evalGroup sn ns d pgid).prot.stopped = d.prot.stopped := by
  unfold evalGroup
  split
  · rfl
  · have hset (g : Group) : (setGroup d pgid g).prot.stopped = d.prot.stopped := rfl
    simp only [apply_ite Dev.prot, apply_ite Prot.stopped, sendDecision_stopped, putGroup_stopped, hset, ite_self]

theorem evalAll_stopped (sn : SN) (ns : Nat) (d : Dev) : (evalAll sn ns d).prot.stopped = d.prot.stopped :=
  foldl_same (g := fun d : Dev => d.prot.stopped) (fun d pgid => evalGroup_stopped sn ns d pgid) _ d

theorem rollback_of_no_mirror {d : Dev} (h : mirrors d = false) : rollback d = restore d := by
  have hsend (ws : List EntryWr) : sendEntries d ws = d := if_neg (by simp [h])
  simp [rollback, mirrorRollback, mirrorEntries, hsend]

theorem within_ptbStop (d : Dev) : Within [] [.prot, .out] d (ptbStop d) := by
  have hstop : Within [] [.prot, .out] d { d with prot := { d.prot with stopped := true } } := (Within.refl _ _ d).only (only_prot d _)
  exact hstop.trans (.foldl (fun _ _ _ => .ite (fun _ => (Within.refl _ _ _).emit) fun _ => (Within.refl _ _ _).emit) _)

theorem ptbStop_stopped (d : Dev) : (ptbStop d).prot.stopped = true := by
  have hpins (d : Dev) (p : Nat) : (if ptbOn d p then emit d (.ptb p false (d.prot.cyc == 0) (d.prot.lastAck.getD p 0))
      else emit d (.ptb p false false 0)).prot.stopped = d.prot.stopped := by
    split <;> rfl
  exact foldl_same (g := fun d : Dev => d.prot.stopped)
    (f := fun d p => if ptbOn d p then emit d (.ptb p false (_ == 0) (d.prot.lastAck.getD p 0)) else emit d (.ptb p false false 0))
    (fun d p => by split <;> rfl) _ _

/-! ### Mate death (R313, R315) -/

/-- What shows the mate's death in TWN_STATUS. -/
def deathNoted (pin : Bool) (d : Dev) : Dev := if pin then wrB d F.TWN_STATUS_MATE_FAIL 0 true else wrB d F.TWN_STATUS_MATE_ALIVE 0 false

theorem within_deathNoted (pin : Bool) (d : Dev) : Within [twinWord] [.regs] d (deathNoted pin d) :=
  .ite (fun _ => (Within.refl _ _ d).wrB) fun _ => (Within.refl _ _ d).wrB

/-- LAST_CAUSE of the promotion. -/
def deathCause (pin : Bool) : Nat := if pin then 2 else 3

/-- The twin of a standby that has declared mate death. -/
def deathTwin (cause : Nat) (d : Dev) (t : Twin) : Twin :=
  { t with
    promoting := some (cause, failLanes d),
    gpio := some (BitVec.ofNat 32 (rd d F.GLB_GPIO_OUT_VAL + 65536 * rd d F.GLB_GPIO_DIR_OE)),
    early := [], snapLast := false, resyncT := none, clean := 0 }

/-- The standby as it declares mate death: its ports freeze and its coupling ends. -/
def deathNamed (cause : Nat) (sn : SN) (d : Dev) : Dev :=
  onTwin (setCoupling (raise d { typ := 0x68, sn := sn, p0 := cause, p1 := sn.toNat }) 0) (deathTwin cause d)

/-- The trigger bus stops, and Tilth drops what the active has sent. -/
def deathDeclared (cause : Nat) (sn : SN) (d : Dev) : Dev :=
  onTilth (ptbStop (deathNamed cause sn d)) fun t => { t with late := [], fresh := false, planeIn := [] }

/-- Its shadow rolled back where Tilth may. -/
def deathRolledBack (d : Dev) : Dev := if d.tilth.prep.isNone && d.tilth.released then rollback d else d

theorem mateDeath_of_standby {pin : Bool} {ns : Nat} {sn : SN} {d : Dev} (hrole : d.twin.role = .standby) (hoff : d.pwr.hbOff = false)
    (hentry : ¬ (d.pwr.st = .entry ∧ d.pwr.agreed = true)) (htick : ticking d = true) (hfree : d.twin.promoting = none) :
    mateDeath pin ns sn d = evalAll sn ns (deathRolledBack (deathDeclared (deathCause pin) sn (deathNoted pin d))) := by
  have hnoted := within_deathNoted pin d
  have htwin : (deathNoted pin d).twin = d.twin := hnoted.parts .twin (by simp)
  have hpwr : (deathNoted pin d).pwr = d.pwr := hnoted.parts .pwr (by simp)
  have htim : (deathNoted pin d).tim = d.tim := hnoted.parts .tim (by simp)
  have htick' : ticking (deathNoted pin d) = true := by
    rw [ticking, hnoted.rdB (by decide), hnoted.rd (by decide), htim]; exact htick
  have hstays : ¬ ((deathNoted pin d).pwr.hbOff = true ∨ ((deathNoted pin d).pwr.st = .entry ∧ (deathNoted pin d).pwr.agreed = true) ∨
      (!ticking (deathNoted pin d)) = true ∨ (deathNoted pin d).twin.promoting.isSome = true) := by
    simp only [hpwr, htwin, htick', hoff, hfree]
    simpa using hentry
  unfold mateDeath
  change (match (deathNoted pin d).twin.role with | .standby => _ | .active => _ | _ => _) = _
  rw [htwin, hrole]
  exact if_neg hstays

section
variable (cause : Nat) (sn : SN) (d : Dev)

theorem within_deathNamed : Within [twinWord] [.regs, .twin, .hif] d (deathNamed cause sn d) :=
  ((Within.refl _ _ d).raise.setCoupling).onTwin

theorem within_deathDeclared : Within [twinWord] [.regs, .twin, .hif, .prot, .tilth, .out] d (deathDeclared cause sn d) :=
  (((within_deathNamed cause sn d).mono).next (within_ptbStop _)).only (only_onTilth _ _)

theorem deathDeclared_twin : (deathDeclared cause sn d).twin = deathTwin cause d d.twin :=
  (within_ptbStop (deathNamed cause sn d)).parts .twin (by simp)

theorem deathDeclared_hif :
    (deathDeclared cause sn d).hif = (raise d { typ := 0x68, sn := sn, p0 := cause, p1 := sn.toNat }).hif :=
  (within_ptbStop (deathNamed cause sn d)).parts .hif (by simp)

theorem coupling_deathDeclared : rd (deathDeclared cause sn d) F.TWN_STATUS_COUPLING = 0 :=
  ((within_ptbStop (deathNamed cause sn d)).rd (by simp)).trans (coupling_setCoupling _ (by decide))

end

/-- Rolling back on a standby. -/
theorem deathRolledBack_of_standby {d : Dev} (h : mirrors d = false) :
    Only [.sw] d (deathRolledBack d) ∧ active (deathRolledBack d) = active d := by
  unfold deathRolledBack
  split
  · rw [rollback_of_no_mirror h]
    exact ⟨((only_setShadow _ _).trans (only_cleanEnts _ _ _)).mono (by simp), active_restore d⟩
  · exact ⟨Only.refl _ d, rfl⟩

theorem mirrors_of_standby {d : Dev} (h : d.twin.role = .standby) : mirrors d = false := by simp [mirrors, h]

section
variable {s : State} (hcore : s.dev.pwr.core = true)
include hcore

theorem mateDeath_declared (pin : Bool) (ns : Nat) (hrole : s.dev.twin.role = .standby) (hoff : s.dev.pwr.hbOff = false)
    (hentry : ¬ (s.dev.pwr.st = .entry ∧ s.dev.pwr.agreed = true)) (htick : ticking s.dev = true) (hfree : s.dev.twin.promoting = none) :
    ActsR (twinWord :: evalRegs) [.twin, .hif, .prot, .sw, .tilth, .out] (.mateDeath pin ns) s fun t =>
      t.dev.twin.promoting = some (if pin then 2 else 3, (List.range 128).filter (sigFlag s.dev)) ∧ t.dev.prot.stopped = true ∧
      t.dev.twin.role = .standby ∧ rd t.dev F.TWN_STATUS_COUPLING = 0 ∧ active t.dev = active s.dev ∧
      Raised s.dev t.dev [{ typ := 0x68, sn := s.sn, p0 := if pin then 2 else 3, p1 := s.sn.toNat }] := by
  have heq := mateDeath_of_standby (pin := pin) (ns := ns) (sn := s.sn) hrole hoff hentry htick hfree
  have hnoted := within_deathNoted pin s.dev
  have htwin : (deathNoted pin s.dev).twin = s.dev.twin := hnoted.parts .twin (by simp)
  have hhif : (deathNoted pin s.dev).hif = s.dev.hif := hnoted.parts .hif (by simp)
  have hflags : failLanes (deathNoted pin s.dev) = (List.range 128).filter (sigFlag s.dev) := by
    refine List.filter_congr fun n _ => ?_
    rw [sigFlag, sigFlag, hnoted.rd]
    simpa using Fld.addr_ne (by decide) (n / 32) 0
  have hdeclared := within_deathDeclared (deathCause pin) s.sn (deathNoted pin s.dev)
  have hdtwin := deathDeclared_twin (deathCause pin) s.sn (deathNoted pin s.dev)
  have hdhif := deathDeclared_hif (deathCause pin) s.sn (deathNoted pin s.dev)
  have hdcoupling := coupling_deathDeclared (deathCause pin) s.sn (deathNoted pin s.dev)
  have hdstopped : (deathDeclared (deathCause pin) s.sn (deathNoted pin s.dev)).prot.stopped = true := ptbStop_stopped _
  generalize hb : deathDeclared (deathCause pin) s.sn (deathNoted pin s.dev) = b at *
  have hbrole : b.twin.role = .standby := (congrArg Twin.role hdtwin).trans ((congrArg Twin.role htwin).trans hrole)
  obtain ⟨hback, hactive⟩ := deathRolledBack_of_standby (mirrors_of_standby hbrole)
  have heval := evals_evalAll s.sn ns (deathRolledBack b)
  have hwithin : Within (twinWord :: evalRegs) [.regs, .twin, .hif, .prot, .sw, .tilth, .out] s.dev b :=
    (hnoted.mono (by simp) (by simp)).next hdeclared
  refine ((hwithin.only hback).next heval.within (List.Subset.trans pscRegs_subset (List.subset_cons_self _ _))).actsR
    (exec_of_core (g := mateDeath pin ns s.sn) rfl hcore heq) ⟨?_, ?_, ?_, ?_, ?_, ?_⟩
  · rw [heval.twin]
    refine (congrArg Twin.promoting (hback .twin (by simp))).trans ((congrArg Twin.promoting hdtwin).trans ?_)
    rw [deathTwin, hflags]
    rfl
  · rw [evalAll_stopped]
    exact (congrArg Prot.stopped (hback .prot (by simp))).trans hdstopped
  · rw [heval.role]
    exact (congrArg Twin.role (hback .twin (by simp))).trans hbrole
  · rw [heval.rd (by decide), rd, rdWord_congr (hback .regs (by simp))]
    exact hdcoupling
  · rw [active_congr (heval.parts .sw (by simp)), hactive, active_congr (hdeclared.parts .sw (by simp)),
      active_congr (hnoted.parts .sw (by simp))]
  · have hlast : (evalAll s.sn ns (deathRolledBack b)).hif = b.hif := (heval.parts .hif (by simp)).trans (hback .hif (by simp))
    refine (raised_raise (deathNoted pin s.dev) _).of_same (congrArg Hif.evq hhif) (congrArg Twin.role htwin) ?_
    rw [hlast, hdhif]
    rfl

theorem mateDeath_of_active (ns : Nat) (hrole : s.dev.twin.role = .active) :
    ActsR [twinWord] [.twin, .hif] (.mateDeath true ns) s fun t =>
      t.dev.twin.role = .active ∧ t.dev.twin.latch = s.dev.twin.latch ∧ t.dev.twin.resync = none ∧
      rd t.dev F.TWN_STATUS_COUPLING = 0 ∧ Raised s.dev t.dev [{ typ := 0x69, sn := s.sn }] := by
  have heq : mateDeath true ns s.sn s.dev = endResync s.sn stDiverged
      (setCoupling (raise (wrB s.dev F.TWN_STATUS_MATE_FAIL 0 true) { typ := 0x69, sn := s.sn }) 0) := by
    simp [mateDeath, hrole]
  generalize hw : setCoupling (raise (wrB s.dev F.TWN_STATUS_MATE_FAIL 0 true) { typ := 0x69, sn := s.sn }) 0 = w at heq
  have hnotes : Within [twinWord] [.regs, .twin, .hif] s.dev w := hw ▸ ((Within.refl _ _ s.dev).wrB.raise).setCoupling
  have hends := within_endResync w s.sn stDiverged
  refine (hnotes.next hends (by simp)).actsR (exec_of_core rfl hcore heq) ⟨?_, ?_, ?_, ?_, ?_⟩
  · rw [endResync_twin, ← hw]
    exact hrole
  · rw [endResync_twin, ← hw]
    rfl
  · rw [endResync_twin]
  · rw [hends.rd (by simp), ← hw]
    exact coupling_setCoupling _ (by decide)
  · rw [← hw]
    exact (raised_raise (wrB s.dev F.TWN_STATUS_MATE_FAIL 0 true) _).of_same rfl rfl (endResync_evq _ _ _)

end

/-! ### Promotion (R315 to R318) -/

/-- The device as it becomes active by promotion, before it holds the grains of the lanes that fail. -/
def promoted (cause : Nat) (sn : SN) (d : Dev) : Dev :=
  let e := becomeActive sn cause (onTwin d fun t => { t with promoting := none, gpio := none, holdTmo := rd d F.TWN_CFG_HOLD_TMO })
  { e with prot := { e.prot with stopped := false } }

/-- The enabled egress grains of the lanes `ls`. -/
def egressOf (d : Dev) (ls : List Nat) : List Nat :=
  ((active d).egr.filter fun e => egrEn e.2 && ls.contains (portOf e.1)).map (·.1)

/-- Promotion holds on the grains `us`. -/
def promoHeld (us : List Nat) (d : Dev) : Dev := us.foldl (fun d u => modSel d u fun x => { x with promo := true, ending := false }) d

theorem promotion_of_standby {d : Dev} {cause : Nat} {ls : List Nat} (hrole : d.twin.role = .standby)
    (hprom : d.twin.promoting = some (cause, ls)) (sn : SN) :
    promotion sn d = promoHeld (egressOf (promoted cause sn d) ls) (promoted cause sn d) := by
  unfold promotion
  rw [if_pos hrole, hprom]
  rfl

theorem within_promoted (cause : Nat) (sn : SN) (d : Dev) :
    Within [twinWord, timWord] [.regs, .twin, .tim, .hif, .prot] d (promoted cause sn d) := by
  have hrole : Within [twinWord, timWord] [.regs, .twin, .tim, .hif, .prot] d
      (onTwin d fun t => { t with promoting := none, gpio := none, holdTmo := rd d F.TWN_CFG_HOLD_TMO }) := (Within.refl _ _ d).onTwin
  exact (hrole.next (within_becomeActive _ sn cause)).only (only_prot _ _)

theorem promoted_twin (cause : Nat) (sn : SN) (d : Dev) : (promoted cause sn d).twin =
    { d.twin with role := .active, latch := true, promoting := none, gpio := none, holdTmo := rd d F.TWN_CFG_HOLD_TMO } :=
  becomeActive_twin _ sn cause

theorem only_promoHeld (us : List Nat) (d : Dev) : Only [.sw] d (promoHeld us d) := by
  induction us generalizing d with
  | nil => exact Only.refl _ d
  | cons u us ih => exact ((only_modSel d _).trans (ih _)).mono (by simp)

theorem promoHeld_sw (us : List Nat) (d : Dev) : (promoHeld us d).sw = { d.sw with sel := (promoHeld us d).sw.sel } := by
  induction us generalizing d with
  | nil => rfl
  | cons u us ih => exact (ih _).trans rfl

/-- A promotion hold comes to the grains named and to no other. -/
theorem selAt_promoHeld (us : List Nat) (d : Dev) (u : Nat) :
    (u ∈ us → (selAt (promoHeld us d) u).promo = true) ∧ (u ∉ us → selAt (promoHeld us d) u = selAt d u) := by
  induction us using List.reverseRecOn with
  | nil => simp [promoHeld]
  | append_singleton us v ih =>
    obtain ⟨hheld, hkept⟩ := ih
    simp only [promoHeld, List.foldl_append, List.foldl_cons, List.foldl_nil, List.mem_append, List.mem_singleton] at hheld hkept ⊢
    by_cases huv : u = v
    · subst huv
      simp [selAt_modSel_same]
    · rw [selAt_modSel_ne _ _ huv]
      simpa [huv] using ⟨hheld, hkept⟩

theorem egrEn_mem {m : Tbl (BitVec 25)} {u : Nat} (h : egrEn (tget egrD m u) = true) : (u, tget egrD m u) ∈ m := by
  induction m with
  | nil => simp [tget, egrD, egrEn] at h
  | cons e m ih =>
    obtain ⟨k, v⟩ := e
    by_cases hk : k = u
    · simp [tget, hk]
    · rw [tget, if_neg hk] at h ⊢
      exact List.mem_cons_of_mem _ (ih h)

theorem mem_egressOf {d : Dev} {ls : List Nat} {u : Nat} (hen : egrEn (egrAt (active d) u) = true) (hport : ls.contains (portOf u) = true) :
    u ∈ egressOf d ls :=
  List.mem_map.2 ⟨(u, egrAt (active d) u), List.mem_filter.2 ⟨egrEn_mem hen, by simp only [hport, Bool.and_true]; exact hen⟩, rfl⟩

theorem not_mem_egressOf {d : Dev} {ls : List Nat} {u : Nat} (hport : ls.contains (portOf u) = false) : u ∉ egressOf d ls := by
  intro hmem
  obtain ⟨e, he, rfl⟩ := List.mem_map.1 hmem
  have := (List.mem_filter.1 he).2
  rw [hport, Bool.and_false] at this
  exact Bool.false_ne_true this

/-! ### The end of every promotion hold (R317) -/

theorem promo_endPromo (x : Sel) : (endPromo x).promo = false := by
  unfold endPromo
  split
  · rfl
  · next h => simpa using h

/-- Every listed entry is put anew without its promotion hold. -/
theorem promo_foldl_endPromo (l m : Tbl Sel) (u : Nat) :
    (u ∈ l.map (·.1) → (tget {} (l.foldl (fun m e => tput {} m e.1 (endPromo e.2)) m) u).promo = false) ∧
    (u ∉ l.map (·.1) → tget {} (l.foldl (fun m e => tput {} m e.1 (endPromo e.2)) m) u = tget {} m u) := by
  induction l using List.reverseRecOn with
  | nil => simp
  | append_singleton l e ih =>
    simp only [List.map_append, List.map_cons, List.map_nil, List.mem_append, List.mem_singleton, List.foldl_append, List.foldl_cons,
      List.foldl_nil]
    by_cases hu : u = e.1
    · subst hu
      simp [promo_endPromo]
    · rw [tget_tput_ne _ _ _ hu]
      simpa [hu] using ih

theorem promo_endPromoOn (d : Dev) (u : Nat) : (selAt (endPromoOn (fun _ => true) d) u).promo = false := by
  obtain ⟨hended, hkept⟩ := promo_foldl_endPromo d.sw.sel d.sw.sel u
  by_cases hu : u ∈ d.sw.sel.map (·.1)
  · exact hended hu
  · have hnone : tfind d.sw.sel u = none := by
      by_contra h
      obtain ⟨v, hv⟩ := Option.ne_none_iff_exists'.1 h
      exact hu (mem_keys_of_tfind hv)
    refine (congrArg Sel.promo (hkept hu)).trans ?_
    rw [tget_eq_tfind, hnone]
    rfl

theorem only_endPromoOn (f : Nat → Bool) (d : Dev) : Only [.sw] d (endPromoOn f d) := only_sw d _

/-! ### The commands of promotion and of the role swap -/

theorem holdTmoExpiry_idle {s : State} (htmo : s.dev.twin.holdTmo = 0) : exec .holdTmoExpiry s = .next s :=
  exec_of_core_self (g := holdTmo) rfl (if_pos htmo)

/-- The standby of the twin follows closely enough for a swap (R321). -/
def SwapReady (d : Dev) : Prop :=
  d.twin.role = .active ∧ linkUp d = true ∧ coupling d = 3 ∧ ∀ n < 128, sigFlag d n = false

theorem swapReady_iff (d : Dev) :
    ¬ (d.twin.role ≠ .active ∨ (!linkUp d) = true ∨ coupling d ≠ 3 ∨ (!(failLanes d).isEmpty) = true) ↔ SwapReady d := by
  have hlanes : failLanes d = [] ↔ ∀ n < 128, sigFlag d n = false := by
    simp [failLanes, List.filter_eq_nil_iff]
  simp [SwapReady, ← hlanes]

section
variable {s : State} {r : Fin 16} {e : QEnt} (he : servedBy s.dev r 0x70 = some e) (hres : reservedAt e.raw = none)
include he hres

theorem serveSwap_eq : serveSwap r s.sn s.dev =
    if s.dev.twin.role ≠ .active ∨ (!linkUp s.dev) = true ∨ coupling s.dev ≠ 3 ∨ (!(failLanes s.dev).isEmpty) = true then
      finish s.dev r e.uid stBlocked 5 s.sn
    else if s.dev.tilth.prep.isSome = true ∨ s.dev.tilth.batch.isSome = true ∨ s.dev.twin.swap.isSome = true then s.dev
    else take (control (onTwin s.dev fun t => { t with swap := some (r.val, e.uid,
        (fixTarget s.dev s.sn (timedOf e.raw) (targetOf e.raw)).1, (fixTarget s.dev s.sn (timedOf e.raw) (targetOf e.raw)).2) }) 5
      [(fixTarget s.dev s.sn (timedOf e.raw) (targetOf e.raw)).1.toNat]) r e.uid := by
  simp only [serveSwap, he, reservedProb_of_none hres]
  rfl

theorem twinRoleSwap_waits (hready : SwapReady s.dev) (hbusy : s.dev.tilth.prep.isSome = true ∨ s.dev.tilth.batch.isSome = true) :
    exec (.twinRoleSwap r) s = .next s := by
  have heq := serveSwap_eq he hres
  rw [if_neg ((swapReady_iff s.dev).2 hready), if_pos (hbusy.imp_right Or.inl)] at heq
  exact exec_of_core_self (g := serveSwap r s.sn) rfl heq

end

section
variable {s : State} (hcore : s.dev.pwr.core = true)
include hcore

theorem promotion_acts {cause : Nat} {ls : List Nat} (hrole : s.dev.twin.role = .standby)
    (hprom : s.dev.twin.promoting = some (cause, ls)) (hcause : cause < 8) :
    ActsR [twinWord, timWord] [.twin, .tim, .hif, .prot, .sw] .promotion s fun t =>
      t.dev.twin = { s.dev.twin with role := .active, latch := true, promoting := none, gpio := none,
                                     holdTmo := rd s.dev F.TWN_CFG_HOLD_TMO } ∧
      rd t.dev F.TWN_STATUS_LAST_CAUSE = cause ∧ t.dev.prot = { s.dev.prot with stopped := false } ∧
      t.dev.sw = { s.dev.sw with sel := t.dev.sw.sel } ∧
      (∀ u, egrEn (egrAt (active s.dev) u) = true → ls.contains (portOf u) = true → (selAt t.dev u).promo = true) ∧
      (∀ u, ls.contains (portOf u) = false → selAt t.dev u = selAt s.dev u) := by
  have hpromoted := within_promoted cause s.sn s.dev
  have hsw : (promoted cause s.sn s.dev).sw = s.dev.sw := hpromoted.parts .sw (by simp)
  have hactive : active (promoted cause s.sn s.dev) = active s.dev := active_congr hsw
  have htwin := promoted_twin cause s.sn s.dev
  have hlast : rd (promoted cause s.sn s.dev) F.TWN_STATUS_LAST_CAUSE = cause :=
    (rd_becomeActive _ s.sn cause (by decide)).trans (cause_lastCause _ hcause)
  have hprot : (promoted cause s.sn s.dev).prot = { s.dev.prot with stopped := false } :=
    congrArg (fun p : Prot => { p with stopped := false })
      ((within_becomeActive (onTwin s.dev fun t => { t with promoting := none, gpio := none, holdTmo := rd s.dev F.TWN_CFG_HOLD_TMO })
        s.sn cause).parts .prot (by simp))
  have heq := promotion_of_standby hrole hprom s.sn
  generalize promoted cause s.sn s.dev = p at *
  have hheld := only_promoHeld (egressOf p ls) p
  refine ((hpromoted.mono (by simp) (by simp)).only hheld).actsR (exec_of_core rfl hcore heq) ⟨?_, ?_, ?_, ?_, fun u hen hport => ?_, fun u hport => ?_⟩
  · exact (hheld .twin (by simp)).trans htwin
  · rw [rd, rdWord_congr (hheld .regs (by simp))]
    exact hlast
  · exact (hheld .prot (by simp)).trans hprot
  · exact (promoHeld_sw _ p).trans (by rw [hsw])
  · exact (selAt_promoHeld _ p u).1 (mem_egressOf (by rw [hactive]; exact hen) hport)
  · rw [(selAt_promoHeld _ p u).2 (not_mem_egressOf hport), selAt, hsw]
    rfl

theorem holdTmoExpiry_ends (htmo : s.dev.twin.holdTmo ≠ 0) : Acts [.sw] .holdTmoExpiry s fun t =>
    t.dev.sw = { s.dev.sw with sel := t.dev.sw.sel } ∧ ∀ u, (selAt t.dev u).promo = false :=
  (Within.of_only (only_endPromoOn _ _)).acts (exec_of_core (g := holdTmo) rfl hcore (if_neg htmo)) ⟨rfl, promo_endPromoOn s.dev⟩

section
variable {r : Fin 16} {e : QEnt} (he : servedBy s.dev r 0x70 = some e) (hres : reservedAt e.raw = none)
include he hres

theorem twinRoleSwap_blocked (hready : ¬ SwapReady s.dev) : Acts [.hif] (.twinRoleSwap r) s fun t =>
    Served s.dev t.dev r e.uid 3 5 s.sn 0 := by
  have heq := serveSwap_eq he hres
  rw [if_pos (not_not.1 fun h => hready ((swapReady_iff s.dev).1 h))] at heq
  exact (Within.of_only (only_finish _ _ _ _ _ _ _)).acts (exec_of_core (g := serveSwap r s.sn) rfl hcore heq) (served_finish _ _ _ _ _ _ _)

theorem twinRoleSwap_tells (hready : SwapReady s.dev) (hprep : s.dev.tilth.prep = none) (hbatch : s.dev.tilth.batch = none)
    (hswap : s.dev.twin.swap = none) : Acts [.twin, .hif, .out] (.twinRoleSwap r) s fun t =>
      let x := fixTarget s.dev s.sn (timedOf e.raw) (targetOf e.raw)
      Taken s.dev t.dev r e.uid ∧ t.dev.twin = queuesOf { s.dev.twin with swap := some (r.val, e.uid, x.1, x.2) } t.dev.twin ∧
      SentRec s.dev t.dev [(0xC, [5, x.1.toNat])] := by
  have heq := serveSwap_eq he hres
  rw [if_neg ((swapReady_iff s.dev).2 hready), if_neg (by simp [hprep, hbatch, hswap])] at heq
  generalize fixTarget s.dev s.sn (timedOf e.raw) (targetOf e.raw) = x at heq ⊢
  generalize hn : onTwin s.dev (fun t => { t with swap := some (r.val, e.uid, x.1, x.2) }) = n at heq
  have hnamed : Within [] [.twin, .hif, .out] s.dev n := hn ▸ (Within.refl _ _ s.dev).onTwin
  have hlink : linkUp n = true := hnamed.linkUp.trans hready.2.1
  refine ((hnamed.evals (evals_control n 5 [x.1.toNat])).take).acts (exec_of_core (g := serveSwap r s.sn) rfl hcore heq) ⟨?_, ?_, ?_⟩
  · have htaken := taken_take (control n 5 [x.1.toNat]) r e.uid
    have hrings : (control n 5 [x.1.toNat]).hif = s.dev.hif := ((evals_control n 5 [x.1.toNat]).parts .hif (by simp)).trans (by rw [← hn]; rfl)
    simpa only [Taken, ringOf, hrings] using htaken
  · have htwin := twin_control n 5 [x.1.toNat]
    rw [← hn] at htwin
    rw [← hn]
    exact htwin
  · exact (sentRec_twinSend hlink 0xC [5, x.1.toNat]).of_same (by rw [← hn]; rfl) (by rw [← hn]; rfl)

end

theorem roleSwapTick_of_active {x : Nat × Nat × SN × Bool} (hrole : s.dev.twin.role = .active) (hswap : s.dev.twin.swap = some x)
    (hdue : snDue x.2.2.1 s.sn = true) : Acts [.twin] .roleSwapTick s fun t => t.dev.twin = { s.dev.twin with swapHalf := true } := by
  have heq : swapTick s.sn s.dev = onTwin s.dev fun t => { t with swapHalf := true } := by simp [swapTick, hrole, hswap, hdue]
  exact (Within.refl [] [.twin] s.dev).onTwin.acts (exec_of_core rfl hcore heq) rfl

theorem roleSwapTick_of_standby (hrole : s.dev.twin.role = .standby) (hswap : s.dev.twin.swap = none) (hf : follows s.dev = true)
    (hcoupling : coupling s.dev = 3) : ActsR [twinWord, timWord] [.twin, .tim, .hif] .roleSwapTick s fun t =>
      t.dev.twin = { s.dev.twin with role := .active, latch := true, diverged := false } ∧ rd t.dev F.TWN_STATUS_LAST_CAUSE = 5 ∧
      rd t.dev F.TWN_STATUS_COUPLING = 3 := by
  have heq : swapTick s.sn s.dev = becomeActive s.sn 5 (onTwin s.dev fun t => { t with diverged := false }) := by
    simp [swapTick, hrole, hswap, hf, hcoupling]
  have hcouples : Within [twinWord, timWord] [.regs, .twin, .tim, .hif] s.dev (onTwin s.dev fun t => { t with diverged := false }) :=
    (Within.refl _ _ _).onTwin
  refine (hcouples.next (within_becomeActive _ s.sn 5)).actsR (exec_of_core rfl hcore heq) ⟨becomeActive_twin _ _ _, ?_, ?_⟩
  · exact (rd_becomeActive _ s.sn 5 (by decide)).trans (cause_lastCause _ (by decide))
  · exact (rd_becomeActive _ s.sn 5 (by decide)).trans ((rd_lastCause _ _ (by decide)).trans hcoupling)

theorem roleSwapLatchClear_acts {r uid : Nat} {x : SN} {late : Bool} (hswap : s.dev.twin.swap = some (r, uid, x, late))
    (hhalf : s.dev.twin.swapHalf = true) (hdue : snDue (x + 1) s.sn = true) (hrole : s.dev.twin.role = .active) :
    ActsR [twinWord, timWord] [.twin, .tim, .hif] .roleSwapLatchClear s fun t =>
      t.dev.twin.role = .standby ∧ t.dev.twin.latch = false ∧ t.dev.twin.swap = none ∧ t.dev.twin.swapHalf = false ∧
      rd t.dev F.TWN_STATUS_COUPLING = 3 ∧ rd t.dev F.TWN_STATUS_LAST_CAUSE = 5 ∧
      Served s.dev t.dev r uid (if late = true then 1 else 0) 0 x 0 := by
  have heq : swapDone s.sn s.dev = finish (onTwin (setCoupling (becomeStandby s.sn 5 s.dev) 3)
      fun x => { x with swap := none, swapHalf := false }) r uid (if late = true then 1 else 0) 0 x := by
    unfold swapDone
    rw [hswap]
    simp only [hhalf, hdue, hrole, Bool.not_true, Bool.or_self, Bool.false_eq_true, if_false, if_true, stLate, stOk]
  have hstands := within_becomeStandby s.dev s.sn 5
  have htwin := becomeStandby_twin s.dev s.sn 5
  have hcause : rd (becomeStandby s.sn 5 s.dev) F.TWN_STATUS_LAST_CAUSE = 5 :=
    (rd_becomeStandby s.dev s.sn 5 (by decide)).trans (cause_lastCause _ (by decide))
  obtain ⟨es, hes⟩ := raisesOnly_becomeStandby s.dev s.sn 5
  generalize becomeStandby s.sn 5 s.dev = b at *
  have hframe : Within [twinWord, timWord] [.regs, .twin, .tim, .hif] s.dev b := hstands.mono
  refine ((hframe.setCoupling.onTwin).finish).actsR (exec_of_core rfl hcore heq) ⟨?_, ?_, rfl, rfl, ?_, ?_, ?_⟩
  · exact congrArg Twin.role htwin
  · exact congrArg Twin.latch htwin
  · exact coupling_setCoupling _ (by decide)
  · exact (rd_setCoupling _ _ (by decide)).trans hcause
  · have hserved := served_finish (onTwin (setCoupling b 3) fun x => { x with swap := none, swapHalf := false }) r uid
      (if late = true then 1 else 0) 0 x 0
    have hrings : b.hif.rings = s.dev.hif.rings := by rw [hes]
    simpa only [Served, ringOf, onTwin, setCoupling, wr_hif, hrings] using hserved

end

/-- Settles O26: mate death at the standby and at the active, the promotion that follows it, then the role swap at both. -/
theorem promotionsAndRoleSwaps : Obligations.PromotionsAndRoleSwaps := by
  unfold Obligations.PromotionsAndRoleSwaps
  intro s hcore
  refine ⟨mateDeath_declared hcore, mateDeath_of_active hcore, fun cause ls => promotion_acts hcore, holdTmoExpiry_ends hcore,
    holdTmoExpiry_idle, fun r e he hres => ⟨twinRoleSwap_blocked hcore he hres, twinRoleSwap_tells hcore he hres,
      twinRoleSwap_waits he hres⟩, fun x => roleSwapTick_of_active hcore, roleSwapTick_of_standby hcore,
    fun r uid x late => roleSwapLatchClear_acts hcore⟩

end Sys2Proof.Machine
end

