-- ==== Sys2Proof/Proofs/TwinLink.lean ====
section
/-! PROOFS. The twin link and pairing (R302 to R306), and the comparison of signatures (R311). -/

namespace Sys2Proof.Machine

-- In order: a default argument `by simp` waits for every declaration before it, and many that wait take many threads.
set_option Elab.async false

/-! ### The DPLL as the link changes (R409, R410) -/

section
variable (sn : SN) (d : Dev)

theorem evals_dpllOwn (sel st : Nat) : Evals [timWord] [.regs, .tim] d (dpllOwn sn d sel st) :=
  ⟨(within_dpllOwn sn d sel st).parts, (within_dpllOwn sn d sel st).regs, rfl, ⟨[], by simp [Raised, dpllOwn_hif]⟩, rfl⟩

theorem evals_dpllWord (sel st : Nat) : Evals [timWord] [.regs] d (dpllWord d sel st) :=
  (evals_wr d F.TIM_STATUS_SEL 0 sel).trans (evals_wr _ F.TIM_STATUS_STATE 0 st)

theorem evals_dpllShow : Evals [timWord] [.regs, .hif] d (dpllShow sn d) := by
  have hword : Evals [timWord] [.regs, .hif] d (dpllWord d d.tim.sel d.tim.st) := (evals_dpllWord d _ _).mono
  exact (Evals.ite (fun _ => hword.next (evals_raise _ _)) fun _ => hword).trans
    (.ite (fun _ => (evals_raise _ _).mono) fun _ => .refl _ _ _)

theorem evals_dpllUnlink : Evals [timWord] [.regs, .tim, .hif] d (dpllUnlink sn d) :=
  .ite (fun _ => .refl _ _ d) fun _ => (evals_dpllOwn sn d _ _).mono.next (evals_dpllShow sn _)

theorem evals_dpllLink : Evals [timWord] [.regs, .hif] d (dpllLink sn d) := by
  refine .ite (fun _ => .refl _ _ d) fun _ => ?_
  have hword : Evals [timWord] [.regs, .hif] d (dpllWord d 8 1) := (evals_dpllWord d 8 1).mono
  exact .ite (fun _ => hword.next (evals_raise _ _)) fun _ => (hword.next (evals_raise _ _)).next (evals_raise _ _)

/-- With a good XO the active's sweep is the reference. -/
theorem sel_dpllLink (hxo : xoGood d = true) : rd (dpllLink sn d) F.TIM_STATUS_SEL = 8 := by
  have hregs : (dpllLink sn d).regs = (dpllWord d 8 1).regs := by
    simp [dpllLink, hxo, dpllWord, apply_ite Dev.regs]
  simp only [rd, rdWord_congr hregs]
  exact rd_dpllWord_sel d (by decide)

end

/-! ### The link comes up, or goes down (R302) -/

/-- The link as it comes up. -/
def linkRisen (delay : BitVec 12) (sn : SN) (d : Dev) : Dev :=
  raise (onTwin (wr (wrB d F.TWN_STATUS_LINK 0 true) F.TWN_LINK_STATUS_DELAY 0 delay.toNat) fun t => { t with sigGot := true, noSweep := 0 })
    { typ := 0x64, sn := sn, p0 := delay.toNat }

/-- TWN_LINK_STATUS. -/
abbrev linkWord : Nat := F.TWN_LINK_STATUS_DELAY.addr 0

section
variable (delay : BitVec 12) (sn : SN) (d : Dev)

theorem linkRise_eq (hpaired : d.twin.paired = true) (hdown : linkUp d = false) (hagree : twAgree d = true) :
    linkRise delay sn d = if d.twin.role = .standby then dpllLink sn (linkRisen delay sn d) else autoResync (linkRisen delay sn d) :=
  if_neg (by simp [hpaired, hdown, hagree])

theorem within_linkRisen : Within [twinWord, linkWord] [.regs, .twin, .hif] d (linkRisen delay sn d) :=
  ((Within.refl _ _ d).wrB.wr.onTwin).raise

theorem link_linkRisen : rd (linkRisen delay sn d) F.TWN_STATUS_LINK = 1 := by
  have hup : rd (wr (wrB d F.TWN_STATUS_LINK 0 true) F.TWN_LINK_STATUS_DELAY 0 delay.toNat) F.TWN_STATUS_LINK = 1 := by
    rw [rd_wr_clear _ (by decide)]
    exact rd_wrB_bit _ (by decide) true
  exact hup

theorem delay_linkRisen : rd (linkRisen delay sn d) F.TWN_LINK_STATUS_DELAY = delay.toNat := rd_wr_fits _ ⟨by decide, delay.isLt⟩

end

/-- The records of pairing and of the link as it goes down. -/
def linkDropped (cause : Nat) (sn : SN) (d : Dev) : Dev :=
  raise (wrB (onTwin d fun t => { t with paired := false, sent := false, gotPair := none, txq := [], txw := [] }) F.TWN_STATUS_LINK 0 false)
    { typ := 0x63, sn := sn, p0 := cause, p1 := twBits d.twin.tl }

section
variable (cause : Nat) (sn : SN) (d : Dev)

theorem within_linkDropped : Within [twinWord] [.regs, .twin, .hif] d (linkDropped cause sn d) := ((Within.refl _ _ d).onTwin.wrB).raise

theorem linkUp_linkDropped : linkUp (linkDropped cause sn d) = false := by
  have hdown : rd (linkDropped cause sn d) F.TWN_STATUS_LINK = 0 := rd_wrB_bit _ (by decide) false
  rw [linkUp, rdB, hdown]
  rfl

theorem coupling_linkDropped : coupling (linkDropped cause sn d) = coupling d := rd_wr_clear _ (by decide)

theorem linkFall_eq (hbad : linkBad cause d = true) (hup : linkUp d = true) :
    linkFall cause sn d = match d.twin.role with
      | .standby => diverge sn 4 (dpllUnlink sn (linkDropped cause sn d))
      | .active => if coupling (linkDropped cause sn d) = 0 then linkDropped cause sn d
        else divergeMate (endResync sn stDiverged (linkDropped cause sn d))
      | _ => linkDropped cause sn d := by
  unfold linkFall
  rw [hbad, hup]
  rfl

end

/-- Without a link nothing is said of a divergence. -/
theorem toDiverged_unlinked {d : Dev} (h : linkUp d = false) (sn : SN) (cause : Nat) :
    toDiverged sn cause d = raise (uncoupled d) { typ := 0x65, sn := sn, p0 := cause } := by
  rw [toDiverged_eq]
  have hlink : rdB (raise (uncoupled d) { typ := 0x65, sn := sn, p0 := cause }) F.TWN_STATUS_LINK = false := by
    have hsame : rd (setCoupling d 1) F.TWN_STATUS_LINK = rd d F.TWN_STATUS_LINK := rd_setCoupling d 1 (by decide)
    exact (congrArg (· != 0) hsame).trans h
  exact if_neg (by rw [hlink]; exact Bool.false_ne_true)

theorem within_uncoupled (d : Dev) : Within [twinWord] [.regs, .twin] d (uncoupled d) := (Within.refl _ _ d).setCoupling.onTwin

section
variable {s : State} (hcore : s.dev.pwr.core = true)
include hcore

section
variable {delay : BitVec 12} (hpaired : s.dev.twin.paired = true) (hdown : linkUp s.dev = false) (hagree : twAgree s.dev = true)
include hpaired hdown hagree

theorem twinLinkUp_of_standby (hrole : s.dev.twin.role = .standby) :
    ActsR [twinWord, linkWord, timWord] [.twin, .tim, .hif] (.twinLinkUp delay) s fun t =>
      rd t.dev F.TWN_STATUS_LINK = 1 ∧ rd t.dev F.TWN_LINK_STATUS_DELAY = delay.toNat ∧
      t.dev.twin = { s.dev.twin with sigGot := true, noSweep := 0 } ∧
      (xoGood s.dev = true → rd t.dev F.TIM_STATUS_SEL = 8) ∧
      ∃ es, Raised s.dev t.dev ({ typ := 0x64, sn := s.sn, p0 := delay.toNat } :: es) := by
  have heq := linkRise_eq delay s.sn s.dev hpaired hdown hagree
  rw [if_pos hrole] at heq
  have hrises := within_linkRisen delay s.sn s.dev
  have hlinks := evals_dpllLink s.sn (linkRisen delay s.sn s.dev)
  obtain ⟨es, hes⟩ := hlinks.events
  have hframe : Within [twinWord, linkWord, timWord] [.regs, .twin, .tim, .hif] s.dev (linkRisen delay s.sn s.dev) :=
    hrises.mono (by simp) (by simp)
  refine (hframe.evals hlinks).actsR (exec_of_core (g := linkRise delay s.sn) rfl hcore heq) ⟨?_, ?_, ?_, fun hxo => ?_, es, ?_⟩
  · rw [hlinks.rd (by decide), link_linkRisen]
  · rw [hlinks.rd (by decide), delay_linkRisen]
  · exact hlinks.parts .twin (by simp)
  · refine sel_dpllLink _ _ ?_
    rw [xoGood, hrises.rdB (by decide), hrises.rdB (by decide)]
    exact hxo
  · exact Raised.trans (b := linkRisen delay s.sn s.dev) (x := [_]) rfl hes rfl

theorem twinLinkUp_of_active (hrole : s.dev.twin.role = .active) (hnone : coupling s.dev = 0) :
    ActsR [twinWord, linkWord] [.twin, .hif] (.twinLinkUp delay) s fun t =>
      rd t.dev F.TWN_STATUS_LINK = 1 ∧ rd t.dev F.TWN_LINK_STATUS_DELAY = delay.toNat ∧
      Raised s.dev t.dev [{ typ := 0x64, sn := s.sn, p0 := delay.toNat }] := by
  have hcoupling : coupling (linkRisen delay s.sn s.dev) = 0 := by
    rw [← hnone]
    have hsame : rd (wr (wrB s.dev F.TWN_STATUS_LINK 0 true) F.TWN_LINK_STATUS_DELAY 0 delay.toNat) F.TWN_STATUS_COUPLING =
        rd s.dev F.TWN_STATUS_COUPLING := by
      rw [rd_wr_clear _ (by decide)]
      exact rd_wr_clear _ (by decide)
    exact hsame
  have heq : linkRise delay s.sn s.dev = linkRisen delay s.sn s.dev := by
    rw [linkRise_eq delay s.sn s.dev hpaired hdown hagree, if_neg (by simp [hrole]), autoResync, if_neg (by simp [hcoupling])]
  exact (within_linkRisen delay s.sn s.dev).actsR (exec_of_core rfl hcore heq)
    ⟨link_linkRisen _ _ _, delay_linkRisen _ _ _, rfl⟩

end

theorem twinLinkDown_acts (cause : Fin 3) (hbad : linkBad cause s.dev = true) (hup : linkUp s.dev = true) (htwo : 2 ≤ coupling s.dev)
    (hrole : s.dev.twin.role = .standby ∨ s.dev.twin.role = .active) :
    ActsR [twinWord, timWord] [.twin, .tim, .hif] (.twinLinkDown cause ()) s fun t =>
      rd t.dev F.TWN_STATUS_LINK = 0 ∧ t.dev.twin.paired = false ∧ t.dev.twin.txq = [] ∧
      rd t.dev F.TWN_STATUS_COUPLING = 1 ∧ t.dev.twin.role = s.dev.twin.role ∧ t.dev.twin.latch = s.dev.twin.latch ∧
      (s.dev.twin.role = .active → t.dev.twin.diverged = true ∧ t.dev.twin.resync = none) ∧
      ∃ es, Raised s.dev t.dev ({ typ := 0x63, sn := s.sn, p0 := cause.val, p1 := twBits s.dev.twin.tl } :: es) := by
  have heq := linkFall_eq cause s.sn s.dev hbad hup
  have hdrops := within_linkDropped cause s.sn s.dev
  have hcoupling := coupling_linkDropped cause s.sn s.dev
  have hlink := linkUp_linkDropped cause s.sn s.dev
  have hlink0 : rd (linkDropped cause s.sn s.dev) F.TWN_STATUS_LINK = 0 := by simpa [linkUp, rdB] using hlink
  have hraised : Raised s.dev (linkDropped cause s.sn s.dev) [{ typ := 0x63, sn := s.sn, p0 := cause.val, p1 := twBits s.dev.twin.tl }] := rfl
  have hpaired : (linkDropped cause s.sn s.dev).twin.paired = false := rfl
  have htxq : (linkDropped cause s.sn s.dev).twin.txq = [] := rfl
  have hwrole : (linkDropped cause s.sn s.dev).twin.role = s.dev.twin.role := rfl
  have hlatch : (linkDropped cause s.sn s.dev).twin.latch = s.dev.twin.latch := rfl
  generalize linkDropped cause s.sn s.dev = w at *
  have hframe : Within [twinWord, timWord] [.regs, .twin, .tim, .hif] s.dev w := hdrops.mono
  rcases hrole with hrole | hrole
  · have hunlinks := evals_dpllUnlink s.sn w
    obtain ⟨es, hes⟩ := hunlinks.events
    generalize dpllUnlink s.sn w = u at *
    have hulink : linkUp u = false := (hunlinks.regs.linkUp (by decide)).trans hlink
    have hutwin : u.twin = w.twin := hunlinks.parts .twin (by simp)
    have hucoupling : 2 ≤ coupling u := by rw [hunlinks.within.coupling (by decide), hcoupling]; exact htwo
    have hurole : u.twin.role = .standby := by rw [hutwin, hwrole]; exact hrole
    rw [hrole] at heq
    have hdiv : linkFall cause s.sn s.dev = raise (uncoupled u) { typ := 0x65, sn := s.sn, p0 := 4 } := by
      rw [heq, ← toDiverged_unlinked hulink]
      exact if_pos ⟨hurole, hucoupling⟩
    have hraises : Raised u (raise (uncoupled u) { typ := 0x65, sn := s.sn, p0 := 4 }) [{ typ := 0x65, sn := s.sn, p0 := 4 }] := rfl
    refine (((hframe.evals hunlinks).next (within_uncoupled u)).raise).actsR (exec_of_core (g := linkFall cause s.sn) rfl hcore hdiv)
      ⟨?_, ?_, ?_, coupling_setCoupling _ (by decide), ?_, ?_, fun h => ?_, es ++ [{ typ := 0x65, sn := s.sn, p0 := 4 }], ?_⟩
    · exact (rd_setCoupling _ _ (by decide)).trans ((hunlinks.rd (by decide)).trans hlink0)
    · exact (congrArg Twin.paired hutwin).trans hpaired
    · exact (congrArg Twin.txq hutwin).trans htxq
    · exact hurole.trans hrole.symm
    · exact (congrArg Twin.latch hutwin).trans hlatch
    · exact absurd (hrole.symm.trans h) (by decide)
    · exact hraised.trans (hes.trans hraises (congrArg Twin.role hutwin)) hwrole
  · rw [hrole] at heq
    have hdiv : linkFall cause s.sn s.dev = divergeMate (endResync s.sn stDiverged w) := by
      rw [heq]
      exact if_neg (by omega)
    have hends := within_endResync w s.sn stDiverged
    have hetwin := endResync_twin w s.sn stDiverged
    have hevq := endResync_evq w s.sn stDiverged
    generalize endResync s.sn stDiverged w = u at *
    have hdiverges : Within [twinWord] [.regs, .twin] u (divergeMate u) := ⟨(divergeMate_frame u).1, (divergeMate_frame u).2⟩
    refine ((hframe.next hends (by simp)).next hdiverges).actsR (exec_of_core (g := linkFall cause s.sn) rfl hcore hdiv)
      ⟨?_, ?_, ?_, rd_wr_fits _ (by decide), ?_, ?_, fun _ => ⟨rfl, congrArg Twin.resync hetwin⟩, [], ?_⟩
    · exact (rd_wr_clear _ (by decide)).trans ((hends.rd (by simp)).trans hlink0)
    · exact (congrArg Twin.paired hetwin).trans hpaired
    · exact (congrArg Twin.txq hetwin).trans htxq
    · exact (congrArg Twin.role hetwin).trans hwrole
    · exact (congrArg Twin.latch hetwin).trans hlatch
    · exact hraised.of_same rfl rfl hevq

end

end Sys2Proof.Machine
end

