-- ==== Sys2Proof/Proofs/Pairing.lean ====
section
/-! PROOFS. Pairing (R303, R304), the sweep offset (R306) and the comparison of signatures (R311). -/

namespace Sys2Proof.Machine

-- In order: a default argument `by simp` waits for every declaration before it, and many that wait take many threads.
set_option Elab.async false

/-! ### Fuses and the link's own records -/

theorem calWord_congr {a b : Dev} (h : b.sec = a.sec) (i : Nat) : calWord b i = calWord a i := by simp only [calWord, h]

theorem calPolicy_congr {a b : Dev} (h : b.sec = a.sec) : calPolicy b = calPolicy a := calWord_congr h 3

theorem pairResp_congr {a b : Dev} (h : b.sec = a.sec) (unit : Bool) (mate own : BitVec 64) :
    pairResp b unit mate own = pairResp a unit mate own := by
  simp only [pairResp, fieldBytes, calWord_congr h]

theorem only_twinPut' (d : Dev) (typ : Nat) (ws : List Nat) : Within [] [.out, .twin] d (twinPut d typ ws) :=
  .of_only (only_twinPut d typ ws)

theorem SentRec.trans {a b c : Dev} {x y : List (Nat × List Nat)} (h : SentRec a b x) (k : SentRec b c y) : SentRec a c (x ++ y) := by
  obtain ⟨hout, htxq⟩ := h
  obtain ⟨kout, ktxq⟩ := k
  refine ⟨?_, ?_⟩
  · rw [List.map_append]
    exact hout.trans kout
  · rw [ktxq, htxq, List.map_append, List.append_assoc]

/-! ### The exchange (R303) -/

/-- The fields of this device's PAIR record with nonce `n`. -/
def pairFields (d : Dev) (n : BitVec 64) : List Nat :=
  [(rdB d F.TWN_CFG_UNIT).toNat, Config.revLtr.toNat + 16 * Config.revDig.toNat, rd d F.CTL_CORE_STATUS_SVN, calPolicy d, n.toNat]

theorem pairFields_congr {as : List Nat} {ps : List Part} {a b : Dev} (h : Within as ps a b) (n : BitVec 64)
    (hunit : F.TWN_CFG_UNIT.addr 0 ∉ as) (hsvn : F.CTL_CORE_STATUS_SVN.addr 0 ∉ as) (hsec : Part.sec ∉ ps) :
    pairFields b n = pairFields a n := by
  simp only [pairFields, h.rdB hunit, h.rd hsvn, calPolicy_congr (h.parts .sec hsec)]

/-- The twin that takes part in pairing: its link is down, and its lanes are in frame. -/
def Pairs (d : Dev) : Prop := d.twin.role ≠ .disabled ∧ d.twin.role ≠ .failed ∧ linkUp d = false ∧ twInFrame d = true

theorem mayPair_of_pairs {d : Dev} (h : Pairs d) : mayPair d = true := by
  obtain ⟨hon, hok, hdown, hframe⟩ := h
  simp [mayPair, hon, hok, hdown, hframe]

theorem Pairs.of_taken {a b : Dev} (h : Pairs a) (hd : TakesRecord a b) : Pairs b := by
  obtain ⟨hon, hok, hdown, hframe⟩ := h
  refine ⟨?_, ?_, hd.frame.regs.linkUp.trans hdown, ?_⟩
  · rwa [hd.frame.role]
  · rwa [hd.frame.role]
  · rw [twInFrame, hd.twin]
    exact hframe

section
variable (d : Dev)

theorem within_sendPair : Within [] [.twin, .out, .free] d (sendPair d) :=
  (((Within.refl _ _ d).only (only_freed d)).onTwin).next (only_twinPut' _ _ _)

theorem sentRec_sendPair : SentRec d (sendPair d) [(1, pairFields d (sendPair d).twin.ownNonce)] := ⟨rfl, rfl⟩

theorem sendPair_sent : (sendPair d).twin.sent = true := rfl

/-- The response to the mate's record. -/
def answered (p : PairRec) (d : Dev) : Dev :=
  twinPut (onTwin d fun t => { t with gotPair := some p }) 2 [(pairResp d (rdB d F.TWN_CFG_UNIT) p.nonce d.twin.ownNonce).toNat]

theorem pairRecIn_eq {p : PairRec} (h : mayPair d = true) : pairRecIn p d = answered p (if d.twin.sent = true then d else sendPair d) :=
  if_neg (by simp [h])

theorem within_answered (p : PairRec) : Within [] [.out, .twin] d (answered p d) :=
  ((Within.refl _ _ d).onTwin).next (only_twinPut' _ _ _)

theorem sentRec_answered (p : PairRec) :
    SentRec d (answered p d) [(2, [(pairResp d (rdB d F.TWN_CFG_UNIT) p.nonce d.twin.ownNonce).toNat])] := ⟨rfl, rfl⟩

end

section
variable {s : State} (hcore : s.dev.pwr.core = true)
include hcore

theorem pair_answers (p : PairRec) (hpairs : Pairs s.dev) : Acts [.twin, .out, .free, .pm] (.pair p) s fun t =>
    t.dev.twin.gotPair = some p ∧ t.dev.twin.sent = true ∧
    (s.dev.twin.sent = true → t.dev.twin.ownNonce = s.dev.twin.ownNonce ∧
      SentRec s.dev t.dev [(2, [(pairResp s.dev (rdB s.dev F.TWN_CFG_UNIT) p.nonce s.dev.twin.ownNonce).toNat])]) ∧
    (s.dev.twin.sent = false → SentRec s.dev t.dev [(1, pairFields s.dev t.dev.twin.ownNonce),
      (2, [(pairResp s.dev (rdB s.dev F.TWN_CFG_UNIT) p.nonce t.dev.twin.ownNonce).toNat])]) := by
  have hd := takesRecord_recordTaken 1 s.dev
  have hexec : exec (.pair p) s = .next { s with dev := pairRecIn p (recordTaken 1 s.dev) } :=
    exec_of_core (g := fun d => pairRecIn p (recordTaken 1 d)) rfl hcore rfl
  generalize recordTaken 1 s.dev = d at hd hexec
  rw [pairRecIn_eq d (mayPair_of_pairs (hpairs.of_taken hd))] at hexec
  have hsent : d.twin.sent = s.dev.twin.sent := by rw [hd.twin]
  have hnonce : d.twin.ownNonce = s.dev.twin.ownNonce := by rw [hd.twin]
  have htakes : Within [] [.twin, .out, .free, .pm] s.dev d := hd.frame.within.mono
  have hsends := within_sendPair d
  have hsecd : d.sec = s.dev.sec := hd.frame.parts .sec (by simp)
  have hunit : rdB d F.TWN_CFG_UNIT = rdB s.dev F.TWN_CFG_UNIT := hd.frame.rdB (by simp)
  cases hs : s.dev.twin.sent with
  | true =>
    rw [if_pos (hsent.trans hs)] at hexec
    refine (htakes.next (within_answered d p)).acts hexec ⟨rfl, hsent.trans hs, fun _ => ⟨hnonce, ?_⟩, fun h => absurd h (by simp)⟩
    rw [← hunit, ← hnonce, ← pairResp_congr hsecd]
    exact (sentRec_answered d p).of_same hd.out hd.txq
  | false =>
    rw [if_neg (by simp [hsent, hs])] at hexec
    refine ((htakes.next hsends).next (within_answered _ p)).acts hexec ⟨rfl, rfl, fun h => absurd h (by simp), fun _ => ?_⟩
    have hown : (answered p (sendPair d)).twin.ownNonce = (sendPair d).twin.ownNonce := rfl
    have hsec : (sendPair d).sec = s.dev.sec := (hsends.parts .sec (by simp)).trans hsecd
    have hunit' : rdB (sendPair d) F.TWN_CFG_UNIT = rdB s.dev F.TWN_CFG_UNIT := (hsends.rdB (by simp)).trans hunit
    have hfields : pairFields d (sendPair d).twin.ownNonce = pairFields s.dev (sendPair d).twin.ownNonce :=
      pairFields_congr hd.frame.within _ (by simp) (by simp) (by simp)
    have hboth := (sentRec_sendPair d).trans (sentRec_answered (sendPair d) p)
    rw [hfields, hunit', pairResp_congr hsec] at hboth
    exact hboth.of_same hd.out hd.txq

theorem pairingRetry_sends (hpairs : Pairs s.dev) (hpaired : s.dev.twin.paired = false) (hsent : s.dev.twin.sent = false) :
    Acts [.twin, .out, .free] .pairingRetry s fun t =>
      t.dev.twin.sent = true ∧ SentRec s.dev t.dev [(1, pairFields s.dev t.dev.twin.ownNonce)] := by
  have heq : pairRetry s.dev = sendPair s.dev := by simp [pairRetry, mayPair_of_pairs hpairs, hpaired, hsent]
  exact (within_sendPair s.dev).acts (exec_of_core rfl hcore heq) ⟨sendPair_sent _, sentRec_sendPair _⟩

end

/-! ### The sweep offset (R306) -/

theorem sweep_shows {s : State} (hcore : s.dev.pwr.core = true) (x : SN) (delay : BitVec 12) (ofs : BitVec 16) (hlink : linkUp s.dev = true) :
    ActsR [linkWord, F.TWN_ALIGN_OFFSET.addr 0] [.free, .twin, .pm] (.sweep x delay ofs) s fun t => t.dev.twin.noSweep = 0 ∧
      rd t.dev F.TWN_LINK_STATUS_DELAY = delay.toNat ∧ rd t.dev F.TWN_ALIGN_OFFSET = ofs.toNat := by
  refine actsR_of_record (typ := 3) (f := sweepIn delay ofs) rfl hcore fun d hd => ?_
  have hup : linkUp (onTwin (freed d) fun t => { t with noSweep := 0, arrived := Config.freeWord d.free }) = true :=
    (hd.frame.regs.linkUp (a := s.dev)).trans hlink
  have heq : sweepIn delay ofs d = wr (wr (onTwin (freed d) fun t => { t with noSweep := 0, arrived := Config.freeWord d.free })
      F.TWN_LINK_STATUS_DELAY 0 delay.toNat) F.TWN_ALIGN_OFFSET 0 ofs.toNat := if_pos hup
  rw [heq]
  have hfreed : Within [linkWord, F.TWN_ALIGN_OFFSET.addr 0] [.regs, .free, .twin, .pm] d (freed d) := (Within.refl _ _ d).only (only_freed d)
  refine ⟨(hfreed.onTwin.wr).wr, rfl, ?_, rd_wr_fits _ ⟨by decide, ofs.isLt⟩⟩
  exact (rd_wr_clear _ (by decide)).trans (rd_wr_fits _ ⟨by decide, delay.isLt⟩)

end Sys2Proof.Machine
end

