-- ==== Sys2Proof/Proofs/PairingEnds.lean ====
section
/-! PROOFS. The end of pairing (R303, R304). -/

namespace Sys2Proof.Machine

-- In order: a default argument `by simp` waits for every declaration before it, and many that wait take many threads.
set_option Elab.async false

/-- TW_ACTIVE_IN noted. -/
def authNoted (mateActive : Bool) (d : Dev) : Dev := wrB d F.TWN_STATUS_MATE_ACTIVE 0 mateActive

/-- Pairing fails for reason `c`. -/
def pairFailed (sn : SN) (c : Nat) (d : Dev) : Dev :=
  raise (onTwin d fun t => { t with sent := false, gotPair := none }) { typ := 0x62, sn := sn, p0 := c }

/-- Pairing succeeds. -/
def pairMade (d : Dev) : Dev :=
  onTwin (wrB (wrB d F.TWN_STATUS_MATE_ALIVE 0 true) F.TWN_STATUS_MATE_FAIL 0 false) fun t =>
    { t with paired := true, sent := false, gotPair := none }

/-- The active that has paired: its standby is to be resynced. -/
def pairedActive (sn : SN) (unit : Bool) (d : Dev) : Dev :=
  raise (setCoupling (onTwin (pairMade d) fun t => { t with diverged := true }) 1) { typ := 0x61, sn := sn, p0 := unit.toNat }

/-- The twin that has paired as the standby. -/
def pairedStandby (sn : SN) (unit : Bool) (d : Dev) : Dev :=
  toDiverged sn 7 (raise (becomeStandby sn 7 (pairMade d)) { typ := 0x61, sn := sn, p0 := unit.toNat })

theorem within_authNoted (mateActive : Bool) (d : Dev) : Within [twinWord] [.regs] d (authNoted mateActive d) := (Within.refl _ _ d).wrB

theorem linkUp_authNoted (mateActive : Bool) (d : Dev) : linkUp (authNoted mateActive d) = linkUp d := by
  have hsame : rd (authNoted mateActive d) F.TWN_STATUS_LINK = rd d F.TWN_STATUS_LINK := rd_wr_clear _ (by decide)
  simp only [linkUp, rdB, hsame]

/-- PAIR_AUTH once its record has been taken up. -/
def pairAuthOn (resp : BitVec 128) (mateActive : Bool) (mateSn : SN) (s : State) : State :=
  match s.dev.twin.gotPair with
  | none => s
  | some p =>
    if !mayPair s.dev then s else
    match pairProb (authNoted mateActive s.dev) p resp mateActive with
    | 0 => if (authNoted mateActive s.dev).twin.role = .active ∧ (!(mateActive && unitNo (pairMade (authNoted mateActive s.dev)))) = true then
        { s with dev := pairedActive s.sn p.unit (authNoted mateActive s.dev) }
      else { s with
        sn := if ((authNoted mateActive s.dev).twin.role != .standby) = true then (if s.ticked then mateSn - 1 else mateSn) else s.sn
        dev := pairedStandby s.sn p.unit (authNoted mateActive s.dev) }
    | c => { s with dev := pairFailed s.sn c (authNoted mateActive s.dev) }

theorem pairAuth_eq (resp : BitVec 128) (mateActive : Bool) (mateSn : SN) (s : State) :
    pairAuth resp mateActive mateSn s = pairAuthOn resp mateActive mateSn { s with dev := recordTaken 2 s.dev } := by
  unfold pairAuth
  rw [show perf (takeRecord 2 s.dev) 0x13 0 = recordTaken 2 s.dev from rfl]
  generalize recordTaken 2 s.dev = d
  rfl

/-- The reason of failure depends on what no record changes. -/
theorem pairProb_congr {a b : Dev} (hsec : b.sec = a.sec) (hunit : unitNo b = unitNo a) (hnonce : b.twin.ownNonce = a.twin.ownNonce)
    (hrole : b.twin.role = a.twin.role) (p : PairRec) (resp : BitVec 128) (mateActive : Bool) :
    pairProb b p resp mateActive = pairProb a p resp mateActive := by
  simp only [pairProb, pairResp_congr hsec, hunit, calPolicy_congr hsec, hnonce, hrole]

section
variable {s : State} {p : PairRec} (hmay : mayPair s.dev = true) (hgot : s.dev.twin.gotPair = some p) (resp : BitVec 128)
  (mateActive : Bool) (mateSn : SN)
include hmay hgot

theorem pairAuthOn_fails {c : Nat} (hprob : pairProb (authNoted mateActive s.dev) p resp mateActive = c) (hc : c ≠ 0) :
    pairAuthOn resp mateActive mateSn s = { s with dev := pairFailed s.sn c (authNoted mateActive s.dev) } := by
  obtain ⟨k, rfl⟩ := Nat.exists_eq_succ_of_ne_zero hc
  unfold pairAuthOn
  rw [hgot, hmay]
  dsimp only
  rw [hprob]
  rfl

theorem pairAuthOn_succeeds (hprob : pairProb (authNoted mateActive s.dev) p resp mateActive = 0) :
    pairAuthOn resp mateActive mateSn s =
      if s.dev.twin.role = .active ∧ (!(mateActive && unitNo (pairMade (authNoted mateActive s.dev)))) = true then
        { s with dev := pairedActive s.sn p.unit (authNoted mateActive s.dev) }
      else { s with
        sn := if (s.dev.twin.role != .standby) = true then (if s.ticked then mateSn - 1 else mateSn) else s.sn
        dev := pairedStandby s.sn p.unit (authNoted mateActive s.dev) } := by
  unfold pairAuthOn
  rw [hgot, hmay]
  dsimp only
  rw [hprob]
  rfl

end

section
variable (sn : SN) (d : Dev)

theorem within_pairFailed (c : Nat) : Within [] [.twin, .hif] d (pairFailed sn c d) := (Within.refl _ _ d).onTwin.raise

theorem within_pairMade : Within [twinWord] [.regs, .twin] d (pairMade d) := ((Within.refl _ _ d).wrB.wrB).onTwin

theorem rd_pairMade {f : Fld} {i : Nat} (hf : F.TWN_STATUS_MATE_ALIVE.clear f = true ∧ F.TWN_STATUS_MATE_FAIL.clear f = true) :
    rd (pairMade d) f i = rd d f i := (rd_wr_clear _ hf.2).trans (rd_wr_clear _ hf.1)

theorem within_pairedActive (unit : Bool) : Within [twinWord] [.regs, .twin, .hif] d (pairedActive sn unit d) := by
  have hmade : Within [twinWord] [.regs, .twin, .hif] d (pairMade d) := (within_pairMade d).mono
  exact (hmade.onTwin.setCoupling).raise

end

/-- The standby that has paired: without a link it takes no reference and says nothing. -/
theorem pairedStandby_eq {d : Dev} (hlink : linkUp d = false) (sn : SN) (unit : Bool) : pairedStandby sn unit d =
    raise (uncoupled (raise (lastCause (onTwin (pairMade d) standbyTwin) 7) { typ := 0x61, sn := sn, p0 := unit.toNat }))
      { typ := 0x65, sn := sn, p0 := 7 } := by
  have hlink' : linkUp (lastCause (onTwin (pairMade d) standbyTwin) 7) = false := by
    have hsame : rd (pairMade d) F.TWN_STATUS_LINK = rd d F.TWN_STATUS_LINK := rd_pairMade d (by decide)
    rw [linkUp, rdB, rd_lastCause _ _ (by decide)]
    exact (congrArg (· != 0) hsame).trans hlink
  have hstands : becomeStandby sn 7 (pairMade d) = lastCause (onTwin (pairMade d) standbyTwin) 7 :=
    if_neg (by rw [Bool.not_eq_true]; exact hlink')
  rw [pairedStandby, hstands]
  generalize lastCause (onTwin (pairMade d) standbyTwin) 7 = e at hlink' ⊢
  exact toDiverged_unlinked (d := raise e _) hlink' sn 7

theorem within_pairedStandby {d : Dev} (hlink : linkUp d = false) (sn : SN) (unit : Bool) :
    Within [twinWord] [.regs, .twin, .hif] d (pairedStandby sn unit d) := by
  rw [pairedStandby_eq hlink]
  have hstands : Within [twinWord] [.regs, .twin, .hif] d
      (raise (lastCause (onTwin (pairMade d) standbyTwin) 7) { typ := 0x61, sn := sn, p0 := unit.toNat }) :=
    (((within_pairMade d).mono (ps := [.regs, .twin, .hif]) (by simp) (by simp)).onTwin.lastCause).raise
  exact (hstands.next (within_uncoupled _)).raise

/-! ### PAIR_AUTH -/

section
variable {s : State} (hcore : s.dev.pwr.core = true) (hpairs : Pairs s.dev) {p : PairRec} (hgot : s.dev.twin.gotPair = some p)
  (resp : BitVec 128) (mateActive : Bool) (mateSn : SN)
include hcore hpairs hgot

/-- PAIR_AUTH through the device `d` that has taken its record up. -/
theorem exec_pairAuth : ∃ d, TakesRecord s.dev d ∧ mayPair d = true ∧ d.twin.gotPair = some p ∧ linkUp d = false ∧
    pairProb (authNoted mateActive d) p resp mateActive = pairProb s.dev p resp mateActive ∧
    unitNo (pairMade (authNoted mateActive d)) = unitNo s.dev ∧ d.twin.role = s.dev.twin.role ∧
    exec (.pairAuth resp mateActive mateSn) s = .next (pairAuthOn resp mateActive mateSn { s with dev := d }) := by
  have hd := takesRecord_recordTaken 2 s.dev
  have hexec : exec (.pairAuth resp mateActive mateSn) s = .next (pairAuthOn resp mateActive mateSn { s with dev := recordTaken 2 s.dev }) := by
    rw [← pairAuth_eq]
    show coreSt s _ = _
    rw [coreSt, if_pos hcore]
  generalize recordTaken 2 s.dev = d at hd hexec
  have hnoted := within_authNoted mateActive d
  have hunit : unitNo (authNoted mateActive d) = unitNo s.dev := (hnoted.rdB (by decide)).trans (hd.frame.rdB (by simp))
  have htwin : (authNoted mateActive d).twin = d.twin := rfl
  refine ⟨d, hd, mayPair_of_pairs (hpairs.of_taken hd), by rw [hd.twin]; exact hgot, hd.frame.regs.linkUp.trans hpairs.2.2.1, ?_, ?_,
    hd.frame.role, hexec⟩
  · exact pairProb_congr ((hnoted.parts .sec (by simp)).trans (hd.frame.parts .sec (by simp))) hunit
      (by rw [htwin, hd.twin]) (by rw [htwin, hd.frame.role]) p resp mateActive
  · exact ((within_pairMade _).rdB (by decide)).trans hunit

theorem pairAuth_fails {why : Nat} (hprob : pairProb s.dev p resp mateActive = why) (hwhy : why ≠ 0) :
    ActsR [twinWord] [.twin, .hif, .pm] (.pairAuth resp mateActive mateSn) s fun t =>
      t.dev.twin = queuesOf { s.dev.twin with sent := false, gotPair := none } t.dev.twin ∧
      Raised s.dev t.dev [{ typ := 0x62, sn := s.sn, p0 := why }] := by
  obtain ⟨d, hd, hmay, hgotd, -, hprobd, -, -, hexec⟩ := exec_pairAuth hcore hpairs hgot resp mateActive mateSn
  rw [pairAuthOn_fails (s := { s with dev := d }) hmay hgotd resp mateActive mateSn (hprobd.trans hprob) hwhy] at hexec
  have htaken : Within [twinWord] [.regs, .twin, .hif, .pm] s.dev d := hd.frame.within.mono
  refine ((htaken.next (within_authNoted mateActive d)).next (within_pairFailed s.sn _ why)).actsR hexec ⟨?_, ?_⟩
  · change ({ d.twin with sent := false, gotPair := none } : Twin) = queuesOf _ { d.twin with sent := false, gotPair := none }
    rw [hd.twin]
    rfl
  · exact (raised_raise (authNoted mateActive d) _).of_same hd.evq hd.frame.role rfl

section
variable (hprob : pairProb s.dev p resp mateActive = 0)
include hprob

theorem pairAuth_of_active (hrole : s.dev.twin.role = .active) (hno : ¬ (mateActive = true ∧ unitNo s.dev = true)) :
    ActsR [twinWord] [.twin, .hif, .pm] (.pairAuth resp mateActive mateSn) s fun t =>
      t.dev.twin = queuesOf { s.dev.twin with sent := false, gotPair := none, paired := true, diverged := true } t.dev.twin ∧
      rd t.dev F.TWN_STATUS_COUPLING = 1 ∧ Raised s.dev t.dev [{ typ := 0x61, sn := s.sn, p0 := p.unit.toNat }] := by
  have hno' : mateActive = false ∨ unitNo s.dev = false := by
    rw [← Bool.not_eq_true, ← Bool.not_eq_true]
    exact not_and_or.mp hno
  obtain ⟨d, hd, hmay, hgotd, -, hprobd, hunit, hroled, hexec⟩ := exec_pairAuth hcore hpairs hgot resp mateActive mateSn
  rw [pairAuthOn_succeeds (s := { s with dev := d }) hmay hgotd resp mateActive mateSn (hprobd.trans hprob),
    if_pos ⟨hroled.trans hrole, by rw [hunit, Bool.not_eq_true', Bool.and_eq_false_iff]; exact hno'⟩] at hexec
  have htaken : Within [twinWord] [.regs, .twin, .hif, .pm] s.dev d := hd.frame.within.mono
  refine ((htaken.next (within_authNoted mateActive d)).next (within_pairedActive s.sn _ p.unit)).actsR hexec
    ⟨?_, coupling_setCoupling _ (by decide), ?_⟩
  · change ({ d.twin with paired := true, sent := false, gotPair := none, diverged := true } : Twin) =
      queuesOf _ { d.twin with paired := true, sent := false, gotPair := none, diverged := true }
    rw [hd.twin]
    rfl
  · exact (raised_raise (setCoupling (onTwin (pairMade (authNoted mateActive d)) fun t => { t with diverged := true }) 1) _).of_same
      hd.evq hd.frame.role rfl

theorem pairAuth_of_standby (hrole : s.dev.twin.role = .unpaired ∨ (s.dev.twin.role = .active ∧ unitNo s.dev = true))
    (hmate : mateActive = true) : ∃ t, exec (.pairAuth resp mateActive mateSn) s = .next t ∧
      t.pending = s.pending ∧ t.ticked = s.ticked ∧ t.lock = s.lock ∧ t.sp = s.sp ∧ Only [.regs, .twin, .hif, .pm] s.dev t.dev ∧
      t.sn = (if s.ticked = true then mateSn - 1 else mateSn) ∧ t.dev.twin.role = .standby ∧ t.dev.twin.latch = false ∧
      rd t.dev F.TWN_STATUS_COUPLING = 1 ∧ rd t.dev F.TWN_STATUS_LAST_CAUSE = 7 := by
  obtain ⟨d, hd, hmay, hgotd, hlink, hprobd, hunit, hroled, hexec⟩ := exec_pairAuth hcore hpairs hgot resp mateActive mateSn
  have henter : (d.twin.role != .standby) = true := by
    rcases hrole with h | ⟨h, -⟩ <;> rw [hroled, h] <;> rfl
  have hnot : ¬ (d.twin.role = .active ∧ (!(mateActive && unitNo (pairMade (authNoted mateActive d)))) = true) := by
    rw [hroled, hunit, hmate]
    rcases hrole with h | ⟨-, h⟩ <;> simp [h]
  rw [pairAuthOn_succeeds (s := { s with dev := d }) hmay hgotd resp mateActive mateSn (hprobd.trans hprob), if_neg hnot,
    if_pos henter] at hexec
  have hlink' : linkUp (authNoted mateActive d) = false := (linkUp_authNoted mateActive d).trans hlink
  have htaken : Within [twinWord] [.regs, .twin, .hif, .pm] s.dev d := hd.frame.within.mono
  have hframe := (htaken.next (within_authNoted mateActive d)).next (within_pairedStandby hlink' s.sn p.unit)
  rw [pairedStandby_eq hlink'] at hexec hframe
  refine ⟨_, hexec, rfl, rfl, rfl, rfl, hframe.parts, rfl, rfl, rfl, coupling_setCoupling _ (by decide), ?_⟩
  exact (rd_setCoupling _ _ (by decide)).trans (cause_lastCause _ (by decide))

end

end

end Sys2Proof.Machine
end

