-- ==== Sys2Proof/Proofs/Signatures.lean ====
section
/-! PROOFS. The comparison of egress signatures (R309, R311), and the obligation of the twin link and pairing. -/

namespace Sys2Proof.Machine

-- In order: a default argument `by simp` waits for every declaration before it, and many that wait take many threads.
set_option Elab.async false

/-- In a fold over a list in which `n` stands once, a view that only `n`'s step changes is what that step makes of it. -/
theorem foldl_at {α β γ : Type} {g : β → α → β} (view : β → γ) {n : α} {l : List α} (hl : l.Nodup) (hn : n ∈ l)
    (hother : ∀ d, ∀ m ∈ l, m ≠ n → view (g d m) = view d) (d : β) :
    ∃ e, view e = view d ∧ view (l.foldl g d) = view (g e n) := by
  obtain ⟨pre, post, rfl⟩ := List.append_of_mem hn
  have hnot : n ∉ pre ++ post := (List.nodup_middle.mp hl).notMem
  have hskip : ∀ l' : List α, l' ⊆ pre ++ post → ∀ e, view (l'.foldl g e) = view e := by
    intro l'
    induction l' with
    | nil => exact fun _ _ => rfl
    | cons m l' ih =>
      intro hsub e
      have hm : m ∈ pre ++ post := hsub List.mem_cons_self
      have hne : m ≠ n := fun h => hnot (h ▸ hm)
      rw [List.foldl_cons, ih (fun _ h => hsub (List.mem_cons_of_mem _ h))]
      exact hother e m (by simp only [List.mem_append, List.mem_cons] at hm ⊢; tauto) hne
  refine ⟨pre.foldl g d, hskip pre (by simp) d, ?_⟩
  rw [List.foldl_append, List.foldl_cons, hskip post (by simp)]

/-! ### Failing flags -/

/-- The words that a comparison of signatures writes. -/
abbrev sigWords : List Nat := F.TWN_SIG_MISCNT.addr 0 :: (List.range 4).map (F.TWN_SIG_FAIL.addr ·)

theorem addr_sigFail_mem {n : Nat} (hn : n < 128) : F.TWN_SIG_FAIL.addr (n / 32) ∈ sigWords :=
  List.mem_cons_of_mem _ (List.mem_map_of_mem (List.mem_range.mpr (by omega)))

theorem addr_txEn_notMem {n : Nat} (hn : n < 128) : F.LNE_CTL_TX_EN.addr n ∉ sigWords := by
  have hfar : ∀ a ∈ sigWords, 0x1C00000 ≤ a := by decide
  have haddr : F.LNE_CTL_TX_EN.addr n = 0x400004 + 0x1000 * n := Fld.addr_of_strided (by decide) n
  intro hmem
  have := hfar _ hmem
  omega

section
variable (d : Dev) {n m : Nat} (b : Bool)

theorem sigSet_eq : sigSet d n b = if (rd d F.TWN_SIG_FAIL (n / 32)).testBit (n % 32) = b then d else
    wr d F.TWN_SIG_FAIL (n / 32) (setBit (rd d F.TWN_SIG_FAIL (n / 32)) (n % 32) b) := by
  by_cases h : (rd d F.TWN_SIG_FAIL (n / 32)).testBit (n % 32) = b <;> simp [sigSet, setBit, h]

theorem setBit_lt {v w : Nat} (hv : v < 2 ^ w) {k : Nat} (hk : k < w) : setBit v k b < 2 ^ w :=
  Nat.lt_pow_two_of_testBit _ fun i hi => by
    rw [testBit_setBit, if_neg (by omega)]
    exact Nat.testBit_lt_two_pow (hv.trans_le (Nat.pow_le_pow_right (by decide) hi))

theorem sigFlag_sigSet (hn : n < 128) (hm : m < 128) : sigFlag (sigSet d n b) m = if m = n then b else sigFlag d m := by
  rw [sigSet_eq]
  split
  case isTrue h =>
    split
    case isTrue heq => rw [heq]; exact h
    case isFalse => rfl
  case isFalse =>
    by_cases hword : m / 32 = n / 32
    · have hval : setBit (rd d F.TWN_SIG_FAIL (n / 32)) (n % 32) b < 2 ^ 32 :=
        setBit_lt b (rd_lt d F.TWN_SIG_FAIL (n / 32)) (Nat.mod_lt _ (by decide))
      rw [sigFlag, hword, rd_wr_fits _ ⟨by decide, hval⟩, testBit_setBit, sigFlag, hword]
      exact if_congr (by omega) rfl rfl
    · rw [sigFlag, rd_wr_index _ (by decide) (show n / 32 < 4 by omega) (show m / 32 < 4 by omega) hword,
        if_neg (by rintro rfl; exact hword rfl)]
      rfl

theorem within_sigSet (hn : n < 128) : Within sigWords [.regs] d (sigSet d n b) := by
  rw [sigSet_eq]
  exact .ite (fun _ => .refl _ _ d) fun _ => (Within.refl _ _ d).wr (addr_sigFail_mem hn) (by simp)

theorem within_sigRun (v : Nat) : Within [] [.twin] d (sigRun d n v) := .of_only (only_twin d _)

end

/-! ### One lane's comparison -/

section
variable (sn rsn : SN) (mis : Nat → Bool) (d : Dev) {n m : Nat}

/-- The failing flag of lane `n` after its comparison, by its transmitter and the flag before. -/
theorem sigFlag_sigLane_same (hn : n < 128) :
    (rdB d F.LNE_CTL_TX_EN n = false → sigFlag (sigLane sn rsn mis d n) n = false) ∧
    (rdB d F.LNE_CTL_TX_EN n = true → mis n = true → sigFlag (sigLane sn rsn mis d n) n = true) ∧
    (rdB d F.LNE_CTL_TX_EN n = true → mis n = false → sigFlag d n = false → sigFlag (sigLane sn rsn mis d n) n = false) := by
  refine ⟨fun hoff => ?_, fun hon hmis => ?_, fun hon hok hclear => ?_⟩
  · simp only [sigLane, hoff, Bool.not_false, if_true]
    exact (sigFlag_sigSet d false hn hn).trans (if_pos rfl)
  · have hsat : sigFlag (sigRun (sat d F.TWN_SIG_MISCNT 0) n 0) n = sigFlag d n :=
      congrArg (Nat.testBit · (n % 32)) (rd_wr_parted _ (by decide))
    simp only [sigLane, hon, hmis, Bool.not_true, Bool.false_eq_true, if_false, if_true]
    split
    case isTrue h => exact hsat.trans h
    case isFalse => exact (sigFlag_sigSet _ true hn hn).trans (if_pos rfl)
  · simp only [sigLane, hon, hok, hclear, Bool.not_true, Bool.not_false, Bool.false_eq_true, if_false, if_true]

theorem sigFlag_sigLane_ne (hn : n < 128) (hm : m < 128) (hne : m ≠ n) : sigFlag (sigLane sn rsn mis d n) m = sigFlag d m := by
  have hset : ∀ (e : Dev) b, sigFlag (sigSet e n b) m = sigFlag e m := fun e b => (sigFlag_sigSet e b hn hm).trans (if_neg hne)
  have hsat : sigFlag (sigRun (sat d F.TWN_SIG_MISCNT 0) n 0) m = sigFlag d m :=
    congrArg (Nat.testBit · (m % 32)) (rd_wr_parted _ (by decide))
  unfold sigLane
  split
  case isTrue => exact hset d false
  case isFalse =>
    split
    case isTrue =>
      dsimp only
      split
      case isTrue => exact hsat
      case isFalse => exact (hset _ true).trans hsat
    case isFalse =>
      split
      case isTrue => rfl
      case isFalse =>
        dsimp only
        split
        case isTrue => exact hset d false
        case isFalse => rfl

theorem within_sigLane (hn : n < 128) : Within sigWords [.regs, .twin, .hif] d (sigLane sn rsn mis d n) := by
  have hsat : Within sigWords [.regs, .twin, .hif] d (sigRun (sat d F.TWN_SIG_MISCNT 0) n 0) :=
    ((Within.refl _ _ d).sat).next (within_sigRun _ 0)
  have hclear : Within sigWords [.regs, .twin, .hif] d (sigRun (sigSet d n false) n 0) :=
    ((within_sigSet d false hn).mono (ps := [.regs, .twin, .hif])).next (within_sigRun _ 0)
  refine .ite (fun _ => hclear) fun _ => .ite (fun _ => .ite (fun _ => hsat) fun _ => (hsat.next (within_sigSet _ true hn)).raise) fun _ =>
    .ite (fun _ => .refl _ _ d) fun _ => .ite (fun _ => hclear) fun _ => (within_sigRun d _).mono

end

/-! ### The comparison of a sweep -/

/-- What a comparison takes and leaves of lane `n`: its failing flag and its transmitter. -/
def laneView (n : Nat) (d : Dev) : Bool × Bool := (sigFlag d n, rdB d F.LNE_CTL_TX_EN n)

section
variable (sn rsn : SN) (mis : Nat → Bool) (d : Dev)

theorem within_sigJudge : Within sigWords [.regs, .twin, .hif] d (sigJudge sn rsn mis d) :=
  (Within.foldl (fun e _ hn => within_sigLane sn rsn mis e (List.mem_range.mp hn)) d).only (only_twin _ _)

theorem sigJudge_got : (sigJudge sn rsn mis d).twin.sigGot = true := by
  unfold sigJudge
  generalize (List.range 128).foldl (sigLane sn rsn mis) d = e
  rfl

theorem sigFlag_sigJudge {n : Nat} (hn : n < 128) :
    (rdB d F.LNE_CTL_TX_EN n = false → sigFlag (sigJudge sn rsn mis d) n = false) ∧
    (rdB d F.LNE_CTL_TX_EN n = true → mis n = true → sigFlag (sigJudge sn rsn mis d) n = true) ∧
    (rdB d F.LNE_CTL_TX_EN n = true → mis n = false → sigFlag d n = false → sigFlag (sigJudge sn rsn mis d) n = false) := by
  have htx : ∀ (e : Dev) (m : Nat), m ∈ List.range 128 → rdB (sigLane sn rsn mis e m) F.LNE_CTL_TX_EN n = rdB e F.LNE_CTL_TX_EN n := by
    intro e m hm
    exact (within_sigLane sn rsn mis e (List.mem_range.mp hm)).rdB (addr_txEn_notMem hn)
  have hview : ∀ e, ∀ m ∈ List.range 128, m ≠ n →
      laneView n (sigLane sn rsn mis e m) = laneView n e :=
    fun e m hm hne => Prod.ext (sigFlag_sigLane_ne sn rsn mis e (List.mem_range.mp hm) hn (Ne.symm hne)) (htx e m hm)
  obtain ⟨e, heq, hfold⟩ := foldl_at (laneView n) List.nodup_range (List.mem_range.mpr hn) hview d
  obtain ⟨hflag, hten⟩ := Prod.mk.inj heq
  have hjudge : sigFlag (sigJudge sn rsn mis d) n = sigFlag (sigLane sn rsn mis e n) n := by
    unfold sigJudge
    generalize (List.range 128).foldl (sigLane sn rsn mis) d = u at hfold ⊢
    exact congrArg Prod.fst hfold
  have hlane := sigFlag_sigLane_same sn rsn mis e hn
  rwa [hten, hflag, ← hjudge] at hlane

end

theorem rdB_of_bit {d : Dev} {f : Fld} {i : Nat} : (rd d f i = 0 → rdB d f i = false) ∧ (rd d f i = 1 → rdB d f i = true) := by
  constructor <;> intro h <;> simp [rdB, h]

/-- SIG of the read sweep that stands to be compared. -/
theorem sig_compares {s : State} (hcore : s.dev.pwr.core = true) (valid : BitVec 128) (sigs : List W32) (hrole : s.dev.twin.role = .standby)
    (hlink : linkUp s.dev = true) (hgot : s.dev.twin.sigGot = false) :
    ActsR sigWords [.twin, .hif, .pm] (.sig (s.sn - 1) valid sigs) s fun t =>
      t.dev.twin.sigGot = true ∧ ∀ n : Fin 128,
        (rd s.dev F.LNE_CTL_TX_EN n = 0 → sigFlag t.dev n = false) ∧
        (rd s.dev F.LNE_CTL_TX_EN n = 1 →
          (valid.getLsbD n = false ∨ s.dev.sw.parBad.contains n.val = true ∨ sigs[n.val]? ≠ some (laneSig s.dev n)) →
          sigFlag t.dev n = true) ∧
        (rd s.dev F.LNE_CTL_TX_EN n = 1 →
          ¬ (valid.getLsbD n = false ∨ s.dev.sw.parBad.contains n.val = true ∨ sigs[n.val]? ≠ some (laneSig s.dev n)) →
          sigFlag s.dev n = false → sigFlag t.dev n = false) := by
  refine actsR_of_record (typ := 4) (f := sigIn (s.sn - 1) valid sigs s.sn) rfl hcore fun d hd => ?_
  have hcompares : compares d = true := by
    have hup : rdB d F.TWN_STATUS_LINK = true := (hd.frame.regs.linkUp (a := s.dev)).trans hlink
    simp [compares, hd.frame.role.trans hrole, hup]
  have hgotd : d.twin.sigGot = false := by rw [hd.twin]; exact hgot
  have hsw : d.sw = s.dev.sw := hd.frame.parts .sw (by simp)
  have hflag : ∀ n, sigFlag d n = sigFlag s.dev n := fun n => congrArg (Nat.testBit · (n % 32)) (hd.frame.within.rd (by simp))
  have htx : ∀ n, rdB d F.LNE_CTL_TX_EN n = rdB s.dev F.LNE_CTL_TX_EN n := fun n => hd.frame.within.rdB (by simp)
  generalize hmis : (fun n => !valid.getLsbD n || d.sw.parBad.contains n || sigs[n]? != some (laneSig d n)) = mis
  have heq : sigIn (s.sn - 1) valid sigs s.sn d = sigJudge s.sn (s.sn - 1) mis d := by
    rw [← hmis]
    exact if_neg (by simp [hcompares, hgotd])
  have hiff : ∀ n : Nat, mis n = true ↔ (valid.getLsbD n = false ∨ s.dev.sw.parBad.contains n = true ∨ sigs[n]? ≠ some (laneSig s.dev n)) := by
    intro n
    have hsig : laneSig d n = laneSig s.dev n := by simp only [laneSig, hsw]
    rw [← hmis]
    simp only [hsw, hsig]
    simp only [Bool.or_eq_true, Bool.not_eq_true', bne_iff_ne, or_assoc]
  rw [heq]
  refine ⟨(within_sigJudge s.sn (s.sn - 1) mis d).mono, sigJudge_got .., fun n => ?_⟩
  obtain ⟨hoff, hbad, hgood⟩ := sigFlag_sigJudge s.sn (s.sn - 1) mis d n.isLt
  rw [htx, hflag] at hgood
  rw [htx] at hoff hbad
  exact ⟨fun h => hoff (rdB_of_bit.1 h), fun h k => hbad (rdB_of_bit.2 h) ((hiff n).mpr k),
    fun h k => hgood (rdB_of_bit.2 h) (Bool.eq_false_iff.mpr fun hm => k ((hiff n).mp hm))⟩

/-! ### Reasons of a failed pairing -/

section
variable {d : Dev} {p : PairRec} {resp : BitVec 128} {mateActive : Bool}

theorem pairProb_response (h : resp ≠ pairResp d p.unit d.twin.ownNonce p.nonce) : pairProb d p resp mateActive = 1 :=
  if_pos (by simpa using h)

section
variable (hresp : resp = pairResp d p.unit d.twin.ownNonce p.nonce)
include hresp

theorem pairProb_unit (h : p.unit = unitNo d) : pairProb d p resp mateActive = 2 := by
  simp [pairProb, hresp, h]

variable (hunit : p.unit ≠ unitNo d)
include hunit

theorem pairProb_policy (h : p.policy.toNat ≠ calPolicy d) : pairProb d p resp mateActive = 3 := by
  simp [pairProb, hresp, hunit, h]

variable (hpolicy : p.policy.toNat = calPolicy d)
include hpolicy

theorem pairProb_roles : pairProb d p resp mateActive = if d.twin.role ≠ .active ∧ mateActive = false then 4 else 0 := by
  simp [pairProb, hresp, hunit, hpolicy]

end

end

/-- Settles O27: the link's commands, the records of pairing, and the comparison of signatures, each by its own lemma. -/
theorem twinsPairAndCompare : Obligations.TwinsPairAndCompare := by
  unfold Obligations.TwinsPairAndCompare
  intro s hcore
  dsimp only
  refine ⟨fun delay hpaired hdown hagree => ⟨fun hrole => twinLinkUp_of_standby hcore hpaired hdown hagree hrole,
      fun hrole hnone => twinLinkUp_of_active hcore hpaired hdown hagree hrole hnone⟩,
    fun cause hbad hup htwo hrole => twinLinkDown_acts hcore cause hbad hup htwo hrole,
    fun p hpairs => pair_answers hcore p hpairs,
    fun hpairs hpaired hsent => pairingRetry_sends hcore hpairs hpaired hsent,
    fun p resp mateActive sn hpairs hgot => ?_,
    fun x delay ofs hlink => sweep_shows hcore x delay ofs hlink,
    fun valid sigs hrole hlink hgot => sig_compares hcore valid sigs hrole hlink hgot⟩
  have hfails {why : Nat} (hwhy : why ≠ 0) (hprob : pairProb s.dev p resp mateActive = why) :=
    pairAuth_fails hcore hpairs hgot resp mateActive sn hprob hwhy
  refine ⟨fun hbad => hfails (by decide) (pairProb_response hbad), fun hgood hunit => hfails (by decide) (pairProb_unit hgood hunit),
    fun hgood hunit hpol => hfails (by decide) (pairProb_policy hgood hunit hpol), fun hgood hunit hpol => ?_⟩
  have hroles := pairProb_roles (mateActive := mateActive) hgood hunit hpol
  refine ⟨fun hrole hmate => hfails (by decide) (hroles.trans (if_pos ⟨hrole, hmate⟩)), fun hrole hno => ?_, fun hrole hmate => ?_⟩
  · exact pairAuth_of_active hcore hpairs hgot resp mateActive sn (hroles.trans (if_neg fun h => h.1 hrole)) hrole hno
  · exact pairAuth_of_standby hcore hpairs hgot resp mateActive sn
      (hroles.trans (if_neg fun h => absurd (hmate.symm.trans h.2) (by decide))) hrole hmate

end Sys2Proof.Machine
end

