-- ==== Sys2Proof/Proofs/ResyncActive.lean ====
section
/-! PROOFS. Resync at the active (R322, R323): its start with the snapshot, its end, and the descriptors that wait for it. -/

namespace Sys2Proof.Machine

-- In order: a default argument `by simp` waits for every declaration before it, and many that wait take many threads.
set_option Elab.async false

/-- What is served shows in the rings alone. -/
theorem Served.of_rings {a a' b b' : Dev} {r uid st det : Nat} {sn : SN} {res : BitVec 64} (h : Served a b r uid st det sn res)
    (ha : a.hif.rings = a'.hif.rings) (hb : b'.hif.rings = b.hif.rings) : Served a' b' r uid st det sn res := by
  simpa only [Served, ringOf, ha, hb] using h

theorem within_divergeMate (d : Dev) : Within [twinWord] [.regs, .twin] d (divergeMate d) := ⟨(divergeMate_frame d).1, (divergeMate_frame d).2⟩

/-! ### What is sent -/

theorem evals_mirrorEntries (d : Dev) (ws : List EntryWr) : Evals [] [.tilth, .out, .twin] d (mirrorEntries d ws) := by
  unfold mirrorEntries sendEntries
  exact .ite (fun _ => .refl _ _ d) fun _ => .ite (fun _ =>
    ((Evals.of_only (only_onTilth d _)).mono (ps := [.tilth, .out, .twin])).next (evals_twinSend _ _ _)) fun _ => .refl _ _ d

theorem sentRec_nil (d : Dev) : SentRec d d [] := by simp [SentRec, Sent]

section
variable {d : Dev} (hlink : linkUp d = true)
include hlink

theorem sentRec_mirrorEntries (ws : List EntryWr) : ∃ rs, SentRec d (mirrorEntries d ws) rs := by
  unfold mirrorEntries sendEntries
  split
  · exact ⟨[], sentRec_nil d⟩
  · split
    · have hup : linkUp (onTilth d fun t => { t with seqOut := t.seqOut + 1 }) = true := hlink
      exact ⟨_, (sentRec_twinSend hup 5 _).of_same rfl rfl⟩
    · exact ⟨[], sentRec_nil d⟩

end

/-- The records of TYPE `typ` in order. -/
def sendAll (typ : Nat) (ws : List (List Nat)) (d : Dev) : Dev := ws.foldl (fun d w => twinSend d typ w) d

theorem evals_sendAll (typ : Nat) (ws : List (List Nat)) (d : Dev) : Evals [] [.out, .twin] d (sendAll typ ws d) :=
  .foldl (fun d w _ => evals_twinSend d typ w) d

theorem sentRec_sendAll (typ : Nat) {d : Dev} (hlink : linkUp d = true) (ws : List (List Nat)) :
    SentRec d (sendAll typ ws d) (ws.map fun w => (typ, w)) := by
  induction ws generalizing d with
  | nil => exact sentRec_nil d
  | cons w ws ih =>
    have hup : linkUp (twinSend d typ w) = true := (evals_twinSend d typ w).rdB (by simp) |>.trans hlink
    exact (sentRec_twinSend hlink typ w).trans (ih hup)

/-! ### The start of a resync -/

/-- What the snapshot is taken of. -/
theorem snapshot_congr {a b : Dev} (hsw : b.sw = a.sw) (hcli : b.cli = a.cli) (hchans : b.chans = a.chans) (hprot : b.prot = a.prot)
    (hplane : ∀ p, planeSt b p = planeSt a p) : snapshot b = snapshot a := by
  simp only [snapshot, active, hsw, hcli, hchans, hprot, funext hplane]

/-- The active's own state as its resync starts. -/
def resyncOpened (ws : List (Nat × Nat)) (d : Dev) : Dev :=
  setCoupling (onTwin d fun t => { t with
    diverged := false, resync := some ws, resyncLast := true, resyncTmo := rd d F.TWN_CFG2_RESYNC_TMO }) 2

/-- RESYNC_START and the snapshot have been sent. -/
def snapshotSent (d : Dev) : Dev := sendAll 0xB (snapshot (control d 2)) (control d 2)

theorem startResync_eq (ws : List (Nat × Nat)) (d : Dev) : startResync ws d =
    if (snapshotSent (resyncOpened ws d)).tilth.released then
      mirrorEntries (snapshotSent (resyncOpened ws d))
        (diffPage (active (snapshotSent (resyncOpened ws d))) (shadow (snapshotSent (resyncOpened ws d))))
    else snapshotSent (resyncOpened ws d) := by
  unfold startResync
  rfl

theorem evals_snapshotSent (d : Dev) : Evals [] [.out, .twin] d (snapshotSent d) := (evals_control d 2 []).trans (evals_sendAll _ _ _)

theorem sentRec_snapshotSent {d : Dev} (hlink : linkUp d = true) :
    SentRec d (snapshotSent d) ((0xC, [2]) :: (snapshot d).map fun w => (0xB, w)) := by
  have hsent := evals_control d 2 []
  have hup : linkUp (control d 2) = true := hsent.rdB (by simp) |>.trans hlink
  have hsame : snapshot (control d 2) = snapshot d :=
    snapshot_congr (hsent.parts .sw (by simp)) (hsent.parts .cli (by simp)) (hsent.parts .chans (by simp)) (hsent.parts .prot (by simp))
      fun p => hsent.rd (by simp)
  have hchunks := sentRec_sendAll 0xB hup (snapshot (control d 2))
  rw [hsame] at hchunks
  have hopen : SentRec d (control d 2) [(0xC, [2])] := sentRec_twinSend hlink 0xC [2]
  have hboth := hopen.trans hchunks
  rw [snapshotSent, hsame]
  exact hboth

/-- A resync has started between `a` and `b`, for the descriptors `ws`. -/
structure ResyncStarted (ws : List (Nat × Nat)) (a b : Dev) : Prop where
  frame : Within [twinWord] [.regs, .twin, .tilth, .out] a b
  coupling : rd b F.TWN_STATUS_COUPLING = 2
  twin : b.twin = queuesOf { a.twin with diverged := false, resync := some ws, resyncLast := true,
                                         resyncTmo := rd a F.TWN_CFG2_RESYNC_TMO } b.twin
  sent : ∃ rs, SentRec a b ((0xC, [2]) :: (snapshot a).map (fun w => (0xB, w)) ++ rs)

theorem resyncStarted_startResync (ws : List (Nat × Nat)) {d : Dev} (hlink : linkUp d = true) :
    ResyncStarted ws d (startResync ws d) := by
  have hopened : Within [twinWord] [.regs, .twin, .tilth, .out] d (resyncOpened ws d) := (Within.refl _ _ d).onTwin.setCoupling
  have hplane (p : Nat) : planeSt (resyncOpened ws d) p = planeSt d p := rd_wr_parted _ (by decide)
  have hsnap : snapshot (resyncOpened ws d) = snapshot d :=
    snapshot_congr (hopened.parts .sw (by simp)) (hopened.parts .cli (by simp)) (hopened.parts .chans (by simp))
      (hopened.parts .prot (by simp)) hplane
  have hup : linkUp (resyncOpened ws d) = true := by
    have hsame : rd (resyncOpened ws d) F.TWN_STATUS_LINK = rd d F.TWN_STATUS_LINK := rd_setCoupling _ 2 (by decide)
    exact (congrArg (· != 0) hsame).trans hlink
  have hcoupling : rd (resyncOpened ws d) F.TWN_STATUS_COUPLING = 2 := coupling_setCoupling _ (by decide)
  have hrecords := sentRec_snapshotSent hup
  rw [hsnap] at hrecords
  have hevals := evals_snapshotSent (resyncOpened ws d)
  have hup' : linkUp (snapshotSent (resyncOpened ws d)) = true := hevals.rdB (by simp) |>.trans hup
  obtain ⟨rs, hmirror⟩ : ∃ rs, SentRec (snapshotSent (resyncOpened ws d)) (startResync ws d) rs := by
    rw [startResync_eq]
    split
    · exact sentRec_mirrorEntries hup' _
    · exact ⟨[], sentRec_nil _⟩
  have hlast : Evals [] [.tilth, .out, .twin] (snapshotSent (resyncOpened ws d)) (startResync ws d) := by
    rw [startResync_eq]
    exact .ite (fun _ => evals_mirrorEntries _ _) fun _ => .refl _ _ _
  have hall : Evals [] [.tilth, .out, .twin] (resyncOpened ws d) (startResync ws d) := hevals.mono.next hlast
  exact ⟨hopened.evals hall, (hall.rd (by simp)).trans hcoupling, hall.twin, rs, (hrecords.trans hmirror).of_same rfl rfl⟩

/-! ### TWIN_RESYNC -/

theorem resyncDesc_of_served {d : Dev} {r : Nat} {e : QEnt} {mode : Bool} (he : servedBy d r 0x71 = some e) (hmode : dB e.raw 16 0 = mode) :
    resyncDesc d r mode = some e := by
  simp [resyncDesc, he, hmode]

section
variable {s : State} {r : Fin 16} {e : QEnt} (hcore : s.dev.pwr.core = true) (he : servedBy s.dev r 0x71 = some e)
  (hres : reservedAt e.raw = none)
include hcore he hres

section
variable (hmode : dB e.raw 16 0 = false)
include hmode

theorem exec_twinResync {b : Dev}
    (h : (if s.dev.twin.role ≠ .active ∨ (!linkUp s.dev) = true ∨ coupling s.dev = 0 then finish s.dev r e.uid stBlocked 5 s.sn
      else if coupling s.dev = 3 then finish s.dev r e.uid stOk 0 s.sn
      else match s.dev.twin.resync with
        | some ws => take (onTwin s.dev fun t => { t with resync := some (ws ++ [(r.val, e.uid)]) }) r e.uid
        | none => if resyncFree s.dev then take (startResync [(r.val, e.uid)] s.dev) r e.uid else s.dev) = b) :
    exec (.twinResync r) s = .next { s with dev := b } := by
  refine exec_of_core (g := serveResync r s.sn) rfl hcore ?_
  rw [← h]
  simp only [serveResync, resyncDesc_of_served he hmode, reservedProb_of_none hres]
  rfl

theorem twinResync_blocked (h : s.dev.twin.role ≠ .active ∨ linkUp s.dev = false ∨ coupling s.dev = 0) :
    Acts [.hif] (.twinResync r) s fun t => Served s.dev t.dev r e.uid 3 5 s.sn 0 :=
  (Within.of_only (only_finish _ _ _ _ _ _ _)).acts
    (exec_twinResync hcore he hres hmode (if_pos (by simpa using h))) (served_finish _ _ _ _ _ _ _)

section
variable (hrole : s.dev.twin.role = .active) (hlink : linkUp s.dev = true)
include hrole hlink

theorem twinResync_coupled (h : coupling s.dev = 3) : Acts [.hif] (.twinResync r) s fun t => Served s.dev t.dev r e.uid 0 0 s.sn 0 :=
  (Within.of_only (only_finish _ _ _ _ _ _ _)).acts
    (exec_twinResync hcore he hres hmode ((if_neg (by simp [hrole, hlink, h])).trans (if_pos h))) (served_finish _ _ _ _ _ _ _)

variable (hpart : coupling s.dev = 1 ∨ coupling s.dev = 2)
include hpart

theorem twinResync_joins {ws : List (Nat × Nat)} (hrun : s.dev.twin.resync = some ws) : Acts [.twin, .hif] (.twinResync r) s fun t =>
    Taken s.dev t.dev r e.uid ∧ t.dev.twin = { s.dev.twin with resync := some (ws ++ [(r.val, e.uid)]) } := by
  have hexec := exec_twinResync hcore he hres hmode ((if_neg (by simp [hrole, hlink]; omega)).trans (if_neg (by omega)))
  rw [hrun] at hexec
  exact ((Within.refl [] _ s.dev).onTwin.take).acts hexec ⟨(taken_take _ _ _).of_hif rfl rfl, rfl⟩

theorem twinResync_starts (hnone : s.dev.twin.resync = none) (hfree : resyncFree s.dev = true) :
    Within [twinWord] [.regs, .twin, .tilth, .out, .hif] s.dev (take (startResync [(r.val, e.uid)] s.dev) r e.uid) ∧
    exec (.twinResync r) s = .next { s with dev := take (startResync [(r.val, e.uid)] s.dev) r e.uid } ∧
    Taken s.dev (take (startResync [(r.val, e.uid)] s.dev) r e.uid) r e.uid := by
  have hstart := resyncStarted_startResync [(r.val, e.uid)] hlink
  have hframe : Within [twinWord] [.regs, .twin, .tilth, .out, .hif] s.dev (startResync [(r.val, e.uid)] s.dev) := hstart.frame.mono
  refine ⟨hframe.take, ?_, (taken_take _ _ _).of_hif (hstart.frame.parts .hif (by simp)) rfl⟩
  refine exec_twinResync hcore he hres hmode ((if_neg (by simp [hrole, hlink]; omega)).trans ((if_neg (by omega)).trans ?_))
  rw [hnone]
  exact if_pos hfree

end

end

theorem twinResyncMode1_waits (hmode : dB e.raw 16 0 = true) : Acts [.twin, .hif] (.twinResyncMode1 r) s fun t =>
    Taken s.dev t.dev r e.uid ∧ t.dev.twin = { s.dev.twin with
      unhold := s.dev.twin.unhold ++ [(earliest s.dev s.sn, BitVec.ofNat 128 (dF e.raw 20 0 128), r.val, e.uid)] } := by
  have heq : serveUnhold r s.sn s.dev = take (onTwin s.dev fun t => { t with
      unhold := t.unhold ++ [(earliest s.dev s.sn, BitVec.ofNat 128 (dF e.raw 20 0 128), r.val, e.uid)] }) r e.uid := by
    simp only [serveUnhold, resyncDesc_of_served he hmode, reservedProb_of_none hres]
    rfl
  exact ((Within.refl [] _ s.dev).onTwin.take).acts (exec_of_core (g := serveUnhold r s.sn) rfl hcore heq)
    ⟨(taken_take _ _ _).of_hif rfl rfl, rfl⟩

end

/-! ### Resync without a descriptor, and its ends -/

section
variable {s : State}

theorem autoResync_eq (d : Dev) : autoResync d =
    if d.twin.role = .active ∧ (!d.twin.swapHalf) = true ∧ linkUp d = true ∧ coupling d = 1 ∧ d.twin.resync.isNone = true ∧
      rdB d F.TWN_CFG_AUTO_RESYNC = true ∧ resyncFree d = true then startResync [] d else d := rfl

theorem autoResyncRetry_idle (h : rd s.dev F.TWN_CFG_AUTO_RESYNC = 0) : exec .autoResyncRetry s = .next s :=
  exec_of_core_self rfl ((autoResync_eq _).trans (if_neg (by simp [rdB, h])))

variable (hcore : s.dev.pwr.core = true) (hrole : s.dev.twin.role = .active) (hlink : linkUp s.dev = true)
include hcore hrole hlink

theorem exec_autoResyncRetry (hhalf : s.dev.twin.swapHalf = false) (hone : coupling s.dev = 1) (hnone : s.dev.twin.resync = none)
    (hfree : resyncFree s.dev = true) (hauto : rd s.dev F.TWN_CFG_AUTO_RESYNC = 1) :
    exec .autoResyncRetry s = .next { s with dev := startResync [] s.dev } :=
  exec_of_core rfl hcore ((autoResync_eq _).trans (if_pos (by simp [hrole, hlink, hhalf, hone, hnone, hfree, rdB, hauto])))

variable {r uid : Nat} (hrun : s.dev.twin.resync = some [(r, uid)])
include hrun

omit hlink in
theorem couplingNotice_completes (htwo : coupling s.dev = 2) : ActsR [twinWord] [.twin, .hif, .pm] .couplingNotice s fun t =>
    rd t.dev F.TWN_STATUS_COUPLING = 3 ∧ t.dev.twin = queuesOf { s.dev.twin with resync := none, resyncLast := false } t.dev.twin ∧
    Served s.dev t.dev r uid 0 0 s.sn 0 ∧ Raised s.dev t.dev [{ typ := 0x66, sn := s.sn }] := by
  refine actsR_of_record (typ := 0xC) (f := coupled' s.sn) rfl hcore fun d hd => ?_
  have hresync : d.twin.resync = some [(r, uid)] := by rw [hd.twin]; exact hrun
  have heq : coupled' s.sn d = endResync s.sn stOk (raise (setCoupling d 3) { typ := 0x66, sn := s.sn }) :=
    if_pos ⟨hd.frame.role.trans hrole, by rw [hresync]; rfl, (hd.frame.within.rd (by simp)).trans htwo⟩
  generalize he : raise (setCoupling d 3) { typ := 0x66, sn := s.sn } = e at heq
  have hstep : Within [twinWord] [.regs, .hif] d e := he ▸ ((Within.refl _ _ d).setCoupling).raise
  have hetwin : e.twin = d.twin := hstep.parts .twin (by simp)
  have heresync : e.twin.resync = some [(r, uid)] := hetwin ▸ hresync
  have hends : endResync s.sn stOk e = onTwin (finish e r uid stOk 0 s.sn) fun t => { t with resync := none, resyncLast := false } := by
    simp only [endResync, heresync, List.foldl_cons, List.foldl_nil]
  rw [heq, hends]
  refine ⟨((hstep.mono (as := [twinWord]) (ps := [.regs, .twin, .hif, .pm])).finish).onTwin, ?_, ?_, ?_, ?_⟩
  · have hset : rd e F.TWN_STATUS_COUPLING = 3 := by rw [← he]; exact coupling_setCoupling d (by decide)
    exact hset
  · change ({ e.twin with resync := none, resyncLast := false } : Twin) = queuesOf _ { e.twin with resync := none, resyncLast := false }
    rw [hetwin, hd.twin]
    rfl
  · refine Served.of_rings (served_finish e r uid stOk 0 s.sn 0) ?_ rfl
    rw [← he]
    exact hd.frame.rings
  · have hraised : Raised d e [{ typ := 0x66, sn := s.sn }] := he ▸ (raised_raise (setCoupling d 3) _).of_same rfl rfl rfl
    exact hraised.of_same hd.evq hd.frame.role rfl

theorem resyncTimeout_diverges (htmo : s.dev.twin.resyncTmo ≠ 0) : ActsR [twinWord] [.twin, .hif, .out] .resyncTimeout s fun t =>
    rd t.dev F.TWN_STATUS_COUPLING = 1 ∧
    t.dev.twin = queuesOf { s.dev.twin with resync := none, resyncLast := false, diverged := true } t.dev.twin ∧
    Served s.dev t.dev r uid 0x15 0 s.sn 0 ∧ SentRec s.dev t.dev [(0xC, [3])] := by
  have heq : resyncTimeout s.sn s.dev = divergeMate (endResync s.sn stDiverged (control s.dev 3)) :=
    if_pos ⟨hrole, by rw [hrun]; rfl, htmo⟩
  have hsends := evals_control s.dev 3 []
  have hsent : SentRec s.dev (control s.dev 3) [(0xC, [3])] := sentRec_twinSend hlink 0xC [3]
  generalize control s.dev 3 = e at heq hsends hsent
  have heresync : e.twin.resync = some [(r, uid)] := (congrArg Twin.resync hsends.twin).trans hrun
  have hends : endResync s.sn stDiverged e =
      onTwin (finish e r uid stDiverged 0 s.sn) fun t => { t with resync := none, resyncLast := false } := by
    simp only [endResync, heresync, List.foldl_cons, List.foldl_nil]
  rw [hends] at heq
  have hframe : Within [twinWord] [.regs, .twin, .hif, .out] s.dev e := hsends.within.mono
  refine ((hframe.finish.onTwin).next (within_divergeMate _)).actsR (exec_of_core rfl hcore heq) ⟨?_, ?_, ?_, ?_⟩
  · exact coupling_setCoupling _ (by decide)
  · change ({ e.twin with resync := none, resyncLast := false, diverged := true } : Twin) =
      queuesOf _ { e.twin with resync := none, resyncLast := false, diverged := true }
    rw [hsends.twin]
    rfl
  · exact Served.of_rings (served_finish e r uid stDiverged 0 s.sn 0) hsends.rings rfl
  · exact hsent

end

theorem resyncTimeout_off {s : State} (htmo : s.dev.twin.resyncTmo = 0) : exec .resyncTimeout s = .next s :=
  exec_of_core_self (g := resyncTimeout s.sn) rfl (if_neg fun h => h.2.2 htmo)

/-- A notice of divergence that reaches the active without a resync. -/
theorem divergenceNotice_of_active {s : State} (hcore : s.dev.pwr.core = true) (hrole : s.dev.twin.role = .active)
    (hcoupling : coupling s.dev ≠ 0) (hresync : s.dev.twin.resync = none) (hauto : rd s.dev F.TWN_CFG_AUTO_RESYNC = 0) :
    ActsR [twinWord] [.twin, .pm] .divergenceNotice s fun t =>
      rd t.dev F.TWN_STATUS_COUPLING = 1 ∧ t.dev.twin = queuesOf { s.dev.twin with diverged := true } t.dev.twin := by
  refine actsR_of_record (typ := 0xC) (f := divergenceIn s.sn) rfl hcore fun d hd => ?_
  have hroled : d.twin.role = .active := hd.frame.role.trans hrole
  have hresyncd : d.twin.resync = none := by rw [hd.twin]; exact hresync
  have heq : divergenceIn s.sn d = divergeMate d :=
    (if_neg (by simp [hroled])).trans (mateDiverged_of_manual hroled hresyncd ((hd.frame.within.rd (by simp)).trans hauto) s.sn
      (by rw [hd.frame.within.coupling]; exact hcoupling))
  rw [heq]
  refine ⟨(within_divergeMate d).mono, coupling_setCoupling _ (by decide), ?_⟩
  change ({ d.twin with diverged := true } : Twin) = queuesOf _ { d.twin with diverged := true }
  rw [hd.twin]
  rfl

end Sys2Proof.Machine
end

