-- ==== Sys2Proof/Proofs/ResyncStandby.lean ====
section
/-! PROOFS. Resync at the standby (R296, R322): its start, the snapshot's chunks and its ends; and the obligation of resync. -/

namespace Sys2Proof.Machine

-- In order: a default argument `by simp` waits for every declaration before it, and many that wait take many threads.
set_option Elab.async false

/-! ### The pools as they stand again (R178) -/

section
variable (sn : SN)

theorem quadStat_cli (d : Dev) (q : Nat) : (quadStat sn d q).cli = { d.cli with low := (quadStat sn d q).cli.low } := by
  unfold quadStat
  extract_lets free d₁ d₂ th low was cli d₃
  have hcli : d₂.cli = d.cli := by simp only [d₂, d₁, apply_ite Dev.cli, wr_cli, ite_self]
  rw [apply_ite Dev.cli, raise_cli, ite_self]
  exact congrArg (fun c : Clients => { c with low := lset d₂.cli.low q low }) hcli

/-- The four pools brought up to date. -/
def poolsShown (d : Dev) : Dev := [0, 1, 2, 3].foldl (quadStat sn) d

theorem evals_poolsShown (d : Dev) : Evals poolRegs [.regs, .cli, .hif] d (poolsShown sn d) :=
  .foldl (fun d q hq => evals_quadStat sn d (by simp at hq; omega)) d

theorem poolsShown_cli (d : Dev) : (poolsShown sn d).cli = { d.cli with low := (poolsShown sn d).cli.low } := by
  suffices h : ∀ l : List Nat, (l.foldl (quadStat sn) d).cli = { d.cli with low := (l.foldl (quadStat sn) d).cli.low } from h _
  intro l
  induction l generalizing d with
  | nil => rfl
  | cons q l ih =>
    rw [List.foldl_cons, ih, quadStat_cli]

end

/-! ### The start of a resync -/

section
variable (d : Dev)

/-- The standby enters RESYNC, and waits for nothing of what came before. -/
def resyncEntered : Dev :=
  { onTwin (setCoupling d 2) fun t => { t with
      seqIn := none, cfgIn := none, early := [], cfgWait := [], snapLast := false, resyncT := none, clean := 0, diverged := false } with
    tilth := { seqOut := d.tilth.seqOut, lastT := d.tilth.lastT, released := d.tilth.released, made := d.tilth.made, fresh := true } }

/-- A released shadow is cleared. -/
def shadowCleared : Dev := if d.tilth.released then lateWrites d else d

/-- What the snapshot brings anew is dropped. -/
def contentDropped : Dev :=
  { d with
    sw := { d.sw with sel := [] }, prot := { d.prot with groups := [], psc := [] },
    cli := { d.cli with tribs := [], loess := [], lanesAl := [], lanesSk := [], drain := [], profiles := [],
                        flexe := d.cli.flexe.map fun f => (f.1, { f.2 with txA := [], txB := [], sw := none, old := [] }) },
    chans := d.chans.map fun c => (c.1, { c.2 with rxNext := some 31, txNext := some 31 }) }

theorem resyncBegin_of_standby {d : Dev} (hrole : d.twin.role = .standby) (hlink : linkUp d = true) (sn : SN) :
    resyncBegin sn d = tilthStat (poolsShown sn (contentDropped (shadowCleared (resyncEntered d)))) :=
  if_neg (by simp [hrole, hlink])

theorem within_resyncEntered : Within [twinWord] [.regs, .twin, .tilth] d (resyncEntered d) := by
  have hentered : Within [twinWord] [.regs, .twin, .tilth] d (onTwin (setCoupling d 2) fun t => { t with
      seqIn := none, cfgIn := none, early := [], cfgWait := [], snapLast := false, resyncT := none, clean := 0, diverged := false }) :=
    ((Within.refl _ _ d).setCoupling).onTwin
  exact hentered.only (only_onTilth _ fun t =>
    { seqOut := t.seqOut, lastT := t.lastT, released := t.released, made := t.made, fresh := true })

theorem within_shadowCleared : Within [] [.tilth, .sw] d (shadowCleared d) :=
  .ite (fun _ => .of_only (lateWrites_spec d).1) fun _ => .refl _ _ d

theorem within_contentDropped : Within [] [.sw, .prot, .cli, .chans] d (contentDropped d) :=
  .of_only (by intro p hp; cases p <;> simp_all [Part.same, contentDropped])

theorem within_tilthStat : Within tilthRegs [.regs] d (tilthStat d) := ⟨(tilthStat_frame d).1, (tilthStat_frame d).2⟩

/-- What the shadow and Tilth are once the standby has entered RESYNC. -/
theorem shadowCleared_spec : active (shadowCleared (resyncEntered d)) = active d ∧
    (shadowCleared (resyncEntered d)).tilth.prep = none ∧
    (d.tilth.released = true → shadow (shadowCleared (resyncEntered d)) = {} ∧ (shadowCleared (resyncEntered d)).tilth.fresh = false) ∧
    (d.tilth.released = false → shadow (shadowCleared (resyncEntered d)) = shadow d ∧
      (shadowCleared (resyncEntered d)).tilth.fresh = true) := by
  have hactive : active (resyncEntered d) = active d := active_congr rfl
  have hshadow : shadow (resyncEntered d) = shadow d := shadow_congr rfl
  cases hrel : d.tilth.released with
  | false =>
    have hsame : shadowCleared (resyncEntered d) = resyncEntered d :=
      if_neg (by rw [show (resyncEntered d).tilth.released = false from hrel]; exact Bool.false_ne_true)
    rw [hsame]
    exact ⟨hactive, rfl, by simp, fun _ => ⟨hshadow, rfl⟩⟩
  | true =>
    have heq : shadowCleared (resyncEntered d) = lateWrites (resyncEntered d) := if_pos hrel
    obtain ⟨-, htilth, hkept, hcleared⟩ := lateWrites_spec (resyncEntered d)
    rw [heq, htilth, hkept, hcleared]
    exact ⟨hactive, rfl, fun _ => ⟨rfl, rfl⟩, by simp⟩

end

section
variable {s : State} (hcore : s.dev.pwr.core = true) (hrole : s.dev.twin.role = .standby) (hlink : linkUp s.dev = true)
include hcore hrole hlink

theorem resyncStart_drops : ∃ t, exec .resyncStart s = .next t ∧ DevOnly s t ∧
    Only [.regs, .twin, .tilth, .sw, .prot, .cli, .chans, .hif, .pm] s.dev t.dev ∧ rd t.dev F.TWN_STATUS_COUPLING = 2 ∧
    (s.dev.tilth.released = true → shadow t.dev = {} ∧ t.dev.tilth.fresh = false) ∧
    (s.dev.tilth.released = false → shadow t.dev = shadow s.dev ∧ t.dev.tilth.fresh = true) ∧
    active t.dev = active s.dev ∧ t.dev.sw.sel = [] ∧ t.dev.prot.groups = [] ∧ t.dev.cli.tribs = [] ∧
    t.dev.cli.loess = [] ∧ t.dev.cli.profiles = [] ∧ t.dev.tilth.prep = none := by
  have hd := takesRecord_recordTaken 0xC s.dev
  have hexec : exec .resyncStart s = .next { s with dev := resyncBegin s.sn (recordTaken 0xC s.dev) } :=
    exec_of_core (g := fun d => resyncBegin s.sn (recordTaken 0xC d)) rfl hcore rfl
  generalize recordTaken 0xC s.dev = d at hd hexec
  have hup : linkUp d = true := (hd.frame.regs.linkUp (a := s.dev)).trans hlink
  rw [resyncBegin_of_standby (hd.frame.role.trans hrole) hup] at hexec
  obtain ⟨hactive, hprep, hclear, hkeep⟩ := shadowCleared_spec d
  have hentered := within_resyncEntered d
  have hcleared := within_shadowCleared (resyncEntered d)
  have htwo : rd (shadowCleared (resyncEntered d)) F.TWN_STATUS_COUPLING = 2 :=
    (hcleared.rd (by simp)).trans (coupling_setCoupling d (by decide))
  have htaken : Within (twinWord :: (tilthRegs ++ poolRegs)) [.regs, .twin, .tilth, .sw, .prot, .cli, .chans, .hif, .pm] s.dev d :=
    hd.frame.within.mono
  have hshadowed := (htaken.next hentered).next hcleared
  generalize shadowCleared (resyncEntered d) = u at *
  have hdrop := within_contentDropped u
  have hsw : (contentDropped u).sw = { u.sw with sel := [] } := rfl
  have hprot : (contentDropped u).prot.groups = [] := rfl
  have hcli : (contentDropped u).cli.tribs = [] ∧ (contentDropped u).cli.loess = [] ∧ (contentDropped u).cli.profiles = [] := ⟨rfl, rfl, rfl⟩
  have hactiveu : active (contentDropped u) = active u := rfl
  have hshadowu : shadow (contentDropped u) = shadow u := rfl
  generalize contentDropped u = v at *
  have hshown := evals_poolsShown s.sn v
  have hshowncli := poolsShown_cli s.sn v
  generalize poolsShown s.sn v = w at *
  have hwsw : w.sw = v.sw := hshown.parts .sw (by simp)
  have hwtilth : w.tilth = u.tilth := (hshown.parts .tilth (by simp)).trans (hdrop.parts .tilth (by simp))
  have hactivew : active w = active s.dev := (active_congr hwsw).trans (hactiveu.trans (hactive.trans (active_congr hd.sw)))
  have hshadoww : shadow w = shadow u := (shadow_congr hwsw).trans hshadowu
  have hstat := within_tilthStat w
  have hrel : d.tilth.released = s.dev.tilth.released := by rw [hd.tilth]
  refine ⟨_, hexec, devOnly_dev s _, ?_, ?_, fun h => ?_, fun h => ?_, ?_, ?_, ?_, ?_, ?_, ?_, ?_⟩
  · exact ((((hshadowed.next hdrop).evals hshown).next hstat)).parts
  · rw [hstat.rd (by decide), hshown.rd (by decide), hdrop.rd (by simp)]
    exact htwo
  · obtain ⟨hnew, hfresh⟩ := hclear (hrel.trans h)
    exact ⟨(shadow_congr (tilthStat_sw w)).trans (hshadoww.trans hnew), by simpa only [tilthStat_tilth, hwtilth] using hfresh⟩
  · obtain ⟨hold, hfresh⟩ := hkeep (hrel.trans h)
    exact ⟨(shadow_congr (tilthStat_sw w)).trans (hshadoww.trans (hold.trans (shadow_congr hd.sw))), by
      simpa only [tilthStat_tilth, hwtilth] using hfresh⟩
  · exact (active_congr (tilthStat_sw w)).trans hactivew
  · simp only [tilthStat_sw, hwsw, hsw]
  · have hkept : w.prot = v.prot := hshown.parts .prot (by simp)
    rw [tilthStat_prot, hkept, hprot]
  · exact (congrArg Clients.tribs ((tilthStat_cli w).trans hshowncli)).trans hcli.1
  · exact (congrArg Clients.loess ((tilthStat_cli w).trans hshowncli)).trans hcli.2.1
  · exact (congrArg Clients.profiles ((tilthStat_cli w).trans hshowncli)).trans hcli.2.2
  · simp only [tilthStat_tilth, hwtilth, hprep]

/-! ### The snapshot's chunks -/

section
variable (htwo : coupling s.dev = 2)
include htwo

omit hcore in
theorem inResync_of_taken {d : Dev} (hd : TakesRecord s.dev d) : (!(follows d && coupling d == 2)) = false := by
  have hf : follows d = true := hd.follows.trans (by
    simp only [follows, hrole, hlink, htwo, beq_self_eq_true, Bool.true_and, decide_eq_true_eq]
    decide)
  have hc : coupling d = 2 := hd.frame.within.coupling.trans htwo
  simp [hf, hc]

theorem state_last : Acts [.twin, .pm] (.state .last) s fun t =>
    t.dev.twin = queuesOf { s.dev.twin with snapLast := true } t.dev.twin := by
  refine acts_of_record (typ := 0xB) (f := stateIn .last s.sn) rfl hcore fun d hd => ?_
  have heq : stateIn .last s.sn d = onTwin d fun t => { t with snapLast := true } :=
    if_neg (by rw [inResync_of_taken hrole hlink htwo hd]; exact Bool.false_ne_true)
  refine ⟨_, heq, (hd.frame.parts.trans (only_twin d _)).mono (by simp), ?_⟩
  change ({ d.twin with snapLast := true } : Twin) = queuesOf _ { d.twin with snapLast := true }
  rw [hd.twin]
  rfl

theorem state_entries (w : List EntryWr) (hmem : ∀ x ∈ w, x.mem.val ≠ 3) (hrel : s.dev.tilth.released = true)
    (hlate : s.dev.tilth.late = []) (hfresh : s.dev.tilth.fresh = false) : Acts [.sw, .twin, .pm] (.state (.entries w)) s fun t =>
    shadow t.dev = w.foldl writeEnt (shadow s.dev) ∧ active t.dev = active s.dev := by
  refine acts_of_record (typ := 0xB) (f := stateIn (.entries w) s.sn) rfl hcore fun d hd => ?_
  have heq : stateIn (.entries w) s.sn d = putEntries w d :=
    if_neg (by rw [inResync_of_taken hrole hlink htwo hd]; exact Bool.false_ne_true)
  obtain ⟨hparts, htilth, hactive, hshadow⟩ := putEntries_spec (d := d) (by rw [hd.tilth]; exact hrel) (by rw [hd.tilth]; exact hlate)
    (by rw [hd.tilth]; exact hfresh) w
  have hplanes : planeWrites w = [] := by
    rw [planeWrites, List.map_eq_nil_iff, List.filter_eq_nil_iff]
    intro x hx
    simp [hmem x hx]
  have hsame : (putEntries w d).tilth = d.tilth := by rw [htilth, hplanes, List.append_nil]
  have hkept : Only [.sw] d (putEntries w d) := fun p hp => by
    by_cases htp : p = .tilth
    · rw [htp]; exact hsame
    · exact hparts p (by simp_all)
  exact ⟨_, heq, (hd.frame.parts.trans hkept).mono (by simp), hshadow.trans (by rw [shadow_congr hd.sw]), hactive.trans (active_congr hd.sw)⟩

theorem state_budgets (l : List BudgetRec) : ActsR poolRegs [.cli, .hif, .twin, .pm] (.state (.budgets l)) s fun t =>
    t.dev.cli = { s.dev.cli with loess := t.dev.cli.loess, low := t.dev.cli.low } ∧
    t.dev.cli.loess = s.dev.cli.loess.filter (·.ended) ++
      l.map fun b => { owner := b.owner, six := b.six, blk := b.blk, d16 := b.d16, m := b.m } := by
  refine actsR_of_record (typ := 0xB) (f := stateIn (.budgets l) s.sn) rfl hcore fun d hd => ?_
  have heq : stateIn (.budgets l) s.sn d = poolsShown s.sn { d with cli := { d.cli with
      loess := d.cli.loess.filter (·.ended) ++ l.map fun b => { owner := b.owner, six := b.six, blk := b.blk, d16 := b.d16, m := b.m } } } :=
    if_neg (by rw [inResync_of_taken hrole hlink htwo hd]; exact Bool.false_ne_true)
  have hput := Within.of_only (only_cli d { d.cli with
      loess := d.cli.loess.filter (·.ended) ++ l.map fun b => { owner := b.owner, six := b.six, blk := b.blk, d16 := b.d16, m := b.m } })
  have hcli : d.cli = s.dev.cli := hd.frame.cli
  rw [heq]
  refine ⟨(hput.mono (as := poolRegs) (ps := [.regs, .cli, .hif, .twin, .pm])).evals (evals_poolsShown s.sn _), ?_, ?_⟩
  · change (poolsShown s.sn _).cli = _
    rw [poolsShown_cli, hcli]
  · change (poolsShown s.sn _).cli.loess = _
    rw [poolsShown_cli, hcli]

theorem state_selector (u : Nat) (v : BitVec 3) : Acts [.sw, .twin, .pm] (.state (.selector [(u, v)])) s fun t =>
    selAt t.dev u = selOf v ∧ ∀ x, x ≠ u → selAt t.dev x = selAt s.dev x := by
  refine acts_of_record (typ := 0xB) (f := stateIn (.selector [(u, v)]) s.sn) rfl hcore fun d hd => ?_
  have heq : stateIn (.selector [(u, v)]) s.sn d = modSel d u fun _ => selOf v :=
    if_neg (by rw [inResync_of_taken hrole hlink htwo hd]; exact Bool.false_ne_true)
  have hsel (x : Nat) : selAt d x = selAt s.dev x := by simp only [selAt, hd.sw]
  exact ⟨_, heq, (hd.frame.parts.trans (only_modSel (d := d) (u := u) (f := fun _ => selOf v))).mono (by simp), selAt_modSel_same _ _,
    fun x hx => (selAt_modSel_ne _ _ hx).trans (hsel x)⟩

/-! ### LOCKSTEP -/

theorem lockstepEntry_couples (hclean : 16 ≤ s.dev.twin.clean) : ActsR [twinWord] [.hif, .out, .twin] .lockstepEntry s fun t =>
    rd t.dev F.TWN_STATUS_COUPLING = 3 ∧ Raised s.dev t.dev [{ typ := 0x66, sn := s.sn }] ∧ SentRec s.dev t.dev [(0xC, [4])] ∧
    t.dev.twin = queuesOf s.dev.twin t.dev.twin := by
  have heq : lockstep s.sn s.dev = control (raise (setCoupling s.dev 3) { typ := 0x66, sn := s.sn }) 4 :=
    if_pos (by simp [follows, hrole, hlink, htwo, hclean])
  generalize he : raise (setCoupling s.dev 3) { typ := 0x66, sn := s.sn } = e at heq
  have hstep : Within [twinWord] [.regs, .hif, .out, .twin] s.dev e := he ▸ ((Within.refl _ _ s.dev).setCoupling).raise
  have hup : linkUp e = true := by
    have hsame : rd e F.TWN_STATUS_LINK = rd s.dev F.TWN_STATUS_LINK := he ▸ rd_setCoupling s.dev 3 (by decide)
    exact (congrArg (· != 0) hsame).trans hlink
  have hthree : rd e F.TWN_STATUS_COUPLING = 3 := he ▸ coupling_setCoupling s.dev (by decide)
  have hraised : Raised s.dev e [{ typ := 0x66, sn := s.sn }] := he ▸ (raised_raise (setCoupling s.dev 3) _).of_same rfl rfl rfl
  have hetwin : e.twin = s.dev.twin := he ▸ rfl
  have hsends := evals_control e 4 []
  refine (hstep.evals hsends).actsR (exec_of_core rfl hcore heq) ⟨(hsends.rd (by simp)).trans hthree, ?_, ?_, ?_⟩
  · exact hraised.of_same rfl rfl (congrArg Hif.evq (hsends.parts .hif (by simp)))
  · exact (sentRec_twinSend hup 0xC [4]).of_same (by rw [← he]; rfl) (by rw [hetwin])
  · rw [← hetwin]
    exact hsends.twin

end

omit hcore hrole hlink in
theorem lockstepEntry_waits (hclean : s.dev.twin.clean < 16) : exec .lockstepEntry s = .next s :=
  exec_of_core_self (g := lockstep s.sn) rfl (if_neg (by simp; omega))

/-- A resync end, or a notice of divergence, at the standby. -/
theorem resyncEnds {c : Instr} {cause : Nat}
    (h : (c = Instr.resyncEnd ∧ coupling s.dev = 2 ∧ cause = 6) ∨ (c = .divergenceNotice ∧ 2 ≤ coupling s.dev ∧ cause = 3)) :
    ActsR [twinWord] [.twin, .hif, .out, .pm] c s fun t => Diverged s.dev t.dev s.sn cause := by
  have htwo : 2 ≤ coupling s.dev := by rcases h with ⟨-, h, -⟩ | ⟨-, h, -⟩ <;> omega
  have hf : follows s.dev = true := by simp [follows, hrole, hlink, htwo]
  rcases h with ⟨rfl, hc, rfl⟩ | ⟨rfl, -, rfl⟩
  · exact record_diverges hcore hf (typ := 0xC) (f := resyncStop s.sn) rfl fun d hd =>
      if_pos ⟨hd.frame.role.trans hrole, hd.frame.within.coupling.trans hc⟩
  · exact record_diverges hcore hf (typ := 0xC) (f := divergenceIn s.sn) rfl fun d hd =>
      (if_pos (hd.frame.role.trans hrole)).trans (diverge_of_follows (hd.follows.trans hf) s.sn 3)

end

/-- Settles O29: the start, the chunks and the ends of a resync at either twin, each by its own lemma. -/
theorem resyncReachesLockstep : Obligations.ResyncReachesLockstep := by
  unfold Obligations.ResyncReachesLockstep
  intro s hcore
  refine ⟨fun r e he hres => ⟨fun hmode => ⟨twinResync_blocked hcore he hres hmode, fun hrole hlink =>
      ⟨twinResync_coupled hcore he hres hmode hrole hlink, fun hpart =>
        ⟨fun ws hrun => twinResync_joins hcore he hres hmode hrole hlink hpart hrun, fun hnone hfree => ?_⟩⟩⟩,
      fun hmode => twinResyncMode1_waits hcore he hres hmode⟩,
    fun hrole hhalf hlink hone hnone hfree => ⟨fun hauto => ?_, autoResyncRetry_idle⟩,
    fun r uid hrole hrun hlink => ⟨couplingNotice_completes hcore hrole hrun, resyncTimeout_diverges hcore hrole hlink hrun, resyncTimeout_off⟩,
    fun hrole hlink => ⟨resyncStart_drops hcore hrole hlink, fun htwo => ⟨state_last hcore hrole hlink htwo,
      state_entries hcore hrole hlink htwo, state_budgets hcore hrole hlink htwo, state_selector hcore hrole hlink htwo,
      lockstepEntry_couples hcore hrole hlink htwo, lockstepEntry_waits⟩, fun c cause h => resyncEnds hcore hrole hlink h⟩,
    fun hrole hcoupling hresync hauto => divergenceNotice_of_active hcore hrole hcoupling hresync hauto⟩
  · obtain ⟨hframe, hexec, htaken⟩ := twinResync_starts hcore he hres hmode hrole hlink hpart hnone hfree
    obtain ⟨-, hcoupling, htwin, rs, hsent⟩ := resyncStarted_startResync [(r.val, e.uid)] hlink
    generalize startResync [(r.val, e.uid)] s.dev = b at *
    exact hframe.actsR hexec ⟨hcoupling, htwin, ⟨rs, hsent⟩, htaken⟩
  · obtain ⟨hframe, hcoupling, htwin, rs, hsent⟩ := resyncStarted_startResync [] hlink
    have hexec := exec_autoResyncRetry hcore hrole hlink hhalf hone hnone hfree hauto
    generalize startResync [] s.dev = b at *
    exact hframe.actsR hexec ⟨hcoupling, htwin, ⟨rs, hsent⟩, trivial⟩

end Sys2Proof.Machine
end

