-- ==== Sys2Proof/Proofs/RingSteps.lean ====
section
/-! PROOFS. The host rings (chapter 13): the words of a ring, and what writing, folding and tracing a record changes, said
once per operation. -/

namespace Sys2Proof.Machine

-- In order: a default argument `by simp` waits for every declaration before it, and many that wait take many threads.
set_option Elab.async false

/-! ### Words of rings -/

/-- A field of HIF_RING, which has 64 words 0x40 bytes apart. -/
def Fld.ringed (f : Fld) : Bool := f.n2 == 1 && f.s1 == 0x40 && decide (0x1001000 ≤ f.base) && decide (f.base < 0x1001040)

theorem Fld.addr_of_ringed {f : Fld} (h : f.ringed = true) (i : Nat) :
    f.addr i = f.base + 0x40 * i ∧ 0x1001000 ≤ f.base ∧ f.base < 0x1001040 := by
  simp only [Fld.ringed, Bool.and_eq_true, beq_iff_eq, decide_eq_true_eq] at h
  obtain ⟨⟨⟨hn, hs⟩, hlow⟩, hhigh⟩ := h
  refine ⟨?_, hlow, hhigh⟩
  simp only [Fld.addr, hn, hs, Nat.div_one, Nat.mod_one]
  omega

/-- Two words of rings are one only for one ring and one place. -/
theorem Fld.ringed_addr_ne {f g : Fld} (hf : f.ringed = true) (hg : g.ringed = true) {i j : Nat} (h : f.base ≠ g.base ∨ i ≠ j) :
    f.addr i ≠ g.addr j := by
  obtain ⟨hfi, hflow, hfhigh⟩ := Fld.addr_of_ringed hf i
  obtain ⟨hgj, hglow, hghigh⟩ := Fld.addr_of_ringed hg j
  omega

/-- The words `as` lie outside HIF_RING. -/
def offRings (as : List Nat) : Bool := as.all fun a => decide (a < 0x1001000) || decide (0x1002000 ≤ a)

theorem Fld.ringed_notMem {f : Fld} (hf : f.ringed = true) {i : Nat} (hi : i < 64) {as : List Nat} (h : offRings as = true) :
    f.addr i ∉ as := by
  intro hmem
  obtain ⟨hfi, hlow, hhigh⟩ := Fld.addr_of_ringed hf i
  have ha := List.all_eq_true.mp h _ hmem
  simp only [Bool.or_eq_true, decide_eq_true_eq] at ha
  omega

/-- PIDX and CIDX of a ring. -/
abbrev pWord (r : Nat) : Nat := F.HIF_RING_PIDX.addr r
abbrev cWord (r : Nat) : Nat := F.HIF_RING_CIDX.addr r

section
variable {as : List Nat} {ps : List Part} {a b : Dev} (h : Within as ps a b)
include h

/-- P, C, state and binding of a ring in words that are not written. -/
theorem Within.rP {r : Nat} (hr : pWord r ∉ as) : Machine.rP b r = Machine.rP a r := h.rd hr
theorem Within.rC {r : Nat} (hr : cWord r ∉ as) : Machine.rC b r = Machine.rC a r := h.rd hr
theorem Within.rState {r : Nat} (hr : F.HIF_RING_STATUS_STATE.addr r ∉ as) : Machine.rState b r = Machine.rState a r := h.rd hr

/-- Indices and state of a ring, where nothing of HIF_RING is written. -/
theorem Within.ringStill (has : offRings as = true) {r : Nat} (hr : r < 64) :
    Machine.rP b r = Machine.rP a r ∧ Machine.rC b r = Machine.rC a r ∧ Machine.rState b r = Machine.rState a r :=
  ⟨h.rP (Fld.ringed_notMem (by decide) hr has), h.rC (Fld.ringed_notMem (by decide) hr has),
    h.rState (Fld.ringed_notMem (by decide) hr has)⟩

end

theorem rP_wr (d : Dev) (r v : Nat) : rP (wr d F.HIF_RING_PIDX r v) r = v % 2 ^ 32 := rd_wr_same _ _ _ _ (by decide)
theorem rC_wr (d : Dev) (r v : Nat) : rC (wr d F.HIF_RING_CIDX r v) r = v % 2 ^ 32 := rd_wr_same _ _ _ _ (by decide)

/-! ### The state of a ring beside its registers -/

/-- Of the host interface only ring `r` changes beside its registers. -/
structure RingOnly (r : Nat) (a b : Dev) : Prop where
  hif : b.hif = { a.hif with rings := b.hif.rings }
  others : ∀ x, x ≠ r → ringOf b x = ringOf a x

namespace RingOnly

variable {r : Nat} {a b c : Dev}

theorem of_same (h : b.hif = a.hif) : RingOnly r a b := ⟨by rw [h], fun x _ => by rw [ringOf, h]; rfl⟩

theorem refl (r : Nat) (a : Dev) : RingOnly r a a := of_same rfl

theorem trans (h : RingOnly r a b) (k : RingOnly r b c) : RingOnly r a c :=
  ⟨by rw [k.hif, h.hif], fun x hx => (k.others x hx).trans (h.others x hx)⟩

theorem modRing (h : RingOnly r a b) (g : Ring → Ring) : RingOnly r a (Machine.modRing b r g) :=
  h.trans ⟨rfl, fun _ hx => ringOf_modRing_ne b g hx⟩

theorem same (h : RingOnly r a b) (k : c.hif = b.hif) : RingOnly r a c := h.trans (of_same k)

theorem evq (h : RingOnly r a b) : b.hif.evq = a.hif.evq := by rw [h.hif]
theorem uid (h : RingOnly r a b) : b.hif.uid = a.hif.uid := by rw [h.hif]

end RingOnly

theorem ringOf_congr {a b : Dev} (h : b.hif = a.hif) (r : Nat) : ringOf b r = ringOf a r := by rw [ringOf, h]; rfl

/-! ### Advancing an index (R327, R358) -/

/-- Nothing but translation requests leaves on the way from `a` to `b`. -/
def Asks (a b : Dev) : Prop := ∃ l : List Out, b = { a with out := a.out ++ l } ∧ ∀ o ∈ l, ∃ x, o = Out.transReq x

theorem asks_refl (a : Dev) : Asks a a := ⟨[], by simp, by simp⟩

theorem asks_prefetch (d : Dev) (r j : Nat) : Asks d (prefetch d r j) := by
  unfold prefetch
  extract_lets
  split
  · exact ⟨[_], rfl, by simp⟩
  · exact asks_refl d

namespace Asks

variable {a b : Dev} (h : Asks a b)
include h

theorem within : Within [] [.out] a b := by
  obtain ⟨l, rfl, -⟩ := h
  exact .of_only (by intro p hp; cases p <;> simp_all [Part.same])

theorem hif : b.hif = a.hif := by
  obtain ⟨l, rfl, -⟩ := h
  rfl

theorem sent {z : Dev} {o : Out} (ho : a.out = z.out ++ [o]) :
    ∃ l, Sent z b (o :: l) ∧ ∀ o ∈ l, ∃ x, o = Out.transReq x := by
  obtain ⟨l, rfl, hl⟩ := h
  exact ⟨l, by simp [Sent, ho], hl⟩

end Asks

/-- A device-produced ring after its P has advanced, before any prefetch. -/
def pAdvanced (d : Dev) (r : Nat) : Dev :=
  modRing (wr d F.HIF_RING_PIDX r ((rP d r + 1) % 2 ^ 32)) r fun x => { x with since := x.since + 1 }

theorem asks_rAdv_device {r : Nat} (hr : hostRing r = false) (d : Dev) : Asks (pAdvanced d r) (rAdv d r) := by
  unfold rAdv
  rw [hr, if_neg Bool.false_ne_true]
  exact asks_prefetch _ _ _

/-- A host-produced ring after its C has advanced, before any prefetch. -/
def cAdvanced (d : Dev) (r : Nat) : Dev :=
  modRing (wr { d with dma := { d.dma with second := d.dma.second.filter (· != r) } } F.HIF_RING_CIDX r ((rC d r + 1) % 2 ^ 32)) r
    fun x => { x with wbDue := true }

theorem asks_rAdv_host {r : Nat} (hr : hostRing r = true) (d : Dev) : Asks (cAdvanced d r) (rAdv d r) := by
  unfold rAdv
  rw [hr, if_pos rfl]
  exact asks_prefetch _ _ _

/-- C of the host-produced ring `r` has advanced between `a` and `b`. -/
structure HostAdvanced (r : Nat) (a b : Dev) : Prop where
  frame : Within [cWord r] [.regs, .hif, .dma, .out] a b
  cidx : rC b r = (rC a r + 1) % 2 ^ 32
  only : RingOnly r a b
  ring : ringOf b r = { ringOf a r with wbDue := true }

theorem hostAdvanced_rAdv {r : Nat} (hr : hostRing r = true) (d : Dev) : HostAdvanced r d (rAdv d r) := by
  have hasks := asks_rAdv_host hr d
  refine ⟨((((Within.refl _ _ d).only (only_dma d _)).wr).modRing).next hasks.within, ?_, ?_, ?_⟩
  · rw [hasks.within.rC (by simp)]
    exact (rC_wr _ _ _).trans (Nat.mod_mod _ _)
  · exact (((RingOnly.refl r d).same (c := wr { d with dma := _ } F.HIF_RING_CIDX r _) rfl).modRing _).same hasks.hif
  · exact (ringOf_congr hasks.hif r).trans (ringOf_modRing_same _ _ _)

/-! ### Records written (R331, R341) -/

/-- The record `bits` has been written to the device-produced ring `r` between `a` and `b`. -/
structure RecordWritten (r bits : Nat) (a b : Dev) : Prop where
  frame : Within [pWord r] [.regs, .hif, .out] a b
  pidx : rP b r = (rP a r + 1) % 2 ^ 32
  only : RingOnly r a b
  ring : ringOf b r = { ringOf a r with since := (ringOf a r).since + 1 }
  sent : ∃ l, Sent a b (.record r (rP a r)
    (BitVec.ofNat 2048 (bits ||| atByte (recBytes r - 1) (phaseBit (rLog2 a r) (rP a r)))) :: l) ∧ ∀ o ∈ l, ∃ x, o = Out.transReq x

theorem recordWritten_writeRec {r : Nat} (hr : hostRing r = false) (d : Dev) (bits : Nat) : RecordWritten r bits d (writeRec d r bits) := by
  generalize hb : bits ||| atByte (recBytes r - 1) (phaseBit (rLog2 d r) (rP d r)) = b
  have heq : writeRec d r bits = rAdv (emit d (.record r (rP d r) (BitVec.ofNat 2048 b))) r := by rw [← hb]; rfl
  have hasks := asks_rAdv_device hr (emit d (.record r (rP d r) (BitVec.ofNat 2048 b)))
  rw [heq, ← hb] at *
  refine ⟨(((Within.refl _ _ d).emit.wr).modRing).next hasks.within, ?_, ?_, ?_, ?_⟩
  · rw [hasks.within.rP (by simp)]
    exact (rP_wr _ _ _).trans (Nat.mod_mod _ _)
  · exact (((RingOnly.refl r d).same (c := wr (emit d _) F.HIF_RING_PIDX r _) rfl).modRing _).same hasks.hif
  · rw [ringOf_congr hasks.hif]
    exact ringOf_modRing_same _ _ _
  · exact hasks.sent rfl

/-- The event `e` has been written to the device-produced ring `r` between `a` and `b`. -/
structure EventWritten (r : Nat) (e : Ev) (a b : Dev) : Prop where
  frame : Within [pWord r] [.regs, .hif, .out, .pm] a b
  pidx : rP b r = (rP a r + 1) % 2 ^ 32
  only : RingOnly r a b
  ring : ringOf b r = { ringOf a r with since := (ringOf a r).since + 1, seq := ((ringOf a r).seq + 1) % 2 ^ 32 }
  sent : ∃ l, Sent a b (.record r (rP a r)
    (BitVec.ofNat 2048 (evBits e (ringOf a r).seq ||| atByte (recBytes r - 1) (phaseBit (rLog2 a r) (rP a r)))) :: l) ∧
    ∀ o ∈ l, ∃ x, o = Out.transReq x

theorem eventWritten_writeEv {r : Nat} (hr : hostRing r = false) (d : Dev) (e : Ev) : EventWritten r e d (writeEv d r e) := by
  obtain ⟨hframe, hpidx, honly, hring, l, hsent, hl⟩ := recordWritten_writeRec hr d (evBits e (ringOf d r).seq)
  generalize hb : writeRec d r (evBits e (ringOf d r).seq) = b at *
  generalize hn : modRing b r (fun x => { x with seq := ((ringOf d r).seq + 1) % 2 ^ 32 }) = n
  have hnumbered : Within [] [.hif] b n := hn ▸ .of_only (only_modRing b r _)
  have hnring : ringOf n r = { ringOf d r with since := (ringOf d r).since + 1, seq := ((ringOf d r).seq + 1) % 2 ^ 32 } := by
    rw [← hn, ringOf_modRing_same, hring]
  have hnonly : RingOnly r d n := hn ▸ honly.modRing _
  have heq : writeEv d r e = if 32 ≤ r ∧ r < 36 then perf n 7 (r - 32) else n := by
    rw [← hn, ← hb]
    rfl
  have hcounted : Within [] [.pm] n (writeEv d r e) := heq ▸ .ite (fun _ => (Within.refl _ _ n).perf) fun _ => .refl _ _ n
  have hhif : (writeEv d r e).hif = n.hif := hcounted.parts .hif (by simp)
  have hout : (writeEv d r e).out = b.out := (hcounted.parts .out (by simp)).trans (hnumbered.parts .out (by simp))
  refine ⟨((hframe.mono (ps := [.regs, .hif, .out, .pm])).next hnumbered).next hcounted, ?_, hnonly.same hhif, ?_, l, ?_, hl⟩
  · rw [hcounted.rP (by simp), hnumbered.rP (by simp), hpidx]
  · rw [ringOf_congr hhif, hnring]
  · rw [Sent, hout]
    exact hsent

/-- A record folded into the summary of its type (R345). -/
theorem within_foldEv (d : Dev) (r : Nat) (e : Ev) : Within [] [.hif, .pm] d (foldEv d r e) := (Within.refl _ _ d).modRing.perf

theorem ringOnly_foldEv (d : Dev) (r : Nat) (e : Ev) : RingOnly r d (foldEv d r e) :=
  ((RingOnly.refl r d).modRing _).same ((evals_perf _ _ _ _).parts .hif (by simp))

theorem ringOf_foldEv (d : Dev) (r : Nat) (e : Ev) : ringOf (foldEv d r e) r = { ringOf d r with folds := foldIn e (ringOf d r).folds } :=
  (ringOf_congr ((evals_perf _ _ _ _).parts .hif (by simp)) r).trans (ringOf_modRing_same _ _ _)

/-! ### Traces (R447 to R449) -/

/-- TRC takes what is staged: nothing but TRC, what leaves and the staged records change. -/
structure TraceMoved (a b : Dev) : Prop where
  frame : Within [pWord 40] [.regs, .hif, .out, .pm] a b
  only : RingOnly 40 a b

theorem TraceMoved.refl (a : Dev) : TraceMoved a a := ⟨.refl _ _ a, .refl 40 a⟩

theorem TraceMoved.trans {a b c : Dev} (h : TraceMoved a b) (k : TraceMoved b c) : TraceMoved a c :=
  ⟨h.frame.trans k.frame, h.only.trans k.only⟩

/-- The staged trace records are `l`. -/
def stagedAs (l : List Ev) (d : Dev) : Dev := { d with pm := { d.pm with trc := l } }

theorem traceMoved_stagedAs (l : List Ev) (d : Dev) : TraceMoved d (stagedAs l d) :=
  ⟨(Within.refl _ _ d).only (only_pm d _), .of_same rfl⟩

theorem trcDrain_succ (n : Nat) (d : Dev) : trcDrain (n + 1) d = match d.pm.trc with
    | [] => d
    | e :: l => if canWrite d 40 && (ringOf d 40).folds.isEmpty then trcDrain n (writeEv (stagedAs l d) 40 e) else d := rfl

theorem traceMoved_trcDrain (n : Nat) (d : Dev) : TraceMoved d (trcDrain n d) := by
  induction n generalizing d with
  | zero => exact .refl d
  | succ n ih =>
    rw [trcDrain_succ]
    split
    · exact .refl d
    · next e l _ =>
      split
      · have hwritten := eventWritten_writeEv (r := 40) (by decide) (stagedAs l d) e
        exact ((traceMoved_stagedAs l d).trans ⟨hwritten.frame, hwritten.only⟩).trans (ih _)
      · exact .refl d

theorem trcDrain_of_none {d : Dev} (h : d.pm.trc = []) (n : Nat) : trcDrain n d = d := by
  cases n with
  | zero => rfl
  | succ n => rw [trcDrain, h]

/-- A trace record that `k` staged ones leave room for is staged and drained, and another folds. -/
def tracePut (n k : Nat) (e : Ev) (d : Dev) : Dev :=
  if d.pm.trc.length < k then trcDrain n (stagedAs (d.pm.trc ++ [e]) d) else foldEv d 40 e

theorem traceMoved_tracePut (n k : Nat) (e : Ev) (d : Dev) : TraceMoved d (tracePut n k e d) := by
  unfold tracePut
  split
  · exact (traceMoved_stagedAs _ d).trans (traceMoved_trcDrain n _)
  · exact ⟨(within_foldEv d 40 e).mono, ringOnly_foldEv d 40 e⟩

theorem trace_eq (d : Dev) (sn : SN) (src p0 p1 p2 : Nat) : ∃ n k e, trace d sn src p0 p1 p2 = tracePut n k e (trcDrain n (freed d)) :=
  ⟨8192, _, _, rfl⟩

/-- A trace record: it is staged and drained, or it folds. -/
theorem within_trace (d : Dev) (sn : SN) (src p0 p1 p2 : Nat) :
    Within [pWord 40] [.regs, .hif, .out, .pm, .free] d (trace d sn src p0 p1 p2) := by
  obtain ⟨n, k, e, heq⟩ := trace_eq d sn src p0 p1 p2
  have hfreed : Within [pWord 40] [.regs, .hif, .out, .pm, .free] d (freed d) := (Within.refl _ _ d).only (only_freed d)
  rw [heq]
  exact (hfreed.next (traceMoved_trcDrain n _).frame).next (traceMoved_tracePut n k e _).frame

theorem ringOnly_trace (d : Dev) (sn : SN) (src p0 p1 p2 : Nat) : RingOnly 40 d (trace d sn src p0 p1 p2) := by
  obtain ⟨n, k, e, heq⟩ := trace_eq d sn src p0 p1 p2
  rw [heq]
  exact ((RingOnly.of_same (a := d) (b := freed d) rfl).trans (traceMoved_trcDrain n _).only).trans (traceMoved_tracePut n k e _).only

end Sys2Proof.Machine
end

