-- ==== Sys2Proof/Proofs/Doorbells.lean ====
section
/-! PROOFS. Doorbells (R328, R329, R350). -/

namespace Sys2Proof.Machine

-- In order: a default argument `by simp` waits for every declaration before it, and many that wait take many threads.
set_option Elab.async false

/-- ARB_STATUS. -/
abbrev arbWord : Nat := F.ARB_STATUS_MODE.addr 0

@[simp] theorem addr_arbCause : F.ARB_STATUS_MODE_CAUSE.addr 0 = arbWord := rfl
@[simp] theorem addr_arbFrozen : F.ARB_STATUS_FROZEN.addr 0 = arbWord := rfl
@[simp] theorem addr_arbDrained : F.ARB_STATUS_DRAINED.addr 0 = arbWord := rfl

theorem within_arbStat (d : Dev) : Within [arbWord, F.ARB_NULL.addr 0] [.regs, .dma, .pm] d (arbStat d) := by
  unfold arbStat
  extract_lets m test cause fr d₁ d₂
  have h₁ : Within [arbWord, F.ARB_NULL.addr 0] [.regs, .dma, .pm] d d₁ :=
    .ite (fun _ => ((Within.refl _ _ d).only (only_dma d _)).sat.perf) fun _ => .refl _ _ d
  have h₂ : Within [arbWord, F.ARB_NULL.addr 0] [.regs, .dma, .pm] d d₂ := h₁.wrB.wr.wrB
  exact .ite (fun _ => h₂) fun _ => h₂.wrB

/-- A message on the vector of errors. -/
abbrev errMsgWord (d : Dev) : Nat := F.MSIX_PBA.addr (rd d F.HIF_CFG_ERR_VEC / 32)

theorem within_errMsg (d : Dev) : Within [errMsgWord d] [.regs, .out, .pm] d (errMsg d) := within_sendMsi d _

theorem offRings_pba (v : Nat) : offRings [F.MSIX_PBA.addr v] = true := by
  have hlow : 0x1002000 ≤ F.MSIX_PBA.addr v := (Fld.addr_mem_span (f := F.MSIX_PBA) rfl (by decide) v).1.trans' (by decide)
  simp [offRings, hlow]

/-! ### A doorbell that moves an index -/

section
variable {off bytes r : Nat} {v : W32} {d : Dev} (hform : ¬ (bytes ≠ 4 ∨ off % 4096 ≠ 0 ∨ 41 ≤ off / 4096)) (hr : off / 4096 = r)
include hform hr

/-- The index that the doorbell's ring is moved by. -/
def dbIndex (d : Dev) (r : Nat) : Nat := if hostRing r = true then rP d r else rC d r

/-- A doorbell of a ring that cannot take one. -/
theorem doorbell_unbound (h : bound d r = false ∨ rState d r = 0 ∨ rState d r = 3 ∨ rState d r = 4) (sn : SN) :
    doorbell off bytes v sn d = sat d F.HIF_DB_UNBOUND 0 := by
  subst hr
  refine (if_neg hform).trans (if_pos ?_)
  simpa [or_assoc] using h

section
variable (hbound : bound d r = true) (hstate : rState d r = 1 ∨ rState d r = 2)
include hbound hstate

theorem doorbell_bound (sn : SN) : doorbell off bytes v sn d =
    if (decide (2 ^ 31 ≤ (v.toNat + 2 ^ 32 - dbIndex d r) % 2 ^ 32) ||
        (hostRing r && decide (2 ^ rLog2 d r < (v.toNat + 2 ^ 32 - rC d r) % 2 ^ 32))) = true then
      errMsg (raise (sat d F.HIF_DB_ERR 0) { typ := 0xC1, sn := sn, p0 := r, p1 := v.toNat })
    else if hostRing r = true then arbStat { wr d F.HIF_RING_PIDX r v.toNat with dma := { d.dma with startup := false } }
    else if r = 40 then trcDrain 8192 (wr d F.HIF_RING_CIDX r v.toNat) else wr d F.HIF_RING_CIDX r v.toNat := by
  subst hr
  refine (if_neg hform).trans ((if_neg ?_).trans rfl)
  rcases hstate with h | h <;> simp [hbound, h]

theorem doorbell_invalid (h : 2 ^ 31 ≤ (v.toNat + 2 ^ 32 - dbIndex d r) % 2 ^ 32 ∨
    hostRing r = true ∧ 2 ^ rLog2 d r < (v.toNat + 2 ^ 32 - rC d r) % 2 ^ 32) (sn : SN) :
    doorbell off bytes v sn d = errMsg (raise (sat d F.HIF_DB_ERR 0) { typ := 0xC1, sn := sn, p0 := r, p1 := v.toNat }) :=
  (doorbell_bound hform hr hbound hstate sn).trans (if_pos (by simpa using h))

theorem doorbell_moves (hback : (v.toNat + 2 ^ 32 - dbIndex d r) % 2 ^ 32 < 2 ^ 31)
    (hfar : hostRing r = true → (v.toNat + 2 ^ 32 - rC d r) % 2 ^ 32 ≤ 2 ^ rLog2 d r) (sn : SN) : doorbell off bytes v sn d =
    if hostRing r = true then arbStat { wr d F.HIF_RING_PIDX r v.toNat with dma := { d.dma with startup := false } }
    else if r = 40 then trcDrain 8192 (wr d F.HIF_RING_CIDX r v.toNat) else wr d F.HIF_RING_CIDX r v.toNat := by
  refine (doorbell_bound hform hr hbound hstate sn).trans (if_neg ?_)
  simp only [Bool.or_eq_true, Bool.and_eq_true, decide_eq_true_eq, not_or, not_and, not_le, not_lt]
  exact ⟨hback, hfar⟩

end

end

/-- The words that a doorbell which moves an index can write. -/
abbrev dbWords (r : Nat) : List Nat := [pWord r, cWord r, arbWord, F.ARB_NULL.addr 0]

/-- The other rings' indices and states are no words of this ring. -/
theorem ring_notMem_dbWords {f : Fld} (hf : f.ringed = true) {q r : Nat} (hq : q < 64) (hne : q ≠ r) : f.addr q ∉ dbWords r := by
  have hoff : f.addr q ∉ [arbWord, F.ARB_NULL.addr 0] := Fld.ringed_notMem hf hq (by decide)
  simp only [List.mem_cons, List.not_mem_nil, or_false, not_or] at hoff ⊢
  exact ⟨Fld.ringed_addr_ne hf (by decide) (.inr hne), Fld.ringed_addr_ne hf (by decide) (.inr hne), hoff⟩

theorem pWord_ne_cWord (q r : Nat) : pWord q ≠ cWord r :=
  Fld.ringed_addr_ne (f := F.HIF_RING_PIDX) (g := F.HIF_RING_CIDX) (by decide) (by decide) (.inl (by decide))

section
variable {s : State} (hcore : s.dev.pwr.core = true)
include hcore

theorem doorbell_moves_index (r : Fin 41) (v : W32) (hbound : bound s.dev r = true) (hstate : rState s.dev r = 1 ∨ rState s.dev r = 2)
    (hback : (v.toNat + 2 ^ 32 - dbIndex s.dev r) % 2 ^ 32 < 2 ^ 31)
    (hfar : hostRing r = true → (v.toNat + 2 ^ 32 - rC s.dev r) % 2 ^ 32 ≤ 2 ^ rLog2 s.dev r) :
    ActsR (dbWords r) [.dma, .hif, .pm, .out] (.doorbell (BitVec.ofNat 18 (r.val * 4096)) 4 v) s fun t =>
      (hostRing r = true → rP t.dev r = v.toNat ∧ rC t.dev r = rC s.dev r) ∧
      (hostRing r = false → rC t.dev r = v.toNat ∧ (r.val ≠ 40 → rP t.dev r = rP s.dev r)) ∧
      ∀ q : Fin 41, q ≠ r → rP t.dev q = rP s.dev q ∧ rC t.dev q = rC s.dev q ∧ rState t.dev q = rState s.dev q := by
  have hr41 := r.isLt
  have hoff : (BitVec.ofNat 18 (r.val * 4096)).toNat = r.val * 4096 := by
    rw [BitVec.toNat_ofNat]
    exact Nat.mod_eq_of_lt (by omega)
  have heq : doorbell (BitVec.ofNat 18 (r.val * 4096)).toNat 4 v s.sn s.dev = _ :=
    doorbell_moves (by rw [hoff]; omega) (by rw [hoff]; omega) hbound hstate hback hfar s.sn
  have hv : v.toNat % 2 ^ 32 = v.toNat := Nat.mod_eq_of_lt v.isLt
  have others {b : Dev} (h : Within (dbWords r) [.regs, .dma, .hif, .pm, .out] s.dev b) (q : Fin 41) (hq : q ≠ r) :
      rP b q = rP s.dev q ∧ rC b q = rC s.dev q ∧ rState b q = rState s.dev q := by
    have hq64 : q.val < 64 := by omega
    have hne : q.val ≠ r.val := fun h => hq (Fin.ext h)
    exact ⟨h.rP (ring_notMem_dbWords (by decide) hq64 hne), h.rC (ring_notMem_dbWords (by decide) hq64 hne),
      h.rState (ring_notMem_dbWords (by decide) hq64 hne)⟩
  cases hhost : hostRing r with
  | true =>
    rw [hhost, if_pos rfl] at heq
    generalize hm : ({ wr s.dev F.HIF_RING_PIDX r v.toNat with dma := { s.dev.dma with startup := false } } : Dev) = m at heq
    have hmoved : Within [pWord r] [.regs, .dma] s.dev m := hm ▸ ((Within.refl _ _ s.dev).wr).only (only_dma _ _)
    have hp : rP m r = v.toNat := by
      rw [← hm]
      exact (rP_wr s.dev r v.toNat).trans hv
    have harb := within_arbStat m
    have hframe : Within (dbWords r) [.regs, .dma, .hif, .pm, .out] s.dev (arbStat m) :=
      (hmoved.mono (as := dbWords r) (ps := [.regs, .dma, .hif, .pm, .out])).next harb
    have hstill := harb.ringStill (by decide) (r := r) (by omega)
    refine hframe.actsR (exec_of_core rfl hcore heq) ⟨fun _ => ⟨hstill.1.trans hp, hstill.2.1.trans ?_⟩, by simp, others hframe⟩
    exact hmoved.rC (by simpa using (pWord_ne_cWord r r).symm)
  | false =>
    rw [hhost, if_neg Bool.false_ne_true] at heq
    have hmoved : Within [cWord r] [.regs] s.dev (wr s.dev F.HIF_RING_CIDX r v.toNat) := (Within.refl _ _ s.dev).wr
    have hc : rC (wr s.dev F.HIF_RING_CIDX r v.toNat) r = v.toNat := (rC_wr s.dev r v.toNat).trans hv
    by_cases h40 : r.val = 40
    · rw [if_pos h40] at heq
      have hdrain := (traceMoved_trcDrain 8192 (wr s.dev F.HIF_RING_CIDX r v.toNat)).frame
      generalize trcDrain 8192 (wr s.dev F.HIF_RING_CIDX r v.toNat) = b at heq hdrain
      have hframe : Within (dbWords r) [.regs, .dma, .hif, .pm, .out] s.dev b :=
        (hmoved.mono (as := dbWords r) (ps := [.regs, .dma, .hif, .pm, .out])).next hdrain (by simp [h40])
      refine hframe.actsR (exec_of_core rfl hcore heq) ⟨by simp, fun _ => ⟨?_, fun h => absurd h40 h⟩, others hframe⟩
      exact (hdrain.rC (by simpa using (pWord_ne_cWord 40 r).symm)).trans hc
    · rw [if_neg h40] at heq
      have hframe : Within (dbWords r) [.regs, .dma, .hif, .pm, .out] s.dev (wr s.dev F.HIF_RING_CIDX r v.toNat) := hmoved.mono
      refine hframe.actsR (exec_of_core rfl hcore heq) ⟨by simp, fun _ => ⟨hc, fun _ => ?_⟩, others hframe⟩
      exact hmoved.rP (by simpa using pWord_ne_cWord r r)

/-! ### Doorbells that are turned away -/

section
variable (off : BitVec 18) (n : Nat) (v : W32)

theorem doorbell_counted_unbound (hform : ¬ (n ≠ 4 ∨ off.toNat % 4096 ≠ 0 ∨ 41 ≤ off.toNat / 4096))
    (h : bound s.dev (off.toNat / 4096) = false ∨ rState s.dev (off.toNat / 4096) = 0 ∨ rState s.dev (off.toNat / 4096) = 3 ∨
      rState s.dev (off.toNat / 4096) = 4) : ActsR [F.HIF_DB_UNBOUND.addr 0] [] (.doorbell off n v) s fun t =>
      (∀ q : Fin 41, rP t.dev q = rP s.dev q ∧ rC t.dev q = rC s.dev q ∧ rState t.dev q = rState s.dev q) ∧
      rd t.dev F.HIF_DB_UNBOUND = satAdd 32 (rd s.dev F.HIF_DB_UNBOUND) 1 := by
  have hcounted : Within [F.HIF_DB_UNBOUND.addr 0] [.regs] s.dev (sat s.dev F.HIF_DB_UNBOUND 0) := (Within.refl _ _ s.dev).sat
  exact hcounted.actsR (exec_of_core rfl hcore (doorbell_unbound hform rfl h s.sn))
    ⟨fun q => hcounted.ringStill (by decide) (by omega), rd_sat_same _ (by decide) _ _⟩

/-- HIF_DB_ERR counts, and the message of errors is sent, after a step that raises at most an event. -/
theorem doorbell_counted {es : List Ev} {m : Dev} (hm : Within [] [.hif] (sat s.dev F.HIF_DB_ERR 0) m) (hes : Raised s.dev m es)
    (heq : doorbell off.toNat n v s.sn s.dev = errMsg m) :
    ActsR [F.HIF_DB_ERR.addr 0, errMsgWord s.dev] [.hif, .pm, .out] (.doorbell off n v) s fun t =>
      (∀ q : Fin 41, rP t.dev q = rP s.dev q ∧ rC t.dev q = rC s.dev q ∧ rState t.dev q = rState s.dev q) ∧
      rd t.dev F.HIF_DB_ERR = satAdd 32 (rd s.dev F.HIF_DB_ERR) 1 ∧ Raised s.dev t.dev es := by
  have hcounted : Within [F.HIF_DB_ERR.addr 0] [.regs, .hif] s.dev m := ((Within.refl _ _ s.dev).sat).next hm
  have hword : errMsgWord m = errMsgWord s.dev := by rw [errMsgWord, hcounted.rd (by decide)]
  have hmsg := within_errMsg m
  rw [hword] at hmsg
  have hcount : rd m F.HIF_DB_ERR = satAdd 32 (rd s.dev F.HIF_DB_ERR) 1 :=
    (hm.rd (by simp)).trans (rd_sat_same _ (by decide) _ _)
  have hframe : Within [F.HIF_DB_ERR.addr 0, errMsgWord s.dev] [.regs, .hif, .pm, .out] s.dev (errMsg m) :=
    (hcounted.mono (as := [F.HIF_DB_ERR.addr 0, errMsgWord s.dev]) (ps := [.regs, .hif, .pm, .out])).next hmsg
  refine hframe.actsR (exec_of_core rfl hcore heq) ⟨fun q => ?_, ?_, ?_⟩
  · obtain ⟨hp, hc, hst⟩ := hmsg.ringStill (offRings_pba _) (r := q) (by omega)
    obtain ⟨hp', hc', hst'⟩ := hcounted.ringStill (by decide) (r := q) (by omega)
    exact ⟨hp.trans hp', hc.trans hc', hst.trans hst'⟩
  · refine (hmsg.rd ?_).trans hcount
    simpa using Fld.addr_ne (f := F.HIF_DB_ERR) (g := F.MSIX_PBA) (by decide) 0 _
  · exact hes.of_same rfl rfl (congrArg Hif.evq (hmsg.parts .hif (by simp)))

end

end

/-- Settles O30: a doorbell by its form, its ring's binding and state, and the way it moves the index. -/
theorem doorbellsMoveIndicesOrAreTurnedAway : Obligations.DoorbellsMoveIndicesOrAreTurnedAway := by
  unfold Obligations.DoorbellsMoveIndicesOrAreTurnedAway
  refine ⟨fun s r v hcore hbound hstate hback hfar => doorbell_moves_index hcore r v hbound hstate hback hfar, fun s off n v hcore => ?_⟩
  dsimp only
  refine ⟨fun hform h => ?_, fun hform hbound hstate h => ?_, fun hform => ?_⟩
  · exact doorbell_counted_unbound hcore off n v (by omega) h
  · refine doorbell_counted hcore off n v ((Within.refl _ _ _).raise) ((raised_raise (sat s.dev F.HIF_DB_ERR 0) _).of_same rfl rfl rfl) ?_
    exact doorbell_invalid (by omega) rfl hbound hstate h s.sn
  · refine (doorbell_counted hcore off n v (es := []) (.refl _ _ _) (raised_nil _) (if_pos (by omega))).weaken fun t ht => ?_
    exact ⟨ht.1, ht.2.1⟩

end Sys2Proof.Machine
end

