-- ==== Sys2Proof/Proofs/RingLives.lean ====
section
/-! PROOFS. The life of a ring (R327, R332, R352). -/

namespace Sys2Proof.Machine

-- In order: a default argument `by simp` waits for every declaration before it, and many that wait take many threads.
set_option Elab.async false

/-! ### What Tilth withdraws for a ring (R236, R352) -/

theorem within_rollback (d : Dev) : Within [] [.tilth, .sw, .out, .twin] d (rollback d) := .of_only (only_rollback d)

theorem within_abortBatchOf (d : Dev) (r : Nat) (keep : Bool) :
    Within tilthRegs [.regs, .tilth, .sw, .out, .twin] d (abortBatchOf d r keep) := by
  have hend : Within tilthRegs [.regs, .tilth, .sw, .out, .twin] d
      (match d.tilth.batch with | some b => if b.ring = r then endBatch d keep else d | none => d) := by
    split
    · next b hbatch =>
      exact .ite (fun _ => ⟨(endBatch_frame hbatch keep).1, (endBatch_frame hbatch keep).2⟩) fun _ => .refl _ _ d
    · exact .refl _ _ d
  exact .ite (fun _ => hend) fun _ => hend.only (only_onTilth _ _)

theorem within_withdrawRing (sn : SN) (d : Dev) (r : Nat) :
    Within tilthRegs [.regs, .tilth, .sw, .out, .twin] d (withdrawRing sn d r) := by
  unfold withdrawRing
  extract_lets d₁ of d₂
  have h₂ : Within tilthRegs [.regs, .tilth, .sw, .out, .twin] d d₂ := (within_abortBatchOf d r false).only (only_onTilth _ _)
  split
  · refine .ite (fun _ => ?_) fun _ => h₂
    exact ((h₂.next (within_rollback d₂)).only (only_onTilth _ _)).next (within_tilthStat _)
  · exact h₂

/-! ### Reset (R352) -/

/-- Ring `q` goes to RESETTING. -/
def ringDropped (d : Dev) (q : Nat) : Dev :=
  let d := modRing (rSet d q 4) q fun x => { x with folds := [], held := none, q := x.q.filter resetKeeps }
  { d with dma := { d.dma with reqs := d.dma.reqs.map fun x => { x with rings := x.rings.filter (·.val != q) },
                               retry := d.dma.retry.filter (· != q), second := d.dma.second.filter (· != q) } }

/-- HIF_RING_STATUS of a ring and its pair. -/
abbrev pairWords (r : Nat) : List Nat := (pairRings r).map (F.HIF_RING_STATUS_STATE.addr ·)

theorem ringReset_eq (sn : SN) (d : Dev) (r : Nat) : ringReset sn d r =
    if r < 32 then withdrawRing sn ((pairRings r).foldl ringDropped d) (r % 16) else (pairRings r).foldl ringDropped d := rfl

theorem within_ringDropped (d : Dev) (q : Nat) : Within [F.HIF_RING_STATUS_STATE.addr q] [.regs, .hif, .dma] d (ringDropped d q) :=
  (((Within.refl _ _ d).wr).modRing).only (only_dma _ _)

theorem rState_ringDropped (d : Dev) (q : Nat) : rState (ringDropped d q) q = 4 := rd_wr_fits d (by decide)

theorem ringOf_ringDropped (d : Dev) (q : Nat) : ringOf (ringDropped d q) q =
    { ringOf d q with folds := [], held := none, q := (ringOf d q).q.filter resetKeeps } := ringOf_modRing_same _ _ _

theorem ringOf_ringDropped_ne (d : Dev) {q x : Nat} (h : x ≠ q) : ringOf (ringDropped d q) x = ringOf d x := ringOf_modRing_ne _ _ h

theorem rState_ringDropped_ne (d : Dev) {q x : Nat} (h : x ≠ q) : rState (ringDropped d q) x = rState d x :=
  (within_ringDropped d q).rState (by simpa using Fld.ringed_addr_ne (by decide) (by decide) (.inr h))

theorem pairRings_nodup (r : Nat) : (pairRings r).Nodup := by
  unfold pairRings
  split
  · simp
  · split
    · simp only [List.nodup_cons, List.mem_singleton, List.not_mem_nil, not_false_eq_true, List.nodup_nil, and_true]
      omega
    · simp

theorem lt_of_mem_pairRings {r q : Nat} (hr : r < 48) (hq : q ∈ pairRings r) : q < 64 := by
  unfold pairRings at hq
  split at hq
  · simp only [List.mem_cons, List.not_mem_nil, or_false] at hq
    omega
  · split at hq
    · simp only [List.mem_cons, List.not_mem_nil, or_false] at hq
      omega
    · simp only [List.mem_cons, List.not_mem_nil, or_false] at hq
      omega

theorem within_pairDropped (r : Nat) (d : Dev) : Within (pairWords r) [.regs, .hif, .dma] d ((pairRings r).foldl ringDropped d) :=
  .foldl (fun d _ hq => (within_ringDropped d _).mono (by simpa using ⟨_, hq, rfl⟩) (by simp)) d

/-- What a ring that resets with `r` stands at once it has been dropped. -/
theorem pairDropped_spec {r q : Nat} (hq : q ∈ pairRings r) (d : Dev) : rState ((pairRings r).foldl ringDropped d) q = 4 ∧
    (ringOf ((pairRings r).foldl ringDropped d) q).folds = [] ∧ (ringOf ((pairRings r).foldl ringDropped d) q).held = none := by
  obtain ⟨e, -, he⟩ := foldl_at (fun d => (rState d q, ringOf d q)) (pairRings_nodup r) hq
    (fun d m _ hne => Prod.ext (rState_ringDropped_ne d hne.symm) (ringOf_ringDropped_ne d hne.symm)) d
  obtain ⟨hstate, hring⟩ := Prod.mk.inj he
  rw [hstate, hring, ringOf_ringDropped]
  exact ⟨rState_ringDropped e q, rfl, rfl⟩

theorem within_ringReset (sn : SN) (d : Dev) (r : Nat) :
    Within (pairWords r ++ tilthRegs) [.regs, .hif, .dma, .tilth, .sw, .twin, .out] d (ringReset sn d r) := by
  have hdrop : Within (pairWords r ++ tilthRegs) [.regs, .hif, .dma, .tilth, .sw, .twin, .out] d ((pairRings r).foldl ringDropped d) :=
    (within_pairDropped r d).mono
  rw [ringReset_eq]
  exact .ite (fun _ => hdrop.next (within_withdrawRing sn _ _)) fun _ => hdrop

/-- What a ring's reset leaves of its own and its pair's registers and state after Tilth has withdrawn its work. -/
theorem ringReset_ring (sn : SN) (d : Dev) {r q : Nat} (hr : r < 48) (hq : q ∈ pairRings r) :
    rState (ringReset sn d r) q = 4 ∧ ringOf (ringReset sn d r) q = ringOf ((pairRings r).foldl ringDropped d) q := by
  obtain ⟨hstate, -⟩ := pairDropped_spec hq d
  rw [ringReset_eq]
  split
  · have hw := within_withdrawRing sn ((pairRings r).foldl ringDropped d) (r % 16)
    exact ⟨(hw.ringStill (by decide) (lt_of_mem_pairRings hr hq)).2.2.trans hstate, ringOf_congr (hw.parts .hif (by simp)) q⟩
  · exact ⟨hstate, rfl⟩

/-- The two fields lie in different words of every ring. -/
def Fld.ringApart (f g : Fld) : Bool := f.ringed && g.ringed && f.base != g.base

theorem rd_wr_ringApart (d : Dev) {f g : Fld} {i j v : Nat} (h : f.ringApart g = true) : rd (wr d f i v) g j = rd d g j := by
  simp only [Fld.ringApart, Bool.and_eq_true, bne_iff_ne] at h
  obtain ⟨⟨hf, hg⟩, hne⟩ := h
  exact rd_wr_addr d f g i j v (Fld.ringed_addr_ne hg hf (.inl hne.symm))

section
variable {s : State} (hcore : s.dev.pwr.core = true) (r : Fin 41)
include hcore

theorem ringReset_resets : ActsR (pairWords r ++ tilthRegs) [.hif, .dma, .tilth, .sw, .twin, .out] (.ringReset r) s fun t =>
    ∀ q ∈ pairRings r, rState t.dev q = 4 ∧ (ringOf t.dev q).folds = [] ∧ (ringOf t.dev q).held = none ∧
      rP t.dev q = rP s.dev q ∧ rC t.dev q = rC s.dev q := by
  have hframe := within_ringReset s.sn s.dev r
  refine hframe.actsR (exec_of_core (g := fun d => ringReset s.sn d r) rfl hcore rfl) fun q hq => ?_
  have hq64 : q < 64 := lt_of_mem_pairRings (by omega) hq
  obtain ⟨hstate, hring⟩ := ringReset_ring s.sn s.dev (r := r) (by omega) hq
  obtain ⟨-, hfolds, hheld⟩ := pairDropped_spec hq s.dev
  have hoff {f : Fld} (hf : f.ringed = true) (hbase : f.base ≠ F.HIF_RING_STATUS_STATE.base) : f.addr q ∉ pairWords r ++ tilthRegs := by
    simp only [List.mem_append, not_or, List.mem_map, not_exists, not_and]
    exact ⟨fun x _ => Fld.ringed_addr_ne (by decide) hf (.inl hbase.symm), Fld.ringed_notMem hf hq64 (by decide)⟩
  exact ⟨hstate, hring ▸ hfolds, hring ▸ hheld, hframe.rP (hoff (by decide) (by decide)), hframe.rC (hoff (by decide) (by decide))⟩

/-! ### Enable, and the end of a reset -/

/-- A ring that has just been enabled. -/
def ringOpened (r : Nat) (d : Dev) : Dev :=
  modRing (rSet (wr (wr (wrB d F.HIF_RING_CFG_EN r true) F.HIF_RING_PIDX r 0) F.HIF_RING_CIDX r 0) r 1) r fun _ => {}

omit hcore in
theorem ringOpened_state (r : Nat) (d : Dev) : rState (ringOpened r d) r = 1 := by
  rw [rState, ringOpened, rd_modRing]
  exact rd_wr_fits _ (by decide)

omit hcore in
theorem ringOpened_p (r : Nat) (d : Dev) : rP (ringOpened r d) r = 0 := by
  rw [rP, ringOpened, rd_modRing, rSet, rd_wr_ringApart _ (by decide), rd_wr_ringApart _ (by decide)]
  exact rP_wr _ _ _

omit hcore in
theorem ringOpened_c (r : Nat) (d : Dev) : rC (ringOpened r d) r = 0 := by
  rw [rC, ringOpened, rd_modRing, rSet, rd_wr_ringApart _ (by decide)]
  exact rC_wr _ _ _

omit hcore in
theorem ringOpened_en (r : Nat) (d : Dev) : rd (ringOpened r d) F.HIF_RING_CFG_EN r = 1 := by
  rw [ringOpened, rd_modRing, rSet, rd_wr_ringApart _ (by decide), rd_wr_ringApart _ (by decide), rd_wr_ringApart _ (by decide)]
  exact rd_wrB_bit _ (by decide) true

omit hcore in
theorem ringEnable_opens {d : Dev} {r : Nat} (hoff : rState d r = 0) (hpair : r < 16 → rd d F.HIF_RING_CFG_EN (r + 16) = 1)
    (htrc : r = 40 → d.pm.trc = []) (sn : SN) : ringEnable r true sn d = ringOpened r d := by
  have hen : ¬ (r < 16 ∧ (!rdB d F.HIF_RING_CFG_EN (r + 16)) = true) := fun h => by
    have h1 := hpair h.1
    simp [rdB, h1] at h
  unfold ringEnable
  rw [if_pos rfl, if_neg hen, if_neg (not_not.mpr hoff)]
  extract_lets d₁ d₂ d₃
  have hopen : d₃ = ringOpened r d := rfl
  have htrc₃ : r = 40 → d₃.pm.trc = [] := htrc
  clear_value d₃
  split
  · next h => rw [trcDrain_of_none (htrc₃ h), hopen]
  · exact hopen

theorem ringEnable_enables (hoff : rState s.dev r = 0) (hpair : r.val < 16 → rd s.dev F.HIF_RING_CFG_EN (r.val + 16) = 1)
    (htrc : r.val = 40 → s.dev.pm.trc = []) : ActsR (ringRegs r) [.hif] (.ringEnable r true) s fun t =>
      rState t.dev r = 1 ∧ rP t.dev r = 0 ∧ rC t.dev r = 0 ∧ rd t.dev F.HIF_RING_CFG_EN r = 1 ∧ (ringOf t.dev r).q = [] ∧
      (ringOf t.dev r).seq = 0 := by
  have hframe : Within (ringRegs r) [.regs, .hif] s.dev (ringOpened r s.dev) :=
    ((Within.refl _ _ s.dev).wrB (by simp [ringRegs])).wr (by simp [ringRegs]) |>.wr (by simp [ringRegs]) |>.wr (by simp [ringRegs])
      |>.modRing
  have hring : ringOf (ringOpened r s.dev) r = {} := ringOf_modRing_same _ _ _
  refine hframe.actsR (exec_of_core (g := ringEnable r true s.sn) rfl hcore (ringEnable_opens hoff hpair htrc s.sn))
    ⟨ringOpened_state _ _, ringOpened_p _ _, ringOpened_c _ _, ringOpened_en _ _, congrArg Ring.q hring, congrArg Ring.seq hring⟩

theorem ringEnable_refused (hcmd : r.val < 16) (hpair : rd s.dev F.HIF_RING_CFG_EN (r.val + 16) = 0) :
    ActsR [F.HIF_STATUS_CFG_ERR.addr 0] [] (.ringEnable r true) s fun t => rd t.dev F.HIF_STATUS_CFG_ERR = 1 := by
  have heq : ringEnable r true s.sn s.dev = wrB s.dev F.HIF_STATUS_CFG_ERR 0 true :=
    (if_pos rfl).trans (if_pos ⟨hcmd, by simp [rdB, hpair]⟩)
  exact ((Within.refl _ _ s.dev).wrB).actsR (exec_of_core (g := ringEnable r true s.sn) rfl hcore heq) (rd_wrB_bit _ (by decide) true)

/-- A ring whose reset has ended. -/
def ringShut (r : Nat) (d : Dev) : Dev :=
  modRing (wrB (wr (wr (rSet d r 0) F.HIF_RING_PIDX r 0) F.HIF_RING_CIDX r 0) F.HIF_RING_CFG_EN r false) r fun _ => {}

omit hcore in
theorem ringShut_state (r : Nat) (d : Dev) : rState (ringShut r d) r = 0 := by
  rw [rState, ringShut, rd_modRing, wrB, rd_wr_ringApart _ (by decide), rd_wr_ringApart _ (by decide), rd_wr_ringApart _ (by decide)]
  exact rd_wr_fits _ (by decide)

omit hcore in
theorem ringShut_p (r : Nat) (d : Dev) : rP (ringShut r d) r = 0 := by
  rw [rP, ringShut, rd_modRing, wrB, rd_wr_ringApart _ (by decide), rd_wr_ringApart _ (by decide)]
  exact rP_wr _ _ _

omit hcore in
theorem ringShut_c (r : Nat) (d : Dev) : rC (ringShut r d) r = 0 := by
  rw [rC, ringShut, rd_modRing, wrB, rd_wr_ringApart _ (by decide)]
  exact rC_wr _ _ _

omit hcore in
theorem ringShut_en (r : Nat) (d : Dev) : rd (ringShut r d) F.HIF_RING_CFG_EN r = 0 := by
  rw [ringShut, rd_modRing]
  exact rd_wrB_bit _ (by decide) false

theorem ringResetDone_disables (hstate : rState s.dev r = 4) : ActsR (ringRegs r) [.hif] (.ringResetDone r) s fun t =>
    rState t.dev r = 0 ∧ rP t.dev r = 0 ∧ rC t.dev r = 0 ∧ rd t.dev F.HIF_RING_CFG_EN r = 0 ∧ (ringOf t.dev r).q = [] ∧
    Raised s.dev t.dev [{ typ := 0xC2, sn := s.sn, p0 := r }] := by
  have heq : ringResetDone r s.sn s.dev = raise (ringShut r s.dev) { typ := 0xC2, sn := s.sn, p0 := r } := if_neg (not_not.mpr hstate)
  have hframe : Within (ringRegs r) [.regs, .hif] s.dev (ringShut r s.dev) :=
    ((Within.refl _ _ s.dev).wr (by simp [ringRegs])).wr (by simp [ringRegs]) |>.wr (by simp [ringRegs]) |>.wrB (by simp [ringRegs])
      |>.modRing
  have hring : ringOf (ringShut r s.dev) r = {} := ringOf_modRing_same _ _ _
  have hzero := ringShut_state r s.dev
  have hp := ringShut_p r s.dev
  have hc := ringShut_c r s.dev
  have hen := ringShut_en r s.dev
  have hevq : (ringShut r s.dev).hif.evq = s.dev.hif.evq := rfl
  have hrole : (ringShut r s.dev).twin.role = s.dev.twin.role := rfl
  obtain ⟨b, hb⟩ : ∃ b, b = ringShut r s.dev := ⟨_, rfl⟩
  rw [← hb] at heq hframe hring hzero hp hc hen hevq hrole
  exact (hframe.raise).actsR (exec_of_core (g := ringResetDone r s.sn) rfl hcore heq)
    ⟨hzero, hp, hc, hen, congrArg Ring.q hring, (raised_raise b _).of_same hevq hrole rfl⟩

end

/-- Settles O31: enabling, resetting and the end of a reset, each by what it makes of the ring. -/
theorem ringLifecycle : Obligations.RingLifecycle := by
  unfold Obligations.RingLifecycle
  intro s r hcore
  exact ⟨ringEnable_enables hcore r, ringEnable_refused hcore r, ringReset_resets hcore r, ringResetDone_disables hcore r⟩

end Sys2Proof.Machine
end

