-- ==== Sys2Proof/Proofs/FetchAndDispatch.lean ====
section
/-! PROOFS. The fetch of descriptors and the checks at dispatch (R22, R308, R333, R337, R453, R471). -/

namespace Sys2Proof.Machine

-- In order: a default argument `by simp` waits for every declaration before it, and many that wait take many threads.
set_option Elab.async false

/-! ### Fetch (R337) -/

/-- A descriptor joins its ring's queue. -/
def joined (r : Nat) (raw : BitVec 512) (tag : Bool) (d : Dev) : Dev :=
  let c := rC d r
  let d' := modRing d r fun x => { x with q := x.q ++ [{ idx := c, uid := d.hif.uid, raw := raw, tagged := tag }] }
  { d' with hif := { d'.hif with uid := d'.hif.uid + 1, fetches := d.hif.fetches + 1 } }

/-- What stands against a fetch. -/
def fetchStops (lock : Bool) (r : Nat) (d : Dev) : Bool :=
  !lock || entering d || rState d r != 1 || !bound d r || rHeld d r == 0 || frozen d || d.dma.retry.contains r ||
    !decide ((rC d r + 2 ^ 32 - rC d (r + 16)) % 2 ^ 32 < 2 ^ rLog2 d (r + 16)) ||
    (rState d (r + 16) == 2 && decide (64 ≤ doneHeld d r))

theorem fetchDesc_fetches {r : Nat} {lock : Bool} {d : Dev} (hgo : fetchStops lock r d = false)
    (hdma : dmaOk d (recAddr d r (rC d r)) false = true) (raw : BitVec 512) (sn : SN) : ∃ tag : Bool, fetchDesc r raw lock sn d =
      if tag then trace (rAdv (joined r raw tag d) r) sn 0x10 r (rC d r) (opOf raw) else rAdv (joined r raw tag d) r := by
  refine ⟨d.pm.tagCfg.getLsbD 11 && (d.hif.fetches + 1) % 2 ^ (min (d.pm.tagCfg.extractLsb' 6 5).toNat 20) == 0, ?_⟩
  refine (if_neg (by rw [← fetchStops, hgo]; exact Bool.false_ne_true)).trans ?_
  exact if_neg (by rw [hdma]; exact Bool.false_ne_true)

theorem within_joined (r : Nat) (raw : BitVec 512) (tag : Bool) (d : Dev) : Within [] [.hif] d (joined r raw tag d) :=
  .of_only (only_hif d _)

theorem ringOf_joined (r : Nat) (raw : BitVec 512) (tag : Bool) (d : Dev) : ringOf (joined r raw tag d) r =
    { ringOf d r with q := (ringOf d r).q ++ [{ idx := rC d r, uid := d.hif.uid, raw := raw, tagged := tag }] } :=
  ringOf_modRing_same d r fun x => { x with q := x.q ++ [{ idx := rC d r, uid := d.hif.uid, raw := raw, tagged := tag }] }

theorem descriptorFetch_joins {s : State} (hcore : s.dev.pwr.core = true) (r : Fin 16) (raw : BitVec 512)
    (hgo : fetchStops s.lock r s.dev = false) (hdma : dmaOk s.dev (recAddr s.dev r (rC s.dev r)) false = true) :
    ActsR [cWord r, pWord 40] [.hif, .dma, .out, .free, .pm] (.descriptorFetch r raw) s fun t =>
      rC t.dev r = (rC s.dev r + 1) % 2 ^ 32 ∧ rP t.dev r = rP s.dev r ∧
      (∃ tag, (ringOf t.dev r).q = (ringOf s.dev r).q ++
        [{ idx := rC s.dev r, uid := s.dev.hif.uid, raw := raw, ph := .fetched, tagged := tag }]) ∧
      t.dev.hif.uid = s.dev.hif.uid + 1 ∧ t.dev.hif.evq = s.dev.hif.evq := by
  have hr := r.isLt
  obtain ⟨tag, heq⟩ := fetchDesc_fetches hgo hdma raw s.sn
  have hjoin := within_joined r raw tag s.dev
  have hjoinring := ringOf_joined r raw tag s.dev
  have hjoinuid : (joined r raw tag s.dev).hif.uid = s.dev.hif.uid + 1 := rfl
  have hjoinevq : (joined r raw tag s.dev).hif.evq = s.dev.hif.evq := rfl
  obtain ⟨b, hb⟩ : ∃ b, b = joined r raw tag s.dev := ⟨_, rfl⟩
  rw [← hb] at heq hjoin hjoinring hjoinuid hjoinevq
  obtain ⟨hframe, hcidx, honly, hring⟩ := hostAdvanced_rAdv (r := r.val) (by simp [hostRing, hr]) b
  obtain ⟨c, hc⟩ : ∃ c, c = rAdv b r := ⟨_, rfl⟩
  rw [← hc] at heq hframe hcidx honly hring
  have hadvanced : Within [cWord r, pWord 40] [.regs, .hif, .dma, .out, .free, .pm] s.dev c :=
    (hjoin.mono (as := [cWord r, pWord 40]) (ps := [.regs, .hif, .dma, .out, .free, .pm])).next hframe
  obtain ⟨htrace, htraceonly⟩ : Within [pWord 40] [.regs, .hif, .out, .pm, .free] c (fetchDesc r raw s.lock s.sn s.dev) ∧
      RingOnly 40 c (fetchDesc r raw s.lock s.sn s.dev) := by
    rw [heq]
    split
    · exact ⟨within_trace .., ringOnly_trace ..⟩
    · exact ⟨.refl _ _ c, .refl 40 c⟩
  have hne : r.val ≠ 40 := by omega
  refine (hadvanced.next htrace).actsR (exec_of_core (g := fetchDesc r raw s.lock s.sn) rfl hcore rfl) ⟨?_, ?_, ⟨tag, ?_⟩, ?_, ?_⟩
  · exact (htrace.rC (by simpa using (pWord_ne_cWord 40 r).symm)).trans (hcidx.trans (by rw [hjoin.rC (by simp)]))
  · refine (htrace.rP ?_).trans ((hframe.rP (by simpa using pWord_ne_cWord r r)).trans (hjoin.rP (by simp)))
    simpa using Fld.ringed_addr_ne (f := F.HIF_RING_PIDX) (by decide) (by decide) (.inr hne)
  · have hlast : ringOf (fetchDesc r raw s.lock s.sn s.dev) r = ringOf c r := htraceonly.others r hne
    rw [hlast, hring, hjoinring]
  · exact htraceonly.uid.trans (honly.uid.trans hjoinuid)
  · exact htraceonly.evq.trans (honly.evq.trans hjoinevq)

/-! ### Dispatch (R22, R238, R453) -/

theorem within_preempt (d : Dev) : Within tilthRegs [.regs, .tilth, .twin, .out] d (preempt d) := by
  refine .ite (fun _ => .refl _ _ d) fun _ => ?_
  have hback : Within tilthRegs [.regs, .tilth, .twin, .out] d (mirrorRollback d) := (Within.refl _ _ d).only (mirrorRollback_frame d).1
  unfold setAside
  extract_lets
  exact (hback.only (only_onTilth _ _)).next (within_tilthStat _)

/-- The descriptor is handed to its unit. -/
def handed (r uid : Nat) (sn : SN) (d : Dev) : Dev :=
  modRing d r fun x => { x with q := x.q.map fun y => if y.uid = uid then { y with ph := .dispatched, at' := sn } else y }

/-- What a connection descriptor of an urgent ring, or a protection command, stops in Tilth. -/
def dispatchStops (r op : Nat) (d : Dev) : Dev :=
  if 4 ≤ r ∨ inBatch d r then d
  else if connOp op then preempt d
  else if op = 0x12 then onTilth d fun t => { t with paused := t.paused || !t.staged.isEmpty || t.prep.isSome }
  else d

theorem within_dispatchStops (r op : Nat) (d : Dev) : Within tilthRegs [.regs, .tilth, .twin, .out] d (dispatchStops r op d) :=
  .ite (fun _ => .refl _ _ d) fun _ => .ite (fun _ => within_preempt d) fun _ =>
    .ite (fun _ => (Within.refl _ _ d).only (only_onTilth d _)) fun _ => .refl _ _ d

section
variable {s : State} {r : Fin 16} {e : QEnt} (hstate : rState s.dev r = 1)
  (hfind : (ringOf s.dev r).q.find? (fun e => e.ph == .fetched) = some e)
  (hfence : fenceOf e.raw = true → (ringOf s.dev r).q.head? = some e)
include hstate hfind hfence

/-- The checks of a descriptor at dispatch, in their order. -/
theorem dispatchDesc_eq : dispatchDesc r s.sn s.dev =
    if rd s.dev F.HIF_RING_STATUS_SESS r = 0xF then finish s.dev r e.uid stDenied 1 s.sn
    else if (!opcodes.contains (opOf e.raw)) = true then finish s.dev r e.uid stBadDesc (probDetail (0, 3)) s.sn
    else if (!admits s.dev (rd s.dev F.SEC_SESS_SLOT_CLASS (rd s.dev F.HIF_RING_STATUS_SESS r)) (opOf e.raw)) = true then
      finish s.dev r e.uid stDenied 1 s.sn
    else if (decide (opOf e.raw = 0x10) && !dB e.raw 16 21 && decide (calPolicy s.dev / 16 % 2 = 1)) = true then
      finish s.dev r e.uid stDenied 1 s.sn
    else if (isStandby s.dev && standbyDenies (opOf e.raw)) = true then finish s.dev r e.uid stDenied 2 s.sn
    else dispatchStops r (opOf e.raw) (if e.tagged then trace (handed r e.uid s.sn s.dev) s.sn 0x11 r e.idx (serverCode (unitOf (opOf e.raw)))
      else handed r e.uid s.sn s.dev) := by
  have hfree : ¬ (fenceOf e.raw && (ringOf s.dev r).q.head? != some e) = true := by
    cases hf : fenceOf e.raw with
    | false => simp
    | true => simp [hfence hf]
  unfold dispatchDesc
  rw [if_neg (by simp [hstate]), hfind]
  dsimp only
  rw [if_neg hfree]
  simp only [Bool.and_eq_true, decide_eq_true_eq]
  rfl

end

section
variable {s : State} {r : Fin 16} {e : QEnt} (hcore : s.dev.pwr.core = true)
include hcore

/-- A check that ends the descriptor. -/
theorem dispatch_ends {st det : Nat} (h : dispatchDesc r s.sn s.dev = finish s.dev r e.uid st det s.sn) :
    Acts [.hif] (.descriptorDispatch r) s fun t => Served s.dev t.dev r e.uid st det s.sn 0 :=
  (Within.of_only (only_finish _ _ _ _ _ _ _)).acts (exec_of_core (g := dispatchDesc r s.sn) rfl hcore h) (served_finish _ _ _ _ _ _ _)

theorem dispatch_hands (h : dispatchDesc r s.sn s.dev = dispatchStops r (opOf e.raw)
      (if e.tagged then trace (handed r e.uid s.sn s.dev) s.sn 0x11 r e.idx (serverCode (unitOf (opOf e.raw)))
      else handed r e.uid s.sn s.dev)) :
    ActsR (pWord 40 :: tilthRegs) [.hif, .tilth, .twin, .out, .free, .pm] (.descriptorDispatch r) s fun t =>
      (ringOf t.dev r).q = (ringOf s.dev r).q.map fun x => if x.uid = e.uid then { x with ph := .dispatched, at' := s.sn } else x := by
  have hne : r.val ≠ 40 := by omega
  have hhanded : Within [] [.hif] s.dev (handed r e.uid s.sn s.dev) := .of_only (only_modRing _ _ _)
  have hring : ringOf (handed r e.uid s.sn s.dev) r = { ringOf s.dev r with q := (ringOf s.dev r).q.map fun x =>
      if x.uid = e.uid then { x with ph := .dispatched, at' := s.sn } else x } := ringOf_modRing_same _ _ _
  obtain ⟨b, hb⟩ : ∃ b, b = handed r e.uid s.sn s.dev := ⟨_, rfl⟩
  rw [← hb] at h hhanded hring
  obtain ⟨c, hc⟩ : ∃ c, c = if e.tagged then trace b s.sn 0x11 r e.idx (serverCode (unitOf (opOf e.raw))) else b := ⟨_, rfl⟩
  rw [← hc] at h
  obtain ⟨htrace, honly⟩ : Within [pWord 40] [.regs, .hif, .out, .pm, .free] b c ∧ RingOnly 40 b c := by
    rw [hc]
    split
    · exact ⟨within_trace .., ringOnly_trace ..⟩
    · exact ⟨.refl _ _ b, .refl 40 b⟩
  have hstops := within_dispatchStops r (opOf e.raw) c
  have hframe : Within (pWord 40 :: tilthRegs) [.regs, .hif, .tilth, .twin, .out, .free, .pm] s.dev c :=
    (hhanded.mono (as := pWord 40 :: tilthRegs) (ps := [.regs, .hif, .tilth, .twin, .out, .free, .pm])).next htrace
  refine (hframe.next hstops).actsR (exec_of_core (g := dispatchDesc r s.sn) rfl hcore h) ?_
  exact congrArg Ring.q ((ringOf_congr (hstops.parts .hif (by simp)) r).trans ((honly.others r hne).trans hring))

end

theorem standbyDenies_iff (op : Nat) : standbyDenies op = true ↔ op ∉ [0x30, 0x31, 0x32, 0x7E, 0x7F] := by
  simp [standbyDenies]

/-- Settles O32: the fetch, and each check at dispatch after those before it. -/
theorem fetchAndDispatch : Obligations.FetchAndDispatch := by
  unfold Obligations.FetchAndDispatch
  refine ⟨fun s r raw hcore hlock hentry hstate hbound hheld hfrozen hretry hroom hpaused hdma => ?_, fun s r e hcore hstate hfind hfence => ?_⟩
  · refine descriptorFetch_joins hcore r raw ?_ hdma
    have hheldback : (rState s.dev (r.val + 16) == 2 && decide (64 ≤ doneHeld s.dev r)) = false := by
      by_cases h : rState s.dev (r.val + 16) = 2
      · have := hpaused h
        simp [this]
      · simp [h]
    have hheld' : (rHeld s.dev r == 0) = false := by simpa using hheld
    simp only [fetchStops, hlock, hentry, hstate, hbound, hheld', hfrozen, hretry, decide_eq_true hroom, hheldback]
    rfl
  · have heq := dispatchDesc_eq hstate hfind hfence
    have hends {st det : Nat} (h : dispatchDesc r s.sn s.dev = finish s.dev r e.uid st det s.sn) :=
      dispatch_ends hcore h
    refine ⟨fun hslot => hends (heq.trans (if_pos hslot)), fun hslot => ?_⟩
    rw [if_neg hslot] at heq
    refine ⟨fun hop => hends (heq.trans (if_pos (by simpa using hop))), fun hop => ?_⟩
    rw [if_neg (by simpa using hop)] at heq
    refine ⟨fun hadm => hends (heq.trans (if_pos (by rw [hadm]; rfl))), fun hadm hfix => ?_, fun hadm hfix hstby hdeny => ?_,
      fun hadm hfix hpass => ?_⟩
    all_goals rw [if_neg (by rw [hadm]; exact Bool.false_ne_true)] at heq
    · exact hends (heq.trans (if_pos (by simpa [and_assoc] using hfix)))
    · rw [if_neg (by simpa [and_assoc] using hfix)] at heq
      exact hends (heq.trans (if_pos (by rw [hstby, (standbyDenies_iff _).mpr hdeny]; rfl)))
    · rw [if_neg (by simpa [and_assoc] using hfix)] at heq
      refine dispatch_hands hcore (heq.trans (if_neg ?_))
      rw [Bool.and_eq_true, standbyDenies_iff]
      exact fun h => h.2 (hpass h.1)

end Sys2Proof.Machine
end

