-- ==== Sys2Proof/Proofs/EventRecords.lean ====
section
/-! PROOFS. Event records, folding, summaries, index write-back and messages (R330, R341, R342, R345, R349). -/

namespace Sys2Proof.Machine

-- In order: a default argument `by simp` waits for every declaration before it, and many that wait take many threads.
set_option Elab.async false

/-! ### Fields of a record -/

section
variable {bits p k : Nat} (hk : 8 * k ≤ 2048)
include hk

/-- A bit of a record below the byte of its phase bit. -/
theorem record_bit {i : Nat} (hi : i < 8 * k) : (BitVec.ofNat 2048 (bits ||| atByte k p)).getLsbD i = bits.testBit i := by
  have hphase : (atByte k p).testBit i = false := by
    rw [atByte, Nat.testBit_shiftLeft]
    simp [hi]
  rw [BitVec.getLsbD_ofNat, Nat.testBit_or, hphase, Bool.or_false]
  simp [show i < 2048 by omega]

/-- A field of a record below the byte of its phase bit. -/
theorem record_field {off w : Nat} (h : off + w ≤ 8 * k) :
    ((BitVec.ofNat 2048 (bits ||| atByte k p)).extractLsb' off w).toNat = bits / 2 ^ off % 2 ^ w := by
  refine Nat.eq_of_testBit_eq fun i => ?_
  rw [BitVec.testBit_toNat, BitVec.getLsbD_extractLsb', Nat.testBit_mod_two_pow, Nat.testBit_div_two_pow]
  by_cases hi : i < w
  · rw [record_bit hk (show off + i < 8 * k by omega), Nat.add_comm i off]
  · simp [hi]

end

/-- Word `i` of the packed words. -/
theorem packWords_word (ws : List Nat) (i : Nat) : packWords ws / 2 ^ (32 * i) % 2 ^ 32 = ws.getD i 0 % 2 ^ 32 := by
  induction ws generalizing i with
  | nil => simp [packWords]
  | cons w ws ih =>
    have hcons : packWords (w :: ws) = w % 2 ^ 32 + 2 ^ 32 * packWords ws := rfl
    cases i with
    | zero =>
      rw [hcons, Nat.mul_zero, pow_zero, Nat.div_one, Nat.add_mul_mod_self_left, Nat.mod_mod]
      rfl
    | succ i =>
      have hpow : 2 ^ (32 * (i + 1)) = 2 ^ 32 * 2 ^ (32 * i) := by rw [← pow_add]; congr 1; omega
      have hlow : w % 2 ^ 32 / 2 ^ 32 = 0 := Nat.div_eq_of_lt (Nat.mod_lt _ (by decide))
      rw [hcons, hpow, ← Nat.div_div_eq_div_mul, Nat.add_mul_div_left _ _ (by decide), hlow, Nat.zero_add, ih]
      rfl

/-- A whole word of a record of packed words. -/
theorem record_word {k p i : Nat} (ws : List Nat) (hk : 8 * k ≤ 2048) (h : 32 * i + 32 ≤ 8 * k) :
    ((BitVec.ofNat 2048 (packWords ws ||| atByte k p)).extractLsb' (32 * i) 32).toNat = ws.getD i 0 % 2 ^ 32 := by
  rw [record_field hk h, packWords_word]

/-- The fields of an event record (Table 13-12). -/
structure EventFields (b : BitVec 2048) (e : Ev) (seq : Nat) : Prop where
  typ : (b.extractLsb' 0 16).toNat = e.typ % 2 ^ 16
  sb : b.getLsbD 16 = e.sb
  sn : b.extractLsb' 32 32 = e.sn
  seq : (b.extractLsb' 64 32).toNat = seq % 2 ^ 32
  p0 : (b.extractLsb' 96 32).toNat = e.p0 % 2 ^ 32
  p1 : (b.extractLsb' 128 32).toNat = e.p1 % 2 ^ 32
  p2 : (b.extractLsb' 160 32).toNat = e.p2 % 2 ^ 32
  p3 : (b.extractLsb' 192 32).toNat = e.p3 % 2 ^ 32

theorem eventFields (e : Ev) (seq p : Nat) : EventFields (BitVec.ofNat 2048 (evBits e seq ||| atByte 31 p)) e seq := by
  have hword (i : Nat) (hi : i < 7) := record_word (k := 31) (p := p) (i := i)
    [e.typ % 2 ^ 16 + 2 ^ 16 * e.sb.toNat, e.sn.toNat, seq, e.p0, e.p1, e.p2, e.p3] (by decide) (by omega)
  have hhead : evBits e seq % 2 ^ 32 = e.typ % 2 ^ 16 + 2 ^ 16 * e.sb.toNat := by
    have h := packWords_word [e.typ % 2 ^ 16 + 2 ^ 16 * e.sb.toNat, e.sn.toNat, seq, e.p0, e.p1, e.p2, e.p3] 0
    rw [Nat.mul_zero, pow_zero, Nat.div_one] at h
    rw [List.getD_cons_zero] at h
    refine h.trans (Nat.mod_eq_of_lt ?_)
    have := e.sb.toNat_lt
    have := Nat.mod_lt e.typ (show 0 < 2 ^ 16 by decide)
    omega
  refine ⟨?_, ?_, ?_, hword 2 (by decide), hword 3 (by decide), hword 4 (by decide), hword 5 (by decide), hword 6 (by decide)⟩
  · rw [record_field (by decide) (by decide), pow_zero, Nat.div_one, ← Nat.mod_mod_of_dvd _ (show 2 ^ 16 ∣ 2 ^ 32 by decide), hhead]
    omega
  · rw [record_bit (by decide) (by decide)]
    have hbit : (evBits e seq).testBit 16 = (evBits e seq % 2 ^ 32).testBit 16 := by
      rw [Nat.testBit_mod_two_pow, decide_eq_true (by decide), Bool.true_and]
    rw [hbit, hhead, Nat.add_comm, Nat.testBit_two_pow_mul_add _ (Nat.mod_lt _ (by decide))]
    cases e.sb <;> rfl
  · refine BitVec.eq_of_toNat_eq ((hword 1 (by decide)).trans ?_)
    exact Nat.mod_eq_of_lt e.sn.isLt

/-! ### EVENT_RECORD (R341, R342, R345) -/

/-- The oldest event leaves the device's own queue. -/
def evTaken (rest : List Ev) (d : Dev) : Dev := { d with hif := { d.hif with evq := rest, evOut := d.hif.evOut + 1 } }

theorem within_evTaken (rest : List Ev) (d : Dev) : Within [] [.hif] d (evTaken rest d) := .of_only (only_hif d _)

section
variable {d : Dev} {e : Ev} {rest : List Ev} (hevq : d.hif.evq = e :: rest) (hfrozen : frozen d = false)
include hevq hfrozen

theorem eventRecord_eq : eventRecord d = if (rState d (evRing d e) != 1 || !rRoom d (evRing d e)) = true then
      foldEv (evTaken rest d) (evRing d e) e
    else if (!(ringOf d (evRing d e)).folds.isEmpty) = true then d
    else if dmaOk d (recAddr d (evRing d e) (rP d (evRing d e))) true = true then writeEv (evTaken rest d) (evRing d e) e
    else dmaMiss d (recAddr d (evRing d e) (rP d (evRing d e))) := by
  unfold eventRecord
  rw [hevq]
  exact if_neg (by rw [hfrozen]; exact Bool.false_ne_true)

end

theorem evRing_bounds (d : Dev) (e : Ev) : 32 ≤ evRing d e ∧ evRing d e < 36 := by
  have := Nat.mod_lt (rd d F.HIF_EVT_ROUTE >>> (2 * (e.typ / 16 % 16))) (show 0 < 4 by decide)
  exact ⟨Nat.le_add_right _ _, by rw [evRing]; omega⟩

section
variable {s : State} {e : Ev} {rest : List Ev} (hcore : s.dev.pwr.core = true) (hevq : s.dev.hif.evq = e :: rest)
  (hfrozen : frozen s.dev = false)
include hevq hfrozen

theorem eventRecord_waits (hstate : rState s.dev (evRing s.dev e) = 1) (hroom : rRoom s.dev (evRing s.dev e) = true)
    (hfolds : (ringOf s.dev (evRing s.dev e)).folds ≠ []) : exec .eventRecord s = .next s := by
  refine exec_of_core_self (g := eventRecord) rfl ((eventRecord_eq hevq hfrozen).trans ?_)
  rw [if_neg (by simp [hstate, hroom]), if_pos (by simpa using hfolds)]

include hcore

theorem eventRecord_folds (h : rState s.dev (evRing s.dev e) ≠ 1 ∨ rRoom s.dev (evRing s.dev e) = false) :
    Acts [.hif, .pm] .eventRecord s fun t => t.dev.hif.evq = rest ∧
      (ringOf t.dev (evRing s.dev e)).folds = foldIn e (ringOf s.dev (evRing s.dev e)).folds ∧
      (ringOf t.dev (evRing s.dev e)).seq = (ringOf s.dev (evRing s.dev e)).seq := by
  have heq := (eventRecord_eq hevq hfrozen).trans (if_pos (by simpa using h))
  have htaken : Within [] [.hif, .pm] s.dev (evTaken rest s.dev) := (within_evTaken rest s.dev).mono
  have hframe := htaken.next (within_foldEv (evTaken rest s.dev) (evRing s.dev e) e)
  have hring : ringOf _ (evRing s.dev e) = { ringOf s.dev (evRing s.dev e) with folds := foldIn e (ringOf s.dev (evRing s.dev e)).folds } :=
    ringOf_foldEv (evTaken rest s.dev) (evRing s.dev e) e
  have honly := ringOnly_foldEv (evTaken rest s.dev) (evRing s.dev e) e
  obtain ⟨b, hb⟩ : ∃ b, b = foldEv (evTaken rest s.dev) (evRing s.dev e) e := ⟨_, rfl⟩
  rw [← hb] at heq hframe hring honly
  exact hframe.acts (exec_of_core rfl hcore heq) ⟨honly.evq, by rw [hring], by rw [hring]⟩

theorem eventRecord_writes (hstate : rState s.dev (evRing s.dev e) = 1) (hroom : rRoom s.dev (evRing s.dev e) = true)
    (hfolds : (ringOf s.dev (evRing s.dev e)).folds = [])
    (hdma : dmaOk s.dev (recAddr s.dev (evRing s.dev e) (rP s.dev (evRing s.dev e))) true = true) :
    ActsR [pWord (evRing s.dev e)] [.hif, .out, .pm] .eventRecord s fun t => t.dev.hif.evq = rest ∧
      rP t.dev (evRing s.dev e) = (rP s.dev (evRing s.dev e) + 1) % 2 ^ 32 ∧
      (ringOf t.dev (evRing s.dev e)).seq = ((ringOf s.dev (evRing s.dev e)).seq + 1) % 2 ^ 32 ∧
      ∃ (b : BitVec 2048) (l : List Out), Sent s.dev t.dev (.record (evRing s.dev e) (rP s.dev (evRing s.dev e)) b :: l) ∧
        (∀ o ∈ l, ∃ a, o = .transReq a) ∧ EventFields b e (ringOf s.dev (evRing s.dev e)).seq := by
  have heq := eventRecord_eq hevq hfrozen
  rw [if_neg (by simp [hstate, hroom]), if_neg (by simp [hfolds]), if_pos hdma] at heq
  obtain ⟨hlow, hhigh⟩ := evRing_bounds s.dev e
  generalize evRing s.dev e = r at heq hlow hhigh ⊢
  have hhost : hostRing r = false := by
    have h16 : ¬ r < 16 := by omega
    have h38 : r ≠ 38 := by omega
    simp [hostRing, h16, h38]
  have hbytes : recBytes r - 1 = 31 := by
    rw [recBytes, if_neg (by omega), if_pos hhigh]
  obtain ⟨hframe, hpidx, honly, hring, l, hsent, hl⟩ := eventWritten_writeEv hhost (evTaken rest s.dev) e
  rw [hbytes] at hsent
  have htaken : Within [pWord r] [.regs, .hif, .out, .pm] s.dev (evTaken rest s.dev) := (within_evTaken rest s.dev).mono
  exact (htaken.trans hframe).actsR (exec_of_core rfl hcore heq)
    ⟨honly.evq, hpidx, congrArg Ring.seq hring, _, l, hsent, hl, eventFields e _ _⟩

end

/-! ### OVERFLOW_SUMMARY (R345) -/

section
variable {s : State} (hcore : s.dev.pwr.core = true) (r : Fin 41)
include hcore

omit hcore in
/-- Only a record of an EVT ring is counted. -/
theorem writeEv_pm {d : Dev} {r : Nat} (hhost : hostRing r = false) (h : ¬ (32 ≤ r ∧ r < 36)) (e : Ev) : (writeEv d r e).pm = d.pm :=
  (congrArg Dev.pm (if_neg h)).trans ((recordWritten_writeRec hhost d _).frame.parts .pm (by simp))

theorem overflowSummary_writes {f : Fold} {rest : List Fold} (hfolds : (ringOf s.dev r).folds = f :: rest)
    (hwrite : canWrite s.dev r = true) (hhost : hostRing r = false) (htrc : r.val = 40 → s.dev.pm.trc = []) :
    ActsR [pWord r] [.hif, .out, .pm] (.overflowSummary r) s fun t => (ringOf t.dev r).folds = rest ∧
      rP t.dev r = (rP s.dev r + 1) % 2 ^ 32 ∧ (ringOf t.dev r).seq = ((ringOf s.dev r).seq + 1) % 2 ^ 32 := by
  generalize hm : modRing s.dev r (fun x => { x with folds := rest }) = m
  have heq : overflowSummary r s.dev = writeEv m r (summaryEv s.dev f) := by
    unfold overflowSummary
    rw [hfolds]
    dsimp only
    rw [if_neg (by rw [hwrite]; exact Bool.false_ne_true), hm]
    split
    · next h =>
      have hpm : (writeEv m r (summaryEv s.dev f)).pm = m.pm := writeEv_pm hhost (by omega) _
      rw [trcDrain_of_none]
      rw [hpm, ← hm]
      exact htrc h
    · rfl
  have hunfolded : Within [pWord r] [.regs, .hif, .out, .pm] s.dev m := hm ▸ (Within.refl _ _ s.dev).modRing
  have hmring : ringOf m r = { ringOf s.dev r with folds := rest } := hm ▸ ringOf_modRing_same _ _ _
  obtain ⟨hframe, hpidx, -, hring, -⟩ := eventWritten_writeEv hhost m (summaryEv s.dev f)
  have hp : rP m r = rP s.dev r := by rw [← hm]; rfl
  rw [hmring] at hring
  exact (hunfolded.trans hframe).actsR (exec_of_core (g := overflowSummary r) rfl hcore heq)
    ⟨congrArg Ring.folds hring, by rw [hpidx, hp], congrArg Ring.seq hring⟩

/-! ### INDEX_WRITE_BACK (R330) -/

theorem indexWriteBack_writes (hhost : hostRing r = true)
    (haddr : rd s.dev F.HIF_RING_WB_LO r + 2 ^ 32 * rd s.dev F.HIF_RING_WB_HI r ≠ 0) (hdue : (ringOf s.dev r).wbDue = true)
    (hfrozen : frozen s.dev = false) (hstate : rState s.dev r = 1)
    (hdma : dmaOk s.dev (rd s.dev F.HIF_RING_WB_LO r + 2 ^ 32 * rd s.dev F.HIF_RING_WB_HI r) true = true) :
    Acts [.hif, .out] (.indexWriteBack r) s fun t =>
      Sent s.dev t.dev [.indexWb r (BitVec.ofNat 32 (rC s.dev r))] ∧ (ringOf t.dev r).wbDue = false := by
  have heq : indexWb r s.dev = emit (modRing s.dev r fun x => { x with wbDue := false }) (.indexWb r (BitVec.ofNat 32 (rC s.dev r))) :=
    (if_neg (by simp only [hhost, hdue, hfrozen, hstate, haddr]; decide)).trans (if_neg (by rw [hdma]; exact Bool.false_ne_true))
  exact (((Within.refl [] _ s.dev).modRing).emit).acts (exec_of_core (g := indexWb r) rfl hcore heq)
    ⟨rfl, congrArg Ring.wbDue (ringOf_modRing_same _ _ _)⟩

/-! ### MSI_X_MESSAGE (R349) -/

omit hcore in
/-- A message leaves, or its pending bit is set. -/
theorem sendMsi_spec (d : Dev) (v : Nat) : (rd d F.MSIX_CTL v = 0 → frozen d = false → Sent d (sendMsi d v) [.msix v]) ∧
    (rd d F.MSIX_CTL v = 1 ∨ frozen d = true → (sendMsi d v).out = d.out ∧ (rd (sendMsi d v) F.MSIX_PBA (v / 32)).testBit (v % 32) = true) := by
  refine ⟨fun hctl hfrozen => ?_, fun h => ?_⟩
  · have heq : sendMsi d v = perf (emit d (.msix v)) 0xF v := if_neg (by
      rw [rdB, hctl, show rdB d F.ARB_STATUS_FROZEN = false from hfrozen]
      decide)
    rw [heq, Sent, perf_out]
    rfl
  · have hstop : (rdB d F.MSIX_CTL v || rdB d F.ARB_STATUS_FROZEN) = true := by
      rcases h with h | h
      · rw [rdB, h]
        rfl
      · rw [show rdB d F.ARB_STATUS_FROZEN = true from h, Bool.or_true]
    have heq : sendMsi d v = wr d F.MSIX_PBA (v / 32) (rd d F.MSIX_PBA (v / 32) ||| 2 ^ (v % 32)) := if_pos hstop
    have hfits : rd d F.MSIX_PBA (v / 32) ||| 2 ^ (v % 32) < 2 ^ 32 :=
      Nat.or_lt_two_pow (rd_lt d F.MSIX_PBA (v / 32)) (Nat.pow_lt_pow_right (by decide) (Nat.mod_lt _ (by decide)))
    rw [heq]
    refine ⟨rfl, ?_⟩
    rw [rd_wr_fits d ⟨by decide, hfits⟩, Nat.testBit_or, Nat.testBit_two_pow_self, Bool.or_true]

theorem msiXMessage_sends (up : Bool) (hhost : hostRing r = false)
    (hdue : max 1 (rd s.dev F.HIF_RING_CFG_MOD_CNT r) ≤ (ringOf s.dev r).since ∨
      up = true ∧ rd s.dev F.HIF_RING_CFG_MOD_TIME r ≠ 0 ∧ 1 ≤ (ringOf s.dev r).since) :
    ActsR [F.MSIX_PBA.addr (rd s.dev F.HIF_RING_CFG_VEC r / 32)] [.hif, .out, .pm] (.msiXMessage r up) s fun t =>
      (ringOf t.dev r).since = 0 ∧
      (rd s.dev F.MSIX_CTL (rd s.dev F.HIF_RING_CFG_VEC r) = 0 → frozen s.dev = false →
        Sent s.dev t.dev [.msix (rd s.dev F.HIF_RING_CFG_VEC r)]) ∧
      (rd s.dev F.MSIX_CTL (rd s.dev F.HIF_RING_CFG_VEC r) = 1 ∨ frozen s.dev = true → t.dev.out = s.dev.out ∧
        (rd t.dev F.MSIX_PBA (rd s.dev F.HIF_RING_CFG_VEC r / 32)).testBit (rd s.dev F.HIF_RING_CFG_VEC r % 32) = true) := by
  generalize hm : modRing s.dev r (fun x => { x with since := 0 }) = m
  have heq : msixMessage r up s.dev = sendMsi m (rd s.dev F.HIF_RING_CFG_VEC r) := by
    rw [← hm]
    exact (if_neg (by rw [hhost]; exact Bool.false_ne_true)).trans (if_pos hdue)
  have hsent := sendMsi_spec m (rd s.dev F.HIF_RING_CFG_VEC r)
  have hmsi := within_sendMsi m (rd s.dev F.HIF_RING_CFG_VEC r)
  have hcleared : Within [F.MSIX_PBA.addr (rd s.dev F.HIF_RING_CFG_VEC r / 32)] [.regs, .hif, .out, .pm] s.dev m :=
    hm ▸ (Within.refl _ _ s.dev).modRing
  have hring : ringOf (sendMsi m (rd s.dev F.HIF_RING_CFG_VEC r)) r = ringOf m r := ringOf_congr (hmsi.parts .hif (by simp)) r
  have hmring : (ringOf m r).since = 0 := by rw [← hm, ringOf_modRing_same]
  refine (hcleared.next hmsi).actsR (exec_of_core (g := msixMessage r up) rfl hcore heq) ⟨?_, ?_⟩
  · exact (congrArg Ring.since hring).trans hmring
  · rw [← hm] at hsent ⊢
    exact hsent

end

/-- Settles O34: an event by what its ring can take, then summaries, the write-back of C and messages. -/
theorem recordsAndMessages : Obligations.RecordsAndMessages := by
  unfold Obligations.RecordsAndMessages
  refine ⟨fun s e rest hcore hevq hfrozen => ⟨eventRecord_folds hcore hevq hfrozen, eventRecord_waits hevq hfrozen,
      fun hstate hroom hfolds hdma => ?_⟩, fun s r hcore => ⟨fun f rest => overflowSummary_writes hcore r,
      indexWriteBack_writes hcore r, msiXMessage_sends hcore r⟩⟩
  refine (eventRecord_writes hcore hevq hfrozen hstate hroom hfolds hdma).weaken fun t ht => ?_
  obtain ⟨hrest, hp, hseq, b, l, hsent, hl, hb⟩ := ht
  exact ⟨hrest, hp, hseq, b, l, hsent, hl, hb.typ, hb.sb, hb.sn, hb.seq, hb.p0, hb.p1, hb.p2, hb.p3⟩

end Sys2Proof.Machine
end

