-- ==== Sys2Proof/Proofs/RingFailures.lean ====
section
/-! PROOFS. Ring failures (R351, R363, Table 14-2). -/

namespace Sys2Proof.Machine

-- In order: a default argument `by simp` waits for every declaration before it, and many that wait take many threads.
set_option Elab.async false

/-! ### A ring that fails -/

/-- FAULTED, with the address of the access. -/
def ringStopped (addr : Nat) (d : Dev) (q : Nat) : Dev :=
  wr (wr (rSet d q 3) F.HIF_RING_FAULT_LO q (addr % 2 ^ 32)) F.HIF_RING_FAULT_HI q (addr / 2 ^ 32 % 2 ^ 32)

/-- The words of a ring that stops. -/
abbrev faultWords (q : Nat) : List Nat := [F.HIF_RING_STATUS_STATE.addr q, F.HIF_RING_FAULT_LO.addr q, F.HIF_RING_FAULT_HI.addr q]

theorem within_ringStopped (addr : Nat) (d : Dev) (q : Nat) : Within (faultWords q) [.regs] d (ringStopped addr d q) :=
  (((Within.refl _ _ d).wr).wr).wr

/-- What registers say of a ring's failure. -/
def faultView (q : Nat) (d : Dev) : Nat × Nat × Nat := (rState d q, rd d F.HIF_RING_FAULT_LO q, rd d F.HIF_RING_FAULT_HI q)

theorem Within.faultView {as : List Nat} {ps : List Part} {a b : Dev} (h : Within as ps a b) {q : Nat} (hq : ∀ x ∈ faultWords q, x ∉ as) :
    Machine.faultView q b = Machine.faultView q a := by
  rw [Machine.faultView, h.rState (hq _ (by simp)), h.rd (hq _ (by simp)), h.rd (hq _ (by simp))]
  rfl

theorem faultView_ringStopped (addr : Nat) (d : Dev) (q : Nat) :
    faultView q (ringStopped addr d q) = (3, addr % 2 ^ 32, addr / 2 ^ 32 % 2 ^ 32) := by
  have hstate : rState (ringStopped addr d q) q = 3 := by
    rw [rState, ringStopped, rd_wr_ringApart _ (by decide), rd_wr_ringApart _ (by decide)]
    exact rd_wr_fits d (by decide)
  have hlow : rd (ringStopped addr d q) F.HIF_RING_FAULT_LO q = addr % 2 ^ 32 := by
    rw [ringStopped, rd_wr_ringApart _ (by decide)]
    exact (rd_wr_same _ _ _ _ (by decide)).trans (Nat.mod_mod _ _)
  have hhigh : rd (ringStopped addr d q) F.HIF_RING_FAULT_HI q = addr / 2 ^ 32 % 2 ^ 32 :=
    (rd_wr_same _ _ _ _ (by decide)).trans (Nat.mod_mod _ _)
  rw [faultView, hstate, hlow, hhigh]

theorem mem_faultWords {x q : Nat} : x ∈ faultWords q ↔ ∃ f : Fld, f ∈ [F.HIF_RING_STATUS_STATE, F.HIF_RING_FAULT_LO, F.HIF_RING_FAULT_HI] ∧ x = f.addr q := by
  simp

/-- The failing words are words of rings. -/
theorem faultWord_ringed {f : Fld} (h : f ∈ [F.HIF_RING_STATUS_STATE, F.HIF_RING_FAULT_LO, F.HIF_RING_FAULT_HI]) : f.ringed = true := by
  revert f
  decide

theorem faultWords_ne {q m x : Nat} (hne : q ≠ m) (hx : x ∈ faultWords q) : x ∉ faultWords m := by
  intro hm
  obtain ⟨f, hf, rfl⟩ := mem_faultWords.mp hx
  obtain ⟨g, hg, heq⟩ := mem_faultWords.mp hm
  exact Fld.ringed_addr_ne (faultWord_ringed hf) (faultWord_ringed hg) (.inr hne) heq

theorem faultWords_offRings {q x : Nat} (hq : q < 64) (hx : x ∈ faultWords q) {as : List Nat} (has : offRings as = true) : x ∉ as := by
  obtain ⟨f, hf, rfl⟩ := mem_faultWords.mp hx
  exact Fld.ringed_notMem (faultWord_ringed hf) hq has

theorem pairStopped_view (addr : Nat) {r q : Nat} (hq : q ∈ pairRings r) (d : Dev) :
    faultView q ((pairRings r).foldl (ringStopped addr) d) = (3, addr % 2 ^ 32, addr / 2 ^ 32 % 2 ^ 32) := by
  obtain ⟨e, -, he⟩ := foldl_at (faultView q) (pairRings_nodup r) hq
    (fun d m _ hne => (within_ringStopped addr d m).faultView fun x hx => faultWords_ne hne.symm hx) d
  exact he.trans (faultView_ringStopped addr e q)

/-! ### What the ring held goes -/

/-- A step that settles what a failed ring held: nothing is raised. -/
structure Settled (a b : Dev) : Prop where
  frame : Within tilthRegs [.regs, .hif, .tilth, .sw, .out, .pm, .twin] a b
  evq : b.hif.evq = a.hif.evq

namespace Settled

variable {a b c : Dev}

theorem refl (a : Dev) : Settled a a := ⟨.refl _ _ a, rfl⟩

theorem trans (h : Settled a b) (k : Settled b c) : Settled a c := ⟨h.frame.trans k.frame, k.evq.trans h.evq⟩

theorem ite {p : Prop} [Decidable p] (h : p → Settled a b) (k : ¬ p → Settled a c) : Settled a (if p then b else c) := by
  split
  case isTrue hp => exact h hp
  case isFalse hp => exact k hp

theorem foldl {β : Type} {g : Dev → β → Dev} (h : ∀ d x, Settled d (g d x)) (l : List β) (a : Dev) : Settled a (l.foldl g a) := by
  induction l generalizing a with
  | nil => exact refl a
  | cons x l ih => exact (h a x).trans (ih (g a x))

end Settled

theorem settled_modRing (d : Dev) (r : Nat) (g : Ring → Ring) : Settled d (modRing d r g) := ⟨(Within.refl _ _ d).modRing, rfl⟩

theorem settled_finish (d : Dev) (r uid st det : Nat) (sn : SN) : Settled d (finish d r uid st det sn) :=
  ⟨(Within.refl _ _ d).finish, rfl⟩

theorem settled_foldEv (d : Dev) (r : Nat) (e : Ev) : Settled d (foldEv d r e) :=
  ⟨(within_foldEv d r e).mono, (ringOnly_foldEv d r e).evq⟩

theorem settled_abortBatchOf (d : Dev) (r : Nat) (keep : Bool) : Settled d (abortBatchOf d r keep) := by
  have h := within_abortBatchOf d r keep
  exact ⟨h.mono, by rw [h.parts .hif (by simp)]⟩

/-- What settles a ring's failure before its message: what CPLn could not report, a held event, the batch and the waiting
descriptors of CMDn, and a dump into the ring. -/
def faultSettled (sn : SN) (r : Nat) (d : Dev) : Dev :=
  let d := if 16 ≤ r ∧ r < 32 then modRing d r fun x => { x with lost := true } else d
  let d := match (ringOf d r).held with
    | some e => foldEv (modRing d r fun x => { x with held := none }) r e
    | none => d
  let d := if r < 32 then
      let c := r % 16
      let d := abortBatchOf d c true
      (ringOf d c).q.foldl (fun d e => if e.ph = .fetched ∨ e.ph = .dispatched then finish d c e.uid stFault 0 sn else d) d
    else d
  match d.pm.dump with
    | some m => if 36 + m.pmd = r then finish { d with pm := { d.pm with dump := none } } m.ring m.idx stFault 0 sn else d
    | none => d

theorem settled_faultSettled (sn : SN) (r : Nat) (d : Dev) : Settled d (faultSettled sn r d) := by
  unfold faultSettled
  extract_lets d₁ d₂ c aborted d₃
  have h₁ : Settled d d₁ := .ite (fun _ => settled_modRing _ _ _) fun _ => .refl d
  have h₂ : Settled d d₂ := h₁.trans (by
    unfold d₂
    split
    · exact (settled_modRing _ _ _).trans (settled_foldEv _ _ _)
    · exact .refl _)
  have haborted : Settled d aborted := h₂.trans (settled_abortBatchOf _ _ _)
  have h₃ : Settled d d₃ := .ite
    (fun _ => haborted.trans (.foldl (fun d e => .ite (fun _ => settled_finish _ _ _ _ _ _) fun _ => .refl d) _ _)) fun _ => h₂
  split
  · next m _ =>
    have hdump : Settled d { d₃ with pm := { d₃.pm with dump := none } } := h₃.trans ⟨(Within.refl _ _ d₃).only (only_pm _ _), rfl⟩
    exact .ite (fun _ => hdump.trans (settled_finish _ _ _ _ _ _)) fun _ => h₃
  · exact h₃

/-! ### The whole failure -/

/-- RING_FAULTED. -/
def faultEv (sn : SN) (r addr code : Nat) : Ev :=
  { typ := 0xC0, sn := sn, p0 := r, p1 := addr % 2 ^ 32, p2 := addr / 2 ^ 32 % 2 ^ 32, p3 := code }

/-- The ring and its pair have stopped, and the event is raised. -/
def faultRaised (sn : SN) (r addr code : Nat) (d : Dev) : Dev :=
  raise (sat ((pairRings r).foldl (ringStopped addr) d) F.HIF_PRI_FAIL 0) (faultEv sn r addr code)

theorem ringFault_eq (sn : SN) (d : Dev) (r addr code : Nat) :
    ringFault sn d r addr code = errMsg (faultSettled sn r (faultRaised sn r addr code d)) := rfl

/-- The words that a failing ring writes, without the message's. -/
abbrev stopWords (r : Nat) : List Nat := (pairRings r).flatMap faultWords ++ [F.HIF_PRI_FAIL.addr 0]

theorem failRegs_single (d : Dev) (r : Nat) :
    failRegs d [r] = (pairRings r).flatMap faultWords ++ [F.HIF_PRI_FAIL.addr 0, errMsgWord d] ++ tilthRegs := by
  simp [failRegs]

theorem within_faultRaised (sn : SN) (r addr code : Nat) (d : Dev) :
    Within (stopWords r) [.regs, .hif] d (faultRaised sn r addr code d) := by
  have hstop : Within ((pairRings r).flatMap faultWords) [.regs] d ((pairRings r).foldl (ringStopped addr) d) :=
    .foldl (fun d q hq => (within_ringStopped addr d q).mono fun x hx => List.mem_flatMap.mpr ⟨q, hq, hx⟩) d
  exact (((hstop.mono (by simp) (by simp) : Within (stopWords r) [.regs, .hif] d _).sat (by simp)).raise)

/-- HIF_CFG_ERR_VEC is a word of no failure. -/
theorem errVec_notMem {r : Nat} (hr : r < 48) : F.HIF_CFG_ERR_VEC.addr 0 ∉ stopWords r ++ tilthRegs := by
  intro hmem
  rw [List.mem_append, List.mem_append] at hmem
  rcases hmem with (hmem | hmem) | hmem
  · obtain ⟨q, hq, hx⟩ := List.mem_flatMap.mp hmem
    exact faultWords_offRings (lt_of_mem_pairRings hr hq) hx (as := [F.HIF_CFG_ERR_VEC.addr 0]) (by decide) (by simp)
  · exact absurd hmem (by decide)
  · exact absurd hmem (by decide)

theorem ringFault_spec (sn : SN) (d : Dev) {r : Nat} (hr : r < 48) (addr code : Nat) :
    Within (failRegs d [r]) (.regs :: failParts) d (ringFault sn d r addr code) ∧
      RingFailed d (ringFault sn d r addr code) sn r addr code := by
  have hraised := within_faultRaised sn r addr code d
  have hview {q : Nat} (hq : q ∈ pairRings r) : faultView q (faultRaised sn r addr code d) = (3, addr % 2 ^ 32, addr / 2 ^ 32 % 2 ^ 32) := by
    refine Eq.trans ?_ (pairStopped_view addr hq d)
    have hsat : Within [F.HIF_PRI_FAIL.addr 0] [.regs, .hif] ((pairRings r).foldl (ringStopped addr) d) (faultRaised sn r addr code d) :=
      ((Within.refl _ _ _).sat).raise
    exact hsat.faultView fun x hx => faultWords_offRings (lt_of_mem_pairRings hr hq) hx (by decide)
  have hstop : ((pairRings r).foldl (ringStopped addr) d).hif = d.hif ∧ ((pairRings r).foldl (ringStopped addr) d).twin = d.twin := by
    have h : Within ((pairRings r).flatMap faultWords) [.regs] d ((pairRings r).foldl (ringStopped addr) d) :=
      .foldl (fun d q hq => (within_ringStopped addr d q).mono fun x hx => List.mem_flatMap.mpr ⟨q, hq, hx⟩) d
    exact ⟨h.parts .hif (by simp), h.parts .twin (by simp)⟩
  have hevq : (faultRaised sn r addr code d).hif.evq = d.hif.evq ++ [{ faultEv sn r addr code with sb := d.twin.role == .standby }] := by
    have h : (faultRaised sn r addr code d).hif.evq = ((pairRings r).foldl (ringStopped addr) d).hif.evq ++
        [{ faultEv sn r addr code with sb := ((pairRings r).foldl (ringStopped addr) d).twin.role == .standby }] := rfl
    rw [h, hstop.1, hstop.2]
  obtain ⟨hsettled, hsevq⟩ := settled_faultSettled sn r (faultRaised sn r addr code d)
  rw [ringFault_eq]
  generalize faultRaised sn r addr code d = a at *
  generalize faultSettled sn r a = b at *
  have hmsg := within_errMsg b
  have hto : Within (stopWords r ++ tilthRegs) (.regs :: failParts) d b :=
    (hraised.mono (by simp) (by simp [failParts])).next hsettled (by simp) (by simp [failParts])
  have hword : errMsgWord b = errMsgWord d := by rw [errMsgWord, hto.rd (errVec_notMem hr)]
  rw [hword] at hmsg
  refine ⟨(hto.mono ?_).next hmsg ?_ (by simp [failParts]), fun q hq => ?_, ?_⟩
  · rw [failRegs_single]
    intro x hx
    simp only [List.mem_append, List.mem_cons, List.not_mem_nil, or_false] at hx ⊢
    rcases hx with (hx | hx) | hx
    · exact .inl (.inl hx)
    · exact .inl (.inr (.inl hx))
    · exact .inr hx
  · rw [failRegs_single]
    simp
  · have hq64 := lt_of_mem_pairRings hr hq
    have h := (hmsg.faultView fun x hx => faultWords_offRings hq64 hx (offRings_pba _)).trans
      ((hsettled.faultView fun x hx => faultWords_offRings hq64 hx (by decide)).trans (hview hq))
    obtain ⟨hstate, hlow⟩ := Prod.mk.inj h
    obtain ⟨hlow, hhigh⟩ := Prod.mk.inj hlow
    exact ⟨hstate, hlow, hhigh⟩
  · rw [show (errMsg b).hif = b.hif from hmsg.parts .hif (by simp), hsevq, hevq]
    exact List.mem_append_right _ (List.mem_singleton_self _)

theorem ringFault_dma (sn : SN) (d : Dev) (r addr code : Nat) : (ringFault sn d r addr code).dma = d.dma := by
  have hraised := within_faultRaised sn r addr code d
  obtain ⟨hsettled, -⟩ := settled_faultSettled sn r (faultRaised sn r addr code d)
  rw [ringFault_eq]
  generalize faultRaised sn r addr code d = a at *
  generalize faultSettled sn r a = b at *
  exact ((within_errMsg b).parts .dma (by simp)).trans ((hsettled.parts .dma (by simp)).trans (hraised.parts .dma (by simp)))

/-! ### An access that fails (R361) -/

/-- No request waits for the access of ring `r` any more. -/
def accessDropped (r : Nat) (d : Dev) : Dev := onDma d fun m => { m with
  reqs := (m.reqs.map fun x => { x with rings := x.rings.filter (·.val != r) }), succ := tdel m.succ r,
  retry := m.retry.filter (· != r), second := m.second.filter (· != r) }

theorem failAccess_eq (sn : SN) (code page : Nat) (d : Dev) (r : Nat) :
    failAccess sn code page d r = ringFault sn (accessDropped r d) r page code := rfl

theorem failAccess_spec (sn : SN) (code page : Nat) (d : Dev) {r : Nat} (hr : r < 48) :
    Within (failRegs d [r]) (.regs :: failParts) d (failAccess sn code page d r) ∧
      RingFailed d (failAccess sn code page d r) sn r page code := by
  have hdropped : Within (failRegs d [r]) (.regs :: failParts) d (accessDropped r d) :=
    (Within.refl _ _ d).only (only_dma _ _) (by decide) (by simp [failParts])
  obtain ⟨hframe, hfailed⟩ := ringFault_spec sn (accessDropped r d) hr page code
  exact ⟨hdropped.trans hframe, hfailed⟩

end Sys2Proof.Machine
end

