-- ==== Sys2Proof/Proofs/Translations.lean ====
section
/-! PROOFS. Translation completions (R356, R357, R359 to R361, Table 14-2). -/

namespace Sys2Proof.Machine

-- In order: a default argument `by simp` waits for every declaration before it, and many that wait take many threads.
set_option Elab.async false

theorem only_onDma (d : Dev) (f : Dma → Dma) : Only [.dma] d (onDma d f) := only_dma d _

/-! ### The cache (R357) -/

/-- The entry that a completion brings. -/
def entryOf (c : TransCpl) : AtsEnt :=
  let page := c.addr.toNat / 4096 * 4096
  let span := 4096 * 2 ^ c.size.val
  { base := page / span * span, size := c.size.val, trans := c.base.toNat, r := c.r, w := c.w, u := c.u }

/-- The completion's entry goes in first, in place of one that covers the same range. -/
def entryCached (c : TransCpl) (d : Dev) : Dev := onDma d fun m => { m with
  cache := entryOf c :: (evictFor d c.evict).filter fun x => !(x.base == (entryOf c).base && x.size == (entryOf c).size) }

theorem within_entryCached (c : TransCpl) (d : Dev) : Within [] [.dma] d (entryCached c d) := .of_only (only_onDma d _)

/-- The device with another cache. -/
def recached (l : List AtsEnt) (d : Dev) : Dev := onDma d fun m => { m with cache := l }

theorem recached_self (d : Dev) : recached d.dma.cache d = d := rfl

/-- What an eviction leaves: all where there is room and none is chosen, and always the pinned entries. -/
theorem mem_evictFor {d : Dev} {choice : Option Nat} {x : AtsEnt} (hx : x ∈ d.dma.cache)
    (hkeep : choice = none ∧ d.dma.cache.length < 1024 ∨ pinned d x = true) : x ∈ evictFor d choice := by
  unfold evictFor
  extract_lets es
  split
  · next i =>
    have hpin : pinned d x = true := hkeep.resolve_left (by simp)
    split
    · next e he =>
      split
      · exact hx
      · next hunpinned =>
        have hne : x ≠ e := fun h => hunpinned (h ▸ hpin)
        obtain ⟨j, hj, hxj⟩ := List.getElem_of_mem hx
        exact List.mem_eraseIdx_iff_getElem.mpr ⟨j, hj, fun hji => hne (by
          have := List.getElem?_eq_some_iff.mp he
          obtain ⟨hi, hie⟩ := this
          subst hji
          exact hxj.symm.trans hie), hxj⟩
    · exact hx
  · split
    · exact hx
    · next hfull =>
      have hpin : pinned d x = true := hkeep.resolve_left fun h => hfull h.2
      split
      · next e he =>
        have hne : x ≠ e := fun h => by
          have := List.find?_some he
          rw [← h, hpin] at this
          exact absurd this (by decide)
        exact (List.mem_erase_of_ne hne).mpr hx
      · exact hx

/-! ### What a completion does, by its form -/

section
variable {c : TransCpl} {d : Dev} {sn : SN} (henable : d.dma.enable = true)
include henable

theorem transCpl_stale (hstale : c.stale = true) : transCpl c sn d = emit d (.transReq (c.addr.toNat / 4096 * 4096)) := by
  have hpage : c.addr.toNat / 4096 * 4096 / 4096 * 4096 = c.addr.toNat / 4096 * 4096 := by omega
  refine (if_neg (by simp [henable])).trans ((if_pos hstale).trans ?_)
  rw [askTrans, hpage]

variable (hstale : c.stale = false)
include hstale

theorem transCpl_entered (hring : c.ring = none) (hgrant : c.r = true ∨ c.w = true ∨ c.u = true) :
    transCpl c sn d = entryCached c d := by
  refine (if_neg (by simp [henable])).trans ((if_neg (by rw [hstale]; exact Bool.false_ne_true)).trans ?_)
  dsimp only
  rw [hring]
  refine if_pos ?_
  rcases hgrant with h | h | h <;> simp [h]

variable {r : Fin 41} (hring : c.ring = some r)
include hring

theorem transCpl_usable (huse : (c.u || (if needsW d r (c.addr.toNat / 4096 * 4096) = true then c.w else c.r)) = true) :
    transCpl c sn d = resumeRing (entryCached c d) r := by
  refine (if_neg (by simp [henable])).trans ((if_neg (by rw [hstale]; exact Bool.false_ne_true)).trans ?_)
  have hgrant : (c.r || c.w || c.u) = true := by
    revert huse
    cases c.r <;> cases c.w <;> cases c.u <;> simp
  dsimp only
  rw [hring, if_pos hgrant]
  exact if_pos huse

/-- What grants an access of another kind only is cached and is a fault all the same. -/
theorem transCpl_fault (huse : (c.u || (if needsW d r (c.addr.toNat / 4096 * 4096) = true then c.w else c.r)) = false)
    (hstate : rState d r = 1 ∨ rState d r = 2) : ∃ l,
      transCpl c sn d = transFault sn (recached l d) r (c.addr.toNat / 4096 * 4096) (needsW d r (c.addr.toNat / 4096 * 4096)) := by
  obtain ⟨l, hl⟩ : ∃ l, (if (c.r || c.w || c.u) = true then entryCached c d else d) = recached l d := by
    split
    · exact ⟨_, rfl⟩
    · exact ⟨_, (recached_self d).symm⟩
  refine ⟨l, (if_neg (by simp [henable])).trans ((if_neg (by rw [hstale]; exact Bool.false_ne_true)).trans ?_)⟩
  have hneg : ¬ (c.u || (if needsW (recached l d) r (c.addr.toNat / 4096 * 4096) = true then c.w else c.r)) = true := by
    rw [Bool.not_eq_true]
    exact huse
  dsimp only
  rw [hring]
  exact ((congrArg (fun a => if (c.u || (if needsW a r (c.addr.toNat / 4096 * 4096) = true then c.w else c.r)) = true then resumeRing a r
    else if rState a r = 1 ∨ rState a r = 2 then transFault sn a r (c.addr.toNat / 4096 * 4096) (needsW a r (c.addr.toNat / 4096 * 4096)) else a) hl).trans
    (if_neg hneg)).trans (if_pos hstate)

end

/-! ### The ring that waited -/

/-- The paused access goes on, where no event is held for it. -/
def ringResumed (r : Nat) (d : Dev) : Dev :=
  onDma (if rState d r = 2 then rSet d r 1 else d) fun m => { m with succ := tdel m.succ r }

theorem resumeRing_of_none {d : Dev} {r : Nat} (hheld : (ringOf d r).held = none) : resumeRing d r = ringResumed r d := by
  unfold resumeRing
  extract_lets d₁ d₂
  have h₁ : d₁.hif = d.hif := by unfold d₁; split <;> rfl
  have h₂ : (ringOf d₂ r).held = none := by
    rw [ringOf_congr (a := d) (show d₂.hif = d.hif from h₁), hheld]
  have heq : d₂ = ringResumed r d := rfl
  clear_value d₂
  rw [h₂]
  exact heq

theorem within_ringResumed (r : Nat) (d : Dev) : Within [F.HIF_RING_STATUS_STATE.addr r] [.regs, .dma] d (ringResumed r d) := by
  have h : Within [F.HIF_RING_STATUS_STATE.addr r] [.regs, .dma] d (if rState d r = 2 then rSet d r 1 else d) :=
    .ite (fun _ => (Within.refl _ _ d).wr) fun _ => .refl _ _ d
  exact h.only (only_onDma _ _)

theorem rState_ringResumed (r : Nat) (d : Dev) : rState (ringResumed r d) r = if rState d r = 2 then 1 else rState d r := by
  have h : rState (ringResumed r d) r = rState (if rState d r = 2 then rSet d r 1 else d) r := rfl
  rw [h]
  split
  · exact rd_wr_fits d (by decide)
  · rfl

theorem ringResumed_cache (r : Nat) (d : Dev) : (ringResumed r d).dma.cache = d.dma.cache := by
  unfold ringResumed
  split <;> rfl

/-- The ring pauses. -/
theorem within_pauseRing (d : Dev) (r : Nat) : Within [F.HIF_RING_STATUS_STATE.addr r] [.regs, .hif] d (pauseRing d r) := by
  unfold pauseRing
  extract_lets d₁
  have h₁ : Within [F.HIF_RING_STATUS_STATE.addr r] [.regs, .hif] d d₁ := .ite (fun _ => (Within.refl _ _ d).wr) fun _ => .refl _ _ d
  refine .ite (fun _ => ?_) fun _ => h₁
  split
  · exact (h₁.only (only_hif d₁ _)).modRing
  · exact h₁

theorem rState_pauseRing (d : Dev) (r : Nat) (h : rState d r = 1 ∨ rState d r = 2) : rState (pauseRing d r) r = 2 := by
  unfold pauseRing
  extract_lets d₁
  have h₁ : rState d₁ r = 2 := by
    unfold d₁
    split
    · exact rd_wr_fits d (by decide)
    · next hne => exact h.resolve_left hne
  split
  · split
    · exact h₁
    · exact h₁
  · exact h₁

/-! ### Page requests (R360) -/

/-- A page request leaves. -/
def reqLeft (d : Dev) (x : PageReq) : Dev := perf (emit d (.pageReq x.page x.w)) 0xD 0

theorem within_reqLeft (d : Dev) (x : PageReq) : Within [] [.out, .pm] d (reqLeft d x) := ((Within.refl _ _ d).emit).perf

theorem sent_reqLeft (d : Dev) (x : PageReq) : Sent d (reqLeft d x) [.pageReq x.page x.w] :=
  (evals_perf (emit d (.pageReq x.page x.w)) 0xD 0 1).parts .out (by simp)

/-- The requests that `sendReqs` sends. -/
def reqsReady (d : Dev) : List PageReq := (d.dma.reqs.filter fun x => !x.sent).take (512 - (d.dma.reqs.filter (·.sent)).length)

theorem sendReqs_eq (d : Dev) : sendReqs d = onDma ((reqsReady d).foldl reqLeft d) fun m =>
    { m with reqs := m.reqs.map fun x => if (reqsReady d).contains x then { x with sent := true } else x } := rfl

/-- Where every request has been sent, nothing is. -/
theorem sendReqs_of_sent {d : Dev} (h : ∀ x ∈ d.dma.reqs, x.sent = true) : sendReqs d = d := by
  have hnone : d.dma.reqs.filter (fun x => !x.sent) = [] := by
    rw [List.filter_eq_nil_iff]
    intro x hx
    simp [h x hx]
  have hmap : d.dma.reqs.map (fun x => if ([] : List PageReq).contains x then { x with sent := true } else x) = d.dma.reqs := by simp
  have hready : reqsReady d = [] := by rw [reqsReady, hnone, List.take_nil]
  rw [sendReqs_eq, hready, List.foldl_nil, onDma, hmap]

/-- A new request is sent while fewer than 512 are outstanding. -/
theorem sendReqs_of_new {d : Dev} {l : List PageReq} {x : PageReq} (hreqs : d.dma.reqs = l ++ [x]) (hl : ∀ y ∈ l, y.sent = true)
    (hx : x.sent = false) (hroom : l.length < 512) : sendReqs d =
      onDma (reqLeft d x) fun m => { m with reqs := l ++ [{ x with sent := true }] } := by
  have hnew : d.dma.reqs.filter (fun x => !x.sent) = [x] := by
    rw [hreqs, List.filter_append, List.filter_eq_nil_iff.mpr fun y hy => by simp [hl y hy]]
    simp [hx]
  have hold : (d.dma.reqs.filter (·.sent)).length < 512 := by
    rw [hreqs, List.filter_append, List.filter_eq_self.mpr hl]
    simpa [hx] using hroom
  have hmap : (l ++ [x]).map (fun y => if [x].contains y then { y with sent := true } else y) = l ++ [{ x with sent := true }] := by
    rw [List.map_append, List.map_cons, List.map_nil, if_pos (by simp)]
    congr 1
    refine (List.map_congr_left fun y hy => if_neg fun hxy => ?_).trans (List.map_id l)
    have hyx : y = x := by simpa using hxy
    exact absurd ((hl y hy).symm.trans (congrArg PageReq.sent hyx)) (by simp [hx])
  have hready : reqsReady d = [x] := by
    rw [reqsReady, hnew]
    exact List.take_of_length_le (by rw [List.length_singleton]; omega)
  have hdma : (reqLeft d x).dma.reqs = l ++ [x] := by rw [(within_reqLeft d x).parts .dma (by simp), hreqs]
  rw [sendReqs_eq, hready, List.foldl_cons, List.foldl_nil, onDma, hdma, hmap, onDma]

/-! ### Faults (R360, R361) -/

/-- The code of a translation fault that fails its ring (Table 14-2). -/
def faultCode (d : Dev) : Nat := if d.dma.rspFail = true then 0xF else if d.dma.pri = false then 0x101 else 0x106

theorem transFault_fails {d : Dev} {r : Fin 41} (h : d.dma.rspFail = true ∨ d.dma.pri = false ∨ 3 ≤ tget 0 d.dma.succ r.val)
    (sn : SN) (page : Nat) (w : Bool) : transFault sn d r page w = failAccess sn (faultCode d) page d r := by
  unfold transFault faultCode
  cases hrsp : d.dma.rspFail with
  | true => rfl
  | false =>
    cases hpri : d.dma.pri with
    | false => rfl
    | true => exact if_pos ((h.resolve_left (by simp [hrsp])).resolve_left (by simp [hpri]))

/-- A request for the page joins the list. -/
def requestQueued (r : Fin 41) (page : Nat) (w : Bool) (d : Dev) : Dev :=
  onDma d fun m => { m with reqs := m.reqs ++ [{ page := page, w := w, rings := [r], sent := false }] }

theorem transFault_asks {d : Dev} {r : Fin 41} {page : Nat} {w : Bool} (hrsp : d.dma.rspFail = false) (hpri : d.dma.pri = true)
    (hsucc : tget 0 d.dma.succ r.val < 3) (hheld : (ringOf d r).held = none)
    (hnew : ∀ x ∈ d.dma.reqs, x.page ≠ page ∨ x.w ≠ w) (sn : SN) :
    transFault sn d r page w = sendReqs (requestQueued r page w (pauseRing d r)) := by
  have hdma : (pauseRing d r).dma = d.dma := (within_pauseRing d r).parts .dma (by simp)
  unfold transFault
  rw [if_neg (by simp [hrsp]), if_neg (by simp [hpri]), if_neg (by omega)]
  extract_lets d₁
  have h₁ : d₁ = pauseRing d r := if_neg (by simp [hheld])
  rw [h₁]
  refine if_neg fun h => ?_
  rw [hdma, List.any_eq_true] at h
  obtain ⟨x, hx, hsame⟩ := h
  rcases hnew x hx with hp | hw
  · simp [hp] at hsame
  · simp [hw] at hsame

/-- The ring pauses and its page request leaves. -/
theorem pageAsked_spec {d : Dev} {r : Fin 41} (page : Nat) (w : Bool) (hsent : ∀ x ∈ d.dma.reqs, x.sent = true)
    (hroom : d.dma.reqs.length < 512) (hstate : rState d r = 1 ∨ rState d r = 2) :
    Within [F.HIF_RING_STATUS_STATE.addr r] [.regs, .dma, .hif, .pm, .out] d (sendReqs (requestQueued r page w (pauseRing d r))) ∧
      Sent d (sendReqs (requestQueued r page w (pauseRing d r))) [.pageReq page w] ∧
      rState (sendReqs (requestQueued r page w (pauseRing d r))) r = 2 ∧
      (sendReqs (requestQueued r page w (pauseRing d r))).dma.reqs =
        d.dma.reqs ++ [{ page := page, w := w, rings := [r], sent := true }] := by
  have hpause := within_pauseRing d r
  have hpaused := rState_pauseRing d r hstate
  have hqueued : Within [F.HIF_RING_STATUS_STATE.addr r] [.regs, .dma, .hif, .pm, .out] d (requestQueued r page w (pauseRing d r)) :=
    (hpause.mono : Within _ [.regs, .dma, .hif, .pm, .out] d _).only (only_onDma _ _)
  have hreqs : (requestQueued r page w (pauseRing d r)).dma.reqs =
      d.dma.reqs ++ [{ page := page, w := w, rings := [r], sent := false }] :=
    congrArg (fun m : Dma => m.reqs ++ [{ page := page, w := w, rings := [r], sent := false }]) (hpause.parts .dma (by simp))
  have hout : (requestQueued r page w (pauseRing d r)).out = d.out := hpause.parts .out (by simp)
  have hstay : rState (requestQueued r page w (pauseRing d r)) r = 2 := hpaused
  generalize requestQueued r page w (pauseRing d r) = a at *
  rw [sendReqs_of_new hreqs hsent rfl hroom]
  have hleft := within_reqLeft a { page := page, w := w, rings := [r], sent := false }
  have hsentOut := sent_reqLeft a { page := page, w := w, rings := [r], sent := false }
  generalize reqLeft a { page := page, w := w, rings := [r], sent := false } = b at *
  rw [Sent, hout] at hsentOut
  exact ⟨(hqueued.next hleft).only (only_onDma _ _), hsentOut, (hleft.rState (by simp)).trans hstay, rfl⟩

section
variable {s : State} {c : TransCpl} (hcore : s.dev.pwr.core = true) (henable : s.dev.dma.enable = true)
include hcore henable

theorem translationCompletion_stale (hstale : c.stale = true) : Acts [.out] (.translationCompletion c) s fun t =>
    Sent s.dev t.dev [.transReq (c.addr.toNat / 4096 * 4096)] :=
  ((Within.refl [] _ s.dev).emit).acts (exec_of_core (g := fun d => transCpl c s.sn d) rfl hcore (transCpl_stale henable hstale)) rfl

variable (hstale : c.stale = false)
include hstale

theorem translationCompletion_entered (hring : c.ring = none) (hgrant : c.r = true ∨ c.w = true ∨ c.u = true) :
    Acts [.dma] (.translationCompletion c) s fun t => t.dev.dma.cache.head? = some (entryOf c) ∧
      (∀ x ∈ s.dev.dma.cache, (c.evict = none ∧ s.dev.dma.cache.length < 1024 ∨ pinned s.dev x = true) →
        (x.base ≠ (entryOf c).base ∨ x.size ≠ (entryOf c).size) → x ∈ t.dev.dma.cache) := by
  refine (within_entryCached c s.dev).acts
    (exec_of_core (g := fun d => transCpl c s.sn d) rfl hcore (transCpl_entered henable hstale hring hgrant)) ⟨rfl, fun x hx hkeep hother => ?_⟩
  refine List.mem_cons_of_mem _ (List.mem_filter.mpr ⟨mem_evictFor hx hkeep, ?_⟩)
  rcases hother with h | h
  · simp [h]
  · simp [h]

variable {r : Fin 41} (hring : c.ring = some r) (hheld : (ringOf s.dev r).held = none) (hstate : rState s.dev r = 1 ∨ rState s.dev r = 2)
include hring hstate

theorem translationCompletion_fails (huse : (c.u || (if needsW s.dev r (c.addr.toNat / 4096 * 4096) = true then c.w else c.r)) = false)
    (h : s.dev.dma.rspFail = true ∨ s.dev.dma.pri = false ∨ 3 ≤ tget 0 s.dev.dma.succ r.val) :
    ActsR (failRegs s.dev [r.val]) failParts (.translationCompletion c) s fun t =>
      RingFailed s.dev t.dev s.sn r (c.addr.toNat / 4096 * 4096)
        (if s.dev.dma.rspFail = true then 0xF else if s.dev.dma.pri = false then 0x101 else 0x106) := by
  obtain ⟨l, heq⟩ := transCpl_fault (sn := s.sn) henable hstale hring huse hstate
  have hcached : Within (failRegs s.dev [r.val]) (.regs :: failParts) s.dev (recached l s.dev) :=
    (Within.refl _ _ s.dev).only (only_onDma _ _) (by decide) (by simp [failParts])
  obtain ⟨hframe, hfailed⟩ := failAccess_spec s.sn (faultCode (recached l s.dev)) (c.addr.toNat / 4096 * 4096) (recached l s.dev)
    (r := r.val) (by omega)
  rw [transFault_fails (d := recached l s.dev) h] at heq
  obtain ⟨b, hb⟩ : ∃ b, b = failAccess s.sn (faultCode (recached l s.dev)) (c.addr.toNat / 4096 * 4096) (recached l s.dev) r := ⟨_, rfl⟩
  rw [← hb] at heq hframe hfailed
  exact (hcached.trans hframe).actsR (exec_of_core (g := fun d => transCpl c s.sn d) rfl hcore heq) hfailed

include hheld

theorem translationCompletion_resumes (huse : (c.u || (if needsW s.dev r (c.addr.toNat / 4096 * 4096) = true then c.w else c.r)) = true) :
    ActsR [F.HIF_RING_STATUS_STATE.addr r] [.dma] (.translationCompletion c) s fun t =>
      rState t.dev r = 1 ∧ t.dev.dma.cache.head? = some (entryOf c) := by
  have heq := (transCpl_usable (sn := s.sn) henable hstale hring huse).trans (resumeRing_of_none (d := entryCached c s.dev) hheld)
  have hcached : Within [F.HIF_RING_STATUS_STATE.addr r] [.regs, .dma] s.dev (entryCached c s.dev) := (within_entryCached c s.dev).mono
  refine (hcached.trans (within_ringResumed r _)).actsR (exec_of_core (g := fun d => transCpl c s.sn d) rfl hcore heq)
    ⟨(rState_ringResumed r _).trans ?_, ?_⟩
  · have hsame : rState (entryCached c s.dev) r = rState s.dev r := rfl
    rw [hsame]
    rcases hstate with h | h <;> simp [h]
  · rw [show (ringResumed r (entryCached c s.dev)).dma.cache = _ from ringResumed_cache r _]
    rfl

theorem translationCompletion_asks (huse : (c.u || (if needsW s.dev r (c.addr.toNat / 4096 * 4096) = true then c.w else c.r)) = false)
    (hrsp : s.dev.dma.rspFail = false) (hpri : s.dev.dma.pri = true) (hsucc : tget 0 s.dev.dma.succ r.val < 3)
    (hroom : s.dev.dma.reqs.length < 512) (hreqs : ∀ x ∈ s.dev.dma.reqs, x.sent = true ∧
      (x.page ≠ c.addr.toNat / 4096 * 4096 ∨ x.w ≠ needsW s.dev r (c.addr.toNat / 4096 * 4096))) :
    ActsR [F.HIF_RING_STATUS_STATE.addr r] [.dma, .hif, .pm, .out] (.translationCompletion c) s fun t =>
      Sent s.dev t.dev [.pageReq (c.addr.toNat / 4096 * 4096) (needsW s.dev r (c.addr.toNat / 4096 * 4096))] ∧ rState t.dev r = 2 ∧
      t.dev.dma.reqs = s.dev.dma.reqs ++ [{ page := c.addr.toNat / 4096 * 4096, w := needsW s.dev r (c.addr.toNat / 4096 * 4096), rings := [r], sent := true }] := by
  obtain ⟨l, heq⟩ := transCpl_fault (sn := s.sn) henable hstale hring huse hstate
  rw [transFault_asks (d := recached l s.dev) hrsp hpri hsucc hheld fun x hx => (hreqs x hx).2] at heq
  have hcached : Within [F.HIF_RING_STATUS_STATE.addr r] [.regs, .dma, .hif, .pm, .out] s.dev (recached l s.dev) :=
    (Within.refl _ _ s.dev).only (only_onDma _ _)
  obtain ⟨hframe, hp⟩ := pageAsked_spec (d := recached l s.dev) (c.addr.toNat / 4096 * 4096)
    (needsW s.dev r (c.addr.toNat / 4096 * 4096)) (fun x hx => (hreqs x hx).1) hroom hstate
  exact (hcached.trans hframe).actsR (exec_of_core (g := fun d => transCpl c s.sn d) rfl hcore heq) hp

end

/-- Settles O35: completions by age, by what they grant and by what their ring then meets. -/
theorem translationsServeAccesses : Obligations.TranslationsServeAccesses := by
  unfold Obligations.TranslationsServeAccesses
  intro s c hcore henable
  refine ⟨translationCompletion_stale hcore henable, translationCompletion_entered hcore henable,
    fun r hstale hring hheld hstate => ⟨translationCompletion_resumes hcore henable hstale hring hheld hstate,
      translationCompletion_fails hcore henable hstale hring hstate,
      translationCompletion_asks hcore henable hstale hring hheld hstate⟩⟩

end Sys2Proof.Machine
end

