-- ==== Sys2Proof/Proofs/PageResponses.lean ====
section
/-! PROOFS. Page responses, invalidations and read retries (R356, R359, R361 to R363). -/

namespace Sys2Proof.Machine

-- In order: a default argument `by simp` waits for every declaration before it, and many that wait take many threads.
set_option Elab.async false

/-! ### Rings that fail one after the other -/

/-- HIF_CFG_ERR_VEC is no word of a failure. -/
theorem errVec_notMem_failRegs (d : Dev) {rs : List Nat} (hrs : ∀ r ∈ rs, r < 48) : F.HIF_CFG_ERR_VEC.addr 0 ∉ failRegs d rs := by
  intro hmem
  rw [failRegs, List.mem_append, List.mem_append] at hmem
  rcases hmem with (hmem | hmem) | hmem
  · obtain ⟨q, hq, hx⟩ := List.mem_flatMap.mp hmem
    obtain ⟨r, hr, hq⟩ := List.mem_flatMap.mp hq
    exact faultWords_offRings (lt_of_mem_pairRings (hrs r hr) hq) hx (as := [F.HIF_CFG_ERR_VEC.addr 0]) (by decide) (by simp)
  · rw [List.mem_pair] at hmem
    rcases hmem with h | h
    · exact absurd h (by decide)
    · exact absurd h.symm (Fld.addr_ne (f := F.MSIX_PBA) (g := F.HIF_CFG_ERR_VEC) (by decide) _ _)
  · exact absurd hmem (by decide)

theorem failRegs_congr {a b : Dev} (h : rd b F.HIF_CFG_ERR_VEC = rd a F.HIF_CFG_ERR_VEC) (rs : List Nat) : failRegs b rs = failRegs a rs := by
  rw [failRegs, failRegs, h]

theorem failRegs_mono (d : Dev) {rs qs : List Nat} (h : rs ⊆ qs) : failRegs d rs ⊆ failRegs d qs := by
  have hsub : rs.flatMap pairRings ⊆ qs.flatMap pairRings := fun x hx => by
    obtain ⟨r, hr, hx⟩ := List.mem_flatMap.mp hx
    exact List.mem_flatMap.mpr ⟨r, h hr, hx⟩
  intro x hx
  rw [failRegs, List.mem_append, List.mem_append] at hx ⊢
  refine hx.imp_left (Or.imp_left fun hx => ?_)
  obtain ⟨q, hq, hx⟩ := List.mem_flatMap.mp hx
  exact List.mem_flatMap.mpr ⟨q, hsub hq, hx⟩

/-- A ring's state after another has failed: FAULTED with it, or as it was. -/
theorem failAccess_keeps_faulted (sn : SN) (code page : Nat) (d : Dev) {r q : Nat} (hr : r < 48) (hq : q < 64) (h : rState d q = 3) :
    rState (failAccess sn code page d r) q = 3 := by
  obtain ⟨hframe, hfailed, -⟩ := failAccess_spec sn code page d hr
  by_cases hpair : q ∈ pairRings r
  · exact (hfailed q hpair).1
  · refine (hframe.rState fun hmem => ?_).trans h
    rw [failRegs_single, List.mem_append, List.mem_append] at hmem
    rcases hmem with (hmem | hmem) | hmem
    · obtain ⟨m, hm, hx⟩ := List.mem_flatMap.mp hmem
      exact faultWords_ne (fun heq => hpair (heq ▸ hm)) (q := q) (by simp) hx
    · rw [List.mem_pair] at hmem
      rcases hmem with h | h
      · exact Fld.ringed_notMem (f := F.HIF_RING_STATUS_STATE) (by decide) hq (as := [F.HIF_PRI_FAIL.addr 0]) (by decide) (by simp [h])
      · exact Fld.ringed_notMem (f := F.HIF_RING_STATUS_STATE) (by decide) hq (offRings_pba (rd d F.HIF_CFG_ERR_VEC / 32)) (by simp [h])
    · exact Fld.ringed_notMem (f := F.HIF_RING_STATUS_STATE) (by decide) hq (as := tilthRegs) (by decide) hmem

/-- The rings that wait for requests. -/
abbrev ringsOf (l : List PageReq) : List (Fin 41) := l.flatMap (·.rings)

/-- The accesses that wait for requests, each with its page. -/
def waits (l : List PageReq) : List (Nat × Fin 41) := l.flatMap fun x => x.rings.map fun r => (x.page, r)

theorem waits_rings (l : List PageReq) : (waits l).map (·.2) = ringsOf l := by
  simp [ringsOf, waits, List.map_flatMap, Function.comp_def]

/-- The waiting accesses fail in turn. -/
def failAll (sn : SN) (code : Nat) (ws : List (Nat × Fin 41)) (d : Dev) : Dev := ws.foldl (fun d w => failAccess sn code w.1 d w.2) d

theorem failReqs_eq (sn : SN) (code : Nat) (l : List PageReq) (d : Dev) : failReqs sn code l d = failAll sn code (waits l) d := by
  rw [failAll, waits, List.foldl_flatMap, failReqs]
  simp only [List.foldl_map, List.bind_eq_flatMap, List.foldl_flatMap, List.pure_def, List.foldl_cons, List.foldl_nil]

/-- The words and parts of a chain of failures, and the rings that end FAULTED. -/
theorem failAll_spec (sn : SN) (code : Nat) (ws : List (Nat × Fin 41)) (d : Dev) :
    Within (failRegs d (ws.map (·.2.val))) (.regs :: failParts) d (failAll sn code ws d) ∧
      ∀ q < 64, (rState d q = 3 ∨ q ∈ ws.map (·.2.val)) → rState (failAll sn code ws d) q = 3 := by
  induction ws generalizing d with
  | nil => exact ⟨.refl _ _ d, fun q _ h => h.elim id fun h => absurd h (by simp)⟩
  | cons w ws ih =>
    have hw : w.2.val < 48 := by omega
    obtain ⟨hframe, hfailed, -⟩ := failAccess_spec sn code w.1 d hw
    have hkeeps := fun q hq => failAccess_keeps_faulted sn code w.1 d (q := q) hw hq
    have heq : failAll sn code (w :: ws) d = failAll sn code ws (failAccess sn code w.1 d w.2) := rfl
    rw [heq]
    generalize failAccess sn code w.1 d w.2 = a at *
    obtain ⟨hrest, hfaulted⟩ := ih a
    rw [failRegs_congr (hframe.rd (errVec_notMem_failRegs d (by simpa using hw)))] at hrest
    refine ⟨(hframe.mono (failRegs_mono d (by simp))).next hrest (failRegs_mono d (by simp)), fun q hq h => hfaulted q hq ?_⟩
    rcases h with h | h
    · exact .inl (hkeeps q hq h)
    · rcases List.mem_cons.mp h with h | h
      · refine .inl (hfailed q ?_).1
        rw [h]
        unfold pairRings
        split
        · simp
        · split <;> simp
      · exact .inr h

/-- A chain of one. -/
theorem failAll_single {l : List PageReq} {r : Fin 41} {x : PageReq} (hl : ringsOf l = [r]) (hx : x ∈ l) (hr : x.rings = [r]) :
    waits l = [(x.page, r)] := by
  have hlen : (waits l).length = 1 := by rw [← List.length_map (f := (·.2)), waits_rings, hl, List.length_singleton]
  obtain ⟨w, hw⟩ := List.length_eq_one_iff.mp hlen
  have hmem : (x.page, r) ∈ waits l := List.mem_flatMap.mpr ⟨x, hx, by simp [hr]⟩
  rw [hw, List.mem_singleton] at hmem
  rw [hw, hmem]

/-- No failure adds a request or changes what the host has enabled. -/
structure OnlyDropped (a b : Dev) : Prop where
  reqs : ∀ x ∈ b.dma.reqs, ∃ y ∈ a.dma.reqs, y.page = x.page
  rspFail : b.dma.rspFail = a.dma.rspFail
  pri : b.dma.pri = a.dma.pri
  stopped : b.dma.stopped = a.dma.stopped

theorem OnlyDropped.trans {a b c : Dev} (h : OnlyDropped a b) (k : OnlyDropped b c) : OnlyDropped a c where
  reqs x hx := by
    obtain ⟨y, hy, hyx⟩ := k.reqs x hx
    obtain ⟨z, hz, hzy⟩ := h.reqs y hy
    exact ⟨z, hz, hzy.trans hyx⟩
  rspFail := k.rspFail.trans h.rspFail
  pri := k.pri.trans h.pri
  stopped := k.stopped.trans h.stopped

theorem onlyDropped_failAccess (sn : SN) (code page : Nat) (d : Dev) (r : Nat) : OnlyDropped d (failAccess sn code page d r) := by
  have h : (failAccess sn code page d r).dma = (accessDropped r d).dma := ringFault_dma _ _ _ _ _
  refine ⟨fun x hx => ?_, by rw [h]; rfl, by rw [h]; rfl, by rw [h]; rfl⟩
  rw [h] at hx
  obtain ⟨y, hy, rfl⟩ := List.mem_map.mp hx
  exact ⟨y, hy, rfl⟩

theorem onlyDropped_failAll (sn : SN) (code : Nat) (ws : List (Nat × Fin 41)) (d : Dev) : OnlyDropped d (failAll sn code ws d) := by
  induction ws generalizing d with
  | nil => exact ⟨fun x hx => ⟨x, hx, rfl⟩, rfl, rfl, rfl⟩
  | cons w ws ih => exact (onlyDropped_failAccess sn code w.1 d w.2).trans (ih _)

/-- The rings that wait for the requests `l` fail, once these have been taken out of the list. -/
theorem failReqs_fails {i : Instr} {s : State} {a : Dev} {p : State → Prop} {code : Nat} {l : List PageReq} {g : Dev → Dev}
    (hcore : s.dev.pwr.core = true) (hexec : exec i s = core s g) (hg : g s.dev = failReqs s.sn code l a)
    (ha : ∃ f, a = onDma s.dev f) (hp : ∀ b, OnlyDropped a b → p { s with dev := b }) :
    ActsR (failRegs s.dev ((ringsOf l).map (·.val))) failParts i s fun t => p t ∧
      (∀ r ∈ ringsOf l, rState t.dev r = 3) ∧
      (∀ r, ringsOf l = [r] → ∀ x ∈ l, x.rings = [r] → RingFailed s.dev t.dev s.sn r x.page code) := by
  obtain ⟨f, rfl⟩ := ha
  rw [failReqs_eq] at hg
  obtain ⟨hframe, hfaulted⟩ := failAll_spec s.sn code (waits l) (onDma s.dev f)
  have hdropped := onlyDropped_failAll s.sn code (waits l) (onDma s.dev f)
  have hsingle (r : Fin 41) (x : PageReq) (hw : waits l = [(x.page, r)]) :
      RingFailed s.dev (failAll s.sn code (waits l) (onDma s.dev f)) s.sn r x.page code := by
    rw [hw]
    exact (failAccess_spec s.sn code x.page (onDma s.dev f) (r := r.val) (by omega)).2
  obtain ⟨b, hb⟩ : ∃ b, b = failAll s.sn code (waits l) (onDma s.dev f) := ⟨_, rfl⟩
  rw [← hb] at hg hframe hfaulted hdropped hsingle
  have hrings : (waits l).map (fun w => w.2.val) = (ringsOf l).map (·.val) := by
    rw [← waits_rings, List.map_map]
    rfl
  rw [hrings] at hframe hfaulted
  have hfrom : Within (failRegs s.dev ((ringsOf l).map (·.val))) (.regs :: failParts) s.dev (onDma s.dev f) :=
    (Within.refl _ _ s.dev).only (only_onDma _ _) (by decide) (by simp [failParts])
  refine (hfrom.trans hframe).actsR (exec_of_core hexec hcore hg) ⟨hp b hdropped, fun r hr => ?_, fun r hl x hx hxr => ?_⟩
  · exact hfaulted r.val (by omega) (.inr (List.mem_map_of_mem hr))
  · exact hsingle r x (failAll_single hl hx hxr)

/-! ### Responses to page requests (R361) -/

/-- The requests for a page, and the others. -/
abbrev reqsFor (d : Dev) (page : Nat) : List PageReq := d.dma.reqs.filter fun x => x.page == page
abbrev reqsBeside (d : Dev) (page : Nat) : List PageReq := d.dma.reqs.filter fun x => !(x.page == page)

/-- The requests are `l`. -/
def requesting (l : List PageReq) (d : Dev) : Dev := onDma d fun m => { m with reqs := l }

theorem takeReqs_of_sent {d : Dev} (h : ∀ x ∈ d.dma.reqs, x.sent = true) (page : Nat) :
    takeReqs d page = (reqsFor d page, requesting (reqsBeside d page) d) := by
  have hfor : d.dma.reqs.filter (fun x => x.sent && x.page == page) = reqsFor d page :=
    List.filter_congr fun x hx => by rw [h x hx, Bool.true_and]
  have hbeside : d.dma.reqs.filter (fun x => !(x.sent && x.page == page)) = reqsBeside d page :=
    List.filter_congr fun x hx => by rw [h x hx, Bool.true_and]
  rw [takeReqs, hfor, onDma, hbeside]
  exact congrArg _ (sendReqs_of_sent fun x hx => h x (List.mem_of_mem_filter hx))

/-- A translation of the page is requested again for a ring. -/
def askedAgain (page : Nat) (d : Dev) (r : Fin 41) : Dev :=
  askTrans (onDma d fun m => { m with succ := tput 0 m.succ r.val (tget 0 m.succ r.val + 1) }) page

theorem askedAgain_foldl (page : Nat) (rs : List (Fin 41)) (d : Dev) :
    Within [] [.dma, .out] d (rs.foldl (askedAgain page) d) ∧
      Sent d (rs.foldl (askedAgain page) d) (rs.map fun _ => .transReq (page / 4096 * 4096)) ∧
      (rs.foldl (askedAgain page) d).dma.reqs = d.dma.reqs ∧
      ∀ r, tget 0 (rs.foldl (askedAgain page) d).dma.succ r.val = tget 0 d.dma.succ r.val + rs.count r := by
  induction rs generalizing d with
  | nil => exact ⟨.refl _ _ d, by simp [Sent], rfl, fun r => rfl⟩
  | cons x rs ih =>
    obtain ⟨hframe, hsent, hreqs, hsucc⟩ := ih (askedAgain page d x)
    have hstep : Within [] [.dma, .out] d (askedAgain page d x) := ((Within.refl _ _ d).only (only_onDma _ _)).emit
    refine ⟨hstep.trans hframe, ?_, hreqs, fun r => ?_⟩
    · rw [List.foldl_cons, Sent, hsent]
      simp [askedAgain, askTrans, emit, onDma]
    · rw [List.foldl_cons, hsucc]
      by_cases hrx : x = r
      · subst hrx
        have : tget 0 (askedAgain page d x).dma.succ x.val = tget 0 d.dma.succ x.val + 1 :=
          tget_tput_same 0 d.dma.succ x.val (tget 0 d.dma.succ x.val + 1)
        rw [this, List.count_cons_self]
        omega
      · have hne : r.val ≠ x.val := fun h => hrx (Fin.ext h.symm)
        have : tget 0 (askedAgain page d x).dma.succ r.val = tget 0 d.dma.succ r.val :=
          tget_tput_ne 0 d.dma.succ (tget 0 d.dma.succ x.val + 1) hne
        rw [this, List.count_cons_of_ne hrx]

/-- The requests that are left beside a page are for other pages. -/
theorem reqsBeside_apart {a b : Dev} {page : Nat} (h : OnlyDropped (requesting (reqsBeside a page) a) b) :
    ∀ x ∈ b.dma.reqs, x.page ≠ page := by
  intro x hx heq
  obtain ⟨y, hy, hyx⟩ := h.reqs x hx
  have := (List.mem_filter.mp hy).2
  simp [hyx, heq] at this

/-- The page of an address is the page of itself. -/
theorem page_idem (a : Nat) : a / 4096 * 4096 / 4096 * 4096 = a / 4096 * 4096 := by omega

section
variable {s : State} (hcore : s.dev.pwr.core = true) (addr : BitVec 64) (hsent : ∀ x ∈ s.dev.dma.reqs, x.sent = true)
  {page : Nat} (hpage : addr.toNat / 4096 * 4096 = page)
include hcore

theorem priEnable_clears : ActsR (failRegs s.dev ((ringsOf s.dev.dma.reqs).map (·.val))) failParts (.priEnable false) s fun t =>
    (t.dev.dma.reqs = [] ∧ t.dev.dma.pri = false ∧ t.dev.dma.stopped = true) ∧ (∀ r ∈ ringsOf s.dev.dma.reqs, rState t.dev r = 3) ∧
      (∀ r, ringsOf s.dev.dma.reqs = [r] → ∀ x ∈ s.dev.dma.reqs, x.rings = [r] → RingFailed s.dev t.dev s.sn r x.page 0x105) := by
  refine failReqs_fails (g := priEnable false s.sn) hcore rfl rfl ⟨_, rfl⟩ fun b hb => ⟨?_, hb.pri, hb.stopped⟩
  exact List.eq_nil_iff_forall_not_mem.mpr fun x hx => by
    obtain ⟨y, hy, -⟩ := hb.reqs x hx
    exact absurd hy (List.not_mem_nil)

include hsent hpage

theorem prgResponse_succeeds (hhere : reqsFor s.dev page ≠ []) : Acts [.dma, .out, .pm] (.prgResponse addr 0) s fun t =>
    Sent s.dev t.dev ((ringsOf (reqsFor s.dev page)).map fun _ => .transReq page) ∧ t.dev.dma.reqs = reqsBeside s.dev page ∧
      ∀ r, (ringsOf (reqsFor s.dev page)).Nodup → r ∈ ringsOf (reqsFor s.dev page) →
        tget 0 t.dev.dma.succ r.val = tget 0 s.dev.dma.succ r.val + 1 := by
  have heq : prgResponse addr.toNat 0 s.sn s.dev =
      (ringsOf (reqsFor s.dev page)).foldl (askedAgain page) (requesting (reqsBeside s.dev page) s.dev) := by
    unfold prgResponse
    extract_lets p x
    have hx : x = (reqsFor s.dev page, requesting (reqsBeside s.dev page) s.dev) := hpage ▸ takeReqs_of_sent hsent _
    have hp : p = page := hpage
    rw [hx, hp]
    split
    · next h => exact absurd h hhere
    · rw [if_pos rfl, ringsOf, List.foldl_flatMap]
      rfl
  obtain ⟨hframe, hout, hreqs, hsucc⟩ := askedAgain_foldl page (ringsOf (reqsFor s.dev page)) (requesting (reqsBeside s.dev page) s.dev)
  have hsame : page / 4096 * 4096 = page := hpage ▸ page_idem _
  rw [hsame] at hout
  have hfrom : Within [] [.dma, .out, .pm] s.dev (requesting (reqsBeside s.dev page) s.dev) := (Within.refl _ _ s.dev).only (only_onDma _ _)
  refine (hfrom.next hframe).acts (exec_of_core (g := fun d => prgResponse addr.toNat 0 s.sn d) rfl hcore heq)
    ⟨hout, hreqs, fun r hnodup hr => ?_⟩
  exact (hsucc r).trans (congrArg _ (List.count_eq_one_of_mem hnodup hr))

theorem prgResponse_invalid (hhere : reqsFor s.dev page ≠ []) :
    ActsR (failRegs s.dev ((ringsOf (reqsFor s.dev page)).map (·.val))) failParts (.prgResponse addr 1) s fun t =>
      (∀ x ∈ t.dev.dma.reqs, x.page ≠ page) ∧ (∀ r ∈ ringsOf (reqsFor s.dev page), rState t.dev r = 3) ∧
      (∀ r, ringsOf (reqsFor s.dev page) = [r] → ∀ x ∈ reqsFor s.dev page, x.rings = [r] → RingFailed s.dev t.dev s.sn r x.page 1) := by
  have heq : prgResponse addr.toNat 1 s.sn s.dev = failReqs s.sn 1 (reqsFor s.dev page) (requesting (reqsBeside s.dev page) s.dev) := by
    unfold prgResponse
    extract_lets p x
    have hx : x = (reqsFor s.dev page, requesting (reqsBeside s.dev page) s.dev) := hpage ▸ takeReqs_of_sent hsent _
    rw [hx]
    split
    · next h => exact absurd h hhere
    · exact (if_neg (by decide)).trans (if_pos rfl)
  exact failReqs_fails (g := fun d => prgResponse addr.toNat 1 s.sn d) hcore rfl heq ⟨_, rfl⟩ fun b hb => reqsBeside_apart hb

theorem prgResponse_failure (hhere : reqsFor s.dev page ≠ []) :
    ActsR (failRegs s.dev ((ringsOf s.dev.dma.reqs).map (·.val))) failParts (.prgResponse addr 2) s fun t =>
      (t.dev.dma.reqs = [] ∧ t.dev.dma.rspFail = true) ∧ (∀ r ∈ ringsOf s.dev.dma.reqs, rState t.dev r = 3) ∧
      (∀ r, ringsOf s.dev.dma.reqs = [r] → ∀ x ∈ s.dev.dma.reqs, x.rings = [r] → RingFailed s.dev t.dev s.sn r x.page 0xF) := by
  have heq : prgResponse addr.toNat 2 s.sn s.dev =
      failReqs s.sn 0xF s.dev.dma.reqs (onDma s.dev fun m => { m with reqs := [], rspFail := true }) := by
    unfold prgResponse
    extract_lets p x
    have hx : x = (reqsFor s.dev page, requesting (reqsBeside s.dev page) s.dev) := hpage ▸ takeReqs_of_sent hsent _
    rw [hx]
    split
    · next h => exact absurd h hhere
    · exact (if_neg (by decide)).trans (if_neg (by decide))
  refine failReqs_fails (g := fun d => prgResponse addr.toNat 2 s.sn d) hcore rfl heq ⟨_, rfl⟩ fun b hb => ⟨?_, hb.rspFail⟩
  exact List.eq_nil_iff_forall_not_mem.mpr fun x hx => by
    obtain ⟨y, hy, -⟩ := hb.reqs x hx
    exact absurd hy (List.not_mem_nil)

theorem priTimeout_fails (htmo : rd s.dev F.HIF_ATS_CFG_PRI_TMO ≠ 0) :
    ActsR (failRegs s.dev ((ringsOf (reqsFor s.dev page)).map (·.val))) failParts (.priTimeout addr) s fun t =>
      (∀ x ∈ t.dev.dma.reqs, x.page ≠ page) ∧ (∀ r ∈ ringsOf (reqsFor s.dev page), rState t.dev r = 3) ∧
      (∀ r, ringsOf (reqsFor s.dev page) = [r] → ∀ x ∈ reqsFor s.dev page, x.rings = [r] → RingFailed s.dev t.dev s.sn r x.page 0x100) := by
  have heq : priTimeout addr.toNat s.sn s.dev = failReqs s.sn 0x100 (reqsFor s.dev page) (requesting (reqsBeside s.dev page) s.dev) := by
    unfold priTimeout
    rw [if_neg htmo, hpage]
    extract_lets x
    have hx : x = (reqsFor s.dev page, requesting (reqsBeside s.dev page) s.dev) := takeReqs_of_sent hsent _
    rw [hx]
  exact failReqs_fails (g := fun d => priTimeout addr.toNat s.sn d) hcore rfl heq ⟨_, rfl⟩ fun b hb => reqsBeside_apart hb

end

/-! ### Invalidations and reads (R356, R359, R362) -/

section
variable {s : State} (hcore : s.dev.pwr.core = true)
include hcore

theorem invalidateRequest_invalidates (addr : BitVec 64) (size : Nat) : Acts [.dma] (.invalidateRequest addr size) s fun t =>
    t.dev.dma.inval = s.dev.dma.inval + 1 ∧ ∀ x, x ∈ t.dev.dma.cache ↔ x ∈ s.dev.dma.cache ∧
      (addr.toNat + size ≤ x.base ∨ x.base + 4096 * 2 ^ x.size ≤ addr.toNat) := by
  refine (Within.of_only (only_onDma s.dev _)).acts (exec_of_core (g := invalidate addr.toNat size) rfl hcore rfl) ⟨rfl, fun x => ?_⟩
  refine List.mem_filter.trans (and_congr_right fun _ => ?_)
  simp only [Bool.not_eq_true', decide_eq_false_iff_not]
  omega

theorem invalidateCompletion_counts (h : 0 < s.dev.dma.inval) : ActsR [F.HIF_ATS_INVAL.addr 0] [.dma, .out] .invalidateCompletion s fun t =>
    Sent s.dev t.dev [.invalDone] ∧ t.dev.dma.inval = s.dev.dma.inval - 1 ∧
      rd t.dev F.HIF_ATS_INVAL = satAdd 32 (rd s.dev F.HIF_ATS_INVAL) 1 := by
  have heq : invalidated s.dev = emit (sat (onDma s.dev fun m => { m with inval := m.inval - 1 }) F.HIF_ATS_INVAL 0) .invalDone :=
    if_neg (by omega)
  exact (((Within.refl _ _ s.dev).only (only_onDma _ _)).sat.emit).actsR (exec_of_core (g := invalidated) rfl hcore heq)
    ⟨rfl, rfl, rd_sat_same _ (by decide) _ _⟩

variable (r : Fin 41)

theorem completionTimeout_retries (e : ReadEnd) (hstate : rState s.dev r = 1 ∨ rState s.dev r = 2) (hfirst : r.val ∉ s.dev.dma.second) :
    Acts [.dma] (.completionTimeout r e) s fun t => r.val ∈ t.dev.dma.retry ∧ t.dev.dma.cache = s.dev.dma.cache := by
  have hlive : ¬ (rState s.dev r ≠ 1 ∧ rState s.dev r ≠ 2) := by omega
  have heq := (if_neg hlive).trans (if_neg (by simpa using hfirst)) |> (rfl : badRead r e s.sn s.dev = _).trans
  by_cases hretry : r.val ∈ s.dev.dma.retry
  · rw [if_pos (by simpa using hretry)] at heq
    exact (Within.refl [] _ s.dev).acts (exec_of_core (g := fun d => badRead r e s.sn d) rfl hcore heq) ⟨hretry, rfl⟩
  · rw [if_neg (by simpa using hretry)] at heq
    exact (Within.of_only (only_onDma s.dev _)).acts (exec_of_core (g := fun d => badRead r e s.sn d) rfl hcore heq)
      ⟨List.mem_append_right _ (List.mem_singleton_self _), rfl⟩

/-- The code of a read that ends badly twice (Table 14-2). -/
def readCode : ReadEnd → Nat
  | .ur => 0x102
  | .ca => 0x103
  | .timeout => 0x104

theorem completionTimeout_fails (e : ReadEnd) (hstate : rState s.dev r = 1 ∨ rState s.dev r = 2) (hsecond : r.val ∈ s.dev.dma.second) :
    ActsR (failRegs s.dev [r.val]) failParts (.completionTimeout r e) s fun t =>
      RingFailed s.dev t.dev s.sn r (recAddr s.dev r (rC s.dev r)) (readCode e) := by
  have hlive : ¬ (rState s.dev r ≠ 1 ∧ rState s.dev r ≠ 2) := by omega
  have heq : badRead r e s.sn s.dev = failAccess s.sn (readCode e) (recAddr s.dev r (rC s.dev r)) s.dev r := by
    refine ((if_neg hlive).trans (if_pos (by simpa using hsecond))).trans ?_
    cases e <;> rfl
  obtain ⟨hframe, hfailed⟩ := failAccess_spec s.sn (readCode e) (recAddr s.dev r (rC s.dev r)) s.dev (r := r.val) (by omega)
  obtain ⟨b, hb⟩ : ∃ b, b = failAccess s.sn (readCode e) (recAddr s.dev r (rC s.dev r)) s.dev r := ⟨_, rfl⟩
  rw [← hb] at heq hframe hfailed
  exact hframe.actsR (exec_of_core (g := fun d => badRead r e s.sn d) rfl hcore heq) hfailed

omit hcore in
/-- The read of ring `r` is on its second attempt. -/
def readAgain (r : Nat) (d : Dev) : Dev := onDma d fun m => { m with retry := m.retry.filter (· != r), second := m.second ++ [r] }

theorem readRetry_reads (hretry : r.val ∈ s.dev.dma.retry) : Acts [.dma, .out] (.readRetry r) s fun t =>
    r.val ∉ t.dev.dma.retry ∧ r.val ∈ t.dev.dma.second ∧
      Sent s.dev t.dev (if s.dev.dma.enable = true then [.transReq (recAddr s.dev r (rC s.dev r) / 4096 * 4096)] else []) := by
  have hwaits : ¬ (!s.dev.dma.retry.contains r.val) = true := by simpa using hretry
  have hgone : r.val ∉ s.dev.dma.retry.filter (· != r.val) := fun h => by simpa using (List.mem_filter.mp h).2
  have hadded : r.val ∈ s.dev.dma.second ++ [r.val] := List.mem_append_right _ (List.mem_singleton_self _)
  have hagain : Within [] [.dma, .out] s.dev (readAgain r s.dev) := (Within.refl _ _ s.dev).only (only_onDma _ _)
  by_cases henable : s.dev.dma.enable = true
  · have heq : readRetry r s.dev = askTrans (readAgain r s.dev) (recAddr s.dev r (rC s.dev r)) := (if_neg hwaits).trans (if_pos henable)
    rw [if_pos henable]
    exact hagain.emit.acts (exec_of_core (g := readRetry r) rfl hcore heq) ⟨hgone, hadded, rfl⟩
  · have heq : readRetry r s.dev = readAgain r s.dev := (if_neg hwaits).trans (if_neg henable)
    rw [if_neg henable]
    exact hagain.acts (exec_of_core (g := readRetry r) rfl hcore heq) ⟨hgone, hadded, (List.append_nil _).symm⟩

theorem atsEnable_enables : Acts [.dma] (.atsEnable true) s fun t => t.dev.dma.enable = true ∧
    t.dev.dma.cache = if s.dev.dma.enable = true then s.dev.dma.cache else [] :=
  (Within.of_only (only_onDma s.dev fun m => { m with enable := true, cache := if m.enable then m.cache else [] })).acts
    (exec_of_core (g := atsEnable true) rfl hcore rfl) ⟨rfl, rfl⟩

omit hcore in
/-- While Enable is clear there is no translation, and no request for one. -/
def untranslated (d : Dev) : Dev := onDma d fun m => { m with enable := false, cache := [], reqs := [], succ := [] }

omit hcore in
/-- A chain of rings that go on with nothing held. -/
theorem resumeRing_foldl {rs : List Nat} (hrs : ∀ r ∈ rs, r < 41) {d : Dev} (hheld : ∀ q : Fin 41, (ringOf d q).held = none) :
    rs.foldl resumeRing d = rs.foldl (fun d r => ringResumed r d) d ∧
      Within (rs.map fun q => F.HIF_RING_STATUS_STATE.addr q) [.regs, .dma] d (rs.foldl (fun d r => ringResumed r d) d) := by
  induction rs generalizing d with
  | nil => exact ⟨rfl, .refl _ _ d⟩
  | cons r rs ih =>
    have hr := hrs r List.mem_cons_self
    have hstep := within_ringResumed r d
    have hhif : (ringResumed r d).hif = d.hif := hstep.parts .hif (by simp)
    obtain ⟨heq, hframe⟩ := ih (fun x hx => hrs x (List.mem_cons_of_mem r hx)) (d := ringResumed r d)
      fun q => by rw [ringOf_congr hhif, hheld q]
    rw [List.foldl_cons, List.foldl_cons, resumeRing_of_none (hheld ⟨r, hr⟩)]
    exact ⟨heq, (hstep.mono (by simp)).next hframe⟩

omit hcore in
theorem ringResumed_dma (r : Nat) (d : Dev) : (ringResumed r d).dma = { d.dma with succ := tdel d.dma.succ r } := by
  unfold ringResumed
  split <;> rfl

omit hcore in
theorem rState_ringResumed_ne {r q : Nat} (h : q ≠ r) (d : Dev) : rState (ringResumed r d) q = rState d q :=
  (within_ringResumed r d).rState (by simpa using Fld.ringed_addr_ne (by decide) (by decide) (.inr h))

theorem atsEnable_disables (hheld : ∀ q : Fin 41, (ringOf s.dev q).held = none) :
    ActsR ((List.range 41).map fun q => F.HIF_RING_STATUS_STATE.addr q) [.dma] (.atsEnable false) s fun t =>
      t.dev.dma.enable = false ∧ t.dev.dma.cache = [] ∧ t.dev.dma.reqs = [] ∧
      ∀ q : Fin 41, rState t.dev q = if rState s.dev q = 2 then 1 else rState s.dev q := by
  have hrs : ∀ r ∈ (List.range 41).filter (fun r => rState s.dev r == 2), r < 41 := fun r hr =>
    List.mem_range.mp (List.mem_of_mem_filter hr)
  have hnodup : ((List.range 41).filter fun r => rState s.dev r == 2).Nodup := List.nodup_range.filter _
  have hmem (q : Fin 41) : q.val ∈ (List.range 41).filter (fun r => rState s.dev r == 2) ↔ rState s.dev q = 2 := by
    simp [List.mem_filter, q.isLt]
  have heq : atsEnable false s.dev = ((List.range 41).filter fun r => rState s.dev r == 2).foldl resumeRing (untranslated s.dev) := rfl
  generalize (List.range 41).filter (fun r => rState s.dev r == 2) = rs at *
  have hsame (q : Fin 41) : rState (untranslated s.dev) q = rState s.dev q := rfl
  obtain ⟨hfold, hframe⟩ := resumeRing_foldl hrs (d := untranslated s.dev) hheld
  have hdma := foldl_same (f := fun d r => ringResumed r d) (g := fun d : Dev => (d.dma.enable, d.dma.cache, d.dma.reqs))
    (fun d r => by simp only [ringResumed_dma]) rs (untranslated s.dev)
  have hstate (q : Fin 41) : rState (rs.foldl (fun d r => ringResumed r d) (untranslated s.dev)) q =
      if rState s.dev q = 2 then 1 else rState s.dev q := by
    by_cases hq : q.val ∈ rs
    · obtain ⟨e, he, hview⟩ := foldl_at (g := fun d r => ringResumed r d) (fun d => rState d q) hnodup hq
        (fun d r _ hne => rState_ringResumed_ne hne.symm d) (untranslated s.dev)
      rw [hview, rState_ringResumed, he, hsame]
    · rw [if_neg fun h => hq ((hmem q).mpr h), hframe.rState, hsame]
      intro hword
      obtain ⟨r, hr, heq⟩ := List.mem_map.mp hword
      exact Fld.ringed_addr_ne (f := F.HIF_RING_STATUS_STATE) (g := F.HIF_RING_STATUS_STATE) (by decide) (by decide)
        (.inr fun h : r = q.val => hq (h ▸ hr)) heq
  rw [hfold] at heq
  generalize rs.foldl (fun d r => ringResumed r d) (untranslated s.dev) = b at *
  obtain ⟨henable, hcache⟩ := Prod.mk.inj hdma
  obtain ⟨hcache, hreqs⟩ := Prod.mk.inj hcache
  have hfrom : Within ((List.range 41).map fun q => F.HIF_RING_STATUS_STATE.addr q) [.regs, .dma] s.dev (untranslated s.dev) :=
    (Within.refl _ _ s.dev).only (only_onDma _ _)
  exact (hfrom.next hframe (List.map_subset _ fun r hr => List.mem_range.mpr (hrs r hr))).actsR (exec_of_core (g := atsEnable false) rfl hcore heq) ⟨henable, hcache, hreqs, hstate⟩

end

/-- Settles O36: responses and their failures, invalidations, and reads that end badly. -/
theorem pageResponsesAndReadRetries : Obligations.PageResponsesAndReadRetries := by
  unfold Obligations.PageResponsesAndReadRetries
  refine ⟨fun s addr hcore hsent => ⟨prgResponse_succeeds hcore addr hsent rfl, prgResponse_invalid hcore addr hsent rfl,
    prgResponse_failure hcore addr hsent rfl, priTimeout_fails hcore addr hsent rfl, priEnable_clears hcore,
    (Within.of_only (only_onDma s.dev fun m => { m with pri := true, stopped := false })).acts
      (exec_of_core (g := priEnable true s.sn) rfl hcore rfl) ⟨rfl, rfl⟩,
    (Within.of_only (only_onDma s.dev fun m => { m with rspFail := false })).acts
      (exec_of_core (g := fun d => onDma d fun m => { m with rspFail := false }) rfl hcore rfl) rfl⟩,
    fun s addr size r e hcore => ⟨invalidateRequest_invalidates hcore addr size, invalidateCompletion_counts hcore,
      completionTimeout_retries hcore r e, fun hstate hsecond => ?_, readRetry_reads hcore r, atsEnable_enables hcore,
      atsEnable_disables hcore⟩⟩
  refine (completionTimeout_fails hcore r e hstate hsecond).weaken fun t ht => ?_
  cases e <;> exact ht

end Sys2Proof.Machine
end

