-- ==== Sys2Proof/Proofs/ArbiterChoice.lean ====
section
/-! PROOFS. The arbiter's requests, its choice and the ring it serves (R354, R368). -/

namespace Sys2Proof.Machine

-- In order: a default argument `by simp` waits for every declaration before it, and many that wait take many threads.
set_option Elab.async false

/-! ### Requests (R354) -/

/-- The rings of the requesters, from the first to the one behind the last (Table 14-1). -/
def ringUnits : List (Nat × Nat) := [(0, 4), (4, 16), (16, 32), (32, 36), (36, 38), (38, 40), (40, 41)]

/-- A burst of ring `n` is ready. -/
def BurstReady (d : Dev) (g : GrantIn) (n : Nat) : Prop := n < 41 ∧ g.ready.getLsbD n = true ∧ rState d n ≠ 2 ∧ rState d n ≠ 3

/-- Requester `q` can serve ring `n`. -/
def Serves (d : Dev) (g : GrantIn) (q : Fin 8) (n : Nat) : Prop :=
  BurstReady d g n ∧ ∃ x, ringUnits[q.val]? = some x ∧ x.1 ≤ n ∧ n < x.2

/-- Requester `q` requests. -/
def Asked (d : Dev) (g : GrantIn) (q : Fin 8) : Prop := if q = 7 then g.ats = true else ∃ n, Serves d g q n

/-- It stands in no backoff. -/
def Free (d : Dev) (g : GrantIn) (q : Fin 8) : Prop := Asked d g q ∧ d.dma.backoff[q] = 0

theorem requesterOf_eq_any : ∀ q : Fin 8, ∀ n < 41,
    (requesterOf n = q.val ↔ (ringUnits[q.val]?).any (fun x => decide (x.1 ≤ n ∧ n < x.2)) = true) := by decide

theorem requesterOf_eq_iff {n : Nat} (hn : n < 41) (q : Fin 8) :
    requesterOf n = q.val ↔ ∃ x, ringUnits[q.val]? = some x ∧ x.1 ≤ n ∧ n < x.2 := by
  rw [requesterOf_eq_any q n hn, Option.any_eq_true]
  exact exists_congr fun x => and_congr_right fun _ => decide_eq_true_iff

theorem mem_askRings {d : Dev} {g : GrantIn} {q : Fin 8} {n : Nat} : n ∈ askRings d g q ↔ Serves d g q n := by
  rw [askRings, List.mem_filter, List.mem_range]
  simp only [Bool.and_eq_true, beq_iff_eq, bne_iff_ne]
  constructor
  · rintro ⟨hn, ⟨⟨hunit, hready⟩, hpaused⟩, hfaulted⟩
    exact ⟨⟨hn, hready, hpaused, hfaulted⟩, (requesterOf_eq_iff hn q).mp hunit⟩
  · rintro ⟨⟨hn, hready, hpaused, hfaulted⟩, hunit⟩
    exact ⟨hn, ⟨⟨(requesterOf_eq_iff hn q).mpr hunit, hready⟩, hpaused⟩, hfaulted⟩

theorem asks_iff {d : Dev} {g : GrantIn} {q : Fin 8} : asks d g q = true ↔ Asked d g q := by
  unfold asks Asked
  by_cases hq : q = 7
  · subst hq
    exact Iff.rfl
  · have hval : ¬ q.val = 7 := fun h => hq (Fin.ext h)
    rw [if_neg hval, if_neg hq, Bool.not_eq_true', List.isEmpty_eq_false_iff_exists_mem]
    exact exists_congr fun n => mem_askRings

theorem eligible_iff {d : Dev} {g : GrantIn} {q : Fin 8} (hfrozen : frozen d = false) : eligible d g q = true ↔ Free d g q := by
  simp only [eligible, Bool.and_eq_true, beq_iff_eq, hfrozen, Bool.not_false, and_true, asks_iff, Free]

/-! ### The choice (R368) -/

/-- How far behind the requester last granted `q` stands in rotation. -/
def turn (d : Dev) (q : Fin 8) : Nat := (q.val + 7 - d.dma.last.val) % 8

/-- It has credit, too. -/
def Credited (d : Dev) (g : GrantIn) (q : Fin 8) : Prop := Free d g q ∧ 0 < d.dma.credit[q]

/-- The first in rotation with credit, or the first of all. -/
def Chosen (d : Dev) (g : GrantIn) (r : Fin 8) : Prop :=
  Credited d g r ∧ (∀ q : Fin 8, Credited d g q → turn d r ≤ turn d q) ∨
    Free d g r ∧ (∀ q : Fin 8, ¬ Credited d g q) ∧ ∀ q : Fin 8, Free d g q → turn d r ≤ turn d q

theorem rotation_at : ∀ last r : Fin 8, ∀ h : (r.val + 7 - last.val) % 8 < 8, last + 1 + ⟨(r.val + 7 - last.val) % 8, h⟩ = r := by decide
theorem turn_at : ∀ last k : Fin 8, ((last + 1 + k).val + 7 - last.val) % 8 = k.val := by decide

theorem rotation_find {d : Dev} {p : Fin 8 → Bool} {r : Fin 8} (hr : p r = true) (hmin : ∀ q, p q = true → turn d r ≤ turn d q) :
    (rotation d).find? p = some r := by
  have hlt : turn d r < 8 := Nat.mod_lt _ (by decide)
  refine List.find?_eq_some_iff_getElem.mpr ⟨hr, turn d r, by simpa [rotation] using hlt, ?_, fun j hj => ?_⟩
  · simp only [rotation, List.getElem_map, List.getElem_finRange]
    exact rotation_at d.dma.last r hlt
  · have hq : (rotation d)[j]'(by simp [rotation]; omega) = d.dma.last + 1 + ⟨j, by omega⟩ := by simp [rotation]
    rw [hq, Bool.not_eq_true']
    refine Bool.eq_false_iff.mpr fun hp => ?_
    have h := hmin _ hp
    have hturn : turn d (d.dma.last + 1 + ⟨j, by omega⟩) = j := turn_at d.dma.last ⟨j, by omega⟩
    omega

theorem rotation_find_none {d : Dev} {p : Fin 8 → Bool} (h : ∀ q, p q = false) : (rotation d).find? p = none :=
  List.find?_eq_none.mpr fun q _ => by simp [h q]

theorem arbChoose_of_chosen {d : Dev} {g : GrantIn} {r : Fin 8} (hfrozen : frozen d = false) (h : Chosen d g r) : arbChoose d g = some r := by
  have hcredited (q : Fin 8) : (eligible d g q && decide (0 < d.dma.credit[q])) = true ↔ Credited d g q := by
    rw [Bool.and_eq_true, eligible_iff hfrozen, decide_eq_true_iff, Credited]
  have hfind : ((rotation d).filter (eligible d g)).find? (fun q : Fin 8 => decide (0 < d.dma.credit[q])) =
      (rotation d).find? fun q : Fin 8 => eligible d g q && decide (0 < d.dma.credit[q]) := by
    rw [List.find?_filter]
    exact congrArg (fun p => (rotation d).find? p) (funext fun q => by simp)
  unfold arbChoose
  extract_lets es
  rw [show es.find? (fun q : Fin 8 => decide (0 < d.dma.credit[q])) = _ from hfind]
  rcases h with ⟨hr, hmin⟩ | ⟨hr, hnone, hmin⟩
  · rw [rotation_find ((hcredited r).mpr hr) fun q hq => hmin q ((hcredited q).mp hq)]
  · rw [rotation_find_none fun q => Bool.eq_false_iff.mpr fun hq => hnone q ((hcredited q).mp hq)]
    refine List.head?_filter.trans (rotation_find ((eligible_iff hfrozen).mpr hr) fun q hq => hmin q ((eligible_iff hfrozen).mp hq))

/-- What is chosen is free. -/
theorem Chosen.free {d : Dev} {g : GrantIn} {r : Fin 8} (h : Chosen d g r) : Free d g r := by
  rcases h with ⟨hr, -⟩ | ⟨hr, -⟩
  · exact hr.1
  · exact hr

/-- No cycle idles in which a requester is free. -/
theorem arbIdle_of_free {d : Dev} {g : GrantIn} {r : Fin 8} (h : Free d g r) : arbIdle d g = false := by
  unfold arbIdle
  rw [Bool.and_eq_false_iff]
  refine .inr (Bool.eq_false_iff.mpr fun hall => ?_)
  have hr := List.all_eq_true.mp hall r (List.mem_finRange r)
  rw [asks_iff.mpr h.1, h.2] at hr
  exact absurd hr (by decide)

/-! ### The ring served (R354) -/

/-- The first behind `n` of a list, or its first. -/
def nextIn (n : Nat) (l : List Nat) : Option Nat := match l.find? fun r => decide (n < r) with
  | some r => some r
  | none => l.head?

/-- Round robin among 41 rings: the one served has the fewest rings before it. -/
theorem nextIn_spec (n : Nat) {l : List Nat} (hl : l.Pairwise (· < ·)) (hne : l ≠ []) (hlt : ∀ r ∈ l, r < 41) :
    ∃ r ∈ l, nextIn n l = some r ∧ (n < 41 → ∀ m ∈ l, (r + 40 - n) % 41 ≤ (m + 40 - n) % 41) := by
  unfold nextIn
  split
  · next r hr =>
    obtain ⟨hbehind, pre, post, rfl, hpre⟩ := List.find?_eq_some_iff_append.mp hr
    rw [decide_eq_true_iff] at hbehind
    refine ⟨r, by simp, rfl, fun hn m hm => ?_⟩
    have hr41 := hlt r (by simp)
    have hm41 := hlt m hm
    rcases List.mem_append.mp hm with hm | hm
    · have := hpre m hm
      rw [Bool.not_eq_true', decide_eq_false_iff_not] at this
      omega
    · rcases List.mem_cons.mp hm with rfl | hm
      · exact le_refl _
      · have := (List.pairwise_cons.mp (List.pairwise_append.mp hl).2.1).1 m hm
        omega
  · next hnone =>
    obtain ⟨r, rest, rfl⟩ := List.exists_cons_of_ne_nil hne
    refine ⟨r, List.mem_cons_self, rfl, fun hn m hm => ?_⟩
    have hle (x : Nat) (hx : x ∈ r :: rest) : x ≤ n := by simpa using List.find?_eq_none.mp hnone x hx
    have hr := hle r List.mem_cons_self
    have hmn := hle m hm
    rcases List.mem_cons.mp hm with rfl | hm
    · exact le_refl _
    · have := (List.pairwise_cons.mp hl).1 m hm
      omega

/-- The place of ring `n` in the order in which requester `q` serves. -/
def ringTurn (d : Dev) (q : Fin 8) (n : Nat) : Nat := (if q = 2 ∧ 20 ≤ n then 64 else 0) + (n + 40 - d.dma.served[q]) % 41

theorem ringFor_spec {d : Dev} {g : GrantIn} {q : Fin 8} (h : ∃ n, Serves d g q n) : ∃ n, ringFor d g q = some n ∧ Serves d g q n ∧
    (d.dma.served[q] < 41 → ∀ m, Serves d g q m → ringTurn d q n ≤ ringTurn d q m) := by
  have hsorted : (askRings d g q).Pairwise (· < ·) := List.pairwise_lt_range.filter _
  have hlt : ∀ r ∈ askRings d g q, r < 41 := fun r hr => (mem_askRings.mp hr).1.1
  obtain ⟨n₀, hn₀⟩ := h
  have hn₀ := mem_askRings.mpr hn₀
  by_cases hfirst : q = 2 ∧ (askRings d g q).any (fun r => decide (r < 20)) = true
  · have heq : ringFor d g q = nextIn d.dma.served[q] ((askRings d g q).filter fun r => decide (r < 20)) := by
      unfold ringFor
      extract_lets rs rs'
      rw [show rs' = rs.filter _ from if_pos hfirst]
      rfl
    obtain ⟨m, hm, hm20⟩ := List.any_eq_true.mp hfirst.2
    obtain ⟨n, hn, hnext, hmin⟩ := nextIn_spec d.dma.served[q] (hsorted.filter fun r => decide (r < 20))
      (List.ne_nil_of_mem (List.mem_filter.mpr ⟨hm, hm20⟩)) fun r hr => hlt r (List.mem_of_mem_filter hr)
    obtain ⟨hn, hn20⟩ := List.mem_filter.mp hn
    rw [decide_eq_true_iff] at hn20
    refine ⟨n, heq.trans hnext, mem_askRings.mp hn, fun hs x hx => ?_⟩
    rw [ringTurn, ringTurn, if_neg (by omega)]
    by_cases hx20 : x < 20
    · rw [if_neg (by omega)]
      have := hmin hs x (List.mem_filter.mpr ⟨mem_askRings.mpr hx, decide_eq_true hx20⟩)
      omega
    · rw [if_pos ⟨hfirst.1, by omega⟩]
      have := Nat.mod_lt (n + 40 - d.dma.served[q]) (show 0 < 41 by decide)
      omega
  · have heq : ringFor d g q = nextIn d.dma.served[q] (askRings d g q) := by
      unfold ringFor
      extract_lets rs rs'
      rw [show rs' = rs from if_neg hfirst]
      rfl
    obtain ⟨n, hn, hnext, hmin⟩ := nextIn_spec d.dma.served[q] hsorted (List.ne_nil_of_mem hn₀) hlt
    refine ⟨n, heq.trans hnext, mem_askRings.mp hn, fun hs x hx => ?_⟩
    have hx := mem_askRings.mpr hx
    have hsame : (if q = 2 ∧ 20 ≤ n then 64 else 0) = if q = 2 ∧ 20 ≤ x then 64 else 0 := by
      by_cases hq : q = 2
      · have hall (r : Nat) (hr : r ∈ askRings d g q) : 20 ≤ r := by
          by_contra hlt20
          exact hfirst ⟨hq, List.any_eq_true.mpr ⟨r, hr, decide_eq_true (by omega)⟩⟩
        rw [if_pos ⟨hq, hall n hn⟩, if_pos ⟨hq, hall x hx⟩]
      · rw [if_neg (fun h => hq h.1), if_neg fun h => hq h.1]
    rw [ringTurn, ringTurn, hsame]
    exact Nat.add_le_add_left (hmin hs x hx) _

end Sys2Proof.Machine
end

