-- ==== Sys2Proof/Proofs/ArbiterGrants.lean ====
section
/-! PROOFS. Grants, backoff and freezing (R367 to R374). -/

namespace Sys2Proof.Machine

-- In order: a default argument `by simp` waits for every declaration before it, and many that wait take many threads.
set_option Elab.async false

@[simp] theorem addr_arbBackoff : F.ARB_STATUS_BACKOFF.addr 0 = arbWord := rfl

/-! ### Grants (R368, R369) -/

/-- A burst of requester `r` is issued. -/
def burstIssued (g : GrantIn) (r : Fin 8) (d : Dev) : Dev :=
  perf (emit (onDma d fun m => { m with
    credit := m.credit.set r (m.credit[r] - (cdiv g.bytes 64 : Nat)), boLen := m.boLen.set r 1, last := r,
    occ := if g.write then cdiv g.bytes 64 - 1 else 0,
    served := match ringFor d g r with | some k => m.served.set r k | none => m.served }) (.burst r (ringFor d g r))) 9 r

/-- It comes back. -/
def burstReturned (r : Fin 8) (d : Dev) : Dev :=
  perf (backoffBits (sat (onDma d fun m => { m with
    backoff := m.backoff.set r m.boLen[r], boLen := m.boLen.set r (min (2 * m.boLen[r]) 128) }) F.ARB_RET_RET r)) 0xA r

/-- A null grant. -/
def grantNull (d : Dev) : Dev := perf (sat d F.ARB_NULL 0) 0xB 0

theorem arbApply_eq (g : GrantIn) (r : Fin 8) (d : Dev) : arbApply g r d =
    if (!eligible d g r) = true then grantNull d else if g.accept = true then burstIssued g r d else burstReturned r d := rfl

theorem within_backoffBits (d : Dev) : Within [arbWord] [.regs] d (backoffBits d) := (Within.refl _ _ d).wr

theorem within_grantNull (d : Dev) : Within [F.ARB_NULL.addr 0] [.regs, .pm] d (grantNull d) := (Within.refl _ _ d).sat.perf

theorem rd_grantNull (d : Dev) : rd (grantNull d) F.ARB_NULL = satAdd 32 (rd d F.ARB_NULL) 1 := by
  have hperf : rd (grantNull d) F.ARB_NULL = rd (sat d F.ARB_NULL 0) F.ARB_NULL := (evals_perf _ 0xB 0 1).within.rd (by simp)
  exact hperf.trans (rd_sat_same _ (by decide) _ _)

/-- What an issued burst of `r` does to the arbiter. -/
structure Issued (g : GrantIn) (r : Fin 8) (a b : Dev) : Prop where
  credit : b.dma.credit[r] = a.dma.credit[r] - ((g.bytes + 63) / 64 : Nat)
  boLen : b.dma.boLen[r] = 1
  last : b.dma.last = r
  backoff : b.dma.backoff = a.dma.backoff
  sent : ∃ k, Sent a b [.burst r k] ∧ (r ≠ 7 → ∃ n, k = some n ∧
    (Serves a g r n ∧ (a.dma.served[r] < 41 → ∀ m, Serves a g r m → ringTurn a r n ≤ ringTurn a r m)) ∧ b.dma.served[r] = n)
  others : ∀ q : Fin 8, q ≠ r → b.dma.credit[q] = a.dma.credit[q]

theorem Issued.congr {g : GrantIn} {r : Fin 8} {a b c : Dev} (h : Issued g r a b) (hdma : ∃ n k, c.dma = { b.dma with occ := n, choice := k })
    (hout : c.out = b.out) : Issued g r a c := by
  obtain ⟨n, k, hdma⟩ := hdma
  obtain ⟨x, hsent, hserved⟩ := h.sent
  refine ⟨by rw [hdma]; exact h.credit, by rw [hdma]; exact h.boLen, by rw [hdma]; exact h.last, by rw [hdma]; exact h.backoff,
    ⟨x, by rw [Sent, hout]; exact hsent, fun hr => ?_⟩, fun q hq => by rw [hdma]; exact h.others q hq⟩
  have hsame : c.dma.served = b.dma.served := by simp only [hdma]
  rw [hsame]
  exact hserved hr

theorem within_burstIssued (g : GrantIn) (r : Fin 8) (d : Dev) : Within [] [.dma, .out, .pm] d (burstIssued g r d) :=
  (((Within.refl _ _ d).only (only_onDma d _)).emit).perf

theorem burstIssued_dma (g : GrantIn) (r : Fin 8) (d : Dev) : (burstIssued g r d).dma = { d.dma with
    credit := d.dma.credit.set r (d.dma.credit[r] - (cdiv g.bytes 64 : Nat)), boLen := d.dma.boLen.set r 1, last := r,
    occ := if g.write then cdiv g.bytes 64 - 1 else 0,
    served := match ringFor d g r with | some k => d.dma.served.set r k | none => d.dma.served } :=
  (evals_perf _ 9 r 1).parts .dma (by simp)

theorem burstIssued_out (g : GrantIn) (r : Fin 8) (d : Dev) : (burstIssued g r d).out = d.out ++ [.burst r (ringFor d g r)] :=
  (evals_perf _ 9 r 1).parts .out (by simp)

theorem issued_burstIssued {g : GrantIn} {r : Fin 8} {d : Dev} (h : Asked d g r) : Issued g r d (burstIssued g r d) := by
  have hdma := burstIssued_dma g r d
  have hout := burstIssued_out g r d
  generalize burstIssued g r d = b at *
  refine ⟨by rw [hdma]; simp [cdiv], by rw [hdma]; simp, by rw [hdma], by rw [hdma], ⟨ringFor d g r, hout, fun hr => ?_⟩, fun q hq => ?_⟩
  · rw [Asked, if_neg hr] at h
    obtain ⟨n, hn, hserves, hmin⟩ := ringFor_spec h
    have hset : b.dma.served = d.dma.served.set r n := by
      rw [congrArg Dma.served hdma]
      simp only [hn]
    exact ⟨n, hn, ⟨hserves, hmin⟩, by rw [hset]; simp⟩
  · have hne : r.val ≠ q.val := fun h => hq (Fin.ext h.symm)
    rw [hdma]
    simp [Vector.getElem_set_ne, hne]

/-- What a returned burst of `r` does to the arbiter. -/
structure Returned (r : Fin 8) (a b : Dev) : Prop where
  backoff : b.dma.backoff[r] = a.dma.boLen[r]
  boLen : b.dma.boLen[r] = min (2 * a.dma.boLen[r]) 128
  credit : b.dma.credit = a.dma.credit
  last : b.dma.last = a.dma.last
  out : b.out = a.out
  count : rd b F.ARB_RET_RET r = satAdd 16 (rd a F.ARB_RET_RET r) 1

theorem Returned.congr {r : Fin 8} {a b c : Dev} (h : Returned r a b) (hdma : ∃ n k, c.dma = { b.dma with occ := n, choice := k })
    (hout : c.out = b.out) (hregs : c.regs = b.regs) : Returned r a c := by
  obtain ⟨n, k, hdma⟩ := hdma
  refine ⟨by rw [hdma]; exact h.backoff, by rw [hdma]; exact h.boLen, by rw [hdma]; exact h.credit, by rw [hdma]; exact h.last,
    hout.trans h.out, ?_⟩
  rw [← h.count, rd, rd, rdWord_congr hregs]

theorem within_burstReturned (r : Fin 8) (d : Dev) :
    Within [F.ARB_RET_RET.addr r, arbWord] [.regs, .dma, .pm] d (burstReturned r d) := by
  have hsat : Within [F.ARB_RET_RET.addr r, arbWord] [.regs, .dma, .pm] d (sat (onDma d fun m => { m with
      backoff := m.backoff.set r m.boLen[r], boLen := m.boLen.set r (min (2 * m.boLen[r]) 128) }) F.ARB_RET_RET r) :=
    ((Within.refl _ _ d).only (only_onDma d _)).sat
  exact (hsat.next (within_backoffBits _)).perf

theorem returned_burstReturned (r : Fin 8) (d : Dev) : Returned r d (burstReturned r d) := by
  have hperf := evals_perf (backoffBits (sat (onDma d fun m => { m with
    backoff := m.backoff.set r m.boLen[r], boLen := m.boLen.set r (min (2 * m.boLen[r]) 128) }) F.ARB_RET_RET r)) 0xA r 1
  have hdma : (burstReturned r d).dma = { d.dma with
    backoff := d.dma.backoff.set r d.dma.boLen[r], boLen := d.dma.boLen.set r (min (2 * d.dma.boLen[r]) 128) } :=
    hperf.parts .dma (by simp)
  have hout : (burstReturned r d).out = d.out := hperf.parts .out (by simp)
  have hcount : rd (burstReturned r d) F.ARB_RET_RET r = satAdd 16 (rd d F.ARB_RET_RET r) 1 := by
    rw [show rd (burstReturned r d) F.ARB_RET_RET r = _ from hperf.within.rd (by simp), backoffBits, rd_wr_parted _ (by decide)]
    exact rd_sat_same _ (by decide) _ _
  generalize burstReturned r d = b at *
  exact ⟨by rw [hdma]; simp, by rw [hdma]; simp, by rw [hdma], by rw [hdma], hout, hcount⟩

/-- A cycle that is not idle in backoff, or one that is and is counted. -/
def idleCounted (g : GrantIn) (d : Dev) : Dev := if arbIdle d g = true then sat d F.ARB_IDLE 0 else d

theorem within_idleCounted (g : GrantIn) (d : Dev) : Within [F.ARB_IDLE.addr 0] [.regs] d (idleCounted g d) :=
  .ite (fun _ => (Within.refl _ _ d).sat) fun _ => .refl _ _ d

/-- Counting an idle cycle changes nothing that grants rest on. -/
theorem idleCounted_of_free {d : Dev} {g : GrantIn} {r : Fin 8} (h : Free d g r) : idleCounted g d = d :=
  if_neg (by simp [arbIdle_of_free h])

theorem free_idleCounted {d : Dev} {g : GrantIn} {q : Fin 8} : Free (idleCounted g d) g q ↔ Free d g q := by
  have hidle := within_idleCounted g d
  have hready (n : Nat) : BurstReady (idleCounted g d) g n ↔ BurstReady d g n := and_congr_right fun hn => by
    rw [(hidle.ringStill (by decide) (by omega)).2.2]
  have hserves (n : Nat) : Serves (idleCounted g d) g q n ↔ Serves d g q n := and_congr_left fun _ => hready n
  have hdma : (idleCounted g d).dma = d.dma := hidle.parts .dma (by simp)
  unfold Free Asked
  rw [hdma]
  simp only [hserves]

/-- The choice of a cycle is kept for the next. -/
def choiceKept (next : Option (Fin 8)) (d : Dev) : Dev := onDma d fun m => { m with choice := if m.occ = 0 then next else none }

section
variable {d : Dev} {g : GrantIn} {r : Fin 8} (hfrozen : frozen d = false)
include hfrozen

theorem arbGrant_combinational (hmode : rd d F.ARB_STATUS_MODE = 1) (hocc : d.dma.occ = 0) (h : Chosen d g r) :
    arbGrant g d = onDma (arbApply g r d) fun m => { m with occ := max m.occ 1 } := by
  have hchoose := arbChoose_of_chosen hfrozen h
  unfold arbGrant
  extract_lets tick d₁
  have h₁ : d₁ = d := if_neg (by simp [arbIdle_of_free h.free])
  rw [h₁, if_pos (rdB_of_bit.2 hmode), if_pos hocc, hchoose]

theorem arbGrant_registered (hmode : rd d F.ARB_STATUS_MODE = 0) (hchoice : d.dma.choice = some r) :
    arbGrant g d = choiceKept (arbChoose (idleCounted g d) g) (arbApply g r (idleCounted g d)) := by
  have hidle := within_idleCounted g d
  unfold arbGrant
  extract_lets tick d₁ next d₂
  have h₁ : d₁ = idleCounted g d := rfl
  have hmode₁ : rdB d₁ F.ARB_STATUS_MODE = false := by
    rw [h₁, hidle.rdB (by decide)]
    exact rdB_of_bit.1 hmode
  have hfrozen₁ : frozen d₁ = false := by
    rw [h₁, frozen, hidle.rdB (by decide)]
    exact hfrozen
  have hchoice₁ : d₁.dma.choice = some r := by rw [h₁, hidle.parts .dma (by simp), hchoice]
  have h₂ : d₂ = arbApply g r d₁ := by
    unfold d₂
    rw [hchoice₁]
  have hnext : next = arbChoose d₁ g := if_neg (by simp [hfrozen₁])
  rw [hmode₁, if_neg Bool.false_ne_true, h₂, hnext, h₁]
  rfl

end

section
variable {s : State} (hcore : s.dev.pwr.core = true) (g : GrantIn) (r : Fin 8)
include hcore

theorem arbWindow_reloads : Acts [.dma] .arbWindow s fun t => ∀ q : Fin 8, t.dev.dma.credit[q] =
    ((max 1 (rd s.dev F.ARB_WEIGHT_W q) : Nat) : Int) + min (s.dev.dma.credit[q]) 0 := by
  refine (Within.of_only (only_onDma s.dev fun m => { m with
    credit := m.credit.mapIdx fun r c => ((max 1 (rd s.dev F.ARB_WEIGHT_W r) : Nat) : Int) + min c 0 })).acts
    (exec_of_core (g := arbWindow) rfl hcore rfl) fun q => ?_
  exact Vector.getElem_mapIdx _

theorem backoffExpiry_frees : ActsR [F.ARB_STATUS_BACKOFF.addr 0] [.dma] (.backoffExpiry r) s fun t =>
    t.dev.dma.backoff[r] = 0 ∧ ∀ q : Fin 8, q ≠ r → t.dev.dma.backoff[q] = s.dev.dma.backoff[q] := by
  have hfrom : Within [arbWord] [.regs, .dma] s.dev (onDma s.dev fun m => { m with backoff := m.backoff.set r 0 }) :=
    (Within.refl _ _ s.dev).only (only_onDma _ _)
  refine (hfrom.next (within_backoffBits _)).actsR (exec_of_core (g := backoffEnd r) rfl hcore rfl) ⟨?_, fun q hq => ?_⟩
  · exact Vector.getElem_set_self r.isLt
  · exact Vector.getElem_set_ne r.isLt q.isLt fun h => hq (Fin.ext h.symm)

variable (hfrozen : frozen s.dev = false)
include hfrozen

theorem arbGrant_combinational_grants (hmode : rd s.dev F.ARB_STATUS_MODE = 1) (hocc : s.dev.dma.occ = 0) (h : Chosen s.dev g r) :
    (g.accept = true → ActsR [] [.dma, .out, .pm] (.arbGrant g) s fun t => Issued g r s.dev t.dev) ∧
    (g.accept = false → ActsR [F.ARB_RET_RET.addr r, arbWord] [.dma, .pm] (.arbGrant g) s fun t => Returned r s.dev t.dev) := by
  have heq := arbGrant_combinational hfrozen hmode hocc h
  rw [arbApply_eq, if_neg (by simp [(eligible_iff hfrozen).mpr h.free])] at heq
  refine ⟨fun haccept => ?_, fun haccept => ?_⟩
  · rw [if_pos haccept] at heq
    have hframe := within_burstIssued g r s.dev
    have hissued := issued_burstIssued h.free.1
    obtain ⟨b, hb⟩ : ∃ b, b = burstIssued g r s.dev := ⟨_, rfl⟩
    rw [← hb] at heq hframe hissued
    exact ((hframe.mono : Within [] [.regs, .dma, .out, .pm] s.dev b).only (only_onDma b _)).actsR
      (exec_of_core (g := arbGrant g) rfl hcore heq) (hissued.congr ⟨_, _, rfl⟩ rfl)
  · rw [if_neg (by simp [haccept])] at heq
    have hframe := within_burstReturned r s.dev
    have hreturned := returned_burstReturned r s.dev
    obtain ⟨b, hb⟩ : ∃ b, b = burstReturned r s.dev := ⟨_, rfl⟩
    rw [← hb] at heq hframe hreturned
    exact (hframe.only (only_onDma b _)).actsR (exec_of_core (g := arbGrant g) rfl hcore heq) (hreturned.congr ⟨_, _, rfl⟩ rfl rfl)

variable (hmode : rd s.dev F.ARB_STATUS_MODE = 0) (hchoice : s.dev.dma.choice = some r)
include hmode hchoice

theorem arbGrant_registered_issues (hfree : Free s.dev g r) (haccept : g.accept = true) :
    ActsR [F.ARB_IDLE.addr 0] [.dma, .out, .pm] (.arbGrant g) s fun t => Issued g r s.dev t.dev ∧
      (Chosen s.dev g r → g.write = false ∨ g.bytes ≤ 64 → t.dev.dma.choice = some r) ∧
      (g.write = true → 64 < g.bytes → t.dev.dma.choice = none) := by
  have heq := arbGrant_registered (g := g) hfrozen hmode hchoice
  rw [idleCounted_of_free hfree, arbApply_eq, if_neg (by simp [(eligible_iff hfrozen).mpr hfree]), if_pos haccept] at heq
  have hframe := within_burstIssued g r s.dev
  have hissued := issued_burstIssued hfree.1
  have hocc : (burstIssued g r s.dev).dma.occ = if g.write then cdiv g.bytes 64 - 1 else 0 := by rw [burstIssued_dma]
  obtain ⟨b, hb⟩ : ∃ b, b = burstIssued g r s.dev := ⟨_, rfl⟩
  rw [← hb] at heq hframe hissued hocc
  have hkept : (choiceKept (arbChoose s.dev g) b).dma.choice = if b.dma.occ = 0 then arbChoose s.dev g else none := rfl
  refine ((hframe.mono : Within [F.ARB_IDLE.addr 0] [.regs, .dma, .out, .pm] s.dev b).only (only_onDma b _)).actsR
    (exec_of_core (g := arbGrant g) rfl hcore heq) ⟨hissued.congr ⟨_, _, rfl⟩ rfl, fun hchosen hshort => ?_, fun hwrite hlong => ?_⟩
  · have hzero : b.dma.occ = 0 := by
      rw [hocc]
      rcases hshort with h | h
      · simp [h]
      · split
        · rw [cdiv]; omega
        · rfl
    exact hkept.trans ((if_pos hzero).trans (arbChoose_of_chosen hfrozen hchosen))
  · exact hkept.trans (if_neg (by rw [hocc, if_pos hwrite, cdiv]; omega))

theorem arbGrant_registered_returns (hfree : Free s.dev g r) (haccept : g.accept = false) :
    ActsR [F.ARB_IDLE.addr 0, F.ARB_RET_RET.addr r, arbWord] [.dma, .pm] (.arbGrant g) s fun t => Returned r s.dev t.dev := by
  have heq := arbGrant_registered (g := g) hfrozen hmode hchoice
  rw [idleCounted_of_free hfree, arbApply_eq, if_neg (by simp [(eligible_iff hfrozen).mpr hfree]), if_neg (by simp [haccept])] at heq
  have hframe : Within [F.ARB_IDLE.addr 0, F.ARB_RET_RET.addr r, arbWord] [.regs, .dma, .pm] s.dev (burstReturned r s.dev) :=
    (within_burstReturned r s.dev).mono
  have hreturned := returned_burstReturned r s.dev
  obtain ⟨b, hb⟩ : ∃ b, b = burstReturned r s.dev := ⟨_, rfl⟩
  rw [← hb] at heq hframe hreturned
  exact (hframe.only (only_onDma b _)).actsR (exec_of_core (g := arbGrant g) rfl hcore heq) (hreturned.congr ⟨_, _, rfl⟩ rfl rfl)

theorem arbGrant_registered_null (hfree : ¬ Free s.dev g r) :
    ActsR [F.ARB_IDLE.addr 0, F.ARB_NULL.addr 0] [.dma, .pm] (.arbGrant g) s fun t =>
      t.dev.dma.credit = s.dev.dma.credit ∧ t.dev.dma.backoff = s.dev.dma.backoff ∧ t.dev.dma.boLen = s.dev.dma.boLen ∧
      rd t.dev F.ARB_NULL = satAdd 32 (rd s.dev F.ARB_NULL) 1 := by
  have heq := arbGrant_registered (g := g) hfrozen hmode hchoice
  have hidle := within_idleCounted g s.dev
  have hfrozen' : frozen (idleCounted g s.dev) = false := by
    rw [frozen, hidle.rdB (by decide)]
    exact hfrozen
  have hnone : eligible (idleCounted g s.dev) g r = false := by
    rw [Bool.eq_false_iff, ne_eq, eligible_iff hfrozen', free_idleCounted]
    exact hfree
  rw [arbApply_eq, hnone, if_pos (by rfl)] at heq
  have hnull : rd (idleCounted g s.dev) F.ARB_NULL = rd s.dev F.ARB_NULL := hidle.rd (by decide)
  have hcount := (rd_grantNull (idleCounted g s.dev)).trans (by rw [hnull])
  have hgrant := within_grantNull (idleCounted g s.dev)
  have hdma : (grantNull (idleCounted g s.dev)).dma = s.dev.dma := (hgrant.parts .dma (by simp)).trans (hidle.parts .dma (by simp))
  have hframe : Within [F.ARB_IDLE.addr 0, F.ARB_NULL.addr 0] [.regs, .dma, .pm] s.dev (grantNull (idleCounted g s.dev)) :=
    (hidle.mono (by simp) (by simp)).next hgrant
  obtain ⟨b, hb⟩ : ∃ b, b = grantNull (idleCounted g s.dev) := ⟨_, rfl⟩
  rw [← hb] at heq hframe hdma hcount
  have hcredit : b.dma.credit = s.dev.dma.credit := by rw [hdma]
  have hbackoff : b.dma.backoff = s.dev.dma.backoff := by rw [hdma]
  have hlen : b.dma.boLen = s.dev.dma.boLen := by rw [hdma]
  exact (hframe.only (only_onDma b _)).actsR (exec_of_core (g := arbGrant g) rfl hcore heq) ⟨hcredit, hbackoff, hlen, hcount⟩

end

/-! ### Freezing (R371, R372, R374) -/

/-- What stops the port. -/
def portStops (d : Dev) : Bool := rdB d F.ARB_CTL_FREEZE || !d.dma.link || !d.dma.bme

/-- What keeps the arbiter combinational (R371). -/
def modeCause (d : Dev) : Nat :=
  if d.dma.startup then 1 else if rdB d F.DBG_CTL_ARB_TEST then 2 else if d.dma.recovery then 3 else 0

/-- A choice of the mode that ends is a null grant. -/
def modeNull (d : Dev) : Dev :=
  if (rdB d F.ARB_STATUS_MODE != (modeCause d != 0) && d.dma.choice.isSome) = true then
    grantNull { d with dma := { d.dma with choice := none } } else d

theorem arbStat_eq (d : Dev) : arbStat d =
    let e := wrB (wr (wrB (modeNull d) F.ARB_STATUS_MODE 0 (modeCause d != 0)) F.ARB_STATUS_MODE_CAUSE 0 (modeCause d))
      F.ARB_STATUS_FROZEN 0 (portStops d)
    if portStops d = true then e else wrB e F.ARB_STATUS_DRAINED 0 false := rfl

theorem modeNull_dma (d : Dev) : ∃ c, (modeNull d).dma = { d.dma with choice := c } := by
  unfold modeNull
  split
  · exact ⟨none, (within_grantNull _).parts .dma (by simp)⟩
  · exact ⟨_, rfl⟩

theorem arbStat_dma (d : Dev) : ∃ c, (arbStat d).dma = { d.dma with choice := c } := by
  obtain ⟨c, hc⟩ := modeNull_dma d
  refine ⟨c, ?_⟩
  rw [arbStat_eq]
  dsimp only
  split
  · exact hc
  · exact hc

/-- What ARB_STATUS says once the port has been evaluated. -/
theorem arbStat_status (d : Dev) : frozen (arbStat d) = portStops d ∧ (portStops d = false → rd (arbStat d) F.ARB_STATUS_DRAINED = 0) ∧
    rd (arbStat d) F.ARB_STATUS_MODE = (modeCause d != 0).toNat := by
  have hbit (b : Bool) : (b.toNat != 0) = b := by cases b <;> rfl
  rw [arbStat_eq]
  dsimp only
  cases portStops d with
  | true =>
    rw [if_pos rfl]
    refine ⟨?_, fun h => absurd h (by decide), ?_⟩
    · rw [frozen, rdB, rd_wrB_bit _ (by decide)]
      rfl
    · rw [rd_wrB_apart _ (by decide), rd_wr_apart _ (by decide), rd_wrB_bit _ (by decide)]
  | false =>
    rw [if_neg Bool.false_ne_true]
    refine ⟨?_, fun _ => ?_, ?_⟩
    · rw [frozen, rdB, rd_wrB_apart _ (by decide), rd_wrB_bit _ (by decide)]
      rfl
    · rw [rd_wrB_bit _ (by decide)]
      rfl
    · rw [rd_wrB_apart _ (by decide), rd_wrB_apart _ (by decide), rd_wr_apart _ (by decide), rd_wrB_bit _ (by decide)]

/-! ### Pending messages (R349, R374) -/

/-- One vector's pending message leaves. -/
def msiLeft (d : Dev) (v : Nat) : Dev :=
  if ((rd d F.MSIX_PBA (v / 32)).testBit (v % 32) && !rdB d F.MSIX_CTL v) = true then
    sendMsi (wr d F.MSIX_PBA (v / 32) (rd d F.MSIX_PBA (v / 32) - 2 ^ (v % 32))) v else d

theorem msiFlush_eq (d : Dev) : msiFlush d = if frozen d = true then d else (List.range 64).foldl msiLeft d := rfl

/-- The bit of a vector in MSIX_PBA. -/
def pending (d : Dev) (v : Nat) : Bool := (rd d F.MSIX_PBA (v / 32)).testBit (v % 32)

/-- MSIX_PBA. -/
abbrev pbaWords : List Nat := [F.MSIX_PBA.addr 0, F.MSIX_PBA.addr 1]

theorem addr_pba_mem {v : Nat} (hv : v < 64) : F.MSIX_PBA.addr (v / 32) ∈ pbaWords := by
  rcases (show v / 32 = 0 ∨ v / 32 = 1 by omega) with h | h <;> simp [h]

/-- A message leaves, and its bit clears. -/
def msiSent (d : Dev) (v : Nat) : Dev :=
  perf (emit (wr d F.MSIX_PBA (v / 32) (setBit (rd d F.MSIX_PBA (v / 32)) (v % 32) false)) (.msix v)) 0xF v

theorem within_msiSent (d : Dev) {v : Nat} (hv : v < 64) : Within pbaWords [.regs, .out, .pm] d (msiSent d v) :=
  (((Within.refl _ _ d).wr (addr_pba_mem hv)).emit).perf

theorem pending_msiSent (d : Dev) {v u : Nat} (hv : v < 64) (hu : u < 64) :
    pending (msiSent d v) u = if u = v then false else pending d u := by
  have hperf : pending (msiSent d v) u = pending (wr d F.MSIX_PBA (v / 32) (setBit (rd d F.MSIX_PBA (v / 32)) (v % 32) false)) u :=
    congrArg (Nat.testBit · (u % 32)) ((evals_perf _ 0xF v 1).within.rd (by simp))
  rw [hperf]
  by_cases hword : u / 32 = v / 32
  · have hval : setBit (rd d F.MSIX_PBA (v / 32)) (v % 32) false < 2 ^ 32 :=
      setBit_lt false (rd_lt d F.MSIX_PBA (v / 32)) (Nat.mod_lt _ (by decide))
    rw [pending, hword, rd_wr_fits _ ⟨by decide, hval⟩, testBit_setBit, pending, hword]
    exact if_congr (by omega) rfl rfl
  · rw [pending, rd_wr_index _ (by decide) (show v / 32 < 2 by omega) (show u / 32 < 2 by omega) hword,
      if_neg (by rintro rfl; exact hword rfl)]
    rfl

theorem msiLeft_eq {d : Dev} (hfrozen : frozen d = false) {v : Nat} :
    msiLeft d v = if pending d v = true ∧ rdB d F.MSIX_CTL v = false then msiSent d v else d := by
  unfold msiLeft
  refine ite_congr (propext (by rw [Bool.and_eq_true, Bool.not_eq_true']; rfl)) (fun h => ?_) fun _ => rfl
  obtain ⟨hpend, hopen⟩ := h
  have hset : rd d F.MSIX_PBA (v / 32) - 2 ^ (v % 32) = setBit (rd d F.MSIX_PBA (v / 32)) (v % 32) false := by
    rw [setBit, show (rd d F.MSIX_PBA (v / 32)).testBit (v % 32) = true from hpend]
    rfl
  rw [hset]
  refine if_neg ?_
  have hctl : rdB (wr d F.MSIX_PBA (v / 32) (setBit (rd d F.MSIX_PBA (v / 32)) (v % 32) false)) F.MSIX_CTL v = false := by
    rw [rdB, rd_wr_parted _ (by decide)]
    exact hopen
  have hstop : rdB (wr d F.MSIX_PBA (v / 32) (setBit (rd d F.MSIX_PBA (v / 32)) (v % 32) false)) F.ARB_STATUS_FROZEN = false := by
    rw [rdB, rd_wr_parted _ (by decide)]
    exact hfrozen
  rw [hctl, hstop]
  decide

/-- What the flush has done once the vectors `l` are through. -/
theorem msiLeft_foldl {l : List Nat} (hl : ∀ v ∈ l, v < 64) {d : Dev} (hfrozen : frozen d = false) :
    Within pbaWords [.regs, .out, .pm] d (l.foldl msiLeft d) ∧
      ∀ v < 64, (v ∈ l ∨ pending d v = false) → rdB d F.MSIX_CTL v = false → pending (l.foldl msiLeft d) v = false := by
  induction l generalizing d with
  | nil => exact ⟨.refl _ _ d, fun v _ h _ => h.resolve_left List.not_mem_nil⟩
  | cons u l ih =>
    have hu := hl u List.mem_cons_self
    have hframe : Within pbaWords [.regs, .out, .pm] d (msiLeft d u) := by
      rw [msiLeft_eq hfrozen]
      exact .ite (fun _ => within_msiSent d hu) fun _ => .refl _ _ d
    have hctl (v : Nat) : rdB (msiLeft d u) F.MSIX_CTL v = rdB d F.MSIX_CTL v :=
      hframe.rdB (by simpa using ⟨Fld.addr_ne (by decide) _ _, Fld.addr_ne (by decide) _ _⟩)
    have hpend (v : Nat) (hv : v < 64) (hopen : rdB d F.MSIX_CTL v = false) (h : v = u ∨ pending d v = false) :
        pending (msiLeft d u) v = false := by
      rw [msiLeft_eq hfrozen]
      split
      · rw [pending_msiSent d hu hv]
        split
        · rfl
        · next hne => exact h.resolve_left hne
      · next hnot =>
        rcases h with rfl | h
        · exact Bool.eq_false_iff.mpr fun hp => hnot ⟨hp, hopen⟩
        · exact h
    obtain ⟨hrest, hflushed⟩ := ih (fun v hv => hl v (List.mem_cons_of_mem u hv)) (d := msiLeft d u)
      ((hframe.rdB (by decide)).trans hfrozen)
    refine ⟨hframe.trans hrest, fun v hv h hopen => hflushed v hv ?_ ((hctl v).trans hopen)⟩
    rcases h with h | h
    · rcases List.mem_cons.mp h with h | h
      · exact .inr (hpend v hv hopen (.inl h))
      · exact .inl h
    · exact .inr (hpend v hv hopen (.inr h))

theorem msiFlush_spec {d : Dev} (hfrozen : frozen d = false) : Within pbaWords [.regs, .out, .pm] d (msiFlush d) ∧
    ∀ v < 64, rdB d F.MSIX_CTL v = false → pending (msiFlush d) v = false := by
  rw [msiFlush_eq, if_neg (by simp [hfrozen])]
  obtain ⟨hframe, hpend⟩ := msiLeft_foldl (l := List.range 64) (fun v hv => List.mem_range.mp hv) hfrozen
  exact ⟨hframe, fun v hv hopen => hpend v hv (.inl (List.mem_range.mpr hv)) hopen⟩

/-! ### The port stops and goes on -/

/-- Every backoff ends. -/
def backoffCleared (d : Dev) : Dev := wr (onDma d fun m => { m with backoff := Vector.replicate 8 0 }) F.ARB_STATUS_BACKOFF 0 0

theorem arbChange_eq (d : Dev) :
    arbChange d = if (frozen d && !frozen (arbStat d)) = true then msiFlush (backoffCleared (arbStat d)) else arbStat d := rfl

theorem arbChange_stops {d : Dev} (h : portStops d = true) : arbChange d = arbStat d := by
  rw [arbChange_eq, (arbStat_status d).1, h, if_neg (by simp)]

/-- The port goes on: nothing is frozen or drained, and where it was frozen its backoffs and messages are gone. -/
structure PortGoes (a b : Dev) : Prop where
  frozen : frozen b = false
  drained : rd b F.ARB_STATUS_DRAINED = 0
  recovered : Machine.frozen a = true → b.dma.backoff = Vector.replicate 8 0 ∧ rd b F.ARB_STATUS_BACKOFF = 0 ∧
    ∀ v : Fin 64, rd a F.MSIX_CTL v = 0 → (rd b F.MSIX_PBA (v / 32)).testBit (v % 32) = false

theorem arbChange_goes {d : Dev} (h : portStops d = false) :
    Within ([arbWord, F.ARB_NULL.addr 0] ++ pbaWords) [.regs, .dma, .pm, .out] d (arbChange d) ∧ PortGoes d (arbChange d) := by
  obtain ⟨hfrozen, hdrained, -⟩ := arbStat_status d
  rw [h] at hfrozen
  have hdrained := hdrained h
  have hstat : Within ([arbWord, F.ARB_NULL.addr 0] ++ pbaWords) [.regs, .dma, .pm, .out] d (arbStat d) := (within_arbStat d).mono
  rw [arbChange_eq, hfrozen]
  cases hwas : frozen d with
  | false => exact ⟨hstat, hfrozen, hdrained, fun h => absurd h (by simp [hwas])⟩
  | true =>
    rw [if_pos (by decide)]
    have hctl (v : Nat) : rd (arbStat d) F.MSIX_CTL v = rd d F.MSIX_CTL v :=
      (within_arbStat d).rd (by simpa using ⟨Fld.addr_ne (f := F.MSIX_CTL) (g := F.ARB_STATUS_MODE) (by decide) v 0,
        Fld.addr_ne (f := F.MSIX_CTL) (g := F.ARB_NULL) (by decide) v 0⟩)
    generalize arbStat d = a at *
    have hcleared : Within ([arbWord, F.ARB_NULL.addr 0] ++ pbaWords) [.regs, .dma, .pm, .out] a (backoffCleared a) :=
      ((Within.refl _ _ a).only (only_onDma a _)).wr
    have hcfrozen : frozen (backoffCleared a) = false := by
      rw [frozen, backoffCleared, rdB, rd_wr_apart _ (by decide)]
      exact hfrozen
    have hcdrained : rd (backoffCleared a) F.ARB_STATUS_DRAINED = 0 := by
      rw [backoffCleared, rd_wr_apart _ (by decide)]
      exact hdrained
    have hczero : rd (backoffCleared a) F.ARB_STATUS_BACKOFF = 0 := rd_wr_fits _ (by decide)
    have hcctl (v : Nat) : rd (backoffCleared a) F.MSIX_CTL v = rd d F.MSIX_CTL v := by
      rw [backoffCleared, rd_wr_parted _ (by decide)]
      exact hctl v
    have hcdma : (backoffCleared a).dma.backoff = Vector.replicate 8 0 := rfl
    generalize backoffCleared a = b at *
    obtain ⟨hflush, hpend⟩ := msiFlush_spec hcfrozen
    refine ⟨(hstat.trans hcleared).next hflush, (hflush.rdB (by decide)).trans hcfrozen, (hflush.rd (by decide)).trans hcdrained,
      fun _ => ⟨?_, (hflush.rd (by decide)).trans hczero, fun v hv => ?_⟩⟩
    · rw [hflush.parts .dma (by simp), hcdma]
    · exact hpend v v.isLt (rdB_of_bit.1 ((hcctl v).trans hv))

section
variable {s : State} (hcore : s.dev.pwr.core = true)
include hcore

/-- A command that stops the port. -/
theorem arbChange_stopped {as : List Nat} {i : Instr} {g : Dev → Dev} {a : Dev} (hexec : exec i s = core s g) (hg : g s.dev = arbChange a)
    (ha : Within (as ++ [arbWord, F.ARB_NULL.addr 0]) [.regs, .dma, .pm] s.dev a)
    (hsame : a.dma.credit = s.dev.dma.credit ∧ a.dma.backoff = s.dev.dma.backoff) (hstops : portStops a = true) {p : State → Prop}
    (hp : ∀ b, Within [arbWord, F.ARB_NULL.addr 0] [.regs, .dma, .pm] a b → (∃ c, b.dma = { a.dma with choice := c }) → p { s with dev := b }) :
    ActsR (as ++ [arbWord, F.ARB_NULL.addr 0]) [.dma, .pm] i s fun t =>
      p t ∧ frozen t.dev = true ∧ t.dev.dma.credit = s.dev.dma.credit ∧ t.dev.dma.backoff = s.dev.dma.backoff := by
  have hstat := within_arbStat a
  have hdma := arbStat_dma a
  have hfrozen := (arbStat_status a).1.trans hstops
  rw [arbChange_stops hstops] at hg
  generalize arbStat a = b at *
  obtain ⟨hcredit, hbackoff⟩ := hsame
  obtain ⟨c, hc⟩ := hdma
  have hbcredit : b.dma.credit = a.dma.credit := by rw [hc]
  have hbbackoff : b.dma.backoff = a.dma.backoff := by rw [hc]
  exact (ha.next hstat).actsR (exec_of_core hexec hcore hg)
    ⟨hp b hstat ⟨c, hc⟩, hfrozen, hbcredit.trans hcredit, hbbackoff.trans hbackoff⟩

theorem dlDown_stops : ActsR ([] ++ [arbWord, F.ARB_NULL.addr 0]) [.dma, .pm] .dlDown s fun t =>
    (t.dev.dma.link = false ∧ t.dev.dma.retry = []) ∧
      frozen t.dev = true ∧ t.dev.dma.credit = s.dev.dma.credit ∧ t.dev.dma.backoff = s.dev.dma.backoff :=
  arbChange_stopped (g := dlDown) hcore rfl rfl ((Within.refl _ _ s.dev).only (only_onDma _ _)) ⟨rfl, rfl⟩ (by simp [portStops, onDma])
    fun b _ ⟨c, hc⟩ => by simp only [hc]; exact ⟨rfl, rfl⟩

theorem busMasterEnable_stops : ActsR ([] ++ [arbWord, F.ARB_NULL.addr 0]) [.dma, .pm] (.busMasterEnable false) s fun t =>
    t.dev.dma.bme = false ∧
      frozen t.dev = true ∧ t.dev.dma.credit = s.dev.dma.credit ∧ t.dev.dma.backoff = s.dev.dma.backoff :=
  arbChange_stopped (g := busMaster false) hcore rfl rfl ((Within.refl _ _ s.dev).only (only_onDma _ _)) ⟨rfl, rfl⟩ (by simp [portStops, onDma])
    fun b _ ⟨c, hc⟩ => by simp only [hc]; rfl

theorem freeze_stops : ActsR ([F.ARB_CTL_FREEZE.addr 0] ++ [arbWord, F.ARB_NULL.addr 0]) [.dma, .pm] (.freeze true) s fun t =>
    rd t.dev F.ARB_CTL_FREEZE = 1 ∧
      frozen t.dev = true ∧ t.dev.dma.credit = s.dev.dma.credit ∧ t.dev.dma.backoff = s.dev.dma.backoff := by
  have hset : rd (wrB s.dev F.ARB_CTL_FREEZE 0 true) F.ARB_CTL_FREEZE = 1 := rd_wrB_bit _ (by decide) true
  refine arbChange_stopped (g := freezePort true) hcore rfl rfl (Within.refl _ _ s.dev).wrB ⟨rfl, rfl⟩ ?_
    fun b hb _ => (hb.rd (by decide)).trans hset
  rw [portStops, rdB_of_bit.2 hset]
  rfl

/-- A command that lets the port go on. -/
theorem arbChange_started {as : List Nat} {i : Instr} {g : Dev → Dev} {a : Dev} (hexec : exec i s = core s g) (hg : g s.dev = arbChange a)
    (ha : Within (as ++ [arbWord, F.ARB_NULL.addr 0] ++ pbaWords) [.regs, .dma, .pm, .out] s.dev a)
    (hfrozen : frozen a = frozen s.dev) (hctl : ∀ v : Fin 64, rd a F.MSIX_CTL v = rd s.dev F.MSIX_CTL v) (hgoes : portStops a = false) :
    ActsR (as ++ [arbWord, F.ARB_NULL.addr 0] ++ pbaWords) [.dma, .pm, .out] i s fun t => PortGoes s.dev t.dev := by
  obtain ⟨hframe, hopen, hdrained, hrecovered⟩ := arbChange_goes hgoes
  rw [← hg] at hframe hopen hdrained hrecovered
  rw [hfrozen] at hrecovered
  refine (ha.next hframe).actsR (exec_of_core hexec hcore rfl) ⟨hopen, hdrained, fun hwas => ?_⟩
  obtain ⟨hbackoff, hbits, hpend⟩ := hrecovered hwas
  exact ⟨hbackoff, hbits, fun v hv => hpend v ((hctl v).trans hv)⟩

theorem linkUp_goes (hbme : s.dev.dma.bme = true) (hfreeze : rd s.dev F.ARB_CTL_FREEZE = 0) :
    ActsR ([] ++ [arbWord, F.ARB_NULL.addr 0] ++ pbaWords) [.dma, .pm, .out] .linkUp s fun t => PortGoes s.dev t.dev := by
  refine arbChange_started (g := hostLinkUp) hcore rfl rfl ((Within.refl _ _ s.dev).only (only_onDma _ _)) rfl (fun _ => rfl) ?_
  have hfrz : rdB (onDma s.dev fun m => { m with link := true }) F.ARB_CTL_FREEZE = false := rdB_of_bit.1 hfreeze
  rw [portStops, hfrz]
  simp [onDma, hbme]

theorem busMasterEnable_goes (hlink : s.dev.dma.link = true) (hfreeze : rd s.dev F.ARB_CTL_FREEZE = 0) :
    ActsR ([] ++ [arbWord, F.ARB_NULL.addr 0] ++ pbaWords) [.dma, .pm, .out] (.busMasterEnable true) s fun t => PortGoes s.dev t.dev := by
  refine arbChange_started (g := busMaster true) hcore rfl rfl ((Within.refl _ _ s.dev).only (only_onDma _ _)) rfl (fun _ => rfl) ?_
  have hfrz : rdB (onDma s.dev fun m => { m with bme := true, recovery := m.recovery || !true }) F.ARB_CTL_FREEZE = false := rdB_of_bit.1 hfreeze
  rw [portStops, hfrz]
  simp [onDma, hlink]

theorem freeze_goes (hlink : s.dev.dma.link = true) (hbme : s.dev.dma.bme = true) :
    ActsR ([F.ARB_CTL_FREEZE.addr 0] ++ [arbWord, F.ARB_NULL.addr 0] ++ pbaWords) [.dma, .pm, .out] (.freeze false) s fun t =>
      PortGoes s.dev t.dev := by
  have hset : rd (wrB s.dev F.ARB_CTL_FREEZE 0 false) F.ARB_CTL_FREEZE = 0 := rd_wrB_bit _ (by decide) false
  refine arbChange_started (g := freezePort false) hcore rfl rfl (Within.refl _ _ s.dev).wrB ?_ (fun v => rd_wr_parted _ (by decide)) ?_
  · exact congrArg (fun n : Nat => n != 0) (rd_wr_parted s.dev (by decide))
  · rw [portStops, rdB_of_bit.1 hset]
    have hdma : (wrB s.dev F.ARB_CTL_FREEZE 0 false).dma = s.dev.dma := rfl
    rw [hdma, hlink, hbme]
    rfl

omit hcore in
/-- Recovery ends while nothing stops the port. -/
theorem recoveryEnd_eq (d : Dev) : recoveryEnd d =
    if portStops d = true then d else arbStat (onDma d fun m => { m with recovery := false }) := by
  unfold recoveryEnd portStops
  cases d.dma.link <;> cases d.dma.bme <;> cases rdB d F.ARB_CTL_FREEZE <;> rfl

omit hcore in
theorem portStops_eq_false_iff {d : Dev} : portStops d = false ↔ d.dma.link = true ∧ d.dma.bme = true ∧ rd d F.ARB_CTL_FREEZE = 0 := by
  simp only [portStops, Bool.or_eq_false_iff, Bool.not_eq_false', rdB, bne_eq_false_iff_eq]
  tauto

theorem modeRecoveryEnd_ends (h : s.dev.dma.link = true ∧ s.dev.dma.bme = true ∧ rd s.dev F.ARB_CTL_FREEZE = 0) :
    ActsR [arbWord, F.ARB_NULL.addr 0] [.dma, .pm] .modeRecoveryEnd s fun t => t.dev.dma.recovery = false ∧
      (s.dev.dma.startup = false → rd s.dev F.DBG_CTL_ARB_TEST = 0 → rd t.dev F.ARB_STATUS_MODE = 0) := by
  have heq := (recoveryEnd_eq s.dev).trans (if_neg (by rw [portStops_eq_false_iff.mpr h]; exact Bool.false_ne_true))
  have hstat := within_arbStat (onDma s.dev fun m => { m with recovery := false })
  obtain ⟨-, -, hmode⟩ := arbStat_status (onDma s.dev fun m => { m with recovery := false })
  obtain ⟨c, hc⟩ := arbStat_dma (onDma s.dev fun m => { m with recovery := false })
  have hfrom : Within [arbWord, F.ARB_NULL.addr 0] [.regs, .dma, .pm] s.dev (onDma s.dev fun m => { m with recovery := false }) :=
    (Within.refl _ _ s.dev).only (only_onDma _ _)
  generalize arbStat (onDma s.dev fun m => { m with recovery := false }) = b at *
  refine (hfrom.trans hstat).actsR (exec_of_core (g := recoveryEnd) rfl hcore heq) ⟨by simp only [hc]; rfl, fun hstartup htest => ?_⟩
  have htest' : rdB s.dev F.DBG_CTL_ARB_TEST = false := rdB_of_bit.1 htest
  have hcause : modeCause (onDma s.dev fun m => { m with recovery := false }) =
    if s.dev.dma.startup then 1 else if rdB s.dev F.DBG_CTL_ARB_TEST then 2 else if false then 3 else 0 := rfl
  have hnone : modeCause (onDma s.dev fun m => { m with recovery := false }) = 0 := by
    rw [hcause, hstartup, htest']
    rfl
  exact hmode.trans (by rw [hnone]; rfl)

omit hcore in
theorem modeRecoveryEnd_waits (h : ¬ (s.dev.dma.link = true ∧ s.dev.dma.bme = true ∧ rd s.dev F.ARB_CTL_FREEZE = 0)) :
    exec .modeRecoveryEnd s = .next s := by
  refine exec_of_core_self (g := recoveryEnd) rfl ((recoveryEnd_eq s.dev).trans (if_pos ?_))
  rw [← portStops_eq_false_iff] at h
  simpa using h

theorem drained_shows (h : frozen s.dev = true) : ActsR [F.ARB_STATUS_DRAINED.addr 0] [] .drained s fun t =>
    rd t.dev F.ARB_STATUS_DRAINED = 1 :=
  ((Within.refl _ _ s.dev).wrB).actsR (exec_of_core (g := drained) rfl hcore (if_pos h)) (rd_wrB_bit _ (by decide) true)

end

/-- What stands of a burst that is issued, field by field. -/
theorem Issued.facts {g : GrantIn} {r : Fin 8} {a b : Dev} (h : Issued g r a b) :
    b.dma.credit[r] = a.dma.credit[r] - ((g.bytes + 63) / 64 : Nat) ∧ b.dma.boLen[r] = 1 ∧ b.dma.last = r ∧
      b.dma.backoff = a.dma.backoff ∧ (∃ k, Sent a b [.burst r k] ∧ (r ≠ 7 → ∃ n, k = some n ∧
        (Serves a g r n ∧ (a.dma.served[r] < 41 → ∀ m, Serves a g r m → ringTurn a r n ≤ ringTurn a r m)) ∧ b.dma.served[r] = n)) ∧
      ∀ q : Fin 8, q ≠ r → b.dma.credit[q] = a.dma.credit[q] :=
  ⟨h.credit, h.boLen, h.last, h.backoff, h.sent, h.others⟩

theorem Returned.facts {r : Fin 8} {a b : Dev} (h : Returned r a b) :
    b.dma.backoff[r] = a.dma.boLen[r] ∧ b.dma.boLen[r] = min (2 * a.dma.boLen[r]) 128 ∧ b.dma.credit = a.dma.credit ∧
      b.dma.last = a.dma.last ∧ b.out = a.out ∧ rd b F.ARB_RET_RET r = satAdd 16 (rd a F.ARB_RET_RET r) 1 :=
  ⟨h.backoff, h.boLen, h.credit, h.last, h.out, h.count⟩

theorem PortGoes.facts {a b : Dev} (h : PortGoes a b) : Machine.frozen b = false ∧ rd b F.ARB_STATUS_DRAINED = 0 ∧
    (Machine.frozen a = true → b.dma.backoff = Vector.replicate 8 0 ∧ rd b F.ARB_STATUS_BACKOFF = 0 ∧
      ∀ v : Fin 64, rd a F.MSIX_CTL v = 0 → (rd b F.MSIX_PBA (v / 32)).testBit (v % 32) = false) :=
  ⟨h.frozen, h.drained, h.recovered⟩

/-- Settles O37: grants by mode and eligibility, and what stops and starts the port. -/
theorem arbiterGrantsAndFreezes : Obligations.ArbiterGrantsAndFreezes := by
  unfold Obligations.ArbiterGrantsAndFreezes
  refine ⟨fun s g r hcore => ⟨arbWindow_reloads hcore, fun hmode hfrozen hocc hchosen => ?_, fun hmode hfrozen hchoice => ⟨?_, ?_, ?_⟩,
      backoffExpiry_frees hcore r⟩,
    fun s hcore => ⟨dlDown_stops hcore, busMasterEnable_stops hcore, freeze_stops hcore, fun hbme hfreeze => ?_, fun hlink hfreeze => ?_,
      fun hlink hbme => ?_, modeRecoveryEnd_ends hcore, modeRecoveryEnd_waits, drained_shows hcore⟩⟩
  · obtain ⟨hissues, hreturns⟩ := arbGrant_combinational_grants hcore g r hfrozen hmode hocc hchosen
    exact ⟨fun haccept => (hissues haccept).weaken fun t ht => ht.facts, fun haccept => (hreturns haccept).weaken fun t ht => ht.facts⟩
  · exact fun hfree haccept => (arbGrant_registered_issues hcore g r hfrozen hmode hchoice hfree haccept).weaken fun t ht =>
      ⟨ht.1.facts, ht.2⟩
  · exact fun hfree haccept => (arbGrant_registered_returns hcore g r hfrozen hmode hchoice hfree haccept).weaken fun t ht => ht.facts
  · exact arbGrant_registered_null hcore g r hfrozen hmode hchoice
  · exact (linkUp_goes hcore hbme hfreeze).weaken fun t ht => ht.facts
  · exact (busMasterEnable_goes hcore hlink hfreeze).weaken fun t ht => ht.facts
  · exact (freeze_goes hcore hlink hbme).weaken fun t ht => ht.facts

end Sys2Proof.Machine
end

