-- ==== Sys2Proof/Proofs/ScratchBytes.lean ====
section
/-! PROOFS. The scratchpad's bytes and words (R378, R380, R381). -/

namespace Sys2Proof.Machine

-- In order: a default argument `by simp` waits for every declaration before it, and many that wait take many threads.
set_option Elab.async false

/-! ### Bytes -/

theorem spByte_spPut (p : Scratch) (a : Nat) (b : BitVec 8) (x : Nat) : spByte (spPut p a b) x = if x = a then b else spByte p x := by
  split
  · next h => rw [h]; exact tget_tput_same 0 p.mem a b
  · next h => exact tget_tput_ne 0 p.mem b h

/-- A byte that is written, or not. -/
def putOpt (p : Scratch) (a : Nat) (o : Option (BitVec 8)) : Scratch := o.elim p (spPut p a)

theorem spByte_putOpt (p : Scratch) (a : Nat) (o : Option (BitVec 8)) (x : Nat) :
    spByte (putOpt p a o) x = if x = a then o.getD (spByte p x) else spByte p x := by
  cases o with
  | none => exact (ite_self _).symm
  | some b => exact spByte_spPut p a b x

theorem putOpt_bad (p : Scratch) (a : Nat) (o : Option (BitVec 8)) : (putOpt p a o).bad = p.bad := by
  cases o <;> rfl

/-- The bytes `l` go to the places from `base + n` on. -/
def putBytes (base n : Nat) (l : List (Option (BitVec 8))) (p : Scratch) : Scratch :=
  (l.zipIdx n).foldl (fun p x => putOpt p (base + x.2) x.1) p

theorem putBytes_cons (base n : Nat) (o : Option (BitVec 8)) (l : List (Option (BitVec 8))) (p : Scratch) :
    putBytes base n (o :: l) p = putBytes base (n + 1) l (putOpt p (base + n) o) := rfl

theorem spByte_putBytes (base n : Nat) (l : List (Option (BitVec 8))) (p : Scratch) (a : Nat) :
    spByte (putBytes base n l p) a = (if base + n ≤ a then (l[a - (base + n)]?).getD none else none).getD (spByte p a) := by
  induction l generalizing n p with
  | nil => simp [putBytes]
  | cons o l ih =>
    rw [putBytes_cons, ih, spByte_putOpt]
    rcases Nat.lt_trichotomy a (base + n) with h | h | h
    · rw [if_neg (by omega), if_neg (by omega), if_neg (by omega)]
    · rw [if_neg (by omega), if_pos h, if_pos (by omega), h, Nat.sub_self]
      rfl
    · rw [if_pos (by omega), if_neg (by omega), if_pos (by omega), show a - (base + n) = a - (base + (n + 1)) + 1 by omega,
        List.getElem?_cons_succ]

theorem putBytes_bad (base n : Nat) (l : List (Option (BitVec 8))) (p : Scratch) : (putBytes base n l p).bad = p.bad := by
  induction l generalizing n p with
  | nil => rfl
  | cons o l ih => rw [putBytes_cons, ih, putOpt_bad]

/-! ### Words -/

theorem spWord_bits (p : Scratch) (w m i : Nat) (hm : m ≤ 8) (hi : i < 64) :
    ((List.range m).foldl (fun (x : BitVec 64) k => (x <<< 8) ||| (spByte p (8 * w + 7 - k)).setWidth 64) 0).getLsbD i =
      (decide (i < 8 * m) && (spByte p (8 * w + 8 - m + i / 8)).getLsbD (i % 8)) := by
  induction m generalizing i with
  | zero => simp
  | succ m ih =>
    rw [List.range_succ, List.foldl_append, List.foldl_cons, List.foldl_nil, BitVec.getLsbD_or, BitVec.getLsbD_shiftLeft,
      BitVec.getLsbD_setWidth]
    by_cases hlow : i < 8
    · have hplace : 8 * w + 7 - m = 8 * w + 8 - (m + 1) + i / 8 := by omega
      rw [hplace, Nat.mod_eq_of_lt hlow]
      simp [hlow, hi, show i < 8 * (m + 1) by omega]
    · have hplace : 8 * w + 8 - m + (i - 8) / 8 = 8 * w + 8 - (m + 1) + i / 8 := by omega
      rw [ih (i - 8) (by omega) (by omega), hplace, show (i - 8) % 8 = i % 8 by omega,
        BitVec.getLsbD_of_ge _ i (by omega)]
      simp [hlow, hi, show i - 8 < 8 * m ↔ i < 8 * (m + 1) by omega]

/-- A bit of a word lies in its byte. -/
theorem getLsbD_spWord (p : Scratch) (w i : Nat) (hi : i < 64) :
    (spWord p w).getLsbD i = (spByte p (8 * w + i / 8)).getLsbD (i % 8) := by
  rw [spWord, spWord_bits p w 8 i (by decide) hi]
  simp [hi]

/-- A word is what its bytes are. -/
theorem spWord_eq_iff {p : Scratch} {w : Nat} {v : BitVec 64} :
    spWord p w = v ↔ ∀ k < 8, spByte p (8 * w + k) = v.extractLsb' (8 * k) 8 := by
  constructor
  · rintro rfl k hk
    refine BitVec.eq_of_getLsbD_eq fun i hi => ?_
    rw [BitVec.getLsbD_extractLsb', getLsbD_spWord _ _ _ (by omega), show (8 * k + i) / 8 = k by omega,
      show (8 * k + i) % 8 = i by omega, decide_eq_true hi, Bool.true_and]
  · intro h
    refine BitVec.eq_of_getLsbD_eq fun i hi => ?_
    rw [getLsbD_spWord _ _ _ hi, h (i / 8) (by omega), BitVec.getLsbD_extractLsb', show 8 * (i / 8) + i % 8 = i by omega,
      decide_eq_true (show i % 8 < 8 by omega), Bool.true_and]

/-- The eight bytes of a word. -/
def word64Bytes (v : BitVec 64) : List (Option (BitVec 8)) := (List.range 8).map fun k => some (v.extractLsb' (8 * k) 8)

theorem spPutWord_eq (p : Scratch) (w : Nat) (v : BitVec 64) :
    spPutWord p w v = putBytes (8 * w) 0 (word64Bytes v) { p with bad := p.bad.filter (· != w) } := rfl

theorem word64Bytes_at (v : BitVec 64) {k : Nat} (hk : k < 8) : ((word64Bytes v)[k]?).getD none = some (v.extractLsb' (8 * k) 8) := by
  simp [word64Bytes, hk]

/-- The bytes after a word has been written. -/
theorem spByte_putWord (p : Scratch) (w : Nat) (v : BitVec 64) (a : Nat) :
    spByte (putBytes (8 * w) 0 (word64Bytes v) p) a = if a / 8 = w then v.extractLsb' (8 * (a % 8)) 8 else spByte p a := by
  rw [spByte_putBytes, Nat.add_zero]
  by_cases h : a / 8 = w
  · rw [if_pos h, if_pos (by omega), show a - 8 * w = a % 8 by omega, word64Bytes_at v (by omega)]
    rfl
  · rw [if_neg h]
    by_cases hle : 8 * w ≤ a
    · rw [if_pos hle, List.getElem?_eq_none (by simp [word64Bytes]; omega)]
      rfl
    · rw [if_neg hle]
      rfl

theorem spByte_spPutWord (p : Scratch) (w : Nat) (v : BitVec 64) (a : Nat) :
    spByte (spPutWord p w v) a = if a / 8 = w then v.extractLsb' (8 * (a % 8)) 8 else spByte p a := by
  rw [spPutWord_eq, spByte_putWord]
  rfl

theorem spWord_spPutWord (p : Scratch) (w : Nat) (v : BitVec 64) : spWord (spPutWord p w v) w = v :=
  spWord_eq_iff.mpr fun k hk => by
    rw [spByte_spPutWord, if_pos (by omega), show (8 * w + k) % 8 = k by omega]

theorem spPutWord_bad (p : Scratch) (w : Nat) (v : BitVec 64) : (spPutWord p w v).bad = p.bad.filter (· != w) := by
  rw [spPutWord_eq, putBytes_bad]

/-! ### Accesses -/

/-- Words of corrected and of double-bit errors. -/
abbrev eccWords : List Nat := [F.CTL_SP_STAT_CORR.addr 0, F.CTL_SP_STAT_UNCORR.addr 0]

/-- An access of the scratchpad: beside its content only error counts and events change. -/
structure Accesses (s t : State) : Prop where
  pending : t.pending = s.pending
  sn : t.sn = s.sn
  ticked : t.ticked = s.ticked
  lock : t.lock = s.lock
  frame : Within eccWords [.regs, .hif] s.dev t.dev

namespace Accesses

variable {s t u : State}

theorem refl (s : State) : Accesses s s := ⟨rfl, rfl, rfl, rfl, .refl _ _ _⟩

theorem trans (h : Accesses s t) (k : Accesses t u) : Accesses s u :=
  ⟨k.pending.trans h.pending, k.sn.trans h.sn, k.ticked.trans h.ticked, k.lock.trans h.lock, h.frame.trans k.frame⟩

theorem of_sp (s : State) (p : Scratch) : Accesses s { s with sp := p } := ⟨rfl, rfl, rfl, rfl, .refl _ _ _⟩

theorem of_dev {d : Dev} (h : Within eccWords [.regs, .hif] s.dev d) : Accesses s { s with dev := d } := ⟨rfl, rfl, rfl, rfl, h⟩

theorem foldl {β : Type} {g : State → β → State} (h : ∀ s x, Accesses s (g s x)) (l : List β) (s : State) : Accesses s (l.foldl g s) := by
  induction l generalizing s with
  | nil => exact refl s
  | cons x l ih => exact (h s x).trans (ih _)

end Accesses

theorem within_spFail (port : Nat) (sn : SN) (ws : List Nat) (d : Dev) : Within eccWords [.regs, .hif] d (spFail port sn ws d) :=
  .foldl (fun d _ _ => ((Within.refl _ _ d).sat).raise) d

theorem accesses_spEcc (ecc : List (Nat × Bool)) (ws : List Nat) (s : State) : Accesses s (spEcc ecc ws s) :=
  ⟨rfl, rfl, rfl, rfl, (Within.refl _ _ _).sat⟩

theorem spByte_spEcc (ecc : List (Nat × Bool)) (ws : List Nat) (s : State) (a : Nat) :
    spByte (spEcc ecc ws s).sp a = spByte s.sp a := rfl

/-- Eight bytes stored into word `w`. -/
theorem spStore_eq (port : Nat) (bs : List (Option (BitVec 8))) (s : State) (w : Nat) : spStore port bs s w =
    if bs.all Option.isSome = true then { s with sp := putBytes (8 * w) 0 bs { s.sp with bad := s.sp.bad.filter (· != w) } }
    else if s.sp.bad.contains w = true then { s with dev := spFail port s.sn [w] s.dev }
    else { s with sp := putBytes (8 * w) 0 bs s.sp } := by
  unfold spStore
  refine ite_congr rfl (fun hall => ?_) fun _ => ite_congr rfl (fun _ => rfl) fun _ => ?_
  · congr 1
    refine List.foldl_ext _ _ _ fun p x hx => ?_
    have hsome := List.all_eq_true.mp hall x.1 (List.fst_mem_of_mem_zipIdx hx)
    obtain ⟨o, k⟩ := x
    cases o with
    | none => exact absurd hsome Bool.false_ne_true
    | some b => rfl
  · congr 1
    refine List.foldl_ext _ _ _ fun p x _ => ?_
    obtain ⟨o, k⟩ := x
    cases o <;> rfl

theorem accesses_spStore (port : Nat) (bs : List (Option (BitVec 8))) (s : State) (w : Nat) : Accesses s (spStore port bs s w) := by
  rw [spStore_eq]
  split
  · exact .of_sp s _
  · split
    · exact .of_dev (within_spFail _ _ _ _)
    · exact .of_sp s _

theorem spByte_spStore (port : Nat) {bs : List (Option (BitVec 8))} (hbs : bs.length = 8) (s : State) (w a : Nat) :
    spByte (spStore port bs s w).sp a =
      if a / 8 = w ∧ (s.sp.bad.contains w = false ∨ bs.all Option.isSome = true) then ((bs[a % 8]?).getD none).getD (spByte s.sp a)
      else spByte s.sp a := by
  have hput (p : Scratch) : spByte (putBytes (8 * w) 0 bs p) a =
      if a / 8 = w then ((bs[a % 8]?).getD none).getD (spByte p a) else spByte p a := by
    rw [spByte_putBytes, Nat.add_zero]
    by_cases h : a / 8 = w
    · rw [if_pos h, if_pos (by omega), show a - 8 * w = a % 8 by omega]
    · rw [if_neg h]
      by_cases hle : 8 * w ≤ a
      · rw [if_pos hle, List.getElem?_eq_none (by omega)]
        rfl
      · rw [if_neg hle]
        rfl
  rw [spStore_eq]
  by_cases hall : bs.all Option.isSome = true
  · rw [if_pos hall, hput]
    exact if_congr ⟨fun h => ⟨h, .inr hall⟩, fun h => h.1⟩ rfl rfl
  · rw [if_neg hall]
    by_cases hbad : s.sp.bad.contains w = true
    · rw [if_pos hbad, if_neg fun h => h.2.elim (fun hok => by rw [hbad] at hok; exact absurd hok (by decide)) hall]
    · rw [if_neg hbad, hput]
      exact if_congr ⟨fun h => ⟨h, .inl (Bool.eq_false_iff.mpr hbad)⟩, fun h => h.1⟩ rfl rfl

theorem spStore_bad (port : Nat) (bs : List (Option (BitVec 8))) (s : State) (w : Nat) {x : Nat} (hx : x ≠ w) :
    (spStore port bs s w).sp.bad.contains x = s.sp.bad.contains x := by
  rw [spStore_eq]
  split
  · rw [putBytes_bad, Bool.eq_iff_iff]
    simp [hx]
  · split
    · rfl
    · rw [putBytes_bad]

theorem accesses_spAtomic (port : Nat) (f : BitVec 64 → BitVec 64) (s : State) (w : Nat) : Accesses s (spAtomic port f s w) := by
  unfold spAtomic
  split
  · exact .of_dev (within_spFail _ _ _ _)
  · exact .of_sp s _

theorem accesses_portC (s : State) (x : PortC) : Accesses s (portC s x) := by
  unfold portC
  split
  · split
    · exact .of_dev (within_spFail _ _ _ _)
    · exact .refl s
  · exact accesses_spStore _ _ _ _
  · exact accesses_spAtomic _ _ _ _
  · exact accesses_spAtomic _ _ _ _

end Sys2Proof.Machine
end

