-- ==== Sys2Proof/Proofs/Bar2.lean ====
section
/-! PROOFS. BAR2 (R379 to R384). -/

namespace Sys2Proof.Machine

-- In order: a default argument `by simp` waits for every declaration before it, and many that wait take many threads.
set_option Elab.async false

/-! ### Regions and counts -/

theorem Within.spOpen {as : List Nat} {ps : List Part} {a b : Dev} (h : Within as ps a b) (has : F.CTL_BOOT_STAGE.addr 0 ∉ as) (x : Nat) :
    Machine.spOpen b x = Machine.spOpen a x := by
  rw [Machine.spOpen, h.rd has, Machine.spOpen]

/-- A region begins and ends with a word. -/
theorem spOpen_word (d : Dev) (a : Nat) : spOpen d (8 * (a / 8)) = spOpen d a := by
  have h1 : (0x8000 ≤ 8 * (a / 8) ∧ 8 * (a / 8) < 0x10000) ↔ 0x8000 ≤ a ∧ a < 0x10000 := by omega
  have h2 : 0x300000 ≤ 8 * (a / 8) ↔ 0x300000 ≤ a := by omega
  have h3 : (0x200000 ≤ 8 * (a / 8) ∧ 8 * (a / 8) < 0x300000) ↔ 0x200000 ≤ a ∧ a < 0x300000 := by omega
  simp only [spOpen, h1, h2, h3]

theorem satAdd_add (v x m n : Nat) : satAdd v (satAdd v x m) n = satAdd v x (m + n) := by
  simp only [satAdd]
  omega

theorem satAdd_zero {v x : Nat} (h : x < 2 ^ v) : satAdd v x 0 = x := by
  simp only [satAdd]
  omega

/-- The word of BUSY responses. -/
abbrev busyWord : Nat := F.CTL_SP_STAT_BUSY.addr 0

theorem within_spBusy (n : Nat) (d : Dev) : Within [busyWord] [.regs, .pm] d (spBusy n d) := (Within.refl _ _ d).sat.perf

theorem rd_spBusy (n : Nat) (d : Dev) : rd (spBusy n d) F.CTL_SP_STAT_BUSY = satAdd 32 (rd d F.CTL_SP_STAT_BUSY) n := by
  have hperf : rd (spBusy n d) F.CTL_SP_STAT_BUSY = rd (sat d F.CTL_SP_STAT_BUSY 0 n) F.CTL_SP_STAT_BUSY :=
    (evals_perf _ 0xE 0 n).within.rd (by simp)
  exact hperf.trans (rd_sat_same _ (by decide) _ _)

theorem coreSt_of_core {s : State} (hcore : s.dev.pwr.core = true) (f : State → State) : coreSt s f = .next (f s) := by
  rw [coreSt, if_pos hcore]

/-! ### BAR2_WRITE (R379) -/

/-- The byte that a write of `data` at `off` brings to the place `a`. -/
def byteTo (off : Nat) (data : List (Option (BitVec 8))) (a : Nat) : Option (BitVec 8) :=
  if a < off then none else (data[a - off]?).getD none

/-- It brings a whole word. -/
def fullTo (off : Nat) (data : List (Option (BitVec 8))) (w : Nat) : Bool := (List.range 8).all fun k => (byteTo off data (8 * w + k)).isSome

theorem spBytes_all (off : Nat) (data : List (Option (BitVec 8))) (w : Nat) :
    (spBytes off data w).all Option.isSome = fullTo off data w := by
  rw [spBytes, List.all_map]
  rfl

theorem spStores_eq (d : Dev) (off : Nat) (data : List (Option (BitVec 8))) (w : Nat) :
    spStores d off data w = (((List.range 8).any fun k => (byteTo off data (8 * w + k)).isSome) && spOpen d (8 * w)) := by
  rw [spStores, spBytes, List.any_map]
  rfl

theorem spBytes_at (off : Nat) (data : List (Option (BitVec 8))) {a w : Nat} (h : a / 8 = w) :
    ((spBytes off data w)[a % 8]?).getD none = byteTo off data a := by
  have hk : a % 8 < 8 := Nat.mod_lt _ (by decide)
  have ha : 8 * w + a % 8 = a := by omega
  rw [spBytes, List.getElem?_map, List.getElem?_range hk, Option.map_some, Option.getD_some, ha]
  rfl

section
variable {off : Nat} {data : List (Option (BitVec 8))} {pc : List PortC} (hplain : ∀ x ∈ pc, plainC x = true)
include hplain

/-- With plain accesses of port C alone, a word is stored as if there were none. -/
theorem spWriteWord_eq (s : State) (w : Nat) : spWriteWord off data pc s w =
    if spStores s.dev off data w = true then
      if pc.any (·.word == w) = true then { spStore 1 (spBytes off data w) s w with dev := spBusy 1 (spStore 1 (spBytes off data w) s w).dev }
      else spStore 1 (spBytes off data w) s w
    else s := by
  have hnone : (pc.filter (·.word == w)).takeWhile (fun x => !plainC x) = [] := by
    cases hl : pc.filter (·.word == w) with
    | nil => rfl
    | cons x l =>
      have hx := hplain x (List.mem_of_mem_filter (hl ▸ List.mem_cons_self))
      rw [List.takeWhile_cons, hx]
      rfl
  have hany : (pc.filter (·.word == w)).any plainC = pc.any (·.word == w) := by
    rw [List.any_filter, Bool.eq_iff_iff, List.any_eq_true, List.any_eq_true]
    exact exists_congr fun x => and_congr_right fun hx => by rw [hplain x hx, Bool.and_true]
  unfold spWriteWord
  cases hstores : spStores s.dev off data w with
  | false => rfl
  | true =>
    dsimp only
    rw [hnone, List.foldl_nil, hany]
    rfl

/-- The write has passed the words `l`. -/
structure WordsWritten (off : Nat) (data : List (Option (BitVec 8))) (pc : List PortC) (l : List Nat) (s t : State) : Prop where
  pending : t.pending = s.pending
  sn : t.sn = s.sn
  ticked : t.ticked = s.ticked
  lock : t.lock = s.lock
  frame : Within (busyWord :: eccWords) [.regs, .hif, .pm] s.dev t.dev
  bytes : ∀ a, spByte t.sp a =
    if (a / 8 ∈ l ∧ spStores s.dev off data (a / 8) = true) ∧ (s.sp.bad.contains (a / 8) = false ∨ fullTo off data (a / 8) = true)
      then (byteTo off data a).getD (spByte s.sp a) else spByte s.sp a
  bad : ∀ w ∉ l, t.sp.bad.contains w = s.sp.bad.contains w
  busy : rd t.dev F.CTL_SP_STAT_BUSY = satAdd 32 (rd s.dev F.CTL_SP_STAT_BUSY)
    (l.filter fun w => spStores s.dev off data w && pc.any (·.word == w)).length

theorem wordWritten (s : State) (w : Nat) : WordsWritten off data pc [w] s (spWriteWord off data pc s w) := by
  have hlt : rd s.dev F.CTL_SP_STAT_BUSY < 2 ^ 32 := rd_lt s.dev F.CTL_SP_STAT_BUSY 0
  rw [spWriteWord_eq hplain]
  cases hstores : spStores s.dev off data w with
  | false =>
    rw [if_neg Bool.false_ne_true]
    refine ⟨rfl, rfl, rfl, rfl, .refl _ _ _, fun a => (if_neg ?_).symm, fun _ _ => rfl, ?_⟩
    · rintro ⟨⟨ha, hst⟩, -⟩
      rw [List.mem_singleton.mp ha, hstores] at hst
      exact Bool.false_ne_true hst
    · rw [List.filter_cons_of_neg (by simp [hstores]), List.filter_nil, List.length_nil, satAdd_zero hlt]
  | true =>
    rw [if_pos rfl]
    have hacc := accesses_spStore 1 (spBytes off data w) s w
    have hbytes := spByte_spStore 1 (bs := spBytes off data w) (by simp [spBytes]) s w
    have hbad := fun x hx => spStore_bad 1 (spBytes off data w) s w (x := x) hx
    have hbusy : rd (spStore 1 (spBytes off data w) s w).dev F.CTL_SP_STAT_BUSY = rd s.dev F.CTL_SP_STAT_BUSY := hacc.frame.rd (by decide)
    have hsame (a : Nat) : spByte (spStore 1 (spBytes off data w) s w).sp a =
        if (a / 8 ∈ [w] ∧ spStores s.dev off data (a / 8) = true) ∧ (s.sp.bad.contains (a / 8) = false ∨ fullTo off data (a / 8) = true)
          then (byteTo off data a).getD (spByte s.sp a) else spByte s.sp a := by
      rw [hbytes, spBytes_all]
      by_cases ha : a / 8 = w
      · rw [spBytes_at off data ha, ha]
        exact if_congr (by simp [hstores]) rfl rfl
      · rw [if_neg (fun h => ha h.1), if_neg fun h => ha (List.mem_singleton.mp h.1.1)]
    generalize spStore 1 (spBytes off data w) s w = t at *
    have hframe : Within (busyWord :: eccWords) [.regs, .hif, .pm] s.dev t.dev := hacc.frame.mono
    by_cases hmet : pc.any (·.word == w) = true
    · have hbusied : Within (busyWord :: eccWords) [.regs, .hif, .pm] s.dev (spBusy 1 t.dev) := hframe.next (within_spBusy 1 t.dev)
      have hcount := rd_spBusy 1 t.dev
      rw [if_pos hmet]
      obtain ⟨b, hb⟩ : ∃ b, b = spBusy 1 t.dev := ⟨_, rfl⟩
      rw [← hb] at hbusied hcount ⊢
      refine ⟨hacc.pending, hacc.sn, hacc.ticked, hacc.lock, hbusied, hsame,
        fun x hx => hbad x (by simpa using hx), ?_⟩
      rw [List.filter_cons_of_pos (by simp only [hstores, hmet, Bool.and_self]), List.filter_nil, List.length_singleton, ← hbusy]
      exact hcount
    · rw [if_neg hmet]
      refine ⟨hacc.pending, hacc.sn, hacc.ticked, hacc.lock, hframe, hsame, fun x hx => hbad x (by simpa using hx), ?_⟩
      rw [List.filter_cons_of_neg (by rw [hstores, Bool.true_and]; exact hmet), List.filter_nil, List.length_nil, satAdd_zero hlt]
      exact hbusy

theorem wordsWritten {l : List Nat} (hl : l.Nodup) (s : State) : WordsWritten off data pc l s (l.foldl (spWriteWord off data pc) s) := by
  induction l generalizing s with
  | nil =>
    exact ⟨rfl, rfl, rfl, rfl, .refl _ _ _, fun a => (if_neg fun h => List.not_mem_nil h.1.1).symm, fun _ _ => rfl,
      (satAdd_zero (rd_lt s.dev F.CTL_SP_STAT_BUSY 0)).symm⟩
  | cons w l ih =>
    obtain ⟨hw, hl⟩ := List.nodup_cons.mp hl
    have h := wordWritten (off := off) (data := data) hplain s w
    have k := ih hl (spWriteWord off data pc s w)
    rw [List.foldl_cons]
    generalize spWriteWord off data pc s w = t at *
    have hst (x : Nat) : spStores t.dev off data x = spStores s.dev off data x := by
      rw [spStores_eq, spStores_eq, h.frame.spOpen (by decide)]
    refine ⟨k.pending.trans h.pending, k.sn.trans h.sn, k.ticked.trans h.ticked, k.lock.trans h.lock, h.frame.trans k.frame, fun a => ?_,
      fun x hx => ?_, ?_⟩
    · rw [k.bytes, hst]
      by_cases ha : a / 8 = w
      · rw [if_neg (fun hin => hw (ha ▸ hin.1.1)), h.bytes]
        exact if_congr (by simp [ha]) rfl rfl
      · have hold : spByte t.sp a = spByte s.sp a := (h.bytes a).trans (if_neg fun hin => ha (List.mem_singleton.mp hin.1.1))
        rw [hold, h.bad _ (by simpa using ha)]
        exact if_congr (by simp [ha]) rfl rfl
    · obtain ⟨hxw, hxl⟩ := not_or.mp (List.mem_cons.not.mp hx)
      rw [k.bad x hxl, h.bad x (by simpa using hxw)]
    · rw [k.busy, h.busy, satAdd_add]
      simp only [hst]
      congr 1
      rw [← List.length_append, ← List.filter_append]
      rfl

end

/-- A byte that is brought lies in one of the words touched, and among the data. -/
theorem byteTo_some {off : Nat} {data : List (Option (BitVec 8))} {a : Nat} {b : BitVec 8} (h : byteTo off data a = some b) :
    off ≤ a ∧ a - off < data.length ∧ data[a - off]? = some (some b) := by
  unfold byteTo at h
  split at h
  · exact absurd h (by simp)
  · have hsome : data[a - off]? = some (some b) := by
      cases hd : data[a - off]? with
      | none => rw [hd] at h; exact absurd h (by simp)
      | some o => rw [hd, Option.getD_some] at h; rw [h]
    exact ⟨by omega, (List.getElem?_eq_some_iff.mp hsome).1, hsome⟩

theorem mem_spWords {a n x : Nat} (h : a ≤ x ∧ x < a + n) : x / 8 ∈ spWords a n := by
  refine List.mem_map.mpr ⟨x / 8 - a / 8, List.mem_range.mpr ?_, ?_⟩
  · omega
  · omega

theorem spWords_nodup (a n : Nat) : (spWords a n).Nodup := List.nodup_range.map fun _ _ h => Nat.add_left_cancel h

theorem spMerged_eq (d : Dev) (off : Nat) (data : List (Option (BitVec 8))) : spMerged d off data =
    (spWords off data.length).filter fun w =>
      ((List.range 8).any (fun k => (byteTo off data (8 * w + k)).isSome) && spOpen d (8 * w)) && !fullTo off data w :=
  List.filter_congr fun w _ => by rw [spStores_eq, spBytes_all]

/-- A byte of the data falls into a closed region. -/
def denied (d : Dev) (off : Nat) (data : List (Option (BitVec 8))) : Bool := data.zipIdx.any fun x => x.1.isSome && !spOpen d (off + x.2)

/-- The state in which the words are stored. -/
def writeBegun (off : Nat) (data : List (Option (BitVec 8))) (ecc : List (Nat × Bool)) (s : State) : State :=
  let e := spEcc ecc (spMerged s.dev off data) s
  { e with dev := if denied e.dev off data = true then sat e.dev F.CTL_SP_STAT_DENY 0 else e.dev }

theorem bar2Write_eq (off : Nat) (data : List (Option (BitVec 8))) (pc : List PortC) (ecc : List (Nat × Bool)) (s : State) :
    bar2Write off data pc ecc s = (spWords off data.length).foldl (spWriteWord off data pc) (writeBegun off data ecc s) := rfl

section
variable (off : Nat) (data : List (Option (BitVec 8))) (ecc : List (Nat × Bool)) (s : State)

theorem within_writeBegun : Within (F.CTL_SP_STAT_DENY.addr 0 :: eccWords) [.regs, .hif] s.dev (writeBegun off data ecc s).dev := by
  have h : Within (F.CTL_SP_STAT_DENY.addr 0 :: eccWords) [.regs, .hif] s.dev (spEcc ecc (spMerged s.dev off data) s).dev :=
    (accesses_spEcc ecc _ s).frame.mono
  exact .ite (fun _ => h.sat) fun _ => h

/-- A byte that is turned away is counted. -/
theorem writeBegun_deny {a : Nat} {b : BitVec 8} (hb : byteTo off data a = some b) (hclosed : spOpen s.dev a = false) :
    rd (writeBegun off data ecc s).dev F.CTL_SP_STAT_DENY = satAdd 32 (rd s.dev F.CTL_SP_STAT_DENY) 1 := by
  have hecc := (accesses_spEcc ecc (spMerged s.dev off data) s).frame
  obtain ⟨hle, hlt, hdata⟩ := byteTo_some hb
  have hdenied : denied (spEcc ecc (spMerged s.dev off data) s).dev off data = true := by
    refine List.any_eq_true.mpr ⟨(some b, a - off), List.mk_mem_zipIdx_iff_getElem?.mpr hdata, ?_⟩
    rw [hecc.spOpen (by decide), show off + (a - off) = a by omega, hclosed]
    rfl
  have heq : (writeBegun off data ecc s).dev = sat (spEcc ecc (spMerged s.dev off data) s).dev F.CTL_SP_STAT_DENY 0 := if_pos hdenied
  rw [heq, rd_sat_same _ (by decide), hecc.rd (by decide)]
  rfl

end

/-- What the words touched come to, byte by byte. -/
theorem storedByte {off : Nat} {data : List (Option (BitVec 8))} {d : Dev} {a : Nat} {x : BitVec 8} {ok : Prop} [Decidable ok] :
    (if (a / 8 ∈ spWords off data.length ∧ spStores d off data (a / 8) = true) ∧ ok then (byteTo off data a).getD x else x) =
      match byteTo off data a with
      | some b => if spOpen d (8 * (a / 8)) = true ∧ ok then b else x
      | none => x := by
  cases hb : byteTo off data a with
  | none => exact ite_self _
  | some b =>
    obtain ⟨hle, hlt, -⟩ := byteTo_some hb
    have hin : a / 8 ∈ spWords off data.length := mem_spWords (by omega)
    have hsome : ((List.range 8).any fun k => (byteTo off data (8 * (a / 8) + k)).isSome) = true :=
      List.any_eq_true.mpr ⟨a % 8, List.mem_range.mpr (Nat.mod_lt _ (by decide)), by rw [Nat.div_add_mod, hb]; rfl⟩
    refine if_congr (and_congr_left fun _ => ?_) rfl rfl
    rw [spStores_eq, hsome, Bool.true_and]
    exact and_iff_right hin

theorem bar2Write_stores {off : BitVec 22} {data : List (Option (BitVec 8))} {pc : List PortC} {ecc : List (Nat × Bool)} {s : State}
    (hcore : s.dev.pwr.core = true) (hwindow : off.toNat + data.length ≤ 2 ^ 22) (hplain : ∀ x ∈ pc, plainC x = true) :
    ∃ t, exec (.bar2Write off data ⟨pc, ecc⟩) s = .next t ∧
      t.pending = s.pending ∧ t.sn = s.sn ∧ t.ticked = s.ticked ∧ t.lock = s.lock ∧ Only [.regs, .hif, .pm] s.dev t.dev ∧
      (∀ a, spByte t.sp a = match byteTo off.toNat data a with
        | some b => if spOpen s.dev (8 * (a / 8)) = true ∧
            ((spEcc ecc (spMerged s.dev off.toNat data) s).sp.bad.contains (a / 8) = false ∨ fullTo off.toNat data (a / 8) = true)
            then b else spByte s.sp a
        | none => spByte s.sp a) ∧
      ((∃ a b, byteTo off.toNat data a = some b ∧ spOpen s.dev a = false) →
        rd t.dev F.CTL_SP_STAT_DENY = satAdd 32 (rd s.dev F.CTL_SP_STAT_DENY) 1) ∧
      rd t.dev F.CTL_SP_STAT_BUSY = satAdd 32 (rd s.dev F.CTL_SP_STAT_BUSY)
        ((spWords off.toNat data.length).filter fun w => spStores s.dev off.toNat data w && pc.any (·.word == w)).length := by
  have hexec : exec (.bar2Write off data ⟨pc, ecc⟩) s = .next (bar2Write off.toNat data pc ecc s) :=
    (if_neg (by omega)).trans (coreSt_of_core hcore _)
  have hbegun := within_writeBegun off.toNat data ecc s
  have hdeny := fun a b => writeBegun_deny off.toNat data ecc s (a := a) (b := b)
  have hw := wordsWritten (off := off.toNat) (data := data) hplain (spWords_nodup off.toNat data.length) (writeBegun off.toNat data ecc s)
  have hst (w : Nat) : spStores (writeBegun off.toNat data ecc s).dev off.toNat data w = spStores s.dev off.toNat data w := by
    rw [spStores_eq, spStores_eq, hbegun.spOpen (by decide)]
  rw [← bar2Write_eq] at hw
  refine ⟨_, hexec, hw.pending, hw.sn, hw.ticked, hw.lock, (hbegun.parts.trans hw.frame.parts).mono (by simp), fun a => ?_, fun h => ?_, ?_⟩
  · rw [hw.bytes, hst]
    exact storedByte
  · obtain ⟨a, b, hb, hclosed⟩ := h
    rw [hw.frame.rd (by decide), hdeny a b hb hclosed]
  · rw [hw.busy, hbegun.rd (by decide)]
    simp only [hst]

/-! ### BAR2_READ (R379, R382 to R384) -/

/-- Port C's accesses to the words of a read. -/
def metBy (ws : List Nat) (pc : List PortC) : List PortC := pc.filter fun x => ws.contains x.word

/-- The state in which a read of the words `ws` finds the scratchpad. -/
def readBegun (ws : List Nat) (pc : List PortC) (ecc : List (Nat × Bool)) (s : State) : State := (metBy ws pc).foldl portC (spEcc ecc ws s)

theorem accesses_readBegun (ws : List Nat) (pc : List PortC) (ecc : List (Nat × Bool)) (s : State) :
    Accesses s (readBegun ws pc ecc s) :=
  (accesses_spEcc ecc ws s).trans (.foldl accesses_portC _ _)

/-- Port C has kept the read of word `w` waiting. -/
def starvedEv (sn : SN) (w : Nat) : Ev := { typ := 0x91, sn := sn, p0 := 8 * w }

/-- The answers that a read has met are counted, and words that have starved it are raised. -/
def readWaited (starved : List Nat) (n : Nat) (s : State) : Dev := starved.foldl (fun d w => raise d (starvedEv s.sn w)) (spBusy n s.dev)

theorem within_readWaited (starved : List Nat) (n : Nat) (s : State) :
    Within [busyWord] [.regs, .hif, .pm] s.dev (readWaited starved n s) := by
  have hbusy : Within [busyWord] [.regs, .hif, .pm] s.dev (spBusy n s.dev) := (within_spBusy n s.dev).mono
  exact hbusy.trans (.foldl (fun d _ _ => (Within.refl _ _ d).raise) _)

theorem rd_readWaited (starved : List Nat) (n : Nat) (s : State) :
    rd (readWaited starved n s) F.CTL_SP_STAT_BUSY = satAdd 32 (rd s.dev F.CTL_SP_STAT_BUSY) n :=
  (foldl_same (f := fun d w => raise d (starvedEv s.sn w)) (g := fun d => rd d F.CTL_SP_STAT_BUSY) (fun _ _ => rfl) starved _).trans
    (rd_spBusy n s.dev)

/-- An event that has been raised stays. -/
theorem mem_evq_foldl {β : Type} {g : Dev → β → Dev} {e : Ev} (hg : ∀ d x, e ∈ d.hif.evq → e ∈ (g d x).hif.evq) (l : List β) {d : Dev}
    (h : e ∈ d.hif.evq) : e ∈ (l.foldl g d).hif.evq := by
  induction l generalizing d with
  | nil => exact h
  | cons x l ih => exact ih (hg d x h)

theorem mem_evq_readWaited {starved : List Nat} {w : Nat} (hw : w ∈ starved) (n : Nat) (s : State) :
    ∃ e ∈ (readWaited starved n s).hif.evq, e.typ = 0x91 ∧ e.p0 = 8 * w := by
  obtain ⟨pre, post, rfl⟩ := List.append_of_mem hw
  rw [readWaited, List.foldl_append, List.foldl_cons]
  exact ⟨_, mem_evq_foldl (fun _ _ h => List.mem_append_left _ h) post (List.mem_append_right _ (List.mem_singleton_self _)), rfl, rfl⟩

theorem mem_evq_spFail {e : Ev} {d : Dev} (h : e ∈ d.hif.evq) (port : Nat) (sn : SN) (ws : List Nat) : e ∈ (spFail port sn ws d).hif.evq :=
  mem_evq_foldl (fun _ _ h => List.mem_append_left _ h) ws h

/-- What a read answers. -/
def readAnswer (off n : Nat) (bad : List Nat) (p : Scratch) : Out :=
  .bar2 ((List.range n).map fun k => spByte p (off + k)) (!bad.isEmpty)

/-- Words that port C has kept busy for 1024 answers. -/
def starvedWords (ws : List Nat) (xs : List PortC) : List Nat := ws.filter fun w => 1024 ≤ (xs.filter fun x => x.word == w && plainC x).length

theorem bar2Read_eq (off n : Nat) (pc : List PortC) (ecc : List (Nat × Bool)) (s : State) : bar2Read off n pc ecc s =
    let ws := spWords off n
    let b := readBegun ws pc ecc s
    let bad := ws.filter b.sp.bad.contains
    let d := readWaited (starvedWords ws (metBy ws pc)) ((metBy ws pc).filter plainC).length b
    { b with dev := emit (spFail 1 b.sn bad d) (readAnswer off n bad b.sp) } := rfl

/-- A read in the window, by the state in which it finds the scratchpad. -/
theorem bar2Read_reads {off : BitVec 22} {n : Nat} {pc : List PortC} {ecc : List (Nat × Bool)} {s b : State}
    (hcore : s.dev.pwr.core = true) (hwindow : off.toNat + n ≤ 2 ^ 22) (hplain : ∀ x ∈ pc, plainC x = true)
    (hb : readBegun (spWords off.toNat n) pc ecc s = b) : ∃ t, exec (.bar2Read off n pc ecc) s = .next t ∧
      (t.pending = s.pending ∧ t.sn = s.sn ∧ t.ticked = s.ticked ∧ t.lock = s.lock ∧ Only [.out, .regs, .hif, .pm] s.dev t.dev ∧
        rd t.dev F.CTL_SP_STAT_BUSY = satAdd 32 (rd s.dev F.CTL_SP_STAT_BUSY) (pc.filter fun x => (spWords off.toNat n).contains x.word).length) ∧
      t.sp = b.sp ∧
      Sent s.dev t.dev [readAnswer off.toNat n ((spWords off.toNat n).filter b.sp.bad.contains) b.sp] ∧
      ∀ w ∈ starvedWords (spWords off.toNat n) (metBy (spWords off.toNat n) pc), ∃ e ∈ t.dev.hif.evq, e.typ = 0x91 ∧ e.p0 = 8 * w := by
  have hexec : exec (.bar2Read off n pc ecc) s = .next (bar2Read off.toNat n pc ecc s) := (if_neg (by omega)).trans (coreSt_of_core hcore _)
  have hacc := accesses_readBegun (spWords off.toNat n) pc ecc s
  have hall : (metBy (spWords off.toNat n) pc).filter plainC = metBy (spWords off.toNat n) pc :=
    List.filter_eq_self.mpr fun x hx => hplain x (List.mem_of_mem_filter hx)
  rw [bar2Read_eq] at hexec
  dsimp only at hexec
  rw [hb, hall] at hexec
  rw [hb] at hacc
  have hwaited := within_readWaited (starvedWords (spWords off.toNat n) (metBy (spWords off.toNat n) pc)) (metBy (spWords off.toNat n) pc).length b
  have hcount := rd_readWaited (starvedWords (spWords off.toNat n) (metBy (spWords off.toNat n) pc)) (metBy (spWords off.toNat n) pc).length b
  have hev := fun w hw => mem_evq_readWaited (starved := starvedWords (spWords off.toNat n) (metBy (spWords off.toNat n) pc)) (w := w) hw
    (metBy (spWords off.toNat n) pc).length b
  generalize readWaited (starvedWords (spWords off.toNat n) (metBy (spWords off.toNat n) pc)) (metBy (spWords off.toNat n) pc).length b = d at *
  have hfail := within_spFail 1 b.sn ((spWords off.toNat n).filter b.sp.bad.contains) d
  have hkeeps := fun e (he : e ∈ d.hif.evq) => mem_evq_spFail he 1 b.sn ((spWords off.toNat n).filter b.sp.bad.contains)
  generalize spFail 1 b.sn ((spWords off.toNat n).filter b.sp.bad.contains) d = f at *
  have hout : f.out = s.dev.out :=
    (hfail.parts .out (by simp)).trans ((hwaited.parts .out (by simp)).trans (hacc.frame.parts .out (by simp)))
  refine ⟨_, hexec, ⟨hacc.pending, hacc.sn, hacc.ticked, hacc.lock, ?_, ?_⟩, rfl, ?_, fun w hw => ?_⟩
  · exact (((hacc.frame.parts.trans hwaited.parts).trans hfail.parts).trans (only_emit f _)).mono (by simp)
  · exact (hfail.rd (by decide)).trans (hcount.trans (by rw [hacc.frame.rd (by decide)]; rfl))
  · exact congrArg (· ++ _) hout
  · obtain ⟨e, he, hfacts⟩ := hev w hw
    exact ⟨e, hkeeps e he, hfacts⟩

/-- Reads of port C change no byte. -/
theorem readBegun_of_reads {ws : List Nat} {pc : List PortC} (hreads : ∀ x ∈ pc, x.op = .read) (ecc : List (Nat × Bool)) (s : State) :
    (readBegun ws pc ecc s).sp = (spEcc ecc ws s).sp := by
  have hone (u : State) (x : PortC) (hx : x.op = .read) : (portC u x).sp = u.sp := by
    obtain ⟨w, op⟩ := x
    obtain rfl : op = .read := hx
    exact (apply_ite State.sp _ _ _).trans (ite_self _)
  have hmet : ∀ x ∈ metBy ws pc, x.op = .read := fun x hx => hreads x (List.mem_of_mem_filter hx)
  unfold readBegun
  generalize metBy ws pc = xs at hmet
  generalize spEcc ecc ws s = u
  induction xs generalizing u with
  | nil => rfl
  | cons x xs ih =>
    exact (ih (fun y hy => hmet y (List.mem_cons_of_mem x hy)) _).trans (hone u x (hmet x List.mem_cons_self))

theorem filter_isEmpty_not {α : Type} (l : List α) (p : α → Bool) : (!(l.filter p).isEmpty) = l.any p := by
  rw [Bool.eq_iff_iff, Bool.not_eq_true', List.isEmpty_eq_false_iff_exists_mem, List.any_eq_true]
  exact exists_congr fun x => List.mem_filter

section
variable {off : BitVec 22} {n : Nat} {pc : List PortC} (ecc : List (Nat × Bool)) {s : State}
  (hcore : s.dev.pwr.core = true) (hwindow : off.toNat + n ≤ 2 ^ 22)
include hcore hwindow

theorem bar2Read_beside_reads (hreads : ∀ x ∈ pc, x.op = .read) : ∃ t, exec (.bar2Read off n pc ecc) s = .next t ∧
    (t.pending = s.pending ∧ t.sn = s.sn ∧ t.ticked = s.ticked ∧ t.lock = s.lock ∧ Only [.out, .regs, .hif, .pm] s.dev t.dev ∧
      rd t.dev F.CTL_SP_STAT_BUSY = satAdd 32 (rd s.dev F.CTL_SP_STAT_BUSY) (pc.filter fun x => (spWords off.toNat n).contains x.word).length) ∧
    t.sp.mem = s.sp.mem ∧
    Sent s.dev t.dev [.bar2 ((List.range n).map fun k => spByte s.sp (off.toNat + k))
      ((spWords off.toNat n).any fun w => t.sp.bad.contains w)] ∧
    ((∀ x ∈ pc, x.word = off.toNat / 8) → 1024 ≤ (pc.filter fun x => (spWords off.toNat n).contains x.word).length →
      ∃ e ∈ t.dev.hif.evq, e.typ = 0x91 ∧ e.p0 = 8 * (off.toNat / 8)) := by
  have hplain : ∀ x ∈ pc, plainC x = true := fun x hx => by rw [plainC, hreads x hx]
  have hsp : (readBegun (spWords off.toNat n) pc ecc s).sp = (spEcc ecc (spWords off.toNat n) s).sp := readBegun_of_reads hreads ecc s
  obtain ⟨t, hexec, hsame, htsp, hsent, hstarved⟩ := bar2Read_reads (ecc := ecc) hcore hwindow hplain rfl
  rw [hsp] at htsp hsent
  refine ⟨t, hexec, hsame, by rw [htsp, spEcc_sp_mem], ?_, fun hword hhits => hstarved _ ?_⟩
  · rw [readAnswer, filter_isEmpty_not] at hsent
    rw [htsp]
    exact hsent
  · obtain ⟨x, hx⟩ := List.exists_mem_of_length_pos (Nat.lt_of_lt_of_le (by decide) hhits)
    obtain ⟨hxpc, hxws⟩ := List.mem_filter.mp hx
    have hall : (metBy (spWords off.toNat n) pc).filter (fun x => x.word == off.toNat / 8 && plainC x) = metBy (spWords off.toNat n) pc :=
      List.filter_eq_self.mpr fun y hy => by
        have hypc := List.mem_of_mem_filter hy
        rw [hword y hypc, hplain y hypc, Bool.and_true]
        exact beq_self_eq_true _
    refine List.mem_filter.mpr ⟨?_, decide_eq_true ?_⟩
    · rw [← hword x hxpc]
      exact List.contains_iff_mem.mp hxws
    · rw [hall]
      exact hhits

omit hcore hwindow in
/-- An aligned access of eight bytes touches one word. -/
theorem spWords_aligned {a : Nat} (h : a % 8 = 0) : spWords a 8 = [a / 8] := by
  have hone : (a + 8 + 7) / 8 - a / 8 = 1 := by omega
  rw [spWords, hone]
  rfl

omit hcore hwindow in
/-- Port C writes a whole word. -/
theorem portC_write_full (u : State) (w : Nat) (v : BitVec 64) :
    (portC u { word := w, op := .write v 0xFF }).sp = spPutWord u.sp w v := by
  have hbytes : ((List.range 8).map fun k => if (0xFF : BitVec 8).getLsbD k then some (v.extractLsb' (8 * k) 8) else none) = word64Bytes v :=
    List.map_congr_left fun k hk => if_pos (by
      have := List.mem_range.mp hk
      interval_cases k <;> rfl)
  have hall : (word64Bytes v).all Option.isSome = true := by simp [word64Bytes]
  have heq : portC u { word := w, op := .write v 0xFF } = spStore 0 (word64Bytes v) u w := congrArg (fun bs => spStore 0 bs u w) hbytes
  rw [heq, spStore_eq, if_pos hall, spPutWord_eq]

omit hcore hwindow in
theorem word_bytes {p : Scratch} {w : Nat} {v : BitVec 64} (h : spWord p w = v) :
    ((List.range 8).map fun k => spByte p (8 * w + k)) = (List.range 8).map fun k => v.extractLsb' (8 * k) 8 :=
  List.map_congr_left fun k hk => spWord_eq_iff.mp h k (List.mem_range.mp hk)

theorem bar2Read_beside_write {v : BitVec 64} (hpc : pc = [{ word := off.toNat / 8, op := .write v 0xFF }]) (halign : off.toNat % 8 = 0)
    (hn : n = 8) : ∃ t, exec (.bar2Read off n pc ecc) s = .next t ∧
    (t.pending = s.pending ∧ t.sn = s.sn ∧ t.ticked = s.ticked ∧ t.lock = s.lock ∧ Only [.out, .regs, .hif, .pm] s.dev t.dev ∧
      rd t.dev F.CTL_SP_STAT_BUSY = satAdd 32 (rd s.dev F.CTL_SP_STAT_BUSY) (pc.filter fun x => (spWords off.toNat n).contains x.word).length) ∧
    spWord t.sp (off.toNat / 8) = v ∧ (∀ a, a / 8 ≠ off.toNat / 8 → spByte t.sp a = spByte s.sp a) ∧
    Sent s.dev t.dev [.bar2 ((List.range 8).map fun k => v.extractLsb' (8 * k) 8) false] := by
  have hplain : ∀ x ∈ pc, plainC x = true := by simp [hpc, plainC]
  subst hn
  have hwords := spWords_aligned halign
  have hmet : metBy [off.toNat / 8] pc = pc := by simp [metBy, hpc]
  have hsp : (readBegun [off.toNat / 8] pc ecc s).sp = spPutWord (spEcc ecc [off.toNat / 8] s).sp (off.toNat / 8) v := by
    rw [readBegun, hmet, hpc]
    exact portC_write_full _ _ v
  obtain ⟨t, hexec, hsame, htsp, hsent, -⟩ := bar2Read_reads (ecc := ecc) hcore hwindow hplain rfl
  rw [hwords, hsp] at htsp hsent
  have hword := spWord_spPutWord (spEcc ecc [off.toNat / 8] s).sp (off.toNat / 8) v
  have hbad : [off.toNat / 8].filter (spPutWord (spEcc ecc [off.toNat / 8] s).sp (off.toNat / 8) v).bad.contains = [] := by
    rw [spPutWord_bad]
    simp
  refine ⟨t, hexec, hsame, htsp ▸ hword, fun a ha => ?_, ?_⟩
  · rw [htsp, spByte_spPutWord, if_neg ha, spByte_spEcc]
  · have hbytes := word_bytes hword
    rw [show 8 * (off.toNat / 8) = off.toNat by omega] at hbytes
    rw [readAnswer, hbad, hbytes] at hsent
    exact hsent

end

/-- Settles O38: writes word by word, and reads beside what port C does. -/
theorem bar2StoresAndReturnsBytes : Obligations.Bar2StoresAndReturnsBytes := by
  unfold Obligations.Bar2StoresAndReturnsBytes
  refine ⟨fun off data pc ecc s hcore hwindow hplain => ?_, fun off n pc ecc s hcore hwindow => ⟨fun hreads =>
    bar2Read_beside_reads ecc hcore hwindow hreads, fun v hpc halign hn => bar2Read_beside_write ecc hcore hwindow hpc halign hn⟩⟩
  have h := bar2Write_stores (ecc := ecc) hcore hwindow hplain
  rw [spMerged_eq] at h
  simp only [spStores_eq] at h
  exact h

/-! ### AtomicOps (R381) -/

section
variable (off : BitVec 22) (f : BitVec 64 → BitVec 64) (pc : List PortC) (ecc : List (Nat × Bool)) {s : State} {c : Instr}
  (hcore : s.dev.pwr.core = true) (hexec : exec c s = coreSt s (bar2Atomic off.toNat f pc ecc))
include hcore hexec

theorem atomic_unaligned (h : off.toNat % 8 ≠ 0) : Acts [.out] c s fun t => Sent s.dev t.dev [.unsupported] := by
  have heq : bar2Atomic off.toNat f pc ecc s = { s with dev := emit s.dev .unsupported } := if_pos h
  refine ((Within.refl [] _ s.dev).emit).acts ?_ rfl
  rw [hexec, coreSt_of_core hcore, heq]

theorem atomic_denied (halign : off.toNat % 8 = 0) (h : spOpen s.dev off.toNat = false) :
    ActsR [F.CTL_SP_STAT_DENY.addr 0] [.out] c s fun t =>
      Sent s.dev t.dev [.abort] ∧ rd t.dev F.CTL_SP_STAT_DENY = satAdd 32 (rd s.dev F.CTL_SP_STAT_DENY) 1 := by
  have heq : bar2Atomic off.toNat f pc ecc s = { s with dev := emit (sat s.dev F.CTL_SP_STAT_DENY 0) .abort } :=
    (if_neg (by omega)).trans (if_pos (by simp [h]))
  refine ((Within.refl _ _ s.dev).sat.emit).actsR ?_ ⟨rfl, rd_sat_same _ (by decide) _ _⟩
  rw [hexec, coreSt_of_core hcore, heq]

/-- An AtomicOp on the word that port C leaves in the state `b`. -/
theorem atomic_stores {b : State} {old : BitVec 64} (halign : off.toNat % 8 = 0) (hopen : spOpen s.dev off.toNat = true)
    (hb : (pc.filter (·.word == off.toNat / 8)).foldl portC (spEcc ecc [off.toNat / 8] s) = b)
    (hgood : b.sp.bad.contains (off.toNat / 8) = false) (hregs : Only [.regs] s.dev b.dev)
    (hold : spWord b.sp (off.toNat / 8) = old) (hothers : ∀ a, a / 8 ≠ off.toNat / 8 → spByte b.sp a = spByte s.sp a) :
    ∃ t, exec c s = .next t ∧ t.pending = s.pending ∧ t.sn = s.sn ∧ t.ticked = s.ticked ∧ t.lock = s.lock ∧ Only [.out, .regs] s.dev t.dev ∧
      spWord t.sp (off.toNat / 8) = f old ∧ (∀ a, a / 8 ≠ off.toNat / 8 → spByte t.sp a = spByte s.sp a) ∧
      Sent s.dev t.dev [.bar2 ((List.range 8).map fun k => old.extractLsb' (8 * k) 8) false] := by
  have hacc : Accesses s b := hb ▸ (accesses_spEcc ecc _ s).trans (.foldl accesses_portC _ _)
  have hatomic : spAtomic 1 f b (off.toNat / 8) = { b with sp := spPutWord b.sp (off.toNat / 8) (f old) } := by
    rw [← hold]
    exact if_neg (by rw [hgood]; exact Bool.false_ne_true)
  have heq : bar2Atomic off.toNat f pc ecc s = { b with
      sp := spPutWord b.sp (off.toNat / 8) (f old)
      dev := emit b.dev (.bar2 ((List.range 8).map fun k => spByte b.sp (off.toNat + k)) (b.sp.bad.contains (off.toNat / 8))) } := by
    refine (if_neg (by omega)).trans ((if_neg (by simp [hopen])).trans ?_)
    dsimp only
    rw [hb, hatomic]
  have hbytes := word_bytes hold
  rw [show 8 * (off.toNat / 8) = off.toNat by omega] at hbytes
  rw [coreSt_of_core hcore, heq, hbytes, hgood] at hexec
  refine ⟨_, hexec, hacc.pending, hacc.sn, hacc.ticked, hacc.lock, (hregs.trans (only_emit b.dev _)).mono (by simp),
    spWord_spPutWord _ _ _, fun a ha => ?_, ?_⟩
  · rw [spByte_spPutWord, if_neg ha, hothers a ha]
  · exact congrArg (· ++ _) (hregs .out (by simp))

end

/-- Settles O39: by what port C leaves in the word, and where an AtomicOp is turned away. -/
theorem atomicsReturnOldValue : Obligations.AtomicsReturnOldValue := by
  unfold Obligations.AtomicsReturnOldValue
  refine ⟨fun off val v ecc s hcore halign hopen hgood => ?_, fun off val pc ecc s c hcore hc => ?_⟩
  · have hecc : Only [.regs] s.dev (spEcc ecc [off.toNat / 8] s).dev := only_wr _ _ _ _
    have hnone (f : BitVec 64 → BitVec 64) (c : Instr) (hexec : exec c s = coreSt s (bar2Atomic off.toNat f [] ecc)) :=
      atomic_stores off f [] ecc hcore hexec halign hopen rfl hgood hecc rfl fun a _ => rfl
    have hadd : ([{ word := off.toNat / 8, op := .add v }] : List PortC).filter (·.word == off.toNat / 8) =
        [{ word := off.toNat / 8, op := .add v }] := by simp
    have hportC : ([{ word := off.toNat / 8, op := .add v }] : List PortC).foldl portC (spEcc ecc [off.toNat / 8] s) =
        { spEcc ecc [off.toNat / 8] s with
          sp := spPutWord (spEcc ecc [off.toNat / 8] s).sp (off.toNat / 8) (spWord s.sp (off.toNat / 8) + v) } :=
      if_neg (by rw [hgood]; exact Bool.false_ne_true)
    have hafter (f : BitVec 64 → BitVec 64) (c : Instr)
        (hexec : exec c s = coreSt s (bar2Atomic off.toNat f [{ word := off.toNat / 8, op := .add v }] ecc)) :=
      atomic_stores off f _ ecc hcore hexec halign hopen ((congrArg (List.foldl portC _) hadd).trans hportC)
        (by dsimp only; rw [spPutWord_bad]; simp) hecc (spWord_spPutWord _ _ _)
        fun a ha => by dsimp only; rw [spByte_spPutWord, if_neg ha, spByte_spEcc]
    intro w does x hx
    rcases List.mem_pair.mp hx with rfl | rfl
    · exact ⟨hnone (· + val) _ rfl, hnone (fun _ => val) _ rfl⟩
    · exact ⟨hafter (· + val) _ rfl, hafter (fun _ => val) _ rfl⟩
  · rcases hc with rfl | rfl
    · exact ⟨atomic_unaligned off _ pc ecc hcore rfl, atomic_denied off _ pc ecc hcore rfl⟩
    · exact ⟨atomic_unaligned off _ pc ecc hcore rfl, atomic_denied off _ pc ecc hcore rfl⟩

end Sys2Proof.Machine
end

