-- ==== Sys2Proof/Proofs/Boot.lean ====
section
/-! PROOFS. Boot, watchdogs, halts and firmware updates (R392 to R398, R475). -/

namespace Sys2Proof.Machine

-- In order: a default argument `by simp` waits for every declaration before it, and many that wait take many threads.
set_option Elab.async false

/-! ### The cores' words -/

/-- CTL_CORE_STATUS and CTL_BOOT. -/
abbrev coreWord : Nat := F.CTL_CORE_STATUS_C0_STATE.addr 0
abbrev bootWord : Nat := F.CTL_BOOT_STAGE.addr 0

@[simp] theorem addr_c1State : F.CTL_CORE_STATUS_C1_STATE.addr 0 = coreWord := rfl
@[simp] theorem addr_fwReady : F.CTL_CORE_STATUS_FW_READY.addr 0 = coreWord := rfl
@[simp] theorem addr_fwSrc : F.CTL_CORE_STATUS_FW_SRC.addr 0 = coreWord := rfl
@[simp] theorem addr_svn : F.CTL_CORE_STATUS_SVN.addr 0 = coreWord := rfl
@[simp] theorem addr_halt1 : F.DBG_CTL_HALT1.addr 0 = F.DBG_CTL_HALT0.addr 0 := rfl

theorem within_coresTo (d : Dev) (n : Nat) : Within [coreWord] [.regs] d (coresTo d n) := ((Within.refl _ _ d).wr).wr

theorem rd_coresTo (d : Dev) {n : Nat} (hn : n < 8) :
    rd (coresTo d n) F.CTL_CORE_STATUS_C0_STATE = n ∧ rd (coresTo d n) F.CTL_CORE_STATUS_C1_STATE = n :=
  ⟨(rd_wr_apart _ (by decide)).trans (rd_wr_fits d ⟨by decide, hn⟩), rd_wr_fits _ ⟨by decide, hn⟩⟩

theorem rd_coresTo_apart (d : Dev) (n : Nat) {f : Fld} (h0 : F.CTL_CORE_STATUS_C0_STATE.apart f = true)
    (h1 : F.CTL_CORE_STATUS_C1_STATE.apart f = true) : rd (coresTo d n) f = rd d f := by
  rw [coresTo, rd_wr_apart _ h1, rd_wr_apart _ h0]

/-! ### Boot (R392, R475) -/

/-- What a started image shows. -/
structure Started (src svn : Nat) (a b : Dev) : Prop where
  c0 : rd b F.CTL_CORE_STATUS_C0_STATE = 2
  c1 : rd b F.CTL_CORE_STATUS_C1_STATE = 2
  src : rd b F.CTL_CORE_STATUS_FW_SRC = src
  svn : rd b F.CTL_CORE_STATUS_SVN = svn % 2 ^ 16
  ready : rd b F.CTL_CORE_STATUS_FW_READY = rd a F.CTL_CORE_STATUS_FW_READY
  stage : rd b F.CTL_BOOT_STAGE = 4

theorem within_startImg (src : Nat) (img : List (BitVec 8)) (d : Dev) : Within ctlRegs [.regs] d (startImg src img d) := by
  have hcores : Within ctlRegs [.regs] d (coresTo d 2) := (within_coresTo d 2).mono (by decide)
  exact ((hcores.wr (by decide)).wr (by decide)).wr (by decide) |>.wrB (by decide)

theorem started_startImg {src : Nat} (hsrc : src < 4) (img : List (BitVec 8)) (d : Dev) :
    Started src (imgSvn img) d (startImg src img d) := by
  obtain ⟨hc0, hc1⟩ := rd_coresTo d (n := 2) (by decide)
  unfold startImg
  refine ⟨?_, ?_, ?_, ?_, ?_, ?_⟩
  · rw [rd_wrB_parted _ (by decide), rd_wr_apart _ (by decide), rd_wr_apart _ (by decide), rd_wr_parted _ (by decide), hc0]
  · rw [rd_wrB_parted _ (by decide), rd_wr_apart _ (by decide), rd_wr_apart _ (by decide), rd_wr_parted _ (by decide), hc1]
  · rw [rd_wrB_parted _ (by decide), rd_wr_apart _ (by decide)]
    exact rd_wr_fits _ ⟨by decide, hsrc⟩
  · rw [rd_wrB_parted _ (by decide)]
    exact rd_wr_same _ _ _ _ (by decide)
  · rw [rd_wrB_parted _ (by decide), rd_wr_apart _ (by decide), rd_wr_apart _ (by decide), rd_wr_parted _ (by decide),
      rd_coresTo_apart _ _ (by decide) (by decide)]
  · rw [rd_wrB_parted _ (by decide), rd_wr_parted _ (by decide), rd_wr_parted _ (by decide)]
    exact rd_wr_fits _ (by decide)

/-- What `starts` of the statement says. -/
theorem Started.facts {src svn : Nat} {a b : Dev} (h : Started src svn a b) :
    rd b F.CTL_CORE_STATUS_C0_STATE = 2 ∧ rd b F.CTL_CORE_STATUS_C1_STATE = 2 ∧ rd b F.CTL_CORE_STATUS_FW_SRC = src ∧
      rd b F.CTL_CORE_STATUS_SVN = svn % 2 ^ 16 ∧ rd b F.CTL_CORE_STATUS_FW_READY = rd a F.CTL_CORE_STATUS_FW_READY ∧
      rd b F.CTL_BOOT_STAGE = 4 :=
  ⟨h.c0, h.c1, h.src, h.svn, h.ready, h.stage⟩

section
variable {s : State} (hcore : s.dev.pwr.core = true)
include hcore

theorem imageVerified_starts {i : ImgSrc} {img : List (BitVec 8)} {src : Nat} {bytes : List (BitVec 8)} (hsrc : src < 4)
    (heq : imageVerified i img s.sp s.sn s.dev = startImg src bytes s.dev) :
    ActsR ctlRegs [] (.imageVerified i img) s fun t => Started src (imgSvn bytes) s.dev t.dev := by
  have hframe := within_startImg src bytes s.dev
  have hstarted := started_startImg hsrc bytes s.dev
  obtain ⟨b, hb⟩ : ∃ b, b = startImg src bytes s.dev := ⟨_, rfl⟩
  rw [← hb] at heq hframe hstarted
  exact hframe.actsR (exec_of_core (g := fun d => imageVerified i img s.sp s.sn d) rfl hcore heq) hstarted

theorem imageVerified_flash (b : Bool) (img : List (BitVec 8)) (hrom : inRom s.dev = true) (hstage : rd s.dev F.CTL_BOOT_STAGE = 0)
    (hflash : s.dev.ctl.flashA = b) (hok : verifyImg (rootOf s.dev) (svnFloor s.dev) img.length img = 0) :
    ActsR ctlRegs [] (.imageVerified (if b then .flashB else .flashA) img) s fun t =>
      Started (if b then 2 else 1) (imgSvn img) s.dev t.dev := by
  cases b with
  | false =>
    refine imageVerified_starts hcore (by decide) ?_
    unfold imageVerified
    simp only [Bool.false_eq_true, if_false, reduceCtorEq, hrom, hstage, hflash, hok, Bool.not_true, ne_eq, not_true_eq_false, false_and,
      and_false, or_self, if_true]
  | true =>
    refine imageVerified_starts hcore (by decide) ?_
    unfold imageVerified
    simp only [Bool.false_eq_true, if_false, reduceCtorEq, hrom, hstage, hflash, hok, Bool.not_true, ne_eq, not_true_eq_false, false_and,
      and_false, or_self, if_true]

theorem imageVerified_flash_fails {img : List (BitVec 8)} (hrom : inRom s.dev = true) (hstage : rd s.dev F.CTL_BOOT_STAGE = 0)
    (hflash : s.dev.ctl.flashA = false) (hbad : verifyImg (rootOf s.dev) (svnFloor s.dev) img.length img ≠ 0) :
    Acts [.ctl] (.imageVerified .flashA img) s fun t => t.dev.ctl = { s.dev.ctl with flashA := true } := by
  have heq : imageVerified .flashA img s.sp s.sn s.dev = { s.dev with ctl := { s.dev.ctl with flashA := true } } := by
    unfold imageVerified
    simp only [Bool.false_eq_true, if_false, reduceCtorEq, hrom, hstage, hflash, hbad, Bool.not_true, ne_eq, not_true_eq_false, false_and,
      and_false, or_self, if_true]
  exact (Within.of_only (only_ctl s.dev _)).acts (exec_of_core (g := fun d => imageVerified .flashA img s.sp s.sn d) rfl hcore heq) rfl

omit hcore in
theorem imageVerified_flashB_waits (img : List (BitVec 8)) (hflash : s.dev.ctl.flashA = false) :
    exec (.imageVerified .flashB img) s = .next s := by
  refine exec_of_core_self (g := fun d => imageVerified .flashB img s.sp s.sn d) rfl (if_pos ?_)
  simp [hflash]

theorem flashSearch_opens (hrom : inRom s.dev = true) (hstage : rd s.dev F.CTL_BOOT_STAGE = 0) (hpush : pushDis s.dev = false) :
    ActsR ctlRegs [] .flashSearch s fun t => rd t.dev F.CTL_BOOT_STAGE = 1 := by
  have heq : flashSearch s.dev = wrB (wr s.dev F.CTL_BOOT_STAGE 0 1) F.GLB_START_STATUS_FUSE_DONE 0 true :=
    (if_neg (by simp [hrom, hstage])).trans (if_neg (by simp [hpush]))
  refine (((Within.refl _ _ s.dev).wr (by decide)).wrB (by decide)).actsR (exec_of_core (g := flashSearch) rfl hcore heq) ?_
  exact (rd_wrB_parted _ (by decide)).trans (rd_wr_fits _ (by decide))

theorem flashSearch_repeats (hrom : inRom s.dev = true) (hstage : rd s.dev F.CTL_BOOT_STAGE = 0) (hpush : pushDis s.dev = true) :
    Acts [.ctl] .flashSearch s fun t => t.dev.ctl = { s.dev.ctl with flashA := false } := by
  have heq : flashSearch s.dev = { s.dev with ctl := { s.dev.ctl with flashA := false } } :=
    (if_neg (by simp [hrom, hstage])).trans (if_pos hpush)
  exact (Within.of_only (only_ctl s.dev _)).acts (exec_of_core (g := flashSearch) rfl hcore heq) rfl

theorem ctlBootGo_verifies (hstage : rd s.dev F.CTL_BOOT_STAGE = 1) :
    ActsR [bootWord] [] .ctlBootGo s fun t => rd t.dev F.CTL_BOOT_STAGE = 2 :=
  ((Within.refl _ _ s.dev).wr).actsR (exec_of_core (g := bootGo) rfl hcore (if_pos hstage)) (rd_wr_fits _ (by decide))

section
variable (img : List (BitVec 8)) (hrom : inRom s.dev = true) (hstage : rd s.dev F.CTL_BOOT_STAGE = 2)
include hrom hstage

/-- The image that the host has pushed. -/
abbrev pushedImg (s : State) : List (BitVec 8) := stagedBytes s.sp (min (rd s.dev F.CTL_BOOT_LEN) 0x100000)

theorem imageVerified_pushed
    (hok : verifyImg (rootOf s.dev) (svnFloor s.dev) (rd s.dev F.CTL_BOOT_LEN) (pushedImg s) = 0) :
    ActsR ctlRegs [] (.imageVerified .pushed img) s fun t => Started 3 (imgSvn (pushedImg s)) s.dev t.dev := by
  refine imageVerified_starts hcore (by decide) ?_
  unfold imageVerified
  simp only [if_true, reduceCtorEq, hrom, hstage, hok, Bool.not_true, Bool.false_eq_true, ne_eq, not_true_eq_false, false_and, or_self,
    if_false]

theorem imageVerified_pushed_fails
    (hbad : verifyImg (rootOf s.dev) (svnFloor s.dev) (rd s.dev F.CTL_BOOT_LEN) (pushedImg s) ≠ 0) :
    ActsR [bootWord] [.hif] (.imageVerified .pushed img) s fun t => rd t.dev F.CTL_BOOT_STAGE = 1 ∧
      Raised s.dev t.dev [{ typ := 0x94, sn := s.sn, p0 := 1 }] := by
  have heq : imageVerified .pushed img s.sp s.sn s.dev = raise (wr s.dev F.CTL_BOOT_STAGE 0 1) { typ := 0x94, sn := s.sn, p0 := 1 } := by
    unfold imageVerified
    simp only [if_true, reduceCtorEq, hrom, hstage, hbad, Bool.not_true, Bool.false_eq_true, ne_eq, not_true_eq_false, false_and, or_self,
      if_false]
  exact (((Within.refl _ _ s.dev).wr).raise).actsR (exec_of_core (g := fun d => imageVerified .pushed img s.sp s.sn d) rfl hcore heq)
    ⟨rd_wr_fits s.dev (f := F.CTL_BOOT_STAGE) (by decide), rfl⟩

end

end

end Sys2Proof.Machine
end

