-- ==== Sys2Proof/Proofs/CoreSupervision.lean ====
section
/-! PROOFS. Watchdogs, halts and the readiness of firmware (R393 to R398). -/

namespace Sys2Proof.Machine

-- In order: a default argument `by simp` waits for every declaration before it, and many that wait take many threads.
set_option Elab.async false

/-- The state of a core. -/
abbrev coreFld (c : Nat) : Fld := if c = 0 then F.CTL_CORE_STATUS_C0_STATE else F.CTL_CORE_STATUS_C1_STATE
/-- Its halt request. -/
abbrev haltFld (c : Nat) : Fld := if c = 0 then F.DBG_CTL_HALT0 else F.DBG_CTL_HALT1
/-- The state of the other core. -/
abbrev otherFld (c : Nat) : Fld := if c = 0 then F.CTL_CORE_STATUS_C1_STATE else F.CTL_CORE_STATUS_C0_STATE

/-- A halt of core `c` as asked for and shown. -/
def haltShown (c : Nat) (on : Bool) (d : Dev) : Dev :=
  let d := wrB d (haltFld c) 0 on
  wr d F.DBG_STATUS_HALTED 0 (setBit (rd d F.DBG_STATUS_HALTED) c on)

section
variable (d : Dev) (c : Fin 2) (on : Bool)

theorem within_haltShown : Within ctlRegs [.regs] d (haltShown c on d) := by
  have hhalt : (haltFld c.val).addr 0 ∈ ctlRegs := by fin_cases c <;> decide
  exact ((Within.refl _ _ d).wrB hhalt).wr (by decide)

/-- What a halt leaves of the cores' states, and what it shows. -/
theorem haltShown_spec : rd (haltShown c on d) (coreFld c) = rd d (coreFld c) ∧ rd (haltShown c on d) (otherFld c) = rd d (otherFld c) ∧
    (rd (haltShown c on d) F.DBG_STATUS_HALTED).testBit c.val = on ∧ rd (haltShown c on d) (haltFld c) = on.toNat := by
  have hparted : (coreFld c.val).parted F.DBG_STATUS_HALTED = true ∧ (coreFld c.val).parted (haltFld c.val) = true ∧
      (otherFld c.val).parted F.DBG_STATUS_HALTED = true ∧ (otherFld c.val).parted (haltFld c.val) = true ∧
      (haltFld c.val).parted F.DBG_STATUS_HALTED = true ∧ (haltFld c.val).lo < 32 ∧ (haltFld c.val).wd = 1 := by
    fin_cases c <;> decide
  obtain ⟨hcs, hch, hos, hoh, hhs, hlo, hwd⟩ := hparted
  unfold haltShown
  refine ⟨?_, ?_, ?_, ?_⟩
  · rw [rd_wr_parted _ hcs, rd_wrB_parted _ hch]
  · rw [rd_wr_parted _ hos, rd_wrB_parted _ hoh]
  · have hlt := rd_lt (wrB d (haltFld c) 0 on) F.DBG_STATUS_HALTED 0
    rw [rd_wr_fits (f := F.DBG_STATUS_HALTED) _ ⟨by decide, setBit_lt on hlt c.isLt⟩, testBit_setBit, if_pos rfl]
  · rw [rd_wr_parted _ hhs, rd_wrB_bit _ ⟨hlo, hwd⟩]

/-- A core that runs or is halted goes to another state. -/
def coreTo (c n : Nat) (d : Dev) : Dev := wr d (coreFld c) 0 n

theorem coreTo_spec {n : Nat} (hn : n < 8) : Within ctlRegs [.regs] d (coreTo c n d) ∧ rd (coreTo c n d) (coreFld c) = n ∧
    rd (coreTo c n d) (otherFld c) = rd d (otherFld c) ∧ rd (coreTo c n d) F.DBG_STATUS_HALTED = rd d F.DBG_STATUS_HALTED ∧
    rd (coreTo c n d) (haltFld c) = rd d (haltFld c) := by
  have hfld : (coreFld c.val).addr 0 ∈ ctlRegs ∧ (coreFld c.val).lo + (coreFld c.val).wd ≤ 32 ∧ (coreFld c.val).wd = 3 ∧
      (coreFld c.val).apart (otherFld c.val) = true ∧ F.DBG_STATUS_HALTED.parted (coreFld c.val) = true ∧
      (haltFld c.val).parted (coreFld c.val) = true := by
    fin_cases c <;> decide
  obtain ⟨hmem, hfits, hwd, hother, hhalted, hhalt⟩ := hfld
  exact ⟨(Within.refl _ _ d).wr hmem, rd_wr_fits _ ⟨hfits, by rw [hwd]; exact hn⟩, rd_wr_apart _ hother, rd_wr_parted _ hhalted,
    rd_wr_parted _ hhalt⟩

end

theorem coreRestart_eq (d : Dev) (c : Nat) : coreRestart d c =
    let e := haltShown c false d
    if rd e (coreFld c) = 2 ∨ rd e (coreFld c) = 3 then coreTo c 4 e else e := by
  have hset (h : Nat) : (if h.testBit c then h - 2 ^ c else h) = setBit h c false := by
    cases hb : h.testBit c <;> simp [setBit, hb]
  unfold coreRestart
  simp only [hset]
  rfl

section
variable {s : State} (hcore : s.dev.pwr.core = true) (c : Fin 2)
include hcore

theorem coreWdt_restarts (harmed : (s.dev.ctl.wdt[c.val]?).getD 0 ≠ 0)
    (hruns : rd s.dev (coreFld c) = 2 ∨ rd s.dev (coreFld c) = 3 ∧ rd s.dev F.DBG_CTL_WDT_HALT = 0) :
    ActsR ctlRegs [.hif] (.coreWdt c) s fun t => rd t.dev (coreFld c) = 4 ∧ rd t.dev (otherFld c) = rd s.dev (otherFld c) ∧
      (rd t.dev F.DBG_STATUS_HALTED).testBit c.val = false ∧ Raised s.dev t.dev [{ typ := 0x92, sn := s.sn, p0 := c.val }] := by
  have hst : (if c.val = 0 then c0State s.dev else c1State s.dev) = rd s.dev (coreFld c) := by
    rw [coreFld]
    split <;> rfl
  obtain ⟨hstate, hother, hhalted, -⟩ := haltShown_spec s.dev c false
  obtain ⟨hto, hfour, htoOther, htoHalted, -⟩ := coreTo_spec (haltShown c false s.dev) c (n := 4) (by decide)
  have hframe := (within_haltShown s.dev c false).trans hto
  have hrun : rd s.dev (coreFld c) = 2 ∨ rd s.dev (coreFld c) = 3 := hruns.imp_right And.left
  have hrestart : coreRestart s.dev c = coreTo c 4 (haltShown c false s.dev) := by
    rw [coreRestart_eq]
    exact if_pos (by rw [hstate]; exact hrun)
  have heq : coreWdt c s.sn s.dev = raise (coreTo c 4 (haltShown c false s.dev)) { typ := 0x92, sn := s.sn, p0 := c.val } := by
    unfold coreWdt
    rw [hst, hrestart]
    refine if_neg ?_
    rintro (h | h | ⟨h3, hhalt⟩)
    · exact harmed h
    · rcases hrun with hr | hr <;> simp [hr] at h
    · rcases hruns with hr | ⟨-, hr⟩
      · omega
      · simp [rdB, hr] at hhalt
  rw [hother] at htoOther
  have hhif : (coreTo c 4 (haltShown c false s.dev)).hif.evq = s.dev.hif.evq := by rw [hframe.parts .hif (by simp)]
  have hrole : (coreTo c 4 (haltShown c false s.dev)).twin.role = s.dev.twin.role := by rw [hframe.parts .twin (by simp)]
  generalize coreTo c 4 (haltShown c false s.dev) = b at *
  have hto : Within ctlRegs [.regs, .hif] s.dev b := hframe.mono
  exact hto.raise.actsR (exec_of_core (g := fun d => coreWdt c s.sn d) rfl hcore heq)
    ⟨hfour, htoOther, (congrArg (Nat.testBit · c.val) htoHalted).trans hhalted, (raised_raise b _).of_same hhif hrole rfl⟩

omit hcore in
theorem lset_eq_set {α : Type} (l : List α) (i : Nat) (x : α) : lset l i x = l.set i x := by
  refine List.ext_getElem? fun j => ?_
  rw [lset, lmod, List.getElem?_mapIdx, List.getElem?_set]
  by_cases h : i = j
  · subst h
    by_cases hlt : i < l.length
    · simp [hlt]
    · simp [hlt]
  · rw [if_neg h]
    cases l[j]? with
    | none => rfl
    | some y => simp [Ne.symm h]

theorem wdtKick_kicks : Acts [.ctl] (.wdtKick c) s fun t =>
    t.dev.ctl = { s.dev.ctl with wdt := s.dev.ctl.wdt.set c.val (rd s.dev F.CTL_WDT_CFG_TMO) } := by
  refine (Within.of_only (only_ctl s.dev { s.dev.ctl with wdt := lset s.dev.ctl.wdt c.val (rd s.dev F.CTL_WDT_CFG_TMO) })).acts
    (exec_of_core (g := wdtKick c) rfl hcore rfl) ?_
  rw [lset_eq_set]

theorem debugHalt_halts (on : Bool) (hruns : rd s.dev (coreFld c) = 2 ∨ rd s.dev (coreFld c) = 3) :
    ActsR ctlRegs [] (.debugHalt c on) s fun t => rd t.dev (coreFld c) = (if on = true then 3 else 2) ∧
      rd t.dev (otherFld c) = rd s.dev (otherFld c) ∧ (rd t.dev F.DBG_STATUS_HALTED).testBit c.val = on ∧
      rd t.dev (haltFld c) = on.toNat := by
  obtain ⟨hstate, hother, hhalted, hhalt⟩ := haltShown_spec s.dev c on
  obtain ⟨hto, hstop, htoOther, htoHalted, htoHalt⟩ := coreTo_spec (haltShown c on s.dev) c (n := if on then 3 else 2) (by split <;> decide)
  have hframe := (within_haltShown s.dev c on).trans hto
  have hfirst : rd (wrB s.dev (haltFld c) 0 on) (coreFld c) = rd s.dev (coreFld c) := by
    have : (coreFld c.val).parted (haltFld c.val) = true := by fin_cases c <;> decide
    exact rd_wrB_parted _ this
  have heq : debugHalt c on s.dev = coreTo c (if on then 3 else 2) (haltShown c on s.dev) := by
    refine if_neg ?_
    rw [show rd (wrB s.dev (if c.val = 0 then F.DBG_CTL_HALT0 else F.DBG_CTL_HALT1) 0 on)
      (if c.val = 0 then F.CTL_CORE_STATUS_C0_STATE else F.CTL_CORE_STATUS_C1_STATE) = rd s.dev (coreFld c) from hfirst]
    rcases hruns with h | h <;> simp [h]
  rw [hother] at htoOther
  rw [hhalt] at htoHalt
  obtain ⟨b, hb⟩ : ∃ b, b = coreTo c (if on then 3 else 2) (haltShown c on s.dev) := ⟨_, rfl⟩
  rw [← hb] at *
  exact hframe.actsR (exec_of_core (g := debugHalt c on) rfl hcore heq)
    ⟨hstop, htoOther, (congrArg (Nat.testBit · c.val) htoHalted).trans hhalted, htoHalt⟩

theorem fwReadyTimeout_fails (hact : s.dev.ctl.act ≠ none) (hrestarting : rd s.dev F.CTL_CORE_STATUS_C0_STATE = 4) :
    ActsR ctlRegs [.hif] .fwReadyTimeout s fun t => rd t.dev F.CTL_CORE_STATUS_C0_STATE = 5 ∧
      rd t.dev F.CTL_CORE_STATUS_C1_STATE = 5 ∧ Raised s.dev t.dev [{ typ := 0x94, sn := s.sn, p0 := 2 }] := by
  have heq : fwTimeout s.sn s.dev = if pushDis s.dev = true then raise (coresTo s.dev 5) { typ := 0x94, sn := s.sn, p0 := 2 }
      else wr (raise (coresTo s.dev 5) { typ := 0x94, sn := s.sn, p0 := 2 }) F.CTL_BOOT_STAGE 0 1 := by
    refine if_neg ?_
    rintro (h | h)
    · exact hact (Option.isNone_iff_eq_none.mp h)
    · exact h hrestarting
  have hcores : Within ctlRegs [.regs, .hif] s.dev (coresTo s.dev 5) := (within_coresTo s.dev 5).mono (by decide)
  obtain ⟨hc0, hc1⟩ := rd_coresTo s.dev (n := 5) (by decide)
  have hraised : Raised s.dev (raise (coresTo s.dev 5) { typ := 0x94, sn := s.sn, p0 := 2 }) [{ typ := 0x94, sn := s.sn, p0 := 2 }] := rfl
  cases hpush : pushDis s.dev with
  | true =>
    rw [hpush, if_pos rfl] at heq
    exact hcores.raise.actsR (exec_of_core (g := fwTimeout s.sn) rfl hcore heq) ⟨hc0, hc1, hraised⟩
  | false =>
    rw [hpush, if_neg Bool.false_ne_true] at heq
    exact (hcores.raise.wr (by decide)).actsR (exec_of_core (g := fwTimeout s.sn) rfl hcore heq)
      ⟨(rd_wr_parted _ (by decide)).trans hc0, (rd_wr_parted _ (by decide)).trans hc1, hraised⟩

end

/-- Settles O41: boot by stage and image, and what restarts, halts and fails the cores. -/
theorem bootAndCoreSupervision : Obligations.BootAndCoreSupervision := by
  unfold Obligations.BootAndCoreSupervision
  refine ⟨fun s hcore => ⟨fun b img hrom hstage hflash hok => ?_, fun img hrom hstage hflash => ⟨imageVerified_flash_fails hcore hrom hstage hflash,
      imageVerified_flashB_waits img hflash⟩, flashSearch_opens hcore, flashSearch_repeats hcore, ctlBootGo_verifies hcore,
      fun img hrom hstage => ⟨fun hok => ?_, imageVerified_pushed_fails hcore img hrom hstage⟩⟩,
    fun s c hcore => ⟨coreWdt_restarts hcore c, wdtKick_kicks hcore c, debugHalt_halts hcore c, fwReadyTimeout_fails hcore⟩⟩
  · exact (imageVerified_flash hcore b img hrom hstage hflash hok).weaken fun t ht => ht.facts
  · exact (imageVerified_pushed hcore img hrom hstage hok).weaken fun t ht => ht.facts

end Sys2Proof.Machine
end

