-- ==== Sys2Proof/Proofs/FirmwareUpdate.lean ====
section
/-! PROOFS. FW_STAGE and FW_READY (R393, R394, R475). -/

namespace Sys2Proof.Machine

-- In order: a default argument `by simp` waits for every declaration before it, and many that wait take many threads.
set_option Elab.async false

/-! ### The image's bytes -/

theorem stageImg_eq (img : List (BitVec 8)) (p : Scratch) : stageImg img p = putBytes 0x200000 0 (img.map some)
    { p with bad := p.bad.filter fun w => !(decide (0x40000 ≤ w) && decide (w < 0x40000 + cdiv img.length 8)) } := by
  rw [putBytes, List.zipIdx_map, List.foldl_map]
  rfl

theorem spByte_stageImg (img : List (BitVec 8)) (p : Scratch) (a : Nat) : spByte (stageImg img p) a =
    if 0x200000 ≤ a ∧ a < 0x200000 + img.length then (img[a - 0x200000]?).getD 0 else spByte p a := by
  rw [stageImg_eq, spByte_putBytes]
  by_cases hle : 0x200000 ≤ a
  · by_cases hlt : a < 0x200000 + img.length
    · rw [if_pos hle, if_pos ⟨hle, hlt⟩, List.getElem?_map, Nat.add_zero, List.getElem?_eq_getElem (show a - 0x200000 < img.length by omega)]
      rfl
    · rw [if_pos hle, if_neg fun h => hlt h.2, List.getElem?_eq_none (by rw [List.length_map]; omega)]
      rfl
  · rw [if_neg hle, if_neg fun h => hle h.1]
    rfl

/-! ### Activation (R393) -/

/-- Both cores restart, for the descriptor `uid` of ring `r` and an image of version `svn`. -/
def coresRestarted (r uid svn : Nat) (sn : SN) (d : Dev) : Dev :=
  take (wrB (coresTo { d with ctl := { d.ctl with act := some (r, uid, svn), actSn := sn } } 4) F.CTL_CORE_STATUS_FW_READY 0 false) r uid

theorem activate_eq {d : Dev} {x : Nat × Nat × Nat} (h : d.ctl.staged = some x) (r : Nat) (e : QEnt) (sn : SN) :
    activate r e sn d = coresRestarted r e.uid x.1 sn d := by
  unfold activate
  rw [h]
  rfl

/-- What shows that they do. -/
structure Restarts (r uid svn : Nat) (a b : Dev) : Prop where
  c0 : rd b F.CTL_CORE_STATUS_C0_STATE = 4
  c1 : rd b F.CTL_CORE_STATUS_C1_STATE = 4
  ready : rd b F.CTL_CORE_STATUS_FW_READY = 0
  act : b.ctl.act = some (r, uid, svn)
  taken : Taken a b r uid

theorem Restarts.facts {r uid svn : Nat} {a b : Dev} (h : Restarts r uid svn a b) :
    rd b F.CTL_CORE_STATUS_C0_STATE = 4 ∧ rd b F.CTL_CORE_STATUS_C1_STATE = 4 ∧ rd b F.CTL_CORE_STATUS_FW_READY = 0 ∧
      b.ctl.act = some (r, uid, svn) ∧ Taken a b r uid :=
  ⟨h.c0, h.c1, h.ready, h.act, h.taken⟩

section
variable (r uid svn : Nat) (sn : SN) (d : Dev)

theorem only_coresRestarted : Only [.regs, .hif, .ctl] d (coresRestarted r uid svn sn d) := by
  have h : Within [coreWord] [.regs, .hif, .ctl] d { d with ctl := { d.ctl with act := some (r, uid, svn), actSn := sn } } :=
    (Within.refl _ _ d).only (only_ctl d _)
  exact ((h.next (within_coresTo _ 4)).wrB (f := F.CTL_CORE_STATUS_FW_READY) (i := 0) (v := false)).take.parts

theorem restarts_coresRestarted : Restarts r uid svn d (coresRestarted r uid svn sn d) := by
  obtain ⟨hc0, hc1⟩ := rd_coresTo { d with ctl := { d.ctl with act := some (r, uid, svn), actSn := sn } } (n := 4) (by decide)
  refine ⟨?_, ?_, ?_, rfl, ?_⟩
  · exact (rd_wrB_apart _ (by decide)).trans hc0
  · exact (rd_wrB_apart _ (by decide)).trans hc1
  · exact rd_wrB_bit _ (by decide) false
  · exact (taken_take _ r uid).of_hif rfl rfl

end

/-! ### FW_STAGE -/

/-- Why an image is refused. -/
def imgProb (v : Nat) : Prob := (16, if v = 1 then 7 else 6)

theorem firstProb_stage {raw : BitVec 512} (hclean : reservedAt raw = none) {len v : Nat} (hlen : len ≤ 0x100000) (hv : v ≤ 2) :
    firstProb (reservedProb raw ++ probIf (decide (0x100000 < len)) 24 1 ++ probIf (v == 1) 16 7 ++ probIf (v == 2) 16 6) =
      if v = 0 then none else some (imgProb v) := by
  rw [reservedProb_of_none hclean, decide_eq_false (by omega)]
  rcases (show v = 0 ∨ v = 1 ∨ v = 2 by omega) with rfl | rfl | rfl <;> rfl

theorem verifyImg_le (root : Nat → Option (List (BitVec 8))) (floor len : Nat) (img : List (BitVec 8)) : verifyImg root floor len img ≤ 2 := by
  unfold verifyImg
  dsimp only
  split
  · decide
  · split <;> decide

/-- The image is staged. -/
def imgStaged (img : List (BitVec 8)) (d : Dev) : Dev := { d with ctl := { d.ctl with staged := some (imgSvn img, imgStates img) } }

section
variable {s : State} {r : Fin 16} {e : QEnt} {img : List (BitVec 8)} {act : Nat} (hdesc : fwDesc s.dev r act = some e)
  (hclean : reservedAt e.raw = none) (hlen : dF e.raw 24 0 32 ≤ 0x100000)
include hdesc hclean hlen

theorem serveStage_fails (hv : verifyImg (rootOf s.dev) (svnFloor s.dev) (dF e.raw 24 0 32) img ≠ 0) : serveStage r act img s =
    { s with dev := badDesc s.dev r e.uid s.sn (imgProb (verifyImg (rootOf s.dev) (svnFloor s.dev) (dF e.raw 24 0 32) img)) } := by
  have hprob := firstProb_stage hclean hlen (verifyImg_le (rootOf s.dev) (svnFloor s.dev) (dF e.raw 24 0 32) img)
  rw [if_neg hv] at hprob
  unfold serveStage
  dsimp only
  rw [hdesc]
  dsimp only
  rw [hprob]

theorem serveStage_stages (hv : verifyImg (rootOf s.dev) (svnFloor s.dev) (dF e.raw 24 0 32) img = 0) : serveStage r act img s =
    { s with
      sp := stageImg img s.sp
      dev := if act = 0 then finish (imgStaged img s.dev) r e.uid stOk 0 s.sn (BitVec.ofNat 64 (imgSvn img))
        else if verBad s.dev (imgSvn img, imgStates img) = true then badDesc (imgStaged img s.dev) r e.uid s.sn (16, 7)
        else coresRestarted r e.uid (imgSvn img) s.sn (imgStaged img s.dev) } := by
  have hprob := firstProb_stage hclean hlen (verifyImg_le (rootOf s.dev) (svnFloor s.dev) (dF e.raw 24 0 32) img)
  rw [if_pos hv] at hprob
  unfold serveStage
  dsimp only
  rw [hdesc]
  dsimp only
  rw [hprob]
  dsimp only
  by_cases hact : act = 0
  · rw [if_pos hact, if_pos hact]
    rfl
  · rw [if_neg hact, if_neg hact]
    by_cases hver : verBad s.dev (imgSvn img, imgStates img) = true
    · exact (if_pos hver).trans (by rw [if_pos hver]; rfl)
    · exact (if_neg hver).trans (by rw [if_neg hver]; rfl)

end

/-- The two commands that fetch an image. -/
abbrev stageInstr (r : Fin 16) (img : List (BitVec 8)) (act : Fin 2) : Instr := if act.val = 0 then .fwStage r img else .fwStageActivate r img

theorem exec_stage {s : State} {r : Fin 16} {e : QEnt} {act : Fin 2} (hcore : s.dev.pwr.core = true)
    (hdesc : fwDesc s.dev r act.val = some e) (img : List (BitVec 8)) :
    exec (stageInstr r img act) s = .next (serveStage r act.val img s) := by
  rcases (show act = 0 ∨ act = 1 by omega) with rfl | rfl
  · have hother : fwDesc s.dev r 3 = none := by
      unfold fwDesc at hdesc ⊢
      obtain ⟨hserved, hact⟩ := Option.filter_eq_some_iff.mp hdesc
      rw [hserved]
      have h0 : dF e.raw 28 0 2 = 0 := by simpa using hact
      simp [Option.filter, h0]
    have hexec : exec (stageInstr r img 0) s = coreSt s fun s =>
      if (fwDesc s.dev r 3).isSome then { s with dev := stageInvalid r s.sn s.dev } else serveStage r 0 img s := rfl
    rw [hexec, coreSt_of_core hcore, hother]
    rfl
  · have hexec : exec (stageInstr r img 1) s = coreSt s (serveStage r 1 img) := rfl
    rw [hexec, coreSt_of_core hcore]
    rfl

/-- What `same` of the statement says of a state that differs in scratchpad and device. -/
theorem exec_next_same {c : Instr} {s t : State} (hexec : exec c s = .next t) {p : Scratch} {d : Dev} (ht : t = { s with sp := p, dev := d })
    (hd : Only [.regs, .hif, .ctl] s.dev d) {q : State → Prop} (hq : q { s with sp := p, dev := d }) :
    ∃ t, exec c s = .next t ∧
      (t.pending = s.pending ∧ t.sn = s.sn ∧ t.ticked = s.ticked ∧ t.lock = s.lock ∧ Only [.regs, .hif, .ctl] s.dev t.dev) ∧ q t :=
  ⟨{ s with sp := p, dev := d }, hexec.trans (by rw [ht]), ⟨rfl, rfl, rfl, rfl, hd⟩, hq⟩

section
variable {s : State} {r : Fin 16} {e : QEnt} (hcore : s.dev.pwr.core = true)
include hcore

theorem stage_verifies (img : List (BitVec 8)) (act : Fin 2) (hdesc : fwDesc s.dev r act.val = some e) (hclean : reservedAt e.raw = none)
    (hlen : dF e.raw 24 0 32 ≤ 0x100000) (hv : verifyImg (rootOf s.dev) (svnFloor s.dev) (dF e.raw 24 0 32) img = 0) :
    ∃ t, exec (stageInstr r img act) s = .next t ∧
      (t.pending = s.pending ∧ t.sn = s.sn ∧ t.ticked = s.ticked ∧ t.lock = s.lock ∧ Only [.regs, .hif, .ctl] s.dev t.dev) ∧
      (t.dev.ctl.staged = some (imgSvn img, imgStates img) ∧
        (∀ a, spByte t.sp a = if 0x200000 ≤ a ∧ a < 0x200000 + img.length then (img[a - 0x200000]?).getD 0 else spByte s.sp a)) ∧
      (act.val = 0 → Served s.dev t.dev r e.uid 0 0 s.sn (BitVec.ofNat 64 (imgSvn img)) ∧ t.dev.ctl.act = s.dev.ctl.act) ∧
      (act.val = 1 → verBad s.dev (imgSvn img, imgStates img) = false → Restarts r.val e.uid (imgSvn img) s.dev t.dev) ∧
      (act.val = 1 → verBad s.dev (imgSvn img, imgStates img) = true → Served s.dev t.dev r e.uid 0x12 (16 + 256 * 7) s.sn 0) := by
  have hexec := exec_stage hcore hdesc img
  have heq := serveStage_stages (img := img) hdesc hclean hlen hv
  have hstaged : Only [.regs, .hif, .ctl] s.dev (imgStaged img s.dev) := (only_ctl s.dev _).mono (by simp)
  have hbytes := spByte_stageImg img s.sp
  by_cases hact : act.val = 0
  · rw [if_pos hact] at heq
    refine exec_next_same hexec heq ((hstaged.trans (only_finish _ _ _ _ _ _ _)).mono (by simp)) ⟨⟨rfl, hbytes⟩, fun _ => ⟨?_, rfl⟩, ?_, ?_⟩
    · exact (served_finish (imgStaged img s.dev) r e.uid stOk 0 s.sn _).of_hif rfl rfl
    · exact fun h => absurd h (by omega)
    · exact fun h => absurd h (by omega)
  · rw [if_neg hact] at heq
    cases hver : verBad s.dev (imgSvn img, imgStates img) with
    | true =>
      rw [hver, if_pos rfl] at heq
      refine exec_next_same hexec heq ((hstaged.trans (only_finish _ _ _ _ _ _ _)).mono (by simp)) ⟨⟨rfl, hbytes⟩, ?_, ?_, fun _ _ => ?_⟩
      · exact fun h => absurd h hact
      · exact fun _ h => absurd h (by decide)
      · exact (served_badDesc (imgStaged img s.dev) r e.uid s.sn (16, 7)).of_hif rfl rfl
    | false =>
      rw [hver, if_neg Bool.false_ne_true] at heq
      have honly := only_coresRestarted r e.uid (imgSvn img) s.sn (imgStaged img s.dev)
      obtain ⟨hc0, hc1, hready, hactive, htaken⟩ := restarts_coresRestarted r e.uid (imgSvn img) s.sn (imgStaged img s.dev)
      refine exec_next_same hexec heq ((hstaged.trans honly).mono (by simp)) ⟨⟨rfl, hbytes⟩, ?_, fun _ _ => ?_, ?_⟩
      · exact fun h => absurd h hact
      · exact ⟨hc0, hc1, hready, hactive, htaken.of_hif rfl rfl⟩
      · exact fun _ h => absurd h (by decide)

theorem stage_fails (img : List (BitVec 8)) (act : Fin 2) (hdesc : fwDesc s.dev r act.val = some e) (hclean : reservedAt e.raw = none)
    (hlen : dF e.raw 24 0 32 ≤ 0x100000) (hv : verifyImg (rootOf s.dev) (svnFloor s.dev) (dF e.raw 24 0 32) img ≠ 0) :
    ∃ t, exec (stageInstr r img act) s = .next t ∧ DevOnly s t ∧ t.dev.ctl = s.dev.ctl ∧ t.dev.regs = s.dev.regs ∧
      Served s.dev t.dev r e.uid 0x12
        (16 + 256 * (if verifyImg (rootOf s.dev) (svnFloor s.dev) (dF e.raw 24 0 32) img = 1 then 7 else 6)) s.sn 0 := by
  have hexec := exec_stage hcore hdesc img
  rw [serveStage_fails hdesc hclean hlen hv] at hexec
  exact ⟨_, hexec, devOnly_dev s _, rfl, rfl, served_badDesc _ _ _ _ _⟩

theorem fwActivate_restarts {x : Nat × Nat × Nat} (hdesc : fwDesc s.dev r 2 = some e) (hclean : reservedAt e.raw = none)
    (hstaged : s.dev.ctl.staged = some x) (hver : verBad s.dev x = false) :
    ∃ t, exec (.fwActivate r) s = .next t ∧
      (t.pending = s.pending ∧ t.sn = s.sn ∧ t.ticked = s.ticked ∧ t.lock = s.lock ∧ Only [.regs, .hif, .ctl] s.dev t.dev) ∧
      t.sp = s.sp ∧ Restarts r.val e.uid x.1 s.dev t.dev := by
  have heq : serveActivate r s.sn s.dev = coresRestarted r e.uid x.1 s.sn s.dev := by
    unfold serveActivate
    rw [hdesc]
    dsimp only
    rw [reservedProb_of_none hclean, hstaged, Option.isNone_some, Option.map_some, Option.getD_some, hver]
    exact activate_eq hstaged _ _ _
  have honly := only_coresRestarted r e.uid x.1 s.sn s.dev
  have hrestarts := restarts_coresRestarted r e.uid x.1 s.sn s.dev
  obtain ⟨b, hb⟩ : ∃ b, b = coresRestarted r e.uid x.1 s.sn s.dev := ⟨_, rfl⟩
  rw [← hb] at heq honly hrestarts
  exact exec_next_same (exec_of_core (g := fun d => serveActivate r s.sn d) rfl hcore heq) rfl honly ⟨rfl, hrestarts⟩

/-! ### FW_READY (R386, R394) -/

/-- Both cores serve. -/
def coresReady (d : Dev) : Dev := wrB (coresTo d 2) F.CTL_CORE_STATUS_FW_READY 0 true

/-- The activation for descriptor `uid` of ring `r` is complete, with version `svn`. -/
def activationDone (r uid svn : Nat) (sn : SN) (d : Dev) : Dev :=
  let d := wr (wr { d with ctl := { d.ctl with act := none } } F.CTL_CORE_STATUS_SVN 0 svn) F.CTL_CORE_STATUS_FW_SRC 0 3
  finish (raise d { typ := 0x93, sn := sn, p0 := svn }) r uid stOk 0 sn (BitVec.ofNat 64 svn)

omit hcore in
theorem served_activationDone (r uid svn : Nat) (sn : SN) (d : Dev) :
    Served d (activationDone r uid svn sn d) r uid 0 0 sn (BitVec.ofNat 64 svn) := by
  unfold activationDone
  extract_lets src e
  exact (served_finish (raise e { typ := 0x93, sn := sn, p0 := svn }) r uid stOk 0 sn (BitVec.ofNat 64 svn)).of_rings rfl rfl

omit hcore in
theorem fwReady_activated {a : Nat × Nat × Nat} (hact : s.dev.ctl.act = some a) (h0 : rd s.dev F.CTL_CORE_STATUS_C0_STATE = 4)
    (h1 : rd s.dev F.CTL_CORE_STATUS_C1_STATE = 4) : ∃ p, fwReady s =
      { s with sp := p, dev := activationDone a.1 a.2.1 a.2.2 s.sn (coresReady s.dev) } := by
  have hc0 : c0State s.dev = 4 := h0
  have hc1 : c1State s.dev = 4 := h1
  unfold fwReady
  extract_lets d c0 c1 first codes d₁ d₂ d₃ boot src d₄
  have e0 : c0 = 4 := hc0
  have e1 : c1 = 4 := hc1
  have h₃ : d₃ = coresReady s.dev := by
    unfold d₃ d₂ d₁
    rw [e0, e1]
    rfl
  have h₄ : d₄ = activationDone a.1 a.2.1 a.2.2 s.sn (coresReady s.dev) := by
    unfold d₄
    have hboot : boot = false := by
      unfold boot
      rw [e0]
      rfl
    have hsrc : src = (coresReady s.dev).ctl := congrArg Dev.ctl h₃
    rw [hsrc, h₃, show (coresReady s.dev).ctl.act = some a from hact, hboot]
    rfl
  refine ⟨releaseSems codes s.sp, ?_⟩
  rw [h₄, e0, e1]
  rfl

theorem fwReady_completes {a : Nat × Nat × Nat} (hact : s.dev.ctl.act = some a) (h0 : rd s.dev F.CTL_CORE_STATUS_C0_STATE = 4)
    (h1 : rd s.dev F.CTL_CORE_STATUS_C1_STATE = 4) : ∃ t, exec .fwReady s = .next t ∧
      (t.pending = s.pending ∧ t.sn = s.sn ∧ t.ticked = s.ticked ∧ t.lock = s.lock ∧ Only [.regs, .hif, .ctl] s.dev t.dev) ∧
      rd t.dev F.CTL_CORE_STATUS_C0_STATE = 2 ∧ rd t.dev F.CTL_CORE_STATUS_C1_STATE = 2 ∧ rd t.dev F.CTL_CORE_STATUS_FW_READY = 1 ∧
      t.dev.ctl.act = none ∧ Raised s.dev t.dev [{ typ := 0x93, sn := s.sn, p0 := a.2.2 }] ∧
      Served s.dev t.dev a.1 a.2.1 0 0 s.sn (BitVec.ofNat 64 a.2.2) := by
  obtain ⟨p, heq⟩ := fwReady_activated hact h0 h1
  have hcores : Within [coreWord] [.regs, .hif, .ctl] s.dev (coresReady s.dev) :=
    ((within_coresTo s.dev 2).mono (by simp) (by simp) : Within [coreWord] [.regs, .hif, .ctl] s.dev _).wrB
      (f := F.CTL_CORE_STATUS_FW_READY) (i := 0)
  have hdone : Within [coreWord] [.regs, .hif, .ctl] s.dev (activationDone a.1 a.2.1 a.2.2 s.sn (coresReady s.dev)) :=
    (((hcores.only (only_ctl _ _)).wr (f := F.CTL_CORE_STATUS_SVN) (i := 0)).wr (f := F.CTL_CORE_STATUS_FW_SRC) (i := 0)).raise.finish
  obtain ⟨hr0, hr1⟩ := rd_coresTo s.dev (n := 2) (by decide)
  have hexec : exec .fwReady s = coreSt s fwReady := rfl
  refine exec_next_same (hexec.trans (coreSt_of_core hcore _)) heq hdone.parts ⟨?_, ?_, ?_, rfl, rfl, ?_⟩
  · exact (rd_wr_apart _ (by decide)).trans ((rd_wr_apart _ (by decide)).trans ((rd_wrB_apart _ (by decide)).trans hr0))
  · exact (rd_wr_apart _ (by decide)).trans ((rd_wr_apart _ (by decide)).trans ((rd_wrB_apart _ (by decide)).trans hr1))
  · exact (rd_wr_apart _ (by decide)).trans ((rd_wr_apart _ (by decide)).trans (rd_wrB_bit _ (by decide) true))
  · exact (served_activationDone a.1 a.2.1 a.2.2 s.sn (coresReady s.dev)).of_rings rfl rfl

end

/-- Settles O42: an image fetched, its activation, and firmware that is ready again. -/
theorem firmwareUpdateRestartsCores : Obligations.FirmwareUpdateRestartsCores := by
  unfold Obligations.FirmwareUpdateRestartsCores
  intro s r e img hcore
  refine ⟨fun act hdesc hclean hlen => ⟨fun hv => ?_, stage_fails hcore img act hdesc hclean hlen⟩, fun x hdesc hclean hstaged hver => ?_,
    fun a => fwReady_completes hcore⟩
  · obtain ⟨t, hexec, hsame, hstages, hzero, hone, hbad⟩ := stage_verifies hcore img act hdesc hclean hlen hv
    exact ⟨t, hexec, hsame, hstages, hzero, fun hact hver => (hone hact hver).facts, hbad⟩
  · obtain ⟨t, hexec, hsame, hsp, hrestarts⟩ := fwActivate_restarts hcore hdesc hclean hstaged hver
    exact ⟨t, hexec, hsame, hsp, hrestarts.facts⟩

end Sys2Proof.Machine
end

