-- ==== Sys2Proof/Proofs/Clocks.lean ====
section
/-! PROOFS. Oscillator, APLLs and clock monitors (R402, R403, R421, R423). -/

namespace Sys2Proof.Machine

-- In order: a default argument `by simp` waits for every declaration before it, and many that wait take many threads.
set_option Elab.async false

/-! ### What CLK_NMI leaves of the timing and of the PM objects -/

theorem perf_objs (d : Dev) (e x n : Nat) : (perf d e x n).pm.objs = d.pm.objs := by
  unfold perf
  refine foldl_same (g := fun d : Dev => d.pm.objs) (fun a i => ?_) _ _
  extract_lets arg v
  split <;> rfl

theorem nmi_objs (d : Dev) : (nmi d).pm.objs = d.pm.objs := by
  unfold nmi sendMsi
  split
  case isTrue => rfl
  case isFalse => exact perf_objs _ _ _ _

section
variable (sn : SN) (e : Ev) (d : Dev)

theorem roleFail_stopped : (roleFail sn d).tim.stopped = d.tim.stopped := by
  have hshow (m : Dev) : (dpllShow sn m).tim = m.tim := (within_dpllShow sn m).parts .tim (by simp)
  unfold roleFail dpllUnlink
  split
  · rfl
  · dsimp only
    split
    · rfl
    · rw [hshow]
      rfl

theorem alarm_objs : (alarm sn 0 e d).pm.objs = d.pm.objs := by
  unfold alarm failCause
  split
  · rw [(within_roleFail sn (nmi (raise d e))).parts .pm (by simp), nmi_objs]
    rfl
  · exact nmi_objs _

theorem alarm_stopped : (alarm sn 0 e d).tim.stopped = d.tim.stopped := by
  have hnmi : (nmi (raise d e)).tim = d.tim := nmi_tim _
  unfold alarm failCause
  split
  · rw [roleFail_stopped, hnmi]
  · rw [hnmi]

/-- A device that does not follow the active's sweep keeps its reference as it fails. -/
theorem roleFail_tim (h : rd d F.TIM_STATUS_SEL ≠ 8) :
    (roleFail sn d).tim = d.tim ∧ Within [twinWord] [.regs, .twin, .prot, .tim, .hif] d (roleFail sn d) := by
  have hfailed : rd (failedDev d) F.TIM_STATUS_SEL ≠ 8 := by
    rwa [(within_failedDev d).rd (by decide)]
  unfold roleFail
  split
  case isTrue => exact ⟨rfl, .refl _ _ _⟩
  case isFalse =>
    have heq : dpllUnlink sn (failedDev d) = failedDev d := dpllUnlink_same sn _ hfailed
    refine heq ▸ ?_
    exact ⟨rfl, (within_failedDev d).mono⟩

theorem alarm_tim (h : rd d F.TIM_STATUS_SEL ≠ 8) : (alarm sn 0 e d).tim = d.tim ∧
    ∀ f : Fld, f.addr 0 = timWord → rd (alarm sn 0 e d) f = rd d f := by
  have hnmi : (nmi (raise d e)).tim = d.tim := nmi_tim _
  have hframe : Within [F.MSIX_PBA.addr (rd d F.HIF_CFG_NMI_VEC / 32)] [.regs, .out, .pm, .hif] d (nmi (raise d e)) :=
    ((Within.refl _ _ d).raise).next (within_nmi _)
  have hkeeps (f : Fld) (hf : f.addr 0 = timWord) : rd (nmi (raise d e)) f = rd d f := by
    refine hframe.rd ?_
    rw [hf, List.mem_singleton]
    exact Fld.addr_ne (by decide) 0 _
  unfold alarm failCause
  split
  case isTrue =>
    obtain ⟨htim, hfail⟩ := roleFail_tim sn (nmi (raise d e)) (by rwa [hkeeps _ rfl])
    refine ⟨htim.trans hnmi, fun f hf => (hfail.rd ?_).trans (hkeeps f hf)⟩
    rw [hf]
    decide
  case isFalse => exact ⟨hnmi, hkeeps⟩

end

/-! ### A command that raises CLK_NMI -/

abbrev clkWord : Nat := F.CLK_STATUS_XO_OK.addr 0

@[simp] theorem addr_xoFail : F.CLK_STATUS_XO_FAIL.addr 0 = clkWord := rfl
@[simp] theorem addr_apllLock : F.CLK_STATUS_APLL_LOCK.addr 0 = clkWord := rfl
@[simp] theorem addr_sysCur : F.CLK_STATUS_SYS_CUR.addr 0 = clkWord := rfl
@[simp] theorem addr_perCur : F.CLK_STATUS_PER_CUR.addr 0 = clkWord := rfl
@[simp] theorem addr_sysRescue : F.CLK_STATUS_SYS_RESCUE.addr 0 = clkWord := rfl
@[simp] theorem addr_perRescue : F.CLK_STATUS_PER_RESCUE.addr 0 = clkWord := rfl
@[simp] theorem addr_xoLoss : F.CLK_STATUS_XO_LOSS.addr 0 = clkWord := rfl
@[simp] theorem addr_clkCfgErr : F.CLK_STATUS_CFG_ERR.addr 0 = clkWord := rfl

/-- The event of CLK_NMI. -/
abbrev nmiEvent (sn : SN) (cause : Nat) : Ev := { typ := 0x77, sn := sn, p0 := cause }

/-- CLK_NMI with its cause, after a command that also writes the registers `more`. -/
def RaisesNmi (s : State) (c : Instr) (cause : Nat) (more : List Nat) (f : State → Prop) : Prop :=
  ActsR ([clkWord, timWord, twinWord, F.MSIX_PBA.addr (rd s.dev F.HIF_CFG_NMI_VEC / 32)] ++ more)
    [.tim, .hif, .out, .pm, .twin, .prot] c s fun t =>
    f t ∧ t.dev.hif.nmi = s.dev.hif.nmi + 1 ∧
    (∃ es, t.dev.hif.evq = s.dev.hif.evq ++ es ∧ { nmiEvent s.sn cause with sb := s.dev.twin.role == .standby } ∈ es) ∧
    ((rd s.dev F.TWN_CFG_FAIL_MASK).testBit 0 = false → t.dev.twin = s.dev.twin ∧ t.dev.prot = s.dev.prot) ∧
    ((rd s.dev F.TWN_CFG_FAIL_MASK).testBit 0 = true → s.dev.twin.role = .active →
      t.dev.twin = failedTwin s.dev.twin ∧ t.dev.prot = { s.dev.prot with stopped := false } ∧
        rd t.dev F.TWN_STATUS_LAST_CAUSE = 6)

/-- `b` is what the command makes of the device before CLK_NMI is raised. -/
structure Precedes (as : List Nat) (a b : Dev) : Prop where
  frame : Within as [.regs, .tim, .hif, .pm] a b
  raises : RaisesOnly a b
  mask : rd b F.TWN_CFG_FAIL_MASK = rd a F.TWN_CFG_FAIL_MASK
  vec : rd b F.HIF_CFG_NMI_VEC = rd a F.HIF_CFG_NMI_VEC

theorem Precedes.of_within {as : List Nat} {a b : Dev} (h : Within as [.regs, .tim, .hif, .pm] a b) (hraises : RaisesOnly a b)
    (has : F.TWN_CFG_FAIL_MASK.addr 0 ∉ as ∧ F.HIF_CFG_NMI_VEC.addr 0 ∉ as := by decide) : Precedes as a b :=
  ⟨h, hraises, h.rd has.1, h.rd has.2⟩

theorem raisesNmi_of {s : State} {c : Instr} {cause : Nat} {more : List Nat} {f : State → Prop} {b : Dev}
    (hb : Precedes (clkWord :: timWord :: more) s.dev b) (hexec : exec c s = .next { s with dev := clkNmi s.sn b cause })
    (hf : f { s with dev := clkNmi s.sn b cause }) : RaisesNmi s c cause more f := by
  obtain ⟨hframe, ⟨es, hhif⟩, hmask, hvec⟩ := hb
  obtain ⟨hafter, hnmi, ⟨fs, hevq, -⟩, hstays, hfalls⟩ := alarm_alarm s.sn 0 (nmiEvent s.sn cause) b
  have htwin : b.twin = s.dev.twin := hframe.parts .twin (by simp)
  have hprot : b.prot = s.dev.prot := hframe.parts .prot (by simp)
  rw [hmask, htwin, hprot] at hstays
  rw [hmask, htwin] at hfalls
  rw [hvec] at hafter
  change exec c s = .next { s with dev := alarm s.sn 0 (nmiEvent s.sn cause) b } at hexec
  change f { s with dev := alarm s.sn 0 (nmiEvent s.sn cause) b } at hf
  generalize alarm s.sn 0 (nmiEvent s.sn cause) b = m at *
  refine (Within.next (hframe.mono ?_ ?_) hafter ?_ ?_).actsR hexec ⟨hf, ?_, ⟨es ++ ({ nmiEvent s.sn cause with sb := s.dev.twin.role == .standby } :: fs), ?_, ?_⟩, fun h => ?_, fun h hrole => ?_⟩
  · rw [List.cons_append, List.cons_append]
    exact List.cons_subset_cons _ (List.cons_subset_cons _ fun _ h => by simp [h])
  · simp
  · simp
  · simp
  · rw [hnmi, hhif]
  · rw [hevq, hhif, htwin, List.append_assoc]
  · simp
  · exact ⟨(hstays h).1, (hstays h).2.1⟩
  · obtain ⟨htw, hpr, hcause, -⟩ := hfalls h hrole
    exact ⟨htwin ▸ htw, hprot ▸ hpr, hcause⟩

/-! ### The loss of the XO (R403) -/

/-- The XO is lost: DPLL FREERUN without a reference. -/
def xoLost (sn : SN) (d : Dev) : Dev := dpllShow sn (dpllOwn sn (wrB d F.CLK_STATUS_XO_LOSS 0 true) 0xF 0)

section
variable (sn : SN) (d : Dev)

theorem precedes_xoLost : Precedes [clkWord, timWord] d (xoLost sn d) := by
  refine .of_within ((((Within.refl _ _ d).wrB.next (within_dpllOwn sn _ 0xF 0))).next (within_dpllShow sn _)) ?_
  exact (RaisesOnly.of_same (b := dpllOwn sn (wrB d F.CLK_STATUS_XO_LOSS 0 true) 0xF 0) rfl).trans (raisesOnly_dpllShow sn _)

theorem xoLost_shows : rd (xoLost sn d) F.CLK_STATUS_XO_LOSS = 1 ∧ rd (xoLost sn d) F.TIM_STATUS_STATE = 0 ∧
    rd (xoLost sn d) F.TIM_STATUS_SEL = 0xF ∧ (xoLost sn d).tim.st = 0 := by
  unfold xoLost
  refine ⟨?_, ?_, ?_, ?_⟩
  · rw [(within_dpllShow sn _).rd (by decide), (within_dpllOwn sn _ _ _).rd (by decide), rd_wrB_bit d (by decide) true]
    rfl
  · rw [rd_dpllShow, dpllOwn_sel, dpllOwn_st, rd_dpllWord_st _ (by decide)]
  · rw [rd_dpllShow, dpllOwn_sel, dpllOwn_st, rd_dpllWord_sel _ (by decide)]
  · rw [(within_dpllShow sn _).parts .tim (by simp), dpllOwn_st]

end

theorem alarm_clk (sn : SN) (e : Ev) (d : Dev) (f : Fld) (hf : f.addr 0 = clkWord := by rfl) : rd (alarm sn 0 e d) f = rd d f := by
  refine (alarm_alarm sn 0 e d).frame.rd ?_
  have hpba : clkWord ≠ F.MSIX_PBA.addr (rd d F.HIF_CFG_NMI_VEC / 32) :=
    Fld.addr_ne (f := F.CLK_STATUS_XO_OK) (g := F.MSIX_PBA) (by decide) 0 _
  rw [hf]
  simp only [List.mem_cons, List.not_mem_nil, or_false, hpba]
  decide

section
variable {s : State} (hcore : s.dev.pwr.core = true)
include hcore

theorem xoLoss_raisesNmi (hok : rdB s.dev F.CLK_STATUS_XO_OK = true) (hloss : rdB s.dev F.CLK_STATUS_XO_LOSS = false) {c : Instr}
    (hc : c ∈ [Instr.xoLoss, .clockStop 0]) : RaisesNmi s c 3 [] fun t =>
      rd t.dev F.CLK_STATUS_XO_LOSS = 1 ∧ rd t.dev F.TIM_STATUS_STATE = 0 ∧ rd t.dev F.TIM_STATUS_SEL = 0xF ∧
      qlOut t.dev = 0xF ∧ o7Hold t.dev = false ∧ o7Free t.dev = true := by
  have heq : xoLoss s.sn s.dev = clkNmi s.sn (xoLost s.sn s.dev) 3 := if_neg (by simp [xoGood, hok, hloss])
  have hexec : exec c s = .next { s with dev := clkNmi s.sn (xoLost s.sn s.dev) 3 } := by
    rcases List.mem_cons.mp hc with rfl | hc
    · exact exec_of_core (g := xoLoss s.sn) rfl hcore heq
    · rw [List.mem_singleton.mp hc]
      exact exec_of_core (g := clockStop 0 s.sn) rfl hcore heq
  obtain ⟨hlost, hstate, hsel, -⟩ := xoLost_shows s.sn s.dev
  obtain ⟨-, hword⟩ := alarm_tim s.sn (nmiEvent s.sn 3) (xoLost s.sn s.dev) (by rw [hsel]; decide)
  have hshown : rd (alarm s.sn 0 (nmiEvent s.sn 3) (xoLost s.sn s.dev)) F.CLK_STATUS_XO_LOSS = 1 := (alarm_clk _ _ _ F.CLK_STATUS_XO_LOSS).trans hlost
  have hgood : xoGood (alarm s.sn 0 (nmiEvent s.sn 3) (xoLost s.sn s.dev)) = false := by
    rw [xoGood, rdB, rdB, hshown]
    simp
  refine raisesNmi_of (precedes_xoLost s.sn s.dev) hexec ⟨hshown, (hword F.TIM_STATUS_STATE rfl).trans hstate, (hword F.TIM_STATUS_SEL rfl).trans hsel, ?_, ?_, ?_⟩
  · exact if_pos (by rw [Bool.not_eq_true']; exact hgood)
  · exact Bool.and_eq_false_imp.mpr fun h => absurd (hgood.symm.trans h) (by decide)
  · exact Bool.or_eq_true_iff.mpr (.inl (by rw [Bool.not_eq_true']; exact hgood))

/-! ### The clock monitors (R421, R423) -/

/-- A clock shows as stopped. -/
def clockStopped (m : Nat) (d : Dev) : Dev :=
  { d with tim := { d.tim with stopped := d.tim.stopped ||| BitVec.ofNat 8 (2 ^ m) } }

omit hcore in
theorem clockStopped_bit {m : Nat} (hm : m < 8) (d : Dev) : (clockStopped m d).tim.stopped.getLsbD m = true := by
  have htwo : (BitVec.ofNat 8 (2 ^ m)).getLsbD m = true := by
    rw [BitVec.getLsbD_ofNat, Nat.testBit_two_pow_self, decide_eq_true hm]
    rfl
  simp only [clockStopped, BitVec.getLsbD_or, htwo, Bool.or_true]

theorem clusterStop_raisesNmi {m : Fin 8} (hm : m.val = 1 ∨ m.val = 2) :
    RaisesNmi s (.clockStop m) 4 [] fun t => ticking t.dev = false := by
  have heq : clockStop m s.sn s.dev = clkNmi s.sn (clockStopped m s.dev) 4 := by
    unfold clockStop
    rcases hm with h | h <;> simp only [h] <;> rfl
  refine raisesNmi_of (b := clockStopped m s.dev) (.of_within ((Within.refl _ _ s.dev).only (only_tim _ _)) (.of_same rfl))
    (exec_of_core (g := clockStop m s.sn) rfl hcore heq) ?_
  have hbit := clockStopped_bit m.isLt s.dev
  have hstopped := alarm_stopped s.sn (nmiEvent s.sn 4) (clockStopped m s.dev)
  rw [← hstopped] at hbit
  change ticking (alarm s.sn 0 (nmiEvent s.sn 4) (clockStopped m s.dev)) = false
  generalize alarm s.sn 0 (nmiEvent s.sn 4) (clockStopped m s.dev) = b at *
  unfold ticking
  rcases hm with h | h <;> rw [h] at hbit <;> simp only [hbit, Bool.not_true, Bool.and_false, Bool.false_and]

/-- The groups of the system multiplexer's clock run from FIO, and both cores restart. -/
def sysRescued (d : Dev) : Dev :=
  coreRestart (coreRestart (wrB (wrB d F.CLK_STATUS_SYS_RESCUE 0 true) F.CLK_STATUS_SYS_CUR 0 false) 0) 1

end

/-! A core that restarts. -/

theorem coreRestart_spec (d : Dev) (c : Fin 2) : Within ctlRegs [.regs] d (coreRestart d c) ∧
    rd (coreRestart d c) (coreFld c) = (if rd d (coreFld c) = 2 ∨ rd d (coreFld c) = 3 then 4 else rd d (coreFld c)) ∧
    rd (coreRestart d c) (otherFld c) = rd d (otherFld c) ∧ rd (coreRestart d c) (haltFld c) = 0 := by
  obtain ⟨hstate, hother, -, hhalt⟩ := haltShown_spec d c false
  obtain ⟨hto, hfour, htoOther, -, htoHalt⟩ := coreTo_spec (haltShown c false d) c (n := 4) (by decide)
  have hframe := within_haltShown d c false
  rw [coreRestart_eq]
  dsimp only
  rw [hstate]
  split
  case isTrue => exact ⟨hframe.trans hto, hfour, htoOther.trans hother, htoHalt.trans hhalt⟩
  case isFalse => exact ⟨hframe, hstate, hother, hhalt⟩

theorem coreRestart_otherHalt (d : Dev) : rd (coreRestart d 1) F.DBG_CTL_HALT0 = rd d F.DBG_CTL_HALT0 := by
  have hshown : rd (haltShown 1 false d) F.DBG_CTL_HALT0 = rd d F.DBG_CTL_HALT0 := by
    unfold haltShown
    rw [rd_wr_parted _ (by decide)]
    exact rd_wrB_apart _ (by decide)
  rw [coreRestart_eq]
  dsimp only
  split
  case isTrue => rw [coreTo, rd_wr_parted _ (by decide), hshown]
  case isFalse => exact hshown

theorem sysRescued_spec (d : Dev) : Within (clkWord :: ctlRegs) [.regs] d (sysRescued d) ∧
    rd (sysRescued d) F.CLK_STATUS_SYS_RESCUE = 1 ∧ rd (sysRescued d) F.CLK_STATUS_SYS_CUR = 0 ∧ rd (sysRescued d) F.DBG_CTL_HALT0 = 0 ∧
    rd (sysRescued d) F.DBG_CTL_HALT1 = 0 ∧
    rd (sysRescued d) F.CTL_CORE_STATUS_C0_STATE = (let x := rd d F.CTL_CORE_STATUS_C0_STATE; if x = 2 ∨ x = 3 then 4 else x) ∧
    rd (sysRescued d) F.CTL_CORE_STATUS_C1_STATE = (let x := rd d F.CTL_CORE_STATUS_C1_STATE; if x = 2 ∨ x = 3 then 4 else x) := by
  obtain ⟨e, he⟩ : ∃ e, e = wrB (wrB d F.CLK_STATUS_SYS_RESCUE 0 true) F.CLK_STATUS_SYS_CUR 0 false := ⟨_, rfl⟩
  have heq : sysRescued d = coreRestart (coreRestart e 0) 1 := congrArg (fun e => coreRestart (coreRestart e 0) 1) he.symm
  have hclk : Within [clkWord] [.regs] d e := he ▸ (Within.refl _ _ d).wrB.wrB
  have hrescue : rd e F.CLK_STATUS_SYS_RESCUE = 1 := by
    rw [he, rd_wrB_apart _ (by decide), rd_wrB_bit d (by decide) true]
    rfl
  have hcur : rd e F.CLK_STATUS_SYS_CUR = 0 := by
    rw [he, rd_wrB_bit _ (by decide) false]
    rfl
  obtain ⟨hfirst, hown0, hother0, hhalt0⟩ := coreRestart_spec e 0
  obtain ⟨hsecond, hown1, hother1, hhalt1⟩ := coreRestart_spec (coreRestart e 0) 1
  have hboth := hfirst.trans hsecond
  have hc0 : rd e F.CTL_CORE_STATUS_C0_STATE = rd d F.CTL_CORE_STATUS_C0_STATE := hclk.rd (by decide)
  have hc1 : rd e F.CTL_CORE_STATUS_C1_STATE = rd d F.CTL_CORE_STATUS_C1_STATE := hclk.rd (by decide)
  rw [heq]
  refine ⟨(hclk.mono ?_).trans (hboth.mono ?_), ?_, ?_, ?_, ?_, ?_, ?_⟩
  · simp
  · simp
  · exact (hboth.rd (by decide)).trans hrescue
  · exact (hboth.rd (by decide)).trans hcur
  · exact (coreRestart_otherHalt _).trans hhalt0
  · exact hhalt1
  · exact hother1.trans (hc0 ▸ hown0)
  · exact hc1 ▸ hother0 ▸ hown1

theorem binsSuspect_objs (d : Dev) : (binsSuspect d).pm.objs.map (·.1) = d.pm.objs.map (·.1) ∧
    ∀ o ∈ (binsSuspect d).pm.objs, o.2.c15.suspect = true ∧ o.2.c24.suspect = true := by
  constructor
  · simp [binsSuspect]
  · intro o ho
    obtain ⟨x, -, rfl⟩ := List.mem_map.mp ho
    exact ⟨rfl, rfl⟩

theorem pba_notMem_ctlRegs (v : Nat) : F.MSIX_PBA.addr v ∉ ctlRegs := by
  intro h
  have hall : ∀ a ∈ ctlRegs, a < F.MSIX_PBA.base ∨ F.MSIX_PBA.base + F.MSIX_PBA.span < a := by decide
  have hin := Fld.addr_mem_span (f := F.MSIX_PBA) rfl (by decide) v
  have hout := hall _ h
  omega

section
variable {s : State} (hcore : s.dev.pwr.core = true)
include hcore

theorem sysStop_raisesNmi : RaisesNmi s (.clockStop 6) 1 ctlRegs fun t =>
    rd t.dev F.CLK_STATUS_SYS_RESCUE = 1 ∧ rd t.dev F.CLK_STATUS_SYS_CUR = 0 ∧ rd t.dev F.DBG_CTL_HALT0 = 0 ∧
    rd t.dev F.DBG_CTL_HALT1 = 0 ∧
    rd t.dev F.CTL_CORE_STATUS_C0_STATE = (let x := rd s.dev F.CTL_CORE_STATUS_C0_STATE; if x = 2 ∨ x = 3 then 4 else x) ∧
    rd t.dev F.CTL_CORE_STATUS_C1_STATE = (let x := rd s.dev F.CTL_CORE_STATUS_C1_STATE; if x = 2 ∨ x = 3 then 4 else x) := by
  obtain ⟨hframe, hrescue, hcur, hh0, hh1, hc0, hc1⟩ := sysRescued_spec s.dev
  obtain ⟨b, hb⟩ : ∃ b, b = sysRescued s.dev := ⟨_, rfl⟩
  rw [← hb] at hframe hrescue hcur hh0 hh1 hc0 hc1
  have hexec : exec (.clockStop 6) s = .next { s with dev := clkNmi s.sn b 1 } :=
    exec_of_core (g := clockStop 6 s.sn) rfl hcore (hb ▸ rfl)
  have hafter := (alarm_alarm s.sn 0 (nmiEvent s.sn 1) b).frame
  have hkeeps (f : Fld) (hf : f.addr 0 ∈ ctlRegs) : rd (alarm s.sn 0 (nmiEvent s.sn 1) b) f = rd b f := by
    refine hafter.rd ?_
    have hpba : f.addr 0 ≠ F.MSIX_PBA.addr (rd b F.HIF_CFG_NMI_VEC / 32) := fun h => pba_notMem_ctlRegs _ (h ▸ hf)
    have hother : ∀ a ∈ ctlRegs, a ≠ timWord ∧ a ≠ twinWord := by decide
    simp [hpba, hother _ hf]
  refine raisesNmi_of (.of_within (hframe.mono ?_ ?_) (.of_same (hframe.parts .hif (by simp)))) hexec
    ⟨(alarm_clk _ _ _ F.CLK_STATUS_SYS_RESCUE).trans hrescue, (alarm_clk _ _ _ F.CLK_STATUS_SYS_CUR).trans hcur, (hkeeps _ ?_).trans hh0, (hkeeps _ ?_).trans hh1,
      (hkeeps _ ?_).trans hc0, (hkeeps _ ?_).trans hc1⟩
  · simp
  · simp
  all_goals decide

theorem perStop_raisesNmi : RaisesNmi s (.clockStop 7) 2 [] fun t =>
    rd t.dev F.CLK_STATUS_PER_RESCUE = 1 ∧ rd t.dev F.CLK_STATUS_PER_CUR = 0 ∧
    t.dev.pm.objs.map (·.1) = s.dev.pm.objs.map (·.1) ∧ ∀ o ∈ t.dev.pm.objs, o.2.c15.suspect = true ∧ o.2.c24.suspect = true := by
  obtain ⟨e, he⟩ : ∃ e, e = wrB (wrB s.dev F.CLK_STATUS_PER_RESCUE 0 true) F.CLK_STATUS_PER_CUR 0 false := ⟨_, rfl⟩
  have hexec : exec (.clockStop 7) s = .next { s with dev := clkNmi s.sn (binsSuspect e) 2 } :=
    exec_of_core (g := clockStop 7 s.sn) rfl hcore (he ▸ rfl)
  have hclk : Within [clkWord, timWord] [.regs, .tim, .hif, .pm] s.dev e := he ▸ (Within.refl _ _ s.dev).wrB.wrB
  have hrescue : rd e F.CLK_STATUS_PER_RESCUE = 1 := by
    rw [he, rd_wrB_apart _ (by decide), rd_wrB_bit s.dev (by decide) true]
    rfl
  have hcur : rd e F.CLK_STATUS_PER_CUR = 0 := by
    rw [he, rd_wrB_bit _ (by decide) false]
    rfl
  have hpm : e.pm = s.dev.pm := by rw [he]; rfl
  have hhif : e.hif = s.dev.hif := by rw [he]; rfl
  obtain ⟨hkeys, hsuspect⟩ := binsSuspect_objs e
  have hobjs : (clkNmi s.sn (binsSuspect e) 2).pm.objs = (binsSuspect e).pm.objs := alarm_objs _ (nmiEvent s.sn 2) _
  refine raisesNmi_of (b := binsSuspect e) (.of_within (hclk.only (only_pm e _)) (.of_same hhif)) hexec
    ⟨(alarm_clk _ _ _ F.CLK_STATUS_PER_RESCUE).trans hrescue, (alarm_clk _ _ _ F.CLK_STATUS_PER_CUR).trans hcur, ?_, ?_⟩
  · dsimp only
    rw [hobjs, hkeys, hpm]
  · dsimp only
    rw [hobjs]
    exact hsuspect

theorem otherStop_raises {m : Fin 8} (hlo : 3 ≤ m.val) (hhi : m.val ≤ 5) : Acts [.tim, .hif] (.clockStop m) s fun t =>
    Raised s.dev t.dev [{ typ := 0x78, sn := s.sn, p0 := m.val, p1 := 0 }] ∧
    t.dev.tim = { s.dev.tim with stopped := s.dev.tim.stopped ||| BitVec.ofNat 8 (2 ^ m.val) } ∧
    (m.val = 5 → ∀ n : Fin 4, clkOutLow t.dev n = true) := by
  have heq : clockStop m s.sn s.dev = raise (clockStopped m s.dev) { typ := 0x78, sn := s.sn, p0 := m.val, p1 := 0 } := by
    have hm : m.val = 3 ∨ m.val = 4 ∨ m.val = 5 := by omega
    unfold clockStop
    rcases hm with h | h | h <;> simp only [h] <;> rfl
  have hframe : Within [] [.tim, .hif] s.dev (clockStopped m s.dev) := (Within.refl _ _ s.dev).only (only_tim _ _)
  refine hframe.raise.acts (exec_of_core (g := clockStop m s.sn) rfl hcore heq) ⟨raised_raise _ _, rfl, fun h5 n => ?_⟩
  have hbit := clockStopped_bit m.isLt s.dev
  rw [h5] at hbit
  exact Bool.or_eq_true_iff.mpr (.inl (Bool.or_eq_true_iff.mpr (.inl (Bool.or_eq_true_iff.mpr (.inl (h5 ▸ hbit))))))

theorem offFreq_marks (m : Fin 8) (count : W32) (hok : rdB s.dev F.CLK_STATUS_XO_OK = true) :
    ActsR [F.CLK_MON_FAIL_OFF_FREQ.addr 0] [.hif] (.offFreq m count) s fun t =>
      (rd t.dev F.CLK_MON_FAIL_OFF_FREQ).testBit m.val = true ∧
      Raised s.dev t.dev [{ typ := 0x78, sn := s.sn, p0 := m.val, p1 := count.toNat }] := by
  have heq : offFreq m count s.sn s.dev = raise (wr s.dev F.CLK_MON_FAIL_OFF_FREQ 0 (rd s.dev F.CLK_MON_FAIL_OFF_FREQ ||| 2 ^ m.val))
      { typ := 0x78, sn := s.sn, p0 := m.val, p1 := count.toNat } := if_neg (by simp [hok])
  refine (Within.refl _ _ s.dev).wr.raise.actsR (exec_of_core (g := offFreq m count s.sn) rfl hcore heq) ⟨?_, rfl⟩
  have hlt : rd s.dev F.CLK_MON_FAIL_OFF_FREQ ||| 2 ^ m.val < 2 ^ 8 :=
    Nat.or_lt_two_pow (rd_lt _ _ _) (Nat.pow_lt_pow_right (by decide) m.isLt)
  change (rd (wr s.dev F.CLK_MON_FAIL_OFF_FREQ 0 (rd s.dev F.CLK_MON_FAIL_OFF_FREQ ||| 2 ^ m.val)) F.CLK_MON_FAIL_OFF_FREQ).testBit _ = _
  rw [rd_wr_fits _ ⟨by decide, hlt⟩]
  simp

/-! ### XO and APLLs (R402) -/

theorem xoOk_judges {a b : Nat} {older : List Nat} (hok : rdB s.dev F.CLK_STATUS_XO_OK = false) (hlo : 6963 ≤ min a b)
    (hhi : max a b ≤ 9421) (hagree : 1000 * (max a b - min a b) ≤ 5 * min a b) (hlen : 62 ≤ older.length) :
    ActsR [clkWord, timWord] [] (.xoOk (older ++ [a, b])) s fun t =>
      rd t.dev F.CLK_STATUS_XO_OK = 1 ∧ rd t.dev F.TIM_STATUS_STATE = 0 := by
  have hjudged : xoAgree a b = true := decide_eq_true ⟨by omega, by omega, by omega, by omega, hagree⟩
  have heq : xoOk (older ++ [a, b]) s.dev = wr (wrB s.dev F.CLK_STATUS_XO_OK 0 true) F.TIM_STATUS_STATE 0 0 := by
    unfold xoOk
    simp only [List.reverse_append, List.reverse_cons, List.reverse_nil, List.nil_append, List.cons_append]
    exact if_pos (by simp [hok, hjudged, hlen])
  refine (Within.refl _ _ s.dev).wrB.wr.actsR (exec_of_core (g := xoOk (older ++ [a, b])) rfl hcore heq) ⟨?_, ?_⟩
  · exact (rd_wr_parted _ (by decide)).trans (rd_wrB_bit _ (by decide) true)
  · exact rd_wr_fits _ (by decide)

omit hcore in
theorem xoOk_ignores {a b : Nat} {older : List Nat}
    (h : older.length < 62 ∨ min a b < 6963 ∨ 9421 < max a b ∨ 5 * min a b < 1000 * (max a b - min a b)) :
    exec (.xoOk (older ++ [a, b])) s = .next s := by
  refine exec_of_core_self (g := xoOk (older ++ [a, b])) rfl ?_
  unfold xoOk
  simp only [List.reverse_append, List.reverse_cons, List.reverse_nil, List.nil_append, List.cons_append]
  refine if_neg fun hjudged => ?_
  simp only [xoAgree, Bool.and_eq_true, decide_eq_true_eq, List.length_append, List.length_cons, List.length_nil] at hjudged
  omega

theorem xoFail_shows (hok : rdB s.dev F.CLK_STATUS_XO_OK = false) :
    ActsR [clkWord] [] .xoFail s fun t => rd t.dev F.CLK_STATUS_XO_FAIL = 1 :=
  (Within.refl _ _ s.dev).wrB.actsR (exec_of_core (g := fun d => if rdB d F.CLK_STATUS_XO_OK then d else wrB d F.CLK_STATUS_XO_FAIL 0 true)
    rfl hcore (if_neg (by simp [hok]))) (rd_wrB_bit _ (by decide) true)

theorem apllLock_shows (a : Fin 3) (hok : rdB s.dev F.CLK_STATUS_XO_OK = true)
    (hnew : (rd s.dev F.CLK_STATUS_APLL_LOCK).testBit a.val = false) :
    ActsR [clkWord] [.stagger] (.apllLock a) s fun t =>
      rd t.dev F.CLK_STATUS_APLL_LOCK = rd s.dev F.CLK_STATUS_APLL_LOCK ||| 2 ^ a.val ∧
      t.dev.stagger = if a = 0 then 32 :: s.dev.stagger else s.dev.stagger := by
  obtain ⟨e, he⟩ : ∃ e, e = wr s.dev F.CLK_STATUS_APLL_LOCK 0 (rd s.dev F.CLK_STATUS_APLL_LOCK ||| 2 ^ a.val) := ⟨_, rfl⟩
  have heq : apllLock a s.dev = if a.val = 0 then { e with stagger := 32 :: e.stagger } else e := by
    rw [he]
    exact if_neg (by simp [hok, hnew])
  have hlock : rd e F.CLK_STATUS_APLL_LOCK = rd s.dev F.CLK_STATUS_APLL_LOCK ||| 2 ^ a.val := by
    rw [he]
    exact rd_wr_fits _ ⟨by decide, Nat.or_lt_two_pow (rd_lt _ _ _) (Nat.pow_lt_pow_right (by decide) a.isLt)⟩
  have hstagger : e.stagger = s.dev.stagger := by rw [he]; rfl
  have hframe : Within [clkWord] [.regs, .stagger] s.dev e := he ▸ (Within.refl _ _ s.dev).wr
  have hexec := exec_of_core (c := .apllLock a) (g := apllLock a) rfl hcore heq
  by_cases ha : a = 0
  · rw [if_pos (show a.val = 0 from congrArg Fin.val ha)] at hexec
    simp only [if_pos ha]
    exact (hframe.only (only_stagger e _)).actsR hexec ⟨hlock, congrArg _ hstagger⟩
  · rw [if_neg (show ¬ a.val = 0 from fun h => ha (Fin.ext h))] at hexec
    simp only [if_neg ha]
    exact hframe.actsR hexec ⟨hlock, hstagger⟩

end

/-- Settles O43: a stopped clock is one of CLK_NMI's causes or a CLK_MON_FREQ, by its monitor. -/
theorem clockSourcesAndMonitors : Obligations.ClockSourcesAndMonitors := by
  intro s hcore
  exact ⟨fun _ _ _ hok hlo hhi hagree hlen => xoOk_judges hcore hok hlo hhi hagree hlen, fun _ _ _ h => xoOk_ignores h,
    xoFail_shows hcore, fun a hok hnew => apllLock_shows hcore a hok hnew,
    fun hok hloss c hc => xoLoss_raisesNmi hcore hok hloss hc, fun m hm => clusterStop_raisesNmi hcore hm,
    sysStop_raisesNmi hcore, perStop_raisesNmi hcore, fun m hlo hhi => otherStop_raises hcore hlo hhi,
    fun m count hok => offFreq_marks hcore m count hok⟩

end Sys2Proof.Machine
end

