-- ==== Sys2Proof/Proofs/PhaseSteps.lean ====
section
/-! PROOFS. Multiplexers, the frequency counter, phase steps and PPS (R416 to R419, R422 to R425). -/

namespace Sys2Proof.Machine

-- In order: a default argument `by simp` waits for every declaration before it, and many that wait take many threads.
set_option Elab.async false

theorem rdB_of_toNat {d : Dev} {f : Fld} {i : Nat} {b : Bool} (h : rd d f i = b.toNat) : rdB d f i = b := by
  cases b
  · exact rdB_of_bit.1 h
  · exact rdB_of_bit.2 h

theorem rdB_wrB_bit {d : Dev} {f : Fld} {i : Nat} {b : Bool} (h : f.lo < 32 ∧ f.wd = 1) : rdB (wrB d f i b) f i = b :=
  rdB_of_toNat (rd_wrB_bit d h b)

/-! ### Multiplexers (R422, R423) -/

section
variable {s : State} (hcore : s.dev.pwr.core = true)
include hcore

theorem clkSel_shows (sys per : Bool) : ActsR [F.CLK_SEL_SYS.addr 0] [] (.clkSelWrite sys per) s fun t =>
    rdB t.dev F.CLK_SEL_SYS = sys ∧ rdB t.dev F.CLK_SEL_PER = per := by
  refine ((Within.refl _ _ s.dev).wrB.wrB ?_).actsR
    (exec_of_core (g := fun d => wrB (wrB d F.CLK_SEL_SYS 0 sys) F.CLK_SEL_PER 0 per) rfl hcore rfl)
    ⟨?_, rdB_wrB_bit (by decide)⟩
  · decide
  · exact rdB_of_toNat ((rd_wrB_apart _ (by decide)).trans (rd_wrB_bit _ (by decide) sys))

omit hcore in
theorem muxSwitch_hangs (hstop : apll1Runs s.dev = false) (per : Bool) : exec (.muxSwitchComplete per) s = .next s :=
  exec_of_core_self (g := muxDone per) rfl (if_pos (by rw [hstop]; rfl))

/-- A multiplexer that has switched drives its group, unless the group is rescued. -/
theorem switch_drives {c : Instr} {cur rescue sel : Fld} {x : Tim} (hcur : cur.addr 0 = clkWord ∧ cur.lo < 32 ∧ cur.wd = 1)
    {g : Dev → Dev} (hexec : exec c s = core s g) (heq : g s.dev = if rdB s.dev rescue then { s.dev with tim := x }
      else wrB { s.dev with tim := x } cur 0 (rdB s.dev sel)) : ActsR [clkWord] [.tim] c s fun t =>
    t.dev.tim = x ∧ (rdB s.dev rescue = false → rdB t.dev cur = rdB s.dev sel) ∧
    (rdB s.dev rescue = true → rdWord t.dev clkWord = rdWord s.dev clkWord) := by
  obtain ⟨e, he⟩ : ∃ e : Dev, e = { s.dev with tim := x } := ⟨_, rfl⟩
  have hframe : Within [clkWord] [.regs, .tim] s.dev e := he ▸ (Within.refl _ _ s.dev).only (only_tim _ _)
  have htim : e.tim = x := by rw [he]
  have hregs : e.regs = s.dev.regs := by rw [he]
  rw [← he] at heq
  have hexec := exec_of_core hexec hcore heq
  cases hrescue : rdB s.dev rescue with
  | true =>
    rw [hrescue, if_pos rfl] at hexec
    exact hframe.actsR hexec ⟨htim, nofun, fun _ => rdWord_congr hregs clkWord⟩
  | false =>
    rw [hrescue, if_neg Bool.false_ne_true] at hexec
    exact (hframe.wrB (by rw [hcur.1]; exact List.mem_singleton.mpr rfl)).actsR hexec ⟨htim, fun _ => rdB_wrB_bit hcur.2, nofun⟩

theorem sysSwitch_drives (hruns : apll1Runs s.dev = true) : ActsR [clkWord] [.tim] (.muxSwitchComplete false) s fun t =>
    t.dev.tim = { s.dev.tim with sysMux := rdB s.dev F.CLK_SEL_SYS } ∧
    (rdB s.dev F.CLK_STATUS_SYS_RESCUE = false → rdB t.dev F.CLK_STATUS_SYS_CUR = rdB s.dev F.CLK_SEL_SYS) ∧
    (rdB s.dev F.CLK_STATUS_SYS_RESCUE = true → rdWord t.dev clkWord = rdWord s.dev clkWord) :=
  switch_drives hcore (by decide) (g := muxDone false) rfl (if_neg (by rw [hruns]; decide))

theorem perSwitch_drives (hruns : apll1Runs s.dev = true) : ActsR [clkWord] [.tim] (.muxSwitchComplete true) s fun t =>
    t.dev.tim = { s.dev.tim with perMux := rdB s.dev F.CLK_SEL_PER } ∧
    (rdB s.dev F.CLK_STATUS_PER_RESCUE = false → rdB t.dev F.CLK_STATUS_PER_CUR = rdB s.dev F.CLK_SEL_PER) ∧
    (rdB s.dev F.CLK_STATUS_PER_RESCUE = true → rdWord t.dev clkWord = rdWord s.dev clkWord) :=
  switch_drives hcore (by decide) (g := muxDone true) rfl (if_neg (by rw [hruns]; decide))

/-- A rescue that is released gives its group back to its multiplexer. -/
theorem rescue_releases {c : Instr} {cur rescue other : Fld} {b : Bool} (hcur : cur.addr 0 = clkWord ∧ cur.lo < 32 ∧ cur.wd = 1)
    (hrescue : rescue.addr 0 = clkWord ∧ rescue.lo < 32 ∧ rescue.wd = 1)
    (hapart : cur.apart rescue = true ∧ rescue.apart other = true ∧ cur.apart other = true) {g : Dev → Dev}
    (hexec : exec c s = core s g) (heq : g s.dev = wrB (wrB s.dev rescue 0 false) cur 0 b) : ActsR [clkWord] [] c s fun t =>
      rd t.dev rescue = 0 ∧ rdB t.dev cur = b ∧ rd t.dev other = rd s.dev other := by
  have hin {f : Fld} (h : f.addr 0 = clkWord) : f.addr 0 ∈ [clkWord] := by rw [h]; exact List.mem_singleton.mpr rfl
  obtain ⟨hfirst, hother, hlast⟩ := hapart
  exact (((Within.refl _ _ s.dev).wrB (hin hrescue.1)).wrB (hin hcur.1)).actsR (exec_of_core hexec hcore heq)
    ⟨(rd_wrB_apart _ hfirst).trans (rd_wrB_bit _ hrescue.2 false), rdB_wrB_bit hcur.2,
      (rd_wrB_apart _ hlast).trans (rd_wrB_apart _ hother)⟩

theorem sysRescue_releases (perRun : Bool) (hrescue : rdB s.dev F.CLK_STATUS_SYS_RESCUE = true) :
    (ActsR [clkWord] [] (.rescueRelease true false true perRun) s fun t =>
      rd t.dev F.CLK_STATUS_SYS_RESCUE = 0 ∧ rdB t.dev F.CLK_STATUS_SYS_CUR = s.dev.tim.sysMux ∧
      rd t.dev F.CLK_STATUS_PER_RESCUE = rd s.dev F.CLK_STATUS_PER_RESCUE) ∧
    exec (.rescueRelease true false false perRun) s = .next s := by
  have heq : rescueRelease true false true perRun s.dev =
      wrB (wrB s.dev F.CLK_STATUS_SYS_RESCUE 0 false) F.CLK_STATUS_SYS_CUR 0 s.dev.tim.sysMux := by
    simp only [rescueRelease, hrescue, Bool.true_and, Bool.false_and, Bool.false_eq_true, if_true, if_false]
  exact ⟨rescue_releases hcore (by decide) (by decide) (by decide) (g := rescueRelease true false true perRun) rfl heq,
    exec_of_core_self (g := rescueRelease true false false perRun) rfl rfl⟩

theorem perRescue_releases (sysRun : Bool) (hrescue : rdB s.dev F.CLK_STATUS_PER_RESCUE = true) :
    (ActsR [clkWord] [] (.rescueRelease false true sysRun true) s fun t =>
      rd t.dev F.CLK_STATUS_PER_RESCUE = 0 ∧ rdB t.dev F.CLK_STATUS_PER_CUR = s.dev.tim.perMux ∧
      rd t.dev F.CLK_STATUS_SYS_RESCUE = rd s.dev F.CLK_STATUS_SYS_RESCUE) ∧
    exec (.rescueRelease false true sysRun false) s = .next s := by
  have heq : rescueRelease false true sysRun true s.dev =
      wrB (wrB s.dev F.CLK_STATUS_PER_RESCUE 0 false) F.CLK_STATUS_PER_CUR 0 s.dev.tim.perMux := by
    simp only [rescueRelease, hrescue, Bool.true_and, Bool.false_and, Bool.false_eq_true, if_true, if_false]
  exact ⟨rescue_releases hcore (by decide) (by decide) (by decide) (g := rescueRelease false true sysRun true) rfl heq,
    exec_of_core_self (g := rescueRelease false true sysRun false) rfl rfl⟩

/-! ### The frequency counter (R424) -/

theorem freqCount_starts (hsrc : rd s.dev F.CLK_FCNT_CTL_SRC < 16)
    (href : rdB s.dev F.CLK_FCNT_CTL_REF = true → rdB s.dev F.CLK_STATUS_XO_OK = true) :
    ActsR [F.CLK_FCNT_STATUS_BUSY.addr 0] [] .frequencyCountStart s fun t =>
      rd t.dev F.CLK_FCNT_STATUS_BUSY = 1 ∧ rd t.dev F.CLK_FCNT_STATUS_DONE = 0 := by
  have heq : fcntStart s.dev =
      wrB (wrB (wrB s.dev F.CLK_FCNT_STATUS_BUSY 0 true) F.CLK_FCNT_STATUS_DONE 0 false) F.CLK_FCNT_STATUS_TMO 0 false := by
    refine if_neg ?_
    rintro (h | ⟨h, hno⟩)
    · omega
    · simp [href h] at hno
  refine (((Within.refl _ _ s.dev).wrB.wrB ?_).wrB ?_).actsR (exec_of_core (g := fcntStart) rfl hcore heq) ⟨?_, ?_⟩
  · decide
  · decide
  · exact ((rd_wrB_apart _ (by decide)).trans (rd_wrB_apart _ (by decide))).trans (rd_wrB_bit _ (by decide) true)
  · exact (rd_wrB_apart _ (by decide)).trans (rd_wrB_bit _ (by decide) false)

theorem freqCount_refused (h : 16 ≤ rd s.dev F.CLK_FCNT_CTL_SRC ∨
    (rdB s.dev F.CLK_FCNT_CTL_REF = true ∧ rdB s.dev F.CLK_STATUS_XO_OK = false)) :
    ActsR [clkWord] [] .frequencyCountStart s fun t => rd t.dev F.CLK_STATUS_CFG_ERR = 1 := by
  have heq : fcntStart s.dev = wrB s.dev F.CLK_STATUS_CFG_ERR 0 true := if_pos (h.imp_right fun ⟨h, hno⟩ => ⟨h, by simp [hno]⟩)
  exact (Within.refl _ _ s.dev).wrB.actsR (exec_of_core (g := fcntStart) rfl hcore heq) (rd_wrB_bit _ (by decide) true)

theorem freqCount_ends (count : W32) (tmo : Bool) (hbusy : rdB s.dev F.CLK_FCNT_STATUS_BUSY = true) :
    ActsR [F.CLK_FCNT_STATUS_BUSY.addr 0, F.CLK_FCNT_RESULT_COUNT.addr 0] [] (.frequencyCountDone count tmo) s fun t =>
      rd t.dev F.CLK_FCNT_RESULT_COUNT = count.toNat ∧ rd t.dev F.CLK_FCNT_STATUS_DONE = 1 ∧
      rd t.dev F.CLK_FCNT_STATUS_BUSY = 0 ∧ rdB t.dev F.CLK_FCNT_STATUS_TMO = tmo := by
  obtain ⟨e, he⟩ : ∃ e, e = wrB (wrB (wrB s.dev F.CLK_FCNT_STATUS_BUSY 0 false) F.CLK_FCNT_STATUS_DONE 0 true) F.CLK_FCNT_STATUS_TMO 0 tmo :=
    ⟨_, rfl⟩
  have hframe : Within [F.CLK_FCNT_STATUS_BUSY.addr 0, F.CLK_FCNT_RESULT_COUNT.addr 0] [.regs] s.dev e :=
    he ▸ (((Within.refl _ _ s.dev).wrB.wrB (by decide)).wrB (by decide))
  have hbusy' : rd e F.CLK_FCNT_STATUS_BUSY = 0 := by
    rw [he, rd_wrB_apart _ (by decide), rd_wrB_apart _ (by decide)]
    exact rd_wrB_bit _ (by decide) false
  have hdone : rd e F.CLK_FCNT_STATUS_DONE = 1 := by
    rw [he, rd_wrB_apart _ (by decide)]
    exact rd_wrB_bit _ (by decide) true
  have htmo : rd e F.CLK_FCNT_STATUS_TMO = tmo.toNat := by
    rw [he]
    exact rd_wrB_bit _ (by decide) tmo
  have heq : fcntDone count tmo s.dev = wr e F.CLK_FCNT_RESULT_COUNT 0 count.toNat := by
    rw [he]
    exact if_neg (by rw [hbusy]; decide)
  exact hframe.wr.actsR (exec_of_core (g := fcntDone count tmo) rfl hcore heq)
    ⟨rd_wr_fits _ ⟨by decide, count.isLt⟩, (rd_wr_parted _ (by decide)).trans hdone, (rd_wr_parted _ (by decide)).trans hbusy',
      rdB_of_toNat ((rd_wr_parted _ (by decide)).trans htmo)⟩

end

/-! ### Phase steps (R416, R417) -/

theorem unsigned_signed {wd v : Nat} (hwd : 0 < wd) (hv : v < 2 ^ wd) : unsigned wd (signed wd v) = v := by
  have hsplit : (2 : Nat) ^ wd = 2 * 2 ^ (wd - 1) := by rw [← Nat.pow_succ']; congr 1; omega
  unfold unsigned signed
  split
  case isTrue => rw [Int.emod_eq_of_lt (by omega) (by omega)]; rfl
  case isFalse => rw [Int.sub_emod_right, Int.emod_eq_of_lt (by omega) (by omega)]; rfl

theorem unsigned_lt (wd : Nat) (v : Int) : unsigned wd v < 2 ^ wd := by
  have hpos : (0 : Int) < (2 ^ wd : Nat) := by exact_mod_cast Nat.two_pow_pos wd
  have hlt := Int.emod_lt_of_pos v hpos
  have hge := Int.emod_nonneg v hpos.ne'
  unfold unsigned
  omega

abbrev pstepWord : Nat := F.TIM_PSTEP_STATUS_BUSY.addr 0
@[simp] theorem addr_pstepRemain : F.TIM_PSTEP_STATUS_REMAIN.addr 0 = pstepWord := rfl
@[simp] theorem addr_pstepLate : F.TIM_PSTEP_STATUS_LATE.addr 0 = pstepWord := rfl

/-- The series that GO starts. -/
def newSeries (d : Dev) (next : SN) (late : Bool) : PStep :=
  { remain := signed 21 (rd d F.TIM_PSTEP_SIZE), size := signed 21 (rd d F.TIM_PSTEP_SIZE), ivl := max 1 (rd d F.TIM_PSTEP_IVL), next := next, late := late }

/-- A series runs. -/
def seriesShown (d : Dev) (p : PStep) : Dev :=
  wrB (wr { d with tim := { d.tim with ps := some p } } F.TIM_PSTEP_STATUS_REMAIN 0 (unsigned 21 p.size)) F.TIM_PSTEP_STATUS_BUSY 0 true

theorem seriesShown_spec (d : Dev) (p : PStep) : Within [pstepWord] [.regs, .tim] d (seriesShown d p) ∧
    (seriesShown d p).tim = { d.tim with ps := some p } ∧ rd (seriesShown d p) F.TIM_PSTEP_STATUS_BUSY = 1 ∧
    rd (seriesShown d p) F.TIM_PSTEP_STATUS_REMAIN = unsigned 21 p.size ∧
    rd (seriesShown d p) F.TIM_PSTEP_STATUS_LATE = rd d F.TIM_PSTEP_STATUS_LATE := by
  refine ⟨((Within.refl _ _ d).only (only_tim _ _)).wr.wrB, rfl, rd_wrB_bit _ (by decide) true, ?_, ?_⟩
  · exact (rd_wrB_apart _ (by decide)).trans (rd_wr_fits _ ⟨by decide, unsigned_lt 21 p.size⟩)
  · exact (rd_wrB_apart _ (by decide)).trans (rd_wr_apart _ (by decide))

section
variable {s : State} (hcore : s.dev.pwr.core = true)
include hcore

theorem pstepGo_busy (hbusy : rdB s.dev F.TIM_PSTEP_STATUS_BUSY = true) :
    ActsR [F.CLK_STATUS_CFG_ERR.addr 0] [] .timPstepGo s fun t => rd t.dev F.CLK_STATUS_CFG_ERR = 1 :=
  (Within.refl _ _ s.dev).wrB.actsR (exec_of_core (g := pstepGo s.sn) rfl hcore (if_pos hbusy)) (rd_wrB_bit _ (by decide) true)

theorem pstepGo_inTime {t0 : SN} (ht0 : t0 = BitVec.ofNat 32 (rd s.dev F.TIM_PSTEP_SN)) (hidle : rdB s.dev F.TIM_PSTEP_STATUS_BUSY = false)
    (hin : 2 ≤ (t0 - s.sn).toNat ∧ (t0 - s.sn).toNat < 2 ^ 31) : ActsR [pstepWord] [.tim] .timPstepGo s fun t =>
      t.dev.tim = { s.dev.tim with ps := some (newSeries s.dev t0 false) } ∧
      rd t.dev F.TIM_PSTEP_STATUS_BUSY = 1 ∧ rd t.dev F.TIM_PSTEP_STATUS_REMAIN = rd s.dev F.TIM_PSTEP_SIZE ∧
      rd t.dev F.TIM_PSTEP_STATUS_LATE = rd s.dev F.TIM_PSTEP_STATUS_LATE := by
  obtain ⟨hframe, htim, hbusy, hremain, hlate⟩ := seriesShown_spec s.dev (newSeries s.dev t0 false)
  have heq : pstepGo s.sn s.dev = seriesShown s.dev (newSeries s.dev t0 false) := by
    subst ht0
    unfold pstepGo
    rw [if_neg (by rw [hidle]; decide)]
    simp only [decide_eq_true hin, if_true]
    rfl
  refine hframe.actsR (exec_of_core (g := pstepGo s.sn) rfl hcore heq) ⟨htim, hbusy, hremain.trans ?_, hlate⟩
  exact unsigned_signed (by decide) (rd_lt _ F.TIM_PSTEP_SIZE _)

theorem pstepGo_late {t0 : SN} (ht0 : t0 = BitVec.ofNat 32 (rd s.dev F.TIM_PSTEP_SN)) (hidle : rdB s.dev F.TIM_PSTEP_STATUS_BUSY = false)
    (hout : ¬ (2 ≤ (t0 - s.sn).toNat ∧ (t0 - s.sn).toNat < 2 ^ 31)) : ActsR [pstepWord] [.tim] .timPstepGo s fun t =>
      t.dev.tim = { s.dev.tim with ps := some (newSeries s.dev (s.sn + 2) true) } ∧
      rd t.dev F.TIM_PSTEP_STATUS_BUSY = 1 ∧ rd t.dev F.TIM_PSTEP_STATUS_LATE = 1 := by
  have hmark : Within [pstepWord] [.regs, .tim] s.dev (wrB s.dev F.TIM_PSTEP_STATUS_LATE 0 true) := (Within.refl _ _ s.dev).wrB
  obtain ⟨hframe, htim, hbusy, -, hlate⟩ := seriesShown_spec (wrB s.dev F.TIM_PSTEP_STATUS_LATE 0 true) (newSeries s.dev (s.sn + 2) true)
  have hsize : rd (wrB s.dev F.TIM_PSTEP_STATUS_LATE 0 true) F.TIM_PSTEP_IVL = rd s.dev F.TIM_PSTEP_IVL := hmark.rd (by decide)
  have heq : pstepGo s.sn s.dev = seriesShown (wrB s.dev F.TIM_PSTEP_STATUS_LATE 0 true) (newSeries s.dev (s.sn + 2) true) := by
    subst ht0
    unfold pstepGo
    rw [if_neg (by rw [hidle]; decide)]
    simp only [decide_eq_false hout, Bool.false_eq_true, if_false, hsize]
    rfl
  exact (hmark.trans hframe).actsR (exec_of_core (g := pstepGo s.sn) rfl hcore heq)
    ⟨htim, hbusy, hlate.trans (rd_wrB_bit _ (by decide) true)⟩

theorem phaseStep_ends {p : PStep} (hp : s.dev.tim.ps = some p) (hdue : snDue p.next s.sn = true) (hlast : p.remain.natAbs ≤ 64) :
    ActsR [pstepWord] [.tim, .hif] .phaseStep s fun t =>
      t.dev.tim = { s.dev.tim with ps := none } ∧ rd t.dev F.TIM_PSTEP_STATUS_BUSY = 0 ∧ rd t.dev F.TIM_PSTEP_STATUS_REMAIN = 0 ∧
      Raised s.dev t.dev [{ typ := 0x75, sn := s.sn, p0 := unsigned 32 p.size, p1 := p.late.toNat }] := by
  have hzero : p.remain - max (-64) (min 64 p.remain) = 0 := by omega
  have heq : phaseStep s.sn s.dev =
      raise (wrB { wr s.dev F.TIM_PSTEP_STATUS_REMAIN 0 0 with tim := { s.dev.tim with ps := none } } F.TIM_PSTEP_STATUS_BUSY 0 false)
        { typ := 0x75, sn := s.sn, p0 := unsigned 32 p.size, p1 := p.late.toNat } := by
    unfold phaseStep
    rw [hp]
    dsimp only
    rw [hdue, hzero]
    rfl
  refine ((((Within.refl _ _ s.dev).wr.only (only_tim _ _)).wrB).raise).actsR (exec_of_core (g := phaseStep s.sn) rfl hcore heq)
    ⟨rfl, rd_wrB_bit _ (by decide) false, ?_, rfl⟩
  exact (rd_wrB_apart _ (by decide)).trans (rd_wr_fits s.dev (by decide))

theorem phaseStep_goesOn {p : PStep} (hp : s.dev.tim.ps = some p) (hdue : snDue p.next s.sn = true) {r : Int}
    (hr : (64 < p.remain ∧ r = p.remain - 64) ∨ (p.remain < -64 ∧ r = p.remain + 64)) :
    ActsR [pstepWord] [.tim] .phaseStep s fun t =>
      t.dev.tim = { s.dev.tim with ps := some { p with remain := r, next := p.next + BitVec.ofNat 32 p.ivl } } ∧
      rd t.dev F.TIM_PSTEP_STATUS_REMAIN = unsigned 21 r := by
  have hnext : p.remain - max (-64) (min 64 p.remain) = r := by omega
  have heq : phaseStep s.sn s.dev = { wr s.dev F.TIM_PSTEP_STATUS_REMAIN 0 (unsigned 21 r) with
      tim := { s.dev.tim with ps := some { p with remain := r, next := p.next + BitVec.ofNat 32 p.ivl } } } := by
    unfold phaseStep
    rw [hp]
    dsimp only
    rw [hdue, hnext]
    exact (if_neg (by decide)).trans (if_neg (show ¬ r = 0 by omega))
  exact ((Within.refl _ _ s.dev).wr.only (only_tim _ _)).actsR (exec_of_core (g := phaseStep s.sn) rfl hcore heq)
    ⟨rfl, rd_wr_fits s.dev ⟨by decide, unsigned_lt 21 r⟩⟩

/-! ### PPS (R419) -/

theorem ppsIn_stamps {ns : Nat} (hns : ns ≤ 1638) : ActsR [F.TIM_PPS_TS_SN.addr 0, F.TIM_PPS_TS_OFS.addr 0] [.hif] (.ppsIn ns) s fun t =>
    rd t.dev F.TIM_PPS_TS_SN = s.sn.toNat ∧ rd t.dev F.TIM_PPS_TS_OFS = ns ∧
    Raised s.dev t.dev [{ typ := 0x76, sn := s.sn, p0 := s.sn.toNat, p1 := ns }] :=
  (Within.refl _ _ s.dev).wr.wr.raise.actsR (exec_of_core
      (g := fun d => raise (wr (wr d F.TIM_PPS_TS_SN 0 s.sn.toNat) F.TIM_PPS_TS_OFS 0 ns) { typ := 0x76, sn := s.sn, p0 := s.sn.toNat, p1 := ns })
      rfl hcore rfl)
    ⟨(rd_wr_parted _ (by decide)).trans (rd_wr_fits s.dev ⟨by decide, s.sn.isLt⟩),
      rd_wr_fits (f := F.TIM_PPS_TS_OFS) _ ⟨by decide, hns.trans_lt (by decide)⟩, rfl⟩

theorem ppsOut_rises (hon : rdB s.dev F.TIM_PPS_OUT_EN = true) (hclk : s.dev.tim.stopped.getLsbD 5 = false) :
    Acts [.out] .ppsOut s fun t => Sent s.dev t.dev [.pps] :=
  (Within.refl [] _ s.dev).emit.acts (exec_of_core
    (g := fun d => if rdB d F.TIM_PPS_OUT_EN && !d.tim.stopped.getLsbD 5 then emit d .pps else d) rfl hcore
    (if_pos (by rw [hon, hclk]; rfl))) rfl

omit hcore in
theorem ppsOut_rests (hoff : rdB s.dev F.TIM_PPS_OUT_EN = false) : exec .ppsOut s = .next s :=
  exec_of_core_self (g := fun d => if rdB d F.TIM_PPS_OUT_EN && !d.tim.stopped.getLsbD 5 then emit d .pps else d) rfl
    (if_neg (by rw [hoff, Bool.false_and]; decide))

end

/-- Settles O44: each command by the branch that its premises choose. -/
theorem clocksPhaseStepsAndPulses : Obligations.ClocksPhaseStepsAndPulses := by
  constructor
  · intro s hcore
    exact ⟨clkSel_shows hcore, muxSwitch_hangs, sysSwitch_drives hcore, perSwitch_drives hcore, sysRescue_releases hcore,
      perRescue_releases hcore, freqCount_starts hcore, freqCount_refused hcore, freqCount_ends hcore⟩
  · intro s hcore
    exact ⟨pstepGo_busy hcore, fun hidle => ⟨pstepGo_inTime hcore rfl hidle, pstepGo_late hcore rfl hidle⟩,
      fun p hp hdue => ⟨phaseStep_ends hcore hp hdue, fun r hr => phaseStep_goesOn hcore hp hdue hr⟩,
      fun ns hns => ppsIn_stamps hcore hns, ppsOut_rises hcore, ppsOut_rests⟩

end Sys2Proof.Machine
end

