-- ==== Sys2Proof/Proofs/Candidates.lean ====
section
/-! PROOFS. Reference candidates (R405, R406). -/

namespace Sys2Proof.Machine

-- In order: a default argument `by simp` waits for every declaration before it, and many that wait take many threads.
set_option Elab.async false

/-! ### A slot's conditions -/

/-- The field lies beside TIM_CAND_STATUS. -/
def Fld.besideCand (f : Fld) : Bool := F.TIM_CAND_STATUS_QUAL.parted f || decide (0x201000 ≤ f.base)

theorem candWord_ne {f : Fld} (h : f.besideCand = true) (i j : Nat) : f.addr j ≠ F.TIM_CAND_STATUS_QUAL.addr i := by
  simp only [Fld.besideCand, Bool.or_eq_true, decide_eq_true_eq] at h
  rcases h with h | h
  · exact (Fld.addr_ne h i j).symm
  · have hle : f.base ≤ f.addr j := by unfold Fld.addr; omega
    have hlt : F.TIM_CAND_STATUS_QUAL.addr i < 0x201000 :=
      (Fld.addr_mem_span (f := F.TIM_CAND_STATUS_QUAL) rfl (by decide) i).2.trans_lt (by decide)
    omega

@[simp] theorem addr_candWtrRun (i : Nat) : F.TIM_CAND_STATUS_WTR_RUN.addr i = F.TIM_CAND_STATUS_QUAL.addr i := rfl
@[simp] theorem addr_candQl (i : Nat) : F.TIM_CAND_STATUS_QL.addr i = F.TIM_CAND_STATUS_QUAL.addr i := rfl
@[simp] theorem addr_candLt (i : Nat) : F.TIM_CAND_STATUS_LT.addr i = F.TIM_CAND_STATUS_QUAL.addr i := rfl
@[simp] theorem addr_candOfs (i : Nat) : F.TIM_CAND_STATUS_OFS.addr i = F.TIM_CAND_STATUS_QUAL.addr i := rfl

/-- The conditions of a slot that do not come of its own measurements: 1, 4 and 5 of Table 16-2. -/
def outerConds (d : Dev) (i : Nat) : Nat :=
  let n := candSrc d i
  let lane := n < 128 ∧ (!rdB d F.LNE_CTL_RX_EN n || rdB d F.LNE_STATUS_LOS n || !rdB d F.LNE_STATUS_CDR_LOCK n || laneCond d n == .sf)
  (if lane then 1 else 0) + (if rdB d F.TIM_CFG_QL_EN ∧ (qlRank d (candQl d i)).isNone then 8 else 0) + (if candLt d i then 16 else 0)

theorem candConds_eq (d : Dev) (i : Nat) : candConds d i =
    outerConds d i + (if 128 ≤ candSrc d i ∧ (candRec d i).act then 2 else 0) + (if (candRec d i).ofs then 4 else 0) := by
  unfold candConds outerConds
  dsimp only
  omega

theorem outerConds_mod (d : Dev) (i : Nat) : outerConds d i % 4 ≤ 1 := by
  unfold outerConds
  dsimp only
  split <;> split <;> split <;> decide

/-! A change of the slot's measurements and of TIM_CAND_STATUS alone keeps the others. -/

section
variable {i : Nat} {a b : Dev} (h : Within [F.TIM_CAND_STATUS_QUAL.addr i] [.regs, .tim] a b)
include h

theorem rd_beside {f : Fld} {j : Nat} (hf : f.besideCand = true) : rd b f j = rd a f j :=
  h.rd fun hmem => candWord_ne hf i j (List.mem_singleton.mp hmem)

theorem candSrc_beside : candSrc b i = candSrc a i := rd_beside h (by decide)

theorem candQl_beside : candQl b i = candQl a i := by
  have hfrm : b.frm = a.frm := h.parts .frm (by simp)
  simp (disch := decide) only [candQl, candRx, candSrc, persOf, rdB, rd_beside h, hfrm]
  rfl

theorem outerConds_beside : outerConds b i = outerConds a i := by
  have hfrm : b.frm = a.frm := h.parts .frm (by simp)
  simp (disch := decide) only [outerConds, qlRank, candQl_beside h, candLt, candSrc, persOf, laneCond, rdB, rd_beside h, hfrm]
  rfl

end

theorem candRec_modCand (d : Dev) (i : Nat) (f : Cand → Cand) : candRec (modCand d i f) i = f (candRec d i) := tget_tput_same _ _ _ _

/-! ### What an evaluation makes of a slot -/

/-- The wait-to-restore timer runs after the evaluation. -/
def candWaits (start : Bool) (d : Dev) (i : Nat) : Bool :=
  candConds d i == 0 && ((candRec d i).wtr || (start && ((candRec d i).cond &&& 0x17) != 0 && rd d F.TIM_CAND_WTR i != 0))

/-- The slot is qualified after it. -/
def qualifies (start : Bool) (d : Dev) (i : Nat) : Bool := candConds d i == 0 && !candWaits start d i

/-- The condition that kept the slot from being qualified. -/
def lastCond (d : Dev) (i : Nat) : Nat :=
  if candConds d i = 0 ∧ (candRec d i).cond ≠ 0 then lowCond (candRec d i).cond else (candRec d i).last

/-- The slot's events. -/
def qualEvents (start : Bool) (sn : SN) (d : Dev) (i : Nat) : List Ev :=
  if rdB d F.TIM_CAND_STATUS_QUAL i ∧ candConds d i ≠ 0 then [{ typ := 0x72, sn := sn, p0 := i, p1 := 1 + 16 * lowCond (candConds d i) }]
  else if !rdB d F.TIM_CAND_STATUS_QUAL i ∧ qualifies start d i then [{ typ := 0x72, sn := sn, p0 := i, p1 := 16 * lastCond d i }]
  else []

/-- The slot as the evaluation leaves it, without its events. -/
def slotShown (start : Bool) (d : Dev) (i : Nat) : Dev :=
  wrB (wr (wrB (wrB (modCand d i fun x => { x with cond := candConds d i, wtr := candWaits start d i, last := lastCond d i })
    F.TIM_CAND_STATUS_QUAL i (qualifies start d i)) F.TIM_CAND_STATUS_WTR_RUN i (candWaits start d i)) F.TIM_CAND_STATUS_QL i (candQl d i))
    F.TIM_CAND_STATUS_LT i (candLt d i)

/-- What the evaluation of a slot that is enabled shows. -/
structure SlotJudged (start : Bool) (sn : SN) (i : Nat) (a b : Dev) : Prop where
  frame : Within [F.TIM_CAND_STATUS_QUAL.addr i] [.regs, .tim, .hif] a b
  slot : candRec b i = { candRec a i with cond := candConds a i, wtr := candWaits start a i, last := lastCond a i }
  qual : candQual b i = qualifies start a i
  wtr : rd b F.TIM_CAND_STATUS_WTR_RUN i = (candWaits start a i).toNat
  ofs : rd b F.TIM_CAND_STATUS_OFS i = rd a F.TIM_CAND_STATUS_OFS i
  events : Raised a b (qualEvents start sn a i)

section
variable (start : Bool) (sn : SN) (d : Dev) (i : Nat)

theorem slotShown_spec : Within [F.TIM_CAND_STATUS_QUAL.addr i] [.regs, .tim, .hif] d (slotShown start d i) ∧
    candRec (slotShown start d i) i = { candRec d i with cond := candConds d i, wtr := candWaits start d i, last := lastCond d i } ∧
    candQual (slotShown start d i) i = qualifies start d i ∧
    rd (slotShown start d i) F.TIM_CAND_STATUS_WTR_RUN i = (candWaits start d i).toNat ∧
    rd (slotShown start d i) F.TIM_CAND_STATUS_OFS i = rd d F.TIM_CAND_STATUS_OFS i := by
  refine ⟨((Within.refl _ _ d).only (only_tim _ _)).wrB.wrB.wr.wrB, candRec_modCand _ _ _, rdB_of_toNat ?_, ?_, ?_⟩ <;> unfold slotShown
  · rw [rd_wrB_apart _ (by decide), rd_wr_apart _ (by decide), rd_wrB_apart _ (by decide)]
    exact rd_wrB_bit _ (by decide) _
  · rw [rd_wrB_apart _ (by decide), rd_wr_apart _ (by decide)]
    exact rd_wrB_bit _ (by decide) _
  · rw [rd_wrB_apart _ (by decide), rd_wr_apart _ (by decide), rd_wrB_apart _ (by decide), rd_wrB_apart _ (by decide)]
    rfl

variable {d i}

theorem candStep_eq (hlive : rdB d F.TIM_CAND_EN i = true ∧ candSrc d i < 0x84) (hql : rd d F.TIM_CAND_STATUS_QL i = candQl d i) :
    candStep start sn d i =
      if rdB d F.TIM_CAND_STATUS_QUAL i ∧ candConds d i ≠ 0 then
        raise (slotShown start d i) { typ := 0x72, sn := sn, p0 := i, p1 := 1 + 16 * lowCond (candConds d i) }
      else if !rdB d F.TIM_CAND_STATUS_QUAL i ∧ qualifies start d i then
        raise (slotShown start d i) { typ := 0x72, sn := sn, p0 := i, p1 := 16 * lastCond d i }
      else slotShown start d i := by
  have hvalid : candValid d i = true := decide_eq_true hlive.2
  unfold candStep
  simp only [hlive.1, hvalid, hql, Bool.and_self, Bool.true_and, if_true, ne_self_iff_false, false_and, if_false]
  rfl

theorem candStep_judges (hlive : rdB d F.TIM_CAND_EN i = true ∧ candSrc d i < 0x84) (hql : rd d F.TIM_CAND_STATUS_QL i = candQl d i) :
    SlotJudged start sn i d (candStep start sn d i) := by
  obtain ⟨hframe, hslot, hqual, hwtr, hofs⟩ := slotShown_spec start d i
  have hevq : (slotShown start d i).hif.evq = d.hif.evq := rfl
  have hrole : (slotShown start d i).twin.role = d.twin.role := rfl
  have heq := candStep_eq start sn hlive hql
  have hevents : ∀ es, qualEvents start sn d i = es → Raised d (candStep start sn d i) es := by
    rintro es rfl
    rw [heq]
    unfold qualEvents
    split
    · rfl
    · split
      · rfl
      · exact (List.append_nil _).symm
  refine ⟨?_, ?_, ?_, ?_, ?_, hevents _ rfl⟩ <;> rw [heq]
  · exact .ite (fun _ => hframe.raise) fun _ => .ite (fun _ => hframe.raise) fun _ => hframe
  all_goals split
  all_goals (try split)
  all_goals assumption

end

/-- A slot with a condition is not qualified, and waits for nothing. -/
theorem SlotJudged.fails {start : Bool} {sn : SN} {i : Nat} {a b : Dev} (h : SlotJudged start sn i a b) (hc : candConds a i ≠ 0) :
    candQual b i = false ∧ rd b F.TIM_CAND_STATUS_WTR_RUN i = 0 := by
  rw [h.qual, h.wtr]
  simp [qualifies, candWaits, hc]

/-! ### The commands of a slot -/

/-- A window's offset judged: the record that it leaves. -/
def windowed (disq req mag : Nat) (x : Cand) : Cand :=
  let ok := if mag ≤ 100 * req then x.okWin + 1 else 0
  if 100 * disq < mag then { x with ofs := true, okWin := 0 }
  else if x.ofs ∧ 3 ≤ ok then { x with ofs := false, okWin := 0 } else { x with okWin := if x.ofs then ok else 0 }

/-- DISQ_PPM and REQ_PPM as they count. -/
def disqPpm (d : Dev) : Nat := min (rd d F.TIM_CFG2_DISQ_PPM) 50
def reqPpm (d : Dev) : Nat := min (rd d F.TIM_CFG2_REQ_PPM) (disqPpm d)

theorem reqPpm_le (d : Dev) : reqPpm d ≤ disqPpm d := Nat.min_le_right _ _

/-- The slot after its window and before it is evaluated. -/
def slotWindowed (i : Nat) (ofs : BitVec 24) (d : Dev) : Dev :=
  modCand (wr d F.TIM_CAND_STATUS_OFS i ofs.toNat) i (windowed (disqPpm d) (reqPpm d) ofs.toInt.natAbs)

theorem candWindow_eq {d : Dev} {i : Nat} (hsrc : candSrc d i < 0x84) (ofs : BitVec 24) (sn : SN) :
    candWindow i ofs sn d = candStep true sn (slotWindowed i ofs d) i :=
  if_neg (by simp [candValid, hsrc])

/-- `e` is `a` with the slot's record `x` and its offset `ofs`, before the slot is evaluated. -/
structure SlotEntered (i : Nat) (x : Cand) (ofs : Nat) (a e : Dev) : Prop where
  frame : Within [F.TIM_CAND_STATUS_QUAL.addr i] [.regs, .tim] a e
  slot : candRec e i = x
  ofs : rd e F.TIM_CAND_STATUS_OFS i = ofs
  ql : rd e F.TIM_CAND_STATUS_QL i = rd a F.TIM_CAND_STATUS_QL i
  qual : rd e F.TIM_CAND_STATUS_QUAL i = rd a F.TIM_CAND_STATUS_QUAL i

theorem slotEntered_modCand (d : Dev) (i : Nat) (f : Cand → Cand) :
    SlotEntered i (f (candRec d i)) (rd d F.TIM_CAND_STATUS_OFS i) d (modCand d i f) :=
  ⟨(Within.refl _ _ d).only (only_tim _ _), candRec_modCand _ _ _, rfl, rfl, rfl⟩

theorem slotEntered_windowed (d : Dev) (i : Nat) (ofs : BitVec 24) :
    SlotEntered i (windowed (disqPpm d) (reqPpm d) ofs.toInt.natAbs (candRec d i)) ofs.toNat d (slotWindowed i ofs d) :=
  ⟨(Within.refl _ _ d).wr.only (only_tim _ _), candRec_modCand _ _ _, rd_wr_fits d ⟨by decide, ofs.isLt⟩,
    rd_wr_apart d (by decide), rd_wr_apart d (by decide)⟩

namespace SlotEntered

variable {i ofs : Nat} {x : Cand} {a e : Dev} (h : SlotEntered i x ofs a e)
include h

theorem conds : candConds e i =
    outerConds a i + (if 128 ≤ candSrc a i ∧ x.act then 2 else 0) + (if x.ofs then 4 else 0) := by
  rw [candConds_eq, outerConds_beside h.frame, candSrc_beside h.frame, h.slot]

theorem wtrOf : rd e F.TIM_CAND_WTR i = rd a F.TIM_CAND_WTR i := rd_beside h.frame (by decide)

theorem was : rdB e F.TIM_CAND_STATUS_QUAL i = candQual a i := by rw [rdB, h.qual]; rfl

theorem actAfter {start : Bool} {sn : SN} {t : Dev} (hj : SlotJudged start sn i e t) : (candRec t i).act = x.act := by
  rw [hj.slot, ← h.slot]

theorem ofsAfter {start : Bool} {sn : SN} {t : Dev} (hj : SlotJudged start sn i e t) : (candRec t i).ofs = x.ofs := by
  rw [hj.slot, ← h.slot]

theorem okWinAfter {start : Bool} {sn : SN} {t : Dev} (hj : SlotJudged start sn i e t) : (candRec t i).okWin = x.okWin := by
  rw [hj.slot, ← h.slot]

/-- The events of the evaluation, as seen from before the change. -/
theorem raised {start : Bool} {sn : SN} {t : Dev} {es : List Ev} (hj : SlotJudged start sn i e t) (hes : qualEvents start sn e i = es) :
    Raised a t es := by
  have hhif : e.hif = a.hif := h.frame.parts .hif (by simp)
  have htwin : e.twin = a.twin := h.frame.parts .twin (by simp)
  exact hes ▸ hj.events.of_same (congrArg Hif.evq hhif) (congrArg Twin.role htwin) rfl

end SlotEntered

section
variable {s : State} {i : Fin 8} (hcore : s.dev.pwr.core = true) (hen : rdB s.dev F.TIM_CAND_EN i = true)
  (hsrc : candSrc s.dev i < 0x84) (hql : rd s.dev F.TIM_CAND_STATUS_QL i = candQl s.dev i)
include hcore hen hsrc hql

/-- A command that evaluates the slot after a change of its measurements. -/
theorem slot_actsR {c : Instr} {g : Dev → Dev} {start : Bool} {e : Dev} {x : Cand} {ofs : Nat} {p : State → Prop}
    (hexec : exec c s = core s g) (heq : g s.dev = candStep start s.sn e i) (he : SlotEntered i x ofs s.dev e)
    (hp : ∀ e t, SlotEntered i x ofs s.dev e → SlotJudged start s.sn i e t → p { s with dev := t }) :
    ActsR [F.TIM_CAND_STATUS_QUAL.addr i] [.tim, .hif] c s p := by
  have hlive : rdB e F.TIM_CAND_EN i = true ∧ candSrc e i < 0x84 := by
    rw [candSrc_beside he.frame, rdB, rd_beside he.frame (by decide)]
    exact ⟨hen, hsrc⟩
  have hjudged := candStep_judges start s.sn hlive (by rw [he.ql, hql, candQl_beside he.frame])
  exact (he.frame.mono.trans hjudged.frame).actsR (exec_of_core hexec hcore heq) (hp e _ he hjudged)

/-! #### Windows -/

theorem window_actsR {ofs : BitVec 24} {p : State → Prop} (hp : ∀ e t,
      SlotEntered i (windowed (disqPpm s.dev) (reqPpm s.dev) ofs.toInt.natAbs (candRec s.dev i)) ofs.toNat s.dev e →
      SlotJudged true s.sn i e t → p { s with dev := t }) :
    ActsR [F.TIM_CAND_STATUS_QUAL.addr i] [.tim, .hif] (.candidateWindow i ofs) s p :=
  slot_actsR hcore hen hsrc hql (g := candWindow i ofs s.sn) rfl (candWindow_eq hsrc ofs s.sn) (slotEntered_windowed s.dev i ofs) hp

variable {ofs : BitVec 24}

theorem window_disqualifies (hmag : 100 * disqPpm s.dev < ofs.toInt.natAbs) :
    ActsR [F.TIM_CAND_STATUS_QUAL.addr i] [.tim, .hif] (.candidateWindow i ofs) s fun t =>
      rd t.dev F.TIM_CAND_STATUS_OFS i = ofs.toNat ∧ (candRec t.dev i).ofs = true ∧ candQual t.dev i = false ∧
      rd t.dev F.TIM_CAND_STATUS_WTR_RUN i = 0 ∧
      (candQual s.dev i = true → candConds s.dev i = 0 →
        Raised s.dev t.dev [{ typ := 0x72, sn := s.sn, p0 := i.val, p1 := 1 + 16 * 3 }]) := by
  refine window_actsR hcore hen hsrc hql fun e t he hj => ?_
  rw [windowed, if_pos hmag] at he
  have hconds := he.conds
  simp only [if_true] at hconds
  obtain ⟨hfail, hwtr⟩ := hj.fails (by omega)
  refine ⟨hj.ofs.trans he.ofs, he.ofsAfter hj, hfail, hwtr, fun hwas hnone => ?_⟩
  have hfour : candConds e i = 4 := by
    rw [candConds_eq] at hnone
    omega
  refine he.raised hj ?_
  rw [qualEvents, he.was, hwas, hfour]
  rfl

theorem window_counts (hmag : ofs.toInt.natAbs ≤ 100 * reqPpm s.dev) (hofs : (candRec s.dev i).ofs = true)
    (hok : (candRec s.dev i).okWin < 2) : ActsR [F.TIM_CAND_STATUS_QUAL.addr i] [.tim, .hif] (.candidateWindow i ofs) s fun t =>
      rd t.dev F.TIM_CAND_STATUS_OFS i = ofs.toNat ∧ (candRec t.dev i).ofs = true ∧
      (candRec t.dev i).okWin = (candRec s.dev i).okWin + 1 ∧ candQual t.dev i = false := by
  refine window_actsR hcore hen hsrc hql fun e t he hj => ?_
  have hle := reqPpm_le s.dev
  rw [windowed, if_pos hmag, if_neg (by omega), if_neg (by omega), hofs] at he
  have hconds := he.conds
  simp only [if_true] at hconds
  exact ⟨hj.ofs.trans he.ofs, he.ofsAfter hj,
    he.okWinAfter hj, (hj.fails (by omega)).1⟩

theorem window_clears (hmag : ofs.toInt.natAbs ≤ 100 * reqPpm s.dev) (hofs : (candRec s.dev i).ofs = true)
    (hok : 2 ≤ (candRec s.dev i).okWin) (hconds : candConds s.dev i = 4) (hcond : (candRec s.dev i).cond = 4)
    (hwas : candQual s.dev i = false) : ActsR [F.TIM_CAND_STATUS_QUAL.addr i] [.tim, .hif] (.candidateWindow i ofs) s fun t =>
      (candRec t.dev i).ofs = false ∧
      (rd s.dev F.TIM_CAND_WTR i ≠ 0 → rd t.dev F.TIM_CAND_STATUS_WTR_RUN i = 1 ∧ candQual t.dev i = false ∧ Raised s.dev t.dev []) ∧
      (rd s.dev F.TIM_CAND_WTR i = 0 → (candRec s.dev i).wtr = false → rd t.dev F.TIM_CAND_STATUS_WTR_RUN i = 0 ∧
        candQual t.dev i = true ∧ Raised s.dev t.dev [{ typ := 0x72, sn := s.sn, p0 := i.val, p1 := 16 * 3 }]) := by
  refine window_actsR hcore hen hsrc hql fun e t he hj => ?_
  have hle := reqPpm_le s.dev
  rw [windowed, if_pos hmag, if_neg (by omega), if_pos ⟨hofs, by omega⟩] at he
  have hnone : candConds e i = 0 := by
    have hafter := he.conds
    rw [candConds_eq, hofs] at hconds
    simp only [Bool.false_eq_true, if_false, if_true] at hafter hconds
    omega
  have hwaits : candWaits true e i = ((candRec s.dev i).wtr || rd s.dev F.TIM_CAND_WTR i != 0) := by
    rw [candWaits, hnone, he.slot, he.wtrOf]
    dsimp only
    rw [hcond]
    rfl
  have hqual : qualifies true e i = !candWaits true e i := by rw [qualifies, hnone]; rfl
  have hlast : lastCond e i = 3 := by
    rw [lastCond, hnone, he.slot]
    dsimp only
    rw [hcond]
    rfl
  refine ⟨he.ofsAfter hj, fun hwtr => ?_, fun hwtr hrec => ?_⟩
  · have hruns : candWaits true e i = true := by rw [hwaits, bne_iff_ne.mpr hwtr, Bool.or_true]
    rw [hruns] at hqual
    refine ⟨hj.wtr.trans (congrArg Bool.toNat hruns), hj.qual.trans hqual, he.raised hj ?_⟩
    rw [qualEvents, he.was, hwas, hnone, hqual]
    rfl
  · have hruns : candWaits true e i = false := by rw [hwaits, hwtr, hrec]; rfl
    rw [hruns] at hqual
    refine ⟨hj.wtr.trans (congrArg Bool.toNat hruns), hj.qual.trans hqual, he.raised hj ?_⟩
    rw [qualEvents, he.was, hwas, hnone, hqual, hlast]
    rfl

theorem window_between (hlo : 100 * reqPpm s.dev < ofs.toInt.natAbs) (hhi : ofs.toInt.natAbs ≤ 100 * disqPpm s.dev) :
    ActsR [F.TIM_CAND_STATUS_QUAL.addr i] [.tim, .hif] (.candidateWindow i ofs) s fun t =>
      (candRec t.dev i).ofs = (candRec s.dev i).ofs ∧ (candRec t.dev i).okWin = 0 := by
  refine window_actsR hcore hen hsrc hql fun e t he hj => ?_
  rw [windowed, if_neg (show ¬ ofs.toInt.natAbs ≤ 100 * reqPpm s.dev by omega),
    if_neg (show ¬ 100 * disqPpm s.dev < ofs.toInt.natAbs by omega), if_neg (by omega), ite_self] at he
  exact ⟨he.ofsAfter hj, he.okWinAfter hj⟩

/-! #### The end of wait-to-restore, and REFIN -/

theorem wtrEnd_qualifies (hwtr : (candRec s.dev i).wtr = true) (hconds : candConds s.dev i = 0) (hcond : (candRec s.dev i).cond = 0)
    (hwas : candQual s.dev i = false) : ActsR [F.TIM_CAND_STATUS_QUAL.addr i] [.tim, .hif] (.candidateWtr i) s fun t =>
      candQual t.dev i = true ∧ rd t.dev F.TIM_CAND_STATUS_WTR_RUN i = 0 ∧
      Raised s.dev t.dev [{ typ := 0x72, sn := s.sn, p0 := i.val, p1 := 16 * (candRec s.dev i).last }] := by
  refine slot_actsR hcore hen hsrc hql (g := candWtrEnd i s.sn) rfl (if_pos hwtr)
    (slotEntered_modCand s.dev i fun x => { x with wtr := false }) fun e t he hj => ?_
  have hnone : candConds e i = 0 := by
    rw [he.conds]
    rwa [candConds_eq] at hconds
  have hruns : candWaits false e i = false := by
    rw [candWaits, he.slot]
    simp
  have hqual : qualifies false e i = true := by rw [qualifies, hnone, hruns]; rfl
  have hlast : lastCond e i = (candRec s.dev i).last := by
    rw [lastCond, he.slot]
    exact if_neg fun h => h.2 hcond
  refine ⟨hj.qual.trans hqual, hj.wtr.trans (congrArg Bool.toNat hruns), he.raised hj ?_⟩
  rw [qualEvents, he.was, hwas, hnone, hqual, hlast]
  rfl

theorem noActivity_disqualifies (hrefin : 128 ≤ candSrc s.dev i) (hconds : candConds s.dev i = 0) (hwas : candQual s.dev i = true) :
    ActsR [F.TIM_CAND_STATUS_QUAL.addr i] [.tim, .hif] (.noActivity i false) s fun t =>
      (candRec t.dev i).act = true ∧ candQual t.dev i = false ∧
      Raised s.dev t.dev [{ typ := 0x72, sn := s.sn, p0 := i.val, p1 := 1 + 16 * 2 }] := by
  refine slot_actsR hcore hen hsrc hql (g := noActivity i false s.sn) rfl (if_neg (by simp [candValid]; omega))
    (slotEntered_modCand s.dev i fun x => { x with act := true }) fun e t he hj => ?_
  have htwo : candConds e i = 2 := by
    have hafter := he.conds
    rw [candConds_eq] at hconds
    simp only [hrefin, and_self, if_true] at hafter
    omega
  refine ⟨he.actAfter hj, (hj.fails (by omega)).1, he.raised hj ?_⟩
  rw [qualEvents, he.was, hwas, htwo]
  rfl

theorem edge_waits (hrefin : 128 ≤ candSrc s.dev i) (hconds : candConds s.dev i = 2) (hcond : (candRec s.dev i).cond = 2)
    (hwtr : rd s.dev F.TIM_CAND_WTR i ≠ 0) : ActsR [F.TIM_CAND_STATUS_QUAL.addr i] [.tim, .hif] (.noActivity i true) s fun t =>
      (candRec t.dev i).act = false ∧ candQual t.dev i = false ∧ rd t.dev F.TIM_CAND_STATUS_WTR_RUN i = 1 := by
  refine slot_actsR hcore hen hsrc hql (g := noActivity i true s.sn) rfl (if_neg (by simp [candValid]; omega))
    (slotEntered_modCand s.dev i fun x => { x with act := false }) fun e t he hj => ?_
  have hnone : candConds e i = 0 := by
    have hafter := he.conds
    rw [candConds_eq] at hconds
    have houter := outerConds_mod s.dev i
    simp only [Bool.false_eq_true, and_false, if_false] at hafter
    have hofs : (if (candRec s.dev i).ofs = true then 4 else 0) % 4 = 0 := by split <;> rfl
    split at hconds <;> omega
  have hruns : candWaits true e i = true := by
    rw [candWaits, hnone, he.slot, he.wtrOf]
    dsimp only
    rw [hcond, bne_iff_ne.mpr hwtr]
    simp
  refine ⟨he.actAfter hj, ?_, hj.wtr.trans (congrArg Bool.toNat hruns)⟩
  rw [hj.qual, qualifies, hruns, Bool.not_true, Bool.and_false]

end

/-- Settles O45: each command by the record that it leaves and the evaluation of it. -/
theorem candidatesQualify : Obligations.CandidatesQualify := by
  intro s i hcore hen hsrc hql
  refine ⟨fun ofs => ⟨window_disqualifies hcore hen hsrc hql, window_counts hcore hen hsrc hql, window_clears hcore hen hsrc hql,
    window_between hcore hen hsrc hql⟩, wtrEnd_qualifies hcore hen hsrc hql, fun hwtr => ?_, fun hrefin =>
    ⟨noActivity_disqualifies hcore hen hsrc hql hrefin, fun hconds hcond _ => edge_waits hcore hen hsrc hql hrefin hconds hcond⟩, fun hlane e => ?_⟩
  · exact exec_of_core_self (g := candWtrEnd i s.sn) rfl (if_neg (by rw [hwtr]; decide))
  · exact exec_of_core_self (g := noActivity i e s.sn) rfl (if_pos (.inl hlane))

end Sys2Proof.Machine
end

