-- ==== Sys2Proof/Proofs/Holdover.lean ====
section
/-! PROOFS. Reference selection, the DPLL and holdover (R408 to R414). -/

namespace Sys2Proof.Machine

-- In order: a default argument `by simp` waits for every declaration before it, and many that wait take many threads.
set_option Elab.async false

/-! ### The best candidate (R408) -/

/-- A qualified slot. -/
def Qualified (d : Dev) (i : Nat) : Prop := i < 8 ∧ candQual d i = true

/-- Slot `b` comes before slot `j`: by rank, priority, number. -/
def Precedence (d : Dev) (b j : Nat) : Prop :=
  (candKey d b).1 < (candKey d j).1 ∨ ((candKey d b).1 = (candKey d j).1 ∧
    ((candKey d b).2 < (candKey d j).2 ∨ ((candKey d b).2 = (candKey d j).2 ∧ b < j)))

theorem Precedence.asymm {d : Dev} {b j : Nat} (h : Precedence d b j) : ¬ Precedence d j b := by
  unfold Precedence at *
  omega

/-- The step of the search for the best candidate. -/
def betterOf (d : Dev) (b : Option Nat) (i : Nat) : Option Nat :=
  if !candQual d i then b else match b with
    | none => some i
    | some j => if (candKey d i).1 < (candKey d j).1 ∨ ((candKey d i).1 = (candKey d j).1 ∧ (candKey d i).2 < (candKey d j).2) then some i else b

/-- `b` is the best of the qualified slots below `n`. -/
def BestBelow (d : Dev) (n : Nat) (b : Option Nat) : Prop :=
  match b with
  | none => ∀ j < n, candQual d j = false
  | some b => (b < n ∧ candQual d b = true) ∧ ∀ j < n, candQual d j = true → j ≠ b → Precedence d b j

theorem bestBelow_succ {d : Dev} {n : Nat} {b : Option Nat} (h : BestBelow d n b) : BestBelow d (n + 1) (betterOf d b n) := by
  unfold betterOf
  cases hq : candQual d n with
  | false =>
    rw [if_pos (by rfl)]
    cases b with
    | none =>
      intro j hj
      rcases Nat.lt_succ_iff_lt_or_eq.mp hj with hj | rfl
      · exact h j hj
      · exact hq
    | some b =>
      obtain ⟨⟨hb, hqb⟩, hbest⟩ := h
      refine ⟨⟨by omega, hqb⟩, fun j hj hqj hne => ?_⟩
      rcases Nat.lt_succ_iff_lt_or_eq.mp hj with hj | rfl
      · exact hbest j hj hqj hne
      · rw [hq] at hqj
        exact absurd hqj (by decide)
  | true =>
    rw [if_neg (by decide)]
    cases b with
    | none =>
      refine ⟨⟨by omega, hq⟩, fun j hj hqj hne => ?_⟩
      rw [h j (by omega)] at hqj
      exact absurd hqj (by decide)
    | some b =>
      obtain ⟨⟨hb, hqb⟩, hbest⟩ := h
      dsimp only
      split
      case isTrue hbetter =>
        refine ⟨⟨by omega, hq⟩, fun j hj hqj hne => ?_⟩
        have hnb : Precedence d n b := by unfold Precedence; omega
        by_cases hjb : j = b
        · exact hjb ▸ hnb
        · have hbj := hbest j (by omega) hqj hjb
          unfold Precedence at *
          omega
      case isFalse hworse =>
        refine ⟨⟨by omega, hqb⟩, fun j hj hqj hne => ?_⟩
        rcases Nat.lt_succ_iff_lt_or_eq.mp hj with hj | rfl
        · exact hbest j hj hqj hne
        · unfold Precedence
          omega

theorem bestBelow_candBest (d : Dev) : BestBelow d 8 (candBest d) := by
  have hall : ∀ n, BestBelow d n ((List.range n).foldl (betterOf d) none) := by
    intro n
    induction n with
    | zero => exact fun j hj => absurd hj (by omega)
    | succ n ih =>
      rw [List.range_succ, List.foldl_append]
      exact bestBelow_succ ih
  exact hall 8

theorem candBest_of_none {d : Dev} (h : ∀ i, ¬ Qualified d i) : candBest d = none := by
  have hbest := bestBelow_candBest d
  cases hb : candBest d with
  | none => rfl
  | some b =>
    rw [hb] at hbest
    exact absurd hbest.1 (h b)

theorem candBest_of_best {d : Dev} {b : Nat} (hb : Qualified d b) (h : ∀ j, Qualified d j → j ≠ b → Precedence d b j) :
    candBest d = some b := by
  have hbest := bestBelow_candBest d
  cases hr : candBest d with
  | none =>
    rw [hr] at hbest
    exact absurd (hbest b hb.1) (by rw [hb.2]; decide)
  | some j =>
    rw [hr] at hbest
    obtain ⟨hj, hfirst⟩ := hbest
    by_cases hjb : j = b
    · rw [hjb]
    · exact absurd (hfirst b hb.1 hb.2 (Ne.symm hjb)) (h j hj hjb).asymm

@[simp] theorem addr_timHoValid : F.TIM_STATUS_HO_VALID.addr 0 = timWord := rfl

/-! ### TIM_STATUS follows the selection (R410, R411, R414) -/

theorem qlOut_frame {a b : Dev} (h : Within [timWord] [.regs, .hif] a b) : qlOut b = qlOut a := by
  have htim : b.tim = a.tim := h.parts .tim (by simp)
  have hql (i : Nat) : rd b F.TIM_CAND_STATUS_QL i = rd a F.TIM_CAND_STATUS_QL i :=
    h.rd fun hmem => Fld.addr_ne (f := F.TIM_CAND_STATUS_QL) (g := F.TIM_STATUS_SEL) (by decide) i 0 (List.mem_singleton.mp hmem)
  have hown : rd b F.TIM_CFG_OWN_QL = rd a F.TIM_CFG_OWN_QL := h.rd (by decide)
  have hgood : xoGood b = xoGood a := by rw [xoGood, xoGood, h.rdB (by decide), h.rdB (by decide)]
  unfold qlOut
  rw [hgood, htim, hown, hql]

section
variable {d : Dev} (hgood : xoGood d = true)
include hgood

theorem qlOut_freerun (h : d.tim.st = 0) : qlOut d = rd d F.TIM_CFG_OWN_QL := by
  rw [qlOut, if_neg (by rw [hgood]; decide), h]
  rfl

theorem qlOut_acquire (h : d.tim.st = 1) : qlOut d = rd d F.TIM_CAND_STATUS_QL d.tim.sel := by
  rw [qlOut, if_neg (by rw [hgood]; decide), h]
  rfl

theorem qlOut_holdover (h : d.tim.st = 3) : qlOut d = if d.tim.hoDone then rd d F.TIM_CFG_OWN_QL else d.tim.lastQl := by
  rw [qlOut, if_neg (by rw [hgood]; decide), h]
  rfl

end

/-- A change of the selection, and of the state. -/
abbrev selEvent (sn : SN) (old sel ql : Nat) : Ev := { typ := 0x70, sn := sn, p0 := old, p1 := sel, p2 := if sel < 8 then ql else 0xF }
abbrev stateEvent (sn : SN) (ost st ql : Nat) : Ev := { typ := 0x71, sn := sn, p0 := ost, p1 := st, p2 := ql }

/-- The events of a change of TIM_STATUS. -/
def dpllEvents (sn : SN) (old sel ost st ql qlNow : Nat) : List Ev :=
  (if old ≠ sel then [selEvent sn old sel ql] else []) ++ (if ost ≠ st then [stateEvent sn ost st qlNow] else [])

theorem dpllShow_raises (sn : SN) (d : Dev) : Raised d (dpllShow sn d)
    (dpllEvents sn (rd d F.TIM_STATUS_SEL) d.tim.sel (rd d F.TIM_STATUS_STATE) d.tim.st (rd d F.TIM_CAND_STATUS_QL d.tim.sel) (qlOut d)) := by
  have hword := within_dpllWord d d.tim.sel d.tim.st
  have hwide : Within [timWord] [.regs, .hif] d (dpllWord d d.tim.sel d.tim.st) := hword.mono
  have hql : rd (dpllWord d d.tim.sel d.tim.st) F.TIM_CAND_STATUS_QL d.tim.sel = rd d F.TIM_CAND_STATUS_QL d.tim.sel :=
    hword.rd fun hmem => Fld.addr_ne (f := F.TIM_CAND_STATUS_QL) (g := F.TIM_STATUS_SEL) (by decide) _ 0 (List.mem_singleton.mp hmem)
  have hout := qlOut_frame hwide
  have heq : dpllShow sn d =
      let w := dpllWord d d.tim.sel d.tim.st
      let e := selEvent sn (rd d F.TIM_STATUS_SEL) d.tim.sel (rd w F.TIM_CAND_STATUS_QL d.tim.sel)
      let w' := if rd d F.TIM_STATUS_SEL ≠ d.tim.sel then raise w e else w
      if rd d F.TIM_STATUS_STATE ≠ d.tim.st then raise w' (stateEvent sn (rd d F.TIM_STATUS_STATE) d.tim.st (qlOut w')) else w' := rfl
  have hevq : (dpllWord d d.tim.sel d.tim.st).hif.evq = d.hif.evq := rfl
  have hrole : (dpllWord d d.tim.sel d.tim.st).twin = d.twin := rfl
  rw [heq]
  dsimp only
  rw [hql]
  generalize dpllWord d d.tim.sel d.tim.st = w at *
  unfold dpllEvents Raised
  by_cases hsel : rd d F.TIM_STATUS_SEL ≠ d.tim.sel
  · rw [if_pos hsel, if_pos hsel]
    have hraised : qlOut (raise w (selEvent sn (rd d F.TIM_STATUS_SEL) d.tim.sel (rd d F.TIM_CAND_STATUS_QL d.tim.sel))) = qlOut d :=
      (qlOut_frame ((Within.refl [timWord] [.regs, .hif] w).raise)).trans hout
    by_cases hst : rd d F.TIM_STATUS_STATE ≠ d.tim.st
    · rw [if_pos hst, if_pos hst, hraised]
      simp [raise, hevq, hrole]
    · rw [if_neg hst, if_neg hst]
      simp [raise, hevq, hrole]
  · rw [if_neg hsel, if_neg hsel]
    by_cases hst : rd d F.TIM_STATUS_STATE ≠ d.tim.st
    · rw [if_pos hst, if_pos hst, hout]
      simp [raise, hevq, hrole]
    · rw [if_neg hst, if_neg hst]
      simp [hevq]

section
variable (sn : SN) (d : Dev) (sel st : Nat)

/-- The own QL, or the one that holdover keeps. -/
theorem dpllOwn_tim : (dpllOwn sn d sel st).tim.hoDone =
      (if st = 3 ∧ d.tim.st ≠ 3 then decide (rd d F.TIM_HO_SPEC = 0) else st == 3 && d.tim.hoDone) ∧
    (d.tim.sel < 8 → (dpllOwn sn d sel st).tim.lastQl = rd d F.TIM_CAND_STATUS_QL d.tim.sel) :=
  ⟨rfl, fun h => if_pos h⟩

theorem rdB_dpllOwn_spec : rdB (dpllOwn sn d sel st) F.TIM_STATUS_HO_SPEC_RUN =
    (if st = 3 ∧ d.tim.st ≠ 3 then decide (rd d F.TIM_HO_SPEC ≠ 0) else st == 3 && rdB d F.TIM_STATUS_HO_SPEC_RUN) :=
  rdB_wrB_bit (by decide)

end

/-- What the reference selection leads to. -/
def Goes (s : State) (sel st : Nat) : Prop :=
  ActsR [timWord] [.tim, .hif] .referenceSelection s fun t =>
    t.dev.tim.sel = sel ∧ t.dev.tim.st = st ∧ rd t.dev F.TIM_STATUS_SEL = sel ∧ rd t.dev F.TIM_STATUS_STATE = st ∧
    (st = 3 → s.dev.tim.st ≠ 3 → (rdB t.dev F.TIM_STATUS_HO_SPEC_RUN = true ↔ rd s.dev F.TIM_HO_SPEC ≠ 0) ∧
      (s.dev.tim.sel < 8 → qlOut t.dev =
        if rd s.dev F.TIM_HO_SPEC = 0 then rd s.dev F.TIM_CFG_OWN_QL else rd s.dev F.TIM_CAND_STATUS_QL s.dev.tim.sel)) ∧
    (st ≠ 3 → rd t.dev F.TIM_STATUS_HO_SPEC_RUN = 0) ∧
    (st = 1 → sel < 8 → qlOut t.dev = rd s.dev F.TIM_CAND_STATUS_QL sel) ∧
    (st = 0 → qlOut t.dev = rd s.dev F.TIM_CFG_OWN_QL) ∧
    Raised s.dev t.dev (dpllEvents s.sn s.dev.tim.sel sel s.dev.tim.st st (rd s.dev F.TIM_CAND_STATUS_QL sel) (qlOut t.dev))

section
variable {s : State} (hcore : s.dev.pwr.core = true) (hgood : xoGood s.dev = true) (hsel : rd s.dev F.TIM_STATUS_SEL = s.dev.tim.sel)
  (hst : rd s.dev F.TIM_STATUS_STATE = s.dev.tim.st)
include hcore hgood hsel hst

theorem goes_of {sel st : Nat} (heq : refSelect s.sn s.dev = dpllShow s.sn (dpllOwn s.sn s.dev sel st)) (hselLt : sel < 16)
    (hstLt : st < 4) : Goes s sel st := by
  obtain ⟨hdone, hlast⟩ := dpllOwn_tim s.sn s.dev sel st
  have hspec := rdB_dpllOwn_spec s.sn s.dev sel st
  have hown := within_dpllOwn s.sn s.dev sel st
  have hshow := within_dpllShow s.sn (dpllOwn s.sn s.dev sel st)
  have hraise := dpllShow_raises s.sn (dpllOwn s.sn s.dev sel st)
  have hselShown : rd (dpllShow s.sn (dpllOwn s.sn s.dev sel st)) F.TIM_STATUS_SEL = sel := by
    rw [rd_dpllShow]
    exact rd_dpllWord_sel _ hselLt
  have hstShown : rd (dpllShow s.sn (dpllOwn s.sn s.dev sel st)) F.TIM_STATUS_STATE = st := by
    rw [rd_dpllShow]
    exact rd_dpllWord_st _ hstLt
  have hrunShown : rd (dpllShow s.sn (dpllOwn s.sn s.dev sel st)) F.TIM_STATUS_HO_SPEC_RUN =
      rd (dpllOwn s.sn s.dev sel st) F.TIM_STATUS_HO_SPEC_RUN := by
    rw [rd_dpllShow, dpllWord, rd_wr_apart _ (by decide), rd_wr_apart _ (by decide)]
  have hselOwn : rd (dpllOwn s.sn s.dev sel st) F.TIM_STATUS_SEL = s.dev.tim.sel := by
    rw [← hsel]
    exact rd_wrB_apart _ (by decide)
  have hstOwn : rd (dpllOwn s.sn s.dev sel st) F.TIM_STATUS_STATE = s.dev.tim.st := by
    rw [← hst]
    exact rd_wrB_apart _ (by decide)
  have hql (i : Nat) : rd (dpllOwn s.sn s.dev sel st) F.TIM_CAND_STATUS_QL i = rd s.dev F.TIM_CAND_STATUS_QL i :=
    hown.rd fun hmem => Fld.addr_ne (f := F.TIM_CAND_STATUS_QL) (g := F.TIM_STATUS_SEL) (by decide) i 0 (List.mem_singleton.mp hmem)
  have hownQl : rd (dpllOwn s.sn s.dev sel st) F.TIM_CFG_OWN_QL = rd s.dev F.TIM_CFG_OWN_QL := hown.rd (by decide)
  have hgood' : xoGood (dpllOwn s.sn s.dev sel st) = true := by
    rw [← hgood, xoGood, xoGood, hown.rdB (by decide), hown.rdB (by decide)]
  have hmsel := dpllOwn_sel s.sn s.dev sel st
  have hmst := dpllOwn_st s.sn s.dev sel st
  have hhif := dpllOwn_hif s.sn s.dev sel st
  have htwin : (dpllOwn s.sn s.dev sel st).twin = s.dev.twin := hown.parts .twin (by simp)
  have hframe : Within [timWord] [.regs, .tim, .hif] s.dev (dpllShow s.sn (dpllOwn s.sn s.dev sel st)) := hown.mono.next hshow
  have hexec := exec_of_core (c := .referenceSelection) (g := refSelect s.sn) rfl hcore heq
  generalize dpllOwn s.sn s.dev sel st = m at *
  have hout : qlOut (dpllShow s.sn m) = qlOut m := qlOut_frame hshow
  have htim : (dpllShow s.sn m).tim = m.tim := hshow.parts .tim (by simp)
  rw [hmsel, hmst, hselOwn, hstOwn, hql, ← hout] at hraise
  generalize dpllShow s.sn m = t at *
  refine hframe.actsR hexec ⟨?_, ?_, hselShown, hstShown, fun h3 hne => ⟨?_, fun h8 => ?_⟩, fun hne => ?_, fun h1 h8 => ?_, fun h0 => ?_, ?_⟩
  · rw [htim, hmsel]
  · rw [htim, hmst]
  · rw [rdB, hrunShown, ← rdB, hspec, if_pos ⟨h3, hne⟩, decide_eq_true_eq]
  · refine (hout.trans (qlOut_holdover hgood' (hmst.trans h3))).trans ?_
    rw [hdone, hlast h8, hownQl, if_pos (show st = 3 ∧ s.dev.tim.st ≠ 3 from ⟨h3, hne⟩)]
    simp only [decide_eq_true_eq]
  · rw [if_neg fun h => hne h.1, beq_eq_false_iff_ne.mpr hne, Bool.false_and] at hspec
    dsimp only
    rw [hrunShown]
    simpa [rdB] using hspec
  · rw [← hql, ← hmsel]
    exact hout.trans (qlOut_acquire hgood' (hmst.trans h1))
  · rw [← hownQl]
    exact hout.trans (qlOut_freerun hgood' (hmst.trans h0))
  · exact hraise.of_same (congrArg Hif.evq hhif) (congrArg Twin.role htwin) rfl

/-! ### The branches of the selection -/

/-- HOLDOVER where the history is valid, or FREERUN. -/
def heldState (d : Dev) : Nat := if rdB d F.TIM_STATUS_HO_VALID then 3 else 0

/-- The state with slot `sel` selected. -/
def keepState (d : Dev) (sel : Nat) : Nat := if sel = d.tim.sel ∧ (d.tim.st = 1 ∨ d.tim.st = 2) then d.tim.st else 1

/-- The state without a reference. -/
def lostState (d : Dev) : Nat := if d.tim.st = 1 ∨ d.tim.st = 2 then heldState d else d.tim.st

omit hcore hgood hsel hst in
theorem heldState_lt : heldState s.dev < 4 := by
  unfold heldState
  split <;> decide

omit hcore hgood hsel in
theorem lostState_lt : lostState s.dev < 4 := by
  unfold lostState
  have hlt := rd_lt s.dev F.TIM_STATUS_STATE 0
  split
  · exact heldState_lt
  · exact hst ▸ hlt

omit hcore hgood hsel hst in
theorem keepState_lt (sel : Nat) : keepState s.dev sel < 4 := by
  unfold keepState
  split <;> omega

variable (hlink : linked s.dev = false)
include hlink

omit hcore hgood hsel hst in
theorem dpllMove_eq (sel st : Nat) : dpllMove s.sn s.dev sel st = dpllShow s.sn (dpllOwn s.sn s.dev sel st) :=
  if_neg (by rw [hlink]; decide)

omit hcore hsel hst hlink in
theorem refSelect_eq : refSelect s.sn s.dev = match rd s.dev F.TIM_CFG_MODE with
    | 1 => dpllMove s.sn s.dev 0xF 0
    | 2 => dpllMove s.sn s.dev 0xF (heldState s.dev)
    | _ => if candSelect s.dev < 8 then dpllMove s.sn s.dev (candSelect s.dev) (keepState s.dev (candSelect s.dev))
      else dpllMove s.sn s.dev 0xF (lostState s.dev) := by
  rw [refSelect, if_neg (by rw [hgood]; decide)]
  rfl

theorem goes_freerun (hmode : rd s.dev F.TIM_CFG_MODE = 1) : Goes s 0xF 0 := by
  have heq := refSelect_eq hgood
  rw [hmode] at heq
  exact goes_of hcore hgood hsel hst (heq.trans (dpllMove_eq hlink _ _)) (by decide) (by decide)

theorem goes_held (hmode : rd s.dev F.TIM_CFG_MODE = 2) : Goes s 0xF (heldState s.dev) := by
  have heq := refSelect_eq hgood
  rw [hmode] at heq
  exact goes_of hcore hgood hsel hst (heq.trans (dpllMove_eq hlink _ _)) (by decide) heldState_lt

theorem goes_selected (hmode : rd s.dev F.TIM_CFG_MODE = 0 ∨ rd s.dev F.TIM_CFG_MODE = 3) {i : Nat} (hi : i < 8)
    (hselect : candSelect s.dev = i) : Goes s i (keepState s.dev i) := by
  have heq := refSelect_eq hgood
  rw [hselect] at heq
  have heq' : refSelect s.sn s.dev = dpllMove s.sn s.dev i (keepState s.dev i) := by
    rcases hmode with h | h <;> rw [h] at heq <;> exact heq.trans (if_pos hi)
  exact goes_of hcore hgood hsel hst (heq'.trans (dpllMove_eq hlink _ _)) (by omega) (keepState_lt i)

theorem goes_none (hmode : rd s.dev F.TIM_CFG_MODE = 0 ∨ rd s.dev F.TIM_CFG_MODE = 3) (hselect : candSelect s.dev = 0xF) :
    Goes s 0xF (lostState s.dev) := by
  have heq := refSelect_eq hgood
  rw [hselect] at heq
  have heq' : refSelect s.sn s.dev = dpllMove s.sn s.dev 0xF (lostState s.dev) := by
    rcases hmode with h | h <;> rw [h] at heq <;> exact heq.trans (if_neg (by decide))
  exact goes_of hcore hgood hsel hst (heq'.trans (dpllMove_eq hlink _ _)) (by decide) (lostState_lt hst)

end

/-! ### The slot that is selected (R408) -/

section
variable {d : Dev}

theorem candSelect_force (hforce : rd d F.TIM_CFG_FORCE < 8) :
    candSelect d = if candQual d (rd d F.TIM_CFG_FORCE) then rd d F.TIM_CFG_FORCE else 0xF := if_pos hforce

section
variable (hfree : 8 ≤ rd d F.TIM_CFG_FORCE)
include hfree

theorem candSelect_none (hnone : ∀ i, ¬ Qualified d i) : candSelect d = 0xF := by
  rw [candSelect, if_neg (by omega), candBest_of_none hnone]

/-- The best candidate `b` replaces the slot selected. -/
def Replaces (d : Dev) (b : Nat) : Prop :=
  (candKey d b).1 < (candKey d d.tim.sel).1 ∨
    (rdB d F.TIM_CFG_REVERT = true ∧ (candKey d b).1 = (candKey d d.tim.sel).1 ∧ (candKey d b).2 < (candKey d d.tim.sel).2)

variable {b : Nat} (hbest : candBest d = some b)
include hbest

theorem candSelect_best : candSelect d = if 8 ≤ d.tim.sel ∨ !candQual d d.tim.sel then b else
    if (candKey d b).1 < (candKey d d.tim.sel).1 ∨ (rdB d F.TIM_CFG_REVERT ∧ (candKey d b).1 = (candKey d d.tim.sel).1 ∧
      (candKey d b).2 < (candKey d d.tim.sel).2) then b else d.tim.sel := by
  rw [candSelect, if_neg (by omega), hbest]

theorem candSelect_unqualified (hold : ¬ Qualified d d.tim.sel) : candSelect d = b := by
  refine (candSelect_best hfree hbest).trans (if_pos ?_)
  by_cases h8 : 8 ≤ d.tim.sel
  · exact .inl h8
  · exact .inr (by simpa [Qualified, show d.tim.sel < 8 by omega] using hold)

theorem candSelect_replaces (hold : Qualified d d.tim.sel) (h : Replaces d b) : candSelect d = b := by
  refine (candSelect_best hfree hbest).trans ((if_neg ?_).trans (if_pos h))
  obtain ⟨h8, hq⟩ := hold
  simp [hq, h8]

theorem candSelect_keeps (hold : Qualified d d.tim.sel) (h : ¬ Replaces d b) : candSelect d = d.tim.sel := by
  refine (candSelect_best hfree hbest).trans ((if_neg ?_).trans (if_neg h))
  obtain ⟨h8, hq⟩ := hold
  simp [hq, h8]

end

end

/-! ### The lock of the DPLL, the history and the specification timer (R411, R413, R414) -/

/-- The DPLL locks: its history begins anew. -/
def dpllLocked (d : Dev) : Dev :=
  { wrB (wr d F.TIM_STATUS_STATE 0 2) F.TIM_STATUS_HO_VALID 0 false with tim := { d.tim with st := 2 } }

theorem dpllLocked_spec (d : Dev) : Within [timWord] [.regs, .tim, .hif] d (dpllLocked d) ∧ rd (dpllLocked d) F.TIM_STATUS_STATE = 2 ∧
    rd (dpllLocked d) F.TIM_STATUS_HO_VALID = 0 ∧ (dpllLocked d).tim = { d.tim with st := 2 } ∧ (dpllLocked d).hif = d.hif ∧
    (dpllLocked d).twin = d.twin :=
  ⟨(Within.refl _ _ d).wr.wrB.only (only_tim _ _), (rd_wrB_apart _ (by decide)).trans (rd_wr_fits d (by decide)),
    rd_wrB_bit (f := F.TIM_STATUS_HO_VALID) (wr d F.TIM_STATUS_STATE 0 2) (by decide) false, rfl, rfl, rfl⟩

section
variable {s : State} (hcore : s.dev.pwr.core = true)
include hcore

theorem dpllLock_locks (hgood : xoGood s.dev = true) (hlink : linked s.dev = false) (hst : rd s.dev F.TIM_STATUS_STATE = s.dev.tim.st)
    (hacq : s.dev.tim.st = 1) : ActsR [timWord] [.tim, .hif] .dpllLock s fun t =>
      rd t.dev F.TIM_STATUS_STATE = 2 ∧ rd t.dev F.TIM_STATUS_HO_VALID = 0 ∧ t.dev.tim = { s.dev.tim with st := 2 } ∧
      Raised s.dev t.dev [{ typ := 0x71, sn := s.sn, p0 := 1, p1 := 2, p2 := qlOut t.dev }] := by
  obtain ⟨hframe, hstate, hvalid, htim, hhif, htwin⟩ := dpllLocked_spec s.dev
  have heq : dpllLock s.sn s.dev = raise (dpllLocked s.dev) (stateEvent s.sn 1 2 (qlOut (dpllLocked s.dev))) := by
    have hgo : ¬ (rd s.dev F.TIM_STATUS_STATE ≠ 1 ∨ (!xoGood s.dev) = true) := by
      rw [hst, hacq, hgood]
      decide
    have hlinkw : linked (wrB (wr s.dev F.TIM_STATUS_STATE 0 2) F.TIM_STATUS_HO_VALID 0 false) = false := by
      have hword : Within [timWord] [.regs] s.dev (wrB (wr s.dev F.TIM_STATUS_STATE 0 2) F.TIM_STATUS_HO_VALID 0 false) :=
        (Within.refl _ _ s.dev).wr.wrB
      exact (show linked _ = linked s.dev by rw [linked, linked, hword.parts .twin (by simp), hword.rdB (by decide)]).trans hlink
    unfold dpllLock
    rw [if_neg hgo]
    dsimp only
    rw [hlinkw]
    rfl
  generalize dpllLocked s.dev = e at *
  have hout : qlOut (raise e (stateEvent s.sn 1 2 (qlOut e))) = qlOut e := qlOut_frame ((Within.refl [timWord] [.regs, .hif] e).raise)
  refine hframe.raise.actsR (exec_of_core (g := dpllLock s.sn) rfl hcore heq) ⟨hstate, hvalid, htim, ?_⟩
  dsimp only
  rw [hout]
  exact (raised_raise e _).of_same (congrArg Hif.evq hhif) (congrArg Twin.role htwin) rfl

theorem hoValid_shows (hst : rd s.dev F.TIM_STATUS_STATE = s.dev.tim.st) :
    (s.dev.tim.st = 2 → ActsR [timWord] [] .holdoverHistoryValid s fun t => rd t.dev F.TIM_STATUS_HO_VALID = 1) ∧
    (s.dev.tim.st ≠ 2 → exec .holdoverHistoryValid s = .next s) := by
  constructor
  · intro hlocked
    exact (Within.refl _ _ s.dev).wrB.actsR (exec_of_core (g := hoValid) rfl hcore (if_pos (hst.trans hlocked))) (rd_wrB_bit _ (by decide) true)
  · intro hother
    exact exec_of_core_self (g := hoValid) rfl (if_neg (hst ▸ hother))

/-- The specification timer's end. -/
theorem hoExpired_ends (hgood : xoGood s.dev = true) (hruns : rdB s.dev F.TIM_STATUS_HO_SPEC_RUN = true) :
    ActsR [timWord] [.tim, .hif] .timHoExpired s fun t =>
      rd t.dev F.TIM_STATUS_HO_SPEC_RUN = 0 ∧ (s.dev.tim.st = 3 → qlOut t.dev = rd s.dev F.TIM_CFG_OWN_QL) ∧
      Raised s.dev t.dev [{ typ := 0x74, sn := s.sn }] := by
  obtain ⟨e, he⟩ : ∃ e : Dev, e = wrB { s.dev with tim := { s.dev.tim with hoDone := true } } F.TIM_STATUS_HO_SPEC_RUN 0 false := ⟨_, rfl⟩
  have heq : hoExpired s.sn s.dev = raise e { typ := 0x74, sn := s.sn } := he ▸ if_pos hruns
  have hframe : Within [timWord] [.regs, .tim] s.dev e := he ▸ ((Within.refl _ _ s.dev).only (only_tim _ _)).wrB
  have hrun : rd e F.TIM_STATUS_HO_SPEC_RUN = 0 := he ▸ rd_wrB_bit _ (by decide) false
  have htim : e.tim = { s.dev.tim with hoDone := true } := by rw [he]; rfl
  have hhif : e.hif = s.dev.hif := hframe.parts .hif (by simp)
  have htwin : e.twin = s.dev.twin := hframe.parts .twin (by simp)
  have hgood' : xoGood e = true := by
    rw [← hgood, xoGood, xoGood, hframe.rdB (by decide), hframe.rdB (by decide)]
  have hwide : Within [timWord] [.regs, .tim, .hif] s.dev e := hframe.mono
  refine hwide.raise.actsR (exec_of_core (g := hoExpired s.sn) rfl hcore heq) ⟨hrun, fun h3 => ?_, ?_⟩
  · have hout : qlOut (raise e { typ := 0x74, sn := s.sn }) = qlOut e := qlOut_frame ((Within.refl [timWord] [.regs, .hif] e).raise)
    refine (hout.trans (qlOut_holdover hgood' (by rw [htim]; exact h3))).trans ((if_pos (by rw [htim])).trans ?_)
    exact hframe.rd (by decide)
  · exact (raised_raise e _).of_same (congrArg Hif.evq hhif) (congrArg Twin.role htwin) rfl

/-- The end of a timer that was left as it ran out. -/
theorem hoExpired_left (hruns : rdB s.dev F.TIM_STATUS_HO_SPEC_RUN = false) (hleft : s.dev.tim.hoLeft = some s.sn) :
    Acts [.tim, .hif] .timHoExpired s fun t => Raised s.dev t.dev [{ typ := 0x74, sn := s.sn }] := by
  have heq : hoExpired s.sn s.dev = raise { s.dev with tim := { s.dev.tim with hoLeft := none } } { typ := 0x74, sn := s.sn } :=
    (if_neg (by rw [hruns]; decide)).trans (if_pos hleft)
  exact ((Within.refl [] [.tim, .hif] s.dev).only (only_tim _ _)).raise.acts (exec_of_core (g := hoExpired s.sn) rfl hcore heq) rfl

end

/-- Settles O46: the selection by mode, force and best candidate, and what TIM_STATUS makes of it. -/
theorem referenceSelectionAndHoldover : Obligations.ReferenceSelectionAndHoldover := by
  intro s hcore hok hloss hlink hsel hst
  have hgood : xoGood s.dev = true := by rw [xoGood, hok, hloss]; rfl
  refine ⟨goes_freerun hcore hgood hsel hst hlink, goes_held hcore hgood hsel hst hlink, fun hmode => ⟨fun hforce hq => ?_, fun hforce hq => ?_,
    fun hfree => ⟨fun hnone => ?_, fun b hb => ?_⟩⟩, dpllLock_locks hcore hgood hlink hst, (hoValid_shows hcore hst).1,
    (hoValid_shows hcore hst).2, hoExpired_ends hcore hgood, hoExpired_left hcore⟩
  · exact goes_selected hcore hgood hsel hst hlink hmode hforce ((candSelect_force hforce).trans (if_pos hq))
  · exact goes_none hcore hgood hsel hst hlink hmode ((candSelect_force hforce).trans (if_neg (by rw [hq]; decide)))
  · exact goes_none hcore hgood hsel hst hlink hmode (candSelect_none hfree hnone)
  · obtain ⟨hqb, hfirst⟩ := hb
    have hbest := candBest_of_best hqb hfirst
    exact ⟨fun hold => goes_selected hcore hgood hsel hst hlink hmode hqb.1 (candSelect_unqualified hfree hbest hold),
      fun hold h => goes_selected hcore hgood hsel hst hlink hmode hqb.1 (candSelect_replaces hfree hbest hold h),
      fun hold h => goes_selected hcore hgood hsel hst hlink hmode hold.1 (candSelect_keeps hfree hbest hold h)⟩

end Sys2Proof.Machine
end

