-- ==== Sys2Proof/Proofs/MonitorObjects.lean ====
section
/-! PROOFS. PM_CONFIG, the performance counters' commands and grain tagging (R432, R433, R445 to R447). -/

namespace Sys2Proof.Machine

-- In order: a default argument `by simp` waits for every declaration before it, and many that wait take many threads.
set_option Elab.async false

/-! ### PM_CONFIG -/

theorem objRange_eq (kind obj : Nat) : objRange kind obj = decide (obj < (if kind = 2 then 2 ^ 21 else if kind = 6 then 2 ^ 17 else 128)) := by
  unfold objRange
  split
  · rfl
  · rfl
  next h2 h6 => rw [if_neg h2, if_neg h6]

/-- The kind and the object that a descriptor names. -/
def kindOf (raw : BitVec 512) : Nat := dF raw 16 0 16
def objOf (raw : BitVec 512) : Nat := dF raw 20 0 32

/-- The kind is one of Table 17-1. -/
def kindListed (raw : BitVec 512) : Bool := decide (1 ≤ kindOf raw ∧ kindOf raw ≤ 6)

/-- One more object than there is room for. -/
def objectsFull (d : Dev) (raw : BitVec 512) : Bool :=
  dB raw 24 0 && (tfind d.pm.objs (cntKey (kindOf raw) (objOf raw) 0)).isNone && decide (4096 ≤ d.pm.objs.length)

/-- The problems of PM_CONFIG. -/
def configProbs (d : Dev) (raw : BitVec 512) : List Prob :=
  reservedProb raw ++ probIf (!kindListed raw) 16 1 ++ probIf (kindListed raw && !objRange (kindOf raw) (objOf raw)) 20 1 ++
    probIf (dF raw 24 1 31 != 0) 24 2 ++ probIf (decide (26 < dF raw 32 0 5)) 32 1 ++ probIf (dF raw 32 6 26 != 0) 32 2 ++
    ((List.range 6).flatMap fun i => probIf (dF raw (40 + 4 * i) 0 32 != 0) (40 + 4 * i) 2) ++ probIf (objectsFull d raw) 24 6

/-- An object's empty bins, marked SUSPECT. -/
def freshObj (d : Dev) (kind obj : Nat) : PmObj :=
  { since := d.pm.secStart, skip := (List.range 27).foldl (fun m i => tput 0 m i (tget 0 (increments d) (cntKey kind obj i))) [],
    c15 := { idx := idx15 (rd d F.PMN_TIME_SEC_OF_DAY) (rd d F.PMN_DAY_DAY), suspect := true },
    c24 := { idx := idx24 (rd d F.PMN_DAY_DAY), suspect := true } }

/-- The object as the descriptor sets it. -/
def configuredObj (d : Dev) (raw : BitVec 512) : PmObj :=
  { (tfind d.pm.objs (cntKey (kindOf raw) (objOf raw) 0)).getD (freshObj d (kindOf raw) (objOf raw)) with
    sesTh := dF raw 28 0 32, tcaIdx := dF raw 32 0 5, tcaEn := dB raw 32 5, tcaTh := dF raw 36 0 32 }

/-- The objects after the descriptor. -/
def configuredObjs (d : Dev) (raw : BitVec 512) : Tbl PmObj :=
  if dB raw 24 0 then tins d.pm.objs (cntKey (kindOf raw) (objOf raw) 0) (configuredObj d raw)
  else tdel d.pm.objs (cntKey (kindOf raw) (objOf raw) 0)

theorem servePmConfig_eq {d : Dev} {r : Nat} {e : QEnt} (he : servedBy d r 0x30 = some e) (sn : SN) :
    servePmConfig r sn d = match firstProb (configProbs d e.raw) with
      | some p => badDesc d r e.uid sn p
      | none => finish (onPm d fun p => { p with objs := configuredObjs d e.raw }) r e.uid stOk 0 sn := by
  unfold servePmConfig
  rw [he]
  rfl

/-- Nothing is set that the descriptor reserves. -/
structure ConfigClean (raw : BitVec 512) : Prop where
  reserved : reservedAt raw = none
  flags : dF raw 24 1 31 = 0
  index : dF raw 32 0 5 ≤ 26
  rest : dF raw 32 6 26 = 0
  words : ∀ i : Fin 6, dF raw (40 + 4 * i.val) 0 32 = 0

theorem firstProb_config (d : Dev) {raw : BitVec 512} (h : ConfigClean raw) : firstProb (configProbs d raw) =
    if kindListed raw = false then some (16, 1) else if objRange (kindOf raw) (objOf raw) = false then some (20, 1)
    else if objectsFull d raw then some (24, 6) else none := by
  have hwords : ((List.range 6).flatMap fun i => probIf (dF raw (40 + 4 * i) 0 32 != 0) (40 + 4 * i) 2) = [] := by
    refine List.flatMap_eq_nil_iff.mpr fun i hi => ?_
    rw [h.words ⟨i, List.mem_range.mp hi⟩]
    rfl
  rw [configProbs, reservedProb_of_none h.reserved, hwords, h.flags, h.rest, decide_eq_false (show ¬ 26 < dF raw 32 0 5 by have := h.index; omega)]
  cases kindListed raw <;> cases objRange (kindOf raw) (objOf raw) <;> cases objectsFull d raw <;> rfl

section
variable {s : State} {r : Fin 16} {e : QEnt} (hcore : s.dev.pwr.core = true) (he : servedBy s.dev r 0x30 = some e)
include hcore he

theorem pmConfig_refuses {p : Prob} (hprob : firstProb (configProbs s.dev e.raw) = some p) :
    Acts [.hif] (.pmConfig r) s fun t => Served s.dev t.dev r e.uid 0x12 (p.1 + 256 * p.2) s.sn 0 := by
  have heq := servePmConfig_eq he s.sn
  rw [hprob] at heq
  exact (Within.of_only (only_finish s.dev r e.uid stBadDesc (probDetail p) s.sn 0)).acts
    (exec_of_core (g := servePmConfig r s.sn) rfl hcore heq) (served_badDesc _ _ _ _ p)

theorem pmConfig_configures (hprob : firstProb (configProbs s.dev e.raw) = none) :
    Acts [.hif, .pm] (.pmConfig r) s fun t => Served s.dev t.dev r e.uid 0 0 s.sn 0 ∧ t.dev.pm.objs = configuredObjs s.dev e.raw := by
  have heq := servePmConfig_eq he s.sn
  rw [hprob] at heq
  obtain ⟨m, hm⟩ : ∃ m, m = onPm s.dev fun p => { p with objs := configuredObjs s.dev e.raw } := ⟨_, rfl⟩
  have hobjs : m.pm.objs = configuredObjs s.dev e.raw := by rw [hm]; rfl
  have hhif : m.hif = s.dev.hif := by rw [hm]; rfl
  have hframe : Within [] [.hif, .pm] s.dev m := hm ▸ (Within.refl _ _ s.dev).only (only_pm s.dev _)
  rw [← hm] at heq
  exact hframe.finish.acts (exec_of_core (g := servePmConfig r s.sn) rfl hcore heq)
    ⟨(served_finish m r e.uid stOk 0 s.sn 0).of_hif hhif rfl, hobjs⟩

end

theorem configuredObjs_spec (d : Dev) (raw : BitVec 512) :
    (∀ j, j ≠ cntKey (kindOf raw) (objOf raw) 0 → tfind (configuredObjs d raw) j = tfind d.pm.objs j) ∧
    (dB raw 24 0 = false → tfind (configuredObjs d raw) (cntKey (kindOf raw) (objOf raw) 0) = none) ∧
    (dB raw 24 0 = true → tfind (configuredObjs d raw) (cntKey (kindOf raw) (objOf raw) 0) = some (configuredObj d raw)) := by
  unfold configuredObjs
  refine ⟨fun j hj => ?_, fun hoff => ?_, fun hon => ?_⟩
  · split
    · exact tfind_tins_ne _ _ hj
    · exact tfind_tdel_ne _ hj
  · rw [hoff]
    exact tfind_tdel_same _ _
  · rw [hon]
    exact tfind_tins_same _ _ _

/-- What PM_CONFIG makes of the object: new bins, or those that it had. -/
theorem configuredObj_bins (d : Dev) (raw : BitVec 512) :
    (tfind d.pm.objs (cntKey (kindOf raw) (objOf raw) 0) = none →
      (configuredObj d raw).c15 = { idx := rd d F.PMN_TIME_SEC_OF_DAY / 900 + 128 * rd d F.PMN_DAY_DAY, suspect := true } ∧
      (configuredObj d raw).c24 = { idx := 127 + 128 * rd d F.PMN_DAY_DAY, suspect := true }) ∧
    (∀ p, tfind d.pm.objs (cntKey (kindOf raw) (objOf raw) 0) = some p → (configuredObj d raw).c15 = p.c15 ∧ (configuredObj d raw).p15 = p.p15 ∧
      (configuredObj d raw).c24 = p.c24 ∧ (configuredObj d raw).p24 = p.p24 ∧ (configuredObj d raw).sec = p.sec) := by
  unfold configuredObj
  constructor
  · intro hnone
    rw [hnone]
    exact ⟨rfl, rfl⟩
  · intro p hp
    rw [hp]
    exact ⟨rfl, rfl, rfl, rfl, rfl⟩

/-! ### Performance counters and grain tagging (R445 to R447) -/

section
variable {s : State} (hcore : s.dev.pwr.core = true)
include hcore

theorem perfSnap_waits : ActsR [F.PMN_PERF_STATUS_DONE.addr 0] [.pm] .perfSnap s fun t => t.dev.pm = { s.dev.pm with snapDue := true } :=
  ((Within.refl _ _ s.dev).wrB.only (only_pm _ _)).actsR (exec_of_core (g := perfSnap) rfl hcore rfl) rfl

theorem perfClear_waits : Acts [.pm] .perfClear s fun t => t.dev.pm = { s.dev.pm with clearDue := true } :=
  (Within.of_only (only_pm s.dev _)).acts (exec_of_core (g := fun d => onPm d fun p => { p with clearDue := true }) rfl hcore rfl) rfl

theorem perfSel_waits (n : Fin 32) (v : W32) : Acts [.pm] (.pmnPerfSelWrite n v) s fun t => tfind t.dev.pm.selDue n.val = some v ∧
    t.dev.pm = { s.dev.pm with selDue := t.dev.pm.selDue } ∧ ∀ k, k ≠ n.val → tfind t.dev.pm.selDue k = tfind s.dev.pm.selDue k :=
  (Within.of_only (only_pm s.dev _)).acts
    (exec_of_core (g := fun d => onPm d fun p => { p with selDue := tins p.selDue n v }) rfl hcore rfl)
    ⟨tfind_tins_same _ _ _, rfl, fun _ hk => tfind_tins_ne _ _ hk⟩

omit hcore in
/-- The LFSR after one step. -/
theorem lfsr_step (l : BitVec 32) (b : Bool) : ((l <<< 1) ||| (BitVec.ofBool b).setWidth 32).extractLsb' 1 31 = l.extractLsb' 0 31 ∧
    ((l <<< 1) ||| (BitVec.ofBool b).setWidth 32).getLsbD 0 = b := by
  constructor
  · ext i hi
    simp [show 1 + i < 32 by omega, show i < 32 by omega]
  · cases b <;> simp

theorem grainTag_tags (hon : s.dev.pm.tagCfg.getLsbD 5 = true)
    (hage : 2 ^ min (s.dev.pm.tagCfg.extractLsb' 0 5).toNat 20 ≤ s.dev.pm.tagAge) : Acts [.pm] .grainTag s fun t =>
      t.dev.pm.lfsr.extractLsb' 1 31 = s.dev.pm.lfsr.extractLsb' 0 31 ∧
      t.dev.pm.lfsr.getLsbD 0 =
        (s.dev.pm.lfsr.getLsbD 31 ^^ s.dev.pm.lfsr.getLsbD 21 ^^ s.dev.pm.lfsr.getLsbD 1 ^^ s.dev.pm.lfsr.getLsbD 0) ∧
      t.dev.pm = { s.dev.pm with
        lfsr := t.dev.pm.lfsr, tagAge := 0,
        tagged := some ((t.dev.pm.lfsr.extractLsb' 0 8).toNat % 132, (t.dev.pm.lfsr.extractLsb' 8 11).toNat) } := by
  obtain ⟨l, hl⟩ : ∃ l : BitVec 32, l = (s.dev.pm.lfsr <<< 1) ||| (BitVec.ofBool (s.dev.pm.lfsr.getLsbD 31 ^^ s.dev.pm.lfsr.getLsbD 21 ^^
      s.dev.pm.lfsr.getLsbD 1 ^^ s.dev.pm.lfsr.getLsbD 0)).setWidth 32 := ⟨_, rfl⟩
  obtain ⟨hshift, hbit⟩ := lfsr_step s.dev.pm.lfsr (s.dev.pm.lfsr.getLsbD 31 ^^ s.dev.pm.lfsr.getLsbD 21 ^^ s.dev.pm.lfsr.getLsbD 1 ^^ s.dev.pm.lfsr.getLsbD 0)
  rw [← hl] at hshift hbit
  have heq : grainTag s.dev = onPm s.dev fun p => { p with lfsr := l, tagAge := 0, tagged := some (l.toNat % 256 % 132, l.toNat / 256 % 2048) } := by
    rw [hl]
    exact if_neg (by rw [hon, decide_eq_false (by omega)]; decide)
  refine (Within.of_only (only_pm s.dev _)).acts (exec_of_core (g := grainTag) rfl hcore heq) ⟨hshift, hbit, ?_⟩
  have hport : (l.extractLsb' 0 8).toNat = l.toNat % 256 := by simp [BitVec.extractLsb'_toNat]
  have hgrain : (l.extractLsb' 8 11).toNat = l.toNat / 256 % 2048 := by simp [BitVec.extractLsb'_toNat, Nat.shiftRight_eq_div_pow]
  dsimp only [onPm]
  rw [hport, hgrain]

omit hcore in
theorem grainTag_rests (h : s.dev.pm.tagCfg.getLsbD 5 = false ∨ s.dev.pm.tagAge < 2 ^ min (s.dev.pm.tagCfg.extractLsb' 0 5).toNat 20) :
    exec .grainTag s = .next s := by
  refine exec_of_core_self (g := grainTag) rfl (if_pos ?_)
  rcases h with h | h
  · rw [h]
    rfl
  · rw [decide_eq_true h, Bool.or_true]

end

/-- Settles O47: PM_CONFIG by the descriptor's first problem, and the counters' commands by what they leave for the tick. -/
theorem pmObjectsCountersAndTags : Obligations.PmObjectsCountersAndTags := by
  constructor
  · intro s r e hcore he hres
    have hclean (h : dF e.raw 24 1 31 = 0 ∧ dF e.raw 32 0 5 ≤ 26 ∧ dF e.raw 32 6 26 = 0 ∧ ∀ i : Fin 6, dF e.raw (40 + 4 * i.val) 0 32 = 0) :
        ConfigClean e.raw := by
      obtain ⟨hflags, hindex, hrest, hwords⟩ := h
      exact ⟨hres, hflags, hindex, hrest, hwords⟩
    have hrange := objRange_eq (kindOf e.raw) (objOf e.raw)
    refine ⟨fun hlisted hc => ?_, fun hlisted hin hc => ?_, fun hlisted hin hc hen hnone hfull => ?_, fun hlisted hin hc hroom => ?_⟩
    · have hkind : kindListed e.raw = false := decide_eq_false hlisted
      exact pmConfig_refuses hcore he ((firstProb_config s.dev (hclean hc)).trans (if_pos hkind))
    · have hkind : kindListed e.raw = true := decide_eq_true hlisted
      have hout : objRange (kindOf e.raw) (objOf e.raw) = false := hrange.trans (decide_eq_false hin)
      have hprob := firstProb_config s.dev (hclean hc)
      rw [hkind, hout] at hprob
      exact pmConfig_refuses hcore he hprob
    · have hkind : kindListed e.raw = true := decide_eq_true hlisted
      have hok : objRange (kindOf e.raw) (objOf e.raw) = true := hrange.trans (decide_eq_true hin)
      have hmany : objectsFull s.dev e.raw = true := by
        rw [objectsFull, hen, show tfind s.dev.pm.objs (cntKey (kindOf e.raw) (objOf e.raw) 0) = none from hnone, decide_eq_true hfull]
        rfl
      have hprob := firstProb_config s.dev (hclean hc)
      rw [hkind, hok, hmany] at hprob
      exact pmConfig_refuses hcore he hprob
    · have hkind : kindListed e.raw = true := decide_eq_true hlisted
      have hok : objRange (kindOf e.raw) (objOf e.raw) = true := hrange.trans (decide_eq_true hin)
      have hfew : objectsFull s.dev e.raw = false := by
        by_contra hne
        simp only [objectsFull, Bool.not_eq_false, Bool.and_eq_true, Option.isNone_iff_eq_none, decide_eq_true_eq] at hne
        obtain ⟨⟨hen, hnone⟩, hfull⟩ := hne
        have := hroom hen hnone
        omega
      have hprob := firstProb_config s.dev (hclean hc)
      rw [hkind, hok, hfew] at hprob
      obtain ⟨hothers, hoff, hon⟩ := configuredObjs_spec s.dev e.raw
      obtain ⟨hfresh, hkept⟩ := configuredObj_bins s.dev e.raw
      refine (pmConfig_configures hcore he hprob).weaken fun t ⟨hserved, hobjs⟩ => ⟨hserved, ?_, ?_, ?_⟩
      · rw [hobjs]
        exact hothers
      · rw [hobjs]
        exact hoff
      · intro hen
        rw [hobjs]
        exact ⟨configuredObj s.dev e.raw, hon hen, rfl, rfl, rfl, rfl, hfresh, hkept⟩
  · intro s n v hcore
    exact ⟨perfSnap_waits hcore, perfClear_waits hcore, perfSel_waits hcore n v, grainTag_tags hcore, grainTag_rests⟩

end Sys2Proof.Machine
end

