-- ==== Sys2Proof/Proofs/Dumps.lean ====
section
/-! PROOFS. PM_DUMP: the snapshot and its records (R346, R438). -/

namespace Sys2Proof.Machine

-- In order: a default argument `by simp` waits for every declaration before it, and many that wait take many threads.
set_option Elab.async false

/-! ### The layout of a PM record (Table 13-14) -/

/-- A bit of the packed words. -/
theorem packWords_testBit (ws : List Nat) (i : Nat) {j : Nat} (hj : j < 32) :
    (packWords ws).testBit (32 * i + j) = (ws.getD i 0).testBit j := by
  have h := congrArg (Nat.testBit · j) (packWords_word ws i)
  simp only [Nat.testBit_mod_two_pow, hj, decide_true, Bool.true_and, Nat.testBit_div_two_pow] at h
  rwa [Nat.add_comm] at h

/-- Two words of the packed words. -/
theorem packWords_pair (ws : List Nat) (i : Nat) :
    packWords ws / 2 ^ (32 * i) % 2 ^ 64 = ws.getD i 0 % 2 ^ 32 + 2 ^ 32 * (ws.getD (i + 1) 0 % 2 ^ 32) := by
  have hpow : (2 : Nat) ^ 64 = 2 ^ 32 * 2 ^ 32 := by decide
  have hnext : packWords ws / 2 ^ (32 * i) / 2 ^ 32 = packWords ws / 2 ^ (32 * (i + 1)) := by
    rw [Nat.div_div_eq_div_mul, ← pow_add]
    congr 2
  rw [hpow, Nat.mod_mul, hnext, packWords_word, packWords_word]

/-- Counts, each followed by a word of zeros. -/
def countWords (cnt : Tbl Nat) (l : List Nat) : List Nat := l.flatMap fun i => [tget 0 cnt i, 0]

theorem countWords_getD (cnt : Tbl Nat) (l : List Nat) (k : Nat) :
    (countWords cnt l).getD (2 * k) 0 = ((l[k]?).map (tget 0 cnt)).getD 0 ∧ (countWords cnt l).getD (2 * k + 1) 0 = 0 := by
  induction l generalizing k with
  | nil => exact ⟨rfl, rfl⟩
  | cons i l ih =>
    cases k with
    | zero => exact ⟨rfl, rfl⟩
    | succ k => exact ih k

/-- The header of a PM record, and its words. -/
def pmHead (kind obj id seq bin idx : Nat) (snap : SN) (last suspect : Bool) : List Nat :=
  [kind, obj, id, seq, bin + 256 * idx, snap.toNat, last.toNat + 2 * suspect.toNat, 0]

/-- The fields of a PM record. -/
structure PmFields (w : BitVec 2048) (kind obj id seq bin idx : Nat) (snap : SN) (last suspect : Bool) (cnt : Tbl Nat) : Prop where
  kind : (w.extractLsb' 0 32).toNat = kind % 2 ^ 32
  obj : (w.extractLsb' 32 32).toNat = obj % 2 ^ 32
  id : (w.extractLsb' 64 32).toNat = id % 2 ^ 32
  seq : (w.extractLsb' 96 32).toNat = seq % 2 ^ 32
  bin : (w.extractLsb' 128 32).toNat = (bin + 256 * idx) % 2 ^ 32
  snap : w.extractLsb' 160 32 = snap
  last : w.getLsbD 192 = last
  suspect : w.getLsbD 193 = suspect
  counts : ∀ i : Fin 27, (w.extractLsb' (256 + 64 * i.val) 64).toNat = tget 0 cnt i.val % 2 ^ 32

theorem pmFields (kind obj id seq bin idx : Nat) (snap : SN) (last suspect : Bool) (cnt : Tbl Nat) (p : Nat) :
    PmFields (BitVec.ofNat 2048 (pmBits kind obj id seq bin idx snap last suspect cnt ||| atByte 255 p)) kind obj id seq bin idx snap last
      suspect cnt := by
  have hbits : pmBits kind obj id seq bin idx snap last suspect cnt =
      packWords (pmHead kind obj id seq bin idx snap last suspect ++ countWords cnt (List.range 27)) := rfl
  rw [hbits]
  have hword (i : Nat) (hi : i < 63) := record_word (k := 255) (p := p) (i := i)
    (pmHead kind obj id seq bin idx snap last suspect ++ countWords cnt (List.range 27)) (by decide) (by omega)
  have hsix : (pmHead kind obj id seq bin idx snap last suspect ++ countWords cnt (List.range 27)).getD 6 0 = last.toNat + 2 * suspect.toNat := rfl
  have hflag {j : Nat} (hj : j < 32) := packWords_testBit (pmHead kind obj id seq bin idx snap last suspect ++ countWords cnt (List.range 27)) 6 hj
  rw [hsix] at hflag
  refine ⟨hword 0 (by decide), hword 1 (by decide), hword 2 (by decide), hword 3 (by decide), hword 4 (by decide), ?_, ?_, ?_, fun i => ?_⟩
  · exact BitVec.eq_of_toNat_eq ((hword 5 (by decide)).trans (Nat.mod_eq_of_lt snap.isLt))
  · rw [record_bit (by decide) (by decide)]
    refine (hflag (j := 0) (by decide)).trans ?_
    cases last <;> cases suspect <;> rfl
  · rw [record_bit (by decide) (by decide)]
    refine (hflag (j := 1) (by decide)).trans ?_
    cases last <;> cases suspect <;> rfl
  · obtain ⟨heven, hodd⟩ := countWords_getD cnt (List.range 27) i.val
    have hoff : 256 + 64 * i.val = 32 * (2 * i.val + 8) := by omega
    have hcount : (pmHead kind obj id seq bin idx snap last suspect ++ countWords cnt (List.range 27)).getD (2 * i.val + 8) 0 =
        tget 0 cnt i.val := by
      refine Eq.trans (b := (countWords cnt (List.range 27)).getD (2 * i.val) 0) rfl ?_
      rw [heven, List.getElem?_range i.isLt]
      rfl
    have hzero : (pmHead kind obj id seq bin idx snap last suspect ++ countWords cnt (List.range 27)).getD (2 * i.val + 8 + 1) 0 = 0 :=
      Eq.trans (b := (countWords cnt (List.range 27)).getD (2 * i.val + 1) 0) rfl hodd
    rw [record_field (by decide) (by omega), hoff, packWords_pair, hcount, hzero]
    rfl

/-! ### PM_DUMP -/

/-- The dump that a descriptor asks for. -/
def dumpOf (r : Nat) (e : QEnt) (sn : SN) : Dump :=
  { ring := r, idx := e.uid, pmd := dF e.raw 16 0 1, bins := dF e.raw 16 8 5, next := dF e.raw 20 0 32, id := dF e.raw 24 0 32,
    at' := if dB e.raw 16 1 = true then some (sn + 1) else none }

section
variable {s : State} {r : Fin 16} {e : QEnt} (hcore : s.dev.pwr.core = true) (he : servedBy s.dev r 0x31 = some e)
  (hres : reservedAt e.raw = none) (hclean : dF e.raw 16 13 3 = 0) (hidle : s.dev.pm.dump = none)
include hcore he hres hclean hidle

omit hcore in
theorem servePmDump_eq : servePmDump r s.sn s.dev = if (!dB e.raw 16 1 && s.dev.pm.snap.isNone) = true then
      badDesc s.dev r e.uid s.sn (16, 7)
    else take (onPm s.dev fun p => { p with dump := some (dumpOf r e s.sn) }) r e.uid := by
  have hprob := firstProb_of_clean hres (!dB e.raw 16 1 && s.dev.pm.snap.isNone) 16 7
  unfold servePmDump
  rw [he]
  dsimp only
  rw [hidle, hclean, show probIf ((0 : Nat) != 0) 16 2 = [] from rfl, List.append_nil, hprob]
  cases (!dB e.raw 16 1 && s.dev.pm.snap.isNone) <;> rfl

theorem pmDump_takes (h : dB e.raw 16 1 = true ∨ s.dev.pm.snap ≠ none) : Acts [.hif, .pm] (.pmDump r) s fun t =>
    Taken s.dev t.dev r e.uid ∧ t.dev.pm.snap = s.dev.pm.snap ∧ t.dev.pm.dump = some (dumpOf r e s.sn) := by
  have heq := (servePmDump_eq he hres hclean hidle).trans (if_neg (by
    rcases h with h | h
    · simp [h]
    · simp [h]))
  obtain ⟨m, hm⟩ : ∃ m, m = onPm s.dev fun p => { p with dump := some (dumpOf r e s.sn) } := ⟨_, rfl⟩
  have hpm : m.pm = { s.dev.pm with dump := some (dumpOf r e s.sn) } := by rw [hm]; rfl
  have hsnap : m.pm.snap = s.dev.pm.snap := by rw [hpm]
  have hdump : m.pm.dump = some (dumpOf r e s.sn) := by rw [hpm]
  have hhif : m.hif = s.dev.hif := by rw [hm]; rfl
  have hframe : Within [] [.hif, .pm] s.dev m := hm ▸ (Within.refl _ _ s.dev).only (only_pm s.dev _)
  rw [← hm] at heq
  exact hframe.take.acts (exec_of_core (g := servePmDump r s.sn) rfl hcore heq)
    ⟨(taken_take m r e.uid).of_hif hhif rfl, hsnap, hdump⟩

theorem pmDump_refused (hnew : dB e.raw 16 1 = false) (hsnap : s.dev.pm.snap = none) :
    Acts [.hif] (.pmDump r) s fun t => Served s.dev t.dev r e.uid 0x12 (16 + 256 * 7) s.sn 0 := by
  have heq := (servePmDump_eq he hres hclean hidle).trans (if_pos (by rw [hnew, hsnap]; rfl))
  exact (Within.of_only (only_finish s.dev r e.uid stBadDesc (probDetail (16, 7)) s.sn 0)).acts
    (exec_of_core (g := servePmDump r s.sn) rfl hcore heq) (served_badDesc _ _ _ _ (16, 7))

end

/-! ### The snapshot -/

/-- What the snapshot holds of a bin: an open one with what its second has counted so far. -/
def SnapBin (o : PmObj) (b : Nat) (x : Bin) : Prop :=
  (b = 1 → x = o.p15) ∧ (b = 3 → x = o.p24) ∧ (b = 4 → x = o.sec) ∧
  (b = 0 → x.idx = o.c15.idx ∧ x.suspect = o.c15.suspect) ∧ (b = 2 → x.idx = o.c24.idx ∧ x.suspect = o.c24.suspect)

theorem snapBins_spec (inc : Tbl Nat) (start : SN) (k : Nat) (o : PmObj) (b : Fin 5) :
    ∃ x, (k / 64 / 4194304, k / 64 % 4194304, b.val, x) ∈ snapBins inc start k o ∧ SnapBin o b.val x := by
  unfold snapBins SnapBin
  fin_cases b
  · exact ⟨_, List.mem_cons_self, nofun, nofun, nofun, fun _ => ⟨rfl, rfl⟩, nofun⟩
  · exact ⟨_, List.mem_cons_of_mem _ List.mem_cons_self, fun _ => rfl, nofun, nofun, nofun, nofun⟩
  · exact ⟨_, List.mem_cons_of_mem _ (List.mem_cons_of_mem _ List.mem_cons_self), nofun, nofun, nofun, nofun, fun _ => ⟨rfl, rfl⟩⟩
  · exact ⟨_, List.mem_cons_of_mem _ (List.mem_cons_of_mem _ (List.mem_cons_of_mem _ List.mem_cons_self)),
      nofun, fun _ => rfl, nofun, nofun, nofun⟩
  · exact ⟨_, List.mem_cons_of_mem _ (List.mem_cons_of_mem _ (List.mem_cons_of_mem _ (List.mem_cons_of_mem _ List.mem_cons_self))),
      nofun, nofun, fun _ => rfl, nofun, nofun⟩

theorem foldQueue_empty {d : Dev} (h : d.pm.queue = []) (sn : SN) : ∃ p : Pm, foldQueue sn d = { d with pm := p } ∧
    p = { d.pm with queue := [] } := by
  unfold foldQueue
  split
  · rw [h]
    exact ⟨_, rfl, rfl⟩
  · exact ⟨d.pm, rfl, by rw [← h]⟩

theorem pmSnapshot_takes {s : State} {m : Dump} {a : SN} (hcore : s.dev.pwr.core = true) (hdump : s.dev.pm.dump = some m)
    (hat : m.at' = some a) (hdue : snDue a s.sn = true) (hqueue : s.dev.pm.queue = []) (hstop : snDue (secStop s.dev) s.sn = false) :
    Acts [.hif, .pm] .pmSnapshot s fun t => t.dev.pm.dump = some { m with at' := none } ∧ t.dev.pm.objs = s.dev.pm.objs ∧
      ∃ l, t.dev.pm.snap = some (s.sn, l) ∧ ∀ k o, (k, o) ∈ s.dev.pm.objs → ∀ b : Fin 5,
        ∃ x, (k / 64 / 4194304, k / 64 % 4194304, b.val, x) ∈ l ∧ SnapBin o b.val x := by
  obtain ⟨p, hfold, hp⟩ := foldQueue_empty hqueue s.sn
  obtain ⟨f, hf⟩ : ∃ f : Dev, f = { s.dev with pm := p } := ⟨_, rfl⟩
  have hfpm : f.pm = { s.dev.pm with queue := [] } := by rw [hf, hp]
  have hempty : f.pm.queue = [] := by rw [hfpm]
  have hobjs : f.pm.objs = s.dev.pm.objs := by rw [hfpm]
  have heq : pmSnapshot s.sn s.dev = onPm f fun p => { p with
      snap := some (s.sn, p.objs.flatMap fun o => snapBins (increments f) p.secStart o.1 o.2), dump := some { m with at' := none } } := by
    unfold pmSnapshot
    rw [hdump]
    dsimp only
    rw [hat]
    dsimp only
    rw [if_neg (by rw [hdue, hstop]; decide), hfold, ← hf, if_neg (by rw [hempty]; decide)]
  have hframe : Within [] [.hif, .pm] s.dev f := hf ▸ (Within.refl _ _ s.dev).only (only_pm s.dev _)
  refine (hframe.only (only_pm f _)).acts (exec_of_core (g := pmSnapshot s.sn) rfl hcore heq) ⟨rfl, hobjs, _, rfl, ?_⟩
  intro k o hmem b
  obtain ⟨x, hx, hbin⟩ := snapBins_spec (increments f) f.pm.secStart k o b
  refine ⟨x, List.mem_flatMap.mpr ⟨(k, o), ?_, hx⟩, hbin⟩
  rw [hobjs]
  exact hmem

/-! ### Records -/

theorem Served.of_queues {a a' b : Dev} {r uid st det : Nat} {sn : SN} {res : BitVec 64} (h : Served a b r uid st det sn res)
    (hq : ∀ x, (ringOf a x).q = (ringOf a' x).q) : Served a' b r uid st det sn res := by
  simpa only [Served, hq] using h

theorem dumpDone_pm (sn : SN) (m : Dump) (n : Nat) (d : Dev) : (dumpDone sn m n d).pm = { d.pm with dump := none } := rfl

/-- A record has been written for the dump, which ends there. -/
theorem dumpDone_spec {r bits : Nat} {a b : Dev} (h : RecordWritten r bits a b) (sn : SN) (m : Dump) (n : Nat) :
    Within [pWord r] [.regs, .hif, .out, .pm] a (dumpDone sn m n b) ∧ rP (dumpDone sn m n b) r = (rP a r + 1) % 2 ^ 32 ∧
    (dumpDone sn m n b).out = b.out ∧
    Served a (dumpDone sn m n b) m.ring m.idx 0 0 sn (BitVec.ofNat 64 (m.written + 2 ^ 32 * n)) := by
  have hwide : Within [pWord r] [.regs, .hif, .out, .pm] a b := h.frame.mono
  refine ⟨(hwide.only (only_pm b _)).finish, h.pidx, rfl, ?_⟩
  refine (served_finish (onPm b fun p => { p with dump := none }) m.ring m.idx stOk 0 sn (BitVec.ofNat 64 (m.written + 2 ^ 32 * n))).of_queues
    fun x => ?_
  by_cases hx : x = r
  · have hq := congrArg Ring.q h.ring
    rw [hx]
    exact hq
  · exact congrArg Ring.q (h.only.others x hx)

section
variable {s : State} {pmd : Fin 2} {m : Dump} (hcore : s.dev.pwr.core = true) (hdump : s.dev.pm.dump = some m) (hpmd : m.pmd = pmd.val)
include hcore hdump hpmd

omit hcore hdump hpmd in
theorem hostRing_pmd : hostRing (36 + pmd.val) = false ∧ recBytes (36 + pmd.val) - 1 = 255 := by fin_cases pmd <;> decide

section
variable {snap : SN} {l : List (Nat × Nat × Nat × Bin)} {kind obj b : Nat} {x : Bin} (hat : m.at' = none) (homit : m.omit' = none)
  (hsnap : s.dev.pm.snap = some (snap, l)) (hrec : (l.filter fun y => m.bins.testBit y.2.2.1)[m.next]? = some (kind, obj, b, x))
include hat homit hsnap hrec

omit hcore in
theorem pmRecord_eq : pmRecord pmd s.sn s.dev =
    let count := (l.filter fun y => m.bins.testBit y.2.2.1).length
    let last := m.next + 1 == count
    if canWrite s.dev (36 + pmd.val) then
      let d := writeRec s.dev (36 + pmd.val) (pmBits kind obj m.id m.next b x.idx snap last x.suspect x.cnt)
      let m := { m with next := m.next + 1, written := m.written + 1 }
      if last then dumpDone s.sn m 0 d else onPm d fun p => { p with dump := some m }
    else if rState s.dev (36 + pmd.val) = 1 ∧ !rRoom s.dev (36 + pmd.val) then
      onPm s.dev fun p => { p with dump := some { m with omit' := some (count - m.next) } }
    else if rState s.dev (36 + pmd.val) = 1 ∧ !frozen s.dev ∧ !dmaOk s.dev (recAddr s.dev (36 + pmd.val) (rP s.dev (36 + pmd.val))) true then
      dmaMiss s.dev (recAddr s.dev (36 + pmd.val) (rP s.dev (36 + pmd.val)))
    else s.dev := by
  have hrecs : dumpRecs s.dev m = l.filter fun y => m.bins.testBit y.2.2.1 := by rw [dumpRecs, hsnap]
  unfold pmRecord
  rw [hdump]
  dsimp only
  rw [if_neg (by rw [hat, homit, hpmd]; simp), hrecs, hrec, hsnap]

theorem pmRecord_writes (hwrite : canWrite s.dev (36 + pmd.val) = true) :
    ActsR [pWord (36 + pmd.val)] [.hif, .out, .pm] (.pmRecordWrite pmd) s fun t =>
      rP t.dev (36 + pmd.val) = (rP s.dev (36 + pmd.val) + 1) % 2 ^ 32 ∧ t.dev.pm.snap = s.dev.pm.snap ∧
      (∃ (w : BitVec 2048) (os : List Out), Sent s.dev t.dev (.record (36 + pmd.val) (rP s.dev (36 + pmd.val)) w :: os) ∧
        (∀ o ∈ os, ∃ a, o = .transReq a) ∧
        PmFields w kind obj m.id m.next b x.idx snap (m.next + 1 == (l.filter fun y => m.bins.testBit y.2.2.1).length) x.suspect x.cnt) ∧
      (m.next + 1 ≠ (l.filter fun y => m.bins.testBit y.2.2.1).length →
        t.dev.pm.dump = some { m with next := m.next + 1, written := m.written + 1 }) ∧
      (m.next + 1 = (l.filter fun y => m.bins.testBit y.2.2.1).length →
        t.dev.pm.dump = none ∧ Served s.dev t.dev m.ring m.idx 0 0 s.sn (BitVec.ofNat 64 (m.written + 1))) := by
  have heq := pmRecord_eq hdump hpmd hat homit hsnap hrec
  obtain ⟨hhost, hbytes⟩ := hostRing_pmd (pmd := pmd)
  dsimp only at heq
  rw [if_pos hwrite] at heq
  generalize hlast : (m.next + 1 == (l.filter fun y => m.bins.testBit y.2.2.1).length) = last at *
  have hwritten := recordWritten_writeRec hhost s.dev (pmBits kind obj m.id m.next b x.idx snap last x.suspect x.cnt)
  obtain ⟨hframe, hpidx, -, -, os, hsent, hos⟩ := id hwritten
  rw [hbytes] at hsent
  generalize writeRec s.dev (36 + pmd.val) (pmBits kind obj m.id m.next b x.idx snap last x.suspect x.cnt) = d at *
  have hsnapd : d.pm = s.dev.pm := hframe.parts .pm (by simp)
  have hrecord := pmFields kind obj m.id m.next b x.idx snap last x.suspect x.cnt (phaseBit (rLog2 s.dev (36 + pmd.val)) (rP s.dev (36 + pmd.val)))
  cases last with
  | true =>
    rw [if_pos rfl] at heq
    obtain ⟨hdone, hp, hout, hserved⟩ := dumpDone_spec hwritten s.sn { m with next := m.next + 1, written := m.written + 1 } 0
    have hpm := dumpDone_pm s.sn { m with next := m.next + 1, written := m.written + 1 } 0 d
    generalize dumpDone s.sn { m with next := m.next + 1, written := m.written + 1 } 0 d = t at *
    refine hdone.actsR (exec_of_core (g := pmRecord pmd s.sn) rfl hcore heq)
      ⟨hp, by rw [hpm, hsnapd], ⟨_, os, ?_, hos, hrecord⟩, fun hne => absurd (beq_iff_eq.mp hlast) hne, fun _ => ⟨by rw [hpm], hserved⟩⟩
    rw [Sent, hout]
    exact hsent
  | false =>
    rw [if_neg Bool.false_ne_true] at heq
    have hwide : Within [pWord (36 + pmd.val)] [.regs, .hif, .out, .pm] s.dev d := hframe.mono
    have hkept := congrArg Pm.snap hsnapd
    exact (hwide.only (only_pm d _)).actsR (exec_of_core (g := pmRecord pmd s.sn) rfl hcore heq)
      ⟨hpidx, hkept, ⟨_, os, hsent, hos, hrecord⟩, fun _ => rfl, fun h => absurd h (beq_eq_false_iff_ne.mp hlast)⟩

theorem pmRecord_omits (hstate : rState s.dev (36 + pmd.val) = 1) (hroom : rRoom s.dev (36 + pmd.val) = false) :
    Acts [.pm] (.pmRecordWrite pmd) s fun t =>
      t.dev.pm.dump = some { m with omit' := some ((l.filter fun y => m.bins.testBit y.2.2.1).length - m.next) } := by
  have hwrite : canWrite s.dev (36 + pmd.val) = false := by simp [canWrite, hroom]
  have heq := pmRecord_eq hdump hpmd hat homit hsnap hrec
  dsimp only at heq
  rw [if_neg (by rw [hwrite]; decide), if_pos ⟨hstate, by rw [hroom]; rfl⟩] at heq
  exact (Within.of_only (only_pm s.dev _)).acts (exec_of_core (g := pmRecord pmd s.sn) rfl hcore heq) rfl

end

theorem omissionRecord_ends {n : Nat} (homit : m.omit' = some n) (hwrite : canWrite s.dev (36 + pmd.val) = true) :
    ActsR [pWord (36 + pmd.val)] [.hif, .out, .pm] (.omissionRecord pmd) s fun t =>
      rP t.dev (36 + pmd.val) = (rP s.dev (36 + pmd.val) + 1) % 2 ^ 32 ∧ t.dev.pm.dump = none ∧
      Served s.dev t.dev m.ring m.idx 0 0 s.sn (BitVec.ofNat 64 (m.written + 2 ^ 32 * n)) := by
  obtain ⟨bits, hbits⟩ : ∃ bits, omissionRecord pmd s.sn s.dev = dumpDone s.sn m n (writeRec s.dev (36 + pmd.val) bits) := by
    unfold omissionRecord
    rw [hdump]
    dsimp only
    rw [homit]
    dsimp only
    rw [if_neg (by rw [hwrite, hpmd]; simp)]
    exact ⟨_, rfl⟩
  have hwritten := recordWritten_writeRec (hostRing_pmd (pmd := pmd)).1 s.dev bits
  obtain ⟨hdone, hp, -, hserved⟩ := dumpDone_spec hwritten s.sn m n
  exact hdone.actsR (exec_of_core (g := omissionRecord pmd s.sn) rfl hcore hbits) ⟨hp, rfl, hserved⟩

end

/-- Settles O48: the dump from its descriptor to its last record. -/
theorem pmDumpsCopyBins : Obligations.PmDumpsCopyBins := by
  intro s r e pmd m hcore
  refine ⟨fun he hres hclean hidle => ⟨pmDump_takes hcore he hres hclean hidle, pmDump_refused hcore he hres hclean hidle⟩,
    fun a hdump hat hdue hqueue hstop => pmSnapshot_takes hcore hdump hat hdue hqueue hstop,
    fun snap l kind obj b x hdump hpmd hat homit hsnap hrec => ⟨fun hwrite => ?_, pmRecord_omits hcore hdump hpmd hat homit hsnap hrec⟩,
    fun n hdump hpmd homit hwrite => omissionRecord_ends hcore hdump hpmd homit hwrite⟩
  refine (pmRecord_writes hcore hdump hpmd hat homit hsnap hrec hwrite).weaken ?_
  rintro t ⟨hp, hkeeps, ⟨w, os, hsent, hos, hw⟩, hmore, hlast⟩
  refine ⟨hp, hkeeps, ⟨w, os, hsent, hos, hw.kind, hw.obj, hw.id, hw.seq, hw.bin, hw.snap, ?_, hw.suspect, hw.counts⟩, hmore, hlast⟩
  rw [hw.last, beq_iff_eq]

end Sys2Proof.Machine
end

