-- ==== Sys2Proof/Proofs/PmSeconds.lean ====
section
/-! PROOFS. PM seconds, anchors and the legacy page (R429 to R431, R437, R439). -/

namespace Sys2Proof.Machine

-- In order: a default argument `by simp` waits for every declaration before it, and many that wait take many threads.
set_option Elab.async false

/-! ### Folding (R437) -/

/-- Seconds have been folded: of the monitoring only the objects, the lanes' availability and the page change, and
crossings are raised. -/
structure Folded (a b : Dev) : Prop where
  frame : Within [] [.hif, .pm] a b
  raises : RaisesOnly a b
  pm : b.pm = { a.pm with objs := b.pm.objs, leg := b.pm.leg, page := b.pm.page }

namespace Folded

variable {a b c : Dev}

theorem refl (a : Dev) : Folded a a := ⟨.refl _ _ a, .refl a, rfl⟩

theorem trans (h : Folded a b) (k : Folded b c) : Folded a c :=
  ⟨h.frame.trans k.frame, h.raises.trans k.raises, by rw [k.pm, h.pm]⟩

theorem raise (h : Folded a b) (e : Ev) : Folded a (Machine.raise b e) := h.trans ⟨(Within.refl _ _ b).raise, ⟨_, rfl⟩, rfl⟩

theorem objs (h : Folded a b) (l : Tbl PmObj) : Folded a (onPm b fun p => { p with objs := l }) :=
  h.trans ⟨(Within.refl _ _ b).only (only_pm b _), .of_same rfl, rfl⟩

theorem ite {p : Prop} [Decidable p] (h : Folded a b) (k : Folded a c) : Folded a (if p then b else c) := by
  split
  case isTrue => exact h
  case isFalse => exact k

end Folded

theorem folded_foldObj (lost : Bool) (sn : SN) (x : Second) (d : Dev) (k : Nat) : Folded d (foldObj lost sn x d k) := by
  unfold foldObj
  split
  · exact .refl d
  · extract_lets kind obj set c o v up d'
    have hset (m : Dev) (o : PmObj) : Folded m (set m o) := (Folded.refl m).objs _
    have hd' : Folded d d' := hset d _
    exact .ite (.refl d) (.ite (hset d _) (.ite (hd'.raise _) hd'))

/-- A second whose counts are lost raises nothing. -/
theorem foldObj_lost_hif (sn : SN) (x : Second) (d : Dev) (k : Nat) : (foldObj true sn x d k).hif = d.hif := by
  unfold foldObj
  split
  · rfl
  · dsimp only
    split <;> rfl

theorem folded_foldSecond (lost : Bool) (sn : SN) (d : Dev) (x : Second) : Folded d (foldSecond lost sn d x) := by
  unfold foldSecond
  extract_lets ls d'
  have hobjs : Folded d d' := List.foldlRecOn (motive := Folded d) _ _ (.refl d) fun m hm k _ => hm.trans (folded_foldObj lost sn x m k)
  exact hobjs.trans ⟨(Within.refl _ _ d').only (only_pm d' _), .of_same rfl, rfl⟩

theorem foldSecond_lost_hif (sn : SN) (d : Dev) (x : Second) : (foldSecond true sn d x).hif = d.hif :=
  foldl_same (g := Dev.hif) (foldObj_lost_hif sn x) _ d

/-- The queue is empty. -/
def unqueued (d : Dev) : Dev := onPm d fun p => { p with queue := [] }

theorem foldQueue_folds {d : Dev} (hruns : core1Runs d = true) (sn : SN) :
    foldQueue sn d = d.pm.queue.foldl (foldSecond false sn) (unqueued d) := if_pos hruns

theorem foldQueue_waits {d : Dev} (hruns : core1Runs d = false) (sn : SN) : foldQueue sn d = d := if_neg (by rw [hruns]; decide)

theorem folded_foldQueue {d : Dev} (hruns : core1Runs d = true) (sn : SN) : Folded (unqueued d) (foldQueue sn d) := by
  rw [foldQueue_folds hruns]
  exact List.foldlRecOn (motive := Folded (unqueued d)) _ _ (.refl _) fun m hm x _ => hm.trans (folded_foldSecond false sn m x)

/-- What core 1 makes of the queue. -/
structure QueueFolded (a b : Dev) : Prop where
  frame : Within [] [.hif, .pm] a b
  raises : RaisesOnly a b
  pm : b.pm = { a.pm with objs := b.pm.objs, leg := b.pm.leg, page := b.pm.page, queue := b.pm.queue }
  runs : core1Runs a = true → b.pm.queue = []
  waits : core1Runs a = false → b = a

theorem queueFolded_foldQueue (sn : SN) (d : Dev) : QueueFolded d (foldQueue sn d) := by
  cases hruns : core1Runs d with
  | true =>
    obtain ⟨hframe, hraises, hpm⟩ := folded_foldQueue hruns sn
    have hempty : Within [] [.hif, .pm] d (unqueued d) := (Within.refl _ _ d).only (only_pm d _)
    have hqueue := congrArg Pm.queue hpm
    exact ⟨hempty.trans hframe, (RaisesOnly.of_same (a := d) (b := unqueued d) rfl).trans hraises, by rw [hpm]; rfl, fun _ => hqueue,
      fun h => absurd (hruns.symm.trans h) (by decide)⟩
  | false =>
    rw [foldQueue_waits hruns]
    exact ⟨.refl _ _ d, .refl d, rfl, fun h => absurd (hruns.symm.trans h) (by decide), fun _ => rfl⟩

/-! ### The end of a second (R429, R430) -/

/-- PMN_TIME and PMN_DAY. -/
abbrev dayRegs : List Nat := [F.PMN_TIME_SEC_OF_DAY.addr 0, F.PMN_DAY_DAY.addr 0]

/-- The second that ends. -/
def secondOf (at' : SN) (tod day : Nat) (cut : Option (Bool × Bool)) (d : Dev) : Second :=
  { start := d.pm.secStart, stop := at', tod := rd d F.PMN_TIME_SEC_OF_DAY, day := rd d F.PMN_DAY_DAY, nextTod := tod, nextDay := day,
    inc := increments d, seen := d.pm.seen, conds := (List.range 128).map fun n => rd d F.FRM_RX_STATUS_COND n, cut := cut }

/-- The second has ended, and is still to be folded. -/
def secondClosed (at' : SN) (tod day : Nat) (cut : Option (Bool × Bool)) (d : Dev) : Dev :=
  wr (wr (onPm d fun p => { p with
    queue := p.queue ++ [secondOf at' tod day cut d], base := running d, seen := seenNow d, secStart := at' })
    F.PMN_TIME_SEC_OF_DAY 0 tod) F.PMN_DAY_DAY 0 day

theorem secondEnd_eq (at' : SN) (tod day : Nat) (cut : Option (Bool × Bool)) (sn : SN) (d : Dev) :
    secondEnd at' tod day cut sn d = foldQueue sn (secondClosed at' tod day cut d) := rfl

/-- What the end of a second leaves. -/
structure SecondEnded (at' : SN) (tod day : Nat) (cut : Option (Bool × Bool)) (a b : Dev) : Prop where
  frame : Within dayRegs [.regs, .hif, .pm] a b
  raises : RaisesOnly a b
  start : b.pm.secStart = at'
  todAfter : rd b F.PMN_TIME_SEC_OF_DAY = tod % 2 ^ 17
  dayAfter : rd b F.PMN_DAY_DAY = day % 2 ^ 17
  runs : core1Runs a = true → b.pm.queue = []
  waits : core1Runs a = false → b.pm.queue = a.pm.queue ++ [secondOf at' tod day cut a] ∧ b.pm.objs = a.pm.objs

theorem core1Runs_frame {a b : Dev} (h : Within dayRegs [.regs, .hif, .pm] a b) : core1Runs b = core1Runs a := by
  have hctl : b.ctl = a.ctl := h.parts .ctl (by simp)
  have hst : c1State b = c1State a := h.rd (by decide)
  rw [core1Runs, core1Runs, h.rdB (by decide), hctl, hst]

theorem secondEnd_ends (at' : SN) (tod day : Nat) (cut : Option (Bool × Bool)) (sn : SN) (d : Dev) :
    SecondEnded at' tod day cut d (secondEnd at' tod day cut sn d) := by
  have hclosed : Within dayRegs [.regs, .hif, .pm] d (secondClosed at' tod day cut d) := (((Within.refl _ _ d).only (only_pm d _)).wr).wr
  have htod : rd (secondClosed at' tod day cut d) F.PMN_TIME_SEC_OF_DAY = tod % 2 ^ 17 :=
    (rd_wr_parted _ (by decide)).trans (rd_wr_same _ _ _ _ (by decide))
  have hday : rd (secondClosed at' tod day cut d) F.PMN_DAY_DAY = day % 2 ^ 17 := rd_wr_same _ _ _ _ (by decide)
  have hpm : (secondClosed at' tod day cut d).pm =
      { d.pm with queue := d.pm.queue ++ [secondOf at' tod day cut d], base := running d, seen := seenNow d, secStart := at' } := rfl
  have hhif : (secondClosed at' tod day cut d).hif = d.hif := rfl
  have hruns := core1Runs_frame hclosed
  rw [secondEnd_eq]
  generalize secondClosed at' tod day cut d = c at *
  obtain ⟨hframe, hraises, hfolded, hempty, hsame⟩ := queueFolded_foldQueue sn c
  rw [hruns] at hempty hsame
  refine ⟨hclosed.next hframe, (RaisesOnly.of_same hhif).trans hraises, ?_, (hframe.rd (by simp)).trans htod, (hframe.rd (by simp)).trans hday,
    hempty, fun hwaits => ?_⟩
  · rw [hfolded, hpm]
  · rw [hsame hwaits, hpm]
    exact ⟨rfl, rfl⟩

/-- A second that is over gives way to the next. -/
def secondPassed (sn : SN) (d : Dev) : Dev :=
  secondEnd (secStop d) (nextTime (rd d F.PMN_TIME_SEC_OF_DAY) (rd d F.PMN_DAY_DAY)).1
    (nextTime (rd d F.PMN_TIME_SEC_OF_DAY) (rd d F.PMN_DAY_DAY)).2 none sn d

theorem nextTime_eq (tod day : Nat) : nextTime tod day = if tod = 86399 then (0, (day + 1) % 2 ^ 17) else (tod + 1, day) := by
  unfold nextTime
  by_cases h : tod = 86399
  · rw [if_pos h, if_pos (by omega)]
  · rw [if_neg h, if_neg (by omega)]

section
variable {s : State} (hcore : s.dev.pwr.core = true)
include hcore

theorem pmSecond_passes (hdue : snDue (secStop s.dev) s.sn = true) : ActsR dayRegs [.hif, .pm] .pmSecond s fun t =>
    t.dev.pm.secStart = secStop s.dev ∧
    (s.dev.pm.acc < 7 → t.dev.pm.acc = s.dev.pm.acc + 9 ∧ t.dev.pm.secLen = 610351) ∧
    (7 ≤ s.dev.pm.acc → t.dev.pm.acc = s.dev.pm.acc - 7 ∧ t.dev.pm.secLen = 610352) ∧
    (rd s.dev F.PMN_TIME_SEC_OF_DAY ≠ 86399 →
      rd t.dev F.PMN_TIME_SEC_OF_DAY = (rd s.dev F.PMN_TIME_SEC_OF_DAY + 1) % 2 ^ 17 ∧ rd t.dev F.PMN_DAY_DAY = rd s.dev F.PMN_DAY_DAY) ∧
    (rd s.dev F.PMN_TIME_SEC_OF_DAY = 86399 →
      rd t.dev F.PMN_TIME_SEC_OF_DAY = 0 ∧ rd t.dev F.PMN_DAY_DAY = (rd s.dev F.PMN_DAY_DAY + 1) % 2 ^ 17) ∧
    (core1Runs s.dev = true → t.dev.pm.queue = []) ∧
    (core1Runs s.dev = false → ∃ x, t.dev.pm.queue = s.dev.pm.queue ++ [x] ∧ x.start = s.dev.pm.secStart ∧ x.stop = secStop s.dev ∧
      x.tod = rd s.dev F.PMN_TIME_SEC_OF_DAY ∧ x.day = rd s.dev F.PMN_DAY_DAY ∧ t.dev.pm.objs = s.dev.pm.objs) := by
  have heq : pmSecond s.sn s.dev = onPm (secondPassed s.sn s.dev) fun p =>
      { p with acc := (nextLen s.dev.pm.acc).1, secLen := (nextLen s.dev.pm.acc).2 } := if_neg (by rw [hdue]; decide)
  have hday := rd_lt s.dev F.PMN_DAY_DAY 0
  obtain ⟨hframe, -, hstart, htod, hdayAfter, hruns, hwaits⟩ := secondEnd_ends (secStop s.dev)
    (nextTime (rd s.dev F.PMN_TIME_SEC_OF_DAY) (rd s.dev F.PMN_DAY_DAY)).1
    (nextTime (rd s.dev F.PMN_TIME_SEC_OF_DAY) (rd s.dev F.PMN_DAY_DAY)).2 none s.sn s.dev
  change Within _ _ s.dev (secondPassed s.sn s.dev) at hframe
  change (secondPassed s.sn s.dev).pm.secStart = _ at hstart
  change rd (secondPassed s.sn s.dev) _ = _ at htod hdayAfter
  change _ → (secondPassed s.sn s.dev).pm.queue = _ at hruns
  change _ → (secondPassed s.sn s.dev).pm.queue = _ ∧ (secondPassed s.sn s.dev).pm.objs = _ at hwaits
  generalize secondPassed s.sn s.dev = m at *
  refine (hframe.only (only_pm m _)).actsR (exec_of_core (g := pmSecond s.sn) rfl hcore heq) ⟨hstart, fun h => ?_, fun h => ?_, fun h => ?_,
    fun h => ?_, hruns, fun h => ?_⟩
  · have hlen : nextLen s.dev.pm.acc = (s.dev.pm.acc + 9, 610351) := if_neg (by omega)
    exact ⟨congrArg Prod.fst hlen, congrArg Prod.snd hlen⟩
  · have hlen : nextLen s.dev.pm.acc = (s.dev.pm.acc + 9 - 16, 610352) := if_pos (by omega)
    exact ⟨(congrArg Prod.fst hlen).trans (by omega), congrArg Prod.snd hlen⟩
  · rw [nextTime_eq, if_neg h] at htod hdayAfter
    exact ⟨htod, hdayAfter.trans (Nat.mod_eq_of_lt hday)⟩
  · rw [nextTime_eq, if_pos h] at htod hdayAfter
    exact ⟨htod, hdayAfter.trans (Nat.mod_mod _ _)⟩
  · obtain ⟨hqueue, hobjs⟩ := hwaits h
    exact ⟨_, hqueue, rfl, rfl, rfl, rfl, hobjs⟩

omit hcore in
theorem pmSecond_rests (hdue : snDue (secStop s.dev) s.sn = false) : exec .pmSecond s = .next s :=
  exec_of_core_self (g := pmSecond s.sn) rfl (if_pos (by rw [hdue]; rfl))

/-! ### Lost seconds (R437) -/

omit hcore in
theorem takeWhile_take {α : Type} {p : α → Bool} {old rest : List α} (h : ∀ y ∈ old, p y = true) :
    ((old ++ rest).takeWhile p).take old.length = old := by
  induction old with
  | nil => rfl
  | cons y old ih =>
    rw [List.cons_append, List.takeWhile_cons_of_pos (h y List.mem_cons_self), List.length_cons, List.take_succ_cons,
      ih fun z hz => h z (List.mem_cons_of_mem _ hz)]

theorem pmSecLost_loses {x : Second} {rest old : List Second} (hqueue : s.dev.pm.queue = old ++ rest) (hhead : old.head? = some x)
    (hold : ∀ y ∈ old, 9765625 ≤ (s.sn - y.stop).toNat) :
    Acts [.hif, .pm] (.pmSecLost old.length) s fun t => t.dev.pm.queue = rest ∧
      Raised s.dev t.dev [{ typ := 0xA1, sn := s.sn, p0 := old.length, p1 := x.tod }] := by
  obtain ⟨l, rfl⟩ : ∃ l, old = x :: l := List.head?_eq_some_iff.mp hhead
  obtain ⟨m, hm⟩ : ∃ m, m = onPm s.dev fun p => { p with queue := p.queue.drop (x :: l).length } := ⟨_, rfl⟩
  obtain ⟨f, hf⟩ : ∃ f, f = (x :: l).foldl (foldSecond true s.sn) m := ⟨_, rfl⟩
  have heq : pmSecLost (x :: l).length s.sn s.dev = raise f { typ := 0xA1, sn := s.sn, p0 := (x :: l).length, p1 := x.tod } := by
    have hlost : (s.dev.pm.queue.takeWhile fun y => decide (9765625 ≤ snAge y.stop s.sn)).take (x :: l).length = x :: l := by
      rw [hqueue]
      exact takeWhile_take fun y hy => decide_eq_true (hold y hy)
    unfold pmSecLost
    rw [hlost, hf, hm]
  have hfolded : Folded m f := hf ▸ List.foldlRecOn (motive := Folded m) _ _ (.refl _) fun b hb y _ => hb.trans (folded_foldSecond true s.sn b y)
  have hhif : f.hif = s.dev.hif := by
    rw [hf, foldl_same (g := Dev.hif) (foldSecond_lost_hif s.sn), hm]
    rfl
  have hmq : m.pm.queue = rest := by
    rw [hm]
    exact (congrArg (List.drop (x :: l).length) hqueue).trans List.drop_left
  have hdropped : Within [] [.hif, .pm] s.dev m := hm ▸ (Within.refl _ _ s.dev).only (only_pm s.dev _)
  have hq : f.pm.queue = rest := (congrArg Pm.queue hfolded.pm).trans hmq
  have hframe : Within [] [.hif, .pm] s.dev f := hdropped.trans hfolded.frame
  have htwin : f.twin = s.dev.twin := hframe.parts .twin (by simp)
  exact hframe.raise.acts (exec_of_core (g := pmSecLost (x :: l).length s.sn) rfl hcore heq)
    ⟨hq, (raised_raise f _).of_same (congrArg Hif.evq hhif) (congrArg Twin.role htwin) rfl⟩

end

/-! ### PM_ALIGN and its anchor (R431) -/

section
variable {s : State} {r : Fin 16} {e : QEnt} (hcore : s.dev.pwr.core = true) (he : servedBy s.dev r 0x32 = some e)
  (hres : reservedAt e.raw = none) (hfree : s.dev.pm.anchor = none)
include hcore he hres hfree

omit hcore in
theorem servePmAlign_eq : servePmAlign r s.sn s.dev = if (decide (86399 < dF e.raw 20 0 17) || dF e.raw 20 0 17 % 900 != 0) = true then
      badDesc s.dev r e.uid s.sn (20, 1)
    else take (onPm s.dev fun p => { p with
      anchor := some ((fixTarget s.dev s.sn true (BitVec.ofNat 32 (dF e.raw 16 0 32))).1, dF e.raw 20 0 17, r.val, e.uid,
        (fixTarget s.dev s.sn true (BitVec.ofNat 32 (dF e.raw 16 0 32))).2) }) r e.uid := by
  have hprob := firstProb_of_clean hres (decide (86399 < dF e.raw 20 0 17) || dF e.raw 20 0 17 % 900 != 0) 20 1
  unfold servePmAlign
  rw [he]
  dsimp only
  rw [hfree, hprob]
  cases (decide (86399 < dF e.raw 20 0 17) || dF e.raw 20 0 17 % 900 != 0) <;> rfl

theorem pmAlign_takes (hlast : dF e.raw 20 0 17 ≤ 86399) (hquarter : dF e.raw 20 0 17 % 900 = 0) :
    Acts [.hif, .pm] (.pmAlign r) s fun t => Taken s.dev t.dev r e.uid ∧
      (acceptable s.dev s.sn (BitVec.ofNat 32 (dF e.raw 16 0 32)) = true →
        t.dev.pm.anchor = some (BitVec.ofNat 32 (dF e.raw 16 0 32), dF e.raw 20 0 17, r.val, e.uid, false)) ∧
      (acceptable s.dev s.sn (BitVec.ofNat 32 (dF e.raw 16 0 32)) = false →
        t.dev.pm.anchor = some (earliest s.dev s.sn, dF e.raw 20 0 17, r.val, e.uid, true)) := by
  have heq := (servePmAlign_eq he hres hfree).trans (if_neg (by
    rw [hquarter, decide_eq_false (show ¬ 86399 < dF e.raw 20 0 17 by omega)]
    decide))
  obtain ⟨x, hx⟩ : ∃ x, x = fixTarget s.dev s.sn true (BitVec.ofNat 32 (dF e.raw 16 0 32)) := ⟨_, rfl⟩
  rw [← hx] at heq
  obtain ⟨m, hm⟩ : ∃ m, m = onPm s.dev fun p => { p with anchor := some (x.1, dF e.raw 20 0 17, r.val, e.uid, x.2) } := ⟨_, rfl⟩
  have hanchor : m.pm.anchor = some (x.1, dF e.raw 20 0 17, r.val, e.uid, x.2) := by rw [hm]; rfl
  have hhif : m.hif = s.dev.hif := by rw [hm]; rfl
  have hframe : Within [] [.hif, .pm] s.dev m := hm ▸ (Within.refl _ _ s.dev).only (only_pm s.dev _)
  rw [← hm] at heq
  refine hframe.take.acts (exec_of_core (g := servePmAlign r s.sn) rfl hcore heq)
    ⟨(taken_take m r e.uid).of_hif hhif rfl, fun hgood => ?_, fun hlate => ?_⟩
  · refine hanchor.trans ?_
    rw [hx, fixTarget, if_pos rfl, if_pos hgood]
  · refine hanchor.trans ?_
    rw [hx, fixTarget, if_pos rfl, if_neg (by rw [hlate]; decide)]

theorem pmAlign_refused (h : 86399 < dF e.raw 20 0 17 ∨ dF e.raw 20 0 17 % 900 ≠ 0) :
    Acts [.hif] (.pmAlign r) s fun t => Served s.dev t.dev r e.uid 0x12 (20 + 256 * 1) s.sn 0 := by
  have heq := (servePmAlign_eq he hres hfree).trans (if_pos (by simpa using h))
  exact (Within.of_only (only_finish s.dev r e.uid stBadDesc (probDetail (20, 1)) s.sn 0)).acts
    (exec_of_core (g := servePmAlign r s.sn) rfl hcore heq) (served_badDesc _ _ _ _ (20, 1))

end

/-- The second that is open as the anchor sweep opens. -/
def anchorClosed (a : SN) (tod : Nat) (sn : SN) (d : Dev) : Dev :=
  let cur := rd d F.PMN_TIME_SEC_OF_DAY
  let day := rd d F.PMN_DAY_DAY
  let atEnd := a == secStop d
  let nx := nextTime cur day
  if atEnd && nx.1 == tod then secondEnd a nx.1 nx.2 none sn d
  else if a = d.pm.secStart ∧ cur = tod then d
  else secondEnd a tod day (some (atEnd && nx.1 % 900 == 0, atEnd && nx.1 == 0)) sn d

/-- It ends with the anchor's second of day to come. -/
theorem anchorClosed_spec (a : SN) (tod : Nat) (sn : SN) (d : Dev) : Within dayRegs [.regs, .hif, .pm] d (anchorClosed a tod sn d) ∧
    RaisesOnly d (anchorClosed a tod sn d) ∧ rd (anchorClosed a tod sn d) F.PMN_TIME_SEC_OF_DAY = tod % 2 ^ 17 := by
  unfold anchorClosed
  extract_lets cur day atEnd nx
  split
  case isTrue h =>
    have hended := secondEnd_ends a nx.1 nx.2 none sn d
    have htod : nx.1 = tod := beq_iff_eq.mp (Bool.and_eq_true_iff.mp h).2
    exact ⟨hended.frame, hended.raises, htod ▸ hended.todAfter⟩
  case isFalse =>
    split
    case isTrue h => exact ⟨.refl _ _ d, .refl d, by rw [← h.2]; exact (Nat.mod_eq_of_lt (rd_lt d F.PMN_TIME_SEC_OF_DAY 0)).symm⟩
    case isFalse =>
      have hended := secondEnd_ends a tod day (some (atEnd && nx.1 % 900 == 0, atEnd && nx.1 == 0)) sn d
      exact ⟨hended.frame, hended.raises, hended.todAfter⟩

/-- The anchor applies. -/
def anchorSet (a : SN) (d : Dev) : Dev :=
  onPm (wrB d F.PMN_STATUS_ALIGNED 0 true) fun p => { p with anchor := none, acc := 9, secLen := 610351, secStart := a }

theorem pmAligned_aligns {s : State} {a : SN} {d q uid : Nat} {late : Bool} (hcore : s.dev.pwr.core = true)
    (hanchor : s.dev.pm.anchor = some (a, d, q, uid, late)) (hdue : snDue a s.sn = true) :
    ActsR (F.PMN_STATUS_ALIGNED.addr 0 :: dayRegs) [.hif, .pm] .pmAligned s fun t =>
      rd t.dev F.PMN_STATUS_ALIGNED = 1 ∧ t.dev.pm.anchor = none ∧ t.dev.pm.acc = 9 ∧ t.dev.pm.secLen = 610351 ∧
      t.dev.pm.secStart = a ∧ rd t.dev F.PMN_TIME_SEC_OF_DAY = d % 2 ^ 17 ∧
      { typ := 0xA2, sn := s.sn, sb := s.dev.twin.role == .standby, p0 := a.toNat, p1 := d : Ev } ∈ t.dev.hif.evq ∧
      Served s.dev t.dev q uid (if late = true then 1 else 0) 0 a 0 := by
  have heq : pmAligned s.sn s.dev = finish (raise (anchorSet a (anchorClosed a d s.sn s.dev)) { typ := 0xA2, sn := s.sn, p0 := a.toNat, p1 := d })
      q uid (if late then stLate else stOk) 0 a := by
    unfold pmAligned
    rw [hanchor]
    dsimp only
    rw [hdue]
    rfl
  obtain ⟨hframe, hraises, htod⟩ := anchorClosed_spec a d s.sn s.dev
  generalize anchorClosed a d s.sn s.dev = m at *
  have htwin : m.twin = s.dev.twin := hframe.parts .twin (by simp)
  have haligned : Within (F.PMN_STATUS_ALIGNED.addr 0 :: dayRegs) [.regs, .hif, .pm] s.dev (anchorSet a m) :=
    (hframe.mono (as := F.PMN_STATUS_ALIGNED.addr 0 :: dayRegs)).wrB.only (only_pm _ _)
  have hone : rd (anchorSet a m) F.PMN_STATUS_ALIGNED = 1 := rd_wrB_bit (f := F.PMN_STATUS_ALIGNED) m (by decide) true
  have htime : rd (anchorSet a m) F.PMN_TIME_SEC_OF_DAY = d % 2 ^ 17 := (rd_wrB_parted m (f := F.PMN_STATUS_ALIGNED) (by decide)).trans htod
  have hpm : (anchorSet a m).pm = { m.pm with anchor := none, acc := 9, secLen := 610351, secStart := a } := rfl
  have hhif : (anchorSet a m).hif = m.hif := rfl
  have hrole : (anchorSet a m).twin = m.twin := rfl
  generalize anchorSet a m = n at *
  have hrings : n.hif.rings = s.dev.hif.rings := by
    obtain ⟨es, hes⟩ := hraises
    rw [hhif, hes]
  have hserved := served_finish (raise n { typ := 0xA2, sn := s.sn, p0 := a.toNat, p1 := d }) q uid (if late then stLate else stOk) 0 a 0
  have hanchorAfter : n.pm.anchor = none := by rw [hpm]
  have hacc : n.pm.acc = 9 := by rw [hpm]
  have hlen : n.pm.secLen = 610351 := by rw [hpm]
  have hstart : n.pm.secStart = a := by rw [hpm]
  refine haligned.raise.finish.actsR (exec_of_core (g := pmAligned s.sn) rfl hcore heq)
    ⟨hone, hanchorAfter, hacc, hlen, hstart, htime, ?_, hserved.of_rings hrings rfl⟩
  refine List.mem_append_right _ (List.mem_singleton.mpr ?_)
  rw [hrole, htwin]

/-! ### The legacy page (R439) -/

/-- Words written one after the other. -/
def storeWords (a : Nat) (l : List Nat) (d : Dev) : Dev :=
  l.zipIdx.foldl (fun d x => wrWord d (a + 4 * x.2) (BitVec.ofNat 32 x.1)) d

theorem rdWord_storeWords_other {a b : Nat} {l : List Nat} (d : Dev) (h : ∀ k < l.length, b ≠ a + 4 * k) : rdWord (storeWords a l d) b = rdWord d b := by
  refine List.foldlRecOn (motive := fun m => rdWord m b = rdWord d b) _ _ rfl fun m hm x hx => ?_
  have hlt : x.2 < l.length := by simpa using List.snd_lt_of_mem_zipIdx hx
  rw [rdWord_wrWord_ne _ _ (h _ hlt), hm]

theorem rdWord_storeWords_at {a k : Nat} {l : List Nat} (d : Dev) (hk : k < l.length) : rdWord (storeWords a l d) (a + 4 * k) = BitVec.ofNat 32 l[k] := by
  have hfold := (foldl_zipIdx_obs (step := fun (d : Dev) x => wrWord d (a + 4 * x.2) (BitVec.ofNat 32 x.1)) (obs := fun d => rdWord d (a + 4 * k))
    (upd := fun x _ => BitVec.ofNat 32 x) (I := fun _ => True) (j := k) (n := l.length) (fun _ _ h => h)
    (fun m x _ => rdWord_wrWord_same _ _ _) (fun m x i _ _ hne => rdWord_wrWord_ne _ _ (by omega)) (le_refl l.length) (s := d) trivial).1
  rw [List.getElem?_eq_getElem hk] at hfold
  exact hfold

theorem storeWords_pm (a : Nat) (l : List Nat) (d : Dev) : (storeWords a l d).pm = d.pm := by
  unfold storeWords
  exact foldl_same (g := Dev.pm) (f := fun (d : Dev) (x : Nat × Nat) => wrWord d (a + 4 * x.2) (BitVec.ofNat 32 x.1)) (fun _ _ => rfl) _ _

theorem within_storeWords {as : List Nat} {a : Nat} {l : List Nat} (d : Dev) (h : ∀ k < l.length, a + 4 * k ∈ as) :
    Within as [.regs] d (storeWords a l d) := by
  refine Within.foldl (fun m x hx => ?_) d
  have hlt : x.2 < l.length := by simpa using List.snd_lt_of_mem_zipIdx hx
  have hone : Within [a + 4 * x.2] [.regs] m (wrWord m (a + 4 * x.2) (BitVec.ofNat 32 x.1)) := (evals_wrWord _ _ _).within
  exact hone.mono (List.cons_subset.mpr ⟨h _ hlt, List.nil_subset _⟩) (List.Subset.refl _)

/-- The page's address, and that of a lane's entry. -/
abbrev pageBase : Nat := 0x2402000
abbrev laneEntry (n : Nat) : Nat := pageBase + 0x40 + 0x20 * n

/-- The words of the page. -/
abbrev pageRegs : List Nat := (List.range 5).map (pageBase + 4 * ·) ++ (List.range 1024).map (pageBase + 0x40 + 4 * ·)

/-- The lanes' entries written. -/
def storeLanes (ls : List (List Nat)) (d : Dev) : Dev := ls.zipIdx.foldl (fun d l => storeWords (laneEntry l.2) l.1 d) d

theorem storeLanes_map (f : Nat → List Nat) (n : Nat) (d : Dev) :
    storeLanes ((List.range n).map f) d = (List.range n).foldl (fun d k => storeWords (laneEntry k) (f k) d) d := by
  have hzip : ((List.range n).map f).zipIdx = (List.range n).map fun k => (f k, k) := by
    refine List.ext_getElem (by simp) fun i h1 h2 => ?_
    simp
  unfold storeLanes
  rw [hzip, List.foldl_map]

section
variable {f : Nat → List Nat} (hlen : ∀ k, (f k).length = 8) (d : Dev)
include hlen

omit hlen in
theorem rdWord_storeLanes_head {b : Nat} (hb : b < laneEntry 0) (n : Nat) : rdWord (storeLanes ((List.range n).map f) d) b = rdWord d b := by
  rw [storeLanes_map]
  exact foldl_same (g := fun m => rdWord m b) (fun m k => rdWord_storeWords_other m fun i _ => by unfold laneEntry at *; omega) _ d

theorem rdWord_storeLanes_lane {n k : Nat} (hn : n < 128) (hk : k < 8) :
    rdWord (storeLanes ((List.range 128).map f) d) (laneEntry n + 4 * k) = BitVec.ofNat 32 ((f n)[k]'(by rw [hlen]; exact hk)) := by
  rw [storeLanes_map]
  obtain ⟨m, -, hm⟩ := foldl_at (g := fun d k => storeWords (laneEntry k) (f k) d) (fun d => rdWord d (laneEntry n + 4 * k)) List.nodup_range
    (List.mem_range.mpr hn) (fun d p _ hne => rdWord_storeWords_other d fun i hi => by rw [hlen] at hi; unfold laneEntry; omega) d
  exact hm.trans (rdWord_storeWords_at m (by rw [hlen]; exact hk))

theorem within_storeLanes : Within pageRegs [.regs] d (storeLanes ((List.range 128).map f) d) := by
  rw [storeLanes_map]
  refine Within.foldl (fun m k hk => within_storeWords m fun i hi => ?_) d
  rw [hlen] at hi
  have hk128 := List.mem_range.mp hk
  refine List.mem_append_right _ (List.mem_map.mpr ⟨8 * k + i, List.mem_range.mpr (by omega), ?_⟩)
  unfold laneEntry
  omega

end

/-- The entry of a lane after a second: its words. -/
def laneWords (d : Dev) (x : Second) (n : Nat) : List Nat := (legacyLane d x n).1

theorem laneWords_length (d : Dev) (x : Second) (n : Nat) : (laneWords d x n).length = 8 := by
  unfold laneWords legacyLane
  extract_lets
  split <;> rfl

theorem laneWords_off {d : Dev} {n : Nat} (hoff : rd d F.LNE_CTL_RX_EN n = 0) (x : Second) : laneWords d x n = [0, 0, 0, 0, 0, 0, 0, 0] := by
  have hoff' : rdB d F.LNE_CTL_RX_EN n = false := rdB_of_bit.1 hoff
  unfold laneWords legacyLane
  extract_lets
  rw [hoff']
  rfl

/-- What counts at an index. -/
def tally (i : Nat) (l : List (Nat × Nat)) : Nat := l.foldl (fun a e => if e.1 = i then a + e.2 else a) 0

theorem tally_append_other {i : Nat} {l m : List (Nat × Nat)} (h : ∀ e ∈ m, e.1 ≠ i) : tally i (l ++ m) = tally i l := by
  unfold tally
  rw [List.foldl_append]
  exact List.foldlRecOn (motive := fun a => a = _) _ _ rfl fun a ha e he => (if_neg (h e he)).trans ha

/-- A lane's classes of seconds stand at indices of their own. -/
theorem secCounts_lane (d : Dev) (x : Second) (o : PmObj) (n : Nat) : ∃ m, (secCounts d x o 1 n).1 =
    (plainIdx 1).map (fun i => (i, incOf x o 1 n i)) ++ m ∧ ∀ e ∈ m, e.1 ∈ [1, 2, 3, 5, 6, 7, 11] := by
  have hone (b : Bool) (i : Nat) (hi : i ∈ [1, 2, 3, 5, 6, 7, 11]) : ∀ e ∈ (if b then [(i, 1)] else []), e.1 ∈ [1, 2, 3, 5, 6, 7, 11] := by
    intro e he
    split at he
    · rw [List.mem_singleton.mp he]
      exact hi
    · exact nomatch he
  unfold secCounts
  extract_lets inc plain s bit e f near k one cls av
  rw [if_neg (by decide), if_pos rfl]
  have hcls : ∀ e ∈ cls, e.1 ∈ [1, 2, 3, 5, 6, 7, 11] := List.forall_mem_append.mpr
    ⟨List.forall_mem_append.mpr ⟨hone _ 1 (by decide), hone _ 2 (by decide)⟩, hone _ 3 (by decide)⟩
  simp only [List.append_assoc]
  exact ⟨_, rfl, List.forall_mem_append.mpr ⟨hcls, List.forall_mem_append.mpr ⟨hone _ 5 (by decide), List.forall_mem_append.mpr
    ⟨hone _ 6 (by decide), List.forall_mem_append.mpr ⟨hone _ 7 (by decide), hone _ 11 (by decide)⟩⟩⟩⟩⟩

/-- What counts for a lane at an index of its running counters. -/
theorem tally_lane (d : Dev) (x : Second) (th : Nat) (av : Avail) (n : Nat) {i : Nat} (hi : i ∈ [0, 4, 8, 9, 13]) :
    tally i (secCounts d x { sesTh := th, av := av } 1 n).1 = tget 0 x.inc (cntKey 1 n i) := by
  obtain ⟨m, hm, hother⟩ := secCounts_lane d x { sesTh := th, av := av } n
  have hinc (j : Nat) : incOf x { sesTh := th, av := av } 1 n j = tget 0 x.inc (cntKey 1 n j) := by
    unfold incOf
    dsimp only
    rw [show tget 0 ([] : Tbl Nat) j = 0 from rfl, ite_self, Nat.sub_zero]
  have hplain : ∀ e ∈ m, e.1 ≠ i := by
    rintro e he rfl
    have := hother e he
    simp only [List.mem_cons, List.not_mem_nil, or_false] at this hi
    omega
  rw [hm, tally_append_other hplain]
  simp only [hinc]
  simp only [List.mem_cons, List.not_mem_nil, or_false] at hi
  rcases hi with rfl | rfl | rfl | rfl | rfl <;> simp [tally, plainIdx]

theorem laneWords_glf {d : Dev} {n : Nat} (hon : rd d F.LNE_CTL_RX_EN n = 1) (hglf : isGlf (persOf d n) = true) (x : Second) :
    ∃ a b, laneWords d x n = [tget 0 x.inc (cntKey 1 n 0) % 2 ^ 32, tget 0 x.inc (cntKey 1 n 4) % 2 ^ 32, tget 0 x.inc (cntKey 1 n 8) % 2 ^ 32,
      tget 0 x.inc (cntKey 1 n 9) % 2 ^ 32, a, b, tget 0 x.inc (cntKey 1 n 13) % 2 ^ 32, 0] := by
  have hon' : rdB d F.LNE_CTL_RX_EN n = true := rdB_of_bit.2 hon
  have hkey : legacyKey d n = (1, n) := if_pos hglf
  unfold laneWords legacyLane
  extract_lets k th c v glf s es fl fec
  have hk : k = (1, n) := hkey
  have hg : glf = true := by
    change (k.1 == 1) = true
    rw [hk]
    rfl
  have hv (i : Nat) (hi : i ∈ [0, 4, 8, 9, 13]) : v i = tget 0 x.inc (cntKey 1 n i) % 2 ^ 32 := by
    change tally i (secCounts d x { sesTh := th, av := tget {} d.pm.leg n } k.1 k.2).1 % 2 ^ 32 = _
    rw [hk, tally_lane _ _ _ _ _ hi]
  have hfec : fec = (v 8, v 9) := if_pos hg
  rw [hon', hfec, hg]
  refine ⟨fl + 64 * x.conds.getD n 0, s / 256 % 1024, ?_⟩
  rw [← hv 0 (by decide), ← hv 4 (by decide), ← hv 8 (by decide), ← hv 9 (by decide), ← hv 13 (by decide)]
  rfl

/-! #### LEGACY_PAGE_UPDATE -/

/-- The page of a second as it is written. -/
def pageWritten (x : Second) (d : Dev) (m : Dev) : Dev :=
  onPm (storeLanes ((List.range 128).map (laneWords d x))
    (storeWords pageBase [(rdWord m pageBase + 2).toNat, x.start.toNat, x.tod, x.day, 1] m)) fun p => { p with page := none }

theorem foldSecond_page (sn : SN) (d : Dev) (x : Second) :
    (foldSecond false sn d x).pm.page = some (x.start, x.tod, x.day, false, (List.range 128).map (laneWords d x)) := by
  have hpage : (foldSecond false sn d x).pm.page = some (x.start, x.tod, x.day, false,
      ((List.range 128).map fun n => (n, legacyLane d x n)).map fun e => e.2.1) := rfl
  rw [hpage, List.map_map]
  rfl

theorem legacyPage_eq {d : Dev} {x : Second} (hruns : core1Runs d = true) (hqueue : d.pm.queue = [x]) (sn : SN) :
    legacyPage sn d = pageWritten x (unqueued d) (foldSecond false sn (unqueued d) x) := by
  have hfold : foldQueue sn d = foldSecond false sn (unqueued d) x := by rw [foldQueue_folds hruns, hqueue]; rfl
  have hpage := foldSecond_page sn (unqueued d) x
  unfold legacyPage
  rw [if_neg (by rw [hruns]; decide), hfold]
  dsimp only
  rw [hpage]
  rfl

/-- What the page shows of a second. -/
structure PageShows (x : Second) (a b : Dev) : Prop where
  frame : Within pageRegs [.regs, .hif, .pm] a b
  queue : b.pm.queue = []
  page : b.pm.page = none
  seq : rdWord b pageBase = rdWord a pageBase + 2
  start : rdWord b (pageBase + 4) = x.start
  tod : rdWord b (pageBase + 8) = BitVec.ofNat 32 x.tod
  day : rdWord b (pageBase + 12) = BitVec.ofNat 32 x.day
  flags : rdWord b (pageBase + 16) = 1
  lanes : ∀ n : Fin 128, ∀ i : Fin 8, rdWord b (laneEntry n + 4 * i.val) =
    BitVec.ofNat 32 ((laneWords (unqueued a) x n.val)[i.val]'(by rw [laneWords_length]; exact i.isLt))

theorem legacyPage_shows {d : Dev} {x : Second} (hruns : core1Runs d = true) (hqueue : d.pm.queue = [x]) (sn : SN) :
    PageShows x d (legacyPage sn d) := by
  have hfolded := folded_foldSecond false sn (unqueued d) x
  have hempty : Within [] [.hif, .pm] d (unqueued d) := (Within.refl _ _ d).only (only_pm d _)
  have hm := hempty.trans hfolded.frame
  have hmq : (foldSecond false sn (unqueued d) x).pm.queue = [] := congrArg Pm.queue hfolded.pm
  have hseq : rdWord (foldSecond false sn (unqueued d) x) pageBase = rdWord d pageBase := hm.regs _ (List.not_mem_nil)
  rw [legacyPage_eq hruns hqueue]
  unfold pageWritten
  rw [hseq]
  generalize foldSecond false sn (unqueued d) x = m at *
  obtain ⟨h, hh⟩ : ∃ h, h = storeWords pageBase [(rdWord d pageBase + 2).toNat, x.start.toNat, x.tod, x.day, 1] m := ⟨_, rfl⟩
  have hhead (k : Nat) (hk : k < 5) : rdWord h (pageBase + 4 * k) =
      BitVec.ofNat 32 ([(rdWord d pageBase + 2).toNat, x.start.toNat, x.tod, x.day, 1][k]'hk) := by
    rw [hh]
    exact rdWord_storeWords_at m hk
  have hwithin : Within pageRegs [.regs, .hif, .pm] m h := by
    rw [hh]
    refine (within_storeWords m fun k hk => ?_).mono (List.Subset.refl _)
    exact List.mem_append_left _ (List.mem_map.mpr ⟨k, List.mem_range.mpr hk, rfl⟩)
  have hpm : h.pm = m.pm := by
    rw [hh]
    exact storeWords_pm _ _ _
  rw [← hh]
  obtain ⟨t, ht⟩ : ∃ t, t = storeLanes ((List.range 128).map (laneWords (unqueued d) x)) h := ⟨_, rfl⟩
  have hlanes (n : Fin 128) (i : Fin 8) : rdWord t (laneEntry n + 4 * i.val) =
      BitVec.ofNat 32 ((laneWords (unqueued d) x n.val)[i.val]'(by rw [laneWords_length]; exact i.isLt)) := by
    rw [ht]
    exact rdWord_storeLanes_lane (laneWords_length _ x) h n.isLt i.isLt
  have hkept (k : Nat) (hk : k < 5) : rdWord t (pageBase + 4 * k) = rdWord h (pageBase + 4 * k) := by
    rw [ht]
    exact rdWord_storeLanes_head h (by unfold laneEntry; omega) 128
  have hlaneFrame : Within pageRegs [.regs] h t := ht ▸ within_storeLanes (laneWords_length (unqueued d) x) h
  have htw : Within pageRegs [.regs, .hif, .pm] h t := hlaneFrame.mono (List.Subset.refl _)
  have htpm : t.pm = h.pm := hlaneFrame.parts .pm (by simp)
  rw [← ht]
  have hframe : Within pageRegs [.regs, .hif, .pm] d t := ((hm.mono).trans hwithin).trans htw
  have hqueueAfter : t.pm.queue = [] := by rw [htpm, hpm, hmq]
  have hsame (w : W32) : BitVec.ofNat 32 w.toNat = w := by simp
  have hword (k : Nat) (hk : k < 5) := (hkept k hk).trans (hhead k hk)
  exact ⟨hframe.only (only_pm t _), hqueueAfter, rfl, (hword 0 (by decide)).trans (hsame _), (hword 1 (by decide)).trans (hsame _),
    hword 2 (by decide), hword 3 (by decide), hword 4 (by decide), hlanes⟩

/-- Settles O49: seconds, anchors and the legacy page, with what core 1 folds on the way. -/
theorem pmSecondsAndAnchors : Obligations.PmSecondsAndAnchors := by
  intro s r e hcore
  refine ⟨pmSecond_passes hcore, pmSecond_rests, fun n x rest old hqueue hhead hlen hold => hlen ▸ pmSecLost_loses hcore hqueue hhead hold,
    fun he hres hfree => ⟨pmAlign_takes hcore he hres hfree, pmAlign_refused hcore he hres hfree⟩,
    fun a d q uid late hanchor hdue => pmAligned_aligns hcore hanchor hdue, fun x hruns hqueue => ?_⟩
  have hshows := legacyPage_shows hruns hqueue s.sn
  obtain ⟨t, ht⟩ : ∃ t, t = legacyPage s.sn s.dev := ⟨_, rfl⟩
  rw [← ht] at hshows
  refine hshows.frame.actsR (exec_of_core (g := legacyPage s.sn) rfl hcore ht.symm)
    ⟨hshows.queue, hshows.page, hshows.seq, hshows.start, hshows.tod, hshows.day, hshows.flags, fun n => ⟨fun hoff i => ?_, fun hon hglf => ?_⟩⟩
  · refine (hshows.lanes n i).trans ?_
    simp only [laneWords_off (d := unqueued s.dev) hoff x]
    fin_cases i <;> rfl
  · obtain ⟨a, b, hwords⟩ := laneWords_glf (d := unqueued s.dev) hon hglf x
    have hlane := hshows.lanes n
    simp only [hwords] at hlane
    have hmod (v : Nat) : BitVec.ofNat 32 (v % 2 ^ 32) = BitVec.ofNat 32 v := BitVec.eq_of_toNat_eq (by simp)
    exact ⟨(hlane 0).trans (hmod _), (hlane 1).trans (hmod _), (hlane 2).trans (hmod _), (hlane 3).trans (hmod _), (hlane 6).trans (hmod _)⟩

end Sys2Proof.Machine
end

