-- ==== Sys2Proof/Proofs/DataChannels.lean ====
section
/-! PROOFS. The management data channels: routes, bursts, MCX and MCT (R347, R440 to R444). -/

namespace Sys2Proof.Machine

-- In order: a default argument `by simp` waits for every declaration before it, and many that wait take many threads.
set_option Elab.async false

/-! ### The state of a channel -/

section
variable (d : Dev) (c : Nat) (f : Chan → Chan)

@[simp] theorem chanOf_modChan_same : chanOf (modChan d c f) c = f (chanOf d c) := tget_tput_same _ _ _ _

theorem chanOf_modChan_ne {k : Nat} (h : k ≠ c) : chanOf (modChan d c f) k = chanOf d k := tget_tput_ne _ _ _ h

theorem only_modChan : Only [.chans] d (modChan d c f) := (evals_modChan d c f).parts

theorem chanOf_congr {a b : Dev} (h : b.chans = a.chans) (k : Nat) : chanOf b k = chanOf a k := by rw [chanOf, h]; rfl

end

theorem Within.modChan {as : List Nat} {ps : List Part} {a b : Dev} {c : Nat} {f : Chan → Chan} (h : Within as ps a b)
    (hps : Part.chans ∈ ps := by simp) : Within as ps a (modChan b c f) :=
  h.evals (evals_modChan b c f) (List.nil_subset _) (by simpa using hps)

/-! ### MDC_ROUTE (R440) -/

/-- The problems of an MDC_ROUTE descriptor. -/
def routeProbs (d : Dev) (raw : BitVec 512) : List Prob :=
  let c := dF raw 16 0 8
  let tx := dB raw 16 8
  let dest := dF raw 20 0 5
  reservedProb raw ++ probIf (decide (16 < dest ∧ dest ≠ 31)) 20 1 ++
    (if dest = 31 then [] else probIf (!chanHere d c) 16 7) ++
    (if dest < 16 then probIf (portTaken d c dest tx) 20 4 ++ probIf (portTaken d c dest (!tx) || !chanFits d c dest) 20 7 else [])

/-- The channel with the route that the descriptor asks for. -/
def rerouted (raw : BitVec 512) (x : Chan) : Chan :=
  if dB raw 16 8 = true then { x with txNext := some (dF raw 20 0 5) } else { x with rxNext := some (dF raw 20 0 5) }

section
variable {s : State} {r : Fin 16} {e : QEnt} (he : servedBy s.dev r 0x50 = some e)
include he

theorem serveMdcRoute_eq : serveMdcRoute r s.sn s.dev = match firstProb (routeProbs s.dev e.raw) with
    | some p => badDesc s.dev r e.uid s.sn p
    | none => finishM (modChan s.dev (dF e.raw 16 0 8) (rerouted e.raw)) r e.uid e.raw stOk 0 (s.sn + 1) := by
  unfold serveMdcRoute
  rw [he]
  rfl

variable (hcore : s.dev.pwr.core = true)
include hcore

theorem mdcRoute_refused {p : Prob} (hp : firstProb (routeProbs s.dev e.raw) = some p) :
    Acts [.hif] (.mdcRoute r) s fun t => Served s.dev t.dev r e.uid 0x12 (probDetail p) s.sn 0 := by
  have heq := serveMdcRoute_eq he
  rw [hp] at heq
  exact (Within.of_only (only_finish s.dev r e.uid stBadDesc (probDetail p) s.sn 0)).acts
    (exec_of_core (g := serveMdcRoute r s.sn) rfl hcore heq) (served_badDesc _ _ _ _ p)

omit he hcore in
/-- What a mirrored descriptor leaves: it waits for the twin's acknowledgement, or is complete. -/
theorem finishM_spec (d : Dev) (r uid : Nat) (raw : BitVec 512) (sn : SN) :
    Within [] [.hif, .twin, .out] d (finishM d r uid raw stOk 0 sn) ∧
    (mirrors d = false → Served d (finishM d r uid raw stOk 0 sn) r uid 0 0 sn 0) ∧
    (mirrors d = true → Taken d (finishM d r uid raw stOk 0 sn) r uid) := by
  unfold finishM
  split
  next h =>
    extract_lets n w m
    refine ⟨(((Within.refl _ _ d).only (only_twin d _)).evals (evals_twinSend m _ _)).take, fun hn => ?_, fun _ => ?_⟩
    · rw [h] at hn
      exact absurd hn (by decide)
    · exact (taken_take _ r uid).of_hif (twinSend_hif m _ _) rfl
  next h =>
    exact ⟨(Within.refl _ _ d).finish, fun _ => served_finish _ _ _ _ _ _ _, fun ht => absurd ht h⟩

theorem mdcRoute_routes (hp : firstProb (routeProbs s.dev e.raw) = none) :
    Acts [.hif, .chans, .twin, .out] (.mdcRoute r) s fun t =>
      (mirrors s.dev = false → Served s.dev t.dev r e.uid 0 0 (s.sn + 1) 0) ∧
      (mirrors s.dev = true → Taken s.dev t.dev r e.uid) ∧
      chanOf t.dev (dF e.raw 16 0 8) = rerouted e.raw (chanOf s.dev (dF e.raw 16 0 8)) ∧
      ∀ k, k ≠ dF e.raw 16 0 8 → chanOf t.dev k = chanOf s.dev k := by
  have heq := serveMdcRoute_eq he
  rw [hp] at heq
  dsimp only at heq
  obtain ⟨m, hm⟩ : ∃ m, m = modChan s.dev (dF e.raw 16 0 8) (rerouted e.raw) := ⟨_, rfl⟩
  have hmirror : mirrors m = mirrors s.dev := by rw [hm]; rfl
  have hhif : m.hif = s.dev.hif := by rw [hm]; rfl
  have hframe : Within [] [.hif, .chans, .twin, .out] s.dev m := hm ▸ (Within.refl _ _ s.dev).modChan
  have hsame : chanOf m (dF e.raw 16 0 8) = rerouted e.raw (chanOf s.dev (dF e.raw 16 0 8)) := by rw [hm, chanOf_modChan_same]
  have hother : ∀ k, k ≠ dF e.raw 16 0 8 → chanOf m k = chanOf s.dev k := fun k hk => by rw [hm, chanOf_modChan_ne _ _ _ hk]
  rw [← hm] at heq
  obtain ⟨hdone, hserved, htaken⟩ := finishM_spec m r e.uid e.raw (s.sn + 1)
  generalize finishM m r e.uid e.raw stOk 0 (s.sn + 1) = t at *
  have hchans : t.chans = m.chans := hdone.parts .chans (by simp)
  refine (hframe.next hdone).acts (exec_of_core (g := serveMdcRoute r s.sn) rfl hcore heq) ⟨fun h => ?_, fun h => ?_, ?_, fun k hk => ?_⟩
  · exact (hserved (hmirror.trans h)).of_hif hhif rfl
  · exact (htaken (hmirror.trans h)).of_hif hhif rfl
  · exact (chanOf_congr hchans _).trans hsame
  · exact (chanOf_congr hchans k).trans (hother k hk)

end

/-! #### The problems, one by one -/

section
variable {d : Dev} {raw : BitVec 512} (hres : reservedAt raw = none)
include hres

theorem routeProbs_unrouted (h : dF raw 20 0 5 = 31) : firstProb (routeProbs d raw) = none := by
  simp [routeProbs, reservedProb_of_none hres, h, probIf, firstProb]

theorem routeProbs_mct (h : dF raw 20 0 5 = 16) (hhere : chanHere d (dF raw 16 0 8) = true) : firstProb (routeProbs d raw) = none := by
  simp [routeProbs, reservedProb_of_none hres, h, hhere, probIf, firstProb]

theorem routeProbs_port (h : dF raw 20 0 5 < 16) : routeProbs d raw = probIf (!chanHere d (dF raw 16 0 8)) 16 7 ++
    (probIf (portTaken d (dF raw 16 0 8) (dF raw 20 0 5) (dB raw 16 8)) 20 4 ++
      probIf (portTaken d (dF raw 16 0 8) (dF raw 20 0 5) (!dB raw 16 8) || !chanFits d (dF raw 16 0 8) (dF raw 20 0 5)) 20 7) := by
  unfold routeProbs
  rw [reservedProb_of_none hres]
  dsimp only
  rw [if_neg (show dF raw 20 0 5 ≠ 31 by omega), if_pos h, decide_eq_false (show ¬ (16 < dF raw 20 0 5 ∧ dF raw 20 0 5 ≠ 31) by omega)]
  rfl

theorem routeProbs_absent (h : dF raw 20 0 5 ≤ 16) (hhere : chanHere d (dF raw 16 0 8) = false) :
    firstProb (routeProbs d raw) = some (16, 7) := by
  rcases Nat.lt_or_eq_of_le h with hlt | heq
  · rw [routeProbs_port hres hlt, hhere]
    refine firstProb_eq_some (List.mem_append_left _ (List.mem_singleton_self _)) ?_
    rw [← Prob.leads]
    simp [Prob.le]
  · simp [routeProbs, reservedProb_of_none hres, heq, hhere, probIf, firstProb]

end

/-! ### MSP_BURST (R442, R443) -/

/-- The queue for transmission once a word has been added, where there is room. -/
def pushed (q : List Word20) (w : Word20) : List Word20 := if q.length < 16 then q ++ [w] else q

theorem rdB_iff (d : Dev) {f : Fld} (hf : f.wd = 1) (i : Nat) : rdB d f i = true ↔ rd d f i = 1 := by
  have hlt := rd_lt d f i
  rw [hf] at hlt
  simp only [rdB, bne_iff_ne]
  omega

/-- The queue for transmission after a burst of a port, as the port is routed. -/
theorem pushed_routed {d : Dev} {f : Fld} (hf : f.wd = 1) {i : Nat} (q : List Word20) (w : Word20) :
    (if rdB d f i = true then pushed q w else q) = if rd d f i = 1 ∧ q.length < 16 then q ++ [w] else q := by
  by_cases h : rd d f i = 1 <;> simp [rdB_iff d hf, pushed, h]

theorem mdcPush_spec (d : Dev) (c : Nat) (w : Word20) :
    Within [F.PMN_CH_CNT_TX_DISC.addr c] [.regs, .chans] d (mdcPush d c w) ∧
    chanOf (mdcPush d c w) c = { chanOf d c with txq := pushed (chanOf d c).txq w } := by
  unfold mdcPush pushed
  split
  · exact ⟨(Within.refl _ _ d).modChan, chanOf_modChan_same _ _ _⟩
  · exact ⟨(Within.refl _ _ d).sat, rfl⟩

/-- The overflow of a port is shown and raised. -/
def ovfShown (port : Nat) (sn : SN) (dir : Nat) (d : Dev) : Dev :=
  wrB (raise d { typ := 0xA3, sn := sn, p0 := port, p1 := dir }) F.PMN_MSP_STATUS_OVF port true

/-- The word that a port's burst brings. -/
def burstIn (port c : Nat) (w : Word20) (sn : SN) (tx : Bool) (d : Dev) : Dev :=
  if !tx then d
  else if !decide ((chanOf d c).txq.length < 16) then ovfShown port sn 1 (mdcPush d c w) else mdcPush d c w

/-- What a burst writes: the overflow bit of its port, and the discarded words of its channel. -/
def burstRegs (port c : Nat) : List Nat := [F.PMN_MSP_STATUS_OVF.addr port, F.PMN_CH_CNT_TX_DISC.addr c]

/-- What a burst of a port, which brings the word `w`, does to the channel's queue for transmission. -/
structure BurstIn (port c : Nat) (w : Word20) (sn : SN) (tx : Bool) (a b : Dev) : Prop where
  frame : Within (burstRegs port c) [.regs, .chans, .hif] a b
  chan : chanOf b c = { chanOf a c with txq := if tx = true then pushed (chanOf a c).txq w else (chanOf a c).txq }
  full : tx = true → 16 ≤ (chanOf a c).txq.length → rd b F.PMN_MSP_STATUS_OVF port = 1 ∧
    Raised a b [{ typ := 0xA3, sn := sn, p0 := port, p1 := 1 }]

theorem burstIn_spec (port c : Nat) (w : Word20) (sn : SN) (tx : Bool) (d : Dev) : BurstIn port c w sn tx d (burstIn port c w sn tx d) := by
  unfold burstIn
  cases tx with
  | false => exact ⟨.refl _ _ d, rfl, nofun⟩
  | true =>
    obtain ⟨hframe, hchan⟩ := mdcPush_spec d c w
    generalize mdcPush d c w = m at *
    have hwide : Within (burstRegs port c) [.regs, .chans, .hif] d m := hframe.mono (by simp [burstRegs])
    rw [if_neg (by decide)]
    split
    next hfull =>
      have hhif : m.hif = d.hif := hframe.parts .hif (by simp)
      have htwin : m.twin = d.twin := hframe.parts .twin (by simp)
      exact ⟨hwide.raise.wrB (by simp [burstRegs]), hchan,
        fun _ _ => ⟨rd_wr_same _ _ _ _ (by decide), (raised_raise m _).of_same (by rw [hhif]) (by rw [htwin]) rfl⟩⟩
    next hroom =>
      exact ⟨hwide, hchan, fun _ hlen => absurd hlen (by simpa using hroom)⟩

section
variable {s : State} {port : Fin 16} {w : Word20} (hcore : s.dev.pwr.core = true)
include hcore

/-- The burst sends the port's word, and takes the word that comes in. -/
theorem mspBurst_of {k : Nat} {tx : Bool} {out : Word20} {d : Dev} (hd : Within [] [.chans] s.dev d)
    (heq : mspBurst port w s.sn s.dev = burstIn port k w s.sn tx (emit d (.msp port out))) :
    ActsR (burstRegs port k) [.chans, .out, .hif] (.mspBurst port w) s fun t =>
      Sent s.dev t.dev [.msp port out] ∧ (chanOf t.dev k).rxq = (chanOf d k).rxq ∧
      (chanOf t.dev k).txq = (if tx = true then pushed (chanOf d k).txq w else (chanOf d k).txq) ∧
      (tx = true → 16 ≤ (chanOf d k).txq.length → rd t.dev F.PMN_MSP_STATUS_OVF port = 1 ∧
        Raised s.dev t.dev [{ typ := 0xA3, sn := s.sn, p0 := port.val, p1 := 1 }]) := by
  obtain ⟨hin, hchan, hfull⟩ := burstIn_spec port k w s.sn tx (emit d (.msp port out))
  have hframe : Within (burstRegs port k) [.regs, .chans, .out, .hif] s.dev (emit d (.msp port out)) := (hd.mono (List.nil_subset _)).emit
  have hout : d.out = s.dev.out := hd.parts .out (by simp)
  have hhif : d.hif = s.dev.hif := hd.parts .hif (by simp)
  have htwin : d.twin = s.dev.twin := hd.parts .twin (by simp)
  generalize burstIn port k w s.sn tx (emit d (.msp port out)) = t at *
  have hsent : t.out = (emit d (.msp port out)).out := hin.parts .out (by simp)
  refine (hframe.next hin).actsR (exec_of_core (g := mspBurst port w s.sn) rfl hcore heq)
    ⟨?_, by rw [hchan]; rfl, by rw [hchan]; rfl, fun htx hlen => ?_⟩
  · rw [Sent, hsent]
    exact congrArg (· ++ _) hout
  · obtain ⟨hovf, hraised⟩ := hfull htx hlen
    exact ⟨hovf, hraised.of_same (by rw [← hhif]; rfl) (by rw [← htwin]; rfl) rfl⟩

omit hcore in
/-- A burst of a port that delivers a received word. -/
theorem mspBurst_received (hrun : s.dev.prot.stopped = false) (hrx : rdB s.dev F.PMN_MSP_STATUS_RX_ROUTED port = true)
    {a : Word20 × Bool × SN} {q : List (Word20 × Bool × SN)}
    (hq : (chanOf s.dev (rd s.dev F.PMN_MSP_STATUS_CHAN port)).rxq = a :: q)
    (hloss : (chanOf s.dev (rd s.dev F.PMN_MSP_STATUS_CHAN port)).lossUp = false) :
    mspBurst port w s.sn s.dev = burstIn port (rd s.dev F.PMN_MSP_STATUS_CHAN port) w s.sn (rdB s.dev F.PMN_MSP_STATUS_TX_ROUTED port)
      (emit (modChan s.dev (rd s.dev F.PMN_MSP_STATUS_CHAN port) fun x => { x with rxq := q, lossUp := false }) (.msp port a.1)) := by
  unfold mspBurst
  rw [hrun, if_neg Bool.false_ne_true, hrx, if_pos rfl]
  dsimp only
  rw [hq]
  dsimp only
  rw [hloss, if_neg Bool.false_ne_true]
  rfl

omit hcore in
/-- A burst of a port that only transmits. -/
theorem mspBurst_transmits (hrun : s.dev.prot.stopped = false) (hrx : rdB s.dev F.PMN_MSP_STATUS_RX_ROUTED port = false)
    (htx : rdB s.dev F.PMN_MSP_STATUS_TX_ROUTED port = true) :
    mspBurst port w s.sn s.dev = burstIn port (rd s.dev F.PMN_MSP_STATUS_CHAN port) w s.sn (rdB s.dev F.PMN_MSP_STATUS_TX_ROUTED port)
      (emit s.dev (.msp port 0)) := by
  unfold mspBurst
  rw [hrun, if_neg Bool.false_ne_true, hrx, if_neg Bool.false_ne_true, htx, if_pos rfl]
  rfl

end

/-! ### MCX_RECORD_CLOSE (R347, R444) -/

/-- A field of one of the words that a record packs. -/
theorem record_subfield {k p j w : Nat} (ws : List Nat) (i : Nat) (hk : 8 * k ≤ 2048) (h : 32 * i + j + w ≤ 8 * k) (hj : j + w ≤ 32) :
    ((BitVec.ofNat 2048 (packWords ws ||| atByte k p)).extractLsb' (32 * i + j) w).toNat = ws.getD i 0 / 2 ^ j % 2 ^ w := by
  rw [record_field hk h]
  refine Nat.eq_of_testBit_eq fun n => ?_
  rw [Nat.testBit_mod_two_pow, Nat.testBit_mod_two_pow, Nat.testBit_div_two_pow, Nat.testBit_div_two_pow]
  by_cases hn : n < w
  · rw [Nat.add_comm n (32 * i + j), Nat.add_assoc, packWords_testBit ws i (show j + n < 32 by omega), Nat.add_comm n j]
  · simp [hn]

/-- A word of an MCX record, with its error flag. -/
def mcxWord (y : Word20 × Bool × SN) : Nat := y.1.toNat + 2 ^ 20 * y.2.1.toNat

theorem mcxWord_fields (y : Word20 × Bool × SN) : mcxWord y / 2 ^ 0 % 2 ^ 20 = y.1.toNat ∧ (mcxWord y).testBit 20 = y.2.1 := by
  obtain ⟨w, f, lsn⟩ := y
  have hlt := w.isLt
  refine ⟨?_, ?_⟩
  · cases f <;> simp [mcxWord] <;> omega
  · rw [Nat.testBit_eq_decide_div_mod_eq]
    cases f <;> simp [mcxWord] <;> omega

/-- The fields of an MCX record (Table 13-15). -/
structure McxFields (b : BitVec 2048) (c : BitVec 8) (ws : List (Word20 × Bool × SN)) : Prop where
  chan : b.extractLsb' 0 8 = c
  count : (b.extractLsb' 8 4).toNat = ws.length
  words : ∀ i : Fin 12, ∀ y, ws[i.val]? = some y → b.extractLsb' (64 + 32 * i.val) 20 = y.1 ∧ b.getLsbD (84 + 32 * i.val) = y.2.1

/-- The words that an MCX record packs. -/
theorem mcxBits_words (c loss : Nat) (ws : List (Word20 × Bool × SN)) : ∃ l, mcxBits c loss ws = packWords l ∧
    l.getD 0 0 = c + 256 * ws.length + 4096 * (if loss = 0 then 0 else 1) ∧
    ∀ i : Fin 12, ∀ y, ws[i.val]? = some y → l.getD (i.val + 2) 0 = mcxWord y := by
  refine ⟨_, rfl, rfl, fun i y hy => ?_⟩
  have hi : i.val < (List.range 12).length := by simp
  simp only [List.getD_eq_getElem?_getD, List.cons_append, List.nil_append, List.getElem?_cons_succ]
  rw [List.getElem?_append_left (by simp)]
  simp [hy, mcxWord]

theorem mcxFields (c : BitVec 8) (loss : Nat) {ws : List (Word20 × Bool × SN)} (hlen : ws.length ≤ 12) (p : Nat) :
    McxFields (BitVec.ofNat 2048 (mcxBits c.toNat loss ws ||| atByte 63 p)) c ws := by
  obtain ⟨l, hbits, hhead, hwords⟩ := mcxBits_words c.toNat loss ws
  have hc := c.isLt
  rw [hbits]
  have hsub {j w : Nat} (i : Nat) (h : 32 * i + j + w ≤ 504) (hj : j + w ≤ 32) := record_subfield (k := 63) (p := p) l i (by decide) h hj
  refine ⟨?_, ?_, fun i y hy => ⟨?_, ?_⟩⟩
  · refine BitVec.eq_of_toNat_eq ((hsub (j := 0) (w := 8) 0 (by decide) (by decide)).trans ?_)
    rw [hhead]
    split <;> omega
  · refine (hsub (j := 8) (w := 4) 0 (by decide) (by decide)).trans ?_
    rw [hhead]
    split <;> omega
  · have hoff : 64 + 32 * i.val = 32 * (i.val + 2) + 0 := by omega
    refine BitVec.eq_of_toNat_eq ?_
    rw [hoff, hsub (i.val + 2) (by omega) (by decide), hwords i y hy]
    exact (mcxWord_fields y).1
  · have hoff : 84 + 32 * i.val = 32 * (i.val + 2) + 20 := by omega
    rw [record_bit (by decide) (by omega), hoff, packWords_testBit l (i.val + 2) (by decide), hwords i y hy]
    exact (mcxWord_fields y).2
/-- The words that a record takes have left the channel's queue. -/
def wordsTaken (c : Nat) (d : Dev) : Dev := modChan d c fun x => { x with rxq := x.rxq.drop 12 }

theorem chanOf_wordsTaken (c : Nat) (d : Dev) : (chanOf (wordsTaken c d) c).rxq = (chanOf d c).rxq.drop 12 := by
  rw [wordsTaken, chanOf_modChan_same]

theorem mcxDrain_of_none {d : Dev} (h : d.pm.mcx = []) : ∀ n, mcxDrain n d = d
  | 0 => rfl
  | n + 1 => by
    unfold mcxDrain
    rw [h]

theorem mcxClose_eq {d : Dev} {c : Nat} {up : Bool} (hmcx : d.pm.mcx = []) (hrx : (chanOf d c).rx = 16) (hq : (chanOf d c).rxq ≠ [])
    (hdue : 12 ≤ (chanOf d c).rxq.length ∨ up = true) : mcxClose c up d =
      if rState d 39 = 1 ∧ rRoom d 39 ∧ !frozen d ∧ !dmaOk d (recAddr d 39 (rP d 39)) true then dmaMiss d (recAddr d 39 (rP d 39)) else
      let x := chanOf d c
      let ws := x.rxq.take 12
      let d := wordsTaken c d
      if canWrite d 39 then modChan (writeRec d 39 (mcxBits c x.loss ws)) c fun x => { x with loss := 0 }
      else if frozen d ∧ rState d 39 = 1 ∧ d.pm.mcx.length < 16 then
        modChan { d with pm := { d.pm with mcx := d.pm.mcx ++ [mcxBits c x.loss ws] } } c fun x => { x with loss := 0 }
      else modChan (sat d F.PMN_CH_CNT_LOST c ws.length) c fun x => { x with loss := min (x.loss + ws.length) 0xFFFFFFFF } := by
  have hwait : ¬ ((chanOf d c).rxq.length < 12 ∧ (!up) = true) := by
    rintro ⟨hlt, hup⟩
    rcases hdue with h | h
    · omega
    · simp [h] at hup
  unfold mcxClose
  rw [mcxDrain_of_none hmcx]
  dsimp only
  rw [if_neg (show ¬ ((chanOf d c).rx ≠ 16 ∨ (chanOf d c).rxq = [] ∨ _) by simp only [hrx, hq, hwait]; decide)]
  rfl

section
variable {s : State} {c : BitVec 8} {up : Bool} (hcore : s.dev.pwr.core = true) (hrx : (chanOf s.dev c.toNat).rx = 16)
  (hq : (chanOf s.dev c.toNat).rxq ≠ []) (hmcx : s.dev.pm.mcx = []) (hdue : 12 ≤ (chanOf s.dev c.toNat).rxq.length ∨ up = true)
include hcore hrx hq hmcx hdue

theorem mcxClose_writes (hwrite : canWrite s.dev 39 = true) :
    ActsR [pWord 39] [.chans, .hif, .out] (.mcxRecordClose c up) s fun t =>
      (chanOf t.dev c.toNat).rxq = (chanOf s.dev c.toNat).rxq.drop 12 ∧ rP t.dev 39 = (rP s.dev 39 + 1) % 2 ^ 32 ∧
      ∃ (b : BitVec 2048) (os : List Out), Sent s.dev t.dev (.record 39 (rP s.dev 39) b :: os) ∧ (∀ o ∈ os, ∃ a, o = .transReq a) ∧
        McxFields b c ((chanOf s.dev c.toNat).rxq.take 12) := by
  have heq := mcxClose_eq hmcx hrx hq hdue
  have hok : dmaOk s.dev (recAddr s.dev 39 (rP s.dev 39)) true = true := by
    simp only [canWrite, Bool.and_eq_true] at hwrite
    exact hwrite.2
  have hlen : ((chanOf s.dev c.toNat).rxq.take 12).length ≤ 12 := List.length_take_le 12 _
  have hfields := mcxFields c (chanOf s.dev c.toNat).loss hlen (phaseBit (rLog2 s.dev 39) (rP s.dev 39))
  obtain ⟨bits, hbits⟩ : ∃ bits, bits = mcxBits c.toNat (chanOf s.dev c.toNat).loss ((chanOf s.dev c.toNat).rxq.take 12) := ⟨_, rfl⟩
  rw [← hbits] at hfields
  obtain ⟨m, hm⟩ : ∃ m, m = wordsTaken c.toNat s.dev := ⟨_, rfl⟩
  have hcan : canWrite m 39 = true := by rw [hm]; exact hwrite
  have htaken : Within [pWord 39] [.regs, .chans, .hif, .out] s.dev m := hm ▸ (Within.refl _ _ s.dev).modChan
  have hleft : (chanOf m c.toNat).rxq = (chanOf s.dev c.toNat).rxq.drop 12 := by rw [hm, chanOf_wordsTaken]
  have hp : rP m 39 = rP s.dev 39 := by rw [hm]; rfl
  have hlog : rLog2 m 39 = rLog2 s.dev 39 := by rw [hm]; rfl
  have hout : m.out = s.dev.out := by rw [hm]; rfl
  rw [if_neg (by rw [hok]; simp)] at heq
  dsimp only at heq
  rw [← hbits, ← hm, if_pos hcan] at heq
  obtain ⟨hframe, hpidx, -, -, os, hsent, hos⟩ := recordWritten_writeRec (r := 39) (by decide) m bits
  rw [hp, hlog] at hsent
  rw [hp] at hpidx
  generalize writeRec m 39 bits = d at *
  have hchans : d.chans = m.chans := hframe.parts .chans (by simp)
  refine (htaken.next hframe).modChan.actsR (exec_of_core (g := mcxClose c.toNat up) rfl hcore heq) ⟨?_, hpidx, _, os, ?_, hos, hfields⟩
  · exact (congrArg Chan.rxq ((chanOf_modChan_same _ _ _).trans rfl)).trans ((congrArg Chan.rxq (chanOf_congr hchans _)).trans hleft)
  · rw [Sent, hout] at hsent
    exact hsent

theorem mcxClose_holds (hfrozen : frozen s.dev = true) (hstate : rState s.dev 39 = 1) : Acts [.chans, .pm] (.mcxRecordClose c up) s fun t =>
    (chanOf t.dev c.toNat).rxq = (chanOf s.dev c.toNat).rxq.drop 12 ∧ ∃ b, t.dev.pm = { s.dev.pm with mcx := [b] } := by
  have heq := mcxClose_eq hmcx hrx hq hdue
  obtain ⟨m, hm⟩ : ∃ m, m = wordsTaken c.toNat s.dev := ⟨_, rfl⟩
  have hcan : canWrite m 39 = false := by
    have : frozen m = true := by rw [hm]; exact hfrozen
    simp [canWrite, this]
  have hpm : m.pm = s.dev.pm := by rw [hm]; rfl
  have hheld : frozen m = true ∧ rState m 39 = 1 ∧ m.pm.mcx.length < 16 := by
    rw [hpm, hmcx, hm]
    exact ⟨hfrozen, hstate, by decide⟩
  have htaken : Within [] [.chans, .pm] s.dev m := hm ▸ (Within.refl _ _ s.dev).modChan
  have hleft : (chanOf m c.toNat).rxq = (chanOf s.dev c.toNat).rxq.drop 12 := by rw [hm, chanOf_wordsTaken]
  rw [if_neg (by rw [hfrozen]; simp)] at heq
  dsimp only at heq
  rw [← hm, if_neg (by rw [hcan]; decide), if_pos hheld] at heq
  generalize mcxBits c.toNat (chanOf s.dev c.toNat).loss ((chanOf s.dev c.toNat).rxq.take 12) = b at heq
  refine ((htaken.only (only_pm m _)).modChan).acts (exec_of_core (g := mcxClose c.toNat up) rfl hcore heq) ⟨?_, b, ?_⟩
  · exact (congrArg Chan.rxq (chanOf_modChan_same _ _ _)).trans hleft
  · exact Eq.trans (b := { m.pm with mcx := m.pm.mcx ++ [b] }) rfl (by rw [hpm, hmcx]; rfl)

theorem mcxClose_loses (hlost : rState s.dev 39 = 2 ∨ rRoom s.dev 39 = false ∧ frozen s.dev = false) :
    ActsR [F.PMN_CH_CNT_LOST.addr c.toNat] [.chans] (.mcxRecordClose c up) s fun t =>
      (chanOf t.dev c.toNat).rxq = (chanOf s.dev c.toNat).rxq.drop 12 ∧ t.dev.out = s.dev.out ∧
      rd t.dev F.PMN_CH_CNT_LOST c.toNat =
        satAdd 32 (rd s.dev F.PMN_CH_CNT_LOST c.toNat) (min 12 (chanOf s.dev c.toNat).rxq.length) := by
  have heq := mcxClose_eq hmcx hrx hq hdue
  have hn : ((chanOf s.dev c.toNat).rxq.take 12).length = min 12 (chanOf s.dev c.toNat).rxq.length := List.length_take
  obtain ⟨m, hm⟩ : ∃ m, m = wordsTaken c.toNat s.dev := ⟨_, rfl⟩
  have hstate : rState m 39 = rState s.dev 39 := by rw [hm]; rfl
  have hroom : rRoom m 39 = rRoom s.dev 39 := by rw [hm]; rfl
  have hfreeze : frozen m = frozen s.dev := by rw [hm]; rfl
  have hout : m.out = s.dev.out := by rw [hm]; rfl
  have hrd : rd m F.PMN_CH_CNT_LOST c.toNat = rd s.dev F.PMN_CH_CNT_LOST c.toNat := by rw [hm]; rfl
  have hcan : canWrite m 39 = false := by
    rw [canWrite, hstate, hroom]
    rcases hlost with h | ⟨h, -⟩ <;> simp [h]
  have hheld : ¬ (frozen m = true ∧ rState m 39 = 1 ∧ m.pm.mcx.length < 16) := by
    rw [hstate, hfreeze]
    rintro ⟨hf, hs, -⟩
    rcases hlost with h | ⟨-, h⟩
    · omega
    · rw [h] at hf
      exact absurd hf (by decide)
  have hmiss : ¬ (rState s.dev 39 = 1 ∧ rRoom s.dev 39 = true ∧ (!frozen s.dev) = true ∧
      (!dmaOk s.dev (recAddr s.dev 39 (rP s.dev 39)) true) = true) := by
    rintro ⟨hs, hr, -, -⟩
    rcases hlost with h | ⟨h, -⟩
    · omega
    · rw [h] at hr
      exact absurd hr (by decide)
  have htaken : Within [F.PMN_CH_CNT_LOST.addr c.toNat] [.regs, .chans] s.dev m := hm ▸ (Within.refl _ _ s.dev).modChan
  have hleft : (chanOf m c.toNat).rxq = (chanOf s.dev c.toNat).rxq.drop 12 := by rw [hm, chanOf_wordsTaken]
  rw [if_neg hmiss] at heq
  dsimp only at heq
  rw [← hm, if_neg (by rw [hcan]; decide), if_neg hheld] at heq
  refine htaken.sat.modChan.actsR (exec_of_core (g := mcxClose c.toNat up) rfl hcore heq) ⟨?_, hout, ?_⟩
  · exact (congrArg Chan.rxq (chanOf_modChan_same _ _ _)).trans hleft
  · exact (rd_sat_same m (by decide) c.toNat _).trans (by rw [hrd, hn]; rfl)

end

/-! ### MCT_FETCH (R347, R444) -/

/-- Words that join the queue for transmission, which has room for all of them, in order. -/
theorem foldl_mdcPush (c : Nat) (w : Nat → Word20) : ∀ (l : List Nat) (d : Dev), (chanOf d c).txq.length + l.length ≤ 16 →
    Within [] [.chans] d (l.foldl (fun d i => mdcPush d c (w i)) d) ∧
    (chanOf (l.foldl (fun d i => mdcPush d c (w i)) d) c).txq = (chanOf d c).txq ++ l.map w
  | [], d, _ => ⟨.refl _ _ d, (List.append_nil _).symm⟩
  | i :: l, d, h => by
    rw [List.length_cons] at h
    have hpush : mdcPush d c (w i) = modChan d c fun x => { x with txq := x.txq ++ [w i] } := if_pos (by omega)
    have hq : (chanOf (mdcPush d c (w i)) c).txq = (chanOf d c).txq ++ [w i] := by rw [hpush, chanOf_modChan_same]
    have hframe : Within [] [.chans] d (mdcPush d c (w i)) := hpush ▸ (Within.refl _ _ d).modChan
    obtain ⟨hrest, hwords⟩ := foldl_mdcPush c w l (mdcPush d c (w i)) (by rw [hq, List.length_append, List.length_singleton]; omega)
    refine ⟨hframe.trans hrest, hwords.trans ?_⟩
    rw [hq, List.append_assoc]
    rfl

/-- The count of discarded words lies beside the index of MCT. -/
theorem discWord_ne (c : Nat) : F.PMN_CH_CNT_TX_DISC.addr c ≠ cWord 38 := by
  have hle := (Fld.addr_mem_span (f := F.PMN_CH_CNT_TX_DISC) rfl (by decide) c).1
  have hlt : cWord 38 < F.PMN_CH_CNT_TX_DISC.base := by decide
  omega

section
variable {s : State} {raw : BitVec 512} (hcore : s.dev.pwr.core = true)
  (hready : s.lock = true ∧ rState s.dev 38 = 1 ∧ bound s.dev 38 = true ∧ rHeld s.dev 38 ≠ 0 ∧ frozen s.dev = false ∧
    dmaOk s.dev (recAddr s.dev 38 (rC s.dev 38)) false = true)
include hcore hready

omit hcore in
theorem mctFetch_eq : mctFetch raw s.lock s.dev =
    if (chanOf s.dev (dF raw 0 0 8)).tx ≠ 16 then rAdv (sat s.dev F.PMN_CH_CNT_TX_DISC (dF raw 0 0 8) (min 12 (dF raw 0 8 4))) 38
    else if 16 < (chanOf s.dev (dF raw 0 0 8)).txq.length + min 12 (dF raw 0 8 4) then s.dev
    else rAdv ((List.range (min 12 (dF raw 0 8 4))).foldl
      (fun d i => mdcPush d (dF raw 0 0 8) (BitVec.ofNat 20 (dF raw (8 + 4 * i) 0 20))) s.dev) 38 := by
  obtain ⟨hlock, hstate, hbound, hheld, hfrozen, hok⟩ := hready
  unfold mctFetch
  simp [hlock, hstate, hbound, hheld, hfrozen, hok]

theorem mctFetch_takes (htx : (chanOf s.dev (dF raw 0 0 8)).tx = 16)
    (hfits : (chanOf s.dev (dF raw 0 0 8)).txq.length + min 12 (dF raw 0 8 4) ≤ 16) :
    ActsR [cWord 38] [.chans, .hif, .dma, .out] (.mctFetch raw) s fun t => rC t.dev 38 = (rC s.dev 38 + 1) % 2 ^ 32 ∧
      (chanOf t.dev (dF raw 0 0 8)).txq = (chanOf s.dev (dF raw 0 0 8)).txq ++
        (List.range (min 12 (dF raw 0 8 4))).map fun i => BitVec.ofNat 20 (dF raw (8 + 4 * i) 0 20) := by
  have heq := mctFetch_eq (raw := raw) hready
  rw [if_neg (by simp [htx]), if_neg (by omega)] at heq
  obtain ⟨hpush, hwords⟩ := foldl_mdcPush (dF raw 0 0 8) (fun i => BitVec.ofNat 20 (dF raw (8 + 4 * i) 0 20))
    (List.range (min 12 (dF raw 0 8 4))) s.dev (by rw [List.length_range]; exact hfits)
  generalize (List.range (min 12 (dF raw 0 8 4))).foldl _ s.dev = m at *
  obtain ⟨hframe, hcidx, -, -⟩ := hostAdvanced_rAdv (r := 38) (by decide) m
  generalize rAdv m 38 = t at *
  have hwide : Within [cWord 38] [.regs, .chans, .hif, .dma, .out] s.dev m := hpush.mono (List.nil_subset _)
  have hchans : t.chans = m.chans := hframe.parts .chans (by simp)
  refine (hwide.next hframe).actsR (exec_of_core (g := mctFetch raw s.lock) rfl hcore heq) ⟨?_, ?_⟩
  · exact hcidx.trans (by rw [hpush.rC (by simp)])
  · exact (congrArg Chan.txq (chanOf_congr hchans _)).trans hwords

theorem mctFetch_discards (htx : (chanOf s.dev (dF raw 0 0 8)).tx ≠ 16) :
    ActsR [cWord 38, F.PMN_CH_CNT_TX_DISC.addr (dF raw 0 0 8)] [.hif, .dma, .out] (.mctFetch raw) s fun t =>
      rC t.dev 38 = (rC s.dev 38 + 1) % 2 ^ 32 ∧
      rd t.dev F.PMN_CH_CNT_TX_DISC (dF raw 0 0 8) =
        satAdd 32 (rd s.dev F.PMN_CH_CNT_TX_DISC (dF raw 0 0 8)) (min 12 (dF raw 0 8 4)) := by
  have heq := mctFetch_eq (raw := raw) hready
  rw [if_pos htx] at heq
  have hcount := rd_sat_same s.dev (f := F.PMN_CH_CNT_TX_DISC) (by decide) (dF raw 0 0 8) (min 12 (dF raw 0 8 4))
  have hsat : Within [cWord 38, F.PMN_CH_CNT_TX_DISC.addr (dF raw 0 0 8)] [.regs, .hif, .dma, .out] s.dev
      (sat s.dev F.PMN_CH_CNT_TX_DISC (dF raw 0 0 8) (min 12 (dF raw 0 8 4))) := (Within.refl _ _ s.dev).sat
  have hindex : rC (sat s.dev F.PMN_CH_CNT_TX_DISC (dF raw 0 0 8) (min 12 (dF raw 0 8 4))) 38 = rC s.dev 38 :=
    rd_wr_addr s.dev _ _ _ _ _ (discWord_ne (dF raw 0 0 8)).symm
  generalize sat s.dev F.PMN_CH_CNT_TX_DISC (dF raw 0 0 8) (min 12 (dF raw 0 8 4)) = m at *
  obtain ⟨hframe, hcidx, -, -⟩ := hostAdvanced_rAdv (r := 38) (by decide) m
  have hkept := hframe.rd (f := F.PMN_CH_CNT_TX_DISC) (i := dF raw 0 0 8)
    (by simpa using discWord_ne (dF raw 0 0 8))
  generalize rAdv m 38 = t at *
  exact (hsat.next hframe).actsR (exec_of_core (g := mctFetch raw s.lock) rfl hcore heq) ⟨hcidx.trans (by rw [hindex]), hkept.trans hcount⟩

omit hcore in
theorem mctFetch_waits (htx : (chanOf s.dev (dF raw 0 0 8)).tx = 16)
    (hfull : 16 < (chanOf s.dev (dF raw 0 0 8)).txq.length + min 12 (dF raw 0 8 4)) : exec (.mctFetch raw) s = .next s := by
  have heq := mctFetch_eq (raw := raw) hready
  rw [if_neg (by simp [htx]), if_pos hfull] at heq
  exact exec_of_core_self (g := mctFetch raw s.lock) rfl heq

end

/-- Settles O50: routes, bursts and the records of MCX and MCT. -/
theorem channelsCarryWords : Obligations.ChannelsCarryWords := by
  intro s r e port w c up raw hcore ch tx dest others bad x n mct ready moves
  refine ⟨fun he hres => ⟨fun hroute => ?_, fun hdest hhere => ?_, fun hdest hhere htaken => ?_, fun hdest hhere hfree hmisfit => ?_⟩,
    fun hrun => ?_, fun hrx hq hmcx hdue => ⟨fun hwrite => ?_, mcxClose_holds hcore hrx hq hmcx hdue, mcxClose_loses hcore hrx hq hmcx hdue⟩,
    mctFetch_takes hcore, mctFetch_discards hcore, mctFetch_waits⟩
  · refine mdcRoute_routes he hcore ?_
    rcases hroute with h | ⟨hhere, h | ⟨hlt, hfree, hother, hfits⟩⟩
    · exact routeProbs_unrouted hres h
    · exact routeProbs_mct hres h hhere
    · have hgood : (others (!tx) || !chanFits s.dev ch dest) = false := by rw [hother, hfits]; rfl
      rw [routeProbs_port hres hlt, show chanHere s.dev (dF e.raw 16 0 8) = true from hhere,
        show portTaken s.dev (dF e.raw 16 0 8) (dF e.raw 20 0 5) (dB e.raw 16 8) = false from hfree]
      exact congrArg (fun b => firstProb (probIf b 20 7)) hgood
  · exact mdcRoute_refused he hcore (routeProbs_absent hres hdest hhere)
  · refine mdcRoute_refused he hcore (p := (20, 4)) ?_
    rw [routeProbs_port hres hdest, show chanHere s.dev (dF e.raw 16 0 8) = true from hhere,
      show portTaken s.dev (dF e.raw 16 0 8) (dF e.raw 20 0 5) (dB e.raw 16 8) = true from htaken]
    refine firstProb_eq_some List.mem_cons_self ?_
    rw [← Prob.leads]
    simp [probIf, Prob.leads, Prob.le]
  · refine mdcRoute_refused he hcore (p := (20, 7)) ?_
    have hbad : (others (!tx) || !chanFits s.dev ch dest) = true := by simpa using hmisfit
    rw [routeProbs_port hres hdest, show chanHere s.dev (dF e.raw 16 0 8) = true from hhere,
      show portTaken s.dev (dF e.raw 16 0 8) (dF e.raw 20 0 5) (dB e.raw 16 8) = false from hfree]
    exact congrArg (fun b => firstProb (probIf b 20 7)) hbad
  · have hroute := rdB_of_bit (d := s.dev) (f := F.PMN_MSP_STATUS_RX_ROUTED) (i := port)
    refine ⟨fun a q hrx hq hloss => ?_, fun hrx htx => ?_⟩
    · refine (mspBurst_of hcore (Within.refl _ _ s.dev).modChan (mspBurst_received hrun (hroute.2 hrx) hq hloss)).weaken ?_
      rintro t ⟨hsent, hrxq, htxq, hfull⟩
      rw [chanOf_modChan_same] at hrxq htxq hfull
      exact ⟨hsent, hrxq, htxq.trans (pushed_routed rfl _ w), fun ⟨htx, hlen⟩ => hfull (rdB_of_bit.2 htx) hlen⟩
    · have hon := rdB_of_bit.2 htx
      refine (mspBurst_of hcore (Within.refl _ _ s.dev) (mspBurst_transmits hrun (hroute.1 hrx) hon)).weaken ?_
      rintro t ⟨hsent, hrxq, htxq, hfull⟩
      exact ⟨hsent, hrxq, htxq.trans (pushed_routed rfl _ w), fun ⟨htx, hlen⟩ => hfull (rdB_of_bit.2 htx) hlen⟩
  · refine (mcxClose_writes hcore hrx hq hmcx hdue hwrite).weaken ?_
    rintro t ⟨hleft, hp, b, os, hsent, hos, hchan, hcount, hwords⟩
    refine ⟨hleft, hp, b, os, hsent, hos, hchan, hcount.trans List.length_take, fun i y hy => hwords i y ?_⟩
    rw [List.getElem?_take_of_lt i.isLt]
    exact hy

end Sys2Proof.Machine
end

