-- ==== Sys2Proof/Proofs/Sessions.lean ====
section
/-! PROOFS. Host sessions: the exchange, its failures, the lockout and the close (R455 to R460, R476). -/

namespace Sys2Proof.Machine

-- In order: a default argument `by simp` waits for every declaration before it, and many that wait take many threads.
set_option Elab.async false

/-! ### SEC_SESS_STATUS -/

/-- The word of SEC_SESS_STATUS. -/
abbrev sessWord : Nat := F.SEC_SESS_STATUS_STATE.addr 0

@[simp] theorem addr_sessSlot : F.SEC_SESS_STATUS_SLOT.addr 0 = sessWord := rfl
@[simp] theorem addr_sessFail : F.SEC_SESS_STATUS_FAIL.addr 0 = sessWord := rfl
@[simp] theorem addr_sessCollide : F.SEC_SESS_STATUS_COLLIDE.addr 0 = sessWord := rfl

theorem only_onSec (d : Dev) (f : Sec → Sec) : Only [.sec] d (onSec d f) := only_sec d _

/-- A bit of a register as a Boolean. -/
theorem rdB_eq_decide (d : Dev) {f : Fld} (hf : f.wd = 1) (i : Nat) : rdB d f i = decide (rd d f i = 1) := by
  have hlt := rd_lt d f i
  rw [hf] at hlt
  refine Bool.eq_iff_iff.mpr ?_
  simp only [rdB, bne_iff_ne, decide_eq_true_eq]
  omega

/-! ### OPEN (R455, R458) -/

section
variable {s : State} (hcore : s.dev.pwr.core = true)
include hcore

theorem sessionOpen_collides (h : sessState s.dev = 1 ∨ sessState s.dev = 2) : ActsR [sessWord] [] .sessionOpen s fun t =>
    rd t.dev F.SEC_SESS_STATUS_COLLIDE = 1 ∧ rd t.dev F.SEC_SESS_STATUS_STATE = sessState s.dev := by
  have heq : sessionOpen s.dev = wrB s.dev F.SEC_SESS_STATUS_COLLIDE 0 true := if_pos h
  exact ((Within.refl _ _ s.dev).wrB).actsR (exec_of_core (g := sessionOpen) rfl hcore heq)
    ⟨rd_wrB_bit _ (by decide) true, rd_wrB_apart _ (by decide)⟩

/-- The request as OPEN copies it. -/
def requested (d : Dev) (x : Sec) : Sec :=
  { x with
    exCls := Fin.ofNat 8 (rd d F.SEC_SESS_REQ_CLASS), exFuse := rdB d F.SEC_SESS_REQ_FUSE,
    exMask := BitVec.ofNat 64 (rd d F.SEC_SESS_RINGS_LO + 2 ^ 32 * rd d F.SEC_SESS_RINGS_HI),
    exHn := BitVec.ofNat 64 (rd d F.SEC_SESS_HNONCE_LO + 2 ^ 32 * rd d F.SEC_SESS_HNONCE_HI) }

omit hcore in
/-- Two words make a double word. -/
theorem toNat_pair (d : Dev) {f g : Fld} (i j : Nat) (hf : f.wd = 32) (hg : g.wd = 32) :
    (BitVec.ofNat 64 (rd d f i + 2 ^ 32 * rd d g j)).toNat = rd d f i + 2 ^ 32 * rd d g j := by
  have hlo := rd_lt d f i
  have hhi := rd_lt d g j
  rw [hf] at hlo
  rw [hg] at hhi
  rw [BitVec.toNat_ofNat]
  exact Nat.mod_eq_of_lt (by omega)

theorem sessionOpen_opens (h₁ : sessState s.dev ≠ 1) (h₂ : sessState s.dev ≠ 2) : ActsR [sessWord] [.sec] .sessionOpen s fun t =>
    rd t.dev F.SEC_SESS_STATUS_STATE = 1 ∧ rd t.dev F.SEC_SESS_STATUS_FAIL = 0 ∧
    t.dev.sec.exCls.val = rd s.dev F.SEC_SESS_REQ_CLASS ∧ t.dev.sec.exFuse = decide (rd s.dev F.SEC_SESS_REQ_FUSE = 1) ∧
    t.dev.sec.exMask.toNat = rd s.dev F.SEC_SESS_RINGS_LO + 2 ^ 32 * rd s.dev F.SEC_SESS_RINGS_HI ∧
    t.dev.sec.exHn.toNat = rd s.dev F.SEC_SESS_HNONCE_LO + 2 ^ 32 * rd s.dev F.SEC_SESS_HNONCE_HI ∧
    t.dev.sec.fails = s.dev.sec.fails ∧ t.dev.sec.locked = s.dev.sec.locked := by
  have heq : sessionOpen s.dev = wr (wr (wr (onSec s.dev (requested s.dev)) F.SEC_SESS_STATUS_STATE 0 1)
      F.SEC_SESS_STATUS_SLOT 0 0xF) F.SEC_SESS_STATUS_FAIL 0 0 := if_neg (by simp [h₁, h₂])
  refine (((Within.refl _ _ s.dev).only (only_onSec _ _)).wr.wr.wr).actsR (exec_of_core (g := sessionOpen) rfl hcore heq)
    ⟨?_, rd_wr_fits _ (by decide), ?_, ?_, toNat_pair _ _ _ rfl rfl, toNat_pair _ _ _ rfl rfl, rfl, rfl⟩
  · rw [rd_wr_apart _ (by decide), rd_wr_apart _ (by decide)]
    exact rd_wr_fits _ (by decide)
  · exact Nat.mod_eq_of_lt (rd_lt s.dev F.SEC_SESS_REQ_CLASS 0)
  · exact Eq.trans (b := rdB s.dev F.SEC_SESS_REQ_FUSE) rfl (rdB_eq_decide s.dev rfl 0)

end

/-! ### The failure of an exchange (R457, R459) -/

/-- Failures in a row of the exchange's class once it has failed with reason `r`, whether they lock the class out, and for
how long. -/
def failCount (x : Sec) (r : Nat) : Nat := x.fails[x.exCls] + (if 7 ≤ r then 1 else 0)
def failLocks (x : Sec) (r : Nat) : Bool := decide (7 ≤ r ∧ 5 ≤ failCount x r)
def failLen (x : Sec) (r : Nat) : Nat :=
  if failLocks x r = true then (if x.lock[x.exCls] = 0 then 60 else min 3600 (2 * x.lock[x.exCls])) else x.lock[x.exCls]

/-- The security unit once the exchange has failed. -/
def sessFailed (r : Nat) (x : Sec) : Sec :=
  { x with fails := x.fails.set x.exCls (failCount x r), lock := x.lock.set x.exCls (failLen x r),
           locked := if failLocks x r = true then x.locked.set x.exCls true else x.locked }

/-- The event of a failed exchange. -/
def failEv (sn : SN) (r : Nat) (x : Sec) : Ev :=
  { typ := 0x82, sn := sn, p0 := x.exCls, p1 := r, p2 := failCount x r,
    p3 := if (x.locked[x.exCls] || failLocks x r) = true then failLen x r else 0 }

theorem sessFailed_locked (r : Nat) (x : Sec) (j : Fin 8) :
    (sessFailed r x).locked[j] = if j = x.exCls then x.locked[j] || failLocks x r else x.locked[j] := by
  by_cases hj : j = x.exCls
  · subst hj
    cases h : failLocks x r <;> simp [sessFailed, h]
  · have hne : x.exCls.val ≠ j.val := fun h => hj (Fin.ext h.symm)
    cases h : failLocks x r <;> simp [sessFailed, h, hj, Vector.getElem_set_ne _ _ hne]

theorem sessFail_eq {r : Nat} (hr : r ≤ 8) (sn : SN) (d : Dev) : sessFail r sn d =
    raise (wr (wr (onSec d (sessFailed r)) F.SEC_SESS_STATUS_STATE 0 4) F.SEC_SESS_STATUS_FAIL 0 r) (failEv sn r d.sec) := by
  have hcounts : (r = 7 ∨ r = 8) ↔ 7 ≤ r := by omega

  have hlocked := sessFailed_locked r d.sec d.sec.exCls
  rw [if_pos rfl] at hlocked
  unfold sessFail failEv
  rw [← hlocked]
  unfold sessFailed failLen failLocks failCount
  simp only [hcounts, decide_eq_true_eq]
  rfl

/-- What the failure of an exchange with reason `r` does. -/
structure SessFails (sn : SN) (r : Nat) (a b : Dev) : Prop where
  frame : Within [sessWord] [.regs, .sec, .hif] a b
  state : rd b F.SEC_SESS_STATUS_STATE = 4
  reason : rd b F.SEC_SESS_STATUS_FAIL = r
  sec : b.sec = sessFailed r a.sec
  raised : Raised a b [failEv sn r a.sec]

theorem sessFail_spec {r : Nat} (hr : r ≤ 8) (sn : SN) (d : Dev) : SessFails sn r d (sessFail r sn d) := by
  rw [sessFail_eq hr]
  refine ⟨(((Within.refl _ _ d).only (only_onSec _ _)).wr.wr).raise, ?_, rd_wr_fits _ ⟨by decide, show r < 16 by omega⟩, rfl,
    (raised_raise _ _).of_same rfl rfl rfl⟩
  exact (rd_wr_apart _ (by decide)).trans (rd_wr_fits _ (by decide))

/-! ### The challenge (R457) -/

/-- The reason of Table 18-3 for which the exchange fails before a challenge, 0 none. -/
def failReason (d : Dev) : Nat :=
  let x := d.sec
  let m := pairMask x.exMask
  if 5 ≤ x.exCls.val ∨ x.exCls.val = 4 ∧ secLocked d = true then 1
  else if classKey d x.exCls = none then 2
  else if 2 ^ 41 ≤ x.exMask.toNat ∨ (∃ r : Fin 41, m.getLsbD r = true ∧ bound d r = true) then 3
  else if ∀ n : Fin 15, rd d F.SEC_SESS_SLOT_OPEN n = 1 then 4
  else if x.locked[x.exCls] = true then 5
  else if x.exFuse = true ∧ x.exCls.val ≠ 0 ∧ x.exCls.val ≠ 4 ∨ m.getLsbD 38 = true ∧ x.exCls.val ≠ 0 ∧ x.exCls.val ≠ 1 then 6
  else 0

theorem mem_freeSlotsOf {d : Dev} {n : Nat} : n ∈ freeSlotsOf d ↔ n < 15 ∧ rd d F.SEC_SESS_SLOT_OPEN n ≠ 1 := by
  simp [freeSlotsOf, rdB_eq_decide d (f := F.SEC_SESS_SLOT_OPEN) rfl]

theorem freeSlotsOf_eq_nil {d : Dev} : freeSlotsOf d = [] ↔ ∀ n : Fin 15, rd d F.SEC_SESS_SLOT_OPEN n = 1 := by
  simp only [List.eq_nil_iff_forall_not_mem, mem_freeSlotsOf, not_and, not_not]
  exact ⟨fun h n => h n.val n.isLt, fun h n hn => h ⟨n, hn⟩⟩

theorem sessReason_eq (d : Dev) : sessReason d = failReason d := by
  have hrings : (d.sec.exMask.toNat / 2 ^ 41 ≠ 0 ∨ (List.range 41).any (fun r => (pairMask d.sec.exMask).getLsbD r && bound d r) = true) ↔
      (2 ^ 41 ≤ d.sec.exMask.toNat ∨ ∃ r : Fin 41, (pairMask d.sec.exMask).getLsbD r = true ∧ bound d r = true) := by
    refine or_congr (by omega) ?_
    simp only [List.any_eq_true, List.mem_range, Bool.and_eq_true]
    exact ⟨fun ⟨r, hr, h⟩ => ⟨⟨r, hr⟩, h⟩, fun ⟨r, h⟩ => ⟨r.val, r.isLt, h⟩⟩
  unfold sessReason failReason
  exact if_congr Iff.rfl rfl (if_congr (by simp) rfl (if_congr hrings rfl (if_congr freeSlotsOf_eq_nil rfl rfl)))

theorem failReason_le (d : Dev) : failReason d ≤ 8 := by
  unfold failReason
  dsimp only
  repeat' split
  all_goals decide

/-- The words of a proof in SEC_SESS_DPROOF. -/
def proofShown (p : List (BitVec 8)) (d : Dev) : Dev := (List.range 8).foldl (fun d w => wr d F.SEC_SESS_DPROOF w (leWord p w).toNat) d

theorem rd_proofShown (p : List (BitVec 8)) (d : Dev) {w : Nat} (hw : w < 8) : rd (proofShown p d) F.SEC_SESS_DPROOF w = (leWord p w).toNat := by
  obtain ⟨e, -, he⟩ := foldl_at (g := fun d w => wr d F.SEC_SESS_DPROOF w (leWord p w).toNat) (fun d => rd d F.SEC_SESS_DPROOF w)
    List.nodup_range (List.mem_range.mpr hw) (fun e i hi hne => rd_wr_index e (by decide) (List.mem_range.mp hi) hw hne.symm) d
  exact he.trans (rd_wr_fits e ⟨by decide, (leWord p w).isLt⟩)

theorem within_proofShown (p : List (BitVec 8)) (d : Dev) :
    Within ((List.range 8).map (F.SEC_SESS_DPROOF.addr ·)) [.regs] d (proofShown p d) :=
  Within.foldl (fun e _ hi => (Within.refl _ _ e).wr (List.mem_map_of_mem hi)) d

/-- The words that a challenge writes. -/
abbrev challengeWords : List Nat :=
  sessWord :: F.SEC_SESS_DNONCE_LO.addr 0 :: F.SEC_SESS_DNONCE_HI.addr 0 :: (List.range 8).map (F.SEC_SESS_DPROOF.addr ·)

/-- The exchange has its slot, its nonce and the device proof `p`. -/
def challenged (slot : Nat) (nd : BitVec 64) (p : List (BitVec 8)) (d : Dev) : Dev :=
  wr (wr (proofShown p (wr (wr (freed (onSec d fun x => { x with exNd := nd })) F.SEC_SESS_DNONCE_LO 0 nd.toNat)
    F.SEC_SESS_DNONCE_HI 0 (nd.toNat / 2 ^ 32))) F.SEC_SESS_STATUS_SLOT 0 slot) F.SEC_SESS_STATUS_STATE 0 2

theorem within_challenged (slot : Nat) (nd : BitVec 64) (p : List (BitVec 8)) (d : Dev) :
    Within challengeWords [.regs, .sec, .free] d (challenged slot nd p d) :=
  ((((((Within.refl _ _ d).only (only_onSec _ _)).only (only_freed _)).wr.wr).next (within_proofShown p _)
    fun _ h => List.mem_cons_of_mem _ (List.mem_cons_of_mem _ (List.mem_cons_of_mem _ h))).wr).wr

theorem challenged_spec {slot : Nat} (hslot : slot < 15) (nd : BitVec 64) (p : List (BitVec 8)) (d : Dev) :
    let t := challenged slot nd p d
    rd t F.SEC_SESS_STATUS_SLOT = slot ∧ rd t F.SEC_SESS_STATUS_STATE = 2 ∧ t.sec.exNd = nd ∧
    nd.toNat = rd t F.SEC_SESS_DNONCE_LO + 2 ^ 32 * rd t F.SEC_SESS_DNONCE_HI ∧
    ∀ w : Fin 8, BitVec.ofNat 32 (rd t F.SEC_SESS_DPROOF w) = leWord p w := by
  obtain ⟨m, hm⟩ : ∃ m, m = wr (wr (freed (onSec d fun x => { x with exNd := nd })) F.SEC_SESS_DNONCE_LO 0 nd.toNat)
    F.SEC_SESS_DNONCE_HI 0 (nd.toNat / 2 ^ 32) := ⟨_, rfl⟩
  have hnd : m.sec.exNd = nd := by rw [hm]; rfl
  have hlo : rd m F.SEC_SESS_DNONCE_LO = nd.toNat % 2 ^ 32 := by
    rw [hm, rd_wr_parted _ (by decide)]
    exact rd_wr_same _ _ _ _ (by decide)
  have hhi : rd m F.SEC_SESS_DNONCE_HI = nd.toNat / 2 ^ 32 % 2 ^ 32 := by rw [hm]; exact rd_wr_same _ _ _ _ (by decide)
  have hproof := within_proofShown p m
  have hshown := fun w (hw : w < 8) => rd_proofShown p m hw
  have hlo' : rd (proofShown p m) F.SEC_SESS_DNONCE_LO = rd m F.SEC_SESS_DNONCE_LO := hproof.rd (by decide)
  have hhi' : rd (proofShown p m) F.SEC_SESS_DNONCE_HI = rd m F.SEC_SESS_DNONCE_HI := hproof.rd (by decide)
  have hsec : (proofShown p m).sec = m.sec := hproof.parts .sec (by simp)
  have heq : challenged slot nd p d = wr (wr (proofShown p m) F.SEC_SESS_STATUS_SLOT 0 slot) F.SEC_SESS_STATUS_STATE 0 2 := by rw [hm]; rfl
  rw [heq]
  generalize proofShown p m = q at *
  refine ⟨?_, rd_wr_fits _ (by decide), (congrArg Sec.exNd hsec).trans hnd, ?_, fun w => ?_⟩
  · rw [rd_wr_apart _ (by decide)]
    exact rd_wr_fits _ ⟨by decide, show slot < 16 by omega⟩
  · rw [rd_wr_parted _ (by decide), rd_wr_parted _ (by decide), rd_wr_parted _ (by decide), rd_wr_parted _ (by decide), hlo', hhi', hlo, hhi]
    have hlt := nd.isLt
    omega
  · rw [rd_wr_parted _ (by decide), rd_wr_parted _ (by decide), hshown w.val w.isLt, BitVec.ofNat_toNat, BitVec.setWidth_eq]

section
variable {s : State} (hcore : s.dev.pwr.core = true) (hst : sessState s.dev = 1) (hruns : secRuns s.dev = true)
include hcore hst hruns

omit hcore in
theorem challenge_eq : challenge s.sn s.dev = if failReason s.dev ≠ 0 then sessFail (failReason s.dev) s.sn s.dev else
    let slot := (freeSlotsOf s.dev).getD ((Config.freeWord s.dev.free).toNat % (freeSlotsOf s.dev).length) 0
    challenged slot (Config.nonce s.dev.free) (proof ((classKey s.dev s.dev.sec.exCls).getD []) 0x44 s.dev.sec.exHn
      (Config.nonce s.dev.free) s.dev.sec.exCls slot s.dev.sec.exMask) s.dev := by
  unfold challenge
  rw [if_neg (by simp [hst, hruns]), sessReason_eq]
  rfl

theorem challenge_fails (hwhy : failReason s.dev ≠ 0) : ActsR [sessWord] [.sec, .hif] .challenge s fun t =>
    SessFails s.sn (failReason s.dev) s.dev t.dev := by
  have heq := (challenge_eq hst hruns).trans (if_pos hwhy)
  have hspec := sessFail_spec (failReason_le s.dev) s.sn s.dev
  exact hspec.frame.actsR (exec_of_core (g := challenge s.sn) rfl hcore heq) hspec

theorem challenge_answers (hwhy : failReason s.dev = 0) : ActsR challengeWords [.sec, .free] .challenge s fun t =>
    let n := rd t.dev F.SEC_SESS_STATUS_SLOT
    rd t.dev F.SEC_SESS_STATUS_STATE = 2 ∧ n < 15 ∧ rd s.dev F.SEC_SESS_SLOT_OPEN n ≠ 1 ∧
    t.dev.sec.exNd.toNat = rd t.dev F.SEC_SESS_DNONCE_LO + 2 ^ 32 * rd t.dev F.SEC_SESS_DNONCE_HI ∧
    ∀ w : Fin 8, BitVec.ofNat 32 (rd t.dev F.SEC_SESS_DPROOF w) = leWord (proof ((classKey s.dev s.dev.sec.exCls).getD []) 0x44
      s.dev.sec.exHn t.dev.sec.exNd s.dev.sec.exCls n s.dev.sec.exMask) w := by
  have heq := (challenge_eq hst hruns).trans (if_neg (by simp [hwhy]))
  dsimp only at heq
  have hfree : freeSlotsOf s.dev ≠ [] := by
    intro hnil
    have hopen := freeSlotsOf_eq_nil.mp hnil
    unfold failReason at hwhy
    dsimp only at hwhy
    rw [if_pos hopen] at hwhy
    split at hwhy
    · omega
    · split at hwhy
      · omega
      · split at hwhy <;> omega
  have hpos := List.length_pos_iff.mpr hfree
  have hlt := Nat.mod_lt (Config.freeWord s.dev.free).toNat hpos
  generalize hslot : (freeSlotsOf s.dev).getD ((Config.freeWord s.dev.free).toNat % (freeSlotsOf s.dev).length) 0 = slot at heq
  have hmem : slot ∈ freeSlotsOf s.dev := by
    rw [← hslot, List.getD_eq_getElem _ _ hlt]
    exact List.getElem_mem hlt
  obtain ⟨hslot15, hclosed⟩ := mem_freeSlotsOf.mp hmem
  generalize Config.nonce s.dev.free = nd at heq
  generalize hp : proof _ 0x44 s.dev.sec.exHn nd s.dev.sec.exCls slot s.dev.sec.exMask = p at heq
  obtain ⟨hslotR, hstate, hnd, hwords, hproof⟩ := challenged_spec hslot15 nd p s.dev
  have hframe := within_challenged slot nd p s.dev
  generalize challenged slot nd p s.dev = t at *
  refine hframe.actsR (exec_of_core (g := challenge s.sn) rfl hcore heq) ?_
  dsimp only
  rw [hslotR, hnd, hp]
  exact ⟨hstate, hslot15, hclosed, hwords, hproof⟩

end

/-! ### The grant (R457, R460) -/

/-- The words that hold the binding of a ring. -/
abbrev bindWords : List Nat := (List.range 41).map (F.HIF_RING_STATUS_SESS.addr ·)

theorem Fld.ringed_lt {f : Fld} (h : f.ringed = true) {i : Nat} (hi : i < 41) : f.addr i < 0x1002000 := by
  obtain ⟨ha, -, hhigh⟩ := Fld.addr_of_ringed h i
  omega

/-- The words of a slot. -/
abbrev slotWord (n : Nat) : Nat := F.SEC_SESS_SLOT_OPEN.addr n

@[simp] theorem addr_slotFuse (n : Nat) : F.SEC_SESS_SLOT_FUSE.addr n = slotWord n := rfl
@[simp] theorem addr_slotClass (n : Nat) : F.SEC_SESS_SLOT_CLASS.addr n = slotWord n := rfl

theorem slotWord_ge (n : Nat) : 0x2800080 ≤ slotWord n := (Fld.addr_mem_span (f := F.SEC_SESS_SLOT_OPEN) rfl (by decide) n).1

/-- What the session's own words take leaves the rings' words. -/
theorem ringed_notMem_sess {f : Fld} (hf : f.ringed = true) {i : Nat} (hi : i < 41) (n : Nat) :
    f.addr i ∉ [sessWord, F.SEC_SESS_OPEN_TOKEN.addr 0, slotWord n] := by
  have hlt := Fld.ringed_lt hf hi
  have hslot := slotWord_ge n
  have hsess : (0x2800000 : Nat) ≤ sessWord := by decide
  have htok : (0x2800000 : Nat) ≤ F.SEC_SESS_OPEN_TOKEN.addr 0 := by decide
  simp only [List.mem_cons, List.not_mem_nil, or_false, not_or]
  omega

/-- The rings of the mask bound to the slot. -/
def ringsBound (m : BitVec 64) (slot : Nat) (d : Dev) : Dev :=
  (List.range 41).foldl (fun d r => if m.getLsbD r then wr d F.HIF_RING_STATUS_SESS r slot else d) d

theorem within_ringsBound (m : BitVec 64) (slot : Nat) (d : Dev) : Within bindWords [.regs] d (ringsBound m slot d) :=
  Within.foldl (fun e _ hi => .ite (fun _ => (Within.refl _ _ e).wr (List.mem_map_of_mem hi)) fun _ => .refl _ _ e) d

/-- State and binding of a ring. -/
def ringBinding (r : Nat) (d : Dev) : Nat × Nat := (rState d r, rd d F.HIF_RING_STATUS_SESS r)

theorem ringBinding_wr_same (d : Dev) (r : Nat) {v : Nat} (hv : v < 16) :
    ringBinding r (wr d F.HIF_RING_STATUS_SESS r v) = (rState d r, v) :=
  Prod.ext (rd_wr_apart d (f := F.HIF_RING_STATUS_SESS) (g := F.HIF_RING_STATUS_STATE) (by decide)) (rd_wr_fits d ⟨by decide, hv⟩)

theorem ringBinding_wr_ne (d : Dev) {r q : Nat} (h : r ≠ q) (v : Nat) : ringBinding r (wr d F.HIF_RING_STATUS_SESS q v) = ringBinding r d :=
  Prod.ext (rd_wr_addr d F.HIF_RING_STATUS_SESS F.HIF_RING_STATUS_STATE q r v (Fld.ringed_addr_ne (by decide) (by decide) (.inr h)))
    (rd_wr_addr d F.HIF_RING_STATUS_SESS F.HIF_RING_STATUS_SESS q r v (Fld.ringed_addr_ne (by decide) (by decide) (.inr h)))

theorem Within.ringBinding {as : List Nat} {ps : List Part} {a b : Dev} (h : Within as ps a b) {r : Nat}
    (hr : F.HIF_RING_STATUS_SESS.addr r ∉ as) : ringBinding r b = ringBinding r a :=
  Prod.ext (h.rd (f := F.HIF_RING_STATUS_STATE) hr) (h.rd hr)

theorem ringBinding_ringsBound (m : BitVec 64) {slot : Nat} (hslot : slot < 16) (d : Dev) (r : Fin 41) :
    ringBinding r (ringsBound m slot d) = (rState d r, if m.getLsbD r = true then slot else rd d F.HIF_RING_STATUS_SESS r) := by
  obtain ⟨e, he, hlast⟩ := foldl_at (g := fun d r => if m.getLsbD r then wr d F.HIF_RING_STATUS_SESS r slot else d) (ringBinding r)
    List.nodup_range (List.mem_range.mpr r.isLt) (fun d q _ hne => by
      split
      · exact ringBinding_wr_ne d hne.symm slot
      · rfl) d
  refine hlast.trans ?_
  obtain ⟨hstate, hbind⟩ := Prod.ext_iff.mp he
  split
  · rw [ringBinding_wr_same e r hslot]
    exact Prod.ext hstate rfl
  · exact he

/-- The security unit once a session has opened. -/
def sessGranted (slot : Nat) (tok : W32) (x : Sec) : Sec :=
  { x with tokens := tins x.tokens slot tok, fails := x.fails.set x.exCls 0, lock := x.lock.set x.exCls 0 }

/-- The slot opens for the exchange `x` with the token `tok`. -/
def slotOpened (slot : Nat) (x : Sec) (tok : W32) (d : Dev) : Dev :=
  let d := freed (onSec d (sessGranted slot tok))
  let d := wr (wrB (wrB d F.SEC_SESS_SLOT_OPEN slot true) F.SEC_SESS_SLOT_FUSE slot x.exFuse) F.SEC_SESS_SLOT_CLASS slot x.exCls
  wr (wr d F.SEC_SESS_OPEN_TOKEN 0 tok.toNat) F.SEC_SESS_STATUS_STATE 0 3

theorem within_slotOpened (slot : Nat) (x : Sec) (tok : W32) (d : Dev) :
    Within [sessWord, F.SEC_SESS_OPEN_TOKEN.addr 0, slotWord slot] [.regs, .sec, .free] d (slotOpened slot x tok d) :=
  ((((Within.refl _ _ d).only (only_onSec _ _)).only (only_freed _)).wrB.wrB.wr).wr.wr

/-- What an open slot shows. -/
structure SlotOpened (slot : Nat) (x : Sec) (tok : W32) (b : Dev) : Prop where
  state : rd b F.SEC_SESS_STATUS_STATE = 3
  isOpen : rd b F.SEC_SESS_SLOT_OPEN slot = 1
  cls : rd b F.SEC_SESS_SLOT_CLASS slot = x.exCls.val
  fuse : rd b F.SEC_SESS_SLOT_FUSE slot = x.exFuse.toNat
  token : rd b F.SEC_SESS_OPEN_TOKEN = tok.toNat

theorem slotOpened_shows (slot : Nat) (x : Sec) (tok : W32) (d : Dev) : SlotOpened slot x tok (slotOpened slot x tok d) := by
  unfold slotOpened
  extract_lets m k
  have hopen : rd k F.SEC_SESS_SLOT_OPEN slot = 1 :=
    (rd_wr_apart _ (by decide)).trans ((rd_wrB_apart _ (by decide)).trans (rd_wrB_bit m (by decide) true))
  have hfuse : rd k F.SEC_SESS_SLOT_FUSE slot = x.exFuse.toNat := (rd_wr_apart _ (by decide)).trans (rd_wrB_bit _ (by decide) x.exFuse)
  have hcls : rd k F.SEC_SESS_SLOT_CLASS slot = x.exCls.val := rd_wr_fits _ ⟨by decide, x.exCls.isLt⟩
  have hlast {f : Fld} (h₁ : f.parted F.SEC_SESS_OPEN_TOKEN = true) (h₂ : f.parted F.SEC_SESS_STATUS_STATE = true) :
      rd (wr (wr k F.SEC_SESS_OPEN_TOKEN 0 tok.toNat) F.SEC_SESS_STATUS_STATE 0 3) f slot = rd k f slot :=
    (rd_wr_parted _ h₂).trans (rd_wr_parted _ h₁)
  refine ⟨rd_wr_fits _ (by decide), (hlast (by decide) (by decide)).trans hopen, (hlast (by decide) (by decide)).trans hcls,
    (hlast (by decide) (by decide)).trans hfuse, (rd_wr_parted _ (by decide)).trans (rd_wr_fits _ ⟨by decide, tok.isLt⟩)⟩

section
variable {s : State} (hcore : s.dev.pwr.core = true) (hst : sessState s.dev = 2)
include hcore hst

theorem responseTimeout_fails : ActsR [sessWord] [.sec, .hif] .responseTimeout s fun t => SessFails s.sn 8 s.dev t.dev := by
  have heq : respTimeout s.sn s.dev = sessFail 8 s.sn s.dev := if_pos hst
  have hspec := sessFail_spec (le_refl 8) s.sn s.dev
  exact hspec.frame.actsR (exec_of_core (g := respTimeout s.sn) rfl hcore heq) hspec

variable (hruns : secRuns s.dev = true)
include hruns

/-- The host proof that the exchange wants. -/
def hostProof (d : Dev) : List (BitVec 8) :=
  proof ((classKey d d.sec.exCls).getD []) 0x48 d.sec.exNd d.sec.exHn d.sec.exCls (sessSlot d) d.sec.exMask

omit hcore in
theorem sessionResp_eq : sessionResp s.sn s.dev =
    if ∀ w : Fin 8, tget 0 s.dev.sec.resp w.val = leWord (hostProof s.dev) w then sessGrant s.sn s.dev else sessFail 7 s.sn s.dev := by
  have hall : ((List.range 8).all fun w => leWord (hostProof s.dev) w == tget 0 s.dev.sec.resp w) = true ↔
      ∀ w : Fin 8, tget 0 s.dev.sec.resp w.val = leWord (hostProof s.dev) w := by
    simp only [List.all_eq_true, List.mem_range, beq_iff_eq]
    exact ⟨fun h w => (h w.val w.isLt).symm, fun h w hw => (h ⟨w, hw⟩).symm⟩
  unfold sessionResp
  rw [if_neg (by simp [hst, hruns])]
  exact if_congr hall rfl rfl

theorem sessionResp_fails (h : ¬ ∀ w : Fin 8, tget 0 s.dev.sec.resp w.val = leWord (hostProof s.dev) w) :
    ActsR [sessWord] [.sec, .hif] .sessionResp s fun t => SessFails s.sn 7 s.dev t.dev := by
  have heq := (sessionResp_eq hst hruns).trans (if_neg h)
  have hspec := sessFail_spec (show 7 ≤ 8 by decide) s.sn s.dev
  exact hspec.frame.actsR (exec_of_core (g := sessionResp s.sn) rfl hcore heq) hspec

/-- SESSION_OPENED. -/
def grantEv (sn : SN) (slot : Nat) (x : Sec) : Ev :=
  { typ := 0x80, sn := sn, p0 := slot, p1 := x.exCls, p2 := (pairMask x.exMask).toNat % 2 ^ 32, p3 := (pairMask x.exMask).toNat / 2 ^ 32 }

omit hcore hst hruns in
theorem sessGrant_eq (sn : SN) (d : Dev) : sessGrant sn d =
    raise (slotOpened (sessSlot d) d.sec (Config.token d.free) (ringsBound (pairMask d.sec.exMask) (sessSlot d) d)) (grantEv sn (sessSlot d) d.sec) := by
  rfl

theorem sessionResp_opens (h : ∀ w : Fin 8, tget 0 s.dev.sec.resp w.val = leWord (hostProof s.dev) w) :
    let n := rd s.dev F.SEC_SESS_STATUS_SLOT
    let x := s.dev.sec
    let m := pairMask x.exMask
    ActsR (sessWord :: F.SEC_SESS_OPEN_TOKEN.addr 0 :: slotWord n :: bindWords) [.sec, .hif, .free] .sessionResp s fun t =>
      rd t.dev F.SEC_SESS_STATUS_STATE = 3 ∧ rd t.dev F.SEC_SESS_SLOT_OPEN n = 1 ∧
      rd t.dev F.SEC_SESS_SLOT_CLASS n = x.exCls.val ∧ rd t.dev F.SEC_SESS_SLOT_FUSE n = x.exFuse.toNat ∧
      (∀ r : Fin 41, rState t.dev r = rState s.dev r ∧
        rd t.dev F.HIF_RING_STATUS_SESS r = if m.getLsbD r = true then n else rd s.dev F.HIF_RING_STATUS_SESS r) ∧
      (∃ tok, tfind t.dev.sec.tokens n = some tok ∧ rd t.dev F.SEC_SESS_OPEN_TOKEN = tok.toNat) ∧
      t.dev.sec.fails[x.exCls] = 0 ∧ t.dev.sec.lock[x.exCls] = 0 ∧ Raised s.dev t.dev [grantEv s.sn n x] := by
  intro n x m
  have heq := ((sessionResp_eq hst hruns).trans (if_pos h)).trans (sessGrant_eq s.sn s.dev)
  have hn : n < 16 := rd_lt s.dev F.SEC_SESS_STATUS_SLOT 0
  have hbound := within_ringsBound m n s.dev
  have hrings := ringBinding_ringsBound m hn s.dev
  rw [show sessSlot s.dev = n from rfl] at heq
  generalize ringsBound m n s.dev = b at *
  have hopened := within_slotOpened n x (Config.token s.dev.free) b
  obtain ⟨hstate, hopen, hcls, hfuse, htok⟩ := slotOpened_shows n x (Config.token s.dev.free) b
  have hsec : (slotOpened n x (Config.token s.dev.free) b).sec = sessGranted n (Config.token s.dev.free) x :=
    congrArg (sessGranted n (Config.token s.dev.free)) (hbound.parts .sec (by simp))
  have hstill (r : Fin 41) := hopened.ringBinding (ringed_notMem_sess (f := F.HIF_RING_STATUS_SESS) (by decide) r.isLt n)
  have hhif : (slotOpened n x (Config.token s.dev.free) b).hif = s.dev.hif :=
    (hopened.parts .hif (by simp)).trans (hbound.parts .hif (by simp))
  have htwin : (slotOpened n x (Config.token s.dev.free) b).twin = s.dev.twin :=
    (hopened.parts .twin (by simp)).trans (hbound.parts .twin (by simp))
  rw [show s.dev.sec = x from rfl] at heq
  generalize slotOpened n x (Config.token s.dev.free) b = t at *
  have hframe : Within (sessWord :: F.SEC_SESS_OPEN_TOKEN.addr 0 :: slotWord n :: bindWords) [.regs, .sec, .hif, .free] s.dev t :=
    (hbound.mono (fun _ h => List.mem_cons_of_mem _ (List.mem_cons_of_mem _ (List.mem_cons_of_mem _ h)))).next hopened
  refine hframe.raise.actsR (exec_of_core (g := sessionResp s.sn) rfl hcore heq)
    ⟨hstate, hopen, hcls, hfuse, fun r => Prod.ext_iff.mp ((hstill r).trans (hrings r)), ⟨Config.token s.dev.free, ?_, htok⟩, ?_, ?_,
      (raised_raise t _).of_same (by rw [hhif]) (by rw [htwin]) rfl⟩
  · exact (congrArg (fun y : Sec => tfind y.tokens n) hsec).trans (tfind_tins_same _ _ _)
  · exact (congrArg (fun y : Sec => y.fails[x.exCls]) hsec).trans (by simp [sessGranted])
  · exact (congrArg (fun y : Sec => y.lock[x.exCls]) hsec).trans (by simp [sessGranted])

end

/-! ### The close (R460) -/

theorem evals_mirrorRollback (d : Dev) : Evals [] [.tilth, .out, .twin] d (mirrorRollback d) := by
  unfold mirrorRollback
  dsimp only
  split
  · unfold sendEntries
    exact .ite (fun _ => ((Evals.of_only (only_onTilth d _)).mono (ps := [.tilth, .out, .twin])).next (evals_twinSend _ _ _)) fun _ => .refl _ _ d
  · exact evals_mirrorEntries d _

theorem rollback_role (d : Dev) : (rollback d).twin.role = d.twin.role := by
  have hrestore : (rollback d).twin = (mirrorRollback d).twin :=
    ((only_setShadow (mirrorRollback d) _).trans (only_cleanEnts _ _ _)) .twin (by simp)
  rw [hrestore]
  exact (evals_mirrorRollback d).role

/-- The end of a ring's batch leaves the device's role. -/
theorem abortBatchOf_role (d : Dev) (r : Nat) : (abortBatchOf d r true).twin.role = d.twin.role := by
  unfold abortBatchOf
  rw [if_pos rfl]
  split
  · next b hbatch =>
    split
    · rw [endBatch_eq hbatch, tilthStat_twin]
      exact Eq.trans (b := (batchUndone d).twin.role) rfl (by
        unfold batchUndone
        split
        · rfl
        · exact rollback_role d)
    · rfl
  · rfl

/-- A ring of the closing slot is unbound. -/
def ringUnbound (slot : Nat) (d : Dev) (r : Nat) : Dev :=
  if rd d F.HIF_RING_STATUS_SESS r = slot then abortBatchOf (wr d F.HIF_RING_STATUS_SESS r 0xF) r true else d

/-- The rings of the closing slot are unbound. -/
def ringsUnbound (slot : Nat) (d : Dev) : Dev := (List.range 41).foldl (ringUnbound slot) d

theorem ringUnbound_role (slot : Nat) (d : Dev) (r : Nat) : (ringUnbound slot d r).twin.role = d.twin.role := by
  unfold ringUnbound
  split
  · exact abortBatchOf_role (wr d F.HIF_RING_STATUS_SESS r 0xF) r
  · rfl

theorem ringsUnbound_role (slot : Nat) (d : Dev) : (ringsUnbound slot d).twin.role = d.twin.role :=
  foldl_same (g := fun d : Dev => d.twin.role) (f := ringUnbound slot) (ringUnbound_role slot) (List.range 41) d

theorem within_ringsUnbound (slot : Nat) (d : Dev) :
    Within (bindWords ++ tilthRegs) [.regs, .tilth, .sw, .out, .twin] d (ringsUnbound slot d) :=
  Within.foldl (fun e _ hi => .ite
    (fun _ => ((Within.refl _ _ e).wr (List.mem_append_left _ (List.mem_map_of_mem hi))).next (within_abortBatchOf _ _ true)
      (List.subset_append_right _ _) (List.Subset.refl _)) fun _ => .refl _ _ e) d

theorem sess_notMem_tilthRegs {r : Nat} (hr : r < 41) : F.HIF_RING_STATUS_SESS.addr r ∉ tilthRegs :=
  Fld.ringed_notMem (by decide) (by omega) (by decide)

theorem ringBinding_ringsUnbound (slot : Nat) (d : Dev) (r : Fin 41) : ringBinding r (ringsUnbound slot d) =
    (rState d r, if rd d F.HIF_RING_STATUS_SESS r = slot then 15 else rd d F.HIF_RING_STATUS_SESS r) := by
  have habort (e : Dev) (q : Nat) := (within_abortBatchOf e q true).ringBinding (sess_notMem_tilthRegs r.isLt)
  obtain ⟨e, he, hlast⟩ := foldl_at (g := ringUnbound slot) (ringBinding r) List.nodup_range (List.mem_range.mpr r.isLt)
    (fun d q _ hne => by
      unfold ringUnbound
      split
      · exact (habort _ _).trans (ringBinding_wr_ne d hne.symm 0xF)
      · rfl) d
  refine hlast.trans ?_
  obtain ⟨hstate, hbind⟩ := Prod.ext_iff.mp he
  unfold ringUnbound
  rw [show rd e F.HIF_RING_STATUS_SESS r = rd d F.HIF_RING_STATUS_SESS r from hbind]
  split
  · rw [habort, ringBinding_wr_same e r (by decide)]
    exact Prod.ext hstate rfl
  · exact he

/-- A slot that no session holds. -/
def slotClosed (slot : Nat) (d : Dev) : Dev :=
  let d := wr (wrB (wrB d F.SEC_SESS_SLOT_OPEN slot false) F.SEC_SESS_SLOT_FUSE slot false) F.SEC_SESS_SLOT_CLASS slot 0
  { d with sec := { d.sec with tokens := tdel d.sec.tokens slot } }

theorem closeSlot_eq (d : Dev) (slot : Nat) : closeSlot d slot = slotClosed slot (ringsUnbound slot d) := rfl

theorem within_slotClosed (slot : Nat) (d : Dev) : Within [slotWord slot] [.regs, .sec] d (slotClosed slot d) :=
  ((((Within.refl _ _ d).wrB).wrB).wr).only (only_sec _ _)

/-- What the close of a slot does. -/
structure SlotClosed (slot : Nat) (a b : Dev) : Prop where
  frame : Within (slotWord slot :: bindWords ++ tilthRegs) [.regs, .sec, .tilth, .sw, .out, .twin] a b
  closed : rd b F.SEC_SESS_SLOT_OPEN slot = 0
  token : tfind b.sec.tokens slot = none
  rings : ∀ r : Fin 41, rState b r = rState a r ∧
    rd b F.HIF_RING_STATUS_SESS r = if rd a F.HIF_RING_STATUS_SESS r = slot then 15 else rd a F.HIF_RING_STATUS_SESS r
  role : b.twin.role = a.twin.role

theorem closeSlot_spec (d : Dev) (slot : Nat) : SlotClosed slot d (closeSlot d slot) := by
  rw [closeSlot_eq]
  have hrings := within_ringsUnbound slot d
  have hbind := ringBinding_ringsUnbound slot d
  have hrole := ringsUnbound_role slot d
  generalize ringsUnbound slot d = b at *
  have hclosed := within_slotClosed slot b
  refine ⟨(hrings.mono (fun _ h => List.mem_cons_of_mem _ h)).next hclosed, ?_, tfind_tdel_same _ _, fun r => ?_, hrole⟩
  · have hopen : rd (wr (wrB (wrB b F.SEC_SESS_SLOT_OPEN slot false) F.SEC_SESS_SLOT_FUSE slot false) F.SEC_SESS_SLOT_CLASS slot 0)
        F.SEC_SESS_SLOT_OPEN slot = 0 :=
      (rd_wr_apart _ (by decide)).trans ((rd_wrB_apart _ (by decide)).trans (rd_wrB_bit b (by decide) false))
    exact hopen
  · have hnot := ringed_notMem_sess (f := F.HIF_RING_STATUS_SESS) (by decide) r.isLt slot
    simp only [List.mem_cons, List.not_mem_nil, or_false, not_or] at hnot
    exact Prod.ext_iff.mp ((hclosed.ringBinding (r := r.val) (by simpa using hnot.2.2)).trans (hbind r))

section
variable {s : State} {slot : Fin 16} (hcore : s.dev.pwr.core = true)
include hcore

theorem sessionClose_closes {tok : W32} (htok : tfind s.dev.sec.tokens slot = some tok) (hright : rd s.dev F.SEC_SESS_CLOSE_TOKEN = tok.toNat) :
    ActsR (slotWord slot :: bindWords ++ tilthRegs) [.sec, .hif, .tilth, .sw, .twin, .out] (.sessionClose slot) s fun t =>
      rd t.dev F.SEC_SESS_SLOT_OPEN slot = 0 ∧ tfind t.dev.sec.tokens slot = none ∧
      (∀ r : Fin 41, rState t.dev r = rState s.dev r ∧
        rd t.dev F.HIF_RING_STATUS_SESS r = if rd s.dev F.HIF_RING_STATUS_SESS r = slot.val then 15 else rd s.dev F.HIF_RING_STATUS_SESS r) ∧
      Raised s.dev t.dev [{ typ := 0x81, sn := s.sn, p0 := slot, p1 := 1 }] := by
  have heq : sessionClose slot s.sn s.dev = raise (closeSlot s.dev slot) { typ := 0x81, sn := s.sn, p0 := slot, p1 := 1 } := by
    unfold sessionClose
    rw [htok]
    exact if_pos hright
  obtain ⟨hframe, hclosed, htoken, hrings, hrole⟩ := closeSlot_spec s.dev slot
  generalize closeSlot s.dev slot = b at *
  have hhif : b.hif = s.dev.hif := hframe.parts .hif (by simp)
  have hwide : Within (slotWord slot :: bindWords ++ tilthRegs) [.regs, .sec, .hif, .tilth, .sw, .twin, .out] s.dev b :=
    hframe.mono (List.Subset.refl _)
  exact hwide.raise.actsR (exec_of_core (g := sessionClose slot s.sn) rfl hcore heq)
    ⟨hclosed, htoken, hrings, (raised_raise b _).of_same (by rw [hhif]) hrole rfl⟩

theorem sessionClose_counts (hwrong : ∀ tok, tfind s.dev.sec.tokens slot = some tok → rd s.dev F.SEC_SESS_CLOSE_TOKEN ≠ tok.toNat) :
    ActsR [F.SEC_SMB_CNT_AUTH_FAIL.addr 0] [] (.sessionClose slot) s fun t =>
      rd t.dev F.SEC_SMB_CNT_AUTH_FAIL = satAdd 16 (rd s.dev F.SEC_SMB_CNT_AUTH_FAIL) 1 := by
  have heq : sessionClose slot s.sn s.dev = sat s.dev F.SEC_SMB_CNT_AUTH_FAIL 0 := by
    unfold sessionClose
    split
    · next t ht => exact if_neg (hwrong t ht)
    · rfl
  exact ((Within.refl _ _ s.dev).sat).actsR (exec_of_core (g := sessionClose slot s.sn) rfl hcore heq) (rd_sat_same _ (by decide) _ _)

theorem lockoutExpiry_unlocks (cls : Fin 5) : Acts [.sec] (.lockoutExpiry cls) s fun t =>
    t.dev.sec = { s.dev.sec with locked := s.dev.sec.locked.set cls.val false } :=
  (Within.of_only (only_onSec s.dev fun x => { x with locked := x.locked.set cls.val false })).acts
    (exec_of_core (g := fun d => onSec d fun x => { x with locked := x.locked.set cls.val false }) rfl hcore rfl) rfl

end

/-- What a failed exchange leaves, as the statement says it. -/
theorem SessFails.shown {sn : SN} {r : Nat} {a b : Dev} (h : SessFails sn r a b) :
    let x := a.sec
    let k := x.exCls
    let n := x.fails[k] + (if 7 ≤ r then 1 else 0)
    let len := if 7 ≤ r ∧ 5 ≤ n then (if x.lock[k] = 0 then 60 else min 3600 (2 * x.lock[k])) else x.lock[k]
    let locked := x.locked[k] || decide (7 ≤ r ∧ 5 ≤ n)
    rd b F.SEC_SESS_STATUS_STATE = 4 ∧ rd b F.SEC_SESS_STATUS_FAIL = r ∧
    b.sec.fails[k] = n ∧ b.sec.lock[k] = len ∧ b.sec.locked[k] = locked ∧
    (∀ j : Fin 8, j ≠ k → b.sec.fails[j] = x.fails[j] ∧ b.sec.locked[j] = x.locked[j]) ∧
    Raised a b [{ typ := 0x82, sn := sn, p0 := k, p1 := r, p2 := n, p3 := if locked = true then len else 0 }] := by
  intro x k n len locked
  have hlen : failLen x r = len := by simp only [failLen, failLocks, decide_eq_true_eq]; rfl
  have hlocked (j : Fin 8) := sessFailed_locked r a.sec j
  rw [h.sec]
  refine ⟨h.state, h.reason, ?_, ?_, (hlocked k).trans (if_pos rfl), fun j hj => ⟨?_, (hlocked j).trans (if_neg hj)⟩, ?_⟩
  · exact (Vector.getElem_set_self _).trans rfl
  · exact (Vector.getElem_set_self _).trans hlen
  · exact Vector.getElem_set_ne a.sec.exCls.isLt j.isLt fun he => hj (Fin.ext he.symm)
  · have hraised := h.raised
    rw [failEv, hlen] at hraised
    exact hraised

/-- Settles O51: the exchange from OPEN to its end, and the close. -/
theorem sessionsOpenByProof : Obligations.SessionsOpenByProof := by
  intro s slot cls hcore x st status m key open' why fails
  have hfails {c : Instr} {r : Nat} (h : ActsR [sessWord] [.sec, .hif] c s fun t => SessFails s.sn r s.dev t.dev) : fails c r :=
    h.weaken fun t ht => ht.shown
  refine ⟨sessionOpen_collides hcore, sessionOpen_opens hcore, fun hst hruns hwhy => hfails (challenge_fails hcore hst hruns hwhy),
    challenge_answers hcore, fun hst hruns => ⟨fun hwrong => hfails (sessionResp_fails hcore hst hruns hwrong),
      sessionResp_opens hcore hst hruns⟩, fun hst => hfails (responseTimeout_fails hcore hst),
    fun tok htok hright => sessionClose_closes hcore htok hright, sessionClose_counts hcore, lockoutExpiry_unlocks hcore cls⟩

end Sys2Proof.Machine
end

