-- ==== Sys2Proof/Proofs/Fuses.lean ====
section
/-! PROOFS. Fuse programming, the anti-rollback floor and the JTAG challenge (R464, R467, R469, R473, R474). -/

namespace Sys2Proof.Machine

-- In order: a default argument `by simp` waits for every declaration before it, and many that wait take many threads.
set_option Elab.async false

/-! ### A physical word (Table 18-5a) -/

/-- A word that programming has committed holds its data, its TAG and a matching CHK. -/
structure Committed (w : BitVec 64) (i : Nat) (v : W32) : Prop where
  data : w.extractLsb' 0 32 = v
  tag : (w.extractLsb' 32 8).toNat = i % 256
  commit : w.getLsbD 48 = true
  rest : w.extractLsb' 49 15 = 0
  valid : fuseValid w = true

/-- A bit of three words joined. -/
theorem getLsbD_joined (a : BitVec 16) (b : BitVec 8) (c : BitVec 40) (w : BitVec 64) (hw : w = a ++ (b ++ c)) (j : Nat) :
    w.getLsbD j = if j < 40 then c.getLsbD j else if j < 48 then b.getLsbD (j - 40) else a.getLsbD (j - 48) := by
  subst hw
  refine (BitVec.getLsbD_append (x := a) (y := b ++ c) (i := j)).trans ?_
  rw [BitVec.getLsbD_append]
  by_cases h₁ : j < 40
  · simp [h₁, show j < 8 + 40 by omega]
  · by_cases h₂ : j < 48
    · simp [h₁, h₂]
    · simp [h₁, h₂]

theorem committed_fuseWord (i : Nat) (v : W32) : Committed (fuseWord i v true) i v := by
  obtain ⟨lo, hlo⟩ : ∃ lo : BitVec 40, lo = BitVec.ofNat 8 i ++ v := ⟨_, rfl⟩
  have hbit := getLsbD_joined (BitVec.ofNat 16 1) (crc8 (msbBits lo)) lo (fuseWord i v true) (by rw [hlo]; rfl)
  have hlobit (j : Nat) : lo.getLsbD j = if j < 32 then v.getLsbD j else (BitVec.ofNat 8 i).getLsbD (j - 32) := by
    rw [hlo]
    exact BitVec.getLsbD_append
  have hlow : (fuseWord i v true).extractLsb' 0 40 = lo := BitVec.eq_of_getLsbD_eq fun j hj => by
    simp [hbit, hj]
  have hchk : (fuseWord i v true).extractLsb' 40 8 = crc8 (msbBits lo) := BitVec.eq_of_getLsbD_eq fun j hj => by
    simp [hbit, hj, show 40 + j < 48 by omega]
  have htag : (fuseWord i v true).extractLsb' 32 8 = BitVec.ofNat 8 i := BitVec.eq_of_getLsbD_eq fun j hj => by
    rw [BitVec.getLsbD_extractLsb', hbit, if_pos (show 32 + j < 40 by omega), hlobit, if_neg (show ¬ 32 + j < 32 by omega)]
    simp [hj]
  have hcommit : (fuseWord i v true).getLsbD 48 = true := by
    rw [hbit]
    rfl
  refine ⟨BitVec.eq_of_getLsbD_eq fun j hj => ?_, by rw [htag, BitVec.toNat_ofNat], hcommit, BitVec.eq_of_getLsbD_eq fun j hj => ?_, ?_⟩
  · rw [BitVec.getLsbD_extractLsb', hbit, if_pos (show 0 + j < 40 by omega), hlobit, if_pos (show 0 + j < 32 by omega)]
    simp [hj]
  · rw [BitVec.getLsbD_extractLsb', hbit, if_neg (show ¬ 49 + j < 40 by omega), if_neg (show ¬ 49 + j < 48 by omega)]
    have hone : (BitVec.ofNat 16 1).getLsbD (49 + j - 48) = false := by
      rw [BitVec.getLsbD_ofNat, show 49 + j - 48 = j + 1 by omega, Nat.testBit_add_one]
      simp
    simp [hone]
  · rw [fuseValid, hcommit, hlow, hchk]
    simp

/-! ### SEC_FUSE_GO (R469) -/

abbrev fuseStatus : Nat := F.SEC_FUSE_STATUS_BUSY.addr 0

@[simp] theorem addr_fuseErr : F.SEC_FUSE_STATUS_ERR.addr 0 = fuseStatus := rfl

/-- The word that a GO names, and what it writes there. -/
def goIdx (d : Dev) : Nat := rd d F.SEC_FUSE_IDX
def goData (d : Dev) : W32 := BitVec.ofNat 32 (rd d F.SEC_FUSE_PROG_DATA)

/-- A GO that the fuses admit has a blank word to take: the home word, or the lowest blank spare. -/
theorem fuseTarget_spec {d : Dev} {i : Nat} {v : W32} (h : fuseErr d i v = 0) : ∃ p, fuseTarget d i = some p ∧ fuseAt d p = 0 ∧
    (fuseAt d i = 0 → p = i) ∧ (fuseAt d i ≠ 0 → 256 ≤ p ∧ p < 320 ∧ ∀ q, 256 ≤ q → q < p → fuseAt d q ≠ 0) := by
  have hsome : (fuseTarget d i).isNone = false := by
    unfold fuseErr at h
    rw [Bool.eq_false_iff]
    intro hnone
    rw [hnone] at h
    split at h
    · omega
    · split at h
      · omega
      · split at h
        · omega
        · rw [if_pos rfl] at h
          omega
  obtain ⟨p, hp⟩ : ∃ p, fuseTarget d i = some p := Option.isSome_iff_exists.mp (by simpa using hsome)
  refine ⟨p, hp, ?_⟩
  unfold fuseTarget at hp
  split at hp
  · next hblank =>
    obtain rfl := Option.some.inj hp
    exact ⟨hblank, fun _ => rfl, fun hne => absurd hblank hne⟩
  · next hblank =>
    rw [List.find?_map] at hp
    obtain ⟨k, hk, rfl⟩ := Option.map_eq_some_iff.mp hp
    rw [List.find?_range_eq_some] at hk
    obtain ⟨hfree, hlt, hbefore⟩ := hk
    rw [List.mem_range] at hlt
    refine ⟨by simpa using hfree, fun h => absurd h hblank, fun _ => ⟨by omega, by omega, fun q hlow hq => ?_⟩⟩
    have hq' := hbefore (q - 256) (by omega)
    rw [Function.comp, show 256 + (q - 256) = q by omega] at hq'
    simpa using hq'

/-- The security unit once a GO has been taken up: a word is being programmed, or the GO ends in an error. -/
def goTaken (d : Dev) (x : Sec) : Sec :=
  if fuseErr d (goIdx d) (goData d) = 0 then { x with prog := some (goIdx d, (fuseTarget d (goIdx d)).getD 0, goData d) }
  else { x with progBad := some (goIdx d, fuseErr d (goIdx d) (goData d)) }

theorem goTaken_spec (d : Dev) (x : Sec) : (goTaken d x).fuses = x.fuses ∧ (goTaken d x).logical = x.logical ∧
    (fuseErr d (goIdx d) (goData d) ≠ 0 →
      (goTaken d x).progBad = some (goIdx d, fuseErr d (goIdx d) (goData d)) ∧ (goTaken d x).prog = x.prog) ∧
    (fuseErr d (goIdx d) (goData d) = 0 → (goTaken d x).prog = some (goIdx d, (fuseTarget d (goIdx d)).getD 0, goData d)) := by
  unfold goTaken
  split
  next h => exact ⟨rfl, rfl, fun hne => absurd h hne, fun _ => rfl⟩
  next h => exact ⟨rfl, rfl, fun _ => ⟨rfl, rfl⟩, fun hz => absurd hz h⟩

section
variable {s : State} (hcore : s.dev.pwr.core = true)

theorem fuseGo_busy (hbusy : rd s.dev F.SEC_FUSE_STATUS_BUSY = 1) : exec .secFuseGo s = .next s :=
  exec_of_core_self (g := fuseGo) rfl (if_pos (rdB_of_bit.2 hbusy))

include hcore in
theorem fuseGo_goes (hidle : rd s.dev F.SEC_FUSE_STATUS_BUSY = 0) : ActsR [fuseStatus] [.sec] .secFuseGo s fun t =>
    rd t.dev F.SEC_FUSE_STATUS_BUSY = 1 ∧ t.dev.sec.fuses = s.dev.sec.fuses ∧ t.dev.sec.logical = s.dev.sec.logical ∧
    (fuseErr s.dev (goIdx s.dev) (goData s.dev) ≠ 0 →
      t.dev.sec.progBad = some (goIdx s.dev, fuseErr s.dev (goIdx s.dev) (goData s.dev)) ∧ t.dev.sec.prog = s.dev.sec.prog) ∧
    (fuseErr s.dev (goIdx s.dev) (goData s.dev) = 0 →
      t.dev.sec.prog = some (goIdx s.dev, (fuseTarget s.dev (goIdx s.dev)).getD 0, goData s.dev)) := by
  have heq : fuseGo s.dev = wrB (onSec s.dev (goTaken s.dev)) F.SEC_FUSE_STATUS_BUSY 0 true :=
    if_neg (by rw [rdB_of_bit.1 hidle]; decide)
  exact (((Within.refl _ _ s.dev).only (only_onSec _ _)).wrB).actsR (exec_of_core (g := fuseGo) rfl hcore heq)
    ⟨rd_wrB_bit _ (by decide) true, goTaken_spec s.dev s.dev.sec⟩

end

/-! ### SEC_FUSE_DONE (R469) -/

/-- BUSY and ERR at the end of a GO. -/
theorem fuseStatus_ends (d : Dev) (k : Nat) :
    rd (wr (wrB d F.SEC_FUSE_STATUS_BUSY 0 false) F.SEC_FUSE_STATUS_ERR 0 k) F.SEC_FUSE_STATUS_BUSY = 0 ∧
    rd (wr (wrB d F.SEC_FUSE_STATUS_BUSY 0 false) F.SEC_FUSE_STATUS_ERR 0 k) F.SEC_FUSE_STATUS_ERR = k % 8 :=
  ⟨(rd_wr_apart _ (by decide)).trans (rd_wrB_bit d (by decide) false), rd_wr_same _ _ _ _ (by decide)⟩

section
variable {s : State} (hcore : s.dev.pwr.core = true)
include hcore

theorem fuseDone_commits {j p : Nat} {w : W32} (hprog : s.dev.sec.prog = some (j, p, w)) : ActsR [fuseStatus] [.sec, .hif] .secFuseDone s fun t =>
    rd t.dev F.SEC_FUSE_STATUS_BUSY = 0 ∧ rd t.dev F.SEC_FUSE_STATUS_ERR = 0 ∧ t.dev.sec.prog = none ∧
    t.dev.sec.logical = s.dev.sec.logical ∧ Committed (tget 0 t.dev.sec.fuses p) j w ∧
    (∀ q, q ≠ p → tget 0 t.dev.sec.fuses q = tget 0 s.dev.sec.fuses q) ∧
    Raised s.dev t.dev [{ typ := 0x83, sn := s.sn, p0 := j, p1 := p, p2 := 0 }] := by
  obtain ⟨m, hm⟩ : ∃ m, m = onSec s.dev fun x => { x with fuses := tput 0 x.fuses p (fuseWord j w true), prog := none } := ⟨_, rfl⟩
  have hsec : m.sec = { s.dev.sec with fuses := tput 0 s.dev.sec.fuses p (fuseWord j w true), prog := none } := by rw [hm]; rfl
  have hlogical : m.sec.logical = s.dev.sec.logical := by rw [hsec]
  have hframe : Within [fuseStatus] [.regs, .sec, .hif] s.dev m := hm ▸ (Within.refl _ _ s.dev).only (only_onSec _ _)
  have hhif : m.hif = s.dev.hif := by rw [hm]; rfl
  have htwin : m.twin = s.dev.twin := by rw [hm]; rfl
  have heq : fuseDone s.sn s.dev = raise (wr (wrB m F.SEC_FUSE_STATUS_BUSY 0 false) F.SEC_FUSE_STATUS_ERR 0 0)
      { typ := 0x83, sn := s.sn, p0 := j, p1 := p } := by
    unfold fuseDone
    rw [hprog, hm]
  obtain ⟨hbusy, herr⟩ := fuseStatus_ends m 0
  refine hframe.wrB.wr.raise.actsR (exec_of_core (g := fuseDone s.sn) rfl hcore heq)
    ⟨hbusy, herr, congrArg Sec.prog hsec, hlogical, ?_, fun q hq => ?_, (raised_raise _ _).of_same ?_ ?_ rfl⟩
  · have hword := (congrArg (fun x : Sec => tget 0 x.fuses p) hsec).trans (tget_tput_same _ _ _ _)
    exact hword ▸ committed_fuseWord j w
  · exact (congrArg (fun x : Sec => tget 0 x.fuses q) hsec).trans (tget_tput_ne _ _ _ hq)
  · exact congrArg Hif.evq hhif
  · exact congrArg Twin.role htwin

theorem fuseDone_fails {j k : Nat} (hprog : s.dev.sec.prog = none) (hbad : s.dev.sec.progBad = some (j, k)) :
    ActsR [fuseStatus] [.sec, .hif, .free] .secFuseDone s fun t =>
      rd t.dev F.SEC_FUSE_STATUS_BUSY = 0 ∧ rd t.dev F.SEC_FUSE_STATUS_ERR = k % 8 ∧ t.dev.sec.fuses = s.dev.sec.fuses ∧
      ∃ p, Raised s.dev t.dev [{ typ := 0x83, sn := s.sn, p0 := j, p1 := p, p2 := k }] := by
  obtain ⟨m, hm⟩ : ∃ m, m = onSec s.dev fun x => { x with progBad := none } := ⟨_, rfl⟩
  have hframe : Within [fuseStatus] [.regs, .sec, .hif, .free] s.dev m := hm ▸ (Within.refl _ _ s.dev).only (only_onSec _ _)
  have hfuses : m.sec.fuses = s.dev.sec.fuses := by rw [hm]; rfl
  have hhif : m.hif = s.dev.hif := by rw [hm]; rfl
  have htwin : m.twin = s.dev.twin := by rw [hm]; rfl
  obtain ⟨p, heq⟩ : ∃ p, fuseDone s.sn s.dev = freed (raise (wr (wrB m F.SEC_FUSE_STATUS_BUSY 0 false) F.SEC_FUSE_STATUS_ERR 0 k)
      { typ := 0x83, sn := s.sn, p0 := j, p1 := p, p2 := k }) := by
    unfold fuseDone
    rw [hprog, hbad, hm]
    exact ⟨_, rfl⟩
  obtain ⟨hbusy, herr⟩ := fuseStatus_ends m k
  exact (hframe.wrB.wr.raise.only (only_freed _)).actsR (exec_of_core (g := fuseDone s.sn) rfl hcore heq)
    ⟨hbusy, herr, hfuses, p, (raised_raise (wr (wrB m _ _ _) _ _ _) _).of_same (congrArg Hif.evq hhif) (congrArg Twin.role htwin) rfl⟩

end

/-! ### SEC_SVN_RAISED (R474) -/

/-- An SVN word that may be programmed. -/
def svnUnused (d : Dev) (k : Nat) : Bool := fuseAt d (160 + k) == 0 && (fuseResolve d (160 + k)).1 == 0

theorem svnUnused_iff (d : Dev) (k : Nat) :
    svnUnused d k = true ↔ tget 0 d.sec.fuses (160 + k) = 0 ∧ (fuseResolve d (160 + k)).1 = 0 := by
  simp [svnUnused, fuseAt]

section
variable {s : State} (hcore : s.dev.pwr.core = true) (hruns : secRuns s.dev = true)
  (hfloor : floorNow s.dev < rd s.dev F.CTL_CORE_STATUS_SVN) (hprog : s.dev.sec.prog = none)

theorem svnRaised_off (hoff : (calPolicy s.dev).testBit 5 = false) : exec .secSvnRaised s = .next s :=
  exec_of_core_self (g := svnRaise s.sn) rfl (if_pos (by simp [hoff]))

include hruns hfloor hprog

theorem svnRaise_eq (hon : (calPolicy s.dev).testBit 5 = true) : svnRaise s.sn s.dev =
    match (List.range 64).find? (svnUnused s.dev) with
    | some k => raise (onSec s.dev fun x => { x with
        fuses := tput 0 x.fuses (160 + k) (fuseWord (160 + k) (BitVec.ofNat 32 (rd s.dev F.CTL_CORE_STATUS_SVN)) true) })
        { typ := 0x84, sn := s.sn, p0 := rd s.dev F.CTL_CORE_STATUS_SVN }
    | none => raise s.dev { typ := 0x85, sn := s.sn, p0 := floorNow s.dev } := by
  unfold svnRaise
  dsimp only
  rw [if_neg (by simp [hon, hruns, hprog, Nat.not_le.mpr hfloor])]
  rfl

include hcore

theorem svnRaised_programs (hon : (calPolicy s.dev).testBit 5 = true) {k : Fin 64} (hk : svnUnused s.dev k = true)
    (hfirst : ∀ j : Fin 64, j < k → svnUnused s.dev j ≠ true) : Acts [.sec, .hif] .secSvnRaised s fun t =>
      Committed (tget 0 t.dev.sec.fuses (160 + k.val)) (160 + k.val) (BitVec.ofNat 32 (rd s.dev F.CTL_CORE_STATUS_SVN)) ∧
      (∀ q, q ≠ 160 + k.val → tget 0 t.dev.sec.fuses q = tget 0 s.dev.sec.fuses q) ∧
      Raised s.dev t.dev [{ typ := 0x84, sn := s.sn, p0 := rd s.dev F.CTL_CORE_STATUS_SVN }] := by
  have hfind : (List.range 64).find? (svnUnused s.dev) = some k.val := by
    rw [List.find?_range_eq_some]
    exact ⟨hk, List.mem_range.mpr k.isLt, fun j hj => by simpa using hfirst ⟨j, by omega⟩ hj⟩
  have heq := svnRaise_eq hruns hfloor hprog hon
  rw [hfind] at heq
  dsimp only at heq
  refine (((Within.refl [] _ s.dev).only (only_onSec s.dev _)).raise).acts (exec_of_core (g := svnRaise s.sn) rfl hcore heq)
    ⟨?_, fun q hq => tget_tput_ne _ _ _ hq, raised_raise _ _⟩
  have hword := committed_fuseWord (160 + k.val) (BitVec.ofNat 32 (rd s.dev F.CTL_CORE_STATUS_SVN))
  rw [← tget_tput_same 0 s.dev.sec.fuses (160 + k.val)
    (fuseWord (160 + k.val) (BitVec.ofNat 32 (rd s.dev F.CTL_CORE_STATUS_SVN)) true)] at hword
  exact hword

theorem svnRaised_full (hon : (calPolicy s.dev).testBit 5 = true) (hnone : ∀ k : Fin 64, svnUnused s.dev k ≠ true) :
    Acts [.hif] .secSvnRaised s fun t => Raised s.dev t.dev [{ typ := 0x85, sn := s.sn, p0 := floorNow s.dev }] := by
  have hfind : (List.range 64).find? (svnUnused s.dev) = none := by
    rw [List.find?_eq_none]
    exact fun j hj => hnone ⟨j, List.mem_range.mp hj⟩
  have heq := svnRaise_eq hruns hfloor hprog hon
  rw [hfind] at heq
  exact ((Within.refl [] _ s.dev).raise).acts (exec_of_core (g := svnRaise s.sn) rfl hcore heq) (raised_raise _ _)

end

/-! ### JTAG_CHALLENGE (R467) -/

section
variable {s : State} (resp : BitVec 256)

theorem jtag_closed (h : secLocked s.dev = false ∨ dbgMode s.dev ≠ 1) : exec (.jtagChallenge resp) s = .next s :=
  exec_of_core_self (g := jtagChallenge resp) rfl (if_pos (by simpa using h))

theorem jtag_challenges (hcore : s.dev.pwr.core = true) (hlocked : secLocked s.dev = true) (hmode : dbgMode s.dev = 1) :
    Acts [.sec, .out, .free] (.jtagChallenge resp) s fun t =>
      ∃ n, Sent s.dev t.dev [.jtag n] ∧ (s.dev.sec.dbgOpen = true → t.dev.sec.dbgOpen = true) ∧
        (s.dev.sec.dbgOpen = false → (t.dev.sec.dbgOpen = true ↔ ∃ k, classKey s.dev 3 = some k ∧
          hmac k (0x4A#8 :: leBytes n) = (List.range 32).map fun j => resp.extractLsb' (8 * j) 8)) := by
  obtain ⟨n, hn⟩ : ∃ n, n = Config.nonce s.dev.free := ⟨_, rfl⟩
  obtain ⟨ok, hok⟩ : ∃ ok : Bool, (ok = true ↔ ∃ k, classKey s.dev 3 = some k ∧
      hmac k (0x4A#8 :: leBytes n) = (List.range 32).map fun j => resp.extractLsb' (8 * j) 8) ∧
      jtagChallenge resp s.dev = onSec (freed (emit s.dev (.jtag n))) fun x => { x with dbgOpen := x.dbgOpen || ok } := by
    refine ⟨match classKey s.dev 3 with
      | some k => hmac k (0x4A#8 :: leBytes n) == (List.range 32).map fun j => resp.extractLsb' (8 * j) 8
      | none => false, ?_, ?_⟩
    · cases classKey s.dev 3 <;> simp
    · rw [hn]
      exact if_neg (by simp [hlocked, hmode])
  obtain ⟨hiff, heq⟩ := hok
  have hframe : Within [] [.sec, .out, .free] s.dev (onSec (freed (emit s.dev (.jtag n))) fun x => { x with dbgOpen := x.dbgOpen || ok }) :=
    (((Within.refl _ _ s.dev).emit).only (only_freed _)).only (only_onSec _ _)
  refine hframe.acts (exec_of_core (g := jtagChallenge resp) rfl hcore heq) ⟨n, rfl, fun ho => ?_, fun hc => ?_⟩
  · exact (congrArg (· || ok) ho).trans rfl
  · rw [← hiff]
    exact Eq.to_iff (congrArg (· = true) ((congrArg (· || ok) hc).trans (Bool.false_or ok)))

end

/-- Settles O53: fuse programming, the floor and the JTAG challenge. -/
theorem fusesAndFloor : Obligations.FusesAndFloor := by
  intro s resp hcore x status i v e blank committed
  have hcommitted {w : BitVec 64} {i : Nat} {v : W32} (h : Committed w i v) : committed w i v :=
    ⟨h.data, h.tag, h.commit, h.rest, h.valid⟩
  refine ⟨fuseGo_busy, fun hidle => (fuseGo_goes hcore hidle).weaken ?_, fun j p w hprog => (fuseDone_commits hcore hprog).weaken ?_,
    fun j k => fuseDone_fails hcore, fun hruns hfloor hprog => ⟨svnRaised_off, fun hon k hk hfirst => ?_, fun hon hnone => ?_⟩,
    jtag_challenges resp hcore, jtag_closed resp⟩
  · rintro t ⟨hbusy, hfuses, hlogical, hbad, hgood⟩
    refine ⟨hbusy, hfuses, hlogical, fun hnil => ?_, hbad, fun hz => ?_⟩
    · have herr : fuseErr s.dev (goIdx s.dev) (goData s.dev) = 1 := if_pos hnil
      rw [herr] at hbad
      exact (hbad (by decide)).1
    · obtain ⟨p, hp, hblank, hhome, hspare⟩ := fuseTarget_spec hz
      refine ⟨p, (hgood hz).trans ?_, hblank, hhome, hspare⟩
      rw [show fuseTarget s.dev (goIdx s.dev) = some p from hp]
      rfl
  · rintro t ⟨hbusy, herr, hnone, hlogical, hword, hrest⟩
    exact ⟨hbusy, herr, hnone, hlogical, hcommitted hword, hrest⟩
  · refine (svnRaised_programs hcore hruns hfloor hprog hon ((svnUnused_iff s.dev k).mpr hk)
      fun j hj h => hfirst j hj ((svnUnused_iff s.dev j).mp h)).weaken ?_
    rintro t ⟨hword, hrest⟩
    exact ⟨hcommitted hword, hrest⟩
  · exact svnRaised_full hcore hruns hfloor hprog hon fun k h => hnone k ((svnUnused_iff s.dev k).mp h)

end Sys2Proof.Machine
end

