-- ==== Sys2Proof/Proofs/RegisterWords.lean ====
section
/-! PROOFS. BAR0 words: the fields at an address, what a read answers and clears, what a write stores (R9, R510, R511). -/

namespace Sys2Proof.Machine

-- In order: a default argument `by simp` waits for every declaration before it, and many that wait take many threads.
set_option Elab.async false

/-! ### The fields at an address -/

theorem Fld.idxAt_some {f : Fld} {a i : Nat} (h : f.idxAt a = some i) : f.addr i = a ∧ i < f.count := by
  unfold Fld.idxAt at h
  split at h
  · exact absurd h (by simp)
  · extract_lets o j r k at h
    split at h
    · next hin =>
      obtain rfl := Option.some.inj h
      exact ⟨hin.2.2, hin.2.1⟩
    · exact absurd h (by simp)

theorem mem_fldsAt {a : Nat} {p : Fld × Nat} (h : p ∈ fldsAt a) : p.1.addr p.2 = a ∧ p.2 < p.1.count := by
  obtain ⟨f, -, hf⟩ := List.mem_filterMap.mp h
  obtain ⟨i, hi, rfl⟩ := Option.map_eq_some_iff.mp hf
  exact Fld.idxAt_some hi

theorem fldsAt_of_unimplemented {a : Nat} (h : implemented a = false) : fldsAt a = [] := by
  simpa [implemented] using h

/-- A step that leaves the device does not count in a fold. -/
theorem foldl_of_fixed {α β : Type} {g : β → α → β} {l : List α} (h : ∀ b, ∀ x ∈ l, g b x = b) (b : β) : l.foldl g b = b := by
  induction l with
  | nil => rfl
  | cons x l ih =>
    rw [List.foldl_cons, h b x List.mem_cons_self]
    exact ih fun b y hy => h b y (List.mem_cons_of_mem x hy)

/-! ### What a read clears -/

theorem clearWord_of_keeps (d : Dev) {a : Nat} (h : ∀ p ∈ fldsAt a, p.1.acc ≠ .rcl) : clearWord d a = d :=
  foldl_of_fixed (fun _ p hp => if_pos (h p hp)) d

theorem within_clearWord (d : Dev) {a : Nat} (h : ∀ p ∈ fldsAt a, p.1 ≠ F.LNE_PRBS_ERR_ERR) : Within [a] [.regs] d (clearWord d a) :=
  Within.foldl (fun e p hp => .ite (fun _ => .refl _ _ e) fun _ => by
    have haddr := (mem_fldsAt hp).1
    rw [if_neg (h p hp)]
    exact (Within.refl _ _ e).wr (by simp [haddr])) d

/-! ### What a read answers -/

/-- The word of the fields at an address, WO fields zero. -/
def plainWord (d : Dev) (a : Nat) : W32 :=
  (fldsAt a).foldl (fun w p => if p.1.acc = .wo then putBits w p.1.lo p.1.wd 0 else w) (rdWord d a)

/-- A status field that shows state held elsewhere, where it lies in the word. -/
def viewed (a : Nat) (w : W32) (p : Fld × (Nat → Nat)) : W32 :=
  match p.1.idxAt a with
  | some i => putBits w p.1.lo p.1.wd (p.2 i)
  | none => w

/-- The fields of that kind. -/
def viewFlds : List Fld :=
  [F.GLB_SETUP_LOCK_LOCK, F.GLB_ID_REV_LTR, F.GLB_ID_REV_DIG, F.GLB_DEV_ID_LO, F.GLB_DEV_ID_HI, F.GLB_GPIO_IN_VAL, F.LNE_RX_CTLE_PEAK,
   F.LNE_RX_DFE_TAP1, F.LNE_RX_FFE_TAP, F.GLB_TILTH_OCC_U_IN, F.GLB_TILTH_OCC_U_OUT, F.GLB_PROT_STATUS_GROUPS, F.FRM_PSC_QUEUE_DEPTH,
   F.MAP_LANE_STATUS_BLK_LOCK, F.MAP_LANE_STATUS_AM_LOCK, F.MAP_LANE_STATUS_HI_BER, F.MAP_LANE_STATUS_FLX_OH_LOCK,
   F.MAP_LANE_STATUS_FLX_MF_LOCK, F.TWN_STATUS_ROLE, F.TWN_HOLD, F.HIF_ATS_STATUS_VALID, F.HIF_ATS_STATUS_PRG_OUT, F.TIM_STATUS_QL_OUT,
   F.TIM_FOFS, F.PMN_STATUS_OBJECTS, F.SEC_STATUS_LOCKED, F.SEC_STATUS_PUSH_DIS, F.SEC_STATUS_DBG, F.SEC_STATUS_SPARES,
   F.SEC_STATUS_SVN_FLOOR, F.SEC_SESS_STATUS_LOCKOUT, F.SEC_FUSE_RD_DATA, F.SEC_FUSE_RD_STAT_STATE, F.SEC_FUSE_RD_STAT_PHYS,
   F.SEC_FUSE_RD_STAT_SECRET, F.PWR_STATUS_STATE]

theorem views_flds (lock : Bool) (d : Dev) : (views lock d).map (·.1) = viewFlds := rfl

theorem readWord_eq (lock : Bool) (d : Dev) (a : Nat) :
    readWord lock d a = if implemented a = true then (views lock d).foldl (viewed a) (plainWord d a) else 0 := by
  unfold readWord
  cases implemented a <;> rfl

theorem readWord_of_unimplemented {a : Nat} (h : implemented a = false) (lock : Bool) (d : Dev) : readWord lock d a = 0 := by
  rw [readWord_eq, h]
  rfl

theorem viewed_of_elsewhere {a : Nat} {p : Fld × (Nat → Nat)} (h : p.1.idxAt a = none) (w : W32) : viewed a w p = w := by
  rw [viewed, h]

/-- What a view shows in a word that it does not lie in leaves the word. -/
theorem readWord_of_unviewed {lock : Bool} {d : Dev} {a : Nat} (himp : implemented a = true)
    (h : viewFlds.all (fun f => (f.idxAt a).isNone) = true) : readWord lock d a = plainWord d a := by
  rw [readWord_eq, if_pos himp]
  refine foldl_of_fixed (fun w p hp => viewed_of_elsewhere ?_ w) _
  have hall := List.all_eq_true.mp h p.1 (views_flds lock d ▸ List.mem_map_of_mem hp)
  simpa using hall

/-! ### What a write stores -/

/-- The fields whose write sets something else in motion. -/
def triggers : List Fld :=
  [F.LNE_CTL_PRBS_PAT, F.FRM_RX_CFG_TIM_ACT, F.FRM_LANE_CFG_BWD_SRC, F.TIM_CAND_SRC, F.TIM_CFG_MODE, F.TIM_CAND_FREQ_HZ,
   F.TIM_CLKOUT_FSEL, F.MSIX_CTL, F.DBG_CTL_ARB_TEST, F.TWN_CFG_AUTO_RESYNC]

theorem afterWrite_of_quiet {a : Nat} (h : triggers.all (fun f => (f.idxAt a).isNone) = true) (sn : SN) (ns : Nat) (o d : Dev) :
    afterWrite a sn ns o d = d := by
  simp only [triggers, List.all_cons, List.all_nil, Bool.and_true, Bool.and_eq_true, Option.isNone_iff_eq_none] at h
  obtain ⟨h₁, h₂, h₃, h₄, h₅, h₆, h₇, h₈, h₉, h₁₀⟩ := h
  simp only [afterWrite, h₁, h₂, h₃, h₄, h₅, h₆, h₇, h₈, h₉, h₁₀]
  rfl

/-- The fields that a rule of their own keeps from being written. -/
def barred : List Fld :=
  [F.LNE_QUAD_CFG_GROUP, F.CLK_DIV_CORE, F.CLK_DIV_MTX, F.CLK_DIV_DMA, F.FRM_RX_CFG_PLESIO, F.MAP_LANE_CFG_MODE, F.MAP_LANE_CFG_WIDTH,
   F.MAP_LANE_CFG_RSFEC, F.MAP_LANE_CFG_FM_MAXLEN] ++ ringFields ++ laneFields.map (·.1)

theorem writeBar_of_free {f : Fld} (h : barred.contains f = false) (d : Dev) (i v : Nat) : writeBar d f i v = none := by
  have hrings : ringFields.contains f = false := by
    simp only [barred, List.contains_eq_mem, List.mem_append, decide_eq_false_iff_not, not_or] at h ⊢
    exact h.1.2
  have hlanes : laneFields.find? (fun x => x.1 == f) = none := by
    simp only [barred, List.contains_eq_mem, List.mem_append, decide_eq_false_iff_not, not_or, List.mem_map, not_exists, not_and] at h
    rw [List.find?_eq_none]
    exact fun x hx he => h.2 x hx (beq_iff_eq.mp he)
  simp only [barred, List.contains_eq_mem, List.mem_append, List.mem_cons, List.not_mem_nil, or_false, decide_eq_false_iff_not, not_or] at h
  obtain ⟨⟨⟨h₁, h₂, h₃, h₄, h₅, h₆, h₇, h₈, h₉⟩, -⟩, -⟩ := h
  unfold writeBar
  rw [if_neg h₁, if_neg (by rw [hrings]; decide), if_neg (show ¬ (f = F.CLK_DIV_CORE ∨ f = F.CLK_DIV_MTX ∨ f = F.CLK_DIV_DMA) by simp [h₂, h₃, h₄]), hlanes]
  dsimp only
  rw [if_neg h₅, if_neg (show ¬ (f = F.MAP_LANE_CFG_MODE ∨ f = F.MAP_LANE_CFG_WIDTH ∨ f = F.MAP_LANE_CFG_RSFEC) by simp [h₆, h₇, h₈]),
    if_neg h₉, ite_self]

section
variable (lock : Bool) (d : Dev) {f : Fld} (i v : Nat)

theorem storeFld_ro (h : f.acc = .ro) : storeFld lock d f i v = d := by
  unfold storeFld
  rw [h]
  split <;> rfl

theorem storeFld_w1c (hacc : f.acc = .w1c) (hown : f.own = false) : storeFld lock d f i v = wr d f i (rd d f i &&& (2 ^ f.wd - 1 - v)) := by
  unfold storeFld
  rw [hown, hacc]
  rfl

/-- A field that REGISTER_WRITE stores, locked or not, whatever its value and the traffic. -/
def Fld.stored (f : Fld) : Bool := !f.own && f.acc == .rw && f.svc && !barred.contains f && f != F.MAP_LANE_FLX_GRP && f != F.MAP_LANE_FLX_PHY_NUM

theorem storeFld_stored (h : f.stored = true) : storeFld lock d f i v = wr d f i v := by
  simp only [Fld.stored, Bool.and_eq_true, Bool.not_eq_true', beq_iff_eq, bne_iff_ne] at h
  obtain ⟨⟨⟨⟨⟨hown, hacc⟩, hsvc⟩, hfree⟩, hgrp⟩, hphy⟩ := h
  have hopen : writeOpen d f i v = false := by simp [writeOpen, hsvc, hgrp, hphy]
  unfold storeFld
  rw [hown, hacc, if_neg Bool.false_ne_true]
  dsimp only
  rw [writeBar_of_free hfree, hopen]
  simp

theorem storeFld_locked (hacc : f.acc = .rwl) : storeFld true d f i v = d := by
  unfold storeFld
  rw [hacc]
  split <;> simp

theorem storeFld_unlocked (hacc : f.acc = .rwl) (hown : f.own = false) (hfree : barred.contains f = false)
    (hflx : f ≠ F.MAP_LANE_FLX_GRP ∧ f ≠ F.MAP_LANE_FLX_PHY_NUM) (htraffic : d.sw.traffic = false) : storeFld false d f i v = wr d f i v := by
  have hopen : writeOpen d f i v = false := by simp [writeOpen, htraffic, hflx.1, hflx.2]
  unfold storeFld
  rw [hown, hacc, if_neg Bool.false_ne_true]
  dsimp only
  rw [writeBar_of_free hfree, hopen]
  simp

end

theorem writeWord_of_quiet {a : Nat} (h : triggers.all (fun f => (f.idxAt a).isNone) = true) (v : W32) (ns : Nat) (lock : Bool) (sn : SN)
    (d : Dev) : writeWord a v ns lock sn d = (fldsAt a).foldl (fun d p => storeFld lock d p.1 p.2 (getBits v p.1.lo p.1.wd)) d :=
  afterWrite_of_quiet h sn ns _ _

theorem getBits_eq (v : W32) (lo wd : Nat) : getBits v lo wd = v.toNat / 2 ^ lo % 2 ^ wd := by
  rw [getBits, Nat.shiftRight_eq_div_pow]

end Sys2Proof.Machine
end

