-- ==== Sys2Proof/Proofs/RegisterAccesses.lean ====
section
/-! PROOFS. BAR0 accesses by the access codes of the fields they reach (R9, R510 to R512). -/

namespace Sys2Proof.Machine

-- In order: a default argument `by simp` waits for every declaration before it, and many that wait take many threads.
set_option Elab.async false

/-! ### Words that a table defines -/

theorem Fld.idxAt_addr {f : Fld} (h : f.s1 = 0 ∧ 0 < f.s2 ∧ f.n2 = f.count) {i : Nat} (hi : i < f.n2) : f.idxAt (f.addr i) = some i := by
  obtain ⟨hs1, hs2, hn⟩ := h
  have haddr : f.addr i = f.base + i * f.s2 := by simp [Fld.addr, hs1, Nat.mod_eq_of_lt hi]
  have hdiv : (f.addr i - f.base) / f.s2 = i := by
    rw [haddr, Nat.add_sub_cancel_left, Nat.mul_div_cancel i hs2]
  have hback : f.addr (0 * f.n2 + i) = f.addr i := by rw [Nat.zero_mul, Nat.zero_add]
  unfold Fld.idxAt
  simp only [hs1, if_true, if_neg (show ¬ f.addr i < f.base by omega), if_neg (show ¬ f.s2 = 0 by omega), hdiv]
  rw [if_pos ⟨hi, by omega, hback⟩, Nat.zero_mul, Nat.zero_add]

theorem implemented_of_idxAt {f : Fld} (hf : f ∈ allFlds) {a i : Nat} (h : f.idxAt a = some i) : implemented a = true := by
  have hmem : (f, i) ∈ fldsAt a := List.mem_filterMap.mpr ⟨f, hf, by rw [h]; rfl⟩
  unfold implemented
  rw [Bool.not_eq_true', List.isEmpty_eq_false_iff]
  exact List.ne_nil_of_mem hmem

/-- Every word of the MSI-X table and pending bit array is defined. -/
theorem implemented_of_msixWord {b : Nat} (halign : b % 4 = 0) (h : msixWord b = true) : implemented b = true := by
  have hmem : [F.MSIX_ADDR_LO, F.MSIX_ADDR_HI, F.MSIX_DATA, F.MSIX_CTL, F.MSIX_PBA].all (allFlds.contains ·) = true := by decide +kernel
  simp only [List.all_cons, List.all_nil, Bool.and_true, Bool.and_eq_true, List.contains_eq_mem, decide_eq_true_eq] at hmem
  obtain ⟨hlo, hhi, hdata, hctl, hpba⟩ := hmem
  simp only [msixWord, Bool.or_eq_true, decide_eq_true_eq] at h
  have hat {f : Fld} (hf : f ∈ allFlds) (hshape : f.s1 = 0 ∧ 0 < f.s2 ∧ f.n2 = f.count) {i : Nat} (hi : i < f.n2) (hb : b = f.base + i * f.s2) :
      implemented b = true := by
    have haddr : b = f.addr i := by rw [hb, Fld.addr, hshape.1, Nat.mod_eq_of_lt hi]; omega
    rw [haddr]
    exact implemented_of_idxAt hf (Fld.idxAt_addr hshape hi)
  rcases h with h | h
  · have hi : (b - 0x1004000) / 16 < 64 := by omega
    have hrest : (b - 0x1004000) % 16 = 0 ∨ (b - 0x1004000) % 16 = 4 ∨ (b - 0x1004000) % 16 = 8 ∨ (b - 0x1004000) % 16 = 12 := by omega
    rcases hrest with hr | hr | hr | hr
    · exact hat hlo (by decide) hi (show b = 0x1004000 + (b - 0x1004000) / 16 * 16 by omega)
    · exact hat hhi (by decide) hi (show b = 0x1004004 + (b - 0x1004000) / 16 * 16 by omega)
    · exact hat hdata (by decide) hi (show b = 0x1004008 + (b - 0x1004000) / 16 * 16 by omega)
    · exact hat hctl (by decide) hi (show b = 0x100400c + (b - 0x1004000) / 16 * 16 by omega)
  · exact hat hpba (by decide) (show (b - 0x1005000) / 4 < 2 by omega) (show b = 0x1005000 + (b - 0x1005000) / 4 * 4 by omega)

/-! ### Writes of one word -/

/-- The word that an address names. -/
def wordOf (addr : Nat) : Nat := addr / 4 * 4

section
variable {b : Nat} (v : W32) (ns : Nat) (lock : Bool) (sn : SN) (d : Dev)

theorem regWrite_host_word {addr : Nat} (hb : wordOf addr = b) (hmsix : msixWord b = false) (be : BitVec 4) :
    regWrite .host addr [(v, be)] ns lock sn d = if be = 15#4 then putWord b v ns lock sn d else sat d F.GLB_BAR0_ERR_WR_DISC 0 := by
  subst hb
  have hall : ([(v, be)].zipIdx.all fun x => msixWord (addr / 4 * 4 + 4 * x.2)) = false := by
    simpa [wordOf] using hmsix
  unfold regWrite
  dsimp only
  rw [hall]
  rfl

theorem regWrite_other_word {addr : Nat} (hb : wordOf addr = b) {m : Master} (hm : m ≠ .host) (hon : masterOn d m = true) (be : BitVec 4) :
    regWrite m addr [(v, be)] ns lock sn d = putWord b v ns lock sn d := by
  subst hb
  unfold regWrite
  rw [hon, if_neg (by decide), if_pos hm]
  rfl

end

section
variable {s : State} {addr : BitVec 26} {b : Nat} (hcore : s.dev.pwr.core = true) (hb : wordOf addr.toNat = b) (v : W32) (ns : Nat)

/-- A write that is discarded is counted. -/
def Discards (c : Instr) (s : State) : Prop := ActsR [F.GLB_BAR0_ERR_WR_DISC.addr 0] [] c s fun t =>
  rd t.dev F.GLB_BAR0_ERR_WR_DISC = satAdd 16 (rd s.dev F.GLB_BAR0_ERR_WR_DISC) 1

include hcore in
theorem discards_of_sat {m : Master} {data : List (W32 × BitVec 4)}
    (h : regWrite m addr.toNat data ns s.lock s.sn s.dev = sat s.dev F.GLB_BAR0_ERR_WR_DISC 0) : Discards (.registerWrite m addr data ns) s :=
  ((Within.refl _ _ s.dev).sat).actsR (exec_of_core (g := regWrite m addr.toNat data ns s.lock s.sn) rfl hcore h)
    (rd_sat_same _ (by decide) _ _)

include hb in
theorem hostWrite_eq {fs : List (Fld × Nat)} (hfs : fldsAt b = fs) (hne : fs ≠ []) (hmsix : msixWord b = false)
    (hquiet : triggers.all (fun f => (f.idxAt b).isNone) = true) : regWrite .host addr.toNat [(v, 15#4)] ns s.lock s.sn s.dev =
      fs.foldl (fun d p => storeFld s.lock d p.1 p.2 (getBits v p.1.lo p.1.wd)) s.dev := by
  have himp : implemented b = true := by
    unfold implemented
    rw [hfs, Bool.not_eq_true', List.isEmpty_eq_false_iff]
    exact hne
  rw [regWrite_host_word v ns s.lock s.sn s.dev hb hmsix, if_pos rfl, putWord, if_pos himp, writeWord_of_quiet hquiet, hfs]

include hcore hb

/-- A word whose one field REGISTER_WRITE stores. -/
theorem hostWrite_stores {f : Fld} {i : Nat} (hword : b = f.addr i) (hfs : fldsAt b = [(f, i)]) (hmsix : msixWord b = false)
    (hquiet : triggers.all (fun f => (f.idxAt b).isNone) = true) (hstore : ∀ v, storeFld s.lock s.dev f i v = wr s.dev f i v) :
    ActsR [b] [] (.registerWrite .host addr [(v, 15#4)] ns) s fun t =>
      t.dev = wr s.dev f i (v.toNat / 2 ^ f.lo % 2 ^ f.wd) := by
  have heq := (hostWrite_eq (s := s) hb v ns hfs (by simp) hmsix hquiet).trans (hstore _)
  rw [getBits_eq] at heq
  exact ((Within.refl [b] [.regs] s.dev).wr (by simp [hword])).actsR
    (exec_of_core (g := regWrite .host addr.toNat [(v, 15#4)] ns s.lock s.sn) rfl hcore heq) rfl

theorem arbWeight_written (r : Fin 8) (hword : b = F.ARB_WEIGHT_W.addr r) :
    ActsR [b] [] (.registerWrite .host addr [(v, 15#4)] ns) s fun t => rd t.dev F.ARB_WEIGHT_W r = v.toNat % 256 := by
  have hfs : ∀ r : Fin 8, fldsAt (F.ARB_WEIGHT_W.addr r) = [(F.ARB_WEIGHT_W, r.val)] := by decide +kernel
  have hout : ∀ r : Fin 8, msixWord (F.ARB_WEIGHT_W.addr r) = false ∧
      triggers.all (fun f => (f.idxAt (F.ARB_WEIGHT_W.addr r)).isNone) = true := by decide +kernel
  refine (hostWrite_stores hcore hb v ns hword (hword ▸ hfs r) (hword ▸ (hout r).1) (hword ▸ (hout r).2)
    fun _ => storeFld_stored _ _ _ _ (by decide)).weaken fun t ht => ?_
  rw [ht, rd_wr_same _ _ _ _ (by decide)]
  exact (Nat.mod_mod _ _).trans (congrArg (· % 2 ^ 8) (Nat.div_one _))

theorem atsCfg_written (hword : b = F.HIF_ATS_CFG_PREFETCH.addr 0) :
    ActsR [b] [] (.registerWrite .host addr [(v, 15#4)] ns) s fun t =>
      rd t.dev F.HIF_ATS_CFG_PREFETCH = v.toNat % 2 ∧ rd t.dev F.HIF_ATS_CFG_PRI_TMO = v.toNat / 256 % 2 ^ 16 := by
  have hfs : fldsAt (F.HIF_ATS_CFG_PREFETCH.addr 0) = [(F.HIF_ATS_CFG_PREFETCH, 0), (F.HIF_ATS_CFG_PRI_TMO, 0)] := by decide +kernel
  have hout : msixWord (F.HIF_ATS_CFG_PREFETCH.addr 0) = false ∧
      triggers.all (fun f => (f.idxAt (F.HIF_ATS_CFG_PREFETCH.addr 0)).isNone) = true := by decide +kernel
  have heq := hostWrite_eq (s := s) hb v ns (hword ▸ hfs) (by simp) (hword ▸ hout.1) (hword ▸ hout.2)
  simp only [List.foldl_cons, List.foldl_nil, storeFld_stored _ _ _ _ (show F.HIF_ATS_CFG_PREFETCH.stored = true by decide),
    storeFld_stored _ _ _ _ (show F.HIF_ATS_CFG_PRI_TMO.stored = true by decide), getBits_eq] at heq
  refine (((Within.refl [b] [.regs] s.dev).wr (by simp [hword])).wr (by simp [hword]; rfl)).actsR
    (exec_of_core (g := regWrite .host addr.toNat [(v, 15#4)] ns s.lock s.sn) rfl hcore heq) ⟨?_, ?_⟩
  · rw [rd_wr_apart _ (by decide), rd_wr_same _ _ _ _ (by decide)]
    exact (Nat.mod_mod _ _).trans (congrArg (· % 2 ^ 1) (Nat.div_one _))
  · exact (rd_wr_same _ _ _ _ (by decide)).trans (Nat.mod_mod _ _)

theorem ringBase_refused (r : Fin 41) (hword : b = F.HIF_RING_BASE_LO.addr r) (hstate : rState s.dev r ≠ 0) :
    ActsR [F.HIF_STATUS_CFG_ERR.addr 0] [] (.registerWrite .host addr [(v, 15#4)] ns) s fun t => rd t.dev F.HIF_STATUS_CFG_ERR = 1 := by
  have hfs : ∀ r : Fin 41, fldsAt (F.HIF_RING_BASE_LO.addr r) = [(F.HIF_RING_BASE_LO, r.val)] := by decide +kernel
  have hout : ∀ r : Fin 41, msixWord (F.HIF_RING_BASE_LO.addr r) = false ∧
      triggers.all (fun f => (f.idxAt (F.HIF_RING_BASE_LO.addr r)).isNone) = true := by decide +kernel
  have hbar : writeBar s.dev F.HIF_RING_BASE_LO r (getBits v 0 32) = some fun d => wrB d F.HIF_STATUS_CFG_ERR 0 true := by
    unfold writeBar
    rw [if_neg (by decide), if_pos (by decide), if_neg]
    simp only [hstate, false_or]
    exact fun h => absurd h.1 (by decide)
  have hstore : storeFld s.lock s.dev F.HIF_RING_BASE_LO r (getBits v 0 32) = wrB s.dev F.HIF_STATUS_CFG_ERR 0 true := by
    unfold storeFld
    rw [if_neg (by decide)]
    dsimp only
    rw [hbar]
    rfl
  have heq := (hostWrite_eq (s := s) hb v ns (hword ▸ hfs r : fldsAt b = [(F.HIF_RING_BASE_LO, r.val)]) (by simp)
    (hword ▸ (hout r).1) (hword ▸ (hout r).2)).trans hstore
  exact ((Within.refl _ _ s.dev).wrB).actsR (exec_of_core (g := regWrite .host addr.toNat [(v, 15#4)] ns s.lock s.sn) rfl hcore heq)
    (rd_wrB_bit _ (by decide) true)

theorem ovf_cleared (p : Fin 16) (hword : b = F.PMN_MSP_STATUS_OVF.addr p) :
    ActsR [b] [] (.registerWrite .host addr [(v, 15#4)] ns) s fun t =>
      rd t.dev F.PMN_MSP_STATUS_OVF p = (if v.getLsbD 10 = true then 0 else rd s.dev F.PMN_MSP_STATUS_OVF p) ∧
      rd t.dev F.PMN_MSP_STATUS_CHAN p = rd s.dev F.PMN_MSP_STATUS_CHAN p := by
  have hfs : ∀ p : Fin 16, fldsAt (F.PMN_MSP_STATUS_OVF.addr p) = [(F.PMN_MSP_STATUS_CHAN, p.val), (F.PMN_MSP_STATUS_RX_ROUTED, p.val),
      (F.PMN_MSP_STATUS_TX_ROUTED, p.val), (F.PMN_MSP_STATUS_OVF, p.val)] := by decide +kernel
  have hout : ∀ p : Fin 16, msixWord (F.PMN_MSP_STATUS_OVF.addr p) = false ∧
      triggers.all (fun f => (f.idxAt (F.PMN_MSP_STATUS_OVF.addr p)).isNone) = true := by decide +kernel
  have heq := hostWrite_eq (s := s) hb v ns (hword ▸ hfs p) (by simp) (hword ▸ (hout p).1) (hword ▸ (hout p).2)
  simp only [List.foldl_cons, List.foldl_nil, storeFld_ro _ _ _ _ (show F.PMN_MSP_STATUS_CHAN.acc = .ro from rfl),
    storeFld_ro _ _ _ _ (show F.PMN_MSP_STATUS_RX_ROUTED.acc = .ro from rfl), storeFld_ro _ _ _ _ (show F.PMN_MSP_STATUS_TX_ROUTED.acc = .ro from rfl),
    storeFld_w1c _ _ _ _ (show F.PMN_MSP_STATUS_OVF.acc = .w1c from rfl) rfl, getBits_eq] at heq
  refine ((Within.refl [b] [.regs] s.dev).wr (by simp [hword])).actsR
    (exec_of_core (g := regWrite .host addr.toNat [(v, 15#4)] ns s.lock s.sn) rfl hcore heq) ⟨?_, rd_wr_apart _ (by decide)⟩
  have hold : rd s.dev F.PMN_MSP_STATUS_OVF p < 2 := rd_lt s.dev F.PMN_MSP_STATUS_OVF p
  have hbit : v.toNat / 2 ^ 10 % 2 ^ 1 = (v.getLsbD 10).toNat := by
    rw [← BitVec.testBit_toNat, Nat.toNat_testBit, pow_one]
  refine (rd_wr_same _ _ _ _ (by decide)).trans ?_
  rw [show F.PMN_MSP_STATUS_OVF.lo = 10 from rfl, show F.PMN_MSP_STATUS_OVF.wd = 1 from rfl, hbit]
  generalize rd s.dev F.PMN_MSP_STATUS_OVF p = x at *
  interval_cases x <;> cases v.getLsbD 10 <;> rfl

omit hcore in
theorem atsStatus_readOnly (hword : b = F.HIF_ATS_STATUS_VALID.addr 0) : exec (.registerWrite .host addr [(v, 15#4)] ns) s = .next s := by
  have hfs : fldsAt (F.HIF_ATS_STATUS_VALID.addr 0) = [(F.HIF_ATS_STATUS_VALID, 0), (F.HIF_ATS_STATUS_PRG_OUT, 0)] := by decide +kernel
  have hout : msixWord (F.HIF_ATS_STATUS_VALID.addr 0) = false ∧
      triggers.all (fun f => (f.idxAt (F.HIF_ATS_STATUS_VALID.addr 0)).isNone) = true := by decide +kernel
  have heq := hostWrite_eq (s := s) hb v ns (hword ▸ hfs) (by simp) (hword ▸ hout.1) (hword ▸ hout.2)
  simp only [List.foldl_cons, List.foldl_nil, storeFld_ro _ _ _ _ (show F.HIF_ATS_STATUS_VALID.acc = .ro from rfl),
    storeFld_ro _ _ _ _ (show F.HIF_ATS_STATUS_PRG_OUT.acc = .ro from rfl)] at heq
  exact exec_of_core_self (g := regWrite .host addr.toNat [(v, 15#4)] ns s.lock s.sn) rfl heq

omit hcore hb in
/-- The word of CTL_MTX_PRIO. -/
theorem mtxPrio_word : fldsAt (F.CTL_MTX_PRIO_PRIO.addr 0) = [(F.CTL_MTX_PRIO_PRIO, 0)] ∧ msixWord (F.CTL_MTX_PRIO_PRIO.addr 0) = false ∧
    triggers.all (fun f => (f.idxAt (F.CTL_MTX_PRIO_PRIO.addr 0)).isNone) = true := by decide +kernel

omit hcore in
theorem mtxPrio_locked (hlock : s.lock = true) (hword : b = F.CTL_MTX_PRIO_PRIO.addr 0) :
    exec (.registerWrite .host addr [(v, 15#4)] ns) s = .next s := by
  obtain ⟨hfs, hmsix, hquiet⟩ := mtxPrio_word
  have hstore (x : Nat) : storeFld s.lock s.dev F.CTL_MTX_PRIO_PRIO 0 x = s.dev := by
    rw [hlock]
    exact storeFld_locked _ _ _ rfl
  have heq := (hostWrite_eq (s := s) hb v ns (hword ▸ hfs : fldsAt b = [(F.CTL_MTX_PRIO_PRIO, 0)]) (by simp) (hword ▸ hmsix)
    (hword ▸ hquiet)).trans (hstore (getBits v F.CTL_MTX_PRIO_PRIO.lo F.CTL_MTX_PRIO_PRIO.wd))
  exact exec_of_core_self (g := regWrite .host addr.toNat [(v, 15#4)] ns s.lock s.sn) rfl heq

theorem mtxPrio_written (hlock : s.lock = false) (htraffic : s.dev.sw.traffic = false) (hword : b = F.CTL_MTX_PRIO_PRIO.addr 0) :
    ActsR [b] [] (.registerWrite .host addr [(v, 15#4)] ns) s fun t =>
      rd t.dev F.CTL_MTX_PRIO_PRIO = v.toNat % 2 ^ F.CTL_MTX_PRIO_PRIO.wd := by
  obtain ⟨hfs, hmsix, hquiet⟩ := mtxPrio_word
  refine (hostWrite_stores hcore hb v ns hword (hword ▸ hfs) (hword ▸ hmsix) (hword ▸ hquiet)
    fun _ => by rw [hlock]; exact storeFld_unlocked _ _ _ rfl rfl (by decide) (by decide) htraffic).weaken fun t ht => ?_
  rw [ht, rd_wr_same _ _ _ _ (by decide)]
  exact (Nat.mod_mod _ _).trans (congrArg (· % 2 ^ 8) (Nat.div_one _))

omit hcore hb in
theorem masterOn_of_open {m : Master} (hm : m = .debug → dbgPortOpen s.dev = true) : masterOn s.dev m = true := by
  cases m with
  | host => rfl
  | core => rfl
  | debug => exact hm rfl

theorem unimplemented_discards (himp : implemented b = false) {m : Master} (hm : m = .debug → dbgPortOpen s.dev = true) :
    Discards (.registerWrite m addr [(v, 15#4)] ns) s := by
  have halign : b % 4 = 0 := by rw [← hb, wordOf]; omega
  have hmsix : msixWord b = false := by
    rw [Bool.eq_false_iff]
    exact fun h => absurd (implemented_of_msixWord halign h) (by rw [himp]; decide)
  have hput : putWord b v ns s.lock s.sn s.dev = sat s.dev F.GLB_BAR0_ERR_WR_DISC 0 := if_neg (by rw [himp]; decide)
  refine discards_of_sat hcore ns ?_
  by_cases hhost : m = .host
  · subst hhost
    rw [regWrite_host_word v ns s.lock s.sn s.dev hb hmsix, if_pos rfl, hput]
  · rw [regWrite_other_word v ns s.lock s.sn s.dev hb hhost (masterOn_of_open hm), hput]

theorem partial_discards {be : BitVec 4} (hbe : be ≠ 15#4) (hmsix : msixWord b = false) : Discards (.registerWrite .host addr [(v, be)] ns) s :=
  discards_of_sat hcore ns (by rw [regWrite_host_word v ns s.lock s.sn s.dev hb hmsix, if_neg hbe])

end

/-! ### Reads -/

/-- A read of words that clears nothing answers each word as it stands. -/
theorem readWords_of_keeps (lock insp : Bool) (d : Dev) : ∀ (n a : Nat),
    (∀ k < n, insp = true ∨ clearWord d (a + 4 * k) = d) →
    readWords lock insp a n d = ((List.range n).map fun k => readWord lock d (a + 4 * k), d)
  | 0, _, _ => rfl
  | n + 1, a, h => by
    have hfirst : (if insp then d else clearWord d a) = d := by
      rcases h 0 (by omega) with h | h
      · rw [h]
        rfl
      · rw [show clearWord d a = d from h, ite_self]
    have hrest := readWords_of_keeps lock insp d n (a + 4) fun k hk => by
      have := h (k + 1) (by omega)
      rwa [show a + 4 * (k + 1) = a + 4 + 4 * k by omega] at this
    unfold readWords
    dsimp only
    rw [hfirst, hrest, List.range_succ_eq_map, List.map_cons, List.map_map]
    refine Prod.ext (congrArg (readWord lock d a :: ·) (List.map_congr_left fun k _ => ?_)) rfl
    exact congrArg (readWord lock d) (show a + 4 + 4 * k = a + 4 * (k + 1) by omega)

section
variable {s : State} {addr : BitVec 26} {b n : Nat} (hb : wordOf addr.toNat = b)
include hb

theorem regRead_eq {m : Master} (hon : masterOn s.dev m = true) (hfits : m = .host → n ≤ 16 ∧ b % 64 + 4 * n ≤ 64) :
    regRead m addr.toNat n s.lock s.dev =
      emit (freed (readWords s.lock (m == .debug) b n s.dev).2) (.readData (readWords s.lock (m == .debug) b n s.dev).1) := by
  subst hb
  unfold regRead
  rw [hon, if_neg (by decide)]
  refine if_neg ?_
  rintro ⟨hhost, h⟩
  obtain ⟨hn, hblock⟩ := hfits hhost
  unfold wordOf at hblock
  omega

variable (hcore : s.dev.pwr.core = true)
include hcore

/-- A read that clears nothing. -/
theorem read_answers {m : Master} (hon : masterOn s.dev m = true) (hfits : m = .host → n ≤ 16 ∧ b % 64 + 4 * n ≤ 64)
    (hkeeps : ∀ k < n, m = .debug ∨ clearWord s.dev (b + 4 * k) = s.dev) : Acts [.out, .free] (.registerRead m addr n) s fun t =>
      Sent s.dev t.dev [.readData ((List.range n).map fun k => readWord s.lock s.dev (b + 4 * k))] := by
  have heq := regRead_eq hb hon hfits
  rw [readWords_of_keeps s.lock (m == .debug) s.dev n b fun k hk => (hkeeps k hk).imp beq_iff_eq.mpr id] at heq
  exact (((Within.refl [] _ s.dev).only (only_freed _)).emit).acts (exec_of_core (g := regRead m addr.toNat n s.lock) rfl hcore heq) rfl

theorem read_aborts (h : 16 < n ∨ 64 < b % 64 + 4 * n) :
    ActsR [F.GLB_BAR0_ERR_RD_ABORT.addr 0] [.out] (.registerRead .host addr n) s fun t =>
      Sent s.dev t.dev [.abort] ∧ rd t.dev F.GLB_BAR0_ERR_RD_ABORT = satAdd 16 (rd s.dev F.GLB_BAR0_ERR_RD_ABORT) 1 := by
  have heq : regRead .host addr.toNat n s.lock s.dev = emit (sat s.dev F.GLB_BAR0_ERR_RD_ABORT 0) .abort := by
    subst hb
    unfold regRead
    rw [show masterOn s.dev .host = true from rfl, if_neg (by decide)]
    exact if_pos ⟨rfl, h⟩
  exact ((Within.refl _ _ s.dev).sat.emit).actsR (exec_of_core (g := regRead .host addr.toNat n s.lock) rfl hcore heq)
    ⟨rfl, rd_sat_same _ (by decide) _ _⟩

theorem dbErr_read (hword : b = F.HIF_DB_ERR.addr 0) : ActsR [b] [.out, .free] (.registerRead .host addr 1) s fun t =>
    Sent s.dev t.dev [.readData [BitVec.ofNat 32 (rd s.dev F.HIF_DB_ERR)]] ∧ rd t.dev F.HIF_DB_ERR = 0 := by
  have hfs : fldsAt (F.HIF_DB_ERR.addr 0) = [(F.HIF_DB_ERR, 0)] ∧ implemented (F.HIF_DB_ERR.addr 0) = true := by decide +kernel
  have hview : viewFlds.all (fun f => (f.idxAt (F.HIF_DB_ERR.addr 0)).isNone) = true := by decide +kernel
  have heq := regRead_eq (s := s) (n := 1) hb (m := .host) rfl fun _ => by rw [hword]; decide
  have hwords : readWords s.lock (Master.host == .debug) b 1 s.dev = ([readWord s.lock s.dev b], clearWord s.dev b) := rfl
  have hplain : plainWord s.dev b = rdWord s.dev b := by
    rw [hword, plainWord, hfs.1]
    rfl
  have hdata : readWord s.lock s.dev b = BitVec.ofNat 32 (rd s.dev F.HIF_DB_ERR) := by
    rw [readWord_of_unviewed (hword ▸ hfs.2) (hword ▸ hview), hplain, rd, getBits_eq, hword]
    refine BitVec.eq_of_toNat_eq ?_
    rw [BitVec.toNat_ofNat]
    have hlt := (rdWord s.dev (F.HIF_DB_ERR.addr 0)).isLt
    rw [show F.HIF_DB_ERR.lo = 0 from rfl, show F.HIF_DB_ERR.wd = 32 from rfl]
    omega
  have hclear : clearWord s.dev b = wr s.dev F.HIF_DB_ERR 0 0 := by
    rw [hword, clearWord, hfs.1]
    rfl
  rw [hwords, hdata, hclear] at heq
  refine ((((Within.refl [b] _ s.dev).wr (by simp [hword])).only (only_freed _)).emit).actsR
    (exec_of_core (g := regRead .host addr.toNat 1 s.lock) rfl hcore heq) ⟨rfl, rd_wr_fits s.dev (f := F.HIF_DB_ERR) (by decide)⟩

omit hb hcore in
theorem debugRead_closed (hport : dbgPortOpen s.dev = false) : exec (.registerRead .debug addr n) s = .next s :=
  exec_of_core_self (g := regRead .debug addr.toNat n s.lock) rfl (if_pos (by rw [show masterOn s.dev .debug = dbgPortOpen s.dev from rfl, hport]; rfl))

end

/-- Settles O59: what a word's write stores and what its read answers, by the access codes. -/
theorem registerAccess : Obligations.RegisterAccess := by
  refine ⟨fun s addr v be ns hcore => ⟨fun r hb => arbWeight_written hcore rfl v ns r hb, fun hb => atsCfg_written hcore rfl v ns hb,
    fun r hb hstate => ringBase_refused hcore rfl v ns r hb hstate, fun p hb => ovf_cleared hcore rfl v ns p hb,
    fun hb => atsStatus_readOnly rfl v ns hb, fun hlock hb => mtxPrio_locked rfl v ns hlock hb,
    fun hlock htraffic hb => mtxPrio_written hcore rfl v ns hlock htraffic hb,
    fun himp m hm => unimplemented_discards hcore rfl v ns himp hm, fun hbe hmsix => partial_discards hcore rfl v ns hbe hmsix⟩,
    fun s addr n hcore => ⟨fun hn hblock hkeeps => ?_, read_aborts rfl hcore, dbErr_read rfl hcore, fun hport => ?_,
      debugRead_closed, fun himp m hm => ?_⟩⟩
  · exact read_answers rfl hcore rfl (fun _ => ⟨hn, hblock⟩) fun k hk => .inr (clearWord_of_keeps _ (hkeeps k hk))
  · exact read_answers rfl hcore hport nofun fun _ _ => .inl rfl
  · have hclear : clearWord s.dev (addr.toNat / 4 * 4) = s.dev :=
      clearWord_of_keeps _ (by rw [fldsAt_of_unimplemented himp]; exact nofun)
    refine (read_answers (n := 1) rfl hcore (masterOn_of_open hm) (fun _ => ⟨by decide, by unfold wordOf; omega⟩) fun k hk => .inr ?_).weaken
      fun t ht => ?_
    · rw [show k = 0 by omega]
      exact hclear
    · exact Eq.trans ht (congrArg (fun w => s.dev.out ++ [Out.readData [w]]) (readWord_of_unimplemented himp s.lock s.dev))

end Sys2Proof.Machine
end

