-- ==== Sys2Proof/Proofs/SmbusTarget.lean ====
section
/-! PROOFS. The SMBus target (R461 to R463, Table 18-4). -/

namespace Sys2Proof.Machine

-- In order: a default argument `by simp` waits for every declaration before it, and many that wait take many threads.
set_option Elab.async false

/-! ### The words that READ serves (R463) -/

/-- The last word of a field's table. -/
def Fld.top (f : Fld) : Nat := f.base + (f.count - 1) / f.n2 * f.s1 + (f.n2 - 1) * f.s2

theorem Fld.idxAt_range {f : Fld} (hn : 0 < f.n2) {a i : Nat} (h : f.idxAt a = some i) : f.base ≤ a ∧ a ≤ f.top := by
  obtain ⟨rfl, hi⟩ := Fld.idxAt_some h
  have hrow : i / f.n2 * f.s1 ≤ (f.count - 1) / f.n2 * f.s1 := Nat.mul_le_mul_right _ (Nat.div_le_div_right (by omega))
  have hcol : i % f.n2 * f.s2 ≤ (f.n2 - 1) * f.s2 := Nat.mul_le_mul_right _ (by have := Nat.mod_lt i hn; omega)
  unfold Fld.addr Fld.top
  omega

/-- The field lies in no word that READ serves. -/
def Fld.smbAside (f : Fld) : Bool :=
  decide (0 < f.n2) && (decide (f.top < 0x2402000) || (decide (0x2403040 ≤ f.base) && decide (f.top < 0x2C00000)) || decide (0x3000000 ≤ f.base)) &&
    (f.idxAt F.TWN_STATUS_ROLE.base).isNone && (f.idxAt F.CTL_CORE_STATUS_SVN.base).isNone && (f.idxAt F.SEC_STATUS_LOCKED.base).isNone

theorem Fld.idxAt_of_smbAside {f : Fld} (h : f.smbAside = true) {a : Nat} (ha : smbReads a = true) : f.idxAt a = none := by
  simp only [Fld.smbAside, Bool.and_eq_true, Bool.or_eq_true, decide_eq_true_eq, Option.isNone_iff_eq_none] at h
  obtain ⟨⟨⟨⟨hn, hrange⟩, hrole⟩, hsvn⟩, hsec⟩ := h
  simp only [smbReads, Bool.or_eq_true, decide_eq_true_eq, beq_iff_eq] at ha
  rcases ha with (((hpwr | hleg) | h) | h) | h
  · refine Option.eq_none_iff_forall_ne_some.mpr fun i hi => ?_
    have := Fld.idxAt_range hn hi
    omega
  · refine Option.eq_none_iff_forall_ne_some.mpr fun i hi => ?_
    have := Fld.idxAt_range hn hi
    omega
  · exact h ▸ hrole
  · exact h ▸ hsvn
  · exact h ▸ hsec

/-- The status fields of other units among the words that READ serves. -/
def smbViews (d : Dev) : List (Fld × (Nat → Nat)) :=
  [(F.TWN_STATUS_ROLE, fun _ => d.twin.role.code),
   (F.SEC_STATUS_LOCKED, fun _ => (secLocked d).toNat),
   (F.SEC_STATUS_PUSH_DIS, fun _ => (pushDis d).toNat),
   (F.SEC_STATUS_DBG, fun _ => dbgMode d),
   (F.SEC_STATUS_SPARES, fun _ => sparesLeft d),
   (F.SEC_STATUS_SVN_FLOOR, fun _ => svnFloor d),
   (F.PWR_STATUS_STATE, fun _ => pwrCode d.pwr.st)]

/-- The other ones leave such a word. -/
theorem foldl_viewed_aside {a : Nat} (ha : smbReads a = true) {l : List (Fld × (Nat → Nat))} (h : (l.map (·.1)).all Fld.smbAside = true)
    (w : W32) : l.foldl (viewed a) w = w :=
  foldl_of_fixed (fun w p hp => viewed_of_elsewhere (Fld.idxAt_of_smbAside (List.all_eq_true.mp h p.1 (List.mem_map_of_mem hp)) ha) w) w

theorem foldl_views_smb {a : Nat} (ha : smbReads a = true) (lock : Bool) (d : Dev) (w : W32) :
    (views lock d).foldl (viewed a) w = (smbViews d).foldl (viewed a) w := by
  obtain ⟨l₁, h₁⟩ : ∃ l, l = (views lock d).take 18 := ⟨_, rfl⟩
  obtain ⟨l₂, h₂⟩ : ∃ l, l = ((views lock d).drop 19).take 6 := ⟨_, rfl⟩
  obtain ⟨l₃, h₃⟩ : ∃ l, l = ((views lock d).drop 30).take 5 := ⟨_, rfl⟩
  have hsplit : views lock d = l₁ ++ ((smbViews d).take 1 ++ (l₂ ++ (((smbViews d).drop 1).take 5 ++ (l₃ ++ (smbViews d).drop 6)))) := by
    rw [h₁, h₂, h₃]
    rfl
  have hsmb : smbViews d = (smbViews d).take 1 ++ (((smbViews d).drop 1).take 5 ++ (smbViews d).drop 6) := rfl
  have haside : (viewFlds.take 18).all Fld.smbAside = true ∧ ((viewFlds.drop 19).take 6).all Fld.smbAside = true ∧
      ((viewFlds.drop 30).take 5).all Fld.smbAside = true := by decide +kernel
  have hmap₁ : l₁.map (·.1) = viewFlds.take 18 := by rw [h₁]; rfl
  have hmap₂ : l₂.map (·.1) = (viewFlds.drop 19).take 6 := by rw [h₂]; rfl
  have hmap₃ : l₃.map (·.1) = (viewFlds.drop 30).take 5 := by rw [h₃]; rfl
  have hdrop₁ := foldl_viewed_aside ha (hmap₁ ▸ haside.1)
  have hdrop₂ := foldl_viewed_aside ha (hmap₂ ▸ haside.2.1)
  have hdrop₃ := foldl_viewed_aside ha (hmap₃ ▸ haside.2.2)
  rw [hsplit, hsmb]
  simp only [List.foldl_append, hdrop₁, hdrop₂, hdrop₃]
  rfl

theorem readWord_smb {a : Nat} (ha : smbReads a = true) (lock : Bool) (d : Dev) :
    readWord lock d a = if implemented a = true then (smbViews d).foldl (viewed a) (plainWord d a) else 0 := by
  rw [readWord_eq, foldl_views_smb ha]

theorem not_prbs_of_smbReads {a : Nat} (ha : smbReads a = true) : ∀ p ∈ fldsAt a, p.1 ≠ F.LNE_PRBS_ERR_ERR := by
  rintro p hp hprbs
  obtain ⟨f, -, hf⟩ := List.mem_filterMap.mp hp
  obtain ⟨i, hi, rfl⟩ := Option.map_eq_some_iff.mp hf
  obtain rfl : f = F.LNE_PRBS_ERR_ERR := hprbs
  rw [Fld.idxAt_of_smbAside (by decide) ha] at hi
  exact absurd hi (by simp)

/-- What READ shows of a device: its registers, and what the views show. -/
structure ShowsSame (a b : Dev) : Prop where
  twin : b.twin = a.twin
  logical : b.sec.logical = a.sec.logical
  fuses : b.sec.fuses = a.sec.fuses
  pwr : b.pwr = a.pwr

theorem smbViews_congr {a b : Dev} (h : ShowsSame a b) : smbViews b = smbViews a := by
  have hstate (i : Nat) : calState b i = calState a i := by rw [calState, h.logical]; rfl
  have hword (i : Nat) : calWord b i = calWord a i := by rw [calWord, h.logical]; rfl
  have hfuse (i : Nat) : fuseAt b i = fuseAt a i := by rw [fuseAt, h.fuses]; rfl
  simp only [smbViews, secLocked, pushDis, dbgMode, sparesLeft, svnFloor, calPolicy, hstate, hword, hfuse, h.twin, h.pwr]

theorem readWord_congr {a b : Dev} (h : ShowsSame a b) {x : Nat} (hx : smbReads x = true) (hword : rdWord b x = rdWord a x) (lock : Bool) :
    readWord lock b x = readWord lock a x := by
  rw [readWord_smb hx, readWord_smb hx, smbViews_congr h, plainWord, plainWord, hword]

theorem ShowsSame.of_within {as : List Nat} {a b : Dev} (h : Within as [.regs] a b) : ShowsSame a b :=
  ⟨h.parts .twin (by simp), congrArg Sec.logical (h.parts .sec (by simp)), congrArg Sec.fuses (h.parts .sec (by simp)), h.parts .pwr (by simp)⟩

/-- The words from `a` on. -/
def wordsFrom (a n : Nat) : List Nat := (List.range n).map (a + 4 * ·)

/-- What READ answers for a word. -/
def smbWord (lock : Bool) (d : Dev) (a : Nat) : W32 := if smbReads a = true then readWord lock d a else 0

theorem smbWord_congr {a b : Dev} (h : ShowsSame a b) {x : Nat} (hword : rdWord b x = rdWord a x) (lock : Bool) :
    smbWord lock b x = smbWord lock a x :=
  ite_congr rfl (fun hx => readWord_congr h hx hword lock) fun _ => rfl

/-- A word that READ passes, with the clearing that it does. -/
def smbPassed (a : Nat) (d : Dev) : Dev := if smbReads a = true then clearWord d a else d

theorem within_smbPassed (a : Nat) (d : Dev) : Within [a] [.regs] d (smbPassed a d) :=
  .ite (fun ha => within_clearWord d (not_prbs_of_smbReads ha)) fun _ => .refl _ _ d

theorem smbRead_succ (lock : Bool) (a n : Nat) (d : Dev) : smbRead lock a (n + 1) d =
    (smbWord lock d a :: (smbRead lock (a + 4) n (smbPassed a d)).1, (smbRead lock (a + 4) n (smbPassed a d)).2) := by
  unfold smbWord smbPassed
  rw [smbRead]
  split <;> rfl

/-- READ of `n` words: what it clears lies in these words, and each is answered as it stood. -/
theorem smbRead_spec (lock : Bool) : ∀ (n a : Nat) (d : Dev), Within (wordsFrom a n) [.regs] d (smbRead lock a n d).2 ∧
    (smbRead lock a n d).1.length = n ∧ ∀ k < n, (smbRead lock a n d).1[k]? = some (smbWord lock d (a + 4 * k))
  | 0, _, d => ⟨.refl _ _ d, rfl, nofun⟩
  | n + 1, a, d => by
    obtain ⟨hrest, hlen, hwords⟩ := smbRead_spec lock n (a + 4) (smbPassed a d)
    have hpass := within_smbPassed a d
    have hhead : [a] ⊆ wordsFrom a (n + 1) := by simp [wordsFrom]
    have htail : wordsFrom (a + 4) n ⊆ wordsFrom a (n + 1) := by
      intro x hx
      obtain ⟨k, hk, rfl⟩ := List.mem_map.mp hx
      exact List.mem_map.mpr ⟨k + 1, List.mem_range.mpr (by have := List.mem_range.mp hk; omega), by omega⟩
    rw [smbRead_succ]
    refine ⟨(hpass.mono hhead).next hrest htail, by rw [List.length_cons, hlen], fun k hk => ?_⟩
    cases k with
    | zero => rfl
    | succ k =>
      have hword : rdWord (smbPassed a d) (a + 4 + 4 * k) = rdWord d (a + 4 + 4 * k) := hpass.regs _ (by simp; omega)
      rw [List.getElem?_cons_succ, hwords k (by omega), smbWord_congr (ShowsSame.of_within hpass) hword,
        show a + 4 + 4 * k = a + 4 * (k + 1) by omega]

/-! ### Sessions of the target (R461, R462) -/

/-- The password is the right one: it has an admitted length, and the verifier of the highest usable generation is its. -/
def RightPassword (d : Dev) (pwd : List (BitVec 8)) : Prop :=
  8 ≤ pwd.length ∧ pwd.length ≤ 32 ∧ ∃ g : Fin 4, fieldOk d (96 + 16 * g.val) 12 = true ∧
    (∀ h : Fin 4, g < h → fieldOk d (96 + 16 * h.val) 12 = false) ∧
    sha256 (fieldBytes d (96 + 16 * g.val) 4 ++ pwd) = fieldBytes d (100 + 16 * g.val) 8

/-- The first generation from the highest down that holds is the highest one. -/
theorem find_highest_of {p : Nat → Bool} {k : Fin 4} (hk : p k = true) (hhigh : ∀ h : Fin 4, k < h → p h = false) :
    ([3, 2, 1, 0] : List Nat).find? p = some k.val := by
  have h₁ := hhigh 1
  have h₂ := hhigh 2
  have h₃ := hhigh 3
  fin_cases k <;> simp_all [List.find?]

theorem find_highest {p : Nat → Bool} {g : Nat} (h : ([3, 2, 1, 0] : List Nat).find? p = some g) :
    ∃ k : Fin 4, k.val = g ∧ p k = true ∧ ∀ h : Fin 4, k < h → p h = false := by
  obtain ⟨hp, before, after, hsplit, hbefore⟩ := List.find?_eq_some_iff_append.mp h
  have hlt : g < 4 := by
    have hmem : g ∈ ([3, 2, 1, 0] : List Nat) := by simp [hsplit]
    simp only [List.mem_cons, List.not_mem_nil, or_false] at hmem
    omega
  refine ⟨⟨g, hlt⟩, rfl, hp, fun k hk => ?_⟩
  have hdesc : (before ++ g :: after).Pairwise (· > ·) := hsplit ▸ (by decide)
  have hmem : k.val ∈ before ++ g :: after := hsplit ▸ (by fin_cases k <;> decide)
  have hkg : g < k.val := hk
  rcases List.mem_append.mp hmem with h | h
  · simpa using hbefore k.val h
  · rcases List.mem_cons.mp h with h | h
    · omega
    · have := (List.pairwise_cons.mp (List.pairwise_append.mp hdesc).2.1).1 k.val h
      omega

/-- The highest usable generation. -/
theorem smbGen_eq_some {d : Dev} {x : List (BitVec 8) × List (BitVec 8)} : smbGen d = some x ↔ ∃ g : Fin 4, fieldOk d (96 + 16 * g.val) 12 = true ∧
    (∀ h : Fin 4, g < h → fieldOk d (96 + 16 * h.val) 12 = false) ∧
    x = (fieldBytes d (96 + 16 * g.val) 4, fieldBytes d (100 + 16 * g.val) 8) := by
  unfold smbGen
  rw [Option.map_eq_some_iff]
  constructor
  · rintro ⟨n, hn, rfl⟩
    obtain ⟨g, rfl, hok, hhigh⟩ := find_highest hn
    exact ⟨g, hok, hhigh, rfl⟩
  · rintro ⟨g, hok, hhigh, rfl⟩
    exact ⟨g.val, find_highest_of (p := fun g => fieldOk d (96 + 16 * g) 12) hok hhigh, rfl⟩

theorem smbPass_iff (d : Dev) (pwd : List (BitVec 8)) : smbPass d pwd = true ↔ RightPassword d pwd := by
  unfold smbPass RightPassword
  rw [Bool.and_eq_true, decide_eq_true_eq, and_assoc]
  refine and_congr_right fun _ => and_congr_right fun _ => ?_
  cases hgen : smbGen d with
  | none =>
    refine iff_of_false (by simp) ?_
    rintro ⟨g, hok, hhigh, -⟩
    rw [smbGen_eq_some.mpr ⟨g, hok, hhigh, rfl⟩] at hgen
    exact absurd hgen (by simp)
  | some x =>
    obtain ⟨g, hok, hhigh, rfl⟩ := smbGen_eq_some.mp hgen
    dsimp only
    rw [beq_iff_eq]
    refine ⟨fun h => ⟨g, hok, hhigh, h⟩, ?_⟩
    rintro ⟨g', hok', hhigh', h⟩
    have heq := hgen.symm.trans (smbGen_eq_some.mpr ⟨g', hok', hhigh', rfl⟩)
    obtain ⟨hsalt, hver⟩ := Prod.ext_iff.mp (Option.some.inj heq)
    dsimp only at hsalt hver
    rw [hsalt, hver]
    exact h

section
variable {s : State} (hcore : s.dev.pwr.core = true)
include hcore

/-- A command of the target that only sets the security unit's state. -/
theorem smb_sets {c : Instr} {g : Dev → Dev} {f : Sec → Sec} (hexec : exec c s = core s g) (heq : g s.dev = onSec s.dev f) :
    Acts [.sec] c s fun t => t.dev.sec = f s.dev.sec :=
  (Within.of_only (only_onSec s.dev f)).acts (exec_of_core hexec hcore heq) rfl

/-- A command with a bad PEC is counted. -/
theorem smb_badPec {c : Instr} {g : Dev → Dev} (hexec : exec c s = core s g) (heq : g s.dev = sat s.dev F.SEC_SMB_CNT_PEC_ERR 0) :
    ActsR [F.SEC_SMB_CNT_PEC_ERR.addr 0] [] c s fun t =>
      rd t.dev F.SEC_SMB_CNT_PEC_ERR = satAdd 16 (rd s.dev F.SEC_SMB_CNT_PEC_ERR) 1 :=
  ((Within.refl _ _ s.dev).sat).actsR (exec_of_core hexec hcore heq) (rd_sat_same _ (by decide) _ _)

variable {pwd : List (BitVec 8)}

theorem sessOpen_opens (hlock : s.dev.sec.smbLock = false) (hpass : RightPassword s.dev pwd) : Acts [.sec] (.sessOpen true pwd) s fun t =>
    t.dev.sec = { s.dev.sec with smbNo := false, smbOpen := true, smbLast := false, smbFails := 0, smbLen := 0 } := by
  refine smb_sets hcore (g := smbOpenCmd true pwd s.sn)
    (f := fun x => { x with smbNo := false, smbOpen := true, smbLast := false, smbFails := 0, smbLen := 0 }) rfl ?_
  have hgo : (!s.dev.sec.smbLock && smbPass s.dev pwd) = true := by rw [hlock, (smbPass_iff s.dev pwd).mpr hpass]; rfl
  unfold smbOpenCmd
  rw [if_neg (by decide)]
  exact if_pos hgo

/-- The security unit once an open of the target has failed. -/
def openFailed (x : Sec) : Sec :=
  let n := x.smbFails + (if x.smbLock then 0 else 1)
  let hit := !x.smbLock && decide (3 ≤ n)
  { x with smbNo := false, smbLast := true, smbFails := n, smbLock := x.smbLock || hit,
           smbLen := if hit then (if x.smbLen = 0 then 10 else min 640 (2 * x.smbLen)) else x.smbLen }

theorem sessOpen_fails (h : ¬ (s.dev.sec.smbLock = false ∧ RightPassword s.dev pwd)) :
    ActsR [F.SEC_SMB_CNT_PEC_ERR.addr 0] [.sec, .hif, .free] (.sessOpen true pwd) s fun t =>
      t.dev.sec = openFailed s.dev.sec ∧ rd t.dev F.SEC_SMB_CNT_AUTH_FAIL = satAdd 16 (rd s.dev F.SEC_SMB_CNT_AUTH_FAIL) 1 := by
  obtain ⟨m, hm⟩ : ∃ m, m = onSec (sat (onSec s.dev fun x => { x with smbNo := false }) F.SEC_SMB_CNT_AUTH_FAIL 0) openFailed := ⟨_, rfl⟩
  have hsec : m.sec = openFailed s.dev.sec := by rw [hm]; rfl
  have hfail : rd m F.SEC_SMB_CNT_AUTH_FAIL = satAdd 16 (rd s.dev F.SEC_SMB_CNT_AUTH_FAIL) 1 := by
    rw [hm]
    exact rd_sat_same (onSec s.dev fun x => { x with smbNo := false }) (by decide) _ _
  have hframe : Within [F.SEC_SMB_CNT_PEC_ERR.addr 0] [.regs, .sec, .hif, .free] s.dev m := by
    rw [hm]
    exact (((Within.refl _ _ s.dev).only (only_onSec _ _)).sat (f := F.SEC_SMB_CNT_AUTH_FAIL) (i := 0) (List.mem_singleton_self _)).only
      (only_onSec _ _)
  obtain ⟨e, heq⟩ : ∃ e, smbOpenCmd true pwd s.sn s.dev = freed (raise m e) := by
    have hno : ¬ ((!s.dev.sec.smbLock && smbPass s.dev pwd) = true) := by
      rw [Bool.and_eq_true, Bool.not_eq_true', smbPass_iff]
      exact h
    unfold smbOpenCmd
    rw [if_neg (by decide), hm]
    exact ⟨_, if_neg hno⟩
  exact (hframe.raise.only (only_freed _)).actsR (exec_of_core (g := smbOpenCmd true pwd s.sn) rfl hcore heq) ⟨hsec, hfail⟩

omit hcore in
/-- A failure while opens are not locked out. -/
theorem openFailed_unlocked {x : Sec} (h : x.smbLock = false) : openFailed x =
    { x with smbNo := false, smbLast := true, smbFails := x.smbFails + 1, smbLock := decide (3 ≤ x.smbFails + 1),
             smbLen := if 3 ≤ x.smbFails + 1 then (if x.smbLen = 0 then 10 else min 640 (2 * x.smbLen)) else x.smbLen } := by
  simp [openFailed, h]

omit hcore in
/-- A failure during a lockout. -/
theorem openFailed_locked {x : Sec} (h : x.smbLock = true) : openFailed x = { x with smbNo := false, smbLast := true } := by
  simp only [openFailed, h]
  rfl

theorem deviceId_answers : Acts [.sec, .out] .deviceId s fun t => t.dev.sec = { s.dev.sec with smbNo := false } ∧
    ∃ rev, Sent s.dev t.dev [.smbus (fieldBytes s.dev 0 2 ++ [rev, BitVec.ofNat 8 (svnFloor s.dev), BitVec.ofNat 8 (svnFloor s.dev / 256)])] :=
  (((Within.refl [] _ s.dev).only (only_onSec s.dev fun x => { x with smbNo := false })).emit).acts
    (exec_of_core (g := smbDevId) rfl hcore rfl) ⟨rfl, Config.revDig ++ Config.revLtr, rfl⟩

theorem status_answers : Acts [.out] .status s fun t => ∃ v : BitVec 8, Sent s.dev t.dev [.smbus [v]] ∧ v.getLsbD 0 = s.dev.sec.smbOpen ∧
    v.getLsbD 1 = s.dev.sec.smbLock ∧ v.getLsbD 2 = s.dev.sec.smbNo ∧ v.getLsbD 3 = s.dev.sec.smbLast ∧ v.extractLsb' 4 4 = 0 := by
  refine (((Within.refl [] _ s.dev).emit)).acts (exec_of_core (g := smbStatus) rfl hcore rfl) ⟨_, rfl, ?_⟩
  cases s.dev.sec.smbOpen <;> cases s.dev.sec.smbLock <;> cases s.dev.sec.smbNo <;> cases s.dev.sec.smbLast <;> decide

end

/-! ### READ and WRITE (R463) -/

/-- The device as a command of a session finds it. -/
def smbFound (d : Dev) : Dev := onSec d fun x => { x with smbNo := false }

theorem smbSess_open {d : Dev} (hopen : d.sec.smbOpen = true) (f : Dev → Dev) : smbSess true f d = f (smbFound d) := by
  unfold smbSess
  rw [if_neg (by decide), hopen]
  rfl

theorem smbSess_closed {d : Dev} (hclosed : d.sec.smbOpen = false) (f : Dev → Dev) :
    smbSess true f d = onSec d fun x => { x with smbNo := true } := by
  unfold smbSess
  rw [if_neg (by decide), hclosed]
  rfl

section
variable {s : State} (hcore : s.dev.pwr.core = true) (hopen : s.dev.sec.smbOpen = true) {addr : W32} {b : Nat}
  (hb : addr.toNat / 4 * 4 = b)
include hcore hopen hb

theorem read_serves (n : Nat) : ActsR (wordsFrom b n) [.sec, .out, .free] (.read true addr n) s fun t =>
    t.dev.sec = { s.dev.sec with smbNo := false } ∧
    ∃ ws : List W32, Sent s.dev t.dev [.smbus (ws.flatMap wordBytes)] ∧ ws.length = n ∧
      ∀ k, k < n → ws[k]? = some (smbWord s.lock s.dev (b + 4 * k)) := by
  subst hb
  obtain ⟨hframe, hlen, hwords⟩ := smbRead_spec s.lock n (addr.toNat / 4 * 4) (smbFound s.dev)
  have heq : smbSess true (smbReadCmd addr.toNat n s.lock) s.dev = emit (freed (smbRead s.lock (addr.toNat / 4 * 4) n (smbFound s.dev)).2)
      (.smbus ((smbRead s.lock (addr.toNat / 4 * 4) n (smbFound s.dev)).1.flatMap wordBytes)) := smbSess_open hopen _
  have hsame (x : Nat) : smbWord s.lock (smbFound s.dev) x = smbWord s.lock s.dev x :=
    smbWord_congr (a := s.dev) (b := smbFound s.dev) ⟨rfl, rfl, rfl, rfl⟩ rfl s.lock
  have hfound : Within (wordsFrom (addr.toNat / 4 * 4) n) [.regs, .sec, .out, .free] s.dev (smbFound s.dev) :=
    (Within.refl _ _ s.dev).only (only_onSec _ _)
  generalize smbRead s.lock (addr.toNat / 4 * 4) n (smbFound s.dev) = r at *
  have hsec : r.2.sec = (smbFound s.dev).sec := hframe.parts .sec (by simp)
  have hout : r.2.out = (smbFound s.dev).out := hframe.parts .out (by simp)
  refine (((hfound.next hframe (List.Subset.refl _)).only (only_freed _)).emit).actsR
    (exec_of_core (g := smbSess true (smbReadCmd addr.toNat n s.lock)) rfl hcore heq) ⟨hsec, r.1, ?_, hlen, fun k hk => ?_⟩
  · exact congrArg (· ++ [Out.smbus (r.1.flatMap wordBytes)]) hout
  · rw [hwords k hk, hsame]

variable (val : W32) (ns : Nat)

theorem write_discards (hno : smbWrites b = false) : ActsR [F.GLB_BAR0_ERR_WR_DISC.addr 0] [.sec] (.write true addr val ns) s fun t =>
    t.dev.sec = { s.dev.sec with smbNo := false } ∧ (implemented b = true → t.dev.regs = s.dev.regs) ∧
    (implemented b = false → rd t.dev F.GLB_BAR0_ERR_WR_DISC = satAdd 16 (rd s.dev F.GLB_BAR0_ERR_WR_DISC) 1) := by
  subst hb
  have heq : smbSess true (smbWriteCmd addr.toNat val ns s.lock s.sn) s.dev =
      if implemented (addr.toNat / 4 * 4) then smbFound s.dev else sat (smbFound s.dev) F.GLB_BAR0_ERR_WR_DISC 0 := by
    rw [smbSess_open hopen]
    unfold smbWriteCmd
    exact if_pos (by rw [hno]; rfl)
  have hfound : Within [F.GLB_BAR0_ERR_WR_DISC.addr 0] [.regs, .sec] s.dev (smbFound s.dev) := (Within.refl _ _ s.dev).only (only_onSec _ _)
  cases himp : implemented (addr.toNat / 4 * 4) with
  | true =>
    rw [himp, if_pos rfl] at heq
    exact hfound.actsR (exec_of_core (g := smbSess true (smbWriteCmd addr.toNat val ns s.lock s.sn)) rfl hcore heq)
      ⟨rfl, fun _ => rfl, nofun⟩
  | false =>
    rw [himp, if_neg Bool.false_ne_true] at heq
    exact hfound.sat.actsR (exec_of_core (g := smbSess true (smbWriteCmd addr.toNat val ns s.lock s.sn)) rfl hcore heq)
      ⟨rfl, nofun, fun _ => rd_sat_same (smbFound s.dev) (by decide) _ _⟩

omit hcore in
/-- A write that stores its word and sets nothing in motion. -/
theorem smbWrite_eq {fs : List (Fld × Nat)} (hfs : fldsAt b = fs) (hstored : fs.all (·.1.stored) = true) (hmay : smbWrites b = true)
    (hquiet : triggers.all (fun f => (f.idxAt b).isNone) = true) (hstby : b ≠ F.PWR_CTL_STBY_REQ.base) :
    smbSess true (smbWriteCmd addr.toNat val ns s.lock s.sn) s.dev =
      fs.foldl (fun d p => wr d p.1 p.2 (val.toNat / 2 ^ p.1.lo % 2 ^ p.1.wd)) (smbFound s.dev) := by
  subst hb
  rw [smbSess_open hopen]
  unfold smbWriteCmd
  rw [if_neg (by rw [hmay]; decide)]
  dsimp only
  rw [if_neg (fun h => hstby h.1), writeWord_of_quiet hquiet, hfs]
  refine List.foldl_ext _ _ _ fun d p hp => ?_
  rw [storeFld_stored _ _ _ _ (List.all_eq_true.mp hstored p hp), getBits_eq]

theorem write_wakeTimer (hword : b = F.PWR_WAKE_TMR.addr 0) : ActsR [b] [.sec] (.write true addr val ns) s fun t =>
    t.dev.sec = { s.dev.sec with smbNo := false } ∧ rd t.dev F.PWR_WAKE_TMR = val.toNat % 2 ^ 20 := by
  have hfs : fldsAt (F.PWR_WAKE_TMR.addr 0) = [(F.PWR_WAKE_TMR, 0)] ∧
      triggers.all (fun f => (f.idxAt (F.PWR_WAKE_TMR.addr 0)).isNone) = true := by decide +kernel
  have heq := smbWrite_eq (s := s) hopen hb val ns (hword ▸ hfs.1) (by decide) (hword ▸ (by decide)) (hword ▸ hfs.2) (hword ▸ (by decide))
  refine (((Within.refl [b] [.regs, .sec] s.dev).only (only_onSec _ _)).wr (by simp [hword])).actsR
    (exec_of_core (g := smbSess true (smbWriteCmd addr.toNat val ns s.lock s.sn)) rfl hcore heq) ⟨rfl, ?_⟩
  exact (rd_wr_same _ _ _ _ (by decide)).trans ((Nat.mod_mod _ _).trans (congrArg (· % 2 ^ 20) (Nat.div_one _)))

theorem write_tempCfg (hword : b = F.PWR_TEMP_CFG_WARN.addr 0) : ActsR [b] [.sec] (.write true addr val ns) s fun t =>
    rd t.dev F.PWR_TEMP_CFG_WARN = val.toNat % 256 ∧ rd t.dev F.PWR_TEMP_CFG_SHUT = val.toNat / 256 % 256 := by
  have hfs : fldsAt (F.PWR_TEMP_CFG_WARN.addr 0) = [(F.PWR_TEMP_CFG_WARN, 0), (F.PWR_TEMP_CFG_SHUT, 0)] ∧
      triggers.all (fun f => (f.idxAt (F.PWR_TEMP_CFG_WARN.addr 0)).isNone) = true := by decide +kernel
  have heq := smbWrite_eq (s := s) hopen hb val ns (hword ▸ hfs.1) (by decide) (hword ▸ (by decide)) (hword ▸ hfs.2) (hword ▸ (by decide))
  refine ((((Within.refl [b] [.regs, .sec] s.dev).only (only_onSec _ _)).wr (by simp [hword])).wr (by simp [hword]; rfl)).actsR
    (exec_of_core (g := smbSess true (smbWriteCmd addr.toNat val ns s.lock s.sn)) rfl hcore heq) ⟨?_, ?_⟩
  · refine (rd_wr_apart _ (by decide)).trans ((rd_wr_same _ _ _ _ (by decide)).trans ?_)
    exact (Nat.mod_mod _ _).trans (congrArg (· % 2 ^ 8) (Nat.div_one _))
  · exact (rd_wr_same _ _ _ _ (by decide)).trans (Nat.mod_mod _ _)

end

/-- Settles O52: the commands of the SMBus target. -/
theorem smbusServesTheBoard : Obligations.SmbusServesTheBoard := by
  intro s pwd addr val count ns hcore x cnt b bad right
  refine ⟨fun c hc => ?_, fun hclosed c hc => ?_, deviceId_answers hcore, status_answers hcore,
    fun hlock hright => sessOpen_opens hcore hlock hright, fun hlock hwrong => ?_, fun hlock => ?_, fun hopen => ?_,
    fun hopen => read_serves hcore hopen rfl count, fun hopen hno => write_discards hcore hopen rfl val ns hno,
    fun hopen hword => write_wakeTimer hcore hopen rfl val ns hword, fun hopen hword => write_tempCfg hcore hopen rfl val ns hword,
    smb_sets hcore (g := fun d => onSec d fun x => { x with smbOpen := false }) (f := fun x => { x with smbOpen := false }) rfl rfl,
    smb_sets hcore (g := fun d => onSec d fun x => { x with smbLock := false }) (f := fun x => { x with smbLock := false }) rfl rfl, rfl⟩
  · simp only [List.mem_cons, List.not_mem_nil, or_false] at hc
    rcases hc with rfl | rfl | rfl | rfl
    · exact smb_badPec hcore (g := smbOpenCmd false pwd s.sn) rfl rfl
    · exact smb_badPec hcore (g := smbSess false fun d => onSec d fun x => { x with smbOpen := false }) rfl rfl
    · exact smb_badPec hcore (g := smbSess false (smbReadCmd addr.toNat count s.lock)) rfl rfl
    · exact smb_badPec hcore (g := smbSess false (smbWriteCmd addr.toNat val ns s.lock s.sn)) rfl rfl
  · simp only [List.mem_cons, List.not_mem_nil, or_false] at hc
    rcases hc with rfl | rfl | rfl
    · exact smb_sets hcore (g := smbSess true fun d => onSec d fun x => { x with smbOpen := false }) (f := fun x => { x with smbNo := true })
        rfl (smbSess_closed hclosed _)
    · exact smb_sets hcore (g := smbSess true (smbReadCmd addr.toNat count s.lock)) (f := fun x => { x with smbNo := true })
        rfl (smbSess_closed hclosed _)
    · exact smb_sets hcore (g := smbSess true (smbWriteCmd addr.toNat val ns s.lock s.sn)) (f := fun x => { x with smbNo := true })
        rfl (smbSess_closed hclosed _)
  · refine (sessOpen_fails hcore fun h => hwrong h.2).weaken fun t ht => ⟨ht.1.trans (openFailed_unlocked hlock), ht.2⟩
  · refine (sessOpen_fails hcore fun h => ?_).weaken fun t ht => ht.1.trans (openFailed_locked hlock)
    exact absurd h.1 (by rw [show s.dev.sec.smbLock = true from hlock]; decide)
  · exact smb_sets hcore (g := smbSess true fun d => onSec d fun x => { x with smbOpen := false })
      (f := fun x => { x with smbNo := false, smbOpen := false }) rfl (smbSess_open hopen _)

end Sys2Proof.Machine
end

