-- ==== Sys2Proof/Proofs/HostResets.lean ====
section
/-! PROOFS. Host resets and the clearing of the memories (R353, R373, R460, R501, R516). -/

namespace Sys2Proof.Machine

-- In order: a default argument `by simp` waits for every declaration before it, and many that wait take many threads.
set_option Elab.async false

/-! ### What a fold keeps, and what one of its steps brings about -/

section
variable {α β : Type} {g : β → α → β} {l : List α}

theorem foldl_keeps {P : β → Prop} (hkeep : ∀ d, ∀ m ∈ l, P d → P (g d m)) {d : β} (h : P d) : P (l.foldl g d) :=
  List.foldlRecOn l g h fun d hd m hm => hkeep d m hm hd

/-- What the step of `n` brings about where `Q` holds is so at the end, where every step keeps both. -/
theorem foldl_reaches {P Q : β → Prop} (hQ : ∀ d, ∀ m ∈ l, Q d → Q (g d m)) (hP : ∀ d, ∀ m ∈ l, P d → P (g d m)) {n : α} (hn : n ∈ l)
    (hat : ∀ d, Q d → P (g d n)) {d : β} (h : Q d) : P (l.foldl g d) := by
  obtain ⟨pre, post, rfl⟩ := List.append_of_mem hn
  rw [List.foldl_append, List.foldl_cons]
  exact foldl_keeps (fun d m hm => hP d m (by simp [hm])) (hat _ (foldl_keeps (fun d m hm => hQ d m (by simp [hm])) h))

end

/-! ### Every session closes (R353, R460) -/

/-- The words that the close of the sessions can write. -/
abbrev slotWords : List Nat := (List.range 15).map slotWord

/-- A slot that a host reset meets. -/
def slotEnded (sn : SN) (d : Dev) (n : Nat) : Dev :=
  if rdB d F.SEC_SESS_SLOT_OPEN n = true then raise (closeSlot d n) { typ := 0x81, sn := sn, p0 := n, p1 := 2 } else d

theorem closeAll_eq (sn : SN) (d : Dev) : closeAll sn d = (List.range 15).foldl (slotEnded sn) d := rfl

theorem slotEnded_of_open (sn : SN) {d : Dev} {n : Nat} (h : rd d F.SEC_SESS_SLOT_OPEN n = 1) :
    slotEnded sn d n = raise (closeSlot d n) { typ := 0x81, sn := sn, p0 := n, p1 := 2 } :=
  if_pos ((rdB_iff d (f := F.SEC_SESS_SLOT_OPEN) (by decide) n).mpr h)

theorem slotEnded_of_closed (sn : SN) {d : Dev} {n : Nat} (h : rd d F.SEC_SESS_SLOT_OPEN n ≠ 1) : slotEnded sn d n = d :=
  if_neg fun hopen => h ((rdB_iff d (f := F.SEC_SESS_SLOT_OPEN) (by decide) n).mp hopen)

theorem slotWord_ne {n m : Nat} (hn : n < 15) (hm : m < 15) (h : n ≠ m) : slotWord n ≠ slotWord m :=
  fun heq => h (Fld.addr_inj (f := F.SEC_SESS_SLOT_OPEN) (by decide) hn hm heq)

theorem slotWord_notMem_bind (n : Nat) : slotWord n ∉ bindWords ++ tilthRegs := by
  have hslot := slotWord_ge n
  intro h
  rcases List.mem_append.mp h with h | h
  · obtain ⟨r, hr, heq⟩ := List.mem_map.mp h
    have := Fld.ringed_lt (f := F.HIF_RING_STATUS_SESS) (by decide) (List.mem_range.mp hr)
    omega
  · have : ∀ a ∈ tilthRegs, a < 0x2800080 := by decide
    have := this _ h
    omega

section
variable (sn : SN)

theorem within_slotEnded (d : Dev) {n : Nat} (hn : n ∈ List.range 15) :
    Within (slotWords ++ bindWords ++ tilthRegs) [.regs, .sec, .hif, .tilth, .sw, .out, .twin] d (slotEnded sn d n) := by
  refine .ite (fun _ => ?_) fun _ => .refl _ _ d
  refine ((closeSlot_spec d n).frame.mono (fun a ha => ?_)).raise
  rcases List.mem_append.mp ha with ha | ha
  · rcases List.mem_cons.mp ha with rfl | ha
    · exact List.mem_append_left _ (List.mem_append_left _ (List.mem_map_of_mem hn))
    · exact List.mem_append_left _ (List.mem_append_right _ ha)
  · exact List.mem_append_right _ ha

/-- A step at one slot leaves the others. -/
theorem slotEnded_open_ne (d : Dev) {n m : Nat} (hn : n < 15) (hm : m < 15) (h : n ≠ m) :
    rd (slotEnded sn d m) F.SEC_SESS_SLOT_OPEN n = rd d F.SEC_SESS_SLOT_OPEN n := by
  unfold slotEnded
  split
  · refine (closeSlot_spec d m).frame.rd (f := F.SEC_SESS_SLOT_OPEN) ?_
    exact List.not_mem_cons_of_ne_of_not_mem (slotWord_ne hn hm h) (slotWord_notMem_bind n)
  · rfl

theorem slotEnded_closes (d : Dev) (n : Nat) : rd (slotEnded sn d n) F.SEC_SESS_SLOT_OPEN n = 0 := by
  by_cases h : rd d F.SEC_SESS_SLOT_OPEN n = 1
  · rw [slotEnded_of_open sn h]
    exact (closeSlot_spec d n).closed
  · rw [slotEnded_of_closed sn h]
    have := rd_lt d F.SEC_SESS_SLOT_OPEN n
    have : F.SEC_SESS_SLOT_OPEN.wd = 1 := rfl
    simp only [this] at *
    omega

/-- A step at a slot unbinds its rings alone. -/
theorem slotEnded_rings (d : Dev) (n : Nat) (r : Fin 41) : rState (slotEnded sn d n) r = rState d r ∧
    rd (slotEnded sn d n) F.HIF_RING_STATUS_SESS r =
      if rd d F.SEC_SESS_SLOT_OPEN n = 1 ∧ rd d F.HIF_RING_STATUS_SESS r = n then 15 else rd d F.HIF_RING_STATUS_SESS r := by
  by_cases h : rd d F.SEC_SESS_SLOT_OPEN n = 1
  · rw [slotEnded_of_open sn h]
    obtain ⟨hstate, hsess⟩ := (closeSlot_spec d n).rings r
    exact ⟨hstate, by simpa [h] using hsess⟩
  · rw [slotEnded_of_closed sn h]
    simp [h]

/-- What the close of every session leaves. -/
structure SessionsClosed (a b : Dev) : Prop where
  frame : Within (slotWords ++ bindWords ++ tilthRegs) [.regs, .sec, .hif, .tilth, .sw, .out, .twin] a b
  closed : ∀ n : Fin 15, rd b F.SEC_SESS_SLOT_OPEN n = 0
  states : ∀ r : Fin 41, rState b r = rState a r
  unbound : ∀ r : Fin 41, rd a F.HIF_RING_STATUS_SESS r < 15 → rd a F.SEC_SESS_SLOT_OPEN (rd a F.HIF_RING_STATUS_SESS r) = 1 →
    rd b F.HIF_RING_STATUS_SESS r = 15

/-- A ring of slot `n`, unbound already or with its slot still open. -/
def UnboundOrOpen (r n : Nat) (d : Dev) : Prop :=
  rd d F.HIF_RING_STATUS_SESS r = 15 ∨ (rd d F.HIF_RING_STATUS_SESS r = n ∧ rd d F.SEC_SESS_SLOT_OPEN n = 1)

theorem slotEnded_unbound {d : Dev} {r : Fin 41} {m : Nat} (h : rd d F.HIF_RING_STATUS_SESS r = 15) :
    rd (slotEnded sn d m) F.HIF_RING_STATUS_SESS r = 15 := by
  rw [(slotEnded_rings sn d m r).2, h]
  split <;> rfl

theorem slotEnded_unbinds {d : Dev} {r : Fin 41} {n : Nat} (h : UnboundOrOpen r n d) :
    rd (slotEnded sn d n) F.HIF_RING_STATUS_SESS r = 15 := by
  rcases h with h | ⟨hsess, hopen⟩
  · exact slotEnded_unbound sn h
  · rw [(slotEnded_rings sn d n r).2, if_pos ⟨hopen, hsess⟩]

theorem slotEnded_unboundOrOpen {d : Dev} {r : Fin 41} {n m : Nat} (hn : n < 15) (hm : m < 15) (h : UnboundOrOpen r n d) :
    UnboundOrOpen r n (slotEnded sn d m) := by
  by_cases heq : n = m
  · exact heq ▸ .inl (slotEnded_unbinds sn h)
  · rcases h with h | ⟨hsess, hopen⟩
    · exact .inl (slotEnded_unbound sn h)
    · refine .inr ⟨?_, (slotEnded_open_ne sn d hn hm heq).trans hopen⟩
      rw [(slotEnded_rings sn d m r).2, if_neg fun h => heq (hsess.symm.trans h.2), hsess]

theorem closeAll_spec (d : Dev) : SessionsClosed d (closeAll sn d) := by
  rw [closeAll_eq]
  refine ⟨Within.foldl (fun e _ hm => within_slotEnded sn e hm) d, fun n => ?_, fun r => ?_, fun r hlt hopen => ?_⟩
  · obtain ⟨e, -, hlast⟩ := foldl_at (g := slotEnded sn) (rd · F.SEC_SESS_SLOT_OPEN n) List.nodup_range (List.mem_range.mpr n.isLt)
      (fun e m hm hne => slotEnded_open_ne sn e n.isLt (List.mem_range.mp hm) hne.symm) d
    exact hlast.trans (slotEnded_closes sn e n)
  · exact foldl_same (g := (rState · r)) (f := slotEnded sn) (fun e m => (slotEnded_rings sn e m r).1) _ d
  · exact foldl_reaches (P := fun e => rd e F.HIF_RING_STATUS_SESS r = 15) (Q := UnboundOrOpen r (rd d F.HIF_RING_STATUS_SESS r))
      (fun e m hm => slotEnded_unboundOrOpen sn hlt (List.mem_range.mp hm)) (fun e m _ => slotEnded_unbound sn)
      (List.mem_range.mpr hlt) (fun e => slotEnded_unbinds sn) (.inr ⟨rfl, hopen⟩)

end

/-! ### Every ring resets (R352, R353) -/

/-- HIF_RING_STATUS of every ring. -/
abbrev ringStateWords : List Nat := (List.range 41).map (F.HIF_RING_STATUS_STATE.addr ·)

/-- A ring that a host reset meets. -/
def ringEnded (sn : SN) (d : Dev) (r : Nat) : Dev :=
  if rState d r = 0 ∨ rState d r = 4 then d else ringReset sn d r

theorem pairWords_subset {r : Nat} (hr : r < 41) : pairWords r ⊆ ringStateWords := by
  refine List.map_subset _ fun q hq => List.mem_range.mpr ?_
  unfold pairRings at hq
  split at hq
  · simp only [List.mem_cons, List.not_mem_nil, or_false] at hq
    omega
  · split at hq
    · simp only [List.mem_cons, List.not_mem_nil, or_false] at hq
      omega
    · simp only [List.mem_cons, List.not_mem_nil, or_false] at hq
      omega

theorem mem_pairRings_self (r : Nat) : r ∈ pairRings r := by
  unfold pairRings
  split
  · simp
  · split
    · simp
    · simp

section
variable (sn : SN) (d : Dev)

theorem within_ringEnded {r : Nat} (hr : r < 41) :
    Within (ringStateWords ++ tilthRegs) [.regs, .hif, .dma, .tilth, .sw, .twin, .out] d (ringEnded sn d r) :=
  .ite (fun _ => .refl _ _ d) fun _ => (within_ringReset sn d r).mono
    (List.append_subset.mpr ⟨fun _ h => List.mem_append_left _ (pairWords_subset hr h), List.subset_append_right _ _⟩)

/-- A reset leaves the state of a ring, or puts it in RESETTING with its pair. -/
theorem ringEnded_state {m : Nat} (hm : m < 41) {r : Nat} (hr : r < 41) :
    rState (ringEnded sn d m) r = rState d r ∨ rState (ringEnded sn d m) r = 4 := by
  unfold ringEnded
  split
  · exact .inl rfl
  · by_cases hmem : r ∈ pairRings m
    · exact .inr (ringReset_ring sn d (by omega) hmem).1
    · refine .inl ((within_ringReset sn d m).rState fun h => ?_)
      rcases List.mem_append.mp h with h | h
      · obtain ⟨q, hq, heq⟩ := List.mem_map.mp h
        by_cases hne : q = r
        · exact hmem (hne ▸ hq)
        · exact Fld.ringed_addr_ne (by decide) (by decide) (.inr hne) heq
      · exact Fld.ringed_notMem (f := F.HIF_RING_STATUS_STATE) (by decide) (by omega) (by decide) h

/-- A ring is DISABLED or in RESETTING after its own step. -/
theorem ringEnded_self {r : Nat} (hr : r < 41) : rState (ringEnded sn d r) r = 4 ∨ rState (ringEnded sn d r) r = 0 := by
  unfold ringEnded
  split
  · rename_i h
    exact h.symm
  · exact .inl (ringReset_ring sn d (by omega) (mem_pairRings_self r)).1

theorem sess_ringDropped (q r : Nat) : rd (ringDropped d q) F.HIF_RING_STATUS_SESS r = rd d F.HIF_RING_STATUS_SESS r := by
  by_cases h : r = q
  · subst h
    exact rd_wr_apart d (f := F.HIF_RING_STATUS_STATE) (g := F.HIF_RING_STATUS_SESS) (by decide)
  · exact rd_wr_addr d F.HIF_RING_STATUS_STATE F.HIF_RING_STATUS_SESS q r 4 (Fld.ringed_addr_ne (by decide) (by decide) (.inr h))

/-- A reset leaves the binding of every ring. -/
theorem ringEnded_sess (m : Nat) {r : Nat} (hr : r < 41) :
    rd (ringEnded sn d m) F.HIF_RING_STATUS_SESS r = rd d F.HIF_RING_STATUS_SESS r := by
  have hdrop : rd ((pairRings m).foldl ringDropped d) F.HIF_RING_STATUS_SESS r = rd d F.HIF_RING_STATUS_SESS r :=
    foldl_same (g := (rd · F.HIF_RING_STATUS_SESS r)) (fun e q => sess_ringDropped e q r) _ d
  unfold ringEnded
  split
  · rfl
  · rw [ringReset_eq]
    split
    · exact ((within_withdrawRing sn _ _).rd (sess_notMem_tilthRegs hr)).trans hdrop
    · exact hdrop

/-- The reset of every ring. -/
def ringsEnded : Dev := (List.range 41).foldl (ringEnded sn) d

theorem within_ringsEnded :
    Within (ringStateWords ++ tilthRegs) [.regs, .hif, .dma, .tilth, .sw, .twin, .out] d (ringsEnded sn d) :=
  Within.foldl (fun e _ hm => within_ringEnded sn e (List.mem_range.mp hm)) d

theorem ringsEnded_sess (r : Fin 41) : rd (ringsEnded sn d) F.HIF_RING_STATUS_SESS r = rd d F.HIF_RING_STATUS_SESS r :=
  foldl_same (g := (rd · F.HIF_RING_STATUS_SESS r)) (fun e m => ringEnded_sess sn e m r.isLt) _ d

theorem ringsEnded_state (r : Fin 41) : rState (ringsEnded sn d) r = 4 ∨ rState (ringsEnded sn d) r = 0 := by
  refine foldl_reaches (P := fun e => rState e r = 4 ∨ rState e r = 0) (Q := fun _ => True) (fun _ _ _ _ => trivial)
    (fun e m hm h => ?_) (List.mem_range.mpr r.isLt) (fun e _ => ringEnded_self sn e r.isLt) trivial
  rcases ringEnded_state sn e (List.mem_range.mp hm) r.isLt with hk | hk
  · rwa [hk]
  · exact .inl hk

theorem ringsEnded_resets {r : Fin 41} (h : rState d r ≠ 0) : rState (ringsEnded sn d) r = 4 := by
  have hne : rState (ringsEnded sn d) r ≠ 0 := by
    refine foldl_keeps (P := fun e => rState e r ≠ 0) (fun e m hm h => ?_) h
    rcases ringEnded_state sn e (List.mem_range.mp hm) r.isLt with hk | hk
    · rwa [hk]
    · rw [hk]
      decide
  exact (ringsEnded_state sn d r).resolve_right hne

end

/-! ### The resets of the host (R353, R371, R373) -/

/-- The words that a host reset can write. -/
abbrev hostResetWords : List Nat := ringStateWords ++ slotWords ++ tilthRegs ++ [arbWord, F.ARB_NULL.addr 0]

theorem arbStat_cause (d : Dev) : rd (arbStat d) F.ARB_STATUS_MODE_CAUSE = modeCause d := by
  have hlt : modeCause d < 2 ^ F.ARB_STATUS_MODE_CAUSE.wd := by
    unfold modeCause
    split
    · decide
    · split
      · decide
      · split <;> decide
  rw [arbStat_eq]
  dsimp only
  split
  · rw [rd_wrB_apart _ (by decide), rd_wr_fits _ ⟨by decide, hlt⟩]
  · rw [rd_wrB_apart _ (by decide), rd_wrB_apart _ (by decide), rd_wr_fits _ ⟨by decide, hlt⟩]

/-- What an arbiter in its start-up mode shows. -/
theorem arbStat_startup {d : Dev} (h : d.dma.startup = true) :
    rd (arbStat d) F.ARB_STATUS_MODE = 1 ∧ rd (arbStat d) F.ARB_STATUS_MODE_CAUSE = 1 := by
  obtain ⟨-, -, hmode⟩ := arbStat_status d
  have hcause : modeCause d = 1 := if_pos h
  rw [hmode, arbStat_cause, hcause]
  exact ⟨rfl, rfl⟩

/-- What a host reset leaves. -/
structure HostReset (a b : Dev) : Prop where
  frame : Within hostResetWords [.regs, .hif, .dma, .tilth, .sw, .twin, .out, .sec, .pm] a b
  rings : ∀ r : Fin 41, (rState a r ≠ 0 → rState b r = 4) ∧ (rState b r = 4 ∨ rState b r = 0) ∧
    (rd a F.HIF_RING_STATUS_SESS r < 15 → rd a F.SEC_SESS_SLOT_OPEN (rd a F.HIF_RING_STATUS_SESS r) = 1 → rd b F.HIF_RING_STATUS_SESS r = 15)
  slots : ∀ n : Fin 15, rd b F.SEC_SESS_SLOT_OPEN n = 0
  cache : b.dma.cache = []
  reqs : b.dma.reqs = []
  startup : b.dma.startup = true
  mode : rd b F.ARB_STATUS_MODE = 1
  cause : rd b F.ARB_STATUS_MODE_CAUSE = 1

/-- The arbiter and the translation after an FLR. -/
def dmaStarted (m : Dma) : Dma := { m with cache := [], reqs := [], succ := [], retry := [], second := [], startup := true }

/-- Configuration space at its reset values. -/
def dmaUnset (m : Dma) : Dma := { m with bme := false, recovery := true, enable := false, pri := false, stopped := true, rspFail := false }

theorem flr_eq (sn : SN) (d : Dev) : flr sn d = arbStat (onDma (ringsEnded sn (closeAll sn d)) dmaStarted) := by
  have hstep : ringEnded sn = fun d r => if rState d r = 0 ∨ rState d r = 4 then d else ringReset sn d r := rfl
  simp only [flr, ringsEnded, hstep, onDma, dmaStarted]

theorem hotReset_eq (sn : SN) (d : Dev) : hotReset sn d = arbStat (onDma (flr sn d) dmaUnset) := rfl

/-- The words of rings and slots lie outside the arbiter's. -/
theorem ring_notMem_arb {f : Fld} (hf : f.ringed = true) {r : Nat} (hr : r < 41) : f.addr r ∉ [arbWord, F.ARB_NULL.addr 0] :=
  Fld.ringed_notMem hf (by omega) (by decide)

theorem slotWord_notMem_arb (n : Nat) : slotWord n ∉ [arbWord, F.ARB_NULL.addr 0] := by
  have hslot := slotWord_ge n
  have harb : arbWord < 0x2800080 := by decide
  have hnull : F.ARB_NULL.addr 0 < 0x2800080 := by decide
  simp only [List.mem_cons, List.not_mem_nil, or_false, not_or]
  omega

/-- The port evaluated with a new state of the arbiter that is in start-up. -/
theorem within_onDma_arbStat (d : Dev) (f : Dma → Dma) : Within [arbWord, F.ARB_NULL.addr 0] [.regs, .dma, .pm] d (arbStat (onDma d f)) :=
  ((Within.refl _ _ d).only (only_onDma d f)).next (within_arbStat _)

theorem hostResetWords_sessions : slotWords ++ bindWords ++ tilthRegs ⊆ hostResetWords := by
  have hbind : bindWords = ringStateWords := rfl
  intro a
  rw [hbind]
  simp only [List.mem_append]
  tauto

theorem hostResetWords_rings : ringStateWords ++ tilthRegs ⊆ hostResetWords := by
  intro a
  simp only [List.mem_append]
  tauto

theorem flr_spec (sn : SN) (d : Dev) : HostReset d (flr sn d) := by
  rw [flr_eq]
  have hclosed := closeAll_spec sn d
  generalize closeAll sn d = a at *
  have hrings := within_ringsEnded sn a
  have hsess := ringsEnded_sess sn a
  have hstate := ringsEnded_state sn a
  have hresets (r : Fin 41) := ringsEnded_resets sn a (r := r)
  generalize ringsEnded sn a = b at *
  have harb := within_onDma_arbStat b dmaStarted
  obtain ⟨c, hdma⟩ := arbStat_dma (onDma b dmaStarted)
  obtain ⟨hmode, hcause⟩ := arbStat_startup (d := onDma b dmaStarted) rfl
  have harbState (r : Fin 41) := harb.rState (r := r.val) (ring_notMem_arb (by decide) r.isLt)
  refine ⟨?_, fun r => ⟨fun h => ?_, ?_, fun hlt hopen => ?_⟩, fun n => ?_, by rw [hdma]; rfl, by rw [hdma]; rfl, by rw [hdma]; rfl, hmode, hcause⟩
  · exact ((hclosed.frame.mono hostResetWords_sessions).next hrings hostResetWords_rings).next harb (List.subset_append_right _ _)
  · exact (harbState r).trans (hresets r (by rwa [hclosed.states r]))
  · rw [harbState r]
    exact hstate r
  · exact (harb.rd (ring_notMem_arb (by decide) r.isLt)).trans ((hsess r).trans (hclosed.unbound r hlt hopen))
  · refine (harb.rd (f := F.SEC_SESS_SLOT_OPEN) (slotWord_notMem_arb n)).trans ((hrings.rd ?_).trans (hclosed.closed n))
    exact slotWord_notMem_bind n

theorem hotReset_spec (sn : SN) (d : Dev) : HostReset d (hotReset sn d) ∧
    ((hotReset sn d).dma.bme = false ∧ (hotReset sn d).dma.enable = false ∧ (hotReset sn d).dma.pri = false ∧
      (hotReset sn d).dma.stopped = true ∧ frozen (hotReset sn d) = true) := by
  rw [hotReset_eq]
  have h := flr_spec sn d
  generalize flr sn d = b at *
  have harb := within_onDma_arbStat b dmaUnset
  obtain ⟨c, hdma⟩ := arbStat_dma (onDma b dmaUnset)
  obtain ⟨hmode, hcause⟩ := arbStat_startup (d := onDma b dmaUnset) h.startup
  obtain ⟨hfrozen, -, -⟩ := arbStat_status (onDma b dmaUnset)
  have harbState (r : Fin 41) := harb.rState (r := r.val) (ring_notMem_arb (by decide) r.isLt)
  refine ⟨⟨h.frame.next harb (List.subset_append_right _ _), fun r => ?_, fun n => ?_, ?_, ?_, ?_, hmode, hcause⟩,
    by rw [hdma]; rfl, by rw [hdma]; rfl, by rw [hdma]; rfl, by rw [hdma]; rfl, ?_⟩
  · obtain ⟨hstate, hends, hsess⟩ := h.rings r
    rw [harbState r]
    exact ⟨hstate, hends, fun hlt hopen => (harb.rd (ring_notMem_arb (by decide) r.isLt)).trans (hsess hlt hopen)⟩
  · exact (harb.rd (f := F.SEC_SESS_SLOT_OPEN) (slotWord_notMem_arb n)).trans (h.slots n)
  · rw [hdma]
    exact h.cache
  · rw [hdma]
    exact h.reqs
  · rw [hdma]
    exact h.startup
  · rw [hfrozen]
    simp [portStops, onDma, dmaUnset]

section
variable {s : State} (hcore : s.dev.pwr.core = true)
include hcore

theorem HostReset.actsR {c : Instr} {g : Dev → Dev} {p : State → Prop} (h : HostReset s.dev (g s.dev)) (hexec : exec c s = core s g)
    (hp : p { s with dev := g s.dev }) :
    ActsR hostResetWords [.hif, .dma, .tilth, .sw, .twin, .out, .sec, .pm] c s fun t =>
      (∀ r : Fin 41, (rState s.dev r ≠ 0 → rState t.dev r = 4) ∧ (rState t.dev r = 4 ∨ rState t.dev r = 0) ∧
        (rd s.dev F.HIF_RING_STATUS_SESS r < 15 → rd s.dev F.SEC_SESS_SLOT_OPEN (rd s.dev F.HIF_RING_STATUS_SESS r) = 1 →
          rd t.dev F.HIF_RING_STATUS_SESS r = 15)) ∧
      (∀ n : Fin 15, rd t.dev F.SEC_SESS_SLOT_OPEN n = 0) ∧
      t.dev.dma.cache = [] ∧ t.dev.dma.reqs = [] ∧ t.dev.dma.startup = true ∧
      rd t.dev F.ARB_STATUS_MODE = 1 ∧ rd t.dev F.ARB_STATUS_MODE_CAUSE = 1 ∧ p t :=
  h.frame.actsR (exec_of_core hexec hcore rfl) ⟨h.rings, h.slots, h.cache, h.reqs, h.startup, h.mode, h.cause, hp⟩

end

/-! ### The memories (R501) -/

/-- The switch core and the client side with their memories cleared. -/
def swCleared (x : Switch) : Switch :=
  { x with cm0 := {}, cm1 := {}, sel := [], bad := [], fineBad := [], fineOut := [], ing0 := [], ing1 := [], egb0 := [], egb1 := [],
           fin0 := [], fin1 := [], dlv := [] }

def cliCleared (x : Clients) : Clients := { x with loess := [], low := [false, false, false, false] }

/-- The free blocks of a quadrant. -/
def loessFreed (d : Dev) (q : Nat) : Dev := wr (wr d F.MAP_LOESS_QSTAT_FREE_BLK q 1228) F.MAP_LOESS_QSTAT_MIN_FREE q 1228

/-- The device with its memories cleared. -/
def memoriesCleared (d : Dev) : Dev := { d with sw := swCleared d.sw, cli := cliCleared d.cli }

def memoriesDone (d : Dev) : Dev := wrB ([0, 1, 2, 3].foldl loessFreed (memoriesCleared d)) F.GLB_START_STATUS_MEM_INIT 0 true

theorem memCleared_eq {s : State} (h : rd s.dev F.GLB_START_STATUS_MEM_INIT = 0) :
    memCleared s = { s with sp := {}, dev := memoriesDone s.dev } :=
  if_neg fun hdone => absurd ((rdB_iff s.dev (f := F.GLB_START_STATUS_MEM_INIT) (by decide) 0).mp hdone) (by omega)

theorem memCleared_once {s : State} (h : rd s.dev F.GLB_START_STATUS_MEM_INIT = 1) : memCleared s = s :=
  if_pos ((rdB_iff s.dev (f := F.GLB_START_STATUS_MEM_INIT) (by decide) 0).mpr h)

theorem only_memoriesCleared (d : Dev) : Only [.sw, .cli] d (memoriesCleared d) := by
  intro p hp
  cases p <;> simp_all [Part.same, memoriesCleared]

theorem only_loessFreed (l : List Nat) (d : Dev) : Only [.regs] d (l.foldl loessFreed d) :=
  Within.parts (as := l.flatMap fun q => [F.MAP_LOESS_QSTAT_FREE_BLK.addr q, F.MAP_LOESS_QSTAT_MIN_FREE.addr q]) <|
    Within.foldl (fun e q hq => ((Within.refl _ _ e).wr (List.mem_flatMap.mpr ⟨q, hq, by simp⟩)).wr (List.mem_flatMap.mpr ⟨q, hq, by simp⟩)) d

theorem only_memoriesDone (d : Dev) : Only [.regs, .sw, .cli] d (memoriesDone d) :=
  (((only_memoriesCleared d).trans (only_loessFreed [0, 1, 2, 3] (memoriesCleared d))).trans (only_wr _ F.GLB_START_STATUS_MEM_INIT 0 _)).mono
    (by simp)

theorem exec_memoryCleared {s : State} (hcore : s.dev.pwr.core = true) : exec .memoryCleared s = .next (memCleared s) := by
  show Host.Outcome.next (if s.dev.pwr.core = true then memCleared s else s) = _
  rw [if_pos hcore]

/-- Memory clearing, once. -/
theorem memoryCleared_clears {s : State} (hcore : s.dev.pwr.core = true) (h : rd s.dev F.GLB_START_STATUS_MEM_INIT = 0) :
    ∃ t, exec .memoryCleared s = .next t ∧ t.pending = s.pending ∧ t.sn = s.sn ∧ t.ticked = s.ticked ∧ t.lock = s.lock ∧
      Only [.regs, .sw, .cli] s.dev t.dev ∧ rd t.dev F.GLB_START_STATUS_MEM_INIT = 1 ∧
      t.dev.sw.cm0 = {} ∧ t.dev.sw.cm1 = {} ∧ t.dev.sw.sel = [] ∧ t.dev.cli.loess = [] ∧ (∀ a, spByte t.sp a = 0) ∧ t.sp.bad = [] := by
  refine ⟨_, (exec_memoryCleared hcore).trans (congrArg Host.Outcome.next (memCleared_eq h)), rfl, rfl, rfl, rfl, only_memoriesDone s.dev,
    rd_wrB_bit _ (by decide) true, ?_⟩
  have hfreed := only_loessFreed [0, 1, 2, 3] (memoriesCleared s.dev)
  have hsw : (memoriesDone s.dev).sw = swCleared s.dev.sw := hfreed .sw (by simp)
  have hcli : (memoriesDone s.dev).cli = cliCleared s.dev.cli := hfreed .cli (by simp)
  exact ⟨congrArg Switch.cm0 hsw, congrArg Switch.cm1 hsw, congrArg Switch.sel hsw, congrArg Clients.loess hcli, fun _ => rfl, rfl⟩

/-- Settles O58: the sessions close one by one, the rings reset one by one, and the port is evaluated with the arbiter in its
start-up mode. -/
theorem hostResetsAndMemoryClearing : Obligations.HostResetsAndMemoryClearing := by
  unfold Obligations.HostResetsAndMemoryClearing
  refine ⟨fun s c hcore hc => ?_, fun s hcore => ⟨memoryCleared_clears hcore, fun h => ?_⟩⟩
  · rcases hc with rfl | rfl | rfl
    · exact (flr_spec s.sn s.dev).actsR (g := flr s.sn) hcore rfl fun h => absurd rfl h
    · obtain ⟨hreset, hconf⟩ := hotReset_spec s.sn s.dev
      refine hreset.actsR (g := hotReset s.sn) hcore rfl fun _ => ?_
      simpa only using hconf
    · obtain ⟨hreset, hconf⟩ := hotReset_spec s.sn s.dev
      refine hreset.actsR (g := hotReset s.sn) hcore rfl fun _ => ?_
      simpa only using hconf
  · exact (exec_memoryCleared hcore).trans (congrArg Host.Outcome.next (memCleared_once h))

end Sys2Proof.Machine
end

