-- ==== Sys2Proof/Proofs/PowerKept.lean ====
section
/-! PROOFS. The power state through the model's functions, one rule each, proved by the function's branches and the rules of what it
calls: all but the power sequencer leave it as it is, and those of the standby and the thermal chain leave whether the core runs. -/

namespace Sys2Proof.Machine

-- In order: a default argument `by simp` waits for every declaration before it, and many that wait take many threads.
set_option Elab.async false

/-! ### Branches and folds -/

@[simp] theorem ite_pwr (p : Prop) [Decidable p] (a b : Dev) : (if p then a else b).pwr = if p then a.pwr else b.pwr :=
  apply_ite Dev.pwr p a b

theorem pwr_ite {p : Prop} [Decidable p] {a b : Dev} {x : Pwr} (ha : a.pwr = x) (hb : b.pwr = x) : (if p then a else b).pwr = x := by
  split
  · exact ha
  · exact hb

@[simp] theorem ite_core (p : Prop) [Decidable p] (a b : Pwr) : (if p then a else b).core = if p then a.core else b.core :=
  apply_ite Pwr.core p a b

@[simp] theorem ite_dev (p : Prop) [Decidable p] (a b : State) : (if p then a else b).dev = if p then a.dev else b.dev :=
  apply_ite State.dev p a b

@[simp] theorem foldl_pwr {α : Type} {f : Dev → α → Dev} (h : ∀ d x, (f d x).pwr = d.pwr) (l : List α) (d : Dev) :
    (l.foldl f d).pwr = d.pwr :=
  foldl_same (g := Dev.pwr) h l d

@[simp] theorem foldl_core {α : Type} {f : Dev → α → Dev} (h : ∀ d x, (f d x).pwr.core = d.pwr.core) (l : List α) (d : Dev) :
    (l.foldl f d).pwr.core = d.pwr.core :=
  foldl_same (g := fun d : Dev => d.pwr.core) h l d

section
variable (sn : SN) (d : Dev) (s : State)

/-! ### Rings: records, completions, events and traces (chapter 13) -/

@[simp] theorem dmaMiss_pwr (a : Nat) : (dmaMiss d a).pwr = d.pwr := by simp [dmaMiss]
@[simp] theorem prefetch_pwr (r j : Nat) : (prefetch d r j).pwr = d.pwr := by simp [prefetch]
@[simp] theorem rAdv_pwr (r : Nat) : (rAdv d r).pwr = d.pwr := by simp [rAdv]
@[simp] theorem writeRec_pwr (r bits : Nat) : (writeRec d r bits).pwr = d.pwr := by simp [writeRec]
@[simp] theorem writeEv_pwr (r : Nat) (e : Ev) : (writeEv d r e).pwr = d.pwr := by simp [writeEv]
@[simp] theorem foldEv_pwr (r : Nat) (e : Ev) : (foldEv d r e).pwr = d.pwr := by simp [foldEv]

@[simp] theorem trcDrain_pwr (n : Nat) : (trcDrain n d).pwr = d.pwr := by
  induction n generalizing d with
  | zero => rfl
  | succ n ih =>
    unfold trcDrain
    split
    · rfl
    · split
      · exact (ih _).trans (by simp)
      · rfl

@[simp] theorem trace_pwr (src p0 p1 p2 : Nat) : (trace d sn src p0 p1 p2).pwr = d.pwr := by simp [trace]

@[simp] theorem traceAct_pwr (r uid : Nat) : (traceAct d sn r uid).pwr = d.pwr := by
  unfold traceAct
  split
  all_goals simp

/-! ### Tilth (chapter 9) -/

@[simp] theorem setAside_pwr : (setAside d).pwr = d.pwr := by simp [setAside]
@[simp] theorem preempt_pwr : (preempt d).pwr = d.pwr := by simp [preempt]

@[simp] theorem endBatch_pwr (keep : Bool) : (endBatch d keep).pwr = d.pwr := by
  unfold endBatch
  split
  all_goals simp

@[simp] theorem abortBatchOf_pwr (r : Nat) (keep : Bool) : (abortBatchOf d r keep).pwr = d.pwr := by
  unfold abortBatchOf
  split
  all_goals simp

@[simp] theorem serveConn_pwr (op r : Nat) : (serveConn op r sn d).pwr = d.pwr := by
  unfold serveConn
  dsimp only
  repeat' split
  all_goals simp

@[simp] theorem serveBatchOpen_pwr (r : Nat) : (serveBatchOpen r sn d).pwr = d.pwr := by
  unfold serveBatchOpen
  dsimp only
  repeat' split
  all_goals simp

@[simp] theorem serveBatchCommit_pwr (r : Nat) : (serveBatchCommit r sn d).pwr = d.pwr := by
  unfold serveBatchCommit
  dsimp only
  repeat' split
  all_goals simp

@[simp] theorem serveBatchAbort_pwr (r : Nat) : (serveBatchAbort r sn d).pwr = d.pwr := by
  simp only [serveBatchAbort]
  repeat' split
  all_goals simp_all

@[simp] theorem finishM_pwr (r uid : Nat) (raw : BitVec 512) (st det : Nat) (res : BitVec 64) (lists : List Nat) :
    (finishM d r uid raw st det sn res lists).pwr = d.pwr := by simp [finishM]

@[simp] theorem trySecond_pwr : (trySecond d).pwr = d.pwr := by
  unfold trySecond
  split
  all_goals simp

@[simp] theorem serveFineOpen_pwr (r : Nat) : (serveFineOpen r sn d).pwr = d.pwr := by
  unfold serveFineOpen
  dsimp only
  repeat' split
  all_goals simp

@[simp] theorem serveFineClose_pwr (r : Nat) : (serveFineClose r sn d).pwr = d.pwr := by
  unfold serveFineClose
  dsimp only
  repeat' split
  all_goals simp

@[simp] theorem commitReady_pwr : (commitReady sn d).pwr = d.pwr := by
  unfold commitReady
  refine pwr_ite rfl ?_
  extract_lets e
  have he : e.pwr = d.pwr := pwr_ite rfl rfl
  split
  · exact he
  · exact pwr_ite he (by simp only [tilthStat_pwr, ite_pwr, twinSend_pwr, onTilth_pwr, he, ite_self])

@[simp] theorem divergeMate_pwr : (divergeMate d).pwr = d.pwr := rfl

@[simp] theorem completeMade_pwr : (completeMade d).pwr = d.pwr := by
  unfold completeMade
  split
  · rfl
  · dsimp only
    rw [trySecond_pwr]
    refine (foldl_pwr (fun d m => pwr_ite rfl ?_) _ _).trans (by simp)
    split
    · rfl
    · simp
    · simp

@[simp] theorem lateWrites_pwr : (lateWrites d).pwr = d.pwr := by simp [lateWrites]
@[simp] theorem pageRelease_pwr : (pageRelease sn d).pwr = d.pwr := by simp [pageRelease]
@[simp] theorem planeSet_pwr (p st : Nat) : (planeSet d p st).pwr = d.pwr := by simp [planeSet]
@[simp] theorem inService_pwr (p : Nat) : (inService d p).pwr = d.pwr := by simp [inService]
@[simp] theorem toRetired_pwr (p : Nat) : (toRetired d p).pwr = d.pwr := by simp [toRetired]
@[simp] theorem planesIn_pwr : (planesIn d).pwr = d.pwr := by simp [planesIn]

@[simp] theorem flipNow_pwr : (flipNow sn d).pwr = d.pwr := by
  unfold flipNow
  split
  all_goals simp

@[simp] theorem commitComplete_pwr : (commitComplete sn d).pwr = d.pwr := by simp [commitComplete]

@[simp] theorem withdrawRing_pwr (r : Nat) : (withdrawRing sn d r).pwr = d.pwr := by
  unfold withdrawRing
  dsimp only
  split
  all_goals simp

@[simp] theorem ackDeadline_pwr : (ackDeadline sn d).pwr = d.pwr := by
  unfold ackDeadline
  split
  all_goals simp

@[simp] theorem rollbackDone_pwr : (rollbackDone d).pwr = d.pwr := by simp [rollbackDone]

@[simp] theorem restage_pwr (x : Dev × List Member × Option Batch × Nat × Nat) (m : Member) : (restage sn x m).1.pwr = x.1.pwr := by
  unfold restage
  dsimp only
  repeat' split
  all_goals simp

@[simp] theorem tilthResume_pwr : (tilthResume sn d).pwr = d.pwr := by
  unfold tilthResume
  refine pwr_ite (pwr_ite rfl (pwr_ite (by simp) rfl)) ?_
  · split
    · rfl
    · refine pwr_ite rfl ?_
      extract_lets e work
      have hwork : (work.foldl (restage sn) (e, [], e.tilth.batch, 0, 0)).1.pwr = d.pwr :=
        foldl_same (g := fun x : Dev × List Member × Option Batch × Nat × Nat => x.1.pwr) (restage_pwr sn) work _
      split
      next f ms b left li heq =>
        rw [heq] at hwork
        extract_lets sum g
        have hg : g.pwr = d.pwr := hwork
        split
        · refine pwr_ite ?_ (pwr_ite ?_ ?_)
          · rw [tilthStat_pwr]
            exact (foldl_pwr (fun _ _ => pwr_ite (by simp) rfl) _ _).trans (by simpa using hwork)
          · simpa using hwork
          · simpa using hwork
        · split
          · exact pwr_ite (by simp [hg]) (by simp [hg])
          · simp [hg]

@[simp] theorem batchTimeout_pwr : (batchTimeout d).pwr = d.pwr := by
  unfold batchTimeout
  split
  all_goals simp

@[simp] theorem finishAll_pwr (l : List (Nat × Nat × Nat)) (p st det : Nat) : (finishAll d l p st det sn).pwr = d.pwr := by
  simp [finishAll]

@[simp] theorem startEvac_pwr (p : Nat) : (startEvac d p).pwr = d.pwr := by simp [startEvac]

@[simp] theorem servePlaneRetire_pwr (r : Nat) : (servePlaneRetire r sn d).pwr = d.pwr := by
  unfold servePlaneRetire
  dsimp only
  repeat' split
  all_goals simp

@[simp] theorem servePlaneRestore_pwr (r : Nat) : (servePlaneRestore r sn d).pwr = d.pwr := by
  unfold servePlaneRestore
  dsimp only
  repeat' split
  all_goals simp

@[simp] theorem evacBlocked_pwr (p port side det : Nat) : (evacBlocked sn d p port side det).pwr = d.pwr := by simp [evacBlocked]

@[simp] theorem evacMove_pwr : (evacMove sn d).pwr = d.pwr := by
  unfold evacMove
  split
  · rfl
  · dsimp only
    refine pwr_ite rfl ?_
    split
    · rfl
    · split
      · exact pwr_ite rfl (pwr_ite (evacBlocked_pwr ..) (pwr_ite (evacBlocked_pwr ..) (evacBlocked_pwr ..)))
      · refine pwr_ite (pwr_ite rfl (pwr_ite (evacBlocked_pwr ..) (evacBlocked_pwr ..))) ?_
        rw [tilthStat_pwr, onTilth_pwr, applyPlan_pwr]

@[simp] theorem planeRetired_pwr : (planeRetired sn d).pwr = d.pwr := by
  unfold planeRetired
  split
  all_goals simp

@[simp] theorem restoreCheckEnd_pwr (p : Nat) (ok : Bool) : (restoreCheckEnd p ok sn d).pwr = d.pwr := by simp [restoreCheckEnd]
@[simp] theorem trigger_pwr (p beat : Nat) : (trigger sn d p beat).pwr = d.pwr := by simp [trigger]
@[simp] theorem slackRetire_pwr (p : Nat) : (slackRetire p sn d).pwr = d.pwr := by simp [slackRetire]
@[simp] theorem beatTrigger_pwr (p : Nat) : (beatTrigger p sn d).pwr = d.pwr := by simp [beatTrigger]

/-! ### Host rings and the arbiter status (chapter 13) -/

@[simp] theorem arbStat_pwr : (arbStat d).pwr = d.pwr := by simp [arbStat]

@[simp] theorem doorbell_pwr (off bytes : Nat) (val : W32) : (doorbell off bytes val sn d).pwr = d.pwr := by
  simp only [doorbell, ite_pwr, errMsg_pwr, sat_pwr, raise_pwr, arbStat_pwr, wr_pwr, trcDrain_pwr, ite_self]

@[simp] theorem fetchDesc_pwr (r : Nat) (raw : BitVec 512) (lock : Bool) : (fetchDesc r raw lock sn d).pwr = d.pwr := by simp [fetchDesc]

@[simp] theorem dispatchDesc_pwr (r : Nat) : (dispatchDesc r sn d).pwr = d.pwr := by
  unfold dispatchDesc
  split
  · rfl
  · split
    · rfl
    · simp only [ite_pwr, finish_pwr, preempt_pwr, onTilth_pwr, trace_pwr, modRing_pwr, ite_self]

@[simp] theorem writeCpl_pwr (r : Nat) : (writeCpl r sn d).pwr = d.pwr := by
  unfold writeCpl
  dsimp only
  repeat' split
  all_goals simp

@[simp] theorem lockTimeout_pwr (r : Nat) : (lockTimeout r sn d).pwr = d.pwr := by
  unfold lockTimeout
  split
  all_goals simp

@[simp] theorem eventRecord_pwr : (eventRecord d).pwr = d.pwr := by
  unfold eventRecord
  dsimp only
  repeat' split
  all_goals simp

@[simp] theorem overflowSummary_pwr (r : Nat) : (overflowSummary r d).pwr = d.pwr := by
  unfold overflowSummary
  split
  · rfl
  · dsimp only
    split
    · rfl
    · simp

@[simp] theorem indexWb_pwr (r : Nat) : (indexWb r d).pwr = d.pwr := by simp [indexWb]
@[simp] theorem msixMessage_pwr (r : Nat) (timeUp : Bool) : (msixMessage r timeUp d).pwr = d.pwr := by simp [msixMessage]
@[simp] theorem ringReset_pwr (r : Nat) : (ringReset sn d r).pwr = d.pwr := by simp [ringReset]

@[simp] theorem ringEnable_pwr (r : Nat) (en : Bool) : (ringEnable r en sn d).pwr = d.pwr := by
  simp only [ringEnable, ite_pwr, wrB_pwr, wr_pwr, trcDrain_pwr, modRing_pwr, rSet_pwr, ringReset_pwr, ite_self]

@[simp] theorem ringResetDone_pwr (r : Nat) : (ringResetDone r sn d).pwr = d.pwr := by simp [ringResetDone]
@[simp] theorem closeSlot_pwr (slot : Nat) : (closeSlot d slot).pwr = d.pwr := by simp [closeSlot]
@[simp] theorem closeAll_pwr : (closeAll sn d).pwr = d.pwr := by simp [closeAll]
@[simp] theorem flr_pwr : (flr sn d).pwr = d.pwr := by simp [flr]
@[simp] theorem hotReset_pwr : (hotReset sn d).pwr = d.pwr := by simp [hotReset]

@[simp] theorem ringFault_pwr (r addr code : Nat) : (ringFault sn d r addr code).pwr = d.pwr := by
  unfold ringFault
  extract_lets d₁ d₂ d₃ d₄ c b d₅ m d₆
  have h₁ : d₁.pwr = d.pwr := foldl_pwr (fun _ _ => by simp) _ _
  have h₃ : d₃.pwr = d.pwr := pwr_ite h₁ h₁
  have h₄ : d₄.pwr = d.pwr := by
    simp only [d₄]
    split
    · simp [h₃]
    · exact h₃
  have hb : b.pwr = d.pwr := by simp [b, h₄]
  have h₅ : d₅.pwr = d.pwr := pwr_ite ((foldl_pwr (fun _ _ => pwr_ite (by simp) rfl) _ _).trans hb) h₄
  have h₆ : d₆.pwr = d.pwr := by
    simp only [d₆]
    split
    · exact pwr_ite (by simp [h₅]) h₅
    · exact h₅
  rw [errMsg_pwr, h₆]

@[simp] theorem serveNop_pwr (r : Nat) : (serveNop r sn d).pwr = d.pwr := by
  simp only [serveNop]
  repeat' split
  all_goals simp_all

/-! ### Protection (chapter 10) -/

@[simp] theorem setGroup_pwr (pgid : Nat) (g : Group) : (setGroup d pgid g).pwr = d.pwr := rfl
@[simp] theorem delGroup_pwr (pgid : Nat) : (delGroup d pgid).pwr = d.pwr := rfl

@[simp] theorem putGroup_pwr (pgid : Nat) (g : Group) : (putGroup d pgid g sn).pwr = d.pwr := by
  unfold putGroup
  split
  all_goals simp

@[simp] theorem sendDecision_pwr (pgid : Nat) (g : Group) (sig : Nat) (x : SN) (req : Nat) :
    (sendDecision d pgid g sig x req).pwr = d.pwr := by simp [sendDecision]

@[simp] theorem evalGroup_pwr (ns pgid : Nat) : (evalGroup sn ns d pgid).pwr = d.pwr := by
  unfold evalGroup
  split
  all_goals simp

@[simp] theorem evalAll_pwr (ns : Nat) : (evalAll sn ns d).pwr = d.pwr := by simp [evalAll]
@[simp] theorem decideGrain_pwr (sel mi : Bool) (u : Nat) : (decideGrain sel mi d u).pwr = d.pwr := rfl

@[simp] theorem protSwitch_pwr (pgid old new req : Nat) (x : SN) : (protSwitch d pgid old new req x sn).pwr = d.pwr := by
  simp [protSwitch]

@[simp] theorem finishWaits_pwr (g : Group) (x : SN) : (finishWaits d g x).pwr = d.pwr := by simp [finishWaits]
@[simp] theorem endAlloc_pwr (owner r uid : Nat) : (endAlloc d owner r uid sn).pwr = d.pwr := by simp [endAlloc]

@[simp] theorem decisionApply_pwr (pgid : Nat) : (decisionApply pgid sn d).pwr = d.pwr := by
  unfold decisionApply
  split
  · rfl
  · dsimp only
    refine pwr_ite rfl ?_
    have hfold (u : List Nat) (b c : Bool) (d : Dev) : (u.foldl (decideGrain b c) d).pwr = d.pwr :=
      foldl_pwr (fun d u => decideGrain_pwr d b c u) u d
    refine pwr_ite ?_ ?_
    · split
      · simp only [endAlloc_pwr, delGroup_pwr, finishWaits_pwr, ite_pwr, raise_pwr, seenOr_pwr, protSwitch_pwr, perf_pwr, hfold, ite_self]
      · simp only [evalGroup_pwr, putGroup_pwr, finishWaits_pwr, ite_pwr, raise_pwr, seenOr_pwr, protSwitch_pwr, perf_pwr, hfold, ite_self]
    · simp only [evalGroup_pwr, putGroup_pwr, ite_pwr, raise_pwr, seenOr_pwr, protSwitch_pwr, perf_pwr, hfold, ite_self]

@[simp] theorem holdOffExpiry_pwr (pgid sig ns : Nat) : (holdOffExpiry pgid sig ns sn d).pwr = d.pwr := by
  simp only [holdOffExpiry]
  repeat' split
  all_goals simp_all

@[simp] theorem wtrExpiry_pwr (pgid ns : Nat) : (wtrExpiry pgid ns sn d).pwr = d.pwr := by
  simp only [wtrExpiry]
  repeat' split
  all_goals simp_all

@[simp] theorem enterCmd_pwr (pgid kind sig ring uid : Nat) (late : Bool) (ns : Nat) :
    (enterCmd d pgid kind sig ring uid late ns sn).pwr = d.pwr := by
  unfold enterCmd
  split
  · rfl
  · extract_lets e g₁ g₂ f
    have he : e.pwr = d.pwr := foldl_pwr (fun _ _ => by simp) _ _
    have hf : f.pwr = d.pwr := by simp only [f, evalGroup_pwr, setGroup_pwr, he]
    split
    · exact hf
    · exact pwr_ite (by simp [hf]) (by simp [hf])

@[simp] theorem mirrorTimed_pwr (raw : BitVec 512) (x : SN) : (mirrorTimed d raw x).pwr = d.pwr := by simp [mirrorTimed]

@[simp] theorem servePgCmd_pwr (kind r ns : Nat) : (servePgCmd kind r ns sn d).pwr = d.pwr := by
  unfold servePgCmd
  dsimp only
  repeat' split
  all_goals simp

@[simp] theorem timedEntry_pwr (pgid ns : Nat) : (timedEntry pgid ns sn d).pwr = d.pwr := by
  unfold timedEntry
  dsimp only
  repeat' split
  all_goals simp

@[simp] theorem bridgeHoldExpiry_pwr (pgid : Nat) : (bridgeHoldExpiry pgid d).pwr = d.pwr := by
  unfold bridgeHoldExpiry
  split
  all_goals simp

@[simp] theorem bridgesFall_pwr : (bridgesFall sn d).pwr = d.pwr := by simp [bridgesFall]

@[simp] theorem pscEntryIn_pwr (lane ns : Nat) (e : BitVec 30) : (pscEntryIn lane ns sn d e).pwr = d.pwr := by
  unfold pscEntryIn
  dsimp only
  repeat' split
  all_goals simp

@[simp] theorem pscMessage_pwr (lane : Nat) (msg : Option (BitVec 80)) (ns : Nat) : (pscMessage lane msg ns sn d).pwr = d.pwr := by
  unfold pscMessage
  split
  all_goals simp

@[simp] theorem dpscLoss_pwr (pgid ns : Nat) : (dpscLoss pgid ns sn d).pwr = d.pwr := by
  unfold dpscLoss
  split
  all_goals simp

@[simp] theorem dpscFop_pwr (pgid : Nat) : (dpscFop pgid sn d).pwr = d.pwr := by
  unfold dpscFop
  dsimp only
  repeat' split
  all_goals simp

/-! ### The trigger bus (chapter 11) -/

@[simp] theorem ptbSet_pwr (i c n : Nat) : (ptbSet sn d i c n).1.pwr = d.pwr := by
  unfold ptbSet
  dsimp only
  repeat' split
  all_goals simp

@[simp] theorem ptbAll_pwr (ns : Nat) (l : List (Nat × Nat × Nat)) : (ptbAll sn ns l d).pwr = d.pwr := by
  have hset := foldl_same (g := fun x : Dev × List Nat => x.1.pwr)
    (f := fun x (e : Nat × Nat × Nat) => let y := ptbSet sn x.1 e.1 e.2.1 e.2.2; (y.1, x.2 ++ y.2))
    (fun x e => ptbSet_pwr sn x.1 e.1 e.2.1 e.2.2) l (d, [])
  unfold ptbAll
  dsimp only at hset ⊢
  rw [foldl_pwr (fun d p => evalGroup_pwr sn d ns p), hset]

@[simp] theorem ptbOne_pwr (ns i c : Nat) : (ptbOne sn ns d i c).pwr = d.pwr := by simp [ptbOne]
@[simp] theorem ptbPins_pwr (cyc : Nat) (clk : Bool) : (ptbPins cyc clk d).pwr = d.pwr := by simp [ptbPins]
@[simp] theorem ptbFrame_pwr : (ptbFrame d).pwr = d.pwr := rfl

@[simp] theorem ptbPort_pwr (cyc ms p : Nat) (w : BitVec 16) : (ptbPort sn cyc ms p w d).pwr = d.pwr := by
  unfold ptbPort
  dsimp only
  repeat' split
  all_goals simp

@[simp] theorem ptbTrigger_pwr (cyc : Nat) (w0 w1 : BitVec 16) (ms ns : Nat) : (ptbTrigger cyc w0 w1 ms ns sn d).pwr = d.pwr := by
  simp [ptbTrigger]

@[simp] theorem ptbStop_pwr : (ptbStop d).pwr = d.pwr := by simp [ptbStop]
@[simp] theorem ptbStale_pwr (i ns : Nat) : (ptbStale i ns sn d).pwr = d.pwr := by simp [ptbStale]

@[simp] theorem ptbTblWrite_pwr (i : Nat) (val : W32) (ns : Nat) (lock : Bool) : (ptbTblWrite i val ns lock sn d).pwr = d.pwr := by
  simp [ptbTblWrite]

/-! ### Timing (chapter 16) -/

@[simp] theorem modCand_pwr (i : Nat) (f : Cand → Cand) : (modCand d i f).pwr = d.pwr := rfl
@[simp] theorem candStep_pwr (start : Bool) (i : Nat) : (candStep start sn d i).pwr = d.pwr := by simp [candStep]
@[simp] theorem candEval_pwr (start : Bool) : (candEval start sn d).pwr = d.pwr := by simp [candEval]
@[simp] theorem dpllOwn_pwr (sel st : Nat) : (dpllOwn sn d sel st).pwr = d.pwr := rfl
@[simp] theorem dpllShow_pwr : (dpllShow sn d).pwr = d.pwr := by simp [dpllShow]
@[simp] theorem dpllMove_pwr (sel st : Nat) : (dpllMove sn d sel st).pwr = d.pwr := by simp [dpllMove]

@[simp] theorem refSelect_pwr : (refSelect sn d).pwr = d.pwr := by
  unfold refSelect
  dsimp only
  repeat' split
  all_goals simp

@[simp] theorem dpllLink_pwr : (dpllLink sn d).pwr = d.pwr := by simp [dpllLink]
@[simp] theorem dpllUnlink_pwr : (dpllUnlink sn d).pwr = d.pwr := by simp [dpllUnlink]
@[simp] theorem endPromise_pwr : (endPromise d).pwr = d.pwr := rfl
@[simp] theorem roleFail_pwr : (roleFail sn d).pwr = d.pwr := by simp [roleFail]
@[simp] theorem failCause_pwr (bit : Nat) : (failCause sn d bit).pwr = d.pwr := by simp [failCause]
@[simp] theorem clkNmi_pwr (cause : Nat) : (clkNmi sn d cause).pwr = d.pwr := by simp [clkNmi]
@[simp] theorem candWindow_pwr (i : Nat) (ofs : BitVec 24) : (candWindow i ofs sn d).pwr = d.pwr := by simp [candWindow]
@[simp] theorem candWtrEnd_pwr (i : Nat) : (candWtrEnd i sn d).pwr = d.pwr := by simp [candWtrEnd]
@[simp] theorem noActivity_pwr (i : Nat) (edge : Bool) : (noActivity i edge sn d).pwr = d.pwr := by simp [noActivity]

@[simp] theorem xoOk_pwr (counts : List Nat) : (xoOk counts d).pwr = d.pwr := by
  unfold xoOk
  split
  all_goals simp

@[simp] theorem apllLock_pwr (a : Nat) : (apllLock a d).pwr = d.pwr := by simp [apllLock]
@[simp] theorem xoLoss_pwr : (xoLoss sn d).pwr = d.pwr := by simp [xoLoss]
@[simp] theorem dpllLock_pwr : (dpllLock sn d).pwr = d.pwr := by simp [dpllLock]
@[simp] theorem hoValid_pwr : (hoValid d).pwr = d.pwr := by simp [hoValid]
@[simp] theorem hoExpired_pwr : (hoExpired sn d).pwr = d.pwr := by simp [hoExpired]
@[simp] theorem pstepGo_pwr : (pstepGo sn d).pwr = d.pwr := by simp [pstepGo]

@[simp] theorem phaseStep_pwr : (phaseStep sn d).pwr = d.pwr := by
  unfold phaseStep
  split
  all_goals simp

@[simp] theorem coreRestart_pwr (c : Nat) : (coreRestart d c).pwr = d.pwr := by simp [coreRestart]
@[simp] theorem binsSuspect_pwr : (binsSuspect d).pwr = d.pwr := rfl

@[simp] theorem clockStop_pwr (m : Nat) : (clockStop m sn d).pwr = d.pwr := by
  unfold clockStop
  split
  all_goals simp

@[simp] theorem offFreq_pwr (m : Nat) (count : W32) : (offFreq m count sn d).pwr = d.pwr := by simp [offFreq]

@[simp] theorem rescueRelease_pwr (sys per sysRun perRun : Bool) : (rescueRelease sys per sysRun perRun d).pwr = d.pwr := by
  simp [rescueRelease]

@[simp] theorem muxDone_pwr (per : Bool) : (muxDone per d).pwr = d.pwr := by simp [muxDone]
@[simp] theorem fcntStart_pwr : (fcntStart d).pwr = d.pwr := by simp [fcntStart]
@[simp] theorem fcntDone_pwr (count : W32) (tmo : Bool) : (fcntDone count tmo d).pwr = d.pwr := by simp [fcntDone]

/-! ### Defects of lanes and tributaries -/

@[simp] theorem modFrm_pwr (n : Nat) (f : Framer → Framer) : (modFrm d n f).pwr = d.pwr := rfl
@[simp] theorem modDeg_pwr (n : Nat) (f : Degrade → Degrade) : (modDeg d n f).pwr = d.pwr := rfl
@[simp] theorem defEvent_pwr (code : Nat) (on : Bool) (flags p1 lsn : Nat) : (defEvent sn code on flags p1 lsn d).pwr = d.pwr := rfl

@[simp] theorem setCdef_pwr (key : Nat) (x : BitVec 8) : (setCdef sn d key x).pwr = d.pwr := by
  unfold setCdef
  dsimp only
  split
  all_goals simp

@[simp] theorem resetFilters_pwr (n defs : Nat) : (resetFilters d n defs).pwr = d.pwr := by simp [resetFilters]
@[simp] theorem laneStep_pwr (n want : Nat) : (laneStep sn d n want).pwr = d.pwr := by simp [laneStep]
@[simp] theorem setTrib_pwr (tid : Nat) (t : Trib) : (setTrib d tid t).pwr = d.pwr := rfl

@[simp] theorem monFollow_pwr (tid k : Nat) : (monFollow sn tid k d).pwr = d.pwr := by
  unfold monFollow
  split
  all_goals simp

@[simp] theorem tribsFollow_pwr : (tribsFollow sn d).pwr = d.pwr := by simp [tribsFollow]
@[simp] theorem followAll_pwr (ns : Nat) : (followAll sn ns d).pwr = d.pwr := by simp [followAll]
@[simp] theorem sfSet_pwr (n : Nat) : (sfSet d n).pwr = d.pwr := rfl

@[simp] theorem decisionDue_pwr (pgid : Nat) : (decisionDue pgid sn d).pwr = d.pwr := by
  unfold decisionDue
  dsimp only
  split
  · exact pwr_ite ((followAll_pwr ..).trans ((foldl_pwr (fun _ _ => by simp) _ _).trans (decisionApply_pwr ..))) (decisionApply_pwr ..)
  · exact decisionApply_pwr ..

@[simp] theorem flipFollow_pwr : (flipFollow sn d).pwr = d.pwr := by simp [flipFollow]
@[simp] theorem laneEval_pwr (ns n want : Nat) : (laneEval sn ns n want d).pwr = d.pwr := by simp [laneEval]
@[simp] theorem framerHold_pwr (n : Nat) : (framerHold d n).pwr = d.pwr := by simp [framerHold]
@[simp] theorem laneChanged_pwr (ns n : Nat) : (laneChanged sn ns n d).pwr = d.pwr := by simp [laneChanged]
@[simp] theorem clientDefect_pwr (n c : Nat) (on : Bool) (ns : Nat) : (clientDefect n c on ns sn d).pwr = d.pwr := by simp [clientDefect]

/-! ### Lanes (chapter 4) -/

@[simp] theorem modLane_pwr (n : Nat) (f : Lane → Lane) : (modLane d n f).pwr = d.pwr := rfl
@[simp] theorem txSet_pwr (n st : Nat) : (txSet d n st).pwr = d.pwr := rfl
@[simp] theorem rxSet_pwr (n st : Nat) : (rxSet d n st).pwr = d.pwr := rfl

@[simp] theorem checkMode_pwr (n : Nat) : (checkMode d n).pwr = d.pwr := by
  have hfold (l : List Nat) (d : Dev) : (l.foldl (fun d m => wrB d F.MAP_LANE_STATUS_CFG_ERR m true) d).pwr = d.pwr :=
    foldl_pwr (fun _ _ => by simp) l d
  simp only [checkMode, ite_pwr, wrB_pwr, hfold, ite_self]

@[simp] theorem postQuad_pwr (q : Nat) : (postQuad d q).pwr = d.pwr := by simp [postQuad]
@[simp] theorem dropQuad_pwr (q : Nat) : (dropQuad d q).pwr = d.pwr := by simp [dropQuad]
@[simp] theorem txEn_pwr (n : Nat) (en : Bool) : (txEn n en d).pwr = d.pwr := by simp [txEn]
@[simp] theorem rxClear_pwr (n : Nat) : (rxClear d n).pwr = d.pwr := rfl
@[simp] theorem rxEn_pwr (n : Nat) (en : Bool) (ns : Nat) : (rxEn n en ns sn d).pwr = d.pwr := by simp [rxEn]

@[simp] theorem staggerGrant_pwr (recent : Nat) : (staggerGrant recent d).pwr = d.pwr := by
  unfold staggerGrant
  split
  all_goals simp

@[simp] theorem retryRamp_pwr (n : Nat) : (retryRamp d n).pwr = d.pwr := rfl
@[simp] theorem startLane_pwr (n : Nat) : (startLane d n).pwr = d.pwr := by simp [startLane]
@[simp] theorem quadLock_pwr (q : Nat) : (quadLock q d).pwr = d.pwr := by simp [quadLock]
@[simp] theorem txShort_pwr (n : Nat) : (txShort n sn d).pwr = d.pwr := by simp [txShort]
@[simp] theorem retryExpiry_pwr (n : Nat) : (retryExpiry n d).pwr = d.pwr := by simp [retryExpiry]
@[simp] theorem quadUnlock_pwr (q ns : Nat) : (quadUnlock q ns sn d).pwr = d.pwr := by simp [quadUnlock]
@[simp] theorem quadRelock_pwr (q : Nat) : (quadRelock q d).pwr = d.pwr := by simp [quadRelock]
@[simp] theorem sigDet_pwr (n : Nat) (up : Bool) (ns : Nat) : (sigDet n up ns sn d).pwr = d.pwr := by simp [sigDet]
@[simp] theorem cdrLock_pwr (n : Nat) (up : Bool) (ns : Nat) : (cdrLock n up ns sn d).pwr = d.pwr := by simp [cdrLock]

@[simp] theorem adaptDone_pwr (n : Nat) (snr : BitVec 12) (ctle : BitVec 5) (dfe : BitVec 8) (ffe : List (BitVec 8)) (ns : Nat) :
    (adaptDone n snr ctle dfe ffe ns sn d).pwr = d.pwr := by simp [adaptDone]

@[simp] theorem trackLane_pwr (t : TrackIn) : (trackLane d t).pwr = d.pwr := by simp [trackLane]
@[simp] theorem adaptSlow_pwr (n : Nat) : (adaptSlow n sn d).pwr = d.pwr := by simp [adaptSlow]
@[simp] theorem reacquire_pwr (n ns : Nat) : (reacquire n ns sn d).pwr = d.pwr := by simp [reacquire]
@[simp] theorem prbsClear_pwr (n : Nat) : (prbsClear n d).pwr = d.pwr := rfl
@[simp] theorem prbsRead_pwr (n : Nat) (dbg : Bool) : (prbsRead n dbg d).pwr = d.pwr := by simp [prbsRead]
@[simp] theorem chkFeed_pwr (n : Nat) (prev : Fin 4) (x : List (Fin 4)) : (chkFeed n prev x d).pwr = d.pwr := by simp [chkFeed]
@[simp] theorem loopBits_pwr (n : Nat) (bits : List Bool) : (loopBits n bits d).pwr = d.pwr := by simp [loopBits]
@[simp] theorem lbSlip_pwr (n : Nat) (drop : Bool) : (lbSlip n drop d).pwr = d.pwr := by simp [lbSlip]

@[simp] theorem sendLine_pwr (n : Nat) (x : LineOut) : (sendLine n x d).pwr = d.pwr := by
  unfold sendLine
  split
  all_goals simp

@[simp] theorem genTick_pwr (n : Nat) : (genTick d n).pwr = d.pwr := by simp [genTick]
@[simp] theorem firWrite_pwr (n : Nat) (val : W32) : (firWrite n val d).pwr = d.pwr := by simp [firWrite]
@[simp] theorem eqWrite_pwr (n reg : Nat) (val : W32) : (eqWrite n reg val d).pwr = d.pwr := by simp [eqWrite]

/-! ### Management data channels (chapter 17) -/

@[simp] theorem modChan_pwr (c : Nat) (f : Chan → Chan) : (modChan d c f).pwr = d.pwr := rfl

@[simp] theorem serveMdcRoute_pwr (r : Nat) : (serveMdcRoute r sn d).pwr = d.pwr := by
  unfold serveMdcRoute
  dsimp only
  repeat' split
  all_goals simp

@[simp] theorem applyRoutes_pwr : (applyRoutes d).pwr = d.pwr := by
  unfold applyRoutes
  split
  · rfl
  · exact (foldl_pwr (fun _ _ => by simp) _ _).trans (foldl_pwr (fun _ _ => by simp) _ _)

@[simp] theorem mdcRx_pwr (lsn : SN) (c : Nat) (w : Word20 × Bool) : (mdcRx lsn c d w).pwr = d.pwr := by simp [mdcRx]

@[simp] theorem mdcTx_pwr (c : Nat) : (mdcTx d c).2.pwr = d.pwr := by
  unfold mdcTx
  dsimp only
  repeat' split
  all_goals simp

@[simp] theorem mdcPush_pwr (c : Nat) (w : Word20) : (mdcPush d c w).pwr = d.pwr := by simp [mdcPush]

@[simp] theorem mspBurst_pwr (port : Nat) (rxd : Word20) : (mspBurst port rxd sn d).pwr = d.pwr := by
  unfold mspBurst
  dsimp only
  repeat' split
  all_goals simp

@[simp] theorem mcxDrain_pwr (n : Nat) : (mcxDrain n d).pwr = d.pwr := by
  induction n generalizing d with
  | zero => rfl
  | succ n ih =>
    unfold mcxDrain
    split
    · rfl
    · split
      · exact (ih _).trans (by simp)
      · rfl

@[simp] theorem mcxClose_pwr (c : Nat) (timeUp : Bool) : (mcxClose c timeUp d).pwr = d.pwr := by
  simp only [mcxClose, ite_pwr, modChan_pwr, writeRec_pwr, sat_pwr, dmaMiss_pwr, mcxDrain_pwr, ite_self]

@[simp] theorem mctFetch_pwr (raw : BitVec 512) (lock : Bool) : (mctFetch raw lock d).pwr = d.pwr := by simp [mctFetch]

/-! ### Framers and the received sweep (chapter 5) -/

@[simp] theorem rawMatch_pwr (n off : Nat) (x : RxIn) : (rawMatch n off x d).pwr = d.pwr := by
  unfold rawMatch
  split
  all_goals simp

@[simp] theorem candCheck_pwr (n off : Nat) (x : RxIn) (ns : Nat) : (candCheck n off x ns sn d).pwr = d.pwr := by
  unfold candCheck
  split
  all_goals simp

@[simp] theorem snTrack_pwr (n : Nat) (r : RxSweep) : (snTrack n r d).pwr = d.pwr := by
  unfold snTrack
  split
  all_goals simp

@[simp] theorem bipCheck_pwr (n : Nat) (r : RxSweep) : (bipCheck n r d).pwr = d.pwr := by
  unfold bipCheck
  dsimp only
  split
  all_goals simp

@[simp] theorem fecCount_pwr (n : Nat) (r : RxSweep) : (fecCount n r d).pwr = d.pwr := by simp [fecCount]

@[simp] theorem o2Accept_pwr (n : Nat) (w : Word20) : (o2Accept n w d).1.pwr = d.pwr := by
  unfold o2Accept
  dsimp only
  repeat' split
  all_goals simp

@[simp] theorem ltAccept_pwr (n : Nat) (w : Word20) : (ltAccept n w d).pwr = d.pwr := rfl
@[simp] theorem qlAccept_pwr (n : Nat) (w : Word20) : (qlAccept n w d).pwr = d.pwr := rfl
@[simp] theorem putTrace_pwr (n : Nat) (t : List (BitVec 8)) : (putTrace n t d).pwr = d.pwr := foldl_pwr (fun _ _ => by simp) _ _

@[simp] theorem traceByte_pwr (n : Nat) (w : Word20 × Bool) : (traceByte n w d).1.pwr = d.pwr := by
  unfold traceByte
  extract_lets b v f ok t run e
  have he : e.pwr = d.pwr := modFrm_pwr _ _ _
  clear_value b v f ok t run e
  split
  · exact modFrm_pwr _ _ _
  · split
    · exact modFrm_pwr _ _ _
    · split
      · exact he
      · rw [modFrm_pwr, putTrace_pwr, he]

@[simp] theorem o5Word_pwr (n : Nat) (w : Word20 × Bool) (soft : Bool) (want : Nat) : (o5Word n w soft want d).1.pwr = d.pwr := by
  unfold o5Word
  dsimp only
  repeat' split
  all_goals simp

@[simp] theorem mdcWords_pwr (n : Nat) (r : RxSweep) : (mdcWords n r d).pwr = d.pwr := by simp [mdcWords]
@[simp] theorem setIng_pwr (port : Nat) (p : Page) : (setIng d sn port p).pwr = d.pwr := rfl
@[simp] theorem putIng_pwr (u : Nat) (g : Grain) : (putIng sn d u g).pwr = d.pwr := rfl

@[simp] theorem putAll_pwr (us : List Nat) (gs : List Grain) : (putAll sn us gs d).pwr = d.pwr := by
  unfold putAll
  exact foldl_pwr (fun _ _ => by simp) _ _

@[simp] theorem pairPass_pwr (pgid k : Nat) (h : Held) (g : Group) : (pairPass sn pgid k h d g).pwr = d.pwr := by
  unfold pairPass
  dsimp only
  repeat' split
  all_goals simp

@[simp] theorem pairIn_pwr (ns pgid k : Nat) (lsn : SN) (gs : List Grain) : (pairIn sn ns pgid k lsn gs d).pwr = d.pwr := by
  unfold pairIn
  split
  all_goals simp

@[simp] theorem monSee_pwr (tid k : Nat) (lsn : SN) (jw : Word20) : (monSee tid k lsn jw d).pwr = d.pwr := by
  unfold monSee
  split
  all_goals simp

@[simp] theorem copyOut_pwr (ns : Nat) (lsn : SN) (tid k : Nat) (placed : Bool) (gs : List Grain) :
    (copyOut sn ns lsn tid k placed gs d).pwr = d.pwr := by
  unfold copyOut
  dsimp only
  repeat' split
  all_goals simp

@[simp] theorem copyIn_pwr (ns n : Nat) (lsn : SN) (p : Page) (tid k : Nat) : (copyIn sn ns n lsn p tid k d).pwr = d.pwr := by
  unfold copyIn
  dsimp only
  repeat' split
  all_goals simp

@[simp] theorem grainsIn_pwr (ns : Nat) (lsn : SN) (p : Page) (n : Nat) : (grainsIn sn ns lsn p d n).pwr = d.pwr := by simp [grainsIn]
@[simp] theorem outOfFrame_pwr (n : Nat) : (outOfFrame n d).pwr = d.pwr := rfl
@[simp] theorem arrive_pwr (ns n : Nat) : (arrive sn ns n d).pwr = d.pwr := rfl

@[simp] theorem ohWords_pwr (n : Nat) (r : RxSweep) : (ohWords n r d).1.pwr = d.pwr := by
  unfold ohWords
  dsimp only
  repeat' split
  all_goals simp

@[simp] theorem receivedSweep_pwr (n : Nat) (i : RxIn) (ns : Nat) : (receivedSweep n i ns sn d).pwr = d.pwr := by simp [receivedSweep]
@[simp] theorem degEnd_pwr (n ns : Nat) : (degEnd n ns sn d).pwr = d.pwr := by simp [degEnd]

@[simp] theorem tribPeriodEnd_pwr (tid k ns : Nat) : (tribPeriodEnd tid k ns sn d).pwr = d.pwr := by
  unfold tribPeriodEnd
  split
  all_goals simp

@[simp] theorem fineLock_pwr (tid k : Nat) : (fineLock tid k d).pwr = d.pwr := by
  unfold fineLock
  dsimp only
  repeat' split
  all_goals simp

@[simp] theorem fineLoss_pwr (tid k : Nat) : (fineLoss tid k d).pwr = d.pwr := by
  unfold fineLoss
  split
  all_goals simp

/-! ### Loess (chapter 8) -/

@[simp] theorem quadStat_pwr (q : Nat) : (quadStat sn d q).pwr = d.pwr := by simp [quadStat]
@[simp] theorem allocPut_pwr (a : Alloc) : (allocPut sn a d).pwr = d.pwr := by simp [allocPut]

@[simp] theorem blockReturn_pwr (owner : Nat) : (blockReturn owner sn d).pwr = d.pwr := by
  unfold blockReturn
  dsimp only
  repeat' split
  all_goals simp

@[simp] theorem loessAligned_pwr (tid k : Nat) (client : Bool) (prev arr : List Nat) :
    (loessAligned tid k client prev arr sn d).pwr = d.pwr := by
  unfold loessAligned
  dsimp only
  repeat' split
  all_goals simp

@[simp] theorem clientSkew_pwr (x : Fin 128 × List Int) : (clientSkew sn d x).pwr = d.pwr := by
  unfold clientSkew
  dsimp only
  split
  all_goals simp

@[simp] theorem releaseOne_pwr (tid k : Nat) (s : SN) (r : Int) : (releaseOne sn tid k s r d).pwr = d.pwr := by
  unfold releaseOne
  split
  all_goals simp

@[simp] theorem releaseCopy_pwr (tid k : Nat) : (releaseCopy sn d tid k).pwr = d.pwr := by
  unfold releaseCopy
  dsimp only
  repeat' split
  all_goals simp

@[simp] theorem drainOne_pwr (t : Trib) (k : Nat) : (drainOne sn d t k).pwr = d.pwr := by
  unfold drainOne
  split
  · rfl
  · refine foldl_pwr (fun d x => ?_) _ _
    split
    · simp
    · rfl

@[simp] theorem returnAll_pwr : (returnAll sn d).pwr = d.pwr := by simp [returnAll]
@[simp] theorem releaseAll_pwr : (releaseAll sn d).pwr = d.pwr := by simp [releaseAll]

@[simp] theorem pairAligned_pwr (pgid : Nat) : (pairAligned pgid sn d).pwr = d.pwr := by
  unfold pairAligned
  dsimp only
  repeat' split
  all_goals simp

@[simp] theorem pairLost_pwr (pgid : Nat) : (pairLost pgid sn d).pwr = d.pwr := by
  unfold pairLost
  split
  all_goals simp

@[simp] theorem servePgCreate_pwr (r : Nat) (list : List W32) (ns : Nat) : (servePgCreate r list ns sn d).pwr = d.pwr := by
  unfold servePgCreate
  split
  · rfl
  · extract_lets raw pgid typ el d16 tidV tx rx us unit srcs alloc e cfg g ins f
    have he : e.pwr = d.pwr := pwr_ite (by simp) rfl
    have hf : f.pwr = d.pwr := by simp [f, he]
    split
    · simp
    · split
      · simp
      · split
        · exact hf
        · exact pwr_ite (by simp [hf]) (by simp [hf])

@[simp] theorem servePgDelete_pwr (r ns : Nat) : (servePgDelete r ns sn d).pwr = d.pwr := by
  have hfin (g : Group) (d : Dev) : (g.wait.foldl (fun d w => finish d w.ring w.uid stAborted 4 sn) d).pwr = d.pwr :=
    foldl_pwr (fun _ _ => by simp) _ _
  unfold servePgDelete
  split
  · rfl
  · dsimp only
    split
    · simp
    · split
      · rfl
      · rw [take_pwr, setGroup_pwr, sendDecision_pwr]
        split
        · rw [finish_pwr, hfin]
        · exact hfin _ _

/-! ### Clients (chapter 6) -/

@[simp] theorem modFlx_pwr (g : Nat) (f : FlexE → FlexE) : (modFlx d g f).pwr = d.pwr := rfl

@[simp] theorem flxSize_pwr (g : Nat) : (flxSize sn g d).pwr = d.pwr := by
  unfold flxSize
  refine foldl_pwr (fun d tid => ?_) _ _
  split
  · rfl
  · exact pwr_ite rfl (pwr_ite (by simp) (by simp))

@[simp] theorem flxJudge_pwr (ns n c : Nat) (same : Bool) (run : Nat) : (flxJudge sn ns n c same run d).1.pwr = d.pwr := by
  simp only [flxJudge]
  repeat' split
  all_goals simp_all

@[simp] theorem flexeFrame_pwr (g : Nat) (o : FlxOh) : (flexeFrame g o sn d).pwr = d.pwr := by simp [flexeFrame]

@[simp] theorem pmGone_pwr (kind obj : Nat) (gone : Bool) : (pmGone d kind obj gone).pwr = d.pwr := by
  unfold pmGone
  dsimp only
  split
  all_goals simp

@[simp] theorem pmGoneTid_pwr (tid : Nat) (gone : Bool) : (pmGoneTid d tid gone).pwr = d.pwr := by simp [pmGoneTid]
@[simp] theorem clearMon_pwr (tid k : Nat) (t : Trib) : (clearMon sn tid k t d).pwr = d.pwr := by simp [clearMon]

@[simp] theorem dropTrib_pwr (tid : Nat) : (dropTrib sn tid d).pwr = d.pwr := by
  unfold dropTrib
  split
  all_goals simp

@[simp] theorem calDo_pwr (g : Nat) : (calDo sn g d).pwr = d.pwr := by
  unfold calDo
  split
  all_goals simp

@[simp] theorem calStart_pwr (g : Nat) (f : Tbl (BitVec 16) → Tbl (BitVec 16)) (r uid op tid : Nat) :
    (calStart sn g f r uid op tid d).pwr = d.pwr := by simp [calStart]

@[simp] theorem calSwitch_pwr (g : Nat) : (calSwitch g sn d).pwr = d.pwr := by simp [calSwitch]

@[simp] theorem calTimeout_pwr (g : Nat) : (calTimeout g sn d).pwr = d.pwr := by
  unfold calTimeout
  split
  all_goals simp

@[simp] theorem serveTribDefine_pwr (r : Nat) (w p slots : List W32) (ns : Nat) : (serveTribDefine r w p slots ns sn d).pwr = d.pwr := by
  unfold serveTribDefine
  dsimp only
  repeat' split
  all_goals simp

@[simp] theorem serveTribRelease_pwr (r ns : Nat) : (serveTribRelease r ns sn d).pwr = d.pwr := by
  unfold serveTribRelease
  dsimp only
  repeat' split
  all_goals simp

@[simp] theorem serveDefectConfig_pwr (r : Nat) : (serveDefectConfig r sn d).pwr = d.pwr := by
  unfold serveDefectConfig
  dsimp only
  repeat' split
  all_goals simp

@[simp] theorem mapOvf_pwr (tid : Nat) : (mapOvf tid sn d).pwr = d.pwr := by
  unfold mapOvf
  split
  all_goals simp

@[simp] theorem cpriSlip_pwr (tid : Nat) (discard : Bool) : (cpriSlip tid discard sn d).pwr = d.pwr := by
  unfold cpriSlip
  split
  all_goals simp

@[simp] theorem bufSlip_pwr (tid : Nat) : (bufSlip tid d).pwr = d.pwr := by
  unfold bufSlip
  split
  all_goals simp

@[simp] theorem rjSlip_pwr (tid : Nat) : (rjSlip tid sn d).pwr = d.pwr := by
  unfold rjSlip
  refine foldl_pwr (fun d k => ?_) _ _
  split
  · rfl
  · exact pwr_ite rfl (by simp)

@[simp] theorem rjWindow_pwr (n : Nat) : (rjWindow n sn d).pwr = d.pwr := by
  unfold rjWindow
  dsimp only
  split
  all_goals simp

@[simp] theorem fmHeader_pwr (tid : Nat) : (fmHeader tid sn d).pwr = d.pwr := by
  unfold fmHeader
  dsimp only
  repeat' split
  all_goals simp

/-! ### Mapping and demapping of clients (chapter 6) -/

@[simp] theorem putWords_pwr (us : List Nat) (ws : List Word20) : (putWords sn us ws d).pwr = d.pwr := by simp [putWords]

@[simp] theorem fmFrame_pwr (lane : Nat) (x : Dev × List (List Word20)) (f : Frame) : (fmFrame lane x f).1.pwr = x.1.pwr := by
  unfold fmFrame
  dsimp only
  repeat' split
  all_goals simp

@[simp] theorem mapMi_pwr (tid : Nat) (t : Trib) (mp : Mapper) : (mapMi sn tid t mp d).pwr = d.pwr := by simp [mapMi]

@[simp] theorem clientIn_pwr (t : TickIn) (c : TribCfg) (mp : Mapper) : (clientIn t d c mp).1.pwr = d.pwr := by
  unfold clientIn
  dsimp only
  repeat' split
  all_goals simp

@[simp] theorem mapTest_pwr (tid : Nat) (t : Trib) : (mapTest sn tid t d).pwr = d.pwr := by simp [mapTest]

@[simp] theorem mapTick_pwr (inp : TickIn) (tid : Nat) : (mapTick sn inp d tid).pwr = d.pwr := by
  unfold mapTick
  split
  · rfl
  next t _ =>
    refine pwr_ite rfl ?_
    extract_lets c mode x e mp bl f q y bits level mp' n
    have he : e.pwr = d.pwr := clientIn_pwr _ _ _ _
    have hq : q.1.pwr = d.pwr :=
      (foldl_same (g := fun x : Dev × List (List Word20) => x.1.pwr) (fmFrame_pwr c.lane) _ _).trans he
    clear_value e q
    refine pwr_ite (by simp [he]) (pwr_ite (by simp [he]) (pwr_ite (by simp [hq]) (pwr_ite (by simp [he]) ?_)))
    exact pwr_ite (by simp [he]) (pwr_ite (by simp [he]) (by simp [he]))

@[simp] theorem rjTick_pwr (tid k : Nat) : (rjTick sn d tid k).pwr = d.pwr := by
  unfold rjTick
  split
  all_goals simp

@[simp] theorem sendBlocks_pwr (tid : Nat) (t : Trib) (nb : Nat) (bl : List (BitVec 66)) : (sendBlocks tid t nb bl d).pwr = d.pwr := by
  simp [sendBlocks]

@[simp] theorem failOut_pwr (tid : Nat) (t : Trib) (last : Option (BitVec 12)) : (failOut tid t last d).pwr = d.pwr := by simp [failOut]

@[simp] theorem fmSend_pwr (key fuel need : Nat) (x : Demapper) : (fmSend key fuel need x d).2.pwr = d.pwr := by
  induction fuel generalizing x d with
  | zero => rfl
  | succ fuel ih =>
    unfold fmSend
    split
    · rfl
    · split
      · rfl
      · exact (ih _ _).trans (by simp)

@[simp] theorem demapTick_pwr (tid : Nat) : (demapTick d tid).pwr = d.pwr := by
  unfold demapTick
  split
  · rfl
  · dsimp only
    refine pwr_ite rfl (pwr_ite (failOut_pwr ..) (pwr_ite ((sendBlocks_pwr ..).trans (fmSend_pwr ..)) (pwr_ite ?_ (pwr_ite ?_ ?_))))
    · exact pwr_ite (setTrib_pwr ..) (sendBlocks_pwr ..)
    · exact setTrib_pwr ..
    · exact (sendBlocks_pwr ..).trans (pwr_ite (count_pwr ..) (pwr_ite (count_pwr ..) rfl))

@[simp] theorem flxSend_pwr (g : Nat) : (flxSend d g).pwr = d.pwr := by simp [flxSend]
@[simp] theorem flxAll_pwr : (flxAll d).pwr = d.pwr := by simp [flxAll]
@[simp] theorem badModes_pwr : (badModes d).pwr = d.pwr := by simp [badModes]
@[simp] theorem openPages_pwr : (openPages sn d).pwr = d.pwr := by simp [openPages]

@[simp] theorem mapAll_pwr (inp : TickIn) : (mapAll sn inp d).pwr = d.pwr := by
  unfold mapAll
  dsimp only
  exact (foldl_pwr (fun _ _ => by simp) _ _).trans ((foldl_pwr (fun _ _ => by simp) _ _).trans (by simp))

@[simp] theorem demapAll_pwr : (demapAll d).pwr = d.pwr := by simp [demapAll]

/-! ### The matrix counters -/

@[simp] theorem mtxTick_pwr (t : TickIn) : (mtxTick t d).pwr = d.pwr := rfl

/-! ### The twin link (chapter 12) -/

@[simp] theorem onTwin_pwr (f : Twin → Twin) : (onTwin d f).pwr = d.pwr := rfl

@[simp] theorem twReceive_pwr (t : TickIn) : (twReceive t d).pwr = d.pwr := by
  unfold twReceive
  exact pwr_ite rfl (pwr_ite (by simp) (by simp))

@[simp] theorem takeRecord_pwr (typ : Nat) : (takeRecord typ d).pwr = d.pwr := rfl
@[simp] theorem twTransmit_pwr : (twTransmit sn d).pwr = d.pwr := by simp [twTransmit]
@[simp] theorem heartbeat_pwr : (heartbeat sn d).pwr = d.pwr := by simp [heartbeat]

/-! ### The sweep tick (chapters 3 and 7) -/

@[simp] theorem setEgb_pwr (h : Bool) (b : Tbl Beat) : (setEgb d h b).pwr = d.pwr := rfl
@[simp] theorem setFin_pwr (h : Bool) (b : Tbl Grain) : (setFin d h b).pwr = d.pwr := rfl

@[simp] theorem fineCheck_pwr (page : Bool) : (fineCheck sn page d).pwr = d.pwr := by
  unfold fineCheck
  exact foldl_pwr (fun _ _ => by simp) _ _

@[simp] theorem cmEvent_pwr (mem key : Nat) : (cmEvent sn d mem key).pwr = d.pwr := rfl
@[simp] theorem eccIn_pwr (e : List CmEcc) (f : List (Bool × BitVec 16)) : (eccIn e f d).pwr = d.pwr := rfl

@[simp] theorem readoutCheck_pwr (page : Bool) : (readoutCheck sn page d).pwr = d.pwr := by
  unfold readoutCheck
  exact foldl_pwr (fun _ _ => by simp) _ _

@[simp] theorem readout_pwr (t : TickIn) (src : SN) (page : Bool) : (readout t src page d).pwr = d.pwr := by
  unfold readout
  dsimp only
  rw [setEgb_pwr]
  refine foldl_same (g := fun x : Dev × Tbl Beat => x.1.pwr) (fun x k => ?_) _ _
  split
  · rfl
  · split
    · exact pwr_ite (freed_pwr ..) rfl
    · rfl

@[simp] theorem readStep_pwr (pg : CmPage) (h vl : Bool) (bad : List (Nat × Nat)) (a : Dev × Tbl Grain × List Nat) (u : Nat) :
    (readStep sn pg h vl bad a u).1.pwr = a.1.pwr := by simp [readStep]

@[simp] theorem readAll_pwr (t : TickIn) (page h vl : Bool) : (readAll sn t page h vl d).1.pwr = d.pwr := by
  unfold readAll
  dsimp only
  refine (foldl_pwr (fun _ _ => by simp) _ _).trans ?_
  refine (foldl_same (g := fun x : Dev × Tbl Grain × List Nat => x.1.pwr) (fun x u => readStep_pwr ..) _ _).trans ?_
  exact foldl_pwr (fun _ _ => by simp) _ _

@[simp] theorem planeTick_pwr (t : TickIn) (page : Bool) (p : Nat) : (planeTick sn t page d p).pwr = d.pwr := by simp [planeTick]
@[simp] theorem replaceSf_pwr : (replaceSf sn d).pwr = d.pwr := foldl_pwr (fun _ _ => by simp) _ _

@[simp] theorem grainInTrace_pwr (src : SN) (page : Bool) (pg : Nat × Nat) : (grainInTrace sn src page d pg).pwr = d.pwr := by
  simp [grainInTrace]

@[simp] theorem tagTick_pwr : (tagTick sn d).pwr = d.pwr := by
  unfold tagTick
  dsimp only
  repeat' split
  all_goals simp

@[simp] theorem tagShift_pwr : (tagShift d).pwr = d.pwr := rfl
@[simp] theorem countGrains_pwr (page : Bool) : (countGrains page d).pwr = d.pwr := by simp [countGrains]
@[simp] theorem rxTick_pwr (t : TickIn) : (rxTick t d).pwr = d.pwr := by simp [rxTick]

@[simp] theorem parityTick_pwr (l : List (Fin 128)) : (parityTick sn l d).pwr = d.pwr := by
  unfold parityTick
  exact foldl_pwr (fun _ _ => by simp) _ _

@[simp] theorem sigSet_pwr (n : Nat) (b : Bool) : (sigSet d n b).pwr = d.pwr := by simp [sigSet]
@[simp] theorem sigRun_pwr (n v : Nat) : (sigRun d n v).pwr = d.pwr := rfl
@[simp] theorem sigLane_pwr (rsn : SN) (mis : Nat → Bool) (n : Nat) : (sigLane sn rsn mis d n).pwr = d.pwr := by simp [sigLane]
@[simp] theorem sigJudge_pwr (rsn : SN) (mis : Nat → Bool) : (sigJudge sn rsn mis d).pwr = d.pwr := by simp [sigJudge]
@[simp] theorem sigLost_pwr : (sigLost sn d).pwr = d.pwr := by simp [sigLost]
@[simp] theorem endPromoOn_pwr (f : Nat → Bool) : (endPromoOn f d).pwr = d.pwr := rfl
@[simp] theorem unholdNext_pwr : (unholdNext sn d).pwr = d.pwr := by simp [unholdNext]
@[simp] theorem unholdDone_pwr : (unholdDone sn d).pwr = d.pwr := by simp [unholdDone]
@[simp] theorem holdsEnd_pwr : (holdsEnd d).pwr = d.pwr := by simp [holdsEnd]
@[simp] theorem fineEnd_pwr : (fineEnd d).pwr = d.pwr := by simp [fineEnd]
@[simp] theorem finishSweep_pwr (t : TickIn) : (finishSweep sn t d).pwr = d.pwr := by simp [finishSweep]
@[simp] theorem takeBoundary_pwr : (takeBoundary sn d).pwr = d.pwr := by simp [takeBoundary]
@[simp] theorem pscSnap_pwr (n : Nat) : (pscSnap sn d n).pwr = d.pwr := by simp [pscSnap]

@[simp] theorem snapLane_pwr (n : Nat) : (snapLane sn d n).pwr = d.pwr := by
  have hmdc (l : List Nat) (x : List Word20 × Dev) (c : Nat) : (l.foldl (fun x _ => (x.1 ++ [(mdcTx x.2 c).1], (mdcTx x.2 c).2)) x).2.pwr =
      x.2.pwr :=
    foldl_same (g := fun x : List Word20 × Dev => x.2.pwr) (fun x _ => mdcTx_pwr ..) l x
  unfold snapLane
  refine pwr_ite rfl ?_
  dsimp only
  rw [sendLine_pwr, modLane_pwr, modDeg_pwr, hmdc]
  split
  · simp
  · simp

@[simp] theorem perfTick_pwr : (perfTick sn d).pwr = d.pwr := by
  unfold perfTick
  dsimp only
  refine (foldl_pwr (fun _ _ => by simp) _ _).trans ?_
  rw [ite_pwr, ite_pwr, wr_pwr, wrB_pwr, foldl_pwr (fun _ _ => by simp)]
  simp

@[simp] theorem twinTick_pwr (old : Option SN) : (twinTick sn old d).pwr = d.pwr := by
  unfold twinTick
  dsimp only
  repeat' split
  all_goals simp

@[simp] theorem openSweep_pwr (old : Option SN) (t : TickIn) : (openSweep sn old t d).pwr = d.pwr := by simp [openSweep]
@[simp] theorem grainTag_pwr : (grainTag d).pwr = d.pwr := by simp [grainTag]

/-! ### Control (chapter 15) -/

@[simp] theorem resolveFuses_pwr : (resolveFuses d).pwr = d.pwr := by simp [resolveFuses]
@[simp] theorem spEcc_pwr (ecc : List (Nat × Bool)) (ws : List Nat) : (spEcc ecc ws s).dev.pwr = s.dev.pwr := rfl
@[simp] theorem spFail_pwr (port : Nat) (ws : List Nat) : (spFail port sn ws d).pwr = d.pwr := foldl_pwr (fun _ _ => by simp) _ _

@[simp] theorem spStore_pwr (port : Nat) (bs : List (Option (BitVec 8))) (w : Nat) : (spStore port bs s w).dev.pwr = s.dev.pwr := by
  unfold spStore
  dsimp only
  repeat' split
  all_goals simp

@[simp] theorem spAtomic_pwr (port : Nat) (f : BitVec 64 → BitVec 64) (w : Nat) : (spAtomic port f s w).dev.pwr = s.dev.pwr := by
  unfold spAtomic
  split
  all_goals simp

@[simp] theorem portC_pwr (x : PortC) : (portC s x).dev.pwr = s.dev.pwr := by
  simp only [portC]
  repeat' split
  all_goals simp_all

@[simp] theorem spBusy_pwr (n : Nat) : (spBusy n d).pwr = d.pwr := by simp [spBusy]

@[simp] theorem bar2Read_pwr (off bytes : Nat) (pc : List PortC) (ecc : List (Nat × Bool)) :
    (bar2Read off bytes pc ecc s).dev.pwr = s.dev.pwr := by
  have hc (l : List PortC) (s : State) : (l.foldl portC s).dev.pwr = s.dev.pwr := foldl_same (g := fun s : State => s.dev.pwr) portC_pwr l s
  unfold bar2Read
  dsimp only
  rw [emit_pwr, spFail_pwr]
  exact (foldl_pwr (fun _ _ => by simp) _ _).trans (by simp [hc])

@[simp] theorem spWriteWord_pwr (off : Nat) (data : List (Option (BitVec 8))) (pc : List PortC) (w : Nat) :
    (spWriteWord off data pc s w).dev.pwr = s.dev.pwr := by
  have hc (l : List PortC) (s : State) : (l.foldl portC s).dev.pwr = s.dev.pwr :=
    foldl_same (g := fun s : State => s.dev.pwr) portC_pwr l s
  unfold spWriteWord
  dsimp only
  split
  · rfl
  · split
    · simp [hc]
    · simp [hc]

@[simp] theorem bar2Write_pwr (off : Nat) (data : List (Option (BitVec 8))) (pc : List PortC) (ecc : List (Nat × Bool)) :
    (bar2Write off data pc ecc s).dev.pwr = s.dev.pwr := by
  unfold bar2Write
  refine (foldl_same (g := fun s : State => s.dev.pwr) (fun s w => spWriteWord_pwr s off data pc w) _ _).trans ?_
  simp

@[simp] theorem bar2Atomic_pwr (off : Nat) (f : BitVec 64 → BitVec 64) (pc : List PortC) (ecc : List (Nat × Bool)) :
    (bar2Atomic off f pc ecc s).dev.pwr = s.dev.pwr := by
  have hc (l : List PortC) (s : State) : (l.foldl portC s).dev.pwr = s.dev.pwr := foldl_same (g := fun s : State => s.dev.pwr) portC_pwr l s
  unfold bar2Atomic
  split
  · rfl
  · split
    · simp
    · simp [hc]

@[simp] theorem coresTo_pwr (n : Nat) : (coresTo d n).pwr = d.pwr := rfl
@[simp] theorem startImg_pwr (src : Nat) (img : List (BitVec 8)) : (startImg src img d).pwr = d.pwr := rfl

@[simp] theorem imageVerified_pwr (src : ImgSrc) (img : List (BitVec 8)) (p : Scratch) : (imageVerified src img p sn d).pwr = d.pwr := by
  simp [imageVerified]

@[simp] theorem flashSearch_pwr : (flashSearch d).pwr = d.pwr := by simp [flashSearch]
@[simp] theorem bootGo_pwr : (bootGo d).pwr = d.pwr := by simp [bootGo]

@[simp] theorem activate_pwr (r : Nat) (e : QEnt) : (activate r e sn d).pwr = d.pwr := by
  unfold activate
  split
  all_goals simp

@[simp] theorem serveStage_pwr (r act : Nat) (img : List (BitVec 8)) : (serveStage r act img s).dev.pwr = s.dev.pwr := by
  unfold serveStage
  dsimp only
  repeat' split
  all_goals simp

@[simp] theorem serveActivate_pwr (r : Nat) : (serveActivate r sn d).pwr = d.pwr := by
  simp only [serveActivate]
  repeat' split
  all_goals simp_all

@[simp] theorem stageInvalid_pwr (r : Nat) : (stageInvalid r sn d).pwr = d.pwr := by
  simp only [stageInvalid]
  repeat' split
  all_goals simp_all

@[simp] theorem fwReady_pwr : (fwReady s).dev.pwr = s.dev.pwr := by
  unfold fwReady
  dsimp only
  repeat' split
  all_goals simp

@[simp] theorem fwTimeout_pwr : (fwTimeout sn d).pwr = d.pwr := by simp [fwTimeout]
@[simp] theorem coreWdt_pwr (c : Nat) : (coreWdt c sn d).pwr = d.pwr := by simp [coreWdt]
@[simp] theorem wdtKick_pwr (c : Nat) : (wdtKick c d).pwr = d.pwr := rfl
@[simp] theorem debugHalt_pwr (c : Nat) (on : Bool) : (debugHalt c on d).pwr = d.pwr := by simp [debugHalt]

@[simp] theorem memCleared_pwr : (memCleared s).dev.pwr = s.dev.pwr := by
  unfold memCleared
  dsimp only
  split
  all_goals simp

/-! ### Twin redundancy (chapter 12) -/

@[simp] theorem setCoupling_pwr (n : Nat) : (setCoupling d n).pwr = d.pwr := rfl
@[simp] theorem lastCause_pwr (n : Nat) : (lastCause d n).pwr = d.pwr := rfl
@[simp] theorem control_pwr (code : Nat) (ws : List Nat) : (control d code ws).pwr = d.pwr := by simp [control]
@[simp] theorem toDiverged_pwr (cause : Nat) : (toDiverged sn cause d).pwr = d.pwr := by simp [toDiverged]
@[simp] theorem diverge_pwr (cause : Nat) : (diverge sn cause d).pwr = d.pwr := by simp [diverge]

@[simp] theorem endResync_pwr (st : Nat) : (endResync sn st d).pwr = d.pwr := by
  unfold endResync
  split
  · rfl
  · exact foldl_pwr (fun _ _ => by simp) _ _

@[simp] theorem startResync_pwr (ws : List (Nat × Nat)) : (startResync ws d).pwr = d.pwr := by simp [startResync]
@[simp] theorem autoResync_pwr : (autoResync d).pwr = d.pwr := by simp [autoResync]
@[simp] theorem mateDiverged_pwr : (mateDiverged sn d).pwr = d.pwr := by simp [mateDiverged]
@[simp] theorem becomeStandby_pwr (cause : Nat) : (becomeStandby sn cause d).pwr = d.pwr := by simp [becomeStandby]
@[simp] theorem becomeActive_pwr (cause : Nat) : (becomeActive sn cause d).pwr = d.pwr := by simp [becomeActive]
@[simp] theorem heartbeatLoss_pwr : (heartbeatLoss sn d).pwr = d.pwr := by simp [heartbeatLoss]
@[simp] theorem yieldNow_pwr : (yieldNow sn d).pwr = d.pwr := by simp [yieldNow]

@[simp] theorem twnEn_pwr (en lock : Bool) : (twnEn en lock sn d).pwr = d.pwr := by
  unfold twnEn
  dsimp only
  repeat' split
  all_goals simp

@[simp] theorem claim_pwr (quietMs : Nat) (alive : Bool) : (claim quietMs alive sn d).pwr = d.pwr := by simp [claim]
@[simp] theorem sendPair_pwr : (sendPair d).pwr = d.pwr := rfl
@[simp] theorem pairRecIn_pwr (p : PairRec) : (pairRecIn p d).pwr = d.pwr := by simp [pairRecIn]

@[simp] theorem pairAuth_pwr (resp : BitVec 128) (mateActive : Bool) (mateSn : SN) :
    (pairAuth resp mateActive mateSn s).dev.pwr = s.dev.pwr := by
  unfold pairAuth
  extract_lets t d e f g enter b
  have ht : d.pwr = s.dev.pwr := by simp [d, t]
  split
  · exact ht
  · split
    · exact ht
    · split
      · split
        · simp [ht, e, f, g]
        · simp [ht, e, f, g, b]
      · simp [ht, e]

@[simp] theorem pairRetry_pwr : (pairRetry d).pwr = d.pwr := by simp [pairRetry]

@[simp] theorem linkRise_pwr (delay : BitVec 12) : (linkRise delay sn d).pwr = d.pwr := by
  unfold linkRise
  dsimp only
  repeat' split
  all_goals simp

@[simp] theorem linkFall_pwr (cause : Nat) : (linkFall cause sn d).pwr = d.pwr := by
  unfold linkFall
  dsimp only
  repeat' split
  all_goals simp

@[simp] theorem sweepIn_pwr (delay : BitVec 12) (offset : BitVec 16) : (sweepIn delay offset d).pwr = d.pwr := by simp [sweepIn]
@[simp] theorem sigIn_pwr (rsn : SN) (valid : BitVec 128) (sigs : List W32) : (sigIn rsn valid sigs sn d).pwr = d.pwr := by simp [sigIn]

@[simp] theorem putEntries_pwr (ws : List EntryWr) : (putEntries ws d).pwr = d.pwr := by
  unfold putEntries
  dsimp only
  split
  all_goals simp

@[simp] theorem entryIn_pwr (seq : Nat) (ws : List EntryWr) : (entryIn seq ws sn d).pwr = d.pwr := by simp [entryIn]
@[simp] theorem commitIn_pwr (seq : Nat) (t : SN) : (commitIn seq t sn d).pwr = d.pwr := by simp [commitIn]

@[simp] theorem ackIn_pwr (cs fs : Nat) : (ackIn cs fs sn d).pwr = d.pwr := by
  unfold ackIn
  refine pwr_ite rfl ?_
  extract_lets e ws
  have he : e.pwr = d.pwr := by
    simp only [e]
    split
    · exact pwr_ite rfl rfl
    · rfl
  exact (foldl_pwr (fun _ _ => by simp) _ _).trans he

@[simp] theorem putDecision_pwr (x : DecisionRec) : (putDecision x sn d).pwr = d.pwr := by
  unfold putDecision
  split
  all_goals simp

@[simp] theorem decisionIn_pwr (x : DecisionRec) : (decisionIn x sn d).pwr = d.pwr := by simp [decisionIn]
@[simp] theorem pscSelIn_pwr (lane : Nat) (a b : BitVec 30) : (pscSelIn lane a b d).pwr = d.pwr := by simp [pscSelIn]

@[simp] theorem cfgCommand_pwr (raw : BitVec 512) : (cfgCommand raw d).1.pwr = d.pwr := by
  unfold cfgCommand
  split
  all_goals simp

@[simp] theorem cfgDelete_pwr (pgid : Nat) : (cfgDelete pgid sn d).1.pwr = d.pwr := by
  unfold cfgDelete
  split
  all_goals simp

@[simp] theorem applyCfg_pwr (raw : BitVec 512) (lists : List (List W32)) : (applyCfg raw lists sn d).1.pwr = d.pwr := by
  unfold applyCfg
  dsimp only
  repeat' split
  all_goals simp

@[simp] theorem configIn_pwr (seq : Nat) (raw : BitVec 512) (lists : List (List W32)) : (configIn seq raw lists sn d).pwr = d.pwr := by
  simp [configIn]

@[simp] theorem putBudgets_pwr (l : List BudgetRec) : (putBudgets l sn d).pwr = d.pwr := by simp [putBudgets]

@[simp] theorem stateIn_pwr (c : StateChunk) : (stateIn c sn d).pwr = d.pwr := by
  unfold stateIn
  refine pwr_ite rfl ?_
  split
  · simp
  · simp
  · exact foldl_pwr (fun _ _ => by simp) _ _
  · exact pwr_ite (by simp) (by simp)
  · simp
  · rfl

@[simp] theorem resyncBegin_pwr : (resyncBegin sn d).pwr = d.pwr := by simp [resyncBegin]
@[simp] theorem resyncStop_pwr : (resyncStop sn d).pwr = d.pwr := by simp [resyncStop]
@[simp] theorem lockstep_pwr : (lockstep sn d).pwr = d.pwr := by simp [lockstep]
@[simp] theorem coupled'_pwr : (coupled' sn d).pwr = d.pwr := by simp [coupled']
@[simp] theorem resyncTimeout_pwr : (resyncTimeout sn d).pwr = d.pwr := by simp [resyncTimeout]
@[simp] theorem divergenceIn_pwr : (divergenceIn sn d).pwr = d.pwr := by simp [divergenceIn]

@[simp] theorem ackTimeout_pwr : (ackTimeout sn d).pwr = d.pwr := by
  unfold ackTimeout
  dsimp only
  repeat' split
  all_goals simp

@[simp] theorem mateDeath_pwr (failPin : Bool) (ns : Nat) : (mateDeath failPin ns sn d).pwr = d.pwr := by
  unfold mateDeath
  dsimp only
  split
  all_goals simp

@[simp] theorem promotion_pwr : (promotion sn d).pwr = d.pwr := by
  unfold promotion
  split
  · rfl
  · exact (foldl_pwr (fun _ _ => by simp) _ _).trans (by simp)

@[simp] theorem holdTmo_pwr : (holdTmo d).pwr = d.pwr := by simp [holdTmo]

@[simp] theorem serveSwap_pwr (r : Nat) : (serveSwap r sn d).pwr = d.pwr := by
  unfold serveSwap
  dsimp only
  repeat' split
  all_goals simp

@[simp] theorem swapTick_pwr : (swapTick sn d).pwr = d.pwr := by
  unfold swapTick
  split
  all_goals simp

@[simp] theorem swapDone_pwr : (swapDone sn d).pwr = d.pwr := by
  unfold swapDone
  split
  all_goals simp

@[simp] theorem serveResync_pwr (r : Nat) : (serveResync r sn d).pwr = d.pwr := by
  simp only [serveResync]
  repeat' split
  all_goals simp_all

@[simp] theorem serveUnhold_pwr (r : Nat) : (serveUnhold r sn d).pwr = d.pwr := by
  simp only [serveUnhold]
  repeat' split
  all_goals simp_all

/-! ### Translation and the arbiter (chapter 14) -/

@[simp] theorem onDma_pwr (f : Dma → Dma) : (onDma d f).pwr = d.pwr := rfl
@[simp] theorem askTrans_pwr (a : Nat) : (askTrans d a).pwr = d.pwr := rfl

@[simp] theorem resumeRing_pwr (r : Nat) : (resumeRing d r).pwr = d.pwr := by
  unfold resumeRing
  dsimp only
  split
  all_goals simp

@[simp] theorem sendReqs_pwr : (sendReqs d).pwr = d.pwr := by simp [sendReqs]
@[simp] theorem failAccess_pwr (code page r : Nat) : (failAccess sn code page d r).pwr = d.pwr := by simp [failAccess]

@[simp] theorem pauseRing_pwr (r : Nat) : (pauseRing d r).pwr = d.pwr := by
  unfold pauseRing
  dsimp only
  repeat' split
  all_goals simp

@[simp] theorem transFault_pwr (r : Fin 41) (page : Nat) (w : Bool) : (transFault sn d r page w).pwr = d.pwr := by simp [transFault]

@[simp] theorem transCpl_pwr (c : TransCpl) : (transCpl c sn d).pwr = d.pwr := by
  unfold transCpl
  dsimp only
  repeat' split
  all_goals simp

@[simp] theorem takeReqs_pwr (page : Nat) : (takeReqs d page).2.pwr = d.pwr := by simp [takeReqs]
@[simp] theorem failReqs_pwr (code : Nat) (rs : List PageReq) : (failReqs sn code rs d).pwr = d.pwr := by simp [failReqs]

@[simp] theorem prgResponse_pwr (page code : Nat) : (prgResponse page code sn d).pwr = d.pwr := by
  unfold prgResponse
  dsimp only
  split
  · rfl
  · refine pwr_ite ?_ (pwr_ite (by simp) (by simp))
    exact (foldl_pwr (fun _ _ => foldl_pwr (fun _ _ => by simp) _ _) _ _).trans (by simp)

@[simp] theorem priTimeout_pwr (page : Nat) : (priTimeout page sn d).pwr = d.pwr := by simp [priTimeout]
@[simp] theorem priEnable_pwr (on : Bool) : (priEnable on sn d).pwr = d.pwr := by simp [priEnable]
@[simp] theorem invalidate_pwr (addr size : Nat) : (invalidate addr size d).pwr = d.pwr := rfl
@[simp] theorem invalidated_pwr : (invalidated d).pwr = d.pwr := by simp [invalidated]
@[simp] theorem badRead_pwr (r : Nat) (e : ReadEnd) : (badRead r e sn d).pwr = d.pwr := by simp [badRead]
@[simp] theorem readRetry_pwr (r : Nat) : (readRetry r d).pwr = d.pwr := by simp [readRetry]
@[simp] theorem atsEnable_pwr (on : Bool) : (atsEnable on d).pwr = d.pwr := by simp [atsEnable]
@[simp] theorem msiFlush_pwr : (msiFlush d).pwr = d.pwr := by simp [msiFlush]
@[simp] theorem arbChange_pwr : (arbChange d).pwr = d.pwr := by simp [arbChange]
@[simp] theorem arbWindow_pwr : (arbWindow d).pwr = d.pwr := rfl
@[simp] theorem backoffBits_pwr : (backoffBits d).pwr = d.pwr := rfl
@[simp] theorem arbApply_pwr (g : GrantIn) (r : Fin 8) : (arbApply g r d).pwr = d.pwr := by simp [arbApply]

@[simp] theorem arbGrant_pwr (g : GrantIn) : (arbGrant g d).pwr = d.pwr := by
  unfold arbGrant
  dsimp only
  repeat' split
  all_goals simp

@[simp] theorem backoffEnd_pwr (r : Fin 8) : (backoffEnd r d).pwr = d.pwr := rfl
@[simp] theorem dlDown_pwr : (dlDown d).pwr = d.pwr := by simp [dlDown]
@[simp] theorem hostLinkUp_pwr : (hostLinkUp d).pwr = d.pwr := by simp [hostLinkUp]
@[simp] theorem busMaster_pwr (on : Bool) : (busMaster on d).pwr = d.pwr := by simp [busMaster]
@[simp] theorem recoveryEnd_pwr : (recoveryEnd d).pwr = d.pwr := by simp [recoveryEnd]
@[simp] theorem freezePort_pwr (on : Bool) : (freezePort on d).pwr = d.pwr := by simp [freezePort]
@[simp] theorem drained_pwr : (drained d).pwr = d.pwr := by simp [drained]

/-! ### Monitoring (chapter 17) -/

@[simp] theorem onPm_pwr (f : Pm → Pm) : (onPm d f).pwr = d.pwr := rfl

@[simp] theorem foldObj_pwr (lost : Bool) (x : Second) (k : Nat) : (foldObj lost sn x d k).pwr = d.pwr := by
  unfold foldObj
  split
  all_goals simp

@[simp] theorem foldSecond_pwr (lost : Bool) (x : Second) : (foldSecond lost sn d x).pwr = d.pwr := by simp [foldSecond]
@[simp] theorem foldQueue_pwr : (foldQueue sn d).pwr = d.pwr := by simp [foldQueue]

@[simp] theorem secondEnd_pwr (at' : SN) (tod day : Nat) (cut : Option (Bool × Bool)) : (secondEnd at' tod day cut sn d).pwr = d.pwr := by
  simp [secondEnd]

@[simp] theorem pmSecond_pwr : (pmSecond sn d).pwr = d.pwr := by simp [pmSecond]

@[simp] theorem pmSecLost_pwr (n : Nat) : (pmSecLost n sn d).pwr = d.pwr := by
  unfold pmSecLost
  dsimp only
  split
  all_goals simp

@[simp] theorem legacyPage_pwr : (legacyPage sn d).pwr = d.pwr := by
  unfold legacyPage
  refine pwr_ite rfl ?_
  dsimp only
  split
  · simp
  · rw [onPm_pwr]
    exact (foldl_pwr (fun _ _ => foldl_pwr (fun _ _ => by simp) _ _) _ _).trans ((foldl_pwr (fun _ _ => by simp) _ _).trans (by simp))

@[simp] theorem pmAligned_pwr : (pmAligned sn d).pwr = d.pwr := by
  unfold pmAligned
  split
  all_goals simp

@[simp] theorem servePmConfig_pwr (r : Nat) : (servePmConfig r sn d).pwr = d.pwr := by
  unfold servePmConfig
  dsimp only
  repeat' split
  all_goals simp

@[simp] theorem servePmDump_pwr (r : Nat) : (servePmDump r sn d).pwr = d.pwr := by
  unfold servePmDump
  dsimp only
  repeat' split
  all_goals simp

@[simp] theorem servePmAlign_pwr (r : Nat) : (servePmAlign r sn d).pwr = d.pwr := by
  unfold servePmAlign
  dsimp only
  repeat' split
  all_goals simp

@[simp] theorem pmSnapshot_pwr : (pmSnapshot sn d).pwr = d.pwr := by
  unfold pmSnapshot
  dsimp only
  repeat' split
  all_goals simp

@[simp] theorem dumpDone_pwr (m : Dump) (omitted : Nat) : (dumpDone sn m omitted d).pwr = d.pwr := rfl

@[simp] theorem pmRecord_pwr (pmd : Nat) : (pmRecord pmd sn d).pwr = d.pwr := by
  unfold pmRecord
  dsimp only
  repeat' split
  all_goals simp

@[simp] theorem omissionRecord_pwr (pmd : Nat) : (omissionRecord pmd sn d).pwr = d.pwr := by
  unfold omissionRecord
  dsimp only
  repeat' split
  all_goals simp

@[simp] theorem perfSnap_pwr : (perfSnap d).pwr = d.pwr := rfl

/-! ### Registers (chapter 21) -/

@[simp] theorem clearWord_pwr (a : Nat) : (clearWord d a).pwr = d.pwr := by simp [clearWord]

@[simp] theorem readWords_pwr (lock insp : Bool) (a n : Nat) : (readWords lock insp a n d).2.pwr = d.pwr := by
  induction n generalizing a d with
  | zero => rfl
  | succ n ih =>
    unfold readWords
    exact (ih _ _).trans (by simp)

@[simp] theorem regRead_pwr (m : Master) (addr n : Nat) (lock : Bool) : (regRead m addr n lock d).pwr = d.pwr := by
  unfold regRead
  exact pwr_ite rfl (pwr_ite (by simp) (by simp))

/-- A bar on a field sets a bit of a status word. -/
theorem writeBar_pwr {f : Fld} {i v : Nat} {g : Dev → Dev} (h : writeBar d f i v = some g) (e : Dev) : (g e).pwr = e.pwr := by
  have hbar {p : Prop} [Decidable p] {x : Dev → Dev} (hx : ∀ e, (x e).pwr = e.pwr) (h : (if p then none else some x) = some g) :
      (g e).pwr = e.pwr := by
    split at h
    · exact nomatch h
    · exact Option.some.inj h ▸ hx e
  have hbar' {p : Prop} [Decidable p] {x : Dev → Dev} (hx : ∀ e, (x e).pwr = e.pwr) (h : (if p then some x else none) = some g) :
      (g e).pwr = e.pwr := by
    split at h
    · exact Option.some.inj h ▸ hx e
    · exact nomatch h
  unfold writeBar at h
  split at h
  · exact hbar (fun e => foldl_pwr (fun _ _ => by simp) _ e) h
  · split at h
    · exact hbar (fun e => wrB_pwr ..) h
    · split at h
      · exact hbar (fun e => wrB_pwr ..) h
      · split at h
        · exact nomatch h
        · split at h
          · exact hbar' (fun e => wrB_pwr ..) h
          · split at h
            · exact hbar' (fun e => wrB_pwr ..) h
            · split at h
              · exact hbar (fun e => wrB_pwr ..) h
              · split at h
                · exact hbar' (fun e => wrB_pwr ..) h
                · exact nomatch h

@[simp] theorem storeFld_pwr (lock : Bool) (f : Fld) (i v : Nat) : (storeFld lock d f i v).pwr = d.pwr := by
  unfold storeFld
  refine pwr_ite rfl ?_
  split
  · rfl
  · rfl
  · exact wr_pwr ..
  · rfl
  · refine pwr_ite rfl ?_
    split
    next g hg => exact writeBar_pwr d hg d
    next => exact pwr_ite (by simp) (by simp)

@[simp] theorem afterWrite_pwr (a ns : Nat) (o : Dev) : (afterWrite a sn ns o d).pwr = d.pwr := by
  unfold afterWrite
  extract_lets chg hit on d₁ d₂ d₃ d₄ d₅ d₆ d₇ d₈
  have hhit (f : Fld) (g : Nat → Dev → Dev) (hg : ∀ i d, (g i d).pwr = d.pwr) (d : Dev) : (hit f g d).pwr = d.pwr := by
    simp only [hit]
    split
    · exact hg _ _
    · rfl
  have hon (f : Fld) (g : Nat → Dev → Dev) (hg : ∀ i d, (g i d).pwr = d.pwr) (d : Dev) : (on f g d).pwr = d.pwr := by
    simp only [on]
    split
    · exact hg _ _
    · rfl
  clear_value hit on
  have h₁ : d₁.pwr = d.pwr := hhit _ _ (fun i d => by split <;> simp) d
  have h₂ : d₂.pwr = d.pwr := (hon _ _ (fun i d => laneEval_pwr ..) d₁).trans h₁
  have h₃ : d₃.pwr = d.pwr := (hon _ _ (fun i d => modDeg_pwr ..) d₂).trans h₂
  have h₄ : d₄.pwr = d.pwr := (hon _ _ (fun i d => modCand_pwr ..) d₃).trans h₃
  have h₅ : d₅.pwr = d.pwr := pwr_ite ((candEval_pwr ..).trans h₄) h₄
  have h₆ : d₆.pwr = d.pwr := (hhit _ _ (fun i d => by split <;> simp) d₅).trans h₅
  have h₇ : d₇.pwr = d.pwr := (hon _ _ (fun i d => msiFlush_pwr ..) d₆).trans h₆
  have h₈ : d₈.pwr = d.pwr := (hon _ _ (fun i d => arbChange_pwr ..) d₇).trans h₇
  exact (hon _ _ (fun i d => by split <;> simp) d₈).trans h₈

@[simp] theorem writeWord_pwr (a : Nat) (v : W32) (ns : Nat) (lock : Bool) : (writeWord a v ns lock sn d).pwr = d.pwr := by
  simp [writeWord]

@[simp] theorem putWord_pwr (a : Nat) (v : W32) (ns : Nat) (lock : Bool) : (putWord a v ns lock sn d).pwr = d.pwr := by simp [putWord]

@[simp] theorem regWrite_pwr (m : Master) (addr : Nat) (data : List (W32 × BitVec 4)) (ns : Nat) (lock : Bool) :
    (regWrite m addr data ns lock sn d).pwr = d.pwr := by
  unfold regWrite
  dsimp only
  repeat' split
  all_goals simp

/-! ### Power (chapter 19) -/

@[simp] theorem railBits_pwr (m : BitVec 6) : (railBits d m).pwr = d.pwr := rfl
@[simp] theorem wakeSrc_pwr (m : BitVec 5) : (wakeSrc d m).pwr = d.pwr := rfl
@[simp] theorem acceptEntry_core (t : SN) (kind : Nat) : (acceptEntry t kind sn d).pwr.core = d.pwr.core := by simp [acceptEntry]
@[simp] theorem refuseEntry_core (why : Nat) : (refuseEntry why sn d).pwr.core = d.pwr.core := by simp [refuseEntry]
@[simp] theorem stbyReq_core (ns : Nat) : (stbyReq ns sn d).pwr.core = d.pwr.core := by simp [stbyReq]

@[simp] theorem lpPropose_core (t : SN) : (lpPropose t sn d).pwr.core = d.pwr.core := by
  simp only [lpPropose]
  repeat' split
  all_goals simp_all

@[simp] theorem lpReply_core (agree : Bool) : (lpReply agree sn d).pwr.core = d.pwr.core := by
  unfold lpReply
  split
  all_goals simp

@[simp] theorem lpTimeout_core : (lpTimeout sn d).pwr.core = d.pwr.core := by
  unfold lpTimeout
  split
  all_goals simp

@[simp] theorem entryTick_core : (entryTick sn d).pwr.core = d.pwr.core := by
  have htx (l : List Nat) (d : Dev) :
      (l.foldl (fun d n => if rxSt (txSet d n 0) n = 0 then txSet d n 0 else rxSet (txSet d n 0) n 1) d).pwr = d.pwr :=
    foldl_pwr (fun d n => pwr_ite (txSet_pwr ..) ((rxSet_pwr ..).trans (txSet_pwr ..))) l d
  have hquad (l : List Nat) (d : Dev) :
      (l.foldl (fun d q => wrB (wr d F.LNE_QUAD_STATUS_PWR q 0) F.LNE_QUAD_STATUS_PLL_LOCK q false) d).pwr = d.pwr :=
    foldl_pwr (fun d q => by simp) l d
  unfold entryTick
  split
  · rfl
  · split
    · rfl
    · simp only [onPwr_pwr, hquad, htx]

@[simp] theorem avsLoop_pwr (procs : List (BitVec 12)) : (avsLoop procs sn d).pwr = d.pwr := by
  unfold avsLoop
  dsimp only
  repeat' split
  all_goals simp

@[simp] theorem pmbus_pwr (rails : List (Option (BitVec 16) × Option (BitVec 16) × Option (BitVec 8))) : (pmbus rails sn d).pwr = d.pwr := by
  unfold pmbus
  extract_lets bad put e
  have hput (f : Fld) (r : Nat) (v : Option Nat) (d : Dev) : (put f r v d).pwr = d.pwr := by
    simp only [put]
    split
    · exact wr_pwr ..
    · rfl
  have he : e.pwr = d.pwr := foldl_pwr (fun _ _ => by simp [hput]) _ _
  split
  · exact he
  · exact he

@[simp] theorem thermRequest_core (kind : Nat) : (thermRequest kind sn d).pwr.core = d.pwr.core := by simp [thermRequest]

@[simp] theorem tempRead_core (temps : List (BitVec 12)) : (tempRead temps sn d).pwr.core = d.pwr.core := by
  unfold tempRead
  split
  · rfl
  · simp

@[simp] theorem sensorRead_core (temps volts procs : List (BitVec 12)) : (sensorRead temps volts procs sn d).pwr.core = d.pwr.core := by
  have hput (f : Fld) (l : List (BitVec 12 × Nat)) (d : Dev) : (l.foldl (fun d x => wr d f x.2 x.1.toNat) d).pwr = d.pwr :=
    foldl_pwr (fun _ _ => by simp) l d
  unfold sensorRead
  dsimp only
  rw [tempRead_core]
  refine (foldl_core (fun _ _ => by simp) _ _).trans ?_
  rw [hput, hput, hput]

@[simp] theorem thermDly_core (ns : Nat) : (thermDly ns sn d).pwr.core = d.pwr.core := by
  unfold thermDly
  split
  · rfl
  · dsimp only
    split
    · exact acceptEntry_core _ _ _ _
    · rfl

@[simp] theorem thermHold_core : (thermHold d).pwr.core = d.pwr.core := by simp [thermHold]

/-! ### Security (chapter 18) -/

@[simp] theorem onSec_pwr (f : Sec → Sec) : (onSec d f).pwr = d.pwr := rfl
@[simp] theorem sessionOpen_pwr : (sessionOpen d).pwr = d.pwr := by simp [sessionOpen]
@[simp] theorem sessFail_pwr (reason : Nat) : (sessFail reason sn d).pwr = d.pwr := rfl

@[simp] theorem challenge_pwr : (challenge sn d).pwr = d.pwr := by
  unfold challenge
  refine pwr_ite rfl (pwr_ite (by simp) ?_)
  dsimp only
  rw [wr_pwr, wr_pwr]
  exact foldl_pwr (fun _ _ => by simp) _ _

@[simp] theorem sessGrant_pwr : (sessGrant sn d).pwr = d.pwr := by simp [sessGrant]
@[simp] theorem sessionResp_pwr : (sessionResp sn d).pwr = d.pwr := by simp [sessionResp]
@[simp] theorem respTimeout_pwr : (respTimeout sn d).pwr = d.pwr := by simp [respTimeout]

@[simp] theorem sessionClose_pwr (slot : Nat) : (sessionClose slot sn d).pwr = d.pwr := by
  unfold sessionClose
  split
  all_goals simp

@[simp] theorem smbSess_core (pec : Bool) {f : Dev → Dev} (h : ∀ d, (f d).pwr.core = d.pwr.core) :
    (smbSess pec f d).pwr.core = d.pwr.core := by
  unfold smbSess
  split
  · simp
  · split
    · rfl
    · exact h _

@[simp] theorem smbDevId_pwr : (smbDevId d).pwr = d.pwr := rfl
@[simp] theorem smbStatus_pwr : (smbStatus d).pwr = d.pwr := rfl
@[simp] theorem smbOpenCmd_pwr (pec : Bool) (pwd : List (BitVec 8)) : (smbOpenCmd pec pwd sn d).pwr = d.pwr := by simp [smbOpenCmd]

@[simp] theorem smbRead_pwr (lock : Bool) (a n : Nat) : (smbRead lock a n d).2.pwr = d.pwr := by
  induction n generalizing a d with
  | zero => rfl
  | succ n ih =>
    unfold smbRead
    split
    · exact (ih _ _).trans (by simp)
    · exact ih _ _

@[simp] theorem smbReadCmd_pwr (a n : Nat) (lock : Bool) : (smbReadCmd a n lock d).pwr = d.pwr := by
  simp [smbReadCmd]

@[simp] theorem smbWriteCmd_core (addr : Nat) (v : W32) (ns : Nat) (lock : Bool) :
    (smbWriteCmd addr v ns lock sn d).pwr.core = d.pwr.core := by simp [smbWriteCmd]

@[simp] theorem fuseGo_pwr : (fuseGo d).pwr = d.pwr := by simp [fuseGo]

@[simp] theorem fuseDone_pwr : (fuseDone sn d).pwr = d.pwr := by
  unfold fuseDone
  split
  all_goals simp

@[simp] theorem svnRaise_pwr : (svnRaise sn d).pwr = d.pwr := by
  unfold svnRaise
  split
  all_goals simp

@[simp] theorem jtagChallenge_pwr (resp : BitVec 256) : (jtagChallenge resp d).pwr = d.pwr := by simp [jtagChallenge]
end

end Sys2Proof.Machine
end

