-- ==== Sys2Proof/Proofs/CoreResets.lean ====
section
/-! PROOFS. Reset values, and what taking the core into reset leaves (R31, R479, R501). -/

namespace Sys2Proof.Machine

-- In order: a default argument `by simp` waits for every declaration before it, and many that wait take many threads.
set_option Elab.async false

/-! ### The sequencer keeps a running core (R481 to R484) -/

section
variable (d : Dev)

@[simp] theorem raiseRails_core (o : Nat) : (raiseRails o d).pwr.core = d.pwr.core := rfl

@[simp] theorem lowerRails_core : (lowerRails d).pwr.core = d.pwr.core := by
  unfold lowerRails
  split
  · rfl
  · rfl

@[simp] theorem goDown_core (off : Nat) : (goDown off d).pwr.core = d.pwr.core := by
  unfold goDown
  dsimp only
  split
  · rfl
  · exact lowerRails_core _

@[simp] theorem pgRise_core (r : Nat) : (pgRise r d).pwr.core = d.pwr.core := by
  unfold pgRise
  dsimp only
  split
  · rfl
  · rfl

@[simp] theorem pgLow_core (r : Nat) : (pgLow r d).pwr.core = d.pwr.core := by
  unfold pgLow
  split
  · rfl
  · dsimp only
    split
    · rfl
    · rfl

@[simp] theorem pgTmo_core : (pgTmo d).pwr.core = d.pwr.core := by
  unfold pgTmo
  split
  · rfl
  · dsimp only
    split
    · exact goDown_core _ 5
    · split
      · rfl
      · rfl

theorem releaseCore_core : (releaseCore d).pwr.core = true := by
  simp [releaseCore]

theorem railDly_core (h : d.pwr.core = true) : (railDly d).pwr.core = true := by
  unfold railDly
  split
  · exact h
  · split
    · split
      · exact h
      · exact releaseCore_core d
    · split
      · exact (lowerRails_core d).trans h
      · exact h

end

/-! ### Into reset (R31, R479, R480) -/

/-- What a device holds whose core has been taken into reset, but for what the always-on island keeps. -/
structure TakenDown (s t : State) : Prop where
  pending : t.pending = s.pending
  started : t.sn = 0 ∧ t.ticked = false ∧ t.lock = false ∧ t.sp = {}
  dev : Only [.out, .free, .regs, .twin, .pwr] { sec := { fuses := keptFuses s.dev } } t.dev

section
variable {s t : State}

theorem TakenDown.island (h : TakenDown s t) {d : Dev} (hd : Only [.out, .free, .regs, .twin, .pwr] t.dev d) :
    TakenDown s { t with dev := d } :=
  ⟨h.pending, h.started, (h.dev.trans hd).mono (by simp)⟩

/-- The state before has another device with the same fuses. -/
theorem TakenDown.of_sec {u : State} (h : TakenDown s t) (hpending : s.pending = u.pending) (hsec : s.dev.sec = u.dev.sec) : TakenDown u t := by
  obtain ⟨hp, hstarted, hdev⟩ := h
  refine ⟨hp.trans hpending, hstarted, ?_⟩
  have hfuses : keptFuses u.dev = keptFuses s.dev := by rw [keptFuses, keptFuses, hsec]
  rwa [hfuses]

theorem only_resetDev (d : Dev) : Only [.out, .free, .regs, .twin, .pwr] { sec := { fuses := keptFuses d } } (resetDev d) := by
  intro p hp
  cases p <;> simp_all [Part.same, resetDev]

theorem takenDown_holdCore (s : State) : TakenDown s (holdCore s) := ⟨rfl, ⟨rfl, rfl, rfl, rfl⟩, only_resetDev s.dev⟩

theorem only_raiseRails (o : Nat) (d : Dev) : Only [.pwr] d (raiseRails o d) := only_onPwr d _

theorem only_lowerRails (d : Dev) : Only [.pwr] d (lowerRails d) := by
  unfold lowerRails
  split
  · exact only_onPwr d _
  · exact only_onPwr d _

theorem only_goDown (off : Nat) (d : Dev) : Only [.regs, .pwr] d (goDown off d) := by
  have hdown : Only [.regs, .pwr] d (wr (onPwr d fun p => { p with st := .down }) F.PWR_STATUS_LAST_OFF 0 off) :=
    ((only_onPwr d _).trans (only_wr _ _ _ _)).mono (by simp)
  unfold goDown
  dsimp only
  split
  · exact hdown
  · exact (hdown.trans (only_lowerRails _)).mono (by simp)

theorem takenDown_startUp (s : State) : TakenDown s (startUp s) := by
  refine (takenDown_holdCore s).island ?_
  have hup (a b : Dev) (h : Only [.twin, .pwr] a b) : Only [.out, .free, .regs, .twin, .pwr] a
      (match nextOrder b 0 with | some o => raiseRails o b | none => b) := by
    split
    · exact (h.trans (only_raiseRails _ b)).mono (by simp)
    · exact h.mono (by simp)
  exact hup _ _ (((only_twin (holdCore s).dev _).trans (only_onPwr _ _)).mono (by simp))

end

/-! ### A core that falls (R479) -/

/-- A core that ran and does not run any more has been taken into reset. -/
def FallsByReset (s t : State) : Prop := s.dev.pwr.core = true → t.dev.pwr.core = false → TakenDown s t

namespace FallsByReset

variable {s t u : State}

theorem of_core (h : s.dev.pwr.core = true → t.dev.pwr.core = true) : FallsByReset s t :=
  fun hs ht => absurd ((h hs).symm.trans ht) (by decide)

theorem of_core_eq (h : t.dev.pwr.core = s.dev.pwr.core) : FallsByReset s t := of_core fun hs => h.trans hs

theorem refl (s : State) : FallsByReset s s := of_core_eq rfl

theorem of_takenDown (h : TakenDown s t) : FallsByReset s t := fun _ _ => h

theorem ite {p : Prop} [Decidable p] (h : p → FallsByReset s t) (k : ¬ p → FallsByReset s u) : FallsByReset s (if p then t else u) := by
  split
  case isTrue hp => exact h hp
  case isFalse hp => exact k hp

/-- After a step that keeps queue, core and fuses. -/
theorem after {d : Dev} (h : FallsByReset { s with dev := d } t) (hcore : d.pwr.core = s.dev.pwr.core) (hsec : d.sec = s.dev.sec) :
    FallsByReset s t :=
  fun hs ht => (h (hcore.trans hs) ht).of_sec rfl hsec

end FallsByReset

section
variable (s : State)

theorem fallsByReset_startUp : FallsByReset s (startUp s) := .of_takenDown (takenDown_startUp s)

theorem fallsByReset_wakeUp : FallsByReset s (wakeUp s) := .ite (fun _ => fallsByReset_startUp s) fun _ => .of_core_eq rfl

theorem fallsByReset_wake (b : Nat) : FallsByReset s (wake b s) :=
  .ite (fun _ => .refl s) fun _ => .ite (fun _ => (fallsByReset_wakeUp _).after rfl rfl) fun _ =>
    .ite (fun _ => .of_core_eq rfl) fun _ => .refl s

theorem fallsByReset_standbyReached : FallsByReset s (standbyReached s) :=
  .ite (fun _ => .refl s) fun _ => .ite (fun _ => (fallsByReset_wakeUp _).after rfl rfl) fun _ => .of_core_eq rfl

theorem fallsByReset_offMinEnd : FallsByReset s (offMinEnd s) :=
  .ite (fun _ => .refl s) fun _ => .ite (fun _ => (fallsByReset_startUp _).after rfl rfl) fun _ => .of_core_eq rfl

theorem fallsByReset_railFault (r : Nat) (soon : Bool) : FallsByReset s (railFault r soon s) :=
  .ite (fun _ => .refl s) fun _ => .ite (fun _ => .of_core_eq rfl) fun _ => FallsByReset.after (s := s)
    (.of_takenDown ((takenDown_holdCore _).island (((only_onPwr _ _).trans (only_goDown 4 _)).mono (by simp)))) rfl rfl

theorem fallsByReset_entryReset : FallsByReset s (entryReset s) :=
  .ite (fun _ => .refl s) fun _ => .ite (fun _ => .of_core_eq rfl) fun _ =>
    .of_takenDown ((takenDown_holdCore s).island (((only_onPwr _ _).trans (only_lowerRails _)).mono (by simp)))

theorem fallsByReset_avsDone : FallsByReset s (avsDone s) :=
  .ite (fun _ => (fallsByReset_entryReset _).after rfl rfl) fun _ => .of_core_eq rfl

end

/-! ### Every command (Table 21-3) -/

/-- What the command answers goes on with a core that falls by a reset alone. -/
def FallsInReset (s : State) (r : Res) : Prop := ∀ t, r = .next t → FallsByReset s t

theorem FallsInReset.next {s t : State} (h : FallsByReset s t) : FallsInReset s (.next t) := fun _ heq => Host.Outcome.next.inj heq ▸ h

theorem fallsInReset_onDev {s : State} {g : Dev → Dev} (h : s.dev.pwr.core = true → (g s.dev).pwr.core = true) : FallsInReset s (onDev s g) :=
  .next (.of_core h)

theorem fallsInReset_core {s : State} {g : Dev → Dev} (h : (g s.dev).pwr.core = s.dev.pwr.core) : FallsInReset s (core s g) :=
  fallsInReset_onDev fun hs => by simp [hs, h]

theorem fallsInReset_fromMate {typ : Nat} {s : State} {g : Dev → Dev} (h : ∀ d, (g d).pwr.core = d.pwr.core) :
    FallsInReset s (fromMate typ s g) :=
  fallsInReset_core ((h _).trans (by simp))

theorem fallsInReset_coreSt {s : State} {f : State → State} (h : FallsByReset s (f s)) : FallsInReset s (coreSt s f) :=
  .next (.ite (fun _ => h) fun _ => .refl s)

/-- A command of a running core that reaches the scratchpad and leaves the power state. -/
theorem fallsInReset_coreSt_of_pwr {s : State} {f : State → State} (h : (f s).dev.pwr = s.dev.pwr) : FallsInReset s (coreSt s f) :=
  fallsInReset_coreSt (.of_core_eq (by rw [h]))

theorem fallsInReset_sweepTick (t : TickIn) (s : State) : FallsInReset s (execSweepTick t s) := by
  unfold execSweepTick
  split
  · exact .next (.refl s)
  · split
    · exact .next (.of_core_eq (by simp))
    · exact .next (.of_core_eq (by simp))

/-- Every command: most act on the device of a running core and leave the power state, and each other one is named. -/
theorem exec_fallsInReset (c : Instr) (s : State) : FallsInReset s (exec c s) := by
  cases c
  case sweepTick t => exact fallsInReset_sweepTick t s
  case bar2Read off n pc ecc =>
    by_cases h : beyondWindow (.bar2Read off n pc ecc)
    · exact fun t ht => nomatch (exec_of_beyondWindow s h).symm.trans ht
    · have hexec : exec (.bar2Read off n pc ecc) s = coreSt s (bar2Read off.toNat n pc ecc) := if_neg h
      exact hexec ▸ fallsInReset_coreSt_of_pwr (by simp)
  case bar2Write off data b =>
    by_cases h : beyondWindow (.bar2Write off data b)
    · exact fun t ht => nomatch (exec_of_beyondWindow s h).symm.trans ht
    · have hexec : exec (.bar2Write off data b) s = coreSt s (bar2Write off.toNat data b.pc b.ecc) := if_neg h
      exact hexec ▸ fallsInReset_coreSt_of_pwr (by simp)
  case fetchadd off val b => exact fallsInReset_coreSt_of_pwr (by simp)
  case swap off val b => exact fallsInReset_coreSt_of_pwr (by simp)
  case memoryCleared => exact fallsInReset_coreSt_of_pwr (by simp)
  case fwReady => exact fallsInReset_coreSt_of_pwr (by simp)
  case fwStage r img =>
    unfold exec execFwStage
    exact fallsInReset_coreSt_of_pwr (by simp)
  case fwStageActivate r img => exact fallsInReset_coreSt_of_pwr (by simp)
  case pairAuth resp mateActive x => exact fallsInReset_coreSt_of_pwr (by simp)
  case glbSetupLock => exact fallsInReset_coreSt_of_pwr (f := fun s => { s with lock := true }) rfl
  case avsStepDone => exact fallsInReset_coreSt (fallsByReset_avsDone s)
  case vaoApplied => exact .next (.ite (fun _ => .of_core_eq rfl) fun _ => .refl s)
  case powerOnResetEnd => exact .next (.ite (fun _ => fallsByReset_startUp s) fun _ => .refl s)
  case railFault r soon => exact .next (fallsByReset_railFault s r soon)
  case entryCoreReset => exact .next (fallsByReset_entryReset s)
  case standbyReached => exact .next (fallsByReset_standbyReached s)
  case offMinExpiry => exact .next (fallsByReset_offMinEnd s)
  case wakeN => exact .next (.ite (fun _ => fallsByReset_wake s 0) fun _ => .refl s)
  case smbusWake => exact .next (.ite (fun _ => fallsByReset_wake s 1) fun _ => .refl s)
  case twAliveWake => exact .next (.ite (fun _ => fallsByReset_wake s 2) fun _ => .refl s)
  case wakeTimer => exact .next (.ite (fun _ => fallsByReset_wake s 3) fun _ => .refl s)
  case autoRestart => exact .next (.ite (fun _ => fallsByReset_wake s 4) fun _ => .refl s)
  case vaoLoss => exact .next (.of_takenDown ⟨rfl, ⟨rfl, rfl, rfl, rfl⟩, by intro p hp; cases p <;> simp_all [Part.same]⟩)
  case smbClkLowTimeout => exact .next (.refl s)
  case railDlyExpiry => exact fallsInReset_onDev (railDly_core s.dev)
  case heartbeatLoss | yield | pgInRise | pgTmoExpiry | pgInLow | thermHoldExpiry => exact fallsInReset_onDev fun h => by simp [h]
  case pair | sweep | sig | entry | commit | ack | decision | pscSel | config | state | divergenceNotice | resyncStart |
      resyncEnd | couplingNotice | lpPropose | lpAgree => exact fallsInReset_fromMate fun d => by simp
  case ringReset | ppsIn | clkSelWrite | pmnPerfSelWrite | lockoutExpiry | xoFail | perfClear | smbusSessionTimeout |
      responseFailureCleared | smbusLockoutExpiry =>
    simp only [exec, execRingReset, execPpsIn, execClkSelWrite, execPmnPerfSelWrite, execLockoutExpiry, execXoFail, execPerfClear,
      execSmbusSessionTimeout, execResponseFailureCleared, execSmbusLockoutExpiry]
    exact fallsInReset_core (by simp)
  case sessClose pec => exact fallsInReset_core (smbSess_core s.dev pec fun _ => rfl)
  all_goals exact fallsInReset_core (by simp)

/-! ### Reset values (R501, Table 21-4) -/

/-- The device that a reset leaves. -/
theorem reset_values : let d := State.reset.dev
    State.reset.pending = [] ∧ State.reset.sn = 0 ∧ State.reset.lock = false ∧ State.reset.sp = {} ∧
    Memory.wf State.reset.sp.mem = true ∧
    (∀ r : Fin 41, rState d r = 0 ∧ rd d F.HIF_RING_STATUS_SESS r = 15 ∧ rd d F.HIF_RING_PIDX r = 0 ∧ rd d F.HIF_RING_CIDX r = 0) ∧
    (List.range 8).map (fun r => rd d F.ARB_WEIGHT_W r) = [64, 32, 32, 16, 8, 16, 4, 8] ∧
    rd d F.ARB_CFG_WINDOW = 1024 ∧ rd d F.ARB_STATUS_MODE = 1 ∧ rd d F.ARB_STATUS_MODE_CAUSE = 1 ∧
    rd d F.GLB_ID_PART = 0x2560 ∧ rd d F.GLB_ID_FAMILY = 0x44 ∧ rd d F.HIF_ATS_CFG_PRI_TMO = 100 ∧
    rd d F.PWR_TEMP_CFG_WARN = 105 ∧ rd d F.PWR_TEMP_CFG_SHUT = 115 ∧
    (∀ n : Fin 15, rd d F.SEC_SESS_SLOT_OPEN n = 0) ∧ rd d F.SEC_SESS_STATUS_SLOT = 15 ∧
    d.twin.role = .disabled ∧ d.sw.cm0 = {} ∧ d.sw.cm1 = {} ∧ d.sw.sel = [] ∧ d.prot.groups = [] ∧ d.cli.tribs = [] :=
  ⟨rfl, rfl, rfl, rfl, rfl, by decide +kernel, by decide +kernel, by decide +kernel, by decide +kernel, by decide +kernel, by decide +kernel,
    by decide +kernel, by decide +kernel, by decide +kernel, by decide +kernel, by decide +kernel, by decide +kernel, rfl, rfl, rfl, rfl, rfl, rfl⟩

/-- Settles O60: the reset values are read off, and every command leaves the core running or takes it through the reset. -/
theorem resetValuesAndWhatAResetKeeps : Obligations.ResetValuesAndWhatAResetKeeps := by
  unfold Obligations.ResetValuesAndWhatAResetKeeps
  refine ⟨reset_values, fun c s t hexec hs ht => ?_⟩
  obtain ⟨hpending, ⟨hsn, hticked, hlock, hsp⟩, hdev⟩ := exec_fallsInReset c s t hexec hs ht
  have hsec : t.dev.sec = { fuses := keptFuses s.dev } := hdev .sec (by simp)
  refine ⟨hpending, hsn, hticked, hlock, hsp, hdev .sw (by simp), hdev .tilth (by simp), hdev .prot (by simp), hdev .lanes (by simp),
    hdev .frm (by simp), hdev .deg (by simp), hdev .stagger (by simp), hdev .tti (by simp), hdev .mdcaK (by simp), hdev .cli (by simp),
    hdev .hif (by simp), hdev .dma (by simp), hdev .ctl (by simp), hdev .tim (by simp), hdev .pm (by simp), hdev .chans (by simp), hsec,
    fun hprog => ?_⟩
  simp [hsec, keptFuses, hprog]

end Sys2Proof.Machine
end
